-- ==== Sys2Proof/Word.lean ====
section
/-!
DEFINITION. The word types of Daxmet (spec/00_scope.md R6: every register is 32 bits wide and little-endian)
and the one table type in which the model holds everything that is numbered and mostly at rest: mailboxes, tenants,
frames, bytes of memory. A table lists only the entries that differ from what an unlisted key reads as, in rising order
of the key, so that equal contents are equal data.
-/
namespace Sys2Proof

/-- A 32-bit register or argument word. -/
abbrev Word := BitVec 32
/-- One byte. -/
abbrev Byte := BitVec 8

/-- A sparse table from numbers to values. -/
abbrev Tab (α : Type) := List (Nat × α)

/-- The value a table holds at a key; `d` is what an unlisted key reads as. -/
def Tab.get {α : Type} (d : α) : Tab α → Nat → α
  | [], _ => d
  | (k, v) :: t, n => if n = k then v else Tab.get d t n

/-- Remove a key (it then reads as the default). -/
def Tab.del {α : Type} : Tab α → Nat → Tab α
  | [], _ => []
  | (k, v) :: t, n => if n = k then Tab.del t n else (k, v) :: Tab.del t n

/-- Insert a value at a key in key order, replacing what stood there. -/
def Tab.ins {α : Type} : Tab α → Nat → α → Tab α
  | [], n, x => [(n, x)]
  | (k, v) :: t, n, x =>
    if n < k then (n, x) :: (k, v) :: t
    else if n = k then (n, x) :: t
    else (k, v) :: Tab.ins t n x

/-- Write a value; writing the default removes the entry, which keeps the form canonical. -/
def Tab.put {α : Type} [DecidableEq α] (d : α) (t : Tab α) (n : Nat) (x : α) : Tab α :=
  if x = d then Tab.del t n else Tab.ins t n x

/-- Apply a function to the value at one key. -/
def Tab.mod {α : Type} [DecidableEq α] (d : α) (t : Tab α) (n : Nat) (f : α → α) : Tab α :=
  Tab.put d t n (f (Tab.get d t n))

/-- Every key of a table is above `n`, and the keys rise strictly. -/
def Tab.above {α : Type} : Nat → Tab α → Bool
  | _, [] => true
  | n, (k, _) :: t => decide (n < k) && Tab.above k t

/-- The keys of a table rise strictly. -/
def Tab.sorted {α : Type} : Tab α → Bool
  | [] => true
  | (k, _) :: t => Tab.above k t

/-- The canonical form: keys rise strictly and no entry equals what an unlisted key reads as. -/
def Tab.wf {α : Type} [DecidableEq α] (d : α) (t : Tab α) : Bool :=
  Tab.sorted t && t.all fun e => !decide (e.2 = d)

/-- The bit of a word, as a Boolean. -/
def bit {w : Nat} (x : BitVec w) (i : Nat) : Bool := x.getLsbD i

/-- The field of `n` bits of a word from bit `lo`, as a number. -/
def fld {w : Nat} (x : BitVec w) (lo n : Nat) : Nat := x.toNat / 2 ^ lo % 2 ^ n

/-- A Boolean as the number 0 or 1. -/
def b2n (b : Bool) : Nat := if b then 1 else 0

/-- Set or clear one bit of a mask. -/
def setBit {w : Nat} (x : BitVec w) (i : Nat) (b : Bool) : BitVec w :=
  if b then x ||| BitVec.ofNat w (2 ^ i) else x &&& ~~~ BitVec.ofNat w (2 ^ i)

/-- The number of ones in a mask. -/
def popcount {w : Nat} (x : BitVec w) : Nat := (List.range w).countP fun i => x.getLsbD i

/-- Little-endian bytes as a number. -/
def leNat : List Byte → Nat
  | [] => 0
  | b :: bs => b.toNat + 256 * leNat bs

/-- A number as `n` little-endian bytes. -/
def leBytes : Nat → Nat → List Byte
  | 0, _ => []
  | n + 1, x => BitVec.ofNat 8 x :: leBytes n (x / 256)

/-- The number in bytes `[off, off + n)` of a block. -/
def leAt (bs : List Byte) (off n : Nat) : Nat := leNat ((bs.drop off).take n)

/-- Round up division. -/
def ceilDiv (a b : Nat) : Nat := (a + b - 1) / b

end Sys2Proof
end

