-- ==== Sys2Proof/Syntax.lean ====
section
/-!
DEFINITION. The commands of Daxmet: one constructor of `Instr` for each row of the table of operations and events. A row
of a mailbox command carries the number of the mailbox whose command it is; its arguments stand in that mailbox. A row of an
event carries the physical facts that the event reports.
-/
namespace Sys2Proof

/-- The path a register access or a mailbox holder uses (spec/06_windsock_mailbox.md R143). -/
inductive Path | host | oob
  deriving DecidableEq, Repr

/-- The deadline classes, which are also the classes of service order (spec/06_windsock_mailbox.md R158, R159). -/
inductive DClass | q | s | l
  deriving DecidableEq, Repr

/-- A monitored clock (spec/03_clocks_resets_power.md R68, Table CP-5; CCLK and ACLK have commands of their own). -/
inductive ClkName
  | wclk | mclk | hclk (h : Fin 8) | gclk (k : Fin 12) | pclk | vclk (n : Fin 8) | tclk (q : Fin 4) | sclk
  deriving DecidableEq, Repr

/-- A PLL of the rail sequence (spec/03_clocks_resets_power.md Table CP-8). -/
inductive Pll | pclk | sclk | wclk | mclk | hclk (h : Fin 8)
  deriving DecidableEq, Repr

/-- STATUS of a JOIN record (spec/04_start_and_doldrums.md, Joining the tray). -/
inductive JoinStatus | joining | excluded | serving
  deriving DecidableEq, Repr

/-- A grant with a lifetime (spec/07_two_party_protection.md R184). -/
inductive GrantKind | expertHost | expertOob | debugUnlock
  deriving DecidableEq, Repr
/-- Where a register access comes from: the host through BAR0 or BAR4, tray management by a 4-byte private transfer at a BAR0 offset
(spec/06_windsock_mailbox.md R145, spec/17_gust_links_and_host.md R472). -/
inductive RegBus | bar0 | bar4 | oob
  deriving DecidableEq, Repr
/-- What tray management does at the TAP (spec/02_board_and_pins.md R49): the mandatory instructions, IDCODE, an access to the IEEE 1500
wrappers, halting, stepping and running the Windsock cores (spec/07_two_party_protection.md R185). -/
inductive TapOp | extest (boundary : Nat) | preload (boundary : Nat) | sample | bypass | idcode | wrapper | coreHalt | coreStep | coreRun
  deriving DecidableEq, Repr
/-- The out-of-band target that a private transfer addresses (spec/02_board_and_pins.md R48, R53). -/
inductive OobTarget | i3c (addr : BitVec 7) | smbus (addr : BitVec 7)
  deriving DecidableEq, Repr
/-- Where a private transfer goes: the target and the BAR0 offset (spec/06_windsock_mailbox.md R145). -/
structure OobDest where
  target : OobTarget
  off : BitVec 24
  deriving DecidableEq, Repr
/-- The mailbox of a pin command that looks at pads, and the levels that the tray gives MGP0 to MGP23 then
(spec/02_board_and_pins.md R57, R62). -/
structure PinLook where
  n : Fin 16
  pads : BitVec 24
  deriving DecidableEq, Repr
/-- The mailbox whose response firmware posts, and whether the writes of its output bytes to host memory completed
(spec/06_windsock_mailbox.md R152, R153). -/
structure PostEnd where
  n : Fin 16
  xferOk : Bool
  deriving DecidableEq, Repr

/-- One static stream of a Gale schedule image: the nodes and ports that it starts and ends at (OUT codes of R220), its route as the
outputs (node, output code) on which it owns slots, and the units that the route touches (spec/08_gale_breeze_lull.md R202, R203). -/
structure SchedStream where
  num : Nat
  window : Nat
  part : Nat
  srcNode : Nat
  srcPort : Nat
  dstNode : Nat
  dstPort : Nat
  route : List (Nat × Nat)
  units : List (Nat × Nat)
  /-- bit p: the stream starts or ends at Vane port p -/
  vane : BitVec 4
  deriving DecidableEq, Repr

/-- The Eddy unit of a router feeds a stream from others, in sibling order (spec/09_multicast_eddy_objects.md R243). -/
structure EddyFeed where
  node : Nat
  out : Nat
  inputs : List Nat
  deriving DecidableEq, Repr

/-- A Gale schedule image as it was read from memory (spec/08_gale_breeze_lull.md R202, Table NW-4). -/
structure SchedImage where
  id : BitVec 32
  /-- trigger object and length in turns of each window -/
  windows : List (Nat × Nat)
  streams : List SchedStream
  /-- the router input table: (node, stream, input code) where the stream passes -/
  inputs : List (Nat × Nat × Nat)
  /-- the Eddy units that feed streams -/
  eddies : List EddyFeed
  /-- the owned slots: (node, output code, slot, stream); 16 + port for an injection wheel -/
  owned : List (Nat × Nat × Nat × Nat)
  digest : BitVec 384
  deriving DecidableEq, Repr

/-- A Lull operation as its home receives it (spec/09_multicast_eddy_objects.md R246, Table CO-5): the sender is node 0 to 127
or ring stop 128 to 151. -/
structure LullReq where
  obj : BitVec 14
  node : Fin 152
  slot : Fin 8
  cls : Fin 4
  resume : Bool
  arg : Word
  deriving DecidableEq, Repr

/-- The three networks of a router (spec/08_gale_breeze_lull.md R196). -/
inductive NetKind | gale | breeze | lull
  deriving DecidableEq, Repr

/-- A network link by the node of its west or south end (spec/19_faults_and_recovery.md Table FR-1). -/
structure LinkId where
  node : Fin 128
  vertical : Bool
  deriving DecidableEq, Repr

/-- The four channels of a bond port (spec/10_tile_bond.md R258). -/
inductive BondChan | gale | breeze | lull | slice
  deriving DecidableEq, Repr

/-- A frame from a tile as the port receives it (spec/10_tile_bond.md R255, R258, Table TB-5): its channel, VALID, CMD; the sideband, the
message header or the command; the data; and what came with it. The flits of one Gale packet, and the frames of one run of slice data,
come together, each with its check bits and its FCRC. -/
structure BondFrame where
  chan : BondChan
  valid : Bool
  cmd : Bool := false
  sb : BitVec 64
  data : List Byte
  check : List (BitVec 16) := []
  crd : BitVec 8 := 0
  fcrc : List (BitVec 16)
  /-- the flit check corrects the flit -/
  fixed : Bool
  /-- SID of a slice-stream frame -/
  sid : Fin 16
  vote : Bool
  deriving DecidableEq, Repr

/-- Who asks a slice's arbitration stage for units (spec/11_memory_and_ecc.md R293). -/
inductive UnitUser | pipeline | firmware | dma
  deriving DecidableEq, Repr

/-- A request for units of one slice that reaches the stage in a cycle. -/
structure SliceReq where
  who : UnitUser
  part : Fin 64
  cls : Fin 4
  resume : Bool
  count : Nat
  deriving DecidableEq, Repr

/-- The port of a slice bank an access comes by (spec/11_memory_and_ecc.md R292). -/
inductive SlicePort | stream | gale | spill
  deriving DecidableEq, Repr

/-- A patrol step: of a controller, with the symbols it finds wrong, whether the read after the write-back finds an error
again, and whether a write came between; or of a slice, with the wrong bits of each word of the line. -/
inductive ScrubAt
  | mc (n : Fin 16) (found : List (Fin 68)) (again written : Bool)
  | slice (n : Fin 128) (found : List (Fin 8 × Fin 72))
  deriving DecidableEq, Repr

/-- Where a DMA control message comes from (spec/12_translation_dma_preemption.md R327). -/
inductive DmaSrc | cluster (c : Fin 128) | firmware | pipeline | doorbell | other
  deriving DecidableEq, Repr

/-- How a chunk ends as the other end reports it: well, with the bytes read from a HOST or REMOTE source; with a completion
timeout of the host; refused by the remote package; with the port's link down (spec/12_translation_dma_preemption.md R333). -/
inductive ChunkEnd | ok (data : List Byte) | hostErr | remoteErr (cause : Nat) | linkDown
  deriving DecidableEq, Repr

/-- Who asks for a translation (spec/12_translation_dma_preemption.md R313, Table TD-1). -/
inductive TransUser
  | cluster | vane | eddy (group : Fin 64) | dma (ch : Fin 64) | serving (part : Fin 64) | host (part : Fin 64)
  | remote (part : Fin 64) (slot : Fin 8) (port : Fin 12)
  deriving DecidableEq, Repr


/-- What a handoff ships beside the cache pages: the fields of the context record and the token buffer
(spec/13_serving_pipeline.md R363, Table SP-4), and the pages' bytes in page order. -/
structure GuestCtx where
  cls : Fin 4
  tenant : BitVec 16
  adapter : Option (BitVec 18)
  draft : Bool
  promptLen : Nat
  maxNew : Nat
  tokbuf : BitVec 48
  seed : BitVec 64
  sampling : Vector (BitVec 16) 5
  repWin : BitVec 16
  prompt : List Nat
  gen : List Nat
  stops : List Nat
  pages : List (List Byte)
  deriving DecidableEq, Repr

/-- On which package a handoff's chunks have all been acknowledged. -/
inductive HandoffEnd
  | origin (req : BitVec 21)
  | peer (slot : Fin 8) (req : BitVec 21) (ctx : GuestCtx)
  deriving DecidableEq, Repr



/-- The peer's HELLO of a Crosswind handshake: certificate chain, ephemeral public key, nonce, and the parameters that it names
(spec/16_sealed_arithmetic_crosswind.md R443). -/
structure CxPeer where
  chain : List Byte
  key : List Byte
  nonce : List Byte
  /-- p of Z/p; 0 for Z/2^64 -/
  modulus : Nat
  role : Nat
  tuples : Nat
  deriving DecidableEq, Repr

/-- What an inbound static stream of a schedule image delivers to an MEE group in a window: 64-bit elements in order
(spec/16_sealed_arithmetic_crosswind.md Table SA-2). -/
structure StreamData where
  group : Fin 16
  stream : BitVec 8
  words : List (BitVec 64)
  deriving DecidableEq, Repr


/-- A slot of a Gust block: its 56-bit header, the FCRC of its tag, its 256 bytes (spec/17_gust_links_and_host.md Table GL-1). -/
structure GustSlot where
  hdr : BitVec 56
  fcrc : BitVec 64
  data : List Byte
  deriving DecidableEq, Repr

/-- A Gust block as it arrives: bytes 0 to 7 of its tag slot, HCRC, and the flits of its slots
(spec/17_gust_links_and_host.md R449, Table GL-1). -/
structure GustBlock where
  head : BitVec 64
  hcrc : BitVec 64
  slots : List GustSlot
  deriving DecidableEq, Repr

/-- What the far end carries in a link handshake (spec/17_gust_links_and_host.md R460): certificate chain, ephemeral public key,
nonce, signature, and the identity that it names. -/
structure HsPeer where
  chain : List Byte
  key : List Byte
  nonce : List Byte
  sig : List Byte
  tray : BitVec 12
  slot : Fin 8
  port : Fin 16
  deriving DecidableEq, Repr

/-- Who waits for a host completion (spec/17_gust_links_and_host.md Table GL-12): a chunk of a DMA channel, the mailbox fetch engine,
a submission ring. -/
inductive HostUser | dma (ch : Fin 64) (idx : Fin 16) | fetch | ring (k : Fin 64)
  deriving DecidableEq, Repr

/-- The paths of spec/17_gust_links_and_host.md Table GL-12 with what a request is known by on each. -/
inductive CplPath | host (tag : BitVec 14) (who : HostUser) | cxl (n : Fin 2) (tag : BitVec 16) | gust (port : Fin 12) (src : Fin 128) (tag : BitVec 16)
  deriving DecidableEq, Repr

/-- A write of PCIe configuration space (spec/17_gust_links_and_host.md R470, Table GL-12). -/
inductive CfgWrite | busMaster (on : Bool) | power (d0 : Bool) | cplTimeout (v : Fin 16)
  deriving DecidableEq, Repr

/-- A host access through BAR2: a read of a length, or a write of bytes. -/
inductive BarAccess | read (len : BitVec 13) | write (data : List Byte)
  deriving DecidableEq, Repr

/-- What unit training in PH_TRAIN finds (spec/04_start_and_doldrums.md R99): the clusters whose ports are in service, the agreed
profile and lane masks are already in State; the stacks that trained; the dead routers found by the mesh self-test; for each CXL
port the volatile capacity of its device in bytes, none where it did not train; the listed rows for which a stack reports no spare. -/
structure TrainFacts where
  hbm : BitVec 8
  dead : BitVec 128
  cxl0 : Option (BitVec 48)
  cxl1 : Option (BitVec 48)
  noSpare : List (Nat × Nat)
  deriving DecidableEq, Repr

/-- The endpoint of a node that a Gale packet reaches (spec/08_gale_breeze_lull.md Table NW-2): its cluster, its shared-buffer slice, its
memory controller, its Vane port, its gateway, a DMA channel behind the gateway. -/
inductive FlitEnd | cluster | slice | mc | vane | gateway | dma (ch : Fin 64)
  deriving DecidableEq, Repr

/-- The commands of the block, one per row of the table (spec/95_what_each_step_holds.md says what each step holds). -/
inductive Instr
  /-- REGISTER_WRITE: R7. -/
  | registerWrite (bus : RegBus) (off : BitVec 24) (val : Word) (full : Bool)
  /-- RESERVED_ACCESS: R10. -/
  | reservedAccess (bus : RegBus) (off : BitVec 24) (write : Bool)
  /-- OFFLINE_ACCESS: R12. -/
  | offlineAccess (bus : RegBus) (off : BitVec 24) (write : Bool)
  /-- AON_TIME_LO_READ: R142. -/
  | aonTimeLoRead
  /-- GLK_TXCTR_LO_READ: R480. -/
  | glkTxctrLoRead (port : Fin 12)
  /-- PRIVATE_TRANSFER: R145. -/
  | privateTransfer (dest : OobDest) (write : Option Word)
  /-- I3C_DYNAMIC_ADDRESS: R48. -/
  | i3cDynamicAddress (addr : BitVec 7)
  /-- EXTEST: R49. -/
  | extest (trstN : Bool) (op : TapOp)
  /-- PWR_OK_RISE: R70. -/
  | pwrOkRise (straps : Fin 8) (cold : BitVec 48)
  /-- PWR_OK_FALL: R69. -/
  | pwrOkFall
  /-- TRAY_RST_N_FALL: R69. -/
  | trayRstNFall
  /-- TRAY_RST_N_RISE: R70. -/
  | trayRstNRise
  /-- PKG_RST_N_FALL: R69. -/
  | pkgRstNFall
  /-- PKG_RST_N_RISE: R70. -/
  | pkgRstNRise
  /-- PERST_N_FALL: R163. -/
  | perstNFall
  /-- PERST_N_RISE: R469. -/
  | perstNRise
  /-- PCIE_LINK_UP: R469. -/
  | pcieLinkUp (degraded : Bool)
  /-- PCIE_LINK_DOWN: R469. -/
  | pcieLinkDown
  /-- BAR2_ACCESS: R471. -/
  | bar2Access (off : BitVec 36) (acc : BarAccess)
  /-- XTAL_FAIL: R64. -/
  | xtalFail
  /-- CLK_LOSS: R68. -/
  | clkLoss (clk : ClkName)
  /-- PLL_LOCK: R75. -/
  | pllLock (pll : Pll) (ok : Bool)
  /-- POWER_GOOD: R75. -/
  | powerGood (vpm : Fin 9) (chan : Fin 3)
  /-- PG_DEADLINE: R75. -/
  | pgDeadline (vpm : Fin 9) (chan : Fin 3)
  /-- POWER_DOWN_STEP: R76. -/
  | powerDownStep
  /-- PCMD_FRAME_END: R78. -/
  | pcmdFrameEnd (ack : Fin 4) (rdata : BitVec 16) (rcrc : BitVec 8)
  /-- TELEMETRY_SWEEP: R82. -/
  | telemetrySweep (order : List (Fin 9 × Fin 3))
  /-- PCMD_ALERT: R83. -/
  | pcmdAlert
  /-- FGR_IN_REGULATION: R84. -/
  | fgrInRegulation (cluster : Fin 128)
  /-- DROOP_CLUSTER: R89. -/
  | droopCluster (cluster : Fin 128)
  /-- DROOP_CLUSTER_RELEASE: R89. -/
  | droopClusterRelease (cluster : Fin 128)
  /-- DROOP_TILE_EXPIRY: R89. -/
  | droopTileExpiry (tile : Fin 4)
  /-- DROOP_RAIL: R89. -/
  | droopRail
  /-- DROOP_RAIL_DECAY: R89. -/
  | droopRailDecay
  /-- SEQUENCER_LEASE_RENEW: R90. -/
  | sequencerLeaseRenew
  /-- SEQUENCER_LEASE_EXPIRY: R90. -/
  | sequencerLeaseExpiry
  /-- WATCHDOG_KICK: R140. -/
  | watchdogKick
  /-- WATCHDOG_TRIP: R140. -/
  | watchdogTrip
  /-- FIRMWARE_FATAL: R98. -/
  | firmwareFatal
  /-- WARDEN_RESET: R69. -/
  | wardenReset
  /-- PWR_STATUS: R93. -/
  | pwrStatus (n : Fin 16)
  /-- CLUSTER_GATE: R93. -/
  | clusterGate (n : Fin 16)
  /-- TILE_BUDGET: R74. -/
  | tileBudget (n : Fin 16)
  /-- TILE_VOLTAGE: R73. -/
  | tileVoltage (n : Fin 16)
  /-- FUSE_READ_DONE: R95. -/
  | fuseReadDone (ok : Bool)
  /-- BOOT_COPY_DONE: R97. -/
  | bootCopyDone (crcOk : Bool) (version : BitVec 32)
  /-- AUTH_DONE: R97. -/
  | authDone (sigOk : Bool) (svn : BitVec 16) (measure : BitVec 384)
  /-- TRAIN_COMPLETE: R99. -/
  | trainComplete (facts : TrainFacts)
  /-- PHASE_BUDGET_EXPIRY: R95. -/
  | phaseBudgetExpiry
  /-- HOLD_REPORT: R94. -/
  | holdReport
  /-- HOLD_RECHECK: R492. -/
  | holdRecheck (cold : BitVec 48)
  /-- TRAY_DONE_CHANGE: R103. -/
  | trayDoneChange (othersHigh : Bool)
  /-- DONE_STABLE: R103. -/
  | doneStable
  /-- JOIN_RECORD: R103. -/
  | joinRecord (port : Fin 7) (tray : BitVec 12) (slot : Fin 8) (status : JoinStatus) (map : BitVec 8) (seq : BitVec 16)
  /-- JOIN_RECORD_TIMER: R103. -/
  | joinRecordTimer
  /-- START_STATUS: R115. -/
  | startStatus (n : Fin 16)
  /-- START_RETRY: R115. -/
  | startRetry (n : Fin 16)
  /-- FW_SLOT_STATUS: R115. -/
  | fwSlotStatus (n : Fin 16)
  /-- FW_SLOT_WRITE: R115. -/
  | fwSlotWrite (n : Fin 16)
  /-- FW_SLOT_SELECT: R115. -/
  | fwSlotSelect (n : Fin 16)
  /-- TRAIN_ID: R33. -/
  | trainId (port : Fin 12) (tray : BitVec 12) (slot : Fin 8) (fport : Fin 16) (id : Word) (ifver : Word)
  /-- STREAM_SENT: R125. -/
  | streamSent
  /-- STREAM_ERR_RESEND: R125. -/
  | streamErrResend
  /-- STREAM_REQ: R126. -/
  | streamReq (port : Fin 7) (slot : Fin 8) (num : BitVec 32)
  /-- STREAM_REQ_TIMER: R126. -/
  | streamReqTimer
  /-- TRAY_HEADER: R132. -/
  | trayHeader (hdr : List Byte)
  /-- SECTION_END: R129. -/
  | sectionEnd (body : List Byte)
  /-- TRAILER: R126. -/
  | trailer (bytes : List Byte)
  /-- CCLK_STOP_TIMEOUT: R129. -/
  | cclkStopTimeout
  /-- VANE_LOAD_DONE: R131. -/
  | vaneLoadDone
  /-- VANE_PLL_LOCK_TIMEOUT: R129. -/
  | vanePllLockTimeout
  /-- SP_OPEN: R135. -/
  | spOpen (region : Fin 64) (sending : Bool)
  /-- SP_OUTBOUND_TIMEOUT: R135. -/
  | spOutboundTimeout (region : Fin 64) (ended : Bool)
  /-- SP_RESPONSE_WAIT_END: R135. -/
  | spResponseWaitEnd (region : Fin 64)
  /-- SP_OPEN_LONG: R135. -/
  | spOpenLong (region : Fin 64)
  /-- SP_WRITE: R133. -/
  | spWrite (addr : BitVec 24) (data : List Byte) (fcrc : Word)
  /-- SP_FILL: R133. -/
  | spFill (addr : BitVec 24) (count : Word) (pattern : Word) (fcrc : Word)
  /-- SP_READ: R133. -/
  | spRead (addr : BitVec 24)
  /-- SP_CLOSE: R136. -/
  | spClose (region : Fin 64) (runCrc : Word)
  /-- SP_ABORT: R133. -/
  | spAbort (region : Fin 64)
  /-- SP_STATUS: R133. -/
  | spStatus
  /-- VANE_STATUS: R138. -/
  | vaneStatus (n : Fin 16)
  /-- VANE_STREAM_SEND: R138. -/
  | vaneStreamSend (n : Fin 16)
  /-- VANE_DISABLE: R138. -/
  | vaneDisable (n : Fin 16) (sending : BitVec 4)
  /-- PMX_PIN_WRITE: R58. -/
  | pmxPinWrite (pin : Fin 24) (val : Word)
  /-- PARK_IDLE: R58. -/
  | parkIdle (pin : Fin 24)
  /-- PARK_MIN_EXPIRY: R58. -/
  | parkMinExpiry (pin : Fin 24)
  /-- PARK_TIMEOUT: R58. -/
  | parkTimeout (pin : Fin 24)
  /-- PIN_GET: R62. -/
  | pinGet (look : PinLook)
  /-- PIN_SET_FUNCTION: R62. -/
  | pinSetFunction (n : Fin 16)
  /-- PIN_GPIO: R62. -/
  | pinGpio (look : PinLook)
  /-- MBX_CLAIM: R147. -/
  | mbxClaim (path : Path) (n : Fin 16) (val : Word)
  /-- MBX_HB: R149. -/
  | mbxHb (path : Path) (n : Fin 16) (val : Word)
  /-- MBX_RELEASE: R150. -/
  | mbxRelease (path : Path) (n : Fin 16) (val : Word)
  /-- LEASE_EXPIRY: R150. -/
  | leaseExpiry (n : Fin 16)
  /-- DBL_MBX: R155. -/
  | dblMbx (path : Path) (n : Fin 16) (val : Word)
  /-- COMMAND_TAKE: R158. -/
  | commandTake (cls : DClass) (fetched : Option (List Byte))
  /-- RESPONSE_POST: R153. -/
  | responsePost (post : PostEnd)
  /-- DEADLINE_EXPIRY: R160. -/
  | deadlineExpiry (n : Fin 16)
  /-- MBX_ECHO: R167. -/
  | mbxEcho (n : Fin 16)
  /-- IF_INFO: R167. -/
  | ifInfo (n : Fin 16)
  /-- TICKET_CHALLENGE: R176. -/
  | ticketChallenge (n : Fin 16)
  /-- CHALLENGE_EXPIRY: R176. -/
  | challengeExpiry (id : BitVec 32)
  /-- TICKET_PARTITION: R186. -/
  | ticketPartition (n : Fin 16)
  /-- TICKET_VAULT_POLICY: R174. -/
  | ticketVaultPolicy (n : Fin 16)
  /-- TICKET_SEALED_POLICY: R174. -/
  | ticketSealedPolicy (n : Fin 16)
  /-- TICKET_DEBUG_UNLOCK: R185. -/
  | ticketDebugUnlock (n : Fin 16)
  /-- TICKET_EXPERT_GRANT: R184. -/
  | ticketExpertGrant (n : Fin 16)
  /-- TICKET_ROLLBACK: R189. -/
  | ticketRollback (n : Fin 16)
  /-- TICKET_EXCLUSION: R187. -/
  | ticketExclusion (n : Fin 16)
  /-- TICKET_CUSTODY_KEYS: R175. -/
  | ticketCustodyKeys (n : Fin 16)
  /-- TICKET_REVOKE: R183. -/
  | ticketRevoke (n : Fin 16)
  /-- FUSE_BLOW_DONE: R190. -/
  | fuseBlowDone (verified : Bool)
  /-- GRANT_LAPSE: R184. -/
  | grantLapse (which : GrantKind)
  /-- PARTITION_GET: R195. -/
  | partitionGet (n : Fin 16)
  /-- GRANT_STATUS: R195. -/
  | grantStatus (n : Fin 16)
  /-- GET_VERSION: R192. -/
  | getVersion (n : Fin 16)
  /-- GET_CAPABILITIES: R192. -/
  | getCapabilities (n : Fin 16)
  /-- NEGOTIATE_ALGORITHMS: R192. -/
  | negotiateAlgorithms (n : Fin 16)
  /-- GET_DIGESTS: R192. -/
  | getDigests (n : Fin 16)
  /-- GET_CERTIFICATE: R193. -/
  | getCertificate (n : Fin 16)
  /-- CHALLENGE: R192. -/
  | challenge (n : Fin 16)
  /-- GET_MEASUREMENTS: R194. -/
  | getMeasurements (n : Fin 16)
  /-- MEASURE_GET: R194. -/
  | measureGet (n : Fin 16)
  /-- ROLLBACK_STATUS: R195. -/
  | rollbackStatus (n : Fin 16)
  /-- GALE_INJECT: R199. -/
  | galeInject (node : Fin 128) (port : Fin 16) (sb : BitVec 64) (data : List Byte)
  /-- FLIT_DELIVERY: R323. -/
  | flitDelivery (idx : Nat) (dest : FlitEnd) (addr : BitVec 48) (len : BitVec 13)
  /-- PROMOTION: R200. -/
  | promotion (idx : Nat)
  /-- LINK_ERROR: R229. -/
  | linkError (link : LinkId) (net : NetKind) (uncorrectable : Bool) (hit : Option Nat)
  /-- ROUTE_BANK_WRITE: R221. -/
  | routeBankWrite (node : Fin 128) (off : BitVec 16) (data : Vector Byte 12)
  /-- EPOCH_SWITCH: R224. -/
  | epochSwitch (node : Fin 128)
  /-- EPOCH_DRAIN_DONE: R225. -/
  | epochDrainDone
  /-- ROUTE_DRAIN_LATE: R225. -/
  | routeDrainLate
  /-- WINDOW_OPEN: R205. -/
  | windowOpen (win : Fin 16)
  /-- WINDOW_CLOSE: R205. -/
  | windowClose (win : Fin 16) (late : BitVec 16) (inbound : List StreamData)
  /-- NET_STATUS: R230. -/
  | netStatus (n : Fin 16)
  /-- SCHED_LOAD: R203. -/
  | schedLoad (n : Fin 16) (struck : List (BitVec 48 × Fin 72))
  /-- ROUTE_EPOCH: R224. -/
  | routeEpoch (n : Fin 16) (struck : List (BitVec 48 × Fin 72))
  /-- MCAST_GROUP_DEFINE: R231. -/
  | mcastGroupDefine (n : Fin 16) (id : Fin 128)
  /-- REDUCTION_GROUP_DEFINE: R242. -/
  | reductionGroupDefine (n : Fin 16) (id : Fin 64) (tree : List (Nat × Nat))
  /-- MCAST_GROUP_DELETE: R251. -/
  | mcastGroupDelete (n : Fin 16)
  /-- REDUCE_CONTRIBUTION: R240. -/
  | reduceContribution (group : Fin 64) (inst : Fin 16) (block : Fin 64) (slot : Fin 8) (node : Fin 128) (data : List Byte) (first : Bool) (last : Bool)
  /-- EDDY_TIMEOUT: R244. -/
  | eddyTimeout (group : Fin 64) (inst : Fin 16)
  /-- EDDY_MODE: R251. -/
  | eddyMode (n : Fin 16)
  /-- EDDY_ABORT: R244. -/
  | eddyAbort (n : Fin 16)
  /-- ARRIVE: R246. -/
  | arrive (r : LullReq)
  /-- WAIT: R247. -/
  | wait (r : LullReq)
  /-- ACQUIRE: R248. -/
  | acquire (r : LullReq)
  /-- TRY_ACQUIRE: R248. -/
  | tryAcquire (r : LullReq)
  /-- RELEASE: R248. -/
  | release (r : LullReq)
  /-- SET: R246. -/
  | set (r : LullReq)
  /-- CLEAR: R246. -/
  | clear (r : LullReq)
  /-- ADD: R246. -/
  | add (r : LullReq)
  /-- READ: R246. -/
  | read (r : LullReq)
  /-- CANCEL_WAIT: R246. -/
  | cancelWait (r : LullReq)
  /-- NOTIFY: R247. -/
  | notify (node : Fin 152) (obj : BitVec 14) (status : Fin 8) (value : BitVec 28)
  /-- LULL_ALLOC: R251. -/
  | lullAlloc (n : Fin 16) (id : BitVec 14) (home : Fin 128)
  /-- LULL_FREE: R251. -/
  | lullFree (n : Fin 16)
  /-- GET_CAP: R267. -/
  | getCap (tile : Fin 4) (cap : List Byte)
  /-- PUT_PROFILE: R266. -/
  | putProfile (tile : Fin 4)
  /-- TRAIN_CTL: R267. -/
  | trainCtl (tile : Fin 4) (clockGo : Bool)
  /-- PUT_LANEMAP: R273. -/
  | putLanemap (tile : Fin 4)
  /-- GET_STATUS: R265. -/
  | getStatus (tile : Fin 4) (status : Word)
  /-- TILE_TRAIN_TIMEOUT: R275. -/
  | tileTrainTimeout (tile : Fin 4)
  /-- CRDY_TIMEOUT: R274. -/
  | crdyTimeout (cluster : Fin 128)
  /-- CERR_N: R278. -/
  | cerrN (cluster : Fin 128)
  /-- CRDY_FALL: R278. -/
  | crdyFall (cluster : Fin 128)
  /-- BOND_FRAME: R278. -/
  | bondFrame (cluster : Fin 128) (f : BondFrame)
  /-- SLICE_STREAM_COMMAND: R261. -/
  | sliceStreamCommand (cluster : Fin 128) (sid : Fin 16) (cmd : BitVec 64) (data : List Byte)
  /-- HBM_READ: R297. -/
  | hbmRead (src : Fin 152) (tag : BitVec 16) (static : Bool) (dpa : BitVec 48) (found : List (Fin 68))
  /-- HBM_WRITE: R289. -/
  | hbmWrite (src : Fin 152) (tag : BitVec 16) (static : Bool) (dpa : BitVec 48) (data : List Byte) (found : List (Fin 68))
  /-- SLICE_ACCESS: R297. -/
  | sliceAccess (node : Fin 128) (port : SlicePort) (off : BitVec 22) (len : Fin 65) (write : Option (List Byte)) (src : Fin 152) (tag : BitVec 16) (found : List (Fin 8 × Fin 72))
  /-- REFRESH: R290. -/
  | refresh (mc : Fin 16)
  /-- MAINTENANCE_SLOT: R286. -/
  | maintenanceSlot (mc : Fin 16) (found : List (Fin 68)) (again : Bool) (written : Bool)
  /-- SCRUB: R300. -/
  | scrub (unit : ScrubAt)
  /-- SLICE_UNIT_REQUEST: R293. -/
  | sliceUnitRequest (node : Fin 128) (reqs : List SliceReq)
  /-- ZERO_FILL_DONE: R308. -/
  | zeroFillDone (stack : Fin 8)
  /-- ECCW_ARM: R310. -/
  | eccwArm (path : Path) (val : Word)
  /-- ECCW_EXPIRY: R310. -/
  | eccwExpiry
  /-- MEM_STATUS: R311. -/
  | memStatus (n : Fin 16)
  /-- MEM_INTERLEAVE: R285. -/
  | memInterleave (n : Fin 16)
  /-- SCRUB_CONFIG: R300. -/
  | scrubConfig (n : Fin 16)
  /-- PAGE_RETIRE: R304. -/
  | pageRetire (n : Fin 16)
  /-- PPR_RUN: R306. -/
  | pprRun (n : Fin 16) (ok : BitVec 8)
  /-- ECC_INJECT: R311. -/
  | eccInject (n : Fin 16)
  /-- ADDRESS_TRANSLATION: R318. -/
  | addressTranslation (point : Fin 136) (who : TransUser) (dva : BitVec 48) (write : Bool) (tag : BitVec 16)
  /-- INVALIDATION_DONE: R320. -/
  | invalidationDone (idx : Nat)
  /-- CLUSTER_WINDOW_SET: R324. -/
  | clusterWindowSet (cluster : Fin 128) (base : BitVec 16) (len : BitVec 16)
  /-- DMA_KICK: R327. -/
  | dmaKick (src : DmaSrc) (ch : Fin 64) (tail : BitVec 12)
  /-- DMA_SETUP: R327. -/
  | dmaSetup (src : DmaSrc) (ch : Fin 64) (base : BitVec 36) (log2 : Fin 16)
  /-- DMA_PAUSE: R332. -/
  | dmaPause (src : DmaSrc) (ch : Fin 64)
  /-- DMA_RESUME: R332. -/
  | dmaResume (src : DmaSrc) (ch : Fin 64)
  /-- DMA_CANCEL: R332. -/
  | dmaCancel (src : DmaSrc) (ch : Fin 64) (ring : Bool)
  /-- CANCEL_REQ: R332. -/
  | cancelReq (src : DmaSrc) (ch : Fin 64) (req : BitVec 21)
  /-- DMA_COPY: R330. -/
  | dmaCopy (ch : Fin 64)
  /-- DMA_FILL: R330. -/
  | dmaFill (ch : Fin 64)
  /-- DMA_TLBI: R319. -/
  | dmaTlbi (ch : Fin 64)
  /-- DMA_NOP: R328. -/
  | dmaNop (ch : Fin 64)
  /-- DMA_CHUNK_ACK: R330. -/
  | dmaChunkAck (ch : Fin 64) (idx : Fin 16) (res : ChunkEnd)
  /-- MMU_STATUS: R322. -/
  | mmuStatus (n : Fin 16)
  /-- DMA_STATUS: R338. -/
  | dmaStatus (n : Fin 16)
  /-- STEP_EDGE: R340. -/
  | stepEdge
  /-- STEP_OVERRUN: R358. -/
  | stepOverrun
  /-- EMIT: R365. -/
  | emit (ring : Fin 64)
  /-- SUBMIT: R349. -/
  | submit (ring : Fin 64)
  /-- CANCEL: R361. -/
  | cancel (ring : Fin 64)
  /-- PAUSE: R359. -/
  | pause (ring : Fin 64)
  /-- RESUME: R360. -/
  | resume (ring : Fin 64)
  /-- NOP: R349. -/
  | nop (ring : Fin 64)
  /-- RING_SQTAIL: R342. -/
  | ringSqtail (ring : Fin 64) (val : Word)
  /-- RING_CQHEAD: R342. -/
  | ringCqhead (ring : Fin 64) (val : Word)
  /-- PAUSE_HOLD_EXPIRY: R359. -/
  | pauseHoldExpiry (req : BitVec 21) (short : Bool)
  /-- HANDOFF_SHIPPED: R363. -/
  | handoffShipped (side : HandoffEnd)
  /-- REMOTE_TOKENS: R363. -/
  | remoteTokens (slot : Fin 8) (req : BitVec 21) (toks : List Word)
  /-- HANDOFF_PATH_TIMEOUT: R364. -/
  | handoffPathTimeout (slot : Fin 8)
  /-- SERVE_STATUS: R367. -/
  | serveStatus (n : Fin 16)
  /-- TENANT_SET_TENANT: R344. -/
  | tenantSetTenant (n : Fin 16)
  /-- TENANT_SET_RING: R342. -/
  | tenantSetRing (n : Fin 16)
  /-- TENANT_SET_PROGRAM: R343. -/
  | tenantSetProgram (n : Fin 16) (home : Fin 128)
  /-- TENANT_SET_FRAMES_GRANT: R378. -/
  | tenantSetFramesGrant (n : Fin 16)
  /-- TENANT_SET_FRAMES_FREE: R378. -/
  | tenantSetFramesFree (n : Fin 16)
  /-- POOL_RATIO: R362. -/
  | poolRatio (n : Fin 16) (peerOk : Bool)
  /-- FRAME_ZEROED: R376. -/
  | frameZeroed (frame : BitVec 23)
  /-- DRIFT_COPY_DONE: R390. -/
  | driftCopyDone (req : BitVec 21)
  /-- DRIFT_RETRY: R390. -/
  | driftRetry (req : BitVec 21)
  /-- DRIFT_TTL_EXPIRY: R391. -/
  | driftTtlExpiry (req : BitVec 21)
  /-- ADAPTER_REGISTER: R385. -/
  | adapterRegister (n : Fin 16)
  /-- ADAPTER_REMOVE: R386. -/
  | adapterRemove (n : Fin 16)
  /-- DRIFT_STATUS: R395. -/
  | driftStatus (n : Fin 16)
  /-- PREFIX_FLUSH: R384. -/
  | prefixFlush (n : Fin 16)
  /-- DRAFT_LOAD: R398. -/
  | draftLoad (n : Fin 16)
  /-- DRAFT_UNLOAD: R398. -/
  | draftUnload (n : Fin 16)
  /-- DRAFT_LOADED: R398. -/
  | draftLoaded (part : Fin 64)
  /-- DRAFT_ROUND: R402. -/
  | draftRound (part : Fin 64) (err : Bool)
  /-- LOGIT_PACKET: R407. -/
  | logitPacket (slot : BitVec 16) (j : BitVec 8) (vbase : BitVec 32) (logits : Vector (BitVec 16) 1024)
  /-- MEE_DOORBELL: R421. -/
  | meeDoorbell (src : DmaSrc) (body : Word)
  /-- EXCH_EXPIRY: R434. -/
  | exchExpiry (id : BitVec 8)
  /-- REFRESH_DONE: R428. -/
  | refreshDone (sess : Fin 16)
  /-- SEALED_STATUS: R448. -/
  | sealedStatus (n : Fin 16)
  /-- MEE_PARAMS_SESSION: R416. -/
  | meeParamsSession (n : Fin 16)
  /-- MEE_PARAMS_RING: R421. -/
  | meeParamsRing (n : Fin 16)
  /-- MEE_PARAMS_END: R416. -/
  | meeParamsEnd (n : Fin 16)
  /-- REFRESH_RUN: R426. -/
  | refreshRun (n : Fin 16)
  /-- VAULT_OPEN: R438. -/
  | vaultOpen (n : Fin 16)
  /-- VAULT_CLOSE: R442. -/
  | vaultClose (n : Fin 16)
  /-- VAULT_LIFE_EXPIRY: R442. -/
  | vaultLifeExpiry (v : Fin 32)
  /-- VAULT_REKEY: R440. -/
  | vaultRekey (v : Fin 32)
  /-- VAULT_REKEY_DONE: R440. -/
  | vaultRekeyDone (v : Fin 32)
  /-- DRBG_RESEED: R437. -/
  | drbgReseed (n : Fin 16)
  /-- DRBG_RESEED_AUTO: R437. -/
  | drbgReseedAuto
  /-- DRBG_EXHAUSTED: R437. -/
  | drbgExhausted
  /-- ENTROPY_FAIL: R436. -/
  | entropyFail
  /-- PEER_SESSION_PAIR: R443. -/
  | peerSessionPair (n : Fin 16)
  /-- PEER_SESSION_RESUME: R447. -/
  | peerSessionResume (n : Fin 16)
  /-- PEER_SESSION_CLOSE: R448. -/
  | peerSessionClose (n : Fin 16)
  /-- CX_HELLO: R443. -/
  | cxHello (sess : Fin 16) (peer : CxPeer)
  /-- CX_FINISH: R443. -/
  | cxFinish (sess : Fin 16) (sig : List Byte)
  /-- CX_BATCH: R445. -/
  | cxBatch (tag : Word) (round : Word) (seq : Word) (base : BitVec 64) (count : Word) (last : Bool) (payload : List Byte)
  /-- CX_ACK: R445. -/
  | cxAck (tag : Word) (round : Word)
  /-- CX_PRE: R446. -/
  | cxPre (tag : Word) (count : Word)
  /-- CX_CLOSE: R444. -/
  | cxClose (tag : Word)
  /-- CX_ABORT: R447. -/
  | cxAbort (tag : Word)
  /-- CX_BATCH_POST: R445. -/
  | cxBatchPost (cluster : Fin 128) (sess : Fin 16) (round : Word) (dva : BitVec 48) (len : Word) (tuples : Word)
  /-- CX_ROUND_TIMEOUT: R445. -/
  | cxRoundTimeout (sess : Fin 16)
  /-- CX_SUSPEND_TIMEOUT: R447. -/
  | cxSuspendTimeout (sess : Fin 16)
  /-- GUST_BLOCK: R452. -/
  | gustBlock (port : Fin 12) (blk : GustBlock)
  /-- REPLAY_TIMEOUT: R453. -/
  | replayTimeout (port : Fin 12)
  /-- HANDSHAKE: R460. -/
  | handshake (port : Fin 12) (peer : HsPeer)
  /-- LINK_LULL: R457. -/
  | linkLull (port : Fin 12) (lseq : BitVec 64) (msgs : List (BitVec 64))
  /-- REKEY: R465. -/
  | rekey (port : Fin 12) (chan : Fin 16) (epoch : Word) (ack : Bool)
  /-- READY: R467. -/
  | ready (port : Fin 12) (epoch : BitVec 16)
  /-- LEAVE: R466. -/
  | leave (port : Fin 12) (pkg : Bool)
  /-- TRAIN_STEP_TIMEOUT: R458. -/
  | trainStepTimeout (port : Fin 12)
  /-- PROBATION_END: R517. -/
  | probationEnd (ut : Fin 256) (inst : Fin 256) (pass : Bool) (step : Nat)
  /-- PORT_AUTO_RETRAIN: R467. -/
  | portAutoRetrain (port : Fin 12)
  /-- SEALED_FRAME: R463. -/
  | sealedFrame (port : Fin 12) (chan : Fin 16) (epoch : Word) (ctr : BitVec 64) (tag : BitVec 128) (sb : BitVec 64) (data : List Byte)
  /-- REKEY_REQUEST: R464. -/
  | rekeyRequest (port : Fin 12) (chan : Fin 16)
  /-- REKEY_RETRY: R464. -/
  | rekeyRetry (port : Fin 12) (chan : Fin 16)
  /-- SEALED_HOLD: R464. -/
  | sealedHold (port : Fin 12) (chan : Fin 16)
  /-- SEALED_DOWN: R465. -/
  | sealedDown (port : Fin 12) (chan : Fin 16)
  /-- CXL_DOWN: R475. -/
  | cxlDown (n : Fin 2) (cause : Fin 4)
  /-- CXL_POISON: R475. -/
  | cxlPoison (page : BitVec 26)
  /-- DEVLOAD_OVERLOAD: R474. -/
  | devloadOverload (n : Fin 2)
  /-- DEVLOAD_END: R474. -/
  | devloadEnd (n : Fin 2)
  /-- COMPLETION_TIMEOUT: R477. -/
  | completionTimeout (path : CplPath)
  /-- QUARANTINE_END: R477. -/
  | quarantineEnd (path : CplPath)
  /-- COMPLETION_ARRIVAL: R478. -/
  | completionArrival (path : CplPath) (outstanding : Bool)
  /-- GLK_CLEAR: R480. -/
  | glkClear (path : Path) (val : Word)
  /-- LINK_STATUS: R481. -/
  | linkStatus (n : Fin 16)
  /-- LINK_RETRAIN: R481. -/
  | linkRetrain (n : Fin 16)
  /-- LINK_REKEY: R465. -/
  | linkRekey (n : Fin 16)
  /-- LINK_OFFLINE: R466. -/
  | linkOffline (n : Fin 16)
  /-- CXL_STATUS: R481. -/
  | cxlStatus (n : Fin 16)
  /-- BAR2_WINDOW: R471. -/
  | bar2Window (n : Fin 16)
  /-- TH_WARN_ASSERT: R488. -/
  | thWarnAssert (sensor : Fin 48)
  /-- TH_WARN_RELEASE: R488. -/
  | thWarnRelease (sensor : Fin 48)
  /-- THERMAL_LEVEL_TICK: R488. -/
  | thermalLevelTick (target : Fin 6)
  /-- TH_HALT: R489. -/
  | thHalt (sensor : Fin 48)
  /-- RESUME_CHANGE: R491. -/
  | resumeChange (sensor : Fin 48) (below80 : Bool)
  /-- TH_RESUME: R491. -/
  | thResume
  /-- TH_SENSOR_FAULT: R484. -/
  | thSensorFault (sensor : Fin 48)
  /-- THS_START: R485. -/
  | thsStart (path : Path) (val : Word)
  /-- CONVERSION_DONE: R485. -/
  | conversionDone (temps : Vector (BitVec 16) 48)
  /-- THERMAL_READ: R496. -/
  | thermalRead (n : Fin 16)
  /-- THERMAL_STATUS: R496. -/
  | thermalStatus (n : Fin 16)
  /-- LOG_COMMIT: R501. -/
  | logCommit (retries : Nat) (sector : Nat) (spare : Nat) (eraseCount : Nat)
  /-- EVL_ACK: R505. -/
  | evlAck (path : Path) (val : Word)
  /-- ROUTER_UE: R507. -/
  | routerUe (node : Fin 128)
  /-- MEE_UE: R507. -/
  | meeUe (group : Fin 16)
  /-- LOG_READ: R524. -/
  | logRead (n : Fin 16)
  /-- LOG_STATUS: R524. -/
  | logStatus (n : Fin 16)
  /-- UNIT_STATUS: R524. -/
  | unitStatus (n : Fin 16)
  /-- UNIT_RETURN: R517. -/
  | unitReturn (n : Fin 16)
  /-- UNIT_OFFLINE: R519. -/
  | unitOffline (n : Fin 16)
  /-- SECTION_HEADER: R128. -/
  | sectionHeader (hdr : List Byte)
  /-- DROOP_TILE_ONE_CLUSTER: R89. -/
  | droopTileOneCluster (cluster : Fin 128)
  /-- PAM4_EQUALISATION_DONE: R458. -/
  | pam4EqualisationDone (port : Fin 12)
  /-- TCLK_OK: R256. -/
  | tclkOk (tile : Fin 4)
  /-- CRDY_RISE: R274. -/
  | crdyRise (cluster : Fin 128)
  /-- LANE_TEST_DONE: R275. -/
  | laneTestDone (cluster : Fin 128) (step : Fin 12) (ident : Fin 32) (faults : List (Fin 59 × Fin 36))
  /-- CONFIGURATION_WRITE: R470. -/
  | configurationWrite (w : CfgWrite)
  /-- CONTROLLER_FAULT: R507. -/
  | controllerFault (mc : Fin 16)
  /-- HANDOFF_PAGE_REQUEST: R363. -/
  | handoffPageRequest (slot : Fin 8) (req : BitVec 21) (part : Fin 64) (cls : Fin 4) (pages : BitVec 15) (same : Bool)
  /-- HANDOFF_PAGE_GRANT: R363. -/
  | handoffPageGrant (req : BitVec 21) (granted : Bool) (same : Bool)
  /-- REMOTE_CANCEL_CONFIRM: R361. -/
  | remoteCancelConfirm (req : BitVec 21)
  deriving DecidableEq, Repr

end Sys2Proof
end

