-- ==== Sys2Proof/Config.lean ====
section
/-!
DEFINITION. What the spec leaves open: each constant here has no body, so that nothing can be proved of its value. The
free values are applied to State.freeCtr or to the operands they depend on; the functions of cryptography, whose standards
the spec names without restating them, are applied to their inputs.
-/
namespace Sys2Proof.Config

/-- A free word: the spec states that a value exists and not which. -/
opaque freeWord : Nat → Word
/-- A free natural number. -/
opaque freeNat : Nat → Nat
/-- A free bit. -/
opaque freeBit : Nat → Bool
/-- A byte of DETAIL (0 to 14) of a record with a code and detail values: the spec names the values and not their places. -/
opaque detailByte : Nat → List Nat → Nat → Byte

/-- The level of a UART, SPI, trace or LED output at a time: the spec does not say what those peripherals send. -/
opaque lineLevel : Nat → Nat → Bool
/-- The flip-flops of a Vane region as its logic frames initialise them: the frames' layout is not given. -/
opaque flopInit : Nat → List (Nat × List Byte) → Nat
/-- The flip-flops of a Vane region that user logic has run, at a draw. -/
opaque flopRun : Nat → Nat → Nat
/-- The isolation values of a Vane region's outputs, from its logic frames. -/
opaque isolationValues : Nat → List (Nat × List Byte) → Nat
/-- A byte of a distributed-RAM frame that user logic may have written, from a draw, the frame address and the offset. -/
opaque ramRun : Nat → Nat → Nat → Byte
/-- The level that user logic drives on a VIO pin at a time. -/
opaque vioDrive : Nat → Nat → Bool
/-- The IDCODE of the TAP. -/
opaque idcode : Nat

/-- How the 40 W of VPM8 divide between its two channels (spec/03_clocks_resets_power.md Table CP-7 gives the sum). -/
opaque serdesShare0 : Nat
/-- The code of a record that the spec requires without giving its code: 0 an uncabled Gust port (spec/01_stack_and_tray.md R35), 1 a
CXL port out of service at start (spec/17_gust_links_and_host.md R475), 2 a router that fails its self-test
(spec/04_start_and_doldrums.md R99). -/
opaque openCode : Nat → Nat
/-- SHA-384 of a byte string. -/
opaque sha384 : List Byte → BitVec 384
/-- ECDSA P-384 verification of r then s, both in range, under an uncompressed point, over a byte string hashed with SHA-384. -/
opaque ecdsaOk : List Byte → List Byte → List Byte → Bool
/-- HMAC-SHA-384 under the die-unique key that protects the custody record (spec/07_two_party_protection.md R175). -/
opaque dieMac : List Byte → BitVec 384
/-- The contents of the warden core ROM (1) and of the Windsock mask ROM (2) (spec/07_two_party_protection.md Table TP-10). -/
opaque romBytes : Nat → List Byte
/-- The device identity key that the die's physically unclonable source gives (spec/07_two_party_protection.md R193). -/
opaque pufKey : List Byte
/-- The public key of a P-384 key. -/
opaque p384Public : List Byte → List Byte
/-- The certificate of the Iluol root. -/
opaque iluolRoot : List Byte
/-- The Iluol DX2 intermediate certificate. -/
opaque dx2Intermediate : List Byte
/-- The device certificate of a public key. -/
opaque deviceCert : List Byte → List Byte
/-- An ECDSA P-384 signature, r then s, of a key over a byte string hashed with SHA-384. -/
opaque ecdsaSign : List Byte → List Byte → BitVec 768
/-- The nonce of an SPDM response, at a draw. -/
opaque spdmNonce : Nat → BitVec 256
/-- The time exponent that CAPABILITIES states. -/
opaque spdmTimeExp : Nat
/-- Byte `i` of DETAIL as debug level 0 shows it (spec/07_two_party_protection.md Table TP-8: level 1 opens the full DETAIL). -/
opaque detailLow : Nat → List Nat → Nat → Byte
/-- 32 bytes from the CTR_DRBG at a draw. -/
opaque drbg : Nat → List Byte

/-- A route entry, broadcast mask or multicast mask that firmware chooses when it builds a bank around dead routers: from the
routers, the node and the offset in the bank (spec/08_gale_breeze_lull.md R222 leaves the choice among valid routes). -/
opaque bankChoice : BitVec 128 → Nat → Nat → Nat
/-- An element of a BF16 or FP32 reduction in arrival-order mode, from a draw and the element's index
(spec/09_multicast_eddy_objects.md R241). -/
opaque arrivalSum : Nat → Nat → Nat
/-- The place, in units of 256 bytes, of the progress slot of a cluster in a partition's device virtual space
(spec/12_translation_dma_preemption.md R325). -/
opaque progressPlace : Nat → Nat → Nat
/-- The sum of static flits that name no reduction group with an operand type (spec/09_multicast_eddy_objects.md R243). -/
opaque staticSum : List (List Byte) → List Byte

/-- The DRAM row that holds a line, from its controller and its address there: HBM4 fixes it, the spec does not restate it. -/
opaque dramRow : Nat → Nat → Nat

/-- The bank, row and failing codeword position of a slice word: the spec lays none of them out. -/
opaque sliceCell : Nat → Nat × Nat × Nat

/-- exp in FP32, the fixed implementation of every DX2 stepping B1 die (spec/15_draft_and_sampler.md R409): bits to bits. -/
opaque fexp : Nat → Nat
/-- A value of a draft pass that spec/15_draft_and_sampler.md leaves open: from the draft digest (0 where the program plays no part)
and what else it depends on: a byte of the working area that nothing has written (0, token, position, offset), a logit of a program
without LOGITS (1, token, position, token ID), an FP32 value past the range of FP8 E4M3 (2, value). -/
opaque draftOpen : Nat → List Nat → Nat
/-- An element of NORM (spec/15_draft_and_sampler.md Table DS-2): from epsilon, the row, the weight vector and the index, as FP32
bits. The table names the function; its roundings are open. -/
opaque draftNorm : Nat → List Nat → List Nat → Nat → Nat
/-- ACT: from FLAGS and the element. -/
opaque draftAct : Nat → Nat → Nat
/-- An element of ROPE: from the base, the token position, the row and the index. -/
opaque draftRope : Nat → Nat → List Nat → Nat → Nat
/-- An element of ATTEND: from the instruction, the query row, the draft cache of the positions 0 to its own, and the index. -/
opaque draftAttend : List Byte → List Nat → List (List Byte) → Nat → Nat

/-- AES-256 in counter mode: the 128-bit block of a key at a counter value. -/
opaque aes256ctr : List Byte → Nat → BitVec 128
/-- n_ks and n_el of the refresh macro that Iluol supplies, from n, M and D (spec/16_sealed_arithmetic_crosswind.md R426: they
follow from the session's parameters, in a way the spec does not restate). -/
opaque macroWindows : Nat → Nat → Nat → Nat × Nat
/-- A certificate chain leads to the Iluol root. -/
opaque chainOk : List Byte → Bool
/-- The device certificate of a chain names a DX2 die. -/
opaque chainDx2 : List Byte → Bool
/-- The P-384 public key of the device certificate of a chain. -/
opaque chainKey : List Byte → List Byte
/-- The P-384 ECDH secret of a private key and a peer's public key. -/
opaque ecdh : List Byte → List Byte → List Byte
/-- The channel key that HKDF-SHA-384 gives from an ECDH secret and a transcript, for what the end whose message stands first in the
transcript sends (true), or the other. -/
opaque channelKey : List Byte → List Byte → Bool → List Byte
/-- The first 4 bytes of the session tag that HKDF-SHA-384 gives from an ECDH secret and a transcript. -/
opaque cxTag : List Byte → List Byte → Word
/-- AES-256-GCM: the ciphertext and the tag of a key, an IV, the associated data and a plaintext. -/
opaque gcmSeal : List Byte → Nat → List Byte → List Byte → List Byte × BitVec 128
/-- AES-256-GCM: the plaintext of a key, an IV, the associated data, a ciphertext and a tag that verifies. -/
opaque gcmOpen : List Byte → Nat → List Byte → List Byte → BitVec 128 → Option (List Byte)
/-- Where in its vault the engine writes the batch of a session and round, as a byte offset: the spec does not say. -/
opaque cxPlace : Nat → Nat → Nat
/-- On which of Windsock's cores the recovery monitor runs, as 1 plus this modulo 7 (spec/06_windsock_mailbox.md Table WM-3). -/
opaque monitorCores : Nat

end Sys2Proof.Config
end

