-- ==== Sys2Proof/Machine/State.lean ====
section
/-!
DEFINITION. Everything the spec gives Daxmet to hold, as plain data, and the state right after reset. The default of a
field is its reset value; the docstring of a field gives its width, the rule that names it and where the reset value comes
from. State has one part per block, so that a reset of a block is one assignment.
-/
namespace Sys2Proof.Machine

/-- The class of an event record (spec/00_scope.md R17, Table SC-8). -/
inductive Cls | info | ce | ue | fatal | sec
  deriving DecidableEq, Repr

/-- The containment class in DETAIL byte 15 of UE and FATAL records (spec/19_faults_and_recovery.md R499, Table FR-2). -/
inductive Contain | none | operation | unit | partition | package
  deriving DecidableEq, Repr

/-- The start phases with the two resting values of AON_START.PHASE (spec/04_start_and_doldrums.md R96, Table SU-2). -/
inductive Phase | power | fuse | boot | auth | train | vane | join | serve | doldrums | excluded
  deriving DecidableEq, Repr

/-- AON_START.STATE (spec/04_start_and_doldrums.md R96). -/
inductive StartSt | running | hold | failed
  deriving DecidableEq, Repr

/-- The owner of the power sequencer (spec/03_clocks_resets_power.md R90, R92). -/
inductive SeqOwner | warden | windsock
  deriving DecidableEq, Repr

/-- The service states of a unit (spec/19_faults_and_recovery.md R500, Table FR-3). -/
inductive UnitSt | absent | inService | probation | faulted | offline | harvested
  deriving DecidableEq, Repr

/-- An event record (spec/00_scope.md R17). `detail` lists the DETAIL values in the order the writing rule names them;
where the spec gives their bytes no places, a read of those bytes is a free value (Config.detailByte). -/
structure Rec where
  ts : Nat := 0
  cls : Cls := .info
  slot : Nat := 0
  code : Nat := 0
  ut : Nat := 0
  inst : Nat := 0
  seq : Nat := 0
  detail : List Nat := []
  contain : Contain := .none
  deriving DecidableEq, Repr

/-- Always-on registers: reset only by PWR_OK low (spec/03_clocks_resets_power.md Table CP-6). -/
structure Aon where
  /-- 64; 00_scope R9; timestamp count, nanoseconds since cold start. Reset 0 (R9). -/
  timeNs : BitVec 64 := 0
  /-- 32; 06_windsock_mailbox R142; AON_TIME_HI, bits 63 to 32 at the last read of AON_TIME_LO. Reset DESIGN CHOICE 0 (log 1). -/
  timeHi : Word := 0
  /-- 1; 00_scope R3, R7; AON_STATUS.EXP_DENY. Reset DESIGN CHOICE 0 (log 1). -/
  expDeny : Bool := false
  /-- 1; 00_scope R3, R10; AON_STATUS.RSVD_ACC. Reset DESIGN CHOICE 0 (log 1). -/
  rsvdAcc : Bool := false
  /-- 1; 00_scope R3, R12; AON_STATUS.OFFLINE_ACC. Reset DESIGN CHOICE 0 (log 1). -/
  offlineAcc : Bool := false
  /-- 3; 01_stack_and_tray R29, 02_board_and_pins R50; package slot latched at the rise of PWR_OK. Reset DESIGN CHOICE 0 (log 2). -/
  slot : Fin 8 := 0
  /-- 12; 01_stack_and_tray R31; published tray ID. Reset 0 (R31). -/
  trayId : Nat := 0
  /-- 12; 05_vane_fabric R132; tray ID held from the tray header, not yet published. Reset none. -/
  heldTrayId : Option Nat := none
  /-- 6; 03_clocks_resets_power R71; AON_RSTCAUSE bits 5 to 0: COLD, TRAY, PKG, HALT, WARDEN, PERST. Reset COLD (R71). -/
  cause : BitVec 6 := 1
  /-- 8; 03_clocks_resets_power R71; AON_RSTCAUSE.COUNT, saturating. Reset 0 (R71: counts resets since cold start; DEDUCED that the cold start itself is not counted, log 3). -/
  resets : Nat := 0
  /-- 1; 06_windsock_mailbox R141; AON_WSK.READY. Reset 0 (R163). -/
  ready : Bool := false
  /-- 1; 06_windsock_mailbox R141; AON_WSK.MONITOR. Reset 0 (Table WM-3: the recovery monitor does not run). -/
  monitor : Bool := false
  /-- 1; 06_windsock_mailbox R141; AON_WSK.WDOG. Reset DESIGN CHOICE 0 (log 1). -/
  wdog : Bool := false
  /-- 1; 06_windsock_mailbox R141; AON_WSK.TAKEOVER. Reset 0 (R90: no takeover yet). -/
  takeover : Bool := false
  /-- 3; 06_windsock_mailbox R141; AON_WSK.CORES. Reset 0 (R98: the cores are halted). -/
  cores : BitVec 3 := 0
  /-- 16; 06_windsock_mailbox R141; AON_WSK.FW_HB. Reset DESIGN CHOICE 0 (log 1). -/
  fwHb : BitVec 16 := 0
  /-- 64; 06_windsock_mailbox R140; time of the last watchdog kick. Reset DESIGN CHOICE 0 (log 1). -/
  wdogKick : Nat := 0
  /-- time; 06_windsock_mailbox R164, 07_two_party_protection R184; end of the host-path EXPERT grant. Reset none (R184). -/
  grantHost : Option Nat := none
  /-- time; 06_windsock_mailbox R164, 07_two_party_protection R184; end of the out-of-band EXPERT grant. Reset none (R184). -/
  grantOob : Option Nat := none
  /-- 2; 03_clocks_resets_power R90, R92; AON_PWR.OWNER. Reset warden core (R90). -/
  owner : SeqOwner := .warden
  /-- time; 03_clocks_resets_power R90; end of Windsock's sequencer lease. Reset none (R90). -/
  lease : Option Nat := none
  /-- 1; 03_clocks_resets_power R92; AON_PWR.BUDGET_HIT. Reset DESIGN CHOICE 0 (log 1). -/
  budgetHit : Bool := false
  /-- 4; 04_start_and_doldrums R96; AON_START.PHASE. Reset PH_POWER (R95). -/
  phase : Phase := .power
  /-- 2; 04_start_and_doldrums R96; AON_START.STATE. Reset running (R95). -/
  startSt : StartSt := .running
  /-- 2; 04_start_and_doldrums R96, R108; AON_START.FAIL_CNT. Reset DESIGN CHOICE 0 (log 1). -/
  failCnt : Nat := 0
  /-- 1; 04_start_and_doldrums R109; AON_START.CNT_VOLATILE. Reset DESIGN CHOICE 0 (log 1). -/
  cntVolatile : Bool := false
  /-- 1; 04_start_and_doldrums R96; AON_START.EXCLUDED. Reset DESIGN CHOICE 0 (log 1). -/
  excluded : Bool := false
  /-- 1; 04_start_and_doldrums R96, R97; AON_START.FW_SLOT, false slot A, true slot B. Reset DESIGN CHOICE 0 (log 1). -/
  fwSlot : Bool := false
  /-- 1; 04_start_and_doldrums R112; AON_START.WSK_DOWN. Reset 0 (R112: only in doldrums mode). -/
  wskDown : Bool := false
  /-- 8; 04_start_and_doldrums R110; AON_START.REASON. Reset 0x00 (R96: neither hold nor failure). -/
  reason : Nat := 0
  /-- 8; 04_start_and_doldrums R96; reason of the most recent failure, which AON_START.REASON shows outside holds. Reset 0x00 (R96: no failure). -/
  failReason : Nat := 0
  /-- 8; 04_start_and_doldrums R96, R103; AON_START.ROSTER. Reset 0 (R96). -/
  roster : BitVec 8 := 0
  deriving DecidableEq, Repr

/-- Tray-facing pins (spec/02_board_and_pins.md). -/
structure Pins where
  /-- 1; 02_board_and_pins R44; level of PWR_OK. Reset high (the state after a cold start, R9). -/
  pwrOk : Bool := true
  /-- 1; 02_board_and_pins R44; level of TRAY_RST_N. Reset DESIGN CHOICE high (log 2). -/
  trayRstN : Bool := true
  /-- 1; 02_board_and_pins R44; level of PKG_RST_N. Reset DESIGN CHOICE high (log 2). -/
  pkgRstN : Bool := true
  /-- 1; 02_board_and_pins R44; level of PERST_N. Reset DESIGN CHOICE low (log 2). -/
  perstN : Bool := false
  /-- 1; 02_board_and_pins R45, R51; no other slot holds TRAY_DONE low. Reset DESIGN CHOICE 0 (log 2). -/
  doneOthers : Bool := false
  /-- 1; 02_board_and_pins R45, R51; this package holds TRAY_DONE low. Reset 1 (R45). -/
  doneDrv : Bool := true
  /-- 1; 02_board_and_pins R46, R51; no other slot holds CFG_ERR_N low. Reset DESIGN CHOICE 1 (log 2). -/
  errOthers : Bool := true
  /-- 1; 02_board_and_pins R46, R51; this package holds CFG_ERR_N low. Reset 0 (R46). -/
  errDrv : Bool := false
  /-- 1; 02_board_and_pins R49; EXTEST is selected. Reset 0 (the TAP is reset with PWR_OK, Table CP-6). -/
  extest : Bool := false
  /-- 96; 02_board_and_pins R49; the boundary register that drives the pins under EXTEST; its width and order are the model's (log 139). Reset DESIGN CHOICE 0 (log 1). -/
  boundary : Nat := 0
  /-- 1; 07_two_party_protection R185; the Windsock application cores are halted through the TAP. Reset 0 (the TAP is reset with PWR_OK, Table CP-6). -/
  coreHalt : Bool := false
  /-- number; 02_board_and_pins R44, R49; what the last capture shifted out on TDO (log 139). Reset DESIGN CHOICE 0 (log 1). -/
  tdo : Nat := 0
  /-- 7; 02_board_and_pins R48; dynamic I3C address assigned by the controller. Reset none (R48). -/
  i3cDyn : Option Nat := none
  /-- 1; 02_board_and_pins R44, 03_clocks_resets_power Table CP-6; CXL0_PERST_N driven high. Reset low. -/
  cxl0Perst : Bool := false
  /-- 1; 02_board_and_pins R44, 03_clocks_resets_power Table CP-6; CXL1_PERST_N driven high. Reset low. -/
  cxl1Perst : Bool := false
  /-- 1; 02_board_and_pins Table BP-4, 06_windsock_mailbox R145; SMB_ALERT_N asserted. Reset 0. -/
  smbAlert : Bool := false
  /-- 64; 05_vane_fabric R117, R121; the levels that the tray gives VIO0 to VIO63 when Daxmet drives none. Reset DESIGN CHOICE 0 (log 2). -/
  vioIn : BitVec 64 := 0
  /-- 1; 03_clocks_resets_power R92; PCMD_ALERT_N is low. Reset DESIGN CHOICE 0 (log 2). -/
  pcmdAlert : Bool := false
  deriving DecidableEq, Repr

/-- One management pin (spec/02_board_and_pins.md R57, Table BP-7). -/
structure PmxPin where
  func : Fin 4 := 0
  cur : Fin 4 := 0
  oe : Bool := false
  out : Bool := false
  /-- the pad level that the GPIO last sampled: its idle level (Table BP-5) -/
  gpioIn : Bool := false
  /-- the end of its last park window, and when the multiplexer last took a write for it (Table BP-8, R61) -/
  endAt : Option Nat := none
  wroteAt : Option Nat := none
  /-- the park window is open: `minDone` after 1 µs, `oldIdle` when the old peripheral reports idle (R58) -/
  park : Bool := false
  minDone : Bool := false
  oldIdle : Bool := false
  deriving DecidableEq, Repr

/-- The default function codes of MGP0 to MGP23 (spec/02_board_and_pins.md R53, Table BP-4). -/
def pmxDefault : List (Fin 4) :=
  [1, 1, 1, 1, 1, 1, 1, 1, 0, 0, 1, 1, 0, 0, 0, 0, 0, 0, 0, 0, 0, 0, 1, 1]

/-- A pin as a reset release leaves it: its default function after one 1 µs park window without an old peripheral
(spec/02_board_and_pins.md R53, R59). -/
def PmxPin.atRelease (f : Fin 4) : PmxPin := { func := f, cur := f, park := true, oldIdle := true }

/-- The pin multiplexer (spec/02_board_and_pins.md R53 to R62). -/
structure Pmx where
  /-- 24 x PMX_PINn; 02_board_and_pins R53, R57; function, GPIO and park state of MGP0 to MGP23. Reset the default function of Table BP-4 after a 1 µs park window without an old peripheral (R53, R59). -/
  pins : Vector PmxPin 24 := Vector.ofFn fun i => PmxPin.atRelease (pmxDefault.getD i.val 0)
  /-- 1; 02_board_and_pins R57; PMX_STATUS.REFUSED. Reset DESIGN CHOICE 0 (log 1). -/
  refused : Bool := false
  /-- 1; 02_board_and_pins R57; PMX_STATUS.CONFLICT. Reset DESIGN CHOICE 0 (log 1). -/
  conflict : Bool := false
  /-- 1; 02_board_and_pins R57; PMX_STATUS.BADFUNC. Reset DESIGN CHOICE 0 (log 1). -/
  badFunc : Bool := false
  /-- 5; 02_board_and_pins R57; PMX_STATUS.LAST_PIN. Reset DESIGN CHOICE 0 (log 1). -/
  lastPin : Fin 24 := 0
  /-- 24; 02_board_and_pins R57; the levels that the tray gives the pads when Daxmet drives none. Reset DESIGN CHOICE 0 (log 2). -/
  pads : BitVec 24 := 0
  deriving DecidableEq, Repr

/-- The clock monitor (spec/03_clocks_resets_power.md R65, Table CP-2; R68). -/
structure Clk where
  /-- 1; 03_clocks_resets_power R65; AON_CLKSTAT.XTAL_OK. Reset DESIGN CHOICE 1 (log 2). -/
  xtalOk : Bool := true
  /-- 1; 03_clocks_resets_power R65; AON_CLKSTAT.BACKUP. Reset DESIGN CHOICE 0 (log 2). -/
  backup : Bool := false
  /-- 1; 03_clocks_resets_power R65; WCLK_LOCK. Reset 0 (Table CP-8: the PLL starts at t0 + 3.0 ms). -/
  wclk : Bool := false
  /-- 1; 03_clocks_resets_power R65; MCLK_LOCK. Reset 0 (Table CP-8). -/
  mclk : Bool := false
  /-- 1; 03_clocks_resets_power R65; PCLK_LOCK. Reset 0 (Table CP-8: locked at t0 + 50 µs). -/
  pclk : Bool := false
  /-- 1; 03_clocks_resets_power R65; SCLK_LOCK. Reset 0 (Table CP-8). -/
  sclk : Bool := false
  /-- 8; 03_clocks_resets_power R65; HCLK_LOCK. Reset 0 (Table CP-8). -/
  hclk : BitVec 8 := 0
  /-- 12; 03_clocks_resets_power R65; GCLK_OK. Reset 0 (no port has trained). -/
  gclk : BitVec 12 := 0
  /-- 4; 03_clocks_resets_power R65; TCLK_OK. Reset 0 (the tile rails are off). -/
  tclk : BitVec 4 := 0
  /-- 8; 03_clocks_resets_power R68; VCLKn lost and the logic on it frozen. Reset 0 (no clock plan runs). -/
  vclkLost : BitVec 8 := 0
  deriving DecidableEq, Repr

/-- One commanded or autonomous rail channel (spec/03_clocks_resets_power.md R72, Table CP-7; Table CP-10). -/
structure Rail where
  on : Bool := false
  pg : Bool := false
  /-- setpoint in mV; 0 stands for the nominal of Table CP-7 before any SET_V -/
  mv : Nat := 0
  /-- ILIM in 0.1 A -/
  ilim : Nat := 0
  /-- the last READ_STATUS word, 6 bits -/
  status : Nat := 0
  /-- the last READ_I value, 0.1 A -/
  amps : Nat := 0
  deriving DecidableEq, Repr

/-- The four waiting orders of the power command bus (spec/03_clocks_resets_power.md R82). -/
inductive FrameKind | safety | alert | setpoint | telemetry
  deriving DecidableEq, Repr

/-- What a power command bus frame was sent for: the sequencer acts on its end accordingly (R75, R76, R81, R83, R73, R74). -/
inductive FrameFor
  | scanStatus | scanOff | railOn | powerDown | fence | alertPass | clearFault
  /-- the running change of tile rails: the frames (VPM, OP, DATA) that follow, and those that restore what was already changed -/
  | change (rest : List (Nat × Nat × Nat)) (undo : List (Nat × Nat × Nat))
  /-- a frame that restores a setpoint or limit after an abandoned change, and those that follow -/
  | restore (rest : List (Nat × Nat × Nat))
  /-- a READ_I of the telemetry sweep -/
  | sweep
  deriving DecidableEq, Repr

/-- A change of tile rails (R73, R74): new shares that a mailbox asks for, or a setpoint of a tile rail, for a mailbox or for an agreed
profile. -/
inductive PwrChange
  | shares (mbx : Nat) (watts : List Nat)
  | volt (mbx : Option Nat) (vpm mv : Nat)
  deriving DecidableEq, Repr

/-- A frame of the power command bus (spec/03_clocks_resets_power.md R78, Table CP-9). -/
structure Frame where
  vpm : Nat
  op : Nat
  chan : Nat
  data : Nat
  kind : FrameKind
  use : FrameFor
  seq : Nat := 0
  /-- sends that failed so far (R80) -/
  fails : Nat := 0
  deriving DecidableEq, Repr

/-- Power delivery (spec/03_clocks_resets_power.md). -/
structure Pwr where
  /-- 27 channels; 03_clocks_resets_power R72, Table CP-7; rail of VPM × 4 + channel: on, power-good, setpoint, ILIM, status, current. Reset commanded channels off (Table CP-8: the scan step turns every channel off). -/
  rails : Tab Rail := []
  /-- 4; 03_clocks_resets_power R75, R92; AON_PWR.SEQ_STATE, the step of Table CP-8, 15 when complete. Reset first step (R70). -/
  step : Nat := 0
  /-- list; 03_clocks_resets_power R75; rails whose power-good the running step waits for. Reset none. -/
  waitPg : List Nat := []
  /-- list; 03_clocks_resets_power R75; PLLs whose lock the running step waits for (0 PCLK, 1 SCLK, 2 WCLK, 3 MCLK, 4 to 11 HCLK0 to HCLK7). Reset PCLK and SCLK (Table CP-8). -/
  waitPll : List Nat := [0, 1]
  /-- 1; 03_clocks_resets_power R75; the rail sequence is running. Reset 1 (R70). -/
  seqRun : Bool := true
  /-- 0 to 7; 03_clocks_resets_power R76; running step of the power-down sequence. Reset none. -/
  down : Option Nat := none
  /-- 1; 04_start_and_doldrums R111; the power-down sequence keeps VDD_BASE. Reset 0. -/
  downKeepBase : Bool := false
  /-- frame; 03_clocks_resets_power R78, R82; the frame on the power command bus. Reset none (R43). -/
  bus : Option Frame := none
  /-- list; 03_clocks_resets_power R82; the frames that wait, in arrival order. Reset empty. -/
  frames : List Frame := []
  /-- 9 x 4; 03_clocks_resets_power R78; next SEQ of each VPM. Reset DESIGN CHOICE 0 (log 1). -/
  seqs : Tab Nat := []
  /-- 4 x W; 03_clocks_resets_power R74; budget share of each tile. Reset 240 (Table CP-7). -/
  shares : Vector Nat 4 := Vector.replicate 4 240
  /-- list; 03_clocks_resets_power R73, R74, R82; the changes of tile rails in arrival order: the first is under way. Reset empty. -/
  changes : List PwrChange := []
  /-- 128; 03_clocks_resets_power R84; FGRs that are on or ramping on, by cluster ID. Reset 0 (Table CP-8: all stay off). -/
  fgrOn : BitVec 128 := 0
  /-- 128; 03_clocks_resets_power R84; FGRs that turn on and are not yet in regulation. Reset 0. -/
  fgrRamp : BitVec 128 := 0
  /-- 128; 03_clocks_resets_power R84; FGRs waiting for their turn-on slot. Reset 0. -/
  fgrQueue : BitVec 128 := 0
  /-- 1 to 4; 03_clocks_resets_power R84, R93; FGRs of one tile that start turning on in any 2 µs. Reset 4 (R84). -/
  stagger : Nat := 4
  /-- 15 shares x at most 5; 03_clocks_resets_power R88; draws in mW of the last READ_I sweeps, newest first. Reset empty. -/
  sweeps : Tab (List Nat) := []
  /-- 0 to 7 per share; 03_clocks_resets_power R88; the governor's pause level. Reset 0. -/
  govLevel : Tab Nat := []
  /-- 128; 03_clocks_resets_power R89; clusters whose pause sideband the droop stage holds. Reset 0. -/
  droopPause : BitVec 128 := 0
  /-- (time, cluster) list; 03_clocks_resets_power R89; cluster droops of the last microsecond. Reset empty. -/
  droopTimes : List (Nat × Nat) := []
  /-- 4; 03_clocks_resets_power R89; tiles at level 4 by the tile stage. Reset 0. -/
  droopTile : BitVec 4 := 0
  /-- 0 to 7; 03_clocks_resets_power R89; stack-wide level of the rail stage. Reset 0. -/
  droopRail : Nat := 0
  deriving DecidableEq, Repr


/-- The running start (spec/04_start_and_doldrums.md). -/
structure Start where
  /-- time; 04_start_and_doldrums R95; start of the current phase. Reset 0. -/
  phaseStart : Nat := 0
  /-- time; 04_start_and_doldrums R94; start of the current hold. Reset none. -/
  holdSince : Option Nat := none
  /-- ns; 04_start_and_doldrums R96; time held so far in the current phase. Reset 0. -/
  held : Nat := 0
  /-- 8; 07_two_party_protection R187; the tray exclusion map that this start read in PH_FUSE. Reset 0 (none read). -/
  runMap : BitVec 8 := 0
  /-- 8 x (spent, held); 04_start_and_doldrums R96, R115; times spent and held in the finished tries of each phase of this start. Reset empty. -/
  times : Tab (Nat × Nat) := []
  /-- 1; 04_start_and_doldrums R97; the other firmware slot has been tried. Reset 0. -/
  triedOther : Bool := false
  /-- 1; 04_start_and_doldrums R97; some slot had a bad signature in this start. Reset 0. -/
  badSig : Bool := false
  /-- time; 04_start_and_doldrums R107, 19_faults_and_recovery R512; when the warden core will raise its reset. Reset none. -/
  wardenAt : Option Nat := none
  /-- 1; 04_start_and_doldrums R100; the configuration-chain receiver is active. Reset 0 (R100: from the exit of PH_FUSE). -/
  chain : Bool := false
  /-- time; 04_start_and_doldrums R103; since when TRAY_DONE has read high. Reset none. -/
  doneSince : Option Nat := none
  /-- 1; 04_start_and_doldrums R103; TRAY_DONE has read high for 100 µs without a break. Reset 0. -/
  done100 : Bool := false
  /-- 1; 04_start_and_doldrums R103; a record with STATUS SERVING has been received. Reset 0. -/
  servingHeard : Bool := false
  /-- list of (slot, START_SEQ, STATUS); 04_start_and_doldrums R103; JOIN records already relayed. Reset empty. -/
  relayed : List (Nat × Nat × Nat) := []
  /-- 8 x 8; 04_start_and_doldrums R103; exclusion map in the last record of each slot. Reset none. -/
  mapsHeard : List (Nat × Nat) := []
  /-- 8; 04_start_and_doldrums R105; slots that this package counts as serving. Reset 0. -/
  peersServing : BitVec 8 := 0
  /-- 3; 04_start_and_doldrums R96; phase in which the last failure or doldrums entry fell. Reset PH_POWER. -/
  lastPhase : Phase := .power
  deriving DecidableEq, Repr

/-- What the package keeps about one firmware slot (spec/04_start_and_doldrums.md R97, R115). -/
structure FwSlot where
  version : Nat := 0
  /-- header CRC result of the last PH_BOOT try: none before one -/
  crcOk : Option Bool := none
  /-- last PH_AUTH result: 0 none, 1 passed, 2 bad signature, 3 below the counter, 4 budget ended -/
  auth : Nat := 0
  /-- SHA-384 measurement of the image, as 48 bytes in a number -/
  measure : Nat := 0
  /-- chunks of 4 KiB written, by chunk number: the bytes written -/
  chunks : Tab (List Byte) := []
  deriving DecidableEq, Repr

/-- One region of the package store (spec/19_faults_and_recovery.md R520 to R522, Table FR-5). -/
structure Region where
  spares : Nat
  retired : List Nat := []
  maxErase : Nat := 0
  ro : Bool := false
  /-- verify retries per sector -/
  retries : Tab Nat := []
  /-- sectors whose erase count has passed 100,000 -/
  worn : List Nat := []
  deriving DecidableEq, Repr

/-- What the package store and the OTP keep across every reset (spec/03_clocks_resets_power.md Table CP-6). -/
structure Store where
  /-- 2; 04_start_and_doldrums R107; FAIL_CNT in the start record. Reset DESIGN CHOICE 0 (log 4). -/
  failCnt : Nat := 0
  /-- 8; 04_start_and_doldrums R108; reason in the start record. Reset DESIGN CHOICE 0 (log 4). -/
  reason : Nat := 0
  /-- 1; 04_start_and_doldrums R97, R115; preferred firmware slot. Reset DESIGN CHOICE slot A (log 4). -/
  preferB : Bool := false
  /-- 8; 04_start_and_doldrums R102; tray exclusion map. Reset DESIGN CHOICE 0 (log 4). -/
  exclMap : BitVec 8 := 0
  /-- 16; 04_start_and_doldrums R103; START_SEQ of this package. Reset DESIGN CHOICE 0 (log 4). -/
  startSeq : BitVec 16 := 0
  /-- record; 04_start_and_doldrums R97, R115; firmware slot A. Reset DESIGN CHOICE empty (log 4). -/
  slotA : FwSlot := {}
  /-- record; 04_start_and_doldrums R97, R115; firmware slot B. Reset DESIGN CHOICE empty (log 4). -/
  slotB : FwSlot := {}
  /-- 32; 19_faults_and_recovery R506; cold-start count. Reset DESIGN CHOICE 1 (log 4). -/
  coldStarts : Nat := 1
  /-- 6 regions; 19_faults_and_recovery R520, Table FR-5; spares, retired sectors, erase counts, read-only state. Reset DESIGN CHOICE all spares left (log 4). -/
  regions : Vector Region 6 := #v[{ spares := 8 }, { spares := 8 }, { spares := 4 }, { spares := 2 }, { spares := 4 }, { spares := 88 }]
  /-- list, newest first; 19_faults_and_recovery R501; committed records with the cold-start count of their sector. Reset DESIGN CHOICE empty (log 4). -/
  committed : List (Nat × Rec) := []
  /-- 40; 19_faults_and_recovery R501; log position of the next record to be committed. Reset DESIGN CHOICE 0 (log 4). -/
  logNext : Nat := 0
  /-- 40; 19_faults_and_recovery R506; oldest log position retained. Reset DESIGN CHOICE 0 (log 4). -/
  logOldest : Nat := 0
  /-- 128; 03_clocks_resets_power R84, 10_tile_bond R270; harvest map in the OTP: clusters. Reset DESIGN CHOICE 0 (log 4). -/
  harvestCl : BitVec 128 := 0
  /-- at most 8; 04_start_and_doldrums R115; the last START_FAIL records, newest first. Reset DESIGN CHOICE empty (log 4). -/
  fails : List Rec := []
  /-- 128; 04_start_and_doldrums R99; harvest map in the OTP: dead routers. Reset DESIGN CHOICE 0 (log 4). -/
  harvestRt : BitVec 128 := 0
  /-- at most 256 x (cluster, site, position); 10_tile_bond R271; assembly lane map in the OTP. Reset DESIGN CHOICE empty (log 4). -/
  laneAsm : List (Nat × Nat × Nat) := []
  /-- at most 1,024 x (cluster, site, position) and clean starts; 10_tile_bond R273; learned lane map. Reset DESIGN CHOICE empty (log 4). -/
  laneLearned : List ((Nat × Nat × Nat) × Nat) := []
  /-- at most 4,096; 11_memory_and_ecc R304; retired frame list: a frame and the (controller, row) pairs of its failing lines. Reset DESIGN CHOICE empty (log 4). -/
  retired : List (Nat × List (Nat × Nat)) := []
  /-- 8 x at most 64; 11_memory_and_ecc R305; HBM repair lists: (controller, row). Reset DESIGN CHOICE empty (log 4). -/
  hbmRepair : List (Nat × Nat) := []
  /-- list; 11_memory_and_ecc R306; rows that a hard repair has replaced in the stacks: (controller, row). Reset DESIGN CHOICE empty (log 4). -/
  hardRepaired : List (Nat × Nat) := []
  /-- at most 1,024 word addresses; 11_memory_and_ecc R302; learned slice repair list. Reset DESIGN CHOICE empty (log 4). -/
  sliceRepair : List Nat := []
  /-- 128 x (rows, column groups); 11_memory_and_ecc R302; spares that the slice repair fuses have used. Reset DESIGN CHOICE none used (log 4). -/
  probeSpares : Tab (Nat × Nat) := []
  deriving DecidableEq, Repr

/-- The states of a mailbox (spec/06_windsock_mailbox.md Table WM-5). -/
inductive MbxSt | free | idle | queued | running | accepted | reclaiming | late
  deriving DecidableEq, Repr

/-- A response that firmware has ready to post (spec/06_windsock_mailbox.md R153, Table WM-7). -/
structure Reply where
  status : Nat
  detail : Nat := 0
  /-- RES0 onward; results not listed are 0 -/
  res : List Nat := []
  /-- output bytes, placed in DATA or sent to host memory -/
  data : List Byte := []
  deriving DecidableEq, Repr

/-- A command area 0x01 to 0x0B command that ends at a later event: what its final response waits for. -/
inductive Await
  | pinSwitch (pin : Nat) | clusterGate (mask : BitVec 128) | tileBudget | tileVoltage
  | fwChunk | streamSend | vaneDisable | schedSwitch | routeEpoch | reduceDefine | pprRun | thermal (mask : BitVec 48)
  | draftLoad | drainPages | adapterReg | refresh (group : Nat) | pairing (sess : Nat) | resume (sess : Nat)
  | linkTrain (port : Nat) | linkRekey (port : Nat) (chan : Nat) | unitReturn (ut : Nat) (inst : Nat) | ticket | lateDone
  | interleave | framesFree | unitOffline (ut : Nat) (inst : Nat) | groupEpoch (id : Nat)
  deriving DecidableEq, Repr

/-- One mailbox (spec/06_windsock_mailbox.md R146, Tables WM-4 and WM-5). -/
structure Mbx where
  st : MbxSt := .free
  owner : BitVec 16 := 0
  token : BitVec 16 := 0
  /-- the per-mailbox token counter: the last token issued -/
  tokCtr : BitVec 16 := 0
  /-- ACK of Table WM-8: 0 PENDING, 1 QUEUED, 2 REFUSED, 3 NOT_READY -/
  ack : Fin 4 := 0
  /-- time of the last renewal of the lease -/
  renewed : Nat := 0
  /-- CMD, 16 words -/
  cmd : Tab Word := []
  /-- RSP, 16 words -/
  rsp : Tab Word := []
  /-- DATA, 3,840 bytes -/
  data : Tab Byte := []
  /-- the command as it stood when the doorbell was acknowledged QUEUED (R156) -/
  taken : Tab Word := []
  /-- when the deadline timer started -/
  queuedAt : Nat := 0
  /-- the fetch of the input from host memory failed -/
  xferFail : Bool := false
  /-- the opcode that firmware has taken and not yet acted on -/
  job : Option Nat := none
  /-- the input bytes fetched for the command -/
  input : List Byte := []
  /-- responses that firmware has yet to post, oldest first -/
  outbox : List Reply := []
  /-- what the final response of a running command waits for -/
  await : Option Await := none
  deriving DecidableEq, Repr

/-- The mailbox hardware (spec/06_windsock_mailbox.md). -/
structure Mbxs where
  /-- 16 mailboxes; 06_windsock_mailbox R146; state, lease, CMD, RSP, DATA and the command in progress. Reset FREE and clear (R163); token counters DESIGN CHOICE 0, so the first token is 1 (R147). -/
  box : Tab Mbx := []
  /-- 16; 06_windsock_mailbox R154; DBL_IRQ_STATUS. Reset 0 (R163). -/
  irqStatus : BitVec 16 := 0
  /-- 16; 06_windsock_mailbox R154; DBL_IRQ_MASK. Reset DESIGN CHOICE 0 (log 1). -/
  irqMask : BitVec 16 := 0
  /-- list; 06_windsock_mailbox R158; class Q mailboxes in the order of acknowledgement. Reset empty. -/
  qQ : List Nat := []
  /-- list; 06_windsock_mailbox R158; class S mailboxes in the order of acknowledgement. Reset empty. -/
  qS : List Nat := []
  /-- list; 06_windsock_mailbox R158; class L mailboxes in the order of acknowledgement. Reset empty. -/
  qL : List Nat := []
  deriving DecidableEq, Repr

/-- The service record of a unit (spec/19_faults_and_recovery.md R500, R518, R524). -/
structure UnitRec where
  st : UnitSt := .absent
  /-- event code of the last fence trigger, and its timestamp -/
  trigger : Nat := 0
  trigTs : Nat := 0
  /-- failed probations since cold start -/
  fails : Nat := 0
  /-- UNIT_RETURN is refused until the next start -/
  refused : Bool := false
  deriving DecidableEq, Repr

/-- The volatile part of the event log (spec/19_faults_and_recovery.md R501, R502, R505). -/
structure Log where
  /-- 4,096 records; 19_faults_and_recovery R501; the record ring by index. Reset empty (Table CP-6). -/
  ring : Tab Rec := []
  /-- 16; 00_scope R17, 19_faults_and_recovery R504; SEQ of the next record. Reset DESIGN CHOICE 0 (log 1). -/
  seq : BitVec 16 := 0
  /-- indices; 19_faults_and_recovery R501; SEQ values in the ring not yet committed, oldest first. Reset empty. -/
  uncommitted : List Nat := []
  /-- 16; 19_faults_and_recovery R504; EVL_COMMITTED. Reset DESIGN CHOICE 0 (log 1). -/
  lastCommitted : Nat := 0
  /-- 16; 19_faults_and_recovery R504, R505; EVL_ACK. Reset DESIGN CHOICE 0xFFFF, the SEQ before the first record (log 1). -/
  ack : Nat := 65535
  /-- 16; 19_faults_and_recovery R505; tray management's acknowledgement. Reset DESIGN CHOICE 0xFFFF (log 1). -/
  trayAck : Nat := 65535
  /-- 1; 19_faults_and_recovery R505; vector 222 may be sent for the next such record. Reset 1 (R505: none was sent). -/
  armed : Bool := true
  /-- 1; 19_faults_and_recovery R502, R504; EVL_STATUS.DROPPED. Reset DESIGN CHOICE 0 (log 1). -/
  dropped : Bool := false
  /-- count; 19_faults_and_recovery R502; records overwritten before they were committed. Reset 0. -/
  drops : Nat := 0
  /-- times by (code, instance); every rule with at most one record per period; last time such a record was written. Reset empty. -/
  lastRec : Tab Nat := []
  deriving DecidableEq, Repr

/-- Units and recovery (spec/19_faults_and_recovery.md). -/
structure Units where
  /-- by type × 256 + instance; 19_faults_and_recovery R500, Table FR-3; state, last fence trigger, failed probations. Reset ABSENT (R500: not trained at start). -/
  tab : Tab UnitRec := []
  /-- time; 19_faults_and_recovery R512; the last FATAL restart. Reset none. -/
  lastRestart : Option Nat := none
  /-- s; 19_faults_and_recovery R512; the last restart wait. Reset 0. -/
  wait : Nat := 0
  /-- 1; 19_faults_and_recovery R511; the package has left service and awaits a reset. Reset 0. -/
  outOfService : Bool := false
  /-- 1; 19_faults_and_recovery R516; maintenance state. Reset 0. -/
  maint : Bool := false
  /-- list of (type, instance, mailbox); 19_faults_and_recovery R517, R519; units in probation for UNIT_RETURN. Reset empty. -/
  returning : List (Nat × Nat × Nat) := []
  /-- list of (type, instance); 19_faults_and_recovery R519; units that have left the routes and wait for the end of their work in a window or a step. Reset empty. -/
  leaving : List (Nat × Nat) := []
  /-- 8; 19_faults_and_recovery R513; peer slots that PEER_PKG_LOST has named. Reset 0. -/
  peersLost : BitVec 8 := 0
  deriving DecidableEq, Repr

/-- What Daxmet has sent to the outside, newest first: the model's own record of its outputs. -/
inductive Msg
  | pcmd (vpm op chan data seq crc : Nat)
  | join (port : Nat) (tray slot status map seq : Nat)
  | trainId (port tray slot : Nat)
  | streamReq (port slot num : Nat)
  | streamBegin (offset : Nat)
  | tcc (tile : Nat) (verb : Nat) (args : List Nat)
  | notify (node obj result payload : Nat)
  | flit (node : Nat) (what : String) (args : List Nat)
  | link (port : Nat) (what : String) (args : List Nat)
  | cx (sess : Nat) (what : String) (args : List Nat)
  | spdm (bytes : List Byte)
  | hostWrite (addr : Nat) (bytes : List Byte)
  | stream (offset : Nat)
  | region (region : Nat) (what : String)
  | pin (pin : Nat) (what : String) (level : Nat)
  | chain (bytes : List Byte) (driven0 : Bool)
  | tap (what : String)
  deriving DecidableEq, Repr

/-- The model's record of what left the package: register reads, host data, interrupts, messages. -/
structure Out where
  /-- 32; 00_scope R6; the value the last register read returned. Reset DESIGN CHOICE 0 (log 5). -/
  readData : Word := 0
  /-- bytes; 17_gust_links_and_host R471; the bytes the last BAR2 read returned. Reset empty (log 5). -/
  hostData : List Byte := []
  /-- list; 06_windsock_mailbox R157; MSI-X vectors sent, newest first. Reset empty (log 5). -/
  msix : List Nat := []
  /-- list; 06_windsock_mailbox R145; mailboxes whose final response raised an in-band interrupt, newest first. Reset empty (log 5). -/
  ibi : List Nat := []
  /-- list; every rule that sends a message; messages sent, newest first. Reset empty (log 5). -/
  sent : List Msg := []
  deriving DecidableEq, Repr


/-- Who asked for a thermal conversion (spec/18_thermal.md R485, R493). -/
inductive ConvBy | direct | mailbox (n : Nat) | training
  deriving DecidableEq, Repr

/-- A halt in the history of THERMAL_STATUS (spec/18_thermal.md R496). -/
structure HaltRec where
  tripTs : Nat
  sensor : Nat
  restartTs : Nat := 0
  deriving DecidableEq, Repr

/-- One of the six thermal pause targets: tiles 0 to 3, the MEE groups, the whole stack (spec/18_thermal.md R482, R488). -/
structure ThermTarget where
  level : Fin 8 := 0
  /-- the level has risen since it last was 0: its return to 0 is logged once -/
  risen : Bool := false
  deriving DecidableEq, Repr

/-- The thermal guard (spec/18_thermal.md). It stands in the always-on island; PWR_OK low resets it. -/
structure Therm where
  /-- 48; 18_thermal R487; WARN comparators. Reset DESIGN CHOICE 0, no sensor at 95 °C (log 2). -/
  warn : BitVec 48 := 0
  /-- 48; 18_thermal R487, R491; sensors at 80 °C or above: RESUME not asserted. Reset DESIGN CHOICE 0 (log 2). -/
  hot : BitVec 48 := 0
  /-- 48; 18_thermal R487, R492; COLD comparators. Reset DESIGN CHOICE 0 (log 2). -/
  cold : BitVec 48 := 0
  /-- 48; 18_thermal R484; faulted sensors. Reset 0 (R484: faulted until the next cold start). -/
  faulted : BitVec 48 := 0
  /-- 6 targets; 18_thermal R488; thermal levels of tiles 0 to 3, MEE groups, stack. Reset 0 (R488). -/
  targets : Vector ThermTarget 6 := Vector.replicate 6 {}
  /-- 48 x 16; 18_thermal R486; THS_SENSORs.TEMP, the last readings. Reset DESIGN CHOICE 0 (log 1). -/
  temp : Tab (BitVec 16) := []
  /-- 48; 18_thermal R486; THS_SENSORs.VALID. Reset 0 (R486: since reset). -/
  valid : BitVec 48 := 0
  /-- 48; 18_thermal R486; THS_MASK. Reset all ones (Table TH-2). -/
  mask : BitVec 48 := BitVec.allOnes 48
  /-- conversion; 18_thermal R485; the conversion in progress: its sensors and who asked. Reset none. -/
  conv : Option (BitVec 48 × ConvBy) := none
  /-- list; 18_thermal R485; mailboxes whose reads wait for a conversion, with their masks. Reset empty. -/
  convWait : List (Nat × BitVec 48) := []
  /-- 16 + 6; 18_thermal R486; THS_MAX.TEMP and SENSOR of the last conversion. Reset DESIGN CHOICE 0 (log 1). -/
  maxTemp : BitVec 16 := 0
  maxSensor : Nat := 0
  /-- 1; 18_thermal R486; THS_MAX.VALID. Reset 0 (Table TH-2). -/
  maxValid : Bool := false
  /-- 1; 18_thermal R486; THS_MAX.NONE. Reset DESIGN CHOICE 0 (log 1). -/
  maxNone : Bool := false
  /-- 1; 18_thermal R489; the HALT latch; TH_HALT_N is low while it is set. Reset 0 (R490: PWR_OK low clears it). -/
  halt : Bool := false
  /-- 16; 18_thermal R486; THS_HALTCNT, saturating. Reset 0 (Table TH-2: since cold start). -/
  haltCnt : Nat := 0
  /-- at most 8; 18_thermal R496; the last halts, newest first. Reset empty. -/
  halts : List HaltRec := []
  /-- time; 18_thermal R491; since when the RESUME timer runs. Reset none. -/
  resumeSince : Option Nat := none
  deriving DecidableEq, Repr


/-- The kind of a partition (spec/07_two_party_protection.md R170, Table TP-1). -/
inductive PartKind | unused | ordinary | sealedK | vault
  deriving DecidableEq, Repr

/-- A partition entry (spec/07_two_party_protection.md R170, Table TP-1). -/
structure Part where
  kind : PartKind := .unused
  /-- FLAGS bit 0: owns the Vane fabric -/
  vane : Bool := false
  /-- AREAS: bit a allows mailbox opcodes of area a -/
  areas : BitVec 16 := 0
  mbx : BitVec 16 := 0
  mee : BitVec 16 := 0
  clusters : BitVec 128 := 0
  dma : BitVec 64 := 0
  lullBase : Nat := 0
  lullCount : Nat := 0
  tenantBase : Nat := 0
  tenantCount : Nat := 0
  hbmQuota : Nat := 0
  deriving DecidableEq, Repr

/-- VAULT_POLICY (spec/07_two_party_protection.md R174). -/
structure VaultPolicy where
  parts : BitVec 64 := 0
  /-- the allowed escrow tray IDs, at most four -/
  escrow : List Nat := []
  /-- the longest share-vault session life in seconds -/
  life : Nat := 0
  deriving DecidableEq, Repr

/-- SEALED_POLICY (spec/07_two_party_protection.md R174). -/
structure SealedPolicy where
  parts : BitVec 64 := 0
  /-- the key holder's public key, empty when none -/
  holder : List Byte := []
  maxDegree : Nat := 0
  maxLimbs : Nat := 0
  deriving DecidableEq, Repr

/-- The custody record (spec/07_two_party_protection.md R175). -/
structure Custody where
  hc : List Byte
  ts : List Byte
  gen : Nat
  /-- its HMAC-SHA-384 under the die-unique key -/
  mac : BitVec 384
  deriving DecidableEq, Repr

/-- An SPDM exchange (spec/07_two_party_protection.md R192): how far it has come (VERSION, CAPABILITIES, ALGORITHMS), and the messages
that the next signatures cover. -/
structure SpdmConn where
  stage : Nat := 0
  vca : List Byte := []
  certs : List Byte := []
  meas : List Byte := []
  deriving DecidableEq, Repr

/-- A live challenge (spec/07_two_party_protection.md R176). -/
structure Chal where
  id : Nat
  nonce : List Byte
  issued : Nat
  deriving DecidableEq, Repr

/-- A pending anti-rollback run (spec/07_two_party_protection.md R190). -/
structure FuseRun where
  counter : Fin 8
  target : Nat
  /-- failed verifications of the fuse being blown -/
  tries : Nat := 0
  /-- the custody record that becomes valid at the target -/
  keys : Option Custody := none
  deriving DecidableEq, Repr

/-- Dual control and attestation (spec/07_two_party_protection.md). The settings of the package store and the OTP are kept
across every reset; challenges, grants and debug unlock are not. -/
structure Prot where
  /-- 63 entries; 07_two_party_protection R170, R174; partitions 1 to 63. Reset UNUSED (Table TP-3). -/
  parts : Tab Part := []
  /-- record; 07_two_party_protection R174; VAULT_POLICY. Reset none allowed (Table TP-3). -/
  vault : VaultPolicy := {}
  /-- record; 07_two_party_protection R174; SEALED_POLICY. Reset none allowed (Table TP-3). -/
  sealedP : SealedPolicy := {}
  /-- record; 07_two_party_protection R175; custody record. Reset none, UNOWNED (Table TP-3). -/
  custody : Option Custody := none
  /-- 8 x 0 to 256; 07_two_party_protection R188; anti-rollback counters. Reset 0 (Table TP-3). -/
  counters : Vector Nat 8 := Vector.replicate 8 0
  /-- record; 07_two_party_protection R190; pending record of a fuse run. Reset none. -/
  run : Option FuseRun := none
  /-- at most 8; 07_two_party_protection R176; live challenges. Reset none (R176). -/
  challenges : List Chal := []
  /-- 32; 07_two_party_protection R176; next CHAL_ID. Reset DESIGN CHOICE 0 (log 1). -/
  nextChal : BitVec 32 := 0
  /-- 0 to 3; 07_two_party_protection R185; debug unlock level. Reset 0 (Table TP-3). -/
  debugLevel : Nat := 0
  /-- time; 07_two_party_protection R184; end of debug unlock. Reset none. -/
  debugEnd : Option Nat := none
  /-- 384; 07_two_party_protection R194; measurement block 3, the image of the last PH_AUTH pass since cold start. Reset 0 (R194). -/
  fwMeasure : BitVec 384 := 0
  /-- 16; 07_two_party_protection R191, R194; security version of the running image. Reset DESIGN CHOICE 0 (log 1). -/
  fwSvn : Nat := 0
  /-- record; 07_two_party_protection R192; the running SPDM exchange. Reset none. -/
  spdm : SpdmConn := {}
  /-- 384; 07_two_party_protection R193; the device identity key, while the always-on island holds one. Reset as the die's physically
  unclonable source gives it (R193). -/
  idKey : Option (List Byte) := none
  deriving DecidableEq, Repr

/-- The states of the Vane fabric (spec/05_vane_fabric.md R121, Table VF-2). -/
inductive VaneSt | unloaded | loading | running | failed
  deriving DecidableEq, Repr

/-- What a package does with its own section as it passes (spec/05_vane_fabric.md R128, Table VF-8). -/
inductive CapMode | forward | capture | discard
  deriving DecidableEq, Repr

/-- A self-port OPEN in progress or an open region (spec/05_vane_fabric.md R133 to R136). -/
structure OpenRegion where
  /-- 0 outbound packet ending, 1 waiting for responses, 2 isolated and open -/
  stage : Nat
  /-- when OPEN was accepted -/
  since : Nat
  /-- the records accepted since OPEN, in order -/
  recs : List Byte := []
  /-- open for more than 10 ms: flits for the attached port are discarded -/
  long : Bool := false
  /-- the flip-flops of the region as they stopped (R134) -/
  flops : Nat := 0
  /-- the isolation values that its outputs to other regions hold (R134) -/
  outs : Nat := 0
  /-- the draw that stands for the contents of its distributed RAM as user logic left them -/
  ramAt : Nat := 0
  /-- the frames written since OPEN, as first address and number -/
  wrote : List (Nat × Nat) := []
  deriving DecidableEq, Repr

/-- The Vane fabric and the configuration stream (spec/05_vane_fabric.md). -/
structure Vane where
  /-- state; 05_vane_fabric R121; state of the fabric. Reset UNLOADED (R121). -/
  st : VaneSt := .unloaded
  /-- 473,216 frames of 256 bytes; 05_vane_fabric Table VF-1, R121; configuration memory, by frame address. Reset 0 (Table VF-2). -/
  frames : Tab (List Byte) := []
  /-- 128 bytes; 05_vane_fabric Table VF-4; header of the section that was loaded last. Reset empty. -/
  hdr : List Byte := []
  /-- 64 x 20,000; 05_vane_fabric Table VF-1, R134, R136; two flip-flops of each cell, by region, as the region last started. Reset 0 (Table VF-2). -/
  flops : Tab Nat := []
  /-- 4; 05_vane_fabric R121; enabled Vane ports. Reset 0 (Table VF-2). -/
  vpEnable : BitVec 4 := 0
  /-- 64; 05_vane_fabric R121; enabled VIO pins. Reset 0 (Table VF-2). -/
  vioEnable : BitVec 64 := 0
  /-- 8; 05_vane_fabric R131, R138; subcode of the last load. Reset DESIGN CHOICE 0 (log 1). -/
  lastSub : Nat := 0
  /-- 64; 05_vane_fabric R131, R138; BUILD_ID of the last load. Reset DESIGN CHOICE 0 (log 1). -/
  buildId : Nat := 0
  /-- 384; 05_vane_fabric R131, R136; the Vane measurement. Reset DESIGN CHOICE 0 (log 1). -/
  measure : BitVec 384 := 0
  /-- count; 05_vane_fabric R122; flits discarded at a disabled port. Reset DESIGN CHOICE 0 (log 1). -/
  discarded : Nat := 0
  /-- count; 05_vane_fabric R135; packets ended with a poisoned tail. Reset DESIGN CHOICE 0 (log 1). -/
  poisoned : Nat := 0
  /-- count; 05_vane_fabric R135; stale responses. Reset DESIGN CHOICE 0 (log 1). -/
  stale : Nat := 0
  /-- 64 bytes; 05_vane_fabric Table VF-3; tray header of the stream that is passing. Reset none. -/
  trayHdr : Option (List Byte) := none
  /-- 128 bytes and mode; 05_vane_fabric R128; this package's section that is passing. Reset none. -/
  passing : Option (List Byte × CapMode) := none
  /-- 1; 05_vane_fabric R126; the stream that is passing held this package's section. Reset 0. -/
  sawOwn : Bool := false
  /-- section and BUILD_ID; 05_vane_fabric R129; the staged section, its bytes from SECT_SYNC through SECT_CRC. Reset none. -/
  staged : Option (List Byte × Nat) := none
  /-- section and BUILD_ID; 05_vane_fabric R130; the section that is being loaded. Reset none. -/
  loading : Option (List Byte × Nat) := none
  /-- 8; 05_vane_fabric R129; subcode of a capture failure that waits for PH_VANE. Reset none. -/
  capFail : Option Nat := none
  /-- 1; 05_vane_fabric R126; the package sends STREAM_REQ in its hold. Reset 0. -/
  requesting : Bool := false
  /-- 16; 05_vane_fabric R126; number of the next STREAM_REQ of this start, for relaying it once (log 19). Reset DESIGN CHOICE 0 (log 19). -/
  reqNo : BitVec 16 := 0
  /-- list of (slot, number); 05_vane_fabric R126; STREAM_REQ messages already relayed. Reset empty. -/
  relayed : List (Nat × Nat) := []
  /-- 1; 05_vane_fabric R125; slot 0 sends the stream. Reset 0. -/
  sending : Bool := false
  /-- time; 05_vane_fabric R125; start of the previous send. Reset none. -/
  lastSend : Option Nat := none
  /-- count; 05_vane_fabric R125; ends of sends after which CFG_ERR_N is still to be sampled. Reset 0. -/
  samples : Nat := 0
  /-- 0 to 2; 05_vane_fabric R125; sends in a row that CFG_ERR_N caused. Reset 0. -/
  errSends : Nat := 0
  /-- 64 regions; 05_vane_fabric R133 to R136; regions that OPEN has taken, by region. Reset none. -/
  opened : Tab OpenRegion := []
  /-- 8; 05_vane_fabric R133; the last self-port result. Reset DESIGN CHOICE 0 (log 1). -/
  spResult : Nat := 0
  /-- words; 05_vane_fabric R133; the words last answered on SP_RDATA. Reset empty. -/
  spOut : List Nat := []
  /-- counts by result code; 05_vane_fabric R138; the self-port counters. Reset DESIGN CHOICE 0 (log 1). -/
  spCount : Tab Nat := []
  /-- 1; 05_vane_fabric R138; VANE_DISABLE holds the fabric in UNLOADED until the next reset. Reset 0. -/
  disabled : Bool := false
  /-- 4 x tags; 05_vane_fabric R118, R135; reads that each Vane port has issued and not had answered. Reset none. -/
  reads : Tab (List Nat) := []
  /-- 4 x tags; 05_vane_fabric R135; reads whose wait ended at an OPEN before their responses came. Reset none. -/
  late : Tab (List Nat) := []
  /-- 4; 05_vane_fabric R135, R138; ports at which VANE_DISABLE waits: 0 none, 1 for the outbound packet, 2 for responses. Reset 0. -/
  ending : Tab Nat := []
  deriving DecidableEq, Repr


/-- A Gale packet in flight: its source node and input port (OUT codes of R220), its 64-bit sideband, its data. -/
structure Packet where
  /-- the injection it came from: the copies of a multicast share it -/
  id : Nat
  src : Nat
  port : Nat
  sb : BitVec 64
  promoted : Bool := false
  data : List Byte := []
  /-- the Vane port at which it waits under flow control (05_vane_fabric R135) -/
  waits : Option Nat := none
  deriving DecidableEq, Repr

/-- A Breeze message in flight or at its endpoint: its source as node × 2 + SRCPORT, its 32-bit header, its 16-byte body
(spec/08_gale_breeze_lull.md R208, R209). -/
structure BreezeMsg where
  src : Nat
  hdr : BitVec 64
  body : List Byte := []
  deriving DecidableEq, Repr

/-- A packet from a Gust port that waits for room among its 64 flits (spec/08_gale_breeze_lull.md R201). -/
structure GustEntry where
  port : Nat
  sb : BitVec 64
  data : List Byte
  deriving DecidableEq, Repr

/-- The route banks of one parity: the routers they were built around, those in probation, the Gust ports in probation, and the bytes
that differ from what firmware builds, by node × 1,024 + offset (spec/08_gale_breeze_lull.md R220, R221, R226). -/
structure RouteBank where
  around : BitVec 128 := 0
  test : BitVec 128 := 0
  testPorts : BitVec 12 := 0
  /-- a caller built it: a byte that is not listed is 0 -/
  caller : Bool := false
  bytes : Tab Byte := []
  deriving DecidableEq, Repr

/-- A static window that is open (spec/08_gale_breeze_lull.md R205, R207). -/
structure OpenWindow where
  idx : Nat
  /-- the turn at which it opened -/
  turn : Nat
  broken : Bool := false
  deriving DecidableEq, Repr

/-- What the next epoch switch changes besides routes, and the units that join or leave with it (R224, R226, R517, R519). -/
structure EpochPlan where
  joins : List (Nat × Nat) := []
  leaves : List (Nat × Nat) := []
  /-- the routes alone change -/
  rebuild : Bool := false
  deriving DecidableEq, Repr

/-- The on-die networks (spec/08_gale_breeze_lull.md). -/
structure Net where
  /-- 16; 08_gale_breeze_lull R224; the route epoch. Reset DESIGN CHOICE 0 (log 1). -/
  epoch : BitVec 16 := 0
  /-- 0 to 2; 08_gale_breeze_lull R226; epoch switch: none, shadow banks being written, old parity draining. Reset none. -/
  stage : Nat := 0
  /-- time; 08_gale_breeze_lull R225; when the switch was set. Reset 0. -/
  switchedAt : Nat := 0
  /-- lists; 08_gale_breeze_lull R226; units that join or leave at the switch. Reset empty. -/
  plan : EpochPlan := {}
  /-- lists; 08_gale_breeze_lull R226; units that wait for the epoch after. Reset empty. -/
  next : EpochPlan := {}
  /-- 128; 08_gale_breeze_lull R224; parity of the bank that is current at each router. Reset DESIGN CHOICE 0 (log 1). -/
  parity : BitVec 128 := 0
  /-- 2 x 812 bytes per router; 08_gale_breeze_lull R220, R221; the route banks of parity 0 and 1. Reset DESIGN CHOICE as firmware builds them with no router dead (log 20). -/
  bank0 : RouteBank := {}
  bank1 : RouteBank := {}
  /-- packets; 08_gale_breeze_lull R201, R225; Gale packets in flight, oldest first. Reset empty. -/
  flight : List Packet := []
  /-- count; 08_gale_breeze_lull R201; injections so far (the model's own name for a packet). Reset 0. -/
  nextId : Nat := 0
  /-- counts; 08_gale_breeze_lull R230; counters by kind × 65,536 + instance (kinds: Net.ctrKey). Reset DESIGN CHOICE 0 (log 1). -/
  ctr : Tab Nat := []
  /-- image; 08_gale_breeze_lull R202, R206; the current schedule image. Reset none. -/
  image : Option SchedImage := none
  /-- image; 08_gale_breeze_lull R206; the shadow image that waits for its switch. Reset none. -/
  shadow : Option SchedImage := none
  /-- (object, opening turn, windows opened) list; 08_gale_breeze_lull R205, R206; triggers that have been set and not used. Reset empty. -/
  triggered : List (Nat × Nat × List Nat) := []
  /-- list; 08_gale_breeze_lull R205; open windows. Reset none. -/
  windows : List OpenWindow := []
  /-- 8; 08_gale_breeze_lull R217; the gateways that carried traffic at the last epoch switch. Reset all (log 162). -/
  gwLive : BitVec 8 := 255
  /-- list; 08_gale_breeze_lull R201; packets that wait at Gust ports. Reset empty. -/
  gustWait : List GustEntry := []
  /-- at most 544; 08_gale_breeze_lull R208, R209; Breeze messages in flight, oldest first. Reset empty. -/
  breeze : List BreezeMsg := []
  /-- by node, at most 1,088 each; 08_gale_breeze_lull R210; messages at a Breeze endpoint: 64, and beyond them the spill. Reset empty. -/
  endpoints : Tab (List BreezeMsg) := []
  /-- times by link × 4 + network; 08_gale_breeze_lull R229; last uncorrectable error of a Gale link. Reset none. -/
  lastUe : Tab Nat := []
  deriving DecidableEq, Repr


/-- A multicast group (spec/09_multicast_eddy_objects.md R231, R232). -/
structure McastGroup where
  part : Nat
  tray : Bool
  /-- endpoints: (slot, node, port) -/
  eps : List (Nat × Nat × Nat)
  /-- per-router entries that the expert form supplied: (node, entry) -/
  entries : List (Nat × Nat) := []
  /-- in the current route epoch -/
  valid : Bool := false
  /-- to be removed at the next epoch switch -/
  deleted : Bool := false
  deriving DecidableEq, Repr

/-- One block of a reduction instance: the contributions that have arrived, in arrival order, as (index, data). -/
structure RedBlock where
  got : List (Nat × List Byte) := []
  delivered : Bool := false
  deriving DecidableEq, Repr

/-- One instance of a reduction (spec/09_multicast_eddy_objects.md R236, R244). -/
structure RedInst where
  started : Nat
  blocks : Tab RedBlock := []
  /-- contributors that have sent their last block -/
  last : List Nat := []
  /-- bit 0 INT_OVF, 1 NAN, 2 RANGE, 3 INF -/
  flags : BitVec 4 := 0
  /-- ended without a result: later contributions are discarded until each contributor begins again -/
  failed : Bool := false
  deriving DecidableEq, Repr

/-- A reduction group (spec/09_multicast_eddy_objects.md R236 to R244). -/
structure RedGroup where
  part : Nat
  tray : Bool := false
  contribs : List (Nat × Nat × Nat)
  /-- Eddy inputs at each router of its tree: (node, inputs) -/
  tree : List (Nat × Nat)
  /-- operand type code of Table CO-3; 0 until EDDY_MODE sets it -/
  typ : Nat := 0
  dest : Nat := 0
  done : Nat := 0
  wide : Bool := false
  modulus : Nat := 0
  arrival : Bool := false
  timeoutUs : Nat := 10000
  valid : Bool := false
  deleted : Bool := false
  insts : Tab RedInst := []
  /-- contributions discarded for failed instances -/
  late : Nat := 0
  deriving DecidableEq, Repr

/-- A multicast write that waits for its endpoints' answers: the injection, its source node and port, its sideband and flits, the
endpoints, those that have accepted and refused it (spec/09_multicast_eddy_objects.md R234, R235). -/
structure McastTally where
  id : Nat
  node : Nat
  port : Nat
  sb : BitVec 64
  flits : Nat
  want : Nat
  ok : Nat := 0
  bad : Nat := 0
  deriving DecidableEq, Repr

/-- Multicast and Eddy (spec/09_multicast_eddy_objects.md). -/
structure Coll where
  /-- 128 groups; 09_multicast_eddy_objects R231; multicast groups by ID. Reset none. -/
  mcast : List (Nat × McastGroup) := []
  /-- 64 groups; 09_multicast_eddy_objects R236; reduction groups by ID. Reset none. -/
  red : List (Nat × RedGroup) := []
  /-- list; 09_multicast_eddy_objects R234, R235; multicast writes whose combined acknowledgement is outstanding. Reset empty. -/
  acks : List McastTally := []
  /-- packets by router × 256 + stream; 09_multicast_eddy_objects R243; static flits that an Eddy unit holds for their partners. Reset empty. -/
  merges : Tab (List Packet) := []
  deriving DecidableEq, Repr

/-- The kinds of a Lull object (spec/09_multicast_eddy_objects.md R245, Table CO-4). -/
inductive LKind | barrier | semaphore | event | counter
  deriving DecidableEq, Repr

/-- The states of a Lull object; an object that is not listed is FREE. -/
inductive LState | ready | poisoned
  deriving DecidableEq, Repr

/-- What a waiter waits for: the value of a WAIT, or the counts of an ACQUIRE. -/
inductive LWait | wait (arg : Nat) | acquire (n : Nat)
  deriving DecidableEq, Repr

/-- A waiter in the waiter set of an object. -/
structure Waiter where
  slot : Nat
  node : Nat
  cls : Nat
  resume : Bool
  what : LWait
  deriving DecidableEq, Repr

/-- A Lull object (spec/09_multicast_eddy_objects.md R245). -/
structure LObj where
  kind : LKind
  tray : Bool := false
  st : LState := .ready
  homeSlot : Nat := 0
  home : Nat
  part : Nat := 0
  value : BitVec 64 := 0
  /-- BARRIER: the phase bit -/
  phase : Bool := false
  /-- BARRIER: N -/
  n : Nat := 0
  /-- SEMAPHORE: RESERVE -/
  reserve : Nat := 0
  /-- EVENT: auto-clear after notify -/
  autoClear : Bool := false
  payload : BitVec 28 := 0
  nodes : BitVec 128 := 0
  ring : BitVec 24 := 0
  pkgs : BitVec 8 := 0
  waiters : List Waiter := []
  /-- the rotating pointer of R248: requester ID slot × 256 + node -/
  ptr : Nat := 0
  deriving DecidableEq, Repr

/-- The system objects of Table CO-7 (R250). -/
def systemObjs : List (Nat × LObj) :=
  [(0, { kind := .event, home := 0x35, autoClear := true }), (1, { kind := .event, home := 0x35, autoClear := true }),
   (2, { kind := .event, home := 0x35, autoClear := true }), (3, { kind := .counter, home := 0x35 })]

/-- Lull objects and agents (spec/09_multicast_eddy_objects.md). -/
structure Lull where
  /-- 16,384 objects; 09_multicast_eddy_objects R245, R250; objects that are not FREE, by ID. Reset the system objects 0x0000 to 0x0003 (R250). -/
  objs : List (Nat × LObj) := systemObjs
  /-- (node, object) list; 09_multicast_eddy_objects R247; outstanding waits of the node and ring-stop agents. Reset empty. -/
  waits : List (Nat × Nat) := []
  deriving DecidableEq, Repr


/-- The agreed profile of a tile (spec/10_tile_bond.md R266, Table TB-8). -/
structure TileProfile where
  bdiv : Nat
  f : Nat
  vdef : Nat
  vmin : Nat
  vmax : Nat
  share : Nat
  feat : BitVec 32
  /-- CLUSTERS_EN by local index -/
  clusters : BitVec 32
  deriving DecidableEq, Repr

/-- A tile in training and in service (spec/10_tile_bond.md R265 to R275). -/
structure TileRec where
  /-- the capability record of 64 bytes, empty when absent -/
  cap : List Byte := []
  prof : Option TileProfile := none
  /-- step of Table TB-12 that has ended: 0 none, 1 GET_CAP, 2 PUT_PROFILE, 4 CLOCK_GO sent, 5 TCLK_OK -/
  step : Nat := 0
  /-- reason of TILE_FAIL, 0 when it has not failed -/
  fail : Nat := 0
  /-- the last TCC status word -/
  status : Option Word := none
  deriving DecidableEq, Repr

/-- A slice stream that is open (spec/10_tile_bond.md R261). -/
structure SliceStream where
  write : Bool
  off : Nat
  len : Nat
  deriving DecidableEq, Repr

/-- A bond port (spec/10_tile_bond.md Tables TB-2, TB-3, TB-14). -/
structure BondPort where
  /-- PRST_N is high -/
  prst : Bool := false
  crdy : Bool := false
  /-- CERR_N is low -/
  cerr : Bool := false
  fence : Bool := false
  /-- last step of Table TB-12 that ended for this port -/
  step : Nat := 0
  identBad : Bool := false
  /-- the faults that this test has found: (site, position) -/
  found : List (Nat × Nat) := []
  /-- merged fault mask of each bundle site and of the sideband site 58 -/
  masks : Tab (BitVec 36) := []
  /-- every condition of R274 has been met by the test -/
  ready : Bool := false
  /-- time of the last uncorrectable frame -/
  lastUe : Option Nat := none
  /-- start of the 1 s window and the corrected frames in it -/
  ceStart : Nat := 0
  ceCount : Nat := 0
  /-- flits that wait in the port for the router -/
  fifo : List (BitVec 64 × List Byte) := []
  /-- Breeze messages that wait in the port for the router (R259) -/
  breeze : List BreezeMsg := []
  streams : Tab SliceStream := []
  /-- the cluster window in 64-byte units -/
  winBase : Nat := 0
  winLen : Nat := 0
  /-- the progress slot that the last dispatch named: the partition and the DVA (12_translation_dma_preemption R325) -/
  progress : Option (Nat × Nat) := none
  deriving DecidableEq, Repr

/-- The tile bonds (spec/10_tile_bond.md). -/
structure Bond where
  /-- 4 tiles; 10_tile_bond R265 to R275; capability record, agreed profile, training. Reset none (Table CP-6). -/
  tiles : Vector TileRec 4 := Vector.replicate 4 {}
  /-- 128 ports; 10_tile_bond R254 to R278; sideband, fault masks, counters, slice streams, cluster window. Reset clear (Table CP-6). -/
  ports : Tab BondPort := []
  deriving DecidableEq, Repr



/-- The mode of an HBM region (spec/11_memory_and_ecc.md R282, Table ME-2). -/
inductive HMode | unbacked | stripe | edgeN | edgeS | stack (h : Nat)
  deriving DecidableEq, Repr

/-- An HBM region: its mode, the partition it is reserved to (0 the general pool), its chunks on each controller in order. -/
structure HbmRegion where
  mode : HMode := .unbacked
  owner : Nat := 0
  chunks : List (Nat × List Nat) := []
  deriving DecidableEq, Repr

/-- What is wrong with a stored HBM line or slice word: the symbols or bits that differ, poison, the mark of an injection
(spec/11_memory_and_ecc.md R294 to R296, R310). -/
structure Flaw where
  bad : List Nat := []
  poison : Bool := false
  inj : Bool := false
  deriving DecidableEq, Repr

/-- USE of a page record (spec/14_pages_prefixes_adapters_drift.md Table KV-2). -/
inductive Use | free | request | held | retained | system | list | zeroing
  deriving DecidableEq, Repr

/-- A page record with its byte of the frame owner table (spec/12_translation_dma_preemption.md R317,
spec/14_pages_prefixes_adapters_drift.md R369). -/
structure FrameRec where
  use : Use := .free
  tag : Nat := 0
  part : Nat := 0
  /-- HELD: KIND TABLE rather than DATA -/
  table : Bool := false
  indexed : Bool := false
  retirePending : Bool := false
  lost : Bool := false
  sharers : Nat := 0
  lastUse : Nat := 0
  /-- HELD and freed, waiting for its invalidation -/
  freeing : Bool := false
  deriving DecidableEq, Repr

/-- ECCW_FLIPi (spec/11_memory_and_ecc.md Table ME-7). -/
structure Flip where
  pos : Nat := 0
  pat : Nat := 0
  en : Bool := false
  deriving DecidableEq, Repr

/-- A request that waits for a slice bank; `lost` says that it has lost the bank before (spec/11_memory_and_ecc.md R292). -/
structure SliceWait where
  node : Fin 128
  port : SlicePort
  off : BitVec 22
  len : Fin 65
  write : Option (List Byte)
  src : Fin 152
  tag : BitVec 16
  found : List (Fin 8 × Fin 72)
  lost : Bool := false
  deriving DecidableEq, Repr

/-- HBM, the shared buffer and error correction (spec/11_memory_and_ecc.md). -/
structure Mem where
  /-- 512 GiB, 384 MiB, 4 TiB; 11_memory_and_ecc R281, 14_pages_prefixes_adapters_drift R388; bytes of HBM, slices and the drift tier by DPA. Reset DESIGN CHOICE 0 (log 23). -/
  bytes : Tab Byte := []
  /-- check symbols, by DPA of the line or word; 11_memory_and_ecc R294 to R298; stored errors, poison, injection marks. Reset DESIGN CHOICE none (log 23). -/
  flaws : Tab Flaw := []
  /-- 512 regions; 11_memory_and_ecc R282, R284, R285; the region table. Reset every region UNBACKED until PH_TRAIN (R284). -/
  regions : Tab HbmRegion := []
  /-- 8,388,608 frames; 12_translation_dma_preemption R317, 14_pages_prefixes_adapters_drift R369; frame owner table and page records. Reset FREE (R368: granted at the end of PH_TRAIN). -/
  frames : Tab FrameRec := []
  /-- frame number; 14_pages_prefixes_adapters_drift R347, R368; the frames below it are SYSTEM frames of partition 0 or retired. Reset 0. -/
  sysTop : Nat := 0
  /-- list; 11_memory_and_ecc R304; frames retired for the current run only. Reset empty. -/
  retiredRun : List Nat := []
  /-- 144 x count; 11_memory_and_ecc R299; corrected errors of slices 0 to 127 and controllers 128 to 143, saturating. Reset DESIGN CHOICE 0 (log 1). -/
  ce : Tab Nat := []
  /-- 144 x count; 11_memory_and_ecc R299; uncorrectable errors, saturating. Reset DESIGN CHOICE 0 (log 1). -/
  ue : Tab Nat := []
  /-- 16 x at most 64 lines; 11_memory_and_ecc R301; rescrub queues. Reset empty. -/
  rescrub : Tab (List Nat) := []
  /-- 16 x count; 11_memory_and_ecc R301; addresses that a full rescrub queue dropped. Reset DESIGN CHOICE 0 (log 1). -/
  rescrubDrops : Tab Nat := []
  /-- 144 x line; 11_memory_and_ecc R300; patrol position of each scrubber. Reset 0 (a pass goes in address order). -/
  scrubPos : Tab Nat := []
  /-- 144 x time; 11_memory_and_ecc R300; start of the running pass. Reset 0. -/
  passStart : Tab Nat := []
  /-- 144 x count; 11_memory_and_ecc Table ME-6; number of the running pass. Reset 0. -/
  passNo : Tab Nat := []
  /-- 1 to 168 h; 11_memory_and_ecc R300; HBM scrub period. Reset 12 (R300). -/
  hbmHours : Nat := 12
  /-- 1 to 24 h; 11_memory_and_ecc R300; slice scrub period. Reset 1 (R300). -/
  sliceHours : Nat := 1
  /-- (controller, row, line, time) list; 11_memory_and_ecc Table ME-6; hard lines. Reset empty. -/
  hard : List (Nat × Nat × Nat × Nat) := []
  /-- word address to pass number + 1; 11_memory_and_ecc Table ME-6; slice words that the patrol last corrected. Reset empty. -/
  wordCe : Tab Nat := []
  /-- 16 x (turn, bytes); 11_memory_and_ecc R287; static bytes of the current turn. Reset 0. -/
  staticUsed : Tab (Nat × Nat) := []
  /-- at most one word for each of 2,048 banks; 11_memory_and_ecc Table ME-5; corrected words whose write-back waits for an idle cycle of
  their bank. Reset none. -/
  backs : List Nat := []
  /-- 16 x count; 11_memory_and_ecc R287, R311; requests beyond the static budget. Reset DESIGN CHOICE 0 (log 1). -/
  overBudget : Tab Nat := []
  /-- 16 x count; 11_memory_and_ecc R290; refresh instants since training. Reset 0. -/
  refreshes : Tab Nat := []
  /-- (node × 192 + unit) to partition; 11_memory_and_ecc R293; owners of slice units. Reset none. -/
  unitOwner : Tab (Option Nat) := []
  /-- units; 11_memory_and_ecc R302, Table ME-6; slice units that are retired, or will be when next free. Reset none. -/
  unitRetired : List Nat := []
  /-- 128 x pointer; 11_memory_and_ecc R293; rotating pointer of each slice's arbitration stage. Reset DESIGN CHOICE 0 (log 1). -/
  unitPtr : Tab Nat := []
  /-- 2,048 banks; 11_memory_and_ecc R292; the slice banks that have served a request in the running cycle, as node × 16 + bank. Reset none. -/
  bankUsed : List Nat := []
  /-- list; 11_memory_and_ecc R292; requests that wait for a slice bank, in their order. Reset none. -/
  bankWait : List SliceWait := []
  /-- (node, bank, row) list; 11_memory_and_ecc R302; rows of slices that a spare row replaces in this start. Reset none. -/
  spareRows : List (Nat × Nat × Nat) := []
  /-- (node, bank, position) list; 11_memory_and_ecc R302; positions that a spare column group replaces in this start. Reset none. -/
  spareCols : List (Nat × Nat × Nat) := []
  /-- (controller, row) list; 11_memory_and_ecc R305; rows repaired in the current start. Reset none. -/
  repaired : List (Nat × Nat) := []
  /-- 8; 11_memory_and_ecc R308; stacks whose zero-fill runs. Reset 0. -/
  zeroing : BitVec 8 := 0
  /-- 1; 11_memory_and_ecc R309; ECCW_CTRL.ARM and ECCW_STATUS.ARMED. Reset DESIGN CHOICE 0 (log 1). -/
  armed : Bool := false
  /-- time; 11_memory_and_ecc R310; when the injection was armed. Reset 0. -/
  armedAt : Nat := 0
  /-- 1; 11_memory_and_ecc R309; ECCW_CTRL.NOW. Reset DESIGN CHOICE 0 (log 1). -/
  eccNow : Bool := false
  /-- 48; 11_memory_and_ecc R309; ECCW_ADDR_LO and ECCW_ADDR_HI. Reset DESIGN CHOICE 0 (log 1). -/
  eccAddr : Nat := 0
  /-- 4 x (POS, PAT, EN); 11_memory_and_ecc R309; ECCW_FLIP0 to ECCW_FLIP3. Reset DESIGN CHOICE 0 (log 1). -/
  flips : Vector Flip 4 := Vector.replicate 4 {}
  /-- 1; 11_memory_and_ecc R309; ECCW_STATUS.APPLIED. Reset DESIGN CHOICE 0 (log 1). -/
  applied : Bool := false
  /-- 1; 11_memory_and_ecc R309; ECCW_STATUS.EXPIRED. Reset DESIGN CHOICE 0 (log 1). -/
  expired : Bool := false
  /-- 1; 11_memory_and_ecc R309; ECCW_STATUS.REFUSED. Reset DESIGN CHOICE 0 (log 1). -/
  refused : Bool := false
  /-- count; 11_memory_and_ecc Table ME-8; injections since cold start. Reset 0 (counted since cold start). -/
  injections : Nat := 0
  deriving DecidableEq, Repr


/-- A fault record (spec/12_translation_dma_preemption.md Table TD-5). -/
structure FaultRec where
  ts : Nat
  dva : Nat
  part : Nat
  cause : Nat
  access : Nat
  level : Nat
  ut : Nat
  inst : Nat
  tag : Nat
  context : Nat
  fseq : Nat := 0
  deriving DecidableEq, Repr

/-- The fault queue of a partition (spec/12_translation_dma_preemption.md R322). -/
structure FaultQ where
  recs : List FaultRec := []
  ovf : Nat := 0
  seq : Nat := 0
  deriving DecidableEq, Repr

/-- A cached translation: the page's first DVA and DPA, its size in bytes, its leaf bits (spec/12_translation_dma_preemption.md R313). -/
structure TlbEntry where
  part : Nat
  dva : Nat
  dpa : Nat
  size : Nat
  wr : Bool
  host : Bool
  rmt : Bool
  deriving DecidableEq, Repr

/-- An invalidation in progress (spec/12_translation_dma_preemption.md R320). -/
structure Inval where
  /-- by DPA, for a frame owner change; otherwise by partition and DVA -/
  byDpa : Bool
  part : Nat
  lo : Nat
  len : Nat
  /-- broadcast has begun; false while a static window of the partition is active -/
  started : Bool
  since : Nat
  /-- the DMA channel whose TLBI descriptor waits -/
  chan : Option Nat := none
  /-- the mailbox whose FREE waits, and the frames -/
  mbx : Option Nat := none
  frames : List Nat := []
  deriving DecidableEq, Repr

/-- The Stack MMU (spec/12_translation_dma_preemption.md). -/
structure Mmu where
  /-- 64 x frame; 12_translation_dma_preemption R312; root frames. Reset none until PH_TRAIN (R312). -/
  roots : Tab (Option Nat) := []
  /-- 64 queues; 12_translation_dma_preemption R322; fault queues, overflow counts and FSEQ. Reset empty; FSEQ DESIGN CHOICE 0 (log 1). -/
  queues : Tab FaultQ := []
  /-- 136 caches; 12_translation_dma_preemption R313; cached translations, newest first: nodes 0 to 127, gateways 128 to 135. Reset empty. -/
  tlb : Tab (List TlbEntry) := []
  /-- list; 12_translation_dma_preemption R320; invalidations in progress, oldest first. Reset empty. -/
  inval : List Inval := []
  deriving DecidableEq, Repr

/-- The states of a DMA channel (spec/12_translation_dma_preemption.md Table TD-13). -/
inductive DmaSt | idle | running | paused | faulted | error
  deriving DecidableEq, Repr

/-- A DMA descriptor as the channel fetched it (spec/12_translation_dma_preemption.md Table TD-8). -/
structure Desc where
  op : Nat
  flags : Nat
  srcSpace : Nat
  dstSpace : Nat
  len : Nat
  src : Nat
  dst : Nat
  port : Nat
  pattern : Nat
  obj : Nat
  lullOp : Nat
  req : Nat
  deriving DecidableEq, Repr

/-- A chunk in flight: its offset and length, the DPA of each DVA end. -/
structure Chunk where
  off : Nat
  len : Nat
  srcDpa : Option Nat
  dstDpa : Option Nat
  deriving DecidableEq, Repr

/-- What a channel does once its chunks in flight have completed: pause, cancel (whole ring or not), stop with a status and detail. -/
inductive DmaStop | pause | cancel (ring : Bool) | stop (status detail : Nat)
  deriving DecidableEq, Repr

/-- A DMA channel (spec/12_translation_dma_preemption.md R327 to R332). -/
structure DmaChan where
  st : DmaSt := .idle
  base : Nat := 0
  log2 : Nat := 4
  head : Nat := 0
  tail : Nat := 0
  /-- the current descriptor, and whether its checks have passed -/
  cur : Option Desc := none
  begun : Bool := false
  /-- offset of the next chunk to issue, and the chunks in flight, oldest first -/
  next : Nat := 0
  flight : List Chunk := []
  stops : List DmaStop := []
  /-- offset of the lowest chunk that failed -/
  failAt : Option Nat := none
  /-- an invalidation that the current TLBI waits for -/
  tlbi : Bool := false
  bytes : Nat := 0
  chunks : Nat := 0
  /-- the last 16 status areas: (status, detail, watermark, time), newest first -/
  last : List (Nat × Nat × Nat × Nat) := []
  deriving DecidableEq, Repr

/-- The DMA engine (spec/12_translation_dma_preemption.md). -/
structure Dma where
  /-- 64 channels; 12_translation_dma_preemption R327 to R332; state, ring, current descriptor, chunks in flight. Reset IDLE with an empty ring; base DESIGN CHOICE 0 (log 1). -/
  chan : Tab DmaChan := []
  /-- count; 12_translation_dma_preemption R327; control messages discarded. Reset DESIGN CHOICE 0 (log 1). -/
  badCtrl : Nat := 0
  /-- (partition, request) list; 12_translation_dma_preemption R332; request IDs that CANCEL_REQ has named. Reset empty. -/
  cancelled : List (Nat × Nat) := []
  /-- (partition, request) list; 12_translation_dma_preemption R332; CANCEL_REQ messages whose completion is still to be reported. Reset empty. -/
  reqWait : List (Nat × Nat) := []
  deriving DecidableEq, Repr


/-- The states of a request but FREE (spec/13_serving_pipeline.md R348, Table SP-5). -/
inductive RSt | queued | prefill | decode | paused | drifted | handoff | remote | ending
  deriving DecidableEq, Repr

/-- The SAMPLING fields of a descriptor (spec/13_serving_pipeline.md Table SP-3, spec/15_draft_and_sampler.md Table DS-3). -/
structure Sampling where
  temp : Nat := 0
  topK : Nat := 0
  topP : Nat := 0
  minP : Nat := 0
  repPen : Nat := 0
  repWin : Nat := 0
  deriving DecidableEq, Repr

/-- PLIST of a context record (spec/13_serving_pipeline.md Table SP-4, spec/14_pages_prefixes_adapters_drift.md R390, R393). -/
inductive PList | none | frame (f : Nat) | drift (d : Nat) | lost
  deriving DecidableEq, Repr

/-- A session of the drift engine (spec/14_pages_prefixes_adapters_drift.md R389 to R392): out or back, the pages granted to it,
whether it copies, whether its last chunk has been acknowledged, the order in which it became due. -/
structure DriftMove where
  out : Bool
  granted : Option (List Nat) := none
  copying : Bool := false
  copied : Bool := false
  due : Nat
  deriving DecidableEq, Repr

/-- One position of a proposal: (token, CHOSEN, q as FP32 bits) (spec/15_draft_and_sampler.md R400). -/
abbrev PropPos := List (Nat × Bool × Nat)

/-- A request: its context record (spec/13_serving_pipeline.md R347, Table SP-4) and what the pipeline keeps beside it. -/
structure Req where
  st : RSt
  /-- order of ID allocation -/
  seq : Nat
  cls : Nat
  tenant : Nat
  part : Nat
  /-- the ring; for a GUEST the origin slot -/
  ring : Nat
  adapter : Option Nat := none
  draft : Bool := false
  quiet : Bool := false
  cancelP : Bool := false
  pauseP : Bool := false
  hostPaused : Bool := false
  guest : Bool := false
  promptLen : Nat
  maxNew : Nat
  tokbuf : Nat
  seed : Nat
  smp : Sampling := {}
  userTag : Nat
  plist : PList := .none
  /-- the frames (or drift pages) that the page list names, in order -/
  pages : List Nat := []
  /-- pages at the front that are shared with the prefix index -/
  shared : Nat := 0
  /-- PREFILL_DONE, and the positions that the prefill is to fill -/
  filled : Nat := 0
  fillTo : Nat
  stepLast : Nat := 0
  prompt : List Nat := []
  /-- the committed tokens; GEN_LEN is their number -/
  gen : List Nat := []
  stops : List Nat := []
  /-- edges since it was paused by the pipeline -/
  pausedFor : Nat := 0
  ttl : Nat := 86400
  ttlEnd : Option Nat := none
  move : Option DriftMove := none
  driftPages : List Nat := []
  /-- the edge at which a drift grant that failed is tried again -/
  retryAt : Option Nat := none
  fullNoted : Bool := false
  waitNoted : Bool := false
  /-- a RESUME has been read: its order -/
  resumeP : Option Nat := none
  /-- its growth page was refused -/
  grow : Bool := false
  /-- DRIFTED: its TTL has ended, for the next edge -/
  expired : Bool := false
  /-- ENDING: ADMIT refused it -/
  refused : Bool := false
  /-- HANDOFF: a request for pages is with the peer; chunks are being shipped -/
  asked : Bool := false
  shipping : Bool := false
  /-- REMOTE: pages still to be freed at the next edge; a cancellation is confirmed by the peer -/
  freeNext : Bool := false
  confirmed : Bool := false
  /-- tokens that a peer has sent, for the next edge -/
  inbox : List Nat := []
  /-- it was in the step before -/
  inStep : Bool := false
  /-- the frames of it were LOST: it is rebuilt at the next edge -/
  rebuild : Bool := false
  prop : Option (List PropPos) := none
  /-- its last verify accepted every proposal -/
  lastAll : Bool := false
  /-- ENDING: the END record has been written (or none is due) and CANCEL_REQ may still be outstanding -/
  cancelSent : Bool := false
  deriving DecidableEq, Repr

/-- A serving program header (spec/13_serving_pipeline.md Table SP-2) and the prefix key (spec/14_pages_prefixes_adapters_drift.md R379). -/
structure Program where
  prefillEntry : Nat
  decodeEntry : Nat
  maxContext : Nat
  chunk : Nat
  decPerGroup : Nat
  kvBytes : Nat
  t0d : Nat
  t1d : Nat
  t0p : Nat
  t1p : Nat
  pw : Nat
  dw : Nat
  vocab : Nat
  digest : BitVec 384
  key : Nat
  deriving DecidableEq, Repr

/-- A partition as the serving pipeline knows it (spec/13_serving_pipeline.md R343, R362, R363). -/
structure SPart where
  program : Option Program := none
  /-- FIXED with its prefill groups; none for AUTO -/
  fixed : Option Nat := none
  /-- 0 BOTH, 1 PREFILL_ONLY, 2 DECODE_ONLY -/
  role : Nat := 0
  peer : Nat := 0
  /-- the groups of the prefill pool; its other pool groups decode -/
  prefillPool : BitVec 16 := 0
  lastMove : Nat := 0
  /-- rotating pointer over tenant IDs -/
  ptr : Nat := 0
  counter : Option Nat := none
  pauseHold : Nat := 256
  horizon : Nat := 60
  deriving DecidableEq, Repr

/-- A tenant: settings and bucket (spec/13_serving_pipeline.md R344, R352). -/
structure Tenant where
  enable : Bool := false
  maxClass : Nat := 0
  rate : Nat := 0
  depth : Nat := 0
  level : Int := 0
  q : Nat := 0
  /-- RATE and DEPTH that apply from the next edge -/
  next : Option (Nat × Nat) := none
  deriving DecidableEq, Repr

/-- A result record before it is written (spec/13_serving_pipeline.md Table SP-8). -/
structure ResRec where
  kind : Nat
  reason : Nat := 0
  count : Nat := 0
  req : Nat
  tag : Nat := 0
  gen : Nat := 0
  step : Nat
  deriving DecidableEq, Repr

/-- A serving ring (spec/13_serving_pipeline.md R342). -/
structure Ring where
  set : Bool := false
  part : Nat := 0
  subDva : Nat := 0
  subLog : Nat := 8
  hostRes : Bool := false
  resAddr : Nat := 0
  resLog : Nat := 10
  head : Nat := 0
  tail : Nat := 0
  prod : Nat := 0
  cq : Nat := 0
  stopped : Bool := false
  /-- records that EMIT has yet to write, oldest first -/
  out : List ResRec := []
  deriving DecidableEq, Repr

/-- What an entry of a step carries (spec/13_serving_pipeline.md Table SP-7); a draft turn has no entry on clusters. -/
inductive EKind | prefill | decode | verify | draftTurn
  deriving DecidableEq, Repr

/-- A request in the running step. -/
structure Entry where
  req : Nat
  part : Nat
  group : Nat
  kind : EKind
  ntok : Nat
  pos : Nat
  slot : Nat
  adapterSlot : Nat := 65535
  deriving DecidableEq, Repr

/-- A prefix entry (spec/14_pages_prefixes_adapters_drift.md Table KV-3). -/
structure PEntry where
  valid : Bool := false
  hash : Nat := 0
  part : Nat := 0
  parent : Option Nat := none
  page : Nat := 0
  sub : Nat := 0
  block : Nat := 0
  lastUse : Nat := 0
  tokens : List Nat := []
  extra : List Nat := []
  /-- the adapter and tenant of the chain, for PREFIX_FLUSH -/
  adapter : Option Nat := none
  tenant : Nat := 0
  deriving DecidableEq, Repr

/-- A registered adapter (spec/14_pages_prefixes_adapters_drift.md Table KV-4, R386). -/
structure Adapter where
  part : Nat
  gen : Nat
  rank : Nat
  layers : Nat
  dtype : Nat
  weightDva : Nat
  weightBytes : Nat
  crc : Nat
  deriving DecidableEq, Repr

/-- What the engine still drafts for a request: rounds left, the positions of its proposal record so far
(spec/15_draft_and_sampler.md R396, R402). -/
structure Drafting where
  left : Nat := 0
  props : List PropPos := []
  deriving DecidableEq, Repr

/-- A draft program (spec/15_draft_and_sampler.md Table DS-1, R398, R413). -/
structure DraftProg where
  k : Nat
  support : Nat
  vocab : Nat
  t0 : Nat
  t1 : Nat
  sram : Nat
  /-- CODE_BYTES, KV_OFFSET, KV_BYTES_D -/
  codeLen : Nat
  kvOff : Nat
  kvLen : Nat
  /-- the frames of code, then of weights (R398) -/
  frames : List Nat
  digest : BitVec 384
  /-- the copy and the digest have ended -/
  ready : Bool := false
  failed : Bool := false
  errs : Nat := 0
  deriving DecidableEq, Repr

/-- Pages granted to a peer's handoff (spec/13_serving_pipeline.md R363). -/
structure GuestGrant where
  slot : Nat
  part : Nat
  origin : Nat
  frames : List Nat
  /-- the request that becomes a GUEST at the next edge, once every chunk has arrived -/
  arrived : Option Req := none
  deriving DecidableEq, Repr

/-- The serving pipeline, the page steward's tables, the drift tier and the draft engine (spec/13 to 15). -/
structure Serve where
  /-- 64; 13_serving_pipeline R339; the step count. Reset 0 (R339: 1 for the first step). -/
  step : Nat := 0
  /-- time; 13_serving_pipeline R352; the last edge. Reset 0. -/
  edgeAt : Nat := 0
  /-- time; 13_serving_pipeline R352; the edge before. Reset 0. -/
  prevEdge : Nat := 0
  /-- time; 13_serving_pipeline R358; dispatch of the running step. Reset 0. -/
  dispatchedAt : Nat := 0
  /-- ns; 13_serving_pipeline R367; length of the last step. Reset 0. -/
  lastTime : Nat := 0
  /-- µs; 13_serving_pipeline R367; STEP_TARGET. Reset 25,000 (Table SP-9). -/
  target : Nat := 25000
  /-- 3 x percent; 13_serving_pipeline R354; floors of STANDARD, SEALED and BULK. Reset 20, 10, 10 (R354). -/
  floors : Vector Nat 3 := #v[20, 10, 10]
  /-- percent; 15_draft_and_sampler R403; the draft budget's share of STEP_TARGET. Reset 25 (R403). -/
  draftShare : Nat := 25
  /-- target, floors, draft share; 13_serving_pipeline R367, 15_draft_and_sampler R415; changes that wait for the next edge. Reset none. -/
  nextTarget : Option Nat := none
  nextFloors : Option (Vector Nat 3) := none
  nextShare : Option Nat := none
  /-- 2,097,152 records; 13_serving_pipeline R347, R348; requests by ID; an unlisted ID is FREE. Reset none. -/
  reqs : List (Nat × Req) := []
  /-- count; 13_serving_pipeline R351; order of the next ID allocation. Reset 0. -/
  nextSeq : Nat := 0
  /-- 64 partitions; 13_serving_pipeline R343, R362, R363; program, pools, role. Reset no program, AUTO, BOTH (R362, R363). -/
  parts : Tab SPart := []
  /-- 65,536 tenants; 13_serving_pipeline R344, R352; settings and buckets. Reset disabled, level 0 (R344). -/
  tenants : Tab Tenant := []
  /-- 64 rings; 13_serving_pipeline R342; serving rings. Reset not set. -/
  rings : Tab Ring := []
  /-- entries; 13_serving_pipeline R356; the running step. Reset none. -/
  entries : List Entry := []
  /-- 16; 13_serving_pipeline R356; groups dispatched in the running step. Reset 0. -/
  groups : BitVec 16 := 0
  /-- 16; 13_serving_pipeline R356; groups that have reported, or whose work is discarded (19_faults_and_recovery R510). Reset 0. -/
  reported : BitVec 16 := 0
  /-- 16; 13_serving_pipeline R358, 19_faults_and_recovery R510; groups whose work of the step is discarded. Reset 0. -/
  discarded : BitVec 16 := 0
  /-- packets; 15_draft_and_sampler R406; logit packets of the running step by (slot, J, VBASE). Reset none. -/
  packets : List ((Nat × Nat × Nat) × List (BitVec 16)) := []
  /-- by request; 15_draft_and_sampler R410, R411; tokens that SAMPLE has decided, and how the request ends with them (0 it does not, 1 STOP, 2 FAULT). Reset none. -/
  decided : List (Nat × List Nat × Nat) := []
  /-- by request; 15_draft_and_sampler R396, R402; drafting rounds that the step still waits for, and the proposals of the record so far. Reset none. -/
  drafting : Tab Drafting := []
  /-- (prefill, generated) by tenant; 13_serving_pipeline R352; tokens committed at the running edge. Reset none. -/
  work : Tab (Nat × Nat) := []
  /-- by partition; 13_serving_pipeline R339, R367; pool settings that wait for the next edge. Reset none. -/
  nextPool : List (Nat × SPart) := []
  /-- units by group; 13_serving_pipeline R356; slice units of the running step's batch tables: (node, unit). Reset none. -/
  tables : List (Nat × Nat) := []
  /-- 16,777,216 entries; 14_pages_prefixes_adapters_drift R380; the prefix index. Reset empty. -/
  index : Tab PEntry := []
  /-- 262,144 entries; 14_pages_prefixes_adapters_drift R386; registered adapters. Reset none. -/
  adapters : List (Nat × Adapter) := []
  /-- 16 by ID; 14_pages_prefixes_adapters_drift R386; generations. Reset DESIGN CHOICE 0 (log 1). -/
  adapterGen : Tab Nat := []
  /-- 2 x pages; 14_pages_prefixes_adapters_drift R388; capacity of CXL0's and CXL1's devices. Reset 0 (mapped at PH_TRAIN). -/
  driftSize : Vector Nat 2 := Vector.replicate 2 0
  /-- by page; 14_pages_prefixes_adapters_drift R388; drift pages in use: request + 1. Reset none (R394). -/
  driftUsed : Tab Nat := []
  /-- 2; 14_pages_prefixes_adapters_drift R393; CXL ports whose pages are BAD. Reset 0. -/
  driftBad : BitVec 2 := 0
  /-- list; 14_pages_prefixes_adapters_drift R393, 17_gust_links_and_host R475; single BAD drift pages. Reset none. -/
  driftBadPages : List Nat := []
  /-- counts; 14_pages_prefixes_adapters_drift R395; expiries and losses since cold start. Reset 0. -/
  expiries : Nat := 0
  losses : Nat := 0
  /-- count; 14_pages_prefixes_adapters_drift R389; order of the next session that becomes due. Reset 0. -/
  nextDue : Nat := 0
  /-- count; 14_pages_prefixes_adapters_drift R392; order of the next RESUME. Reset 0. -/
  nextResume : Nat := 0
  /-- by pool; 14_pages_prefixes_adapters_drift R375; frames that entered a free list at the last edge, and since it. Reset 0. -/
  entered : Tab Nat := []
  entering : Tab Nat := []
  /-- pointer; 14_pages_prefixes_adapters_drift R373; the page steward's rotating pointer. Reset DESIGN CHOICE 0 (log 1). -/
  stewardPtr : Nat := 0
  /-- at most 8; 15_draft_and_sampler R397, R398; draft programs by partition. Reset none. -/
  drafts : List (Nat × DraftProg) := []
  /-- counts; 15_draft_and_sampler R407, R409; duplicate and unknown logit packets, NaN logits. Reset DESIGN CHOICE 0 (log 1). -/
  dupPackets : Nat := 0
  badPackets : Nat := 0
  nans : Nat := 0
  /-- step; 15_draft_and_sampler R407; the last step with a LOGIT_DUP record. Reset none. -/
  dupNoted : Option Nat := none
  /-- list; 13_serving_pipeline R363; grants to handoffs of peers. Reset none. -/
  guests : List GuestGrant := []
  deriving DecidableEq, Repr


/-- A sealed session (spec/16_sealed_arithmetic_crosswind.md R416). -/
structure SealedSess where
  part : Nat
  /-- the degree is 2^n -/
  n : Nat
  /-- the limb moduli; M is their number -/
  moduli : List Nat
  d : Nat
  /-- time of one limb transform, in ps (R448) -/
  tau : Nat
  deriving DecidableEq, Repr

/-- An MEE pass descriptor (spec/16_sealed_arithmetic_crosswind.md Table SA-3). -/
structure PassDesc where
  op : Nat
  mode : Nat
  srcA : Nat
  srcB : Nat
  srcC : Nat
  dst : Nat
  acc : Nat
  sess : Nat
  limb0 : Nat
  nlimb : Nat
  strmA : Nat
  strmB : Nat
  strmC : Nat
  strmD : Nat
  window : Nat
  start : Nat
  coef0 : Nat
  ncoef : Nat
  keyDva : Nat
  dstDva : Nat
  auxDva : Nat
  exch : Nat
  obj : Nat
  /-- every reserved byte and bit is 0 -/
  resOk : Bool
  deriving DecidableEq, Repr

/-- A pass whose setup has passed: its ring index, the pieces (DPA, length) of the key and the destination range that it uses in
order, its constants, whether its window was already open at setup. -/
structure Pass where
  idx : Nat
  desc : PassDesc
  part : Nat
  keys : List (Nat × Nat) := []
  dsts : List (Nat × Nat) := []
  consts : List Nat := []
  waits : Bool := false
  deriving DecidableEq, Repr

/-- An MEE group (spec/16_sealed_arithmetic_crosswind.md R421, R422). -/
structure MeeGroup where
  set : Bool := false
  base : Nat := 0
  /-- next descriptor to set up, and the tail of the last doorbell -/
  head : Nat := 0
  tail : Nat := 0
  passes : List Pass := []
  /-- doorbells discarded, passes with LATE -/
  bad : Nat := 0
  late : Nat := 0
  /-- (status, detail, flags, outputs) of the last pass that ended -/
  last : Option (Nat × Nat × Nat × Nat) := none
  deriving DecidableEq, Repr

/-- An exchange that is not FREE (spec/16_sealed_arithmetic_crosswind.md R431 to R434). -/
structure Exch where
  sess : Nat
  key : List Byte
  nonce : List Byte
  opened : Nat
  masked : Nat := 0
  unmasked : Nat := 0
  /-- ELEMENTS of the return header, once an unmasking pass has been set up -/
  elements : Option Nat := none
  /-- by group: where the next masking and the next unmasking pass may start, as limb × 2^17 + coefficient -/
  maskMark : Tab Nat := []
  unmaskMark : Tab Nat := []
  deriving DecidableEq, Repr

/-- A running refresh macro (spec/16_sealed_arithmetic_crosswind.md R426 to R428). -/
structure Refresh where
  sess : Nat
  cipher : Nat
  keySet : Nat
  winKs : Nat
  winEl : Nat
  /-- stop after that many windows (expert) -/
  stopAt : Option Nat
  started : Nat
  /-- windows of it that have closed normally -/
  closed : Nat := 0
  deriving DecidableEq, Repr

/-- An open share vault (spec/16_sealed_arithmetic_crosswind.md R438 to R442). -/
structure Vault where
  part : Nat
  frames : List Nat
  metaFrames : List Nat
  lifeEnd : Nat
  epoch : Nat := 0
  /-- by line (DPA / 64): its write counter -/
  ctr : Tab Nat := []
  /-- an epoch change runs; one waits for it to end; one waits for the DRBG -/
  changing : Bool := false
  again : Bool := false
  waitKey : Bool := false
  /-- VAULT_WRITE_HELD has been written in this change -/
  heldNoted : Bool := false
  /-- writes that wait for their line: (DPA, bytes), oldest first -/
  held : List (Nat × List Byte) := []
  deriving DecidableEq, Repr

/-- What a running Crosswind handshake is for. -/
inductive CxFor | pair | resume | rekey
  deriving DecidableEq, Repr

/-- The batch of a round that this end has posted: first tuple, tuple count, bytes, whether it has been sent. -/
structure CxBatch where
  round : Nat
  base : Nat
  count : Nat
  bytes : List Byte
  sent : Bool := false
  deriving DecidableEq, Repr

/-- A Crosswind session (spec/16_sealed_arithmetic_crosswind.md R443 to R447). -/
structure CxSess where
  part : Nat
  vault : Nat
  /-- p of Z/p; 0 for Z/2^64 -/
  modulus : Nat
  role : Nat
  peer : Nat
  tupFirst : Nat
  tupCount : Nat
  event : Nat
  /-- round timeout in ms -/
  timeout : Nat := 1000
  /-- its handshake has passed -/
  paired : Bool := false
  suspended : Option Nat := none
  hs : Option CxFor := none
  /-- own nonce and ephemeral private key of the running handshake -/
  nonce : List Byte := []
  ephem : List Byte := []
  hello : Option CxPeer := none
  /-- first 4 bytes of the session tag -/
  tag : Word := 0
  round : Nat := 1
  out : Option CxBatch := none
  next : Option CxBatch := none
  sentAck : Bool := false
  gotAck : Bool := false
  /-- frames of the peer's batch received, its bytes so far, whether it is complete; the same of the next round -/
  inSeq : Nat := 0
  inBuf : List Byte := []
  inDone : Bool := false
  nextSeq : Nat := 0
  nextBuf : List Byte := []
  nextDone : Bool := false
  nextTuple : Nat := 0
  /-- tuples generated -/
  made : Nat := 0
  deriving DecidableEq, Repr

/-- The CTR_DRBG and its entropy source (spec/16_sealed_arithmetic_crosswind.md R435 to R437). -/
structure Drbg where
  ready : Bool := false
  reqs : Nat := 0
  exhausted : Bool := false
  srcFailed : Bool := false
  deriving DecidableEq, Repr

/-- Sealed arithmetic and Crosswind (spec/16_sealed_arithmetic_crosswind.md). -/
structure Sealed where
  /-- 16 slots; 16_sealed_arithmetic_crosswind R416; sealed sessions. Reset none bound. -/
  sess : List (Nat × SealedSess) := []
  /-- 16 groups; 16_sealed_arithmetic_crosswind R421, R422; rings, passes set up, counts. Reset no ring; counts DESIGN CHOICE 0 (log 1). -/
  groups : Tab MeeGroup := []
  /-- 256 entries; 16_sealed_arithmetic_crosswind R431, R434; exchanges that are not FREE. Reset none (R434). -/
  exchs : List (Nat × Exch) := []
  /-- list; 16_sealed_arithmetic_crosswind R428; refresh macros that run, by session. Reset none. -/
  refreshes : List Refresh := []
  /-- 32 slots; 16_sealed_arithmetic_crosswind R438; open vaults. Reset none (R442). -/
  vaults : List (Nat × Vault) := []
  /-- 16 slots; 16_sealed_arithmetic_crosswind R443; Crosswind sessions. Reset none. -/
  cx : List (Nat × CxSess) := []
  /-- count; 16_sealed_arithmetic_crosswind R444; Crosswind frames discarded. Reset DESIGN CHOICE 0 (log 1). -/
  cxBad : Nat := 0
  /-- record; 16_sealed_arithmetic_crosswind R435 to R437; DRBG instantiated, requests since reseed, refusal, source health. Reset not instantiated (R435: in PH_TRAIN), 0 requests. -/
  drbg : Drbg := {}
  deriving DecidableEq, Repr


/-- The states of a Gust port (spec/17_gust_links_and_host.md Table GL-6). -/
inductive PortSt | down | training | miswired | authFail | probation | up | faulted | offline
  deriving DecidableEq, Repr

/-- A flit in a retry buffer: its FSEQ, header (Table GL-2) and 256 bytes. -/
structure GFlit where
  fseq : BitVec 16
  hdr : BitVec 56
  data : List Byte
  deriving DecidableEq, Repr

/-- The states of a sealed channel (GLK_STATE.SEALED, spec/17_gust_links_and_host.md Table GL-13). -/
inductive ChanSt | none | up | hold | down
  deriving DecidableEq, Repr

/-- A sealed channel (spec/17_gust_links_and_host.md R461 to R465). -/
structure SChan where
  st : ChanSt := .none
  txEpoch : Nat := 0
  rxEpoch : Nat := 0
  /-- frames sent at this epoch: the next frame counter -/
  tx : Nat := 0
  /-- last counter accepted at this epoch -/
  rxLast : Option Nat := .none
  /-- REKEY_PEND -/
  pend : Bool := false
  /-- hold queue -/
  held : List Packet := []
  /-- a rekey handshake runs; the new epoch that waits for the peer's acknowledgement; the one that the peer has announced -/
  handshake : Bool := false
  next : Option Nat := .none
  rxNext : Option Nat := .none
  /-- AES-256 keys of both directions, and those of the epoch that follows once its handshake has passed -/
  txKey : List Byte := []
  rxKey : List Byte := []
  nextTx : List Byte := []
  nextRx : List Byte := []
  deriving DecidableEq, Repr

/-- A Gust port (spec/17_gust_links_and_host.md R449 to R467). -/
structure GPort where
  st : PortSt := .down
  /-- running step of Table GL-5, 0 outside training; 6 waits for the route epoch -/
  step : Nat := 0
  /-- consecutive good HCRCs of the block lock -/
  locks : Nat := 0
  /-- tray ID, slot, port of the far end, its AON_ID and AON_IFVER -/
  far : Option (Nat × Nat × Nat × Word × Word) := .none
  lanes : Nat := 4
  readySent : Bool := false
  readyGot : Bool := false
  txNext : BitVec 16 := 0
  retry : List GFlit := []
  rxNext : BitVec 16 := 0
  /-- NAK is set in the next block sent -/
  nak : Bool := false
  /-- the ACK value of the NAK last acted on -/
  nakDone : Option (BitVec 16) := .none
  /-- FSEQ at which the last replay started, and consecutive replays from it -/
  same : Option (BitVec 16 × Nat) := .none
  /-- start of the running second and replays in it -/
  winStart : Nat := 0
  winCount : Nat := 0
  badHcrc : Nat := 0
  /-- credits held for VC1 to VC3 -/
  credits : Vector Nat 3 := #v[0, 0, 0]
  /-- packets that wait at the edge router -/
  waitq : List Packet := []
  /-- by VC: bytes of the packet that is arriving -/
  asm : Tab (List Byte) := []
  /-- by LTYPE: the last LSEQ handled + 1, and the next LSEQ to send -/
  lseqIn : Tab Nat := []
  lseqOut : Tab Nat := []
  badLink : Nat := 0
  /-- remote requests in the table of 4,096 entries: (SRC, TAG, time) -/
  tracked : List (Nat × Nat × Nat) := []
  /-- quarantined (SRC, TAG, time) -/
  quar : List (Nat × Nat × Nat) := []
  /-- arrival times of remote requests: (SRC, TAG, time) -/
  arrived : List (Nat × Nat × Nat) := []
  /-- GLK_REPLAY, GLK_CRCERR, GLK_LATE, GLK_TIMEOUT, GLK_HOLDREF; requests refused because their tag is in quarantine -/
  replays : Nat := 0
  crcErr : Nat := 0
  late : Nat := 0
  timeouts : Nat := 0
  holdRef : Nat := 0
  reused : Nat := 0
  /-- GLK_TXCTR_HI as the last read of GLK_TXCTR_LO left it -/
  txHi : Word := 0
  faultAt : Option Nat := .none
  retrained : Bool := false
  returnedAt : Option Nat := .none
  /-- own nonce and ephemeral private key of the running handshake -/
  nonce : List Byte := []
  ephem : List Byte := []
  chans : Tab SChan := []
  deriving DecidableEq, Repr

/-- A BAR2 window (spec/17_gust_links_and_host.md R471). -/
structure Bar2Win where
  enable : Bool := false
  write : Bool := false
  part : Nat := 0
  base : Nat := 0
  deriving DecidableEq, Repr

/-- A drift-shelf port (spec/17_gust_links_and_host.md R474, R475). -/
structure CxlPort where
  up : Bool := false
  /-- capacity mapped, in units of 256 MiB -/
  cap : Nat := 0
  /-- Severe Overload has halved the drift engine's rate -/
  halved : Bool := false
  poisons : Nat := 0
  timeouts : Nat := 0
  late : Nat := 0
  /-- quarantined (tag, time) -/
  quar : List (Nat × Nat) := []
  overloads : Nat := 0
  deriving DecidableEq, Repr

/-- Gust links, host and drift-shelf ports (spec/17_gust_links_and_host.md). -/
structure Links where
  /-- 12 ports; 17_gust_links_and_host R449 to R467, R480; state, training, replay, credits, channels, GLK_ counters. Reset DOWN and clear (Table CP-6); counters DESIGN CHOICE 0 (log 1). -/
  ports : Tab GPort := []
  /-- 1; 17_gust_links_and_host R469; the host link is up. Reset 0. -/
  hostUp : Bool := false
  /-- 1; 17_gust_links_and_host R469; the host port trains. Reset 0. -/
  hostTrain : Bool := false
  /-- 1; 17_gust_links_and_host R470; Bus Master Enable. Reset DESIGN CHOICE 0 (log 1). -/
  bme : Bool := false
  /-- 1; 17_gust_links_and_host R470; the function is in D0. Reset DESIGN CHOICE 1 (log 1). -/
  d0 : Bool := true
  /-- 4; 17_gust_links_and_host Table GL-12; completion timeout value of Device Control 2. Reset DESIGN CHOICE 0 (log 1). -/
  cplTimeout : Fin 16 := 0
  /-- (tag, time) list; 17_gust_links_and_host R477; host tags in quarantine. Reset empty (R478). -/
  hostQuar : List (Nat × Nat) := []
  /-- count; 17_gust_links_and_host R480; GLK_HOST_LATE. Reset DESIGN CHOICE 0 (log 1). -/
  hostLate : Nat := 0
  /-- count; 17_gust_links_and_host R478; Unexpected Completions reported under AER. Reset DESIGN CHOICE 0 (log 1). -/
  unexpected : Nat := 0
  /-- count; 17_gust_links_and_host R480; GLK_BAR2_DENY. Reset DESIGN CHOICE 0 (log 1). -/
  bar2Deny : Nat := 0
  /-- 16 windows; 17_gust_links_and_host R471; BAR2 windows. Reset DESIGN CHOICE disabled (log 1). -/
  bar2 : Tab Bar2Win := []
  /-- 2,048 x 16 bytes; 17_gust_links_and_host R472; MSI-X table, by word. Reset DESIGN CHOICE 0 (log 1). -/
  msixTable : Tab Word := []
  /-- list; 17_gust_links_and_host R470, R472; vectors pending in the PBA, oldest first. Reset empty. -/
  pba : List Nat := []
  /-- 2 ports; 17_gust_links_and_host R474, R475; CXL0 and CXL1. Reset not up (R475: trained in PH_TRAIN). -/
  cxl : Tab CxlPort := []
  deriving DecidableEq, Repr

/-- The whole machine. -/
structure State where
  aon : Aon := {}
  pins : Pins := {}
  pmx : Pmx := {}
  clk : Clk := {}
  pwr : Pwr := {}
  start : Start := {}
  store : Store := {}
  mbx : Mbxs := {}
  log : Log := {}
  units : Units := {}
  therm : Therm := {}
  prot : Prot := {}
  vane : Vane := {}
  net : Net := {}
  coll : Coll := {}
  lull : Lull := {}
  bond : Bond := {}
  mem : Mem := {}
  mmu : Mmu := {}
  dma : Dma := {}
  serve : Serve := {}
  sealed : Sealed := {}
  link : Links := {}
  out : Out := {}
  /-- the model's own counter of free values taken (log 6); not a register of Daxmet -/
  freeCtr : Nat := 0
  /-- the commands that wait, first in, first out -/
  pending : List Instr := []
  deriving DecidableEq, Repr

/-- Why a step stops with a fault. No command of Daxmet does: the type is empty. -/
inductive Fault
  deriving DecidableEq, Repr

/-- Why a command has no meaning. -/
inductive Refusal
  /-- raised by an arm of exec whose command has no meaning yet; safe, since the machine does not go on -/
  | notModelled (mnemonic : String)
  deriving DecidableEq, Repr

/-- R489: HALT is latched. -/
def State.haltLatched (s : State) : Bool := s.therm.halt
/-- R492: some sensor that is not faulted asserts COLD. -/
def State.coldSensor (s : State) : Bool := (s.therm.cold &&& ~~~ s.therm.faulted) != 0

/-- The machine right after reset: a cold start in its first step. -/
def State.reset : State := {}

end Sys2Proof.Machine
end

