-- ==== Sys2Proof/Machine/Operands.lean ====
section
/-!
DEFINITION. The operand forms of Daxmet: the fields of a mailbox command and the catalogue of opcodes, the blocks of BAR0,
and the places of units on the mesh.
-/
namespace Sys2Proof.Machine

/-! ## The fields of a command (spec/06_windsock_mailbox.md R151, Table WM-6) -/

/-- Word `i` of the command, as it stood when its doorbell was acknowledged QUEUED (R156). -/
def Mbx.word (m : Mbx) (i : Nat) : Word := Tab.get 0 m.taken i
/-- OPCODE, bytes 0 to 1, with the EXP bit. -/
def Mbx.opcode (m : Mbx) : Nat := (m.word 0).toNat % 65536
/-- SEQ, bytes 2 to 3. -/
def Mbx.seqNo (m : Mbx) : Nat := (m.word 0).toNat / 65536
/-- FLAGS, byte 4. -/
def Mbx.flags (m : Mbx) : Nat := (m.word 1).toNat % 256
/-- DATA_LEN, bytes 8 to 11. -/
def Mbx.dataLen (m : Mbx) : Nat := (m.word 2).toNat
/-- HOST_ADDR, bytes 16 to 23. -/
def Mbx.hostAddr (m : Mbx) : Nat := (m.word 4).toNat + 2 ^ 32 * (m.word 5).toNat
/-- ARGi as a number. -/
def Mbx.arg (m : Mbx) (i : Nat) : Nat := (m.word (6 + i)).toNat
/-- ARGi and ARG(i+1) as one 64-bit number. -/
def Mbx.arg64 (m : Mbx) (i : Nat) : Nat := m.arg i + 2 ^ 32 * m.arg (i + 1)
/-- The expert form is asked for (OPCODE bit 15). -/
def Mbx.exp (m : Mbx) : Bool := m.opcode / 32768 = 1
/-- IN_INLINE. -/
def Mbx.inInline (m : Mbx) : Bool := m.flags % 2 = 1
/-- IN_HOST. -/
def Mbx.inHost (m : Mbx) : Bool := m.flags / 2 % 2 = 1
/-- OUT_HOST. -/
def Mbx.outHost (m : Mbx) : Bool := m.flags / 4 % 2 = 1
/-- NO_IRQ. -/
def Mbx.noIrq (m : Mbx) : Bool := m.flags / 8 % 2 = 1
/-- The first `n` bytes of DATA. -/
def Mbx.dataBytes (m : Mbx) (n : Nat) : List Byte := (List.range n).map fun i => Tab.get 0 m.data i

/-! ## The catalogue (spec/06_windsock_mailbox.md R167, Table WM-11) -/

/-- Doldrums scope of an opcode: in the subset, in it for some settings only, or outside. -/
inductive DScope | d | some | none
  deriving DecidableEq, Repr

/-- One opcode: its class, its limit in ms, whether the expert form exists, its doldrums scope, and how many argument
words its basic and its expert form define (R151). -/
structure OpRow where
  op : Nat
  cls : DClass
  limit : Nat
  exp : Bool
  scope : DScope
  args : Nat
  xargs : Nat
  deriving DecidableEq, Repr

/-- Area 0x01: start and status. -/
def catalogue1 : List OpRow := [
  ⟨0x0101, .q, 1, true, .d, 0, 0⟩, ⟨0x0102, .s, 50, true, .d, 0, 0⟩, ⟨0x0103, .q, 1, true, .d, 0, 0⟩,
  ⟨0x0104, .l, 2000, true, .d, 1, 2⟩, ⟨0x0105, .s, 50, false, .d, 1, 1⟩, ⟨0x0106, .q, 1, false, .none, 10, 10⟩,
  ⟨0x0107, .q, 1, false, .none, 0, 0⟩]
/-- Area 0x02: protection. -/
def catalogue2 : List OpRow := [
  ⟨0x0201, .q, 1, false, .some, 0, 0⟩, ⟨0x0202, .s, 50, false, .some, 0, 0⟩, ⟨0x0203, .q, 1, false, .none, 1, 1⟩,
  ⟨0x0204, .q, 1, false, .none, 0, 0⟩, ⟨0x0205, .s, 50, false, .d, 0, 0⟩, ⟨0x0206, .q, 1, false, .d, 1, 1⟩,
  ⟨0x0207, .q, 1, false, .none, 0, 0⟩]
/-- Area 0x03: networks and collectives. -/
def catalogue3 : List OpRow := [
  ⟨0x0301, .q, 1, true, .none, 0, 0⟩, ⟨0x0302, .l, 1000, true, .none, 3, 4⟩, ⟨0x0303, .l, 100, true, .none, 0, 2⟩,
  ⟨0x0304, .s, 50, true, .none, 3, 3⟩, ⟨0x0305, .s, 50, true, .none, 4, 6⟩, ⟨0x0306, .s, 50, false, .none, 1, 1⟩,
  ⟨0x0307, .s, 50, true, .none, 8, 9⟩]
/-- Area 0x04: memory, translation and DMA. -/
def catalogue4 : List OpRow := [
  ⟨0x0401, .q, 1, true, .none, 0, 0⟩, ⟨0x0402, .s, 50, true, .none, 4, 0⟩, ⟨0x0403, .s, 50, true, .none, 1, 2⟩,
  ⟨0x0404, .s, 50, false, .none, 1, 1⟩, ⟨0x0405, .l, 10000, true, .none, 1, 3⟩, ⟨0x0406, .s, 50, true, .none, 0, 7⟩,
  ⟨0x0407, .q, 1, true, .none, 1, 1⟩, ⟨0x0408, .q, 1, true, .none, 1, 1⟩]
/-- Area 0x05: serving. -/
def catalogue5 : List OpRow := [
  ⟨0x0501, .q, 1, true, .none, 10, 10⟩, ⟨0x0502, .s, 50, true, .none, 10, 10⟩, ⟨0x0503, .l, 1000, true, .none, 10, 10⟩,
  ⟨0x0504, .s, 50, false, .none, 10, 10⟩, ⟨0x0505, .s, 50, true, .none, 10, 10⟩, ⟨0x0506, .l, 5000, true, .none, 3, 4⟩,
  ⟨0x0507, .q, 1, true, .none, 10, 10⟩, ⟨0x0508, .l, 1000, true, .none, 10, 10⟩]
/-- Area 0x06: sealed arithmetic and Crosswind. -/
def catalogue6 : List OpRow := [
  ⟨0x0601, .q, 1, true, .none, 0, 1⟩, ⟨0x0602, .s, 50, true, .none, 10, 10⟩, ⟨0x0603, .l, 1000, true, .none, 7, 8⟩,
  ⟨0x0604, .s, 50, false, .none, 2, 2⟩, ⟨0x0605, .s, 50, false, .none, 1, 1⟩, ⟨0x0606, .s, 50, false, .none, 0, 0⟩,
  ⟨0x0607, .l, 5000, true, .none, 10, 10⟩]
/-- Area 0x07: Gust and host links. -/
def catalogue7 : List OpRow := [
  ⟨0x0701, .q, 1, true, .none, 1, 1⟩, ⟨0x0702, .l, 1000, true, .none, 1, 2⟩, ⟨0x0703, .l, 100, false, .none, 2, 2⟩,
  ⟨0x0704, .s, 50, true, .none, 1, 2⟩, ⟨0x0705, .q, 1, true, .none, 1, 1⟩, ⟨0x0706, .s, 50, true, .none, 5, 6⟩]
/-- Areas 0x08 to 0x0B: Vane, thermal, pins, board and power, faults and log. -/
def catalogue8 : List OpRow := [
  ⟨0x0801, .q, 1, true, .none, 0, 0⟩, ⟨0x0802, .l, 60000, true, .none, 0, 1⟩, ⟨0x0803, .s, 50, true, .none, 0, 0⟩,
  ⟨0x0901, .q, 1, true, .d, 0, 2⟩, ⟨0x0902, .q, 1, false, .none, 0, 0⟩,
  ⟨0x0A01, .q, 1, false, .d, 1, 1⟩, ⟨0x0A02, .s, 50, true, .some, 2, 3⟩, ⟨0x0A03, .s, 50, false, .d, 2, 2⟩,
  ⟨0x0A20, .q, 1, true, .d, 0, 0⟩, ⟨0x0A21, .s, 50, true, .none, 5, 6⟩, ⟨0x0A22, .q, 1, true, .none, 0, 4⟩,
  ⟨0x0A23, .s, 50, true, .none, 1, 2⟩,
  ⟨0x0B01, .q, 1, true, .d, 4, 6⟩, ⟨0x0B02, .q, 1, true, .d, 0, 0⟩, ⟨0x0B03, .q, 1, true, .none, 2, 2⟩,
  ⟨0x0B04, .l, 1000, true, .none, 2, 3⟩, ⟨0x0B05, .s, 50, true, .none, 2, 2⟩]

/-- Exactly the opcodes that interface version 3.2 implements. -/
def catalogue : List OpRow :=
  catalogue1 ++ catalogue2 ++ catalogue3 ++ catalogue4 ++ catalogue5 ++ catalogue6 ++ catalogue7 ++ catalogue8

/-- The catalogue row of an opcode without its EXP bit. -/
def findOp (op : Nat) : Option OpRow := catalogue.find? fun r => r.op = op % 32768

/-- The class of service of a command: TILE_BUDGET is S in its expert form; an opcode outside the catalogue is served with
class Q (DESIGN CHOICE, log 7). -/
def classOf (opcode : Nat) : DClass :=
  if opcode = 0x8A22 then .s else (findOp opcode).elim .q OpRow.cls

/-! ## The blocks of BAR0 (spec/00_scope.md R10, Table SC-5; spec/06_windsock_mailbox.md R141, R154) -/

/-- The blocks of BAR0. -/
inductive Block | aon | mbx | dbl | eccw | pmx | ths | glk | evl | reserved
  deriving DecidableEq, Repr

/-- The block an offset of BAR0 lies in (Table SC-5). Offsets of 0x300000 to 0x3FFFFF outside the four named sub-ranges are reserved
(DEDUCED, log 155). -/
def blockOf (off : Nat) : Block :=
  if off < 0x100000 then .aon
  else if off < 0x110000 then .mbx
  else if off < 0x200000 then .reserved
  else if off < 0x300000 then .dbl
  else if off < 0x301000 then .eccw
  else if off < 0x310000 then .reserved
  else if off < 0x311000 then .pmx
  else if off < 0x320000 then .reserved
  else if off < 0x321000 then .ths
  else if off < 0x330000 then .reserved
  else if off < 0x331000 then .glk
  else if off < 0x400000 then .reserved
  else if off < 0x500000 then .evl
  else .reserved

/-! ## Places on the mesh (spec/01_stack_and_tray.md R21 to R28) -/

/-- Node ID of (x, y). -/
def nodeAt (x y : Nat) : Nat := y * 16 + x
/-- x of a node. -/
def nodeX (n : Nat) : Nat := n % 16
/-- y of a node. -/
def nodeY (n : Nat) : Nat := n / 16 % 8
/-- The tile above a node (Table ST-2). -/
def tileOf (n : Nat) : Nat := (if nodeX n < 8 then 0 else 1) + (if nodeY n < 4 then 0 else 2)
/-- R23: the cluster ID of the cluster at local position (u, v) of a tile whose orientation code is `orient`. -/
def clusterAt (orient u v : Nat) : Nat :=
  nodeAt (if orient % 2 = 1 then 15 - u else u) (if orient / 2 % 2 = 1 then 7 - v else v)
/-- The clusters of a tile as a mask. -/
def tileMask (t : Nat) : BitVec 128 :=
  (List.range 128).foldl (fun m c => if tileOf c = t then m ||| BitVec.ofNat 128 (2 ^ c) else m) 0
/-- R25: the nodes of memory controller `n`. -/
def mcNodes (n : Nat) : List Nat :=
  if n < 8 then [nodeAt (2 * n) 7, nodeAt (2 * n + 1) 7] else [nodeAt (2 * (n - 8)) 0, nodeAt (2 * (n - 8) + 1) 0]
/-- R26: the node of Gust port `k`. -/
def gustNode (k : Nat) : Nat := if k < 6 then nodeAt 0 (k + 1) else nodeAt 15 (k - 5)
/-- R27: the node of gateway `g`. -/
def gatewayNode (g : Nat) : Nat := nodeAt (([2, 5, 10, 13] : List Nat).getD (g % 4) 0) (if g < 4 then 0 else 7)
/-- R28: the node of Vane port `p`. -/
def vaneNode (p : Nat) : Nat := ([nodeAt 7 3, nodeAt 8 3, nodeAt 7 4, nodeAt 8 4] : List Nat).getD p 0
/-- R32: the port that slot `s` uses to reach slot `t`. -/
def meshPort (s t : Nat) : Nat := (t + 8 - s - 1) % 8
/-- R32: the slot that port `k` (0 to 6) of slot `s` reaches. -/
def meshPeer (s k : Nat) : Nat := (s + k + 1) % 8

/-! ## Rails (spec/03_clocks_resets_power.md R72, Table CP-7) -/

/-- The key of a rail: VPM × 4 + channel (also its UNIT instance, Table FR-1). -/
def railKey (vpm chan : Nat) : Nat := vpm * 4 + chan
/-- The commanded channels of a VPM. -/
def channelsOf (vpm : Nat) : List Nat :=
  if vpm = 8 then [0, 1] else if 2 ≤ vpm ∧ vpm ≤ 5 then [0] else [0, 1, 2]
/-- The nominal setpoint of a rail in mV. -/
def nominalMv (vpm chan : Nat) : Nat :=
  match vpm, chan with
  | 0, 0 => 800 | 0, 1 => 1800 | 0, 2 => 1200
  | 1, 0 => 750 | 1, 1 => 850 | 1, 2 => 800
  | 8, 0 => 900 | 8, 1 => 1200
  | 6, 0 => 1800 | 6, 1 => 1050 | 6, 2 => 750
  | 7, 0 => 1800 | 7, 1 => 1050 | 7, 2 => 750
  | _, _ => 750
/-- R73: the limit in 0.1 A of a rail with a share in W at a setpoint in mV, rounded down. -/
def ilimFor (watts mv : Nat) : Nat := watts * 10000 / mv
/-- Every channel of VPM0 to VPM8, module by module. -/
def allChannels : List (Nat × Nat) := (List.range 9).flatMap fun v => (channelsOf v).map fun c => (v, c)

end Sys2Proof.Machine
end

