-- ==== Sys2Proof/Machine/Flags.lean ====
section
/-!
DEFINITION. The status words that Daxmet computes from its state: the always-on registers, the pin multiplexer's registers,
pause levels; and the check codes of its buses and links.
-/
namespace Sys2Proof.Machine

/-- A word from fields, each a value and its lowest bit. -/
def packFields (l : List (Nat × Nat)) : Word := BitVec.ofNat 32 (l.foldl (fun a p => a + p.1 * 2 ^ p.2) 0)

/-! ## Pause levels (spec/03_clocks_resets_power.md R86 to R89, spec/18_thermal.md R488) -/

/-- The governor's level of a budget share: keys 0 to 3 are the tiles, higher keys the base-die and HBM rails. -/
def State.govMax (s : State) : Nat := s.pwr.govLevel.foldl (fun m e => max m e.2) 0
/-- The highest droop level: 4 while a tile stage runs, the rail level. -/
def State.droopMax (s : State) : Nat := max (if s.pwr.droopTile = 0 then 0 else 4) s.pwr.droopRail
/-- The thermal level of one target. -/
def State.thermLevel (s : State) (t : Fin 6) : Nat := s.therm.targets[t].level.val
/-- The highest thermal level. -/
def State.thermMax (s : State) : Nat :=
  max (max (max (s.thermLevel 0) (s.thermLevel 1)) (max (s.thermLevel 2) (s.thermLevel 3))) (max (s.thermLevel 4) (s.thermLevel 5))
/-- R87: the highest level in force on the package. -/
def State.pauseMax (s : State) : Nat := max s.govMax (max s.droopMax s.thermMax)
/-- The governor's level of a share. -/
def State.gov (s : State) (k : Nat) : Nat := Tab.get 0 s.pwr.govLevel k
/-- The governor's stack-wide level: from the base-die and HBM shares (R88). -/
def State.govStack (s : State) : Nat := s.pwr.govLevel.foldl (fun m e => if e.1 < 4 then m else max m e.2) 0
/-- R87: the level at which the clusters of tile `q` run: the highest of every source for that tile and for the stack. -/
def State.tileLevel (s : State) (q : Fin 4) : Nat :=
  max (max (s.gov q.val) s.govStack)
    (max (max (if s.pwr.droopTile.getLsbD q.val then 4 else 0) s.pwr.droopRail)
      (max (s.thermLevel (q.castLE (by decide))) (s.thermLevel 5)))

/-- The level that every source asks of the whole stack. -/
def State.stackLevel (s : State) : Nat := max (max s.govStack s.pwr.droopRail) (s.thermLevel 5)
/-- The level of the draft engine, before windows: the sources for the whole stack (DEDUCED, log 142). -/
def State.draftLevel (s : State) : Nat := s.stackLevel
/-- The level of the MEE groups, before windows. -/
def State.meeLevel (s : State) : Nat := max s.stackLevel (s.thermLevel 4)
/-- The level that the sources ask of a unit of a static window: clusters by their tile, MEE groups; other units are never paused (R86). -/
def State.askedLevel (s : State) (u : Nat × Nat) : Nat :=
  if u.1 = 0x01 then s.tileLevel ⟨tileOf u.2 % 4, Nat.mod_lt _ (by decide)⟩ else if u.1 = 0x06 then s.meeLevel else 0
/-- The units that take part in the static window `w` of the current schedule image. -/
def State.windowUnits (s : State) (w : Nat) : List (Nat × Nat) :=
  s.net.image.elim [] fun i => (i.streams.filter fun x => x.window = w).flatMap SchedStream.units
/-- R87: one round of levelling: each active window takes the highest level of the windows that share a participant with it. -/
def levelRound (s : State) (l : List (Nat × Nat)) : List (Nat × Nat) :=
  l.map fun e => (e.1, l.foldl (fun m f => if (s.windowUnits f.1).any fun u => u ∈ s.windowUnits e.1 then max m f.2 else m) e.2)
/-- R87: the level of each active static window: every participant, and the schedule wheel of every link, stalls at it. -/
def State.windowLevels (s : State) : List (Nat × Nat) :=
  let l := s.net.windows.map fun w => (w.idx, (s.windowUnits w.idx).foldl (fun m u => max m (s.askedLevel u)) 0)
  (List.range l.length).foldl (fun m _ => levelRound s m) l
/-- R87: the level at which a cluster or MEE group runs. -/
def State.unitLevel (s : State) (ut inst : Nat) : Nat :=
  s.windowLevels.foldl (fun m e => if (ut, inst) ∈ s.windowUnits e.1 then max m e.2 else m) (s.askedLevel (ut, inst))
/-- R87: the level at which the schedule wheels of the links stall. -/
def State.wheelLevel (s : State) : Nat := s.windowLevels.foldl (fun m e => max m e.2) 0

/-- R277: PAUSE toward a cluster is high: in its droop stage, and for 125 ns of every 1 µs for each level (R86; the phase is log 171). -/
def State.pauseHigh (s : State) (c : Nat) : Bool :=
  s.pwr.droopPause.getLsbD c || s.aon.timeNs.toNat % 1000 < 125 * s.unitLevel 0x01 c

/-! ## Always-on registers -/

/-- AON_STATUS (spec/00_scope.md R3). -/
def aonStatus (s : State) : Word := packFields [(b2n s.aon.expDeny, 0), (b2n s.aon.rsvdAcc, 1), (b2n s.aon.offlineAcc, 2)]
/-- Bit `i` of the boundary register. -/
def State.boundaryBit (s : State) (i : Nat) : Bool := s.pins.boundary / 2 ^ i % 2 = 1
/-- This package pulls TRAY_DONE low: by its own logic, or by the boundary register under EXTEST (spec/02_board_and_pins.md R45, R49). -/
def State.pullsDone (s : State) : Bool := if s.pins.extest then !s.boundaryBit 24 else s.pins.doneDrv
/-- This package pulls CFG_ERR_N low (R46, R49). -/
def State.pullsErr (s : State) : Bool := if s.pins.extest then !s.boundaryBit 25 else s.pins.errDrv
/-- The level of CXL0_PERST_N or CXL1_PERST_N (R49). -/
def State.cxlPerst (s : State) (n : Nat) : Bool :=
  if s.pins.extest then s.boundaryBit (26 + n) else if n = 0 then s.pins.cxl0Perst else s.pins.cxl1Perst
/-- The level of TRAY_DONE: a wired AND of the slots (spec/02_board_and_pins.md R45). -/
def State.doneLvl (s : State) : Bool := s.pins.doneOthers && !s.pullsDone
/-- The level of CFG_ERR_N (spec/02_board_and_pins.md R46). -/
def State.errLvl (s : State) : Bool := s.pins.errOthers && !s.pullsErr
/-- AON_BOARD (spec/02_board_and_pins.md R51). -/
def aonBoard (s : State) : Word :=
  packFields [(s.aon.slot.val, 0), (b2n s.doneLvl, 4), (b2n s.errLvl, 5), (b2n s.pullsDone, 6), (b2n s.pullsErr, 7),
    (s.aon.trayId % 4096, 16)]
/-- AON_CLKSTAT (spec/03_clocks_resets_power.md R65). -/
def aonClkstat (s : State) : Word :=
  packFields [(b2n s.clk.xtalOk, 0), (b2n s.clk.backup, 1), (b2n s.clk.wclk, 2), (b2n s.clk.mclk, 3), (b2n s.clk.pclk, 4),
    (b2n s.clk.sclk, 5), (s.clk.hclk.toNat, 8), (s.clk.gclk.toNat, 16), (s.clk.tclk.toNat, 28)]
/-- OWNER of AON_PWR. -/
def SeqOwner.code : SeqOwner → Nat
  | .warden => 1 | .windsock => 2
/-- AON_PWR (spec/03_clocks_resets_power.md R92); PAUSE_SRC names every source that requests a level above 0 (DEDUCED, log 10). -/
def aonPwr (s : State) : Word :=
  packFields [(s.pwr.step % 16, 0), (s.aon.owner.code, 4), (s.pauseMax % 8, 8), (b2n (s.govMax ≠ 0), 12), (b2n (s.droopMax ≠ 0), 13),
    (b2n (s.thermMax ≠ 0), 14), (b2n s.pins.pcmdAlert, 16), (b2n s.aon.budgetHit, 17)]
/-- AON_RSTCAUSE (spec/03_clocks_resets_power.md R71). -/
def aonRstcause (s : State) : Word := packFields [(s.aon.cause.toNat, 0), (s.aon.resets % 256, 8)]
/-- STATE of AON_START. -/
def StartSt.code : StartSt → Nat
  | .running => 0 | .hold => 1 | .failed => 2
/-- AON_START.PHASE. -/
def Phase.code : Phase → Nat
  | .power => 0 | .fuse => 1 | .boot => 2 | .auth => 3 | .train => 4 | .vane => 5 | .join => 6 | .serve => 7
  | .doldrums => 13 | .excluded => 14
/-- AON_START (spec/04_start_and_doldrums.md R96). -/
def aonStart (s : State) : Word :=
  packFields [(s.aon.phase.code, 0), (s.aon.startSt.code, 4), (s.aon.failCnt % 4, 8), (b2n s.aon.cntVolatile, 10),
    (b2n s.aon.excluded, 11), (b2n s.aon.fwSlot, 12), (b2n s.aon.wskDown, 13), (s.aon.reason % 256, 16), (s.aon.roster.toNat, 24)]
/-- AON_WSK (spec/06_windsock_mailbox.md Table WM-3); a core that the TAP has halted does not run (R185). -/
def aonWsk (s : State) : Word :=
  packFields [(b2n s.aon.ready, 0), (b2n s.aon.monitor, 1), (b2n s.aon.wdog, 2), (b2n s.aon.takeover, 3), (if s.pins.coreHalt then 0 else s.aon.cores.toNat, 4),
    (s.aon.fwHb.toNat, 16)]
/-- Whole seconds from now to a deadline. -/
def secondsLeft (now : Nat) (d : Option Nat) : Nat := d.elim 0 fun t => (t - now) / 1000000000
/-- AON_GRANT (spec/06_windsock_mailbox.md Table WM-3): REMAIN counts to the later of the two lapses (DEDUCED, log 11). -/
def aonGrant (s : State) : Word :=
  let now := s.aon.timeNs.toNat
  packFields [(b2n s.aon.grantHost.isSome, 0), (b2n s.aon.grantOob.isSome, 1),
    (min 0xFFFFFF (max (secondsLeft now s.aon.grantHost) (secondsLeft now s.aon.grantOob)), 8)]
/-- The two bits of a mailbox in AON_MBXSUM. -/
def MbxSt.sum : MbxSt → Nat
  | .free => 0 | .idle => 1 | .queued | .running | .accepted | .late => 2 | .reclaiming => 3
/-- AON_MBXSUM (spec/06_windsock_mailbox.md Table WM-3). -/
def aonMbxsum (s : State) : Word := packFields ((List.range 16).map fun n => ((Tab.get {} s.mbx.box n).st.sum, 2 * n))
/-- DBL_ACKSUM (spec/06_windsock_mailbox.md R154). -/
def dblAcksum (s : State) : Word := packFields ((List.range 16).map fun n => ((Tab.get {} s.mbx.box n).ack.val, 2 * n))
/-- STATE of MBX_STATE (Table WM-5). -/
def MbxSt.code : MbxSt → Nat
  | .free => 0 | .idle => 1 | .queued => 2 | .running => 3 | .accepted => 4 | .reclaiming => 5 | .late => 6
/-- Whole milliseconds left on a lease. -/
def leaseLeft (now : Nat) (m : Mbx) : Nat := if m.st = .free ∨ m.st = .reclaiming then 0 else (m.renewed + 500000000 - now) / 1000000
/-- MBX_STATE (spec/06_windsock_mailbox.md Table WM-4). -/
def mbxState (s : State) (m : Mbx) : Word :=
  packFields [(m.st.code, 0), (m.ack.val, 4), (leaseLeft s.aon.timeNs.toNat m, 16)]

/-- R505: SEQ value `q` lies after acknowledgement `ack`, counted back from the newest record. -/
def seqAfter (newest q ack : Nat) : Bool := (newest + 65536 - q) % 65536 < (newest + 65536 - ack) % 65536
/-- SEQ of the newest record. -/
def Log.newest (l : Log) : Nat := (l.seq - 1).toNat
/-- A class that vector 222 and PKG_ALERT_N concern: UE, FATAL and SEC. -/
def Cls.urgent : Cls → Bool
  | .ue | .fatal | .sec => true
  | .info | .ce => false
/-- R505: the ring holds a UE, FATAL or SEC record after an acknowledgement. -/
def Log.pendingAfter (l : Log) (ack : Nat) : Bool := l.ring.any fun e => e.2.cls.urgent && seqAfter l.newest e.2.seq ack
/-- PKG_ALERT_N is held low (R505). -/
def pkgAlert (s : State) : Bool := s.log.pendingAfter s.log.trayAck
/-- TH_WARN_N is low: some sensor that is not faulted asserts WARN (spec/18_thermal.md R487). -/
def thWarn (s : State) : Bool := (s.therm.warn &&& ~~~ s.therm.faulted) != 0

/-! ## Blocks that do not answer (R12) -/

/-- The blocks off the always-on island hold no answer: in doldrums mode, during HALT shutdown, and until the rail sequence has ended
(spec/03_clocks_resets_power.md Table CP-6). -/
def State.mainDown (s : State) : Bool := s.aon.phase = .doldrums || (s.therm.halt || s.pwr.step ≠ 15)
/-- A block of BAR0 is held in reset or absent: ECCW_ and GLK_ with the die's main logic; THS_ in doldrums mode and during HALT shutdown
(spec/18_thermal.md R486). -/
def State.blockDown (s : State) : Block → Bool
  | .eccw | .glk => s.mainDown
  | .ths => s.aon.phase = .doldrums || s.therm.halt
  | .aon | .mbx | .dbl | .pmx | .evl | .reserved => false
/-- R7: note a write of an exp field without the EXPERT grant. -/
def noteDeny (s : State) : State := { s with aon := { s.aon with expDeny := true } }
/-- R10: note an access to a reserved address. -/
def noteReserved (s : State) : State := { s with aon := { s.aon with rsvdAcc := true } }
/-- R12: note an access to a block that is held in reset or absent. -/
def noteOffline (s : State) : State := { s with aon := { s.aon with offlineAcc := true } }

/-! ## Pin multiplexer registers (spec/02_board_and_pins.md R57) -/

/-! ## The function signals (spec/02_board_and_pins.md R53, R54, R56, Tables BP-4 and BP-5) -/

/-- A peripheral signal of the pin multiplexer. -/
inductive PinSig
  | smbClk | smbDat | smbAlert | u0Txd | u0Rxd | u0Rts | u0Cts | u1Txd | u1Rxd | pkgAlert | thHalt | thWarn
  | trcClk | trcD (i : Nat) | stepMon | ledAct | ledFlt | spiSck | spiMosi | spiMiso | spiCs
  deriving DecidableEq, Repr

/-- What code 1 of a pin carries. -/
def sigOne : Nat → Option PinSig
  | 0 => some .smbClk | 1 => some .smbDat | 2 => some .smbAlert | 3 => some .u0Txd | 4 => some .u0Rxd
  | 5 => some .pkgAlert | 6 => some .thHalt | 7 => some .thWarn | 8 => some .u0Rts | 9 => some .u0Cts
  | 10 => some .u1Txd | 11 => some .u1Rxd | 12 => some .trcClk | 13 => some (.trcD 0) | 14 => some (.trcD 1)
  | 15 => some (.trcD 2) | 16 => some (.trcD 3) | 17 => some .stepMon | 18 => some .spiSck | 19 => some .spiMosi
  | 20 => some .spiMiso | 21 => some .spiCs | 22 => some .ledAct | 23 => some .ledFlt | _ => none
/-- What code 2 of a pin carries; a dash is none. -/
def sigTwo : Nat → Option PinSig
  | 0 => some .spiSck | 1 => some .spiMosi | 2 => some .spiMiso | 3 => some .spiCs | 8 => some .u1Txd | 9 => some .u1Rxd
  | 18 => some .smbClk | 19 => some .smbDat | 20 => some .smbAlert | 21 => some .pkgAlert | _ => none

/-- The signal of a function code on a pin; code 0 is the pin's own GPIO. -/
def pinSig (pin : Nat) (f : Fin 4) : Option PinSig :=
  match f with
  | 1 => sigOne pin | 2 => sigTwo pin | _ => none

/-- R56: the peripherals that doldrums mode holds in reset; R185: TRC stays in reset until debug level 1 (DEDUCED, log 12). -/
def sigHeld (s : State) : PinSig → Bool
  | .trcClk | .trcD _ => s.aon.phase = .doldrums || s.prot.debugLevel = 0
  | .stepMon | .spiSck | .spiMosi | .spiMiso | .spiCs => s.aon.phase = .doldrums
  | _ => false

/-- The drive types of Table BP-5. -/
inductive PinDrive | openDrain | pushPull | input
  deriving DecidableEq, Repr
/-- The drive type of a function signal. -/
def PinSig.drive : PinSig → PinDrive
  | .smbClk | .smbDat | .smbAlert | .pkgAlert | .thHalt | .thWarn | .ledAct | .ledFlt => .openDrain
  | .u0Txd | .u1Txd | .u0Rts | .spiSck | .spiMosi | .spiCs | .trcClk | .trcD _ | .stepMon => .pushPull
  | .u0Rxd | .u1Rxd | .u0Cts | .spiMiso => .input
/-- The idle level given to the old peripheral; none for a signal that is output only. -/
def PinSig.idleIn : PinSig → Option Bool
  | .smbClk | .smbDat | .u0Rxd | .u1Rxd | .u0Cts => some true
  | .spiMiso => some false
  | _ => none
/-- The idle level that a push-pull output drives first (Table BP-8): that of its board resistor (DEDUCED, log 140). -/
def PinSig.idleOut : PinSig → Bool
  | .spiSck | .spiMosi | .trcClk | .trcD _ | .stepMon => false
  | _ => true
/-- A number for a signal, for the free level of its peripheral. -/
def PinSig.code : PinSig → Nat
  | .smbClk => 0 | .smbDat => 1 | .smbAlert => 2 | .u0Txd => 3 | .u0Rxd => 4 | .u0Rts => 5 | .u0Cts => 6 | .u1Txd => 7 | .u1Rxd => 8
  | .pkgAlert => 9 | .thHalt => 10 | .thWarn => 11 | .trcClk => 12 | .trcD i => 13 + i | .stepMon => 17 | .ledAct => 18 | .ledFlt => 19
  | .spiSck => 20 | .spiMosi => 21 | .spiMiso => 22 | .spiCs => 23

/-- The level that a function gives its output: an alert is low while it is asserted, a released SMBus line is high, STEP_MON is low
between its pulses of 8 ns; a UART, SPI, trace or LED output starts at its idle level at t_end (Table BP-8), and what its peripheral
then sends is free (log 140). -/
def sigLevel (s : State) (p : PmxPin) (g : PinSig) : Bool :=
  match g with
  | .smbAlert => !s.pins.smbAlert
  | .pkgAlert => !pkgAlert s
  | .thHalt => !s.therm.halt
  | .thWarn => !thWarn s
  | .smbClk | .smbDat => true
  | .stepMon => false
  | _ => if p.endAt = some s.aon.timeNs.toNat then g.idleOut else Config.lineLevel g.code s.aon.timeNs.toNat
/-- The live pad level of a pin: the level that the tray gives it, unless a driver of Daxmet is on. In a park window, and with a function
that is held in reset, none is (R56, R58). Under EXTEST the boundary register drives it (R49). -/
def padLevel (s : State) (n : Fin 24) : Bool :=
  let p := s.pmx.pins[n]
  let rest := s.pmx.pads.getLsbD n.val
  if s.pins.extest then s.boundaryBit n.val
  else if p.park then rest
  else match pinSig n.val p.cur with
    | none => if p.cur = 0 && p.oe then p.out else rest
    | some g =>
      if sigHeld s g then rest
      else match g.drive with
        | .openDrain => rest && sigLevel s p g
        | .pushPull => sigLevel s p g
        | .input => rest
/-- What a peripheral's input sees: the pad of the pin whose target function names the signal; otherwise its idle level (Tables BP-5 and
BP-8), so that an old peripheral sees it from t0 on. -/
def sigInput (s : State) (g : PinSig) : Bool :=
  match (List.finRange 24).find? fun q => pinSig q.val s.pmx.pins[q].func = some g with
  | some q => padLevel s q
  | none => g.idleIn.getD true
/-- PMX_PINn. -/
def pmxPin (s : State) (n : Fin 24) : Word :=
  let p := s.pmx.pins[n]
  packFields [(p.func.val, 0), (p.cur.val, 4), (b2n p.park, 8), (b2n p.oe, 12), (b2n p.out, 13), (b2n (padLevel s n), 16)]
/-- PMX_PARKMAP. -/
def pmxParkmap (s : State) : Word :=
  packFields ((List.range 24).map fun i => (b2n ((s.pmx.pins.toList.getD i {}).park), i))
/-- PMX_STATUS. -/
def pmxStatus (s : State) : Word :=
  packFields [(b2n s.pmx.refused, 0), (b2n s.pmx.conflict, 1), (b2n s.pmx.badFunc, 2), (s.pmx.lastPin.val, 8)]

/-! ## Event records -/

/-- The codes of Table SC-8. -/
def Cls.code : Cls → Nat
  | .info => 0 | .ce => 1 | .ue => 2 | .fatal => 3 | .sec => 4
/-- The codes of Table FR-2. -/
def Contain.code : Contain → Nat
  | .none => 0 | .operation => 1 | .unit => 2 | .partition => 3 | .package => 4
/-- R17, R499: the 32 bytes of a record. The places of the values in DETAIL bytes 0 to 14 are open (Config.detailByte), and so is what
of them debug level 0 shows (R185, Table TP-8; Config.detailLow). -/
def eventBytes (level : Nat) (r : Rec) : List Byte :=
  leBytes 8 r.ts ++ [BitVec.ofNat 8 r.cls.code, BitVec.ofNat 8 r.slot] ++ leBytes 2 r.code
    ++ [BitVec.ofNat 8 r.inst, BitVec.ofNat 8 r.ut] ++ leBytes 2 r.seq
    ++ (List.range 15).map (if level = 0 then Config.detailLow r.code r.detail else Config.detailByte r.code r.detail) ++ [BitVec.ofNat 8 r.contain.code]

/-! ## Check codes -/

/-- One bit of a reflected CRC with a 32-bit polynomial. -/
def crcBit (poly c : Nat) : Nat := if c % 2 = 1 then (c / 2) ^^^ poly else c / 2
/-- One byte of a reflected CRC. -/
def crcByte (poly c : Nat) (b : Byte) : Nat :=
  let x := c ^^^ b.toNat
  crcBit poly (crcBit poly (crcBit poly (crcBit poly (crcBit poly (crcBit poly (crcBit poly (crcBit poly x)))))))
/-- One bit of the CRC8 of the power command bus, x^8 + x^2 + x + 1, most significant bit first (spec/03_clocks_resets_power.md R78). -/
def crc8Bit (c : Nat) : Nat := if c / 128 % 2 = 1 then (2 * c % 256) ^^^ 7 else 2 * c % 256
/-- One byte of it. -/
def crc8Byte (c b : Nat) : Nat := crc8Bit (crc8Bit (crc8Bit (crc8Bit (crc8Bit (crc8Bit (crc8Bit (crc8Bit (c ^^^ b))))))))
/-- CRC8 of bytes in the order sent. -/
def crc8 (l : List Nat) : Nat := l.foldl crc8Byte 0
/-- CRC8 of a request, over ADDR, OP, CHAN, DATA and SEQ (Table CP-9). -/
def requestCrc (vpm op chan data seq : Nat) : Nat :=
  crc8 [vpm % 16 * 16 + op % 16, chan % 16 * 16 + data / 4096 % 16, data / 16 % 256, data % 16 * 16 + seq % 16]
/-- RCRC8 of a response, over RDATA. -/
def responseCrc (rdata : BitVec 16) : Nat := crc8 [rdata.toNat / 256, rdata.toNat % 256]
/-- One bit of CRC-16 with polynomial 0x1021, most significant bit first (spec/10_tile_bond.md R258). -/
def crc16Bit (c : Nat) : Nat := if c / 32768 % 2 = 1 then (2 * c % 65536) ^^^ 0x1021 else 2 * c % 65536
/-- One byte of it. -/
def crc16Byte (c : Nat) (b : Byte) : Nat :=
  crc16Bit (crc16Bit (crc16Bit (crc16Bit (crc16Bit (crc16Bit (crc16Bit (crc16Bit (c ^^^ (b.toNat * 256)))))))))
/-- FCRC of bytes in rising order of their bits' places in the frame, initial value 0xFFFF (bit order: log 171). -/
def crc16 (l : List Byte) : Nat := l.foldl crc16Byte 0xFFFF
/-- CRC-32C of a byte string (spec/05_vane_fabric.md R123). -/
def crc32c (l : List Byte) : Nat := (l.foldl (crcByte 0x82F63B78) 0xFFFFFFFF) ^^^ 0xFFFFFFFF

end Sys2Proof.Machine
end

