-- ==== Sys2Proof/Machine/Ops.lean ====
section
/-!
DEFINITION. The named operations that the meanings share: time, free values, messages, the event log, mailbox responses,
the power command bus, fencing, failed starts and resets.
-/
namespace Sys2Proof.Machine

/-- The outcome type of every meaning. -/
abbrev Result := Host.Outcome State Fault Refusal

/-! ## Time, free values, messages -/

/-- The timestamp count (R9). -/
def State.now (s : State) : Nat := s.aon.timeNs.toNat

/-- A free word, and the counter advanced past it. -/
def takeFree (s : State) : Word × State := (Config.freeWord s.freeCtr, { s with freeCtr := s.freeCtr + 1 })

/-- One ACLK cycle with no command: the timestamp count advances by 40 (R9), and at each whole millisecond the firmware liveness
count rises while firmware runs (spec/06_windsock_mailbox.md Table WM-3). The queue does not change. -/
def tick (s : State) : State :=
  if !s.pins.pwrOk then s
  else
    let t := s.aon.timeNs + 40
    let beat := (s.aon.ready && (!s.aon.monitor && !s.pins.coreHalt)) && decide (t.toNat / 1000000 ≠ s.aon.timeNs.toNat / 1000000)
    { s with aon := { s.aon with timeNs := t, fwHb := if beat then s.aon.fwHb + 1 else s.aon.fwHb } }

/-- Record a message sent to the outside. -/
def send (m : Msg) (s : State) : State := { s with out := { s.out with sent := m :: s.out.sent } }

/-- R470: Daxmet sends requests to the host only while Bus Master Enable is 1 and the function is in D0. -/
def State.hostReady (s : State) : Bool := s.link.bme && s.link.d0
/-- Send an MSI-X vector to the host; while requests may not be sent it stays pending in the PBA (R470). -/
def sendMsix (v : Nat) (s : State) : State :=
  if s.hostReady then { s with out := { s.out with msix := v :: s.out.msix } }
  else if v ∈ s.link.pba then s
  else { s with link := { s.link with pba := s.link.pba ++ [v] } }

/-! ## Event log (R17, R501 to R505) -/

/-- R502: the ring index a new record takes, and whether an uncommitted record is overwritten. The record with SEQ s goes to
index s mod 4,096 unless that entry is uncommitted; then the oldest uncommitted INFO or CE entry is overwritten, or, when
there is none, the oldest uncommitted entry. -/
def Log.place (l : Log) : Nat × Bool :=
  let i := l.seq.toNat % 4096
  if i ∈ l.uncommitted then
    ((l.uncommitted.find? fun j => !(Tab.get {} l.ring j).cls.urgent).getD (l.uncommitted.headD i), true)
  else (i, false)

/-- Enter a record into the ring. -/
def Log.push (l : Log) (r : Rec) : Log :=
  let p := l.place
  { l with
    ring := Tab.ins l.ring p.1 { r with seq := l.seq.toNat }
    uncommitted := (l.uncommitted.filter fun j => j ≠ p.1) ++ [p.1]
    seq := l.seq + 1
    dropped := l.dropped || p.2
    drops := l.drops + b2n p.2
    armed := l.armed && !(r.cls.urgent && decide (l.seq.toNat ≠ l.ack)) }

/-- The key of a rate limit: an event code and an instance. -/
def recKey (code inst : Nat) : Nat := inst * 65536 + code

/-- R502: after an overwrite, LOG_RING_DROP with the count, at most once per second. -/
def Log.dropNote (l : Log) (now slot : Nat) : Log :=
  if Tab.get 0 l.lastRec (recKey 0x0B15 0) ≤ now then
    { l.push { ts := now, cls := .info, slot := slot, code := 0x0B15, ut := 0x12, inst := 6, detail := [l.drops] } with
      lastRec := Tab.ins l.lastRec (recKey 0x0B15 0) (now + 1000000000) }
  else l

/-- The log after one record. -/
def Log.write (l : Log) (now slot : Nat) (r : Rec) : Log :=
  let l1 := l.push { r with ts := now, slot := slot }
  if l.place.2 then l1.dropNote now slot else l1

/-- Write an event record: R17 for its fields, R505 for vector 222, which is sent while it is armed. -/
def logRec (cls : Cls) (code ut inst : Nat) (detail : List Nat) (contain : Contain) (s : State) : State :=
  let fire := s.log.armed && (cls.urgent && decide (s.log.seq.toNat ≠ s.log.ack))
  let r : Rec := { cls := cls, code := code, ut := ut, inst := inst, detail := detail, contain := contain }
  let s1 := { s with log := s.log.write s.now s.aon.slot.val r }
  if fire then sendMsix 222 s1 else s1

/-- R18: the log after a SEC record and the error-class record of the same occurrence, which nothing separates. -/
def Log.writePair (l : Log) (now slot : Nat) (sec err : Rec) : Log :=
  let l1 := l.push { sec with ts := now, slot := slot }
  let l2 := l1.push { err with ts := now, slot := slot }
  if l.place.2 || l1.place.2 then l2.dropNote now slot else l2
/-- R18: an occurrence that is both security-relevant and an error. -/
def logPair (contain : Contain) (code ut inst : Nat) (detail : List Nat) (s : State) : State :=
  let r : Rec := { code := code, ut := ut, inst := inst, detail := detail }
  let s1 := { s with log := s.log.writePair s.now s.aon.slot.val { r with cls := .sec } { r with cls := .ue, contain := contain } }
  if s.log.armed then sendMsix 222 s1 else s1

/-- An INFO record. -/
def logInfo (code ut inst : Nat) (detail : List Nat) (s : State) : State := logRec .info code ut inst detail .none s
/-- A CE record. -/
def logCe (code ut inst : Nat) (detail : List Nat) (s : State) : State := logRec .ce code ut inst detail .none s
/-- A SEC record. -/
def logSec (code ut inst : Nat) (detail : List Nat) (s : State) : State := logRec .sec code ut inst detail .none s
/-- A UE record with its containment class (R499). -/
def logUe (c : Contain) (code ut inst : Nat) (detail : List Nat) (s : State) : State := logRec .ue code ut inst detail c s

/-- Write a record at most once per `period` ns for each (code, instance). -/
def logLimited (period : Nat) (cls : Cls) (code ut inst : Nat) (detail : List Nat) (contain : Contain) (s : State) : State :=
  if Tab.get 0 s.log.lastRec (recKey code inst) ≤ s.now then
    let t := logRec cls code ut inst detail contain s
    { t with log := { t.log with lastRec := Tab.ins t.log.lastRec (recKey code inst) (s.now + period) } }
  else s

/-- The same with a key of its own, where the limit runs per source, channel or link and not per unit. -/
def logLimitedAt (key period : Nat) (cls : Cls) (code ut inst : Nat) (detail : List Nat) (contain : Contain) (s : State) : State :=
  if Tab.get 0 s.log.lastRec (recKey code key) ≤ s.now then
    let t := logRec cls code ut inst detail contain s
    { t with log := { t.log with lastRec := Tab.ins t.log.lastRec (recKey code key) (s.now + period) } }
  else s

/-! ## Mailboxes -/

/-- Mailbox `n`. -/
def State.box (s : State) (n : Nat) : Mbx := Tab.get {} s.mbx.box n
/-- Replace mailbox `n`. -/
def setBox (n : Nat) (m : Mbx) (s : State) : State := { s with mbx := { s.mbx with box := Tab.put {} s.mbx.box n m } }

/-- Firmware prepares a response of mailbox `n`; RESPONSE_POST posts it. -/
def reply (n : Nat) (r : Reply) (s : State) : State :=
  setBox n { s.box n with outbox := (s.box n).outbox ++ [r] } s

/-- DONE with results and output bytes. -/
def replyDone (n : Nat) (res : List Nat) (data : List Byte) (s : State) : State :=
  reply n { status := 0x00, res := res, data := data } s
/-- ACCEPTED. -/
def replyAccepted (n : Nat) (s : State) : State := reply n { status := 0x01 } s
/-- A final failing status with its DETAIL. -/
def replyFail (n status detail : Nat) (s : State) : State := reply n { status := status, detail := detail } s

/-- The running command of mailbox `n` waits for a later event before its final response. -/
def setAwait (n : Nat) (a : Await) (s : State) : State := setBox n { s.box n with await := some a } s

/-- Give the final response to every command that waits for an event. -/
def completeAwait (p : Await → Bool) (r : Reply) (s : State) : State :=
  { s with mbx := { s.mbx with box := s.mbx.box.map fun e =>
      if (e.2.await.elim false p) then (e.1, { e.2 with await := none, outbox := e.2.outbox ++ [r] }) else e } }

/-- The failing conditions of a command, one per status, each with its DETAIL (R16). -/
structure Checks where
  notPermitted : Option Nat := none
  needsCosign : Option Nat := none
  badArg : Option Nat := none
  busy : Option Nat := none
  noResource : Option Nat := none
  deriving DecidableEq, Repr

/-- A condition as a check with a DETAIL. -/
def failIf (c : Bool) (detail : Nat) : Option Nat := if c then some detail else none

/-- The first check that fails, of several that give the same status. -/
def firstFail : List (Option Nat) → Option Nat
  | [] => none
  | some d :: _ => some d
  | none :: t => firstFail t

/-- R16: the response of the first failing status in the order of the rule. -/
def Checks.first (c : Checks) : Option Reply :=
  match c.notPermitted, c.needsCosign, c.badArg, c.busy, c.noResource with
  | some d, _, _, _, _ => some { status := 0x12, detail := d }
  | none, some d, _, _, _ => some { status := 0x13, detail := d }
  | none, none, some d, _, _ => some { status := 0x11, detail := d }
  | none, none, none, some d, _ => some { status := 0x02, detail := d }
  | none, none, none, none, some d => some { status := 0x20, detail := d }
  | none, none, none, none, none => none

/-- R151: the reserved bytes of CMD and the argument words that its opcode and form do not define are 0. -/
def Mbx.formOk (m : Mbx) (args : Nat) : Bool :=
  m.flags < 16 && (m.word 1).toNat / 256 = 0 && m.word 3 = 0
    && (List.range 10).all fun i => i < args || m.arg i = 0

/-- R152: the combinations of FLAGS and DATA_LEN that are allowed; the out-of-band path allows IN_INLINE only. -/
def Mbx.dataOk (m : Mbx) (oob : Bool) : Bool :=
  match m.inInline, m.inHost, m.outHost with
  | true, false, false => 1 ≤ m.dataLen && m.dataLen ≤ 3840
  | false, true, false | false, false, true =>
    !oob && 4 ≤ m.dataLen && m.dataLen ≤ 65536 && m.dataLen % 4 = 0 && m.hostAddr % 4 = 0
  | false, false, false => m.dataLen = 0
  | _, _, _ => false

/-- The number of arguments that a command of the catalogue defines in its form. -/
def argCount (m : Mbx) : Nat := (findOp m.opcode).elim 0 fun r => if m.exp then r.xargs else r.args

/-- R13, R151, R152: whether the shape of a command is bad, or its host transfer has failed (DETAIL HOST_XFER), ahead
of the checks of its own opcode. -/
def formCheck (n : Nat) (m : Mbx) : Option Nat :=
  firstFail [failIf (!m.formOk (argCount m)) 0, failIf (!m.dataOk (14 ≤ n)) 0, failIf m.xferFail 1]

/-- A command of the catalogue at its commit point: it acts when mailbox `n` runs it; the failing statuses come in the order
of R16, and a command that fails has no effect beyond its response (R14). -/
def command (op n : Nat) (chk : State → Mbx → Checks) (act : State → Mbx → State) (s : State) : State :=
  let m := s.box n
  if m.job.map (· % 32768) = some op then
    let s1 := setBox n { m with job := none } s
    let c := chk s m
    match ({ c with badArg := firstFail [formCheck n m, c.badArg] } : Checks).first with
    | some r => reply n r s1
    | none => act s1 m
  else s

/-- A command whose opcode serves several rows of the table: `sel` picks the one that acts. -/
def commandIf (op n : Nat) (sel : Mbx → Bool) (chk : State → Mbx → Checks) (act : State → Mbx → State) (s : State) : State :=
  if sel (s.box n) then command op n chk act s else s

/-- No check beyond the shape of the command. -/
def noChecks : State → Mbx → Checks := fun _ _ => {}

/-! ## Units (R500) -/

/-- The key of a unit. -/
def unitKey (ut inst : Nat) : Nat := ut * 256 + inst
/-- The service record of a unit. -/
def State.unitRec (s : State) (ut inst : Nat) : UnitRec := Tab.get {} s.units.tab (unitKey ut inst)
/-- The service state of a unit. -/
def State.unitSt (s : State) (ut inst : Nat) : UnitSt := (s.unitRec ut inst).st
/-- Replace the service record of a unit. -/
def setUnitRec (ut inst : Nat) (r : UnitRec) (s : State) : State :=
  { s with units := { s.units with tab := Tab.put {} s.units.tab (unitKey ut inst) r } }
/-- Set the service state of a unit. -/
def setUnitSt (ut inst : Nat) (st : UnitSt) (s : State) : State := setUnitRec ut inst { s.unitRec ut inst with st := st } s

end Sys2Proof.Machine
end

