-- ==== Sys2Proof/Machine/Owners.lean ====
section
/-!
DEFINITION. Which partition owns what (spec/07_two_party_protection.md R169 to R172).
-/
namespace Sys2Proof.Machine

/-- The entry of partition `p`, 1 to 63. -/
def State.part (s : State) (p : Nat) : Part := Tab.get {} s.prot.parts p

/-- The partition that owns mailbox `n`; 0 owns what no other owns, and 14 and 15 always (R169). -/
def mbxPart (s : State) (n : Nat) : Nat :=
  if 14 ≤ n then 0 else (s.prot.parts.find? fun e => e.2.mbx.getLsbD n).elim 0 Prod.fst
/-- The partition that owns a cluster. -/
def clusterPart (s : State) (c : Nat) : Nat := (s.prot.parts.find? fun e => e.2.clusters.getLsbD c).elim 0 Prod.fst
/-- The partition that owns a DMA channel. -/
def dmaPart (s : State) (d : Nat) : Nat := (s.prot.parts.find? fun e => e.2.dma.getLsbD d).elim 0 Prod.fst
/-- The partition that owns an MEE group. -/
def meePart (s : State) (g : Nat) : Nat := (s.prot.parts.find? fun e => e.2.mee.getLsbD g).elim 0 Prod.fst
/-- The partition that owns the Vane fabric. -/
def vanePart (s : State) : Nat := (s.prot.parts.find? fun e => e.2.vane).elim 0 Prod.fst
/-- A number lies in a range given by its base and count. -/
def inRange (x base count : Nat) : Bool := base ≤ x && x < base + count
/-- The partition that owns a Lull object. -/
def lullPart (s : State) (o : Nat) : Nat := (s.prot.parts.find? fun e => inRange o e.2.lullBase e.2.lullCount).elim 0 Prod.fst
/-- The partition that owns a tenant. -/
def tenantPart (s : State) (t : Nat) : Nat := (s.prot.parts.find? fun e => inRange t e.2.tenantBase e.2.tenantCount).elim 0 Prod.fst

/-- R172: the areas that a partition may use: 0x01 and 0x02 always, every area in partition 0. -/
def areaAllowed (s : State) (p area : Nat) : Bool := p = 0 || area ≤ 2 || (s.part p).areas.getLsbD area

/-- The kind of a partition; partition 0 is ORDINARY. -/
def partKind (s : State) (p : Nat) : PartKind := if p = 0 then .ordinary else (s.part p).kind

/-- A partition of constant time. -/
def ctPart (s : State) (p : Nat) : Bool := partKind s p = .sealedK || partKind s p = .vault

/-- The partition of the mailbox is SEALED or VAULT. -/
def needSealed (s : State) (n : Nat) : Option Nat := failIf (!ctPart s (mbxPart s n)) 0x0603
/-- The partition of the mailbox is a VAULT. -/
def needVault (s : State) (n : Nat) : Option Nat := failIf (partKind s (mbxPart s n) ≠ .vault) 0x0603

/-! ## Custody (R175) -/

/-- R175: what the HMAC of a custody record covers. -/
def custodyBytes (hc ts : List Byte) (gen : Nat) : List Byte := hc ++ ts ++ leBytes 2 gen
/-- R175: a custody record is valid: its HMAC is correct, its generation is KEYGEN, its keys differ. -/
def custodyValid (s : State) : Bool :=
  s.prot.custody.elim false fun c => c.mac = Config.dieMac (custodyBytes c.hc c.ts c.gen) && (c.gen = s.prot.counters[1] && c.hc ≠ c.ts)

end Sys2Proof.Machine
end

