-- ==== Sys2Proof/Machine/VanePorts.lean ====
section
/-!
DEFINITION. Where the Vane fabric attaches, its pins, and what the networks and the self-port share: responses to Vane ports and the
isolation of regions (spec/05_vane_fabric.md R117, R118, R121, R133 to R137).
-/
namespace Sys2Proof.Machine

/-! ## Attachments (R117) -/

/-- The column and row of a region. -/
def regionCol (r : Nat) : Nat := r % 8
def regionRow (r : Nat) : Nat := r / 8
/-- The region that Vane port `p` attaches to. -/
def vaneRegion (p : Nat) : Nat := ([27, 28, 35, 36] : List Nat).getD p 0
/-- The Vane port of a region. -/
def regionPort (r : Nat) : Option Nat := (List.range 4).find? fun p => vaneRegion p = r
/-- The region that pin VIOn attaches to. -/
def vioRegion (n : Nat) : Nat := n / 8 * 8 + 7

/-! ## Regions (R133 to R135) -/

/-- The region that OPEN has taken. -/
def State.region (s : State) (r : Nat) : Option OpenRegion := (s.vane.opened.find? fun e => e.1 = r).map Prod.snd
/-- Change the entry of a taken region. -/
def setRegion (r : Nat) (x : OpenRegion) (s : State) : State := { s with vane := { s.vane with opened := Tab.ins s.vane.opened r x } }
/-- A region that OPEN has taken and no CLOSE has released. -/
def regionOpen (s : State) (r : Nat) : Bool := s.vane.opened.any fun e => e.1 = r && e.2.stage ≤ 2
/-- A region is open: isolated and ready for frames. -/
def spOpened (s : State) (r : Nat) : Bool := (s.region r).elim false fun x => x.stage = 2

/-- A VIO pin is released: not enabled, or its region is isolated (R121, R134). -/
def vioReleased (s : State) (n : Nat) : Bool := !s.vane.vioEnable.getLsbD n || spOpened s (vioRegion n)
/-- The level of a VIO pin: what user logic drives, or what the tray gives a released pin. -/
def vioLevel (s : State) (n : Nat) : Bool := if vioReleased s n then s.pins.vioIn.getLsbD n else Config.vioDrive n s.now

/-! ## The self-port's answers (R133, R137) -/

/-- SP_EN. -/
def shSpEn (h : List Byte) : Bool := leAt h 5 1 / 2 % 2 = 1
/-- SP_CLK. -/
def shSpClk (h : List Byte) : Nat := leAt h 73 1 % 8
/-- The self-port answers: the fabric runs, SP_EN is 1 and SP_CLK is not lost. -/
def spLive (s : State) : Bool :=
  s.vane.st = .running && shSpEn s.vane.hdr && !s.clk.vclkLost.getLsbD (shSpClk s.vane.hdr)
/-- The self-port answers a command with its result and further words. -/
def spAnswer (res : Nat) (words : List Nat) (s : State) : State :=
  { s with vane := { s.vane with spResult := res, spOut := res :: words, spCount := Tab.mod 0 s.vane.spCount res (· + 1) } }

/-- The logic frames of a region that are not zero. -/
def logicOf (r : Nat) (t : Tab (List Byte)) : List (Nat × List Byte) := t.filter fun e => e.1 / 2 ^ 18 % 64 = r && e.1 / 2 ^ 16 % 4 = 0
/-- The flip-flops of several regions at the initial values of their logic frames. -/
def initFlops (t : Tab (List Byte)) : List Nat → Tab Nat → Tab Nat
  | [], f => f
  | r :: l, f => initFlops t l (Tab.put 0 f r (Config.flopInit r (logicOf r t) % 2 ^ 20000))

/-- The reads of a Vane port that are not answered. -/
def State.vaneReads (s : State) (v : Nat) : List Nat := Tab.get [] s.vane.reads v
/-- R134, R135 step 4: the region is isolated: its flip-flops stop and its outputs hold their isolation values; a read that has not been
answered is late. OPEN is answered unless SP_CLK is lost (R137). -/
def isolate (r : Nat) (x : OpenRegion) (s : State) : State :=
  let v := s.vane
  let late := match regionPort r with
    | some p => Tab.put [] v.late p (Tab.get [] v.late p ++ Tab.get [] v.reads p)
    | none => v.late
  let reads := match regionPort r with
    | some p => Tab.put [] v.reads p []
    | none => v.reads
  let s1 := setRegion r
    { x with stage := 2, flops := Config.flopRun r s.freeCtr % 2 ^ 20000, outs := Config.isolationValues r (logicOf r v.frames), ramAt := s.freeCtr }
    { s with vane := { v with late := late, reads := reads }, freeCtr := s.freeCtr + 1 }
  if spLive s1 then spAnswer 0 [] s1 else s1

/-- The fabric in configuration reset, ports and pins off, every open region gone (Table VF-2, R137). -/
def Vane.clear (v : Vane) (st : VaneSt) : Vane :=
  { v with st := st, frames := [], flops := [], vpEnable := 0, vioEnable := 0, opened := [], loading := none, reads := [], late := [], ending := [] }

end Sys2Proof.Machine
end

