-- ==== Sys2Proof/Machine/NetOps.lean ====
section
/-!
DEFINITION. The named operations of the on-die networks: routes and banks, packets, counters, static windows, the switch of a
schedule image, route epochs (spec/08_gale_breeze_lull.md).
-/
namespace Sys2Proof.Machine

/-! ## Sideband fields (Table NW-3) -/

/-- DST. -/
def sbDst (b : BitVec 64) : Nat := fld b 0 7
/-- SRC. -/
def sbSrc (b : BitVec 64) : Nat := fld b 7 7
/-- VC. -/
def sbVc (b : BitVec 64) : Nat := fld b 14 2
/-- LANE. -/
def sbLane (b : BitVec 64) : Bool := bit b 17
/-- EPOCH. -/
def sbEpoch (b : BitVec 64) : Bool := bit b 16
/-- PART. -/
def sbPart (b : BitVec 64) : Nat := fld b 18 6
/-- POISON. -/
def sbPoison (b : BitVec 64) : Bool := bit b 30
/-- MCAST. -/
def sbMcast (b : BitVec 64) : Bool := bit b 31
/-- TAG. -/
def sbTag (b : BitVec 64) : Nat := fld b 32 16
/-- TYPE. -/
def sbType (b : BitVec 64) : Nat := fld b 48 4
/-- XPORT. -/
def sbXport (b : BitVec 64) : Nat := fld b 52 4
/-- REMOTE. -/
def sbRemote (b : BitVec 64) : Bool := bit b 56
/-- TEST. -/
def sbTest (b : BitVec 64) : Bool := bit b 57

/-- A packet that expects an answer: a write or a read request. -/
def sbRequest (b : BitVec 64) : Bool := sbType b = 0 || sbType b = 1
/-- R199: the sideband is one that a router accepts. -/
def sbLegal (b : BitVec 64) : Bool := sbType b ≤ 8 && (!sbRemote b || sbXport b < 12) && fld b 58 6 = 0

/-- The Gale flits that data needs: 128 bytes each, at least one. -/
def flitsOf (data : List Byte) : Nat := max 1 (ceilDiv data.length 128)
/-- The Gale flits of a packet. -/
def galeFlits (p : Packet) : Nat := flitsOf p.data

/-! ## Counters (R230) -/

/-- Counter kinds: 0 to 3 flits of VC0 to VC3, 4 corrected and 5 uncorrectable by link, 6 reclaimed slots (never counted: which slot a
flit takes is timing, log 163), 7 promotions and 8 unreachable discards by router, 9 poisoned packets by node. -/
def ctrKey (kind inst : Nat) : Nat := kind * 65536 + inst
/-- Count `k` events. -/
def netAdd (kind inst k : Nat) (s : State) : State :=
  { s with net := { s.net with ctr := Tab.mod 0 s.net.ctr (ctrKey kind inst) (· + k) } }
/-- Count one event. -/
def netCount (kind inst : Nat) (s : State) : State := netAdd kind inst 1 s

/-! ## Routers, ports and fences (R227, R228) -/

/-- A router in service or in probation. -/
def routerLive (s : State) (node : Nat) : Bool := s.unitSt 0x02 node = .inService || s.unitSt 0x02 node = .probation
/-- The routers that routes avoid: all that are not in service. -/
def deadRouters (s : State) : BitVec 128 :=
  (List.range 128).foldl (fun m n => if s.unitSt 0x02 n = .inService then m else setBit m n true) 0
/-- The Vane port at a node. -/
def vaneAt (node : Nat) : Nat := ((List.range 4).find? fun p => vaneNode p = node).getD 0
/-- The Gust port at a node. -/
def gustAt (node : Nat) : Nat := ((List.range 12).find? fun k => gustNode k = node).getD 0
/-- The gateway at a node. -/
def gatewayAt (node : Nat) : Nat := ((List.range 8).find? fun g => gatewayNode g = node).getD 0
/-- The memory controller at a node. -/
def mcAt (node : Nat) : Nat := nodeX node / 2 + (if nodeY node = 7 then 0 else 8)
/-- A unit takes part in traffic. -/
def carrying (s : State) (ut inst : Nat) : Bool := s.unitSt ut inst = .inService || s.unitSt ut inst = .probation

/-- The node that an output link of a node leads to. -/
def neighbour (node out : Nat) : Nat :=
  match out with
  | 0 => node + 16 | 1 => node + 1 | 2 => node - 16 | _ => node - 1
/-- The instance (Table FR-1) of the link at an output of a node; none on the die edge (R196). -/
def linkAt (node out : Nat) : Option Nat :=
  match out with
  | 0 => if nodeY node < 7 then some (128 + node) else none
  | 1 => if nodeX node < 15 then some node else none
  | 2 => if 0 < nodeY node then some (128 + node - 16) else none
  | 3 => if 0 < nodeX node then some (node - 1) else none
  | _ => none
/-- R197, Table NW-2: the port exists at the node, by its OUT code (R220; 0xB is the slice behind the local port). -/
def portExists (node port : Nat) : Bool :=
  match port with
  | 0 | 1 | 2 | 3 => (linkAt node port).isSome
  | 4 | 0xB => true
  | 5 | 6 => nodeY node = 0 || nodeY node = 7
  | 7 => (List.range 12).any fun k => gustNode k = node
  | 8 => (List.range 8).any fun g => gatewayNode g = node
  | 9 => (List.range 4).any fun p => vaneNode p = node
  | _ => false
/-- R201: a port is a source: any Gale input port but a neighbour link. -/
def sourcePort (node port : Nat) : Bool := 4 ≤ port && portExists node port
/-- R197: cluster and slice share the local port. -/
def sourceOf (port : Nat) : Nat := if port = 0xB then 4 else port
/-- R228, R229: a port of a node meets a fence; a link that has left service is fenced at both its routers. -/
def portFenced (s : State) (node port : Nat) : Bool :=
  !routerLive s node || !portExists node port ||
    match port with
    | 0 | 1 | 2 | 3 => (linkAt node port).elim true fun i => s.unitSt 0x14 i = .faulted || s.unitSt 0x14 i = .offline
    | 4 => !carrying s 0x01 node
    | 5 | 6 => !carrying s 0x05 (mcAt node / 2)
    | 7 => !carrying s 0x07 (gustAt node)
    | 8 => !carrying s 0x08 (gatewayAt node)
    | 9 => !s.vane.vpEnable.getLsbD (vaneAt node)
    | _ => false

/-! ## Cut-off routers and whether routes exist (R222, R227) -/

/-- The routers of one column. -/
def colMask (x : Nat) : BitVec 128 := (List.range 8).foldl (fun m y => setBit m (nodeAt x y) true) 0
/-- One hop east, west, north, south, as masks; what leaves the mesh is lost. -/
def hopE (m : BitVec 128) : BitVec 128 := (m &&& ~~~ colMask 15) <<< 1
def hopW (m : BitVec 128) : BitVec 128 := (m &&& ~~~ colMask 0) >>> 1
def hopN (m : BitVec 128) : BitVec 128 := m <<< 16
def hopS (m : BitVec 128) : BitVec 128 := m >>> 16
/-- The routers that a set of live routers reaches in `k` hops or fewer. -/
def spread (live : BitVec 128) : Nat → BitVec 128 → BitVec 128
  | 0, m => m
  | k + 1, m => spread live k ((m ||| hopE m ||| hopW m ||| hopN m ||| hopS m) &&& live)
/-- R227: the live routers that dead ones cut off from the rest of the mesh: those whose part holds less than half of them. -/
def cutOff (dead : BitVec 128) : List Nat :=
  (List.range 128).filter fun n => !dead.getLsbD n && decide (2 * popcount (spread (~~~ dead) 127 (BitVec.ofNat 128 (2 ^ n))) < popcount (~~~ dead))
/-- R222: where packets of one source can be after a number of hops, by lane and by the turns that are forbidden to them: lane A
with west free or forbidden, each with the turn east that lane B would forbid free or forbidden, then lane B with it free or
forbidden. -/
structure RouteSet where
  a : BitVec 128 := 0
  aw : BitVec 128 := 0
  ae : BitVec 128 := 0
  awe : BitVec 128 := 0
  b : BitVec 128 := 0
  be : BitVec 128 := 0
  deriving DecidableEq, Repr
/-- One hop of every packet, on its lane or changing to lane B. -/
def RouteSet.hop (live : BitVec 128) (r : RouteSet) : RouteSet :=
  let anyA := r.a ||| r.aw ||| r.ae ||| r.awe
  let westOk := r.a ||| r.ae
  let onB := anyA ||| r.b ||| r.be
  let eastB := r.a ||| r.aw ||| r.b
  { a := 0, ae := hopW westOk &&& live, aw := hopE anyA &&& live, awe := (hopN anyA ||| hopS anyA) &&& live
    b := hopE eastB &&& live, be := (hopN onB ||| hopS onB ||| hopW onB) &&& live }
/-- Every router that some packet stands at. -/
def RouteSet.all (r : RouteSet) : BitVec 128 := r.a ||| r.aw ||| r.ae ||| r.awe ||| r.b ||| r.be
/-- The routers reached in at most 0, 1, 2 … hops. -/
def reachedIn (live : BitVec 128) : Nat → BitVec 128 → RouteSet → List (BitVec 128)
  | 0, acc, _ => [acc]
  | k + 1, acc, r => acc :: reachedIn live k (acc ||| (r.hop live).all) (r.hop live)
/-- R222, R507: a route within four hops of the Manhattan distance exists between all live routers under the lane rules. -/
def routesExist (dead : BitVec 128) : Bool :=
  dead = 0 || (List.range 128).all fun a => dead.getLsbD a ||
    (let l := reachedIn (~~~ dead) 26 (BitVec.ofNat 128 (2 ^ a)) { a := BitVec.ofNat 128 (2 ^ a) }
     (List.range 128).all fun b => dead.getLsbD b ||
      (l.getD (min 26 ((max (nodeX a) (nodeX b) - min (nodeX a) (nodeX b)) + (max (nodeY a) (nodeY b) - min (nodeY a) (nodeY b)) + 4)) 0).getLsbD b)

/-! ## Route banks (R220 to R222) -/

/-- The X-then-Y route entry toward a node. -/
def xyEntry (node dst : Nat) (here : Nat) : Nat :=
  if nodeX node < nodeX dst then 1
  else if nodeX dst < nodeX node then 3
  else if nodeY node < nodeY dst then 0
  else if nodeY dst < nodeY node then 2
  else here

/-- The route entry that firmware builds for index `i` of a bank (0 to 127 nodes, 128 to 139 Gust ports): X then Y with no
router dead, UNREACHABLE toward a dead router, TEST_ONLY toward a router or a Gust port in probation (R226), and firmware's choice
among the valid routes otherwise. -/
def builtEntry (bank : RouteBank) (node i : Nat) : Nat :=
  let dst := if i < 128 then i else gustNode (i - 128)
  let here := if i < 128 then 4 else 7
  let way := if bank.around = 0 then xyEntry node dst here else Config.bankChoice bank.around node i % 32
  if bank.around.getLsbD dst && !bank.test.getLsbD dst then 0xF
  else if bank.test.getLsbD dst || (128 ≤ i && bank.testPorts.getLsbD (i - 128)) then way + 32
  else way

/-- A mask that firmware chooses for a group: no Gust port in INBOUND_MASK, none but GP0 to GP6 in LOCAL_MASK (R232). -/
def legalMasks (node x : Nat) : Nat :=
  let m : BitVec 20 := setBit (BitVec.ofNat 20 x) 17 false
  (if portExists node 7 && gustAt node < 7 then m else setBit m 7 false).toNat
/-- The group entry of R231 for group `g` at a node: the caller's, or one whose masks firmware chooses; VALID from the switch with which
the group enters, in the shadow bank before it. -/
def mcastEntry (s : State) (shadow : Bool) (bank : RouteBank) (g node : Nat) : Nat :=
  match s.coll.mcast.find? fun e => e.1 = g with
  | none => 0
  | some (_, m) =>
    let valid := if shadow then !m.deleted else m.valid
    let masks := match m.entries.find? fun e => e.1 = node with
      | some (_, w) => w % 2 ^ 20
      | none => if m.entries.isEmpty then legalMasks node (Config.bankChoice bank.around node (300 + 4 * g)) else 0
    if valid then masks + m.part * 2 ^ 20 + 2 ^ 26 + b2n m.tray * 2 ^ 27 else 0

/-- A byte of a bank as firmware builds it (R221): route entries, broadcast masks, VC2 weights of 1, group entries. -/
def builtByte (s : State) (shadow : Bool) (bank : RouteBank) (node off : Nat) : Byte :=
  BitVec.ofNat 8
    (if off < 140 then builtEntry bank node off
     else if off < 236 then Config.bankChoice bank.around node off
     else if off < 300 then 0x11
     else mcastEntry s shadow bank ((off - 300) / 4) node / 256 ^ ((off - 300) % 4))

/-- The bank of a parity. -/
def State.bank (s : State) (p : Bool) : RouteBank := if p then s.net.bank1 else s.net.bank0
/-- Replace the bank of a parity. -/
def setBank (p : Bool) (b : RouteBank) (s : State) : State :=
  if p then { s with net := { s.net with bank1 := b } } else { s with net := { s.net with bank0 := b } }
/-- The key of a bank byte. -/
def bankKey (node off : Nat) : Nat := node * 1024 + off
/-- The parity that is current at a router. -/
def State.routerPar (s : State) (node : Nat) : Bool := s.net.parity.getLsbD node
/-- The parity of the route epoch. -/
def State.epochPar (s : State) : Bool := s.net.epoch.getLsbD 0
/-- A byte of the bank of parity `p` at a node. -/
def bankByte (s : State) (p : Bool) (node off : Nat) : Byte :=
  Tab.get (if (s.bank p).caller then 0 else builtByte s (p ≠ s.epochPar) (s.bank p) node off) (s.bank p).bytes (bankKey node off)
/-- R224: the CRC-32C of the bank of a parity at a router. -/
def bankCrc (s : State) (p : Bool) (node : Nat) : Nat := crc32c ((List.range 812).map (bankByte s p node))
/-- R231: the entry of group `g` in the bank that is current at a router. -/
def groupEntry (s : State) (node g : Nat) : Nat :=
  leNat ((List.range 4).map fun i => bankByte s (s.routerPar node) node (300 + 4 * g + i))
/-- The index of a route entry that a packet uses: its node, or its Gust port. -/
def routeIdx (sb : BitVec 64) : Nat := if sbRemote sb then 128 + sbXport sb else sbDst sb
/-- R224: the outputs that a packet takes from a node on, by the banks of the parity it carries; a route has at most 26 hops. -/
def routeHops (s : State) (par : Bool) (idx : Nat) : Nat → Nat → List (Nat × Nat)
  | 0, _ => []
  | k + 1, node =>
    let o := (bankByte s par node idx).toNat % 16
    (node, o) :: if o < 4 && (linkAt node o).isSome then routeHops s par idx k (neighbour node o) else []
/-- R228, R229: the route of a packet meets a router or a link that is fenced. A multicast is copied along a tree that firmware
chooses; what fences it is its endpoints. -/
def routeBlocked (s : State) (p : Packet) : Bool :=
  !sbMcast p.sb && (routeHops s (sbEpoch p.sb) (routeIdx p.sb) 27 p.src).any fun h => !routerLive s h.1 || (h.2 < 4 && portFenced s h.1 h.2)

/-- R223: the entry at the injecting router forbids the packet. -/
def unreachable (s : State) (node : Nat) (sb : BitVec 64) : Bool :=
  let e := (bankByte s (s.routerPar node) node (routeIdx sb)).toNat
  e % 16 = 15 || (e / 32 % 2 = 1 && !sbTest sb)
/-- R201, R234: the flits of one source and class in flight; the copies of a multicast count once, and one whose combined acknowledgement
is outstanding counts until every endpoint has answered. Cluster and slice share the local port (R197). -/
def inFlight (s : State) (node port vc : Nat) : Nat :=
  (((((s.net.flight.filter fun p => p.src = node && (sourceOf p.port = sourceOf port && sbVc p.sb = vc)).map fun p => (p.id, galeFlits p))
    ++ ((s.coll.acks.filter fun a => a.node = node && (sourceOf a.port = sourceOf port && vc = 3)).map fun a => (a.id, a.flits))).eraseDups).map
      Prod.snd).sum
/-- R201: the flits of a packet find no room among their source's 64; an Eddy unit is no source. -/
def overLimit (s : State) (node port vc : Nat) (data : List Byte) : Bool :=
  port ≠ 14 && (vc ≠ 0 && 64 < inFlight s node port vc + flitsOf data)

/-! ## Multicast (R231 to R233) -/

/-- R233: the entry at the injecting router is VALID and has the packet's PART. -/
def groupUsable (s : State) (node : Nat) (sb : BitVec 64) : Bool :=
  let e := groupEntry s node (sbDst sb)
  e / 2 ^ 26 % 2 = 1 && e / 2 ^ 20 % 64 = sbPart sb
/-- R233: the types that multicast may carry. -/
def mcastType (sb : BitVec 64) : Bool := sbType sb = 0 || sbType sb = 5 || sbType sb = 6 || sbType sb = 8
/-- A group. -/
def State.mcastGroup (s : State) (g : Nat) : Option McastGroup := (s.coll.mcast.find? fun e => e.1 = g).map Prod.snd
/-- The mask of a group entry that applies. -/
def entryMask (inbound : Bool) (w : Nat) : Nat := if inbound then w / 1024 % 1024 else w % 1024
/-- R231: the ports at which copies leave the mesh, as (node, output), following the masks from a list of routers on; a router copies
once (DEDUCED, log 167). -/
def floodOuts (s : State) (inbound : Bool) (g : Nat) : Nat → List Nat → List Nat → List (Nat × Nat)
  | 0, _, _ => []
  | _, [], _ => []
  | k + 1, n :: t, seen =>
    if n ∈ seen then floodOuts s inbound g k t seen
    else
      let m := entryMask inbound (groupEntry s n g)
      let outs := (List.range 10).filter fun o => m.testBit o && portExists n o
      (outs.filter fun o => 4 ≤ o).map (fun o => (n, o))
        ++ floodOuts s inbound g k (t ++ (outs.filter fun o => o < 4).map (neighbour n)) (n :: seen)
/-- The copy for a node of this die. -/
def copyTo (p : Packet) (node : Nat) : Packet := { p with sb := (p.sb &&& ~~~ (0x7F : BitVec 64)) ||| BitVec.ofNat 64 (node % 128) }
/-- The copy that crosses Gust port `k`: it keeps the group in DST. -/
def copyOut (p : Packet) (k : Nat) : Packet :=
  { p with sb := setBit (p.sb &&& ~~~ (0xF0000000000000 : BitVec 64)) 56 true ||| BitVec.ofNat 64 (k * 2 ^ 52) }
/-- The copies that the routers make of a packet of a group, from the router at which it enters on: along the masks where the caller gave
them, and otherwise along the tree that firmware builds: one to each endpoint of this die, and, where it was injected here, one over
the mesh port of each other package of the group. -/
def mcastCopies (s : State) (inbound : Bool) (p : Packet) (g : McastGroup) : List Packet :=
  if g.entries.isEmpty then
    ((g.eps.filter fun e => e.1 = s.aon.slot.val).map fun e => copyTo p e.2.1)
      ++ if inbound then [] else
        (((g.eps.filter fun e => e.1 ≠ s.aon.slot.val).map Prod.fst).eraseDups).map fun k => copyOut p (meshPort s.aon.slot.val k)
  else (floodOuts s inbound (sbDst p.sb) 640 [p.src] []).map fun h => if h.2 = 7 then copyOut p (gustAt h.1) else copyTo p h.1
/-- A multicast write with a TAG waits for its combined acknowledgement (R235): `want` endpoints answer. -/
def openTally (p : Packet) (want : Nat) (s : State) : State :=
  if sbType p.sb = 0 && sbTag p.sb ≠ 0 then
    { s with coll := { s.coll with acks := { id := p.id, node := p.src, port := p.port, sb := p.sb, flits := galeFlits p, want := want } :: s.coll.acks } }
  else s

/-- Put the packets of an injection into flight and count its flits by class. -/
def launch (ps : List Packet) (p : Packet) (s : State) : State :=
  netAdd (sbVc p.sb) 0 (galeFlits p) { s with net := { s.net with flight := s.net.flight ++ ps, nextId := s.net.nextId + 1 } }
/-- A multicast packet that its injecting router accepts: its copies go out. -/
def launchMcast (inbound : Bool) (p : Packet) (s : State) : State :=
  match s.mcastGroup (sbDst p.sb) with
  | none => s
  | some g =>
    openTally p (if inbound then g.eps.countP fun e => e.1 = s.aon.slot.val else g.eps.length) (launch (mcastCopies s inbound p g) p s)

/-! ## Static windows (R205 to R207) -/

/-- The first turn of the wheel that begins at a time or later (DESIGN CHOICE, log 21). -/
def turnOf (t : Nat) : Nat := ceilDiv t 2048
/-- The turn that runs. -/
def State.turn (s : State) : Nat := s.now / 2048
/-- The streams of a window. -/
def windowStreams (img : SchedImage) (w : Nat) : List SchedStream := img.streams.filter fun x => x.window = w
/-- Two windows own a common slot of a common wheel. -/
def windowsOverlap (img : SchedImage) (a b : Nat) : Bool :=
  let own := fun w => img.owned.filter fun o => (windowStreams img w).any fun x => x.num = o.2.2.2
  (own a).any fun p => (own b).any fun q => p.1 = q.1 && p.2.1 = q.2.1 && p.2.2.1 = q.2.2.1
/-- A unit or link takes part in a window. -/
def windowUses (img : SchedImage) (w ut inst : Nat) : Bool :=
  (windowStreams img w).any fun x => x.units.any fun u => u.1 = ut && u.2 = inst
/-- A unit takes part in a window that is open and not broken. -/
def inActiveWindow (s : State) (ut inst : Nat) : Bool :=
  s.net.windows.any fun w => !w.broken && s.net.image.elim false fun img => windowUses img w.idx ut inst
/-- Vane port `p` owns slots in an image. -/
def imageUsesVane (img : SchedImage) (p : Nat) : Bool := img.streams.any fun x => x.vane.getLsbD p
/-- R206: a switch waits while a Vane region whose port owns slots in the new image is open. -/
def vaneBlocks (s : State) (img : SchedImage) : Bool :=
  (List.range 4).any fun p => imageUsesVane img p && regionOpen s (vaneRegion p)

/-- R206: the shadow image becomes current at a boundary at which no window is active; SCHED_LOAD is answered. -/
def trySwitch (s : State) : State :=
  match s.net.shadow with
  | none => s
  | some img =>
    if s.net.windows.isEmpty && !vaneBlocks s img then
      completeAwait (fun a => a = .schedSwitch) { status := 0, res := [img.id.toNat] }
        { s with net := { s.net with image := some img, shadow := none } }
    else s

/-- A flit of a static stream: it comes from the stream's port, or from the Eddy unit that feeds it, and goes to its destination. -/
def ofStream (x : SchedStream) (p : Packet) : Bool :=
  sbVc p.sb = 0 && (p.src = x.srcNode && (p.port = x.srcPort && sbDst p.sb = x.dstNode))
/-- The streams of a window leave nothing in flight or in an Eddy unit. -/
def dropStreams (img : SchedImage) (w : Nat) (s : State) : State :=
  { s with
    net := { s.net with flight := s.net.flight.filter fun p => !(windowStreams img w).any fun x => ofStream x p }
    coll := { s.coll with merges := s.coll.merges.filter fun e => !(windowStreams img w).any fun x => x.num = e.1 % 256 } }
/-- Mark an open window as broken. -/
def markBroken (w : Nat) (s : State) : State :=
  { s with net := { s.net with windows := s.net.windows.map fun x => if x.idx = w then { x with broken := true } else x } }
/-- Break the windows that `hit` selects: STATIC_BROKEN for each, and the flits of their streams are discarded. -/
def breakList (cause : Nat) (img : SchedImage) : List OpenWindow → State → State
  | [], s => s
  | w :: t, s => breakList cause img t (logUe .operation 0x0305 0x00 0 [img.id.toNat, w.idx, cause] (dropStreams img w.idx (markBroken w.idx s)))

/-- R207: a fence or link fault breaks the windows that a unit takes part in. -/
def breakWindowsOf (ut inst cause : Nat) (s : State) : State :=
  match s.net.image with
  | none => s
  | some img => breakList cause img (s.net.windows.filter fun w => !w.broken && windowUses img w.idx ut inst) s

/-- R207: a reset, HALT or FATAL event breaks every window. -/
def breakAllWindows (cause : Nat) (s : State) : State :=
  match s.net.image with
  | none => s
  | some img => breakList cause img (s.net.windows.filter fun w => !w.broken) s

/-! ## Responses to Vane ports (spec/05_vane_fabric.md R118, R135, R138) -/

/-- R138: the waits of VANE_DISABLE are over on all four ports: the fabric is UNLOADED until the next reset. -/
def disableDone (s : State) : State :=
  if (List.range 4).all fun p => Tab.get 0 s.vane.ending p = 3 then
    completeAwait (fun a => a = .vaneDisable) { status := 0 }
      (trySwitch { s with vane := { s.vane.clear .unloaded with disabled := true } })
  else s
/-- A port at which VANE_DISABLE waits for responses is quiet once its last read has been answered. -/
def portQuiet (v : Nat) (s : State) : State :=
  if Tab.get 0 s.vane.ending v = 2 && (s.vaneReads v).isEmpty then
    disableDone { s with vane := { s.vane with ending := Tab.put 0 s.vane.ending v 3 } }
  else s
/-- An answer with a tag reaches Vane port `v`. One to a read of its own is delivered, and the last one that an OPEN waits for lets it go
on; one that is late is counted, with VP_STALE; any other is discarded. -/
def vaneResponse (v tag flits : Nat) (deliver : State → State) (s : State) : State :=
  let own := s.vaneReads v
  let late := Tab.get [] s.vane.late v
  if tag ∈ own then
    let s1 := deliver { s with vane := { s.vane with reads := Tab.put [] s.vane.reads v (own.erase tag) } }
    portQuiet v (match s.region (vaneRegion v) with
      | some x => if x.stage = 1 && (s1.vaneReads v).isEmpty then isolate (vaneRegion v) x s1 else s1
      | none => s1)
  else if tag ∈ late then
    logInfo 0x0808 0x0C v [v, tag]
      { s with vane := { s.vane with late := Tab.put [] s.vane.late v (late.erase tag), stale := s.vane.stale + flits } }
  else { s with vane := { s.vane with discarded := s.vane.discarded + flits } }

/-! ## Packets -/

/-- An error response (TYPE 0x7) goes back to the source of a request. -/
def errorResponse (node tag : Nat) (s : State) : State := send (.flit node "error response" [tag]) s
/-- An error response to a packet goes to its source: over the Gust port that it came from, or to its node. -/
def errorTo (p : Packet) (s : State) : State :=
  if p.port = 7 then send (.link (gustAt p.src) "error response" [sbSrc p.sb, sbTag p.sb]) s
  else if p.port = 9 then vaneResponse (vaneAt p.src) (sbTag p.sb) 1 (errorResponse p.src (sbTag p.sb)) s
  else errorResponse p.src (sbTag p.sb) s
/-- A packet is delivered at its node. -/
def deliverTo (node : Nat) (p : Packet) (s : State) : State :=
  send (.flit node "delivered" (sbType p.sb :: sbTag p.sb :: sbSrc p.sb :: p.data.map BitVec.toNat)) s
/-- Discard a packet; a request among them receives an error response. -/
def discardPacket (p : Packet) (s : State) : State := if sbRequest p.sb then errorTo p s else s
/-- Discard several packets. -/
def discardAll : List Packet → State → State
  | [], s => s
  | p :: t, s => discardAll t (discardPacket p s)
/-- The old-parity packets in flight (R225). -/
def oldParity (s : State) : List Packet := s.net.flight.filter fun p => sbEpoch p.sb ≠ s.epochPar

/-! ## Breeze (R208 to R210, R223 to R225) -/

/-- DST of a Breeze header. -/
def bzDst (h : BitVec 64) : Nat := fld h 0 7
/-- EPOCH. -/
def bzEpoch (h : BitVec 64) : Bool := bit h 15
/-- AGE. -/
def bzAge (h : BitVec 64) : Nat := fld h 18 10
/-- TYPE. -/
def bzType (h : BitVec 64) : Nat := fld h 28 4
/-- R208: TYPE is not reserved and the reserved bit is 0; what a router does with any other message the spec does not say: it is
discarded (DESIGN CHOICE, log 164). -/
def bzLegal (h : BitVec 64) : Bool := 1 ≤ bzType h && (bzType h ≤ 9 && !bit h 17)
/-- R209: the messages of a source in flight. -/
def breezeOut (s : State) (src : Nat) : Nat := s.net.breeze.countP fun m => m.src = src
/-- R208, R224: the stamp of the injecting router: EPOCH, and AGE in units of 8 ns. -/
def stampBreeze (s : State) (node : Nat) (h : BitVec 64) : BitVec 64 :=
  setBit ((h &&& ~~~ (0xFFC8000 : BitVec 64)) ||| BitVec.ofNat 64 (s.now / 8 % 1024 * 2 ^ 18)) 15 (s.routerPar node)
/-- R223: a message whose entry at its injecting router is UNREACHABLE, or TEST_ONLY for one that is no test, is discarded there. -/
def breezeUnreachable (s : State) (node : Nat) (h : BitVec 64) : Bool :=
  let e := (bankByte s (s.routerPar node) node (bzDst h)).toNat
  e % 16 = 15 || (e / 32 % 2 = 1 && bzType h ≠ 8)
/-- A source injects a Breeze message: at most four are in flight, and the next waits in its port. The answer is whether it has left. -/
def injectBreeze (m : BreezeMsg) (s : State) : Bool × State :=
  let node := m.src / 2
  if 4 ≤ breezeOut s m.src then (false, s)
  else if !bzLegal m.hdr then (true, s)
  else if breezeUnreachable s node m.hdr then
    (true, netCount 8 node (logLimitedAt (2048 + m.src) 10000000 .info 0x0303 0x02 node [bzDst m.hdr] .none s))
  else (true, { s with net := { s.net with breeze := s.net.breeze ++ [{ m with hdr := stampBreeze s node m.hdr }] } })
/-- How long ago a message was injected, modulo 1,024 units (R208). -/
def bzOld (s : State) (m : BreezeMsg) : Nat := (s.now / 8 + 1024 - bzAge m.hdr) % 1024
/-- Put a message into a list in which the oldest stands first. -/
def insertOld (s : State) (m : BreezeMsg) : List BreezeMsg → List BreezeMsg
  | [] => [m]
  | x :: t => if bzOld s m ≤ bzOld s x then x :: insertOld s m t else m :: x :: t
/-- The messages of a list, the oldest first. -/
def oldestFirst (s : State) (l : List BreezeMsg) : List BreezeMsg := l.foldl (fun r m => insertOld s m r) []
/-- R210: an endpoint accepts a message, whatever its own state: it joins its queue, of which it holds 64 and the spill area of its slice
the rest. A dead router accepts none. -/
def acceptBreeze (m : BreezeMsg) (s : State) : State :=
  let d := bzDst m.hdr
  if !routerLive s d then s
  else { s with net := { s.net with endpoints := Tab.put [] s.net.endpoints d (Tab.get [] s.net.endpoints d ++ [m]) } }
/-- Several messages. -/
def acceptAll : List BreezeMsg → State → State
  | [], s => s
  | m :: t, s => acceptAll t (acceptBreeze m s)
/-- An endpoint hands its messages on to the units behind it in the order in which they came. -/
def handOn (node : Nat) : List BreezeMsg → State → State
  | [], s => s
  | m :: t, s => handOn node t (send (.flit node "breeze" (m.hdr.toNat :: m.body.map BitVec.toNat)) s)
/-- Every endpoint that holds messages. -/
def handOnAll : List (Nat × List BreezeMsg) → State → State
  | [], s => s
  | e :: t, s => handOnAll t (handOn e.1 e.2 s)
/-- A cycle of Breeze: what was accepted before is handed on, what is in flight is accepted, the oldest first (DESIGN CHOICE, log 164). -/
def breezeCycle (s : State) : State :=
  if s.net.breeze.isEmpty && s.net.endpoints.isEmpty then s
  else
    let s1 := handOnAll s.net.endpoints { s with net := { s.net with endpoints := [], breeze := [] } }
    acceptAll (oldestFirst s s.net.breeze) s1
/-- The old-parity Breeze messages (R225). -/
def oldBreeze (s : State) : List BreezeMsg := s.net.breeze.filter fun m => bzEpoch m.hdr ≠ s.epochPar

/-! ## Route epochs (R224 to R226) -/

/-- The routers that a plan lets join. -/
def joiners (pl : EpochPlan) : BitVec 128 := pl.joins.foldl (fun m u => if u.1 = 0x02 then setBit m u.2 true else m) 0
/-- The routers in probation. -/
def provingRouters (s : State) : BitVec 128 :=
  (List.range 128).foldl (fun m n => if s.unitSt 0x02 n = .probation then setBit m n true else m) 0
/-- The Gust ports in probation that a plan does not let join. -/
def provingPorts (s : State) (pl : EpochPlan) : BitVec 12 :=
  (List.range 12).foldl (fun m k => if s.unitSt 0x07 k = .probation && !(0x07, k) ∈ pl.joins then setBit m k true else m) 0
/-- R220, R226: the bank of the next epoch as firmware builds it: around the routers that neither are in service nor join, TEST_ONLY
toward those in probation. -/
def nextBank (s : State) (pl : EpochPlan) : RouteBank :=
  { around := deadRouters s &&& ~~~ joiners pl, test := provingRouters s &&& ~~~ joiners pl, testPorts := provingPorts s pl }
/-- Firmware begins the next epoch: the shadow banks are built. -/
def startEpoch (s : State) : State :=
  if s.net.stage ≠ 0 then s
  else setBank (!s.epochPar) (nextBank s s.net.next) { s with net := { s.net with stage := 1, plan := s.net.next, next := {} } }
/-- An interior router (Table NW-2). -/
def interior (node : Nat) : Bool :=
  1 ≤ nodeX node && nodeX node ≤ 14 && 1 ≤ nodeY node && nodeY node ≤ 6 && (List.range 4).all fun p => vaneNode p ≠ node
/-- R250: the home of the system objects moves to another live interior router with the epoch, if theirs is fenced; the lowest (DESIGN
CHOICE, log 168). -/
def rehome (s : State) : State :=
  let live := (List.range 128).find? fun n => interior n && routerLive s n
  let moved := s.lull.objs.map fun e =>
    if e.1 < 64 && !routerLive s e.2.home then (e.1, { e.2 with home := live.getD e.2.home }) else e
  { s with lull := { s.lull with objs := moved } }
/-- R225, R250: the value of EPOCH_DRAIN: the old-parity flits and messages that are left while a drain runs. -/
def drainCount (s : State) : Nat := if s.net.stage = 2 then ((oldParity s).map galeFlits).sum + (oldBreeze s).length else 0
/-- R217: the gateways that carry traffic, on live routers. -/
def liveGateways (s : State) : BitVec 8 :=
  (List.range 8).foldl (fun m g => if carrying s 0x08 g && routerLive s (gatewayNode g) then setBit m g true else m) 0

/-- A unit joins with the next epoch (R517). -/
def joinNext (ut inst : Nat) (s : State) : State :=
  startEpoch { s with net := { s.net with next := { s.net.next with joins := s.net.next.joins ++ [(ut, inst)] } } }
/-- A unit leaves with the next epoch (R519). -/
def leaveNext (ut inst : Nat) (s : State) : State :=
  startEpoch { s with net := { s.net with next := { s.net.next with leaves := s.net.next.leaves ++ [(ut, inst)] } } }
/-- Firmware begins the epoch that the waiting plan asks for, if any. -/
def startNext (s : State) : State := if s.net.next = {} then s else startEpoch s

/-- R508 step 9: firmware builds an epoch around what has been fenced: the next one, or the one after (R226). -/
def rebuildRoutes (s : State) : State :=
  if s.net.stage = 0 then startEpoch s else { s with net := { s.net with next := { s.net.next with rebuild := true } } }

end Sys2Proof.Machine
end

