-- ==== Sys2Proof/Machine/MemOps.lean ====
section
/-!
DEFINITION. The named operations over HBM, the shared buffer and the drift tier: the region table and the controllers, reads and
writes with their codes, the fault thresholds, retirement, slice units, frames (spec/11_memory_and_ecc.md).
-/
namespace Sys2Proof.Machine

/-! ## Regions and controllers (R281 to R285) -/

/-- First DPA of the shared buffer. -/
def sliceBase : Nat := 0x010000000000
/-- First DPA past the shared buffer. -/
def sliceEnd : Nat := 0x010020000000
/-- First DPA of the drift tier. -/
def driftBase : Nat := 0x040000000000
/-- First DPA past the drift tier. -/
def driftEnd : Nat := 0x080000000000
/-- First DPA past HBM. -/
def hbmEnd : Nat := 0x008000000000

/-- The region r. -/
def State.hregion (s : State) (r : Nat) : HbmRegion := Tab.get {} s.mem.regions r
/-- The region table with one region replaced. -/
def setHregion (r : Nat) (x : HbmRegion) (s : State) : State :=
  { s with mem := { s.mem with regions := Tab.put {} s.mem.regions r x } }

/-- The controllers of a mode. -/
def HMode.mcs : HMode → List Nat
  | .unbacked => []
  | .stripe => List.range 16
  | .edgeN => List.range 8
  | .edgeS => (List.range 8).map (· + 8)
  | .stack h => [2 * h, 2 * h + 1]
/-- Chunks per controller. -/
def HMode.chunksPer : HMode → Nat
  | .unbacked => 0 | .stripe => 1 | .edgeN | .edgeS => 2 | .stack _ => 8
/-- The code of a mode. -/
def HMode.code : HMode → Nat
  | .unbacked => 0 | .stripe => 1 | .edgeN => 2 | .edgeS => 3 | .stack h => 4 + h
/-- The mode of a code. -/
def hmodeOf (c : Nat) : Option HMode :=
  match c with
  | 0 => some .unbacked | 1 => some .stripe | 2 => some .edgeN | 3 => some .edgeS
  | _ => if c < 12 then some (.stack (c - 4)) else none
/-- Table ME-2: the controller of block b and its index there. -/
def HMode.place (m : HMode) (b : Nat) : Option (Nat × Nat) :=
  match m with
  | .unbacked => none
  | .stripe => some (2 * (b % 8) + b / 8 % 2, b / 16)
  | .edgeN => some (2 * (b % 4) + b / 4 % 2, b / 8)
  | .edgeS => some (8 + 2 * (b % 4) + b / 4 % 2, b / 8)
  | .stack h => some (2 * h + b % 2, b / 2)
/-- A mode uses a stack. -/
def HMode.usesStack (m : HMode) (h : Nat) : Bool := m.mcs.any fun c => c / 2 = h

/-- The region number of a DPA. -/
def regionOf (dpa : Nat) : Nat := dpa / 2 ^ 30
/-- R282: the controller of a DPA and the address there; none in an UNBACKED region. -/
def ctrlAddr (s : State) (dpa : Nat) : Option (Nat × Nat) :=
  let r := s.hregion (regionOf dpa)
  match r.mode.place (dpa / 4096 % 2 ^ 18) with
  | none => none
  | some (mc, k) =>
    match r.chunks.find? fun e => e.1 = mc with
    | none => none
    | some (_, l) => some (mc, l.getD (k / 16384) 0 * 2 ^ 26 + k % 16384 * 4096 + dpa % 4096)
/-- R227, R283: the node and the OUT code of the controller port that an access uses; with one of its routers dead a controller is
reached through its other node. -/
def mcPort (s : State) (mc k : Nat) : Nat × Nat :=
  let n := (mcNodes mc).getD (k % 2) 0
  let o := (mcNodes mc).getD ((k + 1) % 2) 0
  (if routerLive s n || !routerLive s o then n else o, if k / 2 % 2 = 0 then 5 else 6)
/-- R282 inverted: the DPA of a controller address; none where the chunk belongs to no region. -/
def dpaOf (s : State) (mc addr : Nat) : Option Nat :=
  let c := addr / 2 ^ 26
  match s.mem.regions.find? fun e => e.2.chunks.any fun x => x.1 = mc && c ∈ x.2 with
  | none => none
  | some (r, x) =>
    let j := ((x.chunks.find? fun e => e.1 = mc).elim [] Prod.snd).idxOf c
    let k := j * 16384 + addr % 2 ^ 26 / 4096
    let b := (List.range 16).find? fun i =>
      let b := match x.mode with
        | .stripe => 16 * k + i | .edgeN | .edgeS => 8 * k + i | .stack _ => 2 * k + i | .unbacked => 0
      x.mode.place b = some (mc, k)
    b.map fun i =>
      let b := match x.mode with
        | .stripe => 16 * k + i | .edgeN | .edgeS => 8 * k + i | .stack _ => 2 * k + i | .unbacked => 0
      r * 2 ^ 30 + b * 4096 + addr % 4096

/-- A stack is in service or in probation. -/
def stackUp (s : State) (h : Nat) : Bool := carrying s 0x05 h
/-- Every stack that a region uses is in service. -/
def regionUp (s : State) (r : Nat) : Bool :=
  (s.hregion r).mode ≠ .unbacked && (s.hregion r).mode.mcs.all fun c => stackUp s (c / 2)

/-- The next free chunks of a controller, lowest first, that no region of a table uses. -/
def freeChunks (t : Tab HbmRegion) (mc n : Nat) : List Nat :=
  let used := t.flatMap fun e => (e.2.chunks.find? fun x => x.1 = mc).elim [] Prod.snd
  ((List.range 512).filter fun c => !(c ∈ used)).take n
/-- Give a region its chunks in a mode: the lowest free ones (DESIGN CHOICE, log 24). -/
def placeRegion (t : Tab HbmRegion) (r owner : Nat) (m : HMode) : Tab HbmRegion :=
  Tab.put {} t r { mode := m, owner := owner, chunks := m.mcs.map fun c => (c, freeChunks t c m.chunksPer) }
/-- Free the chunks of several regions. -/
def unplace (t : Tab HbmRegion) : List Nat → Tab HbmRegion
  | [] => t
  | r :: l => unplace (Tab.del t r) l
/-- Place several regions, as (region, owner, mode). -/
def placeAll (t : Tab HbmRegion) : List (Nat × Nat × HMode) → Tab HbmRegion
  | [] => t
  | (r, o, m) :: l => placeAll (placeRegion t r o m) l

/-- Chunks r × n and up of each controller. -/
def startRegion (m : HMode) (j : Nat) : HbmRegion :=
  { mode := m, chunks := m.mcs.map fun c => (c, (List.range m.chunksPer).map fun i => j * m.chunksPer + i) }
/-- R284: the modes that the stacks in service yield, in order, with each region's number within its mode. -/
def startModes (up : Nat → Bool) : List (HMode × Nat) :=
  let rep := fun (m : HMode) n => (List.range n).map fun j => (m, j)
  if (List.range 8).all up then rep .stripe 512
  else
    let n := (List.range 4).all up
    let d := (List.range 4).all fun i => up (i + 4)
    (if n then rep .edgeN 256 else []) ++ (if d then rep .edgeS 256 else [])
      ++ (List.range 8).flatMap fun h => if up h && !(if h < 4 then n else d) then rep (.stack h) 64 else []
/-- R284: the region table that firmware builds at the end of PH_TRAIN. -/
def buildRegions (s : State) : State :=
  let l := startModes (stackUp s)
  { s with mem := { s.mem with regions := (List.range l.length).zip (l.map fun e => startRegion e.1 e.2) } }

/-! ## Frames -/

/-- The record of a frame; the frames below sysTop are SYSTEM frames of partition 0. -/
def State.frame (s : State) (f : Nat) : FrameRec :=
  if f < s.mem.sysTop then { use := .system } else Tab.get {} s.mem.frames f
/-- Replace the record of a frame. -/
def setFrame (f : Nat) (r : FrameRec) (s : State) : State :=
  { s with mem := { s.mem with frames := Tab.put {} s.mem.frames f r } }
/-- Change the record of a frame. -/
def modFrame (f : Nat) (g : FrameRec → FrameRec) (s : State) : State := setFrame f (g (s.frame f)) s
/-- The number of frames of HBM. -/
def frameCount : Nat := 8388608
/-- The region of a frame. -/
def frameRegion (f : Nat) : Nat := f / 16384
/-- A frame is retired, for good or for this run. -/
def frameRetired (s : State) (f : Nat) : Bool := f ∈ s.mem.retiredRun || s.store.retired.any fun e => e.1 = f
/-- A frame may be granted now. -/
def frameUsable (s : State) (f : Nat) : Bool :=
  (s.frame f).use = .free && (!frameRetired s f && regionUp s (frameRegion f))

/-- R304: a frame leaves use for good: it enters the retired frame list, or is retired for this run when the list is full or
its region of the store is read-only. -/
def retireNow (f : Nat) (rows : List (Nat × Nat)) (s : State) : State :=
  let s1 := setFrame f {} s
  if frameRetired s f then s1
  else if s.store.retired.length < 4096 && !(s.store.regions[4]).ro then
    logInfo 0x0407 0x04 0 [f] { s1 with store := { s1.store with retired := s1.store.retired ++ [(f, rows)] } }
  else logUe .none 0x040D 0x12 5 [1] { s1 with mem := { s1.mem with retiredRun := f :: s1.mem.retiredRun } }

/-- The frames that a prefix entry names. -/
def PEntry.frames (e : PEntry) : List Nat := e.page :: e.extra
/-- Set INDEXED of several frames by the entries that are left. -/
def reindex (t : Tab PEntry) : List Nat → State → State
  | [], s => s
  | f :: l, s => reindex t l (modFrame f (fun r => { r with indexed := t.any fun e => f ∈ e.2.frames }) s)
/-- R384: entries leave the prefix index; a page whose last entry has left is no longer INDEXED. -/
def removeEntries (p : Nat → PEntry → Bool) (s : State) : State :=
  let gone := s.serve.index.filter fun e => p e.1 e.2
  if gone.isEmpty then s
  else
    let t := s.serve.index.filter fun e => !p e.1 e.2
    reindex t (gone.flatMap fun e => e.2.frames).eraseDups { s with serve := { s.serve with index := t } }
/-- R384: the index entries of a page leave the prefix index. -/
def dropIndex (f : Nat) (s : State) : State := removeEntries (fun _ e => f ∈ e.frames) s
/-- The rows of the hard lines that a frame holds. -/
def frameRows (s : State) (f : Nat) : List (Nat × Nat) :=
  ((s.mem.hard.filter fun e => e.2.2.1 / 65536 = f).map fun e => (e.1, e.2.1)).eraseDups
/-- R304, R384: a frame becomes RETIRE_PENDING, or is retired at once when nobody holds it. -/
def retirePending (f : Nat) (s : State) : State :=
  if (s.frame f).use = .free then retireNow f (frameRows s f) s
  else modFrame f (fun r => { r with retirePending := true }) (if (s.frame f).indexed then dropIndex f s else s)
/-- Several frames. -/
def retireEach : List Nat → State → State
  | [], s => s
  | f :: t, s => retireEach t (retirePending f s)

/-- R376, R304: a frame is freed: a RETIRE_PENDING frame is retired, any other is zeroed before it can be granted again. -/
def freeFrame (f : Nat) (s : State) : State :=
  if (s.frame f).retirePending then retireNow f (frameRows s f) s
  else setFrame f { use := .zeroing, lost := (s.frame f).lost } s
/-- Free several frames. -/
def freeFrames : List Nat → State → State
  | [], s => s
  | f :: t, s => freeFrames t (freeFrame f s)

/-! ## Counting errors (R299) -/

/-- The counter index of a controller. -/
def mcIdx (mc : Nat) : Nat := 128 + mc
/-- UNIT type and instance of a counter index. -/
def memUnit (u : Nat) : Nat × Nat := if u < 128 then (0x03, u) else (0x04, u - 128)
/-- A saturating 32-bit count. -/
def satInc (n : Nat) : Nat := min 0xFFFFFFFF (n + 1)
/-- R299: a corrected error: its count, and its record at most once per 10 ms. -/
def noteCe (u dpa pos : Nat) (inj : Bool) (s : State) : State :=
  let s1 := { s with mem := { s.mem with ce := Tab.mod 0 s.mem.ce u satInc } }
  logLimited 10000000 .ce (if u < 128 then 0x0404 else 0x0401) (memUnit u).1 (memUnit u).2 [dpa, pos, b2n inj] .none s1
/-- R298, R299: an uncorrectable error: its count and its record. -/
def noteUe (u dpa : Nat) (inj : Bool) (s : State) : State :=
  let s1 := { s with mem := { s.mem with ue := Tab.mod 0 s.mem.ue u satInc } }
  logUe .operation (if u < 128 then 0x0405 else 0x0402) (memUnit u).1 (memUnit u).2 [dpa, 0, b2n inj] s1

/-! ## Fault classification (R303, Table ME-6) -/

/-- R305: a row enters its stack's HBM repair list, unless it is listed, the list is full or its store region read-only. -/
def listRow (mc row : Nat) (s : State) : State :=
  if (mc, row) ∈ s.store.hbmRepair || (64 ≤ (s.store.hbmRepair.countP fun e => e.1 / 2 = mc / 2) || (s.store.regions[4]).ro) then s
  else { s with store := { s.store with hbmRepair := s.store.hbmRepair ++ [(mc, row)] } }
/-- A suspect row: ROW_SUSPECT, the frames of its failing lines become RETIRE_PENDING, the row enters the repair list. -/
def suspectRow (mc row : Nat) (s : State) : State :=
  let s1 := logInfo 0x0406 0x04 mc [row] s
  let fs := ((s.mem.hard.filter fun e => e.1 = mc && e.2.1 = row).map fun e => e.2.2.1 / 65536).eraseDups
  listRow mc row (retireEach fs s1)
/-- The failing lines take a line of a row. -/
def noteHard (mc row line : Nat) (s : State) : State :=
  { s with mem := { s.mem with hard := (mc, row, line, s.now) :: s.mem.hard.filter fun e => e.2.2.1 ≠ line } }
/-- A hard line: with another hard line of its row within 24 h the row is suspect. -/
def hardLine (mc addr line : Nat) (s : State) : State :=
  let row := Config.dramRow mc addr
  let s1 := noteHard mc row line s
  if s.mem.hard.any fun e => e.1 = mc && (e.2.1 = row && (e.2.2.1 ≠ line && s.now ≤ e.2.2.2 + 86400000000000)) then suspectRow mc row s1
  else s1
/-- One HBM_UE makes its row suspect. -/
def ueLine (mc addr line : Nat) (s : State) : State :=
  let row := Config.dramRow mc addr
  suspectRow mc row (noteHard mc row line s)

/-! ## Slice units (R291 to R293, R302) -/

/-- The units of a slice that may be allocated. -/
def sliceUnits : Nat := 191
/-- The key of a unit. -/
def unitKeyOf (node unit : Nat) : Nat := node * 192 + unit
/-- R291: the Vane staging area: the first 4,096 allocatable units, from PH_FUSE exit to PH_JOIN entry. -/
def stagingUnit (s : State) (node unit : Nat) : Bool :=
  node * 191 + unit < 4096 &&
    match s.aon.phase with
    | .boot | .auth | .train | .vane => true
    | _ => false
/-- The owner of a slice unit. -/
def State.unitPart (s : State) (node unit : Nat) : Option Nat := Tab.get none s.mem.unitOwner (unitKeyOf node unit)
/-- Set the owner of a slice unit. -/
def setUnit (node unit : Nat) (o : Option Nat) (s : State) : State :=
  { s with mem := { s.mem with unitOwner := Tab.put none s.mem.unitOwner (unitKeyOf node unit) o } }
/-- The free units of a slice: retired ones have left the pool. -/
def freeUnits (s : State) (node : Nat) : List Nat :=
  (List.range sliceUnits).filter fun u =>
    s.unitPart node u = none && (!(unitKeyOf node u ∈ s.mem.unitRetired) && !stagingUnit s node u)
/-- R441: a unit is freed; one of a VAULT partition is zeroed first. -/
def freeUnit (node unit : Nat) (s : State) : State :=
  let a := sliceBase + node * 2 ^ 22 + unit * 16384
  let s1 := if (s.unitPart node unit).elim false fun p => partKind s p = .vault then
      { s with mem := { s.mem with bytes := s.mem.bytes.filter fun e => !(a ≤ e.1 && e.1 < a + 16384) } }
    else s
  setUnit node unit none s1
/-- Take several units. -/
def takeUnits (node part : Nat) : List Nat → State → State
  | [], s => s
  | u :: t, s => takeUnits node part t (setUnit node u (some part) s)

/-- Table ME-6: a hard word: it enters the learned slice repair list and its unit is retired until the next start. -/
def hardWord (node addr : Nat) (s : State) : State :=
  let k := unitKeyOf node (addr % 2 ^ 22 / 16384)
  let s1 := { s with mem := { s.mem with unitRetired := if k ∈ s.mem.unitRetired then s.mem.unitRetired else k :: s.mem.unitRetired } }
  if addr ∈ s.store.sliceRepair then s1
  else if s.store.sliceRepair.length < 1024 && !(s.store.regions[4]).ro then
    { s1 with store := { s1.store with sliceRepair := s1.store.sliceRepair ++ [addr] } }
  else logUe .none 0x040D 0x12 5 [2] s1

/-! ## Codes (R294 to R298) -/

/-- Errors that stand in a stored line or word together with those found now. -/
def joinBad (a b : List Nat) : List Nat := (a ++ b).eraseDups
/-- The flaw stored at a line or word. -/
def State.flaw (s : State) (a : Nat) : Flaw := Tab.get {} s.mem.flaws a
/-- Store a flaw. -/
def setFlaw (a : Nat) (f : Flaw) (s : State) : State := { s with mem := { s.mem with flaws := Tab.put {} s.mem.flaws a f } }
/-- A symbol of an HBM line or a bit of a slice word goes wrong where it stands (R294, R296; log 173). -/
def strike (a pos : Nat) (s : State) : State :=
  if a < hbmEnd then
    let k := a / 64 * 64
    if pos < 68 then setFlaw k { s.flaw k with bad := joinBad (s.flaw k).bad [pos] } s else s
  else if sliceBase ≤ a && a < sliceEnd then
    let k := a / 8 * 8
    setFlaw k { s.flaw k with bad := joinBad (s.flaw k).bad [pos] } s
  else s
/-- The places that a long read of firmware finds struck. -/
def strikeAll : List (BitVec 48 × Fin 72) → State → State
  | [], s => s
  | e :: t, s => strikeAll t (strike e.1.toNat e.2.val s)
/-- Bytes of memory. -/
def peek (s : State) (dpa n : Nat) : List Byte := (List.range n).map fun i => Tab.get 0 s.mem.bytes (dpa + i)
/-- Store bytes. -/
def pokeTab (t : Tab Byte) : Nat → List Byte → Tab Byte
  | _, [] => t
  | a, b :: l => pokeTab (Tab.put 0 t a b) (a + 1) l
/-- Store bytes of memory. -/
def poke (dpa : Nat) (l : List Byte) (s : State) : State := { s with mem := { s.mem with bytes := pokeTab s.mem.bytes dpa l } }

/-- Free bytes. -/
def freeBytes (c n : Nat) : List Byte := (List.range n).map fun i => (Config.freeWord (c + i)).setWidth 8

/-- What a read delivers: the data, data that a code failed to guard, or an error response. -/
inductive Got | data | free | error
  deriving DecidableEq, Repr

/-- R287: bytes of the static and key-through class on a controller: those beyond the budget of the turn are served as class 3
and recorded. -/
def countStatic (dpa n : Nat) (s : State) : State :=
  match ctrlAddr s dpa with
  | none => s
  | some (mc, _) =>
    let t := s.turn
    let u := Tab.get (0, 0) s.mem.staticUsed mc
    let used := if u.1 = t then u.2 else 0
    let s1 := { s with mem := { s.mem with staticUsed := Tab.put (0, 0) s.mem.staticUsed mc (t, used + n) } }
    if 1843200 < used + n then
      logLimited 10000000 .info 0x0410 0x04 mc [used + n] .none
        { s1 with mem := { s1.mem with overBudget := Tab.mod 0 s1.mem.overBudget mc (· + 1) } }
    else s1


/-- R301: a line enters its controller's rescrub queue. -/
def queueRescrub (mc line : Nat) (s : State) : State :=
  let q := Tab.get [] s.mem.rescrub mc
  if line ∈ q then s
  else if q.length < 64 then { s with mem := { s.mem with rescrub := Tab.put [] s.mem.rescrub mc (q ++ [line]) } }
  else { s with mem := { s.mem with rescrubDrops := Tab.mod 0 s.mem.rescrubDrops mc satInc } }

/-- R298: an HBM line is uncorrectable: it is poisoned, HBM_UE is written and its row becomes suspect unless the error was
injected. -/
def hbmUe (mc addr line : Nat) (inj : Bool) (s : State) : State :=
  let s1 := noteUe (mcIdx mc) line inj (setFlaw line { poison := true } s)
  if inj then s1 else ueLine mc addr line s1

/-- R294 to R298: a controller reads an HBM line; `found` names symbols found wrong beside those already stored. Four or more
wrong symbols are not guaranteed to be detected. -/
def readLine (line : Nat) (found : List Nat) (s : State) : Got × State :=
  match ctrlAddr s line with
  | none => (.error, s)
  | some (mc, addr) =>
    if !stackUp s (mc / 2) then (.error, s)
    else
      let f := s.flaw line
      let bad := joinBad f.bad found
      let hit := fun (t : State) => hbmUe mc addr line f.inj (setFlaw line { f with bad := bad } t)
      if f.poison then
        (.error, logLimitedAt (line / 65536) 1000000000 .ue 0x0403 0x04 mc [line] .operation s)
      else
        match bad with
        | [] => (.data, s)
        | [p] => (.data, queueRescrub mc line (noteCe (mcIdx mc) line p f.inj (setFlaw line { bad := bad } s)))
        | [_, _] | [_, _, _] => (.error, hit s)
        | _ :: _ :: _ :: _ :: _ =>
          let t := { s with freeCtr := s.freeCtr + 1 }
          if Config.freeBit s.freeCtr then (.error, hit t) else (.free, t)

/-- R310: the armed injection applies to a write of its whole target. -/
def injectInto (a : Nat) (s : State) : State :=
  let hbm := a < hbmEnd
  let pats := s.mem.flips.toList.foldl
    (fun (t : Tab Nat) f => if f.en then Tab.mod 0 t f.pos fun x => x ^^^ (if hbm then f.pat else 1) else t) []
  let s1 := setFlaw a { (s.flaw a) with bad := pats.map Prod.fst, inj := true } s
  logSec 0x040E (if hbm then 0x04 else 0x03) (if hbm then (ctrlAddr s a).elim 0 Prod.fst else (a - sliceBase) / 2 ^ 22) [a]
    { s1 with mem := { s1.mem with armed := false, applied := true, injections := s1.mem.injections + 1 } }
/-- The write of a whole line or word meets the armed injection. -/
def meetInjection (a : Nat) (s : State) : State := if s.mem.armed && (!s.mem.eccNow && s.mem.eccAddr = a) then injectInto a s else s

/-- R297, R298: a controller writes within an HBM line; the answer is whether it acknowledges. Four or more wrong symbols are not
guaranteed to be detected: the merge may then take bytes that nothing states. -/
def storeLine (dpa : Nat) (data : List Byte) (found : List Nat) (s : State) : Bool × State :=
  let line := dpa / 64 * 64
  match ctrlAddr s line with
  | none => (false, s)
  | some (mc, addr) =>
    if !stackUp s (mc / 2) then (false, s)
    else if 64 ≤ data.length then (true, meetInjection line (poke line data (setFlaw line {} s)))
    else
      let f := s.flaw line
      let bad := joinBad f.bad found
      if f.poison then (false, s)
      else
        match bad with
        | [] => (true, poke dpa data s)
        | [p] => (true, poke dpa data (noteCe (mcIdx mc) line p f.inj (setFlaw line {} s)))
        | [_, _] | [_, _, _] => (false, hbmUe mc addr line f.inj s)
        | _ =>
          let t := { s with freeCtr := s.freeCtr + 65 }
          if Config.freeBit s.freeCtr then (false, hbmUe mc addr line f.inj t)
          else (true, poke dpa data (poke line (freeBytes (s.freeCtr + 1) 64) (setFlaw line {} t)))

/-- The open vault that holds a DPA (spec/16_sealed_arithmetic_crosswind.md R438). -/
def vaultAt (s : State) (dpa : Nat) : Option (Nat × Vault) := s.sealed.vaults.find? fun e => dpa / 65536 ∈ e.2.frames
/-- Change vault `v`. -/
def modVault (v : Nat) (f : Vault → Vault) (s : State) : State :=
  { s with sealed := { s.sealed with vaults := s.sealed.vaults.map fun e => if e.1 = v then (e.1, f e.2) else e } }
/-- R440: a write that its vault holds back, with VAULT_WRITE_HELD once in a change. -/
def holdWrite (v dpa : Nat) (data : List Byte) (noted : Bool) (s : State) : State :=
  let s1 := modVault v (fun x => { x with held := x.held ++ [(dpa, data)], heldNoted := true }) s
  if noted then s1 else logInfo 0x0608 0x00 0 [v] s1
/-- R439, R440: a controller writes within an HBM line: in a vault the write takes the next counter of its line, and waits for
the new epoch when that counter is spent. -/
def writeLine (dpa : Nat) (data : List Byte) (found : List Nat) (s : State) : Bool × State :=
  match vaultAt s dpa with
  | none => storeLine dpa data found s
  | some (v, x) =>
    if 0x7FFF ≤ Tab.get 0 x.ctr (dpa / 64) then (true, holdWrite v dpa data x.heldNoted s)
    else
      let r := storeLine dpa data found s
      if r.1 then (true, modVault v (fun y => { y with ctr := Tab.mod 0 y.ctr (dpa / 64) (· + 1) }) r.2) else r

/-- The bank of an offset (R291), among those of all slices. -/
def bankOf (node off : Nat) : Nat := node * 16 + off / 64 % 16
/-- The bank of a slice word. -/
def wordBank (w : Nat) : Nat := bankOf ((w - sliceBase) / 2 ^ 22) ((w - sliceBase) % 2 ^ 22)
/-- The write-back of a word is no longer pending. -/
def dropBack (w : Nat) (s : State) : State := { s with mem := { s.mem with backs := s.mem.backs.filter (· ≠ w) } }
/-- Table ME-5: the corrected copy of a word is to be written back, unless its bank has a write-back pending. -/
def scheduleBack (w : Nat) (s : State) : State :=
  if s.mem.backs.any fun x => wordBank x = wordBank w then s else { s with mem := { s.mem with backs := s.mem.backs ++ [w] } }
/-- R296 to R298: a read of one slice word. The stored copy of a corrected word stays bad until it is written back. Three or more wrong
bits are not guaranteed to be detected. -/
def readWord (w : Nat) (found : List Nat) (s : State) : Got × State :=
  let node := (w - sliceBase) / 2 ^ 22
  let f := s.flaw w
  match joinBad f.bad found with
  | [] => (.data, s)
  | [p] => (.data, scheduleBack w (noteCe node w p f.inj (setFlaw w { f with bad := [p] } s)))
  | [p, q] =>
    let s1 := noteUe node w f.inj (setFlaw w { f with bad := [p, q] } s)
    (.error, if f.inj then s1 else hardWord node w s1)
  | _ =>
    let t := { s with freeCtr := s.freeCtr + 1 }
    if Config.freeBit s.freeCtr then (.error, if f.inj then noteUe node w true t else hardWord node w (noteUe node w false t)) else (.free, t)

/-- R297, R298: a write within one slice word: a part of it is merged with the word as read. -/
def writeWord (a : Nat) (data : List Byte) (found : List Nat) (s : State) : Bool × State :=
  let w := a / 8 * 8
  let s0 := dropBack w s
  if 8 ≤ data.length then (true, meetInjection w (poke w data (setFlaw w {} s0)))
  else
    let r := readWord w found s0
    match r.1 with
    | .error => (false, r.2)
    | .data => (true, poke a data (dropBack w (setFlaw w {} r.2)))
    | .free => (true, poke a data (poke w (freeBytes r.2.freeCtr 8) (setFlaw w {} { r.2 with freeCtr := r.2.freeCtr + 8 })))

/-- R281: a slice address that answers: below the hole, its router alive, not in the spill area and not in the staging area. -/
def sliceOk (s : State) (dpa : Nat) : Bool :=
  let node := (dpa - sliceBase) / 2 ^ 22
  let u := dpa % 2 ^ 22 / 16384
  u < sliceUnits && (routerLive s node && !stagingUnit s node u)

/-- The worse of two outcomes. -/
def Got.worse : Got → Got → Got
  | .error, _ | _, .error => .error
  | .free, _ | _, .free => .free
  | .data, .data => .data

/-- Read the words that cover [a, a + 8n), each once. -/
def readWords : Nat → Nat → (Nat → List Nat) → State → Got × State
  | 0, _, _, s => (.data, s)
  | n + 1, w, found, s =>
    let r := readWord w (found w) s
    let t := readWords n (w + 8) found r.2
    (r.1.worse t.1, t.2)

/-- One piece of an access: the bytes of one HBM line, of the slice words within one 64-byte line, or of a drift line. -/
def readPiece (dpa n : Nat) (s : State) : Got × State :=
  if dpa < hbmEnd then readLine (dpa / 64 * 64) [] s
  else if sliceBase ≤ dpa && dpa < sliceEnd then
    if sliceOk s dpa then readWords (ceilDiv (dpa % 8 + n) 8) (dpa / 8 * 8) (fun _ => []) s else (.error, s)
  else if driftBase ≤ dpa && dpa < driftEnd then (.data, s)
  else (.error, s)

/-- Write the slice words that hold bytes at a. -/
def writeWords : Nat → Nat → List Byte → (Nat → List Nat) → State → Bool × State
  | 0, _, _, _, s => (true, s)
  | _ + 1, _, [], _, s => (true, s)
  | k + 1, a, data, found, s =>
    let m := min data.length (8 - a % 8)
    let r := writeWord a (data.take m) (found (a / 8 * 8)) s
    let t := writeWords k (a + m) (data.drop m) found r.2
    (r.1 && t.1, t.2)

/-- Write one piece. -/
def writePiece (dpa : Nat) (data : List Byte) (s : State) : Bool × State :=
  if dpa < hbmEnd then writeLine dpa data [] s
  else if sliceBase ≤ dpa && dpa < sliceEnd then
    if sliceOk s dpa then writeWords 9 dpa data (fun _ => []) s else (false, s)
  else if driftBase ≤ dpa && dpa < driftEnd then (true, poke dpa data s)
  else (false, s)

/-- Read pieces until `n` bytes are read or the fuel is spent. -/
def readPieces : Nat → Nat → Nat → State → Got × State
  | 0, _, _, s => (.data, s)
  | k + 1, dpa, n, s =>
    if n = 0 then (.data, s)
    else
      let m := min n (64 - dpa % 64)
      let r := readPiece dpa m s
      let t := readPieces k (dpa + m) (n - m) r.2
      (r.1.worse t.1, t.2)
/-- Read `n` bytes at a DPA: none where any line or word of them answers with an error response. -/
def memRead (dpa n : Nat) (s : State) : Option (List Byte) × State :=
  let r := readPieces (n / 64 + 2) dpa n s
  match r.1 with
  | .data => (some (peek r.2 dpa n), r.2)
  | .free => (some (freeBytes r.2.freeCtr n), { r.2 with freeCtr := r.2.freeCtr + n })
  | .error => (none, r.2)

/-- Write pieces. -/
def writePieces : Nat → Nat → List Byte → State → Bool × State
  | 0, _, _, s => (true, s)
  | _ + 1, _, [], s => (true, s)
  | k + 1, dpa, data, s =>
    let m := min data.length (64 - dpa % 64)
    let r := writePiece dpa (data.take m) s
    let t := writePieces k (dpa + m) (data.drop m) r.2
    (r.1 && t.1, t.2)
/-- Write bytes at a DPA; the answer is whether every piece was acknowledged. -/
def memWrite (dpa : Nat) (data : List Byte) (s : State) : Bool × State := writePieces (data.length / 64 + 2) dpa data s

end Sys2Proof.Machine
end

