-- ==== Sys2Proof/Machine/Spdm.lean ====
section
/-!
DEFINITION. The SPDM 1.3 responder of ATTEST_SPDM (spec/07_two_party_protection.md R192 to R194). The spec names the requests, the
algorithms, the slot and the kinds of measurement; the layouts of the messages are those of the DMTF standard, which the spec does not
restate (PRESUMED, log 18).
-/
namespace Sys2Proof.Machine

/-- The SPDM request code of a message (its second byte). -/
def spdmCode (b : List Byte) : Nat := leAt b 1 1
/-- The codes of the seven requests of R192. -/
def spdmRequests : List Nat := [0x84, 0xE1, 0xE3, 0x81, 0x82, 0x83, 0xE0]

/-- A message: version, code, two parameters, body. -/
def spdmMsg (ver code p1 p2 : Nat) (body : List Byte) : List Byte :=
  [BitVec.ofNat 8 ver, BitVec.ofNat 8 code, BitVec.ofNat 8 p1, BitVec.ofNat 8 p2] ++ body
/-- An ERROR message of SPDM 1.3. -/
def spdmError (e data : Nat) : List Byte := spdmMsg 0x13 0x7F e data []
/-- R192: UnsupportedRequest, with the code of the request. -/
def spdmUnsupported (b : List Byte) : List Byte := spdmError 0x07 (spdmCode b)

/-! ## The device identity (R193) -/

/-- The device certificate of the identity key, after the Iluol root and the DX2 intermediate. -/
def deviceCerts (key : List Byte) : List Byte := Config.iluolRoot ++ Config.dx2Intermediate ++ Config.deviceCert (Config.p384Public key)
/-- The chain of slot 0 as SPDM hands it out: length, root hash, certificates. -/
def slotChain (key : List Byte) : List Byte :=
  leBytes 2 (52 + (deviceCerts key).length) ++ leBytes 2 0 ++ leBytes 48 (Config.sha384 Config.iluolRoot).toNat ++ deviceCerts key
/-- Its digest. -/
def chainDigest (key : List Byte) : List Byte := leBytes 48 (Config.sha384 (slotChain key)).toNat

/-- The bytes of a text. -/
def textBytes (t : String) : List Byte := t.toList.map fun c => BitVec.ofNat 8 c.toNat
/-- What the identity key signs: the SPDM 1.3 prefix, the context and the hash of the transcript. -/
def spdmSigned (context : String) (transcript : List Byte) : List Byte :=
  let c := textBytes context
  let v := textBytes "dmtf-spdm-v1.3.*"
  v ++ v ++ v ++ v ++ List.replicate (36 - c.length) 0 ++ c ++ leBytes 48 (Config.sha384 transcript).toNat
/-- R193: the hardware engine signs with the device identity key. -/
def deviceSign (key : List Byte) (context : String) (transcript : List Byte) : List Byte :=
  leBytes 96 (Config.ecdsaSign key (spdmSigned context transcript)).toNat

/-! ## The messages (R192) -/

/-- The response to a request, and the exchange after it: `key` signs, `nonce` is fresh, `blocks` are the measurement blocks 1 to 12. -/
structure SpdmAnswer where
  reply : List Byte
  conn : SpdmConn

/-- What a request needs of the exchange: its version, and the requests before it. -/
def spdmRefusal (c : SpdmConn) (b : List Byte) : Option (List Byte) :=
  let code := spdmCode b
  if b.length < 4 then some (spdmError 0x01 0)
  else if code = 0x84 then none
  else if leAt b 0 1 ≠ 0x13 then some (spdmError 0x41 0)
  else if c.stage < (if code = 0xE1 then 1 else if code = 0xE3 then 2 else 3) then some (spdmError 0x04 0)
  else none

/-- VERSION: 1.3 alone. -/
def spdmVersion : List Byte := spdmMsg 0x10 0x04 0 0 ([0, 1] ++ leBytes 2 0x1300)
/-- CAPABILITIES: certificates, challenges, signed measurements; messages of at most the 3,840 bytes of DATA, no chunking. -/
def spdmCapabilities : List Byte :=
  spdmMsg 0x13 0x61 0 0 ([0, BitVec.ofNat 8 (Config.spdmTimeExp % 32), 0, 0] ++ leBytes 4 0x16 ++ leBytes 4 3840 ++ leBytes 4 3840)
/-- ALGORITHMS: of what the request offers, DMTF measurements, ECDSA P-384 and SHA-384 only. -/
def spdmAlgorithms (b : List Byte) : List Byte :=
  spdmMsg 0x13 0x63 0 0 (leBytes 2 36 ++ leBytes 1 (leAt b 6 1 &&& 1) ++ leBytes 1 0 ++ leBytes 4 4 ++ leBytes 4 (leAt b 8 4 &&& 0x80)
    ++ leBytes 4 (leAt b 12 4 &&& 2) ++ List.replicate 16 0)
/-- DIGESTS of slot 0. -/
def spdmDigests (key : List Byte) : List Byte := spdmMsg 0x13 0x01 1 1 (chainDigest key)
/-- CERTIFICATE: a portion of the chain of slot 0. -/
def spdmCertificate (key : List Byte) (b : List Byte) : List Byte :=
  let ch := slotChain key
  let off := leAt b 4 2
  let n := min (min (leAt b 6 2) 3832) (ch.length - off)
  if leAt b 2 1 % 16 ≠ 0 ∨ ch.length ≤ off then spdmError 0x01 0
  else spdmMsg 0x13 0x02 0 0 (leBytes 2 n ++ leBytes 2 (ch.length - off - n) ++ (ch.drop off).take n)

/-- The DMTF value type of a measurement block: immutable ROM, mutable firmware, hardware or firmware configuration. -/
def blockType (i : Nat) : Nat :=
  if i ≤ 2 then 0 else if i = 3 then 1 else if i = 10 ∨ i = 11 then 2 else 3
/-- R194: a block in the DMTF measurement specification form. -/
def spdmBlock (i : Nat) (h : Nat) : List Byte :=
  leBytes 1 i ++ leBytes 1 1 ++ leBytes 2 51 ++ leBytes 1 (blockType i) ++ leBytes 2 48 ++ leBytes 48 h
/-- The blocks of a record, numbered from `i`. -/
def spdmBlocks (i : Nat) : List Nat → List Byte
  | [] => []
  | h :: t => spdmBlock i h ++ spdmBlocks (i + 1) t
/-- The measurement summary of CHALLENGE_AUTH: none, the trusted computing base (blocks 1 to 4), or every block. -/
def summary (kind : Nat) (blocks : List Nat) : List Byte :=
  if kind = 0 then [] else leBytes 48 (Config.sha384 (spdmBlocks 1 (if kind = 1 then blocks.take 4 else blocks))).toNat
/-- CHALLENGE_AUTH without its signature. -/
def challengeAuth (key nonce : List Byte) (blocks : List Nat) (b : List Byte) : List Byte :=
  spdmMsg 0x13 0x03 0 1 (chainDigest key ++ nonce ++ summary (leAt b 3 1) blocks ++ leBytes 2 0 ++ (b.drop 36).take 8)
/-- A GET_MEASUREMENTS asks for a signature. -/
def wantsSig (b : List Byte) : Bool := leAt b 2 1 % 2 = 1
/-- MEASUREMENTS without its signature: operation 0 gives the number of blocks, 0xFF every block, else one. -/
def measurementsOf (nonce : List Byte) (blocks : List Nat) (b : List Byte) : List Byte :=
  let op := leAt b 3 1
  let rec_ := if op = 0 then [] else if op = 0xFF then spdmBlocks 1 blocks else spdmBlock op (blocks.getD (op - 1) 0)
  let n := if op = 0 then 0 else if op = 0xFF then 12 else 1
  spdmMsg 0x13 0x60 (if op = 0 then 12 else 0) 0 (leBytes 1 n ++ leBytes 3 rec_.length ++ rec_ ++ nonce ++ leBytes 2 0
    ++ if wantsSig b then (b.drop 37).take 8 else (b.drop 4).take 8)
/-- A GET_MEASUREMENTS is well formed: a block that exists, slot 0 for a signature. -/
def measureReqOk (b : List Byte) : Bool :=
  let op := leAt b 3 1
  (op ≤ 12 || op = 0xFF) && (if wantsSig b then 45 ≤ b.length && leAt b 36 1 % 16 = 0 else 12 ≤ b.length)

/-- R192: the answer to one of the seven requests, and the exchange after it. GET_VERSION begins an exchange anew; an ERROR leaves it
as it was. -/
def spdmAnswer (key nonce : List Byte) (blocks : List Nat) (c : SpdmConn) (b : List Byte) : SpdmAnswer :=
  match spdmRefusal c b with
  | some e => { reply := e, conn := c }
  | none =>
    match spdmCode b with
    | 0x84 => { reply := spdmVersion, conn := { stage := 1, vca := b ++ spdmVersion } }
    | 0xE1 => { reply := spdmCapabilities, conn := { c with stage := max 2 c.stage, vca := c.vca ++ b ++ spdmCapabilities } }
    | 0xE3 =>
      if b.length < 32 then { reply := spdmError 0x01 0, conn := c }
      else { reply := spdmAlgorithms b, conn := { c with stage := 3, vca := c.vca ++ b ++ spdmAlgorithms b } }
    | 0x81 => { reply := spdmDigests key, conn := { c with certs := c.certs ++ b ++ spdmDigests key } }
    | 0x82 => { reply := spdmCertificate key b, conn := { c with certs := c.certs ++ b ++ spdmCertificate key b } }
    | 0x83 =>
      if b.length < 44 ∨ leAt b 2 1 % 16 ≠ 0 ∨ (leAt b 3 1 ≠ 0 ∧ leAt b 3 1 ≠ 1 ∧ leAt b 3 1 ≠ 0xFF) then { reply := spdmError 0x01 0, conn := c }
      else
        let r := challengeAuth key nonce blocks b
        { reply := r ++ deviceSign key "responder-challenge_auth signing" (c.vca ++ c.certs ++ b ++ r), conn := { c with certs := [] } }
    | 0xE0 =>
      if !measureReqOk b then { reply := spdmError 0x01 0, conn := c }
      else
        let r := measurementsOf nonce blocks b
        if wantsSig b then
          { reply := r ++ deviceSign key "responder-measurements signing" (c.vca ++ c.meas ++ b ++ r), conn := { c with meas := [] } }
        else { reply := r, conn := { c with meas := c.meas ++ b ++ r } }
    | _ => { reply := spdmUnsupported b, conn := c }

end Sys2Proof.Machine
end

