-- ==== Sys2Proof/Machine/PortOps.lean ====
section
/-!
DEFINITION. The Gust ports and their sealed channels as data: accessors, CRC-64, flit headers, states and vectors
(spec/17_gust_links_and_host.md R449 to R465).
-/
namespace Sys2Proof.Machine

/-! ## CRC-64 (R449) -/

/-- One bit of the ECMA-182 CRC-64, most significant bit first. -/
def crc64Bit (c : BitVec 64) : BitVec 64 := if c.getLsbD 63 then (c <<< 1) ^^^ 0x42F0E1EBA9EA3693 else c <<< 1
/-- One byte. -/
def crc64Byte (c : BitVec 64) (b : Byte) : BitVec 64 :=
  crc64Bit (crc64Bit (crc64Bit (crc64Bit (crc64Bit (crc64Bit (crc64Bit (crc64Bit (c ^^^ (b.setWidth 64 <<< 56)))))))))
/-- CRC-64 of a byte string, initial value 0, no reflection. -/
def crc64 (l : List Byte) : BitVec 64 := l.foldl crc64Byte 0

/-! ## Flit headers (Table GL-2) -/

/-- KIND. -/
def hKind (h : BitVec 56) : Nat := fld h 0 2
/-- VC. -/
def hVc (h : BitVec 56) : Nat := fld h 16 2
/-- PAIR. -/
def hPair (h : BitVec 56) : Bool := bit h 29
/-- LAST. -/
def hLast (h : BitVec 56) : Bool := bit h 30
/-- LTYPE. -/
def hLtype (h : BitVec 56) : Nat := fld h 2 8
/-- The sideband of the Gale packet that a DATA or SEALED header carries, with REMOTE clear. -/
def hSideband (h : BitVec 56) : BitVec 64 :=
  BitVec.ofNat 64 (fld h 2 7 + fld h 9 7 * 2 ^ 7 + fld h 16 2 * 2 ^ 14 + fld h 18 6 * 2 ^ 18 + fld h 31 1 * 2 ^ 30 + fld h 32 1 * 2 ^ 31
    + fld h 33 16 * 2 ^ 32 + fld h 49 4 * 2 ^ 48 + fld h 53 1 * 2 ^ 57)
/-- The header of a flit of a packet: kind, first Gale flit index, whether it carries two, whether it carries the last. -/
def flitHeader (kind : Nat) (sb : BitVec 64) (fidx : Nat) (pair last tagFlit : Bool) : BitVec 56 :=
  BitVec.ofNat 56 (kind + sbDst sb * 2 ^ 2 + sbSrc sb * 2 ^ 9 + sbVc sb * 2 ^ 16 + sbPart sb * 2 ^ 18 + fidx % 32 * 2 ^ 24 + b2n pair * 2 ^ 29
    + b2n last * 2 ^ 30 + b2n (sbPoison sb) * 2 ^ 31 + b2n (sbMcast sb) * 2 ^ 32 + sbTag sb * 2 ^ 33 + sbType sb * 2 ^ 49
    + b2n (sbTest sb) * 2 ^ 53 + b2n tagFlit * 2 ^ 54)

/-! ## Ports -/

/-- Gust port `k`. -/
def State.gport (s : State) (k : Nat) : GPort := Tab.get {} s.link.ports k
/-- Replace a port. -/
def setGport (k : Nat) (p : GPort) (s : State) : State := { s with link := { s.link with ports := Tab.put {} s.link.ports k p } }
/-- Change a port. -/
def modGport (k : Nat) (f : GPort → GPort) (s : State) : State := setGport k (f (s.gport k)) s
/-- Tell the far end in a LINK flit of a type, with the next LSEQ of that type; a LULL flit is sent twice (R457). -/
def linkFlit (k ltype : Nat) (what : String) (args : List Nat) (s : State) : State :=
  let n := Tab.get 0 (s.gport k).lseqOut ltype
  let copy := send (.link k what (n :: args))
  (if ltype = 3 then copy ∘ copy else copy) (modGport k (fun p => { p with lseqOut := Tab.put 0 p.lseqOut ltype (n + 1) }) s)
/-- The codes of Table GL-6. -/
def PortSt.code : PortSt → Nat
  | .down => 0 | .training => 1 | .miswired => 2 | .authFail => 3 | .probation => 4 | .up => 5 | .faulted => 6 | .offline => 7
/-- The service state of a port as a unit (spec/19_faults_and_recovery.md Table FR-3). -/
def PortSt.unit : PortSt → UnitSt
  | .down | .training | .miswired | .authFail => .absent
  | .probation => .probation | .up => .inService | .faulted => .faulted | .offline => .offline
/-- R459: a port changes its state: its vector is sent, and entering UP writes GUST_UP. -/
def setPortSt (k : Nat) (st : PortSt) (s : State) : State :=
  if (s.gport k).st = st then s
  else
    let s1 := sendMsix (208 + k) (setUnitSt 0x07 k st.unit (modGport k (fun p => { p with st := st }) s))
    if st = .up then logInfo 0x0701 0x07 k [k] s1 else s1
/-- The link of a port is up and the port is not MISWIRED. -/
def gustUsable (s : State) (k : Nat) : Bool := (s.gport k).st = .up

/-! ## Sealed channels (R461 to R465) -/

/-- Channel `c` of port `k`. -/
def State.chanOf (s : State) (k c : Nat) : SChan := Tab.get {} (s.gport k).chans c
/-- Change a channel. -/
def modSChan (k c : Nat) (f : SChan → SChan) (s : State) : State :=
  modGport k (fun p => { p with chans := Tab.put {} p.chans c (f (Tab.get {} p.chans c)) }) s
/-- What a handshake between two ends gives: its transcript, whether this end's message stands first in it, the ECDH secret
(R443, R460; log 172). -/
structure Handshake where
  transcript : List Byte
  first : Bool
  secret : List Byte
/-- The key of what this end sends, and of what it receives. -/
def Handshake.txKey (h : Handshake) : List Byte := Config.channelKey h.secret h.transcript h.first
def Handshake.rxKey (h : Handshake) : List Byte := Config.channelKey h.secret h.transcript (!h.first)
/-- Two messages in the order of the transcript. -/
def hsOrder (first : Bool) (own far : List Byte) : List Byte := if first then own ++ far else far ++ own
/-- A channel starts epoch 0 under fresh keys (R460, R465). -/
def newChannel (k c : Nat) (h : Handshake) (s : State) : State :=
  modSChan k c (fun x => { st := .up, held := x.held, txKey := h.txKey, rxKey := h.rxKey }) s
/-- R465: the keys of the epoch that follows. -/
def nextKeys (k c : Nat) (h : Handshake) (s : State) : State :=
  modSChan k c (fun x => { x with nextTx := h.txKey, nextRx := h.rxKey }) s
/-- The codes of GLK_STATE.SEALED. -/
def ChanSt.code : ChanSt → Nat
  | .none => 0 | .up => 1 | .hold => 2 | .down => 3
/-- The channels of a port that are in use: 0 on GP0 to GP10, the paired sessions on GP11. -/
def chanList (s : State) (k : Nat) : List Nat := if k = 11 then s.sealed.cx.map Prod.fst else [0]
/-- The fresh nonce and ephemeral private key of a handshake. -/
def hsNonce (s : State) : List Byte := (Config.drbg s.freeCtr).take 32
def hsEphem (s : State) : List Byte := (Config.drbg (s.freeCtr + 1)).take 48
/-- They have been drawn. -/
def hsDrawn (s : State) : State := { s with freeCtr := s.freeCtr + 2 }
/-- R193: the certificate chain of this die, and the signature that its identity key makes over a transcript. -/
def ownChain (s : State) : List Byte := deviceCerts (s.prot.idKey.getD [])
def ownSign (s : State) (transcript : List Byte) : List Byte := leBytes 96 (Config.ecdsaSign (s.prot.idKey.getD []) transcript).toNat

end Sys2Proof.Machine
end

