-- ==== Sys2Proof/Machine/LullOps.lean ====
section
/-!
DEFINITION. The named operations over Lull objects: the home's arbitration, notification, poisoning
(spec/09_multicast_eddy_objects.md R245 to R250).
-/
namespace Sys2Proof.Machine

/-- The object with an ID; none when it is FREE. -/
def State.obj (s : State) (o : Nat) : Option LObj := (s.lull.objs.find? fun e => e.1 = o).map Prod.snd
/-- Replace an object in its list, or add it. -/
def putObj (o : Nat) (x : LObj) (l : List (Nat × LObj)) : List (Nat × LObj) :=
  if l.any fun e => e.1 = o then l.map fun e => if e.1 = o then (o, x) else e else l ++ [(o, x)]
/-- Store an object. -/
def setObj (o : Nat) (x : LObj) (s : State) : State := { s with lull := { s.lull with objs := putObj o x s.lull.objs } }

/-- R213: the port that a Lull message takes to a package: the direct one, or while that is not UP the lowest mesh port that is, whose
package relays it. -/
def lullPort (s : State) (slot : Nat) : Option Nat :=
  (meshPort s.aon.slot.val slot :: List.range 7).find? fun k => (s.gport k).st = .up
/-- A Lull message (Table CO-5), EPOCH stamped at the edge router (R224). -/
def lullWord (op obj node slot cls : Nat) (resume epoch : Bool) (arg : Nat) : Nat :=
  op + obj * 2 ^ 4 + node % 128 * 2 ^ 18 + slot * 2 ^ 25 + cls * 2 ^ 28 + b2n resume * 2 ^ 30 + b2n epoch * 2 ^ 31 + arg % 2 ^ 32 * 2 ^ 32
/-- A Lull message crosses to a package; with no port UP it is lost. -/
def sendLull (slot : Nat) (word : Bool → Nat) (s : State) : State :=
  match lullPort s slot with
  | some k => linkFlit k 3 "LULL" [word (s.routerPar (gustNode k))] s
  | none => s
/-- The home sends a NOTIFY: status in [3:0], value or payload in [31:4] (Table CO-5); to a waiter of another package it crosses, with that
package in SLOT (DESIGN CHOICE, log 168). -/
def notify (slot node obj status value : Nat) (s : State) : State :=
  if slot = s.aon.slot.val then send (.notify node obj status value) s
  else sendLull slot (fun e => lullWord 15 obj node slot 0 false e (status + value * 16)) s
/-- NOTIFY to several waiters. -/
def notifyAll (obj status value : Nat) : List Waiter → State → State
  | [], s => s
  | w :: t, s => notifyAll obj status value t (notify w.slot w.node obj status value s)

/-- Status values of Table CO-6. -/
def lullOk : Nat := 0
def lullQueued : Nat := 1
def lullEmpty : Nat := 2
def lullPoisoned : Nat := 3
def lullRefused : Nat := 4
def lullOverflow : Nat := 5
def lullCancelled : Nat := 6
def lullNoSlot : Nat := 7

/-! ## Semaphores (R248) -/

/-- R248: an ACQUIRE of n with its class and RESUME bit is granted now. -/
def acquireOk (x : LObj) (cls n : Nat) (resume : Bool) : Bool :=
  let v := x.value.toNat
  n ≤ v && (cls = 0 || ((cls = 1 || cls = 2) && resume) || x.reserve ≤ v - n)

/-- The requester ID of the rotating pointer. -/
def requester (slot node : Nat) : Nat := slot * 256 + node
/-- How far a requester stands behind the pointer. -/
def ptrDist (ptr id : Nat) : Nat := (id + 2048 - ptr) % 2048
/-- R248: waiter `a` comes before waiter `b`: lower class, then the rotating pointer. -/
def waiterBefore (ptr : Nat) (a b : Waiter) : Bool :=
  a.cls < b.cls || (a.cls = b.cls && ptrDist ptr (requester a.slot a.node) ≤ ptrDist ptr (requester b.slot b.node))
/-- The waiters in the order in which they are granted. -/
def grantOrder (ptr : Nat) : List Waiter → List Waiter
  | [] => []
  | w :: t => (grantOrder ptr t).takeWhile (fun x => !waiterBefore ptr w x) ++ w :: (grantOrder ptr t).dropWhile fun x => !waiterBefore ptr w x

/-- Whether a waiter can be released now, and the object after it: an ACQUIRE takes its counts and moves the pointer. -/
def grantWaiter (x : LObj) (w : Waiter) : Option LObj :=
  match w.what with
  | .acquire n =>
    if acquireOk x w.cls n w.resume then
      some { x with value := x.value - BitVec.ofNat 64 n, ptr := (requester w.slot w.node + 1) % 2048 }
    else none
  | .wait _ => if x.kind = .semaphore ∧ x.value ≠ 0 then some x else none

/-- Grant the waiters of a semaphore that can be granted, in order: the object, and those released. -/
def grantAll : List Waiter → LObj → LObj × List Waiter
  | [], x => (x, [])
  | w :: t, x =>
    match grantWaiter x w with
    | some y => let r := grantAll t { y with waiters := y.waiters.filter (· ≠ w) }; (r.1, w :: r.2)
    | none => grantAll t x

/-! ## Setting an event, adding to a counter -/

/-- R246: SET of an EVENT: every waiter is notified with the payload; an auto-clear event clears once it has notified. -/
def eventSet (o payload : Nat) (s : State) : State :=
  match s.obj o with
  | none => s
  | some x =>
    if x.st = .poisoned then s
    else
      notifyAll o lullOk payload x.waiters
        (setObj o { x with payload := BitVec.ofNat 28 payload, waiters := []
                           value := if x.autoClear ∧ !x.waiters.isEmpty then 0 else 1 } s)

/-- An object triggers a window of the image that is current, or that waits for its switch (R205, R206). -/
def isTrigger (s : State) (o : Nat) : Bool :=
  (s.net.shadow.elim false fun img => img.windows.any fun w => w.1 = o)
    || (s.net.shadow.isNone && s.net.image.elim false fun img => img.windows.any fun w => w.1 = o)

/-- R205: SET of a trigger object: the home computes the opening turn. -/
def triggerSet (o : Nat) (s : State) : State :=
  if isTrigger s o then { s with net := { s.net with triggered := s.net.triggered ++ [(o, turnOf (s.now + 150), [])] } }
  else s

/-- The payload of a SET notification: the opening turn for the trigger of a window, the sender's payload otherwise (R250). -/
def setPayload (s : State) (o payload : Nat) : Nat :=
  if isTrigger s o then turnOf (s.now + 150) % 2 ^ 28 else payload

/-- A SET that reaches its home. -/
def lullSet (o payload : Nat) (s : State) : State := triggerSet o (eventSet o (setPayload s o payload) s)

/-- R246: a COUNTER takes a signed addend; waiters whose threshold is reached are notified. -/
def counterAdd (o : Nat) (a : Int) (s : State) : State :=
  match s.obj o with
  | none => s
  | some x =>
    let v := BitVec.ofInt 64 ((x.value.toNat : Int) + a)
    let hit := x.waiters.filter fun w => match w.what with | .wait t => t ≤ v.toNat | .acquire _ => false
    notifyAll o lullOk v.toNat hit (setObj o { x with value := v, waiters := x.waiters.filter fun w => w ∉ hit } s)

/-- The counter would leave the range 0 to 2^64 - 1: ADD answers OVERFLOW. -/
def addWraps (x : LObj) (a : Int) : Bool := (x.value.toNat : Int) + a < 0 || 2 ^ 64 ≤ (x.value.toNat : Int) + a

/-! ## Poisoning (R249) -/

/-- The waits of this package's agents on an object whose home is another package (R249). -/
def waitsAfar (s : State) (o : Nat) (x : LObj) : List Waiter :=
  if x.homeSlot = s.aon.slot.val then []
  else (s.lull.waits.filter fun w => w.2 = o).map fun w => { slot := s.aon.slot.val, node := w.1, cls := 0, resume := false, what := .wait 0 }
/-- R249: an object becomes POISONED: its waiters are released, one record is written. -/
def poisonObj (o cause : Nat) (s : State) : State :=
  match s.obj o with
  | none => s
  | some x =>
    if x.st = .poisoned then s
    else
      logUe .operation 0x0313 0x02 x.home [o, cause]
        (notifyAll o lullPoisoned 0 (x.waiters ++ waitsAfar s o x) (setObj o { x with st := .poisoned, waiters := [] } s))

/-- Poison several objects. -/
def poisonAll (cause : Nat) : List Nat → State → State
  | [], s => s
  | o :: t, s => poisonAll cause t (poisonObj o cause s)

/-- A unit is a participant of an object, or its home's router. -/
def objHolds (x : LObj) (ut inst : Nat) : Bool :=
  match ut with
  | 0x01 => x.nodes.getLsbD inst
  | 0x02 => x.nodes.getLsbD inst || x.home = inst
  | 0x0D => x.ring.getLsbD inst
  | 0x08 => x.ring.getLsbD (8 + inst)
  | _ => false

/-- R249, R508 step 3: a fence poisons the objects that hold the unit; the system objects are never poisoned by it (R250). -/
def poisonFor (ut inst cause : Nat) (s : State) : State :=
  poisonAll cause ((s.lull.objs.filter fun e => 64 ≤ e.1 && objHolds e.2 ut inst).map Prod.fst) s

/-- R249, R513: a package of the tray is lost: tray-wide objects that it takes part in or homes become POISONED. -/
def poisonPeer (slot cause : Nat) (s : State) : State :=
  poisonAll cause
    ((s.lull.objs.filter fun e => 64 ≤ e.1 && e.2.tray && (e.2.pkgs.getLsbD slot || e.2.homeSlot = slot)).map Prod.fst) s

end Sys2Proof.Machine
end

