-- ==== Sys2Proof/Machine/EddyOps.lean ====
section
/-!
DEFINITION. Eddy arithmetic and the named operations over reductions (spec/09_multicast_eddy_objects.md R238 to R244).
-/
namespace Sys2Proof.Machine

/-! ## FP32 addition, round to nearest even, subnormals kept (R238) -/

/-- The quiet NaN that every NaN result becomes. -/
def qnan : Nat := 0x7FC00000
/-- The bits are a NaN. -/
def isNan (x : Nat) : Bool := x / 2 ^ 23 % 256 = 255 && x % 2 ^ 23 ≠ 0
/-- The bits are an infinity. -/
def isInf (x : Nat) : Bool := x / 2 ^ 23 % 256 = 255 && x % 2 ^ 23 = 0
/-- The sign bit. -/
def fSign (x : Nat) : Bool := x / 2 ^ 31 % 2 = 1
/-- The magnitude of a finite value in units of 2^-149. -/
def fMag (x : Nat) : Nat :=
  let e := x / 2 ^ 23 % 256
  if e = 0 then x % 2 ^ 23 else (2 ^ 23 + x % 2 ^ 23) * 2 ^ (e - 1)
/-- The value of a finite number in units of 2^-149. -/
def fVal (x : Nat) : Int := if fSign x then -(fMag x : Int) else fMag x

/-- Divide by 2^k, rounding to nearest even. -/
def roundShift (m k : Nat) : Nat :=
  let q := m / 2 ^ k
  let r := m % 2 ^ k
  if k = 0 then m else if r * 2 < 2 ^ k then q else if 2 ^ k < r * 2 then q + 1 else q + q % 2

/-- The FP32 magnitude nearest to m units of 2^-149; a magnitude of 2^128 or more becomes infinity. -/
def fRound (m : Nat) : Nat :=
  if m < 2 ^ 24 then m
  else
    let k := Nat.log2 m - 23
    let q := roundShift m k
    let bits := k * 2 ^ 23 + q
    if 0x7F800000 ≤ bits then 0x7F800000 else bits

/-- FP32 addition. -/
def fadd (a b : Nat) : Nat :=
  if isNan a || isNan b then qnan
  else if isInf a && isInf b then (if fSign a = fSign b then a else qnan)
  else if isInf a then a
  else if isInf b then b
  else
    let v := fVal a + fVal b
    if v = 0 then (if fSign a && fSign b then 2 ^ 31 else 0)
    else if v < 0 then 2 ^ 31 + fRound v.natAbs
    else fRound v.natAbs

/-- FP32 rounded to BF16, round to nearest even; a NaN becomes 0x7FC0. -/
def toBf16 (x : Nat) : Nat := if isNan x then 0x7FC0 else roundShift x 16

/-! ## Elements (Table CO-3) -/

/-- Bytes of one element. -/
def elemSize (typ : Nat) : Nat := if typ = 1 then 2 else if typ = 4 then 8 else 4

/-- Little-endian elements of `k` bytes. -/
def elems (k : Nat) : Nat → List Byte → List Nat
  | 0, _ => []
  | n + 1, l => if l.isEmpty then [] else leNat (l.take k) :: elems k n (l.drop k)

/-- An operand as it enters the Eddy: BF16 widened to FP32, INT32 signed, MOD61 reduced once, -1 for an operand of 2^61 or
more (R239). -/
def enterElem (typ p x : Nat) : Int :=
  if typ = 1 then ((x * 65536 : Nat) : Int)
  else if typ = 3 then (BitVec.ofNat 32 x).toInt
  else if typ = 4 then (if 2 ^ 61 ≤ x then -1 else if p ≤ x then ((x - p : Nat) : Int) else (x : Int))
  else (x : Int)

/-- One addition inside the Eddy. -/
def addElem (typ p : Nat) (a b : Int) : Int :=
  if typ = 3 then a + b
  else if typ = 4 then (if a < 0 ∨ b < 0 then -1 else if (p : Int) ≤ a + b then a + b - p else a + b)
  else (fadd a.toNat b.toNat : Nat)

/-- The additions of two partials, element by element. -/
def addBlock (typ p : Nat) (a b : List Int) : List Int := List.zipWith (addElem typ p) a b

/-- The largest power of two below n. -/
def powBelow (n : Nat) : Nat := 2 ^ Nat.log2 (n - 1)

/-- R240: the logical tree over the contributions in index order. -/
def treeReduce (typ p : Nat) : Nat → List (List Int) → List Int
  | _, [] => []
  | _, [x] => x
  | 0, x :: _ => x
  | fuel + 1, l =>
    let k := powBelow l.length
    addBlock typ p (treeReduce typ p fuel (l.take k)) (treeReduce typ p fuel (l.drop k))

/-- The flags that one final element sets: bit 0 INT_OVF, 1 NAN, 2 RANGE, 3 INF. -/
def elemFlags (typ : Nat) (wide : Bool) (v : Int) : Nat :=
  if typ = 3 then (if v < -(2 ^ 31) ∨ 2 ^ 31 ≤ v then 1 else 0)
  else if typ = 4 then (if v < 0 then 4 else 0)
  else if isNan v.toNat then 2
  else if isInf v.toNat || (typ = 1 && !wide && toBf16 v.toNat % 32768 = 0x7F80) then 8
  else 0

/-- The bytes of one final element. -/
def leaveElem (typ : Nat) (wide : Bool) (v : Int) : List Byte :=
  if typ = 1 && !wide then leBytes 2 (toBf16 v.toNat)
  else if typ = 3 then leBytes 4 (BitVec.ofInt 32 v).toNat
  else if typ = 4 then (if v < 0 then List.replicate 8 0xFF else leBytes 8 v.toNat)
  else leBytes 4 (if isNan v.toNat then qnan else v.toNat)

/-- The contributions of a block in index order. -/
def inOrder (n : Nat) (got : List (Nat × List Byte)) : List (List Byte) :=
  (List.range n).filterMap fun i => (got.find? fun g => g.1 = i).map Prod.snd

/-- R240, R241: the partial sum that the root holds once every contribution has arrived. In arrival-order mode the sums of
BF16 and FP32 depend on how Eddies met: each element is then a free value; the sums of the exact types do not. -/
def blockSum (g : RedGroup) (draw : Nat) (got : List (Nat × List Byte)) : List Int :=
  let l := (inOrder g.contribs.length got).map fun b => (elems (elemSize g.typ) 4096 b).map (enterElem g.typ g.modulus)
  let v := treeReduce g.typ g.modulus g.contribs.length l
  if g.arrival && (g.typ = 1 || g.typ = 2) && 2 < g.contribs.length then
    (List.range v.length).map fun i => ((Config.arrivalSum draw i % 2 ^ 32 : Nat) : Int)
  else v

/-- The flags of a block. -/
def blockFlags (g : RedGroup) (v : List Int) : BitVec 4 :=
  v.foldl (fun f x => f ||| BitVec.ofNat 4 (elemFlags g.typ g.wide x)) 0
/-- The result bytes of a block. -/
def blockBytes (g : RedGroup) (v : List Int) : List Byte := v.flatMap (leaveElem g.typ g.wide)

/-! ## Groups and instances -/

/-- A reduction group. -/
def State.redGroup (s : State) (g : Nat) : Option RedGroup := (s.coll.red.find? fun e => e.1 = g).map Prod.snd
/-- Replace a reduction group. -/
def setRed (g : Nat) (r : RedGroup) (s : State) : State :=
  { s with coll := { s.coll with red := s.coll.red.map fun e => if e.1 = g then (g, r) else e } }

/-- Table CO-2: the completion payload. -/
def redPayload (inst status flags contrib blocks : Nat) : Nat :=
  inst % 16 + 16 * status + 128 * flags + 2048 * contrib + 2 ^ 21 * blocks

/-- Result blocks delivered so far. -/
def deliveredCount (i : RedInst) : Nat := i.blocks.countP fun e => e.2.delivered

/-- R244: an instance ends without a result: its partials are discarded, its completion event is set with the status. -/
def failInst (g inst status contrib : Nat) (note : State → State) (s : State) : State :=
  match s.redGroup g with
  | none => s
  | some r =>
    let i := Tab.get { started := 0 } r.insts inst
    let ended : RedInst := { started := i.started, failed := true, flags := i.flags }
    lullSet r.done (redPayload inst status i.flags.toNat contrib (deliveredCount i))
      (note (setRed g { r with insts := Tab.ins r.insts inst ended } s))

/-- The instances of a group that are under way. -/
def liveInsts (r : RedGroup) : List Nat := (r.insts.filter fun e => !e.2.failed).map Prod.fst

/-- The unit behind a contributor's port. -/
def contribUnit (c : Nat × Nat × Nat) : Nat × Nat :=
  match c.2.2 with
  | 5 | 6 => (0x05, mcAt c.2.1 / 2) | 7 => (0x07, gustAt c.2.1) | 8 => (0x08, gatewayAt c.2.1) | 9 => (0x0C, vaneAt c.2.1) | 0xB => (0x03, c.2.1)
  | _ => (0x01, c.2.1)
/-- An instance has not yet had contributor `c`'s last block. -/
def stillOwes (r : RedGroup) (inst c : Nat) : Bool :=
  c ∉ (Tab.get { started := 0 } r.insts inst).last

/-- The first contributor of a group that a condition names. -/
def firstContrib (r : RedGroup) (p : Nat × Nat × Nat → Bool) : Option Nat :=
  (List.range r.contribs.length).find? fun i => p (r.contribs.getD i (0, 0, 0))
/-- The first contributor lost to an instance: the lowest that a condition names whose last block has not arrived. -/
def firstLost (r : RedGroup) (inst : Nat) (p : Nat × Nat × Nat → Bool) : Option Nat :=
  (List.range r.contribs.length).find? fun i => p (r.contribs.getD i (0, 0, 0)) && stillOwes r inst i
/-- R244: the instances of a group lose the contributors that a condition names. -/
def loseContrib (g : Nat) (p : Nat × Nat × Nat → Bool) : List Nat → State → State
  | [], s => s
  | i :: t, s =>
    loseContrib g p t (match (s.redGroup g).bind fun r => firstLost r i p with
      | some c => failInst g i 1 c (logUe .operation 0x0310 0x13 g [g, i, 1, c]) s
      | none => s)
/-- R244: contributors that a condition names are lost to every group. -/
def loseContribs (p : Nat × Nat × Nat → Bool) : List (Nat × RedGroup) → State → State
  | [], s => s
  | e :: t, s => loseContribs p t (loseContrib e.1 p (liveInsts e.2) s)

/-- R508 step 4: the contributions of a fenced unit, or of what stands behind a fenced router, are lost. -/
def loseUnitContribs (ut inst : Nat) (s : State) : State :=
  loseContribs (fun c => c.1 = s.aon.slot.val && (contribUnit c = (ut, inst) || (ut = 0x02 && c.2.1 = inst))) s.coll.red s
/-- R513: a package's contributions are lost. -/
def losePeerContribs (slot : Nat) (s : State) : State := loseContribs (fun c => c.1 = slot) s.coll.red s

/-- R242: Eddy buffers reserved at a router. -/
def eddyUsed (s : State) (node : Nat) : Nat :=
  (s.coll.red.map fun e => ((e.2.tree.filter fun t => t.1 = node).map fun t => 2 * t.2).sum).sum

end Sys2Proof.Machine
end

