-- ==== Sys2Proof/Machine/MmuOps.lean ====
section
/-!
DEFINITION. The named operations of the Stack MMU: page-table walks, cached translations, translation faults, invalidations,
accesses by device virtual address (spec/12_translation_dma_preemption.md R312 to R323).
-/
namespace Sys2Proof.Machine

/-- An access that asks for a translation: partition, DVA, what it wants, the requester as a record names it. -/
structure Access where
  part : Nat
  dva : Nat
  write : Bool := false
  host : Bool := false
  remote : Bool := false
  ut : Nat := 0
  inst : Nat := 0
  tag : Nat := 0
  context : Nat := 0
  deriving DecidableEq, Repr

/-! ## Causes (Table TD-6) -/

/-- NOT_MAPPED and the other causes, by their codes. -/
def notMapped : Nat := 1
def writeDenied : Nat := 2
def hostDenied : Nat := 3
def remoteDenied : Nat := 4
def badFormat : Nat := 5
def badTarget : Nat := 6
def notOwner : Nat := 7
def tableOwner : Nat := 8
def tableUe : Nat := 9
def badRequester : Nat := 10
def badPart : Nat := 11

/-! ## Walks (R314 to R318) -/

/-- R317: a frame is a TABLE frame of a partition. -/
def tableFrame (s : State) (f p : Nat) : Bool := (s.frame f).use = .held && ((s.frame f).table && (s.frame f).part = p)
/-- R316, R317: a frame belongs to a partition, so that its leaves may name it: SYSTEM and FREE frames belong to none. -/
def ownsFrame (s : State) (f p : Nat) : Bool := (s.frame f).use = .held && (s.frame f).part = p

/-- The shift of the index at a level. -/
def levelShift (l : Nat) : Nat := ([39, 30, 21, 16, 12] : List Nat).getD l 12
/-- The index of a DVA at a level. -/
def levelIndex (l dva : Nat) : Nat := dva / 2 ^ levelShift l % ([512, 512, 512, 32, 16] : List Nat).getD l 16
/-- The page size of a leaf at a level. -/
def leafSize (l : Nat) : Nat := 2 ^ levelShift l
/-- The level at which a leaf of a size stands. -/
def leafLevel (size : Nat) : Nat := if size = leafSize 2 then 2 else if size = leafSize 3 then 3 else 4
/-- The alignment of the table that an entry of a level points to (Table TD-2). -/
def nextAlign (l : Nat) : Nat := if l < 2 then 4096 else 256

/-- Table TD-3: an entry is well formed at its level. -/
def entryOk (l e : Nat) : Bool :=
  let leaf := e / 2 % 2 = 1
  let addr := e / 256 % 2 ^ 40 * 256
  e / 32 % 8 = 0 && (e / 2 ^ 48 = 0 &&
    if leaf then 2 ≤ l && addr % leafSize l = 0
    else l < 4 && (e / 4 % 8 = 0 && addr % nextAlign l = 0))

/-- Table TD-4: the page lies wholly in one range at a size that the range allows. -/
def targetOk (dpa size : Nat) : Bool :=
  if dpa + size ≤ hbmEnd then true
  else if sliceBase ≤ dpa && dpa + size ≤ sliceEnd then
    size ≤ 65536 && (dpa % 2 ^ 22 + size ≤ sliceUnits * 16384)
  else driftBase ≤ dpa && (dpa + size ≤ driftEnd && size = 65536)
/-- The drift tier holds a DPA. -/
def isDrift (dpa : Nat) : Bool := driftBase ≤ dpa && dpa < driftEnd
/-- R318 check 6: every frame or unit that the page touches is the partition's. No command of this interface version grants a
drift page to a partition (spec/14_pages_prefixes_adapters_drift.md R388). -/
def ownerOk (s : State) (p dpa size : Nat) : Bool :=
  if dpa < hbmEnd then (List.range (ceilDiv size 65536)).all fun i => ownsFrame s (dpa / 65536 + i) p
  else if dpa < sliceEnd then
    (List.range (ceilDiv size 16384)).all fun i =>
      s.unitPart ((dpa - sliceBase) / 2 ^ 22) (dpa % 2 ^ 22 / 16384 + i) = some p
  else false
/-- R316, R318 check 7: only DMA channels and the serving pipeline use the drift tier. -/
def requesterOk (a : Access) (dpa : Nat) : Bool := !isDrift dpa || (a.ut = 0x0A || a.ut = 0x0E)

/-- Check 8 on a translation: none where the access is allowed. -/
def denied (a : Access) (e : TlbEntry) : Option Nat :=
  if a.write && !e.wr then some writeDenied
  else if a.host && !e.host then some hostDenied
  else if a.remote && !e.rmt then some remoteDenied
  else none

/-- The checks at a leaf: a fault cause, or the translation. -/
def leafChecks (s : State) (a : Access) (l e : Nat) : Except (Nat × Nat) TlbEntry :=
  let size := leafSize l
  let dpa := e / 256 % 2 ^ 40 * 256
  let t : TlbEntry := { part := a.part, dva := a.dva / size * size, dpa := dpa, size := size, wr := e / 4 % 2 = 1,
                        host := e / 8 % 2 = 1 && partKind s a.part ≠ .vault, rmt := e / 16 % 2 = 1 }
  if !targetOk dpa size then .error (badTarget, l)
  else if !ownerOk s a.part dpa size then .error (notOwner, l)
  else if !requesterOk a dpa then .error (badRequester, l)
  else match denied a t with
    | some c => .error (c, l)
    | none => .ok t

/-- R318: the walk from level `l` with `k` levels left, from the table at a DPA. -/
def walkFrom (a : Access) : Nat → Nat → Nat → State → Except (Nat × Nat) TlbEntry × State
  | 0, l, _, s => (.error (badFormat, l), s)
  | k + 1, l, tbl, s =>
    let at_ := tbl + 8 * levelIndex l a.dva
    if !tableFrame s (at_ / 65536) a.part then (.error (tableOwner, l), s)
    else
      let r := memRead at_ 8 s
      match r.1 with
      | none => (.error (tableUe, l), r.2)
      | some b =>
        let e := leNat b
        if e % 2 = 0 then (.error (notMapped, l), r.2)
        else if !entryOk l e then (.error (badFormat, l), r.2)
        else if e / 2 % 2 = 1 then (leafChecks r.2 a l e, r.2)
        else walkFrom a k (l + 1) (e / 256 % 2 ^ 40 * 256) r.2

/-- R318: a walk of a partition's tables. No ROOT entry from 384 up is read (R372). -/
def walk (a : Access) (s : State) : Except (Nat × Nat) TlbEntry × State :=
  if 0xC00000000000 ≤ a.dva then (.error (notMapped, 0), s)
  else match Tab.get none s.mmu.roots a.part with
    | none => (.error (tableOwner, 0), s)
    | some f => walkFrom a 5 0 (f * 65536) s

/-! ## Faults (R321, R322) -/

/-- ACCESS of a fault record. -/
def accessBits (a : Access) : Nat := b2n a.write + 2 * b2n a.host + 4 * b2n a.remote
/-- A fault record enters the queue of a partition, or counts as overflow. -/
def pushFault (p : Nat) (r : FaultRec) (s : State) : State :=
  let q := Tab.get {} s.mmu.queues p
  let put := fun (x : FaultQ) => ({ s with mmu := { s.mmu with queues := Tab.put {} s.mmu.queues p x } } : State)
  if q.recs.length < 64 then
    put { q with recs := q.recs ++ [{ r with fseq := q.seq }], seq := (q.seq + 1) % 65536 }
  else logLimitedAt p 1000000000 .info 0x0421 0x00 0 [p] .none (put { q with ovf := q.ovf + 1 })
/-- The record of a fault. -/
def faultRec (a : Access) (cause level : Nat) (s : State) : FaultRec :=
  { ts := s.now, dva := a.dva, part := a.part, cause := cause, access := accessBits a, level := level, ut := a.ut, inst := a.inst,
    tag := a.tag, context := a.context }
/-- R321: a translation fault: its record, vector 16 + partition, MMU_FAULT. -/
def mmuFault (a : Access) (cause level : Nat) (s : State) : State :=
  logLimitedAt a.part 10000000 .ue 0x0420 a.ut a.inst [a.part, cause, a.dva] .operation
    (sendMsix (16 + a.part) (pushFault a.part (faultRec a cause level s) s))

/-! ## Translation points (R313, R216, R217) -/

/-- The gateway of a node's quarter and half. -/
def homeGateway (node : Nat) : Nat := nodeX node / 4 + (if nodeY node ≤ 3 then 0 else 4)
/-- R217: the gateway that serves a node; the choice changes at an epoch switch only. -/
def gatewayFor (s : State) (node : Nat) : Nat :=
  let g := homeGateway node
  let up := fun g => s.net.gwLive.getLsbD g
  if up g then g
  else if up ((g + 4) % 8) then (g + 4) % 8
  else
    let row := (List.range 4).map fun i => i + g / 4 * 4
    let dist := fun (i : Nat) => (nodeX (gatewayNode i) - nodeX node) + (nodeX node - nodeX (gatewayNode i))
    row.foldl (fun m i => if !up i || (up m && dist m ≤ dist i) then m else i) g
/-- The node at which a DPA is served. -/
def targetNode (s : State) (dpa : Nat) : Nat :=
  if dpa < hbmEnd then
    match ctrlAddr s dpa with
    | none => 0
    | some (mc, a) => (mcPort s mc (a / 4096)).1
  else if sliceBase ≤ dpa && dpa < sliceEnd then (dpa - sliceBase) / 2 ^ 22
  else 0
/-- The capacity of a cache: 512 at a cluster port, 4,096 at a gateway. -/
def tlbSize (point : Nat) : Nat := if point < 128 then 512 else 4096
/-- Fill a cache; a full one loses its oldest entry (DESIGN CHOICE, log 25). -/
def fillTlb (point : Nat) (e : TlbEntry) (s : State) : State :=
  { s with mmu := { s.mmu with tlb := Tab.put [] s.mmu.tlb point ((e :: Tab.get [] s.mmu.tlb point).take (tlbSize point)) } }
/-- A cached translation of an access at a point. -/
def tlbHit (s : State) (point : Nat) (a : Access) : Option TlbEntry :=
  (Tab.get [] s.mmu.tlb point).find? fun e => e.part = a.part && (e.dva ≤ a.dva && a.dva < e.dva + e.size)
/-- The points an access may find its translation at: the one named, or for a ring agent the gateway of the target. -/
def tlbFind (s : State) (point : Option Nat) (a : Access) : Option TlbEntry :=
  match point with
  | some p => tlbHit s p a
  | none => (List.range 8).findSome? fun g => tlbHit s (128 + g) a

/-- Translate: by a cached translation, else by a walk, which fills the cache only when it passes every check. The answer is the
DPA, or the cause and level of the fault. -/
def translateAt (point : Option Nat) (a : Access) (s : State) : Except (Nat × Nat) Nat × State :=
  match tlbFind s point a with
  | some e =>
    if !requesterOk a e.dpa then (.error (badRequester, leafLevel e.size), s)
    else match denied a e with
      | some c => (.error (c, leafLevel e.size), s)
      | none => (.ok (e.dpa + (a.dva - e.dva)), s)
  | none =>
    let r := walk a s
    match r.1 with
    | .error c => (.error c, r.2)
    | .ok e => (.ok (e.dpa + (a.dva - e.dva)), fillTlb (point.getD (128 + gatewayFor r.2 (targetNode r.2 e.dpa))) e r.2)

/-- Translate for a ring agent, with the fault record when it fails: the cause, or the DPA. -/
def translate (a : Access) (s : State) : Except Nat Nat × State :=
  let r := translateAt none a s
  match r.1 with
  | .ok d => (.ok d, r.2)
  | .error (c, l) => (.error c, mmuFault a c l r.2)

/-- Why an access by DVA failed: a translation fault with its cause, or an error response. -/
inductive DvaErr | fault (cause : Nat) | mem
  deriving DecidableEq, Repr

/-- Read by DVA, page piece by page piece of 4 KiB. -/
def dvaReadFrom (a : Access) : Nat → Nat → Nat → State → Except DvaErr (List Byte) × State
  | 0, _, _, s => (.ok [], s)
  | k + 1, dva, n, s =>
    if n = 0 then (.ok [], s)
    else
      let m := min n (4096 - dva % 4096)
      let t := translate { a with dva := dva } s
      match t.1 with
      | .error c => (.error (.fault c), t.2)
      | .ok d =>
        let r := memRead d m t.2
        match r.1 with
        | none => (.error .mem, r.2)
        | some b =>
          let u := dvaReadFrom a k (dva + m) (n - m) r.2
          (u.1.map fun x => b ++ x, u.2)
/-- Read `n` bytes at a DVA. -/
def dvaRead (a : Access) (n : Nat) (s : State) : Except DvaErr (List Byte) × State := dvaReadFrom a (n / 4096 + 2) a.dva n s
/-- Write by DVA. -/
def dvaWriteFrom (a : Access) : Nat → Nat → List Byte → State → Option DvaErr × State
  | 0, _, _, s => (none, s)
  | _ + 1, _, [], s => (none, s)
  | k + 1, dva, b, s =>
    let m := min b.length (4096 - dva % 4096)
    let t := translate { a with dva := dva, write := true } s
    match t.1 with
    | .error c => (some (.fault c), t.2)
    | .ok d =>
      let r := memWrite d (b.take m) t.2
      if r.1 then dvaWriteFrom a k (dva + m) (b.drop m) r.2 else (some .mem, r.2)
/-- Write bytes at a DVA: none where every byte is acknowledged. -/
def dvaWrite (a : Access) (b : List Byte) (s : State) : Option DvaErr × State := dvaWriteFrom a (b.length / 4096 + 2) a.dva b s

/-! ## Invalidations (R319, R320) -/

/-- A partition has an active static window. -/
def partInWindow (s : State) (p : Nat) : Bool :=
  s.net.image.elim false fun img => s.net.windows.any fun w => !w.broken && (windowStreams img w.idx).any fun x => x.part = p
/-- Begin an invalidation, or let it wait for the close of the partition's windows. -/
def startInval (i : Inval) (s : State) : State :=
  { s with mmu := { s.mmu with inval := s.mmu.inval ++ [{ i with started := !partInWindow s i.part, since := s.now }] } }
/-- Invalidations that waited for windows begin (R320). -/
def releaseInvals (s : State) : State :=
  { s with mmu := { s.mmu with inval := s.mmu.inval.map fun i =>
      if i.started || partInWindow s i.part then i else { i with started := true, since := s.now } } }
/-- Two ranges meet. -/
def rangesMeet (a n b m : Nat) : Bool := a < b + m && b < a + n
/-- An invalidation drops a cached translation. -/
def invalHits (i : Inval) (e : TlbEntry) : Bool :=
  if i.byDpa then rangesMeet e.dpa e.size i.lo i.len else e.part = i.part && rangesMeet e.dva e.size i.lo i.len
/-- Drop the cached translations that a condition names. -/
def dropTlb (p : TlbEntry → Bool) (s : State) : State :=
  { s with mmu := { s.mmu with tlb := (s.mmu.tlb.map fun e => (e.1, e.2.filter fun x => !p x)).filter fun e => !e.2.isEmpty } }

/-! ## Root frames (R312) -/

/-- A frame becomes the root of a partition: a zeroed TABLE frame that no quota counts. -/
def setRoot (p f : Nat) (s : State) : State :=
  let s1 := setFrame f { use := .held, part := p, table := true } s
  { s1 with mmu := { s1.mmu with roots := Tab.put none s1.mmu.roots p (some f) } }

end Sys2Proof.Machine
end

