-- ==== Sys2Proof/Machine/DmaOps.lean ====
section
/-!
DEFINITION. The named operations of the DMA channels: descriptors, chunks, the watermark, status areas, stops
(spec/12_translation_dma_preemption.md R327 to R333).
-/
namespace Sys2Proof.Machine

/-- DMA channel `d`. -/
def State.dchan (s : State) (d : Nat) : DmaChan := Tab.get {} s.dma.chan d
/-- Replace a channel. -/
def setChan (d : Nat) (c : DmaChan) (s : State) : State := { s with dma := { s.dma with chan := Tab.put {} s.dma.chan d c } }
/-- Change a channel. -/
def modChan (d : Nat) (f : DmaChan → DmaChan) (s : State) : State := setChan d (f (s.dchan d)) s

/-- An access of a channel: CONTEXT holds the channel and the ring index. -/
def dmaAccess (s : State) (d dva : Nat) (write : Bool) : Access :=
  { part := dmaPart s d, dva := dva, write := write, ut := 0x0A, inst := d, context := d + 64 * (s.dchan d).head }

/-- Table TD-8: a descriptor from its 64 bytes. -/
def decodeDesc (b : List Byte) : Desc :=
  { op := leAt b 0 1, flags := leAt b 1 1, srcSpace := leAt b 2 1, dstSpace := leAt b 3 1, len := leAt b 4 4, src := leAt b 8 8,
    dst := leAt b 16 8, port := leAt b 24 1, pattern := leAt b 28 4, obj := leAt b 32 2 % 16384, lullOp := leAt b 34 1,
    req := leAt b 40 4 }

/-- The number of descriptors of a ring. -/
def DmaChan.size (c : DmaChan) : Nat := 2 ^ c.log2
/-- The watermark DONE_BYTES: everything below the lowest chunk not acknowledged (R330). -/
def DmaChan.watermark (c : DmaChan) : Nat :=
  (c.flight.map Chunk.off ++ c.failAt.toList).foldl min c.next

/-- Table TD-9: the 16 bytes of the status area. -/
def statusArea (status detail mark now : Nat) : List Byte :=
  leBytes 1 status ++ leBytes 1 detail ++ leBytes 2 0 ++ leBytes 4 mark ++ leBytes 8 now

/-- R331: write the status area into the descriptor's own slot; the answer is whether it was written. -/
def writeStatus (d status detail mark : Nat) (s : State) : Bool × State :=
  let c := s.dchan d
  let r := dvaWrite (dmaAccess s d (c.base + 64 * c.head + 48) true) (statusArea status detail mark s.now) s
  match r.1 with
  | none => (true, modChan d (fun c => { c with last := ((status, detail, mark, s.now) :: c.last).take 16 }) r.2)
  | some _ => (false, modChan d (fun c => { c with st := .faulted }) r.2)

/-- R331: SIGNAL operates on the Lull object of the partition's range: SET (payload 0, log 26) or ADD 1. -/
def dmaSignal (p : Nat) (x : Desc) (s : State) : State :=
  if x.flags / 2 % 2 = 1 && lullPart s x.obj = p then
    match s.obj x.obj with
    | some o =>
      if x.lullOp = 6 && o.kind = .event then lullSet x.obj 0 s
      else if x.lullOp = 8 && (o.kind = .counter && o.st = .ready) then counterAdd x.obj 1 s
      else s
    | none => s
  else s

/-- The ring head moves past a descriptor. -/
def DmaChan.advance (c : DmaChan) : DmaChan :=
  { c with head := (c.head + 1) % c.size, cur := none, begun := false, next := 0, flight := [], stops := [], failAt := none, tlbi := false }

/-- R331: a final status: the status area, then IRQ and SIGNAL, then the head. -/
def dmaFinal (d status detail mark : Nat) (s : State) : State :=
  let x := (s.dchan d).cur.getD (decodeDesc [])
  let w := writeStatus d status detail mark s
  if w.1 then
    let s1 := if x.flags % 2 = 1 then sendMsix (80 + d) w.2 else w.2
    modChan d DmaChan.advance (dmaSignal (dmaPart s d) x s1)
  else w.2

/-- R332: CANCEL_REQ has named the request of a descriptor. -/
def reqCancelled (s : State) (p req : Nat) : Bool := (p, req) ∈ s.dma.cancelled

/-- R328: a running channel without a current descriptor takes the next of its ring; one of a cancelled request ends CANCELLED,
one with a reserved OP BAD_DESC, as it is reached. The channel is IDLE when its ring is empty. -/
def dmaFetch (d : Nat) : Nat → State → State
  | 0, s => s
  | k + 1, s =>
    let c := s.dchan d
    if c.st ≠ .running || c.cur.isSome then s
    else if c.head = c.tail then setChan d { c with st := .idle } s
    else
      let r := dvaRead (dmaAccess s d (c.base + 64 * c.head) false) 64 s
      match r.1 with
      | .error (.fault _) => modChan d (fun c => { c with st := .faulted }) r.2
      | .error .mem => modChan d (fun c => { c with st := .error }) r.2
      | .ok b =>
        let x := decodeDesc b
        let s1 := modChan d (fun c => { c with cur := some x, begun := false, next := 0, failAt := none }) r.2
        if reqCancelled s1 (dmaPart s1 d) x.req && x.req ≠ 0x1FFFFF then dmaFetch d k (dmaFinal d 4 0 0 s1)
        else if x.op = 0 || 4 < x.op then dmaFetch d k (dmaFinal d 9 0x10 0 s1)
        else s1
/-- Fetch, with fuel for a whole ring. -/
def dmaRun (d : Nat) (s : State) : State := dmaFetch d 4097 s

/-- A space holds no DVA. -/
def offDie (x : Nat) : Bool := x ≠ 0
/-- R329: why a descriptor is refused: the detail of the first case that holds. -/
def descRefusal (s : State) (p : Nat) (x : Desc) : Option Nat :=
  let move := x.op = 1 || x.op = 2
  let src := if x.op = 1 then x.srcSpace else 0
  let dst := if move then x.dstSpace else 0
  let remote := x.srcSpace = 2 || x.dstSpace = 2
  firstFail
    [failIf (2 < src || (2 < dst || ((src = 1 && dst = 1) || ((src = 2 && dst = 2) || ((remote && (move && 11 ≤ x.port))
        || (((x.op = 2 || x.op = 3) && remote) || (partKind s p = .vault && (offDie src || offDie dst)))))))) 0x11,
     failIf (x.op ≠ 4 && (x.len = 0 || (2 ^ 30 < x.len || ((src = 1 && (x.src % 4 ≠ 0 || x.len % 4 ≠ 0))
        || (dst = 1 && (x.dst % 4 ≠ 0 || x.len % 4 ≠ 0)))))) 0x12,
     failIf (x.op = 1 && (src = 0 && (dst = 0 && (x.src < x.dst + x.len && x.dst < x.src + x.len)))) 0x13,
     failIf (x.flags / 2 % 2 = 1 && lullPart s x.obj ≠ p) 0x14,
     failIf (0x200000 ≤ x.req) 0x15]

/-- R330: the length of the chunk at an offset: it crosses no 4 KiB boundary of either end. -/
def chunkLen (x : Desc) (off : Nat) : Nat :=
  let left := x.len - off
  let d := min left (4096 - (x.dst + off) % 4096)
  if x.op = 1 then min d (4096 - (x.src + off) % 4096) else d

/-- Translate one end of a chunk; HOST and REMOTE ends carry their own addresses. -/
def chunkEnd (d space addr : Nat) (write : Bool) (s : State) : Except Nat (Option Nat) × State :=
  if space = 0 then
    let r := translate (dmaAccess s d addr write) s
    (r.1.map some, r.2)
  else (.ok none, s)

/-- R330: issue chunks in order, up to 16 in flight; the first that does not translate stops the channel with its cause. A port
that has left service stops it with LINK_DOWN, a host that may not be asked with HOST_ERR (R470). -/
def issueChunks (d : Nat) : Nat → State → State
  | 0, s => s
  | k + 1, s =>
    let c := s.dchan d
    match c.cur with
    | none => s
    | some x =>
      if c.st ≠ .running || (!c.begun || (!c.stops.isEmpty || (16 ≤ c.flight.length || x.len ≤ c.next))) then s
      else if (x.srcSpace = 2 || x.dstSpace = 2) && !carrying s 0x07 x.port then
        logUe .operation 0x0433 0x0A d [d, 8, x.src + c.next, x.dst + c.next]
          (modChan d (fun c => { c with stops := [.stop 8 0], failAt := some c.next }) s)
      else if ((x.op = 1 && x.srcSpace = 1) || x.dstSpace = 1) && !s.hostReady then
        logUe .operation 0x0433 0x0A d [d, 5, x.src + c.next, x.dst + c.next]
          (modChan d (fun c => { c with stops := [.stop 5 0], failAt := some c.next }) s)
      else
        let n := chunkLen x c.next
        let a := if x.op = 1 then chunkEnd d x.srcSpace (x.src + c.next) false s else (.ok none, s)
        match a.1 with
        | .error cause => modChan d (fun c => { c with stops := [.stop 2 cause] }) a.2
        | .ok sd =>
          let b := chunkEnd d x.dstSpace (x.dst + c.next) true a.2
          match b.1 with
          | .error cause => modChan d (fun c => { c with stops := [.stop 2 cause] }) b.2
          | .ok dd =>
            let s1 := modChan d (fun c => { c with
              next := c.next + n, flight := c.flight ++ [{ off := c.next, len := n, srcDpa := sd, dstDpa := dd }],
              chunks := c.chunks + 1 }) b.2
            let s2 := if x.op = 1 && offDie x.srcSpace then send (.link x.port "dma read" [d, x.srcSpace, x.src + c.next, n]) s1 else s1
            issueChunks d k s2

/-- The head reaches the tail: every posted descriptor is written CANCELLED with DONE_BYTES 0. -/
def cancelRest (d : Nat) : Nat → State → State
  | 0, s => s
  | k + 1, s =>
    let c := s.dchan d
    if c.head = c.tail || c.st ≠ .running then s
    else
      let r := dvaRead (dmaAccess s d (c.base + 64 * c.head) false) 64 s
      let x := match r.1 with
        | .ok b => decodeDesc b
        | .error _ => decodeDesc []
      cancelRest d k (dmaFinal d 4 0 0 (modChan d (fun c => { c with cur := some x }) r.2))

/-- The state of a channel that a status has stopped. -/
def stopSt (status : Nat) : DmaSt := if status = 2 then .faulted else .error
/-- The channel stands still at its watermark. -/
def DmaChan.hold (c : DmaChan) (st : DmaSt) : DmaChan := { c with st := st, next := c.watermark, failAt := none }

/-- What a stop does once no chunk is in flight. -/
def applyStop (d : Nat) (k : DmaStop) (s : State) : State :=
  let c := s.dchan d
  let mark := c.watermark
  match k with
  | .pause => modChan d (fun c => c.hold .paused) (writeStatus d 3 0 mark s).2
  | .stop status detail => modChan d (fun c => c.hold (stopSt status)) (writeStatus d status detail mark s).2
  | .cancel ring =>
    let s0 := { s with mmu := { s.mmu with inval := s.mmu.inval.map fun i => if i.chan = some d then { i with chan := none } else i } }
    let s1 := dmaFinal d 4 0 mark (modChan d (fun c => { c with st := .running }) s0)
    dmaRun d (if ring then cancelRest d 4097 s1 else s1)

/-- Apply stops in the order in which they arrived, while a descriptor is current. -/
def applyStops (d : Nat) : List DmaStop → State → State
  | [], s => s
  | k :: t, s => if (s.dchan d).cur.isSome then applyStops d t (applyStop d k s) else s

/-- The requests whose cancellation no current descriptor holds up any more. -/
def reqBusy (s : State) (p req : Nat) : Bool :=
  (List.range 64).any fun d => dmaPart s d = p && (s.dchan d).cur.elim false fun x => x.req = req
/-- Tell of each CANCEL_REQ that is complete. -/
def tellCancels : List (Nat × Nat) → State → State
  | [], s => s
  | e :: t, s => tellCancels t (send (.flit 0 "CANCEL_REQ complete" [e.1, e.2]) s)
/-- R332: report each CANCEL_REQ once every current descriptor involved has ended. -/
def reportCancels (s : State) : State :=
  let done := s.dma.reqWait.filter fun e => !reqBusy s e.1 e.2
  tellCancels done { s with dma := { s.dma with reqWait := s.dma.reqWait.filter fun e => reqBusy s e.1 e.2 } }

/-- After an acknowledgement or a control message: issue what may be issued; with nothing in flight, apply the stops that wait or
write DONE. -/
def settle (d : Nat) (s : State) : State :=
  let s1 := issueChunks d 17 s
  let c := s1.dchan d
  reportCancels
    (if !c.flight.isEmpty then s1
     else if !c.stops.isEmpty then applyStops d c.stops (modChan d (fun c => { c with stops := [] }) s1)
     else
       match c.cur with
       | none => s1
       | some x =>
         if c.st = .running && (c.begun && (!c.tlbi && ((x.op = 1 || x.op = 2) && x.len ≤ c.next))) then
           dmaRun d (dmaFinal d 1 0 x.len s1)
         else s1)

/-- A stop reaches a channel: at once when nothing is in flight, after the chunks in flight otherwise. A channel that stands at a
descriptor that it could not read cancels that one (DEDUCED, log 73). -/
def stopChan (d : Nat) (k : DmaStop) (s : State) : State :=
  let c := s.dchan d
  if c.cur.isNone then
    if (c.st = .faulted || c.st = .error) && c.head ≠ c.tail then
      match k with
      | .cancel _ => applyStop d k (setChan d { c with cur := some (decodeDesc []) } s)
      | .pause => setChan d { c with st := .paused } s
      | .stop _ _ => s
    else s
  else settle d (modChan d (fun c => { c with stops := c.stops ++ [k] }) s)

/-- CANCEL_REQ on several channels. -/
def cancelReqOn (req : Nat) : List Nat → State → State
  | [], s => s
  | d :: t, s =>
    cancelReqOn req t (if (s.dchan d).cur.elim false fun x => x.req = req then stopChan d (.cancel false) s else s)
/-- R332: CANCEL_REQ for a request of a partition. -/
def cancelReq (p req : Nat) (s : State) : State :=
  let s1 := { s with dma := { s.dma with
    cancelled := if (p, req) ∈ s.dma.cancelled then s.dma.cancelled else (p, req) :: s.dma.cancelled
    reqWait := s.dma.reqWait ++ [(p, req)] } }
  reportCancels (cancelReqOn req ((List.range 64).filter fun d => dmaPart s d = p) s1)

/-- The final status of a TLBI whose invalidation has completed; one that was stopped meanwhile keeps its stop. -/
def tlbiDone (d : Nat) (s : State) : State :=
  let c := s.dchan d
  if !c.tlbi then s
  else if c.st = .running then dmaRun d (dmaFinal d 1 0 0 (modChan d (fun c => { c with tlbi := false }) s))
  else modChan d (fun c => { c with tlbi := false }) s

end Sys2Proof.Machine
end

