-- ==== Sys2Proof/Machine/SampleOps.lean ====
section
/-!
DEFINITION. The arithmetic of the sampler: SipHash-2-4, FP32 multiplication, division and comparison, the final distribution, draws,
acceptance (spec/15_draft_and_sampler.md R409 to R412). FP32 values are held as their bits.
-/
namespace Sys2Proof.Machine

/-! ## SipHash-2-4 -/

/-- The four words of the state. -/
abbrev Sip := BitVec 64 × BitVec 64 × BitVec 64 × BitVec 64
/-- One SipRound. -/
def sipRound (v : Sip) : Sip :=
  let (v0, v1, v2, v3) := v
  let v0 := v0 + v1
  let v1 := v1.rotateLeft 13 ^^^ v0
  let v0 := v0.rotateLeft 32
  let v2 := v2 + v3
  let v3 := v3.rotateLeft 16 ^^^ v2
  let v0 := v0 + v3
  let v3 := v3.rotateLeft 21 ^^^ v0
  let v2 := v2 + v1
  let v1 := v1.rotateLeft 17 ^^^ v2
  let v2 := v2.rotateLeft 32
  (v0, v1, v2, v3)
/-- Absorb one word. -/
def sipWord (v : Sip) (m : BitVec 64) : Sip :=
  let (v0, v1, v2, v3) := v
  let (w0, w1, w2, w3) := sipRound (sipRound (v0, v1, v2, v3 ^^^ m))
  (w0 ^^^ m, w1, w2, w3)
/-- Absorb the message: whole words of 8 bytes, then the last bytes with the length in the top byte. -/
def sipBytes (len : Nat) : Nat → List Byte → Sip → Sip
  | 0, b, v => sipWord v (BitVec.ofNat 64 (leNat b + len % 256 * 2 ^ 56))
  | k + 1, b, v => sipBytes len k (b.drop 8) (sipWord v (BitVec.ofNat 64 (leNat (b.take 8))))
/-- SipHash-2-4 of a byte string under a 128-bit key, given as a number whose low 64 bits are its first 8 bytes. -/
def siphash24 (key : Nat) (m : List Byte) : Nat :=
  let k0 := BitVec.ofNat 64 key
  let k1 := BitVec.ofNat 64 (key / 2 ^ 64)
  let v := sipBytes m.length (m.length / 8) m
    (k0 ^^^ 0x736f6d6570736575, k1 ^^^ 0x646f72616e646f6d, k0 ^^^ 0x6c7967656e657261, k1 ^^^ 0x7465646279746573)
  let (v0, v1, v2, v3) := v
  let (w0, w1, w2, w3) := sipRound (sipRound (sipRound (sipRound (v0, v1, v2 ^^^ 0xFF, v3))))
  (w0 ^^^ w1 ^^^ w2 ^^^ w3).toNat

/-! ## FP32 -/

/-- The FP32 magnitude nearest to num / den in units of 2^-149, ties to even. -/
def fRatio (num den : Nat) : Nat :=
  let q := num / den
  let k := if q < 2 ^ 24 then 0 else Nat.log2 q - 23
  let d := den * 2 ^ k
  let n := num / d
  let r := num % d
  fRound ((if d < 2 * r || (2 * r = d && n % 2 = 1) then n + 1 else n) * 2 ^ k)
/-- The bits of a sign and a magnitude. -/
def fSigned (neg : Bool) (m : Nat) : Nat := if neg then m + 2 ^ 31 else m
/-- The FP32 infinity. -/
def fInf : Nat := 0x7F800000
/-- Minus infinity. -/
def fNegInf : Nat := 0xFF800000
/-- FP32 zero of either sign. -/
def fZero (x : Nat) : Bool := x % 2 ^ 31 = 0
/-- FP32 multiplication. -/
def fmul (a b : Nat) : Nat :=
  let neg := fSign a != fSign b
  if isNan a || isNan b then qnan
  else if isInf a || isInf b then (if fZero a || fZero b then qnan else fSigned neg fInf)
  else fSigned neg (fRatio (fMag a * fMag b) (2 ^ 149))
/-- FP32 division. -/
def fdiv (a b : Nat) : Nat :=
  let neg := fSign a != fSign b
  if isNan a || isNan b then qnan
  else if isInf a then (if isInf b then qnan else fSigned neg fInf)
  else if isInf b then fSigned neg 0
  else if fZero b then (if fZero a then qnan else fSigned neg fInf)
  else fSigned neg (fRatio (fMag a * 2 ^ 149) (fMag b))
/-- A key that orders the FP32 values that are no NaN. -/
def fKey (x : Nat) : Int := if fSign x then -((x % 2 ^ 31 : Nat) : Int) else (x % 2 ^ 31 : Nat)
/-- FP32 less than. -/
def flt (a b : Nat) : Bool := !isNan a && (!isNan b && fKey a < fKey b)
/-- FP32 negation. -/
def fneg (a : Nat) : Nat := if fSign a then a - 2 ^ 31 else a + 2 ^ 31
/-- FP32 subtraction. -/
def fsub (a b : Nat) : Nat := fadd a (fneg b)
/-- The FP32 value nearest to n / d. -/
def fOf (n d : Nat) : Nat := fRatio (n * 2 ^ 149) d
/-- BF16 widened. -/
def fWiden (x : BitVec 16) : Nat := x.toNat * 65536
/-- The logical tree of R240 over FP32 terms. -/
def fTree (l : List Nat) : Nat := ((treeReduce 2 0 l.length (l.map fun x => [Int.ofNat x])).headD 0).toNat

/-! ## The generator (R412) -/

/-- K_req from a seed. -/
def reqKey (seed : Nat) : Nat := seed + 2 ^ 64 * (seed ^^^ 0x9E3779B97F4A7C15)
/-- The uniform u of a position and use, as FP32 bits: bits 63 to 40 of the hash, plus a half, times 2^-24. -/
def drawU (seed pos use : Nat) : Nat := fOf (2 * (siphash24 (reqKey seed) (leBytes 8 pos ++ leBytes 1 use) / 2 ^ 40) + 1) (2 ^ 25)

/-! ## The final distribution (R409) -/

/-- A candidate: (token, value). -/
abbrev Cand := Nat × Nat

/-- Step 1: NaN becomes minus infinity. -/
def cleanLogit (x : Nat) : Nat := if isNan x then fNegInf else x
/-- Step 2: the repetition penalty on the tokens of the window. -/
def penalise (r : Nat) (window : List Nat) (v l : Nat) : Nat :=
  if v ∈ window then (if flt 0 l then fdiv l r else fmul l r) else l
/-- The window before a position: the last REP_WIN tokens. -/
def repWindow (smp : Sampling) (before : List Nat) : List Nat :=
  if smp.repPen = 0 || (smp.repPen = 4096 || smp.repWin = 0) then [] else before.drop (before.length - smp.repWin)
/-- Steps 1 and 2 over a position's logits. -/
def adjust (smp : Sampling) (before : List Nat) (l : List Nat) : List Cand :=
  let w := repWindow smp before
  let r := fOf smp.repPen 4096
  ((List.range l.length).zip l).map fun e => (e.1, penalise r w e.1 (cleanLogit e.2))
/-- Insert in order of decreasing value and, on equal values, rising token. -/
def candIns (x : Cand) : List Cand → List Cand
  | [] => [x]
  | y :: t => if flt y.2 x.2 || (fKey y.2 = fKey x.2 && x.1 < y.1) then x :: y :: t else y :: candIns x t
/-- The `n` highest. -/
def topCands (n : Nat) (l : List Cand) : List Cand := l.foldl (fun a x => (candIns x a).take n) []
/-- Step 3: the highest logit, the lower token on ties. -/
def greedyTok (l : List Cand) : Option Nat := ((topCands 1 l).head?.filter fun e => e.2 ≠ fNegInf).map Prod.fst

/-- Step 6: the packets' sums: over each packet's `width` logits the largest and the tree of exp of the differences. -/
def packetSums : Nat → List Nat → List (Nat × Nat)
  | 0, _ => []
  | k + 1, l =>
    if l.isEmpty then []
    else
      let p := l.take 1024
      let m := p.foldl (fun a x => if flt a x then x else a) fNegInf
      let pad := p ++ List.replicate (1024 - p.length) fNegInf
      (m, fTree (pad.map fun z => if z = fNegInf then 0 else Config.fexp (fsub z m))) :: packetSums k (l.drop 1024)
/-- Z, over the packets in increasing VBASE. -/
def sumZ (zmax : Nat) (l : List (Nat × Nat)) : Nat :=
  l.foldl (fun a e => if e.1 = fNegInf then a else fadd a (fmul e.2 (Config.fexp (fsub e.1 zmax)))) 0
/-- Step 7: the shortest prefix whose cumulative p reaches the mass; at least one. -/
def topPrefix (mass : Nat) : Nat → List Cand → List Cand
  | _, [] => []
  | acc, x :: t =>
    let a := fadd acc x.2
    if flt a mass then x :: topPrefix mass a t else [x]
/-- Step 7 when TOP_P is set. -/
def topP (smp : Sampling) (l : List Cand) : List Cand := if smp.topP = 0 then l else topPrefix (fOf smp.topP 65536) 0 l
/-- Step 8. -/
def minP (smp : Sampling) (l : List Cand) : List Cand :=
  if smp.minP = 0 then l
  else
    let bound := fmul (fOf smp.minP 65536) (l.head?.elim 0 Prod.snd)
    l.filter fun e => !flt e.2 bound
/-- The sum of the values in order. -/
def candSum (l : List Cand) : Nat := l.foldl (fun a e => fadd a e.2) 0
/-- Steps 4 to 9: the kept candidates with their final p. -/
def finalDist (smp : Sampling) (cap : Nat) (adj : List Cand) : List Cand :=
  let t := fOf smp.temp 1024
  let z := adj.map fun e => (e.1, fdiv e.2 t)
  let k := min (if smp.topK = 0 then 1024 else smp.topK) cap
  let cands := (topCands k z).filter fun e => e.2 ≠ fNegInf
  let zmax := cands.head?.elim 0 Prod.snd
  let zs := z.map Prod.snd
  let zz := sumZ zmax (packetSums (zs.length / 1024 + 1) zs)
  let p := cands.map fun e => (e.1, fdiv (Config.fexp (fsub e.2 zmax)) zz)
  let kept := minP smp (topP smp p)
  let tot := candSum kept
  kept.map fun e => (e.1, fdiv e.2 tot)
/-- Step 10: the first candidate at which the cumulative value exceeds the threshold, else the last. -/
def drawFrom (thr : Nat) : Nat → List Cand → Option Nat
  | _, [] => none
  | acc, x :: t =>
    let a := fadd acc x.2
    if flt thr a then some x.1 else (drawFrom thr a t).or (some x.1)

/-! ## Acceptance (R410) -/

/-- The q of a token in a proposed position. -/
def propQ (p : PropPos) (v : Nat) : Nat := (p.find? fun e => e.1 = v).elim 0 fun e => e.2.2
/-- The proposed token. -/
def propTok (p : PropPos) : Nat := (p.find? fun e => e.2.1).elim 0 Prod.fst
/-- The residual distribution. -/
def residual (p : List Cand) (q : PropPos) : List Cand :=
  p.map fun e => let d := fsub e.2 (propQ q e.1); (e.1, if flt 0 d then d else 0)
/-- The last kept candidate's rule of step 10, without the candidates of value 0 that a residual holds. -/
def drawResidual (u : Nat) (p : List Cand) (q : PropPos) : Option Nat :=
  let r := residual p q
  let tot := candSum r
  if fZero tot then drawFrom u 0 p else drawFrom (fmul u tot) 0 (r.filter fun e => !fZero e.2)

/-- What a position decides: its token, and whether it is an accepted proposal; none when every logit is minus infinity. -/
def judgePos (smp : Sampling) (seed pos : Nat) (before : List Nat) (logits : List Nat) (prop : Option PropPos) : Option (Nat × Bool) :=
  let adj := adjust smp before logits
  match greedyTok adj with
  | none => none
  | some g =>
    if smp.temp = 0 then
      match prop with
      | none => some (g, false)
      | some q => some (g, propTok q = g)
    else
      let p := finalDist smp 1024 adj
      match prop with
      | none => (drawFrom (drawU seed pos 2) 0 p).map fun t => (t, false)
      | some q =>
        let x := propTok q
        let px := (p.find? fun e => e.1 = x).elim 0 Prod.snd
        if flt (fmul (drawU seed pos 1) (propQ q x)) px then some (x, true)
        else (drawResidual (drawU seed pos 2) p q).map fun t => (t, false)

/-- R410, R411: judge positions in order: the tokens decided, and 0 to go on, 1 after a stop token, 2 when a position has no
candidate. `pos` is the absolute position that the first token takes, `room` the tokens that may still be committed. -/
def judgeAll (smp : Sampling) (seed : Nat) (stops : List Nat) : Nat → List (List Nat) → List PropPos → List Nat → List Nat × Nat
  | _, [], _, _ => ([], 0)
  | pos, l :: t, props, before =>
    match judgePos smp seed pos before l props.head? with
    | none => ([], 2)
    | some (x, acc) =>
      if x ∈ stops then ([x], 1)
      else if acc then
        let r := judgeAll smp seed stops (pos + 1) t (props.drop 1) (before ++ [x])
        (x :: r.1, r.2)
      else ([x], 0)

end Sys2Proof.Machine
end

