-- ==== Sys2Proof/Machine/ServeOps.lean ====
section
/-!
DEFINITION. The named operations of the serving pipeline and the page steward: requests, records, pools of frames, grants, reclaim,
the prefix index, groups and capacities (spec/13_serving_pipeline.md, spec/14_pages_prefixes_adapters_drift.md).
-/
namespace Sys2Proof.Machine

/-! ## Requests, partitions, tenants, rings -/

/-- The request with an ID; none when the ID is FREE. -/
def State.req (s : State) (i : Nat) : Option Req := (s.serve.reqs.find? fun e => e.1 = i).map Prod.snd
/-- Store a request. -/
def setReq (i : Nat) (r : Req) (s : State) : State := { s with serve := { s.serve with reqs := Tab.ins s.serve.reqs i r } }
/-- An ID returns to FREE. -/
def delReq (i : Nat) (s : State) : State := { s with serve := { s.serve with reqs := Tab.del s.serve.reqs i } }
/-- Change a request that is live. -/
def modReq (i : Nat) (f : Req → Req) (s : State) : State :=
  match s.req i with
  | none => s
  | some r => setReq i (f r) s
/-- Apply an operation to each request of a list of IDs that is live. -/
def eachReq (f : Nat → Req → State → State) : List Nat → State → State
  | [], s => s
  | i :: t, s =>
    eachReq f t (match s.req i with
      | none => s
      | some r => f i r s)
/-- The IDs of the live requests. -/
def State.reqIds (s : State) : List Nat := s.serve.reqs.map Prod.fst
/-- GEN_LEN. -/
def Req.genLen (r : Req) : Nat := r.gen.length
/-- A partition as the pipeline knows it. -/
def State.spart (s : State) (p : Nat) : SPart := Tab.get {} s.serve.parts p
/-- Replace it. -/
def setSpart (p : Nat) (x : SPart) (s : State) : State := { s with serve := { s.serve with parts := Tab.put {} s.serve.parts p x } }
/-- A tenant. -/
def State.tenant (s : State) (t : Nat) : Tenant := Tab.get {} s.serve.tenants t
/-- Replace a tenant. -/
def setTenant (t : Nat) (x : Tenant) (s : State) : State :=
  { s with serve := { s.serve with tenants := Tab.put {} s.serve.tenants t x } }
/-- A ring. -/
def State.ring (s : State) (k : Nat) : Ring := Tab.get {} s.serve.rings k
/-- Replace a ring. -/
def setRing (k : Nat) (x : Ring) (s : State) : State := { s with serve := { s.serve with rings := Tab.put {} s.serve.rings k x } }
/-- Some request of a partition is live. -/
def partLive (s : State) (p : Nat) : Bool := s.serve.reqs.any fun e => e.2.part = p
/-- Some request uses a ring. -/
def ringLive (s : State) (k : Nat) : Bool := s.serve.reqs.any fun e => e.2.ring = k && !e.2.guest
/-- R386: the pin count of an adapter. -/
def adapterPins (s : State) (a : Nat) : Nat := s.serve.reqs.countP fun e => e.2.adapter = some a
/-- The record of an adapter. -/
def State.adapter (s : State) (a : Nat) : Option Adapter := (s.serve.adapters.find? fun e => e.1 = a).map Prod.snd
/-- The draft program of a partition. -/
def State.draftOf (s : State) (p : Nat) : Option DraftProg := (s.serve.drafts.find? fun e => e.1 = p).map Prod.snd
/-- A draft program that drafts. -/
def draftReady (s : State) (p : Nat) : Option DraftProg := (s.draftOf p).filter fun d => d.ready && !d.failed

/-- Insert into a list that an order keeps. -/
def insBy {α : Type} (lt : α → α → Bool) (x : α) : List α → List α
  | [] => [x]
  | y :: t => if lt x y then x :: y :: t else y :: insBy lt x t
/-- Order a list; equal elements keep their order. -/
def sortBy {α : Type} (lt : α → α → Bool) : List α → List α
  | [] => []
  | x :: t => insBy (fun a b => !lt b a) x (sortBy lt t)

/-! ## Result records (R365, Table SP-8) -/

/-- A record of a ring waits for EMIT. -/
def putRec (k : Nat) (r : ResRec) (s : State) : State := setRing k { s.ring k with out := (s.ring k).out ++ [r] } s
/-- A record of a request: none for a GUEST; a QUIET request has only ACK and END. -/
def reqRec (i : Nat) (r : Req) (kind reason count : Nat) (s : State) : State :=
  if r.guest || (r.quiet && (kind ≠ 1 && kind ≠ 3)) then s
  else putRec r.ring { kind := kind, reason := reason, count := count, req := i, tag := r.userTag, gen := r.genLen, step := s.serve.step } s
/-- The records that a ring may still take. -/
def ringRoom (x : Ring) : Nat := 2 ^ x.resLog - (x.prod + 2 ^ x.resLog - x.cq) % 2 ^ x.resLog - 1 - x.out.length

/-! ## Pools of frames (R373 to R376) -/

/-- The regions of a pool whose stacks are in service: 0 the general pool, else those reserved to a partition. -/
def poolRegions (s : State) (o : Nat) : List Nat :=
  (s.mem.regions.filter fun e => e.2.owner = o && regionUp s e.1).map Prod.fst
/-- The frames of a pool. -/
def poolSize (s : State) (o : Nat) : Nat := 16384 * (poolRegions s o).length
/-- The frames of a region below sysTop. -/
def sysIn (s : State) (r : Nat) : Nat := min 16384 (s.mem.sysTop - r * 16384)
/-- The free frames of a pool. -/
def poolFree (s : State) (o : Nat) : Nat :=
  let rs := poolRegions s o
  let mine := fun f => s.mem.sysTop ≤ f && frameRegion f ∈ rs
  let used := s.mem.frames.countP fun e => mine e.1 && e.2.use ≠ .free
  let gone := (s.mem.retiredRun ++ s.store.retired.map Prod.fst).eraseDups.countP fun f =>
    mine f && (Tab.get {} s.mem.frames f).use = .free
  poolSize s o - (rs.map (sysIn s)).sum - used - gone
/-- The lowest free frames from `f` on. -/
def collectFrames (s : State) : Nat → Nat → Nat → List Nat
  | 0, _, _ => []
  | k + 1, f, n => if n = 0 then [] else if frameUsable s f then f :: collectFrames s k (f + 1) (n - 1) else collectFrames s k (f + 1) n
/-- The lowest free frames of several regions. -/
def takeFrom (s : State) : List Nat → Nat → List Nat
  | [], _ => []
  | r :: t, n =>
    if n = 0 then []
    else
      let l := collectFrames s 16384 (max (r * 16384) s.mem.sysTop) n
      let l := l.filter fun f => frameRegion f = r
      l ++ takeFrom s t (n - l.length)
/-- R374: the reserve of a pool. -/
def poolReserve (s : State) (o : Nat) : Nat := ceilDiv (poolSize s o) 100
/-- R374: who may take reserve frames. -/
def mayReserve (cls : Nat) (resume firmware : Bool) : Bool := firmware || (cls = 0 || ((cls = 1 || cls = 2) && resume))
/-- The frames of a pool that a grant may take. -/
def poolAvail (s : State) (o : Nat) (priv : Bool) : Nat := if priv then poolFree s o else poolFree s o - poolReserve s o

/-- A frame is a root frame. -/
def isRoot (s : State) (f : Nat) : Bool := s.mmu.roots.any fun e => e.2 = some f
/-- R370: a frame counts against the quota of its partition. -/
def chargedFrame (s : State) (f : Nat) (r : FrameRec) : Bool :=
  match r.use with
  | .request | .retained | .list => true
  | .held => !isRoot s f
  | .system => r.part ≠ 0
  | .free | .zeroing => false
/-- The frames charged to a partition. -/
def charged (s : State) (p : Nat) : Nat := s.mem.frames.countP fun e => e.2.part = p && chargedFrame s e.1 e.2
/-- A grant of `n` stays within the quota; partition 0 has none. -/
def quotaOk (s : State) (p n : Nat) : Bool := p = 0 || charged s p + n ≤ (s.part p).hbmQuota

/-- R375: reclaim RETAINED pages without sharers that a condition names, oldest LAST_USE first, up to `n`. -/
def reclaimRetained (sel : Nat → FrameRec → Bool) (n : Nat) (s : State) : State :=
  let age := fun (r : FrameRec) => (s.serve.step + 65536 - r.lastUse) % 65536
  let l := s.mem.frames.filter fun e => e.2.use = .retained && (e.2.sharers = 0 && sel e.1 e.2)
  let pick := ((sortBy (fun a b => age b.2 < age a.2) l).take n).map Prod.fst
  freeFrames pick (removeEntries (fun _ e => e.frames.any fun f => f ∈ pick) s)
/-- R375: the retry hint in edges, from what entered the pools of a partition. -/
def retryHint (s : State) (p n : Nat) : Nat :=
  let k := Tab.get 0 s.serve.entered 0 + (if p = 0 then 0 else Tab.get 0 s.serve.entered p)
  if k = 0 then 255 else min 255 (max 1 (ceilDiv n k))

/-- R373 to R375: one decision of the page steward: `n` frames for a partition, all or none, first from the regions reserved to
it. The answer is the frames, or NO_PAGE with its hint. -/
def steward (p n cls : Nat) (resume firmware : Bool) (who : Nat) (s : State) : Except Nat (List Nat) × State :=
  let priv := mayReserve cls resume firmware
  let s1 := if quotaOk s p n then s else reclaimRetained (fun _ r => r.part = p) (charged s p + n - (s.part p).hbmQuota) s
  let own := if p = 0 then 0 else poolAvail s1 p priv
  let gen := poolAvail s1 0 priv
  if !quotaOk s1 p n then (.error (retryHint s1 p n), s1)
  else if own + gen < n then
    let pools := if p = 0 then [0] else [p, 0]
    (.error (retryHint s1 p n), reclaimRetained (fun f _ => (s1.hregion (frameRegion f)).owner ∈ pools) (n - (own + gen)) s1)
  else
    let a := takeFrom s1 (if p = 0 then [] else poolRegions s1 p) (min n own)
    let b := takeFrom s1 (poolRegions s1 0) (n - a.length)
    (.ok (a ++ b), { s1 with serve := { s1.serve with stewardPtr := who + 1 } })

/-- Give several frames a record. -/
def markFrames (r : FrameRec) : List Nat → State → State
  | [], s => s
  | f :: t, s => markFrames r t (setFrame f r s)

/-! ## Reclaim (R377) -/

/-- A page loses one sharer. -/
def unshare (f : Nat) (s : State) : State := modFrame f (fun r => { r with sharers := r.sharers - 1 }) s
/-- Several pages lose one sharer each. -/
def unshareAll : List Nat → State → State
  | [], s => s
  | f :: t, s => unshareAll t (unshare f s)
/-- An owner leaves a page: RETAINED while it is INDEXED or shared, freed otherwise. -/
def leavePage (f : Nat) (s : State) : State :=
  let r := s.frame f
  if r.use ≠ .request then s
  else if r.indexed || r.sharers ≠ 0 then setFrame f { r with use := .retained, tag := 0 } s
  else freeFrame f s
/-- Several pages. -/
def leavePages : List Nat → State → State
  | [], s => s
  | f :: t, s => leavePages t (leavePage f s)
/-- The LIST frame of a request is freed. -/
def freeList (r : Req) (s : State) : State :=
  match r.plist with
  | .frame f => if (s.frame f).use = .list then freeFrame f s else s
  | .none | .drift _ | .lost => s
/-- Drift pages return to the free list; those of a BAD port do not. -/
def freeDrift : List Nat → State → State
  | [], s => s
  | d :: t, s => freeDrift t { s with serve := { s.serve with driftUsed := Tab.put 0 s.serve.driftUsed d 0 } }
/-- The pages that a request holds in HBM go, with its page list. -/
def dropPages (r : Req) (s : State) : State :=
  match r.plist with
  | .frame _ => freeList r (leavePages (r.pages.drop r.shared) (unshareAll (r.pages.take r.shared) s))
  | .none | .drift _ | .lost => s
/-- The frames and drift pages that a drift session under way holds. -/
def dropMove (r : Req) (s : State) : State :=
  match r.move with
  | none => s
  | some m => if m.out then freeDrift (m.granted.getD []) s else freeFrames (m.granted.getD []) s
/-- R377: a request leaves its pages, in HBM and on the drift shelf. -/
def reclaim (r : Req) (s : State) : State := freeDrift r.driftPages (dropMove r (dropPages r s))

/-- R377: RETAINED pages without sharers that are no longer INDEXED are freed at the next edge. -/
def sweepRetained (s : State) : State :=
  freeFrames ((s.mem.frames.filter fun e => e.2.use = .retained && (e.2.sharers = 0 && !e.2.indexed)).map Prod.fst) s

/-! ## The prefix index (R379 to R383) -/

/-- T_P. -/
def tokensPerPage (g : Program) : Nat := 65536 / g.kvBytes
/-- The pages of `n` positions. -/
def pagesFor (g : Program) (n : Nat) : Nat := ceilDiv n (tokensPerPage g)
/-- Bytes of a token list. -/
def tokBytes (l : List Nat) : List Byte := l.flatMap (leBytes 4)
/-- The start of a chain. -/
def chainStart (s : State) (g : Program) (r : Req) : Nat :=
  let sealed := partKind s r.part = .sealedK || partKind s r.part = .vault
  let a := r.adapter.elim (0xFFFFFFFF, 0) fun i => (i, (s.adapter i).elim 0 Adapter.gen)
  siphash24 g.key (leBytes 4 r.part ++ leBytes 4 a.1 ++ leBytes 4 a.2 ++ leBytes 4 (if sealed then r.tenant else 0xFFFFFFFF)
    ++ leBytes 48 g.digest.toNat)
/-- The tokens of block j. -/
def blockTokens (l : List Nat) (j : Nat) : List Nat := (l.drop (32 * j)).take 32
/-- The next value of a chain. -/
def chainNext (g : Program) (h : Nat) (toks : List Nat) : Nat := siphash24 g.key (leBytes 8 h ++ tokBytes toks)
/-- The entry indices of a bucket. -/
def bucket (h : Nat) : List Nat := (List.range 8).map fun i => h % 2 ^ 21 * 8 + i
/-- An entry of the index. -/
def State.pentry (s : State) (i : Nat) : PEntry := Tab.get {} s.serve.index i

/-- R381: the walk of a chain: the entries matched from block j on, and whether a collision ended it. -/
def matchChain (s : State) (g : Program) (r : Req) : Nat → Nat → Nat → Option Nat → List Nat × Bool
  | 0, _, _, _ => ([], false)
  | k + 1, j, h, parent =>
    let toks := blockTokens r.prompt j
    let h1 := chainNext g h toks
    let same := (bucket h1).filter fun i => (s.pentry i).valid && ((s.pentry i).hash = h1 && (s.pentry i).part = r.part)
    match same.find? fun i => (s.pentry i).parent = parent && (s.pentry i).tokens = toks with
    | none => ([], !same.isEmpty)
    | some i =>
      let t := matchChain s g r k (j + 1) h1 (some i)
      (i :: t.1, t.2)

/-- R382: the pages that the matched entries name, page by page, as far as they may be shared. -/
def reusePages (s : State) (g : Program) (l : List Nat) : List Nat :=
  let tp := tokensPerPage g
  let shareable := fun f => (s.frame f).sharers < 32767
  if tp = 1 then []
  else if 32 ≤ tp then
    let per := tp / 32
    let page := fun (i : Nat) =>
      let es := ((l.drop (i * per)).take per).map s.pentry
      match es.head? with
      | none => none
      | some e =>
        if es.length = per && ((List.range per).zip es).all (fun x => x.2.page = e.page && x.2.sub = x.1) && shareable e.page then
          some e.page
        else none
    (((List.range (l.length / per)).map page).takeWhile Option.isSome).filterMap id
  else
    ((l.map fun i => (s.pentry i).frames).takeWhile fun fs => fs.all shareable).flatten
/-- Blocks matched by a request: floor((PROMPT_LEN - 1) / 32) at most. -/
def prefixMatch (s : State) (g : Program) (r : Req) : List Nat × Bool :=
  if tokensPerPage g = 1 then ([], false) else matchChain s g r ((r.promptLen - 1) / 32) 0 (chainStart s g r) none
/-- Each page of a list gains a sharer. -/
def shareAll : List Nat → State → State
  | [], s => s
  | f :: t, s => shareAll t (modFrame f (fun r => { r with sharers := r.sharers + 1 }) s)
/-- The matched entries take the current step. -/
def touchEntries (l : List Nat) (s : State) : State :=
  { s with serve := { s.serve with index := s.serve.index.map fun e =>
      if e.1 ∈ l then (e.1, { e.2 with lastUse := s.serve.step % 2 ^ 32 }) else e } }

/-- R383: the entry that a new block takes: a free one, else the oldest whose page has no sharers. -/
def entryFor (s : State) (h : Nat) : Option Nat :=
  let b := bucket h
  match b.find? fun i => !(s.pentry i).valid with
  | some i => some i
  | none =>
    let age := fun i => (s.serve.step + 2 ^ 32 - (s.pentry i).lastUse) % 2 ^ 32
    (sortBy (fun i j => age j < age i) (b.filter fun i => (s.frame (s.pentry i).page).sharers = 0)).head?

/-- R383: insert entries for the blocks from j on. -/
def insertChain (g : Program) (r : Req) : Nat → Nat → Nat → Option Nat → State → State
  | 0, _, _, _, s => s
  | k + 1, j, h, parent, s =>
    let tp := tokensPerPage g
    let toks := blockTokens r.prompt j
    let h1 := chainNext g h toks
    let found := (bucket h1).find? fun i =>
      let e := s.pentry i
      e.valid && (e.hash = h1 && (e.part = r.part && (e.parent = parent && e.tokens = toks)))
    match found with
    | some i => insertChain g r k (j + 1) h1 (some i) s
    | none =>
      match entryFor s h1 with
      | none => s
      | some i =>
        let first := 32 * j / tp
        let e : PEntry :=
          { valid := true, hash := h1, part := r.part, parent := parent, page := r.pages.getD first 0,
            sub := if 32 ≤ tp then 32 * j % tp / 32 else 0, block := j, lastUse := s.serve.step % 2 ^ 32, tokens := toks,
            extra := if 32 ≤ tp then [] else (r.pages.drop (first + 1)).take (32 / tp - 1), adapter := r.adapter, tenant := r.tenant }
        let s1 := removeEntries (fun k _ => k = i) s
        let t := Tab.ins s1.serve.index i e
        insertChain g r k (j + 1) h1 (some i) (reindex t e.frames { s1 with serve := { s1.serve with index := t } })
/-- R383: the whole blocks of a prompt whose positions all lie in pages that hold only prompt positions. -/
def insertPrefix (g : Program) (r : Req) (s : State) : State :=
  let tp := tokensPerPage g
  if tp = 1 then s
  else insertChain g r (r.promptLen / tp * tp / 32) 0 (chainStart s g r) none s

/-! ## Context records (R347) -/

/-- R347, R317, R368: how many frames the system tables take: the owner table and the context records, and Table KV-1. -/
def systemFrames : Nat := 128 + 2048 + 70912
/-- The first frame above the `n` lowest frames that are not retired. -/
def frameAfter (retired : Nat → Bool) (n : Nat) : Nat → Nat → Nat
  | 0, t => t
  | k + 1, t => frameAfter retired n k (n + (List.range t).countP retired)
/-- The frame above the `n` lowest frames that firmware may grant to the system tables. -/
def sysFrame (s : State) (n : Nat) : Nat := frameAfter (frameRetired s) n (s.store.retired.length + s.mem.retiredRun.length + 1) n
/-- R347: the line of a context record; the records follow the owner table (DESIGN CHOICE, log 71). -/
def contextDpa (s : State) (i : Nat) : Nat := (sysFrame s (128 + i / 1024 + 1) - 1) * 65536 + i % 1024 * 64
/-- A context record is written whole. -/
def writeContext (i : Nat) (s : State) : State :=
  if s.flaw (contextDpa s i) = {} then s else setFlaw (contextDpa s i) {} s

/-! ## Groups, pools, capacities (R343, R357, R362) -/

/-- The clusters of a group. -/
def groupClusters (g : Nat) : List Nat := (List.range 8).map fun x => nodeAt (8 * (g % 2) + x) (g / 2)
/-- The group of a cluster. -/
def groupOf (c : Nat) : Nat := 2 * nodeY c + nodeX c / 8
/-- R519: a unit is on its way out of the routes. -/
def leavingUnit (s : State) (ut inst : Nat) : Bool :=
  (ut, inst) ∈ s.net.plan.leaves || ((ut, inst) ∈ s.net.next.leaves || (ut, inst) ∈ s.units.leaving)
/-- R357, R519: a cluster that may take serving work of a partition. -/
def poolCluster (s : State) (p c : Nat) : Bool := s.unitSt 0x01 c = .inService && (clusterPart s c = p && !leavingUnit s 0x01 c)
/-- R357: a group is a pool group of a partition. -/
def poolGroup (s : State) (p g : Nat) : Bool := (groupClusters g).all (poolCluster s p)
/-- The pool groups of a partition. -/
def poolGroups (s : State) (p : Nat) : List Nat := (List.range 16).filter (poolGroup s p)
/-- R362, R363: the groups of the prefill pool: all, none, the FIXED number, or those that AUTO has given it, at least one group
in each pool. -/
def prefillGroups (s : State) (p : Nat) : List Nat :=
  let x := s.spart p
  let gs := poolGroups s p
  match x.role with
  | 1 => gs
  | 2 => []
  | _ =>
    match x.fixed with
    | some n => gs.take n
    | none =>
      let l := gs.filter fun g => x.prefillPool.getLsbD g
      if l.isEmpty then gs.take 1 else if l.length = gs.length then gs.take (gs.length - 1) else l
/-- The groups of the decode pool. -/
def decodeGroups (s : State) (p : Nat) : List Nat := (poolGroups s p).filter fun g => !(g ∈ prefillGroups s p)
/-- A capacity: by groups, and by time where a cost is stated (a cost of 0 leaves the groups alone to bound it). -/
def capOf (targetUs perGroup groups t0 t1 : Nat) : Nat :=
  let a := perGroup * groups
  if t1 = 0 then (if targetUs < t0 then 0 else a) else min a ((targetUs * 1000 - t0 * 1000) / t1)
/-- R343: C_d. -/
def capDecode (s : State) (p : Nat) (g : Program) : Nat := capOf s.serve.target g.decPerGroup (decodeGroups s p).length g.t0d g.t1d
/-- R343: C_p. -/
def capPrefill (s : State) (p : Nat) (g : Program) : Nat := capOf s.serve.target g.chunk (prefillGroups s p).length g.t0p g.t1p
/-- R353: a tenant is eligible: its level is above 0, or its rate is unlimited. -/
def eligible (s : State) (r : Req) : Bool := (s.tenant r.tenant).rate = 0 || 0 < (s.tenant r.tenant).level
/-- R350: the predicted wait in µs; none counts as infinite. -/
def predictedWait (s : State) (p cls : Nat) (g : Program) : Option Nat :=
  let c := capPrefill s p g
  if c = 0 then none
  else
    let left := (s.serve.reqs.map fun e =>
      if e.2.part = p && ((e.2.st = .prefill || (e.2.st = .paused || e.2.st = .drifted)) && e.2.cls ≤ cls) then e.2.fillTo - e.2.filled
      else 0).sum
    some (left * s.serve.target / c)

/-! ## Accesses of the pipeline -/

/-- An access of the serving pipeline in a partition. -/
def serveAccess (p dva : Nat) (write : Bool) : Access := { part := p, dva := dva, write := write, ut := 0x0E, inst := 0 }

/-- R364: a request is rebuilt: it fills its positions again from its token buffer. -/
def rebuildReq (i : Nat) (r : Req) (s : State) : State :=
  setReq i { r with st := .prefill, plist := .none, pages := [], shared := 0, filled := 0, fillTo := r.promptLen + r.genLen,
                    driftPages := [], move := none, ttlEnd := none, asked := false, shipping := false, rebuild := true,
                    prop := none, lastAll := false, inStep := false } s

end Sys2Proof.Machine
end

