-- ==== Sys2Proof/Machine/DraftOps.lean ====
section
/-!
DEFINITION. The arithmetic of the draft engine: number formats, the operations of a draft program, a pass, proposals
(spec/15_draft_and_sampler.md R399, R400, R402, R405, R409, Table DS-2). FP32 values are held as their bits.
-/
namespace Sys2Proof.Machine

/-! ## Number formats -/

/-- Bytes of an element of a DT (R399). -/
def dtSize (dt : Nat) : Nat := if dt = 0 then 1 else if dt = 1 then 2 else 4
/-- FP8 E4M3 widened to FP32: bias 7, no infinity, a NaN where all seven low bits are 1 (PRESUMED, log 136). -/
def e4m3Widen (b : Nat) : Nat :=
  let e := b / 8 % 16
  let m := b % 8
  if b % 128 = 127 then qnan else fSigned (b / 128 % 2 = 1) (fRound (if e = 0 then m * 2 ^ 140 else (8 + m) * 2 ^ (e + 139)))
/-- FP32 rounded to FP8 E4M3, to nearest even; past the largest finite value the result is free (log 136). -/
def e4m3Round (x : Nat) : Nat :=
  let m := fMag x
  let k := if m < 2 ^ 144 then 0 else Nat.log2 m - 143
  let q := k * 8 + roundShift m (140 + k)
  let s := if fSign x then 128 else 0
  if isNan x then s + 127 else if isInf x || 127 ≤ q then Config.draftOpen 0 [2, x] % 256 else s + q
/-- FP32 rounded to BF16, to nearest even. -/
def bf16Round (x : Nat) : Nat := if isNan x then qnan / 65536 else x / 2 ^ 31 * 2 ^ 15 + roundShift (x % 2 ^ 31) 16
/-- An element of a DT as FP32. -/
def elemWiden (dt x : Nat) : Nat := if dt = 0 then e4m3Widen x else if dt = 1 then x * 65536 else x
/-- An FP32 value rounded to a DT. -/
def elemRound (dt x : Nat) : Nat := if dt = 0 then e4m3Round x else if dt = 1 then bf16Round x else x

/-! ## The operations of Table DS-2 -/

/-- Bytes by offset: the working area, the weight block. -/
abbrev Area := Nat → Byte
/-- `n` bytes at an offset. -/
def Area.bytes (a : Area) (off n : Nat) : List Byte := (List.range n).map fun i => a (off + i)
/-- The `i`-th element of a DT at an offset, as FP32. -/
def Area.elem (a : Area) (dt off i : Nat) : Nat := elemWiden dt (leNat (a.bytes (off + i * dtSize dt) (dtSize dt)))
/-- `n` elements of a DT at an offset, as FP32. -/
def Area.row (a : Area) (dt off n : Nat) : List Nat := (List.range n).map (a.elem dt off)
/-- Store bytes at an offset. -/
def Area.put (a : Area) (off : Nat) (l : List Byte) : Area := fun o => if off ≤ o then (l[o - off]?).getD (a o) else a o
/-- Elements of a DT as bytes. -/
def elemBytes (dt : Nat) (l : List Nat) : List Byte := l.flatMap fun x => leBytes (dtSize dt) (elemRound dt x)

/-- What a pass of one row holds: the working area, the bytes of memory (its draft cache among them), its logits once LOGITS has
ended it. -/
structure DraftPass where
  area : Area
  bytes : Tab Byte
  logits : Option (List Nat) := none

/-- What is fixed in a pass of one row: the program, its weights, where the draft cache of a position lies, the input token and the
position. -/
structure DraftRow where
  prog : DraftProg
  weights : Area
  cache : Nat → Option Nat
  token : Nat
  pos : Nat

/-- One output of a matrix product: the sum in increasing KD order, in FP32. -/
def dotFrom (l : List Nat) (b : Nat → Nat) : Nat :=
  ((List.range l.length).zip l).foldl (fun acc e => fadd acc (fmul e.2 (b e.1))) 0
/-- A row times a KD × N matrix of the weight block, row after row. -/
def rowTimes (w : Area) (dt off n : Nat) (a : List Nat) : List Nat :=
  (List.range n).map fun j => dotFrom a fun k => w.elem dt off (k * n + j)
/-- The draft cache of the positions 0 to `p`. -/
def cacheRows (x : DraftRow) (t : Tab Byte) : List (List Byte) :=
  (List.range (x.pos + 1)).map fun p => (x.cache p).elim [] fun a => (List.range x.prog.kvLen).map fun i => Tab.get 0 t (a + i)

/-- One instruction on the row of a pass: row 0 of its operands is the request's (R400, log 137). Where Table DS-2 gives a formula
but not its roundings, the result is a free function of what the table says it is computed from (log 81). -/
def draftOp (x : DraftRow) (i : List Byte) (y : DraftPass) : DraftPass :=
  let dt := leAt i 1 1
  let fl := leAt i 2 2
  let a := leAt i 4 4
  let b := leAt i 8 4
  let m := leAt i 16 2
  let n := leAt i 18 2
  let k := leAt i 20 2
  let imm := leAt i 24 4
  let put := fun (dt : Nat) (l : List Nat) => { y with area := y.area.put (leAt i 12 4) (elemBytes dt l) }
  let free := fun (n : Nat) (f : Nat → Nat) => (List.range n).map fun j => f j % 2 ^ 32
  match leAt i 0 1 with
  | 1 => put 2 (rowTimes x.weights dt b n (y.area.row dt a k))
  | 2 => put 2 (((y.area.row 2 a n).zip (y.area.row 2 b n)).map fun e => fadd e.1 e.2)
  | 3 => put 2 (((y.area.row 2 a n).zip (y.area.row 2 b n)).map fun e => fmul e.1 e.2)
  | 4 => put 2 (free n (Config.draftNorm imm (y.area.row 2 a n) (x.weights.row 2 b n)))
  | 5 => put 2 ((y.area.row 2 a n).map fun v => Config.draftAct fl v % 2 ^ 32)
  | 6 => put 2 (free n (Config.draftRope imm x.pos (y.area.row 2 a n)))
  | 7 => { y with bytes := (x.cache x.pos).elim y.bytes fun c => pokeTab y.bytes (c + fl) (y.area.bytes a (n * dtSize dt)) }
  | 8 => put 2 (free (m * n) (Config.draftAttend i (y.area.row 2 a (m * n)) (cacheRows x y.bytes)))
  | 9 => put 2 (x.weights.row dt (b + x.token * n * dtSize dt) n)
  | 10 =>
    let l := rowTimes x.weights dt b x.prog.vocab (y.area.row dt a k)
    { put 2 l with logits := some l }
  | _ => put dt (y.area.row 2 a n)

/-- The instructions of a code block in order, until LOGITS ends the pass. -/
def draftCode (x : DraftRow) : Nat → List Byte → DraftPass → DraftPass
  | 0, _, y => y
  | n + 1, l, y => if y.logits.isSome then y else draftCode x n (l.drop 32) (draftOp x (l.take 32) y)

/-! ## A pass (R400) -/

/-- A byte of a block that lies in frames. -/
def frameByte (t : Tab Byte) (fs : List Nat) (i : Nat) : Byte := Tab.get 0 t (fs.getD (i / 65536) 0 * 65536 + i % 65536)
/-- Where the draft cache of a request's position lies (R371, R397, R405; DEDUCED, log 137); none past its pages. -/
def cacheAt (g : Program) (d : DraftProg) (r : Req) (p : Nat) : Option Nat :=
  r.pages[p / tokensPerPage g]?.map fun f => f * 65536 + p % tokensPerPage g * g.kvBytes + d.kvOff
/-- A pass for one request: the logits of the position that follows its input token, and memory with its draft cache. What nothing
has written of the working area, and the logits of a program without LOGITS, are free values of the program and the row. -/
def draftPass (g : Program) (d : DraftProg) (r : Req) (token pos : Nat) (t : Tab Byte) : List Nat × Tab Byte :=
  let nc := ceilDiv d.codeLen 65536
  let x : DraftRow := { prog := d, weights := frameByte t (d.frames.drop nc), cache := cacheAt g d r, token := token, pos := pos }
  let key := fun (k : Nat) => [k, token, pos]
  let y := draftCode x (d.codeLen / 32) ((List.range d.codeLen).map (frameByte t (d.frames.take nc)))
    { area := fun o => BitVec.ofNat 8 (Config.draftOpen d.digest.toNat (key 0 ++ [o])), bytes := t }
  (y.logits.getD ((List.range d.vocab).map fun v => Config.draftOpen d.digest.toNat (key 1 ++ [v]) % 2 ^ 32), y.bytes)

/-! ## Proposals (R401, R402, R409) -/

/-- The tokens of a request, prompt and generated. -/
def Req.toks (r : Req) : List Nat := r.prompt ++ r.gen
/-- One proposed position from the engine's logits: the kept candidates with their q, and the token that the draft draw picks. -/
def draftPos (smp : Sampling) (seed support : Nat) (logits before : List Nat) : PropPos :=
  let adj := adjust smp before logits
  if smp.temp = 0 then
    match greedyTok adj with
    | none => []
    | some g => [(g, true, fOf 1 1)]
  else
    let q := finalDist smp support adj
    match drawFrom (drawU seed before.length 0) 0 q with
    | none => []
    | some x => q.map fun e => (e.1, e.1 = x, e.2)

/-- What a round does for a request of `k` proposals: from the tokens committed or decided, the rounds left and the proposals so
far. With more rounds left than proposals, the round only stores the cache entry of the last proposal (R402). -/
def draftTurn (g : Program) (d : DraftProg) (r : Req) (k left : Nat) (toks : List Nat) (props : List PropPos) (t : Tab Byte) :
    List PropPos × Tab Byte :=
  if k < left then
    let p := toks.length - 2
    (props, (draftPass g d r (toks.getD p 0) p t).2)
  else
    let before := toks ++ props.map propTok
    let p := before.length - 1
    let x := draftPass g d r (before.getD p 0) p t
    (props ++ [draftPos r.smp r.seed d.support x.1 before], x.2)

/-- R405: the engine fills the draft cache of `n` positions of a prefill chunk. -/
def fillCache (g : Program) (d : DraftProg) (r : Req) : Nat → Nat → Tab Byte → Tab Byte
  | 0, _, t => t
  | n + 1, p, t => fillCache g d r n (p + 1) (draftPass g d r (r.toks.getD p 0) p t).2
/-- R405: the draft cache of a prefill chunk, where the partition has a draft program that drafts. -/
def fillDraft (r : Req) (ntok : Nat) (s : State) : State :=
  match (s.spart r.part).program, draftReady s r.part with
  | some g, some d => { s with mem := { s.mem with bytes := fillCache g d r ntok r.filled s.mem.bytes } }
  | _, _ => s

end Sys2Proof.Machine
end

