-- ==== Sys2Proof/Machine/SealOps.lean ====
section
/-!
DEFINITION. Shared operations of the DRBG, the share vaults and the Crosswind sessions
(spec/16_sealed_arithmetic_crosswind.md R435 to R447).
-/
namespace Sys2Proof.Machine

/-! ## The DRBG (R435 to R437) -/

/-- R437: the DRBG refuses to generate: it is not instantiated, or its reseed interval has run out. -/
def drbgDown (s : State) : Bool := !s.sealed.drbg.ready || (s.sealed.drbg.exhausted || decide (2 ^ 20 ≤ s.sealed.drbg.reqs))
/-- One generate request. -/
def drbgDraw (s : State) : State :=
  { s with freeCtr := s.freeCtr + 1
           sealed := { s.sealed with drbg := { s.sealed.drbg with reqs := s.sealed.drbg.reqs + 1 } } }

/-! ## Share vaults (R438 to R442) -/

/-- The bytes and flaws of several frames become zeros. -/
def zeroFrames (l : List Nat) (s : State) : State :=
  { s with mem := { s.mem with
      bytes := s.mem.bytes.filter fun e => !decide (e.1 / 65536 ∈ l)
      flaws := s.mem.flaws.filter fun e => !decide (e.1 / 65536 ∈ l) } }

/-- The vault in a slot. -/
def State.vault (s : State) (v : Nat) : Option Vault := (s.sealed.vaults.find? fun e => e.1 = v).map Prod.snd

/-- R440: begin an epoch change: the key of the next epoch is drawn; while the DRBG refuses the change waits. -/
def beginChange (v : Nat) (s : State) : State :=
  if drbgDown s then modVault v (fun x => { x with waitKey := true }) s
  else
    logInfo 0x0607 0x00 0 [v, 0]
      (drbgDraw (modVault v (fun x => { x with changing := true, again := false, waitKey := false, heldNoted := false }) s))

/-- R440: a line reaches 0x7000: a change begins, or the next one is noted. -/
def askChange (v : Nat) (s : State) : State :=
  match s.vault v with
  | none => s
  | some x => if x.changing then modVault v (fun x => { x with again := true }) s else beginChange v s

/-- Apply held writes in their order. -/
def applyHeld : List (Nat × List Byte) → State → State
  | [], s => s
  | e :: t, s => applyHeld t (writeLine e.1 e.2 [] s).2

/-- R440: the re-encryption pass ends: the old key is destroyed, every line has counter 0 under the new epoch, held writes are
applied; a change that was noted meanwhile starts. -/
def endChange (v : Nat) (s : State) : State :=
  match s.vault v with
  | none => s
  | some x =>
    if !x.changing then s
    else
      let s1 := modVault v (fun y => { y with changing := false, epoch := y.epoch + 1, ctr := [], held := [] }) s
      let s2 := logInfo 0x0607 0x00 0 [v, 1] (applyHeld x.held s1)
      if x.again then beginChange v s2 else s2

/-- After a reseed the changes that waited for a key begin. -/
def retryChanges : List (Nat × Vault) → State → State
  | [], s => s
  | e :: t, s => retryChanges t (if e.2.waitKey then beginChange e.1 s else s)

/-! ## Crosswind (R443 to R447) -/

/-- The session in a slot. -/
def State.cxSess (s : State) (i : Nat) : Option CxSess := (s.sealed.cx.find? fun e => e.1 = i).map Prod.snd
/-- Change a session. -/
def modCx (i : Nat) (f : CxSess → CxSess) (s : State) : State :=
  { s with sealed := { s.sealed with cx := s.sealed.cx.map fun e => if e.1 = i then (e.1, f e.2) else e } }
/-- A session leaves its slot; its channel keys are erased. -/
def dropCx (i : Nat) (s : State) : State :=
  modGport 11 (fun p => { p with chans := Tab.put {} p.chans i {} })
    { s with sealed := { s.sealed with cx := s.sealed.cx.filter fun e => e.1 ≠ i } }

/-- Why a session aborts (R447). -/
inductive CxReason | protocol | tupleMismatch | suspendedLong | vaultClosed | peer
  deriving DecidableEq, Repr
/-- The reasons in the order of R447. -/
def CxReason.code : CxReason → Nat
  | .protocol => 0 | .tupleMismatch => 1 | .suspendedLong => 2 | .vaultClosed => 3 | .peer => 4
/-- R447, Table FR-2: an abort. The peer is told unless the abort came from it; every unconsumed tuple is destroyed; a handshake
that runs for the session fails. -/
def abortCx (i : Nat) (r : CxReason) (s : State) : State :=
  let s1 := if r = .peer then s else send (.cx i "ABORT" [r.code]) s
  let s2 := completeAwait (fun a => a = .pairing i || a = .resume i) { status := 0x12, detail := 0x0608 } (dropCx i s1)
  logUe (if r = .vaultClosed then .partition else .operation) 0x060D 0x00 0 [i, r.code] s2
/-- Abort several sessions. -/
def abortAllCx (r : CxReason) : List Nat → State → State
  | [], s => s
  | i :: t, s => abortAllCx r t (abortCx i r s)

/-- R447: the channel of a session is down: it is SUSPENDED. -/
def suspendCx (i : Nat) (s : State) : State :=
  match s.cxSess i with
  | none => s
  | some x =>
    if !x.paired || x.suspended.isSome then s
    else logInfo 0x060E 0x00 0 [i] (modCx i (fun x => { x with suspended := some s.now }) s)

/-- The frames of a batch: at most 4,064 bytes each. -/
def batchFrames (i : Nat) (b : CxBatch) : Nat → Nat → List Byte → State → State
  | 0, _, _, s => s
  | k + 1, seq, l, s =>
    let last := l.length ≤ 4064
    let s1 := send (.cx i "BATCH" ([b.round, seq, b2n last, b.base, b.count] ++ (l.take 4064).map BitVec.toNat))
      (modSChan 11 i (fun c => { c with tx := c.tx + 1 }) s)
    if last then s1 else batchFrames i b k (seq + 1) (l.drop 4064) s1
/-- Send a batch, byte for byte as it is stored. -/
def sendBatch (i : Nat) (b : CxBatch) (s : State) : State := batchFrames i b (b.bytes.length / 4064 + 1) 0 b.bytes s
/-- A session may send now: GP11 and its channel are UP. -/
def cxMaySend (s : State) (i : Nat) : Bool := (s.gport 11).st = .up && ((s.chanOf 11 i).st = .up && (s.chanOf 11 i).tx < 2 ^ 42)

/-- R445: ACK(r). -/
def sendAck (i r : Nat) (s : State) : State := send (.cx i "ACK" [r]) (modSChan 11 i (fun c => { c with tx := c.tx + 1 }) s)

/-- R445, R446: send what a session has to send: the batch of its round once its tuples are generated, the ACK of a complete
batch. -/
def pumpCx (i : Nat) (s : State) : State :=
  match s.cxSess i with
  | none => s
  | some x =>
    if !x.paired || (x.suspended.isSome || !cxMaySend s i) then s
    else
      let s1 := match x.out with
        | some b =>
          if !b.sent && b.base + b.count ≤ x.made then modCx i (fun x => { x with out := some { b with sent := true } }) (sendBatch i b s)
          else s
        | none => s
      if x.inDone && !x.sentAck then modCx i (fun x => { x with sentAck := true }) (sendAck i x.round s1) else s1

/-- R445: a complete batch is written into the vault, and the session's event object is set with the round. -/
def takeBatch (i : Nat) (s : State) : State :=
  match s.cxSess i with
  | none => s
  | some x =>
    match s.vault x.vault with
    | none => s
    | some v =>
      let size := v.frames.length * 65536
      let off := Config.cxPlace i x.round % size
      let dpa := v.frames.getD (off / 65536) 0 * 65536 + off % 65536
      lullSet x.event x.round (memWrite dpa (x.inBuf.take (size - off)) s).2

/-- An end begins round r + 1 only after it has both sent and received ACK(r) (R445). -/
def advanceCx (i : Nat) (s : State) : State :=
  match s.cxSess i with
  | none => s
  | some x =>
    if x.sentAck && x.gotAck then
      let s1 := modCx i (fun x => { x with
        round := x.round + 1, out := x.next, next := none, sentAck := false, gotAck := false, inSeq := x.nextSeq, inBuf := x.nextBuf
        inDone := x.nextDone, nextSeq := 0, nextBuf := [], nextDone := false }) s
      pumpCx i (if x.nextDone then takeBatch i s1 else s1)
    else s

/-- R441: an open vault of another partition holds a byte of a range. -/
def vaultGuards (s : State) (part dpa : Nat) : Option Nat :=
  (s.sealed.vaults.find? fun e => dpa / 65536 ∈ e.2.frames && e.2.part ≠ part).map Prod.fst
/-- The record of a guarded access: at most one per vault per second. -/
def guardRecord (v : Nat) (s : State) : State := logLimitedAt v 1000000000 .sec 0x0609 0x00 0 [v] .none s

/-! ## Closing a vault (R442) -/

/-- A vault closes: its sessions abort, its keys are destroyed, its lines become plaintext zeros, the metadata frames are freed. -/
def closeVault (v cause : Nat) (s : State) : State :=
  match s.vault v with
  | none => s
  | some x =>
    let s1 := abortAllCx .vaultClosed ((s.sealed.cx.filter fun e => e.2.vault = v).map Prod.fst) s
    let s2 := { s1 with sealed := { s1.sealed with vaults := s1.sealed.vaults.filter fun e => e.1 ≠ v } }
    logInfo 0x060A 0x00 0 [v, cause] (freeFrames x.metaFrames (zeroFrames x.frames s2))

end Sys2Proof.Machine
end

