-- ==== Sys2Proof/Machine/LinkOps.lean ====
section
/-!
DEFINITION. Shared operations of the Gust ports: packets onto a link, sealed frames and their counters, replay, training,
leaving service (spec/17_gust_links_and_host.md R451 to R467).
-/
namespace Sys2Proof.Machine

/-! ## Sending (R451, R452, R455, R461, R462, R464, R467) -/

/-- The 256 bytes of the flit that carries Gale flits from `i` on. -/
def flitBytes (p : Packet) (i : Nat) : List Byte :=
  let l := (p.data.drop (128 * i)).take 256
  l ++ List.replicate (256 - l.length) 0
/-- The flits of a packet, of KIND 1 or 2: pairs of Gale flits. -/
def packFlits (kind : Nat) (p : Packet) : List (BitVec 56 × List Byte) :=
  let n := galeFlits p
  (List.range (ceilDiv n 2)).map fun j =>
    (flitHeader kind p.sb (2 * j) (decide (2 * j + 1 < n)) (decide (n ≤ 2 * j + 2)) false, flitBytes p (2 * j))
/-- R462: the IV: the key epoch over the frame counter. -/
def sealIv (epoch ctr : Nat) : Nat := epoch % 2 ^ 32 * 2 ^ 64 + ctr % 2 ^ 64
/-- R462: the associated data: the first flit's header, the count of Gale flits, CHAN. -/
def sealAad (sb : BitVec 64) (n chan : Nat) : List Byte :=
  leBytes 7 (flitHeader 2 sb 0 (decide (1 < n)) (decide (n ≤ 2)) false).toNat ++ [BitVec.ofNat 8 n, BitVec.ofNat 8 chan]
/-- The Gale flits of a packet as the payload of a sealed frame: whole flits. -/
def sealedPayload (p : Packet) : List Byte := p.data ++ List.replicate (128 * galeFlits p - p.data.length) 0
/-- R462: the sealed form of a packet on a channel at its counter: the packet with its payload encrypted, and the GCM tag. -/
def sealPacket (x : SChan) (chan : Nat) (p : Packet) : Packet × BitVec 128 :=
  let r := Config.gcmSeal x.txKey (sealIv x.txEpoch x.tx) (sealAad p.sb (galeFlits p) chan) (sealedPayload p)
  ({ p with data := r.1.take (128 * galeFlits p) }, r.2)
/-- R462, Table GL-7: a sealed frame: its flits, then the tag flit. -/
def sealedFlits (x : SChan) (chan : Nat) (p : Packet) : List (BitVec 56 × List Byte) :=
  let r := sealPacket x chan p
  packFlits 2 r.1 ++ [(flitHeader 2 p.sb (galeFlits p) false true true,
    leBytes 16 r.2.toNat ++ leBytes 8 x.tx ++ leBytes 4 x.txEpoch ++ leBytes 1 chan ++ List.replicate 227 0)]
/-- The flits that a packet takes on a link. -/
def linkFlits (p : Packet) (sealed : Bool) : Nat := ceilDiv (galeFlits p) 2 + b2n sealed
/-- Number flits and put them into the retry buffer. -/
def putFlits : List (BitVec 56 × List Byte) → GPort → GPort
  | [], p => p
  | f :: t, p => putFlits t { p with retry := p.retry ++ [{ fseq := p.txNext, hdr := f.1, data := f.2 }], txNext := p.txNext + 1 }

/-- R461: the packet is sealed on its port. -/
def mustSeal (s : State) (k : Nat) (p : Packet) : Bool := k ≠ 11 && ctPart s (sbPart p.sb)
/-- The credits of a class. -/
def GPort.credit (p : GPort) (vc : Nat) : Nat := p.credits.toList.getD (vc - 1) 0
/-- Change the credits of a class. -/
def GPort.setCredit (p : GPort) (vc n : Nat) : GPort :=
  { p with credits := Vector.ofFn fun i => if i.val + 1 = vc then min 256 n else p.credits[i] }
/-- R452, R455, R467: a packet may go onto the link now: the port is UP and READY has come from the far end, or it is TEST traffic
in probation; its class holds the credits and the retry buffer the room (whole packets, DESIGN CHOICE, log 33). -/
def maySend (p : GPort) (x : Packet) (flits : Nat) : Bool :=
  ((p.st = .up && p.readyGot) || (sbTest x.sb && (p.st = .probation || p.st = .up)))
    && (flits ≤ p.credit (sbVc x.sb) && p.retry.length + flits ≤ 1024)
/-- Flits go onto the link and into the retry buffer, each for a credit of its class. -/
def emitFlits (k vc : Nat) (f : List (BitVec 56 × List Byte)) (s : State) : State :=
  modGport k (fun p => putFlits f (p.setCredit vc (p.credit vc - f.length))) s
/-- Put a packet onto the link. -/
def emitPacket (k : Nat) (x : Packet) (s : State) : State :=
  send (.link k "DATA" (x.sb.toNat :: x.data.map BitVec.toNat)) (emitFlits k (sbVc x.sb) (packFlits 1 x) s)
/-- R462: a sealed frame takes the next counter of its channel. -/
def emitSealed (k c : Nat) (x : Packet) (s : State) : State :=
  let ch := s.chanOf k c
  let r := sealPacket ch c x
  send (.link k "SEALED" (x.sb.toNat :: c :: ch.txEpoch :: ch.tx :: r.2.toNat :: r.1.data.map BitVec.toNat))
    (emitFlits k (sbVc x.sb) (sealedFlits ch c x) (modSChan k c (fun y => { y with tx := y.tx + 1 }) s))

/-- Try to send a packet; whether it has left the edge router. A sealed packet whose channel is not UP waits in the hold queue, or
is refused with HOLD when 64 wait (R464). -/
def trySend (k : Nat) (x : Packet) (s : State) : Bool × State :=
  let p := s.gport k
  if mustSeal s k x then
    let c := s.chanOf k 0
    if c.st = .up && c.tx < 2 ^ 42 then
      if maySend p x (linkFlits x true) then (true, emitSealed k 0 x s) else (false, s)
    else if c.held.length < 64 then (true, modSChan k 0 (fun y => { y with held := y.held ++ [x] }) s)
    else (true, discardPacket x (modGport k (fun p => { p with holdRef := satInc p.holdRef }) s))
  else if maySend p x (linkFlits x false) then (true, emitPacket k x s)
  else (false, s)
/-- Send what can be sent of a list of waiting packets; those that still wait, in order. -/
def sendList (k : Nat) : List Packet → State → List Packet × State
  | [], s => ([], s)
  | x :: t, s =>
    let a := trySend k x s
    let r := sendList k t a.2
    (if a.1 then r.1 else x :: r.1, r.2)
/-- The waiting packets of a port are tried again. -/
def pumpPort (k : Nat) (s : State) : State :=
  let r := sendList k (s.gport k).waitq (modGport k (fun p => { p with waitq := [] }) s)
  modGport k (fun p => { p with waitq := r.1 ++ p.waitq }) r.2

/-- A request that the port tracks until it is answered (R476). -/
def trackedReq (x : Packet) : Bool := sbRequest x.sb && !(sbType x.sb = 0 && sbTag x.sb = 0)
/-- A (SRC, TAG) is in a list. -/
def hasTag (l : List (Nat × Nat × Nat)) (src tag : Nat) : Bool := l.any fun e => e.1 = src && e.2.1 = tag
/-- The list without a (SRC, TAG). -/
def dropTag (l : List (Nat × Nat × Nat)) (src tag : Nat) : List (Nat × Nat × Nat) := l.filter fun e => !(e.1 = src && e.2.1 = tag)

/-- R36, R102: a port carries packets and Lull messages: GP11 carries Crosswind traffic and link control only, and the ports of an
excluded package carry link control and JOIN records only. -/
def gustCarries (s : State) (k : Nat) : Bool := k ≠ 11 && s.aon.phase ≠ .excluded
/-- R451, R476 to R479: the edge router hands a packet with REMOTE to its port: one for a port that carries none is refused; a response that is
ready more than 1 ms after its request is discarded; a request that reuses a quarantined tag is refused; one that finds the table
of 4,096 entries full waits. -/
def toPort (k : Nat) (x : Packet) (s : State) : State :=
  let p := s.gport k
  let src := sbSrc x.sb
  let tag := sbTag x.sb
  if !gustCarries s k then discardPacket x s
  else if trackedReq x then
    if hasTag p.quar src tag then discardPacket x (modGport k (fun p => { p with reused := satInc p.reused }) s)
    else if 4096 ≤ p.tracked.length then modGport k (fun p => { p with waitq := p.waitq ++ [x] }) s
    else pumpPort k (modGport k (fun p => { p with tracked := p.tracked ++ [(src, tag, s.now)], waitq := p.waitq ++ [x] }) s)
  else
    match p.arrived.find? fun e => e.1 = sbDst x.sb && e.2.1 = tag with
    | some e =>
      let s1 := modGport k (fun p => { p with arrived := dropTag p.arrived e.1 e.2.1 }) s
      if e.2.2 + 1000000 < s.now then modGport k (fun p => { p with late := satInc p.late }) s1
      else pumpPort k (modGport k (fun p => { p with waitq := p.waitq ++ [x] }) s1)
    | none => pumpPort k (modGport k (fun p => { p with waitq := p.waitq ++ [x] }) s)

/-! ## Channels (R463 to R465) -/

/-- Discard held frames; requests among them receive error responses. -/
def returnHeld (k c : Nat) (s : State) : State :=
  discardAll (s.chanOf k c).held (modSChan k c (fun x => { x with held := [] }) s)
/-- R465: a channel is down: held frames return to their sources, its session is SUSPENDED, a LINK_REKEY of it fails, rekey retries
stop. -/
def channelDown (k c : Nat) (s : State) : State :=
  let s1 := modSChan k c (fun x => { x with st := .down, handshake := false, next := none, pend := false }) (returnHeld k c s)
  let s2 := completeAwait (fun a => a = .linkRekey k c) { status := 0x12, detail := 0x0704 } s1
  if k = 11 then suspendCx c s2 else s2

/-- R465: the changeover: the transmitter takes the new key with counter 0 and held frames leave in their order. -/
def changeover (k c e : Nat) (s : State) : State :=
  let held := (s.chanOf k c).held
  let s1 := modSChan k c (fun x => { x with
    st := .up, txEpoch := e, tx := 0, pend := false, handshake := false, next := none, held := [], txKey := x.nextTx }) s
  let s2 := logInfo 0x0708 0x07 k [k, c, e] s1
  let s3 := completeAwait (fun a => a = .linkRekey k c) { status := 0 } s2
  let r := sendList k held s3
  let s4 := modGport k (fun p => { p with waitq := r.1 ++ p.waitq }) r.2
  if k = 11 then pumpCx c s4 else pumpPort k s4

/-! ## Training (R458, R467) -/

/-- A port begins step 1 of Table GL-5; epoch 0 under fresh keys follows at its handshake. -/
def startTraining (k : Nat) (s : State) : State :=
  let old := s.gport k
  setPortSt k .training (setGport k { (({} : GPort)) with
    st := old.st, step := 1, lanes := 4, tracked := old.tracked, quar := old.quar, replays := old.replays, crcErr := old.crcErr
    late := old.late, timeouts := old.timeouts, holdRef := old.holdRef, reused := old.reused, txHi := old.txHi, faultAt := old.faultAt
    retrained := old.retrained, returnedAt := old.returnedAt, badLink := old.badLink } s)
/-- Every port begins training. -/
def trainPorts : List Nat → State → State
  | [], s => s
  | k :: t, s => trainPorts t (if (s.gport k).st = .miswired then s else startTraining k s)
/-- R518: a port's probation has failed: PROBATION_FAIL with the step, counted. -/
def portProbationFailed (k : Nat) (s : State) : State :=
  let r := s.unitRec 0x07 k
  logUe .unit 0x0B03 0x07 k [5] (setUnitRec 0x07 k { r with fails := r.fails + 1, refused := decide (3 ≤ r.fails + 1) } s)
/-- A training ends without reaching probation's pass: the final state is the answer of LINK_RETRAIN, the failing step that of
UNIT_RETURN (R518). -/
def trainFails (k : Nat) (st : PortSt) (s : State) : State :=
  let step := (s.gport k).step
  let s0 := if (s.gport k).st = .probation && (step = 5 && st = .faulted) then portProbationFailed k s else s
  let s1 := completeAwait (fun a => a = .linkTrain k) { status := 0, res := [st.code] } (setPortSt k st (modGport k (fun p => { p with step := 0 }) s0))
  completeAwait (fun a => a = .unitReturn 0x07 k) { status := 0, res := [step] } s1
/-- R460: the message of one end of a handshake: its chain, public key and nonce, then the tray ID, slot and port that it carries. -/
def hsMessage (chain key nonce : List Byte) (tray slot port : Nat) : List Byte :=
  chain ++ key ++ nonce ++ leBytes 2 tray ++ leBytes 1 slot ++ leBytes 1 port
/-- This end's message of the handshake that runs on a port. -/
def ownHsMessage (s : State) (k : Nat) : List Byte :=
  hsMessage (ownChain s) (Config.p384Public (s.gport k).ephem) (s.gport k).nonce s.aon.trayId s.aon.slot.val k
/-- R458 step 4 on GP0 to GP10, R460: the link handshake begins with this end's chain, a fresh ephemeral key and a fresh nonce. -/
def startHandshake (k : Nat) (s : State) : State :=
  let s1 := modGport k (fun p => { p with nonce := hsNonce s, ephem := hsEphem s }) (hsDrawn s)
  linkFlit k 2 "HANDSHAKE" ((ownHsMessage s1 k).map BitVec.toNat) s1
/-- Step 5: probation; the receiver grants 256 credits of each class (R455). -/
def startProbation (k : Nat) (s : State) : State :=
  setPortSt k .probation (modGport k (fun p => { p with step := 5, credits := #v[256, 256, 256] }) s)
/-- Step 4, or step 5 at once on GP11. -/
def afterIdent (k : Nat) (s : State) : State :=
  if k = 11 then startProbation k s else startHandshake k (modGport k (fun p => { p with step := 4 }) s)

/-- R467: the switch admits a port: it is UP and sends READY. -/
def portUp (k : Nat) (s : State) : State :=
  let s1 := setPortSt k .up (modGport k (fun p => { p with step := 0, readySent := true, returnedAt := if p.faultAt.isSome then some s.now else none, retrained := false }) s)
  pumpPort k (completeAwait (fun a => a = .linkTrain k) { status := 0, res := [5] } (linkFlit k 5 "READY" [s.net.epoch.toNat] s1))

/-! ## Leaving service (R466) -/

/-- Every tracked remote request of a port ends with an error response, and its tag is quarantined. -/
def endTracked (k : Nat) : List (Nat × Nat × Nat) → State → State
  | [], s => s
  | e :: t, s => endTracked k t (errorResponse e.1 e.2.1 (modGport k (fun p => { p with quar := p.quar ++ [(e.1, e.2.1, s.now)] }) s))
/-- The Crosswind sessions are SUSPENDED. -/
def suspendAll : List Nat → State → State
  | [], s => s
  | i :: t, s => suspendAll t (suspendCx i s)
/-- R466: what the hardware does at once when a port leaves: tracked requests end, sealed-channel keys are erased, waiting packets are
discarded; GUST_DOWN is written. -/
def portLeaves (k cause : Nat) (s : State) : State :=
  let p := s.gport k
  let held := p.chans.flatMap fun e => e.2.held
  let s1 := endTracked k p.tracked (modGport k (fun p => { p with tracked := [] }) s)
  let s2 := discardAll (p.waitq ++ held) (modGport k (fun p => { p with
    waitq := [], retry := [], chans := [], asm := [], arrived := [], readySent := false, readyGot := false, faultAt := some s.now }) s1)
  let s3 := if k = 11 then suspendAll (s.sealed.cx.map Prod.fst) s2 else s2
  logUe .unit 0x0702 0x07 k [k, cause] s3

/-! ## Replay (R452 to R454) -/

/-- Replays of the running second, this one included. -/
def replaySecond (p : GPort) (now : Nat) : Nat × Nat :=
  if now < p.winStart + 1000000000 then (p.winStart, p.winCount + 1) else (now, 1)
/-- R453: the transmitter replays from an FSEQ: GUST_REPLAY at most once per 10 ms, GLK_REPLAY. The answer is whether the port now
leaves service under R454. -/
def replayFrom (k : Nat) (from_ : BitVec 16) (s : State) : Bool × State :=
  let p := s.gport k
  let n := match p.same with
    | some (f, c) => if f = from_ then c + 1 else 1
    | none => 1
  let w := replaySecond p s.now
  let s1 := modGport k (fun p => { p with replays := satInc p.replays, same := some (from_, n), winStart := w.1, winCount := w.2 }) s
  (decide (8 ≤ n) || decide (1000 < w.2),
   logLimited 10000000 .ce 0x0703 0x07 k [k] .none (send (.link k "REPLAY" [from_.toNat]) s1))

/-! ## Receiving (R451) -/

/-- R199, R201, R223, R233: a packet with its sideband as the edge router of port `k` stamps it enters the mesh there, like any injection. -/
def enterMesh (k : Nat) (here : BitVec 64) (data : List Byte) (s : State) : State :=
  let p : Packet := { id := s.net.nextId, src := gustNode k, port := 7, sb := here, data := data }
  if !sbLegal here then discardPacket p s
  else if sbMcast here then
    if groupUsable s p.src here && mcastType here then launchMcast true p s
    else logLimitedAt (p.src * 16 + 7) 10000000 .info 0x0315 0x02 p.src [sbDst here] .none (discardPacket p s)
  else if unreachable s p.src here then
    netCount 8 p.src (logLimitedAt (p.src * 16 + 7) 10000000 .info 0x0303 0x02 p.src [routeIdx here] .none (discardPacket p s))
  else launch [p] p s
/-- The packets that wait at Gust ports for room go in, in their order for each port and class. -/
def drainGust : List GustEntry → State → State
  | [], s => s
  | e :: t, s =>
    drainGust t (if (s.net.gustWait.any fun x => x.port = e.port && sbVc x.sb = sbVc e.sb) || overLimit s (gustNode e.port) 7 (sbVc e.sb) e.data then
        { s with net := { s.net with gustWait := s.net.gustWait ++ [e] } }
      else enterMesh e.port e.sb e.data s)
/-- All of them. -/
def drainGusts (s : State) : State := drainGust s.net.gustWait { s with net := { s.net with gustWait := [] } }
/-- The sideband with which the edge router of port `k` puts a packet into the mesh: REMOTE clear, EPOCH stamped (R224), and a request
goes to the gateway of the port's node (R216). -/
def edgeSideband (s : State) (k : Nat) (sb : BitVec 64) : BitVec 64 :=
  let here := setBit (setBit sb 56 false) 16 (s.routerPar (gustNode k))
  if sbRequest sb && !sbMcast sb then (here &&& ~~~ (0x7F : BitVec 64)) ||| BitVec.ofNat 64 (gatewayNode (gatewayFor s (gustNode k)) % 128) else here
/-- A packet reaches the edge router of port `k`; the arrival time of a request is kept (R479). It waits while its source has no room
(R201). -/
def inject (k : Nat) (sb : BitVec 64) (data : List Byte) (s : State) : State :=
  let s1 := if sbRequest sb && !sbMcast sb then
      modGport k (fun q => { q with arrived := dropTag q.arrived (sbSrc sb) (sbTag sb) ++ [(sbSrc sb, sbTag sb, s.now)] }) s
    else s
  drainGusts { s1 with net := { s1.net with gustWait := s1.net.gustWait ++ [{ port := k, sb := edgeSideband s k sb, data := data }] } }

/-- The answer to a tracked request has arrived: it is delivered; one whose tag is in quarantine is discarded, counted and logged
(R478). -/
def answerArrives (k node tag : Nat) (deliver : State → State) (s : State) : State :=
  let p := s.gport k
  match p.quar.find? fun e => e.1 = node && e.2.1 = tag with
  | some e => logInfo 0x0710 0x07 k [k, tag, s.now - e.2.2] (modGport k (fun p => { p with late := satInc p.late }) s)
  | none => deliver (modGport k (fun p => { p with tracked := dropTag p.tracked node tag }) s)

end Sys2Proof.Machine
end

