-- ==== Sys2Proof/Machine/Service.lean ====
section
/-!
DEFINITION. The shared operations of the package as a whole: the power command bus, the rail and power-down sequences, the
phases of a start, failed starts and doldrums mode, FATAL records, takeovers, mailbox response posting, fences and resets.
-/
namespace Sys2Proof.Machine

/-! ## The power command bus (spec/03_clocks_resets_power.md R78 to R83) -/

/-- Put a frame on the bus: a new command takes the next SEQ of its VPM, a resend keeps its own (R78, R80). Under EXTEST it does not
reach the pins (R49). -/
def startFrame (f : Frame) (s : State) : State :=
  let n := Tab.get 0 s.pwr.seqs f.vpm
  let f1 := if f.fails = 0 then { f with seq := n } else f
  let s1 := { s with pwr := { s.pwr with
    bus := some f1
    seqs := if f.fails = 0 then Tab.put 0 s.pwr.seqs f.vpm ((n + 1) % 16) else s.pwr.seqs } }
  if s.pins.extest then s1
  else send (.pcmd f1.vpm f1.op f1.chan f1.data f1.seq (requestCrc f1.vpm f1.op f1.chan f1.data f1.seq)) s1

/-- Ask for a frame: it starts at once on an idle bus and waits otherwise; a frame in progress is never cut short (R82). -/
def pushFrame (f : Frame) (s : State) : State :=
  match s.pwr.bus with
  | none => startFrame f s
  | some _ => { s with pwr := { s.pwr with frames := s.pwr.frames ++ [f] } }

/-- Ask for several frames in order. -/
def pushFrames : List Frame → State → State
  | [], s => s
  | f :: t, s => pushFrames t (pushFrame f s)

/-- The rank of a waiting frame: the sequencer sends the lowest first (R82). -/
def FrameKind.rank : FrameKind → Nat
  | .safety => 0 | .alert => 1 | .setpoint => 2 | .telemetry => 3

/-- The next frame to send and the frames left: the first of the lowest rank. -/
def pickFrame (l : List Frame) : Option (Frame × List Frame) :=
  let r := l.foldl (fun m f => min m f.kind.rank) 9
  (l.find? fun f => f.kind.rank = r).map fun f => (f, l.erase f)

/-- The bus is free again: the next waiting frame starts (R82). -/
def nextFrame (s : State) : State :=
  match pickFrame s.pwr.frames with
  | none => { s with pwr := { s.pwr with bus := none } }
  | some (f, rest) => startFrame f { s with pwr := { s.pwr with bus := none, frames := rest } }

/-- The state of a rail. -/
def State.rail (s : State) (vpm chan : Nat) : Rail := Tab.get {} s.pwr.rails (railKey vpm chan)
/-- Change a rail. -/
def modRail (vpm chan : Nat) (f : Rail → Rail) (s : State) : State :=
  { s with pwr := { s.pwr with rails := Tab.mod {} s.pwr.rails (railKey vpm chan) f } }
/-- The present setpoint of a rail: its nominal value until a SET_V changes it. -/
def State.mvOf (s : State) (vpm chan : Nat) : Nat :=
  if (s.rail vpm chan).mv = 0 then nominalMv vpm chan else (s.rail vpm chan).mv

/-! ## Fencing (spec/19_faults_and_recovery.md R507 to R510) -/

/-- The nodes at which a unit sits. -/
def unitNodes (ut inst : Nat) : List Nat :=
  match ut with
  | 0x01 | 0x02 | 0x03 => [inst]
  | 0x04 | 0x06 => mcNodes inst
  | 0x05 => mcNodes (2 * inst) ++ mcNodes (2 * inst + 1)
  | 0x07 => [gustNode inst]
  | 0x08 => [gatewayNode inst]
  | 0x09 => (List.range 128).filter fun c => tileOf c = inst
  | 0x0C => [vaneNode inst]
  | _ => []

/-- R510: the fence of a cluster counts as its group reporting, with the group's work for the step discarded. -/
def discardGroup (c : Nat) (s : State) : State :=
  let g := groupOf c
  if s.serve.groups.getLsbD g && !s.serve.reported.getLsbD g then
    { s with serve := { s.serve with reported := setBit s.serve.reported g true, discarded := setBit s.serve.discarded g true } }
  else s
/-- What the fence of a cluster's port does beside the steps that every fence takes: FENCE is raised, the port holds nothing, its
cluster window is revoked, the cluster's fine-grain regulator goes off (R84, R508 steps 1, 7 and 8). -/
def revokeCluster (c : Nat) (s : State) : State :=
  let s1 := discardGroup c { s with bond := { s.bond with ports := Tab.mod {} s.bond.ports c fun p =>
    { p with fence := true, fifo := [], breeze := [], streams := [], winBase := 0, winLen := 0 } } }
  { s1 with pwr := { s1.pwr with
      fgrOn := setBit s1.pwr.fgrOn c false, fgrRamp := setBit s1.pwr.fgrRamp c false, fgrQueue := setBit s1.pwr.fgrQueue c false } }
/-- R508, steps 1 to 8 of Table FR-5b: take back what a fenced unit held. -/
def revokeHeld (ut inst : Nat) (s : State) : State :=
  let cause := (s.unitRec ut inst).trigger
  let s1 := if ut = 0x01 then revokeCluster inst s else s
  breakWindowsOf ut inst cause (loseUnitContribs ut inst (poisonFor ut inst cause s1))
/-- R508: the same and step 9: routes are built without the unit. -/
def revoke (ut inst : Nat) (s : State) : State := rebuildRoutes (revokeHeld ut inst s)

/-- Record a fence in the service record of a unit. -/
def markFaulted (ut inst trigger : Nat) (s : State) : State :=
  setUnitRec ut inst { s.unitRec ut inst with st := .faulted, trigger := trigger, trigTs := s.now } s

/-- R507, R508: hardware fences a unit: it becomes FAULTED, its resources are taken back in the order of Table FR-5b, and
UNIT_FENCED is written. -/
def fenceUnit (ut inst trigger : Nat) (s : State) : State :=
  logUe .unit 0x0B01 ut inst [trigger] (revoke ut inst (markFaulted ut inst trigger s))

/-- R519: a unit whose routes are gone already is fenced on purpose and becomes OFFLINE, with a record of its own. -/
def offlineUnit (ut inst : Nat) (s : State) : State :=
  logInfo 0x0B04 ut inst [] (setUnitSt ut inst .offline (revokeHeld ut inst s))

/-- Fence several units of one type. -/
def fenceAll (ut trigger : Nat) : List Nat → State → State
  | [], s => s
  | i :: t, s => fenceAll ut trigger t (fenceUnit ut i trigger s)

/-- The clusters of a tile that are in service or in probation. -/
def State.tilePorts (s : State) (q : Nat) : List Nat :=
  (List.range 128).filter fun c => tileOf c = q ∧ (s.unitSt 0x01 c = .inService ∨ s.unitSt 0x01 c = .probation)

/-- Every port of tile q is fenced and its rail gated off (R68, R80, R81, R83). -/
def fenceTile (q trigger : Nat) (s : State) : State :=
  let s1 := markFaulted 0x09 q trigger (fenceAll 0x01 trigger (s.tilePorts q) s)
  { s1 with pwr := { s1.pwr with fgrOn := s1.pwr.fgrOn &&& ~~~ tileMask q, fgrRamp := s1.pwr.fgrRamp &&& ~~~ tileMask q,
                                 fgrQueue := s1.pwr.fgrQueue &&& ~~~ tileMask q } }

/-! ## The power-down sequence (R76) -/

/-- The rails that a step of the power-down sequence turns off; step 0 turns the fine-grain regulators off. -/
def downRails : Nat → List (Nat × Nat)
  | 1 => [(5, 0)] | 2 => [(4, 0)] | 3 => [(3, 0)] | 4 => [(2, 0)]
  | 5 => [(1, 2)]
  | 6 => [(6, 2), (7, 2)] | 7 => [(6, 1), (7, 1)] | 8 => [(6, 0), (7, 0)]
  | 9 => [(8, 0), (8, 1)]
  | 10 => [(1, 1)] | 11 => [(1, 0)]
  | _ => []

/-- An OFF frame of the power-down sequence. -/
def offFrame (u : FrameFor) (r : Nat × Nat) : Frame := { vpm := r.1, op := 0x2, chan := r.2, data := 0, kind := .safety, use := u }

/-- A frame that the rail sequence or a change of tile rails asked for. -/
def FrameFor.dropped : FrameFor → Bool
  | .scanStatus | .scanOff | .railOn | .change _ _ | .restore _ => true
  | .powerDown | .fence | .alertPass | .clearFault | .sweep => false
/-- Begin the power-down sequence, unless it already runs: every fine-grain regulator goes off, the PLLs of the main
rails are lost with their rails, and nothing more of the rail sequence or of a change of rails is sent (R76). -/
def powerDown (s : State) : State :=
  if s.pwr.down.isSome then s
  else
    { s with
      pwr := { s.pwr with down := some 0, downKeepBase := false, seqRun := false, waitPg := [], waitPll := [], changes := [],
                          frames := s.pwr.frames.filter fun f => !f.use.dropped
                          fgrOn := 0, fgrRamp := 0, fgrQueue := 0 }
      clk := { s.clk with mclk := false, hclk := 0, gclk := 0, tclk := 0 } }

/-! ## Phases (spec/04_start_and_doldrums.md R94 to R96) -/

/-- Time held in the current phase, the running hold included. -/
def State.heldNow (s : State) : Nat := s.start.held + s.start.holdSince.elim 0 fun t => s.now - t
/-- Time spent in the current phase outside holds. -/
def State.spentNow (s : State) : Nat := s.now - s.start.phaseStart - s.heldNow

/-- The times of the running try are added to those of its phase, for START_STATUS; the next try starts its own (R97, R115). -/
def bankTimes (s : State) : State :=
  let p := s.aon.phase.code
  let old := Tab.get (0, 0) s.start.times p
  { s with start := { s.start with
      times := Tab.ins s.start.times p (old.1 + s.spentNow, old.2 + s.heldNow), phaseStart := s.now, holdSince := none, held := 0 } }
/-- R96: a phase exit: its PHASE_EXIT record (outcome 0 pass, 1 fail) and its times. -/
def phaseExit (outcome : Nat) (s : State) : State :=
  bankTimes (logInfo 0x0110 0x00 0 [s.aon.phase.code, outcome, s.spentNow, s.heldNow] s)

/-- Enter a phase. -/
def enterPhase (p : Phase) (s : State) : State :=
  { s with
    aon := { s.aon with phase := p, startSt := .running, reason := s.aon.failReason }
    start := { s.start with phaseStart := s.now, holdSince := none, held := 0 } }

/-- R96: a failure: REASON shows it until a hold covers it or the count of failed starts returns to 0 (log 150). -/
def noteFail (reason : Nat) (s : State) : State := { s with aon := { s.aon with startSt := .failed, reason := reason, failReason := reason } }

/-- R94: enter a hold, with its START_HOLD record; a hold that already lasts only changes its reason. -/
def enterHold (reason : Nat) (s : State) : State :=
  if s.aon.startSt = .hold ∧ s.aon.reason = reason then s
  else
    let t := logInfo 0x0113 0x00 0 [s.aon.phase.code, reason] s
    { t with
      aon := { t.aon with startSt := .hold, reason := reason }
      start := { t.start with holdSince := some (s.start.holdSince.getD s.now) } }

/-- The hold ends: its time is added to the time held. -/
def leaveHold (s : State) : State :=
  if s.aon.startSt = .hold then
    { s with
      aon := { s.aon with startSt := .running, reason := s.aon.failReason }
      start := { s.start with held := s.heldNow, holdSince := none } }
  else s

/-! ## Package store (R520 to R523) -/

/-- A region of the package store is read-only (codes 1 to 6 of Table FR-5). -/
def State.regionRo (s : State) (code : Fin 6) : Bool := (s.store.regions[code]).ro

/-- The start record can be written: its region is not read-only, and the store's clock runs (R68, R109). -/
def State.startWritable (s : State) : Bool := !s.regionRo 3 && s.clk.sclk
/-- R107 to R109: the count of failed starts: the start record's, unless the counter is kept in AON_START only. -/
def State.failBase (s : State) : Nat := if s.regionRo 3 || s.aon.cntVolatile then s.aon.failCnt else s.store.failCnt
/-- R107, R109: the start record takes a new counter; while it cannot be written the counter is kept in AON_START only. -/
def setFailCnt (n : Nat) (s : State) : State :=
  let a := { s.aon with failCnt := n, failReason := if n = 0 then 0 else s.aon.failReason }
  if !s.startWritable then { s with aon := { a with cntVolatile := true } }
  else { s with aon := { a with cntVolatile := false }, store := { s.store with failCnt := n } }

/-! ## Committing records (R501) -/

/-- Commit the record at one ring index: it receives the next log position. -/
def commitOne (i : Nat) (s : State) : State :=
  let r := Tab.get {} s.log.ring i
  { s with
    store := { s.store with committed := (s.store.coldStarts, r) :: s.store.committed, logNext := s.store.logNext + 1 }
    log := { s.log with uncommitted := s.log.uncommitted.filter fun j => j ≠ i, lastCommitted := r.seq } }

/-- Commit the records at several ring indices. -/
def commitList : List Nat → State → State
  | [], s => s
  | i :: t, s => commitList t (commitOne i s)

/-- The volatile ring is lost; the records on their way to the store are committed first (R501, Table SU-4; log 8). -/
def loseRing (s : State) : State :=
  let t := if s.regionRo 5 || !s.clk.sclk then s else commitList s.log.uncommitted s
  { t with log := { t.log with ring := [], uncommitted := [] } }

/-! ## Posting responses (spec/06_windsock_mailbox.md R153, R157) -/

/-- Number of words and bytes as CMD, RSP and DATA tables. -/
def wordsTab : Nat → List Nat → Tab Word
  | _, [] => []
  | k, x :: t => if BitVec.ofNat 32 x = 0 then wordsTab (k + 1) t else (k, BitVec.ofNat 32 x) :: wordsTab (k + 1) t
/-- Bytes as a table. -/
def bytesTab : Nat → List Byte → Tab Byte
  | _, [] => []
  | k, x :: t => if x = 0 then bytesTab (k + 1) t else (k, x) :: bytesTab (k + 1) t

/-- R153: the 64 bytes of a response. -/
def rspWords (m : Mbx) (now : Nat) (r : Reply) (hw inl : Bool) : Tab Word :=
  wordsTab 0
    ([m.opcode + 65536 * m.seqNo,
      r.status + 256 * (b2n (r.status ≠ 1) + 2 * b2n hw + 4 * b2n inl) + 65536 * (r.detail % 65536),
      r.data.length, 0, now % 2 ^ 32, now / 2 ^ 32] ++ (r.res.take 10))

/-- R157, R145: a posted response sets DBL_IRQ_STATUS and, unless masked, sends its vector; a final response of mailboxes
14 and 15 raises an in-band interrupt and SMB_ALERT_N. -/
def postIrq (n : Nat) (m : Mbx) (final : Bool) (s : State) : State :=
  let masked := m.noIrq || s.mbx.irqMask.getLsbD n
  let s1 := if masked then s else sendMsix n s
  { s1 with
    mbx := { s1.mbx with irqStatus := setBit s1.mbx.irqStatus n true }
    pins := { s1.pins with smbAlert := s1.pins.smbAlert || (final && 14 ≤ n) }
    out := { s1.out with ibi := if final && (14 ≤ n && s.pins.i3cDyn.isSome) then n :: s1.out.ibi else s1.out.ibi } }

/-- Post a response: RSP takes it, output bytes go to DATA or to host memory, and the mailbox becomes IDLE after a final
response and ACCEPTED after an ACCEPTED one. -/
def postResponse (n : Nat) (r : Reply) (hw : Bool) (s : State) : State :=
  let m := s.box n
  let inl := !r.data.isEmpty && !m.outHost
  let final := r.status ≠ 1
  let m1 := { m with
    rsp := rspWords m s.now r hw inl
    data := if inl then bytesTab 0 (r.data.take 3840) else m.data
    st := if final then .idle else .accepted }
  let s1 := if !r.data.isEmpty && m.outHost then send (.hostWrite m.hostAddr r.data) s else s
  postIrq n m final (setBox n m1 s1)

/-! ## Leases and resets of mailboxes (R150, R163) -/

/-- A mailbox as it is when FREE: clear but for its token counter. -/
def Mbx.cleared (m : Mbx) : Mbx := { tokCtr := m.tokCtr }

/-- Take a mailbox out of the service queues. -/
def unqueue (n : Nat) (s : State) : State :=
  { s with mbx := { s.mbx with
      qQ := s.mbx.qQ.filter (· ≠ n), qS := s.mbx.qS.filter (· ≠ n), qL := s.mbx.qL.filter (· ≠ n) } }

/-- R150: a lease ends. -/
def endLease (n : Nat) (s : State) : State :=
  let m := s.box n
  match m.st with
  | .free | .reclaiming => s
  | .idle | .queued => setBox n m.cleared (unqueue n s)
  | .running | .accepted | .late => setBox n { m with st := .reclaiming } s

/-- R163: a package reset clears every mailbox, its lease and DBL_IRQ_STATUS; the token counters keep counting. -/
def clearMailboxes (s : State) : State :=
  { s with mbx := { s.mbx with
      box := (s.mbx.box.map fun e => (e.1, e.2.cleared)).filter fun e => !decide (e.2 = {})
      irqStatus := 0, qQ := [], qS := [], qL := [] } }

/-- R162: at a takeover the mailbox hardware posts TIMEOUT in a mailbox with a command outstanding and returns it to IDLE. -/
def timeoutAtTakeover (n : Nat) (s : State) : State :=
  let m := s.box n
  match m.st with
  | .queued | .running | .accepted | .late =>
    let s1 := logUe .operation 0x0122 0x0B n [m.opcode, m.seqNo] (postResponse n { status := 0x21 } true s)
    setBox n { s1.box n with job := none, outbox := [], await := none } s1
  | .free | .idle | .reclaiming => s

/-- R162 for several mailboxes. -/
def timeoutList : List Nat → State → State
  | [], s => s
  | n :: t, s => timeoutList t (timeoutAtTakeover n s)

/-- R162: what the mailbox hardware does at a takeover. -/
def mailboxTakeover (s : State) : State :=
  let s1 := timeoutList (List.range 16) { s with aon := { s.aon with ready := false } }
  { s1 with mbx := { s1.mbx with qQ := [], qS := [], qL := [] } }

/-- R511: the Gust ports of a package that leaves service leave at once. -/
def leavePorts (cause : Nat) : List Nat → State → State
  | [], s => s
  | k :: t, s =>
    leavePorts cause t
      (if (s.gport k).st = .up || (s.gport k).st = .probation then portLeaves k cause s else s)
/-- What a port keeps when the die is lost: MISWIRED lasts until the next cold start (R33). -/
def keepMiswired (t : Tab GPort) : Tab GPort :=
  (t.map fun e => (e.1, if e.2.st = .miswired then ({ st := .miswired, far := e.2.far } : GPort) else {})).filter fun e => !decide (e.2 = {})
/-- What the die loses with its power or at a reset (Table CP-6, R434, R442, R511): everything of the networks, the memory, the
serving pipeline, the tiles, the fabric, the sealed units and the links; the counts that run since cold start stay, and the
configuration-chain receiver goes on passing what it passes (R113). -/
def dieLost (s : State) : State :=
  let s1 := breakAllWindows 0 (leavePorts 0 (List.range 12) s)
  { s1 with
    vane := { trayHdr := s1.vane.trayHdr, sawOwn := s1.vane.sawOwn, reqNo := s1.vane.reqNo
              passing := s1.vane.passing.map fun x => (x.1, CapMode.forward) }
    net := {}, coll := {}, lull := {}, bond := {}, mem := { injections := s1.mem.injections }, mmu := {}, dma := {}
    serve := { expiries := s1.serve.expiries, losses := s1.serve.losses }
    sealed := {}
    link := { s1.link with ports := keepMiswired s1.link.ports, cxl := [], hostQuar := [], bar2 := [] } }

/-- R471, R475: a CXL port. -/
def State.cxlPort (s : State) (n : Nat) : CxlPort := Tab.get {} s.link.cxl n
/-- Change a CXL port. -/
def modCxl (n : Nat) (f : CxlPort → CxlPort) (s : State) : State :=
  { s with link := { s.link with cxl := Tab.put {} s.link.cxl n (f (s.cxlPort n)) } }

/-- R509, R517: what a unit needs beside its state to carry traffic again: the fence of a cluster's port is lifted, a CXL port is up. -/
def liftFence (ut inst : Nat) (s : State) : State :=
  match ut with
  | 0x01 => { s with bond := { s.bond with ports := Tab.mod {} s.bond.ports inst fun p => { p with fence := false } } }
  | 0x0D => modCxl (inst - 1) (fun p => { p with up := true }) s
  | _ => s
/-- A unit joins at the switch, unless it has been fenced again meanwhile; a port becomes UP (R467, R517). -/
def admitUnit (ut inst : Nat) (s : State) : State :=
  if ut = 0x07 then (if (s.gport inst).st = .probation then portUp inst s else s)
  else if s.unitSt ut inst = .probation then liftFence ut inst (setUnitSt ut inst .inService s)
  else s
/-- R467, R517: units of the plan become IN_SERVICE, ports UP. -/
def admitUnits : List (Nat × Nat) → State → State
  | [], s => s
  | u :: t, s => admitUnits t (admitUnit u.1 u.2 s)

/-- R516: the maintenance state ends when the stacks that were taken out have returned. -/
def endMaint (s : State) : State :=
  { s with units := { s.units with maint := s.units.maint && (List.range 8).any fun h => s.unitSt 0x05 h = .offline || s.unitSt 0x05 h = .probation } }
/-- R308, R517: a unit has returned: UNIT_RETURNED, STACK_RETURNED for a stack, the answer of UNIT_RETURN. -/
def noteReturn (ut inst : Nat) (s : State) : State :=
  if s.unitSt ut inst ≠ .inService || (ut = 0x07 && (s.gport inst).returnedAt.isNone) then s
  else
    let s1 := logInfo 0x0B02 ut inst [] { s with units := { s.units with returning := s.units.returning.filter fun e => !(e.1 = ut && e.2.1 = inst) } }
    let s2 := if ut = 0x05 then endMaint (logInfo 0x0412 0x05 inst [inst] s1) else s1
    completeAwait (fun a => a = .unitReturn ut inst) { status := 0, res := [0] } s2
/-- The same for each unit that joined. -/
def noteReturned : List (Nat × Nat) → State → State
  | [], s => s
  | u :: t, s => noteReturned t (noteReturn u.1 u.2 s)

/-! ## Doldrums mode and failed starts (spec/04_start_and_doldrums.md R107 to R113) -/

/-- Windsock runs the recovery monitor (R111), which draws its random words as firmware does (log 159). The spec does not say on how
many of its cores it runs: one at least, else open (log 160). -/
def startMonitor (s : State) : State :=
  { s with
    aon := { s.aon with monitor := true, ready := true, wskDown := false, cores := BitVec.ofNat 3 (1 + Config.monitorCores % 7) }
    sealed := { s.sealed with drbg := { s.sealed.drbg with ready := true } } }

/-- R111: the power state that doldrums mode needs: the sequence of R76 but for VDD_BASE, which is brought up alone if it is
off. With VDD_BASE and WCLK up the recovery monitor runs at once. -/
def doldrumsPower (s : State) : State :=
  let s1 := powerDown s
  let s2 := { s1 with pwr := { s1.pwr with downKeepBase := true } }
  let base := s.rail 1 0
  if base.on && base.pg && s.clk.wclk then startMonitor s2
  else
    let s3 := { s2 with pwr := { s2.pwr with
      waitPg := if base.on && base.pg then [] else [railKey 1 0], waitPll := if s.clk.wclk then [] else [2] } }
    if base.on then s3
    else pushFrame { vpm := 1, op := 0x1, chan := 0, data := 0, kind := .setpoint, use := .railOn } s3

/-- This package's bit in its stored exclusion map, or the last one read where the store does not run (R102, R114). -/
def State.ownExcluded (s : State) : Bool := if s.clk.sclk then s.store.exclMap.getLsbD s.aon.slot.val else s.aon.excluded
/-- R111, R113: enter doldrums mode: the configuration-chain receiver is active; AON_START.STATE reads failed (log 149). -/
def enterDoldrums (reason : Nat) (s : State) : State :=
  let lost := loseRing s
  let s1 := logRec .fatal 0x0112 0x00 0 [s.aon.phase.code, reason, s.aon.failCnt] .package lost
  let s2 := dieLost s1
  let s3 := { s2 with
    aon := { s2.aon with phase := .doldrums, startSt := .failed, reason := reason, failReason := reason, owner := .warden, lease := none,
                         takeover := false, ready := false, monitor := false, cores := 0, wskDown := false, excluded := s.ownExcluded }
    start := { s2.start with lastPhase := s.aon.phase, wardenAt := none, chain := true }
    pins := { s2.pins with errDrv := reason = 0x50, doneDrv := !s.ownExcluded }
    store := if s.startWritable then { s2.store with reason := reason } else s2.store }
  doldrumsPower s3

/-- R107 step 4 and R101: after a failure short of the third, PH_VANE waits for another section with CFG_ERR_N and TRAY_DONE
low, and any other phase waits 1 s for a warden reset; while ACLK runs from the backup oscillator there is none, and the package is
powered down. -/
def awaitRetry (reason : Nat) (s : State) : State :=
  let t := noteFail reason s
  if s.aon.phase = .vane then
    { t with pins := { t.pins with errDrv := t.pins.errDrv || reason = 0x50, doneDrv := true } }
  else if s.clk.backup then powerDown t
  else { t with start := { t.start with wardenAt := some (s.now + 1000000000) } }

/-- R107: a fail outcome of a start. START_STATUS returns its record (R115). -/
def failStart (reason : Nat) (s : State) : State :=
  let n := min 3 (s.failBase + 1)
  let s0 := phaseExit 1 s
  let d := [s.aon.phase.code, reason, n, b2n s.aon.fwSlot]
  let r : Rec := { ts := s.now, cls := .ue, slot := s.aon.slot.val, code := 0x0111, seq := s0.log.seq.toNat, detail := d, contain := .package }
  let s1 := logUe .package 0x0111 0x00 0 d s0
  let s2 := setFailCnt n s1
  let s3 := { s2 with store := { s2.store with fails := (r :: s2.store.fails).take 8 } }
  if 3 ≤ n then enterDoldrums reason s3 else awaitRetry reason s3

/-! ## FATAL records (R98, R511, R512) -/

/-- R512: after a FATAL record in service the warden core waits 1 s, doubling up to 64 s for restarts within 1 hour of the
previous one, and then raises a warden reset; it raises none while ACLK runs from the backup oscillator or HALT is latched. -/
def fatalRestart (s : State) : State :=
  let again := s.units.lastRestart.elim false fun t => s.now < t + 3600000000000
  let w := if again then min 64 (2 * s.units.wait) else 1
  if s.clk.backup || s.haltLatched then powerDown s
  else
    let t := logInfo 0x0B05 0x00 0 [w] s
    { t with
      units := { t.units with lastRestart := some s.now, wait := w }
      start := { t.start with wardenAt := some (s.now + w * 1000000000) } }

/-- R511: the package leaves service; its die state is lost. R98 or R512 says what becomes of the start. A FATAL record
before PH_TRAIN, in doldrums mode or while a failed start waits for its reset changes nothing further here (log 9); PH_VANE fails
again while it waits for a section. -/
def leaveService (s : State) : State :=
  match s.aon.phase with
  | .serve | .excluded =>
    if s.units.outOfService then s
    else
      let t := dieLost s
      fatalRestart { t with units := { t.units with outOfService := true } }
  | .train | .vane | .join =>
    if s.aon.startSt = .failed && s.aon.phase ≠ .vane then s else failStart 0x60 (dieLost s)
  | .power | .fuse | .boot | .auth | .doldrums => s

/-- Write a FATAL record and leave service. -/
def packageFatal (code ut inst : Nat) (detail : List Nat) (s : State) : State :=
  leaveService (logRec .fatal code ut inst detail .package s)

/-- R90, R91, R162: the warden core takes the sequencer back. A frame in progress completes; no other Windsock request reaches
the bus, and no waiting fine-grain regulator turns on. -/
def takeover (cause : Nat) (s : State) : State :=
  let s1 := { s with
    aon := { s.aon with owner := .warden, lease := none, takeover := true }
    pwr := { s.pwr with changes := [], fgrQueue := 0, frames := s.pwr.frames.filter fun f => match f.use with | .change _ _ | .restore _ => false | _ => true } }
  packageFatal 0x0A37 0x0F 3 [cause] (mailboxTakeover s1)

/-- Windsock owns the sequencer under a lease. -/
def State.windsockOwns (s : State) : Bool := s.aon.owner = .windsock

/-! ## The rail sequence (R75, Table CP-8) -/

/-- The share of a rail in W (Table CP-7); the 40 W of VPM8 cover its two channels together and the spec does not split
them (Config.serdesShare0). -/
def State.shareOf (s : State) (vpm chan : Nat) : Nat :=
  match vpm, chan with
  | 1, 0 => 245 | 1, 1 => 90 | 1, 2 => 60
  | 8, 0 => Config.serdesShare0 % 41 | 8, 1 => 40 - Config.serdesShare0 % 41
  | 6, 0 => 10 | 6, 1 => 70 | 6, 2 => 40
  | 7, 0 => 10 | 7, 1 => 70 | 7, 2 => 40
  | 2, _ => s.pwr.shares[0] | 3, _ => s.pwr.shares[1] | 4, _ => s.pwr.shares[2] | 5, _ => s.pwr.shares[3]
  | _, _ => 15

/-- The rails that a step of Table CP-8 turns on (step 2 is VDD_BASE, step 12 VDD_TILE3). -/
def stepRails : Nat → List (Nat × Nat)
  | 2 => [(1, 0)] | 3 => [(1, 1)] | 4 => [(8, 0), (8, 1)] | 5 => [(6, 0), (7, 0)] | 6 => [(6, 1), (7, 1)]
  | 7 => [(6, 2), (7, 2)] | 8 => [(1, 2)] | 9 => [(2, 0)] | 10 => [(3, 0)] | 11 => [(4, 0)] | 12 => [(5, 0)]
  | _ => []
/-- The PLLs that a step starts. -/
def stepPlls : Nat → List Nat
  | 0 => [0, 1] | 5 => [2, 3] | 8 => [4, 5, 6, 7, 8, 9, 10, 11] | _ => []

/-- The first frames of the bus scan: READ_STATUS to VPM1 to VPM8. -/
def scanFrames : List Frame :=
  (List.range 8).map fun i => { vpm := i + 1, op := 0xA, chan := 0, data := 0, kind := .setpoint, use := .scanStatus }
/-- Those that follow: OFF to every commanded channel. -/
def scanOffs : List Frame :=
  ((List.range 8).flatMap fun i => (channelsOf (i + 1)).map fun c => (i + 1, c)).map fun r => offFrame .scanOff r

/-- The ON frames of a step. -/
def onFrames (k : Nat) : List Frame :=
  (stepRails k).map fun r => { vpm := r.1, op := 0x1, chan := r.2, data := 0, kind := .setpoint, use := .railOn }

/-- Begin a step of Table CP-8. Before the bus scan a junction below the COLD_HOLD threshold holds the start; after step 12
the sequence is complete, PH_POWER passes and Windsock leaves reset (R95, R98). -/
def railStep (k : Nat) (s : State) : State :=
  if k = 1 then
    let s1 := { s with pwr := { s.pwr with step := 1 } }
    if s.coldSensor then enterHold 0x01 s1 else pushFrames scanFrames s1
  else if 13 ≤ k then
    enterPhase .fuse (phaseExit 0 { s with pwr := { s.pwr with step := 15, seqRun := false } })
  else
    pushFrames (onFrames k)
      { s with pwr := { s.pwr with
          step := k, waitPg := (stepRails k).map fun r => railKey r.1 r.2, waitPll := stepPlls k } }

/-- A rail or PLL of the running step has come up: the sequencer goes on when none is missing. -/
def railAdvance (s : State) : State :=
  if s.pwr.seqRun && s.pwr.waitPg.isEmpty && s.pwr.waitPll.isEmpty then railStep (s.pwr.step + 1) s else s

/-- R75: the sequence fails at a module and channel. -/
def seqFail (vpm chan : Nat) (s : State) : State :=
  let s1 := powerDown { s with pwr := { s.pwr with seqRun := false } }
  failStart 0x10 (logRec .fatal 0x0A30 0x11 (railKey vpm chan) [vpm, chan] .package s1)

/-! ## Resets (spec/03_clocks_resets_power.md R69 to R71, Table CP-6) -/

/-- R71: the cause register takes the bit of the reset, and the count rises, saturating. -/
def resetCause (bitNo : Nat) (s : State) : State :=
  { s with aon := { s.aon with cause := BitVec.ofNat 6 (2 ^ bitNo), resets := min 255 (s.aon.resets + 1) } }

/-- Every unit is ABSENT until it trains again; the probation failures since cold start are kept, and UNIT_RETURN's refusal
ends (R500, R518). -/
def keepFails (t : Tab UnitRec) : Tab UnitRec :=
  (t.map fun e => (e.1, ({ fails := e.2.fails } : UnitRec))).filter fun e => !decide (e.2 = {})

/-- R76, R163, R176, R184, Table CP-6: what TRAY_RST_N, PKG_RST_N and a warden reset do: the outputs are released, the
mailboxes, challenges and grants cleared, the volatile ring lost, and everything on the die with it. Debug unlock returns to level 0,
with its record (R185). -/
def packageReset (bitNo : Nat) (s : State) : State :=
  let s1 := resetCause bitNo (dieLost (clearMailboxes s))
  let aon := { s1.aon with
    trayId := 0, heldTrayId := none, ready := false, monitor := false, takeover := false, cores := 0,
    grantHost := none, grantOob := none, owner := .warden, lease := none, phase := .power, startSt := .running,
    reason := s1.aon.failReason, roster := 0, wskDown := false }
  let t := { s1 with
    aon := aon
    pins := { s1.pins with doneDrv := false, errDrv := false, cxl0Perst := false, cxl1Perst := false, smbAlert := false,
                           i3cDyn := none, coreHalt := false }
    pmx := { pads := s1.pmx.pads }
    clk := { s1.clk with wclk := false, mclk := false, pclk := false, sclk := false, hclk := 0, gclk := 0, tclk := 0, vclkLost := 0 }
    pwr := { seqs := s1.pwr.seqs, seqRun := false, waitPll := [] }
    start := {}
    log := { s1.log with ring := [], uncommitted := [] }
    vane := { reqNo := s1.vane.reqNo }
    units := { lastRestart := s1.units.lastRestart, wait := s1.units.wait, tab := keepFails s1.units.tab }
    link := { s1.link with hostUp := false, hostTrain := s1.pins.perstN }
    prot := { s1.prot with challenges := [], debugLevel := 0, debugEnd := none, spdm := {} } }
  if s.prot.debugLevel = 0 then t else logSec 0x0204 0x00 0 [0] t

/-- No reset input is asserted. -/
def State.released (s : State) : Bool := s.pins.pwrOk && s.pins.trayRstN && s.pins.pkgRstN

/-- R70, R94: the release of a reset: the rail sequence reruns from its first step and a start begins at PH_POWER, with
TRAY_DONE held low (R45) and START_SEQ raised (R103); while HALT is latched the package holds with THERMAL_HALT (R490). -/
def beginStart (s : State) : State :=
  let s1 := { s with
    aon := { s.aon with phase := .power, startSt := .running, reason := s.aon.failReason, roster := 0, owner := .warden }
    pins := { s.pins with doneDrv := true }
    pmx := { pads := s.pmx.pads }
    start := { phaseStart := s.now }
    store := { s.store with startSeq := s.store.startSeq + 1 } }
  if s.haltLatched then
    enterHold 0x06 { s1 with pwr := { s1.pwr with seqRun := false, waitPll := [] } }
  else { s1 with pwr := { s1.pwr with step := 0, seqRun := true, waitPg := [], waitPll := stepPlls 0, down := none } }

/-! ## The host port (spec/17_gust_links_and_host.md R469, R470, R478) -/

/-- R69, R469: the host endpoint is reset with its configuration space, the MSI-X table, the PBA and the host quarantine. -/
def hostReset (s : State) : State :=
  { s with link := { s.link with
      hostUp := false, hostTrain := false, bme := false, d0 := true, cplTimeout := 0, hostQuar := [], msixTable := [], pba := [] } }
/-- The host and CXL ports go down with PCLK. -/
def hostPortsDown (s : State) : State :=
  { s with link := { s.link with hostUp := false, hostTrain := false, cxl := [] } }

/-! ## Peers and Gust ports (R105, R364, R466, R513) -/

/-- The slot of the package at the other end of a partition's pipeline. -/
def peerOf (s : State) (r : Req) : Nat := (s.spart r.part).peer
/-- R364: the requests that a slot held, or was taking, are lost: a REMOTE one is rebuilt at the next edge, one being shipped waits in
HANDOFF. -/
def loseAtPeer (slot : Nat) (i : Nat) (r : Req) (s : State) : State :=
  if peerOf s r ≠ slot || r.guest then s
  else if r.st = .remote then setReq i { r with rebuild := true } s
  else if r.st = .handoff then setReq i { r with asked := false, shipping := false } s
  else s
/-- R513: a package of the tray has left it: PEER_PKG_LOST once, its tray-wide objects and reduction instances and its requests. -/
def peerLost (slot : Nat) (s : State) : State :=
  if s.units.peersLost.getLsbD slot || !(s.aon.phase = .serve || s.aon.phase = .join || s.aon.phase = .excluded) then s
  else
    let s1 := logUe .operation 0x0B08 0x00 0 [slot] { s with
      units := { s.units with peersLost := setBit s.units.peersLost slot true }
      start := { s.start with peersServing := setBit s.start.peersServing slot false } }
    eachReq (loseAtPeer slot) s1.reqIds (losePeerContribs slot (poisonPeer slot 0x0B08 s1))

/-- R249: with no mesh port UP no other package can be reached: the tray-wide objects homed there become POISONED. -/
def poisonCut (s : State) : State :=
  if (List.range 7).any fun k => (s.gport k).st = .up then s
  else poisonAll 0x0702 ((s.lull.objs.filter fun e => 64 ≤ e.1 && (e.2.tray && e.2.homeSlot ≠ s.aon.slot.val)).map Prod.fst) s
/-- R454, R466, R507: a port leaves service as a fault: what it held is taken back, it is fenced and FAULTED. `lost` says that its far
end has stopped sending, which on a mesh port is how the package there is seen to leave the tray (DEDUCED, log 34). -/
def gustDown (k cause : Nat) (lost : Bool) (s : State) : State :=
  match (s.gport k).st with
  | .training | .probation | .up =>
    let s1 := trainFails k .faulted (portLeaves k cause s)
    let s2 := poisonCut (fenceUnit 0x07 k 0x0702 s1)
    if lost && k < 7 then peerLost (meshPeer s.aon.slot.val k) s2 else s2
  | .down | .miswired | .authFail | .faulted | .offline => s
/-- A mailbox waits for an event under an opcode. -/
def awaits (s : State) (a : Await) (op : Nat) : Bool := s.mbx.box.any fun e => e.2.await = some a && e.2.opcode % 32768 = op
/-- R481: the lanes that LINK_RETRAIN allows; 0 sets no limit. -/
def laneLimit (m : Mbx) : Nat := if m.exp && m.arg 1 ≠ 0 then m.arg 1 else 4
/-- R466, R481, R519: a port is taken out of service on purpose: it is fenced and OFFLINE, UNIT_OFFLINED is written for UNIT_OFFLINE; a
LINK_RETRAIN that waits for this begins its training. -/
def portOffline (k : Nat) (s : State) : State :=
  let s1 := poisonCut (setPortSt k .offline (modGport k (fun p => { p with step := 0 }) (revokeHeld 0x07 k (portLeaves k 0 s))))
  let s2 := if awaits s (.unitOffline 0x07 k) 0x0B05 then logInfo 0x0B04 0x07 k [] s1 else s1
  let s3 := completeAwait (fun a => a = .unitOffline 0x07 k) { status := 0 } s2
  match s.mbx.box.find? fun e => e.2.await = some (.linkTrain k) with
  | none => s3
  | some (_, m) => modGport k (fun p => { p with lanes := laneLimit m }) (startTraining k s3)
/-- R105: a peer that joins again has been away: its port is a unit that returns through training. -/
def peerReturns (slot : Nat) (s : State) : State :=
  let k := meshPort s.aon.slot.val slot
  let s1 := { s with units := { s.units with peersLost := setBit s.units.peersLost slot false } }
  match (s.gport k).st with
  | .down | .authFail | .faulted => startTraining k s1
  | .training | .miswired | .probation | .up | .offline => s1

/-! ## HBM stacks (spec/11_memory_and_ecc.md R307, spec/19_faults_and_recovery.md R515) -/

/-- Frames as LOST, their prefix entries gone. -/
def loseFrames : List Nat → State → State
  | [], s => s
  | f :: t, s => loseFrames t (dropIndex f (modFrame f (fun r => { r with lost := true }) s))
/-- The allocated frames of the regions that use a stack. -/
def framesOn (s : State) (h : Nat) : List Nat :=
  (s.mem.frames.filter fun e => e.2.use ≠ .free && (s.hregion (frameRegion e.1)).mode.usesStack h).map Prod.fst
/-- A SYSTEM frame of partition 0 lies in a region that uses a stack. -/
def systemOn (s : State) (h : Nat) : Bool :=
  (List.range 512).any fun r => r * 16384 < s.mem.sysTop && (s.hregion r).mode.usesStack h
/-- R307: the frames on a stack become LOST. -/
def loseStack (h : Nat) (s : State) : State :=
  let l := framesOn s h
  logUe .unit 0x0411 0x05 h [h, l.length] (loseFrames l s)
/-- R307, R507, R515: a stack leaves service by a fault: its controller ports and its MEE groups are fenced, its frames become LOST;
with SYSTEM frames on it the package leaves service, unless it is in maintenance. -/
def stackLost (h trigger : Nat) (s : State) : State :=
  if !carrying s 0x05 h then s
  else
    let sys := systemOn s h && !s.units.maint
    let s1 := fenceAll 0x06 trigger ([2 * h, 2 * h + 1].filter fun g => carrying s 0x06 g) (fenceUnit 0x05 h trigger s)
    let s2 := loseStack h s1
    if sys then packageFatal 0x0B06 0x05 h [h] s2 else s2
/-- R171: the HBM frames in service. -/
def framesInService (s : State) : Nat := 16384 * (s.mem.regions.countP fun e => regionUp s e.1)

/-! ## Slice repair (spec/11_memory_and_ecc.md R302) -/

/-- One entry of the learned slice repair list takes a spare row for its row, else a spare column group, else its unit retires. -/
def repairWord (a : Nat) (s : State) : State :=
  let node := (a - sliceBase) / 2 ^ 22
  let c := Config.sliceCell a
  let used := Tab.get (0, 0) s.store.probeSpares node
  let rows := s.mem.spareRows.countP fun e => e.1 = node
  let cols := s.mem.spareCols.countP fun e => e.1 = node
  if (node, c.1, c.2.1) ∈ s.mem.spareRows || (node, c.1, c.2.2) ∈ s.mem.spareCols then s
  else if used.1 + rows < 8 then
    logInfo 0x0408 0x03 node [a, 0] { s with mem := { s.mem with spareRows := s.mem.spareRows ++ [(node, c.1, c.2.1)] } }
  else if used.2 + cols < 4 then
    logInfo 0x0408 0x03 node [a, 1] { s with mem := { s.mem with spareCols := s.mem.spareCols ++ [(node, c.1, c.2.2)] } }
  else
    let u := unitKeyOf node (a % 2 ^ 22 / 16384)
    if u ∈ s.mem.unitRetired then s
    else logUe .none 0x0409 0x03 node [a] { s with mem := { s.mem with unitRetired := u :: s.mem.unitRetired } }
/-- Every entry in order. -/
def repairWords : List Nat → State → State
  | [], s => s
  | a :: t, s => repairWords t (repairWord a s)
/-- R302: in PH_FUSE. -/
def applySliceRepairs (s : State) : State := repairWords s.store.sliceRepair s

/-! ## Partition changes (spec/07_two_party_protection.md R186) -/

/-- The HBM frames that a partition holds. -/
def framesHeld (s : State) (p : Nat) : Nat := charged s p
/-- A number lies in exactly one of two ranges. -/
def inOne (x b1 c1 b2 c2 : Nat) : Bool := inRange x b1 c1 != inRange x b2 c2
/-- R186: some unit that a change of a partition moves or retires is not idle. -/
def unitsBusy (s : State) (p : Nat) (old new : Part) : Bool :=
  let mb := old.mbx ^^^ new.mbx
  let cl := old.clusters ^^^ new.clusters
  let dm := old.dma ^^^ new.dma
  let me := old.mee ^^^ new.mee
  (List.range 16).any (fun n => mb.getLsbD n && (s.box n).st ≠ .free)
    || (List.range 128).any (fun c => cl.getLsbD c && s.serve.groups.getLsbD (groupOf c))
    || (List.range 64).any (fun d => dm.getLsbD d && ((s.dchan d).cur.isSome || (s.dchan d).head ≠ (s.dchan d).tail))
    || s.lull.objs.any (fun e => inOne e.1 old.lullBase old.lullCount new.lullBase new.lullCount)
    || s.serve.reqs.any (fun e => inOne e.2.tenant old.tenantBase old.tenantCount new.tenantBase new.tenantCount)
    || (List.range 16).any (fun g => me.getLsbD g && !(Tab.get {} s.sealed.groups g).passes.isEmpty)
    || (new.hbmQuota < old.hbmQuota && new.hbmQuota < framesHeld s p)
    || (old.kind = .vault && (new.kind ≠ .vault && s.sealed.vaults.any fun e => e.2.part = p))
/-- R312: firmware grants a partition its root frame from the general pool, and zeroes it. -/
def grantRoot (p : Nat) (s : State) : State :=
  if (Tab.get none s.mmu.roots p).isSome then s
  else match takeFrom s (poolRegions s 0) 1 with
    | [] => s
    | f :: _ => setRoot p f (zeroFrames [f] s)
/-- R312: several partitions. -/
def grantRoots : List Nat → State → State
  | [], s => s
  | p :: t, s => grantRoots t (grantRoot p s)
/-- The partitions that have an entry, and partition 0. -/
def livePartitions (s : State) : List Nat := 0 :: (s.prot.parts.filter fun e => e.2.kind ≠ .unused).map Prod.fst
/-- R317, R347, R368: at the end of PH_TRAIN, and after a maintenance (R516), firmware grants the frames of the system tables, which
are all empty, from the lowest frames that are not retired, and a root frame to partition 0 and each partition with an entry. -/
def buildTables (s : State) : State :=
  let top := sysFrame s systemFrames
  let s1 := { s with
    mem := { s.mem with frames := [], sysTop := top }
    mmu := { s.mmu with roots := [], tlb := [] }
    serve := { s.serve with reqs := [], index := [], adapters := [], driftUsed := [], drafts := [] } }
  grantRoots (livePartitions s1) s1
/-- A partition without a root frame any more. -/
def dropRoot (p : Nat) (s : State) : State :=
  match Tab.get none s.mmu.roots p with
  | none => s
  | some f => freeFrame f { s with mmu := { s.mmu with roots := Tab.put none s.mmu.roots p none } }
/-- R312, R319, R471: what a new entry of a partition brings with it at the commit point: its root frame, its cached translations
dropped when its KIND changes, its BAR2 windows disabled when it becomes UNUSED. -/
def partitionChanged (p : Nat) (old new : PartKind) (s : State) : State :=
  let s1 := if old = new then s else dropTlb (fun e => e.part = p) s
  if new = .unused then
    let s2 := dropRoot p s1
    { s2 with link := { s2.link with bar2 := s2.link.bar2.map fun e => if e.2.part = p then (e.1, { e.2 with enable := false }) else e } }
  else if s.mem.regions.isEmpty then s1 else grantRoot p s1

end Sys2Proof.Machine
end

