-- ==== Sys2Proof/Machine/EdgeOps.lean ====
section
/-!
DEFINITION. The work of a step edge, item by item in the order of spec/13_serving_pipeline.md R340: commit, cancellation, the Trade
buckets, host pauses, growth pages, pools, selection, dispatch; and the drift tier's part of it
(spec/14_pages_prefixes_adapters_drift.md R389 to R392).
-/
namespace Sys2Proof.Machine

/-! ## Ends -/

/-- END of a request: its record, its pages, its ID. -/
def endReq (i : Nat) (r : Req) (reason : Nat) (s : State) : State := delReq i (reclaim r (reqRec i r 3 reason 0 s))
/-- A GUEST's tokens go to its origin (TYPE 0x9). -/
def tellOrigin (r : Req) (toks : List Nat) (s : State) : State := send (.link (meshPort s.aon.slot.val r.ring) "tokens" (r.userTag :: toks)) s
/-- The position after the committed tokens. -/
def Req.next (r : Req) : Nat := r.promptLen + r.genLen

/-- R346, R356, R365, R411: commit tokens of a request: appended to the token buffer, counted, reported, and the request ends at
MAX_NEW, at a stop token (code 1) or with FAULT (code 2). -/
def commitToks (i : Nat) (r : Req) (toks0 : List Nat) (code : Nat) (s : State) : State :=
  let toks := toks0.take (r.maxNew - r.genLen)
  let r1 := { r with gen := r.gen ++ toks, stepLast := s.serve.step }
  let w := if toks.isEmpty || r.guest then (none, s) else dvaWrite (serveAccess r.part (r.tokbuf + 16 + 4 * r.next) true) (tokBytes toks) s
  let s1 := if r.guest then tellOrigin r toks w.2 else if toks.isEmpty then w.2 else reqRec i r1 2 0 toks.length w.2
  let s2 := { s1 with serve := { s1.serve with work := Tab.mod (0, 0) s1.serve.work r.tenant fun e => (e.1, e.2 + toks.length) } }
  if w.1.isSome then endReq i r1 3 s2
  else if code = 2 then endReq i r1 3 s2
  else if r1.gen.any fun x => x ∈ r.stops then endReq i r1 1 s2
  else if r1.maxNew ≤ r1.genLen then endReq i r1 0 s2
  else setReq i r1 s2

/-! ## Item 1: commit (R356) -/

/-- What SAMPLE decided for a request. -/
def decidedOf (s : State) (i : Nat) : List Nat × Nat := (s.serve.decided.find? fun e => e.1 = i).elim ([], 0) Prod.snd
/-- Prefill progress of a request; its draft cache (R405); its last chunk commits the first token and makes its prefix entries. -/
def commitPrefill (i : Nat) (r : Req) (e : Entry) (s0 : State) : State :=
  let s := fillDraft r e.ntok s0
  let r1 := { r with filled := r.filled + e.ntok, stepLast := s.serve.step, inStep := true }
  let s1 := { s with serve := { s.serve with work := Tab.mod (0, 0) s.serve.work r.tenant fun x => (x.1 + e.ntok, x.2) } }
  if r1.filled < r1.fillTo then setReq i r1 s1
  else
    let r2 := { r1 with st := if (s.spart r.part).role = 1 && !r.guest then .handoff else .decode, rebuild := false }
    let s2 := match (s.spart r.part).program with
      | none => s1
      | some g => insertPrefix g r2 (setReq i r2 s1)
    let d := decidedOf s i
    commitToks i r2 d.1 d.2 s2
/-- The work of one entry is committed, unless its request is being cancelled or its group's step is discarded. -/
def commitEntry (e : Entry) (s : State) : State :=
  match s.req e.req with
  | none => s
  | some r =>
    if r.cancelP then setReq e.req { r with inStep := true } s
    else if s.serve.discarded.getLsbD e.group then setReq e.req { r with inStep := true, prop := none } s
    else
      match e.kind with
      | .prefill => commitPrefill e.req r e s
      | .draftTurn => setReq e.req { r with inStep := true } s
      | .decode | .verify =>
        let d := decidedOf s e.req
        commitToks e.req { r with inStep := true, lastAll := e.kind = .verify && d.1.length = e.ntok } d.1 d.2 s
/-- Every entry. -/
def commitEntries : List Entry → State → State
  | [], s => s
  | e :: t, s => commitEntries t (commitEntry e s)
/-- R363: the tokens that a peer has sent for a REMOTE request. -/
def commitInbox (i : Nat) (r : Req) (s : State) : State :=
  if r.st = .remote && (!r.inbox.isEmpty && !r.cancelP) then
    let t := commitToks i { r with inbox := [] } r.inbox 0 s
    { t with serve := { t.serve with work := s.serve.work } }
  else s
/-- R363: the origin of a REMOTE request frees its pages at its own next edge. -/
def freeRemote (i : Nat) (r : Req) (s : State) : State :=
  if r.freeNext then setReq i { r with freeNext := false, plist := .none, pages := [], shared := 0 } (dropPages r s) else s

/-- R364: a request whose frames are LOST is rebuilt, and one that is lost at its peer. -/
def rebuildLost (i : Nat) (r : Req) (s : State) : State :=
  let lost := r.pages.any (fun f => (s.frame f).lost) || (match r.plist with | .frame f => (s.frame f).lost | _ => false)
  if r.st = .remote && r.rebuild then rebuildReq i { r with inbox := [], freeNext := false, cancelSent := false } (reclaim r s)
  else if (match r.plist with | .frame _ => true | _ => false) && (lost && r.st ≠ .remote) then rebuildReq i r (reclaim r s) else s
/-- R413: DRAFT requests of a partition whose draft program has FAILED end with FAULT. -/
def endFailedDraft (i : Nat) (r : Req) (s : State) : State :=
  if r.draft && (((s.draftOf r.part).elim false DraftProg.failed) && (r.st ≠ .ending && r.st ≠ .remote)) then endReq i r 3 s else s

/-! ## Item 2: cancellations, expiries, refused requests (R361, R391, R348) -/

/-- A refused request, or an ended one whose CANCEL_REQ has completed, returns its ID. -/
def finishEnding (i : Nat) (r : Req) (s : State) : State :=
  if r.st = .ending then
    if r.refused then delReq i s
    else if reqBusy s r.part i then s
    else delReq i (reclaim r s)
  else s
/-- A cancellation reaches the edge. -/
def applyCancel (i : Nat) (r : Req) (s : State) : State :=
  if !r.cancelP || r.st = .ending then s
  else if r.st = .remote then
    if r.confirmed then endReq i r 2 s
    else if r.cancelSent then s
    else setReq i { r with cancelSent := true } (send (.link (meshPort s.aon.slot.val (s.spart r.part).peer) "cancel" [i]) s)
  else
    let s1 := reqRec i r 3 2 0 (cancelReq r.part i s)
    let r1 := { r with st := .ending, prop := none }
    if reqBusy s1 r.part i then setReq i r1 s1 else delReq i (reclaim r1 s1)
/-- A DRIFTED request whose TTL has ended, and whose move-in has not begun; a paused one of a VAULT partition (R389). -/
def applyExpiry (i : Nat) (r : Req) (s : State) : State :=
  if r.expired && ((r.st = .drifted || (r.st = .paused && partKind s r.part = .vault)) && r.move.isNone) then
    let t := endReq i r 5 (logInfo 0x0513 0x0E 0 [i] s)
    { t with serve := { t.serve with expiries := t.serve.expiries + 1 } }
  else s

/-! ## Item 3: the Trade buckets (R352) -/

/-- Hold a level between its bounds. -/
def clampLevel (d : Nat) (l : Int) : Int := max (-(d * 256 : Nat)) (min ((d * 256 : Nat) : Int) l)
/-- One tenant: charge, refill, clamp. -/
def trade (s : State) (dt : Nat) (t : Nat) (x0 : Tenant) : Tenant :=
  let x := match x0.next with
    | none => x0
    | some (r, d) => { x0 with rate := r, depth := d, next := none }
  if x.rate = 0 then x
  else
    let g := (s.spart (tenantPart s t)).program
    let w := Tab.get (0, 0) s.serve.work t
    let charge : Nat := g.elim 0 fun g => g.pw * w.1 + g.dw * w.2
    let a := x.rate * dt * 256 + x.q
    { x with level := clampLevel x.depth (x.level - charge + (a / 1000000000 : Nat)), q := a % 1000000000 }
/-- Every tenant. -/
def tradeAll (s : State) : State :=
  let dt := s.serve.edgeAt - s.serve.prevEdge
  { s with serve := { s.serve with
      tenants := (s.serve.tenants.map fun e => (e.1, trade s dt e.1 e.2)).filter fun e => !decide (e.2 = {}), work := [] } }

/-! ## The drift tier (R389 to R392) -/

/-- The capacity of the drift tier in pages. -/
def driftPagesAll (s : State) : Nat := s.serve.driftSize[0] + s.serve.driftSize[1]
/-- The CXL port of a drift page. -/
def driftPort (s : State) (d : Nat) : Nat := if d < s.serve.driftSize[0] then 0 else 1
/-- R393: a drift page is BAD. -/
def driftIsBad (s : State) (d : Nat) : Bool := s.serve.driftBad.getLsbD (driftPort s d) || decide (d ∈ s.serve.driftBadPages)
/-- The lowest free drift pages. -/
def collectDrift (s : State) : Nat → Nat → Nat → List Nat
  | 0, _, _ => []
  | k + 1, d, n =>
    if n = 0 then []
    else if Tab.get 0 s.serve.driftUsed d = 0 && !driftIsBad s d then d :: collectDrift s k (d + 1) (n - 1)
    else collectDrift s k (d + 1) n
/-- Mark drift pages as a request's. -/
def takeDrift (i : Nat) : List Nat → State → State
  | [], s => s
  | d :: t, s => takeDrift i t { s with serve := { s.serve with driftUsed := Tab.put 0 s.serve.driftUsed d (i + 1) } }
/-- R389: sessions that are due copy, up to 16 at once, in the order in which they became due. -/
def startCopies (s : State) : State :=
  let busy := s.serve.reqs.countP fun e => e.2.move.elim false fun m => m.copying && !m.copied
  let due := sortBy (fun (a b : Nat × Nat) => a.1 < b.1)
    (s.serve.reqs.filterMap fun e => e.2.move.bind fun m => if m.granted.isSome && !m.copying then some (m.due, e.1) else none)
  eachReq (fun i r s => setReq i { r with move := r.move.map fun m => { m with copying := true } } s) ((due.take (16 - busy)).map Prod.snd) s
/-- The order of the next session. -/
def nextDue (s : State) : Nat × State := (s.serve.nextDue, { s with serve := { s.serve with nextDue := s.serve.nextDue + 1 } })
/-- R390: begin a move-out: one grant of a drift page per page and one for the list, or DRIFT_FULL and another try in 64 edges. A
request of a VAULT partition never drifts; its TTL runs from the pause. -/
def moveOut (i : Nat) (s : State) : State :=
  match s.req i with
  | none => s
  | some r =>
    if partKind s r.part = .vault then setReq i { r with ttlEnd := some (r.ttlEnd.getD (s.now + r.ttl * 1000000000)) } s
    else if r.move.isSome || (match r.plist with | .frame _ => false | _ => true) then s
    else
      let n := r.pages.length + 1
      let l := collectDrift s (driftPagesAll s) 0 n
      if l.length = n then
        let d := nextDue s
        startCopies (setReq i { r with move := some { out := true, granted := some l, due := d.1 }, retryAt := none } (takeDrift i l d.2))
      else
        let s1 := setReq i { r with retryAt := some (s.serve.step + 64), fullNoted := true } s
        if r.fullNoted then s1 else logInfo 0x0514 0x0E 0 [i] s1
/-- R390: a resume or cancellation stops a move-out: its drift pages are freed, the request keeps its HBM pages. -/
def stopMoveOut (i : Nat) (s : State) : State :=
  match s.req i with
  | none => s
  | some r =>
    match r.move with
    | some m => if m.out then startCopies (setReq i { r with move := none } (freeDrift (m.granted.getD []) s)) else s
    | none => setReq i { r with retryAt := none } s

/-- Copy what one 64 KiB page holds to another address. -/
def copyPage (src dst : Nat) (s : State) : State :=
  let l := s.mem.bytes.filter fun e => src ≤ e.1 && e.1 < src + 65536
  let kept := s.mem.bytes.filter fun e => !(dst ≤ e.1 && e.1 < dst + 65536)
  let mem := l.foldl (fun (t : Tab Byte) e => Tab.put 0 t (e.1 - src + dst) e.2) kept
  { s with mem := { s.mem with bytes := mem, flaws := s.mem.flaws.filter fun e => !(dst ≤ e.1 && e.1 < dst + 65536) } }
/-- Copy pages one to one. -/
def copyPages : List (Nat × Nat) → State → State
  | [], s => s
  | p :: t, s => copyPages t (copyPage p.1 p.2 s)
/-- The DPA of a drift page. -/
def driftDpa (d : Nat) : Nat := driftBase + d * 65536

/-- R390, R392: at the first edge after its last chunk, a session completes. -/
def finishMove (i : Nat) (r : Req) (s : State) : State :=
  match r.move with
  | none => s
  | some m =>
    if !m.copied then s
    else
      let l := m.granted.getD []
      if m.out then
        let s1 := dropPages r s
        logInfo 0x0512 0x0E 0 [i, l.length]
          (setReq i { r with st := .drifted, plist := .drift (l.getLastD 0), driftPages := l, move := none, shared := 0,
                             ttlEnd := some (s.now + r.ttl * 1000000000) } s1)
      else
        setReq i { r with st := .paused, hostPaused := false, plist := .frame (l.getLastD 0), pages := l.dropLast, shared := 0,
                          driftPages := [], move := none, ttlEnd := none, pausedFor := 0, resumeP := none } (freeDrift r.driftPages s)

/-- Sessions in move-in. -/
def movingIn (s : State) : Nat := s.serve.reqs.countP fun e => e.2.move.elim false fun m => !m.out
/-- R392, R393: begin a move-in: one grant of its pages and a list with RESUME; a request that lost its copy is rebuilt. -/
def moveIn (i : Nat) (s : State) : State :=
  match s.req i with
  | none => s
  | some r =>
    if r.st ≠ .drifted then s
    else if r.plist = .lost then rebuildReq i { r with hostPaused := false, resumeP := none } s
    else
      match r.move with
      | some m =>
        if m.granted.isSome then s
        else
          let g := steward r.part (r.pages.length + 1) r.cls true false i s
          match g.1 with
          | .error _ => g.2
          | .ok l =>
            let s1 := markFrames { use := .request, tag := i, part := r.part } l.dropLast g.2
            let s2 := markFrames { use := .list, tag := i, part := r.part } (l.drop (l.length - 1)) s1
            startCopies (setReq i { r with move := some { m with granted := some l } } s2)
      | none => s
/-- Ask for a move-in while fewer than 256 sessions are in move-in; the TTL stops. -/
def askMoveIn (i : Nat) (s : State) : State :=
  match s.req i with
  | none => s
  | some r =>
    if r.st = .drifted && (r.move.isNone && movingIn s < 256) then
      if r.plist = .lost then moveIn i s
      else
        let d := nextDue s
        moveIn i (setReq i { r with move := some { out := false, due := d.1 }, ttlEnd := none, expired := false } d.2)
    else s
/-- Each of a list of IDs. -/
def eachId (f : Nat → State → State) : List Nat → State → State
  | [], s => s
  | i :: t, s => eachId f t (f i s)

/-! ## Item 4: host pauses; RESUMEs (R359, R360) -/

/-- A request becomes PAUSED, with its record. -/
def pauseReq (i : Nat) (r : Req) (host : Bool) (s : State) : State :=
  reqRec i r 5 0 0 (setReq i { r with st := .paused, hostPaused := r.hostPaused || host, pauseP := false, pausedFor := 0,
                                             ttl := if host then r.ttl else 86400, prop := none } s)
/-- A host PAUSE reaches the edge: it acts on a request that holds pages and runs; a request that the pipeline has paused or
drifted stays where it is and waits for the host. -/
def applyPause (i : Nat) (r : Req) (s : State) : State :=
  if !r.pauseP || r.cancelP then s
  else
    match r.st with
    | .prefill | .decode => moveOut i (pauseReq i r true s)
    | .paused => moveOut i (setReq i { r with hostPaused := true, pauseP := false } s)
    | .drifted => setReq i { r with hostPaused := true, pauseP := false } s
    | .queued | .handoff | .remote | .ending => setReq i { r with pauseP := false } s
/-- A RESUME that has been read: in HBM the request is a candidate again, on the drift shelf its move-in begins. -/
def applyResume (i : Nat) (r : Req) (s : State) : State :=
  if r.resumeP.isNone || r.cancelP then s
  else
    match r.st with
    | .paused =>
      let s1 := stopMoveOut i s
      modReq i (fun r => { r with hostPaused := false, resumeP := none, pausedFor := 0 }) s1
    | .drifted => askMoveIn i s
    | .queued | .prefill | .decode | .handoff | .remote | .ending => setReq i { r with resumeP := none } s
/-- The IDs with a RESUME, in the order in which the RESUMEs were read. -/
def resumeOrder (s : State) : List Nat :=
  (sortBy (fun (a b : Nat × Nat) => a.1 < b.1) (s.serve.reqs.filterMap fun e => e.2.resumeP.map fun k => (k, e.1))).map Prod.snd

/-! ## Item 5: growth pages, pages of rebuilt requests, queued requests (R350, R351, R364) -/

/-- R401: proposals of a request's next verify. -/
def propCount (s : State) (r : Req) : Nat :=
  if r.draft then (draftReady s r.part).elim 0 fun d => min d.k (r.maxNew - r.genLen - 1) else 0
/-- R402: the rounds of a draft turn: one more where the last verify accepted all its proposals. -/
def turnRounds (s : State) (r : Req) : Nat :=
  let k := propCount s r
  if k = 0 then 0 else if r.lastAll then k + 1 else k
/-- The pages that a decode request's next step needs: its positions reach the last proposal. -/
def needPages (s : State) (g : Program) (r : Req) : Nat := pagesFor g (r.next + propCount s r)
/-- Order of the steward: class, then its rotating pointer over request IDs. -/
def stewardBefore (s : State) (a b : Nat × Req) : Bool :=
  let d := fun i => (i + 2097152 - s.serve.stewardPtr % 2097152) % 2097152
  a.2.cls < b.2.cls || (a.2.cls = b.2.cls && d a.1 < d b.1)
/-- A decode request whose next step passes its last page asks for a page; NO_PAGE makes it PAUSED. -/
def growReq (i : Nat) (s : State) : State :=
  match s.req i with
  | none => s
  | some r =>
    match (s.spart r.part).program with
    | none => s
    | some g =>
      let n := needPages s g r - r.pages.length
      let runs := r.st = .decode || (r.st = .paused && (r.grow && !r.hostPaused))
      if n = 0 || (!runs || (match r.plist with | .frame _ => false | _ => true)) then s
      else
        let a := steward r.part n r.cls (r.st = .paused) false i s
        match a.1 with
        | .ok l => setReq i { r with pages := r.pages ++ l, grow := false } (markFrames { use := .request, tag := i, part := r.part } l a.2)
        | .error _ => if r.st = .decode then pauseReq i { r with grow := true } false a.2 else a.2
/-- A rebuilt request asks for its pages, with RESUME. -/
def refillReq (i : Nat) (s : State) : State :=
  match s.req i with
  | none => s
  | some r =>
    match (s.spart r.part).program with
    | none => s
    | some g =>
      if r.st = .prefill && r.plist = .none then
        let n := pagesFor g r.fillTo + 2
        let a := steward r.part n r.cls true false i s
        match a.1 with
        | .error _ => a.2
        | .ok l =>
          setReq i { r with pages := l.dropLast, plist := .frame (l.getLastD 0) }
            (markFrames { use := .list, tag := i, part := r.part } (l.drop (l.length - 1))
              (markFrames { use := .request, tag := i, part := r.part } l.dropLast a.2))
      else s

/-! ## ADMIT (R350) -/

/-- Rows 8 to 11 of Table SP-6: the reason to queue a request, or 0 with its pages granted. -/
def admitRows (i : Nat) (r : Req) (g : Program) (s : State) : Nat × State :=
  let horizon := (s.spart r.part).horizon * 1000000
  if !eligible s r then (2, s)
  else if (predictedWait s r.part r.cls g).elim true fun w => horizon < w then (3, s)
  else
    let m := prefixMatch s g r
    let s0 := if m.2 then logLimitedAt r.part 1000000000 .info 0x0511 0x0E 0 [r.part] .none s else s
    let reuse := reusePages s0 g m.1
    let s1 := touchEntries m.1 (shareAll reuse s0)
    let n := pagesFor g r.promptLen - reuse.length + 2
    let a := steward r.part n r.cls false false i s1
    match a.1 with
    | .error _ => (1, unshareAll reuse a.2)
    | .ok l =>
      (0, setReq i { r with st := .prefill, pages := reuse ++ l.dropLast, shared := reuse.length, plist := .frame (l.getLastD 0),
                            filled := reuse.length * tokensPerPage g, fillTo := r.promptLen }
        (markFrames { use := .list, tag := i, part := r.part } (l.drop (l.length - 1))
          (markFrames { use := .request, tag := i, part := r.part } l.dropLast a.2)))
/-- R351: a QUEUED request is examined again; one that is admitted has its ACK in this step's batch. -/
def reexamine (i : Nat) (s : State) : State :=
  match s.req i with
  | none => s
  | some r =>
    if r.st ≠ .queued || r.cancelP then s
    else
      match (s.spart r.part).program with
      | none => s
      | some g =>
        let a := admitRows i r g s
        if a.1 = 0 then (match a.2.req i with
          | none => a.2
          | some r1 => reqRec i r1 1 0 0 a.2)
        else a.2
/-- The QUEUED requests in class order and, within a class, in ID-allocation order; at most 4,096. -/
def queuedIds (s : State) : List Nat :=
  ((sortBy (fun (a b : Nat × Req) => a.2.cls < b.2.cls || (a.2.cls = b.2.cls && a.2.seq < b.2.seq))
    (s.serve.reqs.filter fun e => e.2.st = .queued)).take 4096).map Prod.fst

/-! ## Item 6: pools (R362) -/

/-- Pool settings of POOL_RATIO take effect. -/
def applyPools : List (Nat × SPart) → State → State
  | [], s => s
  | e :: t, s =>
    let x := s.spart e.1
    applyPools t (setSpart e.1 { x with fixed := e.2.fixed, role := e.2.role, peer := e.2.peer, pauseHold := e.2.pauseHold, horizon := e.2.horizon } s)
/-- STEP_TARGET, the floors and the draft share take effect. -/
def applyTargets (s : State) : State :=
  { s with serve := { s.serve with
      target := s.serve.nextTarget.getD s.serve.target, floors := s.serve.nextFloors.getD s.serve.floors
      draftShare := s.serve.nextShare.getD s.serve.draftShare, nextTarget := none, nextFloors := none, nextShare := none } }
/-- Decode candidates of a partition. -/
def decodeCand (s : State) (r : Req) : Bool :=
  eligible s r && (r.st = .decode || (r.st = .paused && (!r.hostPaused && (r.fillTo ≤ r.filled && !r.grow))))
/-- Prefill candidates. -/
def prefillCand (s : State) (r : Req) : Bool :=
  eligible s r && ((r.st = .prefill || (r.st = .paused && (!r.hostPaused && r.filled < r.fillTo)))
    && match r.plist with | .frame _ => true | _ => false)
/-- R362: AUTO moves one group toward the larger predicted time, at most one move in four edges. -/
def shiftPool (p : Nat) (s : State) : State :=
  let x := s.spart p
  match x.program with
  | none => s
  | some g =>
    let pre := prefillGroups s p
    let dec := decodeGroups s p
    if x.fixed.isSome || (x.role ≠ 0 || (s.serve.step < x.lastMove + 4 || (pre.isEmpty || dec.isEmpty))) then s
    else
      let mine := s.serve.reqs.filter fun e => e.2.part = p
      let td := g.t0d * 1000 + g.t1d * (mine.countP fun e => decodeCand s e.2)
      let want := (mine.map fun e => if prefillCand s e.2 then min g.chunk (e.2.fillTo - e.2.filled) else 0).sum
      let tp := (g.t0p * 1000 + g.t1p * want) / pre.length
      let mask := pre.foldl (fun m g => setBit m g true) (0 : BitVec 16)
      let move := fun (m : BitVec 16) => logInfo 0x0502 0x0E 0 [p] (setSpart p { x with prefillPool := m, lastMove := s.serve.step } s)
      if td * 11 < tp * 10 && 1 < dec.length then move (setBit mask (dec.headD 0) true)
      else if tp * 11 < td * 10 && 1 < pre.length then move (setBit mask (pre.headD 0) false)
      else s
/-- Every partition with a program. -/
def shiftPools (s : State) : State := eachId shiftPool (s.serve.parts.map Prod.fst) s

/-! ## Item 7: selection (R354, R355, R387, R403) -/

/-- What a selection has used so far. -/
structure Sel where
  left : Nat
  /-- records reserved per ring -/
  rooms : Tab Nat := []
  adapters : List Nat := []
  /-- draft time of the step so far in ns, the longest round count and the tokens of the partition under way -/
  draftNs : Nat := 0
  rounds : Nat := 0
  toks : Nat := 0
  /-- proposal records in use -/
  recs : Nat := 0
  taken : List (Nat × EKind × Nat) := []
  /-- candidates that sit out for another reason than capacity -/
  sat : List Nat := []
  full : List Nat := []
  deriving DecidableEq, Repr

/-- R355: the rank order: class, in the step before first, the rotating pointer over tenants, the lower ID. -/
def rankBefore (ptr : Nat) (a b : Nat × Req) : Bool :=
  let d := fun (t : Nat) => (t + 65536 - ptr % 65536) % 65536
  let key := fun (e : Nat × Req) => (e.2.cls, (if e.2.inStep then 0 else 1), d e.2.tenant, e.1)
  let x := key a
  let y := key b
  x.1 < y.1 || (x.1 = y.1 && (x.2.1 < y.2.1 || (x.2.1 = y.2.1 && (x.2.2.1 < y.2.2.1 || (x.2.2.1 = y.2.2.1 && x.2.2.2 < y.2.2.2)))))
/-- The drafting that a request asks for in a step: rounds and tokens. -/
def draftWork (s : State) (r : Req) (k : EKind) (ntok : Nat) : Nat × Nat :=
  match draftReady s r.part with
  | none => (0, 0)
  | some d =>
    match k with
    | .prefill => (0, ntok)
    | .draftTurn => let n := turnRounds s r; (n, n)
    | .verify => let n := min d.k (r.maxNew - r.genLen - 1) + 1; (n, n)
    | .decode => if r.draft then (let n := min d.k (r.maxNew - r.genLen - 2); (n, n)) else (0, 0)
/-- The draft time of a partition's program in ns. -/
def draftTime (s : State) (p rounds toks : Nat) : Nat := (s.draftOf p).elim 0 fun d => d.t0 * 1000 * rounds + d.t1 * toks
/-- What a decode candidate is dispatched as. -/
def decodeKind (s : State) (r : Req) : EKind × Nat :=
  let k := propCount s r
  if k = 0 then (.decode, 1) else if r.prop.isSome then (.verify, k + 1) else (.draftTurn, 0)

/-- Try to take one candidate, of at most 65,536 in a step (Table SP-1): it sits out when its ring, the adapters or the drafting of the step have no room. -/
def takeCand (s : State) (p cost : Nat) (k : EKind) (ntok : Nat) (e : Nat × Req) (x : Sel) : Sel :=
  let r := e.2
  let used := Tab.get 0 x.rooms r.ring
  let room := r.guest || used + 2 ≤ ringRoom (s.ring r.ring)
  let newA := match r.adapter with
    | none => x.adapters
    | some a => if a ∈ x.adapters then x.adapters else a :: x.adapters
  let w := draftWork s r k ntok
  let rounds := max x.rounds w.1
  let toks := x.toks + w.2
  let fits := w.2 = 0 || (x.draftNs + draftTime s p rounds toks ≤ s.serve.target * 10 * s.serve.draftShare && (k ≠ .draftTurn || x.recs < 1024))
  if !room then { x with sat := e.1 :: x.sat, full := if r.ring ∈ x.full then x.full else r.ring :: x.full }
  else if 1024 < newA.length || !fits then { x with sat := e.1 :: x.sat }
  else if x.left < cost || 65536 ≤ x.taken.length then x
  else
    { x with left := x.left - cost, rooms := Tab.put 0 x.rooms r.ring (used + 1), adapters := newA, rounds := rounds, toks := toks,
             recs := if k = .draftTurn then x.recs + 1 else x.recs, taken := x.taken ++ [(e.1, k, ntok)] }
/-- Take candidates in rank order while `budget` of the capacity lasts; those taken before are passed over. -/
def takeAll (s : State) (p : Nat) (kindOf : Req → EKind × Nat) (costOf : EKind → Nat → Nat) : List (Nat × Req) → Sel → Sel
  | [], x => x
  | e :: t, x =>
    if (x.taken.any fun y => y.1 = e.1) || e.1 ∈ x.sat then takeAll s p kindOf costOf t x
    else
      let k := kindOf e.2
      takeAll s p kindOf costOf t (takeCand s p (costOf k.1 k.2) k.1 k.2 e x)
/-- R354: each class with candidates first takes up to its floor; then the rest goes by rank. -/
def floorsThen (s : State) (p cap : Nat) (kindOf : Req → EKind × Nat) (costOf : EKind → Nat → Nat) (cands : List (Nat × Req)) (x0 : Sel) : Sel :=
  let pass := fun (x : Sel) (c : Nat) =>
    let fl := min x.left (s.serve.floors.toList.getD (c - 1) 0 * cap / 100)
    let y := takeAll s p kindOf costOf (cands.filter fun e => e.2.cls = c) { x with left := fl }
    { y with left := x.left - (fl - y.left) }
  let x1 := [1, 2, 3].foldl pass { x0 with left := cap }
  takeAll s p kindOf costOf cands x1

/-- The selection of one partition: decode set, then prefill set. -/
def selectPart (s : State) (x : Sel) (p : Nat) (g : Program) : Sel :=
  let ptr := (s.spart p).ptr
  let mine := s.serve.reqs.filter fun e => e.2.part = p && !e.2.cancelP
  let dec := sortBy (rankBefore ptr) (mine.filter fun e => decodeCand s e.2)
  let pre := sortBy (rankBefore ptr) (mine.filter fun e => prefillCand s e.2)
  let y := floorsThen s p (capDecode s p g) (decodeKind s) (fun _ _ => 1) dec { x with rounds := 0, toks := 0 }
  let z := floorsThen s p (capPrefill s p g) (fun r => (.prefill, min g.chunk (r.fillTo - r.filled))) (fun _ n => n) pre y
  { z with draftNs := z.draftNs + draftTime s p z.rounds z.toks, rounds := 0, toks := 0 }
/-- The selections of several partitions. -/
def selectParts (s : State) : List (Nat × SPart) → Sel → Sel
  | [], x => x
  | e :: t, x => selectParts s t (match e.2.program with
    | none => x
    | some g => selectPart s x e.1 g)

/-- A request that no step takes; a PAUSED one has kept its pages for one more edge. -/
def sitOut (r : Req) : Req := { r with inStep := false, prop := none, pausedFor := if r.st = .paused then r.pausedFor + 1 else r.pausedFor }
/-- R359, R360, R404: what the selection does to a request: PAUSED when it was in the step and lost its place, RESUMED when it was
paused and is taken. -/
def settleSel (x : Sel) (i : Nat) (r : Req) (s : State) : State :=
  let taken := x.taken.any fun y => y.1 = i
  if taken then
    if r.st = .paused then
      reqRec i r 6 0 0 (modReq i (fun r => { r with st := if r.filled < r.fillTo then .prefill else .decode, pausedFor := 0 }) (stopMoveOut i s))
    else s
  else if i ∈ x.sat then setReq i (sitOut r) s
  else if r.inStep && ((r.st = .decode && decodeCand s r) || (r.st = .prefill && prefillCand s r)) then pauseReq i { r with inStep := false } false s
  else setReq i (sitOut r) s
/-- R355: the pointer moves one position past the last tenant served. -/
def movePtrs (x : Sel) (s : State) : State :=
  x.taken.foldl (fun s e => match s.req e.1 with
    | none => s
    | some r => setSpart r.part { s.spart r.part with ptr := (r.tenant + 1) % 65536 } s) s
/-- R365: RING_FULL, at most one per ring per second. -/
def noteFull : List Nat → State → State
  | [], s => s
  | k :: t, s => noteFull t (logLimitedAt k 1000000000 .info 0x0506 0x0E 0 [k] .none s)

/-! ## Item 8: dispatch (R356, R387) -/

/-- The entries of a partition: decode entries fill its decode groups, prefill entries take its prefill groups in turn. -/
def placeEntries (s : State) (p : Nat) (g : Program) (l : List (Nat × EKind × Nat)) : List Entry :=
  let dec := l.filter fun e => e.2.1 = .decode || e.2.1 = .verify
  let pre := l.filter fun e => e.2.1 = .prefill
  let turn := l.filter fun e => e.2.1 = .draftTurn
  let dg := decodeGroups s p
  let pg := prefillGroups s p
  let mk := fun (e : Nat × EKind × Nat) (grp : Nat) =>
    let r := s.req e.1
    ({ req := e.1, part := p, group := grp, kind := e.2.1, ntok := e.2.2,
       pos := r.elim 0 fun r => if e.2.1 = .prefill then r.filled else r.next - 1, slot := 0 } : Entry)
  ((List.range dec.length).zip dec).map (fun x => mk x.2 (dg.getD (x.1 / g.decPerGroup) 0))
    ++ ((List.range pre.length).zip pre).map (fun x => mk x.2 (pg.getD (x.1 % max 1 pg.length) 0))
    ++ turn.map (fun e => mk e 16)
/-- Number the entries' logit slots, and give each adapter its slot. -/
def numberEntries (adapters : List Nat) (s : State) (l : List Entry) : List Entry :=
  ((List.range l.length).zip l).map fun x =>
    let a := (s.req x.2.req).bind Req.adapter
    { x.2 with slot := x.1, adapterSlot := a.elim 65535 fun a => adapters.idxOf a }
/-- KIND of Table SP-7. -/
def EKind.code : EKind → Nat
  | .prefill => 0 | .decode => 1 | .verify => 2 | .draftTurn => 3
/-- Table SP-7: an entry of a batch table. -/
def entryBytes (s : State) (e : Entry) : List Byte :=
  let r := s.req e.req
  let pl := r.elim 0 fun r => match r.plist with
    | .frame f => f
    | .none | .drift _ | .lost => 0
  leBytes 4 (e.req + e.kind.code * 2 ^ 21) ++ leBytes 2 e.adapterSlot ++ leBytes 2 e.ntok ++ leBytes 4 e.pos ++ leBytes 4 pl
    ++ leBytes 6 (r.elim 0 Req.tokbuf) ++ leBytes 2 e.slot ++ leBytes 8 0
/-- R387: an entry of the adapter slot table. -/
def adapterBytes (s : State) (a : Nat) : List Byte :=
  match s.adapter a with
  | none => List.replicate 32 0
  | some x =>
    leBytes 4 a ++ leBytes 2 x.gen ++ leBytes 2 x.rank ++ leBytes 1 x.dtype ++ leBytes 1 0 ++ leBytes 2 x.layers
      ++ leBytes 6 x.weightDva ++ leBytes 6 0 ++ leBytes 8 x.weightBytes
/-- Write bytes over slice units, 16 KiB to each. -/
def pokeUnits (node : Nat) : List Nat → List Byte → State → State
  | [], _, s => s
  | u :: t, b, s => pokeUnits node t (b.drop 16384) (poke (sliceBase + node * 2 ^ 22 + u * 16384) (b.take 16384) s)
/-- R325: the progress slot that a dispatch to a cluster names: the one that it has had in its partition, or one in that partition's space
(the place is open: log 170). -/
def progressSlot (s : State) (c : Nat) : Nat :=
  match (Tab.get ({} : BondPort) s.bond.ports c).progress with
  | some (p, d) => if p = clusterPart s c then d else Config.progressPlace (clusterPart s c) c % 2 ^ 40 * 256
  | none => Config.progressPlace (clusterPart s c) c % 2 ^ 40 * 256
/-- Set the progress slot of a cluster. -/
def setProgress (c : Nat) (s : State) : State :=
  { s with bond := { s.bond with ports := Tab.mod {} s.bond.ports c fun p => { p with progress := some (clusterPart s c, progressSlot s c) } } }
/-- A dispatch notice to every cluster of a group: step, group, progress slot. -/
def notices (grp : Nat) : List Nat → State → State
  | [], s => s
  | c :: t, s => notices grp t (send (.flit c "dispatch" [s.serve.step, grp, progressSlot s c]) (setProgress c s))
/-- Dispatch the entries of one group: its batch table and adapter slots in units of the slice of its lowest cluster, and the
notices. A group whose slice has no units left takes no work in the step. -/
def dispatchGroup (grp : Nat) (s : State) : State :=
  let es := s.serve.entries.filter fun e => e.group = grp
  let node := (groupClusters grp).headD 0
  let ads := ((es.filterMap fun e => (s.req e.req).bind Req.adapter)).eraseDups
  let b := es.flatMap (entryBytes s) ++ ads.flatMap (adapterBytes s)
  let us := (freeUnits s node).take (ceilDiv b.length 16384)
  if es.isEmpty then s
  else if us.length < ceilDiv b.length 16384 then
    { s with serve := { s.serve with entries := s.serve.entries.filter fun e => e.group ≠ grp } }
  else
    let s1 := pokeUnits node us b (takeUnits node (es.head?.elim 0 Entry.part) us s)
    notices grp (groupClusters grp)
      { s1 with serve := { s1.serve with groups := setBit s1.serve.groups grp true, tables := s1.serve.tables ++ us.map fun u => (node, u) } }
/-- The slice units of the batch tables of the step before are free again. -/
def freeTables : List (Nat × Nat) → State → State
  | [], s => s
  | e :: t, s => freeTables t (freeUnit e.1 e.2 s)
/-- Draft turns begin. -/
def startTurns (s : State) : State :=
  { s with serve := { s.serve with drafting := s.serve.entries.foldl (fun t e =>
      if e.kind = .draftTurn then Tab.put {} t e.req { left := (s.req e.req).elim 0 (turnRounds s) } else t) [] } }
/-- The entries of every partition. -/
def allEntries (s : State) (x : Sel) : List Entry :=
  s.serve.parts.flatMap fun e => match e.2.program with
    | none => []
    | some g => placeEntries s e.1 g (x.taken.filter fun y => (s.req y.1).elim false fun r => r.part = e.1)
/-- R369: the pages that a step's requests read take the step as their LAST_USE. -/
def touchPages (l : List Nat) (s : State) : State :=
  let frames := s.mem.frames.map fun e => if e.1 ∈ l then (e.1, { e.2 with lastUse := s.serve.step % 65536 }) else e
  { s with mem := { s.mem with frames := frames } }
/-- Dispatch the next step. -/
def dispatch (x : Sel) (s : State) : State :=
  let es := numberEntries x.adapters s (allEntries s x)
  let s1 := { s with serve := { s.serve with
    step := s.serve.step + 1, entries := es, groups := 0, reported := 0, discarded := 0, packets := [], decided := []
    dispatchedAt := s.now } }
  let t := eachId dispatchGroup (List.range 16) s1
  startTurns (touchPages (t.serve.entries.flatMap fun e => (t.req e.req).elim [] Req.pages) t)

/-! ## The edge (R340) -/

/-- The packets that a position needs. -/
def packetsPer (s : State) (p : Nat) : Nat := ((s.spart p).program).elim 0 fun g => ceilDiv g.vocab 1024
/-- The positions of an entry whose logits SAMPLE needs: 1 for the last prefill chunk and a decode, K + 1 for a verify. -/
def entryPositions (s : State) (e : Entry) : Nat :=
  match e.kind with
  | .prefill => (s.req e.req).elim 0 fun r => if r.fillTo ≤ e.pos + e.ntok then 1 else 0
  | .decode => 1
  | .verify => e.ntok
  | .draftTurn => 0
/-- R407: every logit packet of an entry has arrived. -/
def entryLogits (s : State) (e : Entry) : Bool :=
  (s.serve.packets.countP fun k => k.1.1 = e.slot) = entryPositions s e * packetsPer s e.part
/-- A group has reported, and its packets have arrived. -/
def groupDone (s : State) (g : Nat) : Bool :=
  !s.serve.groups.getLsbD g || (s.serve.discarded.getLsbD g || (s.serve.reported.getLsbD g
    && (s.serve.entries.filter fun e => e.group = g).all (entryLogits s)))
/-- R207, R358: a group that has work in the step takes part in an active static window. -/
def groupInWindow (s : State) (g : Nat) : Bool := s.serve.groups.getLsbD g && (groupClusters g).any fun c => inActiveWindow s 0x01 c
/-- R356: every group has reported and SAMPLE has finished, its drafting rounds included; and no group stands in a static window, for the
edge never comes before its close (R358). -/
def stepDone (s : State) : Bool := ((List.range 16).all fun g => groupDone s g && !groupInWindow s g) && s.serve.drafting.isEmpty

/-- Items 1 and 2. -/
def edgeCommit (s : State) : State :=
  let s1 := eachReq freeRemote s.reqIds (eachReq commitInbox s.reqIds (commitEntries s.serve.entries s))
  let s2 := eachReq finishMove s1.reqIds s1
  let s3 := eachReq endFailedDraft s2.reqIds (eachReq rebuildLost s2.reqIds s2)
  let s4 := eachReq applyExpiry s3.reqIds (eachReq applyCancel s3.reqIds s3)
  eachReq finishEnding s4.reqIds s4
/-- The GUEST records of handoffs whose chunks have all arrived (R363). -/
def makeGuests (s : State) : State :=
  let l := s.serve.guests.filter fun e => e.arrived.isSome
  let s1 := { s with serve := { s.serve with guests := s.serve.guests.filter fun e => e.arrived.isNone } }
  l.foldl (fun s e => match e.arrived with
    | none => s
    | some r =>
      let ids := s.reqIds
      let i := ((List.range (ids.length + 1)).find? fun i => !(i ∈ ids)).getD 0
      let s1 := markFrames { use := .request, tag := i, part := r.part } e.frames.dropLast s
      let s2 := markFrames { use := .list, tag := i, part := r.part } (e.frames.drop (e.frames.length - 1)) s1
      { setReq i { r with seq := s.serve.nextSeq } s2 with serve := { (setReq i { r with seq := s.serve.nextSeq } s2).serve with
          nextSeq := s.serve.nextSeq + 1 } }) s1
/-- R364: a request waits in HANDOFF: HANDOFF_WAIT, once. -/
def waitPeer (i : Nat) (r : Req) (s : State) : State :=
  if r.waitNoted then setReq i { r with asked := false } s
  else logInfo 0x0503 0x0E 0 [i] (setReq i { r with asked := false, waitNoted := true } s)
/-- R363, R364: requests in HANDOFF ask their peer for pages, while the port to it carries traffic. -/
def askPeer (i : Nat) (r : Req) (s : State) : State :=
  if r.st = .handoff && (!r.asked && (!r.shipping && !r.cancelP)) then
    if !carrying s 0x07 (meshPort s.aon.slot.val (s.spart r.part).peer) then waitPeer i r s
    else setReq i { r with asked := true }
      (send (.link (meshPort s.aon.slot.val (s.spart r.part).peer) "handoff pages" [i, r.part, r.cls, r.pages.length]) s)
  else s
/-- Move-ins of requests that the pipeline paused, in rank order (R392), and another try for those that wait for frames. -/
def pipelineMoveIns (s : State) : State :=
  let wait := s.serve.reqs.filter fun e => e.2.move.elim false fun m => !m.out && m.granted.isNone
  let again := (sortBy (stewardBefore s) wait).map Prod.fst
  let l := (sortBy (rankBefore 0) (s.serve.reqs.filter fun e => e.2.st = .drifted && (!e.2.hostPaused && e.2.move.isNone))).map Prod.fst
  eachId askMoveIn l (eachId moveIn again s)
/-- The selection, what it does to the requests, and the dispatch. -/
def edgeSelect (s : State) : State :=
  let x := selectParts s s.serve.parts { left := 0, recs := s.serve.reqs.countP fun e => e.2.prop.isSome }
  dispatch x (noteFull x.full (movePtrs x (eachReq (settleSel x) s.reqIds s)))
/-- R347: the context record of a request that is not in the step is read for the selection; an uncorrectable error in it ends the
request with CONTEXT, and its pages are reclaimed at the next edge. A record in the context cache is written back whole. -/
def readContext (i : Nat) (r : Req) (s : State) : State :=
  if r.inStep then writeContext i s
  else if r.st = .ending || !(s.flaw (contextDpa s i)).poison then s
  else logUe .operation 0x0505 0x0E 0 [i] (reqRec i r 3 4 0 (setReq i { r with st := .ending, prop := none } s))
/-- STEP_EDGE (object 0x0000) is set with the low 28 bits of the count, and STEP_MON pulses. -/
def setEdge (s : State) : State := send (.flit 0 "STEP_MON" [s.serve.step]) (lullSet 0 (s.serve.step % 2 ^ 28) s)
/-- The fate of units at an edge: slice units of ended work, RETAINED pages without use, frames counted for the retry hint. -/
def edgeSweep (s : State) : State :=
  let s1 := sweepRetained (freeTables s.serve.tables s)
  { s1 with serve := { s1.serve with tables := [], entered := s1.serve.entering, entering := [] } }

/-! ## Units that leave on purpose (spec/19_faults_and_recovery.md R519) -/

/-- A session loses a page that a condition names: a running move is abandoned; a drift copy is lost, with DRIFT_LOST. -/
def driftLose (hit : Nat → Bool) (i : Nat) (r : Req) (s : State) : State :=
  let lost := fun (s : State) =>
    logUe .operation 0x0515 0x0E 0 [i] { s with serve := { s.serve with losses := s.serve.losses + 1 } }
  match r.move with
  | some m =>
    if m.out then
      if (m.granted.getD []).any hit then setReq i { r with move := none } (freeDrift (m.granted.getD []) s) else s
    else if r.driftPages.any hit then
      lost (setReq i { r with move := none, plist := .lost, driftPages := [] } (freeDrift r.driftPages (freeFrames (m.granted.getD []) s)))
    else s
  | none =>
    if r.driftPages.any hit then lost (setReq i { r with plist := .lost, driftPages := [] } (freeDrift r.driftPages s)) else s
/-- R393: drift pages have become BAD. -/
def driftLost (hit : Nat → Bool) (s : State) : State := startCopies (eachReq (driftLose hit) s.reqIds s)

/-- R475: a CXL port is out of service; its drift pages are BAD. -/
def cxlOut (n : Nat) (s : State) : State :=
  let s1 := modCxl n (fun p => { p with up := false, halved := false }) s
  driftLost (fun d => driftPort s d = n) { s1 with serve := { s1.serve with driftBad := setBit s1.serve.driftBad n true } }
/-- The Vane port, gateway and Gust port at a node. -/
def nodeVanes (n : Nat) : List Nat := (List.range 4).filter fun p => vaneNode p = n
def nodeGateways (n : Nat) : List Nat := (List.range 8).filter fun g => gatewayNode g = n
def nodeGusts (n : Nat) : List Nat := (List.range 12).filter fun k => gustNode k = n
/-- Table NW-7: the Vane ports of a dead router are disabled. -/
def disableVanes (n : Nat) (s : State) : State :=
  { s with vane := { s.vane with vpEnable := (nodeVanes n).foldl (fun m p => setBit m p false) s.vane.vpEnable } }
/-- The units of a list that are in service leave it with their router. -/
def offlineWith (ut : Nat) : List Nat → State → State
  | [], s => s
  | i :: t, s => offlineWith ut t
      (if s.unitSt ut i ≠ .inService then s else if ut = 0x07 then portOffline i s else offlineUnit ut i s)
/-- Table NW-7: what goes with a router that is taken out: its cluster, gateway, Gust port and Vane port. -/
def offlineRouter (n : Nat) (s : State) : State :=
  disableVanes n (offlineWith 0x07 (nodeGusts n) (offlineWith 0x08 (nodeGateways n) (offlineWith 0x01 [n] s)))
/-- R307, R475: what else goes with a unit that leaves service on purpose: a stack's frames, a CXL port's drift pages, what stands
at a router. -/
def offlineLost (ut inst : Nat) (s : State) : State :=
  match ut with
  | 0x02 => offlineRouter inst s
  | 0x05 => loseStack inst s
  | 0x0D => cxlOut (inst - 1) s
  | _ => s
/-- R519 steps 3 and 4: a unit that has left the routes is fenced and becomes OFFLINE; a unit that hardware has fenced meanwhile
stays FAULTED. -/
def offlineNow (u : Nat × Nat) (s : State) : State :=
  if u.1 = 0x07 then (if (s.gport u.2).st = .up then portOffline u.2 (linkFlit u.2 6 "LEAVE" [] s) else
    completeAwait (fun a => a = .unitOffline u.1 u.2) { status := 0 } s)
  else
    completeAwait (fun a => a = .unitOffline u.1 u.2) { status := 0 }
      (if s.unitSt u.1 u.2 = .inService then offlineLost u.1 u.2 (offlineUnit u.1 u.2 s) else s)
/-- R207, R519: work in an active window or in the running step still needs the unit. -/
def unitAtWork (s : State) (u : Nat × Nat) : Bool :=
  inActiveWindow s u.1 u.2 || (u.1 = 0x01 && s.serve.groups.getLsbD (groupOf u.2))
    || (u.1 = 0x09 && (List.range 128).any fun c => tileOf c = u.2 && s.serve.groups.getLsbD (groupOf c))
/-- The units of a list that leave now; one that is at work waits. -/
def leaveAll : List (Nat × Nat) → State → State
  | [], s => s
  | u :: t, s => leaveAll t
      (if unitAtWork s u then { s with units := { s.units with leaving := s.units.leaving ++ [u] } } else offlineNow u s)
/-- A window has closed or a step has ended: the waiting units are looked at again. -/
def releaseLeaving (s : State) : State := leaveAll s.units.leaving { s with units := { s.units with leaving := [] } }

/-- A step edge, item by item. -/
def stepEdge (s : State) : State :=
  let s0 := { s with serve := { s.serve with prevEdge := s.serve.edgeAt, edgeAt := s.now, lastTime := s.now - s.serve.dispatchedAt } }
  let s1 := edgeSweep (edgeCommit (setEdge s0))
  let s2 := tradeAll s1
  let s3 := eachId (fun i s => match s.req i with | none => s | some r => applyResume i r s) (resumeOrder s2) (eachReq applyPause s2.reqIds s2)
  let order := (sortBy (stewardBefore s3) s3.serve.reqs).map Prod.fst
  let s4 := eachId reexamine (queuedIds s3) (eachId refillReq order (eachId growReq order (makeGuests s3)))
  let s5 := shiftPools (applyTargets (applyPools s4.serve.nextPool s4))
  let s6 := { s5 with serve := { s5.serve with nextPool := [] } }
  let s7 := eachReq readContext s6.reqIds s6
  releaseLeaving (edgeSelect (eachReq askPeer s7.reqIds (pipelineMoveIns s7)))

end Sys2Proof.Machine
end

