-- ==== Sys2Proof/Machine/Serving.lean ====
section
/-!
DEFINITION. The serving commands: status, tenants, rings, programs, held frames, pools (spec/13_serving_pipeline.md R342 to R344,
R362, R363, R367, spec/14_pages_prefixes_adapters_drift.md R378, R379).
-/
namespace Sys2Proof.Machine

/-! ## What the commands of area 0x05 share -/

/-- R367, R395: the partition a command acts on: its mailbox's, or the one that ARG9 names for a mailbox of partition 0. -/
def actPart (s : State) (n : Nat) (m : Mbx) : Nat := if mbxPart s n = 0 then m.arg 9 else mbxPart s n
/-- ARG9 names a partition only for a mailbox of partition 0, and one that is not UNUSED. -/
def partArgOk (s : State) (n : Nat) (m : Mbx) : Bool :=
  if mbxPart s n = 0 then m.arg 9 = 0 || (m.arg 9 < 64 && partKind s (m.arg 9) ≠ .unused) else m.arg 9 = 0
/-- The argument words up to ARG8 that a form does not define are 0. -/
def restZero (m : Mbx) (used : List Nat) : Bool := (List.range 9).all fun i => i ∈ used || m.arg i = 0
/-- The shape of a command of this area. -/
def shape (s : State) (n : Nat) (m : Mbx) (used : List Nat) : Option Nat := failIf (!partArgOk s n m || !restZero m used) 0
/-- R516: BUSY with UNIT_MAINT in the maintenance state. -/
def maintBusy (s : State) : Option Nat := failIf s.units.maint 0x0B06
/-- Answer the first check that fails, or act. -/
def decideOn (n : Nat) (c : Checks) (act : State → State) (s : State) : State :=
  match c.first with
  | some r => reply n r s
  | none => act s

/-! ## TENANT_SET, SUB TENANT (R344) -/

/-- A 32-bit argument as a signed number. -/
def signed32 (x : Nat) : Int := (BitVec.ofNat 32 x).toInt

/-- ENABLE and MAX_CLASS apply at once, RATE and DEPTH from the next edge; the expert form sets the level. -/
def execTenantSetTenant (n : Fin 16) (s : State) : Result :=
  .next (commandIf 0x0502 n.val (fun m => m.arg 0 = 0)
    (fun s m =>
      { notPermitted := failIf (m.arg 1 < 65536 && (partArgOk s n.val m && tenantPart s (m.arg 1) ≠ actPart s n.val m)) 0x0507
        badArg := firstFail [shape s n.val m (if m.exp then [1, 2, 3, 4, 5] else [1, 2, 3, 4]),
          failIf (65536 ≤ m.arg 1 || (8 ≤ m.arg 2 || (m.arg 4 = 0 || 2 ^ 31 ≤ m.arg 4))) 0]
        busy := maintBusy s })
    (fun s m =>
      let t := s.tenant (m.arg 1)
      replyDone n.val [] [] (setTenant (m.arg 1) { t with
        enable := m.arg 2 % 2 = 1, maxClass := m.arg 2 / 2, next := some (m.arg 3, m.arg 4)
        level := if m.exp then signed32 (m.arg 5) else t.level } s)) s)

/-! ## TENANT_SET, SUB RING (R342) -/

/-- DISABLE. -/
def ringOff (m : Mbx) : Bool := m.arg 7 / 65536 % 2 = 1
/-- A ring within R342. -/
def ringOk (s : State) (n : Nat) (m : Mbx) : Bool :=
  let log := m.arg 4
  let rlog := m.arg 7 / 256 % 32
  let dva := m.arg64 2
  ringOff m || (decide (8 ≤ log) && (log ≤ 16 && (10 ≤ rlog && (rlog ≤ 20 && (dva < 2 ^ 48 && (dva % (64 * 2 ^ log) = 0
    && ((m.arg 7 % 2 = 1 || m.arg64 5 < 2 ^ 48) && !(m.arg 7 % 2 = 1 && partKind s (actPart s n m) = .vault))))))))
/-- A ring is set anew, or disabled: its indexes start from 0; records that wait for it are kept. -/
def execTenantSetRing (n : Fin 16) (s : State) : Result :=
  .next (commandIf 0x0502 n.val (fun m => m.arg 0 = 1)
    (fun s m =>
      { badArg := firstFail [shape s n.val m [0, 1, 2, 3, 4, 5, 6, 7], failIf (64 ≤ m.arg 1 || m.arg 7 &&& 0xFFFEE0FE ≠ 0) 0,
          failIf (!ringOk s n.val m) 0x0502]
        busy := firstFail [failIf (ringLive s (m.arg 1)) 0x0501, maintBusy s] })
    (fun s m =>
      let x : Ring :=
        if ringOff m then { out := (s.ring (m.arg 1)).out }
        else { set := true, part := actPart s n.val m, subDva := m.arg64 2, subLog := m.arg 4, hostRes := m.arg 7 % 2 = 1,
               resAddr := m.arg64 5, resLog := m.arg 7 / 256 % 32, out := (s.ring (m.arg 1)).out }
      replyDone n.val [] [] (setRing (m.arg 1) x s)) s)

/-! ## TENANT_SET, SUB PROGRAM (R343, R356, R371, R379) -/

/-- Table SP-2: a serving program header whose fields are in range. -/
def programOk (b : List Byte) : Bool :=
  let ctx := leAt b 20 4
  let chunk := leAt b 24 2
  let kv := leAt b 28 4
  b.length = 64 && (leAt b 0 4 = 0x53565047 && (leAt b 4 2 = 1 && (leAt b 6 2 = 0 && (leAt b 48 12 = 0
    && (crc32c (b.take 60) = leAt b 60 4 && (32 ≤ ctx && (ctx ≤ 1048575 && (32 ≤ chunk && (chunk ≤ 16384 && (chunk % 32 = 0
    && (1 ≤ leAt b 26 2 && (leAt b 26 2 ≤ 4096 && (64 ≤ kv && (kv ≤ 65536 && (kv = 2 ^ Nat.log2 kv && (ctx * kv ≤ 2 ^ 30
    && (2 ≤ leAt b 44 4 && leAt b 44 4 ≤ 524288)))))))))))))))))
/-- A program from its header and its prefix key. -/
def readProgram (b : List Byte) (key : Nat) : Program :=
  { prefillEntry := leAt b 8 6, decodeEntry := leAt b 14 6, maxContext := leAt b 20 4, chunk := leAt b 24 2, decPerGroup := leAt b 26 2
    kvBytes := leAt b 28 4, t0d := leAt b 32 2, t1d := leAt b 34 2, t0p := leAt b 36 2, t1p := leAt b 38 2, pw := leAt b 40 2
    dw := leAt b 42 2, vocab := leAt b 44 4, digest := Config.sha384 b, key := key }
/-- The lowest Lull object ID of the partition's range that is free: the step counter's. -/
def counterId (s : State) (p : Nat) : Option Nat :=
  (List.range 16384).find? fun o => 0x0040 ≤ o && (lullPart s o = p && (s.obj o).isNone)
/-- R356: the step counter of a partition is allocated when its program is set; without a free ID the program has none. -/
def allocCounter (p home : Nat) (s : State) : State :=
  if (s.spart p).counter.isSome then s
  else match counterId s p with
    | none => s
    | some o => setSpart p { s.spart p with counter := some o }
        (setObj o { kind := .counter, homeSlot := s.aon.slot.val, home := home, part := p } s)
/-- TENANT_SET SUB PROGRAM reads and checks the header, draws the prefix key and allocates the step counter, whose home is
hardware's choice. -/
def execTenantSetProgram (n : Fin 16) (home : Fin 128) (s : State) : Result :=
  .next (commandIf 0x0502 n.val (fun m => m.arg 0 = 2)
    (fun s m => { badArg := shape s n.val m [0, 1, 2] })
    (fun s m =>
      let p := actPart s n.val m
      let r := dvaRead (serveAccess p (m.arg64 1) false) 64 s
      let b := match r.1 with
        | .ok b => b
        | .error _ => []
      let c : Checks :=
        { badArg := failIf (2 ^ 48 ≤ m.arg64 1 || !programOk b) 0x0503
          busy := firstFail [failIf (partLive s p) 0x0501, maintBusy s]
          noResource := failIf (drbgDown s) 0x0604 }
      decideOn n.val c (fun s =>
        let g := readProgram b (leNat ((Config.drbg s.freeCtr).take 16))
        let s1 := drbgDraw s
        replyDone n.val [] [] (allocCounter p home.val (setSpart p { s1.spart p with program := some g } s1))) r.2) s)

/-! ## TENANT_SET, SUB FRAMES (R378) -/

/-- GRANT: one all-or-none decision; the frame numbers come inline, or to host memory. -/
def execTenantSetFramesGrant (n : Fin 16) (s : State) : Result :=
  .next (commandIf 0x0502 n.val (fun m => m.arg 0 = 3 && m.arg 1 % 2 = 0)
    (fun s m =>
      { badArg := firstFail [shape s n.val m [0, 1, 2, 3, 4],
          failIf (m.arg 1 ≠ 0 || (m.arg 2 = 0 || (16384 < m.arg 2 || ((m.arg 3 ≠ 1 && m.arg 3 ≠ 2) || (4 ≤ m.arg 4
            || (960 < m.arg 2 && !m.outHost)))))) 0]
        busy := maintBusy s })
    (fun s m =>
      let p := actPart s n.val m
      let a := steward p (m.arg 2) (m.arg 4) false false n.val s
      match a.1 with
      | .error hint => reply n.val { status := 0x20, detail := 0x0514, res := [hint] } a.2
      | .ok l =>
        replyDone n.val [] (l.flatMap (leBytes 4)) (markFrames { use := .held, tag := n.val, part := p, table := m.arg 3 = 2 } l a.2)) s)

/-- The frames that DATA lists. -/
def frameList (m : Mbx) : List Nat := (List.range (m.input.length / 4)).map fun i => leAt m.input (4 * i) 4
/-- R378: a partition holds a frame that it may free: not its root frame, not one that is being freed. -/
def mayFree (s : State) (p f : Nat) : Bool :=
  (s.frame f).use = .held && ((s.frame f).part = p && (!isRoot s f && !(s.frame f).freeing))
/-- Begin the invalidation of each frame, by its DPA range (R320). -/
def freeEach (p n : Nat) : List Nat → State → State
  | [], s => s
  | f :: t, s =>
    freeEach p n t
      (startInval { byDpa := true, part := p, lo := f * 65536, len := 65536, started := false, since := 0, mbx := some n, frames := [f] }
        (modFrame f (fun r => { r with freeing := true }) s))
/-- FREE: the frames are held until their invalidation completes, and DONE is posted then. -/
def execTenantSetFramesFree (n : Fin 16) (s : State) : Result :=
  .next (commandIf 0x0502 n.val (fun m => m.arg 0 = 3 && m.arg 1 % 2 = 1)
    (fun s m =>
      { badArg := firstFail [shape s n.val m [0, 1], failIf (m.arg 1 ≠ 1 || (m.input.isEmpty || m.input.length % 4 ≠ 0)) 0,
          failIf (!(frameList m).all fun f => mayFree s (actPart s n.val m) f) 0x0515]
        busy := firstFail [failIf ((frameList m).any fun f => s.sealed.vaults.any fun e => f ∈ e.2.frames) 0x0607, maintBusy s] })
    (fun s m => setAwait n.val .framesFree (freeEach (actPart s n.val m) n.val (frameList m).eraseDups s)) s)

/-! ## POOL_RATIO (R354, R362, R363) -/

/-- The settings of a partition that the next edge will have. -/
def pendingPool (s : State) (p : Nat) : SPart := (s.serve.nextPool.find? fun e => e.1 = p).elim (s.spart p) Prod.snd
/-- The three floors of ARG5. -/
def floorArg (m : Mbx) (i : Nat) : Nat := m.arg 5 / 256 ^ i % 256
/-- POOL_RATIO; `peerOk` says whether the peer reports the partition with a fitting role and the same program digest. -/
def execPoolRatio (n : Fin 16) (peerOk : Bool) (s : State) : Result :=
  .next (command 0x0505 n.val
    (fun s m =>
      { badArg := firstFail [shape s n.val m (if m.exp then [0, 1, 2, 3, 4, 5, 6, 7] else [0, 1]),
          failIf (2 ≤ m.arg 0 || (m.arg 0 = 0 && m.arg 1 ≠ 0)) 0,
          failIf (m.arg 0 = 1 && (poolGroups s (actPart s n.val m)).length < m.arg 1) 0x0504,
          failIf (m.exp && (m.arg 2 < 1000 || (1000000 < m.arg 2 || (3 ≤ m.arg 3 || (8 ≤ m.arg 4 || (2 ^ 24 ≤ m.arg 5
            || (m.arg 6 = 0 || (65535 < m.arg 6 || (m.arg 7 = 0 || 86400 < m.arg 7))))))))) 0,
          failIf (m.exp && (m.arg 3 = 1 && (m.arg 4 = s.aon.slot.val || !peerOk))) 0x0505,
          failIf (m.exp && 90 < floorArg m 0 + floorArg m 1 + floorArg m 2) 0x0506]
        busy := maintBusy s })
    (fun s m =>
      let p := actPart s n.val m
      let x := pendingPool s p
      let y := { x with fixed := if m.arg 0 = 1 then some (m.arg 1) else none }
      let z := if m.exp then { y with role := m.arg 3, peer := m.arg 4, pauseHold := m.arg 6, horizon := m.arg 7 } else y
      let s1 := { s with serve := { s.serve with nextPool := (p, z) :: s.serve.nextPool.filter fun e => e.1 ≠ p } }
      replyDone n.val [] []
        (if m.exp then { s1 with serve := { s1.serve with nextTarget := some (m.arg 2)
                                                          nextFloors := some #v[floorArg m 0, floorArg m 1, floorArg m 2] } }
         else s1)) s)

/-! ## SERVE_STATUS (R367) -/

/-- The codes of Table SP-5. -/
def RSt.code : RSt → Nat
  | .queued => 1 | .prefill => 2 | .decode => 3 | .paused => 4 | .drifted => 5 | .handoff => 6 | .remote => 7 | .ending => 8
/-- Groups as a mask. -/
def groupMask (l : List Nat) : Nat := (l.map fun g => 2 ^ g).sum
/-- Requests of a partition in a state and class. -/
def countReqs (s : State) (p st cls : Nat) : Nat := s.serve.reqs.countP fun e => e.2.part = p && (e.2.st.code = st && e.2.cls = cls)
/-- Counts per state and class, then the indexes of each ring of the partition: ring, head, tail, producer, retired. -/
def serveData (s : State) (p : Nat) : List Byte :=
  ((List.range 8).flatMap fun st => (List.range 4).flatMap fun c => leBytes 4 (countReqs s p (st + 1) c))
    ++ ((List.range 64).filter fun k => (s.ring k).set && (s.ring k).part = p).flatMap fun k =>
      let x := s.ring k
      leBytes 4 k ++ leBytes 4 x.head ++ leBytes 4 x.tail ++ leBytes 4 x.prod ++ leBytes 4 x.cq
/-- Bucket levels of a tenant range. -/
def levelData (s : State) (a b : Nat) : List Byte :=
  (List.range (b + 1 - a)).flatMap fun i => leBytes 8 (BitVec.ofInt 64 (s.tenant (a + i)).level).toNat
/-- SERVE_STATUS (the places of results: log 13); an edge is processed in no time here (log 40). -/
def execServeStatus (n : Fin 16) (s : State) : Result :=
  .next (command 0x0501 n.val
    (fun s m =>
      { notPermitted := failIf (m.exp && (partArgOk s n.val m && (m.arg 0 ≤ m.arg 1 && (m.arg 1 < m.arg 0 + 256 && (m.arg 1 < 65536
            && !(List.range (m.arg 1 + 1 - m.arg 0)).all fun i => tenantPart s (m.arg 0 + i) = actPart s n.val m))))) 0x0507
        badArg := firstFail [shape s n.val m (if m.exp then [0, 1] else []),
          failIf (m.exp && (m.arg 1 < m.arg 0 || (m.arg 0 + 256 ≤ m.arg 1 || 65536 ≤ m.arg 1))) 0] })
    (fun s m =>
      let p := actPart s n.val m
      let x := s.spart p
      replyDone n.val
        ([s.serve.step % 2 ^ 32, s.serve.step / 2 ^ 32, s.serve.lastTime % 2 ^ 32, groupMask (prefillGroups s p), groupMask (decodeGroups s p),
          x.role] ++ if m.exp then [s.serve.entries.length, 0] else [])
        (serveData s p ++ if m.exp then levelData s (m.arg 0) (m.arg 1) else []) s) s)

end Sys2Proof.Machine
end

