-- ==== Sys2Proof/Machine/Adapters.lean ====
section
/-!
DEFINITION. Adapters, prefix flushes and the state of the drift tier (spec/14_pages_prefixes_adapters_drift.md R384 to R386, R395).
-/
namespace Sys2Proof.Machine

/-! ## ADAPTER_REGISTER (R385, R386) -/

/-- Table KV-4: a record whose fields are in range and whose digest prefix is the program's. -/
def adapterOk (g : Program) (b : List Byte) : Bool :=
  let w := leAt b 24 8
  b.length = 64 && (leAt b 0 4 = 0x41445054 && (leAt b 4 2 = 1 && (1 ≤ leAt b 6 2 && (leAt b 6 2 ≤ 256 && (1 ≤ leAt b 8 2
    && (leAt b 8 2 ≤ 1024 && (leAt b 10 1 ≤ 1 && (leAt b 11 1 = 0 && (leAt b 12 6 % 64 = 0 && (leAt b 18 6 = 0 && (1 ≤ w
    && (w ≤ 2 ^ 32 && (leAt b 32 16 = g.digest.toNat % 2 ^ 128 && (leAt b 48 12 = 0 && crc32c (b.take 60) = leAt b 60 4))))))))))))))
/-- A DVA translates as readable for a cluster of a partition. -/
def readable (s : State) (p dva : Nat) : Bool :=
  match (walk { part := p, dva := dva, ut := 0x01 } s).1 with
  | .ok _ => true
  | .error _ => false
/-- Every 64 KiB of a range is readable. -/
def rangeReadable (s : State) (p lo n : Nat) : Bool :=
  (List.range ((lo + n - 1) / 65536 + 1 - lo / 65536)).all fun i => readable s p (lo / 65536 * 65536 + i * 65536)
/-- The lowest adapter ID that is not registered. -/
def freeAdapter (s : State) : Nat := ((List.range (s.serve.adapters.length + 1)).find? fun i => (s.adapter i).isNone).getD 0
/-- ADAPTER_REGISTER: the record is read and checked; its ID is the lowest free one, or ARG2 of the expert form. -/
def execAdapterRegister (n : Fin 16) (s : State) : Result :=
  .next (command 0x0503 n.val
    (fun s m => { badArg := shape s n.val m (if m.exp then [0, 1, 2] else [0, 1]) })
    (fun s m =>
      let p := actPart s n.val m
      let i := if m.exp then m.arg 2 else freeAdapter s
      let r := dvaRead (serveAccess p (m.arg64 0) false) 64 s
      let b := match r.1 with
        | .ok b => b
        | .error _ => []
      let good := ((s.spart p).program.elim false fun g => adapterOk g b) && rangeReadable s p (leAt b 12 6) (leAt b 24 8)
      let bad := [failIf (2 ^ 48 ≤ m.arg64 0 || !good) 0x0510,
        failIf (m.exp && (262144 ≤ i || (s.adapter i).elim false fun x => x.part ≠ p)) 0x0513]
      let c : Checks :=
        { badArg := firstFail bad
          busy := firstFail [failIf (m.exp && (s.adapter i).isSome && adapterPins s i ≠ 0) 0x0511, maintBusy s]
          noResource := failIf (!m.exp && 262144 ≤ s.serve.adapters.length) 0x0512 }
      decideOn n.val c (fun s =>
        let gen := (Tab.get 0 s.serve.adapterGen i + 1) % 65536
        let x : Adapter := { part := p, gen := gen, rank := leAt b 6 2, layers := leAt b 8 2, dtype := leAt b 10 1, weightDva := leAt b 12 6
                             weightBytes := leAt b 24 8, crc := leAt b 60 4 }
        replyDone n.val [i, gen] [] { s with serve := { s.serve with
          adapters := Tab.ins s.serve.adapters i x, adapterGen := Tab.put 0 s.serve.adapterGen i gen } }) r.2) s)

/-- ADAPTER_REMOVE. -/
def execAdapterRemove (n : Fin 16) (s : State) : Result :=
  .next (command 0x0504 n.val
    (fun s m =>
      { badArg := firstFail [shape s n.val m [0], failIf ((s.adapter (m.arg 0)).elim true fun x => x.part ≠ actPart s n.val m) 0x0513]
        busy := firstFail [failIf (adapterPins s (m.arg 0) ≠ 0) 0x0511, maintBusy s] })
    (fun s m => replyDone n.val [] [] { s with serve := { s.serve with adapters := Tab.del s.serve.adapters (m.arg 0) } }) s)

/-! ## PREFIX_FLUSH (R384) -/

/-- The entries of a partition that a flush names. -/
def flushHits (p scope arg age step : Nat) (e : PEntry) : Bool :=
  e.part = p && ((scope = 0 || ((scope = 1 && e.adapter = some arg) || (scope = 2 && e.tenant = arg)))
    && age ≤ (step + 2 ^ 32 - e.lastUse) % 2 ^ 32)
/-- PREFIX_FLUSH. -/
def execPrefixFlush (n : Fin 16) (s : State) : Result :=
  .next (command 0x0508 n.val
    (fun s m =>
      let bad := 3 ≤ m.arg 0 || ((m.arg 0 = 0 && m.arg 1 ≠ 0) || ((m.arg 0 = 1 && 262144 ≤ m.arg 1) || (m.arg 0 = 2 && 65536 ≤ m.arg 1)))
      { badArg := firstFail [shape s n.val m (if m.exp then [0, 1, 2] else [0, 1]), failIf bad 0x0516]
        busy := maintBusy s })
    (fun s m =>
      let p := actPart s n.val m
      let age := if m.exp then m.arg 2 else 0
      replyDone n.val [] [] (removeEntries (fun _ e => flushHits p (m.arg 0) (m.arg 1) age (s.serve.step % 2 ^ 32) e) s)) s)

/-! ## DRIFT_STATUS (R395) -/

/-- Sessions of a partition that a condition names. -/
def countSessions (s : State) (p : Nat) (c : Req → Bool) : Nat := s.serve.reqs.countP fun e => e.2.part = p && c e.2
/-- Drift pages in use, and BAD ones. -/
def driftBadCount (s : State) : Nat :=
  (if s.serve.driftBad.getLsbD 0 then s.serve.driftSize[0] else 0) + (if s.serve.driftBad.getLsbD 1 then s.serve.driftSize[1] else 0)
    + s.serve.driftBadPages.countP fun d => !s.serve.driftBad.getLsbD (driftPort s d)
/-- A session's drift pages and whole seconds of TTL left. -/
def sessionData (s : State) (p i : Nat) : List Byte :=
  match s.req i with
  | some r => if r.part = p then leBytes 4 r.driftPages.length ++ leBytes 4 (secondsLeft s.now r.ttlEnd) else leBytes 8 0
  | none => leBytes 8 0
/-- DRIFT_STATUS (the places of results: log 13). -/
def execDriftStatus (n : Fin 16) (s : State) : Result :=
  .next (command 0x0507 n.val
    (fun s m =>
      { badArg := firstFail [shape s n.val m (if m.exp then [0, 1] else []),
          failIf (m.exp && (m.arg 1 < m.arg 0 || (m.arg 0 + 60 ≤ m.arg 1 || 2097152 ≤ m.arg 1))) 0]
        busy := maintBusy s })
    (fun s m =>
      let p := actPart s n.val m
      let inMove := fun (o : Bool) (r : Req) => r.move.elim false fun x => x.out = o
      replyDone n.val
        [driftPagesAll s, s.serve.driftUsed.length, driftBadCount s, countSessions s p fun r => r.st = .drifted,
         countSessions s p (inMove true), countSessions s p (inMove false), s.serve.expiries, s.serve.losses]
        (if m.exp then (List.range (m.arg 1 + 1 - m.arg 0)).flatMap fun i => sessionData s p (m.arg 0 + i) else []) s) s)

end Sys2Proof.Machine
end

