-- ==== Sys2Proof/Machine/SchedOps.lean ====
section
/-!
DEFINITION. Reading a Gale schedule image and caller-built route banks from memory, and the checks of both
(spec/08_gale_breeze_lull.md R202, R203, R219, R222, R230, Table NW-4, spec/09_multicast_eddy_objects.md R243). What stands in memory
is kept as the bytes other than 0, by offset: an image has 3.5 MB.
-/
namespace Sys2Proof.Machine

/-! ## Long reads -/

/-- The places of one 4 KiB block of memory that a read of `n` bytes from `d` on looks at: its first byte, and every line or word that
holds a flaw. All other lines of the block answer as the first does (Ops.readPiece). -/
def blockPlaces (s : State) (d n : Nat) : List Nat := d :: (s.mem.flaws.filter fun e => d < e.1 && e.1 < d + n).map Prod.fst
/-- What the places of a block answer. -/
def readPlaces : List Nat → State → Got × State
  | [], s => (.data, s)
  | a :: t, s =>
    let r := readPiece a 1 s
    let u := readPlaces t r.2
    (r.1.worse u.1, u.2)
/-- The bytes other than 0 of a block, by offset from `off`; none where a line or word of it answers with an error response. -/
def readBlock (d n off : Nat) (s : State) : Option (List (Nat × Byte)) × State :=
  let r := readPlaces (blockPlaces s d n) s
  match r.1 with
  | .data => (some ((r.2.mem.bytes.filter fun e => d ≤ e.1 && e.1 < d + n).map fun e => (e.1 - d + off, e.2)), r.2)
  | .free => (some ((List.range n).zip (freeBytes r.2.freeCtr n) |>.map fun e => (e.1 + off, e.2)), { r.2 with freeCtr := r.2.freeCtr + n })
  | .error => (none, r.2)
/-- Read by DVA, block by block. -/
def readCellsFrom (a : Access) : Nat → Nat → Nat → Nat → State → Option (List (Nat × Byte)) × State
  | 0, _, _, _, s => (some [], s)
  | k + 1, dva, off, n, s =>
    if n = 0 then (some [], s)
    else
      let m := min n (4096 - dva % 4096)
      let t := translate { a with dva := dva } s
      match t.1 with
      | .error _ => (none, t.2)
      | .ok d =>
        let r := readBlock d m off t.2
        match r.1 with
        | none => (none, r.2)
        | some b =>
          let u := readCellsFrom a k (dva + m) (off + m) (n - m) r.2
          (u.1.map fun x => b ++ x, u.2)
/-- The bytes other than 0 among `n` bytes at a DVA, by offset. -/
def readCells (a : Access) (n : Nat) (s : State) : Option (List (Nat × Byte)) × State := readCellsFrom a (n / 4096 + 2) a.dva 0 n s
/-- A byte of what was read. -/
def cellAt (c : List (Nat × Byte)) (o : Nat) : Nat := (c.find? fun e => e.1 = o).elim 0 fun e => e.2.toNat
/-- A little-endian field of what was read. -/
def cellsAt (c : List (Nat × Byte)) (o : Nat) : Nat → Nat
  | 0 => 0
  | n + 1 => cellAt c o + 256 * cellsAt c (o + 1) n
/-- All `n` bytes. -/
def cellBytes (c : List (Nat × Byte)) (n : Nat) : List Byte := (List.range n).map fun o => BitVec.ofNat 8 (cellAt c o)

/-! ## CRC-32C over long runs of zeros -/

/-- A linear map on the 32 bits of a CRC register, as the images of its bits, applied. -/
def crcApply (m : List Nat) (c : Nat) : Nat := (List.range m.length).foldl (fun x i => if c.testBit i then x ^^^ m.getD i 0 else x) 0
/-- The map of one zero byte. -/
def crcZero : List Nat := (List.range 32).map fun i => crcByte 0x82F63B78 (2 ^ i) 0
/-- The maps of 1, 2, 4, … zero bytes. -/
def crcZeros : Nat → List Nat → List (List Nat)
  | 0, _ => []
  | k + 1, m => m :: crcZeros k (m.map (crcApply m))
/-- The register after `n` zero bytes. -/
def crcSkip : List (List Nat) → Nat → Nat → Nat
  | [], _, c => c
  | m :: t, n, c => crcSkip t (n / 2) (if n % 2 = 1 then crcApply m c else c)
/-- The register after the bytes up to `len`, of which those other than 0 are listed in rising order. -/
def crcCells (z : List (List Nat)) (len : Nat) : List (Nat × Byte) → Nat → Nat → Nat
  | [], pos, c => crcSkip z (len - pos) c
  | e :: t, pos, c => crcCells z len t (e.1 + 1) (crcByte 0x82F63B78 (crcSkip z (e.1 - pos) c) e.2)
/-- CRC-32C of `len` bytes (R123's code) of which those other than 0 are listed. -/
def crc32cCells (len : Nat) (c : List (Nat × Byte)) : Nat := crcCells (crcZeros 24 crcZero) len c 0 0xFFFFFFFF ^^^ 0xFFFFFFFF

/-! ## The image (Table NW-4; the places inside its parts: log 165) -/

/-- The length of an image. -/
def imageLen : Nat := 3541176
/-- The wheels in the order of the list: the horizontal and the vertical links by node, then injection (16 + port) and ejection of the
local, memory-controller and Vane ports by node. -/
def wheelList : List (Nat × Nat) :=
  let out := fun (l : List Nat) => (List.range 128).flatMap fun n => (l.filter fun o => portExists n o).map fun o => (n, o)
  out [1, 3] ++ out [0, 2] ++ (out [4, 5, 6, 9]).flatMap fun w => [(w.1, 16 + w.2), w]
/-- Where the stream table, the input table and the wheels begin. -/
def streamsOff : Nat := 192
def inputsOff : Nat := 2232
def wheelsOff : Nat := 35000
/-- The owned slots. -/
def imageOwned (c : List (Nat × Byte)) : List (Nat × Nat × Nat × Nat) :=
  (c.filter fun e => wheelsOff ≤ e.1).map fun e =>
    let w := wheelList.getD ((e.1 - wheelsOff) / 4096) (0, 0)
    (w.1, w.2, (e.1 - wheelsOff) % 4096, e.2.toNat)
/-- The input codes of the streams, where they pass. -/
def imageInputs (c : List (Nat × Byte)) (streams : Nat) : List (Nat × Nat × Nat) :=
  (List.range streams).flatMap fun k => (List.range 128).filterMap fun r =>
    let x := cellAt c (inputsOff + r * 256 + (k + 1))
    if x = 0xF then none else some (r, k + 1, x)
/-- The outputs on which a stream owns slots. -/
def ownedOuts (owned : List (Nat × Nat × Nat × Nat)) (k : Nat) : List (Nat × Nat) :=
  ((owned.filter fun o => o.2.2.2 = k && o.2.1 < 16).map fun o => (o.1, o.2.1)).eraseDups
/-- The unit behind a port of a node. -/
def portUnit (node port : Nat) : Nat × Nat :=
  match port with
  | 4 => (0x01, node) | 5 | 6 => (0x04, mcAt node) | 9 => (0x0C, 0) | 0xE => (0x13, node) | _ => (0x02, node)
/-- R203: the units on a route: its routers, its links, the units at its ends. -/
def routeUnits (route : List (Nat × Nat)) (srcNode srcPort dstNode dstPort : Nat) : List (Nat × Nat) :=
  ((srcNode :: dstNode :: route.map Prod.fst).map fun n => (0x02, n))
    ++ (route.filterMap fun h => (linkAt h.1 h.2).map fun i => (0x14, i)) ++ [portUnit srcNode srcPort, portUnit dstNode dstPort]
/-- A Vane port at a node, as a mask. -/
def vaneMask (node port : Nat) : BitVec 4 := if port = 9 then BitVec.ofNat 4 (2 ^ vaneAt node) else 0
/-- Stream `k` of an image: window, partition, source and destination in its 8 bytes. -/
def imageStream (c : List (Nat × Byte)) (owned : List (Nat × Nat × Nat × Nat)) (k : Nat) : SchedStream :=
  let b := fun i => cellAt c (streamsOff + 8 * (k - 1) + i)
  let route := ownedOuts owned k
  { num := k, window := b 0, part := b 1, srcNode := b 2, srcPort := b 3, dstNode := b 4, dstPort := b 5, route := route
    units := routeUnits route (b 2) (b 3) (b 4) (b 5), vane := vaneMask (b 2) (b 3) ||| vaneMask (b 4) (b 5) }
/-- The slots that a stream owns on a wheel. -/
def slotsIn (owned : List (Nat × Nat × Nat × Nat)) (st : Nat) (h : Nat × Nat) : List Nat :=
  (owned.filter fun o => o.1 = h.1 && o.2.1 = h.2 && o.2.2.2 = st).map fun o => o.2.2.1
/-- The wheel that feeds input port `c` of a router: the output of the neighbour there, or the port's injection. -/
def feedWheel (node c : Nat) : Nat × Nat := if c < 4 then (neighbour node c, (c + 2) % 4) else (node, 16 + c)
/-- The input code of a stream at a router. -/
def inputOf? (inputs : List (Nat × Nat × Nat)) (node k : Nat) : Option Nat := (inputs.find? fun e => e.1 = node && e.2.1 = k).map fun e => e.2.2
/-- The slots with which a stream reaches a router. -/
def arrivalSlots (inputs : List (Nat × Nat × Nat)) (owned : List (Nat × Nat × Nat × Nat)) (node k : Nat) : List Nat :=
  match inputOf? inputs node k with
  | some c => if c = 0xE then [] else slotsIn owned k (feedWheel node c)
  | none => []
/-- R243: the streams that an Eddy unit merges into one: those of the same window that end there (destination code 0xE); their sibling
order is that of their numbers (log 165). -/
def eddyOf (streams : List SchedStream) (x : SchedStream) : EddyFeed :=
  { node := x.srcNode, out := x.num
    inputs := (streams.filter fun y => y.window = x.window && (y.dstPort = 0xE && y.dstNode = x.srcNode)).map SchedStream.num }
/-- An image whose MAGIC, FMT, lengths and CRC-32C are right; none otherwise. -/
def parseImage (len : Nat) (c : List (Nat × Byte)) : Option SchedImage :=
  let crc := cellsAt c 20 4
  let wins := cellsAt c 12 2
  let n := cellsAt c 6 2
  if len ≠ imageLen ∨ cellsAt c 0 4 ≠ 0x47534348 ∨ cellsAt c 4 2 ≠ 1 ∨ cellsAt c 16 4 ≠ imageLen ∨ 255 < n ∨ wins = 0 ∨ 16 < wins
    ∨ crc32cCells len (c.filter fun e => !(20 ≤ e.1 && e.1 < 24)) ≠ crc then none
  else
    let owned := imageOwned c
    let streams := (List.range n).map fun k => imageStream c owned (k + 1)
    some { id := BitVec.ofNat 32 (cellsAt c 8 4)
           windows := (List.range wins).map fun w => (cellsAt c (64 + 8 * w) 2 % 16384, cellsAt c (66 + 8 * w) 2)
           streams := streams, inputs := imageInputs c n, eddies := (streams.filter fun x => x.srcPort = 0xE).map (eddyOf streams)
           owned := owned, digest := Config.sha384 (cellBytes c len) }

/-! ## The checks of an image (R203, R219, Table NW-10) -/

/-- R203: the input table agrees with the wheels: every input code names a wheel on which the stream owns slots, or an Eddy unit that
merges at least two streams; a stream that owns slots on a wheel enters the router there. -/
def inputsOk (img : SchedImage) : Bool :=
  (img.inputs.all fun e =>
    if e.2.2 = 0xE then img.eddies.any fun f => f.node = e.1 && (f.out = e.2.1 && 2 ≤ f.inputs.length)
    else portExists e.1 e.2.2 && !(slotsIn img.owned e.2.1 (feedWheel e.1 e.2.2)).isEmpty)
  && img.owned.all fun o =>
    if 16 ≤ o.2.1 then inputOf? img.inputs o.1 o.2.2.2 = some (o.2.1 - 16)
    else (inputOf? img.inputs o.1 o.2.2.2).isSome
      && (4 ≤ o.2.1 || inputOf? img.inputs (neighbour o.1 o.2.1) o.2.2.2 = some ((o.2.1 + 2) % 4))
/-- R203, hop timing: slot s on one link of a route means slot s + 4 on the next; R243: streams that merge at an Eddy unit arrive in the
same slots, and the sum leaves 4 later. -/
def shifted (a b : List Nat) : Bool := a.length = b.length && a.all fun k => (k + 4) % 4096 ∈ b
/-- The timing of one stream at every output of its route. -/
def timingOk (img : SchedImage) (x : SchedStream) : Bool :=
  x.route.all fun h =>
    let out := slotsIn img.owned x.num h
    match inputOf? img.inputs h.1 x.num with
    | none => false
    | some c =>
      if c = 0xE then
        (img.eddies.filter fun f => f.node = h.1 && f.out = x.num).all fun f => f.inputs.all fun j => shifted (arrivalSlots img.inputs img.owned h.1 j) out
      else shifted (slotsIn img.owned x.num (feedWheel h.1 c)) out
/-- A gateway or corner router (R218). -/
def hotRouter (node : Nat) : Bool :=
  (List.range 8).any (fun g => gatewayNode g = node) || ((nodeX node = 0 || nodeX node = 15) && (nodeY node = 0 || nodeY node = 7))
/-- R219 rules 1 and 2: the owned slots of each wheel at a gateway or corner router; no stream starts or ends at a Gust port, a gateway
port or a ring agent. -/
def placementOk (img : SchedImage) : Bool :=
  img.owned.all (fun o => !(o.2.1 < 4 && (hotRouter o.1 || hotRouter (neighbour o.1 o.2.1)))
      || (img.owned.countP fun q => q.1 = o.1 && q.2.1 = o.2.1) ≤ 3072)
    && img.streams.all fun x => [4, 5, 6, 9, 0xE].contains x.srcPort && [4, 5, 6, 9, 0xE].contains x.dstPort
/-- R203: a unit of a route is in service: links, controllers, Vane ports and Eddy units are while they and what they stand on are. -/
def routeUnitUp (s : State) (u : Nat × Nat) : Bool :=
  match u.1 with
  | 0x14 => s.unitSt 0x14 u.2 ≠ .faulted && s.unitSt 0x14 u.2 ≠ .offline
  | 0x04 => s.unitSt 0x05 (u.2 / 2) = .inService
  | 0x0C => s.vane.st = .running
  | 0x13 => s.unitSt 0x02 u.2 = .inService
  | _ => s.unitSt u.1 u.2 = .inService
/-- The partition that owns a unit of a stream, where partitions own units of its type. -/
def unitPart (s : State) (ut inst : Nat) : Option Nat :=
  match ut with
  | 0x01 => some (clusterPart s inst)
  | 0x06 => some (meePart s inst)
  | 0x0C => some (vanePart s)
  | _ => none

/-- R203: the first check of an image that fails, by its DETAIL (Table NW-10). -/
def schedCheck (s : State) (img : SchedImage) : Option Nat :=
  firstFail [
    failIf (img.owned.any fun o => o.2.2.1 % 8 = 7) 0x0302,
    failIf (!inputsOk img || !img.streams.all (timingOk img)) 0x0303,
    failIf (img.streams.any fun x => x.units.any fun u => !routeUnitUp s u) 0x0304,
    failIf (img.windows.any (fun w => w.2 = 0 || 97 < w.2)
      || (List.range img.windows.length).any fun i => (List.range i).any fun j =>
          (img.windows.getD i (0, 0)).1 = (img.windows.getD j (0, 0)).1 && windowsOverlap img i j) 0x0305,
    failIf (!placementOk img) 0x0306,
    failIf (img.streams.any fun x => x.units.any fun u => (unitPart s u.1 u.2).elim false (· ≠ x.part)) 0x0307]
/-- SCHED_LOAD: the image at the DVA in ARG0 and ARG1, of the length in ARG2; the DETAIL that refuses it. -/
def imageAt (m : Mbx) (s : State) : Except Nat SchedImage × State :=
  if m.arg 2 ≠ imageLen then (.error 0x0301, s)
  else
    let r := readCells (serveAccess 0 (m.arg64 0) false) (m.arg 2) s
    match r.1.bind (parseImage (m.arg 2)) with
    | none => (.error 0x0301, r.2)
    | some img => match schedCheck r.2 img with
      | some d => (.error d, r.2)
      | none => (.ok img, r.2)

/-! ## Caller-built banks (R222, R230) -/

/-- Caller-built banks as they stand in memory: 812 bytes for each router in node order (log 166), by node × 1,024 + offset. -/
def callerBank (c : List (Nat × Byte)) : Tab Byte := c.foldl (fun t e => Tab.ins t (bankKey (e.1 / 812) (e.1 % 812)) e.2) []
/-- A byte of them. -/
def callerByte (c : List (Nat × Byte)) (node off : Nat) : Nat := cellAt c (node * 812 + off)

/-- R222: walk a route: `lane` false is A; `vert` says that the packet has moved in a way that forbids west on lane A, `vertB` east on
lane B. The walk ends at the destination with the OUT code `fin`, or fails at a rule, a dead router or its length. -/
def walkRoute (entry : Nat → Nat) (dead : BitVec 128) (dst fin : Nat) : Nat → Nat → Bool → Bool → Bool → Bool
  | 0, _, _, _, _ => false
  | fuel + 1, node, lane, noWest, noEast =>
    let e := entry node
    let out := e % 16
    let lane1 := lane || e / 16 % 2 = 1
    if dead.getLsbD node || (lane && e / 16 % 2 = 0) || 64 ≤ e then false
    else if node = dst then out = fin
    else
      match out with
      | 0 => nodeY node < 7 && walkRoute entry dead dst fin fuel (node + 16) lane1 true true
      | 2 => 0 < nodeY node && walkRoute entry dead dst fin fuel (node - 16) lane1 true true
      | 1 => nodeX node < 15 && !(lane1 && noEast) && walkRoute entry dead dst fin fuel (node + 1) lane1 true (lane1 && noEast)
      | 3 => 0 < nodeX node && !(!lane1 && noWest) && walkRoute entry dead dst fin fuel (node - 1) lane1 (!lane1 && noWest) true
      | _ => false

/-- The Manhattan distance of two nodes. -/
def manhattan (a b : Nat) : Nat :=
  (max (nodeX a) (nodeX b) - min (nodeX a) (nodeX b)) + (max (nodeY a) (nodeY b) - min (nodeY a) (nodeY b))

/-- R222, R230: the entries of index `i` at every live router: toward a dead router UNREACHABLE; with no router dead the X-then-Y route on
lane A; otherwise a route under the lane rules within four hops of the Manhattan distance. -/
def entriesOk (dead : BitVec 128) (c : List (Nat × Byte)) (i : Nat) : Bool :=
  let dst := if i < 128 then i else gustNode (i - 128)
  let fin := if i < 128 then 4 else 7
  let e := fun node => callerByte c node i
  (List.range 128).all fun a => dead.getLsbD a ||
    if dead.getLsbD dst then e a % 16 = 15
    else if dead = 0 then e a = xyEntry a dst fin
    else walkRoute e dead dst fin (manhattan a dst + 5) a false false false
/-- R222, R230: caller-built banks: entries toward the 128 nodes and the 12 Gust ports. -/
def bankRuleOk (dead : BitVec 128) (c : List (Nat × Byte)) : Bool := (List.range 140).all (entriesOk dead c)
/-- ROUTE_EPOCH, expert form: the banks at the DVA in ARG0 and ARG1; none where they cannot be read or break R222. -/
def banksAt (m : Mbx) (s : State) : Option (List (Nat × Byte)) × State :=
  let r := readCells (serveAccess 0 (m.arg64 0) false) (128 * 812) s
  (r.1.bind fun c => if bankRuleOk (deadRouters r.2) c then some c else none, r.2)

end Sys2Proof.Machine
end

