-- ==== Sys2Proof/Machine/Net.lean ====
section
/-!
DEFINITION. Commands and events of the on-die networks (spec/08_gale_breeze_lull.md R196 to R230). FLIT_DELIVERY stands in
Endpoints.lean, WINDOW_CLOSE in Windows.lean.
-/
namespace Sys2Proof.Machine

/-! ## Injection (R199, R201, R222, R223, R231 to R235) -/

/-- Sources whose PART the port sets, or whose class is limited: the Vane fabric issues in its own partition (R118). -/
def stampPart (s : State) (port : Nat) (sb : BitVec 64) : BitVec 64 :=
  if port = 9 then (sb &&& ~~~ (0xFC0000 : BitVec 64)) ||| BitVec.ofNat 64 (vanePart s * 2 ^ 18) else sb

/-- R224: the EPOCH bit of the injecting router. -/
def stampEpoch (s : State) (node : Nat) (sb : BitVec 64) : BitVec 64 := setBit sb 16 (s.routerPar node)

/-- Refuse an injection: a request receives an error response. -/
def refuseInject (node : Nat) (sb : BitVec 64) (s : State) : State := if sbRequest sb then errorResponse node (sbTag sb) s else s

/-- R118, R119, R135: what a Vane port does not send: VC1, traffic of a SEALED or VAULT partition, and anything while its region is taken
or VANE_DISABLE ends it. -/
def vaneRefuses (s : State) (v : Nat) (sb : BitVec 64) : Bool :=
  sbVc sb = 1 || ctPart s (sbPart sb) || regionOpen s (vaneRegion v) || Tab.get 0 s.vane.ending v ≠ 0
/-- R173: a cluster or slice of a SEALED or VAULT partition sends static traffic only (log 158). -/
def sealedRefuses (s : State) (port : Nat) (sb : BitVec 64) : Bool := sourceOf port = 4 && (sbVc sb ≠ 0 && ctPart s (sbPart sb))
/-- R223, R233: what an injecting router refuses is logged at most once per source per 10 ms. -/
def noteInject (node port code arg : Nat) (s : State) : State :=
  logLimitedAt (node * 16 + sourceOf port) 10000000 .info code 0x02 node [arg] .none s
/-- R201, R223, R231, R233: a packet that its source may send passes its injecting router. -/
def routeIn (p : Packet) (s : State) : State :=
  if overLimit s p.src p.port (sbVc p.sb) p.data then s
  else if sbMcast p.sb then
    if groupUsable s p.src p.sb && mcastType p.sb then launchMcast false p s
    else noteInject p.src p.port 0x0315 (sbDst p.sb) (refuseInject p.src p.sb s)
  else if unreachable s p.src p.sb then netCount 8 p.src (noteInject p.src p.port 0x0303 (routeIdx p.sb) (refuseInject p.src p.sb s))
  else
    let s1 := launch [p] p s
    if p.port = 9 && sbType p.sb = 1 then { s1 with vane := { s1.vane with
      reads := Tab.put [] s1.vane.reads (vaneAt p.src) (sbTag p.sb :: s1.vaneReads (vaneAt p.src)) } }
    else s1
/-- R233: multicast travels on VC3. -/
def mcastVc (sb : BitVec 64) : BitVec 64 := if sbMcast sb then sb ||| 0xC000 else sb
/-- One packet is injected at a port of a node (OUT codes of R220; 0xB the slice). What is no source, and more data than a packet holds,
sends nothing. -/
def injectPacket (node port : Nat) (sb0 : BitVec 64) (data : List Byte) (s : State) : State :=
  let sb := mcastVc (stampEpoch s node (stampPart s port sb0))
  if !sourcePort node port || 4096 < data.length then s
  else if portFenced s node port || !sbLegal sb then refuseInject node sb s
  else if sealedRefuses s port sb || (port = 9 && vaneRefuses s (vaneAt node) sb) then refuseInject node sb s
  else routeIn { id := s.net.nextId, src := node, port := port, sb := sb, data := data } s

/-- A router injects a Gale packet. -/
def execGaleInject (node : Fin 128) (port : Fin 16) (sb : BitVec 64) (data : List Byte) (s : State) : Result :=
  .next (injectPacket node.val port.val sb data s)

/-- R200 rule 5: a VC2 or VC3 packet that has waited 256 cycles at a head is promoted. -/
def execPromotion (idx : Nat) (s : State) : Result :=
  .next (match s.net.flight[idx]? with
    | some p =>
      if 2 ≤ sbVc p.sb && !p.promoted then
        netCount 7 p.src { s with net := { s.net with flight := s.net.flight.set idx { p with promoted := true } } }
      else s
    | none => s)

/-! ## Link errors (R229) -/

/-- The instance of a link (Table FR-1). -/
def linkInst (l : LinkId) : Nat := l.node.val + if l.vertical then 128 else 0

/-- A link leaves service: it is fenced at both its routers (R507). -/
def fenceLink (i : Nat) (s : State) : State := fenceUnit 0x14 i 0x0307 s

/-- Drop the Gale packet that an error hit. -/
def dropHit (hit : Option Nat) (s : State) : State :=
  match hit.bind fun i => (s.net.flight[i]?).map fun p => (i, p) with
  | some (i, p) => discardPacket p { s with net := { s.net with flight := s.net.flight.eraseIdx i } }
  | none => s

/-- Drop the Breeze message that an error hit. -/
def dropBreeze (hit : Option Nat) (s : State) : State :=
  match hit with
  | some i => { s with net := { s.net with breeze := s.net.breeze.eraseIdx i } }
  | none => s

/-- Table NW-8: a link's check finds an error; `hit` is the packet or message in flight that it strikes. -/
def execLinkError (link : LinkId) (net : NetKind) (uncorrectable : Bool) (hit : Option Nat) (s : State) : Result :=
  let i := linkInst link
  .next (if s.unitSt 0x14 i = .faulted then s
    else if !uncorrectable then logLimited 10000000 .ce 0x0306 0x14 i [i] .none (netCount 4 i s)
    else
      match net with
      | .gale =>
        let again := (s.net.lastUe.find? fun e => e.1 = i).elim false fun e => s.now < e.2 + 1000000
        let s1 := netCount 5 i (dropHit hit { s with net := { s.net with lastUe := Tab.ins s.net.lastUe i s.now } })
        if again then fenceLink i (logUe .unit 0x0307 0x14 i [0] s1) else logUe .operation 0x0307 0x14 i [0] s1
      | .breeze => fenceLink i (logUe .unit 0x0307 0x14 i [1] (netCount 5 i (dropBreeze hit s)))
      | .lull => fenceLink i (logUe .unit 0x0307 0x14 i [2] (netCount 5 i s)))

/-! ## Route epochs (R221 to R226) -/

/-- Write bytes of the shadow bank of a node; offsets past the 812 bytes hold nothing. -/
def bankWrite (p : Bool) (node : Nat) : Nat → List Byte → State → State
  | _, [], s => s
  | off, b :: t, s =>
    bankWrite p node (off + 1) t
      (if off < 812 then setBank p { s.bank p with bytes := Tab.ins (s.bank p).bytes (bankKey node off) b } s else s)

/-- R221: a Breeze route bank write stores 12 bytes into a router's shadow bank; the first begins the epoch (R226). After the write that
covers the last byte the router reports the CRC-32C of its shadow bank (R224). -/
def execRouteBankWrite (node : Fin 128) (off : BitVec 16) (data : Vector Byte 12) (s : State) : Result :=
  .next (if s.net.stage = 2 then s
    else
      let s1 := startEpoch s
      let s2 := bankWrite (!s1.epochPar) node.val off.toNat data.toList s1
      if off.toNat < 812 && 812 ≤ off.toNat + 12 then send (.flit node.val "bank crc" [bankCrc s2 (!s1.epochPar) node.val]) s2 else s2)

/-- Groups enter and leave with the epoch (R231, R251). -/
def switchGroups (s : State) : State :=
  { s with coll := { s.coll with
      mcast := (s.coll.mcast.filter fun e => !e.2.deleted).map fun e => (e.1, { e.2 with valid := true })
      red := (s.coll.red.filter fun e => !e.2.deleted).map fun e => (e.1, { e.2 with valid := true }) } }

/-- Every MCAST_GROUP command that waits for the switch is answered with its ID (R251). -/
def answerGroups : List (Nat × Mbx) → State → State
  | [], s => s
  | e :: t, s =>
    answerGroups t (match e.2.await with
      | some (.groupEpoch id) => completeAwait (fun a => a = .groupEpoch id) { status := 0, res := [id % 256] } s
      | _ => s)

/-- R224 step 2: the first router that the set of the epoch-switch object reaches: the epoch advances, units of the plan
join, groups change, and the object's event is set. -/
def epochBegins (s : State) : State :=
  let s1 := rehome <| admitUnits s.net.plan.joins { s with net := { s.net with
    epoch := s.net.epoch + 1, stage := 2, switchedAt := s.now, gwLive := liveGateways s } }
  let s2 := switchGroups s1
  lullSet 1 s2.net.epoch.toNat (answerGroups s2.mbx.box s2)

/-- R224: the set reaches a router, which makes its shadow bank current. -/
def execEpochSwitch (node : Fin 128) (s : State) : Result :=
  .next (if s.net.stage = 0 then s
    else
      let s1 := if s.net.stage = 1 then epochBegins s else s
      { s1 with net := { s1.net with parity := setBit s1.net.parity node.val s1.epochPar } })

/-- R225: the drain ends: the old bank is released, the waiting commands are answered, and a waiting plan begins. -/
def drainEnds (s : State) : State :=
  let drain := s.now - s.net.switchedAt
  let s1 := logInfo 0x0301 0x00 0 [s.net.epoch.toNat, drain] { s with net := { s.net with stage := 0, plan := {} } }
  let s2 := completeAwait (fun a => a = .routeEpoch) { status := 0, res := [s.net.epoch.toNat, drain] } s1
  startNext (leaveAll s.net.plan.leaves (noteReturned s.net.plan.joins s2))

/-- The reduction of R225 reports that no old-parity traffic is left. -/
def execEpochDrainDone (s : State) : Result := .next (if s.net.stage = 2 && ((oldParity s).isEmpty && (oldBreeze s).isEmpty) then drainEnds s else s)

/-- R225: 1 ms after a switch old-parity traffic is discarded. -/
def execRouteDrainLate (s : State) : Result :=
  .next (if s.net.stage = 2 && !((oldParity s).isEmpty && (oldBreeze s).isEmpty) then
      logUe .operation 0x0302 0x00 0 [s.net.epoch.toNat, ((oldParity s).map galeFlits).sum + (oldBreeze s).length]
        (discardAll (oldParity s) { s with net := { s.net with
          flight := s.net.flight.filter fun p => sbEpoch p.sb = s.epochPar
          breeze := s.net.breeze.filter fun m => bzEpoch m.hdr = s.epochPar } })
    else s)

/-! ## Static windows (R205, R206) -/

/-- R205: a window opens at slot 0 of its turn, which is the one that runs. -/
def openWindow (w : Nat) (img : SchedImage) (s : State) : State :=
  let o := (img.windows.getD w (0, 0)).1
  match s.net.triggered.find? fun t => t.1 = o && (t.2.1 ≤ s.turn && w ∉ t.2.2) with
  | none => s
  | some t =>
    let done := w :: t.2.2
    let all := (List.range img.windows.length).all fun k => (img.windows.getD k (0, 0)).1 ≠ o || k ∈ done
    { s with net := { s.net with
        windows := s.net.windows ++ [{ idx := w, turn := s.turn }]
        triggered := if all then s.net.triggered.erase t else s.net.triggered.map fun x => if x = t then (t.1, t.2.1, done) else x } }

/-- A static window opens, unless an image switch or an overlapping window makes it wait. -/
def execWindowOpen (win : Fin 16) (s : State) : Result :=
  .next (match s.net.image with
    | none => s
    | some img =>
      if s.net.shadow.isSome || img.windows.length ≤ win.val
          || s.net.windows.any (fun x => x.idx = win.val || windowsOverlap img x.idx win.val) then s
      else openWindow win.val img s)

/-! ## NET_STATUS, SCHED_LOAD, ROUTE_EPOCH (R203, R219, R222, R230; places of results: log 13) -/

/-- The routers in a state, as a mask. -/
def routersIn (s : State) (p : UnitSt → Bool) : BitVec 128 :=
  (List.range 128).foldl (fun m n => if p (s.unitSt 0x02 n) then setBit m n true else m) 0

/-- The counters that the expert form returns: kinds 4 to 8, 256 instances each, 32 bits each. -/
def counterBytes (s : State) : List Byte :=
  ([4, 5, 6, 7, 8] : List Nat).flatMap fun k => (List.range 256).flatMap fun i => leBytes 4 (Tab.get 0 s.net.ctr (ctrKey k i))
/-- The current bank of every router, in node order. -/
def bankBytes (s : State) : List Byte := (List.range 128).flatMap fun n => (List.range 812).map fun o => bankByte s (s.routerPar n) n o
/-- NET_STATUS. -/
def execNetStatus (n : Fin 16) (s : State) : Result :=
  .next (command 0x0301 n.val noChecks
    (fun s m => replyDone n.val
      ([s.net.epoch.toNat, s.net.stage, s.net.image.elim 0 fun i => i.id.toNat] ++ (List.range 4).map fun v => Tab.get 0 s.net.ctr (ctrKey v 0))
      (leBytes 16 (deadRouters s).toNat ++ leBytes 16 (routersIn s (· = .faulted)).toNat ++ leBytes 16 (routersIn s (· = .probation)).toNat
        ++ if m.exp then counterBytes s ++ bankBytes s else []) s) s)

/-- The DETAIL that refuses a SCHED_LOAD command's image. -/
def schedDetail (m : Mbx) (s : State) : Option Nat :=
  match (imageAt m s).1 with
  | .error d => some d
  | .ok _ => none
/-- SCHED_LOAD takes its image: the shadow copy is loaded, or with VALIDATE_ONLY the answer is all. -/
def takeImage (n : Nat) (validate : Bool) (m : Mbx) (s : State) : State :=
  match imageAt m s with
  | (.error _, s1) => s1
  | (.ok img, s1) =>
    if validate then replyDone n [img.id.toNat] [] s1
    else trySwitch (setAwait n .schedSwitch (replyAccepted n { s1 with net := { s1.net with shadow := some img } }))
/-- ARG3 of the expert form: VALIDATE_ONLY. -/
def validateOnly (m : Mbx) : Bool := m.exp && m.arg 3 = 1
/-- SCHED_LOAD: the image stands at the address in ARG0 and ARG1; `struck` are the places in memory that have gone wrong by then. -/
def execSchedLoad (n : Fin 16) (struck : List (BitVec 48 × Fin 72)) (s : State) : Result :=
  .next (command 0x0302 n.val
    (fun s m =>
      { notPermitted := failIf (mbxPart s n.val ≠ 0) 0
        badArg := firstFail [failIf (m.exp && 2 ≤ m.arg 3) 0, schedDetail m s]
        busy := failIf (s.net.shadow.isSome && !validateOnly m) 0x0312 })
    (fun s m => takeImage n.val (validateOnly m) m s) (strikeAll struck s))

/-- The shadow bank becomes the caller's. -/
def callerShadow (m : Mbx) (s : State) : State :=
  match banksAt m s with
  | (some c, s1) => setBank (!s1.epochPar) { s1.bank (!s1.epochPar) with caller := true, bytes := callerBank c } s1
  | (none, s1) => s1
/-- ROUTE_EPOCH: firmware builds the next epoch, or takes the caller's banks from the address in ARG0 and ARG1; DONE comes
when the old bank is released. `struck` are the places in memory that have gone wrong by then. -/
def execRouteEpoch (n : Fin 16) (struck : List (BitVec 48 × Fin 72)) (s : State) : Result :=
  .next (command 0x0303 n.val
    (fun s m =>
      { notPermitted := failIf (m.exp && mbxPart s n.val ≠ 0) 0
        badArg := failIf (m.exp && (banksAt m s).1.isNone) 0x0310
        busy := failIf (s.net.stage ≠ 0) 0x0311 })
    (fun s m =>
      let s1 := startEpoch s
      setAwait n.val .routeEpoch (replyAccepted n.val (if m.exp then callerShadow m s1 else s1))) (strikeAll struck s))

end Sys2Proof.Machine
end

