-- ==== Sys2Proof/Machine/Collectives.lean ====
section
/-!
DEFINITION. Multicast and reduction groups, Eddy contributions and failures (spec/09_multicast_eddy_objects.md R231 to R244,
R251).
-/
namespace Sys2Proof.Machine

/-! ## Group lists -/

/-- The (slot, node, port) words of a DATA list: one byte each, a word per entry (log 13). -/
def groupList : Nat → List Byte → List (Nat × Nat × Nat)
  | 0, _ => []
  | n + 1, l => if l.length < 4 then [] else (leAt l 0 1, leAt l 1 1, leAt l 2 1) :: groupList n (l.drop 4)
/-- (node, entry) pairs of the expert form. -/
def entryList : Nat → List Byte → List (Nat × Nat)
  | 0, _ => []
  | n + 1, l => if l.length < 8 then [] else (leAt l 0 4, leAt l 4 4) :: entryList n (l.drop 8)

/-- The list of a command: in the expert form ARG2 counts its words and entries follow. -/
def cmdGroup (m : Mbx) : List (Nat × Nat × Nat) := groupList (if m.exp then m.arg 2 else m.input.length) m.input
/-- The per-router entries of the expert form. -/
def cmdEntries (m : Mbx) : List (Nat × Nat) := if m.exp then entryList m.input.length (m.input.drop (4 * m.arg 2)) else []

/-- R232: at most 128 endpoints per die and 1,024 in all, and at least one. -/
def groupSizeOk (l : List (Nat × Nat × Nat)) : Bool :=
  !l.isEmpty && l.length ≤ 1024 && (List.range 8).all fun k => (l.countP fun e => e.1 = k) ≤ 128
/-- Every word names a slot, a node and a port of that node behind which an endpoint stands. -/
def groupNamesOk (l : List (Nat × Nat × Nat)) : Bool := l.all fun e => e.1 < 8 && (e.2.1 < 128 && sourcePort e.2.1 e.2.2)
/-- A group that names another slot is tray-wide. -/
def groupTray (s : State) (l : List (Nat × Nat × Nat)) : Bool := l.any fun e => e.1 ≠ s.aon.slot.val
/-- R231, R232: no endpoint or mask names a Gust port other than GP0 to GP6, and no INBOUND_MASK any. -/
def groupScopeOk (l : List (Nat × Nat × Nat)) (es : List (Nat × Nat)) : Bool :=
  l.all (fun e => e.2.2 ≠ 7 || gustAt e.2.1 < 7)
    && es.all fun e => e.2 / 2 ^ 17 % 2 = 0 && (e.2 / 2 ^ 7 % 2 = 0 || gustAt e.1 < 7)

/-- R231, R232: the entries that the caller supplies name nodes, are VALID, and have the group's PART and TRAY; their reserved bits are 0. -/
def entriesLegal (part : Nat) (tray : Bool) (es : List (Nat × Nat)) : Bool :=
  es.all fun e => e.1 < 128 && e.2 / 2 ^ 20 = part + 2 ^ 6 + b2n tray * 2 ^ 7
/-- A free multicast ID: the one firmware picked, or the lowest free. -/
def freeMcast (s : State) (want : Nat) : Option Nat :=
  if s.coll.mcast.any fun e => e.1 = want then (List.range 128).find? fun i => !s.coll.mcast.any fun e => e.1 = i else some want
/-- A free reduction ID. -/
def freeRed (s : State) (want : Nat) : Option Nat :=
  if s.coll.red.any fun e => e.1 = want then (List.range 64).find? fun i => !s.coll.red.any fun e => e.1 = i else some want

/-- MCAST_GROUP with ARG0 0: `id` is the ID that firmware picks; the expert form takes ARG1. The group is built at the next
epoch, and DONE follows its switch. -/
def execMcastGroupDefine (n : Fin 16) (id : Fin 128) (s : State) : Result :=
  .next (commandIf 0x0304 n.val (fun m => m.arg 0 = 0)
    (fun s m =>
      { badArg := firstFail [
          failIf (!groupSizeOk (cmdGroup m)) 0x0320,
          failIf (!groupScopeOk (cmdGroup m) (cmdEntries m)) 0x0321,
          failIf (!groupNamesOk (cmdGroup m) || !entriesLegal (mbxPart s n.val) (groupTray s (cmdGroup m)) (cmdEntries m)) 0,
          failIf (m.exp && (128 ≤ m.arg 1 || s.coll.mcast.any fun e => e.1 = m.arg 1)) 0]
        busy := failIf (s.net.stage ≠ 0) 0x0311
        noResource := failIf (!m.exp && (freeMcast s id.val).isNone) 0 })
    (fun s m =>
      let i := if m.exp then m.arg 1 else (freeMcast s id.val).getD 0
      let g : McastGroup := { part := mbxPart s n.val, tray := groupTray s (cmdGroup m), eps := cmdGroup m, entries := cmdEntries m }
      setAwait n.val (.groupEpoch i) (startEpoch { s with coll := { s.coll with mcast := s.coll.mcast ++ [(i, g)] } })) s)

/-- R242: the Eddy buffers that a tree needs are free. -/
def eddyRoom (s : State) (tree : List (Nat × Nat)) : Bool :=
  tree.all fun t => eddyUsed s t.1 + ((tree.filter fun u => u.1 = t.1).map fun u => 2 * u.2).sum ≤ 32

/-- MCAST_GROUP with ARG0 1: `tree` is the tree that firmware builds, as Eddy inputs per router. -/
def execReductionGroupDefine (n : Fin 16) (id : Fin 64) (tree : List (Nat × Nat)) (s : State) : Result :=
  .next (commandIf 0x0304 n.val (fun m => m.arg 0 = 1)
    (fun s m =>
      { badArg := firstFail [
          failIf (!groupSizeOk (cmdGroup m)) 0x0320,
          failIf (!groupScopeOk (cmdGroup m) []) 0x0321,
          failIf (!groupNamesOk (cmdGroup m)) 0,
          failIf (m.exp && (64 ≤ m.arg 1 || s.coll.red.any fun e => e.1 = m.arg 1)) 0]
        busy := failIf (s.net.stage ≠ 0) 0x0311
        noResource := firstFail [failIf (!eddyRoom s tree) 0x0322, failIf (!m.exp && (freeRed s id.val).isNone) 0] })
    (fun s m =>
      let i := if m.exp then m.arg 1 else (freeRed s id.val).getD 0
      let g : RedGroup := { part := mbxPart s n.val, tray := groupTray s (cmdGroup m), contribs := cmdGroup m, tree := tree }
      setAwait n.val (.groupEpoch (256 + i)) (startEpoch { s with coll := { s.coll with red := s.coll.red ++ [(i, g)] } })) s)

/-- The partition of the group that a deletion names: ARG1 the ID, ARG2 0 multicast, 1 reduction (log 13). -/
def deletePart (s : State) (m : Mbx) : Option Nat :=
  if m.arg 2 = 0 then (s.coll.mcast.find? fun e => e.1 = m.arg 1).map fun e => e.2.part
  else if m.arg 2 = 1 then (s.coll.red.find? fun e => e.1 = m.arg 1).map fun e => e.2.part
  else none

/-- Mark a multicast group for removal. -/
def markMcast (i : Nat) (e : Nat × McastGroup) : Nat × McastGroup := if e.1 = i then (e.1, { e.2 with deleted := true }) else e
/-- Mark a reduction group for removal. -/
def markRed (i : Nat) (e : Nat × RedGroup) : Nat × RedGroup := if e.1 = i then (e.1, { e.2 with deleted := true }) else e

/-- MCAST_GROUP with ARG0 2: the group goes with the next epoch. -/
def execMcastGroupDelete (n : Fin 16) (s : State) : Result :=
  .next (commandIf 0x0304 n.val (fun m => m.arg 0 = 2)
    (fun s m =>
      { notPermitted := failIf ((deletePart s m).elim false (· ≠ mbxPart s n.val)) 0
        badArg := failIf (deletePart s m).isNone 0
        busy := failIf (s.net.stage ≠ 0) 0x0311 })
    (fun s m =>
      let s1 :=
        if m.arg 2 = 0 then { s with coll := { s.coll with mcast := s.coll.mcast.map (markMcast (m.arg 1)) } }
        else { s with coll := { s.coll with red := s.coll.red.map (markRed (m.arg 1)) } }
      setAwait n.val (.groupEpoch (256 * m.arg 2 + m.arg 1)) (startEpoch s1)) s)

/-! ## Contributions (R236 to R240, R244) -/

/-- R239: an operand of 2^61 or more. -/
def rangeHit (g : RedGroup) (data : List Byte) : Bool := g.typ = 4 && (elems 8 512 data).any fun x => 2 ^ 61 ≤ x

/-- The router at which the tree of a group ends. -/
def RedGroup.root (r : RedGroup) : Nat := (r.tree.head?.elim (r.dest % 128) Prod.fst) % 128
/-- R236: the TAG of a block. -/
def blockTag (g inst block : Nat) : Nat := g * 1024 + inst * 64 + block
/-- R237: a result block: VC3, TYPE 5, the contribution's TAG, to the node or, with bit 8 of the destination, to the multicast group that
the group names (log 13). -/
def resultPacket (s : State) (g : Nat) (r : RedGroup) (inst block : Nat) (data : List Byte) : Packet :=
  { id := s.net.nextId, src := r.root, port := 14, data := data
    sb := stampEpoch s r.root (BitVec.ofNat 64 (r.dest % 128 + r.root * 2 ^ 7 + 3 * 2 ^ 14 + r.part * 2 ^ 18 + r.dest / 256 % 2 * 2 ^ 31
      + blockTag g inst block * 2 ^ 32 + 5 * 2 ^ 48)) }
/-- The root delivers a block once every contribution has arrived. -/
def deliverBlock (g : Nat) (r : RedGroup) (inst block : Nat) (i : RedInst) (b : RedBlock) (s : State) : State :=
  let v := blockSum r s.freeCtr b.got
  let i1 := { i with flags := i.flags ||| blockFlags r v, blocks := Tab.ins i.blocks block { b with delivered := true } }
  routeIn (resultPacket s g r inst block (blockBytes r v))
    (setRed g { r with insts := Tab.ins r.insts inst i1 } { s with freeCtr := s.freeCtr + 1 })

/-- R237: after the last block the completion event is set with DONE. -/
def finishInst (g inst : Nat) (s : State) : State :=
  match s.redGroup g with
  | none => s
  | some r =>
    let i := Tab.get { started := 0 } r.insts inst
    if r.contribs.length ≤ i.last.length && i.blocks.all (fun e => e.2.delivered) then
      lullSet r.done (redPayload inst 0 i.flags.toNat 0 (deliveredCount i)) (setRed g { r with insts := Tab.del r.insts inst } s)
    else s

/-- A contribution of an instance that is under way. -/
def takeContrib (g inst block idx : Nat) (data : List Byte) (last : Bool) (r : RedGroup) (i : RedInst) (s : State) : State :=
  let b := Tab.get {} i.blocks block
  if b.got.any fun e => e.1 = idx then failInst g inst 3 idx (logUe .operation 0x0311 0x13 g [g, inst, idx]) s
  else
    let hit := rangeHit r data
    let b1 := { b with got := b.got ++ [(idx, data)] }
    let i1 := { i with
      blocks := Tab.ins i.blocks block b1
      last := if last then idx :: i.last.filter (· ≠ idx) else i.last
      flags := if hit then i.flags ||| 4 else i.flags }
    let s1 := setRed g { r with insts := Tab.ins r.insts inst i1 } s
    let s2 := if hit && !i.flags.getLsbD 2 then logUe .operation 0x0312 0x13 g [g, inst, idx] s1 else s1
    let s3 := if b1.got.length = r.contribs.length then
        deliverBlock g { r with insts := Tab.ins r.insts inst i1 } inst block i1 b1 s2 else s2
    finishInst g inst s3

/-- R236: the packet that brings a contribution leaves the mesh. -/
def takeFlit (node tag : Nat) (s : State) : State :=
  match s.net.flight.find? fun p => sbType p.sb = 4 && (sbVc p.sb = 3 && (sbSrc p.sb = node && sbTag p.sb = tag)) with
  | some p => { s with net := { s.net with flight := s.net.flight.erase p } }
  | none => s
/-- R240: a contribution arrives. `first` and `last` mark its sender's first and last block of the instance. -/
def execReduceContribution (group : Fin 64) (inst : Fin 16) (block : Fin 64) (slot : Fin 8) (node : Fin 128) (data : List Byte)
    (first last : Bool) (s0 : State) : Result :=
  let g := group.val
  let s := takeFlit node.val (blockTag g inst.val block.val) s0
  .next (match s.redGroup g with
    | none => s
    | some r =>
      match firstContrib r fun c => c.1 = slot.val && c.2.1 = node.val with
      | none => s
      | some idx =>
        if !r.valid || r.typ = 0 then s
        else
          let i := Tab.get { started := s.now } r.insts inst.val
          if i.failed && !first then setRed g { r with late := r.late + 1 } s
          else takeContrib g inst.val block.val idx data last r (if i.failed then { started := s.now } else i) s)

/-- R244: the lowest contributor that has not sent its last block. -/
def lowestMissing (r : RedGroup) (i : RedInst) : Nat := ((List.range r.contribs.length).find? fun c => c ∉ i.last).getD 0

/-- R244: an instance has run 10 ms, or the expert timeout, without every contribution. -/
def execEddyTimeout (group : Fin 64) (inst : Fin 16) (s : State) : Result :=
  .next (match s.redGroup group.val with
    | none => s
    | some r =>
      match r.insts.find? fun e => e.1 = inst.val with
      | some (_, i) =>
        if i.failed then s
        else
          let c := lowestMissing r i
          failInst group.val inst.val 2 c (logUe .operation 0x0310 0x13 group.val [group.val, inst.val, 2, c]) s
      | none => s)

/-! ## EDDY_MODE (R239, R241, R244, R251) -/

/-- The 64-bit modulus in ARG5 and ARG6. -/
def eddyP (m : Mbx) : Nat := m.arg64 5
/-- R239: p is odd and lies between 2^60 and 2^61. -/
def modulusOk (p : Nat) : Bool := p % 2 = 1 && 2 ^ 60 < p && p < 2 ^ 61
/-- ABORT is set. -/
def eddyAbortBit (m : Mbx) : Bool := m.arg 7 / 256 % 2 = 1
/-- The group is the mailbox's own. -/
def ownRed (s : State) (n : Nat) (m : Mbx) : Bool := (s.redGroup (m.arg 0)).elim true fun r => r.part = mbxPart s n

/-- EDDY_MODE. -/
def execEddyMode (n : Fin 16) (s : State) : Result :=
  .next (commandIf 0x0307 n.val (fun m => !eddyAbortBit m)
    (fun s m =>
      { notPermitted := firstFail [failIf (!ownRed s n.val m) 0,
          failIf (m.exp && (m.arg 7 / 512 % 2 = 1 && ctPart s (mbxPart s n.val))) 0x0324]
        badArg := firstFail [
          failIf ((s.redGroup (m.arg 0)).isNone || m.arg 1 = 0 || 4 < m.arg 1 || 2 ≤ m.arg 4 || 512 ≤ m.arg 2) 0,
          failIf (16384 ≤ m.arg 3 || lullPart s (m.arg 3) ≠ mbxPart s n.val) 0x0327,
          failIf (m.arg 1 = 4 && !modulusOk (eddyP m)) 0x0323,
          failIf (m.exp && (m.arg 8 < 100 || 1000000 < m.arg 8)) 0] })
    (fun s m =>
      match s.redGroup (m.arg 0) with
      | none => s
      | some r => replyDone n.val [] [] (setRed (m.arg 0) { r with
          typ := m.arg 1, dest := m.arg 2, done := m.arg 3, wide := m.arg 4 = 1, modulus := eddyP m
          arrival := m.exp && m.arg 7 / 512 % 2 = 1
          timeoutUs := if m.exp then m.arg 8 else 10000 } s)) s)

/-- EDDY_MODE with ABORT: the instance in ARG7[3:0] ends with ABORTED. -/
def execEddyAbort (n : Fin 16) (s : State) : Result :=
  .next (commandIf 0x0307 n.val eddyAbortBit
    (fun s m =>
      { notPermitted := failIf (!ownRed s n.val m) 0
        badArg := failIf (s.redGroup (m.arg 0)).isNone 0 })
    (fun s m =>
      let i := m.arg 7 % 16
      let live := (s.redGroup (m.arg 0)).elim false fun r => i ∈ liveInsts r
      replyDone n.val [] []
        (if live then failInst (m.arg 0) i 4 0 (logInfo 0x0310 0x13 (m.arg 0) [m.arg 0, i, 4]) s else s)) s)

end Sys2Proof.Machine
end

