-- ==== Sys2Proof/Machine/Dma.lean ====
section
/-!
DEFINITION. Commands and events of the DMA channels (spec/12_translation_dma_preemption.md R327 to R333, R338).
-/
namespace Sys2Proof.Machine

/-! ## Control messages (R327, R332) -/

/-- R327: the engine accepts a control message for channel d from this source. -/
def ctrlOk (s : State) (src : DmaSrc) (d : Nat) : Bool :=
  match src with
  | .cluster c => clusterPart s c.val = dmaPart s d
  | .firmware | .pipeline | .doorbell => true
  | .other => false
/-- R327: act on a control message, or discard and count it with DMA_BAD_CTRL. -/
def ctrl (src : DmaSrc) (d : Nat) (f : State → State) (s : State) : State :=
  if ctrlOk s src d then f s
  else logUe .operation 0x0431 0x0A d [d] { s with dma := { s.dma with badCtrl := s.dma.badCtrl + 1 } }

/-- KICK: the tail advances, and an idle channel starts. The index counts within the ring. The doorbell page does not answer while
the engine is held in reset or absent (spec/17_gust_links_and_host.md R472). -/
def kickChan (src : DmaSrc) (ch : Nat) (tail : BitVec 12) (s : State) : State :=
  if src = .doorbell && s.mainDown then noteOffline s
  else ctrl src ch (fun s =>
    let c := s.dchan ch
    dmaRun ch (setChan ch { c with tail := tail.toNat % c.size, st := if c.st = .idle then .running else c.st } s)) s
/-- A KICK message. -/
def execDmaKick (src : DmaSrc) (ch : Fin 64) (tail : BitVec 12) (s : State) : Result := .next (kickChan src ch.val tail s)

/-- SETUP: taken only while the channel is IDLE with an empty ring. -/
def execDmaSetup (src : DmaSrc) (ch : Fin 64) (base : BitVec 36) (log2 : Fin 16) (s : State) : Result :=
  .next (ctrl src ch.val (fun s =>
    let c := s.dchan ch.val
    if c.st = .idle && (c.head = c.tail && (4 ≤ log2.val && log2.val ≤ 12)) then
      setChan ch.val { c with base := base.toNat * 4096, log2 := log2.val, head := 0, tail := 0 } s
    else s) s)

/-- PAUSE. -/
def execDmaPause (src : DmaSrc) (ch : Fin 64) (s : State) : Result := .next (ctrl src ch.val (stopChan ch.val .pause) s)

/-- A stopped channel continues: its descriptor from DONE_BYTES, or the fetch that failed. -/
def resumeChan (d : Nat) (s : State) : State :=
  let c := s.dchan d
  if c.st = .paused || (c.st = .faulted || c.st = .error) then
    let s1 := setChan d { c with st := .running } s
    match c.cur with
    | none => dmaRun d s1
    | some x => if x.op = 3 && (c.begun && !c.tlbi) then dmaRun d (dmaFinal d 1 0 0 s1) else settle d s1
  else s
/-- RESUME: of a channel that is not stopped it is discarded. -/
def execDmaResume (src : DmaSrc) (ch : Fin 64) (s : State) : Result := .next (ctrl src ch.val (resumeChan ch.val) s)

/-- CANCEL: SCOPE 0 the current descriptor, SCOPE 1 the whole ring. -/
def execDmaCancel (src : DmaSrc) (ch : Fin 64) (ring : Bool) (s : State) : Result :=
  .next (ctrl src ch.val (stopChan ch.val (.cancel ring)) s)

/-- CANCEL_REQ: on every channel of the partition. -/
def execCancelReq (src : DmaSrc) (ch : Fin 64) (req : BitVec 21) (s : State) : Result :=
  .next (ctrl src ch.val (fun s => cancelReq (dmaPart s ch.val) req.toNat s) s)

/-! ## Descriptors (R328 to R331) -/

/-- A running channel begins its current descriptor when the descriptor has this OP: refused with BAD_DESC, or `go`. -/
def beginDesc (op d : Nat) (go : Desc → State → State) (s : State) : State :=
  let c := s.dchan d
  match c.cur with
  | none => s
  | some x =>
    if c.st = .running && (!c.begun && x.op = op) then
      match descRefusal s (dmaPart s d) x with
      | some e => dmaRun d (dmaFinal d 9 e 0 s)
      | none => go x (modChan d (fun c => { c with begun := true }) s)
    else s

/-- COPY. -/
def execDmaCopy (ch : Fin 64) (s : State) : Result := .next (beginDesc 1 ch.val (fun _ => settle ch.val) s)
/-- FILL. -/
def execDmaFill (ch : Fin 64) (s : State) : Result := .next (beginDesc 2 ch.val (fun _ => settle ch.val) s)
/-- TLBI: an invalidation by the channel's partition and the DVA range; the descriptor ends when it completes. -/
def execDmaTlbi (ch : Fin 64) (s : State) : Result :=
  .next (beginDesc 3 ch.val (fun x s =>
    startInval { byDpa := false, part := dmaPart s ch.val, lo := x.dst, len := x.len, started := false, since := 0, chan := some ch.val }
      (modChan ch.val (fun c => { c with tlbi := true }) s)) s)
/-- NOP. -/
def execDmaNop (ch : Fin 64) (s : State) : Result := .next (beginDesc 4 ch.val (fun _ s => dmaRun ch.val (dmaFinal ch.val 1 0 0 s)) s)

/-- The bytes that a FILL writes at an offset of its destination. -/
def dmaFill (x : Desc) (c : Chunk) : List Byte := (List.range c.len).map fun i => BitVec.ofNat 8 (x.pattern / 256 ^ ((c.off + i) % 4))

/-- The source bytes of a chunk: those of memory, of the host or the remote package, or the pattern; none on an error response. -/
def chunkData (x : Desc) (c : Chunk) (host : List Byte) (s : State) : Option (List Byte) × State :=
  if x.op = 2 then (some (dmaFill x c), s)
  else match c.srcDpa with
    | some a => memRead a c.len s
    | none => (some (host.take c.len), s)
/-- The destination takes the bytes of a chunk; the answer is whether it acknowledges. -/
def chunkStore (x : Desc) (c : Chunk) (b : List Byte) (s : State) : Bool × State :=
  match c.dstDpa with
  | some a => memWrite a b s
  | none =>
    (true, if x.dstSpace = 1 then send (.hostWrite (x.dst + c.off) b) s
           else send (.link x.port "remote write" ((x.dst + c.off) :: b.map BitVec.toNat)) s)

/-- R333: a chunk fails: the channel stops at the first failing chunk with DMA_ERROR. -/
def chunkFail (d status : Nat) (x : Desc) (c : Chunk) (s : State) : State :=
  let h := s.dchan d
  let s1 := modChan d (fun h => { h with failAt := some (h.failAt.elim c.off (min c.off)) }) s
  if h.failAt.isSome then s1
  else
    logUe .operation 0x0433 0x0A d [d, status, x.src + c.off, x.dst + c.off]
      (modChan d (fun h => { h with stops := h.stops ++ [.stop status 0] }) s1)

/-- R330, R333: a chunk in flight ends. -/
def chunkEnds (d : Nat) (x : Desc) (c : Chunk) (e : ChunkEnd) (s : State) : State :=
  match e with
  | .hostErr => chunkFail d 5 x c s
  | .remoteErr _ => chunkFail d 7 x c s
  | .linkDown => chunkFail d 8 x c s
  | .ok host =>
    let r := chunkData x c host s
    match r.1 with
    | none => chunkFail d 6 x c r.2
    | some b =>
      let w := chunkStore x c b r.2
      if w.1 then modChan d (fun h => { h with bytes := h.bytes + c.len }) w.2 else chunkFail d 6 x c w.2

/-- How a chunk can end: HOST_ERR needs a host end, a remote fault or a lost port a remote end, and a source off the die has sent its
bytes. -/
def chunkCanEnd (s : State) (x : Desc) (c : Chunk) (e : ChunkEnd) : Bool :=
  let has := fun sp => (x.op = 1 && x.srcSpace = sp) || x.dstSpace = sp
  match e with
  | .hostErr => has 1
  | .remoteErr _ => has 2
  | .linkDown => has 2 && !carrying s 0x07 x.port
  | .ok host => x.op = 2 || (c.srcDpa.isSome || c.len ≤ host.length)

/-- A chunk is acknowledged: its bytes stand at the destination, the watermark advances, more chunks are issued. -/
def execDmaChunkAck (ch : Fin 64) (idx : Fin 16) (res : ChunkEnd) (s : State) : Result :=
  let d := ch.val
  let h := s.dchan d
  .next (match h.cur, h.flight[idx.val]? with
    | some x, some c =>
      if !chunkCanEnd s x c res then s
      else settle d (chunkEnds d x c res (modChan d (fun h => { h with flight := h.flight.eraseIdx idx.val }) s))
    | _, _ => s)

/-! ## DMA_STATUS (R338) -/

/-- The code of a channel's state (log 13: in the order of Table TD-13). -/
def DmaSt.code : DmaSt → Nat
  | .idle => 0 | .running => 1 | .paused => 2 | .faulted => 3 | .error => 4
/-- The mailbox may see a partition: its own, or any from a mailbox of partition 0. -/
def seesPart (s : State) (n p : Nat) : Bool := mbxPart s n = 0 || mbxPart s n = p
/-- A status area as bytes. -/
def lastArea (e : Nat × Nat × Nat × Nat) : List Byte := statusArea e.1 e.2.1 e.2.2.1 e.2.2.2
/-- The current descriptor's status area has been written: the channel stands at PAUSED, FAULT or an error. -/
def chanStopped (c : DmaChan) : Bool := c.cur.isSome && (c.st = .paused || (c.st = .faulted || c.st = .error))
/-- DMA_STATUS: the state, ring, head, tail and chunks in flight; the current descriptor's status area in DATA. -/
def execDmaStatus (n : Fin 16) (s : State) : Result :=
  .next (command 0x0408 n.val
    (fun s m => { notPermitted := failIf (m.arg 0 < 64 && !seesPart s n.val (dmaPart s (m.arg 0))) 0, badArg := failIf (64 ≤ m.arg 0) 0 })
    (fun s m =>
      let c := s.dchan (m.arg 0)
      let area := if chanStopped c then c.last.head?.elim (statusArea 0 0 0 0) lastArea else statusArea 0 0 0 0
      replyDone n.val
        ([c.st.code, c.base % 2 ^ 32, c.base / 2 ^ 32, c.log2, c.head, c.tail, c.flight.length]
          ++ if m.exp then [c.bytes % 2 ^ 32, c.bytes / 2 ^ 32, c.chunks] else [])
        (area ++ if m.exp then c.last.flatMap lastArea else []) s) s)

end Sys2Proof.Machine
end

