-- ==== Sys2Proof/Machine/CxOps.lean ====
section
/-!
DEFINITION. The Crosswind handshake (spec/16_sealed_arithmetic_crosswind.md R443, spec/17_gust_links_and_host.md R460, R465).
-/
namespace Sys2Proof.Machine

/-- R443: a HELLO: chain, public key, nonce, then the parameters: domain, ROLE, tuples. -/
def helloBytes (chain key nonce : List Byte) (modulus role tuples : Nat) : List Byte :=
  chain ++ key ++ nonce ++ leBytes 8 modulus ++ leBytes 4 role ++ leBytes 4 tuples
/-- The HELLO of this end for a session. -/
def ownHello (s : State) (x : CxSess) : List Byte :=
  helloBytes (ownChain s) (Config.p384Public x.ephem) x.nonce x.modulus x.role x.tupCount
/-- R443: a handshake of a session begins: this end sends its HELLO with a fresh ephemeral key and nonce. -/
def startCxHs (i : Nat) (f : CxFor) (s : State) : State :=
  match s.cxSess i with
  | none => s
  | some x =>
    let y := { x with hs := some f, nonce := hsNonce s, ephem := hsEphem s, hello := none }
    send (.cx i "HELLO" ((ownHello s y).map BitVec.toNat)) (modCx i (fun _ => y) (drbgDraw (drbgDraw s)))

/-- R443: the handshake of a session with its peer: both HELLOs, that of ROLE 0 first (DESIGN CHOICE, log 172). -/
def cxHandshake (s : State) (x : CxSess) (h : CxPeer) : Handshake :=
  let first := decide (x.role = 0)
  { first := first, secret := Config.ecdh x.ephem h.key
    transcript := hsOrder first (ownHello s x) (helloBytes h.chain h.key h.nonce h.modulus h.role h.tuples) }
/-- The session tag that a handshake gives. -/
def Handshake.tag (h : Handshake) : Word := Config.cxTag h.secret h.transcript
/-- The checks of R443. -/
def cxChecks (s : State) (x : CxSess) (h : CxPeer) (sig : List Byte) : Bool :=
  Config.chainOk h.chain && (Config.ecdsaOk (Config.chainKey h.chain) (cxHandshake s x h).transcript sig
    && (decide (x.peer ∈ s.prot.vault.escrow) && ((s.gport 11).far.elim false (fun f => f.1 = x.peer)
      && (h.modulus = x.modulus && (h.tuples = x.tupCount && h.role ≠ x.role)))))

/-- The transmitter announces the next epoch of a channel (R465). -/
def sendRekey (k c : Nat) (s : State) : State :=
  let e := (s.chanOf k c).txEpoch + 1
  linkFlit k 4 "REKEY" [c, e, 0] (modSChan k c (fun x => { x with handshake := false, next := some e }) s)

/-- A handshake of a session passes. -/
def cxPasses (i : Nat) (f : CxFor) (h : Handshake) (s : State) : State :=
  match f with
  | .pair =>
    let s1 := newChannel 11 i h (modCx i (fun x => { x with hs := none, paired := true, tag := h.tag }) s)
    completeAwait (fun a => a = .pairing i) { status := 0 } (logSec 0x060B 0x00 0 [i] s1)
  | .resume =>
    let s1 := newChannel 11 i h (modCx i (fun x => { x with
      hs := none, suspended := none, tag := h.tag, out := x.out.map fun b => { b with sent := false } }) s)
    pumpCx i (completeAwait (fun a => a = .resume i) { status := 0 } s1)
  | .rekey => sendRekey 11 i (nextKeys 11 i h (modCx i (fun x => { x with hs := none }) s))

/-- A handshake of a session fails: CX_PEER_REFUSED; a pairing frees its slot, a session that resumes stays SUSPENDED. -/
def cxFails (i : Nat) (f : CxFor) (s : State) : State :=
  let s1 := logSec 0x060C 0x00 0 [i] s
  match f with
  | .pair => completeAwait (fun a => a = .pairing i) { status := 0x12, detail := 0x0608 } (dropCx i s1)
  | .resume => completeAwait (fun a => a = .resume i) { status := 0x12, detail := 0x0608 } (modCx i (fun x => { x with hs := none }) s1)
  | .rekey =>
    completeAwait (fun a => a = .linkRekey 11 i) { status := 0x12, detail := 0x0704 }
      (modSChan 11 i (fun x => { x with handshake := false }) (modCx i (fun x => { x with hs := none }) s1))

/-- R464, R465: firmware starts a rekey of a channel: a link handshake, or on GP11 a handshake of the session. One that runs goes on; one past
epoch 0xFFFF_FFFF is refused. -/
def startRekey (k c : Nat) (s : State) : State :=
  if (s.chanOf k c).handshake || 0xFFFFFFFF ≤ (s.chanOf k c).txEpoch then s
  else
    let s1 := modSChan k c (fun x => { x with handshake := true }) s
    if k = 11 then startCxHs c .rekey s1 else startHandshake k s1

end Sys2Proof.Machine
end

