-- ==== Sys2Proof/Machine/MeeOps.lean ====
section
/-!
DEFINITION. The MEE groups: Montgomery arithmetic, pass descriptors, their setup, and what a pass computes
(spec/16_sealed_arithmetic_crosswind.md R416 to R434).
-/
namespace Sys2Proof.Machine

/-! ## Residues (R416, R417) -/

/-- The radix of the Montgomery form. -/
def radix : Nat := 2 ^ 64
/-- One step of Newton's iteration for q^(-1) mod 2^64. -/
def invStep (q x : Nat) : Nat := x * (2 * radix + 2 - q * x % radix) % radix
/-- q^(-1) mod 2^64 of an odd q: q itself is right in its three low bits, and each step doubles them. -/
def invRadix (q : Nat) : Nat := invStep q (invStep q (invStep q (invStep q (invStep q (q % radix)))))
/-- q' = -q^(-1) mod 2^64. -/
def qPrime (q : Nat) : Nat := (radix - invRadix q) % radix
/-- R2 = 2^128 mod q. -/
def rSquared (q : Nat) : Nat := radix * radix % q
/-- redc(t) of R417. -/
def redc (q t : Nat) : Nat :=
  let m := t % radix * qPrime q % radix
  let u := (t + m * q) / radix
  if q ≤ u then u - q else u
/-- mmul(a, b) of R417. -/
def mmul (q a b : Nat) : Nat := redc q (a * b)
/-- R418: the masked conditional subtraction before use. -/
def reduceOnce (q x : Nat) : Nat := if q ≤ x then x - q else x
/-- An output of all ones. -/
def allOnes : Nat := radix - 1

/-! ## Descriptors (Table SA-3) -/

/-- A pass descriptor from its 64 bytes. -/
def decodePass (b : List Byte) : PassDesc :=
  { op := leAt b 0 1, mode := leAt b 1 1, srcA := leAt b 2 1, srcB := leAt b 3 1, srcC := leAt b 4 1, dst := leAt b 5 1, acc := leAt b 6 1
    sess := leAt b 7 1, limb0 := leAt b 8 1, nlimb := leAt b 9 1, strmA := leAt b 10 1, strmB := leAt b 11 1, strmC := leAt b 12 1
    strmD := leAt b 13 1, window := leAt b 14 1, start := leAt b 15 1, coef0 := leAt b 16 4, ncoef := leAt b 20 4, keyDva := leAt b 24 6
    dstDva := leAt b 30 6, auxDva := leAt b 36 6, exch := leAt b 42 1, obj := leAt b 44 2 % 16384
    resOk := leAt b 1 1 < 4 && (leAt b 43 1 = 0 && (leAt b 44 2 < 16384 && leAt b 46 2 = 0)) }
/-- Z64 mode. -/
def PassDesc.z64 (d : PassDesc) : Bool := d.mode % 2 = 1
/-- SIGNAL. -/
def PassDesc.signal (d : PassDesc) : Bool := d.mode / 2 % 2 = 1
/-- Output elements. -/
def PassDesc.outs (d : PassDesc) : Nat := d.nlimb * d.ncoef
/-- A masking pass, an unmasking pass. -/
def PassDesc.masks (d : PassDesc) : Bool := d.op = 2 && d.srcB = 4
def PassDesc.unmasks (d : PassDesc) : Bool := d.op = 3 && d.srcB = 4
/-- Operands that are read with the key. -/
def PassDesc.keyOps (d : PassDesc) : Nat := b2n (d.srcA = 2) + b2n (d.srcB = 2)
/-- Key elements that the pass reads. -/
def PassDesc.keyWords (d : PassDesc) : Nat := d.keyOps * (d.outs * d.acc)

/-- The session in a slot. -/
def State.sealedSess (s : State) (i : Nat) : Option SealedSess := (s.sealed.sess.find? fun e => e.1 = i).map Prod.snd
/-- MEE group `g`. -/
def State.mee (s : State) (g : Nat) : MeeGroup := Tab.get {} s.sealed.groups g
/-- Change a group. -/
def modMee (g : Nat) (f : MeeGroup → MeeGroup) (s : State) : State :=
  { s with sealed := { s.sealed with groups := Tab.mod {} s.sealed.groups g f } }
/-- The exchange with an ID; none when it is FREE. -/
def State.exch (s : State) (i : Nat) : Option Exch := (s.sealed.exchs.find? fun e => e.1 = i).map Prod.snd
/-- Remove an exchange: its key is erased and it is FREE. -/
def dropExch (i : Nat) (s : State) : State :=
  { s with sealed := { s.sealed with exchs := s.sealed.exchs.filter fun e => e.1 ≠ i } }
/-- Store an exchange. -/
def putExch (i : Nat) (e : Exch) (s : State) : State :=
  { s with sealed := { s.sealed with exchs := (i, e) :: s.sealed.exchs.filter fun x => x.1 ≠ i } }
/-- An access of a group. -/
def meeAccess (g p dva : Nat) (write : Bool) : Access := { part := p, dva := dva, write := write, ut := 0x06, inst := g }

/-- R421: the final status of a descriptor: its status bytes, then SIGNAL. -/
def passStatus (g p idx : Nat) (d : PassDesc) (status detail flags outputs : Nat) (s : State) : State :=
  let b := ([status, detail, flags, 0].map fun x => BitVec.ofNat 8 x) ++ leBytes 4 outputs ++ leBytes 8 s.now
  let s1 := (dvaWrite (meeAccess g p ((s.mee g).base + 64 * idx + 48) true) b s).2
  let s2 := modMee g (fun m => { m with last := some (status, detail, flags, outputs) }) s1
  if d.signal && lullPart s2 d.obj = p then
    match s2.obj d.obj with
    | some o => if o.kind = .counter && (o.st = .ready && !addWraps o 1) then counterAdd d.obj 1 s2 else s2
    | none => s2
  else s2

/-! ## Setup (R422, R431 to R433) -/

/-- FORMAT: a reserved code, a session not bound to the group's partition, MASK other than as B of MADD or MSUB; limbs and
coefficients within the session's (DEDUCED, log 35). -/
def passFormatOk (s : State) (p : Nat) (d : PassDesc) : Bool :=
  match s.sealedSess d.sess with
  | none => false
  | some x =>
    x.part = p && (d.resOk && (1 ≤ d.op && (d.op ≤ 4 && (d.srcA ∈ [1, 2, 3] && (d.srcB ∈ [1, 2, 3, 4] && (d.srcC ∈ [0, 1, 3]
      && (d.dst ∈ [1, 5] && ((d.srcB ≠ 4 || d.op = 2 || d.op = 3) && (1 ≤ d.acc && (d.acc ≤ 16 && ((d.op = 4 || d.acc = 1)
      && (d.start ≤ 96 && (1 ≤ d.nlimb && (1 ≤ d.ncoef && (d.limb0 + d.nlimb ≤ x.moduli.length && (d.coef0 + d.ncoef ≤ 2 ^ x.n
      && (!d.unmasks || d.srcA = 2)))))))))))))))))
/-- The cycles of a pass: its lane cycles, or its key schedule if that is longer, plus 800; 450 bytes of keys each cycle are the
1,843,200 bytes of a turn (R424). -/
def passCycles (d : PassDesc) : Nat := max (ceilDiv (d.outs * d.acc) 64) (ceilDiv (8 * d.outs * d.acc * b2n (d.keyOps ≠ 0)) 450) + 800
/-- MCLK cycles of a turn. -/
def turnCycles : Nat := 4096
/-- When the last pass of a group in a window ends, in cycles of the window. -/
def lastEnd (m : MeeGroup) (w : Nat) : Nat :=
  m.passes.foldl (fun a x => if x.desc.window = w then x.desc.start * turnCycles + passCycles x.desc else a) 0
/-- TIMING. -/
def passTimingOk (s : State) (g : Nat) (d : PassDesc) : Bool :=
  match s.net.image with
  | none => false
  | some img =>
    d.window < img.windows.length && (d.start * turnCycles + passCycles d ≤ (img.windows.getD d.window (0, 0)).2 * turnCycles
      && lastEnd (s.mee g) d.window ≤ d.start * turnCycles)
/-- BUDGET: two key streams at once ask for more than the static budget of a turn (DEDUCED, log 35). -/
def passBudgetOk (d : PassDesc) : Bool := d.keyOps ≤ 1 || 2 * min (8 * d.outs * d.acc) 1843200 ≤ 1843200

/-- The pieces of a range that the interleave sends to MC `g`, in increasing DVA order, until `need` bytes are found: the pieces and
the end of the last, or a fault cause (0: the range sends no more blocks to this controller). -/
def findPieces (a : Access) (g : Nat) : Nat → Nat → Nat → State → Except Nat (List (Nat × Nat) × Nat) × State
  | 0, dva, need, s => (if need = 0 then .ok ([], dva) else .error 0, s)
  | k + 1, dva, need, s =>
    if need = 0 then (.ok ([], dva), s)
    else
      let m := min need (4096 - dva % 4096)
      let t := translate { a with dva := dva } s
      match t.1 with
      | .error c => (.error c, t.2)
      | .ok dpa =>
        if (ctrlAddr t.2 dpa).elim false fun c => c.1 = g then
          let r := findPieces a g k (dva + m) (need - m) t.2
          (r.1.map fun x => ((dpa, m) :: x.1, if x.1.isEmpty then dva + m else x.2), r.2)
        else findPieces a g k (dva + (4096 - dva % 4096)) need t.2
/-- The same with fuel for 64 blocks in each that is needed. -/
def pieces (a : Access) (g need : Nat) (s : State) : Except Nat (List (Nat × Nat) × Nat) × State :=
  findPieces a g (64 * (need / 4096 + 2)) a.dva need s
/-- The constant table: one 64-bit constant per limb of the pass. -/
def readConsts (g p : Nat) (d : PassDesc) (s : State) : Except DvaErr (List Nat) × State :=
  if d.srcA = 3 || d.srcB = 3 || d.srcC = 3 then
    let r := dvaRead (meeAccess g p d.auxDva false) (8 * d.nlimb) s
    (r.1.map fun b => (List.range d.nlimb).map fun i => leAt b (8 * i) 8, r.2)
  else (.ok [], s)

/-- Where a pass starts, and where the next of its exchange and group may start. -/
def passFrom (d : PassDesc) : Nat := d.limb0 * 2 ^ 17 + d.coef0
def passNext (d : PassDesc) : Nat := (d.limb0 + d.nlimb - 1) * 2 ^ 17 + d.coef0 + d.ncoef

/-- R431: a masking pass opens its exchange when it is FREE; the DRBG draws the key and the nonce. -/
def openExch (d : PassDesc) (s : State) : Except (Nat × Nat) Unit × State :=
  if drbgDown s then (.error (6, 0), s)
  else
    let e : Exch := { sess := d.sess, key := Config.drbg s.freeCtr, nonce := (Config.drbg (s.freeCtr + 1)).take 16, opened := s.now }
    (.ok (), putExch d.exch e (drbgDraw (drbgDraw s)))
/-- R431, R432: the exchange of a masking pass. -/
def setupMask (g : Nat) (d : PassDesc) (s : State) : Except (Nat × Nat) Unit × State :=
  let o := if (s.exch d.exch).isNone then openExch d s else (.ok (), s)
  match o.1 with
  | .error e => (.error e, o.2)
  | .ok _ =>
    match o.2.exch d.exch with
    | none => (.error (7, 4), o.2)
    | some e =>
      if e.sess ≠ d.sess then (.error (7, 4), o.2)
      else if passFrom d < Tab.get 0 e.maskMark g then (.error (7, 5), o.2)
      else (.ok (), putExch d.exch { e with maskMark := Tab.put 0 e.maskMark g (passNext d) } o.2)

/-- R433: the fields of a return header against the exchange and the package, and the key range within the payload. -/
def headerOk (s : State) (d : PassDesc) (e : Exch) (b : List Byte) (keyEnd : Nat) : Bool :=
  leAt b 0 4 = 0x4D585254 && (leAt b 4 2 = 1 && (leAt b 6 1 = d.exch && (leAt b 7 1 = d.sess && (leAt b 8 2 % 4096 = s.aon.trayId
    && (leAt b 10 1 % 8 = s.aon.slot.val && ((b.drop 12).take 16 = e.nonce && (leAt b 36 6 ≤ d.keyDva
    && keyEnd ≤ leAt b 36 6 + leAt b 42 8)))))))
/-- R433: the checks of an unmasking pass: a failure destroys the exchange. -/
def setupUnmask (g p : Nat) (d : PassDesc) (keyEnd : Nat) (s : State) : Except (Nat × Nat) Unit × State :=
  match s.exch d.exch with
  | none => (.error (7, 4), s)
  | some e =>
    if e.sess ≠ d.sess then (.error (7, 4), s)
    else if passFrom d < Tab.get 0 e.unmaskMark g then (.error (7, 5), s)
    else
      let h := dvaRead (meeAccess g p d.auxDva false) 256 s
      match h.1 with
      | .error (.fault c) => (.error (2, c), h.2)
      | .error .mem => (.error (3, 0), h.2)
      | .ok b =>
        let y := dvaRead (meeAccess g p (leAt b 36 6) false) (leAt b 42 8) h.2
        match y.1 with
        | .error (.fault c) => (.error (2, c), y.2)
        | .error .mem => (.error (3, 0), y.2)
        | .ok pay =>
          if headerOk s d e b keyEnd && ((Config.sha384 pay).toNat = leAt b 50 48
              && Config.ecdsaOk s.prot.sealedP.holder (b.take 160) ((b.drop 160).take 96)) then
            (.ok (), putExch d.exch { e with unmaskMark := Tab.put 0 e.unmaskMark g (passNext d), elements := some (leAt b 28 8) } y.2)
          else (.error (5, 0), logSec 0x0603 0x06 g [d.exch] (dropExch d.exch y.2))

/-- R422: setup of a descriptor: the pass, or the status and detail that refuse it. -/
def setupPass (g p idx : Nat) (d : PassDesc) (s : State) : Except (Nat × Nat) Pass × State :=
  if !passFormatOk s p d then (.error (7, 1), s)
  else if !passTimingOk s g d then (.error (7, 2), s)
  else if !passBudgetOk d then (.error (7, 3), s)
  else
    let k := pieces (meeAccess g p d.keyDva false) g (8 * d.keyWords) s
    match k.1 with
    | .error c => (.error (if c = 0 then (7, 1) else (2, c)), k.2)
    | .ok keys =>
      let w := pieces (meeAccess g p d.dstDva true) g (if d.dst = 5 then 8 * d.outs else 0) k.2
      match w.1 with
      | .error c => (.error (if c = 0 then (7, 1) else (2, c)), w.2)
      | .ok dsts =>
        let c := readConsts g p d w.2
        match c.1 with
        | .error (.fault c1) => (.error (2, c1), c.2)
        | .error .mem => (.error (3, 0), c.2)
        | .ok consts =>
          let e := if d.masks then setupMask g d c.2 else if d.unmasks then setupUnmask g p d keys.2 c.2 else (.ok (), c.2)
          match e.1 with
          | .error x => (.error x, e.2)
          | .ok _ => (.ok { idx := idx, desc := d, part := p, keys := keys.1, dsts := dsts.1, consts := consts
                            waits := e.2.net.windows.any fun x => x.idx = d.window }, e.2)

/-- R422: the group takes its descriptors in ring order, setting each up; a refused one has its final status at once. One that cannot be
read is refused like any operand that cannot (DEDUCED, log 35). -/
def meeTake (g : Nat) : Nat → State → State
  | 0, s => s
  | k + 1, s =>
    let m := s.mee g
    if !m.set || m.head = m.tail then s
    else
      let p := meePart s g
      let r := dvaRead (meeAccess g p (m.base + 64 * m.head) false) 64 s
      let d := r.1.toOption.elim (decodePass []) decodePass
      let x : Except (Nat × Nat) Pass × State := match r.1 with
        | .ok _ => setupPass g p m.head d r.2
        | .error (.fault c) => (.error (2, c), r.2)
        | .error .mem => (.error (3, 0), r.2)
      let s1 := modMee g (fun m => { m with head := (m.head + 1) % 64 }) x.2
      meeTake g k (match x.1 with
        | .error e => passStatus g p m.head d e.1 e.2 0 0 s1
        | .ok y => modMee g (fun m => { m with passes := m.passes ++ [y] }) s1)

/-! ## A pass (R417 to R420, R423) -/

/-- Read the 64-bit elements of a piece line by line; none where the line answers with an error response. -/
def readElems : Nat → Nat → Nat → State → List (Option Nat) × State
  | 0, _, _, s => ([], s)
  | k + 1, dpa, n, s =>
    if n = 0 then ([], s)
    else
      let m := min n (64 - dpa % 64)
      let r := memRead dpa m s
      let l := match r.1 with
        | some b => (List.range (m / 8)).map fun i => some (leAt b (8 * i) 8)
        | none => List.replicate (m / 8) none
      let t := readElems k (dpa + m) (n - m) r.2
      (l ++ t.1, t.2)
/-- Read the elements of several pieces. -/
def readKeys : List (Nat × Nat) → State → List (Option Nat) × State
  | [], s => ([], s)
  | e :: t, s =>
    let a := readElems 66 e.1 e.2 s
    let b := readKeys t a.2
    (a.1 ++ b.1, b.2)

/-- What a group's lanes see of a pass: the key elements, the inbound streams, the mask key, the modulus of each limb. -/
structure PassIn where
  keys : List (Option Nat)
  strm : Nat → List (BitVec 64)
  maskKey : List Byte
  moduli : List Nat
  /-- where free elements are drawn from -/
  draw : Nat

/-- R431: the mask element of limb l and coefficient i. -/
def maskElem (x : PassIn) (d : PassDesc) (l i : Nat) : Nat :=
  let w := (Config.aes256ctr x.maskKey (l * 2 ^ 17 + i)).toNat
  if d.z64 then w % radix else w % x.moduli.getD l 1
/-- An element of a stream; one that the stream does not deliver is free. -/
def strmElem (x : PassIn) (st i : Nat) : Nat :=
  match (x.strm st)[i]? with
  | some w => w.toNat
  | none => Config.freeNat (x.draw + i) % radix
/-- An operand: its code, its stream, its number among the key operands, its position in its stream, its limb and coefficient. -/
def operand (x : PassIn) (d : PassDesc) (consts : List Nat) (code st ko pos l i : Nat) : Option Nat :=
  match code with
  | 1 => some (strmElem x st pos)
  | 2 => (x.keys.getD (d.keyOps * pos + ko) none)
  | 3 => some (consts.getD (l - d.limb0) 0)
  | 4 => some (maskElem x d l i)
  | _ => some 0

/-- R418: an operand is out of range. -/
def elemOver (d : PassDesc) (q v : Nat) : Bool := !d.z64 && 2 * q ≤ v
/-- One output element e of a pass: its value, and whether RANGE and a memory error struck it. -/
def passElem (x : PassIn) (d : PassDesc) (consts : List Nat) (e : Nat) : Nat × Bool × Bool :=
  let l := d.limb0 + e / d.ncoef
  let i := d.coef0 + e % d.ncoef
  let q := x.moduli.getD l 1
  let a := (List.range d.acc).map fun t => operand x d consts d.srcA d.strmA 0 (e * d.acc + t) l i
  let b := (List.range d.acc).map fun t => operand x d consts d.srcB d.strmB (b2n (d.srcA = 2)) (e * d.acc + t) l i
  let c := if d.op = 4 then operand x d consts d.srcC d.strmC 0 e l i else some 0
  let all := a ++ b ++ [c]
  let bad := all.any Option.isNone
  let vals := fun (y : List (Option Nat)) => y.map fun v => v.getD 0
  let range := (vals all).any (elemOver d q)
  let r := fun v => if d.z64 then v else reduceOnce q v
  let av := (vals a).map r
  let bv := (vals b).map r
  let cv := r (c.getD 0)
  let a0 := av.headD 0
  let b0 := bv.headD 0
  let mul := fun u v => if d.z64 then u * v % radix else mmul q u v
  let add := fun u v => if d.z64 then (u + v) % radix else (u + v) % q
  let v := match d.op with
    | 1 => mul a0 b0
    | 2 => add a0 b0
    | 3 => if d.z64 then (a0 + radix - b0) % radix else (a0 + q - b0) % q
    | _ => (List.zip av bv).foldl (fun s u => add s (mul u.1 u.2)) cv
  (if range || bad then allOnes else v, range, bad)

/-- Write outputs into the pieces of the destination. -/
def writeOuts : List (Nat × Nat) → List Byte → State → State
  | [], _, s => s
  | e :: t, b, s => writeOuts t (b.drop e.2) (memWrite e.1 (b.take e.2) s).2

/-- R432, R433: the counts of an exchange after a pass; once every element is unmasked it is FREE. -/
def countExch (d : PassDesc) (s : State) : State :=
  match s.exch d.exch with
  | none => s
  | some e =>
    if d.masks then putExch d.exch { e with masked := e.masked + d.outs } s
    else if d.unmasks then
      let n := e.unmasked + d.outs
      if e.elements.elim false fun k => k ≤ n then dropExch d.exch s else putExch d.exch { e with unmasked := n } s
    else s

/-- R423: a pass runs in its window and gets its status at the window's close; `late` says that late key data stalled its lanes. -/
def runPass (g : Nat) (x : Pass) (broken late : Bool) (inbound : List StreamData) (s : State) : State :=
  let d := x.desc
  if broken then passStatus g x.part x.idx d 4 0 0 0 s
  else
    let k := readKeys x.keys s
    let s1 := { k.2 with freeCtr := k.2.freeCtr + d.outs * d.acc }
    let inp : PassIn :=
      { keys := k.1, draw := s1.freeCtr, maskKey := (s1.exch d.exch).elim [] Exch.key
        strm := fun st => (inbound.find? fun y => y.group.val = g && y.stream.toNat = st).elim [] StreamData.words
        moduli := (s1.sealedSess d.sess).elim [] SealedSess.moduli }
    let outs := (List.range d.outs).map (passElem inp d x.consts)
    let vals := outs.map fun o => o.1
    let range := outs.any fun o => o.2.1
    let bad := k.1.any Option.isNone
    let s2 := if d.dst = 5 then writeOuts x.dsts (vals.flatMap (leBytes 8)) s1
      else send (.flit ((mcNodes g).headD 0) "stream" (d.strmD :: vals)) s1
    let s3 := if range then logUe .operation 0x0601 0x06 g [g, x.idx] s2 else s2
    let s4 := if bad then logUe .operation 0x0602 0x06 g [g, x.idx] s3 else s3
    let s5 := if late then
        logLimited 10000000 .info 0x0610 0x06 g [g] .none (modMee g (fun m => { m with late := m.late + 1 }) s4)
      else s4
    passStatus g x.part x.idx d (if bad then 3 else 1) 0 (b2n range + 2 * b2n late) d.outs (countExch d s5)

/-- The passes at the front of a group's list that ran in a window. -/
def frontPasses (w : Nat) (l : List Pass) : List Pass := l.takeWhile fun x => x.desc.window = w && !x.waits
/-- Run several passes. -/
def runPasses (g : Nat) (broken late : Bool) (inbound : List StreamData) : List Pass → State → State
  | [], s => s
  | x :: t, s => runPasses g broken late inbound t (runPass g x broken late inbound s)
/-- What the close of a window does at each group. -/
def meeClose (w : Nat) (broken : Bool) (late : BitVec 16) (inbound : List StreamData) : List Nat → State → State
  | [], s => s
  | g :: t, s =>
    let f := frontPasses w (s.mee g).passes
    let s1 := runPasses g broken (late.getLsbD g) inbound f s
    let s2 := modMee g (fun m => { m with
      passes := (m.passes.drop f.length).map fun x => if x.desc.window = w then { x with waits := false } else x }) s1
    meeClose w broken late inbound t (meeTake g 64 s2)

end Sys2Proof.Machine
end

