-- ==== Sys2Proof/Machine/Lull.lean ====
section
/-!
DEFINITION. The operations on Lull objects and their commands (spec/09_multicast_eddy_objects.md R245 to R251). An answer is
the NOTIFY that the home sends.
-/
namespace Sys2Proof.Machine

/-! ## Agents (R247) -/

/-- The partition of a sender: a cluster's for a node, partition 0 for a ring stop. -/
def senderPart (s : State) (r : LullReq) : Nat := if r.node.val < 128 then clusterPart s r.node.val else 0
/-- The sender stands on this package. -/
def senderHere (s : State) (r : LullReq) : Bool := r.slot = s.aon.slot
/-- R247: the agent refuses an operation outside its partition's range. -/
def agentRefuses (s : State) (r : LullReq) : Bool := senderHere s r && lullPart s r.obj.toNat ≠ senderPart s r

/-- The answer to a request. -/
def answer (r : LullReq) (status value : Nat) (s : State) : State := notify r.slot.val r.node.val r.obj.toNat status value s

/-- The waits that an agent has outstanding. -/
def agentWaits (s : State) (node : Nat) : Nat := s.lull.waits.countP fun w => w.1 = node
/-- The agent records a wait of this package. -/
def holdWait (r : LullReq) (s : State) : State :=
  if senderHere s r then { s with lull := { s.lull with waits := s.lull.waits ++ [(r.node.val, r.obj.toNat)] } } else s

/-- A tray-wide object homed on another package: the operation is forwarded there (R213, R245). -/
def forwarded (s : State) (x : LObj) : Bool := x.tray && x.homeSlot ≠ s.aon.slot.val

/-- R213, R247: an operation on an object of another home crosses to it; the agent holds a wait from then on, and answers a 17th one NO_SLOT. -/
def forwardOp (r : LullReq) (op : Nat) (x : LObj) (s : State) : State :=
  let cross := sendLull x.homeSlot (fun e => lullWord op r.obj.toNat r.node.val r.slot.val r.cls.val r.resume e r.arg.toNat)
  if op ≠ 2 && op ≠ 3 then cross s
  else if senderHere s r && 16 ≤ agentWaits s r.node.val then answer r lullNoSlot 0 s
  else holdWait r (cross s)
/-- The path of every operation: the agent's checks, forwarding to another home, POISONED, and then the home's effect. -/
def lullOp (r : LullReq) (op : Nat) (kind : LObj → Bool) (act : LObj → State → State) (s : State) : State :=
  match s.obj r.obj.toNat with
  | none => answer r lullRefused 0 s
  | some x =>
    if agentRefuses s r || !kind x then answer r lullRefused 0 s
    else if forwarded s x then forwardOp r op x s
    else if x.st = .poisoned && op ≠ 9 then answer r lullPoisoned 0 s
    else act x s

/-- The waiter that a request becomes. -/
def asWaiter (r : LullReq) (w : LWait) : Waiter := { slot := r.slot.val, node := r.node.val, cls := r.cls.val, resume := r.resume, what := w }

/-- A request becomes a waiter and gets QUEUED; a 17th wait of one agent is answered NO_SLOT. -/
def queueWait (r : LullReq) (x : LObj) (w : LWait) (s : State) : State :=
  if senderHere s r && 16 ≤ agentWaits s r.node.val then answer r lullNoSlot 0 s
  else holdWait r (answer r lullQueued 0 (setObj r.obj.toNat { x with waiters := x.waiters ++ [asWaiter r w] } s))

/-! ## Operations (R246, R248, Table CO-6) -/

/-- ARRIVE: refused for another phase; the Nth arrival notifies every waiter and flips the phase. -/
def arriveOp (r : LullReq) (s : State) : State :=
  lullOp r 1 (fun x => x.kind = .barrier) (fun x s =>
    if bit r.arg 0 ≠ x.phase then answer r lullRefused 0 s
    else if x.value.toNat + 1 < x.n then answer r lullOk 0 (setObj r.obj.toNat { x with value := x.value + 1 } s)
    else
      notifyAll r.obj.toNat lullOk 0 x.waiters
        (answer r lullOk 0 (setObj r.obj.toNat { x with value := 0, phase := !x.phase, waiters := [] } s))) s
/-- ARRIVE. -/
def execArrive (r : LullReq) (s : State) : Result := .next (arriveOp r s)

/-- The wait of WAIT is complete at once: a barrier in another phase, a semaphore with counts, a set event, a counter at its
threshold. -/
def waitDone (x : LObj) (arg : Word) : Bool :=
  match x.kind with
  | .barrier => bit arg 0 ≠ x.phase
  | .semaphore => x.value ≠ 0
  | .event => x.value ≠ 0
  | .counter => arg.toNat ≤ x.value.toNat

/-- WAIT: answered at once when it is complete; an auto-clear event then clears. -/
def waitOp (r : LullReq) (s : State) : State :=
  lullOp r 2 (fun _ => true) (fun x s =>
    if waitDone x r.arg then
      answer r lullOk (if x.kind = .event then x.payload.toNat else 0)
        (if x.kind = .event ∧ x.autoClear then setObj r.obj.toNat { x with value := 0 } s else s)
    else queueWait r x (.wait r.arg.toNat) s) s
/-- WAIT. -/
def execWait (r : LullReq) (s : State) : Result := .next (waitOp r s)

/-- R248: take n counts for a request. -/
def takeCounts (r : LullReq) (x : LObj) (s : State) : State :=
  setObj r.obj.toNat { x with value := x.value - BitVec.ofNat 64 r.arg.toNat, ptr := (requester r.slot.val r.node.val + 1) % 2048 } s

/-- A count that ACQUIRE, TRY_ACQUIRE and RELEASE may name: 1 to 65,535. -/
def countOk (r : LullReq) : Bool := 1 ≤ r.arg.toNat && r.arg.toNat ≤ 65535

/-- ACQUIRE: granted, or QUEUED. -/
def acquireOp (r : LullReq) (s : State) : State :=
  lullOp r 3 (fun x => x.kind = .semaphore && countOk r) (fun x s =>
    if acquireOk x r.cls.val r.arg.toNat r.resume then answer r lullOk 0 (takeCounts r x s)
    else queueWait r x (.acquire r.arg.toNat) s) s
/-- ACQUIRE. -/
def execAcquire (r : LullReq) (s : State) : Result := .next (acquireOp r s)

/-- TRY_ACQUIRE: granted, or EMPTY. -/
def tryAcquireOp (r : LullReq) (s : State) : State :=
  lullOp r 4 (fun x => x.kind = .semaphore && countOk r) (fun x s =>
    if acquireOk x r.cls.val r.arg.toNat r.resume then answer r lullOk 0 (takeCounts r x s) else answer r lullEmpty 0 s) s
/-- TRY_ACQUIRE. -/
def execTryAcquire (r : LullReq) (s : State) : Result := .next (tryAcquireOp r s)

/-- RELEASE: OVERFLOW past 2^32 - 1; otherwise the counts are added and waiters granted in order. -/
def releaseOp (r : LullReq) (s : State) : State :=
  lullOp r 5 (fun x => x.kind = .semaphore) (fun x s =>
    if 2 ^ 32 ≤ x.value.toNat + r.arg.toNat then answer r lullOverflow 0 s
    else
      let y := { x with value := x.value + BitVec.ofNat 64 r.arg.toNat }
      let g := grantAll (grantOrder y.ptr y.waiters) y
      notifyAll r.obj.toNat lullOk 0 g.2 (answer r lullOk 0 (setObj r.obj.toNat g.1 s))) s
/-- RELEASE. -/
def execRelease (r : LullReq) (s : State) : Result := .next (releaseOp r s)

/-- SET. -/
def setOp (r : LullReq) (s : State) : State :=
  lullOp r 6 (fun x => x.kind = .event)
    (fun _ s => lullSet r.obj.toNat (r.arg.toNat % 2 ^ 28) (answer r lullOk 0 s)) s
/-- SET. -/
def execSet (r : LullReq) (s : State) : Result := .next (setOp r s)

/-- CLEAR. -/
def clearOp (r : LullReq) (s : State) : State :=
  lullOp r 7 (fun x => x.kind = .event)
    (fun x s => answer r lullOk 0 (setObj r.obj.toNat { x with value := 0 } s)) s
/-- CLEAR. -/
def execClear (r : LullReq) (s : State) : Result := .next (clearOp r s)

/-- R356: an ADD to a partition's step counter by a cluster reports the end of its group's work. -/
def groupReports (p : Nat) (r : LullReq) (s : State) : State :=
  if (s.spart p).counter = some r.obj.toNat && (r.node.val < 128 && r.slot = s.aon.slot) then
    { s with serve := { s.serve with reported := setBit s.serve.reported (groupOf r.node.val) true } }
  else s

/-- ADD: OVERFLOW when the value wraps, which keeps the wrapped value. -/
def addOp (r : LullReq) (s : State) : State :=
  lullOp r 8 (fun x => x.kind = .counter)
    (fun x s => groupReports x.part r (counterAdd r.obj.toNat r.arg.toInt (answer r (if addWraps x r.arg.toInt then lullOverflow else lullOk) 0 s))) s
/-- ADD. -/
def execAdd (r : LullReq) (s : State) : Result := .next (addOp r s)

/-- The value that READ returns: a barrier's phase stands above its 32 bits of arrivals (log 13), EPOCH_DRAIN holds the count of the drain. -/
def readValue (s : State) (o : Nat) (x : LObj) : Nat :=
  if o = 3 then drainCount s else if x.kind = .barrier then x.value.toNat + b2n x.phase * 2 ^ 32 else x.value.toNat

/-- READ: two NOTIFY messages, low word and high word. -/
def readOp (r : LullReq) (s : State) : State :=
  lullOp r 9 (fun _ => true)
    (fun x s => answer r lullOk (readValue s r.obj.toNat x / 2 ^ 32) (answer r lullOk (readValue s r.obj.toNat x % 2 ^ 32) s)) s
/-- READ. -/
def execRead (r : LullReq) (s : State) : Result := .next (readOp r s)

/-- CANCEL_WAIT: the sender's wait ends with CANCELLED, and the operation is answered OK. -/
def cancelWaitOp (r : LullReq) (s : State) : State :=
  lullOp r 10 (fun _ => true) (fun x s =>
    let mine := x.waiters.filter fun w => w.slot = r.slot.val && w.node = r.node.val
    answer r lullOk 0 (notifyAll r.obj.toNat lullCancelled 0 mine
      (setObj r.obj.toNat { x with waiters := x.waiters.filter fun w => w ∉ mine } s))) s
/-- CANCEL_WAIT. -/
def execCancelWait (r : LullReq) (s : State) : Result := .next (cancelWaitOp r s)

/-- R247: an agent receives a NOTIFY and releases the wait that it names; QUEUED leaves it waiting. -/
def notifyOp (node obj status : Nat) (s : State) : State :=
  if status = lullQueued then s else { s with lull := { s.lull with waits := s.lull.waits.erase (node, obj) } }
/-- NOTIFY. -/
def execNotify (node : Fin 152) (obj : BitVec 14) (status : Fin 8) (_value : BitVec 28) (s : State) : Result :=
  .next (notifyOp node.val obj.toNat status.val s)

/-! ## Messages (Tables CO-5 and CO-6) -/

/-- A NOTIFY from another package reaches its node, or is relayed (R213). -/
def notifyIn (node obj slot arg : Nat) (s : State) : State :=
  if slot = s.aon.slot.val then notifyOp node obj (arg % 16) (send (.notify node obj (arg % 16) (arg / 16)) s)
  else sendLull slot (fun e => lullWord 15 obj node slot 0 false e arg) s
/-- A Lull message acts as its operation, or is a NOTIFY (Tables CO-5 and CO-6); a reserved OP is discarded. -/
def lullMessage (m : BitVec 64) (s : State) : State :=
  let node := fld m 18 7
  let r : LullReq :=
    { obj := BitVec.ofNat 14 (fld m 4 14), node := Fin.ofNat 152 node, slot := Fin.ofNat 8 (fld m 25 3), cls := Fin.ofNat 4 (fld m 28 2)
      resume := bit m 30, arg := BitVec.ofNat 32 (fld m 32 32) }
  match fld m 0 4 with
  | 1 => arriveOp r s | 2 => waitOp r s | 3 => acquireOp r s | 4 => tryAcquireOp r s | 5 => releaseOp r s | 6 => setOp r s
  | 7 => clearOp r s | 8 => addOp r s | 9 => readOp r s | 10 => cancelWaitOp r s
  | 15 => notifyIn node (fld m 4 14) (fld m 25 3) (fld m 32 32) s
  | _ => s
/-! ## LULL_ALLOC and LULL_FREE (R219, R245, R250, R251) -/

/-- Objects homed at a router of this package. -/
def homedAt (s : State) (node : Nat) : Nat := s.lull.objs.countP fun e => e.2.home = node && e.2.homeSlot = s.aon.slot.val

/-- ID and home: those that firmware picks, or ARG4 and ARG5 of the expert form. -/
def allocId (m : Mbx) (id : BitVec 14) : Nat := if m.exp then m.arg 4 else id.toNat
/-- The expert form places a tray-wide object on another package: ARG5 has bit 7 set and the slot in [10:8] (log 168). -/
def allocAfar (m : Mbx) : Bool := m.exp && (m.arg 1 = 1 && m.arg 5 / 128 % 2 = 1)
/-- The home of an allocation. -/
def allocHome (m : Mbx) (home : Fin 128) : Nat := if allocAfar m then m.arg 5 % 128 + m.arg 5 / 2048 * 128 else if m.exp then m.arg 5 else home.val
/-- The package of the home. -/
def allocSlot (s : State) (m : Mbx) : Nat := if allocAfar m then m.arg 5 / 256 % 8 else s.aon.slot.val

/-- The kind that ARG0 names. -/
def lkind : Nat → Option LKind
  | 0 => some .barrier | 1 => some .semaphore | 2 => some .event | 3 => some .counter | _ => none

/-- The settings of Table CO-4 are in range. -/
def lullSettingsOk (m : Mbx) : Bool :=
  match m.arg 0 with
  | 0 => m.arg 3 = 0
  | 2 => m.arg 2 < 2 && m.arg 3 = 0
  | _ => true

/-- The object that an allocation makes; participants stand in DATA: 16 bytes of nodes, 3 of ring stops, 1 of packages
(log 13). -/
def newObj (s : State) (n : Nat) (m : Mbx) (k : LKind) (home : Nat) : LObj :=
  { kind := k, tray := m.arg 1 = 1, homeSlot := allocSlot s m, home := home, part := mbxPart s n
    value := match k with
      | .semaphore => BitVec.ofNat 64 (m.arg 2)
      | .counter => BitVec.ofNat 64 (m.arg64 2)
      | .barrier | .event => 0
    n := if k = .barrier then m.arg 2 else 0
    reserve := if k = .semaphore then m.arg 3 else 0
    autoClear := k = .event && m.arg 2 = 1
    nodes := BitVec.ofNat 128 (leAt m.input 0 16), ring := BitVec.ofNat 24 (leAt m.input 16 3), pkgs := BitVec.ofNat 8 (leAt m.input 19 1) }

/-- LULL_ALLOC: `id` and `home` are firmware's picks. -/
def execLullAlloc (n : Fin 16) (id : BitVec 14) (home : Fin 128) (s : State) : Result :=
  .next (command 0x0305 n.val
    (fun s m =>
      { badArg := firstFail [
          failIf (m.arg 0 = 0 && (m.arg 2 = 0 || 1024 < m.arg 2)) 0x0320,
          failIf ((lkind (m.arg 0)).isNone || 2 ≤ m.arg 1 || !lullSettingsOk m) 0,
          failIf (128 ≤ allocHome m home || !interior (allocHome m home) || 256 ≤ homedAt s (allocHome m home)) 0x0325,
          failIf (allocId m id ≤ 0x003F || 16384 ≤ allocId m id || lullPart s (allocId m id) ≠ mbxPart s n.val
            || (s.obj (allocId m id)).isSome) 0x0327] })
    (fun s m =>
      match lkind (m.arg 0) with
      | none => s
      | some k => replyDone n.val [allocId m id] [] (setObj (allocId m id) (newObj s n.val m k (allocHome m home)) s)) s)

/-- LULL_FREE: a READY object with no waiters, or any POISONED object. -/
def execLullFree (n : Fin 16) (s : State) : Result :=
  .next (command 0x0306 n.val
    (fun s m =>
      { badArg := failIf (m.arg 0 ≤ 0x003F || lullPart s (m.arg 0) ≠ mbxPart s n.val || (s.obj (m.arg 0)).isNone) 0x0327
        busy := failIf ((s.obj (m.arg 0)).elim false fun x => x.st = .ready && !x.waiters.isEmpty) 0x0326 })
    (fun s m => replyDone n.val [] [] { s with lull := { s.lull with objs := s.lull.objs.filter fun e => e.1 ≠ m.arg 0 } }) s)

end Sys2Proof.Machine
end

