-- ==== Sys2Proof/Machine/Memory.lean ====
section
/-!
DEFINITION. Commands and events of HBM and the shared buffer (spec/11_memory_and_ecc.md R279 to R311).
-/
namespace Sys2Proof.Machine

/-! ## Reads and writes (R286 to R289, R297, R298) -/

/-- The answer of a read: its data, or an error response. -/
def answerRead (src tag dpa n : Nat) (r : Got × State) : State :=
  match r.1 with
  | .data => send (.flit src "read data" (tag :: (peek r.2 dpa n).map BitVec.toNat)) r.2
  | .free =>
    send (.flit src "read data" (tag :: (freeBytes r.2.freeCtr n).map BitVec.toNat)) { r.2 with freeCtr := r.2.freeCtr + n }
  | .error => errorResponse src tag r.2
/-- The answer of a write: its acknowledgement (TYPE 0x3), or an error response. -/
def answerWrite (src tag : Nat) (r : Bool × State) : State :=
  if r.1 then send (.flit src "write ack" [tag]) r.2 else errorResponse src tag r.2

/-- A controller serves a read of one line; an address outside HBM or in an UNBACKED region is refused. -/
def execHbmRead (src : Fin 152) (tag : BitVec 16) (static : Bool) (dpa : BitVec 48) (found : List (Fin 68)) (s : State) : Result :=
  let line := dpa.toNat / 64 * 64
  let s1 := if static then countStatic line 64 s else s
  .next (if hbmEnd ≤ dpa.toNat then errorResponse src.val tag.toNat s
    else answerRead src.val tag.toNat line 64 (readLine line (found.map Fin.val) s1))

/-- A controller orders a write within one line and acknowledges it. -/
def execHbmWrite (src : Fin 152) (tag : BitVec 16) (static : Bool) (dpa : BitVec 48) (data : List Byte) (found : List (Fin 68))
    (s : State) : Result :=
  let a := dpa.toNat
  let d := data.take (64 - a % 64)
  let s1 := if static then countStatic a d.length s else s
  .next (if hbmEnd ≤ a then errorResponse src.val tag.toNat s
    else answerWrite src.val tag.toNat (writeLine a d (found.map Fin.val) s1))

/-- R281: an access by a port of the slice answers: the spill area is the Breeze endpoint's, the staging area the
configuration-chain receiver's. -/
def sliceOpen (s : State) (node : Nat) (port : SlicePort) (off : Nat) : Bool :=
  let u := off / 16384
  routerLive s node &&
    match port with
    | .spill => u = 191
    | .stream | .gale => u < sliceUnits && !stagingUnit s node u

/-- The wrong bits that an access finds in a word, by the word's place in its line. -/
def foundIn (found : List (Fin 8 × Fin 72)) (w : Nat) : List Nat :=
  (found.filter fun e => e.1.val = w / 8 % 8).map fun e => e.2.val

/-- A bank serves a read of up to 64 bytes within a line, or a write. -/
def serveBank (r : SliceWait) (s : State) : State :=
  let a := sliceBase + r.node.val * 2 ^ 22 + r.off.toNat
  let n := min r.len.val (64 - a % 64)
  let s1 := { s with mem := { s.mem with bankUsed := bankOf r.node.val r.off.toNat :: s.mem.bankUsed } }
  match r.write with
  | none => answerRead r.src.val r.tag.toNat a n (readWords (ceilDiv (a % 8 + n) 8) (a / 8 * 8) (foundIn r.found) s1)
  | some d => answerWrite r.src.val r.tag.toNat (writeWords 9 a (d.take (64 - a % 64)) (foundIn r.found) s1)
/-- The order of R292 among the requests that meet in a bank: one that lost it before, then the stream engine, the Gale port, the Breeze
spill. -/
def waitRank (r : SliceWait) : Nat :=
  if r.lost then 0 else match r.port with | .stream => 1 | .gale => 2 | .spill => 3
/-- Put a request into an ordered list behind those that are served before it. -/
def insertWait (r : SliceWait) : List SliceWait → List SliceWait
  | [] => [r]
  | x :: t => if waitRank x ≤ waitRank r then x :: insertWait r t else r :: x :: t
/-- The waiting requests in the order in which their banks serve them. -/
def waitOrder (l : List SliceWait) : List SliceWait := l.foldl (fun q r => insertWait r q) []
/-- The bank that a request needs is free in this cycle, and nothing waits for it. -/
def bankFree (s : State) (node off : Nat) : Bool :=
  !s.mem.bankUsed.contains (bankOf node off) && s.mem.bankWait.all fun w => bankOf w.node.val w.off.toNat ≠ bankOf node off
/-- Serve what the banks can serve in a cycle; the rest has lost its bank and waits on. -/
def serveWaits : List SliceWait → State → State
  | [], s => s
  | r :: t, s =>
    serveWaits t (if s.mem.bankUsed.contains (bankOf r.node.val r.off.toNat) then
        { s with mem := { s.mem with bankWait := s.mem.bankWait ++ [{ r with lost := true }] } }
      else serveBank r s)
/-- The words whose banks are idle in this cycle get their corrected copies (Table ME-5). -/
def writeBacks : List Nat → State → State
  | [], s => s
  | w :: t, s => writeBacks t (if wordBank w ∈ s.mem.bankUsed then s else dropBack w (setFlaw w {} s))
/-- R292: the next cycle of the slice banks: they serve what waits, and an idle one writes a corrected word back. -/
def bankCycle (s : State) : State :=
  let s1 := serveWaits (waitOrder s.mem.bankWait) { s with mem := { s.mem with bankUsed := [], bankWait := [] } }
  writeBacks s1.mem.backs s1

/-- A request reaches its bank, which serves it; it waits while the bank has served another in this cycle, or others wait for it (R292;
which requests meet in a cycle: log 169). -/
def execSliceAccess (node : Fin 128) (port : SlicePort) (off : BitVec 22) (len : Fin 65) (write : Option (List Byte)) (src : Fin 152)
    (tag : BitVec 16) (found : List (Fin 8 × Fin 72)) (s : State) : Result :=
  let r : SliceWait := { node := node, port := port, off := off, len := len, write := write, src := src, tag := tag, found := found }
  .next (if !sliceOpen s node.val port off.toNat then errorResponse src.val tag.toNat s
    else if bankFree s node.val off.toNat then serveBank r s
    else { s with mem := { s.mem with bankWait := s.mem.bankWait ++ [r] } })

/-! ## Refresh, scrub, rescrub (R286, R290, R300, R301) -/

/-- R290: a refresh instant of a controller whose stack has trained; nothing postpones it and it changes no data. -/
def execRefresh (mc : Fin 16) (s : State) : Result :=
  .next (if stackUp s (mc.val / 2) then { s with mem := { s.mem with refreshes := Tab.mod 0 s.mem.refreshes mc.val (· + 1) } } else s)

/-- Table ME-5, Table ME-6: a scrub of an HBM line: corrected, written back unless a write came between, read again. -/
def scrubLine (line : Nat) (found : List Nat) (again written : Bool) (s : State) : State :=
  match ctrlAddr s line with
  | none => s
  | some (mc, addr) =>
    let f := s.flaw line
    if f.poison then s
    else
      match joinBad f.bad found with
      | [] => s
      | [p] =>
        let s1 := noteCe (mcIdx mc) line p f.inj s
        if written then s1
        else if again then
          let s2 := setFlaw line { bad := [p] } s1
          if f.inj then s2 else hardLine mc addr line s2
        else setFlaw line {} s1
      | [_, _] | [_, _, _] => hbmUe mc addr line f.inj s
      | _ =>
        let t := { s with freeCtr := s.freeCtr + 1 }
        if Config.freeBit s.freeCtr then hbmUe mc addr line f.inj t
        else setFlaw line {} (poke line (freeBytes t.freeCtr 64) { t with freeCtr := t.freeCtr + 64 })

/-- Lines of a scrubber's memory. -/
def scrubLines (u : Nat) : Nat := if u < 128 then 49152 else 536870912
/-- R300: the scrubber moves on; the end of a pass writes SCRUB_PASS with its OVERRUN flag. -/
def advanceScrub (u : Nat) (s : State) : State :=
  let p := Tab.get 0 s.mem.scrubPos u + 1
  if p < scrubLines u then { s with mem := { s.mem with scrubPos := Tab.put 0 s.mem.scrubPos u p } }
  else
    let hours := if u < 128 then s.mem.sliceHours else s.mem.hbmHours
    let late := hours * 3600000000000 < s.now - Tab.get 0 s.mem.passStart u
    logInfo 0x040C (memUnit u).1 (memUnit u).2 [b2n late]
      { s with mem := { s.mem with
          scrubPos := Tab.put 0 s.mem.scrubPos u 0
          passStart := Tab.put 0 s.mem.passStart u s.now
          passNo := Tab.mod 0 s.mem.passNo u (· + 1) } }

/-- One maintenance line operation of a controller: the oldest rescrub address, else the patrol's next line. -/
def maintain (mc : Nat) (found : List Nat) (again written : Bool) (s : State) : State :=
  match Tab.get [] s.mem.rescrub mc with
  | line :: t => scrubLine line found again written { s with mem := { s.mem with rescrub := Tab.put [] s.mem.rescrub mc t } }
  | [] =>
    advanceScrub (mcIdx mc)
      (match dpaOf s mc (Tab.get 0 s.mem.scrubPos (mcIdx mc) * 64) with
       | none => s
       | some line => scrubLine line found again written s)

/-- R286: the class 1 maintenance slot. -/
def execMaintenanceSlot (mc : Fin 16) (found : List (Fin 68)) (again written : Bool) (s : State) : Result :=
  .next (if stackUp s (mc.val / 2) then maintain mc.val (found.map Fin.val) again written s else s)

/-- The patrol of a slice corrects one word. A word corrected in two passes in a row, or uncorrectable, is hard. -/
def scrubWord (node w : Nat) (found : List Nat) (s : State) : State :=
  let f := s.flaw w
  let pass := Tab.get 0 s.mem.passNo node
  match joinBad f.bad found with
  | [] => s
  | [p] =>
    let s1 := setFlaw w {} (noteCe node w p f.inj s)
    if f.inj then s1
    else
      let s2 := { s1 with mem := { s1.mem with wordCe := Tab.put 0 s1.mem.wordCe w (pass + 1) } }
      if pass ≠ 0 && Tab.get 0 s.mem.wordCe w = pass then hardWord node w s2 else s2
  | [p, q] =>
    let s1 := noteUe node w f.inj (setFlaw w { bad := [p, q] } s)
    if f.inj then s1 else hardWord node w s1
  | _ =>
    let t := { s with freeCtr := s.freeCtr + 1 }
    if Config.freeBit s.freeCtr then (if f.inj then noteUe node w true t else hardWord node w (noteUe node w false t))
    else setFlaw w {} (poke w (freeBytes t.freeCtr 8) { t with freeCtr := t.freeCtr + 8 })
/-- The patrol of a slice over the words of a line. -/
def scrubWords (node : Nat) (found : Nat → List Nat) : Nat → Nat → State → State
  | 0, _, s => s
  | k + 1, w, s => scrubWords node found k (w + 8) (scrubWord node w (found w) s)

/-- R300, R288: a patrol step outside the class 1 slots: a controller takes it only while no static window is active. -/
def execScrub (unit : ScrubAt) (s : State) : Result :=
  .next (match unit with
    | .mc n found again written =>
      if stackUp s (n.val / 2) && s.net.windows.isEmpty then maintain n.val (found.map Fin.val) again written s else s
    | .slice n found =>
      if routerLive s n.val then
        advanceScrub n.val
          (scrubWords n.val (foundIn found) 8 (sliceBase + n.val * 2 ^ 22 + Tab.get 0 s.mem.scrubPos n.val * 64) s)
      else s)

/-! ## Slice units (R293) -/

/-- The requester ID of the rotating pointer. -/
def unitUser : UnitUser → Nat
  | .pipeline => 0 | .firmware => 1 | .dma => 2
/-- The request that wins the cycle. -/
def unitWinner (ptr : Nat) : List SliceReq → Option SliceReq
  | [] => none
  | r :: t =>
    match unitWinner ptr t with
    | none => some r
    | some x =>
      if r.cls.val < x.cls.val || (r.cls.val = x.cls.val && (unitUser r.who + 3 - ptr) % 3 ≤ (unitUser x.who + 3 - ptr) % 3) then some r else some x
/-- A request finds enough units: the two in reserve are never BULK's, and STANDARD and SEALED need RESUME for them (R248). -/
def unitsOk (free : Nat) (r : SliceReq) : Bool :=
  r.count ≤ free && (r.cls.val = 0 || ((r.cls.val = 1 || r.cls.val = 2) && r.resume) || 2 ≤ free - r.count)
/-- NO_SPACE to every loser, with a retry hint, whose value the spec leaves open. -/
def tellLosers (node : Nat) : List SliceReq → State → State
  | [], s => s
  | r :: t, s => tellLosers node t (send (.flit node "NO_SPACE" [unitUser r.who, Config.freeNat s.freeCtr]) { s with freeCtr := s.freeCtr + 1 })

/-- One arbitration of a slice: the winner takes its units, lowest first, and every other requester gets NO_SPACE. -/
def execSliceUnitRequest (node : Fin 128) (reqs : List SliceReq) (s : State) : Result :=
  let free := freeUnits s node.val
  .next (match unitWinner (Tab.get 0 s.mem.unitPtr node.val) reqs with
    | none => s
    | some r =>
      if unitsOk free.length r then
        let us := free.take r.count
        let s1 := takeUnits node.val r.part.val us
          { s with mem := { s.mem with unitPtr := Tab.put 0 s.mem.unitPtr node.val ((unitUser r.who + 1) % 3) } }
        tellLosers node.val (reqs.erase r) (send (.flit node.val "units" (unitUser r.who :: us)) s1)
      else tellLosers node.val reqs s)

/-! ## Zero-fill (R308) -/

/-- A DPA lies on a stack. -/
def onStack (s : State) (h dpa : Nat) : Bool := dpa < hbmEnd && (ctrlAddr s dpa).elim false fun e => e.1 / 2 = h
/-- R516: a stack that returns from maintenance: the system tables are built anew, all empty. -/
def rebuiltTables (s : State) : State := if s.units.maint then buildTables s else s
/-- The zero-fill of a returning stack ends: its lines hold zeros with valid check symbols, and it enters probation. -/
def execZeroFillDone (stack : Fin 8) (s : State) : Result :=
  .next (if s.mem.zeroing.getLsbD stack.val then
      rebuiltTables <| setUnitSt 0x05 stack.val .probation
        { s with mem := { s.mem with
            bytes := s.mem.bytes.filter fun e => !onStack s stack.val e.1
            flaws := s.mem.flaws.filter fun e => !onStack s stack.val e.1
            zeroing := setBit s.mem.zeroing stack.val false } }
    else s)

/-! ## Split-write mode (R309, R310) -/

/-- A partition whose frames an injection may not touch. -/
def protectedPart (s : State) (p : Nat) : Bool := partKind s p = .sealedK || partKind s p = .vault
/-- R310: why an arming is refused: 0 it is not, 1 a protected target, 2 another cause. -/
def armRefusal (s : State) : Nat :=
  let a := s.mem.eccAddr
  let fl := s.mem.flips.toList.filter Flip.en
  if a < hbmEnd then
    if protectedPart s (s.frame (a / 65536)).part then 1
    else if (s.hregion (regionOf a)).mode = .unbacked || (a % 64 ≠ 0 || fl.any fun f => 67 < f.pos) then 2
    else 0
  else if sliceBase ≤ a && a < sliceEnd then
    let node := (a - sliceBase) / 2 ^ 22
    let u := a % 2 ^ 22 / 16384
    if u = 191 || (u < 191 && stagingUnit s node u) then 1
    else if 192 ≤ u || (!routerLive s node || (a % 8 ≠ 0 || (fl.any (fun f => 71 < f.pos) || (2 < fl.length
        || (s.mem.flips[2].en || s.mem.flips[3].en))))) then 2
    else 0
  else 2

/-- Arm: refused, applied at once with NOW, or armed for the next write of the target. -/
def armInjection (s : State) : State :=
  if armRefusal s ≠ 0 then { s with mem := { s.mem with refused := true } }
  else if s.mem.eccNow then injectInto s.mem.eccAddr s
  else { s with mem := { s.mem with armed := true, armedAt := s.now } }

/-- A write to ECCW_CTRL: its fields need the EXPERT grant, and the block is absent in doldrums mode. A write of ARM while an
injection is armed arms no other. -/
def writeEccwCtrl (path : Path) (val : Word) (s : State) : State :=
  if path = .oob || !s.released then s
  else if s.mainDown then noteOffline s
  else if s.aon.grantHost.isNone then noteDeny s
  else if s.mem.armed then s
  else
    let s1 := { s with mem := { s.mem with eccNow := bit val 1 } }
    if bit val 0 then armInjection s1 else s1
/-- A write of ECCW_CTRL. -/
def execEccwArm (path : Path) (val : Word) (s : State) : Result := .next (writeEccwCtrl path val s)

/-- An injection lapses 1 s after arming. -/
def execEccwExpiry (s : State) : Result :=
  .next (if s.mem.armed && s.mem.armedAt + 1000000000 ≤ s.now then { s with mem := { s.mem with armed := false, expired := true } } else s)

/-! ## Memory commands (R311) -/

/-- The stacks in service. -/
def stackMask (s : State) : Nat := ((List.range 8).map fun h => if stackUp s h then 2 ^ h else 0).sum
/-- Words as bytes. -/
def words (l : List Nat) : List Byte := l.flatMap (leBytes 4)
/-- MEM_STATUS in its expert form: the region table, the lists, the over-budget counts. -/
def memExpert (s : State) : List Byte :=
  words ((List.range 512).map fun r => (s.hregion r).mode.code + 16 * (s.hregion r).owner)
    ++ words (s.store.sliceRepair.map (· % 2 ^ 32)) ++ words (s.store.hbmRepair.map fun e => e.1 * 2 ^ 24 + e.2 % 2 ^ 24)
    ++ words (s.store.laneLearned.map fun e => e.1.1 * 65536 + e.1.2.1 * 256 + e.1.2.2)
    ++ words (s.store.retired.map Prod.fst) ++ words ((List.range 16).map fun c => Tab.get 0 s.mem.overBudget c)
/-- MEM_STATUS (log 13 for the places of its results). -/
def execMemStatus (n : Fin 16) (s : State) : Result :=
  .next (command 0x0401 n.val noChecks
    (fun s m =>
      replyDone n.val
        [stackMask s, s.store.retired.length, (s.mem.rescrubDrops.map Prod.snd).sum, s.mem.hbmHours, s.mem.sliceHours]
        (words ((List.range 16).flatMap fun c => [Tab.get 0 s.mem.ce (mcIdx c), Tab.get 0 s.mem.ue (mcIdx c), Tab.get 0 s.mem.scrubPos (mcIdx c)])
          ++ words ((List.range 128).flatMap fun x => [Tab.get 0 s.mem.ce x, Tab.get 0 s.mem.ue x, Tab.get 0 s.mem.scrubPos x])
          ++ (if m.exp then memExpert s else [])) s) s)

/-- A frame of a region is allocated. -/
def regionHeld (s : State) (r : Nat) : Bool :=
  r * 16384 < s.mem.sysTop || s.mem.frames.any fun e => frameRegion e.1 = r && (e.2.use ≠ .free)
/-- A region that a basic MEM_INTERLEAVE may convert or reserve. -/
def regionIdle (s : State) (r : Nat) : Bool :=
  (s.hregion r).mode ≠ .unbacked && ((s.hregion r).owner = 0 && !regionHeld s r)
/-- The idle general-pool regions of a mode in a table. -/
def idleOf (s : State) (t : Tab HbmRegion) (m : HMode) : List Nat :=
  (t.filter fun e => e.2.mode = m && (e.2.owner = 0 && !regionHeld s e.1)).map Prod.fst

/-- R285: the balanced conversions: what they take and what they yield, smallest first. -/
def conversions : List (List HMode × List HMode) :=
  let n := [HMode.edgeN, .edgeN, .edgeN, .edgeN]
  let d := [HMode.edgeS, .edgeS, .edgeS, .edgeS]
  let lo := [HMode.stack 0, .stack 1, .stack 2, .stack 3]
  let hi := [HMode.stack 4, .stack 5, .stack 6, .stack 7]
  [([.stripe, .stripe], [.edgeN, .edgeS]), ([.edgeN, .edgeS], [.stripe, .stripe]),
   (n, lo), (d, hi), (lo, n), (hi, d), (List.replicate 8 .stripe, lo ++ hi), (lo ++ hi, List.replicate 8 .stripe)]
/-- Idle regions for a list of modes, each once. -/
def pickRegions (s : State) (t : Tab HbmRegion) : List HMode → List Nat → Option (List Nat)
  | [], acc => some acc
  | m :: l, acc =>
    match (idleOf s t m).find? fun r => !(r ∈ acc) with
    | none => none
    | some r => pickRegions s t l (acc ++ [r])
/-- Convert once toward a mode. -/
def convertOnce (s : State) (want : HMode → Bool) (t : Tab HbmRegion) : Option (Tab HbmRegion) :=
  conversions.findSome? fun c =>
    if c.2.any want then
      (pickRegions s t c.1 []).map fun l => placeAll (unplace t l) ((l.zip c.2).map fun e => (e.1, 0, e.2))
    else none
/-- Reserve regions of a mode, converting sets where idle ones run out. -/
def reserveRegions (s : State) (want : HMode → Bool) (part : Nat) : Nat → Nat → Tab HbmRegion → Option (Tab HbmRegion)
  | _, 0, t => some t
  | 0, _, _ => none
  | k + 1, n + 1, t =>
    match (t.filter fun e => want e.2.mode && (e.2.owner = 0 && !regionHeld s e.1)).head? with
    | some (r, x) => reserveRegions s want part k n (Tab.put {} t r { x with owner := part })
    | none => (convertOnce s want t).bind fun t1 => reserveRegions s want part k (n + 1) t1

/-- The modes that ARG1 and ARG2 ask for. -/
def wantMode (m : Mbx) (x : HMode) : Bool :=
  match m.arg 1 with
  | 1 => x = .stripe
  | 2 => x = .edgeN || x = .edgeS
  | _ => x = .stack (m.arg 2)
/-- A mode names only stacks in service. -/
def modeUp (s : State) (m : HMode) : Bool := m.mcs.all fun c => stackUp s (c / 2)
/-- The list of the expert form: each word a region in [8:0], a mode in [15:12], a partition in [21:16] (log 13). -/
def regionList (m : Mbx) : List (Nat × Nat × Option HMode) :=
  (List.range (m.input.length / 4)).map fun i =>
    let w := leAt m.input (4 * i) 4
    (w % 512, w / 65536 % 64, hmodeOf (w / 4096 % 16))
/-- The list with its modes. -/
def regionChanges (m : Mbx) : List (Nat × Nat × HMode) := (regionList m).filterMap fun e => e.2.2.map fun x => (e.1, e.2.1, x)
/-- R285: no controller would have more than 512 chunks in use. -/
def chunksFit (t : Tab HbmRegion) (l : List (Nat × Nat × HMode)) : Bool :=
  (List.range 16).all fun c =>
    (t.map fun e => (e.2.chunks.find? fun x => x.1 = c).elim 0 fun x => x.2.length).sum
      + (l.map fun e => if c ∈ e.2.2.mcs then e.2.2.chunksPer else 0).sum ≤ 512
/-- MEM_INTERLEAVE. -/
def execMemInterleave (n : Fin 16) (s : State) : Result :=
  .next (command 0x0402 n.val
    (fun s m =>
      if m.exp then
        let l := regionChanges m
        let t := unplace s.mem.regions (l.map Prod.fst)
        let bad := [failIf ((regionList m).any (fun e => e.2.2 = none) || (m.input.isEmpty || !(l.map Prod.fst).Nodup)) 0,
             failIf (!chunksFit t l || l.any fun e => !modeUp s e.2.2) 0x0402]
        { badArg := firstFail bad
          busy := failIf (l.any fun e => regionHeld s e.1) 0x0401 }
      else
        let bad := [failIf (m.arg 1 = 0 || (3 < m.arg 1 || (64 ≤ m.arg 0 || (m.arg 1 = 3 && 8 ≤ m.arg 2)))) 0,
            failIf ((m.arg 1 = 3 && !stackUp s (m.arg 2)) || (m.arg 1 = 1 && !(List.range 8).all (stackUp s))) 0x0402]
        { badArg := firstFail bad
          busy := failIf (reserveRegions s (wantMode m) (m.arg 0) 1024 (m.arg 3) s.mem.regions).isNone 0x0401 })
    (fun s m =>
      let t := if m.exp then placeAll (unplace s.mem.regions ((regionChanges m).map Prod.fst)) (regionChanges m)
        else (reserveRegions s (wantMode m) (m.arg 0) 1024 (m.arg 3) s.mem.regions).getD s.mem.regions
      replyDone n.val [] [] { s with mem := { s.mem with regions := t } }) s)

/-- SCRUB_CONFIG: ARG0 the HBM period in hours; in the expert form ARG1 the slice period. -/
def execScrubConfig (n : Fin 16) (s : State) : Result :=
  .next (command 0x0403 n.val
    (fun _ m => { badArg := failIf (m.arg 0 = 0 || (168 < m.arg 0 || (m.exp && (m.arg 1 = 0 || 24 < m.arg 1)))) 0x0407 })
    (fun s m => replyDone n.val [] []
      { s with mem := { s.mem with hbmHours := m.arg 0, sliceHours := if m.exp then m.arg 1 else s.mem.sliceHours } }) s)

/-- PAGE_RETIRE: LIST_FULL answers when the frame is retired for this run only. -/
def execPageRetire (n : Fin 16) (s : State) : Result :=
  .next (command 0x0404 n.val
    (fun s m => { badArg := failIf (frameCount ≤ m.arg 0 || (s.hregion (frameRegion (m.arg 0))).mode = .unbacked) 0x0405 })
    (fun s m =>
      let s1 := retirePending (m.arg 0) s
      if m.arg 0 ∈ s1.mem.retiredRun && !(m.arg 0 ∈ s.mem.retiredRun) then replyFail n.val 0x20 0x0406 s1 else replyDone n.val [] [] s1) s)

/-- Hard repairs of several rows: each that succeeds leaves the repair list; one without a spare stays. -/
def hardRepairs (ok : BitVec 8) : Nat → List (Nat × Nat) → State → State
  | _, [], s => s
  | i, r :: t, s =>
    hardRepairs ok (i + 1) t
      (if ok.getLsbD i then
        logInfo 0x040A 0x04 r.1 [r.2] { s with store := { s.store with
          hbmRepair := s.store.hbmRepair.filter (· ≠ r), hardRepaired := r :: s.store.hardRepaired } }
       else logUe .none 0x040B 0x04 r.1 [r.2] s)
/-- R305: a retired frame all of whose failing lines lie in repaired rows leaves the list. -/
def releaseRetired (s : State) : State :=
  { s with store := { s.store with retired := s.store.retired.filter fun e =>
      e.2.isEmpty || !(e.2.all fun r => r ∈ s.mem.repaired || r ∈ s.store.hardRepaired) } }
/-- The rows that PPR_RUN repairs: the first eight listed rows of the stack, or in the expert form the row that ARG1
(controller) and ARG2 (row) name. -/
def pprRows (s : State) (m : Mbx) : List (Nat × Nat) :=
  if m.exp then [(m.arg 1, m.arg 2)] else (s.store.hbmRepair.filter fun e => e.1 / 2 = m.arg 0).take 8
/-- PPR_RUN, on a stack that UNIT_OFFLINE has taken out; `ok` says which of the repairs find a spare. RES0 counts them. -/
def execPprRun (n : Fin 16) (ok : BitVec 8) (s : State) : Result :=
  .next (command 0x0405 n.val
    (fun s m =>
      let l := [failIf (8 ≤ m.arg 0 || (m.exp && m.arg 1 / 2 ≠ m.arg 0)) 0, failIf (s.unitSt 0x05 (m.arg 0) ≠ .offline) 0x0403]
      { badArg := firstFail l })
    (fun s m =>
      let l := pprRows s m
      replyDone n.val [(List.range l.length).countP fun i => ok.getLsbD i] [] (releaseRetired (hardRepairs ok 0 l s))) s)

/-- ECCW_STATUS. -/
def eccwStatus (s : State) : Nat := b2n s.mem.armed + 2 * b2n s.mem.applied + 4 * b2n s.mem.expired + 8 * b2n s.mem.refused
/-- ECCW_FLIPi. -/
def Flip.word (f : Flip) : Nat := f.pos + 256 * f.pat + 2 ^ 31 * b2n f.en
/-- An ECCW_FLIPi from its word. -/
def flipOf (w : Nat) : Flip := { pos := w % 128, pat := w / 256 % 256, en := w / 2 ^ 31 % 2 = 1 }
/-- The ECCW_ registers and the injection count that the basic ECC_INJECT returns. -/
def eccwRes (s : State) : List Nat :=
  [b2n s.mem.armed + 2 * b2n s.mem.eccNow, s.mem.eccAddr % 2 ^ 32, s.mem.eccAddr / 2 ^ 32, s.mem.flips[0].word, s.mem.flips[1].word,
   s.mem.flips[2].word, s.mem.flips[3].word, eccwStatus s, s.mem.injections]
/-- The registers as the expert form sets them. -/
def loadEccw (m : Mbx) (s : State) : State :=
  { s with mem := { s.mem with
      eccNow := m.arg 6 % 2 = 1, eccAddr := m.arg64 0 % 2 ^ 48
      flips := #v[flipOf (m.arg 2), flipOf (m.arg 3), flipOf (m.arg 4), flipOf (m.arg 5)] } }
/-- ECC_INJECT: its basic form reports, its expert form arms. -/
def execEccInject (n : Fin 16) (s : State) : Result :=
  .next (command 0x0406 n.val
    (fun s m =>
      if !m.exp then {}
      else
        { notPermitted := failIf (armRefusal (loadEccw m s) = 1) 0x0404
          badArg := failIf (armRefusal (loadEccw m s) = 2) 0
          busy := failIf s.mem.armed 0x0408 })
    (fun s m =>
      if m.exp then replyDone n.val [] [] (armInjection (loadEccw m s)) else replyDone n.val (eccwRes s) [] s) s)

end Sys2Proof.Machine
end

