-- ==== Sys2Proof/Machine/Power.lean ====
section
/-!
DEFINITION. Reset inputs, clocks, the rail sequence, the power command bus, telemetry, cluster regulators, droops, the
sequencer lease and the watchdog (spec/03_clocks_resets_power.md).
-/
namespace Sys2Proof.Machine

/-! ## Reset inputs (R9, R69 to R71) -/

/-- R9, R29, R70, Table CP-6: a cold start: the always-on block is reset, the slot straps latch and the timestamp count
starts; the comparators of the thermal guard are armed; the warden core derives the device identity key (R193). -/
def coldStart (straps : Fin 8) (cold : BitVec 48) (s : State) : State :=
  { s with
    aon := { slot := straps }
    pins := { s.pins with pwrOk := true, extest := false, boundary := 0, coreHalt := false }
    therm := { cold := cold }
    log := {}
    units := {}
    pwr := { seqRun := false, waitPll := [] }
    clk := {}
    mem := {}
    serve := {}
    link := { hostTrain := s.pins.perstN }
    prot := { s.prot with challenges := [], nextChal := 0, debugLevel := 0, debugEnd := none, fwMeasure := 0, fwSvn := 0, spdm := {}, idKey := some Config.pufKey }
    store := { s.store with coldStarts := (s.store.coldStarts + 1) % 2 ^ 32 } }

/-- A start begins once no reset input is asserted. While ACLK runs from the backup oscillator the package stays powered down
(R107, R512; log 152). -/
def startIfReleased (s : State) : State :=
  if !s.released then s
  else if s.clk.backup then
    let t := beginStart s
    { t with aon := { t.aon with startSt := .failed }, pwr := { t.pwr with seqRun := false, waitPll := [] } }
  else beginStart s

/-- PWR_OK rises after a low period. -/
def execPwrOkRise (straps : Fin 8) (cold : BitVec 48) (s : State) : Result :=
  .next (if s.pins.pwrOk then s else startIfReleased (coldStart straps cold s))

/-- PWR_OK falls: the whole package is reset; the ring, the HALT latch and a volatile FAIL_CNT are lost (R109, R490). -/
def execPwrOkFall (s : State) : Result :=
  .next (if !s.pins.pwrOk then s else
    let t := packageReset 0 (hostReset s)
    { t with
      pins := { t.pins with pwrOk := false, extest := false, boundary := 0, coreHalt := false }
      aon := { slot := t.aon.slot }
      prot := { t.prot with idKey := none }
      therm := {}
      clk := {} })

/-- TRAY_RST_N falls. -/
def execTrayRstNFall (s : State) : Result :=
  .next (if s.pins.pwrOk && s.pins.trayRstN then
      let t := packageReset 1 s
      { t with pins := { t.pins with trayRstN := false } }
    else s)

/-- TRAY_RST_N rises. -/
def execTrayRstNRise (s : State) : Result :=
  .next (if s.pins.pwrOk && !s.pins.trayRstN then startIfReleased { s with pins := { s.pins with trayRstN := true } } else s)

/-- PKG_RST_N falls. -/
def execPkgRstNFall (s : State) : Result :=
  .next (if s.pins.pwrOk && s.pins.pkgRstN then
      let t := packageReset 2 s
      { t with pins := { t.pins with pkgRstN := false } }
    else s)

/-- PKG_RST_N rises. -/
def execPkgRstNRise (s : State) : Result :=
  .next (if s.pins.pwrOk && !s.pins.pkgRstN then startIfReleased { s with pins := { s.pins with pkgRstN := true } } else s)

/-- R163: the leases of mailboxes 0 to 13 end. -/
def endHostLeases : List Nat → State → State
  | [], s => s
  | n :: t, s => endHostLeases t (endLease n s)

/-- What PERST_N and a hot reset do (R69, R163, R184, R469): the host endpoint is reset, the leases of mailboxes 0 to 13 and
the host-path EXPERT grant end, DBL_IRQ_STATUS bits 0 to 13 clear, and AON_RSTCAUSE takes PERST. -/
def perstEffect (s : State) : State :=
  let t := resetCause 5 (endHostLeases (List.range 14) (hostReset s))
  { t with
    aon := { t.aon with grantHost := none }
    mbx := { t.mbx with irqStatus := t.mbx.irqStatus &&& 0xC000 } }

/-- PERST_N falls. -/
def execPerstNFall (s : State) : Result :=
  .next (if s.pins.pwrOk && s.pins.perstN then
      let t := perstEffect s
      { t with pins := { t.pins with perstN := false } }
    else s)

/-! ## Clocks (R64, R68, R75) -/

/-- R64: the crystal fails: ACLK runs from the backup oscillator and the package leaves service. While a reset input is low the
power command bus is tristated (R43). -/
def execXtalFail (s : State) : Result :=
  .next (if s.pins.pwrOk && !s.clk.backup then
      let t := packageFatal 0x0A38 0x00 0 [] { s with clk := { s.clk with xtalOk := false, backup := true } }
      if t.aon.phase = .doldrums || !s.released then t else powerDown t
    else s)

/-- R68, Table CP-5: the response to the loss of each clock; a clock that does not run cannot be lost. -/
def clkLoss (c : ClkName) (s : State) : State :=
  match c with
  | .wclk =>
    if s.clk.wclk then
      let t := takeover 2 { s with clk := { s.clk with wclk := false }, aon := { s.aon with cores := 0 } }
      if t.aon.phase = .doldrums then { t with aon := { t.aon with monitor := false, wskDown := true } } else t
    else s
  | .mclk =>
    if s.clk.mclk then powerDown (packageFatal 0x0A36 0x00 0 [3] { s with clk := { s.clk with mclk := false } }) else s
  | .hclk h =>
    if s.clk.hclk.getLsbD h.val then
      stackLost h.val 0x0A36 (logUe .unit 0x0A36 0x05 h.val [8 + h.val]
        { s with clk := { s.clk with hclk := setBit s.clk.hclk h.val false } })
    else s
  | .gclk k =>
    if s.clk.gclk.getLsbD k.val then
      gustDown k.val 0x0A36 true (logUe .unit 0x0A36 0x07 k.val [16 + k.val]
        { s with clk := { s.clk with gclk := setBit s.clk.gclk k.val false } })
    else s
  | .pclk =>
    if s.clk.pclk then packageFatal 0x0A36 0x0D 0 [4] (hostPortsDown { s with clk := { s.clk with pclk := false } }) else s
  | .vclk n =>
    logUe .unit 0x0A36 0x0C 0xFF [32 + n.val] { s with clk := { s.clk with vclkLost := setBit s.clk.vclkLost n.val true } }
  | .tclk q =>
    if s.clk.tclk.getLsbD q.val then
      pushFrame (offFrame .fence (2 + q.val, 0)) (fenceTile q.val 0x0A36 (logUe .unit 0x0A36 0x09 q.val [28 + q.val]
        { s with clk := { s.clk with tclk := setBit s.clk.tclk q.val false } }))
    else s
  | .sclk => if s.clk.sclk then packageFatal 0x0A36 0x00 0 [5] { s with clk := { s.clk with sclk := false } } else s

/-- A clock leaves its range or a PLL loses lock. -/
def execClkLoss (clk : ClkName) (s : State) : Result := .next (if s.released then clkLoss clk s else s)

/-- The number of a PLL in waitPll. -/
def Pll.idx : Pll → Nat
  | .pclk => 0 | .sclk => 1 | .wclk => 2 | .mclk => 3 | .hclk h => 4 + h.val

/-- A PLL has locked. -/
def setLock (p : Pll) (c : Clk) : Clk :=
  match p with
  | .pclk => { c with pclk := true } | .sclk => { c with sclk := true } | .wclk => { c with wclk := true }
  | .mclk => { c with mclk := true } | .hclk h => { c with hclk := setBit c.hclk h.val true }

/-- In doldrums mode: the recovery monitor runs once VDD_BASE and WCLK are up (R111). -/
def monitorIfUp (s : State) : State :=
  if s.aon.phase = .doldrums ∧ s.pwr.waitPg = [] ∧ s.pwr.waitPll = [] ∧ ¬ s.aon.monitor then startMonitor s else s

/-- R75, Table SU-3: a PLL locks and the sequence goes on, or misses its time: then the step fails, the sequence stops and
the start fails with PLL_LOCK (the record names the PLL in place of a module, log 14). In doldrums mode the package is
WSK_DOWN (R112). -/
def execPllLock (pll : Pll) (ok : Bool) (s : State) : Result :=
  .next
    (if Pll.idx pll ∈ s.pwr.waitPll then
      if ok then
        let t := { s with clk := setLock pll s.clk, pwr := { s.pwr with waitPll := s.pwr.waitPll.filter (· ≠ Pll.idx pll) } }
        if s.aon.phase = .doldrums then monitorIfUp t else railAdvance t
      else if s.aon.phase = .doldrums then
        { s with aon := { s.aon with wskDown := true }, pwr := { s.pwr with waitPll := [], waitPg := [] } }
      else
        failStart 0x11 (logRec .fatal 0x0A30 0x00 0 [0xF0 + Pll.idx pll] .package (powerDown s))
    else s)

/-! ## Rails (R75, R76) -/

/-- A rail reports power-good. -/
def execPowerGood (vpm : Fin 9) (chan : Fin 3) (s : State) : Result :=
  let k := railKey vpm.val chan.val
  .next
    (if k ∈ s.pwr.waitPg ∧ (s.rail vpm.val chan.val).on then
      let t := modRail vpm.val chan.val (fun r => { r with pg := true })
        { s with pwr := { s.pwr with waitPg := s.pwr.waitPg.filter (· ≠ k) } }
      if s.aon.phase = .doldrums then monitorIfUp t else railAdvance t
    else s)

/-- R75: a rail misses its power-good deadline; in doldrums mode VDD_BASE cannot come up (R112). -/
def execPgDeadline (vpm : Fin 9) (chan : Fin 3) (s : State) : Result :=
  .next
    (if railKey vpm.val chan.val ∈ s.pwr.waitPg then
      if s.aon.phase = .doldrums then
        { s with aon := { s.aon with wskDown := true }, pwr := { s.pwr with waitPll := [], waitPg := [] } }
      else seqFail vpm.val chan.val s
    else s)

/-- No frame for a use is on the bus or waits. -/
def noFrame (p : FrameFor → Bool) (s : State) : Bool := s.pwr.bus.elim true (fun f => !p f.use) && s.pwr.frames.all fun f => !p f.use
/-- A frame of the bus scan. -/
def FrameFor.scan : FrameFor → Bool
  | .scanStatus | .scanOff => true
  | _ => false
/-- The bus scan has sent its frames and waits for its channels to read below 10 % of nominal (Table CP-8). -/
def scanWaits (s : State) : Bool := s.pwr.seqRun && (s.pwr.step = 1 && (s.aon.startSt = .running && noFrame FrameFor.scan s))
/-- Begin a step of the power-down sequence. Doldrums mode keeps VDD_BASE on (R111). With VDD_BASE off at the end Windsock has
stopped: its cores no longer run, and the mailbox hardware does what it does at a loss of WCLK (R162). -/
def downStep (k : Nat) (s : State) : State :=
  if k = 11 ∧ s.pwr.downKeepBase then { s with pwr := { s.pwr with down := none } }
  else if 12 ≤ k then
    let s1 := mailboxTakeover s
    { s1 with
      pwr := { s1.pwr with down := none }
      clk := { s1.clk with wclk := false }
      aon := { s1.aon with cores := 0, monitor := false } }
  else pushFrames ((downRails k).map (offFrame .powerDown)) { s with pwr := { s.pwr with down := some k } }
/-- R75, R76: the channels that a power-down step or the bus scan turned off read below 10 % of nominal, or the time is over: the next
step begins. -/
def execPowerDownStep (s : State) : Result :=
  .next (if !s.released then s
    else match s.pwr.down with
      | some k => downStep (k + 1) s
      | none => if scanWaits s then railStep 2 s else s)

/-! ## Frames (R78 to R83) -/

/-- The rail after an accepted frame (Table CP-10); a rail turned on starts at its nominal setpoint and at the limit of
its share (R73). -/
def applyFrame (f : Frame) (rdata : Nat) (s : State) : State :=
  modRail f.vpm f.chan (fun r =>
    match f.op with
    | 0x1 => { r with on := true, mv := nominalMv f.vpm f.chan, ilim := ilimFor (s.shareOf f.vpm f.chan) (nominalMv f.vpm f.chan) }
    | 0x2 => { r with on := false, pg := false }
    | 0x3 => { r with mv := f.data }
    | 0x4 => { r with ilim := f.data }
    | 0x6 => { r with status := r.status % 2 }
    | 0x9 => { r with amps := rdata }
    | 0xA => { r with status := rdata % 64 }
    | _ => r) s

/-- A frame that lowers a limit or a voltage is a safety frame (R81, R82). -/
def changeKind (s : State) (x : Nat × Nat × Nat) : FrameKind :=
  let r := s.rail x.1 0
  if (x.2.1 = 0x4 ∧ x.2.2 < r.ilim) ∨ (x.2.1 = 0x3 ∧ x.2.2 < s.mvOf x.1 0) then .safety else .setpoint
/-- A frame that changes a tile rail. -/
def changeFrame (s : State) (x : Nat × Nat × Nat) (u : FrameFor) : Frame :=
  { vpm := x.1, op := x.2.1, chan := 0, data := x.2.2, kind := changeKind s x, use := u }
/-- Send the first frame of a change of tile rails; the others follow when it is accepted (R73, R74). -/
def sendChange (undo : List (Nat × Nat × Nat)) : List (Nat × Nat × Nat) → State → State
  | [], s => s
  | x :: rest, s => pushFrame (changeFrame s x (.change rest undo)) s

/-- R73: the frames that take a tile rail to a setpoint: the limit first when the setpoint rises, the voltage first when it
falls. -/
def voltFrames (s : State) (vpm mv : Nat) : List (Nat × Nat × Nat) :=
  let lim := ilimFor (s.shareOf vpm 0) mv
  if s.mvOf vpm 0 ≤ mv then [(vpm, 0x4, lim), (vpm, 0x3, mv)] else [(vpm, 0x3, mv), (vpm, 0x4, lim)]
/-- R74: the limit frames of a move of shares: every limit that falls comes before any that rises. -/
def budgetFrames (s : State) (new : List Nat) : List (Nat × Nat × Nat) :=
  let fr := fun (q : Nat) => (2 + q, 0x4, ilimFor (new.getD q 240) (s.mvOf (2 + q) 0))
  let old := s.pwr.shares.toList
  ((List.range 4).filter fun q => new.getD q 240 < old.getD q 240).map fr
  ++ ((List.range 4).filter fun q => old.getD q 240 < new.getD q 240).map fr
/-- The frames of a change, from the setpoints and shares at its beginning. -/
def PwrChange.frames (s : State) : PwrChange → List (Nat × Nat × Nat)
  | .shares _ w => budgetFrames s w
  | .volt _ vpm mv => voltFrames s vpm mv

/-- A change of tile rails ends: the mailbox that asked for it gets its final response. -/
def finishChange (mbx : Option Nat) (r : Reply) (s : State) : State :=
  match mbx with
  | none => s
  | some n => reply n r (setBox n { s.box n with await := none } s)
/-- Every frame of a change was accepted: moved shares take their new values (R74). -/
def changeOk (c : PwrChange) (s : State) : State :=
  match c with
  | .shares n w => finishChange (some n) { status := 0, res := w }
      { s with pwr := { s.pwr with shares := Vector.ofFn fun i => w.getD i.val 240 } }
  | .volt m _ _ => finishChange m { status := 0 } s
/-- A change cannot be made: BAD_ARG with DETAIL 0x0A39 (R81; log 143). -/
def changeBad (c : PwrChange) (s : State) : State :=
  finishChange (match c with | .shares n _ => some n | .volt m _ _ => m) { status := 0x11, detail := 0x0A39 } s
/-- Begin the changes that wait, one after the other, so that each finds the rails as the one before left them (R73). -/
def runChanges : List PwrChange → State → State
  | [], s => { s with pwr := { s.pwr with changes := [] } }
  | c :: t, s =>
    match c.frames s with
    | [] => runChanges t (changeOk c s)
    | l => sendChange [] l { s with pwr := { s.pwr with changes := c :: t } }
/-- Ask for a change of tile rails. -/
def askRailChange (c : PwrChange) (s : State) : State :=
  match s.pwr.changes with
  | [] => runChanges [c] s
  | l => { s with pwr := { s.pwr with changes := l ++ [c] } }
/-- The running change has ended. -/
def nextChange (s : State) : State := runChanges s.pwr.changes.tail s
/-- Frames that restore what an abandoned change had changed, the last change first; then the next change begins. -/
def sendRestore : List (Nat × Nat × Nat) → State → State
  | [], s => nextChange s
  | x :: rest, s => pushFrame (changeFrame s x (.restore rest)) s
/-- The running change is abandoned (R81). -/
def abandonChange (undo : List (Nat × Nat × Nat)) (s : State) : State :=
  match s.pwr.changes with
  | [] => s
  | c :: _ => sendRestore undo (changeBad c s)
/-- What a rail holds that a frame is to change. -/
def oldOf (s : State) (f : Frame) : Nat × Nat × Nat := (f.vpm, f.op, if f.op = 0x4 then (s.rail f.vpm 0).ilim else s.mvOf f.vpm 0)

/-- R89: the rail stage: level 7 stack-wide. -/
def droopRail (s : State) : State := logCe 0x0A34 0x00 0 [7] { s with pwr := { s.pwr with droopRail := 7 } }

/-- A rail of a tile is lost: the tile is fenced and its rail is off. -/
def loseTileRail (vpm trigger : Nat) (s : State) : State :=
  modRail vpm 0 (fun r => { r with on := false, pg := false }) (fenceTile (vpm - 2) trigger s)

/-- R83: what a status word found by the pass starts, with its VPM_ALERT record; during the rail sequence a module fault
fails the sequence (R75). The class of an undervoltage alone is CE, as DROOP_RAIL (DEDUCED, log 15). -/
def actOnStatus (vpm st : Nat) (s : State) : State :=
  let uv := st / 2 % 2 = 1
  let ovoc := st / 4 % 2 = 1 || st / 8 % 2 = 1
  let mf := st / 16 % 2 = 1
  let tile := 2 ≤ vpm && vpm ≤ 5
  let s1 := if uv then droopRail s else s
  if ovoc && tile && !mf then
    if s.pwr.seqRun then seqFail vpm 0 (logUe .unit 0x0A32 0x11 (railKey vpm 0) [st] s1)
    else pushFrame (offFrame .fence (vpm, 0)) (loseTileRail vpm 0x0A32 (logUe .unit 0x0A32 0x11 (railKey vpm 0) [st] s1))
  else if ovoc || mf then
    if s.pwr.seqRun then seqFail vpm 0 (logRec .fatal 0x0A32 0x11 (railKey vpm 0) [st] .package s1)
    else powerDown (packageFatal 0x0A32 0x11 (railKey vpm 0) [st] s1)
  else if uv then logCe 0x0A32 0x11 (railKey vpm 0) [st] s1
  else s1

/-- PCMD_ALERT_N as the end of a status pass shows it: low while some module reports a status bit from 1 to 5 (R79, R92). -/
def alertLevel (s : State) : State :=
  if noFrame (fun u => u = .alertPass) s then
    { s with pins := { s.pins with pcmdAlert := s.pwr.rails.any fun e => 2 ≤ e.2.status } }
  else s

/-! ## Telemetry and the governor (R82, R88) -/

/-- The channels of each budget share: tiles 0 to 3, VDD_BASE, VDD_SRAM, VDD_VANE, VPM0, VPM8, and the six HBM rails. -/
def shareChannels : List (List (Nat × Nat)) :=
  [[(2, 0)], [(3, 0)], [(4, 0)], [(5, 0)], [(1, 0)], [(1, 1)], [(1, 2)], [(0, 0), (0, 1), (0, 2)], [(8, 0), (8, 1)],
   [(6, 0)], [(6, 1)], [(6, 2)], [(7, 0)], [(7, 1)], [(7, 2)]]

/-- The share in W that an index of shareChannels stands for. -/
def shareWatts (s : State) (k : Nat) : Nat :=
  if h : k < 4 then s.pwr.shares[k] else ([245, 90, 60, 15, 40, 10, 70, 40, 10, 70, 40] : List Nat).getD (k - 4) 0

/-- The draw of a share in mW from the last sweep. -/
def shareDraw (s : State) (chs : List (Nat × Nat)) : Nat :=
  (chs.map fun c => (s.rail c.1 c.2).amps * s.mvOf c.1 c.2 / 10).sum

/-- R88: the governor's decision for one share. -/
def governShare (k : Nat) (chs : List (Nat × Nat)) (s : State) : State :=
  let l := (shareDraw s chs :: Tab.get [] s.pwr.sweeps k).take 5
  let avg := l.sum / l.length
  let w := shareWatts s k * 1000
  let lv := s.gov k
  let s1 := { s with
    pwr := { s.pwr with sweeps := Tab.ins s.pwr.sweeps k l }
    aon := { s.aon with budgetHit := s.aon.budgetHit || decide (w * 97 < avg * 100) } }
  let lv' := if w * 97 < avg * 100 then min 7 (lv + 1) else if avg * 100 < w * 90 then lv - 1 else lv
  if lv' = lv then s1
  else logLimited 10000000 .info 0x0A35 0x00 k [k, lv'] .none
    { s1 with pwr := { s1.pwr with govLevel := Tab.put 0 s1.pwr.govLevel k lv' } }

/-- The governor over every share. -/
def governAll : List (Nat × List (Nat × Nat)) → State → State
  | [], s => s
  | (k, c) :: t, s => governAll t (governShare k c s)

/-- A READ_I of the sweep has ended: after the last one the governor acts (R82, R88). -/
def sweepEnd (s : State) : State := if noFrame (fun u => u = .sweep) s then governAll ((List.range 15).zip shareChannels) s else s

/-- The order in which a sweep reads the channels: the one given where it names every channel once, else VPM by VPM (log 144). -/
def sweepOrder (order : List (Fin 9 × Fin 3)) : List (Nat × Nat) :=
  let l := order.map fun c => (c.1.val, c.2.val)
  if l.isPerm allChannels then l else allChannels
/-- R82, R88: every 200 µs: READ_I to every channel of VPM0 to VPM8, behind the frames that wait with a higher rank. A sweep whose
frames have not all ended goes on (log 144). -/
def execTelemetrySweep (order : List (Fin 9 × Fin 3)) (s : State) : Result :=
  .next (if s.released && noFrame (fun u => u = .sweep) s then
      pushFrames ((sweepOrder order).map fun c => { vpm := c.1, op := 0x9, chan := c.2, data := 0, kind := .telemetry, use := .sweep }) s
    else s)

/-! ## The ends of frames (R78 to R81) -/

/-- R75: a status word in the bus scan reports a fault: overvoltage, overcurrent or a module fault (log 145). -/
def scanFault (rdata : Nat) : Bool := 4 ≤ rdata % 32
/-- The scan's status words have all come: OFF to every commanded channel. -/
def scanStatusEnd (s : State) : State :=
  if s.pwr.seqRun && noFrame (fun u => u = .scanStatus) s then pushFrames scanOffs s else s

/-- A frame was accepted. -/
def frameAccepted (f : Frame) (rdata : Nat) (s : State) : State :=
  let s1 := nextFrame (applyFrame f rdata s)
  match f.use with
  | .change rest undo =>
    match s1.pwr.changes with
    | [] => s1
    | c :: _ => if rest.isEmpty then nextChange (changeOk c s1) else sendChange (oldOf s f :: undo) rest s1
  | .restore rest => if s1.pwr.changes.isEmpty then s1 else sendRestore rest s1
  | .alertPass => alertLevel (actOnStatus f.vpm (rdata % 64) s1)
  | .scanStatus => if scanFault rdata then seqFail f.vpm 0 s1 else scanStatusEnd s1
  | .clearFault => alertLevel s1
  | .sweep => sweepEnd s1
  | .scanOff | .railOn | .powerDown | .fence => s1

/-- What the end of a frame without success means to what asked for it: a change of rails is abandoned, a restore goes on, a sweep or
a pass may be over. Nothing is restored on the rail that is lost with it. -/
def frameLost (f : Frame) (s : State) : State :=
  match f.use with
  | .change _ undo => abandonChange (undo.filter fun x => x.1 ≠ f.vpm) s
  | .restore rest => if s.pwr.changes.isEmpty then s else sendRestore (rest.filter fun x => x.1 ≠ f.vpm) s
  | .sweep => sweepEnd s
  | .alertPass => alertLevel s
  | .scanStatus | .scanOff | .railOn | .powerDown | .fence | .clearFault => s

/-- R75, R80, R81, R112: a module that does not do what it is told: during the rail sequence that fails; a tile rail is lost with its
tile; otherwise the package leaves service and is powered down. In doldrums mode the rails are down already, and VDD_BASE cannot come
up when its ON fails. -/
def moduleFails (f : Frame) (code : Nat) (s : State) : State :=
  let tile := 2 ≤ f.vpm && f.vpm ≤ 5
  let d := [f.vpm, f.op, f.chan]
  let key := railKey f.vpm f.chan
  if s.pwr.seqRun then seqFail f.vpm f.chan (logRec (if tile then .ue else .fatal) code 0x11 key d (if tile then .unit else .package) s)
  else if tile then loseTileRail f.vpm code (logUe .unit code 0x11 key d s)
  else if s.aon.phase = .doldrums then
    let t := packageFatal code 0x11 key d s
    if f.use = .railOn then { t with aon := { t.aon with wskDown := true, ready := false, monitor := false }, pwr := { t.pwr with waitPll := [], waitPg := [] } }
    else t
  else powerDown (packageFatal code 0x11 key d s)

/-- R80: the fourth failed send, or a refused read (R81). -/
def noResponse (f : Frame) (s : State) : State := moduleFails f 0x0A31 (frameLost f (nextFrame s))

/-- R81: a refused frame that is not a read. -/
def frameRefused (f : Frame) (s : State) : State :=
  let s1 := nextFrame s
  let d := [f.vpm, f.op, f.chan]
  match f.kind with
  | .safety => moduleFails f 0x0A39 (frameLost f s1)
  | .alert | .setpoint | .telemetry =>
    match f.use with
    | .change _ undo => abandonChange undo (logInfo 0x0A39 0x11 (railKey f.vpm f.chan) d s1)
    | .restore rest => if s1.pwr.changes.isEmpty then s1 else sendRestore rest (logInfo 0x0A39 0x11 (railKey f.vpm f.chan) d s1)
    | .clearFault => s1
    | .scanStatus | .scanOff | .railOn | .powerDown | .fence | .alertPass | .sweep => logInfo 0x0A39 0x11 (railKey f.vpm f.chan) d s1

/-- R78 to R81: a frame ends with its ACK (0 accepted, 1 CRC error, 2 refused, 3 no response). A read whose response fails
its CRC8 is a missing response (DEDUCED, log 15); under EXTEST no module has seen the frame (R49). -/
def execPcmdFrameEnd (ack : Fin 4) (rdata : BitVec 16) (rcrc : BitVec 8) (s : State) : Result :=
  .next (match s.pwr.bus with
    | none => s
    | some f =>
      let read := 8 ≤ f.op
      if !s.pins.extest && (ack = 0 && (!read || responseCrc rdata = rcrc.toNat)) then frameAccepted f rdata.toNat s
      else if !s.pins.extest && ack = 2 then (if read then noResponse f s else frameRefused f s)
      else if f.fails < 3 then startFrame { f with fails := f.fails + 1 } { s with pwr := { s.pwr with bus := none } }
      else noResponse f s)

/-- R83: PCMD_ALERT_N falls and the status pass over VPM1 to VPM8 starts. -/
def execPcmdAlert (s : State) : Result :=
  .next (if s.released then
      pushFrames ((List.range 8).map fun i => { vpm := i + 1, op := 0xA, chan := 0, data := 0, kind := .alert, use := .alertPass })
        { s with pins := { s.pins with pcmdAlert := true } }
    else s)

/-! ## Cluster rails (R84, R85, R93) -/

/-- The clusters of a mask in rising order. -/
def maskList (m : BitVec 128) : List Nat := (List.range 128).filter fun c => m.getLsbD c

/-- R84: as many waiting regulators of a tile as the stagger allows start turning on. -/
def fgrFillTile (q : Nat) (p : Pwr) : Pwr :=
  let go := (maskList (p.fgrQueue &&& tileMask q)).take (p.stagger - popcount (p.fgrRamp &&& tileMask q))
  let m : BitVec 128 := go.foldl (fun a c => setBit a c true) 0
  { p with fgrQueue := p.fgrQueue &&& ~~~ m, fgrRamp := p.fgrRamp ||| m, fgrOn := p.fgrOn ||| m }

/-- The same for every tile. -/
def fgrFill (p : Pwr) : Pwr := fgrFillTile 3 (fgrFillTile 2 (fgrFillTile 1 (fgrFillTile 0 p)))

/-- Ask for regulators to turn on; a harvested cluster's never does (R84). -/
def fgrTurnOn (m : BitVec 128) (s : State) : State :=
  { s with pwr := fgrFill { s.pwr with fgrQueue := s.pwr.fgrQueue ||| (m &&& ~~~ s.store.harvestCl &&& ~~~ s.pwr.fgrOn) } }

/-- Every regulator of a mask has ended its ramp. -/
def fgrSettled (s : State) (m : BitVec 128) : Bool := (m &&& (s.pwr.fgrRamp ||| s.pwr.fgrQueue)) == 0

/-- CLUSTER_GATE is DONE once every ramp it asked for has ended. -/
def gateDone (s : State) : State :=
  completeAwait (fun a => match a with | .clusterGate m => fgrSettled s m | _ => false) { status := 0 } s

/-- A port at the start of its test: PRST_N is released, nothing is tested yet (Table TB-12 steps 5 and 6). -/
def releasePort (c : Nat) (s : State) : State :=
  { s with bond := { s.bond with ports := Tab.mod {} s.bond.ports c fun p =>
      { p with prst := true, crdy := false, cerr := false, step := 0, identBad := false, ready := false } } }

/-- R84, R85: a regulator reaches regulation and its cluster enters probation. -/
def execFgrInRegulation (cluster : Fin 128) (s : State) : Result :=
  .next (if s.pwr.fgrRamp.getLsbD cluster.val then
      let s1 := { s with pwr := fgrFill { s.pwr with fgrRamp := setBit s.pwr.fgrRamp cluster.val false } }
      gateDone (releasePort cluster.val (setUnitSt 0x01 cluster.val .probation s1))
    else s)

/-- The mask in ARG0 to ARG3. -/
def maskArg (m : Mbx) : BitVec 128 :=
  BitVec.ofNat 128 (m.arg 0 + 2 ^ 32 * m.arg 1 + 2 ^ 64 * m.arg 2 + 2 ^ 96 * m.arg 3)

/-- The bond port of a cluster is fenced and its interface held in reset, so that its regulator may go off (R84). -/
def closePort (c : Nat) (s : State) : State :=
  { s with bond := { s.bond with ports := Tab.mod {} s.bond.ports c fun p => { p with fence := true, prst := false, crdy := false, ready := false } } }
/-- The ports of several clusters. -/
def closePorts : List Nat → State → State
  | [], s => s
  | c :: t, s => closePorts t (closePort c s)
/-- R84: clusters that are not in service are fenced at their bond ports, and their regulators go off; one in probation leaves it
(log 146). -/
def gateOff (m : BitVec 128) (s : State) : State :=
  let s1 := closePorts (maskList m) s
  let s2 := (maskList m).foldl (fun t c => if t.unitSt 0x01 c = .probation then setUnitSt 0x01 c .faulted t else t) s1
  { s2 with pwr := { s2.pwr with fgrOn := s2.pwr.fgrOn &&& ~~~ m, fgrRamp := s2.pwr.fgrRamp &&& ~~~ m, fgrQueue := s2.pwr.fgrQueue &&& ~~~ m } }

/-- CLUSTER_GATE: ARG0 to ARG3 the mask, ARG4 on or off, expert ARG5 the stagger (argument places: log 13). A partition's mailbox gates
its own clusters only (R144). -/
def execClusterGate (n : Fin 16) (s : State) : Result :=
  .next (command 0x0A21 n.val
    (fun s m =>
      { notPermitted := failIf (!s.windsockOwns
          || (mbxPart s n.val ≠ 0 && (maskList (maskArg m)).any fun c => clusterPart s c ≠ mbxPart s n.val)) 0
        badArg := failIf (2 ≤ m.arg 4 || (m.exp && (m.arg 5 = 0 || 4 < m.arg 5)) || (maskArg m &&& s.store.harvestCl) != 0
          || (maskList (maskArg m)).any fun c => s.unitSt 0x01 c = .inService) 0 })
    (fun s m =>
      let k := maskArg m
      let s1 := { s with pwr := { s.pwr with stagger := if m.exp then m.arg 5 else 4 } }
      if m.arg 4 = 1 then
        let s2 := fgrTurnOn k s1
        if fgrSettled s2 k then replyDone n.val [] [] s2 else setAwait n.val (.clusterGate k) s2
      else replyDone n.val [] [] (gateDone (gateOff k s1))) s)

/-! ## Droops (R89) -/

/-- The tile stage: level 4 on the tile, with a DROOP_TILE record at most every 10 ms. -/
def droopTileOn (q : Nat) (s : State) : State :=
  logLimited 10000000 .info 0x0A33 0x09 q [q] .none { s with pwr := { s.pwr with droopTile := setBit s.pwr.droopTile q true } }

/-- The cluster stage, and the tile stage after four clusters of one tile within 1 µs. -/
def execDroopCluster (cluster : Fin 128) (s : State) : Result :=
  .next (if s.pwr.fgrOn.getLsbD cluster.val then
      let q := tileOf cluster.val
      let l := (s.now, cluster.val) :: s.pwr.droopTimes.filter fun e => s.now < e.1 + 1000 ∧ e.2 ≠ cluster.val
      let s1 := { s with pwr := { s.pwr with droopTimes := l, droopPause := setBit s.pwr.droopPause cluster.val true } }
      if 4 ≤ l.countP (fun e => tileOf e.2 = q) then droopTileOn q s1 else s1
    else s)

/-- 200 ns after recovery the pause sideband is released. -/
def execDroopClusterRelease (cluster : Fin 128) (s : State) : Result :=
  .next { s with pwr := { s.pwr with droopPause := setBit s.pwr.droopPause cluster.val false } }

/-- A cluster droop has lasted 1 µs. -/
def execDroopTileOneCluster (cluster : Fin 128) (s : State) : Result :=
  .next (if s.pwr.droopPause.getLsbD cluster.val then droopTileOn (tileOf cluster.val) s else s)

/-- 100 µs after the last trigger the tile stage ends. -/
def execDroopTileExpiry (tile : Fin 4) (s : State) : Result :=
  .next { s with pwr := { s.pwr with droopTile := setBit s.pwr.droopTile tile.val false } }

/-- The on-die rail sense lies 6 % or more below its setpoint. -/
def execDroopRail (s : State) : Result := .next (if s.released then droopRail s else s)

/-- A 100 µs tick after the rail has recovered. -/
def execDroopRailDecay (s : State) : Result := .next { s with pwr := { s.pwr with droopRail := s.pwr.droopRail - 1 } }

/-! ## The sequencer lease, the watchdog and warden resets (R90, R98, R140, R512) -/

/-- Windsock renews its lease for 10 ms. -/
def execSequencerLeaseRenew (s : State) : Result :=
  .next (if s.windsockOwns && !s.pins.coreHalt then { s with aon := { s.aon with lease := some (s.now + 10000000) } } else s)

/-- The lease expires: a takeover. -/
def execSequencerLeaseExpiry (s : State) : Result := .next (if s.windsockOwns then takeover 0 s else s)

/-- Firmware kicks the watchdog; halted cores do not (R185). -/
def execWatchdogKick (s : State) : Result :=
  .next (if s.pins.coreHalt then s else { s with aon := { s.aon with wdogKick := s.now } })

/-- The watchdog trips: WDOG is set, and Windsock loses the sequencer; where it does not own it, the mailbox hardware still does
what R162 says of a trip. -/
def execWatchdogTrip (s : State) : Result :=
  let t := { s with aon := { s.aon with wdog := true } }
  .next (if s.windsockOwns then takeover 1 t else mailboxTakeover t)

/-- Windsock raises a FATAL event. -/
def execFirmwareFatal (s : State) : Result := .next (if s.windsockOwns then takeover 3 s else s)

/-- The warden core raises the reset it waits for (R107, R115, R512). -/
def execWardenReset (s : State) : Result :=
  .next (if s.start.wardenAt.isSome && s.released && !s.clk.backup && !s.haltLatched then beginStart (packageReset 4 s) else s)

/-! ## Power commands (R93, Table CP-12) -/

/-- A 16-bit value as two bytes. -/
def le16 (x : Nat) : List Byte := leBytes 2 x

/-- PWR_STATUS: the three registers; DATA holds the last sweep, 16 bits a channel, then in the expert form each VPM's status
word (layout: log 13). No frame of the spec reads VPM0's word: it is a free value (log 147). -/
def execPwrStatus (n : Fin 16) (s : State) : Result :=
  .next (command 0x0A20 n.val noChecks
    (fun s m =>
      let w := takeFree s
      replyDone n.val [(aonPwr s).toNat, (aonClkstat s).toNat, (aonRstcause s).toNat]
        (allChannels.flatMap (fun c => le16 (s.rail c.1 c.2).amps)
          ++ if m.exp then le16 (w.1.toNat % 64) ++ (List.range 8).flatMap (fun v => le16 (s.rail (v + 1) 0).status) else [])
        (if m.exp then w.2 else s)) s)

/-- R74: new shares are multiples of 10 W from 160 W to 320 W that add up to 960 W. -/
def sharesOk (l : List Nat) : Bool := l.all (fun w => 160 ≤ w && w ≤ 320 && w % 10 = 0) && l.sum = 960

/-- TILE_BUDGET: reads the shares; the expert form sets them from ARG0 to ARG3 (NOT_PERMITTED under warden ownership: log 148). -/
def execTileBudget (n : Fin 16) (s : State) : Result :=
  .next (command 0x0A22 n.val
    (fun s m => { notPermitted := failIf (m.exp && !s.windsockOwns) 0
                  badArg := failIf (m.exp && !sharesOk [m.arg 0, m.arg 1, m.arg 2, m.arg 3]) 0 })
    (fun s m =>
      if !m.exp then replyDone n.val s.pwr.shares.toList [] s
      else askRailChange (PwrChange.shares n.val [m.arg 0, m.arg 1, m.arg 2, m.arg 3]) (setAwait n.val .tileBudget s)) s)

end Sys2Proof.Machine
end

