-- ==== Sys2Proof/Machine/Tile.lean ====
section
/-!
DEFINITION. The tile bond: negotiation, training, lane repair, bond faults and TILE_VOLTAGE (spec/10_tile_bond.md R252 to R278).
SLICE_STREAM_COMMAND stands in Slices.lean.
-/
namespace Sys2Proof.Machine

/-! ## Places -/

/-- The record of a tile. -/
def State.tile (s : State) (q : Fin 4) : TileRec := s.bond.tiles[q]
/-- Change the record of a tile. -/
def modTile (q : Fin 4) (f : TileRec → TileRec) (s : State) : State :=
  { s with bond := { s.bond with tiles := s.bond.tiles.set q (f s.bond.tiles[q]) } }
/-- A bond port. -/
def State.port (s : State) (c : Nat) : BondPort := Tab.get {} s.bond.ports c
/-- Change a bond port. -/
def modPort (c : Nat) (f : BondPort → BondPort) (s : State) : State :=
  { s with bond := { s.bond with ports := Tab.mod {} s.bond.ports c f } }
/-- R23, R264: the cluster at local index i of tile q, whose orientation code is its number. -/
def localCluster (q i : Nat) : Nat := clusterAt q (i % 8) (i / 8 % 4)
/-- The local index of a cluster. -/
def localIndex (c : Nat) : Nat := ((List.range 32).find? fun i => localCluster (tileOf c) i = c).getD 0
/-- The clusters that local indices name. -/
def clustersOf (q : Nat) (m : BitVec 32) : BitVec 128 :=
  (List.range 32).foldl (fun x i => if m.getLsbD i then setBit x (localCluster q i) true else x) 0
/-- The tile that a number below 4 names. -/
def tileIdx (q : Nat) : Fin 4 := ⟨q % 4, Nat.mod_lt _ (by decide)⟩

/-! ## Fault masks (R271 to R273) -/

/-- The fault mask of a bundle that the assembly and learned lane maps give. -/
def mapMask (s : State) (c site : Nat) : BitVec 36 :=
  (s.store.laneAsm ++ s.store.laneLearned.map Prod.fst).foldl
    (fun m e => if e.1 = c ∧ e.2.1 = site then setBit m e.2.2 true else m) 0
/-- R272: a bundle with a fault mask is usable. -/
def bundleUsable (f : BitVec 36) : Bool := popcount (f &&& 0x3FFFFFFFF) ≤ 2 && !(f.getLsbD 34 && f.getLsbD 35)
/-- R272: the positions of the logical data lanes 0 to 31 of a bundle, and of its strobe. -/
def bundleMap (f : BitVec 36) : List Nat × Nat := (((List.range 34).filter fun p => !f.getLsbD p).take 32, if f.getLsbD 34 then 35 else 34)
/-- R272, R255: every sideband signal keeps two good copies, and one of its clock copies. -/
def sidebandUsable (f : BitVec 36) : Bool :=
  (List.range 6).all (fun k => (b2n (f.getLsbD (3 * k)) + b2n (f.getLsbD (3 * k + 1)) + b2n (f.getLsbD (3 * k + 2))) ≤ 1)
    && !(f.getLsbD 18 && f.getLsbD 19)
/-- R274: every bundle of a port is usable and its sideband has its majorities. -/
def masksOk (p : BondPort) : Bool :=
  (List.range 58).all (fun k => bundleUsable (Tab.get 0 p.masks k)) && sidebandUsable (Tab.get 0 p.masks 58)

/-- The masks that the maps give a port. -/
def mapMasks (s : State) (c : Nat) : Tab (BitVec 36) :=
  (List.range 59).foldl (fun t k => Tab.put 0 t k (mapMask s c k)) []

/-- Merge the faults of a test into the masks. -/
def mergeFaults (l : List (Nat × Nat)) (t : Tab (BitVec 36)) : Tab (BitVec 36) :=
  l.foldl (fun t e => Tab.mod 0 t e.1 fun m => setBit m e.2 true) t

/-- R273: a new fault enters the learned lane map, or counts for this start only with LANEMAP_FULL. -/
def learnFault (c : Nat) (e : Nat × Nat) (s : State) : State :=
  if (mapMask s c e.1).getLsbD e.2 then s
  else if 1024 ≤ s.store.laneLearned.length || s.regionRo 4 then logUe .operation 0x0A56 0x01 c [e.1, e.2] s
  else { s with store := { s.store with laneLearned := s.store.laneLearned ++ [((c, e.1, e.2), 0)] } }
/-- Learn several faults. -/
def learnAll (c : Nat) : List (Nat × Nat) → State → State
  | [], s => s
  | e :: t, s => learnAll c t (learnFault c e s)

/-- R273: an entry whose lane has passed the start test at eight starts in a row leaves the learned map; a fault starts its
count again. -/
def agedEntry (c : Nat) (faults : List (Nat × Nat)) (e : (Nat × Nat × Nat) × Nat) : Option ((Nat × Nat × Nat) × Nat) :=
  if e.1.1 ≠ c then some e
  else if faults.any fun f => f.1 = e.1.2.1 && f.2 = e.1.2.2 then some (e.1, 0)
  else if 7 ≤ e.2 then none
  else some (e.1, e.2 + 1)

/-- The sites of a list of faults, each once. -/
def faultSites (l : List (Nat × Nat)) : List Nat := (l.map Prod.fst).eraseDups

/-- R278: a record for each bundle whose mapping changes, or that is no longer usable; the sideband site is no bundle. -/
def spareNotes (c : Nat) (before after : Tab (BitVec 36)) : List Nat → State → State
  | [], s => s
  | k :: t, s =>
    spareNotes c before after t
      (if k = 58 || Tab.get 0 before k = Tab.get 0 after k then s
       else if bundleUsable (Tab.get 0 after k) then
        (if bundleMap (Tab.get 0 before k) = bundleMap (Tab.get 0 after k) then s else logInfo 0x0A52 0x01 c [c, k, (Tab.get 0 after k).toNat] s)
       else logUe .unit 0x0A53 0x01 c [c, k, (Tab.get 0 after k).toNat] s)

/-! ## Negotiation (R264 to R267) -/

/-- A field of the capability record. -/
def capField (cap : List Byte) (off n : Nat) : Nat := leAt cap off n

/-- R267 step 4: the valid clock pairs, BDIV 1 before BDIV 2. -/
def clockPairs (cap : List Byte) : List (Nat × Nat) :=
  ([1, 2] : List Nat).filterMap fun d =>
    let f := min (min (capField cap 16 2) 3000) (2400 * d)
    if capField cap 20 1 / d % 2 = 1 ∧ capField cap 18 2 ≤ f ∧ 1000 * d ≤ f then some (f, d) else none

/-- The pair with the highest clock; on equal clocks the smaller divider. -/
def bestPair : List (Nat × Nat) → Option (Nat × Nat)
  | [] => none
  | p :: t => match bestPair t with
    | none => some p
    | some q => if p.1 < q.1 then some q else some p

/-- R267: the profile that firmware builds, or the reason of TILE_FAIL. -/
def negotiate (q : Nat) (cap : List Byte) (harvest : BitVec 128) (share : Nat) : Except Nat TileProfile :=
  let vmin := max (capField cap 22 2) 600
  let vmax := min (capField cap 24 2) 1000
  if cap.length ≠ 64 ∨ capField cap 0 2 ≠ 0x7442 ∨ crc32c (cap.take 60) ≠ capField cap 60 4 then .error 1
  else if 1 < capField cap 4 1 ∨ capField cap 2 1 < 1 then .error 2
  else if capField cap 5 1 ≠ q then .error 3
  else if capField cap 32 4 &&& 0x2F ≠ 0x2F then .error 4
  else
    match bestPair (clockPairs cap) with
    | none => .error 5
    | some (f, d) =>
      if vmax < vmin then .error 6
      else .ok { bdiv := d, f := f, vdef := max vmin (min (capField cap 26 2) vmax), vmin := vmin, vmax := vmax, share := share
                 feat := BitVec.ofNat 32 (capField cap 32 4 &&& 0x3F)
                 clusters := (List.range 32).foldl (fun m i =>
                   if capField cap 12 4 / 2 ^ i % 2 = 1 ∧ !harvest.getLsbD (localCluster q i) then setBit m i true else m) 0 }

/-- Table TB-8: the 32 bytes of an agreed profile. -/
def profileBytes (p : TileProfile) : List Byte :=
  let b := leBytes 2 0x7450 ++ [1, 0] ++ leBytes 1 p.bdiv ++ [0] ++ leBytes 2 p.f ++ leBytes 2 p.vdef ++ leBytes 2 p.vmin
    ++ leBytes 2 p.vmax ++ leBytes 2 p.share ++ leBytes 4 p.feat.toNat ++ leBytes 4 p.clusters.toNat ++ leBytes 4 0
  b ++ leBytes 4 (crc32c b)

/-- R275: a tile fails: TILE_FAIL with the reason, its ports are fenced (R84), its regulators stay off, VDD_TILEq goes OFF. -/
def tileFail (q : Fin 4) (reason : Nat) (s : State) : State :=
  let k := tileMask q.val
  let s1 := logUe .unit 0x0A51 0x09 q.val [reason] (closePorts (maskList k) (modTile q (fun t => { t with fail := reason }) s))
  pushFrame (offFrame .fence (2 + q.val, 0))
    { s1 with pwr := { s1.pwr with fgrOn := s1.pwr.fgrOn &&& ~~~ k, fgrRamp := s1.pwr.fgrRamp &&& ~~~ k, fgrQueue := s1.pwr.fgrQueue &&& ~~~ k } }

/-- A tile is in training: PH_TRAIN runs and the tile has not failed. -/
def tileTraining (s : State) (q : Fin 4) : Bool :=
  s.aon.phase = .train && s.aon.startSt ≠ .failed && (s.tile q).fail = 0 && s.released

/-- GET_CAP is answered: firmware negotiates, and sends the agreed profile or fails the tile. -/
def execGetCap (tile : Fin 4) (cap : List Byte) (s : State) : Result :=
  .next (if tileTraining s tile && (s.tile tile).step = 0 then
      match negotiate tile.val cap s.store.harvestCl s.pwr.shares[tile] with
      | .error r => tileFail tile r (modTile tile (fun t => { t with cap := cap }) s)
      | .ok p => send (.tcc tile.val 2 ((profileBytes p).map BitVec.toNat))
          (modTile tile (fun t => { t with cap := cap, prof := some p, step := 1 }) s)
    else s)

/-- R266, R267: PUT_PROFILE ends: the tile rail goes to V_DEF. -/
def execPutProfile (tile : Fin 4) (s : State) : Result :=
  .next (match (s.tile tile).prof with
    | some p =>
      if tileTraining s tile && (s.tile tile).step = 1 then
        askRailChange (.volt none (2 + tile.val) p.vdef) (modTile tile (fun t => { t with step := 2 }) s)
      else s
    | none => s)

/-- VDD_TILEq is on its way to a setpoint that training asked for (R267). -/
def tileRailMoves (s : State) (tile : Fin 4) : Bool :=
  s.pwr.changes.any fun c => match c with
    | .volt none v _ => v = 2 + tile.val
    | .volt (some _) _ _ | .shares _ _ => false
/-- TRAIN_CTL: a training control goes to the tile; CLOCK_GO starts its clock once its rail stands at V_DEF. -/
def execTrainCtl (tile : Fin 4) (clockGo : Bool) (s : State) : Result :=
  .next (if tileTraining s tile && (2 ≤ (s.tile tile).step && !(clockGo && tileRailMoves s tile)) then
      send (.tcc tile.val 4 [b2n clockGo]) (if clockGo then modTile tile (fun t => { t with step := 4 }) s else s)
    else s)

/-- R256, Table TB-12: TCLKq lies within 1 % of the agreed clock: TCLK_OK is set, and in training the regulators of the
CLUSTERS_EN clusters turn on. -/
def execTclkOk (tile : Fin 4) (s : State) : Result :=
  .next (match (s.tile tile).prof with
    | none => s
    | some p =>
      if (s.tile tile).step < 4 then s
      else
        let s1 := { s with clk := { s.clk with tclk := setBit s.clk.tclk tile.val true } }
        if tileTraining s tile && (s.tile tile).step = 4 then
          fgrTurnOn (clustersOf tile.val p.clusters) (modTile tile (fun t => { t with step := 5 }) s1)
        else s1)

/-- The entries of both lane maps for a tile, one word each (R271). -/
def laneWords (s : State) (tile : Fin 4) : List Nat :=
  (s.store.laneAsm ++ s.store.laneLearned.map Prod.fst).filterMap fun e =>
    if tileOf e.1 = tile.val then some (e.1 * 8192 + e.2.1 * 128 + e.2.2 * 2 + 1) else none
/-- PUT_LANEMAP: the tile's entries go out, and the CRC-32C of the record (R265). -/
def execPutLanemap (tile : Fin 4) (s : State) : Result :=
  .next (if 5 ≤ (s.tile tile).step then
      send (.tcc tile.val 3 (laneWords s tile ++ [crc32c ((laneWords s tile).flatMap (leBytes 4))])) s
    else s)

/-- GET_STATUS is answered. -/
def execGetStatus (tile : Fin 4) (status : Word) (s : State) : Result :=
  .next (modTile tile (fun t => { t with status := some status }) s)

/-- R275: 40 ms have passed. -/
def execTileTrainTimeout (tile : Fin 4) (s : State) : Result :=
  .next (if tileTraining s tile then tileFail tile 8 s else s)

/-! ## Ports in training and probation (R273 to R275, R278) -/

/-- The port of a cluster is under test: its regulator is on and its cluster is in probation. -/
def portTested (s : State) (c : Nat) : Bool := s.pwr.fgrOn.getLsbD c && s.unitSt 0x01 c = .probation

/-- CRDY rises. -/
def execCrdyRise (cluster : Fin 128) (s : State) : Result :=
  .next (if (s.port cluster.val).prst && s.pwr.fgrOn.getLsbD cluster.val then modPort cluster.val (fun p => { p with crdy := true }) s else s)

/-- A port is not in service for this start: its cluster's regulator goes off and its local port stays fenced (R274). -/
def portOut (c : Nat) (s : State) : State :=
  setUnitSt 0x01 c .absent
    { modPort c (fun p => { p with prst := false, crdy := false, fence := true, ready := false }) s with
      pwr := { s.pwr with fgrOn := setBit s.pwr.fgrOn c false } }

/-- R274: CRDY has not risen within 100 µs of PRST_N. -/
def execCrdyTimeout (cluster : Fin 128) (s : State) : Result :=
  .next (if portTested s cluster.val && (s.port cluster.val).prst && !(s.port cluster.val).crdy then portOut cluster.val s else s)

/-- The port of a cluster ends its retest: it is ready when R274 holds, and otherwise out. -/
def judgePort (c : Nat) (clean : Bool) (s : State) : State :=
  let p := s.port c
  if clean && (!p.identBad && (masksOk p && p.crdy)) then modPort c (fun p => { p with ready := true }) s else portOut c s

/-- R264, R273, Table TB-12: a lane test of a port ends: `step` 7 alignment and identity, 8 static patterns, 9 PRBS-31, 11 re-verify.
`ident` is the local cluster index that the first up frame carried: one that does not name the port's node fails the tile in training
with ORIENT, and elsewhere the port. -/
def execLaneTestDone (cluster : Fin 128) (step : Fin 12) (ident : Fin 32) (faults : List (Fin 59 × Fin 36)) (s : State) : Result :=
  let c := cluster.val
  let l := faults.map fun e => (e.1.val, e.2.val)
  let q : Fin 4 := Fin.ofNat 4 (tileOf c)
  let wrong := localCluster q.val ident.val ≠ c
  .next (if !portTested s c then s
    else if step.val = 7 && (wrong && tileTraining s q) then tileFail q 3 s
    else if step.val = 11 then judgePort c l.isEmpty (modPort c (fun p => { p with step := 11 }) s)
    else if step.val ≠ 7 && step.val ≠ 8 && step.val ≠ 9 then s
    else
      let before := mapMasks s c
      let found := (if (s.port c).step < 7 then l else (s.port c).found ++ l).eraseDups
      let after := mergeFaults l (if (s.port c).step < 7 then before else (s.port c).masks)
      let s1 := modPort c (fun p => { p with step := step.val, identBad := p.identBad || (step.val = 7 && wrong), found := found, masks := after }) s
      if step.val = 9 then
        let s2 := spareNotes c before after (faultSites found) s1
        learnAll c found { s2 with store := { s2.store with laneLearned := s2.store.laneLearned.filterMap (agedEntry c found) } }
      else s1)

/-! ## Bond faults in service (R255, R259, R260, R278) -/

/-- A port that leaves service: FENCE is raised, the cluster is fenced. -/
def bondFence (c trigger : Nat) (s : State) : State := fenceUnit 0x01 c trigger s

/-- CERR_N falls. -/
def execCerrN (cluster : Fin 128) (s : State) : Result :=
  .next (if carrying s 0x01 cluster.val then
      bondFence cluster.val 0x0A58 (logUe .unit 0x0A58 0x01 cluster.val [0] (modPort cluster.val (fun p => { p with cerr := true }) s))
    else s)

/-- CRDY falls while PRST_N and PG are high. -/
def execCrdyFall (cluster : Fin 128) (s : State) : Result :=
  .next (if carrying s 0x01 cluster.val && ((s.port cluster.val).prst && s.pwr.fgrOn.getLsbD cluster.val) then
      bondFence cluster.val 0x0A58 (logUe .unit 0x0A58 0x01 cluster.val [1] (modPort cluster.val (fun p => { p with crdy := false }) s))
    else s)

/-- R260: the port rewrites SRC and PART of a flit. -/
def rewriteFlit (s : State) (c : Nat) (sb : BitVec 64) : BitVec 64 :=
  (sb &&& ~~~ (0xFC3F80 : BitVec 64)) ||| BitVec.ofNat 64 (c * 2 ^ 7 + clusterPart s c * 2 ^ 18)

/-- R260: the port rewrites NODE and SLOT of a Lull message; the router stamps EPOCH. -/
def rewriteLull (s : State) (c : Nat) (w : BitVec 64) : BitVec 64 :=
  setBit ((w &&& ~~~ (0xFFC0000 : BitVec 64)) ||| BitVec.ofNat 64 (c * 2 ^ 18 + s.aon.slot.val * 2 ^ 25)) 31 (s.routerPar c)
/-- R260: the port rewrites SRC and SRCPORT of a Breeze header. -/
def rewriteBreeze (c : Nat) (w : BitVec 64) : BitVec 64 :=
  (w &&& ~~~ (0x7F80 : BitVec 64)) ||| BitVec.ofNat 64 (c * 2 ^ 7)

/-- The flits of one class and lane that wait in a port. -/
def fifoCount (p : BondPort) (sb : BitVec 64) : Nat := p.fifo.countP fun e => sbVc e.1 = sbVc sb && bit e.1 17 = bit sb 17

/-- R259, R201: the flits that wait in a port go into the mesh while the source's limit allows. -/
def drainPort (c : Nat) : List (BitVec 64 × List Byte) → State → State
  | [], s => s
  | e :: t, s =>
    if sbVc e.1 ≠ 0 && 64 < inFlight s c 4 (sbVc e.1) + flitsOf e.2 then
      drainPort c t (modPort c (fun p => { p with fifo := p.fifo ++ [e] }) s)
    else drainPort c t (injectPacket c 4 e.1 e.2 s)

/-- Drain the FIFO of a port. -/
def drainFifo (c : Nat) (s : State) : State := drainPort c (s.port c).fifo (modPort c (fun p => { p with fifo := [] }) s)

/-- R209, R259: the Breeze messages that wait in a port go into the mesh, in their order, while its source has credits. -/
def drainBreeze (c : Nat) : List BreezeMsg → State → State
  | [], s => s
  | m :: t, s =>
    let r := injectBreeze m s
    if r.1 then drainBreeze c t r.2 else modPort c (fun p => { p with breeze := m :: t }) r.2
/-- The same for a port. -/
def drainBreezePort (c : Nat) (s : State) : State := drainBreeze c (s.port c).breeze (modPort c (fun p => { p with breeze := [] }) s)
/-- The ports in which messages wait. -/
def drainBreezes : List Nat → State → State
  | [], s => s
  | c :: t, s => drainBreezes t (drainBreezePort c s)
/-- The ports in which flits wait. -/
def drainFifos : List Nat → State → State
  | [], s => s
  | c :: t, s => drainFifos t (drainFifo c s)
/-- What happens in a cycle without a command: time passes, Breeze moves, and the ports inject what waited for credits. -/
def idle (s : State) : State :=
  let t := bankCycle (drainGusts (breezeCycle (tick s)))
  drainFifos ((t.bond.ports.filter fun e => !e.2.fifo.isEmpty).map Prod.fst)
    (drainBreezes ((t.bond.ports.filter fun e => !e.2.breeze.isEmpty).map Prod.fst) t)

/-- Bytes cut or filled with zeros to a length. -/
def fillTo (n : Nat) (l : List Byte) : List Byte := l.take n ++ List.replicate (n - l.length) 0
/-- The frames that a run of data takes. -/
def frameLen (f : BondFrame) : Nat :=
  match f.chan with
  | .gale => flitsOf f.data
  | .slice => if f.cmd then 1 else max 1 (ceilDiv f.data.length 64)
  | .breeze | .lull => 1
/-- Table TB-5: the bytes of frame `j` below its FCRC. -/
def frameBytes (f : BondFrame) (j : Nat) : List Byte :=
  match f.chan with
  | .gale => fillTo 128 (f.data.drop (128 * j))
      ++ leBytes 8 ((f.sb &&& ~~~ (0x3F000000 : BitVec 64)) ||| BitVec.ofNat 64 (j * 2 ^ 24 + b2n (j + 1 = frameLen f) * 2 ^ 29)).toNat
      ++ leBytes 2 (f.check.getD j 0).toNat ++ leBytes 4 (b2n f.valid + 2 * f.crd.toNat)
  | .breeze => leBytes 4 f.sb.toNat ++ fillTo 16 f.data ++ leBytes 2 (b2n f.valid + 2 * (f.crd.toNat % 4))
  | .lull => leBytes 8 f.sb.toNat ++ leBytes 6 (b2n f.valid + 2 * (f.crd.toNat % 2))
  | .slice => (if f.cmd then fillTo 64 (leBytes 8 f.sb.toNat) else fillTo 64 (f.data.drop (64 * j)))
      ++ leBytes 6 (b2n f.valid + 2 * b2n f.cmd + 4 * f.sid.val + 64 * f.crd.toNat)
/-- The FCRC of every frame. -/
def frameCrcs (f : BondFrame) : List (BitVec 16) := (List.range (frameLen f)).map fun j => BitVec.ofNat 16 (crc16 (frameBytes f j))
/-- Every FCRC is right. -/
def bondCrcOk (f : BondFrame) : Bool := f.fcrc = frameCrcs f

/-- An uncorrectable frame: a Gale request receives an error response, a slice stream ends with SLICE_UE, and a second within
1 ms fences the port. -/
def badFrame (c : Nat) (f : BondFrame) (s : State) : State :=
  let p := s.port c
  let again := p.lastUe.elim false fun t => s.now < t + 1000000
  let s1 := match f.chan with
    | .gale => if f.valid && sbRequest f.sb then errorResponse c (sbTag f.sb) s else s
    | .slice =>
      if (p.streams.any fun e => e.1 = f.sid.val) then
        send (.flit c "slice end" [f.sid.val, 2]) (modPort c (fun p => { p with streams := Tab.del p.streams f.sid.val }) s)
      else s
    | .breeze | .lull => s
  let s2 := modPort c (fun p => { p with lastUe := some s.now }) s1
  if again then bondFence c 0x0A55 (logUe .unit 0x0A55 0x01 c [c] s2) else logUe .operation 0x0A55 0x01 c [c] s2

/-- A frame that the flit check corrects: more than 1,000 in 1 s fence the port. -/
def correctedFrame (c : Nat) (s : State) : State :=
  let p := s.port c
  let fresh := p.ceStart + 1000000000 ≤ s.now
  let n := if fresh then 1 else p.ceCount + 1
  let s1 := modPort c (fun p => { p with ceStart := if fresh then s.now else p.ceStart, ceCount := n }) s
  if 1000 < n then bondFence c 0x0A55 (logUe .unit 0x0A55 0x01 c [c] s1)
  else logLimited 10000000 .ce 0x0A54 0x01 c [c] .none s1

/-- A slice stream ends with a result frame: 0 OK, 1 WINDOW, 2 SLICE_UE (R261). -/
def endStream (c sid result : Nat) (s : State) : State :=
  send (.flit c "slice end" [sid, result]) (modPort c (fun p => { p with streams := Tab.del p.streams sid }) s)

/-- R261: data of a WRITE stream reaches the slice; the stream ends when all of it has arrived or a word refuses it. -/
def streamWrite (c sid : Nat) (x : SliceStream) (data : List Byte) (s : State) : State :=
  let b := data.take (x.len * 64)
  let n := b.length / 64
  let r := memWrite (sliceBase + c * 2 ^ 22 + x.off * 64) (b.take (n * 64)) s
  if !r.1 then endStream c sid 2 r.2
  else if x.len ≤ n then endStream c sid 0 r.2
  else modPort c (fun p => { p with streams := Tab.ins p.streams sid { x with off := x.off + n, len := x.len - n } }) r.2

/-- A frame of slice data belongs to the WRITE stream of its SID; without one it is discarded. -/
def sliceData (c sid : Nat) (data : List Byte) (s : State) : State :=
  match (s.port c).streams.find? fun e => e.1 = sid with
  | some (_, x) => if x.write then streamWrite c sid x data s else s
  | none => s

/-! ### Stream commands (R261) -/

/-- OP of a stream command. -/
def cmdOp (w : BitVec 64) : Nat := fld w 0 2
/-- OFFSET, in 64-byte units. -/
def cmdOff (w : BitVec 64) : Nat := fld w 16 16
/-- LEN, in 64-byte units. -/
def cmdLen (w : BitVec 64) : Nat := fld w 32 13
/-- The command is one that R261 lays out: OP READ or WRITE, LEN 1 to 4,096, OFFSET inside the slice, every other bit 0. -/
def cmdLegal (w : BitVec 64) : Bool :=
  (cmdOp w = 1 || cmdOp w = 2) && (fld w 2 14 = 0 && (fld w 45 19 = 0 && (1 ≤ cmdLen w && (cmdLen w ≤ 4096 && cmdOff w < 49152))))
/-- The stream lies inside the cluster window. -/
def inWindow (p : BondPort) (off len : Nat) : Bool := p.winBase ≤ off && off + len ≤ p.winBase + p.winLen
/-- Serve a READ stream: its data, or SLICE_UE. -/
def serveRead (c sid off len : Nat) (s : State) : State :=
  let r := memRead (sliceBase + c * 2 ^ 22 + off * 64) (len * 64) s
  match r.1 with
  | none => endStream c sid 2 r.2
  | some b => endStream c sid 0 (send (.flit c "slice data" (sid :: b.map BitVec.toNat)) r.2)
/-- A stream command of a cluster; `data` is what of a WRITE follows at once, the rest coming in frames of its SID. A command that R261 does
not lay out, or on a SID that is open, is discarded (DESIGN CHOICE, log 27). -/
def openStream (c sid : Nat) (cmd : BitVec 64) (data : List Byte) (s : State) : State :=
  if !cmdLegal cmd || ((s.port c).streams.any fun e => e.1 = sid) then s
  else if !inWindow (s.port c) (cmdOff cmd) (cmdLen cmd) then endStream c sid 1 s
  else
    let x : SliceStream := { write := cmdOp cmd = 2, off := cmdOff cmd, len := cmdLen cmd }
    let s1 := modPort c (fun p => { p with streams := Tab.ins p.streams sid x }) s
    if x.write then streamWrite c sid x data s1 else serveRead c sid x.off x.len s1

/-- A frame passes into the node. -/
def acceptFrame (c : Nat) (f : BondFrame) (s : State) : State :=
  match f.chan with
  | .gale =>
    if 4 ≤ fifoCount (s.port c) f.sb then bondFence c 0x0A59 (logUe .unit 0x0A59 0x01 c [c] s)
    else drainFifo c (modPort c (fun p => { p with fifo := p.fifo ++ [(rewriteFlit s c f.sb, f.data)] }) s)
  | .breeze =>
    if 8 ≤ (s.port c).breeze.length then bondFence c 0x0A59 (logUe .unit 0x0A59 0x01 c [c] s)
    else drainBreezePort c (modPort c (fun p => { p with breeze := p.breeze ++ [{ src := 2 * c, hdr := rewriteBreeze c f.sb, body := f.data.take 16 }] }) s)
  | .lull => if fld f.sb 0 4 = 15 then s else lullMessage (rewriteLull s c f.sb) s
  | .slice => if f.cmd then openStream c f.sid.val f.sb [] s else sliceData c f.sid.val f.data s

/-- A bond frame arrives. -/
def execBondFrame (cluster : Fin 128) (f : BondFrame) (s : State) : Result :=
  let c := cluster.val
  .next (if !carrying s 0x01 c then s
    else
      let s1 := if f.vote then logLimited 10000000 .ce 0x0A57 0x01 c [c] .none s else s
      if bondCrcOk f then (if f.valid then acceptFrame c f s1 else s1)
      else if f.chan = .gale && f.fixed then
        let s2 := correctedFrame c s1
        if f.valid && carrying s2 0x01 c then acceptFrame c f s2 else s2
      else badFrame c f s1)

/-! ## TILE_VOLTAGE (R93) -/

/-- The setpoint that TILE_VOLTAGE asks for: V_DEF, or ARG1 in the expert form. -/
def voltArg (s : State) (m : Mbx) : Option Nat :=
  match (s.tile (tileIdx (m.arg 0))).prof with
  | none => none
  | some p =>
    if m.exp then (if p.vmin ≤ m.arg 1 ∧ m.arg 1 ≤ p.vmax ∧ 600 ≤ m.arg 1 ∧ m.arg 1 ≤ 1000 then some (m.arg 1) else none)
    else some p.vdef

/-- TILE_VOLTAGE: ARG0 the tile; DONE when the change is complete. -/
def execTileVoltage (n : Fin 16) (s : State) : Result :=
  .next (command 0x0A23 n.val
    (fun s m =>
      { notPermitted := failIf (!s.windsockOwns) 0
        badArg := failIf (4 ≤ m.arg 0 || (voltArg s m).isNone) 0 })
    (fun s m =>
      match voltArg s m with
      | none => s
      | some mv => askRailChange (.volt (some n.val) (2 + m.arg 0) mv) (setAwait n.val .tileVoltage s)) s)

/-- R268: measurement block 10: the capability records and profiles in tile order, an absent record as 64 zero bytes. -/
def tileMeasure (s : State) : BitVec 384 :=
  let caps := s.bond.tiles.toList.flatMap fun t => if t.cap.isEmpty then List.replicate 64 (0 : Byte) else t.cap
  let profs := s.bond.tiles.toList.flatMap fun t => t.prof.elim [] profileBytes
  Config.sha384 (caps ++ profs)

/-- R268: every tile that a mask of clusters touches runs with CT_MODE. -/
def ctModeOk (s : State) (m : BitVec 128) : Bool :=
  (List.finRange 4).all fun q => (m &&& tileMask q.val) = 0 || (s.tile q).prof.elim false fun p => p.feat.getLsbD 4

end Sys2Proof.Machine
end

