-- ==== Sys2Proof/Machine/Mee.lean ====
section
/-!
DEFINITION. Sealed sessions, MEE doorbells, exchanges, the refresh macro, the DRBG
(spec/16_sealed_arithmetic_crosswind.md R416 to R437, R448).
-/
namespace Sys2Proof.Machine

/-! ## What the commands of area 0x06 share -/

/-- The arguments that a sub-command does not use are 0. -/
def argsZero (m : Mbx) (used : List Nat) : Option Nat := failIf (!(List.range 10).all fun i => i ∈ used || m.arg i = 0) 0
/-- ARG0[1:0] is SUB; its other bits are 0. -/
def subIs (m : Mbx) (k : Nat) : Bool := m.arg 0 = k

/-! ## Session sizes (R427, R448) -/

/-- The MEE groups in service. -/
def groupsUp (s : State) : List Nat := (List.range 16).filter fun g => carrying s 0x06 g
/-- Every tile runs with an agreed core clock in MHz and divider (Table TB-10). -/
def allTiles (s : State) (f d : Nat) : Bool := s.bond.tiles.toList.all fun t => t.prof.elim false fun p => p.f = f && p.bdiv = d
/-- R448: the default τ in ps: for four Y1 or four Y2 tiles; the spec gives none for other stacks: there it is a free value. -/
def defaultTau (s : State) (n : Nat) : Nat :=
  if allTiles s 2400 1 then 500000 / 2 ^ (17 - n)
  else if allTiles s 3000 2 then 400000 / 2 ^ (17 - n)
  else Config.freeNat s.freeCtr
/-- A turn in ps. -/
def turnPs : Nat := 2048000
/-- t_key in turns, rounded up, for a number of bytes: bytes / (G × 900 GB/s); with no group in service it has no end. -/
def keyTurns (bytes g : Nat) : Option Nat := if g = 0 then none else some (ceilDiv (bytes * 10) (9 * g * turnPs))
/-- W_ks (R427); d (L + K) is d M. -/
def wKs (n m d tau g : Nat) : Option Nat :=
  (keyTurns (16 * d * m * 2 ^ n) g).map fun k => ceilDiv (d * m * tau) turnPs + k + ceilDiv (2 * m * tau) turnPs
/-- L: the most limbs that leave K = M - L of at least ceil(L / D) (DEDUCED, log 36). -/
def limbsL (m d : Nat) : Nat := ((List.range (m + 1)).reverse.find? fun l => ceilDiv l d ≤ m - l).getD 0
/-- W_el (R427). -/
def wEl (n l g : Nat) : Option Nat := keyTurns (48 * l * 2 ^ n) g

/-! ## MEE_PARAMS (R416, R421) -/

/-- The moduli of the command: 8 bytes each. -/
def moduliOf (m : Mbx) : List Nat := (List.range (m.input.length / 8)).map fun i => leAt m.input (8 * i) 8
/-- R416: every modulus is odd and strictly between 2^30 and 2^61; no two are equal. -/
def moduliOk (l : List Nat) : Bool := l.all (fun q => q % 2 = 1 && (2 ^ 30 < q && q < 2 ^ 61)) && decide (l.eraseDups.length = l.length)
/-- τ of the command in ps. -/
def tauOf (s : State) (m : Mbx) : Nat := if m.exp then 1000 * m.arg 5 else defaultTau s (m.arg 2)
/-- The shape of SUB SESSION. -/
def sessionShape (m : Mbx) : Option Nat :=
  firstFail [argsZero m (if m.exp then [0, 1, 2, 3, 4, 5] else [0, 1, 2, 3, 4]),
    failIf (16 ≤ m.arg 1 || (m.arg 2 < 12 || (17 < m.arg 2 || (m.arg 3 = 0 || (64 < m.arg 3 || (m.arg 4 = 0 || (16 < m.arg 4
      || m.input.length ≠ 8 * m.arg 3))))))) 0]
/-- MEE_PARAMS SUB SESSION binds a slot. -/
def execMeeParamsSession (n : Fin 16) (s : State) : Result :=
  .next (commandIf 0x0602 n.val (fun m => subIs m 0)
    (fun s m =>
      { notPermitted := firstFail [needSealed s n.val,
          failIf ((sessionShape m).isNone && (s.prot.sealedP.maxDegree < m.arg 2 || s.prot.sealedP.maxLimbs < m.arg 3)) 0x0601]
        badArg := firstFail [sessionShape m, failIf (!moduliOk (moduliOf m)) 0x0602,
          failIf ((wKs (m.arg 2) (m.arg 3) (m.arg 4) (tauOf s m) (groupsUp s).length).elim true fun w => 97 < w) 0x0605]
        busy := failIf (s.sealedSess (m.arg 1)).isSome 0x0609 })
    (fun s m =>
      let x : SealedSess := { part := mbxPart s n.val, n := m.arg 2, moduli := moduliOf m, d := m.arg 4, tau := tauOf s m }
      replyDone n.val [] [] { s with freeCtr := s.freeCtr + 1, sealed := { s.sealed with sess := (m.arg 1, x) :: s.sealed.sess } }) s)

/-- MEE_PARAMS SUB RING sets the ring of a group of the mailbox's partition; passes under way hold it (BUSY). -/
def execMeeParamsRing (n : Fin 16) (s : State) : Result :=
  .next (commandIf 0x0602 n.val (fun m => subIs m 1)
    (fun s m =>
      { notPermitted := firstFail [needSealed s n.val, failIf (m.arg 1 < 16 && meePart s (m.arg 1) ≠ mbxPart s n.val) 0]
        badArg := firstFail [argsZero m [0, 1, 2, 3], failIf (16 ≤ m.arg 1 || (2 ^ 48 ≤ m.arg64 2 || m.arg64 2 % 4096 ≠ 0)) 0]
        busy := failIf (!(s.mee (m.arg 1)).passes.isEmpty) 0x0609 })
    (fun s m => replyDone n.val [] [] (modMee (m.arg 1) (fun g => { g with set := true, base := m.arg64 2, head := 0, tail := 0 }) s)) s)

/-- A pass, an exchange or a refresh of a session is outstanding. -/
def sessionBusy (s : State) (i : Nat) : Bool :=
  s.sealed.groups.any (fun e => e.2.passes.any fun x => x.desc.sess = i)
    || (s.sealed.exchs.any (fun e => e.2.sess = i) || s.sealed.refreshes.any fun r => r.sess = i)
/-- The slot is bound to the partition of the mailbox. -/
def ownSession (s : State) (n i : Nat) : Bool := (s.sealedSess i).elim false fun x => x.part = mbxPart s n
/-- MEE_PARAMS SUB END releases a slot. -/
def execMeeParamsEnd (n : Fin 16) (s : State) : Result :=
  .next (commandIf 0x0602 n.val (fun m => subIs m 2)
    (fun s m =>
      { notPermitted := needSealed s n.val
        badArg := firstFail [argsZero m [0, 1], failIf (!ownSession s n.val (m.arg 1)) 0]
        busy := failIf (sessionBusy s (m.arg 1)) 0x0609 })
    (fun s m => replyDone n.val [] []
      { s with sealed := { s.sealed with sess := s.sealed.sess.filter fun e => e.1 ≠ m.arg 1 } }) s)

/-! ## Doorbells and exchanges (R421, R434) -/

/-- The sender may ring a group's doorbell: a cluster of the owning partition, or firmware. -/
def bellOk (s : State) (src : DmaSrc) (g : Nat) : Bool :=
  match src with
  | .cluster c => clusterPart s c.val = meePart s g
  | .firmware => true
  | .pipeline | .doorbell | .other => false
/-- R421: a doorbell forward advances the tail of a group's ring; any other is discarded and counted. -/
def execMeeDoorbell (src : DmaSrc) (body : Word) (s : State) : Result :=
  let g := fld body 0 4
  .next (if bellOk s src g && carrying s 0x06 g then meeTake g 64 (modMee g (fun m => { m with tail := fld body 4 6 }) s)
    else modMee g (fun m => { m with bad := m.bad + 1 }) s)

/-- R434: an exchange expires. -/
def execExchExpiry (id : BitVec 8) (s : State) : Result :=
  .next (if (s.exch id.toNat).isSome then logInfo 0x0604 0x00 0 [id.toNat] (dropExch id.toNat s) else s)

/-! ## The refresh macro (R426 to R428) -/

/-- R426, R448: the windows of a session's macro, or those after which the expert form stops it. -/
def refreshWindows (s : State) (r : Refresh) : Nat :=
  let x := (s.sealedSess r.sess).elim (0, 0) fun x => Config.macroWindows x.n x.moduli.length x.d
  r.stopAt.getD (x.1 + x.2)
/-- R428: the last window of a session's macro closes: REFRESH_DONE with the measured time, and the command is answered. -/
def execRefreshDone (sess : Fin 16) (s : State) : Result :=
  .next (match s.sealed.refreshes.find? fun r => r.sess = sess.val with
    | none => s
    | some r =>
      if r.closed < refreshWindows s r then s
      else completeAwait (fun a => a = .refresh sess.val) { status := 0 }
        (logInfo 0x060F 0x00 0 [sess.val, s.now - r.started]
          { s with sealed := { s.sealed with refreshes := s.sealed.refreshes.filter fun x => x.sess ≠ sess.val } }))

/-- A window of the current image is at least as long as a number of turns. -/
def windowFits (s : State) (w : Nat) (need : Option Nat) : Bool :=
  match s.net.image, need with
  | some img, some k => w < img.windows.length && k ≤ (img.windows.getD w (0, 0)).2
  | _, _ => false
/-- R426: what REFRESH_RUN requires of the image and the tiles. -/
def refreshOk (s : State) (m : Mbx) : Bool :=
  match s.sealedSess (m.arg 0) with
  | none => false
  | some x =>
    let g := (groupsUp s).length
    windowFits s (m.arg 5) (wKs x.n x.moduli.length x.d x.tau g)
      && (windowFits s (m.arg 6) (wEl x.n (limbsL x.moduli.length x.d) g) && ctModeOk s (s.part x.part).clusters)
/-- REFRESH_RUN: one macro of a session runs at a time; DONE comes with REFRESH_DONE. -/
def execRefreshRun (n : Fin 16) (s : State) : Result :=
  .next (command 0x0603 n.val
    (fun s m =>
      { notPermitted := needSealed s n.val
        badArg := firstFail [failIf (!ownSession s n.val (m.arg 0) || (2 ^ 48 ≤ m.arg64 1 || (2 ^ 48 ≤ m.arg64 3 || (m.exp && m.arg 7 = 0)))) 0,
          failIf (!refreshOk s m) 0x0605]
        busy := failIf (s.sealed.refreshes.any fun r => r.sess = m.arg 0) 0x0609 })
    (fun s m =>
      let r : Refresh := { sess := m.arg 0, cipher := m.arg64 1, keySet := m.arg64 3, winKs := m.arg 5, winEl := m.arg 6
                           stopAt := if m.exp then some (m.arg 7) else none, started := s.now }
      setAwait n.val (.refresh (m.arg 0)) (replyAccepted n.val { s with sealed := { s.sealed with refreshes := s.sealed.refreshes ++ [r] } })) s)

/-! ## The DRBG (R435 to R437) -/

/-- A reseed succeeds: the interval starts again, and vaults that waited for a key go on. -/
def reseed (s : State) : State :=
  retryChanges s.sealed.vaults
    { s with sealed := { s.sealed with drbg := { s.sealed.drbg with reqs := 0, exhausted := false } } }
/-- A reseed is possible: the DRBG is instantiated and its source has not failed. -/
def canReseed (s : State) : Bool := s.sealed.drbg.ready && !s.sealed.drbg.srcFailed
/-- DRBG_RESEED forces a reseed, with at most 48 bytes of inline additional input. -/
def execDrbgReseed (n : Fin 16) (s : State) : Result :=
  .next (command 0x0606 n.val
    (fun s m => { badArg := failIf (m.inHost || 48 < m.input.length) 0, noResource := failIf (!canReseed s) 0x0604 })
    (fun s _ => replyDone n.val [] [] (reseed s)) s)
/-- After 2^20 - 2^16 requests the hardware reseeds from the source. -/
def execDrbgReseedAuto (s : State) : Result := .next (if canReseed s && 2 ^ 20 - 2 ^ 16 ≤ s.sealed.drbg.reqs then reseed s else s)
/-- The DRBG reaches 2^20 requests without a reseed. -/
def execDrbgExhausted (s : State) : Result :=
  .next (if s.sealed.drbg.ready && (!s.sealed.drbg.exhausted && decide (2 ^ 20 ≤ s.sealed.drbg.reqs)) then
      logSec 0x0606 0x00 0 [] { s with sealed := { s.sealed with drbg := { s.sealed.drbg with exhausted := true } } }
    else s)
/-- R436: a health test of the entropy source fails; the source stays failed until the next reset. -/
def execEntropyFail (s : State) : Result :=
  .next (if s.sealed.drbg.srcFailed then s
    else logSec 0x0605 0x00 0 [] { s with sealed := { s.sealed with drbg := { s.sealed.drbg with srcFailed := true } } })

/-! ## SEALED_STATUS (R434, R448; places of results: log 13) -/

/-- A session: slot, n, M, D, τ in ns, n_ks and n_el. -/
def sessBytes (e : Nat × SealedSess) : List Byte :=
  let w := Config.macroWindows e.2.n e.2.moduli.length e.2.d
  leBytes 1 e.1 ++ leBytes 1 e.2.n ++ leBytes 1 e.2.moduli.length ++ leBytes 1 e.2.d ++ leBytes 4 (e.2.tau / 1000) ++ leBytes 4 w.1 ++ leBytes 4 w.2
/-- A vault: slot, epoch; a Crosswind session: slot, round. -/
def vaultBytes (e : Nat × Vault) : List Byte := leBytes 4 e.1 ++ leBytes 4 e.2.epoch
def cxBytes (e : Nat × CxSess) : List Byte := leBytes 4 e.1 ++ leBytes 4 e.2.round
/-- An exchange: state (0 FREE, 1 in use), session, NONCE, masked and unmasked counts. -/
def exchBytes (e : Option Exch) : List Byte :=
  match e with
  | none => List.replicate 40 0
  | some x => leBytes 4 1 ++ leBytes 4 x.sess ++ x.nonce ++ leBytes 8 x.masked ++ leBytes 8 x.unmasked
/-- A group: status, detail, flags, outputs of its last pass, LATE count. -/
def groupBytes (m : MeeGroup) : List Byte :=
  let l := m.last.getD (0, 0, 0, 0)
  leBytes 1 l.1 ++ leBytes 1 l.2.1 ++ leBytes 1 l.2.2.1 ++ leBytes 1 0 ++ leBytes 4 l.2.2.2 ++ leBytes 4 m.late
/-- SEALED_STATUS: what belongs to the mailbox's partition; every partition's for partition 0. -/
def execSealedStatus (n : Fin 16) (s : State) : Result :=
  .next (command 0x0601 n.val
    (fun _ m => { badArg := failIf (m.exp && 256 ≤ m.arg 0) 0 })
    (fun s m =>
      let p := mbxPart s n.val
      let mine := fun (q : Nat) => decide (p = 0) || decide (q = p)
      let ex := s.sealed.exchs.filter fun e => (s.sealedSess e.2.sess).elim true fun x => mine x.part
      replyDone n.val
        [groupMask (groupsUp s), ex.length, s.sealed.drbg.reqs, b2n s.sealed.drbg.srcFailed]
        (if m.exp then
          exchBytes ((ex.find? fun e => e.1 = m.arg 0).map Prod.snd)
            ++ ((List.range 16).filter fun g => mine (meePart s g)).flatMap fun g => groupBytes (s.mee g)
         else
          (s.sealed.sess.filter fun e => mine e.2.part).flatMap sessBytes ++ (s.sealed.vaults.filter fun e => mine e.2.part).flatMap vaultBytes
            ++ (s.sealed.cx.filter fun e => mine e.2.part).flatMap cxBytes) s) s)

end Sys2Proof.Machine
end

