-- ==== Sys2Proof/Machine/Vaults.lean ====
section
/-!
DEFINITION. Share vaults (spec/16_sealed_arithmetic_crosswind.md R438 to R442, R448).
-/
namespace Sys2Proof.Machine

/-- R438: a frame that a partition may put into a vault: HELD as DATA by it, and in no other vault. -/
def vaultable (s : State) (p f : Nat) : Bool :=
  mayFree s p f && (!(s.frame f).table && !s.sealed.vaults.any fun e => f ∈ e.2.frames)
/-- The frames of the command: 1 to 16,384, each vaultable, none twice. -/
def vaultFramesOk (s : State) (p : Nat) (l : List Nat) : Bool := decide (l.eraseDups.length = l.length) && l.all (vaultable s p)
/-- Open a vault over frames, with its metadata frames: the key of epoch 0 is drawn, and every line is written as zeros. -/
def openVault (v p life : Nat) (frames metas : List Nat) (s : State) : State :=
  let s1 := zeroFrames frames (drbgDraw (markFrames { use := .system, part := p } metas s))
  let x : Vault := { part := p, frames := frames, metaFrames := metas, lifeEnd := s1.now + life * 1000000000 }
  { s1 with sealed := { s1.sealed with vaults := (v, x) :: s1.sealed.vaults } }
/-- VAULT_OPEN. The metadata frames come from the page steward; where it grants none the refusal is NO_PAGE, as for every grant. -/
def execVaultOpen (n : Fin 16) (s : State) : Result :=
  .next (command 0x0604 n.val
    (fun s m =>
      let l := frameList m
      { notPermitted := firstFail [needVault s n.val, failIf (m.arg 0 < 32 && s.prot.vault.life < m.arg 1) 0x0601]
        badArg := firstFail [failIf (32 ≤ m.arg 0 || (m.arg 1 = 0 || (m.input.isEmpty || (65536 < m.input.length || m.input.length % 4 ≠ 0)))) 0,
          failIf (!vaultFramesOk s (mbxPart s n.val) l) 0x0606]
        busy := failIf (s.vault (m.arg 0)).isSome 0x0607
        noResource := failIf (drbgDown s) 0x0604 })
    (fun s m =>
      let p := mbxPart s n.val
      let l := frameList m
      let a := steward p (ceilDiv l.length 32) 3 false false n.val s
      match a.1 with
      | .error hint => reply n.val { status := 0x20, detail := 0x0514, res := [hint] } a.2
      | .ok metas => replyDone n.val [] [] (openVault (m.arg 0) p (m.arg 1) l metas a.2)) s)

/-- A vault slot is open for the partition of the mailbox. -/
def ownVault (s : State) (n v : Nat) : Bool := (s.vault v).elim false fun x => x.part = mbxPart s n
/-- VAULT_CLOSE. -/
def execVaultClose (n : Fin 16) (s : State) : Result :=
  .next (command 0x0605 n.val
    (fun s m => { notPermitted := needVault s n.val, badArg := failIf (!ownVault s n.val (m.arg 0)) 0 })
    (fun s m => replyDone n.val [] [] (closeVault (m.arg 0) 0 s)) s)

/-- R442: the life of a vault ends; one that is not open is left as it is. -/
def execVaultLifeExpiry (v : Fin 32) (s : State) : Result := .next (closeVault v.val 1 s)
/-- R440: a line of a vault has reached counter 0x7000; during a change it is one of the new epoch. -/
def rekeyDue (x : Vault) : Bool := x.changing || x.ctr.any fun e => 0x7000 ≤ e.2
/-- R440: a line of a vault reaches counter 0x7000. -/
def execVaultRekey (v : Fin 32) (s : State) : Result :=
  .next (if (s.vault v.val).elim false rekeyDue then askChange v.val s else s)
/-- R440: the re-encryption pass of a vault ends. -/
def execVaultRekeyDone (v : Fin 32) (s : State) : Result := .next (endChange v.val s)

end Sys2Proof.Machine
end

