-- ==== Sys2Proof/Machine/Crosswind.lean ====
section
/-!
DEFINITION. Crosswind sessions: PEER_SESSION, the handshake, rounds and tuples (spec/16_sealed_arithmetic_crosswind.md R443 to R448).
-/
namespace Sys2Proof.Machine

/-! ## PEER_SESSION (R443, R447, R448) -/

/-- The shape of SUB PAIR (places of the parameters: log 13). -/
def pairShape (s : State) (n : Nat) (m : Mbx) : Option Nat :=
  firstFail [argsZero m (if m.exp then [0, 1, 2, 3, 4, 5, 6, 7, 8, 9] else [0, 1, 2, 3, 4, 5, 6, 7, 8]),
    failIf (16 ≤ m.arg 1 || (!ownVault s n (m.arg 2) || (2 ≤ m.arg 5 || (m.arg 7 / 65536 = 0
      || ((s.vault (m.arg 2)).elim true (fun x => decide (x.frames.length < m.arg 7 % 65536 + m.arg 7 / 65536))
        || (!((s.obj (m.arg 8)).elim false fun o => o.kind = .event && o.part = mbxPart s n)
          || (m.exp && (m.arg 9 < 10 || 60000 < m.arg 9)))))))) 0]
/-- R443: the domain is Z/2^64, or Z/p with p odd between 2^60 and 2^61. -/
def domainOk (p : Nat) : Bool := p = 0 || (p % 2 = 1 && (2 ^ 60 < p && p < 2 ^ 61))
/-- PEER_SESSION SUB PAIR begins a handshake. -/
def execPeerSessionPair (n : Fin 16) (s : State) : Result :=
  .next (commandIf 0x0607 n.val (fun m => subIs m 0)
    (fun s m =>
      { notPermitted := needVault s n.val
        badArg := firstFail [pairShape s n.val m, failIf (!domainOk (m.arg64 3)) 0x0602]
        busy := failIf (s.cxSess (m.arg 1)).isSome 0x0609
        noResource := failIf (drbgDown s) 0x0604 })
    (fun s m =>
      let x : CxSess :=
        { part := mbxPart s n.val, vault := m.arg 2, modulus := m.arg64 3, role := m.arg 5, peer := m.arg 6, tupFirst := m.arg 7 % 65536
          tupCount := m.arg 7 / 65536, event := m.arg 8, timeout := if m.exp then m.arg 9 else 1000 }
      setAwait n.val (.pairing (m.arg 1)) (replyAccepted n.val
        (startCxHs (m.arg 1) .pair { s with sealed := { s.sealed with cx := (m.arg 1, x) :: s.sealed.cx } }))) s)

/-- The slot holds a session of the partition of the mailbox. -/
def ownCx (s : State) (n i : Nat) : Bool := (s.cxSess i).elim false fun x => x.part = mbxPart s n
/-- PEER_SESSION SUB RESUME: a SUSPENDED session runs a new handshake. -/
def execPeerSessionResume (n : Fin 16) (s : State) : Result :=
  .next (commandIf 0x0607 n.val (fun m => subIs m 1)
    (fun s m =>
      { notPermitted := needVault s n.val
        badArg := firstFail [argsZero m [0, 1],
          failIf (!ownCx s n.val (m.arg 1) || !((s.cxSess (m.arg 1)).elim false fun x => x.suspended.isSome)) 0]
        busy := failIf ((s.cxSess (m.arg 1)).elim false fun x => x.hs.isSome) 0x0609
        noResource := failIf (drbgDown s) 0x0604 })
    (fun s m => setAwait n.val (.resume (m.arg 1)) (replyAccepted n.val (startCxHs (m.arg 1) .resume s))) s)

/-- PEER_SESSION SUB CLOSE: the peer is told, and the session leaves its slot. -/
def execPeerSessionClose (n : Fin 16) (s : State) : Result :=
  .next (commandIf 0x0607 n.val (fun m => subIs m 2)
    (fun s m =>
      { notPermitted := needVault s n.val
        badArg := firstFail [argsZero m [0, 1], failIf (!ownCx s n.val (m.arg 1)) 0] })
    (fun s m =>
      let i := m.arg 1
      replyDone n.val [] [] (completeAwait (fun a => a = .pairing i || a = .resume i) { status := 0x12, detail := 0x0608 }
        (dropCx i (send (.cx i "CLOSE" []) s)))) s)

/-! ## The handshake (R443) -/

/-- The peer's HELLO: this end answers with its FINISH; where no handshake of the session runs, its firmware begins one with it. -/
def execCxHello (sess : Fin 16) (peer : CxPeer) (s : State) : Result :=
  let i := sess.val
  .next (match s.cxSess i with
    | none => s
    | some x =>
      if x.hs.isNone && (!x.paired || x.suspended.isSome) then s
      else
        let s1 := if x.hs.isNone then startRekey 11 i s else s
        let y := (s1.cxSess i).getD x
        send (.cx i "FINISH" ((ownSign s1 (cxHandshake s1 y peer).transcript).map BitVec.toNat))
          (modCx i (fun x => { x with hello := some peer }) s1))

/-- The peer's FINISH completes the handshake. -/
def execCxFinish (sess : Fin 16) (sig : List Byte) (s : State) : Result :=
  let i := sess.val
  .next (match s.cxSess i with
    | none => s
    | some x =>
      match x.hs, x.hello with
      | some f, some h => if cxChecks s x h sig then cxPasses i f (cxHandshake s x h) s else cxFails i f s
      | _, _ => s)

/-! ## Rounds (R444 to R447) -/

/-- The slot whose paired session has a tag. -/
def cxByTag (s : State) (tag : Word) : Option (Nat × CxSess) := s.sealed.cx.find? fun e => e.2.paired && e.2.tag = tag
/-- R444: a frame whose tag matches no paired session is discarded and counted. -/
def badCx (s : State) : State := { s with sealed := { s.sealed with cxBad := s.sealed.cxBad + 1 } }
/-- R446: the tuple index that a round's BATCH has to name. -/
def expectBase (x : CxSess) (own : Option CxBatch) : Nat := own.elim x.nextTuple CxBatch.base

/-- A BATCH frame of the running round, in order. -/
def batchFrame (i : Nat) (last : Bool) (payload : List Byte) (s : State) : State :=
  let s1 := modCx i (fun x => { x with inSeq := x.inSeq + 1, inBuf := x.inBuf ++ payload, inDone := last }) s
  if last then advanceCx i (pumpCx i (takeBatch i s1)) else s1
/-- A BATCH frame of the round that follows, in order. -/
def laterFrame (i : Nat) (last : Bool) (payload : List Byte) (s : State) : State :=
  modCx i (fun x => { x with nextSeq := x.nextSeq + 1, nextBuf := x.nextBuf ++ payload, nextDone := last }) s
/-- R445: a BATCH frame of session `i`: a duplicate is discarded and acknowledged again where its round is complete; a round that
is neither the running one nor the next aborts the session; a wrong TUPLE_BASE aborts it. -/
def onBatch (i round seq base : Nat) (last : Bool) (payload : List Byte) (x : CxSess) (s : State) : State :=
  if round + 1 = x.round then sendAck i round s
  else if round = x.round then
    if seq < x.inSeq || x.inDone then (if x.sentAck then sendAck i round s else s)
    else if base ≠ expectBase x x.out then abortCx i .tupleMismatch s
    else if seq = x.inSeq then batchFrame i last payload s
    else s
  else if round = x.round + 1 then
    if seq < x.nextSeq || x.nextDone then s
    else if base ≠ expectBase x x.next then abortCx i .tupleMismatch s
    else if seq = x.nextSeq then laterFrame i last payload s
    else s
  else abortCx i .protocol s
/-- A BATCH frame arrives. TUPLE_COUNT is checked by no rule. -/
def execCxBatch (tag round seq : Word) (base : BitVec 64) (_count : Word) (last : Bool) (payload : List Byte) (s : State) : Result :=
  .next (match cxByTag s tag with
    | none => badCx s
    | some (i, x) => onBatch i round.toNat seq.toNat base.toNat last payload x s)

/-- ACK(r) arrives. -/
def execCxAck (tag round : Word) (s : State) : Result :=
  .next (match cxByTag s tag with
    | none => badCx s
    | some (i, x) =>
      if round.toNat = x.round then
        if x.out.elim false CxBatch.sent then advanceCx i (modCx i (fun x => { x with gotAck := true }) s) else s
      else if round.toNat + 1 = x.round || round.toNat = x.round + 1 then s
      else abortCx i .protocol s)

/-- R446: PRE frames add tuples while no round is outstanding and the DRBG answers; a round that waits for them goes on. -/
def execCxPre (tag count : Word) (s : State) : Result :=
  .next (match cxByTag s tag with
    | none => badCx s
    | some (i, x) =>
      if x.out.elim false CxBatch.sent || drbgDown s then s
      else pumpCx i (modCx i (fun x => { x with made := x.made + count.toNat }) (drbgDraw s)))

/-- The peer closes its session. -/
def execCxClose (tag : Word) (s : State) : Result :=
  .next (match cxByTag s tag with
    | none => badCx s
    | some (i, _) => completeAwait (fun a => a = .resume i) { status := 0x12, detail := 0x0608 } (dropCx i s))
/-- The peer aborts its session. -/
def execCxAbort (tag : Word) (s : State) : Result :=
  .next (match cxByTag s tag with
    | none => badCx s
    | some (i, _) => abortCx i .peer s)

/-- R445: a cluster of the session's partition posts its batch of the running round, or of the next; the engine reads it out of the
vault. -/
def execCxBatchPost (cluster : Fin 128) (sess : Fin 16) (round : Word) (dva : BitVec 48) (len tuples : Word) (s : State) : Result :=
  let i := sess.val
  .next (match s.cxSess i with
    | none => s
    | some x =>
      let now := decide (round.toNat = x.round) && x.out.isNone
      let later := decide (round.toNat = x.round + 1) && x.next.isNone
      if !x.paired || (clusterPart s cluster.val ≠ x.part || (!now && !later)) then s
      else
        let r := dvaRead { part := x.part, dva := dva.toNat, ut := 0x01, inst := cluster.val } len.toNat s
        match r.1 with
        | .error _ => r.2
        | .ok b =>
          let y : CxBatch := { round := round.toNat, base := x.nextTuple, count := tuples.toNat, bytes := b }
          pumpCx i (modCx i (fun x => { x with
            nextTuple := x.nextTuple + tuples.toNat, out := if now then some y else x.out, next := if now then x.next else some y }) r.2))

/-- R445: no ACK came within the round timeout: the stored batch is sent again. -/
def execCxRoundTimeout (sess : Fin 16) (s : State) : Result :=
  let i := sess.val
  .next (match s.cxSess i with
    | none => s
    | some x =>
      match x.out with
      | some b => if b.sent && (!x.gotAck && (x.suspended.isNone && cxMaySend s i)) then sendBatch i b s else s
      | none => s)
/-- R447: a session has been SUSPENDED for 600 s. -/
def execCxSuspendTimeout (sess : Fin 16) (s : State) : Result :=
  .next (match s.cxSess sess.val with
    | none => s
    | some x => if x.suspended.isSome then abortCx sess.val .suspendedLong s else s)

end Sys2Proof.Machine
end

