-- ==== Sys2Proof/Machine/TrainOps.lean ====
section
/-!
DEFINITION. The identity checks of the Gust ports: wiring rules, tray-ID checks, slot straps (spec/01_stack_and_tray.md R33 to R37).
-/
namespace Sys2Proof.Machine

/-- R34: all seven mesh ports are MISWIRED and every peer has reported. The slot that the peers received is the one that this
package sends to each of them (DEDUCED, log 151). -/
def strapsWrong (s : State) : Bool := (List.range 7).all fun k => (s.gport k).st = .miswired && (s.gport k).far.isSome
/-- R34, R99: the start of a package whose slot straps are judged wrong fails. -/
def strapCheck (s : State) : State :=
  if strapsWrong s && (s.aon.phase = .train && s.aon.startSt ≠ .failed) then failStart 0x43 s else s

/-- R33: a port breaks the wiring rules: GUST_MISWIRE with what the far end reported; a port in service leaves it under R466. -/
def miswire (k : Nat) (s : State) : State :=
  let p := s.gport k
  let f := p.far.getD (0, 0, 0, 0, 0)
  let s1 := logUe .unit 0x0A01 0x07 k [f.1, f.2.1, f.2.2.1] s
  let s2 := if p.st = .up || p.st = .probation then revoke 0x07 k (portLeaves k 0x0A01 s1) else s1
  strapCheck (trainFails k .miswired s2)

/-- The port that a cable of an inter-tray port must lead to (R35, R36). -/
def cablePartner (k : Nat) : Nat :=
  match k with
  | 7 => 8 | 8 => 7 | 9 => 10 | 10 => 9 | _ => k
/-- GP7 or GP8 leads to a tray. -/
def reachedBy78 (s : State) (tray : Nat) : Bool :=
  [7, 8].any fun k => (s.gport k).st ≠ .miswired && (s.gport k).far.elim false fun f => f.1 = tray
/-- R35 to R37: the tray-ID check of a port, once both tray IDs are known. -/
def trayOk (s : State) (k tray slot port : Nat) : Bool :=
  if k < 7 then tray = s.aon.trayId
  else if k = 11 then port = 11 && tray ≠ s.aon.trayId
  else slot = s.aon.slot.val && (port = cablePartner k && (tray ≠ s.aon.trayId && (k < 9 || !reachedBy78 s tray)))
/-- R37: apply the tray-ID check of a port; GP7 to GP11 then go on to the link handshake. -/
def trayCheck (k : Nat) (s : State) : State :=
  let p := s.gport k
  match p.far with
  | none => s
  | some f =>
    if p.st = .miswired || (f.1 = 0 || s.aon.trayId = 0) then s
    else if !trayOk s k f.1 f.2.1 f.2.2.1 then miswire k s
    else if p.st = .training && (p.step = 3 && 7 ≤ k) then afterIdent k s
    else s
/-- The checks of several ports. -/
def trayChecks : List Nat → State → State
  | [], s => s
  | k :: t, s => trayChecks t (trayCheck k s)
/-- This end's training identity on several ports. -/
def sendIdents : List Nat → State → State
  | [], s => s
  | k :: t, s => sendIdents t
      (if (s.gport k).st = .miswired then s else linkFlit k 1 "TRAIN_ID" [s.aon.trayId, s.aon.slot.val, k] s)
/-- R37: the package has published its tray ID. -/
def trayPublished (s : State) : State := trayChecks (List.range 12) (sendIdents (List.range 12) s)

/-- A port whose link carries flits. -/
def linkAlive (p : GPort) : Bool := (p.st = .training && 3 ≤ p.step) || (p.st = .probation || p.st = .up)

end Sys2Proof.Machine
end

