-- ==== Sys2Proof/Machine/Gust.lean ====
section
/-!
DEFINITION. Events of the Gust ports: blocks, replay, LINK flits, training, sealed frames, rekeys
(spec/17_gust_links_and_host.md R449 to R467).
-/
namespace Sys2Proof.Machine

/-! ## Blocks (R449 to R455) -/

/-- The bytes that an HCRC covers. -/
def headBytes (b : GustBlock) : List Byte := leBytes 8 b.head.toNat
/-- The HCRC of a block is correct. -/
def hcrcOk (b : GustBlock) : Bool := crc64 (headBytes b) = b.hcrc
/-- FSEQ0, ACK, NAK and the credits of a class. -/
def bFseq (b : GustBlock) : BitVec 16 := BitVec.ofNat 16 (fld b.head 16 16)
def bAck (b : GustBlock) : BitVec 16 := BitVec.ofNat 16 (fld b.head 32 16)
def bNak (b : GustBlock) : Bool := bit b.head 48
def bCrd (b : GustBlock) (vc : Nat) : Nat := 8 * fld b.head (56 + 2 * (vc - 1)) 2
/-- The FCRC of a slot is correct. -/
def fcrcOk (x : GustSlot) : Bool := crc64 (leBytes 7 x.hdr.toNat ++ x.data) = x.fcrc

/-- An ACK covers a flit: the flit's FSEQ lies before it, modulo 65,536. -/
def covered (ack fseq : BitVec 16) : Bool := let d := (ack - fseq).toNat; 0 < d && d ≤ 1024
/-- R452, R453: an ACK releases what it covers from the retry buffer; where it advances, replays start to count afresh. -/
def takeAck (ack : BitVec 16) (p : GPort) : GPort :=
  let left := p.retry.filter fun f => !covered ack f.fseq
  if left.length = p.retry.length then p else { p with retry := left, same := none, nakDone := none }
/-- R455: credits come back. -/
def takeCredits (b : GustBlock) (p : GPort) : GPort :=
  [1, 2, 3].foldl (fun (q : GPort) vc => q.setCredit vc (q.credit vc + bCrd b vc)) p

/-- A replay of a port from an FSEQ, after which the port may have to leave service (R454). -/
def replay (k : Nat) (from_ : BitVec 16) (s : State) : State :=
  let r := replayFrom k from_ s
  if r.1 then gustDown k 0x0703 false r.2 else r.2

/-- A packet has come over the link (R451): a request or a response enters the mesh; TEST traffic ends here. -/
def packetArrives (k : Nat) (sb : BitVec 64) (data : List Byte) (s : State) : State :=
  if sbTest sb then s
  else if (s.gport k).st ≠ .up || !gustCarries s k then s
  else if sbType sb = 2 || (sbType sb = 3 || sbType sb = 7) then answerArrives k (sbDst sb) (sbTag sb) (inject k sb data) s
  else inject k sb data s

/-- A DATA flit in order: its bytes join the packet of its class, and LAST completes it. -/
def dataFlit (k : Nat) (x : GustSlot) (s : State) : State :=
  let vc := hVc x.hdr
  let bytes := Tab.get [] (s.gport k).asm vc ++ x.data.take (if hPair x.hdr then 256 else 128)
  if hLast x.hdr then packetArrives k (hSideband x.hdr) bytes (modGport k (fun p => { p with asm := Tab.put [] p.asm vc [] }) s)
  else modGport k (fun p => { p with asm := Tab.put [] p.asm vc bytes }) s
/-- A flit that its FCRC and FSEQ let in. SEALED and LINK flits act through rows of their own once they are whole. -/
def acceptFlit (k : Nat) (x : GustSlot) (s : State) : State :=
  let s1 := modGport k (fun p => { p with rxNext := p.rxNext + 1, nak := false }) s
  if hKind x.hdr = 1 then dataFlit k x s1
  else if hKind x.hdr = 3 && (hLtype x.hdr = 0 || 7 < hLtype x.hdr) then modGport k (fun p => { p with badLink := p.badLink + 1 }) s1
  else s1
/-- R452: the slots of a block in order; a bad FCRC discards the rest and sets NAK. -/
def takeSlots (k : Nat) : List GustSlot → BitVec 16 → State → State
  | [], _, s => s
  | x :: t, fseq, s =>
    if !fcrcOk x then modGport k (fun p => { p with crcErr := satInc p.crcErr, nak := true }) s
    else if hKind x.hdr = 0 then takeSlots k t fseq s
    else takeSlots k t (fseq + 1) (if fseq = (s.gport k).rxNext then acceptFlit k x s else s)

/-- R454, Table GL-5 step 2: a block with a bad HCRC: it counts as a bad FCRC on the first flit expected; 64 in a row take a port out
of service. -/
def badBlock (k : Nat) (s : State) : State :=
  let n := (s.gport k).badHcrc + 1
  let s1 := modGport k (fun p => { p with crcErr := satInc p.crcErr, nak := true, badHcrc := n, locks := 0 }) s
  if 64 ≤ n && ((s.gport k).st = .up || (s.gport k).st = .probation) then gustDown k 0x0704 true s1 else s1
/-- Step 2 of Table GL-5: 64 consecutive good HCRCs lock the port; step 3 sends its identity. -/
def lockBlock (k : Nat) (s : State) : State :=
  let p := s.gport k
  if p.st = .training && p.step = 2 then
    if p.locks + 1 < 64 then modGport k (fun p => { p with locks := p.locks + 1 }) s
    else linkFlit k 1 "TRAIN_ID" [s.aon.trayId, s.aon.slot.val, k] (modGport k (fun p => { p with step := 3, locks := 64 }) s)
  else s
/-- R452: a NAK is acted on once. -/
def takeNak (k : Nat) (b : GustBlock) (s : State) : State :=
  if bNak b && (s.gport k).nakDone ≠ some (bAck b) then
    replay k (bAck b) (modGport k (fun p => { p with nakDone := some (bAck b) }) s)
  else s
/-- A block arrives on a port whose lanes are equalised. -/
def execGustBlock (port : Fin 12) (blk : GustBlock) (s : State) : Result :=
  let k := port.val
  let p := s.gport k
  .next (if !((p.st = .training && 2 ≤ p.step) || (p.st = .probation || p.st = .up)) then s
    else if !hcrcOk blk then badBlock k s
    else
      let s1 := lockBlock k (modGport k (fun p => takeCredits blk (takeAck (bAck blk) { p with badHcrc := 0 })) s)
      let s2 := takeNak k blk s1
      pumpPort k (if linkAlive (s2.gport k) then takeSlots k blk.slots (bFseq blk) s2 else s2))

/-- R453: ACK has not advanced for 2 µs with flits outstanding. -/
def execReplayTimeout (port : Fin 12) (s : State) : Result :=
  .next (match (s.gport port.val).retry with
    | [] => s
    | f :: _ => replay port.val f.fseq s)

/-! ## LINK flits (R457, Table GL-4) -/

/-- TRAIN_ID (R33): the wiring is checked on GP0 to GP6 at once, tray IDs as R37 says; then training goes on. -/
def execTrainId (port : Fin 12) (tray : BitVec 12) (slot : Fin 8) (fport : Fin 16) (id ifver : Word) (s : State) : Result :=
  let k := port.val
  .next (if !linkAlive (s.gport k) then s
    else
      let s1 := modGport k (fun p => { p with far := some (tray.toNat, slot.val, fport.val, id, ifver) }) s
      if k < 7 && (slot.val ≠ meshPeer s.aon.slot.val k || fport.val ≠ 6 - k) then miswire k s1
      else
        let s2 := trayCheck k s1
        let s3 := if k = 7 || k = 8 then trayChecks [9, 10] s2 else s2
        let p := s3.gport k
        if p.st = .training && (p.step = 3 && k < 7) then afterIdent k s3 else s3)

/-- Several messages in order. -/
def lullMessages : List (BitVec 64) → State → State
  | [], s => s
  | m :: t, s => lullMessages t (lullMessage m s)
/-- A LULL flit: the first good copy of an LSEQ acts, any other is discarded. -/
def execLinkLull (port : Fin 12) (lseq : BitVec 64) (msgs : List (BitVec 64)) (s : State) : Result :=
  let k := port.val
  .next (if (s.gport k).st ≠ .up || !gustCarries s k || lseq.toNat < Tab.get 0 (s.gport k).lseqIn 3 then s
    else lullMessages (msgs.take 31) (modGport k (fun p => { p with lseqIn := Tab.put 0 p.lseqIn 3 (lseq.toNat + 1) }) s))

/-- R460: the handshake of a port with its peer: both messages, that of the lower (tray, slot, port) first (DESIGN CHOICE, log 172). -/
def linkHandshake (s : State) (k : Nat) (h : HsPeer) : Handshake :=
  let first := decide (s.aon.trayId * 128 + s.aon.slot.val * 16 + k < h.tray.toNat * 128 + h.slot.val * 16 + h.port.val)
  { first := first, secret := Config.ecdh (s.gport k).ephem h.key
    transcript := hsOrder first (ownHsMessage s k) (hsMessage h.chain h.key h.nonce h.tray.toNat h.slot.val h.port.val) }
/-- The checks of R460. -/
def hsOk (s : State) (k : Nat) (h : HsPeer) : Bool :=
  let p := s.gport k
  Config.chainOk h.chain && (Config.chainDx2 h.chain
    && (Config.ecdsaOk (Config.chainKey h.chain) (linkHandshake s k h).transcript h.sig
    && p.far.elim false fun f => f.1 = h.tray.toNat && (f.2.1 = h.slot.val && f.2.2.1 = h.port.val)))
/-- R460: this end's signature over the transcript. -/
def sendHsSig (k : Nat) (h : HsPeer) (s : State) : State :=
  linkFlit k 2 "HANDSHAKE" ((ownSign s (linkHandshake s k h).transcript).map BitVec.toNat) s
/-- A rekey handshake of channel 0 ends. -/
def rekeyEnds (k : Nat) (h : HsPeer) (s : State) : State :=
  if hsOk s k h then sendRekey k 0 (nextKeys k 0 (linkHandshake s k h) s)
  else
    completeAwait (fun a => a = .linkRekey k 0) { status := 0x12, detail := 0x0704 }
      (modSChan k 0 (fun c => { c with handshake := false }) (logSec 0x0709 0x07 k [k] s))
/-- HANDSHAKE flits complete the link handshake of training, or of a rekey (R465); one that the far end begins makes this end's
firmware run it too. GP11 runs none. -/
def execHandshake (port : Fin 12) (peer : HsPeer) (s : State) : Result :=
  let k := port.val
  let p := s.gport k
  .next (if k = 11 then s
    else if p.st = .training && p.step = 4 then
      let s1 := sendHsSig k peer s
      if hsOk s k peer then startProbation k (newChannel k 0 (linkHandshake s k peer) s1)
      else trainFails k .authFail (logSec 0x0709 0x07 k [k] s1)
    else if p.st = .up then
      let s1 := startRekey k 0 s
      if (s1.chanOf k 0).handshake then rekeyEnds k peer (sendHsSig k peer s1) else s1
    else s)

/-- R465: the far end announces a new epoch and is answered, or it acknowledges this end's: the changeover. -/
def execRekey (port : Fin 12) (chan : Fin 16) (epoch : Word) (ack : Bool) (s : State) : Result :=
  let k := port.val
  let c := chan.val
  .next (if (s.gport k).st ≠ .up || !(c ∈ chanList s k) then s
    else if ack then
      if (s.chanOf k c).next = some epoch.toNat then changeover k c epoch.toNat s else s
    else linkFlit k 4 "REKEY" [c, epoch.toNat, 1] (modSChan k c (fun x => { x with rxNext := some epoch.toNat }) s))

/-- What a session has to send on GP11, session by session. -/
def pumpAllCx : List Nat → State → State
  | [], s => s
  | i :: t, s => pumpAllCx t (pumpCx i s)
/-- READY: the far end's port is in service at its route epoch; waiting flits may go (R467). -/
def execReady (port : Fin 12) (_epoch : BitVec 16) (s : State) : Result :=
  let k := port.val
  .next (if (s.gport k).st = .probation || (s.gport k).st = .up then
      let s1 := pumpPort k (modGport k (fun p => { p with readyGot := true }) s)
      if k = 11 then pumpAllCx (s1.sealed.cx.map Prod.fst) s1 else s1
    else s)

/-- LEAVE: the port leaves service; `pkg` says that the package at the far end of a mesh port leaves the tray with it (R466, R513). -/
def execLeave (port : Fin 12) (pkg : Bool) (s : State) : Result := .next (gustDown port.val 6 pkg s)

/-! ## Training (R458, R467) -/

/-- PAM4 equalisation of a port ends: its lane clock runs (GCLK), and block lock begins. -/
def execPam4EqualisationDone (port : Fin 12) (s : State) : Result :=
  let k := port.val
  .next (if (s.gport k).st = .training && (s.gport k).step = 1 then
      modGport k (fun p => { p with step := 2, locks := 0 }) { s with clk := { s.clk with gclk := setBit s.clk.gclk k true } }
    else s)

/-- A step of Table GL-5 exceeds its bound; the wait of GP7 to GP11 for their tray-ID check is not counted. An inter-tray port without a
far end gets the INFO record of R35, GP11 too (DEDUCED, log 156). -/
def execTrainStepTimeout (port : Fin 12) (s : State) : Result :=
  let k := port.val
  let p := s.gport k
  .next (match p.st with
    | .training =>
      if p.step = 3 then (if 7 ≤ k && p.far.isSome then s else miswire k s)
      else if p.step = 4 then trainFails k .authFail s
      else trainFails k .down (if 7 ≤ k then logInfo (Config.openCode 0 % 65536) 0x07 k [k] s else s)
    | .probation => gustDown k 5 false s
    | .down | .miswired | .authFail | .up | .faulted | .offline => s)

/-- R467: a port faulted again within 60 s of its return. -/
def faultedSoon (p : GPort) : Bool := p.returnedAt.elim false fun r => p.faultAt.elim false fun f => f < r + 60000000000
/-- 1 s after a port fault firmware retrains the port once. -/
def execPortAutoRetrain (port : Fin 12) (s : State) : Result :=
  let k := port.val
  let p := s.gport k
  .next (if p.st = .faulted && (!p.retrained && !faultedSoon p) then startTraining k (modGport k (fun p => { p with retrained := true }) s)
    else s)

/-! ## Sealed channels (R461 to R465) -/

/-- R465: a channel is declared down: SEALED_DOWN and the port's vector. -/
def declareDown (k c : Nat) (s : State) : State := channelDown k c (sendMsix (208 + k) (logSec 0x0706 0x07 k [k, c] s))
/-- R463: what a sealed frame carries, where its GCM tag verifies under the key of its epoch: after the peer's REKEY that of the next. -/
def openFrame (x : SChan) (chan : Nat) (epoch : Word) (ctr : BitVec 64) (tag : BitVec 128) (sb : BitVec 64) (data : List Byte) :
    Option (List Byte) :=
  let key := if x.rxNext = some epoch.toNat then x.nextRx else x.rxKey
  Config.gcmOpen key (sealIv epoch.toNat ctr.toNat) (sealAad sb (flitsOf data) chan) data tag
/-- R463: a sealed frame is delivered, or discarded with GCM_FAIL. -/
def execSealedFrame (port : Fin 12) (chan : Fin 16) (epoch : Word) (ctr : BitVec 64) (tag : BitVec 128) (sb : BitVec 64) (data : List Byte)
    (s : State) : Result :=
  let k := port.val
  let c := chan.val
  .next (if (s.gport k).st ≠ .up || !(c ∈ chanList s k) then s
    else
      let x := s.chanOf k c
      let e := if x.rxNext = some epoch.toNat then epoch.toNat else x.rxEpoch
      let fresh := x.rxNext = some epoch.toNat || x.rxLast.elim true fun l => l < ctr.toNat
      let plain := if (x.st = .up || x.st = .hold) && (epoch.toNat = e && fresh) then openFrame x c epoch ctr tag sb data else none
      match plain with
      | some b =>
        let key := if x.rxNext = some e then x.nextRx else x.rxKey
        let s1 := modSChan k c (fun y => { y with
          rxEpoch := e, rxNext := if y.rxNext = some e then none else y.rxNext, rxLast := some ctr.toNat, rxKey := key }) s
        if k = 11 then s1 else packetArrives k sb b s1
      | none =>
        let s1 := if sbRequest sb then send (.link k "error response" [sbSrc sb, sbTag sb]) s else s
        declareDown k c (logSec 0x0707 0x07 k [k, c] s1))

/-- R464: the transmit counter of a channel reaches 2^40: REKEY_PEND, the vector, REKEY_REQUEST once per epoch; firmware starts the
rekey. -/
def execRekeyRequest (port : Fin 12) (chan : Fin 16) (s : State) : Result :=
  let k := port.val
  let c := chan.val
  let x := s.chanOf k c
  .next (if x.st = .up && (!x.pend && c ∈ chanList s k) then
      startRekey k c (sendMsix (208 + k) (logInfo 0x0704 0x07 k [k, c] (modSChan k c (fun y => { y with pend := true, tx := max y.tx (2 ^ 40) }) s)))
    else s)
/-- R464: firmware tries the rekey again. -/
def execRekeyRetry (port : Fin 12) (chan : Fin 16) (s : State) : Result :=
  let k := port.val
  let c := chan.val
  .next (if (s.chanOf k c).pend && c ∈ chanList s k then startRekey k c s else s)
/-- R464: the counter reaches 2^42: the channel holds its frames. -/
def execSealedHold (port : Fin 12) (chan : Fin 16) (s : State) : Result :=
  let k := port.val
  let c := chan.val
  .next (if (s.chanOf k c).st = .up && c ∈ chanList s k then
      sendMsix (208 + k) (logSec 0x0705 0x07 k [k, c] (modSChan k c (fun y => { y with st := .hold, tx := max y.tx (2 ^ 42) }) s))
    else s)
/-- R465: 100 ms after the hard stop no rekey has completed. -/
def execSealedDown (port : Fin 12) (chan : Fin 16) (s : State) : Result :=
  .next (if (s.chanOf port.val chan.val).st = .hold then declareDown port.val chan.val s else s)

end Sys2Proof.Machine
end

