-- ==== Sys2Proof/Machine/Ingest.lean ====
section
/-!
DEFINITION. INGEST, ADMIT and EMIT: the descriptors of the submission rings, the ring doorbells, the result batches
(spec/13_serving_pipeline.md R342, R345 to R351, R359 to R361, R365, spec/15_draft_and_sampler.md R405, R408).
-/
namespace Sys2Proof.Machine

/-! ## Descriptors (Table SP-3) -/

/-- R342: a ring stops at a fault. -/
def ringFault (k : Nat) (s : State) : State :=
  logUe .partition 0x0504 0x0E 0 [k] (setRing k { s.ring k with stopped := true } s)
/-- The ring has a descriptor that INGEST may read: in PH_SERVE, outside the maintenance state (R516). -/
def ingestReady (s : State) (k : Nat) : Bool :=
  s.aon.phase = .serve && (!s.units.maint && ((s.ring k).set && (!(s.ring k).stopped && (s.ring k).head ≠ (s.ring k).tail)))
/-- INGEST reads the descriptor at the head of a ring; the command acts when the descriptor has an OP that it serves. The head
advances past it. -/
def ingest (k : Nat) (serves : Nat → Bool) (act : List Byte → State → State) (s : State) : State :=
  if !ingestReady s k then s
  else
    let x := s.ring k
    let r := dvaRead (serveAccess x.part (x.subDva + 64 * x.head) false) 64 s
    match r.1 with
    | .error _ => ringFault k r.2
    | .ok b =>
      if serves (leAt b 0 1) then act b (setRing k { r.2.ring k with head := (x.head + 1) % 2 ^ x.subLog } r.2) else s

/-- USER_TAG. -/
def dTag (b : List Byte) : Nat := leAt b 52 6
/-- REQ of a CANCEL, PAUSE or RESUME. -/
def dReq (b : List Byte) : Nat := leAt b 48 4
/-- FLAGS bits. -/
def dFlag (b : List Byte) (i : Nat) : Bool := leAt b 2 1 / 2 ^ i % 2 = 1
/-- The sampling parameters. -/
def dSampling (b : List Byte) : Sampling :=
  { temp := leAt b 36 2, topK := leAt b 38 2, topP := leAt b 40 2, minP := leAt b 42 2, repPen := leAt b 44 2, repWin := leAt b 46 2 }
/-- Table DS-3. -/
def samplingOk (x : Sampling) : Bool := x.topK ≤ 1024 && (x.repPen = 0 || 1024 ≤ x.repPen)
/-- R349: a SUBMIT that is not malformed. Lengths above MAX_CONTEXT are row 5 of Table SP-6 (DEDUCED, log 28). -/
def submitOk (b : List Byte) : Bool :=
  leAt b 0 1 = 1 && (leAt b 1 1 < 4 && (leAt b 2 1 < 8 && (leAt b 3 1 = 0 && (leAt b 6 2 = 0 && (leAt b 8 4 < 2 ^ 18
    && (1 ≤ leAt b 12 4 && (1 ≤ leAt b 16 4 && (leAt b 20 8 % 64 = 0 && (leAt b 20 8 < 2 ^ 48 && (samplingOk (dSampling b)
    && (leAt b 48 4 = 0 && leAt b 58 6 = 0)))))))))))

/-! ## ADMIT (R348, R350) -/

/-- A REFUSED record: it carries no request ID; TABLE_FULL its retry hint, in COUNT (DESIGN CHOICE, log 50). -/
def refusedRec (k reason count : Nat) (b : List Byte) (s : State) : State :=
  putRec k { kind := 4, reason := reason, count := count, req := 0x1FFFFF, tag := dTag b, step := s.serve.step } s
/-- ADMIT refuses a request, which keeps its ID until the next edge. -/
def refuseReq (i : Nat) (r : Req) (k reason : Nat) (b : List Byte) (s : State) : State :=
  refusedRec k reason 0 b (setReq i { r with st := .ending, refused := true } s)
/-- The words of a byte string. -/
def tokWords : Nat → List Byte → List Nat
  | 0, _ => []
  | n + 1, l => leNat (l.take 4) :: tokWords n (l.drop 4)
/-- Row 7 of Table SP-6: the stop header and the prompt are read, and the first and last bytes of the buffer can be written. -/
def readTokbuf (r : Req) (s : State) : Option (List Nat × List Nat) × State :=
  let a := dvaRead (serveAccess r.part r.tokbuf false) 16 s
  match a.1 with
  | .error _ => (none, a.2)
  | .ok h =>
    let b := dvaRead (serveAccess r.part (r.tokbuf + 16) false) (4 * r.promptLen) a.2
    match b.1 with
    | .error _ => (none, b.2)
    | .ok p =>
      let c := translate (serveAccess r.part r.tokbuf true) b.2
      let d := translate (serveAccess r.part (r.tokbuf + 15 + 4 * (r.promptLen + r.maxNew)) true) c.2
      match c.1, d.1 with
      | .ok _, .ok _ => (some ((tokWords 4 h).filter (· ≠ 0xFFFFFFFF), tokWords r.promptLen p), d.2)
      | _, _ => (none, d.2)

/-- Rows 1 to 6 of Table SP-6: the reason of a refusal. -/
def admitRefusal (s : State) (r : Req) : Option Nat :=
  let sealed := partKind s r.part = .sealedK || partKind s r.part = .vault
  let t := s.tenant r.tenant
  match (s.spart r.part).program with
  | none =>
    firstFail [failIf (tenantPart s r.tenant ≠ r.part || !t.enable) 0x11, failIf (r.cls < t.maxClass || (r.cls = 2) ≠ sealed) 0x12, some 0x17]
  | some g =>
    firstFail
      [failIf (tenantPart s r.tenant ≠ r.part || !t.enable) 0x11,
       failIf (r.cls < t.maxClass || (r.cls = 2) ≠ sealed) 0x12,
       failIf ((s.spart r.part).role = 2 || (r.draft && (draftReady s r.part).isNone)) 0x17,
       failIf (r.adapter.elim false fun a => (s.adapter a).elim true fun x => x.part ≠ r.part) 0x13,
       failIf (g.maxContext < r.promptLen + r.maxNew) 0x14,
       failIf (r.part ≠ 0 && (s.part r.part).hbmQuota < pagesFor g (r.promptLen + r.maxNew)) 0x15]

/-- ADMIT decides a new request: refused, queued with its reason, or admitted, with its ACK. -/
def admitReq (i : Nat) (r : Req) (k : Nat) (b : List Byte) (s : State) : State :=
  match admitRefusal s r with
  | some e => refuseReq i r k e b s
  | none =>
    let a := readTokbuf r s
    match a.1 with
    | none => refuseReq i r k 0x18 b a.2
    | some (stops, prompt) =>
      let r1 := { r with stops := stops, prompt := prompt }
      match (s.spart r.part).program with
      | none => a.2
      | some g =>
        let d := admitRows i r1 g (setReq i r1 a.2)
        match d.2.req i with
        | none => d.2
        | some r2 => reqRec i r2 1 d.1 0 d.2

/-- The request that a descriptor describes. -/
def newReq (k : Nat) (x : Ring) (b : List Byte) (seq : Nat) : Req :=
  { st := .queued, seq := seq, cls := leAt b 1 1, tenant := leAt b 4 2, part := x.part, ring := k
    adapter := if dFlag b 0 then some (leAt b 8 4) else none
    draft := dFlag b 1, quiet := dFlag b 2, promptLen := leAt b 12 4, maxNew := leAt b 16 4, tokbuf := leAt b 20 8, seed := leAt b 28 8
    smp := dSampling b, userTag := dTag b, fillTo := leAt b 12 4 }
/-- The lowest ID that is FREE. -/
def freeId (s : State) : Nat := ((List.range (s.serve.reqs.length + 1)).find? fun i => (s.req i).isNone).getD 0

/-- The DMA engine no longer holds an ID for cancelled that a new request takes (DEDUCED, log 73). -/
def freshId (p i : Nat) (s : State) : State := { s with dma := { s.dma with cancelled := s.dma.cancelled.filter (· ≠ (p, i)) } }
/-- SUBMIT; a descriptor with a reserved OP is a malformed one. -/
def execSubmit (ring : Fin 64) (s : State) : Result :=
  let k := ring.val
  .next (ingest k (fun op => op = 1 || (op = 0 || 5 < op)) (fun b s =>
    if !submitOk b then refusedRec k 0x10 0 b s
    else if 2097152 ≤ s.serve.reqs.length then refusedRec k 0x16 1 b s
    else
      let i := freeId s
      let r := newReq k (s.ring k) b s.serve.nextSeq
      admitReq i r k b (setReq i r (freshId r.part i <| writeContext i { s with serve := { s.serve with nextSeq := s.serve.nextSeq + 1 } }))) s)

/-! ## Controls (R349, R359 to R361) -/

/-- A control descriptor acts on a request that is live, of the ring's partition, submitted on this ring, and that `ok` admits;
otherwise a CTRL record with NOT_LIVE answers it. -/
def control (k : Nat) (b : List Byte) (ok : Req → Bool) (act : Nat → Req → State → State) (s : State) : State :=
  let i := dReq b % 2 ^ 21
  match s.req i with
  | some r =>
    if r.part = (s.ring k).part && (r.ring = k && (!r.guest && (r.st ≠ .ending && (dReq b < 2 ^ 21 && ok r)))) then act i r s
    else putRec k { kind := 8, reason := 0x20, req := i, tag := dTag b, step := s.serve.step } s
  | none => putRec k { kind := 8, reason := 0x20, req := i, tag := dTag b, step := s.serve.step } s

/-- CANCEL: CANCEL_PENDING. -/
def execCancel (ring : Fin 64) (s : State) : Result :=
  .next (ingest ring.val (· = 2) (fun b => control ring.val b (fun _ => true) fun i r => setReq i { r with cancelP := true }) s)
/-- PAUSE: PAUSE_PENDING with the descriptor's TTL; a TTL above 30 days is taken as it is (DESIGN CHOICE, log 29). -/
def execPause (ring : Fin 64) (s : State) : Result :=
  .next (ingest ring.val (· = 3) (fun b => control ring.val b (fun _ => true) fun i r =>
    setReq i { r with pauseP := true, ttl := if leAt b 58 4 = 0 then 86400 else leAt b 58 4 }) s)
/-- The TTL of a DRIFTED request has ended, and no move-in has begun (R391). -/
def ttlOver (s : State) (r : Req) : Bool := r.move.isNone && (r.expired || r.ttlEnd.elim false fun t => t ≤ s.now)
/-- RESUME: the request becomes a candidate, or moves in, at the next edge. -/
def execResume (ring : Fin 64) (s : State) : Result :=
  .next (ingest ring.val (· = 4) (fun b s => control ring.val b (fun r => !ttlOver s r) (fun i r s =>
    setReq i { r with resumeP := some s.serve.nextResume } { s with serve := { s.serve with nextResume := s.serve.nextResume + 1 } }) s) s)
/-- NOP: the head advances. -/
def execNop (ring : Fin 64) (s : State) : Result := .next (ingest ring.val (· = 5) (fun _ s => s) s)

/-! ## The ring doorbells (R342) -/

/-- A submission ring's doorbell; the page does not answer while the pipeline is held in reset or absent
(spec/17_gust_links_and_host.md R472). -/
def ringTail (k : Nat) (val : Word) (s : State) : State :=
  let x := s.ring k
  if s.mainDown then noteOffline s
  else if x.set then setRing k { x with tail := val.toNat % 2 ^ x.subLog } s else s
/-- RING_SQTAILr. -/
def execRingSqtail (ring : Fin 64) (val : Word) (s : State) : Result := .next (ringTail ring.val val s)
/-- A result ring's doorbell. -/
def ringRetire (k : Nat) (val : Word) (s : State) : State :=
  let x := s.ring k
  if s.mainDown then noteOffline s
  else if x.set then setRing k { x with cq := val.toNat % 2 ^ x.resLog } s else s
/-- RING_CQHEADr. -/
def execRingCqhead (ring : Fin 64) (val : Word) (s : State) : Result := .next (ringRetire ring.val val s)

/-! ## EMIT (R365) -/

/-- Table SP-8: the 32 bytes of a record. -/
def recBytes (r : ResRec) (now : Nat) : List Byte :=
  leBytes 1 r.kind ++ leBytes 1 r.reason ++ leBytes 2 r.count ++ leBytes 4 r.req ++ leBytes 6 r.tag ++ leBytes 2 0 ++ leBytes 4 r.gen
    ++ leBytes 4 r.step ++ leBytes 8 now
/-- Write records at a ring's producer index and on; the answer is whether every write was taken. -/
def writeRecs (x : Ring) : Nat → List ResRec → State → Bool × State
  | _, [], s => (true, s)
  | i, r :: t, s =>
    let a := x.resAddr + 32 * (i % 2 ^ x.resLog)
    if x.hostRes then (if s.hostReady then writeRecs x (i + 1) t (send (.hostWrite a (recBytes r s.now)) s) else (false, s))
    else
      let w := dvaWrite (serveAccess x.part a true) (recBytes r s.now) s
      if w.1.isNone then writeRecs x (i + 1) t w.2 else (false, w.2)
/-- The free entries of a result ring. -/
def resultRoom (x : Ring) : Nat := 2 ^ x.resLog - (x.prod + 2 ^ x.resLog - x.cq) % 2 ^ x.resLog - 1
/-- EMIT writes the records of the oldest step whose edge has passed, then its STEP record, which counts itself (DEDUCED, log 30);
the producer index advances and the vector is sent once. -/
def execEmit (ring : Fin 64) (s : State) : Result :=
  let k := ring.val
  let x := s.ring k
  let n := x.out.head?.elim 0 ResRec.step
  let l := x.out.takeWhile fun r => r.step = n
  .next (if !x.set || (x.stopped || (l.isEmpty || (s.serve.step ≤ n || resultRoom x < l.length + 1))) then s
    else
      let e : ResRec := { kind := 7, count := l.length + 1, req := 0x1FFFFF, gen := x.head, step := n }
      let w := writeRecs x x.prod (l ++ [e]) s
      if w.1 then
        sendMsix (144 + k) (setRing k { x with prod := (x.prod + l.length + 1) % 2 ^ x.resLog, out := x.out.drop l.length } w.2)
      else ringFault k w.2)

end Sys2Proof.Machine
end

