-- ==== Sys2Proof/Machine/Completions.lean ====
section
/-!
DEFINITION. Completion timeouts, quarantine and the drift-shelf ports (spec/17_gust_links_and_host.md R474 to R479,
spec/14_pages_prefixes_adapters_drift.md R393).
-/
namespace Sys2Proof.Machine

/-! ## Timeouts and quarantine (R476 to R479) -/

/-- CPL_TIMEOUT of a path: at most one per 10 ms. -/
def cplRecord (path ut inst : Nat) (s : State) : State := logLimitedAt path 10000000 .ue 0x0711 ut inst [path] .operation s
/-- Who waits for a host completion receives HOST_ERR or stops. -/
def hostUserFails (w : HostUser) (s : State) : State :=
  match w with
  | .dma ch idx =>
    let h := s.dchan ch.val
    match h.cur, h.flight[idx.val]? with
    | some x, some c =>
      settle ch.val (chunkEnds ch.val x c .hostErr (modChan ch.val (fun h => { h with flight := h.flight.eraseIdx idx.val }) s))
    | _, _ => s
  | .fetch => s
  | .ring k => if (s.ring k.val).set then ringFault k.val s else s

/-- R477: a request times out: its requester gets an error, CPL_TIMEOUT is written, its tag enters quarantine. -/
def execCompletionTimeout (path : CplPath) (s : State) : Result :=
  .next (match path with
    | .host tag who =>
      cplRecord 0 0x0D 0 (hostUserFails who { s with link := { s.link with hostQuar := s.link.hostQuar ++ [(tag.toNat, s.now)] } })
    | .cxl n tag =>
      sendMsix (220 + n.val) (cplRecord (1 + n.val) 0x0D (1 + n.val)
        (modCxl n.val (fun p => { p with timeouts := p.timeouts + 1, quar := p.quar ++ [(tag.toNat, s.now)] }) s))
    | .gust port src tag =>
      let k := port.val
      if hasTag (s.gport k).tracked src.val tag.toNat then
        cplRecord (3 + k) 0x07 k (errorResponse src.val tag.toNat (modGport k (fun p => { p with
          tracked := dropTag p.tracked src.val tag.toNat, quar := p.quar ++ [(src.val, tag.toNat, s.now)], timeouts := satInc p.timeouts }) s))
      else s)

/-- A quarantine ends. -/
def execQuarantineEnd (path : CplPath) (s : State) : Result :=
  .next (match path with
    | .host tag _ => { s with link := { s.link with hostQuar := s.link.hostQuar.filter fun e => e.1 ≠ tag.toNat } }
    | .cxl n tag => modCxl n.val (fun p => { p with quar := p.quar.filter fun e => e.1 ≠ tag.toNat }) s
    | .gust port src tag => modGport port.val (fun p => { p with quar := dropTag p.quar src.val tag.toNat }) s)

/-- R478: a completion or acknowledgement arrives: one whose tag is in quarantine is discarded, counted and logged; a host completion
that is neither outstanding (`outstanding`) nor in quarantine is an Unexpected Completion. Data come with the rows of their engines. -/
def execCompletionArrival (path : CplPath) (outstanding : Bool) (s : State) : Result :=
  .next (match path with
    | .host tag _ =>
      match s.link.hostQuar.find? fun e => e.1 = tag.toNat with
      | some e => logInfo 0x0710 0x0D 0 [0, tag.toNat, s.now - e.2] { s with link := { s.link with hostLate := satInc s.link.hostLate } }
      | none => if outstanding then s else { s with link := { s.link with unexpected := s.link.unexpected + 1 } }
    | .cxl n tag =>
      match (s.cxlPort n.val).quar.find? fun e => e.1 = tag.toNat with
      | some e =>
        logInfo 0x0710 0x0D (1 + n.val) [1 + n.val, tag.toNat, s.now - e.2] (modCxl n.val (fun p => { p with late := satInc p.late }) s)
      | none => s
    | .gust port src tag => answerArrives port.val src.val tag.toNat (fun s => s) s)

/-! ## The drift-shelf ports (R474, R475, R393) -/

/-- R475: a CXL port leaves service: CXL_DOWN, its vector, and its drift pages are BAD. -/
def cxlDown (n cause : Nat) (s : State) : State :=
  cxlOut n (sendMsix (220 + n) (logUe .unit 0x0712 0x0D (1 + n) [n, cause]
    (setUnitRec 0x0D (1 + n) { s.unitRec 0x0D (1 + n) with st := .faulted, trigger := 0x0712, trigTs := s.now } s)))
/-- A CXL port in service leaves it. -/
def execCxlDown (n : Fin 2) (cause : Fin 4) (s : State) : Result :=
  .next (if (s.cxlPort n.val).up then cxlDown n.val cause.val s else s)
/-- R475: a poisoned read: its drift page is BAD, its session is handled as R393 says. -/
def execCxlPoison (page : BitVec 26) (s : State) : Result :=
  let d := page.toNat
  let n := driftPort s d
  .next (if d < driftPagesAll s && (s.cxlPort n).up then
      let s1 := modCxl n (fun p => { p with poisons := p.poisons + 1 }) s
      let s2 := sendMsix (220 + n) (logUe .operation 0x0713 0x0D (1 + n) [n, d] s1)
      driftLost (· = d) { s2 with serve := { s2.serve with
        driftBadPages := if d ∈ s2.serve.driftBadPages then s2.serve.driftBadPages else d :: s2.serve.driftBadPages } }
    else s)
/-- R474: Severe Overload halves the drift engine's rate on a port. -/
def execDevloadOverload (n : Fin 2) (s : State) : Result :=
  .next (if (s.cxlPort n.val).up then modCxl n.val (fun p => { p with halved := true, overloads := p.overloads + 1 }) s else s)
/-- 1 ms later the rate is restored. -/
def execDevloadEnd (n : Fin 2) (s : State) : Result :=
  .next (modCxl n.val (fun p => { p with halved := false }) s)

end Sys2Proof.Machine
end

