-- ==== Sys2Proof/Machine/Drafts.lean ====
section
/-!
DEFINITION. The draft engine and the sampler: draft programs, drafting rounds, logit packets (spec/15_draft_and_sampler.md R397 to
R415).
-/
namespace Sys2Proof.Machine

/-! ## Draft programs (R397 to R399) -/

/-- Table DS-1: a header in range that agrees with the serving program. -/
def draftHeaderOk (g : Program) (b : List Byte) : Bool :=
  let kvo := leAt b 40 2
  let kvd := leAt b 42 2
  b.length = 64 && (leAt b 0 4 = 0x44524654 && (leAt b 4 2 = 1 && (1 ≤ leAt b 6 1 && (leAt b 6 1 ≤ 16 && (1 ≤ leAt b 7 1 && (leAt b 7 1 ≤ 64
    && (leAt b 8 4 = g.vocab && (32 ≤ leAt b 12 4 && (leAt b 12 4 ≤ 1048576 && (leAt b 12 4 % 32 = 0 && (leAt b 16 6 % 64 = 0
    && (leAt b 22 2 = 0 && (leAt b 24 6 % 64 = 0 && (leAt b 30 2 = 0 && (1 ≤ leAt b 32 8 && (leAt b 32 8 ≤ 2 ^ 31 && (kvo % 64 = 0
    && (64 ≤ kvd && (kvd % 64 = 0 && (kvo + kvd ≤ g.kvBytes && (4096 ≤ leAt b 48 4 && (leAt b 48 4 ≤ 8388608 && (leAt b 52 8 = 0
    && crc32c (b.take 60) = leAt b 60 4)))))))))))))))))))))))

/-- R399: what an instruction reads and writes, in bytes: A, B in the weight block, B in the working area, D (DEDUCED, log 31). -/
def operandSizes (i : List Byte) (vocab : Nat) : Nat × Nat × Nat × Nat :=
  let e := dtSize (leAt i 1 1)
  let m := leAt i 16 2
  let n := leAt i 18 2
  let k := leAt i 20 2
  match leAt i 0 1 with
  | 1 => (m * k * e, k * n * e, 0, m * n * 4)
  | 2 | 3 => (m * n * 4, 0, m * n * 4, m * n * 4)
  | 4 => (m * n * 4, n * 4, 0, m * n * 4)
  | 5 | 6 | 8 => (m * n * 4, 0, 0, m * n * 4)
  | 7 => (m * n * e, 0, 0, 0)
  | 9 => (0, vocab * n * e, 0, m * n * 4)
  | 10 => (m * k * e, k * vocab * e, 0, m * vocab * 4)
  | _ => (m * n * 4, 0, 0, m * n * e)
/-- R399: one instruction of 32 bytes: OP and DT of the table, no reserved bit, every operand inside its area. -/
def draftInstrOk (vocab sram weights kvd : Nat) (i : List Byte) : Bool :=
  let op := leAt i 0 1
  let dt := leAt i 1 1
  let fl := leAt i 2 2
  let z := operandSizes i vocab
  1 ≤ op && (op ≤ 11 && (dt ≤ 2 && (leAt i 22 2 = 0 && (leAt i 28 4 = 0 && (!(op = 1 && dt = 2)
    && ((if op = 5 then fl ≤ 1 else if op = 7 then fl + leAt i 18 2 * dtSize dt ≤ kvd else fl = 0)
    && (leAt i 4 4 + z.1 ≤ sram && (leAt i 12 4 + z.2.2.2 ≤ sram
    && ((z.2.1 = 0 || leAt i 8 4 + z.2.1 ≤ weights) && (z.2.2.1 = 0 || leAt i 8 4 + z.2.2.1 ≤ sram))))))))))
/-- Every instruction of a code block. -/
def draftCodeOk (vocab sram weights kvd : Nat) : Nat → List Byte → Bool
  | 0, _ => true
  | n + 1, l => draftInstrOk vocab sram weights kvd (l.take 32) && draftCodeOk vocab sram weights kvd n (l.drop 32)

/-- The working areas of all loaded programs. -/
def sramUsed (s : State) : Nat := (s.serve.drafts.map fun e => e.2.sram).sum
/-- Free a partition's draft program. -/
def dropDraft (p : Nat) (s : State) : State :=
  match s.draftOf p with
  | none => s
  | some d => freeFrames d.frames { s with serve := { s.serve with drafts := s.serve.drafts.filter fun e => e.1 ≠ p } }
/-- UNLOAD. -/
def unloadBit (m : Mbx) : Bool := m.arg 2 % 2 = 1
/-- The expert form belongs to partition 0, and its share lies from 5 % to 50 % (R415). -/
def shareOk (m : Mbx) : Bool := !m.exp || (5 ≤ m.arg 3 && m.arg 3 ≤ 50)
/-- The draft budget share of the expert form applies from the next edge. -/
def setShare (m : Mbx) (s : State) : State := if m.exp then { s with serve := { s.serve with nextShare := some (m.arg 3) } } else s
/-- Bytes read by DVA, none where the read fails. -/
def dvaBytes (p dva n : Nat) (s : State) : List Byte × State :=
  let r := dvaRead (serveAccess p dva false) n s
  (match r.1 with
    | .ok b => b
    | .error _ => [], r.2)
/-- Store a byte string over frames. -/
def pokeFrames : List Nat → List Byte → State → State
  | [], _, s => s
  | f :: t, b, s => pokeFrames t (b.drop 65536) (poke (f * 65536) (b.take 65536) s)

/-- DRAFT_LOAD: header and code are checked, frames granted, code and weights copied; a program that the partition had loaded goes
first (DESIGN CHOICE, log 32). -/
def execDraftLoad (n : Fin 16) (s : State) : Result :=
  .next (commandIf 0x0506 n.val (fun m => !unloadBit m)
    (fun s m =>
      let p := mbxPart s n.val
      { notPermitted := firstFail [failIf (ctPart s p) 0x0524, failIf (m.exp && p ≠ 0) 0]
        badArg := failIf (2 ≤ m.arg 2 || !shareOk m) 0 })
    (fun s m =>
      let p := mbxPart s n.val
      let h := dvaBytes p (m.arg64 0) 64 s
      let code := dvaBytes p (leAt h.1 16 6) (leAt h.1 12 4) h.2
      let w := dvaBytes p (leAt h.1 24 6) (leAt h.1 32 8) code.2
      let good := 2 ^ 48 > m.arg64 0 && (s.spart p).program.elim false fun g => draftHeaderOk g h.1
      let codeOk := code.1.length = leAt h.1 12 4
        && draftCodeOk (leAt h.1 8 4) (leAt h.1 48 4) (leAt h.1 32 8) (leAt h.1 42 2) (code.1.length / 32) code.1
      let others := s.serve.drafts.filter fun e => e.1 ≠ p
      let bad := [failIf (!good) 0x0520, failIf (!codeOk) 0x0521, failIf (w.1.length ≠ leAt h.1 32 8) 0]
      let c : Checks :=
        { badArg := firstFail bad
          busy := firstFail [failIf (partLive s p) 0x0522, maintBusy s]
          noResource := failIf (8 ≤ others.length || 8388608 < (others.map fun e => e.2.sram).sum + leAt h.1 48 4) 0x0523 }
      decideOn n.val c (fun s =>
        let s0 := dropDraft p s
        let nc := ceilDiv code.1.length 65536
        let a := steward p (nc + ceilDiv w.1.length 65536) 1 false false n.val s0
        match a.1 with
        | .error hint => reply n.val { status := 0x20, detail := 0x0514, res := [hint] } a.2
        | .ok l =>
          let s1 := pokeFrames (l.drop nc) w.1 (pokeFrames (l.take nc) code.1 (markFrames { use := .system, part := p } l a.2))
          let d : DraftProg := { k := leAt h.1 6 1, support := leAt h.1 7 1, vocab := leAt h.1 8 4, t0 := leAt h.1 44 2, t1 := leAt h.1 46 2
                                 sram := leAt h.1 48 4, codeLen := leAt h.1 12 4, kvOff := leAt h.1 40 2, kvLen := leAt h.1 42 2, frames := l, digest := Config.sha384 (h.1 ++ code.1 ++ w.1) }
          let s2 := { s1 with serve := { s1.serve with drafts := s1.serve.drafts ++ [(p, d)] } }
          setAwait n.val .draftLoad (replyAccepted n.val (setShare m s2))) w.2) s)

/-- DRAFT_LOAD with UNLOAD. -/
def execDraftUnload (n : Fin 16) (s : State) : Result :=
  .next (commandIf 0x0506 n.val unloadBit
    (fun s m =>
      let p := mbxPart s n.val
      { notPermitted := failIf (m.exp && p ≠ 0) 0
        badArg := failIf (m.arg 2 ≠ 1 || (m.arg 0 ≠ 0 || (m.arg 1 ≠ 0 || !shareOk m))) 0
        busy := firstFail [failIf (partLive s p) 0x0522, maintBusy s] })
    (fun s m => replyDone n.val [] [] (setShare m (dropDraft (mbxPart s n.val) s))) s)

/-- The mailboxes of a partition that wait for its draft program. -/
def draftBoxes (s : State) (p : Nat) : List Nat := (List.range 16).filter fun n => (s.box n).await = some .draftLoad && mbxPart s n = p
/-- Answer several mailboxes. -/
def replyEach (r : Reply) : List Nat → State → State
  | [], s => s
  | n :: t, s => replyEach r t (reply n r (setBox n { s.box n with await := none } s))
/-- The copy and the digest end: the prefixes of the partition are flushed, the program drafts, DONE carries 16 bytes of its
digest. -/
def execDraftLoaded (part : Fin 64) (s : State) : Result :=
  let p := part.val
  .next (match s.draftOf p with
    | none => s
    | some d =>
      if d.ready then s
      else
        let s1 := { s with serve := { s.serve with drafts := s.serve.drafts.map fun e => if e.1 = p then (p, { d with ready := true }) else e } }
        let s2 := logInfo 0x0520 0x0E 1 [p] (removeEntries (fun _ e => e.part = p) s1)
        replyEach { status := 0, res := (List.range 4).map fun i => d.digest.toNat / 2 ^ (32 * i) % 2 ^ 32 } (draftBoxes s2 p) s2)

/-! ## Drafting rounds (R402, R404, R413) -/

/-- The requests of a partition that a round drafts for. -/
def drafters (s : State) (p : Nat) : List Nat :=
  (s.serve.drafting.filter fun e => (s.req e.1).elim false fun r => r.part = p).map Prod.fst
/-- One round of a request: the proposal record grows by a position; with the last round the proposal stands. -/
def roundOne (d : DraftProg) (i : Nat) (s : State) : State :=
  match s.req i with
  | none => s
  | some r =>
    match (s.spart r.part).program with
    | none => s
    | some g =>
      let e := Tab.get {} s.serve.drafting i
      let got := (decidedOf s i).1
      let k := min d.k (r.maxNew - (r.genLen + got.length) - 1)
      let x := draftTurn g d r k e.left (r.toks ++ got) e.props s.mem.bytes
      let s1 := { s with mem := { s.mem with bytes := x.2 }
                         serve := { s.serve with drafting := if e.left = 1 then Tab.del s.serve.drafting i
                                                             else Tab.put {} s.serve.drafting i { left := e.left - 1, props := x.1 } } }
      if e.left = 1 then setReq i { r with prop := some x.1 } s1 else s1
/-- One round for each request. -/
def roundEach (d : DraftProg) : List Nat → State → State
  | [], s => s
  | i :: t, s => roundEach d t (roundOne d i s)
/-- Several requests have no proposal. -/
def clearProposals : List Nat → State → State
  | [], s => s
  | i :: t, s => clearProposals t (modReq i (fun r => { r with prop := none })
      { s with serve := { s.serve with drafting := Tab.del s.serve.drafting i } })
/-- Change a draft program. -/
def modDraft (p : Nat) (f : DraftProg → DraftProg) (s : State) : State :=
  { s with serve := { s.serve with drafts := s.serve.drafts.map fun e => if e.1 = p then (p, f e.2) else e } }
/-- A drafting round of a partition's program ends; with an error its proposals are discarded, and the third in a row marks the
program FAILED. -/
def execDraftRound (part : Fin 64) (err : Bool) (s : State) : Result :=
  let p := part.val
  let l := drafters s p
  .next (match draftReady s p with
    | none => s
    | some d =>
      if l.isEmpty then s
      else if err then
        let s1 := modDraft p (fun d => { d with errs := d.errs + 1, failed := 3 ≤ d.errs + 1 }) (clearProposals l s)
        logUe (if 3 ≤ d.errs + 1 then .partition else .operation) 0x0524 0x0E 1 [p] s1
      else roundEach d l (modDraft p (fun d => { d with errs := 0 }) s))

/-! ## Logit packets (R406 to R411) -/

/-- R407: the entry that a packet names, where its position is one that SAMPLE needs. -/
def packetEntry (s : State) (slot j : Nat) : Option Entry :=
  s.serve.entries.find? fun e => e.slot = slot && (0 < entryPositions s e && (if e.kind = .prefill then j + 1 = e.ntok else j < e.ntok))
/-- The logits of a position, in token order. -/
def positionLogits (s : State) (slot j vocab : Nat) : List Nat :=
  (((List.range (ceilDiv vocab 1024)).flatMap fun b =>
    ((s.serve.packets.find? fun k => k.1 = (slot, j, b * 1024)).elim [] Prod.snd).map fWiden)).take vocab
/-- The positions of an entry that are judged. -/
def judgedPositions (e : Entry) : List Nat := if e.kind = .prefill then [e.ntok - 1] else List.range e.ntok
/-- R402: after a verify or decode the engine drafts the next proposal, unless the request ends with these tokens. -/
def draftAfter (e : Entry) (r : Req) (toks : List Nat) (code : Nat) (s : State) : State :=
  match draftReady s e.part with
  | none => s
  | some d =>
    let n := r.genLen + toks.length
    let k := min d.k (r.maxNew - n - 1)
    if !r.draft || (e.kind = .prefill || (code ≠ 0 || k = 0)) then s
    else
      let rounds := if e.kind = .verify && toks.length = e.ntok then k + 1 else k
      { s with serve := { s.serve with drafting := Tab.put {} s.serve.drafting e.req { left := rounds } } }
/-- Every packet of an entry has arrived: the lanes decide its tokens. -/
def decideEntry (e : Entry) (s : State) : State :=
  match s.req e.req, (s.spart e.part).program with
  | some r, some g =>
    let ls := (judgedPositions e).map fun j => positionLogits s e.slot j g.vocab
    let props := if e.kind = .verify then r.prop.getD [] else []
    let d := judgeAll r.smp r.seed r.stops r.next ls props r.toks
    let s1 := setReq e.req { r with prop := none } { s with serve := { s.serve with decided := (e.req, d) :: s.serve.decided } }
    let s2 := if d.2 = 2 then logUe .operation 0x0521 0x0E 2 [e.req] s1 else s1
    draftAfter e r d.1 d.2 s2
  | _, _ => s
/-- A logit packet reaches the sampler: a second one and one that names no position are discarded and counted. -/
def execLogitPacket (slot : BitVec 16) (j : BitVec 8) (vbase : BitVec 32) (logits : Vector (BitVec 16) 1024) (s : State) : Result :=
  let key := (slot.toNat, j.toNat, vbase.toNat)
  .next (match packetEntry s slot.toNat j.toNat with
    | none => { s with serve := { s.serve with badPackets := s.serve.badPackets + 1 } }
    | some e =>
      let vocab := ((s.spart e.part).program).elim 0 Program.vocab
      if vbase.toNat % 1024 ≠ 0 || vocab ≤ vbase.toNat then { s with serve := { s.serve with badPackets := s.serve.badPackets + 1 } }
      else if s.serve.packets.any fun k => k.1 = key then
        let s1 := { s with serve := { s.serve with dupPackets := s.serve.dupPackets + 1, dupNoted := some s.serve.step } }
        if s.serve.dupNoted = some s.serve.step then s1 else logInfo 0x0522 0x0E 2 [slot.toNat] s1
      else
        let nan := (logits.toList.take (vocab - vbase.toNat)).countP fun x => isNan (fWiden x)
        let s1 := { s with serve := { s.serve with packets := (key, logits.toList) :: s.serve.packets, nans := s.serve.nans + nan } }
        if entryLogits s1 e then decideEntry e s1 else s1)

end Sys2Proof.Machine
end

