-- ==== Sys2Proof/Machine/Join.lean ====
section
/-!
DEFINITION. Joining the tray: TRAY_DONE, the roster and JOIN records (spec/04_start_and_doldrums.md R102 to R105), shared by
the start of a package and by the Vane load that ends it.
-/
namespace Sys2Proof.Machine

/-- The ones of a mask in rising order. -/
def maskList128 (m : BitVec 128) : List Nat := (List.range 128).filter fun c => m.getLsbD c

/-- A package that sends and takes JOIN records: in PH_JOIN, in PH_SERVE or at rest as excluded. -/
def joinPhase (s : State) : Bool :=
  (s.aon.phase = .join || s.aon.phase = .serve || s.aon.phase = .excluded) && s.released && !s.units.outOfService

/-- STATUS of a JOIN record. -/
def joinCode : JoinStatus → Nat
  | .joining => 1 | .excluded => 2 | .serving => 3

/-- The status this package sends. -/
def ownStatus (s : State) : JoinStatus :=
  match s.aon.phase with
  | .serve => .serving
  | .excluded => .excluded
  | _ => .joining

/-- Send messages on ports of a list. -/
def sendOn (msg : Nat → Msg) : List Nat → State → State
  | [], s => s
  | k :: t, s => sendOn msg t (send (msg k) s)

/-- The mesh ports whose link is up and not MISWIRED. -/
def usableMesh (s : State) : List Nat := (List.range 7).filter fun k => gustUsable s k

/-- R103: send this package's JOIN record on every usable port of GP0 to GP6. -/
def sendJoins (s : State) : State :=
  sendOn (fun k => .join k s.aon.trayId s.aon.slot.val (joinCode (ownStatus s)) s.store.exclMap.toNat s.store.startSeq.toNat) (usableMesh s) s

/-- R103: a record of another slot is relayed once for each slot, START_SEQ and STATUS on the other usable ports. -/
def relayJoin (port tray slot : Nat) (st : JoinStatus) (map seq : Nat) (s : State) : State :=
  let key := (slot, seq, (joinCode st))
  if key ∈ s.start.relayed then s
  else sendOn (fun k => .join k tray slot (joinCode st) map seq) ((usableMesh s).filter (· ≠ port))
    { s with start := { s.start with relayed := key :: s.start.relayed } }

/-- R103, R105: what a record changes: the slot's ROSTER bit when the tray IDs are equal, the map it carries, whether a
SERVING record has been heard; a serving package treats the ports of a slot that is JOINING again as units that return. -/
def noteJoin (tray slot : Nat) (st : JoinStatus) (map : Nat) (s : State) : State :=
  let s1 := { s with
    aon := { s.aon with roster := if tray = s.aon.trayId then setBit s.aon.roster slot true else s.aon.roster }
    start := { s.start with
      mapsHeard := (slot, map) :: s.start.mapsHeard.filter fun e => e.1 ≠ slot
      servingHeard := s.start.servingHeard || st = .serving
      peersServing := if st = .serving then setBit s.start.peersServing slot true else s.start.peersServing } }
  if s.aon.phase = .serve ∧ st = .joining ∧ !s.start.peersServing.getLsbD slot then
    peerReturns slot s1
  else s1

/-- The level of TRAY_DONE is watched for 100 µs without a break (R103). -/
def doneWatch (s : State) : State :=
  if s.doneLvl then { s with start := { s.start with doneSince := some (s.start.doneSince.getD s.now) } }
  else { s with start := { s.start with doneSince := none, done100 := false } }

/-- Condition 1 of R103. -/
def joinCond1 (s : State) : Bool := s.start.done100 || s.start.servingHeard
/-- Condition 2 of R103. -/
def joinCond2 (s : State) : Bool := s.aon.roster ||| s.store.exclMap = 0xFF
/-- Condition 3 of R103. -/
def joinCond3 (s : State) : Bool := s.start.mapsHeard.all fun e => e.2 = s.store.exclMap.toNat

/-- R339: the step count is 1 for the first step after PH_SERVE entry; it has nothing dispatched. -/
def firstStep (s : State) : State :=
  { s with serve := { s.serve with step := 1, edgeAt := s.now, prevEdge := s.now, dispatchedAt := s.now, entries := [], groups := 0 } }

/-- R104: PH_SERVE begins, with a TRAY_START record that carries ROSTER and the map. -/
def enterServe (s : State) : State :=
  let t := firstStep (enterPhase .serve (phaseExit 0 (leaveHold s)))
  sendJoins (logInfo 0x0114 0x00 0 [s.aon.roster.toNat, s.store.exclMap.toNat]
    { t with start := { t.start with peersServing := s.aon.roster } })

/-- R103: a package in PH_JOIN passes when the three conditions hold at once, and otherwise holds; a
mismatch of the maps is reported before the other two (DEDUCED, log 16). -/
def joinRecheck (s : State) : State :=
  if s.aon.phase = .join ∧ s.aon.startSt ≠ .failed ∧ s.released then
    if !joinCond3 s then enterHold 0x07 s
    else if !joinCond1 s then enterHold 0x04 s
    else if !joinCond2 s then enterHold 0x05 s
    else enterServe s
  else s

/-- R45, R102, R103, R108: a package enters PH_JOIN: FAIL_CNT returns to 0, its own ROSTER bit is set, TRAY_DONE is released,
the staging area is given back (R129) and its first JOIN records go out; an excluded package then rests. -/
def enterJoin (s : State) : State :=
  let s1 := setFailCnt 0 (enterPhase .join s)
  let s2 := { s1 with
    aon := { s1.aon with roster := setBit s1.aon.roster s.aon.slot.val true }
    pins := { s1.pins with doneDrv := false, errDrv := false }
    vane := { s1.vane with staged := none, capFail := none } }
  if s.aon.excluded then
    let s3 := enterPhase .excluded (phaseExit 0 s2)
    sendJoins s3
  else joinRecheck (doneWatch (sendJoins s2))

end Sys2Proof.Machine
end

