-- ==== Sys2Proof/Machine/VaneOps.lean ====
section
/-!
DEFINITION. The layout of the configuration stream, the checks of a section and the load of the Vane fabric
(spec/05_vane_fabric.md R121 to R132).
-/
namespace Sys2Proof.Machine

/-! ## Headers (Tables VF-3 and VF-4) -/

/-- SYNC: these 64 bytes are a tray header. -/
def isTrayHdr (h : List Byte) : Bool := leAt h 0 4 = 0xA5C33C5A
/-- TRAY_ID of a tray header, bits [11:0]. -/
def hdrTrayId (h : List Byte) : Nat := leAt h 8 2 % 4096
/-- BUILD_ID of a tray header. -/
def hdrBuildId (h : List Byte) : Nat := leAt h 24 8
/-- HDR_CRC of a tray header is correct. -/
def hdrCrcOk (h : List Byte) : Bool := h.length = 64 && crc32c (h.take 60) = leAt h 60 4
/-- HDR_BAD does not apply. -/
def hdrOk (h : List Byte) : Bool := hdrCrcOk h && leAt h 4 2 = 1 && leAt h 12 2 = 0xD2 && leAt h 14 1 = 0xB1

/-- SLOT of a section header. -/
def shSlot (h : List Byte) : Nat := leAt h 4 1 % 8
/-- EMPTY. -/
def shEmpty (h : List Byte) : Bool := leAt h 5 1 % 2 = 1
/-- VIO_ENABLE. -/
def shVio (h : List Byte) : BitVec 64 := BitVec.ofNat 64 (leAt h 20 8)
/-- VP_ENABLE. -/
def shVp (h : List Byte) : BitVec 4 := BitVec.ofNat 4 (leAt h 28 1)
/-- VP_CLK of Vane port p. -/
def shVpClk (h : List Byte) (p : Nat) : Nat := leAt h 30 2 / 2 ^ (4 * p) % 8
/-- FREQ of CLOCKn. -/
def shFreq (h : List Byte) (n : Nat) : Nat := leAt h (32 + 4 * n) 4 % 1024
/-- SRC of CLOCKn. -/
def shSrc (h : List Byte) (n : Nat) : Nat := leAt h (34 + 4 * n) 1
/-- SP_ALLOW. -/
def shAllow (h : List Byte) : BitVec 64 := BitVec.ofNat 64 (leAt h 64 8)
/-- SP_HOME. -/
def shHome (h : List Byte) : Nat := leAt h 72 1 % 64
/-- SHDR_CRC is correct. -/
def shCrcOk (h : List Byte) : Bool := h.length = 128 && crc32c (h.take 124) = leAt h 124 4

/-- SHDR_BAD: a reserved field is not 0, or VP_CLK or SP_CLK names a clock whose SRC is off, be its port enabled or not (log 22). -/
def shBad (h : List Byte) : Bool :=
  8 ≤ leAt h 4 1 || 4 ≤ leAt h 5 1 || leAt h 6 2 ≠ 0 || 16 ≤ leAt h 28 1 || leAt h 29 1 ≠ 0 || leAt h 30 2 &&& 0x8888 ≠ 0
    || (List.range 8).any (fun n => leAt h (32 + 4 * n) 4 &&& 0xFF00FC00 ≠ 0)
    || 64 ≤ leAt h 72 1 || 8 ≤ leAt h 73 1 || leAt h 74 2 ≠ 0 || leAt h 80 44 ≠ 0
    || (List.range 4).any (fun p => shSrc h (shVpClk h p) = 0)
    || shSrc h (shSpClk h) = 0
/-- CLOCK_PLAN: FREQ out of range, SRC reserved, or SRC naming an enabled pin (log 22). -/
def clockPlanBad (h : List Byte) : Bool :=
  (List.range 8).any fun n =>
    let s := shSrc h n
    s ≠ 0 && (!(s = 1 || (0x80 ≤ s && s < 0xC0)) || shFreq h n < 10 || 600 < shFreq h n
      || (0x80 ≤ s && (shVio h).getLsbD (s - 0x80)))

/-! ## Frames (Table VF-5) -/

/-- REGION of a frame address. -/
def faRegion (a : Nat) : Nat := a / 2 ^ 18 % 64
/-- KIND of a frame address. -/
def faKind (a : Nat) : Nat := a / 2 ^ 16 % 4
/-- INDEX of a frame address. -/
def faIndex (a : Nat) : Nat := a % 2 ^ 13
/-- Frames of a KIND in one region. -/
def kindFrames (k : Nat) : Nat := if k = 0 then 1250 else 6144
/-- `n` frames from a frame address exist, and its reserved bits are 0. -/
def frameOk (a n : Nat) : Bool :=
  faKind a < 2 && a / 2 ^ 13 % 8 = 0 && 1 ≤ n && faIndex a + n ≤ kindFrames (faKind a)
/-- The 256 bytes of a pattern repeated. -/
def fillBytes (pat : Nat) : List Byte := (List.range 64).flatMap fun _ => leBytes 4 pat
/-- Store one frame; a frame of zeros is not listed. -/
def putFrame (a : Nat) (b : List Byte) (t : Tab (List Byte)) : Tab (List Byte) :=
  if b.all (· = 0) then Tab.del t a else Tab.ins t a b
/-- Store `n` frames from an address upward. -/
def fillFrames (b : List Byte) : Nat → Nat → Tab (List Byte) → Tab (List Byte)
  | _, 0, t => t
  | a, n + 1, t => fillFrames b (a + 1) n (putFrame a b t)
/-- The 256 bytes of a frame. -/
def frameAt (t : Tab (List Byte)) (a : Nat) : List Byte := Tab.get (List.replicate 256 0) t a

/-- One record at the head of a byte string: its length, or 0 for a reserved OP. -/
def recLen (l : List Byte) : Nat := match leAt l 3 1 / 64 with | 1 => 264 | 2 => 16 | _ => 0

/-- What a check of the records finds: the records counted; the subcode and the bytes after the failing record; a record that runs past
SECT_LEN. -/
inductive RecCheck | ok (n : Nat) | bad (sub : Nat) (rest : List Byte) | over
  deriving DecidableEq, Repr

/-- Table VF-9: the records of a section one by one: RECORD_BAD, FCRC, and COUNT for a record that runs past SECT_LEN. -/
def checkRecs : Nat → Nat → List Byte → RecCheck
  | 0, n, _ => .ok n
  | fuel + 1, n, l =>
    if l.isEmpty then .ok n
    else
      let len := recLen l
      if len = 0 then .bad 0x07 (l.drop 4)
      else if l.length < len then .over
      else
        let cnt := if len = 16 then leAt l 4 4 else 1
        if leAt l 3 1 % 64 ≠ 0 || !frameOk (leAt l 0 3) cnt then .bad 0x07 (l.drop len)
        else if crc32c (l.take (len - 4)) ≠ leAt l (len - 4) 4 then .bad 0x08 (l.drop len)
        else checkRecs fuel (n + 1) (l.drop len)

/-- The outcome of a captured section: passed, truncated, or failed with a subcode. -/
inductive Captured | pass | truncated | fail (sub : Nat)
  deriving DecidableEq, Repr

/-- Table VF-9, the checks marked capture in the order in which their bytes arrive. -/
def judge (pub : Nat) (tray hdr body : List Byte) : Captured :=
  if !hdrOk tray then .fail 0x01
  else if hdrTrayId tray = 0 || (pub ≠ 0 && pub ≠ hdrTrayId tray) then .fail 0x02
  else if shBad hdr then .fail 0x03
  else if leAt hdr 8 8 < 132 || 67108864 < leAt hdr 8 8 then .fail 0x04
  else if clockPlanBad hdr then .fail 0x05
  else if 600 < leAt hdr 76 4 then .fail 0x06
  else
    match checkRecs body.length 0 (body.take (body.length - 4)) with
    | .bad sub rest => if (rest ++ body.drop (body.length - 4)).all (· = 0) then .truncated else .fail sub
    | .over => .fail 0x09
    | .ok n =>
      if n ≠ leAt hdr 16 4 || leAt hdr 8 8 ≠ 128 + body.length then .fail 0x09
      else if crc32c (hdr ++ body.take (body.length - 4)) ≠ leAt body (body.length - 4) 4 then .fail 0x0A
      else .pass

/-- R130: every FCRC of a staged section is correct, as the load finds it. -/
def stagedOk (x : List Byte) : Bool :=
  match checkRecs x.length 0 ((x.drop 128).take (x.length - 132)) with
  | .ok _ => true
  | .bad _ _ | .over => false
/-- R124, R130: write the frames in record order. -/
def loadRecs : Nat → List Byte → Tab (List Byte) → Tab (List Byte)
  | 0, _, t => t
  | fuel + 1, l, t =>
    let len := recLen l
    if len = 0 || l.length < len then t
    else if len = 264 then loadRecs fuel (l.drop len) (putFrame (leAt l 0 3) ((l.drop 4).take 256) t)
    else loadRecs fuel (l.drop len) (fillFrames (fillBytes (leAt l 8 4)) (leAt l 0 3) (leAt l 4 4) t)

/-! ## States of the fabric (R121, R130, R131) -/

/-- A load begins with the staged section; the wait for one ends. -/
def beginLoad (s : State) : State :=
  match s.vane.staged with
  | none => s
  | some x =>
    let t := leaveHold s
    { t with
      vane := { t.vane.clear .loading with loading := some x, staged := none, requesting := false }
      aon := { t.aon with startSt := .running, reason := t.aon.failReason }
      start := { t.start with phaseStart := if s.aon.startSt = .failed then s.now else t.start.phaseStart } }

/-- R131, R101: a load fails: FAILED, with its UE record. -/
def vaneLoadFail (sub : Nat) (s : State) : State :=
  let t := logUe .unit 0x0802 0x0C 0xFF [sub] { s with vane := { s.vane.clear .failed with lastSub := sub } }
  if s.aon.phase = .vane then failStart 0x50 t else t

/-- R32, R132: publish the held tray ID. -/
def publishTray (s : State) : State :=
  match s.aon.heldTrayId with
  | none => s
  | some t => { s with aon := { s.aon with trayId := if s.aon.trayId = 0 then t else s.aon.trayId, heldTrayId := none } }

/-! ## Sending (R125) -/

/-- Slot 0 may send: it has passed PH_TRAIN and is not in doldrums mode, and no send is in progress. -/
def canSend (s : State) : Bool :=
  s.aon.slot = 0 && (s.aon.phase = .vane || s.aon.phase = .join || s.aon.phase = .serve || s.aon.phase = .excluded)
    && s.released && s.clk.sclk && !s.haltLatched && !s.vane.sending

/-- Slot 0 begins to send the stream from an offset of the tray flash. -/
def startSend (off : Nat) (s : State) : State :=
  send (.stream off) { s with vane := { s.vane with sending := true, lastSend := some s.now } }

end Sys2Proof.Machine
end

