-- ==== Sys2Proof/Machine/Vane.lean ====
section
/-!
DEFINITION. The configuration stream, the loads of the Vane fabric, the vane self-port and the Vane commands
(spec/05_vane_fabric.md R121 to R138).
-/
namespace Sys2Proof.Machine

/-! ## PH_VANE (R100 to R102, R129, R130) -/

/-- R126: a STREAM_REQ goes out on every usable mesh port. Like a JOIN record it carries START_SEQ, and a number within the start
(log 19). -/
def sendStreamReq (s : State) : State :=
  sendOn (fun k => .streamReq k s.aon.slot.val (s.store.startSeq.toNat * 65536 + s.vane.reqNo.toNat)) (usableMesh s)
    { s with vane := { s.vane with reqNo := s.vane.reqNo + 1 } }

/-- The package enters PH_VANE: it loads a staged section, fails for a capture failure that still stands, or holds with
WAIT_STREAM and asks for the stream. The map that PH_FUSE has read says whether the package is excluded (R187). -/
def enterVane (s : State) : State :=
  if s.start.runMap.getLsbD s.aon.slot.val then enterJoin s
  else
    let t := enterPhase .vane s
    if t.vane.staged.isSome then beginLoad t
    else if t.vane.capFail.isSome then failStart 0x50 { t with vane := { t.vane.clear .failed with capFail := none } }
    else sendStreamReq (enterHold 0x03 { t with vane := { t.vane with requesting := true } })

/-- What the package does with its own section that begins to pass (Table VF-8). -/
def capMode (s : State) : CapMode :=
  if !s.start.chain || s.haltLatched || s.aon.phase = .doldrums || s.vane.trayHdr.isNone then .forward
  else if s.vane.st = .loading then .discard
  else
    match s.aon.phase with
    | .join | .serve | .excluded => .discard
    | .power | .fuse | .doldrums => .forward
    | .boot | .auth | .train | .vane => .capture
/-- R127, R128: what leaves on CFG_DOUT: the bytes that came, or 0 for the length of a section that is captured or taken off the chain. -/
def chainOut (bytes : List Byte) (held : Bool) (s : State) : State :=
  send (.chain (if held then List.replicate bytes.length 0 else bytes) held) s

/-- R132: the tray header passes: an active receiver holds its TRAY_ID when HDR_CRC is correct. -/
def execTrayHeader (hdr : List Byte) (s : State) : Result :=
  .next (if !s.released then s
    else if s.start.chain && isTrayHdr hdr then
      chainOut hdr false { s with
        vane := { s.vane with trayHdr := some hdr, sawOwn := false, passing := none }
        aon := { s.aon with heldTrayId := if hdrCrcOk hdr then some (hdrTrayId hdr) else none } }
    else chainOut hdr false s)

/-- R128: a section header passes; the package recognises its own by SLOT and a valid SHDR_CRC. -/
def execSectionHeader (hdr : List Byte) (s : State) : Result :=
  .next (if !s.released then s
    else if shCrcOk hdr && shSlot hdr = s.aon.slot.val then
      chainOut hdr (capMode s ≠ .forward) { s with vane := { s.vane with passing := some (hdr, capMode s), sawOwn := true } }
    else chainOut hdr false s)

/-- R129, R131, R18: the UE record of a failed check; a TRAY_MISMATCH is preceded by a SEC record, to which the model gives the same code
and unit (log 154). -/
def captureRecord (sub : Nat) (s : State) : State :=
  if sub = 2 then logPair .unit 0x0802 0x0C 0xFF [sub] s else logUe .unit 0x0802 0x0C 0xFF [sub] s

/-- R121, R129: a check of the captured section has failed; in PH_VANE the load has failed with it. -/
def captureFail (sub : Nat) (s : State) : State :=
  let t := captureRecord sub
    { s with pins := { s.pins with errDrv := true }, vane := { s.vane with staged := none, lastSub := sub } }
  if t.aon.phase = .vane then failStart 0x50 { t with vane := t.vane.clear .failed } else { t with vane := { t.vane with capFail := some sub } }

/-- R31, R37: publish the held tray ID; the ports learn of it. -/
def publish (s : State) : State :=
  let t := publishTray s
  if t.aon.trayId = s.aon.trayId then t else trayPublished t

/-- R129: a captured section has passed its checks; in PH_VANE its load begins at once. -/
def capturePass (x : List Byte × Nat) (s : State) : State :=
  let t := { s with
    vane := { s.vane with staged := some x, capFail := none }
    pins := { s.pins with errDrv := s.pins.errDrv && s.vane.capFail.isNone } }
  if t.aon.phase = .vane && t.vane.st ≠ .loading then beginLoad t else t

/-- R129: the section was truncated: no failure, and the held tray ID goes (R132). -/
def captureTruncated (s : State) : State :=
  logInfo 0x0803 0x0C 0xFF [s.aon.slot.val]
    { s with vane := { s.vane with passing := none }, aon := { s.aon with heldTrayId := none } }

/-- R128: a section that is taken off the chain: checked unless a load runs; a truncated one drops the held tray ID. -/
def discardSection (tray hdr body : List Byte) (s : State) : State :=
  let note := fun (t : State) => logInfo 0x0809 0x0C 0xFF [s.aon.slot.val] t
  if s.vane.st = .loading then publish (note s)
  else
    match judge s.aon.trayId tray hdr body with
    | .fail sub => publish (note (captureRecord sub s))
    | .truncated => note (captureTruncated s)
    | .pass => publish (note s)
/-- R128, R129: the last byte of a section passes: `body` is what followed its header. -/
def execSectionEnd (body : List Byte) (s : State) : Result :=
  .next (match s.vane.passing with
    | none => if s.released then chainOut body false s else s
    | some (hdr, mode) =>
      let tray := s.vane.trayHdr.getD []
      let s1 := chainOut body (mode ≠ .forward) { s with vane := { s.vane with passing := none } }
      match mode with
      | .forward => publish s1
      | .discard => discardSection tray hdr body s1
      | .capture =>
        match judge s.aon.trayId tray hdr body with
        | .truncated => captureTruncated s1
        | .fail sub => publish (captureFail sub s1)
        | .pass => publish (capturePass (hdr ++ body, hdrBuildId tray) s1))

/-- R126, R132: a trailer passes. -/
def execTrailer (bytes : List Byte) (s : State) : Result :=
  .next (if !s.released then s
    else if s.start.chain && (leAt bytes 0 4 = 0x3C5AA5C3 && s.vane.trayHdr.isSome) then
      let s0 := chainOut bytes false { s with vane := { s.vane with trayHdr := none } }
      if s.vane.sawOwn then s0
      else
        let s1 := publish s0
        if s.vane.requesting then
          logInfo 0x0804 0x0C 0xFF [s.aon.slot.val] { s1 with vane := { s1.vane with requesting := false } }
        else s1
    else chainOut bytes false s)

/-- R129: CFG_CCLK stops for 10 µs in the middle of a section. -/
def execCclkStopTimeout (s : State) : Result :=
  .next (match s.vane.passing with
    | some (_, .capture) | some (_, .discard) => captureTruncated { s with vane := { s.vane with trayHdr := none } }
    | some (_, .forward) | none => { s with vane := { s.vane with passing := none, trayHdr := none }, aon := { s.aon with heldTrayId := none } })

/-! ## Loads (R130, R131) -/

/-- R131: a load passes: RUNNING, or UNLOADED for an EMPTY section; the package goes on to PH_JOIN. -/
def loadPass (x : List Byte × Nat) (s : State) : State :=
  let hdr := x.1.take 128
  let v := s.vane.clear (if shEmpty hdr || s.vane.disabled then .unloaded else .running)
  let run := v.st = .running
  let v1 := { v with
    frames := if run then loadRecs x.1.length (x.1.drop 128) [] else []
    flops := if run then initFlops (loadRecs x.1.length (x.1.drop 128) []) (List.range 64) [] else []
    hdr := hdr, lastSub := 0, buildId := x.2, measure := Config.sha384 x.1
    vpEnable := if run then shVp hdr else 0
    vioEnable := if run then shVio hdr else 0 }
  let t := logInfo 0x0801 0x0C 0xFF [x.2] { s with vane := v1, pins := { s.pins with errDrv := false } }
  if t.aon.phase = .vane then enterJoin (phaseExit 0 t) else t

/-- The last frame is written, the clock plan runs, and the configuration reset is released, unless an FCRC was wrong in the staging
area. -/
def execVaneLoadDone (s : State) : Result :=
  .next (match s.vane.loading with
    | some x => if s.vane.st ≠ .loading then s else if stagedOk x.1 then loadPass x s else vaneLoadFail 0x08 s
    | none => s)

/-- Table VF-9, PLL_LOCK. -/
def execVanePllLockTimeout (s : State) : Result :=
  .next (if s.vane.st = .loading then vaneLoadFail 0x0C s else s)

/-! ## Sends and requests (R125, R126) -/

/-- A send ends, with its STREAM_SENT record; VANE_STREAM_SEND is answered. -/
def execStreamSent (s : State) : Result :=
  .next (if s.vane.sending then
      completeAwait (fun a => a = .streamSend) { status := 0 }
        (logInfo 0x0805 0x00 0 [] { s with vane := { s.vane with sending := false, samples := s.vane.samples + 1 } })
    else s)

/-- 1 s after a send slot 0 samples CFG_ERR_N. -/
def execStreamErrResend (s : State) : Result :=
  .next (if 0 < s.vane.samples then
      let s1 := { s with vane := { s.vane with samples := s.vane.samples - 1 } }
      if s.errLvl then { s1 with vane := { s1.vane with errSends := 0 } }
      else if canSend s1 && s1.vane.errSends < 2 then
        startSend 0 { s1 with vane := { s1.vane with errSends := s1.vane.errSends + 1 } }
      else s1
    else s)

/-- A STREAM_REQ arrives: it is relayed once (log 19), and slot 0 sends when 10 s have passed since its previous send began. -/
def execStreamReq (port : Fin 7) (slot : Fin 8) (num : BitVec 32) (s : State) : Result :=
  .next (if !(joinPhase s || s.aon.phase = .vane) || !gustUsable s port.val || slot = s.aon.slot
      || (slot.val, num.toNat) ∈ s.vane.relayed then s
    else
      let s1 := sendOn (fun k => .streamReq k slot.val num.toNat) ((usableMesh s).filter (· ≠ port.val))
        { s with vane := { s.vane with relayed := (slot.val, num.toNat) :: s.vane.relayed } }
      if canSend s1 && s1.vane.lastSend.elim true (fun t => t + 10000000000 ≤ s1.now) then startSend 0 s1 else s1)

/-- Every 1 s of a WAIT_STREAM hold the package asks again. -/
def execStreamReqTimer (s : State) : Result :=
  .next (if s.vane.requesting && (s.aon.phase = .vane && s.aon.startSt = .hold) then sendStreamReq s else s)

/-! ## The vane self-port (R133 to R137) -/

/-- The stage after the outbound packet has ended: wait for responses, or isolate. -/
def afterOutbound (r : Nat) (x : OpenRegion) (s : State) : State :=
  match regionPort r with
  | some p => if (s.vaneReads p).isEmpty then isolate r x s else setRegion r { x with stage := 1 } s
  | none => isolate r x s

/-- R133, R135: OPEN. `sending` says that user logic is in the middle of a packet on the attached port. -/
def execSpOpen (region : Fin 64) (sending : Bool) (s : State) : Result :=
  let r := region.val
  .next (if !spLive s then s
    else if !(shAllow s.vane.hdr).getLsbD r || r = shHome s.vane.hdr then spAnswer 1 [] s
    else if (s.region r).isSome || 4 ≤ s.vane.opened.length then spAnswer 2 [] s
    else if (regionPort r).elim false fun p => s.net.image.elim false fun i => imageUsesVane i p then spAnswer 3 [] s
    else
      let x : OpenRegion := { stage := 0, since := s.now }
      match regionPort r with
      | none => isolate r x s
      | some _ => if sending then setRegion r x s else afterOutbound r x s)

/-- The region that OPEN has taken is at a stage of its waits. -/
def atStage (s : State) (r k : Nat) : Bool := (s.region r).elim false fun x => x.stage = k
/-- VANE_DISABLE is at a stage of its waits at the port of a region. -/
def endsAt (s : State) (r k : Nat) : Bool := (regionPort r).elim false fun p => Tab.get 0 s.vane.ending p = k
/-- R135 step 1: 10 µs after OPEN, or VANE_DISABLE (R138), the outbound packet has ended, or is ended with a poisoned tail. -/
def execSpOutboundTimeout (region : Fin 64) (ended : Bool) (s : State) : Result :=
  let r := region.val
  .next (if atStage s r 0 || endsAt s r 1 then
      let s0 := { s with vane := { s.vane with poisoned := s.vane.poisoned + b2n (!ended) } }
      let s1 := match s.region r with
        | some x => if x.stage = 0 then afterOutbound r x s0 else s0
        | none => s0
      match regionPort r with
      | some p => if endsAt s r 1 then portQuiet p { s1 with vane := { s1.vane with ending := Tab.put 0 s1.vane.ending p 2 } } else s1
      | none => s1
    else s)

/-- The reads of a port that have not been answered are late. -/
def readsLate (p : Nat) (s : State) : State :=
  { s with vane := { s.vane with
      reads := Tab.put [] s.vane.reads p [], late := Tab.put [] s.vane.late p (Tab.get [] s.vane.late p ++ s.vaneReads p) } }
/-- R135 step 3: the 100 µs wait for responses ends: the region is isolated, and a port that VANE_DISABLE ends (R138) is quiet. -/
def execSpResponseWaitEnd (region : Fin 64) (s : State) : Result :=
  let r := region.val
  .next (
    let s1 := match s.region r with
      | some x => if x.stage = 1 then isolate r x s else s
      | none => s
    match regionPort r with
    | some p => if endsAt s r 2 then portQuiet p (readsLate p s1) else s1
    | none => s1)

/-- R122, R135: the flits that wait at a Vane port are discarded and counted. -/
def discardWaiting (p : Nat) (s : State) : State :=
  let l := s.net.flight.filter fun x => x.waits = some p
  discardAll l { s with
    net := { s.net with flight := s.net.flight.filter fun x => x.waits ≠ some p }
    vane := { s.vane with discarded := s.vane.discarded + (l.map fun x => galeFlits x).sum } }
/-- R135: a region with a port has been open for 10 ms: its flits are discarded until CLOSE. -/
def execSpOpenLong (region : Fin 64) (s : State) : Result :=
  .next (match s.region region.val, regionPort region.val with
    | some x, some p => if x.long then s else
      discardWaiting p (logUe .unit 0x0807 0x0C p [region.val] (setRegion region.val { x with long := true } s))
    | _, _ => s)

/-- R133: a frame record of an open region: its checks in the order of Table VF-11, then the frames; `bytes` are the record
without its FCRC and OP bits. -/
def spFrames (addr n : Nat) (bytes : List Byte) (fcrc : Word) (put : Tab (List Byte) → Tab (List Byte)) (s : State) : State :=
  let r := faRegion addr
  match s.region r with
  | none => spAnswer 2 [] s
  | some x =>
    if x.stage ≠ 2 then spAnswer 2 [] s
    else if crc32c bytes ≠ fcrc.toNat then spAnswer 4 [] s
    else if !frameOk addr n then spAnswer 5 [] s
    else
      spAnswer 0 [] (setRegion r { x with recs := x.recs ++ bytes ++ leBytes 4 fcrc.toNat, wrote := (addr, n) :: x.wrote }
        { s with vane := { s.vane with frames := put s.vane.frames } })

/-- WRITE. -/
def execSpWrite (addr : BitVec 24) (data : List Byte) (fcrc : Word) (s : State) : Result :=
  let a := addr.toNat
  .next (if spLive s then spFrames a 1 (leBytes 4 a ++ data) fcrc (putFrame a (data.take 256)) s else s)

/-- FILL. -/
def execSpFill (addr : BitVec 24) (count pattern fcrc : Word) (s : State) : Result :=
  let a := addr.toNat
  .next (if spLive s then
      spFrames a count.toNat (leBytes 4 a ++ leBytes 4 count.toNat ++ leBytes 4 pattern.toNat) fcrc
        (fillFrames (fillBytes pattern.toNat) a count.toNat) s
    else s)

/-- What a frame of an open region reads as: a distributed-RAM frame that has not been written since OPEN holds what user logic left
(DEDUCED, log 157). -/
def frameRead (s : State) (x : OpenRegion) (a : Nat) : List Byte :=
  if faKind a = 1 && !x.wrote.any fun e => e.1 ≤ a && a < e.1 + e.2 then (List.range 256).map (Config.ramRun x.ramAt a)
  else frameAt s.vane.frames a
/-- READ: 64 data words and their CRC-32C. -/
def execSpRead (addr : BitVec 24) (s : State) : Result :=
  let a := addr.toNat
  .next (if !spLive s then s
    else match s.region (faRegion a) with
      | none => spAnswer 2 [] s
      | some x =>
        if x.stage ≠ 2 then spAnswer 2 [] s
        else if !frameOk a 1 then spAnswer 5 [] s
        else
          let b := frameRead s x a
          spAnswer 0 (elemWords 64 b ++ [crc32c b]) s)
where
  /-- Little-endian words of a byte string. -/
  elemWords : Nat → List Byte → List Nat
    | 0, _ => []
    | n + 1, l => leNat (l.take 4) :: elemWords n (l.drop 4)

/-- R133: the logic frames of a region become 0. -/
def clearLogic (r : Nat) (t : Tab (List Byte)) : Tab (List Byte) := t.filter fun e => !(faRegion e.1 = r && faKind e.1 = 0)

/-- R136: CLOSE. -/
def execSpClose (region : Fin 64) (runCrc : Word) (s : State) : Result :=
  let r := region.val
  .next (if !spLive s then s
    else match s.region r with
      | none => spAnswer 2 [] s
      | some x =>
        if x.stage ≠ 2 then spAnswer 2 [] s
        else if crc32c x.recs = runCrc.toNat then
          trySwitch (spAnswer 0 [] { s with vane := { s.vane with
            opened := Tab.del s.vane.opened r
            flops := initFlops s.vane.frames [r] s.vane.flops
            measure := Config.sha384 (leBytes 48 s.vane.measure.toNat ++ leBytes 1 r ++ leBytes 4 runCrc.toNat) } })
        else
          logUe .unit 0x0806 0x0C 0xFF [r] (spAnswer 6 [] { s with vane := { s.vane with frames := clearLogic r s.vane.frames } }))

/-- ABORT. -/
def execSpAbort (region : Fin 64) (s : State) : Result :=
  .next (if !spLive s then s
    else if !spOpened s region.val then spAnswer 2 [] s
    else spAnswer 0 [] { s with vane := { s.vane with frames := clearLogic region.val s.vane.frames } })

/-- STATUS: the open-region count and the last result. -/
def execSpStatus (s : State) : Result :=
  .next (if spLive s then
      { s with vane := { s.vane with spOut := [s.vane.spResult, s.vane.opened.countP fun e => e.2.stage = 2] } }
    else s)

/-! ## Vane commands (R138; the places of results are log 13) -/

/-- The number of a fabric state, in the order of Table VF-2. -/
def VaneSt.code : VaneSt → Nat
  | .unloaded => 0 | .loading => 1 | .running => 2 | .failed => 3

/-- VANE_STATUS. -/
def execVaneStatus (n : Fin 16) (s : State) : Result :=
  .next (command 0x0801 n.val noChecks
    (fun s m => replyDone n.val
      [s.vane.st.code, s.vane.lastSub, s.vane.buildId % 2 ^ 32, s.vane.buildId / 2 ^ 32, s.vane.vpEnable.toNat,
        s.vane.vioEnable.toNat % 2 ^ 32, s.vane.vioEnable.toNat / 2 ^ 32, s.vane.discarded, s.vane.poisoned, s.vane.stale]
      ((s.vane.hdr.drop 32).take 32 ++ leBytes 48 s.vane.measure.toNat
        ++ if m.exp then
            (List.range 64).flatMap (fun r => leBytes 1 ((s.region r).elim 0 fun x => x.stage + 1))
              ++ (List.range 7).flatMap (fun r => leBytes 4 (Tab.get 0 s.vane.spCount r))
           else []) s) s)

/-- VANE_STREAM_SEND: on slot 0, from offset 0 or, in the expert form, from a multiple of 64 KiB. -/
def execVaneStreamSend (n : Fin 16) (s : State) : Result :=
  .next (command 0x0802 n.val
    (fun s m =>
      { badArg := failIf (s.aon.slot ≠ 0 || (m.exp && m.arg 0 % 65536 ≠ 0)) 0
        busy := failIf (!canSend s) 0 })
    (fun s m => setAwait n.val .streamSend (replyAccepted n.val (startSend (if m.exp then m.arg 0 else 0) s))) s)

/-- The waits of VANE_DISABLE begin: `sending` names the ports whose outbound packet has not ended. -/
def beginDisable (sending : BitVec 4) (s : State) : State :=
  if s.vane.ending.isEmpty then
    { s with vane := { s.vane with ending := (List.range 4).foldl (fun t p =>
        Tab.put 0 t p (if !s.vane.vpEnable.getLsbD p then 3 else if sending.getLsbD p then 1 else if (s.vaneReads p).isEmpty then 3 else 2)) [] } }
  else s
/-- VANE_DISABLE: after the waits of R135 on all four ports the fabric is UNLOADED until the next reset; the expert form skips them and
poisons the packets that `sending` names. During a load the fabric goes to UNLOADED when it ends (DEDUCED, log 157). -/
def execVaneDisable (n : Fin 16) (sending : BitVec 4) (s : State) : Result :=
  .next (command 0x0803 n.val noChecks
    (fun s m =>
      if s.vane.st = .loading then replyDone n.val [] [] { s with vane := { s.vane with disabled := true } }
      else if m.exp then replyDone n.val [] []
        (trySwitch { s with vane := { s.vane.clear .unloaded with
          disabled := true, poisoned := s.vane.poisoned + popcount (sending &&& s.vane.vpEnable) } })
      else disableDone (beginDisable sending (setAwait n.val .vaneDisable s))) s)

end Sys2Proof.Machine
end

