-- ==== Sys2Proof/Machine/Endpoints.lean ====
section
/-!
DEFINITION. FLIT_DELIVERY: a Gale packet reaches its endpoint (spec/08_gale_breeze_lull.md R199, R228, Table NW-3,
spec/09_multicast_eddy_objects.md R235, spec/12_translation_dma_preemption.md R315, R323, spec/05_vane_fabric.md R122, R135,
spec/16_sealed_arithmetic_crosswind.md R441, spec/17_gust_links_and_host.md R451).
-/
namespace Sys2Proof.Machine

/-! ## Answers -/

/-- Replace TYPE of a sideband. -/
def withType (sb : BitVec 64) (t : Nat) : BitVec 64 := (sb &&& ~~~ (0xF000000000000 : BitVec 64)) ||| BitVec.ofNat 64 (t * 2 ^ 48)
/-- R451: the sideband of a response over a Gust port: VC1, REMOTE, XPORT the arrival port, DST the request's SRC. -/
def remoteAnswer (k : Nat) (sb : BitVec 64) (t : Nat) : BitVec 64 :=
  setBit (BitVec.ofNat 64 (sbSrc sb + sbDst sb * 2 ^ 7 + 2 ^ 14 + sbPart sb * 2 ^ 18 + sbTag sb * 2 ^ 32 + t * 2 ^ 48 + k * 2 ^ 52)) 56 true
/-- What a response is called. -/
def answerName (t : Nat) : String := if t = 2 then "read response" else if t = 3 then "write acknowledgement" else "error response"
/-- Answer a packet: a TYPE and data. -/
def answerPacket (p : Packet) (t : Nat) (data : List Byte) (s : State) : State :=
  if p.port = 7 then
    let k := gustAt p.src
    toPort k { p with sb := remoteAnswer k p.sb t, data := data } s
  else
    let tell := send (.flit p.src (answerName t) (sbTag p.sb :: data.map BitVec.toNat))
    if p.port = 9 then vaneResponse (vaneAt p.src) (sbTag p.sb) (galeFlits { p with data := data }) tell s else tell s

/-! ## Multicast acknowledgements (R235) -/

/-- The two counts of a combined acknowledgement. -/
def ackBytes (ok bad : Nat) : List Byte := leBytes 4 ok ++ leBytes 4 bad
/-- All endpoints have answered: at the package that injected the write its source gets the combined acknowledgement, or an error response
with MCAST_PARTIAL; for one that came over a Gust port the counts go back over it. -/
def combined (a : McastTally) (s : State) : State :=
  if a.port = 7 then
    toPort (gustAt a.node) { id := a.id, src := a.node, port := 7, data := ackBytes a.ok a.bad
                             sb := remoteAnswer (gustAt a.node) a.sb (if a.bad = 0 then 3 else 7) } s
  else
    let words := sbTag a.sb :: (ackBytes a.ok a.bad).map BitVec.toNat
    if a.bad = 0 then send (.flit a.node "write acknowledgement" words) s
    else send (.flit a.node "error response" words) (logUe .operation 0x0314 0x02 a.node [a.ok, a.bad] s)
/-- Answers of the endpoints of a multicast write are added up; the last one is followed by the combined acknowledgement. -/
def tally (a : McastTally) (ok bad : Nat) (s : State) : State :=
  let b := { a with ok := a.ok + ok, bad := a.bad + bad }
  let rest := s.coll.acks.filter (· ≠ a)
  if b.ok + b.bad < b.want then { s with coll := { s.coll with acks := b :: rest } }
  else combined b { s with coll := { s.coll with acks := rest } }
/-- The write that a copy belongs to. -/
def tallyOf (s : State) (p : Packet) : Option McastTally := s.coll.acks.find? fun a => a.id = p.id
/-- A copy has been accepted or refused. -/
def tallyCopy (p : Packet) (accepted : Bool) (s : State) : State :=
  match tallyOf s p with
  | some a => tally a (b2n accepted) (b2n !accepted) s
  | none => s
/-- The write that an acknowledgement or error response answers at a source: by its node and port, its TAG, and for one that came over a Gust
port the requester's SRC, to which the answer is addressed. -/
def answered (s : State) (node port : Nat) (p : Packet) : Option McastTally :=
  if sbType p.sb = 3 || sbType p.sb = 7 then
    s.coll.acks.find? fun a => a.node = node && (sourceOf a.port = sourceOf port && (sbTag a.sb = sbTag p.sb && (port ≠ 7 || sbSrc a.sb = sbDst p.sb)))
  else none
/-- What an answer counts: both counts of a combined one from another package, or itself. -/
def answerCounts (p : Packet) : Nat × Nat :=
  if p.port = 7 && 8 ≤ p.data.length then (leAt p.data 0 4, leAt p.data 4 4) else if sbType p.sb = 3 then (1, 0) else (0, 1)
/-- An answer is counted in its write. -/
def tallyAnswer (a : McastTally) (p : Packet) (s : State) : State := tally a (answerCounts p).1 (answerCounts p).2 s
/-- An endpoint refuses a packet: a multicast copy is counted; any other refused request receives an error response. -/
def refusePacket (p : Packet) (s : State) : State :=
  if sbMcast p.sb then tallyCopy p false s
  else if sbRequest p.sb then answerPacket p 7 [] s
  else s
/-- A write has been taken; a result of a reduction that lands in memory (R237) is not answered. -/
def ackWrite (p : Packet) (s : State) : State :=
  if sbTag p.sb = 0 || sbType p.sb ≠ 0 then s
  else if sbMcast p.sb then tallyCopy p true s
  else answerPacket p 3 [] s

/-! ## PART (R323) -/

/-- The partition of an endpoint that checks PART. -/
def endPart (s : State) (dest : FlitEnd) (node : Nat) : Option Nat :=
  match dest with
  | .cluster => some (clusterPart s node)
  | .vane => some (vanePart s)
  | .dma ch => some (dmaPart s ch.val)
  | .slice | .mc | .gateway => none
/-- The unit of an endpoint. -/
def endUnit (dest : FlitEnd) (node : Nat) : Nat × Nat :=
  match dest with
  | .cluster => (0x01, node) | .slice => (0x03, node) | .mc => (0x04, mcAt node) | .vane => (0x0C, vaneAt node)
  | .gateway => (0x08, gatewayAt node) | .dma ch => (0x0A, ch.val)
/-- The port of a node, by its OUT code. -/
def endPort (dest : FlitEnd) : Nat :=
  match dest with
  | .cluster => 4 | .slice => 0xB | .mc => 5 | .vane => 9 | .gateway | .dma _ => 8
/-- PART_MISMATCH: a fault record in the queue of the endpoint's partition, one UE record per endpoint per 10 ms. -/
def partMismatch (own : Nat) (dest : FlitEnd) (node : Nat) (p : Packet) (s : State) : State :=
  let u := endUnit dest node
  let a : Access := { part := own, dva := 0, write := sbType p.sb = 0, remote := p.port = 7, ut := u.1, inst := u.2, tag := sbTag p.sb }
  refusePacket p
    (logLimitedAt (u.1 * 256 + u.2) 10000000 .ue 0x0422 u.1 u.2 [own, sbPart p.sb] .operation
      (sendMsix (16 + own) (pushFault own (faultRec a badPart 0 s) s)))

/-! ## Memory -/

/-- R441: a slice unit of a VAULT partition is guarded like a vault; none where the packet may pass. -/
def unitGuard (s : State) (part dpa : Nat) : Option Nat :=
  if sliceBase ≤ dpa && dpa < sliceEnd then
    (s.unitPart ((dpa - sliceBase) / 2 ^ 22) (dpa % 2 ^ 22 / 16384)).filter fun q => partKind s q = .vault && q ≠ part
  else none
/-- Read or write memory for a packet of a partition at a DPA. -/
def memoryPacket (part dpa len : Nat) (p : Packet) (s : State) : State :=
  match vaultGuards s part dpa, unitGuard s part dpa with
  | some v, _ => refusePacket p (guardRecord v s)
  | none, some q => refusePacket p (guardRecord (256 + q) s)
  | none, none =>
    if sbType p.sb = 1 then
      let r := memRead dpa len s
      match r.1 with
      | some b => answerPacket p 2 b r.2
      | none => answerPacket p 7 [] r.2
    else
      let w := memWrite dpa p.data s
      if w.1 then ackWrite p w.2 else refusePacket p w.2
/-- R235, Table TD-11: an endpoint slice takes a multicast copy only within the units of the group's partition. -/
def slicePacket (node addr len : Nat) (p : Packet) (s : State) : State :=
  let dpa := sliceBase + node * 2 ^ 22 + addr % 2 ^ 22
  if sbMcast p.sb && s.unitPart node (addr % 2 ^ 22 / 16384) ≠ some (sbPart p.sb) then refusePacket p s
  else memoryPacket (sbPart p.sb) dpa len p s
/-- R315, R318, R451: a remote request that has landed is translated at the gateway with RMT; its fault record names it. -/
def landRemote (g addr len : Nat) (p : Packet) (s : State) : State :=
  let a : Access := { part := sbPart p.sb, dva := addr, write := sbType p.sb = 0, remote := true, ut := 0x08, inst := g, tag := sbTag p.sb }
  let r := translateAt (some (128 + g)) a s
  match r.1 with
  | .ok d => memoryPacket (sbPart p.sb) d len p r.2
  | .error (c, l) => refusePacket p (mmuFault a c l r.2)

/-! ## The Vane ports (R122, R135) -/

/-- R118, R119, R122, R135: a packet reaches Vane port `v`. Sealed and share-vault traffic is not carried. A response acts under R135. While
the port grants no credits, other packets wait, and after 10 ms they are discarded. `keep` is the state in which it still waits. -/
def vanePacket (v : Nat) (p : Packet) (keep s : State) : State :=
  let tell := deliverTo (vaneNode v) p
  let drop := refusePacket p { s with vane := { s.vane with discarded := s.vane.discarded + galeFlits p } }
  let hold := { keep with net := { keep.net with flight := keep.net.flight.map fun x => if x = p then { x with waits := some v } else x } }
  if ctPart s (sbPart p.sb) then drop
  else if sbVc p.sb = 1 then vaneResponse v (sbTag p.sb) (galeFlits p) tell s
  else
    match s.region (vaneRegion v) with
    | some x => if x.stage = 0 then tell s else if x.long then drop else hold
    | none => if Tab.get 0 s.vane.ending v < 2 then tell s else hold

/-! ## Delivery -/

/-- A packet that passes the checks of its endpoint. `keep` is the state in which it still waits. -/
def acceptPacket (dest : FlitEnd) (node addr len : Nat) (p : Packet) (keep s : State) : State :=
  match dest with
  | .slice => if sbRequest p.sb || sbType p.sb = 5 then slicePacket node addr len p s else s
  | .mc => if sbRequest p.sb || sbType p.sb = 5 then memoryPacket (sbPart p.sb) addr len p s else s
  | .vane => vanePacket (vaneAt node) p keep s
  | .gateway => if sbRequest p.sb && p.port = 7 then landRemote (gatewayAt node) addr len p s
      else deliverTo node p s
  | .cluster | .dma _ => deliverTo node p s

/-- A flit meets a fence (R228) or, at a Vane port that is disabled, is discarded and counted (R122). -/
def meetsFence (dest : FlitEnd) (p : Packet) (s : State) : State :=
  refusePacket p (if dest = .vane then { s with vane := { s.vane with discarded := s.vane.discarded + galeFlits p } } else s)
/-- A poisoned packet ends at its endpoint: it is counted, and a multicast copy counts as refused. -/
def poisonedPacket (node : Nat) (p : Packet) (s : State) : State := (if sbMcast p.sb then tallyCopy p false else id) (netCount 9 node s)

/-! ## Static reductions (R243) -/

/-- The sum of the flits that an Eddy unit merges, in sibling order: of the operand type of the reduction group that their TAG names, each
sum leaving as its result would; without one it is a free value (log 167). -/
def mergeData (s : State) (l : List Packet) : List Byte :=
  match s.redGroup ((l.head?.elim 0 fun p => sbTag p.sb) / 1024) with
  | some g =>
    if g.typ = 0 then Config.staticSum (l.map Packet.data)
    else blockBytes g (treeReduce g.typ g.modulus l.length (l.map fun p => (elems (elemSize g.typ) 4096 p.data).map (enterElem g.typ g.modulus)))
  | none => Config.staticSum (l.map Packet.data)
/-- The flits of a stream that an Eddy unit holds. -/
def heldFlits (s : State) (node k : Nat) : List Packet := Tab.get [] s.coll.merges (node * 256 + k)
/-- Take the first held flit of each stream away. -/
def dropHeld (node : Nat) : List Nat → State → State
  | [], s => s
  | k :: t, s => dropHeld node t { s with coll := { s.coll with merges := Tab.put [] s.coll.merges (node * 256 + k) (heldFlits s node k).tail } }
/-- The sum leaves as a flit of the output stream once every input has its flit. -/
def mergeOut (img : SchedImage) (f : EddyFeed) (s : State) : State :=
  let heads := f.inputs.filterMap fun k => (heldFlits s f.node k).head?
  if heads.length < f.inputs.length then s
  else
    match heads, img.streams.find? fun x => x.num = f.out with
    | h :: _, some x =>
      let sb := (h.sb &&& ~~~ (0x3FFF : BitVec 64)) ||| BitVec.ofNat 64 (x.dstNode % 128 + f.node % 128 * 2 ^ 7)
      let sum : Packet := { id := s.net.nextId, src := f.node, port := 14, sb := sb, data := mergeData s heads }
      launch [sum] sum (dropHeld f.node f.inputs s)
    | _, _ => s
/-- The stream of the current image that a static flit belongs to, and the Eddy unit at which it ends. -/
def eddyAt (s : State) (p : Packet) : Option (SchedImage × SchedStream × EddyFeed) :=
  s.net.image.bind fun img => (img.streams.find? fun x => ofStream x p && x.dstPort = 0xE).bind fun x =>
    (img.eddies.find? fun f => f.node = x.dstNode && x.num ∈ f.inputs).map fun f => (img, x, f)
/-- A flit of a stream that ends at an Eddy unit is held for its partners. -/
def staticMerge (e : SchedImage × SchedStream × EddyFeed) (p : Packet) (s : State) : State :=
  let k := e.2.2.node * 256 + e.2.1.num
  mergeOut e.1 e.2.2 { s with coll := { s.coll with merges := Tab.put [] s.coll.merges k (Tab.get [] s.coll.merges k ++ [p]) } }

/-! ## FLIT_DELIVERY -/

/-- A packet leaves the die on its Gust port: answers to a multicast write that came over it are added up first (R235). -/
def deliverOut (p : Packet) (s : State) : State :=
  let k := sbXport p.sb
  if portFenced s (gustNode k) 7 then refusePacket p s
  else
    match answered s (gustNode k) 7 p with
    | some a => tallyAnswer a p s
    | none => toPort k p s
/-- R323: a packet of another partition meets PART_MISMATCH; an answer to a multicast write is counted; the rest is accepted. -/
def deliverHere (dest : FlitEnd) (node addr len : Nat) (p : Packet) (keep s : State) : State :=
  match (endPart s dest node).filter fun own => sbPart p.sb ≠ 0 && sbPart p.sb ≠ own with
  | some own => partMismatch own dest node p s
  | none =>
    match answered s node (endPort dest) p with
    | some a => tallyAnswer a p s
    | none => acceptPacket dest node addr len p keep s
/-- A packet leaves the mesh at endpoint `to` of its node, or on its Gust port; `addr` and `len` are those of a request: an offset of the
slice, a DPA, or for a remote request a DVA. -/
def execFlitDelivery (idx : Nat) (dest : FlitEnd) (addr : BitVec 48) (len : BitVec 13) (s : State) : Result :=
  .next (match s.net.flight[idx]? with
    | none => s
    | some p =>
      let s1 := { s with net := { s.net with flight := s.net.flight.eraseIdx idx } }
      let node := sbDst p.sb
      if routeBlocked s p then refusePacket p s1
      else if sbRemote p.sb then deliverOut p s1
      else
        match eddyAt s p with
        | some e => staticMerge e p s1
        | none =>
          if portFenced s node (endPort dest) then meetsFence dest p s1
          else if sbPoison p.sb then poisonedPacket node p s1
          else deliverHere dest node addr.toNat len.toNat p s s1)

end Sys2Proof.Machine
end

