-- ==== Sys2Proof/Machine/LinkCmds.lean ====
section
/-!
DEFINITION. The link commands and GLK_CLEAR (spec/17_gust_links_and_host.md R480, R481).
-/
namespace Sys2Proof.Machine

/-! ## GLK_ counters (R480) -/

/-- R480: a read of GLK_TXCTR_LO returns the low word of channel 0's counter and keeps the high word. -/
def execGlkTxctrLoRead (port : Fin 12) (s : State) : Result :=
  let n := (s.chanOf port.val 0).tx
  .next (if s.mainDown then noteOffline { s with out := { s.out with readData := 0xFFFFFFFF } }
    else
      let s1 := modGport port.val (fun p => { p with txHi := BitVec.ofNat 32 (n / 2 ^ 32) }) s
      { s1 with out := { s1.out with readData := BitVec.ofNat 32 n } })

/-- The counters of a Gust port start again. -/
def GPort.cleared (p : GPort) : GPort := { p with replays := 0, crcErr := 0, late := 0, timeouts := 0, holdRef := 0 }
/-- Clear the counters of the ports that a mask names. -/
def clearPorts (val : Word) : List Nat → State → State
  | [], s => s
  | k :: t, s => clearPorts val t (if bit val k then modGport k GPort.cleared s else s)
/-- GLK_CLEAR, an exp register of the host path. -/
def writeGlkClear (path : Path) (val : Word) (s : State) : State :=
  if path = .oob || !s.released then s
  else if s.mainDown then noteOffline s
  else if s.aon.grantHost.isNone then noteDeny s
  else
    let s1 := clearPorts val (List.range 12) s
    let s2 := if bit val 13 then modCxl 0 (fun p => { p with late := 0 }) s1 else s1
    let s3 := if bit val 14 then modCxl 1 (fun p => { p with late := 0 }) s2 else s2
    { s3 with link := { s3.link with hostLate := if bit val 12 then 0 else s3.link.hostLate
                                     bar2Deny := if bit val 15 then 0 else s3.link.bar2Deny } }
/-- A write of GLK_CLEAR. -/
def execGlkClear (path : Path) (val : Word) (s : State) : Result := .next (writeGlkClear path val s)

/-! ## Port commands (R465, R466, R481) -/

/-- The command names a Gust port and comes from partition 0. -/
def portFrom0 (s : State) (n : Nat) : Option Nat := failIf (mbxPart s n ≠ 0) 0
/-- R481: any command during training is refused with PORT_STATE. -/
def portTraining (s : State) (k : Nat) : Bool := (s.gport k).st = .training || (s.gport k).st = .probation
/-- An epoch switch is in progress (R226). -/
def epochPending (s : State) : Bool := s.net.stage ≠ 0

/-- A channel: number, state, epochs, counters. -/
def chanBytes (s : State) (k c : Nat) : List Byte :=
  let x := s.chanOf k c
  leBytes 4 c ++ leBytes 4 x.st.code ++ leBytes 4 x.txEpoch ++ leBytes 4 x.rxEpoch ++ leBytes 8 x.tx ++ leBytes 8 (x.rxLast.getD 0)
/-- The GLK_ counters of a port. -/
def glkBytes (p : GPort) : List Byte :=
  leBytes 4 p.replays ++ leBytes 4 p.crcErr ++ leBytes 4 p.late ++ leBytes 4 p.timeouts ++ leBytes 4 p.holdRef
/-- LINK_STATUS: state, far end, rate in Mb/s, lanes in results; channels and counters in DATA, then in the expert form the eye margins,
which are measured, and the retry buffer's occupancy (places: log 13). -/
def execLinkStatus (n : Fin 16) (s : State) : Result :=
  .next (command 0x0701 n.val
    (fun s m =>
      { notPermitted := portFrom0 s n.val
        badArg := failIf (12 ≤ m.arg 0) 0x0701
        busy := failIf (portTraining s (m.arg 0)) 0x0702 })
    (fun s m =>
      let k := m.arg 0
      let p := s.gport k
      let f := p.far.getD (0, 0, 0, 0, 0)
      replyDone n.val [p.st.code, f.1, f.2.1, f.2.2.1, 212500 * p.lanes, p.lanes]
        ((chanList s k).flatMap (chanBytes s k) ++ glkBytes p
          ++ if m.exp then (List.range 4).flatMap (fun i => leBytes 4 (Config.freeNat (s.freeCtr + i))) ++ leBytes 4 p.retry.length else [])
        { s with freeCtr := if m.exp then s.freeCtr + 4 else s.freeCtr }) s)

/-- LINK_RETRAIN: the port trains; an UP port of the expert form leaves first as LINK_OFFLINE does. -/
def execLinkRetrain (n : Fin 16) (s : State) : Result :=
  .next (command 0x0702 n.val
    (fun s m =>
      let st := (s.gport (m.arg 0)).st
      { notPermitted := portFrom0 s n.val
        badArg := firstFail [failIf (12 ≤ m.arg 0) 0x0701, failIf (m.exp && 4 < m.arg 1) 0, failIf (st = .miswired) 0x0703]
        busy := firstFail [failIf (portTraining s (m.arg 0) || (st = .up && !m.exp)) 0x0702, failIf (st = .up && epochPending s) 0x0311] })
    (fun s m =>
      let k := m.arg 0
      let s1 := setAwait n.val (.linkTrain k) s
      if (s.gport k).st = .up then leaveNext 0x07 k s1
      else modGport k (fun p => { p with lanes := laneLimit m }) (startTraining k s1)) s)

/-- The channel exists: channel 0 of GP0 to GP10, a paired session of GP11. -/
def channelNamed (s : State) (k c : Nat) : Bool := if k = 11 then (s.cxSess c).elim false CxSess.paired else c = 0
/-- R481: LINK_REKEY of GP11 may also come from the session's own partition. -/
def mayRekey (s : State) (n : Nat) (m : Mbx) : Bool :=
  mbxPart s n = 0 || (m.arg 0 = 11 && (s.cxSess (m.arg 1)).elim false fun x => x.part = mbxPart s n)
/-- LINK_REKEY: DONE when the new epoch is in use. -/
def execLinkRekey (n : Fin 16) (s : State) : Result :=
  .next (command 0x0703 n.val
    (fun s m =>
      { notPermitted := failIf (!mayRekey s n.val m) 0
        badArg := firstFail [failIf (12 ≤ m.arg 0 || !channelNamed s (m.arg 0) (m.arg 1)) 0x0701, failIf ((s.gport (m.arg 0)).st = .miswired) 0x0703]
        busy := failIf ((s.gport (m.arg 0)).st ≠ .up) 0x0702
        noResource := failIf (0xFFFFFFFF ≤ (s.chanOf (m.arg 0) (m.arg 1)).txEpoch) 0x0705 })
    (fun s m => startRekey (m.arg 0) (m.arg 1) (setAwait n.val (.linkRekey (m.arg 0) (m.arg 1)) s)) s)

/-- LINK_OFFLINE: an UP port leaves with the next route epoch, or in the expert form at once; any other becomes OFFLINE. -/
def execLinkOffline (n : Fin 16) (s : State) : Result :=
  .next (command 0x0704 n.val
    (fun s m =>
      let st := (s.gport (m.arg 0)).st
      { notPermitted := portFrom0 s n.val
        badArg := firstFail [failIf (12 ≤ m.arg 0) 0x0701, failIf (m.exp && 2 ≤ m.arg 1) 0, failIf (st = .miswired) 0x0703]
        busy := firstFail [failIf (portTraining s (m.arg 0)) 0x0702, failIf (epochPending s) 0x0311] })
    (fun s m =>
      let k := m.arg 0
      if (s.gport k).st ≠ .up then replyDone n.val [] [] (setPortSt k .offline s)
      else if m.exp && m.arg 1 = 1 then rebuildRoutes (portOffline k (setAwait n.val (.unitOffline 0x07 k) s))
      else leaveNext 0x07 k (setAwait n.val (.unitOffline 0x07 k) s)) s)

/-- CXL_STATUS: in results whether the port is up, the capacity mapped in pages, poison, timeout and late counts; the device's identity,
rate, width and health, and in the expert form its HDM decoder, are the device's own and come as free values, then the count of
Severe Overloads (places: log 13). -/
def execCxlStatus (n : Fin 16) (s : State) : Result :=
  .next (command 0x0705 n.val
    (fun s m => { notPermitted := portFrom0 s n.val, badArg := failIf (2 ≤ m.arg 0) 0x0701 })
    (fun s m =>
      let p := s.cxlPort (m.arg 0)
      let w := if m.exp then 8 else 4
      replyDone n.val [b2n p.up, p.cap * 4096, p.poisons, p.timeouts, p.late]
        ((List.range w).flatMap (fun i => leBytes 4 (Config.freeNat (s.freeCtr + i))) ++ if m.exp then leBytes 4 p.overloads else [])
        { s with freeCtr := s.freeCtr + w }) s)

end Sys2Proof.Machine
end

