-- ==== Sys2Proof/Machine/Faults.lean ====
section
/-!
DEFINITION. Fences by routers, controllers and MEE groups, the committed log, UNIT_STATUS, UNIT_RETURN, UNIT_OFFLINE and probation
(spec/19_faults_and_recovery.md).
-/
namespace Sys2Proof.Machine

/-! ## Fences (R507, Table FR-5a) -/

/-- Gust ports of a list leave service with their router. -/
def downPorts (trigger : Nat) : List Nat → State → State
  | [], s => s
  | k :: t, s => downPorts trigger t (gustDown k trigger false s)
/-- R507, Table NW-7: a router is fenced and counts as dead: its cluster, its gateway and its Gust port leave service with it, its Vane
port is disabled. The trigger is the fence's own code where the spec gives the cause none. -/
def fenceRouter (n : Nat) (s : State) : State :=
  let s1 := fenceUnit 0x02 n 0x0B01 s
  let s2 := fenceAll 0x01 0x0B01 ([n].filter fun c => carrying s1 0x01 c) s1
  let s3 := fenceAll 0x08 0x0B01 ((nodeGateways n).filter fun g => carrying s2 0x08 g) s2
  disableVanes n (downPorts 0x0B01 (nodeGusts n) s3)
/-- Fence several routers. -/
def fenceRouters : List Nat → State → State
  | [], s => s
  | n :: t, s => fenceRouters t (fenceRouter n s)
/-- R227: the live routers that the dead ones cut off count as dead too. -/
def fenceCutOff (s : State) : State := fenceRouters ((cutOff (deadRouters s)).filter (routerLive s)) s
/-- R507: an uncorrectable error in a router's buffers or banks; when no epoch can be built around the dead routers the package leaves
service (log 37). -/
def execRouterUe (node : Fin 128) (s : State) : Result :=
  .next (if routerLive s node.val then
      let s1 := fenceCutOff (fenceRouter node.val s)
      if routesExist (deadRouters s1) then s1 else packageFatal 0x0B09 0x00 0 [] s1
    else s)

/-- R507: an uncorrectable error in an MEE group's lanes or key path. -/
def execMeeUe (group : Fin 16) (s : State) : Result :=
  .next (if carrying s 0x06 group.val then fenceUnit 0x06 group.val 0x0B01 s else s)

/-- R507, R307, R515: a controller fault: both controllers of the stack and their MEE groups are fenced. -/
def execControllerFault (mc : Fin 16) (s : State) : Result := .next (stackLost (mc.val / 2) 0x0B01 s)

/-! ## EVL_ACK (R505) -/

/-- A write of EVL_ACK sends vector 222 again while an unacknowledged UE, FATAL or SEC record is left; any other re-arms it. The
out-of-band path does not reach the register (spec/06_windsock_mailbox.md R145). -/
def writeEvlAck (path : Path) (val : Word) (s : State) : State :=
  if path = .oob || !s.released then s
  else
    let q := val.toNat % 65536
    if s.log.pendingAfter q then sendMsix 222 { s with log := { s.log with ack := q, armed := false } }
    else { s with log := { s.log with ack := q, armed := true } }
/-- A write of EVL_ACK. -/
def execEvlAck (path : Path) (val : Word) (s : State) : Result := .next (writeEvlAck path val s)

/-! ## The committed log (R501, R506, R520 to R523) -/

/-- Change the LOG region. -/
def modLogRegion (f : Region → Region) (s : State) : State :=
  { s with store := { s.store with regions := s.store.regions.set 5 (f s.store.regions[5]) } }
/-- The records that the LOG region retains (R520). -/
def logCapacity : Nat := 3406208
/-- The records of one sector. -/
def logSector : Nat := 2047
/-- R506: a full LOG region erases its oldest sector, after LOG_WRAP has named the positions that go. -/
def logWrap (k : Nat) (s : State) : State :=
  if s.store.logNext + k ≤ s.store.logOldest + logCapacity then s
  else
    let first := s.store.logOldest
    let t := logInfo 0x0B13 0x12 6 [first, first + logSector - 1] s
    { t with store := { t.store with
        logOldest := first + logSector, committed := t.store.committed.take (t.store.logNext - (first + logSector)) } }
/-- R521: the erase count of a sector first passes 100,000. -/
def noteErase (sector eraseCount : Nat) (s : State) : State :=
  let s1 := modLogRegion (fun r => { r with maxErase := max r.maxErase eraseCount }) s
  if 100000 < eraseCount && !(sector ∈ s.store.regions[5].worn) then
    logInfo 0x0B14 0x12 6 [6, sector] (modLogRegion (fun r => { r with worn := sector :: r.worn }) s1)
  else s1
/-- R521: a sector that needs a third retry is retired into a spare; R522, R523: without a spare the region becomes read-only. The
second answer says whether the program has completed. -/
def retireLogSector (sector spare : Nat) (s : State) : State × Bool :=
  if 0 < s.store.regions[5].spares then
    (logCe 0x0B10 0x12 6 [6, sector, spare]
      (modLogRegion (fun r => { r with spares := r.spares - 1, retired := sector :: r.retired }) s), true)
  else
    (logUe .none 0x0B12 0x12 6 [] (logUe .none 0x0B11 0x12 6 [6] (modLogRegion (fun r => { r with ro := true }) s)), false)
/-- One page program of the log writer: up to eight records in SEQ order. `retries` verify retries were needed in `sector`, whose erase
count is `eraseCount`; `spare` is the spare sector that a retirement takes. -/
def execLogCommit (retries sector spare eraseCount : Nat) (s : State) : Result :=
  .next (if s.regionRo 5 || !s.clk.sclk || s.log.uncommitted.isEmpty then s
    else
      let l := s.log.uncommitted.take 8
      let s1 := modLogRegion (fun r => { r with retries := Tab.mod 0 r.retries sector (· + min retries 3) }) s
      let w := if retries ≤ 2 then (s1, true) else retireLogSector sector spare s1
      if w.2 then noteErase sector eraseCount (commitList l (logWrap l.length w.1)) else w.1)

/-! ## LOG_READ and LOG_STATUS (R524, Table FR-6) -/

/-- The starting log position. -/
def logPos (m : Mbx) : Nat := m.arg64 0 % 2 ^ 40
/-- The record of a log position, with the cold-start count of its sector. -/
def logAt (s : State) (p : Nat) : Option (Nat × Rec) :=
  if p < s.store.logOldest || s.store.logNext ≤ p then none else s.store.committed[s.store.logNext - 1 - p]?
/-- The class mask and the unit filter of the expert form. -/
def logMatch (m : Mbx) (r : Rec) : Bool :=
  !m.exp || (m.arg 4 / 2 ^ r.cls.code % 2 = 1 && (m.arg 5 = 0xFFFFFFFF || m.arg 5 = r.ut * 256 + r.inst))
/-- Collect at most `n` records from a position on, within one cold start: the records and the next position. -/
def collectLog (s : State) (m : Mbx) (cold : Nat) : Nat → Nat → Nat → List Rec × Nat
  | 0, _, p => ([], p)
  | _, 0, p => ([], p)
  | fuel + 1, n + 1, p =>
    match logAt s p with
    | none => ([], p)
    | some e =>
      if e.1 ≠ cold then ([], p)
      else if logMatch m e.2 then
        let t := collectLog s m cold fuel n (p + 1)
        (e.2 :: t.1, t.2)
      else collectLog s m cold fuel (n + 1) (p + 1)
/-- Insert a record in SEQ order counted back from the newest. -/
def insertSeq (newest : Nat) (r : Rec) : List Rec → List Rec
  | [] => [r]
  | x :: t => if seqAfter newest x.seq r.seq then r :: x :: t else x :: insertSeq newest r t
/-- The records of the ring, oldest first. -/
def ringRecs (s : State) : List Rec := s.log.ring.foldl (fun l e => insertSeq s.log.newest e.2 l) []
/-- The expert ring read: the records from SEQ ARG0 on (log 13). -/
def readRing (s : State) (m : Mbx) : List Rec :=
  ((ringRecs s).filter fun r => !seqAfter s.log.newest (m.arg 0 % 65536) r.seq && logMatch m r).take (m.arg 2)
/-- R505: tray management's acknowledgement advances to the last SEQ returned. -/
def trayAckTo (recs : List Rec) (s : State) : State :=
  match recs.getLast? with
  | none => s
  | some r => if seqAfter s.log.newest r.seq s.log.trayAck then { s with log := { s.log with trayAck := r.seq } } else s
/-- LOG_READ. -/
def execLogRead (n : Fin 16) (s : State) : Result :=
  .next (command 0x0B01 n.val
    (fun s m =>
      let most := if m.exp && m.outHost then 2048 else 120
      let form := m.arg 2 = 0 || (most < m.arg 2 || (256 ≤ m.arg 1 || ((if m.exp then 4 else 2) ≤ m.arg 3 || (m.arg 3 % 2 = 1 && n.val < 14))))
      { badArg := firstFail [failIf form 0, failIf (m.arg 3 / 2 = 0 && logPos m < s.store.logOldest) 0x0B07] })
    (fun s m =>
      let ack := fun l (t : State) => if m.arg 3 % 2 = 1 then trayAckTo l t else t
      if m.arg 3 / 2 = 1 then
        let l := readRing s m
        let next := l.getLast?.elim (m.arg 0) fun r => (r.seq + 1) % 65536
        ack l (replyDone n.val [next, 0, s.store.coldStarts] (l.flatMap (eventBytes s.prot.debugLevel)) s)
      else
        let cold := (logAt s (logPos m)).elim s.store.coldStarts Prod.fst
        let c := collectLog s m cold (s.store.logNext - logPos m) (m.arg 2) (logPos m)
        ack (if cold = s.store.coldStarts then c.1 else [])
          (replyDone n.val [c.2 % 2 ^ 32, c.2 / 2 ^ 32, cold] (c.1.flatMap (eventBytes s.prot.debugLevel)) s)) s)

/-- EVL_STATUS (R504). -/
def evlStatus (s : State) : Word :=
  packFields (((List.finRange 6).map fun c => (b2n (s.regionRo c), c.val + 1)) ++ [(b2n (s.regionRo 5), 0), (b2n s.log.dropped, 8)])
/-- What LOG_STATUS says of a region: its code, whether it is read-only, spares left, retired sectors, highest erase count. -/
def regionBytes (s : State) (c : Fin 6) : List Byte :=
  let r := s.store.regions[c]
  leBytes 4 (c.val + 1) ++ leBytes 4 (b2n r.ro) ++ leBytes 4 r.spares ++ leBytes 4 r.retired.length ++ leBytes 4 r.maxErase
/-- LOG_STATUS (places of results: log 13). -/
def execLogStatus (n : Fin 16) (s : State) : Result :=
  .next (command 0x0B02 n.val noChecks
    (fun s m =>
      let newest := s.store.logNext - 1
      replyDone n.val
        [s.store.logOldest % 2 ^ 32, s.store.logOldest / 2 ^ 32, newest % 2 ^ 32, newest / 2 ^ 32, s.store.coldStarts, (evlStatus s).toNat, s.log.drops]
        ((List.finRange 6).flatMap (regionBytes s) ++ if m.exp then
          (List.finRange 6).flatMap (fun c => (s.store.regions[c]).retries.flatMap fun e => leBytes 2 e.1 ++ leBytes 2 e.2) else []) s) s)

/-! ## UNIT_STATUS (R500, R524) -/

/-- The instances of the unit types that have a state (Table FR-1, R500). -/
def unitCount : Nat → Nat
  | 0x01 | 0x02 => 128 | 0x05 => 8 | 0x06 => 16 | 0x07 => 12 | 0x08 => 8 | 0x09 => 4 | 0x0D => 3 | _ => 0
/-- The codes of the states in the order of Table FR-3 (log 13). -/
def UnitSt.code : UnitSt → Nat
  | .inService => 0 | .probation => 1 | .faulted => 2 | .offline => 3 | .harvested => 4 | .absent => 5
/-- The state of a unit; the host port is in service while its link is up. -/
def stateOf (s : State) (ut inst : Nat) : UnitSt :=
  if ut = 0x0D && inst = 0 then (if s.link.hostUp then .inService else .absent) else s.unitSt ut inst
/-- The state, the last fence trigger and its timestamp, the probation failures since cold start. -/
def unitWords (s : State) (ut inst : Nat) : List Nat :=
  let r := s.unitRec ut inst
  [(stateOf s ut inst).code, r.trigger, r.trigTs % 2 ^ 32, r.trigTs / 2 ^ 32, r.fails]
/-- The state of a port, and above it the level of its PAUSE wire (R277; log 13). -/
def portByte (s : State) (c : Nat) : Byte := BitVec.ofNat 8 ((stateOf s 0x01 c).code + 128 * b2n (s.pauseHigh c))
/-- R278: of a tile: its capability record, its agreed profile, the state of each port, its entries in both lane maps. -/
def tileBytes (s : State) (q : Fin 4) : List Byte :=
  let t := s.tile q
  let maps := (s.store.laneAsm ++ s.store.laneLearned.map Prod.fst).filter fun e => tileOf e.1 = q.val
  (if t.cap.isEmpty then List.replicate 64 0 else t.cap) ++ t.prof.elim (List.replicate 32 0) profileBytes
    ++ (List.range 32).map (portByte s ∘ localCluster q.val)
    ++ maps.flatMap fun e => leBytes 4 (e.1 * 8192 + e.2.1 * 128 + e.2.2 * 2 + 1)
/-- UNIT_STATUS. -/
def execUnitStatus (n : Fin 16) (s : State) : Result :=
  .next (command 0x0B03 n.val
    (fun _ m => { badArg := failIf (unitCount (m.arg 0) ≤ m.arg 1) 0x0B01 })
    (fun s m => replyDone n.val (unitWords s (m.arg 0) (m.arg 1))
      (if m.exp then
        (List.range (unitCount (m.arg 0))).flatMap (fun i => (unitWords s (m.arg 0) i).flatMap (leBytes 4))
          ++ (if m.arg 0 = 0x09 then (List.finRange 4).flatMap (tileBytes s) else [])
       else []) s) s)

/-! ## UNIT_RETURN and probation (R517, R518) -/

/-- Table FR-1: the unit may be taken out and returned. -/
def mayLeave (ut inst : Nat) : Bool := inst < unitCount ut && !(ut = 0x0D && inst = 0)
/-- A HARVESTED, ABSENT or MISWIRED unit. -/
def unitAway (s : State) (ut inst : Nat) : Bool := s.unitSt ut inst = .harvested || s.unitSt ut inst = .absent
/-- The clusters of a tile's profile that are out of service. -/
def tileOut (s : State) (q : Nat) : BitVec 128 :=
  (List.range 128).foldl (fun m c =>
    if tileOf c = q && (s.unitSt 0x01 c = .faulted || s.unitSt 0x01 c = .offline) then setBit m c true else m) 0
/-- The units that return with one: a tile brings its clusters. -/
def returnSet (s : State) (ut inst : Nat) : List (Nat × Nat) :=
  if ut = 0x09 then ((List.range 128).filter fun c => (tileOut s inst).getLsbD c).map (fun c => (0x01, c)) ++ [(0x09, inst)] else [(ut, inst)]
/-- R84, Table FR-6a: regulators turn on; a tile rail that is off is turned on first. -/
def powerTile (q : Nat) (m : BitVec 128) (s : State) : State :=
  let s1 := if (s.rail (2 + q) 0).on then s
    else pushFrame { vpm := 2 + q, op := 0x1, chan := 0, data := 0, kind := .setpoint, use := .railOn } s
  fgrTurnOn m s1
/-- The stack's controllers retrain and zero-fill it (R308). -/
def retrainStack (h : Nat) (s : State) : State :=
  { s with mem := { s.mem with
      zeroing := setBit s.mem.zeroing h true, refreshes := Tab.put 0 (Tab.put 0 s.mem.refreshes (2 * h) 0) (2 * h + 1) 0 } }
/-- R517, Table FR-6a: what comes before the probation work of a unit. -/
def beginReturn (ut inst : Nat) (s : State) : State :=
  match ut with
  | 0x01 => powerTile (tileOf inst) (BitVec.ofNat 128 (2 ^ inst)) s
  | 0x09 => powerTile inst (tileOut s inst) (setUnitSt 0x09 inst .probation s)
  | 0x05 => retrainStack inst s
  | 0x07 => startTraining inst s
  | _ => setUnitSt ut inst .probation s
/-- UNIT_RETURN: ACCEPTED; DONE when the unit is IN_SERVICE, or with the failing step. -/
def execUnitReturn (n : Fin 16) (s : State) : Result :=
  .next (command 0x0B04 n.val
    (fun s m =>
      let ut := m.arg 0
      let i := m.arg 1
      { notPermitted := portFrom0 s n.val
        badArg := firstFail [failIf (!mayLeave ut i) 0x0B01, failIf (m.exp && m.arg 2 ≠ 0 && (m.arg 2 < 100 || 10000 < m.arg 2)) 0,
          failIf (unitAway s ut i) 0x0B03, failIf (s.unitSt ut i ≠ .faulted && s.unitSt ut i ≠ .offline) 0x0B02,
          failIf (s.unitRec ut i).refused 0x0B04]
        busy := failIf (epochPending s) 0x0311 })
    (fun s m =>
      let s1 := setAwait n.val (.unitReturn (m.arg 0) (m.arg 1)) (replyAccepted n.val s)
      beginReturn (m.arg 0) (m.arg 1)
        { s1 with units := { s1.units with returning := (returnSet s (m.arg 0) (m.arg 1)).map (fun u => (u.1, u.2, n.val)) ++ s1.units.returning } }) s)

/-- UNIT_RETURN has asked for a unit. -/
def isReturning (s : State) (ut inst : Nat) : Bool := s.units.returning.any fun e => e.1 = ut && e.2.1 = inst
/-- The units whose probation ends with that of one: a tile's with the ports that returned with it. -/
def provingSet (s : State) (ut inst : Nat) : List (Nat × Nat) :=
  if ut = 0x09 then ((List.range 128).filter fun c => isReturning s 0x01 c && tileOf c = inst).map (fun c => (0x01, c)) ++ [(0x09, inst)] else [(ut, inst)]
/-- Every port of a returning cluster or tile is in service under R274. -/
def portsReady (s : State) (l : List (Nat × Nat)) : Bool := l.all fun u => u.1 ≠ 0x01 || (s.port u.2).ready
/-- Several units join with the next epoch. -/
def joinAll : List (Nat × Nat) → State → State
  | [], s => s
  | u :: t, s => joinAll t { s with net := { s.net with next := { s.net.next with joins := s.net.next.joins ++ [u] } } }
/-- A unit is no longer on its way back. -/
def stopReturn (ut inst : Nat) (s : State) : State :=
  { s with units := { s.units with returning := s.units.returning.filter fun e => !(e.1 = ut && e.2.1 = inst) } }
/-- R518: a probation fails: the unit is FAULTED and holds nothing. -/
def probationFails (ut inst step : Nat) (s : State) : State :=
  let r := s.unitRec ut inst
  let s1 := setUnitRec ut inst { r with st := .faulted, fails := r.fails + 1, refused := decide (3 ≤ r.fails + 1) } s
  let s2 := logUe .unit 0x0B03 ut inst [step] (revokeHeld ut inst (stopReturn ut inst s1))
  completeAwait (fun a => a = .unitReturn ut inst) { status := 0, res := [step] } s2
/-- The ports of a tile whose return has failed are fenced again. -/
def portsFail : List (Nat × Nat) → State → State
  | [], s => s
  | u :: t, s => portsFail t (if u.1 = 0x01 then setUnitSt 0x01 u.2 .faulted (revokeHeld 0x01 u.2 (stopReturn 0x01 u.2 s)) else s)
/-- The 100 µs of TEST traffic end, or a step of the probation fails. In PH_TRAIN the bond ports are judged by TRAIN_COMPLETE; a Gust
port's probation is step 5 of its training (R458). -/
def execProbationEnd (ut inst : Fin 256) (pass : Bool) (step : Nat) (s : State) : Result :=
  let u := ut.val
  let i := inst.val
  let l := provingSet s u i
  .next (if u = 0x07 then
      if (s.gport i).st = .probation && (s.gport i).step = 5 then
        if !pass then gustDown i 5 false s
        else if s.aon.phase = .train then modGport i (fun p => { p with step := 6 }) s
        else joinNext 0x07 i (modGport i (fun p => { p with step := 6 }) s)
      else s
    else if !(isReturning s u i && (s.unitSt u i = .probation || s.unitSt u i = .absent)) || s.mem.zeroing.getLsbD i && u = 0x05 then s
    else if pass && portsReady s l then startEpoch (joinAll l s)
    else probationFails u i step (portsFail (if u = 0x09 then l else []) s))

/-! ## UNIT_OFFLINE (R516, R519) -/

/-- The clusters that go with a cluster or a tile. -/
def clustersOut (ut inst : Nat) : List Nat := if ut = 0x09 then (List.range 128).filter fun c => tileOf c = inst else [inst]
/-- R519: a partition with live requests would keep no pool group. -/
def poolsEmpty (s : State) (ut inst : Nat) : Bool :=
  (s.serve.reqs.map fun e => e.2.part).eraseDups.any fun p =>
    (poolGroups s p).all fun g => (groupClusters g).any fun c => c ∈ clustersOut ut inst
/-- R516: a stack may leave: nobody but partition 0 holds a frame in a region that uses it, no request is live, no drift session
exists, no vault is open. -/
def stackFree (s : State) (h : Nat) : Bool :=
  s.serve.reqs.isEmpty && (s.sealed.vaults.isEmpty && (s.mem.frames.all fun e =>
    e.2.use = .free || (e.2.part = 0 || !(s.hregion (frameRegion e.1)).mode.usesStack h)))
/-- R519: UNIT_OFFLINE would leave more than two routers dead or OFFLINE. -/
def tooManyDead (s : State) (n : Nat) : Bool :=
  let d := setBit (deadRouters s) n true
  2 < popcount d + (cutOff d).length
/-- The limits of R516 and R519. -/
def offlineLimit (s : State) (ut inst : Nat) : Bool :=
  match ut with
  | 0x01 | 0x09 => poolsEmpty s ut inst
  | 0x02 => tooManyDead s inst
  | 0x05 => !stackFree s inst
  | _ => false
/-- The units that leave with one: a tile takes its clusters along. -/
def leaveSet (s : State) (ut inst : Nat) : List (Nat × Nat) :=
  if ut = 0x09 then ((List.range 128).filter fun c => tileOf c = inst && s.unitSt 0x01 c = .inService).map (fun c => (0x01, c)) ++ [(0x09, inst)]
  else [(ut, inst)]
/-- Several units leave with the next epoch. -/
def planLeaves : List (Nat × Nat) → State → State
  | [], s => s
  | u :: t, s => planLeaves t { s with net := { s.net with next := { s.net.next with leaves := s.net.next.leaves ++ [u] } } }
/-- The expert form: every unit of a list at once. -/
def offlineAtOnce : List (Nat × Nat) → State → State
  | [], s => s
  | u :: t, s => offlineAtOnce t (if u.1 = 0x07 then portOffline u.2 s else offlineNow u s)
/-- R516: a stack that leaves puts the package in the maintenance state. -/
def enterMaint (ut inst : Nat) (s : State) : State :=
  if ut = 0x05 then logInfo 0x0B07 0x05 inst [inst] { s with units := { s.units with maint := true } } else s
/-- UNIT_OFFLINE. -/
def execUnitOffline (n : Fin 16) (s : State) : Result :=
  .next (command 0x0B05 n.val
    (fun s m =>
      let ut := m.arg 0
      let i := m.arg 1
      { notPermitted := portFrom0 s n.val
        badArg := firstFail [failIf (!mayLeave ut i) 0x0B01, failIf (unitAway s ut i) 0x0B03, failIf (s.unitSt ut i ≠ .inService) 0x0B02,
          failIf (offlineLimit s ut i) 0x0B05]
        busy := failIf (!m.exp && epochPending s) 0x0311 })
    (fun s m =>
      let l := leaveSet s (m.arg 0) (m.arg 1)
      let s1 := setAwait n.val (.unitOffline (m.arg 0) (m.arg 1)) (enterMaint (m.arg 0) (m.arg 1) s)
      if m.exp then rebuildRoutes (offlineAtOnce l s1) else startEpoch (planLeaves l s1)) s)

end Sys2Proof.Machine
end

