-- ==== Sys2Proof/Machine/HostPort.lean ====
section
/-!
DEFINITION. The host port and BAR2 (spec/17_gust_links_and_host.md R468 to R473, R481).
-/
namespace Sys2Proof.Machine

/-! ## The link (R469) -/

/-- PERST_N rises: with PCLK locked the host port trains. -/
def execPerstNRise (s : State) : Result :=
  .next (if s.pins.pwrOk && !s.pins.perstN then
      { s with pins := { s.pins with perstN := true }, link := { s.link with hostTrain := true } }
    else s)
/-- The host link comes up, with PCIE_DEGRADED for a reduced rate or width. -/
def execPcieLinkUp (degraded : Bool) (s : State) : Result :=
  .next (if s.link.hostTrain && s.clk.pclk then
      let s1 := { s with link := { s.link with hostUp := true, hostTrain := false } }
      if degraded then logInfo 0x070A 0x0D 0 [] s1 else s1
    else s)
/-- A hot reset, or a link down that no reset of Daxmet's own caused, has the effect of PERST_N; the link then trains again. -/
def execPcieLinkDown (s : State) : Result :=
  .next (if s.link.hostUp then
      let t := perstEffect s
      { t with link := { t.link with hostTrain := true } }
    else s)

/-! ## Configuration space (R470) -/

/-- Vectors that stood in the PBA go out once requests may be sent. -/
def drainPba (s : State) : State :=
  if s.hostReady then { s with out := { s.out with msix := s.link.pba.reverse ++ s.out.msix }, link := { s.link with pba := [] } } else s
/-- The host writes configuration space. -/
def execConfigurationWrite (w : CfgWrite) (s : State) : Result :=
  .next (if !s.link.hostUp then s
    else match w with
      | .busMaster b => drainPba { s with link := { s.link with bme := b } }
      | .power b => drainPba { s with link := { s.link with d0 := b } }
      | .cplTimeout v => { s with link := { s.link with cplTimeout := v } })

/-! ## BAR2 (R336, R471) -/

/-- Window `w`. -/
def State.bar2win (s : State) (w : Nat) : Bar2Win := Tab.get {} s.link.bar2 w
/-- What a host read that reaches nothing returns: ones. -/
def onesBytes (n : Nat) : List Byte := List.replicate n 0xFF
/-- The access that a window makes of an offset. -/
def barAccess (x : Bar2Win) (off : Nat) (write : Bool) : Access :=
  { part := x.part, dva := x.base + off % 2 ^ 32, write := write, host := true, ut := 0x0D, inst := 0 }
/-- A host read that the window lets through: ones where it meets a fault or a memory error. -/
def barRead (x : Bar2Win) (off n : Nat) (s : State) : State :=
  let r := dvaRead (barAccess x off false) n s
  match r.1 with
  | .ok b => { r.2 with out := { r.2.out with hostData := b } }
  | .error _ => { r.2 with out := { r.2.out with hostData := onesBytes n } }
/-- A denied access: it reads ones, discards writes and counts. -/
def barDeny (acc : BarAccess) (s : State) : State :=
  let s1 := { s with link := { s.link with bar2Deny := satInc s.link.bar2Deny } }
  match acc with
  | .read n => { s1 with out := { s1.out with hostData := onesBytes n.toNat } }
  | .write _ => s1
/-- R12, Table SU-4: the blocks behind BAR2 are absent or held in reset: a read returns ones, a write is discarded, OFFLINE_ACC is set. -/
def barOffline (acc : BarAccess) (s : State) : State :=
  match acc with
  | .read n => { noteOffline s with out := { s.out with hostData := onesBytes n.toNat } }
  | .write _ => noteOffline s
/-- A host access through BAR2. -/
def execBar2Access (off : BitVec 36) (acc : BarAccess) (s : State) : Result :=
  let x := s.bar2win (off.toNat / 2 ^ 32)
  .next (if !s.link.hostUp then s
    else if s.mainDown then barOffline acc s
    else match acc with
      | .read n => if x.enable then barRead x off.toNat n.toNat s else barDeny acc s
      | .write b =>
        if x.enable && x.write then (dvaWrite (barAccess x off.toNat true) b s).2
        else barDeny acc s)

/-- The mailbox may set a window: any from partition 0; its own partition's otherwise. -/
def mayWindow (s : State) (n : Nat) (m : Mbx) : Bool :=
  if mbxPart s n = 0 then partKind s (m.arg 4) ≠ .vault else (s.bar2win (m.arg 0)).part = mbxPart s n
/-- BAR2_WINDOW. Accesses through a window are whole here, so none is in flight when it takes effect. -/
def execBar2Window (n : Fin 16) (s : State) : Result :=
  .next (command 0x0706 n.val
    (fun s m =>
      let own := mbxPart s n.val = 0
      { notPermitted := failIf (m.arg 0 < 16 && ((!own || m.arg 4 < 64) && !mayWindow s n.val m)) 0x0706
        badArg := firstFail [
          failIf (16 ≤ m.arg 0 || (4 ≤ m.arg 3 || ((m.exp && 2 ≤ m.arg 5) || (if own then 64 ≤ m.arg 4 || partKind s (m.arg 4) = .unused
            else m.arg 4 ≠ 0)))) 0,
          failIf (m.arg64 1 % 65536 ≠ 0 || 2 ^ 48 < m.arg64 1 + 2 ^ 32) 0x0707] })
    (fun s m =>
      let x : Bar2Win := { enable := m.arg 3 % 2 = 1, write := m.arg 3 / 2 = 1, base := m.arg64 1
                           part := if mbxPart s n.val = 0 then m.arg 4 else (s.bar2win (m.arg 0)).part }
      replyDone n.val [] [] { s with link := { s.link with bar2 := Tab.put {} s.link.bar2 (m.arg 0) x } }) s)

end Sys2Proof.Machine
end

