-- ==== Sys2Proof/Machine/Pins.lean ====
section
/-!
DEFINITION. The tray-facing and management pins: EXTEST, the I3C address, the pin multiplexer and the pin commands
(spec/02_board_and_pins.md).
-/
namespace Sys2Proof.Machine

/-- R48: the I3C controller assigns a dynamic address; the targets answer while SCLK runs. -/
def execI3cDynamicAddress (addr : BitVec 7) (s : State) : Result :=
  .next (if s.released && s.clk.sclk then { s with pins := { s.pins with i3cDyn := some addr.toNat } } else s)

/-- The levels of the pads as a boundary capture sees them: MGP0 to MGP23, TRAY_DONE, CFG_ERR_N, the CXL resets (log 139). -/
def padCapture (s : State) : Nat :=
  (List.finRange 24).foldl (fun x n => x + b2n (padLevel s n) * 2 ^ n.val) 0 + b2n s.doneLvl * 2 ^ 24 + b2n s.errLvl * 2 ^ 25
    + b2n (s.cxlPerst 0) * 2 ^ 26 + b2n (s.cxlPerst 1) * 2 ^ 27
/-- R49, R185: an instruction of the TAP while TRST_N is high. An instruction that the debug level does not open acts as BYPASS
(log 139). -/
def tapOp (op : TapOp) (s : State) : State :=
  let leave := { s with pins := { s.pins with extest := false } }
  match op with
  | .extest b => { s with pins := { s.pins with extest := true, boundary := b, tdo := padCapture s } }
  | .preload b => { s with pins := { s.pins with extest := false, boundary := b } }
  | .sample => { s with pins := { s.pins with extest := false, tdo := padCapture leave } }
  | .bypass => { s with pins := { s.pins with extest := false, tdo := 0 } }
  | .idcode => { s with pins := { s.pins with extest := false, tdo := Config.idcode } }
  | .wrapper => if 2 ≤ s.prot.debugLevel then send (.tap "wrapper") leave else leave
  | .coreHalt => if 3 ≤ s.prot.debugLevel then { s with pins := { s.pins with extest := false, coreHalt := true } } else leave
  | .coreStep => if 3 ≤ s.prot.debugLevel then send (.tap "step") leave else leave
  | .coreRun => if 3 ≤ s.prot.debugLevel then { s with pins := { s.pins with extest := false, coreHalt := false } } else leave
/-- R49: the TAP answers while VDDIO18 is up and TRST_N is high; TRST_N low resets it. -/
def execExtest (trstN : Bool) (op : TapOp) (s : State) : Result :=
  .next (if !s.pins.pwrOk then s
    else if trstN then tapOp op s else { s with pins := { s.pins with extest := false } })

/-- R60: a selection that names code 3, a dash entry or a function held in reset. -/
def badFunc (s : State) (pin : Fin 24) (f : Fin 4) : Bool :=
  f ≠ 0 && (pinSig pin.val f).elim true (sigHeld s)

/-- R55: another pin holds the signal: its target function selects it, or its park window has not yet ended. -/
def sigConflict (s : State) (pin : Fin 24) (f : Fin 4) : Bool :=
  match pinSig pin.val f with
  | none => false
  | some g => (List.finRange 24).any fun q => q ≠ pin &&
      (pinSig q.val s.pmx.pins[q].func = some g || (s.pmx.pins[q].park && pinSig q.val s.pmx.pins[q].cur = some g))

/-- Replace a pin. -/
def setPin (n : Fin 24) (p : PmxPin) (s : State) : State := { s with pmx := { s.pmx with pins := s.pmx.pins.set n p } }

/-- R58: an accepted selection: the GPIO fields take their values, and a park window opens unless the function stays; a
GPIO is idle at once, a peripheral is told to stop and sees its idle level. -/
def selectPin (n : Fin 24) (f : Fin 4) (oe out : Bool) (s : State) : State :=
  let p := { s.pmx.pins[n] with wroteAt := some s.now }
  if f = p.cur then setPin n { p with func := f, oe := oe, out := out } s
  else
    let t := setPin n { p with func := f, oe := oe, out := out, park := true, minDone := false, oldIdle := p.cur = 0,
                               gpioIn := if p.cur = 0 then padLevel s n else p.gpioIn } s
    match pinSig n.val p.cur with
    | none => t
    | some g => send (.pin n.val "stop" (b2n (g.idleIn.getD true))) t

/-- The first level that the new driver of a pin gives (Table BP-8). -/
def firstLevel (n : Fin 24) (f : Fin 4) (s : State) : State :=
  match pinSig n.val f with
  | none => s
  | some g => if g.drive = .pushPull && !sigHeld s g then send (.pin n.val "drive" (b2n g.idleOut)) s else s
/-- R58, R62: the window ends: CUR takes FUNC, the new driver starts at its idle level, and a PIN_SET_FUNCTION that waits for it is
DONE. -/
def endPark (n : Fin 24) (s : State) : State :=
  let p := s.pmx.pins[n]
  completeAwait (fun a => a = .pinSwitch n.val) { status := 0 }
    (firstLevel n p.func (setPin n { p with cur := p.func, park := false, minDone := false, oldIdle := false, endAt := some s.now } s))

/-- The window ends once its minimum has passed and the old peripheral is idle. -/
def parkCheck (n : Fin 24) (s : State) : State :=
  if s.pmx.pins[n].minDone && s.pmx.pins[n].oldIdle then endPark n s else s

/-- R57, R58, R60: a write to PMX_PINn, all of whose fields need the EXPERT grant (R7). A pin takes one write in a cycle (R61). Of
several refusals the first is shown: park window, BADFUNC, CONFLICT (log 141). -/
def writePmxPin (pin : Fin 24) (val : Word) (s : State) : State :=
  let f : Fin 4 := ⟨fld val 0 2, Nat.mod_lt _ (by decide)⟩
  if !s.released then s
  else if s.aon.grantHost.isNone then noteDeny s
  else if s.pmx.pins[pin].park || s.pmx.pins[pin].wroteAt = some s.now then { s with pmx := { s.pmx with refused := true, lastPin := pin } }
  else if badFunc s pin f then { s with pmx := { s.pmx with badFunc := true, lastPin := pin } }
  else if sigConflict s pin f then { s with pmx := { s.pmx with conflict := true, lastPin := pin } }
  else selectPin pin f (bit val 12) (bit val 13) s
/-- A write of PMX_PINn. -/
def execPmxPinWrite (pin : Fin 24) (val : Word) (s : State) : Result := .next (writePmxPin pin val s)

/-- R58: the old peripheral reports idle. -/
def execParkIdle (pin : Fin 24) (s : State) : Result :=
  .next (if s.pmx.pins[pin].park then parkCheck pin (setPin pin { s.pmx.pins[pin] with oldIdle := true } s) else s)

/-- R58, R59: the 1 µs minimum ends. -/
def execParkMinExpiry (pin : Fin 24) (s : State) : Result :=
  .next (if s.pmx.pins[pin].park then parkCheck pin (setPin pin { s.pmx.pins[pin] with minDone := true } s) else s)

/-- R58: at 100 µs the multiplexer resets an old peripheral that is not idle, with a PMX_FORCED_IDLE record. -/
def execParkTimeout (pin : Fin 24) (s : State) : Result :=
  .next (if s.pmx.pins[pin].park && !s.pmx.pins[pin].oldIdle then
      endPark pin (logInfo 0x0A10 0x00 0 [pin.val] (send (.pin pin.val "reset" s.pmx.pins[pin].cur.val) s))
    else s)

/-! ## The pin commands (R62, Table BP-9). ARG0 is the pin; the places of the other arguments are DESIGN CHOICE, log 13. -/

/-- The pin that ARG0 names. -/
def pinArg (m : Mbx) : Option (Fin 24) := if h : m.arg 0 < 24 then some ⟨m.arg 0, h⟩ else none

/-- The levels that the tray gives the pads (log 2). -/
def setPads (pads : BitVec 24) (s : State) : State := { s with pmx := { s.pmx with pads := pads } }
/-- PIN_GET: PMX_PINn, PMX_PARKMAP and AON_BOARD. -/
def execPinGet (look : PinLook) (s0 : State) : Result :=
  let n := look.n.val
  .next (command 0x0A01 n (fun _ m => { badArg := failIf (24 ≤ m.arg 0) 0 })
    (fun s m => match pinArg m with
      | none => s
      | some p => replyDone n [(pmxPin s p).toNat, (pmxParkmap s).toNat, (aonBoard s).toNat] [] s) (setPads look.pads s0))

/-- The function that ARG1 selects. -/
def funcArg (m : Mbx) : Fin 4 := ⟨m.arg 1 % 4, Nat.mod_lt _ (by decide)⟩

/-- PIN_SET_FUNCTION: DONE only after t_end; the expert form also sets GPIO_OE (ARG2 bit 0) and GPIO_OUT (bit 1). -/
def execPinSetFunction (n : Fin 16) (s : State) : Result :=
  .next (command 0x0A02 n.val
    (fun s m => match pinArg m with
      | none => { badArg := some 0 }
      | some p =>
        { badArg := failIf (4 ≤ m.arg 1 || (m.exp && 4 ≤ m.arg 2) || badFunc s p (funcArg m) || sigConflict s p (funcArg m)) 0
          busy := failIf s.pmx.pins[p].park 0 })
    (fun s m => match pinArg m with
      | none => s
      | some p =>
        let old := s.pmx.pins[p]
        let t := selectPin p (funcArg m) (if m.exp then m.arg 2 % 2 = 1 else old.oe) (if m.exp then m.arg 2 / 2 = 1 else old.out) s
        if funcArg m = old.cur then replyDone n.val [] [] t else setAwait n.val (.pinSwitch p.val) t) s)

/-- PIN_GPIO: ARG1 bit 0 GPIO_OE, bit 1 GPIO_OUT; returns PAD_IN. -/
def execPinGpio (look : PinLook) (s0 : State) : Result :=
  let n := look.n.val
  .next (command 0x0A03 n
    (fun s m => match pinArg m with
      | none => { badArg := some 0 }
      | some p => { badArg := failIf (s.pmx.pins[p].cur ≠ 0 || 4 ≤ m.arg 1) 0, busy := failIf s.pmx.pins[p].park 0 })
    (fun s m => match pinArg m with
      | none => s
      | some p =>
        let t := setPin p { s.pmx.pins[p] with oe := m.arg 1 % 2 = 1, out := m.arg 1 / 2 = 1, wroteAt := some s.now } s
        replyDone n [b2n (padLevel t p)] [] t) (setPads look.pads s0))

end Sys2Proof.Machine
end

