-- ==== Sys2Proof/Machine/Partitions.lean ====
section
/-!
DEFINITION. Partitions: their 64-byte entries and what each owns (spec/07_two_party_protection.md R169 to R172).
-/
namespace Sys2Proof.Machine

/-- KIND of an entry. -/
def PartKind.code : PartKind → Nat
  | .unused => 0 | .ordinary => 1 | .sealedK => 2 | .vault => 3

/-- Table TP-1: the 64 bytes of an entry. -/
def encodePart (p : Part) : List Byte :=
  leBytes 1 (PartKind.code p.kind) ++ leBytes 1 (b2n p.vane) ++ leBytes 2 p.areas.toNat ++ leBytes 2 p.mbx.toNat
    ++ leBytes 2 p.mee.toNat ++ leBytes 16 p.clusters.toNat ++ leBytes 8 p.dma.toNat ++ leBytes 2 p.lullBase
    ++ leBytes 2 p.lullCount ++ leBytes 2 p.tenantBase ++ leBytes 4 p.tenantCount ++ leBytes 4 p.hbmQuota ++ List.replicate 18 0

/-- The kind a byte names. -/
def kindOf : Nat → Option PartKind
  | 0 => some .unused | 1 => some .ordinary | 2 => some .sealedK | 3 => some .vault | _ => none

/-- The entry that 64 bytes hold, before its range checks. -/
def rawPart (b : List Byte) (k : PartKind) : Part :=
  { kind := k, vane := leAt b 1 1 % 2 = 1, areas := BitVec.ofNat 16 (leAt b 2 2), mbx := BitVec.ofNat 16 (leAt b 4 2),
    mee := BitVec.ofNat 16 (leAt b 6 2), clusters := BitVec.ofNat 128 (leAt b 8 16), dma := BitVec.ofNat 64 (leAt b 24 8),
    lullBase := leAt b 32 2, lullCount := leAt b 34 2, tenantBase := leAt b 36 2, tenantCount := leAt b 38 4,
    hbmQuota := leAt b 42 4 }

/-- R170: 64 bytes as an entry; none where a field is out of range, a reserved bit is set, or an UNUSED entry owns
something. -/
def decodePart (b : List Byte) : Option Part :=
  match kindOf (leAt b 0 1) with
  | none => none
  | some k =>
    let p := rawPart b k
    if b.length = 64 ∧ leAt b 1 1 < 2 ∧ leAt b 2 2 % 2 = 0 ∧ leAt b 2 2 < 4096 ∧ leAt b 4 2 < 16384
        ∧ (p.mee = 0 ∨ k = .sealedK ∨ k = .vault) ∧ p.lullBase + p.lullCount ≤ 16384
        ∧ p.tenantBase + p.tenantCount ≤ 65536 ∧ leAt b 46 18 = 0 ∧ (k ≠ .unused ∨ p = {}) then some p
    else none

/-- The entry that partition 0 stands for: ORDINARY, every area right, and everything no other partition owns (R169). -/
def systemPart (s : State) : Part :=
  let o := fun {w : Nat} (f : Part → BitVec w) => s.prot.parts.foldl (fun a e => a ||| f e.2) (0 : BitVec w)
  { kind := .ordinary, vane := vanePart s = 0, areas := 0x0FFE, mbx := ~~~ o Part.mbx, mee := ~~~ o Part.mee,
    clusters := ~~~ o Part.clusters, dma := ~~~ o Part.dma }

/-- Two ranges overlap. -/
def overlap (b1 c1 b2 c2 : Nat) : Bool := c1 ≠ 0 && c2 ≠ 0 && b1 < b2 + c2 && b2 < b1 + c1

/-- R171: two entries claim one resource. -/
def partsClash (a b : Part) : Bool :=
  (a.mbx &&& b.mbx) != 0 || (a.mee &&& b.mee) != 0 || (a.clusters &&& b.clusters) != 0 || (a.dma &&& b.dma) != 0
    || (a.vane && b.vane) || overlap a.lullBase a.lullCount b.lullBase b.lullCount
    || overlap a.tenantBase a.tenantCount b.tenantBase b.tenantCount

/-- R171: the table with entry `p` replaced is free of clashes and within the frames in service. -/
def tableOk (s : State) (p : Nat) (e : Part) : Bool :=
  let others := s.prot.parts.filter fun x => x.1 ≠ p
  others.all (fun x => !partsClash e x.2) && (others.map fun x => x.2.hbmQuota).sum + e.hbmQuota ≤ framesInService s

end Sys2Proof.Machine
end

