-- ==== Sys2Proof/Machine/Protection.lean ====
section
/-!
DEFINITION. Dual control and attestation: challenges, change tickets, grants, anti-rollback counters, SPDM and measurements
(spec/07_two_party_protection.md).
-/
namespace Sys2Proof.Machine

/-! ## Challenges (R176) -/

/-- TICKET_CHALLENGE: a CHAL_ID, a 32-byte nonce and 600 s of life; at most eight are alive at once. While the DRBG is
exhausted no nonce can be drawn (R437). -/
def execTicketChallenge (n : Fin 16) (s : State) : Result :=
  .next (command 0x0201 n.val
    (fun s _ => { noResource := firstFail [failIf (8 ≤ s.prot.challenges.length) 0, failIf (drbgDown s) 0x0604] })
    (fun s _ =>
      let nonce := (Config.drbg s.freeCtr).take 32
      let c : Chal := { id := s.prot.nextChal.toNat, nonce := nonce, issued := s.now }
      replyDone n.val ([c.id] ++ ((List.range 8).map fun i => leAt nonce (4 * i) 4) ++ [600]) []
        (drbgDraw { s with prot := { s.prot with challenges := c :: s.prot.challenges, nextChal := s.prot.nextChal + 1 } })) s)

/-- A challenge dies 600 s after issue. -/
def execChallengeExpiry (id : BitVec 32) (s : State) : Result :=
  .next { s with prot := { s.prot with challenges := s.prot.challenges.filter fun c => c.id ≠ id.toNat } }

/-! ## Tickets (R177 to R183) -/

/-- The setting of a ticket (byte 47). -/
def tkSetting (b : List Byte) : Nat := leAt b 47 1
/-- CHAL_ID. -/
def tkChal (b : List Byte) : Nat := leAt b 8 4
/-- PAYLOAD_LEN. -/
def tkPayLen (b : List Byte) : Nat := leAt b 48 2
/-- SIGNERS. -/
def tkSigners (b : List Byte) : Nat := leAt b 50 1
/-- LIFETIME. -/
def tkLife (b : List Byte) : Nat := leAt b 52 4
/-- The payload. -/
def tkPayload (b : List Byte) : List Byte := (b.drop 64).take (tkPayLen b)
/-- The bytes that both parties sign. -/
def tkSigned (b : List Byte) : List Byte := b.take (64 + tkPayLen b)
/-- HC_SIG. -/
def tkHcSig (b : List Byte) : List Byte := (b.drop (64 + tkPayLen b)).take 96
/-- TS_SIG. -/
def tkTsSig (b : List Byte) : List Byte := (b.drop (160 + tkPayLen b)).take 96

/-- The custody states of R175. -/
inductive CustodySt | unowned | owned | orphaned
  deriving DecidableEq, Repr

/-- R175: the custody state: no owner while KEYGEN is 0, orphaned when KEYGEN is above 0 and no valid record exists. -/
def custodySt (s : State) : CustodySt :=
  if s.prot.counters[1] = 0 then .unowned
  else if custodyValid s then .owned
  else .orphaned

/-- The keys that sign a ticket: the current ones; in the UNOWNED state the two new keys of a CUSTODY_KEYS payload. -/
def tkKeys (s : State) (b : List Byte) : List Byte × List Byte :=
  match custodySt s, s.prot.custody with
  | .owned, some c => (c.hc, c.ts)
  | _, _ => ((tkPayload b).take 97, (tkPayload b).drop 97)

/-- Check 2: the custody state permits the setting. -/
def custodyPermits (s : State) (setting : Nat) : Bool :=
  match custodySt s with
  | .owned => true
  | .unowned => setting = 0x08
  | .orphaned => false

/-- The order of the group of P-384. -/
def p384Order : Nat := 0xFFFFFFFFFFFFFFFFFFFFFFFFFFFFFFFFFFFFFFFFFFFFFFFFC7634D81F4372DDF581A0DB248B0A77AECEC196ACCC52973
/-- R178: r and s, 48-byte big-endian integers, are neither 0 nor at or above the group order. -/
def sigInRange (sig : List Byte) : Bool :=
  let r := leNat (sig.take 48).reverse
  let t := leNat (sig.drop 48).reverse
  (0 < r && r < p384Order) && (0 < t && t < p384Order)
/-- R178: a signature verifies. -/
def sigOk (key signed sig : List Byte) : Bool := sigInRange sig && Config.ecdsaOk key signed sig
/-- Check 3: the flagged signer whose signature does not verify: 1 Host Custodian, 2 Tray Steward. -/
def badSigner (s : State) (b : List Byte) : Option Nat :=
  let k := tkKeys s b
  if tkSigners b % 2 = 1 && !sigOk k.1 (tkSigned b) (tkHcSig b) then some 1
  else if tkSigners b / 2 % 2 = 1 && !sigOk k.2 (tkSigned b) (tkTsSig b) then some 2
  else none

/-- Check 4, Table TP-7: REVOKE needs one signature, every other setting both. -/
def cosigned (b : List Byte) : Bool :=
  if tkSetting b = 0x09 then tkSigners b % 4 ≠ 0 else tkSigners b % 4 = 3

/-- Check 5: the ticket is well formed; the field of a signature that SIGNERS does not flag holds 96 zero bytes (Table TP-4; log 161). -/
def tkFormat (m : Mbx) : Bool :=
  let b := m.input
  m.inInline && leAt b 0 4 = 0x54434B54 && leAt b 4 2 = 1 && leAt b 6 2 = 256 + tkPayLen b && m.dataLen = 256 + tkPayLen b
    && 1 ≤ tkPayLen b && tkPayLen b ≤ 1024 && leAt b 51 1 = 0 && leAt b 44 2 < 4096 && leAt b 46 1 < 8 && tkSigners b < 4
    && 1 ≤ tkSetting b && tkSetting b ≤ 9
    && (tkSigners b % 2 = 1 || (tkHcSig b).all (· = 0)) && (2 ≤ tkSigners b % 4 || (tkTsSig b).all (· = 0))

/-- Check 6: CHAL_ID names a live challenge with this nonce. -/
def chalLive (s : State) (b : List Byte) : Bool :=
  s.prot.challenges.any fun c => c.id = tkChal b && c.nonce = (b.drop 12).take 32

/-- The first 8 bytes of a digest as a number. -/
def hash64 (h : BitVec 384) : BitVec 64 := h.setWidth 64

/-- A list of bytes filled up with zeros to a length. -/
def padTo (n : Nat) (l : List Byte) : List Byte := l.take n ++ List.replicate (n - l.length) 0
/-- The paths that hold the EXPERT grant, as its payload names them. -/
def grantPaths (s : State) : Nat := b2n s.aon.grantHost.isSome + 2 * b2n s.aon.grantOob.isSome
/-- The current value of a setting as bytes: the form of its payload, which the spec gives for PARTITION alone (log 17); the counters as
ROLLBACK_STATUS returns them; the custody record. `p` is the partition of a PARTITION ticket. -/
def settingBytes (s : State) (setting p : Nat) : List Byte :=
  match setting with
  | 0x01 => encodePart (if p = 0 then systemPart s else s.part p)
  | 0x02 => leBytes 8 s.prot.vault.parts.toNat ++ padTo 8 (s.prot.vault.escrow.flatMap (leBytes 2)) ++ leBytes 4 s.prot.vault.life
  | 0x03 => leBytes 8 s.prot.sealedP.parts.toNat ++ padTo 97 s.prot.sealedP.holder
      ++ [BitVec.ofNat 8 s.prot.sealedP.maxDegree, BitVec.ofNat 8 s.prot.sealedP.maxLimbs]
  | 0x04 => leBytes 1 s.prot.debugLevel
  | 0x05 => leBytes 1 (grantPaths s)
  | 0x06 => s.prot.counters.toList.flatMap (leBytes 4)
  | 0x07 => leBytes 1 s.store.exclMap.toNat
  | 0x08 => s.prot.custody.elim [] fun c => custodyBytes c.hc c.ts s.prot.counters[1]
  | _ => leBytes 1 s.prot.debugLevel ++ leBytes 1 (grantPaths s)
/-- The current BASE of a setting (R177, R178). -/
def baseOf (s : State) (setting p : Nat) : BitVec 64 := hash64 (Config.sha384 (settingBytes s setting p))

/-- Check 8. -/
def baseFresh (s : State) (b : List Byte) : Bool :=
  leAt b 56 8 = (baseOf s (tkSetting b) (leAt (tkPayload b) 0 1)).toNat

/-- Byte `i` of the payload. -/
def payB (b : List Byte) (i : Nat) : Nat := leAt (tkPayload b) i 1

/-- Check 9: PAYLOAD and LIFETIME are in range. The layouts of the policy payloads are DESIGN CHOICE (log 17). -/
def payloadOk (b : List Byte) : Bool :=
  let n := tkPayLen b
  let still := tkLife b = 0
  match tkSetting b with
  | 0x01 => still && n = 65 && 1 ≤ payB b 0 && payB b 0 < 64 && (decodePart ((tkPayload b).drop 1)).isSome
  | 0x02 => still && n = 20 && (List.range 4).all fun i => leAt (tkPayload b) (8 + 2 * i) 2 < 4096
  | 0x03 => still && n = 107 && 12 ≤ payB b 105 && payB b 105 ≤ 17 && 1 ≤ payB b 106 && payB b 106 ≤ 64
  | 0x04 => n = 1 && payB b 0 < 4 && 1 ≤ tkLife b && tkLife b ≤ 86400
  | 0x05 => n = 1 && payB b 0 < 4 && payB b 0 ≠ 0 && 1 ≤ tkLife b && tkLife b ≤ 604800
  | 0x06 => still && n = 3 && payB b 0 < 8
  | 0x07 => still && n = 1
  | 0x08 => still && (n = 194 && (payB b 0 = 4 && (payB b 97 = 4 && (tkPayload b).take 97 ≠ (tkPayload b).drop 97)))
  | 0x09 => still && n = 1 && payB b 0 < 8 && payB b 0 ≠ 0
  | _ => false

/-- Some partition is SEALED or VAULT (R185). -/
def anySealed (s : State) : Bool := s.prot.parts.any fun e => e.2.kind = .sealedK ∨ e.2.kind = .vault

/-- The entry of a PARTITION payload. -/
def tkPart (b : List Byte) : Part := (decodePart ((tkPayload b).drop 1)).getD {}

/-- The 16-bit new value of a ROLLBACK payload. -/
def tkTarget (b : List Byte) : Nat := leAt (tkPayload b) 1 2

/-- The value of counter `i`. -/
def counter (s : State) (i : Nat) : Nat := s.prot.counters.toList.getD i 0

/-- Check 10: R171, R185, R189 and the policies. A counter already at 256 is judged by check 12 alone. -/
def constraintOk (s : State) (b : List Byte) : Bool :=
  match tkSetting b with
  | 0x01 =>
    let e := tkPart b
    let p := payB b 0
    tableOk s p e
      && ((e.kind ≠ .sealedK && e.kind ≠ .vault) || ctModeOk s e.clusters)
      && (e.kind ≠ .sealedK || (s.prot.sealedP.parts.getLsbD p && s.prot.debugLevel < 2))
      && (e.kind ≠ .vault || (s.prot.vault.parts.getLsbD p && s.prot.debugLevel < 2))
  | 0x04 => payB b 0 < 2 || !anySealed s
  | 0x06 =>
    payB b 0 ≠ 1 && (counter s (payB b 0) = 256
      || (counter s (payB b 0) < tkTarget b && tkTarget b ≤ 256 && (payB b 0 ≠ 0 || tkTarget b ≤ s.prot.fwSvn)))
  | _ => true

/-- Check 11: R186 for PARTITION; one fuse run is pending at a time. -/
def ticketBusy (s : State) (b : List Byte) : Bool :=
  match tkSetting b with
  | 0x01 => unitsBusy s (payB b 0) (s.part (payB b 0)) (tkPart b)
  | 0x06 | 0x08 => s.prot.run.isSome
  | _ => false

/-- Check 12: the DETAIL of a missing resource: the SETTINGS region is read-only, or the counter is at 256. -/
def ticketStuck (s : State) (b : List Byte) : Option Nat :=
  match tkSetting b with
  | 0x01 | 0x02 | 0x03 | 0x07 => failIf (s.regionRo 2) 0x020A
  | 0x06 => firstFail [failIf (s.regionRo 2) 0x020A, failIf (counter s (payB b 0) = 256) 0x020B]
  | 0x08 => firstFail [failIf (s.regionRo 2) 0x020A, failIf (counter s 1 = 256) 0x020B]
  | _ => none

/-- R179, Table TP-5: the first check of a ticket that fails, as status and DETAIL. -/
def ticketStatus (s : State) (n : Nat) (m : Mbx) : Option (Nat × Nat) :=
  let b := m.input
  if m.xferFail then some (0x11, 0x0001)
  else if s.aon.phase = .doldrums ∧ tkSetting b ≠ 7 ∧ tkSetting b ≠ 4 ∧ tkSetting b ≠ 9 then some (0x30, 0)
  else if !custodyPermits s (tkSetting b) then some (0x12, 0x0207)
  else if (badSigner s b).isSome then some (0x12, 0x0208)
  else if !cosigned b then some (0x13, 0)
  else if !tkFormat m || (formCheck n m).isSome then some (0x11, 0x0205)
  else if !chalLive s b then some (0x11, 0x0201)
  else if leAt b 44 2 ≠ s.aon.trayId ∨ leAt b 46 1 ≠ s.aon.slot.val then some (0x11, 0x0202)
  else if !baseFresh s b then some (0x11, 0x0203)
  else if !payloadOk b then some (0x11, 0x0204)
  else if !constraintOk s b then some (0x11, 0x0206)
  else if ticketBusy s b then some (0x02, 0x0209)
  else (ticketStuck s b).map fun d => (0x20, d)

/-- R180: a challenge is consumed. -/
def consume (id : Nat) (s : State) : State :=
  { s with prot := { s.prot with challenges := s.prot.challenges.filter fun c => c.id ≠ id } }

/-- R181: the record of an accepted ticket. -/
def ticketRecord (b : List Byte) (s : State) : State :=
  let d := [tkSetting b, tkChal b, tkSigners b]
  match tkSetting b with
  | 0x04 | 0x05 | 0x06 | 0x08 => logSec 0x0201 0x00 0 d s
  | _ => logInfo 0x0201 0x00 0 d s

/-- What a refused ticket leaves behind: a failed signature consumes the challenge and is recorded (R179, R180), and so is
an exhausted counter (R189). -/
def ticketRefused (b : List Byte) (detail : Nat) (s : State) : State :=
  match detail with
  | 0x0208 => consume (tkChal b) (logSec 0x0202 0x00 0 [tkChal b, tkSetting b, (badSigner s b).getD 0] s)
  | 0x020B => logSec 0x0205 0x00 0 [if tkSetting b = 8 then 1 else payB b 0] s
  | _ => s

/-- R181: TICKET_SUBMIT of mailbox `n` for a setting: the checks, the commit point, the record and the response. -/
def ticket (setting n : Nat) (apply : List Byte → State → State) (s : State) : State :=
  let m := s.box n
  if m.job = some 0x0202 ∧ tkSetting m.input = setting then
    let s1 := setBox n { m with job := none } s
    match ticketStatus s n m with
    | some (st, d) => replyFail n st d (ticketRefused m.input d s1)
    | none => replyDone n [] [] (ticketRecord m.input (consume (tkChal m.input) (apply m.input s1)))
  else s

/-- A ticket whose SETTING names none of Table TP-3: it is checked like any other and fails check 5 at the latest. -/
def ticketUnknown (n : Nat) (s : State) : State :=
  let m := s.box n
  let s1 := setBox n { m with job := none } s
  match ticketStatus s n m with
  | some (st, d) => replyFail n st d (ticketRefused m.input d s1)
  | none => replyFail n 0x11 0x0205 s1

/-! ## What each ticket applies -/

/-- R186: one partition entry. -/
def applyPartition (b : List Byte) (s : State) : State :=
  let p := payB b 0
  partitionChanged p (s.part p).kind (tkPart b).kind { s with prot := { s.prot with parts := Tab.put {} s.prot.parts p (tkPart b) } }

/-- VAULT_POLICY. -/
def applyVaultPolicy (b : List Byte) (s : State) : State :=
  let y := tkPayload b
  { s with prot := { s.prot with vault :=
      { parts := BitVec.ofNat 64 (leAt y 0 8), escrow := ((List.range 4).map fun i => leAt y (8 + 2 * i) 2).filter (· ≠ 0),
        life := leAt y 16 4 } } }

/-- SEALED_POLICY. -/
def applySealedPolicy (b : List Byte) (s : State) : State :=
  let y := tkPayload b
  { s with prot := { s.prot with sealedP :=
      { parts := BitVec.ofNat 64 (leAt y 0 8), holder := (y.drop 8).take 97, maxDegree := leAt y 105 1, maxLimbs := leAt y 106 1 } } }

/-- R185: a new debug level, with a DEBUG_LEVEL record when it changes. Below level 3 the cores run again (log 139). -/
def setDebug (level : Nat) (ends : Option Nat) (s : State) : State :=
  let t := { s with
    prot := { s.prot with debugLevel := level, debugEnd := ends }
    pins := { s.pins with coreHalt := s.pins.coreHalt && decide (3 ≤ level) } }
  if level = s.prot.debugLevel then t else logSec 0x0204 0x00 0 [level] t

/-- DEBUG_UNLOCK for its LIFETIME. -/
def applyDebugUnlock (b : List Byte) (s : State) : State := setDebug (payB b 0) (some (s.now + tkLife b * 1000000000)) s

/-- EXPERT_GRANT: the life of each path named. -/
def applyExpertGrant (b : List Byte) (s : State) : State :=
  let t := some (s.now + tkLife b * 1000000000)
  { s with aon := { s.aon with
      grantHost := if payB b 0 % 2 = 1 then t else s.aon.grantHost
      grantOob := if payB b 0 / 2 % 2 = 1 then t else s.aon.grantOob } }

/-- R190: the pending record of a counter. -/
def applyRollback (b : List Byte) (s : State) : State :=
  { s with prot := { s.prot with run := some { counter := ⟨payB b 0 % 8, Nat.mod_lt _ (by decide)⟩, target := tkTarget b } } }

/-- R187: the new exclusion map; in PH_JOIN and in doldrums mode it acts at once. -/
def applyExclusion (b : List Byte) (s : State) : State :=
  let map := BitVec.ofNat 8 (payB b 0)
  let ex := map.getLsbD s.aon.slot.val
  let s1 := { s with store := { s.store with exclMap := map }, aon := { s.aon with excluded := ex } }
  match s.aon.phase with
  | .doldrums => { s1 with pins := { s1.pins with doneDrv := !ex } }
  | .join => if ex then sendJoins (enterPhase .excluded (phaseExit 0 (leaveHold s1))) else joinRecheck s1
  | .excluded => if ex then s1 else joinRecheck (doneWatch (enterPhase .join s1))
  | _ => s1

/-- R175, R190: two new custody keys, valid when KEYGEN reaches its target. -/
def applyCustodyKeys (b : List Byte) (s : State) : State :=
  let g := s.prot.counters[1] + 1
  let hc := (tkPayload b).take 97
  let ts := (tkPayload b).drop 97
  let k : Custody := { hc := hc, ts := ts, gen := g, mac := Config.dieMac (custodyBytes hc ts g) }
  { s with prot := { s.prot with run := some { counter := 1, target := g, keys := some k } } }

/-- R183: REVOKE ends a grant path or returns debug unlock to level 0. -/
def applyRevoke (b : List Byte) (s : State) : State :=
  let x := payB b 0
  let s1 := { s with aon := { s.aon with
    grantHost := if x % 2 = 1 then none else s.aon.grantHost
    grantOob := if x / 2 % 2 = 1 then none else s.aon.grantOob } }
  if x / 4 % 2 = 1 then setDebug 0 none s1 else s1

/-- A PARTITION ticket. -/
def execTicketPartition (n : Fin 16) (s : State) : Result := .next (ticket 1 n.val applyPartition s)
/-- A VAULT_POLICY ticket. -/
def execTicketVaultPolicy (n : Fin 16) (s : State) : Result := .next (ticket 2 n.val applyVaultPolicy s)
/-- A SEALED_POLICY ticket. -/
def execTicketSealedPolicy (n : Fin 16) (s : State) : Result := .next (ticket 3 n.val applySealedPolicy s)
/-- A DEBUG_UNLOCK ticket. -/
def execTicketDebugUnlock (n : Fin 16) (s : State) : Result := .next (ticket 4 n.val applyDebugUnlock s)
/-- An EXPERT_GRANT ticket. -/
def execTicketExpertGrant (n : Fin 16) (s : State) : Result := .next (ticket 5 n.val applyExpertGrant s)
/-- A ROLLBACK ticket. -/
def execTicketRollback (n : Fin 16) (s : State) : Result := .next (ticket 6 n.val applyRollback s)
/-- An EXCLUSION ticket. -/
def execTicketExclusion (n : Fin 16) (s : State) : Result := .next (ticket 7 n.val applyExclusion s)
/-- A CUSTODY_KEYS ticket. -/
def execTicketCustodyKeys (n : Fin 16) (s : State) : Result := .next (ticket 8 n.val applyCustodyKeys s)
/-- A REVOKE ticket. -/
def execTicketRevoke (n : Fin 16) (s : State) : Result := .next (ticket 9 n.val applyRevoke s)

/-! ## Fuses and lapses (R184, R188, R190) -/

/-- R190: one fuse is blown and verified; after a third failed verification it is skipped and counts as passed. At the
target the pending record is cleared and stored keys become valid. -/
def execFuseBlowDone (verified : Bool) (s : State) : Result :=
  .next (match s.prot.run with
    | none => s
    | some r =>
      if verified || 2 ≤ r.tries then
        let v := s.prot.counters[r.counter] + 1
        let p := { s.prot with counters := s.prot.counters.set r.counter v }
        if r.target ≤ v then { s with prot := { p with run := none, custody := if r.keys.isSome then r.keys else p.custody } }
        else { s with prot := { p with run := some { r with tries := 0 } } }
      else { s with prot := { s.prot with run := some { r with tries := r.tries + 1 } } })

/-- R184: a grant or unlock reaches the end of its lifetime. -/
def execGrantLapse (which : GrantKind) (s : State) : Result :=
  .next (match which with
    | .expertHost => if s.aon.grantHost.isSome then logInfo 0x0203 0x00 0 [1] { s with aon := { s.aon with grantHost := none } } else s
    | .expertOob => if s.aon.grantOob.isSome then logInfo 0x0203 0x00 0 [2] { s with aon := { s.aon with grantOob := none } } else s
    | .debugUnlock => if s.prot.debugEnd.isSome then logInfo 0x0203 0x00 0 [4] (setDebug 0 none s) else s)

/-! ## Status and attestation (R192 to R195) -/

/-- A 64-bit value as two result words. -/
def two32 (x : Nat) : List Nat := [x % 2 ^ 32, x / 2 ^ 32 % 2 ^ 32]

/-- PARTITION_GET: the entry in DATA, its BASE in RES0 and RES1. -/
def execPartitionGet (n : Fin 16) (s : State) : Result :=
  .next (command 0x0203 n.val (fun _ m => { badArg := failIf (64 ≤ m.arg 0) 0 })
    (fun s m => replyDone n.val (two32 (baseOf s 1 (m.arg 0)).toNat)
      (encodePart (if m.arg 0 = 0 then systemPart s else s.part (m.arg 0))) s) s)

/-- The number of a custody state. -/
def CustodySt.code : CustodySt → Nat
  | .unowned => 0 | .owned => 1 | .orphaned => 2

/-- GRANT_STATUS. -/
def execGrantStatus (n : Fin 16) (s : State) : Result :=
  .next (command 0x0204 n.val noChecks
    (fun s _ => replyDone n.val ([(custodySt s).code, (aonGrant s).toNat, s.prot.debugLevel, secondsLeft s.now s.prot.debugEnd]
      ++ two32 (baseOf s 5 0).toNat ++ two32 (baseOf s 4 0).toNat) [] s) s)

/-- ROLLBACK_STATUS: the counters and the pending target with bit 31; the BASE of ROLLBACK in DATA (log 13). -/
def execRollbackStatus (n : Fin 16) (s : State) : Result :=
  .next (command 0x0207 n.val noChecks
    (fun s _ => replyDone n.val (s.prot.counters.toList ++ [s.prot.run.elim 0 fun r => 2 ^ 31 + r.target])
      (leBytes 8 (baseOf s 6 0).toNat) s) s)

/-- Windsock runs a firmware image: from PH_TRAIN on. -/
def fwRuns (s : State) : Bool := s.aon.ready && !s.aon.monitor
/-- What measurement block `i` covers, as bytes; none where the block has no value (Table TP-10). How the values of blocks 4 to 8 and 11
are laid out for the hash is the model's (log 17). -/
def measuredBytes (s : State) (i : Nat) : Option (List Byte) :=
  match i with
  | 1 | 2 => some (Config.romBytes i)
  | 4 => if fwRuns s then some (leBytes 2 s.prot.fwSvn ++ leBytes 1 (b2n s.aon.fwSlot)) else none
  | 5 => some ((List.range 64).flatMap (settingBytes s 1) ++ settingBytes s 2 0 ++ settingBytes s 3 0 ++ settingBytes s 7 0)
  | 6 => if s.prot.custody.isSome then some (settingBytes s 8 0) else none
  | 7 => some (settingBytes s 9 0)
  | 8 => some (settingBytes s 6 0)
  | 11 => some (leBytes 16 s.store.harvestCl.toNat ++ leBytes 16 s.store.harvestRt.toNat
      ++ (s.store.laneAsm ++ s.store.laneLearned.map Prod.fst).flatMap fun e => leBytes 1 e.1 ++ leBytes 1 e.2.1 ++ leBytes 1 e.2.2)
  | _ => none
/-- Measurement block `i` (R194): a digest, or 48 zero bytes. -/
def measureBlock (s : State) (i : Nat) : BitVec 384 :=
  match i with
  | 3 => s.prot.fwMeasure
  | 9 => s.vane.measure
  | 10 => tileMeasure s
  | 12 => s.net.image.elim 0 fun x => x.digest
  | k => (measuredBytes s k).elim 0 Config.sha384

/-- The blocks as numbers. -/
def measureBlocks (s : State) : List Nat := (List.range 12).map fun i => (measureBlock s (i + 1)).toNat

/-- MEASURE_GET: ARG0 an index, or 0 for all; the blocks unsigned. -/
def execMeasureGet (n : Fin 16) (s : State) : Result :=
  .next (command 0x0206 n.val (fun _ m => { badArg := failIf (12 < m.arg 0) 0 })
    (fun s m => replyDone n.val []
      (if m.arg 0 = 0 then (measureBlocks s).flatMap (leBytes 48) else leBytes 48 (measureBlock s (m.arg 0)).toNat) s) s)

/-- R195: a request of ATTEST_SPDM comes inline in DATA. -/
def attestForm (n : Nat) (m : Mbx) : Option Nat := firstFail [formCheck n m, failIf (!m.inInline) 0]
/-- R192: ATTEST_SPDM carries one request; its response comes from the device identity key, the measurement blocks and the exchange so
far. -/
def spdm (code n : Nat) (s : State) : State :=
  let m := s.box n
  if m.job = some 0x0205 ∧ spdmCode m.input = code then
    let s1 := setBox n { m with job := none } s
    match attestForm n m with
    | some d => replyFail n 0x11 d s1
    | none =>
      let a := spdmAnswer (s.prot.idKey.getD []) (leBytes 32 (Config.spdmNonce s.freeCtr).toNat) (measureBlocks s) s.prot.spdm m.input
      replyDone n [] a.reply { s1 with prot := { s1.prot with spdm := a.conn }, freeCtr := s1.freeCtr + 1 }
  else s

/-- GET_VERSION. -/
def execGetVersion (n : Fin 16) (s : State) : Result := .next (spdm 0x84 n.val s)
/-- GET_CAPABILITIES. -/
def execGetCapabilities (n : Fin 16) (s : State) : Result := .next (spdm 0xE1 n.val s)
/-- NEGOTIATE_ALGORITHMS. -/
def execNegotiateAlgorithms (n : Fin 16) (s : State) : Result := .next (spdm 0xE3 n.val s)
/-- GET_DIGESTS. -/
def execGetDigests (n : Fin 16) (s : State) : Result := .next (spdm 0x81 n.val s)
/-- GET_CERTIFICATE. -/
def execGetCertificate (n : Fin 16) (s : State) : Result := .next (spdm 0x82 n.val s)
/-- CHALLENGE. -/
def execChallenge (n : Fin 16) (s : State) : Result := .next (spdm 0x83 n.val s)
/-- GET_MEASUREMENTS. -/
def execGetMeasurements (n : Fin 16) (s : State) : Result := .next (spdm 0xE0 n.val s)

end Sys2Proof.Machine
end

