-- ==== Sys2Proof/Machine/Mailbox.lean ====
section
/-!
DEFINITION. The mailbox hardware and the service of commands (spec/06_windsock_mailbox.md).
-/
namespace Sys2Proof.Machine

/-- R143, R145: the host path reaches mailboxes 0 to 13 with its writes, the out-of-band path 14 and 15. -/
def pathReach (p : Path) (n : Nat) : Bool :=
  match p with
  | .host => n < 14
  | .oob => 14 ≤ n

/-- A lease is held and its holder may act on it. -/
def held (m : Mbx) : Bool := m.st ≠ .free && m.st ≠ .reclaiming

/-- R147: the next token: 0x0001 to 0xFFFF, never 0x0000. -/
def nextToken (t : BitVec 16) : BitVec 16 := if t = 0xFFFF then 1 else t + 1

/-- R147, R148: a claim with an owner grants the lease of a FREE mailbox and is discarded otherwise. -/
def claimBox (path : Path) (n : Fin 16) (val : Word) (s : State) : State :=
  let m := s.box n.val
  let owner : BitVec 16 := val.setWidth 16
  if s.released ∧ pathReach path n.val ∧ m.st = .free ∧ owner ≠ 0 then
    setBox n.val { m with st := .idle, owner := owner, token := nextToken m.tokCtr, tokCtr := nextToken m.tokCtr,
                          renewed := s.now, ack := 0 } s
  else s
/-- A write of MBX_CLAIM. -/
def execMbxClaim (path : Path) (n : Fin 16) (val : Word) (s : State) : Result := .next (claimBox path n val s)

/-- R149: a heartbeat with the current token renews the lease. -/
def renewBox (path : Path) (n : Fin 16) (val : Word) (s : State) : State :=
  let m := s.box n.val
  if s.released ∧ pathReach path n.val ∧ held m ∧ val.setWidth 16 = m.token then
    setBox n.val { m with renewed := s.now } s
  else s
/-- A write of MBX_HB. -/
def execMbxHb (path : Path) (n : Fin 16) (val : Word) (s : State) : Result := .next (renewBox path n val s)

/-- R150: a release with the current token ends the lease. -/
def releaseBox (path : Path) (n : Fin 16) (val : Word) (s : State) : State :=
  let m := s.box n.val
  if s.released ∧ pathReach path n.val ∧ held m ∧ val.setWidth 16 = m.token then endLease n.val s else s
/-- A write of MBX_RELEASE. -/
def execMbxRelease (path : Path) (n : Fin 16) (val : Word) (s : State) : Result := .next (releaseBox path n val s)

/-- R149, R150: a lease expires, with its MBX_LEASE_EXPIRED record. -/
def execLeaseExpiry (n : Fin 16) (s : State) : Result :=
  let m := s.box n.val
  .next (if held m then endLease n.val (logInfo 0x0120 0x0B n.val [n.val, m.owner.toNat, m.st.code] s) else s)

/-- A mailbox joins the queue of its class (R158). -/
def enqueue (n : Nat) (c : DClass) (s : State) : State :=
  match c with
  | .q => { s with mbx := { s.mbx with qQ := s.mbx.qQ ++ [n] } }
  | .s => { s with mbx := { s.mbx with qS := s.mbx.qS ++ [n] } }
  | .l => { s with mbx := { s.mbx with qL := s.mbx.qL ++ [n] } }

/-- The opcode that stands in CMD. -/
def cmdOpcode (m : Mbx) : Nat := (Tab.get 0 m.cmd 0).toNat % 65536

/-- R155, R156: a doorbell is acknowledged NOT_READY, REFUSED or QUEUED, the first that applies; QUEUED locks the command,
clears RSP, renews the lease and starts the deadline timer. -/
def ringBell (path : Path) (n : Fin 16) (val : Word) (s : State) : State :=
  let m := s.box n.val
  if !s.released || !pathReach path n.val then s
  else if !s.aon.ready then setBox n.val { m with ack := 3 } s
  else if val.setWidth 16 ≠ m.token ∨ m.st ≠ .idle then setBox n.val { m with ack := 2 } s
  else enqueue n.val (classOf (cmdOpcode m))
    (setBox n.val { m with st := .queued, ack := 1, rsp := [], renewed := s.now, queuedAt := s.now, taken := m.cmd,
                           outbox := [], await := none, job := none, input := [], xferFail := false } s)
/-- A write of DBL_MBXn. -/
def execDblMbx (path : Path) (n : Fin 16) (val : Word) (s : State) : Result := .next (ringBell path n val s)

/-! ## Taking a command (R144, R158, R164 to R166) -/

/-- The queue of a class. -/
def queueOf (c : DClass) (s : State) : List Nat :=
  match c with
  | .q => s.mbx.qQ | .s => s.mbx.qS | .l => s.mbx.qL

/-- Sub-operations that no row of the table names: they fail with BAD_ARG once the command is taken. -/
def subOpBad (m : Mbx) : Bool :=
  match m.opcode % 32768 with
  | 0x0304 => 2 < m.arg 0
  | 0x0502 => 3 < m.arg 0
  | 0x0602 => 2 < m.arg 0
  | 0x0607 => 2 < m.arg 0
  | _ => false

/-- R16: what refuses such a command before its argument does: a mailbox whose partition is not of the kind that the opcode needs. -/
def subOpKind (s : State) (n : Nat) (m : Mbx) : Option Nat :=
  match m.opcode % 32768 with
  | 0x0602 => needSealed s n
  | 0x0607 => needVault s n
  | _ => none

/-- R166: in doldrums mode only the subset is served: PIN_SET_FUNCTION not for a function held in reset, a ticket as its
checks say. -/
def doldrumsRefuses (s : State) (m : Mbx) : Bool :=
  s.aon.phase = .doldrums &&
    match findOp m.opcode with
    | none => true
    | some r => (m.exp && !r.exp) ||
      match r.scope with
      | .d => false
      | .none => true
      | .some =>
        if r.op = 0x0A02 then
          match pinArg m with
          | none => false
          | some p => funcArg m ≠ 0 && (pinSig p.val (funcArg m)).elim false (sigHeld s)
        else false

/-- R166: the opcode is unknown, or its expert form does not exist. -/
def badOpcode (m : Mbx) : Bool := (findOp m.opcode).elim true fun r => m.exp && !r.exp

/-- R164: an expert form without the grant of its path. -/
def expertDenied (s : State) (n : Nat) (m : Mbx) : Bool :=
  m.exp && (if 14 ≤ n then s.aon.grantOob.isNone else s.aon.grantHost.isNone)

/-- R144, R172: the area lies outside the rights of the mailbox's partition. -/
def areaDenied (s : State) (n : Nat) (m : Mbx) : Bool := !areaAllowed s (mbxPart s n) (m.opcode % 32768 / 256)

/-- The input of a command: inline bytes, or those fetched from host memory. -/
def inputOf (m : Mbx) (fetched : Option (List Byte)) : List Byte :=
  if m.inInline then m.dataBytes (min m.dataLen 3840) else if m.inHost then (fetched.getD []).take m.dataLen else []

/-- Firmware decodes a command that it has taken (R16, R164 to R166): a command refused here gets its final response at
once; any other becomes the job of the mailbox. -/
def decodeCommand (n : Nat) (s : State) : State :=
  let m := s.box n
  if doldrumsRefuses s m then replyFail n 0x30 0 s
  else if badOpcode m then replyFail n 0x10 0 s
  else if expertDenied s n m then
    replyFail n 0x12 0 (logLimited 1000000000 .sec 0x0124 0x0B n [n, m.opcode] .none s)
  else if areaDenied s n m then replyFail n 0x12 0 s
  else if m.opcode = 0x0202 ∧ (tkSetting m.input = 0 ∨ 9 < tkSetting m.input) then ticketUnknown n (setBox n { m with job := some m.opcode } s)
  else if m.opcode = 0x0205 ∧ spdmCode m.input ∉ spdmRequests then
    match attestForm n m with
    | some d => replyFail n 0x11 d s
    | none => replyDone n [] (spdmUnsupported m.input) s
  else if subOpBad m then
    match subOpKind s n m with
    | some d => replyFail n 0x12 d s
    | none => replyFail n 0x11 0 s
  else setBox n { m with job := some m.opcode } s

/-- R158: firmware takes the next queued command of a class. `fetched` is what the fetch engine brought from host memory for
an IN_HOST command, none when the transfer failed (R152); no host transfer succeeds while requests to the host may not be sent (R470). -/
def execCommandTake (cls : DClass) (fetched : Option (List Byte)) (s : State) : Result :=
  .next (if !s.aon.ready || s.pins.coreHalt then s else
    match queueOf cls s with
    | [] => s
    | n :: _ =>
      let s1 := unqueue n s
      let m := s1.box n
      decodeCommand n (setBox n { m with
        st := if m.st = .queued then .running else m.st
        input := inputOf m fetched
        xferFail := (m.inHost && (fetched.elim true fun l => l.length ≠ m.dataLen)) || ((m.inHost || m.outHost) && !s.hostReady) } s1))

/-! ## Ending a command (R150, R153, R160) -/

/-- R152: output bytes that do not reach host memory turn the response into BAD_ARG HOST_XFER. -/
def Reply.afterXfer (r : Reply) (m : Mbx) (ok : Bool) : Reply :=
  if m.outHost && (!r.data.isEmpty && !ok) then { status := 0x11, detail := 1 } else r
/-- R153, R150, R160: firmware posts the next response of a mailbox. In a RECLAIMING mailbox it is discarded, and the final
one frees the mailbox with MBX_ORPHAN_DONE; after a hardware TIMEOUT it is discarded, and the final one makes the mailbox
IDLE with MBX_LATE. `post.xferOk` says whether the fetch engine's writes to host memory completed; none does while requests to the host
may not be sent (R470). Halted cores post nothing (R185). -/
def execResponsePost (post : PostEnd) (s : State) : Result :=
  let n := post.n.val
  let m := s.box n
  .next (if s.pins.coreHalt then s else match m.outbox with
    | [] => s
    | r0 :: rest =>
      let r := r0.afterXfer m (post.xferOk && s.hostReady)
      let s1 := setBox n { m with outbox := rest } s
      match m.st with
      | .running | .accepted => postResponse n r false s1
      | .late =>
        if r.status = 1 then s1
        else logInfo 0x0123 0x0B n [n, r.status] (setBox n { m with outbox := rest, st := .idle } s)
      | .reclaiming =>
        if r.status = 1 then s1
        else setBox n m.cleared (logInfo 0x0121 0x0B n [n, m.owner.toNat, m.opcode, m.seqNo, r.status] s1)
      | .free | .idle | .queued => s1)

/-- R160: a deadline passes: the hardware posts TIMEOUT, and the mailbox is LATE until firmware ends the command. -/
def execDeadlineExpiry (n : Fin 16) (s : State) : Result :=
  let m := s.box n.val
  .next (match m.st with
    | .queued | .running | .accepted =>
      let s1 := postResponse n.val { status := 0x21 } true s
      logUe .operation 0x0122 0x0B n.val [n.val, m.opcode, m.seqNo]
        (setBox n.val { s1.box n.val with st := .late } s1)
    | _ => s)

/-! ## MBX_ECHO and IF_INFO (R167) -/

/-- MBX_ECHO: ARG0 to ARG9 as RES0 to RES9. -/
def execMbxEcho (n : Fin 16) (s : State) : Result :=
  .next (command 0x0106 n.val noChecks (fun s m => replyDone n.val ((List.range 10).map m.arg) [] s) s)

/-- The bitmap of the opcodes of one area: bit c for command number c, 32 bytes. -/
def areaBitmap (a : Nat) : List Byte :=
  leBytes 32 ((catalogue.filter fun r => r.op / 256 = a).foldl (fun x r => x + 2 ^ (r.op % 256)) 0)

/-- IF_INFO: the interface version in RES0 and, in DATA, the bitmaps of areas 0x01 to 0x0B (log 13). -/
def execIfInfo (n : Fin 16) (s : State) : Result :=
  .next (command 0x0107 n.val noChecks
    (fun s _ => replyDone n.val [0x0302] ((List.range 11).flatMap fun a => areaBitmap (a + 1)) s) s)

end Sys2Proof.Machine
end

