-- ==== Sys2Proof/Machine/Thermal.lean ====
section
/-!
DEFINITION. The thermal guard: comparators, pause levels, HALT, the RESUME restart, conversions (spec/18_thermal.md).
-/
namespace Sys2Proof.Machine

/-- R482, Table TH-1: the pause target of a sensor: 0 to 3 the tiles, 4 the MEE groups, 5 the whole stack (code 6). -/
def targetOf (sn : Fin 48) : Fin 6 :=
  if h : sn.val < 16 then ⟨sn.val / 4, by omega⟩
  else if sn.val < 32 then 4
  else if sn.val < 40 then 5
  else ⟨(sn.val - 40) / 2, by omega⟩

/-- Some sensor of a target asserts WARN; a faulted sensor counts as asserting (R484). -/
def targetWarn (t : Therm) (g : Fin 6) : Bool :=
  (List.finRange 48).any fun sn => targetOf sn = g && (t.warn.getLsbD sn.val || t.faulted.getLsbD sn.val)

/-- Change one target. -/
def modTarget (g : Fin 6) (f : ThermTarget → ThermTarget) (t : Therm) : Therm := { t with targets := t.targets.set g (f t.targets[g]) }

/-- R488: a first assertion on a target: level 1 at once when it was 0, and a TH_WARN record at most every 10 s. -/
def warnRise (sn : Fin 48) (s : State) : State :=
  let g := targetOf sn
  if s.therm.targets[g].level = 0 then
    logLimited 10000000000 .info 0x0902 0x10 (256 + g.val) [sn.val] .none
      { s with therm := modTarget g (fun x => { x with level := 1, risen := true }) s.therm }
  else s

/-- R488: a sensor asserts WARN. -/
def execThWarnAssert (sensor : Fin 48) (s : State) : Result :=
  .next (warnRise sensor { s with therm := { s.therm with warn := setBit s.therm.warn sensor.val true } })

/-- R488: a sensor releases WARN; the fall of its target begins when no sensor asserts. -/
def execThWarnRelease (sensor : Fin 48) (s : State) : Result :=
  .next { s with therm := { s.therm with warn := setBit s.therm.warn sensor.val false } }

/-- R488: a tick of a target: 1 ms while a sensor asserts WARN (the level rises to at most 7), 10 ms otherwise (it falls);
the return to 0 after a rise is recorded once. -/
def execThermalLevelTick (target : Fin 6) (s : State) : Result :=
  let x := s.therm.targets[target]
  .next
    (if targetWarn s.therm target then
      { s with therm := modTarget target (fun y => { y with level := if y.level = 7 then 7 else y.level + 1, risen := true }) s.therm }
     else if x.level = 0 then s
     else if x.level = 1 then
      let s1 := { s with therm := modTarget target (fun _ => {}) s.therm }
      if x.risen then logInfo 0x0906 0x10 target.val [target.val] s1 else s1
     else { s with therm := modTarget target (fun y => { y with level := y.level - 1 }) s.therm })

/-- R489, R490: HALT trips: every regulator goes off, the package loses its die state and its mailboxes act as at a takeover,
the sequencer goes to the warden core without a record, the power-down sequence runs, and the start holds with THERMAL_HALT. -/
def haltTrip (sn : Fin 48) (s : State) : State :=
  let s0 := logRec .fatal 0x0901 0x10 sn.val [sn.val] .package s
  let s1 := mailboxTakeover (resetCause 3 s0)
  let s2 := powerDown (dieLost { s1 with pwr := { s1.pwr with down := none } })
  let s3 := { s2 with
    aon := { s2.aon with owner := .warden, lease := none, takeover := false, monitor := false, cores := 0, roster := 0, wskDown := false,
                         phase := if s2.aon.phase = .doldrums ∨ s2.aon.phase = .excluded then .power else s2.aon.phase }
    pins := { s2.pins with cxl0Perst := false, cxl1Perst := false }
    start := { s2.start with wardenAt := none }
    pwr := { s2.pwr with frames := s2.pwr.frames.filter fun f => f.kind ≠ .setpoint }
    therm := { s2.therm with
      halt := true, conv := none, convWait := []
      haltCnt := min 65535 (s2.therm.haltCnt + 1)
      halts := (({ tripTs := s.now, sensor := sn.val } : HaltRec) :: s2.therm.halts).take 8
      resumeSince := if (s2.therm.hot &&& ~~~ s2.therm.faulted) = 0 then some s.now else none } }
  enterHold 0x06 s3

/-- R489, R490: a sensor that is not faulted asserts HALT. While a reset is in force the trip is latched only. -/
def execThHalt (sensor : Fin 48) (s : State) : Result :=
  .next
    (if s.therm.faulted.getLsbD sensor.val || !s.pins.pwrOk || s.therm.halt then s
     else if s.released then haltTrip sensor s
     else logRec .fatal 0x0901 0x10 sensor.val [sensor.val] .package
       { resetCause 3 s with therm := { s.therm with
           halt := true, haltCnt := min 65535 (s.therm.haltCnt + 1)
           halts := (({ tripTs := s.now, sensor := sensor.val } : HaltRec) :: s.therm.halts).take 8
           resumeSince := if (s.therm.hot &&& ~~~ s.therm.faulted) = 0 then some s.now else none } })

/-- R491: the RESUME timer runs while every sensor that is not faulted reads below 80 °C, and restarts from 0 otherwise. -/
def resumeTimer (now : Nat) (t : Therm) : Therm :=
  { t with resumeSince := if t.halt && (t.hot &&& ~~~ t.faulted) = 0 then some (t.resumeSince.getD now) else none }
/-- R491: a sensor crosses 80 °C. -/
def execResumeChange (sensor : Fin 48) (below80 : Bool) (s : State) : Result :=
  .next { s with therm := resumeTimer s.now { s.therm with hot := setBit s.therm.hot sensor.val (!below80) } }

/-- R491, R484: the timer reaches 10 s: the latch clears, what HALT left powered is acted on as by a warden reset, and a new
start begins. RSTCAUSE keeps the HALT cause and its COUNT. With more than 8 faulted sensors RESUME never acts. -/
def execThResume (s : State) : Result :=
  .next (if s.therm.halt && s.therm.resumeSince.isSome && popcount s.therm.faulted ≤ 8 then
      let s1 := { s with therm := { s.therm with
        halt := false, resumeSince := none
        halts := match s.therm.halts with
          | h :: t => { h with restartTs := s.now } :: t
          | [] => [] } }
      let s2 := packageReset 3 s1
      let s3 := { s2 with aon := { s2.aon with cause := s.aon.cause, resets := s.aon.resets } }
      startIfReleased (logInfo 0x0903 0x00 0 [] s3)
    else s)

/-- R484: a sensor is faulted until the next cold start; it counts as WARN for its target. -/
def sensorFault (sn : Fin 48) (s : State) : State :=
  if s.therm.faulted.getLsbD sn.val then s
  else warnRise sn (logUe .unit 0x0905 0x10 sn.val [sn.val]
    { s with therm := resumeTimer s.now { s.therm with faulted := setBit s.therm.faulted sn.val true } })

/-- A sensor fails its reference check. -/
def execThSensorFault (sensor : Fin 48) (s : State) : Result := .next (if s.pins.pwrOk then sensorFault sensor s else s)

/-! ## Conversions (R485, R486, R493, R496) -/

/-- R485: a conversion starts on an idle converter. -/
def startConv (mask : BitVec 48) (who : ConvBy) (s : State) : State := { s with therm := { s.therm with conv := some (mask, who) } }

/-- R486: a write to THS_CTRL: START needs the EXPERT grant and is ignored during a conversion; the block is absent in
doldrums mode and during HALT shutdown (R12). -/
def writeThsCtrl (path : Path) (val : Word) (s : State) : State :=
  if path = .oob || !s.released then s
  else if s.blockDown .ths then noteOffline s
  else if s.aon.grantHost.isNone then noteDeny s
  else if bit val 0 && s.therm.conv.isNone then startConv s.therm.mask .direct s
  else s
/-- A write of THS_CTRL. -/
def execThsStart (path : Path) (val : Word) (s : State) : Result := .next (writeThsCtrl path val s)

/-- The signed value of a reading, in units of 0.25 °C. -/
def tempOf (x : BitVec 16) : Int := x.toInt

/-- R484: a reading below -55 °C or above 150 °C. -/
def outOfRange (x : BitVec 16) : Bool := tempOf x < -220 || 600 < tempOf x

/-- R485: the maximum over the usable sensors of a mask and the lowest sensor that gave it. -/
def convMax (mask : BitVec 48) (temps : Vector (BitVec 16) 48) : Option (Fin 48) :=
  (List.finRange 48).foldl (fun b sn =>
    if mask.getLsbD sn.val then
      match b with
      | none => some sn
      | some c => if tempOf temps[c] < tempOf temps[sn] then some sn else b
    else b) none

/-- Mark the sensors whose reading is out of range. -/
def faultOutOfRange (mask : BitVec 48) (temps : Vector (BitVec 16) 48) : List (Fin 48) → State → State
  | [], s => s
  | sn :: t, s => faultOutOfRange mask temps t
      (if mask.getLsbD sn.val && outOfRange temps[sn] then sensorFault sn s else s)

/-- Store the readings of a conversion. -/
def storeTemps (mask : BitVec 48) (temps : Vector (BitVec 16) 48) : List (Fin 48) → Tab (BitVec 16) → Tab (BitVec 16)
  | [], t => t
  | sn :: l, t => storeTemps mask temps l (if mask.getLsbD sn.val then Tab.put 0 t sn.val temps[sn] else t)

/-- R493: the lower of the two readings of some stack that has a usable sensor lies below 0 °C. -/
def hbmCold (t : Therm) : Bool :=
  (List.range 8).any fun h =>
    [16 + 2 * h, 17 + 2 * h].any fun sn => !t.faulted.getLsbD sn && tempOf (Tab.get 0 t.temp sn) < 0

/-- The maps of 48 sensors as two result words. -/
def two48 (x : BitVec 48) : List Nat := [x.toNat % 2 ^ 32, x.toNat / 2 ^ 32]

/-- Table TH-4: the response of THERMAL_READ; NO_SENSOR when no sensor of the mask is usable. -/
def thermalReply (n : Nat) (mask : BitVec 48) (s : State) : State :=
  let t := s.therm
  if t.maxNone then replyFail n 0x11 0x0901 s
  else
    replyDone n ([t.maxTemp.toNat + 65536 * t.maxSensor] ++ [s.now % 2 ^ 32, s.now / 2 ^ 32] ++ two48 t.warn)
      (if (s.box n).exp && mask != 0 then (List.range 48).flatMap (fun i => leBytes 2 (Tab.get 0 t.temp i).toNat) ++ leBytes 6 t.faulted.toNat
       else []) s

/-- The next mailbox read that waits for the converter begins (R158, R485). -/
def nextConv (s : State) : State :=
  match s.therm.convWait with
  | [] => s
  | (n, m) :: t => startConv m (.mailbox n) { s with therm := { s.therm with convWait := t } }

/-- R485: a conversion ends: readings, maximum, faults; the asker gets its answer. -/
def execConversionDone (temps : Vector (BitVec 16) 48) (s : State) : Result :=
  .next (match s.therm.conv with
    | none => s
    | some (mask, who) =>
      let s1 := faultOutOfRange mask temps (List.finRange 48)
        { s with therm := { s.therm with conv := none, temp := storeTemps mask temps (List.finRange 48) s.therm.temp, valid := s.therm.valid ||| mask } }
      let usable := mask &&& ~~~ s1.therm.faulted
      let top := convMax usable temps
      let s2 := { s1 with therm := { s1.therm with
        maxValid := true, maxNone := top.isNone
        maxTemp := top.elim s1.therm.maxTemp fun sn => temps[sn]
        maxSensor := top.elim s1.therm.maxSensor Fin.val } }
      let s3 := match who with
        | .direct => s2
        | .mailbox n => thermalReply n mask (setBox n { s2.box n with await := none } s2)
        | .training =>
          if s2.aon.phase = .train ∧ s2.aon.startSt ≠ .failed then
            if hbmCold s2.therm then enterHold 0x02 s2 else leaveHold s2
          else s2
      nextConv s3)

/-- THERMAL_READ: it waits for a conversion in progress and then runs its own. -/
def execThermalRead (n : Fin 16) (s : State) : Result :=
  .next (command 0x0901 n.val
    (fun s m =>
      let mask := if m.exp then BitVec.ofNat 48 (m.arg64 0) else BitVec.allOnes 48
      { badArg := failIf ((mask &&& ~~~ s.therm.faulted) = 0 || (m.exp && 65536 ≤ m.arg 1)) 0x0901 })
    (fun s m =>
      let mask := if m.exp then BitVec.ofNat 48 (m.arg64 0) else BitVec.allOnes 48
      let s1 := setAwait n.val (.thermal mask) s
      if s.therm.conv.isSome then { s1 with therm := { s1.therm with convWait := s1.therm.convWait ++ [(n.val, mask)] } }
      else startConv mask (.mailbox n.val) s1) s)

/-- THS_LEVEL. -/
def thsLevel (s : State) : Word :=
  packFields [(s.thermLevel 0, 0), (s.thermLevel 1, 4), (s.thermLevel 2, 8), (s.thermLevel 3, 12), (s.thermLevel 4, 16), (s.thermLevel 5, 20)]

/-- THERMAL_STATUS: the maps, the levels, the HALT count; the last eight halts in DATA (log 13). -/
def execThermalStatus (n : Fin 16) (s : State) : Result :=
  .next (command 0x0902 n.val noChecks
    (fun s _ => replyDone n.val
      (two48 s.therm.warn ++ two48 s.therm.cold ++ two48 s.therm.faulted ++ [(thsLevel s).toNat, s.therm.haltCnt])
      (s.therm.halts.flatMap fun h => leBytes 8 h.tripTs ++ leBytes 8 h.sensor ++ leBytes 8 h.restartTs) s) s)

/-- R492, R493: every 1 s of COLD_HOLD the COLD comparators are checked again, and PH_POWER goes on with the bus scan once
none asserts; every 1 s of HBM_COLD firmware takes another conversion. -/
def execHoldRecheck (cold : BitVec 48) (s : State) : Result :=
  let s1 := { s with therm := { s.therm with cold := cold } }
  .next
    (if s.aon.startSt = .hold ∧ s.aon.reason = 0x01 ∧ s.released then
      if s1.coldSensor then s1 else pushFrames scanFrames (leaveHold s1)
     else if s.aon.startSt = .hold ∧ s.aon.reason = 0x02 ∧ s.released ∧ s.therm.conv = none then
      startConv 0x0000FFFF0000 .training s1
     else s1)

end Sys2Proof.Machine
end

