-- ==== Sys2Proof/Machine/Registers.lean ====
section
/-!
DEFINITION. The registers of BAR0 and BAR4: which address is which register, what each reads as, and what a write does
(spec/00_scope.md R6 to R12, spec/06_windsock_mailbox.md R141 to R146, R154, spec/02_board_and_pins.md R57,
spec/11_memory_and_ecc.md R309, spec/17_gust_links_and_host.md R472, R480, spec/18_thermal.md R486,
spec/19_faults_and_recovery.md R504).
-/
namespace Sys2Proof.Machine

/-- A register; `i` numbers the mailbox, pin, port, channel or ring, `w` a word in its area. -/
inductive RegName
  | aonId | aonIfver | aonStatus | aonBoard | aonClkstat | aonPwr | aonRstcause | aonStart | aonWsk | aonGrant | aonTimeLo
  | aonTimeHi | aonMbxsum
  | mbxCmd (i : Fin 16) (w : Nat) | mbxRsp (i : Fin 16) (w : Nat) | mbxLease (i : Fin 16) | mbxClaim (i : Fin 16)
  | mbxHb (i : Fin 16) | mbxRelease (i : Fin 16) | mbxState (i : Fin 16) | mbxPart (i : Fin 16) | mbxReserved (i : Fin 16)
  | mbxData (i : Fin 16) (w : Nat)
  | dblMbx (i : Fin 16) | dblIrqStatus | dblIrqMask | dblAcksum
  | eccwCtrl | eccwAddrLo | eccwAddrHi | eccwFlip (i : Fin 4) | eccwStatus
  | pmxPin (i : Fin 24) | pmxStatus | pmxParkmap
  | thsCtrl | thsMaskLo | thsMaskHi | thsMax | thsLevel | thsWarnLo | thsWarnHi | thsFaultLo | thsFaultHi | thsHaltcnt
  | thsSensor (i : Fin 48)
  | glkPort (i : Fin 12) (w : Fin 9) | glkHostLate | glkCxlLate (i : Fin 2) | glkBar2Deny | glkClear
  | evlStatus | evlNewest | evlCommitted | evlAck | evlRing (w : Nat)
  | dmaKick (i : Fin 64) | dmaHead (i : Fin 64) | ringSqtail (i : Fin 64) | ringCqhead (i : Fin 64) | ringCqprod (i : Fin 64)
  | ringSqhead (i : Fin 64) | msixTable (w : Nat) | msixPba (w : Nat)
  deriving DecidableEq, Repr

/-! ## Addresses -/

/-- An index below `n`, if it is one. -/
def idx? (n x : Nat) : Option (Fin n) := if h : x < n then some ⟨x, h⟩ else none

/-- Table WM-2. -/
def aonReg : Nat → Option RegName
  | 0x00 => some .aonId | 0x04 => some .aonIfver | 0x08 => some .aonStatus | 0x0C => some .aonBoard | 0x10 => some .aonClkstat
  | 0x14 => some .aonPwr | 0x18 => some .aonRstcause | 0x20 => some .aonStart | 0x24 => some .aonWsk | 0x28 => some .aonGrant
  | 0x30 => some .aonTimeLo | 0x34 => some .aonTimeHi | 0x38 => some .aonMbxsum | _ => none
/-- Table WM-4; the listed reserved words of a mailbox read 0 and are no reserved address (DEDUCED, log 38). -/
def mbxReg (a : Nat) : Option RegName :=
  let i : Fin 16 := ⟨a / 4096 % 16, Nat.mod_lt _ (by decide)⟩
  let o := a % 4096
  some (if o < 0x40 then .mbxCmd i (o / 4) else if o < 0x80 then .mbxRsp i ((o - 0x40) / 4)
    else if o = 0x80 then .mbxLease i else if o = 0x84 then .mbxClaim i else if o = 0x88 then .mbxHb i
    else if o = 0x8C then .mbxRelease i else if o = 0x90 then .mbxState i else if o = 0x94 then .mbxPart i
    else if o < 0x100 then .mbxReserved i else .mbxData i ((o - 0x100) / 4))
/-- Table WM-8. -/
def dblReg (o : Nat) : Option RegName :=
  if o < 0x40 then (idx? 16 (o / 4)).map .dblMbx
  else if o = 0x80 then some .dblIrqStatus else if o = 0x84 then some .dblIrqMask else if o = 0x88 then some .dblAcksum else none
/-- Table ME-7. -/
def eccwReg (o : Nat) : Option RegName :=
  if o = 0 then some .eccwCtrl else if o = 4 then some .eccwAddrLo else if o = 8 then some .eccwAddrHi
  else if o < 0x10 then none else if o < 0x20 then (idx? 4 ((o - 0x10) / 4)).map .eccwFlip
  else if o = 0x20 then some .eccwStatus else none
/-- Table BP-7. -/
def pmxReg (o : Nat) : Option RegName :=
  if o < 0x60 then (idx? 24 (o / 4)).map .pmxPin
  else if o = 0x80 then some .pmxStatus else if o = 0x84 then some .pmxParkmap else none
/-- Table TH-2. -/
def thsReg (o : Nat) : Option RegName :=
  match o with
  | 0x00 => some .thsCtrl | 0x04 => some .thsMaskLo | 0x08 => some .thsMaskHi | 0x0C => some .thsMax | 0x10 => some .thsLevel
  | 0x14 => some .thsWarnLo | 0x18 => some .thsWarnHi | 0x1C => some .thsFaultLo | 0x20 => some .thsFaultHi | 0x24 => some .thsHaltcnt
  | _ => if 0x100 ≤ o then (idx? 48 ((o - 0x100) / 4)).map .thsSensor else none
/-- Table GL-13. -/
def glkReg (o : Nat) : Option RegName :=
  if o < 0xC00 then
    match idx? 12 (o / 256), idx? 9 (o % 256 / 4) with
    | some k, some w => some (.glkPort k w)
    | _, _ => none
  else
    match o - 0xC00 with
    | 0x00 => some .glkHostLate | 0x04 => some (.glkCxlLate 0) | 0x08 => some (.glkCxlLate 1) | 0x0C => some .glkBar2Deny
    | 0x10 => some .glkClear | _ => none
/-- Table FR-4. -/
def evlReg (o : Nat) : Option RegName :=
  if o = 0 then some .evlStatus else if o = 4 then some .evlNewest else if o = 8 then some .evlCommitted
  else if o = 0xC then some .evlAck else if 0x1000 ≤ o && o < 0x21000 then some (.evlRing ((o - 0x1000) / 4)) else none
/-- The register at a word address of BAR0 (Table SC-5). -/
def bar0Reg (a : Nat) : Option RegName :=
  match blockOf a with
  | .aon => aonReg a | .mbx => mbxReg (a - 0x100000) | .dbl => dblReg (a - 0x200000) | .eccw => eccwReg (a - 0x300000)
  | .pmx => pmxReg (a - 0x310000) | .ths => thsReg (a - 0x320000) | .glk => glkReg (a - 0x330000) | .evl => evlReg (a - 0x400000)
  | .reserved => none
/-- The register at a word address of BAR4 (Table GL-10a). -/
def bar4Reg (a : Nat) : Option RegName :=
  if a < 0x40000 then
    match idx? 64 (a / 4096), a % 4096 with
    | some d, 0 => some (.dmaKick d) | some d, 4 => some (.dmaHead d) | _, _ => none
  else if a < 0x80000 then
    match idx? 64 (a / 4096 - 64), a % 4096 with
    | some r, 0 => some (.ringSqtail r) | some r, 4 => some (.ringCqhead r) | some r, 8 => some (.ringCqprod r)
    | some r, 12 => some (.ringSqhead r) | _, _ => none
  else if a < 0x88000 then some (.msixTable ((a - 0x80000) / 4))
  else if a < 0x88100 then some (.msixPba ((a - 0x88000) / 4)) else none
/-- The word that an offset lies in (R6). -/
def wordOf (off : BitVec 24) : Nat := off.toNat / 4 * 4
/-- The register of an access. -/
def regAt (bus : RegBus) (off : BitVec 24) : Option RegName :=
  match bus with
  | .bar4 => bar4Reg (wordOf off) | .bar0 | .oob => bar0Reg (wordOf off)
/-- The block that an access meets is held in reset or absent (R12); of BAR4 the DMA and ring pages. -/
def busDown (s : State) (bus : RegBus) (off : BitVec 24) : Bool :=
  match bus with
  | .bar4 => off.toNat < 0x80000 && s.mainDown
  | .bar0 | .oob => s.blockDown (blockOf off.toNat)
/-- R143, R145: the out-of-band path reaches the AON_ range, mailboxes 14 and 15, their doorbells and the interrupt registers. -/
def oobReach (off : BitVec 24) : Bool :=
  off.toNat < 0x100000 || ((0x10E000 ≤ off.toNat && off.toNat < 0x110000)
    || ((0x200038 ≤ off.toNat && off.toNat < 0x200040) || (0x200080 ≤ off.toNat && off.toNat < 0x200088)))
/-- The access reaches Daxmet: no reset input is asserted (Table CP-6), and by the out-of-band path SCLK runs (R48). -/
def busUp (s : State) (bus : RegBus) : Bool := s.released && (bus != .oob || s.clk.sclk)

/-! ## What each register reads as -/

/-- MBX_LEASE (Table WM-4). -/
def mbxLeaseWord (m : Mbx) : Word := if m.st = .free then 0 else packFields [(m.owner.toNat, 0), (m.token.toNat, 16)]
/-- THS_MAX. -/
def thsMaxWord (s : State) : Word :=
  packFields [(s.therm.maxTemp.toNat, 0), (s.therm.maxSensor % 64, 16), (b2n s.therm.maxValid, 24), (b2n s.therm.maxNone, 25)]
/-- THS_SENSORs: the last reading, the live comparators, the fault flag. -/
def thsSensorWord (s : State) (i : Fin 48) : Word :=
  packFields [((Tab.get 0 s.therm.temp i.val).toNat, 0), (b2n (bit s.therm.warn i.val), 16),
    (b2n (s.therm.halt && (s.therm.halts.head?.elim false fun h => h.sensor = i.val)), 17), (b2n (bit s.therm.cold i.val), 18),
    (b2n (bit s.therm.faulted i.val), 19), (b2n (bit s.therm.valid i.val), 24)]
/-- Bits 31 to 0, or 47 to 32, of a sensor map. -/
def mapHalf (m : BitVec 48) (hi : Bool) : Word := BitVec.ofNat 32 (if hi then m.toNat / 2 ^ 32 else m.toNat)
/-- GLK_STATE. -/
def glkStateWord (s : State) (k : Nat) : Word :=
  let p := s.gport k
  packFields [(p.st.code, 0), (p.lanes % 16, 4), ((s.chanOf k 0).st.code, 8), (b2n (s.chanOf k 0).pend, 10)]
/-- The words of a port's block (Table GL-13). -/
def glkWord (s : State) (k : Nat) (w : Fin 9) : Word :=
  let p := s.gport k
  let c := s.chanOf k 0
  match w.val with
  | 0 => glkStateWord s k
  | 1 => BitVec.ofNat 32 p.replays | 2 => BitVec.ofNat 32 p.crcErr | 3 => BitVec.ofNat 32 p.late | 4 => BitVec.ofNat 32 c.tx
  | 5 => p.txHi | 6 => BitVec.ofNat 32 c.txEpoch | 7 => BitVec.ofNat 32 p.timeouts | _ => BitVec.ofNat 32 p.holdRef
/-- Word `w` of EVL_RING: an entry reads as the record last written there, or as zeros. -/
def evlRingWord (s : State) (w : Nat) : Word :=
  match s.log.ring.find? fun e => e.1 = w / 8 with
  | some e => BitVec.ofNat 32 (leAt (eventBytes s.prot.debugLevel e.2) (4 * (w % 8)) 4)
  | none => 0
/-- Word `w` of the MSI-X PBA. -/
def pbaWord (s : State) (w : Nat) : Word :=
  BitVec.ofNat 32 (s.link.pba.foldl (fun x v => if v / 32 = w then x ||| 2 ^ (v % 32) else x) 0)

/-- The value a register reads as; write-only registers read as 0 (Table SC-3). -/
def readReg (s : State) : RegName → Word
  | .aonId => 0x00D2B100 | .aonIfver => 0x00000302 | .aonStatus => aonStatus s | .aonBoard => aonBoard s | .aonClkstat => aonClkstat s
  | .aonPwr => aonPwr s | .aonRstcause => aonRstcause s | .aonStart => aonStart s | .aonWsk => aonWsk s | .aonGrant => aonGrant s
  | .aonTimeLo => BitVec.ofNat 32 s.now | .aonTimeHi => s.aon.timeHi | .aonMbxsum => aonMbxsum s
  | .mbxCmd i w => Tab.get 0 (s.box i.val).cmd w | .mbxRsp i w => Tab.get 0 (s.box i.val).rsp w
  | .mbxLease i => mbxLeaseWord (s.box i.val) | .mbxClaim _ | .mbxHb _ | .mbxRelease _ | .mbxReserved _ => 0
  | .mbxState i => mbxState s (s.box i.val) | .mbxPart i => BitVec.ofNat 32 (mbxPart s i.val)
  | .mbxData i w => BitVec.ofNat 32 (leNat ((List.range 4).map fun k => Tab.get 0 (s.box i.val).data (4 * w + k)))
  | .dblMbx _ => 0 | .dblIrqStatus => s.mbx.irqStatus.setWidth 32 | .dblIrqMask => s.mbx.irqMask.setWidth 32 | .dblAcksum => dblAcksum s
  | .eccwCtrl => packFields [(b2n s.mem.armed, 0), (b2n s.mem.eccNow, 1)]
  | .eccwAddrLo => BitVec.ofNat 32 s.mem.eccAddr | .eccwAddrHi => BitVec.ofNat 32 (s.mem.eccAddr / 2 ^ 32)
  | .eccwFlip i => BitVec.ofNat 32 s.mem.flips[i].word | .eccwStatus => BitVec.ofNat 32 (eccwStatus s)
  | .pmxPin i => pmxPin s i | .pmxStatus => pmxStatus s | .pmxParkmap => pmxParkmap s
  | .thsCtrl => packFields [(b2n s.therm.conv.isSome, 1)]
  | .thsMaskLo => mapHalf s.therm.mask false | .thsMaskHi => mapHalf s.therm.mask true | .thsMax => thsMaxWord s
  | .thsLevel => packFields [(s.thermLevel 0, 0), (s.thermLevel 1, 4), (s.thermLevel 2, 8), (s.thermLevel 3, 12), (s.thermLevel 4, 16),
      (s.thermLevel 5, 20)]
  | .thsWarnLo => mapHalf s.therm.warn false | .thsWarnHi => mapHalf s.therm.warn true
  | .thsFaultLo => mapHalf s.therm.faulted false | .thsFaultHi => mapHalf s.therm.faulted true
  | .thsHaltcnt => BitVec.ofNat 32 s.therm.haltCnt | .thsSensor i => thsSensorWord s i
  | .glkPort i w => glkWord s i.val w | .glkHostLate => BitVec.ofNat 32 s.link.hostLate
  | .glkCxlLate i => BitVec.ofNat 32 (s.cxlPort i.val).late | .glkBar2Deny => BitVec.ofNat 32 s.link.bar2Deny | .glkClear => 0
  | .evlStatus => evlStatus s | .evlNewest => BitVec.ofNat 32 s.log.newest | .evlCommitted => BitVec.ofNat 32 s.log.lastCommitted
  | .evlAck => BitVec.ofNat 32 s.log.ack | .evlRing w => evlRingWord s w
  | .dmaKick _ | .ringSqtail _ | .ringCqhead _ => 0
  | .dmaHead i => packFields [((s.dchan i.val).head, 0), ((s.dchan i.val).st.code, 12)]
  | .ringCqprod i => BitVec.ofNat 32 (s.ring i.val).prod | .ringSqhead i => BitVec.ofNat 32 (s.ring i.val).head
  | .msixTable w => Tab.get 0 s.link.msixTable w | .msixPba w => pbaWord s w

/-! ## What a write does -/

/-- The path that a bus stands for. -/
def busPath : RegBus → Path
  | .bar0 | .bar4 => .host
  | .oob => .oob
/-- Write an exp field or register of the host path: with the EXPERT grant only (R7). -/
def expWrite (s t : State) : State := if s.aon.grantHost.isSome then t else noteDeny s
/-- R156: CMD and DATA take writes but while a command is outstanding. -/
def boxOpen (m : Mbx) : Bool := m.st = .free || (m.st = .idle || m.st = .late)
/-- Four bytes of DATA. -/
def putWord (d : Tab Byte) (w : Nat) (val : Word) : Tab Byte :=
  (List.range 4).foldl (fun d k => Tab.put 0 d (4 * w + k) (BitVec.ofNat 8 (val.toNat / 256 ^ k))) d
/-- Change mailbox `n` from a path that reaches it while its areas take writes. -/
def writeBox (path : Path) (n : Nat) (f : Mbx → Mbx) (s : State) : State :=
  if pathReach path n && boxOpen (s.box n) then setBox n (f (s.box n)) s else s
/-- The bits of the interrupt registers that a path may change: all from the host, those of mailboxes 14 and 15 out of band (log 39). -/
def irqBits : Path → BitVec 16
  | .host => 0xFFFF
  | .oob => 0xC000
/-- Half of THS_MASK takes a word. -/
def setMask (hi : Bool) (val : Word) (m : BitVec 48) : BitVec 48 :=
  if hi then BitVec.ofNat 48 (m.toNat % 2 ^ 32 + val.toNat % 2 ^ 16 * 2 ^ 32) else BitVec.ofNat 48 (m.toNat / 2 ^ 32 * 2 ^ 32 + val.toNat)

/-- A 32-bit write of a register: RW fields take the value, W1C bits with a 1 clear, RO fields stay (Table SC-3). -/
def writeReg (path : Path) (r : RegName) (val : Word) (s : State) : State :=
  match r with
  | .aonStatus => { s with aon := { s.aon with
      expDeny := s.aon.expDeny && !bit val 0, rsvdAcc := s.aon.rsvdAcc && !bit val 1, offlineAcc := s.aon.offlineAcc && !bit val 2 } }
  | .aonPwr => { s with aon := { s.aon with budgetHit := s.aon.budgetHit && !bit val 17 } }
  | .aonWsk => { s with aon := { s.aon with wdog := s.aon.wdog && !bit val 2 } }
  | .mbxCmd i w => writeBox path i.val (fun m => { m with cmd := Tab.put 0 m.cmd w val }) s
  | .mbxData i w => writeBox path i.val (fun m => { m with data := putWord m.data w val }) s
  | .mbxClaim i => claimBox path i val s
  | .mbxHb i => renewBox path i val s
  | .mbxRelease i => releaseBox path i val s
  | .dblMbx i => ringBell path i val s
  | .dblIrqStatus => { s with mbx := { s.mbx with irqStatus := s.mbx.irqStatus &&& ~~~ (val.setWidth 16 &&& irqBits path) } }
  | .dblIrqMask =>
    { s with mbx := { s.mbx with irqMask := (s.mbx.irqMask &&& ~~~ irqBits path) ||| (val.setWidth 16 &&& irqBits path) } }
  | .eccwCtrl => writeEccwCtrl path val s
  | .eccwAddrLo => expWrite s { s with mem := { s.mem with eccAddr := s.mem.eccAddr / 2 ^ 32 * 2 ^ 32 + val.toNat } }
  | .eccwAddrHi => expWrite s { s with mem := { s.mem with eccAddr := val.toNat % 2 ^ 16 * 2 ^ 32 + s.mem.eccAddr % 2 ^ 32 } }
  | .eccwFlip i => expWrite s { s with mem := { s.mem with flips := s.mem.flips.set i (flipOf val.toNat) } }
  | .eccwStatus => { s with mem := { s.mem with
      applied := s.mem.applied && !bit val 1, expired := s.mem.expired && !bit val 2, refused := s.mem.refused && !bit val 3 } }
  | .pmxPin i => writePmxPin i val s
  | .pmxStatus => { s with pmx := { s.pmx with
      refused := s.pmx.refused && !bit val 0, conflict := s.pmx.conflict && !bit val 1, badFunc := s.pmx.badFunc && !bit val 2 } }
  | .thsCtrl => writeThsCtrl path val s
  | .thsMaskLo => expWrite s { s with therm := { s.therm with mask := setMask false val s.therm.mask } }
  | .thsMaskHi => expWrite s { s with therm := { s.therm with mask := setMask true val s.therm.mask } }
  | .glkClear => writeGlkClear path val s
  | .evlStatus => { s with log := { s.log with dropped := s.log.dropped && !bit val 8 } }
  | .evlAck => writeEvlAck path val s
  | .dmaKick i => kickChan .doorbell i.val (val.setWidth 12) s
  | .ringSqtail i => ringTail i.val val s
  | .ringCqhead i => ringRetire i.val val s
  | .msixTable w => { s with link := { s.link with msixTable := Tab.put 0 s.link.msixTable w val } }
  | .aonId | .aonIfver | .aonBoard | .aonClkstat | .aonRstcause | .aonStart | .aonGrant | .aonTimeLo | .aonTimeHi | .aonMbxsum
  | .mbxRsp _ _ | .mbxLease _ | .mbxState _ | .mbxPart _ | .mbxReserved _ | .dblAcksum | .pmxParkmap
  | .thsMax | .thsLevel | .thsWarnLo | .thsWarnHi | .thsFaultLo | .thsFaultHi | .thsHaltcnt | .thsSensor _
  | .glkPort _ _ | .glkHostLate | .glkCxlLate _ | .glkBar2Deny | .evlNewest | .evlCommitted | .evlRing _
  | .dmaHead _ | .ringCqprod _ | .ringSqhead _ | .msixPba _ => s

/-! ## The accesses -/

/-- What a read that has no register to answer does: ones and OFFLINE_ACC, or 0 and RSVD_ACC (R10, R12). -/
def readBack (v : Word) (s : State) : State := { s with out := { s.out with readData := v } }
/-- A write as it meets the address map. `full`: an aligned 32-bit write; narrower ones are discarded (R6). -/
def busWrite (bus : RegBus) (off : BitVec 24) (val : Word) (full : Bool) (s : State) : State :=
  if busDown s bus off then noteOffline s
  else match regAt bus off with
    | none => noteReserved s
    | some r => if full then writeReg (busPath bus) r val s else s
/-- A read as it meets the address map; AON_TIME_LO keeps the high word (R142). -/
def busRead (bus : RegBus) (off : BitVec 24) (s : State) : State :=
  if busDown s bus off then readBack 0xFFFFFFFF (noteOffline s)
  else match regAt bus off with
    | none => readBack 0 (noteReserved s)
    | some .aonTimeLo => readBack (BitVec.ofNat 32 s.now) { s with aon := { s.aon with timeHi := BitVec.ofNat 32 (s.now / 2 ^ 32) } }
    | some r => readBack (readReg s r) s

/-- R6, R7: a host or out-of-band write. A register that has a row of its own acts as that row does. -/
def execRegisterWrite (bus : RegBus) (off : BitVec 24) (val : Word) (full : Bool) (s : State) : Result :=
  .next (if busUp s bus && (bus != .oob || oobReach off) then busWrite bus off val full s else s)
/-- R10: an access to a reserved address. -/
def execReservedAccess (bus : RegBus) (off : BitVec 24) (write : Bool) (s : State) : Result :=
  .next (if busUp s bus && ((bus != .oob || oobReach off) && (!busDown s bus off && (regAt bus off).isNone)) then
      (if write then noteReserved s else readBack 0 (noteReserved s))
    else s)
/-- R12: an access to a block in reset or absent in doldrums mode. -/
def execOfflineAccess (bus : RegBus) (off : BitVec 24) (write : Bool) (s : State) : Result :=
  .next (if busUp s bus && ((bus != .oob || oobReach off) && busDown s bus off) then
      (if write then noteOffline s else readBack 0xFFFFFFFF (noteOffline s))
    else s)
/-- R142: a read of AON_TIME_LO. -/
def execAonTimeLoRead (s : State) : Result := .next (if s.released then busRead .bar0 0x30 s else s)
/-- Some pin carries a signal outside a park window. -/
def sigOnPin (s : State) (g : PinSig) : Bool :=
  (List.finRange 24).any fun q => !s.pmx.pins[q].park && pinSig q.val s.pmx.pins[q].cur = some g
/-- R48: the I3C target answers at 0x30 + slot until the controller has assigned a dynamic address. R53: the SMBus target answers at
0x48 + slot while its two lines are on pins; under EXTEST no peripheral drives them. -/
def targetAnswers (s : State) : OobTarget → Bool
  | .i3c a => !s.pins.extest && a.toNat = s.pins.i3cDyn.getD (0x30 + s.aon.slot.val)
  | .smbus a => !s.pins.extest && (a.toNat = 0x48 + s.aon.slot.val && (sigOnPin s .smbClk && sigOnPin s .smbDat))
/-- R145: a 4-byte private transfer of tray management, a write or a read, to the target that it addresses. -/
def execPrivateTransfer (dest : OobDest) (write : Option Word) (s : State) : Result :=
  .next (if busUp s .oob && (targetAnswers s dest.target && oobReach dest.off) then
      match write with
      | some v => busWrite .oob dest.off v true s
      | none => busRead .oob dest.off s
    else s)

end Sys2Proof.Machine
end

