-- ==== Sys2Proof/Machine/Slices.lean ====
section
/-!
DEFINITION. Slice streams and cluster windows (spec/10_tile_bond.md R261, spec/12_translation_dma_preemption.md R324).
-/
namespace Sys2Proof.Machine

/-- A cluster opens a slice stream. -/
def execSliceStreamCommand (cluster : Fin 128) (sid : Fin 16) (cmd : BitVec 64) (data : List Byte) (s : State) : Result :=
  .next (if carrying s 0x01 cluster.val then openStream cluster.val sid.val cmd data s else s)

/-- R324: a window lies wholly in allocatable units that the cluster's partition owns. -/
def windowOk (s : State) (c base len : Nat) : Bool :=
  let first := base / 256
  let last := (base + len + 255) / 256
  base + len ≤ sliceUnits * 256
    && (len = 0 || (List.range (last - first)).all fun i => s.unitPart c (first + i) = some (clusterPart s c))

/-- CLUSTER_WINDOW_SET: the window is set, or the dispatch fails and the old window stands. -/
def execClusterWindowSet (cluster : Fin 128) (base len : BitVec 16) (s : State) : Result :=
  let c := cluster.val
  .next (if windowOk s c base.toNat len.toNat && (s.port c).streams.isEmpty then
      modPort c (fun p => { p with winBase := base.toNat, winLen := len.toNat }) s
    else send (.flit c "dispatch failed" [base.toNat, len.toNat]) s)

end Sys2Proof.Machine
end

