-- ==== Sys2Proof/Machine/Start.lean ====
section
/-!
DEFINITION. The phases of a start up to PH_AUTH, their budgets and holds, JOIN records and the start commands
(spec/04_start_and_doldrums.md). PH_TRAIN ends in Train.lean and PH_VANE in Vane.lean.
-/
namespace Sys2Proof.Machine

/-- The phase `p` is running. -/
def inPhase (p : Phase) (s : State) : Bool := s.aon.phase = p && s.aon.startSt ≠ .failed && s.released && !s.haltLatched

/-! ## PH_FUSE (R95, R100, R108, R190) -/

/-- R190: a fuse run cut short by a reset is completed: the counter takes its target and a stored custody record becomes
valid. -/
def completeRun (s : State) : State :=
  match s.prot.run with
  | none => s
  | some r => logInfo 0x0206 0x0F 3 [r.counter.val, r.target]
      { s with prot := { s.prot with
          counters := s.prot.counters.set r.counter r.target
          custody := if r.keys.isSome then r.keys else s.prot.custody
          run := none } }

/-- R175: KEYGEN is above 0 and no valid custody record exists. -/
def orphaned (s : State) : Bool :=
  s.prot.counters[1] ≠ 0 && !custodyValid s

/-- R175: in the ORPHANED state the settings of the package store take their shipped values, with a SEC record at each
start. -/
def orphanNote (s : State) : State :=
  if orphaned s then
    logSec 0x0208 0x00 0 []
      { s with prot := { s.prot with parts := [], vault := {}, sealedP := {} }, store := { s.store with exclMap := 0 } }
  else s

/-- The harvest map takes clusters and routers out for good (R84, R500). -/
def harvestAll (ut : Nat) : List Nat → State → State
  | [], s => s
  | c :: t, s => harvestAll ut t (setUnitSt ut c .harvested s)

/-- The start record is read: FAIL_CNT unless it is kept in AON_START only (R109), and the exclusion map that the start runs with
(R187). -/
def readStartRecord (s : State) : State :=
  { s with
    aon := { s.aon with
      failCnt := s.failBase
      cntVolatile := s.regionRo 3 || s.aon.cntVolatile
      excluded := s.store.exclMap.getLsbD s.aon.slot.val }
    start := { s.start with runMap := s.store.exclMap } }

/-- Begin PH_BOOT with a firmware slot. -/
def enterBoot (slotB : Bool) (s : State) : State :=
  let t := enterPhase .boot s
  { t with aon := { t.aon with fwSlot := slotB } }

/-- PH_FUSE ends: FAIL_CNT at 3 leads to doldrums mode with the stored reason, without an attempt (R108). -/
def execFuseReadDone (ok : Bool) (s : State) : Result :=
  .next (if inPhase .fuse s then
      let s0 := readStartRecord (orphanNote (completeRun s))
      let s1 := { s0 with start := { s0.start with chain := true } }
      if 3 ≤ s1.aon.failCnt then enterDoldrums s1.store.reason (phaseExit 1 s1)
      else if !ok then failStart 0x20 s1
      else if 2 < popcount s1.store.harvestRt then failStart 0x21 s1
      else
        let s2 := harvestAll 0x02 (maskList128 s1.store.harvestRt) (harvestAll 0x01 (maskList128 s1.store.harvestCl) s1)
        let s3 := applySliceRepairs (phaseExit 0 s2)
        enterBoot s3.store.preferB { s3 with start := { s3.start with triedOther := false, badSig := false } }
    else s)

/-! ## PH_BOOT and PH_AUTH (R97, R98, R191) -/

/-- What the store keeps about the running slot. -/
def modSlot (f : FwSlot → FwSlot) (s : State) : State :=
  if s.aon.fwSlot then { s with store := { s.store with slotB := f s.store.slotB } }
  else { s with store := { s.store with slotA := f s.store.slotA } }

/-- R97: a slot has failed: the warden core returns once to PH_BOOT with the other slot; after the second the start fails in
the phase of the last try. `late` says that the try overran its budget. A return from PH_AUTH leaves that phase (R96); a second try of
PH_BOOT does not leave PH_BOOT (log 150). -/
def slotFailed (late : Bool) (s : State) : State :=
  if s.start.triedOther then
    failStart
      (match s.aon.phase with
        | .auth => if s.start.badSig then 0x38 else if late then 0x3A else 0x39
        | _ => if late then 0x31 else 0x30) s
  else
    let t := if s.aon.phase = .auth then phaseExit 1 s else bankTimes s
    enterBoot (!s.aon.fwSlot) { t with start := { t.start with triedOther := true } }

/-- PH_BOOT: the copy of a slot ends and its header CRC is checked. -/
def execBootCopyDone (crcOk : Bool) (version : BitVec 32) (s : State) : Result :=
  .next (if inPhase .boot s then
      let s1 := modSlot (fun f => { f with crcOk := some crcOk, version := version.toNat }) s
      if crcOk then enterPhase .auth (phaseExit 0 s1) else slotFailed false s1
    else s)

/-- The boot gate opens: Windsock runs, takes the sequencer lease of R90 and serves mailboxes; firmware first takes the
conversion that HBM training needs (R493). -/
def openGate (s : State) : State :=
  let t := enterPhase .train (phaseExit 0 s)
  trainPorts (List.range 12) { t with
    aon := { t.aon with owner := .windsock, lease := some (s.now + 10000000), cores := 7, ready := true, wdogKick := s.now }
    pins := { t.pins with cxl0Perst := true, cxl1Perst := true }
    therm := { t.therm with conv := t.therm.conv.getD (0x0000FFFF0000, ConvBy.training) } }

/-- PH_AUTH ends: the signature, and the security version against FW_SVN; a start on the slot that is not preferred is
recorded as FW_FALLBACK. -/
def execAuthDone (sigOk : Bool) (svn : BitVec 16) (measure : BitVec 384) (s : State) : Result :=
  .next (if inPhase .auth s then
      if !sigOk then
        slotFailed false (modSlot (fun f => { f with auth := 2 }) { s with start := { s.start with badSig := true } })
      else if svn.toNat < s.prot.counters[0] then slotFailed false (modSlot (fun f => { f with auth := 3 }) s)
      else
        let s1 := modSlot (fun f => { f with auth := 1, measure := measure.toNat })
          { s with prot := { s.prot with fwMeasure := measure, fwSvn := svn.toNat } }
        openGate (if s.aon.fwSlot = s.store.preferB then s1 else logSec 0x0115 0x00 0 [b2n s.aon.fwSlot] s1)
    else s)

/-- R95: the budget of the running phase ends. A hold does not count (R94); PH_JOIN and PH_SERVE have no budget. -/
def execPhaseBudgetExpiry (s : State) : Result :=
  .next (if s.aon.startSt = .running ∧ s.released ∧ !s.haltLatched then
      match s.aon.phase with
      | .power => failStart 0x12 (powerDown s)
      | .fuse => failStart 0x22 { s with start := { s.start with chain := true } }
      | .boot => slotFailed true s
      | .auth => slotFailed true (modSlot (fun f => { f with auth := 4 }) s)
      | .train => failStart 0x44 s
      | .vane => vaneLoadFail 0x0B s
      | .join | .serve | .doldrums | .excluded => s
    else s)

/-- R94: every 10 s of a hold another START_HOLD record is written. -/
def execHoldReport (s : State) : Result :=
  .next (if s.aon.startSt = .hold then logInfo 0x0113 0x00 0 [s.aon.phase.code, s.aon.reason] s else s)

/-! ## TRAY_DONE and JOIN records (R103 to R105) -/

/-- TRAY_DONE changes: another slot pulls it low, or none does any more. -/
def execTrayDoneChange (othersHigh : Bool) (s : State) : Result :=
  .next (joinRecheck (doneWatch { s with pins := { s.pins with doneOthers := othersHigh } }))

/-- TRAY_DONE has read high for 100 µs. -/
def execDoneStable (s : State) : Result :=
  .next (if s.doneLvl && s.start.doneSince.isSome then joinRecheck { s with start := { s.start with done100 := true } } else s)

/-- A JOIN record arrives. -/
def execJoinRecord (port : Fin 7) (tray : BitVec 12) (slot : Fin 8) (status : JoinStatus) (map : BitVec 8) (seq : BitVec 16)
    (s : State) : Result :=
  .next (if joinPhase s && gustUsable s port.val && slot ≠ s.aon.slot then
      joinRecheck (noteJoin tray.toNat slot.val status map.toNat (relayJoin port.val tray.toNat slot.val status map.toNat seq.toNat s))
    else s)

/-- Every 1 ms the package sends its own JOIN record. -/
def execJoinRecordTimer (s : State) : Result := .next (if joinPhase s then sendJoins s else s)

/-! ## Start commands (R115, Table SU-6; the places of results are log 13) -/

/-- START_STATUS: AON_START and the last eight START_FAIL records, newest first; the expert form adds the times spent and
held in each phase. -/
def execStartStatus (n : Fin 16) (s : State) : Result :=
  .next (command 0x0101 n.val noChecks
    (fun s m => replyDone n.val [(aonStart s).toNat, s.store.fails.length]
      (s.store.fails.flatMap (eventBytes s.prot.debugLevel)
        ++ if m.exp then (List.range 8).flatMap (fun p =>
            let t := Tab.get (0, 0) s.start.times p
            let u := if p = s.aon.phase.code && s.aon.startSt ≠ .failed then (s.spentNow, s.heldNow) else (0, 0)
            leBytes 8 (t.1 + u.1) ++ leBytes 8 (t.2 + u.2)) else []) s) s)

/-- START_RETRY: FAIL_CNT returns to 0 and a warden reset follows 1 ms later. -/
def execStartRetry (n : Fin 16) (s : State) : Result :=
  .next (command 0x0102 n.val
    (fun s m => { notPermitted := failIf (!m.exp && s.aon.phase ≠ .doldrums && s.aon.startSt ≠ .hold) 0 })
    (fun s _ =>
      let t := setFailCnt 0 s
      replyDone n.val [] [] { t with start := { t.start with wardenAt := some (s.now + 1000000) } }) s)

/-- A header CRC result as a number: 0 none, 1 wrong, 2 correct. -/
def crcCode : Option Bool → Nat
  | none => 0 | some false => 1 | some true => 2

/-- FW_SLOT_STATUS: version, header CRC result and last authentication result of slots A and B; the expert form adds the image
measurements. -/
def execFwSlotStatus (n : Fin 16) (s : State) : Result :=
  .next (command 0x0103 n.val noChecks
    (fun s m =>
      let a := s.store.slotA
      let b := s.store.slotB
      replyDone n.val [a.version, b.version, crcCode a.crcOk, crcCode b.crcOk, a.auth, b.auth]
        (if m.exp then leBytes 48 a.measure ++ leBytes 48 b.measure else []) s) s)

/-- The slot that FW_SLOT_WRITE writes: the one that is not running; the expert form names it in ARG1. -/
def writeSlotB (s : State) (m : Mbx) : Bool := if m.exp then m.arg 1 = 1 else !s.aon.fwSlot

/-- FW_SLOT_WRITE: ACCEPTED, then DONE once the chunk is programmed and verified. -/
def execFwSlotWrite (n : Fin 16) (s : State) : Result :=
  .next (command 0x0104 n.val
    (fun s m =>
      { badArg := failIf (m.input.isEmpty || 4096 < m.input.length || m.arg 0 % 4096 ≠ 0 || 8388608 < m.arg 0 + m.input.length
          || (m.exp && 2 ≤ m.arg 1)) 0
        noResource := failIf (if writeSlotB s m then s.regionRo 1 else s.regionRo 0) 0 })
    (fun s m =>
      let put := fun (f : FwSlot) => { f with chunks := Tab.ins f.chunks (m.arg 0 / 4096) m.input }
      let t := if writeSlotB s m then { s with store := { s.store with slotB := put s.store.slotB } }
               else { s with store := { s.store with slotA := put s.store.slotA } }
      replyDone n.val [] [] (replyAccepted n.val t)) s)

/-- FW_SLOT_SELECT: ARG0 0 prefers slot A, 1 slot B, for the next start. -/
def execFwSlotSelect (n : Fin 16) (s : State) : Result :=
  .next (command 0x0105 n.val
    (fun s m => { badArg := failIf (2 ≤ m.arg 0) 0, noResource := failIf (s.regionRo 3) 0 })
    (fun s m => replyDone n.val [] [] { s with store := { s.store with preferB := m.arg 0 = 1 } }) s)

end Sys2Proof.Machine
end

