-- ==== Sys2Proof/Machine/Steps.lean ====
section
/-!
DEFINITION. Step edges, overruns, handoffs and the drift tier's events (spec/13_serving_pipeline.md R339, R340, R358 to R364,
spec/14_pages_prefixes_adapters_drift.md R376, R389 to R391).
-/
namespace Sys2Proof.Machine

/-- Every group has reported and SAMPLE has finished: the edge. -/
def execStepEdge (s : State) : Result := .next (if s.aon.phase = .serve && stepDone s then stepEdge s else s)

/-- R358: the longest step: 4 × STEP_TARGET, at least 100 ms. -/
def overrunAfter (s : State) : Nat := max (4 * s.serve.target * 1000) 100000000
/-- The groups of the step that have not reported. -/
def lateGroups (s : State) : List Nat := (List.range 16).filter fun g => !groupDone s g
/-- A step is overrun: the clusters of the late groups are fenced, the work of their requests is discarded, and the edge is set.
Drafting that has not ended leaves no proposal. The edge never comes before the close of a window. -/
def execStepOverrun (s : State) : Result :=
  .next (if s.aon.phase = .serve && ((!stepDone s && (List.range 16).all fun g => !groupInWindow s g) && s.serve.dispatchedAt + overrunAfter s ≤ s.now) then
      let l := lateGroups s
      let s1 := fenceAll 0x01 0x0501 ((l.flatMap groupClusters).filter fun c => carrying s 0x01 c) s
      let s2 := { s1 with serve := { s1.serve with
        discarded := l.foldl (fun m g => setBit m g true) s1.serve.discarded, drafting := [] } }
      stepEdge (logUe .unit 0x0501 0x0E 0 [s.serve.step] s2)
    else s)

/-! ## Handoffs (R361, R363, R364) -/

/-- R363 step 1 at the peer: a partition that takes handoffs, with the same program, adapter and draft digest (`same`), asks its page
steward in the request's class; the answer goes back to the origin. -/
def execHandoffPageRequest (slot : Fin 8) (req : BitVec 21) (part : Fin 64) (cls : Fin 4) (pages : BitVec 15) (same : Bool) (s : State) :
    Result :=
  let p := part.val
  let answer := fun (code : Nat) => send (.link (meshPort s.aon.slot.val slot.val) "handoff grant" [req.toNat, code])
  .next (if s.aon.phase ≠ .serve || (slot = s.aon.slot || s.units.maint) then s
    else if !same || ((s.spart p).program.isNone || (s.spart p).role = 1) then answer 2 s
    else if s.serve.guests.any fun e => e.slot = slot.val && e.origin = req.toNat then answer 1 s
    else
      let a := steward p (pages.toNat + 1) cls.val false false req.toNat s
      match a.1 with
      | .error _ => answer 0 a.2
      | .ok l =>
        let s1 := markFrames { use := .request, tag := req.toNat, part := p } l a.2
        answer 1 { s1 with serve := { s1.serve with
          guests := s1.serve.guests ++ [{ slot := slot.val, part := p, origin := req.toNat, frames := l }] } })

/-- R363 step 2 at the origin: with the pages granted the chunks are shipped; refused, it asks again at the next edge; where program,
adapter or draft program differ it waits, with HANDOFF_WAIT once (R364). -/
def execHandoffPageGrant (req : BitVec 21) (granted same : Bool) (s : State) : Result :=
  let i := req.toNat
  .next (match s.req i with
    | none => s
    | some r =>
      if r.st ≠ .handoff || !r.asked then s
      else if !same then waitPeer i r s
      else if granted then
        send (.link (meshPort s.aon.slot.val (peerOf s r)) "handoff chunks" (i :: r.pages)) (setReq i { r with asked := false, shipping := true } s)
      else setReq i { r with asked := false } s)

/-- The bytes of the pages that a handoff shipped. -/
def pokePages : List Nat → List (List Byte) → State → State
  | f :: t, b :: u, s => pokePages t u (poke (f * 65536) (b.take 65536) s)
  | _, _, s => s
/-- The GUEST that a handoff makes: the origin slot and the origin's request ID stand in its record. -/
def guestReq (g : GuestGrant) (c : GuestCtx) : Req :=
  { st := .decode, seq := 0, cls := c.cls.val, tenant := c.tenant.toNat, part := g.part, ring := g.slot, adapter := c.adapter.map BitVec.toNat
    draft := c.draft, guest := true, promptLen := c.promptLen, maxNew := c.maxNew, tokbuf := c.tokbuf.toNat, seed := c.seed.toNat
    smp := { temp := c.sampling[0].toNat, topK := c.sampling[1].toNat, topP := c.sampling[2].toNat, minP := c.sampling[3].toNat
             repPen := c.sampling[4].toNat, repWin := c.repWin.toNat }
    userTag := g.origin, plist := .frame (g.frames.getLastD 0), pages := g.frames.dropLast, filled := c.promptLen, fillTo := c.promptLen
    prompt := c.prompt, gen := c.gen, stops := c.stops }
/-- R363 step 3: every chunk has been acknowledged: the origin's record becomes REMOTE, its pages go at its next edge; at the peer the
GUEST record is made at its next edge. -/
def execHandoffShipped (side : HandoffEnd) (s : State) : Result :=
  .next (match side with
    | .origin req =>
      match s.req req.toNat with
      | none => s
      | some r =>
        if r.st = .handoff && r.shipping then
          setReq req.toNat { r with st := .remote, shipping := false, freeNext := true, prop := none } s
        else s
    | .peer slot req c =>
      match s.serve.guests.find? fun e => e.slot = slot.val && (e.origin = req.toNat && e.arrived.isNone) with
      | none => s
      | some g =>
        let s1 := pokePages g.frames.dropLast c.pages s
        { s1 with serve := { s1.serve with guests := s1.serve.guests.map fun e =>
            if e = g then { e with arrived := some (guestReq g c) } else e } })

/-- R363 step 4: a peer's tokens wait for the next edge of the origin. -/
def execRemoteTokens (slot : Fin 8) (req : BitVec 21) (toks : List Word) (s : State) : Result :=
  .next (match s.req req.toNat with
    | none => s
    | some r =>
      if r.st = .remote && peerOf s r = slot.val then setReq req.toNat { r with inbox := r.inbox ++ toks.map BitVec.toNat } s else s)

/-- R361: the peer confirms a cancellation; the record goes at the next edge. -/
def execRemoteCancelConfirm (req : BitVec 21) (s : State) : Result :=
  .next (match s.req req.toNat with
    | none => s
    | some r => if r.st = .remote && r.cancelSent then setReq req.toNat { r with confirmed := true } s else s)

/-- A path to the decode peer has been down for 1 s. -/
def execHandoffPathTimeout (slot : Fin 8) (s : State) : Result := .next (eachReq (loseAtPeer slot.val) s.reqIds s)

/-! ## Pauses and the drift tier (R359, R376, R390, R391) -/

/-- A request that the pipeline paused has kept its pages for PAUSE_HOLD edges, or the page steward runs short (`short`): it moves
out. -/
def execPauseHoldExpiry (req : BitVec 21) (short : Bool) (s : State) : Result :=
  .next (match s.req req.toNat with
    | none => s
    | some r =>
      if r.st = .paused && (!r.hostPaused && (r.retryAt.isNone && (short || (s.spart r.part).pauseHold ≤ r.pausedFor))) then
        moveOut req.toNat s
      else s)
/-- 64 edges after a drift grant that failed, a request that is still paused tries again. -/
def execDriftRetry (req : BitVec 21) (s : State) : Result :=
  .next (match s.req req.toNat with
    | none => s
    | some r => if r.st = .paused && (r.retryAt.elim false fun t => t ≤ s.serve.step) then moveOut req.toNat s else s)
/-- The pages that a session copies, each with its destination. -/
def movePairs (r : Req) (m : DriftMove) : List (Nat × Nat) :=
  let l := m.granted.getD []
  if m.out then (r.pages.map (· * 65536)).zip (l.map driftDpa) else (r.driftPages.dropLast.map driftDpa).zip (l.map (· * 65536))
/-- The last chunk of a session is acknowledged; the session completes at the next edge, and the next session that is due copies. -/
def execDriftCopyDone (req : BitVec 21) (s : State) : Result :=
  .next (match s.req req.toNat with
    | none => s
    | some r =>
      match r.move with
      | none => s
      | some m =>
        if m.copying && !m.copied then
          startCopies (setReq req.toNat { r with move := some { m with copied := true } } (copyPages (movePairs r m) s))
        else s)
/-- The TTL of a DRIFTED request ends, or of a paused one of a VAULT partition: it expires at the next edge. -/
def execDriftTtlExpiry (req : BitVec 21) (s : State) : Result :=
  .next (match s.req req.toNat with
    | none => s
    | some r =>
      if (r.st = .drifted || (r.st = .paused && partKind s r.part = .vault))
          && (r.move.isNone && r.ttlEnd.elim false fun t => t ≤ s.now) then
        setReq req.toNat { r with expired := true } s
      else s)

/-- R376: a freed frame has been zeroed and joins its pool's free list. -/
def execFrameZeroed (frame : BitVec 23) (s : State) : Result :=
  let f := frame.toNat
  .next (if (s.frame f).use = .zeroing && regionUp s (frameRegion f) then
      let lo := f * 65536
      let keep := fun (a : Nat) => !(lo ≤ a && a < lo + 65536)
      let s1 := setFrame f {} { s with mem := { s.mem with
        bytes := s.mem.bytes.filter fun e => keep e.1, flaws := s.mem.flaws.filter fun e => keep e.1 } }
      if (s.frame f).retirePending then retireNow f (frameRows s f) s1
      else
      { s1 with serve := { s1.serve with entering := Tab.mod 0 s1.serve.entering (s.hregion (frameRegion f)).owner (· + 1) } }
    else s)

end Sys2Proof.Machine
end

