-- ==== Sys2Proof/Machine/Train.lean ====
section
/-!
DEFINITION. The end of PH_TRAIN: which units are in service, the minimums of R99, the tables and routes that the package starts with
(spec/04_start_and_doldrums.md R99, spec/10_tile_bond.md R274, R275, spec/11_memory_and_ecc.md R280, R284, R305,
spec/17_gust_links_and_host.md R475).
-/
namespace Sys2Proof.Machine

/-! ## Routers, gateways (R227, Table NW-7) -/

/-- The dead routers: the harvest map, those the self-test fails, those that these cut off. -/
def trainedDead (s : State) (f : TrainFacts) : BitVec 128 :=
  let d := f.dead ||| s.store.harvestRt
  (cutOff d).foldl (fun m n => setBit m n true) d
/-- A state for several units; a HARVESTED unit stays so. -/
def trainAll (ut : Nat) (st : Nat → UnitSt) : List Nat → State → State
  | [], s => s
  | i :: t, s => trainAll ut st t (if s.unitSt ut i = .harvested then s else setUnitSt ut i (st i) s)
/-- IN_SERVICE for what holds, ABSENT for the rest. -/
def upIf (p : Nat → Bool) (i : Nat) : UnitSt := if p i then .inService else .absent
/-- R99: a UE record for each router that fails (its code is open: log 153). -/
def noteRouters : List Nat → State → State
  | [], s => s
  | n :: t, s => noteRouters t (logUe .unit (Config.openCode 2 % 65536) 0x02 n [n] s)
/-- The routers and gateways; a harvested router needs no record. -/
def trainMesh (dead : BitVec 128) (s : State) : State :=
  noteRouters ((List.range 128).filter fun n => dead.getLsbD n && s.unitSt 0x02 n ≠ .harvested)
    (trainAll 0x08 (upIf fun g => !dead.getLsbD (gatewayNode g)) (List.range 8)
      (trainAll 0x02 (upIf fun n => !dead.getLsbD n) (List.range 128) s))

/-! ## Tiles (R274, R275) -/

/-- The ports of a tile that are in service under R274, on live routers. -/
def readyPorts (s : State) (dead : BitVec 128) (q : Fin 4) : List Nat :=
  (List.range 128).filter fun c => tileOf c = q.val && ((s.port c).ready && (s.unitSt 0x01 c = .probation && !dead.getLsbD c))
/-- Ports that are out for this start. -/
def portsOut : List Nat → State → State
  | [], s => s
  | c :: t, s => portsOut t (if s.unitSt 0x01 c = .probation then portOut c s else s)
/-- A tile passes with at least 16 ports and writes TILE_NEGOTIATED; it fails otherwise. -/
def trainTile (dead : BitVec 128) (q : Fin 4) (s : State) : State :=
  let l := readyPorts s dead q
  let rest := (List.range 128).filter fun c => tileOf c = q.val && !(c ∈ l)
  match (s.tile q).prof with
  | some p =>
    if (s.tile q).fail = 0 && 16 ≤ l.length then
      logInfo 0x0A50 0x09 q.val [p.f, p.bdiv, p.vdef, p.feat.toNat, l.length]
        (setUnitSt 0x09 q.val .inService (trainAll 0x01 (fun _ => .inService) l (portsOut rest s)))
    else portsOut (List.range 128 |>.filter fun c => tileOf c = q.val) (if (s.tile q).fail = 0 then tileFail q 7 s else s)
  | none => portsOut (List.range 128 |>.filter fun c => tileOf c = q.val) (if (s.tile q).fail = 0 then tileFail q 7 s else s)
/-- The four tiles. -/
def trainTiles (dead : BitVec 128) (s : State) : State :=
  trainTile dead 3 (trainTile dead 2 (trainTile dead 1 (trainTile dead 0 s)))
/-- The tiles that have passed. -/
def tilesUp (s : State) : Nat := (List.range 4).countP fun q => s.unitSt 0x09 q = .inService

/-! ## HBM (R280, R284, R305) -/

/-- HBM_TRAIN_FAIL of the stacks that did not train. -/
def noteStacks : List Nat → State → State
  | [], s => s
  | h :: t, s => noteStacks t (logUe .unit 0x040F 0x05 h [h] s)
/-- The stacks and their MEE groups. -/
def trainStacks (up : BitVec 8) (s : State) : State :=
  noteStacks ((List.range 8).filter fun h => !up.getLsbD h)
    (trainAll 0x06 (upIf fun g => up.getLsbD (g / 2)) (List.range 16) (trainAll 0x05 (upIf fun h => up.getLsbD h) (List.range 8) s))
/-- R305: soft repair of the listed rows of the stacks in service; a row without a spare stays listed. -/
def softRepairs (noSpare : List (Nat × Nat)) : List (Nat × Nat) → State → State
  | [], s => s
  | r :: t, s =>
    softRepairs noSpare t
      (if !stackUp s (r.1 / 2) then s
       else if r ∈ noSpare then logUe .none 0x040B 0x04 r.1 [r.2] s
       else logInfo 0x040A 0x04 r.1 [r.2] { s with mem := { s.mem with repaired := s.mem.repaired ++ [r] } })
/-- Region table, system tables, root frames, scrubbers. -/
def trainMemory (f : TrainFacts) (s : State) : State :=
  let s1 := releaseRetired (softRepairs f.noSpare s.store.hbmRepair s)
  buildTables (buildRegions { s1 with mem := { s1.mem with
    passStart := if s.now = 0 then [] else (List.range 144).map fun u => (u, s.now) } })

/-! ## Gust and CXL ports, the first route epoch (R224, R388, R458, R467, R475) -/

/-- The ports that have passed probation come up with the first epoch; those of dead routers are out. -/
def trainGust (dead : BitVec 128) : List Nat → State → State
  | [], s => s
  | k :: t, s =>
    trainGust dead t
      (if (s.gport k).st = .miswired then s
       else if dead.getLsbD (gustNode k) then trainFails k .down s
       else if (s.gport k).st = .probation && (s.gport k).step = 6 then portUp k s
       else s)
/-- R388, R475: the drift pages of a device: its capacity in whole 256 MiB, as far as 4 TiB allow. -/
def driftPagesOf (cap : Option (BitVec 48)) (room : Nat) : Nat := min room (cap.elim 0 fun c => c.toNat / 2 ^ 28 * 4096)
/-- R475: a CXL port comes up with its capacity, or stays out of service with an INFO record. -/
def trainCxl (n pages : Nat) (s : State) : State :=
  if pages = 0 then logInfo (Config.openCode 1 % 65536) 0x0D (1 + n) [n] s
  else setUnitSt 0x0D (1 + n) .inService (modCxl n (fun p => { p with up := true, cap := pages / 4096 }) s)
/-- Both CXL ports. -/
def trainDrift (f : TrainFacts) (s : State) : State :=
  let a := driftPagesOf f.cxl0 67108864
  let b := driftPagesOf f.cxl1 (67108864 - a)
  trainCxl 1 b (trainCxl 0 a { s with serve := { s.serve with driftSize := #v[a, b], driftBad := 0 } })
/-- The first route epoch is built around the dead routers. -/
def firstEpoch (dead : BitVec 128) (s : State) : State :=
  setBank s.epochPar { around := dead } { s with net := { s.net with gwLive := liveGateways s } }

/-! ## TRAIN_COMPLETE (R99) -/

/-- What passing PH_TRAIN leaves: the tables, the routes, the ports, the DRBG (R435); then PH_VANE, and slot 0 sends the stream (R125). -/
def trainPass (f : TrainFacts) (dead : BitVec 128) (s : State) : State :=
  let s1 := trainDrift f (trainGust dead (List.range 12) (firstEpoch dead (trainMemory f s)))
  let s2 := enterVane (phaseExit 0 { s1 with sealed := { s1.sealed with drbg := { s1.sealed.drbg with ready := true } } })
  if s.aon.slot = 0 && !s2.vane.sending then startSend 0 s2 else s2
/-- Unit training ends: `facts` says which stacks trained on both controllers, which routers the self-test fails, the capacity of the CXL
devices that trained, the rows for which the stacks report no spare. -/
def execTrainComplete (facts : TrainFacts) (s : State) : Result :=
  .next (if inPhase .train s && s.aon.startSt = .running then
      let dead := trainedDead s facts
      let s1 := trainStacks facts.hbm (trainTiles dead (trainMesh dead s))
      if strapsWrong s1 then failStart 0x43 s1
      else if tilesUp s1 < 2 then failStart 0x40 s1
      else if popcount facts.hbm < 4 then failStart 0x41 s1
      else if 2 < popcount dead then failStart 0x42 s1
      else trainPass facts dead s1
    else s)

end Sys2Proof.Machine
end

