-- ==== Sys2Proof/Machine/Translation.lean ====
section
/-!
DEFINITION. Translations, invalidations and MMU_STATUS (spec/12_translation_dma_preemption.md R313 to R322, R338, the cache
aperture of spec/14_pages_prefixes_adapters_drift.md R372).
-/
namespace Sys2Proof.Machine

/-! ## ADDRESS_TRANSLATION (R313, R318, R321) -/

/-- The access that a requester makes at a point of Table TD-1; none where that requester does not translate there. A remote access
translates at the gateway of the node of the Gust port that it entered by (R313). -/
def accessOf (s : State) (point : Nat) (who : TransUser) (dva : Nat) (write : Bool) (tag : Nat) : Option Access :=
  let gate := 128 ≤ point
  match who with
  | .cluster =>
    if gate then none
    else some { part := clusterPart s point, dva := dva, write := write, ut := 0x01, inst := point, tag := tag, context := point }
  | .vane =>
    if gate || !(List.range 4).any fun p => vaneNode p = point then none
    else some { part := vanePart s, dva := dva, write := write, ut := 0x0C, inst := vaneAt point, tag := tag }
  | .eddy g =>
    if gate then none
    else (s.redGroup g.val).map fun r =>
      { part := r.part, dva := dva, write := true, ut := 0x13, inst := g.val, tag := tag, context := g.val }
  | .dma ch => if gate then some { dmaAccess s ch.val dva write with tag := tag } else none
  | .serving p => if gate then some { serveAccess p.val dva write with tag := tag } else none
  | .host p => if gate then some { part := p.val, dva := dva, write := write, host := true, ut := 0x0D, inst := 0, tag := tag } else none
  | .remote p slot port =>
    if point = 128 + gatewayFor s (gustNode port.val) then
      some { part := p.val, dva := dva, write := write, remote := true, ut := 0x07, inst := port.val, tag := tag,
             context := slot.val + 16 * port.val }
    else none

/-- The lowest DVA of the cache aperture. -/
def apertureBase : Nat := 0xC00000000000
/-- R372: an aperture address, through the batch table of the cluster's group: the DPA, or the cause of the fault. -/
def apertureAt (s : State) (c : Nat) (a : Access) : Except Nat Nat :=
  let k := a.dva / 2 ^ 30 % 65536
  let i := a.dva / 65536 % 16384
  match (s.serve.entries.filter fun e => e.group = groupOf c)[k]? with
  | none => .error notMapped
  | some e =>
    match (s.req e.req).bind fun r => r.pages[i]? with
    | none => .error notMapped
    | some f =>
      let x := s.frame f
      if x.part ≠ a.part || (x.use ≠ .request && x.use ≠ .retained) then .error notOwner
      else if a.write && (x.indexed || (x.use = .retained || x.tag ≠ e.req)) then .error writeDenied
      else .ok (f * 65536 + a.dva % 65536)

/-- The node of a translation point. -/
def pointNode (point : Nat) : Nat := if point < 128 then point else gatewayNode (point - 128)
/-- A translation fails: the fault record and its notices, and an error response whose first byte is the cause. -/
def refuseAccess (point : Nat) (a : Access) (cause level : Nat) (s : State) : State :=
  send (.flit (pointNode point) "error response" [a.tag, cause]) (mmuFault a cause level s)

/-- A translation point resolves an access: from its cache, by a walk that fills it, or through the cache aperture, whose
translations this model does not keep: each access resolves again, as after the drop of every edge. -/
def execAddressTranslation (point : Fin 136) (who : TransUser) (dva : BitVec 48) (write : Bool) (tag : BitVec 16) (s : State) :
    Result :=
  .next (match accessOf s point.val who dva.toNat write tag.toNat with
    | none => s
    | some a =>
      if who = .cluster && apertureBase ≤ a.dva then
        match apertureAt s point.val a with
        | .ok _ => s
        | .error c => refuseAccess point.val a c 0xF s
      else
        let r := translateAt (some point.val) a s
        match r.1 with
        | .ok _ => r.2
        | .error (c, l) => refuseAccess point.val a c l r.2)

/-! ## INVALIDATION_DONE (R320) -/

/-- The running command of a mailbox that waits gets its final response. -/
def completeBox (n : Nat) (r : Reply) (s : State) : State :=
  if (s.box n).await.isSome then reply n r (setBox n { s.box n with await := none } s) else s

/-- What waited for an invalidation: a TLBI descriptor ends; frames leave their owner, and the FREE that named them is answered
once the last of its invalidations has completed. -/
def afterInval (i : Inval) (s : State) : State :=
  let s1 := freeFrames (i.frames.filter fun f => (s.frame f).freeing) s
  let s2 := match i.mbx with
    | none => s1
    | some n => if s1.mmu.inval.any fun j => j.mbx = some n then s1 else completeBox n { status := 0 } s1
  match i.chan with
  | none => s2
  | some d => tlbiDone d s2

/-- Every cache has reported: the translations that the invalidation names are dropped. -/
def execInvalidationDone (idx : Nat) (s : State) : Result :=
  .next (match s.mmu.inval[idx]? with
    | none => s
    | some i =>
      if i.started then
        afterInval i (dropTlb (invalHits i) { s with mmu := { s.mmu with inval := s.mmu.inval.eraseIdx idx } })
      else s)

/-! ## MMU_STATUS (R322, R338) -/

/-- Table TD-5: the 32 bytes of a fault record. -/
def faultBytes (r : FaultRec) : List Byte :=
  leBytes 8 r.ts ++ leBytes 6 r.dva ++ leBytes 1 r.part ++ leBytes 1 r.cause ++ leBytes 1 r.access ++ leBytes 1 r.level
    ++ leBytes 2 (r.ut * 256 + r.inst) ++ leBytes 2 r.tag ++ leBytes 4 r.context ++ leBytes 2 r.fseq ++ leBytes 4 0

/-- The expert form: entries cached at each of the 136 points, walks in flight, and the start of each invalidation. A walk of this
model ends in the step that begins it. -/
def mmuExpert (s : State) : List Byte :=
  ((List.range 136).flatMap fun p => leBytes 4 (Tab.get [] s.mmu.tlb p).length) ++ leBytes 4 0
    ++ s.mmu.inval.flatMap fun i => leBytes 8 i.since

/-- MMU_STATUS: the root frame's DPA in RES0 and RES1, the overflow count in RES2, the records in DATA (log 13). -/
def execMmuStatus (n : Fin 16) (s : State) : Result :=
  .next (command 0x0407 n.val
    (fun s m => { notPermitted := failIf (m.arg 0 < 64 && !(mbxPart s n.val = 0 || mbxPart s n.val = m.arg 0)) 0
                  badArg := failIf (64 ≤ m.arg 0) 0 })
    (fun s m =>
      let q := Tab.get {} s.mmu.queues (m.arg 0)
      let root := ((Tab.get none s.mmu.roots (m.arg 0)).getD 0) * 65536
      replyDone n.val [root % 2 ^ 32, root / 2 ^ 32, q.ovf] (q.recs.flatMap faultBytes ++ if m.exp then mmuExpert s else [])
        { s with mmu := { s.mmu with queues := Tab.put {} s.mmu.queues (m.arg 0) { q with recs := [] } } }) s)

end Sys2Proof.Machine
end

