-- ==== Sys2Proof/Machine/Windows.lean ====
section
/-!
DEFINITION. The close of a static window (spec/08_gale_breeze_lull.md R205 to R207, spec/12_translation_dma_preemption.md R320,
spec/16_sealed_arithmetic_crosswind.md R423, R428).
-/
namespace Sys2Proof.Machine

/-- R428: a refresh macro counts the windows of it that close normally. -/
def countRefresh (w : Nat) (broken : Bool) (s : State) : State :=
  if broken then s
  else { s with sealed := { s.sealed with refreshes := s.sealed.refreshes.map fun r =>
    if r.winKs = w || r.winEl = w then { r with closed := r.closed + 1 } else r } }

/-- R205: the window has run for its length in turns (DEDUCED: stalls of R87 lengthen no turn, log 21). -/
def windowOver (s : State) (w : OpenWindow) : Bool :=
  s.net.image.elim true fun img => w.turn + (img.windows.getD w.idx (0, 0)).2 ≤ s.turn
/-- A window closes at the end of its length: its passes end, invalidations that waited for it begin, a waiting image switches.
`late` names the groups whose key data came late in it (R424), `inbound` what the static streams delivered to them. -/
def execWindowClose (win : Fin 16) (late : BitVec 16) (inbound : List StreamData) (s : State) : Result :=
  .next (match s.net.windows.find? fun w => w.idx = win.val with
    | none => s
    | some w =>
      if !windowOver s w then s else
      let s1 := meeClose win.val w.broken late inbound (List.range 16) s
      let s2 := countRefresh win.val w.broken { s1 with net := { s1.net with windows := s1.net.windows.filter fun x => x.idx ≠ win.val } }
      releaseLeaving (trySwitch (releaseInvals s2)))

end Sys2Proof.Machine
end

