-- ==== Sys2Proof/Machine/Dispatch.lean ====
section
/-!
DEFINITION. One arm per row of the opcode table (spec/opcode_table.json), each one direct call of its meaning.
-/
namespace Sys2Proof.Machine

/-- The effect of a command on everything but the queue. -/
def exec (i : Instr) (s : State) : Host.Outcome State Fault Refusal :=
  match i with
  | .registerWrite bus off val full => Sys2Proof.Machine.execRegisterWrite bus off val full s
  | .reservedAccess bus off write => Sys2Proof.Machine.execReservedAccess bus off write s
  | .offlineAccess bus off write => Sys2Proof.Machine.execOfflineAccess bus off write s
  | .aonTimeLoRead => Sys2Proof.Machine.execAonTimeLoRead s
  | .glkTxctrLoRead port => Sys2Proof.Machine.execGlkTxctrLoRead port s
  | .privateTransfer dest write => Sys2Proof.Machine.execPrivateTransfer dest write s
  | .i3cDynamicAddress addr => Sys2Proof.Machine.execI3cDynamicAddress addr s
  | .extest trstN op => Sys2Proof.Machine.execExtest trstN op s
  | .pwrOkRise straps cold => Sys2Proof.Machine.execPwrOkRise straps cold s
  | .pwrOkFall => Sys2Proof.Machine.execPwrOkFall s
  | .trayRstNFall => Sys2Proof.Machine.execTrayRstNFall s
  | .trayRstNRise => Sys2Proof.Machine.execTrayRstNRise s
  | .pkgRstNFall => Sys2Proof.Machine.execPkgRstNFall s
  | .pkgRstNRise => Sys2Proof.Machine.execPkgRstNRise s
  | .perstNFall => Sys2Proof.Machine.execPerstNFall s
  | .perstNRise => Sys2Proof.Machine.execPerstNRise s
  | .pcieLinkUp degraded => Sys2Proof.Machine.execPcieLinkUp degraded s
  | .pcieLinkDown => Sys2Proof.Machine.execPcieLinkDown s
  | .bar2Access off acc => Sys2Proof.Machine.execBar2Access off acc s
  | .xtalFail => Sys2Proof.Machine.execXtalFail s
  | .clkLoss clk => Sys2Proof.Machine.execClkLoss clk s
  | .pllLock pll ok => Sys2Proof.Machine.execPllLock pll ok s
  | .powerGood vpm chan => Sys2Proof.Machine.execPowerGood vpm chan s
  | .pgDeadline vpm chan => Sys2Proof.Machine.execPgDeadline vpm chan s
  | .powerDownStep => Sys2Proof.Machine.execPowerDownStep s
  | .pcmdFrameEnd ack rdata rcrc => Sys2Proof.Machine.execPcmdFrameEnd ack rdata rcrc s
  | .telemetrySweep order => Sys2Proof.Machine.execTelemetrySweep order s
  | .pcmdAlert => Sys2Proof.Machine.execPcmdAlert s
  | .fgrInRegulation cluster => Sys2Proof.Machine.execFgrInRegulation cluster s
  | .droopCluster cluster => Sys2Proof.Machine.execDroopCluster cluster s
  | .droopClusterRelease cluster => Sys2Proof.Machine.execDroopClusterRelease cluster s
  | .droopTileExpiry tile => Sys2Proof.Machine.execDroopTileExpiry tile s
  | .droopRail => Sys2Proof.Machine.execDroopRail s
  | .droopRailDecay => Sys2Proof.Machine.execDroopRailDecay s
  | .sequencerLeaseRenew => Sys2Proof.Machine.execSequencerLeaseRenew s
  | .sequencerLeaseExpiry => Sys2Proof.Machine.execSequencerLeaseExpiry s
  | .watchdogKick => Sys2Proof.Machine.execWatchdogKick s
  | .watchdogTrip => Sys2Proof.Machine.execWatchdogTrip s
  | .firmwareFatal => Sys2Proof.Machine.execFirmwareFatal s
  | .wardenReset => Sys2Proof.Machine.execWardenReset s
  | .pwrStatus n => Sys2Proof.Machine.execPwrStatus n s
  | .clusterGate n => Sys2Proof.Machine.execClusterGate n s
  | .tileBudget n => Sys2Proof.Machine.execTileBudget n s
  | .tileVoltage n => Sys2Proof.Machine.execTileVoltage n s
  | .fuseReadDone ok => Sys2Proof.Machine.execFuseReadDone ok s
  | .bootCopyDone crcOk version => Sys2Proof.Machine.execBootCopyDone crcOk version s
  | .authDone sigOk svn measure => Sys2Proof.Machine.execAuthDone sigOk svn measure s
  | .trainComplete facts => Sys2Proof.Machine.execTrainComplete facts s
  | .phaseBudgetExpiry => Sys2Proof.Machine.execPhaseBudgetExpiry s
  | .holdReport => Sys2Proof.Machine.execHoldReport s
  | .holdRecheck cold => Sys2Proof.Machine.execHoldRecheck cold s
  | .trayDoneChange othersHigh => Sys2Proof.Machine.execTrayDoneChange othersHigh s
  | .doneStable => Sys2Proof.Machine.execDoneStable s
  | .joinRecord port tray slot status map seq => Sys2Proof.Machine.execJoinRecord port tray slot status map seq s
  | .joinRecordTimer => Sys2Proof.Machine.execJoinRecordTimer s
  | .startStatus n => Sys2Proof.Machine.execStartStatus n s
  | .startRetry n => Sys2Proof.Machine.execStartRetry n s
  | .fwSlotStatus n => Sys2Proof.Machine.execFwSlotStatus n s
  | .fwSlotWrite n => Sys2Proof.Machine.execFwSlotWrite n s
  | .fwSlotSelect n => Sys2Proof.Machine.execFwSlotSelect n s
  | .trainId port tray slot fport id ifver => Sys2Proof.Machine.execTrainId port tray slot fport id ifver s
  | .streamSent => Sys2Proof.Machine.execStreamSent s
  | .streamErrResend => Sys2Proof.Machine.execStreamErrResend s
  | .streamReq port slot num => Sys2Proof.Machine.execStreamReq port slot num s
  | .streamReqTimer => Sys2Proof.Machine.execStreamReqTimer s
  | .trayHeader hdr => Sys2Proof.Machine.execTrayHeader hdr s
  | .sectionEnd body => Sys2Proof.Machine.execSectionEnd body s
  | .trailer bytes => Sys2Proof.Machine.execTrailer bytes s
  | .cclkStopTimeout => Sys2Proof.Machine.execCclkStopTimeout s
  | .vaneLoadDone => Sys2Proof.Machine.execVaneLoadDone s
  | .vanePllLockTimeout => Sys2Proof.Machine.execVanePllLockTimeout s
  | .spOpen region sending => Sys2Proof.Machine.execSpOpen region sending s
  | .spOutboundTimeout region ended => Sys2Proof.Machine.execSpOutboundTimeout region ended s
  | .spResponseWaitEnd region => Sys2Proof.Machine.execSpResponseWaitEnd region s
  | .spOpenLong region => Sys2Proof.Machine.execSpOpenLong region s
  | .spWrite addr data fcrc => Sys2Proof.Machine.execSpWrite addr data fcrc s
  | .spFill addr count pattern fcrc => Sys2Proof.Machine.execSpFill addr count pattern fcrc s
  | .spRead addr => Sys2Proof.Machine.execSpRead addr s
  | .spClose region runCrc => Sys2Proof.Machine.execSpClose region runCrc s
  | .spAbort region => Sys2Proof.Machine.execSpAbort region s
  | .spStatus => Sys2Proof.Machine.execSpStatus s
  | .vaneStatus n => Sys2Proof.Machine.execVaneStatus n s
  | .vaneStreamSend n => Sys2Proof.Machine.execVaneStreamSend n s
  | .vaneDisable n sending => Sys2Proof.Machine.execVaneDisable n sending s
  | .pmxPinWrite pin val => Sys2Proof.Machine.execPmxPinWrite pin val s
  | .parkIdle pin => Sys2Proof.Machine.execParkIdle pin s
  | .parkMinExpiry pin => Sys2Proof.Machine.execParkMinExpiry pin s
  | .parkTimeout pin => Sys2Proof.Machine.execParkTimeout pin s
  | .pinGet look => Sys2Proof.Machine.execPinGet look s
  | .pinSetFunction n => Sys2Proof.Machine.execPinSetFunction n s
  | .pinGpio look => Sys2Proof.Machine.execPinGpio look s
  | .mbxClaim path n val => Sys2Proof.Machine.execMbxClaim path n val s
  | .mbxHb path n val => Sys2Proof.Machine.execMbxHb path n val s
  | .mbxRelease path n val => Sys2Proof.Machine.execMbxRelease path n val s
  | .leaseExpiry n => Sys2Proof.Machine.execLeaseExpiry n s
  | .dblMbx path n val => Sys2Proof.Machine.execDblMbx path n val s
  | .commandTake cls fetched => Sys2Proof.Machine.execCommandTake cls fetched s
  | .responsePost post => Sys2Proof.Machine.execResponsePost post s
  | .deadlineExpiry n => Sys2Proof.Machine.execDeadlineExpiry n s
  | .mbxEcho n => Sys2Proof.Machine.execMbxEcho n s
  | .ifInfo n => Sys2Proof.Machine.execIfInfo n s
  | .ticketChallenge n => Sys2Proof.Machine.execTicketChallenge n s
  | .challengeExpiry id => Sys2Proof.Machine.execChallengeExpiry id s
  | .ticketPartition n => Sys2Proof.Machine.execTicketPartition n s
  | .ticketVaultPolicy n => Sys2Proof.Machine.execTicketVaultPolicy n s
  | .ticketSealedPolicy n => Sys2Proof.Machine.execTicketSealedPolicy n s
  | .ticketDebugUnlock n => Sys2Proof.Machine.execTicketDebugUnlock n s
  | .ticketExpertGrant n => Sys2Proof.Machine.execTicketExpertGrant n s
  | .ticketRollback n => Sys2Proof.Machine.execTicketRollback n s
  | .ticketExclusion n => Sys2Proof.Machine.execTicketExclusion n s
  | .ticketCustodyKeys n => Sys2Proof.Machine.execTicketCustodyKeys n s
  | .ticketRevoke n => Sys2Proof.Machine.execTicketRevoke n s
  | .fuseBlowDone verified => Sys2Proof.Machine.execFuseBlowDone verified s
  | .grantLapse which => Sys2Proof.Machine.execGrantLapse which s
  | .partitionGet n => Sys2Proof.Machine.execPartitionGet n s
  | .grantStatus n => Sys2Proof.Machine.execGrantStatus n s
  | .getVersion n => Sys2Proof.Machine.execGetVersion n s
  | .getCapabilities n => Sys2Proof.Machine.execGetCapabilities n s
  | .negotiateAlgorithms n => Sys2Proof.Machine.execNegotiateAlgorithms n s
  | .getDigests n => Sys2Proof.Machine.execGetDigests n s
  | .getCertificate n => Sys2Proof.Machine.execGetCertificate n s
  | .challenge n => Sys2Proof.Machine.execChallenge n s
  | .getMeasurements n => Sys2Proof.Machine.execGetMeasurements n s
  | .measureGet n => Sys2Proof.Machine.execMeasureGet n s
  | .rollbackStatus n => Sys2Proof.Machine.execRollbackStatus n s
  | .galeInject node port sb data => Sys2Proof.Machine.execGaleInject node port sb data s
  | .flitDelivery idx dest addr len => Sys2Proof.Machine.execFlitDelivery idx dest addr len s
  | .promotion idx => Sys2Proof.Machine.execPromotion idx s
  | .linkError link net uncorrectable hit => Sys2Proof.Machine.execLinkError link net uncorrectable hit s
  | .routeBankWrite node off data => Sys2Proof.Machine.execRouteBankWrite node off data s
  | .epochSwitch node => Sys2Proof.Machine.execEpochSwitch node s
  | .epochDrainDone => Sys2Proof.Machine.execEpochDrainDone s
  | .routeDrainLate => Sys2Proof.Machine.execRouteDrainLate s
  | .windowOpen win => Sys2Proof.Machine.execWindowOpen win s
  | .windowClose win late inbound => Sys2Proof.Machine.execWindowClose win late inbound s
  | .netStatus n => Sys2Proof.Machine.execNetStatus n s
  | .schedLoad n struck => Sys2Proof.Machine.execSchedLoad n struck s
  | .routeEpoch n struck => Sys2Proof.Machine.execRouteEpoch n struck s
  | .mcastGroupDefine n id => Sys2Proof.Machine.execMcastGroupDefine n id s
  | .reductionGroupDefine n id tree => Sys2Proof.Machine.execReductionGroupDefine n id tree s
  | .mcastGroupDelete n => Sys2Proof.Machine.execMcastGroupDelete n s
  | .reduceContribution group inst block slot node data first last => Sys2Proof.Machine.execReduceContribution group inst block slot node data first last s
  | .eddyTimeout group inst => Sys2Proof.Machine.execEddyTimeout group inst s
  | .eddyMode n => Sys2Proof.Machine.execEddyMode n s
  | .eddyAbort n => Sys2Proof.Machine.execEddyAbort n s
  | .arrive r => Sys2Proof.Machine.execArrive r s
  | .wait r => Sys2Proof.Machine.execWait r s
  | .acquire r => Sys2Proof.Machine.execAcquire r s
  | .tryAcquire r => Sys2Proof.Machine.execTryAcquire r s
  | .release r => Sys2Proof.Machine.execRelease r s
  | .set r => Sys2Proof.Machine.execSet r s
  | .clear r => Sys2Proof.Machine.execClear r s
  | .add r => Sys2Proof.Machine.execAdd r s
  | .read r => Sys2Proof.Machine.execRead r s
  | .cancelWait r => Sys2Proof.Machine.execCancelWait r s
  | .notify node obj status value => Sys2Proof.Machine.execNotify node obj status value s
  | .lullAlloc n id home => Sys2Proof.Machine.execLullAlloc n id home s
  | .lullFree n => Sys2Proof.Machine.execLullFree n s
  | .getCap tile cap => Sys2Proof.Machine.execGetCap tile cap s
  | .putProfile tile => Sys2Proof.Machine.execPutProfile tile s
  | .trainCtl tile clockGo => Sys2Proof.Machine.execTrainCtl tile clockGo s
  | .putLanemap tile => Sys2Proof.Machine.execPutLanemap tile s
  | .getStatus tile status => Sys2Proof.Machine.execGetStatus tile status s
  | .tileTrainTimeout tile => Sys2Proof.Machine.execTileTrainTimeout tile s
  | .crdyTimeout cluster => Sys2Proof.Machine.execCrdyTimeout cluster s
  | .cerrN cluster => Sys2Proof.Machine.execCerrN cluster s
  | .crdyFall cluster => Sys2Proof.Machine.execCrdyFall cluster s
  | .bondFrame cluster f => Sys2Proof.Machine.execBondFrame cluster f s
  | .sliceStreamCommand cluster sid cmd data => Sys2Proof.Machine.execSliceStreamCommand cluster sid cmd data s
  | .hbmRead src tag static dpa found => Sys2Proof.Machine.execHbmRead src tag static dpa found s
  | .hbmWrite src tag static dpa data found => Sys2Proof.Machine.execHbmWrite src tag static dpa data found s
  | .sliceAccess node port off len write src tag found => Sys2Proof.Machine.execSliceAccess node port off len write src tag found s
  | .refresh mc => Sys2Proof.Machine.execRefresh mc s
  | .maintenanceSlot mc found again written => Sys2Proof.Machine.execMaintenanceSlot mc found again written s
  | .scrub unit => Sys2Proof.Machine.execScrub unit s
  | .sliceUnitRequest node reqs => Sys2Proof.Machine.execSliceUnitRequest node reqs s
  | .zeroFillDone stack => Sys2Proof.Machine.execZeroFillDone stack s
  | .eccwArm path val => Sys2Proof.Machine.execEccwArm path val s
  | .eccwExpiry => Sys2Proof.Machine.execEccwExpiry s
  | .memStatus n => Sys2Proof.Machine.execMemStatus n s
  | .memInterleave n => Sys2Proof.Machine.execMemInterleave n s
  | .scrubConfig n => Sys2Proof.Machine.execScrubConfig n s
  | .pageRetire n => Sys2Proof.Machine.execPageRetire n s
  | .pprRun n ok => Sys2Proof.Machine.execPprRun n ok s
  | .eccInject n => Sys2Proof.Machine.execEccInject n s
  | .addressTranslation point who dva write tag => Sys2Proof.Machine.execAddressTranslation point who dva write tag s
  | .invalidationDone idx => Sys2Proof.Machine.execInvalidationDone idx s
  | .clusterWindowSet cluster base len => Sys2Proof.Machine.execClusterWindowSet cluster base len s
  | .dmaKick src ch tail => Sys2Proof.Machine.execDmaKick src ch tail s
  | .dmaSetup src ch base log2 => Sys2Proof.Machine.execDmaSetup src ch base log2 s
  | .dmaPause src ch => Sys2Proof.Machine.execDmaPause src ch s
  | .dmaResume src ch => Sys2Proof.Machine.execDmaResume src ch s
  | .dmaCancel src ch ring => Sys2Proof.Machine.execDmaCancel src ch ring s
  | .cancelReq src ch req => Sys2Proof.Machine.execCancelReq src ch req s
  | .dmaCopy ch => Sys2Proof.Machine.execDmaCopy ch s
  | .dmaFill ch => Sys2Proof.Machine.execDmaFill ch s
  | .dmaTlbi ch => Sys2Proof.Machine.execDmaTlbi ch s
  | .dmaNop ch => Sys2Proof.Machine.execDmaNop ch s
  | .dmaChunkAck ch idx res => Sys2Proof.Machine.execDmaChunkAck ch idx res s
  | .mmuStatus n => Sys2Proof.Machine.execMmuStatus n s
  | .dmaStatus n => Sys2Proof.Machine.execDmaStatus n s
  | .stepEdge => Sys2Proof.Machine.execStepEdge s
  | .stepOverrun => Sys2Proof.Machine.execStepOverrun s
  | .emit ring => Sys2Proof.Machine.execEmit ring s
  | .submit ring => Sys2Proof.Machine.execSubmit ring s
  | .cancel ring => Sys2Proof.Machine.execCancel ring s
  | .pause ring => Sys2Proof.Machine.execPause ring s
  | .resume ring => Sys2Proof.Machine.execResume ring s
  | .nop ring => Sys2Proof.Machine.execNop ring s
  | .ringSqtail ring val => Sys2Proof.Machine.execRingSqtail ring val s
  | .ringCqhead ring val => Sys2Proof.Machine.execRingCqhead ring val s
  | .pauseHoldExpiry req short => Sys2Proof.Machine.execPauseHoldExpiry req short s
  | .handoffShipped side => Sys2Proof.Machine.execHandoffShipped side s
  | .remoteTokens slot req toks => Sys2Proof.Machine.execRemoteTokens slot req toks s
  | .handoffPathTimeout slot => Sys2Proof.Machine.execHandoffPathTimeout slot s
  | .serveStatus n => Sys2Proof.Machine.execServeStatus n s
  | .tenantSetTenant n => Sys2Proof.Machine.execTenantSetTenant n s
  | .tenantSetRing n => Sys2Proof.Machine.execTenantSetRing n s
  | .tenantSetProgram n home => Sys2Proof.Machine.execTenantSetProgram n home s
  | .tenantSetFramesGrant n => Sys2Proof.Machine.execTenantSetFramesGrant n s
  | .tenantSetFramesFree n => Sys2Proof.Machine.execTenantSetFramesFree n s
  | .poolRatio n peerOk => Sys2Proof.Machine.execPoolRatio n peerOk s
  | .frameZeroed frame => Sys2Proof.Machine.execFrameZeroed frame s
  | .driftCopyDone req => Sys2Proof.Machine.execDriftCopyDone req s
  | .driftRetry req => Sys2Proof.Machine.execDriftRetry req s
  | .driftTtlExpiry req => Sys2Proof.Machine.execDriftTtlExpiry req s
  | .adapterRegister n => Sys2Proof.Machine.execAdapterRegister n s
  | .adapterRemove n => Sys2Proof.Machine.execAdapterRemove n s
  | .driftStatus n => Sys2Proof.Machine.execDriftStatus n s
  | .prefixFlush n => Sys2Proof.Machine.execPrefixFlush n s
  | .draftLoad n => Sys2Proof.Machine.execDraftLoad n s
  | .draftUnload n => Sys2Proof.Machine.execDraftUnload n s
  | .draftLoaded part => Sys2Proof.Machine.execDraftLoaded part s
  | .draftRound part err => Sys2Proof.Machine.execDraftRound part err s
  | .logitPacket slot j vbase logits => Sys2Proof.Machine.execLogitPacket slot j vbase logits s
  | .meeDoorbell src body => Sys2Proof.Machine.execMeeDoorbell src body s
  | .exchExpiry id => Sys2Proof.Machine.execExchExpiry id s
  | .refreshDone sess => Sys2Proof.Machine.execRefreshDone sess s
  | .sealedStatus n => Sys2Proof.Machine.execSealedStatus n s
  | .meeParamsSession n => Sys2Proof.Machine.execMeeParamsSession n s
  | .meeParamsRing n => Sys2Proof.Machine.execMeeParamsRing n s
  | .meeParamsEnd n => Sys2Proof.Machine.execMeeParamsEnd n s
  | .refreshRun n => Sys2Proof.Machine.execRefreshRun n s
  | .vaultOpen n => Sys2Proof.Machine.execVaultOpen n s
  | .vaultClose n => Sys2Proof.Machine.execVaultClose n s
  | .vaultLifeExpiry v => Sys2Proof.Machine.execVaultLifeExpiry v s
  | .vaultRekey v => Sys2Proof.Machine.execVaultRekey v s
  | .vaultRekeyDone v => Sys2Proof.Machine.execVaultRekeyDone v s
  | .drbgReseed n => Sys2Proof.Machine.execDrbgReseed n s
  | .drbgReseedAuto => Sys2Proof.Machine.execDrbgReseedAuto s
  | .drbgExhausted => Sys2Proof.Machine.execDrbgExhausted s
  | .entropyFail => Sys2Proof.Machine.execEntropyFail s
  | .peerSessionPair n => Sys2Proof.Machine.execPeerSessionPair n s
  | .peerSessionResume n => Sys2Proof.Machine.execPeerSessionResume n s
  | .peerSessionClose n => Sys2Proof.Machine.execPeerSessionClose n s
  | .cxHello sess peer => Sys2Proof.Machine.execCxHello sess peer s
  | .cxFinish sess sig => Sys2Proof.Machine.execCxFinish sess sig s
  | .cxBatch tag round seq base count last payload => Sys2Proof.Machine.execCxBatch tag round seq base count last payload s
  | .cxAck tag round => Sys2Proof.Machine.execCxAck tag round s
  | .cxPre tag count => Sys2Proof.Machine.execCxPre tag count s
  | .cxClose tag => Sys2Proof.Machine.execCxClose tag s
  | .cxAbort tag => Sys2Proof.Machine.execCxAbort tag s
  | .cxBatchPost cluster sess round dva len tuples => Sys2Proof.Machine.execCxBatchPost cluster sess round dva len tuples s
  | .cxRoundTimeout sess => Sys2Proof.Machine.execCxRoundTimeout sess s
  | .cxSuspendTimeout sess => Sys2Proof.Machine.execCxSuspendTimeout sess s
  | .gustBlock port blk => Sys2Proof.Machine.execGustBlock port blk s
  | .replayTimeout port => Sys2Proof.Machine.execReplayTimeout port s
  | .handshake port peer => Sys2Proof.Machine.execHandshake port peer s
  | .linkLull port lseq msgs => Sys2Proof.Machine.execLinkLull port lseq msgs s
  | .rekey port chan epoch ack => Sys2Proof.Machine.execRekey port chan epoch ack s
  | .ready port epoch => Sys2Proof.Machine.execReady port epoch s
  | .leave port pkg => Sys2Proof.Machine.execLeave port pkg s
  | .trainStepTimeout port => Sys2Proof.Machine.execTrainStepTimeout port s
  | .probationEnd ut inst pass step => Sys2Proof.Machine.execProbationEnd ut inst pass step s
  | .portAutoRetrain port => Sys2Proof.Machine.execPortAutoRetrain port s
  | .sealedFrame port chan epoch ctr tag sb data => Sys2Proof.Machine.execSealedFrame port chan epoch ctr tag sb data s
  | .rekeyRequest port chan => Sys2Proof.Machine.execRekeyRequest port chan s
  | .rekeyRetry port chan => Sys2Proof.Machine.execRekeyRetry port chan s
  | .sealedHold port chan => Sys2Proof.Machine.execSealedHold port chan s
  | .sealedDown port chan => Sys2Proof.Machine.execSealedDown port chan s
  | .cxlDown n cause => Sys2Proof.Machine.execCxlDown n cause s
  | .cxlPoison page => Sys2Proof.Machine.execCxlPoison page s
  | .devloadOverload n => Sys2Proof.Machine.execDevloadOverload n s
  | .devloadEnd n => Sys2Proof.Machine.execDevloadEnd n s
  | .completionTimeout path => Sys2Proof.Machine.execCompletionTimeout path s
  | .quarantineEnd path => Sys2Proof.Machine.execQuarantineEnd path s
  | .completionArrival path outstanding => Sys2Proof.Machine.execCompletionArrival path outstanding s
  | .glkClear path val => Sys2Proof.Machine.execGlkClear path val s
  | .linkStatus n => Sys2Proof.Machine.execLinkStatus n s
  | .linkRetrain n => Sys2Proof.Machine.execLinkRetrain n s
  | .linkRekey n => Sys2Proof.Machine.execLinkRekey n s
  | .linkOffline n => Sys2Proof.Machine.execLinkOffline n s
  | .cxlStatus n => Sys2Proof.Machine.execCxlStatus n s
  | .bar2Window n => Sys2Proof.Machine.execBar2Window n s
  | .thWarnAssert sensor => Sys2Proof.Machine.execThWarnAssert sensor s
  | .thWarnRelease sensor => Sys2Proof.Machine.execThWarnRelease sensor s
  | .thermalLevelTick target => Sys2Proof.Machine.execThermalLevelTick target s
  | .thHalt sensor => Sys2Proof.Machine.execThHalt sensor s
  | .resumeChange sensor below80 => Sys2Proof.Machine.execResumeChange sensor below80 s
  | .thResume => Sys2Proof.Machine.execThResume s
  | .thSensorFault sensor => Sys2Proof.Machine.execThSensorFault sensor s
  | .thsStart path val => Sys2Proof.Machine.execThsStart path val s
  | .conversionDone temps => Sys2Proof.Machine.execConversionDone temps s
  | .thermalRead n => Sys2Proof.Machine.execThermalRead n s
  | .thermalStatus n => Sys2Proof.Machine.execThermalStatus n s
  | .logCommit retries sector spare eraseCount => Sys2Proof.Machine.execLogCommit retries sector spare eraseCount s
  | .evlAck path val => Sys2Proof.Machine.execEvlAck path val s
  | .routerUe node => Sys2Proof.Machine.execRouterUe node s
  | .meeUe group => Sys2Proof.Machine.execMeeUe group s
  | .logRead n => Sys2Proof.Machine.execLogRead n s
  | .logStatus n => Sys2Proof.Machine.execLogStatus n s
  | .unitStatus n => Sys2Proof.Machine.execUnitStatus n s
  | .unitReturn n => Sys2Proof.Machine.execUnitReturn n s
  | .unitOffline n => Sys2Proof.Machine.execUnitOffline n s
  | .sectionHeader hdr => Sys2Proof.Machine.execSectionHeader hdr s
  | .droopTileOneCluster cluster => Sys2Proof.Machine.execDroopTileOneCluster cluster s
  | .pam4EqualisationDone port => Sys2Proof.Machine.execPam4EqualisationDone port s
  | .tclkOk tile => Sys2Proof.Machine.execTclkOk tile s
  | .crdyRise cluster => Sys2Proof.Machine.execCrdyRise cluster s
  | .laneTestDone cluster step ident faults => Sys2Proof.Machine.execLaneTestDone cluster step ident faults s
  | .configurationWrite w => Sys2Proof.Machine.execConfigurationWrite w s
  | .controllerFault mc => Sys2Proof.Machine.execControllerFault mc s
  | .handoffPageRequest slot req part cls pages same => Sys2Proof.Machine.execHandoffPageRequest slot req part cls pages same s
  | .handoffPageGrant req granted same => Sys2Proof.Machine.execHandoffPageGrant req granted same s
  | .remoteCancelConfirm req => Sys2Proof.Machine.execRemoteCancelConfirm req s

end Sys2Proof.Machine
end

