-- ==== Sys2Proof/Safety.lean ====
section
/-!
DEFINITION. The terms in which statements about Daxmet are made: the groups of its state, what it means that a step keeps
a group, and the forms that the memory, the event ring and the fuses always have.
-/
namespace Sys2Proof

open Sys2Proof.Machine

/-- The groups of state: one per field of `Machine.State`, and two that name a part of a group: the bytes of the memory, and the
anti-rollback counters with the pending fuse run. -/
inductive Group
  | aon | pins | pmx | clk | pwr | start | store | mbx | log | units | therm | prot | vane | net | coll | lull | bond | mem
  | mmu | dma | serve | sealed | link | out | freeCtr | pending | bytes | fuses
  deriving DecidableEq, Repr

/-- A group holds the same in two states. -/
def Group.same (g : Group) (s t : State) : Prop :=
  match g with
  | .aon => t.aon = s.aon
  | .pins => t.pins = s.pins
  | .pmx => t.pmx = s.pmx
  | .clk => t.clk = s.clk
  | .pwr => t.pwr = s.pwr
  | .start => t.start = s.start
  | .store => t.store = s.store
  | .mbx => t.mbx = s.mbx
  | .log => t.log = s.log
  | .units => t.units = s.units
  | .therm => t.therm = s.therm
  | .prot => t.prot = s.prot
  | .vane => t.vane = s.vane
  | .net => t.net = s.net
  | .coll => t.coll = s.coll
  | .lull => t.lull = s.lull
  | .bond => t.bond = s.bond
  | .mem => t.mem = s.mem
  | .mmu => t.mmu = s.mmu
  | .dma => t.dma = s.dma
  | .serve => t.serve = s.serve
  | .sealed => t.sealed = s.sealed
  | .link => t.link = s.link
  | .out => t.out = s.out
  | .freeCtr => t.freeCtr = s.freeCtr
  | .pending => t.pending = s.pending
  | .bytes => t.mem.bytes = s.mem.bytes
  | .fuses => t.prot.counters = s.prot.counters ∧ t.prot.run = s.prot.run

/-- Every group outside the list holds the same in two states. -/
def KeepsBut (gs : List Group) (s t : State) : Prop := ∀ g, g ∉ gs → g.same s t

/-- The groups of state that a command may change, row by row of the opcode table. -/
def Instr.touches : Instr → List Group
  | .registerWrite _ _ _ _ => [.aon, .pmx, .store, .mbx, .log, .therm, .net, .lull, .mem, .mmu, .dma, .serve,
      .sealed, .link, .out, .freeCtr, .bytes]
  | .reservedAccess _ _ _ => [.aon, .out]
  | .offlineAccess _ _ _ => [.aon, .out]
  | .aonTimeLoRead => [.aon, .out]
  | .glkTxctrLoRead _ => [.aon, .link, .out]
  | .privateTransfer _ _ => [.aon, .pmx, .store, .mbx, .log, .therm, .net, .lull, .mem, .mmu, .dma, .serve,
      .sealed, .link, .out, .freeCtr, .bytes]
  | .i3cDynamicAddress _ => [.pins]
  | .extest _ _ => [.pins, .out]
  | .pwrOkRise _ _ => [.aon, .pins, .pmx, .clk, .pwr, .start, .store, .log, .units, .therm, .prot, .mem, .serve,
      .link, .out, .bytes]
  | .pwrOkFall => [.aon, .pins, .pmx, .clk, .pwr, .start, .mbx, .log, .units, .therm, .prot, .vane, .net, .coll,
      .lull, .bond, .mem, .mmu, .dma, .serve, .sealed, .link, .out, .freeCtr, .bytes]
  | .trayRstNFall => [.aon, .pins, .pmx, .clk, .pwr, .start, .mbx, .log, .units, .prot, .vane, .net, .coll, .lull,
      .bond, .mem, .mmu, .dma, .serve, .sealed, .link, .out, .freeCtr, .bytes]
  | .trayRstNRise => [.aon, .pins, .pmx, .pwr, .start, .store, .log, .link, .out]
  | .pkgRstNFall => [.aon, .pins, .pmx, .clk, .pwr, .start, .mbx, .log, .units, .prot, .vane, .net, .coll, .lull,
      .bond, .mem, .mmu, .dma, .serve, .sealed, .link, .out, .freeCtr, .bytes]
  | .pkgRstNRise => [.aon, .pins, .pmx, .pwr, .start, .store, .log, .link, .out]
  | .perstNFall => [.aon, .pins, .mbx, .link]
  | .perstNRise => [.pins, .link]
  | .pcieLinkUp _ => [.log, .link, .out]
  | .pcieLinkDown => [.aon, .mbx, .link]
  | .bar2Access _ _ => [.aon, .store, .log, .mem, .mmu, .serve, .sealed, .link, .out, .freeCtr, .bytes]
  | .xtalFail => [.aon, .pins, .clk, .pwr, .start, .store, .mbx, .log, .units, .vane, .net, .coll, .lull, .bond,
      .mem, .mmu, .dma, .serve, .sealed, .link, .out, .freeCtr, .bytes]
  | .clkLoss _ => [.aon, .pins, .clk, .pwr, .start, .store, .mbx, .log, .units, .vane, .net, .coll, .lull, .bond,
      .mem, .mmu, .dma, .serve, .sealed, .link, .out, .freeCtr, .bytes]
  | .pllLock _ _ => [.aon, .pins, .clk, .pwr, .start, .store, .mbx, .log, .vane, .net, .coll, .lull, .bond, .mem,
      .mmu, .dma, .serve, .sealed, .link, .out, .freeCtr, .bytes]
  | .powerGood _ _ => [.aon, .pwr, .start, .log, .sealed, .link, .out]
  | .pgDeadline _ _ => [.aon, .pins, .clk, .pwr, .start, .store, .mbx, .log, .vane, .net, .coll, .lull, .bond, .mem,
      .mmu, .dma, .serve, .sealed, .link, .out, .freeCtr, .bytes]
  | .powerDownStep => [.aon, .pins, .clk, .pwr, .start, .mbx, .log, .link, .out]
  | .pcmdFrameEnd _ _ _ => [.aon, .pins, .clk, .pwr, .start, .store, .mbx, .log, .units, .vane, .net, .coll, .lull,
      .bond, .mem, .mmu, .dma, .serve, .sealed, .link, .out, .freeCtr, .bytes]
  | .telemetrySweep _ => [.pwr, .out]
  | .pcmdAlert => [.pins, .pwr, .out]
  | .fgrInRegulation _ => [.pwr, .mbx, .units, .bond]
  | .droopCluster _ => [.pwr, .log, .link, .out]
  | .droopClusterRelease _ => [.pwr]
  | .droopTileExpiry _ => [.pwr]
  | .droopRail => [.pwr, .log, .link, .out]
  | .droopRailDecay => [.pwr]
  | .sequencerLeaseRenew => [.aon]
  | .sequencerLeaseExpiry => [.aon, .pins, .clk, .pwr, .start, .store, .mbx, .log, .units, .vane, .net, .coll,
      .lull, .bond, .mem, .mmu, .dma, .serve, .sealed, .link, .out, .freeCtr, .bytes]
  | .watchdogKick => [.aon]
  | .watchdogTrip => [.aon, .pins, .clk, .pwr, .start, .store, .mbx, .log, .units, .vane, .net, .coll, .lull, .bond,
      .mem, .mmu, .dma, .serve, .sealed, .link, .out, .freeCtr, .bytes]
  | .firmwareFatal => [.aon, .pins, .clk, .pwr, .start, .store, .mbx, .log, .units, .vane, .net, .coll, .lull,
      .bond, .mem, .mmu, .dma, .serve, .sealed, .link, .out, .freeCtr, .bytes]
  | .wardenReset => [.aon, .pins, .pmx, .clk, .pwr, .start, .store, .mbx, .log, .units, .prot, .vane, .net, .coll,
      .lull, .bond, .mem, .mmu, .dma, .serve, .sealed, .link, .out, .freeCtr, .bytes]
  | .pwrStatus _ => [.mbx, .freeCtr]
  | .clusterGate _ => [.pwr, .mbx, .units, .bond]
  | .tileBudget _ => [.pwr, .mbx, .out]
  | .tileVoltage _ => [.pwr, .mbx, .out]
  | .fuseReadDone _ => [.aon, .pins, .clk, .pwr, .start, .store, .mbx, .log, .units, .prot, .vane, .net, .coll,
      .lull, .bond, .mem, .mmu, .dma, .serve, .sealed, .link, .out, .freeCtr, .bytes, .fuses]
  | .bootCopyDone _ _ => [.aon, .pins, .clk, .pwr, .start, .store, .mbx, .log, .vane, .net, .coll, .lull, .bond,
      .mem, .mmu, .dma, .serve, .sealed, .link, .out, .freeCtr, .bytes]
  | .authDone _ _ _ => [.aon, .pins, .clk, .pwr, .start, .store, .mbx, .log, .units, .therm, .prot, .vane, .net,
      .coll, .lull, .bond, .mem, .mmu, .dma, .serve, .sealed, .link, .out, .freeCtr, .bytes]
  | .trainComplete _ => [.aon, .pins, .clk, .pwr, .start, .store, .mbx, .log, .units, .vane, .net, .coll, .lull,
      .bond, .mem, .mmu, .dma, .serve, .sealed, .link, .out, .freeCtr, .bytes]
  | .phaseBudgetExpiry => [.aon, .pins, .clk, .pwr, .start, .store, .mbx, .log, .vane, .net, .coll, .lull, .bond,
      .mem, .mmu, .dma, .serve, .sealed, .link, .out, .freeCtr, .bytes]
  | .holdReport => [.log, .link, .out]
  | .holdRecheck _ => [.aon, .pwr, .start, .therm, .out]
  | .trayDoneChange _ => [.aon, .pins, .start, .log, .serve, .link, .out]
  | .doneStable => [.aon, .start, .log, .serve, .link, .out]
  | .joinRecord _ _ _ _ _ _ => [.aon, .start, .log, .units, .serve, .link, .out]
  | .joinRecordTimer => [.out]
  | .startStatus _ => [.mbx]
  | .startRetry _ => [.aon, .start, .store, .mbx]
  | .fwSlotStatus _ => [.mbx]
  | .fwSlotWrite _ => [.store, .mbx]
  | .fwSlotSelect _ => [.store, .mbx]
  | .trainId _ _ _ _ _ _ => [.aon, .pins, .clk, .pwr, .start, .store, .mbx, .log, .units, .vane, .net, .coll, .lull,
      .bond, .mem, .mmu, .dma, .serve, .sealed, .link, .out, .freeCtr, .bytes]
  | .streamSent => [.mbx, .log, .vane, .link, .out]
  | .streamErrResend => [.vane, .out]
  | .streamReq _ _ _ => [.vane, .out]
  | .streamReqTimer => [.vane, .out]
  | .trayHeader _ => [.aon, .vane, .out]
  | .sectionEnd _ => [.aon, .pins, .clk, .pwr, .start, .store, .mbx, .log, .units, .vane, .net, .coll, .lull, .bond,
      .mem, .mmu, .dma, .serve, .sealed, .link, .out, .freeCtr, .bytes]
  | .trailer _ => [.aon, .pins, .clk, .pwr, .start, .store, .mbx, .log, .units, .vane, .net, .coll, .lull, .bond,
      .mem, .mmu, .dma, .serve, .sealed, .link, .out, .freeCtr, .bytes]
  | .cclkStopTimeout => [.aon, .log, .vane, .link, .out]
  | .vaneLoadDone => [.aon, .pins, .clk, .pwr, .start, .store, .mbx, .log, .vane, .net, .coll, .lull, .bond, .mem,
      .mmu, .dma, .serve, .sealed, .link, .out, .freeCtr, .bytes]
  | .vanePllLockTimeout => [.aon, .pins, .clk, .pwr, .start, .store, .mbx, .log, .vane, .net, .coll, .lull, .bond,
      .mem, .mmu, .dma, .serve, .sealed, .link, .out, .freeCtr, .bytes]
  | .spOpen _ _ => [.vane, .freeCtr]
  | .spOutboundTimeout _ _ => [.mbx, .vane, .net, .freeCtr]
  | .spResponseWaitEnd _ => [.mbx, .vane, .net, .freeCtr]
  | .spOpenLong _ => [.mbx, .log, .vane, .net, .link, .out, .freeCtr]
  | .spWrite _ _ _ => [.vane]
  | .spFill _ _ _ _ => [.vane]
  | .spRead _ => [.vane]
  | .spClose _ _ => [.mbx, .log, .vane, .net, .link, .out]
  | .spAbort _ => [.vane]
  | .spStatus => [.vane]
  | .vaneStatus _ => [.mbx]
  | .vaneStreamSend _ => [.mbx, .vane, .out]
  | .vaneDisable _ _ => [.mbx, .vane, .net]
  | .pmxPinWrite _ _ => [.aon, .pmx, .out]
  | .parkIdle _ => [.pmx, .mbx, .out]
  | .parkMinExpiry _ => [.pmx, .mbx, .out]
  | .parkTimeout _ => [.pmx, .mbx, .log, .link, .out]
  | .pinGet _ => [.pmx, .mbx]
  | .pinSetFunction _ => [.pmx, .mbx, .out]
  | .pinGpio _ => [.pmx, .mbx]
  | .mbxClaim _ _ _ => [.mbx]
  | .mbxHb _ _ _ => [.mbx]
  | .mbxRelease _ _ _ => [.mbx]
  | .leaseExpiry _ => [.mbx, .log, .link, .out]
  | .dblMbx _ _ _ => [.mbx]
  | .commandTake _ _ => [.mbx, .log, .prot, .link, .out]
  | .responsePost _ => [.pins, .mbx, .log, .link, .out]
  | .deadlineExpiry _ => [.pins, .mbx, .log, .link, .out]
  | .mbxEcho _ => [.mbx]
  | .ifInfo _ => [.mbx]
  | .ticketChallenge _ => [.mbx, .prot, .sealed, .freeCtr]
  | .challengeExpiry _ => [.prot]
  | .ticketPartition _ => [.store, .mbx, .log, .prot, .mem, .mmu, .link, .out, .bytes]
  | .ticketVaultPolicy _ => [.mbx, .log, .prot, .link, .out]
  | .ticketSealedPolicy _ => [.mbx, .log, .prot, .link, .out]
  | .ticketDebugUnlock _ => [.pins, .mbx, .log, .prot, .link, .out]
  | .ticketExpertGrant _ => [.aon, .mbx, .log, .prot, .link, .out]
  | .ticketRollback _ => [.mbx, .log, .prot, .link, .out, .fuses]
  | .ticketExclusion _ => [.aon, .pins, .start, .store, .mbx, .log, .prot, .serve, .link, .out]
  | .ticketCustodyKeys _ => [.mbx, .log, .prot, .link, .out, .fuses]
  | .ticketRevoke _ => [.aon, .pins, .mbx, .log, .prot, .link, .out]
  | .fuseBlowDone _ => [.prot, .fuses]
  | .grantLapse _ => [.aon, .pins, .log, .prot, .link, .out]
  | .partitionGet _ => [.mbx]
  | .grantStatus _ => [.mbx]
  | .getVersion _ => [.mbx, .prot, .freeCtr]
  | .getCapabilities _ => [.mbx, .prot, .freeCtr]
  | .negotiateAlgorithms _ => [.mbx, .prot, .freeCtr]
  | .getDigests _ => [.mbx, .prot, .freeCtr]
  | .getCertificate _ => [.mbx, .prot, .freeCtr]
  | .challenge _ => [.mbx, .prot, .freeCtr]
  | .getMeasurements _ => [.mbx, .prot, .freeCtr]
  | .measureGet _ => [.mbx]
  | .rollbackStatus _ => [.mbx]
  | .galeInject _ _ _ _ => [.log, .vane, .net, .coll, .link, .out]
  | .flitDelivery _ _ _ _ => [.store, .mbx, .log, .vane, .net, .coll, .mem, .mmu, .serve, .sealed, .link, .out,
      .freeCtr, .bytes]
  | .promotion _ => [.net]
  | .linkError _ _ _ _ => [.pwr, .mbx, .log, .units, .vane, .net, .coll, .lull, .bond, .serve, .link, .out, .freeCtr]
  | .routeBankWrite _ _ _ => [.net, .out]
  | .epochSwitch _ => [.mbx, .log, .units, .vane, .net, .coll, .lull, .bond, .link, .out, .freeCtr]
  | .epochDrainDone => [.pwr, .store, .mbx, .log, .units, .vane, .net, .coll, .lull, .bond, .mem, .serve, .sealed,
      .link, .out, .freeCtr]
  | .routeDrainLate => [.mbx, .log, .vane, .net, .link, .out, .freeCtr]
  | .windowOpen _ => [.net]
  | .windowClose _ _ _ => [.pwr, .store, .mbx, .log, .units, .vane, .net, .coll, .lull, .bond, .mem, .mmu, .serve,
      .sealed, .link, .out, .freeCtr, .bytes]
  | .netStatus _ => [.mbx]
  | .schedLoad _ _ => [.store, .mbx, .log, .net, .mem, .mmu, .serve, .link, .out, .freeCtr]
  | .routeEpoch _ _ => [.store, .mbx, .log, .net, .mem, .mmu, .serve, .link, .out, .freeCtr]
  | .mcastGroupDefine _ _ => [.mbx, .net, .coll]
  | .reductionGroupDefine _ _ _ => [.mbx, .net, .coll]
  | .mcastGroupDelete _ => [.mbx, .net, .coll]
  | .reduceContribution _ _ _ _ _ _ _ _ => [.log, .vane, .net, .coll, .lull, .link, .out, .freeCtr]
  | .eddyTimeout _ _ => [.log, .net, .coll, .lull, .link, .out]
  | .eddyMode _ => [.mbx, .coll]
  | .eddyAbort _ => [.mbx, .log, .net, .coll, .lull, .link, .out]
  | .arrive _ => [.lull, .link, .out]
  | .wait _ => [.lull, .link, .out]
  | .acquire _ => [.lull, .link, .out]
  | .tryAcquire _ => [.lull, .link, .out]
  | .release _ => [.lull, .link, .out]
  | .set _ => [.net, .lull, .link, .out]
  | .clear _ => [.lull, .link, .out]
  | .add _ => [.lull, .serve, .link, .out]
  | .read _ => [.lull, .link, .out]
  | .cancelWait _ => [.lull, .link, .out]
  | .notify _ _ _ _ => [.lull]
  | .lullAlloc _ _ _ => [.mbx, .lull]
  | .lullFree _ => [.mbx, .lull]
  | .getCap _ _ => [.pwr, .log, .bond, .link, .out]
  | .putProfile _ => [.pwr, .mbx, .bond, .out]
  | .trainCtl _ _ => [.bond, .out]
  | .putLanemap _ => [.out]
  | .getStatus _ _ => [.bond]
  | .tileTrainTimeout _ => [.pwr, .log, .bond, .link, .out]
  | .crdyTimeout _ => [.pwr, .units, .bond]
  | .cerrN _ => [.pwr, .log, .units, .net, .coll, .lull, .bond, .serve, .link, .out]
  | .crdyFall _ => [.pwr, .log, .units, .net, .coll, .lull, .bond, .serve, .link, .out]
  | .bondFrame _ _ => [.pwr, .store, .log, .units, .vane, .net, .coll, .lull, .bond, .mem, .serve, .sealed, .link,
      .out, .freeCtr, .bytes]
  | .sliceStreamCommand _ _ _ _ => [.store, .log, .bond, .mem, .serve, .sealed, .link, .out, .freeCtr, .bytes]
  | .hbmRead _ _ _ _ _ => [.store, .log, .mem, .serve, .link, .out, .freeCtr]
  | .hbmWrite _ _ _ _ _ _ => [.store, .log, .mem, .serve, .sealed, .link, .out, .freeCtr, .bytes]
  | .sliceAccess _ _ _ _ _ _ _ _ => [.store, .log, .mem, .link, .out, .freeCtr, .bytes]
  | .refresh _ => [.mem]
  | .maintenanceSlot _ _ _ _ => [.store, .log, .mem, .serve, .link, .out, .freeCtr, .bytes]
  | .scrub _ => [.store, .log, .mem, .serve, .link, .out, .freeCtr, .bytes]
  | .sliceUnitRequest _ _ => [.mem, .out, .freeCtr]
  | .zeroFillDone _ => [.units, .mem, .mmu, .serve, .bytes]
  | .eccwArm _ _ => [.aon, .log, .mem, .link, .out]
  | .eccwExpiry => [.mem]
  | .memStatus _ => [.mbx]
  | .memInterleave _ => [.mbx, .mem]
  | .scrubConfig _ => [.mbx, .mem]
  | .pageRetire _ => [.store, .mbx, .log, .mem, .serve, .link, .out]
  | .pprRun _ _ => [.store, .mbx, .log, .link, .out]
  | .eccInject _ => [.mbx, .log, .mem, .link, .out]
  | .addressTranslation _ _ _ _ _ => [.store, .log, .mem, .mmu, .serve, .link, .out, .freeCtr]
  | .invalidationDone _ => [.store, .mbx, .log, .net, .lull, .mem, .mmu, .dma, .serve, .sealed, .link, .out,
      .freeCtr, .bytes]
  | .clusterWindowSet _ _ _ => [.bond, .out]
  | .dmaKick _ _ _ => [.aon, .store, .log, .net, .lull, .mem, .mmu, .dma, .serve, .sealed, .link, .out, .freeCtr,
      .bytes]
  | .dmaSetup _ _ _ _ => [.log, .dma, .link, .out]
  | .dmaPause _ _ => [.store, .log, .net, .lull, .mem, .mmu, .dma, .serve, .sealed, .link, .out, .freeCtr, .bytes]
  | .dmaResume _ _ => [.store, .log, .net, .lull, .mem, .mmu, .dma, .serve, .sealed, .link, .out, .freeCtr, .bytes]
  | .dmaCancel _ _ _ => [.store, .log, .net, .lull, .mem, .mmu, .dma, .serve, .sealed, .link, .out, .freeCtr, .bytes]
  | .cancelReq _ _ _ => [.store, .log, .net, .lull, .mem, .mmu, .dma, .serve, .sealed, .link, .out, .freeCtr, .bytes]
  | .dmaCopy _ => [.store, .log, .net, .lull, .mem, .mmu, .dma, .serve, .sealed, .link, .out, .freeCtr, .bytes]
  | .dmaFill _ => [.store, .log, .net, .lull, .mem, .mmu, .dma, .serve, .sealed, .link, .out, .freeCtr, .bytes]
  | .dmaTlbi _ => [.store, .log, .net, .lull, .mem, .mmu, .dma, .serve, .sealed, .link, .out, .freeCtr, .bytes]
  | .dmaNop _ => [.store, .log, .net, .lull, .mem, .mmu, .dma, .serve, .sealed, .link, .out, .freeCtr, .bytes]
  | .dmaChunkAck _ _ _ => [.store, .log, .net, .lull, .mem, .mmu, .dma, .serve, .sealed, .link, .out, .freeCtr,
      .bytes]
  | .mmuStatus _ => [.mbx, .mmu]
  | .dmaStatus _ => [.mbx]
  | .stepEdge => [.pwr, .store, .mbx, .log, .units, .vane, .net, .coll, .lull, .bond, .mem, .mmu, .dma, .serve,
      .sealed, .link, .out, .freeCtr, .bytes]
  | .stepOverrun => [.pwr, .store, .mbx, .log, .units, .vane, .net, .coll, .lull, .bond, .mem, .mmu, .dma, .serve,
      .sealed, .link, .out, .freeCtr, .bytes]
  | .emit _ => [.store, .log, .mem, .mmu, .serve, .sealed, .link, .out, .freeCtr, .bytes]
  | .submit _ => [.store, .log, .mem, .mmu, .dma, .serve, .link, .out, .freeCtr]
  | .cancel _ => [.store, .log, .mem, .mmu, .serve, .link, .out, .freeCtr]
  | .pause _ => [.store, .log, .mem, .mmu, .serve, .link, .out, .freeCtr]
  | .resume _ => [.store, .log, .mem, .mmu, .serve, .link, .out, .freeCtr]
  | .nop _ => [.store, .log, .mem, .mmu, .serve, .link, .out, .freeCtr]
  | .ringSqtail _ _ => [.aon, .serve]
  | .ringCqhead _ _ => [.aon, .serve]
  | .pauseHoldExpiry _ _ => [.log, .serve, .link, .out]
  | .handoffShipped _ => [.mem, .serve, .bytes]
  | .remoteTokens _ _ _ => [.serve]
  | .handoffPathTimeout _ => [.serve]
  | .serveStatus _ => [.mbx]
  | .tenantSetTenant _ => [.mbx, .serve]
  | .tenantSetRing _ => [.mbx, .serve]
  | .tenantSetProgram _ _ => [.store, .mbx, .log, .lull, .mem, .mmu, .serve, .sealed, .link, .out, .freeCtr]
  | .tenantSetFramesGrant _ => [.store, .mbx, .log, .mem, .serve, .link, .out]
  | .tenantSetFramesFree _ => [.mbx, .mem, .mmu]
  | .poolRatio _ _ => [.mbx, .serve]
  | .frameZeroed _ => [.store, .log, .mem, .serve, .link, .out, .bytes]
  | .driftCopyDone _ => [.mem, .serve, .bytes]
  | .driftRetry _ => [.log, .serve, .link, .out]
  | .driftTtlExpiry _ => [.serve]
  | .adapterRegister _ => [.store, .mbx, .log, .mem, .mmu, .serve, .link, .out, .freeCtr]
  | .adapterRemove _ => [.mbx, .serve]
  | .driftStatus _ => [.mbx]
  | .prefixFlush _ => [.mbx, .mem, .serve]
  | .draftLoad _ => [.store, .mbx, .log, .mem, .mmu, .serve, .link, .out, .freeCtr, .bytes]
  | .draftUnload _ => [.store, .mbx, .log, .mem, .serve, .link, .out]
  | .draftLoaded _ => [.mbx, .log, .mem, .serve, .link, .out]
  | .draftRound _ _ => [.log, .mem, .serve, .link, .out, .bytes]
  | .logitPacket _ _ _ _ => [.log, .serve, .link, .out]
  | .meeDoorbell _ _ => [.store, .log, .lull, .mem, .mmu, .serve, .sealed, .link, .out, .freeCtr, .bytes]
  | .exchExpiry _ => [.log, .sealed, .link, .out]
  | .refreshDone _ => [.mbx, .log, .sealed, .link, .out]
  | .sealedStatus _ => [.mbx]
  | .meeParamsSession _ => [.mbx, .sealed, .freeCtr]
  | .meeParamsRing _ => [.mbx, .sealed]
  | .meeParamsEnd _ => [.mbx, .sealed]
  | .refreshRun _ => [.mbx, .sealed]
  | .vaultOpen _ => [.store, .mbx, .log, .mem, .serve, .sealed, .link, .out, .freeCtr, .bytes]
  | .vaultClose _ => [.store, .mbx, .log, .mem, .sealed, .link, .out, .bytes]
  | .vaultLifeExpiry _ => [.store, .mbx, .log, .mem, .sealed, .link, .out, .bytes]
  | .vaultRekey _ => [.log, .sealed, .link, .out, .freeCtr]
  | .vaultRekeyDone _ => [.store, .log, .mem, .serve, .sealed, .link, .out, .freeCtr, .bytes]
  | .drbgReseed _ => [.mbx, .log, .sealed, .link, .out, .freeCtr]
  | .drbgReseedAuto => [.log, .sealed, .link, .out, .freeCtr]
  | .drbgExhausted => [.log, .sealed, .link, .out]
  | .entropyFail => [.log, .sealed, .link, .out]
  | .peerSessionPair _ => [.mbx, .sealed, .out, .freeCtr]
  | .peerSessionResume _ => [.mbx, .sealed, .out, .freeCtr]
  | .peerSessionClose _ => [.mbx, .sealed, .link, .out]
  | .cxHello _ _ => [.sealed, .link, .out, .freeCtr]
  | .cxFinish _ _ => [.mbx, .log, .sealed, .link, .out]
  | .cxBatch _ _ _ _ _ _ _ => [.store, .mbx, .log, .net, .lull, .mem, .serve, .sealed, .link, .out, .freeCtr, .bytes]
  | .cxAck _ _ => [.store, .mbx, .log, .net, .lull, .mem, .serve, .sealed, .link, .out, .freeCtr, .bytes]
  | .cxPre _ _ => [.sealed, .link, .out, .freeCtr]
  | .cxClose _ => [.mbx, .sealed, .link]
  | .cxAbort _ => [.mbx, .log, .sealed, .link, .out]
  | .cxBatchPost _ _ _ _ _ _ => [.store, .log, .mem, .mmu, .serve, .sealed, .link, .out, .freeCtr]
  | .cxRoundTimeout _ => [.link, .out]
  | .cxSuspendTimeout _ => [.mbx, .log, .sealed, .link, .out]
  | .gustBlock _ _ => [.pwr, .start, .mbx, .log, .units, .vane, .net, .coll, .lull, .bond, .serve, .sealed, .link,
      .out, .freeCtr]
  | .replayTimeout _ => [.pwr, .start, .mbx, .log, .units, .vane, .net, .coll, .lull, .bond, .serve, .sealed, .link,
      .out, .freeCtr]
  | .handshake _ _ => [.mbx, .log, .units, .sealed, .link, .out, .freeCtr]
  | .linkLull _ _ _ => [.net, .lull, .serve, .link, .out]
  | .rekey _ _ _ _ => [.mbx, .log, .vane, .net, .sealed, .link, .out, .freeCtr]
  | .ready _ _ => [.mbx, .log, .vane, .net, .sealed, .link, .out, .freeCtr]
  | .leave _ _ => [.pwr, .start, .mbx, .log, .units, .vane, .net, .coll, .lull, .bond, .serve, .sealed, .link, .out,
      .freeCtr]
  | .trainStepTimeout _ => [.aon, .pins, .clk, .pwr, .start, .store, .mbx, .log, .units, .vane, .net, .coll, .lull,
      .bond, .mem, .mmu, .dma, .serve, .sealed, .link, .out, .freeCtr, .bytes]
  | .probationEnd _ _ _ _ => [.pwr, .start, .mbx, .log, .units, .vane, .net, .coll, .lull, .bond, .serve, .sealed,
      .link, .out, .freeCtr]
  | .portAutoRetrain _ => [.log, .units, .link, .out]
  | .sealedFrame _ _ _ _ _ _ _ => [.mbx, .log, .vane, .net, .coll, .sealed, .link, .out, .freeCtr]
  | .rekeyRequest _ _ => [.log, .sealed, .link, .out, .freeCtr]
  | .rekeyRetry _ _ => [.sealed, .link, .out, .freeCtr]
  | .sealedHold _ _ => [.log, .link, .out]
  | .sealedDown _ _ => [.mbx, .log, .vane, .net, .sealed, .link, .out, .freeCtr]
  | .cxlDown _ _ => [.store, .log, .units, .mem, .serve, .link, .out]
  | .cxlPoison _ => [.store, .log, .mem, .serve, .link, .out]
  | .devloadOverload _ => [.link]
  | .devloadEnd _ => [.link]
  | .completionTimeout _ => [.store, .log, .net, .lull, .mem, .mmu, .dma, .serve, .sealed, .link, .out, .freeCtr,
      .bytes]
  | .quarantineEnd _ => [.link]
  | .completionArrival _ _ => [.log, .link, .out]
  | .glkClear _ _ => [.aon, .link]
  | .linkStatus _ => [.mbx, .freeCtr]
  | .linkRetrain _ => [.mbx, .log, .units, .net, .link, .out]
  | .linkRekey _ => [.mbx, .sealed, .link, .out, .freeCtr]
  | .linkOffline _ => [.pwr, .mbx, .log, .units, .vane, .net, .coll, .lull, .bond, .serve, .sealed, .link, .out,
      .freeCtr]
  | .cxlStatus _ => [.mbx, .freeCtr]
  | .bar2Window _ => [.mbx, .link]
  | .thWarnAssert _ => [.log, .therm, .link, .out]
  | .thWarnRelease _ => [.therm]
  | .thermalLevelTick _ => [.log, .therm, .link, .out]
  | .thHalt _ => [.aon, .pins, .clk, .pwr, .start, .mbx, .log, .therm, .vane, .net, .coll, .lull, .bond, .mem, .mmu,
      .dma, .serve, .sealed, .link, .out, .freeCtr, .bytes]
  | .resumeChange _ _ => [.therm]
  | .thResume => [.aon, .pins, .pmx, .clk, .pwr, .start, .store, .mbx, .log, .units, .therm, .prot, .vane, .net,
      .coll, .lull, .bond, .mem, .mmu, .dma, .serve, .sealed, .link, .out, .freeCtr, .bytes]
  | .thSensorFault _ => [.log, .therm, .link, .out]
  | .thsStart _ _ => [.aon, .therm]
  | .conversionDone _ => [.aon, .start, .mbx, .log, .therm, .link, .out]
  | .thermalRead _ => [.mbx, .therm]
  | .thermalStatus _ => [.mbx]
  | .logCommit _ _ _ _ => [.store, .log, .link, .out]
  | .evlAck _ _ => [.log, .link, .out]
  | .routerUe _ => [.aon, .pins, .clk, .pwr, .start, .store, .mbx, .log, .units, .vane, .net, .coll, .lull, .bond,
      .mem, .mmu, .dma, .serve, .sealed, .link, .out, .freeCtr, .bytes]
  | .meeUe _ => [.pwr, .log, .units, .net, .coll, .lull, .bond, .serve, .link, .out]
  | .logRead _ => [.mbx, .log]
  | .logStatus _ => [.mbx]
  | .unitStatus _ => [.mbx]
  | .unitReturn _ => [.pwr, .mbx, .log, .units, .mem, .link, .out]
  | .unitOffline _ => [.pwr, .store, .mbx, .log, .units, .vane, .net, .coll, .lull, .bond, .mem, .serve, .sealed,
      .link, .out, .freeCtr]
  | .sectionHeader _ => [.vane, .out]
  | .droopTileOneCluster _ => [.pwr, .log, .link, .out]
  | .pam4EqualisationDone _ => [.clk, .link]
  | .tclkOk _ => [.clk, .pwr, .bond]
  | .crdyRise _ => [.bond]
  | .laneTestDone _ _ _ _ => [.pwr, .store, .log, .units, .bond, .link, .out]
  | .configurationWrite _ => [.link, .out]
  | .controllerFault _ => [.aon, .pins, .clk, .pwr, .start, .store, .mbx, .log, .units, .vane, .net, .coll, .lull,
      .bond, .mem, .mmu, .dma, .serve, .sealed, .link, .out, .freeCtr, .bytes]
  | .handoffPageRequest _ _ _ _ _ _ => [.store, .log, .mem, .serve, .link, .out]
  | .handoffPageGrant _ _ _ => [.log, .serve, .link, .out]
  | .remoteCancelConfirm _ => [.serve]

/-- The memory is in its canonical form: addresses rise strictly and no listed byte is what an unlisted address reads as. -/
abbrev Machine.Mem.wf (m : Mem) : Prop := Tab.wf 0 m.bytes = true

/-- R501: the event ring has 4,096 places in rising order, and no place waits twice for its commit. -/
def Machine.Log.wf (l : Log) : Prop :=
  Tab.sorted l.ring = true ∧ (∀ e ∈ l.ring, e.1 < 4096) ∧ l.uncommitted.Nodup ∧ ∀ i ∈ l.uncommitted, i < 4096

/-- R188, R190: every anti-rollback counter is at most 256, and a pending fuse run stops above its counter and at 256 or below. -/
def Machine.Prot.fusesOk (p : Prot) : Prop :=
  (∀ i : Fin 8, p.counters[i] ≤ 256) ∧ ∀ r, p.run = some r → p.counters[r.counter] < r.target ∧ r.target ≤ 256

/-- The command completes, and its next state meets `P`. -/
def Answers (c : Instr) (s : State) (P : State → Prop) : Prop := ∃ t, exec c s = .next t ∧ P t

/-- Firmware runs a command with opcode `op` for mailbox `n`, and its shape is right (R151, R152). -/
abbrev Runs (s : State) (n : Fin 16) (op : Nat) : Prop :=
  (s.box n.val).job.map (· % 32768) = some op ∧ formCheck n.val (s.box n.val) = none

/-- R199, R201, R223, R233: a packet from Gust port `k` may enter the mesh at once: the port carries packets, none waits there, its
sideband is legal, its source has room, and the entry of the edge router lets it go on. -/
def Enters (s : State) (k : Nat) (sb : BitVec 64) (data : List Byte) : Prop :=
  let here := edgeSideband s k sb
  gustCarries s k = true ∧ s.net.gustWait = [] ∧ sbLegal here = true ∧ overLimit s (gustNode k) 7 (sbVc here) data = false
  ∧ if sbMcast here then groupUsable s (gustNode k) here = true ∧ mcastType here = true ∧ (s.mcastGroup (sbDst here)).isSome = true
    else unreachable s (gustNode k) here = false
/-- The flight in which it has entered: the packet of the edge router, or the copies of a multicast. -/
def EntersAs (s : State) (k : Nat) (sb : BitVec 64) (data : List Byte) (t : State) : Prop :=
  let here := edgeSideband s k sb
  if sbMcast here then ∃ l, t.net.flight = s.net.flight ++ l ∧ ∀ q ∈ l, q.data = data ∧ q.src = gustNode k
  else t.net.flight = s.net.flight ++ [{ id := s.net.nextId, src := gustNode k, port := 7, sb := here, data := data }]

/-- The state in which the command of mailbox `n` has reached its commit point and is no longer due. -/
def Machine.State.freed (s : State) (n : Fin 16) : State := setBox n.val { s.box n.val with job := none } s

end Sys2Proof
end

