-- ==== Sys2Proof/Certificates/Slice0/Obligations.lean ====
section
/-!
DEFINITION. The statements about Daxmet that are to be proved, by chapter of the spec.
-/
section

open Sys2Proof Sys2Proof.Machine

/-- A step runs the front command; the empty queue is the model's choice (logs 40, 164, 169). -/
def Obligations.StepRunsTheFrontCommand : Prop :=
  (∀ (c : Instr) (rest : List Instr) (s : State), step { s with pending := c :: rest } = exec c { s with pending := rest })
  ∧ (∀ s : State, s.pending = [] → ∃ t, step s = .next t ∧ t.pending = []
      ∧ KeepsBut [.aon, .store, .mbx, .log, .vane, .net, .coll, .bond, .mem, .link, .out, .freeCtr, .bytes] s t
      ∧ (s.net.breeze = [] → s.net.endpoints = [] → s.net.gustWait = [] → s.mem.bankWait = [] → s.mem.bankUsed = [] → s.mem.backs = [] →
        (∀ e ∈ s.bond.ports, e.2.fifo = [] ∧ e.2.breeze = []) → KeepsBut [.aon] s t)
      ∧ t.aon.timeNs = (if s.pins.pwrOk then s.aon.timeNs + 40 else s.aon.timeNs) ∧ t.aon = { s.aon with timeNs := t.aon.timeNs, fwHb := t.aon.fwHb })

/-- What reset leaves, as the spec gives it. -/
def Obligations.ResetLeaves : Prop :=
  let s := State.reset
  s.aon.timeNs = 0 ∧ s.aon.cause = 1 ∧ s.aon.ready = false ∧ s.aon.phase = .power ∧ s.aon.startSt = .running
  ∧ s.pins.doneDrv = true ∧ s.pins.errDrv = false ∧ (∀ n, (s.box n).st = .free) ∧ s.log.ring = []
  ∧ (∀ ut inst, s.unitSt ut inst = .absent) ∧ (∀ i : Fin 8, s.prot.counters[i] = 0) ∧ s.prot.custody = none ∧ s.prot.debugLevel = 0
  ∧ s.prot.parts = [] ∧ s.vane.st = .unloaded ∧ s.therm.mask = BitVec.allOnes 48 ∧ s.serve.target = 25000 ∧ s.serve.floors = #v[20, 10, 10]
  ∧ (∀ k, (s.gport k).st = .down) ∧ (∀ v, s.vault v = none) ∧ s.sealed.drbg.ready = false ∧ s.pending = []
  ∧ s.mem.wf ∧ s.log.wf ∧ s.prot.fusesOk

/-- Every command completes within its groups. -/
def Obligations.CommandsTouchTheirGroups : Prop :=
  ∀ (c : Instr) (s : State), Answers c s fun t => KeepsBut c.touches s t ∧ t.pending = s.pending

/-- R188, R190, R501: the invariants. -/
def Obligations.InvariantsOfEveryStep : Prop :=
  ∀ s t : State, step s = .next t →
    (s.mem.wf → t.mem.wf) ∧ (s.log.wf → t.log.wf)
    ∧ (s.prot.fusesOk → t.prot.fusesOk ∧ ∀ i : Fin 8, s.prot.counters[i] ≤ t.prot.counters[i])

/-- Pins (spec/02_board_and_pins.md R48, R49, R55 to R62): each pin command takes its effect. Model choices: logs 2, 13, 139. -/
def Obligations.PinCommandsTakeEffect : Prop :=
  (∀ (addr : BitVec 7) (s : State), s.released = true → s.clk.sclk = true →
    exec (.i3cDynamicAddress addr) s = .next { s with pins := { s.pins with i3cDyn := some addr.toNat } })
  ∧ (∀ (b : Nat) (op : TapOp) (s : State),
    (s.pins.pwrOk = false → ∀ trstN, exec (.extest trstN op) s = .next s)
    ∧ (s.pins.pwrOk = true →
      exec (.extest true (.extest b)) s = .next { s with pins := { s.pins with extest := true, boundary := b, tdo := padCapture s } }
      ∧ exec (.extest true (.preload b)) s = .next { s with pins := { s.pins with extest := false, boundary := b } }
      ∧ exec (.extest true .sample) s =
        .next { s with pins := { s.pins with extest := false, tdo := padCapture { s with pins := { s.pins with extest := false } } } }
      ∧ exec (.extest true .bypass) s = .next { s with pins := { s.pins with extest := false, tdo := 0 } }
      ∧ exec (.extest true .idcode) s = .next { s with pins := { s.pins with extest := false, tdo := Config.idcode } }
      ∧ exec (.extest false op) s = .next { s with pins := { s.pins with extest := false } }))
  ∧ (∀ (pin : Fin 24) (val : Word) (f : Fin 4) (s : State), f.val = fld val 0 2 → s.released = true →
    s.aon.grantHost.isSome = true → s.pmx.pins[pin].park = false → s.pmx.pins[pin].wroteAt ≠ some s.now → badFunc s pin f = false → sigConflict s pin f = false →
    Answers (.pmxPinWrite pin val) s fun t =>
      t.pmx.pins[pin].func = f ∧ t.pmx.pins[pin].oe = bit val 12 ∧ t.pmx.pins[pin].out = bit val 13
      ∧ t.pmx.pins[pin].cur = s.pmx.pins[pin].cur ∧ t.pmx.pins[pin].park = decide (f ≠ s.pmx.pins[pin].cur)
      ∧ (∀ q : Fin 24, q ≠ pin → t.pmx.pins[q] = s.pmx.pins[q]) ∧ KeepsBut [.pmx, .out] s t)
  ∧ (∀ (pin : Fin 24) (s : State), s.pmx.pins[pin].park = true →
    Answers (.parkIdle pin) s fun t =>
      if s.pmx.pins[pin].minDone then
        t.pmx.pins[pin].cur = s.pmx.pins[pin].func ∧ t.pmx.pins[pin].park = false ∧ KeepsBut [.pmx, .mbx, .out] s t
      else t.pmx.pins[pin] = { s.pmx.pins[pin] with oldIdle := true } ∧ KeepsBut [.pmx] s t)
  ∧ (∀ (pin : Fin 24) (s : State), s.pmx.pins[pin].park = true →
    Answers (.parkMinExpiry pin) s fun t =>
      if s.pmx.pins[pin].oldIdle then
        t.pmx.pins[pin].cur = s.pmx.pins[pin].func ∧ t.pmx.pins[pin].park = false ∧ KeepsBut [.pmx, .mbx, .out] s t
      else t.pmx.pins[pin] = { s.pmx.pins[pin] with minDone := true } ∧ KeepsBut [.pmx] s t)
  ∧ (∀ (pin : Fin 24) (s : State), s.pmx.pins[pin].park = true → s.pmx.pins[pin].oldIdle = false →
    Answers (.parkTimeout pin) s fun t =>
      t.pmx.pins[pin].cur = s.pmx.pins[pin].func ∧ t.pmx.pins[pin].park = false
      ∧ t.log = (logInfo 0x0A10 0x00 0 [pin.val] s).log ∧ KeepsBut [.pmx, .mbx, .log, .link, .out] s t)
  ∧ (∀ (n : Fin 16) (pin : Fin 24) (pads : BitVec 24) (s : State), Runs s n 0x0A01 → (s.box n.val).arg 0 = pin.val →
    let s1 := setPads pads s
    exec (.pinGet ⟨n, pads⟩) s =
      .next (replyDone n.val [(pmxPin s1 pin).toNat, (pmxParkmap s).toNat, (aonBoard s).toNat] [] (s1.freed n)))
  ∧ (∀ (n : Fin 16) (pin : Fin 24) (f : Fin 4) (s : State), Runs s n 0x0A02 → (s.box n.val).exp = false →
    (s.box n.val).arg 0 = pin.val → (s.box n.val).arg 1 = f.val → badFunc s pin f = false → sigConflict s pin f = false →
    s.pmx.pins[pin].park = false →
    Answers (.pinSetFunction n) s fun t =>
      t.pmx.pins[pin].func = f ∧ t.pmx.pins[pin].oe = s.pmx.pins[pin].oe ∧ t.pmx.pins[pin].out = s.pmx.pins[pin].out
      ∧ (∀ q : Fin 24, q ≠ pin → t.pmx.pins[q] = s.pmx.pins[q])
      ∧ (if f = s.pmx.pins[pin].cur then (t.box n.val).outbox = (s.box n.val).outbox ++ [{ status := 0x00 }]
         else (t.box n.val).await = some (.pinSwitch pin.val))
      ∧ KeepsBut [.pmx, .mbx, .out] s t)
  ∧ (∀ (n : Fin 16) (pin : Fin 24) (pads : BitVec 24) (s : State), Runs s n 0x0A03 → (s.box n.val).arg 0 = pin.val →
    (s.box n.val).arg 1 < 4 → s.pmx.pins[pin].cur = 0 → s.pmx.pins[pin].park = false →
    Answers (.pinGpio ⟨n, pads⟩) s fun t =>
      t.pmx.pins[pin] =
        { s.pmx.pins[pin] with oe := (s.box n.val).arg 1 % 2 = 1, out := (s.box n.val).arg 1 / 2 = 1, wroteAt := some s.now }
      ∧ t.pmx.pads = pads
      ∧ (∀ q : Fin 24, q ≠ pin → t.pmx.pins[q] = s.pmx.pins[q])
      ∧ (t.box n.val).outbox = (s.box n.val).outbox ++ [{ status := 0x00, res := [b2n (padLevel t pin)] }]
      ∧ KeepsBut [.pmx, .mbx] s t)

/-- R60: the three refusals of the pin multiplexer, LAST_PIN, and nothing else. -/
def Obligations.PinWriteRefusals : Prop :=
  ∀ (pin : Fin 24) (val : Word) (f : Fin 4) (s : State), f.val = fld val 0 2 → s.released = true →
    s.aon.grantHost.isSome = true →
    (s.pmx.pins[pin].park = true ∨ s.pmx.pins[pin].wroteAt = some s.now →
      exec (.pmxPinWrite pin val) s = .next { s with pmx := { s.pmx with refused := true, lastPin := pin } })
    ∧ (s.pmx.pins[pin].park = false → s.pmx.pins[pin].wroteAt ≠ some s.now → badFunc s pin f = true →
      exec (.pmxPinWrite pin val) s = .next { s with pmx := { s.pmx with badFunc := true, lastPin := pin } })
    ∧ (s.pmx.pins[pin].park = false → s.pmx.pins[pin].wroteAt ≠ some s.now → badFunc s pin f = false → sigConflict s pin f = true →
      exec (.pmxPinWrite pin val) s = .next { s with pmx := { s.pmx with conflict := true, lastPin := pin } })

/-- R155: the acknowledgement of a doorbell, in the order of the rule. -/
def Obligations.DoorbellAcknowledgement : Prop :=
  ∀ (path : Path) (n : Fin 16) (val : Word) (s : State), s.released = true → pathReach path n.val = true →
    (s.aon.ready = false → exec (.dblMbx path n val) s = .next (setBox n.val { s.box n.val with ack := 3 } s))
    ∧ (s.aon.ready = true → (val.setWidth 16 ≠ (s.box n.val).token ∨ (s.box n.val).st ≠ .idle) →
      exec (.dblMbx path n val) s = .next (setBox n.val { s.box n.val with ack := 2 } s))
    ∧ (s.aon.ready = true → val.setWidth 16 = (s.box n.val).token → (s.box n.val).st = .idle →
      Answers (.dblMbx path n val) s fun t => (t.box n.val).ack = 1)

/-- R156: STATE, lease, RSP, deadline timer and the locked command of a QUEUED doorbell. -/
def Obligations.QueuedDoorbell : Prop :=
  ∀ (path : Path) (n : Fin 16) (val : Word) (s : State), s.released = true → pathReach path n.val = true →
    s.aon.ready = true → val.setWidth 16 = (s.box n.val).token → (s.box n.val).st = .idle →
    Answers (.dblMbx path n val) s fun t =>
      (t.box n.val).st = .queued ∧ (t.box n.val).renewed = s.now ∧ (t.box n.val).rsp = [] ∧ (t.box n.val).queuedAt = s.now
      ∧ (t.box n.val).taken = (s.box n.val).cmd
      ∧ (t.box n.val).token = (s.box n.val).token ∧ (t.box n.val).owner = (s.box n.val).owner
      ∧ (∀ k : Nat, k ≠ n.val → t.box k = s.box k)
      ∧ (let c := classOf (cmdOpcode (s.box n.val))
         queueOf c t = queueOf c s ++ [n.val] ∧ ∀ d, d ≠ c → queueOf d t = queueOf d s)
      ∧ KeepsBut [.mbx] s t

/-- R147: what a claim does. -/
def Obligations.ClaimGrantsLease : Prop :=
  ∀ (path : Path) (n : Fin 16) (val : Word) (s : State), s.released = true → pathReach path n.val = true →
    ((s.box n.val).st = .free → val.setWidth 16 ≠ (0 : BitVec 16) →
      Answers (.mbxClaim path n val) s fun t =>
        (t.box n.val).owner = val.setWidth 16 ∧ (t.box n.val).st = .idle ∧ (t.box n.val).renewed = s.now
        ∧ (t.box n.val).ack = 0
        ∧ (t.box n.val).token.toNat = (if (s.box n.val).tokCtr.toNat = 65535 then 1 else (s.box n.val).tokCtr.toNat + 1)
        ∧ (t.box n.val).tokCtr = (t.box n.val).token ∧ (t.box n.val).token ≠ 0
        ∧ (∀ k : Nat, k ≠ n.val → t.box k = s.box k) ∧ KeepsBut [.mbx] s t)
    ∧ ((s.box n.val).st ≠ .free ∨ val.setWidth 16 = (0 : BitVec 16) → exec (.mbxClaim path n val) s = .next s)

/-- R149, R150: renewal and end of a lease. -/
def Obligations.LeaseRenewalAndEnd : Prop :=
  (∀ (path : Path) (n : Fin 16) (val : Word) (s : State), s.released = true → pathReach path n.val = true →
    held (s.box n.val) = true →
    (val.setWidth 16 = (s.box n.val).token →
      exec (.mbxHb path n val) s = .next (setBox n.val { s.box n.val with renewed := s.now } s))
    ∧ (val.setWidth 16 ≠ (s.box n.val).token → exec (.mbxHb path n val) s = .next s)
    ∧ (val.setWidth 16 = (s.box n.val).token → Answers (.mbxRelease path n val) s fun t =>
        ((s.box n.val).st = .idle ∨ (s.box n.val).st = .queued →
          (t.box n.val).st = .free ∧ (t.box n.val).cmd = [] ∧ (t.box n.val).rsp = [] ∧ (t.box n.val).data = [])
        ∧ ((s.box n.val).st = .running ∨ (s.box n.val).st = .accepted ∨ (s.box n.val).st = .late →
          (t.box n.val).st = .reclaiming)
        ∧ (∀ k : Nat, k ≠ n.val → t.box k = s.box k) ∧ KeepsBut [.mbx] s t)
    ∧ (val.setWidth 16 ≠ (s.box n.val).token → exec (.mbxRelease path n val) s = .next s))
  ∧ (∀ (n : Fin 16) (s : State), held (s.box n.val) = true →
    Answers (.leaseExpiry n) s fun t =>
      ((s.box n.val).st = .idle ∨ (s.box n.val).st = .queued →
        (t.box n.val).st = .free ∧ (t.box n.val).cmd = [] ∧ (t.box n.val).rsp = [] ∧ (t.box n.val).data = [])
      ∧ ((s.box n.val).st = .running ∨ (s.box n.val).st = .accepted ∨ (s.box n.val).st = .late →
        (t.box n.val).st = .reclaiming)
      ∧ t.log = (logInfo 0x0120 0x0B n.val [n.val, (s.box n.val).owner.toNat, (s.box n.val).st.code] s).log
      ∧ KeepsBut [.mbx, .log, .link, .out] s t)

/-- The service of mailbox commands by firmware and hardware (R153, R158, R160). -/
def Obligations.MailboxServiceCompletes : Prop :=
  (∀ (cls : DClass) (fetched : Option (List Byte)) (n : Nat) (rest : List Nat) (s : State), s.aon.ready = true → s.pins.coreHalt = false →
    queueOf cls s = n :: rest → (s.box n).st = .queued →
    Answers (.commandTake cls fetched) s fun t =>
      (t.box n).st = .running ∧ n ∉ queueOf .q t ∧ n ∉ queueOf .s t ∧ n ∉ queueOf .l t)
  ∧ (∀ (n : Fin 16) (xferOk : Bool) (r : Reply) (rest : List Reply) (s : State), s.pins.coreHalt = false → (s.box n.val).outbox = r :: rest →
    ((s.box n.val).st = .running ∨ (s.box n.val).st = .accepted) →
    exec (.responsePost ⟨n, xferOk⟩) s =
      .next (postResponse n.val (if (s.box n.val).outHost && (!r.data.isEmpty && !(xferOk && s.hostReady)) then { status := 0x11, detail := 1 } else r)
        false (setBox n.val { s.box n.val with outbox := rest } s)))
  ∧ (∀ (n : Fin 16) (s : State),
    ((s.box n.val).st = .queued ∨ (s.box n.val).st = .running ∨ (s.box n.val).st = .accepted) →
    Answers (.deadlineExpiry n) s fun t => (t.box n.val).st = .late)
  ∧ (∀ (n : Fin 16) (s : State), Runs s n 0x0106 →
    exec (.mbxEcho n) s = .next (replyDone n.val ((List.range 10).map (s.box n.val).arg) [] (s.freed n)))
  ∧ (∀ (n : Fin 16) (s : State), Runs s n 0x0107 →
    exec (.ifInfo n) s =
      .next (replyDone n.val [0x0302] ((List.range 11).flatMap fun a => areaBitmap (a + 1)) (s.freed n)))

/-- R69 to R71, Table CP-6: the reset inputs. -/
def Obligations.ResetInputsTakeEffect : Prop :=
  (∀ (straps : Fin 8) (cold : BitVec 48) (s : State), s.pins.pwrOk = false →
    Answers (.pwrOkRise straps cold) s fun t =>
      t.pins.pwrOk = true ∧ t.aon.slot = straps ∧ t.aon.timeNs = 0
      ∧ t.store.coldStarts = (s.store.coldStarts + 1) % 2 ^ 32 ∧ t.prot.counters = s.prot.counters
      ∧ (s.pins.trayRstN = true → s.pins.pkgRstN = true →
        t.aon.phase = .power ∧ t.aon.startSt = .running ∧ t.pwr.seqRun = true ∧ t.pwr.step = 0 ∧ t.pins.doneDrv = true))
  ∧ (∀ (s : State), s.pins.pwrOk = true →
    Answers .pwrOkFall s fun t =>
      t.pins.pwrOk = false ∧ t.therm = {} ∧ t.aon = { slot := s.aon.slot } ∧ t.vane = { reqNo := t.vane.reqNo }
      ∧ (s.prot.debugLevel = 0 → t.log.ring = []) ∧ t.prot.idKey = none
      ∧ t.prot.counters = s.prot.counters)
  ∧ (∀ (s : State), s.pins.pwrOk = true →
    (s.pins.trayRstN = true → Answers .trayRstNFall s fun t =>
      t.pins.trayRstN = false ∧ t.vane.st = .unloaded ∧ t.mem.bytes = [] ∧ (s.prot.debugLevel = 0 → t.log.ring = [])
      ∧ (s.prot.debugLevel ≠ 0 → ∃ i r, t.log.ring = [(i, r)] ∧ r.code = 0x0204 ∧ r.cls = .sec ∧ r.detail = [0]) ∧ t.prot.challenges = []
      ∧ t.prot.debugLevel = 0 ∧ t.prot.counters = s.prot.counters ∧ t.aon.cause = 2
      ∧ ∀ n, (t.box n).st = .free ∧ (t.box n).tokCtr = (s.box n).tokCtr)
    ∧ (s.pins.pkgRstN = true → Answers .pkgRstNFall s fun t =>
      t.pins.pkgRstN = false ∧ t.vane.st = .unloaded ∧ t.mem.bytes = [] ∧ (s.prot.debugLevel = 0 → t.log.ring = [])
      ∧ (s.prot.debugLevel ≠ 0 → ∃ i r, t.log.ring = [(i, r)] ∧ r.code = 0x0204 ∧ r.cls = .sec ∧ r.detail = [0]) ∧ t.prot.challenges = []
      ∧ t.prot.debugLevel = 0 ∧ t.prot.counters = s.prot.counters ∧ t.aon.cause = 4
      ∧ ∀ n, (t.box n).st = .free ∧ (t.box n).tokCtr = (s.box n).tokCtr))
  ∧ (∀ (s : State), s.pins.pwrOk = true → s.haltLatched = false → s.clk.backup = false →
    (s.pins.trayRstN = false → s.pins.pkgRstN = true → Answers .trayRstNRise s fun t =>
      t.pins.trayRstN = true ∧ t.aon.phase = .power ∧ t.aon.startSt = .running ∧ t.pwr.seqRun = true ∧ t.pwr.step = 0
      ∧ t.pins.doneDrv = true ∧ t.store.startSeq = s.store.startSeq + 1)
    ∧ (s.pins.pkgRstN = false → s.pins.trayRstN = true → Answers .pkgRstNRise s fun t =>
      t.pins.pkgRstN = true ∧ t.aon.phase = .power ∧ t.aon.startSt = .running ∧ t.pwr.seqRun = true ∧ t.pwr.step = 0
      ∧ t.pins.doneDrv = true ∧ t.store.startSeq = s.store.startSeq + 1)
    ∧ (s.start.wardenAt.isSome = true → s.released = true → Answers .wardenReset s fun t =>
      t.aon.phase = .power ∧ t.aon.startSt = .running ∧ t.pwr.seqRun = true ∧ t.pwr.step = 0 ∧ t.pins.doneDrv = true
      ∧ t.vane.st = .unloaded ∧ (s.prot.debugLevel = 0 → t.log.ring = []) ∧ t.aon.cause = 16 ∧ t.prot.counters = s.prot.counters))
  ∧ (∀ (s : State), s.pins.pwrOk = true → s.haltLatched = false → s.clk.backup = true → s.pins.trayRstN = false →
    s.pins.pkgRstN = true → Answers .trayRstNRise s fun t => t.aon.startSt = .failed ∧ t.pwr.seqRun = false)
  ∧ (∀ (s : State), s.pins.pwrOk = true → s.pins.perstN = true →
    Answers .perstNFall s fun t =>
      t.pins.perstN = false ∧ t.link.hostUp = false ∧ t.aon.grantHost = none ∧ t.aon.grantOob = s.aon.grantOob
      ∧ t.mbx.irqStatus = s.mbx.irqStatus &&& 0xC000 ∧ t.aon.cause = 32 ∧ KeepsBut [.aon, .pins, .mbx, .link] s t)

/-- Clocks, rails and the power command bus (R64, R68, R75, R76, R78 to R83). -/
def Obligations.ClockAndRailEvents : Prop :=
  (∀ (s : State), s.pins.pwrOk = true → s.clk.backup = false → s.aon.phase = .power →
    Answers .xtalFail s fun t => t.clk.backup = true ∧ t.clk.xtalOk = false)
  ∧ (∀ (s : State), s.released = true →
    (∀ n : Fin 8, Answers (.clkLoss (.vclk n)) s fun t =>
      t.clk = { s.clk with vclkLost := setBit s.clk.vclkLost n.val true }
      ∧ t.log = (logUe .unit 0x0A36 0x0C 0xFF [32 + n.val] s).log ∧ KeepsBut [.clk, .log, .link, .out] s t)
    ∧ (s.clk.pclk = true → s.aon.phase = .power → Answers (.clkLoss .pclk) s fun t =>
        t.clk = { s.clk with pclk := false } ∧ t.link.hostUp = false ∧ KeepsBut [.clk, .log, .link, .out] s t)
    ∧ (s.clk.sclk = true → s.aon.phase = .power → Answers (.clkLoss .sclk) s fun t =>
        t.clk = { s.clk with sclk := false } ∧ KeepsBut [.clk, .log, .link, .out] s t))
  ∧ (∀ (p : Pll) (s : State), Pll.idx p ∈ s.pwr.waitPll → s.aon.phase = .power → s.pwr.waitPg ≠ [] →
    exec (.pllLock p true) s =
      .next { s with clk := setLock p s.clk, pwr := { s.pwr with waitPll := s.pwr.waitPll.filter (· ≠ Pll.idx p) } })
  ∧ (∀ (vpm : Fin 9) (chan : Fin 3) (s : State), railKey vpm.val chan.val ∈ s.pwr.waitPg →
    (s.rail vpm.val chan.val).on = true → s.aon.phase = .power → s.pwr.waitPll ≠ [] →
    Answers (.powerGood vpm chan) s fun t =>
      (t.rail vpm.val chan.val).pg = true ∧ t.pwr.waitPg = s.pwr.waitPg.filter (· ≠ railKey vpm.val chan.val)
      ∧ KeepsBut [.pwr] s t)
  ∧ (∀ (vpm : Fin 9) (chan : Fin 3) (s : State), railKey vpm.val chan.val ∈ s.pwr.waitPg → s.aon.phase = .doldrums →
    exec (.pgDeadline vpm chan) s =
      .next { s with aon := { s.aon with wskDown := true }, pwr := { s.pwr with waitPll := [], waitPg := [] } })
  ∧ (∀ (vpm : Fin 9) (chan : Fin 3) (s : State), railKey vpm.val chan.val ∈ s.pwr.waitPg → s.aon.phase = .power →
    s.failBase = 0 → Answers (.pgDeadline vpm chan) s fun t =>
      t.aon.startSt = .failed ∧ t.aon.reason = 0x10 ∧ t.aon.failCnt = 1 ∧ t.pwr.seqRun = false)
  ∧ (∀ (k : Nat) (s : State), s.released = true → s.pwr.down = some k → exec .powerDownStep s = .next (downStep (k + 1) s))
  ∧ (∀ (s : State), s.released = true → s.pwr.down = none → scanWaits s = true → exec .powerDownStep s = .next (railStep 2 s))
  ∧ (∀ (ack : Fin 4) (rdata : BitVec 16) (crc : BitVec 8) (s : State), s.pwr.bus = none →
    exec (.pcmdFrameEnd ack rdata crc) s = .next s)
  ∧ (∀ (f : Frame) (rdata : BitVec 16) (crc : BitVec 8) (s : State), s.pins.extest = false → s.pwr.bus = some f →
    (∀ rest undo, f.op = 0x3 → (f.use = .change rest undo ∨ f.use = .restore rest) → s.pwr.changes = [] →
      Answers (.pcmdFrameEnd 0 rdata crc) s fun t => (t.rail f.vpm f.chan).mv = f.data)
    ∧ (f.op = 0x9 → f.use = .sweep → responseCrc rdata = crc.toNat →
      Answers (.pcmdFrameEnd 0 rdata crc) s fun t => (t.rail f.vpm f.chan).amps = rdata.toNat)
    ∧ (∀ ack : Fin 4, f.fails < 3 → (ack = 1 ∨ ack = 3 ∨ (ack = 0 ∧ 8 ≤ f.op ∧ responseCrc rdata ≠ crc.toNat)) →
      Answers (.pcmdFrameEnd ack rdata crc) s fun t => t.pwr.bus = some { f with fails := f.fails + 1 } ∧ KeepsBut [.pwr, .out] s t))
  ∧ (∀ (s : State), s.released = true →
    Answers .pcmdAlert s fun t => t.pins = { s.pins with pcmdAlert := true } ∧ KeepsBut [.pins, .pwr] s t)

/-- R82 to R93: telemetry, regulators, droops, the lease of the sequencer and the power commands. -/
def Obligations.GovernorDroopsAndLease : Prop :=
  (∀ (order : List (Fin 9 × Fin 3)) (s : State), s.released = true →
    let reads : List Frame :=
      (sweepOrder order).map fun c => { vpm := c.1, op := 0x9, chan := c.2, data := 0, kind := .telemetry, use := .sweep }
    (sweepOrder order).Perm allChannels
    ∧ (noFrame (fun u => u = .sweep) s = true →
      exec (.telemetrySweep order) s = .next (pushFrames reads s)
      ∧ Answers (.telemetrySweep order) s fun t => KeepsBut [.pwr, .out] s t
        ∧ (s.pwr.bus.isSome = true → t.pwr.bus = s.pwr.bus ∧ t.pwr.frames = s.pwr.frames ++ reads)
        ∧ (s.pwr.bus = none → ∃ f, t.pwr.bus = some f ∧ (sweepOrder order).head? = some (f.vpm, f.chan) ∧ f.op = 0x9 ∧ t.pwr.frames = s.pwr.frames ++ reads.tail))
    ∧ (noFrame (fun u => u = .sweep) s = false → exec (.telemetrySweep order) s = .next s))
  ∧ (∀ (c : Fin 128) (s : State), s.pwr.fgrRamp.getLsbD c.val = true →
    Answers (.fgrInRegulation c) s fun t =>
      t.unitSt 0x01 c.val = .probation ∧ (Tab.get {} t.bond.ports c.val).prst = true ∧ KeepsBut [.mbx, .pwr, .units, .bond] s t)
  ∧ (∀ (c : Fin 128) (s : State), s.pwr.fgrOn.getLsbD c.val = true →
    Answers (.droopCluster c) s fun t => t.pwr.droopPause = setBit s.pwr.droopPause c.val true)
  ∧ (∀ (c : Fin 128) (s : State), exec (.droopClusterRelease c) s =
    .next { s with pwr := { s.pwr with droopPause := setBit s.pwr.droopPause c.val false } })
  ∧ (∀ (c : Fin 128) (s : State), s.pwr.droopPause.getLsbD c.val = true →
    Answers (.droopTileOneCluster c) s fun t => t.pwr.droopTile = setBit s.pwr.droopTile (tileOf c.val) true
      ∧ KeepsBut [.pwr, .log, .link, .out] s t)
  ∧ (∀ (q : Fin 4) (s : State), exec (.droopTileExpiry q) s =
    .next { s with pwr := { s.pwr with droopTile := setBit s.pwr.droopTile q.val false } })
  ∧ (∀ (s : State), s.released = true → Answers .droopRail s fun t =>
    t.pwr = { s.pwr with droopRail := 7 } ∧ t.log = (logCe 0x0A34 0x00 0 [7] s).log ∧ KeepsBut [.pwr, .log, .link, .out] s t)
  ∧ (∀ (s : State), exec .droopRailDecay s = .next { s with pwr := { s.pwr with droopRail := s.pwr.droopRail - 1 } })
  ∧ (∀ (s : State), s.windsockOwns = true →
    (s.pins.coreHalt = false → exec .sequencerLeaseRenew s = .next { s with aon := { s.aon with lease := some (s.now + 10000000) } })
    ∧ (Answers .sequencerLeaseExpiry s fun t => t.aon.owner = .warden ∧ t.aon.lease = none)
    ∧ (Answers .firmwareFatal s fun t => t.aon.owner = .warden ∧ t.aon.lease = none)
    ∧ (Answers .watchdogTrip s fun t => t.aon.owner = .warden ∧ t.aon.lease = none ∧ t.aon.wdog = true))
  ∧ (∀ (s : State), s.windsockOwns = false →
    exec .watchdogTrip s = .next (mailboxTakeover { s with aon := { s.aon with wdog := true } }))
  ∧ (∀ (s : State), s.pins.coreHalt = false → exec .watchdogKick s = .next { s with aon := { s.aon with wdogKick := s.now } })
  ∧ (∀ (n : Fin 16) (s : State), Runs s n 0x0A20 → (s.box n.val).exp = false →
    exec (.pwrStatus n) s = .next (replyDone n.val [(aonPwr s).toNat, (aonClkstat s).toNat, (aonRstcause s).toNat]
      (allChannels.flatMap fun c => le16 (s.rail c.1 c.2).amps) (s.freed n)))
  ∧ (∀ (n : Fin 16) (s : State), Runs s n 0x0A22 → (s.box n.val).exp = false →
    exec (.tileBudget n) s = .next (replyDone n.val s.pwr.shares.toList [] (s.freed n)))
  ∧ (∀ (n : Fin 16) (s : State), Runs s n 0x0A21 → (s.box n.val).exp = false → s.windsockOwns = true →
    (s.box n.val).arg 4 = 0 → mbxPart s n.val = 0 → (s.box n.val).await = none → maskArg (s.box n.val) &&& s.store.harvestCl = 0 →
    (∀ c ∈ maskList (maskArg (s.box n.val)), s.unitSt 0x01 c ≠ .inService) →
    Answers (.clusterGate n) s fun t =>
      t.pwr.fgrOn = s.pwr.fgrOn &&& ~~~ maskArg (s.box n.val)
      ∧ (∀ c ∈ maskList (maskArg (s.box n.val)), (Tab.get {} t.bond.ports c).fence = true)
      ∧ (t.box n.val).outbox = (s.box n.val).outbox ++ [{ status := 0x00 }] ∧ KeepsBut [.pwr, .mbx, .units, .bond] s t)

/-- R95 to R99, R108: the ends of the phases up to PH_TRAIN. -/
def Obligations.StartPhasesPass : Prop :=
  (∀ s : State, inPhase .fuse s = true →
    (s.failBase < 3 → popcount s.store.harvestRt ≤ 2 →
      Answers (.fuseReadDone true) s fun t =>
        t.aon.phase = .boot ∧ t.aon.startSt = .running ∧ t.aon.fwSlot = s.store.preferB ∧ t.aon.failCnt = s.failBase
        ∧ t.start.chain = true ∧ t.prot.run = none
        ∧ t.prot.counters = (match s.prot.run with
          | none => s.prot.counters
          | some r => s.prot.counters.set r.counter r.target))
    ∧ (s.failBase < 3 → Answers (.fuseReadDone false) s fun t =>
        t.aon.startSt = .failed ∧ t.aon.reason = 0x20 ∧ t.aon.failCnt = s.failBase + 1)
    ∧ (3 ≤ s.failBase → ∀ ok, Answers (.fuseReadDone ok) s fun t =>
        t.aon.phase = .doldrums ∧ t.aon.startSt = .failed ∧ t.aon.reason = s.store.reason ∧ t.aon.owner = .warden))
  ∧ (∀ (v : BitVec 32) (s : State), inPhase .boot s = true →
    (Answers (.bootCopyDone true v) s fun t =>
      t.aon.phase = .auth ∧ t.aon.startSt = .running ∧ t.aon.fwSlot = s.aon.fwSlot
      ∧ (let f := if s.aon.fwSlot then t.store.slotB else t.store.slotA
         f.crcOk = some true ∧ f.version = v.toNat))
    ∧ (s.start.triedOther = false → Answers (.bootCopyDone false v) s fun t =>
        t.aon.phase = .boot ∧ t.aon.fwSlot = !s.aon.fwSlot ∧ t.start.triedOther = true))
  ∧ (∀ (svn : BitVec 16) (h : BitVec 384) (s : State), inPhase .auth s = true →
    (s.prot.counters[0] ≤ svn.toNat → Answers (.authDone true svn h) s fun t =>
      t.aon.phase = .train ∧ t.aon.startSt = .running ∧ t.aon.owner = .windsock ∧ t.aon.lease = some (s.now + 10000000)
      ∧ t.aon.cores = 7 ∧ t.aon.ready = true ∧ t.prot.fwMeasure = h ∧ t.prot.fwSvn = svn.toNat
      ∧ t.pins.cxl0Perst = true ∧ t.pins.cxl1Perst = true)
    ∧ (s.start.triedOther = false → (∀ ok, (ok = false ∨ svn.toNat < s.prot.counters[0]) →
        Answers (.authDone ok svn h) s fun t => t.aon.phase = .boot ∧ t.aon.fwSlot = !s.aon.fwSlot ∧ t.aon.ready = s.aon.ready)))
  ∧ (∀ (f : TrainFacts) (s : State), inPhase .train s = true → s.aon.startSt = .running →
    let dead := trainedDead s f
    let u := trainStacks f.hbm (trainTiles dead (trainMesh dead s))
    (strapsWrong u = false → 2 ≤ tilesUp u → 4 ≤ popcount f.hbm → popcount dead ≤ 2 → s.aon.excluded = false →
      s.vane.staged = none → s.vane.capFail = none → Answers (.trainComplete f) s fun t =>
        t.aon.phase = .vane ∧ t.aon.startSt = .hold ∧ t.aon.reason = 3 ∧ t.sealed.drbg.ready = true)
    ∧ (strapsWrong u = true ∨ tilesUp u < 2 ∨ popcount f.hbm < 4 ∨ 2 < popcount dead →
      Answers (.trainComplete f) s fun t => t.aon.startSt = .failed
        ∧ t.aon.reason = (if strapsWrong u then 0x43 else if tilesUp u < 2 then 0x40 else if popcount f.hbm < 4 then 0x41 else 0x42)))
  ∧ (∀ s : State, s.aon.startSt = .running → s.released = true → s.haltLatched = false →
    (s.aon.phase = .power → Answers .phaseBudgetExpiry s fun t => t.aon.startSt = .failed ∧ t.aon.reason = 0x12)
    ∧ (s.aon.phase = .fuse → Answers .phaseBudgetExpiry s fun t => t.aon.startSt = .failed ∧ t.aon.reason = 0x22)
    ∧ (s.aon.phase = .train → Answers .phaseBudgetExpiry s fun t => t.aon.startSt = .failed ∧ t.aon.reason = 0x44)
    ∧ (s.aon.phase = .boot ∨ s.aon.phase = .auth → s.start.triedOther = false → Answers .phaseBudgetExpiry s fun t =>
        t.aon.phase = .boot ∧ t.aon.fwSlot = !s.aon.fwSlot))

/-- R94, R103, R104, R115: joining the tray and the start commands. -/
def Obligations.JoiningTheTray : Prop :=
  (∀ s : State, s.aon.startSt = .hold →
    exec .holdReport s = .next (logInfo 0x0113 0x00 0 [s.aon.phase.code, s.aon.reason] s))
  ∧ (∀ (high : Bool) (s : State), s.aon.phase ≠ .join → Answers (.trayDoneChange high) s fun t =>
      t.pins = { s.pins with doneOthers := high } ∧ KeepsBut [.pins, .start] s t
      ∧ (if high && !s.pins.doneDrv then t.start.doneSince = some (s.start.doneSince.getD s.now) ∧ t.start.done100 = s.start.done100
         else t.start.doneSince = none ∧ t.start.done100 = false))
  ∧ (∀ s : State, s.doneLvl = true → s.start.doneSince.isSome = true →
    (s.aon.phase ≠ .join → exec .doneStable s = .next { s with start := { s.start with done100 := true } })
    ∧ (s.aon.phase = .join → s.aon.startSt ≠ .failed → s.released = true → s.aon.roster ||| s.store.exclMap = 0xFF →
      (∀ e ∈ s.start.mapsHeard, e.2 = s.store.exclMap.toNat) → Answers .doneStable s fun t =>
        t.aon.phase = .serve ∧ t.aon.startSt = .running ∧ t.serve.step = 1 ∧ t.start.done100 = true
        ∧ t.start.peersServing = s.aon.roster))
  ∧ (∀ (port : Fin 7) (tray : BitVec 12) (slot : Fin 8) (st : JoinStatus) (map : BitVec 8) (seq : BitVec 16) (s : State),
    joinPhase s = true → gustUsable s port.val = true → slot ≠ s.aon.slot →
    Answers (.joinRecord port tray slot st map seq) s fun t =>
      (slot.val, map.toNat) ∈ t.start.mapsHeard
      ∧ t.aon.roster = (if tray.toNat = s.aon.trayId then setBit s.aon.roster slot.val true else s.aon.roster)
      ∧ t.start.servingHeard = (s.start.servingHeard || st = .serving)
      ∧ (slot.val, seq.toNat, joinCode st) ∈ t.start.relayed)
  ∧ (∀ s : State, joinPhase s = true → Answers .joinRecordTimer s fun t =>
      t.out.sent = ((usableMesh s).map fun k => Msg.join k s.aon.trayId s.aon.slot.val (joinCode (ownStatus s))
        s.store.exclMap.toNat s.store.startSeq.toNat).reverse ++ s.out.sent
      ∧ KeepsBut [.out] s t)
  ∧ (∀ (n : Fin 16) (s : State), Runs s n 0x0101 → (s.box n.val).exp = false →
    exec (.startStatus n) s = .next (replyDone n.val [(aonStart s).toNat, s.store.fails.length]
      (s.store.fails.flatMap (eventBytes s.prot.debugLevel))
      (s.freed n)))
  ∧ (∀ (n : Fin 16) (s : State), Runs s n 0x0102 →
    (s.box n.val).exp = true ∨ s.aon.phase = .doldrums ∨ s.aon.startSt = .hold → Answers (.startRetry n) s fun t =>
      t.aon.failCnt = 0 ∧ t.start.wardenAt = some (s.now + 1000000) ∧ (s.startWritable = true → t.store.failCnt = 0)
      ∧ (t.box n.val).outbox = (s.box n.val).outbox ++ [{ status := 0 }] ∧ KeepsBut [.aon, .start, .store, .mbx] s t)
  ∧ (∀ (n : Fin 16) (s : State), Runs s n 0x0103 → (s.box n.val).exp = false →
    exec (.fwSlotStatus n) s = .next (replyDone n.val [s.store.slotA.version, s.store.slotB.version, crcCode s.store.slotA.crcOk,
      crcCode s.store.slotB.crcOk, s.store.slotA.auth, s.store.slotB.auth] [] (s.freed n)))
  ∧ (∀ (n : Fin 16) (s : State), Runs s n 0x0104 → (s.box n.val).exp = false → (s.box n.val).input ≠ [] →
    (s.box n.val).input.length ≤ 4096 → (s.box n.val).arg 0 % 4096 = 0 → (s.box n.val).arg 0 + (s.box n.val).input.length ≤ 8388608 →
    s.regionRo (if s.aon.fwSlot then 0 else 1) = false → Answers (.fwSlotWrite n) s fun t =>
      (let slot := if s.aon.fwSlot then t.store.slotA else t.store.slotB
       Tab.get [] slot.chunks ((s.box n.val).arg 0 / 4096) = (s.box n.val).input)
      ∧ (if s.aon.fwSlot then t.store.slotB = s.store.slotB else t.store.slotA = s.store.slotA)
      ∧ (t.box n.val).outbox = (s.box n.val).outbox ++ [{ status := 1 }, { status := 0 }] ∧ KeepsBut [.store, .mbx] s t)
  ∧ (∀ (n : Fin 16) (s : State), Runs s n 0x0105 → (s.box n.val).arg 0 < 2 → s.regionRo 3 = false →
    Answers (.fwSlotSelect n) s fun t =>
      t.store = { s.store with preferB := decide ((s.box n.val).arg 0 = 1) }
      ∧ (t.box n.val).outbox = (s.box n.val).outbox ++ [{ status := 0 }] ∧ KeepsBut [.store, .mbx] s t)

/-- R469 to R471, R481: the host port. -/
def Obligations.HostPortCommands : Prop :=
  (∀ s : State, s.pins.pwrOk = true → s.pins.perstN = false →
    exec .perstNRise s = .next { s with pins := { s.pins with perstN := true }, link := { s.link with hostTrain := true } })
  ∧ (∀ s : State, s.link.hostTrain = true → s.clk.pclk = true →
    exec (.pcieLinkUp false) s = .next { s with link := { s.link with hostUp := true, hostTrain := false } }
    ∧ Answers (.pcieLinkUp true) s fun t => t.link.hostUp = true ∧ t.link.hostTrain = false
        ∧ t.log = (logInfo 0x070A 0x0D 0 [] s).log ∧ KeepsBut [.log, .link, .out] s t)
  ∧ (∀ s : State, s.link.hostUp = true → Answers .pcieLinkDown s fun t =>
      t.link.hostUp = false ∧ t.link.hostTrain = true ∧ t.aon.grantHost = none ∧ t.link.bme = false ∧ t.link.pba = []
      ∧ KeepsBut [.aon, .mbx, .link] s t)
  ∧ (∀ (b : Bool) (v : Fin 16) (s : State), s.link.hostUp = true →
    exec (.configurationWrite (.cplTimeout v)) s = .next { s with link := { s.link with cplTimeout := v } }
    ∧ (Answers (.configurationWrite (.busMaster b)) s fun t => t.link.bme = b
        ∧ (if b && s.link.d0 then t.link.pba = [] ∧ t.out.msix = s.link.pba.reverse ++ s.out.msix
           else t.link.pba = s.link.pba ∧ t.out = s.out) ∧ KeepsBut [.link, .out] s t)
    ∧ (Answers (.configurationWrite (.power b)) s fun t => t.link.d0 = b
        ∧ (if b && s.link.bme then t.link.pba = [] ∧ t.out.msix = s.link.pba.reverse ++ s.out.msix
           else t.link.pba = s.link.pba ∧ t.out = s.out) ∧ KeepsBut [.link, .out] s t))
  ∧ (∀ (off : BitVec 36) (len : BitVec 13) (data : List Byte) (s : State), s.link.hostUp = true → s.mainDown = false →
    let x := s.bar2win (off.toNat / 2 ^ 32)
    (x.enable = true → Answers (.bar2Access off (.read len)) s fun t =>
        (∀ e u, dvaRead (barAccess x off.toNat false) len.toNat s = (.error e, u) → t.out.hostData = List.replicate len.toNat 0xFF)
        ∧ (∀ d u, dvaRead (barAccess x off.toNat false) len.toNat s = (.ok d, u) → t.out.hostData = d))
    ∧ (x.enable = true → x.write = true →
        exec (.bar2Access off (.write data)) s = .next (dvaWrite (barAccess x off.toNat true) data s).2)
    ∧ (x.enable = false → Answers (.bar2Access off (.read len)) s fun t =>
        t.out.hostData = List.replicate len.toNat 0xFF ∧ t.link.bar2Deny = satInc s.link.bar2Deny ∧ KeepsBut [.link, .out] s t)
    ∧ (x.enable = false ∨ x.write = false → exec (.bar2Access off (.write data)) s =
        .next { s with link := { s.link with bar2Deny := satInc s.link.bar2Deny } }))
  ∧ (∀ (off : BitVec 36) (len : BitVec 13) (data : List Byte) (s : State), s.link.hostUp = true → s.mainDown = true →
    exec (.bar2Access off (.write data)) s = .next (noteOffline s)
    ∧ Answers (.bar2Access off (.read len)) s fun t =>
        t.out.hostData = List.replicate len.toNat 0xFF ∧ t.aon = (noteOffline s).aon ∧ KeepsBut [.aon, .out] s t)
  ∧ (∀ (n : Fin 16) (w : Fin 16) (s : State), Runs s n 0x0706 → (s.box n.val).exp = false → mbxPart s n.val = 0 →
    (s.box n.val).arg 0 = w.val → (s.box n.val).arg 3 < 4 → (s.box n.val).arg64 1 % 65536 = 0 →
    (s.box n.val).arg64 1 + 2 ^ 32 ≤ 2 ^ 48 → (s.box n.val).arg 4 < 64 →
    partKind s ((s.box n.val).arg 4) ≠ .unused → partKind s ((s.box n.val).arg 4) ≠ .vault →
    Answers (.bar2Window n) s fun t =>
      (let x := t.bar2win w.val
       x.enable = decide ((s.box n.val).arg 3 % 2 = 1) ∧ x.write = decide ((s.box n.val).arg 3 / 2 = 1)
       ∧ x.base = (s.box n.val).arg64 1 ∧ x.part = (s.box n.val).arg 4)
      ∧ (∀ v, v ≠ w.val → t.bar2win v = s.bar2win v)
      ∧ (t.box n.val).outbox = (s.box n.val).outbox ++ [{ status := 0 }] ∧ KeepsBut [.link, .mbx] s t)

/-- R180, R181, R183 to R187, R190: the effect of an accepted ticket of each setting. -/
def Obligations.AcceptedTicketsApply : Prop :=
  ∀ (n : Fin 16) (s : State), (s.box n.val).job = some 0x0202 → ticketStatus s n.val (s.box n.val) = none →
    let b := (s.box n.val).input
    let done (t : State) : Prop := (t.box n.val).outbox = (s.box n.val).outbox ++ [{ status := 0 }]
      ∧ t.prot.challenges = s.prot.challenges.filter fun c => c.id ≠ tkChal b
    (tkSetting b = 1 → Answers (.ticketPartition n) s fun t => t.part (payB b 0) = tkPart b
        ∧ (∀ q, q ≠ payB b 0 → t.part q = s.part q) ∧ done t)
    ∧ (tkSetting b = 2 → Answers (.ticketVaultPolicy n) s fun t =>
        t.prot.vault.parts = BitVec.ofNat 64 (leAt (tkPayload b) 0 8) ∧ t.prot.vault.life = leAt (tkPayload b) 16 4
        ∧ KeepsBut [.prot, .mbx, .log, .link, .out] s t ∧ done t)
    ∧ (tkSetting b = 3 → Answers (.ticketSealedPolicy n) s fun t =>
        t.prot.sealedP.parts = BitVec.ofNat 64 (leAt (tkPayload b) 0 8) ∧ t.prot.sealedP.maxDegree = payB b 105
        ∧ t.prot.sealedP.maxLimbs = payB b 106 ∧ KeepsBut [.prot, .mbx, .log, .link, .out] s t ∧ done t)
    ∧ (tkSetting b = 4 → Answers (.ticketDebugUnlock n) s fun t => t.prot.debugLevel = payB b 0
        ∧ t.prot.debugEnd = some (s.now + tkLife b * 1000000000) ∧ t.pins.coreHalt = (s.pins.coreHalt && decide (3 ≤ payB b 0))
        ∧ KeepsBut [.pins, .prot, .mbx, .log, .link, .out] s t ∧ done t)
    ∧ (tkSetting b = 5 → Answers (.ticketExpertGrant n) s fun t =>
        t.aon.grantHost = (if payB b 0 % 2 = 1 then some (s.now + tkLife b * 1000000000) else s.aon.grantHost)
        ∧ t.aon.grantOob = (if payB b 0 / 2 % 2 = 1 then some (s.now + tkLife b * 1000000000) else s.aon.grantOob)
        ∧ KeepsBut [.aon, .prot, .mbx, .log, .link, .out] s t ∧ done t)
    ∧ (tkSetting b = 6 → Answers (.ticketRollback n) s fun t =>
        (∃ r, t.prot.run = some r ∧ r.counter.val = payB b 0 ∧ r.target = tkTarget b ∧ r.keys = none)
        ∧ t.prot.counters = s.prot.counters ∧ KeepsBut [.prot, .mbx, .log, .link, .out, .fuses] s t ∧ done t)
    ∧ (tkSetting b = 7 → Answers (.ticketExclusion n) s fun t =>
        t.store.exclMap = BitVec.ofNat 8 (payB b 0) ∧ t.aon.excluded = (BitVec.ofNat 8 (payB b 0)).getLsbD s.aon.slot.val
        ∧ (s.aon.phase = .doldrums → t.pins.doneDrv = !t.aon.excluded) ∧ done t)
    ∧ (tkSetting b = 8 → Answers (.ticketCustodyKeys n) s fun t =>
        (∃ r k, t.prot.run = some r ∧ r.counter = 1 ∧ r.target = s.prot.counters[1] + 1 ∧ r.keys = some k
          ∧ k.hc = (tkPayload b).take 97 ∧ k.ts = (tkPayload b).drop 97 ∧ k.gen = s.prot.counters[1] + 1)
        ∧ t.prot.counters = s.prot.counters ∧ t.prot.custody = s.prot.custody
        ∧ KeepsBut [.prot, .mbx, .log, .link, .out, .fuses] s t ∧ done t)
    ∧ (tkSetting b = 9 → Answers (.ticketRevoke n) s fun t =>
        t.aon.grantHost = (if payB b 0 % 2 = 1 then none else s.aon.grantHost)
        ∧ t.aon.grantOob = (if payB b 0 / 2 % 2 = 1 then none else s.aon.grantOob)
        ∧ t.prot.debugLevel = (if payB b 0 / 4 % 2 = 1 then 0 else s.prot.debugLevel)
        ∧ KeepsBut [.aon, .pins, .prot, .mbx, .log, .link, .out] s t ∧ done t)

/-- R179, R180: the refusal of a ticket. -/
def Obligations.RefusedTicketsChangeNothing : Prop :=
  ∀ (n : Fin 16) (s : State) (st d : Nat), (s.box n.val).job = some 0x0202 →
    ticketStatus s n.val (s.box n.val) = some (st, d) →
    ∀ c ∈ [((1 : Nat), Instr.ticketPartition n), (2, .ticketVaultPolicy n), (3, .ticketSealedPolicy n), (4, .ticketDebugUnlock n),
      (5, .ticketExpertGrant n), (6, .ticketRollback n), (7, .ticketExclusion n), (8, .ticketCustodyKeys n), (9, .ticketRevoke n)],
    tkSetting (s.box n.val).input = c.1 → Answers c.2 s fun t =>
      (t.box n.val).outbox = (s.box n.val).outbox ++ [{ status := st, detail := d }]
      ∧ (∀ k : Nat, k ≠ n.val → t.box k = s.box k)
      ∧ t.prot = { s.prot with challenges :=
          if d = 0x0208 then s.prot.challenges.filter fun x => x.id ≠ tkChal (s.box n.val).input else s.prot.challenges }
      ∧ KeepsBut [.prot, .mbx, .log, .link, .out] s t

/-- R176, R184, R190, R192 to R195. -/
def Obligations.ProtectionCommandsTakeEffect : Prop :=
  (∀ (n : Fin 16) (s : State), Runs s n 0x0201 → s.prot.challenges.length < 8 → drbgDown s = false →
    Answers (.ticketChallenge n) s fun t =>
      (∃ c, t.prot.challenges = c :: s.prot.challenges ∧ c.id = s.prot.nextChal.toNat ∧ c.issued = s.now
        ∧ (t.box n.val).outbox = (s.box n.val).outbox
          ++ [{ status := 0, res := [c.id] ++ ((List.range 8).map fun i => leAt c.nonce (4 * i) 4) ++ [600] }])
      ∧ t.prot.nextChal = s.prot.nextChal + 1)
  ∧ (∀ (id : BitVec 32) (s : State), exec (.challengeExpiry id) s =
      .next { s with prot := { s.prot with challenges := s.prot.challenges.filter fun c => c.id ≠ id.toNat } })
  ∧ (∀ (s : State) (r : FuseRun), s.prot.run = some r →
    (∀ v : Bool, v = true ∨ 2 ≤ r.tries → Answers (.fuseBlowDone v) s fun t =>
      t.prot.counters = s.prot.counters.set r.counter (s.prot.counters[r.counter] + 1)
      ∧ (if r.target ≤ s.prot.counters[r.counter] + 1 then
          t.prot.run = none ∧ t.prot.custody = (if r.keys.isSome then r.keys else s.prot.custody)
         else t.prot.run = some { r with tries := 0 } ∧ t.prot.custody = s.prot.custody)
      ∧ KeepsBut [.prot, .fuses] s t)
    ∧ (r.tries < 2 → exec (.fuseBlowDone false) s =
        .next { s with prot := { s.prot with run := some { r with tries := r.tries + 1 } } }))
  ∧ (∀ s : State,
    (s.aon.grantHost.isSome = true → Answers (.grantLapse .expertHost) s fun t => t.aon = { s.aon with grantHost := none }
      ∧ t.log = (logInfo 0x0203 0x00 0 [1] s).log ∧ KeepsBut [.aon, .log, .link, .out] s t)
    ∧ (s.aon.grantOob.isSome = true → Answers (.grantLapse .expertOob) s fun t => t.aon = { s.aon with grantOob := none }
      ∧ t.log = (logInfo 0x0203 0x00 0 [2] s).log ∧ KeepsBut [.aon, .log, .link, .out] s t)
    ∧ (s.prot.debugEnd.isSome = true → Answers (.grantLapse .debugUnlock) s fun t =>
      t.prot = { s.prot with debugLevel := 0, debugEnd := none } ∧ t.pins = { s.pins with coreHalt := false }
      ∧ KeepsBut [.prot, .pins, .log, .link, .out] s t))
  ∧ (∀ (n : Fin 16) (s : State), Runs s n 0x0203 → (s.box n.val).arg 0 < 64 →
    exec (.partitionGet n) s = .next (replyDone n.val (two32 (baseOf s 1 ((s.box n.val).arg 0)).toNat)
      (encodePart (if (s.box n.val).arg 0 = 0 then systemPart s else s.part ((s.box n.val).arg 0))) (s.freed n)))
  ∧ (∀ (n : Fin 16) (s : State), Runs s n 0x0204 →
    exec (.grantStatus n) s = .next (replyDone n.val ([(custodySt s).code, (aonGrant s).toNat, s.prot.debugLevel,
      secondsLeft s.now s.prot.debugEnd] ++ two32 (baseOf s 5 0).toNat ++ two32 (baseOf s 4 0).toNat) [] (s.freed n)))
  ∧ (∀ (n : Fin 16) (s : State), Runs s n 0x0207 →
    exec (.rollbackStatus n) s = .next (replyDone n.val (s.prot.counters.toList ++ [s.prot.run.elim 0 fun r => 2 ^ 31 + r.target])
      (leBytes 8 (baseOf s 6 0).toNat) (s.freed n)))
  ∧ (∀ (n : Fin 16) (s : State), Runs s n 0x0206 → (s.box n.val).arg 0 ≤ 12 →
    exec (.measureGet n) s = .next (replyDone n.val [] (if (s.box n.val).arg 0 = 0 then (measureBlocks s).flatMap (leBytes 48)
      else leBytes 48 (measureBlock s ((s.box n.val).arg 0)).toNat) (s.freed n)))
  ∧ (∀ (n : Fin 16) (s : State), (s.box n.val).job = some 0x0205 → formCheck n.val (s.box n.val) = none → (s.box n.val).inInline = true →
    ∀ c ∈ [((0x84 : Nat), Instr.getVersion n), (0xE1, .getCapabilities n), (0xE3, .negotiateAlgorithms n), (0x81, .getDigests n),
      (0x82, .getCertificate n), (0x83, .challenge n), (0xE0, .getMeasurements n)],
    spdmCode (s.box n.val).input = c.1 → Answers c.2 s fun t =>
      let nonce := leBytes 32 (Config.spdmNonce s.freeCtr).toNat
      let a := spdmAnswer (s.prot.idKey.getD []) nonce (measureBlocks s) s.prot.spdm (s.box n.val).input
      (t.box n.val).outbox = (s.box n.val).outbox ++ [{ status := 0, data := a.reply }]
      ∧ t.prot = { s.prot with spdm := a.conn } ∧ KeepsBut [.prot, .mbx, .freeCtr] s t)
  ∧ (∀ (key nonce : List Byte) (blocks : List Nat) (c : SpdmConn) (b : List Byte), 4 ≤ b.length →
    (spdmCode b = 0x84 → spdmAnswer key nonce blocks c b = ⟨[0x10, 0x04, 0, 0, 0, 1, 0x00, 0x13], { stage := 1, vca := b ++ spdmVersion }⟩)
    ∧ (leAt b 0 1 = 0x13 → c.stage = 3 →
      (spdmCode b = 0x81 → (spdmAnswer key nonce blocks c b).reply = [0x13, 0x01, 1, 1] ++ chainDigest key)
      ∧ (spdmCode b = 0xE0 → measureReqOk b = true → wantsSig b = true → (spdmAnswer key nonce blocks c b).reply =
          measurementsOf nonce blocks b ++ deviceSign key "responder-measurements signing" (c.vca ++ c.meas ++ b ++ measurementsOf nonce blocks b))))

/-- R142: the snapshot, and the consistent value of the two words. -/
def Obligations.TimeSnapshot : Prop :=
  ∀ s : State, s.released = true → Answers .aonTimeLoRead s fun t =>
    t.aon.timeHi = s.aon.timeNs.extractLsb' 32 32 ∧ t.out.readData = s.aon.timeNs.extractLsb' 0 32
    ∧ t.aon.timeHi ++ t.out.readData = s.aon.timeNs ∧ readReg t .aonTimeHi = s.aon.timeNs.extractLsb' 32 32
    ∧ t = { s with aon := { s.aon with timeHi := t.aon.timeHi }, out := { s.out with readData := t.out.readData } }

/-- R12: reads return ones, writes are discarded, either sets OFFLINE_ACC. -/
def Obligations.OfflineBlocks : Prop :=
  ∀ (off : BitVec 24) (val : Word) (full : Bool) (s : State), s.released = true → s.blockDown (blockOf off.toNat) = true →
    exec (.offlineAccess .bar0 off false) s =
      .next { s with aon := { s.aon with offlineAcc := true }, out := { s.out with readData := 0xFFFFFFFF } }
    ∧ exec (.offlineAccess .bar0 off true) s = .next { s with aon := { s.aon with offlineAcc := true } }
    ∧ exec (.registerWrite .bar0 off val full) s = .next { s with aon := { s.aon with offlineAcc := true } }

/-- R10: reserved addresses. -/
def Obligations.ReservedAddresses : Prop :=
  (∀ (off : BitVec 24) (val : Word) (full : Bool) (s : State), s.released = true → s.blockDown (blockOf off.toNat) = false →
    regAt .bar0 off = none →
    exec (.reservedAccess .bar0 off false) s =
      .next { s with aon := { s.aon with rsvdAcc := true }, out := { s.out with readData := 0 } }
    ∧ exec (.reservedAccess .bar0 off true) s = .next { s with aon := { s.aon with rsvdAcc := true } }
    ∧ exec (.registerWrite .bar0 off val full) s = .next { s with aon := { s.aon with rsvdAcc := true } })
  ∧ (∀ off : BitVec 24, blockOf (off.toNat / 4 * 4) = .reserved → regAt .bar0 off = none)

/-- R6, R7, R145, R156: register writes and private transfers. -/
def Obligations.RegisterWritesTakeEffect : Prop :=
  (∀ (bus : RegBus) (off : BitVec 24) (r : RegName) (val : Word) (s : State), busUp s bus = true →
    (bus = .oob → oobReach off = true) → busDown s bus off = false → regAt bus off = some r →
    exec (.registerWrite bus off val false) s = .next s
    ∧ (r ∈ [.aonId, .aonIfver, .aonBoard, .aonClkstat, .aonRstcause, .aonStart, .aonGrant, .aonTimeLo, .aonTimeHi, .aonMbxsum,
        .dblAcksum, .pmxParkmap, .thsMax, .thsLevel, .thsWarnLo, .thsWarnHi, .thsFaultLo, .thsFaultHi, .thsHaltcnt, .glkHostLate,
        .glkBar2Deny, .evlNewest, .evlCommitted] → exec (.registerWrite bus off val true) s = .next s)
    ∧ (r = .aonStatus → exec (.registerWrite bus off val true) s = .next { s with aon := { s.aon with
        expDeny := s.aon.expDeny && !bit val 0, rsvdAcc := s.aon.rsvdAcc && !bit val 1, offlineAcc := s.aon.offlineAcc && !bit val 2 } })
    ∧ (r = .dblIrqStatus → exec (.registerWrite bus off val true) s = .next { s with mbx := { s.mbx with
        irqStatus := s.mbx.irqStatus &&& ~~~ (val.setWidth 16 &&& (if bus = .oob then 0xC000 else 0xFFFF)) } })
    ∧ (∀ i w, r = .mbxCmd i w → pathReach (busPath bus) i.val = true → boxOpen (s.box i.val) = true →
        Answers (.registerWrite bus off val true) s fun t => readReg t (.mbxCmd i w) = val
          ∧ (∀ j v, (j, v) ≠ (i, w) → readReg t (.mbxCmd j v) = readReg s (.mbxCmd j v)) ∧ KeepsBut [.mbx] s t)
    ∧ (s.aon.grantHost = none → (r ∈ [.eccwAddrLo, .eccwAddrHi, .thsMaskLo, .thsMaskHi] ∨ ∃ i, r = .eccwFlip i) →
        exec (.registerWrite bus off val true) s = .next { s with aon := { s.aon with expDeny := true } })
    ∧ (s.aon.grantHost.isSome = true → r = .thsMaskLo → Answers (.registerWrite bus off val true) s fun t =>
        readReg t .thsMaskLo = val ∧ readReg t .thsMaskHi = readReg s .thsMaskHi ∧ KeepsBut [.therm] s t)
    ∧ (bus = .oob → ∀ tgt : OobTarget,
        (targetAnswers s tgt = true → exec (.privateTransfer ⟨tgt, off⟩ (some val)) s = exec (.registerWrite .oob off val true) s
          ∧ (r ≠ .aonTimeLo → exec (.privateTransfer ⟨tgt, off⟩ none) s = .next { s with out := { s.out with readData := readReg s r } }))
        ∧ (targetAnswers s tgt = false → ∀ w, exec (.privateTransfer ⟨tgt, off⟩ w) s = .next s)
        ∧ (∀ a, tgt = .i3c a → s.pins.extest = false → s.pins.i3cDyn = none →
            targetAnswers s tgt = decide (a.toNat = 0x30 + s.aon.slot.val))))

/-- R125 to R132, R138: the stream, the loads, the Vane commands. -/
def Obligations.StreamAndLoads : Prop :=
  (∀ (hdr : List Byte) (s : State), s.released = true →
    (s.start.chain = true → isTrayHdr hdr = true → Answers (.trayHeader hdr) s fun t =>
      t.vane = { s.vane with trayHdr := some hdr, sawOwn := false, passing := none }
      ∧ t.aon.heldTrayId = (if hdrCrcOk hdr then some (hdrTrayId hdr) else none) ∧ t.out.sent = .chain hdr false :: s.out.sent ∧ KeepsBut [.vane, .aon, .out] s t)
    ∧ (shCrcOk hdr = true → shSlot hdr = s.aon.slot.val → Answers (.sectionHeader hdr) s fun t =>
        t.vane = { s.vane with passing := some (hdr, capMode s), sawOwn := true }
        ∧ t.out.sent = .chain (if capMode s = .forward then hdr else List.replicate hdr.length 0) (decide (capMode s ≠ .forward)) :: s.out.sent
        ∧ KeepsBut [.vane, .out] s t))
  ∧ (∀ (body hdr : List Byte) (s : State),
    (s.vane.passing = some (hdr, .capture) → s.aon.trayId ≠ 0 →
      (judge s.aon.trayId (s.vane.trayHdr.getD []) hdr body = .pass →
        (s.aon.phase ≠ .vane → Answers (.sectionEnd body) s fun t =>
          t.vane.staged = some (hdr ++ body, hdrBuildId (s.vane.trayHdr.getD [])) ∧ t.vane.capFail = none ∧ t.aon.heldTrayId = none)
        ∧ (s.aon.phase = .vane → s.vane.st ≠ .loading → Answers (.sectionEnd body) s fun t =>
          t.vane.st = .loading ∧ t.vane.loading = some (hdr ++ body, hdrBuildId (s.vane.trayHdr.getD [])) ∧ t.vane.staged = none))
      ∧ (∀ sub, judge s.aon.trayId (s.vane.trayHdr.getD []) hdr body = .fail sub → s.aon.phase ≠ .vane →
        Answers (.sectionEnd body) s fun t =>
          t.vane.staged = none ∧ t.vane.lastSub = sub ∧ t.vane.capFail = some sub ∧ t.pins.errDrv = true)
      ∧ (∀ sub, judge s.aon.trayId (s.vane.trayHdr.getD []) hdr body = .fail sub → s.aon.phase = .vane → s.failBase < 2 →
        Answers (.sectionEnd body) s fun t =>
          t.vane.st = .failed ∧ t.vane.staged = none ∧ t.aon.startSt = .failed ∧ t.aon.reason = 0x50 ∧ t.pins.errDrv = true))
    ∧ (∀ k, s.vane.passing = some (hdr, .forward) → s.aon.trayId = 0 → s.aon.heldTrayId = some k → k ≠ 0 →
        exec (.sectionEnd body) s = .next (trayPublished (send (.chain body false) { s with
          vane := { s.vane with passing := none }, aon := { s.aon with trayId := k, heldTrayId := none } }))))
  ∧ (∀ (bytes : List Byte) (s : State), s.released = true → s.start.chain = true → leAt bytes 0 4 = 0x3C5AA5C3 →
    s.vane.trayHdr.isSome = true →
    (s.vane.sawOwn = true → exec (.trailer bytes) s =
      .next (send (.chain bytes false) { s with vane := { s.vane with trayHdr := none } }))
    ∧ (s.vane.sawOwn = false → s.aon.trayId ≠ 0 → s.vane.requesting = true → Answers (.trailer bytes) s fun t =>
        t.vane.requesting = false ∧ t.vane.trayHdr = none ∧ t.aon.heldTrayId = none
        ∧ t.log = (logInfo 0x0804 0x0C 0xFF [s.aon.slot.val] s).log))
  ∧ (∀ (s : State), Answers .cclkStopTimeout s fun t => t.vane.passing = none ∧ t.aon.heldTrayId = none
      ∧ (∀ hdr m, s.vane.passing = some (hdr, m) → m ≠ .forward → t.log = (logInfo 0x0803 0x0C 0xFF [s.aon.slot.val] s).log))
  ∧ (∀ (x : List Byte × Nat) (s : State), s.vane.st = .loading →
    (s.vane.loading = some x → stagedOk x.1 = false → s.aon.phase ≠ .vane → Answers .vaneLoadDone s fun t =>
      t.vane.st = .failed ∧ t.vane.lastSub = 8 ∧ KeepsBut [.vane, .log, .link, .out] s t)
    ∧ (s.vane.loading = some x → stagedOk x.1 = true → Answers .vaneLoadDone s fun t =>
      t.vane.st = (if shEmpty (x.1.take 128) || s.vane.disabled then .unloaded else .running) ∧ t.vane.hdr = x.1.take 128
      ∧ t.vane.frames = (if t.vane.st = .running then loadRecs x.1.length (x.1.drop 128) [] else [])
      ∧ t.vane.lastSub = 0 ∧ t.vane.buildId = x.2 ∧ t.vane.measure = Config.sha384 x.1 ∧ t.pins.errDrv = false
      ∧ (s.aon.phase ≠ .vane → KeepsBut [.vane, .pins, .log, .link, .out] s t)
      ∧ (s.aon.phase = .vane → t.aon.failCnt = 0
        ∧ (if s.aon.excluded then t.aon.phase = .excluded else t.aon.phase = .join ∨ t.aon.phase = .serve)))
    ∧ (s.aon.phase ≠ .vane → Answers .vanePllLockTimeout s fun t =>
      t.vane.st = .failed ∧ t.vane.lastSub = 0x0C ∧ t.log = (logUe .unit 0x0802 0x0C 0xFF [0x0C] s).log
      ∧ KeepsBut [.vane, .log, .link, .out] s t))
  ∧ (∀ s : State,
    (s.vane.sending = true → Answers .streamSent s fun t => t.vane = { s.vane with sending := false, samples := s.vane.samples + 1 }
      ∧ (∀ k, (s.box k).await = some .streamSend → (t.box k).outbox = (s.box k).outbox ++ [{ status := 0 }] ∧ (t.box k).await = none)
      ∧ KeepsBut [.mbx, .log, .vane, .link, .out] s t)
    ∧ (0 < s.vane.samples → s.errLvl = true →
        exec .streamErrResend s = .next { s with vane := { s.vane with samples := s.vane.samples - 1, errSends := 0 } })
    ∧ (0 < s.vane.samples → s.errLvl = false → canSend s = true → s.vane.errSends < 2 → Answers .streamErrResend s fun t =>
        t.vane.sending = true ∧ t.vane.errSends = s.vane.errSends + 1 ∧ t.out.sent = .stream 0 :: s.out.sent
        ∧ KeepsBut [.vane, .out] s t)
    ∧ (s.vane.requesting = true → s.aon.phase = .vane → s.aon.startSt = .hold → Answers .streamReqTimer s fun t =>
        t.vane = { s.vane with reqNo := s.vane.reqNo + 1 }
        ∧ t.out.sent = ((usableMesh s).map fun k => Msg.streamReq k s.aon.slot.val (s.store.startSeq.toNat * 65536 + s.vane.reqNo.toNat)).reverse ++ s.out.sent
        ∧ KeepsBut [.vane, .out] s t))
  ∧ (∀ (port : Fin 7) (slot : Fin 8) (num : BitVec 32) (s : State), joinPhase s = true ∨ s.aon.phase = .vane →
    gustUsable s port.val = true → slot ≠ s.aon.slot → (slot.val, num.toNat) ∉ s.vane.relayed →
    Answers (.streamReq port slot num) s fun t => t.vane.relayed = (slot.val, num.toNat) :: s.vane.relayed
      ∧ (canSend s = true → s.vane.lastSend = none → t.vane.sending = true ∧ t.vane.lastSend = some s.now)
      ∧ KeepsBut [.vane, .out] s t)
  ∧ (∀ (n : Fin 16) (s : State),
    (Runs s n 0x0801 → (s.box n.val).exp = false → exec (.vaneStatus n) s = .next (replyDone n.val
      [s.vane.st.code, s.vane.lastSub, s.vane.buildId % 2 ^ 32, s.vane.buildId / 2 ^ 32, s.vane.vpEnable.toNat,
        s.vane.vioEnable.toNat % 2 ^ 32, s.vane.vioEnable.toNat / 2 ^ 32, s.vane.discarded, s.vane.poisoned, s.vane.stale]
      ((s.vane.hdr.drop 32).take 32 ++ leBytes 48 s.vane.measure.toNat) (s.freed n)))
    ∧ (Runs s n 0x0802 → canSend s = true → ((s.box n.val).exp = true → (s.box n.val).arg 0 % 65536 = 0) →
        Answers (.vaneStreamSend n) s fun t => t.vane.sending = true ∧ t.vane.lastSend = some s.now
          ∧ t.out.sent = .stream (if (s.box n.val).exp then (s.box n.val).arg 0 else 0) :: s.out.sent
          ∧ (t.box n.val).await = some .streamSend ∧ (t.box n.val).outbox = (s.box n.val).outbox ++ [{ status := 1 }]
          ∧ KeepsBut [.mbx, .vane, .out] s t)
    ∧ (∀ sending : BitVec 4, Runs s n 0x0803 →
        (s.vane.st = .loading → exec (.vaneDisable n sending) s =
          .next (replyDone n.val [] [] { s.freed n with vane := { s.vane with disabled := true } }))
        ∧ (s.vane.st ≠ .loading → ((s.box n.val).exp = true
            ∨ (s.vane.ending = [] ∧ ∀ p : Fin 4, s.vane.vpEnable[p] = true → sending[p] = false ∧ s.vaneReads p.val = [])) →
          Answers (.vaneDisable n sending) s fun t =>
            t.vane.st = .unloaded ∧ t.vane.disabled = true ∧ t.vane.vpEnable = 0 ∧ t.vane.vioEnable = 0 ∧ t.vane.frames = []
            ∧ (t.box n.val).outbox.getLast? = some { status := 0 } ∧ KeepsBut [.mbx, .vane, .net] s t)))

/-- R133 to R137: the self-port. -/
def Obligations.SelfPortCommands : Prop :=
  (∀ (r : Fin 64) (sending : Bool) (s : State), spLive s = true → (shAllow s.vane.hdr).getLsbD r.val = true →
    r.val ≠ shHome s.vane.hdr → s.region r.val = none → s.vane.opened.length < 4 →
    (regionPort r.val = none → Answers (.spOpen r sending) s fun t =>
      (∃ x, t.region r.val = some x ∧ x.stage = 2 ∧ x.since = s.now) ∧ t.vane.spResult = 0 ∧ KeepsBut [.vane, .freeCtr] s t)
    ∧ (∀ p, regionPort r.val = some p → s.net.image = none → sending = true → Answers (.spOpen r sending) s fun t =>
      (∃ x, t.region r.val = some x ∧ x.stage = 0 ∧ x.since = s.now) ∧ t.vane.spResult = s.vane.spResult ∧ KeepsBut [.vane] s t))
  ∧ (∀ (r : Fin 64) (ended : Bool) (x : OpenRegion) (s : State), s.region r.val = some x → s.vane.ending = [] →
    (x.stage = 0 → Answers (.spOutboundTimeout r ended) s fun t =>
      t.vane.poisoned = s.vane.poisoned + (if ended then 0 else 1)
      ∧ (if (regionPort r.val).elim false fun p => !(s.vaneReads p).isEmpty then t.region r.val = some { x with stage := 1 }
         else (∃ y, t.region r.val = some y ∧ y.stage = 2 ∧ y.recs = x.recs) ∧ (spLive s = true → t.vane.spResult = 0))
      ∧ KeepsBut [.vane, .freeCtr] s t)
    ∧ (x.stage = 1 → Answers (.spResponseWaitEnd r) s fun t =>
        (∃ y, t.region r.val = some y ∧ y.stage = 2 ∧ y.recs = x.recs) ∧ (spLive s = true → t.vane.spResult = 0)
        ∧ (∀ p, regionPort r.val = some p → t.vaneReads p = []) ∧ KeepsBut [.vane, .freeCtr] s t)
    ∧ (∀ p, regionPort r.val = some p → x.long = false → (∀ y ∈ s.net.flight, y.waits ≠ some p) → Answers (.spOpenLong r) s fun t =>
        t.region r.val = some { x with long := true } ∧ t.log = (logUe .unit 0x0807 0x0C p [r.val] s).log
        ∧ KeepsBut [.log, .vane, .link, .out] s t))
  ∧ (∀ (addr : BitVec 24) (x : OpenRegion) (s : State), spLive s = true → s.region (faRegion addr.toNat) = some x → x.stage = 2 →
    (∀ (data : List Byte) (fcrc : Word), data.length = 256 → frameOk addr.toNat 1 = true →
      crc32c (leBytes 4 addr.toNat ++ data) = fcrc.toNat → Answers (.spWrite addr data fcrc) s fun t =>
        frameAt t.vane.frames addr.toNat = data ∧ (∀ a, a ≠ addr.toNat → frameAt t.vane.frames a = frameAt s.vane.frames a)
        ∧ t.vane.spResult = 0
        ∧ t.region (faRegion addr.toNat) = some { x with recs := x.recs ++ (leBytes 4 addr.toNat ++ data) ++ leBytes 4 fcrc.toNat,
                                                             wrote := (addr.toNat, 1) :: x.wrote }
        ∧ KeepsBut [.vane] s t)
    ∧ (∀ (count pat fcrc : Word), frameOk addr.toNat count.toNat = true →
      crc32c (leBytes 4 addr.toNat ++ leBytes 4 count.toNat ++ leBytes 4 pat.toNat) = fcrc.toNat →
      Answers (.spFill addr count pat fcrc) s fun t =>
        (∀ a, frameAt t.vane.frames a = if addr.toNat ≤ a ∧ a < addr.toNat + count.toNat then fillBytes pat.toNat
          else frameAt s.vane.frames a) ∧ t.vane.spResult = 0 ∧ KeepsBut [.vane] s t)
    ∧ (frameOk addr.toNat 1 = true → Answers (.spRead addr) s fun t =>
        (let b := frameRead s x addr.toNat
         t.vane.spOut = 0 :: (((List.range 64).map fun i => leAt b (4 * i) 4) ++ [crc32c b])
         ∧ (faKind addr.toNat = 0 ∨ (x.wrote.any fun e => e.1 ≤ addr.toNat && addr.toNat < e.1 + e.2) = true → b = frameAt s.vane.frames addr.toNat))
        ∧ t.vane.frames = s.vane.frames ∧ KeepsBut [.vane] s t))
  ∧ (∀ (r : Fin 64) (crc : Word) (x : OpenRegion) (s : State), spLive s = true → s.region r.val = some x → x.stage = 2 →
    (crc32c x.recs = crc.toNat → Answers (.spClose r crc) s fun t => t.region r.val = none ∧ t.vane.spResult = 0
      ∧ t.vane.measure = Config.sha384 (leBytes 48 s.vane.measure.toNat ++ leBytes 1 r.val ++ leBytes 4 crc.toNat)
      ∧ t.vane.frames = s.vane.frames ∧ t.vane.flops = initFlops s.vane.frames [r.val] s.vane.flops ∧ KeepsBut [.mbx, .vane, .net] s t)
    ∧ (crc32c x.recs ≠ crc.toNat → Answers (.spClose r crc) s fun t => t.region r.val = some x ∧ t.vane.spResult = 6
      ∧ t.vane.frames = clearLogic r.val s.vane.frames ∧ t.log = (logUe .unit 0x0806 0x0C 0xFF [r.val] s).log
      ∧ KeepsBut [.log, .vane, .link, .out] s t)
    ∧ (Answers (.spAbort r) s fun t => t.region r.val = some x ∧ t.vane.spResult = 0
      ∧ t.vane.frames = clearLogic r.val s.vane.frames ∧ KeepsBut [.vane] s t))
  ∧ (∀ s : State, spLive s = true → exec .spStatus s = .next { s with vane := { s.vane with
      spOut := [s.vane.spResult, s.vane.opened.countP fun e => e.2.stage = 2] } })

/-- R484, R488 to R493: the thermal guard. -/
def Obligations.ThermalEventsTakeEffect : Prop :=
  (∀ (i : Fin 48) (s : State), Answers (.thWarnAssert i) s fun t =>
    t.therm.warn = setBit s.therm.warn i.val true
    ∧ t.therm.targets[targetOf i].level = (if s.therm.targets[targetOf i].level = 0 then 1 else s.therm.targets[targetOf i].level)
    ∧ (∀ g, g ≠ targetOf i → t.therm.targets[g] = s.therm.targets[g]) ∧ KeepsBut [.log, .therm, .link, .out] s t)
  ∧ (∀ (i : Fin 48) (s : State), exec (.thWarnRelease i) s =
      .next { s with therm := { s.therm with warn := setBit s.therm.warn i.val false } })
  ∧ (∀ (g : Fin 6) (s : State), Answers (.thermalLevelTick g) s fun t =>
    t.therm.targets[g].level = (if targetWarn s.therm g then (if s.therm.targets[g].level = 7 then 7 else s.therm.targets[g].level + 1)
      else s.therm.targets[g].level - 1)
    ∧ (∀ h, h ≠ g → t.therm.targets[h] = s.therm.targets[h])
    ∧ (targetWarn s.therm g = false → s.therm.targets[g].level = 1 → s.therm.targets[g].risen = true →
        t.log = (logInfo 0x0906 0x10 g.val [g.val] s).log ∧ t.therm.targets[g].risen = false)
    ∧ KeepsBut [.log, .therm, .link, .out] s t)
  ∧ (∀ (i : Fin 48) (s : State), s.pins.pwrOk = true → s.therm.halt = false →
    (s.therm.faulted.getLsbD i.val = false → s.released = true → Answers (.thHalt i) s fun t =>
      t.therm.halt = true ∧ t.therm.haltCnt = min 65535 (s.therm.haltCnt + 1) ∧ t.therm.conv = none
      ∧ (t.therm.halts.head?.map fun h => (h.tripTs, h.sensor)) = some (s.now, i.val)
      ∧ t.pwr.fgrOn = 0 ∧ t.aon.cause = 8 ∧ t.aon.owner = .warden ∧ t.aon.lease = none ∧ t.aon.startSt = .hold ∧ t.aon.reason = 6
      ∧ t.aon.failCnt = s.aon.failCnt ∧ t.vane.st = .unloaded ∧ t.vane.frames = [] ∧ t.serve.reqs = [])
    ∧ (s.therm.faulted.getLsbD i.val = false → s.released = false → Answers (.thHalt i) s fun t =>
      t.therm.halt = true ∧ t.therm.haltCnt = min 65535 (s.therm.haltCnt + 1) ∧ t.aon.cause = 8
      ∧ KeepsBut [.aon, .therm, .log, .link, .out] s t)
    ∧ (s.therm.faulted.getLsbD i.val = true → exec (.thHalt i) s = .next s))
  ∧ (∀ (i : Fin 48) (cool : Bool) (s : State), Answers (.resumeChange i cool) s fun t =>
    t.therm.hot = setBit s.therm.hot i.val (!cool)
    ∧ t.therm.resumeSince = (if s.therm.halt && t.therm.hot &&& ~~~ s.therm.faulted == 0 then some (s.therm.resumeSince.getD s.now) else none)
    ∧ KeepsBut [.therm] s t)
  ∧ (∀ s : State, s.therm.halt = true → s.therm.resumeSince.isSome = true →
    (popcount s.therm.faulted ≤ 8 → s.released = true → s.clk.backup = false → Answers .thResume s fun t =>
      t.therm.halt = false ∧ t.therm.resumeSince = none ∧ t.aon.cause = s.aon.cause ∧ t.aon.resets = s.aon.resets
      ∧ t.aon.phase = .power ∧ t.aon.startSt = .running ∧ t.pwr.seqRun = true ∧ t.pwr.step = 0 ∧ t.pins.doneDrv = true)
    ∧ (8 < popcount s.therm.faulted → exec .thResume s = .next s))
  ∧ (∀ (i : Fin 48) (s : State), s.pins.pwrOk = true → s.therm.faulted.getLsbD i.val = false →
    Answers (.thSensorFault i) s fun t => t.therm.faulted = setBit s.therm.faulted i.val true
      ∧ t.therm.warn = s.therm.warn ∧ KeepsBut [.log, .therm, .link, .out] s t)
  ∧ (∀ (cold : BitVec 48) (s : State), s.aon.startSt = .hold → s.released = true →
    (s.aon.reason = 1 → (cold &&& ~~~ s.therm.faulted) = 0 → Answers (.holdRecheck cold) s fun t =>
      t.aon.startSt = .running ∧ t.aon.reason = s.aon.failReason ∧ t.therm.cold = cold)
    ∧ (s.aon.reason = 1 → (cold &&& ~~~ s.therm.faulted) ≠ 0 →
        exec (.holdRecheck cold) s = .next { s with therm := { s.therm with cold := cold } })
    ∧ (s.aon.reason = 2 → s.therm.conv = none → exec (.holdRecheck cold) s =
        .next { s with therm := { s.therm with cold := cold, conv := some (0x0000FFFF0000, .training) } }))

/-- R485, R486, R496: conversions. -/
def Obligations.ConversionsAndThermalCommands : Prop :=
  (∀ (val : Word) (s : State), s.released = true → s.blockDown .ths = false →
    (s.aon.grantHost.isSome = true → bit val 0 = true → s.therm.conv = none → exec (.thsStart .host val) s =
      .next { s with therm := { s.therm with conv := some (s.therm.mask, .direct) } })
    ∧ (s.aon.grantHost = none → exec (.thsStart .host val) s = .next { s with aon := { s.aon with expDeny := true } }))
  ∧ (∀ (temps : Vector (BitVec 16) 48) (mask : BitVec 48) (who : ConvBy) (s : State), s.therm.conv = some (mask, who) →
    Answers (.conversionDone temps) s fun t =>
      t.therm.valid = s.therm.valid ||| mask
      ∧ (∀ i : Fin 48, Tab.get 0 t.therm.temp i.val = if mask.getLsbD i.val then temps[i] else Tab.get 0 s.therm.temp i.val)
      ∧ (∀ i : Fin 48, t.therm.faulted.getLsbD i.val = (s.therm.faulted.getLsbD i.val || (mask.getLsbD i.val && outOfRange temps[i])))
      ∧ (t.therm.maxValid = true ∧ (t.therm.maxNone = true ↔ ∀ i : Fin 48, mask.getLsbD i.val = true → t.therm.faulted.getLsbD i.val = true))
      ∧ (t.therm.maxNone = false → ∃ i : Fin 48, t.therm.maxSensor = i.val ∧ t.therm.maxTemp = temps[i] ∧ mask.getLsbD i.val = true
        ∧ t.therm.faulted.getLsbD i.val = false ∧ ∀ j : Fin 48, mask.getLsbD j.val = true → t.therm.faulted.getLsbD j.val = false →
          tempOf temps[j] ≤ tempOf temps[i])
      ∧ (s.therm.convWait = [] → t.therm.conv = none)
      ∧ (∀ n, who = .mailbox n → ∃ r, (t.box n).outbox = (s.box n).outbox ++ [r] ∧ (t.box n).await = none
          ∧ r.status = (if t.therm.maxNone then 0x11 else 0)))
  ∧ (∀ (n : Fin 16) (s : State),
    (Runs s n 0x0901 → (s.box n.val).exp = false → (BitVec.allOnes 48 &&& ~~~ s.therm.faulted) ≠ 0 →
      Answers (.thermalRead n) s fun t => (t.box n.val).await = some (.thermal (BitVec.allOnes 48))
        ∧ (s.therm.conv = none → t.therm = { s.therm with conv := some (BitVec.allOnes 48, .mailbox n.val) })
        ∧ (s.therm.conv.isSome = true → t.therm = { s.therm with convWait := s.therm.convWait ++ [(n.val, BitVec.allOnes 48)] })
        ∧ KeepsBut [.mbx, .therm] s t)
    ∧ (Runs s n 0x0902 → exec (.thermalStatus n) s = .next (replyDone n.val
        (two48 s.therm.warn ++ two48 s.therm.cold ++ two48 s.therm.faulted ++ [(thsLevel s).toNat, s.therm.haltCnt])
        (s.therm.halts.flatMap fun h => leBytes 8 h.tripTs ++ leBytes 8 h.sensor ++ leBytes 8 h.restartTs) (s.freed n))))

/-- R500, R507, R515 to R519: fencing and return. -/
def Obligations.FencesAndReturns : Prop :=
  (∀ (node : Fin 128) (s : State), routerLive s node.val = true → Answers (.routerUe node) s fun t =>
    t.unitSt 0x02 node.val = .faulted)
  ∧ (∀ (g : Fin 16) (s : State), carrying s 0x06 g.val = true → Answers (.meeUe g) s fun t =>
    t.unitSt 0x06 g.val = .faulted ∧ (t.unitRec 0x06 g.val).trigger = 0x0B01 ∧ (t.unitRec 0x06 g.val).trigTs = s.now
    ∧ (∀ ut i : Nat, unitKey ut i ≠ unitKey 0x06 g.val → t.unitRec ut i = s.unitRec ut i)
    ∧ KeepsBut [.pwr, .log, .units, .net, .coll, .lull, .bond, .serve, .link, .out] s t)
  ∧ (∀ (mc : Fin 16) (s : State), carrying s 0x05 (mc.val / 2) = true → Answers (.controllerFault mc) s fun t =>
    t.unitSt 0x05 (mc.val / 2) = .faulted)
  ∧ (∀ (n : Fin 16) (s : State), Runs s n 0x0B03 → (s.box n.val).exp = false → (s.box n.val).arg 1 < unitCount ((s.box n.val).arg 0) →
    exec (.unitStatus n) s = .next (replyDone n.val (unitWords s ((s.box n.val).arg 0) ((s.box n.val).arg 1)) [] (s.freed n)))
  ∧ (∀ (n : Fin 16) (s : State), Runs s n 0x0B04 → (s.box n.val).exp = false → mbxPart s n.val = 0 → epochPending s = false →
    let ut := (s.box n.val).arg 0
    let i := (s.box n.val).arg 1
    mayLeave ut i = true → (s.unitSt ut i = .faulted ∨ s.unitSt ut i = .offline) → (s.unitRec ut i).refused = false →
    Answers (.unitReturn n) s fun t =>
      (t.box n.val).await = some (.unitReturn ut i) ∧ (t.box n.val).outbox = (s.box n.val).outbox ++ [{ status := 1 }]
      ∧ (∀ u ∈ returnSet s ut i, (u.1, u.2, n.val) ∈ t.units.returning)
      ∧ (ut = 0x02 ∨ ut = 0x06 ∨ ut = 0x08 ∨ ut = 0x09 ∨ ut = 0x0D → t.unitSt ut i = .probation)
      ∧ (ut = 0x05 → t.mem.zeroing = setBit s.mem.zeroing i true) ∧ (ut = 0x07 → (t.gport i).step = 1)
      ∧ KeepsBut [.pwr, .mbx, .log, .units, .mem, .link, .out] s t)
  ∧ (∀ (ut inst : Fin 256) (step : Nat) (s : State), ut ≠ 7 → isReturning s ut.val inst.val = true → s.unitSt ut.val inst.val = .probation →
    (ut = 5 → s.mem.zeroing.getLsbD inst.val = false) →
    (Answers (.probationEnd ut inst false step) s fun t =>
      t.unitSt ut.val inst.val = .faulted ∧ (t.unitRec ut.val inst.val).fails = (s.unitRec ut.val inst.val).fails + 1
      ∧ (t.unitRec ut.val inst.val).refused = decide (3 ≤ (s.unitRec ut.val inst.val).fails + 1)
      ∧ (∀ k, (s.box k).await = some (.unitReturn ut.val inst.val) →
          (t.box k).outbox = (s.box k).outbox ++ [{ status := 0, res := [step] }] ∧ (t.box k).await = none))
    ∧ (portsReady s (provingSet s ut.val inst.val) = true → Answers (.probationEnd ut inst true step) s fun t =>
      (∀ u ∈ provingSet s ut.val inst.val, if s.net.stage = 0 then u ∈ t.net.plan.joins else u ∈ t.net.next.joins)
      ∧ t.units = s.units ∧ KeepsBut [.net] s t))
  ∧ (∀ (n : Fin 16) (s : State), Runs s n 0x0B05 → (s.box n.val).exp = false → mbxPart s n.val = 0 → epochPending s = false →
    let ut := (s.box n.val).arg 0
    let i := (s.box n.val).arg 1
    mayLeave ut i = true → s.unitSt ut i = .inService → offlineLimit s ut i = false → Answers (.unitOffline n) s fun t =>
      (t.box n.val).await = some (.unitOffline ut i) ∧ (t.box n.val).outbox = (s.box n.val).outbox
      ∧ (∀ u ∈ leaveSet s ut i, u ∈ t.net.plan.leaves) ∧ t.net.stage = 1 ∧ (ut = 0x05 → t.units.maint = true)
      ∧ KeepsBut [.mbx, .log, .units, .net, .link, .out] s t)

/-- R501, R504 to R506, R521, R522, R524: the event log. -/
def Obligations.EventLogCommands : Prop :=
  (∀ (retries sector spare erase : Nat) (s : State), s.regionRo 5 = false → s.clk.sclk = true → s.log.uncommitted ≠ [] →
    (retries ≤ 2 → erase ≤ 100000 → s.store.logNext + (s.log.uncommitted.take 8).length ≤ s.store.logOldest + logCapacity →
      Answers (.logCommit retries sector spare erase) s fun t =>
        t.store.logNext = s.store.logNext + (s.log.uncommitted.take 8).length
        ∧ t.store.committed = ((s.log.uncommitted.take 8).map fun i => (s.store.coldStarts, Tab.get {} s.log.ring i)).reverse ++ s.store.committed
        ∧ t.log.uncommitted = s.log.uncommitted.filter (fun j => j ∉ s.log.uncommitted.take 8)
        ∧ t.log.ring = s.log.ring ∧ KeepsBut [.store, .log] s t)
    ∧ (2 < retries → (s.store.regions[5]).spares = 0 → Answers (.logCommit retries sector spare erase) s fun t =>
        t.regionRo 5 = true ∧ t.store.committed = s.store.committed ∧ t.store.logNext = s.store.logNext
        ∧ KeepsBut [.store, .log, .link, .out] s t))
  ∧ (∀ (val : Word) (s : State), s.released = true → Answers (.evlAck .host val) s fun t =>
      t.log = { s.log with ack := val.toNat % 65536, armed := !s.log.pendingAfter (val.toNat % 65536) }
      ∧ (s.log.pendingAfter (val.toNat % 65536) = true → s.hostReady = true → t.out.msix = 222 :: s.out.msix)
      ∧ (s.log.pendingAfter (val.toNat % 65536) = false → t.out = s.out) ∧ KeepsBut [.log, .link, .out] s t)
  ∧ (∀ (n : Fin 16) (s : State),
    (Runs s n 0x0B01 → (s.box n.val).exp = false → 1 ≤ (s.box n.val).arg 2 → (s.box n.val).arg 2 ≤ 120 → (s.box n.val).arg 1 < 256 →
      (s.box n.val).arg 3 = 0 → s.store.logOldest ≤ logPos (s.box n.val) →
      let cold := (logAt s (logPos (s.box n.val))).elim s.store.coldStarts Prod.fst
      let c := collectLog s (s.box n.val) cold (s.store.logNext - logPos (s.box n.val)) ((s.box n.val).arg 2) (logPos (s.box n.val))
      exec (.logRead n) s = .next (replyDone n.val [c.2 % 2 ^ 32, c.2 / 2 ^ 32, cold] (c.1.flatMap (eventBytes s.prot.debugLevel)) (s.freed n)))
    ∧ (Runs s n 0x0B02 → (s.box n.val).exp = false → exec (.logStatus n) s = .next (replyDone n.val
        [s.store.logOldest % 2 ^ 32, s.store.logOldest / 2 ^ 32, (s.store.logNext - 1) % 2 ^ 32, (s.store.logNext - 1) / 2 ^ 32,
          s.store.coldStarts, (evlStatus s).toNat, s.log.drops]
        ((List.finRange 6).flatMap (regionBytes s)) (s.freed n))))

/-- R393, R474 to R479: completions and the drift-shelf ports. -/
def Obligations.CompletionsAndDriftPorts : Prop :=
  (∀ (tag : BitVec 14) (who : HostUser) (s : State),
    exec (.completionTimeout (.host tag who)) s = .next (cplRecord 0 0x0D 0 (hostUserFails who
      { s with link := { s.link with hostQuar := s.link.hostQuar ++ [(tag.toNat, s.now)] } }))
    ∧ (Answers (.completionTimeout (.host tag .fetch)) s fun t => t.link.hostQuar = s.link.hostQuar ++ [(tag.toNat, s.now)]
        ∧ KeepsBut [.log, .link, .out] s t)
    ∧ exec (.quarantineEnd (.host tag who)) s =
        .next { s with link := { s.link with hostQuar := s.link.hostQuar.filter fun e => e.1 ≠ tag.toNat } }
    ∧ ((∃ e ∈ s.link.hostQuar, e.1 = tag.toNat) → ∀ o, Answers (.completionArrival (.host tag who) o) s fun t =>
        t.link.hostLate = satInc s.link.hostLate ∧ t.link.unexpected = s.link.unexpected ∧ KeepsBut [.log, .link, .out] s t)
    ∧ ((∀ e ∈ s.link.hostQuar, e.1 ≠ tag.toNat) → exec (.completionArrival (.host tag who) true) s = .next s
        ∧ exec (.completionArrival (.host tag who) false) s =
          .next { s with link := { s.link with unexpected := s.link.unexpected + 1 } }))
  ∧ (∀ (n : Fin 2) (tag : BitVec 16) (s : State),
    (Answers (.completionTimeout (.cxl n tag)) s fun t =>
      (t.cxlPort n.val).quar = (s.cxlPort n.val).quar ++ [(tag.toNat, s.now)]
      ∧ (t.cxlPort n.val).timeouts = (s.cxlPort n.val).timeouts + 1 ∧ KeepsBut [.log, .link, .out] s t)
    ∧ (Answers (.quarantineEnd (.cxl n tag)) s fun t =>
        t.cxlPort n.val = { s.cxlPort n.val with quar := (s.cxlPort n.val).quar.filter fun e => e.1 ≠ tag.toNat } ∧ KeepsBut [.link] s t)
    ∧ ((∃ e ∈ (s.cxlPort n.val).quar, e.1 = tag.toNat) → ∀ o, Answers (.completionArrival (.cxl n tag) o) s fun t =>
        (t.cxlPort n.val).late = satInc (s.cxlPort n.val).late ∧ KeepsBut [.log, .link, .out] s t)
    ∧ (∀ cause, (s.cxlPort n.val).up = true → ∃ u, exec (.cxlDown n cause) s = .next (driftLost (fun d => driftPort s d = n.val) u)
        ∧ (u.cxlPort n.val).up = false ∧ u.unitSt 0x0D (1 + n.val) = .faulted ∧ u.serve.driftBad = setBit s.serve.driftBad n.val true
        ∧ KeepsBut [.log, .units, .serve, .link, .out] s u)
    ∧ ((s.cxlPort n.val).up = true → Answers (.devloadOverload n) s fun t => t.cxlPort n.val =
        { s.cxlPort n.val with halved := true, overloads := (s.cxlPort n.val).overloads + 1 } ∧ KeepsBut [.link] s t)
    ∧ (Answers (.devloadEnd n) s fun t => t.cxlPort n.val = { s.cxlPort n.val with halved := false } ∧ KeepsBut [.link] s t))
  ∧ (∀ (k : Fin 12) (src : Fin 128) (tag : BitVec 16) (s : State),
    (hasTag (s.gport k.val).tracked src.val tag.toNat = true → Answers (.completionTimeout (.gust k src tag)) s fun t =>
      (t.gport k.val).quar = (s.gport k.val).quar ++ [(src.val, tag.toNat, s.now)]
      ∧ hasTag (t.gport k.val).tracked src.val tag.toNat = false ∧ .flit src.val "error response" [tag.toNat] ∈ t.out.sent
      ∧ KeepsBut [.log, .link, .out] s t)
    ∧ (Answers (.quarantineEnd (.gust k src tag)) s fun t => hasTag (t.gport k.val).quar src.val tag.toNat = false ∧ KeepsBut [.link] s t)
    ∧ ((∃ e ∈ (s.gport k.val).quar, e.1 = src.val ∧ e.2.1 = tag.toNat) → ∀ o, Answers (.completionArrival (.gust k src tag) o) s fun t =>
        (t.gport k.val).late = satInc (s.gport k.val).late ∧ KeepsBut [.log, .link, .out] s t))
  ∧ (∀ (page : BitVec 26) (s : State), page.toNat < driftPagesAll s → (s.cxlPort (driftPort s page.toNat)).up = true →
    ∃ u, exec (.cxlPoison page) s = .next (driftLost (· = page.toNat) u) ∧ page.toNat ∈ u.serve.driftBadPages
      ∧ (u.cxlPort (driftPort s page.toNat)).poisons = (s.cxlPort (driftPort s page.toNat)).poisons + 1
      ∧ KeepsBut [.log, .serve, .link, .out] s u)

/-- R281, R297: where stores go, and that nothing else changes. -/
def Obligations.StoresLandWhereAddressed : Prop :=
  (∀ (src : Fin 152) (tag : BitVec 16) (static : Bool) (dpa : BitVec 48) (data : List Byte) (found : List (Fin 68)) (s : State),
    let d := data.take (64 - dpa.toNat % 64)
    let line := dpa.toNat / 64 * 64
    Answers (.hbmWrite src tag static dpa data found) s fun t =>
      (∀ a, ¬ (line ≤ a ∧ a < line + 64) → Tab.get 0 t.mem.bytes a = Tab.get 0 s.mem.bytes a)
      ∧ ((joinBad (s.flaw line).bad (found.map Fin.val)).length ≤ 3 →
          ∀ a, ¬ (dpa.toNat ≤ a ∧ a < dpa.toNat + d.length) → Tab.get 0 t.mem.bytes a = Tab.get 0 s.mem.bytes a)
      ∧ (∀ mc k, dpa.toNat < hbmEnd → ctrlAddr s (dpa.toNat / 64 * 64) = some (mc, k) → stackUp s (mc / 2) = true →
          s.flaw (dpa.toNat / 64 * 64) = {} → found = [] → s.sealed.vaults = [] → static = false → s.mem.armed = false →
          (∀ i (h : i < d.length), Tab.get 0 t.mem.bytes (dpa.toNat + i) = d[i])
          ∧ t.out.sent = .flit src.val "write ack" [tag.toNat] :: s.out.sent ∧ KeepsBut [.mem, .out, .bytes] s t))
  ∧ (∀ (node : Fin 128) (port : SlicePort) (off : BitVec 22) (len : Fin 65) (data : List Byte) (src : Fin 152) (tag : BitVec 16)
      (found : List (Fin 8 × Fin 72)) (s : State),
    let a0 := sliceBase + node.val * 2 ^ 22 + off.toNat
    let d := data.take (64 - a0 % 64)
    (Answers (.sliceAccess node port off len (some data) src tag found) s fun t =>
      (∀ a, ¬ (a0 / 8 * 8 ≤ a ∧ a < a0 / 64 * 64 + 64) → Tab.get 0 t.mem.bytes a = Tab.get 0 s.mem.bytes a)
      ∧ ((∀ w, (joinBad (s.flaw w).bad (foundIn found w)).length ≤ 2) →
          ∀ a, ¬ (a0 ≤ a ∧ a < a0 + d.length) → Tab.get 0 t.mem.bytes a = Tab.get 0 s.mem.bytes a)
      ∧ (sliceOpen s node.val port off.toNat = true → bankFree s node.val off.toNat = true → found = [] → s.mem.flaws = [] → s.mem.armed = false →
          (∀ i (h : i < d.length), Tab.get 0 t.mem.bytes (a0 + i) = d[i])
          ∧ t.out.sent = .flit src.val "write ack" [tag.toNat] :: s.out.sent ∧ KeepsBut [.mem, .out, .bytes] s t))
    ∧ (Answers (.sliceAccess node port off len none src tag found) s fun t => t.mem.bytes = s.mem.bytes)
    ∧ (∀ write, sliceOpen s node.val port off.toNat = true → bankFree s node.val off.toNat = false →
        exec (.sliceAccess node port off len write src tag found) s = .next { s with mem := { s.mem with
          bankWait := s.mem.bankWait ++ [{ node := node, port := port, off := off, len := len, write := write, src := src, tag := tag, found := found }] } }))
  ∧ (∀ (x y : SliceWait) (s : State), bankOf x.node.val x.off.toNat = bankOf y.node.val y.off.toNat → s.mem.backs = [] →
    (s.mem.bankWait = [x, y] ∧ waitRank x ≤ waitRank y ∨ s.mem.bankWait = [y, x] ∧ waitRank x < waitRank y) →
      (bankCycle s).mem.bankWait = [{ y with lost := true }]
      ∧ (bankCycle s).mem.bytes = (serveBank x { s with mem := { s.mem with bankUsed := [], bankWait := [] } }).mem.bytes
      ∧ (bankCycle s).out = (serveBank x { s with mem := { s.mem with bankUsed := [], bankWait := [] } }).out)
  ∧ (∀ (src : Fin 152) (tag : BitVec 16) (static : Bool) (dpa : BitVec 48) (found : List (Fin 68)) (s : State),
    Answers (.hbmRead src tag static dpa found) s fun t => t.mem.bytes = s.mem.bytes)
  ∧ (∀ (dpa : Nat) (data : List Byte) (s : State),
    (∀ a, ¬ (dpa / 64 * 64 ≤ a ∧ a < (dpa + data.length + 63) / 64 * 64) → Tab.get 0 (memWrite dpa data s).2.mem.bytes a = Tab.get 0 s.mem.bytes a)
    ∧ ((∀ a, (joinBad (s.flaw a).bad []).length ≤ 2) →
        ∀ a, ¬ (dpa ≤ a ∧ a < dpa + data.length) → Tab.get 0 (memWrite dpa data s).2.mem.bytes a = Tab.get 0 s.mem.bytes a)
    ∧ ((memWrite dpa data s).1 = true → s.sealed.vaults = [] →
        ∀ i (h : i < data.length), Tab.get 0 (memWrite dpa data s).2.mem.bytes (dpa + i) = data[i]))

/-- R286, R290, R293 to R301, R308. -/
def Obligations.ReadsAndScrubbing : Prop :=
  (∀ (src : Fin 152) (tag : BitVec 16) (dpa : BitVec 48) (found : List (Fin 68)) (s : State),
    let line := dpa.toNat / 64 * 64
    (hbmEnd ≤ dpa.toNat → exec (.hbmRead src tag false dpa found) s = .next (errorResponse src.val tag.toNat s))
    ∧ (∀ mc k, dpa.toNat < hbmEnd → ctrlAddr s line = some (mc, k) → stackUp s (mc / 2) = true →
      (s.flaw line = {} → exec (.hbmRead src tag false dpa []) s =
        .next (send (.flit src.val "read data" (tag.toNat :: (peek s line 64).map BitVec.toNat)) s))
      ∧ (∀ p q : Fin 68, p ≠ q → s.flaw line = {} → Answers (.hbmRead src tag false dpa [p, q]) s fun t =>
          (t.flaw line).poison = true ∧ .flit src.val "error response" [tag.toNat] ∈ t.out.sent)))
  ∧ (∀ (node : Fin 128) (port : SlicePort) (off : BitVec 22) (len : Fin 65) (src : Fin 152) (tag : BitVec 16) (s : State),
    sliceOpen s node.val port off.toNat = true → s.mem.flaws = [] →
    bankFree s node.val off.toNat = true →
    let a := sliceBase + node.val * 2 ^ 22 + off.toNat
    exec (.sliceAccess node port off len none src tag []) s =
      .next (send (.flit src.val "read data" (tag.toNat :: (peek s a (min len.val (64 - a % 64))).map BitVec.toNat))
        { s with mem := { s.mem with bankUsed := bankOf node.val off.toNat :: s.mem.bankUsed } }))
  ∧ (∀ (mc : Fin 16) (s : State), stackUp s (mc.val / 2) = true →
    (Answers (.refresh mc) s fun t => Tab.get 0 t.mem.refreshes mc.val = Tab.get 0 s.mem.refreshes mc.val + 1
      ∧ t.mem = { s.mem with refreshes := t.mem.refreshes } ∧ KeepsBut [.mem] s t)
    ∧ (∀ line rest again written, Tab.get [] s.mem.rescrub mc.val = line :: rest →
        (s.flaw line = {} → Answers (.maintenanceSlot mc [] again written) s fun t =>
          Tab.get [] t.mem.rescrub mc.val = rest ∧ t.mem = { s.mem with rescrub := t.mem.rescrub } ∧ KeepsBut [.mem] s t)
        ∧ (∀ (p : Fin 68) m k, s.flaw line = {} → ctrlAddr s line = some (m, k) → Answers (.maintenanceSlot mc [p] false false) s fun t =>
          Tab.get [] t.mem.rescrub mc.val = rest ∧ Tab.get 0 t.mem.ce (mcIdx m) = satInc (Tab.get 0 s.mem.ce (mcIdx m))
          ∧ t.flaw line = {} ∧ t.mem.bytes = s.mem.bytes))
    ∧ (∀ found again written, s.net.windows = [] →
        exec (.scrub (.mc mc found again written)) s = exec (.maintenanceSlot mc found again written) s))
  ∧ (∀ (n : Fin 128) (s : State), routerLive s n.val = true → s.mem.flaws = [] → Tab.get 0 s.mem.scrubPos n.val + 1 < scrubLines n.val →
    Answers (.scrub (.slice n [])) s fun t => Tab.get 0 t.mem.scrubPos n.val = Tab.get 0 s.mem.scrubPos n.val + 1
      ∧ t.mem = { s.mem with scrubPos := t.mem.scrubPos } ∧ KeepsBut [.mem] s t)
  ∧ (∀ (node : Fin 128) (reqs : List SliceReq) (r : SliceReq) (s : State),
    unitWinner (Tab.get 0 s.mem.unitPtr node.val) reqs = some r → unitsOk (freeUnits s node.val).length r = true →
    Answers (.sliceUnitRequest node reqs) s fun t =>
      (∀ u ∈ (freeUnits s node.val).take r.count, t.unitPart node.val u = some r.part.val)
      ∧ (∀ (k : Fin 128) (u : Nat), u < 192 → (k = node → u ∉ (freeUnits s node.val).take r.count) → t.unitPart k.val u = s.unitPart k.val u)
      ∧ Tab.get 0 t.mem.unitPtr node.val = (unitUser r.who + 1) % 3 ∧ KeepsBut [.mem, .out, .freeCtr] s t)
  ∧ (∀ (h : Fin 8) (s : State), s.mem.zeroing.getLsbD h.val = true → s.units.maint = false → Answers (.zeroFillDone h) s fun t =>
      (∀ a, Tab.get 0 t.mem.bytes a = if onStack s h.val a then 0 else Tab.get 0 s.mem.bytes a)
      ∧ t.mem.zeroing = setBit s.mem.zeroing h.val false ∧ t.unitSt 0x05 h.val = .probation ∧ KeepsBut [.mem, .units, .bytes] s t)

/-- R285, R300, R304 to R306, R309 to R311. -/
def Obligations.MemoryCommandsTakeEffect : Prop :=
  (∀ (val : Word) (s : State), s.released = true → s.mainDown = false →
    (s.aon.grantHost = none → exec (.eccwArm .host val) s = .next { s with aon := { s.aon with expDeny := true } })
    ∧ (s.aon.grantHost.isSome = true → s.mem.armed = false → bit val 0 = true →
      (armRefusal s ≠ 0 → exec (.eccwArm .host val) s = .next { s with mem := { s.mem with eccNow := bit val 1, refused := true } })
      ∧ (armRefusal s = 0 → bit val 1 = false → exec (.eccwArm .host val) s =
          .next { s with mem := { s.mem with eccNow := false, armed := true, armedAt := s.now } })
      ∧ (armRefusal s = 0 → bit val 1 = true → Answers (.eccwArm .host val) s fun t =>
          t.mem.applied = true ∧ t.mem.armed = false ∧ t.mem.injections = s.mem.injections + 1 ∧ t.mem.bytes = s.mem.bytes
          ∧ (t.flaw s.mem.eccAddr).inj = true ∧ KeepsBut [.mem, .log, .link, .out] s t)))
  ∧ (∀ s : State, s.mem.armed = true → s.mem.armedAt + 1000000000 ≤ s.now →
      exec .eccwExpiry s = .next { s with mem := { s.mem with armed := false, expired := true } })
  ∧ (∀ (n : Fin 16) (s : State),
    (Runs s n 0x0401 → (s.box n.val).exp = false → exec (.memStatus n) s = .next (replyDone n.val
      [stackMask s, s.store.retired.length, (s.mem.rescrubDrops.map Prod.snd).sum, s.mem.hbmHours, s.mem.sliceHours]
      (words ((List.range 16).flatMap fun c => [Tab.get 0 s.mem.ce (mcIdx c), Tab.get 0 s.mem.ue (mcIdx c), Tab.get 0 s.mem.scrubPos (mcIdx c)])
        ++ words ((List.range 128).flatMap fun x => [Tab.get 0 s.mem.ce x, Tab.get 0 s.mem.ue x, Tab.get 0 s.mem.scrubPos x])) (s.freed n)))
    ∧ (∀ tab, Runs s n 0x0402 → (s.box n.val).exp = false → 1 ≤ (s.box n.val).arg 1 → (s.box n.val).arg 1 ≤ 3 → (s.box n.val).arg 0 < 64 →
        ((s.box n.val).arg 1 = 3 → (s.box n.val).arg 2 < 8 ∧ stackUp s ((s.box n.val).arg 2) = true) →
        ((s.box n.val).arg 1 = 1 → ∀ h < 8, stackUp s h = true) →
        reserveRegions s (wantMode (s.box n.val)) ((s.box n.val).arg 0) 1024 ((s.box n.val).arg 3) s.mem.regions = some tab →
        Answers (.memInterleave n) s fun t => t.mem = { s.mem with regions := tab }
          ∧ (t.box n.val).outbox = (s.box n.val).outbox ++ [{ status := 0 }] ∧ KeepsBut [.mbx, .mem] s t)
    ∧ (Runs s n 0x0403 → (s.box n.val).exp = false → 1 ≤ (s.box n.val).arg 0 → (s.box n.val).arg 0 ≤ 168 → Answers (.scrubConfig n) s fun t =>
        t.mem = { s.mem with hbmHours := (s.box n.val).arg 0 }
        ∧ (t.box n.val).outbox = (s.box n.val).outbox ++ [{ status := 0 }] ∧ KeepsBut [.mbx, .mem] s t)
    ∧ (Runs s n 0x0404 → (s.box n.val).arg 0 < frameCount → (s.hregion (frameRegion ((s.box n.val).arg 0))).mode ≠ .unbacked →
        let f := (s.box n.val).arg 0
        (s.mem.sysTop ≤ f → (s.frame f).use ≠ .free → Answers (.pageRetire n) s fun t => (t.frame f).retirePending = true
          ∧ (t.box n.val).outbox = (s.box n.val).outbox ++ [{ status := 0 }])
        ∧ (s.mem.sysTop ≤ f → (s.frame f).use = .free → (s.frame f).retirePending = false → frameRetired s f = false → s.store.retired.length < 4096 → (s.store.regions[4]).ro = false →
          Answers (.pageRetire n) s fun t => frameRetired t f = true ∧ f ∈ t.store.retired.map Prod.fst
            ∧ (t.box n.val).outbox = (s.box n.val).outbox ++ [{ status := 0 }]))
    ∧ (∀ ok : BitVec 8, Runs s n 0x0405 → (s.box n.val).exp = false → (s.box n.val).arg 0 < 8 →
        s.unitSt 0x05 ((s.box n.val).arg 0) = .offline → Answers (.pprRun n ok) s fun t =>
          let l := pprRows s (s.box n.val)
          (t.box n.val).outbox = (s.box n.val).outbox ++ [{ status := 0, res := [(List.range l.length).countP fun i => ok.getLsbD i] }]
          ∧ ∀ i (h : i < l.length), ok.getLsbD i = true → l[i] ∉ t.store.hbmRepair ∧ l[i] ∈ t.store.hardRepaired)
    ∧ (Runs s n 0x0406 → (s.box n.val).exp = false → exec (.eccInject n) s = .next (replyDone n.val (eccwRes s) [] (s.freed n)))
    ∧ (Runs s n 0x0406 → (s.box n.val).exp = true → armRefusal (loadEccw (s.box n.val) s) = 0 → s.mem.armed = false →
        Answers (.eccInject n) s fun t => t.mem.eccAddr = (s.box n.val).arg64 0 % 2 ^ 48
          ∧ (if (s.box n.val).arg 6 % 2 = 1 then t.mem.applied = true ∧ t.mem.injections = s.mem.injections + 1
             else t.mem.armed = true ∧ t.mem.armedAt = s.now)
          ∧ t.mem.bytes = s.mem.bytes))

/-- R199 to R201, R223, R225, R228, R229: packets and links. -/
def Obligations.PacketsAndLinks : Prop :=
  (∀ (node : Fin 128) (port : Fin 16) (sb0 : BitVec 64) (data : List Byte) (s : State),
    let sb := mcastVc (stampEpoch s node.val (stampPart s port.val sb0))
    let allowed := sealedRefuses s port.val sb = false ∧ (port.val = 9 → vaneRefuses s (vaneAt node.val) sb = false)
    sourcePort node.val port.val = true → data.length ≤ 4096 →
    (portFenced s node.val port.val = false → sbLegal sb = true → allowed →
      (sbVc sb ≠ 0 → 64 < inFlight s node.val port.val (sbVc sb) + flitsOf data → exec (.galeInject node port sb0 data) s = .next s)
      ∧ ((sbVc sb = 0 ∨ inFlight s node.val port.val (sbVc sb) + flitsOf data ≤ 64) → sbMcast sb = false → unreachable s node.val sb = false → Answers (.galeInject node port sb0 data) s fun t =>
        t.net.flight = s.net.flight ++ [{ id := s.net.nextId, src := node.val, port := port.val, sb := sb, data := data }]
        ∧ t.net.nextId = s.net.nextId + 1
        ∧ Tab.get 0 t.net.ctr (ctrKey (sbVc sb) 0) = Tab.get 0 s.net.ctr (ctrKey (sbVc sb) 0) + flitsOf data ∧ KeepsBut [.net, .vane] s t))
    ∧ ((portFenced s node.val port.val = true ∨ sbLegal sb = false ∨ ¬ allowed) → exec (.galeInject node port sb0 data) s =
        .next (if sbRequest sb then errorResponse node.val (sbTag sb) s else s)))
  ∧ (∀ (idx : Nat) (p : Packet) (s : State), s.net.flight[idx]? = some p → 2 ≤ sbVc p.sb → p.promoted = false →
    Answers (.promotion idx) s fun t => t.net.flight = s.net.flight.set idx { p with promoted := true }
      ∧ Tab.get 0 t.net.ctr (ctrKey 7 p.src) = Tab.get 0 s.net.ctr (ctrKey 7 p.src) + 1 ∧ KeepsBut [.net] s t)
  ∧ (∀ (l : LinkId) (net : NetKind) (hit : Option Nat) (s : State), s.unitSt 0x14 (linkInst l) ≠ .faulted →
    (Answers (.linkError l net false hit) s fun t =>
      Tab.get 0 t.net.ctr (ctrKey 4 (linkInst l)) = Tab.get 0 s.net.ctr (ctrKey 4 (linkInst l)) + 1
      ∧ t.net.flight = s.net.flight ∧ KeepsBut [.net, .log, .link, .out] s t)
    ∧ (net ≠ .gale → Answers (.linkError l net true hit) s fun t => t.unitSt 0x14 (linkInst l) = .faulted
        ∧ (t.unitRec 0x14 (linkInst l)).trigger = 0x0307)
    ∧ (net = .gale → (∀ e ∈ s.net.lastUe, e.1 = linkInst l → e.2 + 1000000 ≤ s.now) → Answers (.linkError l net true hit) s fun t =>
        Tab.get 0 t.net.ctr (ctrKey 5 (linkInst l)) = Tab.get 0 s.net.ctr (ctrKey 5 (linkInst l)) + 1
        ∧ t.net.flight = (match hit with | some i => s.net.flight.eraseIdx i | none => s.net.flight)
        ∧ KeepsBut [.mbx, .log, .vane, .net, .link, .out, .freeCtr] s t))
  ∧ (∀ s : State, s.net.stage = 2 → oldParity s ≠ [] ∨ oldBreeze s ≠ [] → Answers .routeDrainLate s fun t =>
      t.net.flight = (s.net.flight.filter fun p => sbEpoch p.sb = s.epochPar)
      ∧ t.net.breeze = (s.net.breeze.filter fun m => bzEpoch m.hdr = s.epochPar) ∧ KeepsBut [.mbx, .log, .vane, .net, .link, .out, .freeCtr] s t)
  ∧ (∀ (m : BreezeMsg) (s : State),
    (4 ≤ breezeOut s m.src → injectBreeze m s = (false, s))
    ∧ (breezeOut s m.src < 4 → bzLegal m.hdr = true → breezeUnreachable s (m.src / 2) m.hdr = false → injectBreeze m s =
        (true, { s with net := { s.net with breeze := s.net.breeze ++ [{ m with hdr := stampBreeze s (m.src / 2) m.hdr }] } }))
    ∧ bzEpoch (stampBreeze s (m.src / 2) m.hdr) = s.routerPar (m.src / 2) ∧ bzAge (stampBreeze s (m.src / 2) m.hdr) = s.now / 8 % 1024
    ∧ (routerLive s (bzDst m.hdr) = true →
        Tab.get [] (acceptBreeze m s).net.endpoints (bzDst m.hdr) = Tab.get [] s.net.endpoints (bzDst m.hdr) ++ [m]
        ∧ KeepsBut [.net] s (acceptBreeze m s)))

/-- R203 to R207, R221 to R226, R230. -/
def Obligations.EpochsAndWindows : Prop :=
  (∀ (node : Fin 128) (off : BitVec 16) (data : Vector Byte 12) (s : State), s.net.stage ≠ 2 →
    Answers (.routeBankWrite node off data) s fun t =>
      (∀ i (h : i < 12), off.toNat + i < 812 → bankByte t (!s.epochPar) node.val (off.toNat + i) = data[i])
      ∧ (s.net.stage = 1 → ∀ (n : Fin 128) o, o < 812 → (n = node → ¬ (off.toNat ≤ o ∧ o < off.toNat + 12)) →
          bankByte t (!s.epochPar) n.val o = bankByte s (!s.epochPar) n.val o)
      ∧ (∀ n o, bankByte t s.epochPar n o = bankByte s s.epochPar n o)
      ∧ (s.net.stage = 0 → t.net.stage = 1)
      ∧ (off.toNat < 812 → 800 ≤ off.toNat → .flit node.val "bank crc" [bankCrc t (!s.epochPar) node.val] ∈ t.out.sent) ∧ KeepsBut [.net, .out] s t)
  ∧ (∀ (node : Fin 128) (s : State),
    (s.net.stage = 1 → Answers (.epochSwitch node) s fun t => t.net.epoch = s.net.epoch + 1 ∧ t.net.stage = 2
      ∧ t.routerPar node.val = t.epochPar ∧ t.net.switchedAt = s.now)
    ∧ (s.net.stage = 2 → exec (.epochSwitch node) s =
        .next { s with net := { s.net with parity := setBit s.net.parity node.val s.epochPar } }))
  ∧ (∀ s : State, s.net.stage = 2 → oldParity s = [] → oldBreeze s = [] → s.net.plan.joins = [] → s.net.plan.leaves = [] → s.net.next = {} →
    Answers .epochDrainDone s fun t => t.net.stage = 0
      ∧ (∀ k, (s.box k).await = some .routeEpoch →
          (t.box k).outbox = (s.box k).outbox ++ [{ status := 0, res := [s.net.epoch.toNat, s.now - s.net.switchedAt] }]
          ∧ (t.box k).await = none)
      ∧ t.log = (logInfo 0x0301 0x00 0 [s.net.epoch.toNat, s.now - s.net.switchedAt] s).log ∧ KeepsBut [.net, .mbx, .log, .link, .out] s t)
  ∧ (∀ (w : Fin 16) (img : SchedImage) (s : State), s.net.image = some img →
    (s.net.shadow = none → w.val < img.windows.length → (∀ x ∈ s.net.windows, x.idx ≠ w.val ∧ windowsOverlap img x.idx w.val = false) →
      (∃ e ∈ s.net.triggered, e.1 = (img.windows.getD w.val (0, 0)).1 ∧ e.2.1 ≤ s.turn ∧ w.val ∉ e.2.2) → Answers (.windowOpen w) s fun t =>
        t.net.windows = s.net.windows ++ [{ idx := w.val, turn := s.turn }] ∧ KeepsBut [.net] s t)
    ∧ (∀ late inbound x, s.net.windows.find? (fun y => y.idx = w.val) = some x → x.turn + (img.windows.getD w.val (0, 0)).2 ≤ s.turn → ∃ u, exec (.windowClose w late inbound) s =
        .next (releaseLeaving (trySwitch (releaseInvals u))) ∧ u.net.windows = s.net.windows.filter fun y => y.idx ≠ w.val)
    ∧ (∀ late inbound x, s.net.windows.find? (fun y => y.idx = w.val) = some x → s.turn < x.turn + (img.windows.getD w.val (0, 0)).2 →
        exec (.windowClose w late inbound) s = .next s))
  ∧ (∀ (n : Fin 16) (s : State), Runs s n 0x0301 → (s.box n.val).exp = false →
    exec (.netStatus n) s = .next (replyDone n.val
      ([s.net.epoch.toNat, s.net.stage, s.net.image.elim 0 fun i => i.id.toNat] ++ (List.range 4).map fun v => Tab.get 0 s.net.ctr (ctrKey v 0))
      (leBytes 16 (deadRouters s).toNat ++ leBytes 16 (routersIn s (· = .faulted)).toNat ++ leBytes 16 (routersIn s (· = .probation)).toNat)
      (s.freed n)))
  ∧ (∀ (struck : List (BitVec 48 × Fin 72)) (s : State), KeepsBut [.mem] s (strikeAll struck s))
  ∧ (∀ (n : Fin 16) (struck : List (BitVec 48 × Fin 72)) (img : SchedImage) (s0 u : State),
    let s := strikeAll struck s0
    Runs s n 0x0302 → mbxPart s n.val = 0 → schedDetail (s.box n.val) s = none →
    imageAt (s.box n.val) (s.freed n) = (.ok img, u) →
    ((s.box n.val).exp = true → (s.box n.val).arg 3 = 1 → exec (.schedLoad n struck) s0 = .next (replyDone n.val [img.id.toNat] [] u))
    ∧ ((s.box n.val).exp = false → s.net.shadow = none →
      (u.net.windows = [] → vaneBlocks u img = false → Answers (.schedLoad n struck) s0 fun t =>
        t.net.image = some img ∧ t.net.shadow = none
        ∧ (t.box n.val).outbox = (u.box n.val).outbox ++ [{ status := 1 }, { status := 0, res := [img.id.toNat] }]
        ∧ KeepsBut [.net, .mbx] u t)
      ∧ (u.net.windows ≠ [] ∨ vaneBlocks u img = true → Answers (.schedLoad n struck) s0 fun t =>
        t.net.image = u.net.image ∧ t.net.shadow = some img ∧ (t.box n.val).await = some .schedSwitch
        ∧ (t.box n.val).outbox = (u.box n.val).outbox ++ [{ status := 1 }] ∧ KeepsBut [.net, .mbx] u t)))
  ∧ (∀ (n : Fin 16) (struck : List (BitVec 48 × Fin 72)) (s0 : State),
    let s := strikeAll struck s0
    Runs s n 0x0303 → s.net.stage = 0 →
    ((s.box n.val).exp = true → mbxPart s n.val = 0 → (banksAt (s.box n.val) s).1.isSome = true → exec (.routeEpoch n struck) s0 =
      .next (setAwait n.val .routeEpoch (replyAccepted n.val (callerShadow (s.box n.val) (startEpoch (s.freed n))))))
    ∧ ((s.box n.val).exp = false → Answers (.routeEpoch n struck) s0 fun t => t.net.stage = 1 ∧ t.net.plan = s.net.next ∧ t.net.epoch = s.net.epoch
      ∧ (t.box n.val).await = some .routeEpoch ∧ (t.box n.val).outbox = (s.box n.val).outbox ++ [{ status := 1 }]
      ∧ KeepsBut [.net, .mbx] s t))

/-- R231 to R244, R251: groups and reductions. -/
def Obligations.GroupsAndReductions : Prop :=
  (∀ (n : Fin 16) (s : State), Runs s n 0x0304 → (s.box n.val).exp = false → s.net.stage = 0 →
    (∀ (id : Fin 128) i, (s.box n.val).arg 0 = 0 → groupSizeOk (cmdGroup (s.box n.val)) = true →
      groupScopeOk (cmdGroup (s.box n.val)) [] = true → groupNamesOk (cmdGroup (s.box n.val)) = true → freeMcast s id.val = some i → Answers (.mcastGroupDefine n id) s fun t =>
        (∃ g, t.coll.mcast = s.coll.mcast ++ [(i, g)] ∧ g.part = mbxPart s n.val ∧ g.eps = cmdGroup (s.box n.val) ∧ g.valid = false)
        ∧ t.net.stage = 1 ∧ (t.box n.val).await = some (.groupEpoch i) ∧ KeepsBut [.coll, .net, .mbx] s t)
    ∧ (∀ (id : Fin 64) tree i, (s.box n.val).arg 0 = 1 → groupSizeOk (cmdGroup (s.box n.val)) = true →
      groupScopeOk (cmdGroup (s.box n.val)) [] = true → groupNamesOk (cmdGroup (s.box n.val)) = true → eddyRoom s tree = true → freeRed s id.val = some i →
      Answers (.reductionGroupDefine n id tree) s fun t =>
        (∃ g, t.coll.red = s.coll.red ++ [(i, g)] ∧ g.part = mbxPart s n.val ∧ g.contribs = cmdGroup (s.box n.val) ∧ g.valid = false)
        ∧ t.net.stage = 1 ∧ (t.box n.val).await = some (.groupEpoch (256 + i)) ∧ KeepsBut [.coll, .net, .mbx] s t)
    ∧ ((s.box n.val).arg 0 = 2 → deletePart s (s.box n.val) = some (mbxPart s n.val) → Answers (.mcastGroupDelete n) s fun t =>
        (if (s.box n.val).arg 2 = 0 then t.coll.red = s.coll.red ∧ ∀ e ∈ t.coll.mcast, e.1 = (s.box n.val).arg 1 → e.2.deleted = true
         else t.coll.mcast = s.coll.mcast ∧ ∀ e ∈ t.coll.red, e.1 = (s.box n.val).arg 1 → e.2.deleted = true)
        ∧ t.net.stage = 1 ∧ (t.box n.val).await = some (.groupEpoch (256 * (s.box n.val).arg 2 + (s.box n.val).arg 1))
        ∧ KeepsBut [.coll, .net, .mbx] s t))
  ∧ (∀ (g : Fin 64) (inst : Fin 16) (block : Fin 64) (slot : Fin 8) (node : Fin 128) (data : List Byte) (first : Bool) (r : RedGroup)
      (idx : Nat) (s : State), s.redGroup g.val = some r → firstContrib r (fun c => c.1 = slot.val && c.2.1 = node.val) = some idx →
    r.valid = true → r.typ ≠ 0 →
    let i := Tab.get { started := s.now } r.insts inst.val
    let b := Tab.get {} i.blocks block.val
    i.failed = false → (∀ e ∈ b.got, e.1 ≠ idx) → b.delivered = false →
    (b.got.length + 1 < r.contribs.length → ∀ last, Answers (.reduceContribution g inst block slot node data first last) s fun t =>
      ∃ r', t.redGroup g.val = some r'
        ∧ (Tab.get {} (Tab.get { started := s.now } r'.insts inst.val).blocks block.val).got = b.got ++ [(idx, data)]
        ∧ (Tab.get {} (Tab.get { started := s.now } r'.insts inst.val).blocks block.val).delivered = false)
    ∧ (b.got.length + 1 = r.contribs.length → ∀ last, Answers (.reduceContribution g inst block slot node data first last) s fun t =>
      let p := resultPacket s g.val r inst.val block.val (blockBytes r (blockSum r s.freeCtr (b.got ++ [(idx, data)])))
      (sbMcast p.sb = false → unreachable s r.root p.sb = false → p ∈ t.net.flight)
      ∧ (sbMcast p.sb = true → groupUsable s r.root p.sb = true → mcastType p.sb = true →
          ∀ m, s.mcastGroup (sbDst p.sb) = some m → ∀ q ∈ mcastCopies s false p m, q ∈ t.net.flight)))
  ∧ (∀ (g : Fin 64) (inst : Fin 16) (r : RedGroup) (i : RedInst) (s : State), s.redGroup g.val = some r →
    (r.insts.find? fun e => e.1 = inst.val) = some (inst.val, i) → i.failed = false → Answers (.eddyTimeout g inst) s fun t =>
      ∃ r', t.redGroup g.val = some r' ∧ Tab.get { started := 0 } r'.insts inst.val = { started := i.started, failed := true, flags := i.flags })
  ∧ (∀ (n : Fin 16) (r : RedGroup) (s : State), Runs s n 0x0307 → (s.box n.val).exp = false →
    s.redGroup ((s.box n.val).arg 0) = some r → r.part = mbxPart s n.val →
    (eddyAbortBit (s.box n.val) = false → 1 ≤ (s.box n.val).arg 1 → (s.box n.val).arg 1 ≤ 4 → (s.box n.val).arg 4 < 2 →
      (s.box n.val).arg 2 < 512 → (s.box n.val).arg 3 < 16384 → lullPart s ((s.box n.val).arg 3) = mbxPart s n.val →
      ((s.box n.val).arg 1 = 4 → modulusOk (eddyP (s.box n.val)) = true) →
      Answers (.eddyMode n) s fun t =>
        t.redGroup ((s.box n.val).arg 0) = some { r with
          typ := (s.box n.val).arg 1, dest := (s.box n.val).arg 2, done := (s.box n.val).arg 3
          wide := decide ((s.box n.val).arg 4 = 1), modulus := eddyP (s.box n.val), arrival := false, timeoutUs := 10000 }
        ∧ (t.box n.val).outbox = (s.box n.val).outbox ++ [{ status := 0 }] ∧ KeepsBut [.coll, .mbx] s t)
    ∧ (eddyAbortBit (s.box n.val) = true → (s.box n.val).arg 7 % 16 ∈ liveInsts r → Answers (.eddyAbort n) s fun t =>
        (∃ r', t.redGroup ((s.box n.val).arg 0) = some r'
          ∧ (Tab.get { started := 0 } r'.insts ((s.box n.val).arg 7 % 16)).failed = true)
        ∧ (t.box n.val).outbox = (s.box n.val).outbox ++ [{ status := 0 }]))

/-- R246 to R248: the operations of Table CO-5. -/
def Obligations.LullOperations : Prop :=
  (∀ (r : LullReq) (x : LObj) (s : State), s.obj r.obj.toNat = some x → agentRefuses s r = false → forwarded s x = false → x.st = .ready →
    let told (t u : State) : Prop := t.out = u.out ∧ t.link = u.link
    let tells (t : State) (status value : Nat) : Prop := told t (answer r status value s)
    let now (t : State) (y : LObj) : Prop := t.obj r.obj.toNat = some y ∧ ∀ o, o ≠ r.obj.toNat → t.obj o = s.obj o
    (x.kind = .barrier → bit r.arg 0 = x.phase →
      (x.value.toNat + 1 < x.n → Answers (.arrive r) s fun t => now t { x with value := x.value + 1 } ∧ tells t 0 0
        ∧ KeepsBut [.lull, .link, .out] s t)
      ∧ (x.n ≤ x.value.toNat + 1 → Answers (.arrive r) s fun t => now t { x with value := 0, phase := !x.phase, waiters := [] }
        ∧ told t (notifyAll r.obj.toNat 0 0 x.waiters (answer r 0 0 s))
        ∧ KeepsBut [.lull, .link, .out] s t))
    ∧ (waitDone x r.arg = true → Answers (.wait r) s fun t =>
        now t (if x.kind = .event ∧ x.autoClear then { x with value := 0 } else x)
        ∧ tells t 0 (if x.kind = .event then x.payload.toNat else 0) ∧ KeepsBut [.lull, .link, .out] s t)
    ∧ (waitDone x r.arg = false → agentWaits s r.node.val < 16 → Answers (.wait r) s fun t =>
        now t { x with waiters := x.waiters ++ [asWaiter r (.wait r.arg.toNat)] } ∧ tells t 1 0
        ∧ t.lull.waits = (if senderHere s r then s.lull.waits ++ [(r.node.val, r.obj.toNat)] else s.lull.waits) ∧ KeepsBut [.lull, .link, .out] s t)
    ∧ (x.kind = .semaphore → countOk r = true →
      (acquireOk x r.cls.val r.arg.toNat r.resume = true →
        ∀ c ∈ [Instr.acquire r, .tryAcquire r], Answers c s fun t =>
          (∃ y, now t y ∧ y.value.toNat = x.value.toNat - r.arg.toNat ∧ y.waiters = x.waiters) ∧ tells t 0 0 ∧ KeepsBut [.lull, .link, .out] s t)
      ∧ (acquireOk x r.cls.val r.arg.toNat r.resume = false →
        (agentWaits s r.node.val < 16 → Answers (.acquire r) s fun t =>
          now t { x with waiters := x.waiters ++ [asWaiter r (.acquire r.arg.toNat)] } ∧ tells t 1 0 ∧ KeepsBut [.lull, .link, .out] s t)
        ∧ (Answers (.tryAcquire r) s fun t => t.lull = s.lull ∧ tells t 2 0 ∧ KeepsBut [.lull, .link, .out] s t)))
    ∧ (x.kind = .semaphore → x.value.toNat + r.arg.toNat < 2 ^ 32 → x.waiters = [] → Answers (.release r) s fun t =>
        (∃ y, now t y ∧ y.value.toNat = x.value.toNat + r.arg.toNat ∧ y.waiters = []) ∧ tells t 0 0 ∧ KeepsBut [.lull, .link, .out] s t)
    ∧ (x.kind = .event → isTrigger s r.obj.toNat = false → x.waiters = [] → Answers (.set r) s fun t =>
        now t { x with value := 1, payload := BitVec.ofNat 28 (r.arg.toNat % 2 ^ 28) } ∧ tells t 0 0 ∧ KeepsBut [.lull, .link, .out] s t)
    ∧ (x.kind = .event → isTrigger s r.obj.toNat = true → x.waiters = [] → Answers (.set r) s fun t =>
        now t { x with value := 1, payload := BitVec.ofNat 28 (turnOf (s.now + 150) % 2 ^ 28) } ∧ tells t 0 0
        ∧ t.net.triggered = s.net.triggered ++ [(r.obj.toNat, turnOf (s.now + 150), [])] ∧ KeepsBut [.net, .lull, .link, .out] s t)
    ∧ (x.kind = .event → Answers (.clear r) s fun t => now t { x with value := 0 } ∧ tells t 0 0 ∧ KeepsBut [.lull, .link, .out] s t)
    ∧ (x.kind = .counter → x.waiters = [] → Answers (.add r) s fun t =>
        now t { x with value := x.value + BitVec.ofInt 64 r.arg.toInt } ∧ tells t (if addWraps x r.arg.toInt then 5 else 0) 0
        ∧ KeepsBut [.lull, .serve, .link, .out] s t)
    ∧ (Answers (.read r) s fun t => told t (answer r 0 (readValue s r.obj.toNat x / 2 ^ 32) (answer r 0 (readValue s r.obj.toNat x % 2 ^ 32) s))
        ∧ KeepsBut [.link, .out] s t)
    ∧ (Answers (.cancelWait r) s fun t =>
        now t { x with waiters := x.waiters.filter fun w => !(w.slot = r.slot.val && w.node = r.node.val) } ∧ KeepsBut [.lull, .link, .out] s t))
  ∧ (∀ (r : LullReq) (s : State),
    ∀ c ∈ [Instr.arrive r, .wait r, .acquire r, .tryAcquire r, .release r, .set r, .clear r, .add r, .cancelWait r],
      (s.obj r.obj.toNat = none → exec c s = .next (answer r 4 0 s))
      ∧ (∀ x, s.obj r.obj.toNat = some x → agentRefuses s r = true → exec c s = .next (answer r 4 0 s))
      ∧ (∀ x, s.obj r.obj.toNat = some x → forwarded s x = false → x.st = .poisoned → Answers c s fun t => t.lull = s.lull ∧ KeepsBut [.link, .out] s t))
  ∧ (∀ (r : LullReq) (x : LObj) (s : State), s.obj r.obj.toNat = some x → agentRefuses s r = false → forwarded s x = true →
    (x.kind = .event → Answers (.set r) s fun t => t = sendLull x.homeSlot
        (fun e => lullWord 6 r.obj.toNat r.node.val r.slot.val r.cls.val r.resume e r.arg.toNat) s ∧ t.lull = s.lull)
    ∧ (agentWaits s r.node.val < 16 → Answers (.wait r) s fun t => (∀ o, t.obj o = s.obj o)
        ∧ t.lull.waits = (if senderHere s r then s.lull.waits ++ [(r.node.val, r.obj.toNat)] else s.lull.waits) ∧ KeepsBut [.lull, .link, .out] s t))
  ∧ (∀ (slot node obj status value : Nat) (s : State),
    (slot = s.aon.slot.val → (notify slot node obj status value s).out.sent = .notify node obj status value :: s.out.sent
      ∧ KeepsBut [.out] s (notify slot node obj status value s))
    ∧ (∀ k, slot ≠ s.aon.slot.val → lullPort s slot = some k →
      let n := Tab.get 0 (s.gport k).lseqOut 3
      let w := lullWord 15 obj node slot 0 false (s.routerPar (gustNode k)) (status + value * 16)
      (notify slot node obj status value s).out.sent = .link k "LULL" [n, w] :: .link k "LULL" [n, w] :: s.out.sent
      ∧ Tab.get 0 ((notify slot node obj status value s).gport k).lseqOut 3 = n + 1)
    ∧ ((s.gport (meshPort s.aon.slot.val slot)).st = .up → lullPort s slot = some (meshPort s.aon.slot.val slot)))
  ∧ (∀ (node : Fin 152) (o : BitVec 14) (status : Fin 8) (v : BitVec 28) (s : State), exec (.notify node o status v) s =
      .next (if status.val = 1 then s else { s with lull := { s.lull with waits := s.lull.waits.erase (node.val, o.toNat) } }))

/-- R245, R250, R251: allocation. -/
def Obligations.LullAllocation : Prop :=
  (∀ (n : Fin 16) (id : BitVec 14) (home : Fin 128) (k : LKind) (s : State), Runs s n 0x0305 → (s.box n.val).exp = false →
    lkind ((s.box n.val).arg 0) = some k → ((s.box n.val).arg 0 = 0 → 1 ≤ (s.box n.val).arg 2 ∧ (s.box n.val).arg 2 ≤ 1024) → (s.box n.val).arg 1 < 2 →
    lullSettingsOk (s.box n.val) = true →
    interior home.val = true → homedAt s home.val < 256 → 0x003F < id.toNat → lullPart s id.toNat = mbxPart s n.val →
    s.obj id.toNat = none → Answers (.lullAlloc n id home) s fun t =>
      (∃ x, t.obj id.toNat = some x ∧ x.kind = k ∧ x.st = .ready ∧ x.part = mbxPart s n.val ∧ x.home = home.val ∧ x.homeSlot = s.aon.slot.val ∧ x.waiters = []
        ∧ x.tray = decide ((s.box n.val).arg 1 = 1)
        ∧ (k = .semaphore → x.value.toNat = (s.box n.val).arg 2 ∧ x.reserve = (s.box n.val).arg 3)
        ∧ (k = .counter → x.value = BitVec.ofNat 64 ((s.box n.val).arg64 2)) ∧ (k = .barrier → x.n = (s.box n.val).arg 2 ∧ x.value = 0)
        ∧ (k = .event → x.value = 0 ∧ x.autoClear = decide ((s.box n.val).arg 2 = 1)))
      ∧ (∀ o, o ≠ id.toNat → t.obj o = s.obj o)
      ∧ (t.box n.val).outbox = (s.box n.val).outbox ++ [{ status := 0, res := [id.toNat] }] ∧ KeepsBut [.lull, .mbx] s t)
  ∧ (∀ (n : Fin 16) (x : LObj) (s : State), Runs s n 0x0306 → 0x003F < (s.box n.val).arg 0 →
    lullPart s ((s.box n.val).arg 0) = mbxPart s n.val → s.obj ((s.box n.val).arg 0) = some x → (x.st = .poisoned ∨ x.waiters = []) →
    Answers (.lullFree n) s fun t => t.obj ((s.box n.val).arg 0) = none ∧ (∀ o, o ≠ (s.box n.val).arg 0 → t.obj o = s.obj o)
      ∧ (t.box n.val).outbox = (s.box n.val).outbox ++ [{ status := 0 }] ∧ KeepsBut [.lull, .mbx] s t)

/-- R256, R264 to R269, R275: tile training. -/
def Obligations.TileNegotiationAndTraining : Prop :=
  (∀ (q : Fin 4) (cap : List Byte) (s : State), tileTraining s q = true → (s.tile q).step = 0 →
    (∀ p, negotiate q.val cap s.store.harvestCl s.pwr.shares[q] = .ok p → Answers (.getCap q cap) s fun t =>
      t.tile q = { s.tile q with cap := cap, prof := some p, step := 1 } ∧ (∀ r, r ≠ q → t.tile r = s.tile r)
      ∧ t.out.sent = .tcc q.val 2 ((profileBytes p).map BitVec.toNat) :: s.out.sent ∧ KeepsBut [.bond, .out] s t)
    ∧ (∀ r, negotiate q.val cap s.store.harvestCl s.pwr.shares[q] = .error r → Answers (.getCap q cap) s fun t =>
      t.tile q = { s.tile q with cap := cap, fail := r } ∧ (∀ r, r ≠ q → t.tile r = s.tile r)
      ∧ (∀ c : Fin 128, (tileMask q.val).getLsbD c.val = true → (t.port c.val).fence = true ∧ (t.port c.val).prst = false)
      ∧ t.pwr.fgrOn = s.pwr.fgrOn &&& ~~~ tileMask q.val
      ∧ t.log = (logUe .unit 0x0A51 0x09 q.val [r] s).log ∧ KeepsBut [.pwr, .log, .bond, .link, .out] s t))
  ∧ (∀ (q : Fin 4) (s : State), tileTraining s q = true →
    (∀ p, (s.tile q).prof = some p → (s.tile q).step = 1 → s.pwr.bus = none → s.pwr.changes = [] → Answers (.putProfile q) s fun t =>
      t.tile q = { s.tile q with step := 2 }
      ∧ (∃ f, t.pwr.bus = some f ∧ (voltFrames s (2 + q.val) p.vdef).head? = some (f.vpm, f.op, f.data))
      ∧ t.pwr.changes = [.volt none (2 + q.val) p.vdef] ∧ KeepsBut [.pwr, .bond, .out] s t)
    ∧ (2 ≤ (s.tile q).step → exec (.trainCtl q false) s = .next (send (.tcc q.val 4 [0]) s))
    ∧ (tileRailMoves s q = true → exec (.trainCtl q true) s = .next s)
    ∧ (2 ≤ (s.tile q).step → tileRailMoves s q = false → Answers (.trainCtl q true) s fun t =>
        t.tile q = { s.tile q with step := 4 } ∧ t.out.sent = .tcc q.val 4 [1] :: s.out.sent ∧ KeepsBut [.bond, .out] s t)
    ∧ (∀ p, (s.tile q).prof = some p → (s.tile q).step = 4 → Answers (.tclkOk q) s fun t =>
        t.tile q = { s.tile q with step := 5 } ∧ t.clk = { s.clk with tclk := setBit s.clk.tclk q.val true }
        ∧ (∀ c : Fin 128, (clustersOf q.val p.clusters).getLsbD c.val = true → s.store.harvestCl.getLsbD c.val = false →
            (t.pwr.fgrOn ||| t.pwr.fgrQueue).getLsbD c.val = true)
        ∧ KeepsBut [.clk, .pwr, .bond] s t)
    ∧ (Answers (.tileTrainTimeout q) s fun t =>
        t.tile q = { s.tile q with fail := 8 } ∧ (∀ r, r ≠ q → t.tile r = s.tile r)
        ∧ t.pwr.fgrOn = s.pwr.fgrOn &&& ~~~ tileMask q.val
        ∧ t.log = (logUe .unit 0x0A51 0x09 q.val [8] s).log ∧ KeepsBut [.pwr, .log, .bond, .link, .out] s t))
  ∧ (∀ (q : Fin 4) (s : State), 5 ≤ (s.tile q).step → Answers (.putLanemap q) s fun t =>
      (∃ l, t.out.sent = .tcc q.val 3 (l ++ [crc32c (l.flatMap (leBytes 4))]) :: s.out.sent
        ∧ ∀ e ∈ s.store.laneAsm ++ s.store.laneLearned.map Prod.fst, tileOf e.1 = q.val → e.1 * 8192 + e.2.1 * 128 + e.2.2 * 2 + 1 ∈ l)
      ∧ KeepsBut [.out] s t)
  ∧ (∀ (q : Fin 4) (w : Word) (s : State), Answers (.getStatus q w) s fun t =>
      t.tile q = { s.tile q with status := some w } ∧ (∀ r, r ≠ q → t.tile r = s.tile r) ∧ KeepsBut [.bond] s t)
  ∧ (∀ (n : Fin 16) (p : TileProfile) (s : State), Runs s n 0x0A23 → (s.box n.val).exp = false → s.windsockOwns = true →
    (s.box n.val).arg 0 < 4 → (s.tile (tileIdx ((s.box n.val).arg 0))).prof = some p → s.pwr.bus = none → s.pwr.changes = [] →
    Answers (.tileVoltage n) s fun t =>
      (t.box n.val).await = some .tileVoltage ∧ (t.box n.val).outbox = (s.box n.val).outbox
      ∧ (∃ f, t.pwr.bus = some f ∧ (voltFrames s (2 + (s.box n.val).arg 0) p.vdef).head? = some (f.vpm, f.op, f.data))
      ∧ KeepsBut [.pwr, .mbx, .out] s t)

/-- R255, R259, R260, R264, R273, R274, R278: bond ports. -/
def Obligations.BondPortTestsAndFaults : Prop :=
  (∀ (c : Fin 128) (s : State),
    ((s.port c.val).prst = true → s.pwr.fgrOn.getLsbD c.val = true → Answers (.crdyRise c) s fun t =>
      t.port c.val = { s.port c.val with crdy := true } ∧ (∀ k, k ≠ c.val → t.port k = s.port k) ∧ KeepsBut [.bond] s t)
    ∧ (portTested s c.val = true → (s.port c.val).prst = true → (s.port c.val).crdy = false → Answers (.crdyTimeout c) s fun t =>
      t.unitSt 0x01 c.val = .absent ∧ t.pwr.fgrOn = setBit s.pwr.fgrOn c.val false
      ∧ t.port c.val = { s.port c.val with prst := false, crdy := false, fence := true, ready := false }
      ∧ (∀ k, k ≠ c.val → t.port k = s.port k) ∧ KeepsBut [.pwr, .units, .bond] s t))
  ∧ (∀ (c : Fin 128) (ident : Fin 32) (faults : List (Fin 59 × Fin 36)) (s : State), portTested s c.val = true →
    let l := faults.map fun e => (e.1.val, e.2.val)
    let q : Fin 4 := Fin.ofNat 4 (tileOf c.val)
    let wrong := decide (localCluster (tileOf c.val) ident.val ≠ c.val)
    let found := (if (s.port c.val).step < 7 then l else (s.port c.val).found ++ l).eraseDups
    let merged := mergeFaults l (if (s.port c.val).step < 7 then mapMasks s c.val else (s.port c.val).masks)
    (wrong = true → tileTraining s q = true → Answers (.laneTestDone c 7 ident faults) s fun t =>
      t.tile q = { s.tile q with fail := 3 } ∧ t.log = (logUe .unit 0x0A51 0x09 q.val [3] s).log
      ∧ KeepsBut [.pwr, .log, .bond, .link, .out] s t)
    ∧ (wrong = false ∨ tileTraining s q = false → Answers (.laneTestDone c 7 ident faults) s fun t =>
      t.port c.val = { s.port c.val with step := 7, identBad := (s.port c.val).identBad || wrong, found := found, masks := merged }
      ∧ KeepsBut [.bond] s t)
    ∧ (Answers (.laneTestDone c 8 ident faults) s fun t =>
      t.port c.val = { s.port c.val with step := 8, found := found, masks := merged } ∧ KeepsBut [.bond] s t)
    ∧ (Answers (.laneTestDone c 9 ident faults) s fun t =>
      t.port c.val = { s.port c.val with step := 9, found := found, masks := merged }
      ∧ (∀ e ∈ s.store.laneLearned, e.1.1 ≠ c.val → e ∈ t.store.laneLearned) ∧ KeepsBut [.store, .log, .bond, .link, .out] s t)
    ∧ (faults = [] → (s.port c.val).identBad = false → masksOk (s.port c.val) = true → (s.port c.val).crdy = true →
      Answers (.laneTestDone c 11 ident faults) s fun t =>
        t.port c.val = { s.port c.val with step := 11, ready := true } ∧ KeepsBut [.bond] s t)
    ∧ (faults ≠ [] → Answers (.laneTestDone c 11 ident faults) s fun t =>
        t.unitSt 0x01 c.val = .absent ∧ (t.port c.val).ready = false ∧ (t.port c.val).fence = true
        ∧ t.pwr.fgrOn = setBit s.pwr.fgrOn c.val false ∧ KeepsBut [.pwr, .units, .bond] s t))
  ∧ (∀ (c : Fin 128) (s : State), carrying s 0x01 c.val = true →
    (Answers (.cerrN c) s fun t => t.unitSt 0x01 c.val = .faulted ∧ (t.unitRec 0x01 c.val).trigger = 0x0A58
      ∧ (t.port c.val).cerr = true ∧ (t.port c.val).fence = true ∧ t.pwr.fgrOn.getLsbD c.val = false)
    ∧ ((s.port c.val).prst = true → s.pwr.fgrOn.getLsbD c.val = true → Answers (.crdyFall c) s fun t =>
      t.unitSt 0x01 c.val = .faulted ∧ (t.unitRec 0x01 c.val).trigger = 0x0A58
      ∧ (t.port c.val).crdy = false ∧ (t.port c.val).fence = true ∧ t.pwr.fgrOn.getLsbD c.val = false)
    ∧ (∀ f : BondFrame, bondCrcOk f = true → f.valid = true → f.vote = false →
      (f.chan = .gale → (s.port c.val).fifo = [] →
        let vc := sbVc (rewriteFlit s c.val f.sb)
        (vc ≠ 0 → 64 < inFlight s c.val 4 vc + flitsOf f.data → Answers (.bondFrame c f) s fun t =>
          t.port c.val = { s.port c.val with fifo := [(rewriteFlit s c.val f.sb, f.data)] } ∧ KeepsBut [.bond] s t)
        ∧ ((vc = 0 ∨ inFlight s c.val 4 vc + flitsOf f.data ≤ 64) → ∃ u, exec (.bondFrame c f) s = .next (injectPacket c.val 4 (rewriteFlit s c.val f.sb) f.data u)
          ∧ (∀ k, u.port k = s.port k) ∧ KeepsBut [.bond] s u))
      ∧ (f.chan = .gale → 4 ≤ fifoCount (s.port c.val) f.sb → Answers (.bondFrame c f) s fun t =>
        t.unitSt 0x01 c.val = .faulted ∧ (t.unitRec 0x01 c.val).trigger = 0x0A59)
      ∧ (f.chan = .breeze →
        let m : BreezeMsg := { src := 2 * c.val, hdr := rewriteBreeze c.val f.sb, body := f.data.take 16 }
        (8 ≤ (s.port c.val).breeze.length → Answers (.bondFrame c f) s fun t =>
          t.unitSt 0x01 c.val = .faulted ∧ (t.unitRec 0x01 c.val).trigger = 0x0A59)
        ∧ ((s.port c.val).breeze.length < 8 → 4 ≤ breezeOut s (2 * c.val) → (∀ x ∈ (s.port c.val).breeze, x.src = 2 * c.val) →
          Answers (.bondFrame c f) s fun t => t.port c.val = { s.port c.val with breeze := (s.port c.val).breeze ++ [m] } ∧ KeepsBut [.bond] s t)
        ∧ ((s.port c.val).breeze = [] → breezeOut s (2 * c.val) < 4 → bzLegal m.hdr = true → breezeUnreachable s c.val m.hdr = false →
          Answers (.bondFrame c f) s fun t => t.net.breeze = s.net.breeze ++ [{ m with hdr := stampBreeze s c.val m.hdr }]
            ∧ (∀ k, t.port k = s.port k) ∧ KeepsBut [.net, .bond] s t))
      ∧ (f.chan = .lull → exec (.bondFrame c f) s = .next (if fld f.sb 0 4 = 15 then s else lullMessage (rewriteLull s c.val f.sb) s))
      ∧ (f.chan = .slice → exec (.bondFrame c f) s =
          .next (if f.cmd then openStream c.val f.sid.val f.sb [] s else sliceData c.val f.sid.val f.data s)))
    ∧ (∀ sb : BitVec 64, sbSrc (rewriteFlit s c.val sb) = c.val ∧ fld (rewriteBreeze c.val sb) 7 8 = c.val
      ∧ (clusterPart s c.val < 64 → sbPart (rewriteFlit s c.val sb) = clusterPart s c.val)
      ∧ fld (rewriteLull s c.val sb) 18 7 = c.val ∧ fld (rewriteLull s c.val sb) 25 3 = s.aon.slot.val
      ∧ bit (rewriteLull s c.val sb) 31 = s.routerPar c.val)
    ∧ (∀ f : BondFrame, bondCrcOk f = false → f.vote = false → f.chan ≠ .gale ∨ f.fixed = false →
      ((s.port c.val).lastUe = none → Answers (.bondFrame c f) s fun t =>
        (t.port c.val).lastUe = some s.now ∧ KeepsBut [.log, .bond, .link, .out] s t)
      ∧ (∀ at0, (s.port c.val).lastUe = some at0 → s.now < at0 + 1000000 → Answers (.bondFrame c f) s fun t =>
        t.unitSt 0x01 c.val = .faulted ∧ (t.unitRec 0x01 c.val).trigger = 0x0A55)))

/-- R261, R324: slice streams and windows. -/
def Obligations.SliceStreamsAndWindows : Prop :=
  (∀ (c : Fin 128) (sid : Fin 16) (cmd : BitVec 64) (data : List Byte) (s : State), carrying s 0x01 c.val = true → cmdLegal cmd = true →
    (∀ e ∈ (s.port c.val).streams, e.1 ≠ sid.val) →
    let a0 := sliceBase + c.val * 2 ^ 22 + cmdOff cmd * 64
    (inWindow (s.port c.val) (cmdOff cmd) (cmdLen cmd) = false → Answers (.sliceStreamCommand c sid cmd data) s fun t =>
      t.out.sent = .flit c.val "slice end" [sid.val, 1] :: s.out.sent ∧ KeepsBut [.bond, .out] s t)
    ∧ (inWindow (s.port c.val) (cmdOff cmd) (cmdLen cmd) = true →
      (cmdOp cmd = 1 → Answers (.sliceStreamCommand c sid cmd data) s fun t =>
        (∃ r ∈ [0, 2], t.out.sent.head? = some (.flit c.val "slice end" [sid.val, r]))
        ∧ t.mem.bytes = s.mem.bytes ∧ (∀ e ∈ (t.port c.val).streams, e.1 ≠ sid.val))
      ∧ (cmdOp cmd = 2 → Answers (.sliceStreamCommand c sid cmd []) s fun t =>
        ((t.port c.val).streams.find? fun e => e.1 = sid.val) = some (sid.val, { write := true, off := cmdOff cmd, len := cmdLen cmd })
        ∧ KeepsBut [.bond] s t)
      ∧ (Answers (.sliceStreamCommand c sid cmd data) s fun t =>
        ∀ a, ¬ (a0 ≤ a ∧ a < a0 + cmdLen cmd * 64) → Tab.get 0 t.mem.bytes a = Tab.get 0 s.mem.bytes a)))
  ∧ (∀ (c : Fin 128) (base len : BitVec 16) (s : State),
    (windowOk s c.val base.toNat len.toNat = true → (s.port c.val).streams = [] → Answers (.clusterWindowSet c base len) s fun t =>
      t.port c.val = { s.port c.val with winBase := base.toNat, winLen := len.toNat } ∧ (∀ k, k ≠ c.val → t.port k = s.port k)
      ∧ KeepsBut [.bond] s t)
    ∧ (windowOk s c.val base.toNat len.toNat = false ∨ (s.port c.val).streams ≠ [] → exec (.clusterWindowSet c base len) s =
      .next (send (.flit c.val "dispatch failed" [base.toNat, len.toNat]) s)))

/-- R199, R228, R235, R243, R297, R323: delivery. -/
def Obligations.DeliveryAtEndpoints : Prop :=
  ∀ (idx : Nat) (addr : BitVec 48) (len : BitVec 13) (p : Packet) (s : State), s.net.flight[idx]? = some p → routeBlocked s p = false →
    let gone : State := { s with net := { s.net with flight := s.net.flight.eraseIdx idx } }
    let node := sbDst p.sb
    let delivered : Msg := .flit node "delivered" (sbType p.sb :: sbTag p.sb :: sbSrc p.sb :: p.data.map BitVec.toNat)
    let bounded := ∀ a, (joinBad (s.flaw a).bad []).length ≤ 2
    (sbRemote p.sb = false → eddyAt s p = none →
      (∀ dest, portFenced s node (endPort dest) = true → exec (.flitDelivery idx dest addr len) s = .next (refusePacket p
        (if dest = .vane then { gone with vane := { s.vane with discarded := s.vane.discarded + galeFlits p } } else gone)))
      ∧ (∀ dest, portFenced s node (endPort dest) = false → sbPoison p.sb = true → sbMcast p.sb = false →
        exec (.flitDelivery idx dest addr len) s = .next (netCount 9 node gone))
      ∧ (∀ dest own, (dest = .cluster ∨ ∃ ch, dest = .dma ch) → endPart s dest node = some own → portFenced s node (endPort dest) = false →
        sbPoison p.sb = false →
        (sbPart p.sb = 0 ∨ sbPart p.sb = own → answered s node (endPort dest) p = none → Answers (.flitDelivery idx dest addr len) s fun t =>
          t.out.sent = delivered :: s.out.sent ∧ t.net.flight = s.net.flight.eraseIdx idx ∧ KeepsBut [.net, .out] s t)
        ∧ (sbPart p.sb ≠ 0 → sbPart p.sb ≠ own → Answers (.flitDelivery idx dest addr len) s fun t =>
          t.net.flight = s.net.flight.eraseIdx idx ∧ t.mem = s.mem ∧ t.lull = s.lull
          ∧ delivered ∉ t.out.sent.take (t.out.sent.length - s.out.sent.length)))
      ∧ (sbType p.sb = 0 → bounded → Answers (.flitDelivery idx .mc addr len) s fun t =>
        ∀ a, ¬ (addr.toNat ≤ a ∧ a < addr.toNat + p.data.length) → Tab.get 0 t.mem.bytes a = Tab.get 0 s.mem.bytes a)
      ∧ (sbType p.sb = 0 → bounded → let a0 := sliceBase + node * 2 ^ 22 + addr.toNat % 2 ^ 22
        Answers (.flitDelivery idx .slice addr len) s fun t =>
          ∀ a, ¬ (a0 ≤ a ∧ a < a0 + p.data.length) → Tab.get 0 t.mem.bytes a = Tab.get 0 s.mem.bytes a))
    ∧ (∀ dest, Answers (.flitDelivery idx dest addr len) s fun t => sbType p.sb ≠ 0 → sbType p.sb ≠ 5 → t.mem.bytes = s.mem.bytes)
    ∧ (∀ dest img x f, sbRemote p.sb = false → eddyAt s p = some (img, x, f) → heldFlits s f.node x.num = [] →
      (∀ k ∈ f.inputs, k ≠ x.num → heldFlits s f.node k = [] → Answers (.flitDelivery idx dest addr len) s fun t =>
        heldFlits t f.node x.num = [p] ∧ t.net = gone.net ∧ KeepsBut [.net, .coll] s t)
      ∧ (∀ k q y, f.inputs = [x.num, k] → k ≠ x.num → heldFlits s f.node k = [q] →
        img.streams.find? (fun z => z.num = f.out) = some y → Answers (.flitDelivery idx dest addr len) s fun t =>
          heldFlits t f.node x.num = [] ∧ heldFlits t f.node k = []
          ∧ ∃ r, t.net.flight = s.net.flight.eraseIdx idx ++ [r] ∧ r.src = f.node ∧ sbDst r.sb = y.dstNode % 128 ∧ r.data = mergeData s [p, q]))

/-- R313, R318 to R322, R338, R372: translation. -/
def Obligations.TranslationsAndInvalidations : Prop :=
  (∀ (point : Fin 136) (who : TransUser) (dva : BitVec 48) (write : Bool) (tag : BitVec 16) (a : Access) (s : State),
    accessOf s point.val who dva.toNat write tag.toNat = some a →
    (who ≠ .cluster ∨ a.dva < apertureBase →
      (∀ e, tlbHit s point.val a = some e → requesterOk a e.dpa = true → denied a e = none →
        exec (.addressTranslation point who dva write tag) s = .next s)
      ∧ (∀ e c, tlbHit s point.val a = some e → requesterOk a e.dpa = true → denied a e = some c → Answers (.addressTranslation point who dva write tag) s fun t =>
        t.out.sent.head? = some (.flit (pointNode point.val) "error response" [a.tag, c]) ∧ t.mmu.tlb = s.mmu.tlb ∧ t.mem = s.mem)
      ∧ (tlbHit s point.val a = none →
        (∀ e, (walk a s).1 = .ok e → Answers (.addressTranslation point who dva write tag) s fun t =>
          (Tab.get [] t.mmu.tlb point.val).head? = some e ∧ e.part = a.part ∧ e.dva ≤ a.dva ∧ a.dva < e.dva + e.size
          ∧ t.mem.bytes = s.mem.bytes ∧ t.mmu.queues = s.mmu.queues)
        ∧ (∀ c l, (walk a s).1 = .error (c, l) → (Tab.get ({} : FaultQ) s.mmu.queues a.part).recs.length < 64 →
          Answers (.addressTranslation point who dva write tag) s fun t =>
            (Tab.get ({} : FaultQ) t.mmu.queues a.part).recs = (Tab.get ({} : FaultQ) s.mmu.queues a.part).recs
              ++ [{ faultRec a c l s with fseq := (Tab.get ({} : FaultQ) s.mmu.queues a.part).seq }]
            ∧ t.out.sent.head? = some (.flit (pointNode point.val) "error response" [a.tag, c])
            ∧ t.mmu.tlb = s.mmu.tlb ∧ t.mem.bytes = s.mem.bytes)))
    ∧ (who = .cluster → apertureBase ≤ a.dva → ∀ d, apertureAt s point.val a = .ok d →
        exec (.addressTranslation point who dva write tag) s = .next s))
  ∧ (∀ (idx : Nat) (i : Inval) (s : State), s.mmu.inval[idx]? = some i → i.started = true → i.chan = none →
    Answers (.invalidationDone idx) s fun t =>
      (∀ k, ∀ e ∈ Tab.get [] t.mmu.tlb k, invalHits i e = false)
      ∧ (∀ k, ∀ e ∈ Tab.get [] s.mmu.tlb k, invalHits i e = false → e ∈ Tab.get [] t.mmu.tlb k)
      ∧ t.mmu.inval = s.mmu.inval.eraseIdx idx
      ∧ (∀ n, i.mbx = some n → (s.box n).await.isSome = true → (∀ j ∈ s.mmu.inval.eraseIdx idx, j.mbx ≠ some n) →
          (t.box n).outbox = (s.box n).outbox ++ [{ status := 0 }] ∧ (t.box n).await = none)
      ∧ (i.frames = [] → i.mbx = none → KeepsBut [.mmu] s t))
  ∧ (∀ (n : Fin 16) (s : State), Runs s n 0x0407 → (s.box n.val).exp = false → (s.box n.val).arg 0 < 64 →
    mbxPart s n.val = 0 ∨ mbxPart s n.val = (s.box n.val).arg 0 →
    let q := Tab.get {} s.mmu.queues ((s.box n.val).arg 0)
    let root := ((Tab.get none s.mmu.roots ((s.box n.val).arg 0)).getD 0) * 65536
    Answers (.mmuStatus n) s fun t =>
      (t.box n.val).outbox = (s.box n.val).outbox
        ++ [{ status := 0, res := [root % 2 ^ 32, root / 2 ^ 32, q.ovf], data := q.recs.flatMap faultBytes }]
      ∧ Tab.get {} t.mmu.queues ((s.box n.val).arg 0) = { q with recs := [] } ∧ KeepsBut [.mbx, .mmu] s t)

/-- R327, R332, R338: control messages. -/
def Obligations.DmaControlMessages : Prop :=
  (∀ (src : DmaSrc) (ch : Fin 64) (s : State), ctrlOk s src ch.val = false →
    ∀ c ∈ [Instr.dmaPause src ch, .dmaResume src ch, .dmaCancel src ch false, .dmaCancel src ch true, .cancelReq src ch 0, .dmaSetup src ch 0 4,
        .dmaKick src ch 0],
      Answers c s fun t => t.dma = { s.dma with badCtrl := s.dma.badCtrl + 1 } ∧ KeepsBut [.log, .dma, .link, .out] s t)
  ∧ (∀ (src : DmaSrc) (ch : Fin 64) (s : State), ctrlOk s src ch.val = true →
    let c := s.dchan ch.val
    (∀ tail : BitVec 12, src ≠ .doorbell ∨ s.mainDown = false →
      (c.cur.isSome = true → c.st ≠ .idle → Answers (.dmaKick src ch tail) s fun t =>
        t.dchan ch.val = { c with tail := tail.toNat % c.size } ∧ (∀ k, k ≠ ch.val → t.dchan k = s.dchan k) ∧ KeepsBut [.dma] s t)
      ∧ (c.st = .idle → c.cur = none → c.head = tail.toNat % c.size → Answers (.dmaKick src ch tail) s fun t =>
        t.dchan ch.val = { c with tail := c.head } ∧ (∀ k, k ≠ ch.val → t.dchan k = s.dchan k) ∧ KeepsBut [.dma] s t)
      ∧ (c.st = .idle → c.cur = none → c.head ≠ tail.toNat % c.size →
        let k := setChan ch.val { c with tail := tail.toNat % c.size, st := .running } s
        ∀ b, (dvaRead (dmaAccess k ch.val (c.base + 64 * c.head) false) 64 k).1 = .ok b →
          1 ≤ (decodeDesc b).op → (decodeDesc b).op ≤ 4 → reqCancelled s (dmaPart s ch.val) (decodeDesc b).req = false →
          Answers (.dmaKick src ch tail) s fun t =>
            t.dchan ch.val = { c with tail := tail.toNat % c.size, st := .running, cur := some (decodeDesc b), begun := false, next := 0, failAt := none }
            ∧ t.mem.bytes = s.mem.bytes))
    ∧ (∀ (base : BitVec 36) (log2 : Fin 16), c.st = .idle → c.head = c.tail → 4 ≤ log2.val → log2.val ≤ 12 →
      Answers (.dmaSetup src ch base log2) s fun t =>
        t.dchan ch.val = { c with base := base.toNat * 4096, log2 := log2.val, head := 0, tail := 0 }
        ∧ (∀ k, k ≠ ch.val → t.dchan k = s.dchan k) ∧ KeepsBut [.dma] s t)
    ∧ (c.cur.isSome = true → c.flight = [] → c.stops = [] →
      (Answers (.dmaPause src ch) s fun t => (t.dchan ch.val).st = .paused ∧ (t.dchan ch.val).next = c.watermark
        ∧ (t.dchan ch.val).cur = c.cur ∧ (t.dchan ch.val).stops = [] ∧ (∀ k, k ≠ ch.val → t.dchan k = s.dchan k))
      ∧ ∃ u, exec (.dmaCancel src ch false) s = .next (reportCancels (dmaRun ch.val (dmaFinal ch.val 4 0 c.watermark u)))
        ∧ u.dchan ch.val = { c with st := .running } ∧ KeepsBut [.mmu, .dma] s u)
    ∧ (c.cur.isSome = true → c.flight ≠ [] →
      (Answers (.dmaPause src ch) s fun t => t.dchan ch.val = { c with stops := c.stops ++ [.pause] } ∧ KeepsBut [.dma, .out] s t)
      ∧ (∀ ring, Answers (.dmaCancel src ch ring) s fun t =>
        t.dchan ch.val = { c with stops := c.stops ++ [.cancel ring] } ∧ KeepsBut [.dma, .out] s t))
    ∧ (c.st = .paused ∨ c.st = .faulted ∨ c.st = .error → ∀ x, c.cur = some x → c.stops = [] →
      (c.begun = false → Answers (.dmaResume src ch) s fun t =>
        t.dchan ch.val = { c with st := .running } ∧ (∀ k, k ≠ ch.val → t.dchan k = s.dchan k) ∧ KeepsBut [.dma, .out] s t)
      ∧ (c.begun = true → x.op ≠ 3 → ∃ u, exec (.dmaResume src ch) s = .next (settle ch.val u)
          ∧ u.dchan ch.val = { c with st := .running } ∧ KeepsBut [.dma] s u))
    ∧ (c.cur = none → c.st = .faulted ∨ c.st = .error → c.head ≠ c.tail → Answers (.dmaPause src ch) s fun t =>
        t.dchan ch.val = { c with st := .paused } ∧ (∀ k, k ≠ ch.val → t.dchan k = s.dchan k) ∧ KeepsBut [.dma] s t)
    ∧ (c.st = .idle ∨ c.st = .running → exec (.dmaResume src ch) s = .next s)
    ∧ (∀ req : BitVec 21, (∀ k, ∀ x, (s.dchan k).cur = some x → x.req ≠ req.toNat) → Answers (.cancelReq src ch req) s fun t =>
        (dmaPart s ch.val, req.toNat) ∈ t.dma.cancelled ∧ (∀ e ∈ s.dma.cancelled, e ∈ t.dma.cancelled)
        ∧ .flit 0 "CANCEL_REQ complete" [dmaPart s ch.val, req.toNat] ∈ t.out.sent ∧ t.dma.chan = s.dma.chan ∧ KeepsBut [.dma, .out] s t))
  ∧ (∀ (n : Fin 16) (s : State), Runs s n 0x0408 → (s.box n.val).exp = false → (s.box n.val).arg 0 < 64 →
    seesPart s n.val (dmaPart s ((s.box n.val).arg 0)) = true →
    let c := s.dchan ((s.box n.val).arg 0)
    exec (.dmaStatus n) s = .next (replyDone n.val [c.st.code, c.base % 2 ^ 32, c.base / 2 ^ 32, c.log2, c.head, c.tail, c.flight.length]
      (if c.cur.isSome ∧ (c.st = .paused ∨ c.st = .faulted ∨ c.st = .error) then c.last.head?.elim (statusArea 0 0 0 0) lastArea
       else statusArea 0 0 0 0) (s.freed n)))

/-- R328 to R331, R333: descriptors. -/
def Obligations.DmaDescriptorsAndChunks : Prop :=
  (∀ (ch : Fin 64) (x : Desc) (s : State), (s.dchan ch.val).cur = some x → (s.dchan ch.val).st = .running → (s.dchan ch.val).begun = false →
    let c := s.dchan ch.val
    let u := setChan ch.val { c with begun := true } s
    (∀ e, descRefusal s (dmaPart s ch.val) x = some e →
      ∀ i ∈ [Instr.dmaCopy ch, .dmaFill ch, .dmaTlbi ch, .dmaNop ch],
        (x.op = 1 ∧ i = .dmaCopy ch ∨ x.op = 2 ∧ i = .dmaFill ch ∨ x.op = 3 ∧ i = .dmaTlbi ch ∨ x.op = 4 ∧ i = .dmaNop ch) →
        exec i s = .next (dmaRun ch.val (dmaFinal ch.val 9 e 0 s)))
    ∧ (descRefusal s (dmaPart s ch.val) x = none →
      (x.op = 1 → c.flight = [] → c.stops = [] → c.next = 0 → x.srcSpace = 0 → x.dstSpace = 0 → chunkLen x 0 = x.len →
        ∀ a b v, translate (dmaAccess u ch.val x.src false) u = (.ok a, v) → (translate (dmaAccess v ch.val x.dst true) v).1 = .ok b →
        Answers (.dmaCopy ch) s fun t =>
          (t.dchan ch.val).flight = [{ off := 0, len := x.len, srcDpa := some a, dstDpa := some b }] ∧ (t.dchan ch.val).next = x.len
          ∧ (t.dchan ch.val).begun = true ∧ t.mem.bytes = s.mem.bytes)
      ∧ (x.op = 2 → c.flight = [] → c.stops = [] → c.next = 0 → x.dstSpace = 0 → chunkLen x 0 = x.len →
        ∀ b, (translate (dmaAccess u ch.val x.dst true) u).1 = .ok b → Answers (.dmaFill ch) s fun t =>
          (t.dchan ch.val).flight = [{ off := 0, len := x.len, srcDpa := none, dstDpa := some b }] ∧ (t.dchan ch.val).next = x.len
          ∧ (t.dchan ch.val).begun = true ∧ t.mem.bytes = s.mem.bytes)
      ∧ (x.op = 3 → Answers (.dmaTlbi ch) s fun t =>
          t.dchan ch.val = { c with begun := true, tlbi := true }
          ∧ t.mmu.inval = s.mmu.inval ++ [{ byDpa := false, part := dmaPart s ch.val, lo := x.dst, len := x.len, started := !partInWindow s (dmaPart s ch.val), since := s.now, chan := some ch.val }] ∧ KeepsBut [.mmu, .dma] s t)
      ∧ (x.op = 4 → exec (.dmaNop ch) s = .next (dmaRun ch.val (dmaFinal ch.val 1 0 0 u)))))
  ∧ (∀ (ch : Fin 64) (idx : Fin 16) (x : Desc) (c : Chunk) (s : State), (s.dchan ch.val).cur = some x →
    (s.dchan ch.val).flight[idx.val]? = some c → 2 ≤ (s.dchan ch.val).flight.length →
    ((s.dchan ch.val).failAt = none ∨ (s.dchan ch.val).stops ≠ [] → ∀ cause, ∀ e ∈ [(ChunkEnd.hostErr, 5), (.remoteErr cause, 7), (.linkDown, 8)], chunkCanEnd s x c e.1 = true → Answers (.dmaChunkAck ch idx e.1) s fun t =>
      (t.dchan ch.val).flight = (s.dchan ch.val).flight.eraseIdx idx.val
      ∧ (t.dchan ch.val).failAt = some (((s.dchan ch.val).failAt.elim c.off (min c.off)))
      ∧ ((s.dchan ch.val).failAt = none → (t.dchan ch.val).stops = (s.dchan ch.val).stops ++ [.stop e.2 0]
          ∧ KeepsBut [.log, .dma, .link, .out] s t))
    ∧ (∀ e, chunkCanEnd s x c e = false → exec (.dmaChunkAck ch idx e) s = .next s)
    ∧ (∀ host a, x.op = 2 → c.dstDpa = some a → (s.dchan ch.val).stops ≠ [] → (∀ k, (joinBad (s.flaw k).bad []).length ≤ 2) → Answers (.dmaChunkAck ch idx (.ok host)) s fun t =>
      (t.dchan ch.val).flight = (s.dchan ch.val).flight.eraseIdx idx.val
      ∧ ∀ k, ¬ (a ≤ k ∧ k < a + c.len) → Tab.get 0 t.mem.bytes k = Tab.get 0 s.mem.bytes k))

/-- R339, R340, R356, R358: edges and overruns. -/
def Obligations.StepEdgesAndOverruns : Prop :=
  (∀ s : State, s.aon.phase = .serve →
    (stepDone s = true → Answers .stepEdge s fun t =>
      t.serve.step = s.serve.step + 1 ∧ t.serve.edgeAt = s.now ∧ t.serve.prevEdge = s.serve.edgeAt ∧ t.serve.dispatchedAt = s.now
      ∧ t.serve.lastTime = s.now - s.serve.dispatchedAt ∧ t.serve.nextPool = [] ∧ t.serve.packets = [] ∧ t.serve.decided = []
      ∧ .flit 0 "STEP_MON" [s.serve.step] ∈ t.out.sent)
    ∧ (stepDone s = false → exec .stepEdge s = .next s)
    ∧ (∀ g < 16, groupInWindow s g = true → exec .stepOverrun s = .next s)
    ∧ (stepDone s = false → (∀ g < 16, groupInWindow s g = false) → s.serve.dispatchedAt + overrunAfter s ≤ s.now → Answers .stepOverrun s fun t =>
      t.serve.step = s.serve.step + 1 ∧ t.serve.edgeAt = s.now ∧ t.serve.dispatchedAt = s.now
      ∧ .flit 0 "STEP_MON" [s.serve.step] ∈ t.out.sent
      ∧ ∀ g ∈ lateGroups s, ∀ c ∈ groupClusters g, carrying s 0x01 c = true → t.unitSt 0x01 c = .faulted))
  ∧ (∀ s : State, s.aon.phase ≠ .serve → exec .stepEdge s = .next s ∧ exec .stepOverrun s = .next s)
  ∧ (∀ (grp : Nat) (l : List Nat) (s : State), l.Nodup → ∀ c ∈ l,
      .flit c "dispatch" [s.serve.step, grp, progressSlot s c] ∈ (notices grp l s).out.sent ∧ progressSlot (notices grp l s) c = progressSlot s c)

/-- R359, R361, R363, R364, R376, R389 to R391: handoffs and drift. -/
def Obligations.HandoffsAndDrift : Prop :=
  (∀ (slot : Fin 8) (req : BitVec 21) (part : Fin 64) (cls : Fin 4) (pages : BitVec 15) (s : State), s.aon.phase = .serve →
    slot ≠ s.aon.slot → s.units.maint = false → (s.spart part.val).program.isSome = true → (s.spart part.val).role ≠ 1 →
    (∀ e ∈ s.serve.guests, ¬ (e.slot = slot.val ∧ e.origin = req.toNat)) →
    let a := (steward part.val (pages.toNat + 1) cls.val false false req.toNat s).1
    let port := meshPort s.aon.slot.val slot.val
    (∀ l, a = .ok l → Answers (.handoffPageRequest slot req part cls pages true) s fun t =>
      t.serve.guests = s.serve.guests ++ [{ slot := slot.val, part := part.val, origin := req.toNat, frames := l }]
      ∧ (∀ f ∈ l, t.frame f = { use := .request, tag := req.toNat, part := part.val })
      ∧ t.out.sent.head? = some (.link port "handoff grant" [req.toNat, 1]))
    ∧ (∀ h, a = .error h → Answers (.handoffPageRequest slot req part cls pages true) s fun t =>
      t.serve.guests = s.serve.guests ∧ t.out.sent.head? = some (.link port "handoff grant" [req.toNat, 0])))
  ∧ (∀ (req : BitVec 21) (r : Req) (s : State), s.req req.toNat = some r →
    let only (t : State) (x : Req) : Prop := t.req req.toNat = some x ∧ ∀ j, j ≠ req.toNat → t.req j = s.req j
    (r.st = .handoff → r.asked = true →
      (Answers (.handoffPageGrant req true true) s fun t => only t { r with asked := false, shipping := true }
        ∧ t.out.sent = .link (meshPort s.aon.slot.val (peerOf s r)) "handoff chunks" (req.toNat :: r.pages) :: s.out.sent
        ∧ KeepsBut [.serve, .out] s t)
      ∧ (Answers (.handoffPageGrant req false true) s fun t => only t { r with asked := false } ∧ KeepsBut [.serve] s t))
    ∧ (r.st = .handoff → r.shipping = true → Answers (.handoffShipped (.origin req)) s fun t =>
        only t { r with st := .remote, shipping := false, freeNext := true, prop := none } ∧ KeepsBut [.serve] s t)
    ∧ (∀ (slot : Fin 8) (toks : List Word), r.st = .remote → peerOf s r = slot.val → Answers (.remoteTokens slot req toks) s fun t =>
        only t { r with inbox := r.inbox ++ toks.map BitVec.toNat } ∧ KeepsBut [.serve] s t)
    ∧ (r.st = .remote → r.cancelSent = true → Answers (.remoteCancelConfirm req) s fun t =>
        only t { r with confirmed := true } ∧ KeepsBut [.serve] s t)
    ∧ (r.st = .paused → partKind s r.part ≠ .vault → r.move = none → (∃ f, r.plist = .frame f) →
      let l := collectDrift s (driftPagesAll s) 0 (r.pages.length + 1)
      ∀ c ∈ [Instr.pauseHoldExpiry req true, .driftRetry req],
        (c = .pauseHoldExpiry req true → r.hostPaused = false ∧ r.retryAt = none) →
        (c = .driftRetry req → ∃ k, r.retryAt = some k ∧ k ≤ s.serve.step) →
        (l.length = r.pages.length + 1 → Answers c s fun t =>
          (∃ m, t.req req.toNat = some { r with move := some m, retryAt := none } ∧ m.out = true ∧ m.granted = some l)
          ∧ (∀ d ∈ l, Tab.get 0 t.serve.driftUsed d = req.toNat + 1) ∧ KeepsBut [.serve] s t)
        ∧ (l.length ≠ r.pages.length + 1 → Answers c s fun t =>
          only t { r with retryAt := some (s.serve.step + 64), fullNoted := true } ∧ KeepsBut [.log, .serve, .link, .out] s t))
    ∧ (∀ m, r.move = some m → m.copying = true → m.copied = false → Answers (.driftCopyDone req) s fun t =>
        t.req req.toNat = some { r with move := some { m with copied := true } }
        ∧ (∀ a, (∀ p ∈ movePairs r m, ¬ (p.2 ≤ a ∧ a < p.2 + 65536)) → Tab.get 0 t.mem.bytes a = Tab.get 0 s.mem.bytes a)
        ∧ (∀ a b, s.mem.wf → movePairs r m = [(a, b)] → ∀ k, k < 65536 → Tab.get 0 t.mem.bytes (b + k) = Tab.get 0 s.mem.bytes (a + k))
        ∧ KeepsBut [.mem, .serve, .bytes] s t)
    ∧ (∀ e, r.st = .drifted → r.move = none → r.ttlEnd = some e → e ≤ s.now → Answers (.driftTtlExpiry req) s fun t =>
        only t { r with expired := true } ∧ KeepsBut [.serve] s t))
  ∧ (∀ (slot : Fin 8) (req : BitVec 21) (c : GuestCtx) (g : GuestGrant) (s : State),
    (s.serve.guests.find? fun e => e.slot = slot.val && (e.origin = req.toNat && e.arrived.isNone)) = some g →
    Answers (.handoffShipped (.peer slot req c)) s fun t =>
      { g with arrived := some (guestReq g c) } ∈ t.serve.guests
      ∧ (∀ a, (∀ f ∈ g.frames.dropLast, ¬ (f * 65536 ≤ a ∧ a < f * 65536 + 65536)) → Tab.get 0 t.mem.bytes a = Tab.get 0 s.mem.bytes a)
      ∧ KeepsBut [.mem, .serve, .bytes] s t)
  ∧ (∀ (slot : Fin 8) (s : State), Answers (.handoffPathTimeout slot) s fun t =>
      (∀ i r, s.req i = some r → r.st = .remote → r.guest = false → peerOf s r = slot.val → t.req i = some { r with rebuild := true })
      ∧ (∀ i r, s.req i = some r → r.st = .handoff → r.guest = false → peerOf s r = slot.val →
          t.req i = some { r with asked := false, shipping := false }) ∧ KeepsBut [.serve] s t)
  ∧ (∀ (f : BitVec 23) (s : State), (s.frame f.toNat).use = .zeroing → (s.frame f.toNat).retirePending = false → regionUp s (frameRegion f.toNat) = true →
    Answers (.frameZeroed f) s fun t =>
      t.frame f.toNat = {} ∧ (∀ a, Tab.get 0 t.mem.bytes a
        = if f.toNat * 65536 ≤ a ∧ a < f.toNat * 65536 + 65536 then 0 else Tab.get 0 s.mem.bytes a)
      ∧ KeepsBut [.mem, .serve, .bytes] s t)
  ∧ (∀ (f : BitVec 23) (s : State), (s.frame f.toNat).use = .zeroing → (s.frame f.toNat).retirePending = true → regionUp s (frameRegion f.toNat) = true →
    Answers (.frameZeroed f) s fun t => frameRetired t f.toNat = true ∧ (t.frame f.toNat).use ≠ .zeroing)

/-- R342, R345 to R351, R359 to R361, R365: rings. -/
def Obligations.RingsAndDescriptors : Prop :=
  (∀ (k : Fin 64) (val : Word) (s : State), s.mainDown = false → (s.ring k.val).set = true →
    (Answers (.ringSqtail k val) s fun t => t.ring k.val = { s.ring k.val with tail := val.toNat % 2 ^ (s.ring k.val).subLog }
      ∧ (∀ j, j ≠ k.val → t.ring j = s.ring j) ∧ KeepsBut [.serve] s t)
    ∧ (Answers (.ringCqhead k val) s fun t => t.ring k.val = { s.ring k.val with cq := val.toNat % 2 ^ (s.ring k.val).resLog }
      ∧ (∀ j, j ≠ k.val → t.ring j = s.ring j) ∧ KeepsBut [.serve] s t))
  ∧ (∀ (k : Fin 64) (s : State), ingestReady s k.val = true →
    let x := s.ring k.val
    let rd := dvaRead (serveAccess x.part (x.subDva + 64 * x.head) false) 64 s
    let moved := (x.head + 1) % 2 ^ x.subLog
    (∀ e, rd.1 = .error e → ∀ c ∈ [Instr.submit k, .cancel k, .pause k, .resume k, .nop k], Answers c s fun t =>
      t.ring k.val = { x with stopped := true } ∧ t.mem.bytes = s.mem.bytes ∧ t.serve.reqs = s.serve.reqs)
    ∧ (∀ b, rd.1 = .ok b →
      (leAt b 0 1 = 1 → submitOk b = false → Answers (.submit k) s fun t =>
        t.ring k.val = { x with head := moved, out := x.out ++ [{ kind := 4, reason := 0x10, req := 0x1FFFFF, tag := dTag b, step := s.serve.step }] }
        ∧ t.serve.reqs = s.serve.reqs ∧ t.mem.bytes = s.mem.bytes)
      ∧ (leAt b 0 1 = 1 → submitOk b = true → s.serve.reqs.length < 2097152 →
        let r := newReq k.val x b s.serve.nextSeq
        let i := freeId s
        (∀ e, admitRefusal s r = some e → Answers (.submit k) s fun t =>
          t.req i = some { r with st := .ending, refused := true }
          ∧ t.ring k.val = { x with head := moved, out := x.out ++ [{ kind := 4, reason := e, req := 0x1FFFFF, tag := dTag b, step := s.serve.step }] }
          ∧ (∀ j, j ≠ i → t.req j = s.req j))
        ∧ (admitRefusal s r = none → Answers (.submit k) s fun t =>
          (∃ r', t.req i = some r' ∧ r'.userTag = dTag b ∧ (r'.st = .queued ∨ r'.st = .prefill ∨ r'.st = .ending)
            ∧ (r'.st = .prefill → ∃ f, r'.plist = .frame f))
          ∧ (t.ring k.val).head = moved ∧ (∀ j, j ≠ i → t.req j = s.req j)))
      ∧ (leAt b 0 1 = 5 → Answers (.nop k) s fun t =>
        t.ring k.val = { x with head := moved } ∧ t.serve.reqs = s.serve.reqs ∧ t.mem.bytes = s.mem.bytes)
      ∧ (∀ r, s.req (dReq b % 2 ^ 21) = some r → r.part = x.part → r.ring = k.val → r.guest = false → r.st ≠ .ending → dReq b < 2 ^ 21 →
        let only (t : State) (y : Req) : Prop := t.req (dReq b) = some y ∧ (∀ j, j ≠ dReq b → t.req j = s.req j)
          ∧ t.ring k.val = { x with head := moved } ∧ t.mem.bytes = s.mem.bytes
        (leAt b 0 1 = 2 → Answers (.cancel k) s fun t => only t { r with cancelP := true })
        ∧ (leAt b 0 1 = 3 → Answers (.pause k) s fun t =>
            only t { r with pauseP := true, ttl := if leAt b 58 4 = 0 then 86400 else leAt b 58 4 })
        ∧ (leAt b 0 1 = 4 → ttlOver s r = false → Answers (.resume k) s fun t => only t { r with resumeP := some s.serve.nextResume }))
      ∧ (s.req (dReq b % 2 ^ 21) = none → leAt b 0 1 = 2 → Answers (.cancel k) s fun t =>
        t.ring k.val = { x with head := moved, out := x.out ++ [{ kind := 8, reason := 0x20, req := dReq b % 2 ^ 21, tag := dTag b, step := s.serve.step }] }
        ∧ t.serve.reqs = s.serve.reqs)))
  ∧ (∀ (k : Fin 64) (r : ResRec) (s : State),
    let x := s.ring k.val
    let l := x.out.takeWhile fun y => y.step = r.step
    x.set = true → x.stopped = false → x.hostRes = true → s.hostReady = true → x.out.head? = some r → r.step < s.serve.step →
    l.length + 1 ≤ resultRoom x → Answers (.emit k) s fun t =>
      t.ring k.val = { x with prod := (x.prod + l.length + 1) % 2 ^ x.resLog, out := x.out.drop l.length }
      ∧ .hostWrite (x.resAddr + 32 * (x.prod % 2 ^ x.resLog)) (recBytes r s.now) ∈ t.out.sent
      ∧ t.out.msix.head? = some (144 + k.val) ∧ KeepsBut [.serve, .out] s t)

/-- R342 to R344, R367, R371, R378: the serving commands. -/
def Obligations.ServingCommands : Prop :=
  ∀ (n : Fin 16) (s : State), s.units.maint = false → (s.box n.val).exp = false →
    let m := s.box n.val
    let p := actPart s n.val m
    (Runs s n 0x0502 → m.arg 0 = 0 → shape s n.val m [1, 2, 3, 4] = none → m.arg 1 < 65536 → tenantPart s (m.arg 1) = p → m.arg 2 < 8 →
      1 ≤ m.arg 4 → m.arg 4 < 2 ^ 31 → Answers (.tenantSetTenant n) s fun t =>
        t.tenant (m.arg 1) = { s.tenant (m.arg 1) with enable := m.arg 2 % 2 = 1, maxClass := m.arg 2 / 2, next := some (m.arg 3, m.arg 4) }
        ∧ (∀ k, k ≠ m.arg 1 → t.tenant k = s.tenant k) ∧ (t.box n.val).outbox = m.outbox ++ [{ status := 0 }] ∧ KeepsBut [.mbx, .serve] s t)
    ∧ (Runs s n 0x0502 → m.arg 0 = 1 → shape s n.val m [0, 1, 2, 3, 4, 5, 6, 7] = none → m.arg 1 < 64 → m.arg 7 &&& 0xFFFEE0FE = 0 →
      ringOk s n.val m = true → ringLive s (m.arg 1) = false → Answers (.tenantSetRing n) s fun t =>
        (t.ring (m.arg 1)).set = !ringOff m ∧ (t.ring (m.arg 1)).head = 0 ∧ (t.ring (m.arg 1)).tail = 0
        ∧ (ringOff m = false → (t.ring (m.arg 1)).subDva = m.arg64 2 ∧ (t.ring (m.arg 1)).subLog = m.arg 4 ∧ (t.ring (m.arg 1)).part = p)
        ∧ (∀ k, k ≠ m.arg 1 → t.ring k = s.ring k) ∧ (t.box n.val).outbox = m.outbox ++ [{ status := 0 }] ∧ KeepsBut [.mbx, .serve] s t)
    ∧ (∀ home, Runs s n 0x0502 → m.arg 0 = 2 → shape s n.val m [0, 1, 2] = none → m.arg64 1 < 2 ^ 48 → partLive s p = false →
      drbgDown s = false → ∀ b, (dvaRead (serveAccess p (m.arg64 1) false) 64 (s.freed n)).1 = .ok b → programOk b = true →
      Answers (.tenantSetProgram n home) s fun t =>
        (∃ g, (t.spart p).program = some g ∧ g.digest = Config.sha384 b ∧ g.maxContext = leAt b 20 4 ∧ g.vocab = leAt b 44 4 ∧ g.kvBytes = leAt b 28 4)
        ∧ (∀ k, k ≠ p → t.spart k = s.spart k) ∧ (t.box n.val).outbox = m.outbox ++ [{ status := 0 }] ∧ t.mem.bytes = s.mem.bytes)
    ∧ (Runs s n 0x0502 → m.arg 0 = 3 → m.arg 1 = 0 → shape s n.val m [0, 1, 2, 3, 4] = none → 1 ≤ m.arg 2 → m.arg 2 ≤ 960 →
      m.arg 3 = 1 ∨ m.arg 3 = 2 → m.arg 4 < 4 →
      let a := (steward p (m.arg 2) (m.arg 4) false false n.val (s.freed n)).1
      (∀ l, a = .ok l → Answers (.tenantSetFramesGrant n) s fun t =>
        (∀ f ∈ l, t.frame f = { use := .held, tag := n.val, part := p, table := decide (m.arg 3 = 2) })
        ∧ (t.box n.val).outbox = m.outbox ++ [{ status := 0, data := l.flatMap (leBytes 4) }])
      ∧ (∀ h, a = .error h → Answers (.tenantSetFramesGrant n) s fun t =>
        (t.box n.val).outbox = m.outbox ++ [{ status := 0x20, detail := 0x0514, res := [h] }]))
    ∧ (Runs s n 0x0502 → m.arg 0 = 3 → m.arg 1 = 1 → shape s n.val m [0, 1] = none → m.input ≠ [] → m.input.length % 4 = 0 →
      (∀ f ∈ frameList m, mayFree s p f = true) → (∀ f ∈ frameList m, ∀ e ∈ s.sealed.vaults, f ∉ e.2.frames) →
      Answers (.tenantSetFramesFree n) s fun t =>
        (∀ f ∈ frameList m, (t.frame f).freeing = true ∧ (t.frame f).part = p
          ∧ ∃ i ∈ t.mmu.inval, i.byDpa = true ∧ i.lo = f * 65536 ∧ i.len = 65536 ∧ i.mbx = some n.val)
        ∧ (t.box n.val).await = some .framesFree ∧ (t.box n.val).outbox = m.outbox ∧ KeepsBut [.mbx, .mem, .mmu] s t)
    ∧ (Runs s n 0x0505 → shape s n.val m [0, 1] = none → (m.arg 0 = 0 ∧ m.arg 1 = 0 ∨ m.arg 0 = 1 ∧ m.arg 1 ≤ (poolGroups s p).length) →
      ∀ peerOk, Answers (.poolRatio n peerOk) s fun t =>
        pendingPool t p = { pendingPool s p with fixed := if m.arg 0 = 1 then some (m.arg 1) else none }
        ∧ t.serve.parts = s.serve.parts ∧ (t.box n.val).outbox = m.outbox ++ [{ status := 0 }] ∧ KeepsBut [.mbx, .serve] s t)
    ∧ (Runs s n 0x0501 → shape s n.val m [] = none → exec (.serveStatus n) s = .next (replyDone n.val
        [s.serve.step % 2 ^ 32, s.serve.step / 2 ^ 32, s.serve.lastTime % 2 ^ 32, groupMask (prefillGroups s p), groupMask (decodeGroups s p),
          (s.spart p).role] (serveData s p) (s.freed n)))

/-- R384 to R386, R395: adapters, prefixes, drift status. -/
def Obligations.AdaptersAndPrefixes : Prop :=
  ∀ (n : Fin 16) (s : State), s.units.maint = false → (s.box n.val).exp = false →
    let m := s.box n.val
    let p := actPart s n.val m
    (Runs s n 0x0503 → shape s n.val m [0, 1] = none → m.arg64 0 < 2 ^ 48 → s.serve.adapters.length < 262144 →
      let r := dvaRead (serveAccess p (m.arg64 0) false) 64 (s.freed n)
      ∀ b g, r.1 = .ok b → (s.spart p).program = some g → adapterOk g b = true →
        rangeReadable (s.freed n) p (leAt b 12 6) (leAt b 24 8) = true → Answers (.adapterRegister n) s fun t =>
          (∃ x, t.adapter (freeAdapter s) = some x ∧ x.part = p ∧ x.gen = (Tab.get 0 s.serve.adapterGen (freeAdapter s) + 1) % 65536
            ∧ x.weightDva = leAt b 12 6 ∧ x.weightBytes = leAt b 24 8)
          ∧ (∀ k, k ≠ freeAdapter s → t.adapter k = s.adapter k)
          ∧ (t.box n.val).outbox = m.outbox ++ [{ status := 0, res := [freeAdapter s, (Tab.get 0 s.serve.adapterGen (freeAdapter s) + 1) % 65536] }])
    ∧ (Runs s n 0x0504 → shape s n.val m [0] = none → ∀ x, s.adapter (m.arg 0) = some x → x.part = p → adapterPins s (m.arg 0) = 0 →
      Answers (.adapterRemove n) s fun t => t.adapter (m.arg 0) = none ∧ (∀ k, k ≠ m.arg 0 → t.adapter k = s.adapter k)
        ∧ (t.box n.val).outbox = m.outbox ++ [{ status := 0 }] ∧ KeepsBut [.mbx, .serve] s t)
    ∧ (Runs s n 0x0508 → shape s n.val m [0, 1] = none → m.arg 0 < 3 → (m.arg 0 = 0 → m.arg 1 = 0) → m.arg 1 < 65536 →
      Answers (.prefixFlush n) s fun t =>
        t.serve.index = s.serve.index.filter (fun e => !(e.2.part = p && (m.arg 0 = 0 || ((m.arg 0 = 1 && e.2.adapter = some (m.arg 1))
          || (m.arg 0 = 2 && e.2.tenant = m.arg 1)))))
        ∧ (∀ e ∈ s.serve.index, e.2.part ≠ p → e ∈ t.serve.index)
        ∧ (t.box n.val).outbox = m.outbox ++ [{ status := 0 }] ∧ t.mem.bytes = s.mem.bytes)
    ∧ (Runs s n 0x0507 → shape s n.val m [] = none → exec (.driftStatus n) s = .next (replyDone n.val
        [driftPagesAll s, s.serve.driftUsed.length, driftBadCount s, countSessions s p fun r => r.st = .drifted,
          countSessions s p fun r => r.move.elim false fun x => x.out = true, countSessions s p fun r => r.move.elim false fun x => x.out = false,
          s.serve.expiries, s.serve.losses] [] (s.freed n)))

/-- R397 to R413: drafts and logits. -/
def Obligations.DraftsAndSampling : Prop :=
  (∀ (n : Fin 16) (s : State), (s.box n.val).exp = false →
    let m := s.box n.val
    let p := mbxPart s n.val
    let h := dvaBytes p (m.arg64 0) 64 (s.freed n)
    let code := dvaBytes p (leAt h.1 16 6) (leAt h.1 12 4) h.2
    let w := dvaBytes p (leAt h.1 24 6) (leAt h.1 32 8) code.2
    (Runs s n 0x0506 → m.arg 2 = 0 → ctPart s p = false → s.units.maint = false → partLive s p = false → m.arg64 0 < 2 ^ 48 →
      s.draftOf p = none → s.serve.drafts.length < 8 → (s.serve.drafts.map fun e => e.2.sram).sum + leAt h.1 48 4 ≤ 8388608 →
      ∀ g l, (s.spart p).program = some g → draftHeaderOk g h.1 = true → code.1.length = leAt h.1 12 4 →
      draftCodeOk (leAt h.1 8 4) (leAt h.1 48 4) (leAt h.1 32 8) (leAt h.1 42 2) (code.1.length / 32) code.1 = true →
      w.1.length = leAt h.1 32 8 →
      (steward p (ceilDiv code.1.length 65536 + ceilDiv w.1.length 65536) 1 false false n.val w.2).1 = .ok l →
      Answers (.draftLoad n) s fun t =>
        (∃ d, t.draftOf p = some d ∧ d.ready = false ∧ d.k = leAt h.1 6 1 ∧ d.sram = leAt h.1 48 4 ∧ d.frames = l
          ∧ d.codeLen = leAt h.1 12 4 ∧ d.kvOff = leAt h.1 40 2 ∧ d.kvLen = leAt h.1 42 2
          ∧ d.digest = Config.sha384 (h.1 ++ code.1 ++ w.1))
        ∧ (∀ q, q ≠ p → t.draftOf q = s.draftOf q) ∧ (t.box n.val).await = some .draftLoad
        ∧ (t.box n.val).outbox = m.outbox ++ [{ status := 1 }])
    ∧ (Runs s n 0x0506 → m.arg 2 = 1 → m.arg 0 = 0 → m.arg 1 = 0 → s.units.maint = false → partLive s p = false →
      Answers (.draftUnload n) s fun t => t.draftOf p = none ∧ (∀ q, q ≠ p → t.draftOf q = s.draftOf q)
        ∧ (t.box n.val).outbox = m.outbox ++ [{ status := 0 }] ∧ t.mem.bytes = s.mem.bytes))
  ∧ (∀ (p : Fin 64) (d : DraftProg) (s : State), s.draftOf p.val = some d →
    (d.ready = false → Answers (.draftLoaded p) s fun t =>
      t.draftOf p.val = some { d with ready := true } ∧ (∀ e ∈ t.serve.index, e.2.part ≠ p.val)
      ∧ (∀ k, k < 16 → (s.box k).await = some .draftLoad → mbxPart s k = p.val → (t.box k).await = none
          ∧ (t.box k).outbox = (s.box k).outbox ++ [{ status := 0, res := (List.range 4).map fun i => d.digest.toNat / 2 ^ (32 * i) % 2 ^ 32 }])
      ∧ t.mem.bytes = s.mem.bytes)
    ∧ (d.ready = true → d.failed = false → drafters s p.val ≠ [] →
      (Answers (.draftRound p true) s fun t =>
        t.draftOf p.val = some { d with errs := d.errs + 1, failed := decide (3 ≤ d.errs + 1) }
        ∧ (∀ i ∈ drafters s p.val, ∀ r, s.req i = some r → t.req i = some { r with prop := none }))
      ∧ (∀ i r g, drafters s p.val = [i] → s.req i = some r → (s.spart r.part).program = some g →
        0 < (Tab.get {} s.serve.drafting i).left →
        let e := Tab.get {} s.serve.drafting i
        let got := (decidedOf s i).1
        let k := min d.k (r.maxNew - (r.genLen + got.length) - 1)
        let x := draftTurn g d r k e.left (r.toks ++ got) e.props s.mem.bytes
        Answers (.draftRound p false) s fun t =>
          t.mem.bytes = x.2 ∧ t.draftOf p.val = some { d with errs := 0 } ∧ KeepsBut [.serve, .mem, .bytes] s t
          ∧ (1 < e.left → Tab.get {} t.serve.drafting i = { left := e.left - 1, props := x.1 } ∧ t.serve.reqs = s.serve.reqs)
          ∧ (e.left = 1 → Tab.get {} t.serve.drafting i = {} ∧ t.req i = some { r with prop := some x.1 }))))
  ∧ (∀ (g : Program) (d : DraftProg) (r : Req) (token pos weights : Nat) (b : Tab Byte),
    draftCodeOk d.vocab d.sram weights d.kvLen (d.codeLen / 32)
      ((List.range d.codeLen).map (frameByte b (d.frames.take (ceilDiv d.codeLen 65536)))) = true →
    ∀ a, (∀ c, cacheAt g d r pos = some c → a < c ∨ c + d.kvLen ≤ a) →
      Tab.get 0 (draftPass g d r token pos b).2 a = Tab.get 0 b a)
  ∧ (∀ (slot : BitVec 16) (j : BitVec 8) (v : BitVec 32) (x : Vector (BitVec 16) 1024) (s : State),
    (packetEntry s slot.toNat j.toNat = none → exec (.logitPacket slot j v x) s =
      .next { s with serve := { s.serve with badPackets := s.serve.badPackets + 1 } })
    ∧ (∀ e g, packetEntry s slot.toNat j.toNat = some e → (s.spart e.part).program = some g → v.toNat % 1024 = 0 → v.toNat < g.vocab →
      ((∀ k ∈ s.serve.packets, k.1 ≠ (slot.toNat, j.toNat, v.toNat)) → Answers (.logitPacket slot j v x) s fun t =>
        t.serve.packets = ((slot.toNat, j.toNat, v.toNat), x.toList) :: s.serve.packets
        ∧ t.serve.dupPackets = s.serve.dupPackets ∧ t.serve.badPackets = s.serve.badPackets)
      ∧ ((∃ k ∈ s.serve.packets, k.1 = (slot.toNat, j.toNat, v.toNat)) → Answers (.logitPacket slot j v x) s fun t =>
        t.serve = { s.serve with dupPackets := s.serve.dupPackets + 1, dupNoted := some s.serve.step }
        ∧ KeepsBut [.log, .serve, .link, .out] s t)))

/-- R416, R417: Montgomery multiplication. -/
def Obligations.MontgomeryMultiplication : Prop :=
  ∀ q a b : Nat, q % 2 = 1 → 1 < q → q < 2 ^ 61 → a < q → b < q →
    mmul q a b < q ∧ mmul q a b * 2 ^ 64 % q = a * b % q ∧ redc q (mmul q a (rSquared q)) = a

/-- R416, R421, R422, R426, R428, R434, R448: sessions, passes, refreshes. -/
def Obligations.SealedSessionsAndPasses : Prop :=
  (∀ (n : Fin 16) (s : State), ctPart s (mbxPart s n.val) = true → (s.box n.val).exp = false →
    let m := s.box n.val
    (Runs s n 0x0602 → m.arg 0 = 0 → sessionShape m = none → m.arg 2 ≤ s.prot.sealedP.maxDegree → m.arg 3 ≤ s.prot.sealedP.maxLimbs →
      moduliOk (moduliOf m) = true → s.sealedSess (m.arg 1) = none →
      ∀ w, wKs (m.arg 2) (m.arg 3) (m.arg 4) (tauOf s m) (groupsUp s).length = some w → w ≤ 97 →
      Answers (.meeParamsSession n) s fun t =>
        t.sealedSess (m.arg 1) = some { part := mbxPart s n.val, n := m.arg 2, moduli := moduliOf m, d := m.arg 4, tau := tauOf s m }
        ∧ (∀ k, k ≠ m.arg 1 → t.sealedSess k = s.sealedSess k) ∧ (t.box n.val).outbox = m.outbox ++ [{ status := 0 }]
        ∧ KeepsBut [.mbx, .sealed, .freeCtr] s t)
    ∧ (Runs s n 0x0602 → m.arg 0 = 1 → argsZero m [0, 1, 2, 3] = none → m.arg 1 < 16 → meePart s (m.arg 1) = mbxPart s n.val →
      m.arg64 2 < 2 ^ 48 → m.arg64 2 % 4096 = 0 → (s.mee (m.arg 1)).passes = [] → Answers (.meeParamsRing n) s fun t =>
        t.mee (m.arg 1) = { s.mee (m.arg 1) with set := true, base := m.arg64 2, head := 0, tail := 0 }
        ∧ (∀ k, k ≠ m.arg 1 → t.mee k = s.mee k) ∧ (t.box n.val).outbox = m.outbox ++ [{ status := 0 }] ∧ KeepsBut [.mbx, .sealed] s t)
    ∧ (Runs s n 0x0602 → m.arg 0 = 2 → argsZero m [0, 1] = none → ownSession s n.val (m.arg 1) = true → sessionBusy s (m.arg 1) = false →
      Answers (.meeParamsEnd n) s fun t => t.sealedSess (m.arg 1) = none ∧ (∀ k, k ≠ m.arg 1 → t.sealedSess k = s.sealedSess k)
        ∧ (t.box n.val).outbox = m.outbox ++ [{ status := 0 }] ∧ KeepsBut [.mbx, .sealed] s t)
    ∧ (Runs s n 0x0603 → ownSession s n.val (m.arg 0) = true → m.arg64 1 < 2 ^ 48 → m.arg64 3 < 2 ^ 48 → refreshOk s m = true →
      (∀ r ∈ s.sealed.refreshes, r.sess ≠ m.arg 0) → Answers (.refreshRun n) s fun t =>
        t.sealed.refreshes = s.sealed.refreshes ++ [{ sess := m.arg 0, cipher := m.arg64 1, keySet := m.arg64 3, winKs := m.arg 5, winEl := m.arg 6, stopAt := none, started := s.now }]
        ∧ (t.box n.val).await = some (.refresh (m.arg 0)) ∧ (t.box n.val).outbox = m.outbox ++ [{ status := 1 }] ∧ KeepsBut [.mbx, .sealed] s t))
  ∧ (∀ (src : DmaSrc) (body : Word) (s : State),
    let g := fld body 0 4
    let p := meePart s g
    let u := modMee g (fun m => { m with tail := fld body 4 6 }) s
    (bellOk s src g = true → carrying s 0x06 g = true →
      ((s.mee g).set = false ∨ (s.mee g).head = fld body 4 6 → exec (.meeDoorbell src body) s = .next u)
      ∧ ((s.mee g).set = true → (s.mee g).head < 64 → (s.mee g).head ≠ fld body 4 6 → ((s.mee g).head + 1) % 64 = fld body 4 6 →
        ∀ b, (dvaRead (meeAccess g p ((s.mee g).base + 64 * (s.mee g).head) false) 64 u).1 = .ok b → passFormatOk s p (decodePass b) = false →
        Answers (.meeDoorbell src body) s fun t => (t.mee g).last = some (7, 1, 0, 0) ∧ (t.mee g).head = fld body 4 6
          ∧ (t.mee g).passes = (s.mee g).passes ∧ (∀ k, k ≠ g → t.mee k = s.mee k)))
    ∧ (bellOk s src g = false ∨ carrying s 0x06 g = false → Answers (.meeDoorbell src body) s fun t =>
      t.mee g = { s.mee g with bad := (s.mee g).bad + 1 } ∧ (∀ k, k ≠ g → t.mee k = s.mee k) ∧ KeepsBut [.sealed] s t))
  ∧ (∀ (id : BitVec 8) (s : State), (s.exch id.toNat).isSome = true → Answers (.exchExpiry id) s fun t =>
      t.exch id.toNat = none ∧ (∀ k, k ≠ id.toNat → t.exch k = s.exch k) ∧ KeepsBut [.log, .sealed, .link, .out] s t)
  ∧ (∀ (i : Fin 16) (r : Refresh) (s : State), s.sealed.refreshes.find? (fun x => x.sess = i.val) = some r →
    (r.closed < refreshWindows s r → exec (.refreshDone i) s = .next s)
    ∧ (refreshWindows s r ≤ r.closed → Answers (.refreshDone i) s fun t =>
      t.sealed.refreshes = (s.sealed.refreshes.filter fun x => x.sess ≠ i.val)
      ∧ (∀ k, (s.box k).await = some (.refresh i.val) →
          (t.box k).outbox = (s.box k).outbox ++ [{ status := 0 }] ∧ (t.box k).await = none) ∧ KeepsBut [.mbx, .log, .sealed, .link, .out] s t))
  ∧ (∀ (n : Fin 16) (s : State), Runs s n 0x0601 → (s.box n.val).exp = false →
    let p := mbxPart s n.val
    let mine (q : Nat) : Bool := decide (p = 0) || decide (q = p)
    exec (.sealedStatus n) s = .next (replyDone n.val
      [groupMask (groupsUp s), (s.sealed.exchs.filter fun e => (s.sealedSess e.2.sess).elim true fun x => mine x.part).length,
        s.sealed.drbg.reqs, b2n s.sealed.drbg.srcFailed]
      ((s.sealed.sess.filter fun e => mine e.2.part).flatMap sessBytes ++ (s.sealed.vaults.filter fun e => mine e.2.part).flatMap vaultBytes
        ++ (s.sealed.cx.filter fun e => mine e.2.part).flatMap cxBytes) (s.freed n)))

/-- R435 to R442: vaults and the DRBG. -/
def Obligations.VaultsAndDrbg : Prop :=
  (∀ (n : Fin 16) (s : State), partKind s (mbxPart s n.val) = .vault → (s.box n.val).exp = false →
    let m := s.box n.val
    (∀ metas, Runs s n 0x0604 → m.arg 0 < 32 → 1 ≤ m.arg 1 → m.arg 1 ≤ s.prot.vault.life → m.input ≠ [] → m.input.length ≤ 65536 → m.input.length % 4 = 0 →
      vaultFramesOk s (mbxPart s n.val) (frameList m) = true → s.vault (m.arg 0) = none → drbgDown s = false →
      (steward (mbxPart s n.val) (ceilDiv (frameList m).length 32) 3 false false n.val (s.freed n)).1 = .ok metas →
      Answers (.vaultOpen n) s fun t =>
        t.vault (m.arg 0) = some { part := mbxPart s n.val, frames := frameList m, metaFrames := metas, lifeEnd := s.now + m.arg 1 * 1000000000 }
        ∧ (∀ k, k ≠ m.arg 0 → t.vault k = s.vault k)
        ∧ (∀ a, Tab.get 0 t.mem.bytes a = if a / 65536 ∈ frameList m then 0 else Tab.get 0 s.mem.bytes a)
        ∧ (t.box n.val).outbox = m.outbox ++ [{ status := 0 }])
    ∧ (∀ x, Runs s n 0x0605 → s.vault (m.arg 0) = some x → x.part = mbxPart s n.val → Answers (.vaultClose n) s fun t =>
        t.vault (m.arg 0) = none ∧ (∀ k, k ≠ m.arg 0 → t.vault k = s.vault k) ∧ (∀ e ∈ t.sealed.cx, e.2.vault ≠ m.arg 0)
        ∧ (∀ a, Tab.get 0 t.mem.bytes a = if a / 65536 ∈ x.frames then 0 else Tab.get 0 s.mem.bytes a)
        ∧ (t.box n.val).outbox.getLast? = some { status := 0 }))
  ∧ (∀ (v : Fin 32) (x : Vault) (s : State), s.vault v.val = some x →
    (Answers (.vaultLifeExpiry v) s fun t =>
      t.vault v.val = none ∧ (∀ k, k ≠ v.val → t.vault k = s.vault k) ∧ (∀ e ∈ t.sealed.cx, e.2.vault ≠ v.val)
      ∧ (∀ a, Tab.get 0 t.mem.bytes a = if a / 65536 ∈ x.frames then 0 else Tab.get 0 s.mem.bytes a))
    ∧ (rekeyDue x = false → exec (.vaultRekey v) s = .next s)
    ∧ (x.changing = false → (∃ e ∈ x.ctr, 0x7000 ≤ e.2) → drbgDown s = false → Answers (.vaultRekey v) s fun t =>
      t.vault v.val = some { x with changing := true, again := false, waitKey := false, heldNoted := false }
      ∧ (∀ k, k ≠ v.val → t.vault k = s.vault k) ∧ t.sealed.drbg.reqs = s.sealed.drbg.reqs + 1
      ∧ KeepsBut [.log, .sealed, .link, .out, .freeCtr] s t)
    ∧ (x.changing = true → Answers (.vaultRekey v) s fun t => t.vault v.val = some { x with again := true } ∧ KeepsBut [.sealed] s t)
    ∧ (x.changing = true → x.held = [] → x.again = false → Answers (.vaultRekeyDone v) s fun t =>
      t.vault v.val = some { x with changing := false, epoch := x.epoch + 1, ctr := [] } ∧ (∀ k, k ≠ v.val → t.vault k = s.vault k)
      ∧ t.mem = s.mem ∧ KeepsBut [.log, .sealed, .link, .out] s t))
  ∧ (∀ s : State,
    (canReseed s = true → (∀ e ∈ s.sealed.vaults, e.2.waitKey = false) →
      (2 ^ 20 - 2 ^ 16 ≤ s.sealed.drbg.reqs → exec .drbgReseedAuto s = .next { s with sealed := { s.sealed with drbg := { s.sealed.drbg with reqs := 0, exhausted := false } } })
      ∧ (∀ n : Fin 16, Runs s n 0x0606 → (s.box n.val).exp = false → (s.box n.val).inHost = false → (s.box n.val).input.length ≤ 48 →
        Answers (.drbgReseed n) s fun t =>
          t.sealed = { s.sealed with drbg := { s.sealed.drbg with reqs := 0, exhausted := false } }
          ∧ (t.box n.val).outbox = (s.box n.val).outbox ++ [{ status := 0 }] ∧ KeepsBut [.mbx, .sealed] s t))
    ∧ (s.sealed.drbg.reqs < 2 ^ 20 - 2 ^ 16 → exec .drbgReseedAuto s = .next s ∧ exec .drbgExhausted s = .next s)
    ∧ (s.sealed.drbg.ready = true → s.sealed.drbg.exhausted = false → 2 ^ 20 ≤ s.sealed.drbg.reqs → Answers .drbgExhausted s fun t =>
      t.sealed.drbg = { s.sealed.drbg with exhausted := true } ∧ drbgDown t = true ∧ KeepsBut [.log, .sealed, .link, .out] s t)
    ∧ (s.sealed.drbg.srcFailed = false → Answers .entropyFail s fun t =>
      t.sealed = { s.sealed with drbg := { s.sealed.drbg with srcFailed := true } } ∧ canReseed t = false ∧ KeepsBut [.log, .sealed, .link, .out] s t))

/-- R443, R447, R448: Crosswind sessions. -/
def Obligations.CrosswindSessions : Prop :=
  (∀ (n : Fin 16) (s : State), partKind s (mbxPart s n.val) = .vault → (s.box n.val).exp = false → Runs s n 0x0607 →
    let m := s.box n.val
    let i := m.arg 1
    (m.arg 0 = 0 → pairShape s n.val m = none → domainOk (m.arg64 3) = true → s.cxSess i = none → drbgDown s = false →
      Answers (.peerSessionPair n) s fun t =>
        (∃ x, t.cxSess i = some x ∧ x.part = mbxPart s n.val ∧ x.vault = m.arg 2 ∧ x.modulus = m.arg64 3 ∧ x.role = m.arg 5 ∧ x.peer = m.arg 6
          ∧ x.hs = some .pair ∧ x.paired = false ∧ x.round = 1 ∧ t.out.sent = .cx i "HELLO" ((ownHello s x).map BitVec.toNat) :: s.out.sent) ∧ (∀ k, k ≠ i → t.cxSess k = s.cxSess k)
        ∧ (t.box n.val).await = some (.pairing i) ∧ (t.box n.val).outbox = m.outbox ++ [{ status := 1 }]
        ∧ KeepsBut [.mbx, .sealed, .out, .freeCtr] s t)
    ∧ (∀ x, m.arg 0 = 1 → argsZero m [0, 1] = none → s.cxSess i = some x → x.part = mbxPart s n.val → x.suspended.isSome = true → x.hs = none →
      drbgDown s = false → Answers (.peerSessionResume n) s fun t =>
        (∃ y, t.cxSess i = some y ∧ y.hs = some .resume ∧ y.suspended = x.suspended ∧ y.round = x.round
          ∧ t.out.sent = .cx i "HELLO" ((ownHello s y).map BitVec.toNat) :: s.out.sent) ∧ (t.box n.val).await = some (.resume i)
        ∧ (t.box n.val).outbox = m.outbox ++ [{ status := 1 }] ∧ KeepsBut [.mbx, .sealed, .out, .freeCtr] s t)
    ∧ (m.arg 0 = 2 → argsZero m [0, 1] = none → ownCx s n.val i = true → Answers (.peerSessionClose n) s fun t =>
        t.cxSess i = none ∧ (∀ k, k ≠ i → t.cxSess k = s.cxSess k) ∧ t.out.sent = .cx i "CLOSE" [] :: s.out.sent
        ∧ (t.box n.val).outbox.getLast? = some { status := 0 } ∧ KeepsBut [.mbx, .sealed, .link, .out] s t))
  ∧ (∀ (i : Fin 16) (x : CxSess) (s : State), s.cxSess i.val = some x →
    (∀ peer, x.hs.isSome = true → Answers (.cxHello i peer) s fun t =>
      t.cxSess i.val = some { x with hello := some peer } ∧ (∀ k, k ≠ i.val → t.cxSess k = s.cxSess k)
      ∧ t.out.sent = .cx i.val "FINISH" ((ownSign s (cxHandshake s x peer).transcript).map BitVec.toNat) :: s.out.sent ∧ KeepsBut [.sealed, .out] s t)
    ∧ (∀ peer, x.hs = none → x.paired = false ∨ x.suspended.isSome = true → exec (.cxHello i peer) s = .next s)
    ∧ (∀ h sig, x.hs = some .pair → x.hello = some h →
      (cxChecks s x h sig = true → Answers (.cxFinish i sig) s fun t =>
        t.cxSess i.val = some { x with hs := none, paired := true, tag := (cxHandshake s x h).tag } ∧ (t.chanOf 11 i.val).st = .up
        ∧ (t.chanOf 11 i.val).txKey = (cxHandshake s x h).txKey ∧ (t.chanOf 11 i.val).rxKey = (cxHandshake s x h).rxKey
        ∧ (∀ k, k ≠ i.val → t.cxSess k = s.cxSess k)
        ∧ (∀ k, (s.box k).await = some (.pairing i.val) →
            (t.box k).outbox = (s.box k).outbox ++ [{ status := 0 }] ∧ (t.box k).await = none))
      ∧ (cxChecks s x h sig = false → Answers (.cxFinish i sig) s fun t =>
        t.cxSess i.val = none ∧ (∀ k, k ≠ i.val → t.cxSess k = s.cxSess k)
        ∧ (∀ k, (s.box k).await = some (.pairing i.val) →
            (t.box k).outbox = (s.box k).outbox ++ [{ status := 0x12, detail := 0x0608 }] ∧ (t.box k).await = none)))
    ∧ (x.suspended.isSome = true → Answers (.cxSuspendTimeout i) s fun t =>
      t.cxSess i.val = none ∧ (∀ k, k ≠ i.val → t.cxSess k = s.cxSess k) ∧ KeepsBut [.mbx, .log, .sealed, .link, .out] s t))
  ∧ (∀ (tag : Word) (i : Nat) (x : CxSess) (s : State), cxByTag s tag = some (i, x) →
    ∀ c ∈ [Instr.cxClose tag, .cxAbort tag], Answers c s fun t =>
      t.cxSess i = none ∧ (∀ k, k ≠ i → t.cxSess k = s.cxSess k) ∧ KeepsBut [.mbx, .log, .sealed, .link, .out] s t)

/-- R444 to R447: rounds. -/
def Obligations.CrosswindRounds : Prop :=
  (∀ (tag : Word) (s : State), cxByTag s tag = none → ∀ round seq base count last payload,
    ∀ c ∈ [Instr.cxBatch tag round seq base count last payload, .cxAck tag round, .cxPre tag count, .cxClose tag, .cxAbort tag],
      exec c s = .next { s with sealed := { s.sealed with cxBad := s.sealed.cxBad + 1 } })
  ∧ (∀ (tag : Word) (i : Nat) (x : CxSess) (s : State), cxByTag s tag = some (i, x) → s.cxSess i = some x →
    (∀ (round seq count : Word) (base : BitVec 64) payload,
      (round.toNat = x.round → seq.toNat = x.inSeq → x.inDone = false → base.toNat = expectBase x x.out →
        Answers (.cxBatch tag round seq base count false payload) s fun t =>
          t.cxSess i = some { x with inSeq := x.inSeq + 1, inBuf := x.inBuf ++ payload } ∧ (∀ k, k ≠ i → t.cxSess k = s.cxSess k)
          ∧ KeepsBut [.sealed] s t)
      ∧ (∀ last, round.toNat = x.round → x.inSeq ≤ seq.toNat → x.inDone = false → base.toNat ≠ expectBase x x.out →
        exec (.cxBatch tag round seq base count last payload) s = .next (abortCx i .tupleMismatch s))
      ∧ (∀ last, round.toNat + 1 < x.round ∨ x.round + 1 < round.toNat →
        Answers (.cxBatch tag round seq base count last payload) s fun t =>
          t.cxSess i = none ∧ (∀ k, k ≠ i → t.cxSess k = s.cxSess k) ∧ KeepsBut [.mbx, .log, .sealed, .link, .out] s t))
    ∧ (∀ b, x.out = some b → b.sent = true →
      (x.round < 2 ^ 32 → x.sentAck = false → Answers (.cxAck tag (BitVec.ofNat 32 x.round)) s fun t =>
        t.cxSess i = some { x with gotAck := true } ∧ KeepsBut [.sealed] s t)
      ∧ (x.round < 2 ^ 32 → x.sentAck = true → x.nextDone = false → Answers (.cxAck tag (BitVec.ofNat 32 x.round)) s fun t =>
        ∃ y, t.cxSess i = some y ∧ y.round = x.round + 1 ∧ y.gotAck = false ∧ y.next = none ∧ y.inBuf = x.nextBuf))
    ∧ (∀ count : Word, x.out = none → drbgDown s = false → Answers (.cxPre tag count) s fun t =>
      ∃ y, t.cxSess i = some y ∧ y.made = x.made + count.toNat ∧ y.round = x.round ∧ y.out = none))
  ∧ (∀ (c : Fin 128) (i : Fin 16) (x : CxSess) (s : State), s.cxSess i.val = some x →
    (∀ (round len tuples : Word) (dva : BitVec 48) b, x.paired = true → clusterPart s c.val = x.part → round.toNat = x.round → x.out = none →
      (dvaRead { part := x.part, dva := dva.toNat, ut := 0x01, inst := c.val } len.toNat s).1 = .ok b →
      Answers (.cxBatchPost c i round dva len tuples) s fun t =>
        ∃ y z, t.cxSess i.val = some y ∧ y.out = some z ∧ y.nextTuple = x.nextTuple + tuples.toNat ∧ z.round = x.round ∧ z.base = x.nextTuple
          ∧ z.count = tuples.toNat ∧ z.bytes = b)
    ∧ (∀ b, x.out = some b → b.sent = true → x.gotAck = false → x.suspended = none → cxMaySend s i.val = true → b.bytes.length ≤ 4064 →
      Answers (.cxRoundTimeout i) s fun t =>
        t.out.sent = .cx i.val "BATCH" ([b.round, 0, 1, b.base, b.count] ++ b.bytes.map BitVec.toNat) :: s.out.sent
        ∧ (t.chanOf 11 i.val).tx = (s.chanOf 11 i.val).tx + 1 ∧ t.sealed = s.sealed ∧ KeepsBut [.link, .out] s t))

/-- R33, R449 to R460, R466, R467: Gust ports. -/
def Obligations.GustPorts : Prop :=
  ∀ (k : Fin 12) (s : State),
  let p := s.gport k.val
  let others (t : State) : Prop := ∀ j, j ≠ k.val → t.gport j = s.gport j
  (p.st = .training → p.step = 1 → Answers (.pam4EqualisationDone k) s fun t =>
    t.gport k.val = { p with step := 2, locks := 0 } ∧ others t ∧ t.clk.gclk = setBit s.clk.gclk k.val true ∧ KeepsBut [.clk, .link] s t)
  ∧ (∀ (tray : BitVec 12) (slot : Fin 8) (fport : Fin 16) (id ifver : Word), k.val < 7 → p.st = .training → p.step = 3 →
    (slot.val = meshPeer s.aon.slot.val k.val → fport.val = 6 - k.val → (tray.toNat = 0 ∨ s.aon.trayId = 0 ∨ tray.toNat = s.aon.trayId) →
      Answers (.trainId k tray slot fport id ifver) s fun t =>
        (t.gport k.val).st = .training ∧ (t.gport k.val).step = 4 ∧ (t.gport k.val).far = some (tray.toNat, slot.val, fport.val, id, ifver)
        ∧ (∃ n, t.out.sent = .link k.val "HANDSHAKE" (n :: (ownHsMessage t k.val).map BitVec.toNat) :: s.out.sent)
        ∧ others t ∧ KeepsBut [.link, .out, .freeCtr] s t)
    ∧ (slot.val ≠ meshPeer s.aon.slot.val k.val ∨ fport.val ≠ 6 - k.val → (∃ j, j < 7 ∧ j ≠ k.val ∧ (s.gport j).st ≠ .miswired) →
      Answers (.trainId k tray slot fport id ifver) s fun t =>
        (t.gport k.val).st = .miswired ∧ (t.gport k.val).step = 0 ∧ others t ∧ KeepsBut [.mbx, .log, .units, .link, .out] s t))
  ∧ (∀ (tray : BitVec 12) (slot : Fin 8) (fport : Fin 16) (id ifver : Word), 7 ≤ k.val → p.st = .training → p.step = 3 → s.aon.trayId = 0 →
      Answers (.trainId k tray slot fport id ifver) s fun t =>
        t.gport k.val = { p with far := some (tray.toNat, slot.val, fport.val, id, ifver) } ∧ others t ∧ KeepsBut [.link] s t)
  ∧ (∀ peer, (k.val = 11 → exec (.handshake k peer) s = .next s)
    ∧ (k.val ≠ 11 → p.st = .training → p.step = 4 →
      (hsOk s k.val peer = true → Answers (.handshake k peer) s fun t =>
        (t.gport k.val).st = .probation ∧ (t.gport k.val).step = 5 ∧ (t.gport k.val).credits = #v[256, 256, 256]
        ∧ (t.chanOf k.val 0).st = .up ∧ (t.chanOf k.val 0).txEpoch = 0 ∧ (t.chanOf k.val 0).tx = 0
        ∧ (t.chanOf k.val 0).txKey = (linkHandshake s k.val peer).txKey ∧ (t.chanOf k.val 0).rxKey = (linkHandshake s k.val peer).rxKey
        ∧ (∃ n, .link k.val "HANDSHAKE" (n :: (ownSign s (linkHandshake s k.val peer).transcript).map BitVec.toNat) ∈ t.out.sent)
        ∧ others t ∧ KeepsBut [.units, .link, .out] s t)
      ∧ (hsOk s k.val peer = false → Answers (.handshake k peer) s fun t =>
        (t.gport k.val).st = .authFail ∧ (t.gport k.val).step = 0 ∧ others t ∧ KeepsBut [.mbx, .log, .units, .link, .out] s t)))
  ∧ (p.st = .training → p.step ≠ 3 → Answers (.trainStepTimeout k) s fun t =>
      (t.gport k.val).st = (if p.step = 4 then .authFail else .down) ∧ (t.gport k.val).step = 0 ∧ others t
      ∧ KeepsBut [.mbx, .log, .units, .link, .out] s t)
  ∧ (p.st = .training → p.step = 3 →
    (7 ≤ k.val → p.far.isSome = true → exec (.trainStepTimeout k) s = .next s)
    ∧ (k.val < 7 ∨ p.far = none → (∃ j, j < 7 ∧ j ≠ k.val ∧ (s.gport j).st ≠ .miswired) → Answers (.trainStepTimeout k) s fun t =>
      (t.gport k.val).st = .miswired ∧ (t.gport k.val).step = 0 ∧ others t ∧ KeepsBut [.mbx, .log, .units, .link, .out] s t))
  ∧ (p.st = .faulted → p.retrained = false → faultedSoon p = false → Answers (.portAutoRetrain k) s fun t =>
      (t.gport k.val).st = .training ∧ (t.gport k.val).step = 1 ∧ (t.gport k.val).retrained = true ∧ (t.gport k.val).retry = []
      ∧ (t.gport k.val).chans = [] ∧ others t ∧ KeepsBut [.units, .link, .out] s t)
  ∧ (p.st = .up → Answers (.leave k false) s fun t =>
      (t.gport k.val).st = .faulted ∧ (t.gport k.val).chans = [] ∧ (t.gport k.val).waitq = [] ∧ (t.gport k.val).retry = []
      ∧ (t.gport k.val).tracked = [] ∧ (t.gport k.val).quar = p.quar ++ p.tracked.map (fun e => (e.1, e.2.1, s.now))
      ∧ (t.gport k.val).faultAt = some s.now ∧ others t)
  ∧ (∀ blk : GustBlock, (p.st = .training ∧ 2 ≤ p.step) ∨ p.st = .probation ∨ p.st = .up →
    (hcrcOk blk = false → p.badHcrc + 1 < 64 → exec (.gustBlock k blk) s = .next
      (setGport k.val { p with crcErr := satInc p.crcErr, nak := true, badHcrc := p.badHcrc + 1, locks := 0 } s))
    ∧ (hcrcOk blk = true → bNak blk = false → p.st = .training → p.step = 2 →
      (p.locks + 1 < 64 → Answers (.gustBlock k blk) s fun t =>
        (t.gport k.val).locks = p.locks + 1 ∧ (t.gport k.val).step = 2 ∧ (t.gport k.val).badHcrc = 0 ∧ others t)
      ∧ (64 ≤ p.locks + 1 → Answers (.gustBlock k blk) s fun t =>
        (t.gport k.val).step = 3 ∧ (∃ n, .link k.val "TRAIN_ID" [n, s.aon.trayId, s.aon.slot.val, k.val] ∈ t.out.sent) ∧ others t))
    ∧ (hcrcOk blk = true → bNak blk = false → p.st = .up →
      (blk.slots = [] → p.waitq = [] → Answers (.gustBlock k blk) s fun t =>
        (t.gport k.val).retry = p.retry.filter (fun f => !covered (bAck blk) f.fseq)
        ∧ (∀ vc, 1 ≤ vc → vc ≤ 3 → (t.gport k.val).credit vc = min 256 (p.credit vc + bCrd blk vc)) ∧ others t ∧ KeepsBut [.link] s t)
      ∧ (∀ x, blk.slots = [x] → fcrcOk x = true → hKind x.hdr = 1 → bFseq blk = p.rxNext → p.waitq = [] →
        let bytes := Tab.get [] p.asm (hVc x.hdr) ++ x.data.take (if hPair x.hdr then 256 else 128)
        (hLast x.hdr = false → Answers (.gustBlock k blk) s fun t =>
          (t.gport k.val).rxNext = p.rxNext + 1 ∧ (t.gport k.val).nak = false ∧ Tab.get [] (t.gport k.val).asm (hVc x.hdr) = bytes
          ∧ t.net = s.net ∧ others t)
        ∧ (hLast x.hdr = true → sbTest (hSideband x.hdr) = false → sbRequest (hSideband x.hdr) = true →
          Enters s k.val (hSideband x.hdr) bytes → Answers (.gustBlock k blk) s fun t =>
          (t.gport k.val).rxNext = p.rxNext + 1 ∧ Tab.get [] (t.gport k.val).asm (hVc x.hdr) = []
          ∧ EntersAs s k.val (hSideband x.hdr) bytes t ∧ others t))
      ∧ (∀ x l, blk.slots = x :: l → fcrcOk x = false → p.waitq = [] → Answers (.gustBlock k blk) s fun t =>
          (t.gport k.val).rxNext = p.rxNext ∧ (t.gport k.val).nak = true ∧ (t.gport k.val).crcErr = satInc p.crcErr ∧ t.net = s.net ∧ others t)))
  ∧ ((p.retry = [] → exec (.replayTimeout k) s = .next s)
    ∧ (∀ f l, p.retry = f :: l → (∀ c, p.same = some (f.fseq, c) → c + 1 < 8) → (replaySecond p s.now).2 ≤ 1000 →
      Answers (.replayTimeout k) s fun t =>
        .link k.val "REPLAY" [f.fseq.toNat] ∈ t.out.sent ∧ (t.gport k.val).replays = satInc p.replays ∧ (t.gport k.val).retry = p.retry
        ∧ (t.gport k.val).st = p.st ∧ others t ∧ KeepsBut [.log, .link, .out] s t))
  ∧ (p.st = .up → ∀ lseq : BitVec 64,
    (∀ msgs, lseq.toNat < Tab.get 0 p.lseqIn 3 ∨ gustCarries s k.val = false → exec (.linkLull k lseq msgs) s = .next s)
    ∧ (∀ m : BitVec 64, Tab.get 0 p.lseqIn 3 ≤ lseq.toNat → gustCarries s k.val = true →
      let u := setGport k.val { p with lseqIn := Tab.put 0 p.lseqIn 3 (lseq.toNat + 1) } s
      let r : LullReq := { obj := BitVec.ofNat 14 (fld m 4 14), node := Fin.ofNat 152 (fld m 18 7), slot := Fin.ofNat 8 (fld m 25 3),
                           cls := Fin.ofNat 4 (fld m 28 2), resume := bit m 30, arg := BitVec.ofNat 32 (fld m 32 32) }
      (∀ e ∈ [(1, Instr.arrive r), (2, .wait r), (3, .acquire r), (4, .tryAcquire r), (5, .release r), (6, .set r), (7, .clear r),
        (8, .add r), (9, .read r), (10, .cancelWait r)], fld m 0 4 = e.1 → exec (.linkLull k lseq [m]) s = exec e.2 u)
      ∧ (fld m 0 4 ∈ [0, 11, 12, 13, 14] → exec (.linkLull k lseq [m]) s = .next u)
      ∧ (fld m 0 4 = 15 → fld m 25 3 = s.aon.slot.val → Answers (.linkLull k lseq [m]) s fun t =>
        t.out.sent = .notify (fld m 18 7) (fld m 4 14) (fld m 32 32 % 16) (fld m 32 32 / 16) :: s.out.sent
        ∧ KeepsBut [.lull, .link, .out] s t)))
  ∧ (p.st = .probation ∨ p.st = .up → ∀ e, Answers (.ready k e) s fun t =>
      (t.gport k.val).readyGot = true ∧ (t.gport k.val).st = p.st ∧ others t
      ∧ KeepsBut [.mbx, .log, .vane, .net, .sealed, .link, .out, .freeCtr] s t)

/-- R461 to R465: sealed channels. -/
def Obligations.SealedChannels : Prop :=
  ∀ (k : Fin 12) (c : Fin 16) (s : State), c.val ∈ chanList s k.val →
  let p := s.gport k.val
  let x := s.chanOf k.val c.val
  let others (t : State) : Prop := ∀ j, j ≠ k.val → t.gport j = s.gport j
  let ends (t : State) (r : Reply) : Prop := ∀ j, (s.box j).await = some (.linkRekey k.val c.val) →
    (t.box j).outbox = (s.box j).outbox ++ [r] ∧ (t.box j).await = none
  (p.st = .up → ∀ (epoch : Word) (ctr : BitVec 64) (tag : BitVec 128) (sb : BitVec 64) (data : List Byte),
    (∀ b, openFrame x c.val epoch ctr tag sb data = some b → x.st = .up ∨ x.st = .hold → epoch.toNat = x.rxEpoch →
      x.rxNext ≠ some epoch.toNat → (∀ l, x.rxLast = some l → l < ctr.toNat) → Answers (.sealedFrame k c epoch ctr tag sb data) s fun t =>
        t.chanOf k.val c.val = { x with rxLast := some ctr.toNat } ∧ others t
        ∧ (k.val = 11 ∨ sbTest sb = true → t.net = s.net)
        ∧ (sbTest sb = false → sbRequest sb = true → Enters s k.val sb b → EntersAs s k.val sb b t))
    ∧ (openFrame x c.val epoch ctr tag sb data = none ∨ (x.st ≠ .up ∧ x.st ≠ .hold)
        ∨ (x.rxNext ≠ some epoch.toNat ∧ (epoch.toNat ≠ x.rxEpoch ∨ ∃ l, x.rxLast = some l ∧ ctr.toNat ≤ l)) →
      Answers (.sealedFrame k c epoch ctr tag sb data) s fun t =>
        (t.chanOf k.val c.val).st = .down ∧ (t.chanOf k.val c.val).held = [] ∧ (t.chanOf k.val c.val).pend = false
        ∧ (x.held = [] → t.net = s.net) ∧ (sbRequest sb = true → .link k.val "error response" [sbSrc sb, sbTag sb] ∈ t.out.sent)
        ∧ ends t { status := 0x12, detail := 0x0704 } ∧ others t)
    ∧ (k.val ≠ 11 → x.handshake = true → ∀ peer,
      (hsOk s k.val peer = true → Answers (.handshake k peer) s fun t =>
        t.chanOf k.val c.val = { x with
          handshake := false, next := some (x.txEpoch + 1), nextTx := (linkHandshake s k.val peer).txKey, nextRx := (linkHandshake s k.val peer).rxKey }
        ∧ (∃ n, .link k.val "REKEY" [n, 0, x.txEpoch + 1, 0] ∈ t.out.sent) ∧ others t ∧ KeepsBut [.link, .out] s t)
      ∧ (hsOk s k.val peer = false → Answers (.handshake k peer) s fun t =>
        t.chanOf k.val c.val = { x with handshake := false } ∧ ends t { status := 0x12, detail := 0x0704 } ∧ others t
        ∧ KeepsBut [.mbx, .log, .link, .out] s t))
    ∧ (Answers (.rekey k c epoch false) s fun t =>
        t.chanOf k.val c.val = { x with rxNext := some epoch.toNat } ∧ (∃ n, t.out.sent = .link k.val "REKEY" [n, c.val, epoch.toNat, 1] :: s.out.sent)
        ∧ others t ∧ KeepsBut [.link, .out] s t)
    ∧ (x.next = some epoch.toNat → Answers (.rekey k c epoch true) s fun t =>
        (t.chanOf k.val c.val).st = .up ∧ (t.chanOf k.val c.val).txEpoch = epoch.toNat ∧ (t.chanOf k.val c.val).pend = false
        ∧ (t.chanOf k.val c.val).next = none ∧ (t.chanOf k.val c.val).txKey = x.nextTx ∧ (k.val ≠ 11 → x.held = [] → p.waitq = [] → (t.chanOf k.val c.val).tx = 0)
        ∧ ends t { status := 0 } ∧ others t ∧ KeepsBut [.mbx, .log, .vane, .net, .sealed, .link, .out, .freeCtr] s t))
  ∧ (x.st = .up →
    (x.pend = false → x.handshake = false → x.txEpoch < 0xFFFFFFFF → Answers (.rekeyRequest k c) s fun t =>
        t.chanOf k.val c.val = { x with pend := true, tx := max x.tx (2 ^ 40), handshake := true } ∧ others t
        ∧ KeepsBut [.log, .sealed, .link, .out, .freeCtr] s t)
    ∧ (Answers (.sealedHold k c) s fun t =>
        t.chanOf k.val c.val = { x with st := .hold, tx := max x.tx (2 ^ 42) } ∧ others t ∧ KeepsBut [.log, .link, .out] s t))
  ∧ (x.pend = true → x.handshake = false → x.txEpoch < 0xFFFFFFFF → Answers (.rekeyRetry k c) s fun t =>
      t.chanOf k.val c.val = { x with handshake := true } ∧ others t ∧ KeepsBut [.sealed, .link, .out, .freeCtr] s t)
  ∧ (x.st = .hold → Answers (.sealedDown k c) s fun t =>
      (t.chanOf k.val c.val).st = .down ∧ (t.chanOf k.val c.val).held = [] ∧ (t.chanOf k.val c.val).pend = false
      ∧ ends t { status := 0x12, detail := 0x0704 } ∧ others t ∧ KeepsBut [.mbx, .log, .vane, .net, .sealed, .link, .out, .freeCtr] s t)

/-- R465, R466, R480, R481: GLK_ registers and link commands. -/
def Obligations.LinkCommands : Prop :=
  (∀ (k : Fin 12) (s : State), s.mainDown = false → Answers (.glkTxctrLoRead k) s fun t =>
    t.out.readData = BitVec.ofNat 32 (s.chanOf k.val 0).tx
    ∧ t.gport k.val = { s.gport k.val with txHi := BitVec.ofNat 32 ((s.chanOf k.val 0).tx / 2 ^ 32) }
    ∧ (∀ j, j ≠ k.val → t.gport j = s.gport j) ∧ KeepsBut [.link, .out] s t)
  ∧ (∀ (path : Path) (val : Word) (s : State), path ≠ .oob → s.released = true → s.mainDown = false → s.aon.grantHost.isSome = true →
    Answers (.glkClear path val) s fun t =>
      (∀ k, k < 12 → t.gport k = if bit val k then (s.gport k).cleared else s.gport k)
      ∧ (∀ k, k < 2 → t.cxlPort k = if bit val (13 + k) then { s.cxlPort k with late := 0 } else s.cxlPort k)
      ∧ t.link.hostLate = (if bit val 12 then 0 else s.link.hostLate) ∧ t.link.bar2Deny = (if bit val 15 then 0 else s.link.bar2Deny)
      ∧ KeepsBut [.link] s t)
  ∧ (∀ (n : Fin 16) (s : State), mbxPart s n.val = 0 →
    let m := s.box n.val
    let k := m.arg 0
    let p := s.gport k
    let others (t : State) : Prop := ∀ j, j ≠ k → t.gport j = s.gport j
    (Runs s n 0x0701 → m.exp = false → k < 12 → portTraining s k = false → exec (.linkStatus n) s =
      .next (replyDone n.val [p.st.code, (p.far.getD (0, 0, 0, 0, 0)).1, (p.far.getD (0, 0, 0, 0, 0)).2.1, (p.far.getD (0, 0, 0, 0, 0)).2.2.1,
        212500 * p.lanes, p.lanes] ((chanList s k).flatMap (chanBytes s k) ++ glkBytes p) (s.freed n)))
    ∧ (Runs s n 0x0702 → k < 12 →
      (m.exp = false → p.st ∈ [.down, .authFail, .faulted, .offline] → Answers (.linkRetrain n) s fun t =>
        (t.gport k).st = .training ∧ (t.gport k).step = 1 ∧ (t.gport k).lanes = 4 ∧ others t ∧ (t.box n.val).await = some (.linkTrain k)
        ∧ KeepsBut [.mbx, .units, .link, .out] s t)
      ∧ (m.exp = true → m.arg 1 ≤ 4 → p.st = .up → s.net.stage = 0 → Answers (.linkRetrain n) s fun t =>
        t.net.stage = 1 ∧ (0x07, k) ∈ t.net.plan.leaves ∧ (t.box n.val).await = some (.linkTrain k) ∧ t.link = s.link
        ∧ KeepsBut [.mbx, .net] s t))
    ∧ (Runs s n 0x0704 → m.exp = false → k < 12 → s.net.stage = 0 →
      (p.st ∈ [.down, .authFail, .faulted, .offline] → Answers (.linkOffline n) s fun t =>
        (t.gport k).st = .offline ∧ others t ∧ (t.box n.val).outbox = m.outbox ++ [{ status := 0 }] ∧ KeepsBut [.mbx, .units, .link, .out] s t)
      ∧ (p.st = .up → Answers (.linkOffline n) s fun t =>
        t.net.stage = 1 ∧ (0x07, k) ∈ t.net.plan.leaves ∧ (t.box n.val).await = some (.unitOffline 0x07 k) ∧ t.link = s.link
        ∧ KeepsBut [.mbx, .net] s t))
    ∧ (Runs s n 0x0705 → m.exp = false → k < 2 → exec (.cxlStatus n) s =
      .next (replyDone n.val [b2n (s.cxlPort k).up, (s.cxlPort k).cap * 4096, (s.cxlPort k).poisons, (s.cxlPort k).timeouts, (s.cxlPort k).late]
        ((List.range 4).flatMap fun i => leBytes 4 (Config.freeNat (s.freeCtr + i))) { s.freed n with freeCtr := s.freeCtr + 4 })))
  ∧ (∀ (n : Fin 16) (s : State), Runs s n 0x0703 → mayRekey s n.val (s.box n.val) = true →
    let k := (s.box n.val).arg 0
    let c := (s.box n.val).arg 1
    k < 12 → channelNamed s k c = true → (s.gport k).st = .up → (s.chanOf k c).txEpoch < 0xFFFFFFFF → Answers (.linkRekey n) s fun t =>
      (t.chanOf k c).handshake = true ∧ (∀ j, j ≠ k → t.gport j = s.gport j) ∧ (t.box n.val).await = some (.linkRekey k c)
      ∧ KeepsBut [.mbx, .sealed, .link, .out, .freeCtr] s t)

end
end

