-- ==== Sys2Proof/Laws/Only.lean ====
section
/-!
SUPPORT. The relation that every operation of the model meets: outside the groups it names, it changes nothing; and the memory
and the event ring keep their forms. One lemma per operation, in the files beside this one, says which groups it names.
-/
namespace Sys2Proof.Laws

open Sys2Proof.Machine

/-- The step from `s` to `t` changes nothing outside `gs`, and keeps the forms of the memory and of the event ring. -/
structure Only (gs : List Group) (s t : State) : Prop where
  keeps : KeepsBut gs s t
  mem : s.mem.wf → t.mem.wf
  log : s.log.wf → t.log.wf

theorem Group.same_refl (g : Group) (s : State) : g.same s s := by
  cases g <;> first | rfl | exact ⟨rfl, rfl⟩

theorem Group.same_trans {g : Group} {s t u : State} (h : g.same s t) (k : g.same t u) : g.same s u := by
  cases g <;> first | exact Eq.trans k h | exact ⟨k.1.trans h.1, k.2.trans h.2⟩

theorem Only.refl {gs : List Group} {s : State} : Only gs s s := ⟨fun g _ => Group.same_refl g s, id, id⟩

theorem Only.trans {gs : List Group} {s t u : State} (h : Only gs s t) (k : Only gs t u) : Only gs s u :=
  ⟨fun g hg => Group.same_trans (h.keeps g hg) (k.keeps g hg), k.mem ∘ h.mem, k.log ∘ h.log⟩

theorem Only.mono {gs hs : List Group} {s t : State} (k : gs ⊆ hs) (h : Only gs s t) : Only hs s t :=
  ⟨fun g hg => h.keeps g fun m => hg (k m), h.mem, h.log⟩

/-- The form in which the lemma of an operation is used: the operation acts on a state that some earlier part reached. -/
theorem Only.after {gs hs : List Group} {s t u : State} (h : Only hs t u) (k : hs ⊆ gs) (p : Only gs s t) : Only gs s u :=
  p.trans (h.mono k)

theorem Only.here {g : Group} {gs hs : List Group} (m : hs ⊆ gs) (h : g ∈ hs) : g ∈ gs := m h

/-- A result taken out of a pair. -/
theorem Only.ofSnd {α : Type} {gs : List Group} {s t : State} {p : α × State} {a : α} (h : p = (a, t)) (k : Only gs s p.2) :
    Only gs s t := by
  subst h
  exact k

/-- A fold of operations. -/
theorem Only.foldl {α : Type} {gs : List Group} {f : State → α → State} (h : ∀ u a, Only gs u (f u a)) (l : List α) :
    ∀ {s t : State}, Only gs s t → Only gs s (l.foldl f t) := by
  induction l with
  | nil => exact fun k => k
  | cons a l ih => exact fun k => ih (k.trans (h _ a))

/-- A fold that carries a value beside the state. -/
theorem Only.foldlSnd {α β : Type} {gs : List Group} {f : β × State → α → β × State} (h : ∀ u a, Only gs u.2 (f u a).2)
    (l : List α) : ∀ {s : State} {p : β × State}, Only gs s p.2 → Only gs s (l.foldl f p).2 := by
  induction l with
  | nil => exact fun k => k
  | cons a l ih => exact fun k => ih (k.trans (h _ a))

/-! ## One group written -/

theorem Only.atAon {gs : List Group} {s t : State} {v0 : Aon} (m0 : Group.aon ∈ gs) (h : Only gs s t) :
    Only gs s { t with aon := v0 } :=
  ⟨fun g hg => by cases g <;> first | exact absurd m0 hg | exact h.keeps _ hg, h.mem, h.log⟩

theorem Only.atPins {gs : List Group} {s t : State} {v0 : Pins} (m0 : Group.pins ∈ gs) (h : Only gs s t) :
    Only gs s { t with pins := v0 } :=
  ⟨fun g hg => by cases g <;> first | exact absurd m0 hg | exact h.keeps _ hg, h.mem, h.log⟩

theorem Only.atPmx {gs : List Group} {s t : State} {v0 : Pmx} (m0 : Group.pmx ∈ gs) (h : Only gs s t) :
    Only gs s { t with pmx := v0 } :=
  ⟨fun g hg => by cases g <;> first | exact absurd m0 hg | exact h.keeps _ hg, h.mem, h.log⟩

theorem Only.atClk {gs : List Group} {s t : State} {v0 : Clk} (m0 : Group.clk ∈ gs) (h : Only gs s t) :
    Only gs s { t with clk := v0 } :=
  ⟨fun g hg => by cases g <;> first | exact absurd m0 hg | exact h.keeps _ hg, h.mem, h.log⟩

theorem Only.atPwr {gs : List Group} {s t : State} {v0 : Pwr} (m0 : Group.pwr ∈ gs) (h : Only gs s t) :
    Only gs s { t with pwr := v0 } :=
  ⟨fun g hg => by cases g <;> first | exact absurd m0 hg | exact h.keeps _ hg, h.mem, h.log⟩

theorem Only.atStart {gs : List Group} {s t : State} {v0 : Start} (m0 : Group.start ∈ gs) (h : Only gs s t) :
    Only gs s { t with start := v0 } :=
  ⟨fun g hg => by cases g <;> first | exact absurd m0 hg | exact h.keeps _ hg, h.mem, h.log⟩

theorem Only.atStore {gs : List Group} {s t : State} {v0 : Store} (m0 : Group.store ∈ gs) (h : Only gs s t) :
    Only gs s { t with store := v0 } :=
  ⟨fun g hg => by cases g <;> first | exact absurd m0 hg | exact h.keeps _ hg, h.mem, h.log⟩

theorem Only.atMbx {gs : List Group} {s t : State} {v0 : Mbxs} (m0 : Group.mbx ∈ gs) (h : Only gs s t) :
    Only gs s { t with mbx := v0 } :=
  ⟨fun g hg => by cases g <;> first | exact absurd m0 hg | exact h.keeps _ hg, h.mem, h.log⟩

theorem Only.atLog {gs : List Group} {s t : State} {v0 : Log} (m0 : Group.log ∈ gs) (x : t.log.wf → v0.wf) (h : Only gs s t) :
    Only gs s { t with log := v0 } :=
  ⟨fun g hg => by cases g <;> first | exact absurd m0 hg | exact h.keeps _ hg, h.mem, fun a => x (h.log a)⟩

theorem Only.atUnits {gs : List Group} {s t : State} {v0 : Units} (m0 : Group.units ∈ gs) (h : Only gs s t) :
    Only gs s { t with units := v0 } :=
  ⟨fun g hg => by cases g <;> first | exact absurd m0 hg | exact h.keeps _ hg, h.mem, h.log⟩

theorem Only.atTherm {gs : List Group} {s t : State} {v0 : Therm} (m0 : Group.therm ∈ gs) (h : Only gs s t) :
    Only gs s { t with therm := v0 } :=
  ⟨fun g hg => by cases g <;> first | exact absurd m0 hg | exact h.keeps _ hg, h.mem, h.log⟩

theorem Only.atProt {gs : List Group} {s t : State} {v0 : Prot} (m0 : Group.prot ∈ gs) (y : v0.counters = t.prot.counters ∧ v0.run = t.prot.run) (h : Only gs s t) :
    Only gs s { t with prot := v0 } :=
  ⟨fun g hg => by cases g <;> first | exact absurd m0 hg | exact ⟨y.1.trans (h.keeps .fuses hg).1, y.2.trans (h.keeps .fuses hg).2⟩ | exact h.keeps _ hg, h.mem, h.log⟩

theorem Only.atVane {gs : List Group} {s t : State} {v0 : Vane} (m0 : Group.vane ∈ gs) (h : Only gs s t) :
    Only gs s { t with vane := v0 } :=
  ⟨fun g hg => by cases g <;> first | exact absurd m0 hg | exact h.keeps _ hg, h.mem, h.log⟩

theorem Only.atNet {gs : List Group} {s t : State} {v0 : Net} (m0 : Group.net ∈ gs) (h : Only gs s t) :
    Only gs s { t with net := v0 } :=
  ⟨fun g hg => by cases g <;> first | exact absurd m0 hg | exact h.keeps _ hg, h.mem, h.log⟩

theorem Only.atColl {gs : List Group} {s t : State} {v0 : Coll} (m0 : Group.coll ∈ gs) (h : Only gs s t) :
    Only gs s { t with coll := v0 } :=
  ⟨fun g hg => by cases g <;> first | exact absurd m0 hg | exact h.keeps _ hg, h.mem, h.log⟩

theorem Only.atLull {gs : List Group} {s t : State} {v0 : Lull} (m0 : Group.lull ∈ gs) (h : Only gs s t) :
    Only gs s { t with lull := v0 } :=
  ⟨fun g hg => by cases g <;> first | exact absurd m0 hg | exact h.keeps _ hg, h.mem, h.log⟩

theorem Only.atBond {gs : List Group} {s t : State} {v0 : Bond} (m0 : Group.bond ∈ gs) (h : Only gs s t) :
    Only gs s { t with bond := v0 } :=
  ⟨fun g hg => by cases g <;> first | exact absurd m0 hg | exact h.keeps _ hg, h.mem, h.log⟩

theorem Only.atMem {gs : List Group} {s t : State} {v0 : Mem} (m0 : Group.mem ∈ gs) (w : v0.bytes = t.mem.bytes) (h : Only gs s t) :
    Only gs s { t with mem := v0 } :=
  ⟨fun g hg => by cases g <;> first | exact absurd m0 hg | exact w.trans (h.keeps .bytes hg) | exact h.keeps _ hg, fun a => (congrArg (fun b => Tab.wf 0 b = true) w).mpr (h.mem a), h.log⟩

theorem Only.atMmu {gs : List Group} {s t : State} {v0 : Mmu} (m0 : Group.mmu ∈ gs) (h : Only gs s t) :
    Only gs s { t with mmu := v0 } :=
  ⟨fun g hg => by cases g <;> first | exact absurd m0 hg | exact h.keeps _ hg, h.mem, h.log⟩

theorem Only.atDma {gs : List Group} {s t : State} {v0 : Dma} (m0 : Group.dma ∈ gs) (h : Only gs s t) :
    Only gs s { t with dma := v0 } :=
  ⟨fun g hg => by cases g <;> first | exact absurd m0 hg | exact h.keeps _ hg, h.mem, h.log⟩

theorem Only.atServe {gs : List Group} {s t : State} {v0 : Serve} (m0 : Group.serve ∈ gs) (h : Only gs s t) :
    Only gs s { t with serve := v0 } :=
  ⟨fun g hg => by cases g <;> first | exact absurd m0 hg | exact h.keeps _ hg, h.mem, h.log⟩

theorem Only.atSealed {gs : List Group} {s t : State} {v0 : Sealed} (m0 : Group.sealed ∈ gs) (h : Only gs s t) :
    Only gs s { t with sealed := v0 } :=
  ⟨fun g hg => by cases g <;> first | exact absurd m0 hg | exact h.keeps _ hg, h.mem, h.log⟩

theorem Only.atLink {gs : List Group} {s t : State} {v0 : Links} (m0 : Group.link ∈ gs) (h : Only gs s t) :
    Only gs s { t with link := v0 } :=
  ⟨fun g hg => by cases g <;> first | exact absurd m0 hg | exact h.keeps _ hg, h.mem, h.log⟩

theorem Only.atOut {gs : List Group} {s t : State} {v0 : Out} (m0 : Group.out ∈ gs) (h : Only gs s t) :
    Only gs s { t with out := v0 } :=
  ⟨fun g hg => by cases g <;> first | exact absurd m0 hg | exact h.keeps _ hg, h.mem, h.log⟩

theorem Only.atFreeCtr {gs : List Group} {s t : State} {v0 : Nat} (m0 : Group.freeCtr ∈ gs) (h : Only gs s t) :
    Only gs s { t with freeCtr := v0 } :=
  ⟨fun g hg => by cases g <;> first | exact absurd m0 hg | exact h.keeps _ hg, h.mem, h.log⟩

theorem Only.atPending {gs : List Group} {s t : State} {v0 : List Instr} (m0 : Group.pending ∈ gs) (h : Only gs s t) :
    Only gs s { t with pending := v0 } :=
  ⟨fun g hg => by cases g <;> first | exact absurd m0 hg | exact h.keeps _ hg, h.mem, h.log⟩

theorem Only.atBytes {gs : List Group} {s t : State} {v0 : Mem} (m0 : Group.mem ∈ gs) (m1 : Group.bytes ∈ gs) (w : t.mem.wf → v0.wf) (h : Only gs s t) :
    Only gs s { t with mem := v0 } :=
  ⟨fun g hg => by cases g <;> first | exact absurd m0 hg | exact absurd m1 hg | exact h.keeps _ hg, fun a => w (h.mem a), h.log⟩

theorem Only.atFuses {gs : List Group} {s t : State} {v0 : Prot} (m0 : Group.prot ∈ gs) (m1 : Group.fuses ∈ gs) (h : Only gs s t) :
    Only gs s { t with prot := v0 } :=
  ⟨fun g hg => by cases g <;> first | exact absurd m0 hg | exact absurd m1 hg | exact h.keeps _ hg, h.mem, h.log⟩

/-! ## Several groups written at once -/

theorem Only.atAonClk {gs : List Group} {s t : State} {v0 : Aon} {v1 : Clk} (m0 : Group.aon ∈ gs) (m1 : Group.clk ∈ gs) (h : Only gs s t) :
    Only gs s { t with aon := v0, clk := v1 } :=
  ⟨fun g hg => by cases g <;> first | exact absurd m0 hg | exact absurd m1 hg | exact h.keeps _ hg, h.mem, h.log⟩

theorem Only.atAonClkPwr {gs : List Group} {s t : State} {v0 : Aon} {v1 : Clk} {v2 : Pwr} (m0 : Group.aon ∈ gs) (m1 : Group.clk ∈ gs) (m2 : Group.pwr ∈ gs) (h : Only gs s t) :
    Only gs s { t with aon := v0, clk := v1, pwr := v2 } :=
  ⟨fun g hg => by cases g <;> first | exact absurd m0 hg | exact absurd m1 hg | exact absurd m2 hg | exact h.keeps _ hg, h.mem, h.log⟩

theorem Only.atAonMbx {gs : List Group} {s t : State} {v0 : Aon} {v1 : Mbxs} (m0 : Group.aon ∈ gs) (m1 : Group.mbx ∈ gs) (h : Only gs s t) :
    Only gs s { t with aon := v0, mbx := v1 } :=
  ⟨fun g hg => by cases g <;> first | exact absurd m0 hg | exact absurd m1 hg | exact h.keeps _ hg, h.mem, h.log⟩

theorem Only.atAonPinsClkPwrStoreLogUnitsThermProtMemServeLinkBytes {gs : List Group} {s t : State} {v0 : Aon} {v1 : Pins} {v2 : Clk} {v3 : Pwr} {v4 : Store} {v5 : Log} {v6 : Units} {v7 : Therm} {v8 : Prot} {v9 : Mem} {v10 : Serve} {v11 : Links} (m0 : Group.aon ∈ gs) (m1 : Group.pins ∈ gs) (m2 : Group.clk ∈ gs) (m3 : Group.pwr ∈ gs) (m4 : Group.store ∈ gs) (m5 : Group.log ∈ gs) (m6 : Group.units ∈ gs) (m7 : Group.therm ∈ gs) (m8 : Group.prot ∈ gs) (m9 : Group.mem ∈ gs) (m10 : Group.serve ∈ gs) (m11 : Group.link ∈ gs) (m12 : Group.bytes ∈ gs) (x : t.log.wf → v5.wf) (y : v8.counters = t.prot.counters ∧ v8.run = t.prot.run) (w : t.mem.wf → v9.wf) (h : Only gs s t) :
    Only gs s { t with aon := v0, pins := v1, clk := v2, pwr := v3, store := v4, log := v5, units := v6, therm := v7, prot := v8, mem := v9, serve := v10, link := v11 } :=
  ⟨fun g hg => by cases g <;> first | exact absurd m0 hg | exact absurd m1 hg | exact absurd m2 hg | exact absurd m3 hg | exact absurd m4 hg | exact absurd m5 hg | exact absurd m6 hg | exact absurd m7 hg | exact absurd m8 hg | exact absurd m9 hg | exact absurd m10 hg | exact absurd m11 hg | exact absurd m12 hg | exact ⟨y.1.trans (h.keeps .fuses hg).1, y.2.trans (h.keeps .fuses hg).2⟩ | exact h.keeps _ hg, fun a => w (h.mem a), fun a => x (h.log a)⟩

theorem Only.atAonPinsClkThermProt {gs : List Group} {s t : State} {v0 : Aon} {v1 : Pins} {v2 : Clk} {v3 : Therm} {v4 : Prot} (m0 : Group.aon ∈ gs) (m1 : Group.pins ∈ gs) (m2 : Group.clk ∈ gs) (m3 : Group.therm ∈ gs) (m4 : Group.prot ∈ gs) (y : v4.counters = t.prot.counters ∧ v4.run = t.prot.run) (h : Only gs s t) :
    Only gs s { t with aon := v0, pins := v1, clk := v2, therm := v3, prot := v4 } :=
  ⟨fun g hg => by cases g <;> first | exact absurd m0 hg | exact absurd m1 hg | exact absurd m2 hg | exact absurd m3 hg | exact absurd m4 hg | exact ⟨y.1.trans (h.keeps .fuses hg).1, y.2.trans (h.keeps .fuses hg).2⟩ | exact h.keeps _ hg, h.mem, h.log⟩

theorem Only.atAonPinsPmxClkPwrStartLogUnitsProtVaneLink {gs : List Group} {s t : State} {v0 : Aon} {v1 : Pins} {v2 : Pmx} {v3 : Clk} {v4 : Pwr} {v5 : Start} {v6 : Log} {v7 : Units} {v8 : Prot} {v9 : Vane} {v10 : Links} (m0 : Group.aon ∈ gs) (m1 : Group.pins ∈ gs) (m2 : Group.pmx ∈ gs) (m3 : Group.clk ∈ gs) (m4 : Group.pwr ∈ gs) (m5 : Group.start ∈ gs) (m6 : Group.log ∈ gs) (m7 : Group.units ∈ gs) (m8 : Group.prot ∈ gs) (m9 : Group.vane ∈ gs) (m10 : Group.link ∈ gs) (x : t.log.wf → v6.wf) (y : v8.counters = t.prot.counters ∧ v8.run = t.prot.run) (h : Only gs s t) :
    Only gs s { t with aon := v0, pins := v1, pmx := v2, clk := v3, pwr := v4, start := v5, log := v6, units := v7, prot := v8, vane := v9, link := v10 } :=
  ⟨fun g hg => by cases g <;> first | exact absurd m0 hg | exact absurd m1 hg | exact absurd m2 hg | exact absurd m3 hg | exact absurd m4 hg | exact absurd m5 hg | exact absurd m6 hg | exact absurd m7 hg | exact absurd m8 hg | exact absurd m9 hg | exact absurd m10 hg | exact ⟨y.1.trans (h.keeps .fuses hg).1, y.2.trans (h.keeps .fuses hg).2⟩ | exact h.keeps _ hg, h.mem, fun a => x (h.log a)⟩

theorem Only.atAonPinsPmxPwrStartStore {gs : List Group} {s t : State} {v0 : Aon} {v1 : Pins} {v2 : Pmx} {v3 : Pwr} {v4 : Start} {v5 : Store} (m0 : Group.aon ∈ gs) (m1 : Group.pins ∈ gs) (m2 : Group.pmx ∈ gs) (m3 : Group.pwr ∈ gs) (m4 : Group.start ∈ gs) (m5 : Group.store ∈ gs) (h : Only gs s t) :
    Only gs s { t with aon := v0, pins := v1, pmx := v2, pwr := v3, start := v4, store := v5 } :=
  ⟨fun g hg => by cases g <;> first | exact absurd m0 hg | exact absurd m1 hg | exact absurd m2 hg | exact absurd m3 hg | exact absurd m4 hg | exact absurd m5 hg | exact h.keeps _ hg, h.mem, h.log⟩

theorem Only.atAonPinsPmxStartStore {gs : List Group} {s t : State} {v0 : Aon} {v1 : Pins} {v2 : Pmx} {v3 : Start} {v4 : Store} (m0 : Group.aon ∈ gs) (m1 : Group.pins ∈ gs) (m2 : Group.pmx ∈ gs) (m3 : Group.start ∈ gs) (m4 : Group.store ∈ gs) (h : Only gs s t) :
    Only gs s { t with aon := v0, pins := v1, pmx := v2, start := v3, store := v4 } :=
  ⟨fun g hg => by cases g <;> first | exact absurd m0 hg | exact absurd m1 hg | exact absurd m2 hg | exact absurd m3 hg | exact absurd m4 hg | exact h.keeps _ hg, h.mem, h.log⟩

theorem Only.atAonPinsPwrStartTherm {gs : List Group} {s t : State} {v0 : Aon} {v1 : Pins} {v2 : Pwr} {v3 : Start} {v4 : Therm} (m0 : Group.aon ∈ gs) (m1 : Group.pins ∈ gs) (m2 : Group.pwr ∈ gs) (m3 : Group.start ∈ gs) (m4 : Group.therm ∈ gs) (h : Only gs s t) :
    Only gs s { t with aon := v0, pins := v1, pwr := v2, start := v3, therm := v4 } :=
  ⟨fun g hg => by cases g <;> first | exact absurd m0 hg | exact absurd m1 hg | exact absurd m2 hg | exact absurd m3 hg | exact absurd m4 hg | exact h.keeps _ hg, h.mem, h.log⟩

theorem Only.atAonPinsStartStore {gs : List Group} {s t : State} {v0 : Aon} {v1 : Pins} {v2 : Start} {v3 : Store} (m0 : Group.aon ∈ gs) (m1 : Group.pins ∈ gs) (m2 : Group.start ∈ gs) (m3 : Group.store ∈ gs) (h : Only gs s t) :
    Only gs s { t with aon := v0, pins := v1, start := v2, store := v3 } :=
  ⟨fun g hg => by cases g <;> first | exact absurd m0 hg | exact absurd m1 hg | exact absurd m2 hg | exact absurd m3 hg | exact h.keeps _ hg, h.mem, h.log⟩

theorem Only.atAonPinsStore {gs : List Group} {s t : State} {v0 : Aon} {v1 : Pins} {v2 : Store} (m0 : Group.aon ∈ gs) (m1 : Group.pins ∈ gs) (m2 : Group.store ∈ gs) (h : Only gs s t) :
    Only gs s { t with aon := v0, pins := v1, store := v2 } :=
  ⟨fun g hg => by cases g <;> first | exact absurd m0 hg | exact absurd m1 hg | exact absurd m2 hg | exact h.keeps _ hg, h.mem, h.log⟩

theorem Only.atAonPinsTherm {gs : List Group} {s t : State} {v0 : Aon} {v1 : Pins} {v2 : Therm} (m0 : Group.aon ∈ gs) (m1 : Group.pins ∈ gs) (m2 : Group.therm ∈ gs) (h : Only gs s t) :
    Only gs s { t with aon := v0, pins := v1, therm := v2 } :=
  ⟨fun g hg => by cases g <;> first | exact absurd m0 hg | exact absurd m1 hg | exact absurd m2 hg | exact h.keeps _ hg, h.mem, h.log⟩

theorem Only.atAonPinsVane {gs : List Group} {s t : State} {v0 : Aon} {v1 : Pins} {v2 : Vane} (m0 : Group.aon ∈ gs) (m1 : Group.pins ∈ gs) (m2 : Group.vane ∈ gs) (h : Only gs s t) :
    Only gs s { t with aon := v0, pins := v1, vane := v2 } :=
  ⟨fun g hg => by cases g <;> first | exact absurd m0 hg | exact absurd m1 hg | exact absurd m2 hg | exact h.keeps _ hg, h.mem, h.log⟩

theorem Only.atAonPwr {gs : List Group} {s t : State} {v0 : Aon} {v1 : Pwr} (m0 : Group.aon ∈ gs) (m1 : Group.pwr ∈ gs) (h : Only gs s t) :
    Only gs s { t with aon := v0, pwr := v1 } :=
  ⟨fun g hg => by cases g <;> first | exact absurd m0 hg | exact absurd m1 hg | exact h.keeps _ hg, h.mem, h.log⟩

theorem Only.atAonSealed {gs : List Group} {s t : State} {v0 : Aon} {v1 : Sealed} (m0 : Group.aon ∈ gs) (m1 : Group.sealed ∈ gs) (h : Only gs s t) :
    Only gs s { t with aon := v0, sealed := v1 } :=
  ⟨fun g hg => by cases g <;> first | exact absurd m0 hg | exact absurd m1 hg | exact h.keeps _ hg, h.mem, h.log⟩

theorem Only.atAonStart {gs : List Group} {s t : State} {v0 : Aon} {v1 : Start} (m0 : Group.aon ∈ gs) (m1 : Group.start ∈ gs) (h : Only gs s t) :
    Only gs s { t with aon := v0, start := v1 } :=
  ⟨fun g hg => by cases g <;> first | exact absurd m0 hg | exact absurd m1 hg | exact h.keeps _ hg, h.mem, h.log⟩

theorem Only.atAonStartVane {gs : List Group} {s t : State} {v0 : Aon} {v1 : Start} {v2 : Vane} (m0 : Group.aon ∈ gs) (m1 : Group.start ∈ gs) (m2 : Group.vane ∈ gs) (h : Only gs s t) :
    Only gs s { t with aon := v0, start := v1, vane := v2 } :=
  ⟨fun g hg => by cases g <;> first | exact absurd m0 hg | exact absurd m1 hg | exact absurd m2 hg | exact h.keeps _ hg, h.mem, h.log⟩

theorem Only.atAonStore {gs : List Group} {s t : State} {v0 : Aon} {v1 : Store} (m0 : Group.aon ∈ gs) (m1 : Group.store ∈ gs) (h : Only gs s t) :
    Only gs s { t with aon := v0, store := v1 } :=
  ⟨fun g hg => by cases g <;> first | exact absurd m0 hg | exact absurd m1 hg | exact h.keeps _ hg, h.mem, h.log⟩

theorem Only.atAonVane {gs : List Group} {s t : State} {v0 : Aon} {v1 : Vane} (m0 : Group.aon ∈ gs) (m1 : Group.vane ∈ gs) (h : Only gs s t) :
    Only gs s { t with aon := v0, vane := v1 } :=
  ⟨fun g hg => by cases g <;> first | exact absurd m0 hg | exact absurd m1 hg | exact h.keeps _ hg, h.mem, h.log⟩

theorem Only.atClkPwr {gs : List Group} {s t : State} {v0 : Clk} {v1 : Pwr} (m0 : Group.clk ∈ gs) (m1 : Group.pwr ∈ gs) (h : Only gs s t) :
    Only gs s { t with clk := v0, pwr := v1 } :=
  ⟨fun g hg => by cases g <;> first | exact absurd m0 hg | exact absurd m1 hg | exact h.keeps _ hg, h.mem, h.log⟩

theorem Only.atLinkOut {gs : List Group} {s t : State} {v0 : Links} {v1 : Out} (m0 : Group.link ∈ gs) (m1 : Group.out ∈ gs) (h : Only gs s t) :
    Only gs s { t with link := v0, out := v1 } :=
  ⟨fun g hg => by cases g <;> first | exact absurd m0 hg | exact absurd m1 hg | exact h.keeps _ hg, h.mem, h.log⟩

theorem Only.atMemMmuServe {gs : List Group} {s t : State} {v0 : Mem} {v1 : Mmu} {v2 : Serve} (m0 : Group.mem ∈ gs) (m1 : Group.mmu ∈ gs) (m2 : Group.serve ∈ gs) (w : v0.bytes = t.mem.bytes) (h : Only gs s t) :
    Only gs s { t with mem := v0, mmu := v1, serve := v2 } :=
  ⟨fun g hg => by cases g <;> first | exact absurd m0 hg | exact absurd m1 hg | exact absurd m2 hg | exact w.trans (h.keeps .bytes hg) | exact h.keeps _ hg, fun a => (congrArg (fun b => Tab.wf 0 b = true) w).mpr (h.mem a), h.log⟩

theorem Only.atMemServeBytes {gs : List Group} {s t : State} {v0 : Mem} {v1 : Serve} (m0 : Group.mem ∈ gs) (m1 : Group.serve ∈ gs) (m2 : Group.bytes ∈ gs) (w : t.mem.wf → v0.wf) (h : Only gs s t) :
    Only gs s { t with mem := v0, serve := v1 } :=
  ⟨fun g hg => by cases g <;> first | exact absurd m0 hg | exact absurd m1 hg | exact absurd m2 hg | exact h.keeps _ hg, fun a => w (h.mem a), h.log⟩

theorem Only.atNetColl {gs : List Group} {s t : State} {v0 : Net} {v1 : Coll} (m0 : Group.net ∈ gs) (m1 : Group.coll ∈ gs) (h : Only gs s t) :
    Only gs s { t with net := v0, coll := v1 } :=
  ⟨fun g hg => by cases g <;> first | exact absurd m0 hg | exact absurd m1 hg | exact h.keeps _ hg, h.mem, h.log⟩

theorem Only.atPinsLink {gs : List Group} {s t : State} {v0 : Pins} {v1 : Links} (m0 : Group.pins ∈ gs) (m1 : Group.link ∈ gs) (h : Only gs s t) :
    Only gs s { t with pins := v0, link := v1 } :=
  ⟨fun g hg => by cases g <;> first | exact absurd m0 hg | exact absurd m1 hg | exact h.keeps _ hg, h.mem, h.log⟩

theorem Only.atPinsMbxOut {gs : List Group} {s t : State} {v0 : Pins} {v1 : Mbxs} {v2 : Out} (m0 : Group.pins ∈ gs) (m1 : Group.mbx ∈ gs) (m2 : Group.out ∈ gs) (h : Only gs s t) :
    Only gs s { t with pins := v0, mbx := v1, out := v2 } :=
  ⟨fun g hg => by cases g <;> first | exact absurd m0 hg | exact absurd m1 hg | exact absurd m2 hg | exact h.keeps _ hg, h.mem, h.log⟩

theorem Only.atPinsProt {gs : List Group} {s t : State} {v0 : Pins} {v1 : Prot} (m0 : Group.pins ∈ gs) (m1 : Group.prot ∈ gs) (y : v1.counters = t.prot.counters ∧ v1.run = t.prot.run) (h : Only gs s t) :
    Only gs s { t with pins := v0, prot := v1 } :=
  ⟨fun g hg => by cases g <;> first | exact absurd m0 hg | exact absurd m1 hg | exact ⟨y.1.trans (h.keeps .fuses hg).1, y.2.trans (h.keeps .fuses hg).2⟩ | exact h.keeps _ hg, h.mem, h.log⟩

theorem Only.atPinsVane {gs : List Group} {s t : State} {v0 : Pins} {v1 : Vane} (m0 : Group.pins ∈ gs) (m1 : Group.vane ∈ gs) (h : Only gs s t) :
    Only gs s { t with pins := v0, vane := v1 } :=
  ⟨fun g hg => by cases g <;> first | exact absurd m0 hg | exact absurd m1 hg | exact h.keeps _ hg, h.mem, h.log⟩

theorem Only.atProtFreeCtr {gs : List Group} {s t : State} {v0 : Prot} {v1 : Nat} (m0 : Group.prot ∈ gs) (m1 : Group.freeCtr ∈ gs) (y : v0.counters = t.prot.counters ∧ v0.run = t.prot.run) (h : Only gs s t) :
    Only gs s { t with prot := v0, freeCtr := v1 } :=
  ⟨fun g hg => by cases g <;> first | exact absurd m0 hg | exact absurd m1 hg | exact ⟨y.1.trans (h.keeps .fuses hg).1, y.2.trans (h.keeps .fuses hg).2⟩ | exact h.keeps _ hg, h.mem, h.log⟩

theorem Only.atSealedFreeCtr {gs : List Group} {s t : State} {v0 : Sealed} {v1 : Nat} (m0 : Group.sealed ∈ gs) (m1 : Group.freeCtr ∈ gs) (h : Only gs s t) :
    Only gs s { t with sealed := v0, freeCtr := v1 } :=
  ⟨fun g hg => by cases g <;> first | exact absurd m0 hg | exact absurd m1 hg | exact h.keeps _ hg, h.mem, h.log⟩

theorem Only.atStartUnits {gs : List Group} {s t : State} {v0 : Start} {v1 : Units} (m0 : Group.start ∈ gs) (m1 : Group.units ∈ gs) (h : Only gs s t) :
    Only gs s { t with start := v0, units := v1 } :=
  ⟨fun g hg => by cases g <;> first | exact absurd m0 hg | exact absurd m1 hg | exact h.keeps _ hg, h.mem, h.log⟩

theorem Only.atStoreLog {gs : List Group} {s t : State} {v0 : Store} {v1 : Log} (m0 : Group.store ∈ gs) (m1 : Group.log ∈ gs) (x : t.log.wf → v1.wf) (h : Only gs s t) :
    Only gs s { t with store := v0, log := v1 } :=
  ⟨fun g hg => by cases g <;> first | exact absurd m0 hg | exact absurd m1 hg | exact h.keeps _ hg, h.mem, fun a => x (h.log a)⟩

theorem Only.atStoreMem {gs : List Group} {s t : State} {v0 : Store} {v1 : Mem} (m0 : Group.store ∈ gs) (m1 : Group.mem ∈ gs) (w : v1.bytes = t.mem.bytes) (h : Only gs s t) :
    Only gs s { t with store := v0, mem := v1 } :=
  ⟨fun g hg => by cases g <;> first | exact absurd m0 hg | exact absurd m1 hg | exact w.trans (h.keeps .bytes hg) | exact h.keeps _ hg, fun a => (congrArg (fun b => Tab.wf 0 b = true) w).mpr (h.mem a), h.log⟩

theorem Only.atStoreProt {gs : List Group} {s t : State} {v0 : Store} {v1 : Prot} (m0 : Group.store ∈ gs) (m1 : Group.prot ∈ gs) (y : v1.counters = t.prot.counters ∧ v1.run = t.prot.run) (h : Only gs s t) :
    Only gs s { t with store := v0, prot := v1 } :=
  ⟨fun g hg => by cases g <;> first | exact absurd m0 hg | exact absurd m1 hg | exact ⟨y.1.trans (h.keeps .fuses hg).1, y.2.trans (h.keeps .fuses hg).2⟩ | exact h.keeps _ hg, h.mem, h.log⟩

theorem Only.atVaneFreeCtr {gs : List Group} {s t : State} {v0 : Vane} {v1 : Nat} (m0 : Group.vane ∈ gs) (m1 : Group.freeCtr ∈ gs) (h : Only gs s t) :
    Only gs s { t with vane := v0, freeCtr := v1 } :=
  ⟨fun g hg => by cases g <;> first | exact absurd m0 hg | exact absurd m1 hg | exact h.keeps _ hg, h.mem, h.log⟩

theorem Only.atVaneNet {gs : List Group} {s t : State} {v0 : Vane} {v1 : Net} (m0 : Group.vane ∈ gs) (m1 : Group.net ∈ gs) (h : Only gs s t) :
    Only gs s { t with vane := v0, net := v1 } :=
  ⟨fun g hg => by cases g <;> first | exact absurd m0 hg | exact absurd m1 hg | exact h.keeps _ hg, h.mem, h.log⟩

theorem Only.atVaneNetCollLullBondMemMmuDmaServeSealedLinkBytes {gs : List Group} {s t : State} {v0 : Vane} {v1 : Net} {v2 : Coll} {v3 : Lull} {v4 : Bond} {v5 : Mem} {v6 : Mmu} {v7 : Dma} {v8 : Serve} {v9 : Sealed} {v10 : Links} (m0 : Group.vane ∈ gs) (m1 : Group.net ∈ gs) (m2 : Group.coll ∈ gs) (m3 : Group.lull ∈ gs) (m4 : Group.bond ∈ gs) (m5 : Group.mem ∈ gs) (m6 : Group.mmu ∈ gs) (m7 : Group.dma ∈ gs) (m8 : Group.serve ∈ gs) (m9 : Group.sealed ∈ gs) (m10 : Group.link ∈ gs) (m11 : Group.bytes ∈ gs) (w : t.mem.wf → v5.wf) (h : Only gs s t) :
    Only gs s { t with vane := v0, net := v1, coll := v2, lull := v3, bond := v4, mem := v5, mmu := v6, dma := v7, serve := v8, sealed := v9, link := v10 } :=
  ⟨fun g hg => by cases g <;> first | exact absurd m0 hg | exact absurd m1 hg | exact absurd m2 hg | exact absurd m3 hg | exact absurd m4 hg | exact absurd m5 hg | exact absurd m6 hg | exact absurd m7 hg | exact absurd m8 hg | exact absurd m9 hg | exact absurd m10 hg | exact absurd m11 hg | exact h.keeps _ hg, fun a => w (h.mem a), h.log⟩

end Sys2Proof.Laws
end

