-- ==== Sys2Proof/Laws/Tab.lean ====
section
/-!
SUPPORT. The laws of the sparse tables: reading after a write, and the canonical form kept by every table operation.
-/
namespace Sys2Proof.Laws

variable {α : Type}

theorem Tab.above_ins {t : Tab α} {m n : Nat} {x : α} (h : m < n) (k : Tab.above m t = true) :
    Tab.above m (Tab.ins t n x) = true := by
  induction t generalizing m with
  | nil => simp [Tab.ins, Tab.above, h]
  | cons e t ih =>
    obtain ⟨a, v⟩ := e
    simp only [Tab.above, Bool.and_eq_true, decide_eq_true_eq] at k
    simp only [Tab.ins]
    split
    · simp_all [Tab.above]
    · split
      · simp_all [Tab.above]
      · simp only [Tab.above, Bool.and_eq_true, decide_eq_true_eq]
        exact ⟨k.1, ih (by omega) k.2⟩

theorem Tab.above_mono {t : Tab α} {m n : Nat} (h : m ≤ n) (k : Tab.above n t = true) : Tab.above m t = true := by
  cases t with
  | nil => rfl
  | cons e t =>
    simp only [Tab.above, Bool.and_eq_true, decide_eq_true_eq] at k ⊢
    exact ⟨by omega, k.2⟩

theorem Tab.sorted_ins {t : Tab α} {n : Nat} {x : α} (h : Tab.sorted t = true) : Tab.sorted (Tab.ins t n x) = true := by
  cases t with
  | nil => rfl
  | cons e t =>
    obtain ⟨a, v⟩ := e
    simp only [Tab.ins]
    split
    · simpa [Tab.sorted, Tab.above] using ⟨‹_›, h⟩
    · split
      · subst_vars
        exact h
      · exact Tab.above_ins (by omega) h

theorem Tab.above_del {t : Tab α} {m n : Nat} (k : Tab.above m t = true) : Tab.above m (Tab.del t n) = true := by
  induction t generalizing m with
  | nil => rfl
  | cons e t ih =>
    obtain ⟨a, v⟩ := e
    simp only [Tab.above, Bool.and_eq_true, decide_eq_true_eq] at k
    simp only [Tab.del]
    split
    · exact Tab.above_mono (by omega) (ih k.2)
    · simp only [Tab.above, Bool.and_eq_true, decide_eq_true_eq]
      exact ⟨k.1, ih k.2⟩

theorem Tab.sorted_of_above {t : Tab α} {n : Nat} (h : Tab.above n t = true) : Tab.sorted t = true := by
  cases t with
  | nil => rfl
  | cons e t =>
    simp only [Tab.above, Bool.and_eq_true] at h
    exact h.2

theorem Tab.sorted_del {t : Tab α} {n : Nat} (h : Tab.sorted t = true) : Tab.sorted (Tab.del t n) = true := by
  cases t with
  | nil => rfl
  | cons e t =>
    obtain ⟨a, v⟩ := e
    simp only [Tab.del]
    split
    · exact Tab.sorted_of_above (Tab.above_del h)
    · exact Tab.above_del h

theorem Tab.above_filter {t : Tab α} {m : Nat} {p : Nat × α → Bool} (k : Tab.above m t = true) :
    Tab.above m (t.filter p) = true := by
  induction t generalizing m with
  | nil => rfl
  | cons e t ih =>
    obtain ⟨a, v⟩ := e
    simp only [Tab.above, Bool.and_eq_true, decide_eq_true_eq] at k
    rw [List.filter_cons]
    split
    · simp only [Tab.above, Bool.and_eq_true, decide_eq_true_eq]
      exact ⟨k.1, ih k.2⟩
    · exact Tab.above_mono (by omega) (ih k.2)

theorem Tab.sorted_filter {t : Tab α} {p : Nat × α → Bool} (h : Tab.sorted t = true) : Tab.sorted (t.filter p) = true := by
  cases t with
  | nil => rfl
  | cons e t =>
    obtain ⟨a, v⟩ := e
    rw [List.filter_cons]
    split
    · exact Tab.above_filter h
    · exact Tab.sorted_of_above (Tab.above_filter h)

/-- Whatever stands in a table after an insertion stood there before or is the entry put in. -/
theorem Tab.mem_ins {t : Tab α} {n : Nat} {x : α} {e : Nat × α} (h : e ∈ Tab.ins t n x) : e = (n, x) ∨ e ∈ t := by
  induction t with
  | nil => simpa [Tab.ins] using h
  | cons a t ih =>
    obtain ⟨k, v⟩ := a
    simp only [Tab.ins] at h
    split at h
    · simpa using h
    · split at h
      · rcases List.mem_cons.1 h with h | h
        · exact .inl h
        · exact .inr (List.mem_cons_of_mem _ h)
      · rcases List.mem_cons.1 h with h | h
        · exact .inr (h ▸ List.mem_cons_self ..)
        · exact (ih h).imp id (List.mem_cons_of_mem _)

theorem Tab.mem_del {t : Tab α} {n : Nat} {e : Nat × α} (h : e ∈ Tab.del t n) : e ∈ t := by
  induction t with
  | nil => exact h
  | cons a t ih =>
    obtain ⟨k, v⟩ := a
    simp only [Tab.del] at h
    split at h
    · exact List.mem_cons_of_mem _ (ih h)
    · rcases List.mem_cons.1 h with h | h
      · exact h ▸ List.mem_cons_self ..
      · exact List.mem_cons_of_mem _ (ih h)

/-- What an insertion leaves to be read. -/
theorem Tab.get_ins {d : α} {t : Tab α} {n k : Nat} {x : α} : Tab.get d (Tab.ins t n x) k = if k = n then x else Tab.get d t k := by
  induction t with
  | nil => simp [Tab.ins, Tab.get]
  | cons e t ih =>
    obtain ⟨a, v⟩ := e
    simp only [Tab.ins]
    split
    · simp only [Tab.get]
    · split
      · simp only [Tab.get]
        split <;> simp_all
      · simp only [Tab.get, ih]
        split
        · rw [if_neg (by omega)]
        · rfl

/-- What a deletion leaves to be read. -/
theorem Tab.get_del {d : α} {t : Tab α} {n k : Nat} : Tab.get d (Tab.del t n) k = if k = n then d else Tab.get d t k := by
  induction t with
  | nil => simp [Tab.del, Tab.get]
  | cons e t ih =>
    obtain ⟨a, v⟩ := e
    simp only [Tab.del]
    split
    · rw [ih]
      simp only [Tab.get]
      split
      · rfl
      · rw [if_neg (by omega)]
    · simp only [Tab.get, ih]
      split
      · rw [if_neg (by omega)]
      · rfl

variable [DecidableEq α]

theorem Tab.wf_iff {d : α} {t : Tab α} : Tab.wf d t = true ↔ Tab.sorted t = true ∧ ∀ e ∈ t, e.2 ≠ d := by
  simp [Tab.wf]

/-- Writing keeps the canonical form. -/
theorem Tab.wf_put {d : α} {t : Tab α} {n : Nat} {x : α} (h : Tab.wf d t = true) : Tab.wf d (Tab.put d t n x) = true := by
  rw [Tab.wf_iff] at h ⊢
  simp only [Tab.put]
  split
  · exact ⟨Tab.sorted_del h.1, fun e m => h.2 e (Tab.mem_del m)⟩
  · refine ⟨Tab.sorted_ins h.1, fun e m => ?_⟩
    rcases Tab.mem_ins m with rfl | m
    · assumption
    · exact h.2 e m

theorem Tab.wf_filter {d : α} {t : Tab α} {p : Nat × α → Bool} (h : Tab.wf d t = true) : Tab.wf d (t.filter p) = true := by
  rw [Tab.wf_iff] at h ⊢
  exact ⟨Tab.sorted_filter h.1, fun e m => h.2 e (List.mem_of_mem_filter m)⟩

/-- Reading after a write. -/
theorem Tab.get_put {d : α} {t : Tab α} {n k : Nat} {x : α} :
    Tab.get d (Tab.put d t n x) k = if k = n then x else Tab.get d t k := by
  simp only [Tab.put]
  split
  · subst_vars
    exact Tab.get_del
  · exact Tab.get_ins

/-- Reading what was just written. -/
@[simp] theorem Tab.get_put_self {d : α} {t : Tab α} {n : Nat} {x : α} : Tab.get d (Tab.put d t n x) n = x := by
  simp [Tab.get_put]

theorem Tab.sorted_put {d : α} {t : Tab α} {n : Nat} {x : α} (h : Tab.sorted t = true) : Tab.sorted (Tab.put d t n x) = true := by
  simp only [Tab.put]
  split
  · exact Tab.sorted_del h
  · exact Tab.sorted_ins h

end Sys2Proof.Laws
end

