-- ==== Sys2Proof/Laws/Forms.lean ====
section
/-!
SUPPORT. The forms of the event ring and of the memory, kept by the operations that write them.
-/
namespace Sys2Proof.Laws

open Sys2Proof.Machine

/-! ## The event ring (R501, R502) -/

/-- The place of a new record lies in the ring. -/
theorem Log.place_lt {l : Log} (h : l.wf) : l.place.1 < 4096 := by
  unfold Log.place
  dsimp only
  split
  · rename_i m
    dsimp only
    cases k : l.uncommitted.find? fun j => !(Tab.get {} l.ring j).cls.urgent with
    | some j => exact h.2.2.2 j (List.mem_of_find?_eq_some k)
    | none =>
      cases e : l.uncommitted with
      | nil => simp [e] at m
      | cons a t => simpa using h.2.2.2 a (by simp [e])
  · exact Nat.mod_lt _ (by decide)

theorem Log.push_wf {l : Log} {r : Rec} (h : l.wf) : (l.push r).wf := by
  refine ⟨Tab.sorted_ins h.1, fun e m => ?_, ?_, fun i m => ?_⟩
  · rcases Tab.mem_ins m with rfl | m
    · exact Log.place_lt h
    · exact h.2.1 e m
  · simp only [Log.push, List.nodup_append, List.nodup_singleton]
    refine ⟨h.2.2.1.filter _, trivial, fun a ha b hb => ?_⟩
    simp only [List.mem_singleton] at hb
    simp_all
  · simp only [Log.push, List.mem_append, List.mem_singleton, List.mem_filter] at m
    rcases m with m | rfl
    · exact h.2.2.2 i m.1
    · exact Log.place_lt h

theorem Log.write_wf {l : Log} {now slot : Nat} {r : Rec} (h : l.wf) : (l.write now slot r).wf := by
  unfold Log.write Log.dropNote
  dsimp only
  split
  · split
    · exact Log.push_wf (Log.push_wf h)
    · exact Log.push_wf h
  · exact Log.push_wf h

/-- The pair of records of one occurrence. -/
theorem Log.writePair_wf {l : Log} {now slot : Nat} {a b : Rec} (h : l.wf) : (l.writePair now slot a b).wf := by
  unfold Log.writePair Log.dropNote
  dsimp only
  split
  · split
    · exact Log.push_wf (Log.push_wf (Log.push_wf h))
    · exact Log.push_wf (Log.push_wf h)
  · exact Log.push_wf (Log.push_wf h)

/-- A record leaves the list of those that wait. -/
theorem Log.commit_wf {l : Log} {i n : Nat} (h : l.wf) :
    Log.wf { l with uncommitted := l.uncommitted.filter fun j => j ≠ i, lastCommitted := n } :=
  ⟨h.1, h.2.1, h.2.2.1.filter _, fun j m => h.2.2.2 j (List.mem_of_mem_filter m)⟩

/-- An emptied ring. -/
theorem Log.empty_wf {l : Log} : Log.wf { l with ring := [], uncommitted := [] } :=
  ⟨rfl, by simp, List.nodup_nil, by simp⟩

/-- A new ring. -/
theorem Log.fresh_wf : Log.wf {} := ⟨rfl, by simp, List.nodup_nil, by simp⟩

/-! ## The memory -/

theorem pokeTab_wf (l : List Byte) : ∀ {t : Sys2Proof.Tab Byte} {a : Nat}, Tab.wf 0 t = true → Tab.wf 0 (pokeTab t a l) = true := by
  induction l with
  | nil => exact fun h => h
  | cons b l ih => exact fun h => ih (Tab.wf_put h)

/-- An empty memory. -/
theorem Mem.empty_wf : Mem.wf {} := rfl

/-- An empty memory in which the count of injections goes on. -/
theorem Mem.fresh_wf {i : Nat} : Mem.wf { injections := i } := rfl

/-- A fold of writes keeps the canonical form. -/
theorem putAll_wf {β : Type} (f : β → Nat) (g : β → Byte) (l : List β) :
    ∀ {t : Sys2Proof.Tab Byte}, Tab.wf 0 t = true → Tab.wf 0 (l.foldl (fun t e => Tab.put 0 t (f e) (g e)) t) = true := by
  induction l with
  | nil => exact fun h => h
  | cons b l ih => exact fun h => ih (Tab.wf_put h)

end Sys2Proof.Laws
end

