-- ==== Sys2Proof/Laws/Flags.lean ====
section
/-!
SUPPORT. Which groups of state each operation of Machine/Flags.lean changes; it keeps every other group and the forms of the
memory and of the event ring.
-/
namespace Sys2Proof.Laws

open Sys2Proof.Machine

theorem noteDeny_only {gs : List Group} {s t : State} (m : [.aon] ⊆ gs) (k : Only gs s t) :
    Only gs s (Machine.noteDeny t) := by
  refine Only.after (hs := [.aon]) ?_ m k
  clear m k
  unfold Machine.noteDeny
  try dsimp only
  repeat' with_reducible first | exact Only.refl | fail_if_no_progress refine Only.atAon (by decide) ?_

theorem noteReserved_only {gs : List Group} {s t : State} (m : [.aon] ⊆ gs) (k : Only gs s t) :
    Only gs s (Machine.noteReserved t) := by
  refine Only.after (hs := [.aon]) ?_ m k
  clear m k
  unfold Machine.noteReserved
  try dsimp only
  repeat' with_reducible first | exact Only.refl | fail_if_no_progress refine Only.atAon (by decide) ?_

theorem noteOffline_only {gs : List Group} {s t : State} (m : [.aon] ⊆ gs) (k : Only gs s t) :
    Only gs s (Machine.noteOffline t) := by
  refine Only.after (hs := [.aon]) ?_ m k
  clear m k
  unfold Machine.noteOffline
  try dsimp only
  repeat' with_reducible first | exact Only.refl | fail_if_no_progress refine Only.atAon (by decide) ?_

end Sys2Proof.Laws
end

