-- ==== Sys2Proof/Laws/Ops.lean ====
section
/-!
SUPPORT. Which groups of state each operation of Machine/Ops.lean changes; it keeps every other group and the forms of the
memory and of the event ring.
-/
namespace Sys2Proof.Laws

open Sys2Proof.Machine

theorem takeFree_only {gs : List Group} {s t : State} (m : [.freeCtr] ⊆ gs) (k : Only gs s t) :
    Only gs s (Machine.takeFree t).2 := by
  refine Only.after (hs := [.freeCtr]) ?_ m k
  clear m k
  unfold Machine.takeFree
  try dsimp only
  repeat' with_reducible first | exact Only.refl | fail_if_no_progress refine Only.atFreeCtr (by decide) ?_

theorem tick_only {gs : List Group} {s t : State} (m : [.aon] ⊆ gs) (k : Only gs s t) :
    Only gs s (Machine.tick t) := by
  refine Only.after (hs := [.aon]) ?_ m k
  clear m k
  unfold Machine.tick
  try dsimp only
  repeat' first
    | with_reducible first | exact Only.refl | fail_if_no_progress refine Only.atAon (by decide) ?_
    | split

theorem send_only (a1) {gs : List Group} {s t : State} (m : [.out] ⊆ gs) (k : Only gs s t) :
    Only gs s (Machine.send a1 t) := by
  refine Only.after (hs := [.out]) ?_ m k
  clear m k
  unfold Machine.send
  try dsimp only
  repeat' with_reducible first | exact Only.refl | fail_if_no_progress refine Only.atOut (by decide) ?_

theorem sendMsix_only (a1) {gs : List Group} {s t : State} (m : [.link, .out] ⊆ gs) (k : Only gs s t) :
    Only gs s (Machine.sendMsix a1 t) := by
  refine Only.after (hs := [.link, .out]) ?_ m k
  clear m k
  unfold Machine.sendMsix
  try dsimp only
  repeat' first
    | with_reducible first
      | exact Only.refl
      | fail_if_no_progress refine Only.atLink (by decide) ?_
      | fail_if_no_progress refine Only.atOut (by decide) ?_
    | split

theorem logRec_only (a1) (a2) (a3) (a4) (a5) (a6) {gs : List Group} {s t : State} (m : [.log, .link, .out] ⊆ gs) (k : Only gs s t) :
    Only gs s (Machine.logRec a1 a2 a3 a4 a5 a6 t) := by
  refine Only.after (hs := [.log, .link, .out]) ?_ m k
  clear m k
  unfold Machine.logRec
  try dsimp only
  repeat' first
    | with_reducible first | exact Only.refl | refine sendMsix_only _ (by decide) ?_
    | fail_if_no_progress ((with_reducible refine Only.atLog (by decide) ?_ ?_) <;> try exact fun w => w)
    | exact fun w => Log.write_wf w
    | split

theorem logPair_only (a1) (a2) (a3) (a4) (a5) {gs : List Group} {s t : State} (m : [.log, .link, .out] ⊆ gs) (k : Only gs s t) :
    Only gs s (Machine.logPair a1 a2 a3 a4 a5 t) := by
  refine Only.after (hs := [.log, .link, .out]) ?_ m k
  clear m k
  unfold Machine.logPair
  try dsimp only
  repeat' first
    | with_reducible first | exact Only.refl | refine sendMsix_only _ (by decide) ?_
    | fail_if_no_progress ((with_reducible refine Only.atLog (by decide) ?_ ?_) <;> try exact fun w => w)
    | exact fun w => Log.writePair_wf w
    | split

theorem logInfo_only (a1) (a2) (a3) (a4) {gs : List Group} {s t : State} (m : [.log, .link, .out] ⊆ gs) (k : Only gs s t) :
    Only gs s (Machine.logInfo a1 a2 a3 a4 t) := by
  refine Only.after (hs := [.log, .link, .out]) ?_ m k
  clear m k
  unfold Machine.logInfo
  try dsimp only
  repeat' with_reducible first | exact Only.refl | refine logRec_only _ _ _ _ _ _ (by decide) ?_

theorem logCe_only (a1) (a2) (a3) (a4) {gs : List Group} {s t : State} (m : [.log, .link, .out] ⊆ gs) (k : Only gs s t) :
    Only gs s (Machine.logCe a1 a2 a3 a4 t) := by
  refine Only.after (hs := [.log, .link, .out]) ?_ m k
  clear m k
  unfold Machine.logCe
  try dsimp only
  repeat' with_reducible first | exact Only.refl | refine logRec_only _ _ _ _ _ _ (by decide) ?_

theorem logSec_only (a1) (a2) (a3) (a4) {gs : List Group} {s t : State} (m : [.log, .link, .out] ⊆ gs) (k : Only gs s t) :
    Only gs s (Machine.logSec a1 a2 a3 a4 t) := by
  refine Only.after (hs := [.log, .link, .out]) ?_ m k
  clear m k
  unfold Machine.logSec
  try dsimp only
  repeat' with_reducible first | exact Only.refl | refine logRec_only _ _ _ _ _ _ (by decide) ?_

theorem logUe_only (a1) (a2) (a3) (a4) (a5) {gs : List Group} {s t : State} (m : [.log, .link, .out] ⊆ gs) (k : Only gs s t) :
    Only gs s (Machine.logUe a1 a2 a3 a4 a5 t) := by
  refine Only.after (hs := [.log, .link, .out]) ?_ m k
  clear m k
  unfold Machine.logUe
  try dsimp only
  repeat' with_reducible first | exact Only.refl | refine logRec_only _ _ _ _ _ _ (by decide) ?_

theorem logLimited_only (a1) (a2) (a3) (a4) (a5) (a6) (a7) {gs : List Group} {s t : State} (m : [.log, .link, .out] ⊆ gs) (k : Only gs s t) :
    Only gs s (Machine.logLimited a1 a2 a3 a4 a5 a6 a7 t) := by
  refine Only.after (hs := [.log, .link, .out]) ?_ m k
  clear m k
  unfold Machine.logLimited
  try dsimp only
  repeat' first
    | with_reducible first | exact Only.refl | refine logRec_only _ _ _ _ _ _ (by decide) ?_
    | fail_if_no_progress ((with_reducible refine Only.atLog (by decide) ?_ ?_) <;> try exact fun w => w)
    | split

theorem logLimitedAt_only (a1) (a2) (a3) (a4) (a5) (a6) (a7) (a8) {gs : List Group} {s t : State} (m : [.log, .link, .out] ⊆ gs) (k : Only gs s t) :
    Only gs s (Machine.logLimitedAt a1 a2 a3 a4 a5 a6 a7 a8 t) := by
  refine Only.after (hs := [.log, .link, .out]) ?_ m k
  clear m k
  unfold Machine.logLimitedAt
  try dsimp only
  repeat' first
    | with_reducible first | exact Only.refl | refine logRec_only _ _ _ _ _ _ (by decide) ?_
    | fail_if_no_progress ((with_reducible refine Only.atLog (by decide) ?_ ?_) <;> try exact fun w => w)
    | split

theorem setBox_only (a1) (a2) {gs : List Group} {s t : State} (m : [.mbx] ⊆ gs) (k : Only gs s t) :
    Only gs s (Machine.setBox a1 a2 t) := by
  refine Only.after (hs := [.mbx]) ?_ m k
  clear m k
  unfold Machine.setBox
  try dsimp only
  repeat' with_reducible first | exact Only.refl | fail_if_no_progress refine Only.atMbx (by decide) ?_

theorem reply_only (a1) (a2) {gs : List Group} {s t : State} (m : [.mbx] ⊆ gs) (k : Only gs s t) :
    Only gs s (Machine.reply a1 a2 t) := by
  refine Only.after (hs := [.mbx]) ?_ m k
  clear m k
  unfold Machine.reply
  try dsimp only
  repeat' with_reducible first | exact Only.refl | refine setBox_only _ _ (by decide) ?_

theorem replyDone_only (a1) (a2) (a3) {gs : List Group} {s t : State} (m : [.mbx] ⊆ gs) (k : Only gs s t) :
    Only gs s (Machine.replyDone a1 a2 a3 t) := by
  refine Only.after (hs := [.mbx]) ?_ m k
  clear m k
  unfold Machine.replyDone
  try dsimp only
  repeat' with_reducible first | exact Only.refl | refine reply_only _ _ (by decide) ?_

theorem replyAccepted_only (a1) {gs : List Group} {s t : State} (m : [.mbx] ⊆ gs) (k : Only gs s t) :
    Only gs s (Machine.replyAccepted a1 t) := by
  refine Only.after (hs := [.mbx]) ?_ m k
  clear m k
  unfold Machine.replyAccepted
  try dsimp only
  repeat' with_reducible first | exact Only.refl | refine reply_only _ _ (by decide) ?_

theorem replyFail_only (a1) (a2) (a3) {gs : List Group} {s t : State} (m : [.mbx] ⊆ gs) (k : Only gs s t) :
    Only gs s (Machine.replyFail a1 a2 a3 t) := by
  refine Only.after (hs := [.mbx]) ?_ m k
  clear m k
  unfold Machine.replyFail
  try dsimp only
  repeat' with_reducible first | exact Only.refl | refine reply_only _ _ (by decide) ?_

theorem setAwait_only (a1) (a2) {gs : List Group} {s t : State} (m : [.mbx] ⊆ gs) (k : Only gs s t) :
    Only gs s (Machine.setAwait a1 a2 t) := by
  refine Only.after (hs := [.mbx]) ?_ m k
  clear m k
  unfold Machine.setAwait
  try dsimp only
  repeat' with_reducible first | exact Only.refl | refine setBox_only _ _ (by decide) ?_

theorem completeAwait_only (a1) (a2) {gs : List Group} {s t : State} (m : [.mbx] ⊆ gs) (k : Only gs s t) :
    Only gs s (Machine.completeAwait a1 a2 t) := by
  refine Only.after (hs := [.mbx]) ?_ m k
  clear m k
  unfold Machine.completeAwait
  try dsimp only
  repeat' with_reducible first | exact Only.refl | fail_if_no_progress refine Only.atMbx (by decide) ?_

theorem command_only {gs : List Group} (a1) (a2) (a3) (a4) (h4 : ∀ x0 x1, Only gs x0 (a4 x0 x1)) {s t : State} (m : [.mbx] ⊆ gs) (k : Only gs s t) :
    Only gs s (Machine.command a1 a2 a3 a4 t) := by
  unfold Machine.command
  try dsimp only
  repeat' first
    | with_reducible first
      | exact k
      | refine Only.trans ?_ (h4 ..)
      | refine setBox_only _ _ (List.Subset.trans (by decide) m) ?_
      | refine reply_only _ _ (List.Subset.trans (by decide) m) ?_
    | split

theorem commandIf_only {gs : List Group} (a1) (a2) (a3) (a4) (a5) (h5 : ∀ x0 x1, Only gs x0 (a5 x0 x1)) {s t : State} (m : [.mbx] ⊆ gs) (k : Only gs s t) :
    Only gs s (Machine.commandIf a1 a2 a3 a4 a5 t) := by
  unfold Machine.commandIf
  try dsimp only
  repeat' first
    | with_reducible first
      | exact k
      | exact Only.refl
      | refine Only.trans ?_ (h5 ..)
      | refine command_only _ _ _ _ (fun _ _ => ?_) (List.Subset.trans (by decide) m) ?_
    | split

theorem setUnitRec_only (a1) (a2) (a3) {gs : List Group} {s t : State} (m : [.units] ⊆ gs) (k : Only gs s t) :
    Only gs s (Machine.setUnitRec a1 a2 a3 t) := by
  refine Only.after (hs := [.units]) ?_ m k
  clear m k
  unfold Machine.setUnitRec
  try dsimp only
  repeat' with_reducible first | exact Only.refl | fail_if_no_progress refine Only.atUnits (by decide) ?_

theorem setUnitSt_only (a1) (a2) (a3) {gs : List Group} {s t : State} (m : [.units] ⊆ gs) (k : Only gs s t) :
    Only gs s (Machine.setUnitSt a1 a2 a3 t) := by
  refine Only.after (hs := [.units]) ?_ m k
  clear m k
  unfold Machine.setUnitSt
  try dsimp only
  repeat' with_reducible first | exact Only.refl | refine setUnitRec_only _ _ _ (by decide) ?_

end Sys2Proof.Laws
end

