-- ==== Sys2Proof/Laws/VanePorts.lean ====
section
/-!
SUPPORT. Which groups of state each operation of Machine/VanePorts.lean changes; it keeps every other group and the forms of the
memory and of the event ring.
-/
namespace Sys2Proof.Laws

open Sys2Proof.Machine

theorem setRegion_only (a1) (a2) {gs : List Group} {s t : State} (m : [.vane] ⊆ gs) (k : Only gs s t) :
    Only gs s (Machine.setRegion a1 a2 t) := by
  refine Only.after (hs := [.vane]) ?_ m k
  clear m k
  unfold Machine.setRegion
  try dsimp only
  repeat' with_reducible first | exact Only.refl | fail_if_no_progress refine Only.atVane (by decide) ?_

theorem spAnswer_only (a1) (a2) {gs : List Group} {s t : State} (m : [.vane] ⊆ gs) (k : Only gs s t) :
    Only gs s (Machine.spAnswer a1 a2 t) := by
  refine Only.after (hs := [.vane]) ?_ m k
  clear m k
  unfold Machine.spAnswer
  try dsimp only
  repeat' with_reducible first | exact Only.refl | fail_if_no_progress refine Only.atVane (by decide) ?_

theorem isolate_only (a1) (a2) {gs : List Group} {s t : State} (m : [.vane, .freeCtr] ⊆ gs) (k : Only gs s t) :
    Only gs s (Machine.isolate a1 a2 t) := by
  refine Only.after (hs := [.vane, .freeCtr]) ?_ m k
  clear m k
  unfold Machine.isolate
  try dsimp only
  repeat' first
    | with_reducible first
      | exact Only.refl
      | refine setRegion_only _ _ (by decide) ?_
      | refine spAnswer_only _ _ (by decide) ?_
      | fail_if_no_progress refine Only.atFreeCtr (by decide) ?_
    | with_reducible fail_if_no_progress refine Only.atVaneFreeCtr (by decide) (by decide) ?_
    | split

end Sys2Proof.Laws
end

