-- ==== Sys2Proof/Laws/NetOps.lean ====
section
/-!
SUPPORT. Which groups of state each operation of Machine/NetOps.lean changes; it keeps every other group and the forms of the
memory and of the event ring.
-/
namespace Sys2Proof.Laws

open Sys2Proof.Machine

theorem netAdd_only (a1) (a2) (a3) {gs : List Group} {s t : State} (m : [.net] ⊆ gs) (k : Only gs s t) :
    Only gs s (Machine.netAdd a1 a2 a3 t) := by
  refine Only.after (hs := [.net]) ?_ m k
  clear m k
  unfold Machine.netAdd
  try dsimp only
  repeat' with_reducible first | exact Only.refl | fail_if_no_progress refine Only.atNet (by decide) ?_

theorem netCount_only (a1) (a2) {gs : List Group} {s t : State} (m : [.net] ⊆ gs) (k : Only gs s t) :
    Only gs s (Machine.netCount a1 a2 t) := by
  refine Only.after (hs := [.net]) ?_ m k
  clear m k
  unfold Machine.netCount
  try dsimp only
  repeat' with_reducible first | exact Only.refl | refine netAdd_only _ _ _ (by decide) ?_

theorem setBank_only (a1) (a2) {gs : List Group} {s t : State} (m : [.net] ⊆ gs) (k : Only gs s t) :
    Only gs s (Machine.setBank a1 a2 t) := by
  refine Only.after (hs := [.net]) ?_ m k
  clear m k
  unfold Machine.setBank
  try dsimp only
  repeat' first
    | with_reducible first | exact Only.refl | fail_if_no_progress refine Only.atNet (by decide) ?_
    | split

theorem openTally_only (a1) (a2) {gs : List Group} {s t : State} (m : [.coll] ⊆ gs) (k : Only gs s t) :
    Only gs s (Machine.openTally a1 a2 t) := by
  refine Only.after (hs := [.coll]) ?_ m k
  clear m k
  unfold Machine.openTally
  try dsimp only
  repeat' first
    | with_reducible first | exact Only.refl | fail_if_no_progress refine Only.atColl (by decide) ?_
    | split

theorem launch_only (a1) (a2) {gs : List Group} {s t : State} (m : [.net] ⊆ gs) (k : Only gs s t) :
    Only gs s (Machine.launch a1 a2 t) := by
  refine Only.after (hs := [.net]) ?_ m k
  clear m k
  unfold Machine.launch
  try dsimp only
  repeat' with_reducible first
    | exact Only.refl
    | refine netAdd_only _ _ _ (by decide) ?_
    | fail_if_no_progress refine Only.atNet (by decide) ?_

theorem launchMcast_only (a1) (a2) {gs : List Group} {s t : State} (m : [.net, .coll] ⊆ gs) (k : Only gs s t) :
    Only gs s (Machine.launchMcast a1 a2 t) := by
  refine Only.after (hs := [.net, .coll]) ?_ m k
  clear m k
  unfold Machine.launchMcast
  try dsimp only
  repeat' first
    | with_reducible first
      | exact Only.refl
      | refine openTally_only _ _ (by decide) ?_
      | refine launch_only _ _ (by decide) ?_
    | split

theorem trySwitch_only {gs : List Group} {s t : State} (m : [.mbx, .net] ⊆ gs) (k : Only gs s t) :
    Only gs s (Machine.trySwitch t) := by
  refine Only.after (hs := [.mbx, .net]) ?_ m k
  clear m k
  unfold Machine.trySwitch
  try dsimp only
  repeat' first
    | with_reducible first
      | exact Only.refl
      | refine completeAwait_only _ _ (by decide) ?_
      | fail_if_no_progress refine Only.atNet (by decide) ?_
    | split

theorem dropStreams_only (a1) (a2) {gs : List Group} {s t : State} (m : [.net, .coll] ⊆ gs) (k : Only gs s t) :
    Only gs s (Machine.dropStreams a1 a2 t) := by
  refine Only.after (hs := [.net, .coll]) ?_ m k
  clear m k
  unfold Machine.dropStreams
  try dsimp only
  repeat' first
    | with_reducible exact Only.refl
    | with_reducible fail_if_no_progress refine Only.atNetColl (by decide) (by decide) ?_

theorem markBroken_only (a1) {gs : List Group} {s t : State} (m : [.net] ⊆ gs) (k : Only gs s t) :
    Only gs s (Machine.markBroken a1 t) := by
  refine Only.after (hs := [.net]) ?_ m k
  clear m k
  unfold Machine.markBroken
  try dsimp only
  repeat' with_reducible first | exact Only.refl | fail_if_no_progress refine Only.atNet (by decide) ?_

theorem breakList_only (a1) (a2) (a3) {gs : List Group} {s t : State} (m : [.log, .net, .coll, .link, .out] ⊆ gs) (k : Only gs s t) :
    Only gs s (Machine.breakList a1 a2 a3 t) := by
  refine Only.after (hs := [.log, .net, .coll, .link, .out]) ?_ m k
  clear m k
  induction a3 generalizing a1 a2 t with
  | nil =>
    unfold Machine.breakList
    try dsimp only
    repeat' with_reducible exact Only.refl
  | cons x l ih =>
    unfold Machine.breakList
    try dsimp only
    repeat' with_reducible first
        | exact Only.refl
        | refine Only.trans ?_ (ih ..)
        | refine logUe_only _ _ _ _ _ (by decide) ?_
        | refine dropStreams_only _ _ (by decide) ?_
        | refine markBroken_only _ (by decide) ?_

theorem breakWindowsOf_only (a1) (a2) (a3) {gs : List Group} {s t : State} (m : [.log, .net, .coll, .link, .out] ⊆ gs) (k : Only gs s t) :
    Only gs s (Machine.breakWindowsOf a1 a2 a3 t) := by
  refine Only.after (hs := [.log, .net, .coll, .link, .out]) ?_ m k
  clear m k
  unfold Machine.breakWindowsOf
  try dsimp only
  repeat' first
    | with_reducible first | exact Only.refl | refine breakList_only _ _ _ (by decide) ?_
    | split

theorem breakAllWindows_only (a1) {gs : List Group} {s t : State} (m : [.log, .net, .coll, .link, .out] ⊆ gs) (k : Only gs s t) :
    Only gs s (Machine.breakAllWindows a1 t) := by
  refine Only.after (hs := [.log, .net, .coll, .link, .out]) ?_ m k
  clear m k
  unfold Machine.breakAllWindows
  try dsimp only
  repeat' first
    | with_reducible first | exact Only.refl | refine breakList_only _ _ _ (by decide) ?_
    | split

theorem disableDone_only {gs : List Group} {s t : State} (m : [.mbx, .vane, .net] ⊆ gs) (k : Only gs s t) :
    Only gs s (Machine.disableDone t) := by
  refine Only.after (hs := [.mbx, .vane, .net]) ?_ m k
  clear m k
  unfold Machine.disableDone
  try dsimp only
  repeat' first
    | with_reducible first
      | exact Only.refl
      | refine completeAwait_only _ _ (by decide) ?_
      | refine trySwitch_only (by decide) ?_
      | fail_if_no_progress refine Only.atVane (by decide) ?_
    | split

theorem portQuiet_only (a1) {gs : List Group} {s t : State} (m : [.mbx, .vane, .net] ⊆ gs) (k : Only gs s t) :
    Only gs s (Machine.portQuiet a1 t) := by
  refine Only.after (hs := [.mbx, .vane, .net]) ?_ m k
  clear m k
  unfold Machine.portQuiet
  try dsimp only
  repeat' first
    | with_reducible first
      | exact Only.refl
      | refine disableDone_only (by decide) ?_
      | fail_if_no_progress refine Only.atVane (by decide) ?_
    | split

theorem vaneResponse_only {gs : List Group} (a1) (a2) (a3) (a4) (h4 : ∀ x0, Only gs x0 (a4 x0)) {s t : State} (m : [.mbx, .log, .vane, .net, .link, .out, .freeCtr] ⊆ gs) (k : Only gs s t) :
    Only gs s (Machine.vaneResponse a1 a2 a3 a4 t) := by
  unfold Machine.vaneResponse
  try dsimp only
  repeat' first
    | with_reducible first
      | exact k
      | refine Only.trans ?_ (h4 ..)
      | refine isolate_only _ _ (List.Subset.trans (by decide) m) ?_
      | refine portQuiet_only _ (List.Subset.trans (by decide) m) ?_
      | refine logInfo_only _ _ _ _ (List.Subset.trans (by decide) m) ?_
      | fail_if_no_progress refine Only.atVane (Only.here m (by decide)) ?_
    | split

theorem errorResponse_only (a1) (a2) {gs : List Group} {s t : State} (m : [.out] ⊆ gs) (k : Only gs s t) :
    Only gs s (Machine.errorResponse a1 a2 t) := by
  refine Only.after (hs := [.out]) ?_ m k
  clear m k
  unfold Machine.errorResponse
  try dsimp only
  repeat' with_reducible first | exact Only.refl | refine send_only _ (by decide) ?_

theorem errorTo_only (a1) {gs : List Group} {s t : State} (m : [.mbx, .log, .vane, .net, .link, .out, .freeCtr] ⊆ gs) (k : Only gs s t) :
    Only gs s (Machine.errorTo a1 t) := by
  refine Only.after (hs := [.mbx, .log, .vane, .net, .link, .out, .freeCtr]) ?_ m k
  clear m k
  unfold Machine.errorTo
  try dsimp only
  repeat' first
    | with_reducible first
      | exact Only.refl
      | refine send_only _ (by decide) ?_
      | refine vaneResponse_only _ _ _ _ (fun _ => ?_) (by decide) ?_
      | refine errorResponse_only _ _ (by decide) ?_
    | split

theorem deliverTo_only (a1) (a2) {gs : List Group} {s t : State} (m : [.out] ⊆ gs) (k : Only gs s t) :
    Only gs s (Machine.deliverTo a1 a2 t) := by
  refine Only.after (hs := [.out]) ?_ m k
  clear m k
  unfold Machine.deliverTo
  try dsimp only
  repeat' with_reducible first | exact Only.refl | refine send_only _ (by decide) ?_

theorem discardPacket_only (a1) {gs : List Group} {s t : State} (m : [.mbx, .log, .vane, .net, .link, .out, .freeCtr] ⊆ gs) (k : Only gs s t) :
    Only gs s (Machine.discardPacket a1 t) := by
  refine Only.after (hs := [.mbx, .log, .vane, .net, .link, .out, .freeCtr]) ?_ m k
  clear m k
  unfold Machine.discardPacket
  try dsimp only
  repeat' first
    | with_reducible first | exact Only.refl | refine errorTo_only _ (by decide) ?_
    | split

theorem discardAll_only (a1) {gs : List Group} {s t : State} (m : [.mbx, .log, .vane, .net, .link, .out, .freeCtr] ⊆ gs) (k : Only gs s t) :
    Only gs s (Machine.discardAll a1 t) := by
  refine Only.after (hs := [.mbx, .log, .vane, .net, .link, .out, .freeCtr]) ?_ m k
  clear m k
  induction a1 generalizing t with
  | nil =>
    unfold Machine.discardAll
    try dsimp only
    repeat' with_reducible exact Only.refl
  | cons x l ih =>
    unfold Machine.discardAll
    try dsimp only
    repeat' with_reducible first
        | exact Only.refl
        | refine Only.trans ?_ (ih ..)
        | refine discardPacket_only _ (by decide) ?_

theorem injectBreeze_only (a1) {gs : List Group} {s t : State} (m : [.log, .net, .link, .out] ⊆ gs) (k : Only gs s t) :
    Only gs s (Machine.injectBreeze a1 t).2 := by
  refine Only.after (hs := [.log, .net, .link, .out]) ?_ m k
  clear m k
  unfold Machine.injectBreeze
  try dsimp only
  repeat' first
    | with_reducible first
      | exact Only.refl
      | refine netCount_only _ _ (by decide) ?_
      | refine logLimitedAt_only _ _ _ _ _ _ _ _ (by decide) ?_
      | fail_if_no_progress refine Only.atNet (by decide) ?_
    | split

theorem acceptBreeze_only (a1) {gs : List Group} {s t : State} (m : [.net] ⊆ gs) (k : Only gs s t) :
    Only gs s (Machine.acceptBreeze a1 t) := by
  refine Only.after (hs := [.net]) ?_ m k
  clear m k
  unfold Machine.acceptBreeze
  try dsimp only
  repeat' first
    | with_reducible first | exact Only.refl | fail_if_no_progress refine Only.atNet (by decide) ?_
    | split

theorem acceptAll_only (a1) {gs : List Group} {s t : State} (m : [.net] ⊆ gs) (k : Only gs s t) :
    Only gs s (Machine.acceptAll a1 t) := by
  refine Only.after (hs := [.net]) ?_ m k
  clear m k
  induction a1 generalizing t with
  | nil =>
    unfold Machine.acceptAll
    try dsimp only
    repeat' with_reducible exact Only.refl
  | cons x l ih =>
    unfold Machine.acceptAll
    try dsimp only
    repeat' with_reducible first
        | exact Only.refl
        | refine Only.trans ?_ (ih ..)
        | refine acceptBreeze_only _ (by decide) ?_

theorem handOn_only (a1) (a2) {gs : List Group} {s t : State} (m : [.out] ⊆ gs) (k : Only gs s t) :
    Only gs s (Machine.handOn a1 a2 t) := by
  refine Only.after (hs := [.out]) ?_ m k
  clear m k
  induction a2 generalizing a1 t with
  | nil =>
    unfold Machine.handOn
    try dsimp only
    repeat' with_reducible exact Only.refl
  | cons x l ih =>
    unfold Machine.handOn
    try dsimp only
    repeat' with_reducible first
        | exact Only.refl
        | refine Only.trans ?_ (ih ..)
        | refine send_only _ (by decide) ?_

theorem handOnAll_only (a1) {gs : List Group} {s t : State} (m : [.out] ⊆ gs) (k : Only gs s t) :
    Only gs s (Machine.handOnAll a1 t) := by
  refine Only.after (hs := [.out]) ?_ m k
  clear m k
  induction a1 generalizing t with
  | nil =>
    unfold Machine.handOnAll
    try dsimp only
    repeat' with_reducible exact Only.refl
  | cons x l ih =>
    unfold Machine.handOnAll
    try dsimp only
    repeat' with_reducible first
        | exact Only.refl
        | refine Only.trans ?_ (ih ..)
        | refine handOn_only _ _ (by decide) ?_

theorem breezeCycle_only {gs : List Group} {s t : State} (m : [.net, .out] ⊆ gs) (k : Only gs s t) :
    Only gs s (Machine.breezeCycle t) := by
  refine Only.after (hs := [.net, .out]) ?_ m k
  clear m k
  unfold Machine.breezeCycle
  try dsimp only
  repeat' first
    | with_reducible first
      | exact Only.refl
      | refine handOnAll_only _ (by decide) ?_
      | refine acceptAll_only _ (by decide) ?_
      | fail_if_no_progress refine Only.atNet (by decide) ?_
    | split

theorem startEpoch_only {gs : List Group} {s t : State} (m : [.net] ⊆ gs) (k : Only gs s t) :
    Only gs s (Machine.startEpoch t) := by
  refine Only.after (hs := [.net]) ?_ m k
  clear m k
  unfold Machine.startEpoch
  try dsimp only
  repeat' first
    | with_reducible first
      | exact Only.refl
      | refine setBank_only _ _ (by decide) ?_
      | fail_if_no_progress refine Only.atNet (by decide) ?_
    | split

theorem rehome_only {gs : List Group} {s t : State} (m : [.lull] ⊆ gs) (k : Only gs s t) :
    Only gs s (Machine.rehome t) := by
  refine Only.after (hs := [.lull]) ?_ m k
  clear m k
  unfold Machine.rehome
  try dsimp only
  repeat' with_reducible first | exact Only.refl | fail_if_no_progress refine Only.atLull (by decide) ?_

theorem joinNext_only (a1) (a2) {gs : List Group} {s t : State} (m : [.net] ⊆ gs) (k : Only gs s t) :
    Only gs s (Machine.joinNext a1 a2 t) := by
  refine Only.after (hs := [.net]) ?_ m k
  clear m k
  unfold Machine.joinNext
  try dsimp only
  repeat' with_reducible first
    | exact Only.refl
    | refine startEpoch_only (by decide) ?_
    | fail_if_no_progress refine Only.atNet (by decide) ?_

theorem leaveNext_only (a1) (a2) {gs : List Group} {s t : State} (m : [.net] ⊆ gs) (k : Only gs s t) :
    Only gs s (Machine.leaveNext a1 a2 t) := by
  refine Only.after (hs := [.net]) ?_ m k
  clear m k
  unfold Machine.leaveNext
  try dsimp only
  repeat' with_reducible first
    | exact Only.refl
    | refine startEpoch_only (by decide) ?_
    | fail_if_no_progress refine Only.atNet (by decide) ?_

theorem startNext_only {gs : List Group} {s t : State} (m : [.net] ⊆ gs) (k : Only gs s t) :
    Only gs s (Machine.startNext t) := by
  refine Only.after (hs := [.net]) ?_ m k
  clear m k
  unfold Machine.startNext
  try dsimp only
  repeat' first
    | with_reducible first | exact Only.refl | refine startEpoch_only (by decide) ?_
    | split

theorem rebuildRoutes_only {gs : List Group} {s t : State} (m : [.net] ⊆ gs) (k : Only gs s t) :
    Only gs s (Machine.rebuildRoutes t) := by
  refine Only.after (hs := [.net]) ?_ m k
  clear m k
  unfold Machine.rebuildRoutes
  try dsimp only
  repeat' first
    | with_reducible first
      | exact Only.refl
      | refine startEpoch_only (by decide) ?_
      | fail_if_no_progress refine Only.atNet (by decide) ?_
    | split

end Sys2Proof.Laws
end

