-- ==== Sys2Proof/Laws/MemOps.lean ====
section
/-!
SUPPORT. Which groups of state each operation of Machine/MemOps.lean changes; it keeps every other group and the forms of the
memory and of the event ring.
-/
namespace Sys2Proof.Laws

open Sys2Proof.Machine

theorem setHregion_only (a1) (a2) {gs : List Group} {s t : State} (m : [.mem] ⊆ gs) (k : Only gs s t) :
    Only gs s (Machine.setHregion a1 a2 t) := by
  refine Only.after (hs := [.mem]) ?_ m k
  clear m k
  unfold Machine.setHregion
  try dsimp only
  repeat' with_reducible first | exact Only.refl | fail_if_no_progress refine Only.atMem (by decide) rfl ?_

theorem buildRegions_only {gs : List Group} {s t : State} (m : [.mem] ⊆ gs) (k : Only gs s t) :
    Only gs s (Machine.buildRegions t) := by
  refine Only.after (hs := [.mem]) ?_ m k
  clear m k
  unfold Machine.buildRegions
  try dsimp only
  repeat' with_reducible first | exact Only.refl | fail_if_no_progress refine Only.atMem (by decide) rfl ?_

theorem setFrame_only (a1) (a2) {gs : List Group} {s t : State} (m : [.mem] ⊆ gs) (k : Only gs s t) :
    Only gs s (Machine.setFrame a1 a2 t) := by
  refine Only.after (hs := [.mem]) ?_ m k
  clear m k
  unfold Machine.setFrame
  try dsimp only
  repeat' with_reducible first | exact Only.refl | fail_if_no_progress refine Only.atMem (by decide) rfl ?_

theorem modFrame_only (a1) (a2) {gs : List Group} {s t : State} (m : [.mem] ⊆ gs) (k : Only gs s t) :
    Only gs s (Machine.modFrame a1 a2 t) := by
  refine Only.after (hs := [.mem]) ?_ m k
  clear m k
  unfold Machine.modFrame
  try dsimp only
  repeat' with_reducible first | exact Only.refl | refine setFrame_only _ _ (by decide) ?_

theorem retireNow_only (a1) (a2) {gs : List Group} {s t : State} (m : [.store, .log, .mem, .link, .out] ⊆ gs) (k : Only gs s t) :
    Only gs s (Machine.retireNow a1 a2 t) := by
  refine Only.after (hs := [.store, .log, .mem, .link, .out]) ?_ m k
  clear m k
  unfold Machine.retireNow
  try dsimp only
  repeat' first
    | with_reducible first
      | exact Only.refl
      | refine setFrame_only _ _ (by decide) ?_
      | refine logInfo_only _ _ _ _ (by decide) ?_
      | refine logUe_only _ _ _ _ _ (by decide) ?_
      | fail_if_no_progress refine Only.atStore (by decide) ?_
      | fail_if_no_progress refine Only.atMem (by decide) rfl ?_
    | split

theorem reindex_only (a1) (a2) {gs : List Group} {s t : State} (m : [.mem] ⊆ gs) (k : Only gs s t) :
    Only gs s (Machine.reindex a1 a2 t) := by
  refine Only.after (hs := [.mem]) ?_ m k
  clear m k
  induction a2 generalizing a1 t with
  | nil =>
    unfold Machine.reindex
    try dsimp only
    repeat' with_reducible exact Only.refl
  | cons x l ih =>
    unfold Machine.reindex
    try dsimp only
    repeat' with_reducible first
        | exact Only.refl
        | refine Only.trans ?_ (ih ..)
        | refine modFrame_only _ _ (by decide) ?_

theorem removeEntries_only (a1) {gs : List Group} {s t : State} (m : [.mem, .serve] ⊆ gs) (k : Only gs s t) :
    Only gs s (Machine.removeEntries a1 t) := by
  refine Only.after (hs := [.mem, .serve]) ?_ m k
  clear m k
  unfold Machine.removeEntries
  try dsimp only
  repeat' first
    | with_reducible first
      | exact Only.refl
      | refine reindex_only _ _ (by decide) ?_
      | fail_if_no_progress refine Only.atServe (by decide) ?_
    | split

theorem dropIndex_only (a1) {gs : List Group} {s t : State} (m : [.mem, .serve] ⊆ gs) (k : Only gs s t) :
    Only gs s (Machine.dropIndex a1 t) := by
  refine Only.after (hs := [.mem, .serve]) ?_ m k
  clear m k
  unfold Machine.dropIndex
  try dsimp only
  repeat' with_reducible first | exact Only.refl | refine removeEntries_only _ (by decide) ?_

theorem retirePending_only (a1) {gs : List Group} {s t : State} (m : [.store, .log, .mem, .serve, .link, .out] ⊆ gs) (k : Only gs s t) :
    Only gs s (Machine.retirePending a1 t) := by
  refine Only.after (hs := [.store, .log, .mem, .serve, .link, .out]) ?_ m k
  clear m k
  unfold Machine.retirePending
  try dsimp only
  repeat' first
    | with_reducible first
      | exact Only.refl
      | refine retireNow_only _ _ (by decide) ?_
      | refine modFrame_only _ _ (by decide) ?_
      | refine dropIndex_only _ (by decide) ?_
    | split

theorem retireEach_only (a1) {gs : List Group} {s t : State} (m : [.store, .log, .mem, .serve, .link, .out] ⊆ gs) (k : Only gs s t) :
    Only gs s (Machine.retireEach a1 t) := by
  refine Only.after (hs := [.store, .log, .mem, .serve, .link, .out]) ?_ m k
  clear m k
  induction a1 generalizing t with
  | nil =>
    unfold Machine.retireEach
    try dsimp only
    repeat' with_reducible exact Only.refl
  | cons x l ih =>
    unfold Machine.retireEach
    try dsimp only
    repeat' with_reducible first
        | exact Only.refl
        | refine Only.trans ?_ (ih ..)
        | refine retirePending_only _ (by decide) ?_

theorem freeFrame_only (a1) {gs : List Group} {s t : State} (m : [.store, .log, .mem, .link, .out] ⊆ gs) (k : Only gs s t) :
    Only gs s (Machine.freeFrame a1 t) := by
  refine Only.after (hs := [.store, .log, .mem, .link, .out]) ?_ m k
  clear m k
  unfold Machine.freeFrame
  try dsimp only
  repeat' first
    | with_reducible first
      | exact Only.refl
      | refine retireNow_only _ _ (by decide) ?_
      | refine setFrame_only _ _ (by decide) ?_
    | split

theorem freeFrames_only (a1) {gs : List Group} {s t : State} (m : [.store, .log, .mem, .link, .out] ⊆ gs) (k : Only gs s t) :
    Only gs s (Machine.freeFrames a1 t) := by
  refine Only.after (hs := [.store, .log, .mem, .link, .out]) ?_ m k
  clear m k
  induction a1 generalizing t with
  | nil =>
    unfold Machine.freeFrames
    try dsimp only
    repeat' with_reducible exact Only.refl
  | cons x l ih =>
    unfold Machine.freeFrames
    try dsimp only
    repeat' with_reducible first
        | exact Only.refl
        | refine Only.trans ?_ (ih ..)
        | refine freeFrame_only _ (by decide) ?_

theorem noteCe_only (a1) (a2) (a3) (a4) {gs : List Group} {s t : State} (m : [.log, .mem, .link, .out] ⊆ gs) (k : Only gs s t) :
    Only gs s (Machine.noteCe a1 a2 a3 a4 t) := by
  refine Only.after (hs := [.log, .mem, .link, .out]) ?_ m k
  clear m k
  unfold Machine.noteCe
  try dsimp only
  repeat' with_reducible first
    | exact Only.refl
    | refine logLimited_only _ _ _ _ _ _ _ (by decide) ?_
    | fail_if_no_progress refine Only.atMem (by decide) rfl ?_

theorem noteUe_only (a1) (a2) (a3) {gs : List Group} {s t : State} (m : [.log, .mem, .link, .out] ⊆ gs) (k : Only gs s t) :
    Only gs s (Machine.noteUe a1 a2 a3 t) := by
  refine Only.after (hs := [.log, .mem, .link, .out]) ?_ m k
  clear m k
  unfold Machine.noteUe
  try dsimp only
  repeat' with_reducible first
    | exact Only.refl
    | refine logUe_only _ _ _ _ _ (by decide) ?_
    | fail_if_no_progress refine Only.atMem (by decide) rfl ?_

theorem listRow_only (a1) (a2) {gs : List Group} {s t : State} (m : [.store] ⊆ gs) (k : Only gs s t) :
    Only gs s (Machine.listRow a1 a2 t) := by
  refine Only.after (hs := [.store]) ?_ m k
  clear m k
  unfold Machine.listRow
  try dsimp only
  repeat' first
    | with_reducible first | exact Only.refl | fail_if_no_progress refine Only.atStore (by decide) ?_
    | split

theorem suspectRow_only (a1) (a2) {gs : List Group} {s t : State} (m : [.store, .log, .mem, .serve, .link, .out] ⊆ gs) (k : Only gs s t) :
    Only gs s (Machine.suspectRow a1 a2 t) := by
  refine Only.after (hs := [.store, .log, .mem, .serve, .link, .out]) ?_ m k
  clear m k
  unfold Machine.suspectRow
  try dsimp only
  repeat' with_reducible first
    | exact Only.refl
    | refine logInfo_only _ _ _ _ (by decide) ?_
    | refine listRow_only _ _ (by decide) ?_
    | refine retireEach_only _ (by decide) ?_

theorem noteHard_only (a1) (a2) (a3) {gs : List Group} {s t : State} (m : [.mem] ⊆ gs) (k : Only gs s t) :
    Only gs s (Machine.noteHard a1 a2 a3 t) := by
  refine Only.after (hs := [.mem]) ?_ m k
  clear m k
  unfold Machine.noteHard
  try dsimp only
  repeat' with_reducible first | exact Only.refl | fail_if_no_progress refine Only.atMem (by decide) rfl ?_

theorem hardLine_only (a1) (a2) (a3) {gs : List Group} {s t : State} (m : [.store, .log, .mem, .serve, .link, .out] ⊆ gs) (k : Only gs s t) :
    Only gs s (Machine.hardLine a1 a2 a3 t) := by
  refine Only.after (hs := [.store, .log, .mem, .serve, .link, .out]) ?_ m k
  clear m k
  unfold Machine.hardLine
  try dsimp only
  repeat' first
    | with_reducible first
      | exact Only.refl
      | refine noteHard_only _ _ _ (by decide) ?_
      | refine suspectRow_only _ _ (by decide) ?_
    | split

theorem ueLine_only (a1) (a2) (a3) {gs : List Group} {s t : State} (m : [.store, .log, .mem, .serve, .link, .out] ⊆ gs) (k : Only gs s t) :
    Only gs s (Machine.ueLine a1 a2 a3 t) := by
  refine Only.after (hs := [.store, .log, .mem, .serve, .link, .out]) ?_ m k
  clear m k
  unfold Machine.ueLine
  try dsimp only
  repeat' with_reducible first
    | exact Only.refl
    | refine suspectRow_only _ _ (by decide) ?_
    | refine noteHard_only _ _ _ (by decide) ?_

theorem setUnit_only (a1) (a2) (a3) {gs : List Group} {s t : State} (m : [.mem] ⊆ gs) (k : Only gs s t) :
    Only gs s (Machine.setUnit a1 a2 a3 t) := by
  refine Only.after (hs := [.mem]) ?_ m k
  clear m k
  unfold Machine.setUnit
  try dsimp only
  repeat' with_reducible first | exact Only.refl | fail_if_no_progress refine Only.atMem (by decide) rfl ?_

theorem freeUnit_only (a1) (a2) {gs : List Group} {s t : State} (m : [.mem, .bytes] ⊆ gs) (k : Only gs s t) :
    Only gs s (Machine.freeUnit a1 a2 t) := by
  refine Only.after (hs := [.mem, .bytes]) ?_ m k
  clear m k
  unfold Machine.freeUnit
  try dsimp only
  repeat' first
    | with_reducible first | exact Only.refl | refine setUnit_only _ _ _ (by decide) ?_
    | fail_if_no_progress ((with_reducible refine Only.atBytes (by decide) (by decide) ?_ ?_) <;> try exact fun w => w)
    | exact fun w => Tab.wf_filter w
    | split

theorem takeUnits_only (a1) (a2) (a3) {gs : List Group} {s t : State} (m : [.mem] ⊆ gs) (k : Only gs s t) :
    Only gs s (Machine.takeUnits a1 a2 a3 t) := by
  refine Only.after (hs := [.mem]) ?_ m k
  clear m k
  induction a3 generalizing a1 a2 t with
  | nil =>
    unfold Machine.takeUnits
    try dsimp only
    repeat' with_reducible exact Only.refl
  | cons x l ih =>
    unfold Machine.takeUnits
    try dsimp only
    repeat' with_reducible first
        | exact Only.refl
        | refine Only.trans ?_ (ih ..)
        | refine setUnit_only _ _ _ (by decide) ?_

theorem hardWord_only (a1) (a2) {gs : List Group} {s t : State} (m : [.store, .log, .mem, .link, .out] ⊆ gs) (k : Only gs s t) :
    Only gs s (Machine.hardWord a1 a2 t) := by
  refine Only.after (hs := [.store, .log, .mem, .link, .out]) ?_ m k
  clear m k
  unfold Machine.hardWord
  try dsimp only
  repeat' first
    | with_reducible first
      | exact Only.refl
      | refine logUe_only _ _ _ _ _ (by decide) ?_
      | fail_if_no_progress refine Only.atMem (by decide) rfl ?_
    | with_reducible fail_if_no_progress refine Only.atStoreMem (by decide) (by decide) rfl ?_
    | split

theorem setFlaw_only (a1) (a2) {gs : List Group} {s t : State} (m : [.mem] ⊆ gs) (k : Only gs s t) :
    Only gs s (Machine.setFlaw a1 a2 t) := by
  refine Only.after (hs := [.mem]) ?_ m k
  clear m k
  unfold Machine.setFlaw
  try dsimp only
  repeat' with_reducible first | exact Only.refl | fail_if_no_progress refine Only.atMem (by decide) rfl ?_

theorem strike_only (a1) (a2) {gs : List Group} {s t : State} (m : [.mem] ⊆ gs) (k : Only gs s t) :
    Only gs s (Machine.strike a1 a2 t) := by
  refine Only.after (hs := [.mem]) ?_ m k
  clear m k
  unfold Machine.strike
  try dsimp only
  repeat' first
    | with_reducible first | exact Only.refl | refine setFlaw_only _ _ (by decide) ?_
    | split

theorem strikeAll_only (a1) {gs : List Group} {s t : State} (m : [.mem] ⊆ gs) (k : Only gs s t) :
    Only gs s (Machine.strikeAll a1 t) := by
  refine Only.after (hs := [.mem]) ?_ m k
  clear m k
  induction a1 generalizing t with
  | nil => exact Only.refl
  | cons e l ih => exact (strike_only _ _ (by decide) Only.refl).trans ih

theorem poke_only (a1) (a2) {gs : List Group} {s t : State} (m : [.mem, .bytes] ⊆ gs) (k : Only gs s t) :
    Only gs s (Machine.poke a1 a2 t) := by
  refine Only.after (hs := [.mem, .bytes]) ?_ m k
  clear m k
  unfold Machine.poke
  try dsimp only
  repeat' first
    | with_reducible exact Only.refl
    | fail_if_no_progress ((with_reducible refine Only.atBytes (by decide) (by decide) ?_ ?_) <;> try exact fun w => w)
    | exact fun w => pokeTab_wf _ w

theorem countStatic_only (a1) (a2) {gs : List Group} {s t : State} (m : [.log, .mem, .link, .out] ⊆ gs) (k : Only gs s t) :
    Only gs s (Machine.countStatic a1 a2 t) := by
  refine Only.after (hs := [.log, .mem, .link, .out]) ?_ m k
  clear m k
  unfold Machine.countStatic
  try dsimp only
  repeat' first
    | with_reducible first
      | exact Only.refl
      | refine logLimited_only _ _ _ _ _ _ _ (by decide) ?_
      | fail_if_no_progress refine Only.atMem (by decide) rfl ?_
    | split

theorem queueRescrub_only (a1) (a2) {gs : List Group} {s t : State} (m : [.mem] ⊆ gs) (k : Only gs s t) :
    Only gs s (Machine.queueRescrub a1 a2 t) := by
  refine Only.after (hs := [.mem]) ?_ m k
  clear m k
  unfold Machine.queueRescrub
  try dsimp only
  repeat' first
    | with_reducible first | exact Only.refl | fail_if_no_progress refine Only.atMem (by decide) rfl ?_
    | split

theorem hbmUe_only (a1) (a2) (a3) (a4) {gs : List Group} {s t : State} (m : [.store, .log, .mem, .serve, .link, .out] ⊆ gs) (k : Only gs s t) :
    Only gs s (Machine.hbmUe a1 a2 a3 a4 t) := by
  refine Only.after (hs := [.store, .log, .mem, .serve, .link, .out]) ?_ m k
  clear m k
  unfold Machine.hbmUe
  try dsimp only
  repeat' first
    | with_reducible first
      | exact Only.refl
      | refine noteUe_only _ _ _ (by decide) ?_
      | refine setFlaw_only _ _ (by decide) ?_
      | refine ueLine_only _ _ _ (by decide) ?_
    | split

theorem readLine_only (a1) (a2) {gs : List Group} {s t : State} (m : [.store, .log, .mem, .serve, .link, .out, .freeCtr] ⊆ gs) (k : Only gs s t) :
    Only gs s (Machine.readLine a1 a2 t).2 := by
  refine Only.after (hs := [.store, .log, .mem, .serve, .link, .out, .freeCtr]) ?_ m k
  clear m k
  unfold Machine.readLine
  try dsimp only
  repeat' first
    | with_reducible first
      | exact Only.refl
      | refine hbmUe_only _ _ _ _ (by decide) ?_
      | refine setFlaw_only _ _ (by decide) ?_
      | refine logLimitedAt_only _ _ _ _ _ _ _ _ (by decide) ?_
      | refine queueRescrub_only _ _ (by decide) ?_
      | refine noteCe_only _ _ _ _ (by decide) ?_
      | fail_if_no_progress refine Only.atFreeCtr (by decide) ?_
    | split

theorem injectInto_only (a1) {gs : List Group} {s t : State} (m : [.log, .mem, .link, .out] ⊆ gs) (k : Only gs s t) :
    Only gs s (Machine.injectInto a1 t) := by
  refine Only.after (hs := [.log, .mem, .link, .out]) ?_ m k
  clear m k
  unfold Machine.injectInto
  try dsimp only
  repeat' with_reducible first
    | exact Only.refl
    | refine setFlaw_only _ _ (by decide) ?_
    | refine logSec_only _ _ _ _ (by decide) ?_
    | fail_if_no_progress refine Only.atMem (by decide) rfl ?_

theorem meetInjection_only (a1) {gs : List Group} {s t : State} (m : [.log, .mem, .link, .out] ⊆ gs) (k : Only gs s t) :
    Only gs s (Machine.meetInjection a1 t) := by
  refine Only.after (hs := [.log, .mem, .link, .out]) ?_ m k
  clear m k
  unfold Machine.meetInjection
  try dsimp only
  repeat' first
    | with_reducible first | exact Only.refl | refine injectInto_only _ (by decide) ?_
    | split

theorem storeLine_only (a1) (a2) (a3) {gs : List Group} {s t : State} (m : [.store, .log, .mem, .serve, .link, .out, .freeCtr, .bytes] ⊆ gs) (k : Only gs s t) :
    Only gs s (Machine.storeLine a1 a2 a3 t).2 := by
  refine Only.after (hs := [.store, .log, .mem, .serve, .link, .out, .freeCtr, .bytes]) ?_ m k
  clear m k
  unfold Machine.storeLine
  try dsimp only
  repeat' first
    | with_reducible first
      | exact Only.refl
      | refine meetInjection_only _ (by decide) ?_
      | refine poke_only _ _ (by decide) ?_
      | refine setFlaw_only _ _ (by decide) ?_
      | refine noteCe_only _ _ _ _ (by decide) ?_
      | refine hbmUe_only _ _ _ _ (by decide) ?_
      | fail_if_no_progress refine Only.atFreeCtr (by decide) ?_
    | split

theorem modVault_only (a1) (a2) {gs : List Group} {s t : State} (m : [.sealed] ⊆ gs) (k : Only gs s t) :
    Only gs s (Machine.modVault a1 a2 t) := by
  refine Only.after (hs := [.sealed]) ?_ m k
  clear m k
  unfold Machine.modVault
  try dsimp only
  repeat' with_reducible first | exact Only.refl | fail_if_no_progress refine Only.atSealed (by decide) ?_

theorem holdWrite_only (a1) (a2) (a3) (a4) {gs : List Group} {s t : State} (m : [.log, .sealed, .link, .out] ⊆ gs) (k : Only gs s t) :
    Only gs s (Machine.holdWrite a1 a2 a3 a4 t) := by
  refine Only.after (hs := [.log, .sealed, .link, .out]) ?_ m k
  clear m k
  unfold Machine.holdWrite
  try dsimp only
  repeat' first
    | with_reducible first
      | exact Only.refl
      | refine modVault_only _ _ (by decide) ?_
      | refine logInfo_only _ _ _ _ (by decide) ?_
    | split

theorem writeLine_only (a1) (a2) (a3) {gs : List Group} {s t : State} (m : [.store, .log, .mem, .serve, .sealed, .link, .out, .freeCtr, .bytes] ⊆ gs) (k : Only gs s t) :
    Only gs s (Machine.writeLine a1 a2 a3 t).2 := by
  refine Only.after (hs := [.store, .log, .mem, .serve, .sealed, .link, .out, .freeCtr, .bytes]) ?_ m k
  clear m k
  unfold Machine.writeLine
  try dsimp only
  repeat' first
    | with_reducible first
      | exact Only.refl
      | refine storeLine_only _ _ _ (by decide) ?_
      | refine holdWrite_only _ _ _ _ (by decide) ?_
      | refine modVault_only _ _ (by decide) ?_
    | split

theorem dropBack_only (a1) {gs : List Group} {s t : State} (m : [.mem] ⊆ gs) (k : Only gs s t) :
    Only gs s (Machine.dropBack a1 t) := by
  refine Only.after (hs := [.mem]) ?_ m k
  clear m k
  unfold Machine.dropBack
  try dsimp only
  repeat' with_reducible first | exact Only.refl | fail_if_no_progress refine Only.atMem (by decide) rfl ?_

theorem scheduleBack_only (a1) {gs : List Group} {s t : State} (m : [.mem] ⊆ gs) (k : Only gs s t) :
    Only gs s (Machine.scheduleBack a1 t) := by
  refine Only.after (hs := [.mem]) ?_ m k
  clear m k
  unfold Machine.scheduleBack
  try dsimp only
  repeat' first
    | with_reducible first | exact Only.refl | fail_if_no_progress refine Only.atMem (by decide) rfl ?_
    | split

theorem readWord_only (a1) (a2) {gs : List Group} {s t : State} (m : [.store, .log, .mem, .link, .out, .freeCtr] ⊆ gs) (k : Only gs s t) :
    Only gs s (Machine.readWord a1 a2 t).2 := by
  refine Only.after (hs := [.store, .log, .mem, .link, .out, .freeCtr]) ?_ m k
  clear m k
  unfold Machine.readWord
  try dsimp only
  repeat' first
    | with_reducible first
      | exact Only.refl
      | refine scheduleBack_only _ (by decide) ?_
      | refine noteCe_only _ _ _ _ (by decide) ?_
      | refine setFlaw_only _ _ (by decide) ?_
      | refine noteUe_only _ _ _ (by decide) ?_
      | refine hardWord_only _ _ (by decide) ?_
      | fail_if_no_progress refine Only.atFreeCtr (by decide) ?_
    | split

theorem writeWord_only (a1) (a2) (a3) {gs : List Group} {s t : State} (m : [.store, .log, .mem, .link, .out, .freeCtr, .bytes] ⊆ gs) (k : Only gs s t) :
    Only gs s (Machine.writeWord a1 a2 a3 t).2 := by
  refine Only.after (hs := [.store, .log, .mem, .link, .out, .freeCtr, .bytes]) ?_ m k
  clear m k
  unfold Machine.writeWord
  try dsimp only
  repeat' first
    | with_reducible first
      | exact Only.refl
      | refine dropBack_only _ (by decide) ?_
      | refine meetInjection_only _ (by decide) ?_
      | refine poke_only _ _ (by decide) ?_
      | refine setFlaw_only _ _ (by decide) ?_
      | refine readWord_only _ _ (by decide) ?_
      | fail_if_no_progress refine Only.atFreeCtr (by decide) ?_
    | split

theorem readWords_only (a1) (a2) (a3) {gs : List Group} {s t : State} (m : [.store, .log, .mem, .link, .out, .freeCtr] ⊆ gs) (k : Only gs s t) :
    Only gs s (Machine.readWords a1 a2 a3 t).2 := by
  refine Only.after (hs := [.store, .log, .mem, .link, .out, .freeCtr]) ?_ m k
  clear m k
  induction a1 generalizing a2 a3 t with
  | zero =>
    unfold Machine.readWords
    try dsimp only
    repeat' with_reducible exact Only.refl
  | succ x ih =>
    unfold Machine.readWords
    try dsimp only
    repeat' with_reducible first
        | exact Only.refl
        | refine Only.trans ?_ (ih ..)
        | refine readWord_only _ _ (by decide) ?_

theorem readPiece_only (a1) (a2) {gs : List Group} {s t : State} (m : [.store, .log, .mem, .serve, .link, .out, .freeCtr] ⊆ gs) (k : Only gs s t) :
    Only gs s (Machine.readPiece a1 a2 t).2 := by
  refine Only.after (hs := [.store, .log, .mem, .serve, .link, .out, .freeCtr]) ?_ m k
  clear m k
  unfold Machine.readPiece
  try dsimp only
  repeat' first
    | with_reducible first
      | exact Only.refl
      | refine readLine_only _ _ (by decide) ?_
      | refine readWords_only _ _ _ (by decide) ?_
    | split

theorem writeWords_only (a1) (a2) (a3) (a4) {gs : List Group} {s t : State} (m : [.store, .log, .mem, .link, .out, .freeCtr, .bytes] ⊆ gs) (k : Only gs s t) :
    Only gs s (Machine.writeWords a1 a2 a3 a4 t).2 := by
  refine Only.after (hs := [.store, .log, .mem, .link, .out, .freeCtr, .bytes]) ?_ m k
  clear m k
  induction a1 generalizing a2 a3 a4 t with
  | zero =>
    unfold Machine.writeWords
    try dsimp only
    repeat' with_reducible exact Only.refl
  | succ x ih =>
    unfold Machine.writeWords
    try dsimp only
    repeat' first
        | with_reducible first
          | exact Only.refl
          | refine Only.trans ?_ (ih ..)
          | refine writeWord_only _ _ _ (by decide) ?_
        | (have hk := Nat.succ.inj ‹_ + 1 = Nat.succ _›; subst hk)
        | split

theorem writePiece_only (a1) (a2) {gs : List Group} {s t : State} (m : [.store, .log, .mem, .serve, .sealed, .link, .out, .freeCtr, .bytes] ⊆ gs) (k : Only gs s t) :
    Only gs s (Machine.writePiece a1 a2 t).2 := by
  refine Only.after (hs := [.store, .log, .mem, .serve, .sealed, .link, .out, .freeCtr, .bytes]) ?_ m k
  clear m k
  unfold Machine.writePiece
  try dsimp only
  repeat' first
    | with_reducible first
      | exact Only.refl
      | refine writeLine_only _ _ _ (by decide) ?_
      | refine writeWords_only _ _ _ _ (by decide) ?_
      | refine poke_only _ _ (by decide) ?_
    | split

theorem readPieces_only (a1) (a2) (a3) {gs : List Group} {s t : State} (m : [.store, .log, .mem, .serve, .link, .out, .freeCtr] ⊆ gs) (k : Only gs s t) :
    Only gs s (Machine.readPieces a1 a2 a3 t).2 := by
  refine Only.after (hs := [.store, .log, .mem, .serve, .link, .out, .freeCtr]) ?_ m k
  clear m k
  induction a1 generalizing a2 a3 t with
  | zero =>
    unfold Machine.readPieces
    try dsimp only
    repeat' with_reducible exact Only.refl
  | succ x ih =>
    unfold Machine.readPieces
    try dsimp only
    repeat' first
        | with_reducible first
          | exact Only.refl
          | refine Only.trans ?_ (ih ..)
          | refine readPiece_only _ _ (by decide) ?_
        | split

theorem memRead_only (a1) (a2) {gs : List Group} {s t : State} (m : [.store, .log, .mem, .serve, .link, .out, .freeCtr] ⊆ gs) (k : Only gs s t) :
    Only gs s (Machine.memRead a1 a2 t).2 := by
  refine Only.after (hs := [.store, .log, .mem, .serve, .link, .out, .freeCtr]) ?_ m k
  clear m k
  unfold Machine.memRead
  try dsimp only
  repeat' first
    | with_reducible first
      | exact Only.refl
      | refine readPieces_only _ _ _ (by decide) ?_
      | fail_if_no_progress refine Only.atFreeCtr (by decide) ?_
    | split

theorem writePieces_only (a1) (a2) (a3) {gs : List Group} {s t : State} (m : [.store, .log, .mem, .serve, .sealed, .link, .out, .freeCtr, .bytes] ⊆ gs) (k : Only gs s t) :
    Only gs s (Machine.writePieces a1 a2 a3 t).2 := by
  refine Only.after (hs := [.store, .log, .mem, .serve, .sealed, .link, .out, .freeCtr, .bytes]) ?_ m k
  clear m k
  induction a1 generalizing a2 a3 t with
  | zero =>
    unfold Machine.writePieces
    try dsimp only
    repeat' with_reducible exact Only.refl
  | succ x ih =>
    unfold Machine.writePieces
    try dsimp only
    repeat' first
        | with_reducible first
          | exact Only.refl
          | refine Only.trans ?_ (ih ..)
          | refine writePiece_only _ _ (by decide) ?_
        | (have hk := Nat.succ.inj ‹_ + 1 = Nat.succ _›; subst hk)
        | split

theorem memWrite_only (a1) (a2) {gs : List Group} {s t : State} (m : [.store, .log, .mem, .serve, .sealed, .link, .out, .freeCtr, .bytes] ⊆ gs) (k : Only gs s t) :
    Only gs s (Machine.memWrite a1 a2 t).2 := by
  refine Only.after (hs := [.store, .log, .mem, .serve, .sealed, .link, .out, .freeCtr, .bytes]) ?_ m k
  clear m k
  unfold Machine.memWrite
  try dsimp only
  repeat' with_reducible first | exact Only.refl | refine writePieces_only _ _ _ (by decide) ?_

end Sys2Proof.Laws
end

