-- ==== Sys2Proof/Laws/PortOps.lean ====
section
/-!
SUPPORT. Which groups of state each operation of Machine/PortOps.lean changes; it keeps every other group and the forms of the
memory and of the event ring.
-/
namespace Sys2Proof.Laws

open Sys2Proof.Machine

theorem setGport_only (a1) (a2) {gs : List Group} {s t : State} (m : [.link] ⊆ gs) (k : Only gs s t) :
    Only gs s (Machine.setGport a1 a2 t) := by
  refine Only.after (hs := [.link]) ?_ m k
  clear m k
  unfold Machine.setGport
  try dsimp only
  repeat' with_reducible first | exact Only.refl | fail_if_no_progress refine Only.atLink (by decide) ?_

theorem modGport_only (a1) (a2) {gs : List Group} {s t : State} (m : [.link] ⊆ gs) (k : Only gs s t) :
    Only gs s (Machine.modGport a1 a2 t) := by
  refine Only.after (hs := [.link]) ?_ m k
  clear m k
  unfold Machine.modGport
  try dsimp only
  repeat' with_reducible first | exact Only.refl | refine setGport_only _ _ (by decide) ?_

theorem linkFlit_only (a1) (a2) (a3) (a4) {gs : List Group} {s t : State} (m : [.link, .out] ⊆ gs) (k : Only gs s t) :
    Only gs s (Machine.linkFlit a1 a2 a3 a4 t) := by
  refine Only.after (hs := [.link, .out]) ?_ m k
  clear m k
  unfold Machine.linkFlit
  dsimp only
  split
  · exact send_only _ (by decide) (send_only _ (by decide) (modGport_only _ _ (by decide) Only.refl))
  · exact send_only _ (by decide) (modGport_only _ _ (by decide) Only.refl)

theorem setPortSt_only (a1) (a2) {gs : List Group} {s t : State} (m : [.log, .units, .link, .out] ⊆ gs) (k : Only gs s t) :
    Only gs s (Machine.setPortSt a1 a2 t) := by
  refine Only.after (hs := [.log, .units, .link, .out]) ?_ m k
  clear m k
  unfold Machine.setPortSt
  try dsimp only
  repeat' first
    | with_reducible first
      | exact Only.refl
      | refine sendMsix_only _ (by decide) ?_
      | refine setUnitSt_only _ _ _ (by decide) ?_
      | refine modGport_only _ _ (by decide) ?_
      | refine logInfo_only _ _ _ _ (by decide) ?_
    | split

theorem modSChan_only (a1) (a2) (a3) {gs : List Group} {s t : State} (m : [.link] ⊆ gs) (k : Only gs s t) :
    Only gs s (Machine.modSChan a1 a2 a3 t) := by
  refine Only.after (hs := [.link]) ?_ m k
  clear m k
  unfold Machine.modSChan
  try dsimp only
  repeat' with_reducible first | exact Only.refl | refine modGport_only _ _ (by decide) ?_

theorem newChannel_only (a1) (a2) (a3) {gs : List Group} {s t : State} (m : [.link] ⊆ gs) (k : Only gs s t) :
    Only gs s (Machine.newChannel a1 a2 a3 t) := by
  refine Only.after (hs := [.link]) ?_ m k
  clear m k
  unfold Machine.newChannel
  try dsimp only
  repeat' with_reducible first | exact Only.refl | refine modSChan_only _ _ _ (by decide) ?_

theorem nextKeys_only (a1) (a2) (a3) {gs : List Group} {s t : State} (m : [.link] ⊆ gs) (k : Only gs s t) :
    Only gs s (Machine.nextKeys a1 a2 a3 t) := by
  refine Only.after (hs := [.link]) ?_ m k
  clear m k
  unfold Machine.nextKeys
  try dsimp only
  repeat' with_reducible first | exact Only.refl | refine modSChan_only _ _ _ (by decide) ?_

theorem hsDrawn_only {gs : List Group} {s t : State} (m : [.freeCtr] ⊆ gs) (k : Only gs s t) :
    Only gs s (Machine.hsDrawn t) := by
  refine Only.after (hs := [.freeCtr]) ?_ m k
  clear m k
  unfold Machine.hsDrawn
  try dsimp only
  repeat' with_reducible first | exact Only.refl | fail_if_no_progress refine Only.atFreeCtr (by decide) ?_

end Sys2Proof.Laws
end

