-- ==== Sys2Proof/Laws/LullOps.lean ====
section
/-!
SUPPORT. Which groups of state each operation of Machine/LullOps.lean changes; it keeps every other group and the forms of the
memory and of the event ring.
-/
namespace Sys2Proof.Laws

open Sys2Proof.Machine

theorem setObj_only (a1) (a2) {gs : List Group} {s t : State} (m : [.lull] ⊆ gs) (k : Only gs s t) :
    Only gs s (Machine.setObj a1 a2 t) := by
  refine Only.after (hs := [.lull]) ?_ m k
  clear m k
  unfold Machine.setObj
  try dsimp only
  repeat' with_reducible first | exact Only.refl | fail_if_no_progress refine Only.atLull (by decide) ?_

theorem sendLull_only (a1) (a2) {gs : List Group} {s t : State} (m : [.link, .out] ⊆ gs) (k : Only gs s t) :
    Only gs s (Machine.sendLull a1 a2 t) := by
  refine Only.after (hs := [.link, .out]) ?_ m k
  clear m k
  unfold Machine.sendLull
  try dsimp only
  repeat' first
    | with_reducible first | exact Only.refl | refine linkFlit_only _ _ _ _ (by decide) ?_
    | split

theorem notify_only (a1) (a2) (a3) (a4) (a5) {gs : List Group} {s t : State} (m : [.link, .out] ⊆ gs) (k : Only gs s t) :
    Only gs s (Machine.notify a1 a2 a3 a4 a5 t) := by
  refine Only.after (hs := [.link, .out]) ?_ m k
  clear m k
  unfold Machine.notify
  try dsimp only
  repeat' first
    | with_reducible first
      | exact Only.refl
      | refine send_only _ (by decide) ?_
      | refine sendLull_only _ _ (by decide) ?_
    | split

theorem notifyAll_only (a1) (a2) (a3) (a4) {gs : List Group} {s t : State} (m : [.link, .out] ⊆ gs) (k : Only gs s t) :
    Only gs s (Machine.notifyAll a1 a2 a3 a4 t) := by
  refine Only.after (hs := [.link, .out]) ?_ m k
  clear m k
  induction a4 generalizing a1 a2 a3 t with
  | nil =>
    unfold Machine.notifyAll
    try dsimp only
    repeat' with_reducible exact Only.refl
  | cons x l ih =>
    unfold Machine.notifyAll
    try dsimp only
    repeat' with_reducible first
        | exact Only.refl
        | refine Only.trans ?_ (ih ..)
        | refine notify_only _ _ _ _ _ (by decide) ?_

theorem eventSet_only (a1) (a2) {gs : List Group} {s t : State} (m : [.lull, .link, .out] ⊆ gs) (k : Only gs s t) :
    Only gs s (Machine.eventSet a1 a2 t) := by
  refine Only.after (hs := [.lull, .link, .out]) ?_ m k
  clear m k
  unfold Machine.eventSet
  try dsimp only
  repeat' first
    | with_reducible first
      | exact Only.refl
      | refine notifyAll_only _ _ _ _ (by decide) ?_
      | refine setObj_only _ _ (by decide) ?_
    | split

theorem triggerSet_only (a1) {gs : List Group} {s t : State} (m : [.net] ⊆ gs) (k : Only gs s t) :
    Only gs s (Machine.triggerSet a1 t) := by
  refine Only.after (hs := [.net]) ?_ m k
  clear m k
  unfold Machine.triggerSet
  try dsimp only
  repeat' first
    | with_reducible first | exact Only.refl | fail_if_no_progress refine Only.atNet (by decide) ?_
    | split

theorem lullSet_only (a1) (a2) {gs : List Group} {s t : State} (m : [.net, .lull, .link, .out] ⊆ gs) (k : Only gs s t) :
    Only gs s (Machine.lullSet a1 a2 t) := by
  refine Only.after (hs := [.net, .lull, .link, .out]) ?_ m k
  clear m k
  unfold Machine.lullSet
  try dsimp only
  repeat' with_reducible first
    | exact Only.refl
    | refine triggerSet_only _ (by decide) ?_
    | refine eventSet_only _ _ (by decide) ?_

theorem counterAdd_only (a1) (a2) {gs : List Group} {s t : State} (m : [.lull, .link, .out] ⊆ gs) (k : Only gs s t) :
    Only gs s (Machine.counterAdd a1 a2 t) := by
  refine Only.after (hs := [.lull, .link, .out]) ?_ m k
  clear m k
  unfold Machine.counterAdd
  try dsimp only
  repeat' first
    | with_reducible first
      | exact Only.refl
      | refine notifyAll_only _ _ _ _ (by decide) ?_
      | refine setObj_only _ _ (by decide) ?_
    | split

theorem poisonObj_only (a1) (a2) {gs : List Group} {s t : State} (m : [.log, .lull, .link, .out] ⊆ gs) (k : Only gs s t) :
    Only gs s (Machine.poisonObj a1 a2 t) := by
  refine Only.after (hs := [.log, .lull, .link, .out]) ?_ m k
  clear m k
  unfold Machine.poisonObj
  try dsimp only
  repeat' first
    | with_reducible first
      | exact Only.refl
      | refine logUe_only _ _ _ _ _ (by decide) ?_
      | refine notifyAll_only _ _ _ _ (by decide) ?_
      | refine setObj_only _ _ (by decide) ?_
    | split

theorem poisonAll_only (a1) (a2) {gs : List Group} {s t : State} (m : [.log, .lull, .link, .out] ⊆ gs) (k : Only gs s t) :
    Only gs s (Machine.poisonAll a1 a2 t) := by
  refine Only.after (hs := [.log, .lull, .link, .out]) ?_ m k
  clear m k
  induction a2 generalizing a1 t with
  | nil =>
    unfold Machine.poisonAll
    try dsimp only
    repeat' with_reducible exact Only.refl
  | cons x l ih =>
    unfold Machine.poisonAll
    try dsimp only
    repeat' with_reducible first
        | exact Only.refl
        | refine Only.trans ?_ (ih ..)
        | refine poisonObj_only _ _ (by decide) ?_

theorem poisonFor_only (a1) (a2) (a3) {gs : List Group} {s t : State} (m : [.log, .lull, .link, .out] ⊆ gs) (k : Only gs s t) :
    Only gs s (Machine.poisonFor a1 a2 a3 t) := by
  refine Only.after (hs := [.log, .lull, .link, .out]) ?_ m k
  clear m k
  unfold Machine.poisonFor
  try dsimp only
  repeat' with_reducible first | exact Only.refl | refine poisonAll_only _ _ (by decide) ?_

theorem poisonPeer_only (a1) (a2) {gs : List Group} {s t : State} (m : [.log, .lull, .link, .out] ⊆ gs) (k : Only gs s t) :
    Only gs s (Machine.poisonPeer a1 a2 t) := by
  refine Only.after (hs := [.log, .lull, .link, .out]) ?_ m k
  clear m k
  unfold Machine.poisonPeer
  try dsimp only
  repeat' with_reducible first | exact Only.refl | refine poisonAll_only _ _ (by decide) ?_

end Sys2Proof.Laws
end

