-- ==== Sys2Proof/Laws/EddyOps.lean ====
section
/-!
SUPPORT. Which groups of state each operation of Machine/EddyOps.lean changes; it keeps every other group and the forms of the
memory and of the event ring.
-/
namespace Sys2Proof.Laws

open Sys2Proof.Machine

theorem setRed_only (a1) (a2) {gs : List Group} {s t : State} (m : [.coll] ⊆ gs) (k : Only gs s t) :
    Only gs s (Machine.setRed a1 a2 t) := by
  refine Only.after (hs := [.coll]) ?_ m k
  clear m k
  unfold Machine.setRed
  try dsimp only
  repeat' with_reducible first | exact Only.refl | fail_if_no_progress refine Only.atColl (by decide) ?_

theorem failInst_only {gs : List Group} (a1) (a2) (a3) (a4) (a5) (h5 : ∀ x0, Only gs x0 (a5 x0)) {s t : State} (m : [.net, .coll, .lull, .link, .out] ⊆ gs) (k : Only gs s t) :
    Only gs s (Machine.failInst a1 a2 a3 a4 a5 t) := by
  unfold Machine.failInst
  try dsimp only
  repeat' first
    | with_reducible first
      | exact k
      | refine Only.trans ?_ (h5 ..)
      | refine lullSet_only _ _ (List.Subset.trans (by decide) m) ?_
      | refine setRed_only _ _ (List.Subset.trans (by decide) m) ?_
    | split

theorem loseContrib_only (a1) (a2) (a3) {gs : List Group} {s t : State} (m : [.log, .net, .coll, .lull, .link, .out] ⊆ gs) (k : Only gs s t) :
    Only gs s (Machine.loseContrib a1 a2 a3 t) := by
  refine Only.after (hs := [.log, .net, .coll, .lull, .link, .out]) ?_ m k
  clear m k
  induction a3 generalizing a1 a2 t with
  | nil =>
    unfold Machine.loseContrib
    try dsimp only
    repeat' with_reducible exact Only.refl
  | cons x l ih =>
    unfold Machine.loseContrib
    try dsimp only
    repeat' first
        | with_reducible first
          | exact Only.refl
          | refine Only.trans ?_ (ih ..)
          | refine failInst_only _ _ _ _ _ (fun _ => ?_) (by decide) ?_
          | refine logUe_only _ _ _ _ _ (by decide) ?_
        | split

theorem loseContribs_only (a1) (a2) {gs : List Group} {s t : State} (m : [.log, .net, .coll, .lull, .link, .out] ⊆ gs) (k : Only gs s t) :
    Only gs s (Machine.loseContribs a1 a2 t) := by
  refine Only.after (hs := [.log, .net, .coll, .lull, .link, .out]) ?_ m k
  clear m k
  induction a2 generalizing a1 t with
  | nil =>
    unfold Machine.loseContribs
    try dsimp only
    repeat' with_reducible exact Only.refl
  | cons x l ih =>
    unfold Machine.loseContribs
    try dsimp only
    repeat' with_reducible first
        | exact Only.refl
        | refine Only.trans ?_ (ih ..)
        | refine loseContrib_only _ _ _ (by decide) ?_

theorem loseUnitContribs_only (a1) (a2) {gs : List Group} {s t : State} (m : [.log, .net, .coll, .lull, .link, .out] ⊆ gs) (k : Only gs s t) :
    Only gs s (Machine.loseUnitContribs a1 a2 t) := by
  refine Only.after (hs := [.log, .net, .coll, .lull, .link, .out]) ?_ m k
  clear m k
  unfold Machine.loseUnitContribs
  try dsimp only
  repeat' with_reducible first | exact Only.refl | refine loseContribs_only _ _ (by decide) ?_

theorem losePeerContribs_only (a1) {gs : List Group} {s t : State} (m : [.log, .net, .coll, .lull, .link, .out] ⊆ gs) (k : Only gs s t) :
    Only gs s (Machine.losePeerContribs a1 t) := by
  refine Only.after (hs := [.log, .net, .coll, .lull, .link, .out]) ?_ m k
  clear m k
  unfold Machine.losePeerContribs
  try dsimp only
  repeat' with_reducible first | exact Only.refl | refine loseContribs_only _ _ (by decide) ?_

end Sys2Proof.Laws
end

