-- ==== Sys2Proof/Laws/MmuOps.lean ====
section
/-!
SUPPORT. Which groups of state each operation of Machine/MmuOps.lean changes; it keeps every other group and the forms of the
memory and of the event ring.
-/
namespace Sys2Proof.Laws

open Sys2Proof.Machine

theorem walkFrom_only (a1) (a2) (a3) (a4) {gs : List Group} {s t : State} (m : [.store, .log, .mem, .serve, .link, .out, .freeCtr] ⊆ gs) (k : Only gs s t) :
    Only gs s (Machine.walkFrom a1 a2 a3 a4 t).2 := by
  refine Only.after (hs := [.store, .log, .mem, .serve, .link, .out, .freeCtr]) ?_ m k
  clear m k
  induction a2 generalizing a1 a3 a4 t with
  | zero =>
    unfold Machine.walkFrom
    try dsimp only
    repeat' with_reducible exact Only.refl
  | succ x ih =>
    unfold Machine.walkFrom
    try dsimp only
    repeat' first
        | with_reducible first
          | exact Only.refl
          | refine Only.trans ?_ (ih ..)
          | refine memRead_only _ _ (by decide) ?_
        | split

theorem walk_only (a1) {gs : List Group} {s t : State} (m : [.store, .log, .mem, .serve, .link, .out, .freeCtr] ⊆ gs) (k : Only gs s t) :
    Only gs s (Machine.walk a1 t).2 := by
  refine Only.after (hs := [.store, .log, .mem, .serve, .link, .out, .freeCtr]) ?_ m k
  clear m k
  unfold Machine.walk
  try dsimp only
  repeat' first
    | with_reducible first | exact Only.refl | refine walkFrom_only _ _ _ _ (by decide) ?_
    | split

theorem pushFault_only (a1) (a2) {gs : List Group} {s t : State} (m : [.log, .mmu, .link, .out] ⊆ gs) (k : Only gs s t) :
    Only gs s (Machine.pushFault a1 a2 t) := by
  refine Only.after (hs := [.log, .mmu, .link, .out]) ?_ m k
  clear m k
  unfold Machine.pushFault
  try dsimp only
  repeat' first
    | with_reducible first
      | exact Only.refl
      | refine logLimitedAt_only _ _ _ _ _ _ _ _ (by decide) ?_
      | fail_if_no_progress refine Only.atMmu (by decide) ?_
    | split

theorem mmuFault_only (a1) (a2) (a3) {gs : List Group} {s t : State} (m : [.log, .mmu, .link, .out] ⊆ gs) (k : Only gs s t) :
    Only gs s (Machine.mmuFault a1 a2 a3 t) := by
  refine Only.after (hs := [.log, .mmu, .link, .out]) ?_ m k
  clear m k
  unfold Machine.mmuFault
  try dsimp only
  repeat' with_reducible first
    | exact Only.refl
    | refine logLimitedAt_only _ _ _ _ _ _ _ _ (by decide) ?_
    | refine sendMsix_only _ (by decide) ?_
    | refine pushFault_only _ _ (by decide) ?_

theorem fillTlb_only (a1) (a2) {gs : List Group} {s t : State} (m : [.mmu] ⊆ gs) (k : Only gs s t) :
    Only gs s (Machine.fillTlb a1 a2 t) := by
  refine Only.after (hs := [.mmu]) ?_ m k
  clear m k
  unfold Machine.fillTlb
  try dsimp only
  repeat' with_reducible first | exact Only.refl | fail_if_no_progress refine Only.atMmu (by decide) ?_

theorem translateAt_only (a1) (a2) {gs : List Group} {s t : State} (m : [.store, .log, .mem, .mmu, .serve, .link, .out, .freeCtr] ⊆ gs) (k : Only gs s t) :
    Only gs s (Machine.translateAt a1 a2 t).2 := by
  refine Only.after (hs := [.store, .log, .mem, .mmu, .serve, .link, .out, .freeCtr]) ?_ m k
  clear m k
  unfold Machine.translateAt
  try dsimp only
  repeat' first
    | with_reducible first
      | exact Only.refl
      | refine walk_only _ (by decide) ?_
      | refine fillTlb_only _ _ (by decide) ?_
    | split

theorem translate_only (a1) {gs : List Group} {s t : State} (m : [.store, .log, .mem, .mmu, .serve, .link, .out, .freeCtr] ⊆ gs) (k : Only gs s t) :
    Only gs s (Machine.translate a1 t).2 := by
  refine Only.after (hs := [.store, .log, .mem, .mmu, .serve, .link, .out, .freeCtr]) ?_ m k
  clear m k
  unfold Machine.translate
  try dsimp only
  repeat' first
    | with_reducible first
      | exact Only.refl
      | refine translateAt_only _ _ (by decide) ?_
      | refine mmuFault_only _ _ _ (by decide) ?_
    | split

theorem dvaReadFrom_only (a1) (a2) (a3) (a4) {gs : List Group} {s t : State} (m : [.store, .log, .mem, .mmu, .serve, .link, .out, .freeCtr] ⊆ gs) (k : Only gs s t) :
    Only gs s (Machine.dvaReadFrom a1 a2 a3 a4 t).2 := by
  refine Only.after (hs := [.store, .log, .mem, .mmu, .serve, .link, .out, .freeCtr]) ?_ m k
  clear m k
  induction a2 generalizing a1 a3 a4 t with
  | zero =>
    unfold Machine.dvaReadFrom
    try dsimp only
    repeat' with_reducible exact Only.refl
  | succ x ih =>
    unfold Machine.dvaReadFrom
    try dsimp only
    repeat' first
        | with_reducible first
          | exact Only.refl
          | refine Only.trans ?_ (ih ..)
          | refine translate_only _ (by decide) ?_
          | refine memRead_only _ _ (by decide) ?_
        | split

theorem dvaRead_only (a1) (a2) {gs : List Group} {s t : State} (m : [.store, .log, .mem, .mmu, .serve, .link, .out, .freeCtr] ⊆ gs) (k : Only gs s t) :
    Only gs s (Machine.dvaRead a1 a2 t).2 := by
  refine Only.after (hs := [.store, .log, .mem, .mmu, .serve, .link, .out, .freeCtr]) ?_ m k
  clear m k
  unfold Machine.dvaRead
  try dsimp only
  repeat' with_reducible first | exact Only.refl | refine dvaReadFrom_only _ _ _ _ (by decide) ?_

theorem dvaWriteFrom_only (a1) (a2) (a3) (a4) {gs : List Group} {s t : State} (m : [.store, .log, .mem, .mmu, .serve, .sealed, .link, .out, .freeCtr, .bytes] ⊆ gs) (k : Only gs s t) :
    Only gs s (Machine.dvaWriteFrom a1 a2 a3 a4 t).2 := by
  refine Only.after (hs := [.store, .log, .mem, .mmu, .serve, .sealed, .link, .out, .freeCtr, .bytes]) ?_ m k
  clear m k
  induction a2 generalizing a1 a3 a4 t with
  | zero =>
    unfold Machine.dvaWriteFrom
    try dsimp only
    repeat' with_reducible exact Only.refl
  | succ x ih =>
    unfold Machine.dvaWriteFrom
    try dsimp only
    repeat' first
        | with_reducible first
          | exact Only.refl
          | refine Only.trans ?_ (ih ..)
          | refine translate_only _ (by decide) ?_
          | refine memWrite_only _ _ (by decide) ?_
        | (have hk := Nat.succ.inj ‹_ + 1 = Nat.succ _›; subst hk)
        | split

theorem dvaWrite_only (a1) (a2) {gs : List Group} {s t : State} (m : [.store, .log, .mem, .mmu, .serve, .sealed, .link, .out, .freeCtr, .bytes] ⊆ gs) (k : Only gs s t) :
    Only gs s (Machine.dvaWrite a1 a2 t).2 := by
  refine Only.after (hs := [.store, .log, .mem, .mmu, .serve, .sealed, .link, .out, .freeCtr, .bytes]) ?_ m k
  clear m k
  unfold Machine.dvaWrite
  try dsimp only
  repeat' with_reducible first | exact Only.refl | refine dvaWriteFrom_only _ _ _ _ (by decide) ?_

theorem startInval_only (a1) {gs : List Group} {s t : State} (m : [.mmu] ⊆ gs) (k : Only gs s t) :
    Only gs s (Machine.startInval a1 t) := by
  refine Only.after (hs := [.mmu]) ?_ m k
  clear m k
  unfold Machine.startInval
  try dsimp only
  repeat' with_reducible first | exact Only.refl | fail_if_no_progress refine Only.atMmu (by decide) ?_

theorem releaseInvals_only {gs : List Group} {s t : State} (m : [.mmu] ⊆ gs) (k : Only gs s t) :
    Only gs s (Machine.releaseInvals t) := by
  refine Only.after (hs := [.mmu]) ?_ m k
  clear m k
  unfold Machine.releaseInvals
  try dsimp only
  repeat' with_reducible first | exact Only.refl | fail_if_no_progress refine Only.atMmu (by decide) ?_

theorem dropTlb_only (a1) {gs : List Group} {s t : State} (m : [.mmu] ⊆ gs) (k : Only gs s t) :
    Only gs s (Machine.dropTlb a1 t) := by
  refine Only.after (hs := [.mmu]) ?_ m k
  clear m k
  unfold Machine.dropTlb
  try dsimp only
  repeat' with_reducible first | exact Only.refl | fail_if_no_progress refine Only.atMmu (by decide) ?_

theorem setRoot_only (a1) (a2) {gs : List Group} {s t : State} (m : [.mem, .mmu] ⊆ gs) (k : Only gs s t) :
    Only gs s (Machine.setRoot a1 a2 t) := by
  refine Only.after (hs := [.mem, .mmu]) ?_ m k
  clear m k
  unfold Machine.setRoot
  try dsimp only
  repeat' with_reducible first
    | exact Only.refl
    | refine setFrame_only _ _ (by decide) ?_
    | fail_if_no_progress refine Only.atMmu (by decide) ?_

end Sys2Proof.Laws
end

