-- ==== Sys2Proof/Laws/DmaOps.lean ====
section
/-!
SUPPORT. Which groups of state each operation of Machine/DmaOps.lean changes; it keeps every other group and the forms of the
memory and of the event ring.
-/
namespace Sys2Proof.Laws

open Sys2Proof.Machine

theorem setChan_only (a1) (a2) {gs : List Group} {s t : State} (m : [.dma] ⊆ gs) (k : Only gs s t) :
    Only gs s (Machine.setChan a1 a2 t) := by
  refine Only.after (hs := [.dma]) ?_ m k
  clear m k
  unfold Machine.setChan
  try dsimp only
  repeat' with_reducible first | exact Only.refl | fail_if_no_progress refine Only.atDma (by decide) ?_

theorem modChan_only (a1) (a2) {gs : List Group} {s t : State} (m : [.dma] ⊆ gs) (k : Only gs s t) :
    Only gs s (Machine.modChan a1 a2 t) := by
  refine Only.after (hs := [.dma]) ?_ m k
  clear m k
  unfold Machine.modChan
  try dsimp only
  repeat' with_reducible first | exact Only.refl | refine setChan_only _ _ (by decide) ?_

theorem writeStatus_only (a1) (a2) (a3) (a4) {gs : List Group} {s t : State} (m : [.store, .log, .mem, .mmu, .dma, .serve, .sealed, .link, .out, .freeCtr, .bytes] ⊆ gs) (k : Only gs s t) :
    Only gs s (Machine.writeStatus a1 a2 a3 a4 t).2 := by
  refine Only.after (hs := [.store, .log, .mem, .mmu, .dma, .serve, .sealed, .link, .out, .freeCtr, .bytes]) ?_ m k
  clear m k
  unfold Machine.writeStatus
  try dsimp only
  repeat' first
    | with_reducible first
      | exact Only.refl
      | refine dvaWrite_only _ _ (by decide) ?_
      | refine modChan_only _ _ (by decide) ?_
    | split

theorem dmaSignal_only (a1) (a2) {gs : List Group} {s t : State} (m : [.net, .lull, .link, .out] ⊆ gs) (k : Only gs s t) :
    Only gs s (Machine.dmaSignal a1 a2 t) := by
  refine Only.after (hs := [.net, .lull, .link, .out]) ?_ m k
  clear m k
  unfold Machine.dmaSignal
  try dsimp only
  repeat' first
    | with_reducible first
      | exact Only.refl
      | refine lullSet_only _ _ (by decide) ?_
      | refine counterAdd_only _ _ (by decide) ?_
    | split

theorem dmaFinal_only (a1) (a2) (a3) (a4) {gs : List Group} {s t : State} (m : [.store, .log, .net, .lull, .mem, .mmu, .dma, .serve, .sealed, .link, .out, .freeCtr, .bytes] ⊆ gs) (k : Only gs s t) :
    Only gs s (Machine.dmaFinal a1 a2 a3 a4 t) := by
  refine Only.after (hs := [.store, .log, .net, .lull, .mem, .mmu, .dma, .serve, .sealed, .link, .out, .freeCtr, .bytes]) ?_ m k
  clear m k
  unfold Machine.dmaFinal
  try dsimp only
  repeat' first
    | with_reducible first
      | exact Only.refl
      | refine writeStatus_only _ _ _ _ (by decide) ?_
      | refine sendMsix_only _ (by decide) ?_
      | refine modChan_only _ _ (by decide) ?_
      | refine dmaSignal_only _ _ (by decide) ?_
    | split

theorem dmaFetch_only (a1) (a2) {gs : List Group} {s t : State} (m : [.store, .log, .net, .lull, .mem, .mmu, .dma, .serve, .sealed, .link, .out, .freeCtr, .bytes] ⊆ gs) (k : Only gs s t) :
    Only gs s (Machine.dmaFetch a1 a2 t) := by
  refine Only.after (hs := [.store, .log, .net, .lull, .mem, .mmu, .dma, .serve, .sealed, .link, .out, .freeCtr, .bytes]) ?_ m k
  clear m k
  induction a2 generalizing a1 t with
  | zero =>
    unfold Machine.dmaFetch
    try dsimp only
    repeat' with_reducible exact Only.refl
  | succ x ih =>
    unfold Machine.dmaFetch
    try dsimp only
    repeat' first
        | with_reducible first
          | exact Only.refl
          | refine Only.trans ?_ (ih ..)
          | refine setChan_only _ _ (by decide) ?_
          | refine dvaRead_only _ _ (by decide) ?_
          | refine modChan_only _ _ (by decide) ?_
          | refine dmaFinal_only _ _ _ _ (by decide) ?_
        | split

theorem dmaRun_only (a1) {gs : List Group} {s t : State} (m : [.store, .log, .net, .lull, .mem, .mmu, .dma, .serve, .sealed, .link, .out, .freeCtr, .bytes] ⊆ gs) (k : Only gs s t) :
    Only gs s (Machine.dmaRun a1 t) := by
  refine Only.after (hs := [.store, .log, .net, .lull, .mem, .mmu, .dma, .serve, .sealed, .link, .out, .freeCtr, .bytes]) ?_ m k
  clear m k
  unfold Machine.dmaRun
  try dsimp only
  repeat' with_reducible first | exact Only.refl | refine dmaFetch_only _ _ (by decide) ?_

theorem chunkEnd_only (a1) (a2) (a3) (a4) {gs : List Group} {s t : State} (m : [.store, .log, .mem, .mmu, .serve, .link, .out, .freeCtr] ⊆ gs) (k : Only gs s t) :
    Only gs s (Machine.chunkEnd a1 a2 a3 a4 t).2 := by
  refine Only.after (hs := [.store, .log, .mem, .mmu, .serve, .link, .out, .freeCtr]) ?_ m k
  clear m k
  unfold Machine.chunkEnd
  try dsimp only
  repeat' first
    | with_reducible first | exact Only.refl | refine translate_only _ (by decide) ?_
    | split

theorem issueChunks_only (a1) (a2) {gs : List Group} {s t : State} (m : [.store, .log, .mem, .mmu, .dma, .serve, .link, .out, .freeCtr] ⊆ gs) (k : Only gs s t) :
    Only gs s (Machine.issueChunks a1 a2 t) := by
  refine Only.after (hs := [.store, .log, .mem, .mmu, .dma, .serve, .link, .out, .freeCtr]) ?_ m k
  clear m k
  induction a2 generalizing a1 t with
  | zero =>
    unfold Machine.issueChunks
    try dsimp only
    repeat' with_reducible exact Only.refl
  | succ x ih =>
    unfold Machine.issueChunks
    try dsimp only
    repeat' first
        | with_reducible first
          | exact Only.refl
          | refine Only.trans ?_ (ih ..)
          | refine logUe_only _ _ _ _ _ (by decide) ?_
          | refine modChan_only _ _ (by decide) ?_
          | refine chunkEnd_only _ _ _ _ (by decide) ?_
          | refine send_only _ (by decide) ?_
        | split

theorem cancelRest_only (a1) (a2) {gs : List Group} {s t : State} (m : [.store, .log, .net, .lull, .mem, .mmu, .dma, .serve, .sealed, .link, .out, .freeCtr, .bytes] ⊆ gs) (k : Only gs s t) :
    Only gs s (Machine.cancelRest a1 a2 t) := by
  refine Only.after (hs := [.store, .log, .net, .lull, .mem, .mmu, .dma, .serve, .sealed, .link, .out, .freeCtr, .bytes]) ?_ m k
  clear m k
  induction a2 generalizing a1 t with
  | zero =>
    unfold Machine.cancelRest
    try dsimp only
    repeat' with_reducible exact Only.refl
  | succ x ih =>
    unfold Machine.cancelRest
    try dsimp only
    repeat' first
        | with_reducible first
          | exact Only.refl
          | refine Only.trans ?_ (ih ..)
          | refine dvaRead_only _ _ (by decide) ?_
          | refine dmaFinal_only _ _ _ _ (by decide) ?_
          | refine modChan_only _ _ (by decide) ?_
        | split

theorem applyStop_only (a1) (a2) {gs : List Group} {s t : State} (m : [.store, .log, .net, .lull, .mem, .mmu, .dma, .serve, .sealed, .link, .out, .freeCtr, .bytes] ⊆ gs) (k : Only gs s t) :
    Only gs s (Machine.applyStop a1 a2 t) := by
  refine Only.after (hs := [.store, .log, .net, .lull, .mem, .mmu, .dma, .serve, .sealed, .link, .out, .freeCtr, .bytes]) ?_ m k
  clear m k
  unfold Machine.applyStop
  try dsimp only
  repeat' first
    | with_reducible first
      | exact Only.refl
      | refine modChan_only _ _ (by decide) ?_
      | refine writeStatus_only _ _ _ _ (by decide) ?_
      | refine dmaFinal_only _ _ _ _ (by decide) ?_
      | refine dmaRun_only _ (by decide) ?_
      | refine cancelRest_only _ _ (by decide) ?_
      | fail_if_no_progress refine Only.atMmu (by decide) ?_
    | split

theorem applyStops_only (a1) (a2) {gs : List Group} {s t : State} (m : [.store, .log, .net, .lull, .mem, .mmu, .dma, .serve, .sealed, .link, .out, .freeCtr, .bytes] ⊆ gs) (k : Only gs s t) :
    Only gs s (Machine.applyStops a1 a2 t) := by
  refine Only.after (hs := [.store, .log, .net, .lull, .mem, .mmu, .dma, .serve, .sealed, .link, .out, .freeCtr, .bytes]) ?_ m k
  clear m k
  induction a2 generalizing a1 t with
  | nil =>
    unfold Machine.applyStops
    try dsimp only
    repeat' with_reducible exact Only.refl
  | cons x l ih =>
    unfold Machine.applyStops
    try dsimp only
    repeat' first
        | with_reducible first
          | exact Only.refl
          | refine Only.trans ?_ (ih ..)
          | refine applyStop_only _ _ (by decide) ?_
        | split

theorem tellCancels_only (a1) {gs : List Group} {s t : State} (m : [.out] ⊆ gs) (k : Only gs s t) :
    Only gs s (Machine.tellCancels a1 t) := by
  refine Only.after (hs := [.out]) ?_ m k
  clear m k
  induction a1 generalizing t with
  | nil =>
    unfold Machine.tellCancels
    try dsimp only
    repeat' with_reducible exact Only.refl
  | cons x l ih =>
    unfold Machine.tellCancels
    try dsimp only
    repeat' with_reducible first
        | exact Only.refl
        | refine Only.trans ?_ (ih ..)
        | refine send_only _ (by decide) ?_

theorem reportCancels_only {gs : List Group} {s t : State} (m : [.dma, .out] ⊆ gs) (k : Only gs s t) :
    Only gs s (Machine.reportCancels t) := by
  refine Only.after (hs := [.dma, .out]) ?_ m k
  clear m k
  unfold Machine.reportCancels
  try dsimp only
  repeat' with_reducible first
    | exact Only.refl
    | refine tellCancels_only _ (by decide) ?_
    | fail_if_no_progress refine Only.atDma (by decide) ?_

theorem settle_only (a1) {gs : List Group} {s t : State} (m : [.store, .log, .net, .lull, .mem, .mmu, .dma, .serve, .sealed, .link, .out, .freeCtr, .bytes] ⊆ gs) (k : Only gs s t) :
    Only gs s (Machine.settle a1 t) := by
  refine Only.after (hs := [.store, .log, .net, .lull, .mem, .mmu, .dma, .serve, .sealed, .link, .out, .freeCtr, .bytes]) ?_ m k
  clear m k
  unfold Machine.settle
  try dsimp only
  repeat' first
    | with_reducible first
      | exact Only.refl
      | refine issueChunks_only _ _ (by decide) ?_
      | refine reportCancels_only (by decide) ?_
      | refine applyStops_only _ _ (by decide) ?_
      | refine modChan_only _ _ (by decide) ?_
      | refine dmaRun_only _ (by decide) ?_
      | refine dmaFinal_only _ _ _ _ (by decide) ?_
    | split

theorem stopChan_only (a1) (a2) {gs : List Group} {s t : State} (m : [.store, .log, .net, .lull, .mem, .mmu, .dma, .serve, .sealed, .link, .out, .freeCtr, .bytes] ⊆ gs) (k : Only gs s t) :
    Only gs s (Machine.stopChan a1 a2 t) := by
  refine Only.after (hs := [.store, .log, .net, .lull, .mem, .mmu, .dma, .serve, .sealed, .link, .out, .freeCtr, .bytes]) ?_ m k
  clear m k
  unfold Machine.stopChan
  try dsimp only
  repeat' first
    | with_reducible first
      | exact Only.refl
      | refine applyStop_only _ _ (by decide) ?_
      | refine setChan_only _ _ (by decide) ?_
      | refine settle_only _ (by decide) ?_
      | refine modChan_only _ _ (by decide) ?_
    | split

theorem cancelReqOn_only (a1) (a2) {gs : List Group} {s t : State} (m : [.store, .log, .net, .lull, .mem, .mmu, .dma, .serve, .sealed, .link, .out, .freeCtr, .bytes] ⊆ gs) (k : Only gs s t) :
    Only gs s (Machine.cancelReqOn a1 a2 t) := by
  refine Only.after (hs := [.store, .log, .net, .lull, .mem, .mmu, .dma, .serve, .sealed, .link, .out, .freeCtr, .bytes]) ?_ m k
  clear m k
  induction a2 generalizing a1 t with
  | nil =>
    unfold Machine.cancelReqOn
    try dsimp only
    repeat' with_reducible exact Only.refl
  | cons x l ih =>
    unfold Machine.cancelReqOn
    try dsimp only
    repeat' first
        | with_reducible first
          | exact Only.refl
          | refine Only.trans ?_ (ih ..)
          | refine stopChan_only _ _ (by decide) ?_
        | split

theorem cancelReq_only (a1) (a2) {gs : List Group} {s t : State} (m : [.store, .log, .net, .lull, .mem, .mmu, .dma, .serve, .sealed, .link, .out, .freeCtr, .bytes] ⊆ gs) (k : Only gs s t) :
    Only gs s (Machine.cancelReq a1 a2 t) := by
  refine Only.after (hs := [.store, .log, .net, .lull, .mem, .mmu, .dma, .serve, .sealed, .link, .out, .freeCtr, .bytes]) ?_ m k
  clear m k
  unfold Machine.cancelReq
  try dsimp only
  repeat' with_reducible first
    | exact Only.refl
    | refine reportCancels_only (by decide) ?_
    | refine cancelReqOn_only _ _ (by decide) ?_
    | fail_if_no_progress refine Only.atDma (by decide) ?_

theorem tlbiDone_only (a1) {gs : List Group} {s t : State} (m : [.store, .log, .net, .lull, .mem, .mmu, .dma, .serve, .sealed, .link, .out, .freeCtr, .bytes] ⊆ gs) (k : Only gs s t) :
    Only gs s (Machine.tlbiDone a1 t) := by
  refine Only.after (hs := [.store, .log, .net, .lull, .mem, .mmu, .dma, .serve, .sealed, .link, .out, .freeCtr, .bytes]) ?_ m k
  clear m k
  unfold Machine.tlbiDone
  try dsimp only
  repeat' first
    | with_reducible first
      | exact Only.refl
      | refine dmaRun_only _ (by decide) ?_
      | refine dmaFinal_only _ _ _ _ (by decide) ?_
      | refine modChan_only _ _ (by decide) ?_
    | split

end Sys2Proof.Laws
end

