-- ==== Sys2Proof/Laws/ServeOps.lean ====
section
/-!
SUPPORT. Which groups of state each operation of Machine/ServeOps.lean changes; it keeps every other group and the forms of the
memory and of the event ring.
-/
namespace Sys2Proof.Laws

open Sys2Proof.Machine

theorem setReq_only (a1) (a2) {gs : List Group} {s t : State} (m : [.serve] ⊆ gs) (k : Only gs s t) :
    Only gs s (Machine.setReq a1 a2 t) := by
  refine Only.after (hs := [.serve]) ?_ m k
  clear m k
  unfold Machine.setReq
  try dsimp only
  repeat' with_reducible first | exact Only.refl | fail_if_no_progress refine Only.atServe (by decide) ?_

theorem delReq_only (a1) {gs : List Group} {s t : State} (m : [.serve] ⊆ gs) (k : Only gs s t) :
    Only gs s (Machine.delReq a1 t) := by
  refine Only.after (hs := [.serve]) ?_ m k
  clear m k
  unfold Machine.delReq
  try dsimp only
  repeat' with_reducible first | exact Only.refl | fail_if_no_progress refine Only.atServe (by decide) ?_

theorem modReq_only (a1) (a2) {gs : List Group} {s t : State} (m : [.serve] ⊆ gs) (k : Only gs s t) :
    Only gs s (Machine.modReq a1 a2 t) := by
  refine Only.after (hs := [.serve]) ?_ m k
  clear m k
  unfold Machine.modReq
  try dsimp only
  repeat' first
    | with_reducible first | exact Only.refl | refine setReq_only _ _ (by decide) ?_
    | split

theorem eachReq_only {gs : List Group} (a1) (a2) (h1 : ∀ x0 x1 x2, Only gs x2 (a1 x0 x1 x2)) {s t : State}
    (m : ([] : List Group) ⊆ gs) (k : Only gs s t) : Only gs s (Machine.eachReq a1 a2 t) := by
  induction a2 generalizing t with
  | nil => exact k
  | cons x l ih =>
    unfold Machine.eachReq
    refine ih ?_
    split
    · exact k
    · exact k.trans (h1 ..)

theorem setSpart_only (a1) (a2) {gs : List Group} {s t : State} (m : [.serve] ⊆ gs) (k : Only gs s t) :
    Only gs s (Machine.setSpart a1 a2 t) := by
  refine Only.after (hs := [.serve]) ?_ m k
  clear m k
  unfold Machine.setSpart
  try dsimp only
  repeat' with_reducible first | exact Only.refl | fail_if_no_progress refine Only.atServe (by decide) ?_

theorem setTenant_only (a1) (a2) {gs : List Group} {s t : State} (m : [.serve] ⊆ gs) (k : Only gs s t) :
    Only gs s (Machine.setTenant a1 a2 t) := by
  refine Only.after (hs := [.serve]) ?_ m k
  clear m k
  unfold Machine.setTenant
  try dsimp only
  repeat' with_reducible first | exact Only.refl | fail_if_no_progress refine Only.atServe (by decide) ?_

theorem setRing_only (a1) (a2) {gs : List Group} {s t : State} (m : [.serve] ⊆ gs) (k : Only gs s t) :
    Only gs s (Machine.setRing a1 a2 t) := by
  refine Only.after (hs := [.serve]) ?_ m k
  clear m k
  unfold Machine.setRing
  try dsimp only
  repeat' with_reducible first | exact Only.refl | fail_if_no_progress refine Only.atServe (by decide) ?_

theorem putRec_only (a1) (a2) {gs : List Group} {s t : State} (m : [.serve] ⊆ gs) (k : Only gs s t) :
    Only gs s (Machine.putRec a1 a2 t) := by
  refine Only.after (hs := [.serve]) ?_ m k
  clear m k
  unfold Machine.putRec
  try dsimp only
  repeat' with_reducible first | exact Only.refl | refine setRing_only _ _ (by decide) ?_

theorem reqRec_only (a1) (a2) (a3) (a4) (a5) {gs : List Group} {s t : State} (m : [.serve] ⊆ gs) (k : Only gs s t) :
    Only gs s (Machine.reqRec a1 a2 a3 a4 a5 t) := by
  refine Only.after (hs := [.serve]) ?_ m k
  clear m k
  unfold Machine.reqRec
  try dsimp only
  repeat' first
    | with_reducible first | exact Only.refl | refine putRec_only _ _ (by decide) ?_
    | split

theorem reclaimRetained_only (a1) (a2) {gs : List Group} {s t : State} (m : [.store, .log, .mem, .serve, .link, .out] ⊆ gs) (k : Only gs s t) :
    Only gs s (Machine.reclaimRetained a1 a2 t) := by
  refine Only.after (hs := [.store, .log, .mem, .serve, .link, .out]) ?_ m k
  clear m k
  unfold Machine.reclaimRetained
  try dsimp only
  repeat' with_reducible first
    | exact Only.refl
    | refine freeFrames_only _ (by decide) ?_
    | refine removeEntries_only _ (by decide) ?_

theorem steward_only (a1) (a2) (a3) (a4) (a5) (a6) {gs : List Group} {s t : State} (m : [.store, .log, .mem, .serve, .link, .out] ⊆ gs) (k : Only gs s t) :
    Only gs s (Machine.steward a1 a2 a3 a4 a5 a6 t).2 := by
  refine Only.after (hs := [.store, .log, .mem, .serve, .link, .out]) ?_ m k
  clear m k
  unfold Machine.steward
  try dsimp only
  repeat' first
    | with_reducible first
      | exact Only.refl
      | refine reclaimRetained_only _ _ (by decide) ?_
      | fail_if_no_progress refine Only.atServe (by decide) ?_
    | split

theorem markFrames_only (a1) (a2) {gs : List Group} {s t : State} (m : [.mem] ⊆ gs) (k : Only gs s t) :
    Only gs s (Machine.markFrames a1 a2 t) := by
  refine Only.after (hs := [.mem]) ?_ m k
  clear m k
  induction a2 generalizing a1 t with
  | nil =>
    unfold Machine.markFrames
    try dsimp only
    repeat' with_reducible exact Only.refl
  | cons x l ih =>
    unfold Machine.markFrames
    try dsimp only
    repeat' with_reducible first
        | exact Only.refl
        | refine Only.trans ?_ (ih ..)
        | refine setFrame_only _ _ (by decide) ?_

theorem unshare_only (a1) {gs : List Group} {s t : State} (m : [.mem] ⊆ gs) (k : Only gs s t) :
    Only gs s (Machine.unshare a1 t) := by
  refine Only.after (hs := [.mem]) ?_ m k
  clear m k
  unfold Machine.unshare
  try dsimp only
  repeat' with_reducible first | exact Only.refl | refine modFrame_only _ _ (by decide) ?_

theorem unshareAll_only (a1) {gs : List Group} {s t : State} (m : [.mem] ⊆ gs) (k : Only gs s t) :
    Only gs s (Machine.unshareAll a1 t) := by
  refine Only.after (hs := [.mem]) ?_ m k
  clear m k
  induction a1 generalizing t with
  | nil =>
    unfold Machine.unshareAll
    try dsimp only
    repeat' with_reducible exact Only.refl
  | cons x l ih =>
    unfold Machine.unshareAll
    try dsimp only
    repeat' with_reducible first
        | exact Only.refl
        | refine Only.trans ?_ (ih ..)
        | refine unshare_only _ (by decide) ?_

theorem leavePage_only (a1) {gs : List Group} {s t : State} (m : [.store, .log, .mem, .link, .out] ⊆ gs) (k : Only gs s t) :
    Only gs s (Machine.leavePage a1 t) := by
  refine Only.after (hs := [.store, .log, .mem, .link, .out]) ?_ m k
  clear m k
  unfold Machine.leavePage
  try dsimp only
  repeat' first
    | with_reducible first
      | exact Only.refl
      | refine setFrame_only _ _ (by decide) ?_
      | refine freeFrame_only _ (by decide) ?_
    | split

theorem leavePages_only (a1) {gs : List Group} {s t : State} (m : [.store, .log, .mem, .link, .out] ⊆ gs) (k : Only gs s t) :
    Only gs s (Machine.leavePages a1 t) := by
  refine Only.after (hs := [.store, .log, .mem, .link, .out]) ?_ m k
  clear m k
  induction a1 generalizing t with
  | nil =>
    unfold Machine.leavePages
    try dsimp only
    repeat' with_reducible exact Only.refl
  | cons x l ih =>
    unfold Machine.leavePages
    try dsimp only
    repeat' with_reducible first
        | exact Only.refl
        | refine Only.trans ?_ (ih ..)
        | refine leavePage_only _ (by decide) ?_

theorem freeList_only (a1) {gs : List Group} {s t : State} (m : [.store, .log, .mem, .link, .out] ⊆ gs) (k : Only gs s t) :
    Only gs s (Machine.freeList a1 t) := by
  refine Only.after (hs := [.store, .log, .mem, .link, .out]) ?_ m k
  clear m k
  unfold Machine.freeList
  try dsimp only
  repeat' first
    | with_reducible first | exact Only.refl | refine freeFrame_only _ (by decide) ?_
    | split

theorem freeDrift_only (a1) {gs : List Group} {s t : State} (m : [.serve] ⊆ gs) (k : Only gs s t) :
    Only gs s (Machine.freeDrift a1 t) := by
  refine Only.after (hs := [.serve]) ?_ m k
  clear m k
  induction a1 generalizing t with
  | nil =>
    unfold Machine.freeDrift
    try dsimp only
    repeat' with_reducible exact Only.refl
  | cons x l ih =>
    unfold Machine.freeDrift
    try dsimp only
    repeat' with_reducible first
        | exact Only.refl
        | refine Only.trans ?_ (ih ..)
        | fail_if_no_progress refine Only.atServe (by decide) ?_

theorem dropPages_only (a1) {gs : List Group} {s t : State} (m : [.store, .log, .mem, .link, .out] ⊆ gs) (k : Only gs s t) :
    Only gs s (Machine.dropPages a1 t) := by
  refine Only.after (hs := [.store, .log, .mem, .link, .out]) ?_ m k
  clear m k
  unfold Machine.dropPages
  try dsimp only
  repeat' first
    | with_reducible first
      | exact Only.refl
      | refine freeList_only _ (by decide) ?_
      | refine leavePages_only _ (by decide) ?_
      | refine unshareAll_only _ (by decide) ?_
    | split

theorem dropMove_only (a1) {gs : List Group} {s t : State} (m : [.store, .log, .mem, .serve, .link, .out] ⊆ gs) (k : Only gs s t) :
    Only gs s (Machine.dropMove a1 t) := by
  refine Only.after (hs := [.store, .log, .mem, .serve, .link, .out]) ?_ m k
  clear m k
  unfold Machine.dropMove
  try dsimp only
  repeat' first
    | with_reducible first
      | exact Only.refl
      | refine freeDrift_only _ (by decide) ?_
      | refine freeFrames_only _ (by decide) ?_
    | split

theorem reclaim_only (a1) {gs : List Group} {s t : State} (m : [.store, .log, .mem, .serve, .link, .out] ⊆ gs) (k : Only gs s t) :
    Only gs s (Machine.reclaim a1 t) := by
  refine Only.after (hs := [.store, .log, .mem, .serve, .link, .out]) ?_ m k
  clear m k
  unfold Machine.reclaim
  try dsimp only
  repeat' with_reducible first
    | exact Only.refl
    | refine freeDrift_only _ (by decide) ?_
    | refine dropMove_only _ (by decide) ?_
    | refine dropPages_only _ (by decide) ?_

theorem sweepRetained_only {gs : List Group} {s t : State} (m : [.store, .log, .mem, .link, .out] ⊆ gs) (k : Only gs s t) :
    Only gs s (Machine.sweepRetained t) := by
  refine Only.after (hs := [.store, .log, .mem, .link, .out]) ?_ m k
  clear m k
  unfold Machine.sweepRetained
  try dsimp only
  repeat' with_reducible first | exact Only.refl | refine freeFrames_only _ (by decide) ?_

theorem shareAll_only (a1) {gs : List Group} {s t : State} (m : [.mem] ⊆ gs) (k : Only gs s t) :
    Only gs s (Machine.shareAll a1 t) := by
  refine Only.after (hs := [.mem]) ?_ m k
  clear m k
  induction a1 generalizing t with
  | nil =>
    unfold Machine.shareAll
    try dsimp only
    repeat' with_reducible exact Only.refl
  | cons x l ih =>
    unfold Machine.shareAll
    try dsimp only
    repeat' with_reducible first
        | exact Only.refl
        | refine Only.trans ?_ (ih ..)
        | refine modFrame_only _ _ (by decide) ?_

theorem touchEntries_only (a1) {gs : List Group} {s t : State} (m : [.serve] ⊆ gs) (k : Only gs s t) :
    Only gs s (Machine.touchEntries a1 t) := by
  refine Only.after (hs := [.serve]) ?_ m k
  clear m k
  unfold Machine.touchEntries
  try dsimp only
  repeat' with_reducible first | exact Only.refl | fail_if_no_progress refine Only.atServe (by decide) ?_

theorem insertChain_only (a1) (a2) (a3) (a4) (a5) (a6) {gs : List Group} {s t : State} (m : [.mem, .serve] ⊆ gs) (k : Only gs s t) :
    Only gs s (Machine.insertChain a1 a2 a3 a4 a5 a6 t) := by
  refine Only.after (hs := [.mem, .serve]) ?_ m k
  clear m k
  induction a3 generalizing a1 a2 a4 a5 a6 t with
  | zero =>
    unfold Machine.insertChain
    try dsimp only
    repeat' with_reducible exact Only.refl
  | succ x ih =>
    unfold Machine.insertChain
    try dsimp only
    repeat' first
        | with_reducible first
          | exact Only.refl
          | refine Only.trans ?_ (ih ..)
          | refine removeEntries_only _ (by decide) ?_
          | refine reindex_only _ _ (by decide) ?_
          | fail_if_no_progress refine Only.atServe (by decide) ?_
        | split

theorem insertPrefix_only (a1) (a2) {gs : List Group} {s t : State} (m : [.mem, .serve] ⊆ gs) (k : Only gs s t) :
    Only gs s (Machine.insertPrefix a1 a2 t) := by
  refine Only.after (hs := [.mem, .serve]) ?_ m k
  clear m k
  unfold Machine.insertPrefix
  try dsimp only
  repeat' first
    | with_reducible first | exact Only.refl | refine insertChain_only _ _ _ _ _ _ (by decide) ?_
    | split

theorem writeContext_only (a1) {gs : List Group} {s t : State} (m : [.mem] ⊆ gs) (k : Only gs s t) :
    Only gs s (Machine.writeContext a1 t) := by
  refine Only.after (hs := [.mem]) ?_ m k
  clear m k
  unfold Machine.writeContext
  try dsimp only
  repeat' first
    | with_reducible first | exact Only.refl | refine setFlaw_only _ _ (by decide) ?_
    | split

theorem rebuildReq_only (a1) (a2) {gs : List Group} {s t : State} (m : [.serve] ⊆ gs) (k : Only gs s t) :
    Only gs s (Machine.rebuildReq a1 a2 t) := by
  refine Only.after (hs := [.serve]) ?_ m k
  clear m k
  unfold Machine.rebuildReq
  try dsimp only
  repeat' with_reducible first | exact Only.refl | refine setReq_only _ _ (by decide) ?_

end Sys2Proof.Laws
end

