-- ==== Sys2Proof/Laws/DraftOps.lean ====
section
/-!
SUPPORT. Which groups of state each operation of Machine/DraftOps.lean changes; it keeps every other group and the forms of the
memory and of the event ring.
Only KVPUT writes memory in a pass, at the cache record of the row's own position; a pass keeps the form of memory.
-/
namespace Sys2Proof.Laws

open Sys2Proof.Machine

/-- Only KVPUT writes memory, and only at the row's own position of the draft cache. -/
theorem draftOp_bytes (x : DraftRow) (i : List Byte) (y : DraftPass) :
    (draftOp x i y).bytes = if leAt i 0 1 = 7 then
        (x.cache x.pos).elim y.bytes fun c => pokeTab y.bytes (c + leAt i 2 2) (y.area.bytes (leAt i 4 4) (leAt i 18 2 * dtSize (leAt i 1 1)))
      else y.bytes := by
  by_cases h : leAt i 0 1 = 7
  · rw [if_pos h]; simp only [draftOp, h]
  · rw [if_neg h]; unfold draftOp; dsimp only
    split <;> first | rfl | exact absurd ‹_› h

theorem draftOp_wf (x : DraftRow) (i : List Byte) (y : DraftPass) (w : Tab.wf 0 y.bytes) : Tab.wf 0 (draftOp x i y).bytes := by
  rw [draftOp_bytes]
  split
  · cases x.cache x.pos with
    | none => exact w
    | some c => exact pokeTab_wf _ w
  · exact w

theorem draftCode_wf (x : DraftRow) (n : Nat) : ∀ (l : List Byte) (y : DraftPass), Tab.wf 0 y.bytes → Tab.wf 0 (draftCode x n l y).bytes := by
  induction n with
  | zero => exact fun _ _ w => w
  | succ n ih =>
    intro l y w
    unfold draftCode
    split
    · exact w
    · exact ih _ _ (draftOp_wf _ _ _ w)

theorem draftPass_wf (g : Program) (d : DraftProg) (r : Req) (k p : Nat) {t : Tab Byte} (w : Tab.wf 0 t) :
    Tab.wf 0 (draftPass g d r k p t).2 := draftCode_wf _ _ _ _ w

theorem draftTurn_wf (g : Program) (d : DraftProg) (r : Req) (k n : Nat) (l : List Nat) (q : List PropPos) {t : Tab Byte}
    (w : Tab.wf 0 t) : Tab.wf 0 (draftTurn g d r k n l q t).2 := by
  unfold draftTurn
  split <;> exact draftPass_wf _ _ _ _ _ w

theorem fillCache_wf (g : Program) (d : DraftProg) (r : Req) (n : Nat) : ∀ (p : Nat) (t : Tab Byte), Tab.wf 0 t →
    Tab.wf 0 (fillCache g d r n p t) := by
  induction n with
  | zero => exact fun _ _ w => w
  | succ n ih => exact fun p t w => ih _ _ (draftPass_wf _ _ _ _ _ w)

theorem fillDraft_only (a1) (a2) {gs : List Group} {s t : State} (m : [.mem, .bytes] ⊆ gs) (k : Only gs s t) :
    Only gs s (Machine.fillDraft a1 a2 t) := by
  refine Only.after (hs := [.mem, .bytes]) ?_ m k
  clear m k
  unfold Machine.fillDraft
  split
  · exact Only.atBytes (by decide) (by decide) (fun w => fillCache_wf _ _ _ _ _ _ w) Only.refl
  · exact Only.refl

end Sys2Proof.Laws
end

