-- ==== Sys2Proof/Laws/SealOps.lean ====
section
/-!
SUPPORT. Which groups of state each operation of Machine/SealOps.lean changes; it keeps every other group and the forms of the
memory and of the event ring.
-/
namespace Sys2Proof.Laws

open Sys2Proof.Machine

theorem drbgDraw_only {gs : List Group} {s t : State} (m : [.sealed, .freeCtr] ⊆ gs) (k : Only gs s t) :
    Only gs s (Machine.drbgDraw t) := by
  refine Only.after (hs := [.sealed, .freeCtr]) ?_ m k
  clear m k
  unfold Machine.drbgDraw
  try dsimp only
  repeat' first
    | with_reducible exact Only.refl
    | with_reducible fail_if_no_progress refine Only.atSealedFreeCtr (by decide) (by decide) ?_

theorem zeroFrames_only (a1) {gs : List Group} {s t : State} (m : [.mem, .bytes] ⊆ gs) (k : Only gs s t) :
    Only gs s (Machine.zeroFrames a1 t) := by
  refine Only.after (hs := [.mem, .bytes]) ?_ m k
  clear m k
  unfold Machine.zeroFrames
  try dsimp only
  repeat' first
    | with_reducible exact Only.refl
    | fail_if_no_progress ((with_reducible refine Only.atBytes (by decide) (by decide) ?_ ?_) <;> try exact fun w => w)
    | exact fun w => Tab.wf_filter w

theorem beginChange_only (a1) {gs : List Group} {s t : State} (m : [.log, .sealed, .link, .out, .freeCtr] ⊆ gs) (k : Only gs s t) :
    Only gs s (Machine.beginChange a1 t) := by
  refine Only.after (hs := [.log, .sealed, .link, .out, .freeCtr]) ?_ m k
  clear m k
  unfold Machine.beginChange
  try dsimp only
  repeat' first
    | with_reducible first
      | exact Only.refl
      | refine modVault_only _ _ (by decide) ?_
      | refine logInfo_only _ _ _ _ (by decide) ?_
      | refine drbgDraw_only (by decide) ?_
    | split

theorem askChange_only (a1) {gs : List Group} {s t : State} (m : [.log, .sealed, .link, .out, .freeCtr] ⊆ gs) (k : Only gs s t) :
    Only gs s (Machine.askChange a1 t) := by
  refine Only.after (hs := [.log, .sealed, .link, .out, .freeCtr]) ?_ m k
  clear m k
  unfold Machine.askChange
  try dsimp only
  repeat' first
    | with_reducible first
      | exact Only.refl
      | refine modVault_only _ _ (by decide) ?_
      | refine beginChange_only _ (by decide) ?_
    | split

theorem applyHeld_only (a1) {gs : List Group} {s t : State} (m : [.store, .log, .mem, .serve, .sealed, .link, .out, .freeCtr, .bytes] ⊆ gs) (k : Only gs s t) :
    Only gs s (Machine.applyHeld a1 t) := by
  refine Only.after (hs := [.store, .log, .mem, .serve, .sealed, .link, .out, .freeCtr, .bytes]) ?_ m k
  clear m k
  induction a1 generalizing t with
  | nil =>
    unfold Machine.applyHeld
    try dsimp only
    repeat' with_reducible exact Only.refl
  | cons x l ih =>
    unfold Machine.applyHeld
    try dsimp only
    repeat' with_reducible first
        | exact Only.refl
        | refine Only.trans ?_ (ih ..)
        | refine writeLine_only _ _ _ (by decide) ?_

theorem endChange_only (a1) {gs : List Group} {s t : State} (m : [.store, .log, .mem, .serve, .sealed, .link, .out, .freeCtr, .bytes] ⊆ gs) (k : Only gs s t) :
    Only gs s (Machine.endChange a1 t) := by
  refine Only.after (hs := [.store, .log, .mem, .serve, .sealed, .link, .out, .freeCtr, .bytes]) ?_ m k
  clear m k
  unfold Machine.endChange
  try dsimp only
  repeat' first
    | with_reducible first
      | exact Only.refl
      | refine modVault_only _ _ (by decide) ?_
      | refine logInfo_only _ _ _ _ (by decide) ?_
      | refine applyHeld_only _ (by decide) ?_
      | refine beginChange_only _ (by decide) ?_
    | split

theorem retryChanges_only (a1) {gs : List Group} {s t : State} (m : [.log, .sealed, .link, .out, .freeCtr] ⊆ gs) (k : Only gs s t) :
    Only gs s (Machine.retryChanges a1 t) := by
  refine Only.after (hs := [.log, .sealed, .link, .out, .freeCtr]) ?_ m k
  clear m k
  induction a1 generalizing t with
  | nil =>
    unfold Machine.retryChanges
    try dsimp only
    repeat' with_reducible exact Only.refl
  | cons x l ih =>
    unfold Machine.retryChanges
    try dsimp only
    repeat' first
        | with_reducible first
          | exact Only.refl
          | refine Only.trans ?_ (ih ..)
          | refine beginChange_only _ (by decide) ?_
        | split

theorem modCx_only (a1) (a2) {gs : List Group} {s t : State} (m : [.sealed] ⊆ gs) (k : Only gs s t) :
    Only gs s (Machine.modCx a1 a2 t) := by
  refine Only.after (hs := [.sealed]) ?_ m k
  clear m k
  unfold Machine.modCx
  try dsimp only
  repeat' with_reducible first | exact Only.refl | fail_if_no_progress refine Only.atSealed (by decide) ?_

theorem dropCx_only (a1) {gs : List Group} {s t : State} (m : [.sealed, .link] ⊆ gs) (k : Only gs s t) :
    Only gs s (Machine.dropCx a1 t) := by
  refine Only.after (hs := [.sealed, .link]) ?_ m k
  clear m k
  unfold Machine.dropCx
  try dsimp only
  repeat' with_reducible first
    | exact Only.refl
    | refine modGport_only _ _ (by decide) ?_
    | fail_if_no_progress refine Only.atSealed (by decide) ?_

theorem abortCx_only (a1) (a2) {gs : List Group} {s t : State} (m : [.mbx, .log, .sealed, .link, .out] ⊆ gs) (k : Only gs s t) :
    Only gs s (Machine.abortCx a1 a2 t) := by
  refine Only.after (hs := [.mbx, .log, .sealed, .link, .out]) ?_ m k
  clear m k
  unfold Machine.abortCx
  try dsimp only
  repeat' first
    | with_reducible first
      | exact Only.refl
      | refine send_only _ (by decide) ?_
      | refine completeAwait_only _ _ (by decide) ?_
      | refine dropCx_only _ (by decide) ?_
      | refine logUe_only _ _ _ _ _ (by decide) ?_
    | split

theorem abortAllCx_only (a1) (a2) {gs : List Group} {s t : State} (m : [.mbx, .log, .sealed, .link, .out] ⊆ gs) (k : Only gs s t) :
    Only gs s (Machine.abortAllCx a1 a2 t) := by
  refine Only.after (hs := [.mbx, .log, .sealed, .link, .out]) ?_ m k
  clear m k
  induction a2 generalizing a1 t with
  | nil =>
    unfold Machine.abortAllCx
    try dsimp only
    repeat' with_reducible exact Only.refl
  | cons x l ih =>
    unfold Machine.abortAllCx
    try dsimp only
    repeat' with_reducible first
        | exact Only.refl
        | refine Only.trans ?_ (ih ..)
        | refine abortCx_only _ _ (by decide) ?_

theorem suspendCx_only (a1) {gs : List Group} {s t : State} (m : [.log, .sealed, .link, .out] ⊆ gs) (k : Only gs s t) :
    Only gs s (Machine.suspendCx a1 t) := by
  refine Only.after (hs := [.log, .sealed, .link, .out]) ?_ m k
  clear m k
  unfold Machine.suspendCx
  try dsimp only
  repeat' first
    | with_reducible first
      | exact Only.refl
      | refine logInfo_only _ _ _ _ (by decide) ?_
      | refine modCx_only _ _ (by decide) ?_
    | split

theorem batchFrames_only (a1) (a2) (a3) (a4) (a5) {gs : List Group} {s t : State} (m : [.link, .out] ⊆ gs) (k : Only gs s t) :
    Only gs s (Machine.batchFrames a1 a2 a3 a4 a5 t) := by
  refine Only.after (hs := [.link, .out]) ?_ m k
  clear m k
  induction a3 generalizing a1 a2 a4 a5 t with
  | zero =>
    unfold Machine.batchFrames
    try dsimp only
    repeat' with_reducible exact Only.refl
  | succ x ih =>
    unfold Machine.batchFrames
    try dsimp only
    repeat' first
        | with_reducible first
          | exact Only.refl
          | refine Only.trans ?_ (ih ..)
          | refine send_only _ (by decide) ?_
          | refine modSChan_only _ _ _ (by decide) ?_
        | split

theorem sendBatch_only (a1) (a2) {gs : List Group} {s t : State} (m : [.link, .out] ⊆ gs) (k : Only gs s t) :
    Only gs s (Machine.sendBatch a1 a2 t) := by
  refine Only.after (hs := [.link, .out]) ?_ m k
  clear m k
  unfold Machine.sendBatch
  try dsimp only
  repeat' with_reducible first | exact Only.refl | refine batchFrames_only _ _ _ _ _ (by decide) ?_

theorem sendAck_only (a1) (a2) {gs : List Group} {s t : State} (m : [.link, .out] ⊆ gs) (k : Only gs s t) :
    Only gs s (Machine.sendAck a1 a2 t) := by
  refine Only.after (hs := [.link, .out]) ?_ m k
  clear m k
  unfold Machine.sendAck
  try dsimp only
  repeat' with_reducible first
    | exact Only.refl
    | refine send_only _ (by decide) ?_
    | refine modSChan_only _ _ _ (by decide) ?_

theorem pumpCx_only (a1) {gs : List Group} {s t : State} (m : [.sealed, .link, .out] ⊆ gs) (k : Only gs s t) :
    Only gs s (Machine.pumpCx a1 t) := by
  refine Only.after (hs := [.sealed, .link, .out]) ?_ m k
  clear m k
  unfold Machine.pumpCx
  try dsimp only
  repeat' first
    | with_reducible first
      | exact Only.refl
      | refine modCx_only _ _ (by decide) ?_
      | refine sendBatch_only _ _ (by decide) ?_
      | refine sendAck_only _ _ (by decide) ?_
    | split

theorem takeBatch_only (a1) {gs : List Group} {s t : State} (m : [.store, .log, .net, .lull, .mem, .serve, .sealed, .link, .out, .freeCtr, .bytes] ⊆ gs) (k : Only gs s t) :
    Only gs s (Machine.takeBatch a1 t) := by
  refine Only.after (hs := [.store, .log, .net, .lull, .mem, .serve, .sealed, .link, .out, .freeCtr, .bytes]) ?_ m k
  clear m k
  unfold Machine.takeBatch
  try dsimp only
  repeat' first
    | with_reducible first
      | exact Only.refl
      | refine lullSet_only _ _ (by decide) ?_
      | refine memWrite_only _ _ (by decide) ?_
    | split

theorem advanceCx_only (a1) {gs : List Group} {s t : State} (m : [.store, .log, .net, .lull, .mem, .serve, .sealed, .link, .out, .freeCtr, .bytes] ⊆ gs) (k : Only gs s t) :
    Only gs s (Machine.advanceCx a1 t) := by
  refine Only.after (hs := [.store, .log, .net, .lull, .mem, .serve, .sealed, .link, .out, .freeCtr, .bytes]) ?_ m k
  clear m k
  unfold Machine.advanceCx
  try dsimp only
  repeat' first
    | with_reducible first
      | exact Only.refl
      | refine modCx_only _ _ (by decide) ?_
      | refine pumpCx_only _ (by decide) ?_
      | refine takeBatch_only _ (by decide) ?_
    | split

theorem guardRecord_only (a1) {gs : List Group} {s t : State} (m : [.log, .link, .out] ⊆ gs) (k : Only gs s t) :
    Only gs s (Machine.guardRecord a1 t) := by
  refine Only.after (hs := [.log, .link, .out]) ?_ m k
  clear m k
  unfold Machine.guardRecord
  try dsimp only
  repeat' with_reducible first | exact Only.refl | refine logLimitedAt_only _ _ _ _ _ _ _ _ (by decide) ?_

theorem closeVault_only (a1) (a2) {gs : List Group} {s t : State} (m : [.store, .mbx, .log, .mem, .sealed, .link, .out, .bytes] ⊆ gs) (k : Only gs s t) :
    Only gs s (Machine.closeVault a1 a2 t) := by
  refine Only.after (hs := [.store, .mbx, .log, .mem, .sealed, .link, .out, .bytes]) ?_ m k
  clear m k
  unfold Machine.closeVault
  try dsimp only
  repeat' first
    | with_reducible first
      | exact Only.refl
      | refine abortAllCx_only _ _ (by decide) ?_
      | refine logInfo_only _ _ _ _ (by decide) ?_
      | refine freeFrames_only _ (by decide) ?_
      | refine zeroFrames_only _ (by decide) ?_
      | fail_if_no_progress refine Only.atSealed (by decide) ?_
    | split

end Sys2Proof.Laws
end

