-- ==== Sys2Proof/Laws/LinkOps.lean ====
section
/-!
SUPPORT. Which groups of state each operation of Machine/LinkOps.lean changes; it keeps every other group and the forms of the
memory and of the event ring.
-/
namespace Sys2Proof.Laws

open Sys2Proof.Machine

theorem emitFlits_only (a1) (a2) (a3) {gs : List Group} {s t : State} (m : [.link] ⊆ gs) (k : Only gs s t) :
    Only gs s (Machine.emitFlits a1 a2 a3 t) := by
  refine Only.after (hs := [.link]) ?_ m k
  clear m k
  unfold Machine.emitFlits
  try dsimp only
  repeat' with_reducible first | exact Only.refl | refine modGport_only _ _ (by decide) ?_

theorem emitPacket_only (a1) (a2) {gs : List Group} {s t : State} (m : [.link, .out] ⊆ gs) (k : Only gs s t) :
    Only gs s (Machine.emitPacket a1 a2 t) := by
  refine Only.after (hs := [.link, .out]) ?_ m k
  clear m k
  unfold Machine.emitPacket
  try dsimp only
  repeat' with_reducible first
    | exact Only.refl
    | refine send_only _ (by decide) ?_
    | refine emitFlits_only _ _ _ (by decide) ?_

theorem emitSealed_only (a1) (a2) (a3) {gs : List Group} {s t : State} (m : [.link, .out] ⊆ gs) (k : Only gs s t) :
    Only gs s (Machine.emitSealed a1 a2 a3 t) := by
  refine Only.after (hs := [.link, .out]) ?_ m k
  clear m k
  unfold Machine.emitSealed
  try dsimp only
  repeat' with_reducible first
    | exact Only.refl
    | refine send_only _ (by decide) ?_
    | refine emitFlits_only _ _ _ (by decide) ?_
    | refine modSChan_only _ _ _ (by decide) ?_

theorem trySend_only (a1) (a2) {gs : List Group} {s t : State} (m : [.mbx, .log, .vane, .net, .link, .out, .freeCtr] ⊆ gs) (k : Only gs s t) :
    Only gs s (Machine.trySend a1 a2 t).2 := by
  refine Only.after (hs := [.mbx, .log, .vane, .net, .link, .out, .freeCtr]) ?_ m k
  clear m k
  unfold Machine.trySend
  try dsimp only
  repeat' first
    | with_reducible first
      | exact Only.refl
      | refine emitSealed_only _ _ _ (by decide) ?_
      | refine modSChan_only _ _ _ (by decide) ?_
      | refine discardPacket_only _ (by decide) ?_
      | refine modGport_only _ _ (by decide) ?_
      | refine emitPacket_only _ _ (by decide) ?_
    | split

theorem sendList_only (a1) (a2) {gs : List Group} {s t : State} (m : [.mbx, .log, .vane, .net, .link, .out, .freeCtr] ⊆ gs) (k : Only gs s t) :
    Only gs s (Machine.sendList a1 a2 t).2 := by
  refine Only.after (hs := [.mbx, .log, .vane, .net, .link, .out, .freeCtr]) ?_ m k
  clear m k
  induction a2 generalizing a1 t with
  | nil =>
    unfold Machine.sendList
    try dsimp only
    repeat' with_reducible exact Only.refl
  | cons x l ih =>
    unfold Machine.sendList
    try dsimp only
    repeat' with_reducible first
        | exact Only.refl
        | refine Only.trans ?_ (ih ..)
        | refine trySend_only _ _ (by decide) ?_

theorem pumpPort_only (a1) {gs : List Group} {s t : State} (m : [.mbx, .log, .vane, .net, .link, .out, .freeCtr] ⊆ gs) (k : Only gs s t) :
    Only gs s (Machine.pumpPort a1 t) := by
  refine Only.after (hs := [.mbx, .log, .vane, .net, .link, .out, .freeCtr]) ?_ m k
  clear m k
  unfold Machine.pumpPort
  try dsimp only
  repeat' with_reducible first
    | exact Only.refl
    | refine sendList_only _ _ (by decide) ?_
    | refine modGport_only _ _ (by decide) ?_

theorem toPort_only (a1) (a2) {gs : List Group} {s t : State} (m : [.mbx, .log, .vane, .net, .link, .out, .freeCtr] ⊆ gs) (k : Only gs s t) :
    Only gs s (Machine.toPort a1 a2 t) := by
  refine Only.after (hs := [.mbx, .log, .vane, .net, .link, .out, .freeCtr]) ?_ m k
  clear m k
  unfold Machine.toPort
  try dsimp only
  repeat' first
    | with_reducible first
      | exact Only.refl
      | refine discardPacket_only _ (by decide) ?_
      | refine modGport_only _ _ (by decide) ?_
      | refine pumpPort_only _ (by decide) ?_
    | split

theorem returnHeld_only (a1) (a2) {gs : List Group} {s t : State} (m : [.mbx, .log, .vane, .net, .link, .out, .freeCtr] ⊆ gs) (k : Only gs s t) :
    Only gs s (Machine.returnHeld a1 a2 t) := by
  refine Only.after (hs := [.mbx, .log, .vane, .net, .link, .out, .freeCtr]) ?_ m k
  clear m k
  unfold Machine.returnHeld
  try dsimp only
  repeat' with_reducible first
    | exact Only.refl
    | refine discardAll_only _ (by decide) ?_
    | refine modSChan_only _ _ _ (by decide) ?_

theorem channelDown_only (a1) (a2) {gs : List Group} {s t : State} (m : [.mbx, .log, .vane, .net, .sealed, .link, .out, .freeCtr] ⊆ gs) (k : Only gs s t) :
    Only gs s (Machine.channelDown a1 a2 t) := by
  refine Only.after (hs := [.mbx, .log, .vane, .net, .sealed, .link, .out, .freeCtr]) ?_ m k
  clear m k
  unfold Machine.channelDown
  try dsimp only
  repeat' first
    | with_reducible first
      | exact Only.refl
      | refine modSChan_only _ _ _ (by decide) ?_
      | refine returnHeld_only _ _ (by decide) ?_
      | refine completeAwait_only _ _ (by decide) ?_
      | refine suspendCx_only _ (by decide) ?_
    | split

theorem changeover_only (a1) (a2) (a3) {gs : List Group} {s t : State} (m : [.mbx, .log, .vane, .net, .sealed, .link, .out, .freeCtr] ⊆ gs) (k : Only gs s t) :
    Only gs s (Machine.changeover a1 a2 a3 t) := by
  refine Only.after (hs := [.mbx, .log, .vane, .net, .sealed, .link, .out, .freeCtr]) ?_ m k
  clear m k
  unfold Machine.changeover
  try dsimp only
  repeat' first
    | with_reducible first
      | exact Only.refl
      | refine modSChan_only _ _ _ (by decide) ?_
      | refine logInfo_only _ _ _ _ (by decide) ?_
      | refine completeAwait_only _ _ (by decide) ?_
      | refine sendList_only _ _ (by decide) ?_
      | refine modGport_only _ _ (by decide) ?_
      | refine pumpCx_only _ (by decide) ?_
      | refine pumpPort_only _ (by decide) ?_
    | split

theorem startTraining_only (a1) {gs : List Group} {s t : State} (m : [.log, .units, .link, .out] ⊆ gs) (k : Only gs s t) :
    Only gs s (Machine.startTraining a1 t) := by
  refine Only.after (hs := [.log, .units, .link, .out]) ?_ m k
  clear m k
  unfold Machine.startTraining
  try dsimp only
  repeat' with_reducible first
    | exact Only.refl
    | refine setPortSt_only _ _ (by decide) ?_
    | refine setGport_only _ _ (by decide) ?_

theorem trainPorts_only (a1) {gs : List Group} {s t : State} (m : [.log, .units, .link, .out] ⊆ gs) (k : Only gs s t) :
    Only gs s (Machine.trainPorts a1 t) := by
  refine Only.after (hs := [.log, .units, .link, .out]) ?_ m k
  clear m k
  induction a1 generalizing t with
  | nil =>
    unfold Machine.trainPorts
    try dsimp only
    repeat' with_reducible exact Only.refl
  | cons x l ih =>
    unfold Machine.trainPorts
    try dsimp only
    repeat' first
        | with_reducible first
          | exact Only.refl
          | refine Only.trans ?_ (ih ..)
          | refine startTraining_only _ (by decide) ?_
        | split

theorem portProbationFailed_only (a1) {gs : List Group} {s t : State} (m : [.log, .units, .link, .out] ⊆ gs) (k : Only gs s t) :
    Only gs s (Machine.portProbationFailed a1 t) := by
  refine Only.after (hs := [.log, .units, .link, .out]) ?_ m k
  clear m k
  unfold Machine.portProbationFailed
  try dsimp only
  repeat' with_reducible first
    | exact Only.refl
    | refine logUe_only _ _ _ _ _ (by decide) ?_
    | refine setUnitRec_only _ _ _ (by decide) ?_

theorem trainFails_only (a1) (a2) {gs : List Group} {s t : State} (m : [.mbx, .log, .units, .link, .out] ⊆ gs) (k : Only gs s t) :
    Only gs s (Machine.trainFails a1 a2 t) := by
  refine Only.after (hs := [.mbx, .log, .units, .link, .out]) ?_ m k
  clear m k
  unfold Machine.trainFails
  try dsimp only
  repeat' first
    | with_reducible first
      | exact Only.refl
      | refine portProbationFailed_only _ (by decide) ?_
      | refine completeAwait_only _ _ (by decide) ?_
      | refine setPortSt_only _ _ (by decide) ?_
      | refine modGport_only _ _ (by decide) ?_
    | split

theorem startHandshake_only (a1) {gs : List Group} {s t : State} (m : [.link, .out, .freeCtr] ⊆ gs) (k : Only gs s t) :
    Only gs s (Machine.startHandshake a1 t) := by
  refine Only.after (hs := [.link, .out, .freeCtr]) ?_ m k
  clear m k
  unfold Machine.startHandshake
  try dsimp only
  repeat' with_reducible first
    | exact Only.refl
    | refine modGport_only _ _ (by decide) ?_
    | refine hsDrawn_only (by decide) ?_
    | refine linkFlit_only _ _ _ _ (by decide) ?_

theorem startProbation_only (a1) {gs : List Group} {s t : State} (m : [.log, .units, .link, .out] ⊆ gs) (k : Only gs s t) :
    Only gs s (Machine.startProbation a1 t) := by
  refine Only.after (hs := [.log, .units, .link, .out]) ?_ m k
  clear m k
  unfold Machine.startProbation
  try dsimp only
  repeat' with_reducible first
    | exact Only.refl
    | refine setPortSt_only _ _ (by decide) ?_
    | refine modGport_only _ _ (by decide) ?_

theorem afterIdent_only (a1) {gs : List Group} {s t : State} (m : [.log, .units, .link, .out, .freeCtr] ⊆ gs) (k : Only gs s t) :
    Only gs s (Machine.afterIdent a1 t) := by
  refine Only.after (hs := [.log, .units, .link, .out, .freeCtr]) ?_ m k
  clear m k
  unfold Machine.afterIdent
  try dsimp only
  repeat' first
    | with_reducible first
      | exact Only.refl
      | refine startProbation_only _ (by decide) ?_
      | refine startHandshake_only _ (by decide) ?_
      | refine modGport_only _ _ (by decide) ?_
    | split

theorem portUp_only (a1) {gs : List Group} {s t : State} (m : [.mbx, .log, .units, .vane, .net, .link, .out, .freeCtr] ⊆ gs) (k : Only gs s t) :
    Only gs s (Machine.portUp a1 t) := by
  refine Only.after (hs := [.mbx, .log, .units, .vane, .net, .link, .out, .freeCtr]) ?_ m k
  clear m k
  unfold Machine.portUp
  try dsimp only
  repeat' with_reducible first
    | exact Only.refl
    | refine setPortSt_only _ _ (by decide) ?_
    | refine modGport_only _ _ (by decide) ?_
    | refine pumpPort_only _ (by decide) ?_
    | refine completeAwait_only _ _ (by decide) ?_
    | refine linkFlit_only _ _ _ _ (by decide) ?_

theorem endTracked_only (a1) (a2) {gs : List Group} {s t : State} (m : [.link, .out] ⊆ gs) (k : Only gs s t) :
    Only gs s (Machine.endTracked a1 a2 t) := by
  refine Only.after (hs := [.link, .out]) ?_ m k
  clear m k
  induction a2 generalizing a1 t with
  | nil =>
    unfold Machine.endTracked
    try dsimp only
    repeat' with_reducible exact Only.refl
  | cons x l ih =>
    unfold Machine.endTracked
    try dsimp only
    repeat' with_reducible first
        | exact Only.refl
        | refine Only.trans ?_ (ih ..)
        | refine errorResponse_only _ _ (by decide) ?_
        | refine modGport_only _ _ (by decide) ?_

theorem suspendAll_only (a1) {gs : List Group} {s t : State} (m : [.log, .sealed, .link, .out] ⊆ gs) (k : Only gs s t) :
    Only gs s (Machine.suspendAll a1 t) := by
  refine Only.after (hs := [.log, .sealed, .link, .out]) ?_ m k
  clear m k
  induction a1 generalizing t with
  | nil =>
    unfold Machine.suspendAll
    try dsimp only
    repeat' with_reducible exact Only.refl
  | cons x l ih =>
    unfold Machine.suspendAll
    try dsimp only
    repeat' with_reducible first
        | exact Only.refl
        | refine Only.trans ?_ (ih ..)
        | refine suspendCx_only _ (by decide) ?_

theorem portLeaves_only (a1) (a2) {gs : List Group} {s t : State} (m : [.mbx, .log, .vane, .net, .sealed, .link, .out, .freeCtr] ⊆ gs) (k : Only gs s t) :
    Only gs s (Machine.portLeaves a1 a2 t) := by
  refine Only.after (hs := [.mbx, .log, .vane, .net, .sealed, .link, .out, .freeCtr]) ?_ m k
  clear m k
  unfold Machine.portLeaves
  try dsimp only
  repeat' first
    | with_reducible first
      | exact Only.refl
      | refine endTracked_only _ _ (by decide) ?_
      | refine modGport_only _ _ (by decide) ?_
      | refine discardAll_only _ (by decide) ?_
      | refine suspendAll_only _ (by decide) ?_
      | refine logUe_only _ _ _ _ _ (by decide) ?_
    | split

theorem replayFrom_only (a1) (a2) {gs : List Group} {s t : State} (m : [.log, .link, .out] ⊆ gs) (k : Only gs s t) :
    Only gs s (Machine.replayFrom a1 a2 t).2 := by
  refine Only.after (hs := [.log, .link, .out]) ?_ m k
  clear m k
  unfold Machine.replayFrom
  try dsimp only
  repeat' with_reducible first
    | exact Only.refl
    | refine modGport_only _ _ (by decide) ?_
    | refine logLimited_only _ _ _ _ _ _ _ (by decide) ?_
    | refine send_only _ (by decide) ?_

theorem enterMesh_only (a1) (a2) (a3) {gs : List Group} {s t : State} (m : [.mbx, .log, .vane, .net, .coll, .link, .out, .freeCtr] ⊆ gs) (k : Only gs s t) :
    Only gs s (Machine.enterMesh a1 a2 a3 t) := by
  refine Only.after (hs := [.mbx, .log, .vane, .net, .coll, .link, .out, .freeCtr]) ?_ m k
  clear m k
  unfold Machine.enterMesh
  try dsimp only
  repeat' first
    | with_reducible first
      | exact Only.refl
      | refine discardPacket_only _ (by decide) ?_
      | refine launchMcast_only _ _ (by decide) ?_
      | refine logLimitedAt_only _ _ _ _ _ _ _ _ (by decide) ?_
      | refine netCount_only _ _ (by decide) ?_
      | refine launch_only _ _ (by decide) ?_
    | split

theorem drainGust_only (a1) {gs : List Group} {s t : State} (m : [.mbx, .log, .vane, .net, .coll, .link, .out, .freeCtr] ⊆ gs) (k : Only gs s t) :
    Only gs s (Machine.drainGust a1 t) := by
  refine Only.after (hs := [.mbx, .log, .vane, .net, .coll, .link, .out, .freeCtr]) ?_ m k
  clear m k
  induction a1 generalizing t with
  | nil =>
    unfold Machine.drainGust
    try dsimp only
    repeat' with_reducible exact Only.refl
  | cons x l ih =>
    unfold Machine.drainGust
    try dsimp only
    repeat' first
        | with_reducible first
          | exact Only.refl
          | refine Only.trans ?_ (ih ..)
          | refine enterMesh_only _ _ _ (by decide) ?_
          | fail_if_no_progress refine Only.atNet (by decide) ?_
        | split

theorem drainGusts_only {gs : List Group} {s t : State} (m : [.mbx, .log, .vane, .net, .coll, .link, .out, .freeCtr] ⊆ gs) (k : Only gs s t) :
    Only gs s (Machine.drainGusts t) := by
  refine Only.after (hs := [.mbx, .log, .vane, .net, .coll, .link, .out, .freeCtr]) ?_ m k
  clear m k
  unfold Machine.drainGusts
  try dsimp only
  repeat' with_reducible first
    | exact Only.refl
    | refine drainGust_only _ (by decide) ?_
    | fail_if_no_progress refine Only.atNet (by decide) ?_

theorem inject_only (a1) (a2) (a3) {gs : List Group} {s t : State} (m : [.mbx, .log, .vane, .net, .coll, .link, .out, .freeCtr] ⊆ gs) (k : Only gs s t) :
    Only gs s (Machine.inject a1 a2 a3 t) := by
  refine Only.after (hs := [.mbx, .log, .vane, .net, .coll, .link, .out, .freeCtr]) ?_ m k
  clear m k
  unfold Machine.inject
  try dsimp only
  repeat' first
    | with_reducible first
      | exact Only.refl
      | refine modGport_only _ _ (by decide) ?_
      | refine drainGusts_only (by decide) ?_
      | fail_if_no_progress refine Only.atNet (by decide) ?_
    | split

theorem answerArrives_only {gs : List Group} (a1) (a2) (a3) (a4) (h4 : ∀ x0, Only gs x0 (a4 x0)) {s t : State} (m : [.log, .link, .out] ⊆ gs) (k : Only gs s t) :
    Only gs s (Machine.answerArrives a1 a2 a3 a4 t) := by
  unfold Machine.answerArrives
  try dsimp only
  repeat' first
    | with_reducible first
      | exact k
      | refine Only.trans ?_ (h4 ..)
      | refine logInfo_only _ _ _ _ (List.Subset.trans (by decide) m) ?_
      | refine modGport_only _ _ (List.Subset.trans (by decide) m) ?_
    | split

end Sys2Proof.Laws
end

