-- ==== Sys2Proof/Laws/Service.lean ====
section
/-!
SUPPORT. Which groups of state each operation of Machine/Service.lean changes; it keeps every other group and the forms of the
memory and of the event ring.
-/
namespace Sys2Proof.Laws

open Sys2Proof.Machine

theorem startFrame_only (a1) {gs : List Group} {s t : State} (m : [.pwr, .out] ⊆ gs) (k : Only gs s t) :
    Only gs s (Machine.startFrame a1 t) := by
  refine Only.after (hs := [.pwr, .out]) ?_ m k
  clear m k
  unfold Machine.startFrame
  try dsimp only
  repeat' first
    | with_reducible first
      | exact Only.refl
      | refine send_only _ (by decide) ?_
      | fail_if_no_progress refine Only.atPwr (by decide) ?_
    | split

theorem pushFrame_only (a1) {gs : List Group} {s t : State} (m : [.pwr, .out] ⊆ gs) (k : Only gs s t) :
    Only gs s (Machine.pushFrame a1 t) := by
  refine Only.after (hs := [.pwr, .out]) ?_ m k
  clear m k
  unfold Machine.pushFrame
  try dsimp only
  repeat' first
    | with_reducible first
      | exact Only.refl
      | refine startFrame_only _ (by decide) ?_
      | fail_if_no_progress refine Only.atPwr (by decide) ?_
    | split

theorem pushFrames_only (a1) {gs : List Group} {s t : State} (m : [.pwr, .out] ⊆ gs) (k : Only gs s t) :
    Only gs s (Machine.pushFrames a1 t) := by
  refine Only.after (hs := [.pwr, .out]) ?_ m k
  clear m k
  induction a1 generalizing t with
  | nil =>
    unfold Machine.pushFrames
    try dsimp only
    repeat' with_reducible exact Only.refl
  | cons x l ih =>
    unfold Machine.pushFrames
    try dsimp only
    repeat' with_reducible first
        | exact Only.refl
        | refine Only.trans ?_ (ih ..)
        | refine pushFrame_only _ (by decide) ?_

theorem nextFrame_only {gs : List Group} {s t : State} (m : [.pwr, .out] ⊆ gs) (k : Only gs s t) :
    Only gs s (Machine.nextFrame t) := by
  refine Only.after (hs := [.pwr, .out]) ?_ m k
  clear m k
  unfold Machine.nextFrame
  try dsimp only
  repeat' first
    | with_reducible first
      | exact Only.refl
      | refine startFrame_only _ (by decide) ?_
      | fail_if_no_progress refine Only.atPwr (by decide) ?_
    | split

theorem modRail_only (a1) (a2) (a3) {gs : List Group} {s t : State} (m : [.pwr] ⊆ gs) (k : Only gs s t) :
    Only gs s (Machine.modRail a1 a2 a3 t) := by
  refine Only.after (hs := [.pwr]) ?_ m k
  clear m k
  unfold Machine.modRail
  try dsimp only
  repeat' with_reducible first | exact Only.refl | fail_if_no_progress refine Only.atPwr (by decide) ?_

theorem discardGroup_only (a1) {gs : List Group} {s t : State} (m : [.serve] ⊆ gs) (k : Only gs s t) :
    Only gs s (Machine.discardGroup a1 t) := by
  refine Only.after (hs := [.serve]) ?_ m k
  clear m k
  unfold Machine.discardGroup
  try dsimp only
  repeat' first
    | with_reducible first | exact Only.refl | fail_if_no_progress refine Only.atServe (by decide) ?_
    | split

theorem revokeCluster_only (a1) {gs : List Group} {s t : State} (m : [.pwr, .bond, .serve] ⊆ gs) (k : Only gs s t) :
    Only gs s (Machine.revokeCluster a1 t) := by
  refine Only.after (hs := [.pwr, .bond, .serve]) ?_ m k
  clear m k
  unfold Machine.revokeCluster
  try dsimp only
  repeat' with_reducible first
    | exact Only.refl
    | refine discardGroup_only _ (by decide) ?_
    | fail_if_no_progress refine Only.atPwr (by decide) ?_
    | fail_if_no_progress refine Only.atBond (by decide) ?_

theorem revokeHeld_only (a1) (a2) {gs : List Group} {s t : State} (m : [.pwr, .log, .net, .coll, .lull, .bond, .serve, .link, .out] ⊆ gs) (k : Only gs s t) :
    Only gs s (Machine.revokeHeld a1 a2 t) := by
  refine Only.after (hs := [.pwr, .log, .net, .coll, .lull, .bond, .serve, .link, .out]) ?_ m k
  clear m k
  unfold Machine.revokeHeld
  try dsimp only
  repeat' first
    | with_reducible first
      | exact Only.refl
      | refine revokeCluster_only _ (by decide) ?_
      | refine breakWindowsOf_only _ _ _ (by decide) ?_
      | refine loseUnitContribs_only _ _ (by decide) ?_
      | refine poisonFor_only _ _ _ (by decide) ?_
    | split

theorem revoke_only (a1) (a2) {gs : List Group} {s t : State} (m : [.pwr, .log, .net, .coll, .lull, .bond, .serve, .link, .out] ⊆ gs) (k : Only gs s t) :
    Only gs s (Machine.revoke a1 a2 t) := by
  refine Only.after (hs := [.pwr, .log, .net, .coll, .lull, .bond, .serve, .link, .out]) ?_ m k
  clear m k
  unfold Machine.revoke
  try dsimp only
  repeat' with_reducible first
    | exact Only.refl
    | refine rebuildRoutes_only (by decide) ?_
    | refine revokeHeld_only _ _ (by decide) ?_

theorem markFaulted_only (a1) (a2) (a3) {gs : List Group} {s t : State} (m : [.units] ⊆ gs) (k : Only gs s t) :
    Only gs s (Machine.markFaulted a1 a2 a3 t) := by
  refine Only.after (hs := [.units]) ?_ m k
  clear m k
  unfold Machine.markFaulted
  try dsimp only
  repeat' with_reducible first | exact Only.refl | refine setUnitRec_only _ _ _ (by decide) ?_

theorem fenceUnit_only (a1) (a2) (a3) {gs : List Group} {s t : State} (m : [.pwr, .log, .units, .net, .coll, .lull, .bond, .serve, .link, .out] ⊆ gs) (k : Only gs s t) :
    Only gs s (Machine.fenceUnit a1 a2 a3 t) := by
  refine Only.after (hs := [.pwr, .log, .units, .net, .coll, .lull, .bond, .serve, .link, .out]) ?_ m k
  clear m k
  unfold Machine.fenceUnit
  try dsimp only
  repeat' with_reducible first
    | exact Only.refl
    | refine logUe_only _ _ _ _ _ (by decide) ?_
    | refine revoke_only _ _ (by decide) ?_
    | refine markFaulted_only _ _ _ (by decide) ?_

theorem offlineUnit_only (a1) (a2) {gs : List Group} {s t : State} (m : [.pwr, .log, .units, .net, .coll, .lull, .bond, .serve, .link, .out] ⊆ gs) (k : Only gs s t) :
    Only gs s (Machine.offlineUnit a1 a2 t) := by
  refine Only.after (hs := [.pwr, .log, .units, .net, .coll, .lull, .bond, .serve, .link, .out]) ?_ m k
  clear m k
  unfold Machine.offlineUnit
  try dsimp only
  repeat' with_reducible first
    | exact Only.refl
    | refine logInfo_only _ _ _ _ (by decide) ?_
    | refine setUnitSt_only _ _ _ (by decide) ?_
    | refine revokeHeld_only _ _ (by decide) ?_

theorem fenceAll_only (a1) (a2) (a3) {gs : List Group} {s t : State} (m : [.pwr, .log, .units, .net, .coll, .lull, .bond, .serve, .link, .out] ⊆ gs) (k : Only gs s t) :
    Only gs s (Machine.fenceAll a1 a2 a3 t) := by
  refine Only.after (hs := [.pwr, .log, .units, .net, .coll, .lull, .bond, .serve, .link, .out]) ?_ m k
  clear m k
  induction a3 generalizing a1 a2 t with
  | nil =>
    unfold Machine.fenceAll
    try dsimp only
    repeat' with_reducible exact Only.refl
  | cons x l ih =>
    unfold Machine.fenceAll
    try dsimp only
    repeat' with_reducible first
        | exact Only.refl
        | refine Only.trans ?_ (ih ..)
        | refine fenceUnit_only _ _ _ (by decide) ?_

theorem fenceTile_only (a1) (a2) {gs : List Group} {s t : State} (m : [.pwr, .log, .units, .net, .coll, .lull, .bond, .serve, .link, .out] ⊆ gs) (k : Only gs s t) :
    Only gs s (Machine.fenceTile a1 a2 t) := by
  refine Only.after (hs := [.pwr, .log, .units, .net, .coll, .lull, .bond, .serve, .link, .out]) ?_ m k
  clear m k
  unfold Machine.fenceTile
  try dsimp only
  repeat' with_reducible first
    | exact Only.refl
    | refine markFaulted_only _ _ _ (by decide) ?_
    | refine fenceAll_only _ _ _ (by decide) ?_
    | fail_if_no_progress refine Only.atPwr (by decide) ?_

theorem powerDown_only {gs : List Group} {s t : State} (m : [.clk, .pwr] ⊆ gs) (k : Only gs s t) :
    Only gs s (Machine.powerDown t) := by
  refine Only.after (hs := [.clk, .pwr]) ?_ m k
  clear m k
  unfold Machine.powerDown
  try dsimp only
  repeat' first
    | with_reducible exact Only.refl
    | with_reducible fail_if_no_progress refine Only.atClkPwr (by decide) (by decide) ?_
    | split

theorem bankTimes_only {gs : List Group} {s t : State} (m : [.start] ⊆ gs) (k : Only gs s t) :
    Only gs s (Machine.bankTimes t) := by
  refine Only.after (hs := [.start]) ?_ m k
  clear m k
  unfold Machine.bankTimes
  try dsimp only
  repeat' with_reducible first | exact Only.refl | fail_if_no_progress refine Only.atStart (by decide) ?_

theorem phaseExit_only (a1) {gs : List Group} {s t : State} (m : [.start, .log, .link, .out] ⊆ gs) (k : Only gs s t) :
    Only gs s (Machine.phaseExit a1 t) := by
  refine Only.after (hs := [.start, .log, .link, .out]) ?_ m k
  clear m k
  unfold Machine.phaseExit
  try dsimp only
  repeat' with_reducible first
    | exact Only.refl
    | refine bankTimes_only (by decide) ?_
    | refine logInfo_only _ _ _ _ (by decide) ?_

theorem enterPhase_only (a1) {gs : List Group} {s t : State} (m : [.aon, .start] ⊆ gs) (k : Only gs s t) :
    Only gs s (Machine.enterPhase a1 t) := by
  refine Only.after (hs := [.aon, .start]) ?_ m k
  clear m k
  unfold Machine.enterPhase
  try dsimp only
  repeat' first
    | with_reducible exact Only.refl
    | with_reducible fail_if_no_progress refine Only.atAonStart (by decide) (by decide) ?_

theorem noteFail_only (a1) {gs : List Group} {s t : State} (m : [.aon] ⊆ gs) (k : Only gs s t) :
    Only gs s (Machine.noteFail a1 t) := by
  refine Only.after (hs := [.aon]) ?_ m k
  clear m k
  unfold Machine.noteFail
  try dsimp only
  repeat' with_reducible first | exact Only.refl | fail_if_no_progress refine Only.atAon (by decide) ?_

theorem enterHold_only (a1) {gs : List Group} {s t : State} (m : [.aon, .start, .log, .link, .out] ⊆ gs) (k : Only gs s t) :
    Only gs s (Machine.enterHold a1 t) := by
  refine Only.after (hs := [.aon, .start, .log, .link, .out]) ?_ m k
  clear m k
  unfold Machine.enterHold
  try dsimp only
  repeat' first
    | with_reducible first | exact Only.refl | refine logInfo_only _ _ _ _ (by decide) ?_
    | with_reducible fail_if_no_progress refine Only.atAonStart (by decide) (by decide) ?_
    | split

theorem leaveHold_only {gs : List Group} {s t : State} (m : [.aon, .start] ⊆ gs) (k : Only gs s t) :
    Only gs s (Machine.leaveHold t) := by
  refine Only.after (hs := [.aon, .start]) ?_ m k
  clear m k
  unfold Machine.leaveHold
  try dsimp only
  repeat' first
    | with_reducible exact Only.refl
    | with_reducible fail_if_no_progress refine Only.atAonStart (by decide) (by decide) ?_
    | split

theorem setFailCnt_only (a1) {gs : List Group} {s t : State} (m : [.aon, .store] ⊆ gs) (k : Only gs s t) :
    Only gs s (Machine.setFailCnt a1 t) := by
  refine Only.after (hs := [.aon, .store]) ?_ m k
  clear m k
  unfold Machine.setFailCnt
  try dsimp only
  repeat' first
    | with_reducible first | exact Only.refl | fail_if_no_progress refine Only.atAon (by decide) ?_
    | with_reducible fail_if_no_progress refine Only.atAonStore (by decide) (by decide) ?_
    | split

theorem commitOne_only (a1) {gs : List Group} {s t : State} (m : [.store, .log] ⊆ gs) (k : Only gs s t) :
    Only gs s (Machine.commitOne a1 t) := by
  refine Only.after (hs := [.store, .log]) ?_ m k
  clear m k
  unfold Machine.commitOne
  try dsimp only
  repeat' first
    | with_reducible exact Only.refl
    | fail_if_no_progress ((with_reducible refine Only.atStoreLog (by decide) (by decide) ?_ ?_) <;> try exact fun w => w)
    | exact fun w => Log.commit_wf w

theorem commitList_only (a1) {gs : List Group} {s t : State} (m : [.store, .log] ⊆ gs) (k : Only gs s t) :
    Only gs s (Machine.commitList a1 t) := by
  refine Only.after (hs := [.store, .log]) ?_ m k
  clear m k
  induction a1 generalizing t with
  | nil =>
    unfold Machine.commitList
    try dsimp only
    repeat' with_reducible exact Only.refl
  | cons x l ih =>
    unfold Machine.commitList
    try dsimp only
    repeat' with_reducible first
        | exact Only.refl
        | refine Only.trans ?_ (ih ..)
        | refine commitOne_only _ (by decide) ?_

theorem loseRing_only {gs : List Group} {s t : State} (m : [.store, .log] ⊆ gs) (k : Only gs s t) :
    Only gs s (Machine.loseRing t) := by
  refine Only.after (hs := [.store, .log]) ?_ m k
  clear m k
  unfold Machine.loseRing
  try dsimp only
  repeat' first
    | with_reducible first | exact Only.refl | refine commitList_only _ (by decide) ?_
    | fail_if_no_progress ((with_reducible refine Only.atLog (by decide) ?_ ?_) <;> try exact fun w => w)
    | exact fun _ => Log.empty_wf
    | split

theorem postIrq_only (a1) (a2) (a3) {gs : List Group} {s t : State} (m : [.pins, .mbx, .link, .out] ⊆ gs) (k : Only gs s t) :
    Only gs s (Machine.postIrq a1 a2 a3 t) := by
  refine Only.after (hs := [.pins, .mbx, .link, .out]) ?_ m k
  clear m k
  unfold Machine.postIrq
  try dsimp only
  repeat' first
    | with_reducible first | exact Only.refl | refine sendMsix_only _ (by decide) ?_
    | with_reducible fail_if_no_progress refine Only.atPinsMbxOut (by decide) (by decide) (by decide) ?_
    | split

theorem postResponse_only (a1) (a2) (a3) {gs : List Group} {s t : State} (m : [.pins, .mbx, .link, .out] ⊆ gs) (k : Only gs s t) :
    Only gs s (Machine.postResponse a1 a2 a3 t) := by
  refine Only.after (hs := [.pins, .mbx, .link, .out]) ?_ m k
  clear m k
  unfold Machine.postResponse
  try dsimp only
  repeat' first
    | with_reducible first
      | exact Only.refl
      | refine send_only _ (by decide) ?_
      | refine postIrq_only _ _ _ (by decide) ?_
      | refine setBox_only _ _ (by decide) ?_
    | split

theorem unqueue_only (a1) {gs : List Group} {s t : State} (m : [.mbx] ⊆ gs) (k : Only gs s t) :
    Only gs s (Machine.unqueue a1 t) := by
  refine Only.after (hs := [.mbx]) ?_ m k
  clear m k
  unfold Machine.unqueue
  try dsimp only
  repeat' with_reducible first | exact Only.refl | fail_if_no_progress refine Only.atMbx (by decide) ?_

theorem endLease_only (a1) {gs : List Group} {s t : State} (m : [.mbx] ⊆ gs) (k : Only gs s t) :
    Only gs s (Machine.endLease a1 t) := by
  refine Only.after (hs := [.mbx]) ?_ m k
  clear m k
  unfold Machine.endLease
  try dsimp only
  repeat' first
    | with_reducible first
      | exact Only.refl
      | refine setBox_only _ _ (by decide) ?_
      | refine unqueue_only _ (by decide) ?_
    | split

theorem clearMailboxes_only {gs : List Group} {s t : State} (m : [.mbx] ⊆ gs) (k : Only gs s t) :
    Only gs s (Machine.clearMailboxes t) := by
  refine Only.after (hs := [.mbx]) ?_ m k
  clear m k
  unfold Machine.clearMailboxes
  try dsimp only
  repeat' with_reducible first | exact Only.refl | fail_if_no_progress refine Only.atMbx (by decide) ?_

theorem timeoutAtTakeover_only (a1) {gs : List Group} {s t : State} (m : [.pins, .mbx, .log, .link, .out] ⊆ gs) (k : Only gs s t) :
    Only gs s (Machine.timeoutAtTakeover a1 t) := by
  refine Only.after (hs := [.pins, .mbx, .log, .link, .out]) ?_ m k
  clear m k
  unfold Machine.timeoutAtTakeover
  try dsimp only
  repeat' first
    | with_reducible first
      | exact Only.refl
      | refine logUe_only _ _ _ _ _ (by decide) ?_
      | refine postResponse_only _ _ _ (by decide) ?_
      | refine setBox_only _ _ (by decide) ?_
    | split

theorem timeoutList_only (a1) {gs : List Group} {s t : State} (m : [.pins, .mbx, .log, .link, .out] ⊆ gs) (k : Only gs s t) :
    Only gs s (Machine.timeoutList a1 t) := by
  refine Only.after (hs := [.pins, .mbx, .log, .link, .out]) ?_ m k
  clear m k
  induction a1 generalizing t with
  | nil =>
    unfold Machine.timeoutList
    try dsimp only
    repeat' with_reducible exact Only.refl
  | cons x l ih =>
    unfold Machine.timeoutList
    try dsimp only
    repeat' with_reducible first
        | exact Only.refl
        | refine Only.trans ?_ (ih ..)
        | refine timeoutAtTakeover_only _ (by decide) ?_

theorem mailboxTakeover_only {gs : List Group} {s t : State} (m : [.aon, .pins, .mbx, .log, .link, .out] ⊆ gs) (k : Only gs s t) :
    Only gs s (Machine.mailboxTakeover t) := by
  refine Only.after (hs := [.aon, .pins, .mbx, .log, .link, .out]) ?_ m k
  clear m k
  unfold Machine.mailboxTakeover
  try dsimp only
  repeat' with_reducible first
    | exact Only.refl
    | refine timeoutList_only _ (by decide) ?_
    | fail_if_no_progress refine Only.atAon (by decide) ?_
    | fail_if_no_progress refine Only.atMbx (by decide) ?_

theorem leavePorts_only (a1) (a2) {gs : List Group} {s t : State} (m : [.mbx, .log, .vane, .net, .sealed, .link, .out, .freeCtr] ⊆ gs) (k : Only gs s t) :
    Only gs s (Machine.leavePorts a1 a2 t) := by
  refine Only.after (hs := [.mbx, .log, .vane, .net, .sealed, .link, .out, .freeCtr]) ?_ m k
  clear m k
  induction a2 generalizing a1 t with
  | nil =>
    unfold Machine.leavePorts
    try dsimp only
    repeat' with_reducible exact Only.refl
  | cons x l ih =>
    unfold Machine.leavePorts
    try dsimp only
    repeat' first
        | with_reducible first
          | exact Only.refl
          | refine Only.trans ?_ (ih ..)
          | refine portLeaves_only _ _ (by decide) ?_
        | split

theorem dieLost_only {gs : List Group} {s t : State}
    (m : [.mbx, .log, .vane, .net, .coll, .lull, .bond, .mem, .mmu, .dma, .serve, .sealed, .link, .out, .freeCtr, .bytes] ⊆ gs) (k : Only gs s t) :
    Only gs s (Machine.dieLost t) := by
  unfold Machine.dieLost
  dsimp only
  have h := breakAllWindows_only 0 (gs := gs) (s := s) (List.Subset.trans (by decide) m)
    (leavePorts_only 0 (List.range 12) (List.Subset.trans (by decide) m) k)
  generalize Machine.breakAllWindows 0 (Machine.leavePorts 0 (List.range 12) t) = u at h ⊢
  exact Only.atVaneNetCollLullBondMemMmuDmaServeSealedLinkBytes (Only.here m (by decide)) (Only.here m (by decide)) (Only.here m (by decide))
    (Only.here m (by decide)) (Only.here m (by decide)) (Only.here m (by decide)) (Only.here m (by decide))
    (Only.here m (by decide)) (Only.here m (by decide)) (Only.here m (by decide)) (Only.here m (by decide))
    (Only.here m (by decide)) (fun _ => Mem.fresh_wf) h

theorem modCxl_only (a1) (a2) {gs : List Group} {s t : State} (m : [.link] ⊆ gs) (k : Only gs s t) :
    Only gs s (Machine.modCxl a1 a2 t) := by
  refine Only.after (hs := [.link]) ?_ m k
  clear m k
  unfold Machine.modCxl
  try dsimp only
  repeat' with_reducible first | exact Only.refl | fail_if_no_progress refine Only.atLink (by decide) ?_

theorem liftFence_only (a1) (a2) {gs : List Group} {s t : State} (m : [.bond, .link] ⊆ gs) (k : Only gs s t) :
    Only gs s (Machine.liftFence a1 a2 t) := by
  refine Only.after (hs := [.bond, .link]) ?_ m k
  clear m k
  unfold Machine.liftFence
  try dsimp only
  repeat' first
    | with_reducible first
      | exact Only.refl
      | refine modCxl_only _ _ (by decide) ?_
      | fail_if_no_progress refine Only.atBond (by decide) ?_
    | split

theorem admitUnit_only (a1) (a2) {gs : List Group} {s t : State} (m : [.mbx, .log, .units, .vane, .net, .bond, .link, .out, .freeCtr] ⊆ gs) (k : Only gs s t) :
    Only gs s (Machine.admitUnit a1 a2 t) := by
  refine Only.after (hs := [.mbx, .log, .units, .vane, .net, .bond, .link, .out, .freeCtr]) ?_ m k
  clear m k
  unfold Machine.admitUnit
  try dsimp only
  repeat' first
    | with_reducible first
      | exact Only.refl
      | refine portUp_only _ (by decide) ?_
      | refine liftFence_only _ _ (by decide) ?_
      | refine setUnitSt_only _ _ _ (by decide) ?_
    | split

theorem admitUnits_only (a1) {gs : List Group} {s t : State} (m : [.mbx, .log, .units, .vane, .net, .bond, .link, .out, .freeCtr] ⊆ gs) (k : Only gs s t) :
    Only gs s (Machine.admitUnits a1 t) := by
  refine Only.after (hs := [.mbx, .log, .units, .vane, .net, .bond, .link, .out, .freeCtr]) ?_ m k
  clear m k
  induction a1 generalizing t with
  | nil =>
    unfold Machine.admitUnits
    try dsimp only
    repeat' with_reducible exact Only.refl
  | cons x l ih =>
    unfold Machine.admitUnits
    try dsimp only
    repeat' with_reducible first
        | exact Only.refl
        | refine Only.trans ?_ (ih ..)
        | refine admitUnit_only _ _ (by decide) ?_

theorem endMaint_only {gs : List Group} {s t : State} (m : [.units] ⊆ gs) (k : Only gs s t) :
    Only gs s (Machine.endMaint t) := by
  refine Only.after (hs := [.units]) ?_ m k
  clear m k
  unfold Machine.endMaint
  try dsimp only
  repeat' with_reducible first | exact Only.refl | fail_if_no_progress refine Only.atUnits (by decide) ?_

theorem noteReturn_only (a1) (a2) {gs : List Group} {s t : State} (m : [.mbx, .log, .units, .link, .out] ⊆ gs) (k : Only gs s t) :
    Only gs s (Machine.noteReturn a1 a2 t) := by
  refine Only.after (hs := [.mbx, .log, .units, .link, .out]) ?_ m k
  clear m k
  unfold Machine.noteReturn
  try dsimp only
  repeat' first
    | with_reducible first
      | exact Only.refl
      | refine logInfo_only _ _ _ _ (by decide) ?_
      | refine endMaint_only (by decide) ?_
      | refine completeAwait_only _ _ (by decide) ?_
      | fail_if_no_progress refine Only.atUnits (by decide) ?_
    | split

theorem noteReturned_only (a1) {gs : List Group} {s t : State} (m : [.mbx, .log, .units, .link, .out] ⊆ gs) (k : Only gs s t) :
    Only gs s (Machine.noteReturned a1 t) := by
  refine Only.after (hs := [.mbx, .log, .units, .link, .out]) ?_ m k
  clear m k
  induction a1 generalizing t with
  | nil =>
    unfold Machine.noteReturned
    try dsimp only
    repeat' with_reducible exact Only.refl
  | cons x l ih =>
    unfold Machine.noteReturned
    try dsimp only
    repeat' with_reducible first
        | exact Only.refl
        | refine Only.trans ?_ (ih ..)
        | refine noteReturn_only _ _ (by decide) ?_

theorem startMonitor_only {gs : List Group} {s t : State} (m : [.aon, .sealed] ⊆ gs) (k : Only gs s t) :
    Only gs s (Machine.startMonitor t) := by
  refine Only.after (hs := [.aon, .sealed]) ?_ m k
  clear m k
  unfold Machine.startMonitor
  try dsimp only
  repeat' first
    | with_reducible exact Only.refl
    | with_reducible fail_if_no_progress refine Only.atAonSealed (by decide) (by decide) ?_

theorem doldrumsPower_only {gs : List Group} {s t : State} (m : [.aon, .clk, .pwr, .sealed, .out] ⊆ gs) (k : Only gs s t) :
    Only gs s (Machine.doldrumsPower t) := by
  refine Only.after (hs := [.aon, .clk, .pwr, .sealed, .out]) ?_ m k
  clear m k
  unfold Machine.doldrumsPower
  try dsimp only
  repeat' first
    | with_reducible first
      | exact Only.refl
      | refine powerDown_only (by decide) ?_
      | refine startMonitor_only (by decide) ?_
      | refine pushFrame_only _ (by decide) ?_
      | fail_if_no_progress refine Only.atPwr (by decide) ?_
    | split

theorem enterDoldrums_only (a1) {gs : List Group} {s t : State} (m : [.aon, .pins, .clk, .pwr, .start, .store, .mbx, .log, .vane, .net, .coll, .lull, .bond, .mem, .mmu, .dma, .serve, .sealed, .link, .out, .freeCtr, .bytes] ⊆ gs) (k : Only gs s t) :
    Only gs s (Machine.enterDoldrums a1 t) := by
  refine Only.after (hs := [.aon, .pins, .clk, .pwr, .start, .store, .mbx, .log, .vane, .net, .coll, .lull, .bond, .mem, .mmu, .dma, .serve, .sealed, .link, .out, .freeCtr, .bytes]) ?_ m k
  clear m k
  unfold Machine.enterDoldrums
  try dsimp only
  repeat' first
    | with_reducible first
      | exact Only.refl
      | refine loseRing_only (by decide) ?_
      | refine logRec_only _ _ _ _ _ _ (by decide) ?_
      | refine dieLost_only (by decide) ?_
      | refine doldrumsPower_only (by decide) ?_
    | with_reducible fail_if_no_progress refine Only.atAonPinsStartStore (by decide) (by decide) (by decide) (by decide) ?_

theorem awaitRetry_only (a1) {gs : List Group} {s t : State} (m : [.aon, .pins, .clk, .pwr, .start] ⊆ gs) (k : Only gs s t) :
    Only gs s (Machine.awaitRetry a1 t) := by
  refine Only.after (hs := [.aon, .pins, .clk, .pwr, .start]) ?_ m k
  clear m k
  unfold Machine.awaitRetry
  try dsimp only
  repeat' first
    | with_reducible first
      | exact Only.refl
      | refine noteFail_only _ (by decide) ?_
      | refine powerDown_only (by decide) ?_
      | fail_if_no_progress refine Only.atPins (by decide) ?_
      | fail_if_no_progress refine Only.atStart (by decide) ?_
    | split

theorem failStart_only (a1) {gs : List Group} {s t : State} (m : [.aon, .pins, .clk, .pwr, .start, .store, .mbx, .log, .vane, .net, .coll, .lull, .bond, .mem, .mmu, .dma, .serve, .sealed, .link, .out, .freeCtr, .bytes] ⊆ gs) (k : Only gs s t) :
    Only gs s (Machine.failStart a1 t) := by
  refine Only.after (hs := [.aon, .pins, .clk, .pwr, .start, .store, .mbx, .log, .vane, .net, .coll, .lull, .bond, .mem, .mmu, .dma, .serve, .sealed, .link, .out, .freeCtr, .bytes]) ?_ m k
  clear m k
  unfold Machine.failStart
  try dsimp only
  repeat' first
    | with_reducible first
      | exact Only.refl
      | refine phaseExit_only _ (by decide) ?_
      | refine logUe_only _ _ _ _ _ (by decide) ?_
      | refine setFailCnt_only _ (by decide) ?_
      | refine enterDoldrums_only _ (by decide) ?_
      | refine awaitRetry_only _ (by decide) ?_
      | fail_if_no_progress refine Only.atStore (by decide) ?_
    | split

theorem fatalRestart_only {gs : List Group} {s t : State} (m : [.clk, .pwr, .start, .log, .units, .link, .out] ⊆ gs) (k : Only gs s t) :
    Only gs s (Machine.fatalRestart t) := by
  refine Only.after (hs := [.clk, .pwr, .start, .log, .units, .link, .out]) ?_ m k
  clear m k
  unfold Machine.fatalRestart
  try dsimp only
  repeat' first
    | with_reducible first
      | exact Only.refl
      | refine powerDown_only (by decide) ?_
      | refine logInfo_only _ _ _ _ (by decide) ?_
    | with_reducible fail_if_no_progress refine Only.atStartUnits (by decide) (by decide) ?_
    | split

theorem leaveService_only {gs : List Group} {s t : State} (m : [.aon, .pins, .clk, .pwr, .start, .store, .mbx, .log, .units, .vane, .net, .coll, .lull, .bond, .mem, .mmu, .dma, .serve, .sealed, .link, .out, .freeCtr, .bytes] ⊆ gs) (k : Only gs s t) :
    Only gs s (Machine.leaveService t) := by
  refine Only.after (hs := [.aon, .pins, .clk, .pwr, .start, .store, .mbx, .log, .units, .vane, .net, .coll, .lull, .bond, .mem, .mmu, .dma, .serve, .sealed, .link, .out, .freeCtr, .bytes]) ?_ m k
  clear m k
  unfold Machine.leaveService
  try dsimp only
  repeat' first
    | with_reducible first
      | exact Only.refl
      | refine dieLost_only (by decide) ?_
      | refine fatalRestart_only (by decide) ?_
      | refine failStart_only _ (by decide) ?_
      | fail_if_no_progress refine Only.atUnits (by decide) ?_
    | split

theorem packageFatal_only (a1) (a2) (a3) (a4) {gs : List Group} {s t : State} (m : [.aon, .pins, .clk, .pwr, .start, .store, .mbx, .log, .units, .vane, .net, .coll, .lull, .bond, .mem, .mmu, .dma, .serve, .sealed, .link, .out, .freeCtr, .bytes] ⊆ gs) (k : Only gs s t) :
    Only gs s (Machine.packageFatal a1 a2 a3 a4 t) := by
  refine Only.after (hs := [.aon, .pins, .clk, .pwr, .start, .store, .mbx, .log, .units, .vane, .net, .coll, .lull, .bond, .mem, .mmu, .dma, .serve, .sealed, .link, .out, .freeCtr, .bytes]) ?_ m k
  clear m k
  unfold Machine.packageFatal
  try dsimp only
  repeat' with_reducible first
    | exact Only.refl
    | refine leaveService_only (by decide) ?_
    | refine logRec_only _ _ _ _ _ _ (by decide) ?_

theorem takeover_only (a1) {gs : List Group} {s t : State} (m : [.aon, .pins, .clk, .pwr, .start, .store, .mbx, .log, .units, .vane, .net, .coll, .lull, .bond, .mem, .mmu, .dma, .serve, .sealed, .link, .out, .freeCtr, .bytes] ⊆ gs) (k : Only gs s t) :
    Only gs s (Machine.takeover a1 t) := by
  refine Only.after (hs := [.aon, .pins, .clk, .pwr, .start, .store, .mbx, .log, .units, .vane, .net, .coll, .lull, .bond, .mem, .mmu, .dma, .serve, .sealed, .link, .out, .freeCtr, .bytes]) ?_ m k
  clear m k
  unfold Machine.takeover
  try dsimp only
  repeat' first
    | with_reducible first
      | exact Only.refl
      | refine packageFatal_only _ _ _ _ (by decide) ?_
      | refine mailboxTakeover_only (by decide) ?_
    | with_reducible fail_if_no_progress refine Only.atAonPwr (by decide) (by decide) ?_

theorem railStep_only (a1) {gs : List Group} {s t : State} (m : [.aon, .pwr, .start, .log, .link, .out] ⊆ gs) (k : Only gs s t) :
    Only gs s (Machine.railStep a1 t) := by
  refine Only.after (hs := [.aon, .pwr, .start, .log, .link, .out]) ?_ m k
  clear m k
  unfold Machine.railStep
  try dsimp only
  repeat' first
    | with_reducible first
      | exact Only.refl
      | refine enterHold_only _ (by decide) ?_
      | refine pushFrames_only _ (by decide) ?_
      | refine enterPhase_only _ (by decide) ?_
      | refine phaseExit_only _ (by decide) ?_
      | fail_if_no_progress refine Only.atPwr (by decide) ?_
    | split

theorem railAdvance_only {gs : List Group} {s t : State} (m : [.aon, .pwr, .start, .log, .link, .out] ⊆ gs) (k : Only gs s t) :
    Only gs s (Machine.railAdvance t) := by
  refine Only.after (hs := [.aon, .pwr, .start, .log, .link, .out]) ?_ m k
  clear m k
  unfold Machine.railAdvance
  try dsimp only
  repeat' first
    | with_reducible first | exact Only.refl | refine railStep_only _ (by decide) ?_
    | split

theorem seqFail_only (a1) (a2) {gs : List Group} {s t : State} (m : [.aon, .pins, .clk, .pwr, .start, .store, .mbx, .log, .vane, .net, .coll, .lull, .bond, .mem, .mmu, .dma, .serve, .sealed, .link, .out, .freeCtr, .bytes] ⊆ gs) (k : Only gs s t) :
    Only gs s (Machine.seqFail a1 a2 t) := by
  refine Only.after (hs := [.aon, .pins, .clk, .pwr, .start, .store, .mbx, .log, .vane, .net, .coll, .lull, .bond, .mem, .mmu, .dma, .serve, .sealed, .link, .out, .freeCtr, .bytes]) ?_ m k
  clear m k
  unfold Machine.seqFail
  try dsimp only
  repeat' with_reducible first
    | exact Only.refl
    | refine powerDown_only (by decide) ?_
    | refine failStart_only _ (by decide) ?_
    | refine logRec_only _ _ _ _ _ _ (by decide) ?_
    | fail_if_no_progress refine Only.atPwr (by decide) ?_

theorem resetCause_only (a1) {gs : List Group} {s t : State} (m : [.aon] ⊆ gs) (k : Only gs s t) :
    Only gs s (Machine.resetCause a1 t) := by
  refine Only.after (hs := [.aon]) ?_ m k
  clear m k
  unfold Machine.resetCause
  try dsimp only
  repeat' with_reducible first | exact Only.refl | fail_if_no_progress refine Only.atAon (by decide) ?_

theorem packageReset_only (n) {gs : List Group} {s t : State}
    (m : [.aon, .pins, .pmx, .clk, .pwr, .start, .mbx, .log, .units, .prot, .vane, .net, .coll, .lull, .bond, .mem, .mmu, .dma, .serve, .sealed, .link, .out, .freeCtr, .bytes] ⊆ gs)
    (k : Only gs s t) : Only gs s (Machine.packageReset n t) := by
  have h := resetCause_only n (gs := gs) (s := s) (List.Subset.trans (by decide) m)
    (dieLost_only (List.Subset.trans (by decide) m) (clearMailboxes_only (List.Subset.trans (by decide) m) k))
  unfold Machine.packageReset
  dsimp only
  generalize Machine.resetCause n (Machine.dieLost (Machine.clearMailboxes t)) = u at h ⊢
  have r := fun {a b c d e f g i j v l} x y => Only.atAonPinsPmxClkPwrStartLogUnitsProtVaneLink (v0 := a) (v1 := b) (v2 := c) (v3 := d) (v4 := e)
    (v5 := f) (v6 := g) (v7 := i) (v8 := j) (v9 := v) (v10 := l) (Only.here m (by decide)) (Only.here m (by decide))
    (Only.here m (by decide)) (Only.here m (by decide)) (Only.here m (by decide)) (Only.here m (by decide)) (Only.here m (by decide))
    (Only.here m (by decide)) (Only.here m (by decide)) (Only.here m (by decide)) (Only.here m (by decide)) x y h
  split
  · exact r (fun _ => Log.empty_wf) ⟨rfl, rfl⟩
  · exact logSec_only _ _ _ _ (List.Subset.trans (by decide) m) (r (fun _ => Log.empty_wf) ⟨rfl, rfl⟩)

theorem beginStart_only {gs : List Group} {s t : State} (m : [.aon, .pins, .pmx, .pwr, .start, .store, .log, .link, .out] ⊆ gs) (k : Only gs s t) :
    Only gs s (Machine.beginStart t) := by
  refine Only.after (hs := [.aon, .pins, .pmx, .pwr, .start, .store, .log, .link, .out]) ?_ m k
  clear m k
  unfold Machine.beginStart
  try dsimp only
  repeat' first
    | with_reducible first | exact Only.refl | refine enterHold_only _ (by decide) ?_
    | with_reducible fail_if_no_progress refine Only.atAonPinsPmxPwrStartStore (by decide) (by decide) (by decide) (by decide) (by decide) (by decide) ?_
    | split

theorem hostReset_only {gs : List Group} {s t : State} (m : [.link] ⊆ gs) (k : Only gs s t) :
    Only gs s (Machine.hostReset t) := by
  refine Only.after (hs := [.link]) ?_ m k
  clear m k
  unfold Machine.hostReset
  try dsimp only
  repeat' with_reducible first | exact Only.refl | fail_if_no_progress refine Only.atLink (by decide) ?_

theorem hostPortsDown_only {gs : List Group} {s t : State} (m : [.link] ⊆ gs) (k : Only gs s t) :
    Only gs s (Machine.hostPortsDown t) := by
  refine Only.after (hs := [.link]) ?_ m k
  clear m k
  unfold Machine.hostPortsDown
  try dsimp only
  repeat' with_reducible first | exact Only.refl | fail_if_no_progress refine Only.atLink (by decide) ?_

theorem loseAtPeer_only (a1) (a2) (a3) {gs : List Group} {s t : State} (m : [.serve] ⊆ gs) (k : Only gs s t) :
    Only gs s (Machine.loseAtPeer a1 a2 a3 t) := by
  refine Only.after (hs := [.serve]) ?_ m k
  clear m k
  unfold Machine.loseAtPeer
  try dsimp only
  repeat' first
    | with_reducible first | exact Only.refl | refine setReq_only _ _ (by decide) ?_
    | split

theorem peerLost_only (a1) {gs : List Group} {s t : State} (m : [.start, .log, .units, .net, .coll, .lull, .serve, .link, .out] ⊆ gs) (k : Only gs s t) :
    Only gs s (Machine.peerLost a1 t) := by
  refine Only.after (hs := [.start, .log, .units, .net, .coll, .lull, .serve, .link, .out]) ?_ m k
  clear m k
  unfold Machine.peerLost
  try dsimp only
  repeat' first
    | with_reducible first
      | exact Only.refl
      | refine logUe_only _ _ _ _ _ (by decide) ?_
      | refine eachReq_only _ _ (fun _ _ _ => ?_) (by decide) ?_
      | refine loseAtPeer_only _ _ _ (by decide) ?_
      | refine losePeerContribs_only _ (by decide) ?_
      | refine poisonPeer_only _ _ (by decide) ?_
    | with_reducible fail_if_no_progress refine Only.atStartUnits (by decide) (by decide) ?_
    | split

theorem poisonCut_only {gs : List Group} {s t : State} (m : [.log, .lull, .link, .out] ⊆ gs) (k : Only gs s t) :
    Only gs s (Machine.poisonCut t) := by
  refine Only.after (hs := [.log, .lull, .link, .out]) ?_ m k
  clear m k
  unfold Machine.poisonCut
  try dsimp only
  repeat' first
    | with_reducible first | exact Only.refl | refine poisonAll_only _ _ (by decide) ?_
    | split

theorem gustDown_only (a1) (a2) (a3) {gs : List Group} {s t : State} (m : [.pwr, .start, .mbx, .log, .units, .vane, .net, .coll, .lull, .bond, .serve, .sealed, .link, .out, .freeCtr] ⊆ gs) (k : Only gs s t) :
    Only gs s (Machine.gustDown a1 a2 a3 t) := by
  refine Only.after (hs := [.pwr, .start, .mbx, .log, .units, .vane, .net, .coll, .lull, .bond, .serve, .sealed, .link, .out, .freeCtr]) ?_ m k
  clear m k
  unfold Machine.gustDown
  try dsimp only
  repeat' first
    | with_reducible first
      | exact Only.refl
      | refine trainFails_only _ _ (by decide) ?_
      | refine portLeaves_only _ _ (by decide) ?_
      | refine poisonCut_only (by decide) ?_
      | refine fenceUnit_only _ _ _ (by decide) ?_
      | refine peerLost_only _ (by decide) ?_
    | split

theorem portOffline_only (a1) {gs : List Group} {s t : State} (m : [.pwr, .mbx, .log, .units, .vane, .net, .coll, .lull, .bond, .serve, .sealed, .link, .out, .freeCtr] ⊆ gs) (k : Only gs s t) :
    Only gs s (Machine.portOffline a1 t) := by
  refine Only.after (hs := [.pwr, .mbx, .log, .units, .vane, .net, .coll, .lull, .bond, .serve, .sealed, .link, .out, .freeCtr]) ?_ m k
  clear m k
  unfold Machine.portOffline
  try dsimp only
  repeat' first
    | with_reducible first
      | exact Only.refl
      | refine poisonCut_only (by decide) ?_
      | refine setPortSt_only _ _ (by decide) ?_
      | refine revokeHeld_only _ _ (by decide) ?_
      | refine portLeaves_only _ _ (by decide) ?_
      | refine logInfo_only _ _ _ _ (by decide) ?_
      | refine completeAwait_only _ _ (by decide) ?_
      | refine modGport_only _ _ (by decide) ?_
      | refine startTraining_only _ (by decide) ?_
    | split

theorem peerReturns_only (a1) {gs : List Group} {s t : State} (m : [.log, .units, .link, .out] ⊆ gs) (k : Only gs s t) :
    Only gs s (Machine.peerReturns a1 t) := by
  refine Only.after (hs := [.log, .units, .link, .out]) ?_ m k
  clear m k
  unfold Machine.peerReturns
  try dsimp only
  repeat' first
    | with_reducible first
      | exact Only.refl
      | refine startTraining_only _ (by decide) ?_
      | fail_if_no_progress refine Only.atUnits (by decide) ?_
    | split

theorem loseFrames_only (a1) {gs : List Group} {s t : State} (m : [.mem, .serve] ⊆ gs) (k : Only gs s t) :
    Only gs s (Machine.loseFrames a1 t) := by
  refine Only.after (hs := [.mem, .serve]) ?_ m k
  clear m k
  induction a1 generalizing t with
  | nil =>
    unfold Machine.loseFrames
    try dsimp only
    repeat' with_reducible exact Only.refl
  | cons x l ih =>
    unfold Machine.loseFrames
    try dsimp only
    repeat' with_reducible first
        | exact Only.refl
        | refine Only.trans ?_ (ih ..)
        | refine dropIndex_only _ (by decide) ?_
        | refine modFrame_only _ _ (by decide) ?_

theorem loseStack_only (a1) {gs : List Group} {s t : State} (m : [.log, .mem, .serve, .link, .out] ⊆ gs) (k : Only gs s t) :
    Only gs s (Machine.loseStack a1 t) := by
  refine Only.after (hs := [.log, .mem, .serve, .link, .out]) ?_ m k
  clear m k
  unfold Machine.loseStack
  try dsimp only
  repeat' with_reducible first
    | exact Only.refl
    | refine logUe_only _ _ _ _ _ (by decide) ?_
    | refine loseFrames_only _ (by decide) ?_

theorem stackLost_only (a1) (a2) {gs : List Group} {s t : State} (m : [.aon, .pins, .clk, .pwr, .start, .store, .mbx, .log, .units, .vane, .net, .coll, .lull, .bond, .mem, .mmu, .dma, .serve, .sealed, .link, .out, .freeCtr, .bytes] ⊆ gs) (k : Only gs s t) :
    Only gs s (Machine.stackLost a1 a2 t) := by
  refine Only.after (hs := [.aon, .pins, .clk, .pwr, .start, .store, .mbx, .log, .units, .vane, .net, .coll, .lull, .bond, .mem, .mmu, .dma, .serve, .sealed, .link, .out, .freeCtr, .bytes]) ?_ m k
  clear m k
  unfold Machine.stackLost
  try dsimp only
  repeat' first
    | with_reducible first
      | exact Only.refl
      | refine fenceAll_only _ _ _ (by decide) ?_
      | refine fenceUnit_only _ _ _ (by decide) ?_
      | refine loseStack_only _ (by decide) ?_
      | refine packageFatal_only _ _ _ _ (by decide) ?_
    | split

theorem repairWord_only (a1) {gs : List Group} {s t : State} (m : [.log, .mem, .link, .out] ⊆ gs) (k : Only gs s t) :
    Only gs s (Machine.repairWord a1 t) := by
  refine Only.after (hs := [.log, .mem, .link, .out]) ?_ m k
  clear m k
  unfold Machine.repairWord
  try dsimp only
  repeat' first
    | with_reducible first
      | exact Only.refl
      | refine logInfo_only _ _ _ _ (by decide) ?_
      | refine logUe_only _ _ _ _ _ (by decide) ?_
      | fail_if_no_progress refine Only.atMem (by decide) rfl ?_
    | split

theorem repairWords_only (a1) {gs : List Group} {s t : State} (m : [.log, .mem, .link, .out] ⊆ gs) (k : Only gs s t) :
    Only gs s (Machine.repairWords a1 t) := by
  refine Only.after (hs := [.log, .mem, .link, .out]) ?_ m k
  clear m k
  induction a1 generalizing t with
  | nil =>
    unfold Machine.repairWords
    try dsimp only
    repeat' with_reducible exact Only.refl
  | cons x l ih =>
    unfold Machine.repairWords
    try dsimp only
    repeat' with_reducible first
        | exact Only.refl
        | refine Only.trans ?_ (ih ..)
        | refine repairWord_only _ (by decide) ?_

theorem applySliceRepairs_only {gs : List Group} {s t : State} (m : [.log, .mem, .link, .out] ⊆ gs) (k : Only gs s t) :
    Only gs s (Machine.applySliceRepairs t) := by
  refine Only.after (hs := [.log, .mem, .link, .out]) ?_ m k
  clear m k
  unfold Machine.applySliceRepairs
  try dsimp only
  repeat' with_reducible first | exact Only.refl | refine repairWords_only _ (by decide) ?_

theorem grantRoot_only (a1) {gs : List Group} {s t : State} (m : [.mem, .mmu, .bytes] ⊆ gs) (k : Only gs s t) :
    Only gs s (Machine.grantRoot a1 t) := by
  refine Only.after (hs := [.mem, .mmu, .bytes]) ?_ m k
  clear m k
  unfold Machine.grantRoot
  try dsimp only
  repeat' first
    | with_reducible first
      | exact Only.refl
      | refine setRoot_only _ _ (by decide) ?_
      | refine zeroFrames_only _ (by decide) ?_
    | split

theorem grantRoots_only (a1) {gs : List Group} {s t : State} (m : [.mem, .mmu, .bytes] ⊆ gs) (k : Only gs s t) :
    Only gs s (Machine.grantRoots a1 t) := by
  refine Only.after (hs := [.mem, .mmu, .bytes]) ?_ m k
  clear m k
  induction a1 generalizing t with
  | nil =>
    unfold Machine.grantRoots
    try dsimp only
    repeat' with_reducible exact Only.refl
  | cons x l ih =>
    unfold Machine.grantRoots
    try dsimp only
    repeat' with_reducible first
        | exact Only.refl
        | refine Only.trans ?_ (ih ..)
        | refine grantRoot_only _ (by decide) ?_

theorem buildTables_only {gs : List Group} {s t : State} (m : [.mem, .mmu, .serve, .bytes] ⊆ gs) (k : Only gs s t) :
    Only gs s (Machine.buildTables t) := by
  refine Only.after (hs := [.mem, .mmu, .serve, .bytes]) ?_ m k
  clear m k
  unfold Machine.buildTables
  try dsimp only
  repeat' first
    | with_reducible first | exact Only.refl | refine grantRoots_only _ (by decide) ?_
    | with_reducible fail_if_no_progress refine Only.atMemMmuServe (by decide) (by decide) (by decide) rfl ?_

theorem dropRoot_only (a1) {gs : List Group} {s t : State} (m : [.store, .log, .mem, .mmu, .link, .out] ⊆ gs) (k : Only gs s t) :
    Only gs s (Machine.dropRoot a1 t) := by
  refine Only.after (hs := [.store, .log, .mem, .mmu, .link, .out]) ?_ m k
  clear m k
  unfold Machine.dropRoot
  try dsimp only
  repeat' first
    | with_reducible first
      | exact Only.refl
      | refine freeFrame_only _ (by decide) ?_
      | fail_if_no_progress refine Only.atMmu (by decide) ?_
    | split

theorem partitionChanged_only (a1) (a2) (a3) {gs : List Group} {s t : State} (m : [.store, .log, .mem, .mmu, .link, .out, .bytes] ⊆ gs) (k : Only gs s t) :
    Only gs s (Machine.partitionChanged a1 a2 a3 t) := by
  refine Only.after (hs := [.store, .log, .mem, .mmu, .link, .out, .bytes]) ?_ m k
  clear m k
  unfold Machine.partitionChanged
  try dsimp only
  repeat' first
    | with_reducible first
      | exact Only.refl
      | refine dropTlb_only _ (by decide) ?_
      | refine dropRoot_only _ (by decide) ?_
      | refine grantRoot_only _ (by decide) ?_
      | fail_if_no_progress refine Only.atLink (by decide) ?_
    | split

end Sys2Proof.Laws
end

