-- ==== Sys2Proof/Laws/EdgeOps.lean ====
section
/-!
SUPPORT. Which groups of state each operation of Machine/EdgeOps.lean changes; it keeps every other group and the forms of the
memory and of the event ring.
-/
namespace Sys2Proof.Laws

open Sys2Proof.Machine

theorem endReq_only (a1) (a2) (a3) {gs : List Group} {s t : State} (m : [.store, .log, .mem, .serve, .link, .out] ⊆ gs) (k : Only gs s t) :
    Only gs s (Machine.endReq a1 a2 a3 t) := by
  refine Only.after (hs := [.store, .log, .mem, .serve, .link, .out]) ?_ m k
  clear m k
  unfold Machine.endReq
  try dsimp only
  repeat' with_reducible first
    | exact Only.refl
    | refine delReq_only _ (by decide) ?_
    | refine reclaim_only _ (by decide) ?_
    | refine reqRec_only _ _ _ _ _ (by decide) ?_

theorem tellOrigin_only (a1) (a2) {gs : List Group} {s t : State} (m : [.out] ⊆ gs) (k : Only gs s t) :
    Only gs s (Machine.tellOrigin a1 a2 t) := by
  refine Only.after (hs := [.out]) ?_ m k
  clear m k
  unfold Machine.tellOrigin
  try dsimp only
  repeat' with_reducible first | exact Only.refl | refine send_only _ (by decide) ?_

theorem commitToks_only (a1) (a2) (a3) (a4) {gs : List Group} {s t : State} (m : [.store, .log, .mem, .mmu, .serve, .sealed, .link, .out, .freeCtr, .bytes] ⊆ gs) (k : Only gs s t) :
    Only gs s (Machine.commitToks a1 a2 a3 a4 t) := by
  refine Only.after (hs := [.store, .log, .mem, .mmu, .serve, .sealed, .link, .out, .freeCtr, .bytes]) ?_ m k
  clear m k
  unfold Machine.commitToks
  try dsimp only
  repeat' first
    | with_reducible first
      | exact Only.refl
      | refine dvaWrite_only _ _ (by decide) ?_
      | refine tellOrigin_only _ _ (by decide) ?_
      | refine reqRec_only _ _ _ _ _ (by decide) ?_
      | refine endReq_only _ _ _ (by decide) ?_
      | refine setReq_only _ _ (by decide) ?_
      | fail_if_no_progress refine Only.atServe (by decide) ?_
    | split

theorem commitPrefill_only (a1) (a2) (a3) {gs : List Group} {s t : State} (m : [.store, .log, .mem, .mmu, .serve, .sealed, .link, .out, .freeCtr, .bytes] ⊆ gs) (k : Only gs s t) :
    Only gs s (Machine.commitPrefill a1 a2 a3 t) := by
  refine Only.after (hs := [.store, .log, .mem, .mmu, .serve, .sealed, .link, .out, .freeCtr, .bytes]) ?_ m k
  clear m k
  unfold Machine.commitPrefill
  try dsimp only
  repeat' first
    | with_reducible first
      | exact Only.refl
      | refine fillDraft_only _ _ (by decide) ?_
      | refine setReq_only _ _ (by decide) ?_
      | refine insertPrefix_only _ _ (by decide) ?_
      | refine commitToks_only _ _ _ _ (by decide) ?_
      | fail_if_no_progress refine Only.atServe (by decide) ?_
    | split

theorem commitEntry_only (a1) {gs : List Group} {s t : State} (m : [.store, .log, .mem, .mmu, .serve, .sealed, .link, .out, .freeCtr, .bytes] ⊆ gs) (k : Only gs s t) :
    Only gs s (Machine.commitEntry a1 t) := by
  refine Only.after (hs := [.store, .log, .mem, .mmu, .serve, .sealed, .link, .out, .freeCtr, .bytes]) ?_ m k
  clear m k
  unfold Machine.commitEntry
  try dsimp only
  repeat' first
    | with_reducible first
      | exact Only.refl
      | refine setReq_only _ _ (by decide) ?_
      | refine commitPrefill_only _ _ _ (by decide) ?_
      | refine commitToks_only _ _ _ _ (by decide) ?_
    | split

theorem commitEntries_only (a1) {gs : List Group} {s t : State} (m : [.store, .log, .mem, .mmu, .serve, .sealed, .link, .out, .freeCtr, .bytes] ⊆ gs) (k : Only gs s t) :
    Only gs s (Machine.commitEntries a1 t) := by
  refine Only.after (hs := [.store, .log, .mem, .mmu, .serve, .sealed, .link, .out, .freeCtr, .bytes]) ?_ m k
  clear m k
  induction a1 generalizing t with
  | nil =>
    unfold Machine.commitEntries
    try dsimp only
    repeat' with_reducible exact Only.refl
  | cons x l ih =>
    unfold Machine.commitEntries
    try dsimp only
    repeat' with_reducible first
        | exact Only.refl
        | refine Only.trans ?_ (ih ..)
        | refine commitEntry_only _ (by decide) ?_

theorem commitInbox_only (a1) (a2) {gs : List Group} {s t : State} (m : [.store, .log, .mem, .mmu, .serve, .sealed, .link, .out, .freeCtr, .bytes] ⊆ gs) (k : Only gs s t) :
    Only gs s (Machine.commitInbox a1 a2 t) := by
  refine Only.after (hs := [.store, .log, .mem, .mmu, .serve, .sealed, .link, .out, .freeCtr, .bytes]) ?_ m k
  clear m k
  unfold Machine.commitInbox
  try dsimp only
  repeat' first
    | with_reducible first
      | exact Only.refl
      | refine commitToks_only _ _ _ _ (by decide) ?_
      | fail_if_no_progress refine Only.atServe (by decide) ?_
    | split

theorem freeRemote_only (a1) (a2) {gs : List Group} {s t : State} (m : [.store, .log, .mem, .serve, .link, .out] ⊆ gs) (k : Only gs s t) :
    Only gs s (Machine.freeRemote a1 a2 t) := by
  refine Only.after (hs := [.store, .log, .mem, .serve, .link, .out]) ?_ m k
  clear m k
  unfold Machine.freeRemote
  try dsimp only
  repeat' first
    | with_reducible first
      | exact Only.refl
      | refine setReq_only _ _ (by decide) ?_
      | refine dropPages_only _ (by decide) ?_
    | split

theorem rebuildLost_only (a1) (a2) {gs : List Group} {s t : State} (m : [.store, .log, .mem, .serve, .link, .out] ⊆ gs) (k : Only gs s t) :
    Only gs s (Machine.rebuildLost a1 a2 t) := by
  refine Only.after (hs := [.store, .log, .mem, .serve, .link, .out]) ?_ m k
  clear m k
  unfold Machine.rebuildLost
  try dsimp only
  repeat' first
    | with_reducible first
      | exact Only.refl
      | refine rebuildReq_only _ _ (by decide) ?_
      | refine reclaim_only _ (by decide) ?_
    | split

theorem endFailedDraft_only (a1) (a2) {gs : List Group} {s t : State} (m : [.store, .log, .mem, .serve, .link, .out] ⊆ gs) (k : Only gs s t) :
    Only gs s (Machine.endFailedDraft a1 a2 t) := by
  refine Only.after (hs := [.store, .log, .mem, .serve, .link, .out]) ?_ m k
  clear m k
  unfold Machine.endFailedDraft
  try dsimp only
  repeat' first
    | with_reducible first | exact Only.refl | refine endReq_only _ _ _ (by decide) ?_
    | split

theorem finishEnding_only (a1) (a2) {gs : List Group} {s t : State} (m : [.store, .log, .mem, .serve, .link, .out] ⊆ gs) (k : Only gs s t) :
    Only gs s (Machine.finishEnding a1 a2 t) := by
  refine Only.after (hs := [.store, .log, .mem, .serve, .link, .out]) ?_ m k
  clear m k
  unfold Machine.finishEnding
  try dsimp only
  repeat' first
    | with_reducible first
      | exact Only.refl
      | refine delReq_only _ (by decide) ?_
      | refine reclaim_only _ (by decide) ?_
    | split

theorem applyCancel_only (a1) (a2) {gs : List Group} {s t : State} (m : [.store, .log, .net, .lull, .mem, .mmu, .dma, .serve, .sealed, .link, .out, .freeCtr, .bytes] ⊆ gs) (k : Only gs s t) :
    Only gs s (Machine.applyCancel a1 a2 t) := by
  refine Only.after (hs := [.store, .log, .net, .lull, .mem, .mmu, .dma, .serve, .sealed, .link, .out, .freeCtr, .bytes]) ?_ m k
  clear m k
  unfold Machine.applyCancel
  try dsimp only
  repeat' first
    | with_reducible first
      | exact Only.refl
      | refine endReq_only _ _ _ (by decide) ?_
      | refine setReq_only _ _ (by decide) ?_
      | refine send_only _ (by decide) ?_
      | refine reqRec_only _ _ _ _ _ (by decide) ?_
      | refine cancelReq_only _ _ (by decide) ?_
      | refine delReq_only _ (by decide) ?_
      | refine reclaim_only _ (by decide) ?_
    | split

theorem applyExpiry_only (a1) (a2) {gs : List Group} {s t : State} (m : [.store, .log, .mem, .serve, .link, .out] ⊆ gs) (k : Only gs s t) :
    Only gs s (Machine.applyExpiry a1 a2 t) := by
  refine Only.after (hs := [.store, .log, .mem, .serve, .link, .out]) ?_ m k
  clear m k
  unfold Machine.applyExpiry
  try dsimp only
  repeat' first
    | with_reducible first
      | exact Only.refl
      | refine endReq_only _ _ _ (by decide) ?_
      | refine logInfo_only _ _ _ _ (by decide) ?_
      | fail_if_no_progress refine Only.atServe (by decide) ?_
    | split

theorem tradeAll_only {gs : List Group} {s t : State} (m : [.serve] ⊆ gs) (k : Only gs s t) :
    Only gs s (Machine.tradeAll t) := by
  refine Only.after (hs := [.serve]) ?_ m k
  clear m k
  unfold Machine.tradeAll
  try dsimp only
  repeat' with_reducible first | exact Only.refl | fail_if_no_progress refine Only.atServe (by decide) ?_

theorem takeDrift_only (a1) (a2) {gs : List Group} {s t : State} (m : [.serve] ⊆ gs) (k : Only gs s t) :
    Only gs s (Machine.takeDrift a1 a2 t) := by
  refine Only.after (hs := [.serve]) ?_ m k
  clear m k
  induction a2 generalizing a1 t with
  | nil =>
    unfold Machine.takeDrift
    try dsimp only
    repeat' with_reducible exact Only.refl
  | cons x l ih =>
    unfold Machine.takeDrift
    try dsimp only
    repeat' with_reducible first
        | exact Only.refl
        | refine Only.trans ?_ (ih ..)
        | fail_if_no_progress refine Only.atServe (by decide) ?_

theorem startCopies_only {gs : List Group} {s t : State} (m : [.serve] ⊆ gs) (k : Only gs s t) :
    Only gs s (Machine.startCopies t) := by
  refine Only.after (hs := [.serve]) ?_ m k
  clear m k
  unfold Machine.startCopies
  try dsimp only
  repeat' with_reducible first
    | exact Only.refl
    | refine eachReq_only _ _ (fun _ _ _ => ?_) (by decide) ?_
    | refine setReq_only _ _ (by decide) ?_

theorem nextDue_only {gs : List Group} {s t : State} (m : [.serve] ⊆ gs) (k : Only gs s t) :
    Only gs s (Machine.nextDue t).2 := by
  refine Only.after (hs := [.serve]) ?_ m k
  clear m k
  unfold Machine.nextDue
  try dsimp only
  repeat' with_reducible first | exact Only.refl | fail_if_no_progress refine Only.atServe (by decide) ?_

theorem moveOut_only (a1) {gs : List Group} {s t : State} (m : [.log, .serve, .link, .out] ⊆ gs) (k : Only gs s t) :
    Only gs s (Machine.moveOut a1 t) := by
  refine Only.after (hs := [.log, .serve, .link, .out]) ?_ m k
  clear m k
  unfold Machine.moveOut
  try dsimp only
  repeat' first
    | with_reducible first
      | exact Only.refl
      | refine setReq_only _ _ (by decide) ?_
      | refine nextDue_only (by decide) ?_
      | refine startCopies_only (by decide) ?_
      | refine takeDrift_only _ _ (by decide) ?_
      | refine logInfo_only _ _ _ _ (by decide) ?_
    | split

theorem stopMoveOut_only (a1) {gs : List Group} {s t : State} (m : [.serve] ⊆ gs) (k : Only gs s t) :
    Only gs s (Machine.stopMoveOut a1 t) := by
  refine Only.after (hs := [.serve]) ?_ m k
  clear m k
  unfold Machine.stopMoveOut
  try dsimp only
  repeat' first
    | with_reducible first
      | exact Only.refl
      | refine startCopies_only (by decide) ?_
      | refine setReq_only _ _ (by decide) ?_
      | refine freeDrift_only _ (by decide) ?_
    | split

theorem copyPage_only (a1) (a2) {gs : List Group} {s t : State} (m : [.mem, .bytes] ⊆ gs) (k : Only gs s t) :
    Only gs s (Machine.copyPage a1 a2 t) := by
  refine Only.after (hs := [.mem, .bytes]) ?_ m k
  clear m k
  unfold Machine.copyPage
  try dsimp only
  repeat' first
    | with_reducible exact Only.refl
    | fail_if_no_progress ((with_reducible refine Only.atBytes (by decide) (by decide) ?_ ?_) <;> try exact fun w => w)
    | exact fun w => putAll_wf _ _ _ (Tab.wf_filter w)

theorem copyPages_only (a1) {gs : List Group} {s t : State} (m : [.mem, .bytes] ⊆ gs) (k : Only gs s t) :
    Only gs s (Machine.copyPages a1 t) := by
  refine Only.after (hs := [.mem, .bytes]) ?_ m k
  clear m k
  induction a1 generalizing t with
  | nil =>
    unfold Machine.copyPages
    try dsimp only
    repeat' with_reducible exact Only.refl
  | cons x l ih =>
    unfold Machine.copyPages
    try dsimp only
    repeat' with_reducible first
        | exact Only.refl
        | refine Only.trans ?_ (ih ..)
        | refine copyPage_only _ _ (by decide) ?_

theorem finishMove_only (a1) (a2) {gs : List Group} {s t : State} (m : [.store, .log, .mem, .serve, .link, .out] ⊆ gs) (k : Only gs s t) :
    Only gs s (Machine.finishMove a1 a2 t) := by
  refine Only.after (hs := [.store, .log, .mem, .serve, .link, .out]) ?_ m k
  clear m k
  unfold Machine.finishMove
  try dsimp only
  repeat' first
    | with_reducible first
      | exact Only.refl
      | refine dropPages_only _ (by decide) ?_
      | refine logInfo_only _ _ _ _ (by decide) ?_
      | refine setReq_only _ _ (by decide) ?_
      | refine freeDrift_only _ (by decide) ?_
    | split

theorem moveIn_only (a1) {gs : List Group} {s t : State} (m : [.store, .log, .mem, .serve, .link, .out] ⊆ gs) (k : Only gs s t) :
    Only gs s (Machine.moveIn a1 t) := by
  refine Only.after (hs := [.store, .log, .mem, .serve, .link, .out]) ?_ m k
  clear m k
  unfold Machine.moveIn
  try dsimp only
  repeat' first
    | with_reducible first
      | exact Only.refl
      | refine rebuildReq_only _ _ (by decide) ?_
      | refine steward_only _ _ _ _ _ _ (by decide) ?_
      | refine markFrames_only _ _ (by decide) ?_
      | refine startCopies_only (by decide) ?_
      | refine setReq_only _ _ (by decide) ?_
    | split

theorem askMoveIn_only (a1) {gs : List Group} {s t : State} (m : [.store, .log, .mem, .serve, .link, .out] ⊆ gs) (k : Only gs s t) :
    Only gs s (Machine.askMoveIn a1 t) := by
  refine Only.after (hs := [.store, .log, .mem, .serve, .link, .out]) ?_ m k
  clear m k
  unfold Machine.askMoveIn
  try dsimp only
  repeat' first
    | with_reducible first
      | exact Only.refl
      | refine moveIn_only _ (by decide) ?_
      | refine nextDue_only (by decide) ?_
      | refine setReq_only _ _ (by decide) ?_
    | split

theorem eachId_only {gs : List Group} (a1) (a2) (h1 : ∀ x0 x1, Only gs x1 (a1 x0 x1)) {s t : State}
    (m : ([] : List Group) ⊆ gs) (k : Only gs s t) : Only gs s (Machine.eachId a1 a2 t) := by
  induction a2 generalizing t with
  | nil => exact k
  | cons x l ih => exact ih (k.trans (h1 ..))

theorem pauseReq_only (a1) (a2) (a3) {gs : List Group} {s t : State} (m : [.serve] ⊆ gs) (k : Only gs s t) :
    Only gs s (Machine.pauseReq a1 a2 a3 t) := by
  refine Only.after (hs := [.serve]) ?_ m k
  clear m k
  unfold Machine.pauseReq
  try dsimp only
  repeat' with_reducible first
    | exact Only.refl
    | refine reqRec_only _ _ _ _ _ (by decide) ?_
    | refine setReq_only _ _ (by decide) ?_

theorem applyPause_only (a1) (a2) {gs : List Group} {s t : State} (m : [.log, .serve, .link, .out] ⊆ gs) (k : Only gs s t) :
    Only gs s (Machine.applyPause a1 a2 t) := by
  refine Only.after (hs := [.log, .serve, .link, .out]) ?_ m k
  clear m k
  unfold Machine.applyPause
  try dsimp only
  repeat' first
    | with_reducible first
      | exact Only.refl
      | refine moveOut_only _ (by decide) ?_
      | refine pauseReq_only _ _ _ (by decide) ?_
      | refine setReq_only _ _ (by decide) ?_
    | split

theorem applyResume_only (a1) (a2) {gs : List Group} {s t : State} (m : [.store, .log, .mem, .serve, .link, .out] ⊆ gs) (k : Only gs s t) :
    Only gs s (Machine.applyResume a1 a2 t) := by
  refine Only.after (hs := [.store, .log, .mem, .serve, .link, .out]) ?_ m k
  clear m k
  unfold Machine.applyResume
  try dsimp only
  repeat' first
    | with_reducible first
      | exact Only.refl
      | refine stopMoveOut_only _ (by decide) ?_
      | refine modReq_only _ _ (by decide) ?_
      | refine askMoveIn_only _ (by decide) ?_
      | refine setReq_only _ _ (by decide) ?_
    | split

theorem growReq_only (a1) {gs : List Group} {s t : State} (m : [.store, .log, .mem, .serve, .link, .out] ⊆ gs) (k : Only gs s t) :
    Only gs s (Machine.growReq a1 t) := by
  refine Only.after (hs := [.store, .log, .mem, .serve, .link, .out]) ?_ m k
  clear m k
  unfold Machine.growReq
  try dsimp only
  repeat' first
    | with_reducible first
      | exact Only.refl
      | refine steward_only _ _ _ _ _ _ (by decide) ?_
      | refine setReq_only _ _ (by decide) ?_
      | refine markFrames_only _ _ (by decide) ?_
      | refine pauseReq_only _ _ _ (by decide) ?_
    | split

theorem refillReq_only (a1) {gs : List Group} {s t : State} (m : [.store, .log, .mem, .serve, .link, .out] ⊆ gs) (k : Only gs s t) :
    Only gs s (Machine.refillReq a1 t) := by
  refine Only.after (hs := [.store, .log, .mem, .serve, .link, .out]) ?_ m k
  clear m k
  unfold Machine.refillReq
  try dsimp only
  repeat' first
    | with_reducible first
      | exact Only.refl
      | refine steward_only _ _ _ _ _ _ (by decide) ?_
      | refine setReq_only _ _ (by decide) ?_
      | refine markFrames_only _ _ (by decide) ?_
    | split

theorem admitRows_only (a1) (a2) (a3) {gs : List Group} {s t : State} (m : [.store, .log, .mem, .serve, .link, .out] ⊆ gs) (k : Only gs s t) :
    Only gs s (Machine.admitRows a1 a2 a3 t).2 := by
  refine Only.after (hs := [.store, .log, .mem, .serve, .link, .out]) ?_ m k
  clear m k
  unfold Machine.admitRows
  try dsimp only
  repeat' first
    | with_reducible first
      | exact Only.refl
      | refine logLimitedAt_only _ _ _ _ _ _ _ _ (by decide) ?_
      | refine touchEntries_only _ (by decide) ?_
      | refine shareAll_only _ (by decide) ?_
      | refine steward_only _ _ _ _ _ _ (by decide) ?_
      | refine unshareAll_only _ (by decide) ?_
      | refine setReq_only _ _ (by decide) ?_
      | refine markFrames_only _ _ (by decide) ?_
    | split

theorem reexamine_only (a1) {gs : List Group} {s t : State} (m : [.store, .log, .mem, .serve, .link, .out] ⊆ gs) (k : Only gs s t) :
    Only gs s (Machine.reexamine a1 t) := by
  refine Only.after (hs := [.store, .log, .mem, .serve, .link, .out]) ?_ m k
  clear m k
  unfold Machine.reexamine
  try dsimp only
  repeat' first
    | with_reducible first
      | exact Only.refl
      | refine admitRows_only _ _ _ (by decide) ?_
      | refine reqRec_only _ _ _ _ _ (by decide) ?_
    | split

theorem applyPools_only (a1) {gs : List Group} {s t : State} (m : [.serve] ⊆ gs) (k : Only gs s t) :
    Only gs s (Machine.applyPools a1 t) := by
  refine Only.after (hs := [.serve]) ?_ m k
  clear m k
  induction a1 generalizing t with
  | nil =>
    unfold Machine.applyPools
    try dsimp only
    repeat' with_reducible exact Only.refl
  | cons x l ih =>
    unfold Machine.applyPools
    try dsimp only
    repeat' with_reducible first
        | exact Only.refl
        | refine Only.trans ?_ (ih ..)
        | refine setSpart_only _ _ (by decide) ?_

theorem applyTargets_only {gs : List Group} {s t : State} (m : [.serve] ⊆ gs) (k : Only gs s t) :
    Only gs s (Machine.applyTargets t) := by
  refine Only.after (hs := [.serve]) ?_ m k
  clear m k
  unfold Machine.applyTargets
  try dsimp only
  repeat' with_reducible first | exact Only.refl | fail_if_no_progress refine Only.atServe (by decide) ?_

theorem shiftPool_only (a1) {gs : List Group} {s t : State} (m : [.log, .serve, .link, .out] ⊆ gs) (k : Only gs s t) :
    Only gs s (Machine.shiftPool a1 t) := by
  refine Only.after (hs := [.log, .serve, .link, .out]) ?_ m k
  clear m k
  unfold Machine.shiftPool
  try dsimp only
  repeat' first
    | with_reducible first
      | exact Only.refl
      | refine logInfo_only _ _ _ _ (by decide) ?_
      | refine setSpart_only _ _ (by decide) ?_
    | split

theorem shiftPools_only {gs : List Group} {s t : State} (m : [.log, .serve, .link, .out] ⊆ gs) (k : Only gs s t) :
    Only gs s (Machine.shiftPools t) := by
  refine Only.after (hs := [.log, .serve, .link, .out]) ?_ m k
  clear m k
  unfold Machine.shiftPools
  try dsimp only
  repeat' with_reducible first
    | exact Only.refl
    | refine eachId_only _ _ (fun _ _ => ?_) (by decide) ?_
    | refine shiftPool_only _ (by decide) ?_

theorem settleSel_only (a1) (a2) (a3) {gs : List Group} {s t : State} (m : [.serve] ⊆ gs) (k : Only gs s t) :
    Only gs s (Machine.settleSel a1 a2 a3 t) := by
  refine Only.after (hs := [.serve]) ?_ m k
  clear m k
  unfold Machine.settleSel
  try dsimp only
  repeat' first
    | with_reducible first
      | exact Only.refl
      | refine reqRec_only _ _ _ _ _ (by decide) ?_
      | refine modReq_only _ _ (by decide) ?_
      | refine stopMoveOut_only _ (by decide) ?_
      | refine setReq_only _ _ (by decide) ?_
      | refine pauseReq_only _ _ _ (by decide) ?_
    | split

theorem movePtrs_only (a1) {gs : List Group} {s t : State} (m : [.serve] ⊆ gs) (k : Only gs s t) :
    Only gs s (Machine.movePtrs a1 t) := by
  refine Only.after (hs := [.serve]) ?_ m k
  clear m k
  unfold Machine.movePtrs
  try dsimp only
  repeat' first
    | with_reducible first | exact Only.refl | refine setSpart_only _ _ (by decide) ?_
    | split
    | (refine Only.foldl (fun _ _ => ?_) _ ?_)

theorem noteFull_only (a1) {gs : List Group} {s t : State} (m : [.log, .link, .out] ⊆ gs) (k : Only gs s t) :
    Only gs s (Machine.noteFull a1 t) := by
  refine Only.after (hs := [.log, .link, .out]) ?_ m k
  clear m k
  induction a1 generalizing t with
  | nil =>
    unfold Machine.noteFull
    try dsimp only
    repeat' with_reducible exact Only.refl
  | cons x l ih =>
    unfold Machine.noteFull
    try dsimp only
    repeat' with_reducible first
        | exact Only.refl
        | refine Only.trans ?_ (ih ..)
        | refine logLimitedAt_only _ _ _ _ _ _ _ _ (by decide) ?_

theorem pokeUnits_only (a1) (a2) (a3) {gs : List Group} {s t : State} (m : [.mem, .bytes] ⊆ gs) (k : Only gs s t) :
    Only gs s (Machine.pokeUnits a1 a2 a3 t) := by
  refine Only.after (hs := [.mem, .bytes]) ?_ m k
  clear m k
  induction a2 generalizing a1 a3 t with
  | nil =>
    unfold Machine.pokeUnits
    try dsimp only
    repeat' with_reducible exact Only.refl
  | cons x l ih =>
    unfold Machine.pokeUnits
    try dsimp only
    repeat' with_reducible first
        | exact Only.refl
        | refine Only.trans ?_ (ih ..)
        | refine poke_only _ _ (by decide) ?_

theorem setProgress_only (a1) {gs : List Group} {s t : State} (m : [.bond] ⊆ gs) (k : Only gs s t) :
    Only gs s (Machine.setProgress a1 t) := by
  refine Only.after (hs := [.bond]) ?_ m k
  clear m k
  unfold Machine.setProgress
  try dsimp only
  repeat' with_reducible first | exact Only.refl | fail_if_no_progress refine Only.atBond (by decide) ?_

theorem notices_only (a1) (a2) {gs : List Group} {s t : State} (m : [.bond, .out] ⊆ gs) (k : Only gs s t) :
    Only gs s (Machine.notices a1 a2 t) := by
  refine Only.after (hs := [.bond, .out]) ?_ m k
  clear m k
  induction a2 generalizing a1 t with
  | nil =>
    unfold Machine.notices
    try dsimp only
    repeat' with_reducible exact Only.refl
  | cons x l ih =>
    unfold Machine.notices
    try dsimp only
    repeat' with_reducible first
        | exact Only.refl
        | refine Only.trans ?_ (ih ..)
        | refine send_only _ (by decide) ?_
        | refine setProgress_only _ (by decide) ?_

theorem dispatchGroup_only (a1) {gs : List Group} {s t : State} (m : [.bond, .mem, .serve, .out, .bytes] ⊆ gs) (k : Only gs s t) :
    Only gs s (Machine.dispatchGroup a1 t) := by
  refine Only.after (hs := [.bond, .mem, .serve, .out, .bytes]) ?_ m k
  clear m k
  unfold Machine.dispatchGroup
  try dsimp only
  repeat' first
    | with_reducible first
      | exact Only.refl
      | refine pokeUnits_only _ _ _ (by decide) ?_
      | refine takeUnits_only _ _ _ (by decide) ?_
      | refine notices_only _ _ (by decide) ?_
      | fail_if_no_progress refine Only.atServe (by decide) ?_
    | split

theorem freeTables_only (a1) {gs : List Group} {s t : State} (m : [.mem, .bytes] ⊆ gs) (k : Only gs s t) :
    Only gs s (Machine.freeTables a1 t) := by
  refine Only.after (hs := [.mem, .bytes]) ?_ m k
  clear m k
  induction a1 generalizing t with
  | nil =>
    unfold Machine.freeTables
    try dsimp only
    repeat' with_reducible exact Only.refl
  | cons x l ih =>
    unfold Machine.freeTables
    try dsimp only
    repeat' with_reducible first
        | exact Only.refl
        | refine Only.trans ?_ (ih ..)
        | refine freeUnit_only _ _ (by decide) ?_

theorem startTurns_only {gs : List Group} {s t : State} (m : [.serve] ⊆ gs) (k : Only gs s t) :
    Only gs s (Machine.startTurns t) := by
  refine Only.after (hs := [.serve]) ?_ m k
  clear m k
  unfold Machine.startTurns
  try dsimp only
  repeat' with_reducible first | exact Only.refl | fail_if_no_progress refine Only.atServe (by decide) ?_

theorem touchPages_only (a1) {gs : List Group} {s t : State} (m : [.mem] ⊆ gs) (k : Only gs s t) :
    Only gs s (Machine.touchPages a1 t) := by
  refine Only.after (hs := [.mem]) ?_ m k
  clear m k
  unfold Machine.touchPages
  try dsimp only
  repeat' with_reducible first | exact Only.refl | fail_if_no_progress refine Only.atMem (by decide) rfl ?_

theorem dispatch_only (a1) {gs : List Group} {s t : State} (m : [.bond, .mem, .serve, .out, .bytes] ⊆ gs) (k : Only gs s t) :
    Only gs s (Machine.dispatch a1 t) := by
  refine Only.after (hs := [.bond, .mem, .serve, .out, .bytes]) ?_ m k
  clear m k
  unfold Machine.dispatch
  try dsimp only
  repeat' with_reducible first
    | exact Only.refl
    | refine eachId_only _ _ (fun _ _ => ?_) (by decide) ?_
    | refine dispatchGroup_only _ (by decide) ?_
    | refine startTurns_only (by decide) ?_
    | refine touchPages_only _ (by decide) ?_
    | fail_if_no_progress refine Only.atServe (by decide) ?_

theorem edgeCommit_only {gs : List Group} {s t : State} (m : [.store, .log, .net, .lull, .mem, .mmu, .dma, .serve, .sealed, .link, .out, .freeCtr, .bytes] ⊆ gs) (k : Only gs s t) :
    Only gs s (Machine.edgeCommit t) := by
  refine Only.after (hs := [.store, .log, .net, .lull, .mem, .mmu, .dma, .serve, .sealed, .link, .out, .freeCtr, .bytes]) ?_ m k
  clear m k
  unfold Machine.edgeCommit
  try dsimp only
  repeat' with_reducible first
    | exact Only.refl
    | refine eachReq_only _ _ (fun _ _ _ => ?_) (by decide) ?_
    | refine freeRemote_only _ _ (by decide) ?_
    | refine commitInbox_only _ _ (by decide) ?_
    | refine commitEntries_only _ (by decide) ?_
    | refine finishMove_only _ _ (by decide) ?_
    | refine endFailedDraft_only _ _ (by decide) ?_
    | refine rebuildLost_only _ _ (by decide) ?_
    | refine applyExpiry_only _ _ (by decide) ?_
    | refine applyCancel_only _ _ (by decide) ?_
    | refine finishEnding_only _ _ (by decide) ?_

theorem makeGuests_only {gs : List Group} {s t : State} (m : [.mem, .serve] ⊆ gs) (k : Only gs s t) :
    Only gs s (Machine.makeGuests t) := by
  refine Only.after (hs := [.mem, .serve]) ?_ m k
  clear m k
  unfold Machine.makeGuests
  try dsimp only
  repeat' first
    | with_reducible first
      | exact Only.refl
      | refine markFrames_only _ _ (by decide) ?_
      | refine setReq_only _ _ (by decide) ?_
      | fail_if_no_progress refine Only.atServe (by decide) ?_
    | split
    | (refine Only.foldl (fun _ _ => ?_) _ ?_)

theorem waitPeer_only (a1) (a2) {gs : List Group} {s t : State} (m : [.log, .serve, .link, .out] ⊆ gs) (k : Only gs s t) :
    Only gs s (Machine.waitPeer a1 a2 t) := by
  refine Only.after (hs := [.log, .serve, .link, .out]) ?_ m k
  clear m k
  unfold Machine.waitPeer
  try dsimp only
  repeat' first
    | with_reducible first
      | exact Only.refl
      | refine setReq_only _ _ (by decide) ?_
      | refine logInfo_only _ _ _ _ (by decide) ?_
    | split

theorem askPeer_only (a1) (a2) {gs : List Group} {s t : State} (m : [.log, .serve, .link, .out] ⊆ gs) (k : Only gs s t) :
    Only gs s (Machine.askPeer a1 a2 t) := by
  refine Only.after (hs := [.log, .serve, .link, .out]) ?_ m k
  clear m k
  unfold Machine.askPeer
  try dsimp only
  repeat' first
    | with_reducible first
      | exact Only.refl
      | refine waitPeer_only _ _ (by decide) ?_
      | refine setReq_only _ _ (by decide) ?_
      | refine send_only _ (by decide) ?_
    | split

theorem pipelineMoveIns_only {gs : List Group} {s t : State} (m : [.store, .log, .mem, .serve, .link, .out] ⊆ gs) (k : Only gs s t) :
    Only gs s (Machine.pipelineMoveIns t) := by
  refine Only.after (hs := [.store, .log, .mem, .serve, .link, .out]) ?_ m k
  clear m k
  unfold Machine.pipelineMoveIns
  try dsimp only
  repeat' with_reducible first
    | exact Only.refl
    | refine eachId_only _ _ (fun _ _ => ?_) (by decide) ?_
    | refine askMoveIn_only _ (by decide) ?_
    | refine moveIn_only _ (by decide) ?_

theorem edgeSelect_only {gs : List Group} {s t : State} (m : [.log, .bond, .mem, .serve, .link, .out, .bytes] ⊆ gs) (k : Only gs s t) :
    Only gs s (Machine.edgeSelect t) := by
  refine Only.after (hs := [.log, .bond, .mem, .serve, .link, .out, .bytes]) ?_ m k
  clear m k
  unfold Machine.edgeSelect
  try dsimp only
  repeat' with_reducible first
    | exact Only.refl
    | refine dispatch_only _ (by decide) ?_
    | refine noteFull_only _ (by decide) ?_
    | refine movePtrs_only _ (by decide) ?_
    | refine eachReq_only _ _ (fun _ _ _ => ?_) (by decide) ?_
    | refine settleSel_only _ _ _ (by decide) ?_

theorem readContext_only (a1) (a2) {gs : List Group} {s t : State} (m : [.log, .mem, .serve, .link, .out] ⊆ gs) (k : Only gs s t) :
    Only gs s (Machine.readContext a1 a2 t) := by
  refine Only.after (hs := [.log, .mem, .serve, .link, .out]) ?_ m k
  clear m k
  unfold Machine.readContext
  try dsimp only
  repeat' first
    | with_reducible first
      | exact Only.refl
      | refine writeContext_only _ (by decide) ?_
      | refine logUe_only _ _ _ _ _ (by decide) ?_
      | refine reqRec_only _ _ _ _ _ (by decide) ?_
      | refine setReq_only _ _ (by decide) ?_
    | split

theorem setEdge_only {gs : List Group} {s t : State} (m : [.net, .lull, .link, .out] ⊆ gs) (k : Only gs s t) :
    Only gs s (Machine.setEdge t) := by
  refine Only.after (hs := [.net, .lull, .link, .out]) ?_ m k
  clear m k
  unfold Machine.setEdge
  try dsimp only
  repeat' with_reducible first
    | exact Only.refl
    | refine send_only _ (by decide) ?_
    | refine lullSet_only _ _ (by decide) ?_

theorem edgeSweep_only {gs : List Group} {s t : State} (m : [.store, .log, .mem, .serve, .link, .out, .bytes] ⊆ gs) (k : Only gs s t) :
    Only gs s (Machine.edgeSweep t) := by
  refine Only.after (hs := [.store, .log, .mem, .serve, .link, .out, .bytes]) ?_ m k
  clear m k
  unfold Machine.edgeSweep
  try dsimp only
  repeat' with_reducible first
    | exact Only.refl
    | refine sweepRetained_only (by decide) ?_
    | refine freeTables_only _ (by decide) ?_
    | fail_if_no_progress refine Only.atServe (by decide) ?_

theorem driftLose_only (a1) (a2) (a3) {gs : List Group} {s t : State} (m : [.store, .log, .mem, .serve, .link, .out] ⊆ gs) (k : Only gs s t) :
    Only gs s (Machine.driftLose a1 a2 a3 t) := by
  refine Only.after (hs := [.store, .log, .mem, .serve, .link, .out]) ?_ m k
  clear m k
  unfold Machine.driftLose
  try dsimp only
  repeat' first
    | with_reducible first
      | exact Only.refl
      | refine logUe_only _ _ _ _ _ (by decide) ?_
      | refine setReq_only _ _ (by decide) ?_
      | refine freeDrift_only _ (by decide) ?_
      | refine freeFrames_only _ (by decide) ?_
      | fail_if_no_progress refine Only.atServe (by decide) ?_
    | split

theorem driftLost_only (a1) {gs : List Group} {s t : State} (m : [.store, .log, .mem, .serve, .link, .out] ⊆ gs) (k : Only gs s t) :
    Only gs s (Machine.driftLost a1 t) := by
  refine Only.after (hs := [.store, .log, .mem, .serve, .link, .out]) ?_ m k
  clear m k
  unfold Machine.driftLost
  try dsimp only
  repeat' with_reducible first
    | exact Only.refl
    | refine startCopies_only (by decide) ?_
    | refine eachReq_only _ _ (fun _ _ _ => ?_) (by decide) ?_
    | refine driftLose_only _ _ _ (by decide) ?_

theorem cxlOut_only (a1) {gs : List Group} {s t : State} (m : [.store, .log, .mem, .serve, .link, .out] ⊆ gs) (k : Only gs s t) :
    Only gs s (Machine.cxlOut a1 t) := by
  refine Only.after (hs := [.store, .log, .mem, .serve, .link, .out]) ?_ m k
  clear m k
  unfold Machine.cxlOut
  try dsimp only
  repeat' with_reducible first
    | exact Only.refl
    | refine modCxl_only _ _ (by decide) ?_
    | refine driftLost_only _ (by decide) ?_
    | fail_if_no_progress refine Only.atServe (by decide) ?_

theorem disableVanes_only (a1) {gs : List Group} {s t : State} (m : [.vane] ⊆ gs) (k : Only gs s t) :
    Only gs s (Machine.disableVanes a1 t) := by
  refine Only.after (hs := [.vane]) ?_ m k
  clear m k
  unfold Machine.disableVanes
  try dsimp only
  repeat' with_reducible first | exact Only.refl | fail_if_no_progress refine Only.atVane (by decide) ?_

theorem offlineWith_only (a1) (a2) {gs : List Group} {s t : State} (m : [.pwr, .mbx, .log, .units, .vane, .net, .coll, .lull, .bond, .serve, .sealed, .link, .out, .freeCtr] ⊆ gs) (k : Only gs s t) :
    Only gs s (Machine.offlineWith a1 a2 t) := by
  refine Only.after (hs := [.pwr, .mbx, .log, .units, .vane, .net, .coll, .lull, .bond, .serve, .sealed, .link, .out, .freeCtr]) ?_ m k
  clear m k
  induction a2 generalizing a1 t with
  | nil =>
    unfold Machine.offlineWith
    try dsimp only
    repeat' with_reducible exact Only.refl
  | cons x l ih =>
    unfold Machine.offlineWith
    try dsimp only
    repeat' first
        | with_reducible first
          | exact Only.refl
          | refine Only.trans ?_ (ih ..)
          | refine portOffline_only _ (by decide) ?_
          | refine offlineUnit_only _ _ (by decide) ?_
        | split

theorem offlineRouter_only (a1) {gs : List Group} {s t : State} (m : [.pwr, .mbx, .log, .units, .vane, .net, .coll, .lull, .bond, .serve, .sealed, .link, .out, .freeCtr] ⊆ gs) (k : Only gs s t) :
    Only gs s (Machine.offlineRouter a1 t) := by
  refine Only.after (hs := [.pwr, .mbx, .log, .units, .vane, .net, .coll, .lull, .bond, .serve, .sealed, .link, .out, .freeCtr]) ?_ m k
  clear m k
  unfold Machine.offlineRouter
  try dsimp only
  repeat' with_reducible first
    | exact Only.refl
    | refine disableVanes_only _ (by decide) ?_
    | refine offlineWith_only _ _ (by decide) ?_

theorem offlineLost_only (a1) (a2) {gs : List Group} {s t : State} (m : [.pwr, .store, .mbx, .log, .units, .vane, .net, .coll, .lull, .bond, .mem, .serve, .sealed, .link, .out, .freeCtr] ⊆ gs) (k : Only gs s t) :
    Only gs s (Machine.offlineLost a1 a2 t) := by
  refine Only.after (hs := [.pwr, .store, .mbx, .log, .units, .vane, .net, .coll, .lull, .bond, .mem, .serve, .sealed, .link, .out, .freeCtr]) ?_ m k
  clear m k
  unfold Machine.offlineLost
  try dsimp only
  repeat' first
    | with_reducible first
      | exact Only.refl
      | refine offlineRouter_only _ (by decide) ?_
      | refine loseStack_only _ (by decide) ?_
      | refine cxlOut_only _ (by decide) ?_
    | split

theorem offlineNow_only (a1) {gs : List Group} {s t : State} (m : [.pwr, .store, .mbx, .log, .units, .vane, .net, .coll, .lull, .bond, .mem, .serve, .sealed, .link, .out, .freeCtr] ⊆ gs) (k : Only gs s t) :
    Only gs s (Machine.offlineNow a1 t) := by
  refine Only.after (hs := [.pwr, .store, .mbx, .log, .units, .vane, .net, .coll, .lull, .bond, .mem, .serve, .sealed, .link, .out, .freeCtr]) ?_ m k
  clear m k
  unfold Machine.offlineNow
  try dsimp only
  repeat' first
    | with_reducible first
      | exact Only.refl
      | refine portOffline_only _ (by decide) ?_
      | refine linkFlit_only _ _ _ _ (by decide) ?_
      | refine completeAwait_only _ _ (by decide) ?_
      | refine offlineLost_only _ _ (by decide) ?_
      | refine offlineUnit_only _ _ (by decide) ?_
    | split

theorem leaveAll_only (a1) {gs : List Group} {s t : State} (m : [.pwr, .store, .mbx, .log, .units, .vane, .net, .coll, .lull, .bond, .mem, .serve, .sealed, .link, .out, .freeCtr] ⊆ gs) (k : Only gs s t) :
    Only gs s (Machine.leaveAll a1 t) := by
  refine Only.after (hs := [.pwr, .store, .mbx, .log, .units, .vane, .net, .coll, .lull, .bond, .mem, .serve, .sealed, .link, .out, .freeCtr]) ?_ m k
  clear m k
  induction a1 generalizing t with
  | nil =>
    unfold Machine.leaveAll
    try dsimp only
    repeat' with_reducible exact Only.refl
  | cons x l ih =>
    unfold Machine.leaveAll
    try dsimp only
    repeat' first
        | with_reducible first
          | exact Only.refl
          | refine Only.trans ?_ (ih ..)
          | refine offlineNow_only _ (by decide) ?_
          | fail_if_no_progress refine Only.atUnits (by decide) ?_
        | split

theorem releaseLeaving_only {gs : List Group} {s t : State} (m : [.pwr, .store, .mbx, .log, .units, .vane, .net, .coll, .lull, .bond, .mem, .serve, .sealed, .link, .out, .freeCtr] ⊆ gs) (k : Only gs s t) :
    Only gs s (Machine.releaseLeaving t) := by
  refine Only.after (hs := [.pwr, .store, .mbx, .log, .units, .vane, .net, .coll, .lull, .bond, .mem, .serve, .sealed, .link, .out, .freeCtr]) ?_ m k
  clear m k
  unfold Machine.releaseLeaving
  try dsimp only
  repeat' with_reducible first
    | exact Only.refl
    | refine leaveAll_only _ (by decide) ?_
    | fail_if_no_progress refine Only.atUnits (by decide) ?_

theorem stepEdge_only {gs : List Group} {s t : State} (m : [.pwr, .store, .mbx, .log, .units, .vane, .net, .coll, .lull, .bond, .mem, .mmu, .dma, .serve, .sealed, .link, .out, .freeCtr, .bytes] ⊆ gs) (k : Only gs s t) :
    Only gs s (Machine.stepEdge t) := by
  refine Only.after (hs := [.pwr, .store, .mbx, .log, .units, .vane, .net, .coll, .lull, .bond, .mem, .mmu, .dma, .serve, .sealed, .link, .out, .freeCtr, .bytes]) ?_ m k
  clear m k
  unfold Machine.stepEdge
  try dsimp only
  repeat' first
    | with_reducible first
      | exact Only.refl
      | refine edgeSweep_only (by decide) ?_
      | refine edgeCommit_only (by decide) ?_
      | refine setEdge_only (by decide) ?_
      | refine tradeAll_only (by decide) ?_
      | refine eachId_only _ _ (fun _ _ => ?_) (by decide) ?_
      | refine applyResume_only _ _ (by decide) ?_
      | refine eachReq_only _ _ (fun _ _ _ => ?_) (by decide) ?_
      | refine applyPause_only _ _ (by decide) ?_
      | refine reexamine_only _ (by decide) ?_
      | refine refillReq_only _ (by decide) ?_
      | refine growReq_only _ (by decide) ?_
      | refine makeGuests_only (by decide) ?_
      | refine shiftPools_only (by decide) ?_
      | refine applyTargets_only (by decide) ?_
      | refine applyPools_only _ (by decide) ?_
      | refine readContext_only _ _ (by decide) ?_
      | refine releaseLeaving_only (by decide) ?_
      | refine edgeSelect_only (by decide) ?_
      | refine askPeer_only _ _ (by decide) ?_
      | refine pipelineMoveIns_only (by decide) ?_
      | fail_if_no_progress refine Only.atServe (by decide) ?_
    | split

end Sys2Proof.Laws
end

