-- ==== Sys2Proof/Laws/Serving.lean ====
section
/-!
SUPPORT. Which groups of state each operation of Machine/Serving.lean changes; it keeps every other group and the forms of the
memory and of the event ring.
-/
namespace Sys2Proof.Laws

open Sys2Proof.Machine

theorem decideOn_only {gs : List Group} (a1) (a2) (a3) (h3 : ∀ x0, Only gs x0 (a3 x0)) {s t : State} (m : [.mbx] ⊆ gs) (k : Only gs s t) :
    Only gs s (Machine.decideOn a1 a2 a3 t) := by
  unfold Machine.decideOn
  try dsimp only
  repeat' first
    | with_reducible first
      | exact k
      | refine Only.trans ?_ (h3 ..)
      | refine reply_only _ _ (List.Subset.trans (by decide) m) ?_
    | split

theorem allocCounter_only (a1) (a2) {gs : List Group} {s t : State} (m : [.lull, .serve] ⊆ gs) (k : Only gs s t) :
    Only gs s (Machine.allocCounter a1 a2 t) := by
  refine Only.after (hs := [.lull, .serve]) ?_ m k
  clear m k
  unfold Machine.allocCounter
  try dsimp only
  repeat' first
    | with_reducible first
      | exact Only.refl
      | refine setSpart_only _ _ (by decide) ?_
      | refine setObj_only _ _ (by decide) ?_
    | split

theorem freeEach_only (a1) (a2) (a3) {gs : List Group} {s t : State} (m : [.mem, .mmu] ⊆ gs) (k : Only gs s t) :
    Only gs s (Machine.freeEach a1 a2 a3 t) := by
  refine Only.after (hs := [.mem, .mmu]) ?_ m k
  clear m k
  induction a3 generalizing a1 a2 t with
  | nil =>
    unfold Machine.freeEach
    try dsimp only
    repeat' with_reducible exact Only.refl
  | cons x l ih =>
    unfold Machine.freeEach
    try dsimp only
    repeat' with_reducible first
        | exact Only.refl
        | refine Only.trans ?_ (ih ..)
        | refine startInval_only _ (by decide) ?_
        | refine modFrame_only _ _ (by decide) ?_

theorem execTenantSetTenant_next (a1) (t : State) :
    ∃ u, Machine.execTenantSetTenant a1 t = .next u ∧ Only [.mbx, .serve] t u := by
  refine ⟨_, rfl, ?_⟩
  try dsimp only
  repeat' with_reducible first
    | exact Only.refl
    | refine commandIf_only _ _ _ _ _ (fun _ _ => ?_) (by decide) ?_
    | refine replyDone_only _ _ _ (by decide) ?_
    | refine setTenant_only _ _ (by decide) ?_

theorem execTenantSetRing_next (a1) (t : State) :
    ∃ u, Machine.execTenantSetRing a1 t = .next u ∧ Only [.mbx, .serve] t u := by
  refine ⟨_, rfl, ?_⟩
  try dsimp only
  repeat' with_reducible first
    | exact Only.refl
    | refine commandIf_only _ _ _ _ _ (fun _ _ => ?_) (by decide) ?_
    | refine replyDone_only _ _ _ (by decide) ?_
    | refine setRing_only _ _ (by decide) ?_

theorem execTenantSetProgram_next (a1) (a2) (t : State) :
    ∃ u, Machine.execTenantSetProgram a1 a2 t = .next u ∧ Only [.store, .mbx, .log, .lull, .mem, .mmu, .serve, .sealed, .link, .out, .freeCtr] t u := by
  refine ⟨_, rfl, ?_⟩
  try dsimp only
  repeat' with_reducible first
    | exact Only.refl
    | refine commandIf_only _ _ _ _ _ (fun _ _ => ?_) (by decide) ?_
    | refine dvaRead_only _ _ (by decide) ?_
    | refine decideOn_only _ _ _ (fun _ => ?_) (by decide) ?_
    | refine drbgDraw_only (by decide) ?_
    | refine replyDone_only _ _ _ (by decide) ?_
    | refine allocCounter_only _ _ (by decide) ?_
    | refine setSpart_only _ _ (by decide) ?_

theorem execTenantSetFramesGrant_next (a1) (t : State) :
    ∃ u, Machine.execTenantSetFramesGrant a1 t = .next u ∧ Only [.store, .mbx, .log, .mem, .serve, .link, .out] t u := by
  refine ⟨_, rfl, ?_⟩
  try dsimp only
  repeat' first
    | with_reducible first
      | exact Only.refl
      | refine commandIf_only _ _ _ _ _ (fun _ _ => ?_) (by decide) ?_
      | refine steward_only _ _ _ _ _ _ (by decide) ?_
      | refine reply_only _ _ (by decide) ?_
      | refine replyDone_only _ _ _ (by decide) ?_
      | refine markFrames_only _ _ (by decide) ?_
    | split

theorem execTenantSetFramesFree_next (a1) (t : State) :
    ∃ u, Machine.execTenantSetFramesFree a1 t = .next u ∧ Only [.mbx, .mem, .mmu] t u := by
  refine ⟨_, rfl, ?_⟩
  try dsimp only
  repeat' with_reducible first
    | exact Only.refl
    | refine commandIf_only _ _ _ _ _ (fun _ _ => ?_) (by decide) ?_
    | refine setAwait_only _ _ (by decide) ?_
    | refine freeEach_only _ _ _ (by decide) ?_

theorem execPoolRatio_next (a1) (a2) (t : State) :
    ∃ u, Machine.execPoolRatio a1 a2 t = .next u ∧ Only [.mbx, .serve] t u := by
  refine ⟨_, rfl, ?_⟩
  try dsimp only
  repeat' first
    | with_reducible first
      | exact Only.refl
      | refine command_only _ _ _ _ (fun _ _ => ?_) (by decide) ?_
      | refine replyDone_only _ _ _ (by decide) ?_
      | fail_if_no_progress refine Only.atServe (by decide) ?_
    | split

theorem execServeStatus_next (a1) (t : State) :
    ∃ u, Machine.execServeStatus a1 t = .next u ∧ Only [.mbx] t u := by
  refine ⟨_, rfl, ?_⟩
  try dsimp only
  repeat' with_reducible first
    | exact Only.refl
    | refine command_only _ _ _ _ (fun _ _ => ?_) (by decide) ?_
    | refine replyDone_only _ _ _ (by decide) ?_

end Sys2Proof.Laws
end

