-- ==== Sys2Proof/Laws/Adapters.lean ====
section
/-!
SUPPORT. Which groups of state each operation of Machine/Adapters.lean changes; it keeps every other group and the forms of the
memory and of the event ring.
-/
namespace Sys2Proof.Laws

open Sys2Proof.Machine

theorem execAdapterRegister_next (a1) (t : State) :
    ∃ u, Machine.execAdapterRegister a1 t = .next u ∧ Only [.store, .mbx, .log, .mem, .mmu, .serve, .link, .out, .freeCtr] t u := by
  refine ⟨_, rfl, ?_⟩
  try dsimp only
  repeat' with_reducible first
    | exact Only.refl
    | refine command_only _ _ _ _ (fun _ _ => ?_) (by decide) ?_
    | refine dvaRead_only _ _ (by decide) ?_
    | refine decideOn_only _ _ _ (fun _ => ?_) (by decide) ?_
    | refine replyDone_only _ _ _ (by decide) ?_
    | fail_if_no_progress refine Only.atServe (by decide) ?_

theorem execAdapterRemove_next (a1) (t : State) :
    ∃ u, Machine.execAdapterRemove a1 t = .next u ∧ Only [.mbx, .serve] t u := by
  refine ⟨_, rfl, ?_⟩
  try dsimp only
  repeat' with_reducible first
    | exact Only.refl
    | refine command_only _ _ _ _ (fun _ _ => ?_) (by decide) ?_
    | refine replyDone_only _ _ _ (by decide) ?_
    | fail_if_no_progress refine Only.atServe (by decide) ?_

theorem execPrefixFlush_next (a1) (t : State) :
    ∃ u, Machine.execPrefixFlush a1 t = .next u ∧ Only [.mbx, .mem, .serve] t u := by
  refine ⟨_, rfl, ?_⟩
  try dsimp only
  repeat' with_reducible first
    | exact Only.refl
    | refine command_only _ _ _ _ (fun _ _ => ?_) (by decide) ?_
    | refine replyDone_only _ _ _ (by decide) ?_
    | refine removeEntries_only _ (by decide) ?_

theorem execDriftStatus_next (a1) (t : State) :
    ∃ u, Machine.execDriftStatus a1 t = .next u ∧ Only [.mbx] t u := by
  refine ⟨_, rfl, ?_⟩
  try dsimp only
  repeat' with_reducible first
    | exact Only.refl
    | refine command_only _ _ _ _ (fun _ _ => ?_) (by decide) ?_
    | refine replyDone_only _ _ _ (by decide) ?_

end Sys2Proof.Laws
end

