-- ==== Sys2Proof/Laws/SchedOps.lean ====
section
/-!
SUPPORT. Which groups of state each operation of Machine/SchedOps.lean changes; it keeps every other group and the forms of the
memory and of the event ring.
-/
namespace Sys2Proof.Laws

open Sys2Proof.Machine

theorem readPlaces_only (a1) {gs : List Group} {s t : State} (m : [.store, .log, .mem, .serve, .link, .out, .freeCtr] ⊆ gs) (k : Only gs s t) :
    Only gs s (Machine.readPlaces a1 t).2 := by
  refine Only.after (hs := [.store, .log, .mem, .serve, .link, .out, .freeCtr]) ?_ m k
  clear m k
  induction a1 generalizing t with
  | nil =>
    unfold Machine.readPlaces
    try dsimp only
    repeat' with_reducible exact Only.refl
  | cons x l ih =>
    unfold Machine.readPlaces
    try dsimp only
    repeat' with_reducible first
        | exact Only.refl
        | refine Only.trans ?_ (ih ..)
        | refine readPiece_only _ _ (by decide) ?_

theorem readBlock_only (a1) (a2) (a3) {gs : List Group} {s t : State} (m : [.store, .log, .mem, .serve, .link, .out, .freeCtr] ⊆ gs) (k : Only gs s t) :
    Only gs s (Machine.readBlock a1 a2 a3 t).2 := by
  refine Only.after (hs := [.store, .log, .mem, .serve, .link, .out, .freeCtr]) ?_ m k
  clear m k
  unfold Machine.readBlock
  try dsimp only
  repeat' first
    | with_reducible first
      | exact Only.refl
      | refine readPlaces_only _ (by decide) ?_
      | fail_if_no_progress refine Only.atFreeCtr (by decide) ?_
    | split

theorem readCellsFrom_only (a1) (a2) (a3) (a4) (a5) {gs : List Group} {s t : State} (m : [.store, .log, .mem, .mmu, .serve, .link, .out, .freeCtr] ⊆ gs) (k : Only gs s t) :
    Only gs s (Machine.readCellsFrom a1 a2 a3 a4 a5 t).2 := by
  refine Only.after (hs := [.store, .log, .mem, .mmu, .serve, .link, .out, .freeCtr]) ?_ m k
  clear m k
  induction a2 generalizing a1 a3 a4 a5 t with
  | zero =>
    unfold Machine.readCellsFrom
    try dsimp only
    repeat' with_reducible exact Only.refl
  | succ x ih =>
    unfold Machine.readCellsFrom
    try dsimp only
    repeat' first
        | with_reducible first
          | exact Only.refl
          | refine Only.trans ?_ (ih ..)
          | refine translate_only _ (by decide) ?_
          | refine readBlock_only _ _ _ (by decide) ?_
        | split

theorem readCells_only (a1) (a2) {gs : List Group} {s t : State} (m : [.store, .log, .mem, .mmu, .serve, .link, .out, .freeCtr] ⊆ gs) (k : Only gs s t) :
    Only gs s (Machine.readCells a1 a2 t).2 := by
  refine Only.after (hs := [.store, .log, .mem, .mmu, .serve, .link, .out, .freeCtr]) ?_ m k
  clear m k
  unfold Machine.readCells
  try dsimp only
  repeat' with_reducible first | exact Only.refl | refine readCellsFrom_only _ _ _ _ _ (by decide) ?_

theorem imageAt_only (a1) {gs : List Group} {s t : State} (m : [.store, .log, .mem, .mmu, .serve, .link, .out, .freeCtr] ⊆ gs) (k : Only gs s t) :
    Only gs s (Machine.imageAt a1 t).2 := by
  refine Only.after (hs := [.store, .log, .mem, .mmu, .serve, .link, .out, .freeCtr]) ?_ m k
  clear m k
  unfold Machine.imageAt
  try dsimp only
  repeat' first
    | with_reducible first | exact Only.refl | refine readCells_only _ _ (by decide) ?_
    | split

theorem banksAt_only (a1) {gs : List Group} {s t : State} (m : [.store, .log, .mem, .mmu, .serve, .link, .out, .freeCtr] ⊆ gs) (k : Only gs s t) :
    Only gs s (Machine.banksAt a1 t).2 := by
  refine Only.after (hs := [.store, .log, .mem, .mmu, .serve, .link, .out, .freeCtr]) ?_ m k
  clear m k
  unfold Machine.banksAt
  try dsimp only
  repeat' with_reducible first | exact Only.refl | refine readCells_only _ _ (by decide) ?_

end Sys2Proof.Laws
end

