-- ==== Sys2Proof/Laws/Net.lean ====
section
/-!
SUPPORT. Which groups of state each operation of Machine/Net.lean changes; it keeps every other group and the forms of the
memory and of the event ring.
-/
namespace Sys2Proof.Laws

open Sys2Proof.Machine

theorem refuseInject_only (a1) (a2) {gs : List Group} {s t : State} (m : [.out] ⊆ gs) (k : Only gs s t) :
    Only gs s (Machine.refuseInject a1 a2 t) := by
  refine Only.after (hs := [.out]) ?_ m k
  clear m k
  unfold Machine.refuseInject
  try dsimp only
  repeat' first
    | with_reducible first | exact Only.refl | refine errorResponse_only _ _ (by decide) ?_
    | split

theorem noteInject_only (a1) (a2) (a3) (a4) {gs : List Group} {s t : State} (m : [.log, .link, .out] ⊆ gs) (k : Only gs s t) :
    Only gs s (Machine.noteInject a1 a2 a3 a4 t) := by
  refine Only.after (hs := [.log, .link, .out]) ?_ m k
  clear m k
  unfold Machine.noteInject
  try dsimp only
  repeat' with_reducible first | exact Only.refl | refine logLimitedAt_only _ _ _ _ _ _ _ _ (by decide) ?_

theorem routeIn_only (a1) {gs : List Group} {s t : State} (m : [.log, .vane, .net, .coll, .link, .out] ⊆ gs) (k : Only gs s t) :
    Only gs s (Machine.routeIn a1 t) := by
  refine Only.after (hs := [.log, .vane, .net, .coll, .link, .out]) ?_ m k
  clear m k
  unfold Machine.routeIn
  try dsimp only
  repeat' first
    | with_reducible first
      | exact Only.refl
      | refine launchMcast_only _ _ (by decide) ?_
      | refine noteInject_only _ _ _ _ (by decide) ?_
      | refine refuseInject_only _ _ (by decide) ?_
      | refine netCount_only _ _ (by decide) ?_
      | refine launch_only _ _ (by decide) ?_
      | fail_if_no_progress refine Only.atVane (by decide) ?_
    | split

theorem injectPacket_only (a1) (a2) (a3) (a4) {gs : List Group} {s t : State} (m : [.log, .vane, .net, .coll, .link, .out] ⊆ gs) (k : Only gs s t) :
    Only gs s (Machine.injectPacket a1 a2 a3 a4 t) := by
  refine Only.after (hs := [.log, .vane, .net, .coll, .link, .out]) ?_ m k
  clear m k
  unfold Machine.injectPacket
  try dsimp only
  repeat' first
    | with_reducible first
      | exact Only.refl
      | refine refuseInject_only _ _ (by decide) ?_
      | refine routeIn_only _ (by decide) ?_
    | split

theorem fenceLink_only (a1) {gs : List Group} {s t : State} (m : [.pwr, .log, .units, .net, .coll, .lull, .bond, .serve, .link, .out] ⊆ gs) (k : Only gs s t) :
    Only gs s (Machine.fenceLink a1 t) := by
  refine Only.after (hs := [.pwr, .log, .units, .net, .coll, .lull, .bond, .serve, .link, .out]) ?_ m k
  clear m k
  unfold Machine.fenceLink
  try dsimp only
  repeat' with_reducible first | exact Only.refl | refine fenceUnit_only _ _ _ (by decide) ?_

theorem dropHit_only (a1) {gs : List Group} {s t : State} (m : [.mbx, .log, .vane, .net, .link, .out, .freeCtr] ⊆ gs) (k : Only gs s t) :
    Only gs s (Machine.dropHit a1 t) := by
  refine Only.after (hs := [.mbx, .log, .vane, .net, .link, .out, .freeCtr]) ?_ m k
  clear m k
  unfold Machine.dropHit
  try dsimp only
  repeat' first
    | with_reducible first
      | exact Only.refl
      | refine discardPacket_only _ (by decide) ?_
      | fail_if_no_progress refine Only.atNet (by decide) ?_
    | split

theorem dropBreeze_only (a1) {gs : List Group} {s t : State} (m : [.net] ⊆ gs) (k : Only gs s t) :
    Only gs s (Machine.dropBreeze a1 t) := by
  refine Only.after (hs := [.net]) ?_ m k
  clear m k
  unfold Machine.dropBreeze
  try dsimp only
  repeat' first
    | with_reducible first | exact Only.refl | fail_if_no_progress refine Only.atNet (by decide) ?_
    | split

theorem bankWrite_only (a1) (a2) (a3) (a4) {gs : List Group} {s t : State} (m : [.net] ⊆ gs) (k : Only gs s t) :
    Only gs s (Machine.bankWrite a1 a2 a3 a4 t) := by
  refine Only.after (hs := [.net]) ?_ m k
  clear m k
  induction a4 generalizing a1 a2 a3 t with
  | nil =>
    unfold Machine.bankWrite
    try dsimp only
    repeat' with_reducible exact Only.refl
  | cons x l ih =>
    unfold Machine.bankWrite
    try dsimp only
    repeat' first
        | with_reducible first
          | exact Only.refl
          | refine Only.trans ?_ (ih ..)
          | refine setBank_only _ _ (by decide) ?_
        | split

theorem switchGroups_only {gs : List Group} {s t : State} (m : [.coll] ⊆ gs) (k : Only gs s t) :
    Only gs s (Machine.switchGroups t) := by
  refine Only.after (hs := [.coll]) ?_ m k
  clear m k
  unfold Machine.switchGroups
  try dsimp only
  repeat' with_reducible first | exact Only.refl | fail_if_no_progress refine Only.atColl (by decide) ?_

theorem answerGroups_only (a1) {gs : List Group} {s t : State} (m : [.mbx] ⊆ gs) (k : Only gs s t) :
    Only gs s (Machine.answerGroups a1 t) := by
  refine Only.after (hs := [.mbx]) ?_ m k
  clear m k
  induction a1 generalizing t with
  | nil =>
    unfold Machine.answerGroups
    try dsimp only
    repeat' with_reducible exact Only.refl
  | cons x l ih =>
    unfold Machine.answerGroups
    try dsimp only
    repeat' first
        | with_reducible first
          | exact Only.refl
          | refine Only.trans ?_ (ih ..)
          | refine completeAwait_only _ _ (by decide) ?_
        | split

theorem epochBegins_only {gs : List Group} {s t : State} (m : [.mbx, .log, .units, .vane, .net, .coll, .lull, .bond, .link, .out, .freeCtr] ⊆ gs) (k : Only gs s t) :
    Only gs s (Machine.epochBegins t) := by
  refine Only.after (hs := [.mbx, .log, .units, .vane, .net, .coll, .lull, .bond, .link, .out, .freeCtr]) ?_ m k
  clear m k
  unfold Machine.epochBegins
  try dsimp only
  repeat' with_reducible first
    | exact Only.refl
    | refine rehome_only (by decide) ?_
    | refine admitUnits_only _ (by decide) ?_
    | refine switchGroups_only (by decide) ?_
    | refine lullSet_only _ _ (by decide) ?_
    | refine answerGroups_only _ (by decide) ?_
    | fail_if_no_progress refine Only.atNet (by decide) ?_

theorem drainEnds_only {gs : List Group} {s t : State} (m : [.pwr, .store, .mbx, .log, .units, .vane, .net, .coll, .lull, .bond, .mem, .serve, .sealed, .link, .out, .freeCtr] ⊆ gs) (k : Only gs s t) :
    Only gs s (Machine.drainEnds t) := by
  refine Only.after (hs := [.pwr, .store, .mbx, .log, .units, .vane, .net, .coll, .lull, .bond, .mem, .serve, .sealed, .link, .out, .freeCtr]) ?_ m k
  clear m k
  unfold Machine.drainEnds
  try dsimp only
  repeat' with_reducible first
    | exact Only.refl
    | refine logInfo_only _ _ _ _ (by decide) ?_
    | refine completeAwait_only _ _ (by decide) ?_
    | refine startNext_only (by decide) ?_
    | refine leaveAll_only _ (by decide) ?_
    | refine noteReturned_only _ (by decide) ?_
    | fail_if_no_progress refine Only.atNet (by decide) ?_

theorem openWindow_only (a1) (a2) {gs : List Group} {s t : State} (m : [.net] ⊆ gs) (k : Only gs s t) :
    Only gs s (Machine.openWindow a1 a2 t) := by
  refine Only.after (hs := [.net]) ?_ m k
  clear m k
  unfold Machine.openWindow
  try dsimp only
  repeat' first
    | with_reducible first | exact Only.refl | fail_if_no_progress refine Only.atNet (by decide) ?_
    | split

theorem takeImage_only (a1) (a2) (a3) {gs : List Group} {s t : State} (m : [.store, .mbx, .log, .net, .mem, .mmu, .serve, .link, .out, .freeCtr] ⊆ gs) (k : Only gs s t) :
    Only gs s (Machine.takeImage a1 a2 a3 t) := by
  refine Only.after (hs := [.store, .mbx, .log, .net, .mem, .mmu, .serve, .link, .out, .freeCtr]) ?_ m k
  clear m k
  unfold Machine.takeImage
  try dsimp only
  repeat' first
    | with_reducible first
      | exact Only.refl
      | refine imageAt_only _ (by decide) ?_
      | refine replyDone_only _ _ _ (by decide) ?_
      | refine trySwitch_only (by decide) ?_
      | refine setAwait_only _ _ (by decide) ?_
      | refine replyAccepted_only _ (by decide) ?_
      | refine Only.ofSnd (by assumption) ?_
      | fail_if_no_progress refine Only.atNet (by decide) ?_
    | split

theorem callerShadow_only (a1) {gs : List Group} {s t : State} (m : [.store, .log, .net, .mem, .mmu, .serve, .link, .out, .freeCtr] ⊆ gs) (k : Only gs s t) :
    Only gs s (Machine.callerShadow a1 t) := by
  refine Only.after (hs := [.store, .log, .net, .mem, .mmu, .serve, .link, .out, .freeCtr]) ?_ m k
  clear m k
  unfold Machine.callerShadow
  try dsimp only
  repeat' first
    | with_reducible first
      | exact Only.refl
      | refine banksAt_only _ (by decide) ?_
      | refine setBank_only _ _ (by decide) ?_
      | refine Only.ofSnd (by assumption) ?_
    | split

theorem execGaleInject_next (a1) (a2) (a3) (a4) (t : State) :
    ∃ u, Machine.execGaleInject a1 a2 a3 a4 t = .next u ∧ Only [.log, .vane, .net, .coll, .link, .out] t u := by
  refine ⟨_, rfl, ?_⟩
  try dsimp only
  repeat' with_reducible first | exact Only.refl | refine injectPacket_only _ _ _ _ (by decide) ?_

theorem execPromotion_next (a1) (t : State) :
    ∃ u, Machine.execPromotion a1 t = .next u ∧ Only [.net] t u := by
  refine ⟨_, rfl, ?_⟩
  try dsimp only
  repeat' first
    | with_reducible first
      | exact Only.refl
      | refine netCount_only _ _ (by decide) ?_
      | fail_if_no_progress refine Only.atNet (by decide) ?_
    | split

theorem execLinkError_next (a1) (a2) (a3) (a4) (t : State) :
    ∃ u, Machine.execLinkError a1 a2 a3 a4 t = .next u ∧ Only [.pwr, .mbx, .log, .units, .vane, .net, .coll, .lull, .bond, .serve, .link, .out, .freeCtr] t u := by
  refine ⟨_, rfl, ?_⟩
  try dsimp only
  repeat' first
    | with_reducible first
      | exact Only.refl
      | refine logLimited_only _ _ _ _ _ _ _ (by decide) ?_
      | refine netCount_only _ _ (by decide) ?_
      | refine dropHit_only _ (by decide) ?_
      | refine fenceLink_only _ (by decide) ?_
      | refine logUe_only _ _ _ _ _ (by decide) ?_
      | refine dropBreeze_only _ (by decide) ?_
      | fail_if_no_progress refine Only.atNet (by decide) ?_
    | split

theorem execRouteBankWrite_next (a1) (a2) (a3) (t : State) :
    ∃ u, Machine.execRouteBankWrite a1 a2 a3 t = .next u ∧ Only [.net, .out] t u := by
  refine ⟨_, rfl, ?_⟩
  try dsimp only
  repeat' first
    | with_reducible first
      | exact Only.refl
      | refine startEpoch_only (by decide) ?_
      | refine bankWrite_only _ _ _ _ (by decide) ?_
      | refine send_only _ (by decide) ?_
    | split

theorem execEpochSwitch_next (a1) (t : State) :
    ∃ u, Machine.execEpochSwitch a1 t = .next u ∧ Only [.mbx, .log, .units, .vane, .net, .coll, .lull, .bond, .link, .out, .freeCtr] t u := by
  refine ⟨_, rfl, ?_⟩
  try dsimp only
  repeat' first
    | with_reducible first
      | exact Only.refl
      | refine epochBegins_only (by decide) ?_
      | fail_if_no_progress refine Only.atNet (by decide) ?_
    | split

theorem execEpochDrainDone_next (t : State) :
    ∃ u, Machine.execEpochDrainDone t = .next u ∧ Only [.pwr, .store, .mbx, .log, .units, .vane, .net, .coll, .lull, .bond, .mem, .serve, .sealed, .link, .out, .freeCtr] t u := by
  refine ⟨_, rfl, ?_⟩
  try dsimp only
  repeat' first
    | with_reducible first | exact Only.refl | refine drainEnds_only (by decide) ?_
    | split

theorem execRouteDrainLate_next (t : State) :
    ∃ u, Machine.execRouteDrainLate t = .next u ∧ Only [.mbx, .log, .vane, .net, .link, .out, .freeCtr] t u := by
  refine ⟨_, rfl, ?_⟩
  try dsimp only
  repeat' first
    | with_reducible first
      | exact Only.refl
      | refine logUe_only _ _ _ _ _ (by decide) ?_
      | refine discardAll_only _ (by decide) ?_
      | fail_if_no_progress refine Only.atNet (by decide) ?_
    | split

theorem execWindowOpen_next (a1) (t : State) :
    ∃ u, Machine.execWindowOpen a1 t = .next u ∧ Only [.net] t u := by
  refine ⟨_, rfl, ?_⟩
  try dsimp only
  repeat' first
    | with_reducible first | exact Only.refl | refine openWindow_only _ _ (by decide) ?_
    | split

theorem execNetStatus_next (a1) (t : State) :
    ∃ u, Machine.execNetStatus a1 t = .next u ∧ Only [.mbx] t u := by
  refine ⟨_, rfl, ?_⟩
  try dsimp only
  repeat' with_reducible first
    | exact Only.refl
    | refine command_only _ _ _ _ (fun _ _ => ?_) (by decide) ?_
    | refine replyDone_only _ _ _ (by decide) ?_

theorem execSchedLoad_next (a1) (a2) (t : State) :
    ∃ u, Machine.execSchedLoad a1 a2 t = .next u ∧ Only [.store, .mbx, .log, .net, .mem, .mmu, .serve, .link, .out, .freeCtr] t u := by
  refine ⟨_, rfl, ?_⟩
  try dsimp only
  repeat' with_reducible first
    | exact Only.refl
    | refine command_only _ _ _ _ (fun _ _ => ?_) (by decide) ?_
    | refine takeImage_only _ _ _ (by decide) ?_
    | refine strikeAll_only _ (by decide) ?_

theorem execRouteEpoch_next (a1) (a2) (t : State) :
    ∃ u, Machine.execRouteEpoch a1 a2 t = .next u ∧ Only [.store, .mbx, .log, .net, .mem, .mmu, .serve, .link, .out, .freeCtr] t u := by
  refine ⟨_, rfl, ?_⟩
  try dsimp only
  repeat' first
    | with_reducible first
      | exact Only.refl
      | refine command_only _ _ _ _ (fun _ _ => ?_) (by decide) ?_
      | refine startEpoch_only (by decide) ?_
      | refine setAwait_only _ _ (by decide) ?_
      | refine replyAccepted_only _ (by decide) ?_
      | refine callerShadow_only _ (by decide) ?_
      | refine strikeAll_only _ (by decide) ?_
    | split

end Sys2Proof.Laws
end

