-- ==== Sys2Proof/Laws/Collectives.lean ====
section
/-!
SUPPORT. Which groups of state each operation of Machine/Collectives.lean changes; it keeps every other group and the forms of the
memory and of the event ring.
-/
namespace Sys2Proof.Laws

open Sys2Proof.Machine

theorem deliverBlock_only (a1) (a2) (a3) (a4) (a5) (a6) {gs : List Group} {s t : State} (m : [.log, .vane, .net, .coll, .link, .out, .freeCtr] ⊆ gs) (k : Only gs s t) :
    Only gs s (Machine.deliverBlock a1 a2 a3 a4 a5 a6 t) := by
  refine Only.after (hs := [.log, .vane, .net, .coll, .link, .out, .freeCtr]) ?_ m k
  clear m k
  unfold Machine.deliverBlock
  try dsimp only
  repeat' with_reducible first
    | exact Only.refl
    | refine routeIn_only _ (by decide) ?_
    | refine setRed_only _ _ (by decide) ?_
    | fail_if_no_progress refine Only.atFreeCtr (by decide) ?_

theorem finishInst_only (a1) (a2) {gs : List Group} {s t : State} (m : [.net, .coll, .lull, .link, .out] ⊆ gs) (k : Only gs s t) :
    Only gs s (Machine.finishInst a1 a2 t) := by
  refine Only.after (hs := [.net, .coll, .lull, .link, .out]) ?_ m k
  clear m k
  unfold Machine.finishInst
  try dsimp only
  repeat' first
    | with_reducible first
      | exact Only.refl
      | refine lullSet_only _ _ (by decide) ?_
      | refine setRed_only _ _ (by decide) ?_
    | split

theorem takeContrib_only (a1) (a2) (a3) (a4) (a5) (a6) (a7) (a8) {gs : List Group} {s t : State} (m : [.log, .vane, .net, .coll, .lull, .link, .out, .freeCtr] ⊆ gs) (k : Only gs s t) :
    Only gs s (Machine.takeContrib a1 a2 a3 a4 a5 a6 a7 a8 t) := by
  refine Only.after (hs := [.log, .vane, .net, .coll, .lull, .link, .out, .freeCtr]) ?_ m k
  clear m k
  unfold Machine.takeContrib
  try dsimp only
  repeat' first
    | with_reducible first
      | exact Only.refl
      | refine failInst_only _ _ _ _ _ (fun _ => ?_) (by decide) ?_
      | refine logUe_only _ _ _ _ _ (by decide) ?_
      | refine setRed_only _ _ (by decide) ?_
      | refine deliverBlock_only _ _ _ _ _ _ (by decide) ?_
      | refine finishInst_only _ _ (by decide) ?_
    | split

theorem takeFlit_only (a1) (a2) {gs : List Group} {s t : State} (m : [.net] ⊆ gs) (k : Only gs s t) :
    Only gs s (Machine.takeFlit a1 a2 t) := by
  refine Only.after (hs := [.net]) ?_ m k
  clear m k
  unfold Machine.takeFlit
  try dsimp only
  repeat' first
    | with_reducible first | exact Only.refl | fail_if_no_progress refine Only.atNet (by decide) ?_
    | split

theorem execMcastGroupDefine_next (a1) (a2) (t : State) :
    ∃ u, Machine.execMcastGroupDefine a1 a2 t = .next u ∧ Only [.mbx, .net, .coll] t u := by
  refine ⟨_, rfl, ?_⟩
  try dsimp only
  repeat' with_reducible first
    | exact Only.refl
    | refine commandIf_only _ _ _ _ _ (fun _ _ => ?_) (by decide) ?_
    | refine setAwait_only _ _ (by decide) ?_
    | refine startEpoch_only (by decide) ?_
    | fail_if_no_progress refine Only.atColl (by decide) ?_

theorem execReductionGroupDefine_next (a1) (a2) (a3) (t : State) :
    ∃ u, Machine.execReductionGroupDefine a1 a2 a3 t = .next u ∧ Only [.mbx, .net, .coll] t u := by
  refine ⟨_, rfl, ?_⟩
  try dsimp only
  repeat' with_reducible first
    | exact Only.refl
    | refine commandIf_only _ _ _ _ _ (fun _ _ => ?_) (by decide) ?_
    | refine setAwait_only _ _ (by decide) ?_
    | refine startEpoch_only (by decide) ?_
    | fail_if_no_progress refine Only.atColl (by decide) ?_

theorem execMcastGroupDelete_next (a1) (t : State) :
    ∃ u, Machine.execMcastGroupDelete a1 t = .next u ∧ Only [.mbx, .net, .coll] t u := by
  refine ⟨_, rfl, ?_⟩
  try dsimp only
  repeat' first
    | with_reducible first
      | exact Only.refl
      | refine commandIf_only _ _ _ _ _ (fun _ _ => ?_) (by decide) ?_
      | refine setAwait_only _ _ (by decide) ?_
      | refine startEpoch_only (by decide) ?_
      | fail_if_no_progress refine Only.atColl (by decide) ?_
    | split

theorem execReduceContribution_next (a1) (a2) (a3) (a4) (a5) (a6) (a7) (a8) (t : State) :
    ∃ u, Machine.execReduceContribution a1 a2 a3 a4 a5 a6 a7 a8 t = .next u ∧ Only [.log, .vane, .net, .coll, .lull, .link, .out, .freeCtr] t u := by
  refine ⟨_, rfl, ?_⟩
  try dsimp only
  repeat' first
    | with_reducible first
      | exact Only.refl
      | refine takeFlit_only _ _ (by decide) ?_
      | refine setRed_only _ _ (by decide) ?_
      | refine takeContrib_only _ _ _ _ _ _ _ _ (by decide) ?_
    | split

theorem execEddyTimeout_next (a1) (a2) (t : State) :
    ∃ u, Machine.execEddyTimeout a1 a2 t = .next u ∧ Only [.log, .net, .coll, .lull, .link, .out] t u := by
  refine ⟨_, rfl, ?_⟩
  try dsimp only
  repeat' first
    | with_reducible first
      | exact Only.refl
      | refine failInst_only _ _ _ _ _ (fun _ => ?_) (by decide) ?_
      | refine logUe_only _ _ _ _ _ (by decide) ?_
    | split

theorem execEddyMode_next (a1) (t : State) :
    ∃ u, Machine.execEddyMode a1 t = .next u ∧ Only [.mbx, .coll] t u := by
  refine ⟨_, rfl, ?_⟩
  try dsimp only
  repeat' first
    | with_reducible first
      | exact Only.refl
      | refine commandIf_only _ _ _ _ _ (fun _ _ => ?_) (by decide) ?_
      | refine replyDone_only _ _ _ (by decide) ?_
      | refine setRed_only _ _ (by decide) ?_
    | split

theorem execEddyAbort_next (a1) (t : State) :
    ∃ u, Machine.execEddyAbort a1 t = .next u ∧ Only [.mbx, .log, .net, .coll, .lull, .link, .out] t u := by
  refine ⟨_, rfl, ?_⟩
  try dsimp only
  repeat' first
    | with_reducible first
      | exact Only.refl
      | refine commandIf_only _ _ _ _ _ (fun _ _ => ?_) (by decide) ?_
      | refine replyDone_only _ _ _ (by decide) ?_
      | refine failInst_only _ _ _ _ _ (fun _ => ?_) (by decide) ?_
      | refine logInfo_only _ _ _ _ (by decide) ?_
    | split

end Sys2Proof.Laws
end

