-- ==== Sys2Proof/Laws/Commands.lean ====
section
/-!
SUPPORT. How a mailbox command reaches its effect, and what mailbox operations leave to be read.
-/
namespace Sys2Proof.Laws

open Sys2Proof.Machine

@[simp] theorem box_setBox (n k : Nat) (m : Mbx) (s : State) : (setBox n m s).box k = if k = n then m else s.box k :=
  Tab.get_put

theorem box_setBox_self (n : Nat) (m : Mbx) (s : State) : (setBox n m s).box n = m := by simp

/-- What a reply adds: one response that waits to be posted. -/
theorem box_reply (n : Nat) (r : Reply) (s : State) :
    (reply n r s).box n = { s.box n with outbox := (s.box n).outbox ++ [r] } := by simp [reply]

@[simp] theorem box_freed (s : State) (n : Fin 16) : (s.freed n).box n.val = { s.box n.val with job := none } := by
  simp [State.freed]

theorem firstFail_none (x : Option Nat) : firstFail [none, x] = x := by
  cases x <;> rfl

/-- A command whose checks all pass acts. -/
theorem command_run {op : Nat} {n : Fin 16} {chk : State → Mbx → Checks} {act : State → Mbx → State} {s : State}
    (h : Runs s n op) (k : (chk s (s.box n.val)).first = none) :
    command op n.val chk act s = act (s.freed n) (s.box n.val) := by
  unfold command
  dsimp only
  rw [if_pos h.1, h.2, firstFail_none, show Checks.first _ = none from k]
  rfl

/-- A command with a failing check answers with its status and does nothing else. -/
theorem command_fail {op : Nat} {n : Fin 16} {chk : State → Mbx → Checks} {act : State → Mbx → State} {s : State} {r : Reply}
    (h : Runs s n op) (k : (chk s (s.box n.val)).first = some r) :
    command op n.val chk act s = reply n.val r (s.freed n) := by
  unfold command
  dsimp only
  rw [if_pos h.1, h.2, firstFail_none, show Checks.first _ = some r from k]
  rfl

/-- A mailbox that runs no such command stays as it is. -/
theorem command_idle {op : Nat} {n : Fin 16} {chk : State → Mbx → Checks} {act : State → Mbx → State} {s : State}
    (h : (s.box n.val).job.map (· % 32768) ≠ some op) : command op n.val chk act s = s := by
  unfold command
  dsimp only
  rw [if_neg h]

theorem first_none : ({} : Checks).first = none := rfl

theorem failIf_false {c : Bool} {d : Nat} (h : c = false) : failIf c d = none := by simp [failIf, h]

end Sys2Proof.Laws
end

