-- ==== Sys2Proof/Laws/Dma.lean ====
section
/-!
SUPPORT. Which groups of state each operation of Machine/Dma.lean changes; it keeps every other group and the forms of the
memory and of the event ring.
-/
namespace Sys2Proof.Laws

open Sys2Proof.Machine

theorem ctrl_only {gs : List Group} (a1) (a2) (a3) (h3 : ∀ x0, Only gs x0 (a3 x0)) {s t : State} (m : [.log, .dma, .link, .out] ⊆ gs) (k : Only gs s t) :
    Only gs s (Machine.ctrl a1 a2 a3 t) := by
  unfold Machine.ctrl
  try dsimp only
  repeat' first
    | with_reducible first
      | exact k
      | refine Only.trans ?_ (h3 ..)
      | refine logUe_only _ _ _ _ _ (List.Subset.trans (by decide) m) ?_
      | fail_if_no_progress refine Only.atDma (Only.here m (by decide)) ?_
    | split

theorem kickChan_only (a1) (a2) (a3) {gs : List Group} {s t : State} (m : [.aon, .store, .log, .net, .lull, .mem, .mmu, .dma, .serve, .sealed, .link, .out, .freeCtr, .bytes] ⊆ gs) (k : Only gs s t) :
    Only gs s (Machine.kickChan a1 a2 a3 t) := by
  refine Only.after (hs := [.aon, .store, .log, .net, .lull, .mem, .mmu, .dma, .serve, .sealed, .link, .out, .freeCtr, .bytes]) ?_ m k
  clear m k
  unfold Machine.kickChan
  try dsimp only
  repeat' first
    | with_reducible first
      | exact Only.refl
      | refine noteOffline_only (by decide) ?_
      | refine ctrl_only _ _ _ (fun _ => ?_) (by decide) ?_
      | refine dmaRun_only _ (by decide) ?_
      | refine setChan_only _ _ (by decide) ?_
    | split

theorem resumeChan_only (a1) {gs : List Group} {s t : State} (m : [.store, .log, .net, .lull, .mem, .mmu, .dma, .serve, .sealed, .link, .out, .freeCtr, .bytes] ⊆ gs) (k : Only gs s t) :
    Only gs s (Machine.resumeChan a1 t) := by
  refine Only.after (hs := [.store, .log, .net, .lull, .mem, .mmu, .dma, .serve, .sealed, .link, .out, .freeCtr, .bytes]) ?_ m k
  clear m k
  unfold Machine.resumeChan
  try dsimp only
  repeat' first
    | with_reducible first
      | exact Only.refl
      | refine setChan_only _ _ (by decide) ?_
      | refine dmaRun_only _ (by decide) ?_
      | refine dmaFinal_only _ _ _ _ (by decide) ?_
      | refine settle_only _ (by decide) ?_
    | split

theorem beginDesc_only {gs : List Group} (a1) (a2) (a3) (h3 : ∀ x0 x1, Only gs x1 (a3 x0 x1)) {s t : State} (m : [.store, .log, .net, .lull, .mem, .mmu, .dma, .serve, .sealed, .link, .out, .freeCtr, .bytes] ⊆ gs) (k : Only gs s t) :
    Only gs s (Machine.beginDesc a1 a2 a3 t) := by
  unfold Machine.beginDesc
  try dsimp only
  repeat' first
    | with_reducible first
      | exact k
      | refine Only.trans ?_ (h3 ..)
      | refine dmaRun_only _ (List.Subset.trans (by decide) m) ?_
      | refine dmaFinal_only _ _ _ _ (List.Subset.trans (by decide) m) ?_
      | refine modChan_only _ _ (List.Subset.trans (by decide) m) ?_
    | split

theorem chunkData_only (a1) (a2) (a3) {gs : List Group} {s t : State} (m : [.store, .log, .mem, .serve, .link, .out, .freeCtr] ⊆ gs) (k : Only gs s t) :
    Only gs s (Machine.chunkData a1 a2 a3 t).2 := by
  refine Only.after (hs := [.store, .log, .mem, .serve, .link, .out, .freeCtr]) ?_ m k
  clear m k
  unfold Machine.chunkData
  try dsimp only
  repeat' first
    | with_reducible first | exact Only.refl | refine memRead_only _ _ (by decide) ?_
    | split

theorem chunkStore_only (a1) (a2) (a3) {gs : List Group} {s t : State} (m : [.store, .log, .mem, .serve, .sealed, .link, .out, .freeCtr, .bytes] ⊆ gs) (k : Only gs s t) :
    Only gs s (Machine.chunkStore a1 a2 a3 t).2 := by
  refine Only.after (hs := [.store, .log, .mem, .serve, .sealed, .link, .out, .freeCtr, .bytes]) ?_ m k
  clear m k
  unfold Machine.chunkStore
  try dsimp only
  repeat' first
    | with_reducible first
      | exact Only.refl
      | refine memWrite_only _ _ (by decide) ?_
      | refine send_only _ (by decide) ?_
    | split

theorem chunkFail_only (a1) (a2) (a3) (a4) {gs : List Group} {s t : State} (m : [.log, .dma, .link, .out] ⊆ gs) (k : Only gs s t) :
    Only gs s (Machine.chunkFail a1 a2 a3 a4 t) := by
  refine Only.after (hs := [.log, .dma, .link, .out]) ?_ m k
  clear m k
  unfold Machine.chunkFail
  try dsimp only
  repeat' first
    | with_reducible first
      | exact Only.refl
      | refine modChan_only _ _ (by decide) ?_
      | refine logUe_only _ _ _ _ _ (by decide) ?_
    | split

theorem chunkEnds_only (a1) (a2) (a3) (a4) {gs : List Group} {s t : State} (m : [.store, .log, .mem, .dma, .serve, .sealed, .link, .out, .freeCtr, .bytes] ⊆ gs) (k : Only gs s t) :
    Only gs s (Machine.chunkEnds a1 a2 a3 a4 t) := by
  refine Only.after (hs := [.store, .log, .mem, .dma, .serve, .sealed, .link, .out, .freeCtr, .bytes]) ?_ m k
  clear m k
  unfold Machine.chunkEnds
  try dsimp only
  repeat' first
    | with_reducible first
      | exact Only.refl
      | refine chunkFail_only _ _ _ _ (by decide) ?_
      | refine chunkData_only _ _ _ (by decide) ?_
      | refine chunkStore_only _ _ _ (by decide) ?_
      | refine modChan_only _ _ (by decide) ?_
    | split

theorem execDmaKick_next (a1) (a2) (a3) (t : State) :
    ∃ u, Machine.execDmaKick a1 a2 a3 t = .next u ∧ Only [.aon, .store, .log, .net, .lull, .mem, .mmu, .dma, .serve, .sealed, .link, .out, .freeCtr, .bytes] t u := by
  refine ⟨_, rfl, ?_⟩
  try dsimp only
  repeat' with_reducible first | exact Only.refl | refine kickChan_only _ _ _ (by decide) ?_

theorem execDmaSetup_next (a1) (a2) (a3) (a4) (t : State) :
    ∃ u, Machine.execDmaSetup a1 a2 a3 a4 t = .next u ∧ Only [.log, .dma, .link, .out] t u := by
  refine ⟨_, rfl, ?_⟩
  try dsimp only
  repeat' first
    | with_reducible first
      | exact Only.refl
      | refine ctrl_only _ _ _ (fun _ => ?_) (by decide) ?_
      | refine setChan_only _ _ (by decide) ?_
    | split

theorem execDmaPause_next (a1) (a2) (t : State) :
    ∃ u, Machine.execDmaPause a1 a2 t = .next u ∧ Only [.store, .log, .net, .lull, .mem, .mmu, .dma, .serve, .sealed, .link, .out, .freeCtr, .bytes] t u := by
  refine ⟨_, rfl, ?_⟩
  try dsimp only
  repeat' with_reducible first
    | exact Only.refl
    | refine ctrl_only _ _ _ (fun _ => ?_) (by decide) ?_
    | refine stopChan_only _ _ (by decide) ?_

theorem execDmaResume_next (a1) (a2) (t : State) :
    ∃ u, Machine.execDmaResume a1 a2 t = .next u ∧ Only [.store, .log, .net, .lull, .mem, .mmu, .dma, .serve, .sealed, .link, .out, .freeCtr, .bytes] t u := by
  refine ⟨_, rfl, ?_⟩
  try dsimp only
  repeat' with_reducible first
    | exact Only.refl
    | refine ctrl_only _ _ _ (fun _ => ?_) (by decide) ?_
    | refine resumeChan_only _ (by decide) ?_

theorem execDmaCancel_next (a1) (a2) (a3) (t : State) :
    ∃ u, Machine.execDmaCancel a1 a2 a3 t = .next u ∧ Only [.store, .log, .net, .lull, .mem, .mmu, .dma, .serve, .sealed, .link, .out, .freeCtr, .bytes] t u := by
  refine ⟨_, rfl, ?_⟩
  try dsimp only
  repeat' with_reducible first
    | exact Only.refl
    | refine ctrl_only _ _ _ (fun _ => ?_) (by decide) ?_
    | refine stopChan_only _ _ (by decide) ?_

theorem execCancelReq_next (a1) (a2) (a3) (t : State) :
    ∃ u, Machine.execCancelReq a1 a2 a3 t = .next u ∧ Only [.store, .log, .net, .lull, .mem, .mmu, .dma, .serve, .sealed, .link, .out, .freeCtr, .bytes] t u := by
  refine ⟨_, rfl, ?_⟩
  try dsimp only
  repeat' with_reducible first
    | exact Only.refl
    | refine ctrl_only _ _ _ (fun _ => ?_) (by decide) ?_
    | refine cancelReq_only _ _ (by decide) ?_

theorem execDmaCopy_next (a1) (t : State) :
    ∃ u, Machine.execDmaCopy a1 t = .next u ∧ Only [.store, .log, .net, .lull, .mem, .mmu, .dma, .serve, .sealed, .link, .out, .freeCtr, .bytes] t u := by
  refine ⟨_, rfl, ?_⟩
  try dsimp only
  repeat' with_reducible first
    | exact Only.refl
    | refine beginDesc_only _ _ _ (fun _ _ => ?_) (by decide) ?_
    | refine settle_only _ (by decide) ?_

theorem execDmaFill_next (a1) (t : State) :
    ∃ u, Machine.execDmaFill a1 t = .next u ∧ Only [.store, .log, .net, .lull, .mem, .mmu, .dma, .serve, .sealed, .link, .out, .freeCtr, .bytes] t u := by
  refine ⟨_, rfl, ?_⟩
  try dsimp only
  repeat' with_reducible first
    | exact Only.refl
    | refine beginDesc_only _ _ _ (fun _ _ => ?_) (by decide) ?_
    | refine settle_only _ (by decide) ?_

theorem execDmaTlbi_next (a1) (t : State) :
    ∃ u, Machine.execDmaTlbi a1 t = .next u ∧ Only [.store, .log, .net, .lull, .mem, .mmu, .dma, .serve, .sealed, .link, .out, .freeCtr, .bytes] t u := by
  refine ⟨_, rfl, ?_⟩
  try dsimp only
  repeat' with_reducible first
    | exact Only.refl
    | refine beginDesc_only _ _ _ (fun _ _ => ?_) (by decide) ?_
    | refine startInval_only _ (by decide) ?_
    | refine modChan_only _ _ (by decide) ?_

theorem execDmaNop_next (a1) (t : State) :
    ∃ u, Machine.execDmaNop a1 t = .next u ∧ Only [.store, .log, .net, .lull, .mem, .mmu, .dma, .serve, .sealed, .link, .out, .freeCtr, .bytes] t u := by
  refine ⟨_, rfl, ?_⟩
  try dsimp only
  repeat' with_reducible first
    | exact Only.refl
    | refine beginDesc_only _ _ _ (fun _ _ => ?_) (by decide) ?_
    | refine dmaRun_only _ (by decide) ?_
    | refine dmaFinal_only _ _ _ _ (by decide) ?_

theorem execDmaChunkAck_next (a1) (a2) (a3) (t : State) :
    ∃ u, Machine.execDmaChunkAck a1 a2 a3 t = .next u ∧ Only [.store, .log, .net, .lull, .mem, .mmu, .dma, .serve, .sealed, .link, .out, .freeCtr, .bytes] t u := by
  refine ⟨_, rfl, ?_⟩
  try dsimp only
  repeat' first
    | with_reducible first
      | exact Only.refl
      | refine settle_only _ (by decide) ?_
      | refine chunkEnds_only _ _ _ _ (by decide) ?_
      | refine modChan_only _ _ (by decide) ?_
    | split

theorem execDmaStatus_next (a1) (t : State) :
    ∃ u, Machine.execDmaStatus a1 t = .next u ∧ Only [.mbx] t u := by
  refine ⟨_, rfl, ?_⟩
  try dsimp only
  repeat' with_reducible first
    | exact Only.refl
    | refine command_only _ _ _ _ (fun _ _ => ?_) (by decide) ?_
    | refine replyDone_only _ _ _ (by decide) ?_

end Sys2Proof.Laws
end

