-- ==== Sys2Proof/Laws/CxOps.lean ====
section
/-!
SUPPORT. Which groups of state each operation of Machine/CxOps.lean changes; it keeps every other group and the forms of the
memory and of the event ring.
-/
namespace Sys2Proof.Laws

open Sys2Proof.Machine

theorem startCxHs_only (a1) (a2) {gs : List Group} {s t : State} (m : [.sealed, .out, .freeCtr] ⊆ gs) (k : Only gs s t) :
    Only gs s (Machine.startCxHs a1 a2 t) := by
  refine Only.after (hs := [.sealed, .out, .freeCtr]) ?_ m k
  clear m k
  unfold Machine.startCxHs
  try dsimp only
  repeat' first
    | with_reducible first
      | exact Only.refl
      | refine send_only _ (by decide) ?_
      | refine modCx_only _ _ (by decide) ?_
      | refine drbgDraw_only (by decide) ?_
    | split

theorem sendRekey_only (a1) (a2) {gs : List Group} {s t : State} (m : [.link, .out] ⊆ gs) (k : Only gs s t) :
    Only gs s (Machine.sendRekey a1 a2 t) := by
  refine Only.after (hs := [.link, .out]) ?_ m k
  clear m k
  unfold Machine.sendRekey
  try dsimp only
  repeat' with_reducible first
    | exact Only.refl
    | refine linkFlit_only _ _ _ _ (by decide) ?_
    | refine modSChan_only _ _ _ (by decide) ?_

theorem cxPasses_only (a1) (a2) (a3) {gs : List Group} {s t : State} (m : [.mbx, .log, .sealed, .link, .out] ⊆ gs) (k : Only gs s t) :
    Only gs s (Machine.cxPasses a1 a2 a3 t) := by
  refine Only.after (hs := [.mbx, .log, .sealed, .link, .out]) ?_ m k
  clear m k
  unfold Machine.cxPasses
  try dsimp only
  repeat' first
    | with_reducible first
      | exact Only.refl
      | refine newChannel_only _ _ _ (by decide) ?_
      | refine modCx_only _ _ (by decide) ?_
      | refine completeAwait_only _ _ (by decide) ?_
      | refine logSec_only _ _ _ _ (by decide) ?_
      | refine pumpCx_only _ (by decide) ?_
      | refine sendRekey_only _ _ (by decide) ?_
      | refine nextKeys_only _ _ _ (by decide) ?_
    | split

theorem cxFails_only (a1) (a2) {gs : List Group} {s t : State} (m : [.mbx, .log, .sealed, .link, .out] ⊆ gs) (k : Only gs s t) :
    Only gs s (Machine.cxFails a1 a2 t) := by
  refine Only.after (hs := [.mbx, .log, .sealed, .link, .out]) ?_ m k
  clear m k
  unfold Machine.cxFails
  try dsimp only
  repeat' first
    | with_reducible first
      | exact Only.refl
      | refine logSec_only _ _ _ _ (by decide) ?_
      | refine completeAwait_only _ _ (by decide) ?_
      | refine dropCx_only _ (by decide) ?_
      | refine modCx_only _ _ (by decide) ?_
      | refine modSChan_only _ _ _ (by decide) ?_
    | split

theorem startRekey_only (a1) (a2) {gs : List Group} {s t : State} (m : [.sealed, .link, .out, .freeCtr] ⊆ gs) (k : Only gs s t) :
    Only gs s (Machine.startRekey a1 a2 t) := by
  refine Only.after (hs := [.sealed, .link, .out, .freeCtr]) ?_ m k
  clear m k
  unfold Machine.startRekey
  try dsimp only
  repeat' first
    | with_reducible first
      | exact Only.refl
      | refine modSChan_only _ _ _ (by decide) ?_
      | refine startCxHs_only _ _ (by decide) ?_
      | refine startHandshake_only _ (by decide) ?_
    | split

end Sys2Proof.Laws
end

