-- ==== Sys2Proof/Laws/MeeOps.lean ====
section
/-!
SUPPORT. Which groups of state each operation of Machine/MeeOps.lean changes; it keeps every other group and the forms of the
memory and of the event ring.
-/
namespace Sys2Proof.Laws

open Sys2Proof.Machine

theorem modMee_only (a1) (a2) {gs : List Group} {s t : State} (m : [.sealed] ⊆ gs) (k : Only gs s t) :
    Only gs s (Machine.modMee a1 a2 t) := by
  refine Only.after (hs := [.sealed]) ?_ m k
  clear m k
  unfold Machine.modMee
  try dsimp only
  repeat' with_reducible first | exact Only.refl | fail_if_no_progress refine Only.atSealed (by decide) ?_

theorem dropExch_only (a1) {gs : List Group} {s t : State} (m : [.sealed] ⊆ gs) (k : Only gs s t) :
    Only gs s (Machine.dropExch a1 t) := by
  refine Only.after (hs := [.sealed]) ?_ m k
  clear m k
  unfold Machine.dropExch
  try dsimp only
  repeat' with_reducible first | exact Only.refl | fail_if_no_progress refine Only.atSealed (by decide) ?_

theorem putExch_only (a1) (a2) {gs : List Group} {s t : State} (m : [.sealed] ⊆ gs) (k : Only gs s t) :
    Only gs s (Machine.putExch a1 a2 t) := by
  refine Only.after (hs := [.sealed]) ?_ m k
  clear m k
  unfold Machine.putExch
  try dsimp only
  repeat' with_reducible first | exact Only.refl | fail_if_no_progress refine Only.atSealed (by decide) ?_

theorem passStatus_only (a1) (a2) (a3) (a4) (a5) (a6) (a7) (a8) {gs : List Group} {s t : State} (m : [.store, .log, .lull, .mem, .mmu, .serve, .sealed, .link, .out, .freeCtr, .bytes] ⊆ gs) (k : Only gs s t) :
    Only gs s (Machine.passStatus a1 a2 a3 a4 a5 a6 a7 a8 t) := by
  refine Only.after (hs := [.store, .log, .lull, .mem, .mmu, .serve, .sealed, .link, .out, .freeCtr, .bytes]) ?_ m k
  clear m k
  unfold Machine.passStatus
  try dsimp only
  repeat' first
    | with_reducible first
      | exact Only.refl
      | refine dvaWrite_only _ _ (by decide) ?_
      | refine modMee_only _ _ (by decide) ?_
      | refine counterAdd_only _ _ (by decide) ?_
    | split

theorem findPieces_only (a1) (a2) (a3) (a4) (a5) {gs : List Group} {s t : State} (m : [.store, .log, .mem, .mmu, .serve, .link, .out, .freeCtr] ⊆ gs) (k : Only gs s t) :
    Only gs s (Machine.findPieces a1 a2 a3 a4 a5 t).2 := by
  refine Only.after (hs := [.store, .log, .mem, .mmu, .serve, .link, .out, .freeCtr]) ?_ m k
  clear m k
  induction a3 generalizing a1 a2 a4 a5 t with
  | zero =>
    unfold Machine.findPieces
    try dsimp only
    repeat' with_reducible exact Only.refl
  | succ x ih =>
    unfold Machine.findPieces
    try dsimp only
    repeat' first
        | with_reducible first
          | exact Only.refl
          | refine Only.trans ?_ (ih ..)
          | refine translate_only _ (by decide) ?_
        | split

theorem pieces_only (a1) (a2) (a3) {gs : List Group} {s t : State} (m : [.store, .log, .mem, .mmu, .serve, .link, .out, .freeCtr] ⊆ gs) (k : Only gs s t) :
    Only gs s (Machine.pieces a1 a2 a3 t).2 := by
  refine Only.after (hs := [.store, .log, .mem, .mmu, .serve, .link, .out, .freeCtr]) ?_ m k
  clear m k
  unfold Machine.pieces
  try dsimp only
  repeat' with_reducible first | exact Only.refl | refine findPieces_only _ _ _ _ _ (by decide) ?_

theorem readConsts_only (a1) (a2) (a3) {gs : List Group} {s t : State} (m : [.store, .log, .mem, .mmu, .serve, .link, .out, .freeCtr] ⊆ gs) (k : Only gs s t) :
    Only gs s (Machine.readConsts a1 a2 a3 t).2 := by
  refine Only.after (hs := [.store, .log, .mem, .mmu, .serve, .link, .out, .freeCtr]) ?_ m k
  clear m k
  unfold Machine.readConsts
  try dsimp only
  repeat' first
    | with_reducible first | exact Only.refl | refine dvaRead_only _ _ (by decide) ?_
    | split

theorem openExch_only (a1) {gs : List Group} {s t : State} (m : [.sealed, .freeCtr] ⊆ gs) (k : Only gs s t) :
    Only gs s (Machine.openExch a1 t).2 := by
  refine Only.after (hs := [.sealed, .freeCtr]) ?_ m k
  clear m k
  unfold Machine.openExch
  try dsimp only
  repeat' first
    | with_reducible first
      | exact Only.refl
      | refine putExch_only _ _ (by decide) ?_
      | refine drbgDraw_only (by decide) ?_
    | split

theorem setupMask_only (a1) (a2) {gs : List Group} {s t : State} (m : [.sealed, .freeCtr] ⊆ gs) (k : Only gs s t) :
    Only gs s (Machine.setupMask a1 a2 t).2 := by
  refine Only.after (hs := [.sealed, .freeCtr]) ?_ m k
  clear m k
  unfold Machine.setupMask
  try dsimp only
  repeat' first
    | with_reducible first
      | exact Only.refl
      | refine openExch_only _ (by decide) ?_
      | refine putExch_only _ _ (by decide) ?_
    | split

theorem setupUnmask_only (a1) (a2) (a3) (a4) {gs : List Group} {s t : State} (m : [.store, .log, .mem, .mmu, .serve, .sealed, .link, .out, .freeCtr] ⊆ gs) (k : Only gs s t) :
    Only gs s (Machine.setupUnmask a1 a2 a3 a4 t).2 := by
  refine Only.after (hs := [.store, .log, .mem, .mmu, .serve, .sealed, .link, .out, .freeCtr]) ?_ m k
  clear m k
  unfold Machine.setupUnmask
  try dsimp only
  repeat' first
    | with_reducible first
      | exact Only.refl
      | refine dvaRead_only _ _ (by decide) ?_
      | refine putExch_only _ _ (by decide) ?_
      | refine logSec_only _ _ _ _ (by decide) ?_
      | refine dropExch_only _ (by decide) ?_
    | split

theorem setupPass_only (a1) (a2) (a3) (a4) {gs : List Group} {s t : State} (m : [.store, .log, .mem, .mmu, .serve, .sealed, .link, .out, .freeCtr] ⊆ gs) (k : Only gs s t) :
    Only gs s (Machine.setupPass a1 a2 a3 a4 t).2 := by
  refine Only.after (hs := [.store, .log, .mem, .mmu, .serve, .sealed, .link, .out, .freeCtr]) ?_ m k
  clear m k
  unfold Machine.setupPass
  try dsimp only
  repeat' first
    | with_reducible first
      | exact Only.refl
      | refine pieces_only _ _ _ (by decide) ?_
      | refine readConsts_only _ _ _ (by decide) ?_
      | refine setupMask_only _ _ (by decide) ?_
      | refine setupUnmask_only _ _ _ _ (by decide) ?_
    | split

theorem meeTake_only (a1) (a2) {gs : List Group} {s t : State} (m : [.store, .log, .lull, .mem, .mmu, .serve, .sealed, .link, .out, .freeCtr, .bytes] ⊆ gs) (k : Only gs s t) :
    Only gs s (Machine.meeTake a1 a2 t) := by
  refine Only.after (hs := [.store, .log, .lull, .mem, .mmu, .serve, .sealed, .link, .out, .freeCtr, .bytes]) ?_ m k
  clear m k
  induction a2 generalizing a1 t with
  | zero =>
    unfold Machine.meeTake
    try dsimp only
    repeat' with_reducible exact Only.refl
  | succ x ih =>
    unfold Machine.meeTake
    try dsimp only
    repeat' first
        | with_reducible first
          | exact Only.refl
          | refine Only.trans ?_ (ih ..)
          | refine dvaRead_only _ _ (by decide) ?_
          | refine setupPass_only _ _ _ _ (by decide) ?_
          | refine modMee_only _ _ (by decide) ?_
          | refine passStatus_only _ _ _ _ _ _ _ _ (by decide) ?_
        | split

theorem readElems_only (a1) (a2) (a3) {gs : List Group} {s t : State} (m : [.store, .log, .mem, .serve, .link, .out, .freeCtr] ⊆ gs) (k : Only gs s t) :
    Only gs s (Machine.readElems a1 a2 a3 t).2 := by
  refine Only.after (hs := [.store, .log, .mem, .serve, .link, .out, .freeCtr]) ?_ m k
  clear m k
  induction a1 generalizing a2 a3 t with
  | zero =>
    unfold Machine.readElems
    try dsimp only
    repeat' with_reducible exact Only.refl
  | succ x ih =>
    unfold Machine.readElems
    try dsimp only
    repeat' first
        | with_reducible first
          | exact Only.refl
          | refine Only.trans ?_ (ih ..)
          | refine memRead_only _ _ (by decide) ?_
        | split

theorem readKeys_only (a1) {gs : List Group} {s t : State} (m : [.store, .log, .mem, .serve, .link, .out, .freeCtr] ⊆ gs) (k : Only gs s t) :
    Only gs s (Machine.readKeys a1 t).2 := by
  refine Only.after (hs := [.store, .log, .mem, .serve, .link, .out, .freeCtr]) ?_ m k
  clear m k
  induction a1 generalizing t with
  | nil =>
    unfold Machine.readKeys
    try dsimp only
    repeat' with_reducible exact Only.refl
  | cons x l ih =>
    unfold Machine.readKeys
    try dsimp only
    repeat' with_reducible first
        | exact Only.refl
        | refine Only.trans ?_ (ih ..)
        | refine readElems_only _ _ _ (by decide) ?_

theorem writeOuts_only (a1) (a2) {gs : List Group} {s t : State} (m : [.store, .log, .mem, .serve, .sealed, .link, .out, .freeCtr, .bytes] ⊆ gs) (k : Only gs s t) :
    Only gs s (Machine.writeOuts a1 a2 t) := by
  refine Only.after (hs := [.store, .log, .mem, .serve, .sealed, .link, .out, .freeCtr, .bytes]) ?_ m k
  clear m k
  induction a1 generalizing a2 t with
  | nil =>
    unfold Machine.writeOuts
    try dsimp only
    repeat' with_reducible exact Only.refl
  | cons x l ih =>
    unfold Machine.writeOuts
    try dsimp only
    repeat' with_reducible first
        | exact Only.refl
        | refine Only.trans ?_ (ih ..)
        | refine memWrite_only _ _ (by decide) ?_

theorem countExch_only (a1) {gs : List Group} {s t : State} (m : [.sealed] ⊆ gs) (k : Only gs s t) :
    Only gs s (Machine.countExch a1 t) := by
  refine Only.after (hs := [.sealed]) ?_ m k
  clear m k
  unfold Machine.countExch
  try dsimp only
  repeat' first
    | with_reducible first
      | exact Only.refl
      | refine putExch_only _ _ (by decide) ?_
      | refine dropExch_only _ (by decide) ?_
    | split

theorem runPass_only (a1) (a2) (a3) (a4) (a5) {gs : List Group} {s t : State} (m : [.store, .log, .lull, .mem, .mmu, .serve, .sealed, .link, .out, .freeCtr, .bytes] ⊆ gs) (k : Only gs s t) :
    Only gs s (Machine.runPass a1 a2 a3 a4 a5 t) := by
  refine Only.after (hs := [.store, .log, .lull, .mem, .mmu, .serve, .sealed, .link, .out, .freeCtr, .bytes]) ?_ m k
  clear m k
  unfold Machine.runPass
  try dsimp only
  repeat' first
    | with_reducible first
      | exact Only.refl
      | refine passStatus_only _ _ _ _ _ _ _ _ (by decide) ?_
      | refine readKeys_only _ (by decide) ?_
      | refine writeOuts_only _ _ (by decide) ?_
      | refine send_only _ (by decide) ?_
      | refine logUe_only _ _ _ _ _ (by decide) ?_
      | refine logLimited_only _ _ _ _ _ _ _ (by decide) ?_
      | refine modMee_only _ _ (by decide) ?_
      | refine countExch_only _ (by decide) ?_
      | fail_if_no_progress refine Only.atFreeCtr (by decide) ?_
    | split

theorem runPasses_only (a1) (a2) (a3) (a4) (a5) {gs : List Group} {s t : State} (m : [.store, .log, .lull, .mem, .mmu, .serve, .sealed, .link, .out, .freeCtr, .bytes] ⊆ gs) (k : Only gs s t) :
    Only gs s (Machine.runPasses a1 a2 a3 a4 a5 t) := by
  refine Only.after (hs := [.store, .log, .lull, .mem, .mmu, .serve, .sealed, .link, .out, .freeCtr, .bytes]) ?_ m k
  clear m k
  induction a5 generalizing a1 a2 a3 a4 t with
  | nil =>
    unfold Machine.runPasses
    try dsimp only
    repeat' with_reducible exact Only.refl
  | cons x l ih =>
    unfold Machine.runPasses
    try dsimp only
    repeat' with_reducible first
        | exact Only.refl
        | refine Only.trans ?_ (ih ..)
        | refine runPass_only _ _ _ _ _ (by decide) ?_

theorem meeClose_only (a1) (a2) (a3) (a4) (a5) {gs : List Group} {s t : State} (m : [.store, .log, .lull, .mem, .mmu, .serve, .sealed, .link, .out, .freeCtr, .bytes] ⊆ gs) (k : Only gs s t) :
    Only gs s (Machine.meeClose a1 a2 a3 a4 a5 t) := by
  refine Only.after (hs := [.store, .log, .lull, .mem, .mmu, .serve, .sealed, .link, .out, .freeCtr, .bytes]) ?_ m k
  clear m k
  induction a5 generalizing a1 a2 a3 a4 t with
  | nil =>
    unfold Machine.meeClose
    try dsimp only
    repeat' with_reducible exact Only.refl
  | cons x l ih =>
    unfold Machine.meeClose
    try dsimp only
    repeat' with_reducible first
        | exact Only.refl
        | refine Only.trans ?_ (ih ..)
        | refine runPasses_only _ _ _ _ _ (by decide) ?_
        | refine modMee_only _ _ (by decide) ?_
        | refine meeTake_only _ _ (by decide) ?_

end Sys2Proof.Laws
end

