-- ==== Sys2Proof/Laws/Lull.lean ====
section
/-!
SUPPORT. Which groups of state each operation of Machine/Lull.lean changes; it keeps every other group and the forms of the
memory and of the event ring.
-/
namespace Sys2Proof.Laws

open Sys2Proof.Machine

theorem answer_only (a1) (a2) (a3) {gs : List Group} {s t : State} (m : [.link, .out] ⊆ gs) (k : Only gs s t) :
    Only gs s (Machine.answer a1 a2 a3 t) := by
  refine Only.after (hs := [.link, .out]) ?_ m k
  clear m k
  unfold Machine.answer
  try dsimp only
  repeat' with_reducible first | exact Only.refl | refine notify_only _ _ _ _ _ (by decide) ?_

theorem holdWait_only (a1) {gs : List Group} {s t : State} (m : [.lull] ⊆ gs) (k : Only gs s t) :
    Only gs s (Machine.holdWait a1 t) := by
  refine Only.after (hs := [.lull]) ?_ m k
  clear m k
  unfold Machine.holdWait
  try dsimp only
  repeat' first
    | with_reducible first | exact Only.refl | fail_if_no_progress refine Only.atLull (by decide) ?_
    | split

theorem forwardOp_only (a1) (a2) (a3) {gs : List Group} {s t : State} (m : [.lull, .link, .out] ⊆ gs) (k : Only gs s t) :
    Only gs s (Machine.forwardOp a1 a2 a3 t) := by
  refine Only.after (hs := [.lull, .link, .out]) ?_ m k
  clear m k
  unfold Machine.forwardOp
  try dsimp only
  repeat' first
    | with_reducible first
      | exact Only.refl
      | refine sendLull_only _ _ (by decide) ?_
      | refine answer_only _ _ _ (by decide) ?_
      | refine holdWait_only _ (by decide) ?_
    | split

theorem lullOp_only {gs : List Group} (a1) (a2) (a3) (a4) (h4 : ∀ x0 x1, Only gs x1 (a4 x0 x1)) {s t : State} (m : [.lull, .link, .out] ⊆ gs) (k : Only gs s t) :
    Only gs s (Machine.lullOp a1 a2 a3 a4 t) := by
  unfold Machine.lullOp
  try dsimp only
  repeat' first
    | with_reducible first
      | exact k
      | refine Only.trans ?_ (h4 ..)
      | refine answer_only _ _ _ (List.Subset.trans (by decide) m) ?_
      | refine forwardOp_only _ _ _ (List.Subset.trans (by decide) m) ?_
    | split

theorem queueWait_only (a1) (a2) (a3) {gs : List Group} {s t : State} (m : [.lull, .link, .out] ⊆ gs) (k : Only gs s t) :
    Only gs s (Machine.queueWait a1 a2 a3 t) := by
  refine Only.after (hs := [.lull, .link, .out]) ?_ m k
  clear m k
  unfold Machine.queueWait
  try dsimp only
  repeat' first
    | with_reducible first
      | exact Only.refl
      | refine answer_only _ _ _ (by decide) ?_
      | refine holdWait_only _ (by decide) ?_
      | refine setObj_only _ _ (by decide) ?_
    | split

theorem arriveOp_only (a1) {gs : List Group} {s t : State} (m : [.lull, .link, .out] ⊆ gs) (k : Only gs s t) :
    Only gs s (Machine.arriveOp a1 t) := by
  refine Only.after (hs := [.lull, .link, .out]) ?_ m k
  clear m k
  unfold Machine.arriveOp
  try dsimp only
  repeat' first
    | with_reducible first
      | exact Only.refl
      | refine lullOp_only _ _ _ _ (fun _ _ => ?_) (by decide) ?_
      | refine answer_only _ _ _ (by decide) ?_
      | refine setObj_only _ _ (by decide) ?_
      | refine notifyAll_only _ _ _ _ (by decide) ?_
    | split

theorem waitOp_only (a1) {gs : List Group} {s t : State} (m : [.lull, .link, .out] ⊆ gs) (k : Only gs s t) :
    Only gs s (Machine.waitOp a1 t) := by
  refine Only.after (hs := [.lull, .link, .out]) ?_ m k
  clear m k
  unfold Machine.waitOp
  try dsimp only
  repeat' first
    | with_reducible first
      | exact Only.refl
      | refine lullOp_only _ _ _ _ (fun _ _ => ?_) (by decide) ?_
      | refine answer_only _ _ _ (by decide) ?_
      | refine setObj_only _ _ (by decide) ?_
      | refine queueWait_only _ _ _ (by decide) ?_
    | split

theorem takeCounts_only (a1) (a2) {gs : List Group} {s t : State} (m : [.lull] ⊆ gs) (k : Only gs s t) :
    Only gs s (Machine.takeCounts a1 a2 t) := by
  refine Only.after (hs := [.lull]) ?_ m k
  clear m k
  unfold Machine.takeCounts
  try dsimp only
  repeat' with_reducible first | exact Only.refl | refine setObj_only _ _ (by decide) ?_

theorem acquireOp_only (a1) {gs : List Group} {s t : State} (m : [.lull, .link, .out] ⊆ gs) (k : Only gs s t) :
    Only gs s (Machine.acquireOp a1 t) := by
  refine Only.after (hs := [.lull, .link, .out]) ?_ m k
  clear m k
  unfold Machine.acquireOp
  try dsimp only
  repeat' first
    | with_reducible first
      | exact Only.refl
      | refine lullOp_only _ _ _ _ (fun _ _ => ?_) (by decide) ?_
      | refine answer_only _ _ _ (by decide) ?_
      | refine takeCounts_only _ _ (by decide) ?_
      | refine queueWait_only _ _ _ (by decide) ?_
    | split

theorem tryAcquireOp_only (a1) {gs : List Group} {s t : State} (m : [.lull, .link, .out] ⊆ gs) (k : Only gs s t) :
    Only gs s (Machine.tryAcquireOp a1 t) := by
  refine Only.after (hs := [.lull, .link, .out]) ?_ m k
  clear m k
  unfold Machine.tryAcquireOp
  try dsimp only
  repeat' first
    | with_reducible first
      | exact Only.refl
      | refine lullOp_only _ _ _ _ (fun _ _ => ?_) (by decide) ?_
      | refine answer_only _ _ _ (by decide) ?_
      | refine takeCounts_only _ _ (by decide) ?_
    | split

theorem releaseOp_only (a1) {gs : List Group} {s t : State} (m : [.lull, .link, .out] ⊆ gs) (k : Only gs s t) :
    Only gs s (Machine.releaseOp a1 t) := by
  refine Only.after (hs := [.lull, .link, .out]) ?_ m k
  clear m k
  unfold Machine.releaseOp
  try dsimp only
  repeat' first
    | with_reducible first
      | exact Only.refl
      | refine lullOp_only _ _ _ _ (fun _ _ => ?_) (by decide) ?_
      | refine answer_only _ _ _ (by decide) ?_
      | refine notifyAll_only _ _ _ _ (by decide) ?_
      | refine setObj_only _ _ (by decide) ?_
    | split

theorem setOp_only (a1) {gs : List Group} {s t : State} (m : [.net, .lull, .link, .out] ⊆ gs) (k : Only gs s t) :
    Only gs s (Machine.setOp a1 t) := by
  refine Only.after (hs := [.net, .lull, .link, .out]) ?_ m k
  clear m k
  unfold Machine.setOp
  try dsimp only
  repeat' with_reducible first
    | exact Only.refl
    | refine lullOp_only _ _ _ _ (fun _ _ => ?_) (by decide) ?_
    | refine lullSet_only _ _ (by decide) ?_
    | refine answer_only _ _ _ (by decide) ?_

theorem clearOp_only (a1) {gs : List Group} {s t : State} (m : [.lull, .link, .out] ⊆ gs) (k : Only gs s t) :
    Only gs s (Machine.clearOp a1 t) := by
  refine Only.after (hs := [.lull, .link, .out]) ?_ m k
  clear m k
  unfold Machine.clearOp
  try dsimp only
  repeat' with_reducible first
    | exact Only.refl
    | refine lullOp_only _ _ _ _ (fun _ _ => ?_) (by decide) ?_
    | refine answer_only _ _ _ (by decide) ?_
    | refine setObj_only _ _ (by decide) ?_

theorem groupReports_only (a1) (a2) {gs : List Group} {s t : State} (m : [.serve] ⊆ gs) (k : Only gs s t) :
    Only gs s (Machine.groupReports a1 a2 t) := by
  refine Only.after (hs := [.serve]) ?_ m k
  clear m k
  unfold Machine.groupReports
  try dsimp only
  repeat' first
    | with_reducible first | exact Only.refl | fail_if_no_progress refine Only.atServe (by decide) ?_
    | split

theorem addOp_only (a1) {gs : List Group} {s t : State} (m : [.lull, .serve, .link, .out] ⊆ gs) (k : Only gs s t) :
    Only gs s (Machine.addOp a1 t) := by
  refine Only.after (hs := [.lull, .serve, .link, .out]) ?_ m k
  clear m k
  unfold Machine.addOp
  try dsimp only
  repeat' with_reducible first
    | exact Only.refl
    | refine lullOp_only _ _ _ _ (fun _ _ => ?_) (by decide) ?_
    | refine groupReports_only _ _ (by decide) ?_
    | refine counterAdd_only _ _ (by decide) ?_
    | refine answer_only _ _ _ (by decide) ?_

theorem readOp_only (a1) {gs : List Group} {s t : State} (m : [.lull, .link, .out] ⊆ gs) (k : Only gs s t) :
    Only gs s (Machine.readOp a1 t) := by
  refine Only.after (hs := [.lull, .link, .out]) ?_ m k
  clear m k
  unfold Machine.readOp
  try dsimp only
  repeat' with_reducible first
    | exact Only.refl
    | refine lullOp_only _ _ _ _ (fun _ _ => ?_) (by decide) ?_
    | refine answer_only _ _ _ (by decide) ?_

theorem cancelWaitOp_only (a1) {gs : List Group} {s t : State} (m : [.lull, .link, .out] ⊆ gs) (k : Only gs s t) :
    Only gs s (Machine.cancelWaitOp a1 t) := by
  refine Only.after (hs := [.lull, .link, .out]) ?_ m k
  clear m k
  unfold Machine.cancelWaitOp
  try dsimp only
  repeat' with_reducible first
    | exact Only.refl
    | refine lullOp_only _ _ _ _ (fun _ _ => ?_) (by decide) ?_
    | refine answer_only _ _ _ (by decide) ?_
    | refine notifyAll_only _ _ _ _ (by decide) ?_
    | refine setObj_only _ _ (by decide) ?_

theorem notifyOp_only (a1) (a2) (a3) {gs : List Group} {s t : State} (m : [.lull] ⊆ gs) (k : Only gs s t) :
    Only gs s (Machine.notifyOp a1 a2 a3 t) := by
  refine Only.after (hs := [.lull]) ?_ m k
  clear m k
  unfold Machine.notifyOp
  try dsimp only
  repeat' first
    | with_reducible first | exact Only.refl | fail_if_no_progress refine Only.atLull (by decide) ?_
    | split

theorem notifyIn_only (a1) (a2) (a3) (a4) {gs : List Group} {s t : State} (m : [.lull, .link, .out] ⊆ gs) (k : Only gs s t) :
    Only gs s (Machine.notifyIn a1 a2 a3 a4 t) := by
  refine Only.after (hs := [.lull, .link, .out]) ?_ m k
  clear m k
  unfold Machine.notifyIn
  try dsimp only
  repeat' first
    | with_reducible first
      | exact Only.refl
      | refine notifyOp_only _ _ _ (by decide) ?_
      | refine send_only _ (by decide) ?_
      | refine sendLull_only _ _ (by decide) ?_
    | split

theorem lullMessage_only (a1) {gs : List Group} {s t : State} (m : [.net, .lull, .serve, .link, .out] ⊆ gs) (k : Only gs s t) :
    Only gs s (Machine.lullMessage a1 t) := by
  refine Only.after (hs := [.net, .lull, .serve, .link, .out]) ?_ m k
  clear m k
  unfold Machine.lullMessage
  try dsimp only
  repeat' first
    | with_reducible first
      | exact Only.refl
      | refine arriveOp_only _ (by decide) ?_
      | refine waitOp_only _ (by decide) ?_
      | refine acquireOp_only _ (by decide) ?_
      | refine tryAcquireOp_only _ (by decide) ?_
      | refine releaseOp_only _ (by decide) ?_
      | refine setOp_only _ (by decide) ?_
      | refine clearOp_only _ (by decide) ?_
      | refine addOp_only _ (by decide) ?_
      | refine readOp_only _ (by decide) ?_
      | refine cancelWaitOp_only _ (by decide) ?_
      | refine notifyIn_only _ _ _ _ (by decide) ?_
    | split

theorem execArrive_next (a1) (t : State) :
    ∃ u, Machine.execArrive a1 t = .next u ∧ Only [.lull, .link, .out] t u := by
  refine ⟨_, rfl, ?_⟩
  try dsimp only
  repeat' with_reducible first | exact Only.refl | refine arriveOp_only _ (by decide) ?_

theorem execWait_next (a1) (t : State) :
    ∃ u, Machine.execWait a1 t = .next u ∧ Only [.lull, .link, .out] t u := by
  refine ⟨_, rfl, ?_⟩
  try dsimp only
  repeat' with_reducible first | exact Only.refl | refine waitOp_only _ (by decide) ?_

theorem execAcquire_next (a1) (t : State) :
    ∃ u, Machine.execAcquire a1 t = .next u ∧ Only [.lull, .link, .out] t u := by
  refine ⟨_, rfl, ?_⟩
  try dsimp only
  repeat' with_reducible first | exact Only.refl | refine acquireOp_only _ (by decide) ?_

theorem execTryAcquire_next (a1) (t : State) :
    ∃ u, Machine.execTryAcquire a1 t = .next u ∧ Only [.lull, .link, .out] t u := by
  refine ⟨_, rfl, ?_⟩
  try dsimp only
  repeat' with_reducible first | exact Only.refl | refine tryAcquireOp_only _ (by decide) ?_

theorem execRelease_next (a1) (t : State) :
    ∃ u, Machine.execRelease a1 t = .next u ∧ Only [.lull, .link, .out] t u := by
  refine ⟨_, rfl, ?_⟩
  try dsimp only
  repeat' with_reducible first | exact Only.refl | refine releaseOp_only _ (by decide) ?_

theorem execSet_next (a1) (t : State) :
    ∃ u, Machine.execSet a1 t = .next u ∧ Only [.net, .lull, .link, .out] t u := by
  refine ⟨_, rfl, ?_⟩
  try dsimp only
  repeat' with_reducible first | exact Only.refl | refine setOp_only _ (by decide) ?_

theorem execClear_next (a1) (t : State) :
    ∃ u, Machine.execClear a1 t = .next u ∧ Only [.lull, .link, .out] t u := by
  refine ⟨_, rfl, ?_⟩
  try dsimp only
  repeat' with_reducible first | exact Only.refl | refine clearOp_only _ (by decide) ?_

theorem execAdd_next (a1) (t : State) :
    ∃ u, Machine.execAdd a1 t = .next u ∧ Only [.lull, .serve, .link, .out] t u := by
  refine ⟨_, rfl, ?_⟩
  try dsimp only
  repeat' with_reducible first | exact Only.refl | refine addOp_only _ (by decide) ?_

theorem execRead_next (a1) (t : State) :
    ∃ u, Machine.execRead a1 t = .next u ∧ Only [.lull, .link, .out] t u := by
  refine ⟨_, rfl, ?_⟩
  try dsimp only
  repeat' with_reducible first | exact Only.refl | refine readOp_only _ (by decide) ?_

theorem execCancelWait_next (a1) (t : State) :
    ∃ u, Machine.execCancelWait a1 t = .next u ∧ Only [.lull, .link, .out] t u := by
  refine ⟨_, rfl, ?_⟩
  try dsimp only
  repeat' with_reducible first | exact Only.refl | refine cancelWaitOp_only _ (by decide) ?_

theorem execNotify_next (a1) (a2) (a3) (a4) (t : State) :
    ∃ u, Machine.execNotify a1 a2 a3 a4 t = .next u ∧ Only [.lull] t u := by
  refine ⟨_, rfl, ?_⟩
  try dsimp only
  repeat' with_reducible first | exact Only.refl | refine notifyOp_only _ _ _ (by decide) ?_

theorem execLullAlloc_next (a1) (a2) (a3) (t : State) :
    ∃ u, Machine.execLullAlloc a1 a2 a3 t = .next u ∧ Only [.mbx, .lull] t u := by
  refine ⟨_, rfl, ?_⟩
  try dsimp only
  repeat' first
    | with_reducible first
      | exact Only.refl
      | refine command_only _ _ _ _ (fun _ _ => ?_) (by decide) ?_
      | refine replyDone_only _ _ _ (by decide) ?_
      | refine setObj_only _ _ (by decide) ?_
    | split

theorem execLullFree_next (a1) (t : State) :
    ∃ u, Machine.execLullFree a1 t = .next u ∧ Only [.mbx, .lull] t u := by
  refine ⟨_, rfl, ?_⟩
  try dsimp only
  repeat' with_reducible first
    | exact Only.refl
    | refine command_only _ _ _ _ (fun _ _ => ?_) (by decide) ?_
    | refine replyDone_only _ _ _ (by decide) ?_
    | fail_if_no_progress refine Only.atLull (by decide) ?_

end Sys2Proof.Laws
end

