-- ==== Sys2Proof/Laws/Memory.lean ====
section
/-!
SUPPORT. Which groups of state each operation of Machine/Memory.lean changes; it keeps every other group and the forms of the
memory and of the event ring.
-/
namespace Sys2Proof.Laws

open Sys2Proof.Machine

theorem answerRead_only (a1) (a2) (a3) (a4) (p : Got × State) {gs : List Group} {s : State} (m : [.out, .freeCtr] ⊆ gs)
    (k : Only gs s p.2) : Only gs s (Machine.answerRead a1 a2 a3 a4 p) := by
  refine Only.after (hs := [.out, .freeCtr]) ?_ m k
  clear m k
  unfold Machine.answerRead
  split
  · exact send_only _ (by decide) Only.refl
  · exact send_only _ (by decide) (Only.atFreeCtr (by decide) Only.refl)
  · exact errorResponse_only _ _ (by decide) Only.refl

theorem answerWrite_only (a1) (a2) (p : Bool × State) {gs : List Group} {s : State} (m : [.out] ⊆ gs)
    (k : Only gs s p.2) : Only gs s (Machine.answerWrite a1 a2 p) := by
  refine Only.after (hs := [.out]) ?_ m k
  clear m k
  unfold Machine.answerWrite
  split
  · exact send_only _ (by decide) Only.refl
  · exact errorResponse_only _ _ (by decide) Only.refl

theorem serveBank_only (a1) {gs : List Group} {s t : State} (m : [.store, .log, .mem, .link, .out, .freeCtr, .bytes] ⊆ gs) (k : Only gs s t) :
    Only gs s (Machine.serveBank a1 t) := by
  refine Only.after (hs := [.store, .log, .mem, .link, .out, .freeCtr, .bytes]) ?_ m k
  clear m k
  unfold Machine.serveBank
  try dsimp only
  repeat' first
    | with_reducible first
      | exact Only.refl
      | refine answerRead_only _ _ _ _ _ (by decide) ?_
      | refine readWords_only _ _ _ (by decide) ?_
      | refine answerWrite_only _ _ _ (by decide) ?_
      | refine writeWords_only _ _ _ _ (by decide) ?_
      | fail_if_no_progress refine Only.atMem (by decide) rfl ?_
    | split

theorem serveWaits_only (a1) {gs : List Group} {s t : State} (m : [.store, .log, .mem, .link, .out, .freeCtr, .bytes] ⊆ gs) (k : Only gs s t) :
    Only gs s (Machine.serveWaits a1 t) := by
  refine Only.after (hs := [.store, .log, .mem, .link, .out, .freeCtr, .bytes]) ?_ m k
  clear m k
  induction a1 generalizing t with
  | nil =>
    unfold Machine.serveWaits
    try dsimp only
    repeat' with_reducible exact Only.refl
  | cons x l ih =>
    unfold Machine.serveWaits
    try dsimp only
    repeat' first
        | with_reducible first
          | exact Only.refl
          | refine Only.trans ?_ (ih ..)
          | refine serveBank_only _ (by decide) ?_
          | fail_if_no_progress refine Only.atMem (by decide) rfl ?_
        | split

theorem writeBacks_only (a1) {gs : List Group} {s t : State} (m : [.mem] ⊆ gs) (k : Only gs s t) :
    Only gs s (Machine.writeBacks a1 t) := by
  refine Only.after (hs := [.mem]) ?_ m k
  clear m k
  induction a1 generalizing t with
  | nil =>
    unfold Machine.writeBacks
    try dsimp only
    repeat' with_reducible exact Only.refl
  | cons x l ih =>
    unfold Machine.writeBacks
    try dsimp only
    repeat' first
        | with_reducible first
          | exact Only.refl
          | refine Only.trans ?_ (ih ..)
          | refine dropBack_only _ (by decide) ?_
          | refine setFlaw_only _ _ (by decide) ?_
        | split

theorem bankCycle_only {gs : List Group} {s t : State} (m : [.store, .log, .mem, .link, .out, .freeCtr, .bytes] ⊆ gs) (k : Only gs s t) :
    Only gs s (Machine.bankCycle t) := by
  refine Only.after (hs := [.store, .log, .mem, .link, .out, .freeCtr, .bytes]) ?_ m k
  clear m k
  unfold Machine.bankCycle
  try dsimp only
  repeat' with_reducible first
    | exact Only.refl
    | refine serveWaits_only _ (by decide) ?_
    | refine writeBacks_only _ (by decide) ?_
    | fail_if_no_progress refine Only.atMem (by decide) rfl ?_

theorem scrubLine_only (a1) (a2) (a3) (a4) {gs : List Group} {s t : State} (m : [.store, .log, .mem, .serve, .link, .out, .freeCtr, .bytes] ⊆ gs) (k : Only gs s t) :
    Only gs s (Machine.scrubLine a1 a2 a3 a4 t) := by
  refine Only.after (hs := [.store, .log, .mem, .serve, .link, .out, .freeCtr, .bytes]) ?_ m k
  clear m k
  unfold Machine.scrubLine
  try dsimp only
  repeat' first
    | with_reducible first
      | exact Only.refl
      | refine noteCe_only _ _ _ _ (by decide) ?_
      | refine setFlaw_only _ _ (by decide) ?_
      | refine hardLine_only _ _ _ (by decide) ?_
      | refine hbmUe_only _ _ _ _ (by decide) ?_
      | refine poke_only _ _ (by decide) ?_
      | fail_if_no_progress refine Only.atFreeCtr (by decide) ?_
    | split

theorem advanceScrub_only (a1) {gs : List Group} {s t : State} (m : [.log, .mem, .link, .out] ⊆ gs) (k : Only gs s t) :
    Only gs s (Machine.advanceScrub a1 t) := by
  refine Only.after (hs := [.log, .mem, .link, .out]) ?_ m k
  clear m k
  unfold Machine.advanceScrub
  try dsimp only
  repeat' first
    | with_reducible first
      | exact Only.refl
      | refine logInfo_only _ _ _ _ (by decide) ?_
      | fail_if_no_progress refine Only.atMem (by decide) rfl ?_
    | split

theorem maintain_only (a1) (a2) (a3) (a4) {gs : List Group} {s t : State} (m : [.store, .log, .mem, .serve, .link, .out, .freeCtr, .bytes] ⊆ gs) (k : Only gs s t) :
    Only gs s (Machine.maintain a1 a2 a3 a4 t) := by
  refine Only.after (hs := [.store, .log, .mem, .serve, .link, .out, .freeCtr, .bytes]) ?_ m k
  clear m k
  unfold Machine.maintain
  try dsimp only
  repeat' first
    | with_reducible first
      | exact Only.refl
      | refine scrubLine_only _ _ _ _ (by decide) ?_
      | refine advanceScrub_only _ (by decide) ?_
      | fail_if_no_progress refine Only.atMem (by decide) rfl ?_
    | split

theorem scrubWord_only (a1) (a2) (a3) {gs : List Group} {s t : State} (m : [.store, .log, .mem, .link, .out, .freeCtr, .bytes] ⊆ gs) (k : Only gs s t) :
    Only gs s (Machine.scrubWord a1 a2 a3 t) := by
  refine Only.after (hs := [.store, .log, .mem, .link, .out, .freeCtr, .bytes]) ?_ m k
  clear m k
  unfold Machine.scrubWord
  try dsimp only
  repeat' first
    | with_reducible first
      | exact Only.refl
      | refine setFlaw_only _ _ (by decide) ?_
      | refine noteCe_only _ _ _ _ (by decide) ?_
      | refine hardWord_only _ _ (by decide) ?_
      | refine noteUe_only _ _ _ (by decide) ?_
      | refine poke_only _ _ (by decide) ?_
      | fail_if_no_progress refine Only.atMem (by decide) rfl ?_
      | fail_if_no_progress refine Only.atFreeCtr (by decide) ?_
    | split

theorem scrubWords_only (a1) (a2) (a3) (a4) {gs : List Group} {s t : State} (m : [.store, .log, .mem, .link, .out, .freeCtr, .bytes] ⊆ gs) (k : Only gs s t) :
    Only gs s (Machine.scrubWords a1 a2 a3 a4 t) := by
  refine Only.after (hs := [.store, .log, .mem, .link, .out, .freeCtr, .bytes]) ?_ m k
  clear m k
  induction a3 generalizing a1 a2 a4 t with
  | zero =>
    unfold Machine.scrubWords
    try dsimp only
    repeat' with_reducible exact Only.refl
  | succ x ih =>
    unfold Machine.scrubWords
    try dsimp only
    repeat' with_reducible first
        | exact Only.refl
        | refine Only.trans ?_ (ih ..)
        | refine scrubWord_only _ _ _ (by decide) ?_

theorem tellLosers_only (a1) (a2) {gs : List Group} {s t : State} (m : [.out, .freeCtr] ⊆ gs) (k : Only gs s t) :
    Only gs s (Machine.tellLosers a1 a2 t) := by
  refine Only.after (hs := [.out, .freeCtr]) ?_ m k
  clear m k
  induction a2 generalizing a1 t with
  | nil =>
    unfold Machine.tellLosers
    try dsimp only
    repeat' with_reducible exact Only.refl
  | cons x l ih =>
    unfold Machine.tellLosers
    try dsimp only
    repeat' with_reducible first
        | exact Only.refl
        | refine Only.trans ?_ (ih ..)
        | refine send_only _ (by decide) ?_
        | fail_if_no_progress refine Only.atFreeCtr (by decide) ?_

theorem rebuiltTables_only {gs : List Group} {s t : State} (m : [.mem, .mmu, .serve, .bytes] ⊆ gs) (k : Only gs s t) :
    Only gs s (Machine.rebuiltTables t) := by
  refine Only.after (hs := [.mem, .mmu, .serve, .bytes]) ?_ m k
  clear m k
  unfold Machine.rebuiltTables
  try dsimp only
  repeat' first
    | with_reducible first | exact Only.refl | refine buildTables_only (by decide) ?_
    | split

theorem armInjection_only {gs : List Group} {s t : State} (m : [.log, .mem, .link, .out] ⊆ gs) (k : Only gs s t) :
    Only gs s (Machine.armInjection t) := by
  refine Only.after (hs := [.log, .mem, .link, .out]) ?_ m k
  clear m k
  unfold Machine.armInjection
  try dsimp only
  repeat' first
    | with_reducible first
      | exact Only.refl
      | refine injectInto_only _ (by decide) ?_
      | fail_if_no_progress refine Only.atMem (by decide) rfl ?_
    | split

theorem writeEccwCtrl_only (a1) (a2) {gs : List Group} {s t : State} (m : [.aon, .log, .mem, .link, .out] ⊆ gs) (k : Only gs s t) :
    Only gs s (Machine.writeEccwCtrl a1 a2 t) := by
  refine Only.after (hs := [.aon, .log, .mem, .link, .out]) ?_ m k
  clear m k
  unfold Machine.writeEccwCtrl
  try dsimp only
  repeat' first
    | with_reducible first
      | exact Only.refl
      | refine noteOffline_only (by decide) ?_
      | refine noteDeny_only (by decide) ?_
      | refine armInjection_only (by decide) ?_
      | fail_if_no_progress refine Only.atMem (by decide) rfl ?_
    | split

theorem hardRepairs_only (a1) (a2) (a3) {gs : List Group} {s t : State} (m : [.store, .log, .link, .out] ⊆ gs) (k : Only gs s t) :
    Only gs s (Machine.hardRepairs a1 a2 a3 t) := by
  refine Only.after (hs := [.store, .log, .link, .out]) ?_ m k
  clear m k
  induction a3 generalizing a1 a2 t with
  | nil =>
    unfold Machine.hardRepairs
    try dsimp only
    repeat' with_reducible exact Only.refl
  | cons x l ih =>
    unfold Machine.hardRepairs
    try dsimp only
    repeat' first
        | with_reducible first
          | exact Only.refl
          | refine Only.trans ?_ (ih ..)
          | refine logInfo_only _ _ _ _ (by decide) ?_
          | refine logUe_only _ _ _ _ _ (by decide) ?_
          | fail_if_no_progress refine Only.atStore (by decide) ?_
        | split

theorem releaseRetired_only {gs : List Group} {s t : State} (m : [.store] ⊆ gs) (k : Only gs s t) :
    Only gs s (Machine.releaseRetired t) := by
  refine Only.after (hs := [.store]) ?_ m k
  clear m k
  unfold Machine.releaseRetired
  try dsimp only
  repeat' with_reducible first | exact Only.refl | fail_if_no_progress refine Only.atStore (by decide) ?_

theorem loadEccw_only (a1) {gs : List Group} {s t : State} (m : [.mem] ⊆ gs) (k : Only gs s t) :
    Only gs s (Machine.loadEccw a1 t) := by
  refine Only.after (hs := [.mem]) ?_ m k
  clear m k
  unfold Machine.loadEccw
  try dsimp only
  repeat' with_reducible first | exact Only.refl | fail_if_no_progress refine Only.atMem (by decide) rfl ?_

theorem execHbmRead_next (a1) (a2) (a3) (a4) (a5) (t : State) :
    ∃ u, Machine.execHbmRead a1 a2 a3 a4 a5 t = .next u ∧ Only [.store, .log, .mem, .serve, .link, .out, .freeCtr] t u := by
  refine ⟨_, rfl, ?_⟩
  try dsimp only
  repeat' first
    | with_reducible first
      | exact Only.refl
      | refine countStatic_only _ _ (by decide) ?_
      | refine errorResponse_only _ _ (by decide) ?_
      | refine answerRead_only _ _ _ _ _ (by decide) ?_
      | refine readLine_only _ _ (by decide) ?_
    | split

theorem execHbmWrite_next (a1) (a2) (a3) (a4) (a5) (a6) (t : State) :
    ∃ u, Machine.execHbmWrite a1 a2 a3 a4 a5 a6 t = .next u ∧ Only [.store, .log, .mem, .serve, .sealed, .link, .out, .freeCtr, .bytes] t u := by
  refine ⟨_, rfl, ?_⟩
  try dsimp only
  repeat' first
    | with_reducible first
      | exact Only.refl
      | refine countStatic_only _ _ (by decide) ?_
      | refine errorResponse_only _ _ (by decide) ?_
      | refine answerWrite_only _ _ _ (by decide) ?_
      | refine writeLine_only _ _ _ (by decide) ?_
    | split

theorem execSliceAccess_next (a1) (a2) (a3) (a4) (a5) (a6) (a7) (a8) (t : State) :
    ∃ u, Machine.execSliceAccess a1 a2 a3 a4 a5 a6 a7 a8 t = .next u ∧ Only [.store, .log, .mem, .link, .out, .freeCtr, .bytes] t u := by
  refine ⟨_, rfl, ?_⟩
  try dsimp only
  repeat' first
    | with_reducible first
      | exact Only.refl
      | refine errorResponse_only _ _ (by decide) ?_
      | refine serveBank_only _ (by decide) ?_
      | fail_if_no_progress refine Only.atMem (by decide) rfl ?_
    | split

theorem execRefresh_next (a1) (t : State) :
    ∃ u, Machine.execRefresh a1 t = .next u ∧ Only [.mem] t u := by
  refine ⟨_, rfl, ?_⟩
  try dsimp only
  repeat' first
    | with_reducible first | exact Only.refl | fail_if_no_progress refine Only.atMem (by decide) rfl ?_
    | split

theorem execMaintenanceSlot_next (a1) (a2) (a3) (a4) (t : State) :
    ∃ u, Machine.execMaintenanceSlot a1 a2 a3 a4 t = .next u ∧ Only [.store, .log, .mem, .serve, .link, .out, .freeCtr, .bytes] t u := by
  refine ⟨_, rfl, ?_⟩
  try dsimp only
  repeat' first
    | with_reducible first | exact Only.refl | refine maintain_only _ _ _ _ (by decide) ?_
    | split

theorem execScrub_next (a1) (t : State) :
    ∃ u, Machine.execScrub a1 t = .next u ∧ Only [.store, .log, .mem, .serve, .link, .out, .freeCtr, .bytes] t u := by
  refine ⟨_, rfl, ?_⟩
  try dsimp only
  repeat' first
    | with_reducible first
      | exact Only.refl
      | refine maintain_only _ _ _ _ (by decide) ?_
      | refine advanceScrub_only _ (by decide) ?_
      | refine scrubWords_only _ _ _ _ (by decide) ?_
    | split

theorem execSliceUnitRequest_next (a1) (a2) (t : State) :
    ∃ u, Machine.execSliceUnitRequest a1 a2 t = .next u ∧ Only [.mem, .out, .freeCtr] t u := by
  refine ⟨_, rfl, ?_⟩
  try dsimp only
  repeat' first
    | with_reducible first
      | exact Only.refl
      | refine takeUnits_only _ _ _ (by decide) ?_
      | refine tellLosers_only _ _ (by decide) ?_
      | refine send_only _ (by decide) ?_
      | fail_if_no_progress refine Only.atMem (by decide) rfl ?_
    | split

theorem execZeroFillDone_next (a1) (t : State) :
    ∃ u, Machine.execZeroFillDone a1 t = .next u ∧ Only [.units, .mem, .mmu, .serve, .bytes] t u := by
  refine ⟨_, rfl, ?_⟩
  try dsimp only
  repeat' first
    | with_reducible first
      | exact Only.refl
      | refine rebuiltTables_only (by decide) ?_
      | refine setUnitSt_only _ _ _ (by decide) ?_
    | fail_if_no_progress ((with_reducible refine Only.atBytes (by decide) (by decide) ?_ ?_) <;> try exact fun w => w)
    | exact fun w => Tab.wf_filter w
    | split

theorem execEccwArm_next (a1) (a2) (t : State) :
    ∃ u, Machine.execEccwArm a1 a2 t = .next u ∧ Only [.aon, .log, .mem, .link, .out] t u := by
  refine ⟨_, rfl, ?_⟩
  try dsimp only
  repeat' with_reducible first | exact Only.refl | refine writeEccwCtrl_only _ _ (by decide) ?_

theorem execEccwExpiry_next (t : State) :
    ∃ u, Machine.execEccwExpiry t = .next u ∧ Only [.mem] t u := by
  refine ⟨_, rfl, ?_⟩
  try dsimp only
  repeat' first
    | with_reducible first | exact Only.refl | fail_if_no_progress refine Only.atMem (by decide) rfl ?_
    | split

theorem execMemStatus_next (a1) (t : State) :
    ∃ u, Machine.execMemStatus a1 t = .next u ∧ Only [.mbx] t u := by
  refine ⟨_, rfl, ?_⟩
  try dsimp only
  repeat' with_reducible first
    | exact Only.refl
    | refine command_only _ _ _ _ (fun _ _ => ?_) (by decide) ?_
    | refine replyDone_only _ _ _ (by decide) ?_

theorem execMemInterleave_next (a1) (t : State) :
    ∃ u, Machine.execMemInterleave a1 t = .next u ∧ Only [.mbx, .mem] t u := by
  refine ⟨_, rfl, ?_⟩
  try dsimp only
  repeat' with_reducible first
    | exact Only.refl
    | refine command_only _ _ _ _ (fun _ _ => ?_) (by decide) ?_
    | refine replyDone_only _ _ _ (by decide) ?_
    | fail_if_no_progress refine Only.atMem (by decide) rfl ?_

theorem execScrubConfig_next (a1) (t : State) :
    ∃ u, Machine.execScrubConfig a1 t = .next u ∧ Only [.mbx, .mem] t u := by
  refine ⟨_, rfl, ?_⟩
  try dsimp only
  repeat' with_reducible first
    | exact Only.refl
    | refine command_only _ _ _ _ (fun _ _ => ?_) (by decide) ?_
    | refine replyDone_only _ _ _ (by decide) ?_
    | fail_if_no_progress refine Only.atMem (by decide) rfl ?_

theorem execPageRetire_next (a1) (t : State) :
    ∃ u, Machine.execPageRetire a1 t = .next u ∧ Only [.store, .mbx, .log, .mem, .serve, .link, .out] t u := by
  refine ⟨_, rfl, ?_⟩
  try dsimp only
  repeat' first
    | with_reducible first
      | exact Only.refl
      | refine command_only _ _ _ _ (fun _ _ => ?_) (by decide) ?_
      | refine retirePending_only _ (by decide) ?_
      | refine replyFail_only _ _ _ (by decide) ?_
      | refine replyDone_only _ _ _ (by decide) ?_
    | split

theorem execPprRun_next (a1) (a2) (t : State) :
    ∃ u, Machine.execPprRun a1 a2 t = .next u ∧ Only [.store, .mbx, .log, .link, .out] t u := by
  refine ⟨_, rfl, ?_⟩
  try dsimp only
  repeat' with_reducible first
    | exact Only.refl
    | refine command_only _ _ _ _ (fun _ _ => ?_) (by decide) ?_
    | refine replyDone_only _ _ _ (by decide) ?_
    | refine releaseRetired_only (by decide) ?_
    | refine hardRepairs_only _ _ _ (by decide) ?_

theorem execEccInject_next (a1) (t : State) :
    ∃ u, Machine.execEccInject a1 t = .next u ∧ Only [.mbx, .log, .mem, .link, .out] t u := by
  refine ⟨_, rfl, ?_⟩
  try dsimp only
  repeat' first
    | with_reducible first
      | exact Only.refl
      | refine command_only _ _ _ _ (fun _ _ => ?_) (by decide) ?_
      | refine loadEccw_only _ (by decide) ?_
      | refine replyDone_only _ _ _ (by decide) ?_
      | refine armInjection_only (by decide) ?_
    | split

end Sys2Proof.Laws
end

