-- ==== Sys2Proof/Laws/Power.lean ====
section
/-!
SUPPORT. Which groups of state each operation of Machine/Power.lean changes; it keeps every other group and the forms of the
memory and of the event ring.
-/
namespace Sys2Proof.Laws

open Sys2Proof.Machine

theorem coldStart_only (a1) (a2) {gs : List Group} {s t : State} (m : [.aon, .pins, .clk, .pwr, .store, .log, .units, .therm, .prot, .mem, .serve, .link, .bytes] ⊆ gs) (k : Only gs s t) :
    Only gs s (Machine.coldStart a1 a2 t) := by
  refine Only.after (hs := [.aon, .pins, .clk, .pwr, .store, .log, .units, .therm, .prot, .mem, .serve, .link, .bytes]) ?_ m k
  clear m k
  unfold Machine.coldStart
  try dsimp only
  repeat' first
    | with_reducible exact Only.refl
    | fail_if_no_progress ((with_reducible refine Only.atAonPinsClkPwrStoreLogUnitsThermProtMemServeLinkBytes (by decide) (by decide) (by decide) (by decide) (by decide) (by decide) (by decide) (by decide) (by decide) (by decide) (by decide) (by decide) (by decide) ?_ ⟨rfl, rfl⟩ ?_ ?_) <;> try exact fun w => w)
    | exact fun _ => Log.fresh_wf
    | exact fun _ => Mem.fresh_wf

theorem startIfReleased_only {gs : List Group} {s t : State} (m : [.aon, .pins, .pmx, .pwr, .start, .store, .log, .link, .out] ⊆ gs) (k : Only gs s t) :
    Only gs s (Machine.startIfReleased t) := by
  refine Only.after (hs := [.aon, .pins, .pmx, .pwr, .start, .store, .log, .link, .out]) ?_ m k
  clear m k
  unfold Machine.startIfReleased
  try dsimp only
  repeat' first
    | with_reducible first | exact Only.refl | refine beginStart_only (by decide) ?_
    | with_reducible fail_if_no_progress refine Only.atAonPwr (by decide) (by decide) ?_
    | split

theorem endHostLeases_only (a1) {gs : List Group} {s t : State} (m : [.mbx] ⊆ gs) (k : Only gs s t) :
    Only gs s (Machine.endHostLeases a1 t) := by
  refine Only.after (hs := [.mbx]) ?_ m k
  clear m k
  induction a1 generalizing t with
  | nil =>
    unfold Machine.endHostLeases
    try dsimp only
    repeat' with_reducible exact Only.refl
  | cons x l ih =>
    unfold Machine.endHostLeases
    try dsimp only
    repeat' with_reducible first
        | exact Only.refl
        | refine Only.trans ?_ (ih ..)
        | refine endLease_only _ (by decide) ?_

theorem perstEffect_only {gs : List Group} {s t : State} (m : [.aon, .mbx, .link] ⊆ gs) (k : Only gs s t) :
    Only gs s (Machine.perstEffect t) := by
  refine Only.after (hs := [.aon, .mbx, .link]) ?_ m k
  clear m k
  unfold Machine.perstEffect
  try dsimp only
  repeat' first
    | with_reducible first
      | exact Only.refl
      | refine resetCause_only _ (by decide) ?_
      | refine endHostLeases_only _ (by decide) ?_
      | refine hostReset_only (by decide) ?_
    | with_reducible fail_if_no_progress refine Only.atAonMbx (by decide) (by decide) ?_

theorem clkLoss_only (a1) {gs : List Group} {s t : State} (m : [.aon, .pins, .clk, .pwr, .start, .store, .mbx, .log, .units, .vane, .net, .coll, .lull, .bond, .mem, .mmu, .dma, .serve, .sealed, .link, .out, .freeCtr, .bytes] ⊆ gs) (k : Only gs s t) :
    Only gs s (Machine.clkLoss a1 t) := by
  refine Only.after (hs := [.aon, .pins, .clk, .pwr, .start, .store, .mbx, .log, .units, .vane, .net, .coll, .lull, .bond, .mem, .mmu, .dma, .serve, .sealed, .link, .out, .freeCtr, .bytes]) ?_ m k
  clear m k
  unfold Machine.clkLoss
  try dsimp only
  repeat' first
    | with_reducible first
      | exact Only.refl
      | refine takeover_only _ (by decide) ?_
      | refine powerDown_only (by decide) ?_
      | refine packageFatal_only _ _ _ _ (by decide) ?_
      | refine stackLost_only _ _ (by decide) ?_
      | refine logUe_only _ _ _ _ _ (by decide) ?_
      | refine gustDown_only _ _ _ (by decide) ?_
      | refine hostPortsDown_only (by decide) ?_
      | refine pushFrame_only _ (by decide) ?_
      | refine fenceTile_only _ _ (by decide) ?_
      | fail_if_no_progress refine Only.atAon (by decide) ?_
      | fail_if_no_progress refine Only.atClk (by decide) ?_
    | with_reducible fail_if_no_progress refine Only.atAonClk (by decide) (by decide) ?_
    | split

theorem monitorIfUp_only {gs : List Group} {s t : State} (m : [.aon, .sealed] ⊆ gs) (k : Only gs s t) :
    Only gs s (Machine.monitorIfUp t) := by
  refine Only.after (hs := [.aon, .sealed]) ?_ m k
  clear m k
  unfold Machine.monitorIfUp
  try dsimp only
  repeat' first
    | with_reducible first | exact Only.refl | refine startMonitor_only (by decide) ?_
    | split

theorem downStep_only (a1) {gs : List Group} {s t : State} (m : [.aon, .pins, .clk, .pwr, .mbx, .log, .link, .out] ⊆ gs) (k : Only gs s t) :
    Only gs s (Machine.downStep a1 t) := by
  refine Only.after (hs := [.aon, .pins, .clk, .pwr, .mbx, .log, .link, .out]) ?_ m k
  clear m k
  unfold Machine.downStep
  try dsimp only
  repeat' first
    | with_reducible first
      | exact Only.refl
      | refine mailboxTakeover_only (by decide) ?_
      | refine pushFrames_only _ (by decide) ?_
      | fail_if_no_progress refine Only.atPwr (by decide) ?_
    | with_reducible fail_if_no_progress refine Only.atAonClkPwr (by decide) (by decide) (by decide) ?_
    | split

theorem applyFrame_only (a1) (a2) {gs : List Group} {s t : State} (m : [.pwr] ⊆ gs) (k : Only gs s t) :
    Only gs s (Machine.applyFrame a1 a2 t) := by
  refine Only.after (hs := [.pwr]) ?_ m k
  clear m k
  unfold Machine.applyFrame
  try dsimp only
  repeat' with_reducible first | exact Only.refl | refine modRail_only _ _ _ (by decide) ?_

theorem sendChange_only (a1) (a2) {gs : List Group} {s t : State} (m : [.pwr, .out] ⊆ gs) (k : Only gs s t) :
    Only gs s (Machine.sendChange a1 a2 t) := by
  refine Only.after (hs := [.pwr, .out]) ?_ m k
  clear m k
  unfold Machine.sendChange
  try dsimp only
  repeat' first
    | with_reducible first | exact Only.refl | refine pushFrame_only _ (by decide) ?_
    | split

theorem finishChange_only (a1) (a2) {gs : List Group} {s t : State} (m : [.mbx] ⊆ gs) (k : Only gs s t) :
    Only gs s (Machine.finishChange a1 a2 t) := by
  refine Only.after (hs := [.mbx]) ?_ m k
  clear m k
  unfold Machine.finishChange
  try dsimp only
  repeat' first
    | with_reducible first
      | exact Only.refl
      | refine reply_only _ _ (by decide) ?_
      | refine setBox_only _ _ (by decide) ?_
    | split

theorem changeOk_only (a1) {gs : List Group} {s t : State} (m : [.pwr, .mbx] ⊆ gs) (k : Only gs s t) :
    Only gs s (Machine.changeOk a1 t) := by
  refine Only.after (hs := [.pwr, .mbx]) ?_ m k
  clear m k
  unfold Machine.changeOk
  try dsimp only
  repeat' first
    | with_reducible first
      | exact Only.refl
      | refine finishChange_only _ _ (by decide) ?_
      | fail_if_no_progress refine Only.atPwr (by decide) ?_
    | split

theorem changeBad_only (a1) {gs : List Group} {s t : State} (m : [.mbx] ⊆ gs) (k : Only gs s t) :
    Only gs s (Machine.changeBad a1 t) := by
  refine Only.after (hs := [.mbx]) ?_ m k
  clear m k
  unfold Machine.changeBad
  try dsimp only
  repeat' with_reducible first | exact Only.refl | refine finishChange_only _ _ (by decide) ?_

theorem runChanges_only (a1) {gs : List Group} {s t : State} (m : [.pwr, .mbx, .out] ⊆ gs) (k : Only gs s t) :
    Only gs s (Machine.runChanges a1 t) := by
  refine Only.after (hs := [.pwr, .mbx, .out]) ?_ m k
  clear m k
  induction a1 generalizing t with
  | nil =>
    unfold Machine.runChanges
    try dsimp only
    repeat' with_reducible first | exact Only.refl | fail_if_no_progress refine Only.atPwr (by decide) ?_
  | cons x l ih =>
    unfold Machine.runChanges
    try dsimp only
    repeat' first
        | with_reducible first
          | exact Only.refl
          | refine Only.trans ?_ (ih ..)
          | refine changeOk_only _ (by decide) ?_
          | refine sendChange_only _ _ (by decide) ?_
          | fail_if_no_progress refine Only.atPwr (by decide) ?_
        | split

theorem askRailChange_only (a1) {gs : List Group} {s t : State} (m : [.pwr, .mbx, .out] ⊆ gs) (k : Only gs s t) :
    Only gs s (Machine.askRailChange a1 t) := by
  refine Only.after (hs := [.pwr, .mbx, .out]) ?_ m k
  clear m k
  unfold Machine.askRailChange
  try dsimp only
  repeat' first
    | with_reducible first
      | exact Only.refl
      | refine runChanges_only _ (by decide) ?_
      | fail_if_no_progress refine Only.atPwr (by decide) ?_
    | split

theorem nextChange_only {gs : List Group} {s t : State} (m : [.pwr, .mbx, .out] ⊆ gs) (k : Only gs s t) :
    Only gs s (Machine.nextChange t) := by
  refine Only.after (hs := [.pwr, .mbx, .out]) ?_ m k
  clear m k
  unfold Machine.nextChange
  try dsimp only
  repeat' with_reducible first | exact Only.refl | refine runChanges_only _ (by decide) ?_

theorem sendRestore_only (a1) {gs : List Group} {s t : State} (m : [.pwr, .mbx, .out] ⊆ gs) (k : Only gs s t) :
    Only gs s (Machine.sendRestore a1 t) := by
  refine Only.after (hs := [.pwr, .mbx, .out]) ?_ m k
  clear m k
  unfold Machine.sendRestore
  try dsimp only
  repeat' first
    | with_reducible first
      | exact Only.refl
      | refine nextChange_only (by decide) ?_
      | refine pushFrame_only _ (by decide) ?_
    | split

theorem abandonChange_only (a1) {gs : List Group} {s t : State} (m : [.pwr, .mbx, .out] ⊆ gs) (k : Only gs s t) :
    Only gs s (Machine.abandonChange a1 t) := by
  refine Only.after (hs := [.pwr, .mbx, .out]) ?_ m k
  clear m k
  unfold Machine.abandonChange
  try dsimp only
  repeat' first
    | with_reducible first
      | exact Only.refl
      | refine sendRestore_only _ (by decide) ?_
      | refine changeBad_only _ (by decide) ?_
    | split

theorem droopRail_only {gs : List Group} {s t : State} (m : [.pwr, .log, .link, .out] ⊆ gs) (k : Only gs s t) :
    Only gs s (Machine.droopRail t) := by
  refine Only.after (hs := [.pwr, .log, .link, .out]) ?_ m k
  clear m k
  unfold Machine.droopRail
  try dsimp only
  repeat' with_reducible first
    | exact Only.refl
    | refine logCe_only _ _ _ _ (by decide) ?_
    | fail_if_no_progress refine Only.atPwr (by decide) ?_

theorem loseTileRail_only (a1) (a2) {gs : List Group} {s t : State} (m : [.pwr, .log, .units, .net, .coll, .lull, .bond, .serve, .link, .out] ⊆ gs) (k : Only gs s t) :
    Only gs s (Machine.loseTileRail a1 a2 t) := by
  refine Only.after (hs := [.pwr, .log, .units, .net, .coll, .lull, .bond, .serve, .link, .out]) ?_ m k
  clear m k
  unfold Machine.loseTileRail
  try dsimp only
  repeat' with_reducible first
    | exact Only.refl
    | refine modRail_only _ _ _ (by decide) ?_
    | refine fenceTile_only _ _ (by decide) ?_

theorem actOnStatus_only (a1) (a2) {gs : List Group} {s t : State} (m : [.aon, .pins, .clk, .pwr, .start, .store, .mbx, .log, .units, .vane, .net, .coll, .lull, .bond, .mem, .mmu, .dma, .serve, .sealed, .link, .out, .freeCtr, .bytes] ⊆ gs) (k : Only gs s t) :
    Only gs s (Machine.actOnStatus a1 a2 t) := by
  refine Only.after (hs := [.aon, .pins, .clk, .pwr, .start, .store, .mbx, .log, .units, .vane, .net, .coll, .lull, .bond, .mem, .mmu, .dma, .serve, .sealed, .link, .out, .freeCtr, .bytes]) ?_ m k
  clear m k
  unfold Machine.actOnStatus
  try dsimp only
  repeat' first
    | with_reducible first
      | exact Only.refl
      | refine droopRail_only (by decide) ?_
      | refine seqFail_only _ _ (by decide) ?_
      | refine logUe_only _ _ _ _ _ (by decide) ?_
      | refine pushFrame_only _ (by decide) ?_
      | refine loseTileRail_only _ _ (by decide) ?_
      | refine logRec_only _ _ _ _ _ _ (by decide) ?_
      | refine powerDown_only (by decide) ?_
      | refine packageFatal_only _ _ _ _ (by decide) ?_
      | refine logCe_only _ _ _ _ (by decide) ?_
    | split

theorem alertLevel_only {gs : List Group} {s t : State} (m : [.pins] ⊆ gs) (k : Only gs s t) :
    Only gs s (Machine.alertLevel t) := by
  refine Only.after (hs := [.pins]) ?_ m k
  clear m k
  unfold Machine.alertLevel
  try dsimp only
  repeat' first
    | with_reducible first | exact Only.refl | fail_if_no_progress refine Only.atPins (by decide) ?_
    | split

theorem governShare_only (a1) (a2) {gs : List Group} {s t : State} (m : [.aon, .pwr, .log, .link, .out] ⊆ gs) (k : Only gs s t) :
    Only gs s (Machine.governShare a1 a2 t) := by
  refine Only.after (hs := [.aon, .pwr, .log, .link, .out]) ?_ m k
  clear m k
  unfold Machine.governShare
  try dsimp only
  repeat' first
    | with_reducible first | exact Only.refl | refine logLimited_only _ _ _ _ _ _ _ (by decide) ?_
    | with_reducible fail_if_no_progress refine Only.atAonPwr (by decide) (by decide) ?_
    | split

theorem governAll_only (a1) {gs : List Group} {s t : State} (m : [.aon, .pwr, .log, .link, .out] ⊆ gs) (k : Only gs s t) :
    Only gs s (Machine.governAll a1 t) := by
  refine Only.after (hs := [.aon, .pwr, .log, .link, .out]) ?_ m k
  clear m k
  induction a1 generalizing t with
  | nil =>
    unfold Machine.governAll
    try dsimp only
    repeat' with_reducible exact Only.refl
  | cons x l ih =>
    unfold Machine.governAll
    try dsimp only
    repeat' with_reducible first
        | exact Only.refl
        | refine Only.trans ?_ (ih ..)
        | refine governShare_only _ _ (by decide) ?_

theorem sweepEnd_only {gs : List Group} {s t : State} (m : [.aon, .pwr, .log, .link, .out] ⊆ gs) (k : Only gs s t) :
    Only gs s (Machine.sweepEnd t) := by
  refine Only.after (hs := [.aon, .pwr, .log, .link, .out]) ?_ m k
  clear m k
  unfold Machine.sweepEnd
  try dsimp only
  repeat' first
    | with_reducible first | exact Only.refl | refine governAll_only _ (by decide) ?_
    | split

theorem scanStatusEnd_only {gs : List Group} {s t : State} (m : [.pwr, .out] ⊆ gs) (k : Only gs s t) :
    Only gs s (Machine.scanStatusEnd t) := by
  refine Only.after (hs := [.pwr, .out]) ?_ m k
  clear m k
  unfold Machine.scanStatusEnd
  try dsimp only
  repeat' first
    | with_reducible first | exact Only.refl | refine pushFrames_only _ (by decide) ?_
    | split

theorem frameAccepted_only (a1) (a2) {gs : List Group} {s t : State} (m : [.aon, .pins, .clk, .pwr, .start, .store, .mbx, .log, .units, .vane, .net, .coll, .lull, .bond, .mem, .mmu, .dma, .serve, .sealed, .link, .out, .freeCtr, .bytes] ⊆ gs) (k : Only gs s t) :
    Only gs s (Machine.frameAccepted a1 a2 t) := by
  refine Only.after (hs := [.aon, .pins, .clk, .pwr, .start, .store, .mbx, .log, .units, .vane, .net, .coll, .lull, .bond, .mem, .mmu, .dma, .serve, .sealed, .link, .out, .freeCtr, .bytes]) ?_ m k
  clear m k
  unfold Machine.frameAccepted
  try dsimp only
  repeat' first
    | with_reducible first
      | exact Only.refl
      | refine nextFrame_only (by decide) ?_
      | refine applyFrame_only _ _ (by decide) ?_
      | refine nextChange_only (by decide) ?_
      | refine changeOk_only _ (by decide) ?_
      | refine sendChange_only _ _ (by decide) ?_
      | refine sendRestore_only _ (by decide) ?_
      | refine alertLevel_only (by decide) ?_
      | refine actOnStatus_only _ _ (by decide) ?_
      | refine seqFail_only _ _ (by decide) ?_
      | refine scanStatusEnd_only (by decide) ?_
      | refine sweepEnd_only (by decide) ?_
    | split

theorem frameLost_only (a1) {gs : List Group} {s t : State} (m : [.aon, .pins, .pwr, .mbx, .log, .link, .out] ⊆ gs) (k : Only gs s t) :
    Only gs s (Machine.frameLost a1 t) := by
  refine Only.after (hs := [.aon, .pins, .pwr, .mbx, .log, .link, .out]) ?_ m k
  clear m k
  unfold Machine.frameLost
  try dsimp only
  repeat' first
    | with_reducible first
      | exact Only.refl
      | refine abandonChange_only _ (by decide) ?_
      | refine sendRestore_only _ (by decide) ?_
      | refine sweepEnd_only (by decide) ?_
      | refine alertLevel_only (by decide) ?_
    | split

theorem moduleFails_only (a1) (a2) {gs : List Group} {s t : State} (m : [.aon, .pins, .clk, .pwr, .start, .store, .mbx, .log, .units, .vane, .net, .coll, .lull, .bond, .mem, .mmu, .dma, .serve, .sealed, .link, .out, .freeCtr, .bytes] ⊆ gs) (k : Only gs s t) :
    Only gs s (Machine.moduleFails a1 a2 t) := by
  refine Only.after (hs := [.aon, .pins, .clk, .pwr, .start, .store, .mbx, .log, .units, .vane, .net, .coll, .lull, .bond, .mem, .mmu, .dma, .serve, .sealed, .link, .out, .freeCtr, .bytes]) ?_ m k
  clear m k
  unfold Machine.moduleFails
  try dsimp only
  repeat' first
    | with_reducible first
      | exact Only.refl
      | refine seqFail_only _ _ (by decide) ?_
      | refine logRec_only _ _ _ _ _ _ (by decide) ?_
      | refine loseTileRail_only _ _ (by decide) ?_
      | refine logUe_only _ _ _ _ _ (by decide) ?_
      | refine packageFatal_only _ _ _ _ (by decide) ?_
      | refine powerDown_only (by decide) ?_
    | with_reducible fail_if_no_progress refine Only.atAonPwr (by decide) (by decide) ?_
    | split

theorem noResponse_only (a1) {gs : List Group} {s t : State} (m : [.aon, .pins, .clk, .pwr, .start, .store, .mbx, .log, .units, .vane, .net, .coll, .lull, .bond, .mem, .mmu, .dma, .serve, .sealed, .link, .out, .freeCtr, .bytes] ⊆ gs) (k : Only gs s t) :
    Only gs s (Machine.noResponse a1 t) := by
  refine Only.after (hs := [.aon, .pins, .clk, .pwr, .start, .store, .mbx, .log, .units, .vane, .net, .coll, .lull, .bond, .mem, .mmu, .dma, .serve, .sealed, .link, .out, .freeCtr, .bytes]) ?_ m k
  clear m k
  unfold Machine.noResponse
  try dsimp only
  repeat' with_reducible first
    | exact Only.refl
    | refine moduleFails_only _ _ (by decide) ?_
    | refine frameLost_only _ (by decide) ?_
    | refine nextFrame_only (by decide) ?_

theorem frameRefused_only (a1) {gs : List Group} {s t : State} (m : [.aon, .pins, .clk, .pwr, .start, .store, .mbx, .log, .units, .vane, .net, .coll, .lull, .bond, .mem, .mmu, .dma, .serve, .sealed, .link, .out, .freeCtr, .bytes] ⊆ gs) (k : Only gs s t) :
    Only gs s (Machine.frameRefused a1 t) := by
  refine Only.after (hs := [.aon, .pins, .clk, .pwr, .start, .store, .mbx, .log, .units, .vane, .net, .coll, .lull, .bond, .mem, .mmu, .dma, .serve, .sealed, .link, .out, .freeCtr, .bytes]) ?_ m k
  clear m k
  unfold Machine.frameRefused
  try dsimp only
  repeat' first
    | with_reducible first
      | exact Only.refl
      | refine nextFrame_only (by decide) ?_
      | refine moduleFails_only _ _ (by decide) ?_
      | refine frameLost_only _ (by decide) ?_
      | refine abandonChange_only _ (by decide) ?_
      | refine logInfo_only _ _ _ _ (by decide) ?_
      | refine sendRestore_only _ (by decide) ?_
    | split

theorem fgrTurnOn_only (a1) {gs : List Group} {s t : State} (m : [.pwr] ⊆ gs) (k : Only gs s t) :
    Only gs s (Machine.fgrTurnOn a1 t) := by
  refine Only.after (hs := [.pwr]) ?_ m k
  clear m k
  unfold Machine.fgrTurnOn
  try dsimp only
  repeat' with_reducible first | exact Only.refl | fail_if_no_progress refine Only.atPwr (by decide) ?_

theorem gateDone_only {gs : List Group} {s t : State} (m : [.mbx] ⊆ gs) (k : Only gs s t) :
    Only gs s (Machine.gateDone t) := by
  refine Only.after (hs := [.mbx]) ?_ m k
  clear m k
  unfold Machine.gateDone
  try dsimp only
  repeat' with_reducible first | exact Only.refl | refine completeAwait_only _ _ (by decide) ?_

theorem releasePort_only (a1) {gs : List Group} {s t : State} (m : [.bond] ⊆ gs) (k : Only gs s t) :
    Only gs s (Machine.releasePort a1 t) := by
  refine Only.after (hs := [.bond]) ?_ m k
  clear m k
  unfold Machine.releasePort
  try dsimp only
  repeat' with_reducible first | exact Only.refl | fail_if_no_progress refine Only.atBond (by decide) ?_

theorem closePort_only (a1) {gs : List Group} {s t : State} (m : [.bond] ⊆ gs) (k : Only gs s t) :
    Only gs s (Machine.closePort a1 t) := by
  refine Only.after (hs := [.bond]) ?_ m k
  clear m k
  unfold Machine.closePort
  try dsimp only
  repeat' with_reducible first | exact Only.refl | fail_if_no_progress refine Only.atBond (by decide) ?_

theorem closePorts_only (a1) {gs : List Group} {s t : State} (m : [.bond] ⊆ gs) (k : Only gs s t) :
    Only gs s (Machine.closePorts a1 t) := by
  refine Only.after (hs := [.bond]) ?_ m k
  clear m k
  induction a1 generalizing t with
  | nil =>
    unfold Machine.closePorts
    try dsimp only
    repeat' with_reducible exact Only.refl
  | cons x l ih =>
    unfold Machine.closePorts
    try dsimp only
    repeat' with_reducible first
        | exact Only.refl
        | refine Only.trans ?_ (ih ..)
        | refine closePort_only _ (by decide) ?_

theorem gateOff_only (a1) {gs : List Group} {s t : State} (m : [.pwr, .units, .bond] ⊆ gs) (k : Only gs s t) :
    Only gs s (Machine.gateOff a1 t) := by
  refine Only.after (hs := [.pwr, .units, .bond]) ?_ m k
  clear m k
  unfold Machine.gateOff
  try dsimp only
  repeat' first
    | with_reducible first
      | exact Only.refl
      | refine closePorts_only _ (by decide) ?_
      | refine setUnitSt_only _ _ _ (by decide) ?_
      | fail_if_no_progress refine Only.atPwr (by decide) ?_
    | split
    | (refine Only.foldl (fun _ _ => ?_) _ ?_)

theorem droopTileOn_only (a1) {gs : List Group} {s t : State} (m : [.pwr, .log, .link, .out] ⊆ gs) (k : Only gs s t) :
    Only gs s (Machine.droopTileOn a1 t) := by
  refine Only.after (hs := [.pwr, .log, .link, .out]) ?_ m k
  clear m k
  unfold Machine.droopTileOn
  try dsimp only
  repeat' with_reducible first
    | exact Only.refl
    | refine logLimited_only _ _ _ _ _ _ _ (by decide) ?_
    | fail_if_no_progress refine Only.atPwr (by decide) ?_

theorem execPwrOkRise_next (a1) (a2) (t : State) :
    ∃ u, Machine.execPwrOkRise a1 a2 t = .next u ∧ Only [.aon, .pins, .pmx, .clk, .pwr, .start, .store, .log, .units, .therm, .prot, .mem, .serve, .link, .out, .bytes] t u := by
  refine ⟨_, rfl, ?_⟩
  try dsimp only
  repeat' first
    | with_reducible first
      | exact Only.refl
      | refine startIfReleased_only (by decide) ?_
      | refine coldStart_only _ _ (by decide) ?_
    | split

theorem execPwrOkFall_next (t : State) :
    ∃ u, Machine.execPwrOkFall t = .next u ∧ Only [.aon, .pins, .pmx, .clk, .pwr, .start, .mbx, .log, .units, .therm, .prot, .vane, .net, .coll, .lull, .bond, .mem, .mmu, .dma, .serve, .sealed, .link, .out, .freeCtr, .bytes] t u := by
  refine ⟨_, rfl, ?_⟩
  try dsimp only
  repeat' first
    | with_reducible first
      | exact Only.refl
      | refine packageReset_only _ (by decide) ?_
      | refine hostReset_only (by decide) ?_
    | with_reducible fail_if_no_progress refine Only.atAonPinsClkThermProt (by decide) (by decide) (by decide) (by decide) (by decide) ⟨rfl, rfl⟩ ?_
    | split

theorem execTrayRstNFall_next (t : State) :
    ∃ u, Machine.execTrayRstNFall t = .next u ∧ Only [.aon, .pins, .pmx, .clk, .pwr, .start, .mbx, .log, .units, .prot, .vane, .net, .coll, .lull, .bond, .mem, .mmu, .dma, .serve, .sealed, .link, .out, .freeCtr, .bytes] t u := by
  refine ⟨_, rfl, ?_⟩
  try dsimp only
  repeat' first
    | with_reducible first
      | exact Only.refl
      | refine packageReset_only _ (by decide) ?_
      | fail_if_no_progress refine Only.atPins (by decide) ?_
    | split

theorem execTrayRstNRise_next (t : State) :
    ∃ u, Machine.execTrayRstNRise t = .next u ∧ Only [.aon, .pins, .pmx, .pwr, .start, .store, .log, .link, .out] t u := by
  refine ⟨_, rfl, ?_⟩
  try dsimp only
  repeat' first
    | with_reducible first
      | exact Only.refl
      | refine startIfReleased_only (by decide) ?_
      | fail_if_no_progress refine Only.atPins (by decide) ?_
    | split

theorem execPkgRstNFall_next (t : State) :
    ∃ u, Machine.execPkgRstNFall t = .next u ∧ Only [.aon, .pins, .pmx, .clk, .pwr, .start, .mbx, .log, .units, .prot, .vane, .net, .coll, .lull, .bond, .mem, .mmu, .dma, .serve, .sealed, .link, .out, .freeCtr, .bytes] t u := by
  refine ⟨_, rfl, ?_⟩
  try dsimp only
  repeat' first
    | with_reducible first
      | exact Only.refl
      | refine packageReset_only _ (by decide) ?_
      | fail_if_no_progress refine Only.atPins (by decide) ?_
    | split

theorem execPkgRstNRise_next (t : State) :
    ∃ u, Machine.execPkgRstNRise t = .next u ∧ Only [.aon, .pins, .pmx, .pwr, .start, .store, .log, .link, .out] t u := by
  refine ⟨_, rfl, ?_⟩
  try dsimp only
  repeat' first
    | with_reducible first
      | exact Only.refl
      | refine startIfReleased_only (by decide) ?_
      | fail_if_no_progress refine Only.atPins (by decide) ?_
    | split

theorem execPerstNFall_next (t : State) :
    ∃ u, Machine.execPerstNFall t = .next u ∧ Only [.aon, .pins, .mbx, .link] t u := by
  refine ⟨_, rfl, ?_⟩
  try dsimp only
  repeat' first
    | with_reducible first
      | exact Only.refl
      | refine perstEffect_only (by decide) ?_
      | fail_if_no_progress refine Only.atPins (by decide) ?_
    | split

theorem execXtalFail_next (t : State) :
    ∃ u, Machine.execXtalFail t = .next u ∧ Only [.aon, .pins, .clk, .pwr, .start, .store, .mbx, .log, .units, .vane, .net, .coll, .lull, .bond, .mem, .mmu, .dma, .serve, .sealed, .link, .out, .freeCtr, .bytes] t u := by
  refine ⟨_, rfl, ?_⟩
  try dsimp only
  repeat' first
    | with_reducible first
      | exact Only.refl
      | refine packageFatal_only _ _ _ _ (by decide) ?_
      | refine powerDown_only (by decide) ?_
      | fail_if_no_progress refine Only.atClk (by decide) ?_
    | split

theorem execClkLoss_next (a1) (t : State) :
    ∃ u, Machine.execClkLoss a1 t = .next u ∧ Only [.aon, .pins, .clk, .pwr, .start, .store, .mbx, .log, .units, .vane, .net, .coll, .lull, .bond, .mem, .mmu, .dma, .serve, .sealed, .link, .out, .freeCtr, .bytes] t u := by
  refine ⟨_, rfl, ?_⟩
  try dsimp only
  repeat' first
    | with_reducible first | exact Only.refl | refine clkLoss_only _ (by decide) ?_
    | split

theorem execPllLock_next (a1) (a2) (t : State) :
    ∃ u, Machine.execPllLock a1 a2 t = .next u ∧ Only [.aon, .pins, .clk, .pwr, .start, .store, .mbx, .log, .vane, .net, .coll, .lull, .bond, .mem, .mmu, .dma, .serve, .sealed, .link, .out, .freeCtr, .bytes] t u := by
  refine ⟨_, rfl, ?_⟩
  try dsimp only
  repeat' first
    | with_reducible first
      | exact Only.refl
      | refine monitorIfUp_only (by decide) ?_
      | refine railAdvance_only (by decide) ?_
      | refine failStart_only _ (by decide) ?_
      | refine logRec_only _ _ _ _ _ _ (by decide) ?_
      | refine powerDown_only (by decide) ?_
    | with_reducible fail_if_no_progress refine Only.atAonPwr (by decide) (by decide) ?_
    | with_reducible fail_if_no_progress refine Only.atClkPwr (by decide) (by decide) ?_
    | split

theorem execPowerGood_next (a1) (a2) (t : State) :
    ∃ u, Machine.execPowerGood a1 a2 t = .next u ∧ Only [.aon, .pwr, .start, .log, .sealed, .link, .out] t u := by
  refine ⟨_, rfl, ?_⟩
  try dsimp only
  repeat' first
    | with_reducible first
      | exact Only.refl
      | refine modRail_only _ _ _ (by decide) ?_
      | refine monitorIfUp_only (by decide) ?_
      | refine railAdvance_only (by decide) ?_
      | fail_if_no_progress refine Only.atPwr (by decide) ?_
    | split

theorem execPgDeadline_next (a1) (a2) (t : State) :
    ∃ u, Machine.execPgDeadline a1 a2 t = .next u ∧ Only [.aon, .pins, .clk, .pwr, .start, .store, .mbx, .log, .vane, .net, .coll, .lull, .bond, .mem, .mmu, .dma, .serve, .sealed, .link, .out, .freeCtr, .bytes] t u := by
  refine ⟨_, rfl, ?_⟩
  try dsimp only
  repeat' first
    | with_reducible first | exact Only.refl | refine seqFail_only _ _ (by decide) ?_
    | with_reducible fail_if_no_progress refine Only.atAonPwr (by decide) (by decide) ?_
    | split

theorem execPowerDownStep_next (t : State) :
    ∃ u, Machine.execPowerDownStep t = .next u ∧ Only [.aon, .pins, .clk, .pwr, .start, .mbx, .log, .link, .out] t u := by
  refine ⟨_, rfl, ?_⟩
  try dsimp only
  repeat' first
    | with_reducible first
      | exact Only.refl
      | refine downStep_only _ (by decide) ?_
      | refine railStep_only _ (by decide) ?_
    | split

theorem execTelemetrySweep_next (a1) (t : State) :
    ∃ u, Machine.execTelemetrySweep a1 t = .next u ∧ Only [.pwr, .out] t u := by
  refine ⟨_, rfl, ?_⟩
  try dsimp only
  repeat' first
    | with_reducible first | exact Only.refl | refine pushFrames_only _ (by decide) ?_
    | split

theorem execPcmdFrameEnd_next (a1) (a2) (a3) (t : State) :
    ∃ u, Machine.execPcmdFrameEnd a1 a2 a3 t = .next u ∧ Only [.aon, .pins, .clk, .pwr, .start, .store, .mbx, .log, .units, .vane, .net, .coll, .lull, .bond, .mem, .mmu, .dma, .serve, .sealed, .link, .out, .freeCtr, .bytes] t u := by
  refine ⟨_, rfl, ?_⟩
  try dsimp only
  repeat' first
    | with_reducible first
      | exact Only.refl
      | refine frameAccepted_only _ _ (by decide) ?_
      | refine noResponse_only _ (by decide) ?_
      | refine frameRefused_only _ (by decide) ?_
      | refine startFrame_only _ (by decide) ?_
      | fail_if_no_progress refine Only.atPwr (by decide) ?_
    | split

theorem execPcmdAlert_next (t : State) :
    ∃ u, Machine.execPcmdAlert t = .next u ∧ Only [.pins, .pwr, .out] t u := by
  refine ⟨_, rfl, ?_⟩
  try dsimp only
  repeat' first
    | with_reducible first
      | exact Only.refl
      | refine pushFrames_only _ (by decide) ?_
      | fail_if_no_progress refine Only.atPins (by decide) ?_
    | split

theorem execFgrInRegulation_next (a1) (t : State) :
    ∃ u, Machine.execFgrInRegulation a1 t = .next u ∧ Only [.pwr, .mbx, .units, .bond] t u := by
  refine ⟨_, rfl, ?_⟩
  try dsimp only
  repeat' first
    | with_reducible first
      | exact Only.refl
      | refine gateDone_only (by decide) ?_
      | refine releasePort_only _ (by decide) ?_
      | refine setUnitSt_only _ _ _ (by decide) ?_
      | fail_if_no_progress refine Only.atPwr (by decide) ?_
    | split

theorem execClusterGate_next (a1) (t : State) :
    ∃ u, Machine.execClusterGate a1 t = .next u ∧ Only [.pwr, .mbx, .units, .bond] t u := by
  refine ⟨_, rfl, ?_⟩
  try dsimp only
  repeat' first
    | with_reducible first
      | exact Only.refl
      | refine command_only _ _ _ _ (fun _ _ => ?_) (by decide) ?_
      | refine fgrTurnOn_only _ (by decide) ?_
      | refine replyDone_only _ _ _ (by decide) ?_
      | refine setAwait_only _ _ (by decide) ?_
      | refine gateDone_only (by decide) ?_
      | refine gateOff_only _ (by decide) ?_
      | fail_if_no_progress refine Only.atPwr (by decide) ?_
    | split

theorem execDroopCluster_next (a1) (t : State) :
    ∃ u, Machine.execDroopCluster a1 t = .next u ∧ Only [.pwr, .log, .link, .out] t u := by
  refine ⟨_, rfl, ?_⟩
  try dsimp only
  repeat' first
    | with_reducible first
      | exact Only.refl
      | refine droopTileOn_only _ (by decide) ?_
      | fail_if_no_progress refine Only.atPwr (by decide) ?_
    | split

theorem execDroopClusterRelease_next (a1) (t : State) :
    ∃ u, Machine.execDroopClusterRelease a1 t = .next u ∧ Only [.pwr] t u := by
  refine ⟨_, rfl, ?_⟩
  try dsimp only
  repeat' with_reducible first | exact Only.refl | fail_if_no_progress refine Only.atPwr (by decide) ?_

theorem execDroopTileOneCluster_next (a1) (t : State) :
    ∃ u, Machine.execDroopTileOneCluster a1 t = .next u ∧ Only [.pwr, .log, .link, .out] t u := by
  refine ⟨_, rfl, ?_⟩
  try dsimp only
  repeat' first
    | with_reducible first | exact Only.refl | refine droopTileOn_only _ (by decide) ?_
    | split

theorem execDroopTileExpiry_next (a1) (t : State) :
    ∃ u, Machine.execDroopTileExpiry a1 t = .next u ∧ Only [.pwr] t u := by
  refine ⟨_, rfl, ?_⟩
  try dsimp only
  repeat' with_reducible first | exact Only.refl | fail_if_no_progress refine Only.atPwr (by decide) ?_

theorem execDroopRail_next (t : State) :
    ∃ u, Machine.execDroopRail t = .next u ∧ Only [.pwr, .log, .link, .out] t u := by
  refine ⟨_, rfl, ?_⟩
  try dsimp only
  repeat' first
    | with_reducible first | exact Only.refl | refine droopRail_only (by decide) ?_
    | split

theorem execDroopRailDecay_next (t : State) :
    ∃ u, Machine.execDroopRailDecay t = .next u ∧ Only [.pwr] t u := by
  refine ⟨_, rfl, ?_⟩
  try dsimp only
  repeat' with_reducible first | exact Only.refl | fail_if_no_progress refine Only.atPwr (by decide) ?_

theorem execSequencerLeaseRenew_next (t : State) :
    ∃ u, Machine.execSequencerLeaseRenew t = .next u ∧ Only [.aon] t u := by
  refine ⟨_, rfl, ?_⟩
  try dsimp only
  repeat' first
    | with_reducible first | exact Only.refl | fail_if_no_progress refine Only.atAon (by decide) ?_
    | split

theorem execSequencerLeaseExpiry_next (t : State) :
    ∃ u, Machine.execSequencerLeaseExpiry t = .next u ∧ Only [.aon, .pins, .clk, .pwr, .start, .store, .mbx, .log, .units, .vane, .net, .coll, .lull, .bond, .mem, .mmu, .dma, .serve, .sealed, .link, .out, .freeCtr, .bytes] t u := by
  refine ⟨_, rfl, ?_⟩
  try dsimp only
  repeat' first
    | with_reducible first | exact Only.refl | refine takeover_only _ (by decide) ?_
    | split

theorem execWatchdogKick_next (t : State) :
    ∃ u, Machine.execWatchdogKick t = .next u ∧ Only [.aon] t u := by
  refine ⟨_, rfl, ?_⟩
  try dsimp only
  repeat' first
    | with_reducible first | exact Only.refl | fail_if_no_progress refine Only.atAon (by decide) ?_
    | split

theorem execWatchdogTrip_next (t : State) :
    ∃ u, Machine.execWatchdogTrip t = .next u ∧ Only [.aon, .pins, .clk, .pwr, .start, .store, .mbx, .log, .units, .vane, .net, .coll, .lull, .bond, .mem, .mmu, .dma, .serve, .sealed, .link, .out, .freeCtr, .bytes] t u := by
  refine ⟨_, rfl, ?_⟩
  try dsimp only
  repeat' first
    | with_reducible first
      | exact Only.refl
      | refine takeover_only _ (by decide) ?_
      | refine mailboxTakeover_only (by decide) ?_
      | fail_if_no_progress refine Only.atAon (by decide) ?_
    | split

theorem execFirmwareFatal_next (t : State) :
    ∃ u, Machine.execFirmwareFatal t = .next u ∧ Only [.aon, .pins, .clk, .pwr, .start, .store, .mbx, .log, .units, .vane, .net, .coll, .lull, .bond, .mem, .mmu, .dma, .serve, .sealed, .link, .out, .freeCtr, .bytes] t u := by
  refine ⟨_, rfl, ?_⟩
  try dsimp only
  repeat' first
    | with_reducible first | exact Only.refl | refine takeover_only _ (by decide) ?_
    | split

theorem execWardenReset_next (t : State) :
    ∃ u, Machine.execWardenReset t = .next u ∧ Only [.aon, .pins, .pmx, .clk, .pwr, .start, .store, .mbx, .log, .units, .prot, .vane, .net, .coll, .lull, .bond, .mem, .mmu, .dma, .serve, .sealed, .link, .out, .freeCtr, .bytes] t u := by
  refine ⟨_, rfl, ?_⟩
  try dsimp only
  repeat' first
    | with_reducible first
      | exact Only.refl
      | refine beginStart_only (by decide) ?_
      | refine packageReset_only _ (by decide) ?_
    | split

theorem execPwrStatus_next (a1) (t : State) :
    ∃ u, Machine.execPwrStatus a1 t = .next u ∧ Only [.mbx, .freeCtr] t u := by
  refine ⟨_, rfl, ?_⟩
  try dsimp only
  repeat' first
    | with_reducible first
      | exact Only.refl
      | refine command_only _ _ _ _ (fun _ _ => ?_) (by decide) ?_
      | refine takeFree_only (by decide) ?_
      | refine replyDone_only _ _ _ (by decide) ?_
    | split

theorem execTileBudget_next (a1) (t : State) :
    ∃ u, Machine.execTileBudget a1 t = .next u ∧ Only [.pwr, .mbx, .out] t u := by
  refine ⟨_, rfl, ?_⟩
  try dsimp only
  repeat' first
    | with_reducible first
      | exact Only.refl
      | refine command_only _ _ _ _ (fun _ _ => ?_) (by decide) ?_
      | refine replyDone_only _ _ _ (by decide) ?_
      | refine askRailChange_only _ (by decide) ?_
      | refine setAwait_only _ _ (by decide) ?_
    | split

end Sys2Proof.Laws
end

