-- ==== Sys2Proof/Laws/Tile.lean ====
section
/-!
SUPPORT. Which groups of state each operation of Machine/Tile.lean changes; it keeps every other group and the forms of the
memory and of the event ring.
-/
namespace Sys2Proof.Laws

open Sys2Proof.Machine

theorem modTile_only (a1) (a2) {gs : List Group} {s t : State} (m : [.bond] ⊆ gs) (k : Only gs s t) :
    Only gs s (Machine.modTile a1 a2 t) := by
  refine Only.after (hs := [.bond]) ?_ m k
  clear m k
  unfold Machine.modTile
  try dsimp only
  repeat' with_reducible first | exact Only.refl | fail_if_no_progress refine Only.atBond (by decide) ?_

theorem modPort_only (a1) (a2) {gs : List Group} {s t : State} (m : [.bond] ⊆ gs) (k : Only gs s t) :
    Only gs s (Machine.modPort a1 a2 t) := by
  refine Only.after (hs := [.bond]) ?_ m k
  clear m k
  unfold Machine.modPort
  try dsimp only
  repeat' with_reducible first | exact Only.refl | fail_if_no_progress refine Only.atBond (by decide) ?_

theorem learnFault_only (a1) (a2) {gs : List Group} {s t : State} (m : [.store, .log, .link, .out] ⊆ gs) (k : Only gs s t) :
    Only gs s (Machine.learnFault a1 a2 t) := by
  refine Only.after (hs := [.store, .log, .link, .out]) ?_ m k
  clear m k
  unfold Machine.learnFault
  try dsimp only
  repeat' first
    | with_reducible first
      | exact Only.refl
      | refine logUe_only _ _ _ _ _ (by decide) ?_
      | fail_if_no_progress refine Only.atStore (by decide) ?_
    | split

theorem learnAll_only (a1) (a2) {gs : List Group} {s t : State} (m : [.store, .log, .link, .out] ⊆ gs) (k : Only gs s t) :
    Only gs s (Machine.learnAll a1 a2 t) := by
  refine Only.after (hs := [.store, .log, .link, .out]) ?_ m k
  clear m k
  induction a2 generalizing a1 t with
  | nil =>
    unfold Machine.learnAll
    try dsimp only
    repeat' with_reducible exact Only.refl
  | cons x l ih =>
    unfold Machine.learnAll
    try dsimp only
    repeat' with_reducible first
        | exact Only.refl
        | refine Only.trans ?_ (ih ..)
        | refine learnFault_only _ _ (by decide) ?_

theorem spareNotes_only (a1) (a2) (a3) (a4) {gs : List Group} {s t : State} (m : [.log, .link, .out] ⊆ gs) (k : Only gs s t) :
    Only gs s (Machine.spareNotes a1 a2 a3 a4 t) := by
  refine Only.after (hs := [.log, .link, .out]) ?_ m k
  clear m k
  induction a4 generalizing a1 a2 a3 t with
  | nil =>
    unfold Machine.spareNotes
    try dsimp only
    repeat' with_reducible exact Only.refl
  | cons x l ih =>
    unfold Machine.spareNotes
    try dsimp only
    repeat' first
        | with_reducible first
          | exact Only.refl
          | refine Only.trans ?_ (ih ..)
          | refine logInfo_only _ _ _ _ (by decide) ?_
          | refine logUe_only _ _ _ _ _ (by decide) ?_
        | split

theorem tileFail_only (a1) (a2) {gs : List Group} {s t : State} (m : [.pwr, .log, .bond, .link, .out] ⊆ gs) (k : Only gs s t) :
    Only gs s (Machine.tileFail a1 a2 t) := by
  refine Only.after (hs := [.pwr, .log, .bond, .link, .out]) ?_ m k
  clear m k
  unfold Machine.tileFail
  try dsimp only
  repeat' with_reducible first
    | exact Only.refl
    | refine logUe_only _ _ _ _ _ (by decide) ?_
    | refine closePorts_only _ (by decide) ?_
    | refine modTile_only _ _ (by decide) ?_
    | refine pushFrame_only _ (by decide) ?_
    | fail_if_no_progress refine Only.atPwr (by decide) ?_

theorem portOut_only (a1) {gs : List Group} {s t : State} (m : [.pwr, .units, .bond] ⊆ gs) (k : Only gs s t) :
    Only gs s (Machine.portOut a1 t) := by
  refine Only.after (hs := [.pwr, .units, .bond]) ?_ m k
  clear m k
  unfold Machine.portOut
  try dsimp only
  repeat' with_reducible first
    | exact Only.refl
    | refine setUnitSt_only _ _ _ (by decide) ?_
    | refine modPort_only _ _ (by decide) ?_
    | fail_if_no_progress refine Only.atPwr (by decide) ?_

theorem judgePort_only (a1) (a2) {gs : List Group} {s t : State} (m : [.pwr, .units, .bond] ⊆ gs) (k : Only gs s t) :
    Only gs s (Machine.judgePort a1 a2 t) := by
  refine Only.after (hs := [.pwr, .units, .bond]) ?_ m k
  clear m k
  unfold Machine.judgePort
  try dsimp only
  repeat' first
    | with_reducible first
      | exact Only.refl
      | refine modPort_only _ _ (by decide) ?_
      | refine portOut_only _ (by decide) ?_
    | split

theorem bondFence_only (a1) (a2) {gs : List Group} {s t : State} (m : [.pwr, .log, .units, .net, .coll, .lull, .bond, .serve, .link, .out] ⊆ gs) (k : Only gs s t) :
    Only gs s (Machine.bondFence a1 a2 t) := by
  refine Only.after (hs := [.pwr, .log, .units, .net, .coll, .lull, .bond, .serve, .link, .out]) ?_ m k
  clear m k
  unfold Machine.bondFence
  try dsimp only
  repeat' with_reducible first | exact Only.refl | refine fenceUnit_only _ _ _ (by decide) ?_

theorem drainPort_only (a1) (a2) {gs : List Group} {s t : State} (m : [.log, .vane, .net, .coll, .bond, .link, .out] ⊆ gs) (k : Only gs s t) :
    Only gs s (Machine.drainPort a1 a2 t) := by
  refine Only.after (hs := [.log, .vane, .net, .coll, .bond, .link, .out]) ?_ m k
  clear m k
  induction a2 generalizing a1 t with
  | nil =>
    unfold Machine.drainPort
    try dsimp only
    repeat' with_reducible exact Only.refl
  | cons x l ih =>
    unfold Machine.drainPort
    try dsimp only
    repeat' first
        | with_reducible first
          | exact Only.refl
          | refine Only.trans ?_ (ih ..)
          | refine modPort_only _ _ (by decide) ?_
          | refine injectPacket_only _ _ _ _ (by decide) ?_
        | split

theorem drainFifo_only (a1) {gs : List Group} {s t : State} (m : [.log, .vane, .net, .coll, .bond, .link, .out] ⊆ gs) (k : Only gs s t) :
    Only gs s (Machine.drainFifo a1 t) := by
  refine Only.after (hs := [.log, .vane, .net, .coll, .bond, .link, .out]) ?_ m k
  clear m k
  unfold Machine.drainFifo
  try dsimp only
  repeat' with_reducible first
    | exact Only.refl
    | refine drainPort_only _ _ (by decide) ?_
    | refine modPort_only _ _ (by decide) ?_

theorem drainBreeze_only (a1) (a2) {gs : List Group} {s t : State} (m : [.log, .net, .bond, .link, .out] ⊆ gs) (k : Only gs s t) :
    Only gs s (Machine.drainBreeze a1 a2 t) := by
  refine Only.after (hs := [.log, .net, .bond, .link, .out]) ?_ m k
  clear m k
  induction a2 generalizing a1 t with
  | nil =>
    unfold Machine.drainBreeze
    try dsimp only
    repeat' with_reducible exact Only.refl
  | cons x l ih =>
    unfold Machine.drainBreeze
    try dsimp only
    repeat' first
        | with_reducible first
          | exact Only.refl
          | refine Only.trans ?_ (ih ..)
          | refine injectBreeze_only _ (by decide) ?_
          | refine modPort_only _ _ (by decide) ?_
        | split

theorem drainBreezePort_only (a1) {gs : List Group} {s t : State} (m : [.log, .net, .bond, .link, .out] ⊆ gs) (k : Only gs s t) :
    Only gs s (Machine.drainBreezePort a1 t) := by
  refine Only.after (hs := [.log, .net, .bond, .link, .out]) ?_ m k
  clear m k
  unfold Machine.drainBreezePort
  try dsimp only
  repeat' with_reducible first
    | exact Only.refl
    | refine drainBreeze_only _ _ (by decide) ?_
    | refine modPort_only _ _ (by decide) ?_

theorem drainBreezes_only (a1) {gs : List Group} {s t : State} (m : [.log, .net, .bond, .link, .out] ⊆ gs) (k : Only gs s t) :
    Only gs s (Machine.drainBreezes a1 t) := by
  refine Only.after (hs := [.log, .net, .bond, .link, .out]) ?_ m k
  clear m k
  induction a1 generalizing t with
  | nil =>
    unfold Machine.drainBreezes
    try dsimp only
    repeat' with_reducible exact Only.refl
  | cons x l ih =>
    unfold Machine.drainBreezes
    try dsimp only
    repeat' with_reducible first
        | exact Only.refl
        | refine Only.trans ?_ (ih ..)
        | refine drainBreezePort_only _ (by decide) ?_

theorem drainFifos_only (a1) {gs : List Group} {s t : State} (m : [.log, .vane, .net, .coll, .bond, .link, .out] ⊆ gs) (k : Only gs s t) :
    Only gs s (Machine.drainFifos a1 t) := by
  refine Only.after (hs := [.log, .vane, .net, .coll, .bond, .link, .out]) ?_ m k
  clear m k
  induction a1 generalizing t with
  | nil =>
    unfold Machine.drainFifos
    try dsimp only
    repeat' with_reducible exact Only.refl
  | cons x l ih =>
    unfold Machine.drainFifos
    try dsimp only
    repeat' with_reducible first
        | exact Only.refl
        | refine Only.trans ?_ (ih ..)
        | refine drainFifo_only _ (by decide) ?_

theorem idle_only {gs : List Group} {s t : State} (m : [.aon, .store, .mbx, .log, .vane, .net, .coll, .bond, .mem, .link, .out, .freeCtr, .bytes] ⊆ gs) (k : Only gs s t) :
    Only gs s (Machine.idle t) := by
  refine Only.after (hs := [.aon, .store, .mbx, .log, .vane, .net, .coll, .bond, .mem, .link, .out, .freeCtr, .bytes]) ?_ m k
  clear m k
  unfold Machine.idle
  try dsimp only
  repeat' with_reducible first
    | exact Only.refl
    | refine bankCycle_only (by decide) ?_
    | refine drainGusts_only (by decide) ?_
    | refine breezeCycle_only (by decide) ?_
    | refine tick_only (by decide) ?_
    | refine drainFifos_only _ (by decide) ?_
    | refine drainBreezes_only _ (by decide) ?_

theorem badFrame_only (a1) (a2) {gs : List Group} {s t : State} (m : [.pwr, .log, .units, .net, .coll, .lull, .bond, .serve, .link, .out] ⊆ gs) (k : Only gs s t) :
    Only gs s (Machine.badFrame a1 a2 t) := by
  refine Only.after (hs := [.pwr, .log, .units, .net, .coll, .lull, .bond, .serve, .link, .out]) ?_ m k
  clear m k
  unfold Machine.badFrame
  try dsimp only
  repeat' first
    | with_reducible first
      | exact Only.refl
      | refine errorResponse_only _ _ (by decide) ?_
      | refine send_only _ (by decide) ?_
      | refine modPort_only _ _ (by decide) ?_
      | refine bondFence_only _ _ (by decide) ?_
      | refine logUe_only _ _ _ _ _ (by decide) ?_
    | split

theorem correctedFrame_only (a1) {gs : List Group} {s t : State} (m : [.pwr, .log, .units, .net, .coll, .lull, .bond, .serve, .link, .out] ⊆ gs) (k : Only gs s t) :
    Only gs s (Machine.correctedFrame a1 t) := by
  refine Only.after (hs := [.pwr, .log, .units, .net, .coll, .lull, .bond, .serve, .link, .out]) ?_ m k
  clear m k
  unfold Machine.correctedFrame
  try dsimp only
  repeat' first
    | with_reducible first
      | exact Only.refl
      | refine modPort_only _ _ (by decide) ?_
      | refine bondFence_only _ _ (by decide) ?_
      | refine logUe_only _ _ _ _ _ (by decide) ?_
      | refine logLimited_only _ _ _ _ _ _ _ (by decide) ?_
    | split

theorem endStream_only (a1) (a2) (a3) {gs : List Group} {s t : State} (m : [.bond, .out] ⊆ gs) (k : Only gs s t) :
    Only gs s (Machine.endStream a1 a2 a3 t) := by
  refine Only.after (hs := [.bond, .out]) ?_ m k
  clear m k
  unfold Machine.endStream
  try dsimp only
  repeat' with_reducible first
    | exact Only.refl
    | refine send_only _ (by decide) ?_
    | refine modPort_only _ _ (by decide) ?_

theorem streamWrite_only (a1) (a2) (a3) (a4) {gs : List Group} {s t : State} (m : [.store, .log, .bond, .mem, .serve, .sealed, .link, .out, .freeCtr, .bytes] ⊆ gs) (k : Only gs s t) :
    Only gs s (Machine.streamWrite a1 a2 a3 a4 t) := by
  refine Only.after (hs := [.store, .log, .bond, .mem, .serve, .sealed, .link, .out, .freeCtr, .bytes]) ?_ m k
  clear m k
  unfold Machine.streamWrite
  try dsimp only
  repeat' first
    | with_reducible first
      | exact Only.refl
      | refine memWrite_only _ _ (by decide) ?_
      | refine endStream_only _ _ _ (by decide) ?_
      | refine modPort_only _ _ (by decide) ?_
    | split

theorem sliceData_only (a1) (a2) (a3) {gs : List Group} {s t : State} (m : [.store, .log, .bond, .mem, .serve, .sealed, .link, .out, .freeCtr, .bytes] ⊆ gs) (k : Only gs s t) :
    Only gs s (Machine.sliceData a1 a2 a3 t) := by
  refine Only.after (hs := [.store, .log, .bond, .mem, .serve, .sealed, .link, .out, .freeCtr, .bytes]) ?_ m k
  clear m k
  unfold Machine.sliceData
  try dsimp only
  repeat' first
    | with_reducible first | exact Only.refl | refine streamWrite_only _ _ _ _ (by decide) ?_
    | split

theorem serveRead_only (a1) (a2) (a3) (a4) {gs : List Group} {s t : State} (m : [.store, .log, .bond, .mem, .serve, .link, .out, .freeCtr] ⊆ gs) (k : Only gs s t) :
    Only gs s (Machine.serveRead a1 a2 a3 a4 t) := by
  refine Only.after (hs := [.store, .log, .bond, .mem, .serve, .link, .out, .freeCtr]) ?_ m k
  clear m k
  unfold Machine.serveRead
  try dsimp only
  repeat' first
    | with_reducible first
      | exact Only.refl
      | refine memRead_only _ _ (by decide) ?_
      | refine endStream_only _ _ _ (by decide) ?_
      | refine send_only _ (by decide) ?_
    | split

theorem openStream_only (a1) (a2) (a3) (a4) {gs : List Group} {s t : State} (m : [.store, .log, .bond, .mem, .serve, .sealed, .link, .out, .freeCtr, .bytes] ⊆ gs) (k : Only gs s t) :
    Only gs s (Machine.openStream a1 a2 a3 a4 t) := by
  refine Only.after (hs := [.store, .log, .bond, .mem, .serve, .sealed, .link, .out, .freeCtr, .bytes]) ?_ m k
  clear m k
  unfold Machine.openStream
  try dsimp only
  repeat' first
    | with_reducible first
      | exact Only.refl
      | refine endStream_only _ _ _ (by decide) ?_
      | refine modPort_only _ _ (by decide) ?_
      | refine streamWrite_only _ _ _ _ (by decide) ?_
      | refine serveRead_only _ _ _ _ (by decide) ?_
    | split

theorem acceptFrame_only (a1) (a2) {gs : List Group} {s t : State} (m : [.pwr, .store, .log, .units, .vane, .net, .coll, .lull, .bond, .mem, .serve, .sealed, .link, .out, .freeCtr, .bytes] ⊆ gs) (k : Only gs s t) :
    Only gs s (Machine.acceptFrame a1 a2 t) := by
  refine Only.after (hs := [.pwr, .store, .log, .units, .vane, .net, .coll, .lull, .bond, .mem, .serve, .sealed, .link, .out, .freeCtr, .bytes]) ?_ m k
  clear m k
  unfold Machine.acceptFrame
  try dsimp only
  repeat' first
    | with_reducible first
      | exact Only.refl
      | refine bondFence_only _ _ (by decide) ?_
      | refine logUe_only _ _ _ _ _ (by decide) ?_
      | refine drainFifo_only _ (by decide) ?_
      | refine modPort_only _ _ (by decide) ?_
      | refine drainBreezePort_only _ (by decide) ?_
      | refine lullMessage_only _ (by decide) ?_
      | refine openStream_only _ _ _ _ (by decide) ?_
      | refine sliceData_only _ _ _ (by decide) ?_
    | split

theorem execGetCap_next (a1) (a2) (t : State) :
    ∃ u, Machine.execGetCap a1 a2 t = .next u ∧ Only [.pwr, .log, .bond, .link, .out] t u := by
  refine ⟨_, rfl, ?_⟩
  try dsimp only
  repeat' first
    | with_reducible first
      | exact Only.refl
      | refine tileFail_only _ _ (by decide) ?_
      | refine modTile_only _ _ (by decide) ?_
      | refine send_only _ (by decide) ?_
    | split

theorem execPutProfile_next (a1) (t : State) :
    ∃ u, Machine.execPutProfile a1 t = .next u ∧ Only [.pwr, .mbx, .bond, .out] t u := by
  refine ⟨_, rfl, ?_⟩
  try dsimp only
  repeat' first
    | with_reducible first
      | exact Only.refl
      | refine askRailChange_only _ (by decide) ?_
      | refine modTile_only _ _ (by decide) ?_
    | split

theorem execTrainCtl_next (a1) (a2) (t : State) :
    ∃ u, Machine.execTrainCtl a1 a2 t = .next u ∧ Only [.bond, .out] t u := by
  refine ⟨_, rfl, ?_⟩
  try dsimp only
  repeat' first
    | with_reducible first
      | exact Only.refl
      | refine send_only _ (by decide) ?_
      | refine modTile_only _ _ (by decide) ?_
    | split

theorem execTclkOk_next (a1) (t : State) :
    ∃ u, Machine.execTclkOk a1 t = .next u ∧ Only [.clk, .pwr, .bond] t u := by
  refine ⟨_, rfl, ?_⟩
  try dsimp only
  repeat' first
    | with_reducible first
      | exact Only.refl
      | refine fgrTurnOn_only _ (by decide) ?_
      | refine modTile_only _ _ (by decide) ?_
      | fail_if_no_progress refine Only.atClk (by decide) ?_
    | split

theorem execPutLanemap_next (a1) (t : State) :
    ∃ u, Machine.execPutLanemap a1 t = .next u ∧ Only [.out] t u := by
  refine ⟨_, rfl, ?_⟩
  try dsimp only
  repeat' first
    | with_reducible first | exact Only.refl | refine send_only _ (by decide) ?_
    | split

theorem execGetStatus_next (a1) (a2) (t : State) :
    ∃ u, Machine.execGetStatus a1 a2 t = .next u ∧ Only [.bond] t u := by
  refine ⟨_, rfl, ?_⟩
  try dsimp only
  repeat' with_reducible first | exact Only.refl | refine modTile_only _ _ (by decide) ?_

theorem execTileTrainTimeout_next (a1) (t : State) :
    ∃ u, Machine.execTileTrainTimeout a1 t = .next u ∧ Only [.pwr, .log, .bond, .link, .out] t u := by
  refine ⟨_, rfl, ?_⟩
  try dsimp only
  repeat' first
    | with_reducible first | exact Only.refl | refine tileFail_only _ _ (by decide) ?_
    | split

theorem execCrdyRise_next (a1) (t : State) :
    ∃ u, Machine.execCrdyRise a1 t = .next u ∧ Only [.bond] t u := by
  refine ⟨_, rfl, ?_⟩
  try dsimp only
  repeat' first
    | with_reducible first | exact Only.refl | refine modPort_only _ _ (by decide) ?_
    | split

theorem execCrdyTimeout_next (a1) (t : State) :
    ∃ u, Machine.execCrdyTimeout a1 t = .next u ∧ Only [.pwr, .units, .bond] t u := by
  refine ⟨_, rfl, ?_⟩
  try dsimp only
  repeat' first
    | with_reducible first | exact Only.refl | refine portOut_only _ (by decide) ?_
    | split

theorem execLaneTestDone_next (a1) (a2) (a3) (a4) (t : State) :
    ∃ u, Machine.execLaneTestDone a1 a2 a3 a4 t = .next u ∧ Only [.pwr, .store, .log, .units, .bond, .link, .out] t u := by
  refine ⟨_, rfl, ?_⟩
  try dsimp only
  repeat' first
    | with_reducible first
      | exact Only.refl
      | refine tileFail_only _ _ (by decide) ?_
      | refine judgePort_only _ _ (by decide) ?_
      | refine modPort_only _ _ (by decide) ?_
      | refine spareNotes_only _ _ _ _ (by decide) ?_
      | refine learnAll_only _ _ (by decide) ?_
      | fail_if_no_progress refine Only.atStore (by decide) ?_
    | split

theorem execCerrN_next (a1) (t : State) :
    ∃ u, Machine.execCerrN a1 t = .next u ∧ Only [.pwr, .log, .units, .net, .coll, .lull, .bond, .serve, .link, .out] t u := by
  refine ⟨_, rfl, ?_⟩
  try dsimp only
  repeat' first
    | with_reducible first
      | exact Only.refl
      | refine bondFence_only _ _ (by decide) ?_
      | refine logUe_only _ _ _ _ _ (by decide) ?_
      | refine modPort_only _ _ (by decide) ?_
    | split

theorem execCrdyFall_next (a1) (t : State) :
    ∃ u, Machine.execCrdyFall a1 t = .next u ∧ Only [.pwr, .log, .units, .net, .coll, .lull, .bond, .serve, .link, .out] t u := by
  refine ⟨_, rfl, ?_⟩
  try dsimp only
  repeat' first
    | with_reducible first
      | exact Only.refl
      | refine bondFence_only _ _ (by decide) ?_
      | refine logUe_only _ _ _ _ _ (by decide) ?_
      | refine modPort_only _ _ (by decide) ?_
    | split

theorem execBondFrame_next (a1) (a2) (t : State) :
    ∃ u, Machine.execBondFrame a1 a2 t = .next u ∧ Only [.pwr, .store, .log, .units, .vane, .net, .coll, .lull, .bond, .mem, .serve, .sealed, .link, .out, .freeCtr, .bytes] t u := by
  refine ⟨_, rfl, ?_⟩
  try dsimp only
  repeat' first
    | with_reducible first
      | exact Only.refl
      | refine logLimited_only _ _ _ _ _ _ _ (by decide) ?_
      | refine acceptFrame_only _ _ (by decide) ?_
      | refine correctedFrame_only _ (by decide) ?_
      | refine badFrame_only _ _ (by decide) ?_
    | split

theorem execTileVoltage_next (a1) (t : State) :
    ∃ u, Machine.execTileVoltage a1 t = .next u ∧ Only [.pwr, .mbx, .out] t u := by
  refine ⟨_, rfl, ?_⟩
  try dsimp only
  repeat' first
    | with_reducible first
      | exact Only.refl
      | refine command_only _ _ _ _ (fun _ _ => ?_) (by decide) ?_
      | refine askRailChange_only _ (by decide) ?_
      | refine setAwait_only _ _ (by decide) ?_
    | split

end Sys2Proof.Laws
end

