-- ==== Sys2Proof/Laws/Mee.lean ====
section
/-!
SUPPORT. Which groups of state each operation of Machine/Mee.lean changes; it keeps every other group and the forms of the
memory and of the event ring.
-/
namespace Sys2Proof.Laws

open Sys2Proof.Machine

theorem reseed_only {gs : List Group} {s t : State} (m : [.log, .sealed, .link, .out, .freeCtr] ⊆ gs) (k : Only gs s t) :
    Only gs s (Machine.reseed t) := by
  refine Only.after (hs := [.log, .sealed, .link, .out, .freeCtr]) ?_ m k
  clear m k
  unfold Machine.reseed
  try dsimp only
  repeat' with_reducible first
    | exact Only.refl
    | refine retryChanges_only _ (by decide) ?_
    | fail_if_no_progress refine Only.atSealed (by decide) ?_

theorem execMeeParamsSession_next (a1) (t : State) :
    ∃ u, Machine.execMeeParamsSession a1 t = .next u ∧ Only [.mbx, .sealed, .freeCtr] t u := by
  refine ⟨_, rfl, ?_⟩
  try dsimp only
  repeat' first
    | with_reducible first
      | exact Only.refl
      | refine commandIf_only _ _ _ _ _ (fun _ _ => ?_) (by decide) ?_
      | refine replyDone_only _ _ _ (by decide) ?_
    | with_reducible fail_if_no_progress refine Only.atSealedFreeCtr (by decide) (by decide) ?_

theorem execMeeParamsRing_next (a1) (t : State) :
    ∃ u, Machine.execMeeParamsRing a1 t = .next u ∧ Only [.mbx, .sealed] t u := by
  refine ⟨_, rfl, ?_⟩
  try dsimp only
  repeat' with_reducible first
    | exact Only.refl
    | refine commandIf_only _ _ _ _ _ (fun _ _ => ?_) (by decide) ?_
    | refine replyDone_only _ _ _ (by decide) ?_
    | refine modMee_only _ _ (by decide) ?_

theorem execMeeParamsEnd_next (a1) (t : State) :
    ∃ u, Machine.execMeeParamsEnd a1 t = .next u ∧ Only [.mbx, .sealed] t u := by
  refine ⟨_, rfl, ?_⟩
  try dsimp only
  repeat' with_reducible first
    | exact Only.refl
    | refine commandIf_only _ _ _ _ _ (fun _ _ => ?_) (by decide) ?_
    | refine replyDone_only _ _ _ (by decide) ?_
    | fail_if_no_progress refine Only.atSealed (by decide) ?_

theorem execMeeDoorbell_next (a1) (a2) (t : State) :
    ∃ u, Machine.execMeeDoorbell a1 a2 t = .next u ∧ Only [.store, .log, .lull, .mem, .mmu, .serve, .sealed, .link, .out, .freeCtr, .bytes] t u := by
  refine ⟨_, rfl, ?_⟩
  try dsimp only
  repeat' first
    | with_reducible first
      | exact Only.refl
      | refine meeTake_only _ _ (by decide) ?_
      | refine modMee_only _ _ (by decide) ?_
    | split

theorem execExchExpiry_next (a1) (t : State) :
    ∃ u, Machine.execExchExpiry a1 t = .next u ∧ Only [.log, .sealed, .link, .out] t u := by
  refine ⟨_, rfl, ?_⟩
  try dsimp only
  repeat' first
    | with_reducible first
      | exact Only.refl
      | refine logInfo_only _ _ _ _ (by decide) ?_
      | refine dropExch_only _ (by decide) ?_
    | split

theorem execRefreshDone_next (a1) (t : State) :
    ∃ u, Machine.execRefreshDone a1 t = .next u ∧ Only [.mbx, .log, .sealed, .link, .out] t u := by
  refine ⟨_, rfl, ?_⟩
  try dsimp only
  repeat' first
    | with_reducible first
      | exact Only.refl
      | refine completeAwait_only _ _ (by decide) ?_
      | refine logInfo_only _ _ _ _ (by decide) ?_
      | fail_if_no_progress refine Only.atSealed (by decide) ?_
    | split

theorem execRefreshRun_next (a1) (t : State) :
    ∃ u, Machine.execRefreshRun a1 t = .next u ∧ Only [.mbx, .sealed] t u := by
  refine ⟨_, rfl, ?_⟩
  try dsimp only
  repeat' with_reducible first
    | exact Only.refl
    | refine command_only _ _ _ _ (fun _ _ => ?_) (by decide) ?_
    | refine setAwait_only _ _ (by decide) ?_
    | refine replyAccepted_only _ (by decide) ?_
    | fail_if_no_progress refine Only.atSealed (by decide) ?_

theorem execDrbgReseed_next (a1) (t : State) :
    ∃ u, Machine.execDrbgReseed a1 t = .next u ∧ Only [.mbx, .log, .sealed, .link, .out, .freeCtr] t u := by
  refine ⟨_, rfl, ?_⟩
  try dsimp only
  repeat' with_reducible first
    | exact Only.refl
    | refine command_only _ _ _ _ (fun _ _ => ?_) (by decide) ?_
    | refine replyDone_only _ _ _ (by decide) ?_
    | refine reseed_only (by decide) ?_

theorem execDrbgReseedAuto_next (t : State) :
    ∃ u, Machine.execDrbgReseedAuto t = .next u ∧ Only [.log, .sealed, .link, .out, .freeCtr] t u := by
  refine ⟨_, rfl, ?_⟩
  try dsimp only
  repeat' first
    | with_reducible first | exact Only.refl | refine reseed_only (by decide) ?_
    | split

theorem execDrbgExhausted_next (t : State) :
    ∃ u, Machine.execDrbgExhausted t = .next u ∧ Only [.log, .sealed, .link, .out] t u := by
  refine ⟨_, rfl, ?_⟩
  try dsimp only
  repeat' first
    | with_reducible first
      | exact Only.refl
      | refine logSec_only _ _ _ _ (by decide) ?_
      | fail_if_no_progress refine Only.atSealed (by decide) ?_
    | split

theorem execEntropyFail_next (t : State) :
    ∃ u, Machine.execEntropyFail t = .next u ∧ Only [.log, .sealed, .link, .out] t u := by
  refine ⟨_, rfl, ?_⟩
  try dsimp only
  repeat' first
    | with_reducible first
      | exact Only.refl
      | refine logSec_only _ _ _ _ (by decide) ?_
      | fail_if_no_progress refine Only.atSealed (by decide) ?_
    | split

theorem execSealedStatus_next (a1) (t : State) :
    ∃ u, Machine.execSealedStatus a1 t = .next u ∧ Only [.mbx] t u := by
  refine ⟨_, rfl, ?_⟩
  try dsimp only
  repeat' with_reducible first
    | exact Only.refl
    | refine command_only _ _ _ _ (fun _ _ => ?_) (by decide) ?_
    | refine replyDone_only _ _ _ (by decide) ?_

end Sys2Proof.Laws
end

