-- ==== Sys2Proof/Laws/Vaults.lean ====
section
/-!
SUPPORT. Which groups of state each operation of Machine/Vaults.lean changes; it keeps every other group and the forms of the
memory and of the event ring.
-/
namespace Sys2Proof.Laws

open Sys2Proof.Machine

theorem openVault_only (a1) (a2) (a3) (a4) (a5) {gs : List Group} {s t : State} (m : [.mem, .sealed, .freeCtr, .bytes] ⊆ gs) (k : Only gs s t) :
    Only gs s (Machine.openVault a1 a2 a3 a4 a5 t) := by
  refine Only.after (hs := [.mem, .sealed, .freeCtr, .bytes]) ?_ m k
  clear m k
  unfold Machine.openVault
  try dsimp only
  repeat' with_reducible first
    | exact Only.refl
    | refine zeroFrames_only _ (by decide) ?_
    | refine drbgDraw_only (by decide) ?_
    | refine markFrames_only _ _ (by decide) ?_
    | fail_if_no_progress refine Only.atSealed (by decide) ?_

theorem execVaultOpen_next (a1) (t : State) :
    ∃ u, Machine.execVaultOpen a1 t = .next u ∧ Only [.store, .mbx, .log, .mem, .serve, .sealed, .link, .out, .freeCtr, .bytes] t u := by
  refine ⟨_, rfl, ?_⟩
  try dsimp only
  repeat' first
    | with_reducible first
      | exact Only.refl
      | refine command_only _ _ _ _ (fun _ _ => ?_) (by decide) ?_
      | refine steward_only _ _ _ _ _ _ (by decide) ?_
      | refine reply_only _ _ (by decide) ?_
      | refine replyDone_only _ _ _ (by decide) ?_
      | refine openVault_only _ _ _ _ _ (by decide) ?_
    | split

theorem execVaultClose_next (a1) (t : State) :
    ∃ u, Machine.execVaultClose a1 t = .next u ∧ Only [.store, .mbx, .log, .mem, .sealed, .link, .out, .bytes] t u := by
  refine ⟨_, rfl, ?_⟩
  try dsimp only
  repeat' with_reducible first
    | exact Only.refl
    | refine command_only _ _ _ _ (fun _ _ => ?_) (by decide) ?_
    | refine replyDone_only _ _ _ (by decide) ?_
    | refine closeVault_only _ _ (by decide) ?_

theorem execVaultLifeExpiry_next (a1) (t : State) :
    ∃ u, Machine.execVaultLifeExpiry a1 t = .next u ∧ Only [.store, .mbx, .log, .mem, .sealed, .link, .out, .bytes] t u := by
  refine ⟨_, rfl, ?_⟩
  try dsimp only
  repeat' with_reducible first | exact Only.refl | refine closeVault_only _ _ (by decide) ?_

theorem execVaultRekey_next (a1) (t : State) :
    ∃ u, Machine.execVaultRekey a1 t = .next u ∧ Only [.log, .sealed, .link, .out, .freeCtr] t u := by
  refine ⟨_, rfl, ?_⟩
  try dsimp only
  repeat' first
    | with_reducible first | exact Only.refl | refine askChange_only _ (by decide) ?_
    | split

theorem execVaultRekeyDone_next (a1) (t : State) :
    ∃ u, Machine.execVaultRekeyDone a1 t = .next u ∧ Only [.store, .log, .mem, .serve, .sealed, .link, .out, .freeCtr, .bytes] t u := by
  refine ⟨_, rfl, ?_⟩
  try dsimp only
  repeat' with_reducible first | exact Only.refl | refine endChange_only _ (by decide) ?_

end Sys2Proof.Laws
end

