-- ==== Sys2Proof/Laws/Crosswind.lean ====
section
/-!
SUPPORT. Which groups of state each operation of Machine/Crosswind.lean changes; it keeps every other group and the forms of the
memory and of the event ring.
-/
namespace Sys2Proof.Laws

open Sys2Proof.Machine

theorem badCx_only {gs : List Group} {s t : State} (m : [.sealed] ⊆ gs) (k : Only gs s t) :
    Only gs s (Machine.badCx t) := by
  refine Only.after (hs := [.sealed]) ?_ m k
  clear m k
  unfold Machine.badCx
  try dsimp only
  repeat' with_reducible first | exact Only.refl | fail_if_no_progress refine Only.atSealed (by decide) ?_

theorem batchFrame_only (a1) (a2) (a3) {gs : List Group} {s t : State} (m : [.store, .log, .net, .lull, .mem, .serve, .sealed, .link, .out, .freeCtr, .bytes] ⊆ gs) (k : Only gs s t) :
    Only gs s (Machine.batchFrame a1 a2 a3 t) := by
  refine Only.after (hs := [.store, .log, .net, .lull, .mem, .serve, .sealed, .link, .out, .freeCtr, .bytes]) ?_ m k
  clear m k
  unfold Machine.batchFrame
  try dsimp only
  repeat' first
    | with_reducible first
      | exact Only.refl
      | refine modCx_only _ _ (by decide) ?_
      | refine advanceCx_only _ (by decide) ?_
      | refine pumpCx_only _ (by decide) ?_
      | refine takeBatch_only _ (by decide) ?_
    | split

theorem laterFrame_only (a1) (a2) (a3) {gs : List Group} {s t : State} (m : [.sealed] ⊆ gs) (k : Only gs s t) :
    Only gs s (Machine.laterFrame a1 a2 a3 t) := by
  refine Only.after (hs := [.sealed]) ?_ m k
  clear m k
  unfold Machine.laterFrame
  try dsimp only
  repeat' with_reducible first | exact Only.refl | refine modCx_only _ _ (by decide) ?_

theorem onBatch_only (a1) (a2) (a3) (a4) (a5) (a6) (a7) {gs : List Group} {s t : State} (m : [.store, .mbx, .log, .net, .lull, .mem, .serve, .sealed, .link, .out, .freeCtr, .bytes] ⊆ gs) (k : Only gs s t) :
    Only gs s (Machine.onBatch a1 a2 a3 a4 a5 a6 a7 t) := by
  refine Only.after (hs := [.store, .mbx, .log, .net, .lull, .mem, .serve, .sealed, .link, .out, .freeCtr, .bytes]) ?_ m k
  clear m k
  unfold Machine.onBatch
  try dsimp only
  repeat' first
    | with_reducible first
      | exact Only.refl
      | refine sendAck_only _ _ (by decide) ?_
      | refine abortCx_only _ _ (by decide) ?_
      | refine batchFrame_only _ _ _ (by decide) ?_
      | refine laterFrame_only _ _ _ (by decide) ?_
    | split

theorem execPeerSessionPair_next (a1) (t : State) :
    ∃ u, Machine.execPeerSessionPair a1 t = .next u ∧ Only [.mbx, .sealed, .out, .freeCtr] t u := by
  refine ⟨_, rfl, ?_⟩
  try dsimp only
  repeat' with_reducible first
    | exact Only.refl
    | refine commandIf_only _ _ _ _ _ (fun _ _ => ?_) (by decide) ?_
    | refine setAwait_only _ _ (by decide) ?_
    | refine replyAccepted_only _ (by decide) ?_
    | refine startCxHs_only _ _ (by decide) ?_
    | fail_if_no_progress refine Only.atSealed (by decide) ?_

theorem execPeerSessionResume_next (a1) (t : State) :
    ∃ u, Machine.execPeerSessionResume a1 t = .next u ∧ Only [.mbx, .sealed, .out, .freeCtr] t u := by
  refine ⟨_, rfl, ?_⟩
  try dsimp only
  repeat' with_reducible first
    | exact Only.refl
    | refine commandIf_only _ _ _ _ _ (fun _ _ => ?_) (by decide) ?_
    | refine setAwait_only _ _ (by decide) ?_
    | refine replyAccepted_only _ (by decide) ?_
    | refine startCxHs_only _ _ (by decide) ?_

theorem execPeerSessionClose_next (a1) (t : State) :
    ∃ u, Machine.execPeerSessionClose a1 t = .next u ∧ Only [.mbx, .sealed, .link, .out] t u := by
  refine ⟨_, rfl, ?_⟩
  try dsimp only
  repeat' with_reducible first
    | exact Only.refl
    | refine commandIf_only _ _ _ _ _ (fun _ _ => ?_) (by decide) ?_
    | refine replyDone_only _ _ _ (by decide) ?_
    | refine completeAwait_only _ _ (by decide) ?_
    | refine dropCx_only _ (by decide) ?_
    | refine send_only _ (by decide) ?_

theorem execCxHello_next (a1) (a2) (t : State) :
    ∃ u, Machine.execCxHello a1 a2 t = .next u ∧ Only [.sealed, .link, .out, .freeCtr] t u := by
  refine ⟨_, rfl, ?_⟩
  try dsimp only
  repeat' first
    | with_reducible first
      | exact Only.refl
      | refine startRekey_only _ _ (by decide) ?_
      | refine send_only _ (by decide) ?_
      | refine modCx_only _ _ (by decide) ?_
    | split

theorem execCxFinish_next (a1) (a2) (t : State) :
    ∃ u, Machine.execCxFinish a1 a2 t = .next u ∧ Only [.mbx, .log, .sealed, .link, .out] t u := by
  refine ⟨_, rfl, ?_⟩
  try dsimp only
  repeat' first
    | with_reducible first
      | exact Only.refl
      | refine cxPasses_only _ _ _ (by decide) ?_
      | refine cxFails_only _ _ (by decide) ?_
    | split

theorem execCxBatch_next (a1) (a2) (a3) (a4) (a5) (a6) (a7) (t : State) :
    ∃ u, Machine.execCxBatch a1 a2 a3 a4 a5 a6 a7 t = .next u ∧ Only [.store, .mbx, .log, .net, .lull, .mem, .serve, .sealed, .link, .out, .freeCtr, .bytes] t u := by
  refine ⟨_, rfl, ?_⟩
  try dsimp only
  repeat' first
    | with_reducible first
      | exact Only.refl
      | refine badCx_only (by decide) ?_
      | refine onBatch_only _ _ _ _ _ _ _ (by decide) ?_
    | split

theorem execCxAck_next (a1) (a2) (t : State) :
    ∃ u, Machine.execCxAck a1 a2 t = .next u ∧ Only [.store, .mbx, .log, .net, .lull, .mem, .serve, .sealed, .link, .out, .freeCtr, .bytes] t u := by
  refine ⟨_, rfl, ?_⟩
  try dsimp only
  repeat' first
    | with_reducible first
      | exact Only.refl
      | refine badCx_only (by decide) ?_
      | refine advanceCx_only _ (by decide) ?_
      | refine modCx_only _ _ (by decide) ?_
      | refine abortCx_only _ _ (by decide) ?_
    | split

theorem execCxPre_next (a1) (a2) (t : State) :
    ∃ u, Machine.execCxPre a1 a2 t = .next u ∧ Only [.sealed, .link, .out, .freeCtr] t u := by
  refine ⟨_, rfl, ?_⟩
  try dsimp only
  repeat' first
    | with_reducible first
      | exact Only.refl
      | refine badCx_only (by decide) ?_
      | refine pumpCx_only _ (by decide) ?_
      | refine modCx_only _ _ (by decide) ?_
      | refine drbgDraw_only (by decide) ?_
    | split

theorem execCxClose_next (a1) (t : State) :
    ∃ u, Machine.execCxClose a1 t = .next u ∧ Only [.mbx, .sealed, .link] t u := by
  refine ⟨_, rfl, ?_⟩
  try dsimp only
  repeat' first
    | with_reducible first
      | exact Only.refl
      | refine badCx_only (by decide) ?_
      | refine completeAwait_only _ _ (by decide) ?_
      | refine dropCx_only _ (by decide) ?_
    | split

theorem execCxAbort_next (a1) (t : State) :
    ∃ u, Machine.execCxAbort a1 t = .next u ∧ Only [.mbx, .log, .sealed, .link, .out] t u := by
  refine ⟨_, rfl, ?_⟩
  try dsimp only
  repeat' first
    | with_reducible first
      | exact Only.refl
      | refine badCx_only (by decide) ?_
      | refine abortCx_only _ _ (by decide) ?_
    | split

theorem execCxBatchPost_next (a1) (a2) (a3) (a4) (a5) (a6) (t : State) :
    ∃ u, Machine.execCxBatchPost a1 a2 a3 a4 a5 a6 t = .next u ∧ Only [.store, .log, .mem, .mmu, .serve, .sealed, .link, .out, .freeCtr] t u := by
  refine ⟨_, rfl, ?_⟩
  try dsimp only
  repeat' first
    | with_reducible first
      | exact Only.refl
      | refine dvaRead_only _ _ (by decide) ?_
      | refine pumpCx_only _ (by decide) ?_
      | refine modCx_only _ _ (by decide) ?_
    | split

theorem execCxRoundTimeout_next (a1) (t : State) :
    ∃ u, Machine.execCxRoundTimeout a1 t = .next u ∧ Only [.link, .out] t u := by
  refine ⟨_, rfl, ?_⟩
  try dsimp only
  repeat' first
    | with_reducible first | exact Only.refl | refine sendBatch_only _ _ (by decide) ?_
    | split

theorem execCxSuspendTimeout_next (a1) (t : State) :
    ∃ u, Machine.execCxSuspendTimeout a1 t = .next u ∧ Only [.mbx, .log, .sealed, .link, .out] t u := by
  refine ⟨_, rfl, ?_⟩
  try dsimp only
  repeat' first
    | with_reducible first | exact Only.refl | refine abortCx_only _ _ (by decide) ?_
    | split

end Sys2Proof.Laws
end

