-- ==== Sys2Proof/Laws/TrainOps.lean ====
section
/-!
SUPPORT. Which groups of state each operation of Machine/TrainOps.lean changes; it keeps every other group and the forms of the
memory and of the event ring.
-/
namespace Sys2Proof.Laws

open Sys2Proof.Machine

theorem strapCheck_only {gs : List Group} {s t : State} (m : [.aon, .pins, .clk, .pwr, .start, .store, .mbx, .log, .vane, .net, .coll, .lull, .bond, .mem, .mmu, .dma, .serve, .sealed, .link, .out, .freeCtr, .bytes] ⊆ gs) (k : Only gs s t) :
    Only gs s (Machine.strapCheck t) := by
  refine Only.after (hs := [.aon, .pins, .clk, .pwr, .start, .store, .mbx, .log, .vane, .net, .coll, .lull, .bond, .mem, .mmu, .dma, .serve, .sealed, .link, .out, .freeCtr, .bytes]) ?_ m k
  clear m k
  unfold Machine.strapCheck
  try dsimp only
  repeat' first
    | with_reducible first | exact Only.refl | refine failStart_only _ (by decide) ?_
    | split

theorem miswire_only (a1) {gs : List Group} {s t : State} (m : [.aon, .pins, .clk, .pwr, .start, .store, .mbx, .log, .units, .vane, .net, .coll, .lull, .bond, .mem, .mmu, .dma, .serve, .sealed, .link, .out, .freeCtr, .bytes] ⊆ gs) (k : Only gs s t) :
    Only gs s (Machine.miswire a1 t) := by
  refine Only.after (hs := [.aon, .pins, .clk, .pwr, .start, .store, .mbx, .log, .units, .vane, .net, .coll, .lull, .bond, .mem, .mmu, .dma, .serve, .sealed, .link, .out, .freeCtr, .bytes]) ?_ m k
  clear m k
  unfold Machine.miswire
  try dsimp only
  repeat' first
    | with_reducible first
      | exact Only.refl
      | refine logUe_only _ _ _ _ _ (by decide) ?_
      | refine revoke_only _ _ (by decide) ?_
      | refine portLeaves_only _ _ (by decide) ?_
      | refine strapCheck_only (by decide) ?_
      | refine trainFails_only _ _ (by decide) ?_
    | split

theorem trayCheck_only (a1) {gs : List Group} {s t : State} (m : [.aon, .pins, .clk, .pwr, .start, .store, .mbx, .log, .units, .vane, .net, .coll, .lull, .bond, .mem, .mmu, .dma, .serve, .sealed, .link, .out, .freeCtr, .bytes] ⊆ gs) (k : Only gs s t) :
    Only gs s (Machine.trayCheck a1 t) := by
  refine Only.after (hs := [.aon, .pins, .clk, .pwr, .start, .store, .mbx, .log, .units, .vane, .net, .coll, .lull, .bond, .mem, .mmu, .dma, .serve, .sealed, .link, .out, .freeCtr, .bytes]) ?_ m k
  clear m k
  unfold Machine.trayCheck
  try dsimp only
  repeat' first
    | with_reducible first
      | exact Only.refl
      | refine miswire_only _ (by decide) ?_
      | refine afterIdent_only _ (by decide) ?_
    | split

theorem trayChecks_only (a1) {gs : List Group} {s t : State} (m : [.aon, .pins, .clk, .pwr, .start, .store, .mbx, .log, .units, .vane, .net, .coll, .lull, .bond, .mem, .mmu, .dma, .serve, .sealed, .link, .out, .freeCtr, .bytes] ⊆ gs) (k : Only gs s t) :
    Only gs s (Machine.trayChecks a1 t) := by
  refine Only.after (hs := [.aon, .pins, .clk, .pwr, .start, .store, .mbx, .log, .units, .vane, .net, .coll, .lull, .bond, .mem, .mmu, .dma, .serve, .sealed, .link, .out, .freeCtr, .bytes]) ?_ m k
  clear m k
  induction a1 generalizing t with
  | nil =>
    unfold Machine.trayChecks
    try dsimp only
    repeat' with_reducible exact Only.refl
  | cons x l ih =>
    unfold Machine.trayChecks
    try dsimp only
    repeat' with_reducible first
        | exact Only.refl
        | refine Only.trans ?_ (ih ..)
        | refine trayCheck_only _ (by decide) ?_

theorem sendIdents_only (a1) {gs : List Group} {s t : State} (m : [.link, .out] ⊆ gs) (k : Only gs s t) :
    Only gs s (Machine.sendIdents a1 t) := by
  refine Only.after (hs := [.link, .out]) ?_ m k
  clear m k
  induction a1 generalizing t with
  | nil =>
    unfold Machine.sendIdents
    try dsimp only
    repeat' with_reducible exact Only.refl
  | cons x l ih =>
    unfold Machine.sendIdents
    try dsimp only
    repeat' first
        | with_reducible first
          | exact Only.refl
          | refine Only.trans ?_ (ih ..)
          | refine linkFlit_only _ _ _ _ (by decide) ?_
        | split

theorem trayPublished_only {gs : List Group} {s t : State} (m : [.aon, .pins, .clk, .pwr, .start, .store, .mbx, .log, .units, .vane, .net, .coll, .lull, .bond, .mem, .mmu, .dma, .serve, .sealed, .link, .out, .freeCtr, .bytes] ⊆ gs) (k : Only gs s t) :
    Only gs s (Machine.trayPublished t) := by
  refine Only.after (hs := [.aon, .pins, .clk, .pwr, .start, .store, .mbx, .log, .units, .vane, .net, .coll, .lull, .bond, .mem, .mmu, .dma, .serve, .sealed, .link, .out, .freeCtr, .bytes]) ?_ m k
  clear m k
  unfold Machine.trayPublished
  try dsimp only
  repeat' with_reducible first
    | exact Only.refl
    | refine trayChecks_only _ (by decide) ?_
    | refine sendIdents_only _ (by decide) ?_

end Sys2Proof.Laws
end

