-- ==== Sys2Proof/Laws/Gust.lean ====
section
/-!
SUPPORT. Which groups of state each operation of Machine/Gust.lean changes; it keeps every other group and the forms of the
memory and of the event ring.
-/
namespace Sys2Proof.Laws

open Sys2Proof.Machine

theorem replay_only (a1) (a2) {gs : List Group} {s t : State} (m : [.pwr, .start, .mbx, .log, .units, .vane, .net, .coll, .lull, .bond, .serve, .sealed, .link, .out, .freeCtr] ⊆ gs) (k : Only gs s t) :
    Only gs s (Machine.replay a1 a2 t) := by
  refine Only.after (hs := [.pwr, .start, .mbx, .log, .units, .vane, .net, .coll, .lull, .bond, .serve, .sealed, .link, .out, .freeCtr]) ?_ m k
  clear m k
  unfold Machine.replay
  try dsimp only
  repeat' first
    | with_reducible first
      | exact Only.refl
      | refine replayFrom_only _ _ (by decide) ?_
      | refine gustDown_only _ _ _ (by decide) ?_
    | split

theorem packetArrives_only (a1) (a2) (a3) {gs : List Group} {s t : State} (m : [.mbx, .log, .vane, .net, .coll, .link, .out, .freeCtr] ⊆ gs) (k : Only gs s t) :
    Only gs s (Machine.packetArrives a1 a2 a3 t) := by
  refine Only.after (hs := [.mbx, .log, .vane, .net, .coll, .link, .out, .freeCtr]) ?_ m k
  clear m k
  unfold Machine.packetArrives
  try dsimp only
  repeat' first
    | with_reducible first
      | exact Only.refl
      | refine answerArrives_only _ _ _ _ (fun _ => ?_) (by decide) ?_
      | refine inject_only _ _ _ (by decide) ?_
    | split

theorem dataFlit_only (a1) (a2) {gs : List Group} {s t : State} (m : [.mbx, .log, .vane, .net, .coll, .link, .out, .freeCtr] ⊆ gs) (k : Only gs s t) :
    Only gs s (Machine.dataFlit a1 a2 t) := by
  refine Only.after (hs := [.mbx, .log, .vane, .net, .coll, .link, .out, .freeCtr]) ?_ m k
  clear m k
  unfold Machine.dataFlit
  try dsimp only
  repeat' first
    | with_reducible first
      | exact Only.refl
      | refine packetArrives_only _ _ _ (by decide) ?_
      | refine modGport_only _ _ (by decide) ?_
    | split

theorem acceptFlit_only (a1) (a2) {gs : List Group} {s t : State} (m : [.mbx, .log, .vane, .net, .coll, .link, .out, .freeCtr] ⊆ gs) (k : Only gs s t) :
    Only gs s (Machine.acceptFlit a1 a2 t) := by
  refine Only.after (hs := [.mbx, .log, .vane, .net, .coll, .link, .out, .freeCtr]) ?_ m k
  clear m k
  unfold Machine.acceptFlit
  try dsimp only
  repeat' first
    | with_reducible first
      | exact Only.refl
      | refine modGport_only _ _ (by decide) ?_
      | refine dataFlit_only _ _ (by decide) ?_
    | split

theorem takeSlots_only (a1) (a2) (a3) {gs : List Group} {s t : State} (m : [.mbx, .log, .vane, .net, .coll, .link, .out, .freeCtr] ⊆ gs) (k : Only gs s t) :
    Only gs s (Machine.takeSlots a1 a2 a3 t) := by
  refine Only.after (hs := [.mbx, .log, .vane, .net, .coll, .link, .out, .freeCtr]) ?_ m k
  clear m k
  induction a2 generalizing a1 a3 t with
  | nil =>
    unfold Machine.takeSlots
    try dsimp only
    repeat' with_reducible exact Only.refl
  | cons x l ih =>
    unfold Machine.takeSlots
    try dsimp only
    repeat' first
        | with_reducible first
          | exact Only.refl
          | refine Only.trans ?_ (ih ..)
          | refine modGport_only _ _ (by decide) ?_
          | refine acceptFlit_only _ _ (by decide) ?_
        | split

theorem badBlock_only (a1) {gs : List Group} {s t : State} (m : [.pwr, .start, .mbx, .log, .units, .vane, .net, .coll, .lull, .bond, .serve, .sealed, .link, .out, .freeCtr] ⊆ gs) (k : Only gs s t) :
    Only gs s (Machine.badBlock a1 t) := by
  refine Only.after (hs := [.pwr, .start, .mbx, .log, .units, .vane, .net, .coll, .lull, .bond, .serve, .sealed, .link, .out, .freeCtr]) ?_ m k
  clear m k
  unfold Machine.badBlock
  try dsimp only
  repeat' first
    | with_reducible first
      | exact Only.refl
      | refine modGport_only _ _ (by decide) ?_
      | refine gustDown_only _ _ _ (by decide) ?_
    | split

theorem lockBlock_only (a1) {gs : List Group} {s t : State} (m : [.link, .out] ⊆ gs) (k : Only gs s t) :
    Only gs s (Machine.lockBlock a1 t) := by
  refine Only.after (hs := [.link, .out]) ?_ m k
  clear m k
  unfold Machine.lockBlock
  try dsimp only
  repeat' first
    | with_reducible first
      | exact Only.refl
      | refine modGport_only _ _ (by decide) ?_
      | refine linkFlit_only _ _ _ _ (by decide) ?_
    | split

theorem takeNak_only (a1) (a2) {gs : List Group} {s t : State} (m : [.pwr, .start, .mbx, .log, .units, .vane, .net, .coll, .lull, .bond, .serve, .sealed, .link, .out, .freeCtr] ⊆ gs) (k : Only gs s t) :
    Only gs s (Machine.takeNak a1 a2 t) := by
  refine Only.after (hs := [.pwr, .start, .mbx, .log, .units, .vane, .net, .coll, .lull, .bond, .serve, .sealed, .link, .out, .freeCtr]) ?_ m k
  clear m k
  unfold Machine.takeNak
  try dsimp only
  repeat' first
    | with_reducible first
      | exact Only.refl
      | refine replay_only _ _ (by decide) ?_
      | refine modGport_only _ _ (by decide) ?_
    | split

theorem lullMessages_only (a1) {gs : List Group} {s t : State} (m : [.net, .lull, .serve, .link, .out] ⊆ gs) (k : Only gs s t) :
    Only gs s (Machine.lullMessages a1 t) := by
  refine Only.after (hs := [.net, .lull, .serve, .link, .out]) ?_ m k
  clear m k
  induction a1 generalizing t with
  | nil =>
    unfold Machine.lullMessages
    try dsimp only
    repeat' with_reducible exact Only.refl
  | cons x l ih =>
    unfold Machine.lullMessages
    try dsimp only
    repeat' with_reducible first
        | exact Only.refl
        | refine Only.trans ?_ (ih ..)
        | refine lullMessage_only _ (by decide) ?_

theorem sendHsSig_only (a1) (a2) {gs : List Group} {s t : State} (m : [.link, .out] ⊆ gs) (k : Only gs s t) :
    Only gs s (Machine.sendHsSig a1 a2 t) := by
  refine Only.after (hs := [.link, .out]) ?_ m k
  clear m k
  unfold Machine.sendHsSig
  try dsimp only
  repeat' with_reducible first | exact Only.refl | refine linkFlit_only _ _ _ _ (by decide) ?_

theorem rekeyEnds_only (a1) (a2) {gs : List Group} {s t : State} (m : [.mbx, .log, .link, .out] ⊆ gs) (k : Only gs s t) :
    Only gs s (Machine.rekeyEnds a1 a2 t) := by
  refine Only.after (hs := [.mbx, .log, .link, .out]) ?_ m k
  clear m k
  unfold Machine.rekeyEnds
  try dsimp only
  repeat' first
    | with_reducible first
      | exact Only.refl
      | refine sendRekey_only _ _ (by decide) ?_
      | refine nextKeys_only _ _ _ (by decide) ?_
      | refine completeAwait_only _ _ (by decide) ?_
      | refine modSChan_only _ _ _ (by decide) ?_
      | refine logSec_only _ _ _ _ (by decide) ?_
    | split

theorem pumpAllCx_only (a1) {gs : List Group} {s t : State} (m : [.sealed, .link, .out] ⊆ gs) (k : Only gs s t) :
    Only gs s (Machine.pumpAllCx a1 t) := by
  refine Only.after (hs := [.sealed, .link, .out]) ?_ m k
  clear m k
  induction a1 generalizing t with
  | nil =>
    unfold Machine.pumpAllCx
    try dsimp only
    repeat' with_reducible exact Only.refl
  | cons x l ih =>
    unfold Machine.pumpAllCx
    try dsimp only
    repeat' with_reducible first
        | exact Only.refl
        | refine Only.trans ?_ (ih ..)
        | refine pumpCx_only _ (by decide) ?_

theorem declareDown_only (a1) (a2) {gs : List Group} {s t : State} (m : [.mbx, .log, .vane, .net, .sealed, .link, .out, .freeCtr] ⊆ gs) (k : Only gs s t) :
    Only gs s (Machine.declareDown a1 a2 t) := by
  refine Only.after (hs := [.mbx, .log, .vane, .net, .sealed, .link, .out, .freeCtr]) ?_ m k
  clear m k
  unfold Machine.declareDown
  try dsimp only
  repeat' with_reducible first
    | exact Only.refl
    | refine channelDown_only _ _ (by decide) ?_
    | refine sendMsix_only _ (by decide) ?_
    | refine logSec_only _ _ _ _ (by decide) ?_

theorem execGustBlock_next (a1) (a2) (t : State) :
    ∃ u, Machine.execGustBlock a1 a2 t = .next u ∧ Only [.pwr, .start, .mbx, .log, .units, .vane, .net, .coll, .lull, .bond, .serve, .sealed, .link, .out, .freeCtr] t u := by
  refine ⟨_, rfl, ?_⟩
  try dsimp only
  repeat' first
    | with_reducible first
      | exact Only.refl
      | refine badBlock_only _ (by decide) ?_
      | refine lockBlock_only _ (by decide) ?_
      | refine modGport_only _ _ (by decide) ?_
      | refine takeNak_only _ _ (by decide) ?_
      | refine pumpPort_only _ (by decide) ?_
      | refine takeSlots_only _ _ _ (by decide) ?_
    | split

theorem execReplayTimeout_next (a1) (t : State) :
    ∃ u, Machine.execReplayTimeout a1 t = .next u ∧ Only [.pwr, .start, .mbx, .log, .units, .vane, .net, .coll, .lull, .bond, .serve, .sealed, .link, .out, .freeCtr] t u := by
  refine ⟨_, rfl, ?_⟩
  try dsimp only
  repeat' first
    | with_reducible first | exact Only.refl | refine replay_only _ _ (by decide) ?_
    | split

theorem execTrainId_next (a1) (a2) (a3) (a4) (a5) (a6) (t : State) :
    ∃ u, Machine.execTrainId a1 a2 a3 a4 a5 a6 t = .next u ∧ Only [.aon, .pins, .clk, .pwr, .start, .store, .mbx, .log, .units, .vane, .net, .coll, .lull, .bond, .mem, .mmu, .dma, .serve, .sealed, .link, .out, .freeCtr, .bytes] t u := by
  refine ⟨_, rfl, ?_⟩
  try dsimp only
  repeat' first
    | with_reducible first
      | exact Only.refl
      | refine modGport_only _ _ (by decide) ?_
      | refine miswire_only _ (by decide) ?_
      | refine trayCheck_only _ (by decide) ?_
      | refine trayChecks_only _ (by decide) ?_
      | refine afterIdent_only _ (by decide) ?_
    | split

theorem execLinkLull_next (a1) (a2) (a3) (t : State) :
    ∃ u, Machine.execLinkLull a1 a2 a3 t = .next u ∧ Only [.net, .lull, .serve, .link, .out] t u := by
  refine ⟨_, rfl, ?_⟩
  try dsimp only
  repeat' first
    | with_reducible first
      | exact Only.refl
      | refine lullMessages_only _ (by decide) ?_
      | refine modGport_only _ _ (by decide) ?_
    | split

theorem execHandshake_next (a1) (a2) (t : State) :
    ∃ u, Machine.execHandshake a1 a2 t = .next u ∧ Only [.mbx, .log, .units, .sealed, .link, .out, .freeCtr] t u := by
  refine ⟨_, rfl, ?_⟩
  try dsimp only
  repeat' first
    | with_reducible first
      | exact Only.refl
      | refine sendHsSig_only _ _ (by decide) ?_
      | refine startProbation_only _ (by decide) ?_
      | refine newChannel_only _ _ _ (by decide) ?_
      | refine trainFails_only _ _ (by decide) ?_
      | refine logSec_only _ _ _ _ (by decide) ?_
      | refine startRekey_only _ _ (by decide) ?_
      | refine rekeyEnds_only _ _ (by decide) ?_
    | split

theorem execRekey_next (a1) (a2) (a3) (a4) (t : State) :
    ∃ u, Machine.execRekey a1 a2 a3 a4 t = .next u ∧ Only [.mbx, .log, .vane, .net, .sealed, .link, .out, .freeCtr] t u := by
  refine ⟨_, rfl, ?_⟩
  try dsimp only
  repeat' first
    | with_reducible first
      | exact Only.refl
      | refine changeover_only _ _ _ (by decide) ?_
      | refine linkFlit_only _ _ _ _ (by decide) ?_
      | refine modSChan_only _ _ _ (by decide) ?_
    | split

theorem execReady_next (a1) (a2) (t : State) :
    ∃ u, Machine.execReady a1 a2 t = .next u ∧ Only [.mbx, .log, .vane, .net, .sealed, .link, .out, .freeCtr] t u := by
  refine ⟨_, rfl, ?_⟩
  try dsimp only
  repeat' first
    | with_reducible first
      | exact Only.refl
      | refine pumpPort_only _ (by decide) ?_
      | refine modGport_only _ _ (by decide) ?_
      | refine pumpAllCx_only _ (by decide) ?_
    | split

theorem execLeave_next (a1) (a2) (t : State) :
    ∃ u, Machine.execLeave a1 a2 t = .next u ∧ Only [.pwr, .start, .mbx, .log, .units, .vane, .net, .coll, .lull, .bond, .serve, .sealed, .link, .out, .freeCtr] t u := by
  refine ⟨_, rfl, ?_⟩
  try dsimp only
  repeat' with_reducible first | exact Only.refl | refine gustDown_only _ _ _ (by decide) ?_

theorem execPam4EqualisationDone_next (a1) (t : State) :
    ∃ u, Machine.execPam4EqualisationDone a1 t = .next u ∧ Only [.clk, .link] t u := by
  refine ⟨_, rfl, ?_⟩
  try dsimp only
  repeat' first
    | with_reducible first
      | exact Only.refl
      | refine modGport_only _ _ (by decide) ?_
      | fail_if_no_progress refine Only.atClk (by decide) ?_
    | split

theorem execTrainStepTimeout_next (a1) (t : State) :
    ∃ u, Machine.execTrainStepTimeout a1 t = .next u ∧ Only [.aon, .pins, .clk, .pwr, .start, .store, .mbx, .log, .units, .vane, .net, .coll, .lull, .bond, .mem, .mmu, .dma, .serve, .sealed, .link, .out, .freeCtr, .bytes] t u := by
  refine ⟨_, rfl, ?_⟩
  try dsimp only
  repeat' first
    | with_reducible first
      | exact Only.refl
      | refine miswire_only _ (by decide) ?_
      | refine trainFails_only _ _ (by decide) ?_
      | refine logInfo_only _ _ _ _ (by decide) ?_
      | refine gustDown_only _ _ _ (by decide) ?_
    | split

theorem execPortAutoRetrain_next (a1) (t : State) :
    ∃ u, Machine.execPortAutoRetrain a1 t = .next u ∧ Only [.log, .units, .link, .out] t u := by
  refine ⟨_, rfl, ?_⟩
  try dsimp only
  repeat' first
    | with_reducible first
      | exact Only.refl
      | refine startTraining_only _ (by decide) ?_
      | refine modGport_only _ _ (by decide) ?_
    | split

theorem execSealedFrame_next (a1) (a2) (a3) (a4) (a5) (a6) (a7) (t : State) :
    ∃ u, Machine.execSealedFrame a1 a2 a3 a4 a5 a6 a7 t = .next u ∧ Only [.mbx, .log, .vane, .net, .coll, .sealed, .link, .out, .freeCtr] t u := by
  refine ⟨_, rfl, ?_⟩
  try dsimp only
  repeat' first
    | with_reducible first
      | exact Only.refl
      | refine modSChan_only _ _ _ (by decide) ?_
      | refine packetArrives_only _ _ _ (by decide) ?_
      | refine send_only _ (by decide) ?_
      | refine declareDown_only _ _ (by decide) ?_
      | refine logSec_only _ _ _ _ (by decide) ?_
    | split

theorem execRekeyRequest_next (a1) (a2) (t : State) :
    ∃ u, Machine.execRekeyRequest a1 a2 t = .next u ∧ Only [.log, .sealed, .link, .out, .freeCtr] t u := by
  refine ⟨_, rfl, ?_⟩
  try dsimp only
  repeat' first
    | with_reducible first
      | exact Only.refl
      | refine startRekey_only _ _ (by decide) ?_
      | refine sendMsix_only _ (by decide) ?_
      | refine logInfo_only _ _ _ _ (by decide) ?_
      | refine modSChan_only _ _ _ (by decide) ?_
    | split

theorem execRekeyRetry_next (a1) (a2) (t : State) :
    ∃ u, Machine.execRekeyRetry a1 a2 t = .next u ∧ Only [.sealed, .link, .out, .freeCtr] t u := by
  refine ⟨_, rfl, ?_⟩
  try dsimp only
  repeat' first
    | with_reducible first | exact Only.refl | refine startRekey_only _ _ (by decide) ?_
    | split

theorem execSealedHold_next (a1) (a2) (t : State) :
    ∃ u, Machine.execSealedHold a1 a2 t = .next u ∧ Only [.log, .link, .out] t u := by
  refine ⟨_, rfl, ?_⟩
  try dsimp only
  repeat' first
    | with_reducible first
      | exact Only.refl
      | refine sendMsix_only _ (by decide) ?_
      | refine logSec_only _ _ _ _ (by decide) ?_
      | refine modSChan_only _ _ _ (by decide) ?_
    | split

theorem execSealedDown_next (a1) (a2) (t : State) :
    ∃ u, Machine.execSealedDown a1 a2 t = .next u ∧ Only [.mbx, .log, .vane, .net, .sealed, .link, .out, .freeCtr] t u := by
  refine ⟨_, rfl, ?_⟩
  try dsimp only
  repeat' first
    | with_reducible first | exact Only.refl | refine declareDown_only _ _ (by decide) ?_
    | split

end Sys2Proof.Laws
end

