-- ==== Sys2Proof/Laws/Ingest.lean ====
section
/-!
SUPPORT. Which groups of state each operation of Machine/Ingest.lean changes; it keeps every other group and the forms of the
memory and of the event ring.
-/
namespace Sys2Proof.Laws

open Sys2Proof.Machine

theorem ringFault_only (a1) {gs : List Group} {s t : State} (m : [.log, .serve, .link, .out] ⊆ gs) (k : Only gs s t) :
    Only gs s (Machine.ringFault a1 t) := by
  refine Only.after (hs := [.log, .serve, .link, .out]) ?_ m k
  clear m k
  unfold Machine.ringFault
  try dsimp only
  repeat' with_reducible first
    | exact Only.refl
    | refine logUe_only _ _ _ _ _ (by decide) ?_
    | refine setRing_only _ _ (by decide) ?_

theorem ingest_only {gs : List Group} (a1) (a2) (a3) (h3 : ∀ x0 x1, Only gs x1 (a3 x0 x1)) {s t : State} (m : [.store, .log, .mem, .mmu, .serve, .link, .out, .freeCtr] ⊆ gs) (k : Only gs s t) :
    Only gs s (Machine.ingest a1 a2 a3 t) := by
  unfold Machine.ingest
  try dsimp only
  repeat' first
    | with_reducible first
      | exact k
      | refine Only.trans ?_ (h3 ..)
      | refine dvaRead_only _ _ (List.Subset.trans (by decide) m) ?_
      | refine ringFault_only _ (List.Subset.trans (by decide) m) ?_
      | refine setRing_only _ _ (List.Subset.trans (by decide) m) ?_
    | split

theorem refusedRec_only (a1) (a2) (a3) (a4) {gs : List Group} {s t : State} (m : [.serve] ⊆ gs) (k : Only gs s t) :
    Only gs s (Machine.refusedRec a1 a2 a3 a4 t) := by
  refine Only.after (hs := [.serve]) ?_ m k
  clear m k
  unfold Machine.refusedRec
  try dsimp only
  repeat' with_reducible first | exact Only.refl | refine putRec_only _ _ (by decide) ?_

theorem refuseReq_only (a1) (a2) (a3) (a4) (a5) {gs : List Group} {s t : State} (m : [.serve] ⊆ gs) (k : Only gs s t) :
    Only gs s (Machine.refuseReq a1 a2 a3 a4 a5 t) := by
  refine Only.after (hs := [.serve]) ?_ m k
  clear m k
  unfold Machine.refuseReq
  try dsimp only
  repeat' with_reducible first
    | exact Only.refl
    | refine refusedRec_only _ _ _ _ (by decide) ?_
    | refine setReq_only _ _ (by decide) ?_

theorem readTokbuf_only (a1) {gs : List Group} {s t : State} (m : [.store, .log, .mem, .mmu, .serve, .link, .out, .freeCtr] ⊆ gs) (k : Only gs s t) :
    Only gs s (Machine.readTokbuf a1 t).2 := by
  refine Only.after (hs := [.store, .log, .mem, .mmu, .serve, .link, .out, .freeCtr]) ?_ m k
  clear m k
  unfold Machine.readTokbuf
  try dsimp only
  repeat' first
    | with_reducible first
      | exact Only.refl
      | refine dvaRead_only _ _ (by decide) ?_
      | refine translate_only _ (by decide) ?_
    | split

theorem admitReq_only (a1) (a2) (a3) (a4) {gs : List Group} {s t : State} (m : [.store, .log, .mem, .mmu, .serve, .link, .out, .freeCtr] ⊆ gs) (k : Only gs s t) :
    Only gs s (Machine.admitReq a1 a2 a3 a4 t) := by
  refine Only.after (hs := [.store, .log, .mem, .mmu, .serve, .link, .out, .freeCtr]) ?_ m k
  clear m k
  unfold Machine.admitReq
  try dsimp only
  repeat' first
    | with_reducible first
      | exact Only.refl
      | refine refuseReq_only _ _ _ _ _ (by decide) ?_
      | refine readTokbuf_only _ (by decide) ?_
      | refine admitRows_only _ _ _ (by decide) ?_
      | refine setReq_only _ _ (by decide) ?_
      | refine reqRec_only _ _ _ _ _ (by decide) ?_
    | split

theorem freshId_only (a1) (a2) {gs : List Group} {s t : State} (m : [.dma] ⊆ gs) (k : Only gs s t) :
    Only gs s (Machine.freshId a1 a2 t) := by
  refine Only.after (hs := [.dma]) ?_ m k
  clear m k
  unfold Machine.freshId
  try dsimp only
  repeat' with_reducible first | exact Only.refl | fail_if_no_progress refine Only.atDma (by decide) ?_

theorem control_only {gs : List Group} (a1) (a2) (a3) (a4) (h4 : ∀ x0 x1 x2, Only gs x2 (a4 x0 x1 x2)) {s t : State} (m : [.serve] ⊆ gs) (k : Only gs s t) :
    Only gs s (Machine.control a1 a2 a3 a4 t) := by
  unfold Machine.control
  try dsimp only
  repeat' first
    | with_reducible first
      | exact k
      | refine Only.trans ?_ (h4 ..)
      | refine putRec_only _ _ (List.Subset.trans (by decide) m) ?_
    | split

theorem ringTail_only (a1) (a2) {gs : List Group} {s t : State} (m : [.aon, .serve] ⊆ gs) (k : Only gs s t) :
    Only gs s (Machine.ringTail a1 a2 t) := by
  refine Only.after (hs := [.aon, .serve]) ?_ m k
  clear m k
  unfold Machine.ringTail
  try dsimp only
  repeat' first
    | with_reducible first
      | exact Only.refl
      | refine noteOffline_only (by decide) ?_
      | refine setRing_only _ _ (by decide) ?_
    | split

theorem ringRetire_only (a1) (a2) {gs : List Group} {s t : State} (m : [.aon, .serve] ⊆ gs) (k : Only gs s t) :
    Only gs s (Machine.ringRetire a1 a2 t) := by
  refine Only.after (hs := [.aon, .serve]) ?_ m k
  clear m k
  unfold Machine.ringRetire
  try dsimp only
  repeat' first
    | with_reducible first
      | exact Only.refl
      | refine noteOffline_only (by decide) ?_
      | refine setRing_only _ _ (by decide) ?_
    | split

theorem writeRecs_only (a1) (a2) (a3) {gs : List Group} {s t : State} (m : [.store, .log, .mem, .mmu, .serve, .sealed, .link, .out, .freeCtr, .bytes] ⊆ gs) (k : Only gs s t) :
    Only gs s (Machine.writeRecs a1 a2 a3 t).2 := by
  refine Only.after (hs := [.store, .log, .mem, .mmu, .serve, .sealed, .link, .out, .freeCtr, .bytes]) ?_ m k
  clear m k
  induction a3 generalizing a1 a2 t with
  | nil =>
    unfold Machine.writeRecs
    try dsimp only
    repeat' with_reducible exact Only.refl
  | cons x l ih =>
    unfold Machine.writeRecs
    try dsimp only
    repeat' first
        | with_reducible first
          | exact Only.refl
          | refine Only.trans ?_ (ih ..)
          | refine send_only _ (by decide) ?_
          | refine dvaWrite_only _ _ (by decide) ?_
        | split

theorem execSubmit_next (a1) (t : State) :
    ∃ u, Machine.execSubmit a1 t = .next u ∧ Only [.store, .log, .mem, .mmu, .dma, .serve, .link, .out, .freeCtr] t u := by
  refine ⟨_, rfl, ?_⟩
  try dsimp only
  repeat' first
    | with_reducible first
      | exact Only.refl
      | refine ingest_only _ _ _ (fun _ _ => ?_) (by decide) ?_
      | refine refusedRec_only _ _ _ _ (by decide) ?_
      | refine admitReq_only _ _ _ _ (by decide) ?_
      | refine setReq_only _ _ (by decide) ?_
      | refine freshId_only _ _ (by decide) ?_
      | refine writeContext_only _ (by decide) ?_
      | fail_if_no_progress refine Only.atServe (by decide) ?_
    | split

theorem execCancel_next (a1) (t : State) :
    ∃ u, Machine.execCancel a1 t = .next u ∧ Only [.store, .log, .mem, .mmu, .serve, .link, .out, .freeCtr] t u := by
  refine ⟨_, rfl, ?_⟩
  try dsimp only
  repeat' with_reducible first
    | exact Only.refl
    | refine ingest_only _ _ _ (fun _ _ => ?_) (by decide) ?_
    | refine control_only _ _ _ _ (fun _ _ _ => ?_) (by decide) ?_
    | refine setReq_only _ _ (by decide) ?_

theorem execPause_next (a1) (t : State) :
    ∃ u, Machine.execPause a1 t = .next u ∧ Only [.store, .log, .mem, .mmu, .serve, .link, .out, .freeCtr] t u := by
  refine ⟨_, rfl, ?_⟩
  try dsimp only
  repeat' with_reducible first
    | exact Only.refl
    | refine ingest_only _ _ _ (fun _ _ => ?_) (by decide) ?_
    | refine control_only _ _ _ _ (fun _ _ _ => ?_) (by decide) ?_
    | refine setReq_only _ _ (by decide) ?_

theorem execResume_next (a1) (t : State) :
    ∃ u, Machine.execResume a1 t = .next u ∧ Only [.store, .log, .mem, .mmu, .serve, .link, .out, .freeCtr] t u := by
  refine ⟨_, rfl, ?_⟩
  try dsimp only
  repeat' with_reducible first
    | exact Only.refl
    | refine ingest_only _ _ _ (fun _ _ => ?_) (by decide) ?_
    | refine control_only _ _ _ _ (fun _ _ _ => ?_) (by decide) ?_
    | refine setReq_only _ _ (by decide) ?_
    | fail_if_no_progress refine Only.atServe (by decide) ?_

theorem execNop_next (a1) (t : State) :
    ∃ u, Machine.execNop a1 t = .next u ∧ Only [.store, .log, .mem, .mmu, .serve, .link, .out, .freeCtr] t u := by
  refine ⟨_, rfl, ?_⟩
  try dsimp only
  repeat' with_reducible first | exact Only.refl | refine ingest_only _ _ _ (fun _ _ => ?_) (by decide) ?_

theorem execRingSqtail_next (a1) (a2) (t : State) :
    ∃ u, Machine.execRingSqtail a1 a2 t = .next u ∧ Only [.aon, .serve] t u := by
  refine ⟨_, rfl, ?_⟩
  try dsimp only
  repeat' with_reducible first | exact Only.refl | refine ringTail_only _ _ (by decide) ?_

theorem execRingCqhead_next (a1) (a2) (t : State) :
    ∃ u, Machine.execRingCqhead a1 a2 t = .next u ∧ Only [.aon, .serve] t u := by
  refine ⟨_, rfl, ?_⟩
  try dsimp only
  repeat' with_reducible first | exact Only.refl | refine ringRetire_only _ _ (by decide) ?_

theorem execEmit_next (a1) (t : State) :
    ∃ u, Machine.execEmit a1 t = .next u ∧ Only [.store, .log, .mem, .mmu, .serve, .sealed, .link, .out, .freeCtr, .bytes] t u := by
  refine ⟨_, rfl, ?_⟩
  try dsimp only
  repeat' first
    | with_reducible first
      | exact Only.refl
      | refine writeRecs_only _ _ _ (by decide) ?_
      | refine sendMsix_only _ (by decide) ?_
      | refine setRing_only _ _ (by decide) ?_
      | refine ringFault_only _ (by decide) ?_
    | split

end Sys2Proof.Laws
end

