-- ==== Sys2Proof/Laws/Completions.lean ====
section
/-!
SUPPORT. Which groups of state each operation of Machine/Completions.lean changes; it keeps every other group and the forms of the
memory and of the event ring.
-/
namespace Sys2Proof.Laws

open Sys2Proof.Machine

theorem cplRecord_only (a1) (a2) (a3) {gs : List Group} {s t : State} (m : [.log, .link, .out] ⊆ gs) (k : Only gs s t) :
    Only gs s (Machine.cplRecord a1 a2 a3 t) := by
  refine Only.after (hs := [.log, .link, .out]) ?_ m k
  clear m k
  unfold Machine.cplRecord
  try dsimp only
  repeat' with_reducible first | exact Only.refl | refine logLimitedAt_only _ _ _ _ _ _ _ _ (by decide) ?_

theorem hostUserFails_only (a1) {gs : List Group} {s t : State} (m : [.store, .log, .net, .lull, .mem, .mmu, .dma, .serve, .sealed, .link, .out, .freeCtr, .bytes] ⊆ gs) (k : Only gs s t) :
    Only gs s (Machine.hostUserFails a1 t) := by
  refine Only.after (hs := [.store, .log, .net, .lull, .mem, .mmu, .dma, .serve, .sealed, .link, .out, .freeCtr, .bytes]) ?_ m k
  clear m k
  unfold Machine.hostUserFails
  try dsimp only
  repeat' first
    | with_reducible first
      | exact Only.refl
      | refine settle_only _ (by decide) ?_
      | refine chunkEnds_only _ _ _ _ (by decide) ?_
      | refine modChan_only _ _ (by decide) ?_
      | refine ringFault_only _ (by decide) ?_
    | split

theorem cxlDown_only (a1) (a2) {gs : List Group} {s t : State} (m : [.store, .log, .units, .mem, .serve, .link, .out] ⊆ gs) (k : Only gs s t) :
    Only gs s (Machine.cxlDown a1 a2 t) := by
  refine Only.after (hs := [.store, .log, .units, .mem, .serve, .link, .out]) ?_ m k
  clear m k
  unfold Machine.cxlDown
  try dsimp only
  repeat' with_reducible first
    | exact Only.refl
    | refine cxlOut_only _ (by decide) ?_
    | refine sendMsix_only _ (by decide) ?_
    | refine logUe_only _ _ _ _ _ (by decide) ?_
    | refine setUnitRec_only _ _ _ (by decide) ?_

theorem execCompletionTimeout_next (a1) (t : State) :
    ∃ u, Machine.execCompletionTimeout a1 t = .next u ∧ Only [.store, .log, .net, .lull, .mem, .mmu, .dma, .serve, .sealed, .link, .out, .freeCtr, .bytes] t u := by
  refine ⟨_, rfl, ?_⟩
  try dsimp only
  repeat' first
    | with_reducible first
      | exact Only.refl
      | refine cplRecord_only _ _ _ (by decide) ?_
      | refine hostUserFails_only _ (by decide) ?_
      | refine sendMsix_only _ (by decide) ?_
      | refine modCxl_only _ _ (by decide) ?_
      | refine errorResponse_only _ _ (by decide) ?_
      | refine modGport_only _ _ (by decide) ?_
      | fail_if_no_progress refine Only.atLink (by decide) ?_
    | split

theorem execQuarantineEnd_next (a1) (t : State) :
    ∃ u, Machine.execQuarantineEnd a1 t = .next u ∧ Only [.link] t u := by
  refine ⟨_, rfl, ?_⟩
  try dsimp only
  repeat' first
    | with_reducible first
      | exact Only.refl
      | refine modCxl_only _ _ (by decide) ?_
      | refine modGport_only _ _ (by decide) ?_
      | fail_if_no_progress refine Only.atLink (by decide) ?_
    | split

theorem execCompletionArrival_next (a1) (a2) (t : State) :
    ∃ u, Machine.execCompletionArrival a1 a2 t = .next u ∧ Only [.log, .link, .out] t u := by
  refine ⟨_, rfl, ?_⟩
  try dsimp only
  repeat' first
    | with_reducible first
      | exact Only.refl
      | refine logInfo_only _ _ _ _ (by decide) ?_
      | refine modCxl_only _ _ (by decide) ?_
      | refine answerArrives_only _ _ _ _ (fun _ => ?_) (by decide) ?_
      | fail_if_no_progress refine Only.atLink (by decide) ?_
    | split

theorem execCxlDown_next (a1) (a2) (t : State) :
    ∃ u, Machine.execCxlDown a1 a2 t = .next u ∧ Only [.store, .log, .units, .mem, .serve, .link, .out] t u := by
  refine ⟨_, rfl, ?_⟩
  try dsimp only
  repeat' first
    | with_reducible first | exact Only.refl | refine cxlDown_only _ _ (by decide) ?_
    | split

theorem execCxlPoison_next (a1) (t : State) :
    ∃ u, Machine.execCxlPoison a1 t = .next u ∧ Only [.store, .log, .mem, .serve, .link, .out] t u := by
  refine ⟨_, rfl, ?_⟩
  try dsimp only
  repeat' first
    | with_reducible first
      | exact Only.refl
      | refine modCxl_only _ _ (by decide) ?_
      | refine sendMsix_only _ (by decide) ?_
      | refine logUe_only _ _ _ _ _ (by decide) ?_
      | refine driftLost_only _ (by decide) ?_
      | fail_if_no_progress refine Only.atServe (by decide) ?_
    | split

theorem execDevloadOverload_next (a1) (t : State) :
    ∃ u, Machine.execDevloadOverload a1 t = .next u ∧ Only [.link] t u := by
  refine ⟨_, rfl, ?_⟩
  try dsimp only
  repeat' first
    | with_reducible first | exact Only.refl | refine modCxl_only _ _ (by decide) ?_
    | split

theorem execDevloadEnd_next (a1) (t : State) :
    ∃ u, Machine.execDevloadEnd a1 t = .next u ∧ Only [.link] t u := by
  refine ⟨_, rfl, ?_⟩
  try dsimp only
  repeat' with_reducible first | exact Only.refl | refine modCxl_only _ _ (by decide) ?_

end Sys2Proof.Laws
end

