-- ==== Sys2Proof/Laws/Drafts.lean ====
section
/-!
SUPPORT. Which groups of state each operation of Machine/Drafts.lean changes; it keeps every other group and the forms of the
memory and of the event ring.
-/
namespace Sys2Proof.Laws

open Sys2Proof.Machine

theorem dropDraft_only (a1) {gs : List Group} {s t : State} (m : [.store, .log, .mem, .serve, .link, .out] ⊆ gs) (k : Only gs s t) :
    Only gs s (Machine.dropDraft a1 t) := by
  refine Only.after (hs := [.store, .log, .mem, .serve, .link, .out]) ?_ m k
  clear m k
  unfold Machine.dropDraft
  try dsimp only
  repeat' first
    | with_reducible first
      | exact Only.refl
      | refine freeFrames_only _ (by decide) ?_
      | fail_if_no_progress refine Only.atServe (by decide) ?_
    | split

theorem setShare_only (a1) {gs : List Group} {s t : State} (m : [.serve] ⊆ gs) (k : Only gs s t) :
    Only gs s (Machine.setShare a1 t) := by
  refine Only.after (hs := [.serve]) ?_ m k
  clear m k
  unfold Machine.setShare
  try dsimp only
  repeat' first
    | with_reducible first | exact Only.refl | fail_if_no_progress refine Only.atServe (by decide) ?_
    | split

theorem dvaBytes_only (a1) (a2) (a3) {gs : List Group} {s t : State} (m : [.store, .log, .mem, .mmu, .serve, .link, .out, .freeCtr] ⊆ gs) (k : Only gs s t) :
    Only gs s (Machine.dvaBytes a1 a2 a3 t).2 := by
  refine Only.after (hs := [.store, .log, .mem, .mmu, .serve, .link, .out, .freeCtr]) ?_ m k
  clear m k
  unfold Machine.dvaBytes
  try dsimp only
  repeat' with_reducible first | exact Only.refl | refine dvaRead_only _ _ (by decide) ?_

theorem pokeFrames_only (a1) (a2) {gs : List Group} {s t : State} (m : [.mem, .bytes] ⊆ gs) (k : Only gs s t) :
    Only gs s (Machine.pokeFrames a1 a2 t) := by
  refine Only.after (hs := [.mem, .bytes]) ?_ m k
  clear m k
  induction a1 generalizing a2 t with
  | nil =>
    unfold Machine.pokeFrames
    try dsimp only
    repeat' with_reducible exact Only.refl
  | cons x l ih =>
    unfold Machine.pokeFrames
    try dsimp only
    repeat' with_reducible first
        | exact Only.refl
        | refine Only.trans ?_ (ih ..)
        | refine poke_only _ _ (by decide) ?_

theorem replyEach_only (a1) (a2) {gs : List Group} {s t : State} (m : [.mbx] ⊆ gs) (k : Only gs s t) :
    Only gs s (Machine.replyEach a1 a2 t) := by
  refine Only.after (hs := [.mbx]) ?_ m k
  clear m k
  induction a2 generalizing a1 t with
  | nil =>
    unfold Machine.replyEach
    try dsimp only
    repeat' with_reducible exact Only.refl
  | cons x l ih =>
    unfold Machine.replyEach
    try dsimp only
    repeat' with_reducible first
        | exact Only.refl
        | refine Only.trans ?_ (ih ..)
        | refine reply_only _ _ (by decide) ?_
        | refine setBox_only _ _ (by decide) ?_

theorem roundOne_only (a1) (a2) {gs : List Group} {s t : State} (m : [.mem, .serve, .bytes] ⊆ gs) (k : Only gs s t) :
    Only gs s (Machine.roundOne a1 a2 t) := by
  refine Only.after (hs := [.mem, .serve, .bytes]) ?_ m k
  clear m k
  have h (v : Serve) (b : Tab Byte) (w : Tab.wf 0 t.mem.bytes → Tab.wf 0 b) :
      Only [.mem, .serve, .bytes] t { t with mem := { t.mem with bytes := b }, serve := v } :=
    Only.atServe (t := { t with mem := { t.mem with bytes := b } }) (by decide)
      (Only.atBytes (by decide) (by decide) w Only.refl)
  unfold Machine.roundOne
  split
  · exact Only.refl
  · split
    · exact Only.refl
    · dsimp only
      split
      · exact setReq_only _ _ (by decide) (h _ _ fun w => draftTurn_wf _ _ _ _ _ _ _ w)
      · exact h _ _ fun w => draftTurn_wf _ _ _ _ _ _ _ w

theorem roundEach_only (a1) (a2) {gs : List Group} {s t : State} (m : [.mem, .serve, .bytes] ⊆ gs) (k : Only gs s t) :
    Only gs s (Machine.roundEach a1 a2 t) := by
  refine Only.after (hs := [.mem, .serve, .bytes]) ?_ m k
  clear m k
  induction a2 generalizing a1 t with
  | nil =>
    unfold Machine.roundEach
    try dsimp only
    repeat' with_reducible exact Only.refl
  | cons x l ih =>
    unfold Machine.roundEach
    try dsimp only
    repeat' with_reducible first
        | exact Only.refl
        | refine Only.trans ?_ (ih ..)
        | refine roundOne_only _ _ (by decide) ?_

theorem clearProposals_only (a1) {gs : List Group} {s t : State} (m : [.serve] ⊆ gs) (k : Only gs s t) :
    Only gs s (Machine.clearProposals a1 t) := by
  refine Only.after (hs := [.serve]) ?_ m k
  clear m k
  induction a1 generalizing t with
  | nil =>
    unfold Machine.clearProposals
    try dsimp only
    repeat' with_reducible exact Only.refl
  | cons x l ih =>
    unfold Machine.clearProposals
    try dsimp only
    repeat' with_reducible first
        | exact Only.refl
        | refine Only.trans ?_ (ih ..)
        | refine modReq_only _ _ (by decide) ?_
        | fail_if_no_progress refine Only.atServe (by decide) ?_

theorem modDraft_only (a1) (a2) {gs : List Group} {s t : State} (m : [.serve] ⊆ gs) (k : Only gs s t) :
    Only gs s (Machine.modDraft a1 a2 t) := by
  refine Only.after (hs := [.serve]) ?_ m k
  clear m k
  unfold Machine.modDraft
  try dsimp only
  repeat' with_reducible first | exact Only.refl | fail_if_no_progress refine Only.atServe (by decide) ?_

theorem draftAfter_only (a1) (a2) (a3) (a4) {gs : List Group} {s t : State} (m : [.serve] ⊆ gs) (k : Only gs s t) :
    Only gs s (Machine.draftAfter a1 a2 a3 a4 t) := by
  refine Only.after (hs := [.serve]) ?_ m k
  clear m k
  unfold Machine.draftAfter
  try dsimp only
  repeat' first
    | with_reducible first | exact Only.refl | fail_if_no_progress refine Only.atServe (by decide) ?_
    | split

theorem decideEntry_only (a1) {gs : List Group} {s t : State} (m : [.log, .serve, .link, .out] ⊆ gs) (k : Only gs s t) :
    Only gs s (Machine.decideEntry a1 t) := by
  refine Only.after (hs := [.log, .serve, .link, .out]) ?_ m k
  clear m k
  unfold Machine.decideEntry
  try dsimp only
  repeat' first
    | with_reducible first
      | exact Only.refl
      | refine setReq_only _ _ (by decide) ?_
      | refine logUe_only _ _ _ _ _ (by decide) ?_
      | refine draftAfter_only _ _ _ _ (by decide) ?_
      | fail_if_no_progress refine Only.atServe (by decide) ?_
    | split

theorem execDraftLoad_next (a1) (t : State) :
    ∃ u, Machine.execDraftLoad a1 t = .next u ∧ Only [.store, .mbx, .log, .mem, .mmu, .serve, .link, .out, .freeCtr, .bytes] t u := by
  refine ⟨_, rfl, ?_⟩
  try dsimp only
  repeat' first
    | with_reducible first
      | exact Only.refl
      | refine commandIf_only _ _ _ _ _ (fun _ _ => ?_) (by decide) ?_
      | refine dvaBytes_only _ _ _ (by decide) ?_
      | refine decideOn_only _ _ _ (fun _ => ?_) (by decide) ?_
      | refine dropDraft_only _ (by decide) ?_
      | refine steward_only _ _ _ _ _ _ (by decide) ?_
      | refine reply_only _ _ (by decide) ?_
      | refine pokeFrames_only _ _ (by decide) ?_
      | refine markFrames_only _ _ (by decide) ?_
      | refine setAwait_only _ _ (by decide) ?_
      | refine replyAccepted_only _ (by decide) ?_
      | refine setShare_only _ (by decide) ?_
      | fail_if_no_progress refine Only.atServe (by decide) ?_
    | split

theorem execDraftUnload_next (a1) (t : State) :
    ∃ u, Machine.execDraftUnload a1 t = .next u ∧ Only [.store, .mbx, .log, .mem, .serve, .link, .out] t u := by
  refine ⟨_, rfl, ?_⟩
  try dsimp only
  repeat' with_reducible first
    | exact Only.refl
    | refine commandIf_only _ _ _ _ _ (fun _ _ => ?_) (by decide) ?_
    | refine replyDone_only _ _ _ (by decide) ?_
    | refine setShare_only _ (by decide) ?_
    | refine dropDraft_only _ (by decide) ?_

theorem execDraftLoaded_next (a1) (t : State) :
    ∃ u, Machine.execDraftLoaded a1 t = .next u ∧ Only [.mbx, .log, .mem, .serve, .link, .out] t u := by
  refine ⟨_, rfl, ?_⟩
  try dsimp only
  repeat' first
    | with_reducible first
      | exact Only.refl
      | refine logInfo_only _ _ _ _ (by decide) ?_
      | refine removeEntries_only _ (by decide) ?_
      | refine replyEach_only _ _ (by decide) ?_
      | fail_if_no_progress refine Only.atServe (by decide) ?_
    | split

theorem execDraftRound_next (a1) (a2) (t : State) :
    ∃ u, Machine.execDraftRound a1 a2 t = .next u ∧ Only [.log, .mem, .serve, .link, .out, .bytes] t u := by
  refine ⟨_, rfl, ?_⟩
  try dsimp only
  repeat' first
    | with_reducible first
      | exact Only.refl
      | refine modDraft_only _ _ (by decide) ?_
      | refine clearProposals_only _ (by decide) ?_
      | refine logUe_only _ _ _ _ _ (by decide) ?_
      | refine roundEach_only _ _ (by decide) ?_
    | split

theorem execLogitPacket_next (a1) (a2) (a3) (a4) (t : State) :
    ∃ u, Machine.execLogitPacket a1 a2 a3 a4 t = .next u ∧ Only [.log, .serve, .link, .out] t u := by
  refine ⟨_, rfl, ?_⟩
  try dsimp only
  repeat' first
    | with_reducible first
      | exact Only.refl
      | refine logInfo_only _ _ _ _ (by decide) ?_
      | refine decideEntry_only _ (by decide) ?_
      | fail_if_no_progress refine Only.atServe (by decide) ?_
    | split

end Sys2Proof.Laws
end

