-- ==== Sys2Proof/Laws/Join.lean ====
section
/-!
SUPPORT. Which groups of state each operation of Machine/Join.lean changes; it keeps every other group and the forms of the
memory and of the event ring.
-/
namespace Sys2Proof.Laws

open Sys2Proof.Machine

theorem sendOn_only (a1) (a2) {gs : List Group} {s t : State} (m : [.out] ⊆ gs) (k : Only gs s t) :
    Only gs s (Machine.sendOn a1 a2 t) := by
  refine Only.after (hs := [.out]) ?_ m k
  clear m k
  induction a2 generalizing a1 t with
  | nil =>
    unfold Machine.sendOn
    try dsimp only
    repeat' with_reducible exact Only.refl
  | cons x l ih =>
    unfold Machine.sendOn
    try dsimp only
    repeat' with_reducible first
        | exact Only.refl
        | refine Only.trans ?_ (ih ..)
        | refine send_only _ (by decide) ?_

theorem sendJoins_only {gs : List Group} {s t : State} (m : [.out] ⊆ gs) (k : Only gs s t) :
    Only gs s (Machine.sendJoins t) := by
  refine Only.after (hs := [.out]) ?_ m k
  clear m k
  unfold Machine.sendJoins
  try dsimp only
  repeat' with_reducible first | exact Only.refl | refine sendOn_only _ _ (by decide) ?_

theorem relayJoin_only (a1) (a2) (a3) (a4) (a5) (a6) {gs : List Group} {s t : State} (m : [.start, .out] ⊆ gs) (k : Only gs s t) :
    Only gs s (Machine.relayJoin a1 a2 a3 a4 a5 a6 t) := by
  refine Only.after (hs := [.start, .out]) ?_ m k
  clear m k
  unfold Machine.relayJoin
  try dsimp only
  repeat' first
    | with_reducible first
      | exact Only.refl
      | refine sendOn_only _ _ (by decide) ?_
      | fail_if_no_progress refine Only.atStart (by decide) ?_
    | split

theorem noteJoin_only (a1) (a2) (a3) (a4) {gs : List Group} {s t : State} (m : [.aon, .start, .log, .units, .link, .out] ⊆ gs) (k : Only gs s t) :
    Only gs s (Machine.noteJoin a1 a2 a3 a4 t) := by
  refine Only.after (hs := [.aon, .start, .log, .units, .link, .out]) ?_ m k
  clear m k
  unfold Machine.noteJoin
  try dsimp only
  repeat' first
    | with_reducible first | exact Only.refl | refine peerReturns_only _ (by decide) ?_
    | with_reducible fail_if_no_progress refine Only.atAonStart (by decide) (by decide) ?_
    | split

theorem doneWatch_only {gs : List Group} {s t : State} (m : [.start] ⊆ gs) (k : Only gs s t) :
    Only gs s (Machine.doneWatch t) := by
  refine Only.after (hs := [.start]) ?_ m k
  clear m k
  unfold Machine.doneWatch
  try dsimp only
  repeat' first
    | with_reducible first | exact Only.refl | fail_if_no_progress refine Only.atStart (by decide) ?_
    | split

theorem firstStep_only {gs : List Group} {s t : State} (m : [.serve] ⊆ gs) (k : Only gs s t) :
    Only gs s (Machine.firstStep t) := by
  refine Only.after (hs := [.serve]) ?_ m k
  clear m k
  unfold Machine.firstStep
  try dsimp only
  repeat' with_reducible first | exact Only.refl | fail_if_no_progress refine Only.atServe (by decide) ?_

theorem enterServe_only {gs : List Group} {s t : State} (m : [.aon, .start, .log, .serve, .link, .out] ⊆ gs) (k : Only gs s t) :
    Only gs s (Machine.enterServe t) := by
  refine Only.after (hs := [.aon, .start, .log, .serve, .link, .out]) ?_ m k
  clear m k
  unfold Machine.enterServe
  try dsimp only
  repeat' with_reducible first
    | exact Only.refl
    | refine firstStep_only (by decide) ?_
    | refine enterPhase_only _ (by decide) ?_
    | refine phaseExit_only _ (by decide) ?_
    | refine leaveHold_only (by decide) ?_
    | refine sendJoins_only (by decide) ?_
    | refine logInfo_only _ _ _ _ (by decide) ?_
    | fail_if_no_progress refine Only.atStart (by decide) ?_

theorem joinRecheck_only {gs : List Group} {s t : State} (m : [.aon, .start, .log, .serve, .link, .out] ⊆ gs) (k : Only gs s t) :
    Only gs s (Machine.joinRecheck t) := by
  refine Only.after (hs := [.aon, .start, .log, .serve, .link, .out]) ?_ m k
  clear m k
  unfold Machine.joinRecheck
  try dsimp only
  repeat' first
    | with_reducible first
      | exact Only.refl
      | refine enterHold_only _ (by decide) ?_
      | refine enterServe_only (by decide) ?_
    | split

theorem enterJoin_only {gs : List Group} {s t : State} (m : [.aon, .pins, .start, .store, .log, .vane, .serve, .link, .out] ⊆ gs) (k : Only gs s t) :
    Only gs s (Machine.enterJoin t) := by
  refine Only.after (hs := [.aon, .pins, .start, .store, .log, .vane, .serve, .link, .out]) ?_ m k
  clear m k
  unfold Machine.enterJoin
  try dsimp only
  repeat' first
    | with_reducible first
      | exact Only.refl
      | refine setFailCnt_only _ (by decide) ?_
      | refine enterPhase_only _ (by decide) ?_
      | refine phaseExit_only _ (by decide) ?_
      | refine sendJoins_only (by decide) ?_
      | refine joinRecheck_only (by decide) ?_
      | refine doneWatch_only (by decide) ?_
    | with_reducible fail_if_no_progress refine Only.atAonPinsVane (by decide) (by decide) (by decide) ?_
    | split

end Sys2Proof.Laws
end

