-- ==== Sys2Proof/Laws/VaneOps.lean ====
section
/-!
SUPPORT. Which groups of state each operation of Machine/VaneOps.lean changes; it keeps every other group and the forms of the
memory and of the event ring.
-/
namespace Sys2Proof.Laws

open Sys2Proof.Machine

theorem beginLoad_only {gs : List Group} {s t : State} (m : [.aon, .start, .vane] ⊆ gs) (k : Only gs s t) :
    Only gs s (Machine.beginLoad t) := by
  refine Only.after (hs := [.aon, .start, .vane]) ?_ m k
  clear m k
  unfold Machine.beginLoad
  try dsimp only
  repeat' first
    | with_reducible first | exact Only.refl | refine leaveHold_only (by decide) ?_
    | with_reducible fail_if_no_progress refine Only.atAonStartVane (by decide) (by decide) (by decide) ?_
    | split

theorem vaneLoadFail_only (a1) {gs : List Group} {s t : State} (m : [.aon, .pins, .clk, .pwr, .start, .store, .mbx, .log, .vane, .net, .coll, .lull, .bond, .mem, .mmu, .dma, .serve, .sealed, .link, .out, .freeCtr, .bytes] ⊆ gs) (k : Only gs s t) :
    Only gs s (Machine.vaneLoadFail a1 t) := by
  refine Only.after (hs := [.aon, .pins, .clk, .pwr, .start, .store, .mbx, .log, .vane, .net, .coll, .lull, .bond, .mem, .mmu, .dma, .serve, .sealed, .link, .out, .freeCtr, .bytes]) ?_ m k
  clear m k
  unfold Machine.vaneLoadFail
  try dsimp only
  repeat' first
    | with_reducible first
      | exact Only.refl
      | refine logUe_only _ _ _ _ _ (by decide) ?_
      | refine failStart_only _ (by decide) ?_
      | fail_if_no_progress refine Only.atVane (by decide) ?_
    | split

theorem publishTray_only {gs : List Group} {s t : State} (m : [.aon] ⊆ gs) (k : Only gs s t) :
    Only gs s (Machine.publishTray t) := by
  refine Only.after (hs := [.aon]) ?_ m k
  clear m k
  unfold Machine.publishTray
  try dsimp only
  repeat' first
    | with_reducible first | exact Only.refl | fail_if_no_progress refine Only.atAon (by decide) ?_
    | split

theorem startSend_only (a1) {gs : List Group} {s t : State} (m : [.vane, .out] ⊆ gs) (k : Only gs s t) :
    Only gs s (Machine.startSend a1 t) := by
  refine Only.after (hs := [.vane, .out]) ?_ m k
  clear m k
  unfold Machine.startSend
  try dsimp only
  repeat' with_reducible first
    | exact Only.refl
    | refine send_only _ (by decide) ?_
    | fail_if_no_progress refine Only.atVane (by decide) ?_

end Sys2Proof.Laws
end

