-- ==== Sys2Proof/Laws/Vane.lean ====
section
/-!
SUPPORT. Which groups of state each operation of Machine/Vane.lean changes; it keeps every other group and the forms of the
memory and of the event ring.
-/
namespace Sys2Proof.Laws

open Sys2Proof.Machine

theorem sendStreamReq_only {gs : List Group} {s t : State} (m : [.vane, .out] ⊆ gs) (k : Only gs s t) :
    Only gs s (Machine.sendStreamReq t) := by
  refine Only.after (hs := [.vane, .out]) ?_ m k
  clear m k
  unfold Machine.sendStreamReq
  try dsimp only
  repeat' with_reducible first
    | exact Only.refl
    | refine sendOn_only _ _ (by decide) ?_
    | fail_if_no_progress refine Only.atVane (by decide) ?_

theorem enterVane_only {gs : List Group} {s t : State} (m : [.aon, .pins, .clk, .pwr, .start, .store, .mbx, .log, .vane, .net, .coll, .lull, .bond, .mem, .mmu, .dma, .serve, .sealed, .link, .out, .freeCtr, .bytes] ⊆ gs) (k : Only gs s t) :
    Only gs s (Machine.enterVane t) := by
  refine Only.after (hs := [.aon, .pins, .clk, .pwr, .start, .store, .mbx, .log, .vane, .net, .coll, .lull, .bond, .mem, .mmu, .dma, .serve, .sealed, .link, .out, .freeCtr, .bytes]) ?_ m k
  clear m k
  unfold Machine.enterVane
  try dsimp only
  repeat' first
    | with_reducible first
      | exact Only.refl
      | refine enterJoin_only (by decide) ?_
      | refine enterPhase_only _ (by decide) ?_
      | refine beginLoad_only (by decide) ?_
      | refine failStart_only _ (by decide) ?_
      | refine sendStreamReq_only (by decide) ?_
      | refine enterHold_only _ (by decide) ?_
      | fail_if_no_progress refine Only.atVane (by decide) ?_
    | split

theorem chainOut_only (a1) (a2) {gs : List Group} {s t : State} (m : [.out] ⊆ gs) (k : Only gs s t) :
    Only gs s (Machine.chainOut a1 a2 t) := by
  refine Only.after (hs := [.out]) ?_ m k
  clear m k
  unfold Machine.chainOut
  try dsimp only
  repeat' with_reducible first | exact Only.refl | refine send_only _ (by decide) ?_

theorem captureRecord_only (a1) {gs : List Group} {s t : State} (m : [.log, .link, .out] ⊆ gs) (k : Only gs s t) :
    Only gs s (Machine.captureRecord a1 t) := by
  refine Only.after (hs := [.log, .link, .out]) ?_ m k
  clear m k
  unfold Machine.captureRecord
  try dsimp only
  repeat' first
    | with_reducible first
      | exact Only.refl
      | refine logPair_only _ _ _ _ _ (by decide) ?_
      | refine logUe_only _ _ _ _ _ (by decide) ?_
    | split

theorem captureFail_only (a1) {gs : List Group} {s t : State} (m : [.aon, .pins, .clk, .pwr, .start, .store, .mbx, .log, .vane, .net, .coll, .lull, .bond, .mem, .mmu, .dma, .serve, .sealed, .link, .out, .freeCtr, .bytes] ⊆ gs) (k : Only gs s t) :
    Only gs s (Machine.captureFail a1 t) := by
  refine Only.after (hs := [.aon, .pins, .clk, .pwr, .start, .store, .mbx, .log, .vane, .net, .coll, .lull, .bond, .mem, .mmu, .dma, .serve, .sealed, .link, .out, .freeCtr, .bytes]) ?_ m k
  clear m k
  unfold Machine.captureFail
  try dsimp only
  repeat' first
    | with_reducible first
      | exact Only.refl
      | refine captureRecord_only _ (by decide) ?_
      | refine failStart_only _ (by decide) ?_
      | fail_if_no_progress refine Only.atVane (by decide) ?_
    | with_reducible fail_if_no_progress refine Only.atPinsVane (by decide) (by decide) ?_
    | split

theorem publish_only {gs : List Group} {s t : State} (m : [.aon, .pins, .clk, .pwr, .start, .store, .mbx, .log, .units, .vane, .net, .coll, .lull, .bond, .mem, .mmu, .dma, .serve, .sealed, .link, .out, .freeCtr, .bytes] ⊆ gs) (k : Only gs s t) :
    Only gs s (Machine.publish t) := by
  refine Only.after (hs := [.aon, .pins, .clk, .pwr, .start, .store, .mbx, .log, .units, .vane, .net, .coll, .lull, .bond, .mem, .mmu, .dma, .serve, .sealed, .link, .out, .freeCtr, .bytes]) ?_ m k
  clear m k
  unfold Machine.publish
  try dsimp only
  repeat' first
    | with_reducible first
      | exact Only.refl
      | refine publishTray_only (by decide) ?_
      | refine trayPublished_only (by decide) ?_
    | split

theorem capturePass_only (a1) {gs : List Group} {s t : State} (m : [.aon, .pins, .start, .vane] ⊆ gs) (k : Only gs s t) :
    Only gs s (Machine.capturePass a1 t) := by
  refine Only.after (hs := [.aon, .pins, .start, .vane]) ?_ m k
  clear m k
  unfold Machine.capturePass
  try dsimp only
  repeat' first
    | with_reducible first | exact Only.refl | refine beginLoad_only (by decide) ?_
    | with_reducible fail_if_no_progress refine Only.atPinsVane (by decide) (by decide) ?_
    | split

theorem captureTruncated_only {gs : List Group} {s t : State} (m : [.aon, .log, .vane, .link, .out] ⊆ gs) (k : Only gs s t) :
    Only gs s (Machine.captureTruncated t) := by
  refine Only.after (hs := [.aon, .log, .vane, .link, .out]) ?_ m k
  clear m k
  unfold Machine.captureTruncated
  try dsimp only
  repeat' first
    | with_reducible first | exact Only.refl | refine logInfo_only _ _ _ _ (by decide) ?_
    | with_reducible fail_if_no_progress refine Only.atAonVane (by decide) (by decide) ?_

theorem discardSection_only (a1) (a2) (a3) {gs : List Group} {s t : State} (m : [.aon, .pins, .clk, .pwr, .start, .store, .mbx, .log, .units, .vane, .net, .coll, .lull, .bond, .mem, .mmu, .dma, .serve, .sealed, .link, .out, .freeCtr, .bytes] ⊆ gs) (k : Only gs s t) :
    Only gs s (Machine.discardSection a1 a2 a3 t) := by
  refine Only.after (hs := [.aon, .pins, .clk, .pwr, .start, .store, .mbx, .log, .units, .vane, .net, .coll, .lull, .bond, .mem, .mmu, .dma, .serve, .sealed, .link, .out, .freeCtr, .bytes]) ?_ m k
  clear m k
  unfold Machine.discardSection
  try dsimp only
  repeat' first
    | with_reducible first
      | exact Only.refl
      | refine logInfo_only _ _ _ _ (by decide) ?_
      | refine publish_only (by decide) ?_
      | refine captureRecord_only _ (by decide) ?_
      | refine captureTruncated_only (by decide) ?_
    | split

theorem loadPass_only (a1) {gs : List Group} {s t : State} (m : [.aon, .pins, .start, .store, .log, .vane, .serve, .link, .out] ⊆ gs) (k : Only gs s t) :
    Only gs s (Machine.loadPass a1 t) := by
  refine Only.after (hs := [.aon, .pins, .start, .store, .log, .vane, .serve, .link, .out]) ?_ m k
  clear m k
  unfold Machine.loadPass
  try dsimp only
  repeat' first
    | with_reducible first
      | exact Only.refl
      | refine logInfo_only _ _ _ _ (by decide) ?_
      | refine enterJoin_only (by decide) ?_
      | refine phaseExit_only _ (by decide) ?_
    | with_reducible fail_if_no_progress refine Only.atPinsVane (by decide) (by decide) ?_
    | split

theorem afterOutbound_only (a1) (a2) {gs : List Group} {s t : State} (m : [.vane, .freeCtr] ⊆ gs) (k : Only gs s t) :
    Only gs s (Machine.afterOutbound a1 a2 t) := by
  refine Only.after (hs := [.vane, .freeCtr]) ?_ m k
  clear m k
  unfold Machine.afterOutbound
  try dsimp only
  repeat' first
    | with_reducible first
      | exact Only.refl
      | refine isolate_only _ _ (by decide) ?_
      | refine setRegion_only _ _ (by decide) ?_
    | split

theorem readsLate_only (a1) {gs : List Group} {s t : State} (m : [.vane] ⊆ gs) (k : Only gs s t) :
    Only gs s (Machine.readsLate a1 t) := by
  refine Only.after (hs := [.vane]) ?_ m k
  clear m k
  unfold Machine.readsLate
  exact Only.atVane (by decide) Only.refl

theorem discardWaiting_only (a1) {gs : List Group} {s t : State} (m : [.mbx, .log, .vane, .net, .link, .out, .freeCtr] ⊆ gs) (k : Only gs s t) :
    Only gs s (Machine.discardWaiting a1 t) := by
  refine Only.after (hs := [.mbx, .log, .vane, .net, .link, .out, .freeCtr]) ?_ m k
  clear m k
  unfold Machine.discardWaiting
  try dsimp only
  repeat' first
    | with_reducible first | exact Only.refl | refine discardAll_only _ (by decide) ?_
    | with_reducible fail_if_no_progress refine Only.atVaneNet (by decide) (by decide) ?_

theorem spFrames_only (a1) (a2) (a3) (a4) (a5) {gs : List Group} {s t : State} (m : [.vane] ⊆ gs) (k : Only gs s t) :
    Only gs s (Machine.spFrames a1 a2 a3 a4 a5 t) := by
  refine Only.after (hs := [.vane]) ?_ m k
  clear m k
  unfold Machine.spFrames
  try dsimp only
  repeat' first
    | with_reducible first
      | exact Only.refl
      | refine spAnswer_only _ _ (by decide) ?_
      | refine setRegion_only _ _ (by decide) ?_
      | fail_if_no_progress refine Only.atVane (by decide) ?_
    | split

theorem beginDisable_only (a1) {gs : List Group} {s t : State} (m : [.vane] ⊆ gs) (k : Only gs s t) :
    Only gs s (Machine.beginDisable a1 t) := by
  refine Only.after (hs := [.vane]) ?_ m k
  clear m k
  unfold Machine.beginDisable
  try dsimp only
  repeat' first
    | with_reducible first | exact Only.refl | fail_if_no_progress refine Only.atVane (by decide) ?_
    | split

theorem execTrayHeader_next (a1) (t : State) :
    ∃ u, Machine.execTrayHeader a1 t = .next u ∧ Only [.aon, .vane, .out] t u := by
  refine ⟨_, rfl, ?_⟩
  try dsimp only
  repeat' first
    | with_reducible first | exact Only.refl | refine chainOut_only _ _ (by decide) ?_
    | with_reducible fail_if_no_progress refine Only.atAonVane (by decide) (by decide) ?_
    | split

theorem execSectionHeader_next (a1) (t : State) :
    ∃ u, Machine.execSectionHeader a1 t = .next u ∧ Only [.vane, .out] t u := by
  refine ⟨_, rfl, ?_⟩
  try dsimp only
  repeat' first
    | with_reducible first
      | exact Only.refl
      | refine chainOut_only _ _ (by decide) ?_
      | fail_if_no_progress refine Only.atVane (by decide) ?_
    | split

theorem execSectionEnd_next (a1) (t : State) :
    ∃ u, Machine.execSectionEnd a1 t = .next u ∧ Only [.aon, .pins, .clk, .pwr, .start, .store, .mbx, .log, .units, .vane, .net, .coll, .lull, .bond, .mem, .mmu, .dma, .serve, .sealed, .link, .out, .freeCtr, .bytes] t u := by
  refine ⟨_, rfl, ?_⟩
  try dsimp only
  repeat' first
    | with_reducible first
      | exact Only.refl
      | refine chainOut_only _ _ (by decide) ?_
      | refine publish_only (by decide) ?_
      | refine discardSection_only _ _ _ (by decide) ?_
      | refine captureTruncated_only (by decide) ?_
      | refine captureFail_only _ (by decide) ?_
      | refine capturePass_only _ (by decide) ?_
      | fail_if_no_progress refine Only.atVane (by decide) ?_
    | split

theorem execTrailer_next (a1) (t : State) :
    ∃ u, Machine.execTrailer a1 t = .next u ∧ Only [.aon, .pins, .clk, .pwr, .start, .store, .mbx, .log, .units, .vane, .net, .coll, .lull, .bond, .mem, .mmu, .dma, .serve, .sealed, .link, .out, .freeCtr, .bytes] t u := by
  refine ⟨_, rfl, ?_⟩
  try dsimp only
  repeat' first
    | with_reducible first
      | exact Only.refl
      | refine chainOut_only _ _ (by decide) ?_
      | refine publish_only (by decide) ?_
      | refine logInfo_only _ _ _ _ (by decide) ?_
      | fail_if_no_progress refine Only.atVane (by decide) ?_
    | split

theorem execCclkStopTimeout_next (t : State) :
    ∃ u, Machine.execCclkStopTimeout t = .next u ∧ Only [.aon, .log, .vane, .link, .out] t u := by
  refine ⟨_, rfl, ?_⟩
  try dsimp only
  repeat' first
    | with_reducible first
      | exact Only.refl
      | refine captureTruncated_only (by decide) ?_
      | fail_if_no_progress refine Only.atVane (by decide) ?_
    | with_reducible fail_if_no_progress refine Only.atAonVane (by decide) (by decide) ?_
    | split

theorem execVaneLoadDone_next (t : State) :
    ∃ u, Machine.execVaneLoadDone t = .next u ∧ Only [.aon, .pins, .clk, .pwr, .start, .store, .mbx, .log, .vane, .net, .coll, .lull, .bond, .mem, .mmu, .dma, .serve, .sealed, .link, .out, .freeCtr, .bytes] t u := by
  refine ⟨_, rfl, ?_⟩
  try dsimp only
  repeat' first
    | with_reducible first
      | exact Only.refl
      | refine loadPass_only _ (by decide) ?_
      | refine vaneLoadFail_only _ (by decide) ?_
    | split

theorem execVanePllLockTimeout_next (t : State) :
    ∃ u, Machine.execVanePllLockTimeout t = .next u ∧ Only [.aon, .pins, .clk, .pwr, .start, .store, .mbx, .log, .vane, .net, .coll, .lull, .bond, .mem, .mmu, .dma, .serve, .sealed, .link, .out, .freeCtr, .bytes] t u := by
  refine ⟨_, rfl, ?_⟩
  try dsimp only
  repeat' first
    | with_reducible first | exact Only.refl | refine vaneLoadFail_only _ (by decide) ?_
    | split

theorem execStreamSent_next (t : State) :
    ∃ u, Machine.execStreamSent t = .next u ∧ Only [.mbx, .log, .vane, .link, .out] t u := by
  refine ⟨_, rfl, ?_⟩
  try dsimp only
  repeat' first
    | with_reducible first
      | exact Only.refl
      | refine completeAwait_only _ _ (by decide) ?_
      | refine logInfo_only _ _ _ _ (by decide) ?_
      | fail_if_no_progress refine Only.atVane (by decide) ?_
    | split

theorem execStreamErrResend_next (t : State) :
    ∃ u, Machine.execStreamErrResend t = .next u ∧ Only [.vane, .out] t u := by
  refine ⟨_, rfl, ?_⟩
  try dsimp only
  repeat' first
    | with_reducible first
      | exact Only.refl
      | refine startSend_only _ (by decide) ?_
      | fail_if_no_progress refine Only.atVane (by decide) ?_
    | split

theorem execStreamReq_next (a1) (a2) (a3) (t : State) :
    ∃ u, Machine.execStreamReq a1 a2 a3 t = .next u ∧ Only [.vane, .out] t u := by
  refine ⟨_, rfl, ?_⟩
  try dsimp only
  repeat' first
    | with_reducible first
      | exact Only.refl
      | refine sendOn_only _ _ (by decide) ?_
      | refine startSend_only _ (by decide) ?_
      | fail_if_no_progress refine Only.atVane (by decide) ?_
    | split

theorem execStreamReqTimer_next (t : State) :
    ∃ u, Machine.execStreamReqTimer t = .next u ∧ Only [.vane, .out] t u := by
  refine ⟨_, rfl, ?_⟩
  try dsimp only
  repeat' first
    | with_reducible first | exact Only.refl | refine sendStreamReq_only (by decide) ?_
    | split

theorem execSpOpen_next (a1) (a2) (t : State) :
    ∃ u, Machine.execSpOpen a1 a2 t = .next u ∧ Only [.vane, .freeCtr] t u := by
  refine ⟨_, rfl, ?_⟩
  try dsimp only
  repeat' first
    | with_reducible first
      | exact Only.refl
      | refine spAnswer_only _ _ (by decide) ?_
      | refine isolate_only _ _ (by decide) ?_
      | refine setRegion_only _ _ (by decide) ?_
      | refine afterOutbound_only _ _ (by decide) ?_
    | split

theorem execSpOutboundTimeout_next (a1) (a2) (t : State) :
    ∃ u, Machine.execSpOutboundTimeout a1 a2 t = .next u ∧ Only [.mbx, .vane, .net, .freeCtr] t u := by
  refine ⟨_, rfl, ?_⟩
  try dsimp only
  repeat' first
    | with_reducible first
      | exact Only.refl
      | refine afterOutbound_only _ _ (by decide) ?_
      | refine portQuiet_only _ (by decide) ?_
      | fail_if_no_progress refine Only.atVane (by decide) ?_
    | split

theorem execSpResponseWaitEnd_next (a1) (t : State) :
    ∃ u, Machine.execSpResponseWaitEnd a1 t = .next u ∧ Only [.mbx, .vane, .net, .freeCtr] t u := by
  refine ⟨_, rfl, ?_⟩
  try dsimp only
  repeat' first
    | with_reducible first
      | exact Only.refl
      | refine isolate_only _ _ (by decide) ?_
      | refine portQuiet_only _ (by decide) ?_
      | refine readsLate_only _ (by decide) ?_
      | fail_if_no_progress refine Only.atVane (by decide) ?_
    | split

theorem execSpOpenLong_next (a1) (t : State) :
    ∃ u, Machine.execSpOpenLong a1 t = .next u ∧ Only [.mbx, .log, .vane, .net, .link, .out, .freeCtr] t u := by
  refine ⟨_, rfl, ?_⟩
  try dsimp only
  repeat' first
    | with_reducible first
      | exact Only.refl
      | refine discardWaiting_only _ (by decide) ?_
      | refine logUe_only _ _ _ _ _ (by decide) ?_
      | refine setRegion_only _ _ (by decide) ?_
    | split

theorem execSpWrite_next (a1) (a2) (a3) (t : State) :
    ∃ u, Machine.execSpWrite a1 a2 a3 t = .next u ∧ Only [.vane] t u := by
  refine ⟨_, rfl, ?_⟩
  try dsimp only
  repeat' first
    | with_reducible first | exact Only.refl | refine spFrames_only _ _ _ _ _ (by decide) ?_
    | split

theorem execSpFill_next (a1) (a2) (a3) (a4) (t : State) :
    ∃ u, Machine.execSpFill a1 a2 a3 a4 t = .next u ∧ Only [.vane] t u := by
  refine ⟨_, rfl, ?_⟩
  try dsimp only
  repeat' first
    | with_reducible first | exact Only.refl | refine spFrames_only _ _ _ _ _ (by decide) ?_
    | split

theorem execSpRead_next (a1) (t : State) :
    ∃ u, Machine.execSpRead a1 t = .next u ∧ Only [.vane] t u := by
  refine ⟨_, rfl, ?_⟩
  try dsimp only
  repeat' first
    | with_reducible first | exact Only.refl | refine spAnswer_only _ _ (by decide) ?_
    | split

theorem execSpClose_next (a1) (a2) (t : State) :
    ∃ u, Machine.execSpClose a1 a2 t = .next u ∧ Only [.mbx, .log, .vane, .net, .link, .out] t u := by
  refine ⟨_, rfl, ?_⟩
  try dsimp only
  repeat' first
    | with_reducible first
      | exact Only.refl
      | refine spAnswer_only _ _ (by decide) ?_
      | refine trySwitch_only (by decide) ?_
      | refine logUe_only _ _ _ _ _ (by decide) ?_
      | fail_if_no_progress refine Only.atVane (by decide) ?_
    | split

theorem execSpAbort_next (a1) (t : State) :
    ∃ u, Machine.execSpAbort a1 t = .next u ∧ Only [.vane] t u := by
  refine ⟨_, rfl, ?_⟩
  try dsimp only
  repeat' first
    | with_reducible first
      | exact Only.refl
      | refine spAnswer_only _ _ (by decide) ?_
      | fail_if_no_progress refine Only.atVane (by decide) ?_
    | split

theorem execSpStatus_next (t : State) :
    ∃ u, Machine.execSpStatus t = .next u ∧ Only [.vane] t u := by
  refine ⟨_, rfl, ?_⟩
  try dsimp only
  repeat' first
    | with_reducible first | exact Only.refl | fail_if_no_progress refine Only.atVane (by decide) ?_
    | split

theorem execVaneStatus_next (a1) (t : State) :
    ∃ u, Machine.execVaneStatus a1 t = .next u ∧ Only [.mbx] t u := by
  refine ⟨_, rfl, ?_⟩
  try dsimp only
  repeat' with_reducible first
    | exact Only.refl
    | refine command_only _ _ _ _ (fun _ _ => ?_) (by decide) ?_
    | refine replyDone_only _ _ _ (by decide) ?_

theorem execVaneStreamSend_next (a1) (t : State) :
    ∃ u, Machine.execVaneStreamSend a1 t = .next u ∧ Only [.mbx, .vane, .out] t u := by
  refine ⟨_, rfl, ?_⟩
  try dsimp only
  repeat' with_reducible first
    | exact Only.refl
    | refine command_only _ _ _ _ (fun _ _ => ?_) (by decide) ?_
    | refine setAwait_only _ _ (by decide) ?_
    | refine replyAccepted_only _ (by decide) ?_
    | refine startSend_only _ (by decide) ?_

theorem execVaneDisable_next (a1) (a2) (t : State) :
    ∃ u, Machine.execVaneDisable a1 a2 t = .next u ∧ Only [.mbx, .vane, .net] t u := by
  refine ⟨_, rfl, ?_⟩
  try dsimp only
  repeat' first
    | with_reducible first
      | exact Only.refl
      | refine command_only _ _ _ _ (fun _ _ => ?_) (by decide) ?_
      | refine replyDone_only _ _ _ (by decide) ?_
      | refine trySwitch_only (by decide) ?_
      | refine disableDone_only (by decide) ?_
      | refine beginDisable_only _ (by decide) ?_
      | refine setAwait_only _ _ (by decide) ?_
      | fail_if_no_progress refine Only.atVane (by decide) ?_
    | split

end Sys2Proof.Laws
end

