-- ==== Sys2Proof/Laws/Endpoints.lean ====
section
/-!
SUPPORT. Which groups of state each operation of Machine/Endpoints.lean changes; it keeps every other group and the forms of the
memory and of the event ring.
-/
namespace Sys2Proof.Laws

open Sys2Proof.Machine

theorem answerPacket_only (a1) (a2) (a3) {gs : List Group} {s t : State} (m : [.mbx, .log, .vane, .net, .link, .out, .freeCtr] ⊆ gs) (k : Only gs s t) :
    Only gs s (Machine.answerPacket a1 a2 a3 t) := by
  refine Only.after (hs := [.mbx, .log, .vane, .net, .link, .out, .freeCtr]) ?_ m k
  clear m k
  unfold Machine.answerPacket
  try dsimp only
  repeat' first
    | with_reducible first
      | exact Only.refl
      | refine toPort_only _ _ (by decide) ?_
      | refine send_only _ (by decide) ?_
      | refine vaneResponse_only _ _ _ _ (fun _ => ?_) (by decide) ?_
    | split

theorem combined_only (a1) {gs : List Group} {s t : State} (m : [.mbx, .log, .vane, .net, .link, .out, .freeCtr] ⊆ gs) (k : Only gs s t) :
    Only gs s (Machine.combined a1 t) := by
  refine Only.after (hs := [.mbx, .log, .vane, .net, .link, .out, .freeCtr]) ?_ m k
  clear m k
  unfold Machine.combined
  try dsimp only
  repeat' first
    | with_reducible first
      | exact Only.refl
      | refine toPort_only _ _ (by decide) ?_
      | refine send_only _ (by decide) ?_
      | refine logUe_only _ _ _ _ _ (by decide) ?_
    | split

theorem tally_only (a1) (a2) (a3) {gs : List Group} {s t : State} (m : [.mbx, .log, .vane, .net, .coll, .link, .out, .freeCtr] ⊆ gs) (k : Only gs s t) :
    Only gs s (Machine.tally a1 a2 a3 t) := by
  refine Only.after (hs := [.mbx, .log, .vane, .net, .coll, .link, .out, .freeCtr]) ?_ m k
  clear m k
  unfold Machine.tally
  try dsimp only
  repeat' first
    | with_reducible first
      | exact Only.refl
      | refine combined_only _ (by decide) ?_
      | fail_if_no_progress refine Only.atColl (by decide) ?_
    | split

theorem tallyCopy_only (a1) (a2) {gs : List Group} {s t : State} (m : [.mbx, .log, .vane, .net, .coll, .link, .out, .freeCtr] ⊆ gs) (k : Only gs s t) :
    Only gs s (Machine.tallyCopy a1 a2 t) := by
  refine Only.after (hs := [.mbx, .log, .vane, .net, .coll, .link, .out, .freeCtr]) ?_ m k
  clear m k
  unfold Machine.tallyCopy
  try dsimp only
  repeat' first
    | with_reducible first | exact Only.refl | refine tally_only _ _ _ (by decide) ?_
    | split

theorem tallyAnswer_only (a1) (a2) {gs : List Group} {s t : State} (m : [.mbx, .log, .vane, .net, .coll, .link, .out, .freeCtr] ⊆ gs) (k : Only gs s t) :
    Only gs s (Machine.tallyAnswer a1 a2 t) := by
  refine Only.after (hs := [.mbx, .log, .vane, .net, .coll, .link, .out, .freeCtr]) ?_ m k
  clear m k
  unfold Machine.tallyAnswer
  try dsimp only
  repeat' with_reducible first | exact Only.refl | refine tally_only _ _ _ (by decide) ?_

theorem refusePacket_only (a1) {gs : List Group} {s t : State} (m : [.mbx, .log, .vane, .net, .coll, .link, .out, .freeCtr] ⊆ gs) (k : Only gs s t) :
    Only gs s (Machine.refusePacket a1 t) := by
  refine Only.after (hs := [.mbx, .log, .vane, .net, .coll, .link, .out, .freeCtr]) ?_ m k
  clear m k
  unfold Machine.refusePacket
  try dsimp only
  repeat' first
    | with_reducible first
      | exact Only.refl
      | refine tallyCopy_only _ _ (by decide) ?_
      | refine answerPacket_only _ _ _ (by decide) ?_
    | split

theorem ackWrite_only (a1) {gs : List Group} {s t : State} (m : [.mbx, .log, .vane, .net, .coll, .link, .out, .freeCtr] ⊆ gs) (k : Only gs s t) :
    Only gs s (Machine.ackWrite a1 t) := by
  refine Only.after (hs := [.mbx, .log, .vane, .net, .coll, .link, .out, .freeCtr]) ?_ m k
  clear m k
  unfold Machine.ackWrite
  try dsimp only
  repeat' first
    | with_reducible first
      | exact Only.refl
      | refine tallyCopy_only _ _ (by decide) ?_
      | refine answerPacket_only _ _ _ (by decide) ?_
    | split

theorem partMismatch_only (a1) (a2) (a3) (a4) {gs : List Group} {s t : State} (m : [.mbx, .log, .vane, .net, .coll, .mmu, .link, .out, .freeCtr] ⊆ gs) (k : Only gs s t) :
    Only gs s (Machine.partMismatch a1 a2 a3 a4 t) := by
  refine Only.after (hs := [.mbx, .log, .vane, .net, .coll, .mmu, .link, .out, .freeCtr]) ?_ m k
  clear m k
  unfold Machine.partMismatch
  try dsimp only
  repeat' with_reducible first
    | exact Only.refl
    | refine refusePacket_only _ (by decide) ?_
    | refine logLimitedAt_only _ _ _ _ _ _ _ _ (by decide) ?_
    | refine sendMsix_only _ (by decide) ?_
    | refine pushFault_only _ _ (by decide) ?_

theorem memoryPacket_only (a1) (a2) (a3) (a4) {gs : List Group} {s t : State} (m : [.store, .mbx, .log, .vane, .net, .coll, .mem, .serve, .sealed, .link, .out, .freeCtr, .bytes] ⊆ gs) (k : Only gs s t) :
    Only gs s (Machine.memoryPacket a1 a2 a3 a4 t) := by
  refine Only.after (hs := [.store, .mbx, .log, .vane, .net, .coll, .mem, .serve, .sealed, .link, .out, .freeCtr, .bytes]) ?_ m k
  clear m k
  unfold Machine.memoryPacket
  try dsimp only
  repeat' first
    | with_reducible first
      | exact Only.refl
      | refine refusePacket_only _ (by decide) ?_
      | refine guardRecord_only _ (by decide) ?_
      | refine memRead_only _ _ (by decide) ?_
      | refine answerPacket_only _ _ _ (by decide) ?_
      | refine memWrite_only _ _ (by decide) ?_
      | refine ackWrite_only _ (by decide) ?_
    | split

theorem slicePacket_only (a1) (a2) (a3) (a4) {gs : List Group} {s t : State} (m : [.store, .mbx, .log, .vane, .net, .coll, .mem, .serve, .sealed, .link, .out, .freeCtr, .bytes] ⊆ gs) (k : Only gs s t) :
    Only gs s (Machine.slicePacket a1 a2 a3 a4 t) := by
  refine Only.after (hs := [.store, .mbx, .log, .vane, .net, .coll, .mem, .serve, .sealed, .link, .out, .freeCtr, .bytes]) ?_ m k
  clear m k
  unfold Machine.slicePacket
  try dsimp only
  repeat' first
    | with_reducible first
      | exact Only.refl
      | refine refusePacket_only _ (by decide) ?_
      | refine memoryPacket_only _ _ _ _ (by decide) ?_
    | split

theorem landRemote_only (a1) (a2) (a3) (a4) {gs : List Group} {s t : State} (m : [.store, .mbx, .log, .vane, .net, .coll, .mem, .mmu, .serve, .sealed, .link, .out, .freeCtr, .bytes] ⊆ gs) (k : Only gs s t) :
    Only gs s (Machine.landRemote a1 a2 a3 a4 t) := by
  refine Only.after (hs := [.store, .mbx, .log, .vane, .net, .coll, .mem, .mmu, .serve, .sealed, .link, .out, .freeCtr, .bytes]) ?_ m k
  clear m k
  unfold Machine.landRemote
  try dsimp only
  repeat' first
    | with_reducible first
      | exact Only.refl
      | refine translateAt_only _ _ (by decide) ?_
      | refine memoryPacket_only _ _ _ _ (by decide) ?_
      | refine refusePacket_only _ (by decide) ?_
      | refine mmuFault_only _ _ _ (by decide) ?_
    | split

theorem vanePacket_only (a1) (a2) {u : State} {gs : List Group} {s t : State} (m : [.mbx, .log, .vane, .net, .coll, .link, .out, .freeCtr] ⊆ gs)
    (k : Only gs s u) (h : Only gs s t) : Only gs s (Machine.vanePacket a1 a2 u t) := by
  have d : Only gs s (Machine.refusePacket a2 { t with vane := { t.vane with discarded := t.vane.discarded + galeFlits a2 } }) :=
    refusePacket_only _ (List.Subset.trans (by decide) m) (Only.atVane (Only.here m (by decide)) h)
  unfold Machine.vanePacket
  dsimp only
  repeat' first
    | exact d
    | with_reducible first
      | refine deliverTo_only _ _ (List.Subset.trans (by decide) m) h
      | refine vaneResponse_only _ _ _ _ (fun _ => deliverTo_only _ _ (List.Subset.trans (by decide) m) Only.refl) (List.Subset.trans (by decide) m) h
      | refine Only.atNet (Only.here m (by decide)) k
    | split

theorem acceptPacket_only (a1) (a2) (a3) (a4) (a5) {u : State} {gs : List Group} {s t : State}
    (m : [.store, .mbx, .log, .vane, .net, .coll, .mem, .mmu, .serve, .sealed, .link, .out, .freeCtr, .bytes] ⊆ gs)
    (k : Only gs s u) (h : Only gs s t) : Only gs s (Machine.acceptPacket a1 a2 a3 a4 a5 u t) := by
  unfold Machine.acceptPacket
  repeat' first
    | exact h
    | with_reducible first
      | refine slicePacket_only _ _ _ _ (List.Subset.trans (by decide) m) ?_
      | refine memoryPacket_only _ _ _ _ (List.Subset.trans (by decide) m) ?_
      | refine vanePacket_only _ _ (List.Subset.trans (by decide) m) k ?_
      | refine landRemote_only _ _ _ _ (List.Subset.trans (by decide) m) ?_
      | refine deliverTo_only _ _ (List.Subset.trans (by decide) m) ?_
    | split

theorem meetsFence_only (a1) (a2) {gs : List Group} {s t : State} (m : [.mbx, .log, .vane, .net, .coll, .link, .out, .freeCtr] ⊆ gs) (k : Only gs s t) :
    Only gs s (Machine.meetsFence a1 a2 t) := by
  refine Only.after (hs := [.mbx, .log, .vane, .net, .coll, .link, .out, .freeCtr]) ?_ m k
  clear m k
  unfold Machine.meetsFence
  try dsimp only
  repeat' first
    | with_reducible first
      | exact Only.refl
      | refine refusePacket_only _ (by decide) ?_
      | fail_if_no_progress refine Only.atVane (by decide) ?_
    | split

theorem poisonedPacket_only (a1) (a2) {gs : List Group} {s t : State} (m : [.mbx, .log, .vane, .net, .coll, .link, .out, .freeCtr] ⊆ gs)
    (k : Only gs s t) : Only gs s (Machine.poisonedPacket a1 a2 t) := by
  have h := netCount_only 9 a1 (gs := gs) (s := s) (List.Subset.trans (by decide) m) k
  unfold Machine.poisonedPacket
  split
  · exact tallyCopy_only _ _ (List.Subset.trans (by decide) m) h
  · exact h

theorem dropHeld_only (a1) (a2) {gs : List Group} {s t : State} (m : [.coll] ⊆ gs) (k : Only gs s t) :
    Only gs s (Machine.dropHeld a1 a2 t) := by
  refine Only.after (hs := [.coll]) ?_ m k
  clear m k
  induction a2 generalizing a1 t with
  | nil =>
    unfold Machine.dropHeld
    try dsimp only
    repeat' with_reducible exact Only.refl
  | cons x l ih =>
    unfold Machine.dropHeld
    try dsimp only
    repeat' with_reducible first
        | exact Only.refl
        | refine Only.trans ?_ (ih ..)
        | fail_if_no_progress refine Only.atColl (by decide) ?_

theorem mergeOut_only (a1) (a2) {gs : List Group} {s t : State} (m : [.net, .coll] ⊆ gs) (k : Only gs s t) :
    Only gs s (Machine.mergeOut a1 a2 t) := by
  refine Only.after (hs := [.net, .coll]) ?_ m k
  clear m k
  unfold Machine.mergeOut
  try dsimp only
  repeat' first
    | with_reducible first
      | exact Only.refl
      | refine launch_only _ _ (by decide) ?_
      | refine dropHeld_only _ _ (by decide) ?_
    | split

theorem staticMerge_only (a1) (a2) {gs : List Group} {s t : State} (m : [.net, .coll] ⊆ gs) (k : Only gs s t) :
    Only gs s (Machine.staticMerge a1 a2 t) := by
  refine Only.after (hs := [.net, .coll]) ?_ m k
  clear m k
  unfold Machine.staticMerge
  try dsimp only
  repeat' with_reducible first
    | exact Only.refl
    | refine mergeOut_only _ _ (by decide) ?_
    | fail_if_no_progress refine Only.atColl (by decide) ?_

theorem deliverOut_only (a1) {gs : List Group} {s t : State} (m : [.mbx, .log, .vane, .net, .coll, .link, .out, .freeCtr] ⊆ gs) (k : Only gs s t) :
    Only gs s (Machine.deliverOut a1 t) := by
  refine Only.after (hs := [.mbx, .log, .vane, .net, .coll, .link, .out, .freeCtr]) ?_ m k
  clear m k
  unfold Machine.deliverOut
  try dsimp only
  repeat' first
    | with_reducible first
      | exact Only.refl
      | refine refusePacket_only _ (by decide) ?_
      | refine tallyAnswer_only _ _ (by decide) ?_
      | refine toPort_only _ _ (by decide) ?_
    | split

theorem deliverHere_only (a1) (a2) (a3) (a4) (a5) {u : State} {gs : List Group} {s t : State}
    (m : [.store, .mbx, .log, .vane, .net, .coll, .mem, .mmu, .serve, .sealed, .link, .out, .freeCtr, .bytes] ⊆ gs)
    (k : Only gs s u) (h : Only gs s t) : Only gs s (Machine.deliverHere a1 a2 a3 a4 a5 u t) := by
  unfold Machine.deliverHere
  repeat' first
    | with_reducible first
      | refine partMismatch_only _ _ _ _ (List.Subset.trans (by decide) m) h
      | refine tallyAnswer_only _ _ (List.Subset.trans (by decide) m) h
      | refine acceptPacket_only _ _ _ _ _ (List.Subset.trans (by decide) m) k h
    | split

theorem execFlitDelivery_next (a1) (a2) (a3) (a4) (t : State) :
    ∃ u, Machine.execFlitDelivery a1 a2 a3 a4 t = .next u ∧ Only [.store, .mbx, .log, .vane, .net, .coll, .mem, .mmu, .serve, .sealed, .link, .out, .freeCtr, .bytes] t u := by
  refine ⟨_, rfl, ?_⟩
  try dsimp only
  repeat' first
    | with_reducible first
      | exact Only.refl
      | refine refusePacket_only _ (by decide) ?_
      | refine deliverOut_only _ (by decide) ?_
      | refine staticMerge_only _ _ (by decide) ?_
      | refine meetsFence_only _ _ (by decide) ?_
      | refine poisonedPacket_only _ _ (by decide) ?_
      | refine deliverHere_only _ _ _ _ _ (by decide) ?_ ?_
      | fail_if_no_progress refine Only.atNet (by decide) ?_
    | split

end Sys2Proof.Laws
end

