-- ==== Sys2Proof/Laws/LinkCmds.lean ====
section
/-!
SUPPORT. Which groups of state each operation of Machine/LinkCmds.lean changes; it keeps every other group and the forms of the
memory and of the event ring.
-/
namespace Sys2Proof.Laws

open Sys2Proof.Machine

theorem clearPorts_only (a1) (a2) {gs : List Group} {s t : State} (m : [.link] ⊆ gs) (k : Only gs s t) :
    Only gs s (Machine.clearPorts a1 a2 t) := by
  refine Only.after (hs := [.link]) ?_ m k
  clear m k
  induction a2 generalizing a1 t with
  | nil =>
    unfold Machine.clearPorts
    try dsimp only
    repeat' with_reducible exact Only.refl
  | cons x l ih =>
    unfold Machine.clearPorts
    try dsimp only
    repeat' first
        | with_reducible first
          | exact Only.refl
          | refine Only.trans ?_ (ih ..)
          | refine modGport_only _ _ (by decide) ?_
        | split

theorem writeGlkClear_only (a1) (a2) {gs : List Group} {s t : State} (m : [.aon, .link] ⊆ gs) (k : Only gs s t) :
    Only gs s (Machine.writeGlkClear a1 a2 t) := by
  refine Only.after (hs := [.aon, .link]) ?_ m k
  clear m k
  unfold Machine.writeGlkClear
  try dsimp only
  repeat' first
    | with_reducible first
      | exact Only.refl
      | refine noteOffline_only (by decide) ?_
      | refine noteDeny_only (by decide) ?_
      | refine clearPorts_only _ _ (by decide) ?_
      | refine modCxl_only _ _ (by decide) ?_
      | fail_if_no_progress refine Only.atLink (by decide) ?_
    | split

theorem execGlkTxctrLoRead_next (a1) (t : State) :
    ∃ u, Machine.execGlkTxctrLoRead a1 t = .next u ∧ Only [.aon, .link, .out] t u := by
  refine ⟨_, rfl, ?_⟩
  try dsimp only
  repeat' first
    | with_reducible first
      | exact Only.refl
      | refine noteOffline_only (by decide) ?_
      | refine modGport_only _ _ (by decide) ?_
      | fail_if_no_progress refine Only.atOut (by decide) ?_
    | split

theorem execGlkClear_next (a1) (a2) (t : State) :
    ∃ u, Machine.execGlkClear a1 a2 t = .next u ∧ Only [.aon, .link] t u := by
  refine ⟨_, rfl, ?_⟩
  try dsimp only
  repeat' with_reducible first | exact Only.refl | refine writeGlkClear_only _ _ (by decide) ?_

theorem execLinkStatus_next (a1) (t : State) :
    ∃ u, Machine.execLinkStatus a1 t = .next u ∧ Only [.mbx, .freeCtr] t u := by
  refine ⟨_, rfl, ?_⟩
  try dsimp only
  repeat' with_reducible first
    | exact Only.refl
    | refine command_only _ _ _ _ (fun _ _ => ?_) (by decide) ?_
    | refine replyDone_only _ _ _ (by decide) ?_
    | fail_if_no_progress refine Only.atFreeCtr (by decide) ?_

theorem execLinkRetrain_next (a1) (t : State) :
    ∃ u, Machine.execLinkRetrain a1 t = .next u ∧ Only [.mbx, .log, .units, .net, .link, .out] t u := by
  refine ⟨_, rfl, ?_⟩
  try dsimp only
  repeat' first
    | with_reducible first
      | exact Only.refl
      | refine command_only _ _ _ _ (fun _ _ => ?_) (by decide) ?_
      | refine setAwait_only _ _ (by decide) ?_
      | refine leaveNext_only _ _ (by decide) ?_
      | refine modGport_only _ _ (by decide) ?_
      | refine startTraining_only _ (by decide) ?_
    | split

theorem execLinkRekey_next (a1) (t : State) :
    ∃ u, Machine.execLinkRekey a1 t = .next u ∧ Only [.mbx, .sealed, .link, .out, .freeCtr] t u := by
  refine ⟨_, rfl, ?_⟩
  try dsimp only
  repeat' with_reducible first
    | exact Only.refl
    | refine command_only _ _ _ _ (fun _ _ => ?_) (by decide) ?_
    | refine startRekey_only _ _ (by decide) ?_
    | refine setAwait_only _ _ (by decide) ?_

theorem execLinkOffline_next (a1) (t : State) :
    ∃ u, Machine.execLinkOffline a1 t = .next u ∧ Only [.pwr, .mbx, .log, .units, .vane, .net, .coll, .lull, .bond, .serve, .sealed, .link, .out, .freeCtr] t u := by
  refine ⟨_, rfl, ?_⟩
  try dsimp only
  repeat' first
    | with_reducible first
      | exact Only.refl
      | refine command_only _ _ _ _ (fun _ _ => ?_) (by decide) ?_
      | refine replyDone_only _ _ _ (by decide) ?_
      | refine setPortSt_only _ _ (by decide) ?_
      | refine rebuildRoutes_only (by decide) ?_
      | refine portOffline_only _ (by decide) ?_
      | refine setAwait_only _ _ (by decide) ?_
      | refine leaveNext_only _ _ (by decide) ?_
    | split

theorem execCxlStatus_next (a1) (t : State) :
    ∃ u, Machine.execCxlStatus a1 t = .next u ∧ Only [.mbx, .freeCtr] t u := by
  refine ⟨_, rfl, ?_⟩
  try dsimp only
  repeat' with_reducible first
    | exact Only.refl
    | refine command_only _ _ _ _ (fun _ _ => ?_) (by decide) ?_
    | refine replyDone_only _ _ _ (by decide) ?_
    | fail_if_no_progress refine Only.atFreeCtr (by decide) ?_

end Sys2Proof.Laws
end

