-- ==== Sys2Proof/Laws/Faults.lean ====
section
/-!
SUPPORT. Which groups of state each operation of Machine/Faults.lean changes; it keeps every other group and the forms of the
memory and of the event ring.
-/
namespace Sys2Proof.Laws

open Sys2Proof.Machine

theorem downPorts_only (a1) (a2) {gs : List Group} {s t : State} (m : [.pwr, .start, .mbx, .log, .units, .vane, .net, .coll, .lull, .bond, .serve, .sealed, .link, .out, .freeCtr] ⊆ gs) (k : Only gs s t) :
    Only gs s (Machine.downPorts a1 a2 t) := by
  refine Only.after (hs := [.pwr, .start, .mbx, .log, .units, .vane, .net, .coll, .lull, .bond, .serve, .sealed, .link, .out, .freeCtr]) ?_ m k
  clear m k
  induction a2 generalizing a1 t with
  | nil =>
    unfold Machine.downPorts
    try dsimp only
    repeat' with_reducible exact Only.refl
  | cons x l ih =>
    unfold Machine.downPorts
    try dsimp only
    repeat' with_reducible first
        | exact Only.refl
        | refine Only.trans ?_ (ih ..)
        | refine gustDown_only _ _ _ (by decide) ?_

theorem fenceRouter_only (a1) {gs : List Group} {s t : State} (m : [.pwr, .start, .mbx, .log, .units, .vane, .net, .coll, .lull, .bond, .serve, .sealed, .link, .out, .freeCtr] ⊆ gs) (k : Only gs s t) :
    Only gs s (Machine.fenceRouter a1 t) := by
  refine Only.after (hs := [.pwr, .start, .mbx, .log, .units, .vane, .net, .coll, .lull, .bond, .serve, .sealed, .link, .out, .freeCtr]) ?_ m k
  clear m k
  unfold Machine.fenceRouter
  try dsimp only
  repeat' with_reducible first
    | exact Only.refl
    | refine fenceUnit_only _ _ _ (by decide) ?_
    | refine fenceAll_only _ _ _ (by decide) ?_
    | refine disableVanes_only _ (by decide) ?_
    | refine downPorts_only _ _ (by decide) ?_

theorem fenceRouters_only (a1) {gs : List Group} {s t : State} (m : [.pwr, .start, .mbx, .log, .units, .vane, .net, .coll, .lull, .bond, .serve, .sealed, .link, .out, .freeCtr] ⊆ gs) (k : Only gs s t) :
    Only gs s (Machine.fenceRouters a1 t) := by
  refine Only.after (hs := [.pwr, .start, .mbx, .log, .units, .vane, .net, .coll, .lull, .bond, .serve, .sealed, .link, .out, .freeCtr]) ?_ m k
  clear m k
  induction a1 generalizing t with
  | nil =>
    unfold Machine.fenceRouters
    try dsimp only
    repeat' with_reducible exact Only.refl
  | cons x l ih =>
    unfold Machine.fenceRouters
    try dsimp only
    repeat' with_reducible first
        | exact Only.refl
        | refine Only.trans ?_ (ih ..)
        | refine fenceRouter_only _ (by decide) ?_

theorem fenceCutOff_only {gs : List Group} {s t : State} (m : [.pwr, .start, .mbx, .log, .units, .vane, .net, .coll, .lull, .bond, .serve, .sealed, .link, .out, .freeCtr] ⊆ gs) (k : Only gs s t) :
    Only gs s (Machine.fenceCutOff t) := by
  refine Only.after (hs := [.pwr, .start, .mbx, .log, .units, .vane, .net, .coll, .lull, .bond, .serve, .sealed, .link, .out, .freeCtr]) ?_ m k
  clear m k
  unfold Machine.fenceCutOff
  try dsimp only
  repeat' with_reducible first | exact Only.refl | refine fenceRouters_only _ (by decide) ?_

theorem writeEvlAck_only (a1) (a2) {gs : List Group} {s t : State} (m : [.log, .link, .out] ⊆ gs) (k : Only gs s t) :
    Only gs s (Machine.writeEvlAck a1 a2 t) := by
  refine Only.after (hs := [.log, .link, .out]) ?_ m k
  clear m k
  unfold Machine.writeEvlAck
  try dsimp only
  repeat' first
    | with_reducible first | exact Only.refl | refine sendMsix_only _ (by decide) ?_
    | fail_if_no_progress ((with_reducible refine Only.atLog (by decide) ?_ ?_) <;> try exact fun w => w)
    | split

theorem modLogRegion_only (a1) {gs : List Group} {s t : State} (m : [.store] ⊆ gs) (k : Only gs s t) :
    Only gs s (Machine.modLogRegion a1 t) := by
  refine Only.after (hs := [.store]) ?_ m k
  clear m k
  unfold Machine.modLogRegion
  try dsimp only
  repeat' with_reducible first | exact Only.refl | fail_if_no_progress refine Only.atStore (by decide) ?_

theorem logWrap_only (a1) {gs : List Group} {s t : State} (m : [.store, .log, .link, .out] ⊆ gs) (k : Only gs s t) :
    Only gs s (Machine.logWrap a1 t) := by
  refine Only.after (hs := [.store, .log, .link, .out]) ?_ m k
  clear m k
  unfold Machine.logWrap
  try dsimp only
  repeat' first
    | with_reducible first
      | exact Only.refl
      | refine logInfo_only _ _ _ _ (by decide) ?_
      | fail_if_no_progress refine Only.atStore (by decide) ?_
    | split

theorem noteErase_only (a1) (a2) {gs : List Group} {s t : State} (m : [.store, .log, .link, .out] ⊆ gs) (k : Only gs s t) :
    Only gs s (Machine.noteErase a1 a2 t) := by
  refine Only.after (hs := [.store, .log, .link, .out]) ?_ m k
  clear m k
  unfold Machine.noteErase
  try dsimp only
  repeat' first
    | with_reducible first
      | exact Only.refl
      | refine modLogRegion_only _ (by decide) ?_
      | refine logInfo_only _ _ _ _ (by decide) ?_
    | split

theorem retireLogSector_only (a1) (a2) {gs : List Group} {s t : State} (m : [.store, .log, .link, .out] ⊆ gs) (k : Only gs s t) :
    Only gs s (Machine.retireLogSector a1 a2 t).1 := by
  refine Only.after (hs := [.store, .log, .link, .out]) ?_ m k
  clear m k
  unfold Machine.retireLogSector
  try dsimp only
  repeat' first
    | with_reducible first
      | exact Only.refl
      | refine logCe_only _ _ _ _ (by decide) ?_
      | refine modLogRegion_only _ (by decide) ?_
      | refine logUe_only _ _ _ _ _ (by decide) ?_
    | split

theorem trayAckTo_only (a1) {gs : List Group} {s t : State} (m : [.log] ⊆ gs) (k : Only gs s t) :
    Only gs s (Machine.trayAckTo a1 t) := by
  refine Only.after (hs := [.log]) ?_ m k
  clear m k
  unfold Machine.trayAckTo
  try dsimp only
  repeat' first
    | with_reducible exact Only.refl
    | fail_if_no_progress ((with_reducible refine Only.atLog (by decide) ?_ ?_) <;> try exact fun w => w)
    | split

theorem powerTile_only (a1) (a2) {gs : List Group} {s t : State} (m : [.pwr, .out] ⊆ gs) (k : Only gs s t) :
    Only gs s (Machine.powerTile a1 a2 t) := by
  refine Only.after (hs := [.pwr, .out]) ?_ m k
  clear m k
  unfold Machine.powerTile
  try dsimp only
  repeat' first
    | with_reducible first
      | exact Only.refl
      | refine pushFrame_only _ (by decide) ?_
      | refine fgrTurnOn_only _ (by decide) ?_
    | split

theorem retrainStack_only (a1) {gs : List Group} {s t : State} (m : [.mem] ⊆ gs) (k : Only gs s t) :
    Only gs s (Machine.retrainStack a1 t) := by
  refine Only.after (hs := [.mem]) ?_ m k
  clear m k
  unfold Machine.retrainStack
  try dsimp only
  repeat' with_reducible first | exact Only.refl | fail_if_no_progress refine Only.atMem (by decide) rfl ?_

theorem beginReturn_only (a1) (a2) {gs : List Group} {s t : State} (m : [.pwr, .log, .units, .mem, .link, .out] ⊆ gs) (k : Only gs s t) :
    Only gs s (Machine.beginReturn a1 a2 t) := by
  refine Only.after (hs := [.pwr, .log, .units, .mem, .link, .out]) ?_ m k
  clear m k
  unfold Machine.beginReturn
  try dsimp only
  repeat' first
    | with_reducible first
      | exact Only.refl
      | refine powerTile_only _ _ (by decide) ?_
      | refine setUnitSt_only _ _ _ (by decide) ?_
      | refine retrainStack_only _ (by decide) ?_
      | refine startTraining_only _ (by decide) ?_
    | split

theorem joinAll_only (a1) {gs : List Group} {s t : State} (m : [.net] ⊆ gs) (k : Only gs s t) :
    Only gs s (Machine.joinAll a1 t) := by
  refine Only.after (hs := [.net]) ?_ m k
  clear m k
  induction a1 generalizing t with
  | nil =>
    unfold Machine.joinAll
    try dsimp only
    repeat' with_reducible exact Only.refl
  | cons x l ih =>
    unfold Machine.joinAll
    try dsimp only
    repeat' with_reducible first
        | exact Only.refl
        | refine Only.trans ?_ (ih ..)
        | fail_if_no_progress refine Only.atNet (by decide) ?_

theorem stopReturn_only (a1) (a2) {gs : List Group} {s t : State} (m : [.units] ⊆ gs) (k : Only gs s t) :
    Only gs s (Machine.stopReturn a1 a2 t) := by
  refine Only.after (hs := [.units]) ?_ m k
  clear m k
  unfold Machine.stopReturn
  try dsimp only
  repeat' with_reducible first | exact Only.refl | fail_if_no_progress refine Only.atUnits (by decide) ?_

theorem probationFails_only (a1) (a2) (a3) {gs : List Group} {s t : State} (m : [.pwr, .mbx, .log, .units, .net, .coll, .lull, .bond, .serve, .link, .out] ⊆ gs) (k : Only gs s t) :
    Only gs s (Machine.probationFails a1 a2 a3 t) := by
  refine Only.after (hs := [.pwr, .mbx, .log, .units, .net, .coll, .lull, .bond, .serve, .link, .out]) ?_ m k
  clear m k
  unfold Machine.probationFails
  try dsimp only
  repeat' with_reducible first
    | exact Only.refl
    | refine setUnitRec_only _ _ _ (by decide) ?_
    | refine logUe_only _ _ _ _ _ (by decide) ?_
    | refine revokeHeld_only _ _ (by decide) ?_
    | refine stopReturn_only _ _ (by decide) ?_
    | refine completeAwait_only _ _ (by decide) ?_

theorem portsFail_only (a1) {gs : List Group} {s t : State} (m : [.pwr, .log, .units, .net, .coll, .lull, .bond, .serve, .link, .out] ⊆ gs) (k : Only gs s t) :
    Only gs s (Machine.portsFail a1 t) := by
  refine Only.after (hs := [.pwr, .log, .units, .net, .coll, .lull, .bond, .serve, .link, .out]) ?_ m k
  clear m k
  induction a1 generalizing t with
  | nil =>
    unfold Machine.portsFail
    try dsimp only
    repeat' with_reducible exact Only.refl
  | cons x l ih =>
    unfold Machine.portsFail
    try dsimp only
    repeat' first
        | with_reducible first
          | exact Only.refl
          | refine Only.trans ?_ (ih ..)
          | refine setUnitSt_only _ _ _ (by decide) ?_
          | refine revokeHeld_only _ _ (by decide) ?_
          | refine stopReturn_only _ _ (by decide) ?_
        | split

theorem planLeaves_only (a1) {gs : List Group} {s t : State} (m : [.net] ⊆ gs) (k : Only gs s t) :
    Only gs s (Machine.planLeaves a1 t) := by
  refine Only.after (hs := [.net]) ?_ m k
  clear m k
  induction a1 generalizing t with
  | nil =>
    unfold Machine.planLeaves
    try dsimp only
    repeat' with_reducible exact Only.refl
  | cons x l ih =>
    unfold Machine.planLeaves
    try dsimp only
    repeat' with_reducible first
        | exact Only.refl
        | refine Only.trans ?_ (ih ..)
        | fail_if_no_progress refine Only.atNet (by decide) ?_

theorem offlineAtOnce_only (a1) {gs : List Group} {s t : State} (m : [.pwr, .store, .mbx, .log, .units, .vane, .net, .coll, .lull, .bond, .mem, .serve, .sealed, .link, .out, .freeCtr] ⊆ gs) (k : Only gs s t) :
    Only gs s (Machine.offlineAtOnce a1 t) := by
  refine Only.after (hs := [.pwr, .store, .mbx, .log, .units, .vane, .net, .coll, .lull, .bond, .mem, .serve, .sealed, .link, .out, .freeCtr]) ?_ m k
  clear m k
  induction a1 generalizing t with
  | nil =>
    unfold Machine.offlineAtOnce
    try dsimp only
    repeat' with_reducible exact Only.refl
  | cons x l ih =>
    unfold Machine.offlineAtOnce
    try dsimp only
    repeat' first
        | with_reducible first
          | exact Only.refl
          | refine Only.trans ?_ (ih ..)
          | refine portOffline_only _ (by decide) ?_
          | refine offlineNow_only _ (by decide) ?_
        | split

theorem enterMaint_only (a1) (a2) {gs : List Group} {s t : State} (m : [.log, .units, .link, .out] ⊆ gs) (k : Only gs s t) :
    Only gs s (Machine.enterMaint a1 a2 t) := by
  refine Only.after (hs := [.log, .units, .link, .out]) ?_ m k
  clear m k
  unfold Machine.enterMaint
  try dsimp only
  repeat' first
    | with_reducible first
      | exact Only.refl
      | refine logInfo_only _ _ _ _ (by decide) ?_
      | fail_if_no_progress refine Only.atUnits (by decide) ?_
    | split

theorem execRouterUe_next (a1) (t : State) :
    ∃ u, Machine.execRouterUe a1 t = .next u ∧ Only [.aon, .pins, .clk, .pwr, .start, .store, .mbx, .log, .units, .vane, .net, .coll, .lull, .bond, .mem, .mmu, .dma, .serve, .sealed, .link, .out, .freeCtr, .bytes] t u := by
  refine ⟨_, rfl, ?_⟩
  try dsimp only
  repeat' first
    | with_reducible first
      | exact Only.refl
      | refine fenceCutOff_only (by decide) ?_
      | refine fenceRouter_only _ (by decide) ?_
      | refine packageFatal_only _ _ _ _ (by decide) ?_
    | split

theorem execMeeUe_next (a1) (t : State) :
    ∃ u, Machine.execMeeUe a1 t = .next u ∧ Only [.pwr, .log, .units, .net, .coll, .lull, .bond, .serve, .link, .out] t u := by
  refine ⟨_, rfl, ?_⟩
  try dsimp only
  repeat' first
    | with_reducible first | exact Only.refl | refine fenceUnit_only _ _ _ (by decide) ?_
    | split

theorem execControllerFault_next (a1) (t : State) :
    ∃ u, Machine.execControllerFault a1 t = .next u ∧ Only [.aon, .pins, .clk, .pwr, .start, .store, .mbx, .log, .units, .vane, .net, .coll, .lull, .bond, .mem, .mmu, .dma, .serve, .sealed, .link, .out, .freeCtr, .bytes] t u := by
  refine ⟨_, rfl, ?_⟩
  try dsimp only
  repeat' with_reducible first | exact Only.refl | refine stackLost_only _ _ (by decide) ?_

theorem execEvlAck_next (a1) (a2) (t : State) :
    ∃ u, Machine.execEvlAck a1 a2 t = .next u ∧ Only [.log, .link, .out] t u := by
  refine ⟨_, rfl, ?_⟩
  try dsimp only
  repeat' with_reducible first | exact Only.refl | refine writeEvlAck_only _ _ (by decide) ?_

theorem execLogCommit_next (a1) (a2) (a3) (a4) (t : State) :
    ∃ u, Machine.execLogCommit a1 a2 a3 a4 t = .next u ∧ Only [.store, .log, .link, .out] t u := by
  refine ⟨_, rfl, ?_⟩
  try dsimp only
  repeat' first
    | with_reducible first
      | exact Only.refl
      | refine modLogRegion_only _ (by decide) ?_
      | refine retireLogSector_only _ _ (by decide) ?_
      | refine noteErase_only _ _ (by decide) ?_
      | refine commitList_only _ (by decide) ?_
      | refine logWrap_only _ (by decide) ?_
    | split

theorem execLogRead_next (a1) (t : State) :
    ∃ u, Machine.execLogRead a1 t = .next u ∧ Only [.mbx, .log] t u := by
  refine ⟨_, rfl, ?_⟩
  try dsimp only
  repeat' first
    | with_reducible first
      | exact Only.refl
      | refine command_only _ _ _ _ (fun _ _ => ?_) (by decide) ?_
      | refine trayAckTo_only _ (by decide) ?_
      | refine replyDone_only _ _ _ (by decide) ?_
    | split

theorem execLogStatus_next (a1) (t : State) :
    ∃ u, Machine.execLogStatus a1 t = .next u ∧ Only [.mbx] t u := by
  refine ⟨_, rfl, ?_⟩
  try dsimp only
  repeat' with_reducible first
    | exact Only.refl
    | refine command_only _ _ _ _ (fun _ _ => ?_) (by decide) ?_
    | refine replyDone_only _ _ _ (by decide) ?_

theorem execUnitStatus_next (a1) (t : State) :
    ∃ u, Machine.execUnitStatus a1 t = .next u ∧ Only [.mbx] t u := by
  refine ⟨_, rfl, ?_⟩
  try dsimp only
  repeat' with_reducible first
    | exact Only.refl
    | refine command_only _ _ _ _ (fun _ _ => ?_) (by decide) ?_
    | refine replyDone_only _ _ _ (by decide) ?_

theorem execUnitReturn_next (a1) (t : State) :
    ∃ u, Machine.execUnitReturn a1 t = .next u ∧ Only [.pwr, .mbx, .log, .units, .mem, .link, .out] t u := by
  refine ⟨_, rfl, ?_⟩
  try dsimp only
  repeat' with_reducible first
    | exact Only.refl
    | refine command_only _ _ _ _ (fun _ _ => ?_) (by decide) ?_
    | refine setAwait_only _ _ (by decide) ?_
    | refine replyAccepted_only _ (by decide) ?_
    | refine beginReturn_only _ _ (by decide) ?_
    | fail_if_no_progress refine Only.atUnits (by decide) ?_

theorem execProbationEnd_next (a1) (a2) (a3) (a4) (t : State) :
    ∃ u, Machine.execProbationEnd a1 a2 a3 a4 t = .next u ∧ Only [.pwr, .start, .mbx, .log, .units, .vane, .net, .coll, .lull, .bond, .serve, .sealed, .link, .out, .freeCtr] t u := by
  refine ⟨_, rfl, ?_⟩
  try dsimp only
  repeat' first
    | with_reducible first
      | exact Only.refl
      | refine gustDown_only _ _ _ (by decide) ?_
      | refine modGport_only _ _ (by decide) ?_
      | refine joinNext_only _ _ (by decide) ?_
      | refine startEpoch_only (by decide) ?_
      | refine joinAll_only _ (by decide) ?_
      | refine probationFails_only _ _ _ (by decide) ?_
      | refine portsFail_only _ (by decide) ?_
    | split

theorem execUnitOffline_next (a1) (t : State) :
    ∃ u, Machine.execUnitOffline a1 t = .next u ∧ Only [.pwr, .store, .mbx, .log, .units, .vane, .net, .coll, .lull, .bond, .mem, .serve, .sealed, .link, .out, .freeCtr] t u := by
  refine ⟨_, rfl, ?_⟩
  try dsimp only
  repeat' first
    | with_reducible first
      | exact Only.refl
      | refine command_only _ _ _ _ (fun _ _ => ?_) (by decide) ?_
      | refine setAwait_only _ _ (by decide) ?_
      | refine enterMaint_only _ _ (by decide) ?_
      | refine rebuildRoutes_only (by decide) ?_
      | refine offlineAtOnce_only _ (by decide) ?_
      | refine startEpoch_only (by decide) ?_
      | refine planLeaves_only _ (by decide) ?_
    | split

end Sys2Proof.Laws
end

