-- ==== Sys2Proof/Laws/HostPort.lean ====
section
/-!
SUPPORT. Which groups of state each operation of Machine/HostPort.lean changes; it keeps every other group and the forms of the
memory and of the event ring.
-/
namespace Sys2Proof.Laws

open Sys2Proof.Machine

theorem drainPba_only {gs : List Group} {s t : State} (m : [.link, .out] ⊆ gs) (k : Only gs s t) :
    Only gs s (Machine.drainPba t) := by
  refine Only.after (hs := [.link, .out]) ?_ m k
  clear m k
  unfold Machine.drainPba
  try dsimp only
  repeat' first
    | with_reducible exact Only.refl
    | with_reducible fail_if_no_progress refine Only.atLinkOut (by decide) (by decide) ?_
    | split

theorem barRead_only (a1) (a2) (a3) {gs : List Group} {s t : State} (m : [.store, .log, .mem, .mmu, .serve, .link, .out, .freeCtr] ⊆ gs) (k : Only gs s t) :
    Only gs s (Machine.barRead a1 a2 a3 t) := by
  refine Only.after (hs := [.store, .log, .mem, .mmu, .serve, .link, .out, .freeCtr]) ?_ m k
  clear m k
  unfold Machine.barRead
  try dsimp only
  repeat' first
    | with_reducible first
      | exact Only.refl
      | refine dvaRead_only _ _ (by decide) ?_
      | fail_if_no_progress refine Only.atOut (by decide) ?_
    | split

theorem barDeny_only (a1) {gs : List Group} {s t : State} (m : [.link, .out] ⊆ gs) (k : Only gs s t) :
    Only gs s (Machine.barDeny a1 t) := by
  refine Only.after (hs := [.link, .out]) ?_ m k
  clear m k
  unfold Machine.barDeny
  try dsimp only
  repeat' first
    | with_reducible first | exact Only.refl | fail_if_no_progress refine Only.atLink (by decide) ?_
    | with_reducible fail_if_no_progress refine Only.atLinkOut (by decide) (by decide) ?_
    | split

theorem barOffline_only (a1) {gs : List Group} {s t : State} (m : [.aon, .out] ⊆ gs) (k : Only gs s t) :
    Only gs s (Machine.barOffline a1 t) := by
  refine Only.after (hs := [.aon, .out]) ?_ m k
  clear m k
  unfold Machine.barOffline
  try dsimp only
  repeat' first
    | with_reducible first
      | exact Only.refl
      | refine noteOffline_only (by decide) ?_
      | fail_if_no_progress refine Only.atOut (by decide) ?_
    | split

theorem execPerstNRise_next (t : State) :
    ∃ u, Machine.execPerstNRise t = .next u ∧ Only [.pins, .link] t u := by
  refine ⟨_, rfl, ?_⟩
  try dsimp only
  repeat' first
    | with_reducible exact Only.refl
    | with_reducible fail_if_no_progress refine Only.atPinsLink (by decide) (by decide) ?_
    | split

theorem execPcieLinkUp_next (a1) (t : State) :
    ∃ u, Machine.execPcieLinkUp a1 t = .next u ∧ Only [.log, .link, .out] t u := by
  refine ⟨_, rfl, ?_⟩
  try dsimp only
  repeat' first
    | with_reducible first
      | exact Only.refl
      | refine logInfo_only _ _ _ _ (by decide) ?_
      | fail_if_no_progress refine Only.atLink (by decide) ?_
    | split

theorem execPcieLinkDown_next (t : State) :
    ∃ u, Machine.execPcieLinkDown t = .next u ∧ Only [.aon, .mbx, .link] t u := by
  refine ⟨_, rfl, ?_⟩
  try dsimp only
  repeat' first
    | with_reducible first
      | exact Only.refl
      | refine perstEffect_only (by decide) ?_
      | fail_if_no_progress refine Only.atLink (by decide) ?_
    | split

theorem execConfigurationWrite_next (a1) (t : State) :
    ∃ u, Machine.execConfigurationWrite a1 t = .next u ∧ Only [.link, .out] t u := by
  refine ⟨_, rfl, ?_⟩
  try dsimp only
  repeat' first
    | with_reducible first
      | exact Only.refl
      | refine drainPba_only (by decide) ?_
      | fail_if_no_progress refine Only.atLink (by decide) ?_
    | split

theorem execBar2Access_next (a1) (a2) (t : State) :
    ∃ u, Machine.execBar2Access a1 a2 t = .next u ∧ Only [.aon, .store, .log, .mem, .mmu, .serve, .sealed, .link, .out, .freeCtr, .bytes] t u := by
  refine ⟨_, rfl, ?_⟩
  try dsimp only
  repeat' first
    | with_reducible first
      | exact Only.refl
      | refine barOffline_only _ (by decide) ?_
      | refine barRead_only _ _ _ (by decide) ?_
      | refine barDeny_only _ (by decide) ?_
      | refine dvaWrite_only _ _ (by decide) ?_
    | split

theorem execBar2Window_next (a1) (t : State) :
    ∃ u, Machine.execBar2Window a1 t = .next u ∧ Only [.mbx, .link] t u := by
  refine ⟨_, rfl, ?_⟩
  try dsimp only
  repeat' with_reducible first
    | exact Only.refl
    | refine command_only _ _ _ _ (fun _ _ => ?_) (by decide) ?_
    | refine replyDone_only _ _ _ (by decide) ?_
    | fail_if_no_progress refine Only.atLink (by decide) ?_

end Sys2Proof.Laws
end

