-- ==== Sys2Proof/Laws/Pins.lean ====
section
/-!
SUPPORT. Which groups of state each operation of Machine/Pins.lean changes; it keeps every other group and the forms of the
memory and of the event ring.
-/
namespace Sys2Proof.Laws

open Sys2Proof.Machine

theorem tapOp_only (a1) {gs : List Group} {s t : State} (m : [.pins, .out] ⊆ gs) (k : Only gs s t) :
    Only gs s (Machine.tapOp a1 t) := by
  refine Only.after (hs := [.pins, .out]) ?_ m k
  clear m k
  unfold Machine.tapOp
  try dsimp only
  repeat' first
    | with_reducible first
      | exact Only.refl
      | refine send_only _ (by decide) ?_
      | fail_if_no_progress refine Only.atPins (by decide) ?_
    | split

theorem setPin_only (a1) (a2) {gs : List Group} {s t : State} (m : [.pmx] ⊆ gs) (k : Only gs s t) :
    Only gs s (Machine.setPin a1 a2 t) := by
  refine Only.after (hs := [.pmx]) ?_ m k
  clear m k
  unfold Machine.setPin
  try dsimp only
  repeat' with_reducible first | exact Only.refl | fail_if_no_progress refine Only.atPmx (by decide) ?_

theorem selectPin_only (a1) (a2) (a3) (a4) {gs : List Group} {s t : State} (m : [.pmx, .out] ⊆ gs) (k : Only gs s t) :
    Only gs s (Machine.selectPin a1 a2 a3 a4 t) := by
  refine Only.after (hs := [.pmx, .out]) ?_ m k
  clear m k
  unfold Machine.selectPin
  try dsimp only
  repeat' first
    | with_reducible first
      | exact Only.refl
      | refine setPin_only _ _ (by decide) ?_
      | refine send_only _ (by decide) ?_
    | split

theorem firstLevel_only (a1) (a2) {gs : List Group} {s t : State} (m : [.out] ⊆ gs) (k : Only gs s t) :
    Only gs s (Machine.firstLevel a1 a2 t) := by
  refine Only.after (hs := [.out]) ?_ m k
  clear m k
  unfold Machine.firstLevel
  try dsimp only
  repeat' first
    | with_reducible first | exact Only.refl | refine send_only _ (by decide) ?_
    | split

theorem endPark_only (a1) {gs : List Group} {s t : State} (m : [.pmx, .mbx, .out] ⊆ gs) (k : Only gs s t) :
    Only gs s (Machine.endPark a1 t) := by
  refine Only.after (hs := [.pmx, .mbx, .out]) ?_ m k
  clear m k
  unfold Machine.endPark
  try dsimp only
  repeat' with_reducible first
    | exact Only.refl
    | refine completeAwait_only _ _ (by decide) ?_
    | refine firstLevel_only _ _ (by decide) ?_
    | refine setPin_only _ _ (by decide) ?_

theorem parkCheck_only (a1) {gs : List Group} {s t : State} (m : [.pmx, .mbx, .out] ⊆ gs) (k : Only gs s t) :
    Only gs s (Machine.parkCheck a1 t) := by
  refine Only.after (hs := [.pmx, .mbx, .out]) ?_ m k
  clear m k
  unfold Machine.parkCheck
  try dsimp only
  repeat' first
    | with_reducible first | exact Only.refl | refine endPark_only _ (by decide) ?_
    | split

theorem writePmxPin_only (a1) (a2) {gs : List Group} {s t : State} (m : [.aon, .pmx, .out] ⊆ gs) (k : Only gs s t) :
    Only gs s (Machine.writePmxPin a1 a2 t) := by
  refine Only.after (hs := [.aon, .pmx, .out]) ?_ m k
  clear m k
  unfold Machine.writePmxPin
  try dsimp only
  repeat' first
    | with_reducible first
      | exact Only.refl
      | refine noteDeny_only (by decide) ?_
      | refine selectPin_only _ _ _ _ (by decide) ?_
      | fail_if_no_progress refine Only.atPmx (by decide) ?_
    | split

theorem setPads_only (a1) {gs : List Group} {s t : State} (m : [.pmx] ⊆ gs) (k : Only gs s t) :
    Only gs s (Machine.setPads a1 t) := by
  refine Only.after (hs := [.pmx]) ?_ m k
  clear m k
  unfold Machine.setPads
  try dsimp only
  repeat' with_reducible first | exact Only.refl | fail_if_no_progress refine Only.atPmx (by decide) ?_

theorem execI3cDynamicAddress_next (a1) (t : State) :
    ∃ u, Machine.execI3cDynamicAddress a1 t = .next u ∧ Only [.pins] t u := by
  refine ⟨_, rfl, ?_⟩
  try dsimp only
  repeat' first
    | with_reducible first | exact Only.refl | fail_if_no_progress refine Only.atPins (by decide) ?_
    | split

theorem execExtest_next (a1) (a2) (t : State) :
    ∃ u, Machine.execExtest a1 a2 t = .next u ∧ Only [.pins, .out] t u := by
  refine ⟨_, rfl, ?_⟩
  try dsimp only
  repeat' first
    | with_reducible first
      | exact Only.refl
      | refine tapOp_only _ (by decide) ?_
      | fail_if_no_progress refine Only.atPins (by decide) ?_
    | split

theorem execPmxPinWrite_next (a1) (a2) (t : State) :
    ∃ u, Machine.execPmxPinWrite a1 a2 t = .next u ∧ Only [.aon, .pmx, .out] t u := by
  refine ⟨_, rfl, ?_⟩
  try dsimp only
  repeat' with_reducible first | exact Only.refl | refine writePmxPin_only _ _ (by decide) ?_

theorem execParkIdle_next (a1) (t : State) :
    ∃ u, Machine.execParkIdle a1 t = .next u ∧ Only [.pmx, .mbx, .out] t u := by
  refine ⟨_, rfl, ?_⟩
  try dsimp only
  repeat' first
    | with_reducible first
      | exact Only.refl
      | refine parkCheck_only _ (by decide) ?_
      | refine setPin_only _ _ (by decide) ?_
    | split

theorem execParkMinExpiry_next (a1) (t : State) :
    ∃ u, Machine.execParkMinExpiry a1 t = .next u ∧ Only [.pmx, .mbx, .out] t u := by
  refine ⟨_, rfl, ?_⟩
  try dsimp only
  repeat' first
    | with_reducible first
      | exact Only.refl
      | refine parkCheck_only _ (by decide) ?_
      | refine setPin_only _ _ (by decide) ?_
    | split

theorem execParkTimeout_next (a1) (t : State) :
    ∃ u, Machine.execParkTimeout a1 t = .next u ∧ Only [.pmx, .mbx, .log, .link, .out] t u := by
  refine ⟨_, rfl, ?_⟩
  try dsimp only
  repeat' first
    | with_reducible first
      | exact Only.refl
      | refine endPark_only _ (by decide) ?_
      | refine logInfo_only _ _ _ _ (by decide) ?_
      | refine send_only _ (by decide) ?_
    | split

theorem execPinGet_next (a1) (t : State) :
    ∃ u, Machine.execPinGet a1 t = .next u ∧ Only [.pmx, .mbx] t u := by
  refine ⟨_, rfl, ?_⟩
  try dsimp only
  repeat' first
    | with_reducible first
      | exact Only.refl
      | refine command_only _ _ _ _ (fun _ _ => ?_) (by decide) ?_
      | refine replyDone_only _ _ _ (by decide) ?_
      | refine setPads_only _ (by decide) ?_
    | split

theorem execPinSetFunction_next (a1) (t : State) :
    ∃ u, Machine.execPinSetFunction a1 t = .next u ∧ Only [.pmx, .mbx, .out] t u := by
  refine ⟨_, rfl, ?_⟩
  try dsimp only
  repeat' first
    | with_reducible first
      | exact Only.refl
      | refine command_only _ _ _ _ (fun _ _ => ?_) (by decide) ?_
      | refine selectPin_only _ _ _ _ (by decide) ?_
      | refine replyDone_only _ _ _ (by decide) ?_
      | refine setAwait_only _ _ (by decide) ?_
    | split

theorem execPinGpio_next (a1) (t : State) :
    ∃ u, Machine.execPinGpio a1 t = .next u ∧ Only [.pmx, .mbx] t u := by
  refine ⟨_, rfl, ?_⟩
  try dsimp only
  repeat' first
    | with_reducible first
      | exact Only.refl
      | refine command_only _ _ _ _ (fun _ _ => ?_) (by decide) ?_
      | refine setPin_only _ _ (by decide) ?_
      | refine replyDone_only _ _ _ (by decide) ?_
      | refine setPads_only _ (by decide) ?_
    | split

end Sys2Proof.Laws
end

