-- ==== Sys2Proof/Laws/Protection.lean ====
section
/-!
SUPPORT. Which groups of state each operation of Machine/Protection.lean changes; it keeps every other group and the forms of the
memory and of the event ring.
-/
namespace Sys2Proof.Laws

open Sys2Proof.Machine

theorem consume_only (a1) {gs : List Group} {s t : State} (m : [.prot] ⊆ gs) (k : Only gs s t) :
    Only gs s (Machine.consume a1 t) := by
  refine Only.after (hs := [.prot]) ?_ m k
  clear m k
  unfold Machine.consume
  try dsimp only
  repeat' with_reducible first
    | exact Only.refl
    | fail_if_no_progress refine Only.atProt (by decide) ⟨rfl, rfl⟩ ?_

theorem ticketRecord_only (a1) {gs : List Group} {s t : State} (m : [.log, .link, .out] ⊆ gs) (k : Only gs s t) :
    Only gs s (Machine.ticketRecord a1 t) := by
  refine Only.after (hs := [.log, .link, .out]) ?_ m k
  clear m k
  unfold Machine.ticketRecord
  try dsimp only
  repeat' first
    | with_reducible first
      | exact Only.refl
      | refine logSec_only _ _ _ _ (by decide) ?_
      | refine logInfo_only _ _ _ _ (by decide) ?_
    | split

theorem ticketRefused_only (a1) (a2) {gs : List Group} {s t : State} (m : [.log, .prot, .link, .out] ⊆ gs) (k : Only gs s t) :
    Only gs s (Machine.ticketRefused a1 a2 t) := by
  refine Only.after (hs := [.log, .prot, .link, .out]) ?_ m k
  clear m k
  unfold Machine.ticketRefused
  try dsimp only
  repeat' first
    | with_reducible first
      | exact Only.refl
      | refine consume_only _ (by decide) ?_
      | refine logSec_only _ _ _ _ (by decide) ?_
    | split

theorem ticket_only {gs : List Group} (a1) (a2) (a3) (h3 : ∀ x0 x1, Only gs x1 (a3 x0 x1)) {s t : State} (m : [.mbx, .log, .prot, .link, .out] ⊆ gs) (k : Only gs s t) :
    Only gs s (Machine.ticket a1 a2 a3 t) := by
  unfold Machine.ticket
  try dsimp only
  repeat' first
    | with_reducible first
      | exact k
      | refine Only.trans ?_ (h3 ..)
      | refine setBox_only _ _ (List.Subset.trans (by decide) m) ?_
      | refine replyFail_only _ _ _ (List.Subset.trans (by decide) m) ?_
      | refine ticketRefused_only _ _ (List.Subset.trans (by decide) m) ?_
      | refine replyDone_only _ _ _ (List.Subset.trans (by decide) m) ?_
      | refine ticketRecord_only _ (List.Subset.trans (by decide) m) ?_
      | refine consume_only _ (List.Subset.trans (by decide) m) ?_
    | split

theorem ticketUnknown_only (a1) {gs : List Group} {s t : State} (m : [.mbx, .log, .prot, .link, .out] ⊆ gs) (k : Only gs s t) :
    Only gs s (Machine.ticketUnknown a1 t) := by
  refine Only.after (hs := [.mbx, .log, .prot, .link, .out]) ?_ m k
  clear m k
  unfold Machine.ticketUnknown
  try dsimp only
  repeat' first
    | with_reducible first
      | exact Only.refl
      | refine setBox_only _ _ (by decide) ?_
      | refine replyFail_only _ _ _ (by decide) ?_
      | refine ticketRefused_only _ _ (by decide) ?_
    | split

theorem applyPartition_only (a1) {gs : List Group} {s t : State} (m : [.store, .log, .prot, .mem, .mmu, .link, .out, .bytes] ⊆ gs) (k : Only gs s t) :
    Only gs s (Machine.applyPartition a1 t) := by
  refine Only.after (hs := [.store, .log, .prot, .mem, .mmu, .link, .out, .bytes]) ?_ m k
  clear m k
  unfold Machine.applyPartition
  try dsimp only
  repeat' with_reducible first
    | exact Only.refl
    | refine partitionChanged_only _ _ _ (by decide) ?_
    | fail_if_no_progress refine Only.atProt (by decide) ⟨rfl, rfl⟩ ?_

theorem applyVaultPolicy_only (a1) {gs : List Group} {s t : State} (m : [.prot] ⊆ gs) (k : Only gs s t) :
    Only gs s (Machine.applyVaultPolicy a1 t) := by
  refine Only.after (hs := [.prot]) ?_ m k
  clear m k
  unfold Machine.applyVaultPolicy
  try dsimp only
  repeat' with_reducible first
    | exact Only.refl
    | fail_if_no_progress refine Only.atProt (by decide) ⟨rfl, rfl⟩ ?_

theorem applySealedPolicy_only (a1) {gs : List Group} {s t : State} (m : [.prot] ⊆ gs) (k : Only gs s t) :
    Only gs s (Machine.applySealedPolicy a1 t) := by
  refine Only.after (hs := [.prot]) ?_ m k
  clear m k
  unfold Machine.applySealedPolicy
  try dsimp only
  repeat' with_reducible first
    | exact Only.refl
    | fail_if_no_progress refine Only.atProt (by decide) ⟨rfl, rfl⟩ ?_

theorem setDebug_only (a1) (a2) {gs : List Group} {s t : State} (m : [.pins, .log, .prot, .link, .out] ⊆ gs) (k : Only gs s t) :
    Only gs s (Machine.setDebug a1 a2 t) := by
  refine Only.after (hs := [.pins, .log, .prot, .link, .out]) ?_ m k
  clear m k
  unfold Machine.setDebug
  try dsimp only
  repeat' first
    | with_reducible first | exact Only.refl | refine logSec_only _ _ _ _ (by decide) ?_
    | with_reducible fail_if_no_progress refine Only.atPinsProt (by decide) (by decide) ⟨rfl, rfl⟩ ?_
    | split

theorem applyDebugUnlock_only (a1) {gs : List Group} {s t : State} (m : [.pins, .log, .prot, .link, .out] ⊆ gs) (k : Only gs s t) :
    Only gs s (Machine.applyDebugUnlock a1 t) := by
  refine Only.after (hs := [.pins, .log, .prot, .link, .out]) ?_ m k
  clear m k
  unfold Machine.applyDebugUnlock
  try dsimp only
  repeat' with_reducible first | exact Only.refl | refine setDebug_only _ _ (by decide) ?_

theorem applyExpertGrant_only (a1) {gs : List Group} {s t : State} (m : [.aon] ⊆ gs) (k : Only gs s t) :
    Only gs s (Machine.applyExpertGrant a1 t) := by
  refine Only.after (hs := [.aon]) ?_ m k
  clear m k
  unfold Machine.applyExpertGrant
  try dsimp only
  repeat' with_reducible first | exact Only.refl | fail_if_no_progress refine Only.atAon (by decide) ?_

theorem applyRollback_only (a1) {gs : List Group} {s t : State} (m : [.prot, .fuses] ⊆ gs) (k : Only gs s t) :
    Only gs s (Machine.applyRollback a1 t) := by
  refine Only.after (hs := [.prot, .fuses]) ?_ m k
  clear m k
  unfold Machine.applyRollback
  try dsimp only
  repeat' with_reducible first
    | exact Only.refl
    | fail_if_no_progress refine Only.atFuses (by decide) (by decide) ?_

theorem applyExclusion_only (a1) {gs : List Group} {s t : State} (m : [.aon, .pins, .start, .store, .log, .serve, .link, .out] ⊆ gs) (k : Only gs s t) :
    Only gs s (Machine.applyExclusion a1 t) := by
  refine Only.after (hs := [.aon, .pins, .start, .store, .log, .serve, .link, .out]) ?_ m k
  clear m k
  unfold Machine.applyExclusion
  try dsimp only
  repeat' first
    | with_reducible first
      | exact Only.refl
      | refine sendJoins_only (by decide) ?_
      | refine enterPhase_only _ (by decide) ?_
      | refine phaseExit_only _ (by decide) ?_
      | refine leaveHold_only (by decide) ?_
      | refine joinRecheck_only (by decide) ?_
      | refine doneWatch_only (by decide) ?_
    | with_reducible fail_if_no_progress refine Only.atAonPinsStore (by decide) (by decide) (by decide) ?_
    | split

theorem applyCustodyKeys_only (a1) {gs : List Group} {s t : State} (m : [.prot, .fuses] ⊆ gs) (k : Only gs s t) :
    Only gs s (Machine.applyCustodyKeys a1 t) := by
  refine Only.after (hs := [.prot, .fuses]) ?_ m k
  clear m k
  unfold Machine.applyCustodyKeys
  try dsimp only
  repeat' with_reducible first
    | exact Only.refl
    | fail_if_no_progress refine Only.atFuses (by decide) (by decide) ?_

theorem applyRevoke_only (a1) {gs : List Group} {s t : State} (m : [.aon, .pins, .log, .prot, .link, .out] ⊆ gs) (k : Only gs s t) :
    Only gs s (Machine.applyRevoke a1 t) := by
  refine Only.after (hs := [.aon, .pins, .log, .prot, .link, .out]) ?_ m k
  clear m k
  unfold Machine.applyRevoke
  try dsimp only
  repeat' first
    | with_reducible first
      | exact Only.refl
      | refine setDebug_only _ _ (by decide) ?_
      | fail_if_no_progress refine Only.atAon (by decide) ?_
    | split

theorem spdm_only (a1) (a2) {gs : List Group} {s t : State} (m : [.mbx, .prot, .freeCtr] ⊆ gs) (k : Only gs s t) :
    Only gs s (Machine.spdm a1 a2 t) := by
  refine Only.after (hs := [.mbx, .prot, .freeCtr]) ?_ m k
  clear m k
  unfold Machine.spdm
  try dsimp only
  repeat' first
    | with_reducible first
      | exact Only.refl
      | refine setBox_only _ _ (by decide) ?_
      | refine replyFail_only _ _ _ (by decide) ?_
      | refine replyDone_only _ _ _ (by decide) ?_
    | with_reducible fail_if_no_progress refine Only.atProtFreeCtr (by decide) (by decide) ⟨rfl, rfl⟩ ?_
    | split

theorem execTicketChallenge_next (a1) (t : State) :
    ∃ u, Machine.execTicketChallenge a1 t = .next u ∧ Only [.mbx, .prot, .sealed, .freeCtr] t u := by
  refine ⟨_, rfl, ?_⟩
  try dsimp only
  repeat' with_reducible first
    | exact Only.refl
    | refine command_only _ _ _ _ (fun _ _ => ?_) (by decide) ?_
    | refine replyDone_only _ _ _ (by decide) ?_
    | refine drbgDraw_only (by decide) ?_
    | fail_if_no_progress refine Only.atProt (by decide) ⟨rfl, rfl⟩ ?_

theorem execChallengeExpiry_next (a1) (t : State) :
    ∃ u, Machine.execChallengeExpiry a1 t = .next u ∧ Only [.prot] t u := by
  refine ⟨_, rfl, ?_⟩
  try dsimp only
  repeat' with_reducible first
    | exact Only.refl
    | fail_if_no_progress refine Only.atProt (by decide) ⟨rfl, rfl⟩ ?_

theorem execTicketPartition_next (a1) (t : State) :
    ∃ u, Machine.execTicketPartition a1 t = .next u ∧ Only [.store, .mbx, .log, .prot, .mem, .mmu, .link, .out, .bytes] t u := by
  refine ⟨_, rfl, ?_⟩
  try dsimp only
  repeat' with_reducible first
    | exact Only.refl
    | refine ticket_only _ _ _ (fun _ _ => ?_) (by decide) ?_
    | refine applyPartition_only _ (by decide) ?_

theorem execTicketVaultPolicy_next (a1) (t : State) :
    ∃ u, Machine.execTicketVaultPolicy a1 t = .next u ∧ Only [.mbx, .log, .prot, .link, .out] t u := by
  refine ⟨_, rfl, ?_⟩
  try dsimp only
  repeat' with_reducible first
    | exact Only.refl
    | refine ticket_only _ _ _ (fun _ _ => ?_) (by decide) ?_
    | refine applyVaultPolicy_only _ (by decide) ?_

theorem execTicketSealedPolicy_next (a1) (t : State) :
    ∃ u, Machine.execTicketSealedPolicy a1 t = .next u ∧ Only [.mbx, .log, .prot, .link, .out] t u := by
  refine ⟨_, rfl, ?_⟩
  try dsimp only
  repeat' with_reducible first
    | exact Only.refl
    | refine ticket_only _ _ _ (fun _ _ => ?_) (by decide) ?_
    | refine applySealedPolicy_only _ (by decide) ?_

theorem execTicketDebugUnlock_next (a1) (t : State) :
    ∃ u, Machine.execTicketDebugUnlock a1 t = .next u ∧ Only [.pins, .mbx, .log, .prot, .link, .out] t u := by
  refine ⟨_, rfl, ?_⟩
  try dsimp only
  repeat' with_reducible first
    | exact Only.refl
    | refine ticket_only _ _ _ (fun _ _ => ?_) (by decide) ?_
    | refine applyDebugUnlock_only _ (by decide) ?_

theorem execTicketExpertGrant_next (a1) (t : State) :
    ∃ u, Machine.execTicketExpertGrant a1 t = .next u ∧ Only [.aon, .mbx, .log, .prot, .link, .out] t u := by
  refine ⟨_, rfl, ?_⟩
  try dsimp only
  repeat' with_reducible first
    | exact Only.refl
    | refine ticket_only _ _ _ (fun _ _ => ?_) (by decide) ?_
    | refine applyExpertGrant_only _ (by decide) ?_

theorem execTicketRollback_next (a1) (t : State) :
    ∃ u, Machine.execTicketRollback a1 t = .next u ∧ Only [.mbx, .log, .prot, .link, .out, .fuses] t u := by
  refine ⟨_, rfl, ?_⟩
  try dsimp only
  repeat' with_reducible first
    | exact Only.refl
    | refine ticket_only _ _ _ (fun _ _ => ?_) (by decide) ?_
    | refine applyRollback_only _ (by decide) ?_

theorem execTicketExclusion_next (a1) (t : State) :
    ∃ u, Machine.execTicketExclusion a1 t = .next u ∧ Only [.aon, .pins, .start, .store, .mbx, .log, .prot, .serve, .link, .out] t u := by
  refine ⟨_, rfl, ?_⟩
  try dsimp only
  repeat' with_reducible first
    | exact Only.refl
    | refine ticket_only _ _ _ (fun _ _ => ?_) (by decide) ?_
    | refine applyExclusion_only _ (by decide) ?_

theorem execTicketCustodyKeys_next (a1) (t : State) :
    ∃ u, Machine.execTicketCustodyKeys a1 t = .next u ∧ Only [.mbx, .log, .prot, .link, .out, .fuses] t u := by
  refine ⟨_, rfl, ?_⟩
  try dsimp only
  repeat' with_reducible first
    | exact Only.refl
    | refine ticket_only _ _ _ (fun _ _ => ?_) (by decide) ?_
    | refine applyCustodyKeys_only _ (by decide) ?_

theorem execTicketRevoke_next (a1) (t : State) :
    ∃ u, Machine.execTicketRevoke a1 t = .next u ∧ Only [.aon, .pins, .mbx, .log, .prot, .link, .out] t u := by
  refine ⟨_, rfl, ?_⟩
  try dsimp only
  repeat' with_reducible first
    | exact Only.refl
    | refine ticket_only _ _ _ (fun _ _ => ?_) (by decide) ?_
    | refine applyRevoke_only _ (by decide) ?_

theorem execFuseBlowDone_next (a1) (t : State) :
    ∃ u, Machine.execFuseBlowDone a1 t = .next u ∧ Only [.prot, .fuses] t u := by
  refine ⟨_, rfl, ?_⟩
  try dsimp only
  repeat' first
    | with_reducible first | exact Only.refl | fail_if_no_progress refine Only.atFuses (by decide) (by decide) ?_
    | split

theorem execGrantLapse_next (a1) (t : State) :
    ∃ u, Machine.execGrantLapse a1 t = .next u ∧ Only [.aon, .pins, .log, .prot, .link, .out] t u := by
  refine ⟨_, rfl, ?_⟩
  try dsimp only
  repeat' first
    | with_reducible first
      | exact Only.refl
      | refine logInfo_only _ _ _ _ (by decide) ?_
      | refine setDebug_only _ _ (by decide) ?_
      | fail_if_no_progress refine Only.atAon (by decide) ?_
    | split

theorem execPartitionGet_next (a1) (t : State) :
    ∃ u, Machine.execPartitionGet a1 t = .next u ∧ Only [.mbx] t u := by
  refine ⟨_, rfl, ?_⟩
  try dsimp only
  repeat' with_reducible first
    | exact Only.refl
    | refine command_only _ _ _ _ (fun _ _ => ?_) (by decide) ?_
    | refine replyDone_only _ _ _ (by decide) ?_

theorem execGrantStatus_next (a1) (t : State) :
    ∃ u, Machine.execGrantStatus a1 t = .next u ∧ Only [.mbx] t u := by
  refine ⟨_, rfl, ?_⟩
  try dsimp only
  repeat' with_reducible first
    | exact Only.refl
    | refine command_only _ _ _ _ (fun _ _ => ?_) (by decide) ?_
    | refine replyDone_only _ _ _ (by decide) ?_

theorem execRollbackStatus_next (a1) (t : State) :
    ∃ u, Machine.execRollbackStatus a1 t = .next u ∧ Only [.mbx] t u := by
  refine ⟨_, rfl, ?_⟩
  try dsimp only
  repeat' with_reducible first
    | exact Only.refl
    | refine command_only _ _ _ _ (fun _ _ => ?_) (by decide) ?_
    | refine replyDone_only _ _ _ (by decide) ?_

theorem execMeasureGet_next (a1) (t : State) :
    ∃ u, Machine.execMeasureGet a1 t = .next u ∧ Only [.mbx] t u := by
  refine ⟨_, rfl, ?_⟩
  try dsimp only
  repeat' with_reducible first
    | exact Only.refl
    | refine command_only _ _ _ _ (fun _ _ => ?_) (by decide) ?_
    | refine replyDone_only _ _ _ (by decide) ?_

theorem execGetVersion_next (a1) (t : State) :
    ∃ u, Machine.execGetVersion a1 t = .next u ∧ Only [.mbx, .prot, .freeCtr] t u := by
  refine ⟨_, rfl, ?_⟩
  try dsimp only
  repeat' with_reducible first | exact Only.refl | refine spdm_only _ _ (by decide) ?_

theorem execGetCapabilities_next (a1) (t : State) :
    ∃ u, Machine.execGetCapabilities a1 t = .next u ∧ Only [.mbx, .prot, .freeCtr] t u := by
  refine ⟨_, rfl, ?_⟩
  try dsimp only
  repeat' with_reducible first | exact Only.refl | refine spdm_only _ _ (by decide) ?_

theorem execNegotiateAlgorithms_next (a1) (t : State) :
    ∃ u, Machine.execNegotiateAlgorithms a1 t = .next u ∧ Only [.mbx, .prot, .freeCtr] t u := by
  refine ⟨_, rfl, ?_⟩
  try dsimp only
  repeat' with_reducible first | exact Only.refl | refine spdm_only _ _ (by decide) ?_

theorem execGetDigests_next (a1) (t : State) :
    ∃ u, Machine.execGetDigests a1 t = .next u ∧ Only [.mbx, .prot, .freeCtr] t u := by
  refine ⟨_, rfl, ?_⟩
  try dsimp only
  repeat' with_reducible first | exact Only.refl | refine spdm_only _ _ (by decide) ?_

theorem execGetCertificate_next (a1) (t : State) :
    ∃ u, Machine.execGetCertificate a1 t = .next u ∧ Only [.mbx, .prot, .freeCtr] t u := by
  refine ⟨_, rfl, ?_⟩
  try dsimp only
  repeat' with_reducible first | exact Only.refl | refine spdm_only _ _ (by decide) ?_

theorem execChallenge_next (a1) (t : State) :
    ∃ u, Machine.execChallenge a1 t = .next u ∧ Only [.mbx, .prot, .freeCtr] t u := by
  refine ⟨_, rfl, ?_⟩
  try dsimp only
  repeat' with_reducible first | exact Only.refl | refine spdm_only _ _ (by decide) ?_

theorem execGetMeasurements_next (a1) (t : State) :
    ∃ u, Machine.execGetMeasurements a1 t = .next u ∧ Only [.mbx, .prot, .freeCtr] t u := by
  refine ⟨_, rfl, ?_⟩
  try dsimp only
  repeat' with_reducible first | exact Only.refl | refine spdm_only _ _ (by decide) ?_

end Sys2Proof.Laws
end

