-- ==== Sys2Proof/Laws/Mailbox.lean ====
section
/-!
SUPPORT. Which groups of state each operation of Machine/Mailbox.lean changes; it keeps every other group and the forms of the
memory and of the event ring.
-/
namespace Sys2Proof.Laws

open Sys2Proof.Machine

theorem claimBox_only (a1) (a2) (a3) {gs : List Group} {s t : State} (m : [.mbx] ⊆ gs) (k : Only gs s t) :
    Only gs s (Machine.claimBox a1 a2 a3 t) := by
  refine Only.after (hs := [.mbx]) ?_ m k
  clear m k
  unfold Machine.claimBox
  try dsimp only
  repeat' first
    | with_reducible first | exact Only.refl | refine setBox_only _ _ (by decide) ?_
    | split

theorem renewBox_only (a1) (a2) (a3) {gs : List Group} {s t : State} (m : [.mbx] ⊆ gs) (k : Only gs s t) :
    Only gs s (Machine.renewBox a1 a2 a3 t) := by
  refine Only.after (hs := [.mbx]) ?_ m k
  clear m k
  unfold Machine.renewBox
  try dsimp only
  repeat' first
    | with_reducible first | exact Only.refl | refine setBox_only _ _ (by decide) ?_
    | split

theorem releaseBox_only (a1) (a2) (a3) {gs : List Group} {s t : State} (m : [.mbx] ⊆ gs) (k : Only gs s t) :
    Only gs s (Machine.releaseBox a1 a2 a3 t) := by
  refine Only.after (hs := [.mbx]) ?_ m k
  clear m k
  unfold Machine.releaseBox
  try dsimp only
  repeat' first
    | with_reducible first | exact Only.refl | refine endLease_only _ (by decide) ?_
    | split

theorem enqueue_only (a1) (a2) {gs : List Group} {s t : State} (m : [.mbx] ⊆ gs) (k : Only gs s t) :
    Only gs s (Machine.enqueue a1 a2 t) := by
  refine Only.after (hs := [.mbx]) ?_ m k
  clear m k
  unfold Machine.enqueue
  try dsimp only
  repeat' first
    | with_reducible first | exact Only.refl | fail_if_no_progress refine Only.atMbx (by decide) ?_
    | split

theorem ringBell_only (a1) (a2) (a3) {gs : List Group} {s t : State} (m : [.mbx] ⊆ gs) (k : Only gs s t) :
    Only gs s (Machine.ringBell a1 a2 a3 t) := by
  refine Only.after (hs := [.mbx]) ?_ m k
  clear m k
  unfold Machine.ringBell
  try dsimp only
  repeat' first
    | with_reducible first
      | exact Only.refl
      | refine setBox_only _ _ (by decide) ?_
      | refine enqueue_only _ _ (by decide) ?_
    | split

theorem decodeCommand_only (a1) {gs : List Group} {s t : State} (m : [.mbx, .log, .prot, .link, .out] ⊆ gs) (k : Only gs s t) :
    Only gs s (Machine.decodeCommand a1 t) := by
  refine Only.after (hs := [.mbx, .log, .prot, .link, .out]) ?_ m k
  clear m k
  unfold Machine.decodeCommand
  try dsimp only
  repeat' first
    | with_reducible first
      | exact Only.refl
      | refine replyFail_only _ _ _ (by decide) ?_
      | refine logLimited_only _ _ _ _ _ _ _ (by decide) ?_
      | refine ticketUnknown_only _ (by decide) ?_
      | refine setBox_only _ _ (by decide) ?_
      | refine replyDone_only _ _ _ (by decide) ?_
    | split

theorem execMbxClaim_next (a1) (a2) (a3) (t : State) :
    ∃ u, Machine.execMbxClaim a1 a2 a3 t = .next u ∧ Only [.mbx] t u := by
  refine ⟨_, rfl, ?_⟩
  try dsimp only
  repeat' with_reducible first | exact Only.refl | refine claimBox_only _ _ _ (by decide) ?_

theorem execMbxHb_next (a1) (a2) (a3) (t : State) :
    ∃ u, Machine.execMbxHb a1 a2 a3 t = .next u ∧ Only [.mbx] t u := by
  refine ⟨_, rfl, ?_⟩
  try dsimp only
  repeat' with_reducible first | exact Only.refl | refine renewBox_only _ _ _ (by decide) ?_

theorem execMbxRelease_next (a1) (a2) (a3) (t : State) :
    ∃ u, Machine.execMbxRelease a1 a2 a3 t = .next u ∧ Only [.mbx] t u := by
  refine ⟨_, rfl, ?_⟩
  try dsimp only
  repeat' with_reducible first | exact Only.refl | refine releaseBox_only _ _ _ (by decide) ?_

theorem execLeaseExpiry_next (a1) (t : State) :
    ∃ u, Machine.execLeaseExpiry a1 t = .next u ∧ Only [.mbx, .log, .link, .out] t u := by
  refine ⟨_, rfl, ?_⟩
  try dsimp only
  repeat' first
    | with_reducible first
      | exact Only.refl
      | refine endLease_only _ (by decide) ?_
      | refine logInfo_only _ _ _ _ (by decide) ?_
    | split

theorem execDblMbx_next (a1) (a2) (a3) (t : State) :
    ∃ u, Machine.execDblMbx a1 a2 a3 t = .next u ∧ Only [.mbx] t u := by
  refine ⟨_, rfl, ?_⟩
  try dsimp only
  repeat' with_reducible first | exact Only.refl | refine ringBell_only _ _ _ (by decide) ?_

theorem execCommandTake_next (a1) (a2) (t : State) :
    ∃ u, Machine.execCommandTake a1 a2 t = .next u ∧ Only [.mbx, .log, .prot, .link, .out] t u := by
  refine ⟨_, rfl, ?_⟩
  try dsimp only
  repeat' first
    | with_reducible first
      | exact Only.refl
      | refine unqueue_only _ (by decide) ?_
      | refine decodeCommand_only _ (by decide) ?_
      | refine setBox_only _ _ (by decide) ?_
    | split

theorem execResponsePost_next (a1) (t : State) :
    ∃ u, Machine.execResponsePost a1 t = .next u ∧ Only [.pins, .mbx, .log, .link, .out] t u := by
  refine ⟨_, rfl, ?_⟩
  try dsimp only
  repeat' first
    | with_reducible first
      | exact Only.refl
      | refine setBox_only _ _ (by decide) ?_
      | refine postResponse_only _ _ _ (by decide) ?_
      | refine logInfo_only _ _ _ _ (by decide) ?_
    | split

theorem execDeadlineExpiry_next (a1) (t : State) :
    ∃ u, Machine.execDeadlineExpiry a1 t = .next u ∧ Only [.pins, .mbx, .log, .link, .out] t u := by
  refine ⟨_, rfl, ?_⟩
  try dsimp only
  repeat' first
    | with_reducible first
      | exact Only.refl
      | refine postResponse_only _ _ _ (by decide) ?_
      | refine logUe_only _ _ _ _ _ (by decide) ?_
      | refine setBox_only _ _ (by decide) ?_
    | split

theorem execMbxEcho_next (a1) (t : State) :
    ∃ u, Machine.execMbxEcho a1 t = .next u ∧ Only [.mbx] t u := by
  refine ⟨_, rfl, ?_⟩
  try dsimp only
  repeat' with_reducible first
    | exact Only.refl
    | refine command_only _ _ _ _ (fun _ _ => ?_) (by decide) ?_
    | refine replyDone_only _ _ _ (by decide) ?_

theorem execIfInfo_next (a1) (t : State) :
    ∃ u, Machine.execIfInfo a1 t = .next u ∧ Only [.mbx] t u := by
  refine ⟨_, rfl, ?_⟩
  try dsimp only
  repeat' with_reducible first
    | exact Only.refl
    | refine command_only _ _ _ _ (fun _ _ => ?_) (by decide) ?_
    | refine replyDone_only _ _ _ (by decide) ?_

end Sys2Proof.Laws
end

