-- ==== Sys2Proof/Laws/Thermal.lean ====
section
/-!
SUPPORT. Which groups of state each operation of Machine/Thermal.lean changes; it keeps every other group and the forms of the
memory and of the event ring.
-/
namespace Sys2Proof.Laws

open Sys2Proof.Machine

theorem warnRise_only (a1) {gs : List Group} {s t : State} (m : [.log, .therm, .link, .out] ⊆ gs) (k : Only gs s t) :
    Only gs s (Machine.warnRise a1 t) := by
  refine Only.after (hs := [.log, .therm, .link, .out]) ?_ m k
  clear m k
  unfold Machine.warnRise
  try dsimp only
  repeat' first
    | with_reducible first
      | exact Only.refl
      | refine logLimited_only _ _ _ _ _ _ _ (by decide) ?_
      | fail_if_no_progress refine Only.atTherm (by decide) ?_
    | split

theorem haltTrip_only (a1) {gs : List Group} {s t : State} (m : [.aon, .pins, .clk, .pwr, .start, .mbx, .log, .therm, .vane, .net, .coll, .lull, .bond, .mem, .mmu, .dma, .serve, .sealed, .link, .out, .freeCtr, .bytes] ⊆ gs) (k : Only gs s t) :
    Only gs s (Machine.haltTrip a1 t) := by
  refine Only.after (hs := [.aon, .pins, .clk, .pwr, .start, .mbx, .log, .therm, .vane, .net, .coll, .lull, .bond, .mem, .mmu, .dma, .serve, .sealed, .link, .out, .freeCtr, .bytes]) ?_ m k
  clear m k
  unfold Machine.haltTrip
  try dsimp only
  repeat' first
    | with_reducible first
      | exact Only.refl
      | refine logRec_only _ _ _ _ _ _ (by decide) ?_
      | refine mailboxTakeover_only (by decide) ?_
      | refine resetCause_only _ (by decide) ?_
      | refine powerDown_only (by decide) ?_
      | refine dieLost_only (by decide) ?_
      | refine enterHold_only _ (by decide) ?_
      | fail_if_no_progress refine Only.atPwr (by decide) ?_
    | with_reducible fail_if_no_progress refine Only.atAonPinsPwrStartTherm (by decide) (by decide) (by decide) (by decide) (by decide) ?_

theorem sensorFault_only (a1) {gs : List Group} {s t : State} (m : [.log, .therm, .link, .out] ⊆ gs) (k : Only gs s t) :
    Only gs s (Machine.sensorFault a1 t) := by
  refine Only.after (hs := [.log, .therm, .link, .out]) ?_ m k
  clear m k
  unfold Machine.sensorFault
  try dsimp only
  repeat' first
    | with_reducible first
      | exact Only.refl
      | refine warnRise_only _ (by decide) ?_
      | refine logUe_only _ _ _ _ _ (by decide) ?_
      | fail_if_no_progress refine Only.atTherm (by decide) ?_
    | split

theorem startConv_only (a1) (a2) {gs : List Group} {s t : State} (m : [.therm] ⊆ gs) (k : Only gs s t) :
    Only gs s (Machine.startConv a1 a2 t) := by
  refine Only.after (hs := [.therm]) ?_ m k
  clear m k
  unfold Machine.startConv
  try dsimp only
  repeat' with_reducible first | exact Only.refl | fail_if_no_progress refine Only.atTherm (by decide) ?_

theorem writeThsCtrl_only (a1) (a2) {gs : List Group} {s t : State} (m : [.aon, .therm] ⊆ gs) (k : Only gs s t) :
    Only gs s (Machine.writeThsCtrl a1 a2 t) := by
  refine Only.after (hs := [.aon, .therm]) ?_ m k
  clear m k
  unfold Machine.writeThsCtrl
  try dsimp only
  repeat' first
    | with_reducible first
      | exact Only.refl
      | refine noteOffline_only (by decide) ?_
      | refine noteDeny_only (by decide) ?_
      | refine startConv_only _ _ (by decide) ?_
    | split

theorem faultOutOfRange_only (a1) (a2) (a3) {gs : List Group} {s t : State} (m : [.log, .therm, .link, .out] ⊆ gs) (k : Only gs s t) :
    Only gs s (Machine.faultOutOfRange a1 a2 a3 t) := by
  refine Only.after (hs := [.log, .therm, .link, .out]) ?_ m k
  clear m k
  induction a3 generalizing a1 a2 t with
  | nil =>
    unfold Machine.faultOutOfRange
    try dsimp only
    repeat' with_reducible exact Only.refl
  | cons x l ih =>
    unfold Machine.faultOutOfRange
    try dsimp only
    repeat' first
        | with_reducible first
          | exact Only.refl
          | refine Only.trans ?_ (ih ..)
          | refine sensorFault_only _ (by decide) ?_
        | split

theorem thermalReply_only (a1) (a2) {gs : List Group} {s t : State} (m : [.mbx] ⊆ gs) (k : Only gs s t) :
    Only gs s (Machine.thermalReply a1 a2 t) := by
  refine Only.after (hs := [.mbx]) ?_ m k
  clear m k
  unfold Machine.thermalReply
  try dsimp only
  repeat' first
    | with_reducible first
      | exact Only.refl
      | refine replyFail_only _ _ _ (by decide) ?_
      | refine replyDone_only _ _ _ (by decide) ?_
    | split

theorem nextConv_only {gs : List Group} {s t : State} (m : [.therm] ⊆ gs) (k : Only gs s t) :
    Only gs s (Machine.nextConv t) := by
  refine Only.after (hs := [.therm]) ?_ m k
  clear m k
  unfold Machine.nextConv
  try dsimp only
  repeat' first
    | with_reducible first
      | exact Only.refl
      | refine startConv_only _ _ (by decide) ?_
      | fail_if_no_progress refine Only.atTherm (by decide) ?_
    | split

theorem execThWarnAssert_next (a1) (t : State) :
    ∃ u, Machine.execThWarnAssert a1 t = .next u ∧ Only [.log, .therm, .link, .out] t u := by
  refine ⟨_, rfl, ?_⟩
  try dsimp only
  repeat' with_reducible first
    | exact Only.refl
    | refine warnRise_only _ (by decide) ?_
    | fail_if_no_progress refine Only.atTherm (by decide) ?_

theorem execThWarnRelease_next (a1) (t : State) :
    ∃ u, Machine.execThWarnRelease a1 t = .next u ∧ Only [.therm] t u := by
  refine ⟨_, rfl, ?_⟩
  try dsimp only
  repeat' with_reducible first | exact Only.refl | fail_if_no_progress refine Only.atTherm (by decide) ?_

theorem execThermalLevelTick_next (a1) (t : State) :
    ∃ u, Machine.execThermalLevelTick a1 t = .next u ∧ Only [.log, .therm, .link, .out] t u := by
  refine ⟨_, rfl, ?_⟩
  try dsimp only
  repeat' first
    | with_reducible first
      | exact Only.refl
      | refine logInfo_only _ _ _ _ (by decide) ?_
      | fail_if_no_progress refine Only.atTherm (by decide) ?_
    | split

theorem execThHalt_next (a1) (t : State) :
    ∃ u, Machine.execThHalt a1 t = .next u ∧ Only [.aon, .pins, .clk, .pwr, .start, .mbx, .log, .therm, .vane, .net, .coll, .lull, .bond, .mem, .mmu, .dma, .serve, .sealed, .link, .out, .freeCtr, .bytes] t u := by
  refine ⟨_, rfl, ?_⟩
  try dsimp only
  repeat' first
    | with_reducible first
      | exact Only.refl
      | refine haltTrip_only _ (by decide) ?_
      | refine logRec_only _ _ _ _ _ _ (by decide) ?_
      | refine resetCause_only _ (by decide) ?_
      | fail_if_no_progress refine Only.atTherm (by decide) ?_
    | split

theorem execResumeChange_next (a1) (a2) (t : State) :
    ∃ u, Machine.execResumeChange a1 a2 t = .next u ∧ Only [.therm] t u := by
  refine ⟨_, rfl, ?_⟩
  try dsimp only
  repeat' with_reducible first | exact Only.refl | fail_if_no_progress refine Only.atTherm (by decide) ?_

theorem execThResume_next (t : State) :
    ∃ u, Machine.execThResume t = .next u ∧ Only [.aon, .pins, .pmx, .clk, .pwr, .start, .store, .mbx, .log, .units, .therm, .prot, .vane, .net, .coll, .lull, .bond, .mem, .mmu, .dma, .serve, .sealed, .link, .out, .freeCtr, .bytes] t u := by
  refine ⟨_, rfl, ?_⟩
  try dsimp only
  repeat' first
    | with_reducible first
      | exact Only.refl
      | refine packageReset_only _ (by decide) ?_
      | refine startIfReleased_only (by decide) ?_
      | refine logInfo_only _ _ _ _ (by decide) ?_
      | fail_if_no_progress refine Only.atAon (by decide) ?_
      | fail_if_no_progress refine Only.atTherm (by decide) ?_
    | split

theorem execThSensorFault_next (a1) (t : State) :
    ∃ u, Machine.execThSensorFault a1 t = .next u ∧ Only [.log, .therm, .link, .out] t u := by
  refine ⟨_, rfl, ?_⟩
  try dsimp only
  repeat' first
    | with_reducible first | exact Only.refl | refine sensorFault_only _ (by decide) ?_
    | split

theorem execThsStart_next (a1) (a2) (t : State) :
    ∃ u, Machine.execThsStart a1 a2 t = .next u ∧ Only [.aon, .therm] t u := by
  refine ⟨_, rfl, ?_⟩
  try dsimp only
  repeat' with_reducible first | exact Only.refl | refine writeThsCtrl_only _ _ (by decide) ?_

theorem execConversionDone_next (a1) (t : State) :
    ∃ u, Machine.execConversionDone a1 t = .next u ∧ Only [.aon, .start, .mbx, .log, .therm, .link, .out] t u := by
  refine ⟨_, rfl, ?_⟩
  dsimp only
  generalize List.finRange 48 = l
  repeat' first
    | with_reducible first
      | exact Only.refl
      | refine nextConv_only (by decide) ?_
      | refine thermalReply_only _ _ (by decide) ?_
      | refine setBox_only _ _ (by decide) ?_
      | refine enterHold_only _ (by decide) ?_
      | refine leaveHold_only (by decide) ?_
      | refine faultOutOfRange_only _ _ _ (by decide) ?_
      | fail_if_no_progress refine Only.atTherm (by decide) ?_
    | split

theorem execThermalRead_next (a1) (t : State) :
    ∃ u, Machine.execThermalRead a1 t = .next u ∧ Only [.mbx, .therm] t u := by
  refine ⟨_, rfl, ?_⟩
  try dsimp only
  repeat' first
    | with_reducible first
      | exact Only.refl
      | refine command_only _ _ _ _ (fun _ _ => ?_) (by decide) ?_
      | refine setAwait_only _ _ (by decide) ?_
      | refine startConv_only _ _ (by decide) ?_
      | fail_if_no_progress refine Only.atTherm (by decide) ?_
    | split

theorem execThermalStatus_next (a1) (t : State) :
    ∃ u, Machine.execThermalStatus a1 t = .next u ∧ Only [.mbx] t u := by
  refine ⟨_, rfl, ?_⟩
  try dsimp only
  repeat' with_reducible first
    | exact Only.refl
    | refine command_only _ _ _ _ (fun _ _ => ?_) (by decide) ?_
    | refine replyDone_only _ _ _ (by decide) ?_

theorem execHoldRecheck_next (a1) (t : State) :
    ∃ u, Machine.execHoldRecheck a1 t = .next u ∧ Only [.aon, .pwr, .start, .therm, .out] t u := by
  refine ⟨_, rfl, ?_⟩
  try dsimp only
  repeat' first
    | with_reducible first
      | exact Only.refl
      | refine pushFrames_only _ (by decide) ?_
      | refine leaveHold_only (by decide) ?_
      | refine startConv_only _ _ (by decide) ?_
      | fail_if_no_progress refine Only.atTherm (by decide) ?_
    | split

end Sys2Proof.Laws
end

