-- ==== Sys2Proof/Laws/Registers.lean ====
section
/-!
SUPPORT. Which groups of state each operation of Machine/Registers.lean changes; it keeps every other group and the forms of the
memory and of the event ring.
-/
namespace Sys2Proof.Laws

open Sys2Proof.Machine

theorem expWrite_only {gs : List Group} {s t u : State} (m : [.aon] ⊆ gs) (k : Only gs s t) (h : Only gs s u) :
    Only gs s (Machine.expWrite t u) := by
  unfold Machine.expWrite
  split
  · exact h
  · exact noteDeny_only m k

theorem writeBox_only (a1) (a2) (a3) {gs : List Group} {s t : State} (m : [.mbx] ⊆ gs) (k : Only gs s t) :
    Only gs s (Machine.writeBox a1 a2 a3 t) := by
  refine Only.after (hs := [.mbx]) ?_ m k
  clear m k
  unfold Machine.writeBox
  try dsimp only
  repeat' first
    | with_reducible first | exact Only.refl | refine setBox_only _ _ (by decide) ?_
    | split

theorem writeReg_only (a1) (a2) (a3) {gs : List Group} {s t : State} (m : [.aon, .pmx, .store, .mbx, .log, .therm, .net, .lull, .mem, .mmu, .dma, .serve, .sealed, .link, .out, .freeCtr, .bytes] ⊆ gs) (k : Only gs s t) :
    Only gs s (Machine.writeReg a1 a2 a3 t) := by
  refine Only.after (hs := [.aon, .pmx, .store, .mbx, .log, .therm, .net, .lull, .mem, .mmu, .dma, .serve, .sealed, .link, .out, .freeCtr, .bytes]) ?_ m k
  clear m k
  unfold Machine.writeReg
  try dsimp only
  repeat' first
    | with_reducible first
      | exact Only.refl
      | refine writeBox_only _ _ _ (by decide) ?_
      | refine claimBox_only _ _ _ (by decide) ?_
      | refine renewBox_only _ _ _ (by decide) ?_
      | refine releaseBox_only _ _ _ (by decide) ?_
      | refine ringBell_only _ _ _ (by decide) ?_
      | refine writeEccwCtrl_only _ _ (by decide) ?_
      | refine writePmxPin_only _ _ (by decide) ?_
      | refine writeThsCtrl_only _ _ (by decide) ?_
      | refine writeGlkClear_only _ _ (by decide) ?_
      | refine writeEvlAck_only _ _ (by decide) ?_
      | refine kickChan_only _ _ _ (by decide) ?_
      | refine ringTail_only _ _ (by decide) ?_
      | refine ringRetire_only _ _ (by decide) ?_
      | refine expWrite_only (by decide) Only.refl ?_
      | fail_if_no_progress refine Only.atAon (by decide) ?_
      | fail_if_no_progress refine Only.atPmx (by decide) ?_
      | fail_if_no_progress refine Only.atMbx (by decide) ?_
      | fail_if_no_progress refine Only.atTherm (by decide) ?_
      | fail_if_no_progress refine Only.atMem (by decide) rfl ?_
      | fail_if_no_progress refine Only.atLink (by decide) ?_
    | fail_if_no_progress ((with_reducible refine Only.atLog (by decide) ?_ ?_) <;> try exact fun w => w)
    | split

theorem readBack_only (a1) {gs : List Group} {s t : State} (m : [.out] ⊆ gs) (k : Only gs s t) :
    Only gs s (Machine.readBack a1 t) := by
  refine Only.after (hs := [.out]) ?_ m k
  clear m k
  unfold Machine.readBack
  try dsimp only
  repeat' with_reducible first | exact Only.refl | fail_if_no_progress refine Only.atOut (by decide) ?_

theorem busWrite_only (a1) (a2) (a3) (a4) {gs : List Group} {s t : State} (m : [.aon, .pmx, .store, .mbx, .log, .therm, .net, .lull, .mem, .mmu, .dma, .serve, .sealed, .link, .out, .freeCtr, .bytes] ⊆ gs) (k : Only gs s t) :
    Only gs s (Machine.busWrite a1 a2 a3 a4 t) := by
  refine Only.after (hs := [.aon, .pmx, .store, .mbx, .log, .therm, .net, .lull, .mem, .mmu, .dma, .serve, .sealed, .link, .out, .freeCtr, .bytes]) ?_ m k
  clear m k
  unfold Machine.busWrite
  try dsimp only
  repeat' first
    | with_reducible first
      | exact Only.refl
      | refine noteOffline_only (by decide) ?_
      | refine noteReserved_only (by decide) ?_
      | refine writeReg_only _ _ _ (by decide) ?_
    | split

theorem busRead_only (a1) (a2) {gs : List Group} {s t : State} (m : [.aon, .out] ⊆ gs) (k : Only gs s t) :
    Only gs s (Machine.busRead a1 a2 t) := by
  refine Only.after (hs := [.aon, .out]) ?_ m k
  clear m k
  unfold Machine.busRead
  try dsimp only
  repeat' first
    | with_reducible first
      | exact Only.refl
      | refine readBack_only _ (by decide) ?_
      | refine noteOffline_only (by decide) ?_
      | refine noteReserved_only (by decide) ?_
      | fail_if_no_progress refine Only.atAon (by decide) ?_
    | split

theorem execRegisterWrite_next (a1) (a2) (a3) (a4) (t : State) :
    ∃ u, Machine.execRegisterWrite a1 a2 a3 a4 t = .next u ∧ Only [.aon, .pmx, .store, .mbx, .log, .therm, .net, .lull, .mem, .mmu, .dma, .serve, .sealed, .link, .out, .freeCtr, .bytes] t u := by
  refine ⟨_, rfl, ?_⟩
  try dsimp only
  repeat' first
    | with_reducible first | exact Only.refl | refine busWrite_only _ _ _ _ (by decide) ?_
    | split

theorem execReservedAccess_next (a1) (a2) (a3) (t : State) :
    ∃ u, Machine.execReservedAccess a1 a2 a3 t = .next u ∧ Only [.aon, .out] t u := by
  refine ⟨_, rfl, ?_⟩
  try dsimp only
  repeat' first
    | with_reducible first
      | exact Only.refl
      | refine noteReserved_only (by decide) ?_
      | refine readBack_only _ (by decide) ?_
    | split

theorem execOfflineAccess_next (a1) (a2) (a3) (t : State) :
    ∃ u, Machine.execOfflineAccess a1 a2 a3 t = .next u ∧ Only [.aon, .out] t u := by
  refine ⟨_, rfl, ?_⟩
  try dsimp only
  repeat' first
    | with_reducible first
      | exact Only.refl
      | refine noteOffline_only (by decide) ?_
      | refine readBack_only _ (by decide) ?_
    | split

theorem execAonTimeLoRead_next (t : State) :
    ∃ u, Machine.execAonTimeLoRead t = .next u ∧ Only [.aon, .out] t u := by
  refine ⟨_, rfl, ?_⟩
  try dsimp only
  repeat' first
    | with_reducible first | exact Only.refl | refine busRead_only _ _ (by decide) ?_
    | split

theorem execPrivateTransfer_next (a1) (a2) (t : State) :
    ∃ u, Machine.execPrivateTransfer a1 a2 t = .next u ∧ Only [.aon, .pmx, .store, .mbx, .log, .therm, .net, .lull, .mem, .mmu, .dma, .serve, .sealed, .link, .out, .freeCtr, .bytes] t u := by
  refine ⟨_, rfl, ?_⟩
  try dsimp only
  repeat' first
    | with_reducible first
      | exact Only.refl
      | refine busWrite_only _ _ _ _ (by decide) ?_
      | refine busRead_only _ _ (by decide) ?_
    | split

end Sys2Proof.Laws
end

