-- ==== Sys2Proof/Laws/Slices.lean ====
section
/-!
SUPPORT. Which groups of state each operation of Machine/Slices.lean changes; it keeps every other group and the forms of the
memory and of the event ring.
-/
namespace Sys2Proof.Laws

open Sys2Proof.Machine

theorem execSliceStreamCommand_next (a1) (a2) (a3) (a4) (t : State) :
    ∃ u, Machine.execSliceStreamCommand a1 a2 a3 a4 t = .next u ∧ Only [.store, .log, .bond, .mem, .serve, .sealed, .link, .out, .freeCtr, .bytes] t u := by
  refine ⟨_, rfl, ?_⟩
  try dsimp only
  repeat' first
    | with_reducible first | exact Only.refl | refine openStream_only _ _ _ _ (by decide) ?_
    | split

theorem execClusterWindowSet_next (a1) (a2) (a3) (t : State) :
    ∃ u, Machine.execClusterWindowSet a1 a2 a3 t = .next u ∧ Only [.bond, .out] t u := by
  refine ⟨_, rfl, ?_⟩
  try dsimp only
  repeat' first
    | with_reducible first
      | exact Only.refl
      | refine modPort_only _ _ (by decide) ?_
      | refine send_only _ (by decide) ?_
    | split

end Sys2Proof.Laws
end

