-- ==== Sys2Proof/Laws/Start.lean ====
section
/-!
SUPPORT. Which groups of state each operation of Machine/Start.lean changes; it keeps every other group and the forms of the
memory and of the event ring.
-/
namespace Sys2Proof.Laws

open Sys2Proof.Machine

theorem completeRun_only {gs : List Group} {s t : State} (m : [.log, .prot, .link, .out, .fuses] ⊆ gs) (k : Only gs s t) :
    Only gs s (Machine.completeRun t) := by
  refine Only.after (hs := [.log, .prot, .link, .out, .fuses]) ?_ m k
  clear m k
  unfold Machine.completeRun
  try dsimp only
  repeat' first
    | with_reducible first
      | exact Only.refl
      | refine logInfo_only _ _ _ _ (by decide) ?_
      | fail_if_no_progress refine Only.atFuses (by decide) (by decide) ?_
    | split

theorem orphanNote_only {gs : List Group} {s t : State} (m : [.store, .log, .prot, .link, .out] ⊆ gs) (k : Only gs s t) :
    Only gs s (Machine.orphanNote t) := by
  refine Only.after (hs := [.store, .log, .prot, .link, .out]) ?_ m k
  clear m k
  unfold Machine.orphanNote
  try dsimp only
  repeat' first
    | with_reducible first | exact Only.refl | refine logSec_only _ _ _ _ (by decide) ?_
    | with_reducible fail_if_no_progress refine Only.atStoreProt (by decide) (by decide) ⟨rfl, rfl⟩ ?_
    | split

theorem harvestAll_only (a1) (a2) {gs : List Group} {s t : State} (m : [.units] ⊆ gs) (k : Only gs s t) :
    Only gs s (Machine.harvestAll a1 a2 t) := by
  refine Only.after (hs := [.units]) ?_ m k
  clear m k
  induction a2 generalizing a1 t with
  | nil =>
    unfold Machine.harvestAll
    try dsimp only
    repeat' with_reducible exact Only.refl
  | cons x l ih =>
    unfold Machine.harvestAll
    try dsimp only
    repeat' with_reducible first
        | exact Only.refl
        | refine Only.trans ?_ (ih ..)
        | refine setUnitSt_only _ _ _ (by decide) ?_

theorem readStartRecord_only {gs : List Group} {s t : State} (m : [.aon, .start] ⊆ gs) (k : Only gs s t) :
    Only gs s (Machine.readStartRecord t) := by
  refine Only.after (hs := [.aon, .start]) ?_ m k
  clear m k
  unfold Machine.readStartRecord
  try dsimp only
  repeat' first
    | with_reducible exact Only.refl
    | with_reducible fail_if_no_progress refine Only.atAonStart (by decide) (by decide) ?_

theorem enterBoot_only (a1) {gs : List Group} {s t : State} (m : [.aon, .start] ⊆ gs) (k : Only gs s t) :
    Only gs s (Machine.enterBoot a1 t) := by
  refine Only.after (hs := [.aon, .start]) ?_ m k
  clear m k
  unfold Machine.enterBoot
  try dsimp only
  repeat' with_reducible first
    | exact Only.refl
    | refine enterPhase_only _ (by decide) ?_
    | fail_if_no_progress refine Only.atAon (by decide) ?_

theorem modSlot_only (a1) {gs : List Group} {s t : State} (m : [.store] ⊆ gs) (k : Only gs s t) :
    Only gs s (Machine.modSlot a1 t) := by
  refine Only.after (hs := [.store]) ?_ m k
  clear m k
  unfold Machine.modSlot
  try dsimp only
  repeat' first
    | with_reducible first | exact Only.refl | fail_if_no_progress refine Only.atStore (by decide) ?_
    | split

theorem slotFailed_only (a1) {gs : List Group} {s t : State} (m : [.aon, .pins, .clk, .pwr, .start, .store, .mbx, .log, .vane, .net, .coll, .lull, .bond, .mem, .mmu, .dma, .serve, .sealed, .link, .out, .freeCtr, .bytes] ⊆ gs) (k : Only gs s t) :
    Only gs s (Machine.slotFailed a1 t) := by
  refine Only.after (hs := [.aon, .pins, .clk, .pwr, .start, .store, .mbx, .log, .vane, .net, .coll, .lull, .bond, .mem, .mmu, .dma, .serve, .sealed, .link, .out, .freeCtr, .bytes]) ?_ m k
  clear m k
  unfold Machine.slotFailed
  try dsimp only
  repeat' first
    | with_reducible first
      | exact Only.refl
      | refine failStart_only _ (by decide) ?_
      | refine phaseExit_only _ (by decide) ?_
      | refine bankTimes_only (by decide) ?_
      | refine enterBoot_only _ (by decide) ?_
      | fail_if_no_progress refine Only.atStart (by decide) ?_
    | split

theorem openGate_only {gs : List Group} {s t : State} (m : [.aon, .pins, .start, .log, .units, .therm, .link, .out] ⊆ gs) (k : Only gs s t) :
    Only gs s (Machine.openGate t) := by
  refine Only.after (hs := [.aon, .pins, .start, .log, .units, .therm, .link, .out]) ?_ m k
  clear m k
  unfold Machine.openGate
  try dsimp only
  repeat' first
    | with_reducible first
      | exact Only.refl
      | refine enterPhase_only _ (by decide) ?_
      | refine phaseExit_only _ (by decide) ?_
      | refine trainPorts_only _ (by decide) ?_
    | with_reducible fail_if_no_progress refine Only.atAonPinsTherm (by decide) (by decide) (by decide) ?_

theorem execFuseReadDone_next (a1) (t : State) :
    ∃ u, Machine.execFuseReadDone a1 t = .next u ∧ Only [.aon, .pins, .clk, .pwr, .start, .store, .mbx, .log, .units, .prot, .vane, .net, .coll, .lull, .bond, .mem, .mmu, .dma, .serve, .sealed, .link, .out, .freeCtr, .bytes, .fuses] t u := by
  refine ⟨_, rfl, ?_⟩
  try dsimp only
  repeat' first
    | with_reducible first
      | exact Only.refl
      | refine readStartRecord_only (by decide) ?_
      | refine orphanNote_only (by decide) ?_
      | refine completeRun_only (by decide) ?_
      | refine enterDoldrums_only _ (by decide) ?_
      | refine phaseExit_only _ (by decide) ?_
      | refine failStart_only _ (by decide) ?_
      | refine harvestAll_only _ _ (by decide) ?_
      | refine applySliceRepairs_only (by decide) ?_
      | refine enterBoot_only _ (by decide) ?_
      | fail_if_no_progress refine Only.atStart (by decide) ?_
    | split

theorem execBootCopyDone_next (a1) (a2) (t : State) :
    ∃ u, Machine.execBootCopyDone a1 a2 t = .next u ∧ Only [.aon, .pins, .clk, .pwr, .start, .store, .mbx, .log, .vane, .net, .coll, .lull, .bond, .mem, .mmu, .dma, .serve, .sealed, .link, .out, .freeCtr, .bytes] t u := by
  refine ⟨_, rfl, ?_⟩
  try dsimp only
  repeat' first
    | with_reducible first
      | exact Only.refl
      | refine modSlot_only _ (by decide) ?_
      | refine enterPhase_only _ (by decide) ?_
      | refine phaseExit_only _ (by decide) ?_
      | refine slotFailed_only _ (by decide) ?_
    | split

theorem execAuthDone_next (a1) (a2) (a3) (t : State) :
    ∃ u, Machine.execAuthDone a1 a2 a3 t = .next u ∧ Only [.aon, .pins, .clk, .pwr, .start, .store, .mbx, .log, .units, .therm, .prot, .vane, .net, .coll, .lull, .bond, .mem, .mmu, .dma, .serve, .sealed, .link, .out, .freeCtr, .bytes] t u := by
  refine ⟨_, rfl, ?_⟩
  try dsimp only
  repeat' first
    | with_reducible first
      | exact Only.refl
      | refine slotFailed_only _ (by decide) ?_
      | refine modSlot_only _ (by decide) ?_
      | refine openGate_only (by decide) ?_
      | refine logSec_only _ _ _ _ (by decide) ?_
      | fail_if_no_progress refine Only.atStart (by decide) ?_
      | fail_if_no_progress refine Only.atProt (by decide) ⟨rfl, rfl⟩ ?_
    | split

theorem execPhaseBudgetExpiry_next (t : State) :
    ∃ u, Machine.execPhaseBudgetExpiry t = .next u ∧ Only [.aon, .pins, .clk, .pwr, .start, .store, .mbx, .log, .vane, .net, .coll, .lull, .bond, .mem, .mmu, .dma, .serve, .sealed, .link, .out, .freeCtr, .bytes] t u := by
  refine ⟨_, rfl, ?_⟩
  try dsimp only
  repeat' first
    | with_reducible first
      | exact Only.refl
      | refine failStart_only _ (by decide) ?_
      | refine powerDown_only (by decide) ?_
      | refine slotFailed_only _ (by decide) ?_
      | refine modSlot_only _ (by decide) ?_
      | refine vaneLoadFail_only _ (by decide) ?_
      | fail_if_no_progress refine Only.atStart (by decide) ?_
    | split

theorem execHoldReport_next (t : State) :
    ∃ u, Machine.execHoldReport t = .next u ∧ Only [.log, .link, .out] t u := by
  refine ⟨_, rfl, ?_⟩
  try dsimp only
  repeat' first
    | with_reducible first | exact Only.refl | refine logInfo_only _ _ _ _ (by decide) ?_
    | split

theorem execTrayDoneChange_next (a1) (t : State) :
    ∃ u, Machine.execTrayDoneChange a1 t = .next u ∧ Only [.aon, .pins, .start, .log, .serve, .link, .out] t u := by
  refine ⟨_, rfl, ?_⟩
  try dsimp only
  repeat' with_reducible first
    | exact Only.refl
    | refine joinRecheck_only (by decide) ?_
    | refine doneWatch_only (by decide) ?_
    | fail_if_no_progress refine Only.atPins (by decide) ?_

theorem execDoneStable_next (t : State) :
    ∃ u, Machine.execDoneStable t = .next u ∧ Only [.aon, .start, .log, .serve, .link, .out] t u := by
  refine ⟨_, rfl, ?_⟩
  try dsimp only
  repeat' first
    | with_reducible first
      | exact Only.refl
      | refine joinRecheck_only (by decide) ?_
      | fail_if_no_progress refine Only.atStart (by decide) ?_
    | split

theorem execJoinRecord_next (a1) (a2) (a3) (a4) (a5) (a6) (t : State) :
    ∃ u, Machine.execJoinRecord a1 a2 a3 a4 a5 a6 t = .next u ∧ Only [.aon, .start, .log, .units, .serve, .link, .out] t u := by
  refine ⟨_, rfl, ?_⟩
  try dsimp only
  repeat' first
    | with_reducible first
      | exact Only.refl
      | refine joinRecheck_only (by decide) ?_
      | refine noteJoin_only _ _ _ _ (by decide) ?_
      | refine relayJoin_only _ _ _ _ _ _ (by decide) ?_
    | split

theorem execJoinRecordTimer_next (t : State) :
    ∃ u, Machine.execJoinRecordTimer t = .next u ∧ Only [.out] t u := by
  refine ⟨_, rfl, ?_⟩
  try dsimp only
  repeat' first
    | with_reducible first | exact Only.refl | refine sendJoins_only (by decide) ?_
    | split

theorem execStartStatus_next (a1) (t : State) :
    ∃ u, Machine.execStartStatus a1 t = .next u ∧ Only [.mbx] t u := by
  refine ⟨_, rfl, ?_⟩
  try dsimp only
  repeat' with_reducible first
    | exact Only.refl
    | refine command_only _ _ _ _ (fun _ _ => ?_) (by decide) ?_
    | refine replyDone_only _ _ _ (by decide) ?_

theorem execStartRetry_next (a1) (t : State) :
    ∃ u, Machine.execStartRetry a1 t = .next u ∧ Only [.aon, .start, .store, .mbx] t u := by
  refine ⟨_, rfl, ?_⟩
  try dsimp only
  repeat' with_reducible first
    | exact Only.refl
    | refine command_only _ _ _ _ (fun _ _ => ?_) (by decide) ?_
    | refine setFailCnt_only _ (by decide) ?_
    | refine replyDone_only _ _ _ (by decide) ?_
    | fail_if_no_progress refine Only.atStart (by decide) ?_

theorem execFwSlotStatus_next (a1) (t : State) :
    ∃ u, Machine.execFwSlotStatus a1 t = .next u ∧ Only [.mbx] t u := by
  refine ⟨_, rfl, ?_⟩
  try dsimp only
  repeat' with_reducible first
    | exact Only.refl
    | refine command_only _ _ _ _ (fun _ _ => ?_) (by decide) ?_
    | refine replyDone_only _ _ _ (by decide) ?_

theorem execFwSlotWrite_next (a1) (t : State) :
    ∃ u, Machine.execFwSlotWrite a1 t = .next u ∧ Only [.store, .mbx] t u := by
  refine ⟨_, rfl, ?_⟩
  try dsimp only
  repeat' first
    | with_reducible first
      | exact Only.refl
      | refine command_only _ _ _ _ (fun _ _ => ?_) (by decide) ?_
      | refine replyDone_only _ _ _ (by decide) ?_
      | refine replyAccepted_only _ (by decide) ?_
      | fail_if_no_progress refine Only.atStore (by decide) ?_
    | split

theorem execFwSlotSelect_next (a1) (t : State) :
    ∃ u, Machine.execFwSlotSelect a1 t = .next u ∧ Only [.store, .mbx] t u := by
  refine ⟨_, rfl, ?_⟩
  try dsimp only
  repeat' with_reducible first
    | exact Only.refl
    | refine command_only _ _ _ _ (fun _ _ => ?_) (by decide) ?_
    | refine replyDone_only _ _ _ (by decide) ?_
    | fail_if_no_progress refine Only.atStore (by decide) ?_

end Sys2Proof.Laws
end

