-- ==== Sys2Proof/Laws/State.lean ====
section
/-!
SUPPORT. One lemma per field of the state for each operation that replaces one record of it: every other field stays, and the
record reads back as it was written, with every other record of its table as before.
-/
namespace Sys2Proof.Laws

open Sys2Proof.Machine

variable (s : State)

/-! ## send -/

@[simp] theorem send_aon (m : Msg) : (send m s).aon = s.aon := rfl
@[simp] theorem send_pins (m : Msg) : (send m s).pins = s.pins := rfl
@[simp] theorem send_pmx (m : Msg) : (send m s).pmx = s.pmx := rfl
@[simp] theorem send_clk (m : Msg) : (send m s).clk = s.clk := rfl
@[simp] theorem send_pwr (m : Msg) : (send m s).pwr = s.pwr := rfl
@[simp] theorem send_start (m : Msg) : (send m s).start = s.start := rfl
@[simp] theorem send_store (m : Msg) : (send m s).store = s.store := rfl
@[simp] theorem send_mbx (m : Msg) : (send m s).mbx = s.mbx := rfl
@[simp] theorem send_log (m : Msg) : (send m s).log = s.log := rfl
@[simp] theorem send_units (m : Msg) : (send m s).units = s.units := rfl
@[simp] theorem send_therm (m : Msg) : (send m s).therm = s.therm := rfl
@[simp] theorem send_prot (m : Msg) : (send m s).prot = s.prot := rfl
@[simp] theorem send_vane (m : Msg) : (send m s).vane = s.vane := rfl
@[simp] theorem send_net (m : Msg) : (send m s).net = s.net := rfl
@[simp] theorem send_coll (m : Msg) : (send m s).coll = s.coll := rfl
@[simp] theorem send_lull (m : Msg) : (send m s).lull = s.lull := rfl
@[simp] theorem send_bond (m : Msg) : (send m s).bond = s.bond := rfl
@[simp] theorem send_mem (m : Msg) : (send m s).mem = s.mem := rfl
@[simp] theorem send_mmu (m : Msg) : (send m s).mmu = s.mmu := rfl
@[simp] theorem send_dma (m : Msg) : (send m s).dma = s.dma := rfl
@[simp] theorem send_serve (m : Msg) : (send m s).serve = s.serve := rfl
@[simp] theorem send_sealed (m : Msg) : (send m s).sealed = s.sealed := rfl
@[simp] theorem send_link (m : Msg) : (send m s).link = s.link := rfl
@[simp] theorem send_freeCtr (m : Msg) : (send m s).freeCtr = s.freeCtr := rfl
@[simp] theorem send_pending (m : Msg) : (send m s).pending = s.pending := rfl

/-! ## setBox -/

@[simp] theorem setBox_aon (n : Nat) (m : Mbx) : (setBox n m s).aon = s.aon := rfl
@[simp] theorem setBox_pins (n : Nat) (m : Mbx) : (setBox n m s).pins = s.pins := rfl
@[simp] theorem setBox_pmx (n : Nat) (m : Mbx) : (setBox n m s).pmx = s.pmx := rfl
@[simp] theorem setBox_clk (n : Nat) (m : Mbx) : (setBox n m s).clk = s.clk := rfl
@[simp] theorem setBox_pwr (n : Nat) (m : Mbx) : (setBox n m s).pwr = s.pwr := rfl
@[simp] theorem setBox_start (n : Nat) (m : Mbx) : (setBox n m s).start = s.start := rfl
@[simp] theorem setBox_store (n : Nat) (m : Mbx) : (setBox n m s).store = s.store := rfl
@[simp] theorem setBox_log (n : Nat) (m : Mbx) : (setBox n m s).log = s.log := rfl
@[simp] theorem setBox_units (n : Nat) (m : Mbx) : (setBox n m s).units = s.units := rfl
@[simp] theorem setBox_therm (n : Nat) (m : Mbx) : (setBox n m s).therm = s.therm := rfl
@[simp] theorem setBox_prot (n : Nat) (m : Mbx) : (setBox n m s).prot = s.prot := rfl
@[simp] theorem setBox_vane (n : Nat) (m : Mbx) : (setBox n m s).vane = s.vane := rfl
@[simp] theorem setBox_net (n : Nat) (m : Mbx) : (setBox n m s).net = s.net := rfl
@[simp] theorem setBox_coll (n : Nat) (m : Mbx) : (setBox n m s).coll = s.coll := rfl
@[simp] theorem setBox_lull (n : Nat) (m : Mbx) : (setBox n m s).lull = s.lull := rfl
@[simp] theorem setBox_bond (n : Nat) (m : Mbx) : (setBox n m s).bond = s.bond := rfl
@[simp] theorem setBox_mem (n : Nat) (m : Mbx) : (setBox n m s).mem = s.mem := rfl
@[simp] theorem setBox_mmu (n : Nat) (m : Mbx) : (setBox n m s).mmu = s.mmu := rfl
@[simp] theorem setBox_dma (n : Nat) (m : Mbx) : (setBox n m s).dma = s.dma := rfl
@[simp] theorem setBox_serve (n : Nat) (m : Mbx) : (setBox n m s).serve = s.serve := rfl
@[simp] theorem setBox_sealed (n : Nat) (m : Mbx) : (setBox n m s).sealed = s.sealed := rfl
@[simp] theorem setBox_link (n : Nat) (m : Mbx) : (setBox n m s).link = s.link := rfl
@[simp] theorem setBox_out (n : Nat) (m : Mbx) : (setBox n m s).out = s.out := rfl
@[simp] theorem setBox_freeCtr (n : Nat) (m : Mbx) : (setBox n m s).freeCtr = s.freeCtr := rfl
@[simp] theorem setBox_pending (n : Nat) (m : Mbx) : (setBox n m s).pending = s.pending := rfl

/-! ## setUnitRec -/

@[simp] theorem setUnitRec_aon (ut inst : Nat) (r : UnitRec) : (setUnitRec ut inst r s).aon = s.aon := rfl
@[simp] theorem setUnitRec_pins (ut inst : Nat) (r : UnitRec) : (setUnitRec ut inst r s).pins = s.pins := rfl
@[simp] theorem setUnitRec_pmx (ut inst : Nat) (r : UnitRec) : (setUnitRec ut inst r s).pmx = s.pmx := rfl
@[simp] theorem setUnitRec_clk (ut inst : Nat) (r : UnitRec) : (setUnitRec ut inst r s).clk = s.clk := rfl
@[simp] theorem setUnitRec_pwr (ut inst : Nat) (r : UnitRec) : (setUnitRec ut inst r s).pwr = s.pwr := rfl
@[simp] theorem setUnitRec_start (ut inst : Nat) (r : UnitRec) : (setUnitRec ut inst r s).start = s.start := rfl
@[simp] theorem setUnitRec_store (ut inst : Nat) (r : UnitRec) : (setUnitRec ut inst r s).store = s.store := rfl
@[simp] theorem setUnitRec_mbx (ut inst : Nat) (r : UnitRec) : (setUnitRec ut inst r s).mbx = s.mbx := rfl
@[simp] theorem setUnitRec_log (ut inst : Nat) (r : UnitRec) : (setUnitRec ut inst r s).log = s.log := rfl
@[simp] theorem setUnitRec_therm (ut inst : Nat) (r : UnitRec) : (setUnitRec ut inst r s).therm = s.therm := rfl
@[simp] theorem setUnitRec_prot (ut inst : Nat) (r : UnitRec) : (setUnitRec ut inst r s).prot = s.prot := rfl
@[simp] theorem setUnitRec_vane (ut inst : Nat) (r : UnitRec) : (setUnitRec ut inst r s).vane = s.vane := rfl
@[simp] theorem setUnitRec_net (ut inst : Nat) (r : UnitRec) : (setUnitRec ut inst r s).net = s.net := rfl
@[simp] theorem setUnitRec_coll (ut inst : Nat) (r : UnitRec) : (setUnitRec ut inst r s).coll = s.coll := rfl
@[simp] theorem setUnitRec_lull (ut inst : Nat) (r : UnitRec) : (setUnitRec ut inst r s).lull = s.lull := rfl
@[simp] theorem setUnitRec_bond (ut inst : Nat) (r : UnitRec) : (setUnitRec ut inst r s).bond = s.bond := rfl
@[simp] theorem setUnitRec_mem (ut inst : Nat) (r : UnitRec) : (setUnitRec ut inst r s).mem = s.mem := rfl
@[simp] theorem setUnitRec_mmu (ut inst : Nat) (r : UnitRec) : (setUnitRec ut inst r s).mmu = s.mmu := rfl
@[simp] theorem setUnitRec_dma (ut inst : Nat) (r : UnitRec) : (setUnitRec ut inst r s).dma = s.dma := rfl
@[simp] theorem setUnitRec_serve (ut inst : Nat) (r : UnitRec) : (setUnitRec ut inst r s).serve = s.serve := rfl
@[simp] theorem setUnitRec_sealed (ut inst : Nat) (r : UnitRec) : (setUnitRec ut inst r s).sealed = s.sealed := rfl
@[simp] theorem setUnitRec_link (ut inst : Nat) (r : UnitRec) : (setUnitRec ut inst r s).link = s.link := rfl
@[simp] theorem setUnitRec_out (ut inst : Nat) (r : UnitRec) : (setUnitRec ut inst r s).out = s.out := rfl
@[simp] theorem setUnitRec_freeCtr (ut inst : Nat) (r : UnitRec) : (setUnitRec ut inst r s).freeCtr = s.freeCtr := rfl
@[simp] theorem setUnitRec_pending (ut inst : Nat) (r : UnitRec) : (setUnitRec ut inst r s).pending = s.pending := rfl

/-! ## setFrame -/

@[simp] theorem setFrame_aon (f : Nat) (r : FrameRec) : (setFrame f r s).aon = s.aon := rfl
@[simp] theorem setFrame_pins (f : Nat) (r : FrameRec) : (setFrame f r s).pins = s.pins := rfl
@[simp] theorem setFrame_pmx (f : Nat) (r : FrameRec) : (setFrame f r s).pmx = s.pmx := rfl
@[simp] theorem setFrame_clk (f : Nat) (r : FrameRec) : (setFrame f r s).clk = s.clk := rfl
@[simp] theorem setFrame_pwr (f : Nat) (r : FrameRec) : (setFrame f r s).pwr = s.pwr := rfl
@[simp] theorem setFrame_start (f : Nat) (r : FrameRec) : (setFrame f r s).start = s.start := rfl
@[simp] theorem setFrame_store (f : Nat) (r : FrameRec) : (setFrame f r s).store = s.store := rfl
@[simp] theorem setFrame_mbx (f : Nat) (r : FrameRec) : (setFrame f r s).mbx = s.mbx := rfl
@[simp] theorem setFrame_log (f : Nat) (r : FrameRec) : (setFrame f r s).log = s.log := rfl
@[simp] theorem setFrame_units (f : Nat) (r : FrameRec) : (setFrame f r s).units = s.units := rfl
@[simp] theorem setFrame_therm (f : Nat) (r : FrameRec) : (setFrame f r s).therm = s.therm := rfl
@[simp] theorem setFrame_prot (f : Nat) (r : FrameRec) : (setFrame f r s).prot = s.prot := rfl
@[simp] theorem setFrame_vane (f : Nat) (r : FrameRec) : (setFrame f r s).vane = s.vane := rfl
@[simp] theorem setFrame_net (f : Nat) (r : FrameRec) : (setFrame f r s).net = s.net := rfl
@[simp] theorem setFrame_coll (f : Nat) (r : FrameRec) : (setFrame f r s).coll = s.coll := rfl
@[simp] theorem setFrame_lull (f : Nat) (r : FrameRec) : (setFrame f r s).lull = s.lull := rfl
@[simp] theorem setFrame_bond (f : Nat) (r : FrameRec) : (setFrame f r s).bond = s.bond := rfl
@[simp] theorem setFrame_mmu (f : Nat) (r : FrameRec) : (setFrame f r s).mmu = s.mmu := rfl
@[simp] theorem setFrame_dma (f : Nat) (r : FrameRec) : (setFrame f r s).dma = s.dma := rfl
@[simp] theorem setFrame_serve (f : Nat) (r : FrameRec) : (setFrame f r s).serve = s.serve := rfl
@[simp] theorem setFrame_sealed (f : Nat) (r : FrameRec) : (setFrame f r s).sealed = s.sealed := rfl
@[simp] theorem setFrame_link (f : Nat) (r : FrameRec) : (setFrame f r s).link = s.link := rfl
@[simp] theorem setFrame_out (f : Nat) (r : FrameRec) : (setFrame f r s).out = s.out := rfl
@[simp] theorem setFrame_freeCtr (f : Nat) (r : FrameRec) : (setFrame f r s).freeCtr = s.freeCtr := rfl
@[simp] theorem setFrame_pending (f : Nat) (r : FrameRec) : (setFrame f r s).pending = s.pending := rfl

/-! ## setHregion -/

@[simp] theorem setHregion_aon (r : Nat) (x : HbmRegion) : (setHregion r x s).aon = s.aon := rfl
@[simp] theorem setHregion_pins (r : Nat) (x : HbmRegion) : (setHregion r x s).pins = s.pins := rfl
@[simp] theorem setHregion_pmx (r : Nat) (x : HbmRegion) : (setHregion r x s).pmx = s.pmx := rfl
@[simp] theorem setHregion_clk (r : Nat) (x : HbmRegion) : (setHregion r x s).clk = s.clk := rfl
@[simp] theorem setHregion_pwr (r : Nat) (x : HbmRegion) : (setHregion r x s).pwr = s.pwr := rfl
@[simp] theorem setHregion_start (r : Nat) (x : HbmRegion) : (setHregion r x s).start = s.start := rfl
@[simp] theorem setHregion_store (r : Nat) (x : HbmRegion) : (setHregion r x s).store = s.store := rfl
@[simp] theorem setHregion_mbx (r : Nat) (x : HbmRegion) : (setHregion r x s).mbx = s.mbx := rfl
@[simp] theorem setHregion_log (r : Nat) (x : HbmRegion) : (setHregion r x s).log = s.log := rfl
@[simp] theorem setHregion_units (r : Nat) (x : HbmRegion) : (setHregion r x s).units = s.units := rfl
@[simp] theorem setHregion_therm (r : Nat) (x : HbmRegion) : (setHregion r x s).therm = s.therm := rfl
@[simp] theorem setHregion_prot (r : Nat) (x : HbmRegion) : (setHregion r x s).prot = s.prot := rfl
@[simp] theorem setHregion_vane (r : Nat) (x : HbmRegion) : (setHregion r x s).vane = s.vane := rfl
@[simp] theorem setHregion_net (r : Nat) (x : HbmRegion) : (setHregion r x s).net = s.net := rfl
@[simp] theorem setHregion_coll (r : Nat) (x : HbmRegion) : (setHregion r x s).coll = s.coll := rfl
@[simp] theorem setHregion_lull (r : Nat) (x : HbmRegion) : (setHregion r x s).lull = s.lull := rfl
@[simp] theorem setHregion_bond (r : Nat) (x : HbmRegion) : (setHregion r x s).bond = s.bond := rfl
@[simp] theorem setHregion_mmu (r : Nat) (x : HbmRegion) : (setHregion r x s).mmu = s.mmu := rfl
@[simp] theorem setHregion_dma (r : Nat) (x : HbmRegion) : (setHregion r x s).dma = s.dma := rfl
@[simp] theorem setHregion_serve (r : Nat) (x : HbmRegion) : (setHregion r x s).serve = s.serve := rfl
@[simp] theorem setHregion_sealed (r : Nat) (x : HbmRegion) : (setHregion r x s).sealed = s.sealed := rfl
@[simp] theorem setHregion_link (r : Nat) (x : HbmRegion) : (setHregion r x s).link = s.link := rfl
@[simp] theorem setHregion_out (r : Nat) (x : HbmRegion) : (setHregion r x s).out = s.out := rfl
@[simp] theorem setHregion_freeCtr (r : Nat) (x : HbmRegion) : (setHregion r x s).freeCtr = s.freeCtr := rfl
@[simp] theorem setHregion_pending (r : Nat) (x : HbmRegion) : (setHregion r x s).pending = s.pending := rfl

/-! ## setFlaw -/

@[simp] theorem setFlaw_aon (a : Nat) (f : Flaw) : (setFlaw a f s).aon = s.aon := rfl
@[simp] theorem setFlaw_pins (a : Nat) (f : Flaw) : (setFlaw a f s).pins = s.pins := rfl
@[simp] theorem setFlaw_pmx (a : Nat) (f : Flaw) : (setFlaw a f s).pmx = s.pmx := rfl
@[simp] theorem setFlaw_clk (a : Nat) (f : Flaw) : (setFlaw a f s).clk = s.clk := rfl
@[simp] theorem setFlaw_pwr (a : Nat) (f : Flaw) : (setFlaw a f s).pwr = s.pwr := rfl
@[simp] theorem setFlaw_start (a : Nat) (f : Flaw) : (setFlaw a f s).start = s.start := rfl
@[simp] theorem setFlaw_store (a : Nat) (f : Flaw) : (setFlaw a f s).store = s.store := rfl
@[simp] theorem setFlaw_mbx (a : Nat) (f : Flaw) : (setFlaw a f s).mbx = s.mbx := rfl
@[simp] theorem setFlaw_log (a : Nat) (f : Flaw) : (setFlaw a f s).log = s.log := rfl
@[simp] theorem setFlaw_units (a : Nat) (f : Flaw) : (setFlaw a f s).units = s.units := rfl
@[simp] theorem setFlaw_therm (a : Nat) (f : Flaw) : (setFlaw a f s).therm = s.therm := rfl
@[simp] theorem setFlaw_prot (a : Nat) (f : Flaw) : (setFlaw a f s).prot = s.prot := rfl
@[simp] theorem setFlaw_vane (a : Nat) (f : Flaw) : (setFlaw a f s).vane = s.vane := rfl
@[simp] theorem setFlaw_net (a : Nat) (f : Flaw) : (setFlaw a f s).net = s.net := rfl
@[simp] theorem setFlaw_coll (a : Nat) (f : Flaw) : (setFlaw a f s).coll = s.coll := rfl
@[simp] theorem setFlaw_lull (a : Nat) (f : Flaw) : (setFlaw a f s).lull = s.lull := rfl
@[simp] theorem setFlaw_bond (a : Nat) (f : Flaw) : (setFlaw a f s).bond = s.bond := rfl
@[simp] theorem setFlaw_mmu (a : Nat) (f : Flaw) : (setFlaw a f s).mmu = s.mmu := rfl
@[simp] theorem setFlaw_dma (a : Nat) (f : Flaw) : (setFlaw a f s).dma = s.dma := rfl
@[simp] theorem setFlaw_serve (a : Nat) (f : Flaw) : (setFlaw a f s).serve = s.serve := rfl
@[simp] theorem setFlaw_sealed (a : Nat) (f : Flaw) : (setFlaw a f s).sealed = s.sealed := rfl
@[simp] theorem setFlaw_link (a : Nat) (f : Flaw) : (setFlaw a f s).link = s.link := rfl
@[simp] theorem setFlaw_out (a : Nat) (f : Flaw) : (setFlaw a f s).out = s.out := rfl
@[simp] theorem setFlaw_freeCtr (a : Nat) (f : Flaw) : (setFlaw a f s).freeCtr = s.freeCtr := rfl
@[simp] theorem setFlaw_pending (a : Nat) (f : Flaw) : (setFlaw a f s).pending = s.pending := rfl

/-! ## setUnit -/

@[simp] theorem setUnit_aon (node unit : Nat) (o : Option Nat) : (setUnit node unit o s).aon = s.aon := rfl
@[simp] theorem setUnit_pins (node unit : Nat) (o : Option Nat) : (setUnit node unit o s).pins = s.pins := rfl
@[simp] theorem setUnit_pmx (node unit : Nat) (o : Option Nat) : (setUnit node unit o s).pmx = s.pmx := rfl
@[simp] theorem setUnit_clk (node unit : Nat) (o : Option Nat) : (setUnit node unit o s).clk = s.clk := rfl
@[simp] theorem setUnit_pwr (node unit : Nat) (o : Option Nat) : (setUnit node unit o s).pwr = s.pwr := rfl
@[simp] theorem setUnit_start (node unit : Nat) (o : Option Nat) : (setUnit node unit o s).start = s.start := rfl
@[simp] theorem setUnit_store (node unit : Nat) (o : Option Nat) : (setUnit node unit o s).store = s.store := rfl
@[simp] theorem setUnit_mbx (node unit : Nat) (o : Option Nat) : (setUnit node unit o s).mbx = s.mbx := rfl
@[simp] theorem setUnit_log (node unit : Nat) (o : Option Nat) : (setUnit node unit o s).log = s.log := rfl
@[simp] theorem setUnit_units (node unit : Nat) (o : Option Nat) : (setUnit node unit o s).units = s.units := rfl
@[simp] theorem setUnit_therm (node unit : Nat) (o : Option Nat) : (setUnit node unit o s).therm = s.therm := rfl
@[simp] theorem setUnit_prot (node unit : Nat) (o : Option Nat) : (setUnit node unit o s).prot = s.prot := rfl
@[simp] theorem setUnit_vane (node unit : Nat) (o : Option Nat) : (setUnit node unit o s).vane = s.vane := rfl
@[simp] theorem setUnit_net (node unit : Nat) (o : Option Nat) : (setUnit node unit o s).net = s.net := rfl
@[simp] theorem setUnit_coll (node unit : Nat) (o : Option Nat) : (setUnit node unit o s).coll = s.coll := rfl
@[simp] theorem setUnit_lull (node unit : Nat) (o : Option Nat) : (setUnit node unit o s).lull = s.lull := rfl
@[simp] theorem setUnit_bond (node unit : Nat) (o : Option Nat) : (setUnit node unit o s).bond = s.bond := rfl
@[simp] theorem setUnit_mmu (node unit : Nat) (o : Option Nat) : (setUnit node unit o s).mmu = s.mmu := rfl
@[simp] theorem setUnit_dma (node unit : Nat) (o : Option Nat) : (setUnit node unit o s).dma = s.dma := rfl
@[simp] theorem setUnit_serve (node unit : Nat) (o : Option Nat) : (setUnit node unit o s).serve = s.serve := rfl
@[simp] theorem setUnit_sealed (node unit : Nat) (o : Option Nat) : (setUnit node unit o s).sealed = s.sealed := rfl
@[simp] theorem setUnit_link (node unit : Nat) (o : Option Nat) : (setUnit node unit o s).link = s.link := rfl
@[simp] theorem setUnit_out (node unit : Nat) (o : Option Nat) : (setUnit node unit o s).out = s.out := rfl
@[simp] theorem setUnit_freeCtr (node unit : Nat) (o : Option Nat) : (setUnit node unit o s).freeCtr = s.freeCtr := rfl
@[simp] theorem setUnit_pending (node unit : Nat) (o : Option Nat) : (setUnit node unit o s).pending = s.pending := rfl

/-! ## setPin -/

@[simp] theorem setPin_aon (n : Fin 24) (p : PmxPin) : (setPin n p s).aon = s.aon := rfl
@[simp] theorem setPin_pins (n : Fin 24) (p : PmxPin) : (setPin n p s).pins = s.pins := rfl
@[simp] theorem setPin_clk (n : Fin 24) (p : PmxPin) : (setPin n p s).clk = s.clk := rfl
@[simp] theorem setPin_pwr (n : Fin 24) (p : PmxPin) : (setPin n p s).pwr = s.pwr := rfl
@[simp] theorem setPin_start (n : Fin 24) (p : PmxPin) : (setPin n p s).start = s.start := rfl
@[simp] theorem setPin_store (n : Fin 24) (p : PmxPin) : (setPin n p s).store = s.store := rfl
@[simp] theorem setPin_mbx (n : Fin 24) (p : PmxPin) : (setPin n p s).mbx = s.mbx := rfl
@[simp] theorem setPin_log (n : Fin 24) (p : PmxPin) : (setPin n p s).log = s.log := rfl
@[simp] theorem setPin_units (n : Fin 24) (p : PmxPin) : (setPin n p s).units = s.units := rfl
@[simp] theorem setPin_therm (n : Fin 24) (p : PmxPin) : (setPin n p s).therm = s.therm := rfl
@[simp] theorem setPin_prot (n : Fin 24) (p : PmxPin) : (setPin n p s).prot = s.prot := rfl
@[simp] theorem setPin_vane (n : Fin 24) (p : PmxPin) : (setPin n p s).vane = s.vane := rfl
@[simp] theorem setPin_net (n : Fin 24) (p : PmxPin) : (setPin n p s).net = s.net := rfl
@[simp] theorem setPin_coll (n : Fin 24) (p : PmxPin) : (setPin n p s).coll = s.coll := rfl
@[simp] theorem setPin_lull (n : Fin 24) (p : PmxPin) : (setPin n p s).lull = s.lull := rfl
@[simp] theorem setPin_bond (n : Fin 24) (p : PmxPin) : (setPin n p s).bond = s.bond := rfl
@[simp] theorem setPin_mem (n : Fin 24) (p : PmxPin) : (setPin n p s).mem = s.mem := rfl
@[simp] theorem setPin_mmu (n : Fin 24) (p : PmxPin) : (setPin n p s).mmu = s.mmu := rfl
@[simp] theorem setPin_dma (n : Fin 24) (p : PmxPin) : (setPin n p s).dma = s.dma := rfl
@[simp] theorem setPin_serve (n : Fin 24) (p : PmxPin) : (setPin n p s).serve = s.serve := rfl
@[simp] theorem setPin_sealed (n : Fin 24) (p : PmxPin) : (setPin n p s).sealed = s.sealed := rfl
@[simp] theorem setPin_link (n : Fin 24) (p : PmxPin) : (setPin n p s).link = s.link := rfl
@[simp] theorem setPin_out (n : Fin 24) (p : PmxPin) : (setPin n p s).out = s.out := rfl
@[simp] theorem setPin_freeCtr (n : Fin 24) (p : PmxPin) : (setPin n p s).freeCtr = s.freeCtr := rfl
@[simp] theorem setPin_pending (n : Fin 24) (p : PmxPin) : (setPin n p s).pending = s.pending := rfl

/-! ## setRegion -/

@[simp] theorem setRegion_aon (r : Nat) (x : OpenRegion) : (setRegion r x s).aon = s.aon := rfl
@[simp] theorem setRegion_pins (r : Nat) (x : OpenRegion) : (setRegion r x s).pins = s.pins := rfl
@[simp] theorem setRegion_pmx (r : Nat) (x : OpenRegion) : (setRegion r x s).pmx = s.pmx := rfl
@[simp] theorem setRegion_clk (r : Nat) (x : OpenRegion) : (setRegion r x s).clk = s.clk := rfl
@[simp] theorem setRegion_pwr (r : Nat) (x : OpenRegion) : (setRegion r x s).pwr = s.pwr := rfl
@[simp] theorem setRegion_start (r : Nat) (x : OpenRegion) : (setRegion r x s).start = s.start := rfl
@[simp] theorem setRegion_store (r : Nat) (x : OpenRegion) : (setRegion r x s).store = s.store := rfl
@[simp] theorem setRegion_mbx (r : Nat) (x : OpenRegion) : (setRegion r x s).mbx = s.mbx := rfl
@[simp] theorem setRegion_log (r : Nat) (x : OpenRegion) : (setRegion r x s).log = s.log := rfl
@[simp] theorem setRegion_units (r : Nat) (x : OpenRegion) : (setRegion r x s).units = s.units := rfl
@[simp] theorem setRegion_therm (r : Nat) (x : OpenRegion) : (setRegion r x s).therm = s.therm := rfl
@[simp] theorem setRegion_prot (r : Nat) (x : OpenRegion) : (setRegion r x s).prot = s.prot := rfl
@[simp] theorem setRegion_net (r : Nat) (x : OpenRegion) : (setRegion r x s).net = s.net := rfl
@[simp] theorem setRegion_coll (r : Nat) (x : OpenRegion) : (setRegion r x s).coll = s.coll := rfl
@[simp] theorem setRegion_lull (r : Nat) (x : OpenRegion) : (setRegion r x s).lull = s.lull := rfl
@[simp] theorem setRegion_bond (r : Nat) (x : OpenRegion) : (setRegion r x s).bond = s.bond := rfl
@[simp] theorem setRegion_mem (r : Nat) (x : OpenRegion) : (setRegion r x s).mem = s.mem := rfl
@[simp] theorem setRegion_mmu (r : Nat) (x : OpenRegion) : (setRegion r x s).mmu = s.mmu := rfl
@[simp] theorem setRegion_dma (r : Nat) (x : OpenRegion) : (setRegion r x s).dma = s.dma := rfl
@[simp] theorem setRegion_serve (r : Nat) (x : OpenRegion) : (setRegion r x s).serve = s.serve := rfl
@[simp] theorem setRegion_sealed (r : Nat) (x : OpenRegion) : (setRegion r x s).sealed = s.sealed := rfl
@[simp] theorem setRegion_link (r : Nat) (x : OpenRegion) : (setRegion r x s).link = s.link := rfl
@[simp] theorem setRegion_out (r : Nat) (x : OpenRegion) : (setRegion r x s).out = s.out := rfl
@[simp] theorem setRegion_freeCtr (r : Nat) (x : OpenRegion) : (setRegion r x s).freeCtr = s.freeCtr := rfl
@[simp] theorem setRegion_pending (r : Nat) (x : OpenRegion) : (setRegion r x s).pending = s.pending := rfl

/-! ## setObj -/

@[simp] theorem setObj_aon (o : Nat) (x : LObj) : (setObj o x s).aon = s.aon := rfl
@[simp] theorem setObj_pins (o : Nat) (x : LObj) : (setObj o x s).pins = s.pins := rfl
@[simp] theorem setObj_pmx (o : Nat) (x : LObj) : (setObj o x s).pmx = s.pmx := rfl
@[simp] theorem setObj_clk (o : Nat) (x : LObj) : (setObj o x s).clk = s.clk := rfl
@[simp] theorem setObj_pwr (o : Nat) (x : LObj) : (setObj o x s).pwr = s.pwr := rfl
@[simp] theorem setObj_start (o : Nat) (x : LObj) : (setObj o x s).start = s.start := rfl
@[simp] theorem setObj_store (o : Nat) (x : LObj) : (setObj o x s).store = s.store := rfl
@[simp] theorem setObj_mbx (o : Nat) (x : LObj) : (setObj o x s).mbx = s.mbx := rfl
@[simp] theorem setObj_log (o : Nat) (x : LObj) : (setObj o x s).log = s.log := rfl
@[simp] theorem setObj_units (o : Nat) (x : LObj) : (setObj o x s).units = s.units := rfl
@[simp] theorem setObj_therm (o : Nat) (x : LObj) : (setObj o x s).therm = s.therm := rfl
@[simp] theorem setObj_prot (o : Nat) (x : LObj) : (setObj o x s).prot = s.prot := rfl
@[simp] theorem setObj_vane (o : Nat) (x : LObj) : (setObj o x s).vane = s.vane := rfl
@[simp] theorem setObj_net (o : Nat) (x : LObj) : (setObj o x s).net = s.net := rfl
@[simp] theorem setObj_coll (o : Nat) (x : LObj) : (setObj o x s).coll = s.coll := rfl
@[simp] theorem setObj_bond (o : Nat) (x : LObj) : (setObj o x s).bond = s.bond := rfl
@[simp] theorem setObj_mem (o : Nat) (x : LObj) : (setObj o x s).mem = s.mem := rfl
@[simp] theorem setObj_mmu (o : Nat) (x : LObj) : (setObj o x s).mmu = s.mmu := rfl
@[simp] theorem setObj_dma (o : Nat) (x : LObj) : (setObj o x s).dma = s.dma := rfl
@[simp] theorem setObj_serve (o : Nat) (x : LObj) : (setObj o x s).serve = s.serve := rfl
@[simp] theorem setObj_sealed (o : Nat) (x : LObj) : (setObj o x s).sealed = s.sealed := rfl
@[simp] theorem setObj_link (o : Nat) (x : LObj) : (setObj o x s).link = s.link := rfl
@[simp] theorem setObj_out (o : Nat) (x : LObj) : (setObj o x s).out = s.out := rfl
@[simp] theorem setObj_freeCtr (o : Nat) (x : LObj) : (setObj o x s).freeCtr = s.freeCtr := rfl
@[simp] theorem setObj_pending (o : Nat) (x : LObj) : (setObj o x s).pending = s.pending := rfl

/-! ## setRed -/

@[simp] theorem setRed_aon (g : Nat) (r : RedGroup) : (setRed g r s).aon = s.aon := rfl
@[simp] theorem setRed_pins (g : Nat) (r : RedGroup) : (setRed g r s).pins = s.pins := rfl
@[simp] theorem setRed_pmx (g : Nat) (r : RedGroup) : (setRed g r s).pmx = s.pmx := rfl
@[simp] theorem setRed_clk (g : Nat) (r : RedGroup) : (setRed g r s).clk = s.clk := rfl
@[simp] theorem setRed_pwr (g : Nat) (r : RedGroup) : (setRed g r s).pwr = s.pwr := rfl
@[simp] theorem setRed_start (g : Nat) (r : RedGroup) : (setRed g r s).start = s.start := rfl
@[simp] theorem setRed_store (g : Nat) (r : RedGroup) : (setRed g r s).store = s.store := rfl
@[simp] theorem setRed_mbx (g : Nat) (r : RedGroup) : (setRed g r s).mbx = s.mbx := rfl
@[simp] theorem setRed_log (g : Nat) (r : RedGroup) : (setRed g r s).log = s.log := rfl
@[simp] theorem setRed_units (g : Nat) (r : RedGroup) : (setRed g r s).units = s.units := rfl
@[simp] theorem setRed_therm (g : Nat) (r : RedGroup) : (setRed g r s).therm = s.therm := rfl
@[simp] theorem setRed_prot (g : Nat) (r : RedGroup) : (setRed g r s).prot = s.prot := rfl
@[simp] theorem setRed_vane (g : Nat) (r : RedGroup) : (setRed g r s).vane = s.vane := rfl
@[simp] theorem setRed_net (g : Nat) (r : RedGroup) : (setRed g r s).net = s.net := rfl
@[simp] theorem setRed_lull (g : Nat) (r : RedGroup) : (setRed g r s).lull = s.lull := rfl
@[simp] theorem setRed_bond (g : Nat) (r : RedGroup) : (setRed g r s).bond = s.bond := rfl
@[simp] theorem setRed_mem (g : Nat) (r : RedGroup) : (setRed g r s).mem = s.mem := rfl
@[simp] theorem setRed_mmu (g : Nat) (r : RedGroup) : (setRed g r s).mmu = s.mmu := rfl
@[simp] theorem setRed_dma (g : Nat) (r : RedGroup) : (setRed g r s).dma = s.dma := rfl
@[simp] theorem setRed_serve (g : Nat) (r : RedGroup) : (setRed g r s).serve = s.serve := rfl
@[simp] theorem setRed_sealed (g : Nat) (r : RedGroup) : (setRed g r s).sealed = s.sealed := rfl
@[simp] theorem setRed_link (g : Nat) (r : RedGroup) : (setRed g r s).link = s.link := rfl
@[simp] theorem setRed_out (g : Nat) (r : RedGroup) : (setRed g r s).out = s.out := rfl
@[simp] theorem setRed_freeCtr (g : Nat) (r : RedGroup) : (setRed g r s).freeCtr = s.freeCtr := rfl
@[simp] theorem setRed_pending (g : Nat) (r : RedGroup) : (setRed g r s).pending = s.pending := rfl

/-! ## modTile -/

@[simp] theorem modTile_aon (q : Fin 4) (f : TileRec → TileRec) : (modTile q f s).aon = s.aon := rfl
@[simp] theorem modTile_pins (q : Fin 4) (f : TileRec → TileRec) : (modTile q f s).pins = s.pins := rfl
@[simp] theorem modTile_pmx (q : Fin 4) (f : TileRec → TileRec) : (modTile q f s).pmx = s.pmx := rfl
@[simp] theorem modTile_clk (q : Fin 4) (f : TileRec → TileRec) : (modTile q f s).clk = s.clk := rfl
@[simp] theorem modTile_pwr (q : Fin 4) (f : TileRec → TileRec) : (modTile q f s).pwr = s.pwr := rfl
@[simp] theorem modTile_start (q : Fin 4) (f : TileRec → TileRec) : (modTile q f s).start = s.start := rfl
@[simp] theorem modTile_store (q : Fin 4) (f : TileRec → TileRec) : (modTile q f s).store = s.store := rfl
@[simp] theorem modTile_mbx (q : Fin 4) (f : TileRec → TileRec) : (modTile q f s).mbx = s.mbx := rfl
@[simp] theorem modTile_log (q : Fin 4) (f : TileRec → TileRec) : (modTile q f s).log = s.log := rfl
@[simp] theorem modTile_units (q : Fin 4) (f : TileRec → TileRec) : (modTile q f s).units = s.units := rfl
@[simp] theorem modTile_therm (q : Fin 4) (f : TileRec → TileRec) : (modTile q f s).therm = s.therm := rfl
@[simp] theorem modTile_prot (q : Fin 4) (f : TileRec → TileRec) : (modTile q f s).prot = s.prot := rfl
@[simp] theorem modTile_vane (q : Fin 4) (f : TileRec → TileRec) : (modTile q f s).vane = s.vane := rfl
@[simp] theorem modTile_net (q : Fin 4) (f : TileRec → TileRec) : (modTile q f s).net = s.net := rfl
@[simp] theorem modTile_coll (q : Fin 4) (f : TileRec → TileRec) : (modTile q f s).coll = s.coll := rfl
@[simp] theorem modTile_lull (q : Fin 4) (f : TileRec → TileRec) : (modTile q f s).lull = s.lull := rfl
@[simp] theorem modTile_mem (q : Fin 4) (f : TileRec → TileRec) : (modTile q f s).mem = s.mem := rfl
@[simp] theorem modTile_mmu (q : Fin 4) (f : TileRec → TileRec) : (modTile q f s).mmu = s.mmu := rfl
@[simp] theorem modTile_dma (q : Fin 4) (f : TileRec → TileRec) : (modTile q f s).dma = s.dma := rfl
@[simp] theorem modTile_serve (q : Fin 4) (f : TileRec → TileRec) : (modTile q f s).serve = s.serve := rfl
@[simp] theorem modTile_sealed (q : Fin 4) (f : TileRec → TileRec) : (modTile q f s).sealed = s.sealed := rfl
@[simp] theorem modTile_link (q : Fin 4) (f : TileRec → TileRec) : (modTile q f s).link = s.link := rfl
@[simp] theorem modTile_out (q : Fin 4) (f : TileRec → TileRec) : (modTile q f s).out = s.out := rfl
@[simp] theorem modTile_freeCtr (q : Fin 4) (f : TileRec → TileRec) : (modTile q f s).freeCtr = s.freeCtr := rfl
@[simp] theorem modTile_pending (q : Fin 4) (f : TileRec → TileRec) : (modTile q f s).pending = s.pending := rfl

/-! ## modPort -/

@[simp] theorem modPort_aon (c : Nat) (f : BondPort → BondPort) : (modPort c f s).aon = s.aon := rfl
@[simp] theorem modPort_pins (c : Nat) (f : BondPort → BondPort) : (modPort c f s).pins = s.pins := rfl
@[simp] theorem modPort_pmx (c : Nat) (f : BondPort → BondPort) : (modPort c f s).pmx = s.pmx := rfl
@[simp] theorem modPort_clk (c : Nat) (f : BondPort → BondPort) : (modPort c f s).clk = s.clk := rfl
@[simp] theorem modPort_pwr (c : Nat) (f : BondPort → BondPort) : (modPort c f s).pwr = s.pwr := rfl
@[simp] theorem modPort_start (c : Nat) (f : BondPort → BondPort) : (modPort c f s).start = s.start := rfl
@[simp] theorem modPort_store (c : Nat) (f : BondPort → BondPort) : (modPort c f s).store = s.store := rfl
@[simp] theorem modPort_mbx (c : Nat) (f : BondPort → BondPort) : (modPort c f s).mbx = s.mbx := rfl
@[simp] theorem modPort_log (c : Nat) (f : BondPort → BondPort) : (modPort c f s).log = s.log := rfl
@[simp] theorem modPort_units (c : Nat) (f : BondPort → BondPort) : (modPort c f s).units = s.units := rfl
@[simp] theorem modPort_therm (c : Nat) (f : BondPort → BondPort) : (modPort c f s).therm = s.therm := rfl
@[simp] theorem modPort_prot (c : Nat) (f : BondPort → BondPort) : (modPort c f s).prot = s.prot := rfl
@[simp] theorem modPort_vane (c : Nat) (f : BondPort → BondPort) : (modPort c f s).vane = s.vane := rfl
@[simp] theorem modPort_net (c : Nat) (f : BondPort → BondPort) : (modPort c f s).net = s.net := rfl
@[simp] theorem modPort_coll (c : Nat) (f : BondPort → BondPort) : (modPort c f s).coll = s.coll := rfl
@[simp] theorem modPort_lull (c : Nat) (f : BondPort → BondPort) : (modPort c f s).lull = s.lull := rfl
@[simp] theorem modPort_mem (c : Nat) (f : BondPort → BondPort) : (modPort c f s).mem = s.mem := rfl
@[simp] theorem modPort_mmu (c : Nat) (f : BondPort → BondPort) : (modPort c f s).mmu = s.mmu := rfl
@[simp] theorem modPort_dma (c : Nat) (f : BondPort → BondPort) : (modPort c f s).dma = s.dma := rfl
@[simp] theorem modPort_serve (c : Nat) (f : BondPort → BondPort) : (modPort c f s).serve = s.serve := rfl
@[simp] theorem modPort_sealed (c : Nat) (f : BondPort → BondPort) : (modPort c f s).sealed = s.sealed := rfl
@[simp] theorem modPort_link (c : Nat) (f : BondPort → BondPort) : (modPort c f s).link = s.link := rfl
@[simp] theorem modPort_out (c : Nat) (f : BondPort → BondPort) : (modPort c f s).out = s.out := rfl
@[simp] theorem modPort_freeCtr (c : Nat) (f : BondPort → BondPort) : (modPort c f s).freeCtr = s.freeCtr := rfl
@[simp] theorem modPort_pending (c : Nat) (f : BondPort → BondPort) : (modPort c f s).pending = s.pending := rfl

/-! ## modRail -/

@[simp] theorem modRail_aon (vpm chan : Nat) (f : Rail → Rail) : (modRail vpm chan f s).aon = s.aon := rfl
@[simp] theorem modRail_pins (vpm chan : Nat) (f : Rail → Rail) : (modRail vpm chan f s).pins = s.pins := rfl
@[simp] theorem modRail_pmx (vpm chan : Nat) (f : Rail → Rail) : (modRail vpm chan f s).pmx = s.pmx := rfl
@[simp] theorem modRail_clk (vpm chan : Nat) (f : Rail → Rail) : (modRail vpm chan f s).clk = s.clk := rfl
@[simp] theorem modRail_start (vpm chan : Nat) (f : Rail → Rail) : (modRail vpm chan f s).start = s.start := rfl
@[simp] theorem modRail_store (vpm chan : Nat) (f : Rail → Rail) : (modRail vpm chan f s).store = s.store := rfl
@[simp] theorem modRail_mbx (vpm chan : Nat) (f : Rail → Rail) : (modRail vpm chan f s).mbx = s.mbx := rfl
@[simp] theorem modRail_log (vpm chan : Nat) (f : Rail → Rail) : (modRail vpm chan f s).log = s.log := rfl
@[simp] theorem modRail_units (vpm chan : Nat) (f : Rail → Rail) : (modRail vpm chan f s).units = s.units := rfl
@[simp] theorem modRail_therm (vpm chan : Nat) (f : Rail → Rail) : (modRail vpm chan f s).therm = s.therm := rfl
@[simp] theorem modRail_prot (vpm chan : Nat) (f : Rail → Rail) : (modRail vpm chan f s).prot = s.prot := rfl
@[simp] theorem modRail_vane (vpm chan : Nat) (f : Rail → Rail) : (modRail vpm chan f s).vane = s.vane := rfl
@[simp] theorem modRail_net (vpm chan : Nat) (f : Rail → Rail) : (modRail vpm chan f s).net = s.net := rfl
@[simp] theorem modRail_coll (vpm chan : Nat) (f : Rail → Rail) : (modRail vpm chan f s).coll = s.coll := rfl
@[simp] theorem modRail_lull (vpm chan : Nat) (f : Rail → Rail) : (modRail vpm chan f s).lull = s.lull := rfl
@[simp] theorem modRail_bond (vpm chan : Nat) (f : Rail → Rail) : (modRail vpm chan f s).bond = s.bond := rfl
@[simp] theorem modRail_mem (vpm chan : Nat) (f : Rail → Rail) : (modRail vpm chan f s).mem = s.mem := rfl
@[simp] theorem modRail_mmu (vpm chan : Nat) (f : Rail → Rail) : (modRail vpm chan f s).mmu = s.mmu := rfl
@[simp] theorem modRail_dma (vpm chan : Nat) (f : Rail → Rail) : (modRail vpm chan f s).dma = s.dma := rfl
@[simp] theorem modRail_serve (vpm chan : Nat) (f : Rail → Rail) : (modRail vpm chan f s).serve = s.serve := rfl
@[simp] theorem modRail_sealed (vpm chan : Nat) (f : Rail → Rail) : (modRail vpm chan f s).sealed = s.sealed := rfl
@[simp] theorem modRail_link (vpm chan : Nat) (f : Rail → Rail) : (modRail vpm chan f s).link = s.link := rfl
@[simp] theorem modRail_out (vpm chan : Nat) (f : Rail → Rail) : (modRail vpm chan f s).out = s.out := rfl
@[simp] theorem modRail_freeCtr (vpm chan : Nat) (f : Rail → Rail) : (modRail vpm chan f s).freeCtr = s.freeCtr := rfl
@[simp] theorem modRail_pending (vpm chan : Nat) (f : Rail → Rail) : (modRail vpm chan f s).pending = s.pending := rfl

/-! ## netCount -/

@[simp] theorem netCount_aon (kind inst : Nat) : (netCount kind inst s).aon = s.aon := rfl
@[simp] theorem netCount_pins (kind inst : Nat) : (netCount kind inst s).pins = s.pins := rfl
@[simp] theorem netCount_pmx (kind inst : Nat) : (netCount kind inst s).pmx = s.pmx := rfl
@[simp] theorem netCount_clk (kind inst : Nat) : (netCount kind inst s).clk = s.clk := rfl
@[simp] theorem netCount_pwr (kind inst : Nat) : (netCount kind inst s).pwr = s.pwr := rfl
@[simp] theorem netCount_start (kind inst : Nat) : (netCount kind inst s).start = s.start := rfl
@[simp] theorem netCount_store (kind inst : Nat) : (netCount kind inst s).store = s.store := rfl
@[simp] theorem netCount_mbx (kind inst : Nat) : (netCount kind inst s).mbx = s.mbx := rfl
@[simp] theorem netCount_log (kind inst : Nat) : (netCount kind inst s).log = s.log := rfl
@[simp] theorem netCount_units (kind inst : Nat) : (netCount kind inst s).units = s.units := rfl
@[simp] theorem netCount_therm (kind inst : Nat) : (netCount kind inst s).therm = s.therm := rfl
@[simp] theorem netCount_prot (kind inst : Nat) : (netCount kind inst s).prot = s.prot := rfl
@[simp] theorem netCount_vane (kind inst : Nat) : (netCount kind inst s).vane = s.vane := rfl
@[simp] theorem netCount_coll (kind inst : Nat) : (netCount kind inst s).coll = s.coll := rfl
@[simp] theorem netCount_lull (kind inst : Nat) : (netCount kind inst s).lull = s.lull := rfl
@[simp] theorem netCount_bond (kind inst : Nat) : (netCount kind inst s).bond = s.bond := rfl
@[simp] theorem netCount_mem (kind inst : Nat) : (netCount kind inst s).mem = s.mem := rfl
@[simp] theorem netCount_mmu (kind inst : Nat) : (netCount kind inst s).mmu = s.mmu := rfl
@[simp] theorem netCount_dma (kind inst : Nat) : (netCount kind inst s).dma = s.dma := rfl
@[simp] theorem netCount_serve (kind inst : Nat) : (netCount kind inst s).serve = s.serve := rfl
@[simp] theorem netCount_sealed (kind inst : Nat) : (netCount kind inst s).sealed = s.sealed := rfl
@[simp] theorem netCount_link (kind inst : Nat) : (netCount kind inst s).link = s.link := rfl
@[simp] theorem netCount_out (kind inst : Nat) : (netCount kind inst s).out = s.out := rfl
@[simp] theorem netCount_freeCtr (kind inst : Nat) : (netCount kind inst s).freeCtr = s.freeCtr := rfl
@[simp] theorem netCount_pending (kind inst : Nat) : (netCount kind inst s).pending = s.pending := rfl

/-! ## setChan -/

@[simp] theorem setChan_aon (d : Nat) (c : DmaChan) : (setChan d c s).aon = s.aon := rfl
@[simp] theorem setChan_pins (d : Nat) (c : DmaChan) : (setChan d c s).pins = s.pins := rfl
@[simp] theorem setChan_pmx (d : Nat) (c : DmaChan) : (setChan d c s).pmx = s.pmx := rfl
@[simp] theorem setChan_clk (d : Nat) (c : DmaChan) : (setChan d c s).clk = s.clk := rfl
@[simp] theorem setChan_pwr (d : Nat) (c : DmaChan) : (setChan d c s).pwr = s.pwr := rfl
@[simp] theorem setChan_start (d : Nat) (c : DmaChan) : (setChan d c s).start = s.start := rfl
@[simp] theorem setChan_store (d : Nat) (c : DmaChan) : (setChan d c s).store = s.store := rfl
@[simp] theorem setChan_mbx (d : Nat) (c : DmaChan) : (setChan d c s).mbx = s.mbx := rfl
@[simp] theorem setChan_log (d : Nat) (c : DmaChan) : (setChan d c s).log = s.log := rfl
@[simp] theorem setChan_units (d : Nat) (c : DmaChan) : (setChan d c s).units = s.units := rfl
@[simp] theorem setChan_therm (d : Nat) (c : DmaChan) : (setChan d c s).therm = s.therm := rfl
@[simp] theorem setChan_prot (d : Nat) (c : DmaChan) : (setChan d c s).prot = s.prot := rfl
@[simp] theorem setChan_vane (d : Nat) (c : DmaChan) : (setChan d c s).vane = s.vane := rfl
@[simp] theorem setChan_net (d : Nat) (c : DmaChan) : (setChan d c s).net = s.net := rfl
@[simp] theorem setChan_coll (d : Nat) (c : DmaChan) : (setChan d c s).coll = s.coll := rfl
@[simp] theorem setChan_lull (d : Nat) (c : DmaChan) : (setChan d c s).lull = s.lull := rfl
@[simp] theorem setChan_bond (d : Nat) (c : DmaChan) : (setChan d c s).bond = s.bond := rfl
@[simp] theorem setChan_mem (d : Nat) (c : DmaChan) : (setChan d c s).mem = s.mem := rfl
@[simp] theorem setChan_mmu (d : Nat) (c : DmaChan) : (setChan d c s).mmu = s.mmu := rfl
@[simp] theorem setChan_serve (d : Nat) (c : DmaChan) : (setChan d c s).serve = s.serve := rfl
@[simp] theorem setChan_sealed (d : Nat) (c : DmaChan) : (setChan d c s).sealed = s.sealed := rfl
@[simp] theorem setChan_link (d : Nat) (c : DmaChan) : (setChan d c s).link = s.link := rfl
@[simp] theorem setChan_out (d : Nat) (c : DmaChan) : (setChan d c s).out = s.out := rfl
@[simp] theorem setChan_freeCtr (d : Nat) (c : DmaChan) : (setChan d c s).freeCtr = s.freeCtr := rfl
@[simp] theorem setChan_pending (d : Nat) (c : DmaChan) : (setChan d c s).pending = s.pending := rfl

/-! ## setReq -/

@[simp] theorem setReq_aon (i : Nat) (r : Req) : (setReq i r s).aon = s.aon := rfl
@[simp] theorem setReq_pins (i : Nat) (r : Req) : (setReq i r s).pins = s.pins := rfl
@[simp] theorem setReq_pmx (i : Nat) (r : Req) : (setReq i r s).pmx = s.pmx := rfl
@[simp] theorem setReq_clk (i : Nat) (r : Req) : (setReq i r s).clk = s.clk := rfl
@[simp] theorem setReq_pwr (i : Nat) (r : Req) : (setReq i r s).pwr = s.pwr := rfl
@[simp] theorem setReq_start (i : Nat) (r : Req) : (setReq i r s).start = s.start := rfl
@[simp] theorem setReq_store (i : Nat) (r : Req) : (setReq i r s).store = s.store := rfl
@[simp] theorem setReq_mbx (i : Nat) (r : Req) : (setReq i r s).mbx = s.mbx := rfl
@[simp] theorem setReq_log (i : Nat) (r : Req) : (setReq i r s).log = s.log := rfl
@[simp] theorem setReq_units (i : Nat) (r : Req) : (setReq i r s).units = s.units := rfl
@[simp] theorem setReq_therm (i : Nat) (r : Req) : (setReq i r s).therm = s.therm := rfl
@[simp] theorem setReq_prot (i : Nat) (r : Req) : (setReq i r s).prot = s.prot := rfl
@[simp] theorem setReq_vane (i : Nat) (r : Req) : (setReq i r s).vane = s.vane := rfl
@[simp] theorem setReq_net (i : Nat) (r : Req) : (setReq i r s).net = s.net := rfl
@[simp] theorem setReq_coll (i : Nat) (r : Req) : (setReq i r s).coll = s.coll := rfl
@[simp] theorem setReq_lull (i : Nat) (r : Req) : (setReq i r s).lull = s.lull := rfl
@[simp] theorem setReq_bond (i : Nat) (r : Req) : (setReq i r s).bond = s.bond := rfl
@[simp] theorem setReq_mem (i : Nat) (r : Req) : (setReq i r s).mem = s.mem := rfl
@[simp] theorem setReq_mmu (i : Nat) (r : Req) : (setReq i r s).mmu = s.mmu := rfl
@[simp] theorem setReq_dma (i : Nat) (r : Req) : (setReq i r s).dma = s.dma := rfl
@[simp] theorem setReq_sealed (i : Nat) (r : Req) : (setReq i r s).sealed = s.sealed := rfl
@[simp] theorem setReq_link (i : Nat) (r : Req) : (setReq i r s).link = s.link := rfl
@[simp] theorem setReq_out (i : Nat) (r : Req) : (setReq i r s).out = s.out := rfl
@[simp] theorem setReq_freeCtr (i : Nat) (r : Req) : (setReq i r s).freeCtr = s.freeCtr := rfl
@[simp] theorem setReq_pending (i : Nat) (r : Req) : (setReq i r s).pending = s.pending := rfl

/-! ## setSpart -/

@[simp] theorem setSpart_aon (p : Nat) (x : SPart) : (setSpart p x s).aon = s.aon := rfl
@[simp] theorem setSpart_pins (p : Nat) (x : SPart) : (setSpart p x s).pins = s.pins := rfl
@[simp] theorem setSpart_pmx (p : Nat) (x : SPart) : (setSpart p x s).pmx = s.pmx := rfl
@[simp] theorem setSpart_clk (p : Nat) (x : SPart) : (setSpart p x s).clk = s.clk := rfl
@[simp] theorem setSpart_pwr (p : Nat) (x : SPart) : (setSpart p x s).pwr = s.pwr := rfl
@[simp] theorem setSpart_start (p : Nat) (x : SPart) : (setSpart p x s).start = s.start := rfl
@[simp] theorem setSpart_store (p : Nat) (x : SPart) : (setSpart p x s).store = s.store := rfl
@[simp] theorem setSpart_mbx (p : Nat) (x : SPart) : (setSpart p x s).mbx = s.mbx := rfl
@[simp] theorem setSpart_log (p : Nat) (x : SPart) : (setSpart p x s).log = s.log := rfl
@[simp] theorem setSpart_units (p : Nat) (x : SPart) : (setSpart p x s).units = s.units := rfl
@[simp] theorem setSpart_therm (p : Nat) (x : SPart) : (setSpart p x s).therm = s.therm := rfl
@[simp] theorem setSpart_prot (p : Nat) (x : SPart) : (setSpart p x s).prot = s.prot := rfl
@[simp] theorem setSpart_vane (p : Nat) (x : SPart) : (setSpart p x s).vane = s.vane := rfl
@[simp] theorem setSpart_net (p : Nat) (x : SPart) : (setSpart p x s).net = s.net := rfl
@[simp] theorem setSpart_coll (p : Nat) (x : SPart) : (setSpart p x s).coll = s.coll := rfl
@[simp] theorem setSpart_lull (p : Nat) (x : SPart) : (setSpart p x s).lull = s.lull := rfl
@[simp] theorem setSpart_bond (p : Nat) (x : SPart) : (setSpart p x s).bond = s.bond := rfl
@[simp] theorem setSpart_mem (p : Nat) (x : SPart) : (setSpart p x s).mem = s.mem := rfl
@[simp] theorem setSpart_mmu (p : Nat) (x : SPart) : (setSpart p x s).mmu = s.mmu := rfl
@[simp] theorem setSpart_dma (p : Nat) (x : SPart) : (setSpart p x s).dma = s.dma := rfl
@[simp] theorem setSpart_sealed (p : Nat) (x : SPart) : (setSpart p x s).sealed = s.sealed := rfl
@[simp] theorem setSpart_link (p : Nat) (x : SPart) : (setSpart p x s).link = s.link := rfl
@[simp] theorem setSpart_out (p : Nat) (x : SPart) : (setSpart p x s).out = s.out := rfl
@[simp] theorem setSpart_freeCtr (p : Nat) (x : SPart) : (setSpart p x s).freeCtr = s.freeCtr := rfl
@[simp] theorem setSpart_pending (p : Nat) (x : SPart) : (setSpart p x s).pending = s.pending := rfl

/-! ## setTenant -/

@[simp] theorem setTenant_aon (k : Nat) (x : Tenant) : (setTenant k x s).aon = s.aon := rfl
@[simp] theorem setTenant_pins (k : Nat) (x : Tenant) : (setTenant k x s).pins = s.pins := rfl
@[simp] theorem setTenant_pmx (k : Nat) (x : Tenant) : (setTenant k x s).pmx = s.pmx := rfl
@[simp] theorem setTenant_clk (k : Nat) (x : Tenant) : (setTenant k x s).clk = s.clk := rfl
@[simp] theorem setTenant_pwr (k : Nat) (x : Tenant) : (setTenant k x s).pwr = s.pwr := rfl
@[simp] theorem setTenant_start (k : Nat) (x : Tenant) : (setTenant k x s).start = s.start := rfl
@[simp] theorem setTenant_store (k : Nat) (x : Tenant) : (setTenant k x s).store = s.store := rfl
@[simp] theorem setTenant_mbx (k : Nat) (x : Tenant) : (setTenant k x s).mbx = s.mbx := rfl
@[simp] theorem setTenant_log (k : Nat) (x : Tenant) : (setTenant k x s).log = s.log := rfl
@[simp] theorem setTenant_units (k : Nat) (x : Tenant) : (setTenant k x s).units = s.units := rfl
@[simp] theorem setTenant_therm (k : Nat) (x : Tenant) : (setTenant k x s).therm = s.therm := rfl
@[simp] theorem setTenant_prot (k : Nat) (x : Tenant) : (setTenant k x s).prot = s.prot := rfl
@[simp] theorem setTenant_vane (k : Nat) (x : Tenant) : (setTenant k x s).vane = s.vane := rfl
@[simp] theorem setTenant_net (k : Nat) (x : Tenant) : (setTenant k x s).net = s.net := rfl
@[simp] theorem setTenant_coll (k : Nat) (x : Tenant) : (setTenant k x s).coll = s.coll := rfl
@[simp] theorem setTenant_lull (k : Nat) (x : Tenant) : (setTenant k x s).lull = s.lull := rfl
@[simp] theorem setTenant_bond (k : Nat) (x : Tenant) : (setTenant k x s).bond = s.bond := rfl
@[simp] theorem setTenant_mem (k : Nat) (x : Tenant) : (setTenant k x s).mem = s.mem := rfl
@[simp] theorem setTenant_mmu (k : Nat) (x : Tenant) : (setTenant k x s).mmu = s.mmu := rfl
@[simp] theorem setTenant_dma (k : Nat) (x : Tenant) : (setTenant k x s).dma = s.dma := rfl
@[simp] theorem setTenant_sealed (k : Nat) (x : Tenant) : (setTenant k x s).sealed = s.sealed := rfl
@[simp] theorem setTenant_link (k : Nat) (x : Tenant) : (setTenant k x s).link = s.link := rfl
@[simp] theorem setTenant_out (k : Nat) (x : Tenant) : (setTenant k x s).out = s.out := rfl
@[simp] theorem setTenant_freeCtr (k : Nat) (x : Tenant) : (setTenant k x s).freeCtr = s.freeCtr := rfl
@[simp] theorem setTenant_pending (k : Nat) (x : Tenant) : (setTenant k x s).pending = s.pending := rfl

/-! ## setRing -/

@[simp] theorem setRing_aon (k : Nat) (x : Ring) : (setRing k x s).aon = s.aon := rfl
@[simp] theorem setRing_pins (k : Nat) (x : Ring) : (setRing k x s).pins = s.pins := rfl
@[simp] theorem setRing_pmx (k : Nat) (x : Ring) : (setRing k x s).pmx = s.pmx := rfl
@[simp] theorem setRing_clk (k : Nat) (x : Ring) : (setRing k x s).clk = s.clk := rfl
@[simp] theorem setRing_pwr (k : Nat) (x : Ring) : (setRing k x s).pwr = s.pwr := rfl
@[simp] theorem setRing_start (k : Nat) (x : Ring) : (setRing k x s).start = s.start := rfl
@[simp] theorem setRing_store (k : Nat) (x : Ring) : (setRing k x s).store = s.store := rfl
@[simp] theorem setRing_mbx (k : Nat) (x : Ring) : (setRing k x s).mbx = s.mbx := rfl
@[simp] theorem setRing_log (k : Nat) (x : Ring) : (setRing k x s).log = s.log := rfl
@[simp] theorem setRing_units (k : Nat) (x : Ring) : (setRing k x s).units = s.units := rfl
@[simp] theorem setRing_therm (k : Nat) (x : Ring) : (setRing k x s).therm = s.therm := rfl
@[simp] theorem setRing_prot (k : Nat) (x : Ring) : (setRing k x s).prot = s.prot := rfl
@[simp] theorem setRing_vane (k : Nat) (x : Ring) : (setRing k x s).vane = s.vane := rfl
@[simp] theorem setRing_net (k : Nat) (x : Ring) : (setRing k x s).net = s.net := rfl
@[simp] theorem setRing_coll (k : Nat) (x : Ring) : (setRing k x s).coll = s.coll := rfl
@[simp] theorem setRing_lull (k : Nat) (x : Ring) : (setRing k x s).lull = s.lull := rfl
@[simp] theorem setRing_bond (k : Nat) (x : Ring) : (setRing k x s).bond = s.bond := rfl
@[simp] theorem setRing_mem (k : Nat) (x : Ring) : (setRing k x s).mem = s.mem := rfl
@[simp] theorem setRing_mmu (k : Nat) (x : Ring) : (setRing k x s).mmu = s.mmu := rfl
@[simp] theorem setRing_dma (k : Nat) (x : Ring) : (setRing k x s).dma = s.dma := rfl
@[simp] theorem setRing_sealed (k : Nat) (x : Ring) : (setRing k x s).sealed = s.sealed := rfl
@[simp] theorem setRing_link (k : Nat) (x : Ring) : (setRing k x s).link = s.link := rfl
@[simp] theorem setRing_out (k : Nat) (x : Ring) : (setRing k x s).out = s.out := rfl
@[simp] theorem setRing_freeCtr (k : Nat) (x : Ring) : (setRing k x s).freeCtr = s.freeCtr := rfl
@[simp] theorem setRing_pending (k : Nat) (x : Ring) : (setRing k x s).pending = s.pending := rfl

/-! ## modMee -/

@[simp] theorem modMee_aon (g : Nat) (f : MeeGroup → MeeGroup) : (modMee g f s).aon = s.aon := rfl
@[simp] theorem modMee_pins (g : Nat) (f : MeeGroup → MeeGroup) : (modMee g f s).pins = s.pins := rfl
@[simp] theorem modMee_pmx (g : Nat) (f : MeeGroup → MeeGroup) : (modMee g f s).pmx = s.pmx := rfl
@[simp] theorem modMee_clk (g : Nat) (f : MeeGroup → MeeGroup) : (modMee g f s).clk = s.clk := rfl
@[simp] theorem modMee_pwr (g : Nat) (f : MeeGroup → MeeGroup) : (modMee g f s).pwr = s.pwr := rfl
@[simp] theorem modMee_start (g : Nat) (f : MeeGroup → MeeGroup) : (modMee g f s).start = s.start := rfl
@[simp] theorem modMee_store (g : Nat) (f : MeeGroup → MeeGroup) : (modMee g f s).store = s.store := rfl
@[simp] theorem modMee_mbx (g : Nat) (f : MeeGroup → MeeGroup) : (modMee g f s).mbx = s.mbx := rfl
@[simp] theorem modMee_log (g : Nat) (f : MeeGroup → MeeGroup) : (modMee g f s).log = s.log := rfl
@[simp] theorem modMee_units (g : Nat) (f : MeeGroup → MeeGroup) : (modMee g f s).units = s.units := rfl
@[simp] theorem modMee_therm (g : Nat) (f : MeeGroup → MeeGroup) : (modMee g f s).therm = s.therm := rfl
@[simp] theorem modMee_prot (g : Nat) (f : MeeGroup → MeeGroup) : (modMee g f s).prot = s.prot := rfl
@[simp] theorem modMee_vane (g : Nat) (f : MeeGroup → MeeGroup) : (modMee g f s).vane = s.vane := rfl
@[simp] theorem modMee_net (g : Nat) (f : MeeGroup → MeeGroup) : (modMee g f s).net = s.net := rfl
@[simp] theorem modMee_coll (g : Nat) (f : MeeGroup → MeeGroup) : (modMee g f s).coll = s.coll := rfl
@[simp] theorem modMee_lull (g : Nat) (f : MeeGroup → MeeGroup) : (modMee g f s).lull = s.lull := rfl
@[simp] theorem modMee_bond (g : Nat) (f : MeeGroup → MeeGroup) : (modMee g f s).bond = s.bond := rfl
@[simp] theorem modMee_mem (g : Nat) (f : MeeGroup → MeeGroup) : (modMee g f s).mem = s.mem := rfl
@[simp] theorem modMee_mmu (g : Nat) (f : MeeGroup → MeeGroup) : (modMee g f s).mmu = s.mmu := rfl
@[simp] theorem modMee_dma (g : Nat) (f : MeeGroup → MeeGroup) : (modMee g f s).dma = s.dma := rfl
@[simp] theorem modMee_serve (g : Nat) (f : MeeGroup → MeeGroup) : (modMee g f s).serve = s.serve := rfl
@[simp] theorem modMee_link (g : Nat) (f : MeeGroup → MeeGroup) : (modMee g f s).link = s.link := rfl
@[simp] theorem modMee_out (g : Nat) (f : MeeGroup → MeeGroup) : (modMee g f s).out = s.out := rfl
@[simp] theorem modMee_freeCtr (g : Nat) (f : MeeGroup → MeeGroup) : (modMee g f s).freeCtr = s.freeCtr := rfl
@[simp] theorem modMee_pending (g : Nat) (f : MeeGroup → MeeGroup) : (modMee g f s).pending = s.pending := rfl

/-! ## modVault -/

@[simp] theorem modVault_aon (v : Nat) (f : Vault → Vault) : (modVault v f s).aon = s.aon := rfl
@[simp] theorem modVault_pins (v : Nat) (f : Vault → Vault) : (modVault v f s).pins = s.pins := rfl
@[simp] theorem modVault_pmx (v : Nat) (f : Vault → Vault) : (modVault v f s).pmx = s.pmx := rfl
@[simp] theorem modVault_clk (v : Nat) (f : Vault → Vault) : (modVault v f s).clk = s.clk := rfl
@[simp] theorem modVault_pwr (v : Nat) (f : Vault → Vault) : (modVault v f s).pwr = s.pwr := rfl
@[simp] theorem modVault_start (v : Nat) (f : Vault → Vault) : (modVault v f s).start = s.start := rfl
@[simp] theorem modVault_store (v : Nat) (f : Vault → Vault) : (modVault v f s).store = s.store := rfl
@[simp] theorem modVault_mbx (v : Nat) (f : Vault → Vault) : (modVault v f s).mbx = s.mbx := rfl
@[simp] theorem modVault_log (v : Nat) (f : Vault → Vault) : (modVault v f s).log = s.log := rfl
@[simp] theorem modVault_units (v : Nat) (f : Vault → Vault) : (modVault v f s).units = s.units := rfl
@[simp] theorem modVault_therm (v : Nat) (f : Vault → Vault) : (modVault v f s).therm = s.therm := rfl
@[simp] theorem modVault_prot (v : Nat) (f : Vault → Vault) : (modVault v f s).prot = s.prot := rfl
@[simp] theorem modVault_vane (v : Nat) (f : Vault → Vault) : (modVault v f s).vane = s.vane := rfl
@[simp] theorem modVault_net (v : Nat) (f : Vault → Vault) : (modVault v f s).net = s.net := rfl
@[simp] theorem modVault_coll (v : Nat) (f : Vault → Vault) : (modVault v f s).coll = s.coll := rfl
@[simp] theorem modVault_lull (v : Nat) (f : Vault → Vault) : (modVault v f s).lull = s.lull := rfl
@[simp] theorem modVault_bond (v : Nat) (f : Vault → Vault) : (modVault v f s).bond = s.bond := rfl
@[simp] theorem modVault_mem (v : Nat) (f : Vault → Vault) : (modVault v f s).mem = s.mem := rfl
@[simp] theorem modVault_mmu (v : Nat) (f : Vault → Vault) : (modVault v f s).mmu = s.mmu := rfl
@[simp] theorem modVault_dma (v : Nat) (f : Vault → Vault) : (modVault v f s).dma = s.dma := rfl
@[simp] theorem modVault_serve (v : Nat) (f : Vault → Vault) : (modVault v f s).serve = s.serve := rfl
@[simp] theorem modVault_link (v : Nat) (f : Vault → Vault) : (modVault v f s).link = s.link := rfl
@[simp] theorem modVault_out (v : Nat) (f : Vault → Vault) : (modVault v f s).out = s.out := rfl
@[simp] theorem modVault_freeCtr (v : Nat) (f : Vault → Vault) : (modVault v f s).freeCtr = s.freeCtr := rfl
@[simp] theorem modVault_pending (v : Nat) (f : Vault → Vault) : (modVault v f s).pending = s.pending := rfl

/-! ## modCx -/

@[simp] theorem modCx_aon (i : Nat) (f : CxSess → CxSess) : (modCx i f s).aon = s.aon := rfl
@[simp] theorem modCx_pins (i : Nat) (f : CxSess → CxSess) : (modCx i f s).pins = s.pins := rfl
@[simp] theorem modCx_pmx (i : Nat) (f : CxSess → CxSess) : (modCx i f s).pmx = s.pmx := rfl
@[simp] theorem modCx_clk (i : Nat) (f : CxSess → CxSess) : (modCx i f s).clk = s.clk := rfl
@[simp] theorem modCx_pwr (i : Nat) (f : CxSess → CxSess) : (modCx i f s).pwr = s.pwr := rfl
@[simp] theorem modCx_start (i : Nat) (f : CxSess → CxSess) : (modCx i f s).start = s.start := rfl
@[simp] theorem modCx_store (i : Nat) (f : CxSess → CxSess) : (modCx i f s).store = s.store := rfl
@[simp] theorem modCx_mbx (i : Nat) (f : CxSess → CxSess) : (modCx i f s).mbx = s.mbx := rfl
@[simp] theorem modCx_log (i : Nat) (f : CxSess → CxSess) : (modCx i f s).log = s.log := rfl
@[simp] theorem modCx_units (i : Nat) (f : CxSess → CxSess) : (modCx i f s).units = s.units := rfl
@[simp] theorem modCx_therm (i : Nat) (f : CxSess → CxSess) : (modCx i f s).therm = s.therm := rfl
@[simp] theorem modCx_prot (i : Nat) (f : CxSess → CxSess) : (modCx i f s).prot = s.prot := rfl
@[simp] theorem modCx_vane (i : Nat) (f : CxSess → CxSess) : (modCx i f s).vane = s.vane := rfl
@[simp] theorem modCx_net (i : Nat) (f : CxSess → CxSess) : (modCx i f s).net = s.net := rfl
@[simp] theorem modCx_coll (i : Nat) (f : CxSess → CxSess) : (modCx i f s).coll = s.coll := rfl
@[simp] theorem modCx_lull (i : Nat) (f : CxSess → CxSess) : (modCx i f s).lull = s.lull := rfl
@[simp] theorem modCx_bond (i : Nat) (f : CxSess → CxSess) : (modCx i f s).bond = s.bond := rfl
@[simp] theorem modCx_mem (i : Nat) (f : CxSess → CxSess) : (modCx i f s).mem = s.mem := rfl
@[simp] theorem modCx_mmu (i : Nat) (f : CxSess → CxSess) : (modCx i f s).mmu = s.mmu := rfl
@[simp] theorem modCx_dma (i : Nat) (f : CxSess → CxSess) : (modCx i f s).dma = s.dma := rfl
@[simp] theorem modCx_serve (i : Nat) (f : CxSess → CxSess) : (modCx i f s).serve = s.serve := rfl
@[simp] theorem modCx_link (i : Nat) (f : CxSess → CxSess) : (modCx i f s).link = s.link := rfl
@[simp] theorem modCx_out (i : Nat) (f : CxSess → CxSess) : (modCx i f s).out = s.out := rfl
@[simp] theorem modCx_freeCtr (i : Nat) (f : CxSess → CxSess) : (modCx i f s).freeCtr = s.freeCtr := rfl
@[simp] theorem modCx_pending (i : Nat) (f : CxSess → CxSess) : (modCx i f s).pending = s.pending := rfl

/-! ## modCxl -/

@[simp] theorem modCxl_aon (n : Nat) (f : CxlPort → CxlPort) : (modCxl n f s).aon = s.aon := rfl
@[simp] theorem modCxl_pins (n : Nat) (f : CxlPort → CxlPort) : (modCxl n f s).pins = s.pins := rfl
@[simp] theorem modCxl_pmx (n : Nat) (f : CxlPort → CxlPort) : (modCxl n f s).pmx = s.pmx := rfl
@[simp] theorem modCxl_clk (n : Nat) (f : CxlPort → CxlPort) : (modCxl n f s).clk = s.clk := rfl
@[simp] theorem modCxl_pwr (n : Nat) (f : CxlPort → CxlPort) : (modCxl n f s).pwr = s.pwr := rfl
@[simp] theorem modCxl_start (n : Nat) (f : CxlPort → CxlPort) : (modCxl n f s).start = s.start := rfl
@[simp] theorem modCxl_store (n : Nat) (f : CxlPort → CxlPort) : (modCxl n f s).store = s.store := rfl
@[simp] theorem modCxl_mbx (n : Nat) (f : CxlPort → CxlPort) : (modCxl n f s).mbx = s.mbx := rfl
@[simp] theorem modCxl_log (n : Nat) (f : CxlPort → CxlPort) : (modCxl n f s).log = s.log := rfl
@[simp] theorem modCxl_units (n : Nat) (f : CxlPort → CxlPort) : (modCxl n f s).units = s.units := rfl
@[simp] theorem modCxl_therm (n : Nat) (f : CxlPort → CxlPort) : (modCxl n f s).therm = s.therm := rfl
@[simp] theorem modCxl_prot (n : Nat) (f : CxlPort → CxlPort) : (modCxl n f s).prot = s.prot := rfl
@[simp] theorem modCxl_vane (n : Nat) (f : CxlPort → CxlPort) : (modCxl n f s).vane = s.vane := rfl
@[simp] theorem modCxl_net (n : Nat) (f : CxlPort → CxlPort) : (modCxl n f s).net = s.net := rfl
@[simp] theorem modCxl_coll (n : Nat) (f : CxlPort → CxlPort) : (modCxl n f s).coll = s.coll := rfl
@[simp] theorem modCxl_lull (n : Nat) (f : CxlPort → CxlPort) : (modCxl n f s).lull = s.lull := rfl
@[simp] theorem modCxl_bond (n : Nat) (f : CxlPort → CxlPort) : (modCxl n f s).bond = s.bond := rfl
@[simp] theorem modCxl_mem (n : Nat) (f : CxlPort → CxlPort) : (modCxl n f s).mem = s.mem := rfl
@[simp] theorem modCxl_mmu (n : Nat) (f : CxlPort → CxlPort) : (modCxl n f s).mmu = s.mmu := rfl
@[simp] theorem modCxl_dma (n : Nat) (f : CxlPort → CxlPort) : (modCxl n f s).dma = s.dma := rfl
@[simp] theorem modCxl_serve (n : Nat) (f : CxlPort → CxlPort) : (modCxl n f s).serve = s.serve := rfl
@[simp] theorem modCxl_sealed (n : Nat) (f : CxlPort → CxlPort) : (modCxl n f s).sealed = s.sealed := rfl
@[simp] theorem modCxl_out (n : Nat) (f : CxlPort → CxlPort) : (modCxl n f s).out = s.out := rfl
@[simp] theorem modCxl_freeCtr (n : Nat) (f : CxlPort → CxlPort) : (modCxl n f s).freeCtr = s.freeCtr := rfl
@[simp] theorem modCxl_pending (n : Nat) (f : CxlPort → CxlPort) : (modCxl n f s).pending = s.pending := rfl

/-! ## setGport -/

@[simp] theorem setGport_aon (k : Nat) (p : GPort) : (setGport k p s).aon = s.aon := rfl
@[simp] theorem setGport_pins (k : Nat) (p : GPort) : (setGport k p s).pins = s.pins := rfl
@[simp] theorem setGport_pmx (k : Nat) (p : GPort) : (setGport k p s).pmx = s.pmx := rfl
@[simp] theorem setGport_clk (k : Nat) (p : GPort) : (setGport k p s).clk = s.clk := rfl
@[simp] theorem setGport_pwr (k : Nat) (p : GPort) : (setGport k p s).pwr = s.pwr := rfl
@[simp] theorem setGport_start (k : Nat) (p : GPort) : (setGport k p s).start = s.start := rfl
@[simp] theorem setGport_store (k : Nat) (p : GPort) : (setGport k p s).store = s.store := rfl
@[simp] theorem setGport_mbx (k : Nat) (p : GPort) : (setGport k p s).mbx = s.mbx := rfl
@[simp] theorem setGport_log (k : Nat) (p : GPort) : (setGport k p s).log = s.log := rfl
@[simp] theorem setGport_units (k : Nat) (p : GPort) : (setGport k p s).units = s.units := rfl
@[simp] theorem setGport_therm (k : Nat) (p : GPort) : (setGport k p s).therm = s.therm := rfl
@[simp] theorem setGport_prot (k : Nat) (p : GPort) : (setGport k p s).prot = s.prot := rfl
@[simp] theorem setGport_vane (k : Nat) (p : GPort) : (setGport k p s).vane = s.vane := rfl
@[simp] theorem setGport_net (k : Nat) (p : GPort) : (setGport k p s).net = s.net := rfl
@[simp] theorem setGport_coll (k : Nat) (p : GPort) : (setGport k p s).coll = s.coll := rfl
@[simp] theorem setGport_lull (k : Nat) (p : GPort) : (setGport k p s).lull = s.lull := rfl
@[simp] theorem setGport_bond (k : Nat) (p : GPort) : (setGport k p s).bond = s.bond := rfl
@[simp] theorem setGport_mem (k : Nat) (p : GPort) : (setGport k p s).mem = s.mem := rfl
@[simp] theorem setGport_mmu (k : Nat) (p : GPort) : (setGport k p s).mmu = s.mmu := rfl
@[simp] theorem setGport_dma (k : Nat) (p : GPort) : (setGport k p s).dma = s.dma := rfl
@[simp] theorem setGport_serve (k : Nat) (p : GPort) : (setGport k p s).serve = s.serve := rfl
@[simp] theorem setGport_sealed (k : Nat) (p : GPort) : (setGport k p s).sealed = s.sealed := rfl
@[simp] theorem setGport_out (k : Nat) (p : GPort) : (setGport k p s).out = s.out := rfl
@[simp] theorem setGport_freeCtr (k : Nat) (p : GPort) : (setGport k p s).freeCtr = s.freeCtr := rfl
@[simp] theorem setGport_pending (k : Nat) (p : GPort) : (setGport k p s).pending = s.pending := rfl

/-! ## What a record reads as after it has been written -/

@[simp] theorem setBox_box (n k : Nat) (m : Mbx) : (setBox n m s).box k = if k = n then m else s.box k := Tab.get_put
@[simp] theorem setFrame_tab (f k : Nat) (r : FrameRec) : Tab.get {} (setFrame f r s).mem.frames k = if k = f then r else Tab.get {} s.mem.frames k := Tab.get_put
@[simp] theorem setHregion_hregion (r k : Nat) (x : HbmRegion) : (setHregion r x s).hregion k = if k = r then x else s.hregion k := Tab.get_put
@[simp] theorem setFlaw_flaw (a k : Nat) (f : Flaw) : (setFlaw a f s).flaw k = if k = a then f else s.flaw k := Tab.get_put
@[simp] theorem setUnitRec_tab (ut inst k : Nat) (r : UnitRec) : Tab.get {} (setUnitRec ut inst r s).units.tab k = if k = unitKey ut inst then r else Tab.get {} s.units.tab k := Tab.get_put
@[simp] theorem setUnitRec_same (ut inst : Nat) (r : UnitRec) : (setUnitRec ut inst r s).unitRec ut inst = r := by simp [State.unitRec]
@[simp] theorem setChan_dchan (d k : Nat) (c : DmaChan) : (setChan d c s).dchan k = if k = d then c else s.dchan k := Tab.get_put
@[simp] theorem setSpart_spart (p k : Nat) (x : SPart) : (setSpart p x s).spart k = if k = p then x else s.spart k := Tab.get_put
@[simp] theorem setTenant_tenant (i k : Nat) (x : Tenant) : (setTenant i x s).tenant k = if k = i then x else s.tenant k := Tab.get_put
@[simp] theorem setRing_ring (i k : Nat) (x : Ring) : (setRing i x s).ring k = if k = i then x else s.ring k := Tab.get_put
@[simp] theorem setGport_gport (i k : Nat) (p : GPort) : (setGport i p s).gport k = if k = i then p else s.gport k := Tab.get_put
@[simp] theorem modPort_port (c k : Nat) (f : BondPort → BondPort) : (modPort c f s).port k = if k = c then f (s.port c) else s.port k := Tab.get_put
@[simp] theorem modMee_mee (g k : Nat) (f : MeeGroup → MeeGroup) : (modMee g f s).mee k = if k = g then f (s.mee g) else s.mee k := Tab.get_put
@[simp] theorem modCxl_cxlPort (n k : Nat) (f : CxlPort → CxlPort) : (modCxl n f s).cxlPort k = if k = n then f (s.cxlPort n) else s.cxlPort k := Tab.get_put

end Sys2Proof.Laws
end

