-- ==== Sys2Proof/Laws/Steps.lean ====
section
/-!
SUPPORT. Which groups of state each operation of Machine/Steps.lean changes; it keeps every other group and the forms of the
memory and of the event ring.
-/
namespace Sys2Proof.Laws

open Sys2Proof.Machine

theorem pokePages_only (a1) (a2) {gs : List Group} {s t : State} (m : [.mem, .bytes] ⊆ gs) (k : Only gs s t) :
    Only gs s (Machine.pokePages a1 a2 t) := by
  refine Only.after (hs := [.mem, .bytes]) ?_ m k
  clear m k
  induction a1 generalizing a2 t with
  | nil =>
    unfold Machine.pokePages
    try dsimp only
    repeat' with_reducible exact Only.refl
  | cons x l ih =>
    unfold Machine.pokePages
    try dsimp only
    repeat' first
        | with_reducible first | exact Only.refl | refine Only.trans ?_ (ih ..) | refine poke_only _ _ (by decide) ?_
        | (injection ‹_ :: _ = _ :: _› with h1 h2; subst h1 h2)
        | split

theorem execStepEdge_next (t : State) :
    ∃ u, Machine.execStepEdge t = .next u ∧ Only [.pwr, .store, .mbx, .log, .units, .vane, .net, .coll, .lull, .bond, .mem, .mmu, .dma, .serve, .sealed, .link, .out, .freeCtr, .bytes] t u := by
  refine ⟨_, rfl, ?_⟩
  try dsimp only
  repeat' first
    | with_reducible first | exact Only.refl | refine stepEdge_only (by decide) ?_
    | split

theorem execStepOverrun_next (t : State) :
    ∃ u, Machine.execStepOverrun t = .next u ∧ Only [.pwr, .store, .mbx, .log, .units, .vane, .net, .coll, .lull, .bond, .mem, .mmu, .dma, .serve, .sealed, .link, .out, .freeCtr, .bytes] t u := by
  refine ⟨_, rfl, ?_⟩
  try dsimp only
  repeat' first
    | with_reducible first
      | exact Only.refl
      | refine fenceAll_only _ _ _ (by decide) ?_
      | refine stepEdge_only (by decide) ?_
      | refine logUe_only _ _ _ _ _ (by decide) ?_
      | fail_if_no_progress refine Only.atServe (by decide) ?_
    | split

theorem execHandoffPageRequest_next (a1) (a2) (a3) (a4) (a5) (a6) (t : State) :
    ∃ u, Machine.execHandoffPageRequest a1 a2 a3 a4 a5 a6 t = .next u ∧ Only [.store, .log, .mem, .serve, .link, .out] t u := by
  refine ⟨_, rfl, ?_⟩
  try dsimp only
  repeat' first
    | with_reducible first
      | exact Only.refl
      | refine send_only _ (by decide) ?_
      | refine steward_only _ _ _ _ _ _ (by decide) ?_
      | refine markFrames_only _ _ (by decide) ?_
      | fail_if_no_progress refine Only.atServe (by decide) ?_
    | split

theorem execHandoffPageGrant_next (a1) (a2) (a3) (t : State) :
    ∃ u, Machine.execHandoffPageGrant a1 a2 a3 t = .next u ∧ Only [.log, .serve, .link, .out] t u := by
  refine ⟨_, rfl, ?_⟩
  try dsimp only
  repeat' first
    | with_reducible first
      | exact Only.refl
      | refine waitPeer_only _ _ (by decide) ?_
      | refine send_only _ (by decide) ?_
      | refine setReq_only _ _ (by decide) ?_
    | split

theorem execHandoffShipped_next (a1) (t : State) :
    ∃ u, Machine.execHandoffShipped a1 t = .next u ∧ Only [.mem, .serve, .bytes] t u := by
  refine ⟨_, rfl, ?_⟩
  try dsimp only
  repeat' first
    | with_reducible first
      | exact Only.refl
      | refine setReq_only _ _ (by decide) ?_
      | refine pokePages_only _ _ (by decide) ?_
      | fail_if_no_progress refine Only.atServe (by decide) ?_
    | split

theorem execRemoteTokens_next (a1) (a2) (a3) (t : State) :
    ∃ u, Machine.execRemoteTokens a1 a2 a3 t = .next u ∧ Only [.serve] t u := by
  refine ⟨_, rfl, ?_⟩
  try dsimp only
  repeat' first
    | with_reducible first | exact Only.refl | refine setReq_only _ _ (by decide) ?_
    | split

theorem execRemoteCancelConfirm_next (a1) (t : State) :
    ∃ u, Machine.execRemoteCancelConfirm a1 t = .next u ∧ Only [.serve] t u := by
  refine ⟨_, rfl, ?_⟩
  try dsimp only
  repeat' first
    | with_reducible first | exact Only.refl | refine setReq_only _ _ (by decide) ?_
    | split

theorem execHandoffPathTimeout_next (a1) (t : State) :
    ∃ u, Machine.execHandoffPathTimeout a1 t = .next u ∧ Only [.serve] t u := by
  refine ⟨_, rfl, ?_⟩
  try dsimp only
  repeat' with_reducible first
    | exact Only.refl
    | refine eachReq_only _ _ (fun _ _ _ => ?_) (by decide) ?_
    | refine loseAtPeer_only _ _ _ (by decide) ?_

theorem execPauseHoldExpiry_next (a1) (a2) (t : State) :
    ∃ u, Machine.execPauseHoldExpiry a1 a2 t = .next u ∧ Only [.log, .serve, .link, .out] t u := by
  refine ⟨_, rfl, ?_⟩
  try dsimp only
  repeat' first
    | with_reducible first | exact Only.refl | refine moveOut_only _ (by decide) ?_
    | split

theorem execDriftRetry_next (a1) (t : State) :
    ∃ u, Machine.execDriftRetry a1 t = .next u ∧ Only [.log, .serve, .link, .out] t u := by
  refine ⟨_, rfl, ?_⟩
  try dsimp only
  repeat' first
    | with_reducible first | exact Only.refl | refine moveOut_only _ (by decide) ?_
    | split

theorem execDriftCopyDone_next (a1) (t : State) :
    ∃ u, Machine.execDriftCopyDone a1 t = .next u ∧ Only [.mem, .serve, .bytes] t u := by
  refine ⟨_, rfl, ?_⟩
  try dsimp only
  repeat' first
    | with_reducible first
      | exact Only.refl
      | refine startCopies_only (by decide) ?_
      | refine setReq_only _ _ (by decide) ?_
      | refine copyPages_only _ (by decide) ?_
    | split

theorem execDriftTtlExpiry_next (a1) (t : State) :
    ∃ u, Machine.execDriftTtlExpiry a1 t = .next u ∧ Only [.serve] t u := by
  refine ⟨_, rfl, ?_⟩
  try dsimp only
  repeat' first
    | with_reducible first | exact Only.refl | refine setReq_only _ _ (by decide) ?_
    | split

theorem execFrameZeroed_next (a1) (t : State) :
    ∃ u, Machine.execFrameZeroed a1 t = .next u ∧ Only [.store, .log, .mem, .serve, .link, .out, .bytes] t u := by
  refine ⟨_, rfl, ?_⟩
  try dsimp only
  repeat' first
    | with_reducible first
      | exact Only.refl
      | refine setFrame_only _ _ (by decide) ?_
      | refine retireNow_only _ _ (by decide) ?_
      | fail_if_no_progress refine Only.atServe (by decide) ?_
    | fail_if_no_progress ((with_reducible refine Only.atBytes (by decide) (by decide) ?_ ?_) <;> try exact fun w => w)
    | exact fun w => Tab.wf_filter w
    | split

end Sys2Proof.Laws
end

