-- ==== Sys2Proof/Laws/Train.lean ====
section
/-!
SUPPORT. Which groups of state each operation of Machine/Train.lean changes; it keeps every other group and the forms of the
memory and of the event ring.
-/
namespace Sys2Proof.Laws

open Sys2Proof.Machine

theorem trainAll_only (a1) (a2) (a3) {gs : List Group} {s t : State} (m : [.units] ⊆ gs) (k : Only gs s t) :
    Only gs s (Machine.trainAll a1 a2 a3 t) := by
  refine Only.after (hs := [.units]) ?_ m k
  clear m k
  induction a3 generalizing a1 a2 t with
  | nil =>
    unfold Machine.trainAll
    try dsimp only
    repeat' with_reducible exact Only.refl
  | cons x l ih =>
    unfold Machine.trainAll
    try dsimp only
    repeat' first
        | with_reducible first
          | exact Only.refl
          | refine Only.trans ?_ (ih ..)
          | refine setUnitSt_only _ _ _ (by decide) ?_
        | split

theorem noteRouters_only (a1) {gs : List Group} {s t : State} (m : [.log, .link, .out] ⊆ gs) (k : Only gs s t) :
    Only gs s (Machine.noteRouters a1 t) := by
  refine Only.after (hs := [.log, .link, .out]) ?_ m k
  clear m k
  induction a1 generalizing t with
  | nil =>
    unfold Machine.noteRouters
    try dsimp only
    repeat' with_reducible exact Only.refl
  | cons x l ih =>
    unfold Machine.noteRouters
    try dsimp only
    repeat' with_reducible first
        | exact Only.refl
        | refine Only.trans ?_ (ih ..)
        | refine logUe_only _ _ _ _ _ (by decide) ?_

theorem trainMesh_only (a1) {gs : List Group} {s t : State} (m : [.log, .units, .link, .out] ⊆ gs) (k : Only gs s t) :
    Only gs s (Machine.trainMesh a1 t) := by
  refine Only.after (hs := [.log, .units, .link, .out]) ?_ m k
  clear m k
  unfold Machine.trainMesh
  try dsimp only
  repeat' with_reducible first
    | exact Only.refl
    | refine noteRouters_only _ (by decide) ?_
    | refine trainAll_only _ _ _ (by decide) ?_

theorem portsOut_only (a1) {gs : List Group} {s t : State} (m : [.pwr, .units, .bond] ⊆ gs) (k : Only gs s t) :
    Only gs s (Machine.portsOut a1 t) := by
  refine Only.after (hs := [.pwr, .units, .bond]) ?_ m k
  clear m k
  induction a1 generalizing t with
  | nil =>
    unfold Machine.portsOut
    try dsimp only
    repeat' with_reducible exact Only.refl
  | cons x l ih =>
    unfold Machine.portsOut
    try dsimp only
    repeat' first
        | with_reducible first | exact Only.refl | refine Only.trans ?_ (ih ..) | refine portOut_only _ (by decide) ?_
        | split

theorem trainTile_only (a1) (a2) {gs : List Group} {s t : State} (m : [.pwr, .log, .units, .bond, .link, .out] ⊆ gs) (k : Only gs s t) :
    Only gs s (Machine.trainTile a1 a2 t) := by
  refine Only.after (hs := [.pwr, .log, .units, .bond, .link, .out]) ?_ m k
  clear m k
  unfold Machine.trainTile
  try dsimp only
  repeat' first
    | with_reducible first
      | exact Only.refl
      | refine logInfo_only _ _ _ _ (by decide) ?_
      | refine setUnitSt_only _ _ _ (by decide) ?_
      | refine trainAll_only _ _ _ (by decide) ?_
      | refine portsOut_only _ (by decide) ?_
      | refine tileFail_only _ _ (by decide) ?_
    | split

theorem trainTiles_only (a1) {gs : List Group} {s t : State} (m : [.pwr, .log, .units, .bond, .link, .out] ⊆ gs) (k : Only gs s t) :
    Only gs s (Machine.trainTiles a1 t) := by
  refine Only.after (hs := [.pwr, .log, .units, .bond, .link, .out]) ?_ m k
  clear m k
  unfold Machine.trainTiles
  try dsimp only
  repeat' with_reducible first | exact Only.refl | refine trainTile_only _ _ (by decide) ?_

theorem noteStacks_only (a1) {gs : List Group} {s t : State} (m : [.log, .link, .out] ⊆ gs) (k : Only gs s t) :
    Only gs s (Machine.noteStacks a1 t) := by
  refine Only.after (hs := [.log, .link, .out]) ?_ m k
  clear m k
  induction a1 generalizing t with
  | nil =>
    unfold Machine.noteStacks
    try dsimp only
    repeat' with_reducible exact Only.refl
  | cons x l ih =>
    unfold Machine.noteStacks
    try dsimp only
    repeat' with_reducible first
        | exact Only.refl
        | refine Only.trans ?_ (ih ..)
        | refine logUe_only _ _ _ _ _ (by decide) ?_

theorem trainStacks_only (a1) {gs : List Group} {s t : State} (m : [.log, .units, .link, .out] ⊆ gs) (k : Only gs s t) :
    Only gs s (Machine.trainStacks a1 t) := by
  refine Only.after (hs := [.log, .units, .link, .out]) ?_ m k
  clear m k
  unfold Machine.trainStacks
  try dsimp only
  repeat' with_reducible first
    | exact Only.refl
    | refine noteStacks_only _ (by decide) ?_
    | refine trainAll_only _ _ _ (by decide) ?_

theorem softRepairs_only (a1) (a2) {gs : List Group} {s t : State} (m : [.log, .mem, .link, .out] ⊆ gs) (k : Only gs s t) :
    Only gs s (Machine.softRepairs a1 a2 t) := by
  refine Only.after (hs := [.log, .mem, .link, .out]) ?_ m k
  clear m k
  induction a2 generalizing a1 t with
  | nil =>
    unfold Machine.softRepairs
    try dsimp only
    repeat' with_reducible exact Only.refl
  | cons x l ih =>
    unfold Machine.softRepairs
    try dsimp only
    repeat' first
        | with_reducible first
          | exact Only.refl
          | refine Only.trans ?_ (ih ..)
          | refine logUe_only _ _ _ _ _ (by decide) ?_
          | refine logInfo_only _ _ _ _ (by decide) ?_
          | fail_if_no_progress refine Only.atMem (by decide) rfl ?_
        | split

theorem trainMemory_only (a1) {gs : List Group} {s t : State} (m : [.store, .log, .mem, .mmu, .serve, .link, .out, .bytes] ⊆ gs) (k : Only gs s t) :
    Only gs s (Machine.trainMemory a1 t) := by
  refine Only.after (hs := [.store, .log, .mem, .mmu, .serve, .link, .out, .bytes]) ?_ m k
  clear m k
  unfold Machine.trainMemory
  try dsimp only
  repeat' with_reducible first
    | exact Only.refl
    | refine releaseRetired_only (by decide) ?_
    | refine softRepairs_only _ _ (by decide) ?_
    | refine buildTables_only (by decide) ?_
    | refine buildRegions_only (by decide) ?_
    | fail_if_no_progress refine Only.atMem (by decide) rfl ?_

theorem trainGust_only (a1) (a2) {gs : List Group} {s t : State} (m : [.mbx, .log, .units, .vane, .net, .link, .out, .freeCtr] ⊆ gs) (k : Only gs s t) :
    Only gs s (Machine.trainGust a1 a2 t) := by
  refine Only.after (hs := [.mbx, .log, .units, .vane, .net, .link, .out, .freeCtr]) ?_ m k
  clear m k
  induction a2 generalizing t with
  | nil => exact Only.refl
  | cons x l ih =>
    unfold Machine.trainGust
    refine Only.trans ?_ ih
    split
    · exact Only.refl
    · split
      · exact trainFails_only _ _ (by decide) Only.refl
      · split
        · exact portUp_only _ (by decide) Only.refl
        · exact Only.refl

theorem trainCxl_only (a1) (a2) {gs : List Group} {s t : State} (m : [.log, .units, .link, .out] ⊆ gs) (k : Only gs s t) :
    Only gs s (Machine.trainCxl a1 a2 t) := by
  refine Only.after (hs := [.log, .units, .link, .out]) ?_ m k
  clear m k
  unfold Machine.trainCxl
  try dsimp only
  repeat' first
    | with_reducible first
      | exact Only.refl
      | refine logInfo_only _ _ _ _ (by decide) ?_
      | refine setUnitSt_only _ _ _ (by decide) ?_
      | refine modCxl_only _ _ (by decide) ?_
    | split

theorem trainDrift_only (a1) {gs : List Group} {s t : State} (m : [.log, .units, .serve, .link, .out] ⊆ gs) (k : Only gs s t) :
    Only gs s (Machine.trainDrift a1 t) := by
  refine Only.after (hs := [.log, .units, .serve, .link, .out]) ?_ m k
  clear m k
  unfold Machine.trainDrift
  try dsimp only
  repeat' with_reducible first
    | exact Only.refl
    | refine trainCxl_only _ _ (by decide) ?_
    | fail_if_no_progress refine Only.atServe (by decide) ?_

theorem firstEpoch_only (a1) {gs : List Group} {s t : State} (m : [.net] ⊆ gs) (k : Only gs s t) :
    Only gs s (Machine.firstEpoch a1 t) := by
  refine Only.after (hs := [.net]) ?_ m k
  clear m k
  unfold Machine.firstEpoch
  try dsimp only
  repeat' with_reducible first
    | exact Only.refl
    | refine setBank_only _ _ (by decide) ?_
    | fail_if_no_progress refine Only.atNet (by decide) ?_

theorem trainPass_only (a1) (a2) {gs : List Group} {s t : State} (m : [.aon, .pins, .clk, .pwr, .start, .store, .mbx, .log, .units, .vane, .net, .coll, .lull, .bond, .mem, .mmu, .dma, .serve, .sealed, .link, .out, .freeCtr, .bytes] ⊆ gs) (k : Only gs s t) :
    Only gs s (Machine.trainPass a1 a2 t) := by
  refine Only.after (hs := [.aon, .pins, .clk, .pwr, .start, .store, .mbx, .log, .units, .vane, .net, .coll, .lull, .bond, .mem, .mmu, .dma, .serve, .sealed, .link, .out, .freeCtr, .bytes]) ?_ m k
  clear m k
  unfold Machine.trainPass
  try dsimp only
  repeat' first
    | with_reducible first
      | exact Only.refl
      | refine trainDrift_only _ (by decide) ?_
      | refine trainGust_only _ _ (by decide) ?_
      | refine firstEpoch_only _ (by decide) ?_
      | refine trainMemory_only _ (by decide) ?_
      | refine enterVane_only (by decide) ?_
      | refine phaseExit_only _ (by decide) ?_
      | refine startSend_only _ (by decide) ?_
      | fail_if_no_progress refine Only.atSealed (by decide) ?_
    | split

theorem execTrainComplete_next (a1) (t : State) :
    ∃ u, Machine.execTrainComplete a1 t = .next u ∧ Only [.aon, .pins, .clk, .pwr, .start, .store, .mbx, .log, .units, .vane, .net, .coll, .lull, .bond, .mem, .mmu, .dma, .serve, .sealed, .link, .out, .freeCtr, .bytes] t u := by
  refine ⟨_, rfl, ?_⟩
  try dsimp only
  repeat' first
    | with_reducible first
      | exact Only.refl
      | refine trainStacks_only _ (by decide) ?_
      | refine trainTiles_only _ (by decide) ?_
      | refine trainMesh_only _ (by decide) ?_
      | refine failStart_only _ (by decide) ?_
      | refine trainPass_only _ _ (by decide) ?_
    | split

end Sys2Proof.Laws
end

