-- ==== Sys2Proof/Laws/Translation.lean ====
section
/-!
SUPPORT. Which groups of state each operation of Machine/Translation.lean changes; it keeps every other group and the forms of the
memory and of the event ring.
-/
namespace Sys2Proof.Laws

open Sys2Proof.Machine

theorem refuseAccess_only (a1) (a2) (a3) (a4) {gs : List Group} {s t : State} (m : [.log, .mmu, .link, .out] ⊆ gs) (k : Only gs s t) :
    Only gs s (Machine.refuseAccess a1 a2 a3 a4 t) := by
  refine Only.after (hs := [.log, .mmu, .link, .out]) ?_ m k
  clear m k
  unfold Machine.refuseAccess
  try dsimp only
  repeat' with_reducible first
    | exact Only.refl
    | refine send_only _ (by decide) ?_
    | refine mmuFault_only _ _ _ (by decide) ?_

theorem completeBox_only (a1) (a2) {gs : List Group} {s t : State} (m : [.mbx] ⊆ gs) (k : Only gs s t) :
    Only gs s (Machine.completeBox a1 a2 t) := by
  refine Only.after (hs := [.mbx]) ?_ m k
  clear m k
  unfold Machine.completeBox
  try dsimp only
  repeat' first
    | with_reducible first
      | exact Only.refl
      | refine reply_only _ _ (by decide) ?_
      | refine setBox_only _ _ (by decide) ?_
    | split

theorem afterInval_only (a1) {gs : List Group} {s t : State} (m : [.store, .mbx, .log, .net, .lull, .mem, .mmu, .dma, .serve, .sealed, .link, .out, .freeCtr, .bytes] ⊆ gs) (k : Only gs s t) :
    Only gs s (Machine.afterInval a1 t) := by
  refine Only.after (hs := [.store, .mbx, .log, .net, .lull, .mem, .mmu, .dma, .serve, .sealed, .link, .out, .freeCtr, .bytes]) ?_ m k
  clear m k
  unfold Machine.afterInval
  try dsimp only
  repeat' first
    | with_reducible first
      | exact Only.refl
      | refine freeFrames_only _ (by decide) ?_
      | refine completeBox_only _ _ (by decide) ?_
      | refine tlbiDone_only _ (by decide) ?_
    | split

theorem execAddressTranslation_next (a1) (a2) (a3) (a4) (a5) (t : State) :
    ∃ u, Machine.execAddressTranslation a1 a2 a3 a4 a5 t = .next u ∧ Only [.store, .log, .mem, .mmu, .serve, .link, .out, .freeCtr] t u := by
  refine ⟨_, rfl, ?_⟩
  try dsimp only
  repeat' first
    | with_reducible first
      | exact Only.refl
      | refine refuseAccess_only _ _ _ _ (by decide) ?_
      | refine translateAt_only _ _ (by decide) ?_
    | split

theorem execInvalidationDone_next (a1) (t : State) :
    ∃ u, Machine.execInvalidationDone a1 t = .next u ∧ Only [.store, .mbx, .log, .net, .lull, .mem, .mmu, .dma, .serve, .sealed, .link, .out, .freeCtr, .bytes] t u := by
  refine ⟨_, rfl, ?_⟩
  try dsimp only
  repeat' first
    | with_reducible first
      | exact Only.refl
      | refine afterInval_only _ (by decide) ?_
      | refine dropTlb_only _ (by decide) ?_
      | fail_if_no_progress refine Only.atMmu (by decide) ?_
    | split

theorem execMmuStatus_next (a1) (t : State) :
    ∃ u, Machine.execMmuStatus a1 t = .next u ∧ Only [.mbx, .mmu] t u := by
  refine ⟨_, rfl, ?_⟩
  try dsimp only
  repeat' with_reducible first
    | exact Only.refl
    | refine command_only _ _ _ _ (fun _ _ => ?_) (by decide) ?_
    | refine replyDone_only _ _ _ (by decide) ?_
    | fail_if_no_progress refine Only.atMmu (by decide) ?_

end Sys2Proof.Laws
end

