-- ==== Sys2Proof/Laws/Windows.lean ====
section
/-!
SUPPORT. Which groups of state each operation of Machine/Windows.lean changes; it keeps every other group and the forms of the
memory and of the event ring.
-/
namespace Sys2Proof.Laws

open Sys2Proof.Machine

theorem countRefresh_only (a1) (a2) {gs : List Group} {s t : State} (m : [.sealed] ⊆ gs) (k : Only gs s t) :
    Only gs s (Machine.countRefresh a1 a2 t) := by
  refine Only.after (hs := [.sealed]) ?_ m k
  clear m k
  unfold Machine.countRefresh
  try dsimp only
  repeat' first
    | with_reducible first | exact Only.refl | fail_if_no_progress refine Only.atSealed (by decide) ?_
    | split

theorem execWindowClose_next (a1) (a2) (a3) (t : State) :
    ∃ u, Machine.execWindowClose a1 a2 a3 t = .next u ∧ Only [.pwr, .store, .mbx, .log, .units, .vane, .net, .coll, .lull, .bond, .mem, .mmu, .serve, .sealed, .link, .out, .freeCtr, .bytes] t u := by
  refine ⟨_, rfl, ?_⟩
  try dsimp only
  repeat' first
    | with_reducible first
      | exact Only.refl
      | refine meeClose_only _ _ _ _ _ (by decide) ?_
      | refine countRefresh_only _ _ (by decide) ?_
      | refine releaseLeaving_only (by decide) ?_
      | refine trySwitch_only (by decide) ?_
      | refine releaseInvals_only (by decide) ?_
      | fail_if_no_progress refine Only.atNet (by decide) ?_
    | split

end Sys2Proof.Laws
end

