-- ==== Sys2Proof/Laws/Step.lean ====
section
/-!
SUPPORT. Which groups of state each operation of Machine/Step.lean changes; it keeps every other group and the forms of the
memory and of the event ring.
-/
namespace Sys2Proof.Laws

open Sys2Proof.Machine

theorem State.withFetchWord_only (a1) (a2) {gs : List Group} {s t : State} (m : [.pending] ⊆ gs) (k : Only gs s t) :
    Only gs s (Machine.State.withFetchWord t a1 a2) := by
  refine Only.after (hs := [.pending]) ?_ m k
  clear m k
  unfold Machine.State.withFetchWord
  try dsimp only
  repeat' first
    | with_reducible first | exact Only.refl | fail_if_no_progress refine Only.atPending (by decide) ?_
    | split

end Sys2Proof.Laws
end

