-- ==== Sys2Proof/WellFormed.lean ====
section
/-!
DEFINITION. Which commands are well formed: what the spec asks of their operands beyond the widths of Syntax.lean. exec is total
on every command all the same.
-/
namespace Sys2Proof

/-- A VPM has a channel (spec/03_clocks_resets_power.md Table CP-7). -/
def chanExists (vpm chan : Nat) : Bool :=
  if vpm = 8 then chan < 2 else if 2 <= vpm && vpm <= 5 then chan = 0 else chan < 3
/-- A host access through BAR2 moves at most 4,096 bytes in a read and 512 in a write (spec/17_gust_links_and_host.md Table GL-9). -/
def barLen : BarAccess → Bool
  | .read n => n.toNat <= 4096
  | .write b => b.length <= 512
/-- The types of the units that have a service state (spec/19_faults_and_recovery.md R500). -/
def unitTypes : List Nat := [0x01, 0x02, 0x05, 0x06, 0x07, 0x08, 0x09, 0x0D]

/-- A command is well formed: an aligned offset of a full register write inside its BAR, a channel that the module has, byte strings
of the length of their frame or header. -/
def Instr.wellFormed : Instr → Bool
  | .registerWrite bus off _ full => (!full || off.toNat % 4 = 0) && (bus != .bar4 || off.toNat < 0x100000)
  | .reservedAccess bus off _ => bus != .bar4 || off.toNat < 0x100000
  | .offlineAccess bus off _ => bus != .bar4 || off.toNat < 0x100000
  | .privateTransfer dest _ => dest.off.toNat % 4 = 0
  | .bar2Access _ acc => barLen acc
  | .powerGood vpm chan => chanExists vpm.val chan.val
  | .pgDeadline vpm chan => chanExists vpm.val chan.val
  | .trayHeader hdr => hdr.length = 64
  | .galeInject _ _ _ data => data.length % 32 = 0 && data.length <= 4096
  | .reductionGroupDefine _ _ tree => tree.all fun e => e.1 < 128
  | .reduceContribution _ _ _ _ _ data _ _ => data.length <= 4096
  | .getCap _ cap => cap.length = 0 || cap.length = 64
  | .hbmWrite _ _ _ dpa data _ => 0 < data.length && dpa.toNat % 64 + data.length <= 64
  | .sliceAccess _ _ _ len write _ _ _ => write.elim true fun b => b.length = len.val
  | .probationEnd ut _ _ _ => unitTypes.contains ut.val
  | .sectionHeader hdr => hdr.length = 128
  | .handoffPageRequest _ _ _ _ pages _ => 0 < pages.toNat
  | .aonTimeLoRead | .glkTxctrLoRead .. | .i3cDynamicAddress .. | .extest .. | .pwrOkRise .. | .pwrOkFall
  | .trayRstNFall | .trayRstNRise | .pkgRstNFall | .pkgRstNRise | .perstNFall | .perstNRise | .pcieLinkUp ..
  | .pcieLinkDown | .xtalFail | .clkLoss .. | .pllLock .. | .powerDownStep | .pcmdFrameEnd .. | .telemetrySweep ..
  | .pcmdAlert | .fgrInRegulation .. | .droopCluster .. | .droopClusterRelease .. | .droopTileExpiry .. | .droopRail
  | .droopRailDecay | .sequencerLeaseRenew | .sequencerLeaseExpiry | .watchdogKick | .watchdogTrip | .firmwareFatal
  | .wardenReset | .pwrStatus .. | .clusterGate .. | .tileBudget .. | .tileVoltage .. | .fuseReadDone ..
  | .bootCopyDone .. | .authDone .. | .trainComplete .. | .phaseBudgetExpiry | .holdReport | .holdRecheck ..
  | .trayDoneChange .. | .doneStable | .joinRecord .. | .joinRecordTimer | .startStatus .. | .startRetry ..
  | .fwSlotStatus .. | .fwSlotWrite .. | .fwSlotSelect .. | .trainId .. | .streamSent | .streamErrResend
  | .streamReq .. | .streamReqTimer | .sectionEnd .. | .trailer .. | .cclkStopTimeout | .vaneLoadDone
  | .vanePllLockTimeout | .spOpen .. | .spOutboundTimeout .. | .spResponseWaitEnd .. | .spOpenLong .. | .spWrite ..
  | .spFill .. | .spRead .. | .spClose .. | .spAbort .. | .spStatus | .vaneStatus .. | .vaneStreamSend ..
  | .vaneDisable .. | .pmxPinWrite .. | .parkIdle .. | .parkMinExpiry .. | .parkTimeout .. | .pinGet ..
  | .pinSetFunction .. | .pinGpio .. | .mbxClaim .. | .mbxHb .. | .mbxRelease .. | .leaseExpiry .. | .dblMbx ..
  | .commandTake .. | .responsePost .. | .deadlineExpiry .. | .mbxEcho .. | .ifInfo .. | .ticketChallenge ..
  | .challengeExpiry .. | .ticketPartition .. | .ticketVaultPolicy .. | .ticketSealedPolicy ..
  | .ticketDebugUnlock .. | .ticketExpertGrant .. | .ticketRollback .. | .ticketExclusion .. | .ticketCustodyKeys ..
  | .ticketRevoke .. | .fuseBlowDone .. | .grantLapse .. | .partitionGet .. | .grantStatus .. | .getVersion ..
  | .getCapabilities .. | .negotiateAlgorithms .. | .getDigests .. | .getCertificate .. | .challenge ..
  | .getMeasurements .. | .measureGet .. | .rollbackStatus .. | .flitDelivery .. | .promotion .. | .linkError ..
  | .routeBankWrite .. | .epochSwitch .. | .epochDrainDone | .routeDrainLate | .windowOpen .. | .windowClose ..
  | .netStatus .. | .schedLoad .. | .routeEpoch .. | .mcastGroupDefine .. | .mcastGroupDelete .. | .eddyTimeout ..
  | .eddyMode .. | .eddyAbort .. | .arrive .. | .wait .. | .acquire .. | .tryAcquire .. | .release .. | .set ..
  | .clear .. | .add .. | .read .. | .cancelWait .. | .notify .. | .lullAlloc .. | .lullFree .. | .putProfile ..
  | .trainCtl .. | .putLanemap .. | .getStatus .. | .tileTrainTimeout .. | .crdyTimeout .. | .cerrN .. | .crdyFall ..
  | .bondFrame .. | .sliceStreamCommand .. | .hbmRead .. | .refresh .. | .maintenanceSlot .. | .scrub ..
  | .sliceUnitRequest .. | .zeroFillDone .. | .eccwArm .. | .eccwExpiry | .memStatus .. | .memInterleave ..
  | .scrubConfig .. | .pageRetire .. | .pprRun .. | .eccInject .. | .addressTranslation .. | .invalidationDone ..
  | .clusterWindowSet .. | .dmaKick .. | .dmaSetup .. | .dmaPause .. | .dmaResume .. | .dmaCancel .. | .cancelReq ..
  | .dmaCopy .. | .dmaFill .. | .dmaTlbi .. | .dmaNop .. | .dmaChunkAck .. | .mmuStatus .. | .dmaStatus ..
  | .stepEdge | .stepOverrun | .emit .. | .submit .. | .cancel .. | .pause .. | .resume .. | .nop .. | .ringSqtail ..
  | .ringCqhead .. | .pauseHoldExpiry .. | .handoffShipped .. | .remoteTokens .. | .handoffPathTimeout ..
  | .serveStatus .. | .tenantSetTenant .. | .tenantSetRing .. | .tenantSetProgram .. | .tenantSetFramesGrant ..
  | .tenantSetFramesFree .. | .poolRatio .. | .frameZeroed .. | .driftCopyDone .. | .driftRetry ..
  | .driftTtlExpiry .. | .adapterRegister .. | .adapterRemove .. | .driftStatus .. | .prefixFlush .. | .draftLoad ..
  | .draftUnload .. | .draftLoaded .. | .draftRound .. | .logitPacket .. | .meeDoorbell .. | .exchExpiry ..
  | .refreshDone .. | .sealedStatus .. | .meeParamsSession .. | .meeParamsRing .. | .meeParamsEnd .. | .refreshRun ..
  | .vaultOpen .. | .vaultClose .. | .vaultLifeExpiry .. | .vaultRekey .. | .vaultRekeyDone .. | .drbgReseed ..
  | .drbgReseedAuto | .drbgExhausted | .entropyFail | .peerSessionPair .. | .peerSessionResume ..
  | .peerSessionClose .. | .cxHello .. | .cxFinish .. | .cxBatch .. | .cxAck .. | .cxPre .. | .cxClose ..
  | .cxAbort .. | .cxBatchPost .. | .cxRoundTimeout .. | .cxSuspendTimeout .. | .gustBlock .. | .replayTimeout ..
  | .handshake .. | .linkLull .. | .rekey .. | .ready .. | .leave .. | .trainStepTimeout .. | .portAutoRetrain ..
  | .sealedFrame .. | .rekeyRequest .. | .rekeyRetry .. | .sealedHold .. | .sealedDown .. | .cxlDown ..
  | .cxlPoison .. | .devloadOverload .. | .devloadEnd .. | .completionTimeout .. | .quarantineEnd ..
  | .completionArrival .. | .glkClear .. | .linkStatus .. | .linkRetrain .. | .linkRekey .. | .linkOffline ..
  | .cxlStatus .. | .bar2Window .. | .thWarnAssert .. | .thWarnRelease .. | .thermalLevelTick .. | .thHalt ..
  | .resumeChange .. | .thResume | .thSensorFault .. | .thsStart .. | .conversionDone .. | .thermalRead ..
  | .thermalStatus .. | .logCommit .. | .evlAck .. | .routerUe .. | .meeUe .. | .logRead .. | .logStatus ..
  | .unitStatus .. | .unitReturn .. | .unitOffline .. | .droopTileOneCluster .. | .pam4EqualisationDone ..
  | .tclkOk .. | .crdyRise .. | .laneTestDone .. | .configurationWrite .. | .controllerFault ..
  | .handoffPageGrant .. | .remoteCancelConfirm .. => true

end Sys2Proof
end

