-- ==== Sys2Proof/Tests/Slice0.lean ====
section
/-!
SUPPORT. Tests of the model on small states, and for every statement with hypotheses a witness: concrete states and operands that meet
the hypotheses of each of its clauses together. Expected values come from the tables and worked cases of the spec.
-/
namespace Sys2Proof.Tests

open Sys2Proof.Machine

set_option Elab.async false

/-! ## Small states -/

/-- The machine with its always-on clock running and nothing else. -/
def s0 : State := State.reset
/-- A command that firmware runs: opcode, ten arguments at most, input bytes. -/
def cmdOf (op : Nat) (args : List Nat) (input : List Byte) : Mbx :=
  { st := .running, job := some op, input := input
    taken := (0, BitVec.ofNat 32 op) :: (1, if input.isEmpty then 0 else 1) :: (2, BitVec.ofNat 32 input.length)
      :: args.mapIdx fun i a => (6 + i, BitVec.ofNat 32 a) }
/-- Firmware runs a command for mailbox 0. -/
def at0 (op : Nat) (args : List Nat := []) (input : List Byte := []) (s : State := s0) : State := setBox 0 (cmdOf op args input) s
/-- A phase of the start. -/
def inPh (p : Phase) (s : State := s0) : State := { s with aon := { s.aon with phase := p } }
/-- The EXPERT grant of the host path is in force. -/
def grant (s : State := s0) : State := { s with aon := { s.aon with grantHost := some 9 } }
/-- Mailbox 0 waits for an event. -/
def waits (a : Await) (s : State := s0) : State := setBox 0 { s.box 0 with st := .accepted, await := some a } s
/-- A partition of a kind that owns mailbox 0, cluster 0, unit 0 of everything. -/
def withPart (p : Part) (s : State := s0) : State := { s with prot := { s.prot with parts := [(1, p)] } }

/-- The rail sequence has ended: the die's main logic answers. -/
def powered (s : State := s0) : State := { s with pwr := { s.pwr with step := 15 } }
/-- A state without PWR_OK, and with a reset input low. -/
def low (pwr tray pkg : Bool) : State := { s0 with pins := { s0.pins with pwrOk := pwr, trayRstN := tray, pkgRstN := pkg } }

/-- Units in a service state. -/
def units (l : List (Nat × Nat)) (st : UnitSt) (s : State := s0) : State :=
  { s with units := { s.units with tab := l.map fun u => (unitKey u.1 u.2, { st := st }) } }
/-- Region 0 of HBM lies on stack 0, which is in service. -/
def hbm (s : State := s0) : State :=
  let t := units [(5, 0)] .inService s
  { t with mem := { t.mem with regions := [(0, { mode := .stack 0, chunks := [(0, List.range 8), (1, List.range 8)] })] } }

/-! ## Pins -/

/-- Pin 0 outside its park window. -/
def pin0 (p : PmxPin) (s : State := s0) : State := { s with pmx := { s.pmx with pins := s.pmx.pins.set 0 p } }

theorem witness_PinCommandsTakeEffect :
    (let s := { s0 with clk := { sclk := true } }; s.released = true ∧ s.clk.sclk = true)
    ∧ (low false true true).pins.pwrOk = false ∧ s0.pins.pwrOk = true
    ∧ (let s := pin0 {} (grant); ((0 : Fin 4).val = fld (0 : Word) 0 2 ∧ s.released = true ∧ s.aon.grantHost.isSome = true
        ∧ s.pmx.pins[(0 : Fin 24)].park = false ∧ s.pmx.pins[(0 : Fin 24)].wroteAt ≠ some s.now ∧ badFunc s 0 0 = false ∧ sigConflict s 0 0 = false))
    ∧ s0.pmx.pins[(0 : Fin 24)].park = true
    ∧ (let s := pin0 { park := true }; s.pmx.pins[(0 : Fin 24)].park = true ∧ s.pmx.pins[(0 : Fin 24)].oldIdle = false)
    ∧ (Runs (at0 0x0A01 [23]) 0 0x0A01 ∧ ((at0 0x0A01 [23]).box 0).arg 0 = (23 : Fin 24).val)
    ∧ (let s := at0 0x0A02 [0, 0] [] (pin0 {}); Runs s 0 0x0A02 ∧ (s.box 0).exp = false ∧ (s.box 0).arg 0 = (0 : Fin 24).val
        ∧ (s.box 0).arg 1 = (0 : Fin 4).val ∧ badFunc s 0 0 = false ∧ sigConflict s 0 0 = false ∧ s.pmx.pins[(0 : Fin 24)].park = false)
    ∧ (let s := at0 0x0A03 [0, 3] [] (pin0 {}); Runs s 0 0x0A03 ∧ (s.box 0).arg 0 = (0 : Fin 24).val ∧ (s.box 0).arg 1 < 4
        ∧ s.pmx.pins[(0 : Fin 24)].cur = 0 ∧ s.pmx.pins[(0 : Fin 24)].park = false) := by decide +kernel

theorem witness_PinWriteRefusals :
    (let s := grant; s.released = true ∧ s.aon.grantHost.isSome = true ∧ s.pmx.pins[(0 : Fin 24)].park = true)
    ∧ (let s := pin0 { wroteAt := some 0 } grant; s.pmx.pins[(0 : Fin 24)].park = false ∧ s.pmx.pins[(0 : Fin 24)].wroteAt = some s.now)
    ∧ (let s := pin0 {} grant; (3 : Fin 4).val = fld (3 : Word) 0 2 ∧ s.pmx.pins[(0 : Fin 24)].park = false
      ∧ s.pmx.pins[(0 : Fin 24)].wroteAt ≠ some s.now ∧ badFunc s 0 3 = true)
    ∧ ∃ pin : Fin 24, ∃ f : Fin 4,
        (let s := { grant with clk := { sclk := true, pclk := true, wclk := true, mclk := true }, pmx := { s0.pmx with pins := s0.pmx.pins.map fun p => { p with park := false } } }
         s.pmx.pins[pin].park = false ∧ s.pmx.pins[pin].wroteAt ≠ some s.now ∧ badFunc s pin f = false ∧ sigConflict s pin f = true) := by
  refine ⟨by decide +kernel, by decide +kernel, ?_⟩
  decide +kernel

/-- R59: after a reset release every pin has its default function of Table BP-4 (MGP0 carries code 1). -/
theorem test_pin_default : s0.pmx.pins[(0 : Fin 24)].func = 1 ∧ s0.pmx.pins[(8 : Fin 24)].func = 0 := by decide +kernel

/-! ## Mailboxes -/

/-- Windsock READY and mailbox 0 in a state under token 5. -/
def boxSt (st : MbxSt) (s : State := s0) : State :=
  setBox 0 { s.box 0 with st := st, token := 5 } { s with aon := { s.aon with ready := true } }

theorem witness_DoorbellAcknowledgement :
    (s0.released = true ∧ pathReach .host (0 : Fin 16).val = true ∧ s0.aon.ready = false)
    ∧ (let s := boxSt .idle; s.released = true ∧ s.aon.ready = true ∧ (4 : Word).setWidth 16 ≠ (s.box 0).token)
    ∧ (let s := boxSt .idle; s.aon.ready = true ∧ (5 : Word).setWidth 16 = (s.box 0).token ∧ (s.box 0).st = .idle) := by decide +kernel
theorem witness_QueuedDoorbell : (let s := boxSt .idle; s.released = true ∧ pathReach .host (0 : Fin 16).val = true ∧ s.aon.ready = true
    ∧ (5 : Word).setWidth 16 = (s.box 0).token ∧ (s.box 0).st = .idle) := by decide +kernel
theorem witness_ClaimGrantsLease :
    (s0.released = true ∧ pathReach .oob (15 : Fin 16).val = true ∧ (s0.box 15).st = .free ∧ (1 : Word).setWidth 16 ≠ (0 : BitVec 16))
    ∧ ((boxSt .idle).box 0).st ≠ .free := by decide +kernel
theorem witness_LeaseRenewalAndEnd :
    (∀ st ∈ [MbxSt.idle, .queued, .running, .accepted, .late], (boxSt st).released = true ∧ held ((boxSt st).box 0) = true
      ∧ (5 : Word).setWidth 16 = ((boxSt st).box 0).token ∧ (6 : Word).setWidth 16 ≠ ((boxSt st).box 0).token) := by decide +kernel
theorem witness_MailboxServiceCompletes :
    (let s := boxSt .queued { s0 with mbx := { s0.mbx with qQ := [0] } }; s.aon.ready = true ∧ s.pins.coreHalt = false ∧ queueOf .q s = 0 :: [] ∧ (s.box 0).st = .queued)
    ∧ (let s := setBox 0 { st := .running, outbox := [{ status := 0 }] } s0; s.pins.coreHalt = false ∧ (s.box 0).outbox = { status := 0 } :: [] ∧ (s.box 0).st = .running)
    ∧ Runs (at0 0x0106 [1, 2]) 0 0x0106 ∧ Runs (at0 0x0107) 0 0x0107 := by decide +kernel

/-- R147: the token after 0xFFFF is 0x0001. -/
theorem test_token_wraps : nextToken 0xFFFF = 1 ∧ nextToken 0 = 1 := by decide +kernel

/-! ## Resets, clocks and power -/

theorem witness_ResetInputsTakeEffect :
    ((low false true true).pins.pwrOk = false ∧ (low false true true).pins.trayRstN = true ∧ (low false true true).pins.pkgRstN = true)
    ∧ (∀ l ∈ [0, 2], let s := { s0 with prot := { s0.prot with debugLevel := l } }
        s.pins.pwrOk = true ∧ s.pins.trayRstN = true ∧ s.pins.pkgRstN = true ∧ s.prot.debugLevel = l)
    ∧ (let s := low true false true; s.pins.pwrOk = true ∧ s.pins.trayRstN = false ∧ s.pins.pkgRstN = true ∧ s.haltLatched = false
      ∧ s.clk.backup = false)
    ∧ (let s := { low true false true with clk := { backup := true } }; s.pins.pwrOk = true ∧ s.pins.trayRstN = false ∧ s.pins.pkgRstN = true
      ∧ s.haltLatched = false ∧ s.clk.backup = true)
    ∧ (let s := low true true false; s.pins.pwrOk = true ∧ s.pins.pkgRstN = false ∧ s.pins.trayRstN = true ∧ s.haltLatched = false
      ∧ s.clk.backup = false)
    ∧ (let s := { s0 with start := { s0.start with wardenAt := some 1 } }
       s.start.wardenAt.isSome = true ∧ s.released = true ∧ s.pins.pwrOk = true ∧ s.haltLatched = false ∧ s.clk.backup = false)
    ∧ (let s := { s0 with pins := { s0.pins with perstN := true } }; s.pins.pwrOk = true ∧ s.pins.perstN = true) := by decide +kernel

/-- A command frame on the power bus. -/
def onBus (f : Frame) : State := { s0 with pwr := { s0.pwr with bus := some f } }

theorem witness_ClockAndRailEvents :
    (s0.pins.pwrOk = true ∧ s0.clk.backup = false ∧ s0.aon.phase = .power ∧ s0.released = true)
    ∧ (let s := { s0 with clk := { pclk := true, sclk := true } }; s.clk.pclk = true ∧ s.clk.sclk = true ∧ s.aon.phase = .power)
    ∧ (let s := { s0 with pwr := { s0.pwr with waitPg := [0] } }; Pll.idx .pclk ∈ s.pwr.waitPll ∧ s.aon.phase = .power ∧ s.pwr.waitPg ≠ [])
    ∧ (let s := { s0 with pwr := { s0.pwr with waitPg := [railKey 0 0], rails := [(railKey 0 0, { on := true })] } }
       railKey 0 0 ∈ s.pwr.waitPg ∧ (s.rail 0 0).on = true ∧ s.aon.phase = .power ∧ s.pwr.waitPll ≠ [] ∧ s.failBase = 0)
    ∧ (let s := inPh .doldrums { s0 with pwr := { s0.pwr with waitPg := [railKey 8 2] } }; railKey 8 2 ∈ s.pwr.waitPg ∧ s.aon.phase = .doldrums)
    ∧ (let s := { s0 with pwr := { s0.pwr with down := some 0 } }; s.released = true ∧ s.pwr.down = some 0)
    ∧ (let s := { s0 with pwr := { s0.pwr with seqRun := true, step := 1 } }; s.released = true ∧ s.pwr.down = none ∧ scanWaits s = true)
    ∧ s0.pwr.bus = none
    ∧ (let f : Frame := { vpm := 0, chan := 0, op := 3, data := 900, kind := .setpoint, use := .change [] [] }
       (onBus f).pins.extest = false ∧ (onBus f).pwr.bus = some f ∧ f.op = 0x3 ∧ f.use = .change [] [] ∧ (onBus f).pwr.changes = [] ∧ f.fails < 3)
    ∧ (let f : Frame := { vpm := 0, chan := 0, op := 3, data := 900, kind := .setpoint, use := .restore [] }
       (onBus f).pwr.bus = some f ∧ f.op = 0x3 ∧ f.use = .restore [])
    ∧ (let f : Frame := { vpm := 0, chan := 0, op := 9, data := 0, kind := .telemetry, use := .sweep }
       (onBus f).pwr.bus = some f ∧ f.op = 0x9 ∧ f.use = .sweep ∧ responseCrc (0 : BitVec 16) = (BitVec.ofNat 8 (responseCrc 0)).toNat
       ∧ 8 ≤ f.op ∧ responseCrc (0 : BitVec 16) ≠ (BitVec.ofNat 8 (responseCrc 0) + 1).toNat) := by
  decide +kernel

/-- R82: a sweep in an order of its own, and one whose operand names a channel twice. -/
theorem test_sweep_order :
    sweepOrder [(8, 1), (8, 0), (7, 2), (7, 1), (7, 0), (6, 2), (6, 1), (6, 0), (5, 0), (4, 0), (3, 0), (2, 0), (1, 2), (1, 1), (1, 0),
      (0, 2), (0, 1), (0, 0)] = allChannels.reverse ∧ sweepOrder [(0, 0), (0, 0)] = allChannels := by decide
theorem witness_GovernorDroopsAndLease :
    (s0.released = true ∧ noFrame (fun u => u = .sweep) s0 = true ∧ s0.pwr.bus = none)
    ∧ (let s := onBus { vpm := 0, chan := 0, op := 3, data := 0, kind := .setpoint, use := .restore [] }
       s.released = true ∧ noFrame (fun u => u = .sweep) s = true ∧ s.pwr.bus.isSome = true)
    ∧ (let s := onBus { vpm := 0, chan := 0, op := 9, data := 0, kind := .telemetry, use := .sweep }
       s.released = true ∧ noFrame (fun u => u = .sweep) s = false)
    ∧ (let s := { s0 with pwr := { s0.pwr with fgrRamp := 1, fgrOn := 1, droopPause := 1 } }
     s.pwr.fgrRamp.getLsbD 0 = true ∧ s.pwr.fgrOn.getLsbD 0 = true ∧ s.pwr.droopPause.getLsbD 0 = true ∧ s.released = true)
    ∧ (let s := { s0 with aon := { s0.aon with owner := .windsock } }; s.windsockOwns = true ∧ s.pins.coreHalt = false) ∧ s0.windsockOwns = false
    ∧ (Runs (at0 0x0A20) 0 0x0A20 ∧ ((at0 0x0A20).box 0).exp = false) ∧ Runs (at0 0x0A22) 0 0x0A22
    ∧ (let s := at0 0x0A21 [1, 0, 0, 0, 0] [] { s0 with aon := { s0.aon with owner := .windsock } }
       Runs s 0 0x0A21 ∧ (s.box 0).exp = false ∧ s.windsockOwns = true ∧ (s.box 0).arg 4 = 0 ∧ mbxPart s 0 = 0 ∧ (s.box 0).await = none ∧ maskArg (s.box 0) &&& s.store.harvestCl = 0
       ∧ ∀ c ∈ maskList (maskArg (s.box 0)), s.unitSt 0x01 c ≠ .inService) := by decide +kernel

/-! ## Start and join -/

theorem witness_StartPhasesPass :
    (let s := inPh .fuse; inPhase .fuse s = true ∧ s.failBase < 3 ∧ popcount s.store.harvestRt ≤ 2)
    ∧ (let s := inPh .fuse { s0 with store := { s0.store with failCnt := 3 } }; inPhase .fuse s = true ∧ 3 ≤ s.failBase)
    ∧ (let s := inPh .boot; inPhase .boot s = true ∧ s.start.triedOther = false)
    ∧ (let s := inPh .auth; inPhase .auth s = true ∧ s.prot.counters[0] ≤ (0 : BitVec 16).toNat ∧ s.start.triedOther = false)
    ∧ (∀ p ∈ [Phase.power, .fuse, .train, .boot, .auth], (inPh p).aon.startSt = .running ∧ (inPh p).released = true
        ∧ (inPh p).haltLatched = false ∧ (inPh p).start.triedOther = false) := by decide +kernel

/-- A package in PH_JOIN with TRAY_DONE high and the whole roster heard. -/
def joinState : State :=
  { s0 with aon := { s0.aon with phase := .join, roster := 0xFF }
            pins := { s0.pins with doneDrv := false, doneOthers := true }
            start := { s0.start with doneSince := some 0 } }
theorem witness_JoiningTheTray :
    (let s := { s0 with aon := { s0.aon with startSt := .hold } }; s.aon.startSt = .hold) ∧ s0.aon.phase ≠ .join
    ∧ (let s := { joinState with aon := { joinState.aon with phase := .serve } }; s.doneLvl = true ∧ s.start.doneSince.isSome = true ∧ s.aon.phase ≠ .join)
    ∧ (joinState.doneLvl = true ∧ joinState.start.doneSince.isSome = true ∧ joinState.aon.phase = .join ∧ joinState.aon.startSt ≠ .failed
      ∧ joinState.released = true ∧ joinState.aon.roster ||| joinState.store.exclMap = 0xFF
      ∧ ∀ e ∈ joinState.start.mapsHeard, e.2 = joinState.store.exclMap.toNat)
    ∧ (let s := setGport 0 { st := .up } joinState; joinPhase s = true ∧ gustUsable s 0 = true ∧ (1 : Fin 8) ≠ s.aon.slot)
    ∧ (Runs (at0 0x0101) 0 0x0101 ∧ ((at0 0x0101).box 0).exp = false)
    ∧ (let s := at0 0x0102 [] [] (inPh .doldrums { s0 with clk := { sclk := true } }); Runs s 0 0x0102 ∧ s.aon.phase = .doldrums ∧ s.startWritable = true)
    ∧ (Runs (at0 0x8102) 0 0x0102 ∧ ((at0 0x8102).box 0).exp = true)
    ∧ (Runs (at0 0x0103) 0 0x0103 ∧ ((at0 0x0103).box 0).exp = false)
    ∧ (let s := at0 0x0104 [8384512] [1, 2]; Runs s 0 0x0104 ∧ (s.box 0).exp = false ∧ (s.box 0).input ≠ [] ∧ (s.box 0).input.length ≤ 4096
        ∧ (s.box 0).arg 0 % 4096 = 0 ∧ (s.box 0).arg 0 + (s.box 0).input.length ≤ 8388608 ∧ s.regionRo (if s.aon.fwSlot then 0 else 1) = false)
    ∧ (let s := at0 0x0105 [1]; Runs s 0 0x0105 ∧ (s.box 0).arg 0 < 2 ∧ s.regionRo 3 = false) := by decide +kernel

/-! ## Host port -/

/-- The host link is up; window 15 is open for reads and writes of partition 0. -/
def hostState : State := { s0 with link := { s0.link with hostUp := true, bar2 := [(15, { enable := true, write := true })] } }
theorem witness_HostPortCommands :
    (s0.pins.pwrOk = true ∧ s0.pins.perstN = false)
    ∧ (let s := { s0 with link := { s0.link with hostTrain := true }, clk := { pclk := true } }; s.link.hostTrain = true ∧ s.clk.pclk = true)
    ∧ (let s := powered hostState
       let x := s.bar2win ((0xF00000000 : BitVec 36).toNat / 2 ^ 32)
       s.link.hostUp = true ∧ s.mainDown = false ∧ x.enable = true ∧ x.write = true
       ∧ (dvaRead (barAccess x (0xF00000000 : BitVec 36).toNat false) (0 : BitVec 13).toNat s).1.isOk = true
       ∧ (dvaRead (barAccess x (0xF00000000 : BitVec 36).toNat false) (4 : BitVec 13).toNat s).1.isOk = false)
    ∧ (let x := (powered hostState).bar2win ((0 : BitVec 36).toNat / 2 ^ 32); x.enable = false ∧ x.write = false)
    ∧ (let s := inPh .doldrums hostState; s.link.hostUp = true ∧ s.mainDown = true)
    ∧ (let s := at0 0x0706 [15, 0, 0xFFFF, 3, 1] [] (withPart { kind := .ordinary }); Runs s 0 0x0706 ∧ (s.box 0).exp = false ∧ mbxPart s 0 = 0
        ∧ (s.box 0).arg 0 = (15 : Fin 16).val ∧ (s.box 0).arg 3 < 4 ∧ (s.box 0).arg64 1 % 65536 = 0 ∧ (s.box 0).arg64 1 + 2 ^ 32 ≤ 2 ^ 48
        ∧ (s.box 0).arg 4 < 64 ∧ partKind s ((s.box 0).arg 4) ≠ .unused ∧ partKind s ((s.box 0).arg 4) ≠ .vault) := by decide +kernel

/-- Two tiles whose ports are all ready, in PH_TRAIN. -/
def trainState : State :=
  inPh .train { s0 with
    bond := { s0.bond with
      tiles := Vector.replicate 4 { prof := some { bdiv := 1, f := 2400, vdef := 0, vmin := 0, vmax := 0, share := 0, feat := 0, clusters := 0 } }
      ports := (List.range 128).filterMap fun c => if c % 32 < 16 && c < 64 then some (c, { (({} : BondPort)) with prst := true, ready := true }) else none }
    units := { s0.units with tab := (List.range 128).filterMap fun c => if c % 32 < 16 && c < 64 then some (unitKey 1 c, { st := .probation }) else none } }
/-- Every stack trains and no router is dead. -/
def goodFacts : TrainFacts := { hbm := 0xFF, dead := 0, cxl0 := none, cxl1 := none, noSpare := [] }
theorem test_no_dead_router : trainedDead trainState goodFacts = 0 := by decide +kernel
theorem witness_StartPhasesPass_train :
    (let s := trainState
     let dead := trainedDead s goodFacts
     let u := trainStacks goodFacts.hbm (trainTiles dead (trainMesh dead s))
     inPhase .train s = true ∧ s.aon.startSt = .running ∧ strapsWrong u = false ∧ 2 ≤ tilesUp u ∧ 4 ≤ popcount goodFacts.hbm
     ∧ popcount dead ≤ 2 ∧ s.aon.excluded = false ∧ s.vane.staged = none ∧ s.vane.capFail = none) := by
  dsimp only
  rw [test_no_dead_router]
  decide +kernel
theorem witness_StartPhasesPass_train_fails :
    (let s := inPh .train
     let f : TrainFacts := { hbm := 0, dead := 0, cxl0 := none, cxl1 := none, noSpare := [] }
     inPhase .train s = true ∧ s.aon.startSt = .running ∧ popcount f.hbm < 4) := by decide +kernel

/-! ## Two-party protection -/

/-- A ticket of a setting: challenge 7, BASE 5, both signatures flagged, with r and s of 1, a lifetime. -/
def ticketBytes (setting life : Nat) (payload : List Byte) : List Byte :=
  leBytes 4 0x54434B54 ++ leBytes 2 1 ++ leBytes 2 (256 + payload.length) ++ leBytes 4 7 ++ List.replicate 32 0 ++ leBytes 2 0 ++ leBytes 1 0
    ++ leBytes 1 setting ++ leBytes 2 payload.length ++ leBytes 1 3 ++ leBytes 1 0 ++ leBytes 4 life ++ leBytes 8 5 ++ payload
    ++ (List.replicate 4 (List.replicate 47 (0 : Byte) ++ [1])).flatten
/-- An OWNED package with challenge 7 alive, that runs a TICKET_SUBMIT. -/
def ticketState (setting life : Nat) (payload : List Byte) : State :=
  at0 0x0202 [] (ticketBytes setting life payload) { s0 with prot := { s0.prot with
    counters := s0.prot.counters.set 1 1
    custody := some { hc := [1], ts := [2], gen := 1, mac := Config.dieMac (custodyBytes [1] [2] 1) }
    challenges := [{ id := 7, nonce := List.replicate 32 0, issued := 0 }] } }
/-- Settings with a payload in range of each. -/
def ticketCases : List (Nat × Nat × List Byte) :=
  [(1, 0, 1 :: List.replicate 64 0), (2, 0, List.replicate 20 0), (3, 0, List.replicate 105 0 ++ [12, 1]), (4, 1, [0]), (5, 1, [1]),
    (6, 0, [2, 1, 0]), (7, 0, [0]), (8, 0, 4 :: List.replicate 96 0 ++ 4 :: List.replicate 96 1), (9, 0, [1])]

/-- The checks that no signature and no digest takes part in. -/
theorem ticket_checks : ∀ c ∈ ticketCases, let s := ticketState c.1 c.2.1 c.2.2
    let b := (s.box 0).input
    (s.box 0).xferFail = false ∧ (s.box 0).job = some 0x0202 ∧ tkSetting b = c.1 ∧ ¬ s.aon.phase = .doldrums ∧ cosigned b = true
    ∧ sigInRange (tkHcSig b) = true ∧ sigInRange (tkTsSig b) = true
    ∧ tkFormat (s.box 0) = true ∧ formCheck 0 (s.box 0) = none ∧ chalLive s b = true
    ∧ ¬ (leAt b 44 2 ≠ s.aon.trayId ∨ leAt b 46 1 ≠ s.aon.slot.val) ∧ leAt b 56 8 = 5 ∧ payloadOk b = true ∧ constraintOk s b = true
    ∧ ticketBusy s b = false ∧ ticketStuck s b = none := by decide +kernel
/-- The custody record is valid in each of these states. -/
theorem ticket_owned (a b : Nat) (p : List Byte) (k : Nat) : custodyPermits (ticketState a b p) k = true := by
  have h : custodySt (ticketState a b p) = .owned := by
    have h1 : (ticketState a b p).prot.counters[1] = 1 := rfl
    have h2 : custodyValid (ticketState a b p) = true := by simp [custodyValid, ticketState, at0, setBox, Vector.set]
    simp [custodySt, h1, h2]
  simp [custodyPermits, h]
/-- Where signatures verify and BASE is the one of the ticket, a ticket of every setting is accepted: signatures and digests are opaque in
the model, so this is said for every value of them that a ticket can meet. -/
theorem witness_AcceptedTicketsApply (he : ∀ k m g, Config.ecdsaOk k m g = true)
    (hb : ∀ s k p, baseOf s k p = 5) : ∀ c ∈ ticketCases, let s := ticketState c.1 c.2.1 c.2.2
    (s.box 0).job = some 0x0202 ∧ ticketStatus s 0 (s.box 0) = none ∧ tkSetting (s.box 0).input = c.1 := by
  intro c hc
  obtain ⟨hx, h1, h2, h3, h5, hs, ht, h6, h7, h8, h9, h10, h11, h12, h13, h14⟩ := ticket_checks c hc
  refine ⟨h1, ?_, h2⟩
  simp only [ticketStatus, badSigner, sigOk, hx, hs, ht, baseFresh, he, hb, ticket_owned, h3, h5, h6, h7, h8, h9, h10, h11, h12, h13, h14]
  simp
theorem witness_RefusedTicketsChangeNothing :
    (∀ k ∈ [1, 2, 3, 4, 5, 6, 7, 9], let s := at0 0x0202 [] (ticketBytes k 0 [0])
      (s.box 0).job = some 0x0202 ∧ ticketStatus s 0 (s.box 0) = some (0x12, 0x0207) ∧ tkSetting (s.box 0).input = k)
    ∧ (let s := inPh .doldrums (ticketState 8 0 [0]); (s.box 0).job = some 0x0202 ∧ tkSetting (s.box 0).input = 8
        ∧ ticketStatus s 0 (s.box 0) = some (0x30, 0)) := by decide +kernel

/-- The DRBG answers. -/
def rng (s : State := s0) : State := { s with sealed := { s.sealed with drbg := { s.sealed.drbg with ready := true } } }
theorem witness_ProtectionCommandsTakeEffect :
    (let s := at0 0x0201 [] [] (rng); Runs s 0 0x0201 ∧ s.prot.challenges.length < 8 ∧ drbgDown s = false)
    ∧ (let r : FuseRun := { counter := 2, target := 256, tries := 2 }
       let s := { s0 with prot := { s0.prot with counters := s0.prot.counters.set 2 255, run := some r } }
       s.prot.run = some r ∧ 2 ≤ r.tries)
    ∧ (let r : FuseRun := { counter := 2, target := 1 }; { s0 with prot := { s0.prot with run := some r } }.prot.run = some r ∧ r.tries < 2)
    ∧ (let s := { s0 with aon := { s0.aon with grantHost := some 1, grantOob := some 1 }, prot := { s0.prot with debugEnd := some 1 } }
       s.aon.grantHost.isSome = true ∧ s.aon.grantOob.isSome = true ∧ s.prot.debugEnd.isSome = true)
    ∧ (Runs (at0 0x0203 [63]) 0 0x0203 ∧ ((at0 0x0203 [63]).box 0).arg 0 < 64) ∧ Runs (at0 0x0204) 0 0x0204 ∧ Runs (at0 0x0207) 0 0x0207
    ∧ (Runs (at0 0x0206 [12]) 0 0x0206 ∧ ((at0 0x0206 [12]).box 0).arg 0 ≤ 12)
    ∧ (∀ c ∈ [0x84, 0xE1, 0xE3, 0x81, 0x82, 0x83, 0xE0], let s := at0 0x0205 [] [0x12, BitVec.ofNat 8 c, 0, 0]
        (s.box 0).job = some 0x0205 ∧ formCheck 0 (s.box 0) = none ∧ (s.box 0).inInline = true ∧ spdmCode (s.box 0).input = c)
    ∧ (∀ b ∈ [[(0x10 : Byte), 0x84, 0, 0], [0x13, 0x81, 0, 0], [0x13, 0xE0, 0, 1]], 4 ≤ b.length)
    ∧ spdmCode [0x10, 0x84, 0, 0] = 0x84 ∧ ({ stage := 3 } : SpdmConn).stage = 3
    ∧ (leAt [0x13, 0x81, 0, 0] 0 1 = 0x13 ∧ spdmCode [0x13, 0x81, 0, 0] = 0x81)
    ∧ (let b : List Byte := [0x13, 0xE0, 1, 0xFF] ++ List.replicate 41 0
       leAt b 0 1 = 0x13 ∧ spdmCode b = 0xE0 ∧ measureReqOk b = true ∧ wantsSig b = true) := by decide +kernel

/-! ## Registers -/

theorem witness_OfflineBlocks : s0.released = true ∧ s0.blockDown (blockOf 0x330000) = true := by decide +kernel
theorem witness_ReservedAddresses : s0.released = true ∧ s0.blockDown (blockOf 0x0000FC) = false ∧ regAt .bar0 0x0000FC = none := by decide +kernel
theorem witness_RegisterWritesTakeEffect :
    (∀ c ∈ [((0x000000 : BitVec 24), RegName.aonId), (0x000008, .aonStatus), (0x200080, .dblIrqStatus), (0x10003C, .mbxCmd 0 15),
        (0x300004, .eccwAddrLo), (0x320004, .thsMaskLo)], regAt .bar0 c.1 = some c.2)
    ∧ busUp s0 .bar0 = true ∧ busDown s0 .bar0 0x000008 = false ∧ busDown (powered (inPh .serve)) .bar0 0x300004 = false
    ∧ busDown (inPh .serve) .bar0 0x320004 = false ∧ pathReach (busPath .bar0) 0 = true ∧ boxOpen (s0.box 0) = true
    ∧ s0.aon.grantHost = none ∧ grant.aon.grantHost.isSome = true
    ∧ (let s := { s0 with clk := { sclk := true } }; busUp s .oob = true ∧ oobReach 0x10FFFC = true ∧ busDown s .oob 0x10FFFC = false
        ∧ (regAt .oob 0x10FFFC).isSome = true ∧ regAt .oob 0x10FFFC ≠ some .aonTimeLo
        ∧ targetAnswers s (.i3c 0x30) = true ∧ targetAnswers s (.i3c 0) = false ∧ s.pins.extest = false ∧ s.pins.i3cDyn = none) := by
  decide +kernel
/-! ## The Vane fabric -/

/-- A good tray header for tray 3. -/
def trayHdr : List Byte :=
  let h := leBytes 4 0xA5C33C5A ++ leBytes 2 1 ++ leBytes 2 0 ++ leBytes 2 3 ++ leBytes 2 0 ++ leBytes 2 0xD2 ++ leBytes 1 0xB1 ++ List.replicate 45 0
  h ++ leBytes 4 (crc32c h)
/-- The header of an EMPTY section of slot 0 without records; CLOCK0 is 10 MHz from a PLL. -/
def emptyHdr : List Byte :=
  let h := List.replicate 4 0 ++ leBytes 1 0 ++ leBytes 1 1 ++ leBytes 2 0 ++ leBytes 8 132 ++ List.replicate 16 0 ++ leBytes 2 10 ++ [1] ++ List.replicate 89 0
  h ++ leBytes 4 (crc32c h)
/-- Its body: the SECT_CRC. -/
def emptyBody : List Byte := leBytes 4 (crc32c emptyHdr)
/-- A package of tray 3 whose section is passing. -/
def passing (p : Phase) (m : CapMode) : State :=
  { s0 with aon := { s0.aon with phase := p, trayId := 3 }, start := { s0.start with chain := true }
            vane := { s0.vane with passing := some (emptyHdr, m), trayHdr := some trayHdr } }
/-- A state of the fabric. -/
def vaneSt (v : Vane) (p : Phase) : State := { inPh p with vane := v }

theorem witness_StreamAndLoads :
    ((passing .boot .capture).released = true ∧ (passing .boot .capture).start.chain = true ∧ isTrayHdr trayHdr = true ∧ shCrcOk emptyHdr = true
      ∧ shSlot emptyHdr = (passing .boot .capture).aon.slot.val)
    ∧ ((passing .boot .capture).vane.passing = some (emptyHdr, .capture) ∧ (passing .boot .capture).aon.trayId ≠ 0
      ∧ judge 3 trayHdr emptyHdr emptyBody = .pass ∧ judge 4 trayHdr emptyHdr emptyBody = .fail 2)
    ∧ ((passing .boot .capture).aon.phase ≠ .vane ∧ (passing .vane .capture).aon.phase = .vane ∧ (passing .vane .capture).vane.st ≠ .loading
      ∧ (passing .vane .capture).failBase < 2)
    ∧ (let s := { s0 with aon := { s0.aon with heldTrayId := some 3 }, vane := { s0.vane with passing := some (emptyHdr, .forward) } }
       s.vane.passing = some (emptyHdr, .forward) ∧ s.aon.trayId = 0 ∧ s.aon.heldTrayId = some 3)
    ∧ leAt [0xC3, 0xA5, 0x5A, 0x3C] 0 4 = 0x3C5AA5C3
    ∧ (let s := { passing .boot .capture with vane := { trayHdr := some trayHdr, requesting := true } }
       s.released = true ∧ s.start.chain = true ∧ s.vane.trayHdr.isSome = true ∧ s.vane.sawOwn = false ∧ s.aon.trayId ≠ 0 ∧ s.vane.requesting = true)
    ∧ ({ s0 with vane := { trayHdr := some trayHdr, sawOwn := true } }).vane.sawOwn = true
    ∧ (∀ p ∈ [Phase.vane, .serve], let s := vaneSt { st := .loading, loading := some (emptyHdr ++ emptyBody, 0) } p
        s.vane.st = .loading ∧ s.vane.loading = some (emptyHdr ++ emptyBody, 0) ∧ stagedOk (emptyHdr ++ emptyBody) = true ∧ s.aon.phase = p)
    ∧ stagedOk (emptyHdr ++ List.replicate 268 0) = false := by decide +kernel
theorem witness_StreamAndLoads_commands :
    (let s := vaneSt { sending := true } .vane; s.vane.sending = true)
    ∧ (let s := vaneSt { samples := 1 } .vane; 0 < s.vane.samples ∧ s.errLvl = true)
    ∧ (let s := { vaneSt { samples := 1 } .vane with pins := { s0.pins with errDrv := true }, clk := { sclk := true } }
       0 < s.vane.samples ∧ s.errLvl = false ∧ canSend s = true ∧ s.vane.errSends < 2)
    ∧ (let s := { vaneSt { requesting := true } .vane with aon := { s0.aon with phase := .vane, startSt := .hold } }
       s.vane.requesting = true ∧ s.aon.phase = .vane ∧ s.aon.startSt = .hold)
    ∧ (let s := setGport 6 { st := .up } { inPh .vane with clk := { sclk := true } }; (joinPhase s = true ∨ s.aon.phase = .vane) ∧ gustUsable s 6 = true ∧ (7 : Fin 8) ≠ s.aon.slot ∧ (7, 1) ∉ s.vane.relayed
        ∧ canSend s = true ∧ s.vane.lastSend = none)
    ∧ (Runs (at0 0x0801) 0 0x0801 ∧ ((at0 0x0801).box 0).exp = false)
    ∧ (let s := at0 0x0802 [] [] { inPh .vane with clk := { sclk := true } }; Runs s 0 0x0802 ∧ canSend s = true ∧ (s.box 0).exp = false)
    ∧ (let s := at0 0x8802 [0x10000] [] { inPh .vane with clk := { sclk := true } }; Runs s 0 0x0802 ∧ (s.box 0).exp = true ∧ (s.box 0).arg 0 % 65536 = 0)
    ∧ (let s := at0 0x0803 [] [] (vaneSt { st := .loading } .vane); Runs s 0 0x0803 ∧ s.vane.st = .loading)
    ∧ (let s := at0 0x0803 [] [] (vaneSt { st := .running, vpEnable := 1 } .serve); Runs s 0 0x0803 ∧ s.vane.st ≠ .loading ∧ s.vane.ending = []
        ∧ ∀ p : Fin 4, s.vane.vpEnable[p] = true → (0 : BitVec 4)[p] = false ∧ s.vaneReads p.val = [])
    ∧ (let s := at0 0x8803 [] [] (vaneSt { st := .running } .serve); Runs s 0 0x0803 ∧ s.vane.st ≠ .loading ∧ (s.box 0).exp = true) := by decide +kernel

/-- A running fabric with its self-port enabled, home region 0, every region allowed, and some regions taken. -/
def spState (l : Tab OpenRegion) : State :=
  vaneSt { st := .running, hdr := List.replicate 5 0 ++ [2] ++ List.replicate 58 0 ++ List.replicate 8 0xFF ++ List.replicate 56 0, opened := l } .serve
theorem witness_SelfPortCommands :
    (let s := spState []; spLive s = true ∧ (shAllow s.vane.hdr).getLsbD 63 = true ∧ 63 ≠ shHome s.vane.hdr ∧ s.region 63 = none
      ∧ s.vane.opened.length < 4)
    ∧ (∃ r : Fin 64, r.val ≠ 0 ∧ regionPort r.val = none) ∧ (∃ r : Fin 64, r.val ≠ 0 ∧ (regionPort r.val).isSome = true)
    ∧ (∀ k ∈ [0, 1, 2], (spState [(1, { stage := k, since := 0 })]).region 1 = some { stage := k, since := 0 }
        ∧ (spState [(1, { stage := k, since := 0 })]).vane.ending = [])
    ∧ (let s := spState [(27, { stage := 0, since := 0 })]; regionPort 27 = some 0 ∧ s.region 27 = some { stage := 0, since := 0 }
        ∧ s.net.image = none ∧ ∀ y ∈ s.net.flight, y.waits ≠ some 0)
    ∧ spLive (spState [(1, { stage := 2, since := 0 })]) = true
    ∧ (faRegion 0x44000 = 1 ∧ faRegion 0x40000 = 1 ∧ frameOk 0x40000 1 = true ∧ frameOk 0x404E1 1 = true ∧ frameOk 0x404E2 1 = false)
    ∧ crc32c (leBytes 4 (0x40000 : BitVec 24).toNat ++ leBytes 4 (1 : Word).toNat ++ leBytes 4 (0 : Word).toNat)
        = (BitVec.ofNat 32 (crc32c (leBytes 4 0x40000 ++ leBytes 4 1 ++ leBytes 4 0))).toNat
    ∧ crc32c [] = (0 : Word).toNat ∧ crc32c [] ≠ (1 : Word).toNat := by decide +kernel

set_option maxRecDepth 20000 in
theorem witness_SelfPortCommands_write : crc32c (leBytes 4 (0x40000 : BitVec 24).toNat ++ List.replicate 256 0)
    = (BitVec.ofNat 32 (crc32c (leBytes 4 0x40000 ++ List.replicate 256 0))).toNat := by decide +kernel

/-- The check value of the Castagnoli CRC of "123456789" (the rule names the polynomial, R17 of its chapter). -/
theorem test_crc32c : crc32c [0x31, 0x32, 0x33, 0x34, 0x35, 0x36, 0x37, 0x38, 0x39] = 0xE3069283 := by decide +kernel

/-! ## Thermal -/

/-- A state of the thermal guard. -/
def hot (th : Therm) (s : State := s0) : State := { s with therm := th }
/-- A start that holds for a reason. -/
def holding (r : Nat) : State := { s0 with aon := { s0.aon with startSt := .hold, reason := r } }
theorem witness_ThermalEventsTakeEffect :
    (s0.pins.pwrOk = true ∧ s0.therm.halt = false ∧ s0.therm.faulted.getLsbD 47 = false ∧ s0.released = true ∧ (low true false true).released = false)
    ∧ (hot { faulted := 1 }).therm.faulted.getLsbD 0 = true
    ∧ (let s := hot { targets := Vector.replicate 6 { level := 1, risen := true } }; targetWarn s.therm 5 = false ∧ s.therm.targets[(5 : Fin 6)].level = 1
        ∧ s.therm.targets[(5 : Fin 6)].risen = true)
    ∧ (let s := hot { halt := true, resumeSince := some 0, faulted := 0xFF }; s.therm.halt = true ∧ s.therm.resumeSince.isSome = true
        ∧ popcount s.therm.faulted ≤ 8 ∧ s.released = true ∧ s.clk.backup = false)
    ∧ (let s := hot { halt := true, resumeSince := some 0, faulted := 0x1FF }; s.therm.halt = true ∧ s.therm.resumeSince.isSome = true
        ∧ 8 < popcount s.therm.faulted)
    ∧ (∀ r ∈ [1, 2], (holding r).aon.startSt = .hold ∧ (holding r).released = true ∧ (holding r).aon.reason = r ∧ (holding r).therm.conv = none)
    ∧ ((0 : BitVec 48) &&& ~~~ s0.therm.faulted) = 0 ∧ ((1 : BitVec 48) &&& ~~~ s0.therm.faulted) ≠ 0 := by decide +kernel
theorem witness_ConversionsAndThermalCommands :
    (let s := grant (inPh .serve); s.released = true ∧ s.blockDown .ths = false ∧ s.aon.grantHost.isSome = true ∧ bit (1 : Word) 0 = true ∧ s.therm.conv = none)
    ∧ (let s := inPh .serve; s.blockDown .ths = false ∧ s.aon.grantHost = none)
    ∧ (hot { conv := some (1, .direct) }).therm.conv = some (1, .direct) ∧ (hot { conv := some (1, .mailbox 0) }).therm.convWait = []
    ∧ (Runs (at0 0x0901) 0 0x0901 ∧ ((at0 0x0901).box 0).exp = false ∧ (BitVec.allOnes 48 &&& ~~~ (at0 0x0901).therm.faulted) ≠ 0)
    ∧ Runs (at0 0x0902) 0 0x0902 := by decide +kernel


/-! ## Faults and returns -/

theorem witness_FencesAndReturns :
    routerLive (units [(2, 127)] .probation) 127 = true ∧ carrying (units [(6, 15)] .inService) 6 15 = true
    ∧ carrying (units [(5, 7)] .inService) 5 (15 / 2) = true
    ∧ (let s := at0 0x0B03 [0x0D, 2]; Runs s 0 0x0B03 ∧ (s.box 0).exp = false ∧ (s.box 0).arg 1 < unitCount ((s.box 0).arg 0))
    ∧ (∀ u ∈ [(2, 127), (5, 7), (6, 15), (7, 11), (8, 7), (9, 3), (0x0D, 2), (1, 127)], let s := at0 0x0B04 [u.1, u.2] [] (units [u] .faulted)
        Runs s 0 0x0B04 ∧ (s.box 0).exp = false ∧ mbxPart s 0 = 0 ∧ epochPending s = false ∧ mayLeave u.1 u.2 = true ∧ s.unitSt u.1 u.2 = .faulted
        ∧ (s.unitRec u.1 u.2).refused = false)
    ∧ (let t := units [(5, 7)] .probation
       let s := { t with units := { t.units with returning := [(5, 7, 0)] } }
       (5 : Fin 256) ≠ 7 ∧ isReturning s 5 7 = true ∧ s.unitSt 5 7 = .probation ∧ s.mem.zeroing.getLsbD 7 = false ∧ portsReady s (provingSet s 5 7) = true)
    ∧ (∀ u ∈ [(2, 127), (6, 15), (7, 11)], let s := at0 0x0B05 [u.1, u.2] [] (units (u :: (List.range 127).map fun n => (2, n)) .inService)
        Runs s 0 0x0B05 ∧ (s.box 0).exp = false ∧ mbxPart s 0 = 0 ∧ epochPending s = false ∧ mayLeave u.1 u.2 = true ∧ s.unitSt u.1 u.2 = .inService
        ∧ offlineLimit s u.1 u.2 = false) := by decide +kernel

/-- The ring holds one record that is not committed. -/
def uncommitted (s : State := s0) : State := { s with clk := { s.clk with sclk := true }, log := { s.log with ring := [(0, { seq := 1 })], uncommitted := [0] } }
theorem witness_EventLogCommands :
    (let s := uncommitted; s.regionRo 5 = false ∧ s.clk.sclk = true ∧ s.log.uncommitted ≠ []
      ∧ s.store.logNext + (s.log.uncommitted.take 8).length ≤ s.store.logOldest + logCapacity)
    ∧ (let s := uncommitted { s0 with store := { s0.store with regions := s0.store.regions.set 5 { spares := 0 } } }
       s.regionRo 5 = false ∧ s.clk.sclk = true ∧ s.log.uncommitted ≠ [] ∧ (s.store.regions[5]).spares = 0)
    ∧ (s0.released = true ∧ s0.log.pendingAfter 0 = false)
    ∧ (let s := { s0 with log := { s0.log with ring := [(0, { seq := 1, cls := .sec })], seq := 2 }, link := { s0.link with bme := true, d0 := true } }
       s.log.pendingAfter 0 = true ∧ s.hostReady = true)
    ∧ (let s := at0 0x0B01 [0, 0, 120, 0]; Runs s 0 0x0B01 ∧ (s.box 0).exp = false ∧ 1 ≤ (s.box 0).arg 2 ∧ (s.box 0).arg 2 ≤ 120
        ∧ (s.box 0).arg 1 < 256 ∧ (s.box 0).arg 3 = 0 ∧ s.store.logOldest ≤ logPos (s.box 0))
    ∧ (Runs (at0 0x0B02) 0 0x0B02 ∧ ((at0 0x0B02).box 0).exp = false) := by decide +kernel
theorem witness_CompletionsAndDriftPorts :
    (let s := { s0 with link := { s0.link with hostQuar := [(16383, 0)] } }; (∃ e ∈ s.link.hostQuar, e.1 = (16383 : BitVec 14).toNat)
      ∧ ∀ e ∈ s.link.hostQuar, e.1 ≠ (0 : BitVec 14).toNat)
    ∧ (let s := { s0 with link := { s0.link with cxl := [(1, { up := true, quar := [(7, 0)] })] } }
       (∃ e ∈ (s.cxlPort 1).quar, e.1 = (7 : BitVec 16).toNat) ∧ (s.cxlPort 1).up = true)
    ∧ (let s := setGport 11 { tracked := [(127, 7, 0)], quar := [(127, 8, 0)] } s0
       hasTag (s.gport 11).tracked 127 7 = true ∧ ∃ e ∈ (s.gport 11).quar, e.1 = 127 ∧ e.2.1 = 8)
    ∧ (let s := { s0 with link := { s0.link with cxl := [(1, { up := true })] }, serve := { s0.serve with driftSize := #v[4096, 4096] } }
       (8191 : BitVec 26).toNat < driftPagesAll s ∧ (s.cxlPort (driftPort s 8191)).up = true) := by decide +kernel

/-! ## Memory -/

theorem witness_StoresLandWhereAddressed :
    (let s := hbm; (0x1003F : BitVec 48).toNat < hbmEnd ∧ ctrlAddr s ((0x1003F : BitVec 48).toNat / 64 * 64) = some (0, 0x8000)
      ∧ stackUp s (0 / 2) = true ∧ s.flaw (0x1003F / 64 * 64) = {} ∧ s.sealed.vaults = [] ∧ s.mem.armed = false
      ∧ (memWrite 0x1003F [1, 2] s).1 = true)
    ∧ (let s := units [(2, 5)] .inService; sliceOpen s 5 .gale 0 = true ∧ sliceOpen s 5 .spill (191 * 16384) = true ∧ s.mem.flaws = [] ∧ s.mem.armed = false
      ∧ bankFree s 5 0 = true ∧ ∀ w, (joinBad (s.flaw w).bad (foundIn [] w)).length ≤ 2)
    ∧ (joinBad (hbm.flaw 0x10000).bad (([0, 1, 67] : List (Fin 68)).map Fin.val)).length ≤ 3
    ∧ (let s := { units [(2, 5)] .inService with mem := { s0.mem with bankUsed := [bankOf 5 0] } }
       sliceOpen s 5 .gale 0 = true ∧ bankFree s 5 0 = false)
    ∧ (let x : SliceWait := { node := 5, port := .gale, off := 0, len := 8, write := none, src := 0, tag := 1, found := [] }
       let y : SliceWait := { x with port := .spill, tag := 2 }
       let s := { s0 with mem := { s0.mem with bankWait := [x, y] } }
       bankOf x.node.val x.off.toNat = bankOf y.node.val y.off.toNat ∧ s.mem.backs = [] ∧ s.mem.bankWait = [x, y] ∧ waitRank x ≤ waitRank y
       ∧ waitRank x < waitRank y)
    ∧ (let s := hbm; (∀ a, (joinBad (s.flaw a).bad []).length ≤ 2) ∧ s.sealed.vaults = []) := by
  refine ⟨by decide +kernel, ⟨by decide +kernel, by decide +kernel, by decide +kernel, by decide +kernel, by decide +kernel, fun w => ?_⟩,
    by decide +kernel, by decide +kernel, by decide +kernel, fun a => ?_, by decide +kernel⟩
  · have h : (units [(2, 5)] .inService).flaw w = {} := rfl
    rw [h]
    exact Nat.zero_le 2
  · have h : hbm.flaw a = {} := rfl
    rw [h]
    exact Nat.zero_le 2
theorem witness_ReadsAndScrubbing :
    (hbmEnd ≤ (0x008000000000 : BitVec 48).toNat ∧ (0x007FFFFFFFFF : BitVec 48).toNat < hbmEnd)
    ∧ (let s := hbm; ctrlAddr s 0x10000 = some (0, 0x8000) ∧ stackUp s (0 / 2) = true ∧ s.flaw 0x10000 = {} ∧ (0 : Fin 68) ≠ 67)
    ∧ (let s := hbm { s0 with mem := { s0.mem with rescrub := [(0, [0x10000])] } }; stackUp s ((0 : Fin 16).val / 2) = true
        ∧ Tab.get [] s.mem.rescrub 0 = 0x10000 :: [] ∧ s.flaw 0x10000 = {} ∧ ctrlAddr s 0x10000 = some (0, 0x8000) ∧ s.net.windows = [])
    ∧ (let s := units [(2, 5)] .inService; sliceOpen s 5 .gale 0 = true ∧ s.mem.flaws = [] ∧ bankFree s 5 0 = true)
    ∧ (let s := units [(2, 5)] .inService; routerLive s 5 = true ∧ s.mem.flaws = [] ∧ Tab.get 0 s.mem.scrubPos 5 + 1 < scrubLines 5)
    ∧ (let r : SliceReq := { who := .dma, part := 1, cls := 0, resume := false, count := 3 }
       unitWinner (Tab.get 0 s0.mem.unitPtr 127) [r] = some r ∧ unitsOk (freeUnits s0 127).length r = true)
    ∧ (let s := { s0 with mem := { s0.mem with zeroing := 0x80 } }; s.mem.zeroing.getLsbD 7 = true ∧ s.units.maint = false) := by decide +kernel

/-- Injection registers set to a line, with the grant. -/
def eccw (a : BitVec 48) (s : State := s0) : State := grant (powered (hbm { s with mem := { s.mem with eccAddr := a.toNat } }))
theorem witness_MemoryCommandsTakeEffect :
    (let s := powered; s.released = true ∧ s.mainDown = false ∧ s.aon.grantHost = none)
    ∧ (let s := eccw 0x10000; s.mainDown = false ∧ s.aon.grantHost.isSome = true ∧ s.mem.armed = false ∧ bit (1 : Word) 0 = true ∧ bit (1 : Word) 1 = false
        ∧ bit (3 : Word) 0 = true ∧ bit (3 : Word) 1 = true ∧ armRefusal s = 0)
    ∧ armRefusal (eccw 0x10001) ≠ 0
    ∧ (let s := { s0 with mem := { s0.mem with armed := true }, aon := { s0.aon with timeNs := 1000000000 } }; s.mem.armed = true
        ∧ s.mem.armedAt + 1000000000 ≤ s.now)
    ∧ (Runs (at0 0x0401) 0 0x0401 ∧ ((at0 0x0401).box 0).exp = false)
    ∧ (let s := at0 0x0402 [1, 3, 0, 1] [] hbm; Runs s 0 0x0402 ∧ (s.box 0).exp = false ∧ (s.box 0).arg 1 = 3 ∧ (s.box 0).arg 0 < 64
        ∧ (s.box 0).arg 2 < 8 ∧ stackUp s ((s.box 0).arg 2) = true
        ∧ (reserveRegions s (wantMode (s.box 0)) ((s.box 0).arg 0) 1024 ((s.box 0).arg 3) s.mem.regions).isSome = true)
    ∧ (let s := at0 0x0402 [0, 1, 0, 0] [] (units ((List.range 8).map fun h => (5, h)) .inService); Runs s 0 0x0402 ∧ (s.box 0).arg 1 = 1
        ∧ (∀ h < 8, stackUp s h = true)
        ∧ (reserveRegions s (wantMode (s.box 0)) ((s.box 0).arg 0) 1024 ((s.box 0).arg 3) s.mem.regions).isSome = true)
    ∧ (let s := at0 0x0403 [168]; Runs s 0 0x0403 ∧ (s.box 0).exp = false ∧ 1 ≤ (s.box 0).arg 0 ∧ (s.box 0).arg 0 ≤ 168)
    ∧ (let s := at0 0x0404 [9] [] (setFrame 9 { use := .system } hbm); Runs s 0 0x0404 ∧ (s.box 0).arg 0 < frameCount
        ∧ (s.hregion (frameRegion ((s.box 0).arg 0))).mode ≠ .unbacked ∧ s.mem.sysTop ≤ 9 ∧ (s.frame 9).use ≠ .free)
    ∧ (let s := at0 0x0404 [9] [] hbm; (s.frame 9).use = .free ∧ (s.frame 9).retirePending = false ∧ frameRetired s 9 = false
        ∧ s.store.retired.length < 4096 ∧ (s.store.regions[4]).ro = false)
    ∧ (let s := at0 0x0405 [7] [] (units [(5, 7)] .offline); Runs s 0 0x0405 ∧ (s.box 0).exp = false ∧ (s.box 0).arg 0 < 8
        ∧ s.unitSt 5 ((s.box 0).arg 0) = .offline)
    ∧ (Runs (at0 0x0406) 0 0x0406 ∧ ((at0 0x0406).box 0).exp = false)
    ∧ (let s := at0 0x8406 [0x10000] [] hbm; Runs s 0 0x0406 ∧ (s.box 0).exp = true ∧ armRefusal (loadEccw (s.box 0) s) = 0 ∧ s.mem.armed = false) := by
  and_intros <;> decide +kernel

/-- Table ME-2: the places of a stripe region: blocks 0 to 15 of 4 KiB go to controllers 0, 2, 4 ... 14, 1, 3 ... 15. -/
theorem test_stripe_place : (List.range 16).map (fun b => (HMode.stripe.place b).map Prod.fst)
    = [0, 2, 4, 6, 8, 10, 12, 14, 1, 3, 5, 7, 9, 11, 13, 15].map some := by decide +kernel

/-! ## Networks -/

/-- Every router is in service. -/
def mesh (s : State := s0) : State := units ((List.range 128).map fun n => (2, n)) .inService s
/-- As much data as a packet holds. -/
def fullData : List Byte := List.replicate 4096 0
/-- A packet of a class that waits in flight. -/
def flying (sb : BitVec 64) (s : State := mesh) : State := { s with net := { s.net with flight := [{ id := 0, src := 0, port := 11, sb := sb }] } }
theorem witness_PacketsAndLinks :
    (let s := mesh; let sb := mcastVc (stampEpoch s 127 (stampPart s 11 0x4000))
      sourcePort 127 11 = true ∧ portFenced s 127 11 = false ∧ sbLegal sb = true ∧ sealedRefuses s 11 sb = false ∧ sbMcast sb = false
      ∧ inFlight s 127 11 (sbVc sb) + flitsOf fullData ≤ 64 ∧ unreachable s 127 sb = false)
    ∧ (let s := { mesh with net := { mesh.net with flight := [{ id := 0, src := 127, port := 4, sb := 0x4000, data := fullData },
         { id := 1, src := 127, port := 11, sb := 0x4000, data := fullData }] } }
       let sb := mcastVc (stampEpoch s 127 (stampPart s 11 0x4000))
       portFenced s 127 11 = false ∧ sbLegal sb = true ∧ sealedRefuses s 11 sb = false ∧ sbVc sb ≠ 0 ∧ 64 < inFlight s 127 11 (sbVc sb) + flitsOf [])
    ∧ fullData.length ≤ 4096 ∧ (sourcePort 0 11 = true ∧ portFenced s0 0 11 = true)
    ∧ (let s := mesh; let n := vaneNode 0; let sb := fun v => mcastVc (stampEpoch s n (stampPart s 9 v)); sourcePort n 9 = true
        ∧ vaneRefuses s (vaneAt n) (sb 0x8000) = false ∧ vaneRefuses s (vaneAt n) (sb 0x4000) = true)
    ∧ (let s := flying 0x8000; s.net.flight[0]? = some { id := 0, src := 0, port := 11, sb := 0x8000 } ∧ 2 ≤ sbVc 0x8000)
    ∧ (s0.unitSt 0x14 (linkInst ⟨127, true⟩) ≠ .faulted ∧ NetKind.lull ≠ .gale ∧ ∀ e ∈ s0.net.lastUe, e.1 = linkInst ⟨127, true⟩ → e.2 + 1000000 ≤ s0.now)
    ∧ (let s := flying 0x10000 { mesh with net := { mesh.net with stage := 2 } }; s.net.stage = 2 ∧ oldParity s ≠ [])
    ∧ (let m : BreezeMsg := { src := 254, hdr := 0x10000000 }
       breezeOut mesh m.src < 4 ∧ bzLegal m.hdr = true ∧ breezeUnreachable mesh (m.src / 2) m.hdr = false ∧ routerLive mesh (bzDst m.hdr) = true
        ∧ 4 ≤ breezeOut { mesh with net := { mesh.net with breeze := [m, m, m, m] } } m.src) := by
  and_intros <;> decide +kernel

/-- A schedule image of one window. -/
def image : SchedImage :=
  { id := 7, windows := [(5, 97)], streams := [], inputs := [], eddies := [], owned := [], digest := 0 }
/-- The bytes other than 0 of an image with one window of 97 turns on object 5 and no stream (Table NW-4); CRC computed outside the model. -/
def imageCells : Tab Byte :=
  [(0, 72), (1, 67), (2, 83), (3, 71), (4, 1), (8, 7), (12, 1), (16, 184), (17, 8), (18, 54), (20, 54), (21, 43), (22, 101), (23, 90), (64, 5), (66, 97)]
/-- Memory from 0 on holds `cells`, and the translations of its first 4 MiB are cached. -/
def wide (cells : Tab Byte) (s : State := s0) : State :=
  let t := hbm s
  let e : TlbEntry := { part := 0, dva := 0, dpa := 0, size := 0x200000, wr := true, host := false, rmt := false }
  { t with mem := { t.mem with bytes := cells }, mmu := { t.mmu with tlb := [(128, [e, { e with dva := 0x200000, dpa := 0x200000 }])] } }
/-- A SCHED_LOAD of that image: opcode, ARG3. -/
def loadCmd (op arg3 : Nat) (s : State := s0) : State := at0 op [0, 0, imageLen, arg3] [] (wide imageCells s)
/-- An image has been read, and whether it may become current at once. -/
def imageRead (r : Except Nat SchedImage × State) : Option Bool :=
  match r with
  | (.ok img, u) => some (u.net.windows.isEmpty && !vaneBlocks u img)
  | (.error _, _) => none
theorem imageRead_some (r : Except Nat SchedImage × State) (b : Bool) (h : imageRead r = some b) :
    ∃ img u, r = (.ok img, u) ∧ (b = true → u.net.windows = [] ∧ vaneBlocks u img = false)
      ∧ (b = false → u.net.windows ≠ [] ∨ vaneBlocks u img = true) := by
  obtain ⟨e | img, u⟩ := r
  · simp [imageRead] at h
  · refine ⟨img, u, rfl, ?_⟩
    simp only [imageRead, Option.some.injEq] at h
    subst h
    cases hw : u.net.windows <;> cases hv : vaneBlocks u img <;> simp_all
/-- The machine in a stage of an epoch. -/
def inStage (k : Nat) (s : State := s0) : State := { s with net := { s.net with stage := k } }
theorem witness_EpochsAndWindows :
    ((inStage 0).net.stage ≠ 2 ∧ (811 : BitVec 16).toNat + 0 < 812 ∧ (inStage 1).net.stage = 1 ∧ (inStage 2).net.stage = 2)
    ∧ (let s := waits .routeEpoch (inStage 2); oldParity s = [] ∧ oldBreeze s = [] ∧ s.net.plan.joins = [] ∧ s.net.plan.leaves = [] ∧ s.net.next = {}
        ∧ (s.box 0).await = some .routeEpoch)
    ∧ (let s := { s0 with net := { s0.net with image := some image, triggered := [(5, 0, [])] } }
       s.net.image = some image ∧ s.net.shadow = none ∧ (0 : Fin 16).val < image.windows.length
        ∧ (∀ x ∈ s.net.windows, x.idx ≠ 0 ∧ windowsOverlap image x.idx 0 = false)
        ∧ ∃ e ∈ s.net.triggered, e.1 = (image.windows.getD 0 (0, 0)).1 ∧ e.2.1 ≤ s.turn ∧ 0 ∉ e.2.2)
    ∧ (let x : OpenWindow := { idx := 0, turn := 0 }
       let s := { s0 with net := { s0.net with image := some image, windows := [x] }, aon := { s0.aon with timeNs := 198656 } }
       s.net.image = some image ∧ s.net.windows.find? (fun y => y.idx = (0 : Fin 16).val) = some x
        ∧ x.turn + (image.windows.getD 0 (0, 0)).2 ≤ s.turn
        ∧ (let s := { s with aon := { s0.aon with timeNs := 198655 } }; s.turn < x.turn + (image.windows.getD 0 (0, 0)).2))
    ∧ (Runs (at0 0x0301) 0 0x0301 ∧ ((at0 0x0301).box 0).exp = false)
    ∧ (Runs (at0 0x0303) 0 0x0303 ∧ (at0 0x0303).net.stage = 0 ∧ ((at0 0x0303).box 0).exp = false)
    ∧ (let s := at0 0x8303 [0, 0] [] (wide []); Runs s 0 0x0303 ∧ s.net.stage = 0 ∧ (s.box 0).exp = true ∧ mbxPart s 0 = 0
        ∧ (banksAt (s.box 0) s).1.isSome = true) := by
  and_intros <;> decide +kernel
/-- SCHED_LOAD with VALIDATE_ONLY; SCHED_LOAD; the same with a window open. -/
def load1 : State := loadCmd 0x8302 1
def load2 : State := loadCmd 0x0302 0
def load3 : State := loadCmd 0x0302 0 { s0 with net := { s0.net with windows := [{ idx := 15, turn := 3 }] } }
theorem image_read1 : imageRead (imageAt (load1.box 0) (load1.freed 0)) = some true := by decide +kernel
theorem image_read2 : imageRead (imageAt (load2.box 0) (load2.freed 0)) = some true := by decide +kernel
theorem image_read3 : imageRead (imageAt (load3.box 0) (load3.freed 0)) = some false := by decide +kernel
theorem image_passes1 : schedDetail (load1.box 0) load1 = none := by decide +kernel
theorem image_passes2 : schedDetail (load2.box 0) load2 = none := by decide +kernel
theorem image_passes3 : schedDetail (load3.box 0) load3 = none := by decide +kernel
/-- R294, R296: symbol 5 of the line at 64 and bit 71 of the first slice word are struck; a line has no symbol 71. -/
theorem test_strike :
    let s := strikeAll [(67, 5), (67, 71), (BitVec.ofNat 48 sliceBase, 71)] s0
    (s.flaw 64).bad = [5] ∧ (s.flaw sliceBase).bad = [71] := by decide +kernel
theorem witness_EpochsAndWindows_load :
    (Runs load1 0 0x0302 ∧ mbxPart load1 0 = 0 ∧ (load1.box 0).exp = true ∧ (load1.box 0).arg 3 = 1)
    ∧ (Runs load2 0 0x0302 ∧ mbxPart load2 0 = 0 ∧ (load2.box 0).exp = false ∧ load2.net.shadow = none)
    ∧ (Runs load3 0 0x0302 ∧ mbxPart load3 0 = 0 ∧ (load3.box 0).exp = false ∧ load3.net.shadow = none) := by
  and_intros <;> decide +kernel
theorem witness_EpochsAndWindows_images :
    (∃ img u, imageAt (load1.box 0) (load1.freed 0) = (.ok img, u))
    ∧ (∃ img u, imageAt (load2.box 0) (load2.freed 0) = (.ok img, u) ∧ u.net.windows = [] ∧ vaneBlocks u img = false)
    ∧ (∃ img u, imageAt (load3.box 0) (load3.freed 0) = (.ok img, u) ∧ (u.net.windows ≠ [] ∨ vaneBlocks u img = true)) := by
  obtain ⟨i1, u1, h1, -⟩ := imageRead_some _ true image_read1
  obtain ⟨i2, u2, h2, k2, -⟩ := imageRead_some _ true image_read2
  obtain ⟨i3, u3, h3, -, k3⟩ := imageRead_some _ false image_read3
  exact ⟨⟨i1, u1, h1⟩, ⟨i2, u2, h2, k2 rfl⟩, ⟨i3, u3, h3, k3 rfl⟩⟩

/-! ## Groups and objects -/

/-- A reduction group of two contributors on slot 0. -/
def pairGroup : RedGroup := { part := 0, contribs := [(0, 0, 4), (0, 127, 4)], tree := [], typ := 1, valid := true }
/-- The machine with reduction group 63. -/
def withRed (r : RedGroup) (s : State := s0) : State := setRed 63 r { s with coll := { s.coll with red := [(63, r)] } }
/-- A multicast group of node 127 alone, whose entry at its node the caller supplied. -/
def lone : McastGroup := { part := 0, tray := false, eps := [(0, 127, 4)], entries := [(127, 2 ^ 26)], valid := true }
/-- Words as input bytes. -/
def wordsOf (l : List Nat) : List Byte := l.flatMap (leBytes 4)
theorem witness_GroupsAndReductions :
    (let s := at0 0x0304 [0] (wordsOf [0x47F07]); Runs s 0 0x0304 ∧ (s.box 0).exp = false ∧ s.net.stage = 0 ∧ (s.box 0).arg 0 = 0
        ∧ groupSizeOk (cmdGroup (s.box 0)) = true ∧ groupScopeOk (cmdGroup (s.box 0)) [] = true ∧ groupNamesOk (cmdGroup (s.box 0)) = true
        ∧ freeMcast s 127 = some 127)
    ∧ (let s := at0 0x0304 [1] (wordsOf [0x47F07]); Runs s 0 0x0304 ∧ (s.box 0).exp = false ∧ s.net.stage = 0 ∧ (s.box 0).arg 0 = 1
        ∧ groupSizeOk (cmdGroup (s.box 0)) = true ∧ groupScopeOk (cmdGroup (s.box 0)) [] = true ∧ groupNamesOk (cmdGroup (s.box 0)) = true
        ∧ eddyRoom s [(0, 16)] = true ∧ freeRed s 63 = some 63)
    ∧ (∀ a ∈ [0, 1], let s := at0 0x0304 [2, 63, a] [] { withRed pairGroup with coll := { (withRed pairGroup).coll with mcast := [(63, lone)] } }
        Runs s 0 0x0304 ∧ (s.box 0).exp = false ∧ s.net.stage = 0 ∧ (s.box 0).arg 0 = 2 ∧ deletePart s (s.box 0) = some (mbxPart s 0))
    ∧ (let s := withRed pairGroup; s.redGroup 63 = some pairGroup ∧ firstContrib pairGroup (fun c => c.1 = 0 && c.2.1 = 127) = some 1
        ∧ pairGroup.valid = true ∧ pairGroup.typ ≠ 0 ∧ (Tab.get { started := s.now } pairGroup.insts 15).failed = false
        ∧ ([] : List (Nat × List Byte)).length + 1 < pairGroup.contribs.length)
    ∧ (let r := { pairGroup with insts := [(15, { started := 0, blocks := [(63, { got := [(0, [])] })] })] }
       let s := withRed r
       let b := Tab.get ({} : RedBlock) (Tab.get { started := s.now } r.insts 15).blocks 63
       s.redGroup 63 = some r ∧ (r.insts.find? fun e => e.1 = 15) = some (15, { started := 0, blocks := [(63, { got := [(0, [])] })] })
        ∧ (∀ e ∈ b.got, e.1 ≠ 1) ∧ b.delivered = false ∧ b.got.length + 1 = r.contribs.length
        ∧ (let s := at0 0x0307 [63, 0, 0, 0, 0, 0, 0, 256 + 15] [] (withRed r); Runs s 0 0x0307 ∧ eddyAbortBit (s.box 0) = true
            ∧ (s.box 0).exp = false ∧ s.redGroup ((s.box 0).arg 0) = some r ∧ r.part = mbxPart s 0 ∧ (s.box 0).arg 7 % 16 ∈ liveInsts r))
    ∧ (∀ k ∈ [1, 4], let s := at0 0x0307 [63, k, 511, 16383, 1, 0xFFFFFFFF, 0x1FFFFFFF] [] (withRed pairGroup)
       Runs s 0 0x0307 ∧ (s.box 0).exp = false ∧ s.redGroup ((s.box 0).arg 0) = some pairGroup ∧ pairGroup.part = mbxPart s 0
        ∧ eddyAbortBit (s.box 0) = false ∧ (s.box 0).arg 1 = k ∧ (s.box 0).arg 4 < 2 ∧ (s.box 0).arg 2 < 512 ∧ (s.box 0).arg 3 < 16384
        ∧ lullPart s ((s.box 0).arg 3) = mbxPart s 0 ∧ (k = 4 → modulusOk (eddyP (s.box 0)) = true)) := by
  and_intros <;> decide +kernel
/-- The result of the pair goes to a node, or to multicast group 127. -/
def pairTo (dest : Nat) : RedGroup := { pairGroup with dest := dest }
/-- Every router is in service, and the entry of multicast group 127 at node 127 is VALID for partition 0. -/
def meshGroups : State :=
  { mesh with coll := { mesh.coll with mcast := [(127, lone)] }
              net := { mesh.net with bank0 := { caller := true, bytes := [(bankKey 127 (300 + 4 * 127 + 3), 4)] } } }
theorem witness_GroupsAndReductions_result (data : List Byte) :
    (let p := resultPacket mesh 63 (pairTo 127) 15 63 data; sbMcast p.sb = false ∧ unreachable mesh (pairTo 127).root p.sb = false)
    ∧ (let p := resultPacket meshGroups 63 (pairTo (256 + 127)) 15 63 data
       sbMcast p.sb = true ∧ groupUsable meshGroups (pairTo (256 + 127)).root p.sb = true ∧ mcastType p.sb = true
        ∧ meshGroups.mcastGroup (sbDst p.sb) = some lone) := by
  simp only [resultPacket]
  and_intros <;> decide +kernel

/-- The machine with object 16383 as given. -/
def withObj (x : LObj) (s : State := s0) : State := setObj 16383 x s
/-- A request for object 16383 from a ring stop of slot 0. -/
def lreq (arg : Word) : LullReq := { obj := 16383, node := 151, slot := 0, cls := 0, resume := false, arg := arg }
theorem witness_LullOperations :
    (let b : LObj := { kind := .barrier, home := 17, n := 1024, value := 1022, waiters := [{ slot := 0, node := 1, cls := 0, resume := false, what := .wait 0 }] }
     let s := withObj b
     s.obj 16383 = some b ∧ agentRefuses s (lreq 0) = false ∧ forwarded s b = false ∧ b.st = .ready ∧ bit (lreq 0).arg 0 = b.phase
      ∧ b.value.toNat + 1 < b.n ∧ b.n ≤ ({ b with value := 1023 } : LObj).value.toNat + 1
      ∧ waitDone b (lreq 1).arg = true ∧ waitDone b (lreq 0).arg = false ∧ agentWaits s 151 < 16
      ∧ (let y := { b with value := 1023 }; (withObj y).obj 16383 = some y ∧ agentRefuses (withObj y) (lreq 0) = false ∧ y.n ≤ y.value.toNat + 1))
    ∧ (let x : LObj := { kind := .semaphore, home := 17, value := 65535 }
       let s := withObj x
       s.obj 16383 = some x ∧ agentRefuses s (lreq 65535) = false ∧ forwarded s x = false ∧ countOk (lreq 65535) = true
        ∧ acquireOk x 0 65535 false = true ∧ acquireOk { x with value := 65534 } 0 65535 false = false
        ∧ x.value.toNat + (lreq 0xFFFF0000).arg.toNat < 2 ^ 32 ∧ x.waiters = [])
    ∧ (let x : LObj := { kind := .event, home := 17, value := 1, autoClear := true }
       let s := withObj x
       s.obj 16383 = some x ∧ isTrigger s 16383 = false ∧ x.waiters = [] ∧ waitDone x 0 = true
        ∧ (let s := withObj x { s0 with net := { s0.net with image := some { image with windows := [(16383, 1)] } } }
           s.obj 16383 = some x ∧ agentRefuses s (lreq 0) = false ∧ forwarded s x = false ∧ x.st = .ready ∧ isTrigger s 16383 = true))
    ∧ (let x : LObj := { kind := .event, home := 17, tray := true, homeSlot := 7 }
       let s := withObj x
       s.obj 16383 = some x ∧ agentRefuses s (lreq 0) = false ∧ forwarded s x = true ∧ agentWaits s 151 < 16)
    ∧ (let s := setGport 6 { st := .up } s0; s.aon.slot = 0 ∧ lullPort s 7 = some 6 ∧ (s.gport (meshPort s.aon.slot.val 7)).st = .up)
    ∧ (let x : LObj := { kind := .counter, home := 17, value := 0xFFFFFFFFFFFFFFFF }
       let s := withObj x
       s.obj 16383 = some x ∧ x.waiters = [] ∧ forwarded s x = false ∧ addWraps x (lreq 1).arg.toInt = true ∧ addWraps x (lreq 0).arg.toInt = false)
    ∧ (s0.obj 16383 = none
      ∧ (let x : LObj := { kind := .event, home := 17, st := .poisoned }
         let r : LullReq := { obj := 16383, node := 127, slot := 0, cls := 0, resume := false, arg := 0 }
         let p : Part := { kind := .ordinary, clusters := BitVec.allOnes 128 }
         (withObj x).obj 16383 = some x ∧ x.st = .poisoned ∧ agentRefuses (withPart p (withObj x)) r = true)) := by
  and_intros <;> decide +kernel
theorem witness_LullAllocation :
    (∀ l ∈ [(0, [0, 1, 1024]), (1, [1, 1, 7, 3]), (2, [2, 1, 1]), (3, [3, 0, 5, 6])],
      let s := at0 0x0305 l.2
      ((s.box 0).arg 0 = 0 → 1 ≤ (s.box 0).arg 2 ∧ (s.box 0).arg 2 ≤ 1024) ∧
      Runs s 0 0x0305 ∧ (s.box 0).exp = false ∧ (lkind ((s.box 0).arg 0)).isSome = true ∧ (s.box 0).arg 1 < 2 ∧ lullSettingsOk (s.box 0) = true
      ∧ interior 17 = true ∧ homedAt s 17 < 256 ∧ 0x003F < (0x40 : BitVec 14).toNat ∧ lullPart s 0x40 = mbxPart s 0 ∧ s.obj 0x40 = none)
    ∧ (let s := at0 0x0306 [16383] [] (withObj { kind := .event, home := 17 }); Runs s 0 0x0306 ∧ 0x003F < (s.box 0).arg 0
        ∧ lullPart s ((s.box 0).arg 0) = mbxPart s 0 ∧ s.obj ((s.box 0).arg 0) = some { kind := .event, home := 17 }) := by
  and_intros <;> decide +kernel

/-! ## Tiles -/

/-- A capability record for tile 3: F 600 to 2,400 MHz, both dividers, 700 to 900 mV, V_DEF 750 mV, all clusters. -/
def capBytes (f : Nat) : List Byte :=
  let b := leBytes 2 0x7442 ++ leBytes 2 1 ++ [1, 3] ++ leBytes 6 0 ++ leBytes 4 0xFFFFFFFF ++ leBytes 2 f ++ leBytes 2 600 ++ [3, 0]
    ++ leBytes 2 700 ++ leBytes 2 900 ++ leBytes 2 750 ++ leBytes 4 0 ++ leBytes 4 0x2F ++ List.replicate 24 0
  b ++ leBytes 4 (crc32c b)
/-- The profile that R267 makes of it. -/
def capProf (f : Nat) : TileProfile :=
  { bdiv := 1, f := f, vdef := 750, vmin := 700, vmax := 900, share := 240, feat := 0x2F, clusters := BitVec.allOnes 32 }
/-- R267: the agreed profile: the highest clock, the smaller divider; a clock below 1,000 MHz with divider 1 has no valid pair. -/
theorem test_negotiate : negotiate 3 (capBytes 2400) 0 240 = .ok (capProf 2400) ∧ negotiate 3 (capBytes 999) 0 240 = .error 5
    ∧ negotiate 2 (capBytes 2400) 0 240 = .error 3 := by
  and_intros <;> decide +kernel
/-- Tile 3 in PH_TRAIN after a step. -/
def atStep (k : Nat) (s : State := s0) : State :=
  inPh .train (modTile 3 (fun t => { t with prof := some (capProf 2400), step := k }) s)
theorem witness_TileNegotiationAndTraining :
    (let s := inPh .train; tileTraining s 3 = true ∧ (s.tile 3).step = 0)
    ∧ (let s := atStep 1; tileTraining s 3 = true ∧ (s.tile 3).prof = some (capProf 2400) ∧ (s.tile 3).step = 1 ∧ s.pwr.bus = none
        ∧ s.pwr.changes = [])
    ∧ (let s := atStep 2; tileTraining s 3 = true ∧ 2 ≤ (s.tile 3).step ∧ tileRailMoves s 3 = false)
    ∧ (let s := atStep 2 { s0 with pwr := { s0.pwr with changes := [.volt none 5 750] } }; tileTraining s 3 = true ∧ tileRailMoves s 3 = true)
    ∧ (let s := atStep 4; tileTraining s 3 = true ∧ (s.tile 3).prof = some (capProf 2400) ∧ (s.tile 3).step = 4)
    ∧ 5 ≤ ((atStep 5).tile 3).step
    ∧ (let s := at0 0x0A23 [3] [] { atStep 5 with aon := { s0.aon with owner := .windsock } }; Runs s 0 0x0A23 ∧ (s.box 0).exp = false
        ∧ s.windsockOwns = true ∧ (s.box 0).arg 0 < 4 ∧ (s.tile (tileIdx ((s.box 0).arg 0))).prof = some (capProf 2400) ∧ s.pwr.bus = none
        ∧ s.pwr.changes = []) := by
  and_intros <;> decide +kernel

/-- Cluster 127 with its regulator on, in a service state, with a port as given. -/
def bonded (st : UnitSt) (p : BondPort) (s : State := s0) : State :=
  modPort 127 (fun _ => p) (units [(1, 127), (2, 127)] st { s with pwr := { s.pwr with fgrOn := BitVec.ofNat 128 (2 ^ 127) } })
/-- A Gale read request of class 1 from tag 1. -/
def readSb : BitVec 64 := 0x1000100004000
/-- The cluster at node 127 has 66 flits of class 1 in flight. -/
def crowded : State :=
  { s0 with net := { s0.net with flight := [{ id := 0, src := 127, port := 4, sb := 0x4000, data := List.replicate 4096 0 },
      { id := 1, src := 127, port := 4, sb := 0x4000, data := List.replicate 4096 0 }] } }
/-- A Breeze message of cluster 127. -/
def msg127 : BreezeMsg := { src := 254, hdr := rewriteBreeze 127 0x10000000 }
/-- Cluster 127 has four messages in flight and `k` waiting in its port. -/
def talking (k : Nat) : State :=
  bonded .inService { breeze := List.replicate k msg127 } { s0 with net := { s0.net with breeze := [msg127, msg127, msg127, msg127] } }
/-- A frame with its check codes. -/
def framed (chan : BondChan) (sb : BitVec 64) : BondFrame :=
  let f : BondFrame := { chan := chan, valid := true, sb := sb, data := [], fcrc := [], fixed := false, sid := 15, vote := false }
  { f with fcrc := frameCrcs f }
theorem witness_BondPortTestsAndFaults :
    (let s := bonded .probation { prst := true }; (s.port 127).prst = true ∧ s.pwr.fgrOn.getLsbD 127 = true ∧ portTested s 127 = true
      ∧ (s.port 127).crdy = false)
    ∧ (let s := bonded .probation { prst := true, crdy := true }; portTested s 127 = true ∧ (s.port 127).identBad = false
        ∧ masksOk (s.port 127) = true ∧ (s.port 127).crdy = true ∧ [((0 : Fin 59), (0 : Fin 36))] ≠ [])
    ∧ (let s := inPh .train (bonded .probation { prst := true }); portTested s 127 = true ∧ tileTraining s (Fin.ofNat 4 (tileOf 127)) = true
        ∧ (∃ i : Fin 32, localCluster (tileOf 127) i.val = 127) ∧ ∃ i : Fin 32, localCluster (tileOf 127) i.val ≠ 127)
    ∧ (let s := bonded .inService { prst := true, crdy := true }; carrying s 1 127 = true ∧ (s.port 127).prst = true
        ∧ s.pwr.fgrOn.getLsbD 127 = true ∧ (s.port 127).fifo = [] ∧ (s.port 127).lastUe = none
        ∧ inFlight s 127 4 (sbVc (rewriteFlit s 127 readSb)) + flitsOf [] ≤ 64)
    ∧ (let s := bonded .inService {} crowded; carrying s 1 127 = true ∧ (s.port 127).fifo = [] ∧ sbVc (rewriteFlit s 127 readSb) ≠ 0
        ∧ 64 < inFlight s 127 4 (sbVc (rewriteFlit s 127 readSb)) + flitsOf [])
    ∧ (∀ c ∈ [BondChan.gale, .breeze, .lull, .slice], let f := framed c readSb; bondCrcOk f = true ∧ f.valid = true ∧ f.vote = false)
    ∧ (let f := { framed .gale readSb with fcrc := [] }; bondCrcOk f = false ∧ f.vote = false ∧ (f.chan ≠ .gale ∨ f.fixed = false))
    ∧ (let s := bonded .inService {}
       carrying s 1 127 = true ∧ (s.port 127).breeze = [] ∧ breezeOut s 254 < 4 ∧ bzLegal msg127.hdr = true ∧ breezeUnreachable s 127 msg127.hdr = false)
    ∧ (let s := talking 7; carrying s 1 127 = true ∧ (s.port 127).breeze.length < 8 ∧ 4 ≤ breezeOut s (2 * 127)
        ∧ ∀ x ∈ (s.port 127).breeze, x.src = 2 * 127)
    ∧ (carrying (talking 8) 1 127 = true ∧ 8 ≤ ((talking 8).port 127).breeze.length)
    ∧ clusterPart s0 127 < 64
    ∧ (let s := bonded .inService { fifo := List.replicate 4 (readSb, []) }; carrying s 1 127 = true ∧ 4 ≤ fifoCount (s.port 127) readSb)
    ∧ (let s := bonded .inService { lastUe := some 0 } { s0 with aon := { s0.aon with timeNs := 999999 } }; carrying s 1 127 = true
        ∧ (s.port 127).lastUe = some 0 ∧ s.now < 0 + 1000000) := by
  and_intros <;> decide +kernel

theorem witness_SliceStreamsAndWindows :
    (let s := bonded .inService { winBase := 0xFF00, winLen := 0xFF }; carrying s 1 127 = true ∧ (∀ e ∈ (s.port 127).streams, e.1 ≠ 15))
    ∧ (let s := bonded .inService { winBase := 256, winLen := 4096 }
       cmdLegal 0x100001000001 = true ∧ inWindow (s.port 127) (cmdOff 0x100001000001) (cmdLen 0x100001000001) = true
        ∧ cmdLegal 0x100001000002 = true ∧ inWindow (s.port 127) (cmdOff 0x100001000002) (cmdLen 0x100001000002) = true
        ∧ cmdOp 0x100001000001 = 1 ∧ cmdOp 0x100001000002 = 2
        ∧ cmdLegal 0x100001010001 = true ∧ inWindow (s.port 127) (cmdOff 0x100001010001) (cmdLen 0x100001010001) = false)
    ∧ (windowOk s0 127 (sliceUnits * 256) 0 = true ∧ (s0.port 127).streams = [] ∧ windowOk s0 127 65535 1 = false
        ∧ ((modPort 127 (fun p => { p with streams := [(15, { write := true, off := 0, len := 1 })] }) s0).port 127).streams ≠ []) := by
  and_intros <;> decide +kernel
/-- R261: LEN 1 to 4,096 and OFFSET below 49,152; OP 0 and 3, LEN 0 or 4,097, OFFSET 49,152 and a bit outside the fields are not laid out. -/
theorem test_cmd_legal : [(0x100000000001 : BitVec 64), 0x1BFFF0001].map cmdLegal = [true, true]
    ∧ [(0x100000000000 : BitVec 64), 0x100000000003, 0x1, 0x100100000001, 0x1C0000001, 0x100000004].map cmdLegal = List.replicate 6 false := by
  decide +kernel

/-! ## Delivery -/

/-- Every router, and cluster 0, is in service. -/
def meshed : State := units ((1, 0) :: (List.range 128).map fun n => (2, n)) .inService
/-- The packet of `flying`. -/
def flyer (sb : BitVec 64) : Packet := { id := 0, src := 0, port := 11, sb := sb }
theorem test_no_flaws (a : Nat) : (joinBad ((flying 0x4000).flaw a).bad []).length ≤ 2 := by
  rw [show (flying 0x4000).flaw a = {} from rfl]
  decide
/-- A packet to cluster 0 reaches it, and would meet fences at the other endpoints of node 0. -/
abbrev Reaches (sb : BitVec 64) : Prop :=
  (flying sb meshed).net.flight[0]? = some (flyer sb) ∧ routeBlocked (flying sb meshed) (flyer sb) = false ∧ sbRemote sb = false
    ∧ eddyAt (flying sb meshed) (flyer sb) = none ∧ portFenced (flying sb meshed) 0 (endPort .cluster) = false
    ∧ portFenced (flying sb meshed) 0 (endPort .vane) = true ∧ endPart (flying sb meshed) .cluster 0 = some 0 ∧ sbDst sb = 0
theorem witness_DeliveryAtEndpoints :
    Reaches 0x40004000 ∧ Reaches readSb ∧ Reaches 0xFC4000 ∧ Reaches 0x3000000004000
    ∧ (sbPoison 0x40004000 = true ∧ sbMcast 0x40004000 = false ∧ sbType 0x40004000 = 0)
    ∧ (sbPoison readSb = false ∧ sbPart readSb = 0 ∧ answered (flying readSb meshed) 0 (endPort .cluster) (flyer readSb) = none ∧ sbType readSb = 1)
    ∧ (sbPoison 0xFC4000 = false ∧ sbPart 0xFC4000 = 63 ∧ sbPart 0xFC4000 ≠ 0 ∧ endPart (flying 0xFC4000 meshed) .cluster 0 = some 0)
    ∧ (answered (flying 0x3000000004000 meshed) 0 (endPort .cluster) (flyer 0x3000000004000) = none ∧ sbType 0x3000000004000 = 3) := by
  and_intros <;> decide +kernel
/-- A stream of two flit sources that ends at the Eddy unit of node 0, or the one that leaves it. -/
def feeder (k dst port : Nat) : SchedStream :=
  { num := k, window := 0, part := 0, srcNode := 0, srcPort := 11, dstNode := dst, dstPort := port, route := [(0, 4)], units := [], vane := 0 }
/-- Streams 1 and 2 merge at node 0 into stream 3. -/
def eddyImage : SchedImage :=
  { image with streams := [feeder 1 0 0xE, { feeder 2 0 0xE with srcPort := 4 }, feeder 3 127 4], eddies := [{ node := 0, out := 3, inputs := [1, 2] }] }
/-- A packet of stream 1 in flight, and what is held of stream 2. -/
def merging (l : List Packet) : State :=
  let s := flying 0 meshed
  { s with net := { s.net with image := some eddyImage }, coll := { s.coll with merges := [(2, l)] } }
theorem witness_DeliveryAtEndpoints_merge :
    (∀ l ∈ [[], [flyer 0]], let s := merging l
      s.net.flight[0]? = some (flyer 0) ∧ routeBlocked s (flyer 0) = false ∧ sbRemote 0 = false
        ∧ eddyAt s (flyer 0) = some (eddyImage, feeder 1 0 0xE, { node := 0, out := 3, inputs := [1, 2] })
        ∧ heldFlits s 0 1 = [] ∧ heldFlits s 0 2 = l)
    ∧ (2 : Nat) ∈ [1, 2] ∧ (2 : Nat) ≠ 1 ∧ eddyImage.streams.find? (fun z => z.num = 3) = some (feeder 3 127 4) := by
  and_intros <;> decide +kernel

/-! ## Translation and DMA -/

/-- Partition 0's tables in frame 0 map DVA 0 to 65,535, writable, to frame 1, which holds `extra`. -/
def mapped (extra : Tab Byte := []) (s : State := s0) : State :=
  let t := setFrame 0 { use := .held, table := true } (setFrame 1 { use := .held } (hbm s))
  { t with mmu := { t.mmu with roots := [(0, some 0)] }
           mem := { t.mem with bytes := [(0, 1), (1, 0x10), (0x1000, 1), (0x1001, 0x20), (0x2000, 1), (0x2001, 0x30), (0x3000, 7), (0x3002, 1)] ++ extra } }
/-- The translation that they give. -/
def page0 : TlbEntry := { part := 0, dva := 0, dpa := 0x10000, size := 65536, wr := true, host := false, rmt := false }
/-- A request. -/
def theReq : Req :=
  { st := .decode, seq := 0, cls := 0, tenant := 0, part := 0, ring := 63, promptLen := 1, maxNew := 1, tokbuf := 0, seed := 0, userTag := 0, fillTo := 0 }
/-- A write by DMA channel 63. -/
def dmaWr (dva : Nat) : Access := { part := 0, dva := dva, write := true, ut := 0x0A, inst := 63, context := 63 }
/-- R314 to R318: the walk of those tables, of a DVA above them, and of one in the reserved half. -/
theorem test_walk : (walk (dmaWr 0xFFFF) mapped).1.toOption = some page0 ∧ (walk (dmaWr 0x10000) mapped).1.toOption = none
    ∧ (walk { dmaWr 0 with host := true } mapped).1.toOption = none := by and_intros <;> decide +kernel
theorem witness_TranslationsAndInvalidations :
    (let s := { mapped with mmu := { mapped.mmu with tlb := [(135, [page0])] } }
     accessOf s 135 (.dma 63) 0xFFFF true 0 = some (dmaWr 0xFFFF) ∧ TransUser.dma 63 ≠ .cluster ∧ tlbHit s 135 (dmaWr 0xFFFF) = some page0
      ∧ requesterOk (dmaWr 0xFFFF) page0.dpa = true ∧ denied (dmaWr 0xFFFF) page0 = none)
    ∧ (let e := { page0 with wr := false }
       let s := { mapped with mmu := { mapped.mmu with tlb := [(135, [e])] } }
       tlbHit s 135 (dmaWr 0xFFFF) = some e ∧ requesterOk (dmaWr 0xFFFF) e.dpa = true ∧ (denied (dmaWr 0xFFFF) e).isSome = true
        ∧ accessOf s 135 (.dma 63) 0xFFFF true 0 = some (dmaWr 0xFFFF))
    ∧ (let s := mapped; accessOf s 135 (.dma 63) 0xFFFF true 0 = some (dmaWr 0xFFFF) ∧ tlbHit s 135 (dmaWr 0xFFFF) = none)
    ∧ (let s := mapped; accessOf s 135 (.dma 63) 0x10000 true 0 = some (dmaWr 0x10000) ∧ tlbHit s 135 (dmaWr 0x10000) = none
        ∧ (Tab.get ({} : FaultQ) s.mmu.queues 0).recs.length < 64)
    ∧ (let s := setReq 5 { theReq with pages := [7] } (setFrame 7 { use := .request, tag := 5 }
         { s0 with serve := { s0.serve with entries := [{ req := 5, part := 0, group := groupOf 127, kind := .decode, ntok := 1, pos := 0, slot := 0 }] } })
       let a : Access := { part := 0, dva := 0xC0000000FFFF, write := true, ut := 1, inst := 127, context := 127 }
       accessOf s 127 .cluster 0xC0000000FFFF true 0 = some a ∧ apertureBase ≤ a.dva ∧ (apertureAt s 127 a).toOption = some 0x7FFFF)
    ∧ (let i : Inval := { byDpa := true, part := 0, lo := 0x10000, len := 65536, started := true, since := 0, mbx := some 0 }
       let s := waits .framesFree { mapped with mmu := { mapped.mmu with inval := [i], tlb := [(135, [page0])] } }
       s.mmu.inval[0]? = some i ∧ i.started = true ∧ i.chan = none ∧ invalHits i page0 = true ∧ (s.box 0).await.isSome = true
        ∧ ∀ j ∈ s.mmu.inval.eraseIdx 0, j.mbx ≠ some 0)
    ∧ (let s := at0 0x0407 [63]; Runs s 0 0x0407 ∧ (s.box 0).exp = false ∧ (s.box 0).arg 0 < 64 ∧ mbxPart s 0 = 0) := by
  and_intros <;> decide +kernel

/-- A descriptor of 128 bytes without flags. -/
def descOf (op len src dst : Nat) : Desc :=
  { op := op, flags := 0, srcSpace := 0, dstSpace := 0, len := len, src := src, dst := dst, port := 0, pattern := 0, obj := 0, lullOp := 0, req := 0 }
/-- Channel 63 as given. -/
def chan63 (c : DmaChan) (s : State := s0) : State := setChan 63 c s
theorem witness_DmaControlMessages :
    ctrlOk s0 .other 63 = false ∧ (∀ x ∈ [DmaSrc.cluster 127, .firmware, .pipeline, .doorbell], ctrlOk s0 x 63 = true) ∧ powered.mainDown = false
    ∧ (let c := (chan63 { cur := some (descOf 1 64 0 64), st := .running }).dchan 63; c.cur.isSome = true ∧ c.st ≠ .idle ∧ c.flight = [] ∧ c.stops = [])
    ∧ (let c := (chan63 {}).dchan 63; c.st = .idle ∧ c.cur = none ∧ c.head = (0x010 : BitVec 12).toNat % c.size ∧ c.head = c.tail ∧ 4 ≤ (4 : Fin 16).val)
    ∧ (let s := chan63 {} (mapped [(0x10000, 4)])
       let c := s.dchan 63
       let k := setChan 63 { c with tail := (1 : BitVec 12).toNat % c.size, st := .running } s
       c.head ≠ (1 : BitVec 12).toNat % c.size
        ∧ (dvaRead (dmaAccess k 63 (c.base + 64 * c.head) false) 64 k).1.toOption = some (4 :: List.replicate 63 0)
        ∧ (decodeDesc (4 :: List.replicate 63 0)).op = 4 ∧ reqCancelled s 0 (decodeDesc (4 :: List.replicate 63 0)).req = false)
    ∧ (let c := (chan63 { cur := some (descOf 1 64 0 64), st := .running, flight := [{ off := 0, len := 64, srcDpa := none, dstDpa := none }] }).dchan 63
       c.cur.isSome = true ∧ c.flight ≠ [])
    ∧ (let c := (chan63 { cur := some (descOf 2 64 0 64), st := .error, begun := true }).dchan 63
       c.st = .error ∧ c.cur = some (descOf 2 64 0 64) ∧ c.stops = [] ∧ c.begun = true ∧ (descOf 2 64 0 64).op ≠ 3)
    ∧ (let c := (chan63 { cur := some (descOf 2 64 0 64), st := .paused }).dchan 63; c.st = .paused ∧ c.stops = [] ∧ c.begun = false)
    ∧ (∀ st ∈ [DmaSt.faulted, .error], let c := (chan63 { st := st, head := 15 }).dchan 63; c.cur = none ∧ c.st = st ∧ c.head ≠ c.tail)
    ∧ (s0.dma.chan = []
      ∧ (let s := at0 0x0408 [63]; Runs s 0 0x0408 ∧ (s.box 0).exp = false ∧ (s.box 0).arg 0 < 64 ∧ seesPart s 0 (dmaPart s ((s.box 0).arg 0)) = true)) := by
  and_intros <;> decide +kernel

/-- Channel 63 runs a descriptor that has not begun. -/
def runs63 (x : Desc) : State := chan63 { cur := some x, st := .running } mapped
/-- The first of two chunks of channel 63, a FILL into a space, may end so or not. -/
abbrev EndsWith (space : Nat) (e : ChunkEnd) (can : Bool) : Prop :=
  let c : Chunk := { off := 0, len := 4096, srcDpa := none, dstDpa := none }
  let x : Desc := { descOf 2 8192 0 0 with dstSpace := space }
  let s := chan63 { cur := some x, st := .running, begun := true, flight := [c, { c with off := 4096 }] }
  (s.dchan 63).cur = some x ∧ (s.dchan 63).flight[(0 : Fin 16).val]? = some c ∧ 2 ≤ (s.dchan 63).flight.length ∧ (s.dchan 63).failAt = none
    ∧ chunkCanEnd s x c e = can
theorem witness_DmaDescriptorsAndChunks :
    (∀ k ∈ [1, 2, 3, 4], let s := runs63 (descOf k 64 0 64)
      (s.dchan 63).cur = some (descOf k 64 0 64) ∧ (s.dchan 63).st = .running ∧ (s.dchan 63).begun = false ∧ (s.dchan 63).flight = []
      ∧ (s.dchan 63).stops = [] ∧ (s.dchan 63).next = 0 ∧ descRefusal s 0 (descOf k 64 0 64) = none)
    ∧ (∀ k ∈ [1, 2, 3], descRefusal (runs63 (descOf k 0 0 64)) 0 (descOf k 0 0 64) = some 0x12)
    ∧ descRefusal (runs63 { descOf 4 0 0 0 with req := 0x200000 }) 0 { descOf 4 0 0 0 with req := 0x200000 } = some 0x15
    ∧ (let s := runs63 (descOf 1 64 0 64)
       let u := setChan 63 { s.dchan 63 with begun := true } s
       let r := translate (dmaAccess u 63 0 false) u
       chunkLen (descOf 1 64 0 64) 0 = 64 ∧ r.1.toOption = some 0x10000 ∧ (translate (dmaAccess r.2 63 64 true) r.2).1.toOption = some 0x10040
        ∧ (translate (dmaAccess u 63 64 true) u).1.toOption = some 0x10040)
    ∧ (let c : Chunk := { off := 0, len := 4096, srcDpa := none, dstDpa := some 0x10000 }
       let x : Desc := descOf 2 8192 0 0
       let s := chan63 { cur := some x, st := .running, begun := true, flight := [c, { c with off := 4096, dstDpa := some 0x11000 }], stops := [.pause] } mapped
       (s.dchan 63).cur = some x ∧ (s.dchan 63).flight[(0 : Fin 16).val]? = some c ∧ 2 ≤ (s.dchan 63).flight.length ∧ (s.dchan 63).failAt = none
        ∧ x.op = 2 ∧ c.dstDpa = some 0x10000 ∧ (s.dchan 63).stops ≠ [])
    ∧ EndsWith 1 .hostErr true ∧ EndsWith 2 (.remoteErr 4) true ∧ EndsWith 2 .linkDown true ∧ EndsWith 0 .hostErr false := by
  and_intros <;> decide +kernel
/-- The bound on codes that the FILL of that witness needs. -/
theorem test_chunk_bound (c : DmaChan) (k : Nat) : (joinBad ((chan63 c mapped).flaw k).bad []).length ≤ 2 := by
  rw [show (chan63 c mapped).flaw k = {} from rfl]
  decide
theorem test_no_request (k : Nat) : (s0.dchan k).cur = none := rfl

/-! ## Serving -/

/-- The serving phase, with request 5 as given. -/
def serving (r : Req) (s : State := s0) : State := inPh .serve (setReq 5 r s)
/-- A context program of the least vocabulary. -/
def prog : Program :=
  { prefillEntry := 0, decodeEntry := 0, maxContext := 1024, chunk := 32, decPerGroup := 1, kvBytes := 1024, t0d := 0, t1d := 0, t0p := 0, t1p := 0
    pw := 0, dw := 0, vocab := 2, digest := 0, key := 0 }
/-- Bytes at an address, as memory lists them. -/
def bytesAt (a : Nat) (l : List Byte) : Tab Byte := (l.mapIdx fun i b => (a + i, b)).filter fun e => e.2 ≠ 0
/-- A step of one group that has not reported, 100 ms after its dispatch. -/
def lateStep : State :=
  inPh .serve (units [(1, 0)] .inService { s0 with serve := { s0.serve with groups := 1 }, aon := { s0.aon with timeNs := 100000000 } })
/-- A stream of window 0 that clusters 0 and 1 take part in. -/
def windowStream : SchedStream :=
  { num := 1, window := 0, part := 0, srcNode := 0, srcPort := 4, dstNode := 1, dstPort := 4, route := [(0, 0)], units := [(1, 0), (1, 1)], vane := 0 }
theorem witness_StepEdgesAndOverruns :
    (s0.aon.phase ≠ .serve ∧ stepDone (inPh .serve) = true)
    ∧ (let s := lateStep; s.aon.phase = .serve ∧ stepDone s = false ∧ s.serve.dispatchedAt + overrunAfter s ≤ s.now
        ∧ 0 ∈ lateGroups s ∧ 0 ∈ groupClusters 0 ∧ carrying s 1 0 = true ∧ ∀ g < 16, groupInWindow s g = false)
    ∧ (let s := { lateStep with net := { s0.net with windows := [{ idx := 0, turn := 0 }], image := some { image with streams := [windowStream] } } }
       s.aon.phase = .serve ∧ (0 : Nat) < 16 ∧ groupInWindow s 0 = true)
    ∧ [127, 0].Nodup ∧ 0 ∈ [127, 0] := by
  and_intros <;> decide +kernel

/-- A drift tier of n pages on the second port. -/
def drift (n : Nat) (s : State) : State := { s with serve := { s.serve with driftSize := #v[0, n] } }
theorem witness_HandoffsAndDrift :
    (∀ m ∈ [true, false], let s := inPh .serve (setSpart 63 { program := some prog } (if m then hbm { s0 with prot := { s0.prot with parts := [(63, { kind := .ordinary, hbmQuota := 2 })] } } else s0))
      s.aon.phase = .serve ∧ (7 : Fin 8) ≠ s.aon.slot ∧ s.units.maint = false ∧ (s.spart 63).program.isSome = true ∧ (s.spart 63).role ≠ 1
      ∧ (∀ e ∈ s.serve.guests, ¬ (e.slot = 7 ∧ e.origin = 0)) ∧ (steward 63 2 0 false false 0 s).1.toOption = if m then some [0, 1] else none)
    ∧ (∀ r ∈ [{ theReq with st := .handoff, asked := true }, { theReq with st := .handoff, shipping := true }, { theReq with st := .remote, cancelSent := true }],
        (serving r).req 5 = some r)
    ∧ (∀ k ∈ [1, 2], let r := { theReq with st := .paused, plist := .frame 1, pages := [3] }
        let s := drift k (serving r)
        s.req 5 = some r ∧ partKind s r.part ≠ .vault ∧ r.move = none ∧ r.hostPaused = false ∧ r.retryAt = none
        ∧ ((collectDrift s (driftPagesAll s) 0 (r.pages.length + 1)).length = r.pages.length + 1 ↔ k = 2))
    ∧ (let r := { theReq with st := .paused, plist := .frame 1, pages := [3], retryAt := some 0 }; (∃ k, r.retryAt = some k ∧ k ≤ (serving r).serve.step))
    ∧ (let m : DriftMove := { out := true, granted := some [0, 1], copying := true, due := 0 }
       let r := { theReq with st := .paused, pages := [3], move := some m }
       (serving r).req 5 = some r ∧ m.copying = true ∧ m.copied = false ∧ movePairs r m = [(3 * 65536, driftDpa 0)] ∧ (serving r).mem.wf)
    ∧ (let r := { theReq with st := .drifted, ttlEnd := some 0 }; (serving r).req 5 = some r ∧ r.move = none ∧ 0 ≤ (serving r).now)
    ∧ (let g : GuestGrant := { slot := 7, part := 0, origin := 5, frames := [3, 4] }
       let s := { s0 with serve := { s0.serve with guests := [g] } }
       (s.serve.guests.find? fun e => e.slot = 7 && (e.origin = 5 && e.arrived.isNone)) = some g)
    ∧ (let r := { theReq with st := .remote }; let s := setSpart 0 { peer := 7 } (serving r)
       s.req 5 = some r ∧ r.st = .remote ∧ r.guest = false ∧ peerOf s r = 7)
    ∧ (let s := hbm (setFrame 9 { use := .zeroing } s0); let t := setFrame 9 { use := .zeroing } s
       (t.frame 9).use = .zeroing ∧ (t.frame 9).retirePending = false ∧ regionUp t (frameRegion 9) = true
        ∧ (let u := setFrame 9 { use := .zeroing, retirePending := true } s
           (u.frame 9).use = .zeroing ∧ (u.frame 9).retirePending = true ∧ regionUp u (frameRegion 9) = true)) := by
  and_intros <;> decide +kernel

/-- Ring 63 over DVA 0, with a descriptor of 64 bytes at its head, and request 5. -/
def ring63 (b : List Byte) (r : Req := theReq) (x : Ring := {}) : State :=
  setRing 63 { x with set := true, tail := 1 } (serving r (mapped (bytesAt 0x10000 b)))
/-- A descriptor: OP, class, tag and request. -/
def descBytes (op len maxNew tag req : Nat) : List Byte :=
  [BitVec.ofNat 8 op, 0, 0, 0] ++ leBytes 4 0 ++ leBytes 4 0 ++ leBytes 4 len ++ leBytes 4 maxNew ++ leBytes 8 0 ++ leBytes 8 0
    ++ List.replicate 12 0 ++ leBytes 4 req ++ leBytes 6 tag ++ List.replicate 6 0
/-- The descriptor that ring 63 reads. -/
def readsDesc (s : State) : Option (List Byte) := (dvaRead (serveAccess 0 0 false) 64 s).1.toOption
theorem witness_RingsAndDescriptors_controls :
    (let s := powered (setRing 63 { set := true } s0); s.mainDown = false ∧ (s.ring 63).set = true)
    ∧ (let s := setRing 63 { set := true, tail := 1 } (serving theReq); ingestReady s 63 = true ∧ readsDesc s = none)
    ∧ (∀ op ∈ [2, 3, 4, 5], let b := descBytes op 0 0 9 5; let s := ring63 b
        ingestReady s 63 = true ∧ readsDesc s = some b ∧ leAt b 0 1 = op ∧ dReq b % 2 ^ 21 = 5 ∧ s.req 5 = some theReq ∧ theReq.part = (s.ring 63).part
        ∧ theReq.ring = 63 ∧ theReq.guest = false ∧ theReq.st ≠ .ending ∧ dReq b < 2 ^ 21 ∧ ttlOver s theReq = false)
    ∧ (let b := descBytes 2 0 0 9 6; let s := ring63 b; readsDesc s = some b ∧ s.req (dReq b % 2 ^ 21) = none)
    ∧ (let r : ResRec := { kind := 2, req := 5, step := 0 }
       let x : Ring := { set := true, hostRes := true, out := [r] }
       let s := setRing 63 x { s0 with serve := { s0.serve with step := 1 }, link := { s0.link with bme := true, d0 := true } }
       (s.ring 63).set = true ∧ (s.ring 63).stopped = false ∧ (s.ring 63).hostRes = true ∧ s.hostReady = true ∧ (s.ring 63).out.head? = some r
        ∧ r.step < s.serve.step ∧ ((s.ring 63).out.takeWhile fun y => y.step = r.step).length + 1 ≤ resultRoom (s.ring 63)) := by
  and_intros <;> decide +kernel
theorem witness_RingsAndDescriptors_submit :
    (let b := descBytes 1 0 1 9 0; readsDesc (ring63 b) = some b ∧ leAt b 0 1 = 1 ∧ submitOk b = false)
    ∧ (let b := descBytes 1 1 1 9 0; let s := ring63 b; readsDesc s = some b ∧ submitOk b = true ∧ s.serve.reqs.length < 2097152
        ∧ admitRefusal s (newReq 63 (s.ring 63) b s.serve.nextSeq) = some 0x11)
    ∧ (let b := descBytes 1 1 1 9 0; let s := setTenant 0 { enable := true } (setSpart 0 { program := some prog } (ring63 b))
       ingestReady s 63 = true ∧ readsDesc s = some b ∧ admitRefusal s (newReq 63 (s.ring 63) b s.serve.nextSeq) = none) := by
  and_intros <;> decide +kernel

/-! ## Serving commands -/

/-- A block of 64 bytes whose last word is the CRC of the rest. -/
def sealBlock (l : List Byte) : List Byte := l ++ leBytes 4 (crc32c l)
/-- Table SP-2: a context program header. -/
def progBytes : List Byte :=
  sealBlock (leBytes 4 0x53565047 ++ leBytes 2 1 ++ leBytes 2 0 ++ leBytes 12 0 ++ leBytes 4 1024 ++ leBytes 2 32 ++ leBytes 2 1 ++ leBytes 4 1024
    ++ leBytes 12 0 ++ leBytes 4 2 ++ leBytes 12 0)
/-- The DRBG answers. -/
def drbgOn (s : State := s0) : State := { s with sealed := { s.sealed with drbg := { ready := true } } }
/-- A command of mailbox 0 in a form of the serving area. -/
def servCmd (op : Nat) (args used : List Nat) (s : State := s0) (input : List Byte := []) : Prop :=
  let t := at0 op args input s
  Runs t 0 op ∧ t.units.maint = false ∧ (t.box 0).exp = false ∧ shape t 0 (t.box 0) used = none
theorem witness_ServingCommands_settings :
    (servCmd 0x0502 [0, 65535, 7, 5, 0x7FFFFFFF] [1, 2, 3, 4] ∧ tenantPart s0 65535 = 0)
    ∧ (let s := at0 0x0502 [1, 63, 0, 0, 16, 0, 0, 0x1400]; servCmd 0x0502 [1, 63, 0, 0, 16, 0, 0, 0x1400] [0, 1, 2, 3, 4, 5, 6, 7]
        ∧ (s.box 0).arg 7 &&& 0xFFFEE0FE = 0 ∧ ringOk s 0 (s.box 0) = true ∧ ringLive s 63 = false)
    ∧ (∀ l ∈ [[0, 0], [1, 0]], servCmd 0x0505 l [0, 1])
    ∧ servCmd 0x0501 [] [] := by
  unfold servCmd
  and_intros <;> decide +kernel
theorem witness_ServingCommands_frames :
    (let s := drbgOn (mapped (bytesAt 0x10000 progBytes)); servCmd 0x0502 [2] [0, 1, 2] s ∧ partLive s 0 = false ∧ drbgDown s = false
      ∧ (dvaRead (serveAccess 0 0 false) 64 ((at0 0x0502 [2] [] s).freed 0)).1.toOption = some progBytes ∧ programOk progBytes = true)
    ∧ (let s := at0 0x0502 [3, 0, 2, 2, 0] [] hbm; servCmd 0x0502 [3, 0, 2, 2, 0] [0, 1, 2, 3, 4] hbm
        ∧ (steward 0 2 0 false false 0 (s.freed 0)).1.toOption = some [0, 1])
    ∧ (let s := at0 0x0502 [3, 0, 960, 1, 3]; servCmd 0x0502 [3, 0, 960, 1, 3] [0, 1, 2, 3, 4] ∧ (steward 0 960 3 false false 0 (s.freed 0)).1.toOption = none)
    ∧ (let s := at0 0x0502 [3, 1] (wordsOf [1]) mapped; servCmd 0x0502 [3, 1] [0, 1] mapped (wordsOf [1]) ∧ (s.box 0).input.length % 4 = 0
        ∧ frameList (s.box 0) = [1] ∧ mayFree s 0 1 = true ∧ s.sealed.vaults = []) := by
  unfold servCmd
  and_intros <;> decide +kernel

/-- Table KV-4: an adapter record for `prog`, with weights at DVA 64. -/
def adapterBytes : List Byte :=
  sealBlock (leBytes 4 0x41445054 ++ leBytes 2 1 ++ leBytes 2 256 ++ leBytes 2 1024 ++ [1, 0] ++ leBytes 6 64 ++ leBytes 6 0 ++ leBytes 8 65472
    ++ leBytes 16 0 ++ leBytes 12 0)
/-- A registered adapter. -/
def theAdapter : Adapter := { part := 0, gen := 1, rank := 1, layers := 1, dtype := 0, weightDva := 0, weightBytes := 1, crc := 0 }
theorem witness_AdaptersAndPrefixes :
    (let s := setSpart 0 { program := some prog } (mapped (bytesAt 0x10000 adapterBytes)); let t := at0 0x0503 [] [] s
      servCmd 0x0503 [] [0, 1] s ∧ (dvaRead (serveAccess 0 0 false) 64 (t.freed 0)).1.toOption = some adapterBytes
      ∧ (t.spart 0).program = some prog ∧ adapterOk prog adapterBytes = true ∧ rangeReadable (t.freed 0) 0 64 65472 = true
      ∧ t.serve.adapters.length < 262144)
    ∧ (let s := { s0 with serve := { s0.serve with adapters := [(262143, theAdapter)] } }
       servCmd 0x0504 [262143] [0] s ∧ s.adapter 262143 = some theAdapter ∧ adapterPins s 262143 = 0)
    ∧ (∀ l ∈ [[0, 0], [1, 65535], [2, 65535]], servCmd 0x0508 l [0, 1])
    ∧ servCmd 0x0507 [] [] := by
  unfold servCmd
  and_intros <;> decide +kernel

/-- Table DS-1: a draft header for `prog`: code at DVA 64, weights at DVA 128. -/
def draftBytes : List Byte :=
  sealBlock (leBytes 4 0x44524654 ++ leBytes 2 1 ++ [16, 64] ++ leBytes 4 2 ++ leBytes 4 32 ++ leBytes 6 64 ++ leBytes 2 0 ++ leBytes 6 128
    ++ leBytes 2 0 ++ leBytes 8 64 ++ leBytes 2 0 ++ leBytes 2 64 ++ leBytes 4 0 ++ leBytes 4 4096 ++ leBytes 8 0)
/-- One ADD of 1 by 1. -/
def draftInstr : List Byte := [5, 2, 0, 0] ++ leBytes 12 0 ++ leBytes 2 1 ++ leBytes 2 1 ++ leBytes 12 0
/-- A draft program. -/
def theDraft (ready : Bool) : DraftProg :=
  { k := 16, support := 64, vocab := 2, t0 := 0, t1 := 0, sram := 4096, codeLen := 32, kvOff := 0, kvLen := 64, frames := [2, 3], digest := 0, ready := ready }
/-- The machine with that program in partition 63, and request 5 drafting for some rounds. -/
def drafting (ready : Bool) (left : Nat := 2) : State :=
  let s := setSpart 63 { program := some prog } (setReq 5 { theReq with part := 63, draft := true } s0)
  { s with serve := { s.serve with drafts := [(63, theDraft ready)], drafting := [(5, { left := left })] } }
/-- Table DS-2: a program over a vocabulary of 2: EMBED of a table of one FP8 element a row, CONVERT to FP8, KVPUT at byte 3 of the
cache record, LOGITS. -/
def passCode : List Byte :=
  ([9, 0, 0, 0] ++ leBytes 12 0 ++ leBytes 6 0x10001 ++ leBytes 10 0)
  ++ ([11, 0, 0, 0] ++ leBytes 8 0 ++ leBytes 4 8 ++ leBytes 6 0x10001 ++ leBytes 10 0)
  ++ ([7, 0, 3, 0] ++ leBytes 4 8 ++ leBytes 8 0 ++ leBytes 6 0x10001 ++ leBytes 10 0)
  ++ ([10, 0, 0, 0] ++ leBytes 4 8 ++ leBytes 4 2 ++ leBytes 4 16 ++ leBytes 2 1 ++ leBytes 2 0 ++ leBytes 2 1 ++ leBytes 10 0)
/-- That program with code in frame 2, and in frame 3 the table 1.0, 2.0 and the matrix 1.0, -3.0 as FP8 E4M3. -/
def passProg : DraftProg := { theDraft true with codeLen := 128 }
def passBytes : Tab Byte := pokeTab (pokeTab [] 0x20000 passCode) 0x30000 [0x38, 0x40, 0x38, 0xC4]
/-- Token 1 at position 1 of a request whose page is frame 9: logits 2.0 and -6.0 (hand calculation), its embedding in the cache. -/
theorem test_draft_pass :
    draftCodeOk 2 4096 64 64 4 passCode = true
    ∧ (draftPass prog passProg { theReq with pages := [9] } 1 1 passBytes).1 = [0x40000000, 0xC0C00000]
    ∧ cacheAt prog passProg { theReq with pages := [9] } 1 = some (0x90000 + prog.kvBytes)
    ∧ Tab.get 0 (draftPass prog passProg { theReq with pages := [9] } 1 1 passBytes).2 (0x90003 + prog.kvBytes) = 0x40 := by decide +kernel
/-- R399: FP8 E4M3: 448 is the largest; ties go to even. -/
theorem test_e4m3 : e4m3Widen 0x7E = 0x43E00000 ∧ e4m3Round 0x43E00000 = 0x7E ∧ e4m3Widen 1 = 0x3B000000 ∧ e4m3Round 0x3F880000 = 0x38
    ∧ e4m3Round 0xBF980000 = 0xBA ∧ bf16Round 0x3F808000 = 0x3F80 ∧ bf16Round 0x3F818000 = 0x3F82 := by decide +kernel
theorem witness_DraftsAndSampling :
    (let s := at0 0x0506 [] [] (setSpart 0 { program := some prog } (mapped (bytesAt 0x10000 (draftBytes ++ draftInstr))))
      let h := dvaBytes 0 0 64 (s.freed 0)
      let code := dvaBytes 0 64 32 h.2
      let w := dvaBytes 0 128 64 code.2
      Runs s 0 0x0506 ∧ (s.box 0).arg 2 = 0 ∧ ctPart s 0 = false ∧ partLive s 0 = false ∧ s.draftOf 0 = none
      ∧ h.1 = draftBytes ∧ code.1 = draftInstr ∧ w.1.length = 64 ∧ draftHeaderOk prog draftBytes = true ∧ draftCodeOk 2 4096 64 64 1 draftInstr = true
      ∧ (steward 0 2 1 false false 0 w.2).1.toOption = some [2, 3])
    ∧ (let s := at0 0x0506 [0, 0, 1]; Runs s 0 0x0506 ∧ (s.box 0).arg 2 = 1 ∧ partLive s 0 = false)
    ∧ ((drafting false).draftOf 63 = some (theDraft false)
      ∧ (let s := waits .draftLoad { drafting false with prot := { s0.prot with parts := [(63, { kind := .ordinary, mbx := 1 })] } }
         (s.box 0).await = some .draftLoad ∧ mbxPart s 0 = 63))
    ∧ (let s := drafting true; s.draftOf 63 = some (theDraft true) ∧ (theDraft true).failed = false ∧ drafters s 63 = [5]
        ∧ 1 < (Tab.get {} s.serve.drafting 5).left ∧ (s.req 5).isSome = true ∧ (s.spart 63).program = some prog)
    ∧ (let s := drafting true 1; s.draftOf 63 = some (theDraft true) ∧ drafters s 63 = [5]
        ∧ (Tab.get {} s.serve.drafting 5).left = 1 ∧ (s.req 5).isSome = true ∧ (s.spart 63).program = some prog)
    ∧ draftCodeOk 2 4096 64 64 4 ((List.range 128).map (frameByte passBytes [2])) = true
    ∧ packetEntry s0 65535 255 = none
    ∧ (let e : Entry := { req := 5, part := 0, group := 0, kind := .verify, ntok := 256, pos := 0, slot := 65535 }
       let s := setSpart 0 { program := some { prog with vocab := 2048 } } { s0 with serve := { s0.serve with entries := [e] } }
       packetEntry s 65535 255 = some e ∧ (1024 : BitVec 32).toNat % 1024 = 0 ∧ (1024 : BitVec 32).toNat < 2048 ∧ s.serve.packets = []) := by
  and_intros <;> decide +kernel

/-! ## Sealed arithmetic -/

/-- R417: with q = 3 the radix 2^64 is 1: products reduce as in Z/3; R2 is 1. -/
theorem witness_MontgomeryMultiplication : mmul 3 2 2 = 1 ∧ mmul 3 1 2 = 2 ∧ rSquared 3 = 1 ∧ (3 % 2 = 1 ∧ 1 < 3 ∧ (2 ^ 61 - 1) % 2 = 1 ∧ 2 ^ 61 - 1 < 2 ^ 61) := by decide +kernel
/-- A partition of a kind that owns mailbox 0, MEE group 15 and object 16383, on Y1 tiles with constant-time mode. -/
def ownedBy (k : PartKind) (s : State := s0) : State :=
  let t := withPart { kind := k, mbx := 1, mee := 0x8000, clusters := BitVec.allOnes 128, lullBase := 16383, lullCount := 1, hbmQuota := 64, areas := 0xFFFF } s
  { t with bond := { t.bond with tiles := Vector.replicate 4 { prof := some { capProf 2400 with feat := 0x3F } } } }
/-- A sealed session of one limb. -/
def theSess : SealedSess := { part := 1, n := 12, moduli := [2 ^ 61 - 1], d := 1, tau := 500000 / 2 ^ 5 }
/-- The machine with that session in slot 15. -/
def sessioned (s : State := s0) : State := { s with sealed := { s.sealed with sess := [(15, theSess)] } }
theorem witness_SealedSessionsAndPasses_commands :
    (let s := at0 0x0602 [0, 15, 12, 1, 1] (leBytes 8 (2 ^ 61 - 1)) (units [(6, 15)] .inService
        (ownedBy .sealedK { s0 with prot := { s0.prot with sealedP := { maxDegree := 12, maxLimbs := 1 } } }))
     Runs s 0 0x0602 ∧ ctPart s (mbxPart s 0) = true ∧ (s.box 0).exp = false ∧ sessionShape (s.box 0) = none
      ∧ (s.box 0).arg 2 ≤ s.prot.sealedP.maxDegree ∧ (s.box 0).arg 3 ≤ s.prot.sealedP.maxLimbs ∧ moduliOk (moduliOf (s.box 0)) = true
      ∧ s.sealedSess 15 = none ∧ ((wKs 12 1 1 (tauOf s (s.box 0)) (groupsUp s).length).elim false (· ≤ 97)) = true)
    ∧ (let s := at0 0x0602 [1, 15, 0xFFFFF000, 0xFFFF] [] (ownedBy .sealedK); Runs s 0 0x0602 ∧ ctPart s (mbxPart s 0) = true
        ∧ argsZero (s.box 0) [0, 1, 2, 3] = none ∧ meePart s 15 = mbxPart s 0 ∧ (s.box 0).arg64 2 < 2 ^ 48 ∧ (s.box 0).arg64 2 % 4096 = 0
        ∧ (s.mee 15).passes = [])
    ∧ (let s := at0 0x0602 [2, 15] [] (sessioned (ownedBy .sealedK)); Runs s 0 0x0602 ∧ argsZero (s.box 0) [0, 1] = none
        ∧ ownSession s 0 15 = true ∧ sessionBusy s 15 = false)
    ∧ (let s := at0 0x0603 [15, 0xFFFFFFFF, 0xFFFF, 0xFFFFFFFF, 0xFFFF, 0, 0] [] (units [(6, 15)] .inService
          (sessioned (ownedBy .sealedK { s0 with net := { s0.net with image := some image } })))
       Runs s 0 0x0603 ∧ ownSession s 0 15 = true ∧ (s.box 0).arg64 1 < 2 ^ 48 ∧ (s.box 0).arg64 3 < 2 ^ 48 ∧ refreshOk s (s.box 0) = true
        ∧ s.sealed.refreshes = [])
    ∧ (Runs (at0 0x0601) 0 0x0601 ∧ ((at0 0x0601).box 0).exp = false) := by
  and_intros <;> decide +kernel
theorem witness_SealedSessionsAndPasses_events :
    (let s := units [(6, 15)] .inService; bellOk s .firmware 15 = true ∧ carrying s 6 15 = true ∧ (s.mee 15).set = false ∧ bellOk s .other 15 = false
      ∧ fld (0xF : Word) 0 4 = 15)
    ∧ (let u := modMee 15 (fun m => { m with set := true, tail := 1 }) (mapped []); let s := { u with units := (units [(5, 0), (6, 15)] .inService).units }
       bellOk s .firmware 15 = true ∧ carrying s 6 15 = true ∧ (s.mee 15).set = true ∧ (s.mee 15).head < 64 ∧ fld (0x1F : Word) 4 6 = 1
        ∧ ((s.mee 15).head + 1) % 64 = 1
        ∧ (dvaRead (meeAccess 15 0 ((s.mee 15).base + 64 * (s.mee 15).head) false) 64 s).1.toOption = some (List.replicate 64 0)
        ∧ passFormatOk s 0 (decodePass (List.replicate 64 0)) = false)
    ∧ (let s := { s0 with sealed := { s0.sealed with exchs := [(255, { sess := 15, key := [], nonce := [], opened := 0 })] } }
       (s.exch 255).isSome = true)
    ∧ (∀ k ∈ [0, 1], let r : Refresh := { sess := 15, cipher := 0, keySet := 0, winKs := 0, winEl := 0, stopAt := some 1, closed := k, started := 0 }
       let s := waits (.refresh 15) { s0 with sealed := { s0.sealed with refreshes := [r] } }
       s.sealed.refreshes.find? (fun x => x.sess = (15 : Fin 16).val) = some r ∧ (r.closed < refreshWindows s r ↔ k = 0)
        ∧ (s.box 0).await = some (.refresh 15)) := by
  and_intros <;> decide +kernel

/-- A vault of frame 9. -/
def theVault : Vault := { part := 1, frames := [9], metaFrames := [8], lifeEnd := 1 }
/-- The machine with that vault in slot 31, owned by partition 1. -/
def vaulted (v : Vault := theVault) (s : State := s0) : State := ownedBy .vault { s with sealed := { s.sealed with vaults := [(31, v)] } }
/-- The DRBG has answered k requests. -/
def drawn (k : Nat) : State := { drbgOn with sealed := { drbgOn.sealed with drbg := { drbgOn.sealed.drbg with reqs := k } } }
theorem witness_VaultsAndDrbg :
    (let s := at0 0x0604 [31, 7] (wordsOf [9]) (setFrame 9 { use := .held, part := 1 } (drbgOn (ownedBy .vault (hbm { s0 with prot := { s0.prot with vault := { life := 7 } } }))))
     Runs s 0 0x0604 ∧ partKind s (mbxPart s 0) = .vault ∧ (s.box 0).exp = false ∧ (s.box 0).arg 0 < 32 ∧ 1 ≤ (s.box 0).arg 1
      ∧ (s.box 0).arg 1 ≤ s.prot.vault.life ∧ (s.box 0).input ≠ [] ∧ (s.box 0).input.length ≤ 65536 ∧ (s.box 0).input.length % 4 = 0 ∧ vaultFramesOk s 1 (frameList (s.box 0)) = true ∧ s.vault 31 = none ∧ drbgDown s = false
      ∧ (steward 1 1 3 false false 0 (s.freed 0)).1.toOption = some [0])
    ∧ (let s := at0 0x0605 [31] [] (vaulted); Runs s 0 0x0605 ∧ partKind s (mbxPart s 0) = .vault ∧ s.vault 31 = some theVault ∧ theVault.part = mbxPart s 0
        ∧ (s.box 0).exp = false)
    ∧ (vaulted.vault 31 = some theVault ∧ rekeyDue theVault = false ∧ rekeyDue { theVault with ctr := [(0, 0x6FFF)] } = false)
    ∧ (let v := { theVault with ctr := [(7, 0x7000)] }; let s := drbgOn (vaulted v); s.vault 31 = some v ∧ v.changing = false
        ∧ (∃ e ∈ v.ctr, 0x7000 ≤ e.2) ∧ drbgDown s = false)
    ∧ (let v := { theVault with changing := true, ctr := [(0, 7)] }; (vaulted v).vault 31 = some v ∧ v.changing = true ∧ v.held = [] ∧ v.again = false)
    ∧ (let s := at0 0x0606 [] (List.replicate 48 1) (drbgOn); canReseed s = true ∧ s.sealed.vaults = [] ∧ Runs s 0 0x0606 ∧ (s.box 0).exp = false
        ∧ (s.box 0).inHost = false ∧ (s.box 0).input.length ≤ 48)
    ∧ (let s := drawn (2 ^ 20 - 2 ^ 16); canReseed s = true ∧ s.sealed.vaults = [] ∧ 2 ^ 20 - 2 ^ 16 ≤ s.sealed.drbg.reqs)
    ∧ (drawn (2 ^ 20 - 2 ^ 16 - 1)).sealed.drbg.reqs < 2 ^ 20 - 2 ^ 16
    ∧ (let s := drawn (2 ^ 20); s.sealed.drbg.ready = true ∧ s.sealed.drbg.exhausted = false ∧ 2 ^ 20 ≤ s.sealed.drbg.reqs)
    ∧ s0.sealed.drbg.srcFailed = false := by
  and_intros <;> decide +kernel

/-- A Crosswind session of partition 1 on vault 31 over Z/2^64. -/
def theCx : CxSess := { part := 1, vault := 31, modulus := 0, role := 0, peer := 5, tupFirst := 0, tupCount := 1, event := 16383 }
/-- The machine with a session in slot 15. -/
def crossed (x : CxSess) (s : State := s0) : State := let t := vaulted {theVault with frames := [8, 9]} s; { t with sealed := { t.sealed with cx := [(15, x)] } }
theorem witness_CrosswindSessions_commands :
    (let s := at0 0x0607 [0, 15, 31, 0, 0, 1, 5, 0x10001, 16383] [] (withObj { kind := .event, home := 17, part := 1 } (drbgOn (vaulted { theVault with frames := [8, 9] })))
     Runs s 0 0x0607 ∧ partKind s (mbxPart s 0) = .vault ∧ (s.box 0).exp = false ∧ pairShape s 0 (s.box 0) = none ∧ domainOk ((s.box 0).arg64 3) = true
      ∧ s.cxSess 15 = none ∧ drbgDown s = false)
    ∧ (let x := { theCx with paired := true, suspended := some 0 }; let s := at0 0x0607 [1, 15] [] (drbgOn (crossed x)); Runs s 0 0x0607
        ∧ argsZero (s.box 0) [0, 1] = none ∧ s.cxSess 15 = some x ∧ x.part = mbxPart s 0 ∧ x.suspended.isSome = true ∧ x.hs = none ∧ drbgDown s = false)
    ∧ (let s := at0 0x0607 [2, 15] [] (crossed theCx); Runs s 0 0x0607 ∧ argsZero (s.box 0) [0, 1] = none ∧ ownCx s 0 15 = true) := by
  and_intros <;> decide +kernel
/-- What the peer's HELLO carries. -/
def cxPeer (role : Nat) : CxPeer := { chain := [], key := [], nonce := [], modulus := 0, role := role, tuples := 1 }
/-- The machine in the handshake of a pairing, the peer's HELLO kept, its tray trained on port 11 and named in the escrow list. -/
def pairing (role : Nat) : State :=
  waits (.pairing 15) (setGport 11 { far := some (5, 0, 11, 0, 0) } (crossed { theCx with hs := some .pair, hello := some (cxPeer role) }
    { s0 with prot := { s0.prot with vault := { s0.prot.vault with escrow := [5] } } }))
theorem witness_CrosswindSessions_events :
    (let s := pairing 1; let x := { theCx with hs := some .pair, hello := some (cxPeer 1) }
      s.cxSess (15 : Fin 16).val = some x ∧ x.hs.isSome = true ∧ x.hello = some (cxPeer 1) ∧ (s.box 0).await = some (.pairing 15))
    ∧ ((crossed theCx).cxSess 15 = some theCx ∧ theCx.hs = none ∧ theCx.paired = false)
    ∧ (let x := { theCx with paired := true, suspended := some 0, tag := 7 }; (crossed x).cxSess 15 = some x ∧ x.hs = none
        ∧ x.suspended.isSome = true ∧ cxByTag (crossed x) 7 = some (15, x)) := by
  and_intros <;> decide +kernel
/-- Equal roles fail the checks of FINISH, whatever the signature. -/
theorem witness_CrosswindSessions_fails (sig : List Byte) :
    cxChecks (pairing 0) { theCx with hs := some .pair, hello := some (cxPeer 0) } (cxPeer 0) sig = false := by
  simp [cxChecks, cxPeer, theCx]
/-- Opposite roles, the same domain and tuples and a tray of the escrow list pass them, when chain and signature verify. -/
theorem witness_CrosswindSessions_passes (sig : List Byte) (x : CxSess) (hx : x = { theCx with hs := some .pair, hello := some (cxPeer 1) })
    (h1 : Config.chainOk [] = true) (h2 : Config.ecdsaOk (Config.chainKey []) (cxHandshake (pairing 1) x (cxPeer 1)).transcript sig = true) :
    cxChecks (pairing 1) x (cxPeer 1) sig = true := by
  have e : (decide (5 ∈ (pairing 1).prot.vault.escrow) && ((pairing 1).gport 11).far.elim false fun f => f.1 = 5) = true := by decide +kernel
  have m : (cxPeer 1).modulus = x.modulus ∧ (cxPeer 1).tuples = x.tupCount ∧ (cxPeer 1).role ≠ x.role ∧ x.peer = 5 := by subst hx; decide
  obtain ⟨m1, m2, m3, m4⟩ := m
  rw [Bool.and_eq_true] at e
  unfold cxChecks
  rw [show (cxPeer 1).chain = [] from rfl, h1, h2, m4, e.1, e.2, m1, m2, decide_eq_true m3, decide_eq_true rfl, decide_eq_true rfl]
  rfl

theorem witness_CrosswindRounds :
    cxByTag s0 7 = none
    ∧ (let x := { theCx with paired := true, tag := 7, inSeq := 3, nextTuple := 2 }; let s := crossed x; cxByTag s 7 = some (15, x) ∧ s.cxSess 15 = some x
        ∧ (1 : Word).toNat = x.round ∧ (3 : Word).toNat = x.inSeq ∧ x.inDone = false ∧ (2 : BitVec 64).toNat = expectBase x x.out
        ∧ (3 : BitVec 64).toNat ≠ expectBase x x.out ∧ x.round + 1 < (3 : Word).toNat ∧ x.out = none ∧ drbgDown (drbgOn s) = false)
    ∧ (let x := { theCx with paired := true, tag := 7, round := 3 }; cxByTag (crossed x) 7 = some (15, x) ∧ (1 : Word).toNat + 1 < x.round)
    ∧ (∀ a ∈ [true, false], let b : CxBatch := { round := 0xFFFFFFFF, base := 0, count := 0, bytes := [1], sent := true }
        let x := { theCx with paired := true, tag := 7, round := 0xFFFFFFFF, out := some b, sentAck := a }; cxByTag (crossed x) 7 = some (15, x)
        ∧ x.out = some b ∧ b.sent = true ∧ x.round < 2 ^ 32 ∧ x.nextDone = false)
    ∧ (let x := { theCx with part := 0, paired := true }; let s := { mapped with sealed := { s0.sealed with cx := [(15, x)] } }
       s.cxSess 15 = some x ∧ clusterPart s 127 = x.part ∧ x.out = none
        ∧ (dvaRead { part := 0, dva := 0xFFF0, ut := 0x01, inst := 127 } 16 s).1.toOption = some (List.replicate 16 0))
    ∧ (let b : CxBatch := { round := 1, base := 0, count := 0, bytes := List.replicate 4064 0, sent := true }
       let x := { theCx with paired := true, out := some b }
       let s := setGport 11 { st := .up, chans := [(15, { st := .up, tx := 2 ^ 42 - 1 })] } (crossed x)
       s.cxSess 15 = some x ∧ b.sent = true ∧ x.gotAck = false ∧ x.suspended = none ∧ cxMaySend s 15 = true ∧ b.bytes.length ≤ 4064) := by
  and_intros <;> decide +kernel

/-! ## Links -/

/-- A block with its HCRC. -/
def blockOf (head : BitVec 64) (slots : List GustSlot) : GustBlock := { head := head, hcrc := crc64 (leBytes 8 head.toNat), slots := slots }
/-- A flit with its FCRC. -/
def slotOf (hdr : BitVec 56) (data : List Byte) : GustSlot := { hdr := hdr, fcrc := crc64 (leBytes 7 hdr.toNat ++ data), data := data }
/-- Port k as given. -/
def gust (k : Nat) (p : GPort) : State := setGport k p s0
theorem witness_GustPorts_training :
    (let p := (gust 11 { st := .training, step := 1 }).gport 11; p.st = .training ∧ p.step = 1)
    ∧ (let s := gust 6 { st := .training, step := 3 }; (s.gport 6).st = .training ∧ (s.gport 6).step = 3 ∧ meshPeer s.aon.slot.val 6 = 7
        ∧ (7 : Fin 8).val = meshPeer s.aon.slot.val 6 ∧ (0 : Fin 16).val = 6 - 6 ∧ (0xFFF : BitVec 12).toNat ≠ 0 ∧ s.aon.trayId = 0)
    ∧ (let s := gust 6 { st := .training, step := 3 }; (1 : Fin 16).val ≠ 6 - 6 ∧ (s.gport 0).st ≠ .miswired ∧ (s.gport 6).far = none)
    ∧ (let s := gust 11 { st := .training, step := 3 }; (s.gport 11).st = .training ∧ (s.gport 11).step = 3 ∧ s.aon.trayId = 0 ∧ 7 ≤ (11 : Fin 12).val
        ∧ (s.gport 11).far = none ∧ (s.gport 0).st ≠ .miswired)
    ∧ (let s := gust 7 { st := .training, step := 3, far := some (1, 0, 8, 0, 0) }; (s.gport 7).st = .training ∧ (s.gport 7).step = 3
        ∧ (s.gport 7).far.isSome = true)
    ∧ (∀ k ∈ [1, 2, 4], ((gust 11 { st := .training, step := k }).gport 11).st = .training ∧ ((gust 11 { st := .training, step := k }).gport 11).step = k)
    ∧ (let s := gust 11 { st := .faulted, faultAt := some 60000000000, returnedAt := some 0 }; (s.gport 11).st = .faulted ∧ (s.gport 11).retrained = false
        ∧ faultedSoon (s.gport 11) = false)
    ∧ (let s := gust 11 { st := .up, tracked := [(1, 2, 3)] }; (s.gport 11).st = .up) := by
  and_intros <;> decide +kernel
/-- Port 10 in its handshake, TRAIN_ID taken. -/
def hsPort : GPort := { st := .training, step := 4, far := some (1, 0, 10, 0, 0) }
/-- Port 10 UP, in a rekey handshake. -/
def hsUp : GPort := { hsPort with st := .up, step := 0, chans := [(0, { st := .up, handshake := true })] }
/-- What a far end of a tray answers. -/
def hsFrom (tray : BitVec 12) : HsPeer := { chain := [], key := [], nonce := [], sig := [], tray := tray, slot := 0, port := 10 }
/-- The far end of a port is the one that `h` names. -/
def farIs (p : GPort) (h : HsPeer) : Bool := p.far.elim false fun f => f.1 = h.tray.toNat && (f.2.1 = h.slot.val && f.2.2.1 = h.port.val)
theorem test_hs_port (p : GPort) : (setGport 10 p s0).gport 10 = p := by
  by_cases h : p = {}
  · subst h
    rfl
  · change Tab.get {} (Tab.put {} [] 10 p) 10 = p
    rw [Tab.put, if_neg h]
    rfl
/-- A handshake from another tray than TRAIN_ID named fails its checks. -/
theorem witness_GustPorts_handshake_fails (p : GPort) (h : farIs p (hsFrom 2) = false) : hsOk (gust 10 p) 10 (hsFrom 2) = false := by
  unfold farIs at h
  simp only [hsOk, gust, test_hs_port, h, Bool.and_false]
/-- One from the far end that TRAIN_ID named passes them, when chain and signature verify. -/
theorem witness_GustPorts_handshake_passes (p : GPort) (h : farIs p (hsFrom 1) = true) (h1 : Config.chainOk (hsFrom 1).chain = true)
    (h2 : Config.chainDx2 (hsFrom 1).chain = true)
    (h3 : Config.ecdsaOk (Config.chainKey (hsFrom 1).chain) (linkHandshake (gust 10 p) 10 (hsFrom 1)).transcript (hsFrom 1).sig = true) :
    hsOk (gust 10 p) 10 (hsFrom 1) = true := by
  unfold farIs at h
  rw [hsOk, h1, h2, h3]
  simp only [gust, test_hs_port, h, Bool.and_self]
theorem witness_GustPorts_handshake :
    ((gust 10 hsPort).gport 10).st = .training ∧ ((gust 10 hsPort).gport 10).step = 4 ∧ farIs hsPort (hsFrom 1) = true ∧ farIs hsPort (hsFrom 2) = false
    ∧ farIs hsUp (hsFrom 1) = true ∧ farIs hsUp (hsFrom 2) = false ∧ (0 : Nat) ∈ chanList (gust 10 hsUp) 10 ∧ ((gust 10 hsUp).gport 10).st = .up
    ∧ ((gust 10 hsUp).chanOf 10 0).handshake = true := by
  and_intros <;> decide +kernel
/-- Port 0 is UP and the mesh in service; the entry of multicast group 127 at its edge router is VALID. -/
def arriving : State :=
  let s := setGport 0 { st := .up, rxNext := 0xFFFF } mesh
  { s with coll := { s.coll with mcast := [(127, lone)] }
           net := { s.net with bank0 := { s.net.bank0 with bytes := (List.range 4).map fun i => (bankKey (gustNode 0) (300 + 4 * 127 + i), if i = 3 then 4 else 0) } } }
theorem witness_Enters : Enters arriving 0 readSb [] ∧ sbMcast (edgeSideband arriving 0 readSb) = false
    ∧ sbTest readSb = false ∧ sbRequest readSb = true := by
  unfold Enters
  and_intros <;> decide +kernel
theorem witness_Enters_multicast : Enters arriving 0 0x8000C07F [] ∧ sbMcast (edgeSideband arriving 0 0x8000C07F) = true := by
  unfold Enters
  and_intros <;> decide +kernel
theorem witness_GustPorts_blocks :
    (hcrcOk { blockOf 0 [] with hcrc := 1 } = false ∧ ((gust 11 { st := .up, badHcrc := 62 }).gport 11).badHcrc + 1 < 64)
    ∧ (let b := blockOf 0 []; hcrcOk b = true ∧ bNak b = false ∧ (62 + 1 < 64 ∧ 64 ≤ 63 + 1)
        ∧ ∀ l ∈ [62, 63], ((gust 0 { st := .training, step := 2, locks := l }).gport 0).locks = l)
    ∧ (let b := blockOf 0xFF00000500000000 []; hcrcOk b = true ∧ bNak b = false ∧ b.slots = [] ∧ ((gust 0 { st := .up }).gport 0).waitq = []
        ∧ covered (bAck b) 4 = true ∧ bCrd b 3 = 24)
    ∧ (∀ last ∈ [0, 2 ^ 30], let x := slotOf (BitVec.ofNat 56 (1 + 2 ^ 16 + 2 ^ 29 + last)) [7, 0, 1]
        let b := blockOf 0xFFFF0000 [x]
        let s := arriving
        s.net.gustWait = [] ∧ (s.gport 0).st = .up ∧ (s.gport 0).waitq = [] ∧
        hcrcOk b = true ∧ bNak b = false ∧ b.slots = [x] ∧ fcrcOk x = true ∧ hKind x.hdr = 1 ∧ bFseq b = (s.gport 0).rxNext
        ∧ hLast x.hdr = decide (last ≠ 0) ∧ sbTest (hSideband x.hdr) = false ∧ sbRequest (hSideband x.hdr) = true ∧ sbMcast (hSideband x.hdr) = false
        ∧ gustCarries s 0 = true ∧ sbLegal (edgeSideband s 0 (hSideband x.hdr)) = true
        ∧ overLimit s (gustNode 0) 7 (sbVc (edgeSideband s 0 (hSideband x.hdr))) [] = false
        ∧ unreachable s (gustNode 0) (edgeSideband s 0 (hSideband x.hdr)) = false)
    ∧ (let x : GustSlot := { slotOf 1 [] with fcrc := 1 }; fcrcOk x = false ∧ hcrcOk (blockOf 0 [x]) = true ∧ bNak (blockOf 0 [x]) = false) := by
  and_intros <;> decide +kernel
theorem witness_GustPorts_rest :
    (let f : GFlit := { fseq := 0xFFFF, hdr := 1, data := [] }
     let p := (gust 11 { st := .up, retry := [f], same := some (0xFFFF, 6), winCount := 999 }).gport 11
     p.retry = [f] ∧ (∀ c ∈ p.same, c.2 + 1 < 8) ∧ (replaySecond p 0).2 ≤ 1000)
    ∧ (let s := gust 10 { st := .up, lseqIn := [(3, 5)] }; let p := s.gport 10; p.st = .up ∧ (4 : BitVec 64).toNat < Tab.get 0 p.lseqIn 3
        ∧ Tab.get 0 p.lseqIn 3 ≤ (5 : BitVec 64).toNat ∧ gustCarries s 10 = true ∧ fld (10 : BitVec 64) 0 4 = 10 ∧ fld (14 : BitVec 64) 0 4 = 14
        ∧ fld (15 : BitVec 64) 0 4 = 15 ∧ fld (15 : BitVec 64) 25 3 = s.aon.slot.val)
    ∧ (let s := gust 11 { st := .up }; (s.gport 11).st = .up ∧ gustCarries s 11 = false)
    ∧ ((gust 11 { st := .probation }).gport 11).st = .probation := by
  and_intros <;> decide +kernel

/-- Port 11, up, with channel 15 of a Crosswind session. -/
def chan15 (c : SChan) : State := setGport 11 { st := .up, chans := [(15, c)] } (crossed { theCx with paired := true })
/-- Port 0 UP in a mesh in service, with its channel. -/
def sealedPort (x : SChan) : State := setGport 0 { st := .up, chans := [(0, x)] } mesh
/-- A frame that the tag check opens meets the hypothesis of acceptance, and one that it does not open that of rejection. -/
theorem witness_SealedChannels_tag (tag : BitVec 128) (data : List Byte) :
    (∃ b, openFrame { st := .up } 0 0 0 tag readSb data = some b) ∨ openFrame { st := .up } 0 0 0 tag readSb data = none := by
  cases openFrame { st := .up } 0 0 0 tag readSb data <;> simp
theorem witness_SealedChannels :
    (let s := waits (.linkRekey 11 15) (chan15 { st := .hold, rxEpoch := 0xFFFFFFFF, rxLast := some 6 }); (15 : Nat) ∈ chanList s 11 ∧ (s.gport 11).st = .up
      ∧ (s.chanOf 11 15).st = .hold ∧ (0xFFFFFFFF : Word).toNat = (s.chanOf 11 15).rxEpoch ∧ (s.chanOf 11 15).rxNext ≠ some 0xFFFFFFFF
      ∧ (∀ l ∈ (s.chanOf 11 15).rxLast, l < (7 : BitVec 64).toNat) ∧ (s.box 0).await = some (.linkRekey 11 15))
    ∧ (let s := chan15 { st := .up, next := some 1, txEpoch := 0xFFFFFFFE }; (s.chanOf 11 15).next = some (1 : Word).toNat ∧ (s.chanOf 11 15).st = .up
        ∧ (s.chanOf 11 15).pend = false ∧ (s.chanOf 11 15).handshake = false ∧ (s.chanOf 11 15).txEpoch < 0xFFFFFFFF)
    ∧ (let s := chan15 { st := .hold, pend := true }; (s.chanOf 11 15).pend = true ∧ (s.chanOf 11 15).handshake = false ∧ (s.chanOf 11 15).st = .hold)
    ∧ ((0 : Nat) ∈ chanList (sealedPort { st := .up }) 0 ∧ ((sealedPort { st := .up }).gport 0).st = .up
        ∧ ((sealedPort { st := .up }).chanOf 0 0).st = .up ∧ ((sealedPort { st := .up }).chanOf 0 0).rxNext ≠ some (0 : Word).toNat
        ∧ (0 : Word).toNat = ((sealedPort { st := .up }).chanOf 0 0).rxEpoch ∧ ((sealedPort { st := .up }).chanOf 0 0).rxLast = none
        ∧ ((sealedPort { st := .up }).chanOf 0 0).held = [])
    ∧ (let x : SChan := { st := .up, rxEpoch := 3, rxLast := some 7 }; let s := sealedPort x
       (s.chanOf 0 0).rxNext ≠ some (3 : Word).toNat ∧ ∃ l, (s.chanOf 0 0).rxLast = some l ∧ (7 : BitVec 64).toNat ≤ l)
    ∧ Enters (sealedPort { st := .up }) 0 readSb [] := by
  unfold Enters
  and_intros <;> decide +kernel

theorem witness_LinkCommands :
    (let s := grant powered; s.mainDown = false ∧ s.released = true ∧ s.aon.grantHost.isSome = true ∧ Path.host ≠ .oob)
    ∧ (let s := at0 0x0701 [11]; Runs s 0 0x0701 ∧ mbxPart s 0 = 0 ∧ (s.box 0).exp = false ∧ (s.box 0).arg 0 = 11 ∧ portTraining s 11 = false)
    ∧ (∀ st ∈ [PortSt.down, .authFail, .faulted, .offline], let p : GPort := { st := st }
        let s := at0 0x0702 [11] [] (gust 11 p); let t := at0 0x0704 [11] [] (gust 11 p)
        Runs s 0 0x0702 ∧ (s.gport 11).st = st ∧ Runs t 0 0x0704 ∧ t.net.stage = 0)
    ∧ (let s := at0 0x8702 [11, 4] [] (gust 11 { st := .up }); Runs s 0 0x0702 ∧ (s.box 0).exp = true ∧ (s.box 0).arg 1 ≤ 4 ∧ (s.gport 11).st = .up
        ∧ s.net.stage = 0)
    ∧ (let s := at0 0x0704 [11] [] (gust 11 { st := .up }); Runs s 0 0x0704 ∧ (s.gport 11).st = .up)
    ∧ (let s := at0 0x0705 [1]; Runs s 0 0x0705 ∧ (s.box 0).exp = false ∧ (s.box 0).arg 0 < 2)
    ∧ (let s := at0 0x0703 [11, 15] [] (chan15 { st := .up, txEpoch := 0xFFFFFFFE }); Runs s 0 0x0703 ∧ mayRekey s 0 (s.box 0) = true
        ∧ channelNamed s 11 15 = true ∧ (s.gport 11).st = .up ∧ (s.chanOf 11 15).txEpoch < 0xFFFFFFFF) := by
  and_intros <;> decide +kernel

/-! ## Well-formed commands, words, steps -/

/-- For each check of Instr.wellFormed: a command at its boundary that passes, and one just past it that is refused. -/
theorem test_well_formed :
    ([.registerWrite .bar4 0x0FFFFC 0 true, .registerWrite .bar0 0xFFFFFE 0 false, .reservedAccess .bar4 0x0FFFFF true, .offlineAccess .bar4 0x0FFFFF false,
      .privateTransfer ⟨.i3c 0x30, 4⟩ none, .bar2Access 0 (.read 4096), .bar2Access 0 (.write (List.replicate 512 0)), .powerGood 8 1, .powerGood 5 0, .pgDeadline 7 2,
      .trayHeader (List.replicate 64 0), .galeInject 0 0 0 (List.replicate 32 0), .reductionGroupDefine 0 0 [(127, 2)],
      .getCap 3 [], .getCap 3 (List.replicate 64 0), .hbmWrite 0 0 false 0x3F [1] [], .sliceAccess 0 .gale 0 2 (some [1, 2]) 0 0 [],
      .probationEnd 0x0D 0 true 0, .sectionHeader (List.replicate 128 0), .handoffPageRequest 7 0 0 0 1 true] : List Instr).all Instr.wellFormed = true
    ∧ ([.registerWrite .bar4 0x0FFFFE 0 true, .registerWrite .bar4 0x100000 0 false, .reservedAccess .bar4 0x100000 true, .offlineAccess .bar4 0x100000 false,
      .privateTransfer ⟨.i3c 0x30, 6⟩ none, .bar2Access 0 (.read 4097), .bar2Access 0 (.write (List.replicate 513 0)), .powerGood 8 2, .powerGood 5 1, .pgDeadline 2 2,
      .trayHeader (List.replicate 63 0), .galeInject 0 0 0 [1], .reductionGroupDefine 0 0 [(128, 2)],
      .getCap 3 [1], .hbmWrite 0 0 false 0x3F [1, 2] [], .hbmWrite 0 0 false 0 [] [], .sliceAccess 0 .gale 0 2 (some [1]) 0 0 [],
      .probationEnd 0x03 0 true 0, .sectionHeader (List.replicate 127 0), .handoffPageRequest 7 0 0 0 0 true] : List Instr).any Instr.wellFormed = false := by
  constructor <;> decide +kernel
/-- The longest packet is 4,096 bytes, and the longest contribution. -/
theorem test_well_formed_long : (Instr.galeInject 0 0 0 (List.replicate 4096 0)).wellFormed = true
    ∧ (Instr.galeInject 0 0 0 (List.replicate 4128 0)).wellFormed = false
    ∧ (Instr.reduceContribution 0 0 0 0 0 (List.replicate 4096 0) true true).wellFormed = true
    ∧ (Instr.reduceContribution 0 0 0 0 0 (List.replicate 4097 0) true true).wellFormed = false := by
  simp only [Instr.wellFormed, List.length_replicate]
  decide +kernel
/-- No row of the table gives bits: no word spells a command. -/
theorem test_no_word (n w : Nat) : Sys2Proof.decodeTableWord n w = none ∧ s0.withFetchWord n w = s0 := ⟨rfl, rfl⟩
/-- One ACLK cycle after reset is 40 ns. -/
theorem test_idle_step : (step s0 = .next { s0 with aon := { s0.aon with timeNs := 40 } }) := by rfl
/-- The front command runs, and the rest waits. -/
theorem test_front_command : step { s0 with pending := [.pwrOkFall, .aonTimeLoRead] } = exec .pwrOkFall { s0 with pending := [.aonTimeLoRead] } := rfl

theorem witness_StepRunsTheFrontCommand : s0.pending = [] ∧ s0.pins.pwrOk = true
    ∧ (s0.net.breeze = [] ∧ s0.net.endpoints = [] ∧ s0.net.gustWait = [] ∧ s0.mem.bankWait = [] ∧ s0.mem.bankUsed = [] ∧ s0.mem.backs = []
      ∧ ∀ e ∈ s0.bond.ports, e.2.fifo = [] ∧ e.2.breeze = []) := by decide +kernel
theorem witness_TimeSnapshot : (let s := { s0 with aon := { s0.aon with timeNs := 0xFFFFFFFF00000001 } }; s.released = true) := by decide +kernel
/-- Memory that lists bytes, a ring with an uncommitted record, a fuse run to the last place of its counter: every step of it has a next state. -/
theorem witness_InvariantsOfEveryStep :
    (let s := uncommitted (mapped [] { s0 with prot := { s0.prot with run := some { counter := 7, target := 256 } } })
     s.mem.wf ∧ s.log.wf ∧ s.prot.fusesOk ∧ s.pending = []) := by
  and_intros <;> decide +kernel

end Sys2Proof.Tests
end

section
/-!
PROOF. The statements about steps, accesses to the address map and refused tickets (spec/00_scope.md R6 to R14), each from lemmas that say
once what an operation does on the path the statement takes.
-/
namespace Sys2Proof.Scope

open Sys2Proof.Machine Sys2Proof.Laws

/-! ## Refused tickets (R179, R180) -/

/-- A security record changes neither the protection state nor the mailboxes. -/
@[simp] theorem logSec_prot (code ut inst : Nat) (d : List Nat) (s : State) : (logSec code ut inst d s).prot = s.prot :=
  (logSec_only code ut inst d (List.Subset.refl _) Only.refl).keeps .prot (by decide)

@[simp] theorem logSec_box (code ut inst : Nat) (d : List Nat) (s : State) (k : Nat) : (logSec code ut inst d s).box k = s.box k := by
  have hmbx : (logSec code ut inst d s).mbx = s.mbx :=
    (logSec_only code ut inst d (List.Subset.refl _) Only.refl).keeps .mbx (by decide)
  simp only [State.box, hmbx]

@[simp] theorem consume_prot (id : Nat) (s : State) :
    (consume id s).prot = { s.prot with challenges := s.prot.challenges.filter fun c => c.id ≠ id } := rfl

@[simp] theorem consume_box (id : Nat) (s : State) (k : Nat) : (consume id s).box k = s.box k := rfl

/-- Only a failed signature costs a challenge. -/
theorem ticketRefused_prot (b : List Byte) (d : Nat) (s : State) :
    (ticketRefused b d s).prot = { s.prot with challenges :=
      if d = 0x0208 then s.prot.challenges.filter fun c => c.id ≠ tkChal b else s.prot.challenges } := by
  unfold ticketRefused
  split
  case h_1 => simp
  case h_2 => simp
  case h_3 hsig _ => rw [if_neg hsig]

@[simp] theorem ticketRefused_box (b : List Byte) (d : Nat) (s : State) (k : Nat) : (ticketRefused b d s).box k = s.box k := by
  unfold ticketRefused
  split <;> simp

@[simp] theorem replyFail_prot (n st d : Nat) (s : State) : (replyFail n st d s).prot = s.prot := rfl

theorem replyFail_box (n st d k : Nat) (s : State) : (replyFail n st d s).box k =
    if k = n then { s.box n with outbox := (s.box n).outbox ++ [{ status := st, detail := d }] } else s.box k := by
  simp [replyFail, reply]

/-- What a ticket with a failing check does: its answer, and what the refusal leaves behind. -/
theorem ticket_of_refused {k n st d : Nat} {s : State} (apply : List Byte → State → State) (hjob : (s.box n).job = some 0x0202)
    (hset : tkSetting (s.box n).input = k) (hst : ticketStatus s n (s.box n) = some (st, d)) :
    ticket k n apply s =
      replyFail n st d (ticketRefused (s.box n).input d (setBox n { s.box n with job := none } s)) := by
  simp only [ticket, hjob, hset, hst, and_self, if_true]

/-- The groups that a refusal may write: the mailbox of the answer, the challenges, and the record with its interrupt. -/
theorem refusal_only (n st d : Nat) (b : List Byte) (m : Mbx) (s : State) :
    Only [.prot, .mbx, .log, .link, .out] s (replyFail n st d (ticketRefused b d (setBox n m s))) :=
  replyFail_only _ _ _ (by decide) (ticketRefused_only _ _ (by decide) (setBox_only _ _ (by decide) Only.refl))

/-- The command of each setting of Table TP-3. -/
def ticketCommands (n : Fin 16) : List (Nat × Instr) :=
  [(1, .ticketPartition n), (2, .ticketVaultPolicy n), (3, .ticketSealedPolicy n), (4, .ticketDebugUnlock n), (5, .ticketExpertGrant n),
    (6, .ticketRollback n), (7, .ticketExclusion n), (8, .ticketCustodyKeys n), (9, .ticketRevoke n)]

/-- Each of them is a ticket of its setting, which differs from the others in what it applies alone. -/
theorem exec_ticketCommands (n : Fin 16) :
    ∀ c ∈ ticketCommands n, ∃ apply, ∀ s, exec c.2 s = .next (ticket c.1 n.val apply s) := by
  simp only [ticketCommands, List.forall_mem_cons]
  exact ⟨⟨applyPartition, fun _ => rfl⟩, ⟨applyVaultPolicy, fun _ => rfl⟩, ⟨applySealedPolicy, fun _ => rfl⟩,
    ⟨applyDebugUnlock, fun _ => rfl⟩, ⟨applyExpertGrant, fun _ => rfl⟩, ⟨applyRollback, fun _ => rfl⟩, ⟨applyExclusion, fun _ => rfl⟩,
    ⟨applyCustodyKeys, fun _ => rfl⟩, ⟨applyRevoke, fun _ => rfl⟩, by simp⟩

/-- Settles O19: every ticket command with a failing check is the one refusal, whose parts are read off one by one. -/
theorem refusedTicketsChangeNothing : Obligations.RefusedTicketsChangeNothing := by
  intro n s st d hjob hst c hc hset
  obtain ⟨apply, hexec⟩ := exec_ticketCommands n c hc
  refine ⟨_, hexec s, ?_⟩
  rw [ticket_of_refused apply hjob hset hst]
  refine ⟨?answer, ?others, ?prot, (refusal_only ..).keeps⟩
  case answer => simp [replyFail_box]
  case others =>
    intro k hk
    simp [replyFail_box, hk]
  case prot => simp [ticketRefused_prot]

/-! ## Accesses to the address map (R6, R10, R12) -/

/-- A condition of a path: an access out of band lies in the range that it reaches (R143, R145). -/
theorem inReach_of {bus : RegBus} {off : BitVec 24} (h : bus = .oob → oobReach off = true) : (bus != .oob || oobReach off) = true := by
  cases bus <;> simp_all

/-- Where a write reaches Daxmet it meets the address map. -/
theorem exec_registerWrite {bus : RegBus} {off : BitVec 24} {s : State} (val : Word) (full : Bool) (hup : busUp s bus = true)
    (hreach : bus = .oob → oobReach off = true) :
    exec (.registerWrite bus off val full) s = .next (busWrite bus off val full s) :=
  congrArg Host.Outcome.next (if_pos (by rw [hup, inReach_of hreach]; rfl))

theorem exec_offlineAccess {bus : RegBus} {off : BitVec 24} {s : State} (write : Bool) (hup : busUp s bus = true)
    (hreach : bus = .oob → oobReach off = true) (hdown : busDown s bus off = true) :
    exec (.offlineAccess bus off write) s =
      .next (if write then noteOffline s else readBack 0xFFFFFFFF (noteOffline s)) :=
  congrArg Host.Outcome.next (if_pos (by rw [hup, inReach_of hreach, hdown]; rfl))

theorem exec_reservedAccess {bus : RegBus} {off : BitVec 24} {s : State} (write : Bool) (hup : busUp s bus = true)
    (hreach : bus = .oob → oobReach off = true) (hdown : busDown s bus off = false) (hreg : regAt bus off = none) :
    exec (.reservedAccess bus off write) s = .next (if write then noteReserved s else readBack 0 (noteReserved s)) :=
  congrArg Host.Outcome.next (if_pos (by rw [hup, inReach_of hreach, hdown, hreg]; rfl))

theorem busWrite_of_down {bus : RegBus} {off : BitVec 24} {s : State} (val : Word) (full : Bool) (h : busDown s bus off = true) :
    busWrite bus off val full s = noteOffline s := if_pos h

theorem busWrite_of_reserved {bus : RegBus} {off : BitVec 24} {s : State} (val : Word) (full : Bool) (h : busDown s bus off = false)
    (hreg : regAt bus off = none) : busWrite bus off val full s = noteReserved s := by
  simp [busWrite, h, hreg]

theorem busWrite_of_reg {bus : RegBus} {off : BitVec 24} {r : RegName} {s : State} (val : Word) (full : Bool)
    (h : busDown s bus off = false) (hreg : regAt bus off = some r) :
    busWrite bus off val full s = if full then writeReg (busPath bus) r val s else s := by
  simp [busWrite, h, hreg]

/-- A read of any register but AON_TIME_LO changes nothing but the word read. -/
theorem busRead_of_reg {bus : RegBus} {off : BitVec 24} {r : RegName} {s : State} (h : busDown s bus off = false)
    (hreg : regAt bus off = some r) (hr : r ≠ .aonTimeLo) : busRead bus off s = readBack (readReg s r) s := by
  simp only [busRead, h, hreg, Bool.false_eq_true, if_false]

theorem busUp_bar0 {s : State} (h : s.released = true) : busUp s .bar0 = true := by simp [busUp, h]

/-- Settles O22: both commands reach the block of R12, which is down. -/
theorem offlineBlocks : Obligations.OfflineBlocks := by
  intro off val full s hrel hdown
  have hup := busUp_bar0 hrel
  have hbus : busDown s .bar0 off = true := hdown
  refine ⟨exec_offlineAccess false hup nofun hbus, exec_offlineAccess true hup nofun hbus, ?_⟩
  rw [exec_registerWrite val full hup nofun, busWrite_of_down val full hbus]
  rfl

/-- No register stands in a reserved region of Table SC-5. -/
theorem regAt_of_reserved {off : BitVec 24} (h : blockOf (wordOf off) = .reserved) : regAt .bar0 off = none := by
  simp only [regAt, bar0Reg, h]

/-- Settles O23: both commands meet an address without a register. -/
theorem reservedAddresses : Obligations.ReservedAddresses := by
  refine ⟨fun off val full s hrel hblock hreg => ?_, fun off h => regAt_of_reserved h⟩
  have hup := busUp_bar0 hrel
  have hbus : busDown s .bar0 off = false := hblock
  refine ⟨exec_reservedAccess false hup nofun hbus hreg, exec_reservedAccess true hup nofun hbus hreg, ?_⟩
  rw [exec_registerWrite val full hup nofun, busWrite_of_reserved val full hbus hreg]
  rfl

/-! ## What a write of a register does (R6, R7, R156) -/

/-- Registers all of whose fields are read-only (Table SC-3). -/
def readOnlyRegs : List RegName :=
  [.aonId, .aonIfver, .aonBoard, .aonClkstat, .aonRstcause, .aonStart, .aonGrant, .aonTimeLo, .aonTimeHi, .aonMbxsum, .dblAcksum,
    .pmxParkmap, .thsMax, .thsLevel, .thsWarnLo, .thsWarnHi, .thsFaultLo, .thsFaultHi, .thsHaltcnt, .glkHostLate, .glkBar2Deny,
    .evlNewest, .evlCommitted]

theorem writeReg_readOnly (p : Path) (val : Word) (s : State) : ∀ r ∈ readOnlyRegs, writeReg p r val s = s := by
  simp [readOnlyRegs, writeReg]

/-- The bits of the interrupt registers by bus (log 39). -/
theorem irqBits_busPath (bus : RegBus) : irqBits (busPath bus) = if bus = .oob then 0xC000 else 0xFFFF := by
  cases bus <;> rfl

/-- R156: a CMD word of a mailbox whose areas take writes. -/
theorem writeReg_mbxCmd {p : Path} {i : Fin 16} {s : State} (w : Nat) (val : Word) (hpath : pathReach p i.val = true)
    (hopen : boxOpen (s.box i.val) = true) :
    writeReg p (.mbxCmd i w) val s = setBox i.val { s.box i.val with cmd := Tab.put 0 (s.box i.val).cmd w val } s := by
  simp [writeReg, writeBox, hpath, hopen]

theorem readReg_mbxCmd_setBox (i j : Fin 16) (w v : Nat) (val : Word) (s : State) :
    readReg (setBox i.val { s.box i.val with cmd := Tab.put 0 (s.box i.val).cmd w val } s) (.mbxCmd j v) =
      if (j, v) = (i, w) then val else readReg s (.mbxCmd j v) := by
  by_cases hj : j = i
  · subst hj
    simp [readReg, Tab.get_put]
  · have hval : j.val ≠ i.val := fun h => hj (Fin.ext h)
    simp [readReg, hj, hval]

theorem expWrite_denied {s : State} (t : State) (h : s.aon.grantHost = none) : expWrite s t = noteDeny s := by
  simp [expWrite, h]

theorem expWrite_granted {s : State} (t : State) (h : s.aon.grantHost.isSome = true) : expWrite s t = t := if_pos h

/-- R7: the exp registers of ECCW_ and THS_ refuse a write without the grant. -/
theorem writeReg_denied {p : Path} {r : RegName} {s : State} (val : Word) (h : s.aon.grantHost = none)
    (hr : r ∈ [.eccwAddrLo, .eccwAddrHi, .thsMaskLo, .thsMaskHi] ∨ ∃ i, r = .eccwFlip i) : writeReg p r val s = noteDeny s := by
  rcases hr with hr | ⟨i, rfl⟩
  · simp only [List.mem_cons, List.not_mem_nil, or_false] at hr
    rcases hr with rfl | rfl | rfl | rfl <;> exact expWrite_denied _ h
  · exact expWrite_denied _ h

theorem mapHalf_setMask_lo (val : Word) (m : BitVec 48) : mapHalf (setMask false val m) false = val := by
  apply BitVec.eq_of_toNat_eq
  have hval := val.isLt
  simp only [mapHalf, setMask, Bool.false_eq_true, if_false, BitVec.toNat_ofNat]
  omega

theorem mapHalf_setMask_hi (val : Word) (m : BitVec 48) : mapHalf (setMask false val m) true = mapHalf m true := by
  apply BitVec.eq_of_toNat_eq
  have hval := val.isLt
  have hm := m.isLt
  simp only [mapHalf, setMask, Bool.false_eq_true, if_false, if_true, BitVec.toNat_ofNat]
  omega

/-! ## Private transfers (R48, R145) -/

theorem exec_privateTransfer_write {tgt : OobTarget} {off : BitVec 24} {s : State} (val : Word) (hup : busUp s .oob = true)
    (htgt : targetAnswers s tgt = true) (hreach : oobReach off = true) :
    exec (.privateTransfer ⟨tgt, off⟩ (some val)) s = .next (busWrite .oob off val true s) :=
  congrArg Host.Outcome.next (if_pos (by simp [hup, htgt, hreach]))

theorem exec_privateTransfer_read {tgt : OobTarget} {off : BitVec 24} {s : State} (hup : busUp s .oob = true)
    (htgt : targetAnswers s tgt = true) (hreach : oobReach off = true) :
    exec (.privateTransfer ⟨tgt, off⟩ none) s = .next (busRead .oob off s) :=
  congrArg Host.Outcome.next (if_pos (by simp [hup, htgt, hreach]))

theorem exec_privateTransfer_unanswered {tgt : OobTarget} {s : State} (off : BitVec 24) (write : Option Word)
    (htgt : targetAnswers s tgt = false) : exec (.privateTransfer ⟨tgt, off⟩ write) s = .next s :=
  congrArg Host.Outcome.next (if_neg (by simp [htgt]))

/-- Before a dynamic address is assigned the I3C target answers at the address of its slot. -/
theorem targetAnswers_static {s : State} (a : BitVec 7) (hext : s.pins.extest = false) (hdyn : s.pins.i3cDyn = none) :
    targetAnswers s (.i3c a) = decide (a.toNat = 0x30 + s.aon.slot.val) := by
  simp [targetAnswers, hext, hdyn]

/-- Settles O24: a full write acts as `writeReg` does, and each clause is one of its cases. -/
theorem registerWritesTakeEffect : Obligations.RegisterWritesTakeEffect := by
  intro bus off r val s hup hreach hdown hreg
  have hwrite : exec (.registerWrite bus off val true) s = .next (writeReg (busPath bus) r val s) := by
    rw [exec_registerWrite val true hup hreach, busWrite_of_reg val true hdown hreg, if_pos rfl]
  refine ⟨?narrow, ?readOnly, ?status, ?irq, ?cmd, ?denied, ?mask, ?transfer⟩
  case narrow =>
    rw [exec_registerWrite val false hup hreach, busWrite_of_reg val false hdown hreg]
    rfl
  case readOnly =>
    intro hr
    rw [hwrite, writeReg_readOnly _ val s r hr]
  case status =>
    rintro rfl
    exact hwrite
  case irq =>
    rintro rfl
    rw [hwrite, ← irqBits_busPath]
    rfl
  case cmd =>
    rintro i w rfl hpath hopen
    rw [writeReg_mbxCmd w val hpath hopen] at hwrite
    refine ⟨_, hwrite, ?_, fun j v hne => ?_, (setBox_only _ _ (List.Subset.refl _) Only.refl).keeps⟩
    · rw [readReg_mbxCmd_setBox, if_pos rfl]
    · rw [readReg_mbxCmd_setBox, if_neg hne]
  case denied =>
    intro hgrant hr
    rw [hwrite, writeReg_denied val hgrant hr]
    rfl
  case mask =>
    rintro hgrant rfl
    refine ⟨_, hwrite.trans (congrArg Host.Outcome.next (expWrite_granted _ hgrant)), mapHalf_setMask_lo val s.therm.mask,
      mapHalf_setMask_hi val s.therm.mask, (Only.atTherm (by decide) Only.refl).keeps⟩
  case transfer =>
    rintro rfl tgt
    refine ⟨fun htgt => ⟨?_, fun hr => ?_⟩, fun htgt w => exec_privateTransfer_unanswered off w htgt, ?_⟩
    · rw [exec_privateTransfer_write val hup htgt (hreach rfl), exec_registerWrite val true hup hreach]
    · rw [exec_privateTransfer_read hup htgt (hreach rfl), busRead_of_reg hdown hreg hr]
      rfl
    · rintro a rfl hext hdyn
      exact targetAnswers_static a hext hdyn

/-! ## Steps (R9) -/

theorem step_of_empty_queue {s : State} (h : s.pending = []) : step s = .next (idle s) := by
  simp only [step, h]

/-- Time passes in the always-on registers alone. -/
theorem tick_keeps (s : State) : KeepsBut [.aon] s (tick s) := (tick_only (List.Subset.refl _) Only.refl).keeps

theorem tick_timeNs (s : State) : (tick s).aon.timeNs = if s.pins.pwrOk then s.aon.timeNs + 40 else s.aon.timeNs := by
  cases hp : s.pins.pwrOk <;> simp [tick, hp]

theorem tick_aon (s : State) : (tick s).aon = { s.aon with timeNs := (tick s).aon.timeNs, fwHb := (tick s).aon.fwHb } := by
  cases hp : s.pins.pwrOk <;> simp [tick, hp]

/-- What moves in a cycle after time has passed leaves the always-on registers as they are. -/
theorem idle_aon (s : State) : (idle s).aon = (tick s).aon := by
  have hmove : Only [.store, .mbx, .log, .vane, .net, .coll, .bond, .mem, .link, .out, .freeCtr, .bytes] (tick s) (idle s) :=
    drainFifos_only _ (by decide) (drainBreezes_only _ (by decide)
      (bankCycle_only (by decide) (drainGusts_only (by decide) (breezeCycle_only (by decide) Only.refl))))
  exact hmove.keeps .aon (by decide)

theorem breezeCycle_of_empty {s : State} (hb : s.net.breeze = []) (he : s.net.endpoints = []) : breezeCycle s = s := by
  simp [breezeCycle, hb, he]

theorem drainGusts_of_empty {s : State} (h : s.net.gustWait = []) : drainGusts s = s := by
  simp only [drainGusts, h, drainGust]
  rw [← h]

theorem bankCycle_of_empty {s : State} (hw : s.mem.bankWait = []) (hu : s.mem.bankUsed = []) (hb : s.mem.backs = []) :
    bankCycle s = s := by
  have hclear : { s with mem := { s.mem with bankUsed := [], bankWait := [] } } = s := by rw [← hu, ← hw]
  simp only [bankCycle, hw, waitOrder, List.foldl_nil, serveWaits]
  rw [hclear, hb]
  rfl

/-- Nothing waits in the networks, at the Gust ports, at the slice banks and at the bond ports. -/
structure NothingWaits (s : State) : Prop where
  breeze : s.net.breeze = []
  endpoints : s.net.endpoints = []
  gust : s.net.gustWait = []
  bankWait : s.mem.bankWait = []
  bankUsed : s.mem.bankUsed = []
  backs : s.mem.backs = []
  ports : ∀ e ∈ s.bond.ports, e.2.fifo = [] ∧ e.2.breeze = []

theorem NothingWaits.tick {s : State} (h : NothingWaits s) : NothingWaits (tick s) := by
  have hnet : (Machine.tick s).net = s.net := tick_keeps s .net (by decide)
  have hmem : (Machine.tick s).mem = s.mem := tick_keeps s .mem (by decide)
  have hbond : (Machine.tick s).bond = s.bond := tick_keeps s .bond (by decide)
  constructor <;> simp only [hnet, hmem, hbond]
  exacts [h.breeze, h.endpoints, h.gust, h.bankWait, h.bankUsed, h.backs, h.ports]

theorem idle_of_nothingWaits {s : State} (h : NothingWaits s) : idle s = tick s := by
  have ht := h.tick
  have hfifo : ((tick s).bond.ports.filter fun e => !e.2.fifo.isEmpty) = [] := by
    simpa using fun a b hab => (ht.ports (a, b) hab).1
  have hbreeze : ((tick s).bond.ports.filter fun e => !e.2.breeze.isEmpty) = [] := by
    simpa using fun a b hab => (ht.ports (a, b) hab).2
  simp only [idle, breezeCycle_of_empty ht.breeze ht.endpoints, drainGusts_of_empty ht.gust,
    bankCycle_of_empty ht.bankWait ht.bankUsed ht.backs, hfifo, hbreeze, List.map_nil, drainBreezes, drainFifos]

/-- Settles O1: the front command by the definition of a step; the cycle without one from its frame and from what passing time does. -/
theorem stepRunsTheFrontCommand : Obligations.StepRunsTheFrontCommand := by
  refine ⟨fun c rest s => rfl, fun s hq => ⟨idle s, step_of_empty_queue hq, ?queue, ?frame, ?quiet, ?time, ?aon⟩⟩
  case queue =>
    have hsame : (idle s).pending = s.pending := (idle_only (List.Subset.refl _) Only.refl).keeps .pending (by decide)
    rw [hsame, hq]
  case frame => exact (idle_only (List.Subset.refl _) Only.refl).keeps
  case quiet =>
    intro hb he hg hw hu hc hp
    rw [idle_of_nothingWaits ⟨hb, he, hg, hw, hu, hc, hp⟩]
    exact tick_keeps s
  case time => rw [idle_aon, tick_timeNs]
  case aon => rw [idle_aon, ← tick_aon]

end Sys2Proof.Scope
end

section
/-!
PROOF. The statements about the tray-facing and management pins (spec/02_board_and_pins.md), each from lemmas that say once what a write of
a pin, the end of a park window and a pin command do on the path the statement takes.
-/
namespace Sys2Proof.PinCerts

open Sys2Proof.Machine Sys2Proof.Laws

/-! ## A pin of the multiplexer reads back as it was written -/

theorem pin_setPin_same (n : Fin 24) (p : PmxPin) (s : State) : (setPin n p s).pmx.pins[n] = p :=
  Vector.getElem_set_self n.isLt

theorem pin_setPin_ne {n q : Fin 24} (h : q ≠ n) (p : PmxPin) (s : State) : (setPin n p s).pmx.pins[q] = s.pmx.pins[q] :=
  Vector.getElem_set_ne n.isLt q.isLt fun e => h (Fin.ext e.symm)

@[simp] theorem setPin_box (n : Fin 24) (p : PmxPin) (s : State) (k : Nat) : (setPin n p s).box k = s.box k := rfl

@[simp] theorem freed_pmx (s : State) (n : Fin 16) : (s.freed n).pmx = s.pmx := rfl

theorem replyDone_outbox (n : Nat) (res : List Nat) (data : List Byte) (s : State) :
    ((replyDone n res data s).box n).outbox = (s.box n).outbox ++ [{ status := 0x00, res := res, data := data }] := by
  simp [replyDone, box_reply]

theorem setAwait_await (n : Nat) (a : Await) (s : State) : ((setAwait n a s).box n).await = some a := by
  simp [setAwait]

/-- A response has no bearing on the level of a pad. -/
theorem padLevel_replyDone (n : Nat) (res : List Nat) (data : List Byte) (s : State) (q : Fin 24) :
    padLevel (replyDone n res data s) q = padLevel s q := rfl

/-! ## An accepted selection (R58) -/

/-- What an accepted selection leaves of the pins: the fields written, CUR as it was, a window exactly when FUNC now differs from CUR or
one was open, and every other pin. -/
structure Selects (n : Fin 24) (f : Fin 4) (oe out : Bool) (s t : State) : Prop where
  func : t.pmx.pins[n].func = f
  oe : t.pmx.pins[n].oe = oe
  out : t.pmx.pins[n].out = out
  cur : t.pmx.pins[n].cur = s.pmx.pins[n].cur
  park : t.pmx.pins[n].park = (s.pmx.pins[n].park || decide (f ≠ s.pmx.pins[n].cur))
  others : ∀ q : Fin 24, q ≠ n → t.pmx.pins[q] = s.pmx.pins[q]

/-- Any pin with these fields in place of the old one will do. -/
theorem Selects.of_pmx {n : Fin 24} {f : Fin 4} {oe out : Bool} {s t : State} {p : PmxPin} (h : t.pmx = (setPin n p s).pmx)
    (hfunc : p.func = f) (hoe : p.oe = oe) (hout : p.out = out) (hcur : p.cur = s.pmx.pins[n].cur)
    (hpark : p.park = (s.pmx.pins[n].park || decide (f ≠ s.pmx.pins[n].cur))) : Selects n f oe out s t := by
  constructor <;> simp only [h, pin_setPin_same]
  case others => exact fun q hq => pin_setPin_ne hq p s
  all_goals assumption

theorem selectPin_selects (n : Fin 24) (f : Fin 4) (oe out : Bool) (s : State) : Selects n f oe out s (selectPin n f oe out s) := by
  unfold selectPin
  dsimp only
  split
  case isTrue hsame => exact .of_pmx rfl rfl rfl rfl rfl (by simp [hsame])
  case isFalse hnew =>
    split
    case h_1 => exact .of_pmx rfl rfl rfl rfl rfl (by rw [decide_eq_true hnew, Bool.or_true])
    case h_2 => exact .of_pmx (send_pmx _ _) rfl rfl rfl rfl (by rw [decide_eq_true hnew, Bool.or_true])

theorem selectPin_box (n : Fin 24) (f : Fin 4) (oe out : Bool) (s : State) (k : Nat) : (selectPin n f oe out s).box k = s.box k := by
  have hmbx : (selectPin n f oe out s).mbx = s.mbx :=
    (selectPin_only n f oe out (List.Subset.refl _) Only.refl).keeps .mbx (by decide)
  simp only [State.box, hmbx]

/-! ## A write of PMX_PINn (R57, R60) -/

section Write

variable {pin : Fin 24} {val : Word} {f : Fin 4} {s : State}

theorem write_not_refused (hpark : s.pmx.pins[pin].park = false) (hwrote : s.pmx.pins[pin].wroteAt ≠ some s.now) :
    ¬(s.pmx.pins[pin].park = true ∨ s.pmx.pins[pin].wroteAt = some s.now) := by
  rw [hpark]
  exact not_or_intro Bool.false_ne_true hwrote

/-- With the grant, a write meets the three refusals in their order (log 141). -/
theorem exec_pmxPinWrite (hf : f.val = fld val 0 2) (hrel : s.released = true) (hgrant : s.aon.grantHost.isSome = true) :
    exec (.pmxPinWrite pin val) s = .next
      (if s.pmx.pins[pin].park = true ∨ s.pmx.pins[pin].wroteAt = some s.now then
        { s with pmx := { s.pmx with refused := true, lastPin := pin } }
      else if badFunc s pin f then { s with pmx := { s.pmx with badFunc := true, lastPin := pin } }
      else if sigConflict s pin f then { s with pmx := { s.pmx with conflict := true, lastPin := pin } }
      else selectPin pin f (bit val 12) (bit val 13) s) := by
  have hcode : (⟨fld val 0 2, Nat.mod_lt _ (by decide)⟩ : Fin 4) = f := Fin.ext hf.symm
  have hnone : s.aon.grantHost.isNone = false := by simpa using hgrant
  have hwrite : exec (.pmxPinWrite pin val) s = .next (writePmxPin pin val s) := rfl
  rw [hwrite, writePmxPin]
  simp only [hcode, hrel, hnone, Bool.not_true, Bool.false_eq_true, if_false, Bool.or_eq_true, decide_eq_true_eq]

/-- A write that none of them refuses selects. -/
theorem exec_pmxPinWrite_of_accepted (hf : f.val = fld val 0 2) (hrel : s.released = true) (hgrant : s.aon.grantHost.isSome = true)
    (hpark : s.pmx.pins[pin].park = false) (hwrote : s.pmx.pins[pin].wroteAt ≠ some s.now) (hbad : badFunc s pin f = false)
    (hconf : sigConflict s pin f = false) :
    exec (.pmxPinWrite pin val) s = .next (selectPin pin f (bit val 12) (bit val 13) s) := by
  rw [exec_pmxPinWrite hf hrel hgrant, if_neg (write_not_refused hpark hwrote), if_neg (by simp [hbad]), if_neg (by simp [hconf])]

end Write

/-- Settles O6: the three refusals are the first three cases of a granted write. -/
theorem pinWriteRefusals : Obligations.PinWriteRefusals := by
  intro pin val f s hf hrel hgrant
  rw [exec_pmxPinWrite hf hrel hgrant]
  refine ⟨fun hwait => ?refused, fun hpark hwrote hbad => ?badFunc, fun hpark hwrote hbad hconf => ?conflict⟩
  case refused => rw [if_pos hwait]
  case badFunc => rw [if_neg (write_not_refused hpark hwrote), if_pos hbad]
  case conflict => rw [if_neg (write_not_refused hpark hwrote), if_neg (by simp [hbad]), if_pos hconf]

/-! ## The park window (R58, R59) -/

@[simp] theorem firstLevel_pmx (n : Fin 24) (f : Fin 4) (s : State) : (firstLevel n f s).pmx = s.pmx :=
  (firstLevel_only n f (List.Subset.refl _) Only.refl).keeps .pmx (by decide)

theorem endPark_pmx (n : Fin 24) (s : State) : (endPark n s).pmx =
    (setPin n { s.pmx.pins[n] with
      cur := s.pmx.pins[n].func, park := false, minDone := false, oldIdle := false, endAt := some s.now } s).pmx :=
  firstLevel_pmx n _ _

theorem endPark_cur (n : Fin 24) (s : State) : (endPark n s).pmx.pins[n].cur = s.pmx.pins[n].func := by
  rw [endPark_pmx, pin_setPin_same]

theorem endPark_park (n : Fin 24) (s : State) : (endPark n s).pmx.pins[n].park = false := by
  rw [endPark_pmx, pin_setPin_same]

theorem endPark_log (n : Fin 24) (s : State) : (endPark n s).log = s.log :=
  (endPark_only n (List.Subset.refl _) Only.refl).keeps .log (by decide)

/-- Half of t_end is noted in pin `n` as `p`; when it was the later half, the window ends. -/
theorem parkCheck_setPin {n : Fin 24} {p : PmxPin} {s t : State} {done : Bool} (ht : t = parkCheck n (setPin n p s))
    (hdone : (p.minDone && p.oldIdle) = done) (hfunc : p.func = s.pmx.pins[n].func) :
    if done then t.pmx.pins[n].cur = s.pmx.pins[n].func ∧ t.pmx.pins[n].park = false ∧ KeepsBut [.pmx, .mbx, .out] s t
    else t.pmx.pins[n] = p ∧ KeepsBut [.pmx] s t := by
  rw [parkCheck, pin_setPin_same, hdone] at ht
  subst ht
  cases done
  case false => exact ⟨pin_setPin_same n p s, (setPin_only n p (List.Subset.refl _) Only.refl).keeps⟩
  case true =>
    refine ⟨?_, endPark_park n _, (endPark_only n (List.Subset.refl _) (setPin_only n p (by decide) Only.refl)).keeps⟩
    exact (endPark_cur n _).trans (by rw [pin_setPin_same, hfunc])

theorem exec_parkIdle {n : Fin 24} {s : State} (h : s.pmx.pins[n].park = true) :
    exec (.parkIdle n) s = .next (parkCheck n (setPin n { s.pmx.pins[n] with oldIdle := true } s)) :=
  congrArg Host.Outcome.next (if_pos h)

theorem exec_parkMinExpiry {n : Fin 24} {s : State} (h : s.pmx.pins[n].park = true) :
    exec (.parkMinExpiry n) s = .next (parkCheck n (setPin n { s.pmx.pins[n] with minDone := true } s)) :=
  congrArg Host.Outcome.next (if_pos h)

theorem exec_parkTimeout {n : Fin 24} {s : State} (h : s.pmx.pins[n].park = true) (hidle : s.pmx.pins[n].oldIdle = false) :
    exec (.parkTimeout n) s = .next
      (endPark n (logInfo 0x0A10 0x00 0 [n.val] (send (.pin n.val "reset" s.pmx.pins[n].cur.val) s))) :=
  congrArg Host.Outcome.next (if_pos (by rw [h, hidle]; rfl))

@[simp] theorem logInfo_pmx (code ut inst : Nat) (d : List Nat) (s : State) : (logInfo code ut inst d s).pmx = s.pmx :=
  (logInfo_only code ut inst d (List.Subset.refl _) Only.refl).keeps .pmx (by decide)

@[simp] theorem sendMsix_log (v : Nat) (s : State) : (sendMsix v s).log = s.log :=
  (sendMsix_only v (List.Subset.refl _) Only.refl).keeps .log (by decide)

theorem logInfo_log (code ut inst : Nat) (d : List Nat) (s : State) : (logInfo code ut inst d s).log =
    s.log.write s.now s.aon.slot.val { cls := .info, code := code, ut := ut, inst := inst, detail := d, contain := .none } := by
  simp only [logInfo, logRec]
  split
  case isTrue => exact sendMsix_log 222 _
  case isFalse => rfl

/-- A message sent before a record leaves the record as it is. -/
theorem logInfo_send_log (code ut inst : Nat) (d : List Nat) (m : Msg) (s : State) :
    (logInfo code ut inst d (send m s)).log = (logInfo code ut inst d s).log := by
  simp only [logInfo_log]
  rfl

/-! ## The pin commands (R62, Table BP-9) -/

theorem pinArg_of {m : Mbx} {pin : Fin 24} (h : m.arg 0 = pin.val) : pinArg m = some pin := by
  simp [pinArg, h]

theorem funcArg_of {m : Mbx} {f : Fin 4} (h : m.arg 1 = f.val) : funcArg m = f :=
  Fin.ext (by simp only [funcArg, h]; omega)

/-- A command without failing conditions but BAD_ARG and BUSY passes when neither holds. -/
theorem first_of_passed {bad busy : Bool} (hbad : bad = false) (hbusy : busy = false) :
    ({ badArg := failIf bad 0, busy := failIf busy 0 } : Checks).first = none := by
  rw [hbad, hbusy]
  rfl

theorem exec_pinGet {n : Fin 16} {pin : Fin 24} {s : State} (pads : BitVec 24) (hrun : Runs s n 0x0A01)
    (harg : (s.box n.val).arg 0 = pin.val) :
    exec (.pinGet ⟨n, pads⟩) s = .next (replyDone n.val
      [(pmxPin (setPads pads s) pin).toNat, (pmxParkmap s).toNat, (aonBoard s).toNat] [] ((setPads pads s).freed n)) := by
  have hrun' : Runs (setPads pads s) n 0x0A01 := hrun
  have harg' : ((setPads pads s).box n.val).arg 0 = pin.val := harg
  have hexec : exec (.pinGet ⟨n, pads⟩) s = execPinGet ⟨n, pads⟩ s := rfl
  have hchecks : failIf (24 ≤ ((setPads pads s).box n.val).arg 0) 0 = none := failIf_false (by simp [harg'])
  rw [hexec, execPinGet, command_run hrun' (by rw [hchecks]; rfl)]
  simp only [pinArg_of harg']
  rfl

/-- The basic form on operands that Table BP-9 does not refuse. -/
theorem exec_pinSetFunction {n : Fin 16} {pin : Fin 24} {f : Fin 4} {s : State} (hrun : Runs s n 0x0A02)
    (hexp : (s.box n.val).exp = false) (hpin : (s.box n.val).arg 0 = pin.val) (hf : (s.box n.val).arg 1 = f.val)
    (hbad : badFunc s pin f = false) (hconf : sigConflict s pin f = false) (hpark : s.pmx.pins[pin].park = false) :
    exec (.pinSetFunction n) s = .next
      (let t := selectPin pin f s.pmx.pins[pin].oe s.pmx.pins[pin].out (s.freed n)
       if f = s.pmx.pins[pin].cur then replyDone n.val [] [] t else setAwait n.val (.pinSwitch pin.val) t) := by
  have hexec : exec (.pinSetFunction n) s = execPinSetFunction n s := rfl
  rw [hexec, execPinSetFunction, command_run hrun]
  · simp [pinArg_of hpin, funcArg_of hf, hexp]
  · simp only [pinArg_of hpin, funcArg_of hf]
    exact first_of_passed (by simp [hexp, hf, hbad, hconf]) hpark

theorem exec_pinGpio {n : Fin 16} {pin : Fin 24} {s : State} (pads : BitVec 24) (hrun : Runs s n 0x0A03)
    (hpin : (s.box n.val).arg 0 = pin.val) (harg : (s.box n.val).arg 1 < 4) (hcur : s.pmx.pins[pin].cur = 0)
    (hpark : s.pmx.pins[pin].park = false) :
    exec (.pinGpio ⟨n, pads⟩) s = .next
      (let t := setPin pin { s.pmx.pins[pin] with
        oe := (s.box n.val).arg 1 % 2 = 1, out := (s.box n.val).arg 1 / 2 = 1, wroteAt := some s.now } ((setPads pads s).freed n)
       replyDone n.val [b2n (padLevel t pin)] [] t) := by
  have hrun' : Runs (setPads pads s) n 0x0A03 := hrun
  have hpin' : ((setPads pads s).box n.val).arg 0 = pin.val := hpin
  have hcur' : (setPads pads s).pmx.pins[pin].cur = 0 := hcur
  have hpark' : (setPads pads s).pmx.pins[pin].park = false := hpark
  have harg' : ((setPads pads s).box n.val).arg 1 < 4 := harg
  have hexec : exec (.pinGpio ⟨n, pads⟩) s = execPinGpio ⟨n, pads⟩ s := rfl
  rw [hexec, execPinGpio, command_run hrun']
  · simp only [pinArg_of hpin']
    rfl
  · simp only [pinArg_of hpin']
    exact first_of_passed (by rw [hcur']; simpa using harg') hpark'

/-! ## The TAP (R49) -/

theorem exec_extest_unpowered {s : State} (h : s.pins.pwrOk = false) (trstN : Bool) (op : TapOp) :
    exec (.extest trstN op) s = .next s :=
  congrArg Host.Outcome.next (if_pos (by simp [h]))

theorem exec_extest_powered {s : State} (h : s.pins.pwrOk = true) (trstN : Bool) (op : TapOp) :
    exec (.extest trstN op) s = .next (if trstN then tapOp op s else { s with pins := { s.pins with extest := false } }) :=
  congrArg Host.Outcome.next (if_neg (by simp [h]))

/-- Settles O5: each clause by the lemma that says what its command does. -/
theorem pinCommandsTakeEffect : Obligations.PinCommandsTakeEffect := by
  refine ⟨?i3c, ?tap, ?write, ?idle, ?minimum, ?timeout, ?get, ?setFunction, ?gpio⟩
  case i3c =>
    intro addr s hrel hsclk
    exact congrArg Host.Outcome.next (if_pos (by rw [hrel, hsclk]; rfl))
  case tap =>
    intro b op s
    refine ⟨fun hoff trstN => exec_extest_unpowered hoff trstN op, fun hon => ?_⟩
    simp only [exec_extest_powered hon, if_true, Bool.false_eq_true, if_false, tapOp, and_self]
  case write =>
    intro pin val f s hf hrel hgrant hpark hwrote hbad hconf
    have hsel := selectPin_selects pin f (bit val 12) (bit val 13) s
    refine ⟨_, exec_pmxPinWrite_of_accepted hf hrel hgrant hpark hwrote hbad hconf, hsel.func, hsel.oe, hsel.out, hsel.cur, ?_, hsel.others,
      (selectPin_only _ _ _ _ (List.Subset.refl _) Only.refl).keeps⟩
    rw [hsel.park, hpark, Bool.false_or]
  case idle =>
    intro pin s hpark
    exact ⟨_, exec_parkIdle hpark, parkCheck_setPin rfl (Bool.and_true _) rfl⟩
  case minimum =>
    intro pin s hpark
    exact ⟨_, exec_parkMinExpiry hpark, parkCheck_setPin rfl (Bool.true_and _) rfl⟩
  case timeout =>
    intro pin s hpark hidle
    refine ⟨_, exec_parkTimeout hpark hidle, ?_, endPark_park pin _, ?_,
      (endPark_only _ (by decide) (logInfo_only _ _ _ _ (by decide) (send_only _ (by decide) Only.refl))).keeps⟩
    · rw [endPark_cur, logInfo_pmx, send_pmx]
    · rw [endPark_log, logInfo_send_log]
  case get =>
    intro n pin pads s hrun harg
    exact exec_pinGet pads hrun harg
  case setFunction =>
    intro n pin f s hrun hexp hpin hf hbad hconf hpark
    refine ⟨_, exec_pinSetFunction hrun hexp hpin hf hbad hconf hpark, ?_⟩
    have hsel := selectPin_selects pin f s.pmx.pins[pin].oe s.pmx.pins[pin].out (s.freed n)
    have honly : Only [.pmx, .mbx, .out] s (selectPin pin f s.pmx.pins[pin].oe s.pmx.pins[pin].out (s.freed n)) :=
      selectPin_only _ _ _ _ (by decide) (setBox_only _ _ (by decide) Only.refl)
    dsimp only
    split
    case isTrue hsame =>
      refine ⟨hsel.func, hsel.oe, hsel.out, hsel.others, ?_, (replyDone_only _ _ _ (by decide) honly).keeps⟩
      rw [replyDone_outbox, selectPin_box, box_freed]
    case isFalse hnew =>
      exact ⟨hsel.func, hsel.oe, hsel.out, hsel.others, setAwait_await _ _ _, (setAwait_only _ _ (by decide) honly).keeps⟩
  case gpio =>
    intro n pin pads s hrun hpin harg hcur hpark
    refine ⟨_, exec_pinGpio pads hrun hpin harg hcur hpark, pin_setPin_same pin _ _, rfl, fun q hq => pin_setPin_ne hq _ _, ?_,
      (replyDone_only _ _ _ (by decide) (setPin_only _ _ (by decide)
        (setBox_only _ _ (by decide) (setPads_only _ (by decide) Only.refl)))).keeps⟩
    rw [replyDone_outbox, padLevel_replyDone, setPin_box, box_freed]
    rfl

end Sys2Proof.PinCerts
end

section
/-!
PROOF. The statements about what a reset leaves and how the phases of a start pass (spec/03_clocks_resets_power.md R71,
spec/04_start_and_doldrums.md R95 to R108): the first holds of the reset state, the second fails for a package whose exclusion map changes
between PH_FUSE and the end of PH_TRAIN.
-/
namespace Sys2Proof.StartCerts

open Sys2Proof.Machine Sys2Proof.Laws

/-! ## The state that reset leaves -/

theorem reset_counters (i : Fin 8) : State.reset.prot.counters[i] = 0 := Vector.getElem_replicate i.isLt

theorem reset_mem_wf : State.reset.mem.wf := rfl

theorem reset_log_wf : State.reset.log.wf :=
  ⟨rfl, fun _ he => absurd he List.not_mem_nil, List.nodup_nil, fun _ hi => absurd hi List.not_mem_nil⟩

theorem reset_fusesOk : State.reset.prot.fusesOk :=
  ⟨fun i => (reset_counters i).le.trans (Nat.zero_le 256), fun r hr => absurd hr (Option.some_ne_none r).symm⟩

/-- Settles O2: the reset state names each value, its empty tables answer every index with the default record, and the forms hold of them. -/
theorem resetLeaves : Obligations.ResetLeaves :=
  ⟨rfl, rfl, rfl, rfl, rfl, rfl, rfl, fun _ => rfl, rfl, fun _ _ => rfl, reset_counters, rfl, rfl, rfl, rfl, rfl, rfl, rfl, fun _ => rfl,
    fun _ => rfl, rfl, rfl, reset_mem_wf, reset_log_wf, reset_fusesOk⟩

/-! ## The phase that an excluded package enters after PH_TRAIN (R102, R187) -/

/-- The exit of a phase leaves the always-on registers: the entry of the next one changes them. -/
@[simp] theorem phaseExit_aon (outcome : Nat) (s : State) : (phaseExit outcome s).aon = s.aon :=
  (phaseExit_only outcome (List.Subset.refl _) Only.refl).keeps .aon (by decide)

/-- A record of the event log keeps the running start. -/
@[simp] theorem logInfo_start (code ut inst : Nat) (d : List Nat) (s : State) : (logInfo code ut inst d s).start = s.start :=
  (logInfo_only code ut inst d (List.Subset.refl _) Only.refl).keeps .start (by decide)

@[simp] theorem logInfo_aon (code ut inst : Nat) (d : List Nat) (s : State) : (logInfo code ut inst d s).aon = s.aon :=
  (logInfo_only code ut inst d (List.Subset.refl _) Only.refl).keeps .aon (by decide)

@[simp] theorem sendJoins_aon (s : State) : (sendJoins s).aon = s.aon :=
  (sendJoins_only (List.Subset.refl _) Only.refl).keeps .aon (by decide)

@[simp] theorem doneWatch_aon (s : State) : (doneWatch s).aon = s.aon :=
  (doneWatch_only (List.Subset.refl _) Only.refl).keeps .aon (by decide)

/-- A phase that ends does not read the exclusion map anew. -/
@[simp] theorem phaseExit_runMap (outcome : Nat) (s : State) : (phaseExit outcome s).start.runMap = s.start.runMap := by
  simp [phaseExit, bankTimes]

@[simp] theorem enterPhase_phase (p : Phase) (s : State) : (enterPhase p s).aon.phase = p := rfl

theorem enterHold_phase (reason : Nat) (s : State) : (enterHold reason s).aon.phase = s.aon.phase := by
  unfold enterHold
  split
  case isTrue => rfl
  case isFalse => simp

theorem setFailCnt_phase (n : Nat) (s : State) : (setFailCnt n s).aon.phase = s.aon.phase := by
  unfold setFailCnt
  dsimp only
  split <;> rfl

theorem enterServe_phase (s : State) : (enterServe s).aon.phase = .serve := by
  simp [enterServe, firstStep]

/-- PH_JOIN rests, holds or passes to PH_SERVE. -/
theorem joinRecheck_phase_ne_vane {s : State} (h : s.aon.phase = .join) : (joinRecheck s).aon.phase ≠ .vane := by
  have hhold (reason : Nat) : (enterHold reason s).aon.phase ≠ .vane := by simp [enterHold_phase, h]
  have hserve : (enterServe s).aon.phase ≠ .vane := by simp [enterServe_phase]
  have hstay : s.aon.phase ≠ .vane := by simp [h]
  unfold joinRecheck
  split_ifs
  exacts [hhold 0x07, hhold 0x04, hhold 0x05, hserve, hstay]

theorem enterJoin_phase_ne_vane (s : State) : (enterJoin s).aon.phase ≠ .vane := by
  unfold enterJoin
  dsimp only
  split
  case isTrue => simp
  case isFalse => exact joinRecheck_phase_ne_vane (by simp [setFailCnt_phase])

/-- R102, R187: a package whose bit PH_FUSE has read as set skips PH_VANE. -/
theorem enterVane_phase_ne_vane {s : State} (h : s.start.runMap.getLsbD s.aon.slot.val = true) :
    (enterVane s).aon.phase ≠ .vane := by
  rw [enterVane, if_pos h]
  exact enterJoin_phase_ne_vane s

/-- A package that the map of PH_FUSE excludes passes PH_TRAIN, and does not enter PH_VANE: what it builds on the way leaves the start and
the always-on registers as they are. -/
theorem trainPass_phase_ne_vane (f : TrainFacts) (dead : BitVec 128) {s : State}
    (h : s.start.runMap.getLsbD s.aon.slot.val = true) : (trainPass f dead s).aon.phase ≠ .vane := by
  have hbuilt : Only [.store, .mbx, .log, .units, .vane, .net, .mem, .mmu, .serve, .link, .out, .freeCtr, .bytes] s
      (trainDrift f (trainGust dead (List.range 12) (firstEpoch dead (trainMemory f s)))) :=
    trainDrift_only _ (by decide) (trainGust_only _ _ (by decide) (firstEpoch_only _ (by decide) (trainMemory_only _ (by decide) Only.refl)))
  have haon := hbuilt.keeps .aon (by decide)
  have hstart := hbuilt.keeps .start (by decide)
  have hvane (u : State) (hua : u.aon = s.aon) (hus : u.start = s.start) : (enterVane (phaseExit 0 u)).aon.phase ≠ .vane :=
    enterVane_phase_ne_vane (by simpa [hua, hus] using h)
  unfold trainPass
  dsimp only
  split
  case isTrue => exact hvane _ haon hstart
  case isFalse => exact hvane _ haon hstart

/-- The routers, tiles and stacks after training, to which the minimums of R99 apply. -/
def trainedUnits (f : TrainFacts) (s : State) : State :=
  trainStacks f.hbm (trainTiles (trainedDead s f) (trainMesh (trainedDead s f) s))

theorem trainedUnits_only (f : TrainFacts) (s : State) : Only [.pwr, .log, .units, .bond, .link, .out] s (trainedUnits f s) :=
  trainStacks_only _ (by decide) (trainTiles_only _ (by decide) (trainMesh_only _ (by decide) Only.refl))

/-- Training that meets the minimums of R99 passes. -/
theorem exec_trainComplete_of_minimums {f : TrainFacts} {s : State} (hphase : inPhase .train s = true) (hrun : s.aon.startSt = .running)
    (hstraps : strapsWrong (trainedUnits f s) = false) (htiles : 2 ≤ tilesUp (trainedUnits f s)) (hhbm : 4 ≤ popcount f.hbm)
    (hdead : popcount (trainedDead s f) ≤ 2) :
    exec (.trainComplete f) s = .next (trainPass f (trainedDead s f) (trainedUnits f s)) := by
  have hexec : exec (.trainComplete f) s = execTrainComplete f s := rfl
  rw [trainedUnits] at *
  rw [hexec, execTrainComplete, if_pos (by simp [hphase, hrun])]
  dsimp only
  rw [if_neg (by simp [hstraps]), if_neg (by omega), if_neg (by omega), if_neg (by omega)]

/-- R102, R187: whatever EXCLUDED reads, a package that the map of PH_FUSE excludes does not enter PH_VANE. -/
theorem exec_trainComplete_phase_ne_vane {f : TrainFacts} {s t : State} (hphase : inPhase .train s = true) (hrun : s.aon.startSt = .running)
    (hstraps : strapsWrong (trainedUnits f s) = false) (htiles : 2 ≤ tilesUp (trainedUnits f s)) (hhbm : 4 ≤ popcount f.hbm)
    (hdead : popcount (trainedDead s f) ≤ 2) (hmap : s.start.runMap.getLsbD s.aon.slot.val = true)
    (ht : exec (.trainComplete f) s = .next t) : t.aon.phase ≠ .vane := by
  rw [exec_trainComplete_of_minimums hphase hrun hstraps htiles hhbm hdead, Host.Outcome.next.injEq] at ht
  have haon := (trainedUnits_only f s).keeps .aon (by decide)
  have hstart := (trainedUnits_only f s).keeps .start (by decide)
  rw [← ht]
  exact trainPass_phase_ne_vane f _ (by rw [haon, hstart, hmap])

/-- PH_TRAIN of the package in slot 0, which was excluded when PH_FUSE read the map. An EXCLUSION ticket has cleared the map since, and
EXCLUDED has followed it (R187). All its tiles have a profile and every port is ready. -/
def readmitted : State :=
  { State.reset with
    aon := { State.reset.aon with phase := .train, excluded := false }
    start := { State.reset.start with runMap := 1 }
    bond := { State.reset.bond with
      tiles := Vector.replicate 4 { prof := some {
        bdiv := 1, f := 2400, vdef := 0, vmin := 0, vmax := 0, share := 0, feat := 0, clusters := 0 } }
      ports := (List.range 128).map fun c => (c, { prst := true, ready := true }) }
    units := { State.reset.units with tab := (List.range 128).map fun c => (unitKey 0x01 c, { st := .probation }) } }

/-- Every stack trains and no router fails. -/
def allTrain : TrainFacts := { hbm := 0xFF, dead := 0, cxl0 := none, cxl1 := none, noSpare := [] }

theorem readmitted_no_dead_router : trainedDead readmitted allTrain = 0 := by decide +kernel

theorem readmitted_minimums :
    strapsWrong (trainedUnits allTrain readmitted) = false ∧ 2 ≤ tilesUp (trainedUnits allTrain readmitted) := by
  rw [trainedUnits, readmitted_no_dead_router]
  decide +kernel

/-- Refutes O15: EXCLUDED may read 0 where the map that PH_FUSE has read excludes the package, as R187 lets it when a ticket comes between;
PH_TRAIN then passes to PH_JOIN and not to PH_VANE. -/
theorem not_startPhasesPass : ¬ Obligations.StartPhasesPass := by
  rintro ⟨-, -, -, htrain, -⟩
  have hphase : inPhase .train readmitted = true := by decide +kernel
  have hdead : popcount (trainedDead readmitted allTrain) ≤ 2 := by
    rw [readmitted_no_dead_router]
    decide
  obtain ⟨hstraps, htiles⟩ := readmitted_minimums
  obtain ⟨t, ht, hvane, -⟩ := (htrain allTrain readmitted hphase rfl).1 hstraps htiles (by decide) hdead rfl rfl rfl
  exact exec_trainComplete_phase_ne_vane hphase rfl hstraps htiles (by decide) hdead (by decide) ht hvane

end Sys2Proof.StartCerts
end

section
/-!
PROOF. The statement about joining the tray and the start commands (spec/04_start_and_doldrums.md R94, R103, R104, R115) fails: it takes
the package's own logic for the only one that pulls TRAY_DONE low, and under EXTEST the boundary register does
(spec/02_board_and_pins.md R49).
-/
namespace Sys2Proof.JoinCerts

open Sys2Proof.Machine Sys2Proof.Laws

/-- R104: outside PH_JOIN nothing is judged anew. -/
theorem joinRecheck_of_phase_ne_join {s : State} (h : s.aon.phase ≠ .join) : joinRecheck s = s :=
  if_neg fun hjoin => h hjoin.1

/-- Outside PH_JOIN a change of TRAY_DONE is a new level of the other slots, which the 100 µs watch takes up. -/
theorem exec_trayDoneChange_of_phase_ne_join {s : State} (high : Bool) (h : s.aon.phase ≠ .join) :
    exec (.trayDoneChange high) s = .next (doneWatch { s with pins := { s.pins with doneOthers := high } }) := by
  have hphase : (doneWatch { s with pins := { s.pins with doneOthers := high } }).aon.phase ≠ .join := by
    rwa [StartCerts.doneWatch_aon]
  exact congrArg Host.Outcome.next (joinRecheck_of_phase_ne_join hphase)

/-- R49: under EXTEST a 0 in bit 24 of the boundary register holds TRAY_DONE low, whatever the package's own logic and the other slots do. -/
theorem doneLvl_of_extest {s : State} (hextest : s.pins.extest = true) (hbit : s.boundaryBit 24 = false) : s.doneLvl = false := by
  simp [State.doneLvl, State.pullsDone, hextest, hbit]

theorem doneWatch_of_low {s : State} (h : s.doneLvl = false) : (doneWatch s).start.doneSince = none := by
  simp [doneWatch, h]

/-- R49, R103: while the boundary register holds TRAY_DONE low, no change at the other slots starts the watch. -/
theorem trayDoneChange_of_extest {s t : State} {high : Bool} (hphase : s.aon.phase ≠ .join) (hextest : s.pins.extest = true)
    (hbit : s.boundaryBit 24 = false) (ht : exec (.trayDoneChange high) s = .next t) : t.start.doneSince = none := by
  rw [exec_trayDoneChange_of_phase_ne_join high hphase, Host.Outcome.next.injEq] at ht
  rw [← ht]
  exact doneWatch_of_low (doneLvl_of_extest hextest hbit)

/-- A package in PH_SERVE, which has released TRAY_DONE. -/
def serving : State :=
  { State.reset with
    aon := { State.reset.aon with phase := .serve }
    pins := { State.reset.pins with doneDrv := false } }

/-- The TAP then selects EXTEST with a boundary register of zeros. -/
def scanned : State := tapOp (.extest 0) serving

theorem exec_extest_serving : exec (.extest true (.extest 0)) serving = .next scanned := rfl

/-- Refutes O16: in a package that has released TRAY_DONE, EXTEST may still pull it low (R49). When the last of the other slots releases
it, the line stays low and the 100 µs watch does not start, where the statement wants it started. -/
theorem not_joiningTheTray : ¬ Obligations.JoiningTheTray := by
  rintro ⟨-, hchange, -⟩
  have hphase : scanned.aon.phase ≠ .join := Phase.noConfusion
  obtain ⟨t, ht, -, -, hwatch⟩ := hchange true scanned hphase
  have hreleased : (true && !scanned.pins.doneDrv) = true := rfl
  rw [if_pos hreleased, trayDoneChange_of_extest hphase rfl rfl ht] at hwatch
  exact Option.some_ne_none _ hwatch.1.symm

end Sys2Proof.JoinCerts
end

section
/-!
PROOF. The statement about the vane self-port (spec/05_vane_fabric.md R133 to R137), from lemmas that say once how the tables of regions and
of frames read after a write, what the isolation of a region leaves, and what each command does on the path the statement takes.
-/
namespace Sys2Proof.SelfPortCerts

open Sys2Proof.Machine Sys2Proof.Laws

/-! ## The table of taken regions -/

section Regions

variable {α : Type} (t : Tab α) (n : Nat)

theorem find?_ins (x : α) : ((Tab.ins t n x).find? fun e => e.1 = n) = some (n, x) := by
  induction t with
  | nil => simp [Tab.ins]
  | cons e t ih =>
    obtain ⟨a, v⟩ := e
    rw [Tab.ins]
    split_ifs with hlt heq
    · simp
    · simp
    · rw [List.find?_cons_of_neg (by simpa using fun ha => heq ha.symm)]
      exact ih

theorem find?_del : ((Tab.del t n).find? fun e => e.1 = n) = none := by
  induction t with
  | nil => rfl
  | cons e t ih =>
    obtain ⟨a, v⟩ := e
    rw [Tab.del]
    split_ifs with h
    · exact ih
    · rw [List.find?_cons_of_neg (by simpa using fun ha => h ha.symm)]
      exact ih

end Regions

theorem region_setRegion_same (r : Nat) (x : OpenRegion) (s : State) : (setRegion r x s).region r = some x :=
  congrArg (Option.map Prod.snd) (find?_ins s.vane.opened r x)

/-- A region reads as before while the fabric stays. -/
theorem region_of_vane {s t : State} (h : t.vane = s.vane) (r : Nat) : t.region r = s.region r := by
  rw [State.region, State.region, h]

@[simp] theorem spAnswer_region (res : Nat) (words : List Nat) (s : State) (r : Nat) : (spAnswer res words s).region r = s.region r := rfl

@[simp] theorem spAnswer_spResult (res : Nat) (words : List Nat) (s : State) : (spAnswer res words s).vane.spResult = res := rfl

@[simp] theorem logUe_vane (c : Contain) (code ut inst : Nat) (d : List Nat) (s : State) : (logUe c code ut inst d s).vane = s.vane :=
  (logUe_only c code ut inst d (List.Subset.refl _) Only.refl).keeps .vane (by decide)

theorem logUe_log (c : Contain) (code ut inst : Nat) (d : List Nat) (s : State) : (logUe c code ut inst d s).log =
    s.log.write s.now s.aon.slot.val { cls := .ue, code := code, ut := ut, inst := inst, detail := d, contain := c } := by
  simp only [logUe, logRec]
  split
  case isTrue => exact PinCerts.sendMsix_log 222 _
  case isFalse => rfl

/-! ## Frames (Table VF-5) -/

/-- 256 bytes of which all are 0 are what a frame that is not listed reads as. -/
theorem eq_replicate_of_all_zero {b : List Byte} (hlen : b.length = 256) (hzero : b.all (· = 0) = true) : b = List.replicate 256 0 :=
  List.eq_replicate_iff.2 ⟨hlen, fun x hx => by simpa using List.all_eq_true.1 hzero x hx⟩

theorem frameAt_putFrame {b : List Byte} (hlen : b.length = 256) (a k : Nat) (t : Tab (List Byte)) :
    frameAt (putFrame a b t) k = if k = a then b else frameAt t k := by
  unfold frameAt putFrame
  split_ifs with hzero hk hk
  · rw [Tab.get_del, if_pos hk, eq_replicate_of_all_zero hlen hzero]
  · rw [Tab.get_del, if_neg hk]
  · rw [Tab.get_ins, if_pos hk]
  · rw [Tab.get_ins, if_neg hk]

theorem frameAt_fillFrames {b : List Byte} (hlen : b.length = 256) (k n : Nat) : ∀ (a : Nat) (t : Tab (List Byte)),
    frameAt (fillFrames b a n t) k = if a ≤ k ∧ k < a + n then b else frameAt t k := by
  induction n with
  | zero =>
    intro a t
    rw [fillFrames, if_neg (by omega)]
  | succ n ih =>
    intro a t
    rw [fillFrames, ih, frameAt_putFrame hlen]
    split_ifs <;> first | rfl | omega

theorem length_fillBytes (pat : Nat) : (fillBytes pat).length = 256 := by
  have hword : (leBytes 4 pat).length = 4 := rfl
  simp only [fillBytes, List.length_flatMap, hword, List.map_const', List.length_range, List.sum_replicate_nat]

/-- The words that READ answers stand in the frame at every fourth byte. -/
theorem elemWords_eq (n : Nat) : ∀ l : List Byte, execSpRead.elemWords n l = (List.range n).map fun i => leAt l (4 * i) 4 := by
  induction n with
  | zero => exact fun l => rfl
  | succ n ih =>
    intro l
    have hnext (i : Nat) : leAt (l.drop 4) (4 * i) 4 = leAt l (4 * (i + 1)) 4 := by
      rw [leAt, List.drop_drop, leAt, Nat.mul_succ, Nat.add_comm]
    rw [execSpRead.elemWords, ih, List.range_succ_eq_map, List.map_cons, List.map_map]
    simp only [hnext]
    rfl

/-- A frame that no user logic writes, or that was written since OPEN, reads as it stands in the configuration memory. -/
theorem frameRead_of_configured {s : State} {x : OpenRegion} {a : Nat}
    (h : faKind a = 0 ∨ (x.wrote.any fun e => e.1 ≤ a && a < e.1 + e.2) = true) : frameRead s x a = frameAt s.vane.frames a := by
  rcases h with h | h
  · simp [frameRead, h]
  · simp only [frameRead, h, Bool.not_true, Bool.and_false, Bool.false_eq_true, if_false]

/-! ## Isolation (R134, R135) -/

/-- A region as OPEN leaves it, before the self-port answers: isolated, and the reads of its port late. -/
def isolated (r : Nat) (x : OpenRegion) (s : State) : State :=
  setRegion r
    { x with
      stage := 2, flops := Config.flopRun r s.freeCtr % 2 ^ 20000, outs := Config.isolationValues r (logicOf r s.vane.frames)
      ramAt := s.freeCtr }
    { s with
      vane := { s.vane with
        late := (regionPort r).elim s.vane.late fun p => Tab.put [] s.vane.late p (Tab.get [] s.vane.late p ++ Tab.get [] s.vane.reads p)
        reads := (regionPort r).elim s.vane.reads fun p => Tab.put [] s.vane.reads p [] }
      freeCtr := s.freeCtr + 1 }

theorem isolate_eq (r : Nat) (x : OpenRegion) (s : State) :
    isolate r x s = if spLive s then spAnswer 0 [] (isolated r x s) else isolated r x s := by
  unfold isolate isolated
  cases regionPort r <;> rfl

theorem isolate_region (r : Nat) (x : OpenRegion) (s : State) :
    ∃ y, (isolate r x s).region r = some y ∧ y.stage = 2 ∧ y.since = x.since ∧ y.recs = x.recs := by
  have hreg : (isolate r x s).region r = (isolated r x s).region r := by
    rw [isolate_eq]
    split <;> rfl
  exact ⟨_, hreg.trans (region_setRegion_same ..), rfl, rfl, rfl⟩

/-- A self-port that answers reports the isolation. -/
theorem isolate_spResult {s : State} (hlive : spLive s = true) (r : Nat) (x : OpenRegion) : (isolate r x s).vane.spResult = 0 := by
  rw [isolate_eq, if_pos hlive]
  rfl

theorem isolate_poisoned (r : Nat) (x : OpenRegion) (s : State) : (isolate r x s).vane.poisoned = s.vane.poisoned := by
  rw [isolate_eq]
  split <;> rfl

theorem isolate_vaneReads {r p : Nat} (hport : regionPort r = some p) (x : OpenRegion) (s : State) : (isolate r x s).vaneReads p = [] := by
  have hreads : (isolate r x s).vaneReads p = (isolated r x s).vaneReads p := by
    rw [isolate_eq]
    split <;> rfl
  have hput : (isolated r x s).vane.reads = Tab.put [] s.vane.reads p [] := by
    show (regionPort r).elim _ _ = _
    rw [hport]
    rfl
  rw [hreads, State.vaneReads, hput, Tab.get_put_self]

/-- R135: without responses to wait for the region is isolated. -/
theorem afterOutbound_eq (r : Nat) (x : OpenRegion) (s : State) : afterOutbound r x s =
    if (regionPort r).elim false fun p => !(s.vaneReads p).isEmpty then setRegion r { x with stage := 1 } s else isolate r x s := by
  cases hport : regionPort r with
  | none => simp [afterOutbound, hport]
  | some p => cases hreads : (s.vaneReads p).isEmpty <;> simp [afterOutbound, hport, hreads]

theorem afterOutbound_poisoned (r : Nat) (x : OpenRegion) (s : State) : (afterOutbound r x s).vane.poisoned = s.vane.poisoned := by
  rw [afterOutbound_eq]
  split
  case isTrue => rfl
  case isFalse => exact isolate_poisoned r x s

theorem endsAt_of_not_ending {s : State} (h : s.vane.ending = []) (r k : Nat) : endsAt s r (k + 1) = false := by
  cases hport : regionPort r <;> simp [endsAt, hport, h, Tab.get]

/-! ## OPEN (R133, R135) -/

section Open

variable {r : Fin 64} {s : State}

/-- OPEN of a region that Table VF-11 does not refuse. -/
theorem exec_spOpen (sending : Bool) (hlive : spLive s = true) (hallow : (shAllow s.vane.hdr).getLsbD r.val = true)
    (hhome : r.val ≠ shHome s.vane.hdr) (hfree : s.region r.val = none) (hfour : s.vane.opened.length < 4)
    (hstatic : ((regionPort r.val).elim false fun p => s.net.image.elim false fun i => imageUsesVane i p) = false) :
    exec (.spOpen r sending) s = .next ((regionPort r.val).elim (isolate r.val { stage := 0, since := s.now } s) fun _ =>
      if sending then setRegion r.val { stage := 0, since := s.now } s else afterOutbound r.val { stage := 0, since := s.now } s) := by
  have hexec : exec (.spOpen r sending) s = execSpOpen r sending s := rfl
  have hfour' : ¬4 ≤ s.vane.opened.length := by omega
  rw [hexec, execSpOpen]
  simp only [hlive, hallow, hhome, hfree, hfour', hstatic, Bool.not_true, Bool.false_eq_true, if_false, decide_false, Bool.or_false,
    Option.isSome_none]
  cases regionPort r.val <;> rfl

/-- A region without a port is isolated at once. -/
theorem spOpen_without_port (sending : Bool) (hlive : spLive s = true) (hallow : (shAllow s.vane.hdr).getLsbD r.val = true)
    (hhome : r.val ≠ shHome s.vane.hdr) (hfree : s.region r.val = none) (hfour : s.vane.opened.length < 4) (hport : regionPort r.val = none) :
    Answers (.spOpen r sending) s fun t =>
      (∃ x, t.region r.val = some x ∧ x.stage = 2 ∧ x.since = s.now) ∧ t.vane.spResult = 0 ∧ KeepsBut [.vane, .freeCtr] s t := by
  obtain ⟨y, hy, hstage, hsince, -⟩ := isolate_region r.val { stage := 0, since := s.now } s
  refine ⟨_, exec_spOpen sending hlive hallow hhome hfree hfour (by rw [hport]; rfl), ?_⟩
  rw [hport]
  exact ⟨⟨y, hy, hstage, hsince⟩, isolate_spResult hlive _ _, (isolate_only _ _ (List.Subset.refl _) Only.refl).keeps⟩

/-- A port in the middle of a packet may end it first. -/
theorem spOpen_of_sending {p : Nat} (hlive : spLive s = true) (hallow : (shAllow s.vane.hdr).getLsbD r.val = true)
    (hhome : r.val ≠ shHome s.vane.hdr) (hfree : s.region r.val = none) (hfour : s.vane.opened.length < 4)
    (hport : regionPort r.val = some p) (himage : s.net.image = none) : Answers (.spOpen r true) s fun t =>
      (∃ x, t.region r.val = some x ∧ x.stage = 0 ∧ x.since = s.now) ∧ t.vane.spResult = s.vane.spResult ∧ KeepsBut [.vane] s t := by
  refine ⟨_, exec_spOpen true hlive hallow hhome hfree hfour (by rw [hport, himage]; rfl), ?_⟩
  rw [hport]
  exact ⟨⟨_, region_setRegion_same r.val _ s, rfl, rfl⟩, rfl, (setRegion_only _ _ (List.Subset.refl _) Only.refl).keeps⟩

end Open

/-! ## The waits of OPEN (R135) -/

section Waits

variable {r : Fin 64} {x : OpenRegion} {s : State}

/-- The outbound packet has ended, or is ended with a poisoned tail, which is counted. -/
def tailEnded (ended : Bool) (s : State) : State := { s with vane := { s.vane with poisoned := s.vane.poisoned + b2n (!ended) } }

theorem tailEnded_only (ended : Bool) (s : State) : Only [.vane] s (tailEnded ended s) := Only.atVane (by decide) Only.refl

theorem exec_spOutboundTimeout (ended : Bool) (hreg : s.region r.val = some x) (hend : s.vane.ending = []) (hstage : x.stage = 0) :
    exec (.spOutboundTimeout r ended) s =
      .next (afterOutbound r.val x (tailEnded ended s)) := by
  have hexec : exec (.spOutboundTimeout r ended) s = execSpOutboundTimeout r ended s := rfl
  have hat : atStage s r.val 0 = true := by simp [atStage, hreg, hstage]
  rw [hexec, execSpOutboundTimeout]
  simp only [hat, endsAt_of_not_ending hend, hreg, hstage, Bool.true_or, if_true, Bool.false_eq_true, if_false]
  cases regionPort r.val <;> rfl

theorem exec_spResponseWaitEnd (hreg : s.region r.val = some x) (hend : s.vane.ending = []) (hstage : x.stage = 1) :
    exec (.spResponseWaitEnd r) s = .next (isolate r.val x s) := by
  have hexec : exec (.spResponseWaitEnd r) s = execSpResponseWaitEnd r s := rfl
  rw [hexec, execSpResponseWaitEnd]
  simp only [endsAt_of_not_ending hend, hreg, hstage, if_true, Bool.false_eq_true, if_false]
  cases regionPort r.val <;> rfl

theorem exec_spOpenLong {p : Nat} (hreg : s.region r.val = some x) (hport : regionPort r.val = some p) (hlong : x.long = false) :
    exec (.spOpenLong r) s =
      .next (discardWaiting p (logUe .unit 0x0807 0x0C p [r.val] (setRegion r.val { x with long := true } s))) := by
  have hexec : exec (.spOpenLong r) s = execSpOpenLong r s := rfl
  rw [hexec, execSpOpenLong]
  simp only [hreg, hport, hlong, Bool.false_eq_true, if_false]

/-- Where no flit waits at a Vane port there is none to discard. -/
theorem discardWaiting_of_none {p : Nat} (h : ∀ y ∈ s.net.flight, y.waits ≠ some p) : discardWaiting p s = s := by
  have hwait : (s.net.flight.filter fun y => y.waits = some p) = [] := by simpa using h
  have hrest : (s.net.flight.filter fun y => y.waits ≠ some p) = s.net.flight := by simpa using h
  simp only [discardWaiting, hwait, hrest]
  rfl

/-- The outbound packet is over: the region waits for responses where reads are outstanding, and is isolated elsewhere. -/
theorem spOutboundTimeout_goes_on (ended : Bool) (hreg : s.region r.val = some x) (hend : s.vane.ending = []) (hstage : x.stage = 0) :
    Answers (.spOutboundTimeout r ended) s fun t =>
      t.vane.poisoned = s.vane.poisoned + (if ended then 0 else 1)
      ∧ (if (regionPort r.val).elim false fun p => !(s.vaneReads p).isEmpty then t.region r.val = some { x with stage := 1 }
         else (∃ y, t.region r.val = some y ∧ y.stage = 2 ∧ y.recs = x.recs) ∧ (spLive s = true → t.vane.spResult = 0))
      ∧ KeepsBut [.vane, .freeCtr] s t := by
  refine ⟨_, exec_spOutboundTimeout ended hreg hend hstage, ?poisoned, ?stage,
    (afterOutbound_only _ _ (List.Subset.refl _) ((tailEnded_only ended s).mono (by decide))).keeps⟩
  case poisoned =>
    rw [afterOutbound_poisoned]
    cases ended <;> rfl
  case stage =>
    split
    case isTrue hwait =>
      rw [afterOutbound_eq, if_pos (by exact hwait)]
      exact region_setRegion_same ..
    case isFalse hquiet =>
      rw [afterOutbound_eq, if_neg (by exact hquiet)]
      obtain ⟨y, hy, hiso, -, hrecs⟩ := isolate_region r.val x (tailEnded ended s)
      exact ⟨⟨y, hy, hiso, hrecs⟩, fun hlive => isolate_spResult (s := tailEnded ended s) hlive _ _⟩

theorem spResponseWaitEnd_isolates (hreg : s.region r.val = some x) (hend : s.vane.ending = []) (hstage : x.stage = 1) :
    Answers (.spResponseWaitEnd r) s fun t =>
      (∃ y, t.region r.val = some y ∧ y.stage = 2 ∧ y.recs = x.recs) ∧ (spLive s = true → t.vane.spResult = 0)
      ∧ (∀ p, regionPort r.val = some p → t.vaneReads p = []) ∧ KeepsBut [.vane, .freeCtr] s t := by
  obtain ⟨y, hy, hiso, -, hrecs⟩ := isolate_region r.val x s
  exact ⟨_, exec_spResponseWaitEnd hreg hend hstage, ⟨y, hy, hiso, hrecs⟩, fun hlive => isolate_spResult hlive _ _,
    fun p hport => isolate_vaneReads hport x s, (isolate_only _ _ (List.Subset.refl _) Only.refl).keeps⟩

theorem spOpenLong_notes {p : Nat} (hreg : s.region r.val = some x) (hport : regionPort r.val = some p) (hlong : x.long = false)
    (hwaits : ∀ y ∈ s.net.flight, y.waits ≠ some p) : Answers (.spOpenLong r) s fun t =>
      t.region r.val = some { x with long := true } ∧ t.log = (logUe .unit 0x0807 0x0C p [r.val] s).log
      ∧ KeepsBut [.log, .vane, .link, .out] s t := by
  have honly : Only [.log, .vane, .link, .out] s (logUe .unit 0x0807 0x0C p [r.val] (setRegion r.val { x with long := true } s)) :=
    logUe_only _ _ _ _ _ (by decide) (setRegion_only _ _ (by decide) Only.refl)
  have hnet := honly.keeps .net (by decide)
  refine ⟨_, (exec_spOpenLong hreg hport hlong).trans (congrArg _ (discardWaiting_of_none (by rw [hnet]; exact hwaits))), ?_, ?_,
    honly.keeps⟩
  · rw [region_of_vane (logUe_vane ..), region_setRegion_same]
  · rw [logUe_log, logUe_log]
    rfl

end Waits

/-! ## Records and frames (R133) -/

section Frames

variable {x : OpenRegion} {s : State}

/-- A record with a correct FCRC, of frames that exist, in an open region. -/
theorem spFrames_of_accepted {a n : Nat} {bytes : List Byte} {fcrc : Word} (put : Tab (List Byte) → Tab (List Byte))
    (hreg : s.region (faRegion a) = some x) (hstage : x.stage = 2) (hcrc : crc32c bytes = fcrc.toNat) (hframe : frameOk a n = true) :
    spFrames a n bytes fcrc put s = spAnswer 0 [] (setRegion (faRegion a)
      { x with recs := x.recs ++ bytes ++ leBytes 4 fcrc.toNat, wrote := (a, n) :: x.wrote }
      { s with vane := { s.vane with frames := put s.vane.frames } }) := by
  simp only [spFrames, hreg, hstage, hcrc, hframe, ne_eq, not_true_eq_false, if_false, Bool.not_true, Bool.false_eq_true]

/-- An accepted record writes the fabric alone. -/
theorem spFrames_keeps (a n : Nat) (bytes : List Byte) (fcrc : Word) (put : Tab (List Byte) → Tab (List Byte)) (s : State) :
    KeepsBut [.vane] s (spFrames a n bytes fcrc put s) := (spFrames_only _ _ _ _ _ (List.Subset.refl _) Only.refl).keeps

theorem exec_spWrite {addr : BitVec 24} {data : List Byte} (fcrc : Word) (hlive : spLive s = true) (hlen : data.length = 256) :
    exec (.spWrite addr data fcrc) s =
      .next (spFrames addr.toNat 1 (leBytes 4 addr.toNat ++ data) fcrc (putFrame addr.toNat data) s) := by
  have hexec : exec (.spWrite addr data fcrc) s = execSpWrite addr data fcrc s := rfl
  simp only [hexec, execSpWrite, hlive, if_true, List.take_of_length_le hlen.le]

theorem exec_spFill {addr : BitVec 24} (count pat fcrc : Word) (hlive : spLive s = true) :
    exec (.spFill addr count pat fcrc) s =
      .next (spFrames addr.toNat count.toNat (leBytes 4 addr.toNat ++ leBytes 4 count.toNat ++ leBytes 4 pat.toNat) fcrc
        (fillFrames (fillBytes pat.toNat) addr.toNat count.toNat) s) :=
  congrArg Host.Outcome.next (if_pos hlive)

theorem exec_spRead {addr : BitVec 24} (hlive : spLive s = true) (hreg : s.region (faRegion addr.toNat) = some x) (hstage : x.stage = 2)
    (hframe : frameOk addr.toNat 1 = true) : exec (.spRead addr) s =
      .next (spAnswer 0 (((List.range 64).map fun i => leAt (frameRead s x addr.toNat) (4 * i) 4) ++ [crc32c (frameRead s x addr.toNat)]) s) := by
  have hexec : exec (.spRead addr) s = execSpRead addr s := rfl
  simp only [hexec, execSpRead, hlive, hreg, hstage, hframe, ne_eq, not_true_eq_false, if_false, Bool.not_true, Bool.false_eq_true,
    elemWords_eq]

theorem spWrite_stores {addr : BitVec 24} {data : List Byte} {fcrc : Word} (hlive : spLive s = true)
    (hreg : s.region (faRegion addr.toNat) = some x) (hstage : x.stage = 2) (hlen : data.length = 256) (hframe : frameOk addr.toNat 1 = true)
    (hcrc : crc32c (leBytes 4 addr.toNat ++ data) = fcrc.toNat) : Answers (.spWrite addr data fcrc) s fun t =>
      frameAt t.vane.frames addr.toNat = data ∧ (∀ a, a ≠ addr.toNat → frameAt t.vane.frames a = frameAt s.vane.frames a)
      ∧ t.vane.spResult = 0
      ∧ t.region (faRegion addr.toNat) = some { x with recs := x.recs ++ (leBytes 4 addr.toNat ++ data) ++ leBytes 4 fcrc.toNat,
                                                           wrote := (addr.toNat, 1) :: x.wrote }
      ∧ KeepsBut [.vane] s t := by
  have hkeeps := spFrames_keeps addr.toNat 1 (leBytes 4 addr.toNat ++ data) fcrc (putFrame addr.toNat data) s
  refine ⟨_, exec_spWrite fcrc hlive hlen, ?_⟩
  rw [spFrames_of_accepted _ hreg hstage hcrc hframe] at hkeeps ⊢
  exact ⟨(frameAt_putFrame hlen ..).trans (if_pos rfl), fun a ha => (frameAt_putFrame hlen ..).trans (if_neg ha), rfl,
    region_setRegion_same .., hkeeps⟩

theorem spFill_stores {addr : BitVec 24} {count pat fcrc : Word} (hlive : spLive s = true)
    (hreg : s.region (faRegion addr.toNat) = some x) (hstage : x.stage = 2) (hframe : frameOk addr.toNat count.toNat = true)
    (hcrc : crc32c (leBytes 4 addr.toNat ++ leBytes 4 count.toNat ++ leBytes 4 pat.toNat) = fcrc.toNat) :
    Answers (.spFill addr count pat fcrc) s fun t =>
      (∀ a, frameAt t.vane.frames a = if addr.toNat ≤ a ∧ a < addr.toNat + count.toNat then fillBytes pat.toNat
        else frameAt s.vane.frames a) ∧ t.vane.spResult = 0 ∧ KeepsBut [.vane] s t := by
  have hkeeps := spFrames_keeps addr.toNat count.toNat (leBytes 4 addr.toNat ++ leBytes 4 count.toNat ++ leBytes 4 pat.toNat) fcrc
    (fillFrames (fillBytes pat.toNat) addr.toNat count.toNat) s
  refine ⟨_, exec_spFill count pat fcrc hlive, ?_⟩
  rw [spFrames_of_accepted _ hreg hstage hcrc hframe] at hkeeps ⊢
  exact ⟨fun a => frameAt_fillFrames (length_fillBytes _) a _ _ _, rfl, hkeeps⟩

end Frames

/-! ## CLOSE and ABORT (R136) -/

/-- A switch of the schedule image leaves the fabric as it is. -/
@[simp] theorem trySwitch_vane (s : State) : (trySwitch s).vane = s.vane :=
  (trySwitch_only (List.Subset.refl _) Only.refl).keeps .vane (by decide)

section Close

variable {r : Fin 64} {crc : Word} {x : OpenRegion} {s : State}

/-- The region is released: its flip-flops start from the new frames, and the measurement is extended. -/
def closed (r : Fin 64) (crc : Word) (s : State) : State :=
  { s with vane := { s.vane with
      opened := Tab.del s.vane.opened r.val
      flops := initFlops s.vane.frames [r.val] s.vane.flops
      measure := Config.sha384 (leBytes 48 s.vane.measure.toNat ++ leBytes 1 r.val ++ leBytes 4 crc.toNat) } }

theorem closed_region (r : Fin 64) (crc : Word) (s : State) : (closed r crc s).region r.val = none :=
  congrArg (Option.map Prod.snd) (find?_del s.vane.opened r.val)

theorem closed_only (r : Fin 64) (crc : Word) (s : State) : Only [.vane] s (closed r crc s) := Only.atVane (by decide) Only.refl

/-- The logic frames of the region are 0. -/
def cleared (r : Fin 64) (s : State) : State := { s with vane := { s.vane with frames := clearLogic r.val s.vane.frames } }

theorem cleared_only (r : Fin 64) (s : State) : Only [.vane] s (cleared r s) := Only.atVane (by decide) Only.refl

@[simp] theorem cleared_region (r : Fin 64) (s : State) (k : Nat) : (cleared r s).region k = s.region k := rfl

theorem exec_spClose (hlive : spLive s = true) (hreg : s.region r.val = some x) (hstage : x.stage = 2) :
    exec (.spClose r crc) s = .next (if crc32c x.recs = crc.toNat then trySwitch (spAnswer 0 [] (closed r crc s))
      else logUe .unit 0x0806 0x0C 0xFF [r.val] (spAnswer 6 [] (cleared r s))) := by
  have hexec : exec (.spClose r crc) s = execSpClose r crc s := rfl
  simp only [hexec, execSpClose, hlive, hreg, hstage, ne_eq, not_true_eq_false, if_false, Bool.not_true, Bool.false_eq_true]
  rfl

theorem exec_spAbort (hlive : spLive s = true) (hreg : s.region r.val = some x) (hstage : x.stage = 2) :
    exec (.spAbort r) s = .next (spAnswer 0 [] (cleared r s)) := by
  have hexec : exec (.spAbort r) s = execSpAbort r s := rfl
  have hopen : spOpened s r.val = true := by simp [spOpened, hreg, hstage]
  simp only [hexec, execSpAbort, hlive, hopen, Bool.not_true, Bool.false_eq_true, if_false]
  rfl

theorem spClose_releases (hlive : spLive s = true) (hreg : s.region r.val = some x) (hstage : x.stage = 2)
    (hcrc : crc32c x.recs = crc.toNat) : Answers (.spClose r crc) s fun t => t.region r.val = none ∧ t.vane.spResult = 0
      ∧ t.vane.measure = Config.sha384 (leBytes 48 s.vane.measure.toNat ++ leBytes 1 r.val ++ leBytes 4 crc.toNat)
      ∧ t.vane.frames = s.vane.frames ∧ t.vane.flops = initFlops s.vane.frames [r.val] s.vane.flops ∧ KeepsBut [.mbx, .vane, .net] s t := by
  have hexec := exec_spClose (crc := crc) hlive hreg hstage
  rw [if_pos hcrc] at hexec
  refine ⟨_, hexec, ?_⟩
  dsimp only
  rw [region_of_vane (trySwitch_vane _), spAnswer_region, closed_region, trySwitch_vane]
  exact ⟨rfl, rfl, rfl, rfl, rfl,
    (trySwitch_only (by decide) (spAnswer_only _ _ (by decide) ((closed_only r crc s).mono (by decide)))).keeps⟩

theorem spClose_clears (hlive : spLive s = true) (hreg : s.region r.val = some x) (hstage : x.stage = 2)
    (hcrc : crc32c x.recs ≠ crc.toNat) : Answers (.spClose r crc) s fun t => t.region r.val = some x ∧ t.vane.spResult = 6
      ∧ t.vane.frames = clearLogic r.val s.vane.frames ∧ t.log = (logUe .unit 0x0806 0x0C 0xFF [r.val] s).log
      ∧ KeepsBut [.log, .vane, .link, .out] s t := by
  have hexec := exec_spClose (crc := crc) hlive hreg hstage
  rw [if_neg hcrc] at hexec
  refine ⟨_, hexec, ?_⟩
  dsimp only
  rw [region_of_vane (logUe_vane ..), spAnswer_region, cleared_region, logUe_vane, logUe_log, logUe_log]
  exact ⟨hreg, rfl, rfl, rfl,
    (logUe_only _ _ _ _ _ (by decide) (spAnswer_only _ _ (by decide) ((cleared_only r s).mono (by decide)))).keeps⟩

end Close

/-- Settles O26: each clause by the lemma that says what its command does on that path. -/
theorem selfPortCommands : Obligations.SelfPortCommands := by
  refine ⟨?openRegion, ?waits, ?records, ?release, fun s hlive => congrArg Host.Outcome.next (if_pos hlive)⟩
  case openRegion =>
    intro r sending s hlive hallow hhome hfree hfour
    refine ⟨spOpen_without_port sending hlive hallow hhome hfree hfour, ?busyPort⟩
    rintro p hport himage rfl
    exact spOpen_of_sending hlive hallow hhome hfree hfour hport himage
  case waits =>
    intro r ended x s hreg hend
    exact ⟨spOutboundTimeout_goes_on ended hreg hend, spResponseWaitEnd_isolates hreg hend, fun p => spOpenLong_notes hreg⟩
  case records =>
    intro addr x s hlive hreg hstage
    refine ⟨fun data fcrc => spWrite_stores hlive hreg hstage, fun count pat fcrc => spFill_stores hlive hreg hstage, fun hframe => ?read⟩
    exact ⟨_, exec_spRead hlive hreg hstage hframe, ⟨rfl, frameRead_of_configured⟩, rfl,
      (spAnswer_only _ _ (List.Subset.refl _) Only.refl).keeps⟩
  case release =>
    intro r crc x s hlive hreg hstage
    exact ⟨spClose_releases hlive hreg hstage, spClose_clears hlive hreg hstage, _, exec_spAbort hlive hreg hstage, hreg, rfl, rfl,
      (spAnswer_only _ _ (List.Subset.refl _) (cleared_only r s)).keeps⟩

end Sys2Proof.SelfPortCerts
end

section
/-!
PROOF. The statement about the configuration stream, the loads of the Vane fabric and its mailbox commands (spec/05_vane_fabric.md R125 to
R132, R138), from lemmas that say once what the parts of the stream, a load, a send and each command do on the path the statement takes.
-/
namespace Sys2Proof.StreamCerts

open Sys2Proof.Machine Sys2Proof.Laws

/-! ## What a record leaves -/

@[simp] theorem logInfo_vane (code ut inst : Nat) (d : List Nat) (s : State) : (logInfo code ut inst d s).vane = s.vane :=
  (logInfo_only code ut inst d (List.Subset.refl _) Only.refl).keeps .vane (by decide)

@[simp] theorem logInfo_pins (code ut inst : Nat) (d : List Nat) (s : State) : (logInfo code ut inst d s).pins = s.pins :=
  (logInfo_only code ut inst d (List.Subset.refl _) Only.refl).keeps .pins (by decide)

@[simp] theorem logInfo_box (code ut inst : Nat) (d : List Nat) (s : State) (k : Nat) : (logInfo code ut inst d s).box k = s.box k := by
  have hmbx : (logInfo code ut inst d s).mbx = s.mbx :=
    (logInfo_only code ut inst d (List.Subset.refl _) Only.refl).keeps .mbx (by decide)
  simp only [State.box, hmbx]

@[simp] theorem logUe_aon (c : Contain) (code ut inst : Nat) (d : List Nat) (s : State) : (logUe c code ut inst d s).aon = s.aon :=
  (logUe_only c code ut inst d (List.Subset.refl _) Only.refl).keeps .aon (by decide)

/-! ## Headers (R127, R128, R132) -/

section Headers

variable {hdr : List Byte} {s : State}

theorem exec_trayHeader (hrel : s.released = true) (hchain : s.start.chain = true) (hsync : isTrayHdr hdr = true) :
    exec (.trayHeader hdr) s = .next (chainOut hdr false { s with
      vane := { s.vane with trayHdr := some hdr, sawOwn := false, passing := none }
      aon := { s.aon with heldTrayId := if hdrCrcOk hdr then some (hdrTrayId hdr) else none } }) := by
  have hexec : exec (.trayHeader hdr) s = execTrayHeader hdr s := rfl
  simp only [hexec, execTrayHeader, hrel, hchain, hsync, Bool.not_true, Bool.false_eq_true, if_false, Bool.and_self, if_true]

theorem exec_sectionHeader (hrel : s.released = true) (hcrc : shCrcOk hdr = true) (hslot : shSlot hdr = s.aon.slot.val) :
    exec (.sectionHeader hdr) s = .next (chainOut hdr (capMode s ≠ .forward)
      { s with vane := { s.vane with passing := some (hdr, capMode s), sawOwn := true } }) := by
  have hexec : exec (.sectionHeader hdr) s = execSectionHeader hdr s := rfl
  simp only [hexec, execSectionHeader, hrel, hcrc, hslot, Bool.not_true, Bool.false_eq_true, if_false, decide_true, Bool.and_self, if_true]

end Headers

theorem chainOut_sent (bytes : List Byte) (held : Bool) (s : State) : (chainOut bytes held s).out.sent =
    .chain (if held then List.replicate bytes.length 0 else bytes) held :: s.out.sent := rfl

/-! ## The tray ID (R31, R132) -/

/-- Once a tray ID is published the held one goes, and nothing else changes. -/
theorem publish_of_published {s : State} (h : s.aon.trayId ≠ 0) : publish s = { s with aon := { s.aon with heldTrayId := none } } := by
  have htray : publishTray s = { s with aon := { s.aon with heldTrayId := none } } := by
    unfold publishTray
    split
    case h_1 hheld => exact congrArg (fun x => { s with aon := { s.aon with heldTrayId := x } }) hheld
    case h_2 => rw [if_neg h]
  rw [publish, htray]
  exact if_pos rfl

/-- The first tray ID is published. -/
theorem publish_of_held {s : State} {k : Nat} (h : s.aon.trayId = 0) (hheld : s.aon.heldTrayId = some k) (hk : k ≠ 0) :
    publish s = trayPublished { s with aon := { s.aon with trayId := k, heldTrayId := none } } := by
  have htray : publishTray s = { s with aon := { s.aon with trayId := k, heldTrayId := none } } := by
    unfold publishTray
    rw [hheld]
    exact congrArg (fun x => { s with aon := { s.aon with trayId := x, heldTrayId := none } }) (if_pos h)
  rw [publish, htray]
  exact if_neg (by rw [h]; exact hk)

/-! ## The end of a section (R129) -/

section SectionEnd

variable {hdr body : List Byte} {s : State}

/-- The last byte of a section that is captured has come, and zeros have left in its place. -/
def taken (body : List Byte) (s : State) : State := chainOut body true { s with vane := { s.vane with passing := none } }

theorem exec_sectionEnd_of_pass (hpass : s.vane.passing = some (hdr, .capture))
    (hjudge : judge s.aon.trayId (s.vane.trayHdr.getD []) hdr body = .pass) :
    exec (.sectionEnd body) s = .next (publish (capturePass (hdr ++ body, hdrBuildId (s.vane.trayHdr.getD [])) (taken body s))) := by
  have hexec : exec (.sectionEnd body) s = execSectionEnd body s := rfl
  simp only [hexec, execSectionEnd, hpass, hjudge]
  rfl

theorem exec_sectionEnd_of_fail {sub : Nat} (hpass : s.vane.passing = some (hdr, .capture))
    (hjudge : judge s.aon.trayId (s.vane.trayHdr.getD []) hdr body = .fail sub) :
    exec (.sectionEnd body) s = .next (publish (captureFail sub (taken body s))) := by
  have hexec : exec (.sectionEnd body) s = execSectionEnd body s := rfl
  simp only [hexec, execSectionEnd, hpass, hjudge]
  rfl

theorem exec_sectionEnd_of_forward (hpass : s.vane.passing = some (hdr, .forward)) :
    exec (.sectionEnd body) s = .next (publish (send (.chain body false) { s with vane := { s.vane with passing := none } })) := by
  have hexec : exec (.sectionEnd body) s = execSectionEnd body s := rfl
  simp only [hexec, execSectionEnd, hpass]
  rfl

end SectionEnd

/-! ## A section that passes its checks (R129, R130) -/

theorem leaveHold_trayId (s : State) : (leaveHold s).aon.trayId = s.aon.trayId := by
  unfold leaveHold
  split <;> rfl

@[simp] theorem leaveHold_vane (s : State) : (leaveHold s).vane = s.vane :=
  (leaveHold_only (List.Subset.refl _) Only.refl).keeps .vane (by decide)

theorem beginLoad_of_staged {s : State} {x : List Byte × Nat} (h : s.vane.staged = some x) :
    (beginLoad s).vane = { s.vane.clear .loading with loading := some x, staged := none, requesting := false }
      ∧ (beginLoad s).aon.trayId = s.aon.trayId := by
  simp only [beginLoad, h, leaveHold_vane, leaveHold_trayId, and_self]

/-- The section is staged, and CFG_ERR_N is released if a failed capture had driven it. -/
def staged (x : List Byte × Nat) (s : State) : State :=
  { s with
    vane := { s.vane with staged := some x, capFail := none }
    pins := { s.pins with errDrv := s.pins.errDrv && s.vane.capFail.isNone } }

theorem capturePass_of_phase_ne_vane {s : State} (x : List Byte × Nat) (h : s.aon.phase ≠ .vane) : capturePass x s = staged x s :=
  if_neg (by simp [h])

/-- In PH_VANE the load of the section begins at once, unless one runs. -/
theorem capturePass_in_vane {s : State} (x : List Byte × Nat) (h : s.aon.phase = .vane) (hst : s.vane.st ≠ .loading) :
    capturePass x s = beginLoad (staged x s) := if_pos (by simp [h, hst])

/-! ## A section that fails a check (R121, R129, R107) -/

theorem captureRecord_keeps (sub : Nat) (s : State) : KeepsBut [.log, .link, .out] s (captureRecord sub s) :=
  (captureRecord_only sub (List.Subset.refl _) Only.refl).keeps

/-- A failed check drives CFG_ERR_N and leaves nothing staged. -/
def unstaged (sub : Nat) (s : State) : State :=
  { s with pins := { s.pins with errDrv := true }, vane := { s.vane with staged := none, lastSub := sub } }

theorem captureFail_eq (sub : Nat) (s : State) : captureFail sub s =
    (let t := captureRecord sub (unstaged sub s)
     if s.aon.phase = .vane then failStart 0x50 { t with vane := t.vane.clear .failed }
     else { t with vane := { t.vane with capFail := some sub } }) := by
  have haon : (captureRecord sub (unstaged sub s)).aon = s.aon := captureRecord_keeps sub (unstaged sub s) .aon (by decide)
  rw [← haon]
  rfl

/-- Before PH_VANE the failure waits for it. -/
theorem captureFail_of_phase_ne_vane {sub : Nat} {s : State} (h : s.aon.phase ≠ .vane) :
    (captureFail sub s).vane = { s.vane with staged := none, lastSub := sub, capFail := some sub }
      ∧ (captureFail sub s).pins.errDrv = true ∧ (captureFail sub s).aon = s.aon := by
  have hkeeps := captureRecord_keeps sub (unstaged sub s)
  have hvane : (captureRecord sub (unstaged sub s)).vane = (unstaged sub s).vane := hkeeps .vane (by decide)
  have hpins : (captureRecord sub (unstaged sub s)).pins = (unstaged sub s).pins := hkeeps .pins (by decide)
  have haon : (captureRecord sub (unstaged sub s)).aon = s.aon := hkeeps .aon (by decide)
  rw [captureFail_eq, if_neg h]
  refine ⟨?_, ?_, haon⟩
  · simp only [hvane]
    rfl
  · simp only [hpins]
    rfl

theorem setFailCnt_trayId (n : Nat) (s : State) : (setFailCnt n s).aon.trayId = s.aon.trayId := by
  unfold setFailCnt
  dsimp only
  split <;> rfl

/-- A failure short of the third waits for the next try. What is recorded on the way leaves the phase and the tray ID as they are. -/
theorem failStart_of_retry {reason : Nat} {s : State} (h : s.failBase < 2) :
    ∃ t, failStart reason s = awaitRetry reason t ∧ Only [.aon, .start, .store, .log, .link, .out] s t
      ∧ t.aon.phase = s.aon.phase ∧ t.aon.trayId = s.aon.trayId := by
  refine ⟨_, if_neg (by omega), Only.atStore (by decide) (setFailCnt_only _ (by decide) (logUe_only _ _ _ _ _ (by decide)
    (phaseExit_only _ (by decide) Only.refl))), ?_, ?_⟩
  · simp only [StartCerts.setFailCnt_phase, logUe_aon, StartCerts.phaseExit_aon]
  · simp only [setFailCnt_trayId, logUe_aon, StartCerts.phaseExit_aon]

/-- R101: in PH_VANE the package waits for another section, with CFG_ERR_N low after a failed load. -/
theorem awaitRetry_in_vane {reason : Nat} {s : State} (h : s.aon.phase = .vane) : awaitRetry reason s =
    { noteFail reason s with pins := { s.pins with errDrv := s.pins.errDrv || reason = 0x50, doneDrv := true } } := if_pos h

theorem failBase_congr {s t : State} (haon : t.aon = s.aon) (hstore : t.store = s.store) : t.failBase = s.failBase := by
  rw [State.failBase, State.failBase, State.regionRo, State.regionRo, haon, hstore]

/-- In PH_VANE the load has failed with the check. -/
theorem captureFail_in_vane {sub : Nat} {s : State} (h : s.aon.phase = .vane) (hbase : s.failBase < 2) :
    (captureFail sub s).vane = { (unstaged sub s).vane.clear .failed with staged := none } ∧ (captureFail sub s).pins.errDrv = true
      ∧ (captureFail sub s).aon.startSt = .failed ∧ (captureFail sub s).aon.reason = 0x50
      ∧ (captureFail sub s).aon.trayId = s.aon.trayId := by
  have hkeeps := captureRecord_keeps sub (unstaged sub s)
  have hvane : (captureRecord sub (unstaged sub s)).vane = (unstaged sub s).vane := hkeeps .vane (by decide)
  have haon : (captureRecord sub (unstaged sub s)).aon = s.aon := hkeeps .aon (by decide)
  have hstore : (captureRecord sub (unstaged sub s)).store = s.store := hkeeps .store (by decide)
  rw [captureFail_eq, if_pos h]
  obtain ⟨t, ht, honly, hphase, htray⟩ := failStart_of_retry (reason := 0x50)
    (s := { captureRecord sub (unstaged sub s) with vane := (captureRecord sub (unstaged sub s)).vane.clear .failed })
    ((failBase_congr (s := s) haon hstore).trans_lt hbase)
  dsimp only at hphase htray ⊢
  rw [ht, awaitRetry_in_vane (by rw [hphase, haon, h])]
  refine ⟨?_, Bool.or_true _, rfl, rfl, htray.trans (congrArg Aon.trayId haon)⟩
  have hfailed : t.vane = _ := honly.keeps .vane (by decide)
  dsimp only [noteFail]
  rw [hfailed, hvane]
  rfl

/-! ## What the end of a section does (R129) -/

section Sections

variable {hdr body : List Byte} {sub : Nat} {s : State}

theorem sectionEnd_stages (hpass : s.vane.passing = some (hdr, .capture)) (htray : s.aon.trayId ≠ 0)
    (hjudge : judge s.aon.trayId (s.vane.trayHdr.getD []) hdr body = .pass) (hphase : s.aon.phase ≠ .vane) :
    Answers (.sectionEnd body) s fun t =>
      t.vane.staged = some (hdr ++ body, hdrBuildId (s.vane.trayHdr.getD [])) ∧ t.vane.capFail = none ∧ t.aon.heldTrayId = none := by
  have hexec := exec_sectionEnd_of_pass hpass hjudge
  rw [capturePass_of_phase_ne_vane _ (by exact hphase), publish_of_published (by exact htray)] at hexec
  exact ⟨_, hexec, rfl, rfl, rfl⟩

theorem sectionEnd_begins_load (hpass : s.vane.passing = some (hdr, .capture)) (htray : s.aon.trayId ≠ 0)
    (hjudge : judge s.aon.trayId (s.vane.trayHdr.getD []) hdr body = .pass) (hphase : s.aon.phase = .vane) (hst : s.vane.st ≠ .loading) :
    Answers (.sectionEnd body) s fun t =>
      t.vane.st = .loading ∧ t.vane.loading = some (hdr ++ body, hdrBuildId (s.vane.trayHdr.getD [])) ∧ t.vane.staged = none := by
  have hexec := exec_sectionEnd_of_pass hpass hjudge
  obtain ⟨hvane, hid⟩ := beginLoad_of_staged (s := staged (hdr ++ body, hdrBuildId (s.vane.trayHdr.getD [])) (taken body s)) rfl
  rw [capturePass_in_vane _ (by exact hphase) (by exact hst), publish_of_published (by rw [hid]; exact htray)] at hexec
  refine ⟨_, hexec, ?_⟩
  dsimp only
  rw [hvane]
  exact ⟨rfl, rfl, rfl⟩

theorem sectionEnd_fails (hpass : s.vane.passing = some (hdr, .capture)) (htray : s.aon.trayId ≠ 0)
    (hjudge : judge s.aon.trayId (s.vane.trayHdr.getD []) hdr body = .fail sub) (hphase : s.aon.phase ≠ .vane) :
    Answers (.sectionEnd body) s fun t =>
      t.vane.staged = none ∧ t.vane.lastSub = sub ∧ t.vane.capFail = some sub ∧ t.pins.errDrv = true := by
  obtain ⟨hvane, herr, haon⟩ := captureFail_of_phase_ne_vane (sub := sub) (s := taken body s) hphase
  have hexec := exec_sectionEnd_of_fail hpass hjudge
  rw [publish_of_published (by rw [haon]; exact htray)] at hexec
  refine ⟨_, hexec, ?_⟩
  dsimp only
  rw [hvane]
  exact ⟨rfl, rfl, rfl, herr⟩

theorem sectionEnd_fails_in_vane (hpass : s.vane.passing = some (hdr, .capture)) (htray : s.aon.trayId ≠ 0)
    (hjudge : judge s.aon.trayId (s.vane.trayHdr.getD []) hdr body = .fail sub) (hphase : s.aon.phase = .vane) (hbase : s.failBase < 2) :
    Answers (.sectionEnd body) s fun t =>
      t.vane.st = .failed ∧ t.vane.staged = none ∧ t.aon.startSt = .failed ∧ t.aon.reason = 0x50 ∧ t.pins.errDrv = true := by
  obtain ⟨hvane, herr, hfailed, hreason, hid⟩ := captureFail_in_vane (sub := sub) (s := taken body s) hphase hbase
  have hexec := exec_sectionEnd_of_fail hpass hjudge
  rw [publish_of_published (by rw [hid]; exact htray)] at hexec
  refine ⟨_, hexec, ?_⟩
  dsimp only
  rw [hvane]
  exact ⟨rfl, rfl, hfailed, hreason, herr⟩

end Sections

/-! ## The end of a stream (R126, R129, R132) -/

/-- The trailer passes. -/
def streamEnded (bytes : List Byte) (s : State) : State := send (.chain bytes false) { s with vane := { s.vane with trayHdr := none } }

section StreamEnd

variable {bytes : List Byte} {s : State}

theorem exec_trailer (hrel : s.released = true) (hchain : s.start.chain = true) (hsync : leAt bytes 0 4 = 0x3C5AA5C3)
    (hhdr : s.vane.trayHdr.isSome = true) :
    exec (.trailer bytes) s = .next (if s.vane.sawOwn then streamEnded bytes s
      else if s.vane.requesting then
        logInfo 0x0804 0x0C 0xFF [s.aon.slot.val]
          { publish (streamEnded bytes s) with vane := { (publish (streamEnded bytes s)).vane with requesting := false } }
      else publish (streamEnded bytes s)) := by
  have hexec : exec (.trailer bytes) s = execTrailer bytes s := rfl
  simp only [hexec, execTrailer, hrel, hchain, hsync, hhdr, Bool.not_true, Bool.false_eq_true, if_false, Bool.and_self, decide_true, if_true]
  rfl

/-- A section that is captured or taken off the chain is truncated. -/
theorem exec_cclkStopTimeout_of_held {hdr : List Byte} {m : CapMode} (hpass : s.vane.passing = some (hdr, m)) (hm : m ≠ .forward) :
    exec .cclkStopTimeout s = .next (captureTruncated { s with vane := { s.vane with trayHdr := none } }) := by
  have hexec : exec .cclkStopTimeout s = execCclkStopTimeout s := rfl
  cases m with
  | forward => exact absurd rfl hm
  | discard => simp only [hexec, execCclkStopTimeout, hpass]
  | capture => simp only [hexec, execCclkStopTimeout, hpass]

theorem exec_cclkStopTimeout_of_free (h : ∀ hdr m, s.vane.passing = some (hdr, m) → m = .forward) :
    exec .cclkStopTimeout s = .next { s with
      vane := { s.vane with passing := none, trayHdr := none }, aon := { s.aon with heldTrayId := none } } := by
  have hexec : exec .cclkStopTimeout s = execCclkStopTimeout s := rfl
  rw [hexec, execCclkStopTimeout]
  split
  case h_1 hpass => exact absurd (h _ _ hpass) (by decide)
  case h_2 hpass => exact absurd (h _ _ hpass) (by decide)
  case h_3 => rfl
  case h_4 => rfl

/-- R126: the package stops asking when the stream held no section for it. -/
theorem trailer_without_section (hrel : s.released = true) (hchain : s.start.chain = true) (hsync : leAt bytes 0 4 = 0x3C5AA5C3)
    (hhdr : s.vane.trayHdr.isSome = true) (hown : s.vane.sawOwn = false) (htray : s.aon.trayId ≠ 0) (hreq : s.vane.requesting = true) :
    Answers (.trailer bytes) s fun t => t.vane.requesting = false ∧ t.vane.trayHdr = none ∧ t.aon.heldTrayId = none
      ∧ t.log = (logInfo 0x0804 0x0C 0xFF [s.aon.slot.val] s).log := by
  have hexec := exec_trailer hrel hchain hsync hhdr
  rw [hown, if_neg Bool.false_ne_true, if_pos hreq, publish_of_published (by exact htray)] at hexec
  refine ⟨_, hexec, ?_⟩
  dsimp only
  rw [logInfo_vane, StartCerts.logInfo_aon, PinCerts.logInfo_log, PinCerts.logInfo_log]
  exact ⟨rfl, rfl, rfl, rfl⟩

/-- A truncated section is no failure: the held tray ID goes. -/
theorem captureTruncated_leaves (s : State) : (captureTruncated s).vane.passing = none ∧ (captureTruncated s).aon.heldTrayId = none
    ∧ (captureTruncated s).log = (logInfo 0x0803 0x0C 0xFF [s.aon.slot.val] s).log := by
  rw [captureTruncated, logInfo_vane, StartCerts.logInfo_aon, PinCerts.logInfo_log, PinCerts.logInfo_log]
  exact ⟨rfl, rfl, rfl⟩

end StreamEnd

/-! ## A load that fails (R131) -/

theorem exec_vaneLoadDone {x : List Byte × Nat} {s : State} (hst : s.vane.st = .loading) (hload : s.vane.loading = some x) :
    exec .vaneLoadDone s = .next (if stagedOk x.1 then loadPass x s else vaneLoadFail 0x08 s) := by
  have hexec : exec .vaneLoadDone s = execVaneLoadDone s := rfl
  simp only [hexec, execVaneLoadDone, hload, hst, ne_eq, not_true_eq_false, if_false]

theorem exec_vanePllLockTimeout {s : State} (hst : s.vane.st = .loading) :
    exec .vanePllLockTimeout s = .next (vaneLoadFail 0x0C s) :=
  congrArg Host.Outcome.next (if_pos hst)

/-- Outside PH_VANE a load that fails is no failed start. -/
theorem vaneLoadFail_of_phase_ne_vane {s : State} (sub : Nat) (h : s.aon.phase ≠ .vane) : vaneLoadFail sub s =
    logUe .unit 0x0802 0x0C 0xFF [sub] { s with vane := { s.vane.clear .failed with lastSub := sub } } := if_neg h

theorem vaneLoadFail_outside {sub : Nat} {s : State} (h : s.aon.phase ≠ .vane) :
    (vaneLoadFail sub s).vane = { s.vane.clear .failed with lastSub := sub }
      ∧ (vaneLoadFail sub s).log = (logUe .unit 0x0802 0x0C 0xFF [sub] s).log
      ∧ KeepsBut [.vane, .log, .link, .out] s (vaneLoadFail sub s) := by
  rw [vaneLoadFail_of_phase_ne_vane sub h]
  refine ⟨SelfPortCerts.logUe_vane .., ?_, (logUe_only _ _ _ _ _ (by decide) (Only.atVane (by decide) Only.refl)).keeps⟩
  simp only [SelfPortCerts.logUe_log]
  rfl

/-! ## PH_JOIN after a load (R102, R103, R108) -/

theorem setFailCnt_failCnt (n : Nat) (s : State) : (setFailCnt n s).aon.failCnt = n := by
  unfold setFailCnt
  dsimp only
  split <;> rfl

theorem leaveHold_failCnt (s : State) : (leaveHold s).aon.failCnt = s.aon.failCnt := by
  unfold leaveHold
  split <;> rfl

theorem enterHold_failCnt (reason : Nat) (s : State) : (enterHold reason s).aon.failCnt = s.aon.failCnt := by
  unfold enterHold
  split
  case isTrue => rfl
  case isFalse => simp

theorem enterServe_failCnt (s : State) : (enterServe s).aon.failCnt = s.aon.failCnt := by
  simp [enterServe, firstStep, enterPhase, leaveHold_failCnt]

/-- PH_JOIN rests, holds or passes to PH_SERVE, and keeps the count of failed starts. -/
theorem joinRecheck_in_join {s : State} (h : s.aon.phase = .join) :
    ((joinRecheck s).aon.phase = .join ∨ (joinRecheck s).aon.phase = .serve) ∧ (joinRecheck s).aon.failCnt = s.aon.failCnt := by
  have hhold (reason : Nat) : ((enterHold reason s).aon.phase = .join ∨ (enterHold reason s).aon.phase = .serve)
      ∧ (enterHold reason s).aon.failCnt = s.aon.failCnt :=
    ⟨.inl ((StartCerts.enterHold_phase reason s).trans h), enterHold_failCnt reason s⟩
  unfold joinRecheck
  split_ifs
  exacts [hhold 0x07, hhold 0x04, hhold 0x05, ⟨.inr (StartCerts.enterServe_phase s), enterServe_failCnt s⟩, ⟨.inl h, rfl⟩]

/-- A package in PH_JOIN before its first JOIN records go out. -/
def joining (s : State) : State :=
  let t := setFailCnt 0 (enterPhase .join s)
  { t with
    aon := { t.aon with roster := setBit t.aon.roster s.aon.slot.val true }
    pins := { t.pins with doneDrv := false, errDrv := false }
    vane := { t.vane with staged := none, capFail := none } }

theorem enterJoin_eq (s : State) : enterJoin s =
    if s.aon.excluded then sendJoins (enterPhase .excluded (phaseExit 0 (joining s)))
    else joinRecheck (doneWatch (sendJoins (joining s))) := rfl

theorem joining_phase (s : State) : (joining s).aon.phase = .join := StartCerts.setFailCnt_phase 0 _

theorem joining_failCnt (s : State) : (joining s).aon.failCnt = 0 := setFailCnt_failCnt 0 _

theorem joining_vane (s : State) : (joining s).vane = { s.vane with staged := none, capFail := none } := by
  have hvane : (setFailCnt 0 (enterPhase .join s)).vane = s.vane := (setFailCnt_only 0 (List.Subset.refl _) Only.refl).keeps .vane (by decide)
  rw [← hvane]
  rfl

/-- What follows in PH_JOIN leaves the fabric and the pins. -/
theorem enterJoin_after_joining (s : State) : Only [.aon, .start, .log, .serve, .link, .out] (joining s) (enterJoin s) := by
  rw [enterJoin_eq]
  split
  case isTrue => exact sendJoins_only (by decide) (enterPhase_only _ (by decide) (phaseExit_only _ (by decide) Only.refl))
  case isFalse => exact joinRecheck_only (by decide) (doneWatch_only (by decide) (sendJoins_only (by decide) Only.refl))

theorem enterJoin_vane (s : State) : (enterJoin s).vane = { s.vane with staged := none, capFail := none } :=
  ((enterJoin_after_joining s).keeps .vane (by decide)).trans (joining_vane s)

theorem enterJoin_errDrv (s : State) : (enterJoin s).pins.errDrv = false :=
  congrArg Pins.errDrv ((enterJoin_after_joining s).keeps .pins (by decide))

theorem enterJoin_start (s : State) : (enterJoin s).aon.failCnt = 0
    ∧ if s.aon.excluded then (enterJoin s).aon.phase = .excluded
      else (enterJoin s).aon.phase = .join ∨ (enterJoin s).aon.phase = .serve := by
  rw [enterJoin_eq]
  split
  case isTrue => exact ⟨by simp [enterPhase, joining_failCnt], by simp⟩
  case isFalse =>
    have hjoin := joinRecheck_in_join (s := doneWatch (sendJoins (joining s))) (by simp [joining_phase])
    exact ⟨hjoin.2.trans (by simp [joining_failCnt]), hjoin.1⟩

/-! ## A load that passes (R131) -/

/-- The fabric as a load that passes leaves it. -/
def loadedVane (x : List Byte × Nat) (v : Vane) : Vane :=
  let st : VaneSt := if shEmpty (x.1.take 128) || v.disabled then .unloaded else .running
  { v.clear st with
    frames := if st = .running then loadRecs x.1.length (x.1.drop 128) [] else []
    flops := if st = .running then initFlops (loadRecs x.1.length (x.1.drop 128) []) (List.range 64) [] else []
    hdr := x.1.take 128, lastSub := 0, buildId := x.2, measure := Config.sha384 x.1
    vpEnable := if st = .running then shVp (x.1.take 128) else 0
    vioEnable := if st = .running then shVio (x.1.take 128) else 0 }

/-- The load has passed, with its VANE_LOADED record, and CFG_ERR_N is released. -/
def loaded (x : List Byte × Nat) (s : State) : State :=
  logInfo 0x0801 0x0C 0xFF [x.2] { s with vane := loadedVane x s.vane, pins := { s.pins with errDrv := false } }

@[simp] theorem loaded_aon (x : List Byte × Nat) (s : State) : (loaded x s).aon = s.aon := StartCerts.logInfo_aon ..

@[simp] theorem loaded_vane (x : List Byte × Nat) (s : State) : (loaded x s).vane = loadedVane x s.vane := logInfo_vane ..

theorem loadPass_eq (x : List Byte × Nat) (s : State) :
    loadPass x s = if s.aon.phase = .vane then enterJoin (phaseExit 0 (loaded x s)) else loaded x s := by
  rw [← loaded_aon x s]
  rfl

/-- Whether or not PH_JOIN follows, the fabric is as the load has left it, apart from the sections that wait. -/
theorem loadPass_vane (x : List Byte × Nat) (s : State) :
    ∃ st cap, (loadPass x s).vane = { loadedVane x s.vane with staged := st, capFail := cap } := by
  have hexit : (phaseExit 0 (loaded x s)).vane = loadedVane x s.vane :=
    ((phaseExit_only 0 (List.Subset.refl _) Only.refl).keeps .vane (by decide)).trans (loaded_vane x s)
  rw [loadPass_eq]
  split
  case isTrue => exact ⟨_, _, by rw [enterJoin_vane, hexit]⟩
  case isFalse => exact ⟨_, _, loaded_vane x s⟩

theorem loadPass_errDrv (x : List Byte × Nat) (s : State) : (loadPass x s).pins.errDrv = false := by
  rw [loadPass_eq]
  split
  case isTrue => exact enterJoin_errDrv _
  case isFalse => exact congrArg Pins.errDrv (logInfo_pins ..)

/-! ## What the end of a load does (R130, R131) -/

section Loads

variable {x : List Byte × Nat} {s : State}

theorem vaneLoadDone_fails (hst : s.vane.st = .loading) (hload : s.vane.loading = some x) (hbad : stagedOk x.1 = false)
    (hphase : s.aon.phase ≠ .vane) : Answers .vaneLoadDone s fun t =>
      t.vane.st = .failed ∧ t.vane.lastSub = 8 ∧ KeepsBut [.vane, .log, .link, .out] s t := by
  obtain ⟨hvane, -, hkeeps⟩ := vaneLoadFail_outside (sub := 0x08) hphase
  have hexec := exec_vaneLoadDone hst hload
  rw [hbad, if_neg Bool.false_ne_true] at hexec
  exact ⟨_, hexec, congrArg Vane.st hvane, congrArg Vane.lastSub hvane, hkeeps⟩

theorem vaneLoadDone_passes (hst : s.vane.st = .loading) (hload : s.vane.loading = some x) (hok : stagedOk x.1 = true) :
    Answers .vaneLoadDone s fun t =>
      t.vane.st = (if shEmpty (x.1.take 128) || s.vane.disabled then .unloaded else .running) ∧ t.vane.hdr = x.1.take 128
      ∧ t.vane.frames = (if t.vane.st = .running then loadRecs x.1.length (x.1.drop 128) [] else [])
      ∧ t.vane.lastSub = 0 ∧ t.vane.buildId = x.2 ∧ t.vane.measure = Config.sha384 x.1 ∧ t.pins.errDrv = false
      ∧ (s.aon.phase ≠ .vane → KeepsBut [.vane, .pins, .log, .link, .out] s t)
      ∧ (s.aon.phase = .vane → t.aon.failCnt = 0
        ∧ (if s.aon.excluded then t.aon.phase = .excluded else t.aon.phase = .join ∨ t.aon.phase = .serve)) := by
  have hexec := exec_vaneLoadDone hst hload
  rw [hok, if_pos rfl] at hexec
  obtain ⟨st, cap, hvane⟩ := loadPass_vane x s
  refine ⟨_, hexec, ?_⟩
  dsimp only
  rw [hvane]
  refine ⟨rfl, rfl, rfl, rfl, rfl, rfl, loadPass_errDrv x s, fun hphase => ?outside, fun hphase => ?inVane⟩
  case outside =>
    rw [loadPass_eq, if_neg hphase]
    exact (logInfo_only _ _ _ _ (by decide) (Only.atPinsVane (by decide) (by decide) Only.refl)).keeps
  case inVane =>
    have hjoin := enterJoin_start (phaseExit 0 (loaded x s))
    rw [StartCerts.phaseExit_aon, loaded_aon] at hjoin
    rw [loadPass_eq, if_pos hphase]
    exact hjoin

theorem vanePllLockTimeout_fails (hst : s.vane.st = .loading) (hphase : s.aon.phase ≠ .vane) : Answers .vanePllLockTimeout s fun t =>
    t.vane.st = .failed ∧ t.vane.lastSub = 0x0C ∧ t.log = (logUe .unit 0x0802 0x0C 0xFF [0x0C] s).log
      ∧ KeepsBut [.vane, .log, .link, .out] s t := by
  obtain ⟨hvane, hlog, hkeeps⟩ := vaneLoadFail_outside (sub := 0x0C) hphase
  exact ⟨_, exec_vanePllLockTimeout hst, congrArg Vane.st hvane, congrArg Vane.lastSub hvane, hlog, hkeeps⟩

end Loads

/-! ## Sends and requests (R125, R126) -/

@[simp] theorem startSend_box (off : Nat) (s : State) (k : Nat) : (startSend off s).box k = s.box k := rfl

section Sends

variable {s : State}

@[simp] theorem sendOn_vane (msg : Nat → Msg) (l : List Nat) (s : State) : (sendOn msg l s).vane = s.vane :=
  (sendOn_only msg l (List.Subset.refl _) Only.refl).keeps .vane (by decide)

/-- The messages leave in the order of the ports; the newest stands first. -/
theorem sendOn_sent (msg : Nat → Msg) (l : List Nat) : ∀ s : State, (sendOn msg l s).out.sent = (l.map msg).reverse ++ s.out.sent := by
  induction l with
  | nil => exact fun s => rfl
  | cons k l ih =>
    intro s
    rw [sendOn, ih, List.map_cons, List.reverse_cons, List.append_assoc]
    rfl

theorem exec_streamSent (h : s.vane.sending = true) : exec .streamSent s = .next (completeAwait (fun a => a = .streamSend) { status := 0 }
    (logInfo 0x0805 0x00 0 [] { s with vane := { s.vane with sending := false, samples := s.vane.samples + 1 } })) :=
  congrArg Host.Outcome.next (if_pos h)

/-- CFG_ERR_N has been sampled once more. -/
def sampled (s : State) : State := { s with vane := { s.vane with samples := s.vane.samples - 1 } }

theorem exec_streamErrResend (h : 0 < s.vane.samples) : exec .streamErrResend s = .next
    (if s.errLvl then { s with vane := { s.vane with samples := s.vane.samples - 1, errSends := 0 } }
     else if canSend s && s.vane.errSends < 2 then
       startSend 0 { s with vane := { s.vane with samples := s.vane.samples - 1, errSends := s.vane.errSends + 1 } }
     else sampled s) := congrArg Host.Outcome.next (if_pos h)

theorem exec_streamReqTimer (hreq : s.vane.requesting = true) (hphase : s.aon.phase = .vane) (hhold : s.aon.startSt = .hold) :
    exec .streamReqTimer s = .next (sendStreamReq s) :=
  congrArg Host.Outcome.next (if_pos (by simp [hreq, hphase, hhold]))

/-- A STREAM_REQ has gone out on every other usable port. -/
def relayedReq (port : Fin 7) (slot : Fin 8) (num : BitVec 32) (s : State) : State :=
  sendOn (fun k => .streamReq k slot.val num.toNat) ((usableMesh s).filter (· ≠ port.val))
    { s with vane := { s.vane with relayed := (slot.val, num.toNat) :: s.vane.relayed } }

theorem relayedReq_only (port : Fin 7) (slot : Fin 8) (num : BitVec 32) (s : State) : Only [.vane, .out] s (relayedReq port slot num s) :=
  sendOn_only _ _ (by decide) (Only.atVane (by decide) Only.refl)

theorem relayedReq_vane (port : Fin 7) (slot : Fin 8) (num : BitVec 32) (s : State) :
    (relayedReq port slot num s).vane = { s.vane with relayed := (slot.val, num.toNat) :: s.vane.relayed } := sendOn_vane _ _ _

theorem relayedReq_now (port : Fin 7) (slot : Fin 8) (num : BitVec 32) (s : State) : (relayedReq port slot num s).now = s.now :=
  congrArg (fun a => a.timeNs.toNat) ((relayedReq_only port slot num s).keeps .aon (by decide))

/-- Messages have no bearing on whether slot 0 may send. -/
theorem canSend_relayedReq (port : Fin 7) (slot : Fin 8) (num : BitVec 32) (s : State) : canSend (relayedReq port slot num s) = canSend s := by
  have honly := relayedReq_only port slot num s
  have haon : (relayedReq port slot num s).aon = s.aon := honly.keeps .aon (by decide)
  have hpins : (relayedReq port slot num s).pins = s.pins := honly.keeps .pins (by decide)
  have hclk : (relayedReq port slot num s).clk = s.clk := honly.keeps .clk (by decide)
  have htherm : (relayedReq port slot num s).therm = s.therm := honly.keeps .therm (by decide)
  simp only [canSend, State.released, State.haltLatched, haon, hpins, hclk, htherm, relayedReq_vane]

theorem exec_streamReq {port : Fin 7} {slot : Fin 8} {num : BitVec 32} (hphase : joinPhase s = true ∨ s.aon.phase = .vane)
    (husable : gustUsable s port.val = true) (hslot : slot ≠ s.aon.slot) (hnew : (slot.val, num.toNat) ∉ s.vane.relayed) :
    exec (.streamReq port slot num) s = .next
      (let t := relayedReq port slot num s
       if canSend t && t.vane.lastSend.elim true (fun l => l + 10000000000 ≤ t.now) then startSend 0 t else t) := by
  have hphase' : (joinPhase s || s.aon.phase = .vane) = true := by simpa using hphase
  have hexec : exec (.streamReq port slot num) s = execStreamReq port slot num s := rfl
  rw [hexec, execStreamReq, if_neg (by simp [hphase', husable, hslot, hnew])]
  rfl

end Sends

/-! ## Commands that wait -/

/-- What an event leaves of a mailbox: a command that waits for it is answered. -/
def answered (p : Await → Bool) (r : Reply) (m : Mbx) : Mbx :=
  if m.await.elim false p then { m with await := none, outbox := m.outbox ++ [r] } else m

theorem answered_of_waiting {p : Await → Bool} {m : Mbx} {a : Await} (r : Reply) (h : m.await = some a) (hp : p a = true) :
    answered p r m = { m with await := none, outbox := m.outbox ++ [r] } := if_pos (by rw [h]; exact hp)

/-- A table whose values have been mapped reads as the image of what it read, if its default stays. -/
theorem get_map_value {α : Type} {d : α} {f : α → α} (hd : f d = d) (t : Tab α) (k : Nat) :
    Tab.get d (t.map fun e => (e.1, f e.2)) k = f (Tab.get d t k) := by
  induction t with
  | nil => exact hd.symm
  | cons e t ih =>
    simp only [List.map_cons, Tab.get, ih]
    split <;> rfl

theorem completeAwait_box (p : Await → Bool) (r : Reply) (s : State) (k : Nat) :
    (completeAwait p r s).box k = answered p r (s.box k) := by
  have hmap : (completeAwait p r s).mbx.box = s.mbx.box.map fun e => (e.1, answered p r e.2) :=
    List.map_congr_left fun e _ => by
      unfold answered
      split <;> rfl
  rw [State.box, hmap, get_map_value rfl]
  rfl

/-- A switch of the schedule image does not answer a command that waits for something else. -/
theorem trySwitch_box {s : State} {k : Nat} (h : (s.box k).await ≠ some .schedSwitch) : (trySwitch s).box k = s.box k := by
  have hother : ((s.box k).await.elim false fun a => a = .schedSwitch) ≠ true := by
    cases hawait : (s.box k).await with
    | none => exact Bool.false_ne_true
    | some a => simpa [hawait] using h
  unfold trySwitch
  split
  case h_1 => rfl
  case h_2 =>
    split
    case isTrue => exact (completeAwait_box ..).trans (if_neg hother)
    case isFalse => rfl

/-! ## What the rows of a send do (R125, R126) -/

section SendRows

variable {s : State}

theorem streamSent_answers (hsend : s.vane.sending = true) : Answers .streamSent s fun t =>
    t.vane = { s.vane with sending := false, samples := s.vane.samples + 1 }
      ∧ (∀ k, (s.box k).await = some .streamSend → (t.box k).outbox = (s.box k).outbox ++ [{ status := 0 }] ∧ (t.box k).await = none)
      ∧ KeepsBut [.mbx, .log, .vane, .link, .out] s t := by
  refine ⟨_, exec_streamSent hsend, logInfo_vane .., fun k hwait => ?_,
    (completeAwait_only _ _ (by decide) (logInfo_only _ _ _ _ (by decide) (Only.atVane (by decide) Only.refl))).keeps⟩
  rw [completeAwait_box, logInfo_box, answered_of_waiting _ (by exact hwait) (decide_eq_true rfl)]
  exact ⟨rfl, rfl⟩

theorem streamErrResend_sends (hsample : 0 < s.vane.samples) (herr : s.errLvl = false) (hsend : canSend s = true)
    (hcount : s.vane.errSends < 2) : Answers .streamErrResend s fun t =>
      t.vane.sending = true ∧ t.vane.errSends = s.vane.errSends + 1 ∧ t.out.sent = .stream 0 :: s.out.sent
        ∧ KeepsBut [.vane, .out] s t := by
  have hexec := exec_streamErrResend hsample
  rw [herr, if_neg Bool.false_ne_true, if_pos (by rw [hsend, decide_eq_true hcount]; rfl)] at hexec
  exact ⟨_, hexec, rfl, rfl, rfl, (startSend_only _ (by decide) (Only.atVane (by decide) Only.refl)).keeps⟩

theorem streamReq_answers {port : Fin 7} {slot : Fin 8} {num : BitVec 32} (hphase : joinPhase s = true ∨ s.aon.phase = .vane)
    (husable : gustUsable s port.val = true) (hslot : slot ≠ s.aon.slot) (hnew : (slot.val, num.toNat) ∉ s.vane.relayed) :
    Answers (.streamReq port slot num) s fun t => t.vane.relayed = (slot.val, num.toNat) :: s.vane.relayed
      ∧ (canSend s = true → s.vane.lastSend = none → t.vane.sending = true ∧ t.vane.lastSend = some s.now)
      ∧ KeepsBut [.vane, .out] s t := by
  have hrelayed := congrArg Vane.relayed (relayedReq_vane port slot num s)
  have honly := relayedReq_only port slot num s
  refine ⟨_, exec_streamReq hphase husable hslot hnew, ?_, fun hsend hlast => ?_, ?_⟩ <;> dsimp only
  · split
    · exact hrelayed
    · exact hrelayed
  · rw [if_pos (by rw [canSend_relayedReq, relayedReq_vane, hsend, hlast]; rfl)]
    exact ⟨rfl, congrArg some (relayedReq_now port slot num s)⟩
  · split
    · exact (startSend_only _ (by decide) honly).keeps
    · exact honly.keeps

end SendRows

/-! ## The Vane commands (R138) -/

section Commands

variable {n : Fin 16} {s : State}

theorem exec_vaneStatus (hrun : Runs s n 0x0801) (hexp : (s.box n.val).exp = false) :
    exec (.vaneStatus n) s = .next (replyDone n.val
      [s.vane.st.code, s.vane.lastSub, s.vane.buildId % 2 ^ 32, s.vane.buildId / 2 ^ 32, s.vane.vpEnable.toNat,
        s.vane.vioEnable.toNat % 2 ^ 32, s.vane.vioEnable.toNat / 2 ^ 32, s.vane.discarded, s.vane.poisoned, s.vane.stale]
      ((s.vane.hdr.drop 32).take 32 ++ leBytes 48 s.vane.measure.toNat) (s.freed n)) := by
  have hexec : exec (.vaneStatus n) s = execVaneStatus n s := rfl
  rw [hexec, execVaneStatus, command_run hrun first_none]
  simp only [hexp, Bool.false_eq_true, if_false, List.append_nil]
  rfl

/-- Only slot 0 may send. -/
theorem slot_of_canSend (h : canSend s = true) : s.aon.slot = 0 := by
  simp only [canSend, Bool.and_eq_true, decide_eq_true_eq] at h
  tauto

theorem exec_vaneStreamSend (hrun : Runs s n 0x0802) (hsend : canSend s = true)
    (harg : (s.box n.val).exp = true → (s.box n.val).arg 0 % 65536 = 0) :
    exec (.vaneStreamSend n) s = .next (setAwait n.val .streamSend (replyAccepted n.val
      (startSend (if (s.box n.val).exp then (s.box n.val).arg 0 else 0) (s.freed n)))) := by
  have hexec : exec (.vaneStreamSend n) s = execVaneStreamSend n s := rfl
  have hbad : (s.aon.slot ≠ 0 || ((s.box n.val).exp && (s.box n.val).arg 0 % 65536 ≠ 0)) = false := by
    simpa [slot_of_canSend hsend] using harg
  rw [hexec, execVaneStreamSend, command_run hrun (PinCerts.first_of_passed hbad (by rw [hsend]; rfl))]

theorem vaneStreamSend_sends (hrun : Runs s n 0x0802) (hsend : canSend s = true)
    (harg : (s.box n.val).exp = true → (s.box n.val).arg 0 % 65536 = 0) :
    Answers (.vaneStreamSend n) s fun t => t.vane.sending = true ∧ t.vane.lastSend = some s.now
      ∧ t.out.sent = .stream (if (s.box n.val).exp then (s.box n.val).arg 0 else 0) :: s.out.sent
      ∧ (t.box n.val).await = some .streamSend ∧ (t.box n.val).outbox = (s.box n.val).outbox ++ [{ status := 1 }]
      ∧ KeepsBut [.mbx, .vane, .out] s t := by
  refine ⟨_, exec_vaneStreamSend hrun hsend harg, rfl, rfl, rfl, PinCerts.setAwait_await .., ?_,
    (setAwait_only _ _ (by decide) (replyAccepted_only _ (by decide) (startSend_only _ (by decide)
      (setBox_only _ _ (by decide) Only.refl)))).keeps⟩
  simp [setAwait, replyAccepted, box_reply]

/-- VANE_DISABLE by the state of the fabric and the form of the command. -/
theorem exec_vaneDisable (sending : BitVec 4) (hrun : Runs s n 0x0803) : exec (.vaneDisable n sending) s = .next
    (if s.vane.st = .loading then replyDone n.val [] [] { s.freed n with vane := { s.vane with disabled := true } }
     else if (s.box n.val).exp then replyDone n.val [] []
       (trySwitch { s.freed n with vane := { s.vane.clear .unloaded with
          disabled := true, poisoned := s.vane.poisoned + popcount (sending &&& s.vane.vpEnable) } })
     else disableDone (beginDisable sending (setAwait n.val .vaneDisable (s.freed n)))) := by
  have hexec : exec (.vaneDisable n sending) s = execVaneDisable n sending s := rfl
  rw [hexec, execVaneDisable, command_run hrun first_none]
  rfl

/-- The fabric that VANE_DISABLE leaves. -/
structure Disabled (t : State) : Prop where
  st : t.vane.st = .unloaded
  disabled : t.vane.disabled = true
  vpEnable : t.vane.vpEnable = 0
  vioEnable : t.vane.vioEnable = 0
  frames : t.vane.frames = []

/-- A response or a switch of the schedule image leaves it so. -/
theorem Disabled.of_vane {s t : State} (h : t.vane = s.vane) (hs : Disabled s) : Disabled t := by
  constructor <;> rw [h]
  exacts [hs.st, hs.disabled, hs.vpEnable, hs.vioEnable, hs.frames]

@[simp] theorem completeAwait_vane (p : Await → Bool) (r : Reply) (s : State) : (completeAwait p r s).vane = s.vane := rfl

/-- A table built by writes at the keys of a list. -/
theorem get_foldl_put (f : Nat → Nat) (p : Nat) : ∀ (l : List Nat) (t : Tab Nat),
    Tab.get 0 (l.foldl (fun t q => Tab.put 0 t q (f q)) t) p = if p ∈ l then f p else Tab.get 0 t p
  | [], t => by simp
  | q :: l, t => by
    rw [List.foldl_cons, get_foldl_put f p l, Tab.get_put]
    by_cases hl : p ∈ l <;> by_cases hq : p = q <;> simp [hl, hq]

/-- No port waits: user logic sends no packet on an enabled port, and has no read outstanding there. -/
def NoPortWaits (sending : BitVec 4) (s : State) : Prop :=
  s.vane.ending = [] ∧ ∀ p : Fin 4, s.vane.vpEnable[p] = true → sending[p] = false ∧ s.vaneReads p.val = []

theorem beginDisable_ending {sending : BitVec 4} (h : NoPortWaits sending s) {p : Nat} (hp : p < 4) :
    Tab.get 0 (beginDisable sending s).vane.ending p = 3 := by
  obtain ⟨hend, hquiet⟩ := h
  have hport := hquiet ⟨p, hp⟩
  rw [beginDisable, hend, if_pos List.isEmpty_nil]
  refine (get_foldl_put _ p _ _).trans ?_
  rw [if_pos (List.mem_range.2 hp)]
  cases hen : s.vane.vpEnable.getLsbD p with
  | false => rfl
  | true =>
    obtain ⟨hsend, hreads⟩ := hport hen
    have hsend' : sending.getLsbD p = false := hsend
    simp [hsend', hreads]

/-- The waits of VANE_DISABLE are over. -/
def unloaded (s : State) : State := { s with vane := { s.vane.clear .unloaded with disabled := true } }

theorem unloaded_only (s : State) : Only [.vane] s (unloaded s) := Only.atVane (by decide) Only.refl

@[simp] theorem unloaded_box (s : State) (k : Nat) : (unloaded s).box k = s.box k := rfl

/-- Without waits the fabric is UNLOADED at once, and the command is answered. -/
theorem disableDone_of_quiet {sending : BitVec 4} (h : NoPortWaits sending s) : disableDone (beginDisable sending s) =
    completeAwait (fun a => a = .vaneDisable) { status := 0 }
      (trySwitch (unloaded (beginDisable sending s))) :=
  if_pos (List.all_eq_true.2 fun _ hp => decide_eq_true (beginDisable_ending h (List.mem_range.1 hp)))

theorem beginDisable_box (sending : BitVec 4) (s : State) (k : Nat) : (beginDisable sending s).box k = s.box k := by
  unfold beginDisable
  split <;> rfl

/-- The expert form, or the basic one when no port waits. -/
theorem vaneDisable_at_once {sending : BitVec 4} (hrun : Runs s n 0x0803) (hst : s.vane.st ≠ .loading)
    (h : (s.box n.val).exp = true ∨ NoPortWaits sending s) :
    Answers (.vaneDisable n sending) s fun t =>
      Disabled t ∧ (t.box n.val).outbox.getLast? = some { status := 0 } ∧ KeepsBut [.mbx, .vane, .net] s t := by
  have hexec := exec_vaneDisable sending hrun
  have hfreed : Only [.mbx, .vane, .net] s (s.freed n) := setBox_only _ _ (by decide) Only.refl
  rw [if_neg hst] at hexec
  cases hexp : (s.box n.val).exp
  case true =>
    rw [hexp, if_pos rfl] at hexec
    refine ⟨_, hexec, .of_vane (SelfPortCerts.trySwitch_vane _) ⟨rfl, rfl, rfl, rfl, rfl⟩, ?_,
      (replyDone_only _ _ _ (by decide) (trySwitch_only (by decide) (Only.atVane (by decide) hfreed))).keeps⟩
    rw [PinCerts.replyDone_outbox, List.getLast?_concat]
  case false =>
    have hquiet : NoPortWaits sending (setAwait n.val .vaneDisable (s.freed n)) := h.resolve_left (by simp [hexp])
    rw [hexp, if_neg Bool.false_ne_true, disableDone_of_quiet hquiet] at hexec
    refine ⟨_, hexec, .of_vane (SelfPortCerts.trySwitch_vane _) ⟨rfl, rfl, rfl, rfl, rfl⟩, ?_,
      (completeAwait_only _ _ (by decide) (trySwitch_only (by decide) ((unloaded_only _).after (by decide)
        (beginDisable_only _ (by decide) (setAwait_only _ _ (by decide) hfreed))))).keeps⟩
    have hwaiting : ((unloaded (beginDisable sending (setAwait n.val .vaneDisable (s.freed n)))).box n.val).await = some .vaneDisable := by
      rw [unloaded_box, beginDisable_box, PinCerts.setAwait_await]
    rw [completeAwait_box, trySwitch_box (by rw [hwaiting]; decide), answered_of_waiting _ hwaiting (decide_eq_true rfl), List.getLast?_concat]

end Commands

/-- Settles O25: each clause by the lemma that says what its command does on that path. -/
theorem streamAndLoads : Obligations.StreamAndLoads := by
  refine ⟨?headers, ?sections, ?trailer, ?stop, ?loads, ?sends, ?requests, ?commands⟩
  case headers =>
    intro hdr s hrel
    refine ⟨fun hchain hsync => ?tray, fun hcrc hslot => ?own⟩
    case tray =>
      exact ⟨_, exec_trayHeader hrel hchain hsync, rfl, rfl, chainOut_sent ..,
        (chainOut_only _ _ (by decide) (Only.atAonVane (by decide) (by decide) Only.refl)).keeps⟩
    case own =>
      refine ⟨_, exec_sectionHeader hrel hcrc hslot, rfl, ?_, (chainOut_only _ _ (by decide) (Only.atVane (by decide) Only.refl)).keeps⟩
      rw [chainOut_sent]
      by_cases hmode : capMode s = .forward <;> simp [hmode]
  case sections =>
    intro body hdr s
    refine ⟨fun hpass htray => ⟨fun hjudge => ⟨sectionEnd_stages hpass htray hjudge, sectionEnd_begins_load hpass htray hjudge⟩,
      fun sub => sectionEnd_fails hpass htray, fun sub => sectionEnd_fails_in_vane hpass htray⟩, fun k hpass htray hheld hk => ?forwarded⟩
    rw [exec_sectionEnd_of_forward hpass, publish_of_held (by exact htray) (by exact hheld) hk]
    rfl
  case trailer =>
    intro bytes s hrel hchain hsync hhdr
    refine ⟨fun hown => ?own, trailer_without_section hrel hchain hsync hhdr⟩
    rw [exec_trailer hrel hchain hsync hhdr, if_pos hown]
    rfl
  case stop =>
    intro s
    by_cases hfree : ∀ hdr m, s.vane.passing = some (hdr, m) → m = .forward
    case pos =>
      exact ⟨_, exec_cclkStopTimeout_of_free hfree, rfl, rfl, fun hdr m hpass hm => absurd (hfree hdr m hpass) hm⟩
    case neg =>
      push Not at hfree
      obtain ⟨hdr, m, hpass, hm⟩ := hfree
      obtain ⟨hpassing, hheld, hlog⟩ := captureTruncated_leaves { s with vane := { s.vane with trayHdr := none } }
      refine ⟨_, exec_cclkStopTimeout_of_held hpass hm, hpassing, hheld, fun _ _ _ _ => hlog.trans ?_⟩
      rw [PinCerts.logInfo_log, PinCerts.logInfo_log]
      rfl
  case loads => exact fun x s hst => ⟨vaneLoadDone_fails hst, vaneLoadDone_passes hst, vanePllLockTimeout_fails hst⟩
  case sends =>
    intro s
    refine ⟨streamSent_answers, fun hsample herr => ?errHigh, streamErrResend_sends, fun hreq hphase hhold => ?asked⟩
    case errHigh => rw [exec_streamErrResend hsample, if_pos herr]
    case asked =>
      exact ⟨_, exec_streamReqTimer hreq hphase hhold, sendOn_vane .., sendOn_sent .., (sendStreamReq_only (by decide) Only.refl).keeps⟩
  case requests => exact fun port slot num s => streamReq_answers
  case commands =>
    intro n s
    refine ⟨exec_vaneStatus, vaneStreamSend_sends, fun sending hrun => ⟨fun hst => ?loading, fun hst h => ?atOnce⟩⟩
    case loading => rw [exec_vaneDisable sending hrun, if_pos hst]
    case atOnce =>
      obtain ⟨t, ht, hfabric, hreply, hkeeps⟩ := vaneDisable_at_once hrun hst h
      exact ⟨t, ht, hfabric.st, hfabric.disabled, hfabric.vpEnable, hfabric.vioEnable, hfabric.frames, hreply, hkeeps⟩

end Sys2Proof.StreamCerts
end

section
/-!
PROOF. The statements about the mailboxes, the timestamp and the groups of state that each command may change
(spec/06_windsock_mailbox.md R142, R147, R152, R155): what a doorbell, a claim and a read of AON_TIME_LO do on the path the statement
takes, and for every row of the opcode table the lemma that says which groups its operation changes.
-/
namespace Sys2Proof.MailboxCerts

open Sys2Proof.Machine Sys2Proof.Laws

/-! ## Doorbells (R155) -/

@[simp] theorem enqueue_box (n : Nat) (c : DClass) (s : State) (k : Nat) : (enqueue n c s).box k = s.box k := by
  cases c <;> rfl

section Doorbell

variable {path : Path} {n : Fin 16} {val : Word} {s : State}

/-- The mailbox of a doorbell that is QUEUED (R156). -/
def queuedBox (m : Mbx) (now : Nat) : Mbx :=
  { m with st := .queued, ack := 1, rsp := [], renewed := now, queuedAt := now, taken := m.cmd,
           outbox := [], await := none, job := none, input := [], xferFail := false }

/-- A doorbell that reaches its mailbox meets the three answers in their order. -/
theorem exec_dblMbx (hrel : s.released = true) (hpath : pathReach path n.val = true) :
    exec (.dblMbx path n val) s = .next
      (if s.aon.ready = false then setBox n.val { s.box n.val with ack := 3 } s
      else if val.setWidth 16 ≠ (s.box n.val).token ∨ (s.box n.val).st ≠ .idle then setBox n.val { s.box n.val with ack := 2 } s
      else enqueue n.val (classOf (cmdOpcode (s.box n.val))) (setBox n.val (queuedBox (s.box n.val) s.now) s)) := by
  have hexec : exec (.dblMbx path n val) s = .next (ringBell path n val s) := rfl
  rw [hexec, ringBell]
  simp only [hrel, hpath, Bool.not_true, Bool.or_self, Bool.false_eq_true, if_false, Bool.not_eq_true']
  rfl

theorem exec_dblMbx_of_queued (hrel : s.released = true) (hpath : pathReach path n.val = true) (hready : s.aon.ready = true)
    (htoken : val.setWidth 16 = (s.box n.val).token) (hidle : (s.box n.val).st = .idle) :
    exec (.dblMbx path n val) s =
      .next (enqueue n.val (classOf (cmdOpcode (s.box n.val))) (setBox n.val (queuedBox (s.box n.val) s.now) s)) := by
  rw [exec_dblMbx hrel hpath, if_neg (by simp [hready]), if_neg (by simp [htoken, hidle])]

end Doorbell

/-- Settles O7: the three answers are the three cases of a doorbell that reaches its mailbox. -/
theorem doorbellAcknowledgement : Obligations.DoorbellAcknowledgement := by
  intro path n val s hrel hpath
  refine ⟨fun hready => ?notReady, fun hready hbad => ?refused, fun hready htoken hidle => ?queued⟩
  case notReady => rw [exec_dblMbx hrel hpath, if_pos hready]
  case refused => rw [exec_dblMbx hrel hpath, if_neg (by simp [hready]), if_pos hbad]
  case queued =>
    refine ⟨_, exec_dblMbx_of_queued hrel hpath hready htoken hidle, ?_⟩
    dsimp only
    rw [enqueue_box, box_setBox_self]
    rfl

/-! ## Claims (R147) -/

/-- Tokens rise by 1 from 0x0001 to 0xFFFF and begin again at 0x0001. -/
theorem nextToken_toNat (t : BitVec 16) : (nextToken t).toNat = if t.toNat = 65535 then 1 else t.toNat + 1 := by
  have hlast : t = 0xFFFF ↔ t.toNat = 65535 := by simp [← BitVec.toNat_inj]
  unfold nextToken
  split
  case isTrue h =>
    rw [if_pos (hlast.1 h)]
    rfl
  case isFalse h =>
    have hne : t.toNat ≠ 65535 := mt hlast.2 h
    have hlt := t.isLt
    rw [if_neg hne, BitVec.toNat_add_of_lt (by simpa using (by omega : t.toNat + 1 < 65536))]
    rfl

theorem nextToken_ne_zero (t : BitVec 16) : nextToken t ≠ 0 := by
  intro h
  have hval := nextToken_toNat t
  rw [h] at hval
  split at hval <;> simp at hval

section Claim

variable {path : Path} {n : Fin 16} {val : Word} {s : State}

/-- The mailbox under the lease of a new owner. -/
def claimedBox (m : Mbx) (owner : BitVec 16) (now : Nat) : Mbx :=
  { m with st := .idle, owner := owner, token := nextToken m.tokCtr, tokCtr := nextToken m.tokCtr, renewed := now, ack := 0 }

theorem exec_mbxClaim_of_granted (hrel : s.released = true) (hpath : pathReach path n.val = true) (hfree : (s.box n.val).st = .free)
    (howner : val.setWidth 16 ≠ (0 : BitVec 16)) :
    exec (.mbxClaim path n val) s = .next (setBox n.val (claimedBox (s.box n.val) (val.setWidth 16) s.now) s) :=
  congrArg Host.Outcome.next (if_pos ⟨hrel, hpath, hfree, howner⟩)

theorem exec_mbxClaim_of_discarded (h : (s.box n.val).st ≠ .free ∨ val.setWidth 16 = (0 : BitVec 16)) :
    exec (.mbxClaim path n val) s = .next s :=
  congrArg Host.Outcome.next (if_neg fun ⟨_, _, hfree, howner⟩ => h.elim (· hfree) howner)

end Claim

/-- Settles O9: a granted claim writes the mailbox of the new lease, and a discarded one nothing. -/
theorem claimGrantsLease : Obligations.ClaimGrantsLease := by
  intro path n val s hrel hpath
  refine ⟨fun hfree howner => ⟨_, exec_mbxClaim_of_granted hrel hpath hfree howner, ?_⟩, exec_mbxClaim_of_discarded⟩
  dsimp only
  rw [box_setBox_self]
  exact ⟨rfl, rfl, rfl, rfl, nextToken_toNat _, rfl, nextToken_ne_zero _, fun k hk => by rw [box_setBox, if_neg hk],
    (setBox_only _ _ (List.Subset.refl _) Only.refl).keeps⟩

/-! ## The timestamp (R142) -/

/-- The always-on block answers in every state, and AON_TIME_LO stands at 0x30. -/
theorem busRead_aonTimeLo (s : State) : busRead .bar0 0x30 s =
    { s with aon := { s.aon with timeHi := s.aon.timeNs.extractLsb' 32 32 },
             out := { s.out with readData := s.aon.timeNs.extractLsb' 0 32 } } := by
  have hlow : BitVec.ofNat 32 s.now = s.aon.timeNs.extractLsb' 0 32 := by
    apply BitVec.eq_of_toNat_eq; simp [State.now]
  have hhigh : BitVec.ofNat 32 (s.now / 2 ^ 32) = s.aon.timeNs.extractLsb' 32 32 := by
    apply BitVec.eq_of_toNat_eq; simp [State.now, Nat.shiftRight_eq_div_pow]
  have hread : busRead .bar0 0x30 s =
      readBack (BitVec.ofNat 32 s.now) { s with aon := { s.aon with timeHi := BitVec.ofNat 32 (s.now / 2 ^ 32) } } := rfl
  rw [hread, hlow, hhigh, readBack]

/-- The halves of a count, put together, are the count. -/
theorem extract_halves_append (x : BitVec 64) : x.extractLsb' 32 32 ++ x.extractLsb' 0 32 = x := by
  rw [BitVec.extractLsb'_append_extractLsb'_eq_extractLsb' (show 32 = 0 + 32 from rfl)]
  exact BitVec.extractLsb'_eq_self

/-- Settles O21: the read is one of the register, whose two halves are the count. -/
theorem timeSnapshot : Obligations.TimeSnapshot := by
  intro s hrel
  have hexec : exec .aonTimeLoRead s = .next (busRead .bar0 0x30 s) := congrArg Host.Outcome.next (if_pos hrel)
  rw [busRead_aonTimeLo] at hexec
  exact ⟨_, hexec, rfl, rfl, extract_halves_append s.aon.timeNs, rfl, rfl⟩

/-! ## The groups of every row (R152) -/

/-- Every row completes and changes only its groups: what its own operation changes is what its row of `Instr.touches` lists. -/
theorem exec_only (c : Instr) (s : State) : Answers c s (Only c.touches s) := by
  cases c with
  | registerWrite bus off val full => exact execRegisterWrite_next bus off val full s
  | reservedAccess bus off write => exact execReservedAccess_next bus off write s
  | offlineAccess bus off write => exact execOfflineAccess_next bus off write s
  | aonTimeLoRead => exact execAonTimeLoRead_next s
  | glkTxctrLoRead port => exact execGlkTxctrLoRead_next port s
  | privateTransfer dest write => exact execPrivateTransfer_next dest write s
  | i3cDynamicAddress addr => exact execI3cDynamicAddress_next addr s
  | extest trstN op => exact execExtest_next trstN op s
  | pwrOkRise straps cold => exact execPwrOkRise_next straps cold s
  | pwrOkFall => exact execPwrOkFall_next s
  | trayRstNFall => exact execTrayRstNFall_next s
  | trayRstNRise => exact execTrayRstNRise_next s
  | pkgRstNFall => exact execPkgRstNFall_next s
  | pkgRstNRise => exact execPkgRstNRise_next s
  | perstNFall => exact execPerstNFall_next s
  | perstNRise => exact execPerstNRise_next s
  | pcieLinkUp degraded => exact execPcieLinkUp_next degraded s
  | pcieLinkDown => exact execPcieLinkDown_next s
  | bar2Access off acc => exact execBar2Access_next off acc s
  | xtalFail => exact execXtalFail_next s
  | clkLoss clk => exact execClkLoss_next clk s
  | pllLock pll ok => exact execPllLock_next pll ok s
  | powerGood vpm chan => exact execPowerGood_next vpm chan s
  | pgDeadline vpm chan => exact execPgDeadline_next vpm chan s
  | powerDownStep => exact execPowerDownStep_next s
  | pcmdFrameEnd ack rdata rcrc => exact execPcmdFrameEnd_next ack rdata rcrc s
  | telemetrySweep order => exact execTelemetrySweep_next order s
  | pcmdAlert => exact execPcmdAlert_next s
  | fgrInRegulation cluster => exact execFgrInRegulation_next cluster s
  | droopCluster cluster => exact execDroopCluster_next cluster s
  | droopClusterRelease cluster => exact execDroopClusterRelease_next cluster s
  | droopTileExpiry tile => exact execDroopTileExpiry_next tile s
  | droopRail => exact execDroopRail_next s
  | droopRailDecay => exact execDroopRailDecay_next s
  | sequencerLeaseRenew => exact execSequencerLeaseRenew_next s
  | sequencerLeaseExpiry => exact execSequencerLeaseExpiry_next s
  | watchdogKick => exact execWatchdogKick_next s
  | watchdogTrip => exact execWatchdogTrip_next s
  | firmwareFatal => exact execFirmwareFatal_next s
  | wardenReset => exact execWardenReset_next s
  | pwrStatus n => exact execPwrStatus_next n s
  | clusterGate n => exact execClusterGate_next n s
  | tileBudget n => exact execTileBudget_next n s
  | tileVoltage n => exact execTileVoltage_next n s
  | fuseReadDone ok => exact execFuseReadDone_next ok s
  | bootCopyDone crcOk version => exact execBootCopyDone_next crcOk version s
  | authDone sigOk svn measure => exact execAuthDone_next sigOk svn measure s
  | trainComplete facts => exact execTrainComplete_next facts s
  | phaseBudgetExpiry => exact execPhaseBudgetExpiry_next s
  | holdReport => exact execHoldReport_next s
  | holdRecheck cold => exact execHoldRecheck_next cold s
  | trayDoneChange othersHigh => exact execTrayDoneChange_next othersHigh s
  | doneStable => exact execDoneStable_next s
  | joinRecord port tray slot status map seq => exact execJoinRecord_next port tray slot status map seq s
  | joinRecordTimer => exact execJoinRecordTimer_next s
  | startStatus n => exact execStartStatus_next n s
  | startRetry n => exact execStartRetry_next n s
  | fwSlotStatus n => exact execFwSlotStatus_next n s
  | fwSlotWrite n => exact execFwSlotWrite_next n s
  | fwSlotSelect n => exact execFwSlotSelect_next n s
  | trainId port tray slot fport id ifver => exact execTrainId_next port tray slot fport id ifver s
  | streamSent => exact execStreamSent_next s
  | streamErrResend => exact execStreamErrResend_next s
  | streamReq port slot num => exact execStreamReq_next port slot num s
  | streamReqTimer => exact execStreamReqTimer_next s
  | trayHeader hdr => exact execTrayHeader_next hdr s
  | sectionEnd body => exact execSectionEnd_next body s
  | trailer bytes => exact execTrailer_next bytes s
  | cclkStopTimeout => exact execCclkStopTimeout_next s
  | vaneLoadDone => exact execVaneLoadDone_next s
  | vanePllLockTimeout => exact execVanePllLockTimeout_next s
  | spOpen region sending => exact execSpOpen_next region sending s
  | spOutboundTimeout region ended => exact execSpOutboundTimeout_next region ended s
  | spResponseWaitEnd region => exact execSpResponseWaitEnd_next region s
  | spOpenLong region => exact execSpOpenLong_next region s
  | spWrite addr data fcrc => exact execSpWrite_next addr data fcrc s
  | spFill addr count pattern fcrc => exact execSpFill_next addr count pattern fcrc s
  | spRead addr => exact execSpRead_next addr s
  | spClose region runCrc => exact execSpClose_next region runCrc s
  | spAbort region => exact execSpAbort_next region s
  | spStatus => exact execSpStatus_next s
  | vaneStatus n => exact execVaneStatus_next n s
  | vaneStreamSend n => exact execVaneStreamSend_next n s
  | vaneDisable n sending => exact execVaneDisable_next n sending s
  | pmxPinWrite pin val => exact execPmxPinWrite_next pin val s
  | parkIdle pin => exact execParkIdle_next pin s
  | parkMinExpiry pin => exact execParkMinExpiry_next pin s
  | parkTimeout pin => exact execParkTimeout_next pin s
  | pinGet look => exact execPinGet_next look s
  | pinSetFunction n => exact execPinSetFunction_next n s
  | pinGpio look => exact execPinGpio_next look s
  | mbxClaim path n val => exact execMbxClaim_next path n val s
  | mbxHb path n val => exact execMbxHb_next path n val s
  | mbxRelease path n val => exact execMbxRelease_next path n val s
  | leaseExpiry n => exact execLeaseExpiry_next n s
  | dblMbx path n val => exact execDblMbx_next path n val s
  | commandTake cls fetched => exact execCommandTake_next cls fetched s
  | responsePost post => exact execResponsePost_next post s
  | deadlineExpiry n => exact execDeadlineExpiry_next n s
  | mbxEcho n => exact execMbxEcho_next n s
  | ifInfo n => exact execIfInfo_next n s
  | ticketChallenge n => exact execTicketChallenge_next n s
  | challengeExpiry id => exact execChallengeExpiry_next id s
  | ticketPartition n => exact execTicketPartition_next n s
  | ticketVaultPolicy n => exact execTicketVaultPolicy_next n s
  | ticketSealedPolicy n => exact execTicketSealedPolicy_next n s
  | ticketDebugUnlock n => exact execTicketDebugUnlock_next n s
  | ticketExpertGrant n => exact execTicketExpertGrant_next n s
  | ticketRollback n => exact execTicketRollback_next n s
  | ticketExclusion n => exact execTicketExclusion_next n s
  | ticketCustodyKeys n => exact execTicketCustodyKeys_next n s
  | ticketRevoke n => exact execTicketRevoke_next n s
  | fuseBlowDone verified => exact execFuseBlowDone_next verified s
  | grantLapse which => exact execGrantLapse_next which s
  | partitionGet n => exact execPartitionGet_next n s
  | grantStatus n => exact execGrantStatus_next n s
  | getVersion n => exact execGetVersion_next n s
  | getCapabilities n => exact execGetCapabilities_next n s
  | negotiateAlgorithms n => exact execNegotiateAlgorithms_next n s
  | getDigests n => exact execGetDigests_next n s
  | getCertificate n => exact execGetCertificate_next n s
  | challenge n => exact execChallenge_next n s
  | getMeasurements n => exact execGetMeasurements_next n s
  | measureGet n => exact execMeasureGet_next n s
  | rollbackStatus n => exact execRollbackStatus_next n s
  | galeInject node port sb data => exact execGaleInject_next node port sb data s
  | flitDelivery idx dest addr len => exact execFlitDelivery_next idx dest addr len s
  | promotion idx => exact execPromotion_next idx s
  | linkError link net uncorrectable hit => exact execLinkError_next link net uncorrectable hit s
  | routeBankWrite node off data => exact execRouteBankWrite_next node off data s
  | epochSwitch node => exact execEpochSwitch_next node s
  | epochDrainDone => exact execEpochDrainDone_next s
  | routeDrainLate => exact execRouteDrainLate_next s
  | windowOpen win => exact execWindowOpen_next win s
  | windowClose win late inbound => exact execWindowClose_next win late inbound s
  | netStatus n => exact execNetStatus_next n s
  | schedLoad n struck => exact execSchedLoad_next n struck s
  | routeEpoch n struck => exact execRouteEpoch_next n struck s
  | mcastGroupDefine n id => exact execMcastGroupDefine_next n id s
  | reductionGroupDefine n id tree => exact execReductionGroupDefine_next n id tree s
  | mcastGroupDelete n => exact execMcastGroupDelete_next n s
  | reduceContribution group inst block slot node data first last => exact execReduceContribution_next group inst block slot node data first last s
  | eddyTimeout group inst => exact execEddyTimeout_next group inst s
  | eddyMode n => exact execEddyMode_next n s
  | eddyAbort n => exact execEddyAbort_next n s
  | arrive r => exact execArrive_next r s
  | wait r => exact execWait_next r s
  | acquire r => exact execAcquire_next r s
  | tryAcquire r => exact execTryAcquire_next r s
  | release r => exact execRelease_next r s
  | set r => exact execSet_next r s
  | clear r => exact execClear_next r s
  | add r => exact execAdd_next r s
  | read r => exact execRead_next r s
  | cancelWait r => exact execCancelWait_next r s
  | notify node obj status value => exact execNotify_next node obj status value s
  | lullAlloc n id home => exact execLullAlloc_next n id home s
  | lullFree n => exact execLullFree_next n s
  | getCap tile cap => exact execGetCap_next tile cap s
  | putProfile tile => exact execPutProfile_next tile s
  | trainCtl tile clockGo => exact execTrainCtl_next tile clockGo s
  | putLanemap tile => exact execPutLanemap_next tile s
  | getStatus tile status => exact execGetStatus_next tile status s
  | tileTrainTimeout tile => exact execTileTrainTimeout_next tile s
  | crdyTimeout cluster => exact execCrdyTimeout_next cluster s
  | cerrN cluster => exact execCerrN_next cluster s
  | crdyFall cluster => exact execCrdyFall_next cluster s
  | bondFrame cluster f => exact execBondFrame_next cluster f s
  | sliceStreamCommand cluster sid cmd data => exact execSliceStreamCommand_next cluster sid cmd data s
  | hbmRead src tag static dpa found => exact execHbmRead_next src tag static dpa found s
  | hbmWrite src tag static dpa data found => exact execHbmWrite_next src tag static dpa data found s
  | sliceAccess node port off len write src tag found => exact execSliceAccess_next node port off len write src tag found s
  | refresh mc => exact execRefresh_next mc s
  | maintenanceSlot mc found again written => exact execMaintenanceSlot_next mc found again written s
  | scrub unit => exact execScrub_next unit s
  | sliceUnitRequest node reqs => exact execSliceUnitRequest_next node reqs s
  | zeroFillDone stack => exact execZeroFillDone_next stack s
  | eccwArm path val => exact execEccwArm_next path val s
  | eccwExpiry => exact execEccwExpiry_next s
  | memStatus n => exact execMemStatus_next n s
  | memInterleave n => exact execMemInterleave_next n s
  | scrubConfig n => exact execScrubConfig_next n s
  | pageRetire n => exact execPageRetire_next n s
  | pprRun n ok => exact execPprRun_next n ok s
  | eccInject n => exact execEccInject_next n s
  | addressTranslation point who dva write tag => exact execAddressTranslation_next point who dva write tag s
  | invalidationDone idx => exact execInvalidationDone_next idx s
  | clusterWindowSet cluster base len => exact execClusterWindowSet_next cluster base len s
  | dmaKick src ch tail => exact execDmaKick_next src ch tail s
  | dmaSetup src ch base log2 => exact execDmaSetup_next src ch base log2 s
  | dmaPause src ch => exact execDmaPause_next src ch s
  | dmaResume src ch => exact execDmaResume_next src ch s
  | dmaCancel src ch ring => exact execDmaCancel_next src ch ring s
  | cancelReq src ch req => exact execCancelReq_next src ch req s
  | dmaCopy ch => exact execDmaCopy_next ch s
  | dmaFill ch => exact execDmaFill_next ch s
  | dmaTlbi ch => exact execDmaTlbi_next ch s
  | dmaNop ch => exact execDmaNop_next ch s
  | dmaChunkAck ch idx res => exact execDmaChunkAck_next ch idx res s
  | mmuStatus n => exact execMmuStatus_next n s
  | dmaStatus n => exact execDmaStatus_next n s
  | stepEdge => exact execStepEdge_next s
  | stepOverrun => exact execStepOverrun_next s
  | emit ring => exact execEmit_next ring s
  | submit ring => exact execSubmit_next ring s
  | cancel ring => exact execCancel_next ring s
  | pause ring => exact execPause_next ring s
  | resume ring => exact execResume_next ring s
  | nop ring => exact execNop_next ring s
  | ringSqtail ring val => exact execRingSqtail_next ring val s
  | ringCqhead ring val => exact execRingCqhead_next ring val s
  | pauseHoldExpiry req short => exact execPauseHoldExpiry_next req short s
  | handoffShipped side => exact execHandoffShipped_next side s
  | remoteTokens slot req toks => exact execRemoteTokens_next slot req toks s
  | handoffPathTimeout slot => exact execHandoffPathTimeout_next slot s
  | serveStatus n => exact execServeStatus_next n s
  | tenantSetTenant n => exact execTenantSetTenant_next n s
  | tenantSetRing n => exact execTenantSetRing_next n s
  | tenantSetProgram n home => exact execTenantSetProgram_next n home s
  | tenantSetFramesGrant n => exact execTenantSetFramesGrant_next n s
  | tenantSetFramesFree n => exact execTenantSetFramesFree_next n s
  | poolRatio n peerOk => exact execPoolRatio_next n peerOk s
  | frameZeroed frame => exact execFrameZeroed_next frame s
  | driftCopyDone req => exact execDriftCopyDone_next req s
  | driftRetry req => exact execDriftRetry_next req s
  | driftTtlExpiry req => exact execDriftTtlExpiry_next req s
  | adapterRegister n => exact execAdapterRegister_next n s
  | adapterRemove n => exact execAdapterRemove_next n s
  | driftStatus n => exact execDriftStatus_next n s
  | prefixFlush n => exact execPrefixFlush_next n s
  | draftLoad n => exact execDraftLoad_next n s
  | draftUnload n => exact execDraftUnload_next n s
  | draftLoaded part => exact execDraftLoaded_next part s
  | draftRound part err => exact execDraftRound_next part err s
  | logitPacket slot j vbase logits => exact execLogitPacket_next slot j vbase logits s
  | meeDoorbell src body => exact execMeeDoorbell_next src body s
  | exchExpiry id => exact execExchExpiry_next id s
  | refreshDone sess => exact execRefreshDone_next sess s
  | sealedStatus n => exact execSealedStatus_next n s
  | meeParamsSession n => exact execMeeParamsSession_next n s
  | meeParamsRing n => exact execMeeParamsRing_next n s
  | meeParamsEnd n => exact execMeeParamsEnd_next n s
  | refreshRun n => exact execRefreshRun_next n s
  | vaultOpen n => exact execVaultOpen_next n s
  | vaultClose n => exact execVaultClose_next n s
  | vaultLifeExpiry v => exact execVaultLifeExpiry_next v s
  | vaultRekey v => exact execVaultRekey_next v s
  | vaultRekeyDone v => exact execVaultRekeyDone_next v s
  | drbgReseed n => exact execDrbgReseed_next n s
  | drbgReseedAuto => exact execDrbgReseedAuto_next s
  | drbgExhausted => exact execDrbgExhausted_next s
  | entropyFail => exact execEntropyFail_next s
  | peerSessionPair n => exact execPeerSessionPair_next n s
  | peerSessionResume n => exact execPeerSessionResume_next n s
  | peerSessionClose n => exact execPeerSessionClose_next n s
  | cxHello sess peer => exact execCxHello_next sess peer s
  | cxFinish sess sig => exact execCxFinish_next sess sig s
  | cxBatch tag round seq base count last payload => exact execCxBatch_next tag round seq base count last payload s
  | cxAck tag round => exact execCxAck_next tag round s
  | cxPre tag count => exact execCxPre_next tag count s
  | cxClose tag => exact execCxClose_next tag s
  | cxAbort tag => exact execCxAbort_next tag s
  | cxBatchPost cluster sess round dva len tuples => exact execCxBatchPost_next cluster sess round dva len tuples s
  | cxRoundTimeout sess => exact execCxRoundTimeout_next sess s
  | cxSuspendTimeout sess => exact execCxSuspendTimeout_next sess s
  | gustBlock port blk => exact execGustBlock_next port blk s
  | replayTimeout port => exact execReplayTimeout_next port s
  | handshake port peer => exact execHandshake_next port peer s
  | linkLull port lseq msgs => exact execLinkLull_next port lseq msgs s
  | rekey port chan epoch ack => exact execRekey_next port chan epoch ack s
  | ready port epoch => exact execReady_next port epoch s
  | leave port pkg => exact execLeave_next port pkg s
  | trainStepTimeout port => exact execTrainStepTimeout_next port s
  | probationEnd ut inst pass step => exact execProbationEnd_next ut inst pass step s
  | portAutoRetrain port => exact execPortAutoRetrain_next port s
  | sealedFrame port chan epoch ctr tag sb data => exact execSealedFrame_next port chan epoch ctr tag sb data s
  | rekeyRequest port chan => exact execRekeyRequest_next port chan s
  | rekeyRetry port chan => exact execRekeyRetry_next port chan s
  | sealedHold port chan => exact execSealedHold_next port chan s
  | sealedDown port chan => exact execSealedDown_next port chan s
  | cxlDown n cause => exact execCxlDown_next n cause s
  | cxlPoison page => exact execCxlPoison_next page s
  | devloadOverload n => exact execDevloadOverload_next n s
  | devloadEnd n => exact execDevloadEnd_next n s
  | completionTimeout path => exact execCompletionTimeout_next path s
  | quarantineEnd path => exact execQuarantineEnd_next path s
  | completionArrival path outstanding => exact execCompletionArrival_next path outstanding s
  | glkClear path val => exact execGlkClear_next path val s
  | linkStatus n => exact execLinkStatus_next n s
  | linkRetrain n => exact execLinkRetrain_next n s
  | linkRekey n => exact execLinkRekey_next n s
  | linkOffline n => exact execLinkOffline_next n s
  | cxlStatus n => exact execCxlStatus_next n s
  | bar2Window n => exact execBar2Window_next n s
  | thWarnAssert sensor => exact execThWarnAssert_next sensor s
  | thWarnRelease sensor => exact execThWarnRelease_next sensor s
  | thermalLevelTick target => exact execThermalLevelTick_next target s
  | thHalt sensor => exact execThHalt_next sensor s
  | resumeChange sensor below80 => exact execResumeChange_next sensor below80 s
  | thResume => exact execThResume_next s
  | thSensorFault sensor => exact execThSensorFault_next sensor s
  | thsStart path val => exact execThsStart_next path val s
  | conversionDone temps => exact execConversionDone_next temps s
  | thermalRead n => exact execThermalRead_next n s
  | thermalStatus n => exact execThermalStatus_next n s
  | logCommit retries sector spare eraseCount => exact execLogCommit_next retries sector spare eraseCount s
  | evlAck path val => exact execEvlAck_next path val s
  | routerUe node => exact execRouterUe_next node s
  | meeUe group => exact execMeeUe_next group s
  | logRead n => exact execLogRead_next n s
  | logStatus n => exact execLogStatus_next n s
  | unitStatus n => exact execUnitStatus_next n s
  | unitReturn n => exact execUnitReturn_next n s
  | unitOffline n => exact execUnitOffline_next n s
  | sectionHeader hdr => exact execSectionHeader_next hdr s
  | droopTileOneCluster cluster => exact execDroopTileOneCluster_next cluster s
  | pam4EqualisationDone port => exact execPam4EqualisationDone_next port s
  | tclkOk tile => exact execTclkOk_next tile s
  | crdyRise cluster => exact execCrdyRise_next cluster s
  | laneTestDone cluster step ident faults => exact execLaneTestDone_next cluster step ident faults s
  | configurationWrite w => exact execConfigurationWrite_next w s
  | controllerFault mc => exact execControllerFault_next mc s
  | handoffPageRequest slot req part cls pages same => exact execHandoffPageRequest_next slot req part cls pages same s
  | handoffPageGrant req granted same => exact execHandoffPageGrant_next req granted same s
  | remoteCancelConfirm req => exact execRemoteCancelConfirm_next req s

/-- No row may change the commands that wait (R9). -/
theorem pending_notMem_touches (c : Instr) : Group.pending ∉ c.touches := by
  have hrow : c.touches.contains .pending = false := by cases c <;> rfl
  simpa using hrow

/-- Settles O3: each row by the lemma of its operation; the queue is in no row's list. -/
theorem commandsTouchTheirGroups : Obligations.CommandsTouchTheirGroups := by
  intro c s
  obtain ⟨t, hexec, honly⟩ := exec_only c s
  exact ⟨t, hexec, honly.keeps, honly.keeps .pending (pending_notMem_touches c)⟩

end Sys2Proof.MailboxCerts
end

section
/-!
PROOF. The forms that every step keeps (spec/07_two_party_protection.md R188 to R190, spec/11_memory_and_ecc.md R281,
spec/19_faults_and_recovery.md R501): the memory and the event ring by the lemma of each row, the fuses by the checks of the two tickets
that begin a run and by what a blown fuse and PH_FUSE do.
-/
namespace Sys2Proof.ProtectionCerts

open Sys2Proof.Machine Sys2Proof.Laws Sys2Proof.Scope

/-! ## Accepted tickets (R179, R180, Table TP-5) -/

/-- What an accepted ticket has met, of the checks that bound its effect. -/
structure Passed (s : State) (m : Mbx) : Prop where
  payload : payloadOk m.input = true
  constraint : constraintOk s m.input = true
  free : ticketBusy s m.input = false
  room : ticketStuck s m.input = none

/-- A check that has not failed leaves those behind it. -/
theorem none_of_check {α : Type} {c : Prop} [Decidable c] {x : α} {rest : Option α} :
    (if c then some x else rest) = none ↔ ¬ c ∧ rest = none := by
  by_cases h : c <;> simp [h]

theorem passed_of_ticketStatus {s : State} {n : Nat} {m : Mbx} (h : ticketStatus s n m = none) : Passed s m := by
  simp only [ticketStatus, none_of_check, Bool.not_eq_true, Bool.not_eq_false', Option.map_eq_none_iff] at h
  obtain ⟨-, -, -, -, -, -, -, -, -, hpayload, hconstraint, hbusy, hstuck⟩ := h
  exact ⟨hpayload, hconstraint, hbusy, hstuck⟩

theorem ticket_of_accepted {k n : Nat} {s : State} (apply : List Byte → State → State) (hjob : (s.box n).job = some 0x0202)
    (hset : tkSetting (s.box n).input = k) (hst : ticketStatus s n (s.box n) = none) :
    ticket k n apply s = replyDone n [] [] (ticketRecord (s.box n).input (consume (tkChal (s.box n).input)
      (apply (s.box n).input (setBox n { s.box n with job := none } s)))) := by
  simp only [ticket, hjob, hset, hst, and_self, if_true]

theorem ticket_of_other {k n : Nat} {s : State} (apply : List Byte → State → State)
    (h : ¬ ((s.box n).job = some 0x0202 ∧ tkSetting (s.box n).input = k)) : ticket k n apply s = s := if_neg h

@[simp] theorem ticketRecord_prot (b : List Byte) (s : State) : (ticketRecord b s).prot = s.prot :=
  (ticketRecord_only b (List.Subset.refl _) Only.refl).keeps .prot (by decide)

@[simp] theorem logInfo_prot (code ut inst : Nat) (d : List Nat) (s : State) : (logInfo code ut inst d s).prot = s.prot :=
  (logInfo_only code ut inst d (List.Subset.refl _) Only.refl).keeps .prot (by decide)

@[simp] theorem replyDone_prot (n : Nat) (res : List Nat) (data : List Byte) (s : State) : (replyDone n res data s).prot = s.prot := rfl

/-! ## The fuses (R188, R190) -/

/-- The bounds of the fuses go on to hold, and no counter falls. -/
def FusesRise (p q : Prot) : Prop := p.fusesOk → q.fusesOk ∧ ∀ i : Fin 8, p.counters[i] ≤ q.counters[i]

theorem fusesRise_of_same {p q : Prot} (hc : q.counters = p.counters) (hr : q.run = p.run) : FusesRise p q := by
  intro h
  simp only [Prot.fusesOk, hc, hr]
  exact ⟨h, fun _ => le_rfl⟩

theorem fusesRise_of_keeps {gs : List Group} {s t : State} (h : KeepsBut gs s t) (hg : Group.fuses ∉ gs) : FusesRise s.prot t.prot := by
  obtain ⟨hc, hr⟩ : t.prot.counters = s.prot.counters ∧ t.prot.run = s.prot.run := h .fuses hg
  exact fusesRise_of_same hc hr

/-- A run may begin at a target above its counter. -/
theorem fusesRise_of_begun {p q : Prot} {r : FuseRun} (hc : q.counters = p.counters) (hr : q.run = some r)
    (hlo : p.counters[r.counter] < r.target) (hhi : r.target ≤ 256) : FusesRise p q := by
  rintro ⟨hmax, -⟩
  simp only [Prot.fusesOk, hc, hr, Option.some.injEq, forall_eq']
  exact ⟨⟨hmax, hlo, hhi⟩, fun _ => le_rfl⟩

theorem le_getElem_set (v : Vector Nat 8) (c : Fin 8) {x : Nat} (h : v[c] ≤ x) (i : Fin 8) : v[i] ≤ (v.set c x)[i] := by
  simp only [Fin.getElem_fin, Vector.getElem_set]
  split
  · simp_all
  · exact le_rfl

theorem getElem_set_le (v : Vector Nat 8) (c : Fin 8) {x b : Nat} (hx : x ≤ b) (hv : ∀ i : Fin 8, v[i] ≤ b) (i : Fin 8) :
    (v.set c x)[i] ≤ b := by
  simp only [Fin.getElem_fin, Vector.getElem_set]
  split
  · exact hx
  · exact hv i

/-- The counter of the pending run may rise, at most to the target, at which the run ends. -/
theorem fusesRise_of_blown {p q : Prot} {r : FuseRun} {x : Nat} (hp : p.run = some r) (hc : q.counters = p.counters.set r.counter x)
    (hx : p.counters[r.counter] < r.target → p.counters[r.counter] ≤ x ∧ x ≤ r.target)
    (hr : q.run = none ∨ (x < r.target ∧ ∃ k, q.run = some { r with tries := k })) : FusesRise p q := by
  rintro ⟨hmax, hrun⟩
  obtain ⟨hlo, hhi⟩ := hrun r hp
  obtain ⟨hle, hxt⟩ := hx hlo
  simp only [Prot.fusesOk, hc]
  refine ⟨⟨getElem_set_le _ _ (hxt.trans hhi) hmax, fun y hy => ?_⟩, le_getElem_set _ _ hle⟩
  rcases hr with hr | ⟨hlt, k, hr⟩
  · simp [hr] at hy
  · obtain rfl : { r with tries := k } = y := Option.some.inj (hr.symm.trans hy)
    simpa using ⟨hlt, hhi⟩

/-- A ticket writes the fuses as what it applies does, once accepted. -/
theorem fusesRise_ticket {k n : Nat} {s : State} (apply : List Byte → State → State)
    (h : ∀ t : State, t.prot = s.prot → tkSetting (s.box n).input = k → Passed s (s.box n) →
      FusesRise s.prot (apply (s.box n).input t).prot) : FusesRise s.prot (ticket k n apply s).prot := by
  by_cases hmine : (s.box n).job = some 0x0202 ∧ tkSetting (s.box n).input = k
  · obtain ⟨hjob, hset⟩ := hmine
    cases hst : ticketStatus s n (s.box n) with
    | some x =>
      rw [ticket_of_refused apply hjob hset hst]
      exact fusesRise_of_same (by simp [ticketRefused_prot]) (by simp [ticketRefused_prot])
    | none =>
      rw [ticket_of_accepted apply hjob hset hst, replyDone_prot, ticketRecord_prot, consume_prot]
      exact h _ rfl hset (passed_of_ticketStatus hst)
  · rw [ticket_of_other apply hmine]
    exact fusesRise_of_same rfl rfl

theorem firstFail_pair {a b : Bool} {x y : Nat} : firstFail [failIf a x, failIf b y] = none ↔ a = false ∧ b = false := by
  cases a <;> cases b <;> simp [firstFail, failIf]

/-- A counter by its number. -/
theorem counter_eq (s : State) (i : Fin 8) : counter s i.val = s.prot.counters[i] := by
  simp [counter, List.getD_eq_getElem?_getD]

/-- The counter that a ROLLBACK ticket names. -/
def tkCounter (b : List Byte) : Fin 8 := ⟨payB b 0 % 8, Nat.mod_lt _ (by decide)⟩

theorem tkCounter_val {s : State} {m : Mbx} (hset : tkSetting m.input = 6) (h : Passed s m) : (tkCounter m.input).val = payB m.input 0 := by
  have hpay := h.payload
  simp only [payloadOk, hset, Bool.and_eq_true, decide_eq_true_eq] at hpay
  exact Nat.mod_eq_of_lt hpay.2

/-- R189: the target of an accepted ROLLBACK ticket lies above its counter and at 256 at most. -/
theorem rollback_target {s : State} {m : Mbx} (hset : tkSetting m.input = 6) (h : Passed s m) :
    s.prot.counters[tkCounter m.input] < tkTarget m.input ∧ tkTarget m.input ≤ 256 := by
  have hcon := h.constraint
  have hroom := h.room
  rw [← counter_eq, tkCounter_val hset h]
  simp only [constraintOk, ticketStuck, hset, firstFail_pair] at hcon hroom
  simp only [Bool.and_eq_true, Bool.or_eq_true, decide_eq_true_eq] at hcon
  obtain ⟨-, hfull | ⟨⟨hlo, hhi⟩, -⟩⟩ := hcon
  · exact absurd hfull (of_decide_eq_false hroom.2)
  · exact ⟨hlo, hhi⟩

/-- An accepted CUSTODY_KEYS ticket finds KEYGEN below 256. -/
theorem keygen_ne_full {s : State} {m : Mbx} (hset : tkSetting m.input = 8) (h : Passed s m) : s.prot.counters[(1 : Fin 8)] ≠ 256 := by
  have hroom := h.room
  simp only [ticketStuck, hset, firstFail_pair] at hroom
  rw [← counter_eq]
  exact of_decide_eq_false hroom.2

theorem fusesRise_rollback (n : Nat) (s : State) : FusesRise s.prot (ticket 6 n applyRollback s).prot := by
  refine fusesRise_ticket applyRollback fun t ht hset hpass => ?_
  obtain ⟨hlo, hhi⟩ := rollback_target hset hpass
  have hcounters : (applyRollback (s.box n).input t).prot.counters = s.prot.counters := by rw [← ht]; rfl
  exact fusesRise_of_begun hcounters rfl hlo hhi

theorem fusesRise_custodyKeys (n : Nat) (s : State) : FusesRise s.prot (ticket 8 n applyCustodyKeys s).prot := by
  refine fusesRise_ticket applyCustodyKeys fun t ht hset hpass hok => ?_
  have hcounters : (applyCustodyKeys (s.box n).input t).prot.counters = s.prot.counters := by rw [← ht]; rfl
  have hroom : s.prot.counters[1] < 256 := lt_of_le_of_ne (hok.1 1) (keygen_ne_full hset hpass)
  refine fusesRise_of_begun hcounters rfl ?_ ?_ hok <;> dsimp only <;> rw [ht]
  · exact Nat.lt_succ_self _
  · exact hroom

theorem fusesRise_completeRun (s : State) : FusesRise s.prot (completeRun s).prot := by
  unfold completeRun
  split
  case h_1 => exact fusesRise_of_same rfl rfl
  case h_2 r hrun =>
    rw [logInfo_prot]
    exact fusesRise_of_blown hrun rfl (fun hlo => ⟨hlo.le, le_rfl⟩) (.inl rfl)

/-- The groups that PH_FUSE may write beside the fuses. -/
def fuseReadGroups : List Group := (Instr.fuseReadDone true).touches.erase .fuses

/-- What PH_FUSE does after the pending run is completed leaves the fuses as they are. -/
theorem fuseReadDone_after_completeRun (ok : Bool) {s : State} (hphase : inPhase .fuse s = true) :
    ∃ t, exec (.fuseReadDone ok) s = .next t ∧ Only fuseReadGroups (completeRun s) t := by
  refine ⟨_, congrArg Host.Outcome.next (if_pos hphase), ?_⟩
  dsimp only
  have hread : Only fuseReadGroups (completeRun s) (readStartRecord (orphanNote (completeRun s))) :=
    readStartRecord_only (by decide) (orphanNote_only (by decide) Only.refl)
  have hchain := Only.atStart (v0 := { (readStartRecord (orphanNote (completeRun s))).start with chain := true }) (by decide) hread
  split
  · exact enterDoldrums_only _ (by decide) (phaseExit_only _ (by decide) hchain)
  split
  · exact failStart_only _ (by decide) hchain
  split
  · exact failStart_only _ (by decide) hchain
  · exact enterBoot_only _ (by decide) (Only.atStart (by decide) (applySliceRepairs_only (by decide) (phaseExit_only _ (by decide)
      (harvestAll_only _ _ (by decide) (harvestAll_only _ _ (by decide) hchain)))))

theorem FusesRise.trans_same {p q r : Prot} (h : FusesRise p q) (k : r.counters = q.counters ∧ r.run = q.run) : FusesRise p r := by
  intro hp
  obtain ⟨hq, hle⟩ := h hp
  simpa only [Prot.fusesOk, k.1, k.2] using And.intro hq hle

theorem fusesRise_fuseRead {ok : Bool} {s t : State} (h : exec (.fuseReadDone ok) s = .next t) : FusesRise s.prot t.prot := by
  by_cases hphase : inPhase .fuse s = true
  · obtain ⟨u, hu, honly⟩ := fuseReadDone_after_completeRun ok hphase
    obtain rfl : u = t := Host.Outcome.next.inj (hu.symm.trans h)
    exact (fusesRise_completeRun s).trans_same (honly.keeps .fuses (by decide))
  · obtain rfl : s = t := Host.Outcome.next.inj ((congrArg Host.Outcome.next (if_neg hphase)).symm.trans h)
    exact fusesRise_of_same rfl rfl

/-- R190: a fuse that counts as blown raises its counter by one; at the target the run ends and its stored keys become valid. -/
def blown (r : FuseRun) (p : Prot) : Prot :=
  let q := { p with counters := p.counters.set r.counter (p.counters[r.counter] + 1) }
  if r.target ≤ p.counters[r.counter] + 1 then { q with run := none, custody := if r.keys.isSome then r.keys else p.custody }
  else { q with run := some { r with tries := 0 } }

theorem blown_counters (r : FuseRun) (p : Prot) : (blown r p).counters = p.counters.set r.counter (p.counters[r.counter] + 1) := by
  unfold blown
  split <;> rfl

theorem blown_of_reached {r : FuseRun} {p : Prot} (h : r.target ≤ p.counters[r.counter] + 1) :
    (blown r p).run = none ∧ (blown r p).custody = if r.keys.isSome then r.keys else p.custody := by
  simp only [blown, h, if_true, and_self]

theorem blown_of_short {r : FuseRun} {p : Prot} (h : ¬ r.target ≤ p.counters[r.counter] + 1) :
    (blown r p).run = some { r with tries := 0 } ∧ (blown r p).custody = p.custody := by
  simp only [blown, h, if_false, and_self]

theorem exec_fuseBlowDone_of_counted {v : Bool} {s : State} {r : FuseRun} (hrun : s.prot.run = some r) (hv : v = true ∨ 2 ≤ r.tries) :
    exec (.fuseBlowDone v) s = .next { s with prot := blown r s.prot } := by
  have hcount : (v || decide (2 ≤ r.tries)) = true := by simpa using hv
  have hexec : exec (.fuseBlowDone v) s = execFuseBlowDone v s := rfl
  simp only [hexec, execFuseBlowDone, hrun, hcount, if_true, blown]
  split <;> rfl

theorem exec_fuseBlowDone_of_failed {s : State} {r : FuseRun} (hrun : s.prot.run = some r) (hv : r.tries < 2) :
    exec (.fuseBlowDone false) s = .next { s with prot := { s.prot with run := some { r with tries := r.tries + 1 } } } := by
  have hcount : (false || decide (2 ≤ r.tries)) = false := by simpa using hv
  have hexec : exec (.fuseBlowDone false) s = execFuseBlowDone false s := rfl
  simp only [hexec, execFuseBlowDone, hrun, hcount, Bool.false_eq_true, if_false]

theorem exec_fuseBlowDone_of_idle {s : State} (v : Bool) (hrun : s.prot.run = none) : exec (.fuseBlowDone v) s = .next s := by
  have hexec : exec (.fuseBlowDone v) s = execFuseBlowDone v s := rfl
  simp only [hexec, execFuseBlowDone, hrun]

theorem fusesRise_fuseBlow {v : Bool} {s t : State} (h : exec (.fuseBlowDone v) s = .next t) : FusesRise s.prot t.prot := by
  cases hrun : s.prot.run with
  | none =>
    obtain rfl : s = t := Host.Outcome.next.inj ((exec_fuseBlowDone_of_idle v hrun).symm.trans h)
    exact fusesRise_of_same rfl rfl
  | some r =>
    by_cases hv : v = true ∨ 2 ≤ r.tries
    · rw [exec_fuseBlowDone_of_counted hrun hv] at h
      obtain rfl := Host.Outcome.next.inj h
      refine fusesRise_of_blown hrun (blown_counters r s.prot) (fun hlo => ⟨Nat.le_succ _, hlo⟩) ?_
      by_cases hend : r.target ≤ s.prot.counters[r.counter] + 1
      · exact .inl (blown_of_reached hend).1
      · exact .inr ⟨Nat.lt_of_not_le hend, 0, (blown_of_short hend).1⟩
    · obtain ⟨hfail, htries⟩ := not_or.1 hv
      obtain rfl : v = false := by simpa using hfail
      rw [exec_fuseBlowDone_of_failed hrun (Nat.lt_of_not_le htries)] at h
      obtain rfl := Host.Outcome.next.inj h
      intro hok
      obtain ⟨hlo, hhi⟩ := hok.2 r hrun
      exact fusesRise_of_begun rfl rfl hlo hhi hok

/-! ## Every step -/

/-- Only the four rows that name the fuses write them. -/
theorem fusesRise_exec {c : Instr} {s t : State} (h : exec c s = .next t) : FusesRise s.prot t.prot := by
  have hkept (hrow : c.touches.contains .fuses = false) : FusesRise s.prot t.prot := by
    obtain ⟨u, hu, honly⟩ := MailboxCerts.exec_only c s
    obtain rfl : u = t := Host.Outcome.next.inj (hu.symm.trans h)
    exact fusesRise_of_keeps honly.keeps (by simpa using hrow)
  cases c with
  | fuseReadDone ok => exact fusesRise_fuseRead h
  | fuseBlowDone v => exact fusesRise_fuseBlow h
  | ticketRollback n => exact Host.Outcome.next.inj h ▸ fusesRise_rollback n.val s
  | ticketCustodyKeys n => exact Host.Outcome.next.inj h ▸ fusesRise_custodyKeys n.val s
  | _ => exact hkept rfl

/-- Settles O4: the forms of the memory and of the event ring are kept with the groups of the front command, or of a cycle without one; the
fuses are written by four commands, each of which keeps their bounds. -/
theorem invariantsOfEveryStep : Obligations.InvariantsOfEveryStep := by
  intro s t hstep
  cases hq : s.pending with
  | nil =>
    obtain rfl : idle s = t := Host.Outcome.next.inj ((step_of_empty_queue hq).symm.trans hstep)
    have honly : Only _ s (idle s) := idle_only (List.Subset.refl _) Only.refl
    exact ⟨honly.mem, honly.log, fusesRise_of_keeps honly.keeps (by decide)⟩
  | cons c rest =>
    have hexec : exec c { s with pending := rest } = .next t := by rw [← hstep, step, hq]
    obtain ⟨u, hu, honly⟩ := MailboxCerts.exec_only c { s with pending := rest }
    obtain rfl : u = t := Host.Outcome.next.inj (hu.symm.trans hexec)
    exact ⟨honly.mem, honly.log, fusesRise_exec (s := { s with pending := rest }) hexec⟩

end Sys2Proof.ProtectionCerts
end

section
/-!
PROOF. The commands of two-party protection (spec/07_two_party_protection.md R176, R184, R190, R192 to R195): challenges, fuses, lapses,
status and attestation, each from the lemma that says what its command does on the path the statement takes.
-/
namespace Sys2Proof.AttestCerts

open Sys2Proof.Machine Sys2Proof.Laws Sys2Proof.ProtectionCerts

/-- An answer of a command is the one response that it adds to its mailbox. -/
theorem replyDone_outbox_of_freed {n : Fin 16} {s t : State} (h : t.mbx = (s.freed n).mbx) (res : List Nat) (data : List Byte) :
    ((replyDone n.val res data t).box n.val).outbox = (s.box n.val).outbox ++ [{ status := 0x00, res := res, data := data }] := by
  have hbox : t.box n.val = (s.freed n).box n.val := by simp only [State.box, h]
  rw [PinCerts.replyDone_outbox, hbox, box_freed]

/-! ## Challenges (R176) -/

/-- The challenge that TICKET_CHALLENGE issues. -/
def issued (s : State) : Chal := { id := s.prot.nextChal.toNat, nonce := (Config.drbg s.freeCtr).take 32, issued := s.now }

/-- The state in which it is live. -/
def challenged (n : Fin 16) (s : State) : State :=
  drbgDraw { s.freed n with prot := { s.prot with challenges := issued s :: s.prot.challenges, nextChal := s.prot.nextChal + 1 } }

theorem challenged_mbx (n : Fin 16) (s : State) : (challenged n s).mbx = (s.freed n).mbx := rfl

theorem challenged_prot (n : Fin 16) (s : State) : (challenged n s).prot =
    { s.prot with challenges := issued s :: s.prot.challenges, nextChal := s.prot.nextChal + 1 } := rfl

theorem exec_ticketChallenge {n : Fin 16} {s : State} (hrun : Runs s n 0x0201) (hlive : s.prot.challenges.length < 8)
    (hdrbg : drbgDown s = false) :
    exec (.ticketChallenge n) s = .next (replyDone n.val
      ([(issued s).id] ++ ((List.range 8).map fun i => leAt (issued s).nonce (4 * i) 4) ++ [600]) [] (challenged n s)) := by
  have hexec : exec (.ticketChallenge n) s = execTicketChallenge n s := rfl
  have hroom : firstFail [failIf (decide (8 ≤ s.prot.challenges.length)) 0, failIf (drbgDown s) 0x0604] = none :=
    firstFail_pair.2 ⟨decide_eq_false (Nat.not_le.2 hlive), hdrbg⟩
  rw [hexec, execTicketChallenge, command_run hrun (by rw [hroom]; rfl)]
  rfl

theorem ticketChallenge_issues {n : Fin 16} {s : State} (hrun : Runs s n 0x0201) (hlive : s.prot.challenges.length < 8)
    (hdrbg : drbgDown s = false) : Answers (.ticketChallenge n) s fun t =>
      (∃ c, t.prot.challenges = c :: s.prot.challenges ∧ c.id = s.prot.nextChal.toNat ∧ c.issued = s.now
        ∧ (t.box n.val).outbox = (s.box n.val).outbox
          ++ [{ status := 0, res := [c.id] ++ ((List.range 8).map fun i => leAt c.nonce (4 * i) 4) ++ [600] }])
      ∧ t.prot.nextChal = s.prot.nextChal + 1 := by
  refine ⟨_, exec_ticketChallenge hrun hlive hdrbg, ?_⟩
  dsimp only
  rw [replyDone_prot, replyDone_outbox_of_freed (challenged_mbx n s), challenged_prot]
  exact ⟨⟨issued s, rfl, rfl, rfl, rfl⟩, rfl⟩

/-! ## Fuses (R190) -/

theorem fuseBlowDone_counts {v : Bool} {s : State} {r : FuseRun} (hrun : s.prot.run = some r) (hv : v = true ∨ 2 ≤ r.tries) :
    Answers (.fuseBlowDone v) s fun t =>
      t.prot.counters = s.prot.counters.set r.counter (s.prot.counters[r.counter] + 1)
      ∧ (if r.target ≤ s.prot.counters[r.counter] + 1 then
          t.prot.run = none ∧ t.prot.custody = (if r.keys.isSome then r.keys else s.prot.custody)
         else t.prot.run = some { r with tries := 0 } ∧ t.prot.custody = s.prot.custody)
      ∧ KeepsBut [.prot, .fuses] s t := by
  refine ⟨_, exec_fuseBlowDone_of_counted hrun hv, blown_counters r s.prot, ?_, (Only.atFuses (by decide) (by decide) Only.refl).keeps⟩
  split
  case isTrue h => exact blown_of_reached h
  case isFalse h => exact blown_of_short h

/-! ## Lapses (R184) -/

/-- The grant of a path ends with its record; time and slot, which the record carries, stay. -/
theorem lapse_of_path {k : GrantKind} {d : List Nat} {a : Aon} {s : State}
    (h : exec (.grantLapse k) s = .next (logInfo 0x0203 0x00 0 d { s with aon := a })) (htime : a.timeNs = s.aon.timeNs)
    (hslot : a.slot = s.aon.slot) : Answers (.grantLapse k) s fun t =>
      t.aon = a ∧ t.log = (logInfo 0x0203 0x00 0 d s).log ∧ KeepsBut [.aon, .log, .link, .out] s t := by
  refine ⟨_, h, StartCerts.logInfo_aon .., ?_, (logInfo_only _ _ _ _ (by decide) (Only.atAon (by decide) Only.refl)).keeps⟩
  simp only [PinCerts.logInfo_log, State.now, htime, hslot]

theorem setDebug_prot (level : Nat) (ends : Option Nat) (s : State) :
    (setDebug level ends s).prot = { s.prot with debugLevel := level, debugEnd := ends } := by
  unfold setDebug
  dsimp only
  split
  · rfl
  · rw [Scope.logSec_prot]

theorem setDebug_pins (level : Nat) (ends : Option Nat) (s : State) :
    (setDebug level ends s).pins = { s.pins with coreHalt := s.pins.coreHalt && decide (3 ≤ level) } := by
  unfold setDebug
  dsimp only
  split
  · rfl
  · exact (logSec_only _ _ _ _ (List.Subset.refl _) Only.refl).keeps .pins (by decide)

theorem debugUnlock_lapses {s : State} (h : s.prot.debugEnd.isSome = true) : Answers (.grantLapse .debugUnlock) s fun t =>
    t.prot = { s.prot with debugLevel := 0, debugEnd := none } ∧ t.pins = { s.pins with coreHalt := false }
      ∧ KeepsBut [.prot, .pins, .log, .link, .out] s t := by
  have hexec : exec (.grantLapse .debugUnlock) s = .next (logInfo 0x0203 0x00 0 [4] (setDebug 0 none s)) :=
    congrArg Host.Outcome.next (if_pos h)
  refine ⟨_, hexec, ?_, ?_, (logInfo_only _ _ _ _ (by decide) (setDebug_only _ _ (by decide) Only.refl)).keeps⟩
  · rw [logInfo_prot, setDebug_prot]
  · rw [StreamCerts.logInfo_pins, setDebug_pins]
    simp

/-! ## Status commands (R176, R194) -/

section Status

variable {n : Fin 16} {s : State}

theorem first_of_badArg {bad : Bool} (h : bad = false) : ({ badArg := failIf bad 0 } : Checks).first = none := by
  rw [h]
  rfl

theorem exec_partitionGet (hrun : Runs s n 0x0203) (harg : (s.box n.val).arg 0 < 64) :
    exec (.partitionGet n) s = .next (replyDone n.val (two32 (baseOf s 1 ((s.box n.val).arg 0)).toNat)
      (encodePart (if (s.box n.val).arg 0 = 0 then systemPart s else s.part ((s.box n.val).arg 0))) (s.freed n)) := by
  have hexec : exec (.partitionGet n) s = execPartitionGet n s := rfl
  rw [hexec, execPartitionGet, command_run hrun (first_of_badArg (decide_eq_false (Nat.not_le.2 harg)))]
  rfl

theorem exec_grantStatus (hrun : Runs s n 0x0204) :
    exec (.grantStatus n) s = .next (replyDone n.val ([(custodySt s).code, (aonGrant s).toNat, s.prot.debugLevel,
      secondsLeft s.now s.prot.debugEnd] ++ two32 (baseOf s 5 0).toNat ++ two32 (baseOf s 4 0).toNat) [] (s.freed n)) := by
  have hexec : exec (.grantStatus n) s = execGrantStatus n s := rfl
  rw [hexec, execGrantStatus, command_run hrun first_none]
  rfl

theorem exec_rollbackStatus (hrun : Runs s n 0x0207) :
    exec (.rollbackStatus n) s = .next (replyDone n.val (s.prot.counters.toList ++ [s.prot.run.elim 0 fun r => 2 ^ 31 + r.target])
      (leBytes 8 (baseOf s 6 0).toNat) (s.freed n)) := by
  have hexec : exec (.rollbackStatus n) s = execRollbackStatus n s := rfl
  rw [hexec, execRollbackStatus, command_run hrun first_none]
  rfl

theorem exec_measureGet (hrun : Runs s n 0x0206) (harg : (s.box n.val).arg 0 ≤ 12) :
    exec (.measureGet n) s = .next (replyDone n.val []
      (if (s.box n.val).arg 0 = 0 then (measureBlocks s).flatMap (leBytes 48)
        else leBytes 48 (measureBlock s ((s.box n.val).arg 0)).toNat) (s.freed n)) := by
  have hexec : exec (.measureGet n) s = execMeasureGet n s := rfl
  rw [hexec, execMeasureGet, command_run hrun (first_of_badArg (decide_eq_false (Nat.not_lt.2 harg)))]
  rfl

end Status

/-! ## Attestation (R192 to R195) -/

/-- The command of each request of R192. -/
def spdmCommands (n : Fin 16) : List (Nat × Instr) :=
  [(0x84, .getVersion n), (0xE1, .getCapabilities n), (0xE3, .negotiateAlgorithms n), (0x81, .getDigests n), (0x82, .getCertificate n),
    (0x83, .challenge n), (0xE0, .getMeasurements n)]

theorem exec_spdmCommands (n : Fin 16) (s : State) : ∀ c ∈ spdmCommands n, exec c.2 s = .next (spdm c.1 n.val s) := by
  simp only [spdmCommands, List.forall_mem_cons]
  exact ⟨rfl, rfl, rfl, rfl, rfl, rfl, rfl, by simp⟩

/-- The answer of the exchange so far to the request in the mailbox. -/
def spdmReply (n : Fin 16) (s : State) : SpdmAnswer :=
  spdmAnswer (s.prot.idKey.getD []) (leBytes 32 (Config.spdmNonce s.freeCtr).toNat) (measureBlocks s) s.prot.spdm (s.box n.val).input

/-- The exchange moves on, and a nonce is used up. -/
def attested (n : Fin 16) (conn : SpdmConn) (s : State) : State :=
  { s.freed n with prot := { s.prot with spdm := conn }, freeCtr := s.freeCtr + 1 }

theorem attested_mbx (n : Fin 16) (conn : SpdmConn) (s : State) : (attested n conn s).mbx = (s.freed n).mbx := rfl

theorem attested_prot (n : Fin 16) (conn : SpdmConn) (s : State) : (attested n conn s).prot = { s.prot with spdm := conn } := rfl

theorem attested_only (n : Fin 16) (conn : SpdmConn) (s : State) : Only [.prot, .mbx, .freeCtr] s (attested n conn s) :=
  Only.atProtFreeCtr (by decide) (by decide) ⟨rfl, rfl⟩ (setBox_only n.val { s.box n.val with job := none } (by decide) Only.refl)

theorem spdm_of_formed {n : Fin 16} {code : Nat} {s : State} (hjob : (s.box n.val).job = some 0x0205)
    (hform : formCheck n.val (s.box n.val) = none) (hinline : (s.box n.val).inInline = true) (hcode : spdmCode (s.box n.val).input = code) :
    spdm code n.val s = replyDone n.val [] (spdmReply n s).reply (attested n (spdmReply n s).conn s) := by
  have hattest : attestForm n.val (s.box n.val) = none := by
    rw [attestForm, hform, hinline]
    rfl
  simp only [spdm, hjob, hcode, hattest, and_self, if_true]
  rfl

theorem spdm_answers {n : Fin 16} {s : State} (hjob : (s.box n.val).job = some 0x0205)
    (hform : formCheck n.val (s.box n.val) = none) (hinline : (s.box n.val).inInline = true) :
    ∀ c ∈ spdmCommands n, spdmCode (s.box n.val).input = c.1 → Answers c.2 s fun t =>
      (t.box n.val).outbox = (s.box n.val).outbox ++ [{ status := 0, data := (spdmReply n s).reply }]
      ∧ t.prot = { s.prot with spdm := (spdmReply n s).conn } ∧ KeepsBut [.prot, .mbx, .freeCtr] s t := by
  intro c hc hcode
  refine ⟨_, exec_spdmCommands n s c hc, ?_⟩
  rw [spdm_of_formed hjob hform hinline hcode]
  have hkeeps := (replyDone_only n.val [] (spdmReply n s).reply (by decide)
    (attested_only n (spdmReply n s).conn s)).keeps
  dsimp only
  rw [replyDone_outbox_of_freed (attested_mbx n _ s), replyDone_prot, attested_prot]
  exact ⟨rfl, rfl, hkeeps⟩

section Answers

variable {key nonce : List Byte} {blocks : List Nat} {c : SpdmConn} {b : List Byte}

/-- Any exchange takes a GET_VERSION. -/
theorem spdmRefusal_getVersion (hlen : 4 ≤ b.length) (hcode : spdmCode b = 0x84) : spdmRefusal c b = none := by
  simp only [spdmRefusal, Nat.not_lt.2 hlen, hcode, if_true, if_false]

/-- After NEGOTIATE_ALGORITHMS any request of version 1.3 is taken. -/
theorem spdmRefusal_negotiated (hlen : 4 ≤ b.length) (hver : leAt b 0 1 = 0x13) (hstage : c.stage = 3) : spdmRefusal c b = none := by
  simp only [spdmRefusal, Nat.not_lt.2 hlen, hver, hstage, if_false, not_true_eq_false, ne_eq]
  split_ifs <;> simp_all

theorem spdmAnswer_getVersion (hlen : 4 ≤ b.length) (hcode : spdmCode b = 0x84) :
    spdmAnswer key nonce blocks c b = ⟨[0x10, 0x04, 0, 0, 0, 1, 0x00, 0x13], { stage := 1, vca := b ++ spdmVersion }⟩ := by
  simp only [spdmAnswer, spdmRefusal_getVersion hlen hcode, hcode]
  rfl

theorem spdmAnswer_getDigests (hlen : 4 ≤ b.length) (hver : leAt b 0 1 = 0x13) (hstage : c.stage = 3) (hcode : spdmCode b = 0x81) :
    (spdmAnswer key nonce blocks c b).reply = [0x13, 0x01, 1, 1] ++ chainDigest key := by
  simp only [spdmAnswer, spdmRefusal_negotiated hlen hver hstage, hcode]
  rfl

theorem spdmAnswer_getMeasurements (hlen : 4 ≤ b.length) (hver : leAt b 0 1 = 0x13) (hstage : c.stage = 3) (hcode : spdmCode b = 0xE0)
    (hok : measureReqOk b = true) (hsig : wantsSig b = true) :
    (spdmAnswer key nonce blocks c b).reply = measurementsOf nonce blocks b
      ++ deviceSign key "responder-measurements signing" (c.vca ++ c.meas ++ b ++ measurementsOf nonce blocks b) := by
  simp only [spdmAnswer, spdmRefusal_negotiated hlen hver hstage, hcode, hok, hsig, Bool.not_true, Bool.false_eq_true, if_false, if_true]

end Answers

/-- Settles O20: each clause is the path of its command on which every check passes. -/
theorem protectionCommandsTakeEffect : Obligations.ProtectionCommandsTakeEffect :=
  ⟨fun _ _ => ticketChallenge_issues, fun _ _ => rfl,
    fun _ _ hrun => ⟨fun _ => fuseBlowDone_counts hrun, exec_fuseBlowDone_of_failed hrun⟩,
    fun _ => ⟨fun h => lapse_of_path (congrArg Host.Outcome.next (if_pos h)) rfl rfl,
      fun h => lapse_of_path (congrArg Host.Outcome.next (if_pos h)) rfl rfl, debugUnlock_lapses⟩,
    fun _ _ => exec_partitionGet, fun _ _ => exec_grantStatus, fun _ _ => exec_rollbackStatus,
    fun _ _ => exec_measureGet, fun _ _ => spdm_answers,
    fun _ _ _ _ _ hlen => ⟨spdmAnswer_getVersion hlen, fun hver hstage => ⟨spdmAnswer_getDigests hlen hver hstage,
      spdmAnswer_getMeasurements hlen hver hstage⟩⟩⟩

end Sys2Proof.AttestCerts
end

section
/-!
PROOF. What each accepted ticket changes (spec/07_two_party_protection.md R180, R181, R183 to R187, R190, Table TP-3): the state that its
setting leaves, then the record, the challenge that is consumed and the answer, which are the same for all.
-/
namespace Sys2Proof.TicketCerts

open Sys2Proof.Machine Sys2Proof.Laws Sys2Proof.ProtectionCerts

/-! ## The common end of an accepted ticket (R180, R181) -/

/-- The setting has been applied, in state `u`: its challenge is consumed, its record written, DONE answered. -/
def concluded (n : Fin 16) (b : List Byte) (u : State) : State := replyDone n.val [] [] (ticketRecord b (consume (tkChal b) u))

theorem concluded_only (n : Fin 16) (b : List Byte) (u : State) : Only [.prot, .mbx, .log, .link, .out] u (concluded n b u) :=
  replyDone_only _ _ _ (by decide) (ticketRecord_only _ (by decide) (consume_only _ (by decide) Only.refl))

/-- Of the protection state it changes the challenges alone. -/
theorem concluded_prot (n : Fin 16) (b : List Byte) (u : State) :
    (concluded n b u).prot = { u.prot with challenges := u.prot.challenges.filter fun c => c.id ≠ tkChal b } := by
  rw [concluded, replyDone_prot, ticketRecord_prot, Scope.consume_prot]

theorem concluded_aon (n : Fin 16) (b : List Byte) (u : State) : (concluded n b u).aon = u.aon :=
  (concluded_only n b u).keeps .aon (by decide)

theorem concluded_pins (n : Fin 16) (b : List Byte) (u : State) : (concluded n b u).pins = u.pins :=
  (concluded_only n b u).keeps .pins (by decide)

theorem concluded_store (n : Fin 16) (b : List Byte) (u : State) : (concluded n b u).store = u.store :=
  (concluded_only n b u).keeps .store (by decide)

theorem concluded_part (n : Fin 16) (b : List Byte) (u : State) (q : Nat) : (concluded n b u).part q = u.part q := by
  simp only [State.part, concluded_prot]

/-- What an accepted ticket of any setting leaves: DONE, and its challenge consumed. -/
def Done (n : Fin 16) (s t : State) : Prop :=
  (t.box n.val).outbox = (s.box n.val).outbox ++ [{ status := 0 }]
    ∧ t.prot.challenges = s.prot.challenges.filter fun c => c.id ≠ tkChal (s.box n.val).input

section Accepted

variable {n : Fin 16} {s : State}

theorem done_of_applied {u : State} (hmbx : u.mbx = (s.freed n).mbx) (hchal : u.prot.challenges = s.prot.challenges) :
    Done n s (concluded n (s.box n.val).input u) := by
  have hrec : (ticketRecord (s.box n.val).input (consume (tkChal (s.box n.val).input) u)).mbx = (s.freed n).mbx := by
    rw [← hmbx]
    exact (ticketRecord_only _ (List.Subset.refl _) Only.refl).keeps .mbx (by decide)
  refine ⟨AttestCerts.replyDone_outbox_of_freed hrec .., ?_⟩
  rw [concluded_prot, hchal]

/-- A ticket that writes only such groups keeps all others. -/
theorem keeps_of_applied {gs : List Group} {u : State} (b : List Byte) (h : Only gs (s.freed n) u)
    (hsub : [.prot, .mbx, .log, .link, .out] ⊆ gs) : KeepsBut gs s (concluded n b u) := by
  have hfreed : Only gs s (s.freed n) := setBox_only _ _ (List.Subset.trans (by decide) hsub) Only.refl
  exact ((concluded_only n b u).after hsub (hfreed.trans h)).keeps

/-- The command of a setting ends in the state that the setting leaves, concluded. -/
theorem answers_of_accepted {k : Nat} {c : Instr} {apply : List Byte → State → State} {P : State → Prop}
    (hexec : exec c s = .next (ticket k n.val apply s)) (hjob : (s.box n.val).job = some 0x0202)
    (hst : ticketStatus s n.val (s.box n.val) = none) (hset : tkSetting (s.box n.val).input = k)
    (h : P (concluded n (s.box n.val).input (apply (s.box n.val).input (s.freed n)))) : Answers c s P :=
  ⟨_, hexec.trans (congrArg Host.Outcome.next (ticket_of_accepted apply hjob hset hst)), h⟩

end Accepted

/-! ## What each setting leaves (Table TP-3) -/

theorem applyPartition_prot (b : List Byte) (s : State) :
    (applyPartition b s).prot = { s.prot with parts := Tab.put {} s.prot.parts (payB b 0) (tkPart b) } :=
  (partitionChanged_only _ _ _ (List.Subset.refl _) Only.refl).keeps .prot (by decide)

/-- R186: one entry, and no other. -/
theorem applyPartition_part (b : List Byte) (s : State) (q : Nat) :
    (applyPartition b s).part q = if q = payB b 0 then tkPart b else s.part q := by
  rw [State.part, applyPartition_prot]
  exact Tab.get_put

theorem applyPartition_mbx (b : List Byte) (s : State) : (applyPartition b s).mbx = s.mbx :=
  (applyPartition_only b (List.Subset.refl _) Only.refl).keeps .mbx (by decide)

theorem applyDebugUnlock_prot (b : List Byte) (s : State) : (applyDebugUnlock b s).prot =
    { s.prot with debugLevel := payB b 0, debugEnd := some (s.now + tkLife b * 1000000000) } := AttestCerts.setDebug_prot ..

theorem applyDebugUnlock_pins (b : List Byte) (s : State) : (applyDebugUnlock b s).pins =
    { s.pins with coreHalt := s.pins.coreHalt && decide (3 ≤ payB b 0) } := AttestCerts.setDebug_pins ..

theorem applyDebugUnlock_mbx (b : List Byte) (s : State) : (applyDebugUnlock b s).mbx = s.mbx :=
  (applyDebugUnlock_only b (List.Subset.refl _) Only.refl).keeps .mbx (by decide)

theorem applyRevoke_mbx (b : List Byte) (s : State) : (applyRevoke b s).mbx = s.mbx :=
  (applyRevoke_only b (List.Subset.refl _) Only.refl).keeps .mbx (by decide)

/-- R183: the paths that it names end, and the others stay. -/
theorem applyRevoke_aon (b : List Byte) (s : State) : (applyRevoke b s).aon = { s.aon with
    grantHost := if payB b 0 % 2 = 1 then none else s.aon.grantHost
    grantOob := if payB b 0 / 2 % 2 = 1 then none else s.aon.grantOob } := by
  unfold applyRevoke
  dsimp only
  split
  · exact (setDebug_only _ _ (List.Subset.refl _) Only.refl).keeps .aon (by decide)
  · rfl

theorem applyRevoke_prot (b : List Byte) (s : State) : (applyRevoke b s).prot =
    if payB b 0 / 4 % 2 = 1 then { s.prot with debugLevel := 0, debugEnd := none } else s.prot := by
  unfold applyRevoke
  dsimp only
  split
  · exact AttestCerts.setDebug_prot ..
  · rfl

/-! ## The exclusion map (R187) -/

theorem leaveHold_excluded (s : State) : (leaveHold s).aon.excluded = s.aon.excluded := by
  unfold leaveHold
  split <;> rfl

theorem enterHold_excluded (reason : Nat) (s : State) : (enterHold reason s).aon.excluded = s.aon.excluded := by
  unfold enterHold
  split
  · rfl
  · simp

theorem enterServe_excluded (s : State) : (enterServe s).aon.excluded = s.aon.excluded := by
  simp only [enterServe, StartCerts.sendJoins_aon, StartCerts.logInfo_aon]
  exact (congrArg Aon.excluded (StartCerts.phaseExit_aon 0 _)).trans (leaveHold_excluded s)

theorem joinRecheck_excluded (s : State) : (joinRecheck s).aon.excluded = s.aon.excluded := by
  unfold joinRecheck
  split_ifs
  · exact enterHold_excluded ..
  · exact enterHold_excluded ..
  · exact enterHold_excluded ..
  · exact enterServe_excluded s
  · rfl

/-- The map and AON_START.EXCLUDED as the ticket sets them. -/
def remapped (b : List Byte) (s : State) : State :=
  { s with store := { s.store with exclMap := BitVec.ofNat 8 (payB b 0) },
           aon := { s.aon with excluded := (BitVec.ofNat 8 (payB b 0)).getLsbD s.aon.slot.val } }

/-- What the start does about a new map neither changes the map nor the bit. -/
theorem applyExclusion_after (b : List Byte) (s : State) :
    Only [.aon, .pins, .start, .log, .serve, .link, .out] (remapped b s) (applyExclusion b s)
      ∧ (applyExclusion b s).aon.excluded = (remapped b s).aon.excluded := by
  unfold applyExclusion
  dsimp only
  split
  case h_1 => exact ⟨Only.atPins (by decide) Only.refl, rfl⟩
  case h_2 =>
    split
    · refine ⟨sendJoins_only (by decide) (enterPhase_only _ (by decide) (phaseExit_only _ (by decide) (leaveHold_only (by decide)
        Only.refl))), ?_⟩
      rw [StartCerts.sendJoins_aon]
      exact (congrArg Aon.excluded (StartCerts.phaseExit_aon 0 _)).trans (leaveHold_excluded _)
    · exact ⟨joinRecheck_only (by decide) Only.refl, joinRecheck_excluded _⟩
  case h_3 =>
    split
    · exact ⟨Only.refl, rfl⟩
    · refine ⟨joinRecheck_only (by decide) (doneWatch_only (by decide) (enterPhase_only _ (by decide) Only.refl)), ?_⟩
      rw [joinRecheck_excluded, StartCerts.doneWatch_aon]
      rfl
  case h_4 => exact ⟨Only.refl, rfl⟩

theorem applyExclusion_store (b : List Byte) (s : State) :
    (applyExclusion b s).store = { s.store with exclMap := BitVec.ofNat 8 (payB b 0) } :=
  (applyExclusion_after b s).1.keeps .store (by decide)

theorem applyExclusion_excluded (b : List Byte) (s : State) :
    (applyExclusion b s).aon.excluded = (BitVec.ofNat 8 (payB b 0)).getLsbD s.aon.slot.val := (applyExclusion_after b s).2

theorem applyExclusion_mbx (b : List Byte) (s : State) : (applyExclusion b s).mbx = s.mbx :=
  (applyExclusion_only b (List.Subset.refl _) Only.refl).keeps .mbx (by decide)

theorem applyExclusion_prot (b : List Byte) (s : State) : (applyExclusion b s).prot = s.prot :=
  (applyExclusion_only b (List.Subset.refl _) Only.refl).keeps .prot (by decide)

/-- In doldrums mode an excluded package releases TRAY_DONE. -/
theorem applyExclusion_doneDrv (b : List Byte) {s : State} (h : s.aon.phase = .doldrums) :
    (applyExclusion b s).pins.doneDrv = !(applyExclusion b s).aon.excluded := by
  simp only [applyExclusion, h]

/-! ## Each setting -/

section Settings

variable {n : Fin 16} {s : State} (hjob : (s.box n.val).job = some 0x0202) (hst : ticketStatus s n.val (s.box n.val) = none)

include hjob hst

theorem partition_applies (hset : tkSetting (s.box n.val).input = 1) : Answers (.ticketPartition n) s fun t =>
    t.part (payB (s.box n.val).input 0) = tkPart (s.box n.val).input
      ∧ (∀ q, q ≠ payB (s.box n.val).input 0 → t.part q = s.part q) ∧ Done n s t := by
  refine answers_of_accepted rfl hjob hst hset ⟨?_, fun q hq => ?_, done_of_applied (applyPartition_mbx ..) ?_⟩
  · rw [concluded_part, applyPartition_part, if_pos rfl]
  · rw [concluded_part, applyPartition_part, if_neg hq]
    rfl
  · rw [applyPartition_prot]
    rfl

theorem vaultPolicy_applies (hset : tkSetting (s.box n.val).input = 2) : Answers (.ticketVaultPolicy n) s fun t =>
    t.prot.vault.parts = BitVec.ofNat 64 (leAt (tkPayload (s.box n.val).input) 0 8)
      ∧ t.prot.vault.life = leAt (tkPayload (s.box n.val).input) 16 4 ∧ KeepsBut [.prot, .mbx, .log, .link, .out] s t ∧ Done n s t := by
  refine answers_of_accepted rfl hjob hst hset ⟨?_, ?_,
    keeps_of_applied _ (applyVaultPolicy_only _ (by decide) Only.refl) (by decide), done_of_applied rfl rfl⟩
  all_goals
    rw [concluded_prot]
    rfl

theorem sealedPolicy_applies (hset : tkSetting (s.box n.val).input = 3) : Answers (.ticketSealedPolicy n) s fun t =>
    t.prot.sealedP.parts = BitVec.ofNat 64 (leAt (tkPayload (s.box n.val).input) 0 8)
      ∧ t.prot.sealedP.maxDegree = payB (s.box n.val).input 105 ∧ t.prot.sealedP.maxLimbs = payB (s.box n.val).input 106
      ∧ KeepsBut [.prot, .mbx, .log, .link, .out] s t ∧ Done n s t := by
  refine answers_of_accepted rfl hjob hst hset ⟨?_, ?_, ?_,
    keeps_of_applied _ (applySealedPolicy_only _ (by decide) Only.refl) (by decide), done_of_applied rfl rfl⟩
  all_goals
    rw [concluded_prot]
    rfl

theorem debugUnlock_applies (hset : tkSetting (s.box n.val).input = 4) : Answers (.ticketDebugUnlock n) s fun t =>
    t.prot.debugLevel = payB (s.box n.val).input 0
      ∧ t.prot.debugEnd = some (s.now + tkLife (s.box n.val).input * 1000000000)
      ∧ t.pins.coreHalt = (s.pins.coreHalt && decide (3 ≤ payB (s.box n.val).input 0))
      ∧ KeepsBut [.pins, .prot, .mbx, .log, .link, .out] s t ∧ Done n s t := by
  refine answers_of_accepted rfl hjob hst hset ⟨?_, ?_, ?_,
    keeps_of_applied _ (applyDebugUnlock_only _ (by decide) Only.refl) (by decide), done_of_applied (applyDebugUnlock_mbx ..) ?_⟩
  · rw [concluded_prot, applyDebugUnlock_prot]
  · rw [concluded_prot, applyDebugUnlock_prot]
    rfl
  · rw [concluded_pins, applyDebugUnlock_pins]
    rfl
  · rw [applyDebugUnlock_prot]
    rfl

theorem expertGrant_applies (hset : tkSetting (s.box n.val).input = 5) : Answers (.ticketExpertGrant n) s fun t =>
    t.aon.grantHost = (if payB (s.box n.val).input 0 % 2 = 1 then some (s.now + tkLife (s.box n.val).input * 1000000000)
        else s.aon.grantHost)
      ∧ t.aon.grantOob = (if payB (s.box n.val).input 0 / 2 % 2 = 1 then some (s.now + tkLife (s.box n.val).input * 1000000000)
        else s.aon.grantOob)
      ∧ KeepsBut [.aon, .prot, .mbx, .log, .link, .out] s t ∧ Done n s t := by
  refine answers_of_accepted rfl hjob hst hset ⟨?_, ?_,
    keeps_of_applied _ (applyExpertGrant_only _ (by decide) Only.refl) (by decide), done_of_applied rfl rfl⟩
  all_goals
    rw [concluded_aon]
    rfl

theorem rollback_applies (hset : tkSetting (s.box n.val).input = 6) : Answers (.ticketRollback n) s fun t =>
    (∃ r, t.prot.run = some r ∧ r.counter.val = payB (s.box n.val).input 0 ∧ r.target = tkTarget (s.box n.val).input ∧ r.keys = none)
      ∧ t.prot.counters = s.prot.counters ∧ KeepsBut [.prot, .mbx, .log, .link, .out, .fuses] s t ∧ Done n s t := by
  refine answers_of_accepted rfl hjob hst hset ⟨?_, ?_,
    keeps_of_applied _ (applyRollback_only _ (by decide) Only.refl) (by decide), done_of_applied rfl rfl⟩
  all_goals rw [concluded_prot]
  · exact ⟨_, rfl, tkCounter_val hset (passed_of_ticketStatus hst), rfl, rfl⟩
  · rfl

theorem exclusion_applies (hset : tkSetting (s.box n.val).input = 7) : Answers (.ticketExclusion n) s fun t =>
    t.store.exclMap = BitVec.ofNat 8 (payB (s.box n.val).input 0)
      ∧ t.aon.excluded = (BitVec.ofNat 8 (payB (s.box n.val).input 0)).getLsbD s.aon.slot.val
      ∧ (s.aon.phase = .doldrums → t.pins.doneDrv = !t.aon.excluded) ∧ Done n s t := by
  refine answers_of_accepted rfl hjob hst hset ⟨?_, ?_, fun hphase => ?_, done_of_applied (applyExclusion_mbx ..) ?_⟩
  · rw [concluded_store, applyExclusion_store]
  · rw [concluded_aon, applyExclusion_excluded]
    rfl
  · rw [concluded_aon, concluded_pins]
    exact applyExclusion_doneDrv _ hphase
  · rw [applyExclusion_prot]
    rfl

theorem custodyKeys_applies (hset : tkSetting (s.box n.val).input = 8) : Answers (.ticketCustodyKeys n) s fun t =>
    (∃ r k, t.prot.run = some r ∧ r.counter = 1 ∧ r.target = s.prot.counters[1] + 1 ∧ r.keys = some k
        ∧ k.hc = (tkPayload (s.box n.val).input).take 97 ∧ k.ts = (tkPayload (s.box n.val).input).drop 97
        ∧ k.gen = s.prot.counters[1] + 1)
      ∧ t.prot.counters = s.prot.counters ∧ t.prot.custody = s.prot.custody
      ∧ KeepsBut [.prot, .mbx, .log, .link, .out, .fuses] s t ∧ Done n s t := by
  refine answers_of_accepted rfl hjob hst hset ⟨?_, ?_, ?_,
    keeps_of_applied _ (applyCustodyKeys_only _ (by decide) Only.refl) (by decide), done_of_applied rfl rfl⟩
  all_goals rw [concluded_prot]
  · exact ⟨_, _, rfl, rfl, rfl, rfl, rfl, rfl, rfl⟩
  · rfl
  · rfl

theorem revoke_applies (hset : tkSetting (s.box n.val).input = 9) : Answers (.ticketRevoke n) s fun t =>
    t.aon.grantHost = (if payB (s.box n.val).input 0 % 2 = 1 then none else s.aon.grantHost)
      ∧ t.aon.grantOob = (if payB (s.box n.val).input 0 / 2 % 2 = 1 then none else s.aon.grantOob)
      ∧ t.prot.debugLevel = (if payB (s.box n.val).input 0 / 4 % 2 = 1 then 0 else s.prot.debugLevel)
      ∧ KeepsBut [.aon, .pins, .prot, .mbx, .log, .link, .out] s t ∧ Done n s t := by
  refine answers_of_accepted rfl hjob hst hset ⟨?_, ?_, ?_,
    keeps_of_applied _ (applyRevoke_only _ (by decide) Only.refl) (by decide), done_of_applied (applyRevoke_mbx ..) ?_⟩
  · rw [concluded_aon, applyRevoke_aon]
    rfl
  · rw [concluded_aon, applyRevoke_aon]
    rfl
  · rw [concluded_prot, applyRevoke_prot]
    split <;> rfl
  · rw [applyRevoke_prot]
    split <;> rfl

end Settings

/-- Settles O18: the settings one by one; each is what it applies to the freed mailbox, concluded. -/
theorem acceptedTicketsApply : Obligations.AcceptedTicketsApply := by
  intro n s hjob hst
  exact ⟨partition_applies hjob hst, vaultPolicy_applies hjob hst, sealedPolicy_applies hjob hst, debugUnlock_applies hjob hst,
    expertGrant_applies hjob hst, rollback_applies hjob hst, exclusion_applies hjob hst, custodyKeys_applies hjob hst,
    revoke_applies hjob hst⟩

end Sys2Proof.TicketCerts
end

section
/-!
PROOF. The on-die networks (spec/08_gale_breeze_lull.md R199 to R201, R208 to R210, R223 to R225, R228 to R230): injection, promotion, link
errors, the drain of an epoch and Breeze, each from the lemma that says what its operation does on the path the statement takes.
-/
namespace Sys2Proof.NetCerts

open Sys2Proof.Machine Sys2Proof.Laws

/-! ## Counters (R230) -/

theorem netAdd_ctr (kind inst k : Nat) (s : State) : Tab.get 0 (netAdd kind inst k s).net.ctr (ctrKey kind inst) =
    Tab.get 0 s.net.ctr (ctrKey kind inst) + k := Tab.get_put_self

theorem netCount_ctr (kind inst : Nat) (s : State) : Tab.get 0 (netCount kind inst s).net.ctr (ctrKey kind inst) =
    Tab.get 0 s.net.ctr (ctrKey kind inst) + 1 := netAdd_ctr kind inst 1 s

theorem netCount_only (kind inst : Nat) (s : State) : Only [.net] s (netCount kind inst s) := Only.atNet (by decide) Only.refl

@[simp] theorem netCount_flight (kind inst : Nat) (s : State) : (netCount kind inst s).net.flight = s.net.flight := rfl

/-! ## Records leave the networks as they are -/

@[simp] theorem logUe_net (c : Contain) (code ut inst : Nat) (d : List Nat) (s : State) : (logUe c code ut inst d s).net = s.net :=
  (logUe_only c code ut inst d (List.Subset.refl _) Only.refl).keeps .net (by decide)

@[simp] theorem logUe_units (c : Contain) (code ut inst : Nat) (d : List Nat) (s : State) : (logUe c code ut inst d s).units = s.units :=
  (logUe_only c code ut inst d (List.Subset.refl _) Only.refl).keeps .units (by decide)

@[simp] theorem logLimited_net (period : Nat) (cls : Cls) (code ut inst : Nat) (d : List Nat) (c : Contain) (s : State) :
    (logLimited period cls code ut inst d c s).net = s.net :=
  (logLimited_only period cls code ut inst d c (List.Subset.refl _) Only.refl).keeps .net (by decide)

/-! ## Injection (R199, R201, R223) -/

section Inject

variable {node : Fin 128} {port : Fin 16} {sb0 sb : BitVec 64} {data : List Byte} {s : State}

/-- The sideband that a router injects. -/
def injected (s : State) (node port : Nat) (sb0 : BitVec 64) : BitVec 64 := mcastVc (stampEpoch s node (stampPart s port sb0))

/-- The packet that it is about to launch. -/
def entering (s : State) (node port : Nat) (sb : BitVec 64) (data : List Byte) : Packet :=
  { id := s.net.nextId, src := node, port := port, sb := sb, data := data }

/-- The class and the Vane region of a port allow the packet (R118, R119, R135, R173). -/
def Allowed (s : State) (node port : Nat) (sb : BitVec 64) : Prop :=
  sealedRefuses s port sb = false ∧ (port = 9 → vaneRefuses s (vaneAt node) sb = false)

theorem exec_galeInject_of_legal (hsrc : sourcePort node.val port.val = true) (hlen : data.length ≤ 4096)
    (hsb : injected s node.val port.val sb0 = sb) (hfence : portFenced s node.val port.val = false) (hlegal : sbLegal sb = true)
    (hallow : Allowed s node.val port.val sb) :
    exec (.galeInject node port sb0 data) s =
      .next (routeIn (entering s node.val port.val sb data) s) := by
  obtain ⟨hseal, hvane⟩ := hallow
  have hvane' : (decide (port.val = 9) && vaneRefuses s (vaneAt node.val) sb) = false := by
    by_cases h : port.val = 9 <;> simp [h, hvane]
  have hexec : exec (.galeInject node port sb0 data) s = .next (injectPacket node.val port.val sb0 data s) := rfl
  rw [injected] at hsb
  simp only [hexec, injectPacket, hsb, hsrc, Nat.not_lt.2 hlen, hfence, hlegal, hseal, hvane', Bool.not_true, decide_false, Bool.or_self,
    Bool.false_eq_true, if_false]
  rfl

theorem exec_galeInject_of_refused (hsrc : sourcePort node.val port.val = true) (hlen : data.length ≤ 4096)
    (hsb : injected s node.val port.val sb0 = sb)
    (h : portFenced s node.val port.val = true ∨ sbLegal sb = false ∨ ¬ Allowed s node.val port.val sb) :
    exec (.galeInject node port sb0 data) s = .next (if sbRequest sb then errorResponse node.val (sbTag sb) s else s) := by
  have hexec : exec (.galeInject node port sb0 data) s = .next (injectPacket node.val port.val sb0 data s) := rfl
  rw [injected] at hsb
  simp only [hexec, injectPacket, hsb, hsrc, Nat.not_lt.2 hlen, Bool.not_true, decide_false, Bool.or_self, Bool.false_eq_true, if_false,
    Bool.or_eq_true, Bool.not_eq_true', Bool.and_eq_true, decide_eq_true_eq]
  rw [Allowed] at h
  split
  · rfl
  split
  · rfl
  case isFalse.isFalse hopen hpass =>
    simp only [not_or, not_and, Bool.not_eq_true, Bool.not_eq_false] at hopen hpass
    obtain hfence | hlegal | hallow := h
    · simp [hfence] at hopen
    · simp [hlegal] at hopen
    · exact absurd hpass hallow

/-- No Eddy unit is a source of a router. -/
theorem port_ne_eddy {node port : Nat} (h : sourcePort node port = true) : port ≠ 14 := by
  rintro rfl
  simp [sourcePort, portExists] at h

theorem routeIn_of_full (p : Packet) (hport : p.port ≠ 14) (hvc : sbVc p.sb ≠ 0)
    (hfull : 64 < inFlight s p.src p.port (sbVc p.sb) + flitsOf p.data) : routeIn p s = s :=
  if_pos (by simp [overLimit, hport, hvc, hfull])

/-- The reads of a Vane port that wait for an answer: a read request joins them. -/
def noteRead (p : Packet) (s : State) : State :=
  if p.port = 9 && sbType p.sb = 1 then { s with vane := { s.vane with
    reads := Tab.put [] s.vane.reads (vaneAt p.src) (sbTag p.sb :: s.vaneReads (vaneAt p.src)) } }
  else s

theorem noteRead_only (p : Packet) (s : State) : Only [.vane] s (noteRead p s) := by
  unfold noteRead
  split
  · exact Only.atVane (by decide) Only.refl
  · exact Only.refl

theorem noteRead_net (p : Packet) (s : State) : (noteRead p s).net = s.net := (noteRead_only p s).keeps .net (by decide)

theorem routeIn_of_routed (p : Packet) (hroom : sbVc p.sb = 0 ∨ inFlight s p.src p.port (sbVc p.sb) + flitsOf p.data ≤ 64)
    (hmcast : sbMcast p.sb = false) (hroute : unreachable s p.src p.sb = false) : routeIn p s = noteRead p (launch [p] p s) := by
  have hlimit : overLimit s p.src p.port (sbVc p.sb) p.data = false := by
    obtain hvc | hle := hroom
    · simp [overLimit, hvc]
    · simp [overLimit, Nat.not_lt.2 hle]
  simp only [routeIn, hlimit, hmcast, hroute, Bool.false_eq_true, if_false]
  rfl

theorem routeIn_launches (p : Packet) (hroom : sbVc p.sb = 0 ∨ inFlight s p.src p.port (sbVc p.sb) + flitsOf p.data ≤ 64)
    (hmcast : sbMcast p.sb = false) (hroute : unreachable s p.src p.sb = false) :
    (routeIn p s).net.flight = s.net.flight ++ [p] ∧ (routeIn p s).net.nextId = s.net.nextId + 1
      ∧ Tab.get 0 (routeIn p s).net.ctr (ctrKey (sbVc p.sb) 0) = Tab.get 0 s.net.ctr (ctrKey (sbVc p.sb) 0) + flitsOf p.data
      ∧ KeepsBut [.net, .vane] s (routeIn p s) := by
  rw [routeIn_of_routed p hroom hmcast hroute, noteRead_net]
  exact ⟨rfl, rfl, netAdd_ctr .., ((noteRead_only p _).after (by decide) (launch_only _ _ (by decide) Only.refl)).keeps⟩

end Inject

/-! ## Promotion (R200) -/

theorem exec_promotion {idx : Nat} {p : Packet} {s : State} (hp : s.net.flight[idx]? = some p) (hvc : 2 ≤ sbVc p.sb)
    (hnew : p.promoted = false) : exec (.promotion idx) s = .next
      (netCount 7 p.src { s with net := { s.net with flight := s.net.flight.set idx { p with promoted := true } } }) := by
  have hexec : exec (.promotion idx) s = execPromotion idx s := rfl
  simp [hexec, execPromotion, hp, hvc, hnew]

theorem promotion_promotes {idx : Nat} {p : Packet} {s : State} (hp : s.net.flight[idx]? = some p) (hvc : 2 ≤ sbVc p.sb)
    (hnew : p.promoted = false) : Answers (.promotion idx) s fun t =>
      t.net.flight = s.net.flight.set idx { p with promoted := true }
      ∧ Tab.get 0 t.net.ctr (ctrKey 7 p.src) = Tab.get 0 s.net.ctr (ctrKey 7 p.src) + 1 ∧ KeepsBut [.net] s t :=
  ⟨_, exec_promotion hp hvc hnew, rfl, netCount_ctr ..,
    ((netCount_only ..).after (List.Subset.refl _) (Only.atNet (by decide) Only.refl)).keeps⟩

/-! ## Discarded packets (R225, R229) -/

/-- The networks are the same but for the schedule image, which an answer to a Vane port can let become current (R206). -/
def SameTraffic (s t : State) : Prop := ∃ image shadow, t.net = { s.net with image := image, shadow := shadow }

theorem SameTraffic.refl (s : State) : SameTraffic s s := ⟨s.net.image, s.net.shadow, rfl⟩

theorem SameTraffic.trans {s t u : State} (h : SameTraffic s t) (k : SameTraffic t u) : SameTraffic s u := by
  obtain ⟨i, x, hi⟩ := h
  obtain ⟨j, y, hj⟩ := k
  exact ⟨j, y, by rw [hj, hi]⟩

theorem SameTraffic.of_net {s t : State} (h : t.net = s.net) : SameTraffic s t := ⟨s.net.image, s.net.shadow, h⟩

theorem SameTraffic.flight {s t : State} (h : SameTraffic s t) : t.net.flight = s.net.flight := by
  obtain ⟨i, x, hi⟩ := h
  rw [hi]

theorem SameTraffic.breeze {s t : State} (h : SameTraffic s t) : t.net.breeze = s.net.breeze := by
  obtain ⟨i, x, hi⟩ := h
  rw [hi]

theorem SameTraffic.ctr {s t : State} (h : SameTraffic s t) : t.net.ctr = s.net.ctr := by
  obtain ⟨i, x, hi⟩ := h
  rw [hi]

theorem sameTraffic_trySwitch (s : State) : SameTraffic s (trySwitch s) := by
  unfold trySwitch
  split
  · exact .refl s
  split
  · exact ⟨_, _, rfl⟩
  · exact .refl s

theorem sameTraffic_disableDone (s : State) : SameTraffic s (disableDone s) := by
  unfold disableDone
  split
  · exact (SameTraffic.of_net rfl).trans (sameTraffic_trySwitch _)
  · exact .refl s

theorem sameTraffic_portQuiet (v : Nat) (s : State) : SameTraffic s (portQuiet v s) := by
  unfold portQuiet
  split
  · exact (SameTraffic.of_net rfl).trans (sameTraffic_disableDone _)
  · exact .refl s

theorem sameTraffic_isolate (r : Nat) (x : OpenRegion) (s : State) : SameTraffic s (isolate r x s) :=
  .of_net ((isolate_only r x (List.Subset.refl _) Only.refl).keeps .net (by decide))

/-- An answer to a Vane port that is delivered without a change of the networks leaves the traffic as it was. -/
theorem sameTraffic_vaneResponse (v tag flits : Nat) {deliver : State → State} (hdeliver : ∀ t, (deliver t).net = t.net) (s : State) :
    SameTraffic s (vaneResponse v tag flits deliver s) := by
  unfold vaneResponse
  dsimp only
  split
  · refine SameTraffic.trans ?_ (sameTraffic_portQuiet v _)
    have hone : SameTraffic s (deliver { s with vane := { s.vane with reads := Tab.put [] s.vane.reads v ((s.vaneReads v).erase tag) } }) :=
      .of_net (hdeliver _)
    split
    · split
      · exact hone.trans (sameTraffic_isolate ..)
      · exact hone
    · exact hone
  split
  · exact .of_net ((logInfo_only _ _ _ _ (List.Subset.refl _) Only.refl).keeps .net (by decide))
  · exact .of_net rfl

theorem sameTraffic_discardPacket (p : Packet) (s : State) : SameTraffic s (discardPacket p s) := by
  unfold discardPacket errorTo
  split
  · split
    · exact .of_net rfl
    split
    · exact sameTraffic_vaneResponse _ _ _ (deliver := errorResponse p.src (sbTag p.sb)) (fun _ => rfl) s
    · exact .of_net rfl
  · exact .refl s

theorem sameTraffic_discardAll (l : List Packet) : ∀ s : State, SameTraffic s (discardAll l s) := by
  induction l with
  | nil => exact SameTraffic.refl
  | cons p l ih => exact fun s => (sameTraffic_discardPacket p s).trans (ih _)

/-! ## Link errors (R229, Table NW-8) -/

/-- A fence ends in the service record that it begins with: what is taken back lies in other groups. -/
theorem fenceLink_unitRec (i : Nat) (s : State) :
    (fenceLink i s).unitRec 0x14 i = { s.unitRec 0x14 i with st := .faulted, trigger := 0x0307, trigTs := s.now } := by
  have hunits : (fenceLink i s).units = (markFaulted 0x14 i 0x0307 s).units := by
    rw [fenceLink, fenceUnit, logUe_units]
    exact (revoke_only _ _ (List.Subset.refl _) Only.refl).keeps .units (by decide)
  rw [State.unitRec, hunits]
  exact setUnitRec_same ..

/-- The packet that an error strikes leaves flight, and no other. -/
theorem dropHit_traffic (hit : Option Nat) (s : State) : SameTraffic
    { s with net := { s.net with flight := match hit with | some i => s.net.flight.eraseIdx i | none => s.net.flight } } (dropHit hit s) := by
  cases hit with
  | none => exact .refl s
  | some i =>
    cases hp : s.net.flight[i]? with
    | none =>
      have hout : s.net.flight.eraseIdx i = s.net.flight := List.eraseIdx_of_length_le (List.getElem?_eq_none_iff.1 hp)
      simp only [dropHit, Option.bind_some, hp, Option.map_none, hout]
      exact .refl s
    | some p =>
      simp only [dropHit, Option.bind_some, hp, Option.map_some]
      exact sameTraffic_discardPacket p _

/-- The time of an uncorrectable Gale error of the link is kept. -/
def noteUe (i : Nat) (s : State) : State := { s with net := { s.net with lastUe := Tab.ins s.net.lastUe i s.now } }

/-- No error of the link within the last 1 ms. -/
theorem not_again {i : Nat} {s : State} (hfirst : ∀ e ∈ s.net.lastUe, e.1 = i → e.2 + 1000000 ≤ s.now) :
    ((s.net.lastUe.find? fun e => e.1 = i).elim false fun e => decide (s.now < e.2 + 1000000)) = false := by
  cases hf : s.net.lastUe.find? fun e => e.1 = i with
  | none => rfl
  | some e =>
    have hkey : e.1 = i := by simpa using List.find?_some hf
    rw [Option.elim_some]
    exact decide_eq_false (Nat.not_lt.2 (hfirst e (List.mem_of_find?_eq_some hf) hkey))

section LinkError

variable {l : LinkId} {net : NetKind} {hit : Option Nat} {s : State} (hlink : s.unitSt 0x14 (linkInst l) ≠ .faulted)

include hlink

theorem exec_linkError_corrected : exec (.linkError l net false hit) s = .next
    (logLimited 10000000 .ce 0x0306 0x14 (linkInst l) [linkInst l] .none (netCount 4 (linkInst l) s)) := by
  have hexec : exec (.linkError l net false hit) s = execLinkError l net false hit s := rfl
  simp only [hexec, execLinkError, hlink, if_false, Bool.not_false, if_true]

theorem linkError_corrected_counts : Answers (.linkError l net false hit) s fun t =>
    Tab.get 0 t.net.ctr (ctrKey 4 (linkInst l)) = Tab.get 0 s.net.ctr (ctrKey 4 (linkInst l)) + 1
      ∧ t.net.flight = s.net.flight ∧ KeepsBut [.net, .log, .link, .out] s t := by
  refine ⟨_, exec_linkError_corrected hlink, ?_, ?_,
    (logLimited_only _ _ _ _ _ _ _ (by decide) ((netCount_only ..).mono (by decide))).keeps⟩
  · rw [logLimited_net, netCount_ctr]
  · rw [logLimited_net, netCount_flight]

/-- On Breeze and Lull an uncorrectable error takes the link out of service. -/
theorem exec_linkError_fences (hnet : net ≠ .gale) : ∃ u, exec (.linkError l net true hit) s = .next (fenceLink (linkInst l) u) := by
  have hexec : exec (.linkError l net true hit) s = execLinkError l net true hit s := rfl
  cases net with
  | gale => exact absurd rfl hnet
  | breeze =>
    refine ⟨logUe .unit 0x0307 0x14 (linkInst l) [1] (netCount 5 (linkInst l) (dropBreeze hit s)), ?_⟩
    simp only [hexec, execLinkError, hlink, if_false, Bool.not_true, Bool.false_eq_true]
  | lull =>
    refine ⟨logUe .unit 0x0307 0x14 (linkInst l) [2] (netCount 5 (linkInst l) s), ?_⟩
    simp only [hexec, execLinkError, hlink, if_false, Bool.not_true, Bool.false_eq_true]

theorem linkError_fences (hnet : net ≠ .gale) : Answers (.linkError l net true hit) s fun t =>
    t.unitSt 0x14 (linkInst l) = .faulted ∧ (t.unitRec 0x14 (linkInst l)).trigger = 0x0307 := by
  obtain ⟨u, hu⟩ := exec_linkError_fences (hit := hit) hlink hnet
  refine ⟨_, hu, ?_, ?_⟩
  · rw [State.unitSt, fenceLink_unitRec]
  · rw [fenceLink_unitRec]

/-- The first uncorrectable Gale error of a link within 1 ms drops what it strikes. -/
theorem exec_linkError_drops (hfirst : ∀ e ∈ s.net.lastUe, e.1 = linkInst l → e.2 + 1000000 ≤ s.now) :
    exec (.linkError l .gale true hit) s = .next (logUe .operation 0x0307 0x14 (linkInst l) [0]
      (netCount 5 (linkInst l) (dropHit hit (noteUe (linkInst l) s)))) := by
  have hexec : exec (.linkError l .gale true hit) s = execLinkError l .gale true hit s := rfl
  simp only [hexec, execLinkError, hlink, if_false, Bool.not_true, Bool.false_eq_true, not_again hfirst, noteUe]

theorem linkError_drops (hfirst : ∀ e ∈ s.net.lastUe, e.1 = linkInst l → e.2 + 1000000 ≤ s.now) :
    Answers (.linkError l .gale true hit) s fun t =>
      Tab.get 0 t.net.ctr (ctrKey 5 (linkInst l)) = Tab.get 0 s.net.ctr (ctrKey 5 (linkInst l)) + 1
      ∧ t.net.flight = (match hit with | some i => s.net.flight.eraseIdx i | none => s.net.flight)
      ∧ KeepsBut [.mbx, .log, .vane, .net, .link, .out, .freeCtr] s t := by
  have hdrop := dropHit_traffic hit (noteUe (linkInst l) s)
  refine ⟨_, exec_linkError_drops hlink hfirst, ?_, ?_, ?_⟩
  · rw [logUe_net, netCount_ctr, hdrop.ctr]
    rfl
  · rw [logUe_net, netCount_flight, hdrop.flight]
    rfl
  · have hnote : Only [.mbx, .log, .vane, .net, .link, .out, .freeCtr] s (noteUe (linkInst l) s) := Only.atNet (by decide) Only.refl
    exact (logUe_only _ _ _ _ _ (by decide) ((netCount_only ..).after (by decide) (dropHit_only _ (by decide) hnote))).keeps

end LinkError

/-! ## The drain of an epoch (R225) -/

/-- Only traffic of the new parity is left. -/
def drained (s : State) : State :=
  { s with net := { s.net with
    flight := s.net.flight.filter fun p => sbEpoch p.sb = s.epochPar
    breeze := s.net.breeze.filter fun m => bzEpoch m.hdr = s.epochPar } }

theorem exec_routeDrainLate {s : State} (hstage : s.net.stage = 2) (hold : oldParity s ≠ [] ∨ oldBreeze s ≠ []) :
    exec .routeDrainLate s = .next (logUe .operation 0x0302 0x00 0
      [s.net.epoch.toNat, ((oldParity s).map galeFlits).sum + (oldBreeze s).length] (discardAll (oldParity s) (drained s))) := by
  refine congrArg Host.Outcome.next (if_pos ?_)
  obtain h | h := hold <;> simp [hstage, h]

theorem routeDrainLate_discards {s : State} (hstage : s.net.stage = 2) (hold : oldParity s ≠ [] ∨ oldBreeze s ≠ []) :
    Answers .routeDrainLate s fun t =>
      t.net.flight = (s.net.flight.filter fun p => sbEpoch p.sb = s.epochPar)
      ∧ t.net.breeze = (s.net.breeze.filter fun m => bzEpoch m.hdr = s.epochPar)
      ∧ KeepsBut [.mbx, .log, .vane, .net, .link, .out, .freeCtr] s t := by
  have hsame := sameTraffic_discardAll (oldParity s) (drained s)
  have hdrained : Only [.mbx, .log, .vane, .net, .link, .out, .freeCtr] s (drained s) := Only.atNet (by decide) Only.refl
  refine ⟨_, exec_routeDrainLate hstage hold, ?_, ?_,
    (logUe_only _ _ _ _ _ (by decide) (discardAll_only _ (by decide) hdrained)).keeps⟩
  · rw [logUe_net, hsame.flight, drained]
  · rw [logUe_net, hsame.breeze, drained]

/-! ## Breeze (R208 to R210, R223, R224) -/

/-- One bit of a mask that has been set or cleared. -/
theorem getLsbD_setBit {w : Nat} (x : BitVec w) (i j : Nat) (b : Bool) (hi : i < w) :
    (setBit x i b).getLsbD j = if j = i then b else x.getLsbD j := by
  have hmask : (BitVec.ofNat w (2 ^ i)).getLsbD j = decide (j = i) := by
    rw [BitVec.getLsbD_ofNat, Nat.testBit_two_pow]
    by_cases h : j = i
    · simp [h, hi]
    · simp [h, Ne.symm h]
  unfold setBit
  split
  · rw [BitVec.getLsbD_or, hmask]
    by_cases h : j = i <;> simp_all
  · rw [BitVec.getLsbD_and, BitVec.getLsbD_not, hmask]
    by_cases h : j = i
    · simp_all
    · simp only [h, decide_false, Bool.not_false, if_false, Bool.and_true]
      by_cases hj : j < w
      · simp [hj]
      · simp [hj, BitVec.getLsbD_of_ge x j (Nat.le_of_not_lt hj)]

/-- The bits of a field. -/
theorem testBit_fld {w : Nat} (x : BitVec w) (lo n i : Nat) : (fld x lo n).testBit i = (decide (i < n) && x.getLsbD (lo + i)) := by
  rw [fld, Nat.testBit_mod_two_pow, Nat.testBit_div_two_pow, BitVec.getLsbD, Nat.add_comm]

theorem bzEpoch_stampBreeze (s : State) (node : Nat) (h : BitVec 64) : bzEpoch (stampBreeze s node h) = s.routerPar node := by
  rw [bzEpoch, bit, stampBreeze, getLsbD_setBit _ _ _ _ (by decide), if_pos rfl]

/-- AGE is stamped into bits 18 to 27, which the mask has cleared. -/
theorem bzAge_stampBreeze (s : State) (node : Nat) (h : BitVec 64) : bzAge (stampBreeze s node h) = s.now / 8 % 1024 := by
  have hage : s.now / 8 % 1024 < 2 ^ 10 := Nat.mod_lt _ (by decide)
  have hclear : ∀ i < 10, (~~~ (0xFFC8000 : BitVec 64)).getLsbD (18 + i) = false := by decide
  refine Nat.eq_of_testBit_eq fun i => ?_
  rw [bzAge, testBit_fld]
  by_cases hi : i < 10
  · have hbit : (BitVec.ofNat 64 (s.now / 8 % 1024 * 2 ^ 18)).getLsbD (18 + i) = (s.now / 8 % 1024).testBit i := by
      rw [BitVec.getLsbD_ofNat, Nat.testBit_mul_two_pow]
      simp [show 18 + i < 64 by omega]
    rw [stampBreeze, getLsbD_setBit _ _ _ _ (by decide), if_neg (by omega), BitVec.getLsbD_or, BitVec.getLsbD_and, hclear i hi, hbit]
    simp [hi]
  · rw [Nat.testBit_lt_two_pow (hage.trans_le (Nat.pow_le_pow_right (by decide) (Nat.le_of_not_lt hi)))]
    simp [hi]

theorem injectBreeze_of_full {m : BreezeMsg} {s : State} (h : 4 ≤ breezeOut s m.src) : injectBreeze m s = (false, s) := if_pos h

theorem injectBreeze_of_routed {m : BreezeMsg} {s : State} (hroom : breezeOut s m.src < 4) (hlegal : bzLegal m.hdr = true)
    (hroute : breezeUnreachable s (m.src / 2) m.hdr = false) : injectBreeze m s =
      (true, { s with net := { s.net with breeze := s.net.breeze ++ [{ m with hdr := stampBreeze s (m.src / 2) m.hdr }] } }) := by
  simp only [injectBreeze, Nat.not_le.2 hroom, hlegal, hroute, if_false, Bool.not_true, Bool.false_eq_true]

theorem acceptBreeze_of_live {m : BreezeMsg} {s : State} (h : routerLive s (bzDst m.hdr) = true) : acceptBreeze m s =
    { s with net := { s.net with
      endpoints := Tab.put [] s.net.endpoints (bzDst m.hdr) (Tab.get [] s.net.endpoints (bzDst m.hdr) ++ [m]) } } := by
  simp only [acceptBreeze, h, Bool.not_true, Bool.false_eq_true, if_false]

theorem acceptBreeze_joins {m : BreezeMsg} {s : State} (h : routerLive s (bzDst m.hdr) = true) :
    Tab.get [] (acceptBreeze m s).net.endpoints (bzDst m.hdr) = Tab.get [] s.net.endpoints (bzDst m.hdr) ++ [m]
      ∧ KeepsBut [.net] s (acceptBreeze m s) := by
  rw [acceptBreeze_of_live h]
  exact ⟨Tab.get_put_self, (Only.atNet (by decide) Only.refl).keeps⟩

/-- Settles O35: each clause is the path of its command or operation on which the packet, message or error goes as it says. -/
theorem packetsAndLinks : Obligations.PacketsAndLinks := by
  refine ⟨?inject, fun _ _ _ => promotion_promotes, ?link, fun _ => routeDrainLate_discards, ?breeze⟩
  case inject =>
    intro node port sb0 data s sb allowed hsrc hlen
    have hsb : injected s node.val port.val sb0 = sb := rfl
    have hallowed : allowed = Allowed s node.val port.val sb := rfl
    rw [hallowed]
    clear_value allowed sb
    refine ⟨fun hfence hlegal hallow => ?_, exec_galeInject_of_refused hsrc hlen hsb⟩
    have hexec := exec_galeInject_of_legal hsrc hlen hsb hfence hlegal hallow
    exact ⟨fun hvc hfull => by rw [hexec, routeIn_of_full (entering s node.val port.val sb data) (port_ne_eddy hsrc) hvc hfull],
      fun hroom hmcast hroute => ⟨_, hexec, routeIn_launches (entering s node.val port.val sb data) hroom hmcast hroute⟩⟩
  case link =>
    intro l net hit s hlink
    refine ⟨linkError_corrected_counts hlink, linkError_fences hlink, ?_⟩
    rintro rfl hfirst
    exact linkError_drops hlink hfirst
  case breeze =>
    exact fun m s => ⟨injectBreeze_of_full, injectBreeze_of_routed, bzEpoch_stampBreeze .., bzAge_stampBreeze .., acceptBreeze_joins⟩

end Sys2Proof.NetCerts
end

section
/-!
PROOF. Route epochs, static windows and the network commands (spec/08_gale_breeze_lull.md R203 to R207, R221 to R226, R230): the banks
that a write or the start of an epoch leaves, the switch and the drain of an epoch, the turns of a window, and the three commands, each
from the lemma that says what its operation does on the path the statement takes.
-/
namespace Sys2Proof.EpochCerts

open Sys2Proof.Machine Sys2Proof.Laws
open Sys2Proof.NetCerts (SameTraffic)

/-! ## Route banks (R220, R221) -/

/-- The byte that a bank holds: what was written, else what firmware builds. -/
def heldByte (s : State) (shadow : Bool) (b : RouteBank) (node off : Nat) : Byte :=
  Tab.get (if b.caller then 0 else builtByte s shadow b node off) b.bytes (bankKey node off)

@[simp] theorem setBank_epochPar (p : Bool) (b : RouteBank) (s : State) : (setBank p b s).epochPar = s.epochPar := by
  cases p <;> rfl

@[simp] theorem setBank_stage (p : Bool) (b : RouteBank) (s : State) : (setBank p b s).net.stage = s.net.stage := by
  cases p <;> rfl

theorem bankByte_setBank_same (p : Bool) (b : RouteBank) (s : State) (node off : Nat) :
    bankByte (setBank p b s) p node off = heldByte s (p ≠ s.epochPar) b node off := by
  cases p <;> rfl

theorem bankByte_setBank_ne {p q : Bool} (h : q ≠ p) (b : RouteBank) (s : State) (node off : Nat) :
    bankByte (setBank p b s) q node off = bankByte s q node off := by
  obtain rfl : q = !p := Bool.eq_not_of_ne h
  cases p <;> rfl

/-- The write of one byte of a bank. -/
def putByte (p : Bool) (node off : Nat) (b : Byte) (s : State) : State :=
  if off < 812 then setBank p { s.bank p with bytes := Tab.ins (s.bank p).bytes (bankKey node off) b } s else s

theorem bankWrite_cons (p : Bool) (node off : Nat) (b : Byte) (l : List Byte) (s : State) :
    bankWrite p node off (b :: l) s = bankWrite p node (off + 1) l (putByte p node off b s) := rfl

@[simp] theorem putByte_epochPar (p : Bool) (node off : Nat) (b : Byte) (s : State) : (putByte p node off b s).epochPar = s.epochPar := by
  unfold putByte
  split
  · exact setBank_epochPar ..
  · rfl

@[simp] theorem putByte_stage (p : Bool) (node off : Nat) (b : Byte) (s : State) : (putByte p node off b s).net.stage = s.net.stage := by
  unfold putByte
  split
  · exact setBank_stage ..
  · rfl

/-- No two places of the banks share a key. -/
theorem bankKey_inj {n o node off : Nat} (ho : o < 812) (hoff : off < 812) : bankKey n o = bankKey node off ↔ n = node ∧ o = off := by
  unfold bankKey
  omega

theorem bankByte_putByte {o : Nat} (ho : o < 812) (p : Bool) (node off : Nat) (b : Byte) (s : State) (n : Nat) :
    bankByte (putByte p node off b s) p n o = if n = node ∧ o = off then b else bankByte s p n o := by
  unfold putByte
  split
  case isTrue hoff =>
    rw [bankByte_setBank_same, heldByte, Tab.get_ins]
    exact if_congr (bankKey_inj ho hoff) rfl rfl
  case isFalse hoff => rw [if_neg (by omega)]

theorem bankByte_putByte_ne {p q : Bool} (h : q ≠ p) (node off : Nat) (b : Byte) (s : State) (n o : Nat) :
    bankByte (putByte p node off b s) q n o = bankByte s q n o := by
  unfold putByte
  split
  · exact bankByte_setBank_ne h ..
  · rfl

@[simp] theorem bankWrite_epochPar (p : Bool) (node off : Nat) (l : List Byte) (s : State) :
    (bankWrite p node off l s).epochPar = s.epochPar := by
  induction l generalizing off s with
  | nil => rfl
  | cons b l ih => rw [bankWrite_cons, ih, putByte_epochPar]

@[simp] theorem bankWrite_stage (p : Bool) (node off : Nat) (l : List Byte) (s : State) :
    (bankWrite p node off l s).net.stage = s.net.stage := by
  induction l generalizing off s with
  | nil => rfl
  | cons b l ih => rw [bankWrite_cons, ih, putByte_stage]

theorem bankByte_bankWrite_ne {p q : Bool} (h : q ≠ p) (node off : Nat) (l : List Byte) (s : State) (n o : Nat) :
    bankByte (bankWrite p node off l s) q n o = bankByte s q n o := by
  induction l generalizing off s with
  | nil => rfl
  | cons b l ih => rw [bankWrite_cons, ih, bankByte_putByte_ne h]

/-- Outside the places written the bank keeps its bytes. -/
theorem bankByte_bankWrite_outside {o n node off : Nat} {l : List Byte} (ho : o < 812) (h : n = node → ¬ (off ≤ o ∧ o < off + l.length))
    (p : Bool) (s : State) : bankByte (bankWrite p node off l s) p n o = bankByte s p n o := by
  induction l generalizing off s with
  | nil => rfl
  | cons b l ih =>
    rw [List.length_cons] at h
    rw [bankWrite_cons, ih (fun hn => by have := h hn; omega), bankByte_putByte ho, if_neg fun ⟨hn, hoff⟩ => by have := h hn; omega]

/-- Each place written holds its byte. -/
theorem bankByte_bankWrite_inside {i off : Nat} {l : List Byte} (hi : i < l.length) (ho : off + i < 812) (p : Bool) (node : Nat) (s : State) :
    bankByte (bankWrite p node off l s) p node (off + i) = l[i] := by
  induction l generalizing i off s with
  | nil => exact absurd hi (Nat.not_lt_zero i)
  | cons b l ih =>
    cases i with
    | zero =>
      rw [bankWrite_cons, bankByte_bankWrite_outside ho (fun _ => by omega), bankByte_putByte ho, if_pos ⟨rfl, rfl⟩, List.getElem_cons_zero]
    | succ i =>
      have hnext : off + (i + 1) = off + 1 + i := by omega
      rw [hnext] at ho ⊢
      rw [bankWrite_cons, ih (Nat.lt_of_succ_lt_succ hi) ho, List.getElem_cons_succ]

/-! ## The start of an epoch (R226) -/

theorem startEpoch_of_running {s : State} (h : s.net.stage ≠ 0) : startEpoch s = s := if_pos h

theorem startEpoch_of_idle {s : State} (h : s.net.stage = 0) : startEpoch s =
    setBank (!s.epochPar) (nextBank s s.net.next) { s with net := { s.net with stage := 1, plan := s.net.next, next := {} } } :=
  if_neg (not_not_intro h)

theorem startEpoch_stage {s : State} (h : s.net.stage = 0) : (startEpoch s).net.stage = 1 := by
  rw [startEpoch_of_idle h, setBank_stage]

theorem startEpoch_plan {s : State} (h : s.net.stage = 0) : (startEpoch s).net.plan = s.net.next := by
  rw [startEpoch_of_idle h]
  cases s.epochPar <;> rfl

theorem startEpoch_epoch (s : State) : (startEpoch s).net.epoch = s.net.epoch := by
  by_cases h : s.net.stage = 0
  · rw [startEpoch_of_idle h]
    cases s.epochPar <;> rfl
  · rw [startEpoch_of_running h]

@[simp] theorem startEpoch_epochPar (s : State) : (startEpoch s).epochPar = s.epochPar :=
  congrArg (fun e => e.getLsbD 0) (startEpoch_epoch s)

/-- The bank in use stays as it is. -/
theorem bankByte_startEpoch (s : State) (n o : Nat) : bankByte (startEpoch s) s.epochPar n o = bankByte s s.epochPar n o := by
  by_cases h : s.net.stage = 0
  · rw [startEpoch_of_idle h, bankByte_setBank_ne (Bool.self_ne_not _)]
    rfl
  · rw [startEpoch_of_running h]

/-! ## A route bank write (R221, R224) -/

section BankWrite

variable (node : Fin 128) (off : BitVec 16) (data : Vector Byte 12) (s : State)

/-- The banks after the write, in an epoch that it begins when none runs. -/
def written : State := bankWrite (!s.epochPar) node.val off.toNat data.toList (startEpoch s)

/-- The router reports the CRC-32C of its bank after the write of the last byte. -/
def reported : State :=
  if off.toNat < 812 && 812 ≤ off.toNat + 12 then
    send (.flit node.val "bank crc" [bankCrc (written node off data s) (!s.epochPar) node.val]) (written node off data s)
  else written node off data s

theorem exec_routeBankWrite (h : s.net.stage ≠ 2) : exec (.routeBankWrite node off data) s = .next (reported node off data s) := by
  have hexec : exec (.routeBankWrite node off data) s = execRouteBankWrite node off data s := rfl
  simp only [hexec, execRouteBankWrite, if_neg h, startEpoch_epochPar]
  rfl

/-- A report changes no bank. -/
theorem reported_bankByte (p : Bool) (n o : Nat) : bankByte (reported node off data s) p n o = bankByte (written node off data s) p n o := by
  unfold reported
  split <;> rfl

theorem reported_net : (reported node off data s).net = (written node off data s).net := by
  unfold reported
  split <;> rfl

theorem reported_only : Only [.net, .out] s (reported node off data s) := by
  have hwritten : Only [.net, .out] s (written node off data s) :=
    bankWrite_only _ _ _ _ (by decide) (startEpoch_only (by decide) Only.refl)
  unfold reported
  split
  · exact send_only _ (by decide) hwritten
  · exact hwritten

theorem written_inside {i : Nat} (hi : i < 12) (ho : off.toNat + i < 812) :
    bankByte (written node off data s) (!s.epochPar) node.val (off.toNat + i) = data[i] := by
  rw [written, bankByte_bankWrite_inside (by simpa using hi) ho, Vector.getElem_toList]

theorem written_outside {n : Fin 128} {o : Nat} (hstage : s.net.stage = 1) (ho : o < 812)
    (h : n = node → ¬ (off.toNat ≤ o ∧ o < off.toNat + 12)) :
    bankByte (written node off data s) (!s.epochPar) n.val o = bankByte s (!s.epochPar) n.val o := by
  have hout : n.val = node.val → ¬ (off.toNat ≤ o ∧ o < off.toNat + data.toList.length) := by
    rw [Vector.length_toList]
    exact fun hn => h (Fin.ext hn)
  rw [written, bankByte_bankWrite_outside ho hout, startEpoch_of_running (by omega)]

theorem written_current (n o : Nat) : bankByte (written node off data s) s.epochPar n o = bankByte s s.epochPar n o := by
  rw [written, bankByte_bankWrite_ne (Bool.self_ne_not _), bankByte_startEpoch]

theorem written_stage (h : s.net.stage = 0) : (written node off data s).net.stage = 1 := by
  rw [written, bankWrite_stage, startEpoch_stage h]

theorem reported_crc (hoff : off.toNat < 812) (hlast : 800 ≤ off.toNat) :
    .flit node.val "bank crc" [bankCrc (reported node off data s) (!s.epochPar) node.val] ∈ (reported node off data s).out.sent := by
  have hcrc : bankCrc (reported node off data s) (!s.epochPar) node.val = bankCrc (written node off data s) (!s.epochPar) node.val :=
    congrArg (fun f => crc32c ((List.range 812).map f)) (funext fun o => reported_bankByte ..)
  have hcovers : (decide (off.toNat < 812) && decide (812 ≤ off.toNat + 12)) = true := by
    simpa [hoff] using Nat.add_le_add_right hlast 12
  rw [hcrc, reported, if_pos hcovers]
  exact List.mem_cons_self ..

end BankWrite

/-! ## The switch (R224) -/

theorem lullSet_net (o payload : Nat) (s : State) : ∃ l, (lullSet o payload s).net = { s.net with triggered := l } := by
  have hevent : ∀ p, (eventSet o p s).net = s.net := fun p =>
    (eventSet_only o p (List.Subset.refl _) Only.refl).keeps .net (by decide)
  unfold lullSet triggerSet
  split
  · exact ⟨_, by rw [hevent]⟩
  · exact ⟨s.net.triggered, hevent _⟩

theorem sameTraffic_trySend (k : Nat) (x : Packet) (s : State) : SameTraffic s (trySend k x s).2 := by
  have hkeep : ∀ {t : State}, Only [.link, .out] s t → SameTraffic s t := fun h => .of_net (h.keeps .net (by decide))
  unfold trySend
  dsimp only
  split
  case isTrue =>
    split
    · split
      · exact hkeep (emitSealed_only _ _ _ (by decide) Only.refl)
      · exact .refl s
    split
    · exact .of_net rfl
    · refine SameTraffic.trans (.of_net ?_) (NetCerts.sameTraffic_discardPacket x _)
      rfl
  case isFalse =>
    split
    · exact hkeep (emitPacket_only _ _ (by decide) Only.refl)
    · exact .refl s

theorem sameTraffic_sendList (k : Nat) (l : List Packet) : ∀ s : State, SameTraffic s (sendList k l s).2 := by
  induction l with
  | nil => exact SameTraffic.refl
  | cons x l ih => exact fun s => (sameTraffic_trySend k x s).trans (ih _)

theorem sameTraffic_pumpPort (k : Nat) (s : State) : SameTraffic s (pumpPort k s) :=
  sameTraffic_sendList k (s.gport k).waitq (modGport k (fun p => { p with waitq := [] }) s)

theorem sameTraffic_portUp (k : Nat) (s : State) : SameTraffic s (portUp k s) := by
  refine SameTraffic.trans (.of_net ?_) (sameTraffic_pumpPort k _)
  refine Only.keeps (gs := [.mbx, .log, .units, .link, .out]) (s := s) ?_ .net (by decide)
  exact completeAwait_only _ _ (by decide) (linkFlit_only _ _ _ _ (by decide) (setPortSt_only _ _ (by decide)
    (modGport_only _ _ (by decide) Only.refl)))

theorem sameTraffic_admitUnit (ut inst : Nat) (s : State) : SameTraffic s (admitUnit ut inst s) := by
  unfold admitUnit
  split
  case isTrue =>
    split
    · exact sameTraffic_portUp inst s
    · exact .refl s
  case isFalse =>
    split
    · exact .of_net ((liftFence_only ut inst (gs := [.units, .bond, .link]) (by decide)
        (setUnitSt_only ut inst .inService (by decide) Only.refl)).keeps .net (by decide))
    · exact .refl s

theorem sameTraffic_admitUnits (l : List (Nat × Nat)) : ∀ s : State, SameTraffic s (admitUnits l s) := by
  induction l with
  | nil => exact SameTraffic.refl
  | cons u l ih => exact fun s => (sameTraffic_admitUnit u.1 u.2 s).trans (ih _)

/-- The epoch has advanced, and nothing has joined yet. -/
def advanced (s : State) : State :=
  { s with net := { s.net with epoch := s.net.epoch + 1, stage := 2, switchedAt := s.now, gwLive := liveGateways s } }

/-- Units have joined, system objects have their new homes, and groups have entered and left. -/
def regrouped (s : State) : State := switchGroups (rehome (admitUnits s.net.plan.joins (advanced s)))

theorem sameTraffic_regrouped (s : State) : SameTraffic (advanced s) (regrouped s) := by
  refine (sameTraffic_admitUnits s.net.plan.joins (advanced s)).trans (.of_net ?_)
  exact (switchGroups_only (gs := [.coll, .lull]) (by decide) (rehome_only (by decide) Only.refl)).keeps .net (by decide)

/-- What joins, changes or is told at the switch leaves the epoch as it has advanced. -/
theorem epochBegins_net (s : State) : ∃ image shadow l,
    (epochBegins s).net = { (advanced s).net with image := image, shadow := shadow, triggered := l } := by
  have hanswer : ∀ l, (answerGroups l (regrouped s)).net = (regrouped s).net := fun l =>
    (answerGroups_only l (List.Subset.refl _) Only.refl).keeps .net (by decide)
  obtain ⟨image, shadow, hnet⟩ := sameTraffic_regrouped s
  obtain ⟨l, hset⟩ := lullSet_net 1 (regrouped s).net.epoch.toNat (answerGroups (regrouped s).mbx.box (regrouped s))
  exact ⟨image, shadow, l, hset.trans (by rw [hanswer, hnet])⟩

/-- The set of the epoch-switch object has reached a router. -/
def turned (node : Fin 128) (s : State) : State := { s with net := { s.net with parity := setBit s.net.parity node.val s.epochPar } }

theorem turned_routerPar (node : Fin 128) (s : State) : (turned node s).routerPar node.val = (turned node s).epochPar := by
  have hbit : (setBit s.net.parity node.val s.epochPar).getLsbD node.val = s.epochPar := by
    rw [NetCerts.getLsbD_setBit _ _ _ _ node.isLt, if_pos rfl]
  exact hbit

theorem exec_epochSwitch_first {s : State} (node : Fin 128) (h : s.net.stage = 1) :
    exec (.epochSwitch node) s = .next (turned node (epochBegins s)) := by
  have hexec : exec (.epochSwitch node) s = execEpochSwitch node s := rfl
  rw [hexec, execEpochSwitch, if_neg (by omega), if_pos h]
  rfl

theorem exec_epochSwitch_later {s : State} (node : Fin 128) (h : s.net.stage = 2) :
    exec (.epochSwitch node) s = .next (turned node s) := by
  have hexec : exec (.epochSwitch node) s = execEpochSwitch node s := rfl
  rw [hexec, execEpochSwitch, if_neg (by omega), if_neg (by omega)]
  rfl

theorem epochSwitch_advances {s : State} (node : Fin 128) (h : s.net.stage = 1) : Answers (.epochSwitch node) s fun t =>
    t.net.epoch = s.net.epoch + 1 ∧ t.net.stage = 2 ∧ t.routerPar node.val = t.epochPar ∧ t.net.switchedAt = s.now := by
  obtain ⟨image, shadow, l, hnet⟩ := epochBegins_net s
  refine ⟨_, exec_epochSwitch_first node h, ?_, ?_, turned_routerPar .., ?_⟩ <;> rw [turned, hnet] <;> rfl

/-! ## The end of the drain (R225) -/

/-- The old bank is released. -/
def idled (s : State) : State := { s with net := { s.net with stage := 0, plan := {} } }

/-- The duration of the drain in ns. -/
def drainTime (s : State) : Nat := s.now - s.net.switchedAt

/-- The epoch has ended: its record, and the answer of ROUTE_EPOCH. -/
def settled (s : State) : State :=
  completeAwait (fun a => a = .routeEpoch) { status := 0, res := [s.net.epoch.toNat, drainTime s] }
    (logInfo 0x0301 0x00 0 [s.net.epoch.toNat, drainTime s] (idled s))

@[simp] theorem logInfo_net (code ut inst : Nat) (d : List Nat) (s : State) : (logInfo code ut inst d s).net = s.net :=
  (logInfo_only code ut inst d (List.Subset.refl _) Only.refl).keeps .net (by decide)

theorem settled_net (s : State) : (settled s).net = { s.net with stage := 0, plan := {} } := logInfo_net ..

theorem settled_log (s : State) : (settled s).log = (logInfo 0x0301 0x00 0 [s.net.epoch.toNat, drainTime s] s).log := by
  have hlog : (settled s).log = (logInfo 0x0301 0x00 0 [s.net.epoch.toNat, drainTime s] (idled s)).log := rfl
  rw [hlog, PinCerts.logInfo_log, PinCerts.logInfo_log]
  rfl

theorem settled_box {s : State} {k : Nat} (h : (s.box k).await = some .routeEpoch) : (settled s).box k =
    { s.box k with await := none, outbox := (s.box k).outbox ++ [{ status := 0, res := [s.net.epoch.toNat, drainTime s] }] } := by
  have hbox : (idled s).box k = s.box k := rfl
  rw [settled, StreamCerts.completeAwait_box, StreamCerts.logInfo_box, hbox, StreamCerts.answered_of_waiting _ h (decide_eq_true rfl)]

theorem settled_only (s : State) : Only [.net, .mbx, .log, .link, .out] s (settled s) :=
  completeAwait_only _ _ (by decide) (logInfo_only _ _ _ _ (by decide) (Only.atNet (by decide) Only.refl))

/-- With no unit that joins or leaves and no plan that waits, the drain ends so. -/
theorem drainEnds_eq {s : State} (hjoins : s.net.plan.joins = []) (hleaves : s.net.plan.leaves = []) (hnext : s.net.next = {}) :
    drainEnds s = settled s := by
  have hdrain : drainEnds s = startNext (leaveAll s.net.plan.leaves (noteReturned s.net.plan.joins (settled s))) := rfl
  have hidle : (settled s).net.next = {} := by rw [settled_net, hnext]
  rw [hdrain, hjoins, hleaves]
  exact if_pos hidle

theorem exec_epochDrainDone {s : State} (hstage : s.net.stage = 2) (hflits : oldParity s = []) (hbreeze : oldBreeze s = []) :
    exec .epochDrainDone s = .next (drainEnds s) :=
  congrArg Host.Outcome.next (if_pos (by simp [hstage, hflits, hbreeze]))

/-! ## Static windows (R205, R206) -/

theorem openWindow_windows {w : Nat} {img : SchedImage} {s : State}
    (h : ∃ e ∈ s.net.triggered, e.1 = (img.windows.getD w (0, 0)).1 ∧ e.2.1 ≤ s.turn ∧ w ∉ e.2.2) :
    (openWindow w img s).net.windows = s.net.windows ++ [{ idx := w, turn := s.turn }] := by
  unfold openWindow
  dsimp only
  split
  case h_1 hnone =>
    obtain ⟨e, he, hobj, hturn, hnew⟩ := h
    exact absurd (List.find?_eq_none.1 hnone e he) (by simp [hobj, hturn, hnew])
  case h_2 => rfl

theorem exec_windowOpen {w : Fin 16} {img : SchedImage} {s : State} (himg : s.net.image = some img) (hshadow : s.net.shadow = none)
    (hw : w.val < img.windows.length) (hfree : ∀ x ∈ s.net.windows, x.idx ≠ w.val ∧ windowsOverlap img x.idx w.val = false) :
    exec (.windowOpen w) s = .next (openWindow w.val img s) := by
  have hexec : exec (.windowOpen w) s = execWindowOpen w s := rfl
  have hany : (s.net.windows.any fun x => x.idx = w.val || windowsOverlap img x.idx w.val) = false := by
    simpa using hfree
  simp only [hexec, execWindowOpen, himg, hshadow, hany, Nat.not_le.2 hw, Option.isSome_none, decide_false, Bool.or_self, Bool.false_eq_true,
    if_false]

/-- The groups of the sealed units have closed the window, and it is open no more. -/
def windowEnded (w : Fin 16) (x : OpenWindow) (late : BitVec 16) (inbound : List StreamData) (s : State) : State :=
  let t := meeClose w.val x.broken late inbound (List.range 16) s
  countRefresh w.val x.broken { t with net := { t.net with windows := t.net.windows.filter fun y => y.idx ≠ w.val } }

theorem windowEnded_windows (w : Fin 16) (x : OpenWindow) (late : BitVec 16) (inbound : List StreamData) (s : State) :
    (windowEnded w x late inbound s).net.windows = s.net.windows.filter fun y => y.idx ≠ w.val := by
  have hcount : ∀ t, (countRefresh w.val x.broken t).net = t.net := fun t =>
    (countRefresh_only _ _ (List.Subset.refl _) Only.refl).keeps .net (by decide)
  have hclose : (meeClose w.val x.broken late inbound (List.range 16) s).net = s.net :=
    (meeClose_only _ _ _ _ _ (List.Subset.refl _) Only.refl).keeps .net (by decide)
  simp only [windowEnded, hcount, hclose]

section WindowClose

variable {w : Fin 16} {img : SchedImage} {x : OpenWindow} {s : State} (late : BitVec 16) (inbound : List StreamData)
  (himg : s.net.image = some img) (hfind : s.net.windows.find? (fun y => y.idx = w.val) = some x)

include himg hfind

/-- The window is over by the length that the image gives it. -/
theorem windowOver_of_find : windowOver s x = decide (x.turn + (img.windows.getD w.val (0, 0)).2 ≤ s.turn) := by
  have hidx : x.idx = w.val := by simpa using List.find?_some hfind
  rw [windowOver, himg, Option.elim_some, hidx]

theorem exec_windowClose_of_over (hover : x.turn + (img.windows.getD w.val (0, 0)).2 ≤ s.turn) : exec (.windowClose w late inbound) s =
    .next (releaseLeaving (trySwitch (releaseInvals (windowEnded w x late inbound s)))) := by
  have hexec : exec (.windowClose w late inbound) s = execWindowClose w late inbound s := rfl
  simp only [hexec, execWindowClose, hfind, windowOver_of_find himg hfind, decide_eq_true hover, Bool.not_true, Bool.false_eq_true, if_false]
  rfl

theorem exec_windowClose_of_open (hopen : s.turn < x.turn + (img.windows.getD w.val (0, 0)).2) :
    exec (.windowClose w late inbound) s = .next s := by
  have hexec : exec (.windowClose w late inbound) s = execWindowClose w late inbound s := rfl
  simp only [hexec, execWindowClose, hfind, windowOver_of_find himg hfind, decide_eq_false (Nat.not_le.2 hopen), Bool.not_false, if_true]

end WindowClose

/-! ## NET_STATUS (R230) -/

theorem exec_netStatus {n : Fin 16} {s : State} (hrun : Runs s n 0x0301) (hexp : (s.box n.val).exp = false) :
    exec (.netStatus n) s = .next (replyDone n.val
      ([s.net.epoch.toNat, s.net.stage, s.net.image.elim 0 fun i => i.id.toNat] ++ (List.range 4).map fun v => Tab.get 0 s.net.ctr (ctrKey v 0))
      (leBytes 16 (deadRouters s).toNat ++ leBytes 16 (routersIn s (· = .faulted)).toNat ++ leBytes 16 (routersIn s (· = .probation)).toNat)
      (s.freed n)) := by
  have hexec : exec (.netStatus n) s = execNetStatus n s := rfl
  rw [hexec, execNetStatus, command_run hrun first_none]
  simp only [hexp, Bool.false_eq_true, if_false, List.append_nil]
  rfl

/-! ## SCHED_LOAD (R203, R206) -/

section SchedLoad

variable {n : Fin 16} {struck : List (BitVec 48 × Fin 72)} {img : SchedImage} {s0 s u : State}

/-- The image has become the shadow copy, and the command waits for the switch. -/
def imageTaken (n : Nat) (img : SchedImage) (u : State) : State :=
  setAwait n .schedSwitch (replyAccepted n { u with net := { u.net with shadow := some img } })

theorem imageTaken_only (n : Nat) (img : SchedImage) (u : State) : Only [.net, .mbx] u (imageTaken n img u) :=
  setAwait_only _ _ (by decide) (replyAccepted_only _ (by decide) (Only.atNet (by decide) Only.refl))

theorem imageTaken_box (n : Nat) (img : SchedImage) (u : State) : (imageTaken n img u).box n =
    { u.box n with outbox := (u.box n).outbox ++ [{ status := 1 }], await := some .schedSwitch } := by
  have hbox : State.box { u with net := { u.net with shadow := some img } } n = u.box n := rfl
  rw [imageTaken, setAwait, box_setBox_self, replyAccepted, box_reply, hbox]

/-- The shadow copy has become current, and every command that waits for it is answered. -/
def imageSwitched (img : SchedImage) (s : State) : State :=
  completeAwait (fun a => a = .schedSwitch) { status := 0, res := [img.id.toNat] } { s with net := { s.net with image := some img, shadow := none } }

theorem trySwitch_of_free (hshadow : s.net.shadow = some img) (hwin : s.net.windows = []) (hvane : vaneBlocks s img = false) :
    trySwitch s = imageSwitched img s := by
  have hfree : (s.net.windows.isEmpty && !vaneBlocks s img) = true := by simp [hwin, hvane]
  simp only [trySwitch, hshadow, hfree, if_true]
  rfl

theorem trySwitch_of_blocked (hshadow : s.net.shadow = some img) (h : s.net.windows ≠ [] ∨ vaneBlocks s img = true) : trySwitch s = s := by
  have hwait : (s.net.windows.isEmpty && !vaneBlocks s img) = false := by
    obtain hwin | hvane := h
    · simp [hwin]
    · simp [hvane]
  simp only [trySwitch, hshadow, hwait, Bool.false_eq_true, if_false]

theorem takeImage_of_ok {m : Mbx} (v : Bool) (himg : imageAt m s = (.ok img, u)) : takeImage n.val v m s =
    if v then replyDone n.val [img.id.toNat] [] u else trySwitch (imageTaken n.val img u) := by
  simp only [takeImage, himg]
  rfl

/-- SCHED_LOAD past its checks: a shadow copy that waits is BUSY but to VALIDATE_ONLY. -/
theorem exec_schedLoad (hs : strikeAll struck s0 = s) (hrun : Runs s n 0x0302) (hpart : mbxPart s n.val = 0)
    (hdetail : schedDetail (s.box n.val) s = none) (harg : (s.box n.val).exp = true → (s.box n.val).arg 3 < 2)
    (hbusy : validateOnly (s.box n.val) = false → s.net.shadow = none) : exec (.schedLoad n struck) s0 =
      .next (takeImage n.val (validateOnly (s.box n.val)) (s.box n.val) (s.freed n)) := by
  have hexec : exec (.schedLoad n struck) s0 = execSchedLoad n struck s0 := rfl
  have hform : ((s.box n.val).exp && decide (2 ≤ (s.box n.val).arg 3)) = false := by
    cases hexp : (s.box n.val).exp with
    | false => rfl
    | true => simpa using harg hexp
  have hwaits : (s.net.shadow.isSome && !validateOnly (s.box n.val)) = false := by
    cases hv : validateOnly (s.box n.val) with
    | false => rw [hbusy hv]; rfl
    | true => exact Bool.and_false _
  rw [hexec, execSchedLoad, hs, command_run hrun]
  rw [failIf_false (c := decide (mbxPart s n.val ≠ 0)) (by simp [hpart]), failIf_false hform, failIf_false hwaits, hdetail]
  rfl

section Taken

variable (hs : strikeAll struck s0 = s) (hrun : Runs s n 0x0302) (hpart : mbxPart s n.val = 0)
  (hdetail : schedDetail (s.box n.val) s = none) (himg : imageAt (s.box n.val) (s.freed n) = (.ok img, u))

include hs hrun hpart hdetail himg

theorem schedLoad_validates (hexp : (s.box n.val).exp = true) (harg : (s.box n.val).arg 3 = 1) :
    exec (.schedLoad n struck) s0 = .next (replyDone n.val [img.id.toNat] [] u) := by
  have hv : validateOnly (s.box n.val) = true := by rw [validateOnly, hexp, decide_eq_true harg, Bool.and_self]
  rw [exec_schedLoad hs hrun hpart hdetail (fun _ => by omega) (fun h => absurd (hv.symm.trans h) Bool.true_eq_false.mp),
    takeImage_of_ok _ himg, hv, if_pos rfl]

theorem exec_schedLoad_taken (hexp : (s.box n.val).exp = false) (hshadow : s.net.shadow = none) :
    exec (.schedLoad n struck) s0 = .next (trySwitch (imageTaken n.val img u)) := by
  have hv : validateOnly (s.box n.val) = false := by rw [validateOnly, hexp, Bool.false_and]
  rw [exec_schedLoad hs hrun hpart hdetail (fun h => absurd (hexp.symm.trans h) Bool.false_ne_true) (fun _ => hshadow),
    takeImage_of_ok _ himg, hv, if_neg Bool.false_ne_true]

theorem schedLoad_switches (hexp : (s.box n.val).exp = false) (hshadow : s.net.shadow = none) (hwin : u.net.windows = [])
    (hvane : vaneBlocks u img = false) : Answers (.schedLoad n struck) s0 fun t =>
      t.net.image = some img ∧ t.net.shadow = none
      ∧ (t.box n.val).outbox = (u.box n.val).outbox ++ [{ status := 1 }, { status := 0, res := [img.id.toNat] }]
      ∧ KeepsBut [.net, .mbx] u t := by
  have hexec := exec_schedLoad_taken hs hrun hpart hdetail himg hexp hshadow
  rw [trySwitch_of_free (s := imageTaken n.val img u) rfl hwin hvane] at hexec
  refine ⟨_, hexec, rfl, rfl, ?_, (completeAwait_only _ _ (by decide) (Only.atNet (by decide) (imageTaken_only ..))).keeps⟩
  have hbox : State.box { imageTaken n.val img u with net := { (imageTaken n.val img u).net with image := some img, shadow := none } } n.val =
      (imageTaken n.val img u).box n.val := rfl
  rw [imageSwitched, StreamCerts.completeAwait_box, hbox, imageTaken_box, StreamCerts.answered_of_waiting _ rfl (decide_eq_true rfl)]
  exact List.append_assoc ..

theorem schedLoad_waits (hexp : (s.box n.val).exp = false) (hshadow : s.net.shadow = none)
    (hblock : u.net.windows ≠ [] ∨ vaneBlocks u img = true) : Answers (.schedLoad n struck) s0 fun t =>
      t.net.image = u.net.image ∧ t.net.shadow = some img ∧ (t.box n.val).await = some .schedSwitch
      ∧ (t.box n.val).outbox = (u.box n.val).outbox ++ [{ status := 1 }] ∧ KeepsBut [.net, .mbx] u t := by
  have hexec := exec_schedLoad_taken hs hrun hpart hdetail himg hexp hshadow
  rw [trySwitch_of_blocked (s := imageTaken n.val img u) rfl hblock] at hexec
  refine ⟨_, hexec, rfl, rfl, ?_, ?_, (imageTaken_only ..).keeps⟩ <;> rw [imageTaken_box]

end Taken

end SchedLoad

/-! ## ROUTE_EPOCH (R222, R226, R230) -/

section RouteEpoch

variable {n : Fin 16} {struck : List (BitVec 48 × Fin 72)} {s0 s : State}

theorem exec_routeEpoch (hs : strikeAll struck s0 = s) (hrun : Runs s n 0x0303) (hstage : s.net.stage = 0)
    (hexpert : (s.box n.val).exp = true → mbxPart s n.val = 0 ∧ (banksAt (s.box n.val) s).1.isSome = true) :
    exec (.routeEpoch n struck) s0 = .next (setAwait n.val .routeEpoch (replyAccepted n.val
      (if (s.box n.val).exp then callerShadow (s.box n.val) (startEpoch (s.freed n)) else startEpoch (s.freed n)))) := by
  have hexec : exec (.routeEpoch n struck) s0 = execRouteEpoch n struck s0 := rfl
  have hpart : ((s.box n.val).exp && decide (mbxPart s n.val ≠ 0)) = false := by
    cases hexp : (s.box n.val).exp with
    | false => rfl
    | true => simpa using (hexpert hexp).1
  have hbanks : ((s.box n.val).exp && (banksAt (s.box n.val) s).1.isNone) = false := by
    cases hexp : (s.box n.val).exp with
    | false => rfl
    | true => rw [Bool.true_and, Option.isNone_eq_false_iff, (hexpert hexp).2]
  rw [hexec, execRouteEpoch, hs, command_run hrun]
  rw [failIf_false hpart, failIf_false hbanks, failIf_false (c := decide (s.net.stage ≠ 0)) (by simp [hstage])]
  rfl

theorem routeEpoch_starts (hs : strikeAll struck s0 = s) (hrun : Runs s n 0x0303) (hstage : s.net.stage = 0)
    (hexp : (s.box n.val).exp = false) : Answers (.routeEpoch n struck) s0 fun t =>
      t.net.stage = 1 ∧ t.net.plan = s.net.next ∧ t.net.epoch = s.net.epoch
      ∧ (t.box n.val).await = some .routeEpoch ∧ (t.box n.val).outbox = (s.box n.val).outbox ++ [{ status := 1 }]
      ∧ KeepsBut [.net, .mbx] s t := by
  have hexec := exec_routeEpoch hs hrun hstage fun h => absurd (hexp.symm.trans h) Bool.false_ne_true
  rw [hexp, if_neg Bool.false_ne_true] at hexec
  have hfreed : (s.freed n).net.stage = 0 := hstage
  have hmbx : (startEpoch (s.freed n)).mbx = (s.freed n).mbx :=
    (startEpoch_only (List.Subset.refl _) Only.refl).keeps .mbx (by decide)
  have hbox : (startEpoch (s.freed n)).box n.val = { s.box n.val with job := none } := by
    rw [State.box, hmbx]
    exact box_freed s n
  refine ⟨_, hexec, startEpoch_stage hfreed, startEpoch_plan hfreed, startEpoch_epoch _, PinCerts.setAwait_await .., ?_,
    (setAwait_only _ _ (by decide) (replyAccepted_only _ (by decide) (startEpoch_only (by decide)
      (setBox_only _ _ (by decide) Only.refl)))).keeps⟩
  rw [setAwait, box_setBox_self, replyAccepted, box_reply, hbox]

end RouteEpoch

/-- Settles O36: each clause by the lemma that says what its operation or command does. -/
theorem epochsAndWindows : Obligations.EpochsAndWindows := by
  refine ⟨?write, fun node s => ⟨epochSwitch_advances node, exec_epochSwitch_later node⟩, ?drain, ?window, fun _ _ => exec_netStatus,
    fun struck _ => (strikeAll_only struck (List.Subset.refl _) Only.refl).keeps, ?sched, ?epoch⟩
  case write =>
    intro node off data s hstage
    refine ⟨_, exec_routeBankWrite node off data s hstage, fun i hi ho => ?_, fun hrun n o ho hout => ?_, fun n o => ?_, fun hidle => ?_,
      reported_crc node off data s, (reported_only node off data s).keeps⟩
    · rw [reported_bankByte, written_inside node off data s hi ho]
    · rw [reported_bankByte, written_outside node off data s hrun ho hout]
    · rw [reported_bankByte, written_current]
    · rw [reported_net, written_stage node off data s hidle]
  case drain =>
    intro s hstage hflits hbreeze hjoins hleaves hnext
    refine ⟨_, exec_epochDrainDone hstage hflits hbreeze, ?_⟩
    rw [drainEnds_eq hjoins hleaves hnext]
    refine ⟨by rw [settled_net], fun k hwait => ?_, settled_log s, (settled_only s).keeps⟩
    rw [settled_box hwait]
    exact ⟨rfl, rfl⟩
  case window =>
    intro w img s himg
    refine ⟨fun hshadow hw hfree htrig => ?_, fun late inbound x hfind hover => ?_, fun late inbound x hfind =>
      exec_windowClose_of_open late inbound himg hfind⟩
    · exact ⟨_, exec_windowOpen himg hshadow hw hfree, openWindow_windows htrig, (openWindow_only _ _ (List.Subset.refl _) Only.refl).keeps⟩
    · exact ⟨_, exec_windowClose_of_over late inbound himg hfind hover, windowEnded_windows ..⟩
  case sched =>
    intro n struck img s0 u s hrun hpart hdetail himg
    exact ⟨schedLoad_validates rfl hrun hpart hdetail himg, fun hexp hshadow =>
      ⟨schedLoad_switches rfl hrun hpart hdetail himg hexp hshadow, schedLoad_waits rfl hrun hpart hdetail himg hexp hshadow⟩⟩
  case epoch =>
    intro n struck s0 s hrun hstage
    refine ⟨fun hexp hpart hbanks => ?_, routeEpoch_starts rfl hrun hstage⟩
    rw [exec_routeEpoch rfl hrun hstage fun _ => ⟨hpart, hbanks⟩, if_pos hexp]

end Sys2Proof.EpochCerts
end

section
/-!
PROOF. The allocation of Lull objects (spec/09_multicast_eddy_objects.md R245, R250, R251, Table CO-4): the object that an ID names
after one is stored or removed, the settings that a new object takes, and LULL_ALLOC and LULL_FREE on the path on which every check
passes.
-/
namespace Sys2Proof.ObjectCerts

open Sys2Proof.Machine Sys2Proof.Laws

/-! ## The list of objects (R245) -/

/-- Replacing an object keeps every ID in its place. -/
theorem find?_replace (o p : Nat) (x : LObj) (l : List (Nat × LObj)) :
    ((l.map fun e => if e.1 = o then (o, x) else e).find? fun e => e.1 = p) =
      (l.find? fun e => e.1 = p).map fun e => if e.1 = o then (o, x) else e := by
  have hkey : ∀ e : Nat × LObj, (if e.1 = o then (o, x) else e).1 = e.1 := fun e => by
    split
    case isTrue hid => exact hid.symm
    case isFalse => rfl
  simp only [List.find?_map, Function.comp_def, hkey]

theorem find?_putObj_self (o : Nat) (x : LObj) (l : List (Nat × LObj)) : ((putObj o x l).find? fun e => e.1 = o) = some (o, x) := by
  unfold putObj
  split
  case isTrue hlisted =>
    obtain ⟨e, hfind⟩ := Option.isSome_iff_exists.1 (List.find?_isSome.2 (List.any_eq_true.1 hlisted))
    have hid : e.1 = o := by simpa using List.find?_some hfind
    rw [find?_replace, hfind, Option.map_some, if_pos hid]
  case isFalse hfree =>
    have hnone : (l.find? fun e => e.1 = o) = none :=
      List.find?_eq_none.2 fun e he hid => hfree (List.any_eq_true.2 ⟨e, he, hid⟩)
    simp [List.find?_append, hnone]

theorem find?_putObj_of_ne {o p : Nat} (h : p ≠ o) (x : LObj) (l : List (Nat × LObj)) :
    ((putObj o x l).find? fun e => e.1 = p) = l.find? fun e => e.1 = p := by
  unfold putObj
  split
  case isTrue =>
    rw [find?_replace]
    cases hfind : l.find? fun e => e.1 = p with
    | none => rfl
    | some e =>
      have hid : e.1 = p := by simpa using List.find?_some hfind
      rw [Option.map_some, if_neg (hid ▸ h)]
  case isFalse => simp [List.find?_append, h.symm]

@[simp] theorem obj_setObj_self (o : Nat) (x : LObj) (s : State) : (setObj o x s).obj o = some x :=
  congrArg (Option.map Prod.snd) (find?_putObj_self o x s.lull.objs)

theorem obj_setObj_of_ne {o p : Nat} (h : p ≠ o) (x : LObj) (s : State) : (setObj o x s).obj p = s.obj p :=
  congrArg (Option.map Prod.snd) (find?_putObj_of_ne h x s.lull.objs)

@[simp] theorem box_setObj (o : Nat) (x : LObj) (s : State) (n : Nat) : (setObj o x s).box n = s.box n := rfl

/-- The object is removed, so its ID is FREE. -/
def dropObj (o : Nat) (s : State) : State := { s with lull := { s.lull with objs := s.lull.objs.filter fun e => e.1 ≠ o } }

@[simp] theorem obj_dropObj_self (o : Nat) (s : State) : (dropObj o s).obj o = none := by
  simp [State.obj, dropObj]

theorem obj_dropObj_of_ne {o p : Nat} (h : p ≠ o) (s : State) : (dropObj o s).obj p = s.obj p := by
  have hkeep : ∀ e : Nat × LObj, (e.1 ≠ o ∧ e.1 = p) ↔ e.1 = p := fun e => and_iff_right_of_imp fun he => he ▸ h
  simp only [State.obj, dropObj, List.find?_filter, decide_eq_true_eq, hkeep]

@[simp] theorem box_dropObj (o : Nat) (s : State) (n : Nat) : (dropObj o s).box n = s.box n := rfl

theorem dropObj_only (o : Nat) {gs : List Group} {s t : State} (m : Group.lull ∈ gs) (k : Only gs s t) : Only gs s (dropObj o t) :=
  Only.atLull m k

@[simp] theorem obj_replyDone (n : Nat) (res : List Nat) (data : List Byte) (s : State) (o : Nat) :
    (replyDone n res data s).obj o = s.obj o := rfl

@[simp] theorem obj_freed (s : State) (n : Fin 16) (o : Nat) : (s.freed n).obj o = s.obj o := rfl

/-! ## The object of an allocation (Table CO-4) -/

theorem arg_lt (m : Mbx) (i : Nat) : m.arg i < 2 ^ 32 := (m.word (6 + i)).isLt

section BasicForm

variable {m : Mbx} (hexp : m.exp = false)

include hexp

theorem allocAfar_of_basic : allocAfar m = false := by rw [allocAfar, hexp, Bool.false_and]

theorem allocId_of_basic (id : BitVec 14) : allocId m id = id.toNat := by
  rw [allocId, hexp, if_neg Bool.false_ne_true]

theorem allocHome_of_basic (home : Fin 128) : allocHome m home = home.val := by
  rw [allocHome, allocAfar_of_basic hexp, if_neg Bool.false_ne_true, hexp, if_neg Bool.false_ne_true]

theorem allocSlot_of_basic (s : State) : allocSlot s m = s.aon.slot.val := by
  rw [allocSlot, allocAfar_of_basic hexp, if_neg Bool.false_ne_true]

end BasicForm

theorem newObj_semaphore (s : State) (n : Nat) (m : Mbx) (home : Nat) :
    (newObj s n m .semaphore home).value.toNat = m.arg 2 ∧ (newObj s n m .semaphore home).reserve = m.arg 3 := by
  have hfits : m.arg 2 < 2 ^ 64 := (arg_lt m 2).trans (by decide)
  exact ⟨(BitVec.toNat_ofNat ..).trans (Nat.mod_eq_of_lt hfits), rfl⟩

/-! ## LULL_ALLOC and LULL_FREE (R245, R251) -/

section Commands

variable {n : Fin 16} {id : BitVec 14} {home : Fin 128} {k : LKind} {x : LObj} {s : State}

theorem exec_lullAlloc (hrun : Runs s n 0x0305) (hexp : (s.box n.val).exp = false) (hkind : lkind ((s.box n.val).arg 0) = some k)
    (hcount : (s.box n.val).arg 0 = 0 → 1 ≤ (s.box n.val).arg 2 ∧ (s.box n.val).arg 2 ≤ 1024) (htray : (s.box n.val).arg 1 < 2)
    (hset : lullSettingsOk (s.box n.val) = true) (hin : interior home.val = true) (hroom : homedAt s home.val < 256)
    (hid : 0x003F < id.toNat) (hpart : lullPart s id.toNat = mbxPart s n.val) (hfree : s.obj id.toNat = none) :
    exec (.lullAlloc n id home) s = .next (replyDone n.val [id.toNat] []
      (setObj id.toNat (newObj s n.val (s.box n.val) k home.val) (s.freed n))) := by
  have hexec : exec (.lullAlloc n id home) s = execLullAlloc n id home s := rfl
  have hparticipants : (decide ((s.box n.val).arg 0 = 0) && (decide ((s.box n.val).arg 2 = 0)
      || decide (1024 < (s.box n.val).arg 2))) = false := by
    by_cases h0 : (s.box n.val).arg 0 = 0
    · obtain ⟨hlow, hhigh⟩ := hcount h0
      simp [h0, Nat.ne_of_gt hlow, hhigh]
    · simp [h0]
  have hsettings : ((lkind ((s.box n.val).arg 0)).isNone || decide (2 ≤ (s.box n.val).arg 1)
      || !lullSettingsOk (s.box n.val)) = false := by
    simp [hkind, hset, htray]
  have hplace : (decide (128 ≤ home.val) || !interior home.val || decide (256 ≤ homedAt s home.val)) = false := by
    simp [hin, hroom]
  have hname : (decide (id.toNat ≤ 0x003F) || decide (16384 ≤ id.toNat) || decide (lullPart s id.toNat ≠ mbxPart s n.val)
      || (s.obj id.toNat).isSome) = false := by
    simp [hid, hpart, hfree, id.isLt]
  rw [hexec, execLullAlloc, command_run hrun]
  · simp only [hkind, allocId_of_basic hexp, allocHome_of_basic hexp]
    rfl
  · rw [allocId_of_basic hexp, allocHome_of_basic hexp, failIf_false hparticipants, failIf_false hsettings, failIf_false hplace,
      failIf_false hname]
    rfl

theorem exec_lullFree (hrun : Runs s n 0x0306) (hid : 0x003F < (s.box n.val).arg 0)
    (hpart : lullPart s ((s.box n.val).arg 0) = mbxPart s n.val) (hobj : s.obj ((s.box n.val).arg 0) = some x)
    (hidle : x.st = .poisoned ∨ x.waiters = []) :
    exec (.lullFree n) s = .next (replyDone n.val [] [] (dropObj ((s.box n.val).arg 0) (s.freed n))) := by
  have hexec : exec (.lullFree n) s = execLullFree n s := rfl
  have hname : (decide ((s.box n.val).arg 0 ≤ 0x003F) || decide (lullPart s ((s.box n.val).arg 0) ≠ mbxPart s n.val)
      || (s.obj ((s.box n.val).arg 0)).isNone) = false := by
    simp [hid, hpart, hobj]
  have hbusy : ((s.obj ((s.box n.val).arg 0)).elim false fun x => decide (x.st = .ready) && !x.waiters.isEmpty) = false := by
    rw [hobj, Option.elim_some]
    obtain hpoisoned | hnone := hidle
    · simp [hpoisoned]
    · simp [hnone]
  rw [hexec, execLullFree, command_run hrun]
  · rfl
  · rw [failIf_false hname, failIf_false hbusy]
    rfl

end Commands

/-- Settles O39: a stored object is what its ID names, a removed one leaves its ID FREE, and no other ID is touched. -/
theorem lullAllocation : Obligations.LullAllocation := by
  refine ⟨?alloc, ?free⟩
  case alloc =>
    intro n id home k s hrun hexp hkind hcount htray hset hin hroom hid hpart hfree
    refine ⟨_, exec_lullAlloc hrun hexp hkind hcount htray hset hin hroom hid hpart hfree,
      ⟨newObj s n.val (s.box n.val) k home.val, ?stored, rfl, rfl, rfl, rfl, allocSlot_of_basic hexp s, rfl, rfl, ?semaphore, ?counter,
        ?barrier, ?event⟩, fun o ho => ?others, ?answer,
      (replyDone_only _ _ _ (by decide) (setObj_only _ _ (by decide) (setBox_only _ _ (by decide) Only.refl))).keeps⟩
    case stored => rw [obj_replyDone, obj_setObj_self]
    case others => rw [obj_replyDone, obj_setObj_of_ne ho, obj_freed]
    case answer => rw [PinCerts.replyDone_outbox, box_setObj, box_freed]
    case semaphore =>
      rintro rfl
      exact newObj_semaphore ..
    case counter =>
      rintro rfl
      rfl
    case barrier =>
      rintro rfl
      exact ⟨rfl, rfl⟩
    case event =>
      rintro rfl
      exact ⟨rfl, by simp [newObj]⟩
  case free =>
    intro n x s hrun hid hpart hobj hidle
    refine ⟨_, exec_lullFree hrun hid hpart hobj hidle, ?gone, fun o ho => ?others, ?answer,
      (replyDone_only _ _ _ (by decide) (dropObj_only _ (by decide) (setBox_only _ _ (by decide) Only.refl))).keeps⟩
    case gone => rw [obj_replyDone, obj_dropObj_self]
    case others => rw [obj_replyDone, obj_dropObj_of_ne ho, obj_freed]
    case answer => rw [PinCerts.replyDone_outbox, box_dropObj, box_freed]

end Sys2Proof.ObjectCerts
end

section
/-!
PROOF. Slice streams and cluster windows (spec/10_tile_bond.md R261, spec/12_translation_dma_preemption.md R324): the bytes that a write of
whole slice words leaves alone, the three ways that a stream command goes, and the window that a cluster sets.
-/
namespace Sys2Proof.SliceCerts

open Sys2Proof.Machine Sys2Proof.Laws

/-! ## Bytes outside a range -/

/-- Two states hold the same bytes but for the `n` bytes from `a` on. -/
def SameOutside (a n : Nat) (s t : State) : Prop :=
  ∀ x, ¬ (a ≤ x ∧ x < a + n) → Tab.get 0 t.mem.bytes x = Tab.get 0 s.mem.bytes x

variable {a n : Nat}

theorem SameOutside.of_bytes {s t : State} (h : t.mem.bytes = s.mem.bytes) : SameOutside a n s t := fun x _ => by rw [h]

theorem SameOutside.trans {s t u : State} (h : SameOutside a n s t) (k : SameOutside a n t u) : SameOutside a n s u :=
  fun x hx => (k x hx).trans (h x hx)

/-- What holds outside a range holds outside a larger one. -/
theorem SameOutside.mono {b m : Nat} {s t : State} (h : SameOutside a n s t) (hlo : b ≤ a) (hhi : a + n ≤ b + m) : SameOutside b m s t :=
  fun x hx => h x (by omega)

theorem get_pokeTab_outside (l : List Byte) : ∀ (t : Tab Byte) (a : Nat) {x : Nat}, ¬ (a ≤ x ∧ x < a + l.length) →
    Tab.get 0 (pokeTab t a l) x = Tab.get 0 t x := by
  induction l with
  | nil => exact fun _ _ _ _ => rfl
  | cons b l ih =>
    intro t a x hx
    simp only [List.length_cons] at hx
    rw [pokeTab, ih _ _ (by omega), Tab.get_put, if_neg (by omega)]

theorem poke_outside (a : Nat) (l : List Byte) (s : State) : SameOutside a l.length s (poke a l s) :=
  fun _ => get_pokeTab_outside l s.mem.bytes a

/-! ## Writes of whole slice words (R297) -/

/-- A whole word is stored without a merge: nothing but its bytes changes. -/
theorem writeWord_outside {data : List Byte} (ha : a % 8 = 0) (hlen : 8 ≤ data.length) (found : List Nat) (s : State) :
    SameOutside a data.length s (writeWord a data found s).2 := by
  have hword : a / 8 * 8 = a := by omega
  simp only [writeWord, hword, hlen, if_true]
  exact (poke_outside a data (setFlaw a {} (dropBack a s))).trans
    (.of_bytes ((meetInjection_only a (List.Subset.refl _) Only.refl).keeps .bytes (by decide)))

/-- Data that is cut into a first piece and the rest is written outside no more than where it stands. -/
theorem outside_of_pieces {m : Nat} {data : List Byte} {s t u : State} (hm : m ≤ data.length)
    (hfirst : SameOutside a (data.take m).length s t) (hrest : SameOutside (a + m) (data.drop m).length t u) :
    SameOutside a data.length s u := by
  rw [List.length_take] at hfirst
  rw [List.length_drop] at hrest
  exact (hfirst.mono (Nat.le_refl _) (by omega)).trans (hrest.mono (by omega) (by omega))

theorem writeWords_outside (found : Nat → List Nat) (k : Nat) : ∀ {a : Nat} {data : List Byte} (s : State), a % 8 = 0 → data.length % 8 = 0 →
    SameOutside a data.length s (writeWords k a data found s).2 := by
  induction k with
  | zero => exact fun _ _ _ => .of_bytes rfl
  | succ k ih =>
    intro a data s ha hlen
    cases data with
    | nil => exact .of_bytes rfl
    | cons b l =>
      have hfull : 8 ≤ (b :: l).length := Nat.le_of_dvd (Nat.succ_pos _) (Nat.dvd_of_mod_eq_zero hlen)
      have hm : min (b :: l).length (8 - a % 8) = 8 := by omega
      simp only [writeWords, hm]
      refine outside_of_pieces hfull (writeWord_outside ha ?_ _ s) (ih _ (by omega) ?_)
      · rw [List.length_take]
        omega
      · rw [List.length_drop]
        omega

/-- A piece at or above the shared buffer is stored in whole slice words, or as it stands in the drift tier. -/
theorem writePiece_outside {data : List Byte} (hslice : sliceBase ≤ a) (ha : a % 8 = 0) (hlen : data.length % 8 = 0) (s : State) :
    SameOutside a data.length s (writePiece a data s).2 := by
  have habove : ¬ a < hbmEnd := by
    have hbase : hbmEnd ≤ sliceBase := by decide
    omega
  rw [writePiece, if_neg habove]
  split_ifs
  · exact writeWords_outside _ _ s ha hlen
  · exact .of_bytes rfl
  · exact poke_outside a data s
  · exact .of_bytes rfl

theorem writePieces_outside (k : Nat) : ∀ {a : Nat} {data : List Byte} (s : State), sliceBase ≤ a → a % 64 = 0 → data.length % 64 = 0 →
    SameOutside a data.length s (writePieces k a data s).2 := by
  induction k with
  | zero => exact fun _ _ _ _ => .of_bytes rfl
  | succ k ih =>
    intro a data s hslice ha hlen
    cases data with
    | nil => exact .of_bytes rfl
    | cons b l =>
      have hfull : 64 ≤ (b :: l).length := Nat.le_of_dvd (Nat.succ_pos _) (Nat.dvd_of_mod_eq_zero hlen)
      have hm : min (b :: l).length (64 - a % 64) = 64 := by omega
      simp only [writePieces, hm]
      refine outside_of_pieces hfull (writePiece_outside hslice (by omega) ?_ s) (ih _ (by omega) (by omega) ?_)
      · rw [List.length_take]
        omega
      · rw [List.length_drop]
        omega

theorem memWrite_outside {data : List Byte} (hslice : sliceBase ≤ a) (ha : a % 64 = 0) (hlen : data.length % 64 = 0) (s : State) :
    SameOutside a data.length s (memWrite a data s).2 := writePieces_outside _ s hslice ha hlen

/-! ## The ends of a stream -/

section Streams

variable (c sid : Nat) (s : State)

/-- A stream that has ended leaves its SID free. -/
theorem endStream_frees (r : Nat) : ∀ e ∈ ((endStream c sid r s).port c).streams, e.1 ≠ sid := by
  have hport : (endStream c sid r s).port c = { s.port c with streams := Tab.del (s.port c).streams sid } :=
    (modPort_port ..).trans (if_pos rfl)
  rw [hport]
  simpa using List.find?_eq_none.1 (SelfPortCerts.find?_del (s.port c).streams sid)

/-- A READ stream ends with OK after its data, or with SLICE_UE; the memory keeps its bytes. -/
theorem serveRead_ends (off len : Nat) : ∃ r ∈ [0, 2], ∃ u, serveRead c sid off len s = endStream c sid r u ∧ u.mem.bytes = s.mem.bytes := by
  have hread : (memRead (sliceBase + c * 2 ^ 22 + off * 64) (len * 64) s).2.mem.bytes = s.mem.bytes :=
    (memRead_only _ _ (List.Subset.refl _) Only.refl).keeps .bytes (by decide)
  rw [serveRead]
  split
  · exact ⟨2, by decide, _, rfl, hread⟩
  · exact ⟨0, by decide, _, rfl, hread⟩

/-- Data of a WRITE stream stays within what is left of the stream. -/
theorem streamWrite_outside (x : SliceStream) (data : List Byte) :
    SameOutside (sliceBase + c * 2 ^ 22 + x.off * 64) (x.len * 64) s (streamWrite c sid x data s) := by
  rw [streamWrite]
  generalize hb : data.take (x.len * 64) = b
  have hle : b.length ≤ x.len * 64 := by
    rw [← hb, List.length_take]
    exact Nat.min_le_left ..
  have hwhole : (b.take (b.length / 64 * 64)).length = b.length / 64 * 64 := List.length_take_of_le (Nat.div_mul_le_self ..)
  have halign : (sliceBase + c * 2 ^ 22 + x.off * 64) % 64 = 0 := by
    have hbase : sliceBase % 64 = 0 := by decide
    omega
  have hstored := (memWrite_outside (by omega) halign (by rw [hwhole]; exact Nat.mul_mod_left ..) s).mono (Nat.le_refl _)
    (show _ ≤ _ + x.len * 64 by omega)
  split_ifs <;> exact hstored.trans (.of_bytes rfl)

/-- A WRITE stream whose data has not come stays open. -/
theorem streamWrite_nil {x : SliceStream} (hlen : x.len ≠ 0) :
    streamWrite c sid x [] s = modPort c (fun p => { p with streams := Tab.ins p.streams sid x }) s := by
  simp only [streamWrite, List.take_nil, List.length_nil, Nat.zero_div, Nat.le_zero, hlen, if_false, Nat.add_zero, Nat.sub_zero]
  rfl

end Streams

/-! ## Stream commands (R261) -/

section Command

variable {c : Fin 128} {sid : Fin 16} {cmd : BitVec 64} {s : State} (hserv : carrying s 0x01 c.val = true) (hlegal : cmdLegal cmd = true)
  (hfree : ∀ e ∈ (s.port c.val).streams, e.1 ≠ sid.val)

/-- The stream that a command lays out. -/
def streamOf (cmd : BitVec 64) : SliceStream := { write := cmdOp cmd = 2, off := cmdOff cmd, len := cmdLen cmd }

/-- Its SID is open. -/
def opened (c : Fin 128) (sid : Fin 16) (cmd : BitVec 64) (s : State) : State :=
  modPort c.val (fun p => { p with streams := Tab.ins p.streams sid.val (streamOf cmd) }) s

include hserv hlegal hfree

theorem exec_sliceStreamCommand (data : List Byte) : exec (.sliceStreamCommand c sid cmd data) s = .next
    (if inWindow (s.port c.val) (cmdOff cmd) (cmdLen cmd) then
      if cmdOp cmd = 2 then streamWrite c.val sid.val (streamOf cmd) data (opened c sid cmd s)
      else serveRead c.val sid.val (cmdOff cmd) (cmdLen cmd) (opened c sid cmd s)
    else endStream c.val sid.val 1 s) := by
  have hexec : exec (.sliceStreamCommand c sid cmd data) s = execSliceStreamCommand c sid cmd data s := rfl
  have hclosed : ((s.port c.val).streams.any fun e => e.1 = sid.val) = false := by simpa using hfree
  rw [hexec, execSliceStreamCommand, if_pos hserv, openStream, hlegal, hclosed]
  cases inWindow (s.port c.val) (cmdOff cmd) (cmdLen cmd) <;> simp [streamOf, opened]

theorem stream_outside_window (hwin : inWindow (s.port c.val) (cmdOff cmd) (cmdLen cmd) = false) (data : List Byte) :
    Answers (.sliceStreamCommand c sid cmd data) s fun t =>
      t.out.sent = .flit c.val "slice end" [sid.val, 1] :: s.out.sent ∧ KeepsBut [.bond, .out] s t := by
  refine ⟨_, exec_sliceStreamCommand hserv hlegal hfree data, ?_⟩
  rw [hwin]
  exact ⟨rfl, (endStream_only _ _ _ (List.Subset.refl _) Only.refl).keeps⟩

variable (hwin : inWindow (s.port c.val) (cmdOff cmd) (cmdLen cmd) = true)

include hwin

theorem read_stream_ends (hop : cmdOp cmd = 1) (data : List Byte) : Answers (.sliceStreamCommand c sid cmd data) s fun t =>
    (∃ r ∈ [0, 2], t.out.sent.head? = some (.flit c.val "slice end" [sid.val, r]))
      ∧ t.mem.bytes = s.mem.bytes ∧ ∀ e ∈ (t.port c.val).streams, e.1 ≠ sid.val := by
  refine ⟨_, exec_sliceStreamCommand hserv hlegal hfree data, ?_⟩
  obtain ⟨r, hr, u, hread, hbytes⟩ := serveRead_ends c.val sid.val (opened c sid cmd s) (cmdOff cmd) (cmdLen cmd)
  rw [if_pos hwin, if_neg (by omega), hread]
  exact ⟨⟨r, hr, rfl⟩, hbytes, endStream_frees c.val sid.val u r⟩

theorem write_stream_waits (hop : cmdOp cmd = 2) : Answers (.sliceStreamCommand c sid cmd []) s fun t =>
    ((t.port c.val).streams.find? fun e => e.1 = sid.val) = some (sid.val, { write := true, off := cmdOff cmd, len := cmdLen cmd })
      ∧ KeepsBut [.bond] s t := by
  have hlen : (streamOf cmd).len ≠ 0 := by
    simp only [cmdLegal, Bool.and_eq_true, decide_eq_true_eq] at hlegal
    obtain ⟨-, -, -, hpos, -⟩ := hlegal
    exact Nat.ne_of_gt hpos
  have hstream : streamOf cmd = { write := true, off := cmdOff cmd, len := cmdLen cmd } := by rw [streamOf, decide_eq_true hop]
  refine ⟨_, exec_sliceStreamCommand hserv hlegal hfree [], ?_⟩
  rw [if_pos hwin, if_pos hop, streamWrite_nil _ _ _ hlen, ← hstream]
  refine ⟨?_, (modPort_only _ _ (List.Subset.refl _) (modPort_only _ _ (List.Subset.refl _) Only.refl)).keeps⟩
  rw [modPort_port, if_pos rfl]
  exact SelfPortCerts.find?_ins ..

theorem stream_stays_inside (data : List Byte) : Answers (.sliceStreamCommand c sid cmd data) s
    (SameOutside (sliceBase + c.val * 2 ^ 22 + cmdOff cmd * 64) (cmdLen cmd * 64) s) := by
  refine ⟨_, exec_sliceStreamCommand hserv hlegal hfree data, ?_⟩
  rw [if_pos hwin]
  split
  case isTrue => exact streamWrite_outside c.val sid.val (opened c sid cmd s) (streamOf cmd) data
  case isFalse =>
    obtain ⟨r, -, u, hread, hbytes⟩ := serveRead_ends c.val sid.val (opened c sid cmd s) (cmdOff cmd) (cmdLen cmd)
    rw [hread]
    exact .of_bytes hbytes

end Command

/-! ## Cluster windows (R324) -/

theorem exec_clusterWindowSet (c : Fin 128) (base len : BitVec 16) (s : State) : exec (.clusterWindowSet c base len) s = .next
    (if windowOk s c.val base.toNat len.toNat = true ∧ (s.port c.val).streams = [] then
      modPort c.val (fun p => { p with winBase := base.toNat, winLen := len.toNat }) s
    else send (.flit c.val "dispatch failed" [base.toNat, len.toNat]) s) := by
  have hexec : exec (.clusterWindowSet c base len) s = execClusterWindowSet c base len s := rfl
  simp only [hexec, execClusterWindowSet, Bool.and_eq_true, List.isEmpty_iff]

/-- Settles O42: a stream outside its window ends at once, a READ in it leaves the bytes, a WRITE stores whole words within its range; the
window is set or the dispatch fails. -/
theorem sliceStreamsAndWindows : Obligations.SliceStreamsAndWindows := by
  refine ⟨?stream, ?window⟩
  case stream =>
    intro c sid cmd data s hserv hlegal hfree a0
    exact ⟨fun hout => stream_outside_window hserv hlegal hfree hout data, fun hwin =>
      ⟨fun hop => read_stream_ends hserv hlegal hfree hwin hop data, write_stream_waits hserv hlegal hfree hwin,
        stream_stays_inside hserv hlegal hfree hwin data⟩⟩
  case window =>
    refine fun c base len s => ⟨fun hok hidle => ⟨_, exec_clusterWindowSet c base len s, ?_⟩, fun hbad => ?_⟩
    · rw [if_pos ⟨hok, hidle⟩]
      exact ⟨by simp, fun k hk => by simp [hk], (modPort_only _ _ (List.Subset.refl _) Only.refl).keeps⟩
    · rw [exec_clusterWindowSet, if_neg]
      rintro ⟨hok, hidle⟩
      obtain hbad | hbusy := hbad
      · simp [hok] at hbad
      · exact hbusy hidle

end Sys2Proof.SliceCerts
end

section
/-!
PROOF. Bond ports in test and in service (spec/10_tile_bond.md R255, R259, R260, R264, R273, R274, R278, Tables TB-12 and TB-14): what the
fence of a cluster leaves of its port, the tests of a port, the identity that a port writes into what its tile sends, and the frames that a
port takes, holds back or refuses.
-/
namespace Sys2Proof.BondCerts

open Sys2Proof.Machine Sys2Proof.Laws
open Sys2Proof.NetCerts (injectBreeze_of_full injectBreeze_of_routed)

/-! ## Ports and tiles -/

theorem port_of_bond {s t : State} (h : t.bond = s.bond) (k : Nat) : t.port k = s.port k := by rw [State.port, h, State.port]

@[simp] theorem modPort_port_self (c : Nat) (f : BondPort → BondPort) (s : State) : (modPort c f s).port c = f (s.port c) :=
  (modPort_port ..).trans (if_pos rfl)

theorem modPort_port_ne {c k : Nat} (h : k ≠ c) (f : BondPort → BondPort) (s : State) : (modPort c f s).port k = s.port k :=
  (modPort_port ..).trans (if_neg h)

theorem modPort_keeps (c : Nat) (f : BondPort → BondPort) (s : State) : Only [.bond] s (modPort c f s) :=
  modPort_only c f (List.Subset.refl _) Only.refl

@[simp] theorem logUe_port (x : Contain) (code ut inst : Nat) (d : List Nat) (s : State) (k : Nat) : (logUe x code ut inst d s).port k = s.port k :=
  port_of_bond ((logUe_only _ _ _ _ _ (List.Subset.refl _) Only.refl).keeps .bond (by decide)) k

@[simp] theorem closePorts_tiles (l : List Nat) : ∀ s : State, (closePorts l s).bond.tiles = s.bond.tiles := by
  induction l with
  | nil => exact fun _ => rfl
  | cons c l ih => exact fun s => ih (closePort c s)

/-! ## What a fence leaves (R278, R508) -/

/-- A fence ends in the service record that it begins with: what is taken back lies in other groups. -/
theorem fenceUnit_unitRec (ut inst trigger : Nat) (s : State) :
    (fenceUnit ut inst trigger s).unitRec ut inst = { s.unitRec ut inst with st := .faulted, trigger := trigger, trigTs := s.now } := by
  have hunits : (fenceUnit ut inst trigger s).units = (markFaulted ut inst trigger s).units := by
    rw [fenceUnit, NetCerts.logUe_units]
    exact (revoke_only _ _ (List.Subset.refl _) Only.refl).keeps .units (by decide)
  rw [State.unitRec, hunits]
  exact setUnitRec_same ..

theorem bondFence_unit (c trigger : Nat) (s : State) :
    (bondFence c trigger s).unitSt 0x01 c = .faulted ∧ ((bondFence c trigger s).unitRec 0x01 c).trigger = trigger := by
  rw [State.unitSt, bondFence, fenceUnit_unitRec]
  exact ⟨rfl, rfl⟩

/-- Of what a fence does, only the revocation of the cluster touches bonds and regulators. -/
theorem bondFence_after (c trigger : Nat) (s : State) :
    Only [.log, .net, .coll, .lull, .link, .out] (revokeCluster c (markFaulted 0x01 c trigger s)) (bondFence c trigger s) :=
  logUe_only _ _ _ _ _ (by decide) (rebuildRoutes_only (by decide) (breakWindowsOf_only _ _ _ (by decide) (loseUnitContribs_only _ _ (by decide)
    (poisonFor_only _ _ _ (by decide) Only.refl))))

/-- What the port of a fenced cluster keeps: FENCE is raised, it holds nothing, its window is closed. -/
def fencedPort (p : BondPort) : BondPort := { p with fence := true, fifo := [], breeze := [], streams := [], winBase := 0, winLen := 0 }

theorem bondFence_port (c trigger : Nat) (s : State) : (bondFence c trigger s).port c = fencedPort (s.port c) := by
  have hrevoked : (revokeCluster c (markFaulted 0x01 c trigger s)).bond = (modPort c fencedPort s).bond :=
    (discardGroup_only c (List.Subset.refl _) Only.refl).keeps .bond (by decide)
  rw [port_of_bond ((bondFence_after c trigger s).keeps .bond (by decide)), port_of_bond hrevoked, modPort_port_self]

theorem bondFence_fgrOn (c trigger : Nat) (s : State) : (bondFence c trigger s).pwr.fgrOn = setBit s.pwr.fgrOn c false := by
  rw [(bondFence_after c trigger s).keeps .pwr (by decide), revokeCluster]
  exact congrArg (fun p => setBit p.fgrOn c false) ((discardGroup_only c (List.Subset.refl _) Only.refl).keeps .pwr (by decide))

/-- A fence takes the cluster out of service: its port is closed and its regulator off. -/
theorem bondFence_closes (c : Fin 128) (trigger : Nat) (s : State) :
    (bondFence c.val trigger s).unitSt 0x01 c.val = .faulted ∧ ((bondFence c.val trigger s).unitRec 0x01 c.val).trigger = trigger
      ∧ (bondFence c.val trigger s).port c.val = fencedPort (s.port c.val)
      ∧ (bondFence c.val trigger s).pwr.fgrOn.getLsbD c.val = false := by
  refine ⟨(bondFence_unit ..).1, (bondFence_unit ..).2, bondFence_port .., ?_⟩
  rw [bondFence_fgrOn, NetCerts.getLsbD_setBit _ _ _ _ c.isLt, if_pos rfl]

/-! ## CRDY and CERR_N (R255, R274, R278) -/

section Sideband

variable {c : Fin 128} {s : State}

theorem crdyRise_notes (hprst : (s.port c.val).prst = true) (hon : s.pwr.fgrOn.getLsbD c.val = true) : Answers (.crdyRise c) s fun t =>
    t.port c.val = { s.port c.val with crdy := true } ∧ (∀ k, k ≠ c.val → t.port k = s.port k) ∧ KeepsBut [.bond] s t := by
  have hexec : exec (.crdyRise c) s = .next (modPort c.val (fun p => { p with crdy := true }) s) :=
    congrArg Host.Outcome.next (if_pos (by rw [hprst, hon, Bool.and_true]))
  exact ⟨_, hexec, modPort_port_self .., fun k hk => modPort_port_ne hk .., (modPort_keeps ..).keeps⟩

theorem portOut_port_self (c : Nat) (s : State) :
    (portOut c s).port c = { s.port c with prst := false, crdy := false, fence := true, ready := false } := modPort_port_self ..

theorem portOut_port_ne {c k : Nat} (h : k ≠ c) (s : State) : (portOut c s).port k = s.port k := modPort_port_ne h ..

theorem portOut_unitSt (c : Nat) (s : State) : (portOut c s).unitSt 0x01 c = .absent := congrArg UnitRec.st (setUnitRec_same ..)

theorem portOut_keeps (c : Nat) (s : State) : Only [.pwr, .units, .bond] s (portOut c s) :=
  portOut_only c (List.Subset.refl _) Only.refl

theorem crdyTimeout_ends (htest : portTested s c.val = true) (hprst : (s.port c.val).prst = true) (hcrdy : (s.port c.val).crdy = false) :
    Answers (.crdyTimeout c) s fun t => t.unitSt 0x01 c.val = .absent ∧ t.pwr.fgrOn = setBit s.pwr.fgrOn c.val false
      ∧ t.port c.val = { s.port c.val with prst := false, crdy := false, fence := true, ready := false }
      ∧ (∀ k, k ≠ c.val → t.port k = s.port k) ∧ KeepsBut [.pwr, .units, .bond] s t := by
  have hexec : exec (.crdyTimeout c) s = .next (portOut c.val s) :=
    congrArg Host.Outcome.next (if_pos (by rw [htest, hprst, hcrdy]; rfl))
  exact ⟨_, hexec, portOut_unitSt .., rfl, portOut_port_self .., fun k hk => portOut_port_ne hk s, (portOut_keeps ..).keeps⟩

/-- A signal of the sideband has failed: the port notes it, a record is written and the cluster is fenced (Table TB-14). -/
def sidebandFault (c : Fin 128) (note : BondPort → BondPort) (detail : List Nat) (s : State) : State :=
  bondFence c.val 0x0A58 (logUe .unit 0x0A58 0x01 c.val detail (modPort c.val note s))

theorem sidebandFault_closes (note : BondPort → BondPort) (detail : List Nat) :
    (sidebandFault c note detail s).unitSt 0x01 c.val = .faulted ∧ ((sidebandFault c note detail s).unitRec 0x01 c.val).trigger = 0x0A58
      ∧ (sidebandFault c note detail s).port c.val = fencedPort (note (s.port c.val))
      ∧ (sidebandFault c note detail s).pwr.fgrOn.getLsbD c.val = false := by
  obtain ⟨hst, htrigger, hport, hoff⟩ := bondFence_closes c 0x0A58 (logUe .unit 0x0A58 0x01 c.val detail (modPort c.val note s))
  rw [logUe_port, modPort_port_self] at hport
  exact ⟨hst, htrigger, hport, hoff⟩

theorem cerrN_fences (hserv : carrying s 0x01 c.val = true) : Answers (.cerrN c) s fun t =>
    t.unitSt 0x01 c.val = .faulted ∧ (t.unitRec 0x01 c.val).trigger = 0x0A58
      ∧ (t.port c.val).cerr = true ∧ (t.port c.val).fence = true ∧ t.pwr.fgrOn.getLsbD c.val = false := by
  have hexec : exec (.cerrN c) s = .next (sidebandFault c (fun p => { p with cerr := true }) [0] s) :=
    congrArg Host.Outcome.next (if_pos hserv)
  obtain ⟨hst, htrigger, hport, hoff⟩ := sidebandFault_closes (c := c) (s := s) (fun p => { p with cerr := true }) [0]
  exact ⟨_, hexec, hst, htrigger, by rw [hport, fencedPort], by rw [hport, fencedPort], hoff⟩

theorem crdyFall_fences (hserv : carrying s 0x01 c.val = true) (hprst : (s.port c.val).prst = true)
    (hon : s.pwr.fgrOn.getLsbD c.val = true) : Answers (.crdyFall c) s fun t =>
      t.unitSt 0x01 c.val = .faulted ∧ (t.unitRec 0x01 c.val).trigger = 0x0A58
        ∧ (t.port c.val).crdy = false ∧ (t.port c.val).fence = true ∧ t.pwr.fgrOn.getLsbD c.val = false := by
  have hexec : exec (.crdyFall c) s = .next (sidebandFault c (fun p => { p with crdy := false }) [1] s) :=
    congrArg Host.Outcome.next (if_pos (by rw [hserv, hprst, hon]; rfl))
  obtain ⟨hst, htrigger, hport, hoff⟩ := sidebandFault_closes (c := c) (s := s) (fun p => { p with crdy := false }) [1]
  exact ⟨_, hexec, hst, htrigger, by rw [hport, fencedPort], by rw [hport, fencedPort], hoff⟩

end Sideband

/-! ## Lane tests (R264, R273, R274, Table TB-12) -/

theorem tileOf_lt (c : Nat) : tileOf c < 4 := by
  rw [tileOf]
  split_ifs <;> decide

theorem tileFail_tile (q : Fin 4) (reason : Nat) (s : State) : (tileFail q reason s).tile q = { s.tile q with fail := reason } := by
  have hbond : (tileFail q reason s).bond = (closePorts (maskList (tileMask q.val)) (modTile q (fun t => { t with fail := reason }) s)).bond :=
    ((pushFrame_only _ (List.Subset.refl _) Only.refl).keeps .bond (by decide)).trans
      ((logUe_only _ _ _ _ _ (List.Subset.refl _) Only.refl).keeps .bond (by decide))
  rw [State.tile, hbond, closePorts_tiles]
  exact Vector.getElem_set_self q.isLt

theorem tileFail_log (q : Fin 4) (reason : Nat) (s : State) : (tileFail q reason s).log = (logUe .unit 0x0A51 0x09 q.val [reason] s).log := by
  have hclosed : Only [.bond] s (closePorts (maskList (tileMask q.val)) (modTile q (fun t => { t with fail := reason }) s)) :=
    closePorts_only _ (List.Subset.refl _) (modTile_only _ _ (List.Subset.refl _) Only.refl)
  have hlog : (tileFail q reason s).log = (logUe .unit 0x0A51 0x09 q.val [reason]
      (closePorts (maskList (tileMask q.val)) (modTile q (fun t => { t with fail := reason }) s))).log :=
    (pushFrame_only _ (List.Subset.refl _) Only.refl).keeps .log (by decide)
  rw [hlog, SelfPortCerts.logUe_log, SelfPortCerts.logUe_log, State.now, State.now, hclosed.keeps .log (by decide), hclosed.keeps .aon (by decide)]

theorem learnFault_mem {e : (Nat × Nat × Nat) × Nat} {s : State} (h : e ∈ s.store.laneLearned) (c : Nat) (x : Nat × Nat) :
    e ∈ (learnFault c x s).store.laneLearned := by
  rw [learnFault]
  split_ifs
  · exact h
  · rwa [(logUe_only _ _ _ _ _ (List.Subset.refl _) Only.refl).keeps .store (by decide)]
  · exact List.mem_append_left _ h

/-- Learning adds entries and removes none. -/
theorem learnAll_mem {e : (Nat × Nat × Nat) × Nat} (c : Nat) (l : List (Nat × Nat)) : ∀ {s : State}, e ∈ s.store.laneLearned →
    e ∈ (learnAll c l s).store.laneLearned := by
  induction l with
  | nil => exact id
  | cons x l ih => exact fun h => ih (learnFault_mem h c x)

/-! ### One test of a port -/

section LaneTest

/-- The tile of a cluster. -/
def tileAt (c : Fin 128) : Fin 4 := Fin.ofNat 4 (tileOf c.val)

@[simp] theorem tileAt_val (c : Fin 128) : (tileAt c).val = tileOf c.val := Nat.mod_eq_of_lt (tileOf_lt c.val)

/-- An identity frame that does not name the port's cluster (R264). -/
def wrongIdent (c : Fin 128) (ident : Fin 32) : Bool := decide (localCluster (tileOf c.val) ident.val ≠ c.val)

/-- The faults of a test as places. -/
def places (faults : List (Fin 59 × Fin 36)) : List (Nat × Nat) := faults.map fun e => (e.1.val, e.2.val)

/-- What a test has found so far; step 7 begins a new test. -/
def foundBy (c : Fin 128) (faults : List (Fin 59 × Fin 36)) (s : State) : List (Nat × Nat) :=
  (if (s.port c.val).step < 7 then places faults else (s.port c.val).found ++ places faults).eraseDups

/-- The masks with the faults of a test merged into them (R273). -/
def mergedBy (c : Fin 128) (faults : List (Fin 59 × Fin 36)) (s : State) : Tab (BitVec 36) :=
  mergeFaults (places faults) (if (s.port c.val).step < 7 then mapMasks s c.val else (s.port c.val).masks)

/-- A step of the test has ended for the port. -/
def tested (c : Fin 128) (step : Nat) (wrong : Bool) (faults : List (Fin 59 × Fin 36)) (s : State) : State :=
  modPort c.val (fun p => { p with step := step, identBad := p.identBad || wrong, found := foundBy c faults s, masks := mergedBy c faults s }) s

/-- The bundles that a test of `s` has found faulty are noted after it, where their mapping changes (R278). -/
def noted (c : Fin 128) (faults : List (Fin 59 × Fin 36)) (s after : State) : State :=
  spareNotes c.val (mapMasks s c.val) (mergedBy c faults s) (faultSites (foundBy c faults s)) after

/-- The entries of the learned lane map count one start more (R273). -/
def aged (c : Fin 128) (found : List (Nat × Nat)) (s : State) : State :=
  { s with store := { s.store with laneLearned := s.store.laneLearned.filterMap (agedEntry c.val found) } }

variable {c : Fin 128} {ident : Fin 32} {faults : List (Fin 59 × Fin 36)} {s : State} (htest : portTested s c.val = true)

include htest

theorem exec_laneTestDone (step : Fin 12) : exec (.laneTestDone c step ident faults) s = .next
    (if step.val = 7 && (wrongIdent c ident && tileTraining s (tileAt c)) then tileFail (tileAt c) 3 s
    else if step.val = 11 then judgePort c.val (places faults).isEmpty (modPort c.val (fun p => { p with step := 11 }) s)
    else if step.val ≠ 7 && step.val ≠ 8 && step.val ≠ 9 then s
    else if step.val = 9 then learnAll c.val (foundBy c faults s) (aged c (foundBy c faults s)
      (noted c faults s (tested c step.val (step.val = 7 && wrongIdent c ident) faults s)))
    else tested c step.val (step.val = 7 && wrongIdent c ident) faults s) := by
  have hident : wrongIdent c ident = decide (localCluster (tileAt c).val ident.val ≠ c.val) := by rw [tileAt_val, wrongIdent]
  rw [hident]
  exact congrArg Host.Outcome.next (if_neg (by simp [htest]))

theorem exec_laneTestDone_orient (hwrong : wrongIdent c ident = true) (htrain : tileTraining s (tileAt c) = true) :
    exec (.laneTestDone c 7 ident faults) s = .next (tileFail (tileAt c) 3 s) := by
  rw [exec_laneTestDone htest, hwrong, htrain]
  rfl

theorem exec_laneTestDone_identity (h : wrongIdent c ident = false ∨ tileTraining s (tileAt c) = false) :
    exec (.laneTestDone c 7 ident faults) s = .next (tested c 7 (wrongIdent c ident) faults s) := by
  have hpass : (wrongIdent c ident && tileTraining s (tileAt c)) = false := by obtain h | h := h <;> simp [h]
  rw [exec_laneTestDone htest, hpass]
  rfl

theorem exec_laneTestDone_static : exec (.laneTestDone c 8 ident faults) s = .next (tested c 8 false faults s) := by
  rw [exec_laneTestDone htest]
  rfl

theorem exec_laneTestDone_prbs : exec (.laneTestDone c 9 ident faults) s = .next
    (learnAll c.val (foundBy c faults s) (aged c (foundBy c faults s) (noted c faults s (tested c 9 false faults s)))) := by
  rw [exec_laneTestDone htest]
  rfl

theorem exec_laneTestDone_verify : exec (.laneTestDone c 11 ident faults) s = .next
    (judgePort c.val (places faults).isEmpty (modPort c.val (fun p => { p with step := 11 }) s)) := by
  rw [exec_laneTestDone htest]
  rfl

theorem identity_fails_tile (hwrong : wrongIdent c ident = true) (htrain : tileTraining s (tileAt c) = true) :
    Answers (.laneTestDone c 7 ident faults) s fun t =>
      t.tile (tileAt c) = { s.tile (tileAt c) with fail := 3 } ∧ t.log = (logUe .unit 0x0A51 0x09 (tileAt c).val [3] s).log
      ∧ KeepsBut [.pwr, .log, .bond, .link, .out] s t :=
  ⟨_, exec_laneTestDone_orient htest hwrong htrain, tileFail_tile .., tileFail_log .., (tileFail_only _ _ (List.Subset.refl _) Only.refl).keeps⟩

omit htest in
theorem tested_port (step : Nat) (wrong : Bool) : (tested c step wrong faults s).port c.val = { s.port c.val with
    step := step, identBad := (s.port c.val).identBad || wrong, found := foundBy c faults s, masks := mergedBy c faults s } :=
  modPort_port_self ..

theorem identity_tested (h : wrongIdent c ident = false ∨ tileTraining s (tileAt c) = false) :
    Answers (.laneTestDone c 7 ident faults) s fun t =>
      t.port c.val = { s.port c.val with step := 7, identBad := (s.port c.val).identBad || wrongIdent c ident, found := foundBy c faults s
                                         masks := mergedBy c faults s }
      ∧ KeepsBut [.bond] s t :=
  ⟨_, exec_laneTestDone_identity htest h, tested_port .., (modPort_keeps ..).keeps⟩

theorem static_tested : Answers (.laneTestDone c 8 ident faults) s fun t =>
    t.port c.val = { s.port c.val with step := 8, found := foundBy c faults s, masks := mergedBy c faults s } ∧ KeepsBut [.bond] s t := by
  refine ⟨_, exec_laneTestDone_static htest, ?_, (modPort_keeps ..).keeps⟩
  rw [tested_port, Bool.or_false]

omit htest in
/-- Another cluster's entry of the learned lane map stays (R273). -/
theorem mem_aged {e : (Nat × Nat × Nat) × Nat} (found : List (Nat × Nat)) (he : e ∈ s.store.laneLearned) (hother : e.1.1 ≠ c.val) :
    e ∈ (aged c found s).store.laneLearned := List.mem_filterMap.2 ⟨e, he, if_pos hother⟩

omit htest in
theorem noted_keeps (u : State) : Only [.log, .link, .out] u (noted c faults s u) := spareNotes_only _ _ _ _ (List.Subset.refl _) Only.refl

omit htest in
theorem learned_keeps (found : List (Nat × Nat)) (u : State) : Only [.store, .log, .link, .out] u (learnAll c.val found (aged c found u)) :=
  learnAll_only _ _ (List.Subset.refl _) (Only.atStore (by decide) Only.refl)

theorem prbs_tested : Answers (.laneTestDone c 9 ident faults) s fun t =>
    t.port c.val = { s.port c.val with step := 9, found := foundBy c faults s, masks := mergedBy c faults s }
      ∧ (∀ e ∈ s.store.laneLearned, e.1.1 ≠ c.val → e ∈ t.store.laneLearned) ∧ KeepsBut [.store, .log, .bond, .link, .out] s t := by
  have hnoted := noted_keeps (c := c) (faults := faults) (s := s) (tested c 9 false faults s)
  have hafter := (hnoted.mono (by decide)).trans (learned_keeps (c := c) (foundBy c faults s) _)
  refine ⟨_, exec_laneTestDone_prbs htest, ?_, fun e he hother => ?_,
    (((modPort_keeps ..).mono (by decide)).trans (hafter.mono (by decide))).keeps⟩
  · rw [port_of_bond (hafter.keeps .bond (by decide)), tested_port, Bool.or_false]
  · refine learnAll_mem _ _ (mem_aged _ ?_ hother)
    rwa [hnoted.keeps .store (by decide)]

theorem clean_port_ready (hclean : faults = []) (hident : (s.port c.val).identBad = false) (hmasks : masksOk (s.port c.val) = true)
    (hcrdy : (s.port c.val).crdy = true) : Answers (.laneTestDone c 11 ident faults) s fun t =>
      t.port c.val = { s.port c.val with step := 11, ready := true } ∧ KeepsBut [.bond] s t := by
  have hjudge : judgePort c.val (places faults).isEmpty (modPort c.val (fun p => { p with step := 11 }) s) =
      modPort c.val (fun p => { p with ready := true }) (modPort c.val (fun p => { p with step := 11 }) s) := by
    refine if_pos ?_
    rw [modPort_port_self, hclean]
    change (!(s.port c.val).identBad && (masksOk (s.port c.val) && (s.port c.val).crdy)) = true
    rw [hident, hmasks, hcrdy]
    rfl
  refine ⟨_, exec_laneTestDone_verify htest, ?_⟩
  rw [hjudge]
  exact ⟨by simp, ((modPort_keeps ..).trans (modPort_keeps ..)).keeps⟩

theorem faulty_port_out (hfaults : faults ≠ []) : Answers (.laneTestDone c 11 ident faults) s fun t =>
    t.unitSt 0x01 c.val = .absent ∧ (t.port c.val).ready = false ∧ (t.port c.val).fence = true
      ∧ t.pwr.fgrOn = setBit s.pwr.fgrOn c.val false ∧ KeepsBut [.pwr, .units, .bond] s t := by
  have hjudge : judgePort c.val (places faults).isEmpty (modPort c.val (fun p => { p with step := 11 }) s) =
      portOut c.val (modPort c.val (fun p => { p with step := 11 }) s) := if_neg (by simp [places, hfaults])
  refine ⟨_, exec_laneTestDone_verify htest, ?_⟩
  rw [hjudge]
  refine ⟨portOut_unitSt .., ?_, ?_, rfl, (((modPort_keeps ..).mono (by decide)).trans (portOut_keeps ..)).keeps⟩
  · rw [portOut_port_self]
  · rw [portOut_port_self]

end LaneTest

/-! ## The identity that a port writes (R260) -/

/-- A field whose bits are all cleared reads as what is written there. -/
theorem fld_rewritten (w mask : BitVec 64) (v lo n : Nat) (hn : lo + n ≤ 64) (hmask : ∀ i < n, mask.getLsbD (lo + i) = true) :
    fld ((w &&& ~~~ mask) ||| BitVec.ofNat 64 v) lo n = v / 2 ^ lo % 2 ^ n := by
  refine Nat.eq_of_testBit_eq fun i => ?_
  rw [NetCerts.testBit_fld, Nat.testBit_mod_two_pow, Nat.testBit_div_two_pow]
  by_cases hi : i < n
  · rw [BitVec.getLsbD_or, BitVec.getLsbD_and, BitVec.getLsbD_not, hmask i hi, BitVec.getLsbD_ofNat, Nat.add_comm i lo]
    simp [show lo + i < 64 by omega]
  · simp [hi]

/-- A field does not read a bit above it. -/
theorem fld_setBit_above {w : Nat} (x : BitVec w) {i lo n : Nat} (b : Bool) (hi : i < w) (h : lo + n ≤ i) :
    fld (setBit x i b) lo n = fld x lo n := by
  refine Nat.eq_of_testBit_eq fun j => ?_
  rw [NetCerts.testBit_fld, NetCerts.testBit_fld, NetCerts.getLsbD_setBit _ _ _ _ hi]
  by_cases hj : j < n
  · rw [if_neg (by omega)]
  · simp [hj]

section Identity

variable (s : State) (c : Fin 128)

theorem sbSrc_rewriteFlit (sb : BitVec 64) : sbSrc (rewriteFlit s c.val sb) = c.val := by
  rw [sbSrc, rewriteFlit, fld_rewritten _ _ _ _ _ (by decide) (by decide)]
  omega

theorem sbPart_rewriteFlit (sb : BitVec 64) (h : clusterPart s c.val < 64) : sbPart (rewriteFlit s c.val sb) = clusterPart s c.val := by
  rw [sbPart, rewriteFlit, fld_rewritten _ _ _ _ _ (by decide) (by decide)]
  omega

theorem src_rewriteBreeze (sb : BitVec 64) : fld (rewriteBreeze c.val sb) 7 8 = c.val := by
  rw [rewriteBreeze, fld_rewritten _ _ _ _ _ (by decide) (by decide)]
  omega

theorem node_rewriteLull (sb : BitVec 64) : fld (rewriteLull s c.val sb) 18 7 = c.val := by
  rw [rewriteLull, fld_setBit_above _ _ (by decide) (by decide), fld_rewritten _ _ _ _ _ (by decide) (by decide)]
  omega

theorem slot_rewriteLull (sb : BitVec 64) : fld (rewriteLull s c.val sb) 25 3 = s.aon.slot.val := by
  rw [rewriteLull, fld_setBit_above _ _ (by decide) (by decide), fld_rewritten _ _ _ _ _ (by decide) (by decide)]
  omega

theorem epoch_rewriteLull (sb : BitVec 64) : bit (rewriteLull s c.val sb) 31 = s.routerPar c.val := by
  rw [bit, rewriteLull, NetCerts.getLsbD_setBit _ _ _ _ (by decide), if_pos rfl]

end Identity

/-! ## What waits in a port (R201, R209, R259) -/

section Waiting

variable {c : Nat} {s : State}

/-- A flit joins the FIFO of its port. -/
def queueFlit (c : Nat) (e : BitVec 64 × List Byte) (s : State) : State := modPort c (fun p => { p with fifo := p.fifo ++ [e] }) s

/-- The FIFO of a port has been taken out to be drained. -/
def emptyFifo (c : Nat) (s : State) : State := modPort c (fun p => { p with fifo := [] }) s

theorem drainFifo_queueFlit (hidle : (s.port c).fifo = []) (e : BitVec 64 × List Byte) : drainFifo c (queueFlit c e s) =
    if sbVc e.1 ≠ 0 && 64 < inFlight s c 4 (sbVc e.1) + flitsOf e.2 then queueFlit c e (emptyFifo c (queueFlit c e s))
    else injectPacket c 4 e.1 e.2 (emptyFifo c (queueFlit c e s)) := by
  have hfifo : ((queueFlit c e s).port c).fifo = [e] := by rw [queueFlit, modPort_port_self, hidle, List.nil_append]
  rw [drainFifo, hfifo, drainPort]
  rfl

/-- A change of a port that is taken back leaves every port as it was. -/
theorem port_of_taken_back {f g : BondPort → BondPort} (h : g (f (s.port c)) = s.port c) (k : Nat) :
    (modPort c g (modPort c f s)).port k = s.port k := by
  by_cases hk : k = c
  · rw [hk, modPort_port_self, modPort_port_self, h]
  · rw [modPort_port_ne hk, modPort_port_ne hk]

theorem port_emptyFifo_queueFlit (hidle : (s.port c).fifo = []) (e : BitVec 64 × List Byte) (k : Nat) :
    (emptyFifo c (queueFlit c e s)).port k = s.port k := port_of_taken_back (by rw [← hidle]) k

theorem emptyFifo_queueFlit_keeps (e : BitVec 64 × List Byte) : Only [.bond] s (emptyFifo c (queueFlit c e s)) :=
  (modPort_keeps ..).trans (modPort_keeps ..)

/-- A message joins those that wait in its port. -/
def queueBreeze (c : Nat) (m : BreezeMsg) (s : State) : State := modPort c (fun p => { p with breeze := p.breeze ++ [m] }) s

/-- The messages of a port have been taken out to be drained. -/
def emptyBreeze (c : Nat) (s : State) : State := modPort c (fun p => { p with breeze := [] }) s

theorem port_emptyBreeze_queueBreeze (hidle : (s.port c).breeze = []) (m : BreezeMsg) (k : Nat) :
    (emptyBreeze c (queueBreeze c m s)).port k = s.port k := port_of_taken_back (by rw [← hidle]) k

theorem emptyBreeze_queueBreeze_keeps (m : BreezeMsg) : Only [.bond] s (emptyBreeze c (queueBreeze c m s)) :=
  (modPort_keeps ..).trans (modPort_keeps ..)

theorem drainBreezePort_queueBreeze (m : BreezeMsg) : drainBreezePort c (queueBreeze c m s) =
    drainBreeze c ((s.port c).breeze ++ [m]) (emptyBreeze c (queueBreeze c m s)) := by
  rw [drainBreezePort, queueBreeze, modPort_port_self]
  rfl

/-- While their source has no credit, messages stay in their port in their order. -/
theorem drainBreeze_of_full {l : List BreezeMsg} {src : Nat} (hl : l ≠ []) (hsrc : ∀ x ∈ l, x.src = src) (hfull : 4 ≤ breezeOut s src) :
    drainBreeze c l s = modPort c (fun p => { p with breeze := l }) s := by
  cases l with
  | nil => exact absurd rfl hl
  | cons x l =>
    rw [drainBreeze, injectBreeze_of_full (by rwa [hsrc x List.mem_cons_self])]
    rfl

end Waiting

/-! ## Frames that pass the check (R259, R260) -/

section GoodFrame

/-- The message that a frame carries, with the identity that its port writes. -/
def messageOf (c : Fin 128) (f : BondFrame) : BreezeMsg := { src := 2 * c.val, hdr := rewriteBreeze c.val f.sb, body := f.data.take 16 }

variable {c : Fin 128} {f : BondFrame} {s : State} (hserv : carrying s 0x01 c.val = true) (hcrc : bondCrcOk f = true) (hvalid : f.valid = true)
  (hvote : f.vote = false)

include hserv hcrc hvalid hvote

theorem exec_bondFrame_good : exec (.bondFrame c f) s = .next (acceptFrame c.val f s) := by
  have hexec : exec (.bondFrame c f) s = execBondFrame c f s := rfl
  simp only [hexec, execBondFrame, hserv, hcrc, hvalid, hvote, Bool.not_true, Bool.false_eq_true, if_true, if_false]

/-- A frame without credit fences the cluster. -/
theorem frame_without_credit (h : acceptFrame c.val f s = bondFence c.val 0x0A59 (logUe .unit 0x0A59 0x01 c.val [c.val] s)) :
    Answers (.bondFrame c f) s fun t => t.unitSt 0x01 c.val = .faulted ∧ (t.unitRec 0x01 c.val).trigger = 0x0A59 :=
  ⟨_, (exec_bondFrame_good hserv hcrc hvalid hvote).trans (congrArg _ h), bondFence_unit ..⟩

theorem gale_without_credit (hchan : f.chan = .gale) (hfull : 4 ≤ fifoCount (s.port c.val) f.sb) :
    Answers (.bondFrame c f) s fun t => t.unitSt 0x01 c.val = .faulted ∧ (t.unitRec 0x01 c.val).trigger = 0x0A59 :=
  frame_without_credit hserv hcrc hvalid hvote (by simp only [acceptFrame, hchan, hfull, if_true])

theorem breeze_without_credit (hchan : f.chan = .breeze) (hfull : 8 ≤ (s.port c.val).breeze.length) :
    Answers (.bondFrame c f) s fun t => t.unitSt 0x01 c.val = .faulted ∧ (t.unitRec 0x01 c.val).trigger = 0x0A59 :=
  frame_without_credit hserv hcrc hvalid hvote (by simp only [acceptFrame, hchan, hfull, if_true])

theorem exec_bondFrame_gale (hchan : f.chan = .gale) (hidle : (s.port c.val).fifo = []) : exec (.bondFrame c f) s = .next
    (drainFifo c.val (queueFlit c.val (rewriteFlit s c.val f.sb, f.data) s)) := by
  have hcredit : ¬ 4 ≤ fifoCount (s.port c.val) f.sb := by simp [fifoCount, hidle]
  rw [exec_bondFrame_good hserv hcrc hvalid hvote]
  simp only [acceptFrame, hchan, hcredit, if_false]
  rfl

theorem gale_waits (hchan : f.chan = .gale) (hidle : (s.port c.val).fifo = []) (hvc : sbVc (rewriteFlit s c.val f.sb) ≠ 0)
    (hfull : 64 < inFlight s c.val 4 (sbVc (rewriteFlit s c.val f.sb)) + flitsOf f.data) : Answers (.bondFrame c f) s fun t =>
      t.port c.val = { s.port c.val with fifo := [(rewriteFlit s c.val f.sb, f.data)] } ∧ KeepsBut [.bond] s t := by
  refine ⟨_, exec_bondFrame_gale hserv hcrc hvalid hvote hchan hidle, ?_⟩
  rw [drainFifo_queueFlit hidle, if_pos (by simp [hvc, hfull])]
  refine ⟨?_, ((emptyFifo_queueFlit_keeps _).trans (modPort_keeps ..)).keeps⟩
  rw [queueFlit, modPort_port_self, port_emptyFifo_queueFlit hidle, hidle, List.nil_append]

theorem gale_enters (hchan : f.chan = .gale) (hidle : (s.port c.val).fifo = []) (hroom : sbVc (rewriteFlit s c.val f.sb) = 0 ∨
    inFlight s c.val 4 (sbVc (rewriteFlit s c.val f.sb)) + flitsOf f.data ≤ 64) :
    ∃ u, exec (.bondFrame c f) s = .next (injectPacket c.val 4 (rewriteFlit s c.val f.sb) f.data u)
      ∧ (∀ k, u.port k = s.port k) ∧ KeepsBut [.bond] s u := by
  refine ⟨_, ?_, port_emptyFifo_queueFlit hidle (rewriteFlit s c.val f.sb, f.data), (emptyFifo_queueFlit_keeps _).keeps⟩
  rw [exec_bondFrame_gale hserv hcrc hvalid hvote hchan hidle, drainFifo_queueFlit hidle, if_neg]
  simpa [imp_iff_not_or] using hroom

theorem exec_bondFrame_breeze (hchan : f.chan = .breeze) (hcredit : (s.port c.val).breeze.length < 8) : exec (.bondFrame c f) s = .next
    (drainBreeze c.val ((s.port c.val).breeze ++ [messageOf c f]) (emptyBreeze c.val (queueBreeze c.val (messageOf c f) s))) := by
  rw [exec_bondFrame_good hserv hcrc hvalid hvote, ← drainBreezePort_queueBreeze]
  simp only [acceptFrame, hchan, Nat.not_le.2 hcredit, if_false]
  rfl

theorem breeze_waits (hchan : f.chan = .breeze) (hcredit : (s.port c.val).breeze.length < 8) (hfull : 4 ≤ breezeOut s (2 * c.val))
    (hsrc : ∀ x ∈ (s.port c.val).breeze, x.src = 2 * c.val) : Answers (.bondFrame c f) s fun t =>
      t.port c.val = { s.port c.val with breeze := (s.port c.val).breeze ++ [messageOf c f] } ∧ KeepsBut [.bond] s t := by
  have hall : ∀ x ∈ (s.port c.val).breeze ++ [messageOf c f], x.src = 2 * c.val := by
    intro x hx
    obtain hx | hx := List.mem_append.1 hx
    · exact hsrc x hx
    · rw [List.mem_singleton.1 hx, messageOf]
  refine ⟨_, exec_bondFrame_breeze hserv hcrc hvalid hvote hchan hcredit, ?_⟩
  have hstuck := drainBreeze_of_full (c := c.val) (s := emptyBreeze c.val (queueBreeze c.val (messageOf c f) s)) (by simp) hall hfull
  rw [hstuck]
  refine ⟨?_, ((emptyBreeze_queueBreeze_keeps _).trans (modPort_keeps ..)).keeps⟩
  rw [modPort_port_self, emptyBreeze, modPort_port_self, queueBreeze, modPort_port_self]

theorem breeze_enters (hchan : f.chan = .breeze) (hidle : (s.port c.val).breeze = []) (hroom : breezeOut s (2 * c.val) < 4)
    (hlegal : bzLegal (messageOf c f).hdr = true) (hroute : breezeUnreachable s c.val (messageOf c f).hdr = false) :
    Answers (.bondFrame c f) s fun t =>
      t.net.breeze = s.net.breeze ++ [{ messageOf c f with hdr := stampBreeze s c.val (messageOf c f).hdr }]
        ∧ (∀ k, t.port k = s.port k) ∧ KeepsBut [.net, .bond] s t := by
  have hnode : (messageOf c f).src / 2 = c.val := Nat.mul_div_cancel_left _ (by decide)
  have hsent := injectBreeze_of_routed (m := messageOf c f) (s := emptyBreeze c.val (queueBreeze c.val (messageOf c f) s)) hroom hlegal
    (by rw [hnode]; exact hroute)
  refine ⟨_, exec_bondFrame_breeze hserv hcrc hvalid hvote hchan (by simp [hidle]), ?_⟩
  rw [hidle, List.nil_append, drainBreeze, hsent, hnode]
  exact ⟨rfl, port_emptyBreeze_queueBreeze hidle (messageOf c f),
    (Only.atNet (by decide) ((emptyBreeze_queueBreeze_keeps (messageOf c f)).mono (by decide))).keeps⟩

theorem exec_bondFrame_lull (hchan : f.chan = .lull) : exec (.bondFrame c f) s = .next
    (if fld f.sb 0 4 = 15 then s else lullMessage (rewriteLull s c.val f.sb) s) := by
  rw [exec_bondFrame_good hserv hcrc hvalid hvote]
  simp only [acceptFrame, hchan]

theorem exec_bondFrame_slice (hchan : f.chan = .slice) : exec (.bondFrame c f) s = .next
    (if f.cmd then openStream c.val f.sid.val f.sb [] s else sliceData c.val f.sid.val f.data s) := by
  rw [exec_bondFrame_good hserv hcrc hvalid hvote]
  simp only [acceptFrame, hchan]

end GoodFrame

/-! ## Frames that fail it (R259, R278) -/

section BadFrame

variable {c : Fin 128} {f : BondFrame} {s : State} (hserv : carrying s 0x01 c.val = true) (hcrc : bondCrcOk f = false)
  (hvote : f.vote = false) (hfix : f.chan ≠ .gale ∨ f.fixed = false)

/-- Up to the note of its time an uncorrectable frame is answered, or ends its slice stream. -/
theorem badFrame_eq (c : Nat) (f : BondFrame) (s : State) : ∃ u, Only [.bond, .out] s u ∧ badFrame c f s =
    if (s.port c).lastUe.elim false fun t => s.now < t + 1000000 then
      bondFence c 0x0A55 (logUe .unit 0x0A55 0x01 c [c] (modPort c (fun p => { p with lastUe := some s.now }) u))
    else logUe .operation 0x0A55 0x01 c [c] (modPort c (fun p => { p with lastUe := some s.now }) u) := by
  refine ⟨_, ?_, rfl⟩
  split
  · split
    · exact send_only _ (by decide) Only.refl
    · exact Only.refl
  · split
    · exact send_only _ (by decide) (modPort_only _ _ (by decide) Only.refl)
    · exact Only.refl
  · exact Only.refl
  · exact Only.refl

include hserv hcrc hvote hfix

theorem exec_bondFrame_bad : exec (.bondFrame c f) s = .next (badFrame c.val f s) := by
  have hexec : exec (.bondFrame c f) s = execBondFrame c f s := rfl
  have hlost : (decide (f.chan = .gale) && f.fixed) = false := by obtain h | h := hfix <;> simp [h]
  simp only [hexec, execBondFrame, hserv, hcrc, hvote, hlost, Bool.not_true, Bool.false_eq_true, if_false]

theorem bad_frame_noted (hfirst : (s.port c.val).lastUe = none) : Answers (.bondFrame c f) s fun t =>
    (t.port c.val).lastUe = some s.now ∧ KeepsBut [.log, .bond, .link, .out] s t := by
  obtain ⟨u, hu, hbad⟩ := badFrame_eq c.val f s
  rw [hfirst, Option.elim_none, if_neg Bool.false_ne_true] at hbad
  refine ⟨_, (exec_bondFrame_bad hserv hcrc hvote hfix).trans (congrArg _ hbad), ?_,
    (logUe_only _ _ _ _ _ (by decide) (modPort_only _ _ (by decide) (hu.mono (by decide)))).keeps⟩
  rw [logUe_port, modPort_port_self]

theorem bad_frame_fences {at0 : Nat} (hlast : (s.port c.val).lastUe = some at0) (hsoon : s.now < at0 + 1000000) :
    Answers (.bondFrame c f) s fun t => t.unitSt 0x01 c.val = .faulted ∧ (t.unitRec 0x01 c.val).trigger = 0x0A55 := by
  obtain ⟨u, -, hbad⟩ := badFrame_eq c.val f s
  rw [hlast, Option.elim_some, if_pos (decide_eq_true hsoon)] at hbad
  exact ⟨_, (exec_bondFrame_bad hserv hcrc hvote hfix).trans (congrArg _ hbad), bondFence_unit ..⟩

end BadFrame

/-- Settles O41: each clause is the path of its command on which the port, the test or the frame goes as it says. -/
theorem bondPortTestsAndFaults : Obligations.BondPortTestsAndFaults := by
  refine ⟨fun _ _ => ⟨crdyRise_notes, crdyTimeout_ends⟩, ?tests, ?service⟩
  case tests =>
    intro c ident faults s htest l q wrong found merged
    exact ⟨identity_fails_tile htest, identity_tested htest, static_tested htest, prbs_tested htest, clean_port_ready htest,
      faulty_port_out htest⟩
  case service =>
    intro c s hserv
    refine ⟨cerrN_fences hserv, crdyFall_fences hserv, ?good, ?identity, ?bad⟩
    case good =>
      intro f hcrc hvalid hvote
      refine ⟨fun hchan hidle => ?_, gale_without_credit hserv hcrc hvalid hvote, fun hchan => ?_,
        exec_bondFrame_lull hserv hcrc hvalid hvote, exec_bondFrame_slice hserv hcrc hvalid hvote⟩
      · exact ⟨gale_waits hserv hcrc hvalid hvote hchan hidle, gale_enters hserv hcrc hvalid hvote hchan hidle⟩
      · exact ⟨breeze_without_credit hserv hcrc hvalid hvote hchan, breeze_waits hserv hcrc hvalid hvote hchan,
          breeze_enters hserv hcrc hvalid hvote hchan⟩
    case identity =>
      exact fun sb => ⟨sbSrc_rewriteFlit s c sb, src_rewriteBreeze c sb, sbPart_rewriteFlit s c sb, node_rewriteLull s c sb,
        slot_rewriteLull s c sb, epoch_rewriteLull s c sb⟩
    case bad =>
      exact fun f hcrc hvote hfix => ⟨bad_frame_noted hserv hcrc hvote hfix, fun at0 => bad_frame_fences hserv hcrc hvote hfix⟩

end Sys2Proof.BondCerts
end

section
/-!
PROOF. Stores at their addresses (spec/11_memory_and_ecc.md R281, R282, R289, R292, R297, R298): how far a write within an HBM line, a slice
word and several pieces reaches, what stands there once it is acknowledged, and in which order two requests for one bank are served.
-/
namespace Sys2Proof.StoreCerts

open Sys2Proof.Machine Sys2Proof.Laws

/-! ## How far an operation reaches -/

/-- An operation changes bytes in `p` alone and flaws in `q` alone, and none of what the slice banks serve and hold back. -/
structure Within (p q : Set Nat) (s t : State) : Prop where
  bytes : ∀ x ∉ p, Tab.get 0 t.mem.bytes x = Tab.get 0 s.mem.bytes x
  flaws : ∀ x ∉ q, t.flaw x = s.flaw x
  bankUsed : t.mem.bankUsed = s.mem.bankUsed
  bankWait : t.mem.bankWait = s.mem.bankWait

section Reach

variable {p q p' q' : Set Nat} {s t u : State}

theorem Within.refl : Within p q s s := ⟨fun _ _ => rfl, fun _ _ => rfl, rfl, rfl⟩

theorem Within.trans (h : Within p q s t) (k : Within p q t u) : Within p q s u :=
  ⟨fun x hx => (k.bytes x hx).trans (h.bytes x hx), fun x hx => (k.flaws x hx).trans (h.flaws x hx), k.bankUsed.trans h.bankUsed,
    k.bankWait.trans h.bankWait⟩

/-- The form for an operation on a state that is read off the goal. -/
theorem Within.after (k : Within p q t u) (h : Within p q s t) : Within p q s u := h.trans k

theorem Within.mono (h : Within p q s t) (hp : p ⊆ p') (hq : q ⊆ q') : Within p' q' s t :=
  ⟨fun x hx => h.bytes x fun k => hx (hp k), fun x hx => h.flaws x fun k => hx (hq k), h.bankUsed, h.bankWait⟩

theorem Within.of_mem (h : t.mem = s.mem) : Within p q s t := by
  constructor <;> simp only [State.flaw, h, implies_true]

theorem Within.of_fields (hbytes : t.mem.bytes = s.mem.bytes) (hflaws : t.mem.flaws = s.mem.flaws)
    (hused : t.mem.bankUsed = s.mem.bankUsed) (hwait : t.mem.bankWait = s.mem.bankWait) : Within p q s t :=
  ⟨fun _ _ => by rw [hbytes], fun _ _ => by rw [State.flaw, hflaws, State.flaw], hused, hwait⟩

/-- What leaves the memory group alone reaches no further. -/
theorem Within.then_only {gs : List Group} (k : Only gs t u) (hmem : .mem ∉ gs) (h : Within p q s t) : Within p q s u :=
  h.trans (.of_mem (k.keeps .mem hmem))

theorem setFlaw_within {a : Nat} (h : a ∈ q) (f : Flaw) (s : State) : Within p q s (setFlaw a f s) :=
  ⟨fun _ _ => rfl, fun x hx => by rw [setFlaw_flaw, if_neg (ne_of_mem_of_not_mem h hx).symm], rfl, rfl⟩

theorem poke_within {a : Nat} {l : List Byte} (h : Set.Ico a (a + l.length) ⊆ p) (s : State) : Within p q s (poke a l s) :=
  ⟨fun x hx => SliceCerts.poke_outside a l s x fun k => hx (h k), fun _ _ => rfl, rfl, rfl⟩

variable (s)

/-! ## Records, counts and retirement reach nowhere (R299, R303 to R305) -/

theorem noteCe_within (u dpa pos : Nat) (inj : Bool) : Within p q s (noteCe u dpa pos inj s) := by
  unfold noteCe
  exact .then_only (logLimited_only _ _ _ _ _ _ _ (List.Subset.refl _) Only.refl) (by decide) (.of_fields rfl rfl rfl rfl)

theorem noteUe_within (u dpa : Nat) (inj : Bool) : Within p q s (noteUe u dpa inj s) := by
  unfold noteUe
  exact .then_only (logUe_only _ _ _ _ _ (List.Subset.refl _) Only.refl) (by decide) (.of_fields rfl rfl rfl rfl)

theorem countStatic_within (dpa n : Nat) : Within p q s (countStatic dpa n s) := by
  unfold countStatic
  split
  case h_1 => exact .refl
  case h_2 =>
    lift_lets
    intro t u used s1
    split
    case isTrue =>
      exact .then_only (logLimited_only _ _ _ _ _ _ _ (List.Subset.refl _) Only.refl) (by decide) (.of_fields rfl rfl rfl rfl)
    case isFalse => exact .of_fields rfl rfl rfl rfl

theorem modFrame_within (f : Nat) (g : FrameRec → FrameRec) : Within p q s (modFrame f g s) := .of_fields rfl rfl rfl rfl

theorem retireNow_within (f : Nat) (rows : List (Nat × Nat)) : Within p q s (retireNow f rows s) := by
  unfold retireNow
  dsimp only
  split
  case isTrue => exact .of_fields rfl rfl rfl rfl
  case isFalse =>
    split
    case isTrue =>
      exact .then_only (logInfo_only _ _ _ _ (List.Subset.refl _) Only.refl) (by decide) (.of_fields rfl rfl rfl rfl)
    case isFalse =>
      exact .then_only (logUe_only _ _ _ _ _ (List.Subset.refl _) Only.refl) (by decide) (.of_fields rfl rfl rfl rfl)

theorem reindex_within (t : Tab PEntry) (l : List Nat) : ∀ s : State, Within p q s (reindex t l s) := by
  induction l with
  | nil => exact fun _ => .refl
  | cons f l ih => exact fun s => (modFrame_within s f _).trans (ih _)

theorem dropIndex_within (f : Nat) : Within p q s (dropIndex f s) := by
  unfold dropIndex removeEntries
  dsimp only
  split
  case isTrue => exact .refl
  case isFalse => exact .after (reindex_within _ _ _) (.of_fields rfl rfl rfl rfl)

theorem retirePending_within (f : Nat) : Within p q s (retirePending f s) := by
  unfold retirePending
  split
  case isTrue => exact retireNow_within s f _
  case isFalse =>
    refine .trans ?_ (modFrame_within _ f _)
    split
    case isTrue => exact dropIndex_within s f
    case isFalse => exact .refl

theorem retireEach_within (l : List Nat) : ∀ s : State, Within p q s (retireEach l s) := by
  induction l with
  | nil => exact fun _ => .refl
  | cons f l ih => exact fun s => (retirePending_within s f).trans (ih _)

theorem suspectRow_within (mc row : Nat) : Within p q s (suspectRow mc row s) := by
  unfold suspectRow
  exact .then_only (listRow_only _ _ (List.Subset.refl _) Only.refl) (by decide)
    (.trans (.then_only (logInfo_only _ _ _ _ (List.Subset.refl _) Only.refl) (by decide) .refl) (retireEach_within _ _))

theorem noteHard_within (mc row line : Nat) : Within p q s (noteHard mc row line s) := .of_fields rfl rfl rfl rfl

theorem ueLine_within (mc addr line : Nat) : Within p q s (ueLine mc addr line s) :=
  (noteHard_within s mc _ line).trans (suspectRow_within _ mc _)

theorem hardWord_within (node addr : Nat) : Within p q s (hardWord node addr s) := by
  unfold hardWord
  dsimp only
  split
  case isTrue => exact .of_fields rfl rfl rfl rfl
  case isFalse =>
    split
    case isTrue => exact .of_fields rfl rfl rfl rfl
    case isFalse =>
      exact .then_only (logUe_only _ _ _ _ _ (List.Subset.refl _) Only.refl) (by decide) (.of_fields rfl rfl rfl rfl)

/-! ## The codes reach the flaw of their line or word (R294 to R298, R310) -/

theorem hbmUe_within {line : Nat} (h : line ∈ q) (mc addr : Nat) (inj : Bool) : Within p q s (hbmUe mc addr line inj s) := by
  have hnoted : Within p q s (noteUe (mcIdx mc) line inj (setFlaw line { poison := true } s)) :=
    (setFlaw_within h _ s).trans (noteUe_within _ _ _ _)
  unfold hbmUe
  dsimp only
  split
  case isTrue => exact hnoted
  case isFalse => exact hnoted.trans (ueLine_within _ mc addr line)

theorem meetInjection_within {a : Nat} (h : a ∈ q) : Within p q s (meetInjection a s) := by
  unfold meetInjection
  split
  case isTrue =>
    unfold injectInto
    exact .then_only (logSec_only _ _ _ _ (List.Subset.refl _) Only.refl) (by decide)
      ((setFlaw_within h _ s).trans (.of_fields rfl rfl rfl rfl))
  case isFalse => exact .refl

theorem scheduleBack_within (w : Nat) : Within p q s (scheduleBack w s) := by
  unfold scheduleBack
  split
  case isTrue => exact .refl
  case isFalse => exact .of_fields rfl rfl rfl rfl

theorem dropBack_within (w : Nat) : Within p q s (dropBack w s) := .of_fields rfl rfl rfl rfl

theorem readWord_within {w : Nat} (h : w ∈ q) (found : List Nat) : Within p q s (readWord w found s).2 := by
  unfold readWord
  dsimp only
  split
  case h_1 => exact .refl
  case h_2 => exact (setFlaw_within h _ s).trans ((noteCe_within _ _ _ _ _).trans (scheduleBack_within _ w))
  case h_3 =>
    have hnoted := fun f b => (setFlaw_within (p := p) h f s).trans (noteUe_within _ ((w - sliceBase) / 2 ^ 22) w b)
    dsimp only
    split
    case isTrue => exact hnoted _ _
    case isFalse => exact (hnoted _ _).trans (hardWord_within _ _ _)
  case h_4 =>
    split
    case isTrue =>
      dsimp only
      split
      case isTrue => exact .after (noteUe_within ..) (.of_mem rfl)
      case isFalse => exact .after (hardWord_within ..) (.after (noteUe_within ..) (.of_mem rfl))
    case isFalse => exact .of_mem rfl

end Reach

/-! ## A write within a slice word and within several (R297, R298) -/

section Writes

variable {p : Set Nat} {a : Nat} {data : List Byte}

@[simp] theorem length_freeBytes (c n : Nat) : (freeBytes c n).length = n := by simp [freeBytes]

theorem two_lt_length {l : List Nat} (hnone : l ≠ []) (hone : ∀ x, l ≠ [x]) (htwo : ∀ x y, l ≠ [x, y]) : 2 < l.length := by
  match l with
  | [] => exact absurd rfl hnone
  | [x] => exact absurd rfl (hone x)
  | [x, y] => exact absurd rfl (htwo x y)
  | _ :: _ :: _ :: _ => simp

theorem three_lt_length {l : List Nat} (hnone : l ≠ []) (hone : ∀ x, l ≠ [x]) (htwo : ∀ x y, l ≠ [x, y])
    (hthree : ∀ x y z, l ≠ [x, y, z]) : 3 < l.length :=
  lt_of_le_of_ne (two_lt_length hnone hone htwo) fun h => by
    obtain ⟨x, y, z, hl⟩ := List.length_eq_three.1 h.symm
    exact hthree x y z hl

/-- Three or more wrong bits alone may go unseen. -/
theorem bad_of_readWord_free {w : Nat} {found : List Nat} {s : State} (h : (readWord w found s).1 = .free) :
    2 < (joinBad (s.flaw w).bad found).length := by
  unfold readWord at h
  dsimp only at h
  split at h
  case h_1 => cases h
  case h_2 => cases h
  case h_3 => cases h
  case h_4 hnone hone htwo => exact two_lt_length hnone hone htwo

/-- How a write within one line or word ends: it reached no further than `p` and `q` before its data, and then it is refused, or its data
is stored, which may be the write of a whole line or word that meets the armed injection. -/
def Stored (p q : Set Nat) (a : Nat) (data : List Byte) (s : State) (r : Bool × State) : Prop :=
  ∃ u, Within p q s u ∧ (r = (false, u) ∨ r = (true, poke a data u) ∨ a ∈ q ∧ r = (true, meetInjection a (poke a data u)))

theorem Stored.within {q : Set Nat} {s : State} {r : Bool × State} (h : Stored p q a data s r) (hdata : Set.Ico a (a + data.length) ⊆ p) :
    Within p q s r.2 := by
  obtain ⟨u, hbefore, rfl | rfl | ⟨hmem, rfl⟩⟩ := h
  · exact hbefore
  · exact hbefore.trans (poke_within hdata u)
  · exact hbefore.trans (.after (meetInjection_within _ hmem) (poke_within hdata u))

theorem writeWord_stored {found : List Nat} {s : State} (hfit : a % 8 + data.length ≤ 8)
    (hword : 2 < (joinBad (s.flaw (a / 8 * 8)).bad found).length → Set.Ico (a / 8 * 8) (a / 8 * 8 + 8) ⊆ p) :
    Stored p {a / 8 * 8} a data s (writeWord a data found s) := by
  have hmem : a / 8 * 8 ∈ ({a / 8 * 8} : Set Nat) := rfl
  have hdrop : Within p {a / 8 * 8} s (dropBack (a / 8 * 8) s) := dropBack_within ..
  unfold writeWord
  dsimp only
  split
  case isTrue hwhole =>
    have hstart : a / 8 * 8 = a := by omega
    refine ⟨_, .after (setFlaw_within hmem {} _) hdrop, .inr (.inr ⟨hstart.symm, ?_⟩)⟩
    rw [hstart]
  case isFalse =>
    have hread := hdrop.trans (readWord_within _ hmem found)
    split
    case h_1 => exact ⟨_, hread, .inl rfl⟩
    case h_2 => exact ⟨_, hread.trans (.after (dropBack_within ..) (setFlaw_within hmem {} _)), .inr (.inl rfl)⟩
    case h_3 hfree =>
      refine ⟨_, ?_, .inr (.inl rfl)⟩
      refine .after (poke_within ?_ _) (.after (setFlaw_within hmem {} _) (.trans hread (.of_mem rfl)))
      rw [length_freeBytes]
      exact hword (bad_of_readWord_free (s := dropBack (a / 8 * 8) s) hfree)

/-- The bytes that several words take are those named, and the whole of a word with more than two wrong bits. -/
theorem writeWords_within (found : Nat → List Nat) (k : Nat) : ∀ {a : Nat} {data : List Byte} (s : State), Set.Ico a (a + data.length) ⊆ p →
    (∀ x ∈ Set.Ico a (a + data.length), 2 < (joinBad (s.flaw (x / 8 * 8)).bad (found (x / 8 * 8))).length →
      Set.Ico (x / 8 * 8) (x / 8 * 8 + 8) ⊆ p) →
    Within p (Set.Ico (a / 8 * 8) (a + data.length)) s (writeWords k a data found s).2 := by
  induction k with
  | zero => exact fun _ _ _ => .refl
  | succ k ih =>
    intro a data s hdata hword
    cases data with
    | nil => exact .refl
    | cons b l =>
      simp only [writeWords]
      generalize hm : min (b :: l).length (8 - a % 8) = m
      generalize hd : b :: l = data at hdata hword hm ⊢
      have hpos : 0 < data.length := by rw [← hd]; exact Nat.succ_pos _
      have htake : (data.take m).length = m := by rw [List.length_take]; omega
      have hdrop : (data.drop m).length = data.length - m := List.length_drop
      have hfirst : Within p {a / 8 * 8} s (writeWord a (data.take m) (found (a / 8 * 8)) s).2 := by
        refine (writeWord_stored (by omega) (hword a ⟨Nat.le_refl _, by omega⟩)).within ?_
        rw [htake]
        exact (Set.Ico_subset_Ico (Nat.le_refl _) (by omega)).trans hdata
      refine .trans (hfirst.mono subset_rfl ?_) ((ih _ ?_ ?_).mono subset_rfl ?_)
      · rintro x rfl
        exact ⟨Nat.le_refl _, by omega⟩
      · rw [hdrop]
        exact (Set.Ico_subset_Ico (by omega) (by omega)).trans hdata
      · rintro x ⟨hlo, hhi⟩ hbad
        have hother : x / 8 * 8 ∉ ({a / 8 * 8} : Set Nat) := by
          rw [Set.mem_singleton_iff]
          omega
        rw [hfirst.flaws _ hother] at hbad
        exact hword x ⟨by omega, by omega⟩ hbad
      · rw [hdrop]
        exact Set.Ico_subset_Ico (by omega) (by omega)

theorem readWords_within (found : Nat → List Nat) (n : Nat) : ∀ (w : Nat) (s : State), Within p Set.univ s (readWords n w found s).2 := by
  induction n with
  | zero => exact fun _ _ => .refl
  | succ n ih => exact fun w s => (readWord_within _ (Set.mem_univ w) _).trans (ih _ _)

/-! ## A write within an HBM line (R297, R298, R439, R440) -/

theorem storeLine_stored {found : List Nat} {s : State} (hfit : a % 64 + data.length ≤ 64)
    (hline : 3 < (joinBad (s.flaw (a / 64 * 64)).bad found).length → Set.Ico (a / 64 * 64) (a / 64 * 64 + 64) ⊆ p) :
    Stored p {a / 64 * 64} a data s (storeLine a data found s) := by
  have hmem : a / 64 * 64 ∈ ({a / 64 * 64} : Set Nat) := rfl
  unfold storeLine
  dsimp only
  split
  case h_1 => exact ⟨_, .refl, .inl rfl⟩
  case h_2 =>
    split
    case isTrue => exact ⟨_, .refl, .inl rfl⟩
    case isFalse =>
      split
      case isTrue hwhole =>
        have hstart : a / 64 * 64 = a := by omega
        refine ⟨_, setFlaw_within hmem {} s, .inr (.inr ⟨hstart.symm, ?_⟩)⟩
        rw [hstart]
      case isFalse =>
        split
        case isTrue => exact ⟨_, .refl, .inl rfl⟩
        case isFalse =>
          generalize joinBad (s.flaw (a / 64 * 64)).bad found = bad at hline
          split
          case h_1 => exact ⟨_, .refl, .inr (.inl rfl)⟩
          case h_2 => exact ⟨_, (setFlaw_within hmem {} s).trans (noteCe_within ..), .inr (.inl rfl)⟩
          case h_3 => exact ⟨_, hbmUe_within _ hmem _ _ _, .inl rfl⟩
          case h_4 => exact ⟨_, hbmUe_within _ hmem _ _ _, .inl rfl⟩
          case h_5 hnone hone htwo hthree =>
            split
            case isTrue =>
              refine ⟨_, ?_, .inl rfl⟩
              exact .after (hbmUe_within _ hmem _ _ _) (.of_mem rfl)
            case isFalse =>
              refine ⟨_, ?_, .inr (.inl rfl)⟩
              refine .after (poke_within ?_ _) (.after (setFlaw_within hmem {} _) (.of_mem rfl))
              rw [length_freeBytes]
              exact hline (three_lt_length hnone hone htwo hthree)

theorem writeLine_within {found : List Nat} {s : State} (hfit : a % 64 + data.length ≤ 64) (hdata : Set.Ico a (a + data.length) ⊆ p)
    (hline : 3 < (joinBad (s.flaw (a / 64 * 64)).bad found).length → Set.Ico (a / 64 * 64) (a / 64 * 64 + 64) ⊆ p) :
    Within p {a / 64 * 64} s (writeLine a data found s).2 := by
  have hstore := (storeLine_stored hfit hline).within hdata
  unfold writeLine
  split
  case h_1 => exact hstore
  case h_2 =>
    split
    case isTrue => exact .then_only (holdWrite_only _ _ _ _ (List.Subset.refl _) Only.refl) (by decide) .refl
    case isFalse =>
      dsimp only
      split
      case isTrue =>
        dsimp only
        exact .then_only (modVault_only _ _ (List.Subset.refl _) Only.refl) (by decide) hstore
      case isFalse => exact hstore

/-! ## Writes in pieces -/

/-- The line of a byte lies within reach where some word of it, or the line, has more than two errors. -/
def BadLinesIn (p : Set Nat) (a n : Nat) (s : State) : Prop :=
  ∀ x ∈ Set.Ico a (a + n), ∀ k, k / 64 = x / 64 → 2 < (joinBad (s.flaw k).bad []).length → Set.Ico (x / 64 * 64) (x / 64 * 64 + 64) ⊆ p

theorem writePiece_within {s : State} (hfit : a % 64 + data.length ≤ 64) (hpos : 0 < data.length) (hdata : Set.Ico a (a + data.length) ⊆ p)
    (hbad : BadLinesIn p a data.length s) : Within p (Set.Ico (a / 64 * 64) (a + data.length)) s (writePiece a data s).2 := by
  unfold writePiece
  split_ifs
  · have hfirst : a ∈ Set.Ico a (a + data.length) := ⟨Nat.le_refl _, by omega⟩
    refine (writeLine_within hfit hdata fun h => hbad a hfirst (a / 64 * 64) (by omega) (by omega)).mono subset_rfl ?_
    rintro x rfl
    exact ⟨Nat.le_refl _, by omega⟩
  · refine (writeWords_within _ 9 s hdata fun x hx h => ?_).mono subset_rfl (Set.Ico_subset_Ico (by omega) (Nat.le_refl _))
    exact (Set.Ico_subset_Ico (by omega) (by omega)).trans (hbad x hx _ (by omega) h)
  · exact .refl
  · exact poke_within hdata s
  · exact .refl

theorem writePieces_within (k : Nat) : ∀ {a : Nat} {data : List Byte} (s : State), Set.Ico a (a + data.length) ⊆ p →
    BadLinesIn p a data.length s → Within p (Set.Ico (a / 64 * 64) (a + data.length)) s (writePieces k a data s).2 := by
  induction k with
  | zero => exact fun _ _ _ => .refl
  | succ k ih =>
    intro a data s hdata hbad
    cases data with
    | nil => exact .refl
    | cons b l =>
      simp only [writePieces]
      generalize hm : min (b :: l).length (64 - a % 64) = m
      generalize hd : b :: l = data at hdata hbad hm ⊢
      have hpos : 0 < data.length := by rw [← hd]; exact Nat.succ_pos _
      have htake : (data.take m).length = m := by rw [List.length_take]; omega
      have hdrop : (data.drop m).length = data.length - m := List.length_drop
      have hfirst : Within p (Set.Ico (a / 64 * 64) (a + m)) s (writePiece a (data.take m) s).2 := by
        have hpiece := writePiece_within (p := p) (a := a) (data := data.take m) (s := s)
        rw [htake] at hpiece
        exact hpiece (by omega) (by omega) ((Set.Ico_subset_Ico (Nat.le_refl _) (by omega)).trans hdata)
          fun x hx => hbad x ⟨hx.1, hx.2.trans_le (by omega)⟩
      refine .trans (hfirst.mono subset_rfl (Set.Ico_subset_Ico (Nat.le_refl _) (by omega))) ((ih _ ?_ ?_).mono subset_rfl ?_)
      · rw [hdrop]
        exact (Set.Ico_subset_Ico (by omega) (by omega)).trans hdata
      · rintro x ⟨hlo, hhi⟩ k hk h
        have hother : k ∉ Set.Ico (a / 64 * 64) (a + m) := by
          rintro ⟨-, hbelow⟩
          omega
        rw [hfirst.flaws _ hother] at h
        exact hbad x ⟨by omega, by omega⟩ k hk h
      · rw [hdrop]
        exact Set.Ico_subset_Ico (by omega) (by omega)

theorem memWrite_within {s : State} (hdata : Set.Ico a (a + data.length) ⊆ p) (hbad : BadLinesIn p a data.length s) :
    Within p (Set.Ico (a / 64 * 64) (a + data.length)) s (memWrite a data s).2 := writePieces_within _ s hdata hbad

end Writes

/-! ## What stands at an address after an acknowledged write -/

/-- Bytes stand at an address. -/
def Stands (a : Nat) (data : List Byte) (s : State) : Prop := ∀ i (h : i < data.length), Tab.get 0 s.mem.bytes (a + i) = data[i]

section Acknowledged

variable {a : Nat} {data : List Byte} {s t : State}

theorem Stands.within {p q : Set Nat} (h : Stands a data s) (hw : Within p q s t) (hp : ∀ x ∈ p, ¬ (a ≤ x ∧ x < a + data.length)) :
    Stands a data t := fun i hi => (hw.bytes (a + i) fun hx => hp _ hx ⟨by omega, by omega⟩).trans (h i hi)

theorem get_pokeTab_inside (l : List Byte) : ∀ (t : Tab Byte) (a i : Nat) (h : i < l.length), Tab.get 0 (pokeTab t a l) (a + i) = l[i] := by
  induction l with
  | nil => exact fun _ _ _ h => absurd h (Nat.not_lt_zero _)
  | cons b l ih =>
    intro t a i h
    rw [pokeTab]
    cases i with
    | zero => rw [SliceCerts.get_pokeTab_outside l _ _ (by omega), Nat.add_zero, Tab.get_put_self, List.getElem_cons_zero]
    | succ i =>
      rw [List.getElem_cons_succ, ← ih _ (a + 1) i (by simpa using h), Nat.add_right_comm, Nat.add_assoc]

theorem poke_stands (a : Nat) (data : List Byte) (s : State) : Stands a data (poke a data s) := get_pokeTab_inside data s.mem.bytes a

/-- Data stands where its first `m` bytes and the rest stand. -/
theorem Stands.of_pieces {m : Nat} (hfirst : Stands a (data.take m) s) (hrest : Stands (a + m) (data.drop m) s) : Stands a data s := by
  intro i hi
  by_cases him : i < m
  · rw [hfirst i (by rw [List.length_take]; omega), List.getElem_take]
  · have hdrop : i - m < (data.drop m).length := by rw [List.length_drop]; omega
    have hplace : a + i = a + m + (i - m) := by omega
    rw [hplace, hrest _ hdrop, List.getElem_drop]
    congr 1
    omega

/-- An acknowledged write within one line or word has stored its data; an injection marks the flaw alone. -/
theorem Stored.stands {p q : Set Nat} {r : Bool × State} (h : Stored p q a data s r) (hack : r.1 = true) : Stands a data r.2 := by
  obtain ⟨u, -, rfl | rfl | ⟨-, rfl⟩⟩ := h
  · cases hack
  · exact poke_stands a data u
  · exact (poke_stands a data u).within (p := ∅) (meetInjection_within _ (Set.mem_univ a)) fun _ hx => hx.elim

theorem writeWords_stands (found : Nat → List Nat) (k : Nat) : ∀ {a : Nat} {data : List Byte} {s : State},
    (0 < data.length → a % 8 + data.length ≤ 8 * k) → (writeWords k a data found s).1 = true →
    Stands a data (writeWords k a data found s).2 := by
  induction k with
  | zero => exact fun hfit _ i hi => absurd (hfit (by omega)) (by omega)
  | succ k ih =>
    intro a data s hfit hack
    cases data with
    | nil => exact fun i hi => absurd hi (Nat.not_lt_zero i)
    | cons b l =>
      simp only [writeWords, Bool.and_eq_true] at hack ⊢
      generalize hm : min (b :: l).length (8 - a % 8) = m at hack ⊢
      generalize b :: l = data at hfit hm hack ⊢
      obtain ⟨hfirst, hrest⟩ := hack
      have htake : (data.take m).length = m := by rw [List.length_take]; omega
      have hdrop : (data.drop m).length = data.length - m := List.length_drop
      have hword := (writeWord_stored (p := Set.univ) (by omega) fun _ => Set.subset_univ _).stands hfirst
      refine .of_pieces (hword.within (p := Set.Ici (a + m)) (writeWords_within found k _ ?_ ?_) ?_) (ih (by omega) hrest)
      · exact fun x hx => hx.1
      · rintro x ⟨hlo, hhi⟩ - y ⟨hy, -⟩
        exact Set.mem_Ici.2 (by omega)
      · rintro x hx ⟨-, hbelow⟩
        have habove := Set.mem_Ici.1 hx
        omega

theorem writeLine_of_no_vault (h : s.sealed.vaults = []) (a : Nat) (data : List Byte) (found : List Nat) :
    writeLine a data found s = storeLine a data found s := by
  have hnone : vaultAt s a = none := by rw [vaultAt, h, List.find?_nil]
  rw [writeLine, hnone]

theorem writePiece_stands (hfit : a % 64 + data.length ≤ 64) (hvaults : s.sealed.vaults = []) (hack : (writePiece a data s).1 = true) :
    Stands a data (writePiece a data s).2 := by
  unfold writePiece at hack ⊢
  split_ifs at hack ⊢
  · rw [writeLine_of_no_vault hvaults] at hack ⊢
    exact (storeLine_stored (p := Set.univ) hfit fun _ => Set.subset_univ _).stands hack
  · exact writeWords_stands _ 9 (fun _ => by omega) hack
  · exact poke_stands a data s

/-- A piece opens and closes no vault. -/
theorem writePiece_vaults (hvaults : s.sealed.vaults = []) (a : Nat) (data : List Byte) : (writePiece a data s).2.sealed.vaults = [] := by
  have hkept : (writePiece a data s).2.sealed = s.sealed := by
    unfold writePiece
    split_ifs
    · rw [writeLine_of_no_vault hvaults]
      exact (storeLine_only _ _ _ (List.Subset.refl _) Only.refl).keeps .sealed (by decide)
    · exact (writeWords_only _ _ _ _ (List.Subset.refl _) Only.refl).keeps .sealed (by decide)
    · rfl
    · rfl
    · rfl
  rw [hkept, hvaults]

theorem writePieces_stands (k : Nat) : ∀ {a : Nat} {data : List Byte} {s : State},
    (0 < data.length → a % 64 + data.length ≤ 64 * k) → s.sealed.vaults = [] → (writePieces k a data s).1 = true →
    Stands a data (writePieces k a data s).2 := by
  induction k with
  | zero => exact fun hfit _ _ i hi => absurd (hfit (by omega)) (by omega)
  | succ k ih =>
    intro a data s hfit hvaults hack
    cases data with
    | nil => exact fun i hi => absurd hi (Nat.not_lt_zero i)
    | cons b l =>
      simp only [writePieces, Bool.and_eq_true] at hack ⊢
      generalize hm : min (b :: l).length (64 - a % 64) = m at hack ⊢
      generalize b :: l = data at hfit hm hack ⊢
      obtain ⟨hfirst, hrest⟩ := hack
      have htake : (data.take m).length = m := by rw [List.length_take]; omega
      have hdrop : (data.drop m).length = data.length - m := List.length_drop
      have hpiece := writePiece_stands (by omega) hvaults hfirst
      refine .of_pieces (hpiece.within (p := Set.Ici (a + m)) (writePieces_within k _ ?_ ?_) ?_)
        (ih (by omega) (writePiece_vaults hvaults ..) hrest)
      · exact fun x hx => hx.1
      · rintro x ⟨hlo, hhi⟩ - - - y ⟨hy, -⟩
        exact Set.mem_Ici.2 (by omega)
      · rintro x hx ⟨-, hbelow⟩
        have habove := Set.mem_Ici.1 hx
        omega

theorem memWrite_stands (hvaults : s.sealed.vaults = []) (hack : (memWrite a data s).1 = true) : Stands a data (memWrite a data s).2 :=
  writePieces_stands _ (fun _ => by omega) hvaults hack

end Acknowledged

/-! ## Writes that meet neither a flaw nor an injection -/

theorem meetInjection_of_unarmed {s : State} (h : s.mem.armed = false) (a : Nat) : meetInjection a s = s := if_neg (by simp [h])

theorem storeLine_clean {a mc addr : Nat} {data : List Byte} {s : State} (harmed : s.mem.armed = false)
    (hplace : ctrlAddr s (a / 64 * 64) = some (mc, addr)) (hup : stackUp s (mc / 2) = true) (hflaw : s.flaw (a / 64 * 64) = {}) :
    (storeLine a data [] s).1 = true ∧ Only [.mem, .bytes] s (storeLine a data [] s).2 := by
  have hnone : joinBad ({} : Flaw).bad [] = [] := rfl
  have hunarmed : ∀ line, meetInjection line (poke line data (setFlaw line {} s)) = poke line data (setFlaw line {} s) :=
    fun line => meetInjection_of_unarmed (s := poke line data (setFlaw line {} s)) harmed line
  simp only [storeLine, hplace, hup, hflaw, hnone, hunarmed, Bool.not_true, Bool.false_eq_true, if_false]
  split
  case isTrue => exact ⟨rfl, poke_only _ _ (List.Subset.refl _) (setFlaw_only _ _ (by decide) Only.refl)⟩
  case isFalse => exact ⟨rfl, poke_only _ _ (List.Subset.refl _) Only.refl⟩

/-- No line and no word has a flaw, and no injection is armed. -/
structure Clean (s : State) : Prop where
  armed : s.mem.armed = false
  flaws : ∀ w, s.flaw w = {}

theorem Clean.setFlaw {s : State} (h : Clean s) (w : Nat) : Clean (setFlaw w {} s) :=
  ⟨h.armed, fun k => by rw [setFlaw_flaw, h.flaws, ite_self]⟩

theorem Clean.dropBack {s : State} (h : Clean s) (w : Nat) : Clean (dropBack w s) := ⟨h.armed, h.flaws⟩

theorem Clean.poke {s : State} (h : Clean s) (a : Nat) (l : List Byte) : Clean (poke a l s) := ⟨h.armed, h.flaws⟩

theorem writeWord_clean {s : State} (h : Clean s) (a : Nat) (data : List Byte) :
    (writeWord a data [] s).1 = true ∧ Only [.mem, .bytes] s (writeWord a data [] s).2 ∧ Clean (writeWord a data [] s).2 := by
  have hdropped := h.dropBack (a / 8 * 8)
  have hdrop : Only [.mem, .bytes] s (dropBack (a / 8 * 8) s) := dropBack_only _ (by decide) Only.refl
  have hread : readWord (a / 8 * 8) [] (dropBack (a / 8 * 8) s) = (.data, dropBack (a / 8 * 8) s) := by
    rw [readWord, hdropped.flaws]
    rfl
  unfold writeWord
  dsimp only
  split
  case isTrue =>
    have hwritten := (hdropped.setFlaw (a / 8 * 8)).poke (a / 8 * 8) data
    rw [meetInjection_of_unarmed hwritten.armed]
    exact ⟨rfl, poke_only _ _ (List.Subset.refl _) (setFlaw_only _ _ (by decide) hdrop), hwritten⟩
  case isFalse =>
    rw [hread]
    exact ⟨rfl, poke_only _ _ (List.Subset.refl _) (dropBack_only _ (by decide) (setFlaw_only _ _ (by decide) hdrop)),
      ((hdropped.setFlaw _).dropBack _).poke a data⟩

theorem writeWords_clean (k : Nat) : ∀ {s : State} (a : Nat) (data : List Byte), Clean s →
    (writeWords k a data (fun _ => []) s).1 = true ∧ Only [.mem, .bytes] s (writeWords k a data (fun _ => []) s).2 := by
  induction k with
  | zero => exact fun _ _ _ => ⟨rfl, Only.refl⟩
  | succ k ih =>
    intro s a data h
    cases data with
    | nil => exact ⟨rfl, Only.refl⟩
    | cons b l =>
      simp only [writeWords]
      generalize min (b :: l).length (8 - a % 8) = m
      obtain ⟨hack, honly, hclean⟩ := writeWord_clean h a ((b :: l).take m)
      obtain ⟨hacks, honlys⟩ := ih (a + m) ((b :: l).drop m) hclean
      exact ⟨by rw [hack, hacks]; rfl, honly.trans honlys⟩

/-! ## HBM_WRITE and HBM_READ (R289, R297, R298) -/

theorem answerWrite_within (src tag : Nat) {p q : Set Nat} {s : State} {r : Bool × State} (h : Within p q s r.2) :
    Within p q s (answerWrite src tag r) := .then_only (answerWrite_only src tag r (List.Subset.refl _) Only.refl) (by decide) h

theorem answerWrite_of_ack {src tag : Nat} {r : Bool × State} (h : r.1 = true) :
    answerWrite src tag r = send (.flit src "write ack" [tag]) r.2 := if_pos h

/-- A write that is acknowledged and changes memory alone: its answer is the one message sent. -/
theorem answerWrite_acknowledged {src tag a : Nat} {data : List Byte} {s : State} {r : Bool × State}
    (hack : r.1 = true) (honly : Only [.mem, .bytes] s r.2)
    (hstands : Stands a data r.2) : Stands a data (answerWrite src tag r)
      ∧ (answerWrite src tag r).out.sent = .flit src "write ack" [tag] :: s.out.sent
      ∧ KeepsBut [.mem, .out, .bytes] s (answerWrite src tag r) := by
  rw [answerWrite_of_ack hack]
  refine ⟨hstands, ?_, (send_only _ (by decide) (honly.mono (by decide))).keeps⟩
  rw [← honly.keeps .out (by decide)]
  rfl

/-- The bytes of a write that its 64-byte line takes. -/
def inLine (a : Nat) (data : List Byte) : List Byte := data.take (64 - a % 64)

theorem inLine_fits (a : Nat) (data : List Byte) : a % 64 + (inLine a data).length ≤ 64 := by
  have hlen : (inLine a data).length ≤ 64 - a % 64 := List.length_take_le ..
  omega

section HbmWrite

variable {src : Fin 152} {tag : BitVec 16} {static : Bool} {dpa : BitVec 48} {data : List Byte} {found : List (Fin 68)} {s : State}

/-- The state after HBM_WRITE. -/
def hbmWritten (src : Fin 152) (tag : BitVec 16) (static : Bool) (dpa : BitVec 48) (data : List Byte) (found : List (Fin 68)) (s : State) :
    State :=
  if hbmEnd ≤ dpa.toNat then errorResponse src.val tag.toNat s
  else answerWrite src.val tag.toNat (writeLine dpa.toNat (inLine dpa.toNat data) (found.map Fin.val)
    (if static then countStatic dpa.toNat (inLine dpa.toNat data).length s else s))

theorem exec_hbmWrite : exec (.hbmWrite src tag static dpa data found) s = .next (hbmWritten src tag static dpa data found s) := rfl

theorem hbmWritten_within {p : Set Nat} (hdata : Set.Ico dpa.toNat (dpa.toNat + (inLine dpa.toNat data).length) ⊆ p)
    (hline : 3 < (joinBad (s.flaw (dpa.toNat / 64 * 64)).bad (found.map Fin.val)).length →
      Set.Ico (dpa.toNat / 64 * 64) (dpa.toNat / 64 * 64 + 64) ⊆ p) : Within p Set.univ s (hbmWritten src tag static dpa data found s) := by
  unfold hbmWritten
  split
  case isTrue => exact .of_mem rfl
  case isFalse =>
    have hcount : Within p ∅ s (if static then countStatic dpa.toNat (inLine dpa.toNat data).length s else s) := by
      split
      case isTrue => exact countStatic_within ..
      case isFalse => exact .refl
    refine answerWrite_within _ _ ((hcount.mono subset_rfl (Set.empty_subset _)).trans
      ((writeLine_within (inLine_fits ..) hdata ?_).mono subset_rfl (Set.subset_univ _)))
    rwa [hcount.flaws _ (Set.notMem_empty _)]

theorem hbmWritten_acknowledged {mc addr : Nat} (hhbm : dpa.toNat < hbmEnd) (hplace : ctrlAddr s (dpa.toNat / 64 * 64) = some (mc, addr))
    (hup : stackUp s (mc / 2) = true) (hflaw : s.flaw (dpa.toNat / 64 * 64) = {}) (hvaults : s.sealed.vaults = [])
    (harmed : s.mem.armed = false) : Stands dpa.toNat (inLine dpa.toNat data) (hbmWritten src tag false dpa data [] s)
      ∧ (hbmWritten src tag false dpa data [] s).out.sent = .flit src.val "write ack" [tag.toNat] :: s.out.sent
      ∧ KeepsBut [.mem, .out, .bytes] s (hbmWritten src tag false dpa data [] s) := by
  obtain ⟨hack, honly⟩ := storeLine_clean (data := inLine dpa.toNat data) harmed hplace hup hflaw
  rw [hbmWritten, if_neg (Nat.not_le_of_lt hhbm), if_neg Bool.false_ne_true, List.map_nil, writeLine_of_no_vault hvaults]
  exact answerWrite_acknowledged hack honly ((storeLine_stored (p := Set.univ) (inLine_fits ..) fun _ => Set.subset_univ _).stands hack)

theorem hbmRead_keeps_bytes : Answers (.hbmRead src tag static dpa found) s fun t => t.mem.bytes = s.mem.bytes := by
  refine ⟨_, rfl, ?_⟩
  split
  case isTrue => rfl
  case isFalse =>
    refine (answerRead_only (gs := [.store, .log, .mem, .serve, .link, .out, .freeCtr]) _ _ _ _ _ (by decide)
      (readLine_only _ _ (List.Subset.refl _) ?_)).keeps .bytes (by decide)
    split
    case isTrue => exact countStatic_only _ _ (by decide) Only.refl
    case isFalse => exact Only.refl

end HbmWrite

/-! ## SLICE_ACCESS (R281, R289, R292, R297, R298) -/

/-- The address that a request names. -/
def waitAddr (r : SliceWait) : Nat := sliceBase + r.node.val * 2 ^ 22 + r.off.toNat

/-- The bank of a request serves it in this cycle. -/
def bankTaken (r : SliceWait) (s : State) : State :=
  { s with mem := { s.mem with bankUsed := bankOf r.node.val r.off.toNat :: s.mem.bankUsed } }

theorem bankTaken_only (r : SliceWait) (s : State) : Only [.mem] s (bankTaken r s) := Only.atMem (by decide) rfl Only.refl

section Banks

variable {r : SliceWait} {data : List Byte} {s : State}

theorem serveBank_write (h : r.write = some data) : serveBank r s = answerWrite r.src.val r.tag.toNat
    (writeWords 9 (waitAddr r) (inLine (waitAddr r) data) (foundIn r.found) (bankTaken r s)) := by
  simp only [serveBank, h]
  rfl

theorem serveBank_read (h : r.write = none) : ∃ n w, serveBank r s = answerRead r.src.val r.tag.toNat (waitAddr r) n
    (readWords w (waitAddr r / 8 * 8) (foundIn r.found) (bankTaken r s)) := by
  simp only [serveBank, h]
  exact ⟨_, _, rfl⟩

theorem serveBank_write_within {p : Set Nat} (h : r.write = some data)
    (hdata : Set.Ico (waitAddr r) (waitAddr r + (inLine (waitAddr r) data).length) ⊆ p)
    (hword : ∀ x ∈ Set.Ico (waitAddr r) (waitAddr r + (inLine (waitAddr r) data).length),
      2 < (joinBad (s.flaw (x / 8 * 8)).bad (foundIn r.found (x / 8 * 8))).length → Set.Ico (x / 8 * 8) (x / 8 * 8 + 8) ⊆ p) :
    Within p Set.univ (bankTaken r s) (serveBank r s) := by
  rw [serveBank_write h]
  exact answerWrite_within _ _ ((writeWords_within _ 9 (bankTaken r s) hdata hword).mono subset_rfl (Set.subset_univ _))

theorem serveBank_read_within (h : r.write = none) : Within ∅ Set.univ (bankTaken r s) (serveBank r s) := by
  obtain ⟨n, w, hread⟩ := serveBank_read (s := s) h
  rw [hread]
  exact .then_only (answerRead_only _ _ _ _ _ (List.Subset.refl _) Only.refl) (by decide) (readWords_within ..)

/-- A request that its bank serves takes the bank for the cycle, and leaves what waits. -/
theorem serveBank_banks (r : SliceWait) (s : State) :
    (serveBank r s).mem.bankUsed = bankOf r.node.val r.off.toNat :: s.mem.bankUsed ∧ (serveBank r s).mem.bankWait = s.mem.bankWait := by
  have hserved : Within Set.univ Set.univ (bankTaken r s) (serveBank r s) := by
    cases hwrite : r.write with
    | none => exact (serveBank_read_within hwrite).mono (Set.subset_univ _) subset_rfl
    | some data => exact serveBank_write_within hwrite (Set.subset_univ _) fun _ _ _ => Set.subset_univ _
  exact ⟨hserved.bankUsed, hserved.bankWait⟩

theorem serveBank_acknowledged (h : r.write = some data) (hfound : r.found = []) (hclean : Clean s) :
    Stands (waitAddr r) (inLine (waitAddr r) data) (serveBank r s)
      ∧ (serveBank r s).out.sent = .flit r.src.val "write ack" [r.tag.toNat] :: s.out.sent
      ∧ KeepsBut [.mem, .out, .bytes] s (serveBank r s) := by
  have htaken : Clean (bankTaken r s) := ⟨hclean.armed, hclean.flaws⟩
  obtain ⟨hack, honly⟩ := writeWords_clean 9 (waitAddr r) (inLine (waitAddr r) data) htaken
  have hfits := inLine_fits (waitAddr r) data
  have hnone : foundIn [] = fun _ => [] := rfl
  rw [serveBank_write h, hfound, hnone]
  exact answerWrite_acknowledged hack (.trans ((bankTaken_only r s).mono (by decide)) honly) (writeWords_stands _ 9 (fun _ => by omega) hack)

/-- The state after a request has reached its slice. -/
def sliceTaken (r : SliceWait) (s : State) : State :=
  if !sliceOpen s r.node.val r.port r.off.toNat then errorResponse r.src.val r.tag.toNat s
  else if bankFree s r.node.val r.off.toNat then serveBank r s
  else { s with mem := { s.mem with bankWait := s.mem.bankWait ++ [r] } }

/-- The request of SLICE_ACCESS. -/
def request (node : Fin 128) (port : SlicePort) (off : BitVec 22) (len : Fin 65) (write : Option (List Byte)) (src : Fin 152) (tag : BitVec 16)
    (found : List (Fin 8 × Fin 72)) : SliceWait :=
  { node := node, port := port, off := off, len := len, write := write, src := src, tag := tag, found := found }

theorem exec_sliceAccess (node : Fin 128) (port : SlicePort) (off : BitVec 22) (len : Fin 65) (write : Option (List Byte)) (src : Fin 152)
    (tag : BitVec 16) (found : List (Fin 8 × Fin 72)) (s : State) : exec (.sliceAccess node port off len write src tag found) s =
      .next (sliceTaken (request node port off len write src tag found) s) := rfl

/-- Bytes change where the bank serves the request, and nowhere else. -/
theorem sliceTaken_bytes {x : Nat} (h : Tab.get 0 (serveBank r s).mem.bytes x = Tab.get 0 s.mem.bytes x) :
    Tab.get 0 (sliceTaken r s).mem.bytes x = Tab.get 0 s.mem.bytes x := by
  unfold sliceTaken
  split_ifs
  · rfl
  · exact h
  · rfl

theorem sliceTaken_read_keeps_bytes (h : r.write = none) : (sliceTaken r s).mem.bytes = s.mem.bytes := by
  unfold sliceTaken
  split_ifs
  · rfl
  · obtain ⟨n, w, hread⟩ := serveBank_read (s := s) h
    rw [hread]
    exact (answerRead_only (gs := [.store, .log, .mem, .link, .out, .freeCtr]) _ _ _ _ _ (by decide)
      (readWords_only _ _ _ (List.Subset.refl _) ((bankTaken_only r s).mono (by decide)))).keeps .bytes (by decide)
  · rfl

theorem sliceTaken_keeps_other_lines (h : r.write = some data) {x : Nat}
    (hx : ¬ (waitAddr r / 8 * 8 ≤ x ∧ x < waitAddr r / 64 * 64 + 64)) :
    Tab.get 0 (sliceTaken r s).mem.bytes x = Tab.get 0 s.mem.bytes x := by
  have hfits := inLine_fits (waitAddr r) data
  refine sliceTaken_bytes ((serveBank_write_within (p := Set.Ico (waitAddr r / 8 * 8) (waitAddr r / 64 * 64 + 64)) h
    (Set.Ico_subset_Ico (by omega) (by omega)) ?_).bytes x hx)
  rintro y ⟨hlo, hhi⟩ -
  exact Set.Ico_subset_Ico (by omega) (by omega)

theorem sliceTaken_keeps_other_bytes (h : r.write = some data) (hfew : ∀ w, (joinBad (s.flaw w).bad (foundIn r.found w)).length ≤ 2) {x : Nat}
    (hx : ¬ (waitAddr r ≤ x ∧ x < waitAddr r + (inLine (waitAddr r) data).length)) :
    Tab.get 0 (sliceTaken r s).mem.bytes x = Tab.get 0 s.mem.bytes x :=
  sliceTaken_bytes ((serveBank_write_within h subset_rfl fun _ _ hbad => absurd (hfew _) (Nat.not_le_of_lt hbad)).bytes x hx)

theorem sliceTaken_acknowledged (h : r.write = some data) (hopen : sliceOpen s r.node.val r.port r.off.toNat = true)
    (hfree : bankFree s r.node.val r.off.toNat = true) (hfound : r.found = []) (hclean : Clean s) :
    Stands (waitAddr r) (inLine (waitAddr r) data) (sliceTaken r s)
      ∧ (sliceTaken r s).out.sent = .flit r.src.val "write ack" [r.tag.toNat] :: s.out.sent
      ∧ KeepsBut [.mem, .out, .bytes] s (sliceTaken r s) := by
  have hserved : sliceTaken r s = serveBank r s := by
    simp only [sliceTaken, hopen, hfree, Bool.not_true, Bool.false_eq_true, if_false, if_true]
  rw [hserved]
  exact serveBank_acknowledged h hfound hclean

theorem sliceTaken_waits (hopen : sliceOpen s r.node.val r.port r.off.toNat = true) (hfree : bankFree s r.node.val r.off.toNat = false) :
    sliceTaken r s = { s with mem := { s.mem with bankWait := s.mem.bankWait ++ [r] } } := by
  simp only [sliceTaken, hopen, hfree, Bool.not_true, Bool.false_eq_true, if_false]

end Banks

/-! ## The next cycle of the banks (R292) -/

theorem writeBacks_within (l : List Nat) : ∀ s : State, Within ∅ Set.univ s (writeBacks l s) := by
  induction l with
  | nil => exact fun _ => .refl
  | cons w l ih =>
    intro s
    refine .trans ?_ (ih _)
    split
    case isTrue => exact .refl
    case isFalse => exact (setFlaw_within (Set.mem_univ w) {} s).trans (dropBack_within ..)

/-- Two requests that wait for banks are served in the order of R292, whichever came first. -/
theorem waitOrder_pair {x y : SliceWait} {l : List SliceWait}
    (h : l = [x, y] ∧ waitRank x ≤ waitRank y ∨ l = [y, x] ∧ waitRank x < waitRank y) : waitOrder l = [x, y] := by
  obtain ⟨rfl, hle⟩ | ⟨rfl, hlt⟩ := h
  · simp [waitOrder, insertWait, hle]
  · simp [waitOrder, insertWait, hlt]

/-- The bank has served the first request in this cycle, so the second loses it. -/
theorem serveWaits_pair {x y : SliceWait} {s : State} (hbank : bankOf x.node.val x.off.toNat = bankOf y.node.val y.off.toNat)
    (hfree : s.mem.bankUsed = []) : serveWaits [x, y] s =
      { serveBank x s with mem := { (serveBank x s).mem with bankWait := s.mem.bankWait ++ [{ y with lost := true }] } } := by
  obtain ⟨hused, hwait⟩ := serveBank_banks x s
  have htaken : (serveBank x s).mem.bankUsed.contains (bankOf y.node.val y.off.toNat) = true := by simp [hused, hbank]
  simp only [serveWaits, hfree, List.contains_nil, Bool.false_eq_true, if_false, htaken, if_true, hwait]

theorem bankCycle_pair {x y : SliceWait} {s : State} (hbank : bankOf x.node.val x.off.toNat = bankOf y.node.val y.off.toNat)
    (h : s.mem.bankWait = [x, y] ∧ waitRank x ≤ waitRank y ∨ s.mem.bankWait = [y, x] ∧ waitRank x < waitRank y) :
    (bankCycle s).mem.bankWait = [{ y with lost := true }]
      ∧ (bankCycle s).mem.bytes = (serveBank x { s with mem := { s.mem with bankUsed := [], bankWait := [] } }).mem.bytes
      ∧ (bankCycle s).out = (serveBank x { s with mem := { s.mem with bankUsed := [], bankWait := [] } }).out := by
  unfold bankCycle
  rw [waitOrder_pair h]
  dsimp only
  rw [serveWaits_pair hbank rfl]
  exact ⟨(writeBacks_within _ _).bankWait, (writeBacks_only _ (List.Subset.refl _) Only.refl).keeps .bytes (by decide),
    (writeBacks_only _ (List.Subset.refl _) Only.refl).keeps .out (by decide)⟩

/-- Settles O32: each write reaches the line, word or bytes named; an acknowledged one has stored its data; of two requests for a bank the
first in rank is served. -/
theorem storesLandWhereAddressed : Obligations.StoresLandWhereAddressed := by
  refine ⟨?hbmWrite, ?sliceAccess, fun x y s hbank _ h => bankCycle_pair hbank h, fun src tag static dpa found s => hbmRead_keeps_bytes,
    ?memWrite⟩
  case hbmWrite =>
    intro src tag static dpa data found s d line
    have hfits := inLine_fits dpa.toNat data
    refine ⟨_, exec_hbmWrite, fun a ha => ?line, fun hfew a ha => ?bytes, fun mc k hhbm hplace hup hflaw hfound hvaults hstatic harmed => ?stored⟩
    case line =>
      exact (hbmWritten_within (p := Set.Ico line (line + 64)) (Set.Ico_subset_Ico (by omega) (by omega)) fun _ => subset_rfl).bytes a ha
    case bytes => exact (hbmWritten_within subset_rfl fun h => absurd hfew (Nat.not_le_of_lt h)).bytes a ha
    case stored =>
      subst hfound hstatic
      exact hbmWritten_acknowledged hhbm hplace hup hflaw hvaults harmed
  case sliceAccess =>
    intro node port off len data src tag found s a0 d
    have hwrite : (request node port off len (some data) src tag found).write = some data := rfl
    refine ⟨⟨_, exec_sliceAccess .., fun a ha => sliceTaken_keeps_other_lines hwrite ha,
      fun hfew a ha => sliceTaken_keeps_other_bytes hwrite hfew ha, fun hopen hfree hfound hflaws harmed => ?stored⟩,
      ⟨_, exec_sliceAccess .., sliceTaken_read_keeps_bytes rfl⟩, fun write hopen hfree => ?waits⟩
    case stored =>
      have hclean : Clean s := ⟨harmed, fun w => by rw [State.flaw, hflaws]; rfl⟩
      obtain ⟨hstands, hsent, hkept⟩ := sliceTaken_acknowledged hwrite hopen hfree hfound hclean
      exact ⟨hstands, hsent, hkept⟩
    case waits =>
      rw [exec_sliceAccess, sliceTaken_waits (r := request node port off len write src tag found) hopen hfree]
      rfl
  case memWrite =>
    refine fun dpa data s => ⟨fun a ha => ?lines, fun hfew a ha => ?bytes, fun hack hvaults => memWrite_stands hvaults hack⟩
    case lines =>
      refine (memWrite_within (p := Set.Ico (dpa / 64 * 64) ((dpa + data.length + 63) / 64 * 64))
        (Set.Ico_subset_Ico (by omega) (by omega)) ?_).bytes a ha
      rintro x ⟨hlo, hhi⟩ k - -
      exact Set.Ico_subset_Ico (by omega) (by omega)
    case bytes => exact (memWrite_within subset_rfl fun x _ k _ h => absurd (hfew k) (Nat.not_le_of_lt h)).bytes a ha

end Sys2Proof.StoreCerts
end

section
/-!
PROOF. Split-write mode and the memory commands (spec/11_memory_and_ecc.md R285, R300, R304 to R306, R309 to R311, Table ME-7): what arming
an injection does, how a frame is retired, what hard repairs leave of the repair list, and each command on the path on which every check
passes.
-/
namespace Sys2Proof.MemoryCerts

open Sys2Proof.Machine Sys2Proof.Laws

/-! ## Split-write mode (R309, R310) -/

section Arm

variable {val : Word} {s : State}

/-- The write of the control register sets NOW. -/
def withNow (val : Word) (s : State) : State := { s with mem := { s.mem with eccNow := bit val 1 } }

theorem withNow_only (val : Word) (s : State) : Only [.mem] s (withNow val s) := Only.atMem (by decide) rfl Only.refl

theorem exec_eccwArm_denied (hrel : s.released = true) (hup : s.mainDown = false) (hgrant : s.aon.grantHost = none) :
    exec (.eccwArm .host val) s = .next (noteDeny s) := by
  have hexec : exec (.eccwArm .host val) s = .next (writeEccwCtrl .host val s) := rfl
  rw [hexec, writeEccwCtrl]
  simp [hrel, hup, hgrant]

theorem exec_eccwArm (hrel : s.released = true) (hup : s.mainDown = false) (hgrant : s.aon.grantHost.isSome = true)
    (harmed : s.mem.armed = false) (harm : bit val 0 = true) : exec (.eccwArm .host val) s = .next (armInjection (withNow val s)) := by
  have hexec : exec (.eccwArm .host val) s = .next (writeEccwCtrl .host val s) := rfl
  have hsome : s.aon.grantHost.isNone = false := by rw [← Option.not_isSome, hgrant, Bool.not_true]
  rw [hexec, writeEccwCtrl]
  simp [hrel, hup, hsome, harmed, harm, withNow]

theorem armInjection_of_refused (h : armRefusal s ≠ 0) : armInjection s = { s with mem := { s.mem with refused := true } } := if_pos h

theorem armInjection_of_passed (h : armRefusal s = 0) : armInjection s =
    if s.mem.eccNow then injectInto s.mem.eccAddr s else { s with mem := { s.mem with armed := true, armedAt := s.now } } :=
  if_neg (not_not.2 h)

/-- An injection marks the flaw of its target; of the rest of the memory it changes its own registers alone. -/
theorem injectInto_mem (a : Nat) (s : State) : ∃ bad, (injectInto a s).mem = { s.mem with
    flaws := Tab.put {} s.mem.flaws a { s.flaw a with bad := bad, inj := true }
    armed := false, applied := true, injections := s.mem.injections + 1 } := by
  unfold injectInto
  exact ⟨_, (logSec_only _ _ _ _ (List.Subset.refl _) Only.refl).keeps .mem (by decide)⟩

theorem injectInto_marks (a : Nat) (s : State) : ((injectInto a s).flaw a).inj = true := by
  obtain ⟨bad, hmem⟩ := injectInto_mem a s
  rw [State.flaw, hmem]
  dsimp only
  rw [Tab.get_put_self]

theorem eccwArm_now (hrel : s.released = true) (hup : s.mainDown = false) (hgrant : s.aon.grantHost.isSome = true)
    (harmed : s.mem.armed = false) (harm : bit val 0 = true) (hpass : armRefusal s = 0) (hnow : bit val 1 = true) :
    Answers (.eccwArm .host val) s fun t => t.mem.applied = true ∧ t.mem.armed = false ∧ t.mem.injections = s.mem.injections + 1
      ∧ t.mem.bytes = s.mem.bytes ∧ (t.flaw s.mem.eccAddr).inj = true ∧ KeepsBut [.mem, .log, .link, .out] s t := by
  have hset : (withNow val s).mem.eccNow = true := hnow
  have haddr : (withNow val s).mem.eccAddr = s.mem.eccAddr := rfl
  refine ⟨_, exec_eccwArm hrel hup hgrant harmed harm, ?_⟩
  rw [armInjection_of_passed (s := withNow val s) hpass, if_pos hset, haddr]
  obtain ⟨bad, hmem⟩ := injectInto_mem s.mem.eccAddr (withNow val s)
  refine ⟨by rw [hmem], by rw [hmem], by rw [hmem]; rfl, by rw [hmem]; rfl, injectInto_marks .., ?_⟩
  exact (injectInto_only _ (by decide) ((withNow_only val s).mono (by decide))).keeps

theorem exec_eccwExpiry (harmed : s.mem.armed = true) (hlate : s.mem.armedAt + 1000000000 ≤ s.now) :
    exec .eccwExpiry s = .next { s with mem := { s.mem with armed := false, expired := true } } :=
  congrArg Host.Outcome.next (if_pos (by simp [harmed, hlate]))

end Arm

/-! ## Retirement of a frame (R304, R384) -/

theorem logInfo_store (code ut inst : Nat) (d : List Nat) (s : State) : (logInfo code ut inst d s).store = s.store :=
  (logInfo_only _ _ _ _ (List.Subset.refl _) Only.refl).keeps .store (by decide)

theorem logInfo_mem (code ut inst : Nat) (d : List Nat) (s : State) : (logInfo code ut inst d s).mem = s.mem :=
  (logInfo_only _ _ _ _ (List.Subset.refl _) Only.refl).keeps .mem (by decide)

theorem logUe_store (c : Contain) (code ut inst : Nat) (d : List Nat) (s : State) : (logUe c code ut inst d s).store = s.store :=
  (logUe_only _ _ _ _ _ (List.Subset.refl _) Only.refl).keeps .store (by decide)

section Retire

variable {f : Nat} {s : State}

theorem modFrame_frame (g : FrameRec → FrameRec) (h : s.mem.sysTop ≤ f) : (modFrame f g s).frame f = g (s.frame f) := by
  have htop : ¬ f < (modFrame f g s).mem.sysTop := Nat.not_lt.2 h
  rw [State.frame, if_neg htop]
  exact Tab.get_put_self

/-- Entries that leave the index change the records of frames alone. -/
theorem reindex_bounds (t : Tab PEntry) (l : List Nat) : ∀ s : State,
    (reindex t l s).mem.sysTop = s.mem.sysTop ∧ (reindex t l s).mem.retiredRun = s.mem.retiredRun := by
  induction l with
  | nil => exact fun _ => ⟨rfl, rfl⟩
  | cons f l ih => exact fun s => ih (modFrame f _ s)

theorem dropIndex_bounds (f : Nat) (s : State) :
    (dropIndex f s).mem.sysTop = s.mem.sysTop ∧ (dropIndex f s).mem.retiredRun = s.mem.retiredRun := by
  unfold dropIndex removeEntries
  dsimp only
  split
  case isTrue => exact ⟨rfl, rfl⟩
  case isFalse => exact reindex_bounds ..

theorem retirePending_of_held (htop : s.mem.sysTop ≤ f) (huse : (s.frame f).use ≠ .free) :
    ((retirePending f s).frame f).retirePending = true ∧ (retirePending f s).mem.retiredRun = s.mem.retiredRun := by
  have hbounds : ∀ u, u = (if (s.frame f).indexed then dropIndex f s else s) →
      u.mem.sysTop = s.mem.sysTop ∧ u.mem.retiredRun = s.mem.retiredRun := by
    rintro u rfl
    split
    case isTrue => exact dropIndex_bounds f s
    case isFalse => exact ⟨rfl, rfl⟩
  obtain ⟨hsys, hrun⟩ := hbounds _ rfl
  rw [retirePending, if_neg huse]
  exact ⟨congrArg FrameRec.retirePending (modFrame_frame _ (hsys ▸ htop)), hrun⟩

theorem retirePending_of_free (huse : (s.frame f).use = .free) (hnew : frameRetired s f = false) (hroom : s.store.retired.length < 4096)
    (hrw : (s.store.regions[4]).ro = false) : (retirePending f s).store.retired = s.store.retired ++ [(f, frameRows s f)]
      ∧ (retirePending f s).mem.retiredRun = s.mem.retiredRun := by
  have hlisted : (decide (s.store.retired.length < 4096) && !(s.store.regions[4]).ro) = true := by simp [hroom, hrw]
  have hnow : retireNow f (frameRows s f) s = logInfo 0x0407 0x04 0 [f]
      { setFrame f {} s with store := { s.store with retired := s.store.retired ++ [(f, frameRows s f)] } } := by
    rw [retireNow, if_neg (by simp [hnew]), if_pos hlisted]
    rfl
  rw [retirePending, if_pos huse, hnow, logInfo_store, logInfo_mem]
  exact ⟨rfl, rfl⟩

@[simp] theorem frame_replyDone (n : Nat) (res : List Nat) (data : List Byte) (s : State) (f : Nat) :
    (replyDone n res data s).frame f = s.frame f := rfl

@[simp] theorem frameRetired_replyDone (n : Nat) (res : List Nat) (data : List Byte) (s : State) (f : Nat) :
    frameRetired (replyDone n res data s) f = frameRetired s f := rfl

@[simp] theorem store_replyDone (n : Nat) (res : List Nat) (data : List Byte) (s : State) : (replyDone n res data s).store = s.store := rfl

theorem frameRetired_of_listed {rows : List (Nat × Nat)} (h : (f, rows) ∈ s.store.retired) : frameRetired s f = true := by
  rw [frameRetired, List.any_eq_true.2 ⟨_, h, decide_eq_true rfl⟩, Bool.or_true]

theorem retirePending_mbx (f : Nat) (s : State) : (retirePending f s).mbx = s.mbx :=
  (retirePending_only _ (List.Subset.refl _) Only.refl).keeps .mbx (by decide)

end Retire

/-! ## Hard repairs (R305) -/

/-- A row has been repaired for good: it is listed no more. -/
def Repaired (r : Nat × Nat) (s : State) : Prop := r ∉ s.store.hbmRepair ∧ r ∈ s.store.hardRepaired

/-- The repair of a row that finds a spare, or the note that it finds none. -/
def repairRow (found : Bool) (r : Nat × Nat) (s : State) : State :=
  if found then logInfo 0x040A 0x04 r.1 [r.2] { s with store := { s.store with
    hbmRepair := s.store.hbmRepair.filter (· ≠ r), hardRepaired := r :: s.store.hardRepaired } }
  else logUe .none 0x040B 0x04 r.1 [r.2] s

theorem hardRepairs_cons (ok : BitVec 8) (i : Nat) (r : Nat × Nat) (l : List (Nat × Nat)) (s : State) :
    hardRepairs ok i (r :: l) s = hardRepairs ok (i + 1) l (repairRow (ok.getLsbD i) r s) := rfl

theorem repairRow_repairs (r : Nat × Nat) (s : State) : Repaired r (repairRow true r s) := by
  simp [Repaired, repairRow, logInfo_store]

theorem Repaired.repairRow {r : Nat × Nat} {s : State} (h : Repaired r s) (found : Bool) (q : Nat × Nat) : Repaired r (repairRow found q s) := by
  obtain ⟨hgone, hlisted⟩ := h
  cases found
  · simp [Repaired, MemoryCerts.repairRow, logUe_store, hgone, hlisted]
  · simp [Repaired, MemoryCerts.repairRow, logInfo_store, hgone, hlisted]

theorem Repaired.hardRepairs {r : Nat × Nat} (ok : BitVec 8) (l : List (Nat × Nat)) : ∀ {i : Nat} {s : State}, Repaired r s →
    Repaired r (hardRepairs ok i l s) := by
  induction l with
  | nil => exact fun h => h
  | cons q l ih => exact fun h => ih (h.repairRow _ q)

theorem hardRepairs_repairs (ok : BitVec 8) (l : List (Nat × Nat)) : ∀ (i : Nat) (s : State) (j : Nat) (h : j < l.length),
    ok.getLsbD (i + j) = true → Repaired l[j] (hardRepairs ok i l s) := by
  induction l with
  | nil => exact fun _ _ _ h => absurd h (Nat.not_lt_zero _)
  | cons r l ih =>
    intro i s j h hok
    rw [hardRepairs_cons]
    cases j with
    | zero =>
      have hfound : ok.getLsbD i = true := hok
      rw [hfound]
      exact (repairRow_repairs r s).hardRepairs ok l
    | succ j => exact ih (i + 1) _ j (Nat.lt_of_succ_lt_succ h) (by rwa [Nat.add_assoc, Nat.add_comm 1])

theorem Repaired.releaseRetired {r : Nat × Nat} {s : State} (h : Repaired r s) : Repaired r (releaseRetired s) := h

theorem hardRepairs_mbx (ok : BitVec 8) (i : Nat) (l : List (Nat × Nat)) (s : State) :
    (releaseRetired (hardRepairs ok i l s)).mbx = s.mbx :=
  (releaseRetired_only (gs := [.store, .log, .link, .out]) (by decide) (hardRepairs_only _ _ _ (List.Subset.refl _) Only.refl)).keeps .mbx
    (by decide)

/-! ## The commands (R311) -/

section Commands

variable {n : Fin 16} {s : State}

/-- BAD_ARG alone may fail. -/
theorem first_badArg_none {x : Option Nat} (h : x = none) : ({ badArg := x } : Checks).first = none := by
  rw [h]
  rfl

/-- The memory group is set. -/
def withMem (m : Mem) (s : State) : State := { s with mem := m }

/-- A command that sets registers of the memory and answers changes nothing else. -/
theorem answered_withMem {m : Mem} (h : m.bytes = s.mem.bytes) : (replyDone n.val [] [] (withMem m (s.freed n))).mem = m
    ∧ ((replyDone n.val [] [] (withMem m (s.freed n))).box n.val).outbox = (s.box n.val).outbox ++ [{ status := 0 }]
    ∧ KeepsBut [.mbx, .mem] s (replyDone n.val [] [] (withMem m (s.freed n))) := by
  have hfreed : Only [.mbx, .mem] s (s.freed n) := setBox_only _ _ (by decide) Only.refl
  have hmbx : (withMem m (s.freed n)).mbx = (s.freed n).mbx := rfl
  exact ⟨rfl, AttestCerts.replyDone_outbox_of_freed hmbx [] [],
    (replyDone_only _ _ _ (by decide) (Only.atMem (t := s.freed n) (by decide) h hfreed)).keeps⟩

theorem exec_memStatus (hrun : Runs s n 0x0401) (hexp : (s.box n.val).exp = false) : exec (.memStatus n) s = .next (replyDone n.val
    [stackMask s, s.store.retired.length, (s.mem.rescrubDrops.map Prod.snd).sum, s.mem.hbmHours, s.mem.sliceHours]
    (words ((List.range 16).flatMap fun c => [Tab.get 0 s.mem.ce (mcIdx c), Tab.get 0 s.mem.ue (mcIdx c), Tab.get 0 s.mem.scrubPos (mcIdx c)])
      ++ words ((List.range 128).flatMap fun x => [Tab.get 0 s.mem.ce x, Tab.get 0 s.mem.ue x, Tab.get 0 s.mem.scrubPos x])) (s.freed n)) := by
  have hexec : exec (.memStatus n) s = execMemStatus n s := rfl
  rw [hexec, execMemStatus, command_run hrun rfl, hexp, if_neg Bool.false_ne_true, List.append_nil]
  rfl

theorem idleOf_congr {t : State} (h : regionHeld s = regionHeld t) : idleOf s = idleOf t := by
  funext tab m
  simp only [idleOf, h]

theorem pickRegions_congr {t : State} (h : regionHeld s = regionHeld t) (tab : Tab HbmRegion) (l : List HMode) :
    ∀ acc, pickRegions s tab l acc = pickRegions t tab l acc := by
  induction l with
  | nil => exact fun _ => rfl
  | cons m l ih =>
    intro acc
    simp only [pickRegions, idleOf_congr h, ih]

/-- What a reservation yields depends on the state by the regions that are held alone. -/
theorem reserveRegions_congr {t : State} (h : regionHeld s = regionHeld t) (want : HMode → Bool) (part k : Nat) :
    ∀ m tab, reserveRegions s want part k m tab = reserveRegions t want part k m tab := by
  induction k with
  | zero =>
    intro m tab
    cases m <;> rfl
  | succ k ih =>
    intro m tab
    cases m with
    | zero => rfl
    | succ m => simp only [reserveRegions, convertOnce, pickRegions_congr h, h, ih]

theorem exec_memInterleave {tab : Tab HbmRegion} (hrun : Runs s n 0x0402) (hexp : (s.box n.val).exp = false) (hlow : 1 ≤ (s.box n.val).arg 1)
    (hhigh : (s.box n.val).arg 1 ≤ 3) (hpart : (s.box n.val).arg 0 < 64)
    (hstack : (s.box n.val).arg 1 = 3 → (s.box n.val).arg 2 < 8 ∧ stackUp s ((s.box n.val).arg 2) = true)
    (hall : (s.box n.val).arg 1 = 1 → ∀ h < 8, stackUp s h = true)
    (htab : reserveRegions s (wantMode (s.box n.val)) ((s.box n.val).arg 0) 1024 ((s.box n.val).arg 3) s.mem.regions = some tab) :
    exec (.memInterleave n) s =
      .next (replyDone n.val [] [] (withMem { s.mem with regions := tab } (s.freed n))) := by
  have hexec : exec (.memInterleave n) s = execMemInterleave n s := rfl
  have hsame : reserveRegions (s.freed n) = reserveRegions s := by
    funext want part k m t
    exact reserveRegions_congr (s := s.freed n) (t := s) rfl want part k m t
  have hshape : (decide ((s.box n.val).arg 1 = 0) || (decide (3 < (s.box n.val).arg 1) || (decide (64 ≤ (s.box n.val).arg 0)
      || (decide ((s.box n.val).arg 1 = 3) && decide (8 ≤ (s.box n.val).arg 2))))) = false := by
    simp only [Bool.or_eq_false_iff, Bool.and_eq_false_imp, decide_eq_false_iff_not, decide_eq_true_eq]
    exact ⟨by omega, by omega, by omega, fun h => by have := (hstack h).1; omega⟩
  have hups : ((decide ((s.box n.val).arg 1 = 3) && !stackUp s ((s.box n.val).arg 2))
      || (decide ((s.box n.val).arg 1 = 1) && !(List.range 8).all (stackUp s))) = false := by
    simp only [Bool.or_eq_false_iff, Bool.and_eq_false_imp, decide_eq_true_eq, Bool.not_eq_false']
    exact ⟨fun h => (hstack h).2, fun h => List.all_eq_true.2 fun k hk => hall h k (List.mem_range.1 hk)⟩
  have hbusy : (reserveRegions s (wantMode (s.box n.val)) ((s.box n.val).arg 0) 1024 ((s.box n.val).arg 3) s.mem.regions).isNone = false := by
    rw [htab]
    rfl
  rw [hexec, execMemInterleave, command_run hrun]
  · simp only [hexp, Bool.false_eq_true, if_false, hsame]
    rw [show (s.freed n).mem.regions = s.mem.regions from rfl, htab]
    rfl
  · simp only [hexp, Bool.false_eq_true, if_false]
    rw [failIf_false hshape, failIf_false hups, failIf_false hbusy]
    rfl

theorem exec_scrubConfig (hrun : Runs s n 0x0403) (hexp : (s.box n.val).exp = false) (hlow : 1 ≤ (s.box n.val).arg 0)
    (hhigh : (s.box n.val).arg 0 ≤ 168) : exec (.scrubConfig n) s =
      .next (replyDone n.val [] [] (withMem { s.mem with hbmHours := (s.box n.val).arg 0 } (s.freed n))) := by
  have hexec : exec (.scrubConfig n) s = execScrubConfig n s := rfl
  rw [hexec, execScrubConfig, command_run hrun]
  · simp only [hexp, Bool.false_eq_true, if_false]
    rfl
  · refine first_badArg_none (failIf_false ?_)
    simp only [hexp, Bool.false_and, Bool.or_false, Bool.or_eq_false_iff, decide_eq_false_iff_not]
    omega

/-- PAGE_RETIRE on a frame that does not enter the list of the running start. -/
theorem exec_pageRetire (hrun : Runs s n 0x0404) (hframe : (s.box n.val).arg 0 < frameCount)
    (hbacked : (s.hregion (frameRegion ((s.box n.val).arg 0))).mode ≠ .unbacked)
    (hkept : (retirePending ((s.box n.val).arg 0) (s.freed n)).mem.retiredRun = s.mem.retiredRun) :
    exec (.pageRetire n) s = .next (replyDone n.val [] [] (retirePending ((s.box n.val).arg 0) (s.freed n))) := by
  have hexec : exec (.pageRetire n) s = execPageRetire n s := rfl
  have hrun' : (s.freed n).mem.retiredRun = s.mem.retiredRun := rfl
  rw [hexec, execPageRetire, command_run hrun]
  · simp only [hkept, hrun', Bool.and_not_self, Bool.false_eq_true, if_false]
  · refine first_badArg_none (failIf_false ?_)
    simp [hbacked, hframe]

theorem exec_pprRun (ok : BitVec 8) (hrun : Runs s n 0x0405) (hexp : (s.box n.val).exp = false) (hstack : (s.box n.val).arg 0 < 8)
    (hout : s.unitSt 0x05 ((s.box n.val).arg 0) = .offline) : exec (.pprRun n ok) s = .next (replyDone n.val
      [(List.range (pprRows s (s.box n.val)).length).countP fun i => ok.getLsbD i] []
      (releaseRetired (hardRepairs ok 0 (pprRows s (s.box n.val)) (s.freed n)))) := by
  have hexec : exec (.pprRun n ok) s = execPprRun n ok s := rfl
  rw [hexec, execPprRun, command_run hrun]
  · rfl
  · refine first_badArg_none ?_
    rw [failIf_false (by simp [hexp, hstack]), failIf_false (by simp [hout])]
    rfl

theorem exec_eccInject_basic (hrun : Runs s n 0x0406) (hexp : (s.box n.val).exp = false) :
    exec (.eccInject n) s = .next (replyDone n.val (eccwRes s) [] (s.freed n)) := by
  have hexec : exec (.eccInject n) s = execEccInject n s := rfl
  rw [hexec, execEccInject, command_run hrun]
  · rw [hexp, if_neg Bool.false_ne_true]
    rfl
  · rw [hexp]
    rfl

theorem exec_eccInject_expert (hrun : Runs s n 0x0406) (hexp : (s.box n.val).exp = true)
    (hpass : armRefusal (loadEccw (s.box n.val) s) = 0) (harmed : s.mem.armed = false) :
    exec (.eccInject n) s = .next (replyDone n.val [] [] (armInjection (loadEccw (s.box n.val) (s.freed n)))) := by
  have hexec : exec (.eccInject n) s = execEccInject n s := rfl
  rw [hexec, execEccInject, command_run hrun]
  · rw [if_pos hexp]
  · simp [hexp, hpass, harmed, failIf, Checks.first]

/-- The registers are loaded, and the injection is applied at once or armed. -/
theorem eccInject_arms (hrun : Runs s n 0x0406) (hexp : (s.box n.val).exp = true) (hpass : armRefusal (loadEccw (s.box n.val) s) = 0)
    (harmed : s.mem.armed = false) : Answers (.eccInject n) s fun t => t.mem.eccAddr = (s.box n.val).arg64 0 % 2 ^ 48
      ∧ (if (s.box n.val).arg 6 % 2 = 1 then t.mem.applied = true ∧ t.mem.injections = s.mem.injections + 1
         else t.mem.armed = true ∧ t.mem.armedAt = s.now)
      ∧ t.mem.bytes = s.mem.bytes := by
  have hnow : (loadEccw (s.box n.val) (s.freed n)).mem.eccNow = decide ((s.box n.val).arg 6 % 2 = 1) := rfl
  refine ⟨_, exec_eccInject_expert hrun hexp hpass harmed, ?_⟩
  rw [armInjection_of_passed (s := loadEccw (s.box n.val) (s.freed n)) hpass, hnow]
  simp only [decide_eq_true_eq]
  split
  case isTrue =>
    obtain ⟨bad, hmem⟩ := injectInto_mem (loadEccw (s.box n.val) (s.freed n)).mem.eccAddr (loadEccw (s.box n.val) (s.freed n))
    have hanswer : ∀ u, (replyDone n.val [] [] u).mem = u.mem := fun _ => rfl
    rw [hanswer, hmem]
    exact ⟨rfl, ⟨rfl, rfl⟩, rfl⟩
  case isFalse => exact ⟨rfl, ⟨rfl, rfl⟩, rfl⟩

end Commands

/-- Settles O34: arming ends in one of its four ways; each command with its checks passed answers DONE with the effect of Table ME-7. -/
theorem memoryCommandsTakeEffect : Obligations.MemoryCommandsTakeEffect := by
  refine ⟨?arm, fun s => exec_eccwExpiry, fun n s =>
    ⟨exec_memStatus, ?interleave, ?scrub, ?retire, ?ppr, exec_eccInject_basic, eccInject_arms⟩⟩
  case arm =>
    refine fun val s hrel hup => ⟨exec_eccwArm_denied hrel hup, fun hgrant harmed harm => ⟨fun href => ?refused, fun hpass hlater => ?armed,
      eccwArm_now hrel hup hgrant harmed harm⟩⟩
    case refused =>
      rw [exec_eccwArm hrel hup hgrant harmed harm, armInjection_of_refused (s := withNow val s) href]
      rfl
    case armed =>
      have hset : (withNow val s).mem.eccNow = false := hlater
      rw [exec_eccwArm hrel hup hgrant harmed harm, armInjection_of_passed (s := withNow val s) hpass, hset, if_neg Bool.false_ne_true, withNow,
        hlater]
      rfl
  case interleave =>
    intro tab hrun hexp hlow hhigh hpart hstack hall htab
    exact ⟨_, exec_memInterleave hrun hexp hlow hhigh hpart hstack hall htab, answered_withMem rfl⟩
  case scrub =>
    intro hrun hexp hlow hhigh
    exact ⟨_, exec_scrubConfig hrun hexp hlow hhigh, answered_withMem rfl⟩
  case retire =>
    intro hrun hframe hbacked f
    refine ⟨fun htop huse => ?held, fun htop huse hfresh hnew hroom hrw => ?free⟩
    case held =>
      obtain ⟨hpending, hkept⟩ := retirePending_of_held (s := s.freed n) htop huse
      refine ⟨_, exec_pageRetire hrun hframe hbacked hkept, ?_, AttestCerts.replyDone_outbox_of_freed (retirePending_mbx ..) ..⟩
      rw [frame_replyDone]
      exact hpending
    case free =>
      obtain ⟨hlisted, hkept⟩ := retirePending_of_free (s := s.freed n) huse hnew hroom hrw
      have hmem : (f, frameRows (s.freed n) f) ∈ (retirePending f (s.freed n)).store.retired := by
        rw [hlisted]
        exact List.mem_append_right _ (List.mem_singleton.2 rfl)
      refine ⟨_, exec_pageRetire hrun hframe hbacked hkept, ?_, ?_, AttestCerts.replyDone_outbox_of_freed (retirePending_mbx ..) ..⟩
      · rw [frameRetired_replyDone]
        exact frameRetired_of_listed hmem
      · rw [store_replyDone]
        exact List.mem_map_of_mem hmem
  case ppr =>
    intro ok hrun hexp hstack hout
    refine ⟨_, exec_pprRun ok hrun hexp hstack hout, AttestCerts.replyDone_outbox_of_freed (hardRepairs_mbx ..) .., fun i hi hok => ?_⟩
    rw [store_replyDone]
    exact (hardRepairs_repairs ok _ 0 (s.freed n) i hi (by rwa [Nat.zero_add])).releaseRetired

end Sys2Proof.MemoryCerts
end

section
/-!
PROOF. What the remaining statements share: when every check of a command passes, and the response that a command leaves in its mailbox.
-/
namespace Sys2Proof.CommandCerts

open Sys2Proof.Machine Sys2Proof.Laws

/-! ## Checks (R16) -/

theorem failIf_eq_none {c : Bool} {d : Nat} : failIf c d = none ↔ c = false := by
  cases c <;> simp [failIf]

@[simp] theorem firstFail_nil : firstFail [] = none := rfl

theorem firstFail_cons_eq_none {x : Option Nat} {l : List (Option Nat)} : firstFail (x :: l) = none ↔ x = none ∧ firstFail l = none := by
  cases x <;> simp [firstFail]

/-- A command passes when each of its five conditions does. -/
theorem first_eq_none {c : Checks} : c.first = none ↔
    c.notPermitted = none ∧ c.needsCosign = none ∧ c.badArg = none ∧ c.busy = none ∧ c.noResource = none := by
  obtain ⟨a, b, x, y, z⟩ := c
  cases a <;> cases b <;> cases x <;> cases y <;> cases z <;> simp [Checks.first]

/-! ## Mailboxes -/

theorem box_congr {s t : State} (h : t.mbx = s.mbx) (k : Nat) : t.box k = s.box k := by
  simp only [State.box, h]

end Sys2Proof.CommandCerts
end

section
/-!
PROOF. Montgomery multiplication (spec/16_sealed_arithmetic_crosswind.md R416, R417): Newton's iteration reaches the inverse of an odd
modulus, so that a reduction divides exactly by the radix.
-/
namespace Sys2Proof.MontgomeryCerts

open Sys2Proof.Machine

/-! ## The inverse of the modulus -/

/-- Each step of the iteration doubles the number of low bits in which `x` is the inverse of `q`. -/
theorem invStep_doubles {q x : Nat} {k : Nat} (m : Nat) (hx : (2 ^ k : ℤ) ∣ q * x - 1) (hm : m ≤ 2 * k) (hr : m ≤ 64) :
    (2 ^ m : ℤ) ∣ q * invStep q x - 1 := by
  have hle : q * x % radix ≤ 2 * radix + 2 := (Nat.mod_lt _ (by decide)).le.trans (by decide)
  have hmod : (radix : ℤ) ∣ q * invStep q x - q * (x * (2 - q * x)) := by
    rw [← mul_sub, invStep]
    refine Dvd.dvd.mul_left (Int.modEq_iff_dvd.1 (Int.ModEq.symm ?_)) q
    push_cast [Nat.cast_sub hle]
    refine (Int.mod_modEq _ _).trans (Int.ModEq.mul_left _ (Int.modEq_iff_dvd.2 ⟨(q * x / radix : ℤ) * (-1) - 2, ?_⟩))
    linear_combination Int.mul_ediv_add_emod (q * x) radix
  have hradix : (2 ^ m : ℤ) ∣ radix := pow_dvd_pow 2 hr
  have hsquare : (2 ^ m : ℤ) ∣ (q * x - 1) * (q * x - 1) :=
    (pow_dvd_pow 2 hm).trans (by rw [two_mul, pow_add]; exact mul_dvd_mul hx hx)
  have hsplit : (q * invStep q x - 1 : ℤ) = (q * invStep q x - q * (x * (2 - q * x))) - (q * x - 1) * (q * x - 1) := by ring
  rw [hsplit]
  exact dvd_sub (hradix.trans hmod) hsquare

/-- An odd number is its own inverse in the three low bits. -/
theorem odd_self_inverse {q : Nat} (hodd : q % 2 = 1) : (2 ^ 3 : ℤ) ∣ q * q - 1 := by
  have hcases : (q : ℤ) % 8 = 1 ∨ (q : ℤ) % 8 = 3 ∨ (q : ℤ) % 8 = 5 ∨ (q : ℤ) % 8 = 7 := by omega
  refine Int.dvd_of_emod_eq_zero ?_
  rcases hcases with h | h | h | h <;> simp [Int.sub_emod, Int.mul_emod, h]

theorem invRadix_inverse {q : Nat} (hodd : q % 2 = 1) (hlt : q < radix) : (radix : ℤ) ∣ q * invRadix q - 1 := by
  have hstart : (2 ^ 3 : ℤ) ∣ q * (q % radix : Nat) - 1 := by
    rw [Nat.mod_eq_of_lt hlt]
    exact odd_self_inverse hodd
  have h6 := invStep_doubles 6 hstart (by decide) (by decide)
  have h12 := invStep_doubles 12 h6 (by decide) (by decide)
  have h24 := invStep_doubles 24 h12 (by decide) (by decide)
  have h48 := invStep_doubles 48 h24 (by decide) (by decide)
  exact invStep_doubles 64 h48 (by decide) (by decide)

theorem invRadix_lt (q : Nat) : invRadix q < radix := Nat.mod_lt _ (by decide)

/-- q' is the negated inverse. -/
theorem qPrime_negates {q : Nat} (hodd : q % 2 = 1) (hlt : q < radix) : radix ∣ q * qPrime q + 1 := by
  have hcast : ((q * qPrime q + 1 : Nat) : ℤ) ≡ 0 [ZMOD radix] := by
    have hprime : (qPrime q : ℤ) ≡ -invRadix q [ZMOD radix] := by
      rw [qPrime]
      push_cast [Nat.cast_sub (invRadix_lt q).le]
      exact (Int.mod_modEq _ _).trans (Int.modEq_iff_dvd.2 ⟨-1, by ring⟩)
    have hinv : (q * invRadix q : ℤ) ≡ 1 [ZMOD radix] := (Int.modEq_iff_dvd.2 (invRadix_inverse hodd hlt)).symm
    push_cast
    calc (q * qPrime q + 1 : ℤ) ≡ q * -invRadix q + 1 [ZMOD radix] := (hprime.mul_left _).add_right _
      _ = -(q * invRadix q) + 1 := by ring
      _ ≡ -1 + 1 [ZMOD radix] := hinv.neg.add_right _
      _ = 0 := by norm_num
  exact Int.natCast_dvd_natCast.1 (Int.modEq_zero_iff_dvd.1 hcast)

/-! ## Reduction -/

section Reduction

variable {q t : Nat}

/-- The radix divides the sum that a reduction shifts. -/
theorem radix_dvd_sum (hodd : q % 2 = 1) (hlt : q < radix) : radix ∣ t + t % radix * qPrime q % radix * q := by
  have hsum : t + t % radix * qPrime q % radix * q ≡ t * (q * qPrime q + 1) [MOD radix] :=
    calc t + t % radix * qPrime q % radix * q ≡ t + t * qPrime q * q [MOD radix] :=
          (((Nat.mod_modEq _ _).trans ((Nat.mod_modEq _ _).mul_right _)).mul_right _).add_left _
      _ = t * (q * qPrime q + 1) := by ring
  exact (Nat.modEq_zero_iff_dvd.1 (hsum.trans (Nat.modEq_zero_iff_dvd.2 ((qPrime_negates hodd hlt).mul_left t))))

/-- Below `q` times the radix a reduction yields a residue. -/
theorem redc_lt (ht : t < q * radix) : redc q t < q := by
  have hm : t % radix * qPrime q % radix < radix := Nat.mod_lt _ (by decide)
  have hu : (t + t % radix * qPrime q % radix * q) / radix < 2 * q := by
    refine Nat.div_lt_of_lt_mul ?_
    calc t + t % radix * qPrime q % radix * q < q * radix + radix * q := Nat.add_lt_add_of_lt_of_le ht (Nat.mul_le_mul_right _ hm.le)
      _ = radix * (2 * q) := by ring
  simp only [redc]
  split <;> omega

/-- A reduction divides by the radix, modulo `q`. -/
theorem redc_mul_radix (hodd : q % 2 = 1) (hlt : q < radix) : redc q t * radix ≡ t [MOD q] := by
  have hu : (t + t % radix * qPrime q % radix * q) / radix * radix ≡ t [MOD q] := by
    rw [Nat.div_mul_cancel (radix_dvd_sum hodd hlt)]
    exact (Nat.modEq_iff_dvd' (Nat.le_add_right _ _)).2 ⟨_, by rw [Nat.add_sub_cancel_left, Nat.mul_comm]⟩ |>.symm
  simp only [redc]
  split
  case isTrue hle => exact (((Nat.modEq_iff_dvd' (Nat.sub_le _ _)).2 ⟨1, by omega⟩).mul_right _).trans hu
  case isFalse => exact hu

end Reduction

/-- An odd modulus shares no factor with the radix. -/
theorem coprime_radix {q : Nat} (hodd : q % 2 = 1) : Nat.gcd q radix = 1 :=
  Nat.Coprime.pow_right 64 (Nat.coprime_two_right.2 (Nat.odd_iff.2 hodd))

/-- Settles O53: a reduction of a product divides it by the radix; twice after R2, it gives the residue back, since the radix cancels
modulo an odd `q`. -/
theorem montgomeryMultiplication : Obligations.MontgomeryMultiplication := by
  intro q a b hodd hone hlt ha hb
  have hq : 0 < q := by omega
  have hradix : q < radix := hlt.trans (by decide)
  have hproduct : ∀ {x y : Nat}, x < q → y < q → x * y < q * radix := fun hx hy => Nat.mul_lt_mul'' hx (hy.trans hradix)
  have hR2 : rSquared q < q := Nat.mod_lt _ hq
  refine ⟨redc_lt (hproduct ha hb), redc_mul_radix hodd hradix, ?_⟩
  have hform : mmul q a (rSquared q) ≡ a * radix [MOD q] := by
    refine Nat.ModEq.cancel_right_of_coprime (coprime_radix hodd) ((redc_mul_radix hodd hradix).trans ?_)
    calc a * rSquared q ≡ a * (radix * radix) [MOD q] := (Nat.mod_modEq _ _).mul_left _
      _ = a * radix * radix := by ring
  have hback : redc q (mmul q a (rSquared q)) ≡ a [MOD q] :=
    Nat.ModEq.cancel_right_of_coprime (coprime_radix hodd) ((redc_mul_radix hodd hradix).trans hform)
  have hsmall : mmul q a (rSquared q) < q * radix := (redc_lt (hproduct ha hR2)).trans_le (Nat.le_mul_of_pos_right _ (by decide))
  exact hback.eq_of_lt_of_lt (redc_lt hsmall) ha

end Sys2Proof.MontgomeryCerts
end

section
/-!
PROOF. The host port (spec/17_gust_links_and_host.md R469 to R471, R481): its link, configuration space, accesses through BAR2 and the
command that sets a window.
-/
namespace Sys2Proof.HostPortCerts

open Sys2Proof.Machine Sys2Proof.Laws Sys2Proof.CommandCerts

variable {s : State}

/-! ## The link (R469) -/

theorem exec_perstNRise (hpwr : s.pins.pwrOk = true) (hlow : s.pins.perstN = false) : exec .perstNRise s =
    .next { s with pins := { s.pins with perstN := true }, link := { s.link with hostTrain := true } } :=
  congrArg Host.Outcome.next (if_pos (by rw [hpwr, hlow]; rfl))

/-- The state in which the host link has come up. -/
def linkedUp (s : State) : State := { s with link := { s.link with hostUp := true, hostTrain := false } }

theorem exec_pcieLinkUp (degraded : Bool) (htrain : s.link.hostTrain = true) (hclk : s.clk.pclk = true) :
    exec (.pcieLinkUp degraded) s = .next (if degraded then logInfo 0x070A 0x0D 0 [] (linkedUp s) else linkedUp s) :=
  congrArg Host.Outcome.next (if_pos (by rw [htrain, hclk]; rfl))

theorem sendMsix_host (v : Nat) (s : State) : (sendMsix v s).link = { s.link with pba := (sendMsix v s).link.pba } := by
  unfold sendMsix
  split
  · rfl
  · split <;> rfl

/-- A record may leave a vector pending, and nothing else of the links. -/
theorem logInfo_host (code ut inst : Nat) (d : List Nat) (s : State) :
    (logInfo code ut inst d s).link = { s.link with pba := (logInfo code ut inst d s).link.pba } := by
  unfold logInfo logRec
  dsimp only
  split
  · exact sendMsix_host 222 _
  · rfl

theorem linkUp_degraded (htrain : s.link.hostTrain = true) (hclk : s.clk.pclk = true) :
    Answers (.pcieLinkUp true) s fun t => t.link.hostUp = true ∧ t.link.hostTrain = false
      ∧ t.log = (logInfo 0x070A 0x0D 0 [] s).log ∧ KeepsBut [.log, .link, .out] s t := by
  refine ⟨_, exec_pcieLinkUp true htrain hclk, ?_⟩
  dsimp only
  rw [if_pos rfl, logInfo_host, PinCerts.logInfo_log, PinCerts.logInfo_log]
  exact ⟨rfl, rfl, rfl, (logInfo_only _ _ _ _ (by decide) (Only.atLink (by decide) Only.refl)).keeps⟩

theorem exec_pcieLinkDown (hup : s.link.hostUp = true) : exec .pcieLinkDown s =
    .next { perstEffect s with link := { (perstEffect s).link with hostTrain := true } } :=
  congrArg Host.Outcome.next (if_pos hup)

/-- PERST_N resets the host endpoint; the leases that it ends are no part of it. -/
theorem perstEffect_link (s : State) : (perstEffect s).link = (hostReset s).link := by
  have hleases : (endHostLeases (List.range 14) (hostReset s)).link = (hostReset s).link :=
    (endHostLeases_only (List.range 14) (List.Subset.refl _) Only.refl).keeps .link (by decide)
  simp only [perstEffect, resetCause, hleases]

theorem linkDown_resets (hup : s.link.hostUp = true) : Answers .pcieLinkDown s fun t =>
    t.link.hostUp = false ∧ t.link.hostTrain = true ∧ t.aon.grantHost = none ∧ t.link.bme = false ∧ t.link.pba = []
    ∧ KeepsBut [.aon, .mbx, .link] s t := by
  refine ⟨_, exec_pcieLinkDown hup, ?_⟩
  dsimp only
  rw [perstEffect_link]
  exact ⟨rfl, rfl, rfl, rfl, rfl, (Only.atLink (by decide) (perstEffect_only (by decide) Only.refl)).keeps⟩

/-! ## Configuration space (R470) -/

/-- A vector of the PBA goes out exactly when requests may be sent; nothing else of the links changes. -/
theorem drainPba_effect (u : State) : (drainPba u).link = { u.link with pba := (drainPba u).link.pba }
    ∧ (if u.hostReady then (drainPba u).link.pba = [] ∧ (drainPba u).out.msix = u.link.pba.reverse ++ u.out.msix
       else (drainPba u).link.pba = u.link.pba ∧ (drainPba u).out = u.out) := by
  cases h : u.hostReady <;> simp [drainPba, h]

theorem exec_configurationWrite (w : CfgWrite) (hup : s.link.hostUp = true) : exec (.configurationWrite w) s = .next (match w with
    | .busMaster b => drainPba { s with link := { s.link with bme := b } }
    | .power b => drainPba { s with link := { s.link with d0 := b } }
    | .cplTimeout v => { s with link := { s.link with cplTimeout := v } }) :=
  congrArg Host.Outcome.next (if_neg (by simp [hup]))

theorem busMaster_written (b : Bool) (hup : s.link.hostUp = true) : Answers (.configurationWrite (.busMaster b)) s fun t =>
    t.link.bme = b ∧ (if b && s.link.d0 then t.link.pba = [] ∧ t.out.msix = s.link.pba.reverse ++ s.out.msix
      else t.link.pba = s.link.pba ∧ t.out = s.out) ∧ KeepsBut [.link, .out] s t := by
  obtain ⟨hlink, hpba⟩ := drainPba_effect { s with link := { s.link with bme := b } }
  exact ⟨_, exec_configurationWrite _ hup, by rw [hlink], hpba, (drainPba_only (by decide) (Only.atLink (by decide) Only.refl)).keeps⟩

theorem power_written (b : Bool) (hup : s.link.hostUp = true) : Answers (.configurationWrite (.power b)) s fun t =>
    t.link.d0 = b ∧ (if b && s.link.bme then t.link.pba = [] ∧ t.out.msix = s.link.pba.reverse ++ s.out.msix
      else t.link.pba = s.link.pba ∧ t.out = s.out) ∧ KeepsBut [.link, .out] s t := by
  obtain ⟨hlink, hpba⟩ := drainPba_effect { s with link := { s.link with d0 := b } }
  rw [State.hostReady, Bool.and_comm] at hpba
  exact ⟨_, exec_configurationWrite _ hup, by rw [hlink], hpba, (drainPba_only (by decide) (Only.atLink (by decide) Only.refl)).keeps⟩

/-! ## BAR2 (R336, R471) -/

section Access

variable {off : BitVec 36} (len : BitVec 13) (data : List Byte)

theorem exec_bar2Access (acc : BarAccess) (hup : s.link.hostUp = true) (hmain : s.mainDown = false) :
    exec (.bar2Access off acc) s = .next (match acc with
      | .read n => if (s.bar2win (off.toNat / 2 ^ 32)).enable then barRead (s.bar2win (off.toNat / 2 ^ 32)) off.toNat n.toNat s else barDeny acc s
      | .write b => if (s.bar2win (off.toNat / 2 ^ 32)).enable && (s.bar2win (off.toNat / 2 ^ 32)).write then
          (dvaWrite (barAccess (s.bar2win (off.toNat / 2 ^ 32)) off.toNat true) b s).2
        else barDeny acc s) := by
  have hexec : exec (.bar2Access off acc) s = execBar2Access off acc s := rfl
  rw [hexec]
  simp only [execBar2Access]
  simp only [hup, hmain, Bool.not_true, Bool.false_eq_true, if_false] <;> rfl

theorem exec_bar2Access_offline (acc : BarAccess) (hup : s.link.hostUp = true) (hmain : s.mainDown = true) :
    exec (.bar2Access off acc) s = .next (barOffline acc s) := by
  have hexec : exec (.bar2Access off acc) s = execBar2Access off acc s := rfl
  rw [hexec]
  simp only [execBar2Access]
  simp only [hup, hmain, Bool.not_true, Bool.false_eq_true, if_false, if_true]

theorem barRead_ok {x : Bar2Win} {k n : Nat} {d : List Byte} {u : State} (h : dvaRead (barAccess x k false) n s = (.ok d, u)) :
    (barRead x k n s).out.hostData = d := by
  simp only [barRead, h]

theorem barRead_error {x : Bar2Win} {k n : Nat} {e : DvaErr} {u : State} (h : dvaRead (barAccess x k false) n s = (.error e, u)) :
    (barRead x k n s).out.hostData = List.replicate n 0xFF := by
  simp only [barRead, h]
  rfl

theorem read_answered (hup : s.link.hostUp = true) (hmain : s.mainDown = false)
    (hen : (s.bar2win (off.toNat / 2 ^ 32)).enable = true) : Answers (.bar2Access off (.read len)) s fun t =>
      (∀ e u, dvaRead (barAccess (s.bar2win (off.toNat / 2 ^ 32)) off.toNat false) len.toNat s = (.error e, u) →
        t.out.hostData = List.replicate len.toNat 0xFF)
      ∧ (∀ d u, dvaRead (barAccess (s.bar2win (off.toNat / 2 ^ 32)) off.toNat false) len.toNat s = (.ok d, u) → t.out.hostData = d) :=
  ⟨_, (exec_bar2Access _ hup hmain).trans (congrArg Host.Outcome.next (if_pos hen)), fun _ _ h => barRead_error h, fun _ _ h => barRead_ok h⟩

theorem exec_write_through (hup : s.link.hostUp = true) (hmain : s.mainDown = false)
    (hen : (s.bar2win (off.toNat / 2 ^ 32)).enable = true) (hwr : (s.bar2win (off.toNat / 2 ^ 32)).write = true) :
    exec (.bar2Access off (.write data)) s =
      .next (dvaWrite (barAccess (s.bar2win (off.toNat / 2 ^ 32)) off.toNat true) data s).2 :=
  (exec_bar2Access _ hup hmain).trans (congrArg Host.Outcome.next (if_pos (by rw [hen, hwr]; rfl)))

theorem read_denied (hup : s.link.hostUp = true) (hmain : s.mainDown = false)
    (hen : (s.bar2win (off.toNat / 2 ^ 32)).enable = false) : Answers (.bar2Access off (.read len)) s fun t =>
      t.out.hostData = List.replicate len.toNat 0xFF ∧ t.link.bar2Deny = satInc s.link.bar2Deny ∧ KeepsBut [.link, .out] s t :=
  ⟨_, (exec_bar2Access _ hup hmain).trans (congrArg Host.Outcome.next (if_neg (by rw [hen]; exact Bool.false_ne_true))), rfl, rfl,
    (barDeny_only _ (by decide) Only.refl).keeps⟩

theorem exec_write_denied (hup : s.link.hostUp = true) (hmain : s.mainDown = false)
    (hdeny : (s.bar2win (off.toNat / 2 ^ 32)).enable = false ∨ (s.bar2win (off.toNat / 2 ^ 32)).write = false) :
    exec (.bar2Access off (.write data)) s = .next { s with link := { s.link with bar2Deny := satInc s.link.bar2Deny } } :=
  (exec_bar2Access _ hup hmain).trans (congrArg Host.Outcome.next (if_neg (by rcases hdeny with h | h <;> rw [h] <;> simp)))

end Access

/-! ## BAR2_WINDOW (R481) -/

/-- The window that BAR2_WINDOW describes for a mailbox of partition 0. -/
def windowOf (m : Mbx) : Bar2Win :=
  { enable := m.arg 3 % 2 = 1, write := m.arg 3 / 2 = 1, base := m.arg64 1, part := m.arg 4 }

theorem exec_bar2Window {n w : Fin 16} (hrun : Runs s n 0x0706) (hexp : (s.box n.val).exp = false) (hpart : mbxPart s n.val = 0)
    (hw : (s.box n.val).arg 0 = w.val) (hbits : (s.box n.val).arg 3 < 4) (halign : (s.box n.val).arg64 1 % 65536 = 0)
    (hend : (s.box n.val).arg64 1 + 2 ^ 32 ≤ 2 ^ 48) (hp : (s.box n.val).arg 4 < 64)
    (hused : partKind s ((s.box n.val).arg 4) ≠ .unused) (hvault : partKind s ((s.box n.val).arg 4) ≠ .vault) :
    exec (.bar2Window n) s = .next (replyDone n.val [] []
      { s.freed n with link := { s.link with bar2 := Tab.put {} s.link.bar2 w.val (windowOf (s.box n.val)) } }) := by
  have hexec : exec (.bar2Window n) s = execBar2Window n s := rfl
  have hpart' : mbxPart (s.freed n) n.val = 0 := hpart
  have hargs : ¬ (16 ≤ w.val ∨ 4 ≤ (s.box n.val).arg 3 ∨ 64 ≤ (s.box n.val).arg 4) := by omega
  rw [hexec, execBar2Window, command_run hrun]
  · dsimp only
    rw [hpart', hw, if_pos rfl]
    rfl
  · simp only [not_or, Nat.not_le] at hargs
    simp [first_eq_none, firstFail_cons_eq_none, failIf_eq_none, mayWindow, hpart, hexp, hw, hargs, hused, hvault, halign]
    omega

theorem bar2Window_sets {n w : Fin 16} (hrun : Runs s n 0x0706) (hexp : (s.box n.val).exp = false) (hpart : mbxPart s n.val = 0)
    (hw : (s.box n.val).arg 0 = w.val) (hbits : (s.box n.val).arg 3 < 4) (halign : (s.box n.val).arg64 1 % 65536 = 0)
    (hend : (s.box n.val).arg64 1 + 2 ^ 32 ≤ 2 ^ 48) (hp : (s.box n.val).arg 4 < 64)
    (hused : partKind s ((s.box n.val).arg 4) ≠ .unused) (hvault : partKind s ((s.box n.val).arg 4) ≠ .vault) :
    Answers (.bar2Window n) s fun t => t.bar2win w.val = windowOf (s.box n.val) ∧ (∀ v, v ≠ w.val → t.bar2win v = s.bar2win v)
      ∧ (t.box n.val).outbox = (s.box n.val).outbox ++ [{ status := 0 }] ∧ KeepsBut [.link, .mbx] s t := by
  refine ⟨_, exec_bar2Window hrun hexp hpart hw hbits halign hend hp hused hvault, Tab.get_put_self, fun v hv => ?_,
    AttestCerts.replyDone_outbox_of_freed rfl [] [], ?_⟩
  · exact Tab.get_put.trans (if_neg hv)
  · exact (replyDone_only _ _ _ (by decide)
      (Only.atLink (t := s.freed n) (by decide) (setBox_only _ _ (by decide) Only.refl))).keeps

/-- Settles O17: each command by what it does on the path its clause takes. -/
theorem hostPortCommands : Obligations.HostPortCommands := by
  refine ⟨fun s => exec_perstNRise, fun s htrain hclk => ⟨exec_pcieLinkUp false htrain hclk, linkUp_degraded htrain hclk⟩,
    fun s => linkDown_resets, fun b v s hup => ⟨exec_configurationWrite _ hup, busMaster_written b hup, power_written b hup⟩,
    fun off len data s hup hmain => ⟨read_answered len hup hmain, exec_write_through data hup hmain, read_denied len hup hmain,
      exec_write_denied data hup hmain⟩, fun off len data s hup hmain => ⟨exec_bar2Access_offline _ hup hmain, ?offlineRead⟩, ?window⟩
  case offlineRead =>
    exact ⟨_, exec_bar2Access_offline _ hup hmain, rfl, rfl, (barOffline_only _ (by decide) Only.refl).keeps⟩
  case window =>
    intro n w s hrun hexp hpart hw hbits halign hend hp hused hvault
    obtain ⟨t, hexec, hset, hrest⟩ := bar2Window_sets hrun hexp hpart hw hbits halign hend hp hused hvault
    refine ⟨t, hexec, ?_, hrest⟩
    rw [hset]
    exact ⟨rfl, rfl, rfl, rfl⟩

end Sys2Proof.HostPortCerts
end

section
/-!
PROOF. The event log (spec/19_faults_and_recovery.md R501, R505, R506, R521, R522, R524): what one page program commits, what an
acknowledgement re-arms, and the two commands that read the log.
-/
namespace Sys2Proof.EventLogCerts

open Sys2Proof.Machine Sys2Proof.Laws Sys2Proof.CommandCerts

/-! ## Committing a page (R501) -/

/-- What the commit of a list of ring indices leaves in the log and in the store. -/
structure Commits (l : List Nat) (s t : State) : Prop where
  store : t.store = { s.store with
    logNext := s.store.logNext + l.length
    committed := (l.map fun i => (s.store.coldStarts, Tab.get {} s.log.ring i)).reverse ++ s.store.committed }
  ring : t.log.ring = s.log.ring
  waiting : t.log.uncommitted = s.log.uncommitted.filter fun j => j ∉ l

theorem commitList_commits (l : List Nat) : ∀ s : State, Commits l s (commitList l s) := by
  induction l with
  | nil => exact fun s => ⟨by simp [commitList], rfl, by simp [commitList]⟩
  | cons i l ih =>
    intro s
    obtain ⟨hstore, hring, hwait⟩ := ih (commitOne i s)
    refine ⟨?_, hring, ?_⟩
    · rw [commitList, hstore]
      simp only [commitOne, List.map_cons, List.reverse_cons, List.append_assoc, List.singleton_append, List.length_cons]
      congr 1
      omega
    · rw [commitList, hwait]
      simp only [commitOne, List.filter_filter, List.mem_cons, not_or]
      congr 1
      funext j
      by_cases h : j = i <;> simp [h]

/-- The state in which the page program has noted its verify retries. -/
def retried (retries sector : Nat) (s : State) : State :=
  modLogRegion (fun r => { r with retries := Tab.mod 0 r.retries sector (· + min retries 3) }) s

theorem retried_only (retries sector : Nat) (s : State) : Only [.store] s (retried retries sector s) :=
  Only.atStore (by decide) Only.refl

section Page

variable {retries sector spare erase : Nat} {s : State}

theorem exec_logCommit (hro : s.regionRo 5 = false) (hclk : s.clk.sclk = true) (hsome : s.log.uncommitted ≠ []) :
    exec (.logCommit retries sector spare erase) s =
      .next (let w := if retries ≤ 2 then (retried retries sector s, true) else retireLogSector sector spare (retried retries sector s)
        if w.2 then noteErase sector erase (commitList (s.log.uncommitted.take 8) (logWrap (s.log.uncommitted.take 8).length w.1)) else w.1) :=
  congrArg Host.Outcome.next (if_neg (by simp [hro, hclk, hsome]))

theorem logWrap_of_room {k : Nat} (h : s.store.logNext + k ≤ s.store.logOldest + logCapacity) : logWrap k s = s := if_pos h

/-- The erase count of a sector that is not worn. -/
theorem noteErase_of_fresh (h : erase ≤ 100000) :
    noteErase sector erase s = modLogRegion (fun r => { r with maxErase := max r.maxErase erase }) s :=
  if_neg (by simp [Nat.not_lt.2 h])

theorem page_commits (hro : s.regionRo 5 = false) (hclk : s.clk.sclk = true) (hsome : s.log.uncommitted ≠ []) (hretries : retries ≤ 2)
    (herase : erase ≤ 100000) (hroom : s.store.logNext + (s.log.uncommitted.take 8).length ≤ s.store.logOldest + logCapacity) :
    Answers (.logCommit retries sector spare erase) s fun t =>
      t.store.logNext = s.store.logNext + (s.log.uncommitted.take 8).length
      ∧ t.store.committed = ((s.log.uncommitted.take 8).map fun i => (s.store.coldStarts, Tab.get {} s.log.ring i)).reverse ++ s.store.committed
      ∧ t.log.uncommitted = s.log.uncommitted.filter (fun j => j ∉ s.log.uncommitted.take 8)
      ∧ t.log.ring = s.log.ring ∧ KeepsBut [.store, .log] s t := by
  refine ⟨_, exec_logCommit hro hclk hsome, ?_⟩
  dsimp only
  rw [if_pos hretries, if_pos rfl, logWrap_of_room (s := retried retries sector s) hroom, noteErase_of_fresh herase]
  obtain ⟨hstore, hring, hwait⟩ := commitList_commits (s.log.uncommitted.take 8) (retried retries sector s)
  have hkept := commitList_only (s.log.uncommitted.take 8) (gs := [.store, .log]) (by decide) ((retried_only retries sector s).mono (by decide))
  refine ⟨?_, ?_, hwait, hring, (Only.atStore (by decide) hkept).keeps⟩
  · dsimp only [modLogRegion]
    rw [hstore]
    rfl
  · dsimp only [modLogRegion]
    rw [hstore]
    rfl

/-- R522: without a spare the region becomes read-only, and the program has not completed. -/
theorem retireLogSector_of_no_spare (h : s.store.regions[5].spares = 0) : retireLogSector sector spare s =
    (logUe .none 0x0B12 0x12 6 [] (logUe .none 0x0B11 0x12 6 [6] (modLogRegion (fun r => { r with ro := true }) s)), false) :=
  if_neg (by rw [h]; exact Nat.lt_irrefl 0)

theorem modLogRegion_log (f : Region → Region) (s : State) : (modLogRegion f s).store.regions[5] = f s.store.regions[5] := by
  simp [modLogRegion]

theorem page_worn_out (hro : s.regionRo 5 = false) (hclk : s.clk.sclk = true) (hsome : s.log.uncommitted ≠ []) (hretries : 2 < retries)
    (hspare : (s.store.regions[5]).spares = 0) : Answers (.logCommit retries sector spare erase) s fun t =>
      t.regionRo 5 = true ∧ t.store.committed = s.store.committed ∧ t.store.logNext = s.store.logNext
      ∧ KeepsBut [.store, .log, .link, .out] s t := by
  refine ⟨_, exec_logCommit hro hclk hsome, ?_⟩
  have hleft : (retried retries sector s).store.regions[5].spares = 0 := by
    rw [retried, modLogRegion_log]
    exact hspare
  dsimp only
  rw [if_neg (Nat.not_le.2 hretries), retireLogSector_of_no_spare hleft, if_neg Bool.false_ne_true]
  refine ⟨?_, ?_, ?_, (logUe_only _ _ _ _ _ (by decide) (logUe_only _ _ _ _ _ (by decide)
    (Only.atStore (by decide) ((retried_only retries sector s).mono (by decide))))).keeps⟩
  · simp only [State.regionRo, MemoryCerts.logUe_store]
    exact congrArg Region.ro (modLogRegion_log _ _)
  · simp only [MemoryCerts.logUe_store]
    rfl
  · simp only [MemoryCerts.logUe_store]
    rfl

end Page

/-! ## EVL_ACK (R505) -/

/-- The register takes the value; vector 222 is armed again unless a record is left. -/
def acknowledged (q : Nat) (s : State) : State := { s with log := { s.log with ack := q, armed := !s.log.pendingAfter q } }

theorem exec_evlAck {val : Word} {s : State} (hrel : s.released = true) : exec (.evlAck .host val) s =
    .next (if s.log.pendingAfter (val.toNat % 65536) then sendMsix 222 (acknowledged (val.toNat % 65536) s)
      else acknowledged (val.toNat % 65536) s) := by
  have hexec : exec (.evlAck .host val) s = .next (writeEvlAck .host val s) := rfl
  rw [hexec, writeEvlAck, hrel]
  cases h : s.log.pendingAfter (val.toNat % 65536) <;> simp [h, acknowledged]

theorem sendMsix_of_ready {v : Nat} {s : State} (h : s.hostReady = true) :
    (sendMsix v s).out.msix = v :: s.out.msix := by
  simp [sendMsix, h]

theorem ack_effect {val : Word} {s : State} (hrel : s.released = true) : Answers (.evlAck .host val) s fun t =>
    t.log = { s.log with ack := val.toNat % 65536, armed := !s.log.pendingAfter (val.toNat % 65536) }
    ∧ (s.log.pendingAfter (val.toNat % 65536) = true → s.hostReady = true → t.out.msix = 222 :: s.out.msix)
    ∧ (s.log.pendingAfter (val.toNat % 65536) = false → t.out = s.out) ∧ KeepsBut [.log, .link, .out] s t := by
  refine ⟨_, exec_evlAck hrel, ?_⟩
  have hset : Only [.log, .link, .out] s (acknowledged (val.toNat % 65536) s) := Only.atLog (by decide) id Only.refl
  dsimp only
  split
  case isTrue h =>
    refine ⟨PinCerts.sendMsix_log _ _, fun _ hready => sendMsix_of_ready (s := acknowledged (val.toNat % 65536) s) hready,
      fun hnone => absurd h (by simp [hnone]), (sendMsix_only _ (by decide) hset).keeps⟩
  case isFalse h => exact ⟨rfl, fun hsome => absurd hsome h, fun _ => rfl, hset.keeps⟩

/-! ## LOG_READ and LOG_STATUS (R524) -/

theorem logAt_congr {s t : State} (h : s.store = t.store) : logAt s = logAt t := by
  funext p
  simp only [logAt, h]

theorem collectLog_congr {s t : State} (h : s.store = t.store) (m : Mbx) (cold fuel : Nat) :
    ∀ n p, collectLog s m cold fuel n p = collectLog t m cold fuel n p := by
  induction fuel with
  | zero => exact fun _ _ => rfl
  | succ fuel ih =>
    intro n p
    cases n with
    | zero => rfl
    | succ n => simp only [collectLog, logAt_congr h, ih]

section Commands

variable {n : Fin 16} {s : State}

theorem exec_logRead (hrun : Runs s n 0x0B01) (hexp : (s.box n.val).exp = false) (hlow : 1 ≤ (s.box n.val).arg 2)
    (hhigh : (s.box n.val).arg 2 ≤ 120) (h1 : (s.box n.val).arg 1 < 256) (h3 : (s.box n.val).arg 3 = 0)
    (hold : s.store.logOldest ≤ logPos (s.box n.val)) :
    let cold := (logAt s (logPos (s.box n.val))).elim s.store.coldStarts Prod.fst
    let c := collectLog s (s.box n.val) cold (s.store.logNext - logPos (s.box n.val)) ((s.box n.val).arg 2) (logPos (s.box n.val))
    exec (.logRead n) s = .next (replyDone n.val [c.2 % 2 ^ 32, c.2 / 2 ^ 32, cold] (c.1.flatMap (eventBytes s.prot.debugLevel)) (s.freed n)) := by
  have hexec : exec (.logRead n) s = execLogRead n s := rfl
  have hstore : (s.freed n).store = s.store := rfl
  have hprot : (s.freed n).prot = s.prot := rfl
  dsimp only
  rw [hexec, execLogRead, command_run hrun]
  · simp [h3, hstore, hprot, logAt_congr hstore, collectLog_congr hstore]
  · simp [first_eq_none, firstFail_cons_eq_none, failIf_eq_none, hexp, h3, hold]
    omega

theorem exec_logStatus (hrun : Runs s n 0x0B02) (hexp : (s.box n.val).exp = false) : exec (.logStatus n) s = .next (replyDone n.val
    [s.store.logOldest % 2 ^ 32, s.store.logOldest / 2 ^ 32, (s.store.logNext - 1) % 2 ^ 32, (s.store.logNext - 1) / 2 ^ 32,
      s.store.coldStarts, (evlStatus s).toNat, s.log.drops]
    ((List.finRange 6).flatMap (regionBytes s)) (s.freed n)) := by
  have hexec : exec (.logStatus n) s = execLogStatus n s := rfl
  rw [hexec, execLogStatus, command_run hrun rfl, hexp, if_neg Bool.false_ne_true, List.append_nil]
  rfl

end Commands

/-- Settles O30: a page program by what it commits, the acknowledgement by what it re-arms, the two commands by their answers. -/
theorem eventLogCommands : Obligations.EventLogCommands :=
  ⟨fun _ _ _ _ _ hro hclk hsome =>
      ⟨fun hretries herase hroom => page_commits hro hclk hsome hretries herase hroom,
        fun hretries hspare => page_worn_out hro hclk hsome hretries hspare⟩,
    fun _ _ => ack_effect, fun _ _ => ⟨exec_logRead, exec_logStatus⟩⟩

end Sys2Proof.EventLogCerts
end

section
/-!
PROOF. Conversions and the thermal commands (spec/18_thermal.md R484 to R486, R496): what a conversion stores, which sensors it faults, its
maximum, and the answer that its asker gets.
-/
namespace Sys2Proof.ThermalCerts

open Sys2Proof.Machine Sys2Proof.Laws Sys2Proof.CommandCerts

/-! ## THS_CTRL (R486) -/

section Start

variable {val : Word} {s : State}

theorem exec_thsStart_granted (hrel : s.released = true) (hup : s.blockDown .ths = false) (hgrant : s.aon.grantHost.isSome = true)
    (hbit : bit val 0 = true) (hidle : s.therm.conv = none) :
    exec (.thsStart .host val) s = .next { s with therm := { s.therm with conv := some (s.therm.mask, .direct) } } := by
  have hexec : exec (.thsStart .host val) s = .next (writeThsCtrl .host val s) := rfl
  have hsome : s.aon.grantHost.isNone = false := by rw [← Option.not_isSome, hgrant, Bool.not_true]
  rw [hexec, writeThsCtrl]
  simp [hrel, hup, hsome, hbit, hidle, startConv]

theorem exec_thsStart_denied (hrel : s.released = true) (hup : s.blockDown .ths = false) (hgrant : s.aon.grantHost = none) :
    exec (.thsStart .host val) s = .next { s with aon := { s.aon with expDeny := true } } := by
  have hexec : exec (.thsStart .host val) s = .next (writeThsCtrl .host val s) := rfl
  rw [hexec, writeThsCtrl]
  simp [hrel, hup, hgrant, noteDeny]

end Start

/-! ## Readings (R485) -/

/-- Each sensor of the mask takes its reading; the others keep theirs. -/
theorem get_storeTemps (mask : BitVec 48) (temps : Vector (BitVec 16) 48) (l : List (Fin 48)) : ∀ (t : Tab (BitVec 16)) (i : Fin 48),
    Tab.get 0 (storeTemps mask temps l t) i.val =
      if i ∈ l ∧ mask.getLsbD i.val = true then temps[i] else Tab.get 0 t i.val := by
  induction l with
  | nil => simp [storeTemps]
  | cons sn l ih =>
    intro t i
    rw [storeTemps, ih]
    by_cases hsn : i = sn
    · subst hsn
      by_cases hbit : mask.getLsbD i.val = true
      · simp only [hbit, List.mem_cons_self, and_self, and_true, if_true, Tab.get_put_self, ite_self]
      · simp only [hbit, Bool.false_eq_true, and_false, if_false]
    · have hval : i.val ≠ sn.val := fun h => hsn (Fin.ext h)
      have hskip : Tab.get 0 (if mask.getLsbD sn.val then Tab.put 0 t sn.val temps[sn] else t) i.val = Tab.get 0 t i.val := by
        split
        · rw [Tab.get_put, if_neg hval]
        · rfl
      rw [hskip]
      simp only [List.mem_cons, hsn, false_or]

/-! ## Faults (R484) -/

/-- What the faults of a conversion leave of the thermal state: only maps of faulted sensors, levels and the RESUME timer move. -/
structure FaultsOnly (s t : State) : Prop where
  therm : ∃ f r g, t.therm = { s.therm with faulted := f, resumeSince := r, targets := g }
  box : ∀ n, t.box n = s.box n

theorem FaultsOnly.trans {s t u : State} (h : FaultsOnly s t) (k : FaultsOnly t u) : FaultsOnly s u := by
  obtain ⟨f, r, g, ht⟩ := h.therm
  obtain ⟨f', r', g', hu⟩ := k.therm
  exact ⟨⟨f', r', g', by rw [hu, ht]⟩, fun n => (k.box n).trans (h.box n)⟩

theorem FaultsOnly.refl (s : State) : FaultsOnly s s := ⟨⟨_, _, _, rfl⟩, fun _ => rfl⟩

theorem logLimited_therm (period : Nat) (cls : Cls) (code ut inst : Nat) (d : List Nat) (c : Contain) (s : State) :
    (logLimited period cls code ut inst d c s).therm = s.therm :=
  (logLimited_only _ _ _ _ _ _ _ (List.Subset.refl _) Only.refl).keeps .therm (by decide)

theorem logUe_therm (c : Contain) (code ut inst : Nat) (d : List Nat) (s : State) : (logUe c code ut inst d s).therm = s.therm :=
  (logUe_only _ _ _ _ _ (List.Subset.refl _) Only.refl).keeps .therm (by decide)

/-- A sensor that asserts WARN first raises its target alone. -/
theorem warnRise_therm (sn : Fin 48) (s : State) : ∃ g, (warnRise sn s).therm = { s.therm with targets := g } := by
  unfold warnRise
  dsimp only
  split
  · exact ⟨_, logLimited_therm ..⟩
  · exact ⟨_, rfl⟩

theorem box_of_faultOnly {s t : State} (h : Only [.log, .therm, .link, .out] s t) (n : Nat) : t.box n = s.box n := by
  have hmbx : t.mbx = s.mbx := h.keeps .mbx (by decide)
  simp only [State.box, hmbx]

theorem sensorFault_faultsOnly (sn : Fin 48) (s : State) : FaultsOnly s (sensorFault sn s) := by
  refine ⟨?_, box_of_faultOnly (sensorFault_only _ (by decide) Only.refl)⟩
  unfold sensorFault
  split
  · exact ⟨_, _, _, rfl⟩
  · obtain ⟨g, hg⟩ := warnRise_therm sn (logUe .unit 0x0905 0x10 sn.val [sn.val]
      { s with therm := resumeTimer s.now { s.therm with faulted := setBit s.therm.faulted sn.val true } })
    rw [hg, logUe_therm]
    exact ⟨_, _, _, rfl⟩

/-- The sensor becomes faulted, and no other. -/
theorem sensorFault_faulted (sn i : Fin 48) (s : State) :
    (sensorFault sn s).therm.faulted.getLsbD i.val = (s.therm.faulted.getLsbD i.val || decide (i = sn)) := by
  unfold sensorFault
  split
  case isTrue h =>
    by_cases hi : i = sn
    · rw [hi, h]
      rfl
    · rw [decide_eq_false hi, Bool.or_false]
  case isFalse =>
    obtain ⟨g, hg⟩ := warnRise_therm sn (logUe .unit 0x0905 0x10 sn.val [sn.val]
      { s with therm := resumeTimer s.now { s.therm with faulted := setBit s.therm.faulted sn.val true } })
    rw [hg, logUe_therm]
    dsimp only [resumeTimer]
    rw [NetCerts.getLsbD_setBit _ _ _ _ sn.isLt]
    by_cases hi : i = sn
    · simp [hi]
    · rw [if_neg fun h => hi (Fin.ext h), decide_eq_false hi, Bool.or_false]

section Conversion

variable {mask : BitVec 48} {temps : Vector (BitVec 16) 48}

theorem faultOutOfRange_faultsOnly (l : List (Fin 48)) : ∀ s : State, FaultsOnly s (faultOutOfRange mask temps l s) := by
  induction l with
  | nil => exact FaultsOnly.refl
  | cons sn l ih =>
    intro s
    rw [faultOutOfRange]
    split
    · exact (sensorFault_faultsOnly sn s).trans (ih _)
    · exact ih s

/-- Exactly the sensors of the mask whose reading is out of range become faulted. -/
theorem faultOutOfRange_faulted (l : List (Fin 48)) : ∀ (s : State) (i : Fin 48),
    (faultOutOfRange mask temps l s).therm.faulted.getLsbD i.val =
      (s.therm.faulted.getLsbD i.val || (decide (i ∈ l) && (mask.getLsbD i.val && outOfRange temps[i]))) := by
  induction l with
  | nil => simp [faultOutOfRange]
  | cons sn l ih =>
    intro s i
    rw [faultOutOfRange, ih]
    split
    case isTrue h =>
      rw [sensorFault_faulted]
      by_cases hi : i = sn
      · subst hi
        simp only [h, List.mem_cons_self, decide_true, Bool.true_and, Bool.or_true, Bool.true_or]
      · simp [hi]
    case isFalse h =>
      by_cases hi : i = sn
      · subst hi
        rw [Bool.not_eq_true] at h
        rw [h, Bool.and_false, Bool.and_false]
      · simp [hi]

/-! ## The maximum -/

/-- One step of the search for the highest reading of the mask. -/
def higher (mask : BitVec 48) (temps : Vector (BitVec 16) 48) (b : Option (Fin 48)) (sn : Fin 48) : Option (Fin 48) :=
  if mask.getLsbD sn.val then
    match b with
    | none => some sn
    | some c => if tempOf temps[c] < tempOf temps[sn] then some sn else b
  else b

theorem convMax_eq (mask : BitVec 48) (temps : Vector (BitVec 16) 48) :
    convMax mask temps = (List.finRange 48).foldl (higher mask temps) none := rfl

/-- What a search has found: a sensor of the mask as high as any that it met. -/
def Best (mask : BitVec 48) (temps : Vector (BitVec 16) 48) (seen : Fin 48 → Prop) : Option (Fin 48) → Prop
  | none => ∀ i, seen i → mask.getLsbD i.val = false
  | some c => mask.getLsbD c.val = true ∧ ∀ i, seen i → mask.getLsbD i.val = true → tempOf temps[i] ≤ tempOf temps[c]

theorem best_higher {seen : Fin 48 → Prop} {b : Option (Fin 48)} {sn : Fin 48} (h : Best mask temps seen b) :
    Best mask temps (fun i => seen i ∨ i = sn) (higher mask temps b sn) := by
  unfold higher
  split
  case isTrue hbit =>
    cases b with
    | none =>
      refine ⟨hbit, fun i hi hmask => ?_⟩
      rcases hi with hi | rfl
      · exact absurd hmask (ne_true_of_eq_false (h i hi))
      · exact le_refl _
    | some c =>
      obtain ⟨hc, hbest⟩ := h
      dsimp only
      split
      case isTrue hlt =>
        refine ⟨hbit, fun i hi hmask => ?_⟩
        rcases hi with hi | rfl
        · exact (hbest i hi hmask).trans hlt.le
        · exact le_refl _
      case isFalse hge =>
        refine ⟨hc, fun i hi hmask => ?_⟩
        rcases hi with hi | rfl
        · exact hbest i hi hmask
        · exact not_lt.1 hge
  case isFalse hbit =>
    cases b with
    | none =>
      intro i hi
      rcases hi with hi | rfl
      · exact h i hi
      · simpa using hbit
    | some c =>
      refine ⟨h.1, fun i hi hmask => ?_⟩
      rcases hi with hi | rfl
      · exact h.2 i hi hmask
      · exact absurd hmask hbit

theorem best_foldl (l : List (Fin 48)) : ∀ {seen : Fin 48 → Prop} {b : Option (Fin 48)}, Best mask temps seen b →
    Best mask temps (fun i => seen i ∨ i ∈ l) (l.foldl (higher mask temps) b) := by
  induction l with
  | nil => simp
  | cons sn l ih =>
    intro seen b h
    have hnext := ih (best_higher (sn := sn) h)
    simpa only [List.foldl_cons, List.mem_cons, or_assoc] using hnext

theorem best_convMax (mask : BitVec 48) (temps : Vector (BitVec 16) 48) : Best mask temps (fun _ => True) (convMax mask temps) := by
  have h := best_foldl (mask := mask) (temps := temps) (List.finRange 48) (seen := fun _ => False) (b := none) (fun _ h => h.elim)
  simpa only [convMax_eq, List.mem_finRange, or_true] using h

/-! ## The end of a conversion (R485) -/

variable {who : ConvBy} {s : State}

/-- The readings are stored and the converter is idle. -/
def stored (mask : BitVec 48) (temps : Vector (BitVec 16) 48) (s : State) : State :=
  { s with therm := { s.therm with
      conv := none, temp := storeTemps mask temps (List.finRange 48) s.therm.temp, valid := s.therm.valid ||| mask } }

/-- The sensors out of range are faulted. -/
def judged (mask : BitVec 48) (temps : Vector (BitVec 16) 48) (s : State) : State :=
  faultOutOfRange mask temps (List.finRange 48) (stored mask temps s)

/-- The highest reading of the usable sensors. -/
def topOf (mask : BitVec 48) (temps : Vector (BitVec 16) 48) (s : State) : Option (Fin 48) :=
  convMax (mask &&& ~~~ (judged mask temps s).therm.faulted) temps

/-- THS_MAX has taken it. -/
def measured (mask : BitVec 48) (temps : Vector (BitVec 16) 48) (s : State) : State :=
  { judged mask temps s with therm := { (judged mask temps s).therm with
      maxValid := true, maxNone := (topOf mask temps s).isNone
      maxTemp := (topOf mask temps s).elim (judged mask temps s).therm.maxTemp fun sn => temps[sn]
      maxSensor := (topOf mask temps s).elim (judged mask temps s).therm.maxSensor Fin.val } }

/-- Whoever asked for the conversion gets its outcome. -/
def answered (mask : BitVec 48) (who : ConvBy) (u : State) : State :=
  match who with
  | .direct => u
  | .mailbox n => thermalReply n mask (setBox n { u.box n with await := none } u)
  | .training =>
    if u.aon.phase = .train ∧ u.aon.startSt ≠ .failed then
      if hbmCold u.therm then enterHold 0x02 u else leaveHold u
    else u

theorem exec_conversionDone (h : s.therm.conv = some (mask, who)) :
    exec (.conversionDone temps) s = .next (nextConv (answered mask who (measured mask temps s))) := by
  have hexec : exec (.conversionDone temps) s = execConversionDone temps s := rfl
  rw [hexec, execConversionDone, h]
  rfl

/-- The answer is no part of the thermal state. -/
theorem answered_therm (mask : BitVec 48) (who : ConvBy) (u : State) : (answered mask who u).therm = u.therm := by
  cases who with
  | direct => rfl
  | mailbox n => exact (thermalReply_only n mask (List.Subset.refl _) (setBox_only _ _ (by decide) Only.refl)).keeps .therm (by decide)
  | training =>
    simp only [answered]
    split
    · split
      · exact (enterHold_only _ (List.Subset.refl _) Only.refl).keeps .therm (by decide)
      · exact (leaveHold_only (List.Subset.refl _) Only.refl).keeps .therm (by decide)
    · rfl

/-- The next mailbox read takes the converter and leaves the rest of the thermal state. -/
theorem nextConv_therm (u : State) : ∃ c w, (nextConv u).therm = { u.therm with conv := c, convWait := w }
    ∧ (u.therm.convWait = [] → c = u.therm.conv) := by
  unfold nextConv
  split
  case h_1 => exact ⟨_, _, rfl, fun _ => rfl⟩
  case h_2 h => exact ⟨_, _, rfl, fun hnil => absurd (hnil.symm.trans h) (by simp)⟩

theorem nextConv_box (u : State) (n : Nat) : (nextConv u).box n = u.box n := by
  have hmbx : (nextConv u).mbx = u.mbx := (nextConv_only (List.Subset.refl _) Only.refl).keeps .mbx (by decide)
  simp only [State.box, hmbx]

/-- Every sensor of the mask that is not faulted is usable. -/
theorem usable_iff (u : State) (i : Fin 48) : (mask &&& ~~~ u.therm.faulted).getLsbD i.val = true ↔
    mask.getLsbD i.val = true ∧ u.therm.faulted.getLsbD i.val = false := by
  simp

theorem judged_faulted (i : Fin 48) : (judged mask temps s).therm.faulted.getLsbD i.val =
    (s.therm.faulted.getLsbD i.val || (mask.getLsbD i.val && outOfRange temps[i])) := by
  rw [judged, faultOutOfRange_faulted, decide_eq_true (List.mem_finRange i), Bool.true_and]
  rfl

theorem topOf_none_iff : (topOf mask temps s).isNone = true ↔
    ∀ i : Fin 48, mask.getLsbD i.val = true → (judged mask temps s).therm.faulted.getLsbD i.val = true := by
  have hbest := best_convMax (mask &&& ~~~ (judged mask temps s).therm.faulted) temps
  rw [← topOf] at hbest
  cases h : topOf mask temps s with
  | none =>
    rw [h] at hbest
    refine iff_of_true rfl fun i hi => ?_
    by_contra hf
    exact absurd ((usable_iff (judged mask temps s) i).2 ⟨hi, Bool.not_eq_true _ ▸ hf⟩) (ne_true_of_eq_false (hbest i trivial))
  | some c =>
    rw [h] at hbest
    obtain ⟨hmask, hfault⟩ := (usable_iff _ c).1 hbest.1
    exact iff_of_false Bool.false_ne_true fun hall => absurd (hall c hmask) (ne_true_of_eq_false hfault)

/-- THS_MAX after a conversion with a usable sensor. -/
theorem topOf_some (h : (topOf mask temps s).isNone = false) : ∃ i : Fin 48, topOf mask temps s = some i ∧ mask.getLsbD i.val = true
    ∧ (judged mask temps s).therm.faulted.getLsbD i.val = false
    ∧ ∀ j : Fin 48, mask.getLsbD j.val = true → (judged mask temps s).therm.faulted.getLsbD j.val = false →
      tempOf temps[j] ≤ tempOf temps[i] := by
  have hbest := best_convMax (mask &&& ~~~ (judged mask temps s).therm.faulted) temps
  rw [← topOf] at hbest
  cases htop : topOf mask temps s with
  | none => simp [htop] at h
  | some c =>
    rw [htop] at hbest
    obtain ⟨hmask, hfault⟩ := (usable_iff _ c).1 hbest.1
    exact ⟨c, rfl, hmask, hfault, fun j hj hf => hbest.2 j trivial ((usable_iff _ j).2 ⟨hj, hf⟩)⟩

theorem measured_box (n : Nat) : (measured mask temps s).box n = s.box n :=
  (faultOutOfRange_faultsOnly (mask := mask) (temps := temps) (List.finRange 48) (stored mask temps s)).box n

/-- Table TH-4: the mailbox that asked gets one response, NO_SENSOR when no sensor was usable. -/
theorem answered_mailbox (n : Nat) (u : State) : ∃ r, ((answered mask (.mailbox n) u).box n).outbox = (u.box n).outbox ++ [r]
    ∧ ((answered mask (.mailbox n) u).box n).await = none ∧ r.status = (if u.therm.maxNone then 0x11 else 0) := by
  simp only [answered, thermalReply]
  cases h : u.therm.maxNone with
  | true =>
    simp only [setBox_therm, h, if_true, replyFail, box_reply, box_setBox_self]
    exact ⟨_, rfl, trivial, rfl⟩
  | false =>
    simp only [setBox_therm, h, Bool.false_eq_true, if_false, replyDone, box_reply, box_setBox_self]
    exact ⟨_, rfl, trivial, rfl⟩

/-- R485: what a conversion leaves. -/
theorem conversion_ends (h : s.therm.conv = some (mask, who)) : Answers (.conversionDone temps) s fun t =>
    t.therm.valid = s.therm.valid ||| mask
    ∧ (∀ i : Fin 48, Tab.get 0 t.therm.temp i.val = if mask.getLsbD i.val then temps[i] else Tab.get 0 s.therm.temp i.val)
    ∧ (∀ i : Fin 48, t.therm.faulted.getLsbD i.val = (s.therm.faulted.getLsbD i.val || (mask.getLsbD i.val && outOfRange temps[i])))
    ∧ (t.therm.maxValid = true ∧ (t.therm.maxNone = true ↔ ∀ i : Fin 48, mask.getLsbD i.val = true → t.therm.faulted.getLsbD i.val = true))
    ∧ (t.therm.maxNone = false → ∃ i : Fin 48, t.therm.maxSensor = i.val ∧ t.therm.maxTemp = temps[i] ∧ mask.getLsbD i.val = true
      ∧ t.therm.faulted.getLsbD i.val = false ∧ ∀ j : Fin 48, mask.getLsbD j.val = true → t.therm.faulted.getLsbD j.val = false →
        tempOf temps[j] ≤ tempOf temps[i])
    ∧ (s.therm.convWait = [] → t.therm.conv = none)
    ∧ (∀ n, who = .mailbox n → ∃ r, (t.box n).outbox = (s.box n).outbox ++ [r] ∧ (t.box n).await = none
        ∧ r.status = (if t.therm.maxNone then 0x11 else 0)) := by
  refine ⟨_, exec_conversionDone h, ?_⟩
  obtain ⟨c, w, htherm, hconv⟩ := nextConv_therm (answered mask who (measured mask temps s))
  rw [answered_therm] at htherm hconv
  obtain ⟨f, r, g, hjudged⟩ := (faultOutOfRange_faultsOnly (mask := mask) (temps := temps) (List.finRange 48) (stored mask temps s)).therm
  have hstored : (judged mask temps s).therm = { (stored mask temps s).therm with faulted := f, resumeSince := r, targets := g } := hjudged
  have hmeasured : (measured mask temps s).therm.faulted = (judged mask temps s).therm.faulted := rfl
  simp only [htherm]
  refine ⟨?valid, fun i => ?temp, fun i => ?faulted, ⟨rfl, topOf_none_iff⟩, fun hsome => ?max, fun hwait => ?conv, fun n hn => ?answer⟩
  case valid => rw [measured, hstored]; rfl
  case temp =>
    have htemp : (measured mask temps s).therm.temp = storeTemps mask temps (List.finRange 48) s.therm.temp := by rw [measured, hstored]; rfl
    rw [htemp, get_storeTemps]
    simp
  case faulted => exact judged_faulted i
  case max =>
    obtain ⟨i, htop, hrest⟩ := topOf_some hsome
    refine ⟨i, ?_, ?_, hrest⟩ <;> simp [measured, htop]
  case conv =>
    have hidle : (measured mask temps s).therm.conv = none := by rw [measured, hstored]; rfl
    exact (hconv (by rw [measured, hstored]; exact hwait)).trans hidle
  case answer =>
    subst hn
    obtain ⟨r, hout, hawait, hstatus⟩ := answered_mailbox (mask := mask) n (measured mask temps s)
    rw [measured_box] at hout
    exact ⟨r, by rw [nextConv_box, hout], by rw [nextConv_box, hawait], hstatus⟩

end Conversion

/-! ## The commands (R496, Table TH-4) -/

section Commands

variable {n : Fin 16} {s : State}

/-- THERMAL_READ waits for its conversion. -/
def readWaits (n : Fin 16) (s : State) : State := setAwait n.val (.thermal (BitVec.allOnes 48)) (s.freed n)

theorem exec_thermalRead (hrun : Runs s n 0x0901) (hexp : (s.box n.val).exp = false) (husable : (BitVec.allOnes 48 &&& ~~~ s.therm.faulted) ≠ 0) :
    exec (.thermalRead n) s = .next (if s.therm.conv.isSome then
        { readWaits n s with therm := { s.therm with convWait := s.therm.convWait ++ [(n.val, BitVec.allOnes 48)] } }
      else startConv (BitVec.allOnes 48) (.mailbox n.val) (readWaits n s)) := by
  have hexec : exec (.thermalRead n) s = execThermalRead n s := rfl
  rw [hexec, execThermalRead, command_run hrun]
  · simp only [hexp, Bool.false_eq_true, if_false]
    rfl
  · rw [first_eq_none]
    refine ⟨rfl, rfl, failIf_eq_none.2 ?_, rfl, rfl⟩
    simp only [hexp, Bool.false_eq_true, if_false, Bool.false_and, Bool.or_false, decide_eq_false_iff_not]
    exact husable

theorem thermalRead_converts (hrun : Runs s n 0x0901) (hexp : (s.box n.val).exp = false)
    (husable : (BitVec.allOnes 48 &&& ~~~ s.therm.faulted) ≠ 0) :
    Answers (.thermalRead n) s fun t => (t.box n.val).await = some (.thermal (BitVec.allOnes 48))
      ∧ (s.therm.conv = none → t.therm = { s.therm with conv := some (BitVec.allOnes 48, .mailbox n.val) })
      ∧ (s.therm.conv.isSome = true → t.therm = { s.therm with convWait := s.therm.convWait ++ [(n.val, BitVec.allOnes 48)] })
      ∧ KeepsBut [.mbx, .therm] s t := by
  refine ⟨_, exec_thermalRead hrun hexp husable, ?_⟩
  have hwait : Only [.mbx, .therm] s (readWaits n s) := setAwait_only _ _ (by decide) (setBox_only _ _ (by decide) Only.refl)
  have hawait : ((readWaits n s).box n.val).await = some (.thermal (BitVec.allOnes 48)) := PinCerts.setAwait_await ..
  dsimp only
  split
  case isTrue h => exact ⟨hawait, fun hnone => absurd h (by simp [hnone]), fun _ => rfl, (Only.atTherm (by decide) hwait).keeps⟩
  case isFalse h => exact ⟨hawait, fun _ => rfl, fun hsome => absurd hsome h, (Only.atTherm (by decide) hwait).keeps⟩

theorem exec_thermalStatus (hrun : Runs s n 0x0902) : exec (.thermalStatus n) s = .next (replyDone n.val
    (two48 s.therm.warn ++ two48 s.therm.cold ++ two48 s.therm.faulted ++ [(thsLevel s).toNat, s.therm.haltCnt])
    (s.therm.halts.flatMap fun h => leBytes 8 h.tripTs ++ leBytes 8 h.sensor ++ leBytes 8 h.restartTs) (s.freed n)) := by
  have hexec : exec (.thermalStatus n) s = execThermalStatus n s := rfl
  rw [hexec, execThermalStatus, command_run hrun rfl]
  rfl

end Commands

/-- Settles O28: START by the grant, the end of a conversion by what it leaves, the commands by their answers. -/
theorem conversionsAndThermalCommands : Obligations.ConversionsAndThermalCommands :=
  ⟨fun _ _ hrel hup => ⟨exec_thsStart_granted hrel hup, exec_thsStart_denied hrel hup⟩, fun _ _ _ _ => conversion_ends,
    fun _ _ => ⟨thermalRead_converts, exec_thermalStatus⟩⟩

end Sys2Proof.ThermalCerts
end

section
/-!
PROOF. What the operations of the Gust ports leave to be read: a record, an interrupt or a message changes no port, and an operation on one
port changes no other (spec/17_gust_links_and_host.md R449 to R467).
-/
namespace Sys2Proof.PortCerts

open Sys2Proof.Machine Sys2Proof.Laws

variable {s : State}

theorem gport_congr {t : State} (h : t.link.ports = s.link.ports) (j : Nat) : t.gport j = s.gport j := by
  simp only [State.gport, h]

/-! ## Records and interrupts -/

@[simp] theorem ports_sendMsix (v : Nat) (s : State) : (sendMsix v s).link.ports = s.link.ports := by
  unfold sendMsix
  split
  · rfl
  · split <;> rfl

@[simp] theorem ports_logRec (cls : Cls) (code ut inst : Nat) (d : List Nat) (c : Contain) (s : State) :
    (logRec cls code ut inst d c s).link.ports = s.link.ports := by
  unfold logRec
  dsimp only
  split
  · exact ports_sendMsix ..
  · rfl

@[simp] theorem gport_logRec (cls : Cls) (code ut inst : Nat) (d : List Nat) (c : Contain) (s : State) (j : Nat) :
    (logRec cls code ut inst d c s).gport j = s.gport j := gport_congr (ports_logRec ..) j

@[simp] theorem gport_logInfo (code ut inst : Nat) (d : List Nat) (s : State) (j : Nat) :
    (logInfo code ut inst d s).gport j = s.gport j := gport_logRec ..

@[simp] theorem gport_logSec (code ut inst : Nat) (d : List Nat) (s : State) (j : Nat) :
    (logSec code ut inst d s).gport j = s.gport j := gport_logRec ..

@[simp] theorem gport_logUe (c : Contain) (code ut inst : Nat) (d : List Nat) (s : State) (j : Nat) :
    (logUe c code ut inst d s).gport j = s.gport j := gport_logRec ..

@[simp] theorem gport_sendMsix (v : Nat) (s : State) (j : Nat) : (sendMsix v s).gport j = s.gport j := gport_congr (ports_sendMsix ..) j

@[simp] theorem gport_send (m : Msg) (s : State) (j : Nat) : (send m s).gport j = s.gport j := rfl

@[simp] theorem gport_setBox (n : Nat) (m : Mbx) (s : State) (j : Nat) : (setBox n m s).gport j = s.gport j := rfl

@[simp] theorem gport_completeAwait (p : Await → Bool) (r : Reply) (s : State) (j : Nat) : (completeAwait p r s).gport j = s.gport j := rfl

/-! ## One port written -/

@[simp] theorem gport_modGport (k j : Nat) (f : GPort → GPort) (s : State) :
    (modGport k f s).gport j = if j = k then f (s.gport k) else s.gport j := setGport_gport ..

theorem gport_modSChan (k c j : Nat) (f : SChan → SChan) (s : State) : (modSChan k c f s).gport j =
    if j = k then { s.gport k with chans := Tab.put {} (s.gport k).chans c (f (s.chanOf k c)) } else s.gport j := gport_modGport ..

@[simp] theorem chanOf_modSChan_self (k c : Nat) (f : SChan → SChan) (s : State) : (modSChan k c f s).chanOf k c = f (s.chanOf k c) := by
  rw [State.chanOf, gport_modSChan, if_pos rfl]
  exact Tab.get_put_self

/-- A LINK flit takes the next LSEQ of its type. -/
@[simp] theorem gport_linkFlit (k ltype j : Nat) (what : String) (args : List Nat) (s : State) : (linkFlit k ltype what args s).gport j =
    if j = k then { s.gport k with lseqOut := Tab.put 0 (s.gport k).lseqOut ltype (Tab.get 0 (s.gport k).lseqOut ltype + 1) }
    else s.gport j := by
  have hmod := gport_modGport k j
    (fun p => { p with lseqOut := Tab.put 0 p.lseqOut ltype (Tab.get 0 (s.gport k).lseqOut ltype + 1) }) s
  unfold linkFlit
  split
  · exact hmod
  · exact hmod

@[simp] theorem chanOf_linkFlit (k ltype j c : Nat) (what : String) (args : List Nat) (s : State) :
    (linkFlit k ltype what args s).chanOf j c = s.chanOf j c := by
  rw [State.chanOf, gport_linkFlit]
  by_cases h : j = k
  · rw [if_pos h, h]
    rfl
  · rw [if_neg h]
    rfl

/-- A LINK flit that is not a LULL flit is one message. -/
theorem linkFlit_sent {k ltype : Nat} (h : ltype ≠ 3) (what : String) (args : List Nat) (s : State) :
    (linkFlit k ltype what args s).out.sent = .link k what (Tab.get 0 (s.gport k).lseqOut ltype :: args) :: s.out.sent := by
  simp only [linkFlit, if_neg h]
  rfl

/-- A change of state is a change of that port's state alone. -/
@[simp] theorem gport_setPortSt (k j : Nat) (st : PortSt) (s : State) : (setPortSt k st s).gport j =
    if j = k then { s.gport k with st := st } else s.gport j := by
  have hmod : ∀ u, (sendMsix (208 + k) (setUnitSt 0x07 k st.unit (modGport k (fun p => { p with st := st }) u))).gport j =
      if j = k then { u.gport k with st := st } else u.gport j := by
    intro u
    rw [gport_sendMsix]
    exact gport_modGport k j (fun p => { p with st := st }) u
  unfold setPortSt
  dsimp only
  split
  case isTrue h =>
    split
    case isTrue hj => rw [hj, ← h]
    case isFalse => rfl
  case isFalse h =>
    split
    · rw [gport_logInfo]
      exact hmod s
    · exact hmod s

/-- Only entering UP writes a record. -/
theorem setPortSt_quiet {k : Nat} {st : PortSt} (hst : st ≠ .up) (s : State) : Only [.units, .link, .out] s (setPortSt k st s) := by
  unfold setPortSt
  dsimp only
  split
  · exact Only.refl
  · exact sendMsix_only _ (by decide) (setUnitSt_only _ _ _ (by decide) (modGport_only _ _ (by decide) Only.refl))

/-- Training starts over on that port alone. -/
theorem gport_startTraining (k j : Nat) (s : State) (h : j ≠ k) : (startTraining k s).gport j = s.gport j := by
  unfold startTraining
  dsimp only
  rw [gport_setPortSt, if_neg h, setGport_gport, if_neg h]

theorem startTraining_step (k : Nat) (s : State) : ((startTraining k s).gport k).st = .training ∧ ((startTraining k s).gport k).step = 1
    ∧ ((startTraining k s).gport k).retry = [] ∧ ((startTraining k s).gport k).chans = []
    ∧ ((startTraining k s).gport k).retrained = (s.gport k).retrained := by
  unfold startTraining
  dsimp only
  rw [gport_setPortSt, if_pos rfl, setGport_gport, if_pos rfl]
  exact ⟨rfl, rfl, rfl, rfl, rfl⟩

theorem startTraining_quiet (k : Nat) (s : State) : Only [.units, .link, .out] s (startTraining k s) :=
  (setGport_only _ _ (by decide) Only.refl).trans (setPortSt_quiet (by decide) _)

end Sys2Proof.PortCerts
end

section
/-!
PROOF. The counters of the links and the link commands (spec/17_gust_links_and_host.md R465, R466, R480, R481).
-/
namespace Sys2Proof.LinkCommandCerts

open Sys2Proof.Machine Sys2Proof.Laws Sys2Proof.CommandCerts Sys2Proof.PortCerts

/-! ## Counters (R480) -/

theorem txctrLo_read (k : Fin 12) {s : State} (hmain : s.mainDown = false) : Answers (.glkTxctrLoRead k) s fun t =>
    t.out.readData = BitVec.ofNat 32 (s.chanOf k.val 0).tx
    ∧ t.gport k.val = { s.gport k.val with txHi := BitVec.ofNat 32 ((s.chanOf k.val 0).tx / 2 ^ 32) }
    ∧ (∀ j, j ≠ k.val → t.gport j = s.gport j) ∧ KeepsBut [.link, .out] s t := by
  have hport := fun j => gport_modGport k.val j (fun p => { p with txHi := BitVec.ofNat 32 ((s.chanOf k.val 0).tx / 2 ^ 32) }) s
  refine ⟨_, congrArg Host.Outcome.next (if_neg (by rw [hmain]; exact Bool.false_ne_true)), rfl, ?_, fun j hj => ?_,
    (Only.atOut (by decide) (modGport_only _ _ (by decide) Only.refl)).keeps⟩
  · exact (hport k.val).trans (if_pos rfl)
  · exact (hport j).trans (if_neg hj)

/-- Each port of the list that the mask names starts its counters again, once or more. -/
theorem clearPorts_gport (val : Word) (l : List Nat) : ∀ (s : State) (j : Nat),
    (clearPorts val l s).gport j = if j ∈ l ∧ bit val j = true then (s.gport j).cleared else s.gport j := by
  induction l with
  | nil => simp [clearPorts]
  | cons k l ih =>
    intro s j
    rw [clearPorts, ih]
    by_cases hj : j = k
    · subst hj
      cases hbit : bit val j
      · simp
      · simp only [if_true, gport_modGport, List.mem_cons_self, and_self, and_true]
        split <;> rfl
    · have hskip : (if bit val k then modGport k GPort.cleared s else s).gport j = s.gport j := by
        split
        · rw [gport_modGport, if_neg hj]
        · rfl
      rw [hskip]
      simp only [List.mem_cons, hj, false_or]

/-- Besides the ports, clearing them leaves the links as they are. -/
theorem clearPorts_link (val : Word) (l : List Nat) : ∀ s : State, ∃ p, (clearPorts val l s).link = { s.link with ports := p } := by
  induction l with
  | nil => exact fun s => ⟨_, rfl⟩
  | cons k l ih =>
    intro s
    rw [clearPorts]
    split
    · obtain ⟨p, hp⟩ := ih (modGport k GPort.cleared s)
      exact ⟨p, by rw [hp]; rfl⟩
    · exact ih s

/-- The late count of a CXL port starts again where the bit is set. -/
def clearLate (b : Bool) (k : Nat) (s : State) : State := if b then modCxl k (fun p => { p with late := 0 }) s else s

theorem clearLate_only (b : Bool) (k : Nat) (s : State) : Only [.link] s (clearLate b k s) := by
  unfold clearLate
  split
  · exact modCxl_only _ _ (by decide) Only.refl
  · exact Only.refl

theorem clearLate_link (b : Bool) (k : Nat) (s : State) : ∃ c, (clearLate b k s).link = { s.link with cxl := c } := by
  unfold clearLate
  split <;> exact ⟨_, rfl⟩

theorem clearLate_gport (b : Bool) (k : Nat) (s : State) (j : Nat) : (clearLate b k s).gport j = s.gport j := by
  obtain ⟨c, hc⟩ := clearLate_link b k s
  exact gport_congr (by rw [hc]) j

theorem clearLate_cxlPort (b : Bool) (k : Nat) (s : State) (j : Nat) : (clearLate b k s).cxlPort j =
    if j = k ∧ b = true then { s.cxlPort k with late := 0 } else s.cxlPort j := by
  cases b
  · simp [clearLate]
  · simp [clearLate, modCxl_cxlPort]

/-- The ports and the CXL ports as GLK_CLEAR leaves them. -/
def portsCleared (val : Word) (s : State) : State :=
  clearLate (bit val 14) 1 (clearLate (bit val 13) 0 (clearPorts val (List.range 12) s))

theorem exec_glkClear {path : Path} {val : Word} {s : State} (hpath : path ≠ .oob) (hrel : s.released = true) (hmain : s.mainDown = false)
    (hgrant : s.aon.grantHost.isSome = true) : exec (.glkClear path val) s = .next { portsCleared val s with
      link := { (portsCleared val s).link with
        hostLate := if bit val 12 then 0 else (portsCleared val s).link.hostLate
        bar2Deny := if bit val 15 then 0 else (portsCleared val s).link.bar2Deny } } := by
  have hexec : exec (.glkClear path val) s = .next (writeGlkClear path val s) := rfl
  have hsome : s.aon.grantHost.isNone = false := by rw [← Option.not_isSome, hgrant, Bool.not_true]
  rw [hexec, writeGlkClear, if_neg (by simp [hpath, hrel]), hmain, if_neg Bool.false_ne_true, hsome, if_neg Bool.false_ne_true]
  rfl

theorem glkClear_clears {path : Path} {val : Word} {s : State} (hpath : path ≠ .oob) (hrel : s.released = true) (hmain : s.mainDown = false)
    (hgrant : s.aon.grantHost.isSome = true) : Answers (.glkClear path val) s fun t =>
      (∀ k, k < 12 → t.gport k = if bit val k then (s.gport k).cleared else s.gport k)
      ∧ (∀ k, k < 2 → t.cxlPort k = if bit val (13 + k) then { s.cxlPort k with late := 0 } else s.cxlPort k)
      ∧ t.link.hostLate = (if bit val 12 then 0 else s.link.hostLate) ∧ t.link.bar2Deny = (if bit val 15 then 0 else s.link.bar2Deny)
      ∧ KeepsBut [.link] s t := by
  obtain ⟨p, hp⟩ := clearPorts_link val (List.range 12) s
  obtain ⟨c, hc⟩ := clearLate_link (bit val 13) 0 (clearPorts val (List.range 12) s)
  obtain ⟨c', hc'⟩ := clearLate_link (bit val 14) 1 (clearLate (bit val 13) 0 (clearPorts val (List.range 12) s))
  have hlink : (portsCleared val s).link = { s.link with ports := p, cxl := c' } := by rw [portsCleared, hc', hc, hp]
  have hcxl : ∀ k, (clearPorts val (List.range 12) s).cxlPort k = s.cxlPort k := fun k => by simp only [State.cxlPort, hp]
  refine ⟨_, exec_glkClear hpath hrel hmain hgrant, fun k hk => ?port, fun k hk => ?cxl, by rw [hlink], by rw [hlink], ?keeps⟩
  case port =>
    have hports : (portsCleared val s).gport k = (clearPorts val (List.range 12) s).gport k := by
      rw [portsCleared, clearLate_gport, clearLate_gport]
    refine (hports.trans (clearPorts_gport val (List.range 12) s k)).trans ?_
    simp only [List.mem_range, hk, true_and]
  case cxl =>
    have hcxls : (portsCleared val s).cxlPort k = if bit val (13 + k) then { s.cxlPort k with late := 0 } else s.cxlPort k := by
      rw [portsCleared, clearLate_cxlPort, clearLate_cxlPort, clearLate_cxlPort, hcxl, hcxl, hcxl]
      obtain rfl | rfl : k = 0 ∨ k = 1 := by omega
      · simp
      · simp
    exact hcxls
  case keeps =>
    exact (Only.atLink (by decide) ((clearPorts_only _ _ (by decide) Only.refl).trans
      ((clearLate_only _ _ _).trans (clearLate_only _ _ _)))).keeps

/-! ## Epochs (R226, R519) -/

/-- With no epoch under way, a unit that leaves begins the next one, whose plan names it. -/
theorem leaveNext_starts {ut inst : Nat} {u : State} (h : u.net.stage = 0) :
    (leaveNext ut inst u).net.stage = 1 ∧ (ut, inst) ∈ (leaveNext ut inst u).net.plan.leaves := by
  refine ⟨EpochCerts.startEpoch_stage h, ?_⟩
  have hplan : (leaveNext ut inst u).net.plan.leaves = u.net.next.leaves ++ [(ut, inst)] :=
    congrArg EpochPlan.leaves (EpochCerts.startEpoch_plan (s := { u with net := { u.net with
      next := { u.net.next with leaves := u.net.next.leaves ++ [(ut, inst)] } } }) h)
  rw [hplan]
  exact List.mem_append_right _ (List.mem_singleton.2 rfl)

/-! ## The commands (R465, R466, R481) -/

section Commands

variable {n : Fin 16} {s : State}

theorem exec_linkStatus (hpart : mbxPart s n.val = 0) (hrun : Runs s n 0x0701) (hexp : (s.box n.val).exp = false)
    (hk : (s.box n.val).arg 0 < 12) (htrain : portTraining s ((s.box n.val).arg 0) = false) :
    let k := (s.box n.val).arg 0
    let p := s.gport k
    exec (.linkStatus n) s =
      .next (replyDone n.val [p.st.code, (p.far.getD (0, 0, 0, 0, 0)).1, (p.far.getD (0, 0, 0, 0, 0)).2.1, (p.far.getD (0, 0, 0, 0, 0)).2.2.1,
        212500 * p.lanes, p.lanes] ((chanList s k).flatMap (chanBytes s k) ++ glkBytes p) (s.freed n)) := by
  have hexec : exec (.linkStatus n) s = execLinkStatus n s := rfl
  dsimp only
  rw [hexec, execLinkStatus, command_run hrun]
  · dsimp only
    rw [hexp, if_neg Bool.false_ne_true, if_neg Bool.false_ne_true, List.append_nil]
    rfl
  · simp [first_eq_none, failIf_eq_none, portFrom0, hpart, hk, htrain]

/-- A port that is down trains again. -/
theorem exec_linkRetrain_down (hpart : mbxPart s n.val = 0) (hrun : Runs s n 0x0702) (hk : (s.box n.val).arg 0 < 12)
    (hexp : (s.box n.val).exp = false) (hst : (s.gport ((s.box n.val).arg 0)).st ∈ [.down, .authFail, .faulted, .offline]) :
    exec (.linkRetrain n) s = .next (modGport ((s.box n.val).arg 0) (fun p => { p with lanes := 4 })
      (startTraining ((s.box n.val).arg 0) (setAwait n.val (.linkTrain ((s.box n.val).arg 0)) (s.freed n)))) := by
  have hexec : exec (.linkRetrain n) s = execLinkRetrain n s := rfl
  have hlanes : laneLimit (s.box n.val) = 4 := by simp [laneLimit, hexp]
  simp only [List.mem_cons, List.not_mem_nil, or_false] at hst
  have hup : (s.gport ((s.box n.val).arg 0)).st ≠ .up := by rcases hst with h | h | h | h <;> simp [h]
  rw [hexec, execLinkRetrain, command_run hrun]
  · dsimp only
    rw [if_neg (show ¬ ((s.freed n).gport ((s.box n.val).arg 0)).st = .up from hup), hlanes]
  · have hmis : (s.gport ((s.box n.val).arg 0)).st ≠ .miswired := by rcases hst with h | h | h | h <;> simp [h]
    have htrain : portTraining s ((s.box n.val).arg 0) = false := by rcases hst with h | h | h | h <;> simp [portTraining, h]
    simp [first_eq_none, firstFail_cons_eq_none, failIf_eq_none, portFrom0, hpart, hk, hexp, hup, hmis, htrain]

theorem linkRetrain_trains (hpart : mbxPart s n.val = 0) (hrun : Runs s n 0x0702) (hk : (s.box n.val).arg 0 < 12)
    (hexp : (s.box n.val).exp = false) (hst : (s.gport ((s.box n.val).arg 0)).st ∈ [.down, .authFail, .faulted, .offline]) :
    Answers (.linkRetrain n) s fun t => let k := (s.box n.val).arg 0
      (t.gport k).st = .training ∧ (t.gport k).step = 1 ∧ (t.gport k).lanes = 4 ∧ (∀ j, j ≠ k → t.gport j = s.gport j)
      ∧ (t.box n.val).await = some (.linkTrain k) ∧ KeepsBut [.mbx, .units, .link, .out] s t := by
  refine ⟨_, exec_linkRetrain_down hpart hrun hk hexp hst, ?_⟩
  generalize (s.box n.val).arg 0 = k
  obtain ⟨htrain, hstep, -⟩ := startTraining_step k (setAwait n.val (.linkTrain k) (s.freed n))
  have hwait : Only [.mbx, .units, .link, .out] s (setAwait n.val (.linkTrain k) (s.freed n)) :=
    setAwait_only _ _ (by decide) (setBox_only _ _ (by decide) Only.refl)
  have hbox : (startTraining k (setAwait n.val (.linkTrain k) (s.freed n))).mbx = (setAwait n.val (.linkTrain k) (s.freed n)).mbx :=
    (startTraining_quiet k _).keeps .mbx (by decide)
  have hothers : ∀ j, j ≠ k → (startTraining k (setAwait n.val (.linkTrain k) (s.freed n))).gport j = s.gport j :=
    fun j hj => gport_startTraining k j _ hj
  have htrained := hwait.trans ((startTraining_quiet k (setAwait n.val (.linkTrain k) (s.freed n))).mono (by decide))
  generalize startTraining k (setAwait n.val (.linkTrain k) (s.freed n)) = u at *
  dsimp only
  refine ⟨?_, ?_, ?_, fun j hj => ?_, ?_, (modGport_only _ _ (by decide) htrained).keeps⟩
  · rw [gport_modGport, if_pos rfl]; exact htrain
  · rw [gport_modGport, if_pos rfl]; exact hstep
  · rw [gport_modGport, if_pos rfl]
  · rw [gport_modGport, if_neg hj, hothers j hj]
  · exact (congrArg Mbx.await (box_congr hbox n.val)).trans (PinCerts.setAwait_await ..)

/-- What a port that leaves with the next epoch is waiting for. -/
theorem leaving_effect {a : Await} {k : Nat} (hstage : s.net.stage = 0) :
    let t := leaveNext 0x07 k (setAwait n.val a (s.freed n))
    t.net.stage = 1 ∧ (0x07, k) ∈ t.net.plan.leaves ∧ (t.box n.val).await = some a ∧ t.link = s.link ∧ KeepsBut [.mbx, .net] s t := by
  obtain ⟨hnow, hleaves⟩ := leaveNext_starts (ut := 0x07) (inst := k) (u := setAwait n.val a (s.freed n)) hstage
  have hwait : Only [.mbx, .net] s (setAwait n.val a (s.freed n)) := setAwait_only _ _ (by decide) (setBox_only _ _ (by decide) Only.refl)
  have hall : Only [.mbx, .net] s (leaveNext 0x07 k (setAwait n.val a (s.freed n))) := leaveNext_only _ _ (by decide) hwait
  have hbox : (leaveNext 0x07 k (setAwait n.val a (s.freed n))).mbx = (setAwait n.val a (s.freed n)).mbx :=
    (leaveNext_only 0x07 k (gs := [.net]) (by decide) Only.refl).keeps .mbx (by decide)
  refine ⟨hnow, hleaves, ?_, hall.keeps .link (by decide), hall.keeps⟩
  exact (congrArg Mbx.await (box_congr hbox n.val)).trans (PinCerts.setAwait_await n.val a (s.freed n))

/-- The expert form takes an UP port out with the next epoch first. -/
theorem exec_linkRetrain_up (hpart : mbxPart s n.val = 0) (hrun : Runs s n 0x0702) (hk : (s.box n.val).arg 0 < 12)
    (hexp : (s.box n.val).exp = true) (hlanes : (s.box n.val).arg 1 ≤ 4) (hst : (s.gport ((s.box n.val).arg 0)).st = .up)
    (hstage : s.net.stage = 0) : exec (.linkRetrain n) s = .next (leaveNext 0x07 ((s.box n.val).arg 0)
      (setAwait n.val (.linkTrain ((s.box n.val).arg 0)) (s.freed n))) := by
  have hexec : exec (.linkRetrain n) s = execLinkRetrain n s := rfl
  rw [hexec, execLinkRetrain, command_run hrun]
  · dsimp only
    rw [if_pos (show ((s.freed n).gport ((s.box n.val).arg 0)).st = .up from hst)]
  · simp [first_eq_none, firstFail_cons_eq_none, failIf_eq_none, portFrom0, portTraining, epochPending, hpart, hk, hexp, hlanes, hst, hstage]

theorem exec_linkOffline_down (hpart : mbxPart s n.val = 0) (hrun : Runs s n 0x0704) (hexp : (s.box n.val).exp = false)
    (hk : (s.box n.val).arg 0 < 12) (hstage : s.net.stage = 0)
    (hst : (s.gport ((s.box n.val).arg 0)).st ∈ [.down, .authFail, .faulted, .offline]) :
    exec (.linkOffline n) s = .next (replyDone n.val [] [] (setPortSt ((s.box n.val).arg 0) .offline (s.freed n))) := by
  have hexec : exec (.linkOffline n) s = execLinkOffline n s := rfl
  simp only [List.mem_cons, List.not_mem_nil, or_false] at hst
  have hup : (s.gport ((s.box n.val).arg 0)).st ≠ .up := by rcases hst with h | h | h | h <;> simp [h]
  have hmis : (s.gport ((s.box n.val).arg 0)).st ≠ .miswired := by rcases hst with h | h | h | h <;> simp [h]
  have htrain : portTraining s ((s.box n.val).arg 0) = false := by rcases hst with h | h | h | h <;> simp [portTraining, h]
  rw [hexec, execLinkOffline, command_run hrun]
  · dsimp only
    rw [if_pos (show ((s.freed n).gport ((s.box n.val).arg 0)).st ≠ .up from hup)]
  · simp [first_eq_none, firstFail_cons_eq_none, failIf_eq_none, portFrom0, epochPending, hpart, hk, hexp, hmis, htrain, hstage]

theorem linkOffline_down (hpart : mbxPart s n.val = 0) (hrun : Runs s n 0x0704) (hexp : (s.box n.val).exp = false)
    (hk : (s.box n.val).arg 0 < 12) (hstage : s.net.stage = 0)
    (hst : (s.gport ((s.box n.val).arg 0)).st ∈ [.down, .authFail, .faulted, .offline]) :
    Answers (.linkOffline n) s fun t => let k := (s.box n.val).arg 0
      (t.gport k).st = .offline ∧ (∀ j, j ≠ k → t.gport j = s.gport j)
      ∧ (t.box n.val).outbox = (s.box n.val).outbox ++ [{ status := 0 }] ∧ KeepsBut [.mbx, .units, .link, .out] s t := by
  refine ⟨_, exec_linkOffline_down hpart hrun hexp hk hstage hst, ?_⟩
  generalize (s.box n.val).arg 0 = k
  have hquiet := setPortSt_quiet (k := k) (st := .offline) (by decide) (s.freed n)
  have hport : ∀ j, (replyDone n.val [] [] (setPortSt k .offline (s.freed n))).gport j =
      if j = k then { s.gport k with st := .offline } else s.gport j := fun j => gport_setPortSt k j .offline (s.freed n)
  dsimp only
  refine ⟨?_, fun j hj => ?_, AttestCerts.replyDone_outbox_of_freed (hquiet.keeps .mbx (by decide)) [] [],
    (replyDone_only _ _ _ (by decide) ((setBox_only _ _ (by decide) Only.refl).trans (hquiet.mono (by decide)))).keeps⟩
  · rw [hport, if_pos rfl]
  · rw [hport, if_neg hj]

theorem exec_linkOffline_up (hpart : mbxPart s n.val = 0) (hrun : Runs s n 0x0704) (hexp : (s.box n.val).exp = false)
    (hk : (s.box n.val).arg 0 < 12) (hstage : s.net.stage = 0) (hst : (s.gport ((s.box n.val).arg 0)).st = .up) :
    exec (.linkOffline n) s = .next (leaveNext 0x07 ((s.box n.val).arg 0)
      (setAwait n.val (.unitOffline 0x07 ((s.box n.val).arg 0)) (s.freed n))) := by
  have hexec : exec (.linkOffline n) s = execLinkOffline n s := rfl
  rw [hexec, execLinkOffline, command_run hrun]
  · dsimp only
    rw [if_neg (show ¬ ((s.freed n).gport ((s.box n.val).arg 0)).st ≠ .up from not_not.2 hst), hexp]
    rfl
  · simp [first_eq_none, firstFail_cons_eq_none, failIf_eq_none, portFrom0, portTraining, epochPending, hpart, hk, hexp, hst, hstage]

theorem exec_cxlStatus (hpart : mbxPart s n.val = 0) (hrun : Runs s n 0x0705) (hexp : (s.box n.val).exp = false)
    (hk : (s.box n.val).arg 0 < 2) : let k := (s.box n.val).arg 0
    exec (.cxlStatus n) s =
      .next (replyDone n.val [b2n (s.cxlPort k).up, (s.cxlPort k).cap * 4096, (s.cxlPort k).poisons, (s.cxlPort k).timeouts, (s.cxlPort k).late]
        ((List.range 4).flatMap fun i => leBytes 4 (Config.freeNat (s.freeCtr + i))) { s.freed n with freeCtr := s.freeCtr + 4 }) := by
  have hexec : exec (.cxlStatus n) s = execCxlStatus n s := rfl
  dsimp only
  rw [hexec, execCxlStatus, command_run hrun]
  · dsimp only
    rw [hexp, if_neg Bool.false_ne_true, if_neg Bool.false_ne_true, List.append_nil]
    rfl
  · simp [first_eq_none, failIf_eq_none, portFrom0, hpart, hk]

end Commands

/-! ## Rekeys (R464, R465) -/

theorem startHandshake_chans (k j c : Nat) (s : State) : (startHandshake k s).chanOf j c = s.chanOf j c := by
  unfold startHandshake
  dsimp only
  rw [chanOf_linkFlit, State.chanOf, gport_modGport]
  by_cases h : j = k
  · rw [if_pos h, h]
    rfl
  · rw [if_neg h]
    rfl

theorem startHandshake_other {k j : Nat} (s : State) (h : j ≠ k) : (startHandshake k s).gport j = s.gport j := by
  unfold startHandshake
  dsimp only
  rw [gport_linkFlit, if_neg h, gport_modGport, if_neg h]
  rfl

theorem startCxHs_link (i : Nat) (f : CxFor) (s : State) : (startCxHs i f s).link = s.link := by
  unfold startCxHs
  split
  · rfl
  · rfl

/-- A rekey marks the channel's handshake and touches no other port. -/
theorem startRekey_effect {k c : Nat} {s : State} (hepoch : (s.chanOf k c).txEpoch < 0xFFFFFFFF) :
    ((startRekey k c s).chanOf k c).handshake = true ∧ ∀ j, j ≠ k → (startRekey k c s).gport j = s.gport j := by
  unfold startRekey
  split
  case isTrue h =>
    simp only [Bool.or_eq_true, decide_eq_true_eq] at h
    exact ⟨h.resolve_right (by omega), fun _ _ => rfl⟩
  case isFalse =>
    have hmod : ∀ j, j ≠ k → (modSChan k c (fun x => { x with handshake := true }) s).gport j = s.gport j := fun j hj => by
      rw [gport_modSChan, if_neg hj]
    dsimp only
    split
    case isTrue =>
      have hports := startCxHs_link c .rekey (modSChan k c (fun x => { x with handshake := true }) s)
      have hgport := gport_congr (congrArg Links.ports hports)
      refine ⟨?_, fun j hj => (hgport j).trans (hmod j hj)⟩
      rw [State.chanOf, hgport]
      exact congrArg SChan.handshake (chanOf_modSChan_self k c _ s)
    case isFalse =>
      refine ⟨?_, fun j hj => (startHandshake_other _ hj).trans (hmod j hj)⟩
      rw [startHandshake_chans, chanOf_modSChan_self]

theorem exec_linkRekey {n : Fin 16} {s : State} (hrun : Runs s n 0x0703) (hmay : mayRekey s n.val (s.box n.val) = true)
    (hk : (s.box n.val).arg 0 < 12) (hchan : channelNamed s ((s.box n.val).arg 0) ((s.box n.val).arg 1) = true)
    (hst : (s.gport ((s.box n.val).arg 0)).st = .up) (hepoch : (s.chanOf ((s.box n.val).arg 0) ((s.box n.val).arg 1)).txEpoch < 0xFFFFFFFF) :
    exec (.linkRekey n) s = .next (startRekey ((s.box n.val).arg 0) ((s.box n.val).arg 1)
      (setAwait n.val (.linkRekey ((s.box n.val).arg 0) ((s.box n.val).arg 1)) (s.freed n))) := by
  have hexec : exec (.linkRekey n) s = execLinkRekey n s := rfl
  rw [hexec, execLinkRekey, command_run hrun]
  simp [first_eq_none, firstFail_cons_eq_none, failIf_eq_none, hmay, hk, hchan, hst, hepoch]

theorem linkRekey_starts {n : Fin 16} {s : State} (hrun : Runs s n 0x0703) (hmay : mayRekey s n.val (s.box n.val) = true)
    (hk : (s.box n.val).arg 0 < 12) (hchan : channelNamed s ((s.box n.val).arg 0) ((s.box n.val).arg 1) = true)
    (hst : (s.gport ((s.box n.val).arg 0)).st = .up) (hepoch : (s.chanOf ((s.box n.val).arg 0) ((s.box n.val).arg 1)).txEpoch < 0xFFFFFFFF) :
    Answers (.linkRekey n) s fun t => let k := (s.box n.val).arg 0
      let c := (s.box n.val).arg 1
      (t.chanOf k c).handshake = true ∧ (∀ j, j ≠ k → t.gport j = s.gport j) ∧ (t.box n.val).await = some (.linkRekey k c)
      ∧ KeepsBut [.mbx, .sealed, .link, .out, .freeCtr] s t := by
  refine ⟨_, exec_linkRekey hrun hmay hk hchan hst hepoch, ?_⟩
  generalize (s.box n.val).arg 0 = k at *
  generalize (s.box n.val).arg 1 = c at *
  obtain ⟨hmark, hothers⟩ := startRekey_effect (k := k) (c := c) (s := setAwait n.val (.linkRekey k c) (s.freed n)) hepoch
  have hbox : (startRekey k c (setAwait n.val (.linkRekey k c) (s.freed n))).mbx = (setAwait n.val (.linkRekey k c) (s.freed n)).mbx :=
    (startRekey_only k c (gs := [.sealed, .link, .out, .freeCtr]) (by decide) Only.refl).keeps .mbx (by decide)
  refine ⟨hmark, hothers, ?_,
    (startRekey_only _ _ (by decide) (setAwait_only _ _ (by decide) (setBox_only _ _ (by decide) Only.refl))).keeps⟩
  exact (congrArg Mbx.await (box_congr hbox n.val)).trans (PinCerts.setAwait_await ..)

/-- Settles O60: the counters by what a read and a clear leave, each command on the path of its clause. -/
theorem linkCommands : Obligations.LinkCommands := by
  refine ⟨fun k s => txctrLo_read k, fun path val s => glkClear_clears, fun n s hpart => ⟨exec_linkStatus hpart, fun hrun hk =>
    ⟨linkRetrain_trains hpart hrun hk, fun hexp hlanes hst hstage => ⟨_, exec_linkRetrain_up hpart hrun hk hexp hlanes hst hstage,
      leaving_effect hstage⟩⟩, fun hrun hexp hk hstage => ⟨linkOffline_down hpart hrun hexp hk hstage, fun hst =>
      ⟨_, exec_linkOffline_up hpart hrun hexp hk hstage hst, leaving_effect hstage⟩⟩, exec_cxlStatus hpart⟩, fun n s => linkRekey_starts⟩

end Sys2Proof.LinkCommandCerts
end

section
/-!
PROOF. Translations, invalidations and MMU_STATUS (spec/12_translation_dma_preemption.md R313 to R322, R338; the cache aperture of
spec/14_pages_prefixes_adapters_drift.md R372).
-/
namespace Sys2Proof.TranslationCerts

open Sys2Proof.Machine Sys2Proof.Laws Sys2Proof.CommandCerts

/-! ## Walks (R314 to R318) -/

/-- A leaf that passes every check gives a translation of the access's partition that covers its DVA. -/
theorem leafChecks_covers {s : State} {a : Access} {l e : Nat} {t : TlbEntry} (h : leafChecks s a l e = .ok t) :
    t.part = a.part ∧ t.dva ≤ a.dva ∧ a.dva < t.dva + t.size := by
  have hsize : 0 < leafSize l := Nat.two_pow_pos _
  unfold leafChecks at h
  dsimp only at h
  split at h
  · exact absurd h (by simp)
  · split at h
    · exact absurd h (by simp)
    · split at h
      · exact absurd h (by simp)
      · split at h
        · exact absurd h (by simp)
        · obtain rfl := Except.ok.inj h
          exact ⟨rfl, Nat.div_mul_le_self .., Nat.lt_div_mul_add hsize⟩

theorem walkFrom_covers {a : Access} {e : TlbEntry} (k : Nat) : ∀ {l tbl : Nat} {s : State}, (walkFrom a k l tbl s).1 = .ok e →
    e.part = a.part ∧ e.dva ≤ a.dva ∧ a.dva < e.dva + e.size := by
  induction k with
  | zero => exact fun h => absurd h (by simp [walkFrom])
  | succ k ih =>
    intro l tbl s h
    unfold walkFrom at h
    dsimp only at h
    split at h
    · exact absurd h (by simp)
    · split at h
      · exact absurd h (by simp)
      · split at h
        · exact absurd h (by simp)
        · split at h
          · exact absurd h (by simp)
          · split at h
            · exact leafChecks_covers h
            · exact ih h

theorem walk_covers {a : Access} {s : State} {e : TlbEntry} (h : (walk a s).1 = .ok e) :
    e.part = a.part ∧ e.dva ≤ a.dva ∧ a.dva < e.dva + e.size := by
  unfold walk at h
  split at h
  · exact absurd h (by simp)
  · split at h
    · exact absurd h (by simp)
    · exact walkFrom_covers _ h

/-- A walk reads memory alone: it changes no byte, no translation and no queue, and takes no time. -/
theorem walk_keeps (a : Access) (s : State) : (walk a s).2.mmu = s.mmu ∧ (walk a s).2.mem.bytes = s.mem.bytes ∧ (walk a s).2.aon = s.aon := by
  have hwalk := (walk_only a (List.Subset.refl _) (Only.refl (s := s))).keeps
  exact ⟨hwalk .mmu (by decide), hwalk .bytes (by decide), hwalk .aon (by decide)⟩

/-! ## Faults (R321, R322) -/

theorem sendMsix_mmu (v : Nat) (s : State) : (sendMsix v s).mmu = s.mmu :=
  (sendMsix_only v (List.Subset.refl _) Only.refl).keeps .mmu (by decide)

theorem logLimitedAt_mmu (key period : Nat) (cls : Cls) (code ut inst : Nat) (d : List Nat) (c : Contain) (s : State) :
    (logLimitedAt key period cls code ut inst d c s).mmu = s.mmu :=
  (logLimitedAt_only _ _ _ _ _ _ _ _ (List.Subset.refl _) Only.refl).keeps .mmu (by decide)

/-- A fault changes no translation and no memory. -/
theorem mmuFault_tlb (a : Access) (c l : Nat) (s : State) : (mmuFault a c l s).mmu.tlb = s.mmu.tlb := by
  rw [mmuFault, logLimitedAt_mmu, sendMsix_mmu, pushFault]
  dsimp only
  split
  · rfl
  · rw [logLimitedAt_mmu]

theorem mmuFault_mem (a : Access) (c l : Nat) (s : State) : (mmuFault a c l s).mem = s.mem :=
  (mmuFault_only _ _ _ (List.Subset.refl _) Only.refl).keeps .mem (by decide)

/-- Its record enters a queue that has room. -/
theorem mmuFault_recs {a : Access} {s : State} (c l : Nat) (h : (Tab.get ({} : FaultQ) s.mmu.queues a.part).recs.length < 64) :
    (Tab.get ({} : FaultQ) (mmuFault a c l s).mmu.queues a.part).recs = (Tab.get ({} : FaultQ) s.mmu.queues a.part).recs
      ++ [{ faultRec a c l s with fseq := (Tab.get ({} : FaultQ) s.mmu.queues a.part).seq }] := by
  rw [mmuFault, logLimitedAt_mmu, sendMsix_mmu, pushFault]
  dsimp only
  rw [if_pos h, Tab.get_put_self]

/-- The response to an access that fails. -/
theorem refuseAccess_sent (point : Nat) (a : Access) (c l : Nat) (s : State) : (refuseAccess point a c l s).out.sent.head? =
    some (.flit (pointNode point) "error response" [a.tag, c]) := rfl

/-! ## Translation points (R313, R318) -/

section Point

variable {point : Fin 136} {who : TransUser} {dva : BitVec 48} {write : Bool} {tag : BitVec 16} {a : Access} {s : State}

theorem exec_addressTranslation (hacc : accessOf s point.val who dva.toNat write tag.toNat = some a)
    (hlow : who ≠ .cluster ∨ a.dva < apertureBase) : exec (.addressTranslation point who dva write tag) s =
      .next (match (translateAt (some point.val) a s).1 with
        | .ok _ => (translateAt (some point.val) a s).2
        | .error (c, l) => refuseAccess point.val a c l (translateAt (some point.val) a s).2) := by
  have hexec : exec (.addressTranslation point who dva write tag) s = execAddressTranslation point who dva write tag s := rfl
  have haperture : ¬ (decide (who = .cluster) && decide (apertureBase ≤ a.dva)) = true := by
    simp only [Bool.and_eq_true, decide_eq_true_eq, not_and, Nat.not_le]
    exact fun hwho => hlow.resolve_left (not_not.2 hwho)
  rw [hexec, execAddressTranslation, hacc]
  dsimp only
  rw [if_neg haperture] <;> rfl

theorem exec_addressTranslation_aperture (hacc : accessOf s point.val who dva.toNat write tag.toNat = some a) (hwho : who = .cluster)
    (hhigh : apertureBase ≤ a.dva) {d : Nat} (hd : apertureAt s point.val a = .ok d) :
    exec (.addressTranslation point who dva write tag) s = .next s := by
  have hexec : exec (.addressTranslation point who dva write tag) s = execAddressTranslation point who dva write tag s := rfl
  rw [hexec, execAddressTranslation, hacc]
  dsimp only
  rw [if_pos (by simp [hwho, hhigh]), hd]

theorem translateAt_of_allowed {e : TlbEntry} (hhit : tlbHit s point.val a = some e) (hreq : requesterOk a e.dpa = true)
    (hallow : denied a e = none) : translateAt (some point.val) a s = (.ok (e.dpa + (a.dva - e.dva)), s) := by
  simp [translateAt, tlbFind, hhit, hreq, hallow]

theorem translateAt_of_denied {e : TlbEntry} {c : Nat} (hhit : tlbHit s point.val a = some e) (hreq : requesterOk a e.dpa = true)
    (hdeny : denied a e = some c) : translateAt (some point.val) a s = (.error (c, leafLevel e.size), s) := by
  simp [translateAt, tlbFind, hhit, hreq, hdeny]

theorem translateAt_of_walk {e : TlbEntry} (hmiss : tlbHit s point.val a = none) (hwalk : (walk a s).1 = .ok e) :
    translateAt (some point.val) a s = (.ok (e.dpa + (a.dva - e.dva)), fillTlb point.val e (walk a s).2) := by
  simp [translateAt, tlbFind, hmiss, hwalk]

theorem translateAt_of_failed_walk {c l : Nat} (hmiss : tlbHit s point.val a = none) (hwalk : (walk a s).1 = .error (c, l)) :
    translateAt (some point.val) a s = (.error (c, l), (walk a s).2) := by
  simp [translateAt, tlbFind, hmiss, hwalk]

/-- A fill stands first in its cache. -/
theorem fillTlb_head (p : Nat) (e : TlbEntry) (u : State) : (Tab.get [] (fillTlb p e u).mmu.tlb p).head? = some e := by
  have hsize : 0 < tlbSize p := by
    unfold tlbSize
    split <;> decide
  obtain ⟨k, hk⟩ := Nat.exists_eq_succ_of_ne_zero hsize.ne'
  rw [fillTlb]
  dsimp only
  rw [Tab.get_put_self, hk]
  rfl

variable (hacc : accessOf s point.val who dva.toNat write tag.toNat = some a) (hlow : who ≠ .cluster ∨ a.dva < apertureBase)

include hacc hlow

theorem cached_allows {e : TlbEntry} (hhit : tlbHit s point.val a = some e) (hreq : requesterOk a e.dpa = true)
    (hallow : denied a e = none) : exec (.addressTranslation point who dva write tag) s = .next s := by
  rw [exec_addressTranslation hacc hlow, translateAt_of_allowed hhit hreq hallow]

theorem cached_denies {e : TlbEntry} {c : Nat} (hhit : tlbHit s point.val a = some e) (hreq : requesterOk a e.dpa = true)
    (hdeny : denied a e = some c) : Answers (.addressTranslation point who dva write tag) s fun t =>
      t.out.sent.head? = some (.flit (pointNode point.val) "error response" [a.tag, c]) ∧ t.mmu.tlb = s.mmu.tlb ∧ t.mem = s.mem := by
  refine ⟨refuseAccess point.val a c (leafLevel e.size) s, ?_, refuseAccess_sent .., mmuFault_tlb .., mmuFault_mem ..⟩
  rw [exec_addressTranslation hacc hlow, translateAt_of_denied hhit hreq hdeny]

theorem miss_fills {e : TlbEntry} (hmiss : tlbHit s point.val a = none) (hwalk : (walk a s).1 = .ok e) :
    Answers (.addressTranslation point who dva write tag) s fun t =>
      (Tab.get [] t.mmu.tlb point.val).head? = some e ∧ e.part = a.part ∧ e.dva ≤ a.dva ∧ a.dva < e.dva + e.size
      ∧ t.mem.bytes = s.mem.bytes ∧ t.mmu.queues = s.mmu.queues := by
  obtain ⟨hmmu, hbytes, -⟩ := walk_keeps a s
  obtain ⟨hpart, hfrom, hto⟩ := walk_covers hwalk
  refine ⟨fillTlb point.val e (walk a s).2, ?_, fillTlb_head .., hpart, hfrom, hto, hbytes, ?_⟩
  · rw [exec_addressTranslation hacc hlow, translateAt_of_walk hmiss hwalk]
  · rw [← hmmu]
    rfl

theorem miss_faults {c l : Nat} (hmiss : tlbHit s point.val a = none) (hwalk : (walk a s).1 = .error (c, l))
    (hroom : (Tab.get ({} : FaultQ) s.mmu.queues a.part).recs.length < 64) :
    Answers (.addressTranslation point who dva write tag) s fun t =>
      (Tab.get ({} : FaultQ) t.mmu.queues a.part).recs = (Tab.get ({} : FaultQ) s.mmu.queues a.part).recs
        ++ [{ faultRec a c l s with fseq := (Tab.get ({} : FaultQ) s.mmu.queues a.part).seq }]
      ∧ t.out.sent.head? = some (.flit (pointNode point.val) "error response" [a.tag, c])
      ∧ t.mmu.tlb = s.mmu.tlb ∧ t.mem.bytes = s.mem.bytes := by
  obtain ⟨hmmu, hbytes, haon⟩ := walk_keeps a s
  have hrec : faultRec a c l (walk a s).2 = faultRec a c l s := by simp only [faultRec, State.now, haon]
  refine ⟨refuseAccess point.val a c l (walk a s).2, ?_, ?_, refuseAccess_sent .., ?_, ?_⟩
  · rw [exec_addressTranslation hacc hlow, translateAt_of_failed_walk hmiss hwalk]
  · have hrecs := mmuFault_recs (a := a) (s := (walk a s).2) c l (by rw [hmmu]; exact hroom)
    rw [hrec, hmmu] at hrecs
    exact hrecs
  · exact (mmuFault_tlb ..).trans (congrArg Mmu.tlb hmmu)
  · exact (congrArg Mem.bytes (mmuFault_mem a c l _)).trans hbytes

end Point

/-! ## Invalidations (R319, R320) -/

/-- No cache keeps a translation that the condition names. -/
theorem dropTlb_drops (p : TlbEntry → Bool) (tab : Tab (List TlbEntry)) (k : Nat) : ∀ e ∈ Tab.get []
    ((tab.map fun e => (e.1, e.2.filter fun x => !p x)).filter fun e => !e.2.isEmpty) k, p e = false := by
  induction tab with
  | nil => simp [Tab.get]
  | cons c tab ih =>
    rw [List.map_cons, List.filter_cons]
    split
    · rw [Tab.get]
      split
      · exact fun e he => by simpa using (List.mem_filter.1 he).2
      · exact ih
    · exact ih

/-- Every other translation stays in its cache. -/
theorem dropTlb_keeps (p : TlbEntry → Bool) (tab : Tab (List TlbEntry)) (k : Nat) : ∀ e ∈ Tab.get [] tab k, p e = false →
    e ∈ Tab.get [] ((tab.map fun e => (e.1, e.2.filter fun x => !p x)).filter fun e => !e.2.isEmpty) k := by
  induction tab with
  | nil => exact fun e he => absurd he (by simp [Tab.get])
  | cons c tab ih =>
    obtain ⟨i, l⟩ := c
    intro e he hp
    rw [List.map_cons, List.filter_cons]
    by_cases hk : k = i
    · rw [Tab.get, if_pos hk] at he
      have hmem : e ∈ l.filter fun x => !p x := List.mem_filter.2 ⟨he, by simp [hp]⟩
      rw [if_pos (by simpa using List.ne_nil_of_mem hmem), Tab.get, if_pos hk]
      exact hmem
    · rw [Tab.get, if_neg hk] at he
      split
      · rw [Tab.get, if_neg hk]
        exact ih e he hp
      · exact ih e he hp

section Inval

variable {idx : Nat} {i : Inval} {s : State}

/-- The invalidation has left the list, and what it names has left the caches. -/
def dropped (idx : Nat) (i : Inval) (s : State) : State :=
  dropTlb (invalHits i) { s with mmu := { s.mmu with inval := s.mmu.inval.eraseIdx idx } }

theorem exec_invalidationDone (hget : s.mmu.inval[idx]? = some i) (hstart : i.started = true) :
    exec (.invalidationDone idx) s = .next (afterInval i (dropped idx i s)) := by
  have hexec : exec (.invalidationDone idx) s = execInvalidationDone idx s := rfl
  rw [hexec, execInvalidationDone, hget]
  dsimp only
  rw [if_pos hstart]
  rfl

/-- The frames of a FREE that the invalidation waited for are freed. -/
def freedBy (i : Inval) (u : State) : State := freeFrames (i.frames.filter fun f => (u.frame f).freeing) u

theorem freedBy_keeps (i : Inval) (u : State) : (freedBy i u).mmu = u.mmu ∧ (freedBy i u).mbx = u.mbx := by
  have hfree := (freeFrames_only (i.frames.filter fun f => (u.frame f).freeing) (List.Subset.refl _) (Only.refl (s := u))).keeps
  exact ⟨hfree .mmu (by decide), hfree .mbx (by decide)⟩

/-- With no channel waiting, the mailbox that waited for the last of its invalidations is answered. -/
theorem afterInval_eq (hchan : i.chan = none) (u : State) : afterInval i u = match i.mbx with
    | none => freedBy i u
    | some n => if (freedBy i u).mmu.inval.any fun j => j.mbx = some n then freedBy i u else completeBox n { status := 0 } (freedBy i u) := by
  simp only [afterInval, hchan]
  rfl

theorem completeBox_answers {n : Nat} {u : State} (r : Reply) (h : (u.box n).await.isSome = true) :
    ((completeBox n r u).box n).outbox = (u.box n).outbox ++ [r] ∧ ((completeBox n r u).box n).await = none := by
  rw [completeBox, if_pos h, box_reply, box_setBox_self]
  exact ⟨rfl, rfl⟩

theorem afterInval_mmu (hchan : i.chan = none) (u : State) : (afterInval i u).mmu = u.mmu := by
  have hcomplete : ∀ n r v, (completeBox n r v).mmu = v.mmu := fun n r v =>
    (completeBox_only n r (List.Subset.refl _) Only.refl).keeps .mmu (by decide)
  rw [afterInval_eq hchan]
  split
  · exact (freedBy_keeps i u).1
  · split
    · exact (freedBy_keeps i u).1
    · rw [hcomplete]
      exact (freedBy_keeps i u).1

theorem invalidation_completes (hget : s.mmu.inval[idx]? = some i) (hstart : i.started = true) (hchan : i.chan = none) :
    Answers (.invalidationDone idx) s fun t =>
      (∀ k, ∀ e ∈ Tab.get [] t.mmu.tlb k, invalHits i e = false)
      ∧ (∀ k, ∀ e ∈ Tab.get [] s.mmu.tlb k, invalHits i e = false → e ∈ Tab.get [] t.mmu.tlb k)
      ∧ t.mmu.inval = s.mmu.inval.eraseIdx idx
      ∧ (∀ n, i.mbx = some n → (s.box n).await.isSome = true → (∀ j ∈ s.mmu.inval.eraseIdx idx, j.mbx ≠ some n) →
          (t.box n).outbox = (s.box n).outbox ++ [{ status := 0 }] ∧ (t.box n).await = none)
      ∧ (i.frames = [] → i.mbx = none → KeepsBut [.mmu] s t) := by
  refine ⟨_, exec_invalidationDone hget hstart, ?_⟩
  obtain ⟨hmmu, hmbx⟩ := freedBy_keeps i (dropped idx i s)
  rw [afterInval_mmu hchan]
  refine ⟨fun k => dropTlb_drops (invalHits i) s.mmu.tlb k, fun k => dropTlb_keeps (invalHits i) s.mmu.tlb k, rfl, fun n hn hwait hlast => ?answer, fun hframes hnone => ?keeps⟩
  case answer =>
    have hbox : (freedBy i (dropped idx i s)).box n = s.box n := box_congr hmbx n
    have hnone : ¬ ((freedBy i (dropped idx i s)).mmu.inval.any fun j => j.mbx = some n) = true := by
      have hinval : (dropped idx i s).mmu.inval = s.mmu.inval.eraseIdx idx := rfl
      rw [hmmu, hinval]
      simpa using hlast
    rw [afterInval_eq hchan, hn]
    dsimp only
    rw [if_neg hnone, ← hbox]
    exact completeBox_answers _ (by rw [hbox]; exact hwait)
  case keeps =>
    have hfree : freedBy i (dropped idx i s) = dropped idx i s := by rw [freedBy, hframes]; rfl
    rw [afterInval_eq hchan, hnone]
    dsimp only
    rw [hfree]
    exact (Only.atMmu (t := { s with mmu := { s.mmu with inval := s.mmu.inval.eraseIdx idx } }) (by decide)
      (Only.atMmu (by decide) Only.refl)).keeps

end Inval

/-! ## MMU_STATUS (R322, R338) -/

section Status

variable {n : Fin 16} {s : State}

theorem exec_mmuStatus (hrun : Runs s n 0x0407) (hexp : (s.box n.val).exp = false) (hp : (s.box n.val).arg 0 < 64)
    (hmay : mbxPart s n.val = 0 ∨ mbxPart s n.val = (s.box n.val).arg 0) :
    let q := Tab.get {} s.mmu.queues ((s.box n.val).arg 0)
    let root := ((Tab.get none s.mmu.roots ((s.box n.val).arg 0)).getD 0) * 65536
    exec (.mmuStatus n) s = .next (replyDone n.val [root % 2 ^ 32, root / 2 ^ 32, q.ovf] (q.recs.flatMap faultBytes)
      { s.freed n with mmu := { s.mmu with queues := Tab.put {} s.mmu.queues ((s.box n.val).arg 0) { q with recs := [] } } }) := by
  have hexec : exec (.mmuStatus n) s = execMmuStatus n s := rfl
  dsimp only
  rw [hexec, execMmuStatus, command_run hrun]
  · dsimp only
    rw [hexp, if_neg Bool.false_ne_true, List.append_nil]
    rfl
  · simp only [first_eq_none, failIf_eq_none, Bool.and_eq_false_imp, Bool.not_eq_false', Bool.or_eq_true, decide_eq_true_eq,
      decide_eq_false_iff_not, Nat.not_le]
    exact ⟨fun _ => hmay, trivial, hp, trivial, trivial⟩

theorem mmuStatus_answers (hrun : Runs s n 0x0407) (hexp : (s.box n.val).exp = false) (hp : (s.box n.val).arg 0 < 64)
    (hmay : mbxPart s n.val = 0 ∨ mbxPart s n.val = (s.box n.val).arg 0) :
    let q := Tab.get {} s.mmu.queues ((s.box n.val).arg 0)
    let root := ((Tab.get none s.mmu.roots ((s.box n.val).arg 0)).getD 0) * 65536
    Answers (.mmuStatus n) s fun t =>
      (t.box n.val).outbox = (s.box n.val).outbox
        ++ [{ status := 0, res := [root % 2 ^ 32, root / 2 ^ 32, q.ovf], data := q.recs.flatMap faultBytes }]
      ∧ Tab.get {} t.mmu.queues ((s.box n.val).arg 0) = { q with recs := [] } ∧ KeepsBut [.mbx, .mmu] s t :=
  ⟨_, exec_mmuStatus hrun hexp hp hmay, AttestCerts.replyDone_outbox_of_freed rfl _ _, Tab.get_put_self,
    (replyDone_only _ _ _ (by decide) (Only.atMmu (t := s.freed n) (by decide) (setBox_only _ _ (by decide) Only.refl))).keeps⟩

end Status

/-- Settles O44: an access by what its cache or its walk says, an invalidation by what it drops, MMU_STATUS by its answer. -/
theorem translationsAndInvalidations : Obligations.TranslationsAndInvalidations :=
  ⟨fun _ _ _ _ _ _ _ hacc => ⟨fun hlow => ⟨fun _ hhit hreq hallow => cached_allows hacc hlow hhit hreq hallow,
      fun _ _ hhit hreq hdeny => cached_denies hacc hlow hhit hreq hdeny,
      fun hmiss => ⟨fun _ hwalk => miss_fills hacc hlow hmiss hwalk, fun _ _ hwalk hroom => miss_faults hacc hlow hmiss hwalk hroom⟩⟩,
      fun hwho hhigh _ hd => exec_addressTranslation_aperture hacc hwho hhigh hd⟩,
    fun _ _ _ hget hstart hchan => invalidation_completes hget hstart hchan, fun _ _ => mmuStatus_answers⟩

end Sys2Proof.TranslationCerts
end

section
/-!
PROOF. DMA descriptors and chunks (spec/12_translation_dma_preemption.md R328 to R331, R333): how a descriptor begins, how its first chunk is
issued, and what the end of a chunk leaves.
-/
namespace Sys2Proof.DmaCerts

open Sys2Proof.Machine Sys2Proof.Laws Sys2Proof.CommandCerts

variable {d : Nat} {x : Desc} {s : State}

/-! ## Channels -/

theorem dchan_congr {t : State} (h : t.dma = s.dma) (k : Nat) : t.dchan k = s.dchan k := by
  simp only [State.dchan, h]

@[simp] theorem modChan_self (d : Nat) (f : DmaChan → DmaChan) (s : State) : (modChan d f s).dchan d = f (s.dchan d) := by
  rw [modChan, setChan_dchan, if_pos rfl]

theorem translate_dchan (a : Access) (s : State) (k : Nat) : (translate a s).2.dchan k = s.dchan k :=
  dchan_congr ((translate_only a (List.Subset.refl _) Only.refl).keeps .dma (by decide)) k

theorem translate_bytes (a : Access) (s : State) : (translate a s).2.mem.bytes = s.mem.bytes :=
  (translate_only a (List.Subset.refl _) Only.refl).keeps .bytes (by decide)

theorem tellCancels_dma (l : List (Nat × Nat)) (s : State) : (tellCancels l s).dma = s.dma :=
  (tellCancels_only l (List.Subset.refl _) Only.refl).keeps .dma (by decide)

/-- Telling of cancelled requests changes no channel. -/
@[simp] theorem reportCancels_dchan (s : State) (k : Nat) : (reportCancels s).dchan k = s.dchan k := by
  rw [reportCancels, dchan_congr (tellCancels_dma ..) k]
  rfl

theorem reportCancels_bytes (s : State) : (reportCancels s).mem.bytes = s.mem.bytes :=
  (reportCancels_only (List.Subset.refl _) Only.refl).keeps .bytes (by decide)

/-! ## Issuing chunks (R330) -/

/-- A channel with a stop issues no chunk. -/
theorem issueChunks_of_stops (k : Nat) (h : (s.dchan d).stops ≠ []) : issueChunks d k s = s := by
  cases k with
  | zero => rfl
  | succ k =>
    rw [issueChunks]
    dsimp only
    split
    · rfl
    · exact if_pos (by simp [h])

/-- A descriptor whose chunks are all issued issues no other. -/
theorem issueChunks_of_all_issued (k : Nat) (hcur : (s.dchan d).cur = some x) (h : x.len ≤ (s.dchan d).next) : issueChunks d k s = s := by
  cases k with
  | zero => rfl
  | succ k =>
    rw [issueChunks]
    dsimp only
    rw [hcur]
    exact if_pos (by simp [h])

/-- The channel may issue the chunk at offset 0. -/
structure FirstDue (d : Nat) (x : Desc) (s : State) : Prop where
  cur : (s.dchan d).cur = some x
  running : (s.dchan d).st = .running
  begun : (s.dchan d).begun = true
  stops : (s.dchan d).stops = []
  flight : (s.dchan d).flight = []
  next : (s.dchan d).next = 0
  len : 0 < x.len

/-- The chunk of the whole length is in flight. -/
def issued (d : Nat) (x : Desc) (src : Option Nat) (dst : Nat) (s : State) : State :=
  modChan d (fun c => { c with
    next := c.next + x.len, flight := c.flight ++ [{ off := c.next, len := x.len, srcDpa := src, dstDpa := some dst }]
    chunks := c.chunks + 1 }) s

theorem issued_dchan {t : State} {src : Option Nat} {dst : Nat} (h : FirstDue d x s) (ht : t.dchan d = s.dchan d) :
    ((issued d x src dst t).dchan d).flight = [{ off := 0, len := x.len, srcDpa := src, dstDpa := some dst }]
    ∧ ((issued d x src dst t).dchan d).next = x.len ∧ ((issued d x src dst t).dchan d).begun = true
    ∧ ((issued d x src dst t).dchan d).cur = some x := by
  simp only [issued, modChan_self, ht, h.flight, h.next, h.begun, h.cur, List.nil_append, Nat.zero_add]
  exact ⟨trivial, trivial, trivial, trivial⟩

/-- With the chunk in flight and nothing left to issue, the channel settles there. -/
theorem settle_of_issued {t : State} {src : Option Nat} {dst : Nat} (h : FirstDue d x s) (ht : t.dchan d = s.dchan d)
    (hissue : issueChunks d 17 s = issueChunks d 16 (issued d x src dst t)) : settle d s = reportCancels (issued d x src dst t) := by
  obtain ⟨hflight, hnext, -, hcur⟩ := issued_dchan (src := src) (dst := dst) h ht
  rw [issueChunks_of_all_issued 16 hcur hnext.ge] at hissue
  rw [settle]
  rw [hissue, hflight]
  rfl

/-- A COPY within the die puts its first chunk in flight with both ends translated. -/
theorem issueChunks_copy {a b : Nat} {v w : State} (h : FirstDue d x s) (hop : x.op = 1) (hsrc : x.srcSpace = 0) (hdst : x.dstSpace = 0)
    (hwhole : chunkLen x 0 = x.len) (ha : translate (dmaAccess s d x.src false) s = (.ok a, v))
    (hb : translate (dmaAccess v d x.dst true) v = (.ok b, w)) :
    issueChunks d 17 s = issueChunks d 16 (issued d x (some a) b w) := by
  rw [issueChunks]
  simp only [h.cur, h.running, h.begun, h.stops, h.flight, h.next, hop, hsrc, hdst, hwhole, chunkEnd, Nat.add_zero, ha, Except.map,
    offDie, issued]
  simp [Nat.not_le.2 h.len]
  rw [hb]

/-- A FILL puts its first chunk in flight with its destination translated. -/
theorem issueChunks_fill {b : Nat} {w : State} (h : FirstDue d x s) (hop : x.op = 2) (hsrc : x.srcSpace ≠ 2) (hdst : x.dstSpace = 0)
    (hwhole : chunkLen x 0 = x.len) (hb : translate (dmaAccess s d x.dst true) s = (.ok b, w)) :
    issueChunks d 17 s = issueChunks d 16 (issued d x none b w) := by
  rw [issueChunks]
  simp only [h.cur, h.running, h.begun, h.stops, h.flight, h.next, hop, hdst, hwhole, chunkEnd, Nat.add_zero, Except.map, issued]
  simp [hsrc, Nat.not_le.2 h.len]
  rw [hb]

/-! ## A descriptor begins (R328, R329) -/

/-- What R329 leaves of a descriptor that it does not refuse: a move has a length, and a FILL reads no remote package. -/
theorem descRefusal_none {p : Nat} (h : descRefusal s p x = none) (hop : x.op = 1 ∨ x.op = 2) : 0 < x.len ∧ (x.op = 2 → x.srcSpace ≠ 2) := by
  simp only [descRefusal, firstFail_cons_eq_none, failIf_eq_none, Bool.or_eq_false_iff, Bool.and_eq_false_imp, decide_eq_false_iff_not,
    decide_eq_true_eq, Bool.or_eq_true] at h
  obtain ⟨⟨-, -, -, -, -, hremote, -⟩, hlen, -⟩ := h
  refine ⟨Nat.pos_of_ne_zero (hlen (by omega)).1, fun hfill hsrc => ?_⟩
  exact (hremote (Or.inl hfill)).1 hsrc

theorem beginDesc_refused {op e : Nat} (go : Desc → State → State) (hcur : (s.dchan d).cur = some x) (hst : (s.dchan d).st = .running)
    (hbegun : (s.dchan d).begun = false) (hop : x.op = op) (h : descRefusal s (dmaPart s d) x = some e) :
    beginDesc op d go s = dmaRun d (dmaFinal d 9 e 0 s) := by
  simp [beginDesc, hcur, hst, hbegun, hop, h]

theorem beginDesc_passed {op : Nat} (go : Desc → State → State) (hcur : (s.dchan d).cur = some x) (hst : (s.dchan d).st = .running)
    (hbegun : (s.dchan d).begun = false) (hop : x.op = op) (h : descRefusal s (dmaPart s d) x = none) :
    beginDesc op d go s = go x (setChan d { s.dchan d with begun := true } s) := by
  simp [beginDesc, hcur, hst, hbegun, hop, h, modChan]

section Begin

variable {ch : Fin 64} (hcur : (s.dchan ch.val).cur = some x) (hst : (s.dchan ch.val).st = .running)
  (hbegun : (s.dchan ch.val).begun = false)

/-- The channel has begun its descriptor. -/
def begunAt (ch : Fin 64) (s : State) : State := setChan ch.val { s.dchan ch.val with begun := true } s

theorem begunAt_dchan (ch : Fin 64) (s : State) : (begunAt ch s).dchan ch.val = { s.dchan ch.val with begun := true } := by
  rw [begunAt, setChan_dchan, if_pos rfl]

include hcur hst hbegun

theorem begun_refused {e : Nat} (h : descRefusal s (dmaPart s ch.val) x = some e) :
    ∀ i ∈ [Instr.dmaCopy ch, .dmaFill ch, .dmaTlbi ch, .dmaNop ch],
      (x.op = 1 ∧ i = .dmaCopy ch ∨ x.op = 2 ∧ i = .dmaFill ch ∨ x.op = 3 ∧ i = .dmaTlbi ch ∨ x.op = 4 ∧ i = .dmaNop ch) →
      exec i s = .next (dmaRun ch.val (dmaFinal ch.val 9 e 0 s)) := by
  rintro i - (⟨hop, rfl⟩ | ⟨hop, rfl⟩ | ⟨hop, rfl⟩ | ⟨hop, rfl⟩) <;>
    exact congrArg Host.Outcome.next (beginDesc_refused _ hcur hst hbegun hop h)

omit hbegun in
theorem firstDue (hflight : (s.dchan ch.val).flight = []) (hstops : (s.dchan ch.val).stops = []) (hnext : (s.dchan ch.val).next = 0)
    (hlen : 0 < x.len) : FirstDue ch.val x (begunAt ch s) := by
  have hchan := begunAt_dchan ch s
  constructor
  case len => exact hlen
  all_goals simp [*]

theorem copy_begins (h : descRefusal s (dmaPart s ch.val) x = none) (hop : x.op = 1) (hflight : (s.dchan ch.val).flight = [])
    (hstops : (s.dchan ch.val).stops = []) (hnext : (s.dchan ch.val).next = 0) (hsrc : x.srcSpace = 0) (hdst : x.dstSpace = 0)
    (hwhole : chunkLen x 0 = x.len) {a b : Nat} {v : State}
    (ha : translate (dmaAccess (begunAt ch s) ch.val x.src false) (begunAt ch s) = (.ok a, v))
    (hb : (translate (dmaAccess v ch.val x.dst true) v).1 = .ok b) : Answers (.dmaCopy ch) s fun t =>
      (t.dchan ch.val).flight = [{ off := 0, len := x.len, srcDpa := some a, dstDpa := some b }] ∧ (t.dchan ch.val).next = x.len
      ∧ (t.dchan ch.val).begun = true ∧ t.mem.bytes = s.mem.bytes := by
  have hdue := firstDue hcur hst hflight hstops hnext (descRefusal_none h (Or.inl hop)).1
  have hv : v = (translate (dmaAccess (begunAt ch s) ch.val x.src false) (begunAt ch s)).2 := by rw [ha]
  have hchan : (translate (dmaAccess v ch.val x.dst true) v).2.dchan ch.val = (begunAt ch s).dchan ch.val := by
    rw [translate_dchan, hv, translate_dchan]
  have hbytes : (translate (dmaAccess v ch.val x.dst true) v).2.mem.bytes = s.mem.bytes := by
    rw [translate_bytes, hv, translate_bytes]
    rfl
  obtain ⟨hput, hto, hgo, -⟩ := issued_dchan (src := some a) (dst := b) hdue hchan
  refine ⟨settle ch.val (begunAt ch s), congrArg Host.Outcome.next (beginDesc_passed _ hcur hst hbegun hop h), ?_⟩
  dsimp only
  rw [settle_of_issued hdue hchan (issueChunks_copy hdue hop hsrc hdst hwhole ha (Prod.ext hb rfl)), reportCancels_dchan, reportCancels_bytes]
  exact ⟨hput, hto, hgo, hbytes⟩

theorem fill_begins (h : descRefusal s (dmaPart s ch.val) x = none) (hop : x.op = 2) (hflight : (s.dchan ch.val).flight = [])
    (hstops : (s.dchan ch.val).stops = []) (hnext : (s.dchan ch.val).next = 0) (hdst : x.dstSpace = 0)
    (hwhole : chunkLen x 0 = x.len) {b : Nat} (hb : (translate (dmaAccess (begunAt ch s) ch.val x.dst true) (begunAt ch s)).1 = .ok b) :
    Answers (.dmaFill ch) s fun t =>
      (t.dchan ch.val).flight = [{ off := 0, len := x.len, srcDpa := none, dstDpa := some b }] ∧ (t.dchan ch.val).next = x.len
      ∧ (t.dchan ch.val).begun = true ∧ t.mem.bytes = s.mem.bytes := by
  obtain ⟨hlen, hremote⟩ := descRefusal_none h (Or.inr hop)
  have hdue := firstDue hcur hst hflight hstops hnext hlen
  have hchan := translate_dchan (dmaAccess (begunAt ch s) ch.val x.dst true) (begunAt ch s) ch.val
  obtain ⟨hput, hto, hgo, -⟩ := issued_dchan (src := none) (dst := b) hdue hchan
  refine ⟨settle ch.val (begunAt ch s), congrArg Host.Outcome.next (beginDesc_passed _ hcur hst hbegun hop h), ?_⟩
  dsimp only
  rw [settle_of_issued hdue hchan (issueChunks_fill hdue hop (hremote hop) hdst hwhole (Prod.ext hb rfl)), reportCancels_dchan, reportCancels_bytes]
  exact ⟨hput, hto, hgo, translate_bytes ..⟩

theorem tlbi_begins (h : descRefusal s (dmaPart s ch.val) x = none) (hop : x.op = 3) : Answers (.dmaTlbi ch) s fun t =>
    t.dchan ch.val = { s.dchan ch.val with begun := true, tlbi := true }
    ∧ t.mmu.inval = s.mmu.inval ++ [{ byDpa := false, part := dmaPart s ch.val, lo := x.dst, len := x.len, started := !partInWindow s (dmaPart s ch.val), since := s.now, chan := some ch.val }] ∧ KeepsBut [.mmu, .dma] s t := by
  refine ⟨_, congrArg Host.Outcome.next (beginDesc_passed _ hcur hst hbegun hop h), ?_, rfl, ?_⟩
  · have hset := modChan_self ch.val (fun c => { c with tlbi := true }) (begunAt ch s)
    rw [begunAt_dchan] at hset
    exact hset
  · exact (startInval_only _ (by decide) (setChan_only _ _ (by decide) (setChan_only _ _ (by decide) Only.refl))).keeps

theorem nop_begins (h : descRefusal s (dmaPart s ch.val) x = none) (hop : x.op = 4) :
    exec (.dmaNop ch) s = .next (dmaRun ch.val (dmaFinal ch.val 1 0 0 (begunAt ch s))) :=
  congrArg Host.Outcome.next (beginDesc_passed _ hcur hst hbegun hop h)

end Begin

/-! ## A chunk ends (R330, R333) -/

section Ack

variable {ch : Fin 64} {idx : Fin 16} {c : Chunk}

/-- The chunk has left the flight. -/
def landed (ch : Fin 64) (idx : Fin 16) (s : State) : State := modChan ch.val (fun h => { h with flight := h.flight.eraseIdx idx.val }) s

theorem landed_dchan (ch : Fin 64) (idx : Fin 16) (s : State) : (landed ch idx s).dchan ch.val =
    { s.dchan ch.val with flight := (s.dchan ch.val).flight.eraseIdx idx.val } := modChan_self ..

/-- A channel with a stop that waits and another chunk in flight only tells of cancelled requests. -/
theorem settle_of_waiting (hstops : (s.dchan d).stops ≠ []) (hflight : (s.dchan d).flight ≠ []) : settle d s = reportCancels s := by
  rw [settle]
  rw [issueChunks_of_stops 17 hstops, if_pos (by simpa using hflight)]

theorem eraseIdx_ne_nil {l : List Chunk} {i : Nat} (h : 2 ≤ l.length) : l.eraseIdx i ≠ [] := by
  intro hnil
  have hlen := congrArg List.length hnil
  rw [List.length_eraseIdx] at hlen
  simp only [List.length_nil] at hlen
  split at hlen <;> omega

theorem logUe_dma (k : Contain) (code ut inst : Nat) (l : List Nat) (s : State) : (logUe k code ut inst l s).dma = s.dma :=
  (logUe_only _ _ _ _ _ (List.Subset.refl _) Only.refl).keeps .dma (by decide)

/-- What a failing chunk leaves in its channel: the lowest failure, and one stop. -/
theorem chunkFail_dchan (d status : Nat) (x : Desc) (c : Chunk) (s : State) : (chunkFail d status x c s).dchan d =
    { s.dchan d with
      failAt := some ((s.dchan d).failAt.elim c.off (min c.off))
      stops := if (s.dchan d).failAt.isSome then (s.dchan d).stops else (s.dchan d).stops ++ [.stop status 0] } := by
  unfold chunkFail
  dsimp only
  cases h : (s.dchan d).failAt.isSome
  · rw [if_neg Bool.false_ne_true, if_neg Bool.false_ne_true, dchan_congr (logUe_dma ..), modChan_self, modChan_self]
  · rw [if_pos rfl, if_pos rfl, modChan_self]

variable (hcur : (s.dchan ch.val).cur = some x) (hget : (s.dchan ch.val).flight[idx.val]? = some c)

include hcur hget

theorem exec_dmaChunkAck {e : ChunkEnd} (hcan : chunkCanEnd s x c e = true) :
    exec (.dmaChunkAck ch idx e) s = .next (settle ch.val (chunkEnds ch.val x c e (landed ch idx s))) := by
  have hexec : exec (.dmaChunkAck ch idx e) s = execDmaChunkAck ch idx e s := rfl
  rw [hexec, execDmaChunkAck]
  rw [hcur, hget]
  dsimp only
  rw [hcan]
  rfl

theorem exec_dmaChunkAck_impossible {e : ChunkEnd} (hcan : chunkCanEnd s x c e = false) :
    exec (.dmaChunkAck ch idx e) s = .next s := by
  have hexec : exec (.dmaChunkAck ch idx e) s = execDmaChunkAck ch idx e s := rfl
  rw [hexec, execDmaChunkAck]
  rw [hcur, hget]
  dsimp only
  rw [hcan]
  rfl

/-- A chunk that fails while others are in flight takes its place as the lowest failure, and the channel stops. -/
theorem chunk_fails {e : ChunkEnd} {status : Nat} (hcan : chunkCanEnd s x c e = true)
    (hends : chunkEnds ch.val x c e (landed ch idx s) = chunkFail ch.val status x c (landed ch idx s))
    (hmany : 2 ≤ (s.dchan ch.val).flight.length) (hstop : (s.dchan ch.val).failAt = none ∨ (s.dchan ch.val).stops ≠ []) :
    Answers (.dmaChunkAck ch idx e) s fun t =>
      (t.dchan ch.val).flight = (s.dchan ch.val).flight.eraseIdx idx.val
      ∧ (t.dchan ch.val).failAt = some (((s.dchan ch.val).failAt.elim c.off (min c.off)))
      ∧ ((s.dchan ch.val).failAt = none → (t.dchan ch.val).stops = (s.dchan ch.val).stops ++ [.stop status 0]
          ∧ KeepsBut [.log, .dma, .link, .out] s t) := by
  have hchan := chunkFail_dchan ch.val status x c (landed ch idx s)
  rw [landed_dchan] at hchan
  have hstops : ((chunkFail ch.val status x c (landed ch idx s)).dchan ch.val).stops ≠ [] := by
    rw [hchan]
    dsimp only
    split
    case isTrue h => exact hstop.resolve_left fun hnone => by simp [hnone] at h
    case isFalse => simp
  have hflight : ((chunkFail ch.val status x c (landed ch idx s)).dchan ch.val).flight ≠ [] := by
    rw [hchan]
    exact eraseIdx_ne_nil hmany
  refine ⟨_, exec_dmaChunkAck hcur hget hcan, ?_⟩
  dsimp only
  rw [hends, settle_of_waiting hstops hflight, reportCancels_dchan, hchan]
  refine ⟨rfl, rfl, fun hnone => ⟨by simp [hnone], ?_⟩⟩
  exact (reportCancels_only (by decide) (chunkFail_only _ _ _ _ (by decide) (modChan_only _ _ (by decide) Only.refl))).keeps

/-- A FILL chunk that its destination acknowledges, or refuses, changes no byte outside it. -/
theorem fill_lands {host : List Byte} {a : Nat} (hop : x.op = 2) (hdst : c.dstDpa = some a) (hmany : 2 ≤ (s.dchan ch.val).flight.length)
    (hstops : (s.dchan ch.val).stops ≠ []) (hfew : ∀ k, (joinBad (s.flaw k).bad []).length ≤ 2) :
    Answers (.dmaChunkAck ch idx (.ok host)) s fun t =>
      (t.dchan ch.val).flight = (s.dchan ch.val).flight.eraseIdx idx.val
      ∧ ∀ k, ¬ (a ≤ k ∧ k < a + c.len) → Tab.get 0 t.mem.bytes k = Tab.get 0 s.mem.bytes k := by
  let w := memWrite a (dmaFill x c) (landed ch idx s)
  have hends : chunkEnds ch.val x c (.ok host) (landed ch idx s) =
      if w.1 then modChan ch.val (fun h => { h with bytes := h.bytes + c.len }) w.2 else chunkFail ch.val 6 x c w.2 := by
    simp only [chunkEnds, chunkData, chunkStore, hop, hdst, if_true]
    rfl
  have hwchan : w.2.dchan ch.val = (landed ch idx s).dchan ch.val :=
    dchan_congr ((memWrite_only a (dmaFill x c) (List.Subset.refl _) Only.refl).keeps .dma (by decide)) _
  have hchan : ((chunkEnds ch.val x c (.ok host) (landed ch idx s)).dchan ch.val).flight = (s.dchan ch.val).flight.eraseIdx idx.val
      ∧ ((chunkEnds ch.val x c (.ok host) (landed ch idx s)).dchan ch.val).stops ≠ [] := by
    rw [hends]
    split
    · rw [modChan_self, hwchan, landed_dchan]
      exact ⟨rfl, hstops⟩
    · rw [chunkFail_dchan, hwchan, landed_dchan]
      refine ⟨rfl, ?_⟩
      dsimp only
      split
      · exact hstops
      · simp
  have hbytes : (chunkEnds ch.val x c (.ok host) (landed ch idx s)).mem.bytes = w.2.mem.bytes := by
    rw [hends]
    split
    · rfl
    · exact (chunkFail_only ch.val 6 x c (List.Subset.refl _) Only.refl).keeps .bytes (by decide)
  have hlen : (dmaFill x c).length = c.len := by simp [dmaFill]
  have hcan : chunkCanEnd s x c (.ok host) = true := by simp [chunkCanEnd, hop]
  refine ⟨_, exec_dmaChunkAck hcur hget hcan, ?_⟩
  dsimp only
  rw [settle_of_waiting hchan.2 (by rw [hchan.1]; exact eraseIdx_ne_nil hmany), reportCancels_dchan, reportCancels_bytes, hbytes]
  refine ⟨hchan.1, fun k hk => ?_⟩
  have hwithin := StoreCerts.memWrite_within (a := a) (data := dmaFill x c) (s := landed ch idx s) subset_rfl
    fun y _ j _ h => absurd (hfew j) (Nat.not_le_of_lt h)
  exact hwithin.bytes k (by rw [hlen]; exact hk)

end Ack

/-- Settles O46: a descriptor by how it begins, a chunk by how it ends while others are in flight. -/
theorem dmaDescriptorsAndChunks : Obligations.DmaDescriptorsAndChunks := by
  refine ⟨fun ch x s hcur hst hbegun => ⟨fun e => begun_refused hcur hst hbegun, fun hpass => ⟨?copy, ?fill,
    tlbi_begins hcur hst hbegun hpass, nop_begins hcur hst hbegun hpass⟩⟩, fun ch idx x c s hcur hget hmany => ⟨?fails,
    fun e => exec_dmaChunkAck_impossible hcur hget, fun host a hop hdst hstops => fill_lands hcur hget hop hdst hmany hstops⟩⟩
  case copy =>
    intro hop hflight hstops hnext hsrc hdst hwhole a b v
    exact copy_begins hcur hst hbegun hpass hop hflight hstops hnext hsrc hdst hwhole
  case fill =>
    intro hop hflight hstops hnext hdst hwhole b
    exact fill_begins hcur hst hbegun hpass hop hflight hstops hnext hdst hwhole
  case fails =>
    intro hstop cause e he hcan
    simp only [List.mem_cons, List.not_mem_nil, or_false] at he
    rcases he with rfl | rfl | rfl <;> exact chunk_fails hcur hget hcan rfl hmany hstop

end Sys2Proof.DmaCerts
end

section
/-!
PROOF. What a read of memory leaves of the serving state. A line that fails suspects its row, whose frames are retired, and the entries of a
retired frame leave the index of prefixes (spec/08_hbm.md R304, spec/14_pages_prefixes_adapters_drift.md R384): nothing else of it changes.
-/
namespace Sys2Proof.IndexCerts

open Sys2Proof.Machine Sys2Proof.Laws

/-- Of the serving state only the index of prefixes differs. -/
def Indexed (s t : State) : Prop := t.serve = { s.serve with index := t.serve.index }

variable {s t u : State} {gs : List Group}

theorem Indexed.of_serve (h : t.serve = s.serve) : Indexed s t := by
  rw [Indexed, h]

theorem Indexed.refl : Indexed s s := .of_serve rfl

theorem Indexed.trans (h : Indexed s t) (k : Indexed t u) : Indexed s u := by
  rw [Indexed, h] at k
  exact k

theorem Indexed.of_only (k : Only gs s t) (h : .serve ∉ gs) : Indexed s t := .of_serve (k.keeps .serve h)

/-- What does not look at the index reads as before. -/
theorem Indexed.keeps {β : Type} (h : Indexed s t) (f : Serve → β) (hf : ∀ x l, f { x with index := l } = f x) : f t.serve = f s.serve := by
  rw [h, hf]

/-! ## Entries leave the index -/

theorem reindex_serve (i : Tab PEntry) (l : List Nat) : ∀ s : State, (reindex i l s).serve = s.serve := by
  induction l with
  | nil => exact fun _ => rfl
  | cons f l ih => exact fun s => ih (modFrame f _ s)

theorem removeEntries_serve (p : Nat → PEntry → Bool) (s : State) :
    (removeEntries p s).serve = { s.serve with index := s.serve.index.filter fun e => !p e.1 e.2 } := by
  unfold removeEntries
  dsimp only
  split
  case isTrue h =>
    have hnone : ∀ e ∈ s.serve.index, p e.1 e.2 = false := by simpa using h
    rw [List.filter_eq_self.2 fun e he => by rw [hnone e he]; rfl]
  case isFalse => exact reindex_serve ..

theorem removeEntries_indexed (p : Nat → PEntry → Bool) (s : State) : Indexed s (removeEntries p s) := by
  rw [Indexed, removeEntries_serve]

theorem retirePending_indexed (f : Nat) (s : State) : Indexed s (retirePending f s) := by
  unfold retirePending
  split
  case isTrue => exact .of_only (retireNow_only _ _ (List.Subset.refl _) Only.refl) (by decide)
  case isFalse =>
    refine .trans ?_ (.of_serve rfl)
    split
    case isTrue => exact removeEntries_indexed ..
    case isFalse => exact .refl

theorem retireEach_indexed (l : List Nat) : ∀ s : State, Indexed s (retireEach l s) := by
  induction l with
  | nil => exact fun _ => .refl
  | cons f l ih => exact fun s => (retirePending_indexed f s).trans (ih _)

/-- A line that fails puts the frames of its row on the way to retirement. -/
theorem hbmUe_indexed (mc addr line : Nat) (inj : Bool) (s : State) : Indexed s (hbmUe mc addr line inj s) := by
  have hnoted : Indexed s (noteUe (mcIdx mc) line inj (setFlaw line { poison := true } s)) :=
    .of_only (noteUe_only _ _ _ (List.Subset.refl _) (setFlaw_only _ _ (by decide) Only.refl)) (by decide)
  unfold hbmUe
  dsimp only
  split
  case isTrue => exact hnoted
  case isFalse =>
    refine hnoted.trans (.trans ?_ (.of_only (listRow_only _ _ (List.Subset.refl _) Only.refl) (by decide)))
    refine .trans ?_ (retireEach_indexed _ _)
    exact .of_only (logInfo_only _ _ _ _ (by decide) (noteHard_only mc _ line (gs := [.log, .mem, .link, .out]) (by decide) Only.refl)) (by decide)

/-! ## Reads -/

theorem readLine_indexed (line : Nat) (found : List Nat) (s : State) : Indexed s (readLine line found s).2 := by
  have hhit : ∀ mc addr inj bad v, v.serve = s.serve → Indexed s (hbmUe mc addr line inj (setFlaw line bad v)) := fun mc addr inj bad v hv =>
    (Indexed.of_serve (t := setFlaw line bad v) hv).trans (hbmUe_indexed ..)
  unfold readLine
  split
  · exact .refl
  · split
    · exact .refl
    · dsimp only
      split
      · exact .of_only (logLimitedAt_only _ _ _ _ _ _ _ _ (List.Subset.refl _) Only.refl) (by decide)
      · split
        · exact .refl
        · exact .of_only (gs := [.log, .mem, .link, .out])
            (queueRescrub_only _ _ (by decide) (noteCe_only _ _ _ _ (by decide) (setFlaw_only _ _ (by decide) Only.refl))) (by decide)
        · exact hhit _ _ _ _ s rfl
        · exact hhit _ _ _ _ s rfl
        · split
          · exact hhit _ _ _ _ _ rfl
          · exact .of_serve rfl

theorem readPiece_indexed (dpa n : Nat) (s : State) : Indexed s (readPiece dpa n s).2 := by
  unfold readPiece
  split
  · exact readLine_indexed ..
  · split
    · split
      · exact .of_only (readWords_only _ _ _ (List.Subset.refl _) Only.refl) (by decide)
      · exact .refl
    · split <;> exact .refl

theorem readPieces_indexed (k : Nat) : ∀ (dpa n : Nat) (s : State), Indexed s (readPieces k dpa n s).2 := by
  induction k with
  | zero => exact fun _ _ _ => .refl
  | succ k ih =>
    intro dpa n s
    unfold readPieces
    split
    case isTrue => exact .refl
    case isFalse => exact (readPiece_indexed ..).trans (ih ..)

theorem memRead_indexed (dpa n : Nat) (s : State) : Indexed s (memRead dpa n s).2 := by
  have hread := readPieces_indexed (n / 64 + 2) dpa n s
  unfold memRead
  dsimp only
  split
  · exact hread
  · exact hread.trans (.of_serve rfl)
  · exact hread

/-! ## Translated reads -/

theorem walkFrom_indexed (a : Access) (k : Nat) : ∀ (l tbl : Nat) (s : State), Indexed s (walkFrom a k l tbl s).2 := by
  induction k with
  | zero => exact fun _ _ _ => .refl
  | succ k ih =>
    intro l tbl s
    have hread := memRead_indexed (tbl + 8 * levelIndex l a.dva) 8 s
    unfold walkFrom
    dsimp only
    split
    · exact .refl
    · split
      · exact hread
      · split
        · exact hread
        · split
          · exact hread
          · split
            · exact hread
            · exact hread.trans (ih ..)

theorem walk_indexed (a : Access) (s : State) : Indexed s (walk a s).2 := by
  unfold walk
  split
  · exact .refl
  · split
    · exact .refl
    · exact walkFrom_indexed ..

theorem translateAt_indexed (point : Option Nat) (a : Access) (s : State) : Indexed s (translateAt point a s).2 := by
  have hwalk := walk_indexed a s
  unfold translateAt
  split
  · split
    · exact .refl
    · split <;> exact .refl
  · dsimp only
    split
    · exact hwalk
    · exact hwalk.trans (.of_serve rfl)

theorem translate_indexed (a : Access) (s : State) : Indexed s (translate a s).2 := by
  have hat := translateAt_indexed none a s
  unfold Machine.translate
  dsimp only
  split
  · exact hat
  · exact hat.trans (.of_only (mmuFault_only _ _ _ (List.Subset.refl _) Only.refl) (by decide))

theorem dvaReadFrom_indexed (a : Access) (k : Nat) : ∀ (dva n : Nat) (s : State), Indexed s (dvaReadFrom a k dva n s).2 := by
  induction k with
  | zero => exact fun _ _ _ => .refl
  | succ k ih =>
    intro dva n s
    have htr := translate_indexed { a with dva := dva } s
    unfold dvaReadFrom
    dsimp only
    split
    · exact .refl
    · split
      · exact htr
      · have hread := fun d => htr.trans (memRead_indexed d (min n (4096 - dva % 4096)) _)
        split
        · exact hread _
        · exact (hread _).trans (ih ..)

theorem dvaRead_indexed (a : Access) (n : Nat) (s : State) : Indexed s (dvaRead a n s).2 := dvaReadFrom_indexed ..

theorem dvaRead_mbx (a : Access) (n : Nat) (s : State) : (dvaRead a n s).2.mbx = s.mbx :=
  (dvaRead_only a n (List.Subset.refl _) Only.refl).keeps .mbx (by decide)

theorem dvaRead_bytes (a : Access) (n : Nat) (s : State) : (dvaRead a n s).2.mem.bytes = s.mem.bytes :=
  (dvaRead_only a n (List.Subset.refl _) Only.refl).keeps .bytes (by decide)

theorem dvaBytes_indexed (p dva n : Nat) (s : State) : Indexed s (dvaBytes p dva n s).2 := dvaRead_indexed ..

end Sys2Proof.IndexCerts
end

section
/-!
PROOF. Lists of numbered entries: adapters, drafts, vaults, sessions and exchanges are each found by their number. What an entry that is set,
changed or removed leaves to be found.
-/
namespace Sys2Proof.LookCerts

open Sys2Proof.Machine

variable {α : Type} {n k : Nat}

/-- The entry of a number. -/
def look (l : List (Nat × α)) (k : Nat) : Option α := (l.find? fun e => e.1 = k).map Prod.snd

theorem draftOf_eq (s : State) (k : Nat) : s.draftOf k = look s.serve.drafts k := rfl

theorem vault_eq (s : State) (k : Nat) : s.vault k = look s.sealed.vaults k := rfl

theorem cxSess_eq (s : State) (k : Nat) : s.cxSess k = look s.sealed.cx k := rfl

theorem exch_eq (s : State) (k : Nat) : s.exch k = look s.sealed.exchs k := rfl

theorem look_cons (a : Nat) (x : α) (l : List (Nat × α)) (k : Nat) : look ((a, x) :: l) k = if k = a then some x else look l k := by
  unfold look
  by_cases h : k = a
  · simp [h]
  · rw [List.find?_cons_of_neg (by simpa using Ne.symm h), if_neg h]

theorem look_append (l : List (Nat × α)) (a : Nat) (x : α) (h : look l a = none) (k : Nat) :
    look (l ++ [(a, x)]) k = if k = a then some x else look l k := by
  induction l with
  | nil => exact look_cons a x [] k
  | cons e l ih =>
    obtain ⟨b, y⟩ := e
    rw [look_cons] at h
    have hne : a ≠ b := fun hab => by simp [hab] at h
    rw [if_neg hne] at h
    rw [List.cons_append, look_cons, look_cons, ih h]
    split
    case isTrue hk => rw [if_neg (hk ▸ hne.symm)]
    case isFalse => rfl

/-- Nothing of a number that no entry has is removed. -/
theorem filter_ne_of_look (l : List (Nat × α)) (h : look l n = none) : (l.filter fun e => e.1 ≠ n) = l := by
  refine List.filter_eq_self.2 fun e he => decide_eq_true fun heq => ?_
  have hfound := List.find?_eq_none.1 (Option.map_eq_none_iff.1 h) e he
  exact hfound (decide_eq_true heq)

theorem look_ins (t : Tab α) (n : Nat) (x : α) (k : Nat) : look (Tab.ins t n x) k = if k = n then some x else look t k := by
  induction t with
  | nil => exact look_cons n x [] k
  | cons e t ih =>
    obtain ⟨a, v⟩ := e
    rw [Tab.ins]
    split
    case isTrue => rw [look_cons]
    case isFalse =>
      split
      case isTrue h =>
        rw [look_cons, look_cons]
        split
        case isTrue => rfl
        case isFalse hk => rw [if_neg (h ▸ hk)]
      case isFalse h =>
        rw [look_cons, look_cons, ih]
        split
        case isTrue => rw [if_neg (by omega)]
        case isFalse => rfl

theorem look_del (t : Tab α) (n k : Nat) : look (Tab.del t n) k = if k = n then none else look t k := by
  induction t with
  | nil => simp [Tab.del, look]
  | cons e t ih =>
    obtain ⟨a, v⟩ := e
    rw [Tab.del]
    split
    case isTrue h =>
      rw [ih, look_cons]
      split
      case isTrue => rfl
      case isFalse hk => rw [if_neg (h ▸ hk)]
    case isFalse h =>
      rw [look_cons, look_cons, ih]
      split
      case isTrue hk => rw [if_neg (by omega)]
      case isFalse => rfl

/-- Entries of one number are removed. -/
theorem look_filter_ne (l : List (Nat × α)) (n k : Nat) : look (l.filter fun e => e.1 ≠ n) k = if k = n then none else look l k := by
  induction l with
  | nil => simp [look]
  | cons e l ih =>
    obtain ⟨a, x⟩ := e
    by_cases h : a = n
    · rw [List.filter_cons_of_neg (by simpa using h), ih, look_cons]
      split
      · rfl
      · rw [if_neg (by omega)]
    · rw [List.filter_cons_of_pos (by simpa using h), look_cons, look_cons, ih]
      split
      · rw [if_neg (by omega)]
      · rfl

/-- The entry of one number is changed. -/
theorem look_map (l : List (Nat × α)) (n : Nat) (f : α → α) (k : Nat) :
    look (l.map fun e => if e.1 = n then (e.1, f e.2) else e) k = if k = n then (look l k).map f else look l k := by
  induction l with
  | nil => simp [look]
  | cons e l ih =>
    obtain ⟨a, x⟩ := e
    rw [List.map_cons]
    split
    case isTrue h =>
      rw [look_cons, look_cons, ih]
      split
      · rw [if_pos (by simp only at h; omega)]
        rfl
      · rfl
    case isFalse h =>
      rw [look_cons, look_cons, ih]
      split
      · rw [if_neg (by simp only at h; omega)]
      · rfl

end Sys2Proof.LookCerts
end

section
/-!
PROOF. The commands of a mailbox: one whose checks pass acts on the freed mailbox, and what its response leaves there (spec/06 R147 to R155).
-/
namespace Sys2Proof.CommandCerts

open Sys2Proof.Machine Sys2Proof.Laws

variable {n : Fin 16} {s t : State} {gs : List Group}

/-- A command in execution whose checks pass answers what its action leaves. -/
theorem answers_of_command {c : Instr} {op : Nat} {chk : State → Mbx → Checks} {act : State → Mbx → State} {P : State → Prop}
    (hexec : exec c s = .next (command op n.val chk act s)) (hrun : Runs s n op) (hpass : (chk s (s.box n.val)).first = none)
    (h : P (act (s.freed n) (s.box n.val))) : Answers c s P :=
  ⟨_, by rw [hexec, command_run hrun hpass], h⟩

/-- A form of a command acts where its selector names it. -/
theorem answers_of_commandIf {c : Instr} {op : Nat} {sel : Mbx → Bool} {chk : State → Mbx → Checks} {act : State → Mbx → State} {P : State → Prop}
    (hexec : exec c s = .next (commandIf op n.val sel chk act s)) (hsel : sel (s.box n.val) = true) (hrun : Runs s n op)
    (hpass : (chk s (s.box n.val)).first = none) (h : P (act (s.freed n) (s.box n.val))) : Answers c s P :=
  answers_of_command (hexec.trans (by rw [commandIf, if_pos hsel])) hrun hpass h

theorem decideOn_of_pass {c : Checks} (h : c.first = none) (act : State → State) (s : State) : decideOn n.val c act s = act s := by
  rw [decideOn, h]

theorem freed_only (n : Fin 16) (h : .mbx ∈ gs) (k : Only gs s t) : Only gs s (t.freed n) :=
  setBox_only _ _ (List.cons_subset.2 ⟨h, List.nil_subset _⟩) k

theorem replyDone_answer (h : t.mbx = (s.freed n).mbx) (res : List Nat) :
    ((replyDone n.val res [] t).box n.val).outbox = (s.box n.val).outbox ++ [{ status := 0, res := res }] :=
  AttestCerts.replyDone_outbox_of_freed h res []

theorem setAwait_outbox (n : Nat) (a : Await) (s : State) : ((setAwait n a s).box n).outbox = (s.box n).outbox := by
  rw [setAwait, box_setBox_self]

/-- A command that is accepted has its response and waits. -/
theorem accepted_outbox (h : t.mbx = (s.freed n).mbx) (a : Await) :
    ((setAwait n.val a (replyAccepted n.val t)).box n.val).outbox = (s.box n.val).outbox ++ [{ status := 1 }] := by
  rw [setAwait_outbox, replyAccepted, box_reply]
  dsimp only
  rw [box_congr h, box_freed]

end Sys2Proof.CommandCerts
end

section
/-!
PROOF. Adapters, prefixes and drift status (spec/14_pages_prefixes_adapters_drift.md R384 to R386, R395).
-/
namespace Sys2Proof.AdapterCerts

open Sys2Proof.Machine Sys2Proof.Laws Sys2Proof.CommandCerts Sys2Proof.IndexCerts Sys2Proof.LookCerts

variable {n : Fin 16} {s : State} (hmaint : s.units.maint = false) (hexp : (s.box n.val).exp = false)

include hmaint hexp

theorem adapter_registered (hrun : Runs s n 0x0503) (hshape : shape s n.val (s.box n.val) [0, 1] = none) (hdva : (s.box n.val).arg64 0 < 2 ^ 48)
    (hroom : s.serve.adapters.length < 262144) {b : List Byte} {g : Program}
    (hb : (dvaRead (serveAccess (actPart s n.val (s.box n.val)) ((s.box n.val).arg64 0) false) 64 (s.freed n)).1 = .ok b)
    (hg : (s.spart (actPart s n.val (s.box n.val))).program = some g) (hok : adapterOk g b = true)
    (hweights : rangeReadable (s.freed n) (actPart s n.val (s.box n.val)) (leAt b 12 6) (leAt b 24 8) = true) :
    Answers (.adapterRegister n) s fun t =>
      (∃ x, t.adapter (freeAdapter s) = some x ∧ x.part = actPart s n.val (s.box n.val)
        ∧ x.gen = (Tab.get 0 s.serve.adapterGen (freeAdapter s) + 1) % 65536 ∧ x.weightDva = leAt b 12 6 ∧ x.weightBytes = leAt b 24 8)
      ∧ (∀ k, k ≠ freeAdapter s → t.adapter k = s.adapter k)
      ∧ (t.box n.val).outbox = (s.box n.val).outbox
        ++ [{ status := 0, res := [freeAdapter s, (Tab.get 0 s.serve.adapterGen (freeAdapter s) + 1) % 65536] }] := by
  have hserve := dvaRead_indexed (serveAccess (actPart s n.val (s.box n.val)) ((s.box n.val).arg64 0) false) 64 (s.freed n)
  have hmbx := dvaRead_mbx (serveAccess (actPart s n.val (s.box n.val)) ((s.box n.val).arg64 0) false) 64 (s.freed n)
  refine answers_of_command rfl hrun (by simp [first_eq_none, hexp, hshape]) ?_
  have hpart : actPart (s.freed n) n.val (s.box n.val) = actPart s n.val (s.box n.val) := rfl
  dsimp only
  rw [hpart, hexp]
  generalize dvaRead (serveAccess (actPart s n.val (s.box n.val)) ((s.box n.val).arg64 0) false) 64 (s.freed n) = r at hb hserve hmbx
  generalize actPart s n.val (s.box n.val) = p at hg hweights
  have hadapters : r.2.serve.adapters = s.serve.adapters := hserve.keeps Serve.adapters fun _ _ => rfl
  have hgens : r.2.serve.adapterGen = s.serve.adapterGen := hserve.keeps Serve.adapterGen fun _ _ => rfl
  simp only [hb]
  rw [decideOn_of_pass]
  · have hlook := fun x => look_ins r.2.serve.adapters (freeAdapter s) x
    refine ⟨⟨_, (hlook _ _).trans (if_pos rfl), rfl, ?_, rfl, rfl⟩, fun k hk => ?_, ?_⟩
    · rw [hgens]
      rfl
    · exact (hlook _ k).trans ((if_neg hk).trans (by rw [hadapters]; rfl))
    · rw [hgens]
      exact replyDone_answer hmbx _
  · have hgood : (((s.freed n).spart p).program.elim false fun g => adapterOk g b) = true := by
      rw [show ((s.freed n).spart p).program = some g from hg]
      exact hok
    have hbusy : maintBusy (s.freed n) = none := failIf_eq_none.2 hmaint
    have hspace : (s.freed n).serve.adapters.length < 262144 := hroom
    simpa [first_eq_none, firstFail_cons_eq_none, failIf_eq_none, hgood, hweights, hbusy, hspace] using hdva

omit hexp in
theorem adapter_removed (hrun : Runs s n 0x0504) (hshape : shape s n.val (s.box n.val) [0] = none) {x : Adapter}
    (hx : s.adapter ((s.box n.val).arg 0) = some x) (hpart : x.part = actPart s n.val (s.box n.val))
    (hpins : adapterPins s ((s.box n.val).arg 0) = 0) : Answers (.adapterRemove n) s fun t =>
      t.adapter ((s.box n.val).arg 0) = none ∧ (∀ k, k ≠ (s.box n.val).arg 0 → t.adapter k = s.adapter k)
      ∧ (t.box n.val).outbox = (s.box n.val).outbox ++ [{ status := 0 }] ∧ KeepsBut [.mbx, .serve] s t := by
  refine answers_of_command rfl hrun ?_ ?_
  · simp [first_eq_none, firstFail_cons_eq_none, failIf_eq_none, hshape, hx, hpart, hpins, maintBusy, hmaint]
  · have hlook := look_del s.serve.adapters ((s.box n.val).arg 0)
    refine ⟨(hlook _).trans (if_pos rfl), fun k hk => (hlook k).trans (if_neg hk), replyDone_answer rfl [], ?_⟩
    exact (replyDone_only _ _ _ (by decide) (Only.atServe (by decide) (freed_only _ (by decide) Only.refl))).keeps

theorem prefixes_flushed (hrun : Runs s n 0x0508) (hshape : shape s n.val (s.box n.val) [0, 1] = none) (hscope : (s.box n.val).arg 0 < 3)
    (hall : (s.box n.val).arg 0 = 0 → (s.box n.val).arg 1 = 0) (harg : (s.box n.val).arg 1 < 65536) :
    let m := s.box n.val
    let p := actPart s n.val m
    Answers (.prefixFlush n) s fun t =>
        t.serve.index = s.serve.index.filter (fun e => !(e.2.part = p && (m.arg 0 = 0 || ((m.arg 0 = 1 && e.2.adapter = some (m.arg 1))
          || (m.arg 0 = 2 && e.2.tenant = m.arg 1)))))
        ∧ (∀ e ∈ s.serve.index, e.2.part ≠ p → e ∈ t.serve.index)
        ∧ (t.box n.val).outbox = m.outbox ++ [{ status := 0 }] ∧ t.mem.bytes = s.mem.bytes := by
  dsimp only
  have hbytes : ∀ f, (removeEntries f (s.freed n)).mem.bytes = s.mem.bytes := fun f =>
    (removeEntries_only f (List.Subset.refl _) Only.refl).keeps .bytes (by decide)
  have hmbx : ∀ f, (removeEntries f (s.freed n)).mbx = (s.freed n).mbx := fun f =>
    (removeEntries_only f (List.Subset.refl _) Only.refl).keeps .mbx (by decide)
  refine answers_of_command rfl hrun ?_ ?_
  · simp [first_eq_none, firstFail_cons_eq_none, failIf_eq_none, hshape, hexp, maintBusy, hmaint]
    omega
  · have hindex : (removeEntries (fun _ e => flushHits (actPart s n.val (s.box n.val)) ((s.box n.val).arg 0) ((s.box n.val).arg 1)
        (if (s.box n.val).exp then (s.box n.val).arg 2 else 0) (s.serve.step % 2 ^ 32) e) (s.freed n)).serve.index = _ :=
      congrArg Serve.index (removeEntries_serve ..)
    refine ⟨hindex.trans ?_, fun e he hother => ?_, replyDone_answer (hmbx _) [], hbytes _⟩
    · simp [hexp, flushHits]; rfl
    · refine hindex.symm ▸ List.mem_filter.2 ⟨he, ?_⟩
      simp [flushHits, hother]

theorem exec_driftStatus (hrun : Runs s n 0x0507) (hshape : shape s n.val (s.box n.val) [] = none) :
    let p := actPart s n.val (s.box n.val)
    exec (.driftStatus n) s = .next (replyDone n.val
        [driftPagesAll s, s.serve.driftUsed.length, driftBadCount s, countSessions s p fun r => r.st = .drifted,
          countSessions s p fun r => r.move.elim false fun x => x.out = true, countSessions s p fun r => r.move.elim false fun x => x.out = false,
          s.serve.expiries, s.serve.losses] [] (s.freed n)) := by
  have hexec : exec (.driftStatus n) s = execDriftStatus n s := rfl
  dsimp only
  rw [hexec, execDriftStatus, command_run hrun]
  · dsimp only
    rw [hexp, if_neg Bool.false_ne_true]
    rfl
  · simp [first_eq_none, firstFail_cons_eq_none, failIf_eq_none, hshape, hexp, maintBusy, hmaint]

omit hmaint hexp

/-- Settles O51: each command once its checks have passed. -/
theorem adaptersAndPrefixes : Obligations.AdaptersAndPrefixes := fun _n _s hmaint hexp =>
  ⟨fun hrun hshape hdva hroom _b _g => adapter_registered hmaint hexp hrun hshape hdva hroom,
    fun hrun hshape _x => adapter_removed hmaint hrun hshape, prefixes_flushed hmaint hexp, exec_driftStatus hmaint hexp⟩

end Sys2Proof.AdapterCerts
end

section
/-!
PROOF. Share vaults and the DRBG (spec/16_sealed_arithmetic_crosswind.md R435 to R442).
-/
namespace Sys2Proof.VaultCerts

open Sys2Proof.Machine Sys2Proof.Laws Sys2Proof.CommandCerts Sys2Proof.LookCerts

variable {s : State} {x : Vault}

/-! ## Frames that become zeros (R438, R442) -/

/-- Entries whose number a condition names are removed. -/
theorem get_filter_not {α : Type} (d : α) (t : Tab α) (q : Nat → Bool) (k : Nat) :
    Tab.get d (t.filter fun e => !q e.1) k = if q k then d else Tab.get d t k := by
  induction t with
  | nil => simp [Tab.get]
  | cons e t ih =>
    obtain ⟨a, y⟩ := e
    by_cases hq : q a = true
    · rw [List.filter_cons_of_neg (by simp [hq]), ih, Tab.get]
      split
      · rfl
      · rw [if_neg (fun hk : k = a => by simp_all)]
    · rw [List.filter_cons_of_pos (by simp [hq]), Tab.get, Tab.get, ih]
      split
      · rw [if_neg (by simp_all)]
      · rfl

theorem zeroFrames_byte (l : List Nat) (s : State) (a : Nat) :
    Tab.get 0 (zeroFrames l s).mem.bytes a = if a / 65536 ∈ l then 0 else Tab.get 0 s.mem.bytes a := by
  have hget := get_filter_not (0 : Byte) s.mem.bytes (fun k => decide (k / 65536 ∈ l)) a
  simp only [decide_eq_true_eq] at hget
  exact hget

/-! ## Vaults found by their slot -/

theorem modVault_vault (v : Nat) (f : Vault → Vault) (s : State) (k : Nat) :
    (modVault v f s).vault k = if k = v then (s.vault k).map f else s.vault k := look_map s.sealed.vaults v f k

theorem vault_congr {t : State} (h : t.sealed.vaults = s.sealed.vaults) (k : Nat) : t.vault k = s.vault k := by
  simp only [State.vault, h]

theorem logInfo_sealed (code ut inst : Nat) (d : List Nat) (s : State) : (logInfo code ut inst d s).sealed = s.sealed :=
  (logInfo_only _ _ _ _ (List.Subset.refl _) Only.refl).keeps .sealed (by decide)

theorem logSec_sealed (code ut inst : Nat) (d : List Nat) (s : State) : (logSec code ut inst d s).sealed = s.sealed :=
  (logSec_only _ _ _ _ (List.Subset.refl _) Only.refl).keeps .sealed (by decide)

/-- A change that is recorded, seen by the vault and by the other slots. -/
theorem changed_vault {t : State} {v : Nat} {f : Vault → Vault} (hx : s.vault v = some x) (h : t.sealed.vaults = (modVault v f s).sealed.vaults) :
    t.vault v = some (f x) ∧ ∀ k, k ≠ v → t.vault k = s.vault k := by
  refine ⟨?_, fun k hk => ?_⟩
  · rw [vault_congr h, modVault_vault, if_pos rfl, hx]
    rfl
  · rw [vault_congr h, modVault_vault, if_neg hk]

/-! ## Opening (R438) -/

section Open

variable {v p life : Nat} {frames metas : List Nat}

theorem openVault_only (v p life : Nat) (frames metas : List Nat) (s : State) :
    Only [.mem, .sealed, .freeCtr, .bytes] s (openVault v p life frames metas s) :=
  Only.atSealed (by decide) (zeroFrames_only _ (by decide) (drbgDraw_only (by decide) (markFrames_only _ _ (by decide) Only.refl)))

theorem openVault_now : (zeroFrames frames (drbgDraw (markFrames { use := .system, part := p } metas s))).now = s.now := by
  have haon : (zeroFrames frames (drbgDraw (markFrames { use := .system, part := p } metas s))).aon = s.aon :=
    (zeroFrames_only (gs := [.mem, .sealed, .freeCtr, .bytes]) frames (by decide)
      (drbgDraw_only (by decide) (markFrames_only _ _ (by decide) Only.refl))).keeps .aon (by decide)
  rw [State.now, haon, State.now]

theorem markFrames_sealed (r : FrameRec) (l : List Nat) (s : State) : (markFrames r l s).sealed = s.sealed :=
  (markFrames_only _ _ (List.Subset.refl _) Only.refl).keeps .sealed (by decide)

theorem openVault_vault (k : Nat) : (openVault v p life frames metas s).vault k =
    if k = v then some { part := p, frames := frames, metaFrames := metas, lifeEnd := s.now + life * 1000000000 } else s.vault k := by
  have hvaults : (zeroFrames frames (drbgDraw (markFrames { use := .system, part := p } metas s))).sealed.vaults = s.sealed.vaults := by
    have hmarked := congrArg Sealed.vaults (markFrames_sealed { use := .system, part := p } metas s)
    exact hmarked
  have hlook := look_cons v
    ({ part := p, frames := frames, metaFrames := metas
       lifeEnd := (zeroFrames frames (drbgDraw (markFrames { use := .system, part := p } metas s))).now + life * 1000000000 } : Vault)
    (zeroFrames frames (drbgDraw (markFrames { use := .system, part := p } metas s))).sealed.vaults k
  rw [openVault_now, hvaults] at hlook
  rw [vault_eq, openVault]
  dsimp only
  rw [openVault_now, hvaults]
  exact hlook

theorem openVault_byte (a : Nat) : Tab.get 0 (openVault v p life frames metas s).mem.bytes a =
    if a / 65536 ∈ frames then 0 else Tab.get 0 s.mem.bytes a := by
  have hbytes : (drbgDraw (markFrames { use := .system, part := p } metas s)).mem.bytes = s.mem.bytes :=
    (drbgDraw_only (gs := [.mem, .sealed, .freeCtr]) (by decide) (markFrames_only _ _ (by decide) Only.refl)).keeps .bytes (by decide)
  exact (zeroFrames_byte frames _ a).trans (by rw [hbytes])

end Open

/-! ## Closing (R442, R447) -/

theorem abortCx_sealed (i : Nat) (r : CxReason) (s : State) :
    (abortCx i r s).sealed = { s.sealed with cx := s.sealed.cx.filter fun e => e.1 ≠ i } := by
  have hue : ∀ c code l t, (logUe c code 0x00 0 l t).sealed = t.sealed := fun c code l t =>
    (logUe_only c code 0x00 0 l (List.Subset.refl _) Only.refl).keeps .sealed (by decide)
  rw [abortCx]
  dsimp only
  rw [hue]
  split <;> rfl

/-- The sessions of a list are gone, and nothing else of the sealed state has changed. -/
theorem abortAllCx_sealed (r : CxReason) (l : List Nat) : ∀ s : State,
    (abortAllCx r l s).sealed = { s.sealed with cx := s.sealed.cx.filter fun e => e.1 ∉ l } := by
  induction l with
  | nil => exact fun s => by simp [abortAllCx]
  | cons i l ih =>
    intro s
    rw [abortAllCx, ih, abortCx_sealed]
    dsimp only
    rw [List.filter_filter]
    simp only [List.mem_cons, not_or, ne_eq, Bool.decide_and, Bool.and_comm]

section Close

variable {v : Nat}

/-- What a vault leaves when it closes. -/
structure Closed (v : Nat) (x : Vault) (s t : State) : Prop where
  gone : t.vault v = none
  others : ∀ k, k ≠ v → t.vault k = s.vault k
  sessions : ∀ e ∈ t.sealed.cx, e.2.vault ≠ v
  byte : ∀ a, Tab.get 0 t.mem.bytes a = if a / 65536 ∈ x.frames then 0 else Tab.get 0 s.mem.bytes a

theorem closeVault_closes (cause : Nat) (hx : s.vault v = some x) : Closed v x s (closeVault v cause s) := by
  have habort := abortAllCx_sealed .vaultClosed ((s.sealed.cx.filter fun e => e.2.vault = v).map Prod.fst) s
  have hbytes : (abortAllCx .vaultClosed ((s.sealed.cx.filter fun e => e.2.vault = v).map Prod.fst) s).mem = s.mem :=
    (abortAllCx_only _ _ (List.Subset.refl _) Only.refl).keeps .mem (by decide)
  have hfree : ∀ l u, Only [.store, .log, .mem, .link, .out] u (logInfo 0x060A 0x00 0 [v, cause] (freeFrames l u)) := fun l u =>
    logInfo_only _ _ _ _ (by decide) (freeFrames_only _ (List.Subset.refl _) Only.refl)
  unfold closeVault
  rw [hx]
  dsimp only
  generalize abortAllCx .vaultClosed ((s.sealed.cx.filter fun e => e.2.vault = v).map Prod.fst) s = u at habort hbytes
  generalize hw : zeroFrames x.frames { u with sealed := { u.sealed with vaults := u.sealed.vaults.filter fun e => e.1 ≠ v } } = w
  have hsealed : (logInfo 0x060A 0x00 0 [v, cause] (freeFrames x.metaFrames w)).sealed =
      { u.sealed with vaults := u.sealed.vaults.filter fun e => e.1 ≠ v } :=
    ((hfree _ w).keeps .sealed (by decide)).trans (by rw [← hw]; rfl)
  have hlook : ∀ k, (logInfo 0x060A 0x00 0 [v, cause] (freeFrames x.metaFrames w)).vault k = if k = v then none else s.vault k := by
    intro k
    rw [vault_eq, hsealed, habort]
    exact look_filter_ne s.sealed.vaults v k
  refine ⟨(hlook v).trans (if_pos rfl), fun k hk => (hlook k).trans (if_neg hk), fun e he => ?_, fun a => ?_⟩
  · rw [hsealed, habort] at he
    obtain ⟨hmem, hout⟩ := List.mem_filter.1 he
    simp only [List.mem_map, List.mem_filter, decide_eq_true_eq, not_exists, not_and] at hout
    exact fun hv => hout e ⟨hmem, hv⟩ rfl
  · rw [(hfree _ w).keeps .bytes (by decide), ← hw, zeroFrames_byte]
    dsimp only
    rw [hbytes]

end Close

section Commands

variable {n : Fin 16} (hkind : partKind s (mbxPart s n.val) = .vault)

include hkind

theorem vault_opened {metas : List Nat} (hrun : Runs s n 0x0604) (hslot : (s.box n.val).arg 0 < 32) (hlife : 1 ≤ (s.box n.val).arg 1)
    (hmax : (s.box n.val).arg 1 ≤ s.prot.vault.life) (hinput : (s.box n.val).input ≠ []) (hlen : (s.box n.val).input.length ≤ 65536)
    (hwords : (s.box n.val).input.length % 4 = 0) (hframes : vaultFramesOk s (mbxPart s n.val) (frameList (s.box n.val)) = true)
    (hfree : s.vault ((s.box n.val).arg 0) = none) (hup : drbgDown s = false)
    (hmetas : (steward (mbxPart s n.val) (ceilDiv (frameList (s.box n.val)).length 32) 3 false false n.val (s.freed n)).1 = .ok metas) :
    Answers (.vaultOpen n) s fun t =>
      t.vault ((s.box n.val).arg 0) = some { part := mbxPart s n.val, frames := frameList (s.box n.val), metaFrames := metas
                                             lifeEnd := s.now + (s.box n.val).arg 1 * 1000000000 }
      ∧ (∀ k, k ≠ (s.box n.val).arg 0 → t.vault k = s.vault k)
      ∧ (∀ a, Tab.get 0 t.mem.bytes a = if a / 65536 ∈ frameList (s.box n.val) then 0 else Tab.get 0 s.mem.bytes a)
      ∧ (t.box n.val).outbox = (s.box n.val).outbox ++ [{ status := 0 }] := by
  have hgrant : Only [.store, .log, .mem, .serve, .link, .out] (s.freed n)
      (steward (mbxPart s n.val) (ceilDiv (frameList (s.box n.val)).length 32) 3 false false n.val (s.freed n)).2 :=
    steward_only _ _ _ _ _ _ (List.Subset.refl _) Only.refl
  refine answers_of_command rfl hrun ?_ ?_
  · simp [first_eq_none, firstFail_cons_eq_none, failIf_eq_none, needVault, hkind, hinput, hlen, hwords, hframes, hfree, hup]
    omega
  · have hpart : mbxPart (s.freed n) n.val = mbxPart s n.val := rfl
    dsimp only
    rw [hpart]
    generalize steward (mbxPart s n.val) (ceilDiv (frameList (s.box n.val)).length 32) 3 false false n.val (s.freed n) = r at hmetas hgrant
    obtain ⟨a, u⟩ := r
    obtain rfl := hmetas
    have hnow : u.now = s.now := congrArg (fun x : Aon => x.timeNs.toNat) (hgrant.keeps .aon (by decide))
    have hvaults : u.sealed.vaults = s.sealed.vaults := congrArg Sealed.vaults (hgrant.keeps .sealed (by decide))
    have hbytes : u.mem.bytes = s.mem.bytes := hgrant.keeps .bytes (by decide)
    have hmbx : (openVault ((s.box n.val).arg 0) (mbxPart s n.val) ((s.box n.val).arg 1) (frameList (s.box n.val)) metas u).mbx
        = (s.freed n).mbx :=
      ((openVault_only ..).keeps .mbx (by decide)).trans (hgrant.keeps .mbx (by decide))
    refine ⟨(openVault_vault _).trans ?_, fun k hk => (openVault_vault k).trans ?_, fun a => (openVault_byte (v := (s.box n.val).arg 0) (life := (s.box n.val).arg 1) a).trans (by rw [hbytes]),
      replyDone_answer hmbx []⟩
    · rw [if_pos rfl, hnow]
    · rw [if_neg hk, vault_congr hvaults]

theorem vault_closed {x : Vault} (hrun : Runs s n 0x0605) (hx : s.vault ((s.box n.val).arg 0) = some x) (hpart : x.part = mbxPart s n.val) :
    Answers (.vaultClose n) s fun t =>
      t.vault ((s.box n.val).arg 0) = none ∧ (∀ k, k ≠ (s.box n.val).arg 0 → t.vault k = s.vault k)
      ∧ (∀ e ∈ t.sealed.cx, e.2.vault ≠ (s.box n.val).arg 0)
      ∧ (∀ a, Tab.get 0 t.mem.bytes a = if a / 65536 ∈ x.frames then 0 else Tab.get 0 s.mem.bytes a)
      ∧ (t.box n.val).outbox.getLast? = some { status := 0 } := by
  refine answers_of_command rfl hrun ?_ ?_
  · simp [first_eq_none, failIf_eq_none, needVault, hkind, ownVault, hx, hpart]
  · obtain ⟨hgone, hothers, hsessions, hbyte⟩ := closeVault_closes (s := s.freed n) 0 hx
    refine ⟨hgone, hothers, hsessions, hbyte, ?_⟩
    rw [PinCerts.replyDone_outbox, List.getLast?_concat]

end Commands

/-! ## Epoch changes (R440) -/

section Rekey

variable {v : Fin 32} (hx : s.vault v.val = some x)

include hx

theorem life_ends : Answers (.vaultLifeExpiry v) s fun t =>
    t.vault v.val = none ∧ (∀ k, k ≠ v.val → t.vault k = s.vault k) ∧ (∀ e ∈ t.sealed.cx, e.2.vault ≠ v.val)
    ∧ (∀ a, Tab.get 0 t.mem.bytes a = if a / 65536 ∈ x.frames then 0 else Tab.get 0 s.mem.bytes a) := by
  obtain ⟨hgone, hothers, hsessions, hbyte⟩ := closeVault_closes 1 hx
  exact ⟨_, rfl, hgone, hothers, hsessions, hbyte⟩

theorem exec_vaultRekey : exec (.vaultRekey v) s = .next (if rekeyDue x then askChange v.val s else s) := by
  have hexec : exec (.vaultRekey v) s = execVaultRekey v s := rfl
  rw [hexec, execVaultRekey, hx]
  rfl

theorem change_begins (hidle : x.changing = false) (hdue : ∃ e ∈ x.ctr, 0x7000 ≤ e.2) (hup : drbgDown s = false) :
    Answers (.vaultRekey v) s fun t =>
      t.vault v.val = some { x with changing := true, again := false, waitKey := false, heldNoted := false }
      ∧ (∀ k, k ≠ v.val → t.vault k = s.vault k) ∧ t.sealed.drbg.reqs = s.sealed.drbg.reqs + 1
      ∧ KeepsBut [.log, .sealed, .link, .out, .freeCtr] s t := by
  have hrekey : rekeyDue x = true := by simpa [rekeyDue, hidle] using hdue
  have hask : askChange v.val s = logInfo 0x0607 0x00 0 [v.val, 0]
      (drbgDraw (modVault v.val (fun x => { x with changing := true, again := false, waitKey := false, heldNoted := false }) s)) := by
    rw [askChange, hx]
    dsimp only
    rw [hidle, if_neg Bool.false_ne_true, beginChange, hup, if_neg Bool.false_ne_true]
  refine ⟨_, by rw [exec_vaultRekey hx, if_pos hrekey, hask], ?_⟩
  have hdraw : ∀ u : State, (logInfo 0x0607 0x00 0 [v.val, 0] (drbgDraw u)).sealed.vaults = u.sealed.vaults := by
    intro u
    rw [logInfo_sealed]
    rfl
  obtain ⟨hnew, hothers⟩ := changed_vault hx (hdraw _)
  refine ⟨hnew, hothers, congrArg (fun z : Sealed => z.drbg.reqs) (logInfo_sealed ..), ?_⟩
  exact (logInfo_only _ _ _ _ (by decide) (drbgDraw_only (by decide) (modVault_only _ _ (by decide) Only.refl))).keeps

theorem change_noted (hrunning : x.changing = true) : Answers (.vaultRekey v) s fun t =>
    t.vault v.val = some { x with again := true } ∧ KeepsBut [.sealed] s t := by
  have hask : askChange v.val s = modVault v.val (fun x => { x with again := true }) s := by
    rw [askChange, hx]
    exact if_pos hrunning
  refine ⟨_, by rw [exec_vaultRekey hx, if_pos (by simp [rekeyDue, hrunning]), hask], ?_, (modVault_only _ _ (by decide) Only.refl).keeps⟩
  exact (changed_vault (f := fun x => { x with again := true }) hx rfl).1

theorem change_ends (hrunning : x.changing = true) (hheld : x.held = []) (hagain : x.again = false) : Answers (.vaultRekeyDone v) s fun t =>
    t.vault v.val = some { x with changing := false, epoch := x.epoch + 1, ctr := [] } ∧ (∀ k, k ≠ v.val → t.vault k = s.vault k)
    ∧ t.mem = s.mem ∧ KeepsBut [.log, .sealed, .link, .out] s t := by
  have hend : endChange v.val s = logInfo 0x0607 0x00 0 [v.val, 1]
      (modVault v.val (fun y => { y with changing := false, epoch := y.epoch + 1, ctr := [], held := [] }) s) := by
    rw [endChange, hx]
    dsimp only
    rw [hrunning, hheld, hagain]
    rfl
  have hkeeps : Only [.log, .sealed, .link, .out] s (logInfo 0x0607 0x00 0 [v.val, 1]
      (modVault v.val (fun y => { y with changing := false, epoch := y.epoch + 1, ctr := [], held := [] }) s)) :=
    logInfo_only _ _ _ _ (by decide) (modVault_only _ _ (by decide) Only.refl)
  obtain ⟨hnew, hothers⟩ := changed_vault (f := fun y => { y with changing := false, epoch := y.epoch + 1, ctr := [], held := [] }) hx
    (congrArg Sealed.vaults (logInfo_sealed 0x0607 0x00 0 [v.val, 1] (modVault v.val _ s)))
  refine ⟨_, congrArg Host.Outcome.next hend, hnew.trans ?_, hothers, hkeeps.keeps .mem (by decide), hkeeps.keeps⟩
  rw [← hheld]

end Rekey

/-! ## The DRBG (R435 to R437) -/

/-- No vault waits for a key, so none goes on after a reseed. -/
theorem retryChanges_of_none_waiting (l : List (Nat × Vault)) (h : ∀ e ∈ l, e.2.waitKey = false) : ∀ s : State, retryChanges l s = s := by
  induction l with
  | nil => exact fun _ => rfl
  | cons e l ih =>
    intro s
    rw [retryChanges, h e List.mem_cons_self, if_neg Bool.false_ne_true]
    exact ih (fun e he => h e (List.mem_cons_of_mem _ he)) s

/-- The interval starts again. -/
def reseeded (s : State) : State := { s with sealed := { s.sealed with drbg := { s.sealed.drbg with reqs := 0, exhausted := false } } }

theorem reseed_of_none_waiting (h : ∀ e ∈ s.sealed.vaults, e.2.waitKey = false) : reseed s = reseeded s := retryChanges_of_none_waiting _ h _

theorem exec_drbgReseedAuto (hcan : canReseed s = true) (hwait : ∀ e ∈ s.sealed.vaults, e.2.waitKey = false)
    (hreqs : 2 ^ 20 - 2 ^ 16 ≤ s.sealed.drbg.reqs) : exec .drbgReseedAuto s = .next (reseeded s) := by
  rw [← reseed_of_none_waiting hwait]
  exact congrArg Host.Outcome.next (if_pos (by rw [hcan, decide_eq_true hreqs]; rfl))

theorem drbg_reseeded {n : Fin 16} (hcan : canReseed s = true) (hwait : ∀ e ∈ s.sealed.vaults, e.2.waitKey = false) (hrun : Runs s n 0x0606)
    (hhost : (s.box n.val).inHost = false) (hlen : (s.box n.val).input.length ≤ 48) : Answers (.drbgReseed n) s fun t =>
      t.sealed = { s.sealed with drbg := { s.sealed.drbg with reqs := 0, exhausted := false } }
      ∧ (t.box n.val).outbox = (s.box n.val).outbox ++ [{ status := 0 }] ∧ KeepsBut [.mbx, .sealed] s t := by
  have hseed : reseed (s.freed n) = reseeded (s.freed n) := reseed_of_none_waiting hwait
  refine answers_of_command rfl hrun (by simp [first_eq_none, failIf_eq_none, hhost, hlen, hcan]) ?_
  dsimp only
  rw [hseed]
  exact ⟨rfl, replyDone_answer rfl [], (replyDone_only _ _ _ (by decide) (Only.atSealed (by decide) (freed_only _ (by decide) Only.refl))).keeps⟩

theorem drbg_rests (h : s.sealed.drbg.reqs < 2 ^ 20 - 2 ^ 16) : exec .drbgReseedAuto s = .next s ∧ exec .drbgExhausted s = .next s := by
  refine ⟨congrArg Host.Outcome.next (if_neg ?_), congrArg Host.Outcome.next (if_neg ?_)⟩
  · rw [decide_eq_false (Nat.not_le.2 h), Bool.and_false]
    exact Bool.false_ne_true
  · rw [decide_eq_false (by omega), Bool.and_false, Bool.and_false]
    exact Bool.false_ne_true

theorem drbg_exhausted (hready : s.sealed.drbg.ready = true) (hnew : s.sealed.drbg.exhausted = false) (hreqs : 2 ^ 20 ≤ s.sealed.drbg.reqs) :
    Answers .drbgExhausted s fun t =>
      t.sealed.drbg = { s.sealed.drbg with exhausted := true } ∧ drbgDown t = true ∧ KeepsBut [.log, .sealed, .link, .out] s t := by
  have hdrbg := congrArg Sealed.drbg (logSec_sealed 0x0606 0x00 0 [] { s with sealed := { s.sealed with drbg := { s.sealed.drbg with exhausted := true } } })
  refine ⟨_, congrArg Host.Outcome.next (if_pos (by rw [hready, hnew, decide_eq_true hreqs]; rfl)), hdrbg, ?_, ?_⟩
  · rw [drbgDown, hdrbg]
    simp
  · exact (logSec_only _ _ _ _ (by decide) (Only.atSealed (by decide) Only.refl)).keeps

theorem entropy_fails (hgood : s.sealed.drbg.srcFailed = false) : Answers .entropyFail s fun t =>
    t.sealed = { s.sealed with drbg := { s.sealed.drbg with srcFailed := true } } ∧ canReseed t = false
    ∧ KeepsBut [.log, .sealed, .link, .out] s t := by
  have hsealed := logSec_sealed 0x0605 0x00 0 [] { s with sealed := { s.sealed with drbg := { s.sealed.drbg with srcFailed := true } } }
  refine ⟨_, congrArg Host.Outcome.next (if_neg (by simp [hgood])), hsealed, ?_, ?_⟩
  · rw [canReseed, hsealed, Bool.not_true, Bool.and_false]
  · exact (logSec_only _ _ _ _ (by decide) (Only.atSealed (by decide) Only.refl)).keeps

/-- Settles O55: a vault from its opening through its epochs to its end, and the DRBG by what its counters say. -/
theorem vaultsAndDrbg : Obligations.VaultsAndDrbg := by
  refine ⟨fun n s hkind _ => ⟨fun metas => vault_opened hkind, fun x => vault_closed hkind⟩, fun v x s hx => ⟨life_ends hx, fun hrest => ?_,
    change_begins hx, change_noted hx, change_ends hx⟩, fun s => ⟨fun hcan hwait => ⟨exec_drbgReseedAuto hcan hwait,
    fun n hrun _ => drbg_reseeded hcan hwait hrun⟩, drbg_rests, drbg_exhausted, entropy_fails⟩⟩
  rw [exec_vaultRekey hx, hrest, if_neg Bool.false_ne_true]

end Sys2Proof.VaultCerts
end

section
/-!
PROOF. What a write of memory leaves of the serving state and of the sealed groups: entries of a frame that is retired leave the
index of prefixes, and a write to a line of a vault is counted or held in that vault (spec/16_sealed_arithmetic_crosswind.md R439, R440).
-/
namespace Sys2Proof.WriteCerts

open Sys2Proof.Machine Sys2Proof.Laws Sys2Proof.IndexCerts

variable {s t u : State} {gs : List Group}

/-- Of the serving state only the index of prefixes differs, and of the sealed state only the vaults. -/
structure Wrote (s t : State) : Prop where
  indexed : Indexed s t
  vaulted : t.sealed = { s.sealed with vaults := t.sealed.vaults }

theorem Wrote.of_eq (hserve : t.serve = s.serve) (hsealed : t.sealed = s.sealed) : Wrote s t := ⟨.of_serve hserve, by rw [hsealed]⟩

theorem Wrote.refl : Wrote s s := .of_eq rfl rfl

theorem Wrote.trans (h : Wrote s t) (k : Wrote t u) : Wrote s u := by
  refine ⟨h.indexed.trans k.indexed, ?_⟩
  have hu := k.vaulted
  rw [h.vaulted] at hu
  exact hu

theorem Wrote.of_only (k : Only gs s t) (hserve : .serve ∉ gs) (hsealed : .sealed ∉ gs) : Wrote s t :=
  .of_eq (k.keeps .serve hserve) (k.keeps .sealed hsealed)

/-- What leaves the sealed state alone. -/
theorem Wrote.of_indexed (h : Indexed s t) (k : Only gs s t) (hsealed : .sealed ∉ gs) : Wrote s t := ⟨h, by rw [k.keeps .sealed hsealed]⟩

/-- What does not look at the vaults reads as before. -/
theorem Wrote.keeps {β : Type} (h : Wrote s t) (f : Sealed → β) (hf : ∀ x l, f { x with vaults := l } = f x) : f t.sealed = f s.sealed := by
  rw [h.vaulted, hf]

theorem storeLine_wrote (dpa : Nat) (data : List Byte) (found : List Nat) (s : State) : Wrote s (storeLine dpa data found s).2 := by
  have hall : Only [.store, .log, .mem, .serve, .link, .out, .freeCtr, .bytes] s (storeLine dpa data found s).2 :=
    storeLine_only _ _ _ (List.Subset.refl _) Only.refl
  refine .of_indexed ?_ hall (by decide)
  unfold storeLine
  dsimp only
  split
  · exact .refl
  · split
    · exact .refl
    · split
      · refine .trans (.of_serve rfl : Indexed s (poke (dpa / 64 * 64) data (setFlaw (dpa / 64 * 64) {} s))) ?_
        exact .of_only (meetInjection_only _ (List.Subset.refl _) Only.refl) (by decide)
      · split
        · exact .refl
        · split
          · exact .of_serve rfl
          · exact .trans (.of_only (gs := [.log, .mem, .link, .out]) (noteCe_only _ _ _ _ (by decide) (setFlaw_only _ _ (by decide) Only.refl))
              (by decide)) (.of_serve rfl)
          · exact hbmUe_indexed ..
          · exact hbmUe_indexed ..
          · split
            · exact (Indexed.of_serve (t := { s with freeCtr := s.freeCtr + 65 }) rfl).trans (hbmUe_indexed ..)
            · exact .of_only (gs := [.mem, .freeCtr, .bytes]) (poke_only _ _ (by decide) (poke_only _ _ (by decide)
                (setFlaw_only _ _ (by decide) (Only.atFreeCtr (by decide) Only.refl)))) (by decide)

theorem writeLine_wrote (dpa : Nat) (data : List Byte) (found : List Nat) (s : State) : Wrote s (writeLine dpa data found s).2 := by
  have hstore := storeLine_wrote dpa data found s
  unfold writeLine
  split
  · exact hstore
  · rename_i v x _
    split
    · unfold holdWrite
      have hheld : Wrote s (modVault v (fun x => { x with held := x.held ++ [(dpa, data)], heldNoted := true }) s) := ⟨.of_serve rfl, rfl⟩
      dsimp only
      split
      · exact hheld
      · exact hheld.trans (.of_only (logInfo_only _ _ _ _ (List.Subset.refl _) Only.refl) (by decide) (by decide))
    · dsimp only
      split
      · exact hstore.trans ⟨.of_serve rfl, rfl⟩
      · exact hstore

theorem writePiece_wrote (dpa : Nat) (data : List Byte) (s : State) : Wrote s (writePiece dpa data s).2 := by
  unfold writePiece
  split
  · exact writeLine_wrote ..
  · split
    · split
      · exact .of_only (writeWords_only _ _ _ _ (List.Subset.refl _) Only.refl) (by decide) (by decide)
      · exact .refl
    · split
      · exact .of_eq rfl rfl
      · exact .refl

theorem writePieces_wrote (k : Nat) : ∀ (dpa : Nat) (data : List Byte) (s : State), Wrote s (writePieces k dpa data s).2 := by
  induction k with
  | zero => exact fun _ _ _ => .refl
  | succ k ih =>
    intro dpa data s
    cases data with
    | nil => exact .refl
    | cons b l => exact (writePiece_wrote ..).trans (ih ..)

theorem memWrite_wrote (dpa : Nat) (data : List Byte) (s : State) : Wrote s (memWrite dpa data s).2 := writePieces_wrote ..

theorem translate_wrote (a : Access) (s : State) : Wrote s (Machine.translate a s).2 :=
  .of_indexed (translate_indexed a s) (translate_only a (List.Subset.refl _) Only.refl) (by decide)

theorem dvaWriteFrom_wrote (a : Access) (k : Nat) : ∀ (dva : Nat) (data : List Byte) (s : State), Wrote s (dvaWriteFrom a k dva data s).2 := by
  induction k with
  | zero => exact fun _ _ _ => .refl
  | succ k ih =>
    intro dva data s
    have htr := translate_wrote { a with dva := dva, write := true } s
    cases data with
    | nil => exact .refl
    | cons b l =>
      unfold dvaWriteFrom
      dsimp only
      split
      · exact htr
      · have hwrite := fun d => htr.trans (memWrite_wrote d ((b :: l).take (min (b :: l).length (4096 - dva % 4096))) _)
        split
        · exact (hwrite _).trans (ih ..)
        · exact hwrite _

theorem dvaWrite_wrote (a : Access) (data : List Byte) (s : State) : Wrote s (dvaWrite a data s).2 := dvaWriteFrom_wrote ..

end Sys2Proof.WriteCerts
end

section
/-!
PROOF. Sealed sessions, rings and doorbells of MEE groups, exchanges and refreshes (spec/16_sealed_arithmetic_crosswind.md R416 to R434, R448).
-/
namespace Sys2Proof.SealedCerts

open Sys2Proof.Machine Sys2Proof.Laws Sys2Proof.CommandCerts Sys2Proof.LookCerts Sys2Proof.IndexCerts Sys2Proof.WriteCerts

variable {s : State}

/-! ## MEE_PARAMS and REFRESH_RUN -/

section Commands

variable {n : Fin 16} (hct : ctPart s (mbxPart s n.val) = true) (hexp : (s.box n.val).exp = false)

include hct

theorem session_bound (hrun : Runs s n 0x0602) (hsub : (s.box n.val).arg 0 = 0) (hshape : sessionShape (s.box n.val) = none)
    (hdegree : (s.box n.val).arg 2 ≤ s.prot.sealedP.maxDegree) (hlimbs : (s.box n.val).arg 3 ≤ s.prot.sealedP.maxLimbs)
    (hmoduli : moduliOk (moduliOf (s.box n.val)) = true) (hfree : s.sealedSess ((s.box n.val).arg 1) = none) {w : Nat}
    (hw : wKs ((s.box n.val).arg 2) ((s.box n.val).arg 3) ((s.box n.val).arg 4) (tauOf s (s.box n.val)) (groupsUp s).length = some w)
    (hfit : w ≤ 97) : Answers (.meeParamsSession n) s fun t => let m := s.box n.val
      t.sealedSess (m.arg 1) = some { part := mbxPart s n.val, n := m.arg 2, moduli := moduliOf m, d := m.arg 4, tau := tauOf s m }
      ∧ (∀ k, k ≠ m.arg 1 → t.sealedSess k = s.sealedSess k) ∧ (t.box n.val).outbox = m.outbox ++ [{ status := 0 }]
      ∧ KeepsBut [.mbx, .sealed, .freeCtr] s t := by
  refine answers_of_commandIf rfl (by simp [subIs, hsub]) hrun ?_ ?_
  · simp [first_eq_none, firstFail_cons_eq_none, failIf_eq_none, needSealed, hct, hshape, hdegree, hlimbs, hmoduli, hw, hfit, hfree]
  · have hlook := fun x => look_cons ((s.box n.val).arg 1) x s.sealed.sess
    refine ⟨(hlook _ _).trans (if_pos rfl), fun k hk => (hlook _ k).trans (if_neg hk), replyDone_answer rfl [], ?_⟩
    exact (replyDone_only _ _ _ (by decide) (Only.atSealedFreeCtr (by decide) (by decide) (freed_only _ (by decide) Only.refl))).keeps

theorem ring_set (hrun : Runs s n 0x0602) (hsub : (s.box n.val).arg 0 = 1) (hargs : argsZero (s.box n.val) [0, 1, 2, 3] = none)
    (hgroup : (s.box n.val).arg 1 < 16) (hmine : meePart s ((s.box n.val).arg 1) = mbxPart s n.val) (hbase : (s.box n.val).arg64 2 < 2 ^ 48)
    (halign : (s.box n.val).arg64 2 % 4096 = 0) (hidle : (s.mee ((s.box n.val).arg 1)).passes = []) :
    Answers (.meeParamsRing n) s fun t => let m := s.box n.val
      t.mee (m.arg 1) = { s.mee (m.arg 1) with set := true, base := m.arg64 2, head := 0, tail := 0 }
      ∧ (∀ k, k ≠ m.arg 1 → t.mee k = s.mee k) ∧ (t.box n.val).outbox = m.outbox ++ [{ status := 0 }] ∧ KeepsBut [.mbx, .sealed] s t := by
  refine answers_of_commandIf rfl (by simp [subIs, hsub]) hrun ?_ ?_
  · simp [first_eq_none, firstFail_cons_eq_none, failIf_eq_none, needSealed, hct, hargs, hgroup, hmine, halign, hidle]
    exact hbase
  · have hmee := fun k => modMee_mee (s.freed n) ((s.box n.val).arg 1) k
      fun g => { g with set := true, base := (s.box n.val).arg64 2, head := 0, tail := 0 }
    refine ⟨(hmee _).trans (if_pos rfl), fun k hk => (hmee k).trans (if_neg hk), replyDone_answer rfl [], ?_⟩
    exact (replyDone_only _ _ _ (by decide) (modMee_only _ _ (by decide) (freed_only _ (by decide) Only.refl))).keeps

theorem session_ended (hrun : Runs s n 0x0602) (hsub : (s.box n.val).arg 0 = 2) (hargs : argsZero (s.box n.val) [0, 1] = none)
    (hown : ownSession s n.val ((s.box n.val).arg 1) = true) (hidle : sessionBusy s ((s.box n.val).arg 1) = false) :
    Answers (.meeParamsEnd n) s fun t => let m := s.box n.val
      t.sealedSess (m.arg 1) = none ∧ (∀ k, k ≠ m.arg 1 → t.sealedSess k = s.sealedSess k)
      ∧ (t.box n.val).outbox = m.outbox ++ [{ status := 0 }] ∧ KeepsBut [.mbx, .sealed] s t := by
  refine answers_of_commandIf rfl (by simp [subIs, hsub]) hrun ?_ ?_
  · simp [first_eq_none, firstFail_cons_eq_none, failIf_eq_none, needSealed, hct, hargs, hown, hidle]
  · have hlook := look_filter_ne s.sealed.sess ((s.box n.val).arg 1)
    refine ⟨(hlook _).trans (if_pos rfl), fun k hk => (hlook k).trans (if_neg hk), replyDone_answer rfl [], ?_⟩
    exact (replyDone_only _ _ _ (by decide) (Only.atSealed (by decide) (freed_only _ (by decide) Only.refl))).keeps

include hexp

theorem refresh_started (hrun : Runs s n 0x0603) (hown : ownSession s n.val ((s.box n.val).arg 0) = true)
    (hcipher : (s.box n.val).arg64 1 < 2 ^ 48) (hkeys : (s.box n.val).arg64 3 < 2 ^ 48) (hok : refreshOk s (s.box n.val) = true)
    (hnew : ∀ r ∈ s.sealed.refreshes, r.sess ≠ (s.box n.val).arg 0) : Answers (.refreshRun n) s fun t => let m := s.box n.val
      t.sealed.refreshes = s.sealed.refreshes ++ [{ sess := m.arg 0, cipher := m.arg64 1, keySet := m.arg64 3, winKs := m.arg 5, winEl := m.arg 6, stopAt := none, started := s.now }]
      ∧ (t.box n.val).await = some (.refresh (m.arg 0)) ∧ (t.box n.val).outbox = m.outbox ++ [{ status := 1 }] ∧ KeepsBut [.mbx, .sealed] s t := by
  refine answers_of_command rfl hrun ?_ ?_
  · simp [first_eq_none, firstFail_cons_eq_none, failIf_eq_none, needSealed, hct, hown, hok, hexp]
    exact ⟨⟨hcipher, hkeys⟩, hnew⟩
  · dsimp only
    rw [hexp]
    refine ⟨rfl, PinCerts.setAwait_await .., accepted_outbox (by rfl) _, ?_⟩
    exact (setAwait_only _ _ (by decide) (reply_only _ _ (by decide) (Only.atSealed (by decide) (freed_only _ (by decide) Only.refl)))).keeps

end Commands

/-! ## Doorbells (R422) -/

section Doorbell

variable {src : DmaSrc} {body : Word}

/-- The tail that the doorbell names. -/
def belled (body : Word) (s : State) : State := modMee (fld body 0 4) (fun m => { m with tail := fld body 4 6 }) s

theorem belled_mee (body : Word) (s : State) (k : Nat) : (belled body s).mee k =
    if k = fld body 0 4 then { s.mee (fld body 0 4) with tail := fld body 4 6 } else s.mee k := modMee_mee ..

theorem exec_meeDoorbell_rung (hbell : bellOk s src (fld body 0 4) = true) (hup : carrying s 0x06 (fld body 0 4) = true) :
    exec (.meeDoorbell src body) s = .next (meeTake (fld body 0 4) 64 (belled body s)) :=
  congrArg Host.Outcome.next (if_pos (by rw [hbell, hup]; rfl))

theorem doorbell_counted (h : bellOk s src (fld body 0 4) = false ∨ carrying s 0x06 (fld body 0 4) = false) :
    Answers (.meeDoorbell src body) s fun t => let g := fld body 0 4
      t.mee g = { s.mee g with bad := (s.mee g).bad + 1 } ∧ (∀ k, k ≠ g → t.mee k = s.mee k) ∧ KeepsBut [.sealed] s t := by
  have hmee := fun k => modMee_mee s (fld body 0 4) k fun m => { m with bad := m.bad + 1 }
  refine ⟨_, congrArg Host.Outcome.next (if_neg ?_), (hmee _).trans (if_pos rfl), fun k hk => (hmee k).trans (if_neg hk),
    (modMee_only _ _ (List.Subset.refl _) Only.refl).keeps⟩
  rcases h with h | h <;> simp [h]

/-- A group with no ring, or none of whose descriptors waits, takes none. -/
theorem meeTake_of_nothing {g : Nat} (k : Nat) (h : (s.mee g).set = false ∨ (s.mee g).head = (s.mee g).tail) : meeTake g k s = s := by
  cases k with
  | zero => rfl
  | succ k => exact if_pos (by rcases h with h | h <;> simp [h])

theorem mee_congr {t : State} (h : t.sealed.groups = s.sealed.groups) (k : Nat) : t.mee k = s.mee k := by
  simp only [State.mee, h]

/-- The status of a pass is noted in its group. -/
theorem passStatus_mee (g p idx : Nat) (d : PassDesc) (status detail flags outputs : Nat) (s : State) (k : Nat) :
    (passStatus g p idx d status detail flags outputs s).mee k =
      if k = g then { s.mee g with last := some (status, detail, flags, outputs) } else s.mee k := by
  have hcount : ∀ o a (u : State), (counterAdd o a u).mee k = u.mee k := fun o a u =>
    mee_congr (congrArg Sealed.groups ((counterAdd_only o a (List.Subset.refl _) Only.refl).keeps .sealed (by decide))) k
  have hwrote : ∀ a b j, (dvaWrite a b s).2.mee j = s.mee j := fun a b j =>
    mee_congr ((dvaWrite_wrote a b s).keeps Sealed.groups fun _ _ => rfl) j
  unfold passStatus
  dsimp only
  split
  · split
    · split
      · rw [hcount, modMee_mee, hwrote, hwrote]
      · rw [modMee_mee, hwrote, hwrote]
    · rw [modMee_mee, hwrote, hwrote]
  · rw [modMee_mee, hwrote, hwrote]

/-- A descriptor that fails its FORMAT checks has its status at once. -/
theorem setupPass_of_bad_format {g p idx : Nat} {d : PassDesc} (h : passFormatOk s p d = false) : setupPass g p idx d s = (.error (7, 1), s) := by
  rw [setupPass, h]
  rfl

theorem passFormatOk_congr {t : State} (h : t.sealed.sess = s.sealed.sess) (p : Nat) (d : PassDesc) : passFormatOk t p d = passFormatOk s p d := by
  simp only [passFormatOk, State.sealedSess, h]

theorem bad_descriptor_ends (hbell : bellOk s src (fld body 0 4) = true) (hup : carrying s 0x06 (fld body 0 4) = true)
    (hset : (s.mee (fld body 0 4)).set = true) (hwaits : (s.mee (fld body 0 4)).head ≠ fld body 4 6)
    (hone : ((s.mee (fld body 0 4)).head + 1) % 64 = fld body 4 6) {b : List Byte}
    (hb : (dvaRead (meeAccess (fld body 0 4) (meePart s (fld body 0 4)) ((s.mee (fld body 0 4)).base + 64 * (s.mee (fld body 0 4)).head) false)
      64 (belled body s)).1 = .ok b) (hbad : passFormatOk s (meePart s (fld body 0 4)) (decodePass b) = false) :
    Answers (.meeDoorbell src body) s fun t => let g := fld body 0 4
      (t.mee g).last = some (7, 1, 0, 0) ∧ (t.mee g).head = fld body 4 6 ∧ (t.mee g).passes = (s.mee g).passes
      ∧ (∀ k, k ≠ g → t.mee k = s.mee k) := by
  refine ⟨_, exec_meeDoorbell_rung hbell hup, ?_⟩
  have hbelled := belled_mee body s
  have hpart : meePart (belled body s) (fld body 0 4) = meePart s (fld body 0 4) := rfl
  have hsealed : ∀ a n, (dvaRead a n (belled body s)).2.sealed = (belled body s).sealed := fun a n =>
    (dvaRead_only a n (List.Subset.refl _) Only.refl).keeps .sealed (by decide)
  dsimp only
  generalize fld body 0 4 = g at *
  generalize fld body 4 6 = tail at *
  rw [meeTake]
  dsimp only
  rw [hbelled g, if_pos rfl, if_neg (by simp [hset, hwaits]), hpart]
  dsimp only
  have hread := hsealed (meeAccess g (meePart s g) ((s.mee g).base + 64 * (s.mee g).head) false) 64
  generalize dvaRead (meeAccess g (meePart s g) ((s.mee g).base + 64 * (s.mee g).head) false) 64 (belled body s) = r at hb hread
  obtain ⟨x, v⟩ := r
  obtain rfl := hb
  have hv : ∀ k, v.mee k = (belled body s).mee k := mee_congr (congrArg Sealed.groups hread)
  have hformat : passFormatOk v (meePart s g) (decodePass b) = false := (passFormatOk_congr (congrArg Sealed.sess hread) _ _).trans hbad
  dsimp only [Option.elim, Except.toOption]
  rw [setupPass_of_bad_format hformat]
  dsimp only
  generalize hw : passStatus g (meePart s g) (s.mee g).head (decodePass b) 7 1 0 0 (modMee g (fun m => { m with head := (m.head + 1) % 64 }) v) = w
  have hmee : ∀ k, w.mee k = if k = g then { s.mee g with tail := tail, head := tail, last := some (7, 1, 0, 0) } else s.mee k := by
    intro k
    rw [← hw, passStatus_mee, modMee_mee, modMee_mee, if_pos rfl, hv g, hv k, hbelled g, hbelled k, if_pos rfl]
    split
    · rw [hone]
    · rfl
  have hdone : meeTake g 63 w = w := meeTake_of_nothing 63 (Or.inr (by rw [hmee, if_pos rfl]))
  rw [hdone]
  refine ⟨by rw [hmee, if_pos rfl], by rw [hmee, if_pos rfl], by rw [hmee, if_pos rfl], fun k hk => by rw [hmee, if_neg hk]⟩

end Doorbell

/-! ## Exchanges and refreshes (R428, R434) -/

theorem exchange_expires {id : BitVec 8} (h : (s.exch id.toNat).isSome = true) : Answers (.exchExpiry id) s fun t =>
    t.exch id.toNat = none ∧ (∀ k, k ≠ id.toNat → t.exch k = s.exch k) ∧ KeepsBut [.log, .sealed, .link, .out] s t := by
  have hlook : ∀ k, (logInfo 0x0604 0x00 0 [id.toNat] (dropExch id.toNat s)).exch k = if k = id.toNat then none else s.exch k := by
    intro k
    rw [exch_eq, (logInfo_only _ _ _ _ (List.Subset.refl _) Only.refl).keeps .sealed (by decide)]
    exact look_filter_ne s.sealed.exchs id.toNat k
  refine ⟨_, congrArg Host.Outcome.next (if_pos h), (hlook _).trans (if_pos rfl), fun k hk => (hlook k).trans (if_neg hk), ?_⟩
  exact (logInfo_only _ _ _ _ (by decide) (dropExch_only _ (by decide) Only.refl)).keeps

section Refresh

variable {i : Fin 16} {r : Refresh} (hr : s.sealed.refreshes.find? (fun x => x.sess = i.val) = some r)

include hr

theorem refresh_runs_on (h : r.closed < refreshWindows s r) : exec (.refreshDone i) s = .next s := by
  have hexec : exec (.refreshDone i) s = execRefreshDone i s := rfl
  rw [hexec, execRefreshDone, hr]
  exact congrArg Host.Outcome.next (if_pos h)

theorem refresh_ends (h : refreshWindows s r ≤ r.closed) : Answers (.refreshDone i) s fun t =>
    t.sealed.refreshes = (s.sealed.refreshes.filter fun x => x.sess ≠ i.val)
    ∧ (∀ k, (s.box k).await = some (.refresh i.val) → (t.box k).outbox = (s.box k).outbox ++ [{ status := 0 }] ∧ (t.box k).await = none)
    ∧ KeepsBut [.mbx, .log, .sealed, .link, .out] s t := by
  have hexec : exec (.refreshDone i) s = execRefreshDone i s := rfl
  rw [execRefreshDone, hr] at hexec
  refine ⟨_, hexec.trans (congrArg Host.Outcome.next (if_neg (Nat.not_lt.2 h))), ?_, fun k hwait => ?_, ?_⟩
  · rw [(completeAwait_only _ _ (List.Subset.refl _) Only.refl).keeps .sealed (by decide),
      (logInfo_only _ _ _ _ (List.Subset.refl _) Only.refl).keeps .sealed (by decide)]
  · rw [StreamCerts.completeAwait_box, StreamCerts.logInfo_box]
    rw [StreamCerts.answered_of_waiting _ (by exact hwait) (decide_eq_true rfl)]
    exact ⟨rfl, rfl⟩
  · exact (completeAwait_only _ _ (by decide) (logInfo_only _ _ _ _ (by decide) (Only.atSealed (by decide) Only.refl))).keeps

end Refresh

theorem exec_sealedStatus {n : Fin 16} (hrun : Runs s n 0x0601) (hexp : (s.box n.val).exp = false) :
    let p := mbxPart s n.val
    let mine (q : Nat) : Bool := decide (p = 0) || decide (q = p)
    exec (.sealedStatus n) s = .next (replyDone n.val
      [groupMask (groupsUp s), (s.sealed.exchs.filter fun e => (s.sealedSess e.2.sess).elim true fun x => mine x.part).length,
        s.sealed.drbg.reqs, b2n s.sealed.drbg.srcFailed]
      ((s.sealed.sess.filter fun e => mine e.2.part).flatMap sessBytes ++ (s.sealed.vaults.filter fun e => mine e.2.part).flatMap vaultBytes
        ++ (s.sealed.cx.filter fun e => mine e.2.part).flatMap cxBytes) (s.freed n)) := by
  have hexec : exec (.sealedStatus n) s = execSealedStatus n s := rfl
  dsimp only
  rw [hexec, execSealedStatus, command_run hrun]
  · dsimp only
    rw [hexp, if_neg Bool.false_ne_true]
    rfl
  · simp [first_eq_none, failIf_eq_none, hexp]

/-- Settles O54: the commands, the doorbells, the exchanges and the refreshes, each by its lemma. -/
theorem sealedSessionsAndPasses : Obligations.SealedSessionsAndPasses := by
  refine ⟨fun n s hct hexp => ⟨fun hrun hsub hshape hdegree hlimbs hmoduli hfree w => session_bound hct hrun hsub hshape hdegree hlimbs hmoduli hfree,
    ring_set hct, session_ended hct, refresh_started hct hexp⟩,
    fun src body s => ⟨fun hbell hup => ⟨fun hnone => ?_, fun hset _ hwaits hone b => bad_descriptor_ends hbell hup hset hwaits hone⟩,
      doorbell_counted⟩, fun id s => exchange_expires,
    fun i r s hr => ⟨refresh_runs_on hr, refresh_ends hr⟩, fun n s => exec_sealedStatus⟩
  rw [exec_meeDoorbell_rung hbell hup, meeTake_of_nothing]
  · rfl
  · rw [belled_mee, if_pos rfl]
    exact hnone

end Sys2Proof.SealedCerts
end

section
/-!
PROOF. The rounds of a Crosswind session: batches, acknowledgements and tuples (spec/16_sealed_arithmetic_crosswind.md R444 to R447).
-/
namespace Sys2Proof.RoundCerts

open Sys2Proof.Machine Sys2Proof.Laws Sys2Proof.CommandCerts Sys2Proof.LookCerts Sys2Proof.PortCerts

variable {s : State} {i : Nat} {x : CxSess}

/-! ## Sessions found by their slot -/

theorem cxSess_congr {t : State} (h : t.sealed.cx = s.sealed.cx) (k : Nat) : t.cxSess k = s.cxSess k := by
  simp only [State.cxSess, h]

@[simp] theorem modCx_cxSess (i : Nat) (f : CxSess → CxSess) (s : State) (k : Nat) :
    (modCx i f s).cxSess k = if k = i then (s.cxSess k).map f else s.cxSess k := look_map s.sealed.cx i f k

theorem modCx_self (hx : s.cxSess i = some x) (f : CxSess → CxSess) : (modCx i f s).cxSess i = some (f x) := by
  rw [modCx_cxSess, if_pos rfl, hx]
  rfl

theorem modCx_other (f : CxSess → CxSess) {k : Nat} (hk : k ≠ i) : (modCx i f s).cxSess k = s.cxSess k := by
  rw [modCx_cxSess, if_neg hk]

theorem abortCx_cxSess (i : Nat) (r : CxReason) (s : State) (k : Nat) : (abortCx i r s).cxSess k = if k = i then none else s.cxSess k := by
  rw [cxSess_eq, VaultCerts.abortCx_sealed]
  exact look_filter_ne s.sealed.cx i k

/-! ## Sending (R445) -/

theorem batchFrames_only (i : Nat) (b : CxBatch) (k : Nat) : ∀ (seq : Nat) (l : List Byte) (s : State),
    Only [.link, .out] s (batchFrames i b k seq l s) := by
  induction k with
  | zero => exact fun _ _ _ => Only.refl
  | succ k ih =>
    intro seq l s
    have hone : Only [.link, .out] s (send (.cx i "BATCH" ([b.round, seq, b2n (decide (l.length ≤ 4064)), b.base, b.count]
        ++ (l.take 4064).map BitVec.toNat)) (modSChan 11 i (fun c => { c with tx := c.tx + 1 }) s)) :=
      send_only _ (by decide) (modSChan_only _ _ _ (by decide) Only.refl)
    unfold batchFrames
    dsimp only
    split
    · exact hone
    · exact hone.trans (ih ..)

/-- What a session sends changes none. -/
theorem sendBatch_cxSess (i : Nat) (b : CxBatch) (s : State) (k : Nat) : (sendBatch i b s).cxSess k = s.cxSess k :=
  cxSess_congr (congrArg Sealed.cx ((batchFrames_only i b _ _ _ s).keeps .sealed (by decide))) k

/-- What a session may come to while it sends: its batch is marked as sent, and its ACK. -/
structure Pumped (x y : CxSess) : Prop where
  same : y = { x with out := y.out, sentAck := y.sentAck }
  out : y.out = x.out ∨ ∃ b, x.out = some b ∧ y.out = some { b with sent := true }

theorem Pumped.refl : Pumped x x := ⟨rfl, Or.inl rfl⟩

theorem pumpCx_pumped (hx : s.cxSess i = some x) : ∃ y, (pumpCx i s).cxSess i = some y ∧ Pumped x y := by
  have hack : ∀ (u : State) (y : CxSess) (r : Nat), u.cxSess i = some y → Pumped x y →
      ∃ z, (if x.inDone && !x.sentAck then modCx i (fun x => { x with sentAck := true }) (sendAck i r u) else u).cxSess i = some z ∧ Pumped x z := by
    intro u y r hu hy
    split
    · refine ⟨_, modCx_self (s := sendAck i r u) hu _, ?_, hy.out⟩
      rw [hy.same]
    · exact ⟨y, hu, hy⟩
  unfold pumpCx
  rw [hx]
  dsimp only
  split
  · exact ⟨x, hx, .refl⟩
  · cases hb : x.out with
    | none => exact hack s x _ hx .refl
    | some b =>
      dsimp only
      by_cases hready : (!b.sent && decide (b.base + b.count ≤ x.made)) = true
      · have hsent : (sendBatch i b s).cxSess i = some x := (sendBatch_cxSess i b s i).trans hx
        rw [if_pos hready]
        exact hack _ { x with out := some { b with sent := true } } _ (modCx_self hsent _) ⟨rfl, Or.inr ⟨b, hb, rfl⟩⟩
      · rw [if_neg hready]
        exact hack s x _ hx .refl

/-! ## Frames of a session (R444 to R446) -/

section Frames

variable {tag : Word}

theorem frame_without_session (h : cxByTag s tag = none) (round seq : Word) (base : BitVec 64) (count : Word) (last : Bool) (payload : List Byte) :
    ∀ c ∈ [Instr.cxBatch tag round seq base count last payload, .cxAck tag round, .cxPre tag count, .cxClose tag, .cxAbort tag],
      exec c s = .next { s with sealed := { s.sealed with cxBad := s.sealed.cxBad + 1 } } := by
  have hbatch : exec (.cxBatch tag round seq base count last payload) s = execCxBatch tag round seq base count last payload s := rfl
  have hack : exec (.cxAck tag round) s = execCxAck tag round s := rfl
  have hpre : exec (.cxPre tag count) s = execCxPre tag count s := rfl
  have hclose : exec (.cxClose tag) s = execCxClose tag s := rfl
  have habort : exec (.cxAbort tag) s = execCxAbort tag s := rfl
  rw [execCxBatch, h] at hbatch
  rw [execCxAck, h] at hack
  rw [execCxPre, h] at hpre
  rw [execCxClose, h] at hclose
  rw [execCxAbort, h] at habort
  intro c hc
  simp only [List.mem_cons, List.not_mem_nil, or_false] at hc
  rcases hc with rfl | rfl | rfl | rfl | rfl
  · exact hbatch
  · exact hack
  · exact hpre
  · exact hclose
  · exact habort

variable (htag : cxByTag s tag = some (i, x)) (hx : s.cxSess i = some x)

section Batch

variable {round seq count : Word} {base : BitVec 64} {last : Bool} {payload : List Byte}

include htag

theorem exec_cxBatch : exec (.cxBatch tag round seq base count last payload) s =
    .next (onBatch i round.toNat seq.toNat base.toNat last payload x s) := by
  have hexec : exec (.cxBatch tag round seq base count last payload) s = execCxBatch tag round seq base count last payload s := rfl
  rw [hexec, execCxBatch, htag]

theorem exec_cxBatch_wrong_base (hround : round.toNat = x.round) (hseq : x.inSeq ≤ seq.toNat) (hopen : x.inDone = false)
    (hbase : base.toNat ≠ expectBase x x.out) : exec (.cxBatch tag round seq base count last payload) s = .next (abortCx i .tupleMismatch s) := by
  rw [exec_cxBatch htag, onBatch, if_neg (by omega), if_pos hround, if_neg (by simp [hopen, hseq]), if_pos hbase]

theorem batch_of_another_round (h : round.toNat + 1 < x.round ∨ x.round + 1 < round.toNat) :
    Answers (.cxBatch tag round seq base count last payload) s fun t =>
      t.cxSess i = none ∧ (∀ k, k ≠ i → t.cxSess k = s.cxSess k) ∧ KeepsBut [.mbx, .log, .sealed, .link, .out] s t := by
  refine ⟨abortCx i .protocol s, ?_, (abortCx_cxSess ..).trans (if_pos rfl), fun k hk => (abortCx_cxSess ..).trans (if_neg hk),
    (abortCx_only _ _ (List.Subset.refl _) Only.refl).keeps⟩
  rw [exec_cxBatch htag, onBatch, if_neg (by omega), if_neg (by omega), if_neg (by omega)]

include hx

theorem batch_appended (hround : round.toNat = x.round) (hseq : seq.toNat = x.inSeq) (hopen : x.inDone = false)
    (hbase : base.toNat = expectBase x x.out) : Answers (.cxBatch tag round seq base count false payload) s fun t =>
      t.cxSess i = some { x with inSeq := x.inSeq + 1, inBuf := x.inBuf ++ payload } ∧ (∀ k, k ≠ i → t.cxSess k = s.cxSess k)
      ∧ KeepsBut [.sealed] s t := by
  have hframe : batchFrame i false payload s =
      modCx i (fun x => { x with inSeq := x.inSeq + 1, inBuf := x.inBuf ++ payload, inDone := false }) s := rfl
  refine ⟨_, Eq.trans ?_ (congrArg Host.Outcome.next hframe), ?_, fun k hk => modCx_other _ hk,
    (modCx_only _ _ (List.Subset.refl _) Only.refl).keeps⟩
  · rw [exec_cxBatch htag, onBatch, if_neg (by omega), if_pos hround, if_neg (by simp [hopen, hseq]), if_neg (not_not.2 hbase), if_pos hseq]
  · exact (modCx_self hx _).trans (by rw [hopen])

end Batch

theorem round_toNat (h : x.round < 2 ^ 32) : (BitVec.ofNat 32 x.round).toNat = x.round := by
  rw [BitVec.toNat_ofNat, Nat.mod_eq_of_lt h]

include htag in
theorem exec_cxAck {b : CxBatch} (hout : x.out = some b) (hsent : b.sent = true) (hround : x.round < 2 ^ 32) :
    exec (.cxAck tag (BitVec.ofNat 32 x.round)) s = .next (advanceCx i (modCx i (fun x => { x with gotAck := true }) s)) := by
  have hexec : exec (.cxAck tag (BitVec.ofNat 32 x.round)) s = execCxAck tag (BitVec.ofNat 32 x.round) s := rfl
  rw [hexec, execCxAck, htag]
  dsimp only
  rw [round_toNat hround, if_pos rfl, if_pos (by rw [hout]; exact hsent)]

include htag hx

theorem ack_noted {b : CxBatch} (hout : x.out = some b) (hsent : b.sent = true) (hround : x.round < 2 ^ 32) (hown : x.sentAck = false) :
    Answers (.cxAck tag (BitVec.ofNat 32 x.round)) s fun t => t.cxSess i = some { x with gotAck := true } ∧ KeepsBut [.sealed] s t := by
  have hnew : (modCx i (fun x => { x with gotAck := true }) s).cxSess i = some { x with gotAck := true } := modCx_self hx _
  refine ⟨modCx i (fun x => { x with gotAck := true }) s, ?_, hnew, (modCx_only _ _ (List.Subset.refl _) Only.refl).keeps⟩
  rw [exec_cxAck htag hout hsent hround, advanceCx, hnew]
  exact congrArg Host.Outcome.next (if_neg (by simp [hown]))

theorem ack_ends_the_round {b : CxBatch} (hout : x.out = some b) (hsent : b.sent = true) (hround : x.round < 2 ^ 32) (hown : x.sentAck = true)
    (hnext : x.nextDone = false) : Answers (.cxAck tag (BitVec.ofNat 32 x.round)) s fun t =>
      ∃ y, t.cxSess i = some y ∧ y.round = x.round + 1 ∧ y.gotAck = false ∧ y.next = none ∧ y.inBuf = x.nextBuf := by
  have hnew : (modCx i (fun x => { x with gotAck := true }) s).cxSess i = some { x with gotAck := true } := modCx_self hx _
  have hexec := exec_cxAck htag hout hsent hround
  rw [advanceCx, hnew] at hexec
  dsimp only at hexec
  rw [hown, hnext] at hexec
  refine ⟨_, hexec, ?_⟩
  obtain ⟨y, hy, hpump⟩ := pumpCx_pumped (modCx_self hnew fun x => { x with
    round := x.round + 1, out := x.next, next := none, sentAck := false, gotAck := false, inSeq := x.nextSeq, inBuf := x.nextBuf
    inDone := x.nextDone, nextSeq := 0, nextBuf := [], nextDone := false })
  refine ⟨y, hy, ?_⟩
  rw [hpump.same]
  exact ⟨rfl, rfl, rfl, rfl⟩

theorem tuples_added {count : Word} (hout : x.out = none) (hup : drbgDown s = false) : Answers (.cxPre tag count) s fun t =>
    ∃ y, t.cxSess i = some y ∧ y.made = x.made + count.toNat ∧ y.round = x.round ∧ y.out = none := by
  have hexec : exec (.cxPre tag count) s = execCxPre tag count s := rfl
  rw [execCxPre, htag] at hexec
  dsimp only at hexec
  rw [hout, hup] at hexec
  refine ⟨_, hexec, ?_⟩
  obtain ⟨y, hy, hpump⟩ := pumpCx_pumped (modCx_self (s := drbgDraw s) hx fun x => { x with made := x.made + count.toNat })
  refine ⟨y, hy, ?_⟩
  rw [hpump.same]
  refine ⟨rfl, rfl, ?_⟩
  rcases hpump.out with h | ⟨b, hb, -⟩
  · exact h.trans hout
  · exact absurd (hb.symm.trans hout) (by simp)

end Frames

/-! ## Posts and timeouts (R445) -/

section Posts

variable {i : Fin 16} (hx : s.cxSess i.val = some x)

include hx

theorem post_held {c : Fin 128} {round len tuples : Word} {dva : BitVec 48} {b : List Byte} (hpaired : x.paired = true)
    (hpart : clusterPart s c.val = x.part) (hround : round.toNat = x.round) (hout : x.out = none)
    (hb : (dvaRead { part := x.part, dva := dva.toNat, ut := 0x01, inst := c.val } len.toNat s).1 = .ok b) :
    Answers (.cxBatchPost c i round dva len tuples) s fun t =>
      ∃ y z, t.cxSess i.val = some y ∧ y.out = some z ∧ y.nextTuple = x.nextTuple + tuples.toNat ∧ z.round = x.round ∧ z.base = x.nextTuple
        ∧ z.count = tuples.toNat ∧ z.bytes = b := by
  have hexec : exec (.cxBatchPost c i round dva len tuples) s = execCxBatchPost c i round dva len tuples s := rfl
  have hread : (dvaRead { part := x.part, dva := dva.toNat, ut := 0x01, inst := c.val } len.toNat s).2.cxSess i.val = some x :=
    (cxSess_congr (congrArg Sealed.cx ((dvaRead_only _ _ (List.Subset.refl _) Only.refl).keeps .sealed (by decide))) _).trans hx
  rw [execCxBatchPost] at hexec
  dsimp only at hexec
  rw [hx] at hexec
  dsimp only at hexec
  rw [if_neg (by simp [hpaired, hpart, hround, hout]), hb] at hexec
  dsimp only at hexec
  have hnow : (decide (round.toNat = x.round) && x.out.isNone) = true := by simp [hround, hout]
  rw [hnow] at hexec
  have hmod := modCx_self hread fun y => { y with
    nextTuple := y.nextTuple + tuples.toNat, out := some { round := round.toNat, base := x.nextTuple, count := tuples.toNat, bytes := b } }
  obtain ⟨y, hy, hpump⟩ := pumpCx_pumped hmod
  obtain ⟨z, hz, hwhole⟩ : ∃ z, y.out = some z ∧ z.round = x.round ∧ z.base = x.nextTuple ∧ z.count = tuples.toNat ∧ z.bytes = b := by
    rcases hpump.out with h | ⟨z, hz, h⟩
    · exact ⟨_, h, hround, rfl, rfl, rfl⟩
    · obtain rfl := Option.some.inj hz
      exact ⟨_, h, hround, rfl, rfl, rfl⟩
  refine ⟨_, hexec, y, z, hy, hz, ?_, hwhole⟩
  rw [hpump.same]

theorem batch_sent_again {b : CxBatch} (hout : x.out = some b) (hsent : b.sent = true) (hack : x.gotAck = false) (hrun : x.suspended = none)
    (hmay : cxMaySend s i.val = true) (hlen : b.bytes.length ≤ 4064) : Answers (.cxRoundTimeout i) s fun t =>
      t.out.sent = .cx i.val "BATCH" ([b.round, 0, 1, b.base, b.count] ++ b.bytes.map BitVec.toNat) :: s.out.sent
      ∧ (t.chanOf 11 i.val).tx = (s.chanOf 11 i.val).tx + 1 ∧ t.sealed = s.sealed ∧ KeepsBut [.link, .out] s t := by
  have hexec : exec (.cxRoundTimeout i) s = execCxRoundTimeout i s := rfl
  simp only [execCxRoundTimeout, hx] at hexec
  simp only [hout, hsent, hack, hrun, hmay] at hexec
  have hone : sendBatch i.val b s = send (.cx i.val "BATCH" ([b.round, 0, 1, b.base, b.count] ++ b.bytes.map BitVec.toNat))
      (modSChan 11 i.val (fun c => { c with tx := c.tx + 1 }) s) := by
    rw [sendBatch, batchFrames, decide_eq_true hlen, List.take_of_length_le hlen, if_pos hlen]
    rfl
  refine ⟨_, hexec.trans (congrArg Host.Outcome.next hone), rfl, ?_, rfl,
    (send_only _ (by decide) (modSChan_only _ _ _ (by decide) Only.refl)).keeps⟩
  exact congrArg SChan.tx (chanOf_modSChan_self 11 i.val (fun c => { c with tx := c.tx + 1 }) s)

end Posts

/-- Settles O57: frames of no session, frames of the running and of other rounds, posts and the round timeout. -/
theorem crosswindRounds : Obligations.CrosswindRounds :=
  ⟨fun _tag _s h round seq base count last payload => frame_without_session h round seq base count last payload,
    fun _tag _i _x _s htag hx => ⟨fun _round _seq _count _base _payload => ⟨batch_appended htag hx, fun _last => exec_cxBatch_wrong_base htag,
      fun _last => batch_of_another_round htag⟩, fun _b hout hsent => ⟨ack_noted htag hx hout hsent, ack_ends_the_round htag hx hout hsent⟩,
      fun _count => tuples_added htag hx⟩,
    fun _c _i _x _s hx => ⟨fun _round _len _tuples _dva _b => post_held hx, fun _b => batch_sent_again hx⟩⟩

end Sys2Proof.RoundCerts
end

section
/-!
PROOF. The serving commands: tenants, rings, programs, held frames, pools, status (spec/13_serving_pipeline.md R342 to R344, R362, R367;
spec/14_pages_prefixes_adapters_drift.md R371, R378).
-/
namespace Sys2Proof.ServingCerts

open Sys2Proof.Machine Sys2Proof.Laws Sys2Proof.CommandCerts Sys2Proof.IndexCerts

variable {n : Fin 16} {s : State}

/-- The step counter changes nothing else of its partition, and no other. -/
theorem allocCounter_program (p home : Nat) (s : State) : ((allocCounter p home s).spart p).program = (s.spart p).program
    ∧ ∀ k, k ≠ p → (allocCounter p home s).spart k = s.spart k := by
  unfold allocCounter
  split
  · exact ⟨rfl, fun _ _ => rfl⟩
  · split
    · exact ⟨rfl, fun _ _ => rfl⟩
    · refine ⟨?_, fun k hk => ?_⟩
      · rw [setSpart_spart, if_pos rfl]
      · rw [setSpart_spart, if_neg hk]
        rfl

section Settings

variable (hmaint : s.units.maint = false) (hexp : (s.box n.val).exp = false)

include hmaint hexp

theorem tenant_set (hrun : Runs s n 0x0502) (hsub : (s.box n.val).arg 0 = 0) (hshape : shape s n.val (s.box n.val) [1, 2, 3, 4] = none)
    (hid : (s.box n.val).arg 1 < 65536) (hmine : tenantPart s ((s.box n.val).arg 1) = actPart s n.val (s.box n.val))
    (hflags : (s.box n.val).arg 2 < 8) (hdepth : 1 ≤ (s.box n.val).arg 4) (hmax : (s.box n.val).arg 4 < 2 ^ 31) :
    Answers (.tenantSetTenant n) s fun t => let m := s.box n.val
      t.tenant (m.arg 1) = { s.tenant (m.arg 1) with enable := m.arg 2 % 2 = 1, maxClass := m.arg 2 / 2, next := some (m.arg 3, m.arg 4) }
      ∧ (∀ k, k ≠ m.arg 1 → t.tenant k = s.tenant k) ∧ (t.box n.val).outbox = m.outbox ++ [{ status := 0 }] ∧ KeepsBut [.mbx, .serve] s t := by
  refine answers_of_commandIf rfl (by simp [hsub]) hrun ?_ ?_
  · simp [first_eq_none, firstFail_cons_eq_none, failIf_eq_none, hexp, hshape, hmine, maintBusy, hmaint]
    omega
  · dsimp only
    rw [hexp]
    have htenant := fun x k => setTenant_tenant (s.freed n) ((s.box n.val).arg 1) k x
    refine ⟨(htenant _ _).trans (if_pos rfl), fun k hk => (htenant _ k).trans (if_neg hk), replyDone_answer rfl [], ?_⟩
    exact (replyDone_only _ _ _ (by decide) (setTenant_only _ _ (by decide) (freed_only _ (by decide) Only.refl))).keeps

omit hexp in
theorem ring_set (hrun : Runs s n 0x0502) (hsub : (s.box n.val).arg 0 = 1) (hshape : shape s n.val (s.box n.val) [0, 1, 2, 3, 4, 5, 6, 7] = none)
    (hid : (s.box n.val).arg 1 < 64) (hrest : (s.box n.val).arg 7 &&& 0xFFFEE0FE = 0) (hok : ringOk s n.val (s.box n.val) = true)
    (hidle : ringLive s ((s.box n.val).arg 1) = false) : Answers (.tenantSetRing n) s fun t => let m := s.box n.val
      (t.ring (m.arg 1)).set = !ringOff m ∧ (t.ring (m.arg 1)).head = 0 ∧ (t.ring (m.arg 1)).tail = 0
      ∧ (ringOff m = false → (t.ring (m.arg 1)).subDva = m.arg64 2 ∧ (t.ring (m.arg 1)).subLog = m.arg 4 ∧ (t.ring (m.arg 1)).part = actPart s n.val m)
      ∧ (∀ k, k ≠ m.arg 1 → t.ring k = s.ring k) ∧ (t.box n.val).outbox = m.outbox ++ [{ status := 0 }] ∧ KeepsBut [.mbx, .serve] s t := by
  refine answers_of_commandIf rfl (by simp [hsub]) hrun ?_ ?_
  · simp [first_eq_none, firstFail_cons_eq_none, failIf_eq_none, hshape, hid, hrest, hok, hidle, maintBusy, hmaint]
  · have hring := fun x k => setRing_ring (s.freed n) ((s.box n.val).arg 1) k x
    have hkeeps : ∀ x, KeepsBut [.mbx, .serve] s (replyDone n.val [] [] (setRing ((s.box n.val).arg 1) x (s.freed n))) := fun x =>
      (replyDone_only _ _ _ (by decide) (setRing_only _ _ (by decide) (freed_only _ (by decide) Only.refl))).keeps
    have hset := fun x => (hring x ((s.box n.val).arg 1)).trans (if_pos rfl)
    refine ⟨?_, ?_, ?_, fun hon => ?_, fun k hk => (hring _ k).trans (if_neg hk), replyDone_answer rfl [], hkeeps _⟩
    · refine (congrArg Ring.set (hset _)).trans ?_
      cases ringOff (s.box n.val) <;> rfl
    · refine (congrArg Ring.head (hset _)).trans ?_
      cases ringOff (s.box n.val) <;> rfl
    · refine (congrArg Ring.tail (hset _)).trans ?_
      cases ringOff (s.box n.val) <;> rfl
    · dsimp only
      rw [hon]
      exact ⟨congrArg Ring.subDva (hset _), congrArg Ring.subLog (hset _), congrArg Ring.part (hset _)⟩

omit hexp in
theorem program_set {home : Fin 128} (hrun : Runs s n 0x0502) (hsub : (s.box n.val).arg 0 = 2)
    (hshape : shape s n.val (s.box n.val) [0, 1, 2] = none) (hdva : (s.box n.val).arg64 1 < 2 ^ 48)
    (hidle : partLive s (actPart s n.val (s.box n.val)) = false) (hup : drbgDown s = false) {b : List Byte}
    (hb : (dvaRead (serveAccess (actPart s n.val (s.box n.val)) ((s.box n.val).arg64 1) false) 64 (s.freed n)).1 = .ok b)
    (hok : programOk b = true) : Answers (.tenantSetProgram n home) s fun t => let p := actPart s n.val (s.box n.val)
      (∃ g, (t.spart p).program = some g ∧ g.digest = Config.sha384 b ∧ g.maxContext = leAt b 20 4 ∧ g.vocab = leAt b 44 4 ∧ g.kvBytes = leAt b 28 4)
      ∧ (∀ k, k ≠ p → t.spart k = s.spart k) ∧ (t.box n.val).outbox = (s.box n.val).outbox ++ [{ status := 0 }] ∧ t.mem.bytes = s.mem.bytes := by
  have hserve := dvaRead_indexed (serveAccess (actPart s n.val (s.box n.val)) ((s.box n.val).arg64 1) false) 64 (s.freed n)
  have hmbx := dvaRead_mbx (serveAccess (actPart s n.val (s.box n.val)) ((s.box n.val).arg64 1) false) 64 (s.freed n)
  have hbytes := dvaRead_bytes (serveAccess (actPart s n.val (s.box n.val)) ((s.box n.val).arg64 1) false) 64 (s.freed n)
  have hpart : actPart (s.freed n) n.val (s.box n.val) = actPart s n.val (s.box n.val) := rfl
  refine answers_of_commandIf rfl (by simp [hsub]) hrun (by simp [first_eq_none, hshape]) ?_
  dsimp only
  rw [hpart]
  generalize dvaRead (serveAccess (actPart s n.val (s.box n.val)) ((s.box n.val).arg64 1) false) 64 (s.freed n) = r at hb hserve hmbx hbytes
  generalize actPart s n.val (s.box n.val) = p at hidle
  obtain ⟨x, v⟩ := r
  obtain rfl := hb
  dsimp only at hserve hmbx hbytes
  have hparts : ∀ k, v.spart k = s.spart k := fun k =>
    hserve.keeps (fun z : Serve => Tab.get ({} : SPart) z.parts k) fun _ _ => rfl
  dsimp only
  rw [decideOn_of_pass]
  · generalize hg : readProgram b (leNat ((Config.drbg v.freeCtr).take 16)) = g
    obtain ⟨hprogram, hothers⟩ := allocCounter_program p home.val (setSpart p { (drbgDraw v).spart p with program := some g } (drbgDraw v))
    have hkeeps : Only [.sealed, .serve, .lull, .freeCtr] v
        (allocCounter p home.val (setSpart p { (drbgDraw v).spart p with program := some g } (drbgDraw v))) :=
      allocCounter_only _ _ (by decide) (setSpart_only _ _ (by decide) (drbgDraw_only (by decide) Only.refl))
    have hreply : ∀ (u : State) k, (replyDone n.val [] [] u).spart k = u.spart k := fun _ _ => rfl
    refine ⟨⟨g, ?_, by rw [← hg]; exact ⟨rfl, rfl, rfl, rfl⟩⟩, fun k hk => ?_,
      replyDone_answer ((hkeeps.keeps .mbx (by decide)).trans hmbx) [], (hkeeps.keeps .bytes (by decide)).trans hbytes⟩
    · rw [hreply, hprogram, setSpart_spart, if_pos rfl]
    · rw [hreply, hothers k hk, setSpart_spart, if_neg hk]
      exact hparts k
  · have hmain : maintBusy (s.freed n) = none := failIf_eq_none.2 hmaint
    have hlive : partLive (s.freed n) p = false := hidle
    have hdrbg : drbgDown (s.freed n) = false := hup
    simpa [first_eq_none, firstFail_cons_eq_none, failIf_eq_none, hok, hmain, hlive, hdrbg] using hdva

theorem pool_ratio_kept {peerOk : Bool} (hrun : Runs s n 0x0505) (hshape : shape s n.val (s.box n.val) [0, 1] = none)
    (hargs : (s.box n.val).arg 0 = 0 ∧ (s.box n.val).arg 1 = 0
      ∨ (s.box n.val).arg 0 = 1 ∧ (s.box n.val).arg 1 ≤ (poolGroups s (actPart s n.val (s.box n.val))).length) :
    Answers (.poolRatio n peerOk) s fun t => let m := s.box n.val; let p := actPart s n.val m
      pendingPool t p = { pendingPool s p with fixed := if m.arg 0 = 1 then some (m.arg 1) else none }
      ∧ t.serve.parts = s.serve.parts ∧ (t.box n.val).outbox = m.outbox ++ [{ status := 0 }] ∧ KeepsBut [.mbx, .serve] s t := by
  refine answers_of_command rfl hrun ?_ ?_
  · simp [first_eq_none, firstFail_cons_eq_none, failIf_eq_none, hexp, hshape, maintBusy, hmaint]
    omega
  · dsimp only
    rw [hexp]
    refine ⟨?_, rfl, replyDone_answer rfl [], ?_⟩
    · exact congrArg (fun o => Option.elim o _ Prod.snd) (List.find?_cons_of_pos (decide_eq_true rfl))
    · exact (replyDone_only _ _ _ (by decide) (Only.atServe (by decide) (freed_only _ (by decide) Only.refl))).keeps

omit hmaint in
theorem exec_serveStatus (hrun : Runs s n 0x0501) (hshape : shape s n.val (s.box n.val) [] = none) :
    let p := actPart s n.val (s.box n.val)
    exec (.serveStatus n) s = .next (replyDone n.val
        [s.serve.step % 2 ^ 32, s.serve.step / 2 ^ 32, s.serve.lastTime % 2 ^ 32, groupMask (prefillGroups s p), groupMask (decodeGroups s p),
          (s.spart p).role] (serveData s p) (s.freed n)) := by
  have hexec : exec (.serveStatus n) s = execServeStatus n s := rfl
  dsimp only
  rw [hexec, execServeStatus, command_run hrun]
  · dsimp only
    rw [hexp, if_neg Bool.false_ne_true, if_neg Bool.false_ne_true, List.append_nil, List.append_nil]
    rfl
  · simp [first_eq_none, firstFail_cons_eq_none, failIf_eq_none, hshape, hexp]

end Settings

/-! ## Frames of the page steward (R373 to R375) -/

theorem le_of_mem_collectFrames {f : Nat} (k : Nat) : ∀ {a m : Nat}, f ∈ collectFrames s k a m → a ≤ f := by
  induction k with
  | zero => exact fun h => absurd h List.not_mem_nil
  | succ k ih =>
    intro a m h
    rw [collectFrames] at h
    split at h
    · exact absurd h List.not_mem_nil
    · split at h
      · rcases List.mem_cons.1 h with rfl | h
        · exact le_rfl
        · exact Nat.le_of_succ_le (ih h)
      · exact Nat.le_of_succ_le (ih h)

theorem sysTop_le_of_mem_takeFrom {f : Nat} (l : List Nat) : ∀ {m : Nat}, f ∈ takeFrom s l m → s.mem.sysTop ≤ f := by
  induction l with
  | nil => exact fun h => absurd h List.not_mem_nil
  | cons r l ih =>
    intro m h
    rw [takeFrom] at h
    split at h
    · exact absurd h List.not_mem_nil
    · rcases List.mem_append.1 h with h | h
      · exact (le_max_right _ _).trans (le_of_mem_collectFrames _ (List.mem_filter.1 h).1)
      · exact ih h

/-- What is granted lies above the system area. -/
theorem sysTop_le_of_granted {p m cls who f : Nat} {resume firmware : Bool} {l : List Nat}
    (h : (steward p m cls resume firmware who s).1 = .ok l) (hf : f ∈ l) : (steward p m cls resume firmware who s).2.mem.sysTop ≤ f := by
  revert h
  unfold steward
  dsimp only
  generalize (if quotaOk s p m = true then s else
    reclaimRetained (fun _ r => decide (r.part = p)) (charged s p + m - (s.part p).hbmQuota) s) = u
  generalize (if p = 0 then 0 else poolAvail u p (mayReserve cls resume firmware)) = own
  generalize (if p = 0 then [0] else [p, 0]) = pools
  generalize (if p = 0 then [] else poolRegions u p) = own'
  split
  · exact fun h => absurd h (by simp)
  · split
    · exact fun h => absurd h (by simp)
    · intro h
      obtain rfl := Except.ok.inj h
      rcases List.mem_append.1 hf with h | h <;> exact sysTop_le_of_mem_takeFrom (s := u) _ h

theorem markFrames_sysTop (r : FrameRec) (l : List Nat) : ∀ s : State, (markFrames r l s).mem.sysTop = s.mem.sysTop := by
  induction l with
  | nil => exact fun _ => rfl
  | cons f l ih => exact fun s => ih (setFrame f r s)

theorem markFrames_tab (r : FrameRec) (l : List Nat) (k : Nat) : ∀ s : State,
    Tab.get {} (markFrames r l s).mem.frames k = if k ∈ l then r else Tab.get {} s.mem.frames k := by
  induction l with
  | nil => exact fun _ => rfl
  | cons f l ih =>
    intro s
    rw [markFrames, ih, setFrame_tab]
    by_cases hk : k ∈ l
    · rw [if_pos hk, if_pos (List.mem_cons_of_mem _ hk)]
    · rw [if_neg hk]
      exact if_congr (by simp [hk]) rfl rfl

theorem markFrames_frame {r : FrameRec} {l : List Nat} {f : Nat} (hf : f ∈ l) (htop : s.mem.sysTop ≤ f) : (markFrames r l s).frame f = r := by
  rw [State.frame, if_neg (by rw [markFrames_sysTop]; omega), markFrames_tab, if_pos hf]


section Frames

variable (hmaint : s.units.maint = false)

include hmaint

/-- What GRANT leaves is what the page steward decides. -/
theorem answers_of_grant {P : State → Prop} (hrun : Runs s n 0x0502) (hsub : (s.box n.val).arg 0 = 3) (hop : (s.box n.val).arg 1 = 0)
    (hshape : shape s n.val (s.box n.val) [0, 1, 2, 3, 4] = none) (hmin : 1 ≤ (s.box n.val).arg 2) (hmax : (s.box n.val).arg 2 ≤ 960)
    (huse : (s.box n.val).arg 3 = 1 ∨ (s.box n.val).arg 3 = 2) (hcls : (s.box n.val).arg 4 < 4)
    (h : let p := actPart s n.val (s.box n.val)
      let a := steward p ((s.box n.val).arg 2) ((s.box n.val).arg 4) false false n.val (s.freed n)
      P (match a.1 with
        | .error hint => reply n.val { status := 0x20, detail := 0x0514, res := [hint] } a.2
        | .ok l => replyDone n.val [] (l.flatMap (leBytes 4))
          (markFrames { use := .held, tag := n.val, part := p, table := (s.box n.val).arg 3 = 2 } l a.2))) :
    Answers (.tenantSetFramesGrant n) s P := by
  refine answers_of_commandIf rfl (by simp [hsub, hop]) hrun ?_ h
  simp [first_eq_none, firstFail_cons_eq_none, failIf_eq_none, hshape, hop, maintBusy, hmaint]
  omega

omit hmaint in
theorem steward_mbx (p m cls who : Nat) (resume firmware : Bool) (s : State) : (steward p m cls resume firmware who s).2.mbx = s.mbx :=
  (steward_only _ _ _ _ _ _ (List.Subset.refl _) Only.refl).keeps .mbx (by decide)

theorem frames_granted (hrun : Runs s n 0x0502) (hsub : (s.box n.val).arg 0 = 3) (hop : (s.box n.val).arg 1 = 0)
    (hshape : shape s n.val (s.box n.val) [0, 1, 2, 3, 4] = none) (hmin : 1 ≤ (s.box n.val).arg 2) (hmax : (s.box n.val).arg 2 ≤ 960)
    (huse : (s.box n.val).arg 3 = 1 ∨ (s.box n.val).arg 3 = 2) (hcls : (s.box n.val).arg 4 < 4) : let m := s.box n.val
    let p := actPart s n.val m
    let a := (steward p (m.arg 2) (m.arg 4) false false n.val (s.freed n)).1
    (∀ l, a = .ok l → Answers (.tenantSetFramesGrant n) s fun t =>
      (∀ f ∈ l, t.frame f = { use := .held, tag := n.val, part := p, table := decide (m.arg 3 = 2) })
      ∧ (t.box n.val).outbox = m.outbox ++ [{ status := 0, data := l.flatMap (leBytes 4) }])
    ∧ (∀ h, a = .error h → Answers (.tenantSetFramesGrant n) s fun t =>
      (t.box n.val).outbox = m.outbox ++ [{ status := 0x20, detail := 0x0514, res := [h] }]) := by
  refine ⟨fun l hl => answers_of_grant hmaint hrun hsub hop hshape hmin hmax huse hcls ?granted,
    fun hint herr => answers_of_grant hmaint hrun hsub hop hshape hmin hmax huse hcls ?refused⟩
  case granted =>
    have htop : ∀ f ∈ l, _ := fun f hf => sysTop_le_of_granted hl hf
    dsimp only
    rw [hl]
    refine ⟨fun f hf => markFrames_frame hf (htop f hf), AttestCerts.replyDone_outbox_of_freed ?_ [] _⟩
    exact ((markFrames_only _ _ (List.Subset.refl _) Only.refl).keeps .mbx (by decide)).trans (steward_mbx ..)
  case refused =>
    dsimp only
    rw [herr]
    dsimp only
    rw [box_reply]
    dsimp only
    rw [box_congr (steward_mbx ..), box_freed]

/-! ## Frames that are freed (R378) -/

omit hmaint in
theorem freeEach_sysTop (p i : Nat) (l : List Nat) : ∀ s : State, (freeEach p i l s).mem.sysTop = s.mem.sysTop := by
  induction l with
  | nil => exact fun _ => rfl
  | cons f l ih => exact fun s => ih _

omit hmaint in
/-- A frame above the system area is marked, and keeps the rest of its record. -/
theorem freeEach_tab (p i : Nat) (l : List Nat) (k : Nat) : ∀ s : State, s.mem.sysTop ≤ k →
    Tab.get {} (freeEach p i l s).mem.frames k =
      if k ∈ l then { Tab.get ({} : FrameRec) s.mem.frames k with freeing := true } else Tab.get {} s.mem.frames k := by
  induction l with
  | nil => exact fun _ _ => rfl
  | cons f l ih =>
    intro s htop
    have hframe : s.frame f = if f < s.mem.sysTop then { use := .system } else Tab.get {} s.mem.frames f := rfl
    have hinval : ∀ j (u : State), (startInval j u).mem = u.mem := fun _ _ => rfl
    rw [freeEach, ih]
    case a => exact htop
    rw [hinval, modFrame, setFrame_tab]
    by_cases hk : k = f
    · subst hk
      rw [if_neg (Nat.not_lt.2 htop)] at hframe
      rw [if_pos rfl, hframe, if_pos List.mem_cons_self]
      exact ite_self _
    · rw [if_neg hk]
      exact if_congr (by simp [hk]) rfl rfl

omit hmaint in
/-- Each has its invalidation. -/
theorem freeEach_inval (p i : Nat) (l : List Nat) {f : Nat} (hf : f ∈ l) : ∀ s : State,
    ∃ x ∈ (freeEach p i l s).mmu.inval, x.byDpa = true ∧ x.lo = f * 65536 ∧ x.len = 65536 ∧ x.mbx = some i := by
  have hkept : ∀ (l : List Nat) (s : State), ∀ x ∈ s.mmu.inval, x ∈ (freeEach p i l s).mmu.inval := by
    intro l
    induction l with
    | nil => exact fun _ _ h => h
    | cons f l ih => exact fun s x h => ih _ x (List.mem_append_left _ h)
  induction l with
  | nil => exact absurd hf List.not_mem_nil
  | cons g l ih =>
    intro s
    rcases List.mem_cons.1 hf with rfl | h
    · exact ⟨_, hkept l _ _ (List.mem_append_right _ List.mem_cons_self), rfl, rfl, rfl, rfl⟩
    · exact ih h _

theorem frames_freed (hrun : Runs s n 0x0502) (hsub : (s.box n.val).arg 0 = 3) (hop : (s.box n.val).arg 1 = 1)
    (hshape : shape s n.val (s.box n.val) [0, 1] = none) (hinput : (s.box n.val).input ≠ []) (hwords : (s.box n.val).input.length % 4 = 0)
    (hmay : ∀ f ∈ frameList (s.box n.val), mayFree s (actPart s n.val (s.box n.val)) f = true)
    (hopen : ∀ f ∈ frameList (s.box n.val), ∀ e ∈ s.sealed.vaults, f ∉ e.2.frames) :
    Answers (.tenantSetFramesFree n) s fun t => let m := s.box n.val
      (∀ f ∈ frameList m, (t.frame f).freeing = true ∧ (t.frame f).part = actPart s n.val m
        ∧ ∃ i ∈ t.mmu.inval, i.byDpa = true ∧ i.lo = f * 65536 ∧ i.len = 65536 ∧ i.mbx = some n.val)
      ∧ (t.box n.val).await = some .framesFree ∧ (t.box n.val).outbox = m.outbox ∧ KeepsBut [.mbx, .mem, .mmu] s t := by
  refine answers_of_commandIf rfl (by simp [hsub, hop]) hrun ?_ ?_
  · simp [first_eq_none, firstFail_cons_eq_none, failIf_eq_none, hshape, hop, hinput, hwords, maintBusy, hmaint]
    exact ⟨hmay, fun f hf k v hv => hopen f hf (k, v) hv⟩
  · have hmem : ∀ f ∈ frameList (s.box n.val), f ∈ (frameList (s.box n.val)).eraseDups := fun f hf => List.mem_eraseDups.2 hf
    refine ⟨fun f hf => ?_, PinCerts.setAwait_await .., ?_, ?_⟩
    · have hmine := hmay f hf
      simp only [mayFree, Bool.and_eq_true, decide_eq_true_eq] at hmine
      obtain ⟨huse, hpart, -⟩ := hmine
      have htop : s.mem.sysTop ≤ f := by
        by_contra hlow
        rw [State.frame, if_pos (Nat.not_le.1 hlow)] at huse
        exact absurd huse (by decide)
      have hframe : s.frame f = Tab.get {} s.mem.frames f := if_neg (Nat.not_lt.2 htop)
      have hfreed : (freeEach (actPart s n.val (s.box n.val)) n.val (frameList (s.box n.val)).eraseDups (s.freed n)).frame f =
          { s.frame f with freeing := true } := by
        rw [State.frame, if_neg (by rw [freeEach_sysTop]; exact Nat.not_lt.2 htop), freeEach_tab _ _ _ _ (s.freed n) htop, if_pos (hmem f hf), hframe]
        rfl
      exact ⟨congrArg FrameRec.freeing hfreed, (congrArg FrameRec.part hfreed).trans hpart, freeEach_inval _ _ _ (hmem f hf) _⟩
    · rw [setAwait_outbox, box_congr ((freeEach_only _ _ _ (List.Subset.refl _) Only.refl).keeps .mbx (by decide)), box_freed]
    · exact (setAwait_only _ _ (by decide) (freeEach_only _ _ _ (by decide) (freed_only _ (by decide) Only.refl))).keeps

end Frames

/-- Settles O50: each form of a serving command once its checks have passed. -/
theorem servingCommands : Obligations.ServingCommands := fun _n _s hmaint hexp =>
  ⟨tenant_set hmaint hexp, ring_set hmaint, fun _home hrun hsub hshape hdva hidle hup _b => program_set hmaint hrun hsub hshape hdva hidle hup,
    frames_granted hmaint, frames_freed hmaint, fun hrun hshape hargs _peerOk => pool_ratio_kept hmaint hexp hrun hshape hargs,
    exec_serveStatus hexp⟩

end Sys2Proof.ServingCerts
end

section
/-!
PROOF. Draft programs, drafting rounds and logit packets (spec/15_draft_and_sampler.md R397 to R413).
-/
namespace Sys2Proof.DraftCerts

open Sys2Proof.Machine Sys2Proof.Laws Sys2Proof.CommandCerts Sys2Proof.IndexCerts Sys2Proof.LookCerts

variable {s t : State} {p : Nat} {d : DraftProg}

theorem draftOf_congr (h : t.serve.drafts = s.serve.drafts) (k : Nat) : t.draftOf k = s.draftOf k := by
  simp only [State.draftOf, h]

theorem req_congr (h : t.serve.reqs = s.serve.reqs) (k : Nat) : t.req k = s.req k := by
  simp only [State.req, h]

@[simp] theorem setReq_req (i : Nat) (r : Req) (s : State) (k : Nat) : (setReq i r s).req k = if k = i then some r else s.req k :=
  look_ins s.serve.reqs i r k

theorem modDraft_draftOf (p : Nat) (f : DraftProg → DraftProg) (s : State) (k : Nat) :
    (modDraft p f s).draftOf k = if k = p then (s.draftOf k).map f else s.draftOf k := by
  have hmap : (s.serve.drafts.map fun e => if e.1 = p then (p, f e.2) else e) = s.serve.drafts.map fun e => if e.1 = p then (e.1, f e.2) else e :=
    List.map_congr_left fun e _ => by
      split
      case isTrue h => rw [h]
      case isFalse => rfl
  rw [draftOf_eq, modDraft]
  dsimp only
  rw [hmap]
  exact look_map s.serve.drafts p f k

/-! ## A pass of checked code (R397 to R400, R405) -/

section Pass

variable {x : DraftRow} {vocab sram weights : Nat} {a : Nat}

/-- The byte stands outside the draft cache record of the pass. -/
def OutsideRecord (x : DraftRow) (kvLen a : Nat) : Prop := ∀ c, x.cache x.pos = some c → a < c ∨ c + kvLen ≤ a

/-- KVPUT alone writes memory, and a checked one stays within the record. -/
theorem draftOp_byte {i : List Byte} {y : DraftPass} {kvLen : Nat} (hok : draftInstrOk vocab sram weights kvLen i = true)
    (hout : OutsideRecord x kvLen a) : Tab.get 0 (draftOp x i y).bytes a = Tab.get 0 y.bytes a := by
  unfold draftOp
  dsimp only
  split
  case h_7 hop =>
    have hfit : leAt i 2 2 + leAt i 18 2 * dtSize (leAt i 1 1) ≤ kvLen := by
      simp only [draftInstrOk, hop, Bool.and_eq_true] at hok
      obtain ⟨-, -, -, -, -, -, hput, -⟩ := hok
      simpa using hput
    dsimp only
    cases hc : x.cache x.pos with
    | none => rfl
    | some c =>
      have hfar := hout c hc
      have hlen : (y.area.bytes (leAt i 4 4) (leAt i 18 2 * dtSize (leAt i 1 1))).length = leAt i 18 2 * dtSize (leAt i 1 1) := by
        simp [Area.bytes]
      exact SliceCerts.get_pokeTab_outside _ _ _ (by rw [hlen]; omega)
  all_goals rfl

theorem draftCode_byte {kvLen : Nat} (hout : OutsideRecord x kvLen a) (n : Nat) : ∀ {l : List Byte} {y : DraftPass},
    draftCodeOk vocab sram weights kvLen n l = true → Tab.get 0 (draftCode x n l y).bytes a = Tab.get 0 y.bytes a := by
  induction n with
  | zero => exact fun _ => rfl
  | succ n ih =>
    intro l y hok
    rw [draftCodeOk, Bool.and_eq_true] at hok
    obtain ⟨hfirst, hrest⟩ := hok
    rw [draftCode]
    split
    · rfl
    · rw [ih hrest, draftOp_byte hfirst hout]

theorem draftPass_byte {g : Program} {r : Req} {token pos : Nat} {b : Tab Byte}
    (hok : draftCodeOk d.vocab d.sram weights d.kvLen (d.codeLen / 32)
      ((List.range d.codeLen).map (frameByte b (d.frames.take (ceilDiv d.codeLen 65536)))) = true)
    (hout : ∀ c, cacheAt g d r pos = some c → a < c ∨ c + d.kvLen ≤ a) : Tab.get 0 (draftPass g d r token pos b).2 a = Tab.get 0 b a :=
  draftCode_byte (x := { prog := d, weights := frameByte b (d.frames.drop (ceilDiv d.codeLen 65536)), cache := cacheAt g d r, token := token, pos := pos })
    hout _ hok

end Pass

/-! ## DRAFT_LOAD and UNLOAD (R397, R398) -/

theorem reclaimRetained_drafts (sel : Nat → FrameRec → Bool) (m : Nat) (s : State) : (reclaimRetained sel m s).serve.drafts = s.serve.drafts := by
  rw [reclaimRetained]
  dsimp only
  rw [(freeFrames_only _ (List.Subset.refl _) Only.refl).keeps .serve (by decide), removeEntries_serve]

theorem steward_drafts (q m cls who : Nat) (resume firmware : Bool) (s : State) :
    (steward q m cls resume firmware who s).2.serve.drafts = s.serve.drafts := by
  have hfirst : (if quotaOk s q m = true then s else
      reclaimRetained (fun _ r => decide (r.part = q)) (charged s q + m - (s.part q).hbmQuota) s).serve.drafts = s.serve.drafts := by
    split
    · rfl
    · exact reclaimRetained_drafts ..
  unfold steward
  dsimp only
  generalize (if quotaOk s q m = true then s else
    reclaimRetained (fun _ r => decide (r.part = q)) (charged s q + m - (s.part q).hbmQuota) s) = u at hfirst
  generalize (if q = 0 then 0 else poolAvail u q (mayReserve cls resume firmware)) = own
  generalize (if q = 0 then [0] else [q, 0]) = pools
  generalize (if q = 0 then [] else poolRegions u q) = own'
  split
  · exact hfirst
  · split
    · exact (reclaimRetained_drafts ..).trans hfirst
    · exact hfirst

theorem dropDraft_draftOf (p k : Nat) (s : State) : (dropDraft p s).draftOf k = if k = p then none else s.draftOf k := by
  unfold dropDraft
  split
  case h_1 hnone =>
    split
    case isTrue h => rw [h, hnone]
    case isFalse => rfl
  case h_2 d _ =>
    rw [draftOf_eq, (freeFrames_only d.frames (List.Subset.refl _) Only.refl).keeps .serve (by decide)]
    exact look_filter_ne s.serve.drafts p k

/-- The program that a header, its code and its weights load. -/
def loaded (h code w : List Byte) (l : List Nat) : DraftProg :=
  { k := leAt h 6 1, support := leAt h 7 1, vocab := leAt h 8 4, t0 := leAt h 44 2, t1 := leAt h 46 2, sram := leAt h 48 4, codeLen := leAt h 12 4
    kvOff := leAt h 40 2, kvLen := leAt h 42 2, frames := l, digest := Config.sha384 (h ++ code ++ w) }

section Load

variable {n : Fin 16} (hexp : (s.box n.val).exp = false) (hmaint : s.units.maint = false)

include hexp hmaint

theorem draft_unloaded (hrun : Runs s n 0x0506) (hbit : (s.box n.val).arg 2 = 1) (h0 : (s.box n.val).arg 0 = 0) (h1 : (s.box n.val).arg 1 = 0)
    (hidle : partLive s (mbxPart s n.val) = false) : Answers (.draftUnload n) s fun t => let q := mbxPart s n.val
      t.draftOf q = none ∧ (∀ k, k ≠ q → t.draftOf k = s.draftOf k)
      ∧ (t.box n.val).outbox = (s.box n.val).outbox ++ [{ status := 0 }] ∧ t.mem.bytes = s.mem.bytes := by
  have hshare : ∀ u, setShare (s.box n.val) u = u := fun u => if_neg (by rw [hexp]; exact Bool.false_ne_true)
  have hdrop := dropDraft_draftOf (mbxPart s n.val)
  refine answers_of_commandIf rfl (by simp [unloadBit, hbit]) hrun ?_ ?_
  · simp [first_eq_none, firstFail_cons_eq_none, failIf_eq_none, hexp, hbit, h0, h1, shareOk, hidle, maintBusy, hmaint]
  · dsimp only
    rw [hshare]
    have hkeeps : Only [.store, .log, .mem, .serve, .link, .out] (s.freed n) (dropDraft (mbxPart (s.freed n) n.val) (s.freed n)) :=
      dropDraft_only _ (List.Subset.refl _) Only.refl
    exact ⟨(hdrop _ (s.freed n)).trans (if_pos rfl), fun k hk => (hdrop k (s.freed n)).trans (if_neg hk),
      replyDone_answer (hkeeps.keeps .mbx (by decide)) [], hkeeps.keeps .bytes (by decide)⟩

theorem draft_loads (hrun : Runs s n 0x0506) (hbit : (s.box n.val).arg 2 = 0) (hplain : ctPart s (mbxPart s n.val) = false)
    (hidle : partLive s (mbxPart s n.val) = false) (hdva : (s.box n.val).arg64 0 < 2 ^ 48) (hnone : s.draftOf (mbxPart s n.val) = none)
    (hroom : s.serve.drafts.length < 8) {g : Program} {l : List Nat} {h code w : List Byte × State}
    (hh : h = dvaBytes (mbxPart s n.val) ((s.box n.val).arg64 0) 64 (s.freed n))
    (hcode : code = dvaBytes (mbxPart s n.val) (leAt h.1 16 6) (leAt h.1 12 4) h.2)
    (hw : w = dvaBytes (mbxPart s n.val) (leAt h.1 24 6) (leAt h.1 32 8) code.2)
    (hsram : (s.serve.drafts.map fun e => e.2.sram).sum + leAt h.1 48 4 ≤ 8388608)
    (hprog : (s.spart (mbxPart s n.val)).program = some g) (hhead : draftHeaderOk g h.1 = true) (hlen : code.1.length = leAt h.1 12 4)
    (hok : draftCodeOk (leAt h.1 8 4) (leAt h.1 48 4) (leAt h.1 32 8) (leAt h.1 42 2) (code.1.length / 32) code.1 = true)
    (hwlen : w.1.length = leAt h.1 32 8)
    (hgrant : (steward (mbxPart s n.val) (ceilDiv code.1.length 65536 + ceilDiv w.1.length 65536) 1 false false n.val w.2).1 = .ok l) :
    Answers (.draftLoad n) s fun t => let q := mbxPart s n.val
      t.draftOf q = some (loaded h.1 code.1 w.1 l) ∧ (∀ k, k ≠ q → t.draftOf k = s.draftOf k) ∧ (t.box n.val).await = some .draftLoad
      ∧ (t.box n.val).outbox = (s.box n.val).outbox ++ [{ status := 1 }] := by
  have hread : Indexed (s.freed n) w.2 := by
    rw [hw, hcode, hh]
    exact ((dvaBytes_indexed ..).trans (dvaBytes_indexed ..)).trans (dvaBytes_indexed ..)
  have hmbx : w.2.mbx = (s.freed n).mbx := by
    rw [hw, hcode, hh]
    exact ((dvaRead_mbx ..).trans (dvaRead_mbx ..)).trans (dvaRead_mbx ..)
  have hdrafts : w.2.serve.drafts = s.serve.drafts := hread.keeps Serve.drafts fun _ _ => rfl
  have hdrop : dropDraft (mbxPart s n.val) w.2 = w.2 := by
    rw [dropDraft, draftOf_congr hdrafts, hnone]
  have hothers : (s.serve.drafts.filter fun e => e.1 ≠ mbxPart s n.val) = s.serve.drafts :=
    filter_ne_of_look _ hnone
  have hshare : ∀ u, setShare (s.box n.val) u = u := fun u => if_neg (by rw [hexp]; exact Bool.false_ne_true)
  refine answers_of_commandIf rfl (by simp [unloadBit, hbit]) hrun ?_ ?_
  · simp [first_eq_none, firstFail_cons_eq_none, failIf_eq_none, hexp, hbit, hplain, shareOk]
  · have hpart : mbxPart (s.freed n) n.val = mbxPart s n.val := rfl
    dsimp only
    rw [hpart, ← hh, ← hcode, ← hw]
    generalize mbxPart s n.val = q at *
    rw [decideOn_of_pass]
    · rw [hdrop, hgrant]
      dsimp only
      rw [hshare]
      have hsteward := steward_drafts q (ceilDiv code.1.length 65536 + ceilDiv w.1.length 65536) 1 n.val false false w.2
      have hbox := ServingCerts.steward_mbx q (ceilDiv code.1.length 65536 + ceilDiv w.1.length 65536) 1 n.val false false w.2
      generalize (steward q (ceilDiv code.1.length 65536 + ceilDiv w.1.length 65536) 1 false false n.val w.2).2 = v at hsteward hbox
      have hcopied : Only [.mem, .bytes] v (pokeFrames (l.drop (ceilDiv code.1.length 65536)) w.1
          (pokeFrames (l.take (ceilDiv code.1.length 65536)) code.1 (markFrames { use := .system, part := q } l v))) :=
        pokeFrames_only _ _ (by decide) (pokeFrames_only _ _ (by decide) (markFrames_only _ _ (by decide) Only.refl))
      generalize pokeFrames (l.drop (ceilDiv code.1.length 65536)) w.1
          (pokeFrames (l.take (ceilDiv code.1.length 65536)) code.1 (markFrames { use := .system, part := q } l v)) = u at hcopied
      have hkept : u.serve.drafts = s.serve.drafts :=
        (congrArg Serve.drafts (hcopied.keeps .serve (by decide))).trans (hsteward.trans hdrafts)
      have hlook := look_append s.serve.drafts q (loaded h.1 code.1 w.1 l) hnone
      refine ⟨?_, fun k hk => ?_, PinCerts.setAwait_await .., accepted_outbox ?_ _⟩
      · rw [← hkept] at hlook
        exact (hlook q).trans (if_pos rfl)
      · have hother := (hlook k).trans (if_neg hk)
        rw [← hkept] at hother
        exact hother.trans (by rw [hkept]; rfl)
      · exact (hcopied.keeps .mbx (by decide)).trans (hbox.trans hmbx)
    · have hgood : (((s.freed n).spart q).program.elim false fun g => draftHeaderOk g h.1) = true := by
        rw [show ((s.freed n).spart q).program = some g from hprog]
        exact hhead
      have hlive : partLive (s.freed n) q = false := hidle
      have hmain : maintBusy (s.freed n) = none := failIf_eq_none.2 hmaint
      have hrest : ((s.freed n).serve.drafts.filter fun e => e.1 ≠ q) = s.serve.drafts := hothers
      rw [hrest]
      simp [first_eq_none, firstFail_cons_eq_none, failIf_eq_none, hgood, hlen, hlive, hmain, hwlen]
      exact ⟨⟨hdva, hlen ▸ hok⟩, hroom, hsram⟩

end Load

/-! ## A program becomes ready (R398) -/

/-- The program drafts from now on, and the prefixes of its partition are flushed. -/
def readied (q : Nat) (d : DraftProg) (s : State) : State :=
  logInfo 0x0520 0x0E 1 [q] (removeEntries (fun _ e => e.part = q)
    { s with serve := { s.serve with drafts := s.serve.drafts.map fun e => if e.1 = q then (q, { d with ready := true }) else e } })

section Loaded

variable {q : Fin 64} (hd : s.draftOf q.val = some d)

include hd

theorem exec_draftLoaded (hready : d.ready = false) : exec (.draftLoaded q) s = .next
    (replyEach { status := 0, res := (List.range 4).map fun i => d.digest.toNat / 2 ^ (32 * i) % 2 ^ 32 }
      (draftBoxes (readied q.val d s) q.val) (readied q.val d s)) := by
  have hexec : exec (.draftLoaded q) s = execDraftLoaded q s := rfl
  rw [hexec, execDraftLoaded]
  dsimp only
  rw [hd]
  dsimp only
  rw [hready]
  rfl

omit hd in
theorem readied_serve : (readied q.val d s).serve = { s.serve with
    drafts := s.serve.drafts.map fun e => if e.1 = q.val then (q.val, { d with ready := true }) else e
    index := s.serve.index.filter fun e => !decide (e.2.part = q.val) } := by
  rw [readied, (logInfo_only _ _ _ _ (List.Subset.refl _) Only.refl).keeps .serve (by decide), removeEntries_serve]

omit hd in
theorem readied_keeps : Only [.log, .mem, .serve, .link, .out] s (readied q.val d s) :=
  logInfo_only _ _ _ _ (by decide) (removeEntries_only _ (by decide) (Only.atServe (by decide) Only.refl))

/-- The mailbox with its waiting command answered. -/
def answered (r : Reply) (m : Mbx) : Mbx := { m with await := none, outbox := m.outbox ++ [r] }

omit hd in
theorem reply_cleared_box (r : Reply) (n k : Nat) (s : State) :
    (reply n r (setBox n { s.box n with await := none } s)).box k = if k = n then answered r (s.box k) else s.box k := by
  rw [reply, box_setBox, box_setBox_self, box_setBox]
  split
  case isTrue h => rw [h, answered]
  case isFalse => rfl

omit hd in
theorem replyEach_box (r : Reply) (l : List Nat) (hl : l.Nodup) (k : Nat) : ∀ s : State, (replyEach r l s).box k =
    if k ∈ l then answered r (s.box k) else s.box k := by
  induction l with
  | nil => exact fun _ => rfl
  | cons n l ih =>
    intro s
    obtain ⟨hn, hl⟩ := List.nodup_cons.1 hl
    rw [replyEach, ih hl, reply_cleared_box]
    by_cases hk : k = n
    · rw [if_pos hk, if_neg (by rw [hk]; exact hn), if_pos (by rw [hk]; exact List.mem_cons_self)]
    · simp only [List.mem_cons, hk, false_or, if_false]

theorem draft_ready (hready : d.ready = false) : Answers (.draftLoaded q) s fun t =>
    t.draftOf q.val = some { d with ready := true } ∧ (∀ e ∈ t.serve.index, e.2.part ≠ q.val)
    ∧ (∀ k, k < 16 → (s.box k).await = some .draftLoad → mbxPart s k = q.val → (t.box k).await = none
        ∧ (t.box k).outbox = (s.box k).outbox ++ [{ status := 0, res := (List.range 4).map fun i => d.digest.toNat / 2 ^ (32 * i) % 2 ^ 32 }])
    ∧ t.mem.bytes = s.mem.bytes := by
  have hserve := readied_serve (s := s) (d := d) (q := q)
  have hkeeps := readied_keeps (s := s) (d := d) (q := q)
  refine ⟨_, exec_draftLoaded hd hready, ?_⟩
  generalize ({ status := 0, res := (List.range 4).map fun i => d.digest.toNat / 2 ^ (32 * i) % 2 ^ 32 } : Reply) = r
  generalize readied q.val d s = u at hserve hkeeps
  have hreply : Only [.mbx] u (replyEach r (draftBoxes u q.val) u) := replyEach_only _ _ (List.Subset.refl _) Only.refl
  have hbox : ∀ k, u.box k = s.box k := box_congr (hkeeps.keeps .mbx (by decide))
  have hpart : ∀ k, mbxPart u k = mbxPart s k := fun k => congrArg (fun z : Prot => mbxPart { u with prot := z } k) (hkeeps.keeps .prot (by decide))
  refine ⟨?_, fun e he => ?_, fun k hk hwait hmine => ?_, ?_⟩
  · rw [draftOf_congr (congrArg Serve.drafts (hreply.keeps .serve (by decide))), draftOf_congr (t := u)
      (s := modDraft q.val (fun _ => { d with ready := true }) s) (hserve ▸ rfl), modDraft_draftOf, if_pos rfl, hd]
    rfl
  · rw [hreply.keeps .serve (by decide), hserve] at he
    simpa using (List.mem_filter.1 he).2
  · have hmem : k ∈ draftBoxes u q.val := List.mem_filter.2 ⟨List.mem_range.2 hk, by simp [hbox, hpart, hwait, hmine]⟩
    have hnodup : (draftBoxes u q.val).Nodup := List.nodup_range.filter _
    rw [replyEach_box _ _ hnodup, if_pos hmem, hbox]
    exact ⟨rfl, rfl⟩
  · rw [hreply.keeps .bytes (by decide), hkeeps.keeps .bytes (by decide)]

end Loaded

/-! ## Drafting rounds (R402, R404, R413) -/

section Round

variable {q : Fin 64} (hd : s.draftOf q.val = some d) (hready : d.ready = true) (hok : d.failed = false)

theorem clearProposals_drafts (l : List Nat) : ∀ s : State, (clearProposals l s).serve.drafts = s.serve.drafts := by
  induction l with
  | nil => exact fun _ => rfl
  | cons i l ih =>
    intro s
    rw [clearProposals, ih]
    unfold modReq
    split <;> rfl

theorem clearProposals_req (l : List Nat) (k : Nat) : ∀ s : State, (clearProposals l s).req k =
    if k ∈ l then (s.req k).map (fun r => { r with prop := none }) else s.req k := by
  induction l with
  | nil => exact fun _ => rfl
  | cons i l ih =>
    intro s
    have hone : ∀ k, (modReq i (fun r => { r with prop := none })
        { s with serve := { s.serve with drafting := Tab.del s.serve.drafting i } }).req k =
        if k = i then (s.req k).map (fun r => { r with prop := none }) else s.req k := by
      intro k
      unfold modReq
      split
      case h_1 hnone =>
        split
        case isTrue h => rw [h, show s.req i = none from hnone]; exact hnone
        case isFalse => rfl
      case h_2 r hsome =>
        rw [setReq_req]
        split
        case isTrue h => rw [h, show s.req i = some r from hsome]; rfl
        case isFalse => rfl
    rw [clearProposals, ih, hone]
    by_cases hk : k = i
    · simp only [hk, List.mem_cons, true_or, if_true]
      split
      · rw [Option.map_map]
        rfl
      · rfl
    · simp only [List.mem_cons, hk, false_or, if_false]

/-- The pass of one round of request `i`. -/
def turnOf (g : Program) (d : DraftProg) (i : Nat) (r : Req) (s : State) : List PropPos × Tab Byte :=
  let e := Tab.get {} s.serve.drafting i
  draftTurn g d r (min d.k (r.maxNew - (r.genLen + (decidedOf s i).1.length) - 1)) e.left (r.toks ++ (decidedOf s i).1) e.props s.mem.bytes

section One

variable {u : State} {i : Nat} {r : Req} {g : Program} (hr : u.req i = some r) (hg : (u.spart r.part).program = some g)

include hr hg

theorem roundOne_last (hlast : (Tab.get {} u.serve.drafting i).left = 1) : roundOne d i u =
    setReq i { r with prop := some (turnOf g d i r u).1 }
      { u with mem := { u.mem with bytes := (turnOf g d i r u).2 }, serve := { u.serve with drafting := Tab.del u.serve.drafting i } } := by
  rw [roundOne, hr]
  dsimp only
  rw [hg]
  dsimp only
  rw [if_pos hlast, if_pos hlast]
  rfl

theorem roundOne_more (hmore : (Tab.get {} u.serve.drafting i).left ≠ 1) : roundOne d i u =
    { u with mem := { u.mem with bytes := (turnOf g d i r u).2 },
             serve := { u.serve with drafting := Tab.put {} u.serve.drafting i { left := (Tab.get {} u.serve.drafting i).left - 1, props := (turnOf g d i r u).1 } } } := by
  rw [roundOne, hr]
  dsimp only
  rw [hg]
  dsimp only
  rw [if_neg hmore, if_neg hmore]
  rfl

end One

include hd hready hok

theorem round_in_error (hsome : drafters s q.val ≠ []) : Answers (.draftRound q true) s fun t =>
    t.draftOf q.val = some { d with errs := d.errs + 1, failed := decide (3 ≤ d.errs + 1) }
    ∧ (∀ i ∈ drafters s q.val, ∀ r, s.req i = some r → t.req i = some { r with prop := none }) := by
  have hexec : exec (.draftRound q true) s = execDraftRound q true s := rfl
  have hdraft : draftReady s q.val = some d := by simp [draftReady, hd, hready, hok]
  rw [execDraftRound] at hexec
  simp only [hdraft] at hexec
  rw [if_neg (by simpa using hsome), if_pos trivial] at hexec
  refine ⟨_, hexec, ?_, fun i hi r hr => ?_⟩
  · rw [draftOf_congr (congrArg Serve.drafts ((logUe_only _ _ _ _ _ (List.Subset.refl _) Only.refl).keeps .serve (by decide))),
      modDraft_draftOf, if_pos rfl, draftOf_congr (clearProposals_drafts ..), hd]
    rfl
  · rw [req_congr (congrArg Serve.reqs ((logUe_only _ _ _ _ _ (List.Subset.refl _) Only.refl).keeps .serve (by decide)))]
    refine (clearProposals_req _ i s).trans ?_
    rw [if_pos hi, hr]
    rfl

theorem round_of_one {i : Nat} {r : Req} {g : Program} (hone : drafters s q.val = [i]) (hr : s.req i = some r)
    (hg : (s.spart r.part).program = some g) :
    let e := Tab.get {} s.serve.drafting i
    let got := (decidedOf s i).1
    let k := min d.k (r.maxNew - (r.genLen + got.length) - 1)
    let x := draftTurn g d r k e.left (r.toks ++ got) e.props s.mem.bytes
    Answers (.draftRound q false) s fun t =>
      t.mem.bytes = x.2 ∧ t.draftOf q.val = some { d with errs := 0 } ∧ KeepsBut [.serve, .mem, .bytes] s t
      ∧ (1 < e.left → Tab.get {} t.serve.drafting i = { left := e.left - 1, props := x.1 } ∧ t.serve.reqs = s.serve.reqs)
      ∧ (e.left = 1 → Tab.get {} t.serve.drafting i = {} ∧ t.req i = some { r with prop := some x.1 }) := by
  have hexec : exec (.draftRound q false) s = execDraftRound q false s := rfl
  have hdraft : draftReady s q.val = some d := by simp [draftReady, hd, hready, hok]
  rw [execDraftRound] at hexec
  simp only [hdraft, hone] at hexec
  have hnew : (modDraft q.val (fun d => { d with errs := 0 }) s).draftOf q.val = some { d with errs := 0 } := by
    rw [modDraft_draftOf, if_pos rfl, hd]
    rfl
  have hkeeps : Only [.serve, .mem, .bytes] s (roundOne d i (modDraft q.val (fun d => { d with errs := 0 }) s)) :=
    roundOne_only _ _ (by decide) (modDraft_only _ _ (by decide) Only.refl)
  refine ⟨roundOne d i (modDraft q.val (fun d => { d with errs := 0 }) s), hexec, ?_⟩
  by_cases hlast : (Tab.get {} s.serve.drafting i).left = 1
  · have hround := roundOne_last (u := modDraft q.val (fun d => { d with errs := 0 }) s) (d := d) hr hg hlast
    rw [hround] at hkeeps ⊢
    exact ⟨rfl, hnew, hkeeps.keeps, fun h => absurd hlast (by omega), fun _ => ⟨(Tab.get_del ..).trans (if_pos rfl), (setReq_req ..).trans (if_pos rfl)⟩⟩
  · have hround := roundOne_more (u := modDraft q.val (fun d => { d with errs := 0 }) s) (d := d) hr hg hlast
    rw [hround] at hkeeps ⊢
    exact ⟨rfl, hnew, hkeeps.keeps, fun _ => ⟨Tab.get_put_self .., rfl⟩, fun h => absurd h hlast⟩

end Round

/-! ## Logit packets (R407) -/

section Packets

variable {slot : BitVec 16} {j : BitVec 8} {v : BitVec 32} {x : Vector (BitVec 16) 1024}

theorem packet_unknown (h : packetEntry s slot.toNat j.toNat = none) : exec (.logitPacket slot j v x) s =
    .next { s with serve := { s.serve with badPackets := s.serve.badPackets + 1 } } := by
  have hexec : exec (.logitPacket slot j v x) s = execLogitPacket slot j v x s := rfl
  rw [hexec, execLogitPacket, h]

/-- The decision of a position keeps what the packets were counted to be. -/
def SamePackets (s t : State) : Prop :=
  t.serve.packets = s.serve.packets ∧ t.serve.dupPackets = s.serve.dupPackets ∧ t.serve.badPackets = s.serve.badPackets

theorem SamePackets.trans {u : State} (h : SamePackets s t) (h' : SamePackets t u) : SamePackets s u :=
  ⟨h'.1.trans h.1, h'.2.1.trans h.2.1, h'.2.2.trans h.2.2⟩

theorem SamePackets.of_serve (h : t.serve = s.serve) : SamePackets s t := by
  simp only [SamePackets, h, and_self]

theorem draftAfter_packets (e : Entry) (r : Req) (l : List Nat) (code : Nat) (s : State) : SamePackets s (draftAfter e r l code s) := by
  unfold draftAfter
  split
  · exact .of_serve rfl
  · dsimp only
    split
    · exact .of_serve rfl
    · exact ⟨rfl, rfl, rfl⟩

theorem settled_packets (i : Nat) (r : Req) (d : List Nat × Nat) (s : State) :
    SamePackets s (setReq i r { s with serve := { s.serve with decided := (i, d) :: s.serve.decided } }) := ⟨rfl, rfl, rfl⟩

theorem noted_packets (c : Prop) [Decidable c] (scope : Contain) (a b l : Nat) (x : List Nat) (s : State) :
    SamePackets s (if c then logUe scope a b l x s else s) := by
  split
  · exact .of_serve ((logUe_only _ _ _ _ _ (List.Subset.refl _) Only.refl).keeps .serve (by decide))
  · exact .of_serve rfl

theorem decideEntry_packets (e : Entry) (s : State) : SamePackets s (decideEntry e s) := by
  unfold decideEntry
  split
  · dsimp only
    refine SamePackets.trans ?_ (draftAfter_packets ..)
    refine SamePackets.trans ?_ (noted_packets ..)
    exact settled_packets ..
  · exact .of_serve rfl

variable {e : Entry} {g : Program} (he : packetEntry s slot.toNat j.toNat = some e) (hg : (s.spart e.part).program = some g)
  (halign : v.toNat % 1024 = 0) (hvocab : v.toNat < g.vocab)

include he hg halign hvocab

theorem packet_kept (hnew : ∀ k ∈ s.serve.packets, k.1 ≠ (slot.toNat, j.toNat, v.toNat)) : Answers (.logitPacket slot j v x) s fun t =>
    t.serve.packets = ((slot.toNat, j.toNat, v.toNat), x.toList) :: s.serve.packets
    ∧ t.serve.dupPackets = s.serve.dupPackets ∧ t.serve.badPackets = s.serve.badPackets := by
  have hexec : exec (.logitPacket slot j v x) s = execLogitPacket slot j v x s := rfl
  have hfresh : (s.serve.packets.any fun k => decide (k.1 = (slot.toNat, j.toNat, v.toNat))) = false := by
    rw [List.any_eq_false]
    simpa only [decide_eq_true_eq] using hnew
  have hplace : (decide (v.toNat % 1024 ≠ 0) || decide (g.vocab ≤ v.toNat)) = false := by simp [halign, hvocab]
  simp only [execLogitPacket, he, hg, Option.elim, hplace, hfresh, Bool.false_eq_true, if_false] at hexec
  refine ⟨_, hexec, ?_⟩
  split
  · exact decideEntry_packets e _
  · exact ⟨rfl, rfl, rfl⟩

theorem packet_repeated (hold : ∃ k ∈ s.serve.packets, k.1 = (slot.toNat, j.toNat, v.toNat)) : Answers (.logitPacket slot j v x) s fun t =>
    t.serve = { s.serve with dupPackets := s.serve.dupPackets + 1, dupNoted := some s.serve.step } ∧ KeepsBut [.log, .serve, .link, .out] s t := by
  have hexec : exec (.logitPacket slot j v x) s = execLogitPacket slot j v x s := rfl
  have hseen : (s.serve.packets.any fun k => decide (k.1 = (slot.toNat, j.toNat, v.toNat))) = true := by
    rw [List.any_eq_true]
    simpa only [decide_eq_true_eq] using hold
  have hplace : (decide (v.toNat % 1024 ≠ 0) || decide (g.vocab ≤ v.toNat)) = false := by simp [halign, hvocab]
  simp only [execLogitPacket, he, hg, Option.elim, hplace, hseen, Bool.false_eq_true, if_false, if_true] at hexec
  refine ⟨_, hexec, ?_⟩
  split
  · exact ⟨rfl, (Only.atServe (by decide) Only.refl).keeps⟩
  · exact ⟨(logInfo_only _ _ _ _ (List.Subset.refl _) Only.refl).keeps .serve (by decide),
      (logInfo_only _ _ _ _ (by decide) (Only.atServe (by decide) Only.refl)).keeps⟩

end Packets

/-- Settles O52: loading, rounds, the reach of a pass, and logit packets. -/
theorem draftsAndSampling : Obligations.DraftsAndSampling := by
  refine ⟨fun n s hexp => ⟨fun hrun hbit hplain hmaint hidle hdva hnone hroom hsram g l hprog hhead hlen hok hwlen hgrant => ?load,
    fun hrun hbit h0 h1 hmaint => draft_unloaded hexp hmaint hrun hbit h0 h1⟩,
    fun q d s hd => ⟨draft_ready hd, fun hready hok hsome => ⟨round_in_error hd hready hok hsome,
      fun i r g hone hr hg _ => round_of_one hd hready hok hone hr hg⟩⟩,
    fun g d r token pos weights b hok a => draftPass_byte hok, fun slot j v x s => ⟨packet_unknown, fun e g he hg halign hvocab =>
      ⟨packet_kept he hg halign hvocab, packet_repeated he hg halign hvocab⟩⟩⟩
  case load =>
    obtain ⟨t, hexec, hnew, hothers, hwait, hout⟩ := draft_loads hexp hmaint hrun hbit hplain hidle hdva hnone hroom rfl rfl rfl hsram hprog hhead
      hlen hok hwlen hgrant
    exact ⟨t, hexec, ⟨_, hnew, rfl, rfl, rfl, rfl, rfl, rfl, rfl, rfl⟩, hothers, hwait, hout⟩

end Sys2Proof.DraftCerts
end

section
/-!
PROOF. What packets that leave, return or wait at a Gust port can change: records, responses and messages leave every port
alone, and a pumped port keeps the keys and epochs of its channels (spec/17_gust_links_and_host.md R451 to R464).
-/
namespace Sys2Proof.CarryCerts

open Sys2Proof.Machine Sys2Proof.Laws Sys2Proof.CommandCerts Sys2Proof.PortCerts

variable {s t u : State}

/-! ## Steps that leave every port alone -/

/-- A mailbox waits for nothing but, at most, the rekey of a channel. -/
def Patient (m : Mbx) : Prop := ∀ a, m.await = some a → ∃ k c, a = .linkRekey k c

/-- No port changes, no command that waits for a rekey is answered, and no message that was sent is lost. -/
structure Calm (s t : State) : Prop where
  ports : t.link.ports = s.link.ports
  waits : ∀ j, Patient (s.box j) → t.box j = s.box j
  sent : ∀ m ∈ s.out.sent, m ∈ t.out.sent

theorem Calm.refl : Calm s s := ⟨rfl, fun _ _ => rfl, fun _ h => h⟩

theorem Calm.trans (h : Calm s t) (h' : Calm t u) : Calm s u where
  ports := h'.ports.trans h.ports
  waits j hw := by
    have hkeep := h.waits j hw
    exact (h'.waits j (by rw [hkeep]; exact hw)).trans hkeep
  sent m hm := h'.sent m (h.sent m hm)

theorem Calm.of_eq (hports : t.link.ports = s.link.ports) (hbox : t.mbx = s.mbx) (hsent : t.out.sent = s.out.sent) : Calm s t :=
  ⟨hports, fun j _ => box_congr hbox j, fun m hm => by rw [hsent]; exact hm⟩

/-- A calm step may begin where fields that it says nothing of have changed. -/
theorem Calm.after (h : Calm t u) (hports : t.link.ports = s.link.ports) (hbox : t.mbx = s.mbx) (hsent : t.out.sent = s.out.sent) :
    Calm s u := (Calm.of_eq hports hbox hsent).trans h

theorem Calm.gport (h : Calm s t) (j : Nat) : t.gport j = s.gport j := gport_congr h.ports j

theorem send_calm (m : Msg) (s : State) : Calm s (send m s) := ⟨rfl, fun _ _ => rfl, fun _ h => List.mem_cons_of_mem _ h⟩

theorem sendMsix_sent (v : Nat) (s : State) : (sendMsix v s).out.sent = s.out.sent := by
  unfold sendMsix
  split
  · rfl
  · split <;> rfl

theorem sendMsix_calm (v : Nat) (s : State) : Calm s (sendMsix v s) :=
  .of_eq (ports_sendMsix ..) ((sendMsix_only _ (List.Subset.refl _) Only.refl).keeps .mbx (by decide)) (sendMsix_sent ..)

theorem logRec_sent (cls : Cls) (code ut inst : Nat) (d : List Nat) (c : Contain) (s : State) :
    (logRec cls code ut inst d c s).out.sent = s.out.sent := by
  unfold logRec
  dsimp only
  split
  · exact sendMsix_sent ..
  · rfl

theorem logRec_calm (cls : Cls) (code ut inst : Nat) (d : List Nat) (c : Contain) (s : State) : Calm s (logRec cls code ut inst d c s) :=
  .of_eq (ports_logRec ..) ((logRec_only _ _ _ _ _ _ (List.Subset.refl _) Only.refl).keeps .mbx (by decide)) (logRec_sent ..)

theorem logInfo_calm (code ut inst : Nat) (d : List Nat) (s : State) : Calm s (logInfo code ut inst d s) := logRec_calm ..

theorem logSec_calm (code ut inst : Nat) (d : List Nat) (s : State) : Calm s (logSec code ut inst d s) := logRec_calm ..

theorem logLimitedAt_calm (key period : Nat) (cls : Cls) (code ut inst : Nat) (d : List Nat) (c : Contain) (s : State) :
    Calm s (logLimitedAt key period cls code ut inst d c s) := by
  unfold logLimitedAt
  split
  · exact (logRec_calm cls code ut inst d c s).trans (.of_eq rfl rfl rfl)
  · exact .refl

theorem completeAwait_calm {p : Await → Bool} (hp : ∀ k c, p (.linkRekey k c) = false) (r : Reply) (s : State) :
    Calm s (completeAwait p r s) where
  ports := rfl
  waits j hw := by
    rw [StreamCerts.completeAwait_box, StreamCerts.answered]
    cases hawait : (s.box j).await with
    | none => exact if_neg Bool.false_ne_true
    | some a =>
      obtain ⟨k, c, rfl⟩ := hw a hawait
      exact if_neg (by rw [Option.elim, hp]; exact Bool.false_ne_true)
  sent _ h := h

theorem trySwitch_calm (s : State) : Calm s (trySwitch s) := by
  unfold trySwitch
  split
  · exact .refl
  · split
    · exact Calm.after (completeAwait_calm (fun _ _ => rfl) _ _) rfl rfl rfl
    · exact .refl

theorem portQuiet_calm (v : Nat) (s : State) : Calm s (portQuiet v s) := by
  unfold portQuiet
  split
  · unfold disableDone
    split
    · refine Calm.trans ?_ (completeAwait_calm (fun _ _ => rfl) _ _)
      exact Calm.after (trySwitch_calm _) rfl rfl rfl
    · exact .of_eq rfl rfl rfl
  · exact .refl

theorem isolate_calm (r : Nat) (x : OpenRegion) (s : State) : Calm s (isolate r x s) := by
  have hvane : Only [.vane, .freeCtr] s (isolate r x s) := isolate_only _ _ (List.Subset.refl _) Only.refl
  exact .of_eq (congrArg Links.ports (hvane.keeps .link (by decide))) (hvane.keeps .mbx (by decide))
    (congrArg (fun o => o.sent) (hvane.keeps .out (by decide)))

theorem vaneResponse_calm (v tag flits : Nat) {deliver : State → State} (hd : ∀ s, Calm s (deliver s)) (s : State) :
    Calm s (vaneResponse v tag flits deliver s) := by
  unfold vaneResponse
  dsimp only
  split
  · refine Calm.trans ?_ (portQuiet_calm _ _)
    have hdelivered : Calm s (deliver { s with vane := { s.vane with reads := Tab.put [] s.vane.reads v ((s.vaneReads v).erase tag) } }) :=
      Calm.after (hd _) rfl rfl rfl
    split
    · split
      · exact hdelivered.trans (isolate_calm _ _ _)
      · exact hdelivered
    · exact hdelivered
  · split
    · exact Calm.after (logInfo_calm _ _ _ _ _) rfl rfl rfl
    · exact .of_eq rfl rfl rfl

theorem discardPacket_calm (p : Packet) (s : State) : Calm s (discardPacket p s) := by
  unfold discardPacket
  split
  · unfold errorTo
    split
    · exact send_calm _ _
    · split
      · exact vaneResponse_calm _ _ _ (fun s => send_calm _ s) s
      · exact send_calm _ _
  · exact .refl

theorem discardAll_calm (l : List Packet) : ∀ s : State, Calm s (discardAll l s) := by
  induction l with
  | nil => exact fun _ => .refl
  | cons p l ih => exact fun s => (discardPacket_calm p s).trans (ih _)

theorem modCx_calm (i : Nat) (f : CxSess → CxSess) (s : State) : Calm s (modCx i f s) := .of_eq rfl rfl rfl

theorem suspendCx_calm (i : Nat) (s : State) : Calm s (suspendCx i s) := by
  unfold suspendCx
  split
  · exact .refl
  · split
    · exact .refl
    · exact (modCx_calm i _ s).trans (logInfo_calm _ _ _ _ _)

/-! ## Packets that enter the mesh (R199, R201) -/

theorem launchMcast_calm (b : Bool) (p : Packet) (s : State) : Calm s (launchMcast b p s) := by
  unfold launchMcast
  split
  · exact .refl
  · unfold openTally
    split
    · exact .of_eq rfl rfl rfl
    · exact .of_eq rfl rfl rfl

theorem enterMesh_calm (k : Nat) (sb : BitVec 64) (data : List Byte) (s : State) : Calm s (enterMesh k sb data s) := by
  unfold enterMesh
  dsimp only
  split
  · exact discardPacket_calm _ _
  · split
    · split
      · exact launchMcast_calm _ _ _
      · exact (discardPacket_calm _ _).trans (logLimitedAt_calm ..)
    · split
      · exact ((discardPacket_calm _ _).trans (logLimitedAt_calm ..)).trans (.of_eq rfl rfl rfl)
      · exact .of_eq rfl rfl rfl

theorem drainGust_calm (l : List GustEntry) : ∀ s : State, Calm s (drainGust l s) := by
  induction l with
  | nil => exact fun _ => .refl
  | cons e l ih =>
    intro s
    rw [drainGust]
    refine Calm.trans ?_ (ih _)
    split
    · exact .of_eq rfl rfl rfl
    · exact enterMesh_calm _ _ _ s

theorem drainGusts_calm (s : State) : Calm s (drainGusts s) := Calm.after (drainGust_calm _ _) rfl rfl rfl

/-! ## Steps that write one port's own records -/

/-- A channel keeps everything but its transmit counter and its hold queue. -/
def SameChan (x y : SChan) : Prop := y = { x with tx := y.tx, held := y.held }

theorem SameChan.trans {x y z : SChan} (h : SameChan x y) (h' : SameChan y z) : SameChan x z := by
  unfold SameChan at *
  rw [h'.trans (congrArg (fun w : SChan => { w with tx := z.tx, held := z.held }) h)]

/-- Only port `k` changes, and of its channels only transmit counters and hold queues. -/
structure Carried (k : Nat) (s t : State) : Prop where
  others : ∀ j, j ≠ k → t.gport j = s.gport j
  chans : ∀ c, SameChan (s.chanOf k c) (t.chanOf k c)
  waits : ∀ j, Patient (s.box j) → t.box j = s.box j
  sent : ∀ m ∈ s.out.sent, m ∈ t.out.sent

variable {k : Nat}

theorem Calm.carried (h : Calm s t) : Carried k s t where
  others j _ := h.gport j
  chans c := by
    rw [show t.chanOf k c = s.chanOf k c from congrArg (fun p : GPort => Tab.get ({} : SChan) p.chans c) (h.gport k)]
    rfl
  waits := h.waits
  sent := h.sent

theorem Carried.refl : Carried k s s := Calm.refl.carried

theorem Carried.trans (h : Carried k s t) (h' : Carried k t u) : Carried k s u where
  others j hj := (h'.others j hj).trans (h.others j hj)
  chans c := (h.chans c).trans (h'.chans c)
  waits j hw := by
    have hkeep := h.waits j hw
    exact (h'.waits j (by rw [hkeep]; exact hw)).trans hkeep
  sent m hm := h'.sent m (h.sent m hm)

theorem chanOf_modGport {f : GPort → GPort} (hf : ∀ p, (f p).chans = p.chans) (j c : Nat) (s : State) :
    (modGport k f s).chanOf j c = s.chanOf j c := by
  rw [State.chanOf, gport_modGport]
  by_cases h : j = k
  · rw [if_pos h, hf, h]
    rfl
  · rw [if_neg h]
    rfl

theorem chanOf_modSChan (k c c' : Nat) (f : SChan → SChan) (s : State) :
    (modSChan k c f s).chanOf k c' = if c' = c then f (s.chanOf k c) else s.chanOf k c' := by
  rw [State.chanOf, gport_modSChan, if_pos rfl]
  exact Tab.get_put

theorem modGport_carried {f : GPort → GPort} (hf : ∀ p, (f p).chans = p.chans) (s : State) : Carried k s (modGport k f s) where
  others j hj := by rw [gport_modGport, if_neg hj]
  chans c := by
    rw [chanOf_modGport hf]
    rfl
  waits _ _ := rfl
  sent _ h := h

theorem modSChan_carried (c : Nat) {f : SChan → SChan} (hf : ∀ x, SameChan x (f x)) (s : State) : Carried k s (modSChan k c f s) where
  others j hj := by rw [gport_modSChan, if_neg hj]
  chans c' := by
    rw [chanOf_modSChan]
    split
    case isTrue h => rw [h]; exact hf _
    case isFalse => rfl
  waits _ _ := rfl
  sent _ h := h

theorem putFlits_chans (l : List (BitVec 56 × List Byte)) : ∀ p : GPort, (putFlits l p).chans = p.chans := by
  induction l with
  | nil => exact fun _ => rfl
  | cons f l ih => exact fun p => ih _

theorem emitFlits_carried (vc : Nat) (l : List (BitVec 56 × List Byte)) (s : State) : Carried k s (emitFlits k vc l s) :=
  modGport_carried (f := fun p => putFlits l (p.setCredit vc (p.credit vc - l.length))) (fun _ => putFlits_chans l _) s

theorem trySend_carried (x : Packet) (s : State) : Carried k s (trySend k x s).2 := by
  unfold trySend
  dsimp only
  split
  · split
    · split
      · refine Carried.trans ?_ (send_calm _ _).carried
        exact (modSChan_carried 0 (f := fun y => { y with tx := y.tx + 1 }) (fun _ => rfl) s).trans (emitFlits_carried _ _ _)
      · exact .refl
    · split
      · exact modSChan_carried 0 (f := fun y => { y with held := y.held ++ [x] }) (fun _ => rfl) s
      · refine Carried.trans ?_ (discardPacket_calm _ _).carried
        exact modGport_carried (f := fun p => { p with holdRef := satInc p.holdRef }) (fun _ => rfl) s
  · split
    · refine Carried.trans ?_ (send_calm _ _).carried
      exact emitFlits_carried _ _ s
    · exact .refl

theorem sendList_carried (l : List Packet) : ∀ s : State, Carried k s (sendList k l s).2 := by
  induction l with
  | nil => exact fun _ => .refl
  | cons x l ih => exact fun s => (trySend_carried x s).trans (ih _)

theorem pumpPort_carried (s : State) : Carried k s (pumpPort k s) :=
  ((modGport_carried (f := fun p => { p with waitq := [] }) (fun _ => rfl) s).trans (sendList_carried (s.gport k).waitq _)).trans
    (modGport_carried (f := fun p => { p with waitq := (sendList k (s.gport k).waitq (modGport k (fun p => { p with waitq := [] }) s)).1 ++ p.waitq })
      (fun _ => rfl) _)

/-- A port at which nothing waits stays as it is. -/
theorem pumpPort_eq_of_empty (h : (s.gport k).waitq = []) :
    pumpPort k s = modGport k (fun p => { p with waitq := [] ++ p.waitq }) (modGport k (fun p => { p with waitq := [] }) s) := by
  rw [pumpPort, h]
  rfl

theorem pumpPort_empty (h : (s.gport k).waitq = []) (j : Nat) : (pumpPort k s).gport j = s.gport j := by
  rw [pumpPort_eq_of_empty h, gport_modGport]
  by_cases hj : j = k
  · rw [if_pos hj, gport_modGport, if_pos rfl, hj, List.nil_append, ← h]
  · rw [if_neg hj, gport_modGport, if_neg hj]

theorem sendBatch_carried (i : Nat) (b : CxBatch) (s : State) : Carried 11 s (sendBatch i b s) := by
  have hframes : ∀ (n seq : Nat) (l : List Byte) (s : State), Carried 11 s (batchFrames i b n seq l s) := by
    intro n
    induction n with
    | zero => exact fun _ _ _ => .refl
    | succ n ih =>
      intro seq l s
      have hone := (modSChan_carried (k := 11) i (fun x => (rfl : SameChan x { x with tx := x.tx + 1 })) s).trans
        (send_calm (.cx i "BATCH" ([b.round, seq, b2n (decide (l.length ≤ 4064)), b.base, b.count] ++ (l.take 4064).map BitVec.toNat)) _).carried
      unfold batchFrames
      dsimp only
      split
      · exact hone
      · exact hone.trans (ih _ _ _)
  exact hframes _ _ _ _

theorem sendAck_carried (i r : Nat) (s : State) : Carried 11 s (sendAck i r s) :=
  (modSChan_carried (k := 11) i (fun x => (rfl : SameChan x { x with tx := x.tx + 1 })) s).trans (send_calm _ _).carried

theorem pumpCx_carried (i : Nat) (s : State) : Carried 11 s (pumpCx i s) := by
  unfold pumpCx
  split
  · exact .refl
  · split
    · exact .refl
    · next x _ _ =>
      have hbatch : Carried 11 s (match x.out with
          | some b =>
            if !b.sent && b.base + b.count ≤ x.made then modCx i (fun x => { x with out := some { b with sent := true } }) (sendBatch i b s)
            else s
          | none => s) := by
        split
        · split
          · exact (sendBatch_carried i _ s).trans (modCx_calm _ _ _).carried
          · exact .refl
        · exact .refl
      dsimp only
      split
      · exact (hbatch.trans (sendAck_carried _ _ _)).trans (modCx_calm _ _ _).carried
      · exact hbatch

/-! ## A packet arrives (R451) -/

/-- Neither another port nor a channel of this one changes. -/
structure Arrived (k : Nat) (s t : State) : Prop where
  others : ∀ j, j ≠ k → t.gport j = s.gport j
  chans : ∀ c, t.chanOf k c = s.chanOf k c

theorem Calm.arrived (h : Calm s t) : Arrived k s t := ⟨fun j _ => h.gport j, fun c => by rw [State.chanOf, h.gport]; rfl⟩

theorem Arrived.trans (h : Arrived k s t) (h' : Arrived k t u) : Arrived k s u :=
  ⟨fun j hj => (h'.others j hj).trans (h.others j hj), fun c => (h'.chans c).trans (h.chans c)⟩

theorem modGport_arrived {f : GPort → GPort} (hf : ∀ p, (f p).chans = p.chans) (s : State) : Arrived k s (modGport k f s) :=
  ⟨(modGport_carried hf s).others, fun c => chanOf_modGport hf k c s⟩

theorem inject_arrived (sb : BitVec 64) (data : List Byte) (s : State) : Arrived k s (inject k sb data s) := by
  have hdrain : ∀ (e : GustEntry) (u : State), Arrived k u (drainGusts { u with net := { u.net with gustWait := u.net.gustWait ++ [e] } }) :=
    fun e u => Calm.arrived (Calm.after (drainGusts_calm _) rfl rfl rfl)
  unfold inject
  dsimp only
  split
  · refine Arrived.trans ?_ (hdrain _ _)
    exact modGport_arrived (fun _ => by rfl) s
  · exact hdrain _ _

theorem packetArrives_arrived (sb : BitVec 64) (data : List Byte) (s : State) : Arrived k s (packetArrives k sb data s) := by
  unfold packetArrives
  split
  · exact Calm.refl.arrived
  split
  · exact Calm.refl.arrived
  split
  · unfold answerArrives
    dsimp only
    split
    · refine Arrived.trans ?_ (logInfo_calm _ _ _ _ _).arrived
      exact modGport_arrived (fun _ => by rfl) s
    · refine Arrived.trans ?_ (inject_arrived _ _ _)
      exact modGport_arrived (fun _ => by rfl) s
  · exact inject_arrived _ _ _

theorem packetArrives_test {sb : BitVec 64} (h : sbTest sb = true) (data : List Byte) (s : State) : packetArrives k sb data s = s := if_pos h

theorem mcastCopies_same (s : State) (b : Bool) (p : Packet) (g : McastGroup) :
    ∀ q ∈ mcastCopies s b p g, q.data = p.data ∧ q.src = p.src := by
  intro q hq
  unfold mcastCopies at hq
  split at hq
  · simp only [List.mem_append, List.mem_map] at hq
    rcases hq with ⟨e, -, rfl⟩ | hq
    · exact ⟨rfl, rfl⟩
    · split at hq
      · exact absurd hq List.not_mem_nil
      · obtain ⟨n, -, rfl⟩ := List.mem_map.1 hq
        exact ⟨rfl, rfl⟩
  · obtain ⟨h, -, rfl⟩ := List.mem_map.1 hq
    split
    · exact ⟨rfl, rfl⟩
    · exact ⟨rfl, rfl⟩

theorem launchMcast_flight {p : Packet} {s : State} (hgroup : (s.mcastGroup (sbDst p.sb)).isSome = true) :
    ∃ l, (launchMcast true p s).net.flight = s.net.flight ++ l ∧ ∀ q ∈ l, q.data = p.data ∧ q.src = p.src := by
  obtain ⟨g, hg⟩ := Option.isSome_iff_exists.1 hgroup
  refine ⟨mcastCopies s true p g, ?_, mcastCopies_same s true p g⟩
  unfold launchMcast openTally
  rw [hg]
  dsimp only
  split
  · rfl
  · rfl

/-- The packet whose way is free is launched at the port's edge router. -/
theorem enterMesh_enters {here : BitVec 64} {data : List Byte} (hlegal : sbLegal here = true)
    (hway : if sbMcast here then groupUsable s (gustNode k) here = true ∧ mcastType here = true ∧ (s.mcastGroup (sbDst here)).isSome = true
      else unreachable s (gustNode k) here = false) :
    if sbMcast here then ∃ l, (enterMesh k here data s).net.flight = s.net.flight ++ l ∧ ∀ q ∈ l, q.data = data ∧ q.src = gustNode k
    else (enterMesh k here data s).net.flight = s.net.flight ++ [{ id := s.net.nextId, src := gustNode k, port := 7, sb := here, data := data }] := by
  unfold enterMesh
  dsimp only
  rw [hlegal]
  cases hmcast : sbMcast here with
  | true =>
    rw [hmcast] at hway
    obtain ⟨husable, htype, hgroup⟩ := hway
    simp only [husable, htype, Bool.not_true, Bool.false_eq_true, Bool.and_true, if_false, if_true]
    exact launchMcast_flight hgroup
  | false =>
    rw [hmcast] at hway
    have hreach : unreachable s (gustNode k) here = false := hway
    simp only [hreach, Bool.not_true, Bool.false_eq_true, if_false]
    rfl

/-- The packet waits at its port. -/
def queued (e : GustEntry) (u : State) : State := { u with net := { u.net with gustWait := u.net.gustWait ++ [e] } }

theorem drainGusts_one {e : GustEntry} (hwait : u.net.gustWait = []) (hroom : overLimit u (gustNode e.port) 7 (sbVc e.sb) e.data = false) :
    drainGusts (queued e u) = enterMesh e.port e.sb e.data { u with net := { u.net with gustWait := [] } } := by
  have hroom' : overLimit { u with net := { u.net with gustWait := [] } } (gustNode e.port) 7 (sbVc e.sb) e.data = false := hroom
  unfold drainGusts queued
  dsimp only
  rw [hwait, List.nil_append, drainGust, drainGust, if_neg]
  simp [hroom']

/-- A request whose way is free enters the mesh when it arrives. -/
theorem packetArrives_enters {sb : BitVec 64} {data : List Byte} (hup : (s.gport k).st = .up) (htest : sbTest sb = false)
    (hreq : sbRequest sb = true) (h : Enters s k sb data) : EntersAs s k sb data (packetArrives k sb data s) := by
  obtain ⟨hcarries, hwait, hlegal, hroom, hway⟩ := h
  have htype : (sbType sb = 2 || (sbType sb = 3 || sbType sb = 7)) = false := by
    simp only [sbRequest, Bool.or_eq_true, decide_eq_true_eq] at hreq
    rcases hreq with h | h <;> simp [h]
  have hin : packetArrives k sb data s = inject k sb data s := by
    unfold packetArrives
    simp [htest, hup, hcarries, htype]
  have hentered : ∀ f : GPort → GPort,
      EntersAs s k sb data (drainGusts (queued { port := k, sb := edgeSideband s k sb, data := data } (modGport k f s))) := by
    intro f
    rw [drainGusts_one (u := modGport k f s) (e := { port := k, sb := edgeSideband s k sb, data := data }) hwait hroom]
    exact enterMesh_enters (s := { modGport k f s with net := { s.net with gustWait := [] } }) hlegal hway
  have hplain : EntersAs s k sb data (drainGusts (queued { port := k, sb := edgeSideband s k sb, data := data } s)) := by
    rw [drainGusts_one (u := s) (e := { port := k, sb := edgeSideband s k sb, data := data }) hwait hroom]
    exact enterMesh_enters (s := { s with net := { s.net with gustWait := [] } }) hlegal hway
  rw [hin, inject]
  dsimp only
  split
  · exact hentered _
  · exact hplain

end Sys2Proof.CarryCerts
end

section
/-!
PROOF. Sealed channels: frames, holds and rekeys (spec/17_gust_links_and_host.md R461 to R465).
-/
namespace Sys2Proof.SealedChannelCerts

open Sys2Proof.Machine Sys2Proof.Laws Sys2Proof.CommandCerts Sys2Proof.PortCerts Sys2Proof.CarryCerts

variable {s t u : State} {k c : Nat}

/-- Every command that waits for the rekey of the channel is answered. -/
def Ends (k c : Nat) (r : Reply) (s t : State) : Prop := ∀ j, (s.box j).await = some (.linkRekey k c) →
  (t.box j).outbox = (s.box j).outbox ++ [r] ∧ (t.box j).await = none

theorem patient_of_rekey {m : Mbx} (h : m.await = some (.linkRekey k c)) : Patient m := fun _ ha =>
  ⟨k, c, Option.some.inj (ha.symm.trans h)⟩

theorem completeAwait_ends (r : Reply) (s : State) : Ends k c r s (completeAwait (fun a => a = .linkRekey k c) r s) := fun j hw => by
  rw [StreamCerts.completeAwait_box, StreamCerts.answered_of_waiting r hw (by simp)]
  exact ⟨rfl, rfl⟩

theorem Ends.after_calm {r : Reply} (h : Ends k c r t u) (hwaits : ∀ j, Patient (s.box j) → t.box j = s.box j) :
    Ends k c r s u := fun j hw => by
  have hkeep := hwaits j (patient_of_rekey hw)
  rw [← hkeep]
  exact h j (by rw [hkeep]; exact hw)

theorem Ends.before_mbx {r : Reply} (h : Ends k c r s t) (hmbx : u.mbx = t.mbx) : Ends k c r s u := fun j hw => by
  rw [box_congr hmbx]
  exact h j hw

/-- An answered command stays answered. -/
theorem Ends.before_carried {r : Reply} (h : Ends k c r s t) (hwaits : ∀ j, Patient (t.box j) → u.box j = t.box j) : Ends k c r s u :=
  fun j hw => by
    obtain ⟨hout, hdone⟩ := h j hw
    rw [hwaits j fun a ha => absurd (ha.symm.trans hdone) (Option.some_ne_none a)]
    exact ⟨hout, hdone⟩

theorem chanOf_congr (h : t.link.ports = s.link.ports) (k c : Nat) : t.chanOf k c = s.chanOf k c :=
  congrArg (fun p : GPort => Tab.get ({} : SChan) p.chans c) (gport_congr h k)

theorem gport_modSChan_other {j : Nat} (h : j ≠ k) (f : SChan → SChan) (s : State) : (modSChan k c f s).gport j = s.gport j := by
  rw [gport_modSChan, if_neg h]

theorem linkFlit_says {k ltype : Nat} (h : ltype ≠ 3) (what : String) (args : List Nat) (s : State) :
    ∃ n, .link k what (n :: args) ∈ (linkFlit k ltype what args s).out.sent :=
  ⟨_, by rw [linkFlit_sent h]; exact List.mem_cons_self⟩

/-! ## A channel goes down (R464, R465) -/

/-- The channel as it stands once it is down. -/
def downed (x : SChan) : SChan := { x with held := [], st := .down, handshake := false, next := none, pend := false }

/-- What a channel that goes down leaves. -/
structure WentDown (k c : Nat) (s t : State) : Prop where
  chan : t.chanOf k c = downed (s.chanOf k c)
  others : ∀ j, j ≠ k → t.gport j = s.gport j
  ends : Ends k c { status := 0x12, detail := 0x0704 } s t
  net : (s.chanOf k c).held = [] → t.net = s.net
  sent : ∀ m ∈ s.out.sent, m ∈ t.out.sent

theorem channelDown_wentDown (k c : Nat) (s : State) : WentDown k c s (channelDown k c s) := by
  have hreturn := discardAll_calm (s.chanOf k c).held (modSChan k c (fun x => { x with held := [] }) s)
  have hnet : (s.chanOf k c).held = [] → (discardAll (s.chanOf k c).held (modSChan k c (fun x => { x with held := [] }) s)).net = s.net := by
    intro h
    rw [h]
    rfl
  have hchan : (discardAll (s.chanOf k c).held (modSChan k c (fun x => { x with held := [] }) s)).chanOf k c =
      { s.chanOf k c with held := [] } := by
    rw [chanOf_congr hreturn.ports, chanOf_modSChan_self]
  have hothers : ∀ j, j ≠ k → (discardAll (s.chanOf k c).held (modSChan k c (fun x => { x with held := [] }) s)).gport j = s.gport j :=
    fun j hj => (hreturn.gport j).trans (gport_modSChan_other hj ..)
  unfold channelDown returnHeld
  dsimp only
  generalize discardAll (s.chanOf k c).held (modSChan k c (fun x => { x with held := [] }) s) = u at *
  have hdown : WentDown k c s (completeAwait (fun a => a = .linkRekey k c) { status := 0x12, detail := 0x0704 }
      (modSChan k c (fun x => { x with st := .down, handshake := false, next := none, pend := false }) u)) := {
    chan := by
      refine (chanOf_modSChan_self k c (fun x => { x with st := .down, handshake := false, next := none, pend := false }) u).trans ?_
      rw [hchan]
      rfl
    others := fun j hj =>
      (gport_modSChan_other hj (fun x => { x with st := .down, handshake := false, next := none, pend := false }) u).trans (hothers j hj)
    ends := (completeAwait_ends _ _).after_calm hreturn.waits
    net := hnet
    sent := hreturn.sent }
  generalize completeAwait (fun a => a = .linkRekey k c) { status := 0x12, detail := 0x0704 }
      (modSChan k c (fun x => { x with st := .down, handshake := false, next := none, pend := false }) u) = v at hdown
  split
  · have hcalm := suspendCx_calm c v
    have hkeep : Only [.log, .sealed, .link, .out] v (suspendCx c v) := suspendCx_only _ (List.Subset.refl _) Only.refl
    exact {
      chan := (chanOf_congr hcalm.ports k c).trans hdown.chan
      others := fun j hj => (hcalm.gport j).trans (hdown.others j hj)
      ends := hdown.ends.before_mbx (hkeep.keeps .mbx (by decide))
      net := fun h => (hkeep.keeps .net (by decide)).trans (hdown.net h)
      sent := fun m hm => hcalm.sent m (hdown.sent m hm) }
  · exact hdown

theorem WentDown.after_calm (h : WentDown k c t u) (hcalm : Calm s t) (hnet : t.net = s.net) : WentDown k c s u where
  chan := h.chan.trans (congrArg downed (chanOf_congr hcalm.ports k c))
  others j hj := (h.others j hj).trans (hcalm.gport j)
  ends := h.ends.after_calm hcalm.waits
  net hheld := (h.net (by rw [chanOf_congr hcalm.ports]; exact hheld)).trans hnet
  sent m hm := h.sent m (hcalm.sent m hm)

theorem declareDown_wentDown (k c : Nat) (s : State) : WentDown k c s (declareDown k c s) :=
  (channelDown_wentDown k c _).after_calm ((logSec_calm ..).trans (sendMsix_calm ..))
    ((sendMsix_only _ (gs := [.log, .link, .out]) (by decide) (logSec_only _ _ _ _ (List.Subset.refl _) Only.refl)).keeps .net (by decide))

/-! ## The changeover (R465) -/

section Changeover

/-- The channel as the changeover to epoch `e` begins it. -/
def renewed (e : Nat) (x : SChan) : SChan :=
  { x with st := .up, txEpoch := e, tx := 0, pend := false, handshake := false, next := none, held := [], txKey := x.nextTx }

/-- The new epoch and key are in use and a waiting LINK_REKEY is answered; the hold queue is not sent yet. -/
def switched (k c e : Nat) (s : State) : State :=
  completeAwait (fun a => a = .linkRekey k c) { status := 0 } (logInfo 0x0708 0x07 k [k, c, e] (modSChan k c (renewed e) s))

theorem switched_effect (k c e : Nat) (s : State) : (switched k c e s).chanOf k c = renewed e (s.chanOf k c)
    ∧ Ends k c { status := 0 } s (switched k c e s) ∧ (∀ j, j ≠ k → (switched k c e s).gport j = s.gport j)
    ∧ ((switched k c e s).gport k).waitq = (s.gport k).waitq := by
  have hlog := logInfo_calm 0x0708 0x07 k [k, c, e] (modSChan k c (renewed e) s)
  refine ⟨(chanOf_congr hlog.ports k c).trans (chanOf_modSChan_self ..), (completeAwait_ends _ _).after_calm hlog.waits,
    fun j hj => (hlog.gport j).trans (gport_modSChan_other hj ..), ?_⟩
  refine (congrArg GPort.waitq (hlog.gport k)).trans ?_
  rw [gport_modSChan, if_pos rfl]

/-- The hold queue has been tried; what does not fit waits at the edge router. -/
def heldSent (k c e : Nat) (s : State) : State :=
  modGport k (fun p => { p with waitq := (sendList k (s.chanOf k c).held (switched k c e s)).1 ++ p.waitq })
    (sendList k (s.chanOf k c).held (switched k c e s)).2

theorem changeover_eq (k c e : Nat) (s : State) :
    changeover k c e s = if k = 11 then pumpCx c (heldSent k c e s) else pumpPort k (heldSent k c e s) := rfl

theorem changeover_carried (k c e : Nat) (s : State) : Carried k (switched k c e s) (changeover k c e s) := by
  have hsent : Carried k (switched k c e s) (heldSent k c e s) := by
    refine (sendList_carried (s.chanOf k c).held (switched k c e s)).trans ?_
    exact modGport_carried (fun _ => by rfl) _
  rw [changeover_eq]
  split
  case isTrue h =>
    subst h
    exact hsent.trans (pumpCx_carried _ _)
  case isFalse => exact hsent.trans (pumpPort_carried _)

theorem changeover_quiet {k c e : Nat} {s : State} (h11 : k ≠ 11) (hheld : (s.chanOf k c).held = []) (hwaitq : (s.gport k).waitq = []) :
    (changeover k c e s).chanOf k c = (switched k c e s).chanOf k c := by
  obtain ⟨-, -, -, hwait⟩ := switched_effect k c e s
  have hsent : heldSent k c e s = modGport k (fun p => { p with waitq := [] ++ p.waitq }) (switched k c e s) := by
    rw [heldSent, hheld]
    rfl
  have hempty : ((heldSent k c e s).gport k).waitq = [] := by
    rw [hsent, gport_modGport, if_pos rfl]
    exact hwait.trans hwaitq
  rw [changeover_eq, if_neg h11]
  refine (congrArg (fun p : GPort => Tab.get ({} : SChan) p.chans c) (pumpPort_empty hempty k)).trans ?_
  rw [hsent]
  exact chanOf_modGport (fun _ => rfl) k c _

end Changeover

/-! ## Events of a channel -/

variable {k : Fin 12} {c : Fin 16} (hc : c.val ∈ chanList s k.val)

include hc

section Frames

variable (hup : (s.gport k.val).st = .up) {epoch : Word} {ctr : BitVec 64} {tag : BitVec 128} {sb : BitVec 64} {data : List Byte}

include hup

/-- An accepted frame moves the channel's last counter, and its packet arrives. -/
theorem exec_sealedFrame_accepted {b : List Byte} (hopen : openFrame (s.chanOf k.val c.val) c.val epoch ctr tag sb data = some b)
    (hst : (s.chanOf k.val c.val).st = .up ∨ (s.chanOf k.val c.val).st = .hold) (hepoch : epoch.toNat = (s.chanOf k.val c.val).rxEpoch)
    (hnext : (s.chanOf k.val c.val).rxNext ≠ some epoch.toNat) (hnew : ∀ l, (s.chanOf k.val c.val).rxLast = some l → l < ctr.toNat) :
    ∃ f : SChan → SChan, f (s.chanOf k.val c.val) = { s.chanOf k.val c.val with rxLast := some ctr.toNat }
      ∧ exec (.sealedFrame k c epoch ctr tag sb data) s =
        .next (if k.val = 11 then modSChan k.val c.val f s else packetArrives k.val sb b (modSChan k.val c.val f s)) := by
  have hexec : exec (.sealedFrame k c epoch ctr tag sb data) s = execSealedFrame k c epoch ctr tag sb data s := rfl
  have hst' : ((s.chanOf k.val c.val).st = .up || (s.chanOf k.val c.val).st = .hold) = true := by simpa using hst
  have hfresh : ((s.chanOf k.val c.val).rxLast.elim true fun l => decide (l < ctr.toNat)) = true := by
    cases hlast : (s.chanOf k.val c.val).rxLast with
    | none => rfl
    | some l => exact decide_eq_true (hnew l hlast)
  have hnext' : (s.chanOf k.val c.val).rxNext ≠ some (s.chanOf k.val c.val).rxEpoch := hepoch ▸ hnext
  simp only [execSealedFrame, hup, hc, hnext', hst', hfresh, hepoch, hopen, ne_eq, not_true_eq_false, decide_true, decide_false,
    Bool.not_true, Bool.or_self, Bool.false_eq_true, if_false, if_true, Bool.or_true, Bool.and_self] at hexec
  refine ⟨_, ?_, hexec⟩
  simp only [hnext', if_false]

theorem sealedFrame_accepted {b : List Byte} (hopen : openFrame (s.chanOf k.val c.val) c.val epoch ctr tag sb data = some b)
    (hst : (s.chanOf k.val c.val).st = .up ∨ (s.chanOf k.val c.val).st = .hold) (hepoch : epoch.toNat = (s.chanOf k.val c.val).rxEpoch)
    (hnext : (s.chanOf k.val c.val).rxNext ≠ some epoch.toNat) (hnew : ∀ l, (s.chanOf k.val c.val).rxLast = some l → l < ctr.toNat) :
    Answers (.sealedFrame k c epoch ctr tag sb data) s fun t =>
      t.chanOf k.val c.val = { s.chanOf k.val c.val with rxLast := some ctr.toNat } ∧ (∀ j, j ≠ k.val → t.gport j = s.gport j)
      ∧ (k.val = 11 ∨ sbTest sb = true → t.net = s.net)
      ∧ (sbTest sb = false → sbRequest sb = true → Enters s k.val sb b → EntersAs s k.val sb b t) := by
  obtain ⟨f, hf, hexec⟩ := exec_sealedFrame_accepted hc hup hopen hst hepoch hnext hnew
  refine ⟨_, hexec, ?_⟩
  have hchan : (modSChan k.val c.val f s).chanOf k.val c.val = { s.chanOf k.val c.val with rxLast := some ctr.toNat } :=
    (chanOf_modSChan_self ..).trans hf
  by_cases h11 : k.val = 11
  · rw [if_pos h11]
    refine ⟨hchan, fun j hj => gport_modSChan_other hj f s, fun _ => rfl, fun _ _ hin => ?_⟩
    obtain ⟨hcarries, -⟩ := hin
    simp [gustCarries, h11] at hcarries
  · rw [if_neg h11]
    have harrive := packetArrives_arrived (k := k.val) sb b (modSChan k.val c.val f s)
    refine ⟨(harrive.chans _).trans hchan, fun j hj => (harrive.others j hj).trans (gport_modSChan_other hj f s), fun h => ?_,
      fun htest hreq hin => ?_⟩
    · rw [packetArrives_test (h.resolve_left h11)]
      rfl
    · have hup' : ((modSChan k.val c.val f s).gport k.val).st = .up := by
        rw [gport_modSChan, if_pos rfl]
        exact hup
      exact packetArrives_enters (s := modSChan k.val c.val f s) hup' htest hreq hin

theorem sealedFrame_refused (hbad : openFrame (s.chanOf k.val c.val) c.val epoch ctr tag sb data = none
    ∨ ((s.chanOf k.val c.val).st ≠ .up ∧ (s.chanOf k.val c.val).st ≠ .hold)
    ∨ ((s.chanOf k.val c.val).rxNext ≠ some epoch.toNat ∧ (epoch.toNat ≠ (s.chanOf k.val c.val).rxEpoch
      ∨ ∃ l, (s.chanOf k.val c.val).rxLast = some l ∧ ctr.toNat ≤ l))) :
    Answers (.sealedFrame k c epoch ctr tag sb data) s fun t =>
      (t.chanOf k.val c.val).st = .down ∧ (t.chanOf k.val c.val).held = [] ∧ (t.chanOf k.val c.val).pend = false
      ∧ ((s.chanOf k.val c.val).held = [] → t.net = s.net) ∧ (sbRequest sb = true → .link k.val "error response" [sbSrc sb, sbTag sb] ∈ t.out.sent)
      ∧ Ends k.val c.val { status := 0x12, detail := 0x0704 } s t ∧ ∀ j, j ≠ k.val → t.gport j = s.gport j := by
  have hexec : exec (.sealedFrame k c epoch ctr tag sb data) s = execSealedFrame k c epoch ctr tag sb data s := rfl
  have hplain : (if ((s.chanOf k.val c.val).st = .up || (s.chanOf k.val c.val).st = .hold)
      && (epoch.toNat = (if (s.chanOf k.val c.val).rxNext = some epoch.toNat then epoch.toNat else (s.chanOf k.val c.val).rxEpoch)
        && ((s.chanOf k.val c.val).rxNext = some epoch.toNat || (s.chanOf k.val c.val).rxLast.elim true fun l => l < ctr.toNat))
      then openFrame (s.chanOf k.val c.val) c.val epoch ctr tag sb data else none) = none := by
    rcases hbad with h | ⟨hup, hhold⟩ | ⟨hnext, hepoch | ⟨l, hlast, hold⟩⟩
    · rw [h, ite_self]
    · simp [hup, hhold]
    · simp [hnext, hepoch]
    · simp [hnext, hlast, Nat.not_lt.2 hold]
  simp only [execSealedFrame, hup, hc, ne_eq, not_true_eq_false, decide_true, decide_false, Bool.not_true, Bool.or_self, Bool.false_eq_true,
    if_false] at hexec
  rw [hplain] at hexec
  refine ⟨_, hexec, ?_⟩
  have hanswer : Calm s (if sbRequest sb then send (.link k.val "error response" [sbSrc sb, sbTag sb]) s else s) := by
    split
    · exact send_calm _ _
    · exact .refl
  have hnet : (if sbRequest sb then send (.link k.val "error response" [sbSrc sb, sbTag sb]) s else s).net = s.net := by
    split <;> rfl
  have hsent : sbRequest sb = true → .link k.val "error response" [sbSrc sb, sbTag sb] ∈
      (if sbRequest sb then send (.link k.val "error response" [sbSrc sb, sbTag sb]) s else s).out.sent := fun h => by
    rw [if_pos h]
    exact List.mem_cons_self
  dsimp only
  generalize (if sbRequest sb then send (.link k.val "error response" [sbSrc sb, sbTag sb]) s else s) = v at *
  have hlog := logSec_calm 0x0707 0x07 k.val [k.val, c.val] v
  have hdown := declareDown_wentDown k.val c.val (logSec 0x0707 0x07 k.val [k.val, c.val] v)
  have hall := hdown.after_calm (hanswer.trans hlog)
    (((logSec_only _ _ _ _ (List.Subset.refl _) Only.refl).keeps .net (by decide)).trans hnet)
  refine ⟨by rw [hall.chan]; rfl, by rw [hall.chan]; rfl, by rw [hall.chan]; rfl, hall.net, fun h => hdown.sent _ (hlog.sent _ (hsent h)), hall.ends,
    hall.others⟩

end Frames

/-! ## Rekeys (R465) -/

omit hc in
theorem sendHsSig_effect (k : Nat) (h : HsPeer) (s : State) : Carried k s (sendHsSig k h s)
    ∧ (∀ c, (sendHsSig k h s).chanOf k c = s.chanOf k c) ∧ hsOk (sendHsSig k h s) k h = hsOk s k h
    ∧ linkHandshake (sendHsSig k h s) k h = linkHandshake s k h := by
  have hport : (sendHsSig k h s).gport k = { s.gport k with
      lseqOut := Tab.put 0 (s.gport k).lseqOut 2 (Tab.get 0 (s.gport k).lseqOut 2 + 1) } := (gport_linkFlit ..).trans (if_pos rfl)
  have haon : (sendHsSig k h s).aon = s.aon := rfl
  have hchain : ownChain (sendHsSig k h s) = ownChain s := rfl
  have hhand : linkHandshake (sendHsSig k h s) k h = linkHandshake s k h := by
    simp only [linkHandshake, ownHsMessage, hport, haon, hchain]
  refine ⟨(modGport_carried (fun _ => by rfl) s).trans (send_calm _ _).carried, fun c => chanOf_linkFlit .., ?_, hhand⟩
  simp only [hsOk, hport, hhand]

theorem chan_zero (hmesh : k.val ≠ 11) : c.val = 0 := by
  rw [chanList, if_neg hmesh] at hc
  simpa using hc

section Handshake

variable (hup : (s.gport k.val).st = .up) (hmesh : k.val ≠ 11) (hrun : (s.chanOf k.val c.val).handshake = true) {peer : HsPeer}

include hup hmesh hrun

theorem exec_handshake_rekey : exec (.handshake k peer) s = .next (rekeyEnds k.val peer (sendHsSig k.val peer s)) := by
  have hexec : exec (.handshake k peer) s = execHandshake k peer s := rfl
  have hzero := chan_zero hc hmesh
  rw [hzero] at hrun
  have hstart : startRekey k.val 0 s = s := if_pos (by rw [hrun]; rfl)
  rw [hexec, execHandshake]
  dsimp only
  rw [if_neg hmesh, if_neg (by simp [hup]), if_pos hup, hstart, if_pos hrun]

theorem handshake_rekeys (hok : hsOk s k.val peer = true) : Answers (.handshake k peer) s fun t =>
    t.chanOf k.val c.val = { s.chanOf k.val c.val with
      handshake := false, next := some ((s.chanOf k.val c.val).txEpoch + 1)
      nextTx := (linkHandshake s k.val peer).txKey, nextRx := (linkHandshake s k.val peer).rxKey }
    ∧ (∃ n, .link k.val "REKEY" [n, 0, (s.chanOf k.val c.val).txEpoch + 1, 0] ∈ t.out.sent) ∧ (∀ j, j ≠ k.val → t.gport j = s.gport j)
    ∧ KeepsBut [.link, .out] s t := by
  obtain ⟨hcarried, hchan, hsame, hhand⟩ := sendHsSig_effect k.val peer s
  have hkeeps : Only [.link, .out] s (sendHsSig k.val peer s) := sendHsSig_only _ _ (List.Subset.refl _) Only.refl
  refine ⟨_, exec_handshake_rekey hc hup hmesh hrun, ?_⟩
  rw [chan_zero hc hmesh, rekeyEnds, hsame, if_pos hok, hhand, ← hchan 0]
  generalize sendHsSig k.val peer s = u at *
  unfold sendRekey nextKeys
  dsimp only
  refine ⟨?_, ?_, fun j hj => ?_, (linkFlit_only _ _ _ _ (by decide) (modSChan_only _ _ _ (by decide) (modSChan_only _ _ _ (by decide) hkeeps))).keeps⟩
  · rw [chanOf_linkFlit, chanOf_modSChan_self, chanOf_modSChan_self]
  · rw [chanOf_modSChan_self]
    exact linkFlit_says (by decide) ..
  · rw [gport_linkFlit, if_neg hj, gport_modSChan_other hj, gport_modSChan_other hj]
    exact hcarried.others j hj

theorem handshake_fails (hok : hsOk s k.val peer = false) : Answers (.handshake k peer) s fun t =>
    t.chanOf k.val c.val = { s.chanOf k.val c.val with handshake := false } ∧ Ends k.val c.val { status := 0x12, detail := 0x0704 } s t
    ∧ (∀ j, j ≠ k.val → t.gport j = s.gport j) ∧ KeepsBut [.mbx, .log, .link, .out] s t := by
  obtain ⟨hcarried, hchan, hsame, hhand⟩ := sendHsSig_effect k.val peer s
  have hkeeps : Only [.mbx, .log, .link, .out] s (sendHsSig k.val peer s) := sendHsSig_only _ _ (by decide) Only.refl
  refine ⟨_, exec_handshake_rekey hc hup hmesh hrun, ?_⟩
  rw [chan_zero hc hmesh, rekeyEnds, hsame, if_neg (by rw [hok]; exact Bool.false_ne_true), ← hchan 0]
  generalize sendHsSig k.val peer s = u at *
  have hlog := logSec_calm 0x0709 0x07 k.val [k.val] u
  refine ⟨?_, (completeAwait_ends _ _).after_calm (hcarried.trans hlog.carried).waits, fun j hj => ?_,
    (completeAwait_only _ _ (by decide) (modSChan_only _ _ _ (by decide) (logSec_only _ _ _ _ (by decide) hkeeps))).keeps⟩
  · refine (chanOf_modSChan_self k.val 0 (fun c => { c with handshake := false }) _).trans ?_
    rw [chanOf_congr hlog.ports]
  · exact (gport_modSChan_other hj (fun c => { c with handshake := false }) _).trans ((hlog.gport j).trans (hcarried.others j hj))

end Handshake

section Announced

variable (hup : (s.gport k.val).st = .up) (epoch : Word)

include hup

theorem rekey_answered : Answers (.rekey k c epoch false) s fun t =>
    t.chanOf k.val c.val = { s.chanOf k.val c.val with rxNext := some epoch.toNat }
    ∧ (∃ n, t.out.sent = .link k.val "REKEY" [n, c.val, epoch.toNat, 1] :: s.out.sent)
    ∧ (∀ j, j ≠ k.val → t.gport j = s.gport j) ∧ KeepsBut [.link, .out] s t := by
  have hexec : exec (.rekey k c epoch false) s = execRekey k c epoch false s := rfl
  rw [execRekey] at hexec
  rw [if_neg (by simp [hup, hc]), if_neg Bool.false_ne_true] at hexec
  refine ⟨_, hexec, ?_, ⟨_, linkFlit_sent (by decide) _ _ _⟩, fun j hj => ?_,
    (linkFlit_only _ _ _ _ (by decide) (modSChan_only _ _ _ (by decide) Only.refl)).keeps⟩
  · rw [chanOf_linkFlit, chanOf_modSChan_self]
  · rw [gport_linkFlit, if_neg hj, gport_modSChan_other hj]

theorem rekey_acknowledged (hnext : (s.chanOf k.val c.val).next = some epoch.toNat) : Answers (.rekey k c epoch true) s fun t =>
    (t.chanOf k.val c.val).st = .up ∧ (t.chanOf k.val c.val).txEpoch = epoch.toNat ∧ (t.chanOf k.val c.val).pend = false
    ∧ (t.chanOf k.val c.val).next = none ∧ (t.chanOf k.val c.val).txKey = (s.chanOf k.val c.val).nextTx
    ∧ (k.val ≠ 11 → (s.chanOf k.val c.val).held = [] → (s.gport k.val).waitq = [] → (t.chanOf k.val c.val).tx = 0)
    ∧ Ends k.val c.val { status := 0 } s t ∧ (∀ j, j ≠ k.val → t.gport j = s.gport j)
    ∧ KeepsBut [.mbx, .log, .vane, .net, .sealed, .link, .out, .freeCtr] s t := by
  have hexec : exec (.rekey k c epoch true) s = execRekey k c epoch true s := rfl
  rw [execRekey] at hexec
  rw [if_neg (by simp [hup, hc]), if_pos rfl, if_pos hnext] at hexec
  obtain ⟨hchan, hends, hothers, -⟩ := switched_effect k.val c.val epoch.toNat s
  have hcarried := changeover_carried k.val c.val epoch.toNat s
  have hsame := hcarried.chans c.val
  rw [hchan] at hsame
  refine ⟨_, hexec, ?_, ?_, ?_, ?_, ?_, fun h11 hheld hwait => ?_, hends.before_carried hcarried.waits,
    fun j hj => (hcarried.others j hj).trans (hothers j hj), (changeover_only _ _ _ (List.Subset.refl _) Only.refl).keeps⟩
  case refine_6 =>
    rw [changeover_quiet h11 hheld hwait, hchan]
    rfl
  all_goals rw [hsame]; rfl

end Announced

/-! ## Counters (R464) -/

omit hc in
theorem startRekey_marks {k c : Nat} (hidle : (s.chanOf k c).handshake = false) (hepoch : (s.chanOf k c).txEpoch < 0xFFFFFFFF) :
    (startRekey k c s).chanOf k c = { s.chanOf k c with handshake := true } := by
  unfold startRekey
  rw [if_neg (by simp [hidle, hepoch])]
  dsimp only
  split
  · rw [chanOf_congr (congrArg Links.ports (LinkCommandCerts.startCxHs_link ..)), chanOf_modSChan_self]
  · rw [LinkCommandCerts.startHandshake_chans, chanOf_modSChan_self]

theorem rekeyRequest_starts (hst : (s.chanOf k.val c.val).st = .up) (hpend : (s.chanOf k.val c.val).pend = false)
    (hidle : (s.chanOf k.val c.val).handshake = false) (hepoch : (s.chanOf k.val c.val).txEpoch < 0xFFFFFFFF) :
    Answers (.rekeyRequest k c) s fun t =>
      t.chanOf k.val c.val = { s.chanOf k.val c.val with pend := true, tx := max (s.chanOf k.val c.val).tx (2 ^ 40), handshake := true }
      ∧ (∀ j, j ≠ k.val → t.gport j = s.gport j) ∧ KeepsBut [.log, .sealed, .link, .out, .freeCtr] s t := by
  have hexec : exec (.rekeyRequest k c) s = execRekeyRequest k c s := rfl
  rw [execRekeyRequest] at hexec
  rw [if_pos (by simp [hst, hpend, hc])] at hexec
  refine ⟨_, hexec, ?_⟩
  have hmod := chanOf_modSChan_self k.val c.val (fun y => { y with pend := true, tx := max y.tx (2 ^ 40) }) s
  have hother : ∀ j, j ≠ k.val → (modSChan k.val c.val (fun y => { y with pend := true, tx := max y.tx (2 ^ 40) }) s).gport j = s.gport j :=
    fun j hj => gport_modSChan_other hj _ _
  have hmodKeeps : Only [.log, .sealed, .link, .out, .freeCtr] s (modSChan k.val c.val (fun y => { y with pend := true, tx := max y.tx (2 ^ 40) }) s) :=
    modSChan_only _ _ _ (by decide) Only.refl
  generalize modSChan k.val c.val (fun y => { y with pend := true, tx := max y.tx (2 ^ 40) }) s = u at *
  have hcalm := (logInfo_calm 0x0704 0x07 k.val [k.val, c.val] u).trans (sendMsix_calm (208 + k.val) _)
  have hkeeps : Only [.log, .sealed, .link, .out, .freeCtr] s (sendMsix (208 + k.val) (logInfo 0x0704 0x07 k.val [k.val, c.val] u)) :=
    sendMsix_only _ (by decide) (logInfo_only _ _ _ _ (by decide) hmodKeeps)
  generalize sendMsix (208 + k.val) (logInfo 0x0704 0x07 k.val [k.val, c.val] u) = v at *
  have hchan := (chanOf_congr hcalm.ports k.val c.val).trans hmod
  have hepoch' : (v.chanOf k.val c.val).txEpoch < 0xFFFFFFFF := by rw [hchan]; exact hepoch
  refine ⟨?_, fun j hj => ((LinkCommandCerts.startRekey_effect hepoch').2 j hj).trans ((hcalm.gport j).trans (hother j hj)),
    (startRekey_only _ _ (by decide) hkeeps).keeps⟩
  rw [startRekey_marks (by rw [hchan]; exact hidle) hepoch', hchan]

theorem sealedHold_holds (hst : (s.chanOf k.val c.val).st = .up) : Answers (.sealedHold k c) s fun t =>
    t.chanOf k.val c.val = { s.chanOf k.val c.val with st := .hold, tx := max (s.chanOf k.val c.val).tx (2 ^ 42) }
    ∧ (∀ j, j ≠ k.val → t.gport j = s.gport j) ∧ KeepsBut [.log, .link, .out] s t := by
  have hexec : exec (.sealedHold k c) s = execSealedHold k c s := rfl
  rw [execSealedHold] at hexec
  rw [if_pos (by simp [hst, hc])] at hexec
  refine ⟨_, hexec, ?_, fun j hj => ?_, (sendMsix_only _ (by decide) (logSec_only _ _ _ _ (by decide) (modSChan_only _ _ _ (by decide) Only.refl))).keeps⟩
  · rw [chanOf_congr ((logSec_calm ..).trans (sendMsix_calm ..)).ports, chanOf_modSChan_self]
  · rw [gport_sendMsix, gport_logSec, gport_modSChan_other hj]

theorem rekeyRetry_starts (hpend : (s.chanOf k.val c.val).pend = true) (hidle : (s.chanOf k.val c.val).handshake = false)
    (hepoch : (s.chanOf k.val c.val).txEpoch < 0xFFFFFFFF) : Answers (.rekeyRetry k c) s fun t =>
      t.chanOf k.val c.val = { s.chanOf k.val c.val with handshake := true } ∧ (∀ j, j ≠ k.val → t.gport j = s.gport j)
      ∧ KeepsBut [.sealed, .link, .out, .freeCtr] s t := by
  have hexec : exec (.rekeyRetry k c) s = execRekeyRetry k c s := rfl
  rw [execRekeyRetry] at hexec
  rw [if_pos (by simp [hpend, hc])] at hexec
  exact ⟨_, hexec, startRekey_marks hidle hepoch, (LinkCommandCerts.startRekey_effect hepoch).2,
    (startRekey_only _ _ (List.Subset.refl _) Only.refl).keeps⟩

omit hc in
theorem sealedDown_downs (hst : (s.chanOf k.val c.val).st = .hold) : Answers (.sealedDown k c) s fun t =>
    (t.chanOf k.val c.val).st = .down ∧ (t.chanOf k.val c.val).held = [] ∧ (t.chanOf k.val c.val).pend = false
    ∧ Ends k.val c.val { status := 0x12, detail := 0x0704 } s t ∧ (∀ j, j ≠ k.val → t.gport j = s.gport j)
    ∧ KeepsBut [.mbx, .log, .vane, .net, .sealed, .link, .out, .freeCtr] s t := by
  have hexec : exec (.sealedDown k c) s = execSealedDown k c s := rfl
  rw [execSealedDown, if_pos hst] at hexec
  have hdown := declareDown_wentDown k.val c.val s
  exact ⟨_, hexec, by rw [hdown.chan]; rfl, by rw [hdown.chan]; rfl, by rw [hdown.chan]; rfl, hdown.ends, hdown.others,
    (declareDown_only _ _ (List.Subset.refl _) Only.refl).keeps⟩

omit hc in
/-- Settles O59: every event of a channel on the path of its clause. -/
theorem sealedChannels : Obligations.SealedChannels := by
  intro k c s hc
  exact ⟨fun hup epoch ctr tag sb data => ⟨fun b hopen hst hepoch hnext hnew => sealedFrame_accepted hc hup hopen hst hepoch hnext hnew,
      fun hbad => sealedFrame_refused hc hup hbad,
      fun hmesh hrun peer => ⟨handshake_rekeys hc hup hmesh hrun, handshake_fails hc hup hmesh hrun⟩,
      rekey_answered hc hup epoch, rekey_acknowledged hc hup epoch⟩,
    fun hst => ⟨rekeyRequest_starts hc hst, sealedHold_holds hc hst⟩, rekeyRetry_starts hc, sealedDown_downs⟩

end Sys2Proof.SealedChannelCerts
end

section
/-!
PROOF. The statement about the Gust ports (spec/17_gust_links_and_host.md R449 to R467) fails: it wants every other port left alone when one
leaves service, and the fence of a Gust port ends reductions that it contributes to (R244, R508 step 4), which notify waiters of other
packages over another port (R213).
-/
namespace Sys2Proof.GustPortCerts

open Sys2Proof.Machine

/-- A reduction that still waits for its one contributor, the Gust port GP0 of package 0; event 64 tells its end. -/
def reduction : RedGroup :=
  { part := 0, contribs := [(0, gustNode 0, 7)], tree := [], done := 64, insts := [(0, { started := 0 })] }

/-- An event object of package 0 on which an agent of package 1 waits. -/
def awaitedEvent : LObj :=
  { kind := .event, home := 0, waiters := [{ slot := 1, node := 0, cls := 0, resume := false, what := .wait 0 }] }

/-- Package 0 with GP0 and GP1 UP, the reduction under way and the event awaited. -/
def reducing : State :=
  { State.reset with
    link := { State.reset.link with ports := [(0, { st := .up }), (1, { st := .up })] }
    coll := { State.reset.coll with red := [(0, reduction)] }
    lull := { State.reset.lull with objs := [(64, awaitedEvent)] } }

theorem exec_leave (k : Fin 12) (pkg : Bool) (s : State) : exec (.leave k pkg) s = .next (gustDown k.val 6 pkg s) := rfl

theorem reducing_other_unused : (reducing.gport 1).lseqOut = [] := by decide

/-- The NOTIFY of the event goes out as a LULL flit of GP1, which takes its first LSEQ. -/
theorem leave_uses_other : ((gustDown 0 6 false reducing).gport 1).lseqOut = [(3, 1)] := by decide

/-- Refutes O58: GP0 leaves service while a reduction waits for its contribution and an agent of package 1 waits for the reduction's event.
The fence fails the reduction, and its NOTIFY takes the next LSEQ of the LULL flits of GP1, so that another port changes. -/
theorem not_gustPorts : ¬ Obligations.GustPorts := by
  intro h
  obtain ⟨-, -, -, -, -, -, -, hleave, -⟩ := h 0 reducing
  obtain ⟨t, hexec, -, -, -, -, -, -, -, hothers⟩ := hleave (by decide)
  rw [exec_leave, Host.Outcome.next.injEq] at hexec
  subst hexec
  have hport : (gustDown 0 6 false reducing).gport 1 = reducing.gport 1 := hothers 1 (by decide)
  have hused := leave_uses_other
  rw [hport, reducing_other_unused] at hused
  exact absurd hused (by decide)

end Sys2Proof.GustPortCerts
end

section
/-!
PROOF. What the work at a step edge leaves alone: the clock, the step's own counters and times, the messages that were sent, and the clusters
that are FAULTED (spec/13_serving_pipeline.md R339, R340).
-/
namespace Sys2Proof.EdgeFrameCerts

open Sys2Proof.Machine Sys2Proof.Laws

variable {s t u : State}

/-- The step's number, times, packets and decisions and the waiting pool settings are the same. -/
structure SameStep (x y : Serve) : Prop where
  step : y.step = x.step
  edgeAt : y.edgeAt = x.edgeAt
  prevEdge : y.prevEdge = x.prevEdge
  dispatchedAt : y.dispatchedAt = x.dispatchedAt
  lastTime : y.lastTime = x.lastTime
  nextPool : y.nextPool = x.nextPool
  packets : y.packets = x.packets
  decided : y.decided = x.decided

/-- What every operation of an edge keeps. -/
structure Framed (s t : State) : Prop where
  aon : t.aon = s.aon
  serve : SameStep s.serve t.serve
  sent : ∀ m ∈ s.out.sent, m ∈ t.out.sent
  faults : ∀ c < 256, s.unitSt 0x01 c = .faulted → t.unitSt 0x01 c = .faulted

theorem SameStep.refl (x : Serve) : SameStep x x := ⟨rfl, rfl, rfl, rfl, rfl, rfl, rfl, rfl⟩

theorem SameStep.trans {x y z : Serve} (h : SameStep x y) (k : SameStep y z) : SameStep x z :=
  ⟨k.step.trans h.step, k.edgeAt.trans h.edgeAt, k.prevEdge.trans h.prevEdge, k.dispatchedAt.trans h.dispatchedAt, k.lastTime.trans h.lastTime,
    k.nextPool.trans h.nextPool, k.packets.trans h.packets, k.decided.trans h.decided⟩

theorem Framed.refl : Framed s s := ⟨rfl, .refl _, fun _ h => h, fun _ _ h => h⟩

theorem Framed.trans (h : Framed s t) (k : Framed t u) : Framed s u :=
  ⟨k.aon.trans h.aon, h.serve.trans k.serve, fun m hm => k.sent m (h.sent m hm), fun c hc hf => k.faults c hc (h.faults c hc hf)⟩

theorem Framed.of_eq (haon : t.aon = s.aon) (hserve : SameStep s.serve t.serve) (hsent : t.out.sent = s.out.sent)
    (htab : t.units.tab = s.units.tab) : Framed s t :=
  ⟨haon, hserve, fun m hm => by rw [hsent]; exact hm, fun c _ hf => by rw [State.unitSt, State.unitRec, htab]; exact hf⟩

/-- The groups of state that `Framed` speaks of. -/
def edgeGroups : List Group := [.aon, .serve, .out, .units]

/-- An operation on other groups of state. -/
theorem Framed.only {gs : List Group} (h : Framed s t) (k : Only gs t u) (hgs : gs.all (fun g => !edgeGroups.contains g) = true) :
    Framed s u := by
  have hfree : ∀ g ∈ edgeGroups, g ∉ gs := fun g hg hin => by
    simpa [hg] using List.all_eq_true.mp hgs g hin
  have hsame : u.serve = t.serve := k.keeps .serve (hfree .serve (.tail _ (.head _)))
  have hsent : u.out = t.out := k.keeps .out (hfree .out (.tail _ (.tail _ (.head _))))
  have htab : u.units = t.units := k.keeps .units (hfree .units (.tail _ (.tail _ (.tail _ (.head _)))))
  exact h.trans (.of_eq (k.keeps .aon (hfree .aon (.head _))) (by rw [hsame]; exact .refl _) (by rw [hsent]) (by rw [htab]))

theorem Framed.foldl {α : Type} {f : State → α → State} (hf : ∀ u x, Framed u (f u x)) {l : List α} (h : Framed s t) :
    Framed s (l.foldl f t) := by
  induction l generalizing t with
  | nil => exact h
  | cons x l ih => exact ih (h.trans (hf ..))

/-! ## Groups of state -/

section Groups

variable (h : Framed s t)

include h

theorem Framed.atServe {v : Serve} (hv : SameStep t.serve v) : Framed s { t with serve := v } :=
  h.trans (.of_eq rfl hv rfl rfl)

theorem Framed.atUnits {v : Units} (hv : v.tab = t.units.tab) : Framed s { t with units := v } :=
  h.trans (.of_eq rfl (.refl _) rfl hv)

theorem Framed.atOut {v : Out} (hv : ∀ m ∈ t.out.sent, m ∈ v.sent) : Framed s { t with out := v } :=
  h.trans ⟨rfl, .refl _, hv, fun _ _ hf => hf⟩

theorem Framed.atPwr {v : Pwr} : Framed s { t with pwr := v } := h.trans (.of_eq rfl (.refl _) rfl rfl)
theorem Framed.atStore {v : Store} : Framed s { t with store := v } := h.trans (.of_eq rfl (.refl _) rfl rfl)
theorem Framed.atLog {v : Log} : Framed s { t with log := v } := h.trans (.of_eq rfl (.refl _) rfl rfl)
theorem Framed.atVane {v : Vane} : Framed s { t with vane := v } := h.trans (.of_eq rfl (.refl _) rfl rfl)
theorem Framed.atBond {v : Bond} : Framed s { t with bond := v } := h.trans (.of_eq rfl (.refl _) rfl rfl)
theorem Framed.atMem {v : Mem} : Framed s { t with mem := v } := h.trans (.of_eq rfl (.refl _) rfl rfl)
theorem Framed.atMmu {v : Mmu} : Framed s { t with mmu := v } := h.trans (.of_eq rfl (.refl _) rfl rfl)
theorem Framed.atDma {v : Dma} : Framed s { t with dma := v } := h.trans (.of_eq rfl (.refl _) rfl rfl)
theorem Framed.atLink {v : Links} : Framed s { t with link := v } := h.trans (.of_eq rfl (.refl _) rfl rfl)
theorem Framed.atStoreMem {v : Store} {w : Mem} : Framed s { t with store := v, mem := w } := h.trans (.of_eq rfl (.refl _) rfl rfl)
theorem Framed.atFreeCtr {v : Nat} : Framed s { t with freeCtr := v } := h.trans (.of_eq rfl (.refl _) rfl rfl)

end Groups

/-! ## Messages, records and unit states -/

theorem send_framed {m : Msg} (h : Framed s t) : Framed s (send m t) := h.atOut fun _ hm => List.mem_cons_of_mem _ hm

theorem sendMsix_framed {v : Nat} (h : Framed s t) : Framed s (sendMsix v t) := by
  unfold sendMsix
  split
  · exact h.atOut fun _ hm => hm
  · split
    · exact h
    · exact h.atLink

theorem logRec_framed {cls : Cls} {code ut inst : Nat} {d : List Nat} {c : Contain} (h : Framed s t) :
    Framed s (logRec cls code ut inst d c t) := by
  unfold logRec
  dsimp only
  split
  · exact sendMsix_framed h.atLog
  · exact h.atLog

theorem logInfo_framed {code ut inst : Nat} {d : List Nat} (h : Framed s t) : Framed s (logInfo code ut inst d t) := logRec_framed h

theorem logSec_framed {code ut inst : Nat} {d : List Nat} (h : Framed s t) : Framed s (logSec code ut inst d t) := logRec_framed h

theorem logUe_framed {c : Contain} {code ut inst : Nat} {d : List Nat} (h : Framed s t) : Framed s (logUe c code ut inst d t) := logRec_framed h

theorem logLimited_framed {period : Nat} {cls : Cls} {code ut inst : Nat} {d : List Nat} {c : Contain} (h : Framed s t) :
    Framed s (logLimited period cls code ut inst d c t) := by
  unfold logLimited
  split
  · exact (logRec_framed h).atLog
  · exact h

theorem logLimitedAt_framed {key period : Nat} {cls : Cls} {code ut inst : Nat} {d : List Nat} {c : Contain} (h : Framed s t) :
    Framed s (logLimitedAt key period cls code ut inst d c t) := by
  unfold logLimitedAt
  split
  · exact (logRec_framed h).atLog
  · exact h

/-- A unit's record is written: that of a cluster only where it is not FAULTED or stays so. -/
theorem setUnitRec_framed {ut inst : Nat} {r : UnitRec} (hr : r.st = .faulted ∨ t.unitSt ut inst ≠ .faulted ∨ ut = 0x07) (h : Framed s t) :
    Framed s (setUnitRec ut inst r t) := by
  refine h.trans ⟨rfl, .refl _, fun _ hm => hm, fun c hc hf => ?_⟩
  rw [State.unitSt, State.unitRec, setUnitRec]
  dsimp only
  rw [Tab.get_put]
  split
  case isTrue hkey =>
    rcases hr with hr | hr | hr
    · exact hr
    · rw [State.unitSt, State.unitRec, ← hkey] at hr
      exact absurd hf hr
    · rw [hr, unitKey, unitKey] at hkey
      omega
  case isFalse => exact hf

theorem setUnitSt_framed {ut inst : Nat} {st : UnitSt} (hr : st = .faulted ∨ t.unitSt ut inst ≠ .faulted ∨ ut = 0x07) (h : Framed s t) :
    Framed s (setUnitSt ut inst st t) := setUnitRec_framed hr h

theorem markFaulted_framed {ut inst trigger : Nat} (h : Framed s t) : Framed s (markFaulted ut inst trigger t) :=
  setUnitRec_framed (.inl rfl) h

/-! ## Walks -/

theorem eachReq_framed {f : Nat → Req → State → State} (hf : ∀ i r u, Framed u (f i r u)) {l : List Nat} (h : Framed s t) :
    Framed s (eachReq f l t) := by
  induction l generalizing t with
  | nil => exact h
  | cons i l ih =>
    rw [eachReq]
    refine ih ?_
    split
    · exact h
    · exact h.trans (hf ..)

theorem eachId_framed {f : Nat → State → State} (hf : ∀ i u, Framed u (f i u)) {l : List Nat} (h : Framed s t) : Framed s (eachId f l t) := by
  induction l generalizing t with
  | nil => exact h
  | cons i l ih => exact ih (h.trans (hf ..))

end Sys2Proof.EdgeFrameCerts
end

section
/-!
PROOF. What the records, routes, memory, translation and DMA operations that an edge reaches leave alone (Framed). Each lemma follows its
definition: the branches are split, and each branch is a chain of operations whose lemmas stand before it.
-/
namespace Sys2Proof.EdgeFrameCerts

open Sys2Proof.Machine Sys2Proof.Laws

variable {s t : State}

theorem completeAwait_framed {p : Await → Bool} {r : Reply} (h : Framed s t) : Framed s (completeAwait p r t) :=
  h.only (completeAwait_only _ _ (List.Subset.refl _) Only.refl) rfl

theorem isolate_framed {r : Nat} {x : OpenRegion} (h : Framed s t) : Framed s (isolate r x t) :=
  h.only (isolate_only _ _ (List.Subset.refl _) Only.refl) rfl

theorem dropStreams_framed {img : SchedImage} {w : Nat} (h : Framed s t) : Framed s (dropStreams img w t) :=
  h.only (dropStreams_only _ _ (List.Subset.refl _) Only.refl) rfl

theorem markBroken_framed {w : Nat} (h : Framed s t) : Framed s (markBroken w t) :=
  h.only (markBroken_only _ (List.Subset.refl _) Only.refl) rfl

theorem breakList_framed {cause : Nat} {img : SchedImage} {l : List OpenWindow} (h : Framed s t) : Framed s (breakList cause img l t) := by
  induction l generalizing cause img t with
  | nil => exact h
  | cons x l ih =>
    unfold breakList
    repeat' first
      | with_reducible first | exact h | refine ih ?_ | refine logUe_framed ?_ | refine dropStreams_framed ?_ | refine markBroken_framed ?_

theorem breakWindowsOf_framed {ut inst cause : Nat} (h : Framed s t) : Framed s (breakWindowsOf ut inst cause t) := by
  unfold breakWindowsOf
  repeat' first
    | with_reducible first | exact h | refine breakList_framed ?_
    | split

theorem portQuiet_framed {v : Nat} (h : Framed s t) : Framed s (portQuiet v t) :=
  h.only (portQuiet_only _ (List.Subset.refl _) Only.refl) rfl

theorem vaneResponse_framed {v tag flits : Nat} {deliver : State → State} (h4 : ∀ x0, Framed x0 (deliver x0)) (h : Framed s t) :
    Framed s (vaneResponse v tag flits deliver t) := by
  unfold vaneResponse
  dsimp only
  repeat' first
    | with_reducible first | exact h | refine Framed.trans ?_ (h4 ..) | refine isolate_framed ?_ | refine portQuiet_framed ?_
        | refine logInfo_framed ?_
    | split
    | with_reducible first | fail_if_no_progress refine Framed.atVane ?_

theorem errorResponse_framed {node tag : Nat} (h : Framed s t) : Framed s (errorResponse node tag t) := send_framed h

theorem errorTo_framed {p : Packet} (h : Framed s t) : Framed s (errorTo p t) := by
  unfold errorTo
  repeat' first
    | with_reducible first | exact h | refine send_framed ?_ | refine vaneResponse_framed (fun _ => ?_) ?_ | exact Framed.refl
        | refine errorResponse_framed ?_
    | split

theorem discardPacket_framed {p : Packet} (h : Framed s t) : Framed s (discardPacket p t) := by
  unfold discardPacket
  repeat' first
    | with_reducible first | exact h | refine errorTo_framed ?_
    | split

theorem discardAll_framed {l : List Packet} (h : Framed s t) : Framed s (discardAll l t) := by
  induction l generalizing t with
  | nil => exact h
  | cons x l ih => exact ih (discardPacket_framed h)

theorem rebuildRoutes_framed (h : Framed s t) : Framed s (rebuildRoutes t) :=
  h.only (rebuildRoutes_only (List.Subset.refl _) Only.refl) rfl

theorem setFrame_framed {f : Nat} {r : FrameRec} (h : Framed s t) : Framed s (setFrame f r t) :=
  h.only (setFrame_only _ _ (List.Subset.refl _) Only.refl) rfl

theorem modFrame_framed {f : Nat} {g : FrameRec → FrameRec} (h : Framed s t) : Framed s (modFrame f g t) :=
  h.only (modFrame_only _ _ (List.Subset.refl _) Only.refl) rfl

theorem retireNow_framed {f : Nat} {rows : List (Nat × Nat)} (h : Framed s t) : Framed s (retireNow f rows t) := by
  unfold retireNow
  dsimp only
  repeat' first
    | with_reducible first | exact h | refine setFrame_framed ?_ | refine logInfo_framed ?_ | refine logUe_framed ?_
    | split
    | with_reducible first | fail_if_no_progress refine Framed.atStore ?_ | fail_if_no_progress refine Framed.atMem ?_

theorem reindex_framed {l : Tab PEntry} {n : List Nat} (h : Framed s t) : Framed s (reindex l n t) :=
  h.only (reindex_only _ _ (List.Subset.refl _) Only.refl) rfl

theorem removeEntries_framed {p : Nat → PEntry → Bool} (h : Framed s t) : Framed s (removeEntries p t) := by
  unfold removeEntries
  dsimp only
  repeat' first
    | with_reducible first | exact h | refine reindex_framed ?_
    | split
    | with_reducible first | fail_if_no_progress refine Framed.atServe ?_ ⟨rfl, rfl, rfl, rfl, rfl, rfl, rfl, rfl⟩

theorem dropIndex_framed {f : Nat} (h : Framed s t) : Framed s (dropIndex f t) := removeEntries_framed h

theorem retirePending_framed {f : Nat} (h : Framed s t) : Framed s (retirePending f t) := by
  unfold retirePending
  repeat' first
    | with_reducible first | exact h | refine retireNow_framed ?_ | refine modFrame_framed ?_ | refine dropIndex_framed ?_
    | split

theorem retireEach_framed {l : List Nat} (h : Framed s t) : Framed s (retireEach l t) := by
  induction l generalizing t with
  | nil => exact h
  | cons x l ih => exact ih (retirePending_framed h)

theorem freeFrame_framed {f : Nat} (h : Framed s t) : Framed s (freeFrame f t) := by
  unfold freeFrame
  repeat' first
    | with_reducible first | exact h | refine retireNow_framed ?_ | refine setFrame_framed ?_
    | split

theorem freeFrames_framed {l : List Nat} (h : Framed s t) : Framed s (freeFrames l t) := by
  induction l generalizing t with
  | nil => exact h
  | cons x l ih => exact ih (freeFrame_framed h)

theorem noteCe_framed {u dpa pos : Nat} {inj : Bool} (h : Framed s t) : Framed s (noteCe u dpa pos inj t) := by
  unfold noteCe
  dsimp only
  repeat' with_reducible first | exact h | refine logLimited_framed ?_ | fail_if_no_progress refine Framed.atMem ?_

theorem noteUe_framed {u dpa : Nat} {inj : Bool} (h : Framed s t) : Framed s (noteUe u dpa inj t) := by
  unfold noteUe
  dsimp only
  repeat' with_reducible first | exact h | refine logUe_framed ?_ | fail_if_no_progress refine Framed.atMem ?_

theorem listRow_framed {mc row : Nat} (h : Framed s t) : Framed s (listRow mc row t) :=
  h.only (listRow_only _ _ (List.Subset.refl _) Only.refl) rfl

theorem suspectRow_framed {mc row : Nat} (h : Framed s t) : Framed s (suspectRow mc row t) := by
  unfold suspectRow
  dsimp only
  repeat' with_reducible first | exact h | refine logInfo_framed ?_ | refine listRow_framed ?_ | refine retireEach_framed ?_

theorem noteHard_framed {mc row line : Nat} (h : Framed s t) : Framed s (noteHard mc row line t) :=
  h.only (noteHard_only _ _ _ (List.Subset.refl _) Only.refl) rfl

theorem ueLine_framed {mc addr line : Nat} (h : Framed s t) : Framed s (ueLine mc addr line t) := by
  unfold ueLine
  dsimp only
  repeat' with_reducible first | exact h | refine suspectRow_framed ?_ | refine noteHard_framed ?_

theorem takeUnits_framed {node part : Nat} {l : List Nat} (h : Framed s t) : Framed s (takeUnits node part l t) :=
  h.only (takeUnits_only _ _ _ (List.Subset.refl _) Only.refl) rfl

theorem hardWord_framed {node addr : Nat} (h : Framed s t) : Framed s (hardWord node addr t) := by
  unfold hardWord
  dsimp only
  repeat' first
    | with_reducible first | exact h | refine logUe_framed ?_
    | split
    | with_reducible first | fail_if_no_progress refine Framed.atMem ?_ | fail_if_no_progress refine Framed.atStoreMem ?_

theorem setFlaw_framed {a : Nat} {f : Flaw} (h : Framed s t) : Framed s (setFlaw a f t) :=
  h.only (setFlaw_only _ _ (List.Subset.refl _) Only.refl) rfl

theorem poke_framed {dpa : Nat} {l : List Byte} (h : Framed s t) : Framed s (poke dpa l t) :=
  h.only (poke_only _ _ (List.Subset.refl _) Only.refl) rfl

theorem queueRescrub_framed {mc line : Nat} (h : Framed s t) : Framed s (queueRescrub mc line t) :=
  h.only (queueRescrub_only _ _ (List.Subset.refl _) Only.refl) rfl

theorem hbmUe_framed {mc addr line : Nat} {inj : Bool} (h : Framed s t) : Framed s (hbmUe mc addr line inj t) := by
  unfold hbmUe
  dsimp only
  repeat' first
    | with_reducible first | exact h | refine noteUe_framed ?_ | refine setFlaw_framed ?_ | refine ueLine_framed ?_
    | split

theorem readLine_framed {line : Nat} {found : List Nat} (h : Framed s t) : Framed s (readLine line found t).2 := by
  unfold readLine
  dsimp only
  repeat' first
    | with_reducible first | exact h | refine hbmUe_framed ?_ | refine setFlaw_framed ?_ | refine logLimitedAt_framed ?_
        | refine queueRescrub_framed ?_ | refine noteCe_framed ?_
    | split
    | with_reducible first | fail_if_no_progress refine Framed.atFreeCtr ?_

theorem injectInto_framed {a : Nat} (h : Framed s t) : Framed s (injectInto a t) := by
  unfold injectInto
  dsimp only
  repeat' with_reducible first | exact h | refine setFlaw_framed ?_ | refine logSec_framed ?_ | fail_if_no_progress refine Framed.atMem ?_

theorem meetInjection_framed {a : Nat} (h : Framed s t) : Framed s (meetInjection a t) := by
  unfold meetInjection
  repeat' first
    | with_reducible first | exact h | refine injectInto_framed ?_
    | split

theorem storeLine_framed {dpa : Nat} {data : List Byte} {found : List Nat} (h : Framed s t) : Framed s (storeLine dpa data found t).2 := by
  unfold storeLine
  dsimp only
  repeat' first
    | with_reducible first | exact h | refine meetInjection_framed ?_ | refine poke_framed ?_ | refine setFlaw_framed ?_
        | refine noteCe_framed ?_ | refine hbmUe_framed ?_
    | split
    | with_reducible first | fail_if_no_progress refine Framed.atFreeCtr ?_

theorem modVault_framed {v : Nat} {f : Vault → Vault} (h : Framed s t) : Framed s (modVault v f t) :=
  h.only (modVault_only _ _ (List.Subset.refl _) Only.refl) rfl

theorem holdWrite_framed {v dpa : Nat} {data : List Byte} {noted : Bool} (h : Framed s t) : Framed s (holdWrite v dpa data noted t) := by
  unfold holdWrite
  dsimp only
  repeat' first
    | with_reducible first | exact h | refine modVault_framed ?_ | refine logInfo_framed ?_
    | split

theorem writeLine_framed {dpa : Nat} {data : List Byte} {found : List Nat} (h : Framed s t) : Framed s (writeLine dpa data found t).2 := by
  unfold writeLine
  dsimp only
  repeat' first
    | with_reducible first | exact h | refine storeLine_framed ?_ | refine holdWrite_framed ?_ | refine modVault_framed ?_
    | split

theorem dropBack_framed {w : Nat} (h : Framed s t) : Framed s (dropBack w t) :=
  h.only (dropBack_only _ (List.Subset.refl _) Only.refl) rfl

theorem scheduleBack_framed {w : Nat} (h : Framed s t) : Framed s (scheduleBack w t) :=
  h.only (scheduleBack_only _ (List.Subset.refl _) Only.refl) rfl

theorem readWord_framed {w : Nat} {found : List Nat} (h : Framed s t) : Framed s (readWord w found t).2 := by
  unfold readWord
  dsimp only
  repeat' first
    | with_reducible first | exact h | refine scheduleBack_framed ?_ | refine noteCe_framed ?_ | refine setFlaw_framed ?_
        | refine noteUe_framed ?_ | refine hardWord_framed ?_
    | split
    | with_reducible first | fail_if_no_progress refine Framed.atFreeCtr ?_

theorem writeWord_framed {a : Nat} {data : List Byte} {found : List Nat} (h : Framed s t) : Framed s (writeWord a data found t).2 := by
  unfold writeWord
  dsimp only
  repeat' first
    | with_reducible first | exact h | refine dropBack_framed ?_ | refine meetInjection_framed ?_ | refine poke_framed ?_
        | refine setFlaw_framed ?_ | refine readWord_framed ?_
    | split
    | with_reducible first | fail_if_no_progress refine Framed.atFreeCtr ?_

theorem readWords_framed {l n : Nat} {m : Nat → List Nat} (h : Framed s t) : Framed s (readWords l n m t).2 := by
  induction l generalizing n m t with
  | zero => exact h
  | succ x ih => exact ih (readWord_framed h)

theorem readPiece_framed {dpa n : Nat} (h : Framed s t) : Framed s (readPiece dpa n t).2 := by
  unfold readPiece
  repeat' first
    | with_reducible first | exact h | refine readLine_framed ?_ | refine readWords_framed ?_
    | split

theorem writeWords_framed {l n : Nat} {m : List Byte} {x : Nat → List Nat} (h : Framed s t) : Framed s (writeWords l n m x t).2 := by
  induction l generalizing n m x t with
  | zero => exact h
  | succ x ih =>
    unfold writeWords
    dsimp only
    repeat' first
      | with_reducible first | exact h | refine ih ?_ | refine writeWord_framed ?_
      | (have hk := Nat.succ.inj ‹_ + 1 = Nat.succ _›; subst hk)
      | split

theorem writePiece_framed {dpa : Nat} {data : List Byte} (h : Framed s t) : Framed s (writePiece dpa data t).2 := by
  unfold writePiece
  repeat' first
    | with_reducible first | exact h | refine writeLine_framed ?_ | refine writeWords_framed ?_ | refine poke_framed ?_
    | split

theorem readPieces_framed {l n m : Nat} (h : Framed s t) : Framed s (readPieces l n m t).2 := by
  induction l generalizing n m t with
  | zero => exact h
  | succ x ih =>
    unfold readPieces
    dsimp only
    repeat' first
      | with_reducible first | exact h | refine ih ?_ | refine readPiece_framed ?_
      | split

theorem memRead_framed {dpa n : Nat} (h : Framed s t) : Framed s (memRead dpa n t).2 := by
  unfold memRead
  dsimp only
  repeat' first
    | with_reducible first | exact h | refine readPieces_framed ?_
    | split
    | with_reducible first | fail_if_no_progress refine Framed.atFreeCtr ?_

theorem writePieces_framed {l n : Nat} {m : List Byte} (h : Framed s t) : Framed s (writePieces l n m t).2 := by
  induction l generalizing n m t with
  | zero => exact h
  | succ x ih =>
    unfold writePieces
    dsimp only
    repeat' first
      | with_reducible first | exact h | refine ih ?_ | refine writePiece_framed ?_
      | (have hk := Nat.succ.inj ‹_ + 1 = Nat.succ _›; subst hk)
      | split

theorem memWrite_framed {dpa : Nat} {data : List Byte} (h : Framed s t) : Framed s (memWrite dpa data t).2 := writePieces_framed h

theorem modGport_framed {k : Nat} {f : GPort → GPort} (h : Framed s t) : Framed s (modGport k f t) :=
  h.only (modGport_only _ _ (List.Subset.refl _) Only.refl) rfl

theorem linkFlit_framed {k ltype : Nat} {what : String} {args : List Nat} (h : Framed s t) : Framed s (linkFlit k ltype what args t) := by
  unfold linkFlit
  dsimp only
  split
  · exact send_framed (send_framed (modGport_framed h))
  · exact send_framed (modGport_framed h)

theorem setPortSt_framed {k : Nat} {st : PortSt} (h : Framed s t) : Framed s (setPortSt k st t) := by
  have hset : Framed s (sendMsix (208 + k) (setUnitSt 0x07 k st.unit (modGport k (fun p => { p with st := st }) t))) :=
    sendMsix_framed (setUnitSt_framed (.inr (.inr rfl)) (modGport_framed h))
  unfold setPortSt
  dsimp only
  split
  · exact h
  · split
    · exact logInfo_framed hset
    · exact hset

theorem setObj_framed {o : Nat} {x : LObj} (h : Framed s t) : Framed s (setObj o x t) :=
  h.only (setObj_only _ _ (List.Subset.refl _) Only.refl) rfl

theorem sendLull_framed {slot : Nat} {word : Bool → Nat} (h : Framed s t) : Framed s (sendLull slot word t) := by
  unfold sendLull
  repeat' first
    | with_reducible first | exact h | refine linkFlit_framed ?_
    | split

theorem notify_framed {slot node obj status value : Nat} (h : Framed s t) : Framed s (notify slot node obj status value t) := by
  unfold notify
  repeat' first
    | with_reducible first | exact h | refine send_framed ?_ | refine sendLull_framed ?_
    | split

theorem notifyAll_framed {obj status value : Nat} {l : List Waiter} (h : Framed s t) : Framed s (notifyAll obj status value l t) := by
  induction l generalizing obj status value t with
  | nil => exact h
  | cons x l ih => exact ih (notify_framed h)

theorem eventSet_framed {o payload : Nat} (h : Framed s t) : Framed s (eventSet o payload t) := by
  unfold eventSet
  repeat' first
    | with_reducible first | exact h | refine notifyAll_framed ?_ | refine setObj_framed ?_
    | split

theorem triggerSet_framed {o : Nat} (h : Framed s t) : Framed s (triggerSet o t) :=
  h.only (triggerSet_only _ (List.Subset.refl _) Only.refl) rfl

theorem lullSet_framed {o payload : Nat} (h : Framed s t) : Framed s (lullSet o payload t) := by
  unfold lullSet
  repeat' with_reducible first | exact h | refine triggerSet_framed ?_ | refine eventSet_framed ?_

theorem counterAdd_framed {o : Nat} {a : ℤ} (h : Framed s t) : Framed s (counterAdd o a t) := by
  unfold counterAdd
  dsimp only
  repeat' first
    | with_reducible first | exact h | refine notifyAll_framed ?_ | refine setObj_framed ?_
    | split

theorem poisonObj_framed {o cause : Nat} (h : Framed s t) : Framed s (poisonObj o cause t) := by
  unfold poisonObj
  repeat' first
    | with_reducible first | exact h | refine logUe_framed ?_ | refine notifyAll_framed ?_ | refine setObj_framed ?_
    | split

theorem poisonAll_framed {cause : Nat} {l : List Nat} (h : Framed s t) : Framed s (poisonAll cause l t) := by
  induction l generalizing cause t with
  | nil => exact h
  | cons x l ih => exact ih (poisonObj_framed h)

theorem poisonFor_framed {ut inst cause : Nat} (h : Framed s t) : Framed s (poisonFor ut inst cause t) := poisonAll_framed h

theorem setRed_framed {g : Nat} {r : RedGroup} (h : Framed s t) : Framed s (setRed g r t) :=
  h.only (setRed_only _ _ (List.Subset.refl _) Only.refl) rfl

theorem failInst_framed {g inst status contrib : Nat} {note : State → State} (h5 : ∀ x0, Framed x0 (note x0)) (h : Framed s t) :
    Framed s (failInst g inst status contrib note t) := by
  unfold failInst
  dsimp only
  repeat' first
    | with_reducible first | exact h | refine Framed.trans ?_ (h5 ..) | refine lullSet_framed ?_ | refine setRed_framed ?_
    | split

theorem loseContrib_framed {g : Nat} {p : Nat × Nat × Nat → Bool} {l : List Nat} (h : Framed s t) : Framed s (loseContrib g p l t) := by
  induction l generalizing g p t with
  | nil => exact h
  | cons x l ih =>
    unfold loseContrib
    repeat' first
      | with_reducible first | exact h | refine ih ?_ | refine failInst_framed (fun _ => ?_) ?_ | exact Framed.refl | refine logUe_framed ?_
      | split

theorem loseContribs_framed {p : Nat × Nat × Nat → Bool} {l : List (Nat × RedGroup)} (h : Framed s t) : Framed s (loseContribs p l t) := by
  induction l generalizing p t with
  | nil => exact h
  | cons x l ih => exact ih (loseContrib_framed h)

theorem loseUnitContribs_framed {ut inst : Nat} (h : Framed s t) : Framed s (loseUnitContribs ut inst t) := loseContribs_framed h

theorem walkFrom_framed {a : Access} {l n m : Nat} (h : Framed s t) : Framed s (walkFrom a l n m t).2 := by
  induction l generalizing a n m t with
  | zero => exact h
  | succ x ih =>
    unfold walkFrom
    dsimp only
    repeat' first
      | with_reducible first | exact h | refine ih ?_ | refine memRead_framed ?_
      | split

theorem walk_framed {a : Access} (h : Framed s t) : Framed s (walk a t).2 := by
  unfold walk
  repeat' first
    | with_reducible first | exact h | refine walkFrom_framed ?_
    | split

theorem pushFault_framed {p : Nat} {r : FaultRec} (h : Framed s t) : Framed s (pushFault p r t) := by
  unfold pushFault
  dsimp only
  repeat' first
    | with_reducible first | exact h | refine logLimitedAt_framed ?_
    | split
    | with_reducible first | fail_if_no_progress refine Framed.atMmu ?_

theorem mmuFault_framed {a : Access} {cause level : Nat} (h : Framed s t) : Framed s (mmuFault a cause level t) := by
  unfold mmuFault
  repeat' with_reducible first | exact h | refine logLimitedAt_framed ?_ | refine sendMsix_framed ?_ | refine pushFault_framed ?_

theorem fillTlb_framed {point : Nat} {e : TlbEntry} (h : Framed s t) : Framed s (fillTlb point e t) :=
  h.only (fillTlb_only _ _ (List.Subset.refl _) Only.refl) rfl

theorem translateAt_framed {point : Option Nat} {a : Access} (h : Framed s t) : Framed s (translateAt point a t).2 := by
  unfold translateAt
  dsimp only
  repeat' first
    | with_reducible first | exact h | refine walk_framed ?_ | refine fillTlb_framed ?_
    | split

theorem translate_framed {a : Access} (h : Framed s t) : Framed s (translate a t).2 := by
  unfold Machine.translate
  dsimp only
  repeat' first
    | with_reducible first | exact h | refine translateAt_framed ?_ | refine mmuFault_framed ?_
    | split

theorem dvaReadFrom_framed {a : Access} {l n m : Nat} (h : Framed s t) : Framed s (dvaReadFrom a l n m t).2 := by
  induction l generalizing a n m t with
  | zero => exact h
  | succ x ih =>
    unfold dvaReadFrom
    dsimp only
    repeat' first
      | with_reducible first | exact h | refine ih ?_ | refine translate_framed ?_ | refine memRead_framed ?_
      | split

theorem dvaRead_framed {a : Access} {n : Nat} (h : Framed s t) : Framed s (dvaRead a n t).2 := dvaReadFrom_framed h

theorem dvaWriteFrom_framed {a : Access} {l n : Nat} {m : List Byte} (h : Framed s t) : Framed s (dvaWriteFrom a l n m t).2 := by
  induction l generalizing a n m t with
  | zero => exact h
  | succ x ih =>
    unfold dvaWriteFrom
    dsimp only
    repeat' first
      | with_reducible first | exact h | refine ih ?_ | refine translate_framed ?_ | refine memWrite_framed ?_
      | (have hk := Nat.succ.inj ‹_ + 1 = Nat.succ _›; subst hk)
      | split

theorem dvaWrite_framed {a : Access} {b : List Byte} (h : Framed s t) : Framed s (dvaWrite a b t).2 := dvaWriteFrom_framed h

theorem setChan_framed {d : Nat} {c : DmaChan} (h : Framed s t) : Framed s (setChan d c t) :=
  h.only (setChan_only _ _ (List.Subset.refl _) Only.refl) rfl

theorem modChan_framed {d : Nat} {f : DmaChan → DmaChan} (h : Framed s t) : Framed s (modChan d f t) :=
  h.only (modChan_only _ _ (List.Subset.refl _) Only.refl) rfl

theorem writeStatus_framed {d status detail mark : Nat} (h : Framed s t) : Framed s (writeStatus d status detail mark t).2 := by
  unfold writeStatus
  dsimp only
  repeat' first
    | with_reducible first | exact h | refine dvaWrite_framed ?_ | refine modChan_framed ?_
    | split

theorem dmaSignal_framed {p : Nat} {x : Desc} (h : Framed s t) : Framed s (dmaSignal p x t) := by
  unfold dmaSignal
  repeat' first
    | with_reducible first | exact h | refine lullSet_framed ?_ | refine counterAdd_framed ?_
    | split

theorem dmaFinal_framed {d status detail mark : Nat} (h : Framed s t) : Framed s (dmaFinal d status detail mark t) := by
  unfold dmaFinal
  dsimp only
  repeat' first
    | with_reducible first | exact h | refine writeStatus_framed ?_ | refine sendMsix_framed ?_ | refine modChan_framed ?_
        | refine dmaSignal_framed ?_
    | split

theorem dmaFetch_framed {d l : Nat} (h : Framed s t) : Framed s (dmaFetch d l t) := by
  induction l generalizing d t with
  | zero => exact h
  | succ x ih =>
    unfold dmaFetch
    dsimp only
    repeat' first
      | with_reducible first | exact h | refine ih ?_ | refine setChan_framed ?_ | refine dvaRead_framed ?_ | refine modChan_framed ?_
          | refine dmaFinal_framed ?_
      | split

theorem dmaRun_framed {d : Nat} (h : Framed s t) : Framed s (dmaRun d t) := dmaFetch_framed h

theorem chunkEnd_framed {d space addr : Nat} {write : Bool} (h : Framed s t) : Framed s (chunkEnd d space addr write t).2 := by
  unfold chunkEnd
  dsimp only
  repeat' first
    | with_reducible first | exact h | refine translate_framed ?_
    | split

theorem issueChunks_framed {d l : Nat} (h : Framed s t) : Framed s (issueChunks d l t) := by
  induction l generalizing d t with
  | zero => exact h
  | succ x ih =>
    unfold issueChunks
    dsimp only
    repeat' first
      | with_reducible first | exact h | refine ih ?_ | refine logUe_framed ?_ | refine modChan_framed ?_ | refine chunkEnd_framed ?_
          | refine send_framed ?_
      | split

theorem cancelRest_framed {d l : Nat} (h : Framed s t) : Framed s (cancelRest d l t) := by
  induction l generalizing d t with
  | zero => exact h
  | succ x ih =>
    unfold cancelRest
    dsimp only
    repeat' first
      | with_reducible first | exact h | refine ih ?_ | refine dvaRead_framed ?_ | refine dmaFinal_framed ?_ | refine modChan_framed ?_
      | split

theorem applyStop_framed {d : Nat} {k : DmaStop} (h : Framed s t) : Framed s (applyStop d k t) := by
  unfold applyStop
  dsimp only
  repeat' first
    | with_reducible first | exact h | refine modChan_framed ?_ | refine writeStatus_framed ?_ | refine dmaFinal_framed ?_
        | refine dmaRun_framed ?_ | refine cancelRest_framed ?_
    | split
    | with_reducible first | fail_if_no_progress refine Framed.atMmu ?_

theorem applyStops_framed {d : Nat} {l : List DmaStop} (h : Framed s t) : Framed s (applyStops d l t) := by
  induction l generalizing d t with
  | nil => exact h
  | cons x l ih =>
    unfold applyStops
    repeat' first
      | with_reducible first | exact h | refine ih ?_ | refine applyStop_framed ?_
      | split

theorem tellCancels_framed {l : List (Nat × Nat)} (h : Framed s t) : Framed s (tellCancels l t) := by
  induction l generalizing t with
  | nil => exact h
  | cons x l ih => exact ih (send_framed h)

theorem reportCancels_framed (h : Framed s t) : Framed s (reportCancels t) := by
  unfold reportCancels
  dsimp only
  repeat' with_reducible first | exact h | refine tellCancels_framed ?_ | fail_if_no_progress refine Framed.atDma ?_

theorem settle_framed {d : Nat} (h : Framed s t) : Framed s (settle d t) := by
  unfold settle
  dsimp only
  repeat' first
    | with_reducible first | exact h | refine issueChunks_framed ?_ | refine reportCancels_framed ?_ | refine applyStops_framed ?_
        | refine modChan_framed ?_ | refine dmaRun_framed ?_ | refine dmaFinal_framed ?_
    | split

theorem stopChan_framed {d : Nat} {k : DmaStop} (h : Framed s t) : Framed s (stopChan d k t) := by
  unfold stopChan
  dsimp only
  repeat' first
    | with_reducible first | exact h | refine applyStop_framed ?_ | refine setChan_framed ?_ | refine settle_framed ?_
        | refine modChan_framed ?_
    | split

theorem cancelReqOn_framed {req : Nat} {l : List Nat} (h : Framed s t) : Framed s (cancelReqOn req l t) := by
  induction l generalizing req t with
  | nil => exact h
  | cons x l ih =>
    unfold cancelReqOn
    repeat' first
      | with_reducible first | exact h | refine ih ?_ | refine stopChan_framed ?_
      | split

theorem cancelReq_framed {p req : Nat} (h : Framed s t) : Framed s (cancelReq p req t) := by
  unfold cancelReq
  dsimp only
  repeat' first
    | with_reducible first | exact h | refine reportCancels_framed ?_ | refine cancelReqOn_framed ?_
    | with_reducible first | fail_if_no_progress refine Framed.atDma ?_

end Sys2Proof.EdgeFrameCerts
end

section
/-!
PROOF. What the serving operations of an edge leave alone (Framed): requests, pages, prefixes, moves, pools, selection and dispatch, in the
order of their definitions (spec/13_serving_pipeline.md R339 to R358, spec/14_pages_prefixes_adapters_drift.md R369 to R393).
-/
namespace Sys2Proof.EdgeFrameCerts

open Sys2Proof.Machine Sys2Proof.Laws

variable {s t : State}

theorem setReq_framed {i : Nat} {r : Req} (h : Framed s t) : Framed s (setReq i r t) := h.atServe ⟨rfl, rfl, rfl, rfl, rfl, rfl, rfl, rfl⟩

theorem delReq_framed {i : Nat} (h : Framed s t) : Framed s (delReq i t) := h.atServe ⟨rfl, rfl, rfl, rfl, rfl, rfl, rfl, rfl⟩

theorem modReq_framed {i : Nat} {f : Req → Req} (h : Framed s t) : Framed s (modReq i f t) := by
  unfold modReq
  repeat' first
    | with_reducible first | exact h | refine setReq_framed ?_
    | split

theorem setSpart_framed {p : Nat} {x : SPart} (h : Framed s t) : Framed s (setSpart p x t) := h.atServe ⟨rfl, rfl, rfl, rfl, rfl, rfl, rfl, rfl⟩

theorem setRing_framed {k : Nat} {x : Ring} (h : Framed s t) : Framed s (setRing k x t) := h.atServe ⟨rfl, rfl, rfl, rfl, rfl, rfl, rfl, rfl⟩

theorem putRec_framed {k : Nat} {r : ResRec} (h : Framed s t) : Framed s (putRec k r t) := setRing_framed h

theorem reqRec_framed {i : Nat} {r : Req} {kind reason count : Nat} (h : Framed s t) : Framed s (reqRec i r kind reason count t) := by
  unfold reqRec
  repeat' first
    | with_reducible first | exact h | refine putRec_framed ?_
    | split

theorem reclaimRetained_framed {sel : Nat → FrameRec → Bool} {n : Nat} (h : Framed s t) : Framed s (reclaimRetained sel n t) := by
  unfold reclaimRetained
  dsimp only
  repeat' with_reducible first | exact h | refine freeFrames_framed ?_ | refine removeEntries_framed ?_

theorem steward_framed {p n cls : Nat} {resume firmware : Bool} {who : Nat} (h : Framed s t) :
    Framed s (steward p n cls resume firmware who t).2 := by
  unfold steward
  dsimp only
  repeat' first
    | with_reducible first | exact h | refine reclaimRetained_framed ?_
    | split
    | with_reducible first | fail_if_no_progress refine Framed.atServe ?_ ⟨rfl, rfl, rfl, rfl, rfl, rfl, rfl, rfl⟩

theorem markFrames_framed {r : FrameRec} {l : List Nat} (h : Framed s t) : Framed s (markFrames r l t) :=
  h.only (markFrames_only _ _ (List.Subset.refl _) Only.refl) rfl

theorem unshareAll_framed {l : List Nat} (h : Framed s t) : Framed s (unshareAll l t) :=
  h.only (unshareAll_only _ (List.Subset.refl _) Only.refl) rfl

theorem leavePage_framed {f : Nat} (h : Framed s t) : Framed s (leavePage f t) := by
  unfold leavePage
  dsimp only
  repeat' first
    | with_reducible first | exact h | refine setFrame_framed ?_ | refine freeFrame_framed ?_
    | split

theorem leavePages_framed {l : List Nat} (h : Framed s t) : Framed s (leavePages l t) := by
  induction l generalizing t with
  | nil => exact h
  | cons x l ih => exact ih (leavePage_framed h)

theorem freeList_framed {r : Req} (h : Framed s t) : Framed s (freeList r t) := by
  unfold freeList
  repeat' first
    | with_reducible first | exact h | refine freeFrame_framed ?_
    | split

theorem freeDrift_framed {l : List Nat} (h : Framed s t) : Framed s (freeDrift l t) := by
  induction l generalizing t with
  | nil => exact h
  | cons x l ih =>
    unfold freeDrift
    dsimp only
    repeat' with_reducible first | exact h | refine ih ?_ | fail_if_no_progress refine Framed.atServe ?_ ⟨rfl, rfl, rfl, rfl, rfl, rfl, rfl, rfl⟩

theorem dropPages_framed {r : Req} (h : Framed s t) : Framed s (dropPages r t) := by
  unfold dropPages
  repeat' first
    | with_reducible first | exact h | refine freeList_framed ?_ | refine leavePages_framed ?_ | refine unshareAll_framed ?_
    | split

theorem dropMove_framed {r : Req} (h : Framed s t) : Framed s (dropMove r t) := by
  unfold dropMove
  repeat' first
    | with_reducible first | exact h | refine freeDrift_framed ?_ | refine freeFrames_framed ?_
    | split

theorem reclaim_framed {r : Req} (h : Framed s t) : Framed s (reclaim r t) := by
  unfold reclaim
  repeat' with_reducible first | exact h | refine freeDrift_framed ?_ | refine dropMove_framed ?_ | refine dropPages_framed ?_

theorem sweepRetained_framed (h : Framed s t) : Framed s (sweepRetained t) := freeFrames_framed h

theorem shareAll_framed {l : List Nat} (h : Framed s t) : Framed s (shareAll l t) :=
  h.only (shareAll_only _ (List.Subset.refl _) Only.refl) rfl

theorem touchEntries_framed {l : List Nat} (h : Framed s t) : Framed s (touchEntries l t) := h.atServe ⟨rfl, rfl, rfl, rfl, rfl, rfl, rfl, rfl⟩

theorem insertChain_framed {g : Program} {r : Req} {l n m : Nat} {x : Option Nat} (h : Framed s t) :
    Framed s (insertChain g r l n m x t) := by
  induction l generalizing g r n m x t with
  | zero => exact h
  | succ x ih =>
    unfold insertChain
    dsimp only
    repeat' first
      | with_reducible first | exact h | refine ih ?_ | refine removeEntries_framed ?_ | refine reindex_framed ?_
      | split
      | with_reducible first | fail_if_no_progress refine Framed.atServe ?_ ⟨rfl, rfl, rfl, rfl, rfl, rfl, rfl, rfl⟩

theorem insertPrefix_framed {g : Program} {r : Req} (h : Framed s t) : Framed s (insertPrefix g r t) := by
  unfold insertPrefix
  dsimp only
  repeat' first
    | with_reducible first | exact h | refine insertChain_framed ?_
    | split

theorem writeContext_framed {i : Nat} (h : Framed s t) : Framed s (writeContext i t) :=
  h.only (writeContext_only _ (List.Subset.refl _) Only.refl) rfl

theorem rebuildReq_framed {i : Nat} {r : Req} (h : Framed s t) : Framed s (rebuildReq i r t) := setReq_framed h

theorem fillDraft_framed {r : Req} {ntok : Nat} (h : Framed s t) : Framed s (fillDraft r ntok t) :=
  h.only (fillDraft_only _ _ (List.Subset.refl _) Only.refl) rfl

theorem endReq_framed {i : Nat} {r : Req} {reason : Nat} (h : Framed s t) : Framed s (endReq i r reason t) := by
  unfold endReq
  repeat' with_reducible first | exact h | refine delReq_framed ?_ | refine reclaim_framed ?_ | refine reqRec_framed ?_

theorem tellOrigin_framed {r : Req} {toks : List Nat} (h : Framed s t) : Framed s (tellOrigin r toks t) := send_framed h

theorem commitToks_framed {i : Nat} {r : Req} {toks0 : List Nat} {code : Nat} (h : Framed s t) :
    Framed s (commitToks i r toks0 code t) := by
  unfold commitToks
  dsimp only
  repeat' first
    | with_reducible first | exact h | refine dvaWrite_framed ?_ | refine tellOrigin_framed ?_ | refine reqRec_framed ?_
        | refine endReq_framed ?_ | refine setReq_framed ?_
    | split
    | with_reducible first | fail_if_no_progress refine Framed.atServe ?_ ⟨rfl, rfl, rfl, rfl, rfl, rfl, rfl, rfl⟩

theorem commitPrefill_framed {i : Nat} {r : Req} {e : Entry} (h : Framed s t) : Framed s (commitPrefill i r e t) := by
  unfold commitPrefill
  dsimp only
  repeat' first
    | with_reducible first | exact h | refine fillDraft_framed ?_ | refine setReq_framed ?_ | refine insertPrefix_framed ?_
        | refine commitToks_framed ?_
    | split
    | with_reducible first | fail_if_no_progress refine Framed.atServe ?_ ⟨rfl, rfl, rfl, rfl, rfl, rfl, rfl, rfl⟩

theorem commitEntry_framed {e : Entry} (h : Framed s t) : Framed s (commitEntry e t) := by
  unfold commitEntry
  dsimp only
  repeat' first
    | with_reducible first | exact h | refine setReq_framed ?_ | refine commitPrefill_framed ?_ | refine commitToks_framed ?_
    | split

theorem commitEntries_framed {l : List Entry} (h : Framed s t) : Framed s (commitEntries l t) := by
  induction l generalizing t with
  | nil => exact h
  | cons x l ih => exact ih (commitEntry_framed h)

theorem commitInbox_framed {i : Nat} {r : Req} (h : Framed s t) : Framed s (commitInbox i r t) := by
  unfold commitInbox
  dsimp only
  repeat' first
    | with_reducible first | exact h | refine commitToks_framed ?_
    | split
    | with_reducible first | fail_if_no_progress refine Framed.atServe ?_ ⟨rfl, rfl, rfl, rfl, rfl, rfl, rfl, rfl⟩

theorem freeRemote_framed {i : Nat} {r : Req} (h : Framed s t) : Framed s (freeRemote i r t) := by
  unfold freeRemote
  repeat' first
    | with_reducible first | exact h | refine setReq_framed ?_ | refine dropPages_framed ?_
    | split

theorem rebuildLost_framed {i : Nat} {r : Req} (h : Framed s t) : Framed s (rebuildLost i r t) := by
  unfold rebuildLost
  dsimp only
  repeat' first
    | with_reducible first | exact h | refine rebuildReq_framed ?_ | refine reclaim_framed ?_
    | split

theorem endFailedDraft_framed {i : Nat} {r : Req} (h : Framed s t) : Framed s (endFailedDraft i r t) := by
  unfold endFailedDraft
  repeat' first
    | with_reducible first | exact h | refine endReq_framed ?_
    | split

theorem finishEnding_framed {i : Nat} {r : Req} (h : Framed s t) : Framed s (finishEnding i r t) := by
  unfold finishEnding
  repeat' first
    | with_reducible first | exact h | refine delReq_framed ?_ | refine reclaim_framed ?_
    | split

theorem applyCancel_framed {i : Nat} {r : Req} (h : Framed s t) : Framed s (applyCancel i r t) := by
  unfold applyCancel
  dsimp only
  repeat' first
    | with_reducible first | exact h | refine endReq_framed ?_ | refine setReq_framed ?_ | refine send_framed ?_ | refine reqRec_framed ?_
        | refine cancelReq_framed ?_ | refine delReq_framed ?_ | refine reclaim_framed ?_
    | split

theorem applyExpiry_framed {i : Nat} {r : Req} (h : Framed s t) : Framed s (applyExpiry i r t) := by
  unfold applyExpiry
  dsimp only
  repeat' first
    | with_reducible first | exact h | refine endReq_framed ?_ | refine logInfo_framed ?_
    | split
    | with_reducible first | fail_if_no_progress refine Framed.atServe ?_ ⟨rfl, rfl, rfl, rfl, rfl, rfl, rfl, rfl⟩

theorem tradeAll_framed (h : Framed s t) : Framed s (tradeAll t) := h.atServe ⟨rfl, rfl, rfl, rfl, rfl, rfl, rfl, rfl⟩

theorem takeDrift_framed {i : Nat} {l : List Nat} (h : Framed s t) : Framed s (takeDrift i l t) := by
  induction l generalizing i t with
  | nil => exact h
  | cons x l ih =>
    unfold takeDrift
    dsimp only
    repeat' with_reducible first | exact h | refine ih ?_ | fail_if_no_progress refine Framed.atServe ?_ ⟨rfl, rfl, rfl, rfl, rfl, rfl, rfl, rfl⟩

theorem startCopies_framed (h : Framed s t) : Framed s (startCopies t) := by
  unfold startCopies
  dsimp only
  repeat' with_reducible first | exact h | refine eachReq_framed (fun _ _ _ => ?_) ?_ | exact Framed.refl | refine setReq_framed ?_

theorem nextDue_framed (h : Framed s t) : Framed s (nextDue t).2 := h.atServe ⟨rfl, rfl, rfl, rfl, rfl, rfl, rfl, rfl⟩

theorem moveOut_framed {i : Nat} (h : Framed s t) : Framed s (moveOut i t) := by
  unfold moveOut
  dsimp only
  repeat' first
    | with_reducible first | exact h | refine setReq_framed ?_ | refine nextDue_framed ?_ | refine startCopies_framed ?_
        | refine takeDrift_framed ?_ | refine logInfo_framed ?_
    | split

theorem stopMoveOut_framed {i : Nat} (h : Framed s t) : Framed s (stopMoveOut i t) := by
  unfold stopMoveOut
  repeat' first
    | with_reducible first | exact h | refine startCopies_framed ?_ | refine setReq_framed ?_ | refine freeDrift_framed ?_
    | split

theorem finishMove_framed {i : Nat} {r : Req} (h : Framed s t) : Framed s (finishMove i r t) := by
  unfold finishMove
  dsimp only
  repeat' first
    | with_reducible first | exact h | refine dropPages_framed ?_ | refine logInfo_framed ?_ | refine setReq_framed ?_
        | refine freeDrift_framed ?_
    | split

theorem moveIn_framed {i : Nat} (h : Framed s t) : Framed s (moveIn i t) := by
  unfold moveIn
  dsimp only
  repeat' first
    | with_reducible first | exact h | refine rebuildReq_framed ?_ | refine steward_framed ?_ | refine markFrames_framed ?_
        | refine startCopies_framed ?_ | refine setReq_framed ?_
    | split

theorem askMoveIn_framed {i : Nat} (h : Framed s t) : Framed s (askMoveIn i t) := by
  unfold askMoveIn
  dsimp only
  repeat' first
    | with_reducible first | exact h | refine moveIn_framed ?_ | refine nextDue_framed ?_ | refine setReq_framed ?_
    | split

theorem pauseReq_framed {i : Nat} {r : Req} {host : Bool} (h : Framed s t) : Framed s (pauseReq i r host t) := by
  unfold pauseReq
  repeat' with_reducible first | exact h | refine reqRec_framed ?_ | refine setReq_framed ?_

theorem applyPause_framed {i : Nat} {r : Req} (h : Framed s t) : Framed s (applyPause i r t) := by
  unfold applyPause
  repeat' first
    | with_reducible first | exact h | refine moveOut_framed ?_ | refine pauseReq_framed ?_ | refine setReq_framed ?_
    | split

theorem applyResume_framed {i : Nat} {r : Req} (h : Framed s t) : Framed s (applyResume i r t) := by
  unfold applyResume
  dsimp only
  repeat' first
    | with_reducible first | exact h | refine stopMoveOut_framed ?_ | refine modReq_framed ?_ | refine askMoveIn_framed ?_
        | refine setReq_framed ?_
    | split

theorem growReq_framed {i : Nat} (h : Framed s t) : Framed s (growReq i t) := by
  unfold growReq
  dsimp only
  repeat' first
    | with_reducible first | exact h | refine steward_framed ?_ | refine setReq_framed ?_ | refine markFrames_framed ?_
        | refine pauseReq_framed ?_
    | split

theorem refillReq_framed {i : Nat} (h : Framed s t) : Framed s (refillReq i t) := by
  unfold refillReq
  dsimp only
  repeat' first
    | with_reducible first | exact h | refine steward_framed ?_ | refine setReq_framed ?_ | refine markFrames_framed ?_
    | split

theorem admitRows_framed {i : Nat} {r : Req} {g : Program} (h : Framed s t) : Framed s (admitRows i r g t).2 := by
  unfold admitRows
  dsimp only
  repeat' first
    | with_reducible first | exact h | refine logLimitedAt_framed ?_ | refine touchEntries_framed ?_ | refine shareAll_framed ?_
        | refine steward_framed ?_ | refine unshareAll_framed ?_ | refine setReq_framed ?_ | refine markFrames_framed ?_
    | split

theorem reexamine_framed {i : Nat} (h : Framed s t) : Framed s (reexamine i t) := by
  unfold reexamine
  dsimp only
  repeat' first
    | with_reducible first | exact h | refine admitRows_framed ?_ | refine reqRec_framed ?_
    | split

theorem applyPools_framed {l : List (Nat × SPart)} (h : Framed s t) : Framed s (applyPools l t) := by
  induction l generalizing t with
  | nil => exact h
  | cons x l ih => exact ih (setSpart_framed h)

theorem applyTargets_framed (h : Framed s t) : Framed s (applyTargets t) := h.atServe ⟨rfl, rfl, rfl, rfl, rfl, rfl, rfl, rfl⟩

theorem shiftPool_framed {p : Nat} (h : Framed s t) : Framed s (shiftPool p t) := by
  unfold shiftPool
  dsimp only
  repeat' first
    | with_reducible first | exact h | refine logInfo_framed ?_ | refine setSpart_framed ?_
    | split

theorem shiftPools_framed (h : Framed s t) : Framed s (shiftPools t) := by
  unfold shiftPools
  repeat' with_reducible first | exact h | refine eachId_framed (fun _ _ => ?_) ?_ | exact Framed.refl | refine shiftPool_framed ?_

theorem settleSel_framed {x : Sel} {i : Nat} {r : Req} (h : Framed s t) : Framed s (settleSel x i r t) := by
  unfold settleSel
  dsimp only
  repeat' first
    | with_reducible first | exact h | refine reqRec_framed ?_ | refine modReq_framed ?_ | refine stopMoveOut_framed ?_
        | refine setReq_framed ?_ | refine pauseReq_framed ?_
    | split

theorem movePtrs_framed {x : Sel} (h : Framed s t) : Framed s (movePtrs x t) := by
  unfold movePtrs
  dsimp only
  repeat' first
    | with_reducible first | exact h | refine setSpart_framed ?_ | exact Framed.refl
    | split
    | refine Framed.foldl (fun _ _ => ?_) ?_

theorem noteFull_framed {l : List Nat} (h : Framed s t) : Framed s (noteFull l t) := by
  induction l generalizing t with
  | nil => exact h
  | cons x l ih => exact ih (logLimitedAt_framed h)

theorem pokeUnits_framed {node : Nat} {l : List Nat} {n : List Byte} (h : Framed s t) : Framed s (pokeUnits node l n t) :=
  h.only (pokeUnits_only _ _ _ (List.Subset.refl _) Only.refl) rfl

theorem setProgress_framed {c : Nat} (h : Framed s t) : Framed s (setProgress c t) :=
  h.only (setProgress_only _ (List.Subset.refl _) Only.refl) rfl

theorem notices_framed {grp : Nat} {l : List Nat} (h : Framed s t) : Framed s (notices grp l t) := by
  induction l generalizing grp t with
  | nil => exact h
  | cons x l ih => exact ih (send_framed (setProgress_framed h))

theorem dispatchGroup_framed {grp : Nat} (h : Framed s t) : Framed s (dispatchGroup grp t) := by
  unfold dispatchGroup
  dsimp only
  repeat' first
    | with_reducible first | exact h | refine pokeUnits_framed ?_ | refine takeUnits_framed ?_ | refine notices_framed ?_
    | split
    | with_reducible first | fail_if_no_progress refine Framed.atServe ?_ ⟨rfl, rfl, rfl, rfl, rfl, rfl, rfl, rfl⟩

theorem freeTables_framed {l : List (Nat × Nat)} (h : Framed s t) : Framed s (freeTables l t) :=
  h.only (freeTables_only _ (List.Subset.refl _) Only.refl) rfl

theorem startTurns_framed (h : Framed s t) : Framed s (startTurns t) := h.atServe ⟨rfl, rfl, rfl, rfl, rfl, rfl, rfl, rfl⟩

theorem touchPages_framed {l : List Nat} (h : Framed s t) : Framed s (touchPages l t) :=
  h.only (touchPages_only _ (List.Subset.refl _) Only.refl) rfl

theorem edgeCommit_framed (h : Framed s t) : Framed s (edgeCommit t) := by
  unfold edgeCommit
  dsimp only
  repeat' first
    | with_reducible first | exact h | refine eachReq_framed (fun _ _ _ => ?_) ?_ | exact Framed.refl | refine freeRemote_framed ?_
        | refine commitInbox_framed ?_ | refine commitEntries_framed ?_ | refine finishMove_framed ?_ | refine endFailedDraft_framed ?_
        | refine rebuildLost_framed ?_ | refine applyExpiry_framed ?_ | refine applyCancel_framed ?_ | refine finishEnding_framed ?_

theorem makeGuests_framed (h : Framed s t) : Framed s (makeGuests t) := by
  unfold makeGuests
  dsimp only
  repeat' first
    | with_reducible first | exact h | refine markFrames_framed ?_ | refine setReq_framed ?_ | exact Framed.refl
    | split
    | refine Framed.foldl (fun _ _ => ?_) ?_
    | with_reducible first | fail_if_no_progress refine Framed.atServe ?_ ⟨rfl, rfl, rfl, rfl, rfl, rfl, rfl, rfl⟩

theorem waitPeer_framed {i : Nat} {r : Req} (h : Framed s t) : Framed s (waitPeer i r t) := by
  unfold waitPeer
  repeat' first
    | with_reducible first | exact h | refine setReq_framed ?_ | refine logInfo_framed ?_
    | split

theorem askPeer_framed {i : Nat} {r : Req} (h : Framed s t) : Framed s (askPeer i r t) := by
  unfold askPeer
  repeat' first
    | with_reducible first | exact h | refine waitPeer_framed ?_ | refine setReq_framed ?_ | refine send_framed ?_
    | split

theorem pipelineMoveIns_framed (h : Framed s t) : Framed s (pipelineMoveIns t) := by
  unfold pipelineMoveIns
  dsimp only
  repeat' first
    | with_reducible first | exact h | refine eachId_framed (fun _ _ => ?_) ?_ | exact Framed.refl | refine askMoveIn_framed ?_
        | refine moveIn_framed ?_

theorem readContext_framed {i : Nat} {r : Req} (h : Framed s t) : Framed s (readContext i r t) := by
  unfold readContext
  repeat' first
    | with_reducible first | exact h | refine writeContext_framed ?_ | refine logUe_framed ?_ | refine reqRec_framed ?_
        | refine setReq_framed ?_
    | split

theorem setEdge_framed (h : Framed s t) : Framed s (setEdge t) := by
  unfold setEdge
  repeat' with_reducible first | exact h | refine send_framed ?_ | refine lullSet_framed ?_

theorem edgeSweep_framed (h : Framed s t) : Framed s (edgeSweep t) := by
  unfold edgeSweep
  dsimp only
  repeat' first
    | with_reducible first | exact h | refine sweepRetained_framed ?_ | refine freeTables_framed ?_
    | with_reducible first | fail_if_no_progress refine Framed.atServe ?_ ⟨rfl, rfl, rfl, rfl, rfl, rfl, rfl, rfl⟩

end Sys2Proof.EdgeFrameCerts
end

section
/-!
PROOF. What the units that are fenced or leave at an edge leave alone (Framed): a cluster that is FAULTED stays so, for only units in service
go OFFLINE (spec/19_faults_and_recovery.md R508, R519).
-/
namespace Sys2Proof.EdgeFrameCerts

open Sys2Proof.Machine Sys2Proof.Laws

variable {s t : State}

theorem setGport_framed {k : Nat} {p : GPort} (h : Framed s t) : Framed s (setGport k p t) :=
  h.only (setGport_only _ _ (List.Subset.refl _) Only.refl) rfl

theorem modCx_framed {i : Nat} {f : CxSess → CxSess} (h : Framed s t) : Framed s (modCx i f t) :=
  h.only (modCx_only _ _ (List.Subset.refl _) Only.refl) rfl

theorem suspendCx_framed {i : Nat} (h : Framed s t) : Framed s (suspendCx i t) := by
  unfold suspendCx
  repeat' first
    | with_reducible first | exact h | refine logInfo_framed ?_ | refine modCx_framed ?_
    | split

theorem startTraining_framed {k : Nat} (h : Framed s t) : Framed s (startTraining k t) := by
  unfold startTraining
  dsimp only
  repeat' with_reducible first | exact h | refine setPortSt_framed ?_ | refine setGport_framed ?_

theorem endTracked_framed {k : Nat} {l : List (Nat × Nat × Nat)} (h : Framed s t) : Framed s (endTracked k l t) := by
  induction l generalizing k t with
  | nil => exact h
  | cons x l ih => exact ih (errorResponse_framed (modGport_framed h))

theorem suspendAll_framed {l : List Nat} (h : Framed s t) : Framed s (suspendAll l t) := by
  induction l generalizing t with
  | nil => exact h
  | cons x l ih => exact ih (suspendCx_framed h)

theorem portLeaves_framed {k cause : Nat} (h : Framed s t) : Framed s (portLeaves k cause t) := by
  unfold portLeaves
  dsimp only
  repeat' first
    | with_reducible first | exact h | refine endTracked_framed ?_ | refine modGport_framed ?_ | refine discardAll_framed ?_
        | refine suspendAll_framed ?_ | refine logUe_framed ?_
    | split

theorem discardGroup_framed {c : Nat} (h : Framed s t) : Framed s (discardGroup c t) := by
  unfold discardGroup
  dsimp only
  repeat' first
    | with_reducible first | exact h
    | split
    | with_reducible first | fail_if_no_progress refine Framed.atServe ?_ ⟨rfl, rfl, rfl, rfl, rfl, rfl, rfl, rfl⟩

theorem revokeCluster_framed {c : Nat} (h : Framed s t) : Framed s (revokeCluster c t) := by
  unfold revokeCluster
  dsimp only
  repeat' first
    | with_reducible first | exact h | refine discardGroup_framed ?_
    | with_reducible first | fail_if_no_progress refine Framed.atPwr ?_ | fail_if_no_progress refine Framed.atBond ?_

theorem revokeHeld_framed {ut inst : Nat} (h : Framed s t) : Framed s (revokeHeld ut inst t) := by
  unfold revokeHeld
  dsimp only
  repeat' first
    | with_reducible first | exact h | refine revokeCluster_framed ?_ | refine breakWindowsOf_framed ?_ | refine loseUnitContribs_framed ?_
        | refine poisonFor_framed ?_
    | split

theorem revoke_framed {ut inst : Nat} (h : Framed s t) : Framed s (revoke ut inst t) := by
  unfold revoke
  repeat' with_reducible first | exact h | refine rebuildRoutes_framed ?_ | refine revokeHeld_framed ?_

theorem fenceUnit_framed {ut inst trigger : Nat} (h : Framed s t) : Framed s (fenceUnit ut inst trigger t) := by
  unfold fenceUnit
  repeat' with_reducible first | exact h | refine logUe_framed ?_ | refine revoke_framed ?_ | refine markFaulted_framed ?_

theorem unitSt_revokeHeld (ut inst n k : Nat) (t : State) : (revokeHeld n k t).unitSt ut inst = t.unitSt ut inst :=
  congrArg (fun u : Units => (Tab.get ({} : UnitRec) u.tab (unitKey ut inst)).st)
    ((revokeHeld_only _ _ (List.Subset.refl _) Only.refl).keeps .units (by decide))

/-- A unit in service goes OFFLINE: no cluster that is FAULTED does. -/
theorem offlineUnit_framed {ut inst : Nat} (hin : t.unitSt ut inst = .inService) (h : Framed s t) : Framed s (offlineUnit ut inst t) := by
  have hgood : (revokeHeld ut inst t).unitSt ut inst ≠ .faulted := by
    rw [unitSt_revokeHeld, hin]
    exact UnitSt.noConfusion
  exact logInfo_framed (setUnitSt_framed (.inr (.inl hgood)) (revokeHeld_framed h))

theorem fenceAll_framed {ut trigger : Nat} {l : List Nat} (h : Framed s t) : Framed s (fenceAll ut trigger l t) := by
  induction l generalizing ut trigger t with
  | nil => exact h
  | cons x l ih => exact ih (fenceUnit_framed h)

theorem modCxl_framed {n : Nat} {f : CxlPort → CxlPort} (h : Framed s t) : Framed s (modCxl n f t) :=
  h.only (modCxl_only _ _ (List.Subset.refl _) Only.refl) rfl

theorem poisonCut_framed (h : Framed s t) : Framed s (poisonCut t) := by
  unfold poisonCut
  repeat' first
    | with_reducible first | exact h | refine poisonAll_framed ?_
    | split

theorem portOffline_framed {k : Nat} (h : Framed s t) : Framed s (portOffline k t) := by
  have hleft := poisonCut_framed (setPortSt_framed (k := k) (st := .offline) (modGport_framed (k := k) (f := fun p => { p with step := 0 })
    (revokeHeld_framed (ut := 0x07) (inst := k) (portLeaves_framed (k := k) (cause := 0) h))))
  have hnoted : Framed s (if awaits t (.unitOffline 0x07 k) 0x0B05 then logInfo 0x0B04 0x07 k []
      (poisonCut (setPortSt k .offline (modGport k (fun p => { p with step := 0 }) (revokeHeld 0x07 k (portLeaves k 0 t)))))
      else poisonCut (setPortSt k .offline (modGport k (fun p => { p with step := 0 }) (revokeHeld 0x07 k (portLeaves k 0 t))))) := by
    split
    · exact logInfo_framed hleft
    · exact hleft
  unfold portOffline
  dsimp only
  split
  · exact completeAwait_framed hnoted
  · exact modGport_framed (startTraining_framed (completeAwait_framed hnoted))

theorem loseFrames_framed {l : List Nat} (h : Framed s t) : Framed s (loseFrames l t) := by
  induction l generalizing t with
  | nil => exact h
  | cons x l ih => exact ih (dropIndex_framed (modFrame_framed h))

theorem loseStack_framed {l : Nat} (h : Framed s t) : Framed s (loseStack l t) := by
  unfold loseStack
  dsimp only
  repeat' with_reducible first | exact h | refine logUe_framed ?_ | refine loseFrames_framed ?_

theorem driftLose_framed {hit : Nat → Bool} {i : Nat} {r : Req} (h : Framed s t) : Framed s (driftLose hit i r t) := by
  unfold driftLose
  dsimp only
  repeat' first
    | with_reducible first | exact h | refine logUe_framed ?_ | refine setReq_framed ?_ | refine freeDrift_framed ?_
        | refine freeFrames_framed ?_
    | split
    | with_reducible first | fail_if_no_progress refine Framed.atServe ?_ ⟨rfl, rfl, rfl, rfl, rfl, rfl, rfl, rfl⟩

theorem driftLost_framed {hit : Nat → Bool} (h : Framed s t) : Framed s (driftLost hit t) := by
  unfold driftLost
  repeat' first
    | with_reducible first | exact h | refine startCopies_framed ?_ | refine eachReq_framed (fun _ _ _ => ?_) ?_ | exact Framed.refl
        | refine driftLose_framed ?_

theorem cxlOut_framed {n : Nat} (h : Framed s t) : Framed s (cxlOut n t) := by
  unfold cxlOut
  dsimp only
  repeat' first
    | with_reducible first | exact h | refine modCxl_framed ?_ | refine driftLost_framed ?_
    | with_reducible first | fail_if_no_progress refine Framed.atServe ?_ ⟨rfl, rfl, rfl, rfl, rfl, rfl, rfl, rfl⟩

theorem disableVanes_framed {n : Nat} (h : Framed s t) : Framed s (disableVanes n t) :=
  h.only (disableVanes_only _ (List.Subset.refl _) Only.refl) rfl

theorem offlineWith_framed {ut : Nat} {l : List Nat} (h : Framed s t) : Framed s (offlineWith ut l t) := by
  induction l generalizing t with
  | nil => exact h
  | cons i l ih =>
    rw [offlineWith]
    refine ih ?_
    split
    · exact h
    · next hin =>
      split
      · exact portOffline_framed h
      · exact offlineUnit_framed (not_not.1 hin) h

theorem offlineRouter_framed {n : Nat} (h : Framed s t) : Framed s (offlineRouter n t) := by
  unfold offlineRouter
  repeat' with_reducible first | exact h | refine disableVanes_framed ?_ | refine offlineWith_framed ?_

theorem offlineLost_framed {ut inst : Nat} (h : Framed s t) : Framed s (offlineLost ut inst t) := by
  unfold offlineLost
  repeat' first
    | with_reducible first | exact h | refine offlineRouter_framed ?_ | refine loseStack_framed ?_ | refine cxlOut_framed ?_
    | split

theorem offlineNow_framed {u : Nat × Nat} (h : Framed s t) : Framed s (offlineNow u t) := by
  unfold offlineNow
  split
  · split
    · exact portOffline_framed (linkFlit_framed h)
    · exact completeAwait_framed h
  · refine completeAwait_framed ?_
    split
    · next hin => exact offlineLost_framed (offlineUnit_framed hin h)
    · exact h

theorem leaveAll_framed {l : List (Nat × Nat)} (h : Framed s t) : Framed s (leaveAll l t) := by
  induction l generalizing t with
  | nil => exact h
  | cons x l ih =>
    unfold leaveAll
    dsimp only
    repeat' first
      | with_reducible first | exact h | refine ih ?_ | refine offlineNow_framed ?_
      | split
      | with_reducible first | fail_if_no_progress refine Framed.atUnits ?_ rfl

theorem releaseLeaving_framed (h : Framed s t) : Framed s (releaseLeaving t) := by
  unfold releaseLeaving
  dsimp only
  repeat' with_reducible first | exact h | refine leaveAll_framed ?_ | fail_if_no_progress refine Framed.atUnits ?_ rfl

end Sys2Proof.EdgeFrameCerts
end

section
/-!
PROOF. A step edge, a step that overruns, and the dispatch notices (spec/13_serving_pipeline.md R339, R340, R358,
spec/12_translation_dma_preemption.md R325).
-/
namespace Sys2Proof.StepEdgeCerts

open Sys2Proof.Machine Sys2Proof.Laws Sys2Proof.EdgeFrameCerts

variable {s t : State}

/-! ## The edge, part by part -/

/-- The edge's times are taken. -/
def edgeTimed (s : State) : State :=
  { s with serve := { s.serve with prevEdge := s.serve.edgeAt, edgeAt := s.now, lastTime := s.now - s.serve.dispatchedAt } }

/-- No pool setting waits any more. -/
def poolsTaken (s : State) : State := { s with serve := { s.serve with nextPool := [] } }

/-- The edge up to the pool settings, then up to the selection, and the selection with the units that leave after it. -/
theorem stepEdge_parts (s : State) : ∃ u v, Framed (setEdge (edgeTimed s)) u ∧ Framed (poolsTaken u) v
    ∧ stepEdge s = releaseLeaving (edgeSelect v) := by
  unfold stepEdge
  extract_lets serve0 s0 s1 s2 s3 order s4 s5 serve5 s6 s7
  have hswept : Framed (setEdge s0) s2 := tradeAll_framed (edgeSweep_framed (edgeCommit_framed .refl))
  have hturned : Framed s2 s3 := by
    refine eachId_framed (fun i u => ?_) (eachReq_framed (fun _ _ _ => applyPause_framed .refl) .refl)
    split
    · exact .refl
    · exact applyResume_framed .refl
  have hgrown : Framed s3 s4 := eachId_framed (fun _ _ => reexamine_framed .refl) (eachId_framed (fun _ _ => refillReq_framed .refl)
    (eachId_framed (fun _ _ => growReq_framed .refl) (makeGuests_framed .refl)))
  have hpooled : Framed s4 s5 := shiftPools_framed (applyTargets_framed (applyPools_framed .refl))
  have hread : Framed (poolsTaken s5) s7 := eachReq_framed (fun _ _ _ => readContext_framed .refl) .refl
  have hasked : Framed s7 (eachReq askPeer s7.reqIds (pipelineMoveIns s7)) :=
    eachReq_framed (fun _ _ _ => askPeer_framed .refl) (pipelineMoveIns_framed .refl)
  exact ⟨s5, _, ((hswept.trans hturned).trans hgrown).trans hpooled, hread.trans hasked, rfl⟩

/-! ## The dispatch -/

/-- The next step is open: counted, timed, without packets or decisions. -/
def stepOpened (es : List Entry) (s : State) : State :=
  { s with serve := { s.serve with
    step := s.serve.step + 1, entries := es, groups := 0, reported := 0, discarded := 0, packets := [], decided := []
    dispatchedAt := s.now } }

theorem edgeSelect_opens (s : State) : ∃ es u, Framed s u ∧ Framed (stepOpened es u) (edgeSelect s) :=
  ⟨_, _, noteFull_framed (movePtrs_framed (eachReq_framed (fun _ _ _ => settleSel_framed .refl) .refl)),
    startTurns_framed (touchPages_framed (eachId_framed (fun _ _ => dispatchGroup_framed .refl) .refl))⟩

/-! ## The whole edge (R339, R340) -/

/-- What a step edge leaves. -/
structure EdgeDone (s t : State) : Prop where
  step : t.serve.step = s.serve.step + 1
  edgeAt : t.serve.edgeAt = s.now
  prevEdge : t.serve.prevEdge = s.serve.edgeAt
  dispatchedAt : t.serve.dispatchedAt = s.now
  lastTime : t.serve.lastTime = s.now - s.serve.dispatchedAt
  nextPool : t.serve.nextPool = []
  packets : t.serve.packets = []
  decided : t.serve.decided = []
  sent : .flit 0 "STEP_MON" [s.serve.step] ∈ t.out.sent
  faults : ∀ c < 256, s.unitSt 0x01 c = .faulted → t.unitSt 0x01 c = .faulted

theorem edgeDone_of_parts {a u v w t : State} {es : List Entry} (hedge : Framed (edgeTimed s) a)
    (hpulse : .flit 0 "STEP_MON" [s.serve.step] ∈ a.out.sent) (hbefore : Framed a u) (hafter : Framed (poolsTaken u) v)
    (hselect : Framed v w) (hopen : Framed (stepOpened es w) t) : EdgeDone s t := by
  have hfirst : Framed (edgeTimed s) u := hedge.trans hbefore
  have hlast : Framed (poolsTaken u) w := hafter.trans hselect
  have haon : w.aon = s.aon := hlast.aon.trans hfirst.aon
  exact {
    step := hopen.serve.step.trans (congrArg (· + 1) (hlast.serve.step.trans hfirst.serve.step))
    edgeAt := hopen.serve.edgeAt.trans (hlast.serve.edgeAt.trans hfirst.serve.edgeAt)
    prevEdge := hopen.serve.prevEdge.trans (hlast.serve.prevEdge.trans hfirst.serve.prevEdge)
    dispatchedAt := hopen.serve.dispatchedAt.trans (congrArg (fun x : Aon => State.now { s with aon := x }) haon)
    lastTime := hopen.serve.lastTime.trans (hlast.serve.lastTime.trans hfirst.serve.lastTime)
    nextPool := hopen.serve.nextPool.trans hlast.serve.nextPool
    packets := hopen.serve.packets
    decided := hopen.serve.decided
    sent := hopen.sent _ (hlast.sent _ (hbefore.sent _ hpulse))
    faults := fun c hc hf => hopen.faults c hc (hlast.faults c hc (hfirst.faults c hc hf)) }

theorem stepEdge_done (s : State) : EdgeDone s (stepEdge s) := by
  obtain ⟨u, v, hbefore, hafter, heq⟩ := stepEdge_parts s
  obtain ⟨es, w, hselect, hopen⟩ := edgeSelect_opens v
  rw [heq]
  exact edgeDone_of_parts (setEdge_framed .refl) List.mem_cons_self hbefore hafter hselect (releaseLeaving_framed hopen)

/-! ## An overrun (R358) -/

theorem fenceUnit_faulted {c : Nat} (hc : c < 256) (trigger : Nat) (t : State) : (fenceUnit 0x01 c trigger t).unitSt 0x01 c = .faulted := by
  have hmark : (markFaulted 0x01 c trigger t).unitSt 0x01 c = .faulted := by
    rw [State.unitSt, State.unitRec, markFaulted, setUnitRec]
    dsimp only
    rw [Tab.get_put_self]
  have hrest : Framed (markFaulted 0x01 c trigger t) (fenceUnit 0x01 c trigger t) := logUe_framed (revoke_framed .refl)
  exact hrest.faults c hc hmark

theorem fenceAll_faulted (trigger : Nat) {l : List Nat} {c : Nat} (hmem : c ∈ l) (hc : c < 256) :
    (fenceAll 0x01 trigger l t).unitSt 0x01 c = .faulted := by
  induction l generalizing t with
  | nil => exact absurd hmem List.not_mem_nil
  | cons i l ih =>
    rw [fenceAll]
    by_cases hin : c ∈ l
    · exact ih hin
    · have hhead : c = i := (List.mem_cons.1 hmem).resolve_right hin
      subst hhead
      have hrest : Framed (fenceUnit 0x01 c trigger t) (fenceAll 0x01 trigger l (fenceUnit 0x01 c trigger t)) := fenceAll_framed .refl
      exact hrest.faults c hc (fenceUnit_faulted hc trigger t)

theorem lt_of_mem_groupClusters {g c : Nat} (hg : g < 16) (hc : c ∈ groupClusters g) : c < 256 := by
  obtain ⟨x, hx, rfl⟩ := List.mem_map.1 hc
  have hlt := List.mem_range.1 hx
  rw [nodeAt]
  omega

/-- The clusters of the late groups that carry traffic. -/
def lateClusters (s : State) : List Nat := ((lateGroups s).flatMap groupClusters).filter fun c => carrying s 0x01 c

/-- The late clusters are fenced, the work of their groups and all drafting are discarded, the overrun is noted. -/
def overrun (s : State) : State :=
  let u := fenceAll 0x01 0x0501 (lateClusters s) s
  logUe .unit 0x0501 0x0E 0 [s.serve.step] { u with serve := { u.serve with
    discarded := (lateGroups s).foldl (fun m g => setBit m g true) u.serve.discarded, drafting := [] } }

theorem overrun_framed (s : State) : Framed s (overrun s) :=
  logUe_framed (Framed.atServe (fenceAll_framed .refl) ⟨rfl, rfl, rfl, rfl, rfl, rfl, rfl, rfl⟩)

theorem overrun_faulted {g c : Nat} (hg : g ∈ lateGroups s) (hc : c ∈ groupClusters g) (hup : carrying s 0x01 c = true) :
    c < 256 ∧ (overrun s).unitSt 0x01 c = .faulted := by
  have hlt : c < 256 := lt_of_mem_groupClusters (List.mem_range.1 (List.mem_filter.1 hg).1) hc
  have hfenced : (fenceAll 0x01 0x0501 (lateClusters s) s).unitSt 0x01 c = .faulted :=
    fenceAll_faulted _ (List.mem_filter.2 ⟨List.mem_flatMap.2 ⟨g, hg, hc⟩, hup⟩) hlt
  have hrest : Framed (fenceAll 0x01 0x0501 (lateClusters s) s) (overrun s) :=
    logUe_framed (Framed.atServe .refl ⟨rfl, rfl, rfl, rfl, rfl, rfl, rfl, rfl⟩)
  exact ⟨hlt, hrest.faults c hlt hfenced⟩

theorem stepOverrun_edges (hphase : s.aon.phase = .serve) (hdone : stepDone s = false) (hopen : ∀ g < 16, groupInWindow s g = false)
    (hlate : s.serve.dispatchedAt + overrunAfter s ≤ s.now) : Answers .stepOverrun s fun t =>
      t.serve.step = s.serve.step + 1 ∧ t.serve.edgeAt = s.now ∧ t.serve.dispatchedAt = s.now
      ∧ .flit 0 "STEP_MON" [s.serve.step] ∈ t.out.sent
      ∧ ∀ g ∈ lateGroups s, ∀ c ∈ groupClusters g, carrying s 0x01 c = true → t.unitSt 0x01 c = .faulted := by
  have hexec : exec .stepOverrun s = execStepOverrun s := rfl
  have hall : ((List.range 16).all fun g => !groupInWindow s g) = true := by
    rw [List.all_eq_true]
    exact fun g hg => by rw [hopen g (List.mem_range.1 hg)]; rfl
  rw [execStepOverrun, if_pos (by simp [hphase, hdone, hall, hlate])] at hexec
  have hover := overrun_framed s
  have hfaulted := fun g hg c hc hup => overrun_faulted (s := s) (g := g) (c := c) hg hc hup
  refine ⟨stepEdge (overrun s), hexec, ?_⟩
  generalize overrun s = u at *
  have hdone := stepEdge_done u
  have hnow : u.now = s.now := congrArg (fun x : Aon => State.now { s with aon := x }) hover.aon
  refine ⟨hdone.step.trans (congrArg (· + 1) hover.serve.step), hdone.edgeAt.trans hnow, hdone.dispatchedAt.trans hnow,
    hover.serve.step ▸ hdone.sent, fun g hg c hc hup => ?_⟩
  obtain ⟨hlt, hf⟩ := hfaulted g hg c hc hup
  exact hdone.faults c hlt hf

/-! ## Edges and overruns that do nothing -/

theorem stepEdge_waits (h : stepDone s = false) : exec .stepEdge s = .next s := by
  have hexec : exec .stepEdge s = execStepEdge s := rfl
  rw [hexec, execStepEdge, if_neg (by simp [h])]

theorem stepOverrun_in_window {g : Nat} (hg : g < 16) (h : groupInWindow s g = true) : exec .stepOverrun s = .next s := by
  have hexec : exec .stepOverrun s = execStepOverrun s := rfl
  have hall : ((List.range 16).all fun g => !groupInWindow s g) = false := by
    rw [List.all_eq_false]
    exact ⟨g, List.mem_range.2 hg, by rw [h]; exact Bool.false_ne_true⟩
  rw [hexec, execStepOverrun, if_neg (by simp only [hall, Bool.and_false, Bool.false_and, Bool.false_eq_true, not_false_eq_true])]

theorem edges_need_serve (h : s.aon.phase ≠ .serve) : exec .stepEdge s = .next s ∧ exec .stepOverrun s = .next s := by
  have hedge : exec .stepEdge s = execStepEdge s := rfl
  have hover : exec .stepOverrun s = execStepOverrun s := rfl
  exact ⟨by rw [hedge, execStepEdge, if_neg (by simp [h])], by rw [hover, execStepOverrun, if_neg (by simp [h])]⟩

/-! ## Dispatch notices (R325) -/

theorem progressSlot_setProgress (c k : Nat) (s : State) : progressSlot (setProgress c s) k = progressSlot s k := by
  have hpart : clusterPart (setProgress c s) k = clusterPart s k := rfl
  by_cases hk : k = c
  · subst hk
    have hget : (Tab.get ({} : BondPort) (setProgress k s).bond.ports k).progress = some (clusterPart s k, progressSlot s k) := by
      rw [setProgress]
      dsimp only
      rw [Tab.mod, Tab.get_put_self]
    rw [progressSlot, hget]
    exact if_pos hpart.symm
  · have hget : Tab.get ({} : BondPort) (setProgress c s).bond.ports k = Tab.get {} s.bond.ports k := by
      rw [setProgress]
      dsimp only
      rw [Tab.mod, Tab.get_put, if_neg hk]
    rw [progressSlot, hget, hpart, ← progressSlot]

theorem progressSlot_notices (grp : Nat) (l : List Nat) (c : Nat) (s : State) : progressSlot (notices grp l s) c = progressSlot s c := by
  induction l generalizing s with
  | nil => rfl
  | cons k l ih => exact (ih _).trans (progressSlot_setProgress k c s)

theorem notices_sent (grp : Nat) {l : List Nat} {c : Nat} (hc : c ∈ l) (s : State) :
    .flit c "dispatch" [s.serve.step, grp, progressSlot s c] ∈ (notices grp l s).out.sent := by
  induction l generalizing s with
  | nil => exact absurd hc List.not_mem_nil
  | cons k l ih =>
    rw [notices]
    by_cases hin : c ∈ l
    · have hrest := ih hin (send (.flit k "dispatch" [s.serve.step, grp, progressSlot s k]) (setProgress k s))
      have hslot : progressSlot (send (.flit k "dispatch" [s.serve.step, grp, progressSlot s k]) (setProgress k s)) c = progressSlot s c :=
        progressSlot_setProgress k c s
      rwa [hslot] at hrest
    · have hhead : c = k := (List.mem_cons.1 hc).resolve_right hin
      subst hhead
      have hkept : Framed _ (notices grp l (send (.flit c "dispatch" [s.serve.step, grp, progressSlot s c]) (setProgress c s))) :=
        notices_framed .refl
      exact hkept.sent _ List.mem_cons_self

/-- Settles O47: the edge by what all its parts keep, the overrun by the fence of the late clusters before it, the notices by induction. -/
theorem stepEdgesAndOverruns : Obligations.StepEdgesAndOverruns := by
  refine ⟨fun s hphase => ⟨fun hdone => ?_, stepEdge_waits, fun g => stepOverrun_in_window, stepOverrun_edges hphase⟩, fun s => edges_need_serve,
    fun grp l s _ c hc => ⟨notices_sent grp hc s, progressSlot_notices grp l c s⟩⟩
  have hexec : exec .stepEdge s = execStepEdge s := rfl
  rw [execStepEdge, if_pos (by simp [hphase, hdone])] at hexec
  have h := stepEdge_done s
  exact ⟨_, hexec, h.step, h.edgeAt, h.prevEdge, h.dispatchedAt, h.lastTime, h.nextPool, h.packets, h.decided, h.sent⟩

end Sys2Proof.StepEdgeCerts
end
